-- ==== Sys2Proof/Word.lean ====
section
/-! DEFINITION. The word types of the SL7400 model and the plain containers built on them. -/

namespace Sys2Proof

/-- One byte. -/
abbrev Byte := BitVec 8
/-- A 32-bit register word. -/
abbrev Word := BitVec 32
/-- A 64-bit register word. -/
abbrev Dword := BitVec 64
/-- The 4,096 data bytes of one letter, byte 0 least significant (R22). -/
abbrev LetterData := BitVec 32768
/-- The 32 slot-metadata bytes of a codeword (Table 8-2). -/
abbrev SlotMeta := BitVec 256
/-- Bytes 0 to 4,127 of a codeword: the payload of a slot (R206). -/
abbrev Payload := BitVec 33024
/-- A codeword of 4,608 bytes: the payload, then 480 bytes of LDPC parity (Table 8-1). -/
abbrev Codeword := BitVec 36864

/-- A sparse table from numbers to values: keys strictly rising, an unlisted key is absent. -/
abbrev NMap (α : Type) := List (Nat × α)

/-- One value for each of the two host ports. -/
structure Both (α : Type) where
  a : α
  b : α
deriving DecidableEq, Repr

end Sys2Proof
end

