-- ==== Sys2Proof/Syntax.lean ====
section
/-! DEFINITION. The commands of the SL7400 block: one constructor of Instr per row of spec/opcode_table.json, and the
operand types they use. An operand says what the sender outside the block supplies: a host's command fields, a register
write's value, or what the die, the memory, the neighbour or the clock answered. -/

namespace Sys2Proof

/-- A host port (R68). -/
inductive Port | a | b
deriving DecidableEq, Repr

/-- The initiator of a register access, coded as INIT of Table 2-6. -/
inductive Initiator
  | ap (k : Fin 8)
  | sc0
  | sc1
  | bar2 (p : Port)
deriving DecidableEq, Repr

/-- The register blocks of Table 2-1. -/
inductive Blk
  | hfeA | hfeB | srt | map | phc | drc | jrc | str | pat | thm | pwr | rng | sec | evr | cfg | cry | evf | scb | dst | chn
deriving DecidableEq, Repr

/-- Where a fetched command came from: its port, submission queue (0 the admin queue), command identifier and NSID. -/
structure Sqe where
  port : Port
  qid  : Nat
  cid  : Nat
  nsid : Nat
deriving DecidableEq, Repr

/-- A physical address (Table 5-1). -/
structure Ppa where
  lun   : Nat
  block : Nat
  page  : Nat
  slot  : Nat
deriving DecidableEq, Repr

/-- The protection-information fields of a command (R88): action, the PRCHK bits guard, application tag and reference tag,
the initial reference tag, the application tag and its mask. -/
structure PiOp where
  pract : Bool
  chkGuard : Bool
  chkApp : Bool
  chkRef : Bool
  ilbrt : Nat
  lbat  : Nat
  lbatm : Nat
deriving DecidableEq, Repr

/-- A range of letters: first letter and count. -/
structure LetterRange where
  slba : Nat
  nlb  : Nat
deriving DecidableEq, Repr

/-- One block of host data: its 4,096 bytes and its metadata (up to 64 bytes). -/
structure HostBlock where
  data : LetterData
  md   : BitVec 512
deriving DecidableEq, Repr

/-- The fields of a Read, Write, Compare, Verify or Write Zeroes: first LBA, 0-based count and PI. -/
structure IoFields where
  slba : Nat
  nlb  : Nat
  pi   : PiOp
deriving DecidableEq, Repr

/-- What the DRAM controller reports for a unit it reads (Table 12-1, R300). -/
inductive UnitReport
  | clean | corrected (position : Nat) | ue | poison | uninit
deriving DecidableEq, Repr

/-- What the cells add to a unit as it is read: the bits that differ from what was written there, and whether the die flagged the burst.
Of DRAM byte j of device position p is byte 4p + j (R297); of JRAM the first 72 bytes are the outer codeword (R305); of SRAM the first
72 bits are the word (R306). -/
structure UnitRead where
  err  : BitVec 640 := 0
  flag : Bool := false
deriving DecidableEq, Repr

/-- The clients of the pigeonhole cache (R163): the map engine, the threshold-tracking loop, and the processor complex through its
cached DRAM window. -/
inductive Client | map | track | proc
deriving DecidableEq, Repr

/-- One client request to the pigeonhole cache: the line, for a write its byte mask and bytes, and the client. -/
structure LineReq where
  line  : Nat
  write : Bool
  mask  : BitVec 64
  bytes : BitVec 512
  client : Client := .map
deriving DecidableEq, Repr

/-- An error the cache met at a lookup (Table 6-5). -/
inductive LineError
  | corrected
  | dataUncorrected
  | oneTag
  | bothTags (couldBeDirty : Bool)
deriving DecidableEq, Repr

/-- Statistics of one raw read that the threshold loop takes (R221): ones before and after, syndrome weight. -/
structure ReadStats where
  rawOnes  : Nat
  corrOnes : Nat
  weight   : Nat
deriving DecidableEq, Repr

/-- One codeword of a courier read: its slot, whether its hard decode succeeded, the corrected bits, and the statistics of the raw
read. -/
structure CodewordRead where
  slot      : Nat
  decoded   : Bool
  corrected : Nat
  stats     : ReadStats
deriving DecidableEq, Repr

/-- The array a die holds an operation in (Table 7-3). -/
inductive DieOutcome | ok | statusFail
deriving DecidableEq, Repr

/-- One sensor conversion of a round: none where it failed or read outside its range; else sixteenths of a degree. -/
abbrev Reading := Option Int

/-- The two ring ports. -/
inductive RingPort | east | west
deriving DecidableEq, Repr

/-- The header of a received dispatch (Table 13-2), and the port it arrived on. -/
structure DispHdr where
  port : RingPort
  dst  : Nat
  src  : Nat
  ttl  : Nat
  seq  : Nat
deriving DecidableEq, Repr

/-- The link states of a ring port (Table 13-1). -/
inductive RingLink | down | training | up | miswired
deriving DecidableEq, Repr

/-- The transports an SPDM request can arrive on (Table 14-8). -/
inductive SpdmTransport | smbus | vdm (p : Port) | nvme (p : Port)
deriving DecidableEq, Repr

/-- The SPDM requests of Table 14-8, as Security Send carries them. -/
inductive SpdmReq
  | getVersion | getCapabilities | negotiateAlgorithms (supported : Bool) | getDigests
  | getCertificate (slot offset length : Nat) | challenge (slot : Nat) | getMeasurements (index : Nat) (signed : Bool)
  | keyExchange (mutualAuth : Bool) | finish (session : Nat) (verified : Bool) (chainKeyHash : BitVec 512)
  | heartbeat (session : Nat) | keyUpdate (session : Nat) | endSession (session : Nat)
  | unsupported
deriving DecidableEq, Repr

/-- What CC holds as EN is set: the arbitration, the page size, the command set and the entry sizes (R78). -/
structure CcFields where
  ams : Nat
  mps : Nat
  css : Nat := 0
  iosqes : Nat := 6
  iocqes : Nat := 4
deriving DecidableEq, Repr

/-- AQA: the 0-based sizes of the admin queue pair; ASQ and ACQ: their addresses (R80). -/
structure Aqa where
  asqs : Nat
  acqs : Nat
  asq : Nat := 0
  acq : Nat := 0
deriving DecidableEq, Repr

/-- What the training at the end of a courier reset found: the eyes by chip enable, the chip enables that failed, and whether the
stored settings were verified (R189, R198). -/
structure TrainFound where
  eyes     : List (Nat × Nat)
  failedCe : List Nat
  verified : Bool
deriving DecidableEq, Repr

/-- A schedule descriptor (Table 13-7): SSEQ, EFF, PERIOD, the reserved bytes as a number, and OFF and LEN per address. -/
structure SchedDesc where
  sseq   : Nat
  eff    : Nat
  period : Nat
  rsvd   : Nat
  entry  : List (Nat × Nat)
deriving DecidableEq, Repr

/-- A relocation job entry as firmware writes it (Table 9-5, bytes 0 to 15 and the reserved bytes as a number). -/
structure JobReq where
  sbid   : Nat
  op     : Nat
  stream : Nat
  member : Nat
  first  : Nat
  last   : Nat
  rsvd   : Nat
deriving DecidableEq, Repr

/-- Feature values of Set Features that is not a row of its own: CDW11, CDW12 and the data structure as a number. -/
structure FeatVal where
  cdw11 : Nat
  cdw12 : Nat
  data  : Nat
deriving DecidableEq, Repr

/-- A PCIe configuration request (R73, R74): a read or write of a dword, or a write that sets the D-state (D3hot or D0) or the
maximum snoop and no-snoop latencies in µs. -/
inductive CfgReq
  | read (off : Nat) | write (off v : Nat) | dState (hot : Bool) | ltrMax (snoop noSnoop : Nat)
deriving DecidableEq, Repr

/-- The commands: one constructor per row of spec/opcode_table.json, those without operands last (which lets compiled Lean
build every one of them). -/
inductive Instr
  -- register space and the event fabric
  | registerWrite (i : Initiator) (off size : Nat) (v : Dword)
  | bar2Access (p : Port) (off size : Nat) (w : Option Dword)
  | blockCtlWrite (i : Initiator) (b : Blk) (u : Fin 32) (v : Word)
  | disableSequenceDone (b : Blk) (u : Fin 32)
  | evfDoorbellWrite (i : Initiator) (v : Word)
  | holdoffExpiry (p : Port) (second : Bool)
  | timerFire (n : Fin 14)
  | watchdogExpiry (k : Fin 10)
  | watchdogKick (i : Initiator) (k : Fin 10) (v : Word)
  -- queues and I/O commands
  | sqTailDoorbell (p : Port) (qid tail : Nat)
  | cqHeadDoorbell (p : Port) (qid head : Nat)
  | unsupportedOpcode (q : Sqe) (opc : Nat) (fused : Bool)
  | flush (q : Sqe)
  | write (q : Sqe) (f : IoFields) (stream : Nat)
  | read (q : Sqe) (f : IoFields) (lr : Bool)
  | compare (q : Sqe) (f : IoFields) (hostData : List HostBlock)
  | writeZeroes (q : Sqe) (f : IoFields) (deac : Bool)
  | datasetManagement (q : Sqe) (ranges : List LetterRange) (ad : Bool)
  | verify (q : Sqe) (f : IoFields)
  | writeDataTransferDone (id : Nat) (blocks : List HostBlock) (hostFail bufferUe : Bool)
  | commandRelease (id : Nat) (lines : List LineReq)
  | commitAck (lines : List LineReq)
  | waitlimExceeded (id : Nat)
  | srtHwmClr (i : Initiator) (v : Word)
  | abort (q : Sqe) (sqid tcid : Nat)
  -- administrative commands
  | createIoSq (q : Sqe) (qid size cqid prio fsm : Nat) (pc aligned : Bool)
  | createIoCq (q : Sqe) (qid size vector : Nat) (ien pc aligned : Bool)
  | deleteIoSq (q : Sqe) (qid : Nat)
  | deleteIoCq (q : Sqe) (qid : Nat)
  | identify (q : Sqe) (cns cntid : Nat)
  | getLogPage (q : Sqe) (lid lsp lpo : Nat) (rae : Bool)
  | deadLetterOfficeLog (q : Sqe) (lsp lpo : Nat) (rae : Bool)
  | recorderExportLog (q : Sqe) (lsp lpo : Nat) (rae : Bool)
  | ringStatusLog (q : Sqe) (lsp lpo : Nat) (rae : Bool)
  | mediaHealthDetailLog (q : Sqe) (lsp lpo : Nat) (rae : Bool)
  | capacityAndSheddingLog (q : Sqe) (lsp lpo : Nat) (rae : Bool)
  | setFeatures (q : Sqe) (fid : Nat) (sv : Bool) (v : FeatVal)
  | getFeatures (q : Sqe) (fid sel cdw11 : Nat)
  | setPowerManagement (q : Sqe) (ps : Nat) (sv : Bool)
  | setPlmWindow (q : Sqe) (window : Nat)
  | setLatencyTolerance (q : Sqe) (us : Nat) (sv : Bool)
  | setFailStopDefault (q : Sqe) (cdw11 : Nat) (sv : Bool)
  | setPatrolPeriod (q : Sqe) (cdw11 : Nat) (sv : Bool)
  | asyncEventRequest (q : Sqe)
  | namespaceCreate (q : Sqe) (nsze ncap lbaf piType : Nat) (pil ext entropyOk : Bool)
  | namespaceDelete (q : Sqe)
  | namespaceAttachment (q : Sqe) (detach : Bool) (ctrls : List Nat)
  | directiveSend (q : Sqe) (dtype doper dspec val : Nat)
  | directiveReceive (q : Sqe) (dtype doper val : Nat)
  | firmwareImageDownload (q : Sqe) (numd ofst : Nat) (data : List Byte)
  | firmwareCommitReplace (q : Sqe) (fs : Nat) (bpid : Bool)
  | firmwareCommitReplaceNext (q : Sqe) (fs : Nat) (bpid : Bool)
  | firmwareCommitActivateSlot (q : Sqe) (fs : Nat) (bpid : Bool)
  | firmwareCommitActivateNow (q : Sqe) (fs : Nat) (bpid : Bool)
  | formatNvm (q : Sqe) (lbaf ses piType : Nat) (pil mset entropyOk : Bool)
  | sanitizeExitFailureMode (q : Sqe) (ndas : Bool)
  | sanitizeBlockErase (q : Sqe) (ause ndas entropyOk : Bool)
  | sanitizeCryptoErase (q : Sqe) (ause ndas entropyOk : Bool)
  | securitySend (q : Sqe) (secp : Nat) (req : SpdmReq)
  | securityReceive (q : Sqe) (secp : Nat)
  | shedCapacityRanges (q : Sqe) (ranges : List LetterRange)
  | shedCapacityUnallocated (q : Sqe) (letters : Nat)
  | resumeQueue (q : Sqe) (sqid : Nat)
  | collectionScheduleSet (q : Sqe) (d : SchedDesc)
  | collectionScheduleGet (q : Sqe)
  | scrubRange (q : Sqe) (mem unit rate base len : Nat)
  | recorderRead (q : Sqe) (start length : Nat) (found : Bool)
  | depotUnlockRead (q : Sqe) (session : Nat)
  | depotUnlockReadWrite (q : Sqe) (session : Nat)
  | depotUnlockClose (q : Sqe) (session : Nat)
  -- port and controller events
  | ccEnSet (p : Port) (cc : CcFields) (aqa : Aqa)
  | ccEnClear (p : Port)
  | shutdownNormal (p : Port)
  | shutdownAbrupt (p : Port)
  | functionLevelReset (p : Port)
  | hotResetOrPerst (p : Port) (perst : Bool)
  | linkDown (p : Port)
  | linkUp (p : Port) (rate width : Nat) (flit : Bool)
  | drainComplete (p : Port)
  | ltrSend (p : Port) (us : Nat)
  -- the pigeonhole cache
  | phcFillDone (line : Nat) (data : BitVec 512) (rep : UnitRead) (waiting : List LineReq) (err : Option LineError) (seg : Nat)
  | phcWritebackAck (line : Nat)
  | phcWayDisableDone (way set : Nat)
  | phcRangeClean (i : Initiator) (v : Word)
  | phcRangeInvalidate (i : Initiator) (v : Word)
  | phcRangeCleanInvalidate (i : Initiator) (v : Word)
  | phcSwopClean (i : Initiator) (way set : Nat)
  | phcSwopInvalidate (i : Initiator) (way set : Nat)
  | phcSwopCleanInvalidate (i : Initiator) (way set : Nat)
  -- map engine, reclaim and retirement
  | packingFillwaitExpiry (stream : Nat)
  | deallocBundleTimeout (id : Nat)
  | victimScan (i : Initiator) (v : Word)
  | jobSubmit (i : Initiator) (head : Nat) (jobs : List JobReq)
  | jobDone (job : Nat)
  | jobAbort (i : Initiator) (v : Word)
  | eraseComplete (lun block : Nat) (o : DieOutcome)
  | lunRetire (i : Initiator) (c pos : Fin 32)
  | channelRetire (i : Initiator) (c : Fin 32)
  | channelSweepDone (c : Fin 32)
  -- flash channels and the ladder
  | readComplete (op : Nat) (cws : List CodewordRead)
  | softDecodeDone (lad : Nat) (decoded : Bool) (corrected : Nat)
  | rebuildDone (lad : Nat)
  | dlqEntryWrite (lad : Nat)
  | strDlqTailWrite (i : Initiator) (v : Word)
  | programComplete (op : Nat) (o : DieOutcome)
  | eraseSuspend (op : Nat)
  | programSuspend (op : Nat)
  | suspendResume (op : Nat) (dwell : Bool)
  | rdIAgeExpiry (op : Nat)
  | lunTimeout (op : Nat) (recent : Bool)
  | trainingStart (i : Initiator) (c : Fin 32) (v : Word)
  | trainingDone (c : Fin 32) (eyes : List (Nat × Nat)) (attemptsFailed : List Nat)
  | courierReset (i : Initiator) (v : Word)
  | courierResetDone (c : Fin 32) (answers : List (Nat × Bool)) (train : TrainFound)
  | snapshotFire (i : Initiator) (c : Fin 32) (v : Word)
  | snapshotPop (i : Initiator) (c : Fin 32) (v : Word)
  -- journal, epochs and power
  | jrcCutover (i : Initiator) (v : Word)
  | jrcCommit (i : Initiator) (v : Word)
  | pwrFailAssert (counts : Nat)
  -- patrol
  | patrolReadDone (sbx member row status worst corrected : Nat) (lost : List Nat)
  | ownerSearch (i : Initiator) (v : Word) (list : List (Ppa × Bool))
  -- memory integrity
  | zeroFillStart (i : Initiator) (v : Word)
  | mergeAgeFlush (line : Nat) (rep : UnitRead) (old : BitVec 512)
  | segmentRebuildDone (seg : Nat) (readable : Bool)
  | scrubStart (i : Initiator) (v : Word)
  | scrubStop (i : Initiator) (v : Word)
  | scrubDone (found : List (Nat × UnitRead))
  | jramLineSwitch (die line : Nat)
  -- the ring
  | ringLinkUp (p : RingPort) (sameName : Bool)
  | ringLinkDown (p : RingPort)
  | link (h : DispHdr) (serial : Nat) (gid addr farPort : Nat)
  | beacon (h : DispHdr) (gid addr state ports n pmaddr sseq serhash : Nat) (strapped : Bool)
  | syncReq (h : DispHdr) (t1 : Nat)
  | syncRsp (h : DispHdr) (t1 t2 t3 t4 : Nat)
  | enum (h : DispHdr) (next dir tbmax origin : Nat)
  | enumend (h : DispHdr) (count dir tbmax origin : Nat)
  | groupstate (h : DispHdr) (request : Bool) (gid n pmaddr gstart geper : Nat)
  | join (h : DispHdr) (serial : Nat)
  | ringAdmit (h : DispHdr) (serial addr gid n : Nat)
  | role (h : DispHdr) (pmaddr prev : Nat)
  | sched (h : DispHdr) (request : Bool) (part sseq : Nat) (bytes : BitVec 384)
  | ack (h : DispHdr) (typ seq : Nat)
  | act (h : DispHdr) (digest tact step : Nat)
  | relOffer (h : DispHdr) (size digest : Nat)
  | relData (h : DispHdr) (index : Nat) (bytes : List Byte)
  | relAck (h : DispHdr) (next : Nat)
  | relHave (h : DispHdr) (digest : Nat)
  | ringFirmwareDispatch (h : DispHdr) (typ : Nat) (payload : List Byte)
  | ringTxDispatch (i : Initiator) (v : Word)
  | ringRxPop (i : Initiator) (v : Word)
  | rngEnumCommand (i : Initiator) (v : Word)
  | reachExpiry (addr : Nat)
  | dispatchRepeat (seq : Nat)
  | relayResend (p : RingPort)
  -- firmware security
  | imageVerify (i : Initiator) (v : Word)
  | handoverSwitch (i : Initiator) (v : Word)
  | handoverDone (i : Initiator) (v : Word)
  | fuseProgramKeyhash (i : Initiator) (slot : Fin 4)
  | fuseRevokeSlot (i : Initiator) (slot : Fin 4)
  | fuseRaiseMinsvn (i : Initiator) (value : Nat)
  | keyGenerate (i : Initiator) (salt : Bool) (nsid : Nat) (entropyOk : Bool)
  | keyLoadWrapped (i : Initiator) (salt : Bool) (nsid : Nat)
  | keyDestroy (i : Initiator) (nsid : Nat)
  | getVersion (t : SpdmTransport)
  | getCapabilities (t : SpdmTransport)
  | negotiateAlgorithms (t : SpdmTransport) (supported : Bool)
  | getDigests (t : SpdmTransport)
  | getCertificate (t : SpdmTransport) (slot offset length : Nat)
  | challenge (t : SpdmTransport) (slot : Nat)
  | getMeasurements (t : SpdmTransport) (index : Nat) (signed : Bool)
  | keyExchange (t : SpdmTransport) (mutualAuth : Bool)
  | finish (t : SpdmTransport) (session : Nat) (verified : Bool) (chainKeyHash : BitVec 512)
  | heartbeat (t : SpdmTransport) (session : Nat)
  | keyUpdate (t : SpdmTransport) (session : Nat)
  | endSession (t : SpdmTransport) (session : Nat)
  -- the recorder
  | recorderWriteRecord (i : Initiator) (v : Word)
  | recorderEntryWritten (readBackFails : Nat) (lineExhausted : Bool)
  | recorderCursorWrite (i : Initiator) (seq : Dword) (slotUe : Bool)
  | recorderCursorNext (i : Initiator) (v : Word) (slotUe : Bool)
  | recorderFlushsup (i : Initiator) (v : Word)
  | recorderRearm (i : Initiator) (v : Word)
  -- temperature and power
  | thermalRound (die ext : List Reading) (rails : List (Option Nat))
  | sensorBroken (sensor : Nat)
  | extLimit (input : Fin 4)
  | supplyOutOfWindow (v : Fin 12)
  | avfsEvaluation (island : Nat) (slack : List Int)
  | avselWrite (i : Initiator) (v : Word)
  -- reset and start-up
  | resetNAssert (counts : Nat)
  | cfgRstWarm (i : Initiator) (v : Word)
  | norRead (i : Initiator)
  | norWrite (i : Initiator)
  | norBasewr (i : Initiator)
  | norOvlwr (i : Initiator)
  | norSlotwr (i : Initiator) (slot : Bool)
  | norBootrec (i : Initiator) (slot recom commissioned : Bool)
  | norIdwr (i : Initiator)
  | norOpDone (mismatch timeout : Bool)
  | xipFetch (i : Initiator) (off : Nat) (waited : Nat)
  | faultyRegisterRead (i : Initiator) (off size : Nat)
  | perstNDeassert (p : Port)
  | ringSignalDetect (p : RingPort)
  | configurationRequest (p : Port) (w : CfgReq)
  | msixTableWrite (p : Port) (vector : Nat) (mask : Bool) (addr data : Nat)
  | interruptCoalescingExpiry (p : Port) (vector : Nat)
  | pcieUncorrectableError (p : Port) (id : Option Nat)
  | spdmHeartbeatTimeout (session : Nat)
  | dispatchFrameError (p : RingPort)
  | reservedDispatchType (h : DispHdr) (typ : Nat)
  | norEraseSuspend (waited : Nat)
  -- the commands without operands
  | trackedCommandAccept
  | journalBatchStart
  | trackerFault
  | trackerReinit
  | sanitizeRoundDone
  | sanitizeProgressWrite
  | collectionScheduleTimeout
  | phcErrWindowEnd
  | phcInvalidationDone
  | phcDrainDone
  | phcRangeDone
  | bundleWaitEnd
  | heatHalving
  | lifeClockTick
  | victimScanDone
  | refreshRelocation
  | tokenAllocation
  | epochPeriodExpiry
  | minspExpiry
  | cutoverDone
  | rootCommitDone
  | powerFailRestart
  | patrolRescan
  | patrolTageTick
  | ownerSearchDone
  | zeroFillDone
  | beaconSend
  | isolatedEntry
  | rejoin
  | isolatedAddressDrop
  | enumStart
  | enumTimeout
  | joinSend
  | postmasterTakeover
  | groupstateRequest
  | syncReqSend
  | slewDone
  | scheduleEffective
  | windowBoundary
  | groupEpochTick
  | staggeredWakeEnd
  | activationTime
  | imageVerifyDone
  | activationRevert
  | recorderScanDone
  | flashonlyBufferFlush
  | warningChange
  | throttleChange
  | thermalShutdown
  | thermalRestart
  | bandChange
  | idleTimerExpiry
  | psEntry
  | psExit
  | psChangeDeferred
  | supplyPowerOn
  | resetRelease
  | norEraseResume
  | supplyPowerLoss
  | mapRecountDone
  | patrolFloorPace
  | recorderPaceRefill
  | holdoverExpiry
  | norPageProgramDone
deriving DecidableEq, Repr

end Sys2Proof
end

