-- ==== Sys2Proof/Decode.lean ====
section
/-! DEFINITION. Commands spelled as words. spec/opcode_table.json gives none of its rows bits: the block's commands are
operations of its interfaces, and no row has a word of its own. -/

namespace Sys2Proof

/-- The command that a word of nbits bits spells by the opcode table: none, since the table gives no row bits. -/
def decodeTableWord (_nbits _w : Nat) : Option Instr := none

end Sys2Proof
end

