-- ==== Sys2Proof/Config.lean ====
section
/-! DEFINITION. What the spec leaves open or takes from a published standard it does not retell: opaque functions, of
which no proof can see a value (log entries 5 and 6), and the fixed figures of the spec. -/

namespace Sys2Proof.Config

/-- A value the spec leaves open, fresh at each use: applied to the state's own use counter (log entry 5). -/
opaque freeValue : Nat → Nat

/-- SHA-512 (FIPS 180-4), which the spec names and does not retell (log entry 6). -/
opaque sha512 : List Byte → BitVec 512
/-- ECDSA P-521 verification of a signature over bytes under a public key (FIPS 186; log entry 6). -/
opaque ecdsaVerify : List Byte → List Byte → List Byte → Bool
/-- ECDSA P-521 signature of bytes by the ALIAS or IDENTITY key of this unit (R363; log entry 6). -/
opaque ecdsaSign : Nat → List Byte → List Byte
/-- AES-256-XTS of one letter's data under a key and a tweak, the letter's LBA: a permutation of the data (IEEE 1619, R89; log
entry 6). -/
opaque xts : BitVec 512 → Nat → Equiv.Perm LetterData
/-- A letter encrypted, and decrypted again (R34 step 6, R89). -/
def xtsEncrypt (key : BitVec 512) (lba : Nat) (d : LetterData) : LetterData := xts key lba d
def xtsDecrypt (key : BitVec 512) (lba : Nat) (d : LetterData) : LetterData := (xts key lba).symm d
/-- The AES-KW permutation of nine semiblocks (SP 800-38F) under the key-wrapping key derived from the UDS, a SALT and an NSID
(R367; log entry 6). -/
opaque kw : Nat → Nat → Nat → Equiv.Perm (BitVec 576)
/-- A key wrapped: the integrity check value of SP 800-38F in the first semiblock, then the key. -/
def wrapKey (a b c : Nat) (k : BitVec 512) : BitVec 576 := kw a b c (0xA6A6A6A6A6A6A6A6#64 ++ k)
/-- A wrapped key unwrapped: none where its integrity check fails (R369). -/
def unwrapKey (a b c : Nat) (w : BitVec 576) : Option (BitVec 512) :=
  let x := (kw a b c).symm w
  if x.extractLsb' 512 64 = 0xA6A6A6A6A6A6A6A6#64 then some (x.extractLsb' 0 512) else none
/-- DMTF SPDM message contents that the spec does not retell, by message kind and transcript use (R365; log entry 6). -/
opaque spdmBytes : Nat → Nat → List Byte

/-- The SHA-512 of the boot ROM, measurement 1 (R366), which the spec does not state (log entry 6). -/
opaque romDigest : BitVec 512
/-- Measurement 3 over MINSVN, the programmed and revoked slots, the running KEYSLOT and depot mode, whose encoding the
spec does not state (R366; log entry 6). -/
opaque stateDigest : Nat → Nat → Nat → Nat → Bool → BitVec 512
/-- Data of body blocks whose byte layout Table 18-5 does not state (log entry 7): fitted DRAM in GiB of a DRAMGEO block. -/
opaque dramGeo : List Byte → Nat
/-- The capacity class, modulo 4, that a CAPACITY block names (log entry 7). -/
opaque capacityClass : List Byte → Nat
/-- The user capacity in letters (16 to a parcel) and the minimum DRAM in GiB by class (Table 5-8). -/
def classTable : List (Nat × Nat) :=
  [(16 * 7482638336, 64), (16 * 3741319168, 32), (16 * 1870659584, 16), (16 * 935329792, 8)]
/-- The user capacity in letters and the minimum DRAM in GiB of a CAPACITY block (R38, R152). -/
def capacityBlock (data : List Byte) : Nat × Nat := classTable.getD (capacityClass data % 4) (0, 0)
/-- Does a DIETYPE block declare a geometry within the PPA fields (R439; log entry 7)? -/
opaque dieTypeOk : List Byte → Bool
/-- Numbers of a DIETYPE block (Table 7-2): 0 blocks per LUN, 1 page groups per block, 2 rated erases, 3 tBERS Max in µs (log
entry 7). -/
opaque dieNum : List Byte → Nat → Nat
/-- The levels that a page reads, with POL and the weight in sixteenths (R214, R221; log entry 7). -/
opaque dieLevels : List Byte → Nat → List (Nat × Int × Int)
/-- SEED[band][zone][level] of a DIETYPE block (R219; log entry 7). -/
opaque dieSeed : List Byte → Nat → Nat → Nat → Int
/-- Letters of the flash system area, the committed checkpoint image, and R, for a user capacity that Table 5-9 does not cover:
it states them for the largest overlay only (log entry 30). -/
opaque otherFigures : Nat → Nat × Nat × Nat
/-- The same for every user capacity (R153): 32 GiB, 48 GiB, and the checkpoint reserve of 48 GiB with 26 superblocks of 960 MiB
for the largest overlay (Table 5-9). -/
def spaceFigures (user : Nat) : Nat × Nat × Nat :=
  if user = 16 * 7482638336 then (32 * 2 ^ 18, 48 * 2 ^ 18, 48 * 2 ^ 18 + 26 * 960 * 2 ^ 8) else otherFigures user
/-- The shift, or none for a zero block, of a base-matrix entry by row and column, as shipped: the spec prints none (R209; log
entry 6). -/
opaque baseEntry : Nat → Nat → Option (Fin 256)
/-- The base matrix of the LDPC code, entry e at row e / 144 and column e mod 144: the last 15 columns are in dual-diagonal form,
so that only the diagonal and the entries below it are not zero blocks (R209; log entry 160). -/
def baseMatrix (e : Nat) : Nat :=
  let r := e / 144
  let c := e % 144
  if 129 ≤ c && r != c - 129 && r != c - 128 then 0xFFFF
  else match baseEntry r c with
    | some k => k.val
    | none => if 129 ≤ c then 0 else 0xFFFF
/-- Word j of CHN_HMAT (Table 8-10). -/
def hmat (j : Nat) : Nat := baseMatrix (2 * j) + 2 ^ 16 * baseMatrix (2 * j + 1)

/-- The 64 bits of the Device Serial Number capability of a unit with this serial, which the spec does not state (R75; log entry 97). -/
opaque serialNumber : BitVec 192 → Nat
/-- The DDR5 channel × 2 + rank of a 64-byte DRAM unit, modulo 4, which the spec does not state (log entry 37). -/
opaque dramRank : Nat → Nat
/-- The map segment that a 64-byte DRAM unit lies in, if any: where firmware places the segments is not stated (log entry 31). -/
opaque segmentAt : Nat → Option Nat
/-- The SRAM rows, as unit and row address, that the fuse map replaces, and the spare rows of each SRAM unit (R448; log entry 7). -/
opaque fuseRows : List (Nat × Nat)
opaque spareRows : Nat → Nat
/-- The records of a handover block, as Jenfy defines them, for the commands not finished, by port, queue and CID (R359; log entry
168). -/
opaque handoverRecords : List (Nat × Nat × Nat) → List Byte
/-- Byte o of the namespace table, and the system area's record of the chip state, the life clock and the retirement bits: neither
layout is stated (log entry 166). -/
opaque nsTableByte : List (List Nat) → Nat → Byte
opaque areaData : List Nat → LetterData
/-- The windows of the 12 supply monitors in a RAILS block (log entry 7). -/
opaque rails : List Byte → List (Nat × Nat)
/-- Which external inputs a THERMISTOR block enables (log entry 7). -/
opaque thermistors : List Byte → List Bool

/-- Is an OVID of mode 0x4 the ring-member overlay (R318), whose identifier the spec does not state (log entry 7)? -/
opaque ringMember : Nat → Bool
/-- Is an OVID of mode 0x5 the object-store overlay (R120; log entry 7)? -/
opaque objectStore : Nat → Bool

/-- Entries per map segment (R135). -/
def segEntries : Nat := 699050
/-- Timebase counts per second (R332). -/
def countsPerSec : Nat := 250000000
/-- Timebase counts per microsecond. -/
def countsPerUs : Nat := 250
/-- Bytes of the journal ring (Table 10-1). -/
def ringBytes : Nat := 67108864
/-- The JRC token bucket's depth (R259). -/
def tokenDepth : Nat := 345600000000

end Sys2Proof.Config
end

