-- ==== Sys2Proof/Machine/Operands.lean ====
section
/-! DEFINITION. The register space: which block and register an address names (Table 2-1, R42, R44), and the register
tables of every chapter as rows of fields with their access codes and reset values (Table 0-4, R11, R15). -/

namespace Sys2Proof

/-- The block's base address, unit u (Table 2-1). -/
def Blk.base (b : Blk) (u : Nat) : Nat :=
  match b with
  | .hfeA => 0x0 | .hfeB => 0x10000 | .srt => 0x20000 | .map => 0x30000 | .phc => 0x40000 | .drc => 0x50000
  | .jrc => 0x60000 | .str => 0x70000 | .pat => 0x80000 | .thm => 0x90000 | .pwr => 0xA0000 | .rng => 0xB0000
  | .sec => 0xC0000 | .evr => 0xD0000 | .cfg => 0xE0000 | .cry => 0xF0000 | .evf => 0x100000 | .scb => 0x110000
  | .dst => 0x140000 + u * 0x4000 | .chn => 0x200000 + u * 0x4000

/-- How many instances a block has (Table 2-1). -/
def Blk.units (b : Blk) : Nat :=
  match b with
  | .dst => 4 | .chn => 32 | .hfeA => 1 | .hfeB => 1 | .srt => 1 | .map => 1 | .phc => 1 | .drc => 1 | .jrc => 1
  | .str => 1 | .pat => 1 | .thm => 1 | .pwr => 1 | .rng => 1 | .sec => 1 | .evr => 1 | .cfg => 1 | .cry => 1
  | .evf => 1 | .scb => 1

/-- The block's type code (Table 2-1). -/
def Blk.typ (b : Blk) : Nat :=
  match b with
  | .hfeA => 1 | .hfeB => 1 | .srt => 2 | .map => 3 | .phc => 4 | .drc => 5 | .jrc => 6 | .str => 7 | .pat => 8
  | .thm => 9 | .pwr => 10 | .rng => 11 | .sec => 12 | .evr => 13 | .cfg => 14 | .cry => 15 | .evf => 16 | .scb => 17
  | .dst => 18 | .chn => 19

/-- The blocks of the always-on island (R11). -/
def Blk.alwaysOn (b : Blk) : Bool :=
  match b with
  | .thm => true | .pwr => true | .rng => true
  | .hfeA => false | .hfeB => false | .srt => false | .map => false | .phc => false | .drc => false | .jrc => false
  | .str => false | .pat => false | .sec => false | .evr => false | .cfg => false | .cry => false | .evf => false
  | .scb => false | .dst => false | .chn => false

end Sys2Proof

namespace Sys2Proof.Machine

/-- The access codes of Table 0-4. -/
inductive Acc | rw | ro | w1c | mw | wo | rws
deriving DecidableEq, Repr

/-- Where a field's reset value comes from (R15): a value, the straps (S), the fuses (F), the configuration image (C). -/
inductive Src | fixed | strap | fuse | image
deriving DecidableEq, Repr

/-- One field of a register: bits [hi:lo], access, reset value and source, whether it is a configuration field (R50),
whether its Meaning names a cold reset (R11), and the values its Meaning does not reserve (R17). -/
structure Fld where
  hi   : Nat
  lo   : Nat
  acc  : Acc
  rst  : Nat := 0
  src  : Src := .fixed
  conf : Bool := false
  cold : Bool := false
  ok   : Nat → Bool := fun _ => true

/-- One row of a register map: its offset in the block, its fields, whether it is declared 64-bit, and up to two index
counts and strides. okRow holds of the values that no relation among the fields reserves. -/
structure Row where
  off   : Nat
  flds  : List Fld
  wide  : Bool := false
  n1    : Nat := 1
  s1    : Nat := 4
  n2    : Nat := 1
  s2    : Nat := 4
  okRow : Nat → Bool := fun _ => true

/-- Bits [hi:lo] of a number (R9). -/
def bitsOf (v hi lo : Nat) : Nat := (v / 2 ^ lo) % 2 ^ (hi + 1 - lo)
/-- A number with bits [hi:lo] replaced. -/
def setBits (v hi lo x : Nat) : Nat :=
  v - bitsOf v hi lo * 2 ^ lo + (x % 2 ^ (hi + 1 - lo)) * 2 ^ lo
/-- Bit n of a number. -/
def bitOf (v n : Nat) : Bool := v.testBit n

/-- The single-instance blocks in address order: entry k lies at k × 64 KiB. -/
def blkOrder : List Blk :=
  [.hfeA, .hfeB, .srt, .map, .phc, .drc, .jrc, .str, .pat, .thm, .pwr, .rng, .sec, .evr, .cfg, .cry, .evf, .scb]

/-- The block, unit and offset within the unit that a register-space offset names; none where no block lies (R42, R43). -/
def locate (a : Nat) : Option (Blk × Nat × Nat) :=
  if a < 0x120000 then (blkOrder[a / 0x10000]?).map fun b => (b, 0, a % 0x10000)
  else if a < 0x140000 then none
  else if a < 0x150000 then some (.dst, (a - 0x140000) / 0x4000, (a - 0x140000) % 0x4000)
  else if a < 0x200000 then none
  else if a < 0x280000 then some (.chn, (a - 0x200000) / 0x4000, (a - 0x200000) % 0x4000)
  else none

/-- Field constructors, one per access code. -/
def rw (hi lo : Nat) (rst : Nat := 0) (ok : Nat → Bool := fun _ => true) : Fld := { hi, lo, acc := .rw, rst, ok }
def ro (hi lo : Nat) (rst : Nat := 0) : Fld := { hi, lo, acc := .ro, rst }
def w1c (hi lo : Nat) : Fld := { hi, lo, acc := .w1c }
def wo (hi lo : Nat) (ok : Nat → Bool := fun _ => true) : Fld := { hi, lo, acc := .wo, ok }
def rws (hi lo : Nat) (rst : Nat := 0) : Fld := { hi, lo, acc := .rws, rst }
/-- A read-write field that the configuration image loads (Reset C). -/
def rwC (hi lo : Nat) (ok : Nat → Bool := fun _ => true) : Fld := { hi, lo, acc := .rw, src := .image, ok }
/-- The same, a configuration field (R50). -/
def cfC (hi lo : Nat) (ok : Nat → Bool := fun _ => true) : Fld :=
  { hi, lo, acc := .rw, src := .image, conf := true, ok }
/-- A configuration field with a fixed reset value. -/
def cf (hi lo : Nat) (rst : Nat := 0) (ok : Nat → Bool := fun _ => true) : Fld :=
  { hi, lo, acc := .rw, rst, conf := true, ok }
/-- A read-only field that the configuration image loads. -/
def roC (hi lo : Nat) : Fld := { hi, lo, acc := .ro, src := .image }

def nonzero (v : Nat) : Bool := v != 0
def within (a b : Nat) (v : Nat) : Bool := a ≤ v && v ≤ b

def r32 (off : Nat) (flds : List Fld) : Row := { off, flds }
def r64 (off : Nat) (flds : List Fld) : Row := { off, flds, wide := true }
def r32s (off n s : Nat) (flds : List Fld) : Row := { off, flds, n1 := n, s1 := s }
def r64s (off n s : Nat) (flds : List Fld) : Row := { off, flds, n1 := n, s1 := s, wide := true }

/-- Table 2-10, with Tables 2-11, 2-14 and 2-15. The route's reset value is in resetWord. -/
def evfRows : List Row := [
  r32 0x010 [w1c 0 0],
  r64 0x020 [ro 63 0],
  r32s 0x040 8 4 [w1c 31 0],
  { off := 0x100, flds := [w1c 31 0], n1 := 10, s1 := 0x20, n2 := 8, s2 := 4 },
  r32s 0x280 10 4 [ro 8 0],
  r32s 0x300 8 4 [w1c 31 0],
  r32s 0x320 8 4 [w1c 31 0],
  r32 0x340 [rw 15 0 1000],
  r32 0x400 [wo 31 0],
  r32s 0x800 256 4 [{ hi := 14, lo := 13, acc := .mw, ok := fun v => v != 3 },
    { hi := 12, lo := 11, acc := .mw, ok := fun v => v != 3 }, { hi := 10, lo := 0, acc := .mw }],
  r64s 0x1000 14 0x10 [rw 63 0],
  r32s 0x1008 14 0x10 [rw 31 0],
  r32s 0x100C 14 0x10 [rw 0 0],
  r32s 0x1100 10 0x10 [rw 31 8 0xF42 nonzero, rw 1 1, rw 0 0],
  r32s 0x1104 10 0x10 [wo 0 0],
  r32s 0x1108 10 0x10 [ro 1 0]]

/-- Table 15-9. The banked registers' copies are kept by evrBank. -/
def evrRows : List Row := [
  r64 0x010 [ro 63 0], r64 0x018 [ro 63 0], r64 0x020 [rw 63 0], r32 0x028 [ro 31 28, ro 15 0], r32 0x02C [wo 2 0],
  r32 0x030 [w1c 5 0], r32 0x034 [ro 22 16, ro 6 0], r32 0x038 [ro 31 0], r32 0x03C [ro 31 0], r32 0x040 [ro 10 0],
  r32 0x044 [rw 11 0], r32 0x048 [rwC 23 16 (within 1 64), rwC 15 8, rwC 0 0], r32 0x04C [ro 31 16, ro 6 0],
  r32 0x050 [ro 31 0], r32 0x054 [ro 31 8, ro 3 0], r32s 0x100 64 4 [ro 31 0], r32s 0x200 60 4 [rw 31 0],
  r32 0x2F0 [wo 27 16 (fun v => 0x200 ≤ v), wo 3 0]]

/-- Tables 18-15 and 18-16. -/
def cfgRows : List Row := [
  r32 0x010 [ro 31 31, ro 27 24, ro 22 20 1, ro 19 19, ro 18 16, ro 12 12, ro 9 7],
  r32 0x014 [ro 31 16, ro 11 8, ro 3 0],
  r32 0x018 [{ hi := 2, lo := 0, acc := .ro, src := .strap }],
  r32 0x01C [wo 0 0], r32s 0x020 5 4 [ro 31 31, ro 15 0], r64 0x038 [ro 63 0], r64 0x040 [ro 63 0], r64 0x048 [ro 63 0],
  r32s 0x060 6 4 [ro 31 0], r32 0x080 [rw 31 0], r32 0x084 [rw 24 0], r64 0x088 [rw 35 6],
  r32 0x090 [wo 10 8, wo 3 0 (fun v => v ≤ 7)], r32 0x094 [ro 31 28, ro 26 24, ro 15 0], r32 0x098 [ro 31 16, ro 15 0],
  r32 0x09C [w1c 4 0]]

/-- Tables 16-8 and 16-9. -/
def thmRows : List Row := [
  r32 0x010 [{ hi := 31, lo := 16, acc := .ro, cold := true }, ro 15 0],
  r32 0x014 [ro 11 8, ro 2 0],
  r32 0x018 [{ hi := 19, lo := 0, acc := .rws, cold := true }],
  r32s 0x020 16 4 [ro 31 30, ro 15 0], r32s 0x060 4 4 [ro 31 30, ro 15 0], r32 0x070 [rwC 31 0],
  r32 0x074 [rw 7 0 0x80 (within 16 255)], r32s 0x080 12 4 [ro 31 29, ro 15 0], r32 0x0B0 [w1c 8 1], r32 0x0B4 [ro 31 0]]

/-- Table 16-10. -/
def pwrRows : List Row := [
  r32 0x010 [ro 9 8, ro 6 4, ro 2 0], r32 0x014 [ro 31 0], r32 0x018 [rwC 15 0], r32 0x01C [ro 15 0],
  r32s 0x020 3 4 [rwC 15 0], r32 0x030 [w1c 4 0],
  { off := 0x034, flds := [rw 15 8 0x30, rw 7 0 0x10], okRow := fun v => bitsOf v 7 0 < bitsOf v 15 8 },
  r32 0x038 [rw 5 0 0 (fun v => v ≤ 46)], r32 0x03C [ro 27 24, ro 21 12, ro 7 0], r32 0x040 [wo 31 0],
  r32 0x044 [ro 21 0]]

/-- Table 3-12, with Tables 3-13 and 3-14: the same rows for each port. -/
def hfeRows : List Row := [
  r32 0x010 [ro 31 31, ro 23 16, ro 11 8, ro 3 0],
  r32 0x014 [cfC 17 16 (fun v => v != 3), cfC 15 12 (fun v => v ≤ 10), cfC 11 8 (fun v => v ≤ 10),
    cfC 7 4 (fun v => v ≤ 10), cfC 3 3, cfC 2 0 (fun v => v == 4 || v == 5 || v == 6)],
  r32 0x018 [ro 31 0], r32 0x01C [ro 31 16, ro 8 8, ro 2 0], r32 0x020 [ro 15 0]]

/-- Tables 13-10, 13-12 and 13-13. -/
def rngRows : List Row := [
  r32 0x010 [ro 28 28 1, { hi := 24, lo := 24, acc := .ro, src := .strap }, ro 21 20, ro 17 16, ro 14 8, ro 2 0],
  r32 0x014 [ro 30 24, ro 21 16, ro 14 8, ro 6 0], r64 0x018 [ro 63 0], r64 0x020 [ro 63 0], r64 0x028 [ro 63 0],
  r64 0x030 [ro 63 0], r64 0x038 [ro 63 0], r32 0x040 [ro 10 8, ro 2 0],
  { off := 0x044, flds := [rwC 31 16 (within 60 65535), rwC 15 0 nonzero],
    okRow := fun v => bitsOf v 15 0 ≤ bitsOf v 31 16 },
  r32 0x048 [rw 15 0 8 (fun v => v != 1)], r32 0x04C [ro 31 29, ro 15 0], r32 0x050 [w1c 12 0], r32 0x054 [wo 0 0],
  r32 0x058 [ro 31 0], r32 0x05C [ro 31 0], r32 0x060 [ro 31 0], r32s 0x080 16 4 [rw 31 0],
  r32 0x0C0 [wo 31 24 (within 0x80 0xEF), wo 23 16 (fun v => v ≤ 0x40 || v == 0xFF), wo 6 0 (fun v => v ≤ 64)], r32s 0x100 16 4 [ro 31 0],
  r32 0x140 [ro 31 16, ro 12 8, ro 6 0], r32 0x144 [wo 0 0]]

/-- Tables 14-11, 14-12 and 14-13. -/
def secRows : List Row := [
  r32 0x010 [ro 23 23, { hi := 22, lo := 16, acc := .ro, src := .fuse },
    { hi := 11, lo := 8, acc := .ro, src := .fuse }, { hi := 3, lo := 0, acc := .ro, src := .fuse }],
  r32 0x014 [ro 16 16, ro 13 12, ro 9 8, ro 6 0], r32 0x018 [ro 31 0], r64 0x020 [rw 35 6], r32 0x028 [rw 24 0],
  r32 0x02C [wo 0 0], r32 0x030 [ro 31 28, ro 15 0], r32s 0x040 16 4 [ro 31 0],
  r32 0x080 [rwC 31 16 (within 1000 60000), rwC 15 0 (within 40 1000)], r32 0x084 [wo 1 0],
  r32 0x088 [ro 31 28, ro 15 0], r32 0x090 [w1c 8 0], r32 0x0A0 [wo 31 28 (within 1 3), wo 25 24, wo 6 0],
  r32 0x0A4 [ro 31 30, ro 15 0], r32s 0x100 16 4 [rw 31 0]]

/-- Table 14-14. -/
def cryRows : List Row := [
  r32 0x010 [wo 31 28 (within 1 3), wo 8 8, wo 7 0 (within 1 128)], r32 0x014 [ro 31 28, ro 15 0], r32s 0x020 18 4 [rw 31 0],
  r32s 0x080 4 4 [ro 31 0], r32 0x090 [w1c 3 0]]

/-- Table 4-7. -/
def srtRows : List Row := [
  r32 0x010 [ro 31 16, ro 14 0], r32 0x014 [ro 31 16, ro 14 0], r32 0x018 [wo 0 0], r32 0x01C [ro 31 0],
  r32s 0x020 8 4 [ro 31 0], r32s 0x040 8 4 [ro 31 0], r32 0x060 [ro 31 0]]
/-- Tables 5-12, 5-13, 5-14 and 5-15, and Table 9-14. -/
def mapRows : List Row := [
  r32 0x010 [cfC 26 0 (fun v => v ≤ 0x4000000)], r32 0x014 [cfC 19 0],
  r32 0x018 [rw 31 24 0xE0, rw 23 16 0x04, rw 15 8 0x10 nonzero, rw 0 0 1], r32 0x01C [rw 15 0 60 nonzero],
  r32 0x020 [rw 15 0 20 (within 1 10000)], r32 0x024 [ro 26 0], r32 0x028 [rwC 15 0 (within 100 2000)],
  r32 0x02C [ro 31 16, ro 2 0], r64 0x030 [ro 63 0], r64 0x038 [ro 63 0], r64 0x040 [ro 63 0], r64 0x048 [ro 63 0],
  r64 0x050 [ro 63 0], r64 0x058 [ro 63 0], r64 0x060 [ro 63 0], r32 0x068 [ro 31 0], r32 0x06C [ro 31 0],
  r32 0x080 [ro 19 0],
  { off := 0x084, flds := [rw 31 16 64, rw 15 0 8 (fun v => 2 < v)], okRow := fun v => bitsOf v 15 0 < bitsOf v 31 16 },
  r32 0x088 [rw 7 0 20 nonzero], r32 0x08C [rw 31 16 400 nonzero, rw 15 0 3600 nonzero], r32 0x090 [ro 31 16, ro 15 0],
  r32 0x094 [rwC 31 0 nonzero], r32 0x098 [ro 1 1, rw 0 0 1], r32 0x09C [rw 7 0 64],
  r32 0x0A0 [rw 31 24 24, rw 15 8 4, rw 7 0 243], r32 0x0A4 [wo 0 0], r32 0x0A8 [ro 31 31, ro 19 16, ro 15 0],
  r64s 0x0B0 8 8 [ro 63 32, ro 31 0], r64 0x0F0 [cfC 35 13], r32 0x0F8 [rw 7 0], r32 0x0FC [ro 7 0], r32 0x100 [wo 0 0],
  r32 0x104 [ro 12 0], r32 0x108 [ro 31 0], r32 0x10C [ro 12 0], r32 0x110 [rws 31 0], r32 0x114 [ro 31 0],
  r32s 0x180 32 4 [rws 31 0]]
/-- Tables 6-6 and 6-9. -/
def phcRows : List Row := [
  r32 0x010 [{ hi := 15, lo := 0, acc := .rws, conf := true }], r32 0x014 [rw 7 0 4 nonzero],
  r32 0x018 [wo 31 30 nonzero, wo 20 17, wo 16 0], r32 0x01C [ro 18 0], r64 0x020 [rw 35 6], r64 0x028 [rw 36 0],
  r32 0x030 [wo 1 0], r32 0x034 [ro 31 28, ro 15 0], r32 0x038 [ro 31 0], r32 0x03C [ro 31 0], r64 0x040 [ro 63 0],
  r64 0x048 [ro 63 0], r32s 0x050 4 4 [ro 31 0], r32 0x060 [ro 31 30, ro 27 24, ro 16 0]]
/-- Table 12-7. -/
def drcRows : List Row := [
  r64 0x010 [rw 35 16], r64 0x018 [rw 36 16], r32 0x020 [wo 0 0], r32 0x024 [ro 31 31, ro 15 0], r32 0x028 [ro 20 0],
  r32 0x02C [w1c 5 0], r64 0x030 [ro 63 63, ro 37 36, ro 35 6], r64 0x038 [ro 63 0], r32 0x040 [ro 31 0],
  r32 0x044 [ro 10 0], r64 0x048 [cfC 35 22], r32 0x058 [rw 15 0 2000 (within 100 10000)], r32 0x05C [ro 31 0],
  r32s 0x060 4 4 [ro 31 31, ro 20 16, ro 15 15, ro 12 8]]
/-- Tables 10-13, 10-14 and 10-16. -/
def jrcRows : List Row := [
  r32 0x010 [ro 25 0], r32 0x014 [ro 25 0], r32 0x018 [ro 8 0], r32 0x01C [ro 31 0], r64 0x020 [ro 63 0],
  r32 0x028 [rw 31 16 10000 (within 1000 65535), rw 15 8 0xC0 (within 0x40 0xE0), rw 7 0 0x0A (within 10 255)],
  r32 0x02C [wo 1 0 (within 1 2)], r32 0x030 [ro 31 31, ro 29 28, ro 15 0], r64 0x038 [ro 63 0], r64 0x040 [ro 63 0],
  r32 0x048 [ro 15 0], r32 0x04C [ro 31 0], r32 0x050 [w1c 9 0],
  r32 0x054 [ro 31 29, ro 27 24, ro 20 16, ro 15 0], r32 0x058 [ro 31 28, ro 26 24, ro 15 0],
  r32 0x05C [rw 15 0 2000 (within 0 10000)], r32s 0x100 64 4 [rw 31 0]]
/-- Tables 8-14 and 8-15. -/
def strRows : List Row := [
  r32 0x010 [ro 23 0], r32 0x014 [cf 5 0 10 (within 10 32)], r32 0x018 [ro 31 16, ro 15 0], r32 0x01C [ro 31 0],
  r32 0x020 [ro 31 0], r32 0x024 [w1c 4 0], r32 0x028 [ro 5 0], r32 0x02C [rw 5 0],
  r32s 0x100 24 8 [ro 31 0], r32s 0x104 24 8 [ro 28 16, ro 13 12, ro 9 0], r64s 0x400 64 8 [ro 63 0],
  r64s 0x600 64 8 [ro 63 0]]
/-- Tables 11-9 and 11-10. -/
def patRows : List Row := [
  r32 0x010 [rwC 6 0 (within 1 90)], r32 0x014 [rwC 9 0 nonzero],
  r32 0x018 [rw 31 24 40 (within 16 255), rw 23 16 24 (within 16 255), rw 15 8 16 (within 16 255),
    rw 7 0 16 (within 16 255)],
  r32 0x01C [rw 7 0 8], r32 0x020 [rw 7 0 7 (within 0 90)], r32 0x024 [rw 7 0 64 nonzero], r64 0x028 [cfC 35 12],
  r64 0x030 [ro 63 0], r64 0x038 [ro 63 0], r32 0x040 [ro 31 0], r32 0x044 [ro 31 0], r32 0x048 [ro 31 0],
  r32 0x04C [ro 31 0], r32 0x050 [ro 31 16, ro 8 0], r32 0x054 [w1c 5 0], r64 0x058 [rw 35 6],
  r32 0x060 [wo 6 0 (fun v => v ≤ 64)], r32 0x064 [ro 31 31, ro 26 16, ro 15 0]]
/-- Table 12-8. -/
def scbRows : List Row := [
  r64 0x010 [rw 39 0], r64 0x018 [rw 39 0], r32 0x020 [rw 7 4, rw 1 0 0 (fun v => v ≤ 2)], r32 0x024 [rw 15 0 2000 nonzero],
  r32 0x028 [wo 1 0], r32 0x02C [ro 31 30, ro 29 28, ro 15 0], r32 0x030 [ro 31 0], r32 0x034 [ro 31 0],
  r64 0x038 [ro 63 62, ro 39 0], r32 0x040 [ro 31 0], r32 0x044 [ro 31 0], r32 0x048 [rw 5 0], r64 0x050 [ro 63 0],
  r32 0x058 [rw 15 8 8 (within 2 15), rw 3 0 3 (within 1 7)], r32 0x05C [ro 31 0], r64 0x060 [ro 63 57, ro 39 0]]
/-- Tables 7-13, 8-12 and 8-13. -/
def dstRows : List Row := [
  r32 0x010 [cfC 31 24, cfC 23 16, cfC 15 8, cfC 7 0], r32 0x014 [ro 15 0], r32 0x018 [ro 15 0], r32 0x01C [rw 7 0 8],
  r32 0x020 [ro 31 0], r32 0x024 [w1c 10 8, w1c 1 0], r32 0x028 [rw 15 8 0x20, rw 5 0 40 nonzero], r32 0x02C [ro 6 0],
  r32 0x030 [ro 31 0], r32 0x034 [ro 31 0], r32 0x038 [ro 31 0]]
/-- Tables 7-8, 7-10, 7-11, 8-10, 8-11, 15-1 and 15-2. -/
def chnRows : List Row := [
  r32 0x010 [cfC 21 16 (within 8 36), cfC 12 12, cfC 10 8 (within 1 4), cfC 3 0 (within 1 8)],
  r32 0x014 [rwC 31 24, rwC 15 0], r32 0x018 [rwC 31 24, rwC 15 0],
  r32 0x01C [rw 31 16 500 nonzero, rw 15 0 1000 nonzero], r32 0x020 [roC 31 16, roC 15 0], r32 0x024 [rw 15 0 2000],
  r32 0x028 [wo 0 0], r32 0x02C [ro 31 31, ro 30 28, ro 27 24, ro 19 16, ro 15 0], r32s 0x030 4 4 [ro 15 8, ro 7 0],
  r32 0x040 [rw 7 0 0x18], r32 0x044 [w1c 10 10, w1c 8 0], r32 0x048 [rw 31 0 0x5BE], r32 0x04C [ro 31 0],
  r32 0x050 [ro 31 0], r32 0x054 [ro 31 0], r32 0x058 [ro 8 0], r32 0x05C [ro 31 0], r32 0x060 [ro 31 0],
  r32 0x064 [ro 31 0], r32 0x068 [ro 31 0], r64 0x080 [cfC 35 10], r64 0x088 [cfC 35 10],
  r32 0x090 [rwC 31 24 nonzero, rw 23 16 8 nonzero, rw 15 8 0x50, rw 7 0 0x20], r32 0x094 [roC 15 0],
  r32 0x098 [rw 15 8 8 nonzero, rw 7 0 0x0C nonzero], r32 0x09C [rw 5 0 24 nonzero], r64 0x0A0 [ro 63 0],
  r64 0x0A8 [ro 63 0], r32 0x0B0 [ro 31 0], r32 0x0B4 [ro 31 0],
  r32 0x0C0 [rw 31 31, rw 30 30, rw 27 24 1 (within 1 8), rw 20 16, rw 15 15, rw 14 14, rw 13 13, rw 10 0],
  r32s 0x0C4 4 4 [rw 27 16, rw 11 0], r32 0x0D4 [wo 1 1, wo 0 0], r32 0x0D8 [ro 31 16, ro 6 4, ro 3 0],
  { off := 0x100, flds := [ro 31 0], n1 := 8, s1 := 0x40, n2 := 9, s2 := 4 }, r32s 0x1000 1080 4 [ro 31 0]]


/-- The block-specific fields of a block's CTL register, and its EN bit (Table 2-4). -/
def ctlFields (b : Blk) : List Fld :=
  match b with
  | .srt => [cf 11 4 0x0A, rw 0 0]
  | .phc => [{ hi := 4, lo := 4, acc := .rws, rst := 1, conf := true }, { hi := 2, lo := 1, acc := .rws, rst := 3, conf := true }, rw 0 0]
  | .chn => [cf 4 4, rw 0 0]
  | .rng => [cfC 8 8, cfC 7 4, rw 0 0]
  | .sec => [cfC 1 1, rw 0 0]
  | .cfg => [rw 0 0 1]
  | .thm => [ro 0 0 1] | .pwr => [ro 0 0 1] | .evf => [ro 0 0 1]
  | .hfeA => [rw 0 0] | .hfeB => [rw 0 0] | .map => [rw 0 0] | .drc => [rw 0 0] | .jrc => [rw 0 0] | .str => [rw 0 0]
  | .pat => [rw 0 0] | .evr => [rw 0 0] | .cry => [rw 0 0] | .scb => [rw 0 0] | .dst => [rw 0 0]

/-- The block-specific fields of a block's STS register. -/
def stsFields (b : Blk) : List Fld :=
  match b with
  | .srt => [ro 18 18, w1c 17 17, ro 16 16]
  | .phc => [w1c 19 19, ro 18 18, ro 17 16 1]
  | .chn => [ro 18 16]
  | .jrc => [ro 19 16]
  | .pat => [ro 18 16]
  | .evr => [ro 17 16]
  | .hfeA => [] | .hfeB => [] | .map => [] | .drc => [] | .str => [] | .thm => [] | .pwr => [] | .rng => [] | .sec => []
  | .cfg => [] | .cry => [] | .evf => [] | .scb => [] | .dst => []

/-- The common header of a block, unit u (Tables 2-2 to 2-6). The EN of THM, PWR and EVF reads 1, and so does ACTIVE. -/
def headerRows (b : Blk) (u : Nat) : List Row := [
  r32 0x000 [ro 31 24 b.typ, ro 23 16 (match b with | .hfeB => 1 | .dst => u | .chn => u | _ => 0), ro 15 0 0xA1],
  r32 0x004 (ctlFields b),
  r32 0x008 (stsFields b ++ [ro 3 3 (if b == .thm || b == .pwr || b == .evf || b == .cfg then 1 else 0), w1c 2 0]),
  r32 0x00C [ro 31 31, ro 23 0]]

/-- The register map of a block beyond the header. -/
def blockRows (b : Blk) : List Row :=
  match b with
  | .hfeA => hfeRows | .hfeB => hfeRows | .thm => thmRows | .pwr => pwrRows | .rng => rngRows | .sec => secRows
  | .evr => evrRows | .cfg => cfgRows | .cry => cryRows | .evf => evfRows
  | .srt => srtRows | .map => mapRows | .phc => phcRows | .drc => drcRows | .jrc => jrcRows | .str => strRows
  | .pat => patRows | .scb => scbRows | .dst => dstRows | .chn => chnRows

/-- A register found at an offset: its row, its indices and its first byte's offset in the block. -/
structure RegAt where
  row   : Row
  i1    : Nat
  i2    : Nat
  start : Nat

/-- How many bytes a row's register takes. -/
def Row.bytes (r : Row) : Nat := if r.wide then 8 else 4

/-- The row's register that byte offset o lies in, if it does. -/
def Row.at? (r : Row) (o : Nat) : Option RegAt :=
  if o < r.off then none else
  let d := o - r.off
  let i1 := if r.n1 = 1 then 0 else d / r.s1
  let d1 := d - i1 * r.s1
  let i2 := if r.n2 = 1 then 0 else d1 / r.s2
  let d2 := d1 - i2 * r.s2
  if i1 < r.n1 && i2 < r.n2 && d2 < r.bytes then some { row := r, i1, i2, start := o - d2 } else none

/-- The register at byte offset o of block b, unit u. -/
def findReg (b : Blk) (u o : Nat) : Option RegAt :=
  (headerRows b u ++ blockRows b).findSome? fun r => r.at? o

/-- A register's reset value: its fields' fixed values; the route register's depends on its source (Table 2-11). -/
def RegAt.resetVal (b : Blk) (x : RegAt) : Nat :=
  if b == .evf && x.row.off == 0x800 then
    (if 144 ≤ x.i1 && x.i1 ≤ 151 then 0x500 else if 248 ≤ x.i1 then 0 else 0x400)
  else x.row.flds.foldl (fun v f => v + f.rst * 2 ^ f.lo) 0

/-- The reset value at an absolute register address. -/
def resetAt (a : Nat) : Nat :=
  match locate a with
  | some (b, u, o) => match findReg b u o with
    | some x => x.resetVal b
    | none => 0
  | none => 0

end Sys2Proof.Machine
end

