-- ==== Sys2Proof/Machine/State.lean ====
section
/-! DEFINITION. The state of the SL7400 block as plain data, and the machine at reset. Every structure's default values
are its values at reset; a value the spec does not state is log entry 1's. -/

namespace Sys2Proof.Machine

/-- Why the block stops with a fault. No command raises one: every condition the spec describes is a next state. The one
constructor keeps the type inhabited (safe: it is never answered). -/
inductive Fault
  | never
deriving DecidableEq, Repr

/-- Why the block refuses a command: only a command that has no meaning yet (safe). -/
inductive Refusal
  | notModelled (mnemonic : String)
deriving DecidableEq, Repr

/-- NVMe completion status: type, code, and the DNR and M bits (R113). -/
structure Status where
  sct : Nat
  sc  : Nat
  dnr : Bool := false
  m   : Bool := false
deriving DecidableEq, Repr

/-- A completion queue entry as posted, with the command's queue and identifier. -/
structure Compl where
  port : Port
  qid  : Nat
  cid  : Nat
  st   : Status
  dw0  : Nat := 0
  sqhd : Nat := 0
deriving DecidableEq, Repr

/-- What the block sends out, newest last (the model's own record of its outputs, log entry 4). -/
inductive Out
  | readValue (i : Initiator) (v : Nat)
  | msix (p : Port) (vector addr data : Nat)
  | completion (cqid : Nat) (phase : Bool) (c : Compl)
  | hostData (p : Port) (cid : Nat) (blocks : List HostBlock)
  | reply (p : Port) (cid : Nat) (bytes : List Byte)
  | ltr (p : Port) (us : Nat)
  | configReply (p : Port) (v : Option Nat)
  | linkOffer (p : Port) (maxRate : Nat) (presets : List Nat) (eqBypass : Bool) (clkMode : Nat)
  | frame (p : RingPort) (bytes : List Byte)
  | spdm (t : SpdmTransport) (code : Nat) (body : List Byte)
  | fetch (i : Initiator) (bytes : List Byte)
  | busFault (i : Initiator)
deriving DecidableEq, Repr

/-- The clock and what only elapsed time moves. tb is the timebase (R332), boot the timebase at reset release, wd the
counts of the ten watchdogs (R67), free the number of free values used (log entry 5). -/
structure Clock where
  tb   : Nat := 0
  boot : Nat := 0
  wd   : NMap Nat := []
  free : Nat := 0
deriving DecidableEq, Repr

/-- One MSI-X vector of a port: its table entry and pending bit. -/
structure MsixVec where
  mask : Bool := true
  addr : Nat := 0
  data : Nat := 0
  pba  : Bool := false
deriving DecidableEq, Repr

/-- The holdoff of the vendor vectors 128 and 129 (R65): running, and whether a raise was merged into it. -/
structure Holdoff where
  running : Bool := false
  merged  : Bool := false
deriving DecidableEq, Repr

/-- A submission queue: size, tail, head (the next entry to fetch, reported as SQHD), its completion queue and class; deleting
is a Delete I/O Submission Queue that waits for its outstanding commands. -/
structure Sq where
  size     : Nat
  cqid     : Nat := 0
  prio     : Nat := 0
  failStop : Bool := false
  tail     : Nat := 0
  head     : Nat := 0
  frozen   : Bool := false
  deleting : Option Sqe := none
deriving DecidableEq, Repr

/-- A completion queue; held are completions that wait for a free slot. Coalesced interrupts are counted by vector, in PortSt. -/
structure Cq where
  size   : Nat
  vector : Nat := 0
  ien    : Bool := false
  tail   : Nat := 0
  head   : Nat := 0
  phase  : Bool := true
  held   : List Compl := []
deriving DecidableEq, Repr

/-- Queue arbitration of a controller (R81): the queue whose turn runs, the further commands that turn may fetch, the queue
served last by pool (0 every queue, 1 the admin queue, 2 urgent, 3 to 5 high, medium and low), and the turns that the classes
high, medium and low have left. -/
structure Arb where
  cur    : Option Nat := none
  left   : Nat := 0
  last   : NMap Nat := []
  credit : List Nat := []
deriving DecidableEq, Repr

/-- An asynchronous event: type, information and log page (R94). -/
structure Aer where
  typ  : Nat
  info : Nat
  lid  : Nat
deriving DecidableEq, Repr

/-- One Error Information log entry (R113, R115). -/
structure ErrEntry where
  count : Nat
  sqid  : Nat
  cid   : Nat
  st    : Status
  lba   : Nat
  nsid  : Nat
  cs    : Nat
deriving DecidableEq, Repr

/-- A threshold of Table 16-2: in force, and its two counts of consecutive rounds. -/
structure Thresh where
  inForce : Bool := false
  up      : Nat := 0
  down    : Nat := 0
deriving DecidableEq, Repr

/-- The port event whose drain is running (Table 3-10). -/
inductive DrainKind | reset | flr | link | shutdown | abruptShutdown
deriving DecidableEq, Repr

/-- One port and its controller. cc and aq are what CC, ASQ and ACQ hold beside the fields of their own, shn is CC.SHN; arb is its queue arbitration, coal the completions coalesced by vector; abortOut is the CID of
the Abort whose completion is not posted, abortWait the target (its completion queue, queue and CID) whose held completion goes
before that Abort's; ltrAt is the timebase of the last LTR message, d3hot the power state D3hot; dirEn are the
namespaces with the Streams directive enabled, dirOpen their open streams, dirRes the streams allocated to each; plm is an
event that the Predictable Latency Event Aggregate log lists. -/
structure PortSt where
  en       : Bool := false
  rdy      : Bool := false
  cfs      : Bool := false
  shst     : Nat := 0
  ams      : Nat := 0
  mps      : Nat := 0
  asqs     : Nat := 0
  acqs     : Nat := 0
  shn      : Nat := 0
  cc       : CcFields := { ams := 0, mps := 0, iosqes := 0, iocqes := 0 }
  aq       : Aqa := { asqs := 0, acqs := 0 }
  arb      : Arb := {}
  coal     : NMap Nat := []
  linkUp   : Bool := false
  trainEn  : Bool := false
  perst    : Bool := true
  cfgReady : Bool := false
  cfgSpace : NMap Nat := []
  fetching : Bool := false
  drain    : Option DrainKind := none
  sqs      : NMap Sq := []
  cqs      : NMap Cq := []
  msix     : NMap MsixVec := []
  hold     : NMap Holdoff := []
  aerOut   : List Nat := []
  aerHeld  : List Aer := []
  aerMask  : List Nat := []
  errLog   : List ErrEntry := []
  errCount : Nat := 0
  feat     : NMap Nat := []
  abortOut : Option Nat := none
  abortWait : Option (Nat × Nat × Nat × Compl) := none
  nsNotice : List Nat := []
  ltrHost  : Option Nat := none
  ltrSent  : Nat := 0
  ltrAt    : Option Nat := none
  d3hot    : Bool := false
  secRsp   : List (List Byte) := []
  dirEn    : List Nat := []
  dirOpen  : List (Nat × Nat) := []
  dirRes   : List (Nat × Nat) := []
  plm      : Bool := false
  tOver    : Thresh := {}
  tUnder   : Thresh := {}
deriving DecidableEq, Repr

/-- A recorder candidate (R377): its code, origin, payload from byte 16, whether it is a suppressed-count summary, the
count it carries, the last-gasp LGSEQ it copies, and whether a loss episode marked it. -/
structure Cand where
  code    : Nat
  origin  : Nat
  payload : List Byte
  sumOnly : Bool := false
  supp    : Nat := 0
  fromLg  : Option Nat := none
  marked  : Bool := false
deriving DecidableEq, Repr

/-- The token bucket of one code (R377): configuration, level in 1/4,000,000,000 of a token at the timebase asOf, and the
suppressed count. -/
structure Bucket where
  burst  : Nat := 8
  refill : Nat := 16
  off    : Bool := false
  level  : Nat := 32000000000
  asOf   : Nat := 0
  supp   : Nat := 0
deriving DecidableEq, Repr

/-- A record as held in a slot (Table 15-3); body is what follows byte 15. -/
structure Rec where
  seq    : Nat
  cand   : Cand
  flash  : Bool := false
deriving DecidableEq, Repr

/-- A circulating slot (R382): a record, or bytes that hold none. -/
inductive RecSlot | held (r : Rec) | broken (seq : Nat)
deriving DecidableEq, Repr

/-- A founding slot: the record and which of its copies A and B are readable. -/
structure Founding where
  r : Rec
  a : Bool := true
  b : Bool := true
deriving DecidableEq, Repr

/-- An initiator's cursor, window and write buffer (R385, R376). -/
structure EvrBank where
  cursor : Nat := 0
  valid  : Bool := false
  status : Nat := 0
  gen    : Nat := 0
  win    : List Byte := []
  wrbuf  : NMap Nat := []
deriving DecidableEq, Repr

/-- The event recorder. The slots, the last-gasp store and the flash log survive a reset; the rest does not (R384). -/
structure Evr where
  fifo      : List Cand := []
  lostRec   : Option Cand := none
  episode   : Option (Nat × Nat × Nat) := none
  buckets   : NMap Bucket := []
  dflt      : Bucket := {}
  pace      : Nat := 250000000
  next      : Nat := 0
  scanning  : Bool := false
  scanned   : Bool := false
  flashOnly : Bool := false
  flushSup  : Bool := false
  circ      : NMap RecSlot := []
  found     : NMap Founding := []
  badSlots  : List (Nat × Nat) := []
  lg        : NMap Rec := []
  lgSeq     : Nat := 0
  lgDone    : List Byte := []
  buf       : List Rec := []
  flashLog  : List Rec := []
  fifoMax   : Nat := 0
  banks     : NMap EvrBank := []
deriving DecidableEq, Repr

/-- One on-die sensor: its last reading and its count of consecutive disagreeing or invalid rounds. -/
structure Sensor where
  reading  : Option Int := none
  disagree : Bool := false
  count    : Nat := 0
deriving DecidableEq, Repr

/-- One external input: enabled by configuration, its last reading, and the rounds at or above its limit and 5 °C below. -/
structure ExtInput where
  enabled : Bool := false
  reading : Option Int := none
  up      : Nat := 0
  down    : Nat := 0
  isOver  : Bool := false
deriving DecidableEq, Repr

/-- One supply monitor: its window in mV (RAILS block), last reading, and rounds outside. -/
structure Rail where
  lo    : Nat := 0
  hi    : Nat := 65535
  mv    : Option Nat := none
  count : Nat := 0
  low   : Bool := false
  high  : Bool := false
deriving DecidableEq, Repr

/-- The thermal round. Temperatures are in sixteenths of a degree; warnRounds and throtRounds are the rounds with the warning
and the throttle in force. -/
structure Thm where
  sensors   : List Sensor := List.replicate 16 {}
  ext       : List ExtInput := List.replicate 4 {}
  rails     : List Rail := List.replicate 12 {}
  temp      : Int := 0
  tempMax   : Int := 0
  seen      : Bool := false
  warn      : Thresh := {}
  throttle  : Thresh := {}
  shut      : Thresh := {}
  shutdown  : Bool := false
  noSensor  : Bool := false
  coolCount : Nat := 0
  band      : Nat := 0
  bandUp    : Nat := 0
  bandDown  : Nat := 0
  lowest    : Nat := 0
  sdcnt     : Nat := 0
  restarted : Bool := false
  warnRounds : Nat := 0
  throtRounds : Nat := 0
deriving DecidableEq, Repr

/-- One island's voltage-and-frequency loop (R408): divider, voltage in 5 mV steps above 0.4 V, its fused limits. -/
structure Avfs where
  fdiv : Nat := 0
  volt : Nat := 0
  vmin : Nat := 0
  vmax : Nat := 1023
deriving DecidableEq, Repr

/-- Power states (R401 to R407): present and target state, the last operational one, a request that waits, and whether
R260 defers it; settling is the part of an entry to PS3 or PS4 in which the couriers and the stripe engine end what they have (R403
step 2); minSlack is the least slack since PWR_AVSEL was written. -/
structure Pwr where
  ps       : Nat := 0
  lastOp   : Nat := 0
  target   : Nat := 0
  transit  : Bool := false
  want     : Option Nat := none
  defer    : Bool := false
  stopped  : Bool := false
  dumpAt   : Option Nat := none
  settling : Bool := false
  failRan  : Bool := false
  avfs     : NMap Avfs := []
  minSlack : Int := 255
  bandAt   : Nat := 0
deriving DecidableEq, Repr

/-- The chip's reset and run condition: held in reset, parked by the power-fail sequence (R269, R270), RESET_N and
PWR_FAIL_N asserted, the kind of a reset that waits for its release, the superblocks that start-up still closes, the cores that an error
in their SRAM has stopped (Table 12-3), couriers in reset, couriers of retired channels past step 6 (R480), whether start-up has reached
map-ready, whether it is still running, and the fused unit serial of 24 bytes. disabling are the blocks in their disable
sequence (R52), each with the operations issued when it began. straps are the strap pins, in the bits of CFG_STRAP: no command
drives them (log entry 68). -/
structure Chip where
  held      : Bool := true
  powered   : Bool := false

  parked    : Bool := false
  rstLow    : Bool := true
  failLow   : Bool := false
  kind      : Nat := 0
  closures  : List Nat := []
  coreStop  : List Nat := []
  chnReset  : List Nat := []
  chnGone   : List Nat := []
  mapReady  : Bool := false
  wakeWait  : Bool := false
  stopFetch : Bool := false
  starting  : Bool := false
  serial    : BitVec 192 := 0
  disabling : List (Blk × Nat) := []
  straps    : Nat := 0
deriving DecidableEq, Repr

/-- The unit's ring state (Table 13-4). -/
inductive RingSt | disabled | unenumerated | member | isolated
deriving DecidableEq, Repr

/-- What a beacon last told of a unit (Table 13-3). -/
structure Beacon where
  gid      : Nat
  addr     : Nat
  state    : Nat
  ports    : Nat
  n        : Nat
  pmaddr   : Nat
  sseq     : Nat
  serhash  : Nat
  strapped : Bool
deriving DecidableEq, Repr

/-- The de-duplication record of one origin (R322): the newest SEQ and the bitmap of the 64 most recent. -/
structure SeqWin where
  newest : Nat
  marks  : BitVec 64
deriving DecidableEq, Repr

/-- A queued firmware dispatch (R323). -/
structure RxFrame where
  typ     : Nat
  src     : Nat
  payload : List Byte
deriving DecidableEq, Repr

/-- A dispatch this unit repeats (R323): its frame and the repeats left; acked marks one that stops at an ACK. -/
structure Repeat where
  typ     : Nat
  dst     : Nat
  seq     : Nat
  payload : List Byte
  left    : Nat
  acked   : Bool
deriving DecidableEq, Repr

/-- One side of the firmware relay (R342): sending with the next acknowledged chunk, or receiving. -/
structure Relay where
  digest : Nat := 0
  size   : Nat := 0
  next   : Nat := 0
  sent   : Nat := 0
  active : Bool := false
deriving DecidableEq, Repr

/-- The Yosol ring engine and SC1's part of it. The offset is in 64ths of a count. -/
structure Ring where
  east     : RingLink := .down
  west     : RingLink := .down
  nbEast   : Option (Nat × Nat) := none
  nbWest   : Option (Nat × Nat) := none
  everUp   : Bool := false
  upAt     : Nat := 0
  st       : RingSt := .disabled
  addr     : Option Nat := none
  n        : Nat := 0
  pmaddr   : Option Nat := none
  gid      : Option Nat := none
  gstart   : Nat := 0
  geper    : Nat := 0
  tickDone : Nat := 0
  seq      : Nat := 0
  seen     : NMap SeqWin := []
  heard    : NMap Beacon := []
  loose    : NMap Beacon := []
  foreign  : Bool := false
  origin   : Option Nat := none
  starting : Bool := false
  retried  : Bool := false
  eastDone : Bool := false
  offset   : Int := 0
  locked   : Bool := false
  upstream : Option RingPort := none
  holdover : Bool := false
  unsync   : Bool := true
  reach    : List Nat := []
  topo     : Nat := 0
  role     : Nat := 0
  sched    : Option SchedDesc := none
  nextSched : Option SchedDesc := none
  parts    : NMap (Nat × BitVec 384) := []
  rejoined : Bool := false
  inWin    : Bool := false
  tchange  : Nat := 0
  changes  : Nat := 0
  rxq      : List RxFrame := []
  repeats  : List Repeat := []
  act      : Option (Nat × Nat × Nat) := none
  tbmax    : Nat := 0
  count    : Nat := 0
  txEast   : Relay := {}
  txWest   : Relay := {}
  rx       : Relay := {}
  rxFrom   : Option RingPort := none
  rxImage  : List Byte := []
  txImage  : List Byte := []
  haveImgs : List Nat := []
  admitted : NMap Nat := []
  schedWait : Option (Port × Nat × SchedDesc) := none
deriving DecidableEq, Repr

/-- One fused key slot (R350). -/
structure KeySlot where
  programmed : Bool := false
  revoked    : Bool := false
  keyhash    : BitVec 512 := 0
deriving DecidableEq, Repr

/-- An SPDM session (R365): its identifier, whether the handshake ended, whether the requester authenticated with a
certificate chained to a usable key slot, and its heartbeat. -/
structure Session where
  sid       : Nat
  up        : Bool := false
  mutAuth   : Bool := false
  authed    : Bool := false
  heartbeat : Bool := true
  epoch     : Nat := 0
  windows   : List Port := []
deriving DecidableEq, Repr

/-- The progress of SPDM on one transport: version, capabilities and algorithms agreed. -/
structure SpdmConn where
  version : Bool := false
  caps    : Bool := false
  algs    : Bool := false
deriving DecidableEq, Repr

/-- An activation in progress (R357): the standby slot, the digest, where it came from, and whether the cores switched. -/
structure Activation where
  slot     : Nat
  digest   : BitVec 512
  cmd      : Option (Port × Nat × Nat)
  switched : Bool := false
  svn      : Nat := 0
  keyslot  : Nat := 0
  svncommit : Bool := false
deriving DecidableEq, Repr

/-- A Firmware Commit whose NOR write runs, or that waits for its activation (R354, R355); mute where a port event drained it,
begun once its NOR write runs. -/
structure Commit where
  port : Port
  qid  : Nat
  cid  : Nat
  ca   : Nat
  slot : Nat
  mute : Bool := false
  img  : List Byte := []
  begun : Bool := false
deriving DecidableEq, Repr

/-- BAR2 window states (R57). -/
inductive Window | closed | openRo | openRw
deriving DecidableEq, Repr

/-- Fuses, images in use and attestation. Slot 0 is programmed at manufacture (R350); the hash it holds is not stated (log
entry 1). dl holds the two download buffers by byte offset, handover the handover block in JRAM's mirrored firmware area (R359). -/
structure Sec where
  slots     : List KeySlot := { programmed := true } :: List.replicate 3 {}
  minsvn    : Nat := 0
  runDigest : BitVec 512 := 0
  runSvn    : Nat := 0
  runKey    : Nat := 0
  runCommit : Bool := false
  verifying : Bool := false
  vres      : Option (Nat × BitVec 512) := none
  act       : Option Activation := none
  commit    : Option Commit := none
  dlA       : NMap Byte := []
  dlB       : NMap Byte := []
  dlEndA    : Nat := 0
  dlEndB    : Nat := 0
  winA      : Window := .closed
  winB      : Window := .closed
  sessions  : List Session := []
  nextSid   : Nat := 1
  conns     : List (SpdmTransport × SpdmConn) := []
  meas4     : BitVec 512 := 0
  meas5     : BitVec 512 := 0
  depot     : Bool := false
  store     : Option (List Byte) := none
  ranReady  : Bool := false
  rootAfter : Bool := false
  uds       : BitVec 256 := 0
  oldImg    : Option (Nat × BitVec 512 × Nat × Nat × Bool) := none
  handover  : List Byte := []
deriving DecidableEq, Repr

/-- The key store and the SALT table (R367): the loaded clear keys by NSID, and the SALT entries by 2·NSID + entry. -/
structure Cry where
  keys  : NMap (BitVec 512) := []
  salts : NMap Nat := []
  busy  : Bool := false
  selfFail : Bool := false
deriving DecidableEq, Repr

/-- A NOR operation in progress (R457). -/
structure NorOp where
  op      : Nat
  addr    : Nat
  data    : List Byte
  erasing : Bool := true
  suspended : Bool := false
  commit  : Bool := false
  result  : Nat := 0
  refused : Bool := false
deriving DecidableEq, Repr

/-- Start-up and the Config NOR. nor lists the NOR bytes that are not 0xFF (erased); norSize is the device's density;
recom marks the sanitize of a recommissioning, recomNow one in this start-up. -/
structure Boot where
  nor      : NMap Byte := []
  norSize  : Nat := 67108864
  op       : Option NorOp := none

  waiting  : List (Initiator × Nat) := []

  firstBoot : Bool := false
  recom    : Bool := false
  recomNow : Bool := false
  dramGib  : Nat := 0
  userCap  : Nat := 0
  minDram  : Nat := 0
  rankFail : Bool := false
deriving DecidableEq, Repr

/-- A valid line of the pigeonhole cache: its DRAM line number (byte address / 64), dirty bit and data. -/
structure PhcLine where
  line  : Nat
  dirty : Bool
  data  : BitVec 512
deriving DecidableEq, Repr

/-- An outstanding fill and the requests that wait for it (R167). -/
structure PhcFill where
  line    : Nat
  waiting : List LineReq
deriving DecidableEq, Repr

/-- An eviction-buffer entry (R169, R170): the line, the data its write-back carries, its data now, whether a request was served
from it and whether one re-dirtied it. -/
structure PhcEvict where
  line    : Nat
  wb      : BitVec 512
  data    : BitVec 512
  touched : Bool := false
  redirty : Bool := false
deriving DecidableEq, Repr

/-- A running range operation (R173): the first line, the line after the last, OP, the lines visited, and the counts. -/
structure PhcRange where
  lo   : Nat
  hi   : Nat
  op   : Nat
  seen : List Nat := []
  wb   : Nat := 0
  inv  : Nat := 0
deriving DecidableEq, Repr

/-- The pigeonhole cache. st is STATE of Table 6-2; lines by set × 16 + way; trees the replacement bits by set; held the
requests that wait for an invalidation or for one of the 64 fills; drainPs4 marks a drain that entry to PS4 started, and wake an
exit from PS4 that waits for its end; lost the segments being rebuilt, by SEGID; reports what the requesters of the last fill that
failed received (R167); rowKnown says that the row for which a way is being disabled is in the repair list already (R176). -/
structure Phc where
  st        : Nat := 1
  lines     : NMap PhcLine := []
  trees     : NMap Nat := []
  fills     : List PhcFill := []
  evict     : List PhcEvict := []
  held      : List LineReq := []
  rng       : Option PhcRange := none
  disabling : Option (Nat × Nat) := none
  drainPs4  : Bool := false
  wake      : Bool := false
  lost      : List Nat := []
  accesses  : Nat := 0
  reports   : List (LineReq × UnitReport) := []
  rowKnown  : Bool := false
deriving DecidableEq, Repr

/-- A parcel entry (Table 5-2, R132). -/
inductive PEnt | unmapped | ptr (ppa : Nat) | fine (b : Nat) | dead (ppa : Nat)
deriving DecidableEq, Repr

/-- A letter entry in a bundle (Table 5-3, R133); odd is one of the reserved kind 0b10, which is corrupt (R131). -/
inductive LEnt | gone | slot (ppa : Nat) | dead (ppa : Nat) | odd (v : Nat)
deriving DecidableEq, Repr

/-- A bundle in use: its descriptor (Table 5-4) and its 16 letter entries (R136). -/
structure Bundle where
  nsid   : Nat
  parcel : Nat
  heat   : Nat
  ents   : List LEnt
deriving DecidableEq, Repr

/-- A key carrier (R412): the namespace, the SALT entry and the wrapped key. -/
structure Carrier where
  nsid    : Nat
  salt    : Nat
  wrapped : BitVec 576
deriving DecidableEq, Repr

/-- A namespace: its size, capacity, format, PI settings, attachments, segment list (R135), key and parcel entries that are
not unmapped; mapped counts its mapped letters, metadata units included (R153). -/
structure Ns where
  nsze       : Nat
  ncap       : Nat
  lbaf       : Nat := 0
  piType     : Nat := 0
  pil        : Bool := false
  ext        : Bool := false
  attached   : List Port := []
  segs       : List Nat := []
  key        : Carrier := { nsid := 0, salt := 0, wrapped := 0 }
  parcels    : NMap PEnt := []
  mapped     : Nat := 0
  formatting : Bool := false
deriving DecidableEq, Repr

/-- A block information entry (Table 9-1); the 0x00 FREE entry with no erases is not listed. epoch is the generation in
which its superblock became ERASABLE. sbx is the superblock of which the block is a member; the table shows it while the block is
IN_USE only. -/
structure BlkInfo where
  erases : Nat := 0
  st     : Nat := 0
  refr   : Bool := false
  reads  : Nat := 0
  sbx    : Nat := 0xFFFFFFFF
  epoch  : Nat := 0
deriving DecidableEq, Repr

/-- A member entry of a superblock descriptor (Table 8-6). -/
structure Member where
  chn     : Nat
  pos     : Nat
  block   : Nat
  endrow  : Nat
  endfail : Bool := false
deriving DecidableEq, Repr

/-- A superblock: its descriptor (Table 8-5) with st 1 OPEN, 2 SEALED, 3 VICTIM, 4 ERASABLE, its information entry
(Table 9-2), the erases issued and ended, and the generation in which it became ERASABLE. -/
structure Sb where
  sbid     : Nat
  st       : Nat
  stream   : Nat
  closed   : Bool := false
  narrow   : Bool := false
  nextRow  : Nat := 0
  rows     : Nat
  openWsn  : Nat := 0
  sealWsn  : Nat := 0
  members  : List Member
  vcount   : Nat := 0
  sealTime : Nat := 0
  degraded : Bool := false
  system   : Bool := false
  job      : Bool := false
  pins     : Nat := 0
  erasing  : Bool := false
  ended    : List (Nat × Nat) := []
  epoch    : Nat := 0
deriving DecidableEq, Repr

/-- An open superblock's row (Table 8-7): its superblock, whether the OPEN group is durable, the phase, the members folded
and programmed in row NEXTROW, the accumulators by slot, the next data page group to allocate, its packing page group, and
what an early closure still waits for. lost marks accumulators lost to an error. -/
structure OpenSb where
  sbx     : Nat
  durable : Bool := false
  sealing : Bool := false
  folded  : List Nat := []
  done    : List Nat := []
  accP    : NMap Payload := []
  accQ    : NMap Payload := []
  next    : Nat := 0
  closing : Option (List Nat) := none
  asked   : Bool := false
  lost    : Bool := false
deriving DecidableEq, Repr

/-- Who holds slots of a page group: a command by its identifier, a relocation by its own, or the checkpoint (R266, R268). -/
inductive Holder | cmd (id : Nat) | reloc (id : Nat) | sys
deriving DecidableEq, Repr

/-- An allocated page group: its stream, its place (superblock, row, member) once it has one, its 16 payloads as they
arrive, its holders, and its progress: packing, ready to fold, programming, done. -/
inductive PgSt | packing | ready | programming | done
deriving DecidableEq, Repr
structure Pg where
  k       : Nat
  place   : Option (Nat × Nat × Nat) := none
  slots   : NMap Payload := []
  used    : Nat := 0
  holders : List Holder := []
  st      : PgSt := .packing
deriving DecidableEq, Repr

/-- A map update wanted by a command or an internal actor, before its records are decided (Tables 5-6 and 9-7, R145). -/
inductive Want
  | whole (nsid parcel pg : Nat)
  | put (nsid parcel : Nat) (lets : List (Nat × Nat × Nat))
  | clear (nsid parcel : Nat) (lets : List Nat)
  | clearRange (nsid parcel count : Nat)
  | move (nsid parcel old pg : Nat)
  | moveLetter (nsid parcel letter old pg slot : Nat)
  | consolidate (nsid parcel : Nat) (old : List (Nat × Nat)) (pg : Nat)
  | mark (nsid parcel : Nat) (letter : Option Nat) (ppa : Nat)
  | resweep (nsid parcel : Nat) (letter : Option Nat) (old new : Nat)
  | shed (nsid letters : Nat)
  | nsop (op nsid value : Nat) (keys : List Carrier)
  | desc (sbx : Nat)
  | free (sbx : Nat)
deriving DecidableEq, Repr

/-- A journal record (Tables 10-3 and 10-4), with what follows it. -/
inductive JRec
  | parcel (nsid parcel : Nat) (freeb : Option Nat) (v : PEnt)
  | promote (nsid parcel bundle : Nat) (old : PEnt)
  | letter (nsid parcel letter bundle : Nat) (v : LEnt)
  | range (nsid parcel count : Nat)
  | sbdesc (sbx : Nat) (bytes : List Byte)
  | sbfree (sbx sbid : Nat)
  | nsop (op nsid value : Nat) (keys : List Carrier)
  | acct (nsid letters : Nat)
deriving DecidableEq, Repr

/-- Who asked for a record group. -/
inductive GOwner
  | cmd (id : Nat)
  | reloc (id : Nat)
  | dead (dseq : Nat)
  | sb (sbx : Nat)
  | sweep (chn : Nat)
  | other
deriving DecidableEq, Repr

/-- A record group: what it wants, and once the JRC has taken it, its records. -/
structure Group where
  owner : GOwner
  wants : List Want
  recs  : List JRec := []
  waited : Bool := false
deriving DecidableEq, Repr

/-- A batch the JRC has written or writes: its GSEQ and its groups (R262). -/
structure Batch where
  gseq   : Nat
  groups : List Group
deriving DecidableEq, Repr

/-- A grown bad-block entry (Table 9-12). -/
structure BadEnt where
  cause  : Nat
  erases : Nat
  lun    : Nat
  block  : Nat
deriving DecidableEq, Repr

/-- A Dead-Letter Office entry (Table 11-7). -/
structure DloEnt where
  dseq  : Nat
  slba  : Nat
  nsid  : Nat
  nlb   : Nat
  cause : Nat
  req   : Nat
  st    : Nat := 1
  md    : Bool := false
  ppa   : Nat
deriving DecidableEq, Repr

/-- A run of lost letters of a namespace with their slots' PPAs, which waits for its marking (R290, R293): whole for the 16 letters
of a parcel pointer; CAUSE and REQ as R236. -/
structure DeadRun where
  nsid  : Nat
  lets  : List (Nat × Nat)
  whole : Bool := false
  cause : Nat
  req   : Nat
deriving DecidableEq, Repr

/-- A relocation: a job of the ring (idx), or a page group of the refresh queue. pend are the page groups being read, parts
the payloads read so far of each, gather the parcels being consolidated with their letters' slots, extra what is read for them, groups the record groups not yet applied. -/
structure Reloc where
  idx      : Option Nat := none
  sbx      : Nat
  op       : Nat := 0
  stream   : Nat := 19
  member   : Nat := 0
  first    : Nat := 0
  last     : Nat := 0
  todo     : List Nat := []
  pend     : List Nat := []
  parts    : NMap (NMap (Option Payload)) := []
  gather   : List (Nat × Nat × List (Nat × Nat)) := []
  extra    : NMap (Option Payload) := []
  wants    : List Want := []
  groups   : Nat := 0
  moved    : Nat := 0
  orphaned : Nat := 0
  dead     : List Nat := []
  aborted  : Bool := false
deriving DecidableEq, Repr

/-- A listed case of R143 that waits for a bundle: its holder, namespace and parcel, and whether it is a deallocation. -/
structure Waiter where
  h       : Holder
  nsid    : Nat
  parcel  : Nat
  dealloc : Bool
deriving DecidableEq, Repr

/-- The map: the journalled tables (R135, R136, R237, R238), and C. A checkpoint is a copy of this. -/
structure MapTab where
  ns       : NMap Ns := []
  bundles  : NMap Bundle := []
  blocks   : NMap BlkInfo := []
  sbs      : NMap Sb := []
  commitC  : Nat := 0
  sanitize : Nat := 0
deriving DecidableEq, Repr

/-- The rest of the map engine: reservations and waiters for bundles (R143), WSN, the SBID counter, open superblocks,
page groups in progress, the refresh queue, relocations, the system-area tables, the life clock, and the space figures that
Table 5-9 gives for one overlay only (log entry 30). mhBase and mhSaved are the counts of Table 17-14 from before the last
reset, and as the last root commit saved them. pinHold are the pins of commands that have ended while their flash reads still
run (R108). sysSb are the system superblocks with their streams, and retSys the retirement bits by register as the flash system area
holds them (R255, R268). -/
structure MapEng where
  tab      : MapTab := {}
  resv     : List (Nat × Holder × Nat × Nat) := []
  waiters  : List Waiter := []
  wsn      : Nat := 0
  wsnLim   : Nat := 0
  sbidNext : Nat := 1
  opens    : NMap OpenSb := []
  pgs      : NMap Pg := []
  pgNext   : Nat := 0
  packs    : NMap Nat := []
  rr       : NMap Nat := []
  refresh  : List Nat := []
  relocs   : NMap Reloc := []
  relNext  : Nat := 0
  earned   : Int := 0
  jobs     : List (Nat × JobReq) := []
  jobStat  : NMap Nat := []
  badLog   : List BadEnt := []
  badCut   : Nat := 0
  badTab   : List BadEnt := []
  pressed  : Bool := false
  chip     : Nat := 0
  changes  : Nat := 0
  anaChanges : Nat := 0
  retired  : Bool := false
  retiring : List (Nat × Option Nat × Nat) := []
  u0       : Nat := 0
  s0       : Int := 0
  sysArea  : Nat := 0
  ckptImg  : Nat := 0
  reserveR : Nat := 0
  shedReq  : Nat := 0
  rmwSeen  : Bool := true
  life     : Nat := 0
  lifeCopy : Nat := 0

  scanning : Bool := false
  forced   : List Nat := []
  mhBase   : List Nat := []
  mhSaved  : List Nat := []
  recount  : List Nat := []
  pinHold  : List (Nat × List Nat) := []
  sysSb    : NMap Nat := []
  retSys   : NMap Nat := []
deriving DecidableEq, Repr

/-- Who reads a codeword (Table 8-4): a command, its read-modify-write, a relocation, member m of a ladder's rebuild, the patrol,
or a ladder itself, for the reads that its steps 2 to 4 add (R477). -/
inductive Req | cmd (id : Nat) | rmw (id : Nat) | reloc (id : Nat) | member (lad m : Nat) | patrol | ladder (id : Nat)
deriving DecidableEq, Repr

inductive FKind | read | program | erase
deriving DecidableEq, Repr
/-- Where an operation is: held by the district, in its LUN's queue, on the die, or suspended (R186, R192). -/
inductive FSt | held | queued | running | suspended
deriving DecidableEq, Repr

/-- An operation of a courier (R186): its target, class (1 RD_H to 4 ERASE), arrival order, progress, suspend count, the
requesters of each codeword it reads, the page group it programs or the superblock and parity member it programs, since when it
waits for tokens, and the plane units of a program's data not transferred yet (R187). aged marks an RD_I served as RD_H; again one
issued a second time; sysOp an erase of a sanitize round; resume a suspended one that is to be resumed; single a single-plane read
that a ladder added (R477); ofs the offsets of a read's levels, in whole steps (R214, R215, R219). -/
structure FOp where
  kind  : FKind
  lun   : Nat
  block : Nat
  page  : Nat := 0
  cls   : Nat
  arr   : Nat := 0
  st    : FSt := .held
  susp  : Nat := 0
  aged  : Bool := false
  again : Bool := false
  cws   : List (Nat × List Req) := []
  pg    : Option Nat := none
  par   : Option (Nat × Nat) := none
  wait  : Option Nat := none
  sysOp : Bool := false
  resume : Bool := false
  units : Nat := 0
  single : Bool := false
  ofs   : List (Nat × Int) := []
deriving DecidableEq, Repr

/-- A rebuild at step 5 or 6 (R230 to R232): the superblock, row and target member, members still read, members erased. -/
structure Rebuild where
  sbx    : Nat
  row    : Nat
  target : Nat
  pend   : List Nat
  erased : List Nat
deriving DecidableEq, Repr

/-- A ladder (R213, R216): its codeword, the step it is at, its requesters, its rebuild, and the cause at step 7. sub numbers the
step's added read that is under way, sig is σ of the failed step-1 read (R214), tried the re-read's levels with their tracked offsets
and shifts, best the step-2 re-read of the lowest syndrome weight with that weight and cen its offsets, in quarter steps (R215), soft
the arrival of its request for a soft decoder, dec whether it has one (R31). -/
structure Ladder where
  ppa   : Nat
  step  : Nat
  reqs  : List Req
  rb    : Option Rebuild := none
  cause : Nat := 0
  sub   : Nat := 0
  sig   : Int := 1
  best  : Option (Nat × Nat) := none
  tried : List (Nat × Int × Int) := []
  cen   : List (Nat × Int) := []
  soft  : Option Nat := none
  dec   : Bool := false
deriving DecidableEq, Repr

/-- A threshold table entry (R219) as its 16 bytes decode: the offsets by level, BAND and CONF. -/
structure TtEntry where
  ofs  : NMap Int := []
  band : Nat := 0
  conf : Nat := 0
deriving DecidableEq, Repr

/-- One entry of a snapshot unit (R372): its age, values, tag and trigger. -/
structure SnapEnt where
  words : List Nat
deriving DecidableEq, Repr

/-- A courier's parts that are not registers: bands with settings stored, setBand the one whose settings are in force, LUN timeouts as
(LUN, time), a training in progress with its kind (0 full, 1 verify) and the band trainBand in which it began, one that waits for its
turn (0 full, 1 a band entry), whether it waits for its first training (R188), a reset in progress, LUNs a
reset cleared and when (R254), snapshots held, oldest first, and the index of the oldest, the program whose plane unit is on the bus, and the position served last (R187). -/
structure Courier where
  bands    : List Nat := []
  timeouts : List (Nat × Nat) := []
  training : Option Nat := none
  wantTrain : Option Nat := none
  untrained : Bool := false
  reset    : Bool := false
  snaps    : List SnapEnt := []
  snapCount : Nat := 0
  snapHead : Nat := 0
  rstClear : NMap Nat := []
  bus      : Option Nat := none
  busLast  : Nat := 31
  setBand  : Option Nat := none
  trainBand : Nat := 0
deriving DecidableEq, Repr

/-- The die type in force (Table 7-2 and the DIETYPE block), loaded at configuration load. seeds by (band × 8 + zone) × 16
+ level; levels of a page type with polarity and weight come from Config. -/
structure Die where
  raw    : List Byte := []
  blocks : Nat := 0
  pages  : Nat := 0
  rated  : Nat := 0
deriving DecidableEq, Repr

/-- The flash medium and its couriers. media holds the whitened codeword of every programmed slot by PPA (R206, R208); absent the
positions that do not answer or answer otherwise (true), marks the factory marks; budget is the flash budget of the last
allocation (R202), oneDec whether PS2's cap of one soft decoder per district held at it (Table 16-5, R396, R402), cost the token
costs that each district took at its enable (R199). -/
structure Flash where
  die     : Die := {}
  media   : NMap Codeword := []
  absent  : NMap Bool := []
  marks   : List (Nat × Nat) := []
  ops     : NMap FOp := []
  opNext  : Nat := 0
  lads    : NMap Ladder := []
  ladNext : Nat := 0
  chn     : NMap Courier := []
  budget  : Nat := 0
  oneDec  : Bool := false
  cost    : NMap Nat := []
deriving DecidableEq, Repr

/-- A segment table entry (R266): the PPA of the segment's first page group, ZERO, and the segment's CRC-32C. -/
structure SegEnt where
  ppa  : Nat := 0
  zero : Bool := false
  crc  : Nat := 0
deriving DecidableEq, Repr

/-- A checkpoint root: its 256 bytes (Table 10-8), its segment table by SEGID, and the map and tables that its segments hold, with
the grown bad-block table (log entry 31). -/
structure Root where
  bytes    : List Byte
  segs     : NMap SegEnt := []
  tab      : MapTab := {}
  badTab   : List BadEnt := []
  ttab     : NMap Byte := []
deriving DecidableEq, Repr

/-- A seal dump (R271): its 64-byte header, and each present superblock's descriptor and row. -/
structure Dump where
  head : List Byte
  sbs  : NMap (OpenSb × Sb)
deriving DecidableEq, Repr

/-- The JRAM journal: the ring as 16-byte words, the root copies (0 A on J0, 1 A on J1, 2 B on J0, 3 B on J1), the dump slots, the
64-byte JRAM units that are uncorrectable by address (die × 2^26 + offset), the segments that the running cut writes, with the
first page group of each that is stored and its CRC, the cut's step (1 segments, 2 tables, 3 the system area), the root that the
system area is about to hold, the 64 bytes of the progress block (Table 17-6a) as both dies hold them, whether the live bytes had reached
FULL when that was last judged (R264), and the JRC's own state. -/
structure Jrc where
  ring     : NMap (BitVec 128) := []
  head     : Nat := 0
  tail     : Nat := 0
  gen      : Nat := 0
  gseq     : Nat := 0
  acked    : Nat := 0
  live     : Nat := 0
  twoGen   : Bool := false

  hold     : Bool := false
  holdAt   : Nat := 0
  tokens   : Nat := 0
  tokRes   : Nat := 0
  reqs     : List Group := []
  batches  : List Batch := []
  applyQ   : List Group := []
  committing : Bool := false
  lastCut  : Nat := 0
  lastBatch : Option Nat := none
  lastRoot : Option Nat := none
  trigs    : List Nat := []
  next     : Option Root := none
  roots    : NMap Root := []
  flashRoot : Option Root := none
  dump0    : Option Dump := none
  dump1    : Option Dump := none
  hurt     : List Nat := []
  progBlk  : List Byte := []
  full     : Bool := false
  cutSegs  : NMap (Option Nat × Nat) := []
  cutSt    : Nat := 0
  lastCopy : Option Root := none
  stalled  : Bool := false
  dirty    : List Nat := []
  dirtyOld : List Nat := []
deriving DecidableEq, Repr

/-- The progress block of format and sanitize (Table 17-6a), with the status that the Sanitize Status log reports, the step
within the phase (1 start group, 2 zero-fill, 3 recount, 4 erases, 5 epoch cut, 6 done group) and the command it serves; pinned marks
an ERASE round that waits for pins. -/
structure Progress where
  kind   : Nat := 0
  phase  : Nat := 0
  action : Nat := 0
  nsid   : Nat := 0
  cursor : Nat := 0
  rounds : Nat := 0
  fails  : Nat := 0
  opseq  : Nat := 0
  sstat  : Nat := 0
  cdw10  : Nat := 0
  stage  : Nat := 0
  cmd    : Option Nat := none
  saved  : Nat := 0
  pinned : Bool := false
deriving DecidableEq, Repr

/-- What a reading command found for one letter (R35, R150). -/
inductive Found | gone | dead | slot (ppa : Nat)
deriving DecidableEq, Repr

/-- The read-modify-write of one parcel (R144): its namespace and parcel, the letters of one range where it stands for a
deallocation's clear (R111), and the letters read. -/
structure Rmw where
  nsid   : Nat
  parcel : Nat
  own    : Option (List Nat) := none
  got    : NMap (Option Payload) := []
  pg     : Option Nat := none
deriving DecidableEq, Repr

/-- What a released reading command found its namespace to be, and its key, with the segments and parcels left out: a later
format or deletion does not change what the command returns (R103). -/
structure View where
  n   : Ns
  key : BitVec 512
deriving DecidableEq, Repr

/-- A fetched command the sorting office or the firmware holds. body is the command as fetched. -/
structure Cmd where
  body     : Instr
  q        : Sqe
  modif    : Bool := false
  ranges   : List (Nat × Nat × Nat) := []
  entries  : Nat := 1
  accepted : Bool := true
  released : Bool := false
  asked    : Bool := false
  resolved : Bool := false
  dataIn   : Bool := false
  sent     : Bool := false
  status   : Option Status := none

  blocks   : List HostBlock := []
  places   : List (Nat × Nat × Nat) := []
  wants    : List (List Want) := []
  newLets  : Nat := 0
  newUser  : Nat := 0
  found    : List (Nat × Found) := []
  view     : Option View := none
  pins     : List Nat := []
  pend     : List Nat := []
  got      : NMap (Option Payload) := []
  rmws     : List Rmw := []
  rmwStart : Bool := false
  mute     : Bool := false
  units    : List (Nat × Nat × Nat) := []
  ready    : Bool := false
  applied  : Nat := 0
  keys     : List Carrier := []
  phase    : Nat := 0
deriving DecidableEq, Repr

/-- The sorting office: fetched commands by fetch number, the next number, the port accepted last. -/
structure Srt where
  cmds    : NMap Cmd := []
  next    : Nat := 0
  lastB   : Bool := true
  quiesce : Bool := false
deriving DecidableEq, Repr

/-- A page group that the patrol reads (R287): superblock, member and row, the slots whose codewords have not ended, the ladder step
and the corrected bits of the worst so far, the slots that ended at step 7, and the read's status where it is not OK: 1
ERASE_SUSPENDED_BLOCK or PAGE_IN_PROGRAM, 2 BUS_FAULT. -/
structure PatRead where
  sbx  : Nat
  mem  : Nat
  row  : Nat
  pg   : Nat
  pend : List Nat
  worst : Nat := 1
  corr : Nat := 0
  lost : List Nat := []
  status : Nat := 0
deriving DecidableEq, Repr

/-- The patrol (R282 to R290): table entries (LASTTAGE, RESUME, DUE, VISITING) by SBX, thermal age, the page group that it reads,
the member and row that follow it in the visit and those to read again at its end, inspection queue, owner search, and the Dead-Letter
Office with its staging list and the runs that wait for room in it. stamp is the Timestamp feature in ms as set at the timebase stampAt, offAdv the off-time in seconds taken at this start-up until the Timestamp tells it (R284). -/
structure Patrol where
  cur      : Option PatRead := none
  tab      : NMap (Nat × Nat × Bool × Bool) := []
  tage     : Nat := 0
  tageRes  : Nat := 0
  visit    : Option Nat := none
  insp     : List Nat := []
  search   : Option (List (Ppa × Bool)) := none
  staging  : List DloEnt := []
  deadQ    : List DeadRun := []
  dlo      : List DloEnt := []
  lastDseq : Nat := 0
  dloChg   : Nat := 0
  dloOvf   : Nat := 0
  stamp    : Option Nat := none
  stampAt  : Nat := 0
  offAdv   : Option Nat := none
  spot     : Option (Nat × Nat) := none
  redo     : List (Nat × Nat) := []
  saved    : Option Nat := none
  copyTab  : NMap (Nat × Nat × Bool × Bool) := []
  copyTage : Nat := 0
  copyStamp : Option Nat := none
deriving DecidableEq, Repr

/-- One offender (R311): memory, unit, address, CORR and REWR. -/
structure Offender where
  mem  : Nat
  unit : Nat
  addr : Nat
  corr : Nat
  rewr : Nat
deriving DecidableEq, Repr

/-- A repair list entry (Table 12-6). -/
structure Repair where
  kind : Nat
  unrep : Bool := false
  unit : Nat := 0
  spare : Nat := 0
  addr : Nat
deriving DecidableEq, Repr

/-- A merge-buffer entry (R303): one unit with its byte mask; joined where its last map entry goes on in the next unit (R165). -/
structure MergeEnt where
  line   : Nat
  mask   : BitVec 64
  data   : BitVec 512
  joined : Bool := false
deriving DecidableEq, Repr

/-- The DRAM controller and scrubber: granules initialised as ranges, zero-fill and scrub in progress, merge
entries oldest first, offenders oldest first, the repair list, the SRAM rows that spares replace since the last start-up, DRAM
remaps, JRAM line retirements waiting for their entry, poisoned units (R304), correction history by device position, host Scrub
Range commands waiting. -/
structure Mem where
  granules : List (Nat × Nat) := []
  zf       : Option (Nat × Nat) := none
  scrub    : Option (Nat × Nat × Nat × Nat) := none
  scrubCmd : Option Nat := none
  scrubStop : Bool := false
  merge    : List MergeEnt := []
  offend   : List Offender := []
  repair   : List Repair := []
  rows     : List (Nat × Nat) := []
  pages    : NMap Nat := []
  jline    : List (Nat × Nat) := []
  jspare   : NMap Nat := []
  poisoned : List Nat := []
  wrote    : List Nat := []
  hits     : NMap (List (Nat × Nat)) := []
  reads    : NMap Nat := []
  nonce    : Nat := 0
deriving DecidableEq, Repr


/-- The machine. pending is the queue of commands waiting, first in first out; out is the model's record of outputs; regs
holds the values of the registers that have been changed, by register-space offset; the other fields are the units'
own state. -/
structure State where
  pending : List Instr := []
  out     : List Out := []
  clk     : Clock := {}
  regs    : NMap Dword := []
  portA   : PortSt := {}
  portB   : PortSt := {}
  evr     : Evr := {}
  thm     : Thm := {}
  pwr     : Pwr := {}
  chip    : Chip := {}
  ring    : Ring := {}
  sec     : Sec := {}
  cry     : Cry := {}
  boot    : Boot := {}
  dram    : NMap Byte := []
  phc     : Phc := {}
  map     : MapEng := {}
  flash   : Flash := {}
  jrc     : Jrc := {}
  srt     : Srt := {}
  prog    : Progress := {}
  pat     : Patrol := {}
  mem     : Mem := {}
deriving DecidableEq, Repr

/-- The machine before its supply first rises: every field at its reset value, held in reset, nothing pending. -/
def State.reset : State := {}

end Sys2Proof.Machine
end

