-- ==== Sys2Proof/Machine/Ops.lean ====
section
/-! DEFINITION. The shared operations: sparse tables, register reads and writes, bytes and CRCs, the event fabric's raise
(R62) with the recorder's admission (R377 to R379), cause bits, and free values. -/

namespace Sys2Proof

/-- The port's number: 0 for A, 1 for B. -/
def Port.num (p : Port) : Nat := match p with | .a => 0 | .b => 1

end Sys2Proof

namespace Sys2Proof.Machine

/-! ## Sparse tables -/

/-- The value listed at a key. -/
def nget {α : Type} : NMap α → Nat → Option α
  | [], _ => none
  | (k', v) :: r, k => if k = k' then some v else if k < k' then none else nget r k

/-- The table with one key's value replaced; keys stay strictly rising. -/
def nset {α : Type} : NMap α → Nat → α → NMap α
  | [], k, v => [(k, v)]
  | (k', w) :: r, k, v =>
    if k = k' then (k, v) :: r else if k < k' then (k, v) :: (k', w) :: r else (k', w) :: nset r k v

/-- The table without one key. -/
def ndel {α : Type} : NMap α → Nat → NMap α
  | [], _ => []
  | (k', w) :: r, k => if k = k' then r else if k < k' then (k', w) :: r else (k', w) :: ndel r k

/-- The keys strictly rise, all above a bound. -/
def nsorted {α : Type} : Option Nat → NMap α → Bool
  | _, [] => true
  | none, (k, _) :: r => nsorted (some k) r
  | some b, (k, _) :: r => b < k && nsorted (some k) r

/-- The value at a key, with a default. -/
def ngetD {α : Type} (m : NMap α) (k : Nat) (d : α) : α := (nget m k).getD d

/-- Change the value at a key where one is listed. -/
def nmod {α : Type} (m : NMap α) (k : Nat) (f : α → α) : NMap α :=
  match nget m k with
  | some v => nset m k (f v)
  | none => m

/-- A byte memory in canonical form: writing the value an unlisted address reads as removes the entry. -/
def memWrite (dflt : Byte) (m : NMap Byte) (a : Nat) (v : Byte) : NMap Byte :=
  if v = dflt then ndel m a else nset m a v
def memRead (dflt : Byte) (m : NMap Byte) (a : Nat) : Byte := ngetD m a dflt
/-- Bytes at consecutive addresses. -/
def memWrites (dflt : Byte) : NMap Byte → Nat → List Byte → NMap Byte
  | m, _, [] => m
  | m, a, b :: bs => memWrites dflt (memWrite dflt m a b) (a + 1) bs
def memReads (dflt : Byte) (m : NMap Byte) (a : Nat) : Nat → List Byte
  | 0 => []
  | n + 1 => memRead dflt m a :: memReads dflt m (a + 1) n

/-- The element of a list at an index replaced by its image. -/
def modAt {α : Type} (l : List α) (i : Nat) (f : α → α) : List α :=
  match l, i with
  | [], _ => []
  | x :: r, 0 => f x :: r
  | x :: r, i + 1 => x :: modAt r i f

/-! ## Bytes and checksums (R10, R20) -/

/-- n bytes of a number, little-endian. -/
def le : Nat → Nat → List Byte
  | 0, _ => []
  | n + 1, v => BitVec.ofNat 8 v :: le n (v / 256)
/-- The number that bytes spell, little-endian. -/
def leNat : List Byte → Nat
  | [] => 0
  | b :: r => b.toNat + 256 * leNat r
/-- A byte list extended with zeroes to a length. -/
def padTo (n : Nat) (l : List Byte) : List Byte := l ++ List.replicate (n - l.length) 0
/-- A byte list with others put over it from an offset on, as far as it reaches. -/
def putBytes (b : List Byte) (at_ : Nat) (v : List Byte) : List Byte :=
  b.take at_ ++ v.take (b.length - at_) ++ b.drop (at_ + v.length)
/-- A structure of a size from its fields, each an offset, a length and a value: every field little-endian (R10), every other byte
zero (R18). -/
def pageOf (size : Nat) (fields : List (Nat × Nat × Nat)) : List Byte :=
  fields.foldl (fun b f => putBytes b f.1 (le f.2.1 f.2.2)) (List.replicate size 0)
def sumOf (l : List Nat) : Nat := l.foldl (· + ·) 0
/-- Bytes a to a + n − 1 of a list, zeroes beyond its end. -/
def slice (l : List Byte) (a n : Nat) : List Byte := padTo n ((l.drop a).take n)
/-- The number in bytes a to a + n − 1. -/
def fieldAt (l : List Byte) (a n : Nat) : Nat := leNat (slice l a n)

def crcBit (poly : Nat) (c : Nat) : Nat := if c % 2 = 1 then (c / 2) ^^^ poly else c / 2
def crcByte (poly : Nat) (c : Nat) (b : Byte) : Nat :=
  let x := c ^^^ b.toNat
  crcBit poly (crcBit poly (crcBit poly (crcBit poly (crcBit poly (crcBit poly (crcBit poly (crcBit poly x)))))))
/-- CRC-32C of Table 0-5, in its reflected form. -/
def crc32c (l : List Byte) : Nat := (l.foldl (crcByte 0x82F63B78) 0xFFFFFFFF) ^^^ 0xFFFFFFFF
/-- CRC-64 of Table 0-5, in its reflected form. -/
def crc64 (l : List Byte) : Nat := (l.foldl (crcByte 0xC96C5795D7870F42) 0xFFFFFFFFFFFFFFFF) ^^^ 0xFFFFFFFFFFFFFFFF
/-- The NVMe 64b CRC, in its reflected form: the polynomial 0xAD93D23594C93659, register and output inverted (R88; PRESUMED, the
standard's; log entry 208). -/
def crcNvme (l : List Byte) : Nat := (l.foldl (crcByte 0x9A6C9329AC4BC9B5) 0xFFFFFFFFFFFFFFFF) ^^^ 0xFFFFFFFFFFFFFFFF
/-- A structure's bytes with those of its CRC field taken as 0 (R21). -/
def crcOver (l : List Byte) (off n : Nat) : Nat := crc32c (l.take off ++ List.replicate n 0 ++ l.drop (off + n))

/-! ## Registers -/

/-- A register's stored value, or its reset value where nothing is stored. -/
def rd (s : State) (a : Nat) : Nat := ((nget s.regs a).map BitVec.toNat).getD (resetAt a)
/-- Store a register's value. -/
def wr (s : State) (a v : Nat) : State := { s with regs := nset s.regs a (BitVec.ofNat 64 v) }
/-- Set bits of a register by mask. -/
def orReg (s : State) (a m : Nat) : State := wr s a (rd s a ||| m)
/-- Replace bits [hi:lo] of a register. -/
def wrField (s : State) (a hi lo v : Nat) : State := wr s a (setBits (rd s a) hi lo v)
/-- Bits [hi:lo] of a register. -/
def rdField (s : State) (a hi lo : Nat) : Nat := bitsOf (rd s a) hi lo
/-- Add to bits [hi:lo] of a register, saturating at the field's highest value. -/
def satAdd (s : State) (a hi lo n : Nat) : State :=
  wrField s a hi lo (min (rdField s a hi lo + n) (2 ^ (hi + 1 - lo) - 1))
/-- Add modulo 2^32. -/
def wrapAdd (s : State) (a n : Nat) : State := wr s a ((rd s a + n) % 2 ^ 32)

namespace Reg
def ctl (b : Blk) (u : Nat := 0) : Nat := b.base u + 4
def sts (b : Blk) (u : Nat := 0) : Nat := b.base u + 8
def errAddr (b : Blk) (u : Nat := 0) : Nat := b.base u + 0xC
def evfSts2 : Nat := 0x100010
def srcPend (w : Nat) : Nat := 0x100040 + 4 * w
def cpend (k w : Nat) : Nat := 0x100100 + 0x20 * k + 4 * w
def hpendA (w : Nat) : Nat := 0x100300 + 4 * w
def hpendB (w : Nat) : Nat := 0x100320 + 4 * w
def holdoff : Nat := 0x100340
def route (s : Nat) : Nat := 0x100800 + 4 * s
def tmrCmp (n : Nat) : Nat := 0x101000 + 0x10 * n
def tmrPer (n : Nat) : Nat := 0x101008 + 0x10 * n
def tmrCtl (n : Nat) : Nat := 0x10100C + 0x10 * n
def wdCtl (k : Nat) : Nat := 0x101100 + 0x10 * k
def wdSts (k : Nat) : Nat := 0x101108 + 0x10 * k
def evrCause : Nat := 0xD0030
def evrLostCnt : Nat := 0xD0038
def evrSuppCnt : Nat := 0xD003C
def evrUeCnt : Nat := 0xD0050
def chnCause (c : Nat) : Nat := 0x200044 + 0x4000 * c
end Reg

/-- Is the block ACTIVE (Table 2-5)? -/
def active (s : State) (b : Blk) (u : Nat := 0) : Bool := bitOf (rd s (Reg.sts b u)) 3
def setActive (s : State) (b : Blk) (u : Nat) (on : Bool) : State := wrField s (Reg.sts b u) 3 3 (if on then 1 else 0)
/-- The requested enable. -/
def enabled (s : State) (b : Blk) (u : Nat := 0) : Bool := bitOf (rd s (Reg.ctl b u)) 0

/-- The block is in its disable sequence (R52). -/
def leaving (s : State) (b : Blk) (u : Nat := 0) : Bool := s.chip.disabling.contains (b, u)
/-- The block takes new work: ACTIVE, and not in its disable sequence, which entry to PS3 or PS4 runs too for the couriers and the
stripe engine (R203, R234, R403). -/
def running (s : State) (b : Blk) (u : Nat := 0) : Bool :=
  active s b u && !leaving s b u && !(s.pwr.settling && (b == .chn || b == .str))

def emit (s : State) (o : Out) : State := { s with out := s.out ++ [o] }

/-- A free value of a bounded range: an opaque constant at the state's own counter, which it advances (log entry 5). -/
def freshBelow (s : State) (n : Nat) : State × Nat :=
  ({ s with clk := { s.clk with free := s.clk.free + 1 } }, Config.freeValue s.clk.free % n)

def getPort (s : State) (p : Port) : PortSt := match p with | .a => s.portA | .b => s.portB
def setPort (s : State) (p : Port) (x : PortSt) : State :=
  match p with | .a => { s with portA := x } | .b => { s with portB := x }
def modPort (s : State) (p : Port) (f : PortSt → PortSt) : State := setPort s p (f (getPort s p))
def portBlk (p : Port) : Blk := match p with | .a => .hfeA | .b => .hfeB

/-- HOST_X8 as sampled: port B is absent (R68). -/
def hostX8 (s : State) : Bool := bitOf (rd s 0xE0018) 0
def portPresent (s : State) (p : Port) : Bool := match p with | .a => true | .b => !hostX8 s

/-- INIT of Table 2-6. -/
def initCode (i : Initiator) : Nat :=
  match i with
  | .ap k => k.val | .sc0 => 8 | .sc1 => 9 | .bar2 .a => 10 | .bar2 .b => 11
def isCore (i : Initiator) : Bool := match i with | .bar2 _ => false | .ap _ => true | .sc0 => true | .sc1 => true

/-! ## The recorder's admission (R377 to R379) -/

/-- Units of a bucket level in one token. -/
def tokUnit : Nat := 4000000000

/-- A code's bucket, filled up to the present (R377). -/
def bucketNow (s : State) (code : Nat) : Bucket :=
  let b := ngetD s.evr.buckets code s.evr.dflt
  { b with level := min (b.burst * tokUnit) (b.level + b.refill * (s.clk.tb - b.asOf)), asOf := s.clk.tb }

/-- Put a candidate into the FIFO, or lose it (R379). -/
def enqueue (s : State) (c : Cand) : State :=
  if s.evr.fifo.length < 64 then
    { s with evr := { s.evr with fifo := s.evr.fifo ++ [c], fifoMax := max s.evr.fifoMax (s.evr.fifo.length + 1) } }
  else
    let s := satAdd s Reg.evrLostCnt 31 0 1
    match s.evr.episode with
    | some (n, f, _) => { s with evr := { s.evr with episode := some (n + 1, f, c.code) } }
    | none => { s with evr := { s.evr with episode := some (1, c.code, c.code),
                                           fifo := modAt s.evr.fifo 63 fun x => { x with marked := true } } }

/-- Pass a candidate through its code's bucket and on to the FIFO (R377). -/
def admitCand (s : State) (c : Cand) : State :=
  if 0x100 ≤ c.code && c.code ≤ 0x103 then enqueue s c
  else
    let b := bucketNow s c.code
    if b.off || b.level < tokUnit then
      satAdd { s with evr := { s.evr with buckets := nset s.evr.buckets c.code { b with supp := b.supp + 1 } } }
        Reg.evrSuppCnt 31 0 1
    else
      enqueue { s with evr := { s.evr with buckets := nset s.evr.buckets c.code { b with level := b.level - tokUnit } } } c

/-! ## The event fabric -/

/-- The block and unit whose source this is (Table 2-12). -/
def srcBlock (n : Nat) : Option (Blk × Nat) :=
  if n < 32 then some (.chn, n) else if n < 40 then some (.dst, (n - 32) / 2) else if n < 48 then some (.map, 0)
  else if n < 56 then some (.phc, 0) else if n < 64 then some (.jrc, 0) else if n < 68 then some (.drc, 0)
  else if n < 72 then some (.scb, 0) else if n < 80 then some (.hfeA, 0) else if n < 88 then some (.hfeB, 0)
  else if n < 96 then some (.srt, 0) else if n < 100 then some (.pat, 0) else if n < 104 then some (.str, 0)
  else if n < 112 then some (.thm, 0) else if n < 120 then some (.pwr, 0) else if n < 128 then some (.rng, 0)
  else if n < 136 then some (.sec, 0) else if n < 144 then some (.evr, 0) else if n < 152 then some (.cfg, 0)
  else if n < 160 then some (.cry, 0) else none

/-- The offset of a block's CAUSE register, where it has one. -/
def causeOff (b : Blk) : Option Nat :=
  match b with
  | .chn => some 0x44 | .jrc => some 0x50 | .str => some 0x24 | .pat => some 0x54 | .drc => some 0x2C | .thm => some 0xB0
  | .pwr => some 0x30 | .rng => some 0x50 | .sec => some 0x90 | .evr => some 0x30 | .cfg => some 0x9C | .cry => some 0x90
  | .dst => some 0x24
  | .hfeA => none | .hfeB => none | .srt => none | .map => none | .phc => none | .evf => none | .scb => none

/-- The source that reports a block's register errors (Table 2-12); the fabric has none. -/
def errSource (b : Blk) (u : Nat) : Option Nat :=
  match b with
  | .chn => some u | .dst => some (32 + 2 * u) | .map => some 40 | .phc => some 48 | .jrc => some 56 | .drc => some 64
  | .scb => some 68 | .hfeA => some 72 | .hfeB => some 80 | .srt => some 88 | .pat => some 96 | .str => some 100
  | .thm => some 104 | .pwr => some 112 | .rng => some 120 | .sec => some 128 | .evr => some 136 | .cfg => some 144
  | .cry => some 152 | .evf => none

/-- The payload of a raise of a block's source (Table 15-5): a register error where err, else the cause or status. -/
def blockPayload (s : State) (n : Nat) (err : Bool) : List Byte :=
  match srcBlock n with
  | none => []
  | some (b, u) =>
    if err then le 4 (rd s (Reg.errAddr b u)) ++ le 4 (rd s (Reg.sts b u))
    else match causeOff b with
      | some o => le 4 (rd s (b.base u + o)) ++ le 1 (if b == .hfeB then 1 else u)
      | none => le 4 (rd s (Reg.sts b u)) ++ le 1 (if b == .hfeB then 1 else u)

/-- A dword of configuration space as stored, 0 where none is. -/
def cfgDword (x : PortSt) (off : Nat) : Nat := ngetD x.cfgSpace off 0
/-- The function may send MSI-X messages: MSI-X Enable and Bus Master Enable are 1 (the PCIe rules that R65 names; log entry 51). -/
def msixOn (x : PortSt) : Bool := bitOf (cfgDword x 0x50) 31 && bitOf (cfgDword x 0x04) 2
/-- MSI-X Function Mask. -/
def msixFnMask (x : PortSt) : Bool := bitOf (cfgDword x 0x50) 30

/-- Send one MSI-X message on a vector, or set its pending bit where it or the function is masked; a function that MSI-X or
bus mastering is disabled for sends none. A message on a vendor vector starts its holdoff (R65). -/
def msixSend (s : State) (p : Port) (v : Nat) : State :=
  let x := getPort s p
  let e := ngetD x.msix v {}
  if !msixOn x then s
  else if e.mask || msixFnMask x then setPort s p { x with msix := nset x.msix v { e with pba := true } }
  else
    let s := setPort s p { x with
      msix := nset x.msix v { e with pba := false }
      hold := if v < 128 || rdField s Reg.holdoff 15 0 = 0 then x.hold else nset x.hold v { running := true, merged := false } }
    emit s (.msix p v e.addr e.data)

/-- A raise routed to a vendor vector: one message, merged while the holdoff runs; none where the port is absent (R65). -/
def vendorMsg (s : State) (p : Port) (v : Nat) : State :=
  if !portPresent s p then s else
  let x := getPort s p
  let h := ngetD x.hold v {}
  if h.running then setPort s p { x with hold := nset x.hold v { h with merged := true } } else msixSend s p v

/-- Set bit n of a bitmap that starts at a register (word 32w + i). -/
def setMapBit (s : State) (base : Nat → Nat) (n : Nat) : State := orReg s (base (n / 32)) (2 ^ (n % 32))

/-- The cores a route word names: bits [7:0] AP0 to AP7, bits 8 and 9 SC0 and SC1 (Table 2-11). -/
def routeCores (r : Nat) : List Nat := (List.range 10).filter fun k => bitOf r k

/-- A raise of source n with its payload (R62): the pending bit, each routed core's and host's bitmap and message, and the
recorder. Reserved sources are never raised (R61, R371), and nothing is delivered while the chip is held in reset. -/
def raiseWith (s : State) (n : Nat) (payload : List Byte) (origin : Nat := 0xA) : State :=
  if 248 ≤ n || (157 ≤ n && n ≤ 159) || s.chip.held then s else
  let r := rd s (Reg.route n)
  let s := setMapBit s Reg.srcPend n
  let s := (routeCores r).foldl (fun s k => setMapBit s (Reg.cpend k) n) s
  let ha := bitsOf r 12 11
  let hb := bitsOf r 14 13
  let s := if ha = 0 then s else vendorMsg (setMapBit s Reg.hpendA n) .a (127 + ha)
  let s := if hb = 0 then s else vendorMsg (setMapBit s Reg.hpendB n) .b (127 + hb)
  if bitOf r 10 then admitCand s { code := n, origin, payload } else s

/-- A raise of a block's own source. -/
def raise (s : State) (n : Nat) : State := raiseWith s n (blockPayload s n false)

/-- Set one bit of a CAUSE register, raising the source on a 0-to-1 transition. -/
def setCause (s : State) (a bit : Nat) (src : Nat) : State :=
  if bitOf (rd s a) bit then s else raise (orReg s a (2 ^ bit)) src

/-- A faulty access (R45, Table 2-6): set the status bit (0 ACC_ERR, 1 CFG_IGN, 2 TRIG_IGN), capture where all three were
0, and raise the register-error source once for each 0-to-1 transition. -/
def accessFault (s : State) (b : Blk) (u : Nat) (bit kind init off : Nat) : State :=
  let sts := rd s (Reg.sts b u)
  let s := if bitsOf sts 2 0 = 0 then
      wr s (Reg.errAddr b u) (2 ^ 31 + kind * 2 ^ 20 + init * 2 ^ 16 + off % 2 ^ 16) else s
  let s := wr s (Reg.sts b u) (sts ||| 2 ^ bit)
  if bitOf sts bit then s else
    match errSource b u with
    | some n => raiseWith s n (blockPayload s n true)
    | none => s

/-- Set one bit of a CAUSE register whose source is raised for each condition. -/
def noteCause (s : State) (a bit : Nat) (src : Nat) : State := raise (orReg s a (2 ^ bit)) src

/-! ## The JRAM dies (R257, R258, Table 10-1) -/

/-- An uncorrectable JRAM read: JRC_CAUSE.JRAM_UE, and source 61 for each (R281, R307). -/
def jramUe (s : State) : State := raise (orReg s 0x60050 (2 ^ 9)) 61
/-- The byte of an interleaved region at a die offset base that a JRAM address holds. -/
def ilv (base addr : Nat) : Nat := (addr % 2 ^ 26 - base) / 256 * 512 + addr / 2 ^ 26 * 256 + (addr % 2 ^ 26 - base) % 256
/-- The uncorrectable units of a die's range of offsets. -/
def hurtIn (j : Jrc) (die off len : Nat) : List Nat :=
  j.hurt.filter fun a => decide (die * 2 ^ 26 + off ≤ a ∧ a < die * 2 ^ 26 + off + len)
/-- A write to a mirrored region goes to both dies. -/
def mirrorWrite (j : Jrc) (off len : Nat) : Jrc :=
  { j with hurt := j.hurt.filter fun a => !(off ≤ a % 2 ^ 26 && a % 2 ^ 26 < off + len) }
/-- A read of a mirrored region: where the copy of J0 is uncorrectable J1's is read and J0 rewritten from it. The offsets of the
units that neither die gives come with it. -/
def mirrorRead (j : Jrc) (off len : Nat) : Jrc × List Nat :=
  let bad := hurtIn j 0 off len
  let lost := bad.filter fun a => j.hurt.contains (2 ^ 26 + a)
  ({ j with hurt := j.hurt.filter fun a => !bad.contains a || lost.contains a }, lost)
/-- Is the ring's unit at an offset uncorrectable? -/
def ringHurt (j : Jrc) (off : Nat) : Bool :=
  let o := off % Config.ringBytes
  j.hurt.contains (o / 256 % 2 * 2 ^ 26 + 0x100000 + o / 512 * 256 + o % 256 / 64 * 64)
/-- Is the recorder region's unit at a region offset uncorrectable? -/
def recHurt (j : Jrc) (off : Nat) : Bool :=
  j.hurt.contains (off / 256 % 2 * 2 ^ 26 + 0x2500000 + off / 512 * 256 + off % 256 / 64 * 64)
/-- Units of the recorder region that a slot's write covers are readable again. -/
def recMend (j : Jrc) (off n : Nat) : Jrc :=
  { j with hurt := j.hurt.filter fun a =>
      !(0x2500000 ≤ a % 2 ^ 26 && a % 2 ^ 26 < 0x2900000 && off ≤ ilv 0x2500000 a + 63 && ilv 0x2500000 a < off + n) }
/-- Units of the ring that an append writes are readable again. -/
def ringMend (j : Jrc) (off n : Nat) : Jrc :=
  { j with hurt := j.hurt.filter fun a =>
      !(0x100000 ≤ a % 2 ^ 26 && a % 2 ^ 26 < 0x2100000 && off ≤ ilv 0x100000 a + 63 && ilv 0x100000 a < off + n) }

end Sys2Proof.Machine
end

