-- ==== Sys2Proof/Machine/Flags.lean ====
section
/-! DEFINITION. Completion statuses (Table 4-4 and the admin tables), the freeze flags of a completion (R121, R123), the
bits of the SMART critical warning, and the field updates of State. -/

namespace Sys2Proof.Machine

/-! ## Statuses: a status with DNR and M as Table 4-4 gives them -/

def stOk : Status := { sct := 0, sc := 0 }
/-- Field errors as the standard assigns, DNR 1 and M 1 (Table 4-4, first row). -/
def stField (sct sc : Nat) : Status := { sct, sc, dnr := true, m := true }
def stInvalidOpcode : Status := stField 0 0x01
def stInvalidField : Status := stField 0 0x02
def stDataTransfer : Status := { sct := 0, sc := 0x04, m := true }
def stInternal : Status := { sct := 0, sc := 0x06, m := true }
def stAbortReq : Status := { sct := 0, sc := 0x07 }
def stSqDeleted : Status := { sct := 0, sc := 0x08 }
def stInvalidNs : Status := stField 0 0x0B
def stSequence : Status := stField 0 0x0C
def stSanFailed : Status := stField 0 0x1C
def stSanProgress : Status := { sct := 0, sc := 0x1D }
def stWriteProt : Status := stField 0 0x20
def stLbaRange : Status := stField 0 0x80
def stCapacity : Status := stField 0 0x81
def stFmtProgress : Status := { sct := 0, sc := 0x84 }
def stCqInvalid : Status := stField 1 0x00
def stQidInvalid : Status := stField 1 0x01
def stQueueSize : Status := stField 1 0x02
def stAbortLimit : Status := stField 1 0x03
def stAerLimit : Status := stField 1 0x05
def stFwSlot : Status := stField 1 0x06
def stFwImage : Status := stField 1 0x07
def stIntVector : Status := stField 1 0x08
def stLogPage : Status := stField 1 0x09
def stFormat : Status := stField 1 0x0A
def stQueueDeletion : Status := stField 1 0x0C
def stNotSaveable : Status := stField 1 0x0D
def stNotChangeable : Status := stField 1 0x0E
def stFwProhibited : Status := stField 1 0x13
def stNsCapacity : Status := stField 1 0x15
def stNsIdUnavailable : Status := stField 1 0x16
def stNsAttached : Status := stField 1 0x18
def stNsNotAttached : Status := stField 1 0x1A
def stCtrlList : Status := stField 1 0x1C
def stInvalidPi : Status := stField 1 0x81
def stUnrecovered : Status := { sct := 2, sc := 0x81, dnr := true, m := true }
def stUnrecoveredLr : Status := { sct := 2, sc := 0x81, m := true }
def stGuard : Status := stField 2 0x82
def stAppTag : Status := stField 2 0x83
def stRefTag : Status := stField 2 0x84
def stCompare : Status := { sct := 2, sc := 0x85, dnr := true }
def stAnaLoss : Status := stField 3 0x01
def stDependency : Status := { sct := 7, sc := 0x01, m := true }
def stTracker : Status := { sct := 7, sc := 0x02, m := true }

/-- Is this a status that freezes a fail-stop queue (R121)? -/
def Status.triggers (st : Status) : Bool := st.sct == 2 || (st.sct == 7 && (st.sc == 1 || st.sc == 2))

/-- Dword 0 with the TRIGGER flag, bit 30 (R123). -/
def dwTrigger (dw : Nat) (t : Bool) : Nat := if t then dw ||| 0x40000000 else dw
/-- Dword 0 with the FROZEN flag, bit 31, as it stands when the completion is committed for posting (R123). -/
def dwFrozen (dw : Nat) (f : Bool) : Nat := if f then dw ||| 0x80000000 else dw

/-! ## Field updates -/

def updClk (s : State) (f : Clock → Clock) : State := { s with clk := f s.clk }
def updEvr (s : State) (f : Evr → Evr) : State := { s with evr := f s.evr }
def updThm (s : State) (f : Thm → Thm) : State := { s with thm := f s.thm }
def updPwr (s : State) (f : Pwr → Pwr) : State := { s with pwr := f s.pwr }
def updChip (s : State) (f : Chip → Chip) : State := { s with chip := f s.chip }
def updRing (s : State) (f : Ring → Ring) : State := { s with ring := f s.ring }
def updSec (s : State) (f : Sec → Sec) : State := { s with sec := f s.sec }
def updCry (s : State) (f : Cry → Cry) : State := { s with cry := f s.cry }
def updBoot (s : State) (f : Boot → Boot) : State := { s with boot := f s.boot }
def updPhc (s : State) (f : Phc → Phc) : State := { s with phc := f s.phc }
def updMap (s : State) (f : MapEng → MapEng) : State := { s with map := f s.map }
def updTab (s : State) (f : MapTab → MapTab) : State := { s with map := { s.map with tab := f s.map.tab } }
def updFlash (s : State) (f : Flash → Flash) : State := { s with flash := f s.flash }
def updJrc (s : State) (f : Jrc → Jrc) : State := { s with jrc := f s.jrc }
def updSrt (s : State) (f : Srt → Srt) : State := { s with srt := f s.srt }
def updPat (s : State) (f : Patrol → Patrol) : State := { s with pat := f s.pat }
def updMem (s : State) (f : Mem → Mem) : State := { s with mem := f s.mem }

/-! ## Tests on signed sixteenths of a degree -/

/-- The 16-bit two's complement of a signed number. -/
def s16 (x : Int) : Nat := (x % 65536).toNat
/-- The 64-bit two's complement of a signed number. -/
def s64 (x : Int) : Nat := (x % 18446744073709551616).toNat

end Sys2Proof.Machine
end

