-- ==== Sys2Proof/Machine/HostOps.lean ====
section
/-! DEFINITION. Queues, completions, interrupts, asynchronous events and the Error Information log of a port (R76 to R82,
R94, R113, R123). -/

namespace Sys2Proof.Machine

/-- A queue is full when its tail stands one entry behind its head. -/
def Cq.full (q : Cq) : Bool := q.size == 0 || (q.tail + 1) % q.size == q.head

/-- Interrupt coalescing parameters (features 0x08 and 0x09) for a vector: the threshold, or none where it does not apply. The
admin completion queue is left out (PRESUMED, the standard's; log entry 53). -/
def coalThr (x : PortSt) (cqid vector : Nat) : Option Nat :=
  let f := ngetD x.feat 0x08 0
  if cqid = 0 || f % 256 = 0 || f / 256 % 256 = 0 || ngetD x.feat (0x10000 + vector) 0 = 1 then none else some (f % 256)

/-- The interrupt of a completion: at once, or once the aggregation threshold of its vector is reached, counted over the
completion queues of the vector (R82; PRESUMED, as the feature counts in the standard; log entry 53). -/
def cqInterrupt (s : State) (p : Port) (cqid : Nat) (q : Cq) : State :=
  if !q.ien then s else
  match coalThr (getPort s p) cqid q.vector with
  | none => msixSend s p q.vector
  | some thr =>
    let n := ngetD (getPort s p).coal q.vector 0 + 1
    let s := modPort s p fun x => { x with coal := nset x.coal q.vector (if thr < n then 0 else n) }
    if thr < n then msixSend s p q.vector else s

/-- Post a completion into a queue that has a free slot: SQHD and the FROZEN flag are those of this moment (R123); source 93
where Ordering Dependency Failed is posted (R128). An Abort whose completion is posted is outstanding no more (R116). -/
def placeCompl (s : State) (p : Port) (cqid : Nat) (q : Cq) (c : Compl) : State :=
  let sq := nget (getPort s p).sqs c.qid
  let frozen := (sq.map fun x => x.frozen).getD false
  let c := { c with sqhd := (sq.map fun x => x.head).getD 0, dw0 := if c.qid = 0 then c.dw0 else dwFrozen c.dw0 frozen }
  let t := (q.tail + 1) % q.size
  let q' := { q with tail := t, phase := if t = 0 then !q.phase else q.phase }
  let s := modPort s p fun x => { x with
    cqs := nset x.cqs cqid q'
    abortOut := if c.qid = 0 && x.abortOut == some c.cid then none else x.abortOut }
  let s := emit s (.completion cqid q.phase c)
  cqInterrupt (if c.st == stDependency then raise s 93 else s) p cqid q'

/-- Post a completion, or hold it until its queue has a free slot (R118). -/
def post (s : State) (c : Compl) : State :=
  let x := getPort s c.port
  let cqid := ((nget x.sqs c.qid).map fun q => q.cqid).getD 0
  match nget x.cqs cqid with
  | none => s
  | some q =>
    if q.full || !q.held.isEmpty then setPort s c.port { x with cqs := nset x.cqs cqid { q with held := q.held ++ [c] } }
    else placeCompl s c.port cqid q c

/-- The completion of an Abort whose caught target's completion was held is posted once that one has been (R118). -/
def abortAfter (s : State) (p : Port) : State :=
  match (getPort s p).abortWait with
  | some (cqid, qid, cid, c) =>
    if ((nget (getPort s p).cqs cqid).map fun q => q.held.any fun e => e.qid == qid && e.cid == cid).getD false then s
    else post (modPort s p fun x => { x with abortWait := none }) c
  | none => s

/-- Post the held completions of a queue while it has free slots; at most n of them. -/
def postHeld : Nat → State → Port → Nat → State
  | 0, s, _, _ => s
  | n + 1, s, p, cqid =>
    match nget (getPort s p).cqs cqid with
    | none => s
    | some q =>
      match q.held with
      | [] => s
      | c :: r => if q.full then s else postHeld n (placeCompl s p cqid { q with held := r } c) p cqid

/-- Add an Error Information log entry, newest first, at most 256 (R113, R115, ELPE). -/
def addError (s : State) (q : Sqe) (st : Status) (lba cs : Nat) : State :=
  modPort s q.port fun x => { x with
    errCount := x.errCount + 1
    errLog := ({ count := x.errCount + 1, sqid := q.qid, cid := q.cid, st, lba, nsid := q.nsid, cs } :: x.errLog).take 256 }

/-- Complete a command: its error log entry where M is 1, then its completion (R113). -/
def complete (s : State) (q : Sqe) (st : Status) (dw0 : Nat := 0) (lba : Nat := 0) (cs : Nat := 0) : State :=
  let s := if st.m then addError s q st lba cs else s
  post s { port := q.port, qid := q.qid, cid := q.cid, st, dw0 }

/-! ## Asynchronous events (R94) -/

def Aer.code (a : Aer) : Nat := a.typ * 65536 + a.info * 256 + a.lid

/-- Report the first held event whose kind is not masked, where a request is outstanding. -/
def aerDeliver (s : State) (p : Port) : State :=
  let x := getPort s p
  match x.aerOut, x.aerHeld.find? fun a => !x.aerMask.contains a.code with
  | cid :: r, some a =>
    let s := setPort s p { x with
      aerOut := r
      aerHeld := x.aerHeld.filter fun b => b != a
      aerMask := a.code :: x.aerMask }
    post s { port := p, qid := 0, cid, st := stOk, dw0 := a.typ + a.info * 256 + a.lid * 65536 }
  | _, _ => s

/-- An asynchronous event on one controller: held, merged with one of its kind, and reported by the next request. A vendor event
that is retained is not posted again (R432). -/
def asyncEvent (s : State) (p : Port) (typ info lid : Nat) : State :=
  let x := getPort s p
  let a : Aer := { typ, info, lid }
  if !x.en || (typ == 7 && x.aerMask.contains a.code) then s
  else aerDeliver (setPort s p { x with aerHeld := if x.aerHeld.contains a then x.aerHeld else x.aerHeld ++ [a] }) p

def asyncBoth (s : State) (typ info lid : Nat) : State := asyncEvent (asyncEvent s .a typ info lid) .b typ info lid

/-- Reading a log page with RAE 0 clears the events that name it, reported or held (R432; PRESUMED for the standard's events, log
entry 183). -/
def aerClear (s : State) (p : Port) (lid : Nat) : State :=
  modPort s p fun x => { x with
    aerMask := x.aerMask.filter fun c => c % 256 != lid
    aerHeld := x.aerHeld.filter fun a => a.lid != lid }

/-- Is an event kind enabled in the Asynchronous Event Configuration feature (0x0B)? -/
def aerEnabled (x : PortSt) (bit : Nat) : Bool := bitOf (ngetD x.feat 0x0B 0) bit

/-! ## Doorbells (R76) -/

/-- SQ_TAIL_DOORBELL: the tail moves, even on a frozen queue (R122); a value or queue that does not exist is an event. -/
def sqDoorbell (s : State) (p : Port) (qid tail : Nat) : State :=
  let x := getPort s p
  if !x.en || x.d3hot then s else
  match nget x.sqs qid with
  | none => asyncEvent s p 0 0 1
  | some q => if q.size ≤ tail then asyncEvent s p 0 1 1 else setPort s p { x with sqs := nset x.sqs qid { q with tail } }

/-- CQ_HEAD_DOORBELL: slots are freed and held completions posted. -/
def cqDoorbell (s : State) (p : Port) (qid head : Nat) : State :=
  let x := getPort s p
  if !x.en || x.d3hot then s else
  match nget x.cqs qid with
  | none => asyncEvent s p 0 0 1
  | some q =>
    if q.size ≤ head then asyncEvent s p 0 1 1
    else abortAfter (postHeld q.held.length (setPort s p { x with cqs := nset x.cqs qid { q with head } }) p qid) p

/-- The aggregation time of a vector ran out: its coalesced interrupt is sent (R82). -/
def coalExpiry (s : State) (p : Port) (vector : Nat) : State :=
  let x := getPort s p
  if 0 < ngetD x.coal vector 0 then msixSend (setPort s p { x with coal := nset x.coal vector 0 }) p vector else s

/-- A vector whose message waits is sent where neither it nor the function is masked any more (R65). -/
def msixFlush (s : State) (p : Port) (v : Nat) : State :=
  if (ngetD (getPort s p).msix v {}).pba then msixSend s p v else s

/-- A host write to an MSI-X table entry; unmasking one with its pending bit set sends the message (R65). -/
def msixWrite (s : State) (p : Port) (v : Nat) (mask : Bool) (addr data : Nat) : State :=
  if !portPresent s p || (getPort s p).d3hot || 130 ≤ v then s else
  let x := getPort s p
  let e := ngetD x.msix v {}
  msixFlush (setPort s p { x with msix := nset x.msix v { e with mask, addr, data } }) p v

/-! ## Configuration space (R75 to R77) -/

/-- A function's configuration space as loaded, by dword offset: the identifiers and class code 0x010802, the BARs of Table 3-3
(64-bit, non-prefetchable; 16 KiB, 16 MiB and 16 KiB), the capabilities of R75, and MSI-X with Table Size 129, its table and
Pending Bit Array in BAR4. Where each capability stands is the model's choice; R75 names them only (DESIGN CHOICE, log entry
97). -/
def spaceTable (ids subIds : Nat) : NMap Nat :=
  [(0x00, ids), (0x04, 0x00100000), (0x08, 0x01080200), (0x0C, 0), (0x10, 0x4), (0x14, 0), (0x18, 0x4), (0x1C, 0), (0x20, 0x4),
   (0x24, 0), (0x28, 0), (0x2C, subIds), (0x30, 0), (0x34, 0x40), (0x38, 0), (0x3C, 0),
   (0x40, 0x00035001), (0x44, 0x8), (0x50, 0x00816011), (0x54, 0x4), (0x58, 0x2004),
   (0x60, 0x00020010), (0x64, 0x10008000), (0x68, 0x2810), (0x70, 0), (0x84, 0x810), (0x88, 0), (0x8C, 0x7E), (0x90, 0x6),
   (0x100, 0x15020001), (0x104, 0), (0x108, 0x400000), (0x10C, 0x462030), (0x110, 0), (0x114, 0xE000), (0x118, 0), (0x11C, 0),
   (0x120, 0), (0x124, 0), (0x128, 0),
   (0x150, 0x16010003), (0x160, 0x17010018), (0x164, 0), (0x170, 0x1901001E), (0x174, 0x1F), (0x178, 0), (0x17C, 0x28),
   (0x190, 0x1B010019), (0x1B0, 0x1C010025), (0x1C0, 0x1F010026), (0x1F0, 0x2301002A), (0x230, 0x26010031), (0x260, 0x00010027)]
/-- The bits of a configuration dword that a host's write sets: the enables of Command, the address bits of the BARs, the power
state, the MSI-X enable and function mask, Device Control, Link Control (ASPM, with L0s left out: R73) and their second registers,
the AER masks and severities, the LTR maxima, and L1 PM Substates control (PRESUMED, the standard's; log entry 97). -/
def cfgWritable (off : Nat) : Nat :=
  if off = 0x04 then 0x546
  else if off = 0x10 || off = 0x20 then 0xFFFFC000
  else if off = 0x18 then 0xFF000000
  else if off = 0x14 || off = 0x1C || off = 0x24 then 0xFFFFFFFF
  else if off = 0x44 then 0x3
  else if off = 0x50 then 0xC0000000
  else if off = 0x68 then 0x79FF
  else if off = 0x70 then 0x2C3
  else if off = 0x88 then 0x410
  else if off = 0x90 then 0xF
  else if off = 0x108 || off = 0x10C then 0x7FFF030
  else if off = 0x114 then 0xF1C1
  else if off = 0x164 then 0x1FFF1FFF
  else if off = 0x178 then 0xE3FF000F
  else if off = 0x17C then 0xFB
  else 0
/-- The bits that a write of 1 clears: Device Status and the AER status registers. -/
def cfgClears (off : Nat) : Nat :=
  if off = 0x68 then 0xF0000 else if off = 0x104 then 0x7FFF030 else if off = 0x110 then 0xF1C1 else 0
/-- A function's configuration space as a reset of the function leaves it (Table 3-10: restored). -/
def spaceRestored (x : PortSt) : NMap Nat := if x.cfgReady then spaceTable (cfgDword x 0x00) (cfgDword x 0x2C) else []
/-- A latency of the LTR capability in µs: a 10-bit value in units of 32^scale ns. -/
def ltrMicros (v : Nat) : Nat := bitsOf v 9 0 * 32 ^ bitsOf v 12 10 / 1000

/-! ## Queue arbitration (R81) -/

/-- The submission queues with an entry to fetch, in the order of their QIDs; adm and io tell whether the admin queue and the
I/O queues are open to fetching. A frozen queue and one being deleted are passed over (R122). -/
def eligible (x : PortSt) (adm io : Bool) : List Nat :=
  (x.sqs.filter fun e => (if e.1 = 0 then adm else io) && e.2.head != e.2.tail && !e.2.frozen && e.2.deleting.isNone).map fun e => e.1
/-- The queue after the one served last, in turn. -/
def roundRobin (last : Option Nat) (qs : List Nat) : Option Nat :=
  match last with
  | some l => (qs.find? fun q => l < q).orElse fun _ => qs.head?
  | none => qs.head?
/-- The priority a queue was created with: 0 urgent, 1 high, 2 medium, 3 low. -/
def prioOf (x : PortSt) (q : Nat) : Nat := ((nget x.sqs q).map fun e => e.prio).getD 0
/-- The weights of the classes high, medium and low (Arbitration feature 0x01, each one more than its field). -/
def weights (x : PortSt) : List Nat :=
  let a := ngetD x.feat 0x01 0
  [bitsOf a 31 24 + 1, bitsOf a 23 16 + 1, bitsOf a 15 8 + 1]
/-- The pool that the next turn goes to, its number in Arb.last, and the turns the weighted classes then have left. In weighted
round robin the admin queue goes first, then the urgent class, then high, medium and low while each has turns left of its
weight (R81); the order of the weighted turns is the model's (DESIGN CHOICE, log entry 80). -/
def arbPool (x : PortSt) (qs : List Nat) : List Nat × Nat × List Nat :=
  if x.ams != 1 then (qs, 0, x.arb.credit)
  else if qs.contains 0 then ([0], 1, x.arb.credit)
  else
    let cls (c : Nat) : List Nat := qs.filter fun q => prioOf x q == c
    if !(cls 0).isEmpty then (cls 0, 2, x.arb.credit) else
    let live := [1, 2, 3].filter fun c => !(cls c).isEmpty
    let cr := if live.any fun c => 0 < x.arb.credit.getD (c - 1) 0 then x.arb.credit else weights x
    match live.find? fun c => 0 < cr.getD (c - 1) 0 with
    | some c => (cls c, 2 + c, modAt cr (c - 1) fun n => n - 1)
    | none => ([], 0, cr)
/-- The queue that the next command is fetched from, and the arbitration after it: the turn that runs goes on while its queue
has entries, for up to 2^AB commands, AB 7 without limit (R81). -/
def arbPick (x : PortSt) (qs : List Nat) : Option (Nat × Arb) :=
  let ab := ngetD x.feat 0x01 0 % 8
  match x.arb.cur.filter fun q => qs.contains q && (ab == 7 || 0 < x.arb.left) with
  | some q => some (q, { x.arb with left := x.arb.left - 1 })
  | none =>
    let (pool, k, credit) := arbPool x qs
    (roundRobin (nget x.arb.last k) pool).map fun q =>
      (q, { cur := some q, left := 2 ^ ab - 1, last := nset x.arb.last k q, credit })

end Sys2Proof.Machine
end

