-- ==== Sys2Proof/Machine/Map.lean ====
section
/-! DEFINITION. The map: physical addresses (R129), entries (R132, R133), namespaces (R135), journal records and their
effect when applied (Tables 10-3, 10-4, 17-3), superblock descriptors (R226), and the space quantities (R153). -/

namespace Sys2Proof.Machine

/-! ## Physical addresses (Table 5-1) -/

def ppaOf (lun block page slot : Nat) : Nat := lun * 2 ^ 30 + block * 2 ^ 16 + page * 16 + slot
def ppaLun (p : Nat) : Nat := p / 2 ^ 30 % 1024
def ppaBlock (p : Nat) : Nat := p / 2 ^ 16 % 16384
def ppaPage (p : Nat) : Nat := p / 16 % 4096
/-- The page group of a PPA: its PPA with SLOT 0. -/
def pgBase (p : Nat) : Nat := p - p % 16
/-- The channel and position of a global LUN index (R129, R185). -/
def lunChn (n : Nat) : Nat := n % 32
def lunPos (n : Nat) : Nat := n / 32
def lunOf (c p : Nat) : Nat := p * 32 + c
/-- The key of a block in the block information table (R237). -/
def blkKey (lun block : Nat) : Nat := lun * 16384 + block
def ppaKey (p : Nat) : Nat := blkKey (ppaLun p) (ppaBlock p)

/-! ## Entries (Tables 5-2 and 5-3) -/

def PEnt.code (e : PEnt) : Nat :=
  match e with | .unmapped => 0 | .ptr p => 2 ^ 46 + p | .fine b => 2 * 2 ^ 46 + b | .dead p => 3 * 2 ^ 46 + p
/-- The entry that 48 bits code. -/
def PEnt.decode (v : Nat) : PEnt :=
  match v / 2 ^ 46 % 4 with
  | 0 => .unmapped | 1 => .ptr (v % 2 ^ 40) | 2 => .fine (v % 2 ^ 26) | _ => .dead (v % 2 ^ 40)
def LEnt.code (e : LEnt) : Nat :=
  match e with | .gone => 0 | .slot p => 2 ^ 46 + p | .odd v => 2 * 2 ^ 46 + v | .dead p => 3 * 2 ^ 46 + p
def LEnt.decode (v : Nat) : LEnt :=
  match v / 2 ^ 46 % 4 with
  | 0 => .gone | 1 => .slot (v % 2 ^ 40) | 2 => .odd (v % 2 ^ 46) | _ => .dead (v % 2 ^ 40)

/-- The letter entries that a PROMOTE record fills a bundle with (Table 10-4). -/
def promoted (old : PEnt) : List LEnt :=
  (List.range 16).map fun i =>
    match old with | .ptr x => .slot (x + i) | .dead x => .dead (x + i) | .unmapped => .gone | .fine _ => .gone

/-! ## Namespaces (R135, R151) -/

/-- Letters of the hidden extent (R151). -/
def hiddenLetters (nsze lbaf : Nat) : Nat := if lbaf = 3 then ((nsze + 63) / 64 + 15) / 16 * 16 else 0
/-- Segments in a namespace's list (R155). -/
def segCount (nsze lbaf : Nat) : Nat := ((nsze + hiddenLetters nsze lbaf) / 16 + Config.segEntries - 1) / Config.segEntries

/-- The parcel entry of a parcel. -/
def entryOf (t : MapTab) (nsid parcel : Nat) : PEnt :=
  match nget t.ns nsid with
  | some n => ngetD n.parcels parcel .unmapped
  | none => .unmapped

/-- The letter entry that a parcel entry gives letter i of its parcel. -/
def letterIn (t : MapTab) (e : PEnt) (i : Nat) : LEnt :=
  match e with
  | .unmapped => .gone
  | .ptr x => .slot (x + i)
  | .dead x => .dead (x + i)
  | .fine b => match nget t.bundles b with
    | some u => u.ents.getD i .gone
    | none => .gone

/-- What the map names for a letter of a namespace. -/
def letterOf (t : MapTab) (nsid letter : Nat) : LEnt := letterIn t (entryOf t nsid (letter / 16)) (letter % 16)

/-- The segment of a parcel. -/
def segOf (t : MapTab) (nsid parcel : Nat) : Option Nat :=
  (nget t.ns nsid).bind fun n => n.segs[parcel / Config.segEntries]?

/-- The lowest segment indices no namespace holds (a choice of the model, log entry 32). -/
def freeSegs (t : MapTab) (n : Nat) : List Nat :=
  let used := t.ns.flatMap fun e => e.2.segs
  ((List.range (used.length + n)).filter fun i => !used.contains i).take n

/-- The letters that the map has in a slot. -/
def mapOwners (t : MapTab) (ppa : Nat) : List (Nat × Nat) :=
  t.ns.flatMap fun n => n.2.parcels.flatMap fun e => match e.2 with
    | .ptr x => if x == pgBase ppa then [(n.1, 16 * e.1 + ppa % 16)] else []
    | .fine b => (match nget t.bundles b with
      | some u => (List.range 16).filterMap fun i => match u.ents.getD i .gone with
        | .slot p => if p == ppa then some (n.1, 16 * e.1 + i) else none
        | .gone => none | .dead _ => none | .odd _ => none
      | none => [])
    | .unmapped => [] | .dead _ => []

/-! ## Live counts (R240, R153) -/

/-- The superblock index of the block that holds a slot. -/
def sbxOf (t : MapTab) (p : Nat) : Option Nat :=
  match nget t.blocks (ppaKey p) with
  | some b => if b.sbx = 0xFFFFFFFF then none else some b.sbx
  | none => none

def vAdd (t : MapTab) (p n : Nat) : MapTab :=
  match sbxOf t p with
  | some x => { t with sbs := nmod t.sbs x fun b => { b with vcount := b.vcount + n } }
  | none => t
def vSub (t : MapTab) (p n : Nat) : MapTab :=
  match sbxOf t p with
  | some x => { t with sbs := nmod t.sbs x fun b => { b with vcount := b.vcount - n } }
  | none => t

/-- Letters mapped by a letter entry, and by a parcel entry (R153: kinds 0b01 and 0b11). -/
def LEnt.mapped (e : LEnt) : Nat := match e with | .gone => 0 | .slot _ => 1 | .dead _ => 1 | .odd _ => 0
def mappedBy (t : MapTab) (e : PEnt) : Nat := ((List.range 16).map fun i => (letterIn t e i).mapped).foldl (· + ·) 0

def addLetter (t : MapTab) (nsid : Nat) (e : LEnt) : MapTab :=
  let t := { t with ns := nmod t.ns nsid fun n => { n with mapped := n.mapped + e.mapped } }
  match e with | .slot p => vAdd t p 1 | .gone => t | .dead _ => t | .odd _ => t
def subLetter (t : MapTab) (nsid : Nat) (e : LEnt) : MapTab :=
  let t := { t with ns := nmod t.ns nsid fun n => { n with mapped := n.mapped - e.mapped } }
  match e with | .slot p => vSub t p 1 | .gone => t | .dead _ => t | .odd _ => t

/-- The counts with an entry's references taken out, or put in. -/
def subEntry (t : MapTab) (nsid : Nat) (e : PEnt) : MapTab :=
  (List.range 16).foldl (fun u i => subLetter u nsid (letterIn t e i)) t
def addEntry (t : MapTab) (nsid : Nat) (e : PEnt) : MapTab :=
  (List.range 16).foldl (fun u i => addLetter u nsid (letterIn t e i)) t

/-- A parcel entry replaced, with the counts; the bundle of the old entry stays. -/
def putEntry (t : MapTab) (nsid parcel : Nat) (e : PEnt) : MapTab :=
  let t := subEntry t nsid (entryOf t nsid parcel)
  let t := { t with ns := nmod t.ns nsid fun n =>
    { n with parcels := if e = .unmapped then ndel n.parcels parcel else nset n.parcels parcel e } }
  addEntry t nsid e

/-- Every entry of a namespace cleared and its bundles freed (Table 17-3). -/
def wipeNs (t : MapTab) (nsid : Nat) : MapTab :=
  let es := match nget t.ns nsid with | some n => n.parcels | none => []
  let t := es.foldl (fun t e => subEntry t nsid e.2) t
  { t with
    ns := nmod t.ns nsid fun n => { n with parcels := [], mapped := 0 }
    bundles := t.bundles.filter fun b => b.2.nsid != nsid }

/-! ## Superblock descriptors (Tables 8-5 and 8-6) -/

def Sb.nmem (b : Sb) : Nat := b.members.length
/-- P and Q member numbers (R224). -/
def Sb.pIdx (b : Sb) : Nat := b.sbid % b.nmem
def Sb.qIdx (b : Sb) : Nat := (b.sbid + 1) % b.nmem
def Sb.isParity (b : Sb) (m : Nat) : Bool := m == b.pIdx || m == b.qIdx
/-- The data members, in ascending member number: data index i is the i-th (R224). -/
def Sb.dataMems (b : Sb) : List Nat := (List.range b.nmem).filter fun m => !b.isParity m
/-- The data index of a member. -/
def Sb.dataIdx (b : Sb) (m : Nat) : Nat := (b.dataMems.takeWhile fun x => x != m).length
def Sb.endRow (b : Sb) (m : Nat) : Nat := (b.members[m]?.map fun x => x.endrow).getD 0
def Sb.lun (b : Sb) (m : Nat) : Nat := (b.members[m]?.map fun x => lunOf x.chn x.pos).getD 0
def Sb.block (b : Sb) (m : Nat) : Nat := (b.members[m]?.map fun x => x.block).getD 0
/-- The page group of member m in row r. -/
def Sb.page (b : Sb) (m r : Nat) : Nat := ppaOf (b.lun m) (b.block m) r 0
/-- The member that holds a page group. -/
def Sb.memOf (b : Sb) (p : Nat) : Option Nat :=
  (List.range b.nmem).find? fun m => b.lun m == ppaLun p && b.block m == ppaBlock p
/-- CAP of Table 9-2. -/
def Sb.cap (b : Sb) : Nat :=
  16 * (b.dataMems.map fun m =>
    min (b.endRow m) b.rows - (if (b.members[m]?.map fun x => x.endfail).getD false then 1 else 0)).foldl (· + ·) 0

def Member.code (x : Member) : Nat :=
  2 ^ 63 + x.chn * 2 ^ 58 + x.pos * 2 ^ 53 + x.block * 2 ^ 39 + x.endrow * 2 ^ 26 + (if x.endfail then 2 ^ 25 else 0)
def Member.decode (v : Nat) : Member :=
  { chn := bitsOf v 62 58, pos := bitsOf v 57 53, block := bitsOf v 52 39, endrow := bitsOf v 38 26, endfail := bitOf v 25 }

/-- The descriptor's 320 bytes, with its CRC-32C. -/
def Sb.bytes (b : Sb) : List Byte :=
  let hd := le 4 b.sbid ++ le 1 b.st ++ le 1 b.nmem ++ le 1 b.pIdx ++ le 1 b.qIdx ++ le 1 b.stream
    ++ le 1 ((if b.closed then 1 else 0) + (if b.narrow then 2 else 0)) ++ le 2 b.nextRow ++ le 2 b.rows ++ le 2 0
    ++ le 8 b.openWsn ++ le 8 b.sealWsn ++ List.replicate 28 0
  let ms := padTo 256 (b.members.flatMap fun x => le 8 x.code)
  hd ++ le 4 (crc32c (hd ++ le 4 0 ++ ms)) ++ ms

/-- The descriptor that 320 bytes hold; what Table 9-2 adds comes from the entry it replaces. -/
def Sb.ofBytes (l : List Byte) (old : Option Sb) : Sb :=
  let n := fieldAt l 5 1
  { sbid := fieldAt l 0 4, st := fieldAt l 4 1, stream := fieldAt l 8 1,
    closed := bitOf (fieldAt l 9 1) 0, narrow := bitOf (fieldAt l 9 1) 1,
    nextRow := fieldAt l 10 2, rows := fieldAt l 12 2, openWsn := fieldAt l 16 8, sealWsn := fieldAt l 24 8,
    members := (List.range n).map fun i => Member.decode (fieldAt l (64 + 8 * i) 8),
    vcount := (old.map fun b => b.vcount).getD 0, sealTime := (old.map fun b => b.sealTime).getD 0,
    degraded := (old.map fun b => b.degraded).getD false, system := (old.map fun b => b.system).getD (22 ≤ fieldAt l 8 1 && fieldAt l 8 1 < 24),
    job := (old.map fun b => b.job).getD false, pins := (old.map fun b => b.pins).getD 0 }

/-! ## Records applied (Table 10-4) -/

def blkGet (t : MapTab) (k : Nat) : BlkInfo := ngetD t.blocks k {}
def blkSet (t : MapTab) (k : Nat) (b : BlkInfo) : MapTab := { t with blocks := nset t.blocks k b }

/-- SBFREE: each member's block as Table 9-4 (R243); a block already BAD or RETIRED keeps its state. -/
def applySbfree (rated : Nat) (t : MapTab) (sbx sbid : Nat) : MapTab :=
  match nget t.sbs sbx with
  | none => t
  | some b =>
    if b.sbid != sbid then t else
    let t := (List.range b.nmem).foldl (fun t m =>
      let k := blkKey (b.lun m) (b.block m)
      let e := blkGet t k
      let out := (b.ended.find? fun x => x.1 == m).map fun x => x.2
      if e.st = 3 || e.st = 4 || e.st = 5 then blkSet t k { e with sbx := 0xFFFFFFFF }
      else if out = some 2 then blkSet t k { e with st := 6, sbx := 0xFFFFFFFF, epoch := b.epoch }
      else
        let n := min (e.erases + 1) 65535
        blkSet t k { erases := n, st := if rated ≤ n then 5 else 1, epoch := b.epoch }) t
    { t with sbs := ndel t.sbs sbx }

/-- The settings a create or format record carries in its VALUE. -/
def nsSettings (v hi : Nat) : Nat × Bool × Bool := (if bitOf v hi then 3 else 1, bitOf v (hi + 1), bitOf v (hi + 2))

/-- An NSOP record (Table 17-3). -/
def applyNsop (t : MapTab) (op nsid v : Nat) (keys : List Carrier) : MapTab :=
  match op with
  | 1 =>
    let lbaf := bitsOf v 43 40
    let nsze := 16 * bitsOf v 32 0
    let st := nsSettings v 44
    let n : Ns := { nsze, ncap := nsze, lbaf, piType := if lbaf = 2 then st.1 else 0, pil := st.2.1, ext := st.2.2,
                    segs := freeSegs { t with ns := ndel t.ns nsid } (segCount nsze lbaf),
                    key := (keys.head?).getD { nsid, salt := 0, wrapped := 0 } }
    { t with ns := nset t.ns nsid n }
  | 2 => let t := wipeNs t nsid; { t with ns := ndel t.ns nsid }
  | 3 =>
    let t := wipeNs t nsid
    { t with ns := nmod t.ns nsid fun n =>
        let lbaf := bitsOf v 3 0
        let n := { n with lbaf, piType := if lbaf = 2 then (if bitOf v 6 then 3 else 1) else 0, pil := bitOf v 7,
                          ext := bitOf v 8, formatting := true }
        let n := if segCount n.nsze lbaf = n.segs.length then n
          else { n with segs := freeSegs { t with ns := ndel t.ns nsid } (segCount n.nsze lbaf) }
        match keys with | k :: _ => { n with key := k } | [] => n }
  | 4 => { t with ns := nmod t.ns nsid fun n => { n with formatting := false } }
  | 5 =>
    let t := t.ns.foldl (fun t e => wipeNs t e.1) t
    let t := keys.foldl (fun t k => { t with ns := nmod t.ns k.nsid fun n => { n with key := k } }) t
    { t with sanitize := bitsOf v 3 0 }
  | 6 =>
    let gone := t.sbs.filter fun e => !e.2.system
    let t := gone.foldl (fun t e => (List.range e.2.nmem).foldl (fun t m =>
      let k := blkKey (e.2.lun m) (e.2.block m)
      let b := blkGet t k
      if b.st = 3 || b.st = 4 || b.st = 5 then blkSet t k { b with sbx := 0xFFFFFFFF } else blkSet t k { b with st := 1, sbx := 0xFFFFFFFF, epoch := 0 }) t) t
    { t with sbs := t.sbs.filter fun e => e.2.system, sanitize := 0 }
  | _ => t

/-- Bundles in use: those whose descriptor names a namespace. -/
def usedBundles (t : MapTab) : Nat := (t.bundles.filter fun b => b.2.nsid != 0).length
/-- A bundle whose descriptor is free. -/
def freeDesc : Bundle := { nsid := 0, parcel := 0, heat := 0, ents := List.replicate 16 .gone }
/-- The effect of one record when applied (Table 10-4). heat is HEAT_INC, rated the die's rated erase count. -/
def applyRec (heat rated : Nat) (t : MapTab) (r : JRec) : MapTab :=
  match r with
  | .parcel nsid p freeb v =>
    let t := putEntry t nsid p v
    match freeb with | some b => { t with bundles := ndel t.bundles b } | none => t
  | .promote nsid p b old =>
    let t := subEntry t nsid (entryOf t nsid p)
    let t := { t with
      bundles := nset t.bundles b { nsid, parcel := p, heat, ents := promoted old }
      ns := nmod t.ns nsid fun n => { n with parcels := nset n.parcels p (.fine b) } }
    addEntry t nsid (.fine b)
  | .letter nsid p i b v =>
    let u := ngetD t.bundles b freeDesc
    let t := if entryOf t nsid p = .fine b then addLetter (subLetter t nsid (u.ents.getD i .gone)) nsid v else t
    { t with bundles := nset t.bundles b { u with ents := modAt u.ents i fun _ => v } }
  | .range nsid p n =>
    let es : NMap PEnt := match nget t.ns nsid with
      | some x => x.parcels.filter fun e => p ≤ e.1 && e.1 < p + n
      | none => []
    es.foldl (fun (t : MapTab) (e : Nat × PEnt) =>
      let t := putEntry t nsid e.1 .unmapped
      match e.2 with
      | .fine b => { t with bundles := ndel t.bundles b }
      | .ptr _ => t | .dead _ => t | .unmapped => t) t
  | .sbdesc x bytes =>
    let b := Sb.ofBytes bytes (nget t.sbs x)
    let t := { t with sbs := nset t.sbs x b }
    (List.range b.nmem).foldl (fun t m =>
      let k := blkKey (b.lun m) (b.block m)
      let e := blkGet t k
      if e.st = 3 || e.st = 4 then blkSet t k { e with sbx := x } else blkSet t k { e with st := 2, sbx := x }) t
  | .sbfree x sbid => applySbfree rated t x sbid
  | .nsop op nsid v keys => applyNsop t op nsid v keys
  | .acct nsid n =>
    { t with commitC := t.commitC - n
             ns := if nsid = 0 then t.ns else nmod t.ns nsid fun x => { x with ncap := x.ncap - n } }

/-! ## Records as ring words (Tables 10-3 to 10-5, 17-3) -/

def recWord (typ letter gen nsid parcel arg value : Nat) : Nat :=
  typ * 2 ^ 124 + letter * 2 ^ 120 + gen % 16 * 2 ^ 116 + nsid * 2 ^ 108 + parcel * 2 ^ 75 + arg * 2 ^ 48 + value

/-- Bytes as 16-byte chunks. -/
def chunks : Nat → List Byte → List Nat
  | 0, _ => []
  | n + 1, l => leNat (l.take 16) :: chunks n (l.drop 16)

/-- A key carrier's 80 bytes (R412). -/
def Carrier.bytes (k : Carrier) : List Byte := le 1 k.nsid ++ le 1 k.salt ++ le 72 k.wrapped.toNat ++ List.replicate 6 0
def Carrier.ofBytes (l : List Byte) : Carrier :=
  { nsid := fieldAt l 0 1, salt := fieldAt l 1 1, wrapped := BitVec.ofNat 576 (fieldAt l 2 72) }

/-- A record's words in generation gen. -/
def JRec.words (gen : Nat) (r : JRec) : List Nat :=
  match r with
  | .parcel nsid p freeb v =>
    [recWord 1 0 gen nsid p (match freeb with | some b => 2 ^ 26 + b | none => 0) v.code]
  | .promote nsid p b old => [recWord 2 0 gen nsid p b old.code]
  | .letter nsid p i b v => [recWord 3 i gen nsid p b v.code]
  | .range nsid p n => [recWord 4 0 gen nsid p 0 n]
  | .sbdesc x bytes => recWord 5 0 gen 0 0 x 0 :: chunks 20 bytes
  | .sbfree x sbid => [recWord 6 0 gen 0 0 x sbid]
  | .nsop op nsid v keys =>
    recWord 7 0 gen nsid 0 (op + 5 * keys.length * 256) v :: chunks (5 * keys.length) (keys.flatMap Carrier.bytes)
  | .acct nsid n => [recWord 8 0 gen nsid 0 0 n]

def wordBytes (w : Nat) : List Byte := le 16 w
def wType (w : Nat) : Nat := bitsOf w 127 124
def wGen (w : Nat) : Nat := bitsOf w 119 116

/-- Carriers of n chunks of 80 bytes each. -/
def carriers : Nat → List Byte → List Carrier
  | 0, _ => []
  | n + 1, l => Carrier.ofBytes (l.take 80) :: carriers n (l.drop 80)

/-- Raw chunks that a typed word announces (R261). -/
def wChunks (w : Nat) : Nat := if wType w = 5 then 20 else if wType w = 7 then bitsOf w 65 56 else 0

/-- The record that a typed word and its raw chunks spell. -/
def decodeRec (w : Nat) (raw : List Nat) : Option JRec :=
  let nsid := bitsOf w 115 108
  let p := bitsOf w 107 75
  let arg := bitsOf w 74 48
  let v := bitsOf w 47 0
  match wType w with
  | 1 => some (.parcel nsid p (if bitOf arg 26 then some (arg % 2 ^ 26) else none) (PEnt.decode v))
  | 2 => some (.promote nsid p (arg % 2 ^ 26) (PEnt.decode v))
  | 3 => some (.letter nsid p (bitsOf w 123 120) (arg % 2 ^ 26) (LEnt.decode v))
  | 4 => some (.range nsid p (v % 2 ^ 32))
  | 5 => some (.sbdesc (arg % 2 ^ 19) (raw.flatMap wordBytes))
  | 6 => some (.sbfree (arg % 2 ^ 19) (v % 2 ^ 32))
  | 7 => some (.nsop (arg % 256) nsid v (carriers (raw.length / 5) (raw.flatMap wordBytes)))
  | 8 => some (.acct nsid v)
  | _ => none

/-- The COMMIT word that ends a batch (Table 10-5). -/
def commitWord (gen count crc gseq : Nat) : Nat :=
  15 * 2 ^ 124 + gen % 16 * 2 ^ 116 + count * 2 ^ 96 + crc * 2 ^ 64 + gseq % 2 ^ 64
def gensWord (gen : Nat) : Nat := recWord 13 0 gen 0 0 0 gen
def padWord (gen : Nat) : Nat := recWord 14 0 gen 0 0 0 0

/-! ## Fitted flash and space (R152, R153, R223) -/

def bit32 (s : State) (a c : Nat) : Bool := bitOf (rd s a) c
def rLunFlt (c : Nat) : Nat := 0x200054 + 0x4000 * c
def rLunRet (c : Nat) : Nat := 0x30180 + 4 * c
def rChRet : Nat := 0x30110

/-- Does CHN_GEOM name position p (R185)? -/
def inGeometry (s : State) (c p : Nat) : Bool :=
  let g := rd s (0x200010 + 0x4000 * c)
  p / 8 < bitsOf g 10 8 && p % 8 < bitsOf g 3 0
/-- The LUN answers identification (R184). -/
def lunPresent (s : State) (c p : Nat) : Bool := inGeometry s c p && (nget s.flash.absent (lunOf c p)).isNone
/-- A fitted LUN: present, or faulted while it holds blocks from earlier service (R184). -/
def lunFitted (s : State) (c p : Nat) : Bool :=
  inGeometry s c p && ((nget s.flash.absent (lunOf c p)).isNone
    || s.map.tab.blocks.any fun e => e.1 / 16384 == lunOf c p)
def lunRetired (s : State) (c p : Nat) : Bool := bit32 s (rLunRet c) p || bit32 s rChRet c
/-- The LUN is in service: not faulted, not retired. -/
def lunInService (s : State) (c p : Nat) : Bool := inGeometry s c p && !bit32 s (rLunFlt c) p && !lunRetired s c p
/-- Positions of a channel that are in service. -/
def positions (s : State) (c : Nat) : List Nat := (List.range 32).filter fun p => lunInService s c p

/-! ## The map's images in DRAM (R132 to R136): what the DRAM regions of the map hold, byte by byte -/

/-- Byte o of segment i of a namespace: 6 bytes to an entry, then 4 bytes of padding. An entry may straddle two 64-byte lines. -/
def segByte (t : MapTab) (nsid i o : Nat) : Byte :=
  if o / 6 < Config.segEntries then
    BitVec.ofNat 8 ((entryOf t nsid (i * Config.segEntries + o / 6)).code / 256 ^ (o % 6))
  else 0
/-- The 96 bytes of bundle b: letter entries 0 to 15 in order. -/
def bundleBytes (t : MapTab) (b : Nat) : List Byte :=
  match nget t.bundles b with
  | some u => (List.range 16).flatMap fun i => le 6 (u.ents.getD i .gone).code
  | none => List.replicate 96 0
/-- The bundle descriptor (Table 5-4); NSID 0 where the bundle is free or reserved. -/
def bundleDesc (t : MapTab) (b : Nat) : Nat :=
  match nget t.bundles b with
  | some u => u.heat * 2 ^ 56 + u.nsid * 2 ^ 48 + u.parcel
  | none => 0

/-- An entry's PPA is invalid (R131): LUN not fitted, channel retired past step 6, or beyond the geometry. -/
def ppaInvalid (s : State) (p : Nat) : Bool :=
  let c := lunChn (ppaLun p)
  !lunFitted s c (lunPos (ppaLun p)) || s.chip.chnGone.contains c || s.flash.die.blocks ≤ ppaBlock p
    || s.flash.die.pages ≤ ppaPage p
/-- A letter's entries are corrupt (R131): a parcel pointer whose SLOT is not 0, an invalid PPA, or a reserved kind. -/
def corruptAt (s : State) (nsid l : Nat) : Bool :=
  (match entryOf s.map.tab nsid (l / 16) with
    | .ptr p => p % 16 != 0 | .dead _ => false | .fine _ => false | .unmapped => false)
  || (match letterOf s.map.tab nsid l with
    | .slot p => ppaInvalid s p | .dead p => ppaInvalid s p | .gone => false | .odd _ => true)

/-- Good blocks of a channel on its LUNs in service: neither BAD, RETIRED nor WORN (R153, R223). -/
def goodBlocks (s : State) (c : Nat) : Nat :=
  let ps := positions s c
  let n := ps.length * s.flash.die.blocks
  n - (s.map.tab.blocks.filter fun e =>
    (e.2.st == 3 || e.2.st == 4 || e.2.st == 5) && lunChn (e.1 / 16384) == c && ps.contains (lunPos (e.1 / 16384))).length

def minWidth (s : State) : Nat := rdField s 0x70014 5 0

/-- Letters of data in the superblocks that channels with these good block counts can form: row upon row of one block from
each channel that still has one, while at least MIN channels do (R153, R223; log entry 33). -/
def formable (min pages : Nat) (counts : List Nat) : Nat :=
  let top := counts.foldl max 0
  ((List.range top).map fun i =>
    let w := (counts.filter fun g => i < g).length
    if w < min then 0 else (w - 2) * pages * 16).foldl (· + ·) 0

/-- U (Table 5-10). -/
def usable (s : State) : Nat :=
  formable (minWidth s) s.flash.die.pages ((List.range 32).map (goodBlocks s)) - s.map.sysArea - s.map.ckptImg
def reserveR (s : State) : Nat := s.map.reserveR
def commitC (s : State) : Nat := s.map.tab.commitC
/-- M (Table 5-10). -/
def mappedM (s : State) : Nat := (s.map.tab.ns.map fun e => e.2.mapped).foldl (· + ·) 0
/-- S, signed. -/
def spare (s : State) : Int := (usable s : Int) - (commitC s : Int) - (reserveR s : Int)
/-- B. -/
def budget (s : State) : Nat := min (commitC s) (usable s - reserveR s)
/-- The shedding threshold in letters: TH hundredths of a percent of the user capacity, rounded down: the spec gives no
rounding (DESIGN CHOICE, log entry 154). -/
def shedThr (s : State) : Int := (rdField s 0x30028 15 0 * s.boot.userCap / 10000 : Nat)

/-- Letters admitted at release whose group is not applied yet (R154), and those of them below a namespace's NSZE. -/
def admitted (s : State) : Nat := (s.srt.cmds.map fun e => e.2.newLets).foldl (· + ·) 0
def admittedUser (s : State) (nsid : Nat) : Nat :=
  (s.srt.cmds.map fun e => if e.2.q.nsid = nsid then e.2.newUser else 0).foldl (· + ·) 0

/-- Channels that are active (R223). -/
def activeChannels (s : State) : List Nat := (List.range 32).filter fun c => !(positions s c).isEmpty && !bit32 s rChRet c

/-- FREE blocks on in-service LUNs of a channel. -/
def freeBlocks (s : State) (c : Nat) : List (Nat × Nat) :=
  (positions s c).flatMap fun p =>
    ((List.range s.flash.die.blocks).filter fun b => (blkGet s.map.tab (blkKey (lunOf c p) b)).st == 0).map fun b => (p, b)
/-- F (R248). -/
def freeF (s : State) : Nat :=
  match (activeChannels s).map fun c => (freeBlocks s c).length with
  | [] => 0
  | x :: r => r.foldl min x

/-! ## Chip state (Table 5-11) and shedding (R157) -/

def chipNormal : Nat := 0
def chipDegraded : Nat := 1
def chipShedding : Nat := 2
def chipReadOnly : Nat := 3
def chipFailed : Nat := 4

/-- The ANA state of groups changes: the count rises, and the ANA Change notice goes to both controllers (R90, R94). -/
def anaNotice (s : State) : State :=
  let each (s : State) (p : Port) : State := if aerEnabled (getPort s p) 11 then asyncEvent s p 2 3 0x0C else s
  each (each (updMap s fun m => { m with anaChanges := m.anaChanges + 1 }) .a) .b

/-- The namespace's key is not in the key store, or the crypto island failed its self-test (Table 14-10). -/
def keyLost (s : State) (nsid : Nat) : Bool := (nget s.cry.keys nsid).isNone || !active s .cry
/-- The namespaces whose ANA group is in Persistent Loss for want of a key, and the ANA Change notice where their set, old before
the change, is another now. In FAILED every group is in Persistent Loss already (R90, Table 14-10). -/
def lostKeys (s : State) : List Nat := (s.map.tab.ns.map fun e => e.1).filter (keyLost s)
def anaAfter (old : List Nat) (s : State) : State := if s.map.chip = chipFailed || lostKeys s == old then s else anaNotice s

/-- Change the chip state: source 43, the events of critical warning bits that become 1, each where the Asynchronous Event
Configuration enables it (R94, R160), and on entry to FAILED the standard's Persistent Internal Error event (PRESUMED, log entry
153). -/
def setChip (s : State) (n : Nat) : State :=
  if s.map.chip = n then s else
  let old := s.map.chip
  let s := updMap s fun m => { m with chip := n, changes := (m.changes + 1) % 65536 }
  let s := raise s 43
  let warned (c : Nat) : Bool := c == 1 || c == 2 || c == 3
  let low (c : Nat) : Bool := c == 2 || c == 3
  let each (s : State) (p : Port) : State :=
    let x := getPort s p
    let s := if warned n && !warned old && aerEnabled x 2 || n == 3 && aerEnabled x 3 then asyncEvent s p 1 0 2 else s
    let s := if low n && !low old && aerEnabled x 0 then asyncEvent s p 1 2 2 else s
    if n == 4 then asyncEvent s p 0 3 1 else s
  each (each (if (n == 4) != (old == 4) then anaNotice s else s) .a) .b

/-- The shed request at a spare S, in parcels (R157). -/
def shedParcels (s : State) : Nat := ((shedThr s - spare s).toNat + 15) / 16

/-- Does a condition of Table 5-11's first row hold? -/
def degradedNow (s : State) : Bool := s.map.retired || decide (usable s * 100 ≤ s.map.u0 * 99 ∧ 0 < s.map.u0)

/-- No free block can be produced (Table 5-11). -/
def noFreeBlock (s : State) : Bool := ((List.range 32).filter fun c => 0 < goodBlocks s c).length < minWidth s

/-- Chip state and shed request after a change of the space quantities (R156, R157). -/
def spaceUpdate (s : State) : State :=
  if s.map.chip = 3 || s.map.chip = 4 || s.chip.held then s else
  let sp := spare s
  let next :=
    if (usable s < reserveR s + mappedM s && s.map.retiring.isEmpty) || noFreeBlock s then 3
    else if sp < shedThr s then 2
    else if degradedNow s then 1
    else if s.map.chip = 1 then 1 else 0
  let s := setChip s next
  if next = 2 then
    let n := shedParcels s
    let old := s.map.shedReq
    let s := updMap s fun m => { m with shedReq := n }
    if old < n then raise (asyncBoth s 7 1 0xC4) 44 else s
  else updMap s fun m => { m with shedReq := 0 }

end Sys2Proof.Machine
end

