-- ==== Sys2Proof/Machine/Phc.lean ====
section
/-! DEFINITION. The pigeonhole map cache: lookups, fills and replacement (R166 to R170), its states (R171, R172), range
and set-and-way operations (R173 to R175), errors and automatic way disable (R176 to R178). -/

namespace Sys2Proof.Machine

namespace Reg
def phcWayDis : Nat := 0x40010
def phcErrLimit : Nat := 0x40014
def phcRngBase : Nat := 0x40020
def phcRngLen : Nat := 0x40028
def phcRngRes : Nat := 0x40034
def phcRngWb : Nat := 0x40038
def phcRngInv : Nat := 0x4003C
def phcHits : Nat := 0x40040
def phcMisses : Nat := 0x40048
def phcWayErr (k : Nat) : Nat := 0x40050 + 4 * k
def phcFault : Nat := 0x40060
end Reg

/-! ## Geometry (Table 6-1) -/

def phcWays (s : State) : Nat := 2 ^ (rdField s (Reg.ctl .phc) 2 1 + 1)
def phcSets (s : State) : Nat := 262144 / phcWays s
def phcSet (s : State) (line : Nat) : Nat := line % phcSets s
def wayOff (s : State) (w : Nat) : Bool := bitOf (rd s Reg.phcWayDis) w
/-- A way that may be allocated: not disabled, and not being disabled (R168, R176). -/
def wayOk (s : State) (w : Nat) : Bool :=
  !wayOff s w && (match s.phc.disabling with | some (d, _) => d != w | none => true)
def enabledWays (s : State) : Nat := ((List.range (phcWays s)).filter fun w => !wayOff s w).length
def slotKey (set way : Nat) : Nat := set * 16 + way

/-- STATE and ACTIVE follow the cache's state (Table 6-2, R171). -/
def phcTo (s : State) (st : Nat) : State :=
  let s := updPhc s fun p => { p with st := st }
  setActive (wrField s (Reg.sts .phc) 17 16 st) .phc 0 (decide (2 ≤ st))

/-! ## Lines -/

/-- The way that holds a line, if one does. -/
def findWay (s : State) (line : Nat) : Option Nat :=
  (List.range (phcWays s)).find? fun w =>
    match nget s.phc.lines (slotKey (phcSet s line) w) with | some x => x.line == line | none => false
def lineAt (s : State) (line : Nat) : Option PhcLine :=
  (findWay s line).bind fun w => nget s.phc.lines (slotKey (phcSet s line) w)

/-- Point the bits on the path to a way away from it (R168). The levels run from the root; n is the ways below the node. -/
def treeTouch : Nat → Nat → Nat → Nat → Nat → Nat
  | 0, _, _, _, t => t
  | fuel + 1, node, n, way, t =>
    if n ≤ 1 then t else
    let right := n / 2 ≤ way
    let t := setBits t node node (if right then 0 else 1)
    treeTouch fuel (2 * node + (if right then 1 else 0)) (n / 2) (if right then way - n / 2 else way) t
/-- Walk the tree from the root along its bits, taking the other subtree where one holds no way that may be used (R168). -/
def treeVictim (ok : Nat → Bool) (t : Nat) : Nat → Nat → Nat → Nat → Nat
  | 0, _, lo, _ => lo
  | fuel + 1, node, lo, n =>
    if n ≤ 1 then lo else
    let h := n / 2
    let has := fun a => (List.range h).any fun k => ok (a + k)
    let right := if bitOf t node then has (lo + h) else !has lo
    treeVictim ok t fuel (2 * node + (if right then 1 else 0)) (if right then lo + h else lo) h

def useWay (s : State) (set way : Nat) : State :=
  updPhc s fun p => { p with trees := nset p.trees set (treeTouch 4 1 (phcWays s) way (ngetD p.trees set 0)) }
/-- The victim way of a set (R168): the lowest usable way with no valid line, else by the tree. -/
def victimWay (s : State) (set : Nat) : Nat :=
  match (List.range (phcWays s)).find? fun w => wayOk s w && (nget s.phc.lines (slotKey set w)).isNone with
  | some w => w
  | none => treeVictim (wayOk s) (ngetD s.phc.trees set 0) 4 1 0 (phcWays s)

/-- A byte-masked write into a line (R165). -/
def mergeLine (mask : BitVec 64) (old new : BitVec 512) : BitVec 512 :=
  BitVec.ofNat 512 (leNat ((List.range 64).map fun i =>
    BitVec.ofNat 8 ((if mask.getLsbD i then new else old).toNat / 2 ^ (8 * i))))
/-- A line's bytes in DRAM. -/
def dramLine (s : State) (line : Nat) : BitVec 512 := BitVec.ofNat 512 (leNat (memReads 0 s.dram (line * 64) 64))
/-- Is a unit's granule initialised (R300)? -/
def unitReady (s : State) (unit : Nat) : Bool := s.mem.granules.any fun r => r.1 ≤ unit / 1024 && unit / 1024 < r.2
/-- A full-unit write, which ends a poisoned unit (R304); in a granule not initialised it is noted (R300). -/
def putDramLine (s : State) (line : Nat) (d : BitVec 512) : State :=
  updMem { s with dram := memWrites 0 s.dram (line * 64) (le 64 d.toNat) } fun m => { m with
    poisoned := m.poisoned.filter (· != line)
    wrote := if unitReady s line || m.wrote.contains line then m.wrote else line :: m.wrote }

/-- A line as clients see it: in the cache, the eviction buffer or DRAM, with the writes that wait for a fill and those in the
merge buffer over it. -/
def viewLine (s : State) (line : Nat) : BitVec 512 :=
  let old := match lineAt s line with
    | some x => x.data
    | none => match s.phc.evict.find? fun e => e.line == line with | some e => e.data | none => dramLine s line
  let wait := ((s.phc.fills.flatMap fun f => f.waiting) ++ s.phc.held).filter fun r => r.line == line && r.write
  let v := wait.foldl (fun v r => mergeLine r.mask v r.bytes) old
  match s.mem.merge.find? fun e => e.line == line with | some e => mergeLine e.mask v e.data | none => v

/-- The bytes of a range that are not 0, by their place in it, as clients see them. -/
def viewRange (s : State) (lo len : Nat) : NMap Byte :=
  let ls := (s.dram.map fun e => e.1 / 64) ++ (s.phc.lines.map fun x => x.2.line) ++ (s.phc.evict.map fun e => e.line)
    ++ (s.mem.merge.map fun e => e.line) ++ ((s.phc.fills.flatMap fun f => f.waiting) ++ s.phc.held).map fun r => r.line
  let mine := (ls.filter fun l => lo ≤ 64 * l && 64 * l < lo + len).dedup
  mine.foldl (fun m l => (List.range 64).foldl (fun m i =>
    let v : Byte := (viewLine s l).extractLsb' (8 * i) 8
    if v = 0 then m else nset m (64 * l + i - lo) v) m) []

/-! ## Visits of a range operation (R173 to R175) -/

/-- Drop a line from its way. -/
def phcDrop (s : State) (k : Nat) : State := updPhc s fun p => { p with lines := ndel p.lines k }
/-- OP applied to a line of the cache: clean writes a dirty line back, invalidate drops it (R173 step 3, R175). -/
def lineOp (s : State) (op : Nat) (k : Nat) (x : PhcLine) : State :=
  let s := if op % 2 = 1 && x.dirty then putDramLine s x.line x.data else s
  if 2 ≤ op then phcDrop s k else updPhc s fun p => { p with lines := nset p.lines k { x with dirty := false } }
/-- OP applied to a line held in the eviction buffer, which counts as dirty. -/
def evictOp (s : State) (op : Nat) (e : PhcEvict) : State :=
  let s := if op % 2 = 1 then putDramLine s e.line e.data else s
  if 2 ≤ op then updPhc s fun p => { p with evict := p.evict.filter fun x => x.line != e.line }
  else updPhc s fun p => { p with evict := p.evict.map fun x => if x.line == e.line then { x with wb := x.data, redirty := false } else x }
/-- The running operation visits a line of its range, once, and counts it. -/
def visitLine (s : State) (line : Nat) : State :=
  match s.phc.rng with
  | none => s
  | some r =>
    if line < r.lo || r.hi ≤ line || r.seen.contains line then s else
    let count (s : State) (dirty here : Bool) : State := updPhc s fun p => { p with rng := some { r with
      seen := line :: r.seen
      wb := r.wb + (if r.op % 2 = 1 && dirty then 1 else 0)
      inv := r.inv + (if 2 ≤ r.op && here then 1 else 0) } }
    match (findWay s line).bind fun w => (nget s.phc.lines (slotKey (phcSet s line) w)).map fun x => (slotKey (phcSet s line) w, x) with
    | some (k, x) => count (lineOp s r.op k x) x.dirty true
    | none => match s.phc.evict.find? fun e => e.line == line with
      | some e => count (evictOp s r.op e) true true
      | none => count s false false
/-- Whether the operation visits a line before or after an access to it: a free value decides (R174, R175; log entry 66). -/
def rangePass (s : State) (line : Nat) : State :=
  match s.phc.rng with
  | none => s
  | some r =>
    if line < r.lo || r.hi ≤ line || r.seen.contains line then s else
    let (s, f) := freshBelow s 2
    if f = 1 then visitLine s line else s

/-- Put a line into its set, evicting a victim; a dirty one enters the eviction buffer (R168, R169). A range operation visits neither
the victim before its eviction nor an entry before its write-back ends (DESIGN CHOICE, log entry 185): it meets the victim in the buffer. -/
def phcInsert (s : State) (line : Nat) (dirty : Bool) (data : BitVec 512) : State :=
  let set := phcSet s line
  let w := victimWay s set
  let s := match nget s.phc.lines (slotKey set w) with
    | some v => if v.dirty then updPhc s fun p => { p with evict := p.evict ++ [{ line := v.line, wb := v.data, data := v.data }] } else s
    | none => s
  useWay (updPhc s fun p => { p with lines := nset p.lines (slotKey set w) { line, dirty, data } }) set w
/-- Would a line's allocation evict a dirty line? -/
def needsEvict (s : State) (line : Nat) : Bool :=
  ((nget s.phc.lines (slotKey (phcSet s line) (victimWay s (phcSet s line)))).map fun v => v.dirty).getD false

/-- A write to a present line that is written through to DRAM and leaves it clean (Table 6-2, R176). -/
def writeThrough (s : State) (r : LineReq) (k : Nat) (x : PhcLine) : State :=
  let d := mergeLine r.mask x.data r.bytes
  putDramLine (updPhc s fun p => { p with lines := nset p.lines k { line := r.line, dirty := false, data := d } }) r.line d

/-- A request served from the line in a way: the replacement bits, and a write's merge; in a way that is being disabled the write goes
through (R167, R176). -/
def phcServe (s : State) (r : LineReq) (w : Nat) : State :=
  let k := slotKey (phcSet s r.line) w
  let s := useWay s (phcSet s r.line) w
  if !r.write then s
  else if (s.phc.disabling.map fun d => d.1) == some w then
    (match nget s.phc.lines k with | some x => writeThrough s r k x | none => s)
  else updPhc s fun p => { p with lines := nmod p.lines k fun x => { x with dirty := true, data := mergeLine r.mask x.data r.bytes } }
/-- A hit, which counts in PHC_HITS. -/
def phcHit (s : State) (r : LineReq) (w : Nat) : State := phcServe (satAdd s Reg.phcHits 63 0 1) r w

/-- A request passed to DRAM; a narrow write leaves a poisoned unit poisoned (R304). -/
def phcPass (s : State) (r : LineReq) : State :=
  if !r.write then s else
  let bad := s.mem.poisoned.contains r.line && r.mask != BitVec.allOnes 64
  let s := putDramLine s r.line (mergeLine r.mask (dramLine s r.line) r.bytes)
  if bad then updMem s fun m => { m with poisoned := r.line :: m.poisoned } else s

/-- A request served from an eviction-buffer entry (R170). -/
def evictServe (e : PhcEvict) (r : LineReq) : PhcEvict :=
  if e.line != r.line then e
  else if r.write then { e with touched := true, redirty := true, data := mergeLine r.mask e.data r.bytes }
  else { e with touched := true }

/-- The lookup of one client request (R167, R170, R171). PHC_HITS counts hits of a lookup, and a request that joins an outstanding
fill once the fill has brought its line; what the eviction buffer serves, and what DRAINING passes to DRAM, counts neither there nor in
PHC_MISSES (DESIGN CHOICE, log entry 185). -/
def phcLookup (s : State) (r : LineReq) : State :=
  match s.phc.st with
  | 0 => phcPass s r
  | 1 => updPhc s fun p => { p with held := p.held ++ [r] }
  | 2 =>
    let s := rangePass s r.line
    match findWay s r.line with
    | some w => phcHit s r w
    | none =>
      if s.phc.evict.any fun e => e.line == r.line then
        updPhc s fun p => { p with evict := p.evict.map fun e => evictServe e r }
      else if s.phc.fills.any fun f => f.line == r.line then
        updPhc s fun p => { p with fills := p.fills.map fun f => if f.line == r.line then { f with waiting := f.waiting ++ [r] } else f }
      else if 64 ≤ s.phc.fills.length then updPhc s fun p => { p with held := p.held ++ [r] }
      else
        updPhc (satAdd s Reg.phcMisses 63 0 1) fun p => { p with fills := p.fills ++ [{ line := r.line, waiting := [r] }] }
  | _ =>
    match findWay s r.line with
    | some w =>
      let s := useWay (satAdd s Reg.phcHits 63 0 1) (phcSet s r.line) w
      if !r.write then s
      else (match lineAt s r.line with | some x => writeThrough s r (slotKey (phcSet s r.line) w) x | none => s)
    | none =>
      if s.phc.evict.any fun e => e.line == r.line then
        updPhc s fun p => { p with evict := p.evict.map fun e => evictServe e r }
      else phcPass s r

/-- One client access, which the window of R176 counts. -/
def phcRequest (s : State) (r : LineReq) : State := phcLookup (updPhc s fun p => { p with accesses := p.accesses + 1 }) r

/-! ## Errors (R176 to R178) -/

/-- The lines of one way. -/
def waySlots (p : Phc) (way : Nat) : List (Nat × PhcLine) := p.lines.filter fun x => x.1 % 16 == way
/-- Write every dirty line of a list back to DRAM. -/
def writeBack (s : State) (l : List (Nat × PhcLine)) : State :=
  l.foldl (fun s x => if x.2.dirty then putDramLine s x.2.line x.2.data else s) s

/-- A way starts to be disabled: nothing is allocated in it, and its dirty lines are written back; the pass over the sets ends
with PHC_WAY_DISABLE_DONE (R176). A line whose data is uncorrectable is known by the error that a lookup or a scrub met in it, which
dropped it (log entry 185). At the floor of two ways it is kept (R177). -/
def wayDisable (s : State) (way set : Nat) : State :=
  if enabledWays s ≤ 2 then
    raise (wr (wrField s (Reg.sts .phc) 19 19 1) Reg.phcFault (3 * 2 ^ 30 + way * 2 ^ 24 + set)) 52
  else
    let s := writeBack (updPhc s fun p => { p with disabling := some (way, set) }) (waySlots s.phc way)
    updPhc s fun p => { p with lines := p.lines.map fun x => if x.1 % 16 == way then (x.1, { x.2 with dirty := false }) else x }

/-- An error counts against a way; above LIMIT the way starts to be disabled, or is kept at the floor (R176, R177). While another
way is being disabled none starts: its next counted error after that may (DESIGN CHOICE, log entry 158). -/
def wayError (s : State) (way set : Nat) : State :=
  let s := satAdd s (Reg.phcWayErr (way / 4)) (8 * (way % 4) + 7) (8 * (way % 4)) 1
  let n := rdField s (Reg.phcWayErr (way / 4)) (8 * (way % 4) + 7) (8 * (way % 4))
  if rdField s Reg.phcErrLimit 7 0 < n && bitOf (rd s (Reg.ctl .phc)) 4 && !wayOff s way && s.phc.disabling.isNone then wayDisable s way set
  else s

/-- An uncorrectable error lost a line of the map: its segment must be rebuilt (R178, R310). -/
def needRebuild (s : State) (seg : Nat) : State :=
  updPhc s fun p => { p with lost := if p.lost.contains seg then p.lost else p.lost ++ [seg] }
/-- The same for a line that lies in a map segment, if it does. -/
def lostLine (s : State) (seg : Option Nat) : State := match seg with | some g => needRebuild s g | none => s

/-- A register of the DRAM controller. -/
def drc (off : Nat) : Nat := 0x50000 + off
/-- The DRAM controller reports a unit: class 0 UE, 1 POISON, 2 UNINIT (R302, R307). -/
def drcReport (s : State) (cls unit : Nat) : State :=
  let s := if rdField s (drc 0x2C) 2 0 = 0 then wr s (drc 0x30) (2 ^ 63 + cls * 2 ^ 36 + unit % 2 ^ 30 * 64) else s
  let s := if cls = 2 then s else satAdd s (drc 0x40) 31 0 1
  raise (orReg s (drc 0x2C) (2 ^ cls)) (if cls = 2 then 67 else 66)

/-- An error met in the line at a way (Table 6-5). -/
def phcError (s : State) (set way : Nat) (seg : Option Nat) (e : LineError) : State :=
  let k := slotKey set way
  match e with
  | .corrected => wayError s way set
  | .oneTag => wayError s way set
  | .dataUncorrected =>
    match nget s.phc.lines k with
    | some x =>
      if x.dirty then wayError (lostLine (drcReport (raise (phcDrop s k) 53) 0 x.line) seg) way set
      else wayError (phcDrop s k) way set
    | none => wayError s way set
  | .bothTags _ => wayError (raise (phcDrop s k) 55) way set

/-! ## Fills and write-backs -/

/-- Requests that waited for one of the 64 fills go on (R167). -/
def serveHeld (s : State) : State :=
  if s.phc.st = 1 then s else
  s.phc.held.foldl phcLookup (updPhc s fun p => { p with held := [] })
/-- May a line's fill end: nothing waits for a free entry of the eviction buffer (R169)? -/
def fillFits (s : State) (line : Nat) : Bool := s.phc.evict.length < 16 || !needsEvict s line

/-- The requesters of a fill that allocates no line receive the DRAM controller's report (R167). -/
def fillFailed (s : State) (f : PhcFill) (rep : UnitReport) : State :=
  updPhc s fun p => { p with reports := f.waiting.map fun r => (r, rep) }
/-- A request that waited for a line that a fill has brought: the miss itself, or one that joined it. -/
def fillMiss (s : State) (r : LineReq) : State := match findWay s r.line with | some w => phcServe s r w | none => phcLookup s r
def fillJoined (s : State) (r : LineReq) : State := match findWay s r.line with | some w => phcHit s r w | none => phcLookup s r
/-- The requests that wait for a line that a fill has brought: the first is the miss, each that joined it counts as a hit (log entry
185). -/
def fillServe (s : State) (l : List LineReq) : State :=
  match l with
  | [] => s
  | r :: rest => rest.foldl fillJoined (fillMiss s r)

/-- PHC_FILL_DONE (R167): a fill ends with the DRAM controller's report; a good one allocates the line with the bytes that DRAM holds and
serves what waits. A miss waits while the eviction buffer is full. -/
def fillDone (s : State) (line : Nat) (rep : UnitReport) (seg : Option Nat) : State :=
  match s.phc.fills.find? fun f => f.line == line with
  | none => s
  | some f =>
    if !fillFits s line then s else
    let s := updPhc s fun p => { p with fills := p.fills.filter fun g => g.line != line }
    match rep with
    | .uninit => serveHeld (raise (fillFailed s f rep) 54)
    | .ue => serveHeld (lostLine (fillFailed s f rep) seg)
    | .poison => serveHeld (lostLine (fillFailed s f rep) seg)
    | .clean => allocated s f
    | .corrected _ => allocated s f
where
  allocated (s : State) (f : PhcFill) : State :=
    if s.phc.st != 2 then serveHeld (f.waiting.foldl phcPass s)
    else serveHeld (fillServe (phcInsert s line false (dramLine s line)) f.waiting)

/-- PHC_WRITEBACK_ACK (R170): DRAM has the line as the write-back carried it. A line requested meanwhile is allocated again; in
DRAINING, where nothing is allocated, a re-dirtied entry is written back again. -/
def writebackAck (s : State) (line : Nat) : State :=
  match s.phc.evict.find? fun e => e.line == line with
  | none => s
  | some e =>
    let s := putDramLine s line e.wb
    if s.phc.st == 3 && e.redirty then
      updPhc s fun p => { p with evict := p.evict.map fun x => if x.line == line then { x with wb := x.data, redirty := false } else x }
    else
      let s := updPhc s fun p => { p with evict := p.evict.filter fun x => x.line != line }
      if e.touched && s.phc.st == 2 then phcInsert s line e.redirty e.data else s

/-- PHC_ERR_WINDOW_END (R176): after 2^20 accesses the ways' counts reset. -/
def errWindowEnd (s : State) : State :=
  if s.phc.accesses < 1048576 then s else
  (List.range 4).foldl (fun s k => wr s (Reg.phcWayErr k) 0) (updPhc s fun p => { p with accesses := 0 })

/-- PHC_WAY_DISABLE_DONE (R176). -/
def wayDisabled (s : State) (way set : Nat) : State :=
  match s.phc.disabling with
  | some (w, st) =>
    if w != way || st != set then s else
    let s := updPhc s fun p => { p with disabling := none, rowKnown := false, lines := p.lines.filter fun x => x.1 % 16 != way }
    raise (wr (orReg s Reg.phcWayDis (2 ^ way)) Reg.phcFault (2 ^ 31 + way * 2 ^ 24 + set)) 51
  | none => s

/-! ## States (R172) -/

/-- Every line invalid. What the replacement bits hold after it is not stated: they are cleared (DESIGN CHOICE, log entry 185). A way
that is being disabled stays so until its pass ends. -/
def phcClear (s : State) : State := updPhc s fun p => { p with lines := [], trees := [] }
/-- PHC_INVALIDATION_DONE: the held requests are served. -/
def invalidationDone (s : State) : State :=
  if s.phc.st != 1 then s else
  serveHeld (phcTo (phcClear s) (if enabled s .phc && !s.phc.drainPs4 then 2 else 0))
/-- Exit from PS4 with EN 1: invalidate and enable. An invalidation that still runs goes on. -/
def phcWake (s : State) : State :=
  if !s.phc.drainPs4 then s else
  let s := updPhc s fun p => { p with drainPs4 := false, wake := false }
  if s.phc.st == 0 && enabled s .phc then phcTo s 1 else s
/-- The drain starts: EN written 0, or entry to PS4. -/
def phcDrain (s : State) (ps4 : Bool) : State :=
  if s.phc.st != 2 then s else phcTo (updPhc s fun p => { p with drainPs4 := ps4 }) 3
/-- PHC_DRAIN_DONE: every dirty line is in DRAM, every line invalid, source 50. -/
def drainDone (s : State) : State :=
  if s.phc.st != 3 then s else
  let s := writeBack s s.phc.lines
  let s := s.phc.evict.foldl (fun s e => putDramLine s e.line e.data) s
  let s := phcClear (updPhc s fun p => { p with evict := [] })
  let s := raise (phcTo s 0) 50
  if s.phc.drainPs4 then (if s.phc.wake then phcWake s else s)
  else if enabled s .phc then phcTo s 2 else s
/-- EN written 1 (Table 6-3). -/
def phcEnable (s : State) : State := if s.phc.st == 0 && !s.phc.drainPs4 then phcTo s 2 else s

/-! ## Range and set-and-way operations (R173, R175) -/

/-- A write of PHC_RNG_CMD: at once with zero counts outside ENABLED or for LEN 0, else the engine runs (R173). An operation that
ends at once shows WALK 0, and so does one with as many lines as sets (DESIGN CHOICE, log entry 157). -/
def rangeStart (s : State) (op : Nat) : State :=
  if op = 0 then s else
  let base := rdField s Reg.phcRngBase 35 6
  let len := rdField s Reg.phcRngLen 36 0
  let g := (rdField s Reg.phcRngRes 15 0 + 1) % 65536
  let n := (len + 63) / 64
  if len = 0 || s.phc.st != 2 then
    raise (wr (wr (wr s Reg.phcRngRes (2 ^ 31 + op * 2 ^ 29 + g)) Reg.phcRngWb 0) Reg.phcRngInv 0) 49
  else
    let walk := if phcSets s < n then 1 else 0
    let s := wr (wrField s (Reg.sts .phc) 18 18 1) Reg.phcRngRes (op * 2 ^ 29 + walk * 2 ^ 28 + g)
    updPhc s fun p => { p with rng := some { lo := base, hi := base + n, op } }

/-- PHC_RANGE_DONE (R173 step 4): every line not visited yet is visited, and the counts are written. -/
def rangeDone (s : State) : State :=
  match s.phc.rng with
  | none => s
  | some r =>
    let ls := (s.phc.lines.map fun x => x.2.line) ++ s.phc.evict.map fun e => e.line
    let s := (ls.filter fun l => r.lo ≤ l && l < r.hi).foldl visitLine s
    let n := s.phc.rng.getD r
    let s := updPhc s fun p => { p with rng := none }
    let s := wrField (wrField s (Reg.sts .phc) 18 18 0) Reg.phcRngRes 31 31 1
    raise (wr (wr s Reg.phcRngWb n.wb) Reg.phcRngInv n.inv) 49

/-- Is a set and way operation's word legal (R175)? -/
def swopLegal (s : State) (v : Nat) : Bool :=
  bitsOf v 31 30 != 0 && bitsOf v 20 17 < phcWays s && bitsOf v 16 0 < phcSets s
/-- A write of PHC_SWOP. -/
def swop (s : State) (v : Nat) : State :=
  let way := bitsOf v 20 17
  if s.phc.st != 2 || wayOff s way then s else
  match nget s.phc.lines (slotKey (bitsOf v 16 0) way) with
  | none => s
  | some x =>
    let k := slotKey (bitsOf v 16 0) way
    let s := rangePass s x.line
    match nget s.phc.lines k with | some y => lineOp s (bitsOf v 31 30) k y | none => s

end Sys2Proof.Machine
end

