-- ==== Sys2Proof/Machine/Evf.lean ====
section
/-! DEFINITION. The event fabric's own commands: doorbells, holdoff, timers and watchdogs (R62 to R67). -/

namespace Sys2Proof.Machine

/-- EVF_DOORBELL: writing 1 to bit i raises source 160 + i, with the initiator as payload (Tables 2-10, 15-5). -/
def doorbell (s : State) (i : Initiator) (v : Nat) : State :=
  ((List.range 32).filter fun k => bitOf v k).foldl (fun s k => raiseWith s (160 + k) (le 1 (initCode i))) s

/-- The lowest pending source of a core (R64). -/
def firstPending (s : State) (k : Nat) : Option Nat :=
  (List.range 256).find? fun n => bitOf (rd s (Reg.cpend k (n / 32))) (n % 32)
/-- A core's event interrupt, asserted while any bit of its EVF_CPEND registers is 1 (R64). -/
def coreIrq (s : State) (k : Nat) : Bool := (List.range 8).any fun w => rd s (Reg.cpend k w) != 0

/-- The holdoff of a vendor vector ends; merged raises are sent as one message, which starts a new holdoff (R65). -/
def holdoffEnd (s : State) (p : Port) (v : Nat) : State :=
  let x := getPort s p
  let h := ngetD x.hold v {}
  if !h.running then s else
  let s := setPort s p { x with hold := nset x.hold v {} }
  if h.merged then msixSend s p v else s

/-- The next compare value above the timebase (R66): CMP plus the least multiple of the period. -/
def tmrNext (cmp per tb : Nat) : Nat := cmp + per * ((tb - cmp) / per + 1)

/-- TIMER_FIRE (R66): an armed timer at or past its compare value. -/
def timerFire (s : State) (n : Nat) : State :=
  let cmp := rd s (Reg.tmrCmp n)
  if !(bitOf (rd s (Reg.tmrCtl n)) 0 && cmp ≤ s.clk.tb) then s else
  let s := raiseWith s (224 + n) []
  let per := rd s (Reg.tmrPer n)
  if per = 0 then wrField s (Reg.tmrCtl n) 0 0 0 else wr s (Reg.tmrCmp n) (tmrNext cmp per s.clk.tb)

/-- A core's clock is stopped: in a non-operational state, AP0 to AP7 with no pending event (Table 16-5, R64). -/
def coreStopped (s : State) (k : Nat) : Bool :=
  s.chip.held || (3 ≤ s.pwr.ps && k < 8 && !coreIrq s k)

/-- Counts that make watchdog k expire: TIMEOUT in units of 2^16 (Table 2-15). -/
def wdLimit (s : State) (k : Nat) : Nat := rdField s (Reg.wdCtl k) 31 8 * 65536
/-- Watchdog k counts (R67): enabled, not past its second expiry, its core's clock running. The spec does not say whether it
counts on after its second expiry: it stops until a kick or a write of EN (DESIGN CHOICE, log entry 147). -/
def wdRuns (s : State) (k : Nat) : Bool :=
  bitOf (rd s (Reg.wdCtl k)) 0 && rdField s (Reg.wdSts k) 1 0 < 2 && !coreStopped s k

/-- Running watchdogs count n timebase counts, up to the TIMEOUT at which WATCHDOG_EXPIRY is due. -/
def wdCount (s : State) (n : Nat) : NMap Nat :=
  (List.range 10).foldl (fun m k => if wdRuns s k then nset m k (min (ngetD m k 0 + n) (wdLimit s k)) else m) s.clk.wd

/-- A kick, or a write of EN: STAGE 0 and the count from 0 (R67). -/
def wdRestart (s : State) (k : Nat) : State :=
  updClk (wrField s (Reg.wdSts k) 1 0 0) fun c => { c with wd := nset c.wd k 0 }

/-- Watchdog k has counted its TIMEOUT. -/
def wdDue (s : State) (k : Nat) : Bool := wdRuns s k && wdLimit s k ≤ ngetD s.clk.wd k 0

/-- WATCHDOG_EXPIRY without its warm reset (R67): STAGE advances, the source is raised with STAGE, the count restarts. -/
def wdExpire (s : State) (k : Nat) : State :=
  let st := rdField s (Reg.wdSts k) 1 0 + 1
  raiseWith (updClk (wrField s (Reg.wdSts k) 1 0 st) fun c => { c with wd := nset c.wd k 0 }) (238 + k) (le 1 st)

end Sys2Proof.Machine
end

