-- ==== Sys2Proof/Machine/Thermal.lean ====
section
/-! DEFINITION. The thermal round (R390 to R400) and the adaptive voltage-and-frequency loops (R408). Temperatures are in
sixteenths of a degree. The round counts; the declarations it leads to are commands of their own. -/

namespace Sys2Proof.Machine

namespace Reg
def thmBroken : Nat := 0x90018
def thmCause : Nat := 0x900B0
def thmExtLim : Nat := 0x90070
def thmThrot : Nat := 0x90074
def pwrCause : Nat := 0xA0030
def pwrAvcfg : Nat := 0xA0034
def pwrAvsel : Nat := 0xA0038
def pwrUndeliv : Nat := 0xA0044
def pwrFbud (p : Nat) : Nat := 0xA0020 + 4 * p
end Reg

/-- The neighbours of Table 16-1. -/
def neighbours (i : Nat) : List Nat :=
  match i with
  | 0 => [1, 12] | 1 => [0, 12] | 2 => [3, 6] | 3 => [2, 4, 7] | 4 => [3, 5, 8] | 5 => [4, 9]
  | 6 => [7, 2] | 7 => [6, 8, 3] | 8 => [7, 9, 4] | 9 => [8, 5] | 10 => [11, 12] | 11 => [10, 12]
  | 12 => [0, 10, 13] | 13 => [14, 12] | 14 => [13, 15] | 15 => [13, 14] | _ => []

/-- A conversion within −40 to 150 °C (R390). -/
def validTemp (r : Reading) : Option Int :=
  match r with
  | some t => if -640 ≤ t && t ≤ 2400 then some t else none
  | none => none

/-- Insertion into a rising list. -/
def insertInt (x : Int) : List Int → List Int
  | [] => [x]
  | y :: r => if x ≤ y then x :: y :: r else y :: insertInt x r
/-- Twice the median of a non-empty list: for an even count the sum of the middle two (log entry 20). -/
def median2 (l : List Int) : Int :=
  let m := l.foldr insertInt []
  let n := m.length
  if n % 2 = 1 then 2 * m.getD (n / 2) 0 else m.getD (n / 2 - 1) 0 + m.getD (n / 2) 0

/-- Twice the reference of sensor i (R391): the median of three neighbours, the mean of two, one's reading, or the median
of every valid on-die sensor that is not broken. -/
def reference2 (good : List (Option Int)) (i : Nat) : Int :=
  let ns := (neighbours i).filterMap fun k => good.getD k none
  if ns.isEmpty then median2 (good.filterMap id) else median2 ns

/-- Sensor i declared broken, in THM_BROKEN. -/
def isBroken (s : State) (i : Nat) : Bool := bitOf (rd s Reg.thmBroken) i

/-- The band that holds T (Table 16-4). -/
def bandOf (t : Int) : Nat := if t < 0 then 0 else if t < 640 then 1 else if t < 1120 then 2 else if t ≤ 1520 then 3 else 4
/-- A band's lower bound. -/
def bandLow (b : Nat) : Int := if b = 1 then 0 else if b = 2 then 640 else if b = 3 then 1120 else 1520

/-- One round of a threshold's counts (R395): each restarts from 0 in a round that breaks its condition. -/
def threshRound (x : Thresh) (setHit clearHit : Bool) : Thresh :=
  { x with up := if setHit then x.up + 1 else 0, down := if clearHit then x.down + 1 else 0 }

/-- A threshold whose count is complete changes. -/
def threshDue (x : Thresh) : Bool := (!x.inForce && 8 ≤ x.up) || (x.inForce && 8 ≤ x.down)
def threshFlip (x : Thresh) : Thresh := { inForce := !x.inForce, up := 0, down := 0 }

/-- T rounded to the nearest kelvin (R394). -/
def kelvin (t : Int) : Int := (t + 8) / 16 + 273

/-- A host threshold of feature 0x04 for a round, 5 °C of hysteresis (R394): its new state and whether it came into force. -/
def hostThresh (x : Thresh) (setHit clearHit : Bool) : Thresh × Bool :=
  let y := threshRound x setHit clearHit
  if threshDue y then (threshFlip y, !y.inForce) else (y, false)

/-- The over- and under-temperature thresholds of one controller for a round (R394, R94). -/
def hostTemps (s : State) (p : Port) (k : Int) : State :=
  let x := getPort s p
  let hi : Int := ((ngetD x.feat 0x0400 368 : Nat) : Int)
  let lo : Int := ((ngetD x.feat 0x0401 0 : Nat) : Int)
  let o := hostThresh x.tOver (hi ≤ k) (k ≤ hi - 5)
  let u := hostThresh x.tUnder (k ≤ lo) (lo + 5 ≤ k)
  let s := setPort s p { x with tOver := o.1, tUnder := u.1 }
  if (o.2 || u.2) && aerEnabled x 1 then asyncEvent s p 1 1 2 else s

/-- Readings of the sensors, their disagreement and counts (R391); a broken sensor keeps its count. -/
def sensorsRound (s : State) (die : List Reading) : List Sensor :=
  let good := (List.range 16).map fun i => if isBroken s i then none else validTemp (die.getD i none)
  (List.range 16).map fun i =>
    let old := s.thm.sensors.getD i {}
    let r := validTemp (die.getD i none)
    if isBroken s i then { old with reading := r, disagree := false } else
    match r with
    | none => { reading := none, disagree := false, count := old.count + 1 }
    | some t =>
      let d := 2 * t - reference2 good i
      let bad := d > 384 || d < -384
      { reading := some t, disagree := bad, count := if bad then old.count + 1 else 0 }

/-- The reported temperature (R393): the highest among sensors valid, not broken and not due to be declared broken. -/
def reported (s : State) (l : List Sensor) : Option Int :=
  ((List.range 16).filterMap fun i =>
    let x := l.getD i {}
    if isBroken s i || 8 ≤ x.count then none else x.reading).foldl
    (fun a t => match a with | none => some t | some m => some (max m t)) none

/-- One external input's round (R392). -/
def extRound (s : State) (i : Nat) (x : ExtInput) (r : Reading) : ExtInput :=
  if !x.enabled || isBroken s (16 + i) then x else
  let lim : Int := bitsOf (rd s Reg.thmExtLim) (8 * i + 7) (8 * i)
  match r with
  | none => { x with reading := none, up := 0, down := 0 }
  | some t => { x with
      reading := some t
      up := if lim * 16 ≤ t then x.up + 1 else 0
      down := if t ≤ (lim - 5) * 16 then x.down + 1 else 0 }

/-- One supply monitor's round (R400). -/
def railRound (x : Rail) (r : Option Nat) : Rail :=
  match r with
  | none => { x with mv := none }
  | some v => { x with mv := some v, count := if v < x.lo || x.hi < v then x.count + 1 else 0 }

/-- The band's counts of a round (R399): rounds in a higher band with the lowest of them, and rounds more than 2 °C below
the present band (DESIGN CHOICE, log entry 207). -/
def bandRound (x : Thm) (t : Int) : Thm :=
  let b := bandOf t
  if !x.seen then { x with seen := true, band := b, bandUp := 0, bandDown := 0, lowest := b } else
  let up := x.band < b
  { x with
    bandUp := if up then x.bandUp + 1 else 0
    lowest := if up then (if x.bandUp = 0 then b else min x.lowest b) else x.band
    bandDown := if 0 < x.band && t < bandLow x.band - 32 then x.bandDown + 1 else 0 }

/-- External inputs found beyond their limits this round are broken at once (R392). -/
def extBroken (s : State) (ext : List Reading) (i : Nat) : State :=
  let x := s.thm.ext.getD i {}
  if x.enabled && !isBroken s (16 + i) && (ext.getD i none).isNone then
    raise (orReg (orReg s Reg.thmBroken (2 ^ (16 + i))) Reg.thmCause 0x10) 110
  else s

/-- THERMAL_ROUND (R390): readings and counts. A round with no valid on-die sensor sets NOSENSOR (R393). -/
def thermalRound (s : State) (die ext : List Reading) (rails : List (Option Nat)) : State :=
  let sensors := sensorsRound s die
  let s0 := (List.range 4).foldl (fun s i => extBroken s ext i) s
  let exts := (List.range 4).map fun i => extRound s i (s.thm.ext.getD i {}) (ext.getD i none)
  let rls := (List.range 12).map fun i => railRound (s.thm.rails.getD i {}) (rails.getD i none)
  let s := updThm s0 fun x => { x with sensors := sensors, ext := exts, rails := rls }
  match reported s sensors with
  | none => if s.thm.noSensor then s else
      raise (orReg (updThm s fun x => { x with noSensor := true }) Reg.thmCause 0x80) 108
  | some t =>
    let s := updThm s fun x => { bandRound x t with
      temp := t
      tempMax := if x.seen then max x.tempMax t else t
      warn := threshRound x.warn (1520 ≤ t) (t ≤ 1440)
      throttle := threshRound x.throttle (1632 ≤ t) (t ≤ 1552)
      shut := threshRound x.shut (1840 ≤ t) false
      coolCount := if x.shutdown && t < 1360 then x.coolCount + 1 else 0
      warnRounds := if x.warn.inForce then x.warnRounds + 1 else x.warnRounds
      throtRounds := if x.throttle.inForce then x.throtRounds + 1 else x.throtRounds }
    hostTemps (hostTemps s .a (kelvin t)) .b (kelvin t)

/-- SENSOR_BROKEN (R391): the eighth consecutive round of disagreeing or being invalid. -/
def sensorBroken (s : State) (i : Nat) : State :=
  if i < 16 && !isBroken s i && 8 ≤ (s.thm.sensors.getD i {}).count then
    raise (orReg (orReg s Reg.thmBroken (2 ^ i)) Reg.thmCause 0x10) 108
  else s

/-- The throttle is in force: its threshold, or an external input over its limit (R396, R392). -/
def throttled (s : State) : Bool := s.thm.throttle.inForce || s.thm.ext.any fun x => x.isOver

/-- A change of THROTTLED sets PWR_CAUSE.THROT and raises source 115 (Table 16-11). -/
def throttleEdge (before : Bool) (s : State) : State :=
  if throttled s = before then s else raise (orReg s Reg.pwrCause 2) 115

/-- EXT_LIMIT (R392). -/
def extLimit (s : State) (i : Nat) : State :=
  let x := s.thm.ext.getD i {}
  let b := throttled s
  if !x.isOver && 8 ≤ x.up then
    throttleEdge b (raise (orReg (updThm s fun t => { t with ext := modAt t.ext i fun y => { y with isOver := true, up := 0 } })
      Reg.thmCause 0x40) 109)
  else if x.isOver && 8 ≤ x.down then
    throttleEdge b (updThm s fun t => { t with ext := modAt t.ext i fun y => { y with isOver := false, down := 0 } })
  else s

/-- WARNING_CHANGE (R395). -/
def warningChange (s : State) : State :=
  if threshDue s.thm.warn then raise (orReg (updThm s fun x => { x with warn := threshFlip x.warn }) Reg.thmCause 2) 105
  else s

/-- THROTTLE_CHANGE (R396). -/
def throttleChange (s : State) : State :=
  if threshDue s.thm.throttle then
    throttleEdge (throttled s)
      (raise (orReg (updThm s fun x => { x with throttle := threshFlip x.throttle }) Reg.thmCause 4) 106)
  else s

/-- BAND_CHANGE (R399): the band the counts decided, with source 107. -/
def bandChange (s : State) : State :=
  let x := s.thm
  let set := fun b => raise (orReg (updThm s fun t => { t with band := b, bandUp := 0, bandDown := 0 }) Reg.thmCause 8) 107
  if 8 ≤ x.bandUp then set x.lowest else if 8 ≤ x.bandDown then set (bandOf x.temp) else s

/-- SUPPLY_OUT_OF_WINDOW (R400). -/
def supplyOut (s : State) (v : Nat) : State :=
  let x := s.thm.rails.getD v {}
  if 8 ≤ x.count then
    let mv := x.mv.getD 0
    raise (orReg (updThm s fun t => { t with rails := modAt t.rails v fun y => { y with low := mv < y.lo, high := y.hi < mv, count := 0 } })
      Reg.thmCause 0x20) 109
  else s

/-- The flash budget in force (R401, R396, PWR_BUDGET). Under the throttle it is THROTPCT's share of the state's budget, as the worked
example of R396 takes it; PS2's other caps apply beside it (DEDUCED, log entry 175). -/
def flashBudget (s : State) : Nat :=
  if 3 ≤ s.pwr.ps then 0 else
  let b := rd s (Reg.pwrFbud s.pwr.ps)
  if throttled s then b * rdField s Reg.thmThrot 7 0 / 256 else b

/-- Which action of Table 16-7 the least slack takes. -/
def avfsStep (x : Avfs) (slack lo hi : Int) : Avfs :=
  if slack < 0 then { x with fdiv := min 8 (x.fdiv + 1) }
  else if slack < lo then (if x.volt < x.vmax then { x with volt := x.volt + 1 } else { x with fdiv := min 8 (x.fdiv + 1) })
  else if hi < slack then
    (if 0 < x.fdiv then { x with fdiv := x.fdiv - 1 } else if x.vmin < x.volt then { x with volt := x.volt - 1 } else x)
  else x

/-- AVFS_EVALUATION (R408): one island's loop on its four monitors' slack. -/
def avfsEval (s : State) (isl : Nat) (slack : List Int) : State :=
  if 47 ≤ isl then s else
  match slack with
  | [] => s
  | x0 :: rest =>
    let least := rest.foldl min x0
    let x := ngetD s.pwr.avfs isl {}
    let y := avfsStep x least (rdField s Reg.pwrAvcfg 7 0) (rdField s Reg.pwrAvcfg 15 8)
    let sel := rd s Reg.pwrAvsel
    let s := updPwr s fun p => { p with
      avfs := nset p.avfs isl y
      minSlack := if sel = isl then min p.minSlack least else p.minSlack }
    if x.fdiv = 0 && 0 < y.fdiv then raise (orReg s Reg.pwrCause 8) 116 else s

end Sys2Proof.Machine
end

