-- ==== Sys2Proof/Machine/Flash.lean ====
section
/-! DEFINITION. Couriers, power tokens, page-group allocation, the seal buffers with P and Q, superblock opening, sealing and
failures, and erases (R182 to R205, R223 to R229, R241 to R243, R250). -/

namespace Sys2Proof.Machine

/-! ## Payloads (Table 8-2) and GF(2^8) over payload bytes (R225) -/

def mkPayload (data : LetterData) (letter nsid kind wsn : Nat) (md : BitVec 128) : Payload :=
  let m : SlotMeta := md ++ BitVec.ofNat 64 wsn ++ BitVec.ofNat 8 kind ++ BitVec.ofNat 8 nsid ++ BitVec.ofNat 48 letter
  m ++ data
def pData (p : Payload) : LetterData := p.extractLsb' 0 32768
def pLetter (p : Payload) : Nat := (p.extractLsb' 32768 48).toNat
def pNsid (p : Payload) : Nat := (p.extractLsb' 32816 8).toNat
def pKind (p : Payload) : Nat := (p.extractLsb' 32824 8).toNat
def pWsn (p : Payload) : Nat := (p.extractLsb' 32832 64).toNat
def pMd (p : Payload) : BitVec 128 := p.extractLsb' 32896 128
/-- A filler slot (R139, Table 8-2). -/
def filler : Payload := mkPayload 0 0xFFFFFFFFFFFF 0 0 0 0
def isFiller (p : Payload) : Bool := pKind p == 0

/-! ## Codewords on the medium (R206, R208) -/

/-- The whitener's Galois LFSR, x^32 + x^22 + x^2 + x + 1, one shift to the right. -/
def lfsrNext (r : Nat) : Nat := if r % 2 = 1 then (r / 2) ^^^ 0x80200003 else r / 2
/-- Its first n output bits, the first lowest: bit 0 of the register, taken before each shift. -/
def lfsrBits : Nat → Nat → Nat
  | 0, _ => 0
  | n + 1, r => r % 2 + 2 * lfsrBits n (lfsrNext r)
/-- The whitening of a slot's codeword, seeded with its PPA; whitening again removes it. -/
def whiten (ppa : Nat) (c : Codeword) : Codeword := c ^^^ BitVec.ofNat 36864 (lfsrBits 36864 (ppa % 2 ^ 32 ||| 2 ^ 31))
/-- A circulant times a block of 256 bits: row i of a shift k has its 1 in column i + k (R209; DEDUCED, log entry 160); 0xFFFF is
a zero block. -/
def circ (h : Nat) (x : BitVec 256) : BitVec 256 := if h = 0xFFFF then 0 else x.rotateRight h
/-- Row r of the base matrix times the 129 blocks of a payload. -/
def rowSum (p : Payload) (r : Nat) : BitVec 256 :=
  (List.range 129).foldl (fun a c => a ^^^ circ (Config.baseMatrix (144 * r + c)) (p.extractLsb' (256 * c) 256)) 0
/-- The 15 parity blocks, row by row along the dual diagonal: block r of a row makes the row's sum zero (R209). -/
def parityBlocks (p : Payload) : List (BitVec 256) :=
  (List.range 15).foldl (fun l r =>
    let before := if r = 0 then 0 else circ (Config.baseMatrix (144 * r + 128 + r)) (l.getLast?.getD 0)
    l ++ [(rowSum p r ^^^ before).rotateLeft (Config.baseMatrix (144 * r + 129 + r))]) []
/-- The 3,840 parity bits of a payload (R209). -/
def ldpcParity (p : Payload) : BitVec 3840 :=
  (parityBlocks p).zipIdx.foldl (fun (a : BitVec 3840) (b : BitVec 256 × Nat) => a ||| ((b.1.setWidth 3840 : BitVec 3840) <<< (256 * b.2))) 0
/-- The codeword of a payload (Table 8-1). -/
def codeword (p : Payload) : Codeword := ldpcParity p ++ p
/-- A slot programmed with a payload. -/
def putSlot (m : NMap Codeword) (ppa : Nat) (p : Payload) : NMap Codeword := nset m ppa (whiten ppa (codeword p))
/-- The payload that a slot's codeword carries, its whitening removed. -/
def slotPayload (s : State) (ppa : Nat) : Option Payload :=
  (nget s.flash.media ppa).map fun c => (whiten ppa c).extractLsb' 0 33024

/-- A byte repeated over a payload. -/
def everyByte (v : Nat) : Payload := BitVec.ofNat 33024 (v * ((2 ^ 33024 - 1) / 255))
/-- Every byte multiplied by g = 0x02 modulo 0x11D: shifted, and 0x1D (bits 0, 2, 3 and 4) added where its top bit was 1. -/
def gTimes (x : Payload) : Payload :=
  let top := (x >>> 7) &&& everyByte 1
  ((x &&& everyByte 0x7F) <<< 1) ^^^ top ^^^ (top <<< 2) ^^^ (top <<< 3) ^^^ (top <<< 4)
def gPowTimes : Nat → Payload → Payload
  | 0, x => x
  | n + 1, x => gPowTimes n (gTimes x)
/-- g has order 255: dividing by g^a. -/
def gDivPow (a : Nat) (x : Payload) : Payload := gPowTimes (255 - a % 255) x
/-- One byte's product. -/
def gmulByte (a b : Nat) : Nat :=
  (List.range 8).foldl (fun r i =>
    if b.testBit i then r ^^^ ((List.range i).foldl (fun v _ => if 128 ≤ v then (v * 2) % 256 ^^^ 0x1D else v * 2) a) else r) 0
/-- A payload times a byte constant. -/
def gmulConst (c : Nat) (x : Payload) : Payload :=
  (List.range 8).foldl (fun r i => if c.testBit i then r ^^^ gPowTimes i x else r) 0
/-- g^i as a byte, and a byte's inverse (its 254th power). -/
def gpow (i : Nat) : Nat := (List.range (i % 255)).foldl (fun v _ => gmulByte v 2) 1
def ginv (a : Nat) : Nat := (List.range 254).foldl (fun v _ => gmulByte v a) 1

/-! ## Registers of couriers, districts and the stripe engine -/

def chn (c off : Nat) : Nat := 0x200000 + 0x4000 * c + off
def dst (d off : Nat) : Nat := 0x140000 + 0x4000 * d + off
def str (off : Nat) : Nat := 0x70000 + off
/-- The DRAM addresses of a courier's threshold table and of its seed table (R219). -/
def ttBase (s : State) (c : Nat) : Nat := rdField s (chn c 0x80) 35 10 * 1024
def ttSeedBase (s : State) (c : Nat) : Nat := rdField s (chn c 0x88) 35 10 * 1024
def courier (s : State) (c : Nat) : Courier := ngetD s.flash.chn c {}
def modCourier (s : State) (c : Nat) (f : Courier → Courier) : State :=
  updFlash s fun x => { x with chn := nset x.chn c (f (courier s c)) }

/-- A bitmap of positions from the operations of a channel in a state. -/
def lunBits (s : State) (c : Nat) (st : FSt) : Nat :=
  (List.range 32).foldl (fun v p =>
    if s.flash.ops.any fun o => o.2.lun == lunOf c p && o.2.st == st then v + 2 ^ p else v) 0
/-- Operations queued at a courier (R186). -/
def queued (s : State) (c : Nat) : Nat := (s.flash.ops.filter fun o => lunChn o.2.lun == c && o.2.st == .queued).length

/-- A CHN register's value as a read gives it. -/
def chnView (s : State) (c off : Nat) : Nat :=
  if off = 0x4C then lunBits s c .running
  else if off = 0x50 then lunBits s c .suspended
  else if off = 0x58 then queued s c
  else if off = 8 then
    let v := rd s (chn c 8)
    setBits v 18 16 ((if lunBits s c .suspended = 0 then 0 else 1) + (if (courier s c).training.isSome then 2 else 0)
      + (if rd s (chn c 0x54) = 0 then 0 else 4))
  else if off = 0xD8 then
    let n := (courier s c).snaps.length
    setBits (setBits (rd s (chn c 0xD8)) 3 0 n) 6 4 (courier s c).snapHead
  else if 0x100 ≤ off && off < 0x300 then
    ((courier s c).snaps[((off - 0x100) / 0x40 + 8 - (courier s c).snapHead) % 8]?.map fun e => e.words.getD ((off - 0x100) % 0x40 / 4) 0).getD 0
  else if 0x1000 ≤ off && off < 0x1000 + 4320 then Config.hmat ((off - 0x1000) / 4) % 2 ^ 32
  else match findReg .chn c off with
    | some x => rd s (chn c x.start) / 2 ^ (8 * (off - x.start))
    | none => 0

/-! ## Snapshots (R372, R373) -/

/-- Capture an entry: KINDS, the LUN concerned, and the registers the selectors name. Entries take the indices 0 to 7 in turn, so that
OLDEST rises as one is popped or replaced; an index with no entry reads 0 (DEDUCED, log entry 204). -/
def snapCapture (s : State) (c kinds : Nat) (lun : Option Nat) : State :=
  let ctl := rd s (chn c 0xC0)
  let x := courier s c
  if x.snaps.length = 8 && !bitOf ctl 30 then satAdd s (chn c 0xD8) 31 16 1
  else
    let n := bitsOf ctl 27 24
    let sel (i : Nat) : Nat := let w := rd s (chn c (0xC4 + 4 * (i / 2))); if i % 2 = 0 then bitsOf w 11 0 else bitsOf w 27 16
    let regs := (List.range 8).map fun i => if i < n then chnView s c (4 * sel i) % 2 ^ 32 else 0
    let cnt := x.snapCount
    let tag := kinds * 2 ^ 16 + (match lun with | some p => 2 ^ 13 + p * 2 ^ 8 | none => 0) + cnt % 256
    let words := regs ++ [tag]
    let s := modCourier s c fun x => { x with
      snapCount := x.snapCount + 1
      snapHead := if x.snaps.length = 8 then (x.snapHead + 1) % 8 else x.snapHead
      snaps := (if x.snaps.length = 8 then x.snaps.drop 1 else x.snaps) ++ [{ words }] }
    raiseWith s (192 + c) (words.flatMap (le 4))

/-- Does a trigger of Table 15-2, by its bit in CHN_SNPCTL, fire: armed, enabled and admitted by the filter? -/
def snapFires (s : State) (c bit : Nat) (lun : Option Nat) : Bool :=
  let ctl := rd s (chn c 0xC0)
  bitOf ctl 31 && bitOf ctl bit && !(bitOf ctl 15 && (match lun with | some p => p != bitsOf ctl 20 16 | none => false))
/-- A trigger by its bit in CHN_SNPCTL and its KINDS bit. -/
def snapTrigger (s : State) (c bit kind : Nat) (lun : Option Nat) : State :=
  if snapFires s c bit lun then snapCapture s c (2 ^ kind) lun else s
/-- Set CHN_CAUSE bits in one courier clock, each with the LUN position it concerns: one snapshot for all of them (R372), and source c for
each 0-to-1 transition (R204). -/
def chnCausesSet (s : State) (c : Nat) (bits : List (Nat × Option Nat)) : State :=
  let new := bits.filter fun b => !bitOf (rd s (chn c 0x44)) b.1
  let s := new.foldl (fun s b => orReg s (chn c 0x44) (2 ^ b.1)) s
  let fire := new.filter fun b => snapFires s c b.1 b.2
  let s := if fire.isEmpty then s else snapCapture s c (sumOf (fire.map fun b => 2 ^ (3 + b.1))) (fire.findSome? fun b => b.2)
  new.foldl (fun s b => if bitOf (rd s (chn c 0x48)) b.1 then raise s c else s) s

/-- Set a CHN_CAUSE bit: a 0-to-1 transition triggers a snapshot and, where enabled, raises source c (R204). -/
def chnCauseSet (s : State) (c bit : Nat) (lun : Option Nat := none) : State :=
  if bitOf (rd s (chn c 0x44)) bit then s else
  let s := orReg s (chn c 0x44) (2 ^ bit)
  let s := snapTrigger s c bit (3 + bit) lun
  if bitOf (rd s (chn c 0x48)) bit then raise s c else s

/-- Set a DST_CAUSE bit (R205). -/
def dstCauseSet (s : State) (d bit : Nat) : State := setCause s (dst d 0x24) bit (33 + 2 * d)
/-- Set a STR_CAUSE bit (Table 8-16). -/
def strCauseSet (s : State) (bit : Nat) : State :=
  if bit = 1 then orReg s (str 0x24) 2 else setCause s (str 0x24) bit (if 2 ≤ bit then 103 else 101)

/-! ## Journal requests and epoch triggers -/

/-- Ask the JRC for a record group. -/
def askGroup (s : State) (o : GOwner) (w : List Want) : State := updJrc s fun j => { j with reqs := j.reqs ++ [{ owner := o, wants := w }] }

/-- Counts of MINSP (R260). -/
def minspCounts (s : State) : Nat := rdField s 0x60028 7 0 * 25000000
def inMinsp (s : State) : Bool :=
  match s.jrc.lastRoot with | some t => s.clk.tb < t + minspCounts s | none => false
/-- An epoch trigger (R264): raised at once, or when MINSP ends. -/
def epochTrig (s : State) (bit : Nat) : State :=
  if inMinsp s then updJrc s fun j => { j with trigs := if j.trigs.contains bit then j.trigs else j.trigs ++ [bit] }
  else raise (orReg s 0x60050 (2 ^ bit)) 57

/-- A block enters the grown bad-block table through the log, which holds 4,096 entries; one that finds it full waits for room there,
its block BAD at once (R253; DESIGN CHOICE, log entry 187). -/
def growBad (s : State) (cause lun block : Nat) : State :=
  let k := blkKey lun block
  let b := blkGet s.map.tab k
  if b.st = 3 then s else
  let s := updTab s fun t => blkSet t k { b with st := 3 }
  let s := updMap s fun m => { m with badLog := m.badLog ++ [{ cause, erases := b.erases, lun, block }] }
  let n := s.map.badLog.length - 1
  let s := if n < 4096 then updJrc s fun j => mirrorWrite j (0x8000 + 8 * n / 64 * 64) 64 else s
  spaceUpdate (if s.map.badLog.length = 3072 then epochTrig s 3 else s)

/-! ## Operations and tokens (R186, R199 to R202) -/

/-- The token costs that a district charges: DST_TOKCOST as it stood at the district's last enable (R199). -/
def tokCost (s : State) (d : Nat) : Nat := ngetD s.flash.cost d 0
/-- A district takes the costs that govern its charges as it is enabled. -/
def takeCost (s : State) (d : Nat) : State := updFlash s fun f => { f with cost := nset f.cost d (rd s (dst d 0x10)) }
/-- An operation's token cost in its district, and a bus transfer's. -/
def opDst (o : FOp) : Nat := lunChn o.lun / 8
def opCost (s : State) (o : FOp) : Nat :=
  let v := tokCost s (opDst o)
  match o.kind with | .read => bitsOf v 23 16 | .program => bitsOf v 15 8 | .erase => bitsOf v 7 0
def busCost (s : State) (d : Nat) : Nat := bitsOf (tokCost s d) 31 24
/-- The operation whose plane unit a channel's bus carries. -/
def busOp (s : State) (c : Nat) : Option (Nat × FOp) := (courier s c).bus.bind fun id => (nget s.flash.ops id).map fun o => (id, o)
/-- Tokens held in a district by operations and bus transfers, by reads and others: suspended operations hold none. -/
def tokHeld (s : State) (d : Nat) (readsToo : Bool) : Nat :=
  ((s.flash.ops.filter fun o => opDst o.2 == d && o.2.st == .running && (readsToo || o.2.kind != .read)).map
    fun o => opCost s o.2).foldl (· + ·) 0
  + ((List.range 8).filter fun i =>
      match busOp s (8 * d + i) with | some x => readsToo || x.2.kind != .read | none => false).length * busCost s d
/-- A district's read reserve, of the budget of the last allocation (R200, R202). -/
def tokReserve (s : State) (d : Nat) : Nat := rdField s (dst d 0x1C) 7 0 * s.flash.budget / 1024
def tokAllow (s : State) (d : Nat) : Nat := rdField s (dst d 0x14) 15 0
/-- The ERASE phase of a sanitize lends the read reserve to erases (R416). -/
def eraseLends (s : State) : Bool := s.prog.kind == 2 && s.prog.phase == 3
/-- The district's allowance covers a cost for an operation of a kind (R201). -/
def tokCovers (s : State) (d cost : Nat) (k : FKind) : Bool :=
  tokHeld s d true + cost ≤ tokAllow s d &&
    (k == .read || (k == .erase && eraseLends s) || tokHeld s d false + cost ≤ tokAllow s d - tokReserve s d)

/-- A channel's courier can start operations: active, trained, its bus not training, not in reset, flash powered (R188, R190, R199). -/
def courierRuns (s : State) (c : Nat) : Bool :=
  active s .chn c && (courier s c).training.isNone && !(courier s c).untrained && !(courier s c).reset && s.pwr.ps < 3

def opRank (o : FOp) : Nat := if o.aged then 1 else o.cls
def modOp (s : State) (id : Nat) (f : FOp → FOp) : State := updFlash s fun x => { x with ops := nmod x.ops id f }
def modCourierBus (s : State) (c : Nat) (id : Option Nat) : State := modCourier s c fun x => { x with bus := id }

/-! ### The queues (R186) -/

/-- A courier takes operations into its queues: not in its disable sequence, nor disabled, nor in reset (R203). -/
def courierTakes (s : State) (c : Nat) : Bool := running s .chn c && !(courier s c).reset
/-- An operation that its district holds enters its LUN's queue, where the queue and the courier have room. -/
def queueOp (s : State) (x : Nat × FOp) : State :=
  let c := lunChn x.2.lun
  if x.2.st == .held && courierTakes s c && queued s c < 256
      && (s.flash.ops.filter fun o => o.2.lun == x.2.lun && o.2.st == .queued).length < 16 then
    modOp s x.1 fun o => { o with st := .queued }
  else s
/-- Those that the districts hold enter in arrival order. -/
def refill (s : State) : State := s.flash.ops.foldl queueOp s

/-- Of operations, the one of the highest class, and of the earliest arrival in it. -/
def firstOf (l : List (Nat × FOp)) : Option (Nat × FOp) :=
  l.foldl (fun a x => match a with
    | none => some x
    | some y => if opRank x.2 < opRank y.2 then some x else a) none
/-- What a LUN's queue starts next (R186, R192, R194): nothing while an operation runs, the resume of a suspended operation once it
is due, until then reads only. -/
def lunNext (s : State) (lun : Nat) : Option (Nat × FOp) :=
  let mine := s.flash.ops.filter fun o => o.2.lun == lun
  if mine.any fun o => o.2.st == .running then none
  else match mine.find? fun o => o.2.st == .suspended with
    | some x => if x.2.resume then some x else firstOf (mine.filter fun o => o.2.st == .queued && o.2.kind == .read)
    | none => firstOf (mine.filter fun o => o.2.st == .queued)

/-! ### The channel bus (R187) -/

/-- The next transaction of a channel's bus, a program's plane unit or a read's codeword: of the operations that have data to transfer
those of the highest class, and of these the next LUN in round robin after the one served last (log entry 161). -/
def busNext (s : State) (c : Nat) : Option (Nat × FOp) :=
  if (busOp s c).isSome then none else
  let l := s.flash.ops.filter fun o => lunChn o.2.lun == c && o.2.st == .running && 0 < o.2.units
  let turn (o : FOp) : Nat := (lunPos o.lun + 31 - (courier s c).busLast) % 32
  l.foldl (fun a x => match a with
    | none => some x
    | some y => if opRank x.2 < opRank y.2 || (opRank x.2 == opRank y.2 && turn x.2 < turn y.2) then some x else a) none
/-- The transaction on a channel's bus ends. -/
def busEnd (s : State) (c : Nat) : State :=
  match (courier s c).bus with
  | none => s
  | some id => modOp (modCourierBus s c none) id fun o => { o with units := o.units - 1 }
/-- An operation's bus work is over: the unit under way ends, and its own data is across (log entry 161). -/
def busDone (s : State) (id : Nat) (o : FOp) : State := modOp (busEnd s (lunChn o.lun)) id fun x => { x with units := 0 }

/-! ### Grants (R201) -/

/-- Work that asks for tokens: the class of R201 (1 reads, 2 programs, 3 erases), its arrival, the operation, and whether it is a
plane unit. -/
structure Ask where
  cls : Nat
  arr : Nat
  id  : Nat
  bus : Bool
deriving DecidableEq, Repr
def tokClass (k : FKind) : Nat := match k with | .read => 1 | .program => 2 | .erase => 3
def insertAsk (a : Ask) : List Ask → List Ask
  | [] => [a]
  | b :: l => if a.cls < b.cls || (a.cls == b.cls && a.arr < b.arr) then a :: b :: l else b :: insertAsk a l
/-- What waits for a grant in a district: the first operation of each LUN's queue, a resume that is due, and the next plane unit of
each channel (DESIGN CHOICE, log entry 162), in class order and, within a class, in arrival order. -/
def asks (s : State) (d : Nat) : List Ask :=
  let l := (List.range 8).flatMap fun i =>
    let c := 8 * d + i
    if !courierRuns s c then [] else
    let luns := ((s.flash.ops.filter fun o => lunChn o.2.lun == c).map fun o => o.2.lun).dedup.filter fun l => !lunRetired s c (lunPos l)
    (luns.filterMap fun l => (lunNext s l).map fun x => { cls := tokClass x.2.kind, arr := x.2.arr, id := x.1, bus := false : Ask })
      ++ (match busNext s c with
        | some x => [{ cls := tokClass x.2.kind, arr := x.2.arr, id := x.1, bus := true : Ask }]
        | none => [])
  l.foldl (fun r a => insertAsk a r) []
def askCost (s : State) (a : Ask) (o : FOp) : Nat := if a.bus then busCost s (opDst o) else opCost s o

/-- A granted operation starts, or a suspended one resumes: after the last suspension that MAX allows SUSP_LIMIT is set (R193). -/
def startOp (s : State) (id : Nat) (o : FOp) : State :=
  let c := lunChn o.lun
  if o.st == .suspended then
    let s := modOp s id fun x => { x with st := .running, resume := false }
    if o.susp < rdField s (chn c (if o.kind == .erase then 0x14 else 0x18)) 31 24 then s
    else chnCauseSet (satAdd s (chn c 0x68) 31 0 1) c 5 (some (lunPos o.lun))
  else modOp s id fun x => { x with st := .running, units := match o.kind with | .program => 4 | .read => o.cws.length | .erase => 0 }
/-- A granted transfer takes the bus. -/
def startUnit (s : State) (id : Nat) (o : FOp) : State :=
  modCourier s (lunChn o.lun) fun x => { x with bus := some id, busLast := lunPos o.lun }

/-- A grant; one that waited longer than 1 ms counts (Table 7-13). -/
def granted (s : State) (a : Ask) (o : FOp) : State :=
  let d := opDst o
  let late : Bool := match o.wait with | some t => decide (t + 250000 < s.clk.tb) | none => false
  let s := modOp (if a.bus then startUnit s a.id o else startOp s a.id o) a.id fun x => { x with wait := none }
  if late then dstCauseSet (satAdd s (dst d 0x20) 31 0 1) d 0 else s

/-- Grants in order; once one waits for tokens, none of its class or below is granted (R201). -/
def grant (d : Nat) : List Ask → Nat → State → State
  | [], _, s => s
  | a :: r, blocked, s =>
    match nget s.flash.ops a.id with
    | none => grant d r blocked s
    | some o =>
      if blocked ≤ a.cls then s
      else if tokCovers s d (askCost s a o) o.kind then grant d r blocked (granted s a o)
      else
        let s := modOp s a.id fun x => { x with wait := some (x.wait.getD s.clk.tb) }
        let s := if o.kind == .read && tokReserve s d ≤ tokHeld s d true then dstCauseSet s d 1 else s
        grant d r a.cls s

/-- A district grants what it can: first what waits, then the transfers of the operations that this started. -/
def grants (s : State) (d : Nat) : State :=
  if !active s .dst d then s else
  let s := grant d (asks s d) 9 s
  grant d (asks s d) 9 s
/-- Start what the districts can grant. -/
def pump (s : State) : State := (List.range 4).foldl grants (refill s)

/-- A new operation, which its district holds at first. -/
def addOp (s : State) (o : FOp) : State :=
  updFlash s fun x => { x with ops := nset x.ops x.opNext { o with arr := 2 * x.opNext }, opNext := x.opNext + 1 }
def dropOp (s : State) (id : Nat) : State := updFlash s fun x => { x with ops := ndel x.ops id }
/-- A suspended operation is due to resume: it asks for a grant as a new operation of its class does (R201). -/
def askResume (s : State) (id : Nat) : State :=
  modOp s id fun x => if x.st == .suspended && !x.resume then { x with resume := true, arr := 2 * s.flash.opNext - 1 } else x

/-- One count of the timebase on the channels' buses: the transfers under way end, and the next are granted (log entry 161). -/
def busTick (s : State) : State :=
  if s.flash.ops.isEmpty then s else pump ((List.range 32).foldl busEnd s)

/-- TOKEN_ALLOCATION (R200): the allowances, then the grants. -/
def tokenAllocation (s : State) : State :=
  let budget := flashBudget s
  let oneDec := s.pwr.ps == 2 || throttled s
  let s := updFlash s fun x => { x with budget, oneDec }
  let floors := (List.range 4).map (tokReserve s)
  let demand (d : Nat) : Nat := tokHeld s d true +
    ((asks s d).map fun a => ((nget s.flash.ops a.id).map fun o => askCost s a o).getD 0).foldl (· + ·) 0
  let exc := (List.range 4).map fun d => demand d - floors.getD d 0
  let pool := budget - floors.foldl (· + ·) 0
  let tot := exc.foldl (· + ·) 0
  let part := (List.range 4).map fun d =>
    let f := floors.getD d 0
    let e := exc.getD d 0
    if tot ≤ pool then f + e + (pool - tot) / 4 else f + pool * e / tot
  let rest := budget - part.foldl (· + ·) 0
  let s := (List.range 4).foldl (fun s d => wrField s (dst d 0x14) 15 0 (part.getD d 0 + if d = 0 then rest else 0)) s
  pump s

/-! ## Opening superblocks (R223, R248, R250) -/

/-- Most-worn blocks for streams 17 and 18 in the static regime (Tables 9-6 and 9-11). -/
def mostWorn (s : State) (k : Nat) : Bool := (k == 17 || k == 18) && !bitOf (rd s 0x30098) 0

/-- The next position holding a FREE block, in round robin after the last. -/
def nextPos (s : State) (c : Nat) : Option Nat :=
  let ps := ((freeBlocks s c).map fun x => x.1).dedup
  match nget s.map.rr c with
  | some l => match ps.find? fun p => l < p with | some p => some p | none => ps.head?
  | none => ps.head?

/-- The FREE block of a LUN by wear; ties go to the lowest number. -/
def pickBlock (s : State) (c p : Nat) (most : Bool) : Option Nat :=
  let bs := (freeBlocks s c).filter fun x => x.1 == p
  let er (b : Nat) : Nat := (blkGet s.map.tab (blkKey (lunOf c p) b)).erases
  bs.foldl (fun acc x => match acc with
    | none => some x.2
    | some b => if (if most then er b < er x.2 else er x.2 < er b) then some x.2 else some b) none

def freeSbx (s : State) : Nat := ((List.range (s.map.tab.sbs.length + 1)).find? fun i => (nget s.map.tab.sbs i).isNone).getD 0

/-- Channels with a FREE block. -/
def openChannels (s : State) : List Nat := (activeChannels s).filter fun c => !(freeBlocks s c).isEmpty
/-- Open a superblock for stream k on them. -/
def openNow (s : State) (k : Nat) : State :=
  let cs := openChannels s
  let most := mostWorn s k
  let picks := cs.filterMap fun c => (nextPos s c).bind fun p => (pickBlock s c p most).map fun b => (c, p, b)
  let rows := s.flash.die.pages
  let x := freeSbx s
  let b : Sb := { sbid := s.map.sbidNext, st := 1, stream := k, narrow := picks.length < (activeChannels s).length, rows,
                  openWsn := s.map.wsn, system := 22 ≤ k,
                  members := picks.map fun q => { chn := q.1, pos := q.2.1, block := q.2.2, endrow := rows } }
  let s := updTab s fun t => picks.foldl (fun t q =>
    let key := blkKey (lunOf q.1 q.2.1) q.2.2
    blkSet t key { blkGet t key with st := 2, sbx := x }) { t with sbs := nset t.sbs x b }
  let s := updMap s fun m => { m with
    sbidNext := m.sbidNext + 1
    opens := nset m.opens k { sbx := x }
    sysSb := if 22 ≤ k then nset m.sysSb x k else m.sysSb
    rr := picks.foldl (fun r q => nset r q.1 q.2.1) m.rr }
  askGroup s (.sb x) [.desc x]
/-- Open one where Table 9-9 and R223 let it be opened. -/
def openSb (s : State) (k : Nat) : State :=
  if (nget s.map.opens k).isSome || (openChannels s).length < minWidth s || (k < 16 && freeF s ≤ 2) || !active s .str then s
  else openNow s k

/-! ## Page groups (R137, R139) -/

def modPg (s : State) (id : Nat) (f : Pg → Pg) : State := updMap s fun m => { m with pgs := nmod m.pgs id f }
def modOpen (s : State) (k : Nat) (f : OpenSb → OpenSb) : State := updMap s fun m => { m with opens := nmod m.opens k f }
def modSb (s : State) (x : Nat) (f : Sb → Sb) : State := updTab s fun t => { t with sbs := nmod t.sbs x f }

/-- The PPA of a page group's slot; 0 while it has no place. -/
def pgPpa (s : State) (id slot : Nat) : Nat :=
  match nget s.map.pgs id with
  | some g => match g.place with
    | some (x, r, m) => ((nget s.map.tab.sbs x).map fun b => b.page m r + slot).getD 0
    | none => 0
  | none => 0

/-- The first data place at or after an index in the row-major order whose member still takes page groups and is not folded. -/
def placeFrom (b : Sb) (folded : List Nat) : Nat → Nat → Option (Nat × Nat × Nat)
  | 0, _ => none
  | fuel + 1, i =>
    let ds := b.dataMems
    let r := i / max ds.length 1
    let m := ds.getD (i % max ds.length 1) 0
    if b.rows ≤ r then none
    else if r < b.endRow m && b.nextRow ≤ r && !(r == b.nextRow && folded.contains m) then some (i, r, m)
    else placeFrom b folded fuel (i + 1)

/-- Give the page groups of stream k that have no place one, in arrival order (R478). -/
def placeAll (s : State) (k : Nat) : State :=
  let s := if (nget s.map.opens k).isNone && s.map.pgs.any fun g => g.2.k == k && g.2.place.isNone && g.2.st != .done
    then openSb s k else s
  (s.map.pgs.filter fun g => g.2.k == k && g.2.place.isNone && g.2.st != .done).foldl (fun s g =>
    match nget s.map.opens k with
    | none => s
    | some o =>
      if o.closing.isSome then s else
      match nget s.map.tab.sbs o.sbx with
      | none => s
      | some b => match placeFrom b o.folded (b.rows * b.nmem + 1) o.next with
        | none => s
        | some (i, r, m) =>
          modPg (modOpen s k fun o => { o with next := i + 1 }) g.1 fun g => { g with place := some (o.sbx, r, m) }) s

/-- A new page group of a stream. -/
def newPg (s : State) (k : Nat) (h : Holder) : State × Nat :=
  let id := s.map.pgNext
  (updMap s fun m => { m with pgNext := id + 1, pgs := nset m.pgs id { k, holders := [h] } }, id)

/-- The next write sequence number (Table 8-2). -/
def takeWsn (s : State) : State × Nat := (updMap s fun m => { m with wsn := m.wsn + 1 }, s.map.wsn)
/-- Room for n more sequence numbers below WSNLIM, at which their allocation waits for the next commit (Table 10-8). -/
def wsnRoom (s : State) (n : Nat) : Bool := decide (s.map.wsn + n ≤ s.map.wsnLim)
/-- Put a payload into a page group's slot. -/
def pgPut (s : State) (id slot : Nat) (p : Payload) (h : Holder) : State :=
  modPg s id fun g => { g with
    slots := nset g.slots slot p
    used := max g.used (slot + 1)
    holders := if g.holders.contains h then g.holders else g.holders ++ [h] }

/-- A page group is complete: filler slots fill what is left, and it is handed to the courier (R139). -/
def pgClose (s : State) (id : Nat) : State :=
  modPg s id fun g => { g with
    st := .ready
    slots := (List.range 16).foldl (fun m i => if (nget m i).isSome then m else nset m i filler) g.slots
    used := 16 }

/-- Take a slot in the stream's packing page group (R137). -/
def packPut (s : State) (k : Nat) (p : Payload) (h : Holder) : State × Nat × Nat :=
  let open? := (nget s.map.packs k).filter fun id => ((nget s.map.pgs id).map fun g => g.st == .packing).getD false
  let (s, id) := match open? with
    | some id => (s, id)
    | none =>
      let (s, id) := newPg s k h
      (updMap s fun m => { m with packs := nset m.packs k id }, id)
  let slot := ((nget s.map.pgs id).map fun g => g.used).getD 0
  let s := pgPut s id slot p h
  if slot = 15 then (updMap (pgClose s id) fun m => { m with packs := ndel m.packs k }, id, slot) else (s, id, slot)

/-- Close the stream's packing page group (R139). -/
def packClose (s : State) (k : Nat) : State :=
  match nget s.map.packs k with
  | none => s
  | some id => updMap (pgClose s id) fun m => { m with packs := ndel m.packs k }

/-- A holder needs its page groups no more; a programmed one without holders is forgotten. -/
def dropHolder (s : State) (h : Holder) : State :=
  let less (g : Nat × Pg) : Nat × Pg := (g.1, { g.2 with holders := g.2.holders.filter fun x => x != h })
  updMap s fun m => { m with pgs := (m.pgs.map less).filter fun g => !(g.2.st == .done && g.2.holders.isEmpty) }

/-- All page groups that a holder has slots in are programmed. -/
def allProgrammed (s : State) (h : Holder) : Bool := s.map.pgs.all fun g => !g.2.holders.contains h || g.2.st == .done

/-! ## Folding, programs and rows (R227, R228, Table 8-7) -/

/-- Data members of the present row. -/
def rowMems (b : Sb) : List Nat := b.dataMems.filter fun m => b.nextRow < b.endRow m

def xorAt (m : NMap Payload) (i : Nat) (p : Payload) : NMap Payload := nset m i (ngetD m i 0 ^^^ p)

/-- Fold a page group of data index i into the accumulators; folding it again unfolds it. -/
def foldIn (o : OpenSb) (i : Nat) (slots : NMap Payload) : OpenSb :=
  { o with
    accP := slots.foldl (fun m e => xorAt m e.1 e.2) o.accP
    accQ := slots.foldl (fun m e => xorAt m e.1 (gPowTimes i e.2)) o.accQ }

/-- Seal the open superblock of stream k: its SBDESC group with STATE SEALED is asked for once (R478). -/
def askSeal (s : State) (k : Nat) : State :=
  match nget s.map.opens k with
  | some o => if o.asked then s else askGroup (modOpen s k fun o => { o with asked := true }) (.sb o.sbx) [.desc o.sbx]
  | none => s

/-- One round of work on stream k's row: fold what is ready, start its programs, enter SEALING when the row is folded, and
close at once a superblock in which no row can hold payload any more (Table 8-8). -/
def foldStream (s : State) (k : Nat) : State :=
  let s := placeAll s k
  match nget s.map.opens k with
  | none => s
  | some o =>
    match nget s.map.tab.sbs o.sbx with
    | none => s
    | some b =>
      if !o.durable || o.sealing || o.closing.isSome || o.asked || !running s .str then s
      else if b.rows ≤ b.nextRow then askSeal s k
      else if (rowMems b).isEmpty then
        let ends (m : Nat) (x : Member) : Member := if b.isParity m then { x with endrow := b.nextRow } else x
        let s := modSb s o.sbx fun b => { b with closed := true, members := b.members.mapIdx ends }
        askSeal s k
      else
        let s := (s.map.pgs.filter fun g => g.2.k == k && g.2.st == .ready).foldl (fun s g =>
          match g.2.place with
          | some (x, r, m) =>
            if x = o.sbx && r = b.nextRow then
              let s := modOpen s k fun o => { foldIn o (b.dataIdx m) g.2.slots with folded := o.folded ++ [m] }
              let s := modPg s g.1 fun g => { g with st := .programming }
              addOp s { kind := .program, lun := b.lun m, block := b.block m, page := r, cls := 3, pg := some g.1 }
            else s
          | none => s) s
        let done := ((nget s.map.opens k).map fun o => (rowMems b).all fun m => o.folded.contains m).getD false
        if !done then s else
        let s := modOpen s k fun o => { o with sealing := true }
        [b.pIdx, b.qIdx].foldl (fun s m =>
          addOp s { kind := .program, lun := b.lun m, block := b.block m, page := b.nextRow, cls := 3, par := some (o.sbx, m) }) s

/-- Work on every stream, then start operations. -/
def turn (s : State) : State := pump ((List.range 24).foldl foldStream s)

/-- A page group that finds the refresh queue of 4,096 full: it counts, and its superblock is the next victim (R252). -/
def refreshOver (s : State) (p : Nat) : State :=
  let s := satAdd s 0x30108 31 0 1
  match sbxOf s.map.tab p with
  | some x => updMap s fun m => { m with forced := if m.forced.contains x then m.forced else m.forced ++ [x] }
  | none => s
/-- Page groups put at the head of the refresh queue in their order, or at its end (R252). -/
def refreshHead (s : State) (ps : List Nat) : State :=
  let new := (ps.map pgBase).filter fun p => !s.map.refresh.contains p
  let fit := new.take (4096 - s.map.refresh.length)
  (new.drop fit.length).foldl refreshOver (updMap s fun m => { m with refresh := fit ++ m.refresh })
def refreshAdd (s : State) (p : Nat) : State :=
  let p := pgBase p
  if s.map.refresh.contains p then s
  else if 4096 ≤ s.map.refresh.length then refreshOver s p
  else updMap s fun m => { m with refresh := m.refresh ++ [p] }

/-- Page groups of a superblock's member that must be placed again: those at or beyond its ENDROW not yet programming. -/
def unplace (s : State) (x m from_ : Nat) : State :=
  (s.map.pgs.filter fun g => match g.2.place with
    | some (y, r, n) => y == x && n == m && from_ ≤ r && (g.2.st == .ready || g.2.st == .packing)
    | none => false).foldl (fun s g => modPg s g.1 fun g => { g with place := none }) s

def setEnd (s : State) (x m r : Nat) (fail : Bool) : State :=
  modSb s x fun b => { b with members := modAt b.members m fun y => { y with endrow := r, endfail := fail } }

/-- Close a superblock early at its row r (Table 8-8): the ENDROWs, the relocation of row r's live letters at the head of
the refresh queue, and the seal when that is durable. parity names the failed parity members, cause the STR_CAUSE bit; a parity member
that fails while the superblock closes already ends there too. -/
def closeEarly (s : State) (k : Nat) (parity : List Nat) (cause : Nat := 3) : State :=
  match nget s.map.opens k with
  | none => s
  | some o => match nget s.map.tab.sbs o.sbx with
    | none => s
    | some b =>
      let r := b.nextRow
      let ends (m : Nat) (x : Member) : Member :=
        if parity.contains m then { x with endrow := min x.endrow r } else { x with endrow := min x.endrow (r + 1) }
      if o.closing.isSome then strCauseSet (modSb s o.sbx fun b => { b with members := b.members.mapIdx ends }) cause else
      let pgs := (b.dataMems.filter fun m => r < b.endRow m && o.folded.contains m).map fun m => b.page m r
      let s := modSb s o.sbx fun b => { b with closed := true, members := b.members.mapIdx ends }
      let s := (List.range b.nmem).foldl (fun s m => unplace s o.sbx m (r + 1)) s
      let s := (b.dataMems.filter fun m => !o.folded.contains m).foldl (fun s m => unplace s o.sbx m r) s
      let s := refreshHead (modOpen s k fun o => { o with closing := some pgs }) pgs
      let s := strCauseSet s cause
      if pgs.isEmpty then askSeal s k else s

/-- The stream whose open superblock this is. -/
def streamOf (s : State) (x : Nat) : Option Nat := (s.map.opens.find? fun e => e.2.sbx == x).map fun e => e.1

/-- Unfold a page group of member m that was folded and has not been programmed (R229): its payload is XORed out from the write buffer.
Whether the read of the write buffer is uncorrectable there, which no command tells, is a free value (log entry 188); then the unfold
is impossible, and the superblock closes early with neither P nor Q of the row, the member an erasure. -/
def unfold (s : State) (k m : Nat) (b : Sb) (slots : NMap Payload) : State :=
  let (s, bad) := freshBelow s 2
  if bad = 1 then
    let (s, unit) := freshBelow s (2 ^ 30)
    closeEarly (drcReport s 0 unit) k [b.pIdx, b.qIdx]
  else
    let s := modOpen s k fun o => { foldIn o (b.dataIdx m) slots with folded := o.folded.filter (· != m) }
    strCauseSet (satAdd s (str 0x20) 31 0 1) 2
/-- A data member of an open superblock takes no further page group from the present row on (Table 8-8): FOLDING unfolds
what it folded and has not programmed, SEALING leaves the accumulators. A member whose row-r program has succeeded keeps row r: the
table does not give its ENDROW, r + 1 with ENDFAIL 0 (DESIGN CHOICE, log entry 189). -/
def endMember (s : State) (x m : Nat) : State :=
  match streamOf s x, nget s.map.tab.sbs x with
  | some k, some b =>
    match nget s.map.opens k with
    | none => s
    | some o =>
      let r := b.nextRow
      if b.isParity m then closeEarly s k [m]
      else if o.done.contains m then unplace (setEnd s x m (r + 1) false) x m (r + 1)
      else if o.sealing then
        let s := unplace (setEnd s x m (r + 1) true) x m (r + 1)
        refreshHead s ((rowMems b).filter (· != m) |>.map fun n => b.page n r)
      else
        let mine := s.map.pgs.filter fun g => g.2.place == some (x, r, m) && g.2.st == .programming
        let s := mine.foldl (fun s g => unfold s k m b g.2.slots) s
        unplace (setEnd s x m r false) x m r
  | _, _ => s

/-- Replacement slots (R197): the page group is placed and programmed again. -/
def reprogram (s : State) (id : Nat) : State := modPg s id fun g => { g with place := none, st := .ready }

/-- A data program's end. -/
def dataProgramEnd (s : State) (id : Nat) (ok : Bool) : State :=
  match nget s.map.pgs id with
  | none => s
  | some g => match g.place with
    | none => s
    | some (x, r, m) => match nget s.map.tab.sbs x with
      | none => s
      | some b =>
        if ok then
          let s := updFlash s fun f => { f with media := g.slots.foldl (fun md e => putSlot md (b.page m r + e.1) e.2) f.media }
          let s := match streamOf s x with | some k => modOpen s k fun o => { o with done := o.done ++ [m] } | none => s
          modPg s id fun g => { g with st := .done }
        else
          let s := satAdd (chnCauseSet s (lunChn (b.lun m)) 2 (some (lunPos (b.lun m)))) (chn (lunChn (b.lun m)) 0x5C) 31 0 1
          let s := endMember s x m
          growBad (reprogram s id) 2 (b.lun m) (b.block m)

/-- Both parity programs done: the accumulators clear and NEXTROW advances (R228). -/
def rowDone (s : State) (k : Nat) : State :=
  match nget s.map.opens k with
  | none => s
  | some o => match nget s.map.tab.sbs o.sbx with
    | none => s
    | some b =>
      if !(o.sealing && o.done.contains b.pIdx && o.done.contains b.qIdx) || o.closing.isSome then s else
      let s := modOpen s k fun o => { o with sealing := false, folded := [], done := [], accP := [], accQ := [] }
      modSb s o.sbx fun b => { b with nextRow := b.nextRow + 1 }

/-- A parity program's end. -/
def parityProgramEnd (s : State) (x m : Nat) (ok : Bool) : State :=
  match streamOf s x, nget s.map.tab.sbs x with
  | some k, some b =>
    match nget s.map.opens k with
    | none => s
    | some o =>
      if ok then
        let acc := if m = b.pIdx then o.accP else o.accQ
        let s := updFlash s fun f => { f with media := acc.foldl (fun md e => putSlot md (b.page m b.nextRow + e.1) e.2) f.media }
        rowDone (modOpen s k fun o => { o with done := o.done ++ [m] }) k
      else
        let s := satAdd (chnCauseSet s (lunChn (b.lun m)) 2 (some (lunPos (b.lun m)))) (chn (lunChn (b.lun m)) 0x5C) 31 0 1
        growBad (closeEarly s k [m]) 2 (b.lun m) (b.block m)
  | _, _ => s

/-- A program operation ends (PROGRAM_COMPLETE without what its holders do next). -/
def programEnd (s : State) (id : Nat) (o : FOp) (ok : Bool) : State :=
  let s := dropOp s id
  match o.pg, o.par with
  | some g, _ => dataProgramEnd s g ok
  | none, some (x, m) => parityProgramEnd s x m ok
  | none, none => s

/-- Every open superblock's members on a LUN are ended (Table 8-8, third row). -/
def endLun (s : State) (lun : Nat) : State :=
  s.map.opens.foldl (fun s e => match nget s.map.tab.sbs e.2.sbx with
    | some b => ((List.range b.nmem).filter fun m => b.lun m == lun).foldl (fun s m => endMember s e.2.sbx m) s
    | none => s) s

/-- Program operations of a LUN that is lost end as program status fails. -/
def failPrograms (s : State) (lun : Nat) : State :=
  (s.flash.ops.filter fun o => o.2.lun == lun && o.2.kind == .program).foldl (fun s o =>
    match o.2.pg with
    | some g => reprogram (dropOp s o.1) g
    | none => dropOp s o.1) s

/-! ## Erases (R241 to R243) -/

/-- Ended outcomes: 0 success, 1 failed (BAD), 2 BUS_FAULT withheld, 3 RETIRED or not erased. -/
def sbEnded (b : Sb) : Bool := (List.range b.nmem).all fun m => b.ended.any fun e => e.1 == m

def noteEnded (s : State) (x m out : Nat) : State :=
  let s := modSb s x fun b => { b with ended := if b.ended.any fun e => e.1 == m then b.ended else b.ended ++ [(m, out)] }
  match nget s.map.tab.sbs x with
  | some b => if sbEnded b then askGroup s (.sb x) [.free x] else s
  | none => s

/-- An ERASABLE superblock without pins has its member blocks erased (Table 9-3). -/
def issueErases (s : State) (x : Nat) : State :=
  match nget s.map.tab.sbs x with
  | none => s
  | some b =>
    if b.st != 4 || b.pins != 0 || b.erasing then s else
    let s := modSb s x fun b => { b with erasing := true }
    (List.range b.nmem).foldl (fun s m =>
      let lun := b.lun m
      let k := blkKey lun (b.block m)
      let e := blkGet s.map.tab k
      if lunRetired s (lunChn lun) (lunPos lun) || e.st = 4 then
        noteEnded (updTab s fun t => if e.st = 3 then t else blkSet t k { e with st := 4 }) x m 3
      else if e.st = 3 then noteEnded s x m 3
      else
        let s := updTab s fun t => blkSet t k { e with st := 6 }
        if bit32 s (rLunFlt (lunChn lun)) (lunPos lun) then noteEnded s x m 2
        else addOp s { kind := .erase, lun, block := b.block m, cls := 4 }) s

/-- A superblock becomes ERASABLE (Table 9-3). -/
def makeErasable (s : State) (x : Nat) : State :=
  issueErases (modSb s x fun b => { b with st := 4, epoch := s.jrc.gen, ended := [], erasing := false }) x

/-- A pin is dropped; the last one of an ERASABLE superblock lets it be erased (R108). -/
def unpin (s : State) (x : Nat) : State := issueErases (modSb s x fun b => { b with pins := b.pins - 1 }) x
def pin (s : State) (x : Nat) : State := modSb s x fun b => { b with pins := min (b.pins + 1) 65535 }
/-- PINS at 65,535 pins nothing new (Table 9-2). -/
def canPin (s : State) (x : Nat) : Bool := ((nget s.map.tab.sbs x).map fun b => decide (b.pins < 65535)).getD false

/-- Is a victim job still running on a superblock? -/
def jobOn (s : State) (x : Nat) : Bool := s.map.relocs.any fun r => r.2.idx.isSome && r.2.sbx == x && r.2.op != 2

end Sys2Proof.Machine
end

