-- ==== Sys2Proof/Machine/Integrity.lean ====
section
/-! DEFINITION. The codes of the memories (R297, R298, R305, R306): the layout of a DRAM unit over its device positions, its
Reed–Solomon codewords with the mask, and the outcome of a read of a DRAM unit, a JRAM unit and an SRAM word. -/

namespace Sys2Proof.Machine

/-! ## The DRAM outer code (R297, R298) -/

/-- The place of a device position's symbol in a codeword: the power of x that it stands at. Data symbols 0 to 15 lie on positions 0 to
7 and 10 to 17, check symbols 0 to 3 on 8, 9, 18 and 19; the first data symbol is the highest power (DESIGN CHOICE, log entry 184). -/
def posLoc (p : Nat) : Nat := if p < 8 then 19 - p else if p < 10 then 11 - p else if p < 18 then 21 - p else 19 - p
/-- The position of data symbol k, and of check symbol i. -/
def dataPos (k : Nat) : Nat := if k < 8 then k else k + 2
def checkPos (i : Nat) : Nat := if i < 2 then 8 + i else 16 + i
/-- One step of the division by the generator with roots 1, 2, 4 and 8, which is x^4 + 15x^3 + 54x^2 + 120x + 64. -/
def rsStep (r : List Nat) (d : Nat) : List Nat :=
  let f := d ^^^ r.headD 0
  [r.getD 1 0 ^^^ gmulByte 15 f, r.getD 2 0 ^^^ gmulByte 54 f, r.getD 3 0 ^^^ gmulByte 120 f, gmulByte 64 f]
/-- The four check symbols of 16 data symbols. -/
def rsCheck (data : List Nat) : List Nat := data.foldl rsStep [0, 0, 0, 0]
/-- The mask of a unit: CRC-32C over its 8-byte address followed by NONCE (R298). -/
def unitMask (nonce unit : Nat) : Nat := crc32c (le 8 (64 * unit) ++ le 8 nonce)
/-- The 80 bytes of a unit's burst: byte j of device position p at 4p + j. Byte j of every position is codeword j; data byte b is data
symbol b / 4 of codeword b mod 4; check byte i of every codeword carries byte i of the mask. -/
def unitBurst (nonce unit : Nat) (data : BitVec 512) : BitVec 640 :=
  let sym (j k : Nat) : Nat := (data.extractLsb' (8 * (4 * k + j)) 8).toNat
  let place (b : BitVec 640) (p j v : Nat) : BitVec 640 := b ||| (BitVec.ofNat 640 v <<< (8 * (4 * p + j)))
  (List.range 4).foldl (fun b j =>
    let ds := (List.range 16).map (sym j)
    let b := ds.zipIdx.foldl (fun b x => place b (dataPos x.2) j x.1) b
    (rsCheck ds).zipIdx.foldl (fun b x => place b (checkPos x.2) j (x.1 ^^^ unitMask nonce unit / 256 ^ x.2 % 256)) b) 0

/-- Syndrome m of codeword j of a burst without its mask. The code is linear, so that what was written adds nothing to it: a read's
syndromes are those of its error pattern. -/
def syndrome (b : BitVec 640) (j m : Nat) : Nat :=
  (List.range 20).foldl (fun v p => v ^^^ gmulByte (b.extractLsb' (8 * (4 * p + j)) 8).toNat (gpow (m * posLoc p))) 0
def syndromes (b : BitVec 640) (j : Nat) : List Nat := (List.range 4).map (syndrome b j)
/-- The error pattern of a poisoned unit: each check byte XORed with 0xFF (R304). -/
def poisonBits : BitVec 640 :=
  (List.range 4).foldl (fun b i => b ||| (BitVec.ofNat 640 0xFFFFFFFF <<< (32 * checkPos i))) 0
/-- The one position whose single error gives these syndromes: each is the one before it times α to its place. -/
def oneError (s : List Nat) : Option Nat :=
  if s.headD 0 = 0 then none else
  (List.range 20).find? fun p => (List.range (s.length - 1)).all fun m => s.getD (m + 1) 0 == gmulByte (s.getD m 0) (gpow (posLoc p))
/-- The syndromes with an erased position taken out. -/
def eraseSyn (p : Nat) (s : List Nat) : List Nat :=
  (List.range 3).map fun m => s.getD (m + 1) 0 ^^^ gmulByte (s.getD m 0) (gpow (posLoc p))
/-- The decode of a burst (Table 12-1, R299): all non-zero codewords with one error on the same position are corrected; with a position
erased, what the erasure alone accounts for is that position's correction, and one further position is corrected. -/
def decodeBurst (erased : Option Nat) (b : BitVec 640) : UnitReport :=
  let syn : List (List Nat) := (List.range 4).map (syndromes b)
  if syn.all fun s => s.all (· == 0) then .clean
  else if syn == (List.range 4).map (syndromes poisonBits) then .poison
  else
    let rest : List (List Nat) := (match erased with | some p => syn.map (eraseSyn p) | none => syn).filter fun s => s.any fun v => v != 0
    match rest.map oneError with
    | [] => .corrected (erased.getD 0)
    | some p :: l => if some p != erased && l.all (· == some p) then .corrected p else .ue
    | none :: _ => .ue

/-! ## JRAM and SRAM (R305, R306) -/

/-- Bytes of a JRAM unit's codeword of 72 bytes that are in error. -/
def badBytes (b : BitVec 640) : Nat := ((List.range 72).filter fun i => b.extractLsb' (8 * i) 8 != 0).length
/-- The outer code of JRAM corrects up to 3 bytes, and detects up to 5; more are taken as detected too (DESIGN CHOICE, log entry 184). A
burst that the die flagged counts as a correction. -/
def jramReport (r : UnitRead) : UnitReport :=
  if 3 < badBytes r.err then .ue else if 0 < badBytes r.err || r.flag then .corrected 0 else .clean
/-- Bits of an SRAM word's 72 that are in error. -/
def badBits (b : BitVec 640) : Nat := ((List.range 72).filter fun i => b.getLsbD i).length
/-- SECDED: one bit is corrected, two are detected; more are taken as detected too (DESIGN CHOICE, log entry 184). -/
def sramReport (r : UnitRead) : UnitReport :=
  if 1 < badBits r.err then .ue else if badBits r.err = 1 then .corrected 0 else .clean

end Sys2Proof.Machine
end

