-- ==== Sys2Proof/Machine/Checkpoint.lean ====
section
/-! DEFINITION. The checkpoint on flash (R265 step 4, R266 to R268): the bytes of its segments, what the cut writes through the
system streams 22 and 23, the checkpoint root's image, and the end of system superblocks. -/

namespace Sys2Proof.Machine

/-! ## Segments (R266) -/

/-- SEGID: the class at [31:28], the index at [27:0]. The classes are numbered in the order of R266 (DESIGN CHOICE, log entry
166): 0 parcel map, 1 bundle pool, 2 bundle descriptors, 3 block information, 4 superblock information, 5 threshold table, 6
namespace table. -/
def segId (cls i : Nat) : Nat := cls * 2 ^ 28 + i
/-- Does a unit lie in the threshold table? -/
def inTt (s : State) (unit : Nat) : Bool := ttBase s 0 ≤ 64 * unit && 64 * unit < ttBase s 0 + 2 ^ 25
/-- The segment of a checkpoint class that a unit of DRAM lies in, by SEGID: of the threshold table, or where firmware has placed the
others. -/
def unitSeg (s : State) (unit : Nat) : Option Nat :=
  if inTt s unit then some (segId 5 ((64 * unit - ttBase s 0) / 2 ^ 22)) else Config.segmentAt unit
/-- A block information entry (Table 9-1). -/
def BlkInfo.bytes (b : BlkInfo) : List Byte :=
  le 2 b.erases ++ le 1 b.st ++ le 1 (if b.refr then 1 else 0) ++ le 4 b.reads ++ le 4 (if b.st = 2 then b.sbx else 0xFFFFFFFF) ++ le 4 0
/-- A superblock information entry (Table 9-2). -/
def Sb.entry (b : Sb) : List Byte :=
  le 4 b.vcount ++ le 4 b.cap ++ le 4 b.sealTime
    ++ le 1 ((if b.degraded then 1 else 0) + (if b.system then 2 else 0) + (if b.job then 4 else 0)) ++ le 1 0 ++ le 2 b.pins
/-- The descriptors of sealed superblocks follow the information table, 320 bytes by SBX (log entry 166). -/
def sbTabByte (t : MapTab) (a : Nat) : Byte :=
  if a < 2 ^ 23 then ((nget t.sbs (a / 16)).map fun b => b.entry.getD (a % 16) 0).getD 0
  else ((nget t.sbs ((a - 2 ^ 23) / 320)).map fun b => if b.st = 1 then 0 else b.bytes.getD ((a - 2 ^ 23) % 320) 0).getD 0
/-- What the namespace table holds; how it lays this out is not stated (log entry 166). -/
def nsWords (t : MapTab) : List (List Nat) :=
  t.ns.map fun e => [e.1, e.2.nsze, e.2.ncap, e.2.lbaf, e.2.piType, if e.2.pil then 1 else 0, if e.2.ext then 1 else 0,
    e.2.key.salt, e.2.key.wrapped.toNat, if e.2.formatting then 1 else 0, t.commitC, t.sanitize] ++ e.2.segs
/-- Byte o of segment i of a class. -/
def segImgByte (s : State) (cls i o : Nat) : Byte :=
  let t := s.map.tab
  let a := i * 2 ^ 22 + o
  match cls with
  | 0 => ((t.ns.findSome? fun e => (e.2.segs.findIdx? (· == i)).map fun k => segByte t e.1 k o)).getD 0
  | 1 => (bundleBytes t (a / 96)).getD (a % 96) 0
  | 2 => BitVec.ofNat 8 (bundleDesc t (a / 8) / 256 ^ (a % 8))
  | 3 => (blkGet t (a / 16)).bytes.getD (a % 16) 0
  | 4 => sbTabByte t a
  | 5 => (viewLine s ((ttBase s 0 + a) / 64)).extractLsb' (8 * ((ttBase s 0 + a) % 64)) 8
  | _ => Config.nsTableByte (nsWords t) a
def segBytes (s : State) (id : Nat) : List Byte := (List.range (2 ^ 22)).map (segImgByte s (id / 2 ^ 28) (id % 2 ^ 28))
/-- Is a segment all zero? A block information entry never is (its SBX), and of the namespace table only Config knows the bytes. -/
def segZero (s : State) (id : Nat) : Bool :=
  let t := s.map.tab
  let i := id % 2 ^ 28
  let has (a n : Nat) : Bool := i * 2 ^ 22 < a + n && a < (i + 1) * 2 ^ 22
  match id / 2 ^ 28 with
  | 0 => !(t.ns.any fun e => e.2.parcels.any fun p => p.2 != .unmapped && e.2.segs[p.1 / Config.segEntries]? == some i)
  | 1 => !(t.bundles.any fun b => has (96 * b.1) 96 && b.2.ents.any fun e => e != .gone)
  | 2 => !(t.bundles.any fun b => has (8 * b.1) 8 && b.2.nsid != 0)
  | 4 => !(t.sbs.any fun b => has (16 * b.1) 16 || (b.2.st != 1 && has (2 ^ 23 + 320 * b.1) 320))
  | 5 => (viewRange s (ttBase s 0 + i * 2 ^ 22) (2 ^ 22)).isEmpty
  | _ => false

/-- The segments of the two classes that hold a bundle. -/
def bundleSegs (b : Nat) : List Nat := [segId 1 (96 * b / 2 ^ 22), segId 1 ((96 * b + 95) / 2 ^ 22), segId 2 (8 * b / 2 ^ 22)]
/-- The segments of the parcel map that a run of parcels lies in. -/
def parcelSegs (t : MapTab) (nsid p n : Nat) : List Nat :=
  (List.range ((p + n - 1) / Config.segEntries + 1 - p / Config.segEntries)).filterMap fun i =>
    (segOf t nsid ((p / Config.segEntries + i) * Config.segEntries)).map (segId 0)
/-- The segments that a record changes. -/
def recSegs (t : MapTab) (r : JRec) : List Nat :=
  let parcel (n p : Nat) : List Nat := parcelSegs t n p 1
  let sb (x : Nat) : List Nat := [segId 4 (16 * x / 2 ^ 22), segId 4 ((2 ^ 23 + 320 * x) / 2 ^ 22), segId 4 ((2 ^ 23 + 320 * x + 319) / 2 ^ 22)]
  let blks (x : Nat) : List Nat := ((nget t.sbs x).map fun b => (List.range b.nmem).map fun m =>
    segId 3 (16 * blkKey (b.lun m) (b.block m) / 2 ^ 22)).getD []
  match r with
  | .parcel n p f _ => parcel n p ++ f.toList.flatMap bundleSegs
  | .promote n p b _ => parcel n p ++ bundleSegs b
  | .letter _ _ _ b _ => bundleSegs b
  | .range n p k => parcelSegs t n p k
  | .sbdesc x _ => sb x ++ blks x
  | .sbfree x _ => sb x ++ blks x
  | .nsop _ _ _ _ => [segId 6 0]
  | .acct _ _ => [segId 6 0]

/-! ## Writing through the system streams -/

/-- One page group of a system stream. -/
def sysPage (s : State) (k : Nat) (us : List (Nat → Payload)) : State × Nat :=
  let (s, g) := newPg s k .sys
  let s := ((us.take 16).zipIdx).foldl (fun s u => let (s, w) := takeWsn s; pgPut s g u.2 (u.1 w) .sys) s
  (pgClose s g, g)
/-- Units of 4 KiB, 16 to a page group. -/
def sysPages (s : State) (k : Nat) : Nat → List (Nat → Payload) → State
  | 0, _ => s
  | n + 1, us => if us.isEmpty then s else sysPages (sysPage s k us).1 k n (us.drop 16)
/-- Unit u of system data (Table 8-2): NSID 0, KIND 0x03 for a map segment and 0x04 for what else a checkpoint holds. -/
def sysUnit (kind u : Nat) (bytes : List Byte) (w : Nat) : Payload :=
  mkPayload (BitVec.ofNat 32768 (leNat (bytes.take 4096))) u 0 kind w 0
/-- The units of a byte string. -/
def sysUnits (kind first : Nat) (bytes : List Byte) : List (Nat → Payload) :=
  (List.range ((bytes.length + 4095) / 4096)).map fun u => sysUnit kind (first + u) (bytes.drop (4096 * u))

/-- A segment's range in the cache is cleaned: its dirty lines go to DRAM and stay (R164, R265 step 4). -/
def segClean (s : State) (id : Nat) : State :=
  let s := writeBack s (s.phc.lines.filter fun x => unitSeg s x.2.line == some id)
  updPhc s fun p => { p with lines := p.lines.map fun x => if unitSeg s x.2.line == some id then (x.1, { x.2 with dirty := false }) else x }
/-- One segment is written through stream 22: 64 page groups, or none where it is all zero. -/
def segWrite (s : State) (id : Nat) : State :=
  let s := segClean s id
  let bytes := segBytes s id
  let crc := crc32c bytes
  if segZero s id then updJrc s fun j => { j with cutSegs := nset j.cutSegs id (none, crc) }
  else
    let g := s.map.pgNext
    let s := sysPages s 22 64 (sysUnits (if id < 2 ^ 28 then 3 else 4) (id % 2 ^ 28 * 1024) bytes)
    updJrc s fun j => { j with cutSegs := nset j.cutSegs id (some g, crc) }

/-- The segment table after the cut: each segment written in it has its new entry, every other keeps the previous table's. -/
def cutTable (s : State) (old : NMap SegEnt) : NMap SegEnt :=
  s.jrc.cutSegs.foldl (fun t e => nset t e.1 (match e.2.1 with
    | some g => { ppa := pgPpa s g 0, crc := e.2.2 }
    | none => { zero := true, crc := e.2.2 })) old
/-- Its 16-byte entries. -/
def segTableBytes (t : NMap SegEnt) : List Byte :=
  t.flatMap fun e => le 4 e.1 ++ le 5 e.2.ppa ++ le 1 (if e.2.zero then 1 else 0) ++ le 2 0 ++ le 4 e.2.crc

/-! ## The checkpoint root (R267) -/

/-- A root's 256 bytes with their CRC-64, which covers them with its own field as 0 (R21). -/
def withCrc64 (l : List Byte) : List Byte := l.take 248 ++ le 8 (crc64 (l.take 248 ++ List.replicate 8 0))
/-- The fields of Table 10-8. -/
def rootImage (epoch seq jstart gseq0 wsnLim sbidNext segCnt tbkt stcrc : Nat) : List Byte :=
  withCrc64 (padTo 248 (le 4 0x524F4F54 ++ le 4 epoch ++ le 8 seq ++ le 4 jstart ++ le 4 0 ++ le 8 gseq0 ++ le 8 wsnLim
    ++ le 4 sbidNext ++ le 4 segCnt ++ le 8 tbkt ++ le 8 0 ++ le 8 0 ++ le 4 stcrc))
def Root.epoch (r : Root) : Nat := fieldAt r.bytes 4 4
def Root.seq (r : Root) : Nat := fieldAt r.bytes 8 8
def Root.jstart (r : Root) : Nat := fieldAt r.bytes 16 4 % Config.ringBytes
def Root.gseq0 (r : Root) : Nat := fieldAt r.bytes 24 8
def Root.wsnLim (r : Root) : Nat := fieldAt r.bytes 32 8
def Root.sbidNext (r : Root) : Nat := fieldAt r.bytes 40 4
def Root.tbkt (r : Root) : Nat := fieldAt r.bytes 48 8
/-- MAGIC and CRC-64 are correct (R273). -/
def Root.valid (r : Root) : Bool := fieldAt r.bytes 0 4 == 0x524F4F54 && withCrc64 r.bytes == r.bytes

/-! ## Steps 4 and 8 of an epoch cut -/

/-- Grown bad-block entries as bytes (Table 9-12): in the flash system area, and in the log of JRAM. -/
def badImage (l : List BadEnt) : List Byte :=
  l.flatMap fun e => le 8 (e.cause * 2 ^ 56 + e.erases * 2 ^ 40 + e.lun * 2 ^ 30 + e.block * 2 ^ 16)

/-- The segment table is written through stream 22 and through stream 23. -/
def writeTables (s : State) : State :=
  let old := (s.jrc.next.map fun r => r.segs).getD []
  let us := sysUnits 4 0 (segTableBytes (cutTable s old))
  turn (updJrc (sysPages (sysPages s 22 us.length us) 23 us.length us) fun j => { j with cutSt := 2 })
/-- The flash system area's records (R268): the root copy, the grown bad-block table, the retirement bits, the chip state and the
system log; the layout of the last three is not stated (log entry 166). -/
def writeArea (s : State) (r : Root) : State :=
  let bad := badImage s.map.badTab
  let us := sysUnits 4 0 r.bytes ++ sysUnits 4 0 bad
    ++ [fun w => mkPayload (Config.areaData (s.map.chip :: s.map.life :: (List.range 33).map fun i => rd s (if i = 32 then rChRet else rLunRet i))) 0 0 4 w 0]
  updJrc (sysPages s 23 us.length us) fun j => { j with cutSt := 3 }
/-- The checkpoint's page groups that are programmed let the cut go on: the segment tables follow the segments, and the flash copy of
the root is there once the system area's records are. -/
def ckptStep (s : State) : State :=
  if !allProgrammed s .sys then s
  else if s.jrc.cutSt = 1 then writeTables s
  else if s.jrc.cutSt = 3 then
    let bits := (List.range 33).map fun i => if i = 32 then rChRet else rLunRet i
    updMap (updJrc s fun j => { j with cutSt := 0, flashRoot := j.lastCopy }) fun m => { m with
      retSys := bits.foldl (fun t a => if rd s a = 0 then ndel t a else nset t a (rd s a)) m.retSys }
  else s
/-- Step 4 begins: the segments that the ended generation's bitmap marks. -/
def ckptStart (s : State) (ids : List Nat) : State :=
  let s := updJrc (dropHolder s .sys) fun j => { j with cutSegs := [], cutSt := 1 }
  ckptStep (turn (ids.foldl segWrite s))

/-! ## System superblocks (R268) -/

/-- Does a root's segment table name a copy in a superblock: a segment's page groups, or a copy of the table itself? -/
def rootNames (t : MapTab) (r : Root) (x : Nat) : Bool :=
  (r.segs.any fun e => !e.2.zero && sbxOf t e.2.ppa == some x)
    || sbxOf t (fieldAt r.bytes 56 5) == some x || sbxOf t (fieldAt r.bytes 64 5) == some x
/-- The sealed superblocks of a system stream, each with its SBID. -/
def sealedSys (s : State) (k : Nat) : List (Nat × Nat) :=
  (s.map.sysSb.filter fun e => e.2 == k).filterMap fun e =>
    (nget s.map.tab.sbs e.1).bind fun b => if b.st = 2 && b.system then some (b.sbid, e.1) else none
/-- The one opened first. -/
def oldestSb (l : List (Nat × Nat)) : Option (Nat × Nat) :=
  l.foldl (fun a x => match a with | none => some x | some y => if x.1 < y.1 then some x else some y) none
/-- A committed root frees the stream-22 superblocks that its table no longer names, and the oldest stream-23 superblock once more
than four are sealed: the records and the table copy that are current were written in this cut. -/
def freeSystem (s : State) (r : Root) : State :=
  let s := (((sealedSys s 22).map fun e => e.2).filter fun x => !rootNames s.map.tab r x && !s.map.recount.contains x).foldl makeErasable s
  let l := sealedSys s 23
  if l.length ≤ 4 then s else match oldestSb l with | some (_, x) => makeErasable s x | none => s

end Sys2Proof.Machine
end

