-- ==== Sys2Proof/Machine/Journal.lean ====
section
/-! DEFINITION. The journal: what records a wanted update becomes (Table 5-6, R145), batches and their COMMIT (R262, R263),
the token bucket (R259), epoch triggers, cut-over and root commit (R264 to R267), and replay of the ring (R274). -/

namespace Sys2Proof.Machine

def jrc (off : Nat) : Nat := 0x60000 + off

/-! ## Reads of JRAM (R257, R281, R307) -/


/-- A read of a mirrored region (R257), with a report for each copy of a unit that is uncorrectable; the offsets of the units that neither
die gives come with it. -/
def mirroredRead (s : State) (off len : Nat) : State × List Nat :=
  let bad := hurtIn s.jrc 0 off len
  let (j, lost) := mirrorRead s.jrc off len
  ((bad ++ lost).foldl (fun s _ => jramUe s) (updJrc s fun _ => j), lost)

/-! ## Deciding records -/

/-- The holder that a group's owner reserves bundles as. -/
def GOwner.holder (o : GOwner) : Option Holder :=
  match o with
  | .cmd id => some (.cmd id) | .reloc id => some (.reloc id) | .dead d => some (.reloc (2 ^ 32 + d)) | .sb _ => none
  | .sweep _ => none | .other => none

/-- The bundle reserved for a holder's update of a parcel (R143). -/
def reservedFor (s : State) (o : GOwner) (nsid p : Nat) : Option Nat :=
  o.holder.bind fun h => (s.map.resv.find? fun r => r.2 == (h, nsid, p)).map fun r => r.1

/-- Promotion of a parcel with the letters that the update sets. -/
def promoteRecs (nsid p b : Nat) (e : PEnt) (ls : List (Nat × LEnt)) : List JRec :=
  .promote nsid p b e :: ls.map fun l => .letter nsid p l.1 b l.2

/-- Letters set in a parcel of entry e: in its bundle, or by promotion into the reserved bundle (Table 5-6). -/
def setRecs (s : State) (o : GOwner) (nsid p : Nat) (e : PEnt) (ls : List (Nat × LEnt)) : List JRec :=
  match e with
  | .fine b => ls.map fun l => .letter nsid p l.1 b l.2
  | .unmapped => match reservedFor s o nsid p with | some b => promoteRecs nsid p b e ls | none => []
  | .ptr _ => match reservedFor s o nsid p with | some b => promoteRecs nsid p b e ls | none => []
  | .dead _ => match reservedFor s o nsid p with | some b => promoteRecs nsid p b e ls | none => []

def bundleOf (e : PEnt) : Option Nat :=
  match e with | .fine b => some b | .unmapped => none | .ptr _ => none | .dead _ => none

/-- The descriptor as its SBDESC group carries it: SEALED once the seal was asked for (R478), else OPEN. -/
def descFor (s : State) (b : Sb) (x : Nat) : Sb :=
  if s.map.opens.any fun e => e.2.sbx == x && e.2.asked then { b with st := 2, stream := 0xFF, sealWsn := s.map.wsn, nextRow := b.rows }
  else b

/-- The records of a wanted update against a map; none where its comparison fails (R145) or nothing changes. -/
def decideWant (s : State) (t : MapTab) (o : GOwner) (w : Want) : List JRec :=
  match w with
  | .whole nsid p pg => let e := entryOf t nsid p; [.parcel nsid p (bundleOf e) (.ptr (pgPpa s pg 0))]
  | .put nsid p lets => setRecs s o nsid p (entryOf t nsid p) (lets.map fun l => (l.1, .slot (pgPpa s l.2.1 l.2.2)))
  | .clear nsid p lets =>
    let e := entryOf t nsid p
    if e = .unmapped then []
    else if lets.length = 16 then [.parcel nsid p (bundleOf e) .unmapped]
    else setRecs s o nsid p e (lets.map fun i => (i, .gone))
  | .clearRange nsid p n => [.range nsid p n]
  | .move nsid p old pg => if entryOf t nsid p = .ptr old then [.parcel nsid p none (.ptr (pgPpa s pg 0))] else []
  | .moveLetter nsid p i old pg slot =>
    if letterIn t (entryOf t nsid p) i = .slot old then setRecs s o nsid p (entryOf t nsid p) [(i, .slot (pgPpa s pg slot))] else []
  | .consolidate nsid p old pg =>
    match entryOf t nsid p with
    | .fine b =>
      if (List.range 16).all fun i => letterIn t (.fine b) i ==
          (match old.find? fun x => x.1 == i with | some x => LEnt.slot x.2 | none => LEnt.gone)
      then [.parcel nsid p (some b) (.ptr (pgPpa s pg 0))] else []
    | .unmapped => [] | .ptr _ => [] | .dead _ => []
  | .mark nsid p none ppa => if entryOf t nsid p = .ptr (pgBase ppa) then [.parcel nsid p none (.dead (pgBase ppa))] else []
  | .mark nsid p (some i) ppa =>
    if letterIn t (entryOf t nsid p) i = .slot ppa then setRecs s o nsid p (entryOf t nsid p) [(i, .dead ppa)] else []
  | .resweep nsid p none old new => if entryOf t nsid p = .dead old then [.parcel nsid p none (.dead new)] else []
  | .resweep nsid p (some i) old new =>
    match entryOf t nsid p with
    | .fine b => if letterIn t (.fine b) i = .dead old then [.letter nsid p i b (.dead new)] else []
    | .unmapped => [] | .ptr _ => [] | .dead _ => []
  | .shed nsid n => [.acct nsid n]
  | .nsop op nsid v keys => [.nsop op nsid v keys]
  | .desc x => match nget t.sbs x with | some b => [.sbdesc x (descFor s b x).bytes] | none => []
  | .free x => match nget t.sbs x with | some b => [.sbfree x b.sbid] | none => []

/-- HEAT_INC, and the rated erase count. -/
def heatInc (s : State) : Nat := rdField s 0x30018 15 8
def applyRecs (s : State) (t : MapTab) (rs : List JRec) : MapTab := rs.foldl (applyRec (heatInc s) s.flash.die.rated) t

/-- A group's records, decided one want after another. -/
def decideAll (s : State) (o : GOwner) : MapTab → List Want → List JRec
  | _, [] => []
  | t, w :: ws => let rs := decideWant s t o w; rs ++ decideAll s o (applyRecs s t rs) ws

/-- The map with every group taken into a batch and not yet applied (R142). -/
def projected (s : State) : MapTab :=
  let gs := s.jrc.applyQ ++ s.jrc.batches.flatMap fun b => b.groups
  gs.foldl (fun t g => applyRecs s t g.recs) s.map.tab

/-! ## Holds and guards (R144, R476) -/

/-- The parcels a want touches; a range as its ends. -/
def Want.touches (w : Want) (nsid p : Nat) : Bool :=
  match w with
  | .whole n q _ => n == nsid && q == p
  | .put n q _ => n == nsid && q == p
  | .clear n q _ => n == nsid && q == p
  | .clearRange n q c => n == nsid && q ≤ p && p < q + c
  | .move n q _ _ => n == nsid && q == p
  | .moveLetter n q _ _ _ _ => n == nsid && q == p
  | .consolidate n q _ _ => n == nsid && q == p
  | .mark n q _ _ => n == nsid && q == p
  | .resweep n q _ _ _ => n == nsid && q == p
  | .shed _ _ => false | .nsop _ n _ _ => n == nsid | .desc _ => false | .free _ => false

/-- Does a want touch a letter range? -/
def Want.inRange (w : Want) (r : Nat × Nat × Nat) : Bool :=
  match w with
  | .whole n q _ => n == r.1 && r.2.1 / 16 ≤ q && 16 * q < r.2.1 + r.2.2
  | .put n q _ => n == r.1 && r.2.1 / 16 ≤ q && 16 * q < r.2.1 + r.2.2
  | .clear n q _ => n == r.1 && r.2.1 / 16 ≤ q && 16 * q < r.2.1 + r.2.2
  | .clearRange n q c => n == r.1 && r.2.1 / 16 < q + c && 16 * q < r.2.1 + r.2.2
  | .move n q _ _ => n == r.1 && r.2.1 / 16 ≤ q && 16 * q < r.2.1 + r.2.2
  | .moveLetter n q _ _ _ _ => n == r.1 && r.2.1 / 16 ≤ q && 16 * q < r.2.1 + r.2.2
  | .consolidate n q _ _ => n == r.1 && r.2.1 / 16 ≤ q && 16 * q < r.2.1 + r.2.2
  | .mark n q _ _ => n == r.1 && r.2.1 / 16 ≤ q && 16 * q < r.2.1 + r.2.2
  | .resweep n q _ _ _ => n == r.1 && r.2.1 / 16 ≤ q && 16 * q < r.2.1 + r.2.2
  | .shed _ _ => false | .nsop _ n _ _ => n == r.1 | .desc _ => false | .free _ => false

def GOwner.internal (o : GOwner) : Bool :=
  match o with | .reloc _ => true | .dead _ => true | .sweep _ => true | .cmd _ => false | .sb _ => false | .other => false

/-- A host group that would promote a parcel without a reserved bundle: a read-modify-write demoted the parcel while the
group waited. It waits for a bundle as a listed case does (log entry 40). -/
def lacksBundle (s : State) (o : GOwner) (w : Want) : Bool :=
  match w with
  | .put nsid p _ => (bundleOf (entryOf s.map.tab nsid p)).isNone && (reservedFor s o nsid p).isNone
  | .clear nsid p ls => ls.length != 16 && entryOf s.map.tab nsid p != .unmapped
      && (bundleOf (entryOf s.map.tab nsid p)).isNone && (reservedFor s o nsid p).isNone
  | .mark nsid p (some i) ppa => letterIn s.map.tab (entryOf s.map.tab nsid p) i == .slot ppa
      && (bundleOf (entryOf s.map.tab nsid p)).isNone && (reservedFor s o nsid p).isNone
  | .moveLetter nsid p i old _ _ => letterIn s.map.tab (entryOf s.map.tab nsid p) i == .slot old
      && (bundleOf (entryOf s.map.tab nsid p)).isNone && (reservedFor s o nsid p).isNone
  | _ => false

/-- A group must wait: internal ones for guarded parcels (R476), others for parcels a read-modify-write holds (R144). -/
def groupWaits (s : State) (g : Group) : Bool :=
  if g.owner.internal then
    g.wants.any (lacksBundle s g.owner) || s.srt.cmds.any fun c => c.2.modif && c.2.released && !c.2.resolved && c.2.ranges.any fun r => g.wants.any fun w => w.inRange r
  else
    g.wants.any (lacksBundle s g.owner) || s.srt.cmds.any fun c => GOwner.cmd c.1 != g.owner && c.2.rmwStart && !c.2.resolved
      && c.2.rmws.any fun m => g.wants.any fun w => w.touches m.nsid m.parcel


/-! ## The ring and the token bucket (R259, R262) -/

def ringWords : Nat := Config.ringBytes / 16

def ringPut (m : NMap (BitVec 128)) (off : Nat) : List Nat → NMap (BitVec 128)
  | [] => m
  | w :: ws => ringPut (nset m (off / 16 % ringWords) (BitVec.ofNat 128 w)) (off + 16) ws

/-- Append words at the head: PAD and a restart at offset 0 where they do not fit before the end (R262 step 2). -/
def ringAppend (j : Jrc) (ws : List Nat) : Jrc :=
  let n := 16 * ws.length
  let pad := Config.ringBytes < j.head + n
  let (ring, head, extra) := if pad then (ringPut j.ring j.head [padWord j.gen], 0, Config.ringBytes - j.head) else (j.ring, j.head, 0)
  { ringMend (if pad then ringMend j j.head 16 else j) head n with
    ring := ringPut ring head ws
    head := (head + n) % Config.ringBytes
    live := j.live + n + extra
    tokens := j.tokens - (n + if pad then 16 else 0) }

/-- Bytes that appending n bytes takes of the ring, and of the bucket. -/
def ringNeeds (j : Jrc) (n : Nat) : Nat × Nat :=
  if Config.ringBytes < j.head + n then (Config.ringBytes - j.head + n, n + 16) else (n, n)

/-- The pending groups wait for space or tokens: the cause, each group counted once, and source 60 as the stall begins (R259, R262). -/
def stall (s : State) (bit : Nat) : State :=
  let was := s.jrc.stalled
  let s := satAdd (orReg s (jrc 0x50) (2 ^ bit)) (jrc 0x4C) 31 0 (s.jrc.reqs.filter fun g => !g.waited).length
  let s := updJrc s fun j => { j with stalled := true, reqs := j.reqs.map fun g => { g with waited := true } }
  if was then s else raise s 60
/-- TRIG_FULL is judged wherever the live bytes or FULL change: it is raised as the live bytes reach FULL (R264). -/
def fullJudge (s : State) : State :=
  let now : Bool := decide (rdField s (jrc 0x28) 15 8 * (Config.ringBytes / 256) ≤ s.jrc.live)
  let was := s.jrc.full
  let s := updJrc s fun j => { j with full := now }
  if now && !was then epochTrig s 1 else s

/-- The groups of a batch, in request order: those that need not wait, up to 1,023 records (R262). -/
def takeGroups (s : State) : MapTab → Nat → List Group → List Group × List Group
  | _, _, [] => ([], [])
  | t, n, g :: gs =>
    if groupWaits s g then let (a, b) := takeGroups s t n gs; (a, g :: b)
    else
      let rs := decideAll s g.owner t g.wants
      let k := n + (rs.flatMap fun r => r.words s.jrc.gen).length
      if 1023 < k then ([], g :: gs)
      else let (a, b) := takeGroups s (applyRecs s t rs) k gs; ({ g with recs := rs } :: a, b)

/-- Words of a group's records. -/
def groupWords (gen : Nat) (g : Group) : List Nat := g.recs.flatMap fun r => r.words gen
/-- Bytes of the batches that are not yet durable. -/
def queuedBytes (j : Jrc) : Nat := sumOf (j.batches.map fun b => 16 * (sumOf (b.groups.map fun g => (groupWords j.gen g).length) + 1))
/-- GAP ns have passed since the last batch started, or the pending groups hold 1,023 records (R262). -/
def batchDue (s : State) : Bool :=
  match s.jrc.lastBatch with
  | none => true
  | some t => decide (4 * t + rdField s (jrc 0x5C) 15 0 ≤ 4 * s.clk.tb)
    || decide (1023 ≤ sumOf (s.jrc.reqs.map fun g => ((decideAll s g.owner (projected s) g.wants).flatMap fun r => r.words s.jrc.gen).length))

/-- JOURNAL_BATCH_START (R262, R263). A batch that would reach JTAIL waits; a JRC that is being disabled accepts no group (R280). -/
def batchStart (s : State) : State :=
  if !running s .jrc || s.jrc.hold || s.chip.parked || s.jrc.reqs.isEmpty || !running s .map || !batchDue s then s else
  let (gs, rest) := takeGroups s (projected s) 0 s.jrc.reqs
  if gs.isEmpty then s else
  let ws := gs.flatMap fun g => g.recs.flatMap fun r => r.words s.jrc.gen
  if ws.isEmpty then updJrc s fun j => { j with reqs := rest, batches := j.batches ++ [{ gseq := j.gseq, groups := gs }] } else
  let (space, toks) := ringNeeds s.jrc (16 * (ws.length + 1))
  if Config.ringBytes ≤ s.jrc.live + space then stall s 7
  else if s.jrc.tokens < toks then stall s 8
  else if 65536 < queuedBytes s.jrc + 16 * (ws.length + 1) then s
  else
    let g1 := s.jrc.gseq + 1
    let cw := commitWord s.jrc.gen ws.length (crc32c (ws.flatMap wordBytes)) g1
    fullJudge (updJrc s fun j => { ringAppend j (ws ++ [cw]) with
      gseq := g1, reqs := rest, stalled := false, lastBatch := some s.clk.tb,
      batches := j.batches ++ [{ gseq := g1, groups := gs }] })

/-! ## Epoch cut (R265) -/

/-- A header of R54: a trigger clears VALID and increments GEN. -/
def trig54 (s : State) (a : Nat) : State :=
  let s := wrField s a 31 31 0
  wrField s a 15 0 ((rdField s a 15 0 + 1) % 65536)

/-- JRC_CUT.CUTOVER: HOLD is set, and packing page groups close (R139). -/
def cutover (s : State) : State :=
  let s := wrField (trig54 s (jrc 0x30)) (jrc 0x30) 29 28 1
  let s := updJrc s fun j => { j with hold := true, holdAt := s.clk.tb }
  turn ((List.range 24).foldl packClose s)

/-- Dead-Letter Office states against the map (R293): active, partly cleared, cleared. -/
def isDead (e : LEnt) : Bool := match e with | .dead _ => true | .gone => false | .slot _ => false | .odd _ => false
/-- The letters whose map entries an entry's STATE rests on: its run, or the unit of a METADATA entry (R291). -/
def dloLetters (t : MapTab) (e : DloEnt) : List Nat :=
  if e.md then [((nget t.ns e.nsid).map fun n => n.nsze).getD 0 + e.slba / 64] else (List.range e.nlb).map fun i => e.slba + i
def dloState (t : MapTab) (e : DloEnt) : Nat :=
  let ls := dloLetters t e
  let n := (ls.filter fun l => isDead (letterOf t e.nsid l)).length
  if n = ls.length then 1 else if n = 0 then 3 else 2
def dloEval (s : State) : State :=
  let new := s.pat.dlo.map fun e => { e with st := dloState s.map.tab e }
  let chg := ((s.pat.dlo.zip new).filter fun x => x.1.st != x.2.st).length
  updPat s fun p => { p with dlo := new, dloChg := p.dloChg + chg }

/-- The copies of the root: bank A or B on J0 or J1. -/
def copyOff (k : Nat) : Nat := k / 2 * 0x1000
/-- The newest valid copy (R273): readable, with its MAGIC and CRC-64, and of the highest SEQ. -/
def newestCopy (j : Jrc) : Option (Nat × Root) :=
  (j.roots.filter fun e => e.2.valid && (hurtIn j (e.1 % 2) (copyOff e.1) 256).isEmpty).foldl (fun a x => match a with
    | none => some x
    | some y => if y.2.seq < x.2.seq then some x else some y) none
/-- The newest root on JRAM. -/
def newestRoot (j : Jrc) : Option Root := (newestCopy j).map fun x => x.2
/-- A root in both copies of a bank. -/
def putRoot (j : Jrc) (bank : Nat) (r : Root) : Jrc :=
  mirrorWrite { j with roots := nset (nset j.roots (2 * bank) r) (2 * bank + 1) r } (bank * 0x1000) 256
/-- The bank that does not hold the newest root. -/
def otherBank (j : Jrc) : Nat := match newestCopy j with | some (k, _) => 1 - k / 2 | none => 0

/-- CUTOVER_DONE: once every group of generation e is applied, GENSTART(e + 1) where it does not reach JTAIL (R262), the bitmaps, WSNLIM
and source 58. The map of this moment is what the checkpoint's segments hold (log entry 31), and step 4 starts: the segments that
generation e's bitmap marks go to flash. -/
def cutoverDone (s : State) : State :=
  if !s.jrc.hold || !s.jrc.batches.isEmpty || !s.jrc.applyQ.isEmpty then s
  else if Config.ringBytes ≤ s.jrc.live + (ringNeeds s.jrc 16).1 then s else
  let g := s.jrc.gen + 1
  let s := updJrc s fun j =>
    let j := ringAppend { j with gen := g } [gensWord g]
    { j with twoGen := true, hold := false, lastCut := s.clk.tb,
             dirtyOld := j.dirty, dirty := [],
             next := some { bytes := rootImage g 0 j.head (j.gseq + 1) (s.map.wsn + 2 ^ 36) s.map.sbidNext 0 j.tokens 0,
                            segs := ((newestRoot j).map fun r => r.segs).getD [], tab := s.map.tab,
                            ttab := viewRange s (ttBase s 0) (2 ^ 25) } }
  let s := updMap s fun m => { m with wsnLim := m.wsn + 2 ^ 36, badCut := min 4096 m.badLog.length }
  let s := dloEval s
  let s := wrField s (jrc 0x48) 15 0 (max (rdField s (jrc 0x48) 15 0) (min ((s.clk.tb - s.jrc.holdAt) / 250) 65535))
  let s := orReg (wrField s (jrc 0x30) 31 31 1) (jrc 0x50) (2 ^ 4)
  fullJudge (ckptStart (raise s 58) s.jrc.dirtyOld)

/-- The root image of JRC_ROOTIMG, word w. -/
def imgWord (s : State) (w : Nat) : Nat := rd s (jrc (0x100 + 4 * w))

/-- JRC_CUT.COMMIT: the image is written into the bank that does not hold the newest root. -/
def jrcCommit (s : State) : State :=
  let s := wrField (trig54 s (jrc 0x30)) (jrc 0x30) 29 28 2
  updJrc s fun j => { j with committing := true }

/-- The root that a COMMIT writes: the image of JRC_ROOTIMG with SEQ and CRC supplied (R265 step 6), and the table of the cut. -/
def commitRoot (s : State) : Option Root :=
  let seq := rd s (jrc 0x38) + 1
  let word (i : Nat) : Nat := if i = 2 then seq % 2 ^ 32 else if i = 3 then seq / 2 ^ 32 else imgWord s i
  s.jrc.next.map fun n => { n with
    bytes := withCrc64 ((List.range 64).flatMap fun i => le 4 (word i))
    segs := cutTable s n.segs
    badTab := s.map.badTab ++ s.map.badLog.take s.map.badCut }
/-- A reset while a root is being written: each die holds the copy that was there, the new one, or none that is valid. Which is a free
value (Table 10-12, log entry 5). -/
def rootCut (s : State) : State :=
  if !s.jrc.committing then s else
  match commitRoot s with
  | none => s
  | some r => [0, 1].foldl (fun s die =>
      let k := 2 * otherBank s.jrc + die
      let (s, f) := freshBelow s 3
      updJrc s fun j => { j with roots := if f = 0 then j.roots else if f = 1 then ndel j.roots k else nset j.roots k r }) s

/-- Is a marking requested and not yet applied? -/
def markPending (j : Jrc) (d : Nat) : Bool :=
  (j.reqs ++ (j.batches.flatMap fun b => b.groups) ++ j.applyQ).any fun g => g.owner == .dead d

/-- ROOT_COMMIT_DONE (R265 step 7): ROOTSEQ, JTAIL, the freed PENDING blocks, system superblocks and bad-block log entries, source
59; then the flash copy of step 8, and the staging list into the system log, but for the entries whose markings are not yet applied
(R290). -/
def rootCommitDone (s : State) : State :=
  if !s.jrc.committing then s else
  match commitRoot s with
  | none => s
  | some r =>
    let released := (r.jstart + Config.ringBytes - s.jrc.tail) % Config.ringBytes
    let old := s.jrc.gen - 1
    let s := updJrc s fun j => { putRoot j (otherBank j) r with
      committing := false, twoGen := false, tail := r.jstart, live := j.live - released,
      lastRoot := some s.clk.tb, next := none, dirtyOld := [], lastCopy := some r }
    let free (e : Nat × BlkInfo) : Nat × BlkInfo := if e.2.st = 1 && e.2.epoch ≤ old then (e.1, { e.2 with st := 0 }) else e
    let s := updTab s fun t => { t with blocks := t.blocks.map free }
    let s := updMap s fun m => { m with
      badTab := m.badTab ++ m.badLog.take m.badCut, badLog := m.badLog.drop m.badCut, badCut := 0, lifeCopy := m.life }
    let s := updPat s fun p => { p with staging := p.staging.filter fun e => markPending s.jrc e.dseq }
    let s := wr s (jrc 0x38) r.seq
    let s := raise (orReg (wrField s (jrc 0x30) 31 31 1) (jrc 0x50) (2 ^ 5)) 59
    let s := fullJudge (updJrc s fun j => { j with full := false })
    ckptStep (turn (writeArea (freeSystem (dropHolder s .sys) r) r))

/-- EPOCH_PERIOD_EXPIRY and MINSP_EXPIRY (R264). -/
def epochPeriod (s : State) : State :=
  let per := rdField s (jrc 0x28) 31 16 * 250000
  if !active s .jrc || s.clk.tb < s.jrc.lastCut + per then s
  else epochTrig (updJrc s fun j => { j with lastCut := s.clk.tb }) 0
def minspExpiry (s : State) : State :=
  if inMinsp s then s else
  let ts := s.jrc.trigs
  let s := updJrc s fun j => { j with trigs := [] }
  ts.foldl (fun s b => raise (orReg s (jrc 0x50) (2 ^ b)) 57) s

/-! ## Replay (R274, R275) -/

def wordAt (j : Jrc) (off : Nat) : Nat := (ngetD j.ring (off / 16 % ringWords) 0#128).toNat

/-- One record group from an offset: its typed records, its words before the marker, and its COMMIT; none where no COMMIT
comes within 1,024 entries or a typed record ends the scan. -/
def walk (j : Jrc) (gen : Nat) : Nat → Nat → List JRec → List Nat → Option (List JRec × List Nat × Nat)
  | 0, _, _, _ => none
  | fuel + 1, off, rs, ws =>
    let w := wordAt j off
    if wGen w != gen % 16 then none
    else if wType w = 15 then some (rs, ws, w)
    else
      let raw := (List.range (wChunks w)).map fun i => wordAt j (off + 16 * (i + 1))
      match decodeRec w raw with
      | none => none
      | some r => walk j gen fuel (off + 16 * (raw.length + 1)) (rs ++ [r]) (ws ++ w :: raw)

/-- A walked group is the next one: its COMMIT's GSEQ, COUNT and CRC are right. -/
def groupOk (ws : List Nat) (cw next : Nat) : Bool :=
  cw % 2 ^ 64 == next && bitsOf cw 107 96 == ws.length && bitsOf cw 95 64 == crc32c (ws.flatMap wordBytes)
/-- The generation that the search of Table 10-10's second row ends in: it crosses every GENSTART one above the present one. -/
def genScan (j : Jrc) : Nat → Nat → Nat → Nat → Nat
  | 0, _, gen, _ => gen
  | fuel + 1, off, gen, next =>
    let w := wordAt j off
    if ringHurt j off then gen
    else if wType w = 14 && wGen w = gen % 16 then genScan j fuel 0 gen next
    else if wType w = 13 && w % 2 ^ 32 = gen + 1 && wGen w = (gen + 1) % 16 then
      genScan j fuel ((off + 16) % Config.ringBytes) (gen + 1) next
    else match walk j gen 1024 off [] [] with
      | none => gen
      | some (_, ws, cw) =>
        if groupOk ws cw next then genScan j fuel ((off + 16 * (ws.length + 1)) % Config.ringBytes) gen (next + 1) else gen

/-- What a replay ends with: the map, the end offset, the generation, the next GSEQ, the bytes crossed and those of records (paid, R259),
the highest SBID seen, the
segments changed in the last generation and in the one before it, and whether it met an uncorrectable read. -/
structure Replay where
  tab   : MapTab
  off   : Nat
  gen   : Nat
  next  : Nat
  bytes : Nat := 0
  paid  : Nat := 0
  mid   : Option (Nat × Nat × MapTab) := none
  sbid  : Nat := 0
  segs  : List Nat := []
  segsOld : List Nat := []
  failed : Bool := false

/-- The scan of R274 from a root, over fuel steps. -/
def replay (j : Jrc) (heat rated epoch : Nat) : Nat → Replay → Replay
  | 0, r => r
  | fuel + 1, r =>
    let w := wordAt j r.off
    if ringHurt j r.off then { r with failed := true }
    else if wType w = 14 && wGen w = r.gen % 16 then replay j heat rated epoch fuel { r with off := 0, bytes := r.bytes + (Config.ringBytes - r.off), paid := r.paid + 16 }
    else if wType w = 13 && r.gen = epoch && w % 2 ^ 32 = r.gen + 1 && wGen w = (r.gen + 1) % 16 then
      replay j heat rated epoch fuel
        { r with gen := r.gen + 1, off := (r.off + 16) % Config.ringBytes, bytes := r.bytes + 16, paid := r.paid + 16, mid := some (r.off + 16, r.next, r.tab),
                 segs := [], segsOld := r.segs }
    else match walk j r.gen 1024 r.off [] [] with
      | none => r
      | some (rs, ws, cw) =>
        if (List.range (ws.length + 1)).any fun i => ringHurt j (r.off + 16 * i) then { r with failed := true }
        else if !groupOk ws cw r.next then r
        else
          let top := rs.foldl (fun m x => match x with
            | .sbdesc _ bs => max m (fieldAt bs 0 4)
            | .parcel _ _ _ _ => m | .promote _ _ _ _ => m | .letter _ _ _ _ _ => m | .range _ _ _ => m | .sbfree _ _ => m
            | .nsop _ _ _ _ => m | .acct _ _ => m) r.sbid
          replay j heat rated epoch fuel
            { r with tab := rs.foldl (applyRec heat rated) r.tab, next := r.next + 1, sbid := top, segs := (r.segs ++ rs.flatMap (recSegs r.tab)).dedup,
                     off := (r.off + 16 * (ws.length + 1)) % Config.ringBytes, bytes := r.bytes + 16 * (ws.length + 1)
                     paid := r.paid + 16 * (ws.length + 1) }

/-- The tail clear of R275: zeroes over the next min(64 KiB, distance to JTAIL) bytes. -/
def tailClear (j : Jrc) (e tail : Nat) : NMap (BitVec 128) :=
  let n := min 65536 (if e = tail then Config.ringBytes else (tail + Config.ringBytes - e) % Config.ringBytes)
  (List.range (n / 16)).foldl (fun m i => ndel m ((e / 16 + i) % ringWords)) j.ring

end Sys2Proof.Machine
end

