-- ==== Sys2Proof/Machine/Recorder.lean ====
section
/-! DEFINITION. The event recorder: the record layout (R374, R378), the write engine (R380 to R382), the start-up scan
(R383), reading (R385), failure (R386, R387) and the last-gasp store (R388). -/

namespace Sys2Proof.Machine

/-- Pace units in one token: the bucket gains one unit a timebase count, 2,000 tokens a second (R380). -/
def paceUnit : Nat := 125000

/-- The extension bytes before a record's payload (R374). -/
def recExt (c : Cand) : List Byte :=
  match c.fromLg with
  | some q => le 8 q ++ le 8 0
  | none => if 15 < c.supp then le 4 (min c.supp 0xFFFFFFFF) ++ le 12 0 else []

/-- What follows byte 15, padded with zeroes to a multiple of 16. A firmware record of 256 bytes has no room for the 16 bytes of SUPX; that
the last 16 of its payload give way is a DESIGN CHOICE (log entry 204). -/
def recBody (c : Cand) : List Byte :=
  let b := recExt c ++ c.payload
  (padTo ((b.length + 15) / 16 * 16) b).take 240

/-- A record's bytes with its CRC field as given (Table 15-3). -/
def recBytesWith (r : Rec) (crc : Nat) : List Byte :=
  let c := r.cand
  let body := recBody c
  let flags := (if c.fromLg = none && 15 < c.supp then 1 else 0) + (if c.sumOnly then 2 else 0)
    + (if c.fromLg = none then 0 else 4) + (if r.flash then 8 else 0) + min c.supp 15 * 16
  le 8 r.seq ++ le 4 crc ++ le 2 (body.length / 16 * 2 ^ 12 + c.code) ++ le 1 c.origin ++ le 1 flags ++ body

/-- The record as it stands in its slot: SEQ, CRC-32C over LEN bytes (R21) and the rest. -/
def recBytes (r : Rec) : List Byte := recBytesWith r (crc32c (recBytesWith r 0))

/-- Write a record to the last-gasp store (R388): entry LGSEQ mod 8, with LGSEQ as its SEQ. -/
def lastGasp (s : State) (code : Nat) (origin : Nat) (payload : List Byte) : State :=
  let q := s.evr.lgSeq + 1
  { s with evr := { s.evr with lgSeq := q, lg := nset s.evr.lg (q % 8) { seq := q, cand := { code, origin, payload } } } }

/-- A recorder failure by condition (Table 15-8) at a region offset (R387). -/
def recFail (s : State) (cond off : Nat) : State :=
  if s.evr.flashOnly then s else
  let pl := le 1 cond ++ le 1 (off / 256 % 2) ++ le 2 0 ++ le 4 off
  let s := lastGasp s 0x102 0xB pl
  let s := { s with evr := { s.evr with
    flashOnly := true,
    flashLog := s.evr.flashLog ++ [{ seq := s.evr.lgSeq, cand := { code := 0x102, origin := 0xB, payload := pl }, flash := true }] } }
  noteCause (wrField s (Reg.sts .evr) 17 17 1) Reg.evrCause 3 138

/-- Offset of circulating slot i in the recorder region (Table 15-6). -/
def circOff (i : Nat) : Nat := 0x200000 + 256 * i

/-- A source of the recorder itself, whose records raise none (R389). -/
def ownSource (c : Cand) : Bool := 136 ≤ c.code && c.code ≤ 143

/-- Write one record with the next SEQ into its slots, or into the flash-only buffer (R382, R387). A founding slot is written once. -/
def placeRec (s : State) (c : Cand) : State :=
  let q := s.evr.next
  let c := if c.fromLg = none && !(0x100 ≤ c.code && c.code ≤ 0x103)
           then { c with supp := (ngetD s.evr.buckets c.code s.evr.dflt).supp } else c
  let bk := if c.fromLg = none then nmod s.evr.buckets c.code (fun b => { b with supp := 0 }) else s.evr.buckets
  if s.evr.flashOnly then
    { s with evr := { s.evr with next := q + 1, buckets := bk, buf := s.evr.buf ++ [{ seq := q, cand := c, flash := true }] } }
  else
    let r : Rec := { seq := q, cand := c }
    let first := q < 4096 && (nget s.evr.found q).isNone
    let j := recMend s.jrc (circOff (q % 16384)) 256
    let s := { s with jrc := if first then recMend j (512 * q) 512 else j }
    let s := { s with evr := { s.evr with
      next := q + 1, buckets := bk, circ := nset s.evr.circ (q % 16384) (.held r),
      found := if first then nset s.evr.found q { r := r } else s.evr.found } }
    if q != 4095 then s else if ownSource c then orReg s Reg.evrCause 16 else noteCause s Reg.evrCause 4 139

/-- A slot lost (Table 15-8): counted, SLOT_UE set, source 143 for each unless the record is one of the recorder's own sources (R389). -/
def slotLost (s : State) (own : Bool := false) : State :=
  let s := satAdd s Reg.evrUeCnt 31 0 1
  if own then orReg s Reg.evrCause 32 else noteCause s Reg.evrCause 5 143

/-- What the write engine writes next: a pending LOST record before the FIFO's oldest entry (R379). -/
def recNext (s : State) : Option Cand := if s.evr.lostRec.isSome then s.evr.lostRec else s.evr.fifo.head?

/-- May the engine start a write (R380, R383)? With the flash-only buffer full it waits for SC1 to write it. -/
def recReady (s : State) : Bool :=
  active s .evr && s.evr.scanned && !(s.evr.flashOnly && 64 ≤ s.evr.buf.length)

/-- The entry leaves the FIFO; a marked one ends its loss episode with a LOST record (R379). -/
def recPop (s : State) (c : Cand) : State :=
  if s.evr.lostRec.isSome then noteCause { s with evr := { s.evr with lostRec := none } } Reg.evrCause 2 137
  else
    let s := { s with evr := { s.evr with fifo := s.evr.fifo.drop 1 } }
    let s := match c.marked, s.evr.episode with
      | true, some (n, f, l) => { s with evr := { s.evr with
          episode := none,
          lostRec := some { code := 0x101, origin := 0xB, payload := le 4 n ++ le 2 f ++ le 2 l } } }
      | _, _ => s
    if c.sumOnly && s.evr.flushSup && !(s.evr.fifo.any fun x => x.sumOnly) then
      raise { s with evr := { s.evr with flushSup := false } } 142
    else s

/-- RECORDER_ENTRY_WRITTEN (R380): the engine finishes the entry, with how often its read-back failed and whether its
JRAM line has no spare left (Table 15-8 conditions 1 and 4). -/
def entryWritten (s : State) (fails : Nat) (lineExhausted : Bool) : State :=
  match recNext s with
  | none => s
  | some c =>
    if !recReady s || s.evr.pace < paceUnit then s else
    let q := s.evr.next
    let flash := s.evr.flashOnly
    let s := placeRec { s with evr := { s.evr with pace := s.evr.pace - paceUnit } } c
    let s := recPop s c
    if flash then s else
    let s := if 1 ≤ fails then slotLost s (ownSource c) else s
    let s := if 2 ≤ fails then
        recFail { s with evr := { s.evr with circ := nset s.evr.circ (q % 16384) (.broken q) } } 1 (circOff (q % 16384))
      else s
    if lineExhausted then recFail (raise s 71) 4 (circOff (q % 16384)) else s

/-- RECORDER_PACE_REFILL (R380): the empty pace bucket gains a token. -/
def paceRefill (s : State) : State :=
  if s.evr.pace < paceUnit && (recNext s).isSome then { s with evr := { s.evr with pace := paceUnit } } else s

/-- The highest SEQ that a slot of the circulating area holds. -/
def highestSeq (m : NMap RecSlot) : Option Nat :=
  m.foldl (fun a x => match x.2 with | .held r => some (max (a.getD 0) r.seq) | .broken _ => a) none
/-- The lowest SEQ that a slot of the circulating area holds. -/
def lowestSeq (m : NMap RecSlot) : Option Nat :=
  m.foldl (fun a x => match x.2 with | .held r => some (min (a.getD r.seq) r.seq) | .broken _ => a) none
/-- The highest SEQ of a list of records. -/
def highestOf (l : List Rec) : Option Nat := l.foldl (fun a r => some (max (a.getD 0) r.seq)) none
def oneMore (x : Option Nat) : Nat := match x with | some q => q + 1 | none => 0

/-- LGDONE as each die holds it (Table 15-6): the highest LGSEQ copied, then the CRC-32C of that. -/
def lgDoneImage (q : Nat) : List Byte := le 8 q ++ le 4 (crc32c (le 8 q)) ++ le 4 0
/-- The LGSEQ that LGDONE gives, from a readable copy with a right CRC; without one nothing counts as copied (DESIGN CHOICE, log entry
204). -/
def lgDoneOf (s : State) : Nat :=
  let b := s.evr.lgDone
  if recHurt s.jrc 0x600000 && recHurt s.jrc 0x600100 then 0
  else if fieldAt b 8 4 = crc32c (slice b 0 8) then fieldAt b 0 8 else 0

/-- The last-gasp entries not yet copied, in ascending LGSEQ (R388). -/
def lgNew (s : State) : List Rec :=
  ((List.range 8).filterMap fun k => nget s.evr.lg ((s.evr.lgSeq + 1 + k) % 8)).filter fun r => lgDoneOf s < r.seq

/-- RECORDER_SCAN_DONE (R383): EVR_NEXT, the BOOT record, the last-gasp copies, source 140. -/
def scanDone (s : State) : State :=
  if !(active s .evr && s.evr.scanning) then s else
  let hi := oneMore (highestSeq s.evr.circ)
  let nxt := if s.evr.flashOnly then max hi (oneMore (highestOf s.evr.flashLog)) else hi
  let s := { s with evr := { s.evr with next := nxt, scanning := false, scanned := true } }
  let s := wrField s (Reg.sts .evr) 16 16 0
  let s := placeRec s { code := 0x100, origin := 0xB, payload := (le 64 s.sec.runDigest.toNat).take 16 }
  let new := lgNew s
  let s := new.foldl (fun s r => placeRec s { r.cand with fromLg := some r.seq }) s
  let s := if new.isEmpty then s else
    noteCause { s with evr := { s.evr with lgDone := lgDoneImage s.evr.lgSeq }, jrc := recMend s.jrc 0x600000 0x200 } Reg.evrCause 1 141
  noteCause s Reg.evrCause 0 140

/-- The record of a SEQ that a founding slot's readable copies hold, copy A first (R385). -/
def foundRec (e : Evr) (q : Nat) : Option Rec :=
  match nget e.found q with
  | some f => if f.a || f.b then some f.r else none
  | none => none
/-- The record of a SEQ that a circulating slot holds. -/
def circRec (e : Evr) (q : Nat) : Option Rec :=
  match nget e.circ (q % 16384) with
  | some (.held r) => if r.seq = q then some r else none
  | _ => none
/-- The record of a SEQ that a slot holds. -/
def heldRec (e : Evr) (q : Nat) : Option Rec := if (foundRec e q).isSome then foundRec e q else circRec e q

/-- STATUS and window of a cursor (Table 15-7). -/
def winOf (e : Evr) (q : Nat) : Nat × List Byte :=
  if e.next ≤ q then (1, [])
  else match heldRec e q with
    | some r => (0, recBytes r)
    | none =>
      if (e.flashLog ++ e.buf).any fun r => r.seq = q then (4, [])
      else if 4096 ≤ q && q + 16384 < e.next then (2, []) else (3, [])

def bankOf (s : State) (i : Initiator) : EvrBank := ngetD s.evr.banks (initCode i) {}
def setBank (s : State) (i : Initiator) (b : EvrBank) : State :=
  { s with evr := { s.evr with banks := nset s.evr.banks (initCode i) b } }

/-- A circulating slot is uncorrectable (Table 15-8): its record is lost; with four lost slots within 16,384 consecutive records the
recorder fails. -/
def circLost (s : State) (i : Nat) : State :=
  match nget s.evr.circ i with
  | some (.held r) =>
    let bad := (i, r.seq) :: s.evr.badSlots.filter fun x => x != (i, r.seq)
    let s := slotLost { s with evr := { s.evr with circ := nset s.evr.circ i (.broken r.seq), badSlots := bad } }
    if bad.any fun x => decide (4 ≤ (bad.filter fun y => decide (x.2 ≤ y.2 ∧ y.2 < x.2 + 16384)).length) then recFail s 3 (circOff i) else s
  | some (.broken _) => s
  | none => s
/-- One copy of a founding slot is uncorrectable (Table 15-8): with both the recorder fails. -/
def foundLost (s : State) (k : Nat) (second : Bool) : State :=
  match nget s.evr.found k with
  | some f =>
    let g : Founding := if second then { f with b := false } else { f with a := false }
    let s := { s with evr := { s.evr with found := nset s.evr.found k g } }
    if (f.a || f.b) && !(g.a || g.b) then recFail s 2 (512 * k) else s
  | none => s
/-- An uncorrectable unit at an offset of the recorder region (R386). -/
def recorderLost (s : State) (off : Nat) : State :=
  if off < 0x200000 then foundLost s (off / 512) (decide (256 ≤ off % 512))
  else if off < 0x600000 then circLost s ((off - 0x200000) / 256)
  else s
/-- A slot found uncorrectable as a cursor reads the record of a SEQ: the copy of a founding slot that is read, or a circulating slot. It
is an uncorrectable read of JRAM (R281). -/
def slotUnreadable (s : State) (q : Nat) : State :=
  match nget s.evr.found q with
  | some f => if f.a || f.b then foundLost (jramUe s) q (!f.a) else s
  | none => if (circRec s.evr q).isSome then circLost (jramUe s) (q % 16384) else s

/-- Set an initiator's cursor and load its window (R385, R54). -/
def setCursor (s : State) (i : Initiator) (q : Nat) (slotUe : Bool) : State :=
  let s := if slotUe then slotUnreadable s q else s
  let b := bankOf s i
  let w := winOf s.evr q
  setBank s i { b with cursor := q, valid := true, gen := (b.gen + 1) % 65536, status := w.1, win := w.2 }

/-- EVR_CMD.FLUSHSUP (R378): one SUMONLY entry for each code with a suppressed count. -/
def flushSup (s : State) : State :=
  let codes := (s.evr.buckets.filter fun x => 0 < x.2.supp).map fun x => x.1
  let s := codes.foldl (fun s c => enqueue s { code := c, origin := 0xB, payload := [], sumOnly := true }) s
  if codes.isEmpty then s else { s with evr := { s.evr with flushSup := true } }

/-- EVR_CMD.REARM in depot mode (R387). -/
def rearm (s : State) : State :=
  wrField { s with evr := { s.evr with
    flashOnly := false, circ := [], badSlots := [],
    found := s.evr.found.filter fun x => x.2.a || x.2.b } } (Reg.sts .evr) 17 17 0

/-- A write of EVR_WRCTL by a core: its buffered payload as a record of CODE (R376). -/
def writeRecord (s : State) (i : Initiator) (v : Nat) : State :=
  let n := bitsOf v 3 0 * 16
  let b := bankOf s i
  let pl := ((List.range (n / 4)).map fun w => le 4 (ngetD b.wrbuf w 0)).flatten
  admitCand s { code := bitsOf v 27 16, origin := initCode i, payload := pl }

/-- FLASHONLY_BUFFER_FLUSH (R387): SC1 writes the buffer to the flash system log. -/
def flashFlush (s : State) : State :=
  { s with evr := { s.evr with flashLog := s.evr.flashLog ++ s.evr.buf, buf := [] } }

end Sys2Proof.Machine
end

