-- ==== Sys2Proof/Machine/Mem.lean ====
section
/-! DEFINITION. DRAM, SRAM and JRAM integrity: reports and failed devices (R297 to R300, R307), zero-fill (R301), the merge
buffer (R303, R304), repeat offenders, hard faults and retirement (R311 to R314), and the scrubber's own part (R310). -/

namespace Sys2Proof.Machine

def scb (off : Nat) : Nat := 0x110000 + off

/-! ## Reports -/


/-- Patrol table entries in an uncorrectable unit: DUE is set and LASTTAGE is the present thermal age (Table 12-3). -/
def patrolUnit (s : State) (unit : Nat) : State :=
  let base := rdField s 0x80028 35 12 * 4096
  if 64 * unit < base || base + 0x400000 ≤ 64 * unit then s else
  let i := (64 * unit - base) / 8
  (List.range 8).foldl (fun s k =>
    if (nget s.map.tab.sbs (i + k)).isNone then s
    else updPat s fun p => { p with tab := nset p.tab (i + k) (p.tage, (ngetD p.tab (i + k) (0, 0, false, false)).2.1, true, false) }) s



/-! ## Repairs -/

/-- The repair list's writes keep both dies' copies (R257). -/
def repairWritten (s : State) : State := updJrc s fun j => mirrorWrite j (0x10000 + (64 + 8 * (s.mem.repair.length - 1)) / 64 * 64) 64
/-- An entry enters the repair list; a full one takes no more (DESIGN CHOICE, log entry 209). -/
def addRepair (s : State) (r : Repair) : State :=
  repairWritten (updMem s fun m => { m with repair := (m.repair ++ [r]).take 8184 })
/-- A repair list entry's 64 bits (Table 12-6), and the list as the mirrored region holds it: COUNT in the header, then entries
(R315). -/
def Repair.code (r : Repair) : Nat :=
  r.kind * 2 ^ 60 + (if r.unrep then 2 ^ 59 else 0) + r.unit * 2 ^ 55 + r.spare * 2 ^ 40 + r.addr % 2 ^ 40
def repairImage (l : List Repair) : List Byte := padTo 64 (le 4 l.length) ++ l.flatMap fun r => le 8 r.code
/-- The SRAM row of an address: rows are 256 bytes (Table 12-2). -/
def sramRow (addr : Nat) : Nat := addr / 256
/-- SRAM spare rows at start-up (R448): the rows of the fuse map, then those of the repair list while the unit has a spare left;
an entry without one is marked UNREPAIRED, with source 71 (Table 12-5). -/
def applyRow (a : State × List Repair) (r : Repair) : State × List Repair :=
  let x := (r.unit, sramRow r.addr)
  if r.kind != 1 || a.1.mem.rows.contains x then (a.1, a.2 ++ [r])
  else if (a.1.mem.rows.filter fun y => y.1 == r.unit).length < Config.spareRows r.unit then
    (updMem a.1 fun m => { m with rows := m.rows ++ [x] }, a.2 ++ [{ r with unrep := false }])
  else (raise a.1 71, a.2 ++ [{ r with unrep := true }])
/-- The repair list as its mirrored region gives it (R257): entries whose unit neither die gives are lost, all of them where that unit
is the header (Table 12-3). -/
def repairRead (s : State) : State :=
  let (s, lost) := mirroredRead s 0x10000 0x10000
  let kept := if lost.contains 0x10000 then []
    else (s.mem.repair.zipIdx.filter fun e => !lost.contains (0x10000 + (64 + 8 * e.2) / 64 * 64)).map fun e => e.1
  updMem s fun m => { m with repair := kept }
/-- The second pass, over the repair list. -/
def repairRows (s : State) : State :=
  let s := repairRead s
  let (s, l) := s.mem.repair.foldl applyRow (s, [])
  updMem s fun m => { m with repair := l }
/-- The first pass, over the fuse map. -/
def fuseMapRows (s : State) : State := updMem s fun m => { m with rows := Config.fuseRows }

/-- DRAM page retirement (R313): the next spare page, the remap, the offenders of the page, the repair list. -/
def retirePage (s : State) (addr : Nat) : State :=
  let page := addr / 4096
  let n := rdField s (drc 0x44) 10 0
  if 1024 ≤ n then raise s 71 else
  repairWritten (updMem (wr s (drc 0x44) (n + 1)) fun m => { m with
    pages := nset m.pages page n
    offend := m.offend.filter fun (o : Offender) => !(o.mem == 0 && o.addr / 4096 == page)
    repair := ((m.repair.filter fun (x : Repair) => !(x.kind == 2 && x.addr == page * 4096))
      ++ [({ kind := 2, spare := n, addr := page * 4096 } : Repair)]).take 8184 })

/-- Recorder region: does a die offset lie in the recorder area (Table 10-1)? -/
def inRecorder (addr : Nat) : Bool := 0x2500000 ≤ addr % 2 ^ 26 && addr % 2 ^ 26 < 0x2900000
/-- The recorder-region offset of a die address (R258). -/
def recorderOff (addr : Nat) : Nat := ilv 0x2500000 addr

/-- JRAM line retirement (R314): the repair entry; the switch follows when that entry is durable. -/
def retireLine (s : State) (addr : Nat) : State :=
  let die := addr / 2 ^ 26 % 2
  let line := addr % 2 ^ 26 / 256
  let n := ngetD s.mem.jspare die 0
  if 16384 ≤ n then raise s 71 else
  addRepair (updMem s fun m => { m with jspare := nset m.jspare die (n + 1), jline := m.jline ++ [(die, line)] })
    { kind := 3, unit := die, spare := n, addr := addr / 256 * 256 }

/-- JRAM_LINE_SWITCH: accesses go to the spare line. -/
def lineSwitch (s : State) (die line : Nat) : State :=
  updMem s fun m => { m with jline := m.jline.filter fun x => x != (die, line) }

/-- A hard fault of a cache SRAM row: the way that holds the row is disabled as R176 and R177 say. Which way a row belongs
to is not stated: a free value (log entry 5). -/
def retireRow (s : State) (unit addr : Nat) : State :=
  let s := addRepair s { kind := 1, unit, addr }
  if 2 ≤ unit then s else
  let (s, way) := freshBelow s (phcWays s)
  let (s, set) := freshBelow s (phcSets s)
  if bitOf (rd s (Reg.ctl .phc)) 4 && !wayOff s way && s.phc.disabling.isNone then
    updPhc (wayDisable s way set) fun p => { p with rowKnown := p.disabling.isSome }
  else s

/-- A hard fault (R312): SCB_HF, source 70, and the action of Table 12-5. -/
def hardFault (s : State) (mem unit addr : Nat) : State :=
  let s := raise (wr s (scb 0x60) (2 ^ 63 + mem * 2 ^ 61 + unit * 2 ^ 57 + addr % 2 ^ 40)) 70
  if mem = 0 then retirePage s addr
  else if mem = 1 then
    let full := decide (16384 ≤ ngetD s.mem.jspare (addr / 2 ^ 26 % 2) 0)
    let s := retireLine s addr
    if full && inRecorder addr then recFail s 4 (recorderOff addr) else s
  else retireRow s unit addr

/-! ## JRAM reports (R305, R307, R281) -/



/-! ## Repeat offenders (R311, R312) -/

/-- What an entry names of an address (R311): the DRAM or JRAM unit, or the SRAM and its row. -/
def offUnit (mem unit : Nat) : Nat := if mem = 2 then unit else 0
def offAddr (mem addr : Nat) : Nat := if mem = 2 then addr / 256 * 256 else addr / 64 * 64
def sameOff (mem unit addr : Nat) (o : Offender) : Bool :=
  o.mem == mem && o.unit == offUnit mem unit && o.addr == offAddr mem addr
/-- The lowest CORR among entries with REWR 0. -/
def leastCorr (l : List Offender) : Option Nat :=
  (l.filter fun o => o.rewr == 0).foldl (fun a o => some (match a with | some n => min n o.corr | none => o.corr)) none

/-- A correction arrives for an address: its entry counts it, and a rewrite or a hard fault may follow. -/
def offender (s : State) (mem unit addr : Nat) : State :=
  match s.mem.offend.find? (sameOff mem unit addr) with
  | some o =>
    if rdField s (scb 0x58) 3 0 ≤ o.rewr then
      hardFault (updMem s fun m => { m with offend := m.offend.filter fun x => !sameOff mem unit addr x }) mem o.unit o.addr
    else
      let n := o.corr + 1
      let o' : Offender := if rdField s (scb 0x58) 15 8 ≤ n then { o with corr := 0, rewr := o.rewr + 1 } else { o with corr := n }
      updMem s fun m => { m with offend := m.offend.map fun x => if sameOff mem unit addr x then o' else x }
  | none =>
    let e : Offender := { mem, unit := offUnit mem unit, addr := offAddr mem addr, corr := 1, rewr := 0 }
    if s.mem.offend.length < 64 then updMem s fun m => { m with offend := m.offend ++ [e] }
    else match leastCorr s.mem.offend with
      | none => satAdd s (scb 0x5C) 31 0 1
      | some n =>
        match s.mem.offend.find? fun o => o.rewr == 0 && o.corr == n with
        | some v => updMem s fun m => { m with offend := (m.offend.filter fun x => x != v) ++ [e] }
        | none => s

/-! ## Failed device positions (R299) -/

def devFail (i : Nat) : Nat := drc (0x60 + 4 * i)
/-- Is a position of a channel and rank erased? -/
def posErased (s : State) (i pos : Nat) : Bool := bitOf (rd s (devFail i)) 31 && rdField s (devFail i) 20 16 == pos

/-- A position is declared failed: the first on a channel and rank is erased from then on, a second sets DEV2. -/
def declareFailed (s : State) (i pos : Nat) : State :=
  if !bitOf (rd s (devFail i)) 31 then
    let s := wr s (devFail i) (setBits (rd s (devFail i)) 31 31 1)
    let s := orReg (wrField s (devFail i) 20 16 pos) (drc 0x2C) 8
    addRepair (raise s 66) { kind := 4, addr := i * 32 + pos }
  else if bitOf (rd s (devFail i)) 15 then s
  else
    let s := wrField (wrField s (devFail i) 15 15 1) (devFail i) 12 8 pos
    raise (orReg s (drc 0x2C) 16) 66

/-- A correction on a device position: 16 distinct units within 2^20 reads of the channel declare it failed. -/
def deviceHit (s : State) (unit pos : Nat) : State :=
  let i := Config.dramRank unit % 4
  let n := ngetD s.mem.reads (i / 2) 0
  let k := i * 32 + pos
  let l := ((ngetD s.mem.hits k []).filter fun h => n < h.2 + 2 ^ 20 && h.1 != unit) ++ [(unit, n)]
  if l.length < 16 then updMem s fun m => { m with hits := nset m.hits k l }
  else declareFailed (updMem s fun m => { m with hits := ndel m.hits k }) i pos

/-- The position that a unit's channel and rank treat as an erasure. -/
def erasedPos (s : State) (i : Nat) : Option Nat := if bitOf (rd s (devFail i)) 31 then some (rdField s (devFail i) 20 16) else none
/-- The report of a unit's read (Table 12-1): a granule not initialised gives clean units and UNINIT and corrects nothing (R300), and a
poisoned unit carries the poison pattern until a full-unit write (R304). What was written there before the draw of NONCE is lost with
the reset, so a clean unit of such a granule is one written after it. -/
def effective (s : State) (unit : Nat) (r : UnitRead) : UnitReport :=
  let e := if s.mem.poisoned.contains unit then r.err ^^^ poisonBits else r.err
  if unitReady s unit then decodeBurst (erasedPos s (Config.dramRank unit % 4)) e
  else if s.mem.wrote.contains unit && decodeBurst none e == .clean then .clean else .uninit

/-- The 80 bytes that the cells of an initialised unit hold: its data and check symbols under NONCE's mask (R297, R298), with every check
byte XORed with 0xFF while it is poisoned (R304). -/
def storedBurst (s : State) (unit : Nat) : BitVec 640 :=
  unitBurst s.mem.nonce unit (dramLine s unit) ^^^ if s.mem.poisoned.contains unit then poisonBits else 0

/-- What the DRAM controller does with the outcome of a unit's read (Table 12-1, R299, R302, R307). -/
def dramReport (s : State) (unit : Nat) (r : UnitRead) : State :=
  let ch := Config.dramRank unit % 4 / 2
  let s := updMem s fun m => { m with reads := nset m.reads ch (ngetD m.reads ch 0 + 1) }
  match effective s unit r with
  | .clean => s
  | .corrected pos =>
    if posErased s (Config.dramRank unit % 4) pos then s else
    offender (deviceHit (satAdd s (drc 0x38) 63 0 1) unit pos) 0 0 (64 * unit)
  | .ue => patrolUnit (drcReport s 0 unit) unit
  | .poison => patrolUnit (drcReport s 1 unit) unit
  | .uninit => drcReport s 2 unit
/-- Is a report uncorrectable? -/
def isBad (r : UnitReport) : Bool :=
  match r with | .ue => true | .poison => true | .clean => false | .corrected _ => false | .uninit => false
/-- A unit's read, whose loss its owner is told (R304, Table 12-3): a segment of a checkpoint class is rebuilt. -/
def dramRead (s : State) (unit : Nat) (r : UnitRead) : State :=
  let s' := dramReport s unit r
  if isBad (effective s unit r) then lostLine s' (unitSeg s unit) else s'

/-! ## Zero-fill (R300, R301) -/

/-- Ranges of granules with one more range, in rising order and merged where they meet. -/
def addRange : List (Nat × Nat) → Nat × Nat → List (Nat × Nat)
  | [], r => [r]
  | x :: l, r =>
    if r.2 < x.1 then r :: x :: l
    else if x.2 < r.1 then x :: addRange l r
    else addRange l (min x.1 r.1, max x.2 r.2)
/-- DRC_INITCNT. -/
def initCount (s : State) : Nat := min 1048576 ((s.mem.granules.map fun r => r.2 - r.1).foldl (· + ·) 0)

/-- Does a unit lie in granules lo to hi? -/
def inGranules (lo hi unit : Nat) : Bool := lo ≤ unit / 1024 && unit / 1024 < hi
/-- The engine's full-unit write of zeroes to one unit, after what the merge buffer held of it. -/
def zeroUnit (s : State) (u : Nat) : State :=
  updMem { s with dram := s.dram.filter fun e => e.1 / 64 != u } fun m => { m with
    merge := m.merge.filter fun e => e.line != u
    poisoned := m.poisoned.filter (· != u) }
/-- The zero-fill engine starts: it zeroes its range; what a client writes there meanwhile is kept where it lands behind
the engine (log entry 39). -/
def zeroFill (s : State) : State :=
  let lo := rdField s (drc 0x10) 35 16
  let hi := lo + rdField s (drc 0x18) 36 16
  let s := trig54 s (drc 0x24)
  let s := { s with dram := s.dram.filter fun e => !inGranules lo hi (e.1 / 64) }
  updMem s fun m => { m with
    zf := some (lo, hi)
    merge := m.merge.filter fun e => !inGranules lo hi e.line
    poisoned := m.poisoned.filter fun u => !inGranules lo hi u }

/-- A client write that landed before the engine reached its unit is zeroed; whether it did is a free value (log 39). -/
def zeroLate (s : State) (lo hi : Nat) : State :=
  let held : List Nat := s.dram.map (fun (e : Nat × _) => e.1 / 64) ++ s.mem.merge.map (fun (e : MergeEnt) => e.line)
  let units := held.dedup.filter (inGranules lo hi)
  units.foldl (fun s u =>
    let (s, f) := freshBelow s 2
    if f = 1 then zeroUnit s u else s) s

/-- ZERO_FILL_DONE: the granules' bits, DRC_ZFRES and source 65. How far the engine is before that is timing: the bits of its range are
set together (DESIGN CHOICE, log entry 39). -/
def zeroFillDone (s : State) : State :=
  match s.mem.zf with
  | none => s
  | some (lo, hi) =>
    let s := zeroLate s lo hi
    let s := updMem s fun m => { m with
      zf := none
      granules := if lo < hi then addRange m.granules (lo, hi) else m.granules
      wrote := m.wrote.filter fun u => !inGranules lo hi u }
    raise (orReg (wrField s (drc 0x24) 31 31 1) (drc 0x2C) 32) 65

/-- A draw of NONCE clears the initialisation map (R300); its value is free (log entry 5). -/
def drawNonce (s : State) : State :=
  let (s, n) := freshBelow s (2 ^ 64)
  updMem s fun m => { m with nonce := n, granules := [], zf := none, merge := [], wrote := [] }

/-! ## The merge buffer (R303, R304) -/

/-- A read-merge-write: the unit is read and decoded, merged and written, poisoned where the read was uncorrectable (R303 step 4,
R304). -/
def mergeRmw (s : State) (e : MergeEnt) (r : UnitRead) : State :=
  let bad := isBad (effective s e.line r)
  let s := dramRead (satAdd s (drc 0x5C) 31 0 1) e.line r
  let s := putDramLine s e.line (mergeLine e.mask (dramLine s e.line) e.data)
  if bad then updMem s fun m => { m with poisoned := e.line :: m.poisoned } else s
/-- A write of a line whole or by mask: to the cache unless it is DISABLED, else to DRAM, by a read-merge-write where the mask is not
full (R303 steps 3 and 4). The entries are the map engine's, which lie in the cached window; in INVALIDATING and DRAINING the cache
takes the write as Table 6-2 says (log entry 186). r is what the cells add to the read. -/
def flushEnt (s : State) (e : MergeEnt) (r : UnitRead := {}) : State :=
  if s.phc.st != 0 then phcRequest s { line := e.line, write := true, mask := e.mask, bytes := e.data }
  else if e.mask == BitVec.allOnes 64 then putDramLine s e.line e.data
  else mergeRmw s e r

def dropEnt (s : State) (line : Nat) : State := updMem s fun m => { m with merge := m.merge.filter fun e => e.line != line }
/-- The units whose entries flush with a unit's: those that straddling map entries join to it, as first unit and count (R165). -/
def joinedLow (m : List MergeEnt) : Nat → Nat → Nat
  | 0, a => a
  | n + 1, a => if 0 < a && m.any fun e => e.line + 1 == a && e.joined then joinedLow m n (a - 1) else a
def joinedHigh (m : List MergeEnt) : Nat → Nat → Nat
  | 0, a => a
  | n + 1, a => if m.any fun e => e.line == a && e.joined then joinedHigh m n (a + 1) else a
def joinedTo (m : List MergeEnt) (line : Nat) : List Nat :=
  let lo := joinedLow m 32 line
  (List.range (joinedHigh m 32 line + 1 - lo)).map (lo + ·)
def flushOne (s : State) (line : Nat) : State :=
  match s.mem.merge.find? fun e => e.line == line with
  | some e => flushEnt (dropEnt s line) e
  | none => s
/-- A flush, with the entries joined to it, as one operation. -/
def flushLine (s : State) (line : Nat) : State :=
  if s.mem.merge.any fun e => e.line == line then (joinedTo s.mem.merge line).foldl flushOne s else s

/-- One access of a client: the map engine's narrow writes merge (R165); any other access to a buffered unit flushes it first. -/
def clientAccess (s : State) (r : LineReq) : State :=
  if !r.write || r.client != .map || r.mask == BitVec.allOnes 64 then phcRequest (flushLine s r.line) r
  else match s.mem.merge.find? fun e => e.line == r.line with
    | some e =>
      let e' : MergeEnt := { e with mask := e.mask ||| r.mask, data := mergeLine r.mask e.data r.bytes }
      let s := updMem s fun m => { m with merge := m.merge.map fun x => if x.line == r.line then e' else x }
      if e'.mask == BitVec.allOnes 64 then flushLine s r.line else s
    | none =>
      let s := if 32 ≤ s.mem.merge.length then
          (match s.mem.merge with | o :: _ => flushLine s o.line | [] => s) else s
      updMem s fun m => { m with merge := m.merge ++ [{ line := r.line, mask := r.mask, data := r.bytes }] }
/-- Do two narrow writes carry the halves of one map entry that straddles two units (R135)? -/
def straddles (a b : LineReq) : Bool :=
  a.write && b.write && a.client == .map && b.client == .map && b.line == a.line + 1 && a.mask.getLsbD 63 && b.mask.getLsbD 0
    && a.mask != BitVec.allOnes 64 && b.mask != BitVec.allOnes 64
/-- Both halves of a straddling entry: their merge entries flush together from now on; where one of them has left the buffer the
other follows it at once. -/
def clientPair (s : State) (a b : LineReq) : State :=
  let s := clientAccess (clientAccess s a) b
  let has (l : Nat) : Bool := s.mem.merge.any fun e => e.line == l
  if has a.line && has b.line then
    updMem s fun m => { m with merge := m.merge.map fun e => if e.line == a.line then { e with joined := true } else e }
  else flushLine (flushLine s a.line) b.line
/-- The accesses of a command, in order. -/
def clientAccesses (s : State) : List LineReq → State
  | [] => s
  | [a] => clientAccess s a
  | a :: b :: r => if straddles a b then clientAccesses (clientPair s a b) r else clientAccesses (clientAccess s a) (b :: r)

/-- MERGE_AGE_FLUSH: an entry older than AGE; a read-merge-write reads the unit with what the cells add (R303, R304). -/
def mergeAge (s : State) (line : Nat) (r : UnitRead) : State :=
  match s.mem.merge.find? fun e => e.line == line with
  | none => s
  | some e => ((joinedTo s.mem.merge line).filter (· != line)).foldl flushOne (flushEnt (dropEnt s line) e r)

/-! ## Accesses that bypass the cache (R163, R302, R303) -/

/-- The units of a byte range. -/
def unitsIn (a n : Nat) : List Nat := if n = 0 then [] else (List.range ((a + n - 1) / 64 + 1 - a / 64)).map (a / 64 + ·)
/-- A write by an agent that bypasses the cache: buffered writes of its units come first, and what covers a unit only in part leaves it
poisoned where it was. -/
def directWrite (s : State) (a : Nat) (bytes : List Byte) : State :=
  (unitsIn a bytes.length).foldl (fun s u =>
    let lo := max a (64 * u)
    let hi := min (a + bytes.length) (64 * u + 64)
    let s := flushLine s u
    let was := s.mem.poisoned.contains u && decide (hi - lo < 64)
    let new := memWrites 0 s.dram lo ((bytes.drop (lo - a)).take (hi - lo))
    let s := putDramLine s u (BitVec.ofNat 512 (leNat (memReads 0 new (64 * u) 64)))
    if was then updMem s fun m => { m with poisoned := u :: m.poisoned } else s) s
/-- A read by an agent that bypasses the cache: each unit is decoded and reported, and the agent receives all-ones for one that is
uninitialised or uncorrectable (R302, Table 12-3). -/
def directRead (s : State) (a n : Nat) : State × List Byte :=
  let s := (unitsIn a n).foldl (fun s u => dramRead (flushLine s u) u {}) s
  let open? (u : Nat) : Bool := effective s u {} == .uninit || isBad (effective s u {})
  (s, ((memReads 0 s.dram a n).zipIdx).map fun x => if open? ((a + x.2) / 64) then 0xFF else x.1)

/-! ## The scrubber (R310) -/

/-- Round a range outward to whole units of the memory: 64 bytes, or 8 for SRAM. -/
def scrubRange (mem lo len : Nat) : Nat × Nat :=
  let u := if mem = 2 then 8 else 64
  (lo / u * u, (lo + len + u - 1) / u * u)

/-- A scrub starts over a range of a memory. -/
def scrubStart (s : State) (mem unit base len : Nat) : State :=
  let r := scrubRange mem base len
  let s := wrField (wrField (trig54 s (scb 0x2C)) (scb 0x2C) 30 30 0) (scb 0x2C) 29 28 mem
  updMem s fun m => { m with scrub := some (mem, unit, r.1, r.2), scrubStop := false }
/-- SCB_CMD.STOP: the scrub ends after the unit in progress. -/
def scrubStopReq (s : State) : State :=
  if s.mem.scrub.isSome then updMem s fun m => { m with scrubStop := true } else s

end Sys2Proof.Machine
end

