-- ==== Sys2Proof/Machine/Track.lean ====
section
/-! DEFINITION. The threshold table and the tracking loop (R214, R219 to R222). -/

namespace Sys2Proof.Machine

def ttZone (s : State) (page : Nat) : Nat := page * 8 / max s.flash.die.pages 1
/-- The DRAM address of the entry of a page group. -/
def ttAddr (s : State) (lun block page : Nat) : Nat := ttBase s (lunChn lun) + ((lun * 256 + block / 64) * 8 + ttZone s page) * 16
/-- A signed byte, and the byte of an offset, which saturates. -/
def byteInt (v : Nat) : Int := if 128 ≤ v then (v : Int) - 256 else v
def clampI (lo hi x : Int) : Int := max lo (min hi x)
def intByte (x : Int) : Nat := (clampI (-128) 127 x % 256).toNat
/-- The 16 bytes at an address as the cache gives them, lowest first. -/
def entry16 (s : State) (addr : Nat) : Nat := (viewLine s (addr / 64)).toNat / 2 ^ (8 * (addr % 64)) % 2 ^ 128
/-- An entry's bytes: OFS_1 to OFS_15, then BAND and CONF. -/
def ttDecode (v : Nat) : TtEntry :=
  { ofs := (List.range 15).map fun i => (i + 1, byteInt (v / 2 ^ (8 * i) % 256)), band := bitsOf v 127 125, conf := bitsOf v 124 120 }
def ttCode (e : TtEntry) : Nat :=
  ((List.range 15).map fun i => intByte (ngetD e.ofs (i + 1) 0) * 2 ^ (8 * i)).foldl (· + ·) 0 + e.conf * 2 ^ 120 + e.band * 2 ^ 125
/-- The DRAM address of a seed entry, and its offset of a level. -/
def seedAddr (s : State) (c band zone : Nat) : Nat := ttSeedBase s c + (band * 8 + zone) * 16
def seed (s : State) (c band zone l : Nat) : Int := byteInt (entry16 s (seedAddr s c band zone) / 2 ^ (8 * (l - 1)) % 256)
/-- The access to an entry's line, and the masked write of an entry, which marks its segment in the bitmap (R163, R165, R221, R266). -/
def ttFetch (s : State) (addr : Nat) : State :=
  clientAccess s { line := addr / 64, write := false, mask := 0, bytes := 0, client := .track }
def ttStore (s : State) (addr : Nat) (e : TtEntry) : State :=
  let sh := addr % 64
  let seg := segId 5 ((addr - ttBase s 0) / 2 ^ 22)
  let s := updJrc s fun j => { j with dirty := if j.dirty.contains seg then j.dirty else j.dirty ++ [seg] }
  clientAccess s { line := addr / 64, write := true, mask := BitVec.ofNat 64 (0xFFFF * 2 ^ sh),
                   bytes := BitVec.ofNat 512 (ttCode e * 2 ^ (8 * sh)), client := .track }

/-- An entry made fit for the present band (R220). -/
def ttRebase (s : State) (c : Nat) (e : TtEntry) (zone lim : Nat) : TtEntry :=
  let b := s.thm.band
  if e.band = b + 1 then e else
  let upd (l : Nat) : Nat × Int :=
    let sd := seed s c b zone l
    (l, if e.band = 0 then sd else clampI (sd - lim) (sd + lim) (ngetD e.ofs l 0 + sd - seed s c (e.band - 1) zone l))
  { ofs := (List.range 15).map fun i => upd (i + 1), band := b + 1, conf := 0 }
def ttLim (s : State) (c : Nat) : Nat := rdField s (chn c 0x90) 15 8
/-- The entry of a page group as its courier uses it: read through the cache and, where it is not of the present band, rebased by the
seeds and written back (R220). -/
def ttUse (s : State) (lun block page : Nat) : State × TtEntry :=
  let c := lunChn lun
  let a := ttAddr s lun block page
  let z := ttZone s page
  let s := ttFetch s a
  let old := ttDecode (entry16 s a)
  if old.band = s.thm.band + 1 then (s, old) else
  let s := ttFetch s (seedAddr s c s.thm.band z)
  let s := if old.band = 0 then s else ttFetch s (seedAddr s c (old.band - 1) z)
  let e := ttRebase s c old z (ttLim s c)
  (ttStore s a e, e)
/-- The tracked offsets of a page group's levels, in quarter steps. -/
def ttTracked (s : State) (lun block page : Nat) : State × List (Nat × Int) :=
  let (s, e) := ttUse s lun block page
  (s, (Config.dieLevels s.flash.die.raw page).map fun l => (l.1, ngetD e.ofs l.1 0))

/-- Rounded to the nearest, half away from zero. -/
def roundDiv (a : Int) (b : Nat) : Int := if 0 ≤ a then (2 * a + b).tdiv (2 * b) else -((2 * (-a) + b).tdiv (2 * b))

/-- Offsets as the die receives them, in whole steps (R219); how half a step rounds is not stated (DESIGN CHOICE, log entry 190). -/
def wholeSteps (l : List (Nat × Int)) : List (Nat × Int) := l.map fun x => (x.1, roundDiv x.2 4)

/-- D in 65,536ths (R221). -/
def ttD (decoded : Bool) (st : ReadStats) : Int :=
  if decoded then roundDiv (((st.rawOnes : Int) - st.corrOnes) * 65536) 36864 else roundDiv ((st.rawOnes : Int) * 65536) 36864 - 32768
/-- Its sign σ; that of D = 0, which the spec does not give, is taken as +1 (DESIGN CHOICE, log entry 164). -/
def ttSign (decoded : Bool) (st : ReadStats) : Int := if 0 ≤ ttD decoded st then 1 else -1

/-- The update of R221 from one read. -/
def ttUpdate (s : State) (lun block page : Nat) (decoded : Bool) (st : ReadStats) : State :=
  let c := lunChn lun
  let cfg := rd s (chn c 0x90)
  let z := ttZone s page
  let a := ttAddr s lun block page
  let lim := bitsOf cfg 15 8
  let (s, e) := ttUse s lun block page
  if st.weight < bitsOf cfg 7 0 then ttStore s a { e with conf := min (e.conf + 1) 31 } else
  let d := ttD decoded st
  let stepmax : Int := bitsOf cfg 23 16
  let s := ttFetch s (seedAddr s c s.thm.band z)
  let one (a : TtEntry × Bool) (l : Nat × Int × Int) : TtEntry × Bool :=
    let dq := clampI (-stepmax) stepmax ((-l.2.1 * l.2.2 * (bitsOf cfg 31 24 : Int) * d).tdiv (2 ^ 18))
    let sd := seed s c s.thm.band z l.1
    let x := ngetD a.1.ofs l.1 0 + dq
    ({ a.1 with ofs := nset a.1.ofs l.1 (clampI (sd - lim) (sd + lim) x) }, a.2 || decide (x < sd - lim) || decide (sd + lim < x))
  let (e, clamped) := (Config.dieLevels s.flash.die.raw page).foldl one (e, false)
  let s := ttStore s a { e with conf := if clamped then 0 else min (e.conf + 1) 31 }
  if clamped then dstCauseSet (satAdd s (chn c 0xB4) 31 0 1) (c / 8) 9 else s

/-- The shift that re-read j = 1, 2, 3 of step 2 adds to level l (R214). -/
def ttShift (s : State) (c : Nat) (sig : Int) (j : Nat) (l : Nat × Int × Int) : Int :=
  let sj : Int := if j = 1 then 1 else if j = 2 then 2 else -1
  (rdField s (chn c 0x98) 7 0 : Int) * sj * sig * (-l.2.1)
/-- The levels of re-read j, each with its tracked offset and its shift. -/
def ttShifted (s : State) (lun block page : Nat) (sig : Int) (j : Nat) : State × List (Nat × Int × Int) :=
  let (s, e) := ttUse s lun block page
  (s, (Config.dieLevels s.flash.die.raw page).map fun l => (l.1, ngetD e.ofs l.1 0, ttShift s (lunChn lun) sig j l))

/-- Half the shift of the re-read that decoded, toward zero (R214, R221). -/
def ttHalfShift (s : State) (lun block page : Nat) (tried : List (Nat × Int × Int)) : State :=
  let (s, e) := ttUse s lun block page
  let one (e : TtEntry) (l : Nat × Int × Int) : TtEntry := { e with ofs := nset e.ofs l.1 (ngetD e.ofs l.1 0 + l.2.2.tdiv 2) }
  ttStore s (ttAddr s lun block page) (tried.foldl one e)

end Sys2Proof.Machine
end

