-- ==== Sys2Proof/Machine/Cmd.lean ====
section
/-! DEFINITION. The sorting office's table: tracking, overlap, statuses, dependency failures and freezes (R99 to R126), the
protection information of blocks (R88), bundle reservation (R143), and what a command does as its data arrives and its
programs end. -/

namespace Sys2Proof.Machine

/-! ## The command table -/

def getCmd (s : State) (id : Nat) : Option Cmd := nget s.srt.cmds id
def modCmd (s : State) (id : Nat) (f : Cmd → Cmd) : State := updSrt s fun t => { t with cmds := nmod t.cmds id f }
def dropCmd (s : State) (id : Nat) : State := updSrt s fun t => { t with cmds := ndel t.cmds id }
def srt (off : Nat) : Nat := 0x20000 + off

/-- Tracked and holding entries (R101). -/
def Cmd.holds (c : Cmd) : Bool := c.accepted && !c.resolved && 0 < c.entries
/-- SRT_OCC: commands and range entries in use. -/
def occCmds (s : State) : Nat := (s.srt.cmds.filter fun c => c.2.holds).length
def occRanges (s : State) : Nat := ((s.srt.cmds.filter fun c => c.2.holds).map fun c => c.2.entries - 1).foldl (· + ·) 0
/-- SRT_HWM follows the occupancy. -/
def hwm (s : State) : State :=
  let s := wrField s (srt 0x14) 14 0 (max (rdField s (srt 0x14) 14 0) (occCmds s))
  wrField s (srt 0x14) 31 16 (max (rdField s (srt 0x14) 31 16) (occRanges s))

def rangesMeet (a b : Nat × Nat × Nat) : Bool := a.1 == b.1 && max a.2.1 b.2.1 < min (a.2.1 + a.2.2) (b.2.1 + b.2.2)
/-- Two tracked commands overlap (R102). -/
def overlap (c d : Cmd) : Bool := (c.modif || d.modif) && c.ranges.any fun a => d.ranges.any fun b => rangesMeet a b
/-- The lowest letter in which two commands overlap. -/
def lowestCommon (c d : Cmd) : Nat :=
  let ls := c.ranges.flatMap fun a => (d.ranges.filter (rangesMeet a)).map fun b => max a.2.1 b.2.1
  ls.foldl min (ls.headD 0)

/-- The lowest letter a command names, for the Error Information log (R115). -/
def lowestLetter (c : Cmd) : Nat := (c.ranges.map fun r => r.2.1).foldl min ((c.ranges.head?.map fun r => r.2.1).getD 0)

def nsOf (s : State) (nsid : Nat) : Option Ns := nget s.map.tab.ns nsid
def sqOf (s : State) (q : Sqe) : Option Sq := nget (getPort s q.port).sqs q.qid

/-! ## Completion, freezes and dependency failures -/

/-- SRT_STS.TRK_FULL. -/
def trkFull (s : State) : Bool := bitOf (rd s (Reg.sts .srt)) 16
/-- TRK_FULL ends when no command waits at acceptance (R101). -/
def trkSettle (s : State) : State :=
  if !trkFull s || (s.srt.cmds.any fun c => !c.2.accepted) then s else wrField s (Reg.sts .srt) 16 16 0

/-- Does a flash read or a ladder still work for a command? -/
def readsLive (s : State) (id : Nat) : Bool :=
  (s.flash.ops.any fun o => o.2.cws.any fun x => x.2.contains (.cmd id)) || s.flash.lads.any fun l => l.2.reqs.contains (.cmd id)
/-- The pins of a command that ends: released, or kept until its flash reads are done (R108). -/
def unpinCmd (s : State) (id : Nat) (pins : List Nat) : State :=
  if pins.isEmpty then s
  else if readsLive s id then updMap s fun m => { m with pinHold := m.pinHold ++ [(id, pins)] }
  else pins.foldl unpin s
/-- Pins of ended commands whose flash reads are done are released. -/
def settlePins (s : State) : State :=
  let done := s.map.pinHold.filter fun e => !readsLive s e.1
  if done.isEmpty then s else
  (done.flatMap fun e => e.2).foldl unpin (updMap s fun m => { m with pinHold := m.pinHold.filter fun e => !done.contains e })

/-- A Delete I/O Submission Queue that waits: the queue goes with the last outstanding command, and the deletion completes. -/
def deleteSettled (s : State) (q : Sqe) : State :=
  match sqOf s q with
  | some { deleting := some d, .. } =>
    if s.srt.cmds.any fun c => c.2.q.port == q.port && c.2.q.qid == q.qid then s
    else complete (modPort s q.port fun x => { x with sqs := ndel x.sqs q.qid }) d stOk
  | _ => s

/-- The pool pressure mark in 256ths of a bundle, and whether a count of bundles in use exceeds it. -/
def poolMark (s : State) : Nat := rdField s 0x30018 31 24 * rdField s 0x30010 26 0
def aboveMark (s : State) (used : Nat) : Bool := poolMark s < 256 * used
/-- Pool pressure begins where the bundles in use exceed the mark or a listed case waits, and ends when use is below the mark and
none waits (Table 5-7). -/
def settlePressure (s : State) : State :=
  let now := usedBundles s.map.tab
  if aboveMark s now || !s.map.waiters.isEmpty then updMap s fun m => { m with pressed := true }
  else if 256 * now < poolMark s then updMap s fun m => { m with pressed := false } else s

/-- The command ends: it leaves the table, releases pins, reservations and page groups, and its completion is posted unless
a port event muted it. A trigger status freezes a fail-stop queue first (R121, R123). -/
def endCmd (s : State) (id : Nat) (st : Status) (dw0 : Nat := 0) (lba : Nat := 0) (cs : Nat := 0) : State :=
  match getCmd s id with
  | none => s
  | some c =>
    let s := dropHolder (dropCmd s id) (.cmd id)
    let s := updMap s fun m => { m with
      resv := m.resv.filter fun r => r.2.1 != .cmd id
      waiters := m.waiters.filter fun w => w.h != .cmd id }
    let s := unpinCmd (trkSettle (settlePressure s)) id c.pins
    if c.mute then s else
    let trig := match sqOf s c.q with | some q => st.triggers && q.failStop && !q.frozen && c.q.qid != 0 | none => false
    let s := if trig then raise (modPort s c.q.port fun x => { x with sqs := nmod x.sqs c.q.qid fun q => { q with frozen := true } }) 91 else s
    deleteSettled (complete s c.q st (dwTrigger dw0 trig) lba cs) c.q

/-- A waiting fail-stop command ordered behind one that completed without being applied (R125). -/
def dependents (s : State) (id : Nat) (c : Cmd) : List Nat :=
  (s.srt.cmds.filter fun d => id < d.1 && overlap c d.2 && !d.2.released && d.2.status.isNone && d.2.accepted && c.modif &&
    ((sqOf s d.2.q).map fun q => q.failStop).getD false).map fun d => d.1

/-! ## The state of the chip and of operations in progress (R107, R114) -/

def isFormat (b : Instr) : Bool := match b with | .formatNvm _ _ _ _ _ _ _ => true | _ => false
def isSanitize (b : Instr) : Bool :=
  match b with | .sanitizeBlockErase _ _ _ _ => true | .sanitizeCryptoErase _ _ _ _ => true | _ => false
/-- A sanitize runs (R107). -/
def sanitizeOn (s : State) : Bool := s.prog.kind == 2 || s.map.tab.sanitize != 0
/-- The failure mode that a failed sanitize with AUSE 0 leaves (R418). -/
def sanFailed (s : State) : Bool := s.prog.stage == 7
/-- A format of the namespace runs (R107): released, whether or not its start group is durable yet. -/
def formatOn (s : State) (nsid : Nat) : Bool :=
  ((nsOf s nsid).map fun n => n.formatting).getD false
    || s.srt.cmds.any fun c => isFormat c.2.body && c.2.released && c.2.status.isNone && c.2.ranges.any fun r => r.1 == nsid
def anyFormat (s : State) : Bool := (s.map.tab.ns.any fun e => e.2.formatting) || s.srt.cmds.any fun c => isFormat c.2.body



/-- Conditions 2 to 4 of R114 for a command on a namespace. -/
def stateFault (s : State) (nsid : Nat) (modif : Bool) : Option Status :=
  if s.map.chip = 4 || (nsid != 0 && keyLost s nsid) then some stAnaLoss
  else if sanitizeOn s then some stSanProgress
  else if sanFailed s then some stSanFailed
  else if nsid != 0 && formatOn s nsid then some stFmtProgress
  else if modif && s.map.chip = 3 then some stWriteProt
  else none

/-- The status of a command that a dependency failure ends: a condition that R114 puts before it, where the command meets one,
with its own letter and no command named. -/
def dependencyStatus (s : State) (c e : Cmd) : Status × Nat × Nat :=
  match stateFault s e.q.nsid e.modif with
  | some st => (st, lowestLetter e, 0)
  | none => (stDependency, lowestCommon c e, c.q.qid + c.q.cid * 2 ^ 16 + (c.q.port.num + 1) * 2 ^ 32)

/-- Complete a command unapplied, with the dependency failures that follow, in fetch order (R125). -/
def failFuel : Nat → State → Nat → Status → Nat → Nat → State
  | 0, s, _, _, _, _ => s
  | n + 1, s, id, st, lba, cs =>
    match getCmd s id with
    | none => s
    | some c =>
      let ds := dependents s id c
      let s := endCmd s id st 0 lba cs
      ds.foldl (fun s d => match getCmd s d with
        | some e => let (st, l, k) := dependencyStatus s c e; failFuel n s d st l k
        | none => s) s

def failCmd (s : State) (id : Nat) (st : Status) (lba : Nat := 0) (cs : Nat := 0) : State :=
  failFuel (s.srt.cmds.length + 1) s id st lba cs

/-- A format or sanitize starts: commands fetched after it, for letters it affects, complete with its In Progress status
(R107). -/
def inProgressEnds (s : State) (id : Nat) (c : Cmd) (st : Status) : State :=
  ((s.srt.cmds.filter fun d => id < d.1 && (overlap c d.2 || isSanitize c.body) && d.2.accepted && !d.2.released && d.2.status.isNone).map
    fun d => d.1).foldl
    (fun s i => match getCmd s i with | some d => failCmd s i st (lowestLetter d) | none => s) s

/-- A modifying command whose groups are all applied: resolved and completed with success (R107, R109). -/
def finishCmd (s : State) (id : Nat) (dw0 : Nat := 0) : State := endCmd (modCmd s id fun c => { c with resolved := true }) id stOk dw0

/-! ## Protection information (R88): guard in bits 63:0, application tag 79:64, reference tag 127:80 (log entry 35) -/

/-- The guard of a block: the NVMe 64b CRC of its 4,096 data bytes. -/
def piGuard (d : LetterData) : BitVec 64 := BitVec.ofNat 64 (crcNvme (le 4096 d.toNat))
def piGuardOf (v : BitVec 128) : BitVec 64 := v.extractLsb' 0 64
def piApp (v : BitVec 128) : Nat := (v.extractLsb' 64 16).toNat
def piRef (v : BitVec 128) : Nat := (v.extractLsb' 80 48).toNat
def mkPi (data : LetterData) (app ref : Nat) : BitVec 128 := BitVec.ofNat 48 ref ++ BitVec.ofNat 16 app ++ piGuard data
/-- The PI of a deallocated letter: all ones (R150). -/
def piOnes : BitVec 128 := BitVec.allOnes 128

/-- The first failed check of block i: 1 guard, 2 application tag, 3 reference tag. -/
def piCheck (typ : Nat) (o : PiOp) (i : Nat) (data : LetterData) (v : BitVec 128) : Option Nat :=
  let off := piApp v == 0xFFFF && (typ == 1 || piRef v == 2 ^ 48 - 1)
  if off then none
  else if o.chkGuard && piGuardOf v != piGuard data then some 1
  else if o.chkApp && (piApp v &&& o.lbatm) != (o.lbat &&& o.lbatm) then some 2
  else if o.chkRef && typ == 1 && piRef v != (o.ilbrt + i) % 2 ^ 48 then some 3
  else none

def piStatus (k : Nat) : Status := if k = 1 then stGuard else if k = 2 then stAppTag else stRefTag

/-- The slot metadata's MD field for a host block (Table 8-2). -/
def mdOf (n : Ns) (o : PiOp) (i : Nat) (b : HostBlock) : BitVec 128 :=
  if n.lbaf = 2 then (if o.pract then mkPi b.data o.lbat ((o.ilbrt + i) % 2 ^ 48) else b.md.extractLsb' 0 128)
  else if n.lbaf = 1 then BitVec.ofNat 128 (b.md.extractLsb' 0 64).toNat
  else 0

/-- The clear key of a namespace. -/
def keyOf (s : State) (nsid : Nat) : BitVec 512 := ngetD s.cry.keys nsid 0
/-- A letter's data as stored: encrypted; metadata units are not (R89). -/
def sealData (s : State) (n : Ns) (nsid letter : Nat) (d : LetterData) : LetterData :=
  if n.nsze ≤ letter then d else Config.xtsEncrypt (keyOf s nsid) letter d
def openData (v : View) (letter : Nat) (d : LetterData) : LetterData :=
  if v.n.nsze ≤ letter then d else Config.xtsDecrypt v.key letter d

/-! ## Bundles (R143) -/

def poolSize (s : State) : Nat := rdField s 0x30010 26 0
def reserve (s : State) : Nat := rdField s 0x30014 19 0
def bundlesUsed (s : State) : Nat := usedBundles s.map.tab + s.map.resv.length
def bundlesFree (s : State) : Nat := poolSize s - bundlesUsed s
/-- The lowest bundle that is neither in use nor reserved. -/
def freeBundle (s : State) : Nat :=
  ((List.range (bundlesUsed s + 1)).find? fun b =>
    (ngetD s.map.tab.bundles b freeDesc).nsid == 0 && !(s.map.resv.any fun r => r.1 == b)).getD 0

/-- Source 47 where the free bundles fall to RESV, source 41 where the bundles in use rise above POOL_HIGH (Table 5-16), with the
pool pressure that follows. -/
def poolEvents (s : State) (free used : Nat) : State :=
  let s := if reserve s < free && bundlesFree s = reserve s then raise s 47 else s
  let now := usedBundles s.map.tab
  settlePressure (if aboveMark s now && !aboveMark s used then raise s 41 else s)

/-- A free bundle is reserved for a holder's update of a parcel. -/
def takeBundle (s : State) (h : Holder) (nsid p : Nat) : State :=
  poolEvents (updMap s fun m => { m with resv := m.resv ++ [(freeBundle s, h, nsid, p)] }) (bundlesFree s) (usedBundles s.map.tab)
/-- Reserve a bundle for a holder's update of a parcel; false where the table of R143 gives none. The free bundles that end
the waits of listed cases that came earlier are not there to take. -/
def tryBundle (s : State) (h : Holder) (nsid p : Nat) (listed : Bool) : State × Bool :=
  if s.map.resv.any fun r => r.2 == (h, nsid, p) then (s, true) else
  let f := bundlesFree s - s.map.waiters.length
  if if listed then 0 < f else reserve s < f && bitOf (rd s 0x30018) 0 then (takeBundle s h nsid p, true) else (s, false)

/-- A listed case waits for a bundle, in arrival order: source 47, and pool pressure (Table 5-7). -/
def waitBundle (s : State) (w : Waiter) : State :=
  if s.map.waiters.contains w then s
  else raise (updMap s fun m => { m with waiters := m.waiters ++ [w], pressed := true }) 47

def needsBundle (e : PEnt) : Bool := match e with | .fine _ => false | .unmapped => true | .ptr _ => true | .dead _ => true
def isDeadEnt (e : PEnt) : Bool := match e with | .dead _ => true | .unmapped => false | .ptr _ => false | .fine _ => false

/-! ## Corrupt entries (R131) and segments being rebuilt (R308) -/

/-- The segments that the lookup of a letter touches: its parcel's, and its bundle's where it has one. -/
def lookupSegs (s : State) (nsid l : Nat) : List Nat :=
  parcelSegs s.map.tab nsid (l / 16) 1 ++ (bundleOf (entryOf s.map.tab nsid (l / 16))).toList.flatMap bundleSegs
/-- A letter whose lookup touches a segment that is being rebuilt. -/
def onLost (s : State) (nsid l : Nat) : Bool := (lookupSegs s nsid l).any fun g => s.phc.lost.contains g
/-- Letter ranges whose lookup touches one. -/
def rangesLost (s : State) (nsid : Nat) (rs : List (Nat × Nat)) : Bool :=
  rs.any fun r => r.2 != 0 &&
    (((parcelSegs s.map.tab nsid (r.1 / 16) ((r.1 + r.2 - 1) / 16 + 1 - r.1 / 16)).any fun g => s.phc.lost.contains g)
      || (((nget s.map.tab.ns nsid).map fun n => n.parcels).getD []).any fun e =>
          decide (r.1 / 16 ≤ e.1) && decide (16 * e.1 < r.1 + r.2) && onLost s nsid (16 * e.1))
/-- The segment of the first corrupt entry among letters. -/
def corruptSeg (s : State) (nsid : Nat) (ls : List Nat) : Option Nat :=
  (ls.find? (corruptAt s nsid)).bind fun l => segOf s.map.tab nsid (l / 16)
/-- Source 46 and the rebuild of a corrupt entry's segment. -/
def corrupt (s : State) (seg : Nat) : State := if s.phc.lost.contains seg then s else needRebuild (raise s 46) seg
/-- Every corrupt entry among letters of namespaces starts its segment's rebuild. -/
def corruptAny (s : State) (ls : List (Nat × Nat)) : State :=
  ls.foldl (fun s x => match corruptSeg s x.1 [x.2] with | some g => corrupt s g | none => s) s

/-! ## Slot allocation (R137) -/

/-- Letters of a run grouped by parcel, ascending: each parcel with its letters in the parcel. -/
def byParcel (slba n : Nat) : List (Nat × List Nat) :=
  if n = 0 then [] else
  let p0 := slba / 16
  let p1 := (slba + n - 1) / 16
  (List.range (p1 + 1 - p0)).map fun i =>
    (p0 + i, (List.range 16).filter fun l => slba ≤ 16 * (p0 + i) + l && 16 * (p0 + i) + l < slba + n)


/-- Program letters of one parcel for a command, as a whole page group or in the packing page group; the places taken. -/
def placeLetters (s : State) (id k p : Nat) (ls : List Nat) (pay : Nat → Nat → Payload) :
    State × List (Nat × Nat × Nat) :=
  if ls.length = 16 then
    let (s, g) := newPg s k (.cmd id)
    let (s, out) := ls.foldl (fun (a : State × List (Nat × Nat × Nat)) l =>
      let (s, w) := takeWsn a.1
      (pgPut s g l (pay l w) (.cmd id), a.2 ++ [(16 * p + l, g, l)])) (s, [])
    (pgClose s g, out)
  else
    ls.foldl (fun (a : State × List (Nat × Nat × Nat)) l =>
      let (s, w) := takeWsn a.1
      let (s, g, slot) := packPut s k (pay l w) (.cmd id)
      (s, a.2 ++ [(16 * p + l, g, slot)])) (s, [])

/-- The stream's open superblock number: streams 1 to 15 as named, 16 and none on superblock 0 (R138). -/
def streamSb (stream : Nat) : Nat := if stream = 16 then 0 else stream % 16

/-- Wants of placed letters: whole parcels and partial ones (Table 5-6). -/
def wantsOf (nsid : Nat) (places : List (Nat × Nat × Nat)) : List Want :=
  let ps := (places.map fun x => x.1 / 16).dedup
  ps.map fun p =>
    let mine := places.filter fun x => x.1 / 16 == p
    match mine with
    | (_, g, _) :: _ => if mine.length = 16 && mine.all fun x => x.2.1 == g && x.2.2 == x.1 % 16 then .whole nsid p g
        else .put nsid p (mine.map fun x => (x.1 % 16, x.2.1, x.2.2))
    | [] => .put nsid p []

/-- New letters of a set: those whose present kind is 0b00 (R154). -/
def newLetters (s : State) (nsid : Nat) (ls : List Nat) : Nat :=
  (ls.filter fun l => letterOf s.map.tab nsid l == .gone).length

/-- A namespace's mapped letters below NSZE (NCAP counts those; log entry 36). -/
def mappedUser (s : State) (n : Ns) : Nat :=
  n.mapped - ((n.parcels.filter fun e => n.nsze / 16 ≤ e.1).map fun e => mappedBy s.map.tab e.2).foldl (· + ·) 0

/-- CAPACITY_CHECK (R154): admitted, or Capacity Exceeded. user are new letters below NSZE, all with metadata units; letters
that are overwrites are accepted whatever the counts are. -/
def capacityOk (s : State) (nsid user all : Nat) : Bool :=
  match nsOf s nsid with
  | some n => (user = 0 || mappedUser s n + admittedUser s nsid + user ≤ n.ncap)
      && (all = 0 || mappedM s + admitted s + all ≤ budget s)
  | none => false

/-- Complete with Capacity Exceeded (source 45, MAP_BUDCNT). The capacity is short for all its letters at once: the log entry
names the lowest of them (R115). -/
def capacityFail (s : State) (id : Nat) : State :=
  failCmd (raise (satAdd s 0x3006C 31 0 1) 45) id stCapacity (((getCmd s id).map lowestLetter).getD 0)

/-! ## Reads -/

def isLr (b : Instr) : Bool := match b with | .read _ _ lr => lr | _ => false
/-- The last step a requester permits (Table 8-4). -/
def reqLimit (s : State) (r : Req) : Nat :=
  match r with
  | .cmd id => if ((getCmd s id).map fun c => isLr c.body).getD false then 4 else 7
  | .rmw _ => 7 | .reloc _ => 7 | .patrol => 7 | .member _ _ => 4 | .ladder _ => 4
/-- A request joins the ladder that runs for its codeword (R216). -/
def joinLadder (s : State) (x : Nat × Req) : State :=
  updFlash s fun f => { f with lads := f.lads.map fun l => if l.2.ppa == x.1 then (l.1, { l.2 with reqs := l.2.reqs ++ [x.2] }) else l }
/-- Read operations for codewords, one per page group (R477), with their requesters, at the tracked thresholds as they stand when the
courier receives them (R219, R220). A request for a codeword whose ladder runs at a step that it permits joins the ladder. -/
def addReads (s : State) (cls : Nat) (ps : List (Nat × Req)) : State :=
  let joins (x : Nat × Req) : Bool := s.flash.lads.any fun l => l.2.ppa == x.1 && decide (l.2.step ≤ reqLimit s x.2)
  let s := (ps.filter joins).foldl joinLadder s
  let ps := ps.filter fun x => !joins x
  let gs := (ps.map fun x => pgBase x.1).dedup
  gs.foldl (fun s g =>
    let mine := ps.filter fun x => pgBase x.1 == g
    let slots := (mine.map fun x => x.1 % 16).dedup
    let (s, ofs) := ttTracked s (ppaLun g) (ppaBlock g) (ppaPage g)
    addOp s { kind := .read, lun := ppaLun g, block := ppaBlock g, page := ppaPage g, cls,
              cws := slots.map fun i => (i, (mine.filter fun x => x.1 % 16 == i).map fun x => x.2),
              ofs := wholeSteps ofs }) s

/-! ## Asking for a command's groups -/

/-- Request the command's next record group, once its page groups are programmed. -/
def askNext (s : State) (id : Nat) : State :=
  match getCmd s id with
  | some c =>
    match c.wants with
    | w :: r =>
      if c.released && c.ready && !c.asked && allProgrammed s (.cmd id) && !(s.map.waiters.any fun x => x.h == .cmd id) then
        askGroup (modCmd s id fun c => { c with asked := true, wants := r }) (.cmd id) w
      else s
    | [] => s
  | none => s

/-- Ask again for every command that waits only for its programs. -/
def askAll (s : State) : State := s.srt.cmds.foldl (fun s c => askNext s c.1) s

/-- The wants of a command put, with its slots ready. -/
def setWants (s : State) (id : Nat) (ws : List (List Want)) : State :=
  askNext (turn (modCmd s id fun c => { c with wants := ws, ready := true })) id

end Sys2Proof.Machine
end

