-- ==== Sys2Proof/Machine/ReadPath.lean ====
section
/-! DEFINITION. What a reading command and a read-modify-write do with the codewords they read (R34, R35, R113, R114, R144,
R150, R151), and the metadata units of LBAF 3. -/

namespace Sys2Proof.Machine

/-- The fields of a command that names one range of letters. -/
def ioFields (b : Instr) : Option IoFields :=
  match b with
  | .write _ f _ => some f | .read _ f _ => some f | .compare _ f _ => some f | .writeZeroes _ f _ => some f
  | .verify _ f => some f | _ => none

def isWrite (b : Instr) : Bool := match b with | .write _ _ _ => true | _ => false
def isReading (b : Instr) : Bool := match b with | .read _ _ _ => true | .compare _ _ _ => true | .verify _ _ => true | _ => false
def streamNo (b : Instr) : Nat := match b with | .write _ _ k => streamSb k | _ => 0

/-! ## Reading commands -/

/-- A letter's payload as the command found it: none where it is dead or unreadable; a filler is a deallocated letter. -/
def letterGot (c : Cmd) (l : Nat) : Option (Option Payload) :=
  match (c.found.find? fun f => f.1 == l).map Prod.snd with
  | some (Found.slot p) => (ngetD c.got p none).map fun x => if isFiller x then none else some x
  | some .gone => some none
  | some .dead => none
  | none => some none

/-- The metadata of letter l read from its unit (R151). -/
def unitMd (n : Ns) (c : Cmd) (l : Nat) : Option (BitVec 512) :=
  match letterGot c (n.nsze + l / 64) with
  | some (some p) => some (((pData p) >>> (512 * (l % 64))).setWidth 512)
  | some none => some 0
  | none => none

/-- Did the lookup find the metadata unit of a letter dead (R291)? -/
def unitDead (n : Ns) (c : Cmd) (l : Nat) : Bool :=
  n.lbaf == 3 && c.found.any fun f => f.1 == n.nsze + l / 64 && f.2 == .dead
/-- The block returned for a letter: data and metadata (R150); none where it cannot be read, as every letter of a dead unit (R291). -/
def blockGot (v : View) (c : Cmd) (l : Nat) : Option HostBlock :=
  let n := v.n
  if unitDead n c l then none else
  match letterGot c l with
  | none => none
  | some none => some { data := 0, md := if n.lbaf = 2 then piOnes.setWidth 512 else 0 }
  | some (some p) =>
    let md := if n.lbaf = 3 then unitMd n c l else some ((pMd p).setWidth 512)
    md.map fun m => { data := openData v l (pData p), md := m }

/-- The outcome of a reading command whose letters are all read (R113, R114): the status and its letter. A dead letter, or a
dead metadata unit, is no LR outcome. -/
def readOutcome (v : View) (c : Cmd) (f : IoFields) : Status × Nat × List HostBlock :=
  let n := v.n
  let ls := (List.range (f.nlb + 1)).map fun i => f.slba + i
  let got := ls.map fun l => (l, blockGot v c l)
  match got.find? fun x => x.2.isNone with
  | some x =>
    let dead (l : Nat) : Bool := ((c.found.find? fun y => y.1 == l).map fun y => y.2) == some .dead
    (if isLr c.body && !dead x.1 && !(n.lbaf == 3 && dead (n.nsze + x.1 / 64)) then stUnrecoveredLr else stUnrecovered, x.1, [])
  | none =>
    let bs := got.filterMap fun x => x.2
    let fails := if n.lbaf = 2 then
        (ls.zip bs).filterMap fun x =>
          (piCheck n.piType f.pi (x.1 - f.slba) x.2.data (x.2.md.setWidth 128)).map fun k => (k, x.1)
      else []
    match [1, 2, 3].findSome? fun k => fails.find? fun x => x.1 == k with
    | some (k, l) => (piStatus k, l, [])
    | none =>
      match c.body with
      | .compare _ _ hd =>
        (match (ls.zip (bs.zip hd)).find? fun x => x.2.1.data != x.2.2.data || (n.lbaf != 0 && !f.pi.pract && x.2.1.md != x.2.2.md) with
        | some x => (stCompare, x.1, [])
        | none => (stOk, 0, []))
      | .read _ _ _ => (stOk, 0, if f.pi.pract && n.lbaf = 2 then bs.map fun b => { b with md := 0 } else bs)
      | _ => (stOk, 0, [])

/-- A reading command's flash reads are done. -/
def finishRead (s : State) (id : Nat) : State :=
  match getCmd s id with
  | none => s
  | some c =>
    match ioFields c.body, c.view with
    | some f, some v =>
      let (st, lba, bs) := readOutcome v c f
      let s := if bs.isEmpty || c.mute then s else emit s (.hostData c.q.port c.q.cid bs)
      endCmd s id st 0 lba
    | _, _ => endCmd s id stInvalidNs

/-! ## Metadata units of LBAF 3 (R151) -/

/-- Units a write covers: unit, first letter and count within it. -/
def unitsOf (slba n : Nat) : List (Nat × Nat × Nat) :=
  if n = 0 then [] else
  (List.range ((slba + n - 1) / 64 + 1 - slba / 64)).map fun i =>
    let u := slba / 64 + i
    let a := max slba (64 * u)
    let b := min (slba + n) (64 * u + 64)
    (u, a, b - a)

/-- The block a write gives a letter. -/
def writtenBlock (c : Cmd) (f : IoFields) (l : Nat) : HostBlock := c.blocks.getD (l - f.slba) { data := 0, md := 0 }

/-- A unit's 4,096 bytes with the write's metadata merged over what the unit held. -/
def mergeUnit (n : Ns) (c : Cmd) (f : IoFields) (u a k : Nat) : LetterData :=
  let old : LetterData := match letterGot c (n.nsze + u) with | some (some p) => pData p | some none => 0 | none => 0
  (List.range k).foldl (fun d i =>
    let l := a + i
    let sh := 512 * (l % 64)
    let mask : LetterData := (BitVec.allOnes 512).setWidth 32768 <<< sh
    (d &&& ~~~mask) ||| ((writtenBlock c f l).md.setWidth 32768 <<< sh)) old

/-- A unit's payload. -/
def unitPayload (n : Ns) (c : Cmd) (f : IoFields) (u : Nat × Nat × Nat) (wsn : Nat) : Payload :=
  mkPayload (mergeUnit n c f u.1 u.2.1 u.2.2) (n.nsze + u.1) c.q.nsid 2 wsn 0
/-- Units placed in the stream's packing page group (Table 5-5), with the places they took. -/
def placeUnits (s : State) (id : Nat) (c : Cmd) (n : Ns) (f : IoFields) (us : List (Nat × Nat × Nat)) :
    State × List (Nat × Nat × Nat) :=
  us.foldl (fun (a : State × List (Nat × Nat × Nat)) u =>
    let (s, w) := takeWsn a.1
    let (s, g, slot) := packPut s (streamNo c.body) (unitPayload n c f u w) (.cmd id)
    (s, a.2 ++ [(n.nsze + u.1, g, slot)])) (s, [])
/-- The units whose parcel the command rewrites by read-modify-write. -/
def inRmw (n : Ns) (c : Cmd) (u : Nat × Nat × Nat) : Bool := c.rmws.any fun m => m.parcel == (n.nsze + u.1) / 16

/-! ## Read-modify-write (R144) -/

/-- The letters of a held parcel that the command writes or deallocates; of a deallocation, those of the range the
read-modify-write stands for (R111). -/
def rmwOwn (c : Cmd) (m : Rmw) : List Nat :=
  match m.own with
  | some ls => ls
  | none => (List.range 16).filter fun i =>
      c.ranges.any fun r => r.1 == m.nsid && r.2.1 ≤ 16 * m.parcel + i && 16 * m.parcel + i < r.2.1 + r.2.2

/-- A command that deallocates the letters it covers. -/
def deallocates (b : Instr) : Bool :=
  match b with
  | .datasetManagement _ _ _ => true | .writeZeroes _ _ deac => deac | .shedCapacityRanges _ _ => true | _ => false

/-- The payload a command writes to a letter. -/
def writtenPayload (s : State) (n : Ns) (c : Cmd) (f : IoFields) (l wsn : Nat) : Payload :=
  let b := writtenBlock c f l
  if n.nsze ≤ l then unitPayload n c f ((c.units.find? fun u => n.nsze + u.1 == l).getD (l - n.nsze, 0, 0)) wsn
  else mkPayload (sealData s n c.q.nsid l b.data) l c.q.nsid 1 wsn (mdOf n f.pi (l - f.slba) b)

/-- All of a read-modify-write's letters are read: whole page groups, and the wants that set its parcels (R144 steps 4 to
6); a dead letter stays dead in the parcel's bundle. -/
def rmwAssemble (s : State) (id : Nat) (c : Cmd) (n : Ns) (f : IoFields) : State × List Want :=
  let k := streamNo c.body
  let one (a : State × List Want) (m : Rmw) : State × List Want :=
    let own := rmwOwn c m
    let e := entryOf a.1.map.tab m.nsid m.parcel
    let (s, g) := newPg a.1 k (.cmd id)
    let lost := (List.range 16).filter fun i => !own.contains i &&
      (match letterIn s.map.tab e i with
        | .slot p => (ngetD m.got p none).isNone
        | .dead _ => true
        | .gone => false | .odd _ => false)
    let s := (List.range 16).foldl (fun s i =>
      let (s, w) := takeWsn s
      let l := 16 * m.parcel + i
      let pay :=
        if own.contains i then (if deallocates c.body then filler else writtenPayload s n c f l w)
        else match letterIn s.map.tab e i with
          | .slot p => (match ngetD m.got p none with
            | some x => if isFiller x then filler else mkPayload (pData x) l m.nsid (pKind x) w (pMd x)
            | none => filler)
          | .gone => filler | .dead _ => filler | .odd _ => filler
      pgPut s g i pay (.cmd id)) s
    let s := pgClose s g
    if lost.isEmpty then (s, a.2 ++ [.whole m.nsid m.parcel g])
    else
      let lets := (List.range 16).filter fun i => !lost.contains i
      let marks := lost.filterMap fun i => match letterIn s.map.tab e i with
        | .slot p => some (Want.mark m.nsid m.parcel (some i) p) | .gone => none | .dead _ => none | .odd _ => none
      (s, a.2 ++ .put m.nsid m.parcel (lets.map fun i => (i, g, i)) :: marks)
  let (s, ws) := c.rmws.foldl one (s, [])
  let lostAny := c.rmws.filter fun m => (List.range 16).any fun i => !(rmwOwn c m).contains i &&
    (match letterIn s.map.tab (entryOf s.map.tab m.nsid m.parcel) i with
      | .slot p => (ngetD m.got p none).isNone | .dead _ => true | .gone => false | .odd _ => false)
  let s := lostAny.foldl (fun s m =>
    if needsBundle (entryOf s.map.tab m.nsid m.parcel) then
      (let (s, ok) := tryBundle s (.cmd id) m.nsid m.parcel true
       if ok then s else waitBundle s { h := .cmd id, nsid := m.nsid, parcel := m.parcel, dealloc := false })
    else s) s
  (s, ws)

/-! ## Codewords that arrive -/

/-- The fields of a command that names no LBA range of its own. -/
def noFields : IoFields :=
  { slba := 0, nlb := 0, pi := { pract := false, chkGuard := false, chkApp := false, chkRef := false, ilbrt := 0, lbat := 0, lbatm := 0 } }

/-- The group that a want of a Write Zeroes belongs to: runs of 512 parcels, their metadata units with them (R111). -/
def wantKey (n : Ns) (w : Want) : Nat :=
  let key (p : Nat) : Nat := if p < n.nsze / 16 then p / 512 else (p - n.nsze / 16) / 8
  match w with
  | .whole _ p _ => key p | .put _ p _ => key p | .clear _ p _ => key p | .clearRange _ p _ => key p | .move _ p _ _ => key p
  | .moveLetter _ p _ _ _ _ => key p | .consolidate _ p _ _ => key p | .mark _ p _ _ => key p | .resweep _ p _ _ _ => key p
  | .shed _ _ => 0 | .nsop _ _ _ _ => 0 | .desc _ => 0 | .free _ => 0

/-- The record groups of a command's wants: one for a Write, runs of parcels for a Write Zeroes (R110, R111). -/
def groupsOf (b : Instr) (n : Ns) (ws : List Want) : List (List Want) :=
  match b with
  | .writeZeroes _ _ _ =>
    let ks := (ws.map (wantKey n)).dedup
    let top := ks.foldl max 0
    ((List.range (top + 1)).filter fun k => ks.contains k).map fun k => ws.filter fun w => wantKey n w == k
  | _ => [ws]

/-- A partial clear of a rewritten parcel gives way to the rewrite (R149). -/
def clearOr (c : Cmd) (w2 : List Want) (w : Want) : List Want :=
  match w with
  | .clear nsid p ls =>
    if c.rmws.any fun m => m.nsid == nsid && m.parcel == p && m.own == some ls then w2.filter fun x => x.touches nsid p else [w]
  | _ => [w]

/-- All codewords of a modifying command are read: its units and rewritten parcels are placed, or it fails on a dead unit
that it covers only in part (R291). -/
def writeGot (s : State) (id : Nat) : State :=
  match getCmd s id with
  | none => s
  | some c => match nsOf s c.q.nsid with
    | none => s
    | some n =>
      match c.units.find? fun u => u.2.2 < 64 && (letterGot c (n.nsze + u.1)).isNone with
      | some u => failCmd s id stUnrecovered u.2.1
      | none =>
        let f := (ioFields c.body).getD noFields
        let (s, pl) := placeUnits s id c n f (c.units.filter fun u => u.2.2 < 64 && !inRmw n c u)
        let (s, w2) := if c.rmws.isEmpty then (s, []) else rmwAssemble s id c n f
        setWants s id (if deallocates c.body then c.wants.map fun g => g.flatMap (clearOr c w2)
          else groupsOf c.body n (wantsOf c.q.nsid (c.places ++ pl) ++ w2))

/-- A codeword a command waits for is read, for itself or for its read-modify-write: the last one lets it go on. -/
def cmdGot (s : State) (id ppa : Nat) (v : Option Payload) : State :=
  match getCmd s id with
  | none => s
  | some c =>
    if !c.pend.contains ppa then s else
    let pend := c.pend.filter (· != ppa)
    let s := modCmd s id fun c => { c with
      got := nset c.got ppa v, pend, rmws := c.rmws.map fun m => { m with got := nset m.got ppa v } }
    if !pend.isEmpty then s else if isReading c.body then finishRead s id else writeGot s id

end Sys2Proof.Machine
end

