-- ==== Sys2Proof/Machine/Reloc.lean ====
section
/-! DEFINITION. Relocation: jobs, the refresh queue, what is copied of a page group (Table 9-7), victim scans and retirement
(R244 to R255). -/

namespace Sys2Proof.Machine

def modReloc (s : State) (id : Nat) (f : Reloc → Reloc) : State := updMap s fun m => { m with relocs := nmod m.relocs id f }

/-- Groups of at most 1,000 wants (R262). -/
def chunked {α : Type} (n : Nat) : Nat → List α → List (List α)
  | 0, _ => []
  | f + 1, l => if l.isEmpty then [] else l.take n :: chunked n f (l.drop n)

/-- Everything a relocation read is copied and programmed: its record groups are asked for (R242 step 2). -/
def tryReloc (s : State) (id : Nat) : State :=
  match nget s.map.relocs id with
  | none => s
  | some r =>
    if !r.pend.isEmpty || !r.gather.isEmpty || r.wants.isEmpty || !allProgrammed s (.reloc id)
      || s.map.waiters.any fun w => w.h == .reloc id then s
    else
      let gs := chunked 1000 r.wants.length r.wants
      let s := modReloc s id fun r => { r with wants := [], groups := r.groups + gs.length }
      gs.foldl (fun s g => askGroup s (.reloc id) g) s

/-- A relocation with nothing left to do. -/
def relocIdle (r : Reloc) : Bool := r.todo.isEmpty && r.pend.isEmpty && r.gather.isEmpty && r.wants.isEmpty && r.groups == 0

/-! ## The rate of victim reclaim (R249) -/

/-- Table 9-10: 0 none, 1 floor rate, 2 full rate. -/
def reclaimRate (s : State) : Nat :=
  let f := freeF s
  let inside := bitOf (rd s 0x30098) 1
  if f ≤ 2 then 2
  else if rdField s 0x30084 31 16 ≤ f then 0
  else if rdField s 0x30084 15 0 ≤ f then (if inside then 2 else 0)
  else if inside then 2 else 1
/-- Victim jobs, which Table 9-10 paces; static levelling, refresh and rebuilds run beside it. -/
def victimJobs (s : State) : List (Nat × Reloc) := s.map.relocs.filter fun r => r.2.idx.isSome && r.2.op == 1
/-- Read page groups of a relocation. -/
def readPages (s : State) (id : Nat) (pgs : List Nat) : State :=
  addReads s 2 (pgs.flatMap fun p => (List.range 16).map fun i => (p + i, Req.reloc id))
/-- A read of a relocation that the district still holds, and that serves nothing else. -/
def heldRead (o : FOp) (id : Nat) : Bool :=
  o.kind == .read && o.st == .held && o.cws.all fun c => c.2.all fun q => q == .reloc id
/-- Below full rate the page groups none of whose reads a courier has taken go back: the rate holds from now on (Table 9-10). -/
def paceBack (s : State) (x : Nat × Reloc) : State :=
  if reclaimRate s = 2 then s else
  let mine := s.flash.ops.filter fun o => heldRead o.2 x.1
  let slots (pg : Nat) : Nat := sumOf ((mine.filter fun o => ppaOf o.2.lun o.2.block o.2.page 0 == pg).map fun o => o.2.cws.length)
  let back := x.2.pend.filter fun pg => slots pg == 16
  let s := updFlash s fun f => { f with ops := f.ops.filter fun o => !(heldRead o.2 x.1 && back.contains (ppaOf o.2.lun o.2.block o.2.page 0)) }
  modReloc s x.1 fun r => { r with todo := back ++ r.todo, pend := r.pend.filter fun pg => !back.contains pg }
/-- A victim job's next page groups: all at full rate, one at floor rate once the last is copied and credit is left, else none. -/
def paceJob (s : State) (x : Nat × Reloc) : State :=
  let r := x.2
  let rate := reclaimRate s
  let take : List Nat := if rate = 2 then r.todo
    else if rate = 1 && r.pend.isEmpty && r.gather.isEmpty && decide (0 < s.map.earned) then r.todo.take 1 else []
  if take.isEmpty then s else
  readPages (modReloc s x.1 fun r => { r with todo := r.todo.drop take.length, pend := r.pend ++ take }) x.1 take
/-- The victim jobs at the rate of Table 9-10 as it stands now. -/
def reclaimPace (s : State) : State :=
  if (victimJobs s).isEmpty then s else
  let s := (victimJobs s).foldl paceBack s
  pump ((victimJobs s).foldl paceJob s)
/-- At floor rate a host page group programmed earns FLOORK/16 × u/(1 − u) page groups of copying, of the first running victim's u,
kept in 1/65536 page groups (log entry 169). -/
def earn (s : State) : State :=
  match (victimJobs s).head?.bind fun x => nget s.map.tab.sbs x.2.sbx with
  | some b =>
    if reclaimRate s = 1 then
      let e := rdField s 0x30088 7 0 * 4096 * b.vcount / max 1 (b.cap - b.vcount)
      updMap s fun m => { m with earned := m.earned + e }
    else s
  | none => s
/-- The page groups that a relocation began to fill between two states cost what was earned. -/
def spend (s t : State) (id : Nat) : State :=
  if reclaimRate s = 1 && (victimJobs s).any fun x => x.1 == id then
    updMap t fun m => { m with earned := m.earned - 65536 * ((m.pgNext - s.map.pgNext : Nat) : Int) }
  else t

/-- A refresh relocation that is done is forgotten; the last of an early closure lets its superblock be sealed (Table 8-8). -/
def refreshEnd (s : State) (id : Nat) : State :=
  match nget s.map.relocs id with
  | none => s
  | some r =>
    if r.idx.isSome || !relocIdle r then s else
    let s := updMap s fun m => { m with relocs := ndel m.relocs id }
    s.map.opens.foldl (fun s e => match e.2.closing with
      | some l =>
        if l.contains r.first then
          let l' := l.filter (· != r.first)
          let s := modOpen s e.1 fun o => { o with closing := some l' }
          if l'.isEmpty then askSeal s e.1 else s
        else s
      | none => s) s

/-- Consolidation is allowed: a cold bundle, or any under pool pressure, without a dead letter (Table 5-7). -/
def mayConsolidate (s : State) (b : Bundle) : Bool :=
  (b.heat ≤ rdField s 0x30018 23 16 || s.map.pressed)
    && b.ents.all fun e => match e with | .dead _ => false | .gone => true | .slot _ => true | .odd _ => false
/-- The heat of the bundle that holds a payload's letter, 0 where none does. -/
def heatOf (s : State) (p : Payload) : Nat :=
  match entryOf s.map.tab (pNsid p) (pLetter p / 16) with
  | .fine b => ((nget s.map.tab.bundles b).map fun u => u.heat).getD 0
  | .unmapped => 0 | .ptr _ => 0 | .dead _ => 0
def insertCold (s : State) (x : Nat × Payload) : List (Nat × Payload) → List (Nat × Payload)
  | [] => [x]
  | y :: r => if heatOf s x.2 < heatOf s y.2 then x :: y :: r else y :: insertCold s x r
/-- Under pool pressure the coldest bundles of a page group are met first (Table 5-7; DEDUCED, log entry 210). -/
def coldest (s : State) (l : List (Nat × Payload)) : List (Nat × Payload) :=
  if s.map.pressed then l.foldl (fun r x => insertCold s x r) [] else l

/-- Slots that a relocation could not read: those that the map names are the letters that it has marked dead (R217, Table 9-5), each once. -/
def markLost (s : State) (id : Nat) (ppas : List Nat) : State :=
  modReloc s id fun r => { r with dead := (r.dead ++ ppas.filter fun p => !(mapOwners s.map.tab p).isEmpty).dedup }
/-- Copy letters of a gathered parcel into one page group (Table 9-7, second row); where one is lost the others are copied letter by
letter, and the rest of the relocation goes on (Table 8-4). -/
def gatherPut (s : State) (id : Nat) (r : Reloc) (g : Nat × Nat × List (Nat × Nat)) : State :=
  let vals := g.2.2.map fun x => (x.1, x.2, ngetD r.extra x.2 none)
  if vals.any fun v => v.2.2.isNone then
    let s := markLost s id ((vals.filter fun v => v.2.2.isNone).map fun v => v.2.1)
    vals.foldl (fun s v => match v.2.2 with
      | some p =>
        let (s, pg, slot) := packPut s r.stream p (.reloc id)
        modReloc s id fun r => { r with wants := r.wants ++ [.moveLetter g.1 g.2.1 v.1 v.2.1 pg slot] }
      | none => s) s
  else
    let (s, pg) := newPg s r.stream (.reloc id)
    let s := vals.foldl (fun s v => pgPut s pg v.1 (v.2.2.getD filler) (.reloc id)) s
    modReloc (pgClose s pg) id fun r => { r with wants := r.wants ++ [.consolidate g.1 g.2.1 g.2.2 pg] }

/-- Copy what lives in a page group that is read (Table 9-7); a copy keeps the source's WSN. -/
def relocPage (s : State) (id pg : Nat) (slots : NMap (Option Payload)) : State :=
  match nget s.map.relocs id with
  | none => s
  | some r =>
    let live := slots.filterMap fun x => x.2.bind fun p => if pKind p = 1 || pKind p = 2 then some (x.1, p) else none
    let parcelHere := live.find? fun x => entryOf s.map.tab (pNsid x.2) (pLetter x.2 / 16) == .ptr pg
    let s := markLost s id ((slots.filter fun x => x.2.isNone).map fun x => pg + x.1)
    match parcelHere with
    | some (_, p) =>
      let nsid := pNsid p
      let q := pLetter p / 16
      if slots.all fun x => x.2.isSome then
        let (s, g) := newPg s r.stream (.reloc id)
        let s := slots.foldl (fun s x => pgPut s g x.1 (x.2.getD filler) (.reloc id)) s
        modReloc (pgClose s g) id fun r => { r with wants := r.wants ++ [.move nsid q pg g] }
      else
        let (s, ok) := tryBundle s (.reloc id) nsid q true
        let s := if ok then s else waitBundle s { h := .reloc id, nsid, parcel := q, dealloc := false }
        live.foldl (fun s x =>
          let (s, g, slot) := packPut s r.stream x.2 (.reloc id)
          modReloc s id fun r => { r with wants := r.wants ++ [.moveLetter nsid q (pLetter x.2 % 16) (pg + x.1) g slot] }) s
    | none =>
      (coldest s live).foldl (fun s x =>
        let nsid := pNsid x.2
        let q := pLetter x.2 / 16
        let i := pLetter x.2 % 16
        match entryOf s.map.tab nsid q with
        | .fine b => match nget s.map.tab.bundles b with
          | none => s
          | some u =>
            if u.ents.getD i .gone != .slot (pg + x.1) then s
            else if ((nget s.map.relocs id).map fun r => r.gather.any fun g => g.1 == nsid && g.2.1 == q).getD false then s
            else if mayConsolidate s u then
              let ls := (List.range 16).filterMap fun j => match u.ents.getD j .gone with
                | .slot p => some (j, p) | .gone => none | .dead _ => none | .odd _ => none
              let here := slots.filterMap fun y => if ls.any fun l => l.2 == pg + y.1 then some (pg + y.1, y.2) else none
              let s := modReloc s id fun r => { r with
                gather := r.gather ++ [(nsid, q, ls)]
                extra := here.foldl (fun m y => nset m y.1 y.2) r.extra }
              addReads s 2 ((ls.filter fun l => !here.any fun y => y.1 == l.2).map fun l => (l.2, Req.reloc id))
            else
              let (s, g, slot) := packPut s r.stream x.2 (.reloc id)
              modReloc s id fun r => { r with wants := r.wants ++ [.moveLetter nsid q i (pg + x.1) g slot] }
        | .unmapped => s | .ptr _ => s | .dead _ => s) s

/-- The letters that the payloads of a page group belong to. -/
def pageLetters (slots : NMap (Option Payload)) : List (Nat × Nat) :=
  slots.filterMap fun x => x.2.bind fun p => if pKind p = 1 || pKind p = 2 then some (pNsid p, pLetter p) else none
/-- A page group that a relocation has read is looked up in the map: a corrupt entry starts its segment's rebuild (R131), and while a
segment that it needs is being rebuilt the lookup is held (R308). -/
def relocLook (s : State) (id pg : Nat) (slots : NMap (Option Payload)) : State :=
  let ls := pageLetters slots
  let s := corruptAny s ls
  if ls.any fun x => onLost s x.1 x.2 then modReloc s id fun r => { r with parts := nset r.parts pg slots }
  else relocPage (modReloc s id fun r => { r with parts := ndel r.parts pg, pend := r.pend.filter (· != pg) }) id pg slots

/-- Gathered parcels whose letters are all read are copied. -/
def gatherDone (s : State) (id : Nat) : State :=
  match nget s.map.relocs id with
  | none => s
  | some r =>
    let full := r.gather.filter fun g => g.2.2.all fun l => (nget r.extra l.2).isSome
    let s := modReloc s id fun r => { r with gather := r.gather.filter fun g => !full.contains g }
    full.foldl (fun s g => gatherPut s id r g) s

/-- A codeword of a relocation is read, or ended without data. -/
def relocGot (s : State) (id ppa : Nat) (v : Option Payload) : State :=
  match nget s.map.relocs id with
  | none => s
  | some r =>
    let pg := pgBase ppa
    let t :=
      if r.pend.contains pg then
        let slots := nset (ngetD r.parts pg []) (ppa % 16) v
        if slots.length = 16 then relocLook s id pg slots
        else modReloc s id fun r => { r with parts := nset r.parts pg slots }
      else modReloc s id fun r => { r with extra := nset r.extra ppa v }
    let s := turn (spend s (gatherDone t id) id)
    refreshEnd (tryReloc (reclaimPace s) id) id

/-- Lookups that a rebuild held proceed (R308). -/
def relocRetry (s : State) (id : Nat) : State :=
  match nget s.map.relocs id with
  | none => s
  | some r =>
    let held := r.parts.filter fun e => e.2.length == 16
    if held.isEmpty then s else
    let t := held.foldl (fun s e => relocLook s id e.1 e.2) s
    let s := turn (spend s (gatherDone t id) id)
    refreshEnd (tryReloc (reclaimPace s) id) id

/-- Start a relocation of page groups; a victim job reads them at the rate of Table 9-10. -/
def startReloc (s : State) (r : Reloc) (pgs : List Nat) : State :=
  let id := s.map.relNext
  let paced : Bool := r.idx.isSome && r.op == 1
  let r' : Reloc := if paced then { r with todo := pgs } else { r with pend := pgs }
  let s := updMap s fun m => { m with relNext := id + 1, relocs := nset m.relocs id r' }
  if paced then reclaimPace s else pump (readPages s id pgs)

/-- REFRESH_RELOCATION (R252): the head of the refresh queue, through stream 19. -/
def refreshRelocation (s : State) : State :=
  match s.map.refresh with
  | [] => s
  | p :: rest =>
    let s := updMap s fun m => { m with refresh := rest }
    match sbxOf s.map.tab p with
    | some x => startReloc s { sbx := x, stream := 19, first := p } [p]
    | none => s

/-! ## Jobs (R245) -/

def jobAddr (s : State) (idx : Nat) : Nat := rdField s 0x300F0 35 13 * 8192 + 32 * idx
/-- Bytes 0 to 15 of an entry, as firmware writes them; what a reserved field holds lies in byte 7 (log entry 172). -/
def jobBytes (j : JobReq) : List Byte :=
  le 4 j.sbid ++ le 1 j.op ++ le 1 j.stream ++ le 1 j.member ++ le 1 j.rsvd ++ le 2 j.first ++ le 2 j.last ++ le 4 0
/-- Write a job's counts and STATUS into bytes 16 to 31 of its entry (Table 9-5). -/
def jobWrite (s : State) (idx : Nat) (r : Reloc) (st : Nat) : State :=
  let a := jobAddr s idx
  let bytes := le 4 r.moved ++ le 4 r.orphaned ++ le 2 r.dead.length ++ le 1 st ++ le 5 0
  let s := directWrite s (a + 16) bytes
  updMap s fun m => { m with jobStat := nset m.jobStat idx st }

def sbxBySbid (s : State) (sbid : Nat) : Option Nat := (s.map.tab.sbs.find? fun e => e.2.sbid == sbid).map fun e => e.1

/-- The data page groups of rows first to last of members (R246). -/
def jobPages (b : Sb) (mems : List Nat) (first last : Nat) : List Nat :=
  mems.flatMap fun m => ((List.range (min (b.endRow m) (last + 1))).filter fun r => first ≤ r).map fun r => b.page m r

def jobsRunning (s : State) : Nat := (s.map.relocs.filter fun r => r.2.idx.isSome).length

/-- The engine takes jobs in ring order while fewer than four run. An OP 0x01 or 0x02 entry whose STREAM is none of 16 to 21 is refused
(DESIGN CHOICE, log entry 196). -/
def takeJobs : Nat → State → State
  | 0, s => s
  | n + 1, s =>
    match s.map.jobs with
    | [] => s
    | (idx, j) :: rest =>
      if 4 ≤ jobsRunning s then s else
      let s := updMap s fun m => { m with jobs := rest }
      let s := wr s 0x300FC ((idx + 1) % 256)
      let sb := (sbxBySbid s j.sbid).bind fun x => (nget s.map.tab.sbs x).map fun b => (x, b)
      let refuse (s : State) : State := jobWrite s idx { sbx := 0 } 3
      let s := match sb with
        | none => refuse s
        | some (x, b) =>
          let whole := j.op = 1 || j.op = 4
          if j.rsvd != 0 || !(whole || j.op = 2) || (j.op != 4 && !(16 ≤ j.stream && j.stream ≤ 21)) then refuse s
          else if whole && b.st != 2 then refuse s
          else if j.op = 2 && !(b.st == 2 || b.st == 3) then refuse s
          else
            let s := modSb s x fun b => { b with st := if whole then 3 else b.st, job := true }
            let s := updMap s fun m => { m with jobStat := nset m.jobStat idx 1, forced := m.forced.filter (· != x) }
            let s := directWrite s (jobAddr s idx + 26) [1]
            let mems := if whole then b.dataMems else if b.isParity j.member then [] else [j.member]
            startReloc s { idx := some idx, sbx := x, op := j.op, stream := if j.op = 4 then 18 else j.stream,
                           member := j.member, first := j.first, last := j.last }
              (jobPages b mems (if whole then 0 else j.first) (if whole then b.rows else j.last))
      takeJobs n s

/-- Firmware writes entries into the job ring, from its head on. -/
def jobPlace (s : State) (jobs : List JobReq) : State :=
  let old := rdField s 0x300F8 7 0
  jobs.zipIdx.foldl (fun s e => directWrite s (jobAddr s ((old + e.2) % 256)) (jobBytes e.1 ++ le 16 0)) s
/-- JOB_SUBMIT: MAP_JOBHEAD advances and the engine takes the entries; firmware does not fill the ring. -/
def jobSubmit (s : State) (head : Nat) (jobs : List JobReq) : State :=
  let old := rdField s 0x300F8 7 0
  let n := (head % 256 + 256 - old) % 256
  let entries := ((List.range n).map fun i => (old + i) % 256).zip jobs
  let s := wr s 0x300F8 (head % 256)

  let s := updMap s fun m => { m with
    jobs := m.jobs ++ entries
    jobStat := entries.foldl (fun t e => nset t e.1 0) m.jobStat }
  takeJobs (s.map.jobs.length + 1) s

/-- A victim whose job has ended and whose VCOUNT is 0 becomes ERASABLE (Table 9-3). -/
def victimsErasable (s : State) : State :=
  (s.map.tab.sbs.filter fun e => e.2.st == 3 && e.2.vcount == 0 && !jobOn s e.1 && !s.map.recount.contains e.1).foldl
    (fun s e => makeErasable s e.1) s

/-- The LUN retirements end once no rebuild job of stream 20 is left (R255). -/
def retireEnd (s : State) : State :=
  if s.map.relocs.any (fun r => r.2.stream == 20) || s.map.jobs.any (fun j => j.2.stream == 20) then s
  else updMap s fun m => { m with retiring := m.retiring.filter fun r => r.2.1.isNone || r.2.2 == 1 }

/-- JOB_DONE: a job with nothing left writes its counts and STATUS (R245). -/
def jobDone (s : State) (idx : Nat) : State :=
  match s.map.relocs.find? fun r => r.2.idx == some idx with
  | none => s
  | some (id, r) =>
    if !(r.groups == 0 && (r.aborted || relocIdle r)) then s else
    let s := dropHolder (updMap s fun m => { m with relocs := ndel m.relocs id }) (.reloc id)
    let s := jobWrite s idx r (if r.aborted then 4 else 2)
    let named : Bool := s.map.relocs.any fun x => x.2.idx.isSome && x.2.sbx == r.sbx
    let s := if r.op = 2 then modSb s r.sbx fun b => { b with job := b.st == 3 || named }
      else if r.aborted then modSb s r.sbx fun b => { b with st := 2, job := named } else s
    let s := victimsErasable s
    let s := if r.stream = 20 then retireEnd s else s
    spaceUpdate (takeJobs (s.map.jobs.length + 1) s)

/-- JOB_ABORT: running jobs end after the groups already requested; their reads and copies are dropped. -/
def jobAbort (s : State) : State :=
  let ids := (s.map.relocs.filter fun r => r.2.idx.isSome).map fun r => r.1
  let s := ids.foldl (fun s id => modReloc s id fun r => { r with
    aborted := true, todo := [], pend := [], gather := [], parts := [], wants := [] }) s
  updFlash s fun f => { f with ops := f.ops.filter fun o =>
    !((o.2.st == .queued || o.2.st == .held) && o.2.kind == .read && !o.2.cws.isEmpty
      && o.2.cws.all fun c => c.2.all fun q => ids.any fun id => q == .reloc id) }

/-! ## Victim scan (R244) -/

/-- One superblock's score. -/
def victimScore (s : State) (b : Sb) : Nat :=
  let u16 := b.vcount * 65536 / max b.cap 1
  let age := min ((s.map.life - b.sealTime) / 3600) 255
  let sc := (65536 - u16) * (256 + rdField s 0x300A0 15 8 * age) / 256
  if b.degraded then min (sc * 2) (2 ^ 32 - 1) else sc

def insertBest (x : Nat × Nat) : List (Nat × Nat) → List (Nat × Nat)
  | [] => [x]
  | y :: r => if y.1 < x.1 || (y.1 == x.1 && x.2 < y.2) then x :: y :: r else y :: insertBest x r

def victimScan (s : State) : State := updMap (trig54 s 0x300A8) fun m => { m with scanning := true }
/-- VICTIM_SCAN_DONE: the eight highest scores, ties in ascending SBID. -/
def victimScanDone (s : State) : State :=
  if !s.map.scanning then s else
  let cands := s.map.tab.sbs.filter fun e =>
    e.2.st == 2 && !e.2.system && !e.2.job && e.2.vcount * 256 ≤ rdField s 0x300A0 7 0 * e.2.cap && !s.map.recount.contains e.1
  let best := (cands.foldl (fun l e => insertBest (victimScore s e.2, e.2.sbid) l) []).take 8
  let s := (List.range 8).foldl (fun s k => wr s (0x300B0 + 8 * k)
    (match best[k]? with | some x => x.1 * 2 ^ 32 + x.2 | none => 0)) s
  let s := wrField (wrField s 0x300A8 19 16 best.length) 0x300A8 31 31 1
  updMap s fun m => { m with scanning := false }

/-! ## Retirement (R255, R480) -/

/-- Every block of a LUN that is not BAD becomes RETIRED (R255 step 3). -/
def retireBlocks (n : Nat) (t : MapTab) (l : Nat) : MapTab :=
  (List.range n).foldl (fun t b =>
    let k := blkKey l b
    if (blkGet t k).st = 3 then t else blkSet t k { blkGet t k with st := 4 }) t
/-- Steps 2 and 3: open members end, blocks become RETIRED, members' superblocks are marked, and U is judged. -/
def retireLuns (s : State) (luns : List Nat) : State :=
  let s := luns.foldl (fun s l => failPrograms (endLun s l) l) s
  let s := luns.foldl (fun s l =>
    (s.flash.ops.filter fun o => o.2.lun == l && o.2.kind == .erase).foldl (fun s o => dropOp s o.1) s) s
  let fitted := luns.filter fun l => lunFitted s (lunChn l) (lunPos l)
  let s := fitted.foldl (fun s l => updTab s fun t => retireBlocks s.flash.die.blocks t l) s
  let s := updTab s fun t =>
    { t with
      sbs := t.sbs.map fun e => if e.2.members.any fun m => luns.contains (lunOf m.chn m.pos) then (e.1, { e.2 with degraded := true }) else e }
  let s := s.map.tab.sbs.foldl (fun s e =>
    if e.2.st == 4 && e.2.erasing then
      ((List.range e.2.nmem).filter fun m => luns.contains (e.2.lun m)).foldl (fun s m => noteEnded s e.1 m 3) s
    else s) s
  spaceUpdate (turn (updMap s fun m => { m with retired := true }))

/-- LUN_RETIRE: the position's bit in MAP_LUNRETc. -/
def lunRetire (s : State) (c p : Nat) : State :=
  let s := orReg s (rLunRet c) (2 ^ p)
  retireLuns (updMap s fun m => { m with retiring := m.retiring ++ [(c, some p, 2)] }) [lunOf c p]

/-- CHANNEL_RETIRE: the channel's bit in MAP_CHRET. -/
def channelRetire (s : State) (c : Nat) : State :=
  let s := orReg s rChRet (2 ^ c)
  retireLuns (updMap s fun m => { m with retiring := m.retiring ++ [(c, none, 2)] }) ((List.range 32).map fun p => lunOf c p)

/-- The PPA of the same row and slot on a member of the same superblock whose channel is in service (R255 step 5). -/
def sweepPpa (s : State) (p : Nat) : Nat :=
  let sb := (s.map.tab.sbs.find? fun e => (e.2.memOf p).isSome).map fun e => e.2
  match sb.bind fun b => (b.members.find? fun m => !bit32 s rChRet m.chn) with
  | some m => ppaOf (lunOf m.chn m.pos) m.block (ppaPage p) (p % 16)
  | none => p

/-- Step 6 of a channel's retirement, once its sweep's groups are applied: the channel counts as retired for PPA validity and
register access (R480). -/
def channelGone (s : State) (c : Nat) : State :=
  let s := updChip s fun x => { x with chnGone := x.chnGone ++ [c] }
  spaceUpdate (updMap s fun m => { m with retiring := m.retiring.filter fun r => !(r.1 == c && r.2.1.isNone) })
/-- Sweeps whose groups are all applied end their channels' retirements. -/
def sweepLeft (s : State) (c : Nat) : Bool :=
  (s.jrc.reqs ++ s.jrc.applyQ ++ s.jrc.batches.flatMap fun b => b.groups).any fun g => g.owner == .sweep c
def sweepsEnd (s : State) : State :=
  ((s.map.retiring.filter fun r => r.2.1.isNone && r.2.2 == 5 && !sweepLeft s r.1).map fun r => r.1).foldl channelGone s

/-- CHANNEL_SWEEP_DONE (step 5): every dead-letter entry on the channel names a member in service, by journalled records; step
6 follows when they are applied. -/
def channelSweepDone (s : State) (c : Nat) : State :=
  if !(s.map.retiring.any fun r => r.1 == c && r.2.1.isNone) then s else
  let on (p : Nat) : Bool := lunChn (ppaLun p) == c
  let wants := s.map.tab.ns.flatMap fun n => n.2.parcels.flatMap fun e =>
    match e.2 with
    | .dead p => if on p then [Want.resweep n.1 e.1 none p (sweepPpa s p)] else []
    | .fine b => match nget s.map.tab.bundles b with
      | some u => (List.range 16).filterMap fun i => match u.ents.getD i .gone with
        | .dead p => if on p then some (Want.resweep n.1 e.1 (some i) p (sweepPpa s p)) else none
        | .gone => none | .slot _ => none | .odd _ => none
      | none => []
    | .unmapped => [] | .ptr _ => []
  let s := (chunked 1000 wants.length wants).foldl (fun s g => askGroup s (.sweep c) g) s
  sweepsEnd (updMap s fun m => { m with
    retiring := m.retiring.map fun r => if r.1 == c && r.2.1.isNone then (c, none, 5) else r })

end Sys2Proof.Machine
end

