-- ==== Sys2Proof/Machine/Ladder.lean ====
section
/-! DEFINITION. Reads at the courier, the escalation ladder, rebuilds, the dead-letter queue and the
marking of dead letters (R196, R210 to R218, R230 to R236, R288, R290). -/

namespace Sys2Proof.Machine

/-! ## Dead letters (R236, R290, R294) -/

def dlqFull (s : State) : Bool := (rdField s (str 0x28) 5 0 + 1) % 64 == rdField s (str 0x2C) 5 0

/-- Write a dead-letter queue entry and its context (R236): source 102. -/
def dlqWrite (s : State) (cause req ppa : Nat) (ctx : Option (Nat × Nat)) : State :=
  let q := rdField s (str 0x28) 5 0
  let s := wr s (str (0x400 + 8 * q)) (cause * 2 ^ 56 + req * 2 ^ 48 + ppa)
  let s := wr s (str (0x600 + 8 * q)) (match ctx with | some (n, l) => 2 ^ 63 + n * 2 ^ 48 + l | none => 0)
  raise (wr s (str 0x28) ((q + 1) % 64)) 102

/-- The run's staging entry, a bundle for each parcel that its marking promotes, and the group of its marking (R290 steps 1 and 2). -/
def stageRun (s : State) (r : DeadRun) : State :=
  match nsOf s r.nsid, r.lets with
  | some n, (l, p) :: _ =>
    let unit : Bool := decide (n.nsze ≤ l)
    let d := s.pat.lastDseq + 1
    let e : DloEnt := { dseq := d, slba := if unit then 64 * (l - n.nsze) else l, nsid := r.nsid, nlb := if unit then 64 else r.lets.length,
                        cause := r.cause, req := r.req, md := unit, ppa := p }
    let s := updPat s fun x => { x with lastDseq := d, staging := x.staging ++ [e] }
    let one (s : State) (q : Nat) : State :=
      if r.whole || !needsBundle (entryOf s.map.tab r.nsid q) then s else
      let (s, ok) := tryBundle s (.reloc (2 ^ 32 + d)) r.nsid q true
      if ok then s else waitBundle s { h := .reloc (2 ^ 32 + d), nsid := r.nsid, parcel := q, dealloc := false }
    let s := (r.lets.map fun x => x.1 / 16).dedup.foldl one s
    askGroup s (.dead d) (if r.whole then [.mark r.nsid (l / 16) none p]
      else r.lets.map fun x => .mark r.nsid (x.1 / 16) (some (x.1 % 16)) x.2)
  | _, _ => s
/-- Firmware cuts an epoch on its own account, where none runs and MINSP is over (R260, R264). -/
def ownCut (s : State) : State :=
  if !running s .jrc || s.jrc.hold || s.jrc.committing || s.jrc.twoGen || inMinsp s || s.chip.parked then s else cutover s
/-- The runs that wait enter the staging list while it holds fewer than 512 entries; a full list makes firmware cut an epoch, and the
rest wait for the commit (R290). -/
def stageRuns (s : State) : State :=
  let one (s : State) (r : DeadRun) : State :=
    if s.pat.staging.length < 512 then stageRun s r else updPat s fun p => { p with deadQ := p.deadQ ++ [r] }
  let s := s.pat.deadQ.foldl one (updPat s fun p => { p with deadQ := [] })
  if 512 ≤ s.pat.staging.length then ownCut s else s

/-- Letters in ascending order, cut into contiguous runs (R293). -/
def letterRuns (ls : List (Nat × Nat)) : List (List (Nat × Nat)) :=
  let put (a : List (Nat × Nat)) (x : Nat × Nat) : List (Nat × Nat) :=
    (a.takeWhile fun y => decide (y.1 < x.1)) ++ x :: a.dropWhile fun y => decide (y.1 < x.1)
  (ls.foldl put []).foldr (fun x a => match a with
    | (y :: r) :: t => if x.1 + 1 = y.1 then (x :: y :: r) :: t else [x] :: (y :: r) :: t
    | t => [x] :: t) []
/-- Ask for letters of a namespace, lost in one slot or page group, to be marked dead (R290, R293): one entry a run, and one a metadata
unit (R291). whole marks a parcel pointer all of whose letters are lost; a parcel of metadata units is marked unit by unit (DESIGN
CHOICE, log entry 200). A letter that is dead with the same PPA already is left as it is. -/
def markDead (s : State) (nsid : Nat) (lets : List (Nat × Nat)) (whole : Bool) (cause req : Nat) : State :=
  match nsOf s nsid with
  | none => s
  | some n =>
    let s := corruptAny s (lets.map fun x => (nsid, x.1))
    let ls := lets.filter fun x => letterOf s.map.tab nsid x.1 != .dead x.2
    let user := ls.filter fun x => decide (x.1 < n.nsze)
    let units := ls.filter fun x => decide (n.nsze ≤ x.1)
    let runs := if whole && user.length = 16 then [user] else letterRuns user ++ units.map fun x => [x]
    stageRuns (updPat s fun p => { p with
      deadQ := p.deadQ ++ runs.map fun r => { nsid, lets := r, whole := whole && user.length == 16, cause, req } })

/-- An entry enters the Dead-Letter Office, in ascending DSEQ; where the table is full, in the place of the cleared entry of the lowest
DSEQ, or it is counted in OVERFLOW (R292, R293). -/
def dloAdd (p : Patrol) (e : DloEnt) : Patrol :=
  let room := if p.dlo.length < 65536 then some p.dlo else
    (p.dlo.find? fun x => x.st == 3).map fun v => p.dlo.filter fun x => x.dseq != v.dseq
  match room with
  | some l => { p with
      dlo := (l.takeWhile fun x => decide (x.dseq < e.dseq)) ++ e :: l.dropWhile fun x => decide (x.dseq < e.dseq)
      dloChg := p.dloChg + 1 + (p.dlo.length - l.length) }
  | none => { p with dloOvf := p.dloOvf + 1 }
/-- The marking's group is applied: the entry stays and the event is posted, or the entry is withdrawn (R290, R294). -/
def deadApplied (s : State) (dseq : Nat) (done : Bool) : State :=
  let s := updMap s fun m => { m with resv := m.resv.filter fun r => r.2.1 != .reloc (2 ^ 32 + dseq) }
  match s.pat.staging.find? fun e => e.dseq == dseq with
  | none => s
  | some e =>
    if done then asyncBoth (updPat s fun p => dloAdd p e) 7 2 0xC0
    else updPat s fun p => { p with staging := p.staging.filter fun x => x.dseq != dseq }

/-- Does the map hold a staging entry's letters as dead with its PPA, or with the slots of its page group? -/
def stagedDead (t : MapTab) (e : DloEnt) : Bool :=
  (dloLetters t e).all fun l => match letterOf t e.nsid l with
    | .dead x => x == e.ppa || (!e.md && decide (1 < e.nlb) && pgBase x == pgBase e.ppa)
    | .gone => false | .slot _ => false | .odd _ => false
/-- Recovery's look at the staging list (R290): an entry whose letters the replayed map does not hold is discarded, and one whose
marking the replay applied enters the table where it is not yet in it. -/
def stagingRecover (s : State) : State :=
  let held := s.pat.staging.filter (stagedDead s.map.tab)
  let gone := s.pat.staging.filter fun e => !stagedDead s.map.tab e
  updPat s fun p =>
    let left := p.dlo.filter fun x => !gone.any fun e => e.dseq == x.dseq
    (held.filter fun e => !left.any fun x => x.dseq == e.dseq).foldl dloAdd
      { p with staging := held, dlo := left, dloChg := p.dloChg + (p.dlo.length - left.length) }

/-- The inspection queue (R288). -/
def inspect (s : State) (ppa : Nat) : State :=
  let p := pgBase ppa
  if s.pat.insp.contains p then s
  else if 256 ≤ s.pat.insp.length then
    let s := setCause (satAdd s 0x80050 31 16 1) 0x80054 4 98
    match sbxOf s.map.tab p with
    | some x => updPat s fun t => { t with tab := nset t.tab x (let e := ngetD t.tab x (0, 0, false, false); (e.1, e.2.1, true, e.2.2.2)) }
    | none => s
  else updPat s fun t => { t with insp := t.insp ++ [p] }

/-! ## Ladders (R213, R216, R217) -/

/- The loads of map segments, checkpoints and the system area are made within the start-up commands and rebuilds (systemRead); no command
of the table starts a firmware's or a debug read (log entry 191). -/

/-- What a requester receives of a codeword (R210): its payload with the ladder step reached and the corrected bits, its failure
outcome, or, from the courier, ERASE_SUSPENDED_BLOCK or PAGE_IN_PROGRAM. -/
inductive Got | data (p : Payload) (step corrected : Nat) | lost | busy
deriving DecidableEq, Repr
def Got.payload (v : Got) : Option Payload := match v with | .data p _ _ => some p | .lost => none | .busy => none

def modLad (s : State) (id : Nat) (f : Ladder → Ladder) : State := updFlash s fun x => { x with lads := nmod x.lads id f }
def dropLad (s : State) (id : Nat) : State := updFlash s fun x => { x with lads := ndel x.lads id }

def reqHost (r : Req) : Bool :=
  match r with | .cmd _ => true | .rmw _ => true | .reloc _ => false | .member _ _ => false | .patrol => false | .ladder _ => false
/-- REQ codes of R236, in the order of R216. -/
def reqCode (r : Req) : Nat := match r with | .cmd _ => 1 | .rmw _ => 2 | .reloc _ => 3 | .patrol => 4 | .member _ _ => 5 | .ladder _ => 5


/-- The letter a command's lookup mapped to a slot (R236). -/
def reqLetter (s : State) (r : Req) (ppa : Nat) : Option (Nat × Nat) :=
  match r with
  | .cmd id => (getCmd s id).bind fun c => (c.found.find? fun f => f.2 == .slot ppa).map fun f => (c.q.nsid, f.1)
  | .rmw id => (getCmd s id).bind fun c =>
      match c.found.find? fun f => f.2 == .slot ppa with
      | some f => some (c.q.nsid, f.1)
      | none => c.rmws.findSome? fun m =>
        ((List.range 16).find? fun i => letterIn s.map.tab (entryOf s.map.tab m.nsid m.parcel) i == .slot ppa).map
          fun i => (m.nsid, 16 * m.parcel + i)
  | .reloc _ => none | .member _ _ => none | .patrol => none | .ladder _ => none

/-- A payload is that of a letter: KIND 0x02 for a metadata unit, which follows NSZE, else 0x01 (Table 8-2). -/
def identIs (s : State) (p : Payload) (x : Nat × Nat) : Bool :=
  pNsid p == x.1 && pLetter p == x.2 &&
    pKind p == (if ((nsOf s x.1).map fun n => decide (n.nsze ≤ x.2)).getD false then 2 else 1)
/-- R212: NSID, KIND and LETTER agree with what the requesters expect, or the slot is a filler. A command expects the letter of its
lookup; reclaim, patrol and the stripe engine what the map has in the slot. -/
def identOk (s : State) (reqs : List Req) (ppa : Nat) (p : Payload) : Bool :=
  isFiller p || reqs.all fun r => match reqLetter s r ppa with
    | some x => identIs s p x
    | none => reqHost r || (mapOwners s.map.tab ppa).all (identIs s p)

/-- Is a read made for a host command or a read-modify-write, a rebuild's member read for the ladder that it serves (Table 7-3)? -/
def forHost (s : State) (r : Req) : Bool :=
  match r with
  | .member lad _ => ((nget s.flash.lads lad).map fun l => l.reqs.any reqHost).getD false
  | .cmd _ => true | .rmw _ => true | .reloc _ => false | .patrol => false | .ladder _ => false
/-- Class of the reads of a ladder with these requesters (Table 7-3). -/
def ladClass (s : State) (reqs : List Req) : Nat := if reqs.any (forHost s) then 1 else 2

/-- The superblock, its index and the member of a slot, where it lies in a row below ENDROW. -/
def slotMember (s : State) (ppa : Nat) : Option (Nat × Sb × Nat) :=
  (sbxOf s.map.tab ppa).bind fun x => (nget s.map.tab.sbs x).bind fun b =>
    (b.memOf ppa).bind fun m => if ppaPage ppa < b.endRow m then some (x, b, m) else none

/-- A codeword's page group goes to the reclaimer (R218); for a parity member the patrol's verdict queues its row (R287). -/
def reportPage (s : State) (ppa : Nat) : State :=
  match slotMember s ppa with
  | some (_, b, m) => if b.isParity m then s else refreshAdd s ppa
  | none => s

/-- Rows whose parity is in the seal buffer (R231). -/
def inSealBuffer (s : State) (x : Nat) (b : Sb) (row : Nat) : Option OpenSb :=
  (s.map.opens.find? fun e => e.2.sbx == x && row == b.nextRow).map fun e => e.2

/-- A member known lost before any read of it (R230). -/
def knownErased (s : State) (b : Sb) (row m : Nat) : Bool :=
  let l := b.lun m
  bit32 s (rLunFlt (lunChn l)) (lunPos l) || lunRetired s (lunChn l) (lunPos l)
    || (((b.members[m]?).map fun y => y.endfail).getD false && b.endRow m == row + 1)

/-- A folded member not yet programmed: its payload in the write buffer (R231). -/
def bufferSlot (s : State) (x row m slot : Nat) : Option Payload :=
  (s.map.pgs.find? fun g => g.2.place == some (x, row, m) && g.2.st == .programming).bind fun g => nget g.2.slots slot

/-- The parity read of step 5, none for a parity target, and that which step 6 adds (Table 8-9, R479). -/
def parityRead5 (b : Sb) (t : Nat) : Option Nat := if b.isParity t then none else some b.pIdx
def parityRead6 (b : Sb) (t : Nat) : Nat := if t = b.qIdx then b.pIdx else b.qIdx
/-- Has a codeword's own ladder passed step 4 (R216)? -/
def pastSoft (s : State) (ppa : Nat) : Bool := s.flash.lads.any fun l => l.2.ppa == ppa && 5 ≤ l.2.step

/-- A member whose fold the accumulators hold though neither the medium nor the write buffer has its payload: an erasure of the rebuild
(Table 8-8, R276). -/
def foldLost (s : State) (o : OpenSb) (x row slot : Nat) (b : Sb) (m : Nat) : Bool :=
  o.folded.contains m && !o.done.contains m && ((bufferSlot s x row m slot).isNone || b.endRow m ≤ row)
/-- Start step 5, or step 6 where a second erasure is known (R232); the member reads are issued. A disabled stripe engine
accepts no rebuild (R234): the ladder waits at step 5. -/
def startRebuild (s : State) (id : Nat) : State :=
  match nget s.flash.lads id with
  | none => s
  | some l =>
    if !running s .str then modLad s id fun l => { l with step := 5 } else
    match slotMember s l.ppa with
    | none => modLad s id fun l => { l with step := 5 }
    | some (x, b, t) =>
      let row := ppaPage l.ppa
      let slot := l.ppa % 16
      let sbuf := inSealBuffer s x b row
      let gone (m : Nat) : Bool := knownErased s b row m || pastSoft s (b.page m row + slot)
      let stuck := match sbuf with | some o => b.dataMems.filter fun m => m != t && foldLost s o x row slot b m | none => []
      let data := b.dataMems.filter fun m => m != t && row < b.endRow m && !stuck.contains m
        && (match sbuf with | some o => o.folded.contains m | none => true)
      let disk := data.filter fun m => (bufferSlot s x row m slot).isNone
      let parGone (m : Nat) : Bool := sbuf.isNone && (b.endRow m ≤ row || gone m)
      let five := (parityRead5 b t).toList
      let six := !stuck.isEmpty || disk.any gone || five.any parGone
      let par := if sbuf.isSome then [] else (five ++ if six then [parityRead6 b t] else [])
      let rds := disk ++ par
      let rb : Rebuild := { sbx := x, row, target := t, pend := rds.filter fun m => !(gone m || parGone m),
                            erased := stuck ++ rds.filter fun m => gone m || parGone m }
      let s := modLad s id fun l => { l with step := if six then 6 else 5, rb := some rb }
      pump (addReads s (ladClass s l.reqs) (rb.pend.map fun m => (b.page m row + slot, Req.member id m)))

/-- A member read of a rebuild ended; a second erasure at step 5 passes it to step 6 with the read of the other parity member (Table
8-9). -/
def memberDone (s : State) (id m : Nat) (ok : Bool) : State :=
  match nget s.flash.lads id with
  | none => s
  | some l => match l.rb with
    | none => s
    | some r =>
      let r := { r with pend := r.pend.filter (· != m), erased := if ok then r.erased else r.erased ++ [m] }
      let s := modLad s id fun l => { l with rb := some r }
      match nget s.map.tab.sbs r.sbx with
      | none => s
      | some b =>
        if r.pend.isEmpty && l.step = 5 && !r.erased.isEmpty then
          let s := modLad s id fun l => { l with step := 6 }
          let q := parityRead6 b r.target
          let p := b.page q r.row + l.ppa % 16
          if (inSealBuffer s r.sbx b r.row).isSome then s
          else if b.endRow q ≤ r.row || knownErased s b r.row q || pastSoft s p then
            modLad s id fun l => { l with rb := some { r with erased := r.erased ++ [q] } }
          else
            let s := modLad s id fun l => { l with rb := some { r with pend := [q] } }
            pump (addReads s (ladClass s l.reqs) [(p, Req.member id q)])
        else s


/-! ### What requesters receive -/

/-- A codeword of the page group that the patrol reads has ended (R287). -/
def PatRead.note (ppa : Nat) (v : Got) (c : PatRead) : PatRead :=
  if c.pg != pgBase ppa || !c.pend.contains (ppa % 16) then c else
  let c := { c with pend := c.pend.filter (· != ppa % 16) }
  match v with
  | .data _ st k => { c with worst := max c.worst st, corr := if st = 1 then max c.corr k else c.corr }
  | .lost => { c with lost := c.lost ++ [ppa % 16] }
  | .busy => { c with status := 1 }
def patGot (s : State) (ppa : Nat) (v : Got) : State := updPat s fun p => { p with cur := p.cur.map (PatRead.note ppa v) }
/-- A BUS_FAULT status of the patrol's read (Table 11-1). -/
def patFault (s : State) (ppa : Nat) : State :=
  let skip (c : PatRead) : PatRead := if c.pg == pgBase ppa then { c with pend := [], status := 2 } else c
  updPat s fun p => { p with cur := p.cur.map skip }

/-- A requester receives its codeword, or its failure outcome. What reads a block in erase or a page group in program, other than the
patrol, is issued again (DESIGN CHOICE, log entry 165). -/
def deliver1 (s : State) (ppa : Nat) (v : Got) (r : Req) : State :=
  match r with
  | .patrol => patGot s ppa v
  | .ladder _ => s
  | .member lad m => memberDone s lad m v.payload.isSome
  | .cmd id =>
    if v == .busy then addReads s 1 [(ppa, r)]
    else cmdGot (if v.payload.isNone && reqLimit s r = 4 then inspect s ppa else s) id ppa v.payload
  | .rmw id => if v == .busy then addReads s 1 [(ppa, r)] else cmdGot s id ppa v.payload
  | .reloc id => if v == .busy then addReads s 2 [(ppa, r)] else relocGot s id ppa v.payload
/-- A ladder whose own read has no data ends, and its requesters receive that status (R196). -/
def deliver (s : State) (ppa : Nat) (v : Got) (r : Req) : State :=
  match r with
  | .ladder id => (((nget s.flash.lads id).map fun l => l.reqs).getD []).foldl (fun s q => deliver1 s ppa v q) (dropLad s id)
  | .patrol => deliver1 s ppa v r | .member _ _ => deliver1 s ppa v r | .cmd _ => deliver1 s ppa v r
  | .rmw _ => deliver1 s ppa v r | .reloc _ => deliver1 s ppa v r
def deliverAll (s : State) (ppa : Nat) (v : Got) (rs : List Req) : State := rs.foldl (fun s r => deliver s ppa v r) s

/-- Reads of codewords for requesters, one operation per page group; a request for a codeword whose ladder runs joins it, and one
whose limit lies below the ladder's step ends at once (R216). -/
def requestReads (s : State) (cls : Nat) (ps : List (Nat × Req)) : State :=
  let late := ps.filter fun x => s.flash.lads.any fun l => l.2.ppa == x.1 && decide (reqLimit s x.2 < l.2.step)
  late.foldl (fun s x => deliver s x.1 .lost x.2) (addReads s cls (ps.filter fun x => !late.contains x))

/-! ### Step 2 and the soft decoders (R210, R214, R215, R477) -/

/-- A read that a step adds: of the plane that holds the codeword, at the step's offsets, about the tracked ones at step 2 and about
those of the best re-read at steps 3 and 4 (R214, R215). The LLRs that the overlay's table gives the soft decoder are within its
outcome, which SOFT_DECODE_DONE brings (log entry 190). -/
def addStepRead (s : State) (id : Nat) : State :=
  match nget s.flash.lads id with
  | none => s
  | some l =>
    let lun := ppaLun l.ppa
    let blk := ppaBlock l.ppa
    let page := ppaPage l.ppa
    let soft : Int := rdField s (chn (lunChn lun) 0x98) 15 8
    let k : Int := if l.step = 3 then [0, 1, -1].getD (l.sub - 1) 0 else [2, -2, 3, -3].getD (l.sub - 1) 0
    let (s, tried) := if l.step = 2 then ttShifted s lun blk page l.sig l.sub else (s, l.tried)
    let s := modLad s id fun l => { l with tried }
    let q := if l.step = 2 then tried.map fun x => (x.1, x.2.1 + x.2.2) else l.cen.map fun x => (x.1, x.2 + k * soft)
    addOp s { kind := .read, lun, block := blk, page, cls := ladClass s l.reqs, cws := [(l.ppa % 16, [.ladder id])], single := true,
              ofs := wholeSteps q }

/-- Requests that wait for a soft decoder of a district, and those that have one. -/
def softWaiting (s : State) (d : Nat) : List (Nat × Ladder) :=
  s.flash.lads.filter fun l => l.2.soft.isSome && !l.2.dec && lunChn (ppaLun l.2.ppa) / 8 == d
def softBusy (s : State) (d : Nat) : Nat := (s.flash.lads.filter fun l => l.2.dec && lunChn (ppaLun l.2.ppa) / 8 == d).length
/-- Requests in a district's queue, which holds 64; the others wait at their couriers, in the same order (R31, R210). -/
def softQueue (s : State) (d : Nat) : Nat := min 64 (softWaiting s d).length
/-- A district's decoders: two, or one under PS2's cap (R31, Table 16-5, R396). -/
def softPool (s : State) : Nat := if s.flash.oneDec then 1 else 2
/-- A decoder that is idle takes the request that arrived first. -/
def softTake (s : State) (d : Nat) : State :=
  if softPool s ≤ softBusy s d then s else
  let first := (softWaiting s d).foldl (fun (a : Option (Nat × Nat)) l =>
    let n := l.2.soft.getD 0
    match a with | some (_, k) => if n < k then some (l.1, n) else a | none => some (l.1, n)) none
  match first with
  | some (id, _) => modLad s id fun l => { l with dec := true }
  | none => s
/-- TOKEN_ALLOCATION: the tokens, and with the power state and the throttle that take effect the decoders: one that a district gains
takes the request that waits longest (R31, R200, R396, R402). -/
def allocate (s : State) : State := (List.range 4).foldl softTake (tokenAllocation s)
/-- A ladder whose reads are in asks for a decoder of its district. -/
def softAsk (s : State) (id : Nat) (d : Nat) : State :=
  let q := softQueue s d
  let n := (s.flash.lads.map fun l => (l.2.soft.map (· + 1)).getD 0).foldl max 0
  let s := softTake (modLad s id fun l => { l with soft := some n }) d
  let hi := rdField s (dst d 0x28) 15 8
  if q ≤ hi && hi < softQueue s d then dstCauseSet s d 10 else s

/-- A ladder's requesters that permit no further step end, the others go on (R216). -/
def endLimited (s : State) (id : Nat) (l : Ladder) : State × Bool :=
  let out := l.reqs.filter fun r => reqLimit s r ≤ l.step
  let rest := l.reqs.filter fun r => l.step < reqLimit s r
  let s := if rest.isEmpty then dropLad s id else modLad s id fun l => { l with reqs := rest }
  (deliverAll s l.ppa .lost out, rest.isEmpty)
/-- Steps 1 to 4 are over: step 5, where the codeword has a row and a requester permits it (R216, R217, R479). -/
def toRebuild (s : State) (id : Nat) : State :=
  match nget s.flash.lads id with
  | none => s
  | some l =>
    if (slotMember s l.ppa).isNone then deliverAll (dropLad s id) l.ppa .lost l.reqs
    else
      let (s, ended) := endLimited s id { l with step := 4 }
      if ended then s else startRebuild (modLad s id fun l => { l with soft := none, dec := false }) id

/-- A codeword's step 1 failed: step 2 begins, or its requesters join the ladder that runs for it (R213, R216). -/
def enterLadder (s : State) (ppa : Nat) (sig : Int) (reqs : List Req) : State :=
  match s.flash.lads.find? fun l => l.2.ppa == ppa with
  | some (id, l) =>
    let late := reqs.filter fun r => reqLimit s r < l.step
    let s := modLad s id fun l => { l with reqs := l.reqs ++ reqs.filter fun r => l.step ≤ reqLimit s r }
    deliverAll s ppa .lost late
  | none =>
    let id := s.flash.ladNext
    addStepRead (updFlash s fun f => { f with ladNext := id + 1, lads := nset f.lads id { ppa, step := 2, sub := 1, sig, reqs } }) id

/-- The ladder that a read was added for, and whether a request is another requester's but the patrol's. -/
def Req.lad? (r : Req) : Option Nat :=
  match r with | .ladder id => some id | .cmd _ => none | .rmw _ => none | .reloc _ => none | .member _ _ => none | .patrol => none
def Req.plain (r : Req) : Bool := r.lad?.isNone && r != .patrol
/-- A BUS_FAULT status of the target: a failure of steps 1 to 4, none of which is run (R196); the patrol skips its page group. -/
def busFault (s : State) (ppa : Nat) (reqs : List Req) : State :=
  let s := if reqs.contains .patrol then patFault s ppa else s
  let s := (reqs.filterMap Req.lad?).foldl toRebuild s
  let rest := reqs.filter Req.plain
  if rest.isEmpty then s else
  match s.flash.lads.find? fun l => l.2.ppa == ppa with
  | some (id, l) =>
    let s := modLad s id fun l => { l with reqs := l.reqs ++ rest }
    if l.step < 5 then toRebuild s id
    else (rest.filter fun r => reqLimit s r < l.step).foldl (fun s r => deliver (modLad s id fun l => { l with reqs := l.reqs.filter (· != r) }) ppa .lost r) s
  | none =>
    let id := s.flash.ladNext
    toRebuild (updFlash s fun f => { f with ladNext := id + 1, lads := nset f.lads id { ppa, step := 4, reqs := rest } }) id

/-- A read to a LUN or channel that counts as retired is not issued: its codewords go to the rebuild at once (R480). -/
def lostReads (s : State) : State :=
  (s.flash.ops.filter fun o => o.2.kind == .read && o.2.st != .running && lunRetired s (lunChn o.2.lun) (lunPos o.2.lun)).foldl
    (fun s o => o.2.cws.foldl (fun s x => busFault s (ppaOf o.2.lun o.2.block o.2.page x.1) x.2) (dropOp s o.1)) s
/-- After reads have ended: pins whose reads are done are released (R108), and what can start does. -/
def readsOver (s : State) : State := settlePins (turn (lostReads s))

/-- The ladder recovered its codeword at a step. -/
def ladderOk (s : State) (id : Nat) (l : Ladder) (p : Payload) (corrected : Nat) : State :=
  deliverAll (dropLad s id) l.ppa (.data p l.step corrected) l.reqs

/-- A read of step 2 ended (R214): the re-read that decodes recovers the codeword and moves its entry by half its shift, then by its
own sample; after the third that fails, step 3 begins. Of re-reads with the same lowest weight the earlier is the centre, which R215
does not say (DESIGN CHOICE, log entry 191). -/
def rereadDone (s : State) (id : Nat) (l : Ladder) (decoded : Bool) (corrected : Nat) (st : ReadStats) : State :=
  let lun := ppaLun l.ppa
  let c := lunChn lun
  let got := if decoded then (slotPayload s l.ppa).filter fun p => identOk s l.reqs l.ppa p else none
  match got with
  | some p =>
    let s := snapTrigger (satAdd s (chn c 0xB0) 31 0 1) c 14 2 (some (lunPos lun))
    let s := ttHalfShift s lun (ppaBlock l.ppa) (ppaPage l.ppa) l.tried
    ladderOk (ttUpdate s lun (ppaBlock l.ppa) (ppaPage l.ppa) true st) id l p corrected
  | none =>
    let better := (l.best.map fun b => decide (st.weight < b.2)).getD true
    let s := modLad s id fun l => { l with
      best := if better then some (l.sub, st.weight) else l.best
      cen := if better then l.tried.map fun x => (x.1, x.2.1 + x.2.2) else l.cen
      step := if l.sub < 3 then 2 else 3
      sub := if l.sub < 3 then l.sub + 1 else 1 }
    addStepRead s id
/-- A read that a ladder added has ended: the next follows, and after the last of step 3 or 4 the request for a decoder (R477). -/
def stepReadDone (s : State) (id : Nat) (decoded : Bool) (corrected : Nat) (st : ReadStats) : State :=
  match nget s.flash.lads id with
  | none => s
  | some l =>
    if l.step = 2 then rereadDone s id l decoded corrected st
    else if l.step != 3 && l.step != 4 then s
    else if l.sub < (if l.step = 3 then 3 else 4) then addStepRead (modLad s id fun l => { l with sub := l.sub + 1 }) id
    else softAsk s id (lunChn (ppaLun l.ppa) / 8)

/-- SOFT_DECODE_DONE (R213): step 3 or 4 ends at the decoder that has the request. -/
def softDone (s : State) (id : Nat) (decoded : Bool) (corrected : Nat) : State :=
  match nget s.flash.lads id with
  | none => s
  | some l =>
    if !l.dec then s else
    let d := lunChn (ppaLun l.ppa) / 8
    let got := if decoded then (slotPayload s l.ppa).filter fun p => identOk s l.reqs l.ppa p else none
    let s := softTake (modLad s id fun l => { l with soft := none, dec := false }) d
    readsOver (match got with
      | some p =>
        if l.step = 3 then ladderOk (satAdd s (dst d 0x30) 31 0 1) id l p corrected
        else ladderOk (reportPage (satAdd s (dst d 0x34) 31 0 1) l.ppa) id l p corrected
      | none =>
        if l.step = 3 then addStepRead (modLad s id fun l => { l with step := 4, sub := 1 }) id
        else toRebuild (dstCauseSet (satAdd s (dst d 0x38) 31 0 1) d 8) id)

/-! ## Rebuild (R225, R232, R233, R479) -/

/-- The payload of a data member for a rebuild: zeroes at or beyond its ENDROW, else the write buffer or the medium. -/
def memPayload (s : State) (x : Nat) (b : Sb) (row m slot : Nat) : Payload :=
  if b.endRow m ≤ row then 0 else (bufferSlot s x row m slot).getD ((slotPayload s (b.page m row + slot)).getD 0)

/-- Data members that a rebuild's parity covers: all in a finished row, the folded ones of a row in the seal buffer. -/
def covered (b : Sb) (sbuf : Option OpenSb) : List Nat :=
  match sbuf with | some o => b.dataMems.filter fun m => o.folded.contains m | none => b.dataMems

/-- The parity payload of a slot: from the seal buffer while it covers the row, else from the medium (R231). -/
def parityPay (s : State) (b : Sb) (r : Rebuild) (slot m : Nat) : Payload :=
  match inSealBuffer s r.sbx b r.row with
  | some o => ngetD (if m = b.pIdx then o.accP else o.accQ) slot 0
  | none => (slotPayload s (b.page m r.row + slot)).getD 0

/-- The rebuilt payload, or the cause at step 7 (Table 8-9). -/
def solve (s : State) (b : Sb) (r : Rebuild) (slot : Nat) : Payload ⊕ Nat :=
  let sbuf := inSealBuffer s r.sbx b r.row
  let lostBuf := (sbuf.map fun o => o.lost).getD false
  let pGone := (sbuf.isNone && b.endRow b.pIdx ≤ r.row) || lostBuf
  let qGone := (sbuf.isNone && b.endRow b.qIdx ≤ r.row) || lostBuf
  if pGone && qGone then .inr 3 else
  let mems := covered b sbuf
  let lost := (r.erased.filter fun m => !b.isParity m)
  let d (m : Nat) : Payload := memPayload s r.sbx b r.row m slot
  let pv := parityPay s b r slot b.pIdx
  let qv := parityPay s b r slot b.qIdx
  let pOk := !pGone && !r.erased.contains b.pIdx && r.target != b.pIdx
  let qOk := !qGone && !r.erased.contains b.qIdx && r.target != b.qIdx
  let present := mems.filter fun m => m != r.target && !lost.contains m
  let p1 := present.foldl (fun v m => v ^^^ d m) pv
  let q1 := present.foldl (fun v m => v ^^^ gPowTimes (b.dataIdx m) (d m)) qv
  if r.target = b.pIdx || r.target = b.qIdx then
    let sum (w : Nat → Payload) (vs : List (Nat × Payload)) : Payload := vs.foldl (fun v e => v ^^^ (gPowTimes (w e.1).toNat e.2)) 0
    let all : Option (List (Nat × Payload)) := match lost with
      | [] => some (present.map fun m => (m, d m))
      | [c] =>
        if r.target = b.pIdx then (if qOk then some ((c, gDivPow (b.dataIdx c) q1) :: present.map fun m => (m, d m)) else none)
        else (if pOk then some ((c, p1) :: present.map fun m => (m, d m)) else none)
      | _ => none
    match all with
    | some vs => .inl (if r.target = b.pIdx then sum (fun _ => 0) vs else vs.foldl (fun v e => v ^^^ gPowTimes (b.dataIdx e.1) e.2) 0)
    | none => .inr 1
  else
    let a := b.dataIdx r.target
    match lost with
    | [] => if pOk then .inl p1 else if qOk then .inl (gDivPow a q1) else .inr 1
    | [c] =>
      if pOk && qOk then
        let i := min a (b.dataIdx c)
        let j := max a (b.dataIdx c)
        let di := gmulConst (ginv (gpow i ^^^ gpow j)) (gPowTimes j p1 ^^^ q1)
        .inl (if a = i then di else p1 ^^^ di)
      else .inr 1
    | _ => .inr 1

/-- The data member that step 6 rebuilds beside a data member p, and its payload (R233). -/
def solveOther (s : State) (b : Sb) (r : Rebuild) (slot : Nat) (p : Payload) : Option (Nat × Payload) :=
  match r.erased.filter fun m => !b.isParity m with
  | [c] =>
    if b.isParity r.target then none else
    let present := (covered b (inSealBuffer s r.sbx b r.row)).filter fun m => m != r.target && m != c
    some (c, present.foldl (fun v m => v ^^^ memPayload s r.sbx b r.row m slot) (p ^^^ parityPay s b r slot b.pIdx))
  | _ => none

/-- REBUILD_DONE: every member read has ended. -/
def rebuildDone (s : State) (id : Nat) : State :=
  match nget s.flash.lads id with
  | none => s
  | some l =>
    if l.step != 5 && l.step != 6 then s else
    match l.rb with
    | none =>
      if !running s .str then s
      else if (slotMember s l.ppa).isSome then startRebuild s id
      else readsOver (deliverAll (dropLad s id) l.ppa .lost l.reqs)
    | some r =>
      if !r.pend.isEmpty then s else
      match nget s.map.tab.sbs r.sbx with
      | none => readsOver (deliverAll (dropLad s id) l.ppa .lost l.reqs)
      | some b =>
        let fail (s : State) (cause : Nat) : State :=
          let s := strCauseSet (satAdd s (str 0x1C) 31 0 1) 1
          if b.isParity r.target then
            let s := (b.dataMems.filter fun m => r.row < b.endRow m).foldl (fun s m => refreshAdd s (b.page m r.row)) s
            readsOver (deliverAll (dropLad s id) l.ppa .lost l.reqs)
          else modLad s id fun l => { l with step := 7, cause }
        let slot := l.ppa % 16
        match solve s b r slot with
        | .inr c => fail s c
        | .inl p =>
          let otherOk := match solveOther s b r slot p with
            | some (m, v) => identOk s [.member id m] (b.page m r.row + slot) v
            | none => true
          if !b.isParity r.target && !(identOk s l.reqs l.ppa p && otherOk) then fail s 2
          else
            let s := if l.step = 6 then satAdd s (str 0x18) 31 16 1 else satAdd s (str 0x18) 15 0 1
            let s := reportPage (strCauseSet s 0) l.ppa
            let s := if l.step = 6 then (r.erased.filter fun m => !b.isParity m).foldl (fun s m => refreshAdd s (b.page m r.row)) s else s
            readsOver (ladderOk s id l p 0)

/-- DLQ_ENTRY_WRITE: a ladder at step 7 writes its entry once the queue has space; its requesters receive their outcomes,
and where the letter is known firmware asks for its marking (R236, R290). -/
def dlqEntryWrite (s : State) (id : Nat) : State :=
  match nget s.flash.lads id with
  | none => s
  | some l =>
    if l.step != 7 || dlqFull s then s else
    let pick := [1, 2, 3, 4].findSome? fun k => l.reqs.find? fun r => reqCode r == k
    let code := (pick.map reqCode).getD 3
    let ctx := pick.bind fun r => reqLetter s r l.ppa
    let s := dlqWrite s l.cause code l.ppa ctx
    let s := match ctx with
      | some (n, le) => markDead s n [(le, l.ppa)] false l.cause code
      | none => s
    readsOver (deliverAll (dropLad s id) l.ppa .lost l.reqs)

/-! ## Reads at the courier (Table 7-5) -/

/-- Has a data member's page group of a row been programmed? In an open superblock those of the rows done, and of the present row
the members whose program has succeeded. -/
def rowWritten (s : State) (b : Sb) (m r : Nat) : Bool :=
  b.st != 1 || r < b.nextRow ||
    (r == b.nextRow && s.map.opens.any fun e => ((nget s.map.tab.sbs e.2.sbx).map fun x => x.sbid) == some b.sbid && e.2.done.contains m)
/-- A read of a block counts against it; passing MAP_RDLIM queues its page groups for refresh (R237, R252). -/
def countRead (s : State) (lun block : Nat) : State :=
  let k := blkKey lun block
  let b := blkGet s.map.tab k
  let n := min (b.reads + 1) 0xFFFFFFFF
  let s := updTab s fun t => blkSet t k { b with reads := n }
  let lim := rd s 0x30094
  if lim < n && !b.refr && 0 < lim then
    let s := updTab s fun t => { t with blocks := nmod t.blocks k fun b => { b with refr := true } }
    match (nget s.map.tab.sbs b.sbx).bind fun x => (x.memOf (ppaOf lun block 0 0)).map fun m => (x, m) with
    | some (x, m) =>
      if x.isParity m then s
      else ((List.range (x.endRow m)).filter (rowWritten s x m)).foldl (fun s r => refreshAdd s (x.page m r)) s
    | none => s
  else s

/-- READ_COMPLETE (R196, R213): the status of Table 7-5, and the hard decodes of the read. -/
def readComplete (s : State) (id : Nat) (cws : List CodewordRead) : State :=
  match nget s.flash.ops id with
  | none => s
  | some o =>
    let c := lunChn o.lun
    let p := lunPos o.lun
    let base := ppaOf o.lun o.block o.page 0
    if o.kind != .read then s
    else if bit32 s (rLunFlt c) p || lunRetired s c p then
      readsOver (o.cws.foldl (fun s x => busFault s (base + x.1) x.2) (dropOp s id))
    else if o.st != .running || (courier s c).training.isSome then s
    else
      let busy (x : FOp) : Bool := x.lun == o.lun && x.block == o.block && (x.st == .running || x.st == .suspended)
      let erasing := s.flash.ops.any fun x => busy x.2 && x.2.kind == .erase
      let programming := s.flash.ops.any fun x => busy x.2 && x.2.kind == .program && x.2.page == o.page
      let s := countRead (dropOp (busDone s id o) id) o.lun o.block
      if erasing || programming then
        let s := if erasing then chnCauseSet (satAdd s (chn c 0x64) 31 0 1) c 6 (some p) else s
        readsOver (o.cws.foldl (fun s x => deliverAll s (base + x.1) .busy x.2) s)
      else
        let one (s : State) (x : Nat × List Req) : State :=
          let ppa := base + x.1
          let r : Option CodewordRead := cws.find? fun y => y.slot == x.1
          let st : ReadStats := (r.map fun y => y.stats).getD { rawOnes := 0, corrOnes := 0, weight := 0 }
          let dec := (r.map fun y => y.decoded).getD false
          let bits := (r.map fun y => y.corrected).getD 0
          match x.2 with
          | .ladder l :: _ => stepReadDone s l dec bits st
          | reqs =>
            match if dec then (slotPayload s ppa).filter fun v => identOk s reqs ppa v else none with
            | some v =>
              let s := ttUpdate (satAdd s (chn c 0xA0) 63 0 1) o.lun o.block o.page true st
              deliverAll s ppa (.data v 1 bits) reqs
            | none =>
              let s := snapTrigger (satAdd s (chn c 0xA8) 63 0 1) c 13 1 (some p)
              let s := ttUpdate s o.lun o.block o.page dec st
              enterLadder s ppa (ttSign dec st) reqs
        readsOver (o.cws.foldl one s)

end Sys2Proof.Machine
end

