-- ==== Sys2Proof/Machine/Io.lean ====
section
/-! DEFINITION. Fetching and accepting commands (R81 to R83, R99 to R101), the conditions found at fetch (Table 4-4), a
write's data and slots (R32, R137, R143), lookups (R34, R107, R108), read-modify-writes (R144) and deallocations (R149). -/

namespace Sys2Proof.Machine

/-! ## Fetch -/

/-- The port's controller fetches commands; during a normal shutdown it still does (Table 3-10). -/
def portRuns (s : State) (p : Port) : Bool :=
  let x := getPort s p
  portPresent s p && x.en && x.rdy && x.fetching && (x.drain.isNone || x.drain == some .shutdown) && !x.d3hot && !s.chip.held && !s.chip.parked && !s.chip.stopFetch
    && !s.pwr.stopped && s.pwr.ps < 3 && running s .srt && !s.srt.quiesce
/-- The queue exists, is not frozen and has an entry to fetch. -/
def hasEntry (x : PortSt) (qid : Nat) : Bool :=
  match nget x.sqs qid with | some q => q.head != q.tail && !q.frozen && q.deleting.isNone | none => false
/-- Does a tracked command of the port's admin queue wait at acceptance, holding that queue (R101)? -/
def admWaits (s : State) (p : Port) : Bool := s.srt.cmds.any fun c => !c.2.accepted && c.2.q.port == p && c.2.q.qid == 0
/-- What the port's arbitration picks next: a queue, with the arbitration after it (R81). While TRK_FULL is 1 no I/O queue is
fetched, and an admin queue is held while a tracked command of it waits (R101). -/
def nextFetch (s : State) (p : Port) : Option (Nat × Arb) :=
  arbPick (getPort s p) (eligible (getPort s p) (!admWaits s p) (!trkFull s))
def otherPort (p : Port) : Port := match p with | .a => .b | .b => .a
/-- Has a front end a command for the sorting office: does its arbitration pick a queue? (DEDUCED, log entry 149.) -/
def portHasCmd (s : State) (p : Port) : Bool := portRuns s p && (nextFetch s p).isSome
/-- Where both front ends have a command ready, the one that was not accepted last goes first (R82). -/
def portTurn (s : State) (p : Port) : Bool := !portHasCmd s (otherPort p) || s.srt.lastB != (p == .b)
/-- The queue's next command is fetched and offered now: its port runs, arbitration picks the queue, and it is the port's turn. -/
def canFetchIo (s : State) (q : Sqe) : Bool :=
  portRuns s q.port && q.qid != 0 && ((nextFetch s q.port).map fun x => x.1) == some q.qid && portTurn s q.port
/-- An admin command is fetched: its port runs, arbitration picks the admin queue, and it is the port's turn. -/
def canFetchAdm (s : State) (q : Sqe) : Bool :=
  portRuns s q.port && q.qid == 0 && ((nextFetch s q.port).map fun x => x.1) == some 0 && portTurn s q.port

/-- The entry leaves the queue: SQHD advances, and so does the arbitration. -/
def takeEntry (s : State) (p : Port) (qid : Nat) : State :=
  let a := nextFetch s p
  modPort s p fun x => { x with
    sqs := nmod x.sqs qid fun q => { q with head := (q.head + 1) % max q.size 1 }
    arb := match a with | some (_, y) => y | none => x.arb }
/-- The sorting office has accepted a command of a port (R82). -/
def noteAccept (s : State) (p : Port) : State := updSrt s fun t => { t with lastB := p == .b }
/-- An I/O command that is not tracked leaves its queue and passes the sorting office. -/
def takeIo (s : State) (q : Sqe) : State := noteAccept (takeEntry s q.port q.qid) q.port
/-- An admin command's entry is taken for firmware (source 78 or 86); a tracked one is not accepted yet. -/
def takeFirm (s : State) (p : Port) : State := raise (takeEntry s p 0) (78 + 8 * p.num)
/-- An admin command that is not tracked is taken and accepted (R101). -/
def takeAdmin (s : State) (p : Port) : State := noteAccept (takeFirm s p) p
/-- A tracked command is accepted and completes at once with a status. -/
def turnAway (s : State) (q : Sqe) (st : Status) (lba : Nat := 0) : State := complete (noteAccept s q.port) q st 0 lba

/-- A command enters the sorting office; a tracked one that would exceed a limit waits at acceptance (R101). -/
def enterTracker (s : State) (c : Cmd) : State :=
  let id := s.srt.next
  let full := 0 < c.entries && (16384 < occCmds s + 1 || 32768 < occRanges s + (c.entries - 1))
  let s := updSrt s fun t => { t with
    cmds := nset t.cmds id { c with accepted := !full }
    next := id + 1
    lastB := if full then t.lastB else c.q.port == .b }
  if !full then hwm s else if trkFull s then s else raise (orReg s (Reg.sts .srt) (2 ^ 16)) 89


/-- The chip states and operations in progress that turn a namespace deletion, a Format NVM or a Sanitize away (Tables 4-4, 5-17
and 17-6). -/
def deleteFault (s : State) (ids : List Nat) : Option Status :=
  if s.map.chip = 4 then some (stField 0 0x15)
  else if sanitizeOn s then some stSanProgress
  else if sanFailed s then some stSanFailed
  else if ids.any (formatOn s) then some stFmtProgress
  else none
def formatFault (s : State) : Option Status :=
  if s.map.chip = 4 then some stAnaLoss
  else if sanitizeOn s then some stSanProgress
  else if sanFailed s then some stSanFailed
  else if anyFormat s then some stFmtProgress
  else if s.map.chip = 3 then some stWriteProt
  else none
def sanitizeFault (s : State) : Option Status :=
  if s.map.chip = 4 then some stAnaLoss
  else if sanitizeOn s then some stSanProgress
  else if anyFormat s then some stFmtProgress
  else if s.map.chip = 3 then some stWriteProt
  else none
/-- The status that a command which waited at acceptance meets as it is accepted: what its namespaces and the chip have become
since its fetch (R107, R114). -/
def acceptFault (s : State) (c : Cmd) : Option Status :=
  match c.body with
  | .namespaceDelete _ => deleteFault s (c.ranges.map fun r => r.1)
  | .formatNvm _ _ _ _ _ _ _ => formatFault s
  | .sanitizeBlockErase _ _ _ _ => sanitizeFault s
  | .sanitizeCryptoErase _ _ _ _ => sanitizeFault s
  | _ => stateFault s c.q.nsid c.modif

/-- TRACKED_COMMAND_ACCEPT: of two ports' waiting commands, the port that was not accepted last goes first (R82). -/
def acceptWaiting (s : State) : State :=
  let ws := s.srt.cmds.filter fun c => !c.2.accepted
  let other := ws.find? fun c => (c.2.q.port == .b) != s.srt.lastB
  match other.orElse fun _ => ws.head? with
  | none => s
  | some (id, c) =>
    if 16384 < occCmds s + 1 || 32768 < occRanges s + (c.entries - 1) || s.srt.quiesce || !running s .srt then s
    else match acceptFault (dropCmd s id) c with
      | some st => endCmd (noteAccept s c.q.port) id st 0 (lowestLetter c)
      | none => trkSettle (enterTracker (dropCmd s id) { c with accepted := true })

/-! ## Conditions found at fetch (Tables 4-4 and 17-6, R114) -/

/-- Field errors of an I/O command, with the letter of the error log entry (R83, R86 to R88). -/
def ioFieldFault (n : Ns) (b : Instr) : Option (Status × Nat) :=
  let range (f : IoFields) : Option (Status × Nat) :=
    if n.nsze < f.slba + f.nlb + 1 then some (stLbaRange, max f.slba n.nsze) else none
  let mdts (f : IoFields) : Option (Status × Nat) := if 255 < f.nlb then some (stInvalidField, f.slba) else none
  let pi (f : IoFields) : Option (Status × Nat) :=
    if n.lbaf = 2 && n.piType != 3 && f.pi.ilbrt != f.slba % 2 ^ 48 then some (stInvalidPi, f.slba) else none
  match b with
  | .write _ f k => ((if 16 < k then some (stInvalidField, f.slba) else none).orElse fun _ => mdts f).orElse fun _ =>
      (range f).orElse fun _ => pi f
  | .read _ f _ => (mdts f).orElse fun _ => (range f).orElse fun _ => pi f
  | .compare _ f _ => (mdts f).orElse fun _ => (range f).orElse fun _ => pi f
  | .writeZeroes _ f _ => (range f).orElse fun _ => pi f
  | .verify _ f => (range f).orElse fun _ => pi f
  | .datasetManagement _ rs _ =>
    if rs.isEmpty || 256 < rs.length then some (stInvalidField, 0)
    else match (rs.filter fun r => n.nsze < r.slba + r.nlb).map fun r => max r.slba n.nsze with
      | [] => none
      | l :: ls => some (stLbaRange, ls.foldl min l)
  | _ => none

/-- The namespace as the controller has it attached. -/
def attachedNs (s : State) (q : Sqe) : Option Ns := (nsOf s q.nsid).filter fun n => n.attached.contains q.port

/-- The lowest letter that an I/O command names. -/
def firstLetter (b : Instr) : Nat :=
  match b with
  | .datasetManagement _ rs _ => (rs.map fun r => r.slba).foldl min ((rs.head?.map fun r => r.slba).getD 0)
  | _ => ((ioFields b).map fun f => f.slba).getD 0

def ioFault (s : State) (q : Sqe) (b : Instr) (modif : Bool) : Option (Status × Nat) :=
  if q.nsid = 0 || 128 < q.nsid then some (stInvalidNs, 0) else
  match attachedNs s q with
  | none => some (stInvalidField, 0)
  | some n => (ioFieldFault n b).orElse fun _ => (stateFault s q.nsid modif).map fun st => (st, firstLetter b)

/-- The ranges a command is tracked over: its letters, and for an LBAF 3 write the units they share (R100, R151). -/
def trackRanges (n : Ns) (nsid slba len : Nat) (writes : Bool) : List (Nat × Nat × Nat) :=
  (nsid, slba, len) ::
    (if writes && n.lbaf = 3 then [(nsid, n.nsze + slba / 64, (slba + len - 1) / 64 + 1 - slba / 64)] else [])

/-- A tracked I/O command that names letter ranges is fetched and accepted, or completes with its condition. -/
def fetchIo (s : State) (q : Sqe) (body : Instr) (modif writes : Bool) (rs : List (Nat × Nat)) : State :=
  if !canFetchIo s q then s else
  let s := takeEntry s q.port q.qid
  match ioFault s q body modif with
  | some (st, lba) => complete (noteAccept s q.port) q st 0 lba
  | none =>
    match nsOf s q.nsid with
    | none => s
    | some n => enterTracker s { body, q, modif, entries := rs.length + 1,
                                 ranges := rs.flatMap fun r => trackRanges n q.nsid r.1 r.2 writes }

/-- Flush: success at once (R83), after the conditions of its namespace; NSID 0xFFFFFFFF names them all. -/
def flushCmd (s : State) (q : Sqe) : State :=
  if !canFetchIo s q then s else
  let s := takeIo s q
  if q.nsid = 0xFFFFFFFF then complete s q ((stateFault s 0 false).getD stOk)
  else if q.nsid = 0 || 128 < q.nsid then complete s q stInvalidNs
  else if (attachedNs s q).isNone then complete s q stInvalidField
  else complete s q ((stateFault s q.nsid false).getD stOk)

/-- An opcode outside Tables 3-5, 3-6 and 17-1, or a fused command (R83). -/
def unsupported (s : State) (q : Sqe) (fused : Bool) : State :=
  let st := if fused then stInvalidField else stInvalidOpcode
  if q.qid = 0 then (if canFetchAdm s q then complete (takeAdmin s q.port) q st else s)
  else if canFetchIo s q then complete (takeIo s q) q st else s

/-- A write to a stream opens the stream where the directive is enabled (R91). -/
def noteStream (s : State) (q : Sqe) (stream : Nat) : State :=
  let x := getPort s q.port
  if stream = 0 || !x.dirEn.contains q.nsid || x.dirOpen.contains (q.nsid, stream) then s
  else setPort s q.port { x with dirOpen := x.dirOpen ++ [(q.nsid, stream)] }

/-! ## Slots (Table 5-5, R143) -/

/-- Slots of one parcel's letters: placed, with a bundle where the parcel needs one, or left to a read-modify-write. -/
def allocOne (id : Nat) (c : Cmd) (n : Ns) (f : IoFields) (a : State × List (Nat × Nat × Nat) × List Rmw)
    (x : Nat × List Nat) : State × List (Nat × Nat × Nat) × List Rmw :=
  let put (s : State) : State × List (Nat × Nat × Nat) × List Rmw :=
    let (s', pl) := placeLetters s id (streamNo c.body) x.1 x.2 fun l w => writtenPayload s n c f (16 * x.1 + l) w
    (s', a.2.1 ++ pl, a.2.2)
  let e := entryOf a.1.map.tab c.q.nsid x.1
  if x.2.length = 16 || !needsBundle e then put a.1 else
  let (s, ok) := tryBundle a.1 (.cmd id) c.q.nsid x.1 (isDeadEnt e)
  if ok then put s
  else if isDeadEnt e then put (waitBundle s { h := .cmd id, nsid := c.q.nsid, parcel := x.1, dealloc := false })
  else (s, a.2.1, a.2.2 ++ [{ nsid := c.q.nsid, parcel := x.1 }])

/-- The metadata units that a command writes (R151). -/
def cmdUnits (c : Cmd) (n : Ns) (f : IoFields) : List (Nat × Nat × Nat) :=
  if n.lbaf = 3 && !deallocates c.body then unitsOf f.slba (f.nlb + 1) else []

/-- A hidden parcel that a write's units touch: a bundle where it needs one, or a read-modify-write of the parcel (R143). Units
covered in full take their slots now; one that is merged takes its slot after the release that its read waits for (DEDUCED, log
entry 155). -/
def allocUnits (id : Nat) (c : Cmd) (n : Ns) (f : IoFields) (us : List (Nat × Nat × Nat))
    (a : State × List (Nat × Nat × Nat) × List Rmw) (p : Nat) : State × List (Nat × Nat × Nat) × List Rmw :=
  let put (s : State) : State × List (Nat × Nat × Nat) × List Rmw :=
    let (s, pl) := placeUnits s id c n f (us.filter fun u => u.2.2 = 64 && (n.nsze + u.1) / 16 == p)
    (s, a.2.1 ++ pl, a.2.2)
  let e := entryOf a.1.map.tab c.q.nsid p
  if !needsBundle e then put a.1 else
  let (s, ok) := tryBundle a.1 (.cmd id) c.q.nsid p (isDeadEnt e)
  if ok then put s
  else if isDeadEnt e then put (waitBundle s { h := .cmd id, nsid := c.q.nsid, parcel := p, dealloc := false })
  else (s, a.2.1, a.2.2 ++ [{ nsid := c.q.nsid, parcel := p }])

/-- Allocate slots for all of a command's letters, and for its metadata units (Table 5-5). -/
def allocAll (s : State) (id : Nat) (c : Cmd) (n : Ns) (f : IoFields) : State :=
  let us := cmdUnits c n f
  let a := (byParcel f.slba (f.nlb + 1)).foldl (allocOne id c n f) (s, [], [])
  let (s, pl, rm) := ((us.map fun u => (n.nsze + u.1) / 16).dedup).foldl (allocUnits id c n f us) a
  modCmd s id fun c => { c with places := pl, rmws := rm, units := us, dataIn := true }

/-- At release, bundles against the kinds of that moment: one that is not needed returns; one that is lacking is taken,
waited for, or replaced by a read-modify-write (R143). -/
def settleBundle (id : Nat) (s : State) (p : Nat) : State :=
  match getCmd s id with
  | none => s
  | some c =>
    let nsid := c.q.nsid
    let e := entryOf (projected s) nsid p
    let mine (r : Nat × Holder × Nat × Nat) : Bool := r.2 == (Holder.cmd id, nsid, p)
    if (c.places.filter fun x => x.1 / 16 == p).length = 16 then s
    else if !needsBundle e then updMap s fun m => { m with
      resv := m.resv.filter fun r => !mine r
      waiters := m.waiters.filter fun w => !(w.h == .cmd id && w.nsid == nsid && w.parcel == p) }
    else if s.map.waiters.any fun w => w.h == .cmd id && w.nsid == nsid && w.parcel == p then s
    else
      let (s, ok) := tryBundle s (.cmd id) nsid p (isDeadEnt e)
      if ok then s
      else if isDeadEnt e then waitBundle s { h := .cmd id, nsid, parcel := p, dealloc := false }
      else modCmd s id fun c => { c with
        places := c.places.filter fun x => x.1 / 16 != p
        rmws := c.rmws ++ [{ nsid, parcel := p }] }
/-- Every parcel that the command changes and does not rewrite by read-modify-write. -/
def settleBundles (s : State) (id : Nat) (c : Cmd) (n : Ns) : State :=
  let ps : List Nat := (c.places.map fun x => x.1 / 16) ++ (c.units.map fun u => (n.nsze + u.1) / 16)
  (ps.dedup.filter fun p => !c.rmws.any fun m => m.parcel == p).foldl (settleBundle id) s

/-! ## Going on after release -/

def slotsOf (fs : List (Nat × Found)) : List Nat :=
  fs.filterMap fun f => match f.2 with | Found.slot p => some p | .gone => none | .dead => none
def foundOf (s : State) (nsid l : Nat) : Nat × Found :=
  (l, match letterOf s.map.tab nsid l with | .gone => Found.gone | .dead _ => .dead | .slot p => .slot p | .odd _ => .gone)

/-- May a read-modify-write take its holds: no group of a held parcel is in a batch or held by another (R144 step 2). -/
def rmwFree (s : State) (id : Nat) (c : Cmd) : Bool :=
  c.rmws.all fun m =>
    !((s.jrc.applyQ ++ s.jrc.batches.flatMap fun b => b.groups).any fun g => g.wants.any fun w => w.touches m.nsid m.parcel)
    && !(s.srt.cmds.any fun d => d.1 != id && d.2.rmwStart && !d.2.resolved
          && d.2.rmws.any fun x => x.nsid == m.nsid && x.parcel == m.parcel)

/-- A read-modify-write fallback starts: MAP_RMWCNT, and source 42 on the first since the counter was 0 or read. -/
def rmwCount (s : State) : State :=
  let first := rd s 0x30068 == 0 || s.map.rmwSeen
  let s := updMap (satAdd s 0x30068 31 0 1) fun m => { m with rmwSeen := false }
  if first then raise s 42 else s

/-- The slots that a held parcel's other letters are read from. -/
def rmwReads (s : State) (c : Cmd) (m : Rmw) : List Nat :=
  let own := rmwOwn c m
  let e := entryOf s.map.tab m.nsid m.parcel
  (List.range 16).filterMap fun i =>
    if own.contains i then none else match letterIn s.map.tab e i with
      | .slot p => some p | .gone => none | .dead _ => none | .odd _ => none

/-- The letters whose entries a modifying command looks up to read before it writes: those of the parcels it rewrites and the units
it covers in part. -/
def mergeLetters (c : Cmd) (n : Ns) (f : IoFields) : List Nat :=
  c.rmws.flatMap (fun m => (List.range 16).map fun i => 16 * m.parcel + i)
    ++ ((cmdUnits c n f).filter fun u => u.2.2 < 64).map fun u => n.nsze + u.1
/-- A released modifying command with its data: it reads the units it covers in part and what its read-modify-writes need,
and then has its groups (R144, R151). It waits for segments that are being rebuilt, and a corrupt entry starts a rebuild. -/
def proceed (s : State) (id : Nat) : State :=
  match getCmd s id with
  | none => s
  | some c =>
    if !c.released || !c.dataIn || c.phase != 0 || c.status.isSome || !running s .map then s else
    if !rmwFree s id c then s else
    match nsOf s c.q.nsid with
    | none => s
    | some n =>
      let f := (ioFields c.body).getD noFields
      let ml := mergeLetters c n f
      if ml.any (onLost s c.q.nsid) then s else
      match corruptSeg s c.q.nsid ml with
      | some g => corrupt s g
      | none =>
      let us := cmdUnits c n f
      let uf := (us.filter fun u => u.2.2 < 64).map fun u => foundOf s c.q.nsid (n.nsze + u.1)
      let pend := (slotsOf uf ++ c.rmws.flatMap (rmwReads s c)).dedup
      let s := c.rmws.foldl (fun s _ => rmwCount s) s
      let s := modCmd s id fun c => { c with units := us, found := uf, pend, rmwStart := !c.rmws.isEmpty, phase := 1 }
      if pend.isEmpty then writeGot s id else readsOver (addReads s 1 (pend.map fun p => (p, Req.rmw id)))

/-- The map engine's disable sequence releases every hold (R161): a read-modify-write whose group is not asked for takes its
holds and reads its letters again once the engine is enabled. -/
def releaseHolds (s : State) : State :=
  updSrt s fun t => { t with cmds := t.cmds.map fun e =>
    (e.1, if e.2.rmwStart && !e.2.resolved && !e.2.ready then { e.2 with rmwStart := false, phase := 0, pend := [] }
          else { e.2 with rmwStart := false }) }
/-- Every command that waits for a hold tries again. -/
def proceedAll (s : State) : State := s.srt.cmds.foldl (fun s c => proceed s c.1) s

/-- Room below WSNLIM for what a write may program: the letters of its parcels and its metadata units (Table 10-8; log entry 83). -/
def writeRoom (s : State) (c : Cmd) (n : Ns) (f : IoFields) : Bool :=
  wsnRoom s (16 * (byParcel f.slba (f.nlb + 1)).length + (cmdUnits c n f).length)
/-- WRITE_DATA_TRANSFER_DONE (R32 step 3, R88, R113); while the data finds no write sequence number it waits where it is. -/
def writeData (s : State) (id : Nat) (blocks : List HostBlock) (hostFail bufferUe : Bool) : State :=
  match getCmd s id with
  | none => s
  | some c =>
    if !c.accepted || c.dataIn || c.status.isSome || !isWrite c.body then s else
    match ioFields c.body, nsOf s c.q.nsid with
    | some f, some n =>
      if hostFail then failCmd s id stDataTransfer f.slba
      else if bufferUe then
        let (s, u) := freshBelow s (2 ^ 30)
        failCmd (drcReport s 0 u) id stInternal f.slba
      else
        let c := { c with blocks }
        let fails := if n.lbaf = 2 && !f.pi.pract then (List.range (f.nlb + 1)).filterMap fun i =>
            let b := writtenBlock c f (f.slba + i)
            (piCheck n.piType f.pi i b.data (b.md.setWidth 128)).map fun k => (k, f.slba + i)
          else []
        match [1, 2, 3].findSome? fun k => fails.find? fun x => x.1 == k with
        | some (k, l) => failCmd s id (piStatus k) l
        | none =>
          if !writeRoom s c n f then s else
          let s := allocAll (modCmd s id fun x => { x with blocks }) id c n f
          proceed (turn s) id
    | _, _ => s

/-! ## Release -/

/-- Every overlapping command fetched before it is resolved (R107). -/
def ordered (s : State) (id : Nat) (c : Cmd) : Bool :=
  !(s.srt.cmds.any fun d => d.1 < id && d.2.accepted && 0 < d.2.entries && !d.2.resolved && overlap d.2 c)


/-- The letters a reading command looks up, with the metadata units of LBAF 3 that are dead (R291) or hold metadata of a letter stored
in a slot: a deallocated letter makes no flash read (R150). -/
def readLetters (s : State) (nsid : Nat) (n : Ns) (f : IoFields) : List Nat :=
  let stored (l : Nat) : Bool := match letterOf s.map.tab nsid l with | .slot _ => true | .gone => false | .dead _ => false | .odd _ => false
  (List.range (f.nlb + 1)).map (fun i => f.slba + i)
    ++ (if n.lbaf = 3 then ((unitsOf f.slba (f.nlb + 1)).filter fun u =>
          isDead (letterOf s.map.tab nsid (n.nsze + u.1)) || (List.range u.2.2).any fun i => stored (u.2.1 + i)).map
          fun u => n.nsze + u.1 else [])

/-- A reading command's lookups (R34 step 3): pins, and the reads of what they found; it is resolved (R107, R108). In FAILED it
completes as Table 4-4 says. -/
def lookup (s : State) (id : Nat) (c : Cmd) (n : Ns) (f : IoFields) : State :=
  let ls := readLetters s c.q.nsid n f
  if s.map.chip = 4 then endCmd s id stAnaLoss 0 f.slba
  else if ls.any (onLost s c.q.nsid) then s else
  match corruptSeg s c.q.nsid ls with
  | some g => corrupt s g
  | none =>
    let fs := ls.map (foundOf s c.q.nsid)
    let ps := (slotsOf fs).dedup
    let pins := (ps.filterMap (sbxOf s.map.tab)).dedup.filter (canPin s)
    let s := pins.foldl pin s
    let v : View := { n := { n with segs := [], parcels := [] }, key := keyOf s c.q.nsid }
    let s := modCmd s id fun c => { c with found := fs, view := some v, pins, pend := ps, released := true, resolved := true }
    if ps.isEmpty then finishRead s id else readsOver (requestReads s 1 (ps.map fun p => (p, Req.cmd id)))

/-- The letters of a modifying command whose segments it needs. -/
def writeLetters (n : Ns) (c : Cmd) (f : IoFields) : List Nat :=
  (byParcel f.slba (f.nlb + 1)).map (fun x => 16 * x.1)
    ++ (if n.lbaf = 3 && !deallocates c.body then (unitsOf f.slba (f.nlb + 1)).map fun u => n.nsze + u.1 else [])

/-- A Write or a Write Zeroes with DEAC = 0 is released: the capacity check (R154), its bundles, and its groups. -/
def releaseWrite (s : State) (id : Nat) (c : Cmd) (n : Ns) (f : IoFields) : State :=
  if (writeLetters n c f).any (onLost s c.q.nsid) then s else
  let ls := (List.range (f.nlb + 1)).map fun i => f.slba + i
  let ul := (cmdUnits c n f).map fun u => n.nsze + u.1
  match corruptSeg s c.q.nsid (ls ++ ul) with
  | some g => corrupt s g
  | none =>
    let user := newLetters s c.q.nsid ls
    let units := newLetters s c.q.nsid ul
    if !capacityOk s c.q.nsid user (user + units) then capacityFail s id
    else if !isWrite c.body && !writeRoom s c n f then s else
    let s := modCmd s id fun c => { c with released := true, newLets := user + units, newUser := user }
    let s := if isWrite c.body then settleBundles s id c n else turn (allocAll s id c n f)
    proceed s id

/-! ## Deallocations (R149, R111, R158) -/

/-- Runs of whole parcels, at most 65,536 to a record (Table 10-4). -/
def rangeRuns : Nat → Nat → Nat → Nat → List Want
  | 0, _, _, _ => []
  | k + 1, nsid, p, n => if n = 0 then [] else .clearRange nsid p (min n 65536) :: rangeRuns k nsid (p + min n 65536) (n - min n 65536)

/-- The wants of one range, in ascending order. -/
def rangeWants (nsid slba len : Nat) : List Want :=
  if len = 0 then [] else
  let p0 := (slba + 15) / 16
  let p1 := (slba + len) / 16
  if p1 < p0 then [.clear nsid (slba / 16) ((List.range len).map fun i => slba % 16 + i)]
  else
    (if slba % 16 = 0 then [] else [Want.clear nsid (slba / 16) ((List.range (16 - slba % 16)).map fun i => slba % 16 + i)])
    ++ rangeRuns ((p1 - p0) / 65536 + 1) nsid p0 (p1 - p0)
    ++ (if (slba + len) % 16 = 0 then [] else [Want.clear nsid p1 (List.range ((slba + len) % 16))])

/-- Letters that whole-parcel wants cover. -/
def wantLetters (w : Want) : Nat := match w with | .clearRange _ _ n => 16 * n | _ => 0

/-- The groups of a deallocation: each within one range; Shed Capacity's carry an ACCT record for their letters (R421). -/
def deallocGroups (nsid : Nat) (rs : List (Nat × Nat)) (shed : Bool) : List (List Want) :=
  rs.flatMap fun r =>
    let ws := rangeWants nsid r.1 r.2
    (chunked 900 ws.length ws).map fun g => if shed then g ++ [.shed nsid ((g.map wantLetters).foldl (· + ·) 0)] else g
/-- The dead metadata units all of whose 64 letters lie in the ranges: a deallocation clears them (R291). -/
def deadUnits (t : MapTab) (nsid : Nat) (n : Ns) (rs : List (Nat × Nat)) : List Nat :=
  if n.lbaf != 3 then [] else
  ((n.parcels.filter fun e => decide (n.nsze ≤ 16 * e.1)).flatMap fun e => (List.range 16).map fun i => 16 * e.1 + i).filter fun l =>
    isDead (letterOf t nsid l) &&
      (List.range 64).all fun i => let x := 64 * (l - n.nsze) + i; decide (n.nsze ≤ x) || rs.any fun r => r.1 ≤ x && x < r.1 + r.2
/-- The groups that clear them. -/
def unitGroups (s : State) (nsid : Nat) (rs : List (Nat × Nat)) : List (List Want) :=
  match nsOf s nsid with
  | none => []
  | some n => (deadUnits s.map.tab nsid n rs).map fun l => [.clear nsid (l / 16) [l % 16]]

/-- The letter ranges of a deallocating command. -/
def deallocRanges (b : Instr) : List (Nat × Nat) :=
  match b with
  | .datasetManagement _ rs _ => rs.map fun r => (r.slba, r.nlb)
  | .writeZeroes _ f _ => [(f.slba, f.nlb + 1)]
  | .shedCapacityRanges _ rs => rs.map fun r => (r.slba, r.nlb)
  | _ => []
def isShed (b : Instr) : Bool := match b with | .shedCapacityRanges _ _ => true | _ => false

/-- A mapped parcel with a corrupt entry among the letters of ranges (R131). -/
def corruptIn (s : State) (nsid : Nat) (rs : List (Nat × Nat)) : Option Nat :=
  let ps := (((nsOf s nsid).map fun n => n.parcels).getD []).filter fun e => rs.any fun r => r.1 < 16 * e.1 + 16 && 16 * e.1 < r.1 + r.2
  corruptSeg s nsid (ps.flatMap fun e => ((List.range 16).map fun i => 16 * e.1 + i).filter fun l => rs.any fun r => r.1 ≤ l && l < r.1 + r.2)

/-- A deallocating command is released: bundles for its partial parcels as listed cases, and its groups. Its lookup waits for segments
that are being rebuilt (R308). -/
def releaseDealloc (s : State) (id : Nat) (c : Cmd) : State :=
  let nsid := c.q.nsid
  if rangesLost s nsid (deallocRanges c.body) then s else
  match corruptIn s nsid (deallocRanges c.body) with
  | some g => corrupt s g
  | none =>
  let gs := deallocGroups nsid (deallocRanges c.body) (isShed c.body) ++ unitGroups s nsid (deallocRanges c.body)
  let one (s : State) (w : Want) : State :=
    match w with
    | .clear _ p ls =>
      let e := entryOf (projected s) nsid p
      if ls.length = 16 || e = .unmapped || !needsBundle e then s else
      let (s, ok) := tryBundle s (.cmd id) nsid p true
      if ok then s else waitBundle s { h := .cmd id, nsid, parcel := p, dealloc := true }
    | _ => s
  let s := gs.foldl (fun s g => g.foldl one s) s
  let s := modCmd s id fun c => { c with released := true, dataIn := true, ready := true, wants := gs }
  if gs.isEmpty then finishCmd s id else askNext s id

/-- DEALLOC_BUNDLE_TIMEOUT (R149): the parcels that still wait are rewritten by read-modify-write. -/
def deallocTimeout (s : State) (id : Nat) : State :=
  let ws := s.map.waiters.filter fun w => w.h == .cmd id && w.dealloc
  if ws.isEmpty then s else
  let s := settlePressure (updMap s fun m => { m with waiters := m.waiters.filter fun w => !(w.h == .cmd id && w.dealloc) })
  let lets (c : Cmd) (w : Waiter) : Option (List Nat) := (c.wants.flatMap fun g => g).findSome? fun x => match x with
    | .clear n p ls => if n = w.nsid && p = w.parcel then some ls else none
    | _ => none
  proceed (modCmd s id fun c => { c with
    ready := false, phase := 0, rmws := ws.map fun w => { nsid := w.nsid, parcel := w.parcel, own := lets c w } }) id

/-- BUNDLE_WAIT_END (R143): the oldest waiting listed case takes a free bundle. -/
def bundleWaitEnd (s : State) : State :=
  match s.map.waiters with
  | [] => s
  | w :: r =>
    if bundlesFree s = 0 then s else
    let s := takeBundle (updMap s fun m => { m with waiters := r }) w.h w.nsid w.parcel
    match w.h with
    | .cmd id => askNext (proceed s id) id
    | .reloc id => tryReloc s id
    | .sys => s

/-- A host group that lost its parcel's bundle while it waited reserves another as a listed case (log entry 40). -/
def rebundle (s : State) : State :=
  s.jrc.reqs.foldl (fun s g => match g.owner with
    | .cmd id => g.wants.foldl (fun s w => if !lacksBundle s g.owner w then s else
        match w with
        | .put nsid p _ =>
          let (s, ok) := tryBundle s (.cmd id) nsid p true
          if ok then s else waitBundle s { h := .cmd id, nsid, parcel := p, dealloc := false }
        | .clear nsid p _ =>
          let (s, ok) := tryBundle s (.cmd id) nsid p true
          if ok then s else waitBundle s { h := .cmd id, nsid, parcel := p, dealloc := true }
        | _ => s) s
    | .reloc _ => s | .dead _ => s | .sb _ => s | .sweep _ => s | .other => s) s

/-- PACKING_FILLWAIT_EXPIRY (R139): the stream's packing page group closes with filler slots. -/
def fillwait (s : State) (k : Nat) : State := turn (packClose s k)

/-- HEAT_HALVING (R147). -/
def heatHalving (s : State) : State :=
  if !active s .map then s else
  updTab s fun t => { t with bundles := t.bundles.map fun b => (b.1, { b.2 with heat := b.2.heat / 2 }) }

end Sys2Proof.Machine
end

