-- ==== Sys2Proof/Machine/Nor.lean ====
section
/-! DEFINITION. The Config NOR: configuration banks and images (R434 to R438), the boot record (R442), image acceptance
(R348, R352), the NOR operations (R457) and fetches through its window (R455, R456). -/

namespace Sys2Proof.Machine

namespace Reg
def cfgBoot : Nat := 0xE0010
def norAddr : Nat := 0xE0080
def norLen : Nat := 0xE0084
def norBuf : Nat := 0xE0088
def norRes : Nat := 0xE0094
def xipStat : Nat := 0xE0098
def cfgCause : Nat := 0xE009C
end Reg

/-- The source of a bit of CFG_CAUSE (Table 18-17). -/
def cfgSrc (bit : Nat) : Nat := match bit with | 0 => 145 | 1 => 146 | 2 => 147 | 3 => 148 | _ => 150
/-- Set a bit of CFG_CAUSE: a stage's start and a NOR operation's completion raise their source each time (Table 18-17). -/
def cfgCauseSet (s : State) (bit : Nat) : State :=
  if bit = 0 || bit = 2 then noteCause s Reg.cfgCause bit (cfgSrc bit) else setCause s Reg.cfgCause bit (cfgSrc bit)

def norBytes (s : State) (a n : Nat) : List Byte := memReads 0xFF s.boot.nor a n
def norPut (s : State) (a : Nat) (l : List Byte) : State := updBoot s fun b => { b with nor := memWrites 0xFF b.nor a l }
def allZero (l : List Byte) : Bool := l.all fun b => b == 0
/-- Bytes a to b, both included, are 0. -/
def zeroRange (l : List Byte) (a b : Nat) : Bool := allZero (slice l a (b + 1 - a))

/-! ## Keys and signatures -/

/-- A slot is usable when programmed and not revoked (R350). -/
def KeySlot.usable (k : KeySlot) : Bool := k.programmed && !k.revoked
def usableSlot (s : State) (k : Nat) : Bool := (s.sec.slots.getD k {}).usable
/-- The slot is usable and its KEYHASH is the SHA-512 of the key. -/
def keyOk (s : State) (k : Nat) (pub : List Byte) : Bool :=
  k < 4 && usableSlot s k && Config.sha512 pub == (s.sec.slots.getD k {}).keyhash

/-! ## Configuration images (R435 to R438) -/

/-- The body blocks of an image: type and data, each padded to a multiple of 4; none where one passes the end. -/
def bodyBlocks : Nat → List Byte → Option (List (Nat × List Byte))
  | 0, _ => none
  | fuel + 1, l =>
    if l.isEmpty then some [] else
    let n := fieldAt l 2 2
    let t := 4 + (n + 3) / 4 * 4
    if l.length < t then none else (bodyBlocks fuel (l.drop t)).map fun r => (fieldAt l 0 2, (l.drop 4).take n) :: r

/-- May an image of a KIND and MODE hold a block of this TYPE (Table 18-5)? -/
def blockPermitted (kind mode typ : Nat) : Bool :=
  if kind = 1 then typ == 1 || typ == 2 || typ == 3 || typ == 4 || typ == 6 || typ == 7
  else typ == 1 || (typ == 5 && mode == 2) || (typ == 8 && mode == 1)

/-- The total bytes of a configuration image, from its BODYLEN (R436). -/
def imgLen (l : List Byte) : Nat := 256 + fieldAt l 16 4 + 132
/-- The body of a configuration image. -/
def imgBody (l : List Byte) : List Byte := (l.drop 256).take (fieldAt l 16 4)

/-- Is a configuration image's form right: its header, and its body's blocks (R437, Tables 18-4 and 18-5)? -/
def cfgForm (l : List Byte) : Bool :=
  let kind := fieldAt l 8 1
  let mode := fieldAt l 9 1
  let len := fieldAt l 16 4
  fieldAt l 0 4 == 0x43464749 && fieldAt l 4 2 == 1 && fieldAt l 6 2 == 0x7400 && (kind == 1 || kind == 2) &&
  (if kind = 1 then mode == 0 && fieldAt l 10 2 == 0 && fieldAt l 13 1 < 2 else 1 ≤ mode && mode ≤ 5 && fieldAt l 13 1 == 0) &&
  zeroRange l 14 15 && zeroRange l 20 115 && zeroRange l 249 255 && len % 4 == 0 && imgLen l ≤ l.length &&
  (match bodyBlocks (len + 1) (imgBody l) with
   | some bs => bs.all fun b => blockPermitted kind mode b.1
   | none => false)
/-- What the checks of a configuration image find, in the codes of Table 14-3: 0 passed, 1 form, 2 key, 3 signature (R437; which code
CFG_NORRES shows of it is a DESIGN CHOICE, log entry 206). -/
def cfgResult (s : State) (l : List Byte) : Nat :=
  let len := fieldAt l 16 4
  if !cfgForm l then 1
  else if !keyOk s (fieldAt l 12 1) (slice l 116 133) then 2
  else if !Config.ecdsaVerify (slice l 116 133) (l.take (256 + len)) (slice l (256 + len) 132) then 3 else 0
/-- Does a configuration image pass (R437)? -/
def imgOk (s : State) (l : List Byte) : Bool := cfgResult s l == 0

/-- The images of a bank's content, COUNT of them, one after another. -/
def splitImgs : Nat → List Byte → Option (List (List Byte))
  | 0, l => if l.isEmpty then some [] else none
  | n + 1, l => if l.length < imgLen l then none else (splitImgs n (l.drop (imgLen l))).map fun r => l.take (imgLen l) :: r

/-- MODE and OVID of an overlay. -/
def imgId (l : List Byte) : Nat × Nat := (fieldAt l 9 1, fieldAt l 10 2)
def noRepeat : List (Nat × Nat) → Bool
  | [] => true
  | x :: r => !r.contains x && noRepeat r

/-- The images of bank content that pass as a base bank (kind 1) or an overlay bank (kind 2); none where they do not. -/
def contentOk (s : State) (kind count : Nat) (content : List Byte) : Option (List (List Byte)) :=
  match splitImgs count content with
  | none => none
  | some is =>
    if (if kind = 1 then count == 1 else count ≤ 32) && is.all (fun i => imgOk s i && fieldAt i 8 1 == kind) &&
       (kind == 1 || noRepeat (is.map imgId)) then some is else none

/-- The acceptance result of bank content that is refused: its first image's that does not pass, else 1. -/
def contentResult (s : State) (count : Nat) (content : List Byte) : Nat :=
  (((splitImgs count content).getD []).findSome? fun i => if cfgResult s i = 0 then none else some (cfgResult s i)).getD 1

/-- Offset of a bank (Table 18-2): kind 1 base, 2 overlay; bank 0 A, 1 B. -/
def bankOff (kind b : Nat) : Nat := (if kind = 1 then 0x20000 else 0x120000) + b * 0x80000

/-- A bank's SEQ and images where it is valid (R435). -/
def bankAt (s : State) (kind b : Nat) : Option (Nat × List (List Byte)) :=
  let off := bankOff kind b
  let hdr := norBytes s off 64
  let len := fieldAt hdr 16 4
  if fieldAt hdr 0 4 != 0x43464742 || 0x80000 - 64 < len then none else
  let all := norBytes s off (64 + len)
  if crcOver all 4 4 != fieldAt hdr 4 4 then none else
  (contentOk s kind (fieldAt hdr 20 1) (all.drop 64)).map fun is => (fieldAt hdr 8 8, is)

/-- The bank in use (R438): number, SEQ, images, and whether a bank of higher SEQ was passed over. -/
def bankInUse (s : State) (kind : Nat) : Option (Nat × Nat × List (List Byte) × Bool) :=
  let higher := fun (b q : Nat) =>
    let h := norBytes s (bankOff kind b) 64
    fieldAt h 0 4 == 0x43464742 && q < fieldAt h 8 8
  match bankAt s kind 0, bankAt s kind 1 with
  | some (qa, ia), some (qb, ib) => if qa < qb then some (1, qb, ib, false) else some (0, qa, ia, false)
  | some (qa, ia), none => some (0, qa, ia, higher 1 qa)
  | none, some (qb, ib) => some (1, qb, ib, higher 0 qb)
  | none, none => none

/-! ## The boot record (R442) -/

/-- The record of a copy where it is valid: its 64 bytes. -/
def recordAt (s : State) (copy : Nat) : Option (List Byte) :=
  let l := norBytes s (copy * 0x1000) 64
  if fieldAt l 0 4 == 0x42524543 && crcOver l 4 4 == fieldAt l 4 4 then some l else none
/-- The copy in force: its number and bytes. -/
def recordInForce (s : State) : Option (Nat × List Byte) :=
  match recordAt s 0, recordAt s 1 with
  | some a, some b => if fieldAt a 8 8 < fieldAt b 8 8 then some (1, b) else some (0, a)
  | some a, none => some (0, a)
  | none, some b => some (1, b)
  | none, none => none
def recordBytesWith (crc seq slot flags digest : Nat) : List Byte :=
  le 4 0x42524543 ++ le 4 crc ++ le 8 seq ++ le 1 slot ++ le 1 flags ++ le 2 0 ++ le 16 digest ++ le 28 0
def recordBytes (seq slot flags digest : Nat) : List Byte :=
  recordBytesWith (crc32c (recordBytesWith 0 seq slot flags digest)) seq slot flags digest
def recCommissioned (l : List Byte) : Bool := bitOf (fieldAt l 17 1) 0
def recRecom (l : List Byte) : Bool := bitOf (fieldAt l 17 1) 1
/-- Write a boot record to the copy not in force, SEQ one more (R442). -/
def writeRecordCopy (s : State) (slot flags digest : Nat) : State :=
  let (copy, seq) := match recordInForce s with
    | some (c, l) => (1 - c, fieldAt l 8 8 + 1)
    | none => (0, 1)
  let s := norPut s (copy * 0x1000) (recordBytes seq slot flags digest)
  wrField (wr s 0xE0048 seq) Reg.cfgBoot 9 9 copy

/-! ## Firmware images (R348, R352) -/

def slotOff (k : Nat) : Nat := 0x1000000 + k * 0x1000000
/-- The image that a NOR slot holds, by its own PAYLEN; of a slot that holds none, as many bytes as an image has at least. -/
def slotImage (s : State) (k : Nat) : List Byte :=
  let h := norBytes s (slotOff k) 24
  norBytes s (slotOff k) (if fieldAt h 0 4 = 0x53494D47 then min 16777216 (1156 + fieldAt h 16 4) else 1156)
/-- The first 16 bytes of an image digest (R349). -/
def digest16 (l : List Byte) : Nat := (Config.sha512 l).toNat % 2 ^ 128
/-- Serials from NSER upward are 0 (Table 14-1). -/
def serialsClear (l : List Byte) (nser : Nat) : Bool :=
  (List.range 16).all fun k => k < nser || zeroRange l (64 + 24 * k) (87 + 24 * k)
/-- Is the image's form right (first step of R352)? -/
def imageForm (l : List Byte) : Bool :=
  let pay := fieldAt l 16 4
  let res := fieldAt l 20 4
  fieldAt l 0 4 == 0x53494D47 && fieldAt l 4 2 == 1 && l.length == 1156 + pay && pay % 64 == 0 && 64 ≤ pay &&
  pay ≤ 16776000 && res % 64 == 0 && 64 ≤ res && res ≤ 4194304 && res ≤ pay && fieldAt l 24 4 < res &&
  fieldAt l 36 1 ≤ 16 && fieldAt l 10 1 ≤ 127 && fieldAt l 12 4 < 2 && zeroRange l 37 63 && zeroRange l 645 1023 &&
  serialsClear l (fieldAt l 36 1)
/-- The unit's serial is in the image's list. -/
def serialListed (s : State) (l : List Byte) (nser : Nat) : Bool :=
  (List.range nser).any fun k => slice l (64 + 24 * k) 24 == le 24 s.chip.serial.toNat

/-- Acceptance (R352) as RESULT of Table 14-3: 0 accepted, 1 format, 2 key, 3 signature, 4 hardware, 5 unit, 6 SVN. -/
def accept (s : State) (l : List Byte) : Nat :=
  let pay := fieldAt l 16 4
  if !imageForm l then 1
  else if !keyOk s (fieldAt l 11 1) (slice l 512 133) then 2
  else if Config.sha512 (slice l 1024 pay) != BitVec.ofNat 512 (fieldAt l 448 64) ||
      !Config.ecdsaVerify (slice l 512 133) (l.take 1024) (slice l (1024 + pay) 132) then 3
  else if fieldAt l 6 2 != 0x7400 || fieldAt l 8 2 % 2 == 0 then 4
  else if 0 < fieldAt l 36 1 then (if serialListed s l (fieldAt l 36 1) then 0 else 5)
  else if fieldAt l 10 1 < s.sec.minsvn then 6 else 0

/-! ## NOR operations (R457) -/

/-- Is every byte of a range in a firmware area (Table 18-2)? -/
def inFirmwareArea (s : State) (a n : Nat) : Bool :=
  (0x220000 ≤ a && a + n ≤ 0x1000000) || (0x3000000 ≤ a && a + n ≤ s.boot.norSize)

def bankHeaderWith (crc seq len count : Nat) : List Byte :=
  le 4 0x43464742 ++ le 4 crc ++ le 8 seq ++ le 4 len ++ le 1 count ++ le 43 0
/-- A bank of content under its header (Table 18-3). -/
def bankBytes (seq count : Nat) (content : List Byte) : List Byte :=
  bankHeaderWith (crc32c (bankHeaderWith 0 seq content.length count ++ content)) seq content.length count ++ content
/-- The images that buffer content holds, counted by their own lengths. -/
def countImgs : Nat → List Byte → Nat
  | 0, _ => 0
  | fuel + 1, l => if l.isEmpty then 0 else if l.length < imgLen l then 1 else 1 + countImgs fuel (l.drop (imgLen l))
/-- Where a bank write goes and its SEQ: the bank not holding the newest valid one (Table 18-14). -/
def bankTarget (s : State) (kind : Nat) : Nat × Nat :=
  match bankInUse s kind with
  | some (b, q, _, _) => (1 - b, q + 1)
  | none => (0, 1)
/-- Running NOR slot. -/
def runningSlot (s : State) : Nat := rdField s Reg.cfgBoot 12 12

/-- What a NOR operation will do: refused, or an address and bytes, with the acceptance result (Table 18-14). -/
def norPlan (s : State) (v : Nat) (buf : List Byte) : NorOp :=
  let op := bitsOf v 3 0
  let addr := rd s Reg.norAddr
  let len := rdField s Reg.norLen 24 0
  let no : NorOp := { op, addr, data := [], refused := true }
  let sl := bitsOf v 8 8
  match op with
  | 1 => if s.boot.norSize < addr + len then no else { op, addr, data := norBytes s addr len, erasing := false }
  | 2 => if addr % 4096 != 0 || len % 4096 != 0 || !inFirmwareArea s addr len then no else { op, addr, data := buf }
  | 3 => match contentOk s 1 1 buf with
    | none => { no with result := contentResult s 1 buf }
    | some _ => let t := bankTarget s 1; { op, addr := bankOff 1 t.1, data := bankBytes t.2 1 buf }
  | 4 =>
    let n := countImgs 33 buf
    match contentOk s 2 n buf with
    | none => { no with result := contentResult s n buf }
    | some _ => let t := bankTarget s 2; { op, addr := bankOff 2 t.1, data := bankBytes t.2 n buf }
  | 5 =>
    let r := accept s buf
    if r != 0 || sl == runningSlot s then { no with result := r } else { op, addr := slotOff sl, data := buf }
  | 6 =>
    let r := accept s (slotImage s sl)
    let com := bitOf v 10
    let rec' := bitOf v 9
    let had := match recordInForce s with | some (_, l) => recCommissioned l | none => false
    if r != 0 || (!com && had) || (rec' && !s.sec.depot) then { no with result := r } else
    let t := match recordInForce s with | some (c, l) => (1 - c, fieldAt l 8 8 + 1) | none => (0, 1)
    { op, addr := t.1 * 0x1000,
      data := recordBytes t.2 sl ((if com then 1 else 0) + (if rec' then 2 else 0)) (digest16 (slotImage s sl)) }
  | 7 => if !s.sec.depot then no else { op, addr := 0x10000, data := buf.take 65536 ++ List.replicate (65536 - buf.length) 0xFF }
  | _ => no

/-- A CFG_NORCMD trigger (R54, R457): VALID clears, GEN rises, the operation runs; only SC0 and SC1 trigger one. -/
def norStart (s : State) (i : Initiator) (v : Nat) : State :=
  if i != .sc0 && i != .sc1 || bitsOf v 3 0 = 0 then s else
  let g := (rdField s Reg.norRes 15 0 + 1) % 65536
  let (s, buf) := if bitsOf v 3 0 = 1 then (s, []) else directRead s (rdField s Reg.norBuf 35 6 * 64) (rdField s Reg.norLen 24 0)
  updBoot (wr s Reg.norRes g) fun b => { b with op := some (norPlan s v buf) }

/-- Bytes whose value the spec leaves open after a failed write: free values, one each (log entry 5). -/
def freeBytes : Nat → State → List Byte → State × List Byte
  | 0, s, _ => (s, [])
  | _, s, [] => (s, [])
  | n + 1, s, _ :: r =>
    let x := freshBelow s 256
    let y := freeBytes n x.1 r
    (y.1, BitVec.ofNat 8 x.2 :: y.2)

/-- What a NOR operation leaves: the buffer, the bytes written, or after a failed read-back open bytes. -/
def norApply (s : State) (o : NorOp) (bad : Bool) : State :=
  if o.refused then s
  else if o.op = 1 then directWrite s (rdField s Reg.norBuf 35 6 * 64) o.data
  else if bad then let x := freeBytes o.data.length s o.data; norPut x.1 o.addr x.2
  else
    let s := norPut s o.addr o.data
    if o.op = 6 then wrField (wr s 0xE0048 (fieldAt o.data 8 8)) Reg.cfgBoot 9 9 (o.addr / 0x1000) else s

/-- NOR_OP_DONE (R457): the bytes, CFG_NORRES, NOR_DONE and source 147; waiting fetches are served. -/
def norDone (s : State) (mismatch timeout : Bool) : State :=
  match s.boot.op with
  | none => s
  | some o =>
    if o.commit then s else
    let res := if o.refused then 1 else if timeout then 3 else if mismatch then 2 else 0
    let s := norApply s o (mismatch || timeout)
    let g := rdField s Reg.norRes 15 0
    let s := updBoot (wr s Reg.norRes (2 ^ 31 + res * 2 ^ 28 + o.result * 2 ^ 24 + g)) fun b => { b with op := none }
    let s := s.boot.waiting.foldl (fun s w => emit s (.fetch w.1 (norBytes s (w.2 / 64 * 64) 64))) s
    cfgCauseSet (updBoot s fun b => { b with waiting := [] }) 2

/-! ## Execute in place (R455, R456) -/

/-- The longest fetch wait, in µs, saturating. -/
def xipWait (s : State) (us : Nat) : State := wrField s Reg.xipStat 31 16 (max (rdField s Reg.xipStat 31 16) (min us 65535))
/-- Does an access lie in the range the running operation erases or programs? How far the operation has come is not followed: a sector of
its range is taken as the one being erased or programmed (DESIGN CHOICE, log entry 206). -/
def inOpRange (o : NorOp) (off : Nat) : Bool :=
  !o.refused && o.op != 1 && o.addr / 4096 * 4096 ≤ off && off < (o.addr + o.data.length + 4095) / 4096 * 4096
/-- XIP_FETCH: served at once, held until a program ends or an erase is suspended, or a bus fault in the range. -/
def xipFetch (s : State) (i : Initiator) (off waited : Nat) : State :=
  if 0x4000000 ≤ off || !isCore i then s else
  match s.boot.op with
  | none => emit (xipWait s waited) (.fetch i (norBytes s (off / 64 * 64) 64))
  | some o =>
    if inOpRange o off then emit (cfgCauseSet s 4) (.busFault i)
    else if o.refused || o.op == 1 || o.suspended then emit (xipWait s waited) (.fetch i (norBytes s (off / 64 * 64) 64))
    else updBoot s fun b => { b with waiting := b.waiting ++ [(i, off)] }
/-- Serve every pending access. -/
def xipServe (s : State) : State :=
  let s := s.boot.waiting.foldl (fun s w => emit s (.fetch w.1 (norBytes s (w.2 / 64 * 64) 64))) s
  updBoot s fun b => { b with waiting := [] }
/-- NOR_ERASE_SUSPEND: the erase is suspended for its pending accesses, which are served. -/
def norSuspend (s : State) (waited : Nat) : State :=
  match s.boot.op with
  | some o =>
    if o.erasing && !o.suspended && !s.boot.waiting.isEmpty then
      let s := satAdd (xipWait s waited) Reg.xipStat 15 0 1
      xipServe (updBoot s fun b => { b with op := some { o with suspended := true } })
    else s
  | none => s
/-- NOR_ERASE_RESUME. -/
def norResume (s : State) : State :=
  match s.boot.op with
  | some o => if o.suspended && s.boot.waiting.isEmpty then updBoot s fun b => { b with op := some { o with suspended := false } } else s
  | none => s
/-- NOR_PAGE_PROGRAM_DONE: pending accesses are served before the next program or erase. -/
def norPageDone (s : State) : State := match s.boot.op with | some _ => xipServe s | none => s

end Sys2Proof.Machine
end

