-- ==== Sys2Proof/Machine/Ring.lean ====
section
/-! DEFINITION. The Yosol ring: links (R320), dispatches (R321 to R323), enumeration (R324 to R326), reachability and the
partition rule (R327 to R330), the timebase (R332 to R335), schedules and windows (R336 to R338), group ticks (R339), the
firmware relay (R342) and rejoin (R343). -/

namespace Sys2Proof

/-- The other port of the ring. -/
def RingPort.other (p : RingPort) : RingPort := match p with | .east => .west | .west => .east
/-- A link state as RNG_PORT shows it. -/
def RingLink.code (l : RingLink) : Nat := match l with | .down => 0 | .training => 1 | .up => 2 | .miswired => 3

end Sys2Proof

namespace Sys2Proof.Machine

namespace Reg
def rngErr : Nat := 0xB0058
def rngDown : Nat := 0xB005C
def rngForeign : Nat := 0xB0060
def rngCause : Nat := 0xB0050
def rngDefSched : Nat := 0xB0044
def rngGeper : Nat := 0xB0048
def rngTxbuf (w : Nat) : Nat := 0xB0080 + 4 * w
def mapRegime : Nat := 0x30098
end Reg

/-- The source of a bit of RNG_CAUSE (Table 13-14). -/
def ringSrc (bit : Nat) : Nat :=
  match bit with
  | 0 => 121 | 1 => 122 | 9 => 122 | 2 => 123 | 10 => 123 | 3 => 124 | 4 => 125 | 5 => 125 | 11 => 125 | 12 => 125
  | 6 => 126 | 7 => 126 | _ => 127
def ringCause (s : State) (bit : Nat) : State := setCause s Reg.rngCause bit (ringSrc bit)
/-- The vendor event of R345 on both controllers. -/
def ringNotice (s : State) : State := asyncBoth s 7 3 0xC2

/-- SERHASH, the CRC-32C of the unit serial (R323). -/
def serhash (s : State) : Nat := crc32c (le 24 s.chip.serial.toNat)
def linkOf (r : Ring) (p : RingPort) : RingLink := match p with | .east => r.east | .west => r.west
def setLink (s : State) (p : RingPort) (l : RingLink) : State :=
  updRing s fun r => match p with | .east => { r with east := l } | .west => { r with west := l }
/-- PORTS of a beacon: the east link state in [1:0], the west one in [3:2]. -/
def portsByte (r : Ring) : Nat := r.east.code + 4 * r.west.code
def RingSt.code (x : RingSt) : Nat := match x with | .disabled => 0 | .unenumerated => 1 | .member => 2 | .isolated => 3

/-- The group time estimate: the timebase plus the offset (R335). -/
def groupTime (s : State) : Nat := ((s.clk.tb : Int) + s.ring.offset / 64).toNat

/-! ## Sending (R321 to R323) -/

/-- A dispatch as it is sent (R321): the 8-byte header of Table 13-2, the payload and the CRC-32C over both; K27.7 and K29.7 around
it are the line code's. -/
def frameBytes (typ dst src ttl seq : Nat) (pl : List Byte) : List Byte :=
  let b := le 1 typ ++ le 1 dst ++ le 1 src ++ le 1 pl.length ++ le 1 ttl ++ [0] ++ le 2 seq ++ pl
  b ++ le 4 (crc32c b)
/-- A frame out of a port that is UP. -/
def sendPort (s : State) (p : RingPort) (typ dst src ttl seq : Nat) (pl : List Byte) : State :=
  if linkOf s.ring p = .up then emit s (.frame p (frameBytes typ dst src ttl seq pl)) else s
/-- SRC of this unit's dispatches. -/
def ownSrc (s : State) : Nat := s.ring.addr.getD 0xFF
/-- A dispatch of this unit's own on both UP ports, with the next SEQ; nothing while the ring engine is not active (R346). -/
def sendAll (s : State) (typ dst : Nat) (pl : List Byte) : State :=
  if !running s .rng then s else
  let q := s.ring.seq
  let s := updRing s fun r => { r with seq := (q + 1) % 65536 }
  sendPort (sendPort s .east typ dst (ownSrc s) 64 q pl) .west typ dst (ownSrc s) 64 q pl
/-- A neighbour dispatch out of one port. -/
def sendNear (s : State) (p : RingPort) (typ : Nat) (pl : List Byte) : State :=
  if !running s .rng then s else
  let q := s.ring.seq
  sendPort (updRing s fun r => { r with seq := (q + 1) % 65536 }) p typ 0x40 (ownSrc s) 64 q pl
/-- A dispatch that is repeated: 3 more times for one unit until its ACK, twice more for a broadcast (R323). -/
def sendRepeat (s : State) (typ dst : Nat) (pl : List Byte) : State :=
  if !running s .rng then s else
  let q := s.ring.seq
  let rep : Repeat := { typ, dst, seq := q, payload := pl, left := if dst = 0xFF then 2 else 3, acked := dst != 0xFF }
  updRing (sendAll s typ dst pl) fun r => { r with repeats := r.repeats ++ [rep] }

/-! ## Group state that follows from what is heard -/

/-- The reachable set: own address and every reachable one, rising (R327). -/
def reachSet (r : Ring) : List Nat :=
  (List.range 64).filter fun a => r.addr == some a || r.reach.contains a
/-- TOPO from the link states of the reachable set (R327). A unit without an address counts its own ports too, and with an empty set its
topology is SEGMENT (DESIGN CHOICE, log entry 201). -/
def topoOf (r : Ring) : Nat :=
  let up := fun (p : Nat) => (if p % 4 = 2 then 0 else 1) + (if p / 4 % 4 = 2 then 0 else 1)
  let own : Nat := up (portsByte r)
  if r.east != .up && r.west != .up then 0 else
  if (reachSet r).isEmpty then 3 else
  let down : Nat := (reachSet r).foldl (fun n a =>
    n + (if r.addr == some a then own else up ((nget r.heard a).map (fun b => b.ports) |>.getD 0))) (if r.addr.isNone then own else 0)
  if down = 0 then 1 else if (reachSet r).length = r.n && down = 2 then 2 else 3
/-- Is a unit of the reachable set a MEMBER, as its beacon says? -/
def isMember (r : Ring) (a : Nat) : Bool :=
  if r.addr == some a then r.st == .member else r.reach.contains a && ((nget r.heard a).map fun b => b.state) == some 2
/-- The first member above the postmaster's address, wrapping from 63 to 0 (R330). -/
def subAddr (r : Ring) : Option Nat :=
  match r.pmaddr with
  | none => none
  | some pm => ((List.range 63).map fun k => (pm + 1 + k) % 64).find? (isMember r)
/-- The schedule sequence number in force; 0 for a default (Table 13-8). -/
def sseqNow (r : Ring) : Nat :=
  match r.st with
  | .member => (r.sched.map fun d => d.sseq).getD 0
  | .disabled => (r.sched.map fun d => d.sseq).getD 0
  | .unenumerated => 0 | .isolated => 0
/-- The SSEQ of the postmaster's last beacon. -/
def pmSseq (r : Ring) : Option Nat := r.pmaddr.bind fun pm => (nget r.heard pm).map fun b => b.sseq
/-- ROLE of this unit: 1 postmaster, 2 sub-postmaster, 0 none. -/
def roleOf (r : Ring) : Nat :=
  if r.st != .member || r.addr.isNone then 0
  else if r.pmaddr == r.addr then 1 else if subAddr r == r.addr then 2 else 0
/-- The partition condition of R328. -/
def inGroup (r : Ring) : Bool :=
  let m := (reachSet r).length
  r.n < 2 * m || (2 * m = r.n && (reachSet r).contains 0)

/-- Hops to the postmaster going one way through units whose links along it are UP, taking neighbours in address order
(log entry 22); none where the way is broken. -/
def hopsTo (r : Ring) (east : Bool) : Nat → Nat → Option Nat
  | 0, _ => none
  | fuel + 1, a =>
    if r.pmaddr == some a then some 0 else
    let ports := if r.addr == some a then portsByte r else ((nget r.heard a).map fun b => b.ports).getD 0
    let out := if east then ports % 4 else ports / 4 % 4
    let nxt := if east then (a + 1) % r.n else (a + r.n - 1) % r.n
    if r.n = 0 || out != 2 || !(reachSet r).contains nxt then none else (hopsTo r east fuel nxt).map fun k => k + 1
/-- The upstream port (R332): fewest hops to the postmaster, ties to the west. -/
def upstreamOf (r : Ring) : Option RingPort :=
  if r.st != .member || r.pmaddr == r.addr then none else
  match r.addr with
  | none => none
  | some a => match hopsTo r true 64 a, hopsTo r false 64 a with
    | none, none => if r.west = .up then some .west else if r.east = .up then some .east else none
    | some _, none => some .east
    | none, some _ => some .west
    | some e, some w => if e < w then some .east else some .west

/-! ## Windows (R337, R338) -/

/-- The local default's slots: floor(PERIOD / LEN). -/
def defSlots (s : State) : Nat := rdField s Reg.rngDefSched 31 16 / rdField s Reg.rngDefSched 15 0
/-- The window source of Table 13-8: G, PERIOD, OFF, LEN and whether it is the local default; none is outside. -/
def winSource (s : State) : Option (Nat × Nat × Nat × Nat × Bool) :=
  let r := s.ring
  let per := rdField s Reg.rngDefSched 31 16
  let len := rdField s Reg.rngDefSched 15 0
  let dflt := fun g i => some (g, per, i % (max 1 (defSlots s)) * len, len, true)
  match r.st with
  | .member =>
    match r.sched with
    | some d => let e := d.entry.getD (r.addr.getD 0) (0, 0); some (groupTime s, d.period, e.1, e.2, false)
    | none => if r.rejoined then none else dflt (groupTime s) (r.addr.getD 0)
  | .isolated => dflt s.clk.tb (r.addr.getD 0)
  | .unenumerated => dflt s.clk.tb (serhash s)
  | .disabled => match r.sched with
    | some d => let e := d.entry.getD 0 (0, 0); some (s.clk.tb, d.period, e.1, e.2, false)
    | none => dflt s.clk.tb 0
/-- Seconds into the cycle of a window source. -/
def winSec (g per : Nat) : Nat := g / 250000000 % (max 1 per)
/-- Is the unit inside its window (R337)? -/
def insideWin (s : State) : Bool :=
  match winSource s with
  | none => false
  | some (g, per, off, len, _) => off ≤ winSec g per && winSec g per < off + len
/-- Seconds to the next window boundary. -/
def nextWin (s : State) : Nat :=
  match winSource s with
  | none => 0
  | some (g, per, off, len, _) =>
    let t := winSec g per
    if t < off then off - t else if t < off + len then off + len - t else per - t + off

/-- A change of window is an event of the Predictable Latency Event Aggregate log where Predictable Latency Mode is enabled
(R92, R94; PRESUMED, log entry 44). -/
def plmNotice (s : State) (p : Port) : State :=
  let x := getPort s p
  if ngetD x.feat 0x13 0 % 2 = 0 then s else
  let s := setPort s p { x with plm := true }
  if aerEnabled x 12 then asyncEvent s p 2 4 0x0B else s

/-- Take the window state that the present source gives, with the bits and the cause of R338. -/
def updWindow (s : State) : State :=
  let i := insideWin s
  if i = s.ring.inWin then s else
  let s := updRing s fun r => { r with inWin := i }
  let s := wrField (wrField s Reg.mapRegime 1 1 (if i then 1 else 0)) (Reg.sts .pat) 17 17 (if i then 1 else 0)
  reclaimPace (ringCause (plmNotice (plmNotice s .a) .b) 6)

/-- UNSYNC as R335 gives it; a change sets SYNC and is notified. -/
def updUnsync (s : State) (b : Bool) : State :=
  if b = s.ring.unsync then s else ringNotice (ringCause (updRing s fun r => { r with unsync := b }) 3)

/-- Recompute topology, role, upstream port and window after a change; each change sets its cause and is notified. A rejoined unit
without a schedule holds the group's SSEQ where the postmaster's beacon says 0. -/
def refresh (old : Ring) (s : State) : State :=
  let t := topoOf s.ring
  let o := roleOf s.ring
  let up := upstreamOf s.ring
  let lost := s.ring.upstream.isSome && up != s.ring.upstream && (match s.ring.upstream with | some p => linkOf s.ring p != .up | none => false)
  let s := updRing s fun r => { r with
    topo := t, role := o, upstream := up, holdover := r.holdover || lost
    rejoined := r.rejoined && !(r.sched.isNone && pmSseq r == some 0) }
  let s := if t != old.topo || reachSet s.ring != reachSet old then ringCause s 2 else s
  let s := if o != old.role then ringCause s 4 else s
  let s := if t != old.topo || o != old.role then ringNotice s else s
  updWindow s

/-- A change of STATE: its cause, count, time and notice; UNSYNC outside MEMBER. -/
def toState (s : State) (x : RingSt) : State :=
  if s.ring.st = x then s else
  let s := updRing s fun r => { r with st := x, tchange := s.clk.tb, changes := r.changes + 1 }
  let s := ringNotice (ringCause s 0)
  if x = .member then s else updUnsync s true

/-! ## Receiving (R322, R323) -/

/-- The outcome of de-duplication for an origin: none where the copy is dropped. -/
def seqMark (w : Option SeqWin) (q : Nat) : Option SeqWin :=
  match w with
  | none => some { newest := q, marks := 1 }
  | some w =>
    let ahead := (q + 65536 - w.newest) % 65536
    if 0 < ahead && ahead < 32768 then
      some { newest := q, marks := (w.marks <<< (min ahead 64)) ||| 1 }
    else
      let back := (w.newest + 65536 - q) % 65536
      if 64 < back || (back < 64 && w.marks.getLsbD back) then none else some { w with marks := w.marks ||| (1 <<< back) }

/-- Count a dispatch dropped under R323. -/
def countForeign (s : State) : State := ringCause (satAdd s Reg.rngForeign 31 0 1) 10

/-- Receive one dispatch (R322, R323): neighbour dispatches are consumed; copies are de-duplicated, consumed where they are
for this unit and of its group, acknowledged where addressed to it alone, and forwarded. use is the unit's own use. -/
def receive (s : State) (h : DispHdr) (typ : Nat) (gid : Option Nat) (pl : List Byte) (use : State → State) : State :=
  if linkOf s.ring h.port != .up then s
  else if h.dst = 0x40 then (if active s .rng then use s else s)
  else if s.ring.addr == some h.src then s
  else
    let w := nget s.ring.seen h.src
    let m := seqMark w h.seq
    if h.src < 64 && m.isNone then s else
    let s := if h.src < 64 then updRing s fun r => { r with seen := nset r.seen h.src (m.getD { newest := 0, marks := 0 }) } else s
    let mine := active s .rng && (h.dst = 0xFF || s.ring.addr == some h.dst)
    let s := if s.ring.addr != some h.dst && 1 < h.ttl then
        sendPort s h.port.other typ h.dst h.src (h.ttl - 1) h.seq pl else s
    if !mine then s else
    let s := if h.dst != 0xFF && typ != 0x22 then sendAll s 0x22 h.src (le 1 typ ++ le 2 h.seq) else s
    match gid, s.ring.gid with
    | some g, some own => if g = own then use s else countForeign s
    | _, _ => use s

/-! ## Links (R320) -/

/-- The LINK payload of this unit for a port. -/
def linkBytes (s : State) (p : RingPort) : List Byte :=
  le 24 s.chip.serial.toNat ++ le 8 (s.ring.gid.getD 0) ++ le 1 (ownSrc s) ++ le 1 (if p = .east then 0 else 1)

/-- RING_SIGNAL_DETECT: a DOWN port enters TRAINING and exchanges LINK. -/
def signalDetect (s : State) (p : RingPort) : State :=
  if linkOf s.ring p != .down then s else
  emit (ringCause (setLink s p .training) 1) (.frame p (frameBytes 0x01 0x40 (ownSrc s) 64 0 (linkBytes s p)))
/-- RING_LINK_UP: training ends with the far end reporting the opposite port name, or the same (MISWIRED). -/
def linkUpRing (s : State) (p : RingPort) (same : Bool) : State :=
  if linkOf s.ring p != .training then s else
  let old := s.ring
  let s := ringCause (setLink s p (if same then .miswired else .up)) 1
  let s := if same then ringCause s 9 else updRing s fun r => { r with everUp := true, upAt := if r.everUp then r.upAt else s.clk.tb }
  refresh old s
/-- RING_LINK_DOWN: a port leaves UP, TRAINING or MISWIRED; departures from UP are counted. -/
def linkDownRing (s : State) (p : RingPort) : State :=
  if linkOf s.ring p = .down then s else
  let old := s.ring
  let s := if linkOf s.ring p = .up then (match p with
    | .east => satAdd s Reg.rngDown 15 0 1 | .west => satAdd s Reg.rngDown 31 16 1) else s
  refresh old (ringCause (setLink s p .down) 1)
/-- A received LINK: the neighbour's serial and port name (Table 13-3). One of another GID is dropped and counted (R323); a unit without
an address carries none (log entry 173). -/
def linkRecv (s : State) (h : DispHdr) (serial gid addr far : Nat) : State :=
  if linkOf s.ring h.port = .down then s
  else if addr < 64 && s.ring.gid.isSome && s.ring.gid != some gid then countForeign s else
  updRing s fun r => match h.port with
    | .east => { r with nbEast := some (serial, far) } | .west => { r with nbWest := some (serial, far) }
/-- A frame with a bad CRC, a code violation or LEN above 64: dropped and counted (R321). -/
def frameError (s : State) (p : RingPort) : State :=
  match p with | .east => satAdd s Reg.rngErr 15 0 1 | .west => satAdd s Reg.rngErr 31 16 1

/-! ## Beacons and membership (R324, R326 to R330) -/

def beaconBytes (b : Beacon) : List Byte :=
  le 8 b.gid ++ le 1 b.addr ++ le 1 b.state ++ le 1 b.ports ++ le 1 b.n ++ le 1 b.pmaddr ++ le 8 b.sseq ++ le 4 b.serhash
/-- This unit's own beacon. -/
def ownBeacon (s : State) : Beacon :=
  let r := s.ring
  { gid := r.gid.getD 0, addr := ownSrc s, state := r.st.code, ports := portsByte r, n := r.n,
    pmaddr := r.pmaddr.getD 0xFF, sseq := sseqNow r, serhash := serhash s, strapped := bitOf (rd s 0xE0018) 1 }
/-- BEACON_SEND (R324, R327). -/
def beaconSend (s : State) : State := sendAll s 0x02 0xFF (beaconBytes (ownBeacon s))

/-- The units heard, this one included, that are strapped RING_MASTER and hold no address. How a unit hears the strap of another R324 does
not say: Table 13-3 gives the beacon no bit for it, and the command that brings a beacon says it (DESIGN CHOICE, log entry 202). -/
def strappedHeard (s : State) : List Nat :=
  (s.ring.loose.filter fun e => e.2.strapped).map (fun e => e.1) ++ (if bitOf (rd s 0xE0018) 1 then [serhash s] else [])

/-- The use of a beacon: an address enters the reachable set; an unaddressed unit is remembered by SERHASH (R324, R327). -/
def beaconUse (b : Beacon) (s : State) : State :=
  let old := s.ring
  if 64 ≤ b.addr then
    let s := updRing s fun r => { r with loose := nset r.loose b.serhash b }
    if 1 < (strappedHeard s).length then ringCause s 11 else s
  else
    refresh old (updRing s fun r => { r with
      heard := nset r.heard b.addr b
      foreign := if r.gid == some b.gid && b.state = 2 then false else r.foreign
      reach := if r.reach.contains b.addr || (r.gid.isSome && r.gid != some b.gid) then r.reach else b.addr :: r.reach })
/-- A received BEACON; one of another GID marks that another group is heard (R329). -/
def beaconRecv (s : State) (h : DispHdr) (b : Beacon) : State :=
  let s := if s.ring.gid.isSome && s.ring.gid != some b.gid && b.addr < 64 && b.state = 2 && linkOf s.ring h.port = .up
    then updRing s fun r => { r with foreign := true } else s
  receive s h 0x02 (if b.addr < 64 then some b.gid else none) (beaconBytes b) (beaconUse b)

/-- REACH_EXPIRY: a unit leaves the reachable set (R327). -/
def reachExpiry (s : State) (a : Nat) : State :=
  if !s.ring.reach.contains a then s else
  refresh s.ring (updRing s fun r => { r with reach := r.reach.filter fun x => x != a, heard := ndel r.heard a })
/-- ISOLATED_ENTRY (R328, R329). -/
def isolatedEntry (s : State) : State :=
  if s.ring.st != .member || inGroup s.ring then s else refresh s.ring (toState s .isolated)
/-- REJOIN (R328, R343): MEMBER again, outside its window until it holds the group's schedule, which it asks for. Where MEMBER beacons
differ in PMADDR it takes that of the unit which entered its reachable set last (DESIGN CHOICE, log entry 202). -/
def rejoin (s : State) : State :=
  let r := s.ring
  if r.st != .isolated || !inGroup r || !(r.reach.any fun a => ((nget r.heard a).map fun b => b.state) == some 2) then s else
  let s := toState s .member
  let pms := r.reach.filterMap fun a => (nget r.heard a).bind fun b => if b.state = 2 && b.pmaddr < 64 then some b.pmaddr else none
  let s := updRing s fun r => { r with sched := none, nextSched := none, rejoined := true, pmaddr := pms.head?.orElse fun _ => r.pmaddr }
  let s := refresh r s
  let pm := s.ring.pmaddr.getD 0xFF
  sendRepeat (sendRepeat s 0x12 pm []) 0x20 pm []
/-- ISOLATED_ADDRESS_DROP (R329). -/
def addressDrop (s : State) : State :=
  if s.ring.st != .isolated || !s.ring.foreign || s.ring.reach.any (isMember s.ring) then s else
  let old := s.ring
  refresh old (toState (updRing s fun r => { r with
    addr := none, gid := none, pmaddr := none, n := 0, reach := [], heard := [] }) .unenumerated)

/-! ## The timebase (R332 to R335) -/

/-- Is the offset below half a count? -/
def inSync (o : Int) : Bool := -32 < o && o < 32
/-- A measured offset in 64ths of a count (R334): at the first lock a step forward, later a slew. -/
def measure (s : State) (th : Int) : State :=
  if s.ring.locked || th < 0 then
    let s := updRing s fun r => { r with offset := th, locked := true, holdover := false }
    updWindow (updUnsync s (!inSync th || s.ring.st != .member))
  else
    let k := (th + 32) / 64
    let s := updClk s fun c => { c with tb := c.tb + k.toNat }
    let s := updRing s fun r => { r with offset := th - 64 * k, locked := true, holdover := false }
    updWindow (updUnsync s (!inSync (th - 64 * k) || s.ring.st != .member))
/-- SLEW_DONE (R334): the offset is slewed out; the timebase has gained it where it was behind, and never falls. The watchdogs count
the timebase as slewing advances it (R67). -/
def slewDone (s : State) : State :=
  if s.ring.st != .member || s.ring.holdover || !s.ring.locked then s else
  let o := s.ring.offset
  let n := (o / 64).toNat
  let s := updClk s fun c => { c with tb := c.tb + n, wd := wdCount s n }
  updWindow (updUnsync (updRing s fun r => { r with offset := 0 }) false)
/-- HOLDOVER_EXPIRY (R335). -/
def holdoverExpiry (s : State) : State := if s.ring.st = .member && s.ring.holdover then updUnsync s true else s
/-- SYNC_REQ is answered with T1, and T2 and T3 taken here (R332). -/
def syncReq (s : State) (h : DispHdr) (t1 : Nat) : State :=
  receive s h 0x03 none (le 8 t1) fun s =>
    sendNear s h.port 0x04 (le 8 t1 ++ le 8 (64 * s.clk.tb) ++ le 8 (64 * s.clk.tb))
/-- SYNC_RSP from the upstream port gives θ = ((T2 − T1) + (T3 − T4)) / 2 (R332). -/
def syncRsp (s : State) (h : DispHdr) (t1 t2 t3 t4 : Nat) : State :=
  receive s h 0x04 none (le 8 t1 ++ le 8 t2 ++ le 8 t3) fun s =>
    if s.ring.st = .member && s.ring.upstream == some h.port then
      measure s ((((t2 : Int) - t1) + ((t3 : Int) - t4)) / 2)
    else s
/-- SYNC_REQ_SEND: a member asks its upstream neighbour (R332). -/
def syncSend (s : State) : State :=
  match s.ring.upstream with
  | some p => if s.ring.st = .member then sendNear s p 0x03 (le 8 (64 * s.clk.tb)) else s
  | none => s

/-! ## Enumeration (R324 to R326) -/

def enumBytes (next dir tbmax origin : Nat) : List Byte := le 1 next ++ le 1 dir ++ le 8 tbmax ++ le 4 origin
def gsBytes (gid n pm gstart geper : Nat) : List Byte := le 8 gid ++ le 1 n ++ le 1 pm ++ le 8 gstart ++ le 2 geper
def ownGs (r : Ring) : List Byte := gsBytes (r.gid.getD 0) r.n (r.pmaddr.getD 0xFF) r.gstart r.geper

/-- Enumeration ends with N units (R325 step 4): group time TBMAX + 2^20 is GID and GSTART, and GROUPSTATE is broadcast. -/
def enumDone (s : State) (n tbmax : Nat) : State :=
  let old := s.ring
  let g := tbmax + 1048576
  let s := updRing s fun r => { r with
    starting := false, retried := false, n := n, pmaddr := some 0, addr := some 0, gid := some g, gstart := g, tickDone := 0
    geper := rdField s Reg.rngGeper 15 0
    sched := none, nextSched := none, rejoined := false, reach := [], heard := [], admitted := [] }
  let s := if s.ring.st = .member then s else toState s .member
  let s := measure s (64 * ((g : Int) - s.clk.tb))
  let s := ringCause s 4
  refresh old (sendRepeat s 0x12 0xFF (ownGs s.ring))

/-- The eastward pass ended at COUNT units: go on westward, or end where the west port is not UP (R325 step 3). -/
def enumWest (s : State) (count tbmax : Nat) : State :=
  let s := updRing s fun r => { r with eastDone := true, tbmax := max r.tbmax tbmax, count := count }
  if s.ring.west = .up then sendNear s .west 0x10 (enumBytes count 1 s.ring.tbmax (serhash s))
  else enumDone s count s.ring.tbmax

/-- Start enumeration as the originator, with address 0 (R325 step 1). -/
def enumBegin (s : State) : State :=
  let h := serhash s
  let s := updRing s fun r => { r with
    starting := true, eastDone := false, origin := some h, addr := some 0, pmaddr := some 0, gid := none, tbmax := s.clk.tb }
  if s.ring.east = .up then sendNear s .east 0x10 (enumBytes 1 0 s.clk.tb h) else enumWest s 1 s.clk.tb

/-- Bytes in lexicographic order. -/
def bytesLt : List Byte → List Byte → Bool
  | _, [] => false
  | [], _ :: _ => true
  | a :: x, b :: y => a < b || (a == b && bytesLt x y)
/-- A neighbour has this unit's SERHASH and a lower serial, compared as bytes (R324; beacons carry no serial, LINKs do). -/
def lowerTwin (s : State) : Bool :=
  let twin (x : Nat × Nat) : Bool := crc32c (le 24 x.1) == serhash s && bytesLt (le 24 x.1) (le 24 s.chip.serial.toNat)
  (s.ring.nbEast.map twin).getD false || (s.ring.nbWest.map twin).getD false
/-- May this unit start enumeration (R324)? Strapped, the lowest strapped one heard, and 10 ms after its first port came UP; or
unstrapped, after 100 ms, with no ENUM received and the lowest SERHASH among the unaddressed beacons heard. A unit whose enumeration
failed twice waits for another originator (R325). -/
def mayEnum (s : State) : Bool :=
  active s .rng && s.ring.st == .unenumerated && s.ring.addr.isNone && s.ring.everUp && !s.ring.retried &&
  (if bitOf (rd s 0xE0018) 1 then decide (s.ring.upAt + 2500000 ≤ s.clk.tb) && (strappedHeard s).all fun h => serhash s ≤ h
   else decide (s.ring.upAt + 25000000 ≤ s.clk.tb) && s.ring.origin.isNone && !lowerTwin s && s.ring.loose.all fun e => serhash s ≤ e.1)
/-- ENUM_START. -/
def enumStart (s : State) : State := if mayEnum s then enumBegin s else s
/-- ENUM_TIMEOUT (R325): ROLE is set; the originator starts again once, then waits for another. -/
def enumTimeout (s : State) : State :=
  if !s.ring.starting then s else
  let s := ringCause s 4
  if s.ring.retried then
    let old := s.ring
    let s := updRing s fun r => { r with starting := false, addr := none, pmaddr := none, origin := none, n := 0 }
    refresh old (toState s .unenumerated)
  else enumBegin (updRing s fun r => { r with retried := true })

/-- The use of ENUM (R325 step 2, 3). A unit that takes an address leaves its group until GROUPSTATE; one that receives NEXT of 64 or more
drops it, without an ENUMEND: an address ends at 63 and R325 does not say more (DESIGN CHOICE, log entry 202). -/
def enumUse (p : RingPort) (next dir tbmax origin : Nat) (s : State) : State :=
  let r := s.ring
  if (match r.origin with | some o => decide (o < origin) | none => false) then s
  else if r.starting && r.origin == some origin then
    (if p = .west && dir = 0 then enumDone s next (max r.tbmax tbmax) else s)
  else if 64 ≤ next then s
  else
    let t := max tbmax s.clk.tb
    let s := updRing s fun r => { r with origin := some origin, addr := some next, gid := none, starting := false, reach := [], heard := [] }
    let s := if s.ring.st = .unenumerated then s else toState s .unenumerated
    let s := refresh r s
    if linkOf s.ring p.other = .up then sendNear s p.other 0x10 (enumBytes (next + 1) dir t origin)
    else sendAll s 0x11 0xFF (le 1 (next + 1) ++ le 1 dir ++ le 8 t ++ le 4 origin)
def enumRecv (s : State) (h : DispHdr) (next dir tbmax origin : Nat) : State :=
  receive s h 0x10 none (enumBytes next dir tbmax origin) (enumUse h.port next dir tbmax origin)
/-- ENUMEND at the originator (R325 step 3). -/
def enumEnd (s : State) (h : DispHdr) (count dir tbmax origin : Nat) : State :=
  receive s h 0x11 none (le 1 count ++ le 1 dir ++ le 8 tbmax ++ le 4 origin) fun s =>
    if !(s.ring.starting && s.ring.origin == some origin) then s
    else if dir = 0 then (if s.ring.eastDone then s else enumWest s count tbmax)
    else enumDone s count (max s.ring.tbmax tbmax)

/-- The number of the latest tick that group time has reached (R339). -/
def tickIndex (s : State) : Nat :=
  if s.ring.geper = 0 then 0 else (groupTime s - s.ring.gstart) / (s.ring.geper * 250000000)

/-- GROUPSTATE (R325 step 5); one of LEN 0 asks the postmaster, which answers that unit (R323). Ticks that its GSTART and GEPER place in
the past are not raised (R339). -/
def groupstate (s : State) (h : DispHdr) (request : Bool) (gid n pm gstart geper : Nat) : State :=
  if request then receive s h 0x12 none [] fun s =>
    if s.ring.role = 1 then sendRepeat s 0x12 h.src (ownGs s.ring) else s
  else receive s h 0x12 (some gid) (gsBytes gid n pm gstart geper) fun s =>
    if s.ring.addr.isNone || s.ring.st = .isolated then s else
    let old := s.ring
    let fresh := s.ring.st != .member
    let s := updRing s fun r => { r with
      gid := some gid, n := n, pmaddr := some pm, gstart := gstart, geper := geper
      sched := if fresh then none else r.sched
      nextSched := if fresh then none else r.nextSched
      rejoined := !fresh && r.rejoined
      starting := false }
    let s := if fresh || old.geper != geper || old.gstart != gstart then updRing s fun r => { r with tickDone := tickIndex s } else s
    let s := if fresh then ringCause (toState s .member) 4 else s
    refresh old s

def admitBytes (serial addr gid n : Nat) : List Byte := le 24 serial ++ le 1 addr ++ le 8 gid ++ le 1 n
/-- JOIN at the postmaster (R326): ADMIT with address N, the same one for a serial already admitted, or ADMIT_REF. -/
def joinRecv (s : State) (h : DispHdr) (serial : Nat) : State :=
  receive s h 0x13 none (le 24 serial) fun s =>
    if s.ring.role != 1 then s else
    match nget s.ring.admitted serial with
    | some a => sendRepeat s 0x14 0xFF (admitBytes serial a (s.ring.gid.getD 0) s.ring.n)
    | none =>
      if 64 ≤ s.ring.n then ringCause s 12 else
      let a := s.ring.n
      let s := updRing s fun r => { r with n := a + 1, admitted := nset r.admitted serial a }
      refresh s.ring (sendRepeat s 0x14 0xFF (admitBytes serial a (s.ring.gid.getD 0) (a + 1)))
/-- ADMIT (R326): the named unit takes its address and GID; every unit of the group learns N. -/
def admitRecv (s : State) (h : DispHdr) (serial addr gid n : Nat) : State :=
  receive s h 0x14 (some gid) (admitBytes serial addr gid n) fun s =>
    let old := s.ring
    if s.chip.serial.toNat = serial && s.ring.addr.isNone then
      refresh old (updRing s fun r => { r with addr := some addr, gid := some gid, n := n })
    else if s.ring.gid == some gid then refresh old (updRing s fun r => { r with n := max r.n n }) else s
/-- JOIN_SEND (R326). -/
def joinSend (s : State) : State :=
  if s.ring.st = .unenumerated && s.ring.addr.isNone && !s.ring.heard.isEmpty && !mayEnum s && !s.ring.retried then
    sendAll s 0x13 0xFF (le 24 s.chip.serial.toNat) else s
/-- ROLE (R330). -/
def roleRecv (s : State) (h : DispHdr) (pm prev : Nat) : State :=
  receive s h 0x15 none (le 1 pm ++ le 1 prev) fun s =>
    if s.ring.st != .member then s else refresh s.ring (updRing s fun r => { r with pmaddr := some pm })
/-- POSTMASTER_TAKEOVER (R330): the new postmaster's timebase is the time root from now on, without a step. -/
def takeover (s : State) : State :=
  let r := s.ring
  match r.pmaddr, r.addr with
  | some pm, some a =>
    if r.st = .member && !(reachSet r).contains pm && subAddr r == some a then
      let s := refresh r (updRing s fun r => { r with pmaddr := some a, offset := 0, holdover := false })
      sendRepeat (if s.ring.locked then updUnsync s false else s) 0x15 0xFF (le 1 a ++ le 1 pm)
    else s
  | _, _ => s
/-- RNG_CMD.ENUM (R326): at the postmaster a fresh enumeration, elsewhere rejected. -/
def enumCommand (s : State) : State :=
  if s.ring.role = 1 then enumBegin (updRing s fun r => { r with retried := false }) else ringCause s 11
/-- GROUPSTATE_REQUEST (R323): what the unit holds differs from the postmaster's beacon. A unit that was admitted finds the postmaster by
the members' beacons. -/
def gsRequest (s : State) : State :=
  let told := s.ring.reach.findSome? fun a => (nget s.ring.heard a).bind fun b => if b.state = 2 && b.pmaddr < 64 then some b.pmaddr else none
  match (s.ring.pmaddr.orElse fun _ => told).bind (fun pm => nget s.ring.heard pm) with
  | none => s
  | some b =>
    let s1 := if s.ring.gid != some b.gid || s.ring.st != .member then sendRepeat s 0x12 b.addr [] else s
    if sseqNow s.ring != b.sseq then sendRepeat s1 0x20 b.addr [] else s1
/-- ACK ends the repeats of what it acknowledges (R323). -/
def ackRecv (s : State) (h : DispHdr) (typ seq : Nat) : State :=
  receive s h 0x22 none (le 1 typ ++ le 2 seq) fun s =>
    updRing s fun r => { r with repeats := r.repeats.filter fun x => !(x.acked && x.typ == typ && x.seq == seq && x.dst == h.src) }
/-- DISPATCH_REPEAT (R323): sent again with the same SEQ, until none is left. -/
def dispatchRepeat (s : State) (seq : Nat) : State :=
  match s.ring.repeats.find? fun x => x.seq == seq with
  | none => s
  | some x =>
    let s := sendPort (sendPort s .east x.typ x.dst (ownSrc s) 64 seq x.payload) .west x.typ x.dst (ownSrc s) 64 seq x.payload
    updRing s fun r => { r with 
      repeats := (r.repeats.map fun y => if y.seq == seq then { y with left := y.left - 1 } else y).filter
        fun y => 0 < y.left }

/-! ## Schedules (R336) -/

/-- The 288 bytes of a schedule descriptor (Table 13-7). -/
def schedBytes (d : SchedDesc) : List Byte :=
  le 8 d.sseq ++ le 8 d.eff ++ le 4 d.period ++ le 12 d.rsvd ++
    ((List.range 64).map fun a => let e := d.entry.getD a (0, 0); le 2 e.1 ++ le 2 e.2).flatten
def schedOf (l : List Byte) : SchedDesc :=
  { sseq := fieldAt l 0 8, eff := fieldAt l 8 8, period := fieldAt l 16 4, rsvd := fieldAt l 20 12,
    entry := (List.range 64).map fun a => (fieldAt l (32 + 4 * a) 2, fieldAt l (34 + 4 * a) 2) }
/-- Send a descriptor in SCHED parts 0 to 5. -/
def sendSched (s : State) (dst : Nat) (d : SchedDesc) : State :=
  (List.range 6).foldl (fun s k => sendRepeat s 0x20 dst (le 1 k ++ le 8 d.sseq ++ slice (schedBytes d) (48 * k) 48)) s
/-- Install a schedule; one past its EFF applies at once (R336). The waiting Collection Schedule command completes. -/
def schedInstall (s : State) (d : SchedDesc) : State :=
  let s := updRing s fun r => { r with
    sched := if d.eff ≤ groupTime s then some d else r.sched
    nextSched := if d.eff ≤ groupTime s then none else some d
    rejoined := if d.eff ≤ groupTime s then false else r.rejoined
    parts := [] }
  let s := match s.ring.schedWait with
    | some (p, cid, w) =>
      if w.period = d.period && w.entry == d.entry then
        complete (updRing s fun r => { r with schedWait := none }) { port := p, qid := 0, cid, nsid := 0 } stOk
      else s
    | none => s
  updWindow (ringCause s 5)
/-- The postmaster's part: SSEQ one more than that in force, EFF 100 ms ahead, broadcast. -/
def schedPublish (s : State) (d : SchedDesc) : State :=
  let d := { d with sseq := sseqNow s.ring + 1, eff := groupTime s + 25000000 }
  schedInstall (sendSched s 0xFF d) d
/-- The six parts held with one SSEQ, joined. -/
def schedJoined (r : Ring) (sseq : Nat) : Option SchedDesc :=
  let ps := (List.range 6).filterMap fun k => match nget r.parts k with
    | some (q, b) => if q = sseq then some (le 48 b.toNat) else none
    | none => none
  if ps.length = 6 then some { schedOf ps.flatten with sseq := sseq } else none
/-- SCHED: a part is stored; with all six the schedule is published by the postmaster or installed (R336). -/
def schedRecv (s : State) (h : DispHdr) (request : Bool) (part sseq : Nat) (bytes : BitVec 384) : State :=
  if request then receive s h 0x20 none [] fun s =>
    (match s.ring.role, s.ring.sched with | 1, some d => sendSched s h.src d | _, _ => s)
  else receive s h 0x20 none (le 1 part ++ le 8 sseq ++ le 48 bytes.toNat) fun s =>
    if s.ring.st != .member || 6 ≤ part then s else
    let s := updRing s fun r => { r with parts := nset r.parts part (sseq, bytes) }
    match schedJoined s.ring sseq with
    | none => s
    | some d => if sseq = 0 then (if s.ring.role = 1 then schedPublish (updRing s fun r => { r with parts := [] }) d else s)
                else schedInstall s d
/-- SCHEDULE_EFFECTIVE: group time reached EFF. -/
def schedEffective (s : State) : State :=
  match s.ring.nextSched with
  | some d => if d.eff ≤ groupTime s then
      updWindow (updRing s fun r => { r with sched := some d, nextSched := none, rejoined := false }) else s
  | none => s

/-! ## Group-epoch ticks (R339) -/

/-- Is a tick due: a MEMBER whose group time first reached tick k? -/
def tickDue (s : State) : Bool := s.ring.st == .member && s.ring.tickDone < tickIndex s
def tickMark (s : State) : State := ringCause (updRing s fun r => { r with tickDone := tickIndex s }) 7

/-! ## Firmware dispatches (R323) -/

/-- RING_FIRMWARE_DISPATCH: queued for SC1, or dropped and counted where 16 are held. -/
def fwDispatch (s : State) (h : DispHdr) (typ : Nat) (pl : List Byte) : State :=
  receive s h typ none pl fun s =>
    if 16 ≤ s.ring.rxq.length then countForeign s
    else
      let was := s.ring.rxq.isEmpty
      let s := updRing s fun r => { r with rxq := r.rxq ++ [{ typ, src := h.src, payload := pl }] }
      if was then ringCause s 8 else s
def rxPop (s : State) : State := updRing s fun r => { r with rxq := r.rxq.drop 1 }
/-- RNG_TXCTL: a firmware dispatch with the buffered payload. -/
def txDispatch (s : State) (v : Nat) : State :=
  let len := bitsOf v 6 0
  let pl := (((List.range 16).map fun w => le 4 (rd s (Reg.rngTxbuf w))).flatten).take len
  let typ := bitsOf v 31 24
  let dst := bitsOf v 23 16
  if dst = 0x40 then sendNear (sendNear s .east typ pl) .west typ pl
  else if dst < 64 then sendRepeat s typ dst pl else sendAll s typ dst pl
/-- A dispatch of a reserved type: dropped, counted, still forwarded with its payload, which is free: 0 to 64 bytes (R323, log entry
5). -/
def reservedType (s : State) (h : DispHdr) (typ : Nat) : State :=
  let (s, n) := freshBelow s 65
  let (s, v) := freshBelow s (256 ^ n)
  receive s h typ none (le n v) countForeign

/-! ## The relay (R342) -/

/-- Does this unit relay: RELAY set and MEMBER? -/
def relays (s : State) : Bool := bitOf (rd s (Reg.ctl .rng)) 8 && s.ring.st == .member
def txOf (r : Ring) (p : RingPort) : Relay := match p with | .east => r.txEast | .west => r.txWest
def setTx (s : State) (p : RingPort) (x : Relay) : State :=
  updRing s fun r => match p with | .east => { r with txEast := x } | .west => { r with txWest := x }
/-- Chunks of 60 bytes in an image. -/
def relChunks (size : Nat) : Nat := (size + 59) / 60
/-- Send the chunks from sent up to 64 beyond NEXT (R342 step 3). -/
def sendChunks (s : State) (p : RingPort) : State :=
  let x := txOf s.ring p
  let stop := min (relChunks x.size) (x.next + 64)
  let s := ((List.range (stop - x.sent)).map fun k => x.sent + k).foldl
    (fun s k => sendNear s p 0x41 (le 4 k ++ (s.ring.txImage.drop (60 * k)).take 60)) s
  setTx s p { x with sent := max x.sent stop }
/-- Offer an image to the UP neighbour on a port (step 1). -/
def relayOffer (s : State) (p : RingPort) (size digest : Nat) : State :=
  if !relays s || linkOf s.ring p != .up || 2 ^ 24 < size then s else
  sendNear (setTx s p { digest, size, next := 0, sent := 0, active := true }) p 0x40 (le 4 size ++ le 16 digest)
/-- REL_OFFER: REL_HAVE where the digest is held, else REL_ACK with the next chunk wanted (steps 2, 3). -/
def relOffer (s : State) (h : DispHdr) (size digest : Nat) : State :=
  receive s h 0x40 none (le 4 size ++ le 16 digest) fun s =>
    if !relays s || 2 ^ 24 < size then s
    else if s.ring.haveImgs.contains digest then sendNear s h.port 0x43 (le 16 digest)
    else
      let resume := s.ring.rx.active && s.ring.rx.digest == digest
      let s := if resume then s else updRing s fun r => { r with
        rx := { digest, size, next := 0, sent := 0, active := true }, rxFrom := some h.port, rxImage := [] }
      sendNear s h.port 0x42 (le 4 s.ring.rx.next)
/-- REL_DATA: the wanted chunk is stored, and every 16 chunks and the last are acknowledged (step 4). -/
def relData (s : State) (h : DispHdr) (index : Nat) (bytes : List Byte) : State :=
  receive s h 0x41 none (le 4 index ++ bytes) fun s =>
    let x := s.ring.rx
    if !(relays s && x.active && s.ring.rxFrom == some h.port && index == x.next) then s else
    let n := index + 1
    let s := updRing s fun r => { r with rx := { x with next := n }, rxImage := (r.rxImage ++ bytes).take x.size }
    if n % 16 = 0 || relChunks x.size ≤ n then sendNear s h.port 0x42 (le 4 n) else s
/-- The received image is whole. -/
def relayWhole (r : Ring) : Bool := r.rx.active && r.rx.size ≤ r.rxImage.length && 0 < r.rx.size
/-- REL_ACK: up to 64 chunks beyond NEXT may be sent (step 3). -/
def relAck (s : State) (h : DispHdr) (next : Nat) : State :=
  receive s h 0x42 none (le 4 next) fun s =>
    let x := txOf s.ring h.port
    if !x.active || s.ring.st != .member then s
    else if relChunks x.size ≤ next then setTx s h.port { x with next, active := false }
    else sendChunks (setTx s h.port { x with next }) h.port
/-- REL_HAVE: the relay stops on that side (step 2). -/
def relHave (s : State) (h : DispHdr) (digest : Nat) : State :=
  receive s h 0x43 none (le 16 digest) fun s =>
    let x := txOf s.ring h.port
    if x.digest = digest then setTx s h.port { x with active := false } else s
/-- RELAY_RESEND: no REL_ACK within 1 ms, so the holder resends from NEXT (step 4). -/
def relayResend (s : State) (p : RingPort) : State :=
  let x := txOf s.ring p
  if !x.active || s.ring.st != .member then s else sendChunks (setTx s p { x with sent := x.next }) p

/-- ACT schedules this unit's activation (R341). -/
def actRecv (s : State) (h : DispHdr) (digest tact stp : Nat) : State :=
  receive s h 0x30 none (le 16 digest ++ le 8 tact ++ le 2 stp) fun s =>
    updRing s fun r => { r with act := some (digest, tact, stp) }

/-! ## Enable and disable (R318, R346) -/

def ringEnable (s : State) : State := refresh s.ring (toState (setActive s .rng 0 true) .unenumerated)
def ringDisable (s : State) : State :=
  let old := s.ring
  let s := updRing s fun r => { r with
    addr := none, gid := none, pmaddr := none, n := 0, reach := [], heard := [], loose := [], starting := false, origin := none
    retried := false, sched := none, nextSched := none, rejoined := false, repeats := [], upstream := none }
  setActive (refresh old (toState s .disabled)) .rng 0 false

end Sys2Proof.Machine
end

