-- ==== Sys2Proof/Machine/Security.lean ====
section
/-! DEFINITION. Fuses (R350, R351), image verification (R352), activation with handover (R357 to R362), the relayed image
(R361), the maintenance windows (R57 to R59), namespace keys (R367 to R369) and the SPDM responder (R363 to R366). -/

namespace Sys2Proof.Machine

namespace Reg
def secDeny : Nat := 0xC0018
def imgAddr : Nat := 0xC0020
def imgLenReg : Nat := 0xC0028
def secVres : Nat := 0xC0030
def secVdig (w : Nat) : Nat := 0xC0040 + 4 * w
def secActcfg : Nat := 0xC0080
def secActres : Nat := 0xC0088
def secCause : Nat := 0xC0090
def fuseRes : Nat := 0xC00A4
def fuseData (w : Nat) : Nat := 0xC0100 + 4 * w
def cryKres : Nat := 0xF0014
def cryWrap (w : Nat) : Nat := 0xF0020 + 4 * w
def cryCause : Nat := 0xF0090
end Reg

/-- The source of a bit of SEC_CAUSE (Table 14-15). -/
def secSrc (bit : Nat) : Nat :=
  match bit with
  | 0 => 129 | 1 => 132 | 2 => 130 | 3 => 131 | 4 => 131 | 5 => 133 | 6 => 133 | _ => 135
def secCauseSet (s : State) (bit : Nat) : State := setCause s Reg.secCause bit (secSrc bit)
def cryCauseSet (s : State) (bit : Nat) : State := setCause s Reg.cryCause bit (153 + bit)

/-- A trigger on a result header (R54): VALID clears and GEN rises. -/
def trigRes (s : State) (a : Nat) : State := wr s a ((rdField s a 15 0 + 1) % 65536)
/-- A result header completed: VALID with its other bits, GEN kept (R54). -/
def doneRes (s : State) (a bits : Nat) : State := wr s a (2 ^ 31 + bits + rdField s a 15 0)

/-! ## Maintenance windows (R57 to R60) -/

def winOfPort (s : State) (p : Port) : Window := match p with | .a => s.sec.winA | .b => s.sec.winB
def setWin (s : State) (p : Port) (w : Window) : State :=
  updSec s fun x => match p with | .a => { x with winA := w } | .b => { x with winB := w }
/-- A closing event: CLOSED outside depot mode (Table 2-9). -/
def closeWin (s : State) (p : Port) : State := if s.sec.depot then s else setWin s p .closed
/-- A BAR2 access is denied: counted for the port, and DENY set (R58, Table 14-13). -/
def denyAccess (s : State) (p : Port) : State :=
  secCauseSet (match p with | .a => satAdd s Reg.secDeny 15 0 1 | .b => satAdd s Reg.secDeny 31 16 1) 1

/-! ## SPDM sessions -/

def findSession (s : State) (sid : Nat) : Option Session := s.sec.sessions.find? fun x => x.sid == sid
/-- A session ends: the windows it opened close, and source 134 (Table 2-9, R365). -/
def endSession (s : State) (sid : Nat) : State :=
  match findSession s sid with
  | none => s
  | some x =>
    let s := x.windows.foldl closeWin (updSec s fun y => { y with sessions := y.sessions.filter fun z => z.sid != sid })
    if x.up then raise s 134 else s
def endAllSessions (s : State) : State := s.sec.sessions.foldl (fun s x => endSession s x.sid) s

/-! ## Fuses (R350) -/

/-- How many slots are usable. -/
def usableCount (s : State) : Nat := (s.sec.slots.filter KeySlot.usable).length
/-- Is a fuse operation refused (Table 14-2)? -/
def fuseRefused (s : State) (i : Initiator) (op slot value : Nat) : Bool :=
  i != .sc0 || (match op with
    | 1 => !s.sec.depot || (s.sec.slots.getD slot {}).programmed
    | 2 => !s.sec.depot || slot == s.sec.runKey || (usableSlot s slot && usableCount s == 1)
    | 3 => value ≤ s.sec.minsvn || (!s.sec.depot && !(value == s.sec.runSvn && s.sec.runCommit))
    | _ => true)
/-- The 512 bits of SEC_FUSEDATA. -/
def fuseDataVal (s : State) : Nat := leNat ((List.range 16).map fun w => le 4 (rd s (Reg.fuseData w))).flatten
/-- The fuses after an operation; none is ever cleared (R350). -/
def fuseBlow (s : State) (op slot value : Nat) : State :=
  match op with
  | 1 => updSec s fun x => { x with
      slots := modAt x.slots slot fun k => { k with programmed := true, keyhash := BitVec.ofNat 512 (fuseDataVal s) } }
  | 2 => updSec s fun x => { x with slots := modAt x.slots slot fun k => { k with revoked := true } }
  | 3 => updSec s fun x => { x with minsvn := max x.minsvn value }
  | _ => s
/-- A write of SEC_FUSECMD (R350): the result header, FUSE_DONE or FUSE_REJ. -/
def fuseCmd (s : State) (i : Initiator) (v : Nat) : State :=
  let op := bitsOf v 31 28
  let slot := bitsOf v 25 24
  let value := bitsOf v 6 0
  let t := trigRes s Reg.fuseRes
  if fuseRefused s i op slot value then secCauseSet (doneRes t Reg.fuseRes (2 ^ 30)) 6
  else secCauseSet (doneRes (fuseBlow t op slot value) Reg.fuseRes 0) 5

/-! ## Verification (R352, R361) -/

/-- SEC_VCMD.START (R54). -/
def verifyStart (s : State) : State := updSec (trigRes s Reg.secVres) fun x => { x with verifying := true }
/-- The digest words of SEC_VDIG. -/
def putDigest (s : State) (d : BitVec 512) : State :=
  (List.range 16).foldl (fun s w => wr s (Reg.secVdig w) (d.toNat / 2 ^ (32 * w) % 2 ^ 32)) s
/-- Record an acceptance result with its image digest. -/
def putVres (s : State) (r : Nat) (d : BitVec 512) : State :=
  doneRes (putDigest (updSec s fun x => { x with vres := some (r, d) }) d) Reg.secVres (r * 2 ^ 28)
/-- IMAGE_VERIFY_DONE: acceptance of the image in DRAM ends. -/
def verifyDone (s : State) : State :=
  if !s.sec.verifying then s else
  let s := updSec s fun x => { x with verifying := false }
  let (s, img) := directRead s (rdField s Reg.imgAddr 35 6 * 64) (rdField s Reg.imgLenReg 24 0)
  secCauseSet (putVres s (accept s img) (Config.sha512 img)) 0
/-- Offer an image on both ports but one. -/
def offerImage (s : State) (img : List Byte) (skip : Option RingPort) : State :=
  let d := digest16 img
  let s := updRing s fun r => { r with txImage := img, haveImgs := if r.haveImgs.contains d then r.haveImgs else d :: r.haveImgs }
  let s := if skip == some .east then s else relayOffer s .east img.length d
  if skip == some .west then s else relayOffer s .west img.length d
/-- The write of an accepted relayed image into the slot that does not run starts once the NOR is free (R361). -/
def relayBegin (s : State) : State :=
  match s.sec.store with
  | some img =>
    if s.boot.op.isSome then s else
    let o : NorOp := { op := 5, addr := slotOff (1 - runningSlot s), data := img, commit := true }
    updBoot (updSec s fun x => { x with store := none }) fun b => { b with op := some o }
  | none => s
/-- A relayed image is whole (R342 steps 5, 6; R361): verified, stored in the slot not running where accepted, recorded in
SEC_VRES with RELAY_RX, and offered on where its signature verifies. -/
def relayVerify (s : State) : State :=
  if !relayWhole s.ring then s else
  let img := s.ring.rxImage
  let r := accept s img
  let s := updRing s fun x => { x with rx := { x.rx with active := false } }
  let s := if r = 0 then relayBegin (updSec s fun x => { x with store := some img }) else s
  let s := secCauseSet (secCauseSet (putVres (trigRes s Reg.secVres) r (Config.sha512 img)) 0) 8
  if r = 0 || 4 ≤ r then offerImage s img s.ring.rxFrom else s
/-- REL_OFFER: the unit holds the images of its NOR slots too, beside those that it relayed (R342 step 2). -/
def relOfferHeld (s : State) (h : DispHdr) (size digest : Nat) : State :=
  let note (l : List Nat) (k : Nat) : List Nat := let d := digest16 (slotImage s k); if l.contains d then l else d :: l
  relOffer (updRing s fun r => { r with haveImgs := [0, 1].foldl note r.haveImgs }) h size digest
/-- REL_DATA, with the verification of a completed image. -/
def relDataVerify (s : State) (h : DispHdr) (index : Nat) (bytes : List Byte) : State := relayVerify (relData s h index bytes)

/-! ## Activation (R357 to R362) -/

/-- Firmware Commit status of an acceptance result (Table 14-3). -/
def acceptStatus (r : Nat) : Status := if r = 0 then stOk else if r = 6 then stFwProhibited else stFwImage

/-- Complete the Firmware Commit that waits, and end the one-at-a-time hold (R355). -/
def commitEnd (s : State) (st : Status) : State :=
  match s.sec.commit with
  | some c =>
    let s := updSec s fun x => { x with commit := none }
    if c.mute then s else complete s { port := c.port, qid := c.qid, cid := c.cid, nsid := 0 } st
  | none => s

/-- An activation ends without running the new image: its OUTCOME, and the waiting commit's status. -/
def activationSkip (s : State) (outcome : Nat) (st : Status) : State :=
  commitEnd (secCauseSet (doneRes (trigRes s Reg.secActres) Reg.secActres (outcome * 2 ^ 28)) 3) st

/-- Activation from a NOR slot (R357): acceptance again at staging, then fetching stops on both controllers, which post
Firmware Activation Starting. A refusal ends it. -/
def activate (s : State) (slot : Nat) (group : Bool) : State :=
  let img := slotImage s slot
  let r := accept s img
  if r != 0 then
    (if group then commitEnd (doneRes (trigRes s Reg.secActres) Reg.secActres (4 * 2 ^ 28)) (acceptStatus r)
     else commitEnd s (acceptStatus r))
  else
    let a : Activation := {
      slot, digest := Config.sha512 img, cmd := none, svn := fieldAt img 10 1, keyslot := fieldAt img 11 1
      svncommit := bitOf (fieldAt img 12 4) 0 }
    let s := updSec (trigRes s Reg.secActres) fun x => { x with act := some a }
    let s := updChip s fun c => { c with stopFetch := true }
    let s := if aerEnabled s.portA 9 then asyncEvent s .a 2 1 3 else s
    if aerEnabled s.portB 9 then asyncEvent s .b 2 1 3 else s

/-- Take an image as the running one; it has not reached CSTS.RDY yet (R351). -/
def takeImage (s : State) (slot : Nat) (d : BitVec 512) (svn key : Nat) (com : Bool) : State :=
  wrField (updSec s fun x => { x with runDigest := d, runSvn := svn, runKey := key, runCommit := com, ranReady := false, rootAfter := false })
    Reg.cfgBoot 12 12 slot
/-- The running image has reached CSTS.RDY on a controller, at start-up or with fetching resumed after a handover (R351). -/
def noteReady (s : State) : State :=
  updSec s fun x => { x with ranReady := x.ranReady || s.portA.rdy || s.portB.rdy }
/-- The first checkpoint root after that is committed: from now on firmware may raise MINSVN (R351). -/
def noteRoot (s : State) : State := updSec s fun x => { x with rootAfter := x.rootAfter || x.ranReady }
/-- FUSE_RAISE_MINSVN. Firmware on SC0 does not give it for the running image's own SVN before R351 lets it: it then has no effect
(DEDUCED, log entry 203). -/
def raiseEarly (s : State) (i : Initiator) (value : Nat) : Bool :=
  i == .sc0 && !s.sec.depot && value == s.sec.runSvn && s.sec.runCommit && decide (s.sec.minsvn < value) && !s.sec.rootAfter

/-- SEC_HANDOVER.SWITCH is legal in an activation before its switch, DONE after it (Table 14-11). -/
def handoverLegal (s : State) (v : Nat) : Bool :=
  match s.sec.act with
  | none => false
  | some a => (!bitOf v 0 || !a.switched) && (!bitOf v 1 || a.switched)

/-- A handover block (Table 14-6): the header with its CRC-32C over the whole block, and the records. -/
def handoverBlock (seq old new : Nat) (body : List Byte) : List Byte :=
  let b (crc : Nat) : List Byte :=
    padTo 64 (le 4 0x48444F56 ++ le 4 (64 + body.length) ++ le 8 seq ++ le 16 old ++ le 16 new ++ le 4 crc) ++ body
  b (crc32c (b 0))
/-- MAGIC, CRC and TODIGEST match (R359). -/
def handoverOk (l : List Byte) (new : Nat) : Bool :=
  fieldAt l 0 4 == 0x48444F56 && crcOver (l.take (fieldAt l 4 4)) 48 4 == fieldAt l 48 4 && fieldAt l 32 16 == new % 2 ^ 128
/-- The old firmware writes the block into the mirrored firmware area (R357 step 2). -/
def writeHandover (s : State) (new : BitVec 512) : State :=
  let left := (s.srt.cmds.filter fun c => c.2.entries = 0 || !c.2.accepted).map fun c => (c.2.q.port.num, c.2.q.qid, c.2.q.cid)
  let body := (Config.handoverRecords left).take 65472
  let l := handoverBlock (fieldAt s.sec.handover 8 8 + 1) (s.sec.runDigest.toNat % 2 ^ 128) (new.toNat % 2 ^ 128) body
  updSec (updJrc s fun j => mirrorWrite j 0x20000 65536) fun x => { x with handover := l }
/-- The block as its two copies give it, with J0 rewritten where that is needed (R257); whether the new firmware takes it. -/
def readHandover (s : State) (new : BitVec 512) : State × Bool :=
  let (s, lost) := mirroredRead s 0x20000 s.sec.handover.length
  (s, lost.isEmpty && handoverOk s.sec.handover new.toNat)

/-- SWITCH (R357 step 3): the cores restart on the standby slot; every SPDM session ends (Table 14-7). -/
def handoverSwitch (s : State) : State :=
  match s.sec.act with
  | some a =>
    if a.switched then s else
    let old := (runningSlot s, s.sec.runDigest, s.sec.runSvn, s.sec.runKey, s.sec.runCommit)
    let s := writeHandover s a.digest
    let s := updSec (endAllSessions s) fun x => { x with act := some { a with switched := true }, oldImg := some old }
    takeImage s a.slot a.digest a.svn a.keyslot a.svncommit
  | none => s

/-- DONE (R357 step 4): fetching resumes, the boot record names the new slot, the commit completes, ACT_DONE. Firmware that must refuse
the block writes no DONE: with such a block it has no effect, and R358 applies (log entry 168). -/
def handoverDone (s : State) : State :=
  match s.sec.act with
  | some a =>
    if !a.switched then s else
    let (s, ok) := readHandover s a.digest
    if !ok then s else
    let flags := match recordInForce s with | some (_, l) => fieldAt l 17 1 | none => 1
    let s := writeRecordCopy s a.slot flags (a.digest.toNat % 2 ^ 128)
    let s := updSec s fun x => { x with act := none, oldImg := none }
    let s := noteReady (updChip s fun c => { c with stopFetch := false })
    secCauseSet (commitEnd (doneRes s Reg.secActres 0) stOk) 2
  | none => s

/-- ACTIVATION_REVERT (R358): the old image runs again, and the commit completes Firmware Activation Prohibited. -/
def activationRevert (s : State) : State :=
  match s.sec.act, s.sec.oldImg with
  | some a, some (slot, d, svn, key, com) =>
    if !a.switched then s else
    let s := takeImage s slot d svn key com
    let s := updSec s fun x => { x with act := none, oldImg := none }
    let s := noteReady (updChip s fun c => { c with stopFetch := false })
    secCauseSet (commitEnd (doneRes s Reg.secActres (1 * 2 ^ 28)) stFwProhibited) 4
  | _, _ => s

/-- ACTIVATION_TIME (R341, R362): at TACT + address × STEP ms a MEMBER that holds the image activates; others skip. -/
def activationTime (s : State) : State :=
  match s.ring.act with
  | none => s
  | some (digest, tact, stp) =>
    if groupTime s < tact + s.ring.addr.getD 0 * stp * 250000 || s.sec.act.isSome then s else
    let s := updRing s fun r => { r with act := none }
    let slot := 1 - runningSlot s
    if s.ring.st != .member then activationSkip s 3 stFwProhibited
    else if digest16 (slotImage s slot) != digest then activationSkip s 2 stFwProhibited
    else activate s slot true

/-- Launch the activation of a Firmware Commit with CA 0b011 once its slot is written (R357, R362). -/
def commitActivate (s : State) (slot : Nat) : State :=
  if bitOf (rd s (Reg.ctl .sec)) 1 then
    if s.ring.st = .member then
      let lead := rdField s Reg.secActcfg 31 16
      let stp := rdField s Reg.secActcfg 15 0
      let d := digest16 (slotImage s slot)
      let t := groupTime s + lead * 250000
      sendRepeat (updRing s fun r => { r with act := some (d, t, stp) }) 0x30 0xFF (le 16 d ++ le 8 t ++ le 2 stp)
    else activate (secCauseSet s 7) slot false
  else activate s slot false

/-! ## Namespace keys (R367 to R369) -/

def keyHi (k : BitVec 512) : BitVec 256 := BitVec.ofNat 256 (k.toNat / 2 ^ 256)
def keyLo (k : BitVec 512) : BitVec 256 := BitVec.ofNat 256 k.toNat
/-- A generated key: a free value. A key whose halves are equal is drawn again (R367), so that it is one with unequal halves. -/
def drawKey (s : State) : State × BitVec 512 :=
  let (s, hi) := freshBelow s (2 ^ 256)
  let (s, d) := freshBelow s (2 ^ 256 - 1)
  (s, BitVec.ofNat 512 (hi * 2 ^ 256 + if d < hi then d else d + 1))
/-- A namespace's SALT entry. -/
def saltOf (s : State) (nsid entry : Nat) : Nat := ngetD s.cry.salts (2 * nsid + entry) 0
/-- The mirrored unit that holds a SALT entry of 32 bytes (log entry 168). -/
def saltUnit (nsid entry : Nat) : Nat := 0x30000 + (2 * (nsid - 1) + entry) / 2 * 64
/-- Overwrite a SALT entry with random bytes, a free value (R367, R368). -/
def newSalt (s : State) (nsid entry : Nat) : State :=
  let a := freshBelow s (2 ^ 256)
  updJrc (updCry a.1 fun c => { c with salts := nset c.salts (2 * nsid + entry) a.2 }) fun j => mirrorWrite j (saltUnit nsid entry) 64
/-- The key-wrapping key's input: the UDS with the SALT. -/
def wrapOf (s : State) (nsid entry : Nat) (k : BitVec 512) : BitVec 576 :=
  Config.wrapKey (s.sec.uds.toNat + 2 ^ 256 * saltOf s nsid entry) nsid 0 k
def unwrapOf (s : State) (nsid entry : Nat) (w : BitVec 576) : Option (BitVec 512) :=
  Config.unwrapKey (s.sec.uds.toNat + 2 ^ 256 * saltOf s nsid entry) nsid 0 w
/-- Draw a key for a namespace under a new SALT in an entry; its wrapped form is returned. -/
def makeKey (s : State) (nsid entry : Nat) : State × BitVec 576 :=
  let x := drawKey (newSalt s nsid entry)
  (updCry x.1 fun c => { c with keys := nset c.keys nsid x.2 }, wrapOf x.1 nsid entry x.2)
/-- The 72 bytes of CRY_WRAP. -/
def wrapRegs (s : State) : BitVec 576 := BitVec.ofNat 576 (leNat ((List.range 18).map fun w => le 4 (rd s (Reg.cryWrap w))).flatten)
def putWrap (s : State) (w : BitVec 576) : State :=
  (List.range 18).foldl (fun s k => wr s (Reg.cryWrap k) (w.toNat / 2 ^ (32 * k) % 2 ^ 32)) s
/-- The key commands of CRY_KCMD (Table 14-14): generate, load wrapped or destroy. -/
def keyCommand (s : State) (v : Nat) (entropyOk : Bool) : State :=
  let nsid := bitsOf v 7 0
  let e := bitsOf v 8 8
  let s := trigRes s Reg.cryKres
  match bitsOf v 31 28 with
  | 1 =>
    if !entropyOk then cryCauseSet (cryCauseSet (doneRes s Reg.cryKres (1 * 2 ^ 28)) 1) 0 else
    let x := makeKey s nsid e
    cryCauseSet (doneRes (putWrap x.1 x.2) Reg.cryKres 0) 0
  | 2 =>
    match unwrapOf s nsid e (wrapRegs s) with
    | some k => cryCauseSet (doneRes (updCry s fun c => { c with keys := nset c.keys nsid k }) Reg.cryKres 0) 0
    | none => cryCauseSet (doneRes s Reg.cryKres (2 * 2 ^ 28)) 0
  | 3 => cryCauseSet (doneRes (updCry s fun c => { c with keys := ndel c.keys nsid }) Reg.cryKres 0) 0
  | _ => s
/-- A write of CRY_KCMD (Table 14-14): generate, load wrapped or destroy; a group whose key is gone, or there again, changes its ANA
state (R90, Table 14-10). -/
def kcmd (s : State) (v : Nat) (entropyOk : Bool) : State := anaAfter (lostKeys s) (keyCommand s v entropyOk)

/-! ## The SPDM responder (R365, R366) -/

/-- The digest of a measurement index (Table 14-9). -/
def measurement (s : State) (k : Nat) : BitVec 512 :=
  let bits := fun f => (List.range 4).foldl (fun n i => n + (if f (s.sec.slots.getD i {}) then 2 ^ i else 0)) 0
  match k with
  | 1 => Config.romDigest
  | 2 => s.sec.runDigest
  | 3 => Config.stateDigest s.sec.minsvn (bits KeySlot.programmed) (bits KeySlot.revoked) s.sec.runKey s.sec.depot
  | 4 => s.sec.meas4
  | _ => s.sec.meas5
/-- A measurement block of digest form: index and SHA-512. -/
def measBlock (s : State) (k : Nat) : List Byte := le 1 k ++ le 64 (measurement s k).toNat

def connOf (s : State) (t : SpdmTransport) : SpdmConn := ((s.sec.conns.find? fun e => e.1 == t).map fun e => e.2).getD {}
def setConn (s : State) (t : SpdmTransport) (c : SpdmConn) : State :=
  updSec s fun x => { x with conns := (t, c) :: x.conns.filter fun e => e.1 != t }

/-- A response on the transport the request came by; over NVMe it waits for Security Receive. -/
def respond (s : State) (t : SpdmTransport) (code : Nat) (body : List Byte) : State :=
  match t with
  | .nvme p => modPort s p fun x => { x with secRsp := x.secRsp ++ [BitVec.ofNat 8 code :: body] }
  | .smbus => emit s (.spdm t code body)
  | .vdm _ => emit s (.spdm t code body)
/-- ERROR, with the SPDM error code (log entry 8): 0x01 invalid, 0x04 unexpected, 0x07 unsupported, 0x0A session limit. -/
def spdmError (s : State) (t : SpdmTransport) (e : Nat) : State := respond s t 0x7F (le 1 e)

/-- What the ALIAS key is derived from: the UDS, with the running image digest as salt (R363). -/
def aliasSeed (s : State) : Nat := s.sec.uds.toNat + 2 ^ 256 * s.sec.runDigest.toNat
/-- A signature of the ALIAS key over what is sent (R363). -/
def aliasSign (s : State) (body : List Byte) : List Byte := Config.ecdsaSign (aliasSeed s) body

/-- The certificate chain of slot 0 (R364): the root, the intermediate, the identity store's bytes, and the ALIAS certificate that the
island builds, with the five measurements, and signs with the IDENTITY key. -/
def certChain (s : State) : List Byte :=
  let leaf := Config.spdmBytes 0x02 (aliasSeed s) ++ ((List.range 5).map fun k => measBlock s (k + 1)).flatten
  Config.spdmBytes 0x82 0 ++ Config.spdmBytes 0x82 1 ++ norBytes s 0x10000 65536 ++ leaf ++ Config.ecdsaSign s.sec.uds.toNat leaf

/-- One SPDM request on a transport (R365, Table 14-8). -/
def spdm (s : State) (t : SpdmTransport) (r : SpdmReq) : State :=
  if s.chip.held then s else
  let c := connOf s t
  match r with
  | .getVersion => respond (setConn s t { version := true }) t 0x04 (le 2 0x1200)
  | .getCapabilities =>
    if !c.version then spdmError s t 4 else respond (setConn s t { c with caps := true }) t 0x61 (Config.spdmBytes 0x61 0)
  | .negotiateAlgorithms ok =>
    if !c.caps then spdmError s t 4 else if !ok then spdmError s t 1
    else respond (setConn s t { c with algs := true }) t 0x63 (Config.spdmBytes 0x63 0)
  | .getDigests => if !c.algs then spdmError s t 4 else respond s t 0x01 (le 1 1 ++ le 64 (Config.sha512 (certChain s)).toNat)
  | .getCertificate slot off len =>
    if !c.algs then spdmError s t 4 else if slot != 0 || (certChain s).length ≤ off then spdmError s t 1
    else respond s t 0x02 (((certChain s).drop off).take len)
  | .challenge slot =>
    if !c.algs then spdmError s t 4 else if slot != 0 then spdmError s t 1 else
    let b := le 64 (Config.sha512 (certChain s)).toNat ++ Config.spdmBytes 0x03 0
    respond s t 0x03 (b ++ aliasSign s b)
  | .getMeasurements k signed =>
    if !c.algs then spdmError s t 4 else if k != 0xFF && 5 < k then spdmError s t 1 else
    let b := if k = 0 then le 1 5 else if k = 0xFF then ((List.range 5).map fun i => measBlock s (i + 1)).flatten else measBlock s k
    respond s t 0x60 (if signed then b ++ aliasSign s b else b)
  | .keyExchange mutAuth =>
    if !c.algs then spdmError s t 4 else if 4 ≤ s.sec.sessions.length then spdmError s t 0x0A else
    let sid := s.sec.nextSid
    let s := updSec s fun x => { x with nextSid := sid + 1, sessions := x.sessions ++ [{ sid, mutAuth }] }
    let b := le 4 sid ++ Config.spdmBytes 0x64 sid
    respond s t 0x64 (b ++ aliasSign s b)
  | .finish sid verified hash =>
    match findSession s sid with
    | none => spdmError s t 1
    | some x =>
      if x.up then spdmError s t 4
      else if x.mutAuth && !verified then spdmError (updSec s fun y => { y with sessions := y.sessions.filter fun z => z.sid != sid }) t 1
      else
        let ok := x.mutAuth && s.sec.slots.any fun k => k.usable && k.keyhash == hash
        let s := updSec s fun y => { y with sessions := y.sessions.map fun z => if z.sid == sid then { z with up := true, authed := ok } else z }
        respond (raise s 134) t 0x65 []
  | .heartbeat sid => match findSession s sid with
    | some x => if x.up then respond s t 0x68 [] else spdmError s t 4
    | none => spdmError s t 1
  | .keyUpdate sid => match findSession s sid with
    | some x =>
      if !x.up then spdmError s t 4 else
      respond (updSec s fun y => { y with sessions := y.sessions.map fun z => if z.sid == sid then { z with epoch := z.epoch + 1 } else z })
        t 0x69 []
    | none => spdmError s t 1
  | .endSession sid => match findSession s sid with
    | some _ => respond (endSession s sid) t 0x6C []
    | none => spdmError s t 1
  | .unsupported => spdmError s t 7

/-- SPDM_HEARTBEAT_TIMEOUT (R365): a session with heartbeat enabled ends. -/
def spdmTimeout (s : State) (sid : Nat) : State :=
  match findSession s sid with
  | some x => if x.up && x.heartbeat then endSession s sid else s
  | none => s

end Sys2Proof.Machine
end

