-- ==== Sys2Proof/Machine/Nsops.lean ====
section
/-! DEFINITION. Namespace create and delete (R85, R86, R155), Format NVM (R413, R414) and Sanitize (R415 to R419): their
checks, their record groups and the phases of their engine. -/

namespace Sys2Proof.Machine

/-! ## Capacity of a namespace (R155) -/

/-- Segments of 4 MiB that the DRAM reserved for the map holds (R152). -/
def mapSegments (s : State) : Nat :=
  (s.boot.dramGib * 2 ^ 30 - poolSize s * 96 - s.boot.dramGib * 2 ^ 30 / 4) / 2 ^ 22

/-- Namespaces being created: NSID, size and segments. -/
def creating (s : State) : List (Nat × Nat × Nat) :=
  s.srt.cmds.filterMap fun c => match c.2.body with
    | .namespaceCreate _ nsze _ lbaf _ _ _ _ => some (c.2.applied, nsze + hiddenLetters nsze lbaf, segCount nsze lbaf)
    | _ => none

/-- Would nsze more letters in a format, with the segments of an old list given back, still fit? -/
def capacityFits (s : State) (letters segs less : Nat) : Bool :=
  let ncap := (s.map.tab.ns.map fun e => e.2.ncap).foldl (· + ·) 0 + ((creating s).map fun x => x.2.1).foldl (· + ·) 0
  let held := (s.map.tab.ns.map fun e => e.2.segs.length).foldl (· + ·) 0 + ((creating s).map fun x => x.2.2).foldl (· + ·) 0
  ncap + letters ≤ commitC s && held + segs ≤ mapSegments s + less

/-- The lowest NSID free. -/
def freeNsid (s : State) : Option Nat :=
  ((List.range 128).map (· + 1)).find? fun i => (nsOf s i).isNone && !((creating s).any fun x => x.1 == i)

/-- Would the hidden extents of namespaces that are formatted together to or from LBAF 3 fit (R155)? -/
def resizeFits (s : State) (ids : List Nat) (lbaf : Nat) : Bool :=
  let l := (ids.filterMap (nsOf s)).filter fun n => lbaf != n.lbaf && (lbaf == 3 || n.lbaf == 3)
  l.isEmpty || capacityFits s (sumOf (l.map fun n => hiddenLetters n.nsze lbaf - hiddenLetters n.nsze n.lbaf))
    (sumOf (l.map fun n => segCount n.nsze lbaf)) (sumOf (l.map fun n => n.segs.length))

/-- Format and PI settings that R86 does not allow. -/
def badFormat (lbaf piType : Nat) : Bool := 3 < lbaf || !(piType == 0 || piType == 1 || piType == 3) || (piType != 0 && lbaf != 2)

/-- A change that the Namespace Attribute Changed notice and the Changed Namespace List report on a port (R94). -/
def nsNotify (nsid : Nat) (s : State) (p : Port) : State :=
  let s := modPort s p fun x => { x with nsNotice := if x.nsNotice.contains nsid then x.nsNotice else x.nsNotice ++ [nsid] }
  if aerEnabled (getPort s p) 8 then asyncEvent s p 2 0 4 else s
def nsChanged (s : State) (nsid : Nat) (ports : List Port) : State := ports.foldl (nsNotify nsid) s

/-! ## Namespace Management -/

/-- A command that firmware runs and whose group the map engine commits: it takes no tracker entry. -/
def firmwareCmd (s : State) (body : Instr) (q : Sqe) (applied : Nat) : State :=
  enterTracker s { body, q, modif := true, entries := 0, released := true, asked := true, dataIn := true, ready := true, applied }

/-- NAMESPACE_CREATE (R85, R86, R155, Table 5-17, R369). -/
def nsCreate (s : State) (body : Instr) (q : Sqe) (nsze ncap lbaf piType : Nat) (pil ext entropyOk : Bool) : State :=
  if !canFetchAdm s q then s else
  let s := takeAdmin s q.port
  let fail (st : Status) : State := complete s q st
  if nsze != ncap || nsze % 16 != 0 then fail stInvalidField
  else if badFormat lbaf piType then fail stFormat
  else if s.map.chip = 3 || s.map.chip = 4 then fail (stField 0 0x15)
  else if sanitizeOn s then fail stSanProgress
  else if sanFailed s then fail stSanFailed
  else if !capacityFits s (nsze + hiddenLetters nsze lbaf) (segCount nsze lbaf) 0 then fail stNsCapacity
  else match freeNsid s with
    | none => fail stNsIdUnavailable
    | some id =>
      if !entropyOk then complete (cryCauseSet s 1) q stInternal else
      let (s, w) := makeKey s id 0
      let k : Carrier := { nsid := id, salt := 0, wrapped := w }
      let v := nsze / 16 + lbaf * 2 ^ 40 + (if piType = 3 then 2 ^ 44 else 0) + (if pil then 2 ^ 45 else 0) + (if ext then 2 ^ 46 else 0)
      let cid := s.srt.next
      askGroup (firmwareCmd s body q id) (.cmd cid) [.nsop 1 id v [k]]

/-- The namespaces that an NSID names. -/
def namedNs (s : State) (nsid : Nat) : List Nat :=
  if nsid = 0xFFFFFFFF then s.map.tab.ns.map fun e => e.1 else if (nsOf s nsid).isSome then [nsid] else []

/-- A tracked command over every letter of namespaces (Table 4-1). -/
def wholeCmd (s : State) (body : Instr) (q : Sqe) (ids : List Nat) : State :=
  enterTracker s { body, q, modif := true, entries := ids.length + 1, ranges := ids.map fun n => (n, 0, 2 ^ 40) }

/-- NAMESPACE_DELETE: ordered over every letter (Table 5-17). -/
def nsDelete (s : State) (body : Instr) (q : Sqe) : State :=
  if !canFetchAdm s q then s else
  let s := takeFirm s q.port
  let ids := namedNs s q.nsid
  if q.nsid = 0 || (128 < q.nsid && q.nsid != 0xFFFFFFFF) then turnAway s q stInvalidNs
  else if ids.isEmpty && q.nsid != 0xFFFFFFFF then turnAway s q stInvalidField
  else match deleteFault s ids with
    | some st => turnAway s q st
    | none => wholeCmd s body q ids

/-- Its release: one group of NSOP delete records; in FAILED it is denied (Table 5-17). Where deletions fetched before it have
taken every namespace that it names away, nothing is left to do and it completes with success (DESIGN CHOICE, log entry 150). -/
def releaseDelete (s : State) (id : Nat) (c : Cmd) : State :=
  let ids := (namedNs s c.q.nsid)
  if s.map.chip = 4 then failCmd s id (stField 0 0x15) else
  let s := modCmd s id fun c => { c with released := true, asked := true }
  if ids.isEmpty then finishCmd s id else askGroup s (.cmd id) (ids.map fun n => .nsop 2 n 0 [])

/-! ## Format NVM -/

/-- FORMAT_NVM at fetch (Tables 17-4 and 17-6). -/
def formatFetch (s : State) (body : Instr) (q : Sqe) (lbaf ses piType : Nat) : State :=
  if !canFetchAdm s q then s else
  let s := takeFirm s q.port
  let ids := namedNs s q.nsid
  if q.nsid = 0 || (128 < q.nsid && q.nsid != 0xFFFFFFFF) then turnAway s q stInvalidNs
  else if ids.isEmpty && q.nsid != 0xFFFFFFFF then turnAway s q stInvalidField
  else if badFormat lbaf piType then turnAway s q stFormat
  else if 3 ≤ ses then turnAway s q stInvalidField
  else if !resizeFits s ids lbaf then turnAway s q stNsCapacity
  else match formatFault s with
    | some st => turnAway s q st
    | none => wholeCmd s body q ids

/-- New keys for namespaces, each wrapped under a new SALT in the entry not in use (R368 steps 1 and 2). A group whose key was
lost leaves Persistent Loss (Table 14-10). -/
def newKeys (s : State) (ids : List Nat) : State × List Carrier :=
  let a := ids.foldl (fun a n =>
    let e := 1 - ((nsOf a.1 n).map fun x => x.key.salt).getD 0
    let (s, w) := makeKey a.1 n e
    (s, a.2 ++ [{ nsid := n, salt := e, wrapped := w }])) (s, [])
  (anaAfter (lostKeys s) a.1, a.2)

/-- The progress block's 64 bytes (Table 17-6a), with their CRC-32C. -/
def progImage (p : Progress) : List Byte :=
  let b (crc : Nat) : List Byte := padTo 64 (le 4 0x50524F47 ++ le 1 p.kind ++ le 1 p.phase ++ le 1 p.action ++ le 1 0 ++ le 4 p.nsid
    ++ le 4 p.cursor ++ le 4 p.rounds ++ le 4 p.fails ++ le 8 p.opseq ++ le 4 crc)
  b (crc32c (b 0))
/-- The operation that a block's bytes tell: KIND 0 where MAGIC or the CRC is wrong (R417). -/
def progOf (l : List Byte) : Progress :=
  if !(fieldAt l 0 4 == 0x50524F47 && crcOver l 32 4 == fieldAt l 32 4) then {} else
  { kind := fieldAt l 4 1, phase := fieldAt l 5 1, action := fieldAt l 6 1, nsid := fieldAt l 8 4, cursor := fieldAt l 12 4,
    rounds := fieldAt l 16 4, fails := fieldAt l 20 4, opseq := fieldAt l 24 8, saved := fieldAt l 12 4 }
/-- The progress block written at the start of a phase, and cleared at the end (R416, R417). -/
def progWrite (s : State) (f : Progress → Progress) : State :=
  let p := f s.prog
  let p := { p with opseq := p.opseq + 1, saved := p.cursor }
  { s with prog := p, jrc := { mirrorWrite s.jrc 0x4000 64 with progBlk := progImage p } }

/-- A format starts (R414 steps 2 and 3). In FAILED, during a sanitize or in READ_ONLY it completes as Table 4-4 says. Where
deletions fetched before it have taken every namespace that it names away, nothing is left to format and it completes with
success (DESIGN CHOICE, log entry 150). -/
def formatStart (s : State) (id : Nat) (c : Cmd) (lbaf ses piType : Nat) (pil mset entropyOk : Bool) : State :=
  let ids := namedNs s c.q.nsid
  if s.map.chip = 4 then failCmd s id stAnaLoss
  else if sanitizeOn s then failCmd s id stSanProgress
  else if s.map.chip = 3 then failCmd s id stWriteProt
  else if ses != 0 && !entropyOk then failCmd (cryCauseSet s 1) id stInternal
  else if ids.isEmpty then finishCmd (modCmd s id fun c => { c with released := true }) id
  else
    let s := modCmd s id fun c => { c with released := true, asked := true }
    let s := inProgressEnds s id c stFmtProgress
    let (s, ks) := if ses = 0 then (s, []) else newKeys s ids
    let v := lbaf + ses * 16 + (if piType = 3 then 64 else 0) + (if pil then 128 else 0) + (if mset then 256 else 0)
    let s := progWrite s fun p => { p with
      kind := 1, phase := 1, action := ses, nsid := c.q.nsid, cursor := 0, rounds := 0, fails := 0, stage := 1, cmd := some id }
    askGroup s .other (ids.map fun n => .nsop 3 n v (ks.filter fun k => k.nsid == n))

/-- The namespaces a running format or sanitize acts on. -/
def progNs (s : State) : List Nat :=
  if s.prog.kind = 1 then (s.map.tab.ns.filter fun e => e.2.formatting).map fun e => e.1 else s.map.tab.ns.map fun e => e.1

/-- Entries of the Dead-Letter Office of namespaces that lose every letter (R293). -/
def dropDlo (s : State) (ids : List Nat) : State :=
  updPat s fun p => { p with
    dlo := p.dlo.filter fun e => !ids.contains e.nsid
    staging := p.staging.filter fun e => !ids.contains e.nsid
    dloChg := p.dloChg + (p.dlo.filter fun e => ids.contains e.nsid).length }

/-- The zero-fill of map segments, whose map is already zero here (log entry 31): the engine runs, and ends with ZERO_FILL_DONE. -/
def segFill (s : State) : State :=
  if s.mem.zf.isSome then s else updMem (trig54 s (drc 0x24)) fun m => { m with zf := some (0, 0) }

/-- The old SALT entries overwritten with random bytes (R368 step 4). -/
def oldSalts (s : State) (ids : List Nat) : State :=
  ids.foldl (fun s n => match nsOf s n with | some x => newSalt s n (1 - x.key.salt) | none => s) s

/-- A block's superblock holds pins (R108). -/
def blockPinned (s : State) (lun b : Nat) : Bool :=
  match nget s.map.tab.sbs (blkGet s.map.tab (blkKey lun b)).sbx with
  | some x => x.pins != 0 && (x.memOf (ppaOf lun b 0 0)).isSome
  | none => false
/-- ERASE round b: the blocks of every in-service LUN that are not BAD, RETIRED, WORN or of a system superblock (R416). A round with
a block whose superblock is pinned waits (R108). -/
def issueRound (s : State) : State :=
  let b := s.prog.cursor
  let luns := (List.range 32).flatMap fun c => (positions s c).map fun p => lunOf c p
  if luns.any fun l => blockPinned s l b then { s with prog := { s.prog with pinned := true } } else
  pump (luns.foldl (fun s lun =>
    let e := blkGet s.map.tab (blkKey lun b)
    let sys := match nget s.map.tab.sbs e.sbx with | some x => x.system && (x.memOf (ppaOf lun b 0 0)).isSome | none => false
    if e.st = 3 || e.st = 4 || e.st = 5 || sys || s.flash.die.blocks ≤ b then s
    else addOp s { kind := .erase, lun, block := b, cls := 4, sysOp := true }) { s with prog := { s.prog with pinned := false } })
/-- A round that waited for pins is tried again. -/
def retryRound (s : State) : State := if s.prog.stage = 4 && s.prog.pinned then issueRound s else s

/-- A sanitize that cannot finish (R418): SSTAT 0b011; with AUSE 1 it starts anew at the next start-up. -/
def sanFail (s : State) : State :=
  if s.prog.kind != 2 then s else
  let s := match s.prog.cmd with | some id => failCmd { s with prog := { s.prog with cmd := none } } id stAnaLoss | none => s
  if bitOf s.prog.action 3 then progWrite s fun p => { p with sstat := 3, phase := 1, stage := 8, cursor := 0 }
  else progWrite s fun p => { p with kind := 0, phase := 0, sstat := 3, stage := 7, cmd := none }

/-- The last phase: an epoch cut (stage 5), then the done group (stage 6). -/
def sanDone (s : State) : State := progWrite s fun p => { p with phase := 4, stage := 5 }
/-- The group that ends a format or a sanitize. -/
def doneGroup (s : State) : State :=
  let ws : List Want := if s.prog.kind = 1 then (progNs s).map fun n => .nsop 4 n 0 [] else [.nsop 6 0 0 []]
  askGroup { s with prog := { s.prog with stage := 6 } } .other ws

/-- The superblock of each live slot that the map names, one for each. -/
def liveSbs (t : MapTab) : List Nat :=
  t.ns.flatMap fun n => n.2.parcels.flatMap fun e => (List.range 16).filterMap fun i => match letterIn t e.2 i with
    | .slot p => sbxOf t p
    | .gone => none | .dead _ => none | .odd _ => none
/-- The sweep of the map: VCOUNT of superblocks and the mapped letters of every namespace, counted anew (R277, R309). -/
def recountTab (t : MapTab) (xs : List Nat) : MapTab :=
  let live := liveSbs t
  { t with
    sbs := t.sbs.map fun e => if xs.contains e.1 then (e.1, { e.2 with vcount := live.count e.1 }) else e
    ns := t.ns.map fun n => (n.1, { n.2 with mapped := sumOf (n.2.parcels.map fun e => mappedBy t e.2) }) }
/-- The recount ended (R277): VCOUNT and M are what the map holds, empty superblocks become ERASABLE, and a format or sanitize goes on. -/
def recountDone (s : State) : State :=
  if s.prog.stage != 3 && s.map.recount.isEmpty then s else
  let s := updTab s fun t => recountTab t s.map.recount
  let s := updMap s fun m => { m with recount := [] }
  let s := (s.map.tab.sbs.filter fun e => e.2.st == 2 && !e.2.system && e.2.vcount == 0 && !jobOn s e.1).foldl
    (fun s e => makeErasable s e.1) s
  let s := spaceUpdate (pump (victimsErasable s))
  if s.prog.stage != 3 then s else
  let s := if s.prog.kind = 1 && s.prog.action = 0 then s else oldSalts s (progNs s)
  if s.prog.kind = 1 then doneGroup s
  else if s.prog.action % 8 = 2 then
    issueRound (progWrite s fun p => { p with phase := 3, stage := 4, cursor := 0, rounds := s.flash.die.blocks })
  else sanDone s

/-- SANITIZE_ROUND_DONE: every erase of the round has ended. -/
def roundDone (s : State) : State :=
  if s.prog.stage != 4 || (s.flash.ops.any fun o => o.2.sysOp) then s
  else if s.map.chip = 4 then sanFail s
  else if s.prog.pinned then issueRound s
  else
    let s := { s with prog := { s.prog with cursor := s.prog.cursor + 1 } }
    if s.prog.rounds ≤ s.prog.cursor then sanDone s else issueRound s

/-- SANITIZE_PROGRESS_WRITE: every 256 ms during ERASE. -/
def sanProgress (s : State) : State := if s.prog.stage = 4 then retryRound (progWrite s id) else s

/-! ## Sanitize -/

/-- A Sanitize at fetch: Block Erase or Crypto Erase (R415, Table 17-6). -/
def sanitizeFetch (s : State) (body : Instr) (q : Sqe) (ndas : Bool) : State :=
  if !canFetchAdm s q then s else
  let s := takeFirm s q.port
  if ndas then turnAway s q stInvalidField
  else match sanitizeFault s with
  | some st => turnAway s q st
  | none => wholeCmd s body q (s.map.tab.ns.map fun e => e.1)

/-- Exit Failure Mode leaves the failure mode; outside it, it changes nothing (log entry 41). -/
def sanitizeExit (s : State) (q : Sqe) (ndas : Bool) : State :=
  if !canFetchAdm s q then s else
  let s := takeAdmin s q.port
  if ndas then complete s q stInvalidField
  else if sanitizeOn s then complete s q stSanProgress
  else if anyFormat s then complete s q stFmtProgress
  else complete { s with prog := { s.prog with stage := if s.prog.stage = 7 then 0 else s.prog.stage } } q stOk

/-- Phase 1 of a sanitize (Table 17-5), for an action with AUSE at bit 3; its command completes as the start group is applied
(R107; DEDUCED, log entry 41). -/
def sanitizeKeys (s : State) (action : Nat) (cmd : Option Nat) : State :=
  let s := progWrite s fun p => { p with
    kind := 2, phase := 1, action, nsid := 0xFFFFFFFF, cursor := 0, rounds := 0, fails := 0, stage := 1, sstat := 2, cdw10 := action, cmd }
  let s := wrField (jobAbort s) (Reg.ctl .pat) 0 0 0
  let (s, ks) := newKeys s (s.map.tab.ns.map fun e => e.1)
  askGroup s .other [.nsop 5 0 action ks]
/-- A Sanitize starts; in FAILED, during a sanitize or in READ_ONLY it completes as Table 4-4 says. -/
def sanitizeStart (s : State) (id : Nat) (c : Cmd) (action : Nat) (entropyOk : Bool) : State :=
  if s.map.chip = 4 then failCmd s id stAnaLoss
  else if sanitizeOn s then failCmd s id stSanProgress
  else if s.map.chip = 3 then failCmd s id stWriteProt
  else if !entropyOk then failCmd (cryCauseSet s 1) id stInternal
  else inProgressEnds (sanitizeKeys (modCmd s id fun c => { c with released := true, asked := true }) action (some id)) id c stSanProgress

/-! ## What an applied NSOP group does beside the map -/

/-- Every non-system open superblock is dropped, with what was being programmed and relocated (Table 17-3). -/
def dropOpens (s : State) : State :=
  let xs := (s.map.opens.filter fun e => e.1 < 22).map fun e => e.2.sbx
  let gone := (s.map.pgs.filter fun g => g.2.k < 22).map fun g => g.1
  let s := updFlash s fun f => { f with ops := f.ops.filter fun o =>
    !(o.2.kind == .program && (match o.2.pg, o.2.par with | some g, _ => gone.contains g | none, some (x, _) => xs.contains x | none, none => false)) }
  updMap s fun m => { m with
    opens := m.opens.filter fun e => !(e.1 < 22)
    pgs := m.pgs.filter fun g => !(g.2.k < 22)
    packs := m.packs.filter fun e => !(e.1 < 22)
    refresh := []
    relocs := m.relocs.filter fun r => r.2.idx.isSome
    forced := []
    tab := { m.tab with sbs := m.tab.sbs.map fun e => if xs.contains e.1 && e.2.st == 1 then (e.1, { e.2 with st := 2, closed := true }) else e } }

/-- An NSOP group is applied; old is the map before it. -/
def nsopDone (s : State) (old : MapTab) (op : Nat) (ids : List Nat) : State :=
  let ports (n : Nat) : List Port := match nget old.ns n with | some x => x.attached | none => []
  match op with
  | 2 =>
    let s := dropDlo s ids
    ids.foldl (fun s n =>
      let s := updCry (newSalt (newSalt s n 0) n 1) fun c => { c with keys := ndel c.keys n }
      let s := modPort s .a fun x => { x with dirEn := x.dirEn.filter (· != n), dirOpen := x.dirOpen.filter fun e => e.1 != n, dirRes := x.dirRes.filter fun e => e.1 != n }
      let s := modPort s .b fun x => { x with dirEn := x.dirEn.filter (· != n), dirOpen := x.dirOpen.filter fun e => e.1 != n, dirRes := x.dirRes.filter fun e => e.1 != n }
      nsChanged s n (ports n)) s
  | 3 =>
    let s := dropDlo s ids
    if s.prog.kind = 1 && s.prog.stage = 1 then segFill { s with prog := { s.prog with stage := 2 } } else s
  | 4 =>
    if s.prog.kind != 1 || s.prog.stage != 6 then s else
    let cmd := s.prog.cmd
    let s := progWrite s fun p => { p with kind := 0, phase := 0, stage := 0, cmd := none }
    let s := ids.foldl (fun s n => nsChanged s n (ports n)) s
    match cmd with | some id => finishCmd s id | none => s
  | 5 =>
    let s := dropDlo (dropOpens s) (old.ns.map fun e => e.1)
    let s := match s.prog.cmd with | some id => finishCmd { s with prog := { s.prog with cmd := none } } id | none => s
    if s.prog.kind = 2 && s.prog.stage = 1 then segFill (progWrite s fun p => { p with phase := 2, stage := 2 }) else s
  | 6 =>
    if s.prog.kind != 2 then s else
    let s := progWrite s fun p => { p with kind := 0, phase := 0, stage := 0, sstat := 1 }
    setActive (wrField s (Reg.ctl .pat) 0 0 1) .pat 0 true
  | _ => s

/-- ZERO_FILL_DONE: the engine's own range, or the map engine's (R414 step 4, Table 17-5). -/
def fillDoneAll (s : State) : State :=
  let own := s.mem.zf == some (0, 0)
  let s := zeroFillDone s
  if s.prog.stage != 2 then s else if own then { s with prog := { s.prog with stage := 3 } } else segFill s

/-- ROOT_COMMIT_DONE, which the last phase of a sanitize waits for. -/
def rootDone (s : State) : State :=
  let was := s.jrc.committing && s.jrc.next.isSome
  let s := rootCommitDone s
  if was && s.prog.stage = 5 then doneGroup s else s

end Sys2Proof.Machine
end

