-- ==== Sys2Proof/Machine/Commit.lean ====
section
/-! DEFINITION. Release (R107), the acknowledgement of a COMMIT and what applying a group does (R142, R147, R263, R308),
Abort (R116 to R119), tracker faults (R126) and release waits (R128). -/

namespace Sys2Proof.Machine

/-! ## Release -/

/-- Mapped letters of whole-parcel ranges. -/
def mappedIn (s : State) (n : Ns) (rs : List (Nat × Nat)) : Nat :=
  ((n.parcels.filter fun e => rs.any fun r => r.1 ≤ 16 * e.1 && 16 * e.1 < r.1 + r.2).map fun e => mappedBy s.map.tab e.2).foldl (· + ·) 0

/-- Shed Capacity of ranges is released: its check against NCAP (Table 17-8), then its groups. -/
def releaseShed (s : State) (id : Nat) (c : Cmd) (n : Ns) : State :=
  let rs := deallocRanges c.body
  let letters := (rs.map fun r => r.2).foldl (· + ·) 0
  if n.ncap < letters + (mappedUser s n - mappedIn s n rs) then capacityFail s id else releaseDealloc s id c

/-- Capacity that form 2 of Shed Capacity gives up in groups released and not applied yet, and the NCAP of the namespaces that are
there and being created (R155, R158). -/
def shedUnderWay (s : State) : Nat :=
  sumOf (s.srt.cmds.map fun c => match c.2.body with
    | .shedCapacityUnallocated _ n => if c.2.released then n else 0
    | _ => 0)
def ncapHeld (s : State) : Nat := sumOf (s.map.tab.ns.map fun e => e.2.ncap) + sumOf ((creating s).map fun x => x.2.1)
/-- Shed Capacity of unallocated capacity is released (R158). -/
def releaseShedFree (s : State) (id letters : Nat) : State :=
  if commitC s < ncapHeld s + shedUnderWay s + letters then failCmd s id stInvalidField
  else askNext (modCmd s id fun c => { c with released := true, dataIn := true, ready := true, wants := [[.shed 0 letters]] }) id

/-- May the command be released: accepted and ordered (R107). An internal group never holds it (R246): one of its parcels that is in a
batch already counts as applied (R142; log entry 34). -/
def releasable (s : State) (id : Nat) (c : Cmd) : Bool :=
  c.accepted && !c.released && c.status.isNone && 0 < c.entries && ordered s id c && running s .map

/-- A modifying command that may still be applied: in READ_ONLY and FAILED it completes as Table 4-4 says (R159). -/
def writable (s : State) (id : Nat) (c : Cmd) (f : State → State) : State :=
  if s.map.chip = 4 then failCmd s id stAnaLoss (lowestLetter c)
  else if s.map.chip = 3 then failCmd s id stWriteProt (lowestLetter c)
  else f s
/-- The namespace of a command, or its completion with Invalid Field where a deletion fetched before it has taken it away
(R107, Table 4-4; DEDUCED, log entry 150). -/
def onNs (s : State) (id : Nat) (c : Cmd) (f : Ns → State) : State :=
  match nsOf s c.q.nsid with
  | some n => f n
  | none => failCmd s id stInvalidField (lowestLetter c)

/-- What a command's release does. A modifying command is not applied in READ_ONLY or FAILED (R159). -/
def releaseCmd (s : State) (id : Nat) (c : Cmd) : State :=
  match c.body with
  | .write _ f _ => onNs s id c fun n => writable s id c fun s => releaseWrite s id c n f
  | .read _ f _ => onNs s id c fun n => lookup s id c n f
  | .compare _ f _ => onNs s id c fun n => lookup s id c n f
  | .verify _ f => onNs s id c fun n => lookup s id c n f
  | .writeZeroes _ f deac => onNs s id c fun n => writable s id c fun s =>
      if deac then releaseDealloc s id c else releaseWrite s id c n f
  | .datasetManagement _ _ _ => onNs s id c fun _ => writable s id c fun s => releaseDealloc s id c
  | .shedCapacityRanges _ _ => onNs s id c fun n => writable s id c fun s => releaseShed s id c n
  | .shedCapacityUnallocated _ letters => writable s id c fun s => releaseShedFree s id letters
  | .namespaceDelete _ => releaseDelete s id c
  | .formatNvm _ lbaf ses piType pil mset ok => formatStart s id c lbaf ses piType pil mset ok
  | .sanitizeBlockErase _ ause _ ok => sanitizeStart s id c (2 + if ause then 8 else 0) ok
  | .sanitizeCryptoErase _ ause _ ok => sanitizeStart s id c (4 + if ause then 8 else 0) ok
  | _ => s

/-- COMMAND_RELEASE (R107); lines are the map accesses it makes. -/
def release (s : State) (id : Nat) (lines : List LineReq) : State :=
  match getCmd s id with
  | none => s
  | some c => if releasable s id c then releaseCmd (clientAccesses s lines) id c else s

/-! ## Applying a group -/

/-- The segments, of every checkpoint class, that a group touches (R308). -/
def groupSegs (s : State) (g : Group) : List Nat := (g.recs.flatMap (recSegs s.map.tab)).dedup

/-- Bundles whose letters a group set without promoting them gain HEAT_INC (R147). -/
def heatUp (s : State) (g : Group) (t : MapTab) : MapTab :=
  let new := g.recs.filterMap fun r => match r with | .promote _ _ b _ => some b | _ => none
  let hot := (g.recs.filterMap fun r => match r with | .letter _ _ _ b _ => some b | _ => none).dedup
  (hot.filter fun b => !new.contains b).foldl (fun t b =>
    { t with bundles := nmod t.bundles b fun u => { u with heat := min (u.heat + heatInc s) 255 } }) t

/-- Live slots of a page group. -/
def liveIn (s : State) (pg : Nat) : Nat :=
  ((nget s.map.pgs pg).map fun g => (g.slots.filter fun x => !isFiller x.2).length).getD 0
/-- A relocation's update and the copies it stands for. -/
def wantCopies (s : State) (w : Want) : Nat :=
  match w with | .move _ _ _ pg => liveIn s pg | .moveLetter _ _ _ _ _ _ => 1 | .consolidate _ _ _ pg => liveIn s pg | _ => 0
/-- Was a relocation's update applied? -/
def wantApplied (s : State) (rs : List JRec) (w : Want) : Bool :=
  match w with
  | .move n p _ pg => rs.any fun r => r == .parcel n p none (.ptr (pgPpa s pg 0))
  | .consolidate n p _ pg => rs.any fun r => match r with | .parcel m q _ v => m == n && q == p && v == .ptr (pgPpa s pg 0) | _ => false
  | .moveLetter n p i _ pg k => rs.any fun r => match r with
      | .letter m q j _ v => m == n && q == p && j == i && v == .slot (pgPpa s pg k) | _ => false
  | _ => false


/-- A relocation's group is applied: MOVED and ORPHANED (Table 9-5). -/
def relocApplied (s : State) (id : Nat) (g : Group) : State :=
  let hit := g.wants.filter (wantApplied s g.recs)
  let miss := g.wants.filter fun w => !wantApplied s g.recs w
  let s := modReloc s id fun r => { r with
    groups := r.groups - 1
    moved := r.moved + sumOf (hit.map (wantCopies s))
    orphaned := r.orphaned + sumOf (miss.map (wantCopies s)) }
  match nget s.map.relocs id with
  | some r => if relocIdle r && r.idx.isNone then refreshEnd (dropHolder s (.reloc id)) id else s
  | none => s

/-- A superblock's SBDESC group is applied: OPEN lets it be programmed, SEALED releases its seal buffer (R478). -/
def sbApplied (s : State) (x : Nat) (g : Group) : State :=
  g.recs.foldl (fun s r => match r with
    | .sbdesc _ bytes =>
      let s := if fieldAt bytes 4 1 != 1 then s else updPat s fun p => { p with tab := nset p.tab x (p.tage, 0, false, false) }
      (match streamOf s x with
      | none => s
      | some k =>
        if fieldAt bytes 4 1 = 1 then modOpen s k fun o => { o with durable := true }
        else updMap (modSb s x fun b => { b with sealTime := s.map.life }) fun m => { m with opens := ndel m.opens k })
    | .sbfree _ _ => updPat (updMap s fun m => { m with sysSb := ndel m.sysSb x }) fun p => { p with
        tab := ndel p.tab x, visit := if p.visit = some x then none else p.visit }
    | _ => s) s

/-- A command's last group is applied (R109); Shed Capacity reports MAP_SHEDREQ, a create its NSID. -/
def cmdApplied (s : State) (id : Nat) (c : Cmd) : State :=
  match c.body with
  | .shedCapacityRanges _ _ => let s := spaceUpdate s; finishCmd s id (min s.map.shedReq 0xFFFFFFFF)
  | .shedCapacityUnallocated _ _ => let s := spaceUpdate s; finishCmd s id (min s.map.shedReq 0xFFFFFFFF)
  | .namespaceCreate _ _ _ _ _ _ _ _ => finishCmd s id c.applied
  | _ => finishCmd s id

/-- What a group's owner does on its application. -/
def ownerApplied (s : State) (old : MapTab) (g : Group) : State :=
  match g.owner with
  | .cmd id =>
    let all (t : MapTab) : Nat := sumOf (t.ns.map fun e => e.2.mapped)
    let user (t : MapTab) : Nat := sumOf (t.ns.map fun e => mappedUser { s with map := { s.map with tab := t } } e.2)
    let (grown, grownUser) := (all s.map.tab - all old, user s.map.tab - user old)
    let s := modCmd s id fun c => { c with
      newLets := c.newLets - grown, newUser := c.newUser - grownUser, asked := false, sent := true }
    (match getCmd s id with
    | some c => if c.wants.isEmpty then cmdApplied s id c else askNext s id
    | none => s)
  | .reloc id => relocApplied s id g
  | .dead d => deadApplied s d (!g.recs.isEmpty)
  | .sb x => sbApplied s x g
  | .sweep _ => s
  | .other => s

/-- Apply a group (R142, R263): its records, heat, the dirty segments, its reservations, and its owner. -/
def applyGroup (s : State) (g : Group) : State :=
  let old := s.map.tab
  let free := bundlesFree s
  let s := updTab s fun t => heatUp s g (applyRecs s t g.recs)
  let s := updJrc s fun j => { j with dirty := (j.dirty ++ g.recs.flatMap (recSegs old)).dedup }
  let s := updMap s fun m => { m with
    resv := m.resv.filter fun r => !(some r.2.1 == g.owner.holder && g.wants.any fun w => w.touches r.2.2.1 r.2.2.2) }
  let s := poolEvents s free (usedBundles old)
  let ops := g.recs.filterMap fun r => match r with | .nsop op n _ _ => some (op, n) | _ => none
  let s := match ops with | (op, _) :: _ => nsopDone s old op (ops.map fun x => x.2) | [] => s
  ownerApplied s old g

/-- The groups whose segments are not being rebuilt are applied in GSEQ order; the others stay held (R308). -/
def drainApply (s : State) : State :=
  let q := s.jrc.applyQ
  let r := q.foldl (fun (a : State × List Nat × List Group) g =>
    let segs := groupSegs a.1 g
    if segs.any fun x => a.2.1.contains x then (a.1, a.2.1 ++ segs, a.2.2 ++ [g])
    else (applyGroup a.1 g, a.2.1, a.2.2)) (updJrc s fun j => { j with applyQ := [] }, s.phc.lost, [])
  updJrc r.1 fun j => { j with applyQ := r.2.2 ++ j.applyQ }

/-- What may go on once groups are applied. -/
def afterApply (s : State) : State :=
  let s := proceedAll (rebundle (victimsErasable s))
  let s := s.map.relocs.foldl (fun s r => relocRetry s r.1) s
  let s := s.map.relocs.foldl (fun s r => tryReloc s r.1) (askAll s)
  reclaimPace (spaceUpdate (sweepsEnd (turn s)))

/-- COMMIT_ACK (R262, R263): the oldest batch's COMMIT is durable; its groups are applied. -/
def commitAck (s : State) (lines : List LineReq) : State :=
  match s.jrc.batches with
  | [] => s
  | b :: rest =>
    let s := updJrc s fun j => { j with batches := rest, acked := b.gseq, applyQ := j.applyQ ++ b.groups }
    afterApply (drainApply (clientAccesses s lines))

/-! ## Abort (Table 4-5) -/

/-- Is the completion of an Abort of this controller still to be posted: held itself, or behind its target's (R116, R118)? -/
def abortPending (x : PortSt) : Bool := x.abortOut.isSome
/-- The completion queue that holds a target's completion for want of a free slot. -/
def heldIn (x : PortSt) (qid cid : Nat) : Option Nat :=
  ((nget x.sqs qid).map fun q => q.cqid).filter fun k =>
    ((nget x.cqs k).map fun q => q.held.any fun e => e.qid == qid && e.cid == cid).getD false
/-- The Abort's completion: after its caught target's (R118). -/
def abortDone (s : State) (q : Sqe) (sqid tcid : Nat) (hit : Bool) : State :=
  let s := modPort s q.port fun x => { x with abortOut := some q.cid }
  match if hit then heldIn (getPort s q.port) sqid tcid else none with
  | some k => modPort s q.port fun x => { x with
      abortWait := some (k, sqid, tcid, { port := q.port, qid := 0, cid := q.cid, st := stOk, dw0 := 0 }) }
  | none => complete s q stOk (if hit then 0 else 1)

/-- Is the target caught? -/
def caught (c : Cmd) : Bool :=
  if c.status.isSome then false
  else if !c.released then true
  else if !c.modif then true
  else !c.asked && !c.sent

/-- ABORT (R116 to R119). -/
def abortCmd (s : State) (q : Sqe) (sqid tcid : Nat) : State :=
  if !canFetchAdm s q then s else
  let s := takeAdmin s q.port
  if abortPending (getPort s q.port) then complete s q stAbortLimit else
  let t := s.srt.cmds.find? fun c => sqid != 0 && c.2.q.port == q.port && c.2.q.qid == sqid && c.2.q.cid == tcid && !c.2.mute
  let hit := match t with | some (_, c) => caught c | none => false
  let s := match t with
    | some (id, c) => if !hit then s else if c.modif then failCmd s id stAbortReq else endCmd s id stAbortReq
    | none => s
  let s := if hit then satAdd s (srt 0x60) 31 16 1 else satAdd s (srt 0x60) 15 0 1
  abortDone (raise s 94) q sqid tcid hit

/-! ## Tracker faults (R126) and waits (R128) -/

/-- TRACKER_FAULT steps 1 and 2; a fault found while the sequence runs is merged into it. -/
def trackerFault (s : State) : State :=
  if s.srt.quiesce || !active s .srt then s else
  let s := raise (orReg (updSrt s fun t => { t with quiesce := true }) (Reg.sts .srt) (2 ^ 17 + 2 ^ 18)) 90
  (s.srt.cmds.filter fun c => c.2.accepted && 0 < c.2.entries && !c.2.released && c.2.status.isNone).foldl
    (fun s c => endCmd s c.1 stTracker 0 (lowestLetter c.2)) s
/-- TRACKER_REINIT steps 4 and 5. -/
def trackerReinit (s : State) : State :=
  if !s.srt.quiesce || (s.srt.cmds.any fun c => c.2.accepted && 0 < c.2.entries && c.2.released) then s
  else wrField (updSrt s fun t => { t with quiesce := false }) (Reg.sts .srt) 18 18 0

/-- WAITLIM_EXCEEDED: source 95 and SRT_WAITCNT; WAITLIM 0 disables the check (Table 4-8). -/
def waitlim (s : State) (id : Nat) : State :=
  match getCmd s id with
  | none => s
  | some c =>
    if rdField s (Reg.ctl .srt) 11 4 = 0 || !c.accepted || c.released || c.entries = 0 || c.status.isSome then s
    else raise (satAdd s (srt 0x1C) 31 0 1) 95

/-- SRT_HWM_CLR: SRT_HWM takes the present occupancy. -/
def hwmClear (s : State) : State := wr s (srt 0x14) (occRanges s * 2 ^ 16 + occCmds s)

end Sys2Proof.Machine
end

