-- ==== Sys2Proof/Machine/Courier.lean ====
section
/-! DEFINITION. What ends on a die or a courier: programs, erases, suspends, timeouts, training, courier resets and snapshots
(R184 to R198, R243, R372, R481). -/

namespace Sys2Proof.Machine

/-- What may go on once a program or an erase has ended. -/
def afterFlash (s : State) : State :=
  let s := ckptStep (askAll (turn s))
  retryRound (settlePins (s.map.relocs.foldl (fun s r => tryReloc s r.1) s))

/-! ## Faulted LUNs (R190, R197) -/

/-- The LUN positions of a chip enable (R185). -/
def cePositions (e : Nat) : List Nat := (List.range 8).map fun i => 8 * e + i

/-- The superblock member that a block is. -/
def memberAt (s : State) (lun block : Nat) : Option (Nat × Nat) :=
  let x := (blkGet s.map.tab (blkKey lun block)).sbx
  ((nget s.map.tab.sbs x).bind fun b => b.memOf (ppaOf lun block 0 0)).map fun m => (x, m)

/-- An erase whose LUN is lost ends with BUS_FAULT: its block is withheld (Table 9-4). -/
def eraseLost (s : State) (id : Nat) (o : FOp) : State :=
  let s := dropOp s id
  match memberAt s o.lun o.block with | some (x, m) => noteEnded s x m 2 | none => s

/-- A LUN is set in CHN_LUNFLT: its reads pass to the ladder, its programs are placed anew and its erases are withheld. What its
channel then gives the space quantities changes (R223). -/
def faultLun (s : State) (c p : Nat) : State :=
  let lun := lunOf c p
  let s := orReg s (rLunFlt c) (2 ^ p)
  let s := failPrograms (endLun s lun) lun
  spaceUpdate ((s.flash.ops.filter fun o => o.2.lun == lun).foldl (fun s o => match o.2.kind with
    | .read => o.2.cws.foldl (fun s x => busFault s (ppaOf lun o.2.block o.2.page x.1) x.2) (dropOp s o.1)
    | .erase => eraseLost s o.1 o.2
    | .program => s) s)
/-- While a courier trains, its bus carries nothing else: no transfer or status read of an operation ends (R190; log entry 193). -/
def busTaken (s : State) (o : FOp) : Bool := (courier s (lunChn o.lun)).training.isSome

/-! ## Programs and erases -/

/-- PROGRAM_COMPLETE (R32 step 5, R197). -/
def programComplete (s : State) (id : Nat) (ok : Bool) : State :=
  match nget s.flash.ops id with
  | none => s
  | some o =>
    if o.kind != .program || o.st != .running || busTaken s o then s else
    let lost := bit32 s (rLunFlt (lunChn o.lun)) (lunPos o.lun)
    let host : Bool := ok && !lost && (match o.pg.bind fun g => nget s.map.pgs g with | some g => decide (g.k < 16) | none => false)
    let s := afterFlash (programEnd (busDone s id o) id o (ok && !lost))
    if host then reclaimPace (earn s) else s

/-- An erase's second status fail: ERASE_FAIL, CHN_EFAIL and the grown bad-block table. -/
def eraseFailed (s : State) (id : Nat) (o : FOp) (cause : Nat) : State :=
  let c := lunChn o.lun
  let s := chnCauseSet (satAdd (dropOp s id) (chn c 0x60) 31 0 1) c 3 (some (lunPos o.lun))
  let mem := memberAt s o.lun o.block
  let s := growBad s cause o.lun o.block
  if o.sysOp then { s with prog := { s.prog with fails := s.prog.fails + 1 } } else
  match mem with
  | some (x, m) => noteEnded s x m 1
  | none => s

/-- The block's slots no longer hold anything. -/
def wipeBlock (s : State) (lun block : Nat) : State :=
  updFlash s fun f => { f with media := f.media.filter fun e => e.1 / 2 ^ 16 != ppaOf lun block 0 0 / 2 ^ 16 }

/-- A successful erase (Table 9-4): a superblock's member is noted; another block's entry is set at once. A block whose erase was
withheld keeps the epoch that made its superblock ERASABLE (R242 step 5). -/
def erased (s : State) (o : FOp) : State :=
  let s := wipeBlock s o.lun o.block
  let k := blkKey o.lun o.block
  let e := blkGet s.map.tab k
  let n := min (e.erases + 1) 65535
  let worn := s.flash.die.rated ≤ n
  if o.sysOp then updTab s fun t => blkSet t k { e with erases := n, reads := 0, refr := false, st := if worn then 5 else e.st }
  else match memberAt s o.lun o.block with
    | some (x, m) =>
      noteEnded (modSb s x fun b => { b with ended := b.ended.filter fun y => !(y.1 == m && y.2 == 2) }) x m 0
    | none => updTab s fun t => blkSet t k { erases := n, st := if worn then 5 else 1, epoch := e.epoch }

/-- ERASE_COMPLETE (R197, R243): a status fail is repeated once. -/
def eraseComplete (s : State) (lun block : Nat) (ok : Bool) : State :=
  match s.flash.ops.find? fun o => o.2.kind == .erase && o.2.lun == lun && o.2.block == block && o.2.st == .running with
  | none => s
  | some (id, o) =>
    if busTaken s o then s
    else if ok then spaceUpdate (afterFlash (erased (dropOp s id) o))
    else if !o.again then pump (modOp s id fun x => { x with again := true, st := .held, susp := 0 })
    else spaceUpdate (afterFlash (eraseFailed s id o 3))

/-! ## Suspends (R191 to R194) -/

/-- Queued reads of a LUN that may suspend: RD_H ones, and RD_I ones where INTSUSP is 1. -/
def suspenders (s : State) (lun : Nat) : Bool :=
  let c := lunChn lun
  let int := bitOf (rd s (Reg.ctl .chn c)) 4
  s.flash.ops.any fun o => o.2.lun == lun && o.2.kind == .read && o.2.st == .queued && (o.2.cls == 1 || int)

/-- The suspend limit MAX of an operation's kind. -/
def suspMax (s : State) (o : FOp) : Nat := rdField s (chn (lunChn o.lun) (if o.kind == .erase then 0x14 else 0x18)) 31 24

/-- ERASE_SUSPEND and PROGRAM_SUSPEND: a read waits and MINRUN has passed. No suspension begins in the courier's disable sequence
(R203), and a program runs on the die only once its data is across (log entry 161). -/
def suspend (s : State) (id : Nat) (k : FKind) : State :=
  match nget s.flash.ops id with
  | none => s
  | some o =>
    if o.kind != k || o.st != .running || suspMax s o ≤ o.susp || !suspenders s o.lun || leaving s .chn (lunChn o.lun)
        || (s.flash.ops.any fun x => x.2.lun == o.lun && x.2.st == .suspended) || (courier s (lunChn o.lun)).training.isSome then s
    else
      let s := if 0 < o.units then busDone s id o else s
      pump (modOp s id fun x => { x with st := .suspended, susp := x.susp + 1 })

/-- SUSPEND_RESUME: the LUN's reads are served, or the dwell has passed; the resume waits for its grant, and no read starts before it
(R192, R201). -/
def suspendResume (s : State) (id : Nat) (dwell : Bool) : State :=
  match nget s.flash.ops id with
  | none => s
  | some o =>
    let reads := s.flash.ops.any fun x => x.2.lun == o.lun && x.2.kind == .read && x.2.st == .queued
    let running := s.flash.ops.any fun x => x.2.lun == o.lun && x.2.st == .running
    if o.st != .suspended || (!dwell && (reads || running)) then s else pump (askResume s id)

/-- RD_I_AGE_EXPIRY: an RD_I read that waited CHN_AGE is served in the order of RD_H (R186). -/
def rdIAge (s : State) (id : Nat) : State :=
  match nget s.flash.ops id with
  | none => s
  | some o =>
    if o.kind != .read || o.cls != 2 || !(o.st == .queued || o.st == .held) || rdField s (chn (lunChn o.lun) 0x24) 15 0 = 0 then s
    else pump (modOp s id fun x => { x with aged := true })

/-! ## Timeouts (Table 7-6) -/

/-- Timeouts of a LUN among those of the last 60 s. -/
def timeoutsOf (x : Courier) (lun : Nat) : Nat := (x.timeouts.filter fun t => t.1 == lun).length

/-- LUN_TIMEOUT: recent says that the channel's earlier timeouts lie within 60 s. The LUN reset leaves another operation that is
suspended on the LUN suspended; what the reset does to it is not stated (DESIGN CHOICE, log entry 194). -/
def lunTimeout (s : State) (id : Nat) (recent : Bool) : State :=
  match nget s.flash.ops id with
  | none => s
  | some o =>
    let c := lunChn o.lun
    let p := lunPos o.lun
    if o.st == .queued || o.st == .held || busTaken s o then s else
    let s := modCourier (busDone s id o) c fun x => { x with
      timeouts := (if recent then x.timeouts.filter fun t => s.clk.tb < t.2 + 60 * Config.countsPerSec else []) ++ [(o.lun, s.clk.tb)] }
    let x := courier s c
    let all : Bool := (positions s c).all fun q => 0 < timeoutsOf x (lunOf c q)
    let s := chnCausesSet s c ((4, some p) :: if all then [(10, none)] else [])
    let s := match o.kind with
      | .program => programEnd (growBad s 4 o.lun o.block) id o false
      | .erase =>
        if o.again then eraseFailed s id o 4 else modOp s id fun x => { x with again := true, st := .held, susp := 0, resume := false }
      | .read =>
        if o.again then o.cws.foldl (fun s x => busFault s (ppaOf o.lun o.block o.page x.1) x.2) (dropOp s id)
        else modOp s id fun x => { x with again := true, st := .held }
    let s := if 3 ≤ timeoutsOf x o.lun then faultLun s c p else s
    afterFlash s

/-! ## Training (R188 to R190) -/

/-- Chip enables with a fitted LUN. -/
def fittedCes (s : State) (c : Nat) : List Nat := (List.range 4).filter fun e => (cePositions e).any (lunPresent s c)
/-- Couriers of a district that train. -/
def trainingIn (s : State) (d : Nat) : Nat := ((List.range 8).filter fun i => (courier s (8 * d + i)).training.isSome).length

/-- A training begins, in full (0) or at a band entry (1), which verifies the band's settings where they are stored (R189). A result that
stands is invalid from then on (R54). -/
def trainBegin (s : State) (c w : Nat) : State :=
  let s := if bitOf (rd s (chn c 0x2C)) 31 then trig54 s (chn c 0x2C) else s
  let kind := if w = 1 && (courier s c).bands.contains s.thm.band then 1 else 0
  modCourier s c fun x => { x with training := some kind, wantTrain := none, trainBand := s.thm.band }
/-- Start or queue a training (a trigger on CHN_TRRES, R54); at most 2 of a district at one time. A courier that trains already runs the
new one next, and its trigger is that one's beginning; of a full one and a band entry that wait the full one runs. Where no chip enable
has a fitted LUN nothing is trained (R184), and the trigger's CHN_TRRES stays without VALID: the spec does not say what it gives (DESIGN
CHOICE, log entry 159). -/
def train (s : State) (c w : Nat) : State :=
  let x := courier s c
  let trig (s : State) : State := if x.training.isSome || x.wantTrain.isSome then s else trig54 s (chn c 0x2C)
  if (fittedCes s c).isEmpty then trig s
  else if x.training.isNone && x.wantTrain.isNone && trainingIn s (c / 8) < 2 then trainBegin (trig s) c w
  else modCourier (trig s) c fun x => { x with wantTrain := some (if x.wantTrain = some 0 then 0 else w) }
/-- The next courier of a district whose turn it is: of those that wait, the lowest in number (DESIGN CHOICE, log entry 163). -/
def trainNext (s : State) (d : Nat) : State :=
  if 2 ≤ trainingIn s d then s else
  match ((List.range 8).map fun i => 8 * d + i).find? fun c =>
      active s .chn c && (courier s c).wantTrain.isSome && (courier s c).training.isNone with
  | some c => trainBegin s c ((courier s c).wantTrain.getD 0)
  | none => s

/-- CHN_TRAIN.START. -/
def trainStart (s : State) (c : Nat) : State := train s c 0

/-- Entry to a temperature band (R189): stored settings are applied and verified, else a full training runs. A courier that is not ACTIVE
then does so as it is enabled. -/
def bandTrain (s : State) : State :=
  (List.range 32).foldl (fun s c => if !active s .chn c || (courier s c).reset then s else train s c 1) s
/-- A courier is enabled: it trains where it has not, or where the settings in force are not the band's (R188, R189). -/
def trainEnabled (s : State) (c : Nat) : State :=
  let x := courier s c
  if x.training.isSome || x.reset || (fittedCes s c).isEmpty || (!x.untrained && x.setBand == some s.thm.band) then s else train s c 1

/-- The result of a training or verify: TRRES, the eyes, and the LUNs of chip enables that failed. The settings are stored under the band
in which the training began; which band a training that straddles a change is of is not stated (DESIGN CHOICE, log entry 192). -/
def trainEnd (s : State) (c kind : Nat) (eyes : List (Nat × Nat)) (failed : List Nat) : State :=
  let ces := fittedCes s c
  let bad := ces.filter fun e => failed.contains e
  let res := if !bad.isEmpty then 2 else kind
  let s := (List.range 4).foldl (fun s e => match eyes[e]? with
    | some (r, w) => wr s (chn c (0x30 + 4 * e)) (r % 256 * 256 + w % 256) | none => s) s
  let gen := rdField s (chn c 0x2C) 15 0
  let band := (courier s c).trainBand
  let s := wr s (chn c 0x2C) (2 ^ 31 + res * 2 ^ 28 + band % 16 * 2 ^ 24
    + ((bad.map fun e => 2 ^ (16 + e)).foldl (· + ·) 0) + gen)
  let s := modCourier s c fun x => { x with
    training := none
    untrained := false
    setBand := some band
    bands := if x.bands.contains band then x.bands else x.bands ++ [band] }
  let s := chnCausesSet s c ((0, none) :: (if bad.isEmpty then [] else [(1, none)])
    ++ (if bad.isEmpty || bad.length != ces.length then [] else [(10, none)]))
  bad.foldl (fun s e => ((cePositions e).filter (inGeometry s c)).foldl (fun s p => faultLun s c p) s) s

/-- Is an eye of a chip enable with fitted LUNs narrower than MINEYE (R189)? -/
def narrowEye (s : State) (c : Nat) (eyes : List (Nat × Nat)) : Bool :=
  let min := rdField s (chn c 0x40) 7 0
  (fittedCes s c).any fun e => match eyes[e]? with | some (r, w) => decide (r < min ∨ w < min) | none => true

/-- TRAINING_DONE: eyes are the read and write eyes by chip enable, failed those that missed MINEYE in three attempts. -/
def trainingDone (s : State) (c : Nat) (eyes : List (Nat × Nat)) (failed : List Nat) : State :=
  match (courier s c).training with
  | none => s
  | some k =>
    if k = 1 && narrowEye s c eyes then modCourier s c fun x => { x with training := some 0 }
    else afterFlash (trainNext (trainEnd s c k eyes (if k = 1 then [] else failed)) (c / 8))

/-! ## Courier reset (R198, R481) -/

/-- Steps 1 and 2 of the reset of one courier. -/
def courierReset (s : State) (c : Nat) : State :=
  let s := updChip s fun x => { x with
    chnReset := if x.chnReset.contains c then x.chnReset else x.chnReset ++ [c]
    disabling := x.disabling.filter fun y => !(y.1 == .chn && y.2 == c) }
  let s := modCourier s c fun x => { x with reset := true, training := none, wantTrain := none, setBand := none, snaps := [], bus := none, busLast := 31 }
  let s := [0x2C, 0x30, 0x34, 0x38, 0x3C, 8, 0xC].foldl (fun s o => wr s (chn c o) 0) s
  let mine := s.flash.ops.filter fun o => lunChn o.2.lun == c
  let s := mine.foldl (fun s o => match o.2.kind with
    | .program => if o.2.st == .held then s else programEnd s o.1 o.2 false
    | .erase => modOp s o.1 fun x => { x with st := .held, susp := 0, resume := false }
    | .read => modOp s o.1 fun x => { x with st := .held, units := 0 }) s
  trainNext s (c / 8)

/-- Has the erase of a superblock's member ended otherwise than with BUS_FAULT? -/
def eraseOver (s : State) (lun block : Nat) : Bool :=
  match memberAt s lun block with
  | some (x, m) => ((nget s.map.tab.sbs x).map fun b => b.ended.any fun y => y.1 == m && y.2 != 2).getD false
  | none => false
/-- Withheld erases of a LUN that is back in service are issued again (Table 9-4). -/
def reissueErases (s : State) (lun : Nat) : State :=
  (s.map.tab.blocks.filter fun e => e.1 / 16384 == lun && e.2.st == 6).foldl (fun s e =>
    let b := e.1 % 16384
    if (s.flash.ops.any fun o => o.2.kind == .erase && o.2.lun == lun && o.2.block == b) || eraseOver s lun b then s
    else addOp s { kind := .erase, lun, block := b, cls := 4 }) s

/-- Identification of one position (R184, R185): answered as the overlay (some true), otherwise (some false), not at all. -/
def identify1 (answers : List (Nat × Bool)) (c : Nat) (s : State) (p : Nat) : State :=
  let lun := lunOf c p
  if !inGeometry s c p then orReg s (rLunFlt c) (2 ^ p) else
  match (answers.find? fun a => a.1 == p).map fun a => a.2 with
  | some true => updFlash s fun f => { f with absent := ndel f.absent lun }
  | some false => chnCauseSet (updFlash (orReg s (rLunFlt c) (2 ^ p)) fun f => { f with absent := nset f.absent lun true }) c 7 (some p)
  | none => updFlash (orReg s (rLunFlt c) (2 ^ p)) fun f => { f with absent := nset f.absent lun false }

/-- COURIER_RESET_DONE: steps 3 to 5. The courier verifies stored settings of the band, and trains in full where it holds none or
the verify found a narrow eye (verified = false; R189, R198). It trains only while fewer than 2 others of its district do. -/
def courierResetDone (s : State) (c : Nat) (answers : List (Nat × Bool)) (eyes : List (Nat × Nat)) (failedCe : List Nat)
    (verified : Bool) : State :=
  if !(courier s c).reset || 2 ≤ trainingIn s (c / 8) then s else
  let before := rd s (rLunFlt c)
  let s := (List.range 32).foldl (identify1 answers c) (wr s (rLunFlt c) 0)
  let s := if (fittedCes s c).isEmpty then s else
    let s := modCourier (trig54 s (chn c 0x2C)) c fun x => { x with trainBand := s.thm.band }
    if (courier s c).bands.contains s.thm.band && verified && !narrowEye s c eyes then trainEnd s c 1 eyes []
    else trainEnd s c 0 eyes failedCe
  let cleared := (List.range 32).filter fun p => bitOf before p && !bit32 s (rLunFlt c) p
  let s := modCourier s c fun x => { x with reset := false, rstClear := cleared.foldl (fun m p => nset m p s.clk.tb) x.rstClear }
  let s := updChip s fun x => { x with chnReset := x.chnReset.filter (· != c) }
  let s := if enabled s .chn c then setActive s .chn c true else s
  let s := cleared.foldl (fun s p => reissueErases s (lunOf c p)) s
  let lost := (List.range 32).filter fun p => bit32 s (rLunFlt c) p && inGeometry s c p
  let s := lost.foldl (fun s p => faultLun s c p) s
  afterFlash (chnCauseSet s c 8)

/-! ## Snapshots and the life clock -/

/-- CHN_SNPCMD: POP removes the oldest entry, FIRE captures one whatever ARM holds (R372, R373). -/
def snapCmd (s : State) (c v : Nat) : State :=
  let s := if bitOf v 1 then modCourier s c fun x => { x with
    snaps := x.snaps.drop 1, snapHead := if x.snaps.isEmpty then x.snapHead else (x.snapHead + 1) % 8 } else s
  if bitOf v 0 then snapCapture s c 1 none else s

/-- LIFE_CLOCK_TICK (R239): the life clock advances by one second of power-on time. -/
def lifeTick (s : State) : State :=
  if s.chip.held || !active s .map then s else updMap s fun m => { m with life := min (m.life + 1) 0xFFFFFFFF }

end Sys2Proof.Machine
end

