-- ==== Sys2Proof/Machine/Patrol.lean ====
section
/-! DEFINITION. The patrol (R282 to R288) and the owner search (R289, R290). -/

namespace Sys2Proof.Machine

def pat (off : Nat) : Nat := 0x80000 + off

/-! ## Coverage and age (R282, R284, R285) -/

/-- Rows of a member that the patrol reads. -/
def patRowsOf (b : Sb) (m : Nat) : Nat := if b.st = 1 then min (b.endRow m) b.nextRow else min (b.endRow m) b.rows
/-- Members that it reads: not on a faulted LUN nor a retired channel. -/
def patMems (s : State) (b : Sb) : List Nat :=
  (List.range b.nmem).filter fun m => !bit32 s (rLunFlt (lunChn (b.lun m))) (lunPos (b.lun m)) && !bit32 s rChRet (lunChn (b.lun m))
def patCovers (b : Sb) : Bool := b.st == 1 || b.st == 2 || b.st == 3
/-- W: the page groups covered. -/
def patWritten (s : State) : Nat :=
  sumOf (s.map.tab.sbs.map fun e => if patCovers e.2 then sumOf ((patMems s e.2).map (patRowsOf e.2)) else 0)

def patPeriod (s : State) : Nat := rdField s (pat 0x10) 6 0 * 86400
def patEff (s : State) (x : Nat) : Nat := s.pat.tage - (ngetD s.pat.tab x (0, 0, false, false)).1
/-- The superblocks with something to read. -/
def patCands (s : State) : List (Nat × Sb) :=
  s.map.tab.sbs.filter fun e => patCovers e.2 && (patMems s e.2).any fun m => 0 < patRowsOf e.2 m
/-- The largest eff (PAT_OLDEST). -/
def patOldest (s : State) : Nat := (patCands s).foldl (fun a e => max a (patEff s e.1)) 0
/-- The score of R285. -/
def patScore (s : State) (x : Nat) (b : Sb) : Nat :=
  let e := ngetD s.pat.tab x (0, 0, false, false)
  if e.2.2.1 then 2 ^ 32 - 1 else
  let reads := (List.range b.nmem).foldl (fun a m => max a (blkGet s.map.tab (blkKey (b.lun m) (b.block m))).reads) 0
  let dist := min (reads * 65536 / max (rd s 0x30094) 1) 65536
  patEff s x + patPeriod s * rdField s (pat 0x1C) 7 0 * dist / (16 * 65536)

/-- May the patrol read (Table 11-4)? -/
def patOn (s : State) : Bool := running s .pat && s.pwr.ps < 3 && s.map.chip != 4
def catchupOn (s : State) : Bool := bitOf (rd s (Reg.sts .pat)) 16
/-- A catch-up lasts while any superblock has eff ≥ 7/8 of the period, in every power state (R286, R404). -/
def catchup (s : State) : State :=
  let on : Bool := running s .pat && decide (0 < patPeriod s) && ((patCands s).any fun e => decide (7 * patPeriod s ≤ 8 * patEff s e.1))
  if on && !catchupOn s then setCause (orReg s (Reg.sts .pat) (2 ^ 16)) (pat 0x54) 3 98
  else if on then s else wrField s (Reg.sts .pat) 16 16 0

/-- The highest score, ties to the lowest SBX, becomes the visit (R285). -/
def choose (s : State) : State :=
  let s := catchup s
  if !patOn s || s.pat.visit.isSome then s else
  let best := (patCands s).foldl (fun (a : Option (Nat × Nat)) e =>
    let v := patScore s e.1 e.2
    match a with | some (_, w) => if w < v then some (e.1, v) else a | none => some (e.1, v)) none
  match best with
  | none => s
  | some (x, _) => updPat s fun p =>
    let e := ngetD p.tab x (0, 0, false, false)
    { p with visit := some x, spot := none, redo := [], tab := nset p.tab x (e.1, e.2.1, e.2.2.1, true) }

/-! ## Reads (R283, R286, R288) -/

/-- The page groups of a visit at or after a row and a member, row by row. -/
def patFrom (s : State) (b : Sb) (m r : Nat) : Option (Nat × Nat) :=
  let rows := (patMems s b).foldl (fun a x => max a (patRowsOf b x)) 0
  ((List.range (rows - r)).flatMap fun i => (patMems s b).map fun x => (x, r + i)).find? fun y =>
    y.2 < patRowsOf b y.1 && (r < y.2 || m ≤ y.1)
/-- Does the patrol read a page group: a member's row of a superblock that R282 covers? -/
def patReads (s : State) (b : Sb) (m r : Nat) : Bool := patCovers b && (patMems s b).contains m && decide (r < patRowsOf b m)
/-- Where a visit stands: the next page group of its rows, or, after the last, the first of those to be read again. -/
def patSpot (s : State) (x : Nat) (b : Sb) : Option (Nat × Nat) :=
  let y := s.pat.spot.getD (0, (ngetD s.pat.tab x (0, 0, false, false)).2.1)
  if !patCovers b then none else
  match patFrom s b y.1 y.2 with | some z => some z | none => s.pat.redo.find? fun z => patReads s b z.1 z.2
/-- The inspected page group that is read next, where one can be read. -/
def inspPick (s : State) : Option (Nat × Nat × Nat) :=
  s.pat.insp.findSome? fun p => (sbxOf s.map.tab p).bind fun x => (nget s.map.tab.sbs x).bind fun b =>
    (b.memOf p).bind fun m => if patReads s b m (ppaPage p) then some (x, m, ppaPage p) else none
/-- The page group that the patrol reads next: an inspected one before any of the visit (R288). -/
def patPick (s : State) : Option (Nat × Nat × Nat) :=
  match inspPick s with
  | some y => some y
  | none => s.pat.visit.bind fun x => (nget s.map.tab.sbs x).bind fun b => (patSpot s x b).map fun y => (x, y)
/-- The visit ends: its superblock's LASTTAGE is now, and the next is chosen (Table 11-2, R285). -/
def endVisit (s : State) (x : Nat) : State :=
  choose (updPat s fun p => { p with visit := none, spot := none, redo := [], tab := nset p.tab x (p.tage, 0, false, false) })
/-- A visit that has nothing left to read, as its superblock or its members are no longer covered (R282), ends. -/
def visitOver (s : State) : State :=
  match s.pat.visit with
  | none => s
  | some x => if (((nget s.map.tab.sbs x).bind (patSpot s x)).isNone && s.pat.cur.isNone) then endVisit s x else s
/-- The patrol issues its next read, and pins the superblock while it reads (R283). -/
def patIssue (s : State) : State :=
  if !patOn s || s.pat.cur.isSome then s else
  let s := visitOver s
  match patPick s with
  | none => s
  | some (x, m, r) => match nget s.map.tab.sbs x with
    | none => s
    | some b =>
      let pg := b.page m r
      let s := updPat (pin s x) fun p => { p with cur := some { sbx := x, mem := m, row := r, pg, pend := List.range 16 } }
      pump (addReads s 2 ((List.range 16).map fun i => (pg + i, Req.patrol)))

/-- Full rate: a catch-up, the collection window, or an inspection that waits and can be read (Table 11-4, R288). -/
def patFull (s : State) : Bool := catchupOn s || insideWin s || (inspPick s).isSome
def patGo (s : State) : State := if patFull s then patIssue s else s
/-- PATROL_RESCAN (R285). -/
def rescan (s : State) : State := patGo (choose (visitOver s))
/-- PATROL_FLOOR_PACE (R286): outside full rate, the pacing interval ends and one read is issued. -/
def floorPace (s : State) : State := if patFull s then s else patIssue s

/-- PATROL_TAGE_TICK (R284): the thermal age advances by PAT_TEMPF/16 of a second. At full rate the patrol that is idle reads on: an
inspection begins within a second (R288). -/
def tageTick (s : State) : State :=
  let f := rd s (pat 0x18)
  let k := if s.thm.band ≤ 1 then bitsOf f 7 0 else bitsOf f (8 * s.thm.band - 1) (8 * (s.thm.band - 1))
  let n := s.pat.tageRes + k
  patGo (catchup (updPat s fun p => { p with tage := p.tage + n / 16, tageRes := n % 16 }))

/-! ## The verdict (Tables 11-1 and 11-3) -/

/-- The page groups that refresh for one read: itself, or the data members of a parity member's row. -/
def verdictPages (b : Sb) (m r : Nat) : List Nat :=
  if b.isParity m then (b.dataMems.filter fun d => r < b.endRow d).map fun d => b.page d r else [b.page m r]
def refreshPages (s : State) (ps : List Nat) : State := ps.foldl refreshAdd s

/-- The verdict of a page group read with status OK, counted once, under its worst codeword. Where slots ended at step 7 their ladders
have written the dead-letter entries, of data members only (R236, R479), and the other codewords still decide refresh. -/
def verdict (s : State) (b : Sb) (c : PatRead) : State :=
  let pgs := verdictPages b c.mem c.row
  let dead := !c.lost.isEmpty
  let s := if dead then satAdd (setCause s (pat 0x54) 2 99) (pat 0x4C) 31 0 c.lost.length else s
  let s := if dead && b.isParity c.mem then refreshPages s pgs else s
  let count (s : State) (off : Nat) : State := if dead then s else satAdd s (pat off) 31 0 1
  if 4 ≤ c.worst then
    let s := refreshPages s pgs
    setCause (if 5 ≤ c.worst then count s 0x48 else s) (pat 0x54) 1 99
  else if 1 < c.worst || rdField s (pat 0x14) 9 0 < c.corr then count (refreshPages s pgs) 0x44
  else s

/-- A page group of the visit is done: RESUME moves on, and after the last the visit ends (Table 11-2). -/
def visitStep (s : State) (c : PatRead) (b : Sb) : State :=
  if s.pat.visit != some c.sbx || patSpot s c.sbx b != some (c.mem, c.row) then s else
  let e := ngetD s.pat.tab c.sbx (0, 0, false, false)
  let redo := (s.pat.redo.filter (· != (c.mem, c.row))) ++ (if c.status = 1 then [(c.mem, c.row)] else [])
  let last : Bool := match s.pat.spot with | some y => (patFrom s b y.1 y.2).isNone | none => false
  match if last then none else patFrom s b (c.mem + 1) c.row with
  | some y => updPat s fun p => { p with spot := some y, redo, tab := nset p.tab c.sbx (e.1, y.2, e.2.2.1, true) }
  | none =>
    if !redo.any fun z => patReads s b z.1 z.2 then endVisit s c.sbx
    else updPat s fun p => { p with spot := some (0, b.rows), redo }

/-- PATROL_READ_DONE (R283, R287, R288): the page group's last codeword has ended. It reports what the reads of the group found: the
status, the worst step, the most corrected bits and the lost slots; a report of anything else names nothing (log entries 2, 124). -/
def patrolReadDone (s : State) (x m r : Nat) (found : Nat × Nat × Nat × List Nat) : State :=
  match s.pat.cur with
  | none => s
  | some c =>
    if c.sbx != x || c.mem != m || c.row != r || !c.pend.isEmpty || (c.status, c.worst, c.corr, c.lost) != found then s else
    let s := unpin (updPat s fun p => { p with cur := none, insp := if c.status = 1 then p.insp else p.insp.filter (· != c.pg) }) x
    match nget s.map.tab.sbs x with
    | none => s
    | some b =>
      let s := if c.status = 2 then setCause s (pat 0x54) 5 98 else if c.status = 1 then s else verdict s b c
      patGo (visitStep s c b)

/-! ## Owner search (R289, R290) -/

/-- PAT_OSCMD: the search of COUNT list entries starts. -/
def ownerSearch (s : State) (count : Nat) (list : List (Ppa × Bool)) : State :=
  let s := trig54 s (pat 0x64)
  updPat (orReg s (Reg.sts .pat) (2 ^ 18)) fun p => { p with search := some (list.take count) }

def ppaNat (p : Ppa) : Nat := ppaOf p.lun p.block p.page p.slot
/-- Does the list name a slot, or a slot of a page group? -/
def listsSlot (l : List (Ppa × Bool)) (p : Nat) : Bool := l.any fun e => ppaNat e.1 == p || (e.2 && pgBase (ppaNat e.1) == pgBase p)
def listsPage (l : List (Ppa × Bool)) (p : Nat) : Bool := l.any fun e => pgBase (ppaNat e.1) == p
def listsWhole (l : List (Ppa × Bool)) (p : Nat) : Bool := l.any fun e => e.2 && pgBase (ppaNat e.1) == pgBase p

/-- The owners found: NSID, parcel, letter (0xFF for a parcel pointer) and the matching PPA, at most 1,024. -/
def owners (t : MapTab) (l : List (Ppa × Bool)) : List (Nat × Nat × Nat × Nat) :=
  (t.ns.flatMap fun n => n.2.parcels.flatMap fun e => match e.2 with
    | .ptr x => if listsPage l x then [(n.1, e.1, 0xFF, x)] else []
    | .fine b => (match nget t.bundles b with
      | some u => (List.range 16).filterMap fun i => match u.ents.getD i .gone with
        | .slot p => if listsSlot l p then some (n.1, e.1, i, p) else none
        | .gone => none | .dead _ => none | .odd _ => none
      | none => [])
    | .unmapped => [] | .dead _ => []).take 1024

/-- The dead-letter queue entries between TAIL and HEAD without a letter context: cause, REQ and PPA. -/
def dlqOpen (s : State) : List (Nat × Nat × Nat) :=
  let h := rdField s (str 0x28) 5 0
  let t := rdField s (str 0x2C) 5 0
  (List.range ((h + 64 - t) % 64)).filterMap fun i =>
    let q := (t + i) % 64
    if bitOf (rd s (str (0x600 + 8 * q))) 63 then none
    else let v := rd s (str (0x400 + 8 * q)); some (bitsOf v 63 56, bitsOf v 55 48, bitsOf v 39 0)

/-- The lost slots that a search answers for, with CAUSE and REQ: those that the queue lists without a context and the search lists; all of
a page group that it lists as WHOLE. -/
def lostSlots (s : State) (l : List (Ppa × Bool)) : List (Nat × Nat × Nat) :=
  ((dlqOpen s).filter fun d => listsSlot l d.2.2).foldl (fun (a : List (Nat × Nat × Nat)) d =>
    let ps := if listsWhole l d.2.2 then (List.range 16).map fun i => pgBase d.2.2 + i else [d.2.2]
    a ++ ((ps.filter fun p => !a.any fun y => y.2.2 == p).map fun p => (d.1, d.2.1, p))) []
/-- The letters of a namespace lost in a page group are marked: its letter entries of lost slots, and the lost letters of a parcel pointer, as
a parcel where all 16 are lost (R289, R290). -/
def markFound (s : State) (rs : List (Nat × Nat × Nat × Nat)) (lost : List (Nat × Nat × Nat)) (g n : Nat) : State :=
  match lost.filter fun d => pgBase d.2.2 == g with
  | [] => s
  | d :: ds =>
    let ps := (d :: ds).map fun d => d.2.2
    let ls := (rs.filter fun r => r.1 == n && r.2.2.1 != 0xFF && ps.contains r.2.2.2).map fun r => (16 * r.2.1 + r.2.2.1, r.2.2.2)
    let s := if ls.isEmpty then s else markDead s n ls false d.1 d.2.1
    (rs.filter fun r => r.1 == n && r.2.2.1 == 0xFF && r.2.2.2 == g).foldl
      (fun s r => markDead s n (ps.map fun p => (16 * r.2.1 + p % 16, p)) (ps.length == 16) d.1 d.2.1) s

/-- OWNER_SEARCH_DONE: the results after the list, PAT_OSRES and source 97; then the marking of the letters of lost slots
that the queue lists without a context (R290). -/
def ownerSearchDone (s : State) : State :=
  match s.pat.search with
  | none => s
  | some l =>
    let rs := owners s.map.tab l
    let base := rdField s (pat 0x58) 35 6 * 64 + 512
    let bytes := rs.flatMap fun r => le 6 r.2.1 ++ le 1 r.1 ++ le 1 r.2.2.1 ++ le 5 r.2.2.2 ++ le 3 0
    let s := directWrite s base bytes
    let s := wrField (wrField s (pat 0x64) 26 16 rs.length) (pat 0x64) 31 31 1
    let s := wrField (updPat s fun p => { p with search := none }) (Reg.sts .pat) 18 18 0
    let s := setCause s (pat 0x54) 0 97
    let s := corruptAny s (s.map.tab.ns.flatMap fun n => n.2.parcels.flatMap fun e => (List.range 16).map fun i => (n.1, 16 * e.1 + i))
    let lost := lostSlots s l
    (lost.map fun d => pgBase d.2.2).dedup.foldl (fun s g => (rs.map fun r => r.1).dedup.foldl (fun s n => markFound s rs lost g n) s) s

end Sys2Proof.Machine
end

