-- ==== Sys2Proof/Machine/Scrub.lean ====
section
/-! DEFINITION. The end of a scrub with the host's Scrub Range (R310, R424), and of a map segment rebuild (R278, R308). -/

namespace Sys2Proof.Machine

/-! ## Admin commands that firmware runs -/

/-- Return bytes to the host. -/
def replyBytes (s : State) (q : Sqe) (b : List Byte) : State := emit s (.reply q.port q.cid b)
/-- Return a structure of a size to the host, from its fields of (offset, length, value). -/
def reply (s : State) (q : Sqe) (size : Nat) (fields : List (Nat × Nat × Nat)) : State := replyBytes s q (pageOf size fields)

/-! ## Scrubs -/

/-- Fitted bytes of a scrubbed memory: DRAM, both JRAM dies, or a unit whose size the spec gives (SRAM rows otherwise free). -/
def scrubFits (s : State) (mem base len : Nat) : Bool :=
  if mem = 0 then base + len ≤ s.boot.dramGib * 2 ^ 30 else if mem = 1 then base + len ≤ 2 ^ 27 else base + len ≤ 2 ^ 40

/-- The host Scrub Range that waits is started once no scrub runs. -/
def scrubNext (s : State) : State :=
  match s.mem.scrubCmd, s.mem.scrub with
  | some id, none => (match getCmd s id with
    | some c => (match c.body with
      | .scrubRange _ mem unit _ base len => modCmd (scrubStart s mem unit base len) id fun c => { c with phase := 1 }
      | _ => s)
    | none => updMem s fun m => { m with scrubCmd := none })
  | _, _ => s

/-- SCRUB_RANGE (R424): checks, then the scrub once any running one has ended. -/
def scrubCommand (s : State) (body : Instr) (q : Sqe) (mem unit rate base len : Nat) : State :=
  if !canFetchAdm s q then s else
  let s := takeAdmin s q.port
  if q.nsid != 0 then complete s q stInvalidField
  else if 3 ≤ mem || 8 < unit || 4000 < rate || len = 0 || !scrubFits s mem base len then complete s q stInvalidField
  else if s.mem.scrubCmd.isSome then complete s q stSequence
  else
    let id := s.srt.next
    scrubNext (updMem (firmwareCmd s body q 0) fun m => { m with scrubCmd := some id })

/-- An error that a scrub meets in the cache's data (unit 0) or tags (unit 1), in the line of a way and set: which line a row holds
is not stated (a free value, log entry 5). Of a tag entry, one copy or both are lost (Table 6-5). -/
def scrubCache (s : State) (unit : Nat) (corrected : Bool) : State :=
  let (s, way) := freshBelow s (phcWays s)
  let (s, set) := freshBelow s (phcSets s)
  let seg := (nget s.phc.lines (slotKey set way)).bind fun x => unitSeg s x.line
  if corrected then wayError s way set
  else if unit = 1 then
    let (s, both) := freshBelow s 2
    phcError s set way none (if both = 1 then .bothTags true else .oneTag)
  else phcError s set way seg .dataUncorrected

/-- An uncorrectable error in a seal buffer (Table 8-8): SEAL_ERR, and the superblock closes early with nothing of the row kept. Which
buffer the row belongs to is not stated (a free value, log entry 5). -/
def sealError (s : State) : State :=
  let (s, i) := freshBelow s (max s.map.opens.length 1)
  match s.map.opens[i]? with
  | some (k, o) =>
    let s := modOpen s k fun o => { o with lost := true }
    (match nget s.map.tab.sbs o.sbx with
    | some b => turn (closeEarly s k [b.pIdx, b.qIdx] 4)
    | none => s)
  | none => strCauseSet s 4

/-- An uncorrectable error in a district's staging SRAM: the codeword read that it held is issued again at the same step (Table 12-3).
Whether it held one, and which of the ladders' reads, is a free value (log entry 5). -/
def stagingError (s : State) (d : Nat) : State :=
  let l := s.flash.lads.filter fun l => lunChn (ppaLun l.2.ppa) / 8 == d && (l.2.step == 3 || l.2.step == 4) && !l.2.dec
    && !(s.flash.ops.any fun o => o.2.cws.any fun c => c.2.contains (.ladder l.1))
  let (s, i) := freshBelow s (l.length + 1)
  match l[i]? with
  | some (id, _) => pump (addStepRead (modLad s id fun l => { l with soft := none }) id)
  | none => s

/-- An error in the SRAM of the processor complex stops a core, whose watchdog then expires; which one is a free value. -/
def coreError (s : State) : State :=
  let (s, k) := freshBelow s 10
  updChip s fun c => { c with coreStop := if c.coreStop.contains k then c.coreStop else c.coreStop ++ [k] }

/-- The outcome of one unit's read, through the decoder that serves the clients (R310); a JRAM unit known uncorrectable stays so. -/
def scrubReport (s : State) (mem : Nat) (x : Nat × UnitRead) : UnitReport :=
  if mem = 0 then effective s (x.1 / 64) x.2
  else if mem = 1 then (if s.jrc.hurt.contains (x.1 / 64 * 64) then .ue else jramReport x.2)
  else sramReport x.2

/-- What an uncorrectable unit outside DRAM does (Tables 12-3 and 6-5). -/
def scrubLost (s : State) (mem unit addr : Nat) : State :=
  if mem = 1 then
    let u := addr / 64 * 64
    let s := jramUe (updJrc s fun j => { j with hurt := if j.hurt.contains u then j.hurt else j.hurt ++ [u] })
    if inRecorder u then recorderLost s (recorderOff u) else s
  else match unit with
    | 0 => scrubCache s 0 false
    | 1 => scrubCache s 1 false
    | 2 => sealError s
    | 3 => coreError s
    | 8 => trackerFault s
    | _ => stagingError s (unit - 4)

/-- One unit's read: its report has the effect that it has for any client. -/
def scrubUnit (mem unit : Nat) (s : State) (x : Nat × UnitRead) : State :=
  if mem = 0 then dramRead s (x.1 / 64) x.2
  else match scrubReport s mem x with
    | .corrected _ => offender (if mem = 2 && unit ≤ 1 then scrubCache s unit true else s) mem unit x.1
    | .clean => s
    | .uninit => s
    | .ue => scrubLost s mem unit x.1
    | .poison => scrubLost s mem unit x.1

/-- The units that a scrub reads, each with what the cells add to its read (clean where found does not name it). -/
def scrubReads (mem lo hi : Nat) (found : List (Nat × UnitRead)) : List (Nat × UnitRead) :=
  let u := if mem = 2 then 8 else 64
  (List.range ((hi - lo) / u)).map fun i => (lo + u * i, ((found.find? fun x => x.1 / u == lo / u + i).map fun x => x.2).getD {})

/-- Is a report a correction, other than one that an erased position accounts for (R299)? -/
def countsCorr (s : State) (mem : Nat) (x : Nat × UnitRead) : Bool :=
  match scrubReport s mem x with
  | .corrected p => !(mem == 0 && posErased s (Config.dramRank (x.1 / 64) % 4) p)
  | .clean => false | .ue => false | .poison => false | .uninit => false

/-- The summary registers of a scrub (R310 steps 3 and 4). -/
def scrubSummary (s : State) (mem unit : Nat) (l : List (Nat × UnitRead)) : State :=
  let bad (x : Nat × UnitRead) : Bool := isBad (scrubReport s mem x)
  let isUn (x : Nat × UnitRead) : Bool := scrubReport s mem x == .uninit
  let hits := l.filter fun x => countsCorr s mem x && s.mem.offend.any (sameOff mem unit x.1)
  let first := match l.find? bad, l.find? (countsCorr s mem) with
    | some x, _ => 2 ^ 63 + 2 ^ 62 + x.1 | none, some x => 2 ^ 63 + x.1 | none, none => 0
  let s := wr s (scb 0x30) (l.filter (countsCorr s mem)).length
  let s := wr s (scb 0x34) (l.filter bad).length
  let s := wr s (scb 0x44) (l.filter isUn).length
  wr (wr s (scb 0x40) hits.length) (scb 0x38) first

/-- The 64-byte result of Scrub Range (Table 17-10). -/
def scrubResult (s : State) : List (Nat × Nat × Nat) :=
  [(0, 4, rd s (scb 0x2C)), (4, 4, rd s (scb 0x30)), (8, 4, rd s (scb 0x34)), (12, 4, rd s (scb 0x44)), (16, 4, rd s (scb 0x40)),
   (24, 8, rd s (scb 0x38))]

/-- SCRUB_DONE: found are what the cells add to the units' reads, where they add something. Narrow writes that the merge buffer holds
of the range go first (R303). A stopped scrub has read up to a unit that is timing (a free value, log entry 186). -/
def scrubDone (s : State) (found : List (Nat × UnitRead)) : State :=
  match s.mem.scrub with
  | none => s
  | some (mem, unit, lo, hi) =>
    let all := scrubReads mem lo hi found
    let (s, n) := if s.mem.scrubStop then freshBelow s all.length else (s, all.length - 1)
    let l := all.take (n + 1)
    let held := (s.mem.merge.map fun e => e.line).filter fun u => l.any fun x => x.1 / 64 == u
    let s := if mem = 0 then held.foldl flushLine s else s
    let s := scrubSummary s mem unit l
    let s := l.foldl (scrubUnit mem unit) s
    let s := wrField s (scb 0x2C) 30 30 (if s.mem.scrubStop then 1 else 0)
    let s := wrField s (scb 0x2C) 31 31 1
    let s := raise (updMem s fun m => { m with scrub := none, scrubStop := false }) 69
    match s.mem.scrubCmd.bind fun id => (getCmd s id).map fun c => (id, c) with
    | some (id, c) =>
      if c.phase = 0 then scrubNext s else
      let s := if c.mute then s else reply s c.q 64 (scrubResult s)
      endCmd (updMem s fun m => { m with scrubCmd := none }) id stOk
    | none => s

/-! ## Segment rebuilds -/

/-- FAILED (R278), which also ends a sanitize (R418). -/
def enterFailed (s : State) : State :=
  let g := (rdField s (jrc 0x58) 15 0 + 1) % 65536
  sanFail (setChip (wr s (jrc 0x58) (2 ^ 31 + 3 * 2 ^ 28 + rdField s (jrc 0x58) 26 24 * 2 ^ 24 + g)) 4)

/-- Is a line of DRAM one of a segment's? -/
def inSeg (s : State) (seg line : Nat) : Bool := unitSeg s line == some seg
/-- What the cache, the merge buffer and the poison marks held of the segment is discarded: the load writes it whole (R308 steps 2 and
3). -/
def segDiscard (s : State) (seg : Nat) : State :=
  let s := updPhc s fun p => { p with
    lines := p.lines.filter fun x => !inSeg s seg x.2.line, evict := p.evict.filter fun x => !inSeg s seg x.line }
  updMem s fun m => { m with
    merge := m.merge.filter fun e => !inSeg s seg e.line, poisoned := m.poisoned.filter fun u => !inSeg s seg u }
/-- READS and FLAGS of the blocks of a segment, from the checkpoint (R309). -/
def blkReload (r : Root) (i : Nat) (t : MapTab) : MapTab :=
  let ks := ((t.blocks.map fun e => e.1) ++ r.tab.blocks.map fun e => e.1).dedup.filter fun k => 16 * k / 2 ^ 22 == i
  ks.foldl (fun t k => blkSet t k { blkGet t k with reads := (blkGet r.tab k).reads, refr := (blkGet r.tab k).refr }) t
/-- A segment of the threshold table, from the checkpoint with CONF 0 (R309): CONF is the low five bits of an entry's last byte. -/
def ttReload (s : State) (r : Root) (i : Nat) : State :=
  let base := ttBase s 0
  let lo := i * 2 ^ 22
  let here (a : Nat) : Bool := lo ≤ a && a < lo + 2 ^ 22
  let clean := s.dram.filter fun e => !(base ≤ e.1 && here (e.1 - base))
  { s with dram := (r.ttab.filter fun e => here e.1).foldl (fun d e =>
      memWrite 0 d (base + e.1) (if e.1 % 16 = 15 then e.2 &&& 0xE0 else e.2)) clean }
/-- What a rebuild leaves of a segment (R308, R309). The parcel map, the bundle pool, the descriptor table, the namespace table, and
ERASES and STATE of blocks come out of the journal as they were; READS, FLAGS and the threshold table come from the committed root; VCOUNT
of a segment's superblocks is recounted by the sweep that MAP_RECOUNT_DONE ends. -/
def segReload (s : State) (seg : Nat) : State :=
  let s := segDiscard s seg
  let r := (newestRoot s.jrc).getD { bytes := [] }
  let i := seg % 2 ^ 28
  match seg / 2 ^ 28 with
  | 3 => updTab s (blkReload r i)
  | 4 => updMap s fun m => { m with
      recount := (m.recount ++ ((m.tab.sbs.map fun e => e.1).filter fun x => 16 * x / 2 ^ 22 == i)).dedup }
  | 5 => ttReload s r i
  | _ => s

/-- SEGMENT_REBUILD_DONE (R308) of one of the four rebuilds that run: the hold ends and held groups are applied; an unreadable
segment leads to FAILED. An uncorrectable error in the segment while it is rebuilt begins its rebuild again, so that this is the end of
one that met none (DEDUCED, log entry 195). -/
def segmentDone (s : State) (seg : Nat) (readable : Bool) : State :=
  if !(s.phc.lost.take 4).contains seg then s else
  if !readable then enterFailed s else
  let s := segReload s seg
  afterApply (drainApply (updPhc s fun p => { p with lost := p.lost.filter (· != seg) }))

end Sys2Proof.Machine
end

