-- ==== Sys2Proof/Machine/Power.lean ====
section
/-! DEFINITION. Resets (R444 to R446), the power-fail sequence with its seal dump (R269 to R272), thermal shutdown (R397,
R398), the power states (R401 to R407) and the latency tolerance (R406). -/

namespace Sys2Proof.Machine

/-! ## The seal dump (R271, R272) -/

/-- A seal dump's header of 64 bytes, with its CRC-32C. -/
def dumpHead (dseq dgseq openMap reason bodyCrc : Nat) : List Byte :=
  let h (crc : Nat) : List Byte := padTo 64 (le 4 0x44554D50 ++ le 4 crc ++ le 8 dseq ++ le 8 dgseq ++ le 4 openMap ++ le 1 reason ++ le 3 0 ++ le 4 bodyCrc)
  h (crc32c (h 0))
def Dump.dseq (d : Dump) : Nat := fieldAt d.head 8 8
def Dump.dgseq (d : Dump) : Nat := fieldAt d.head 16 8
def Dump.reason (d : Dump) : Nat := fieldAt d.head 28 1
/-- Members as bits. -/
def rowMap (ms : List Nat) : Nat := ms.dedup.foldl (fun v m => v + 2 ^ m) 0
/-- The record of an open superblock: its 1,344-byte descriptor, FOLDMAP, DONEMAP and SBX. -/
def dumpRecord (o : OpenSb) (b : Sb) : List Byte :=
  let md (acc : NMap Payload) : List Byte := (List.range 16).flatMap fun i => le 32 ((ngetD acc i 0).toNat / 2 ^ 32768)
  b.bytes ++ md o.accP ++ md o.accQ ++ le 4 (rowMap o.folded) ++ le 4 (rowMap o.done) ++ le 4 o.sbx
/-- Its seal buffer: the P page group's data, then Q's (log entry 167). -/
def sealBuffer (o : OpenSb) : List Byte :=
  let data (acc : NMap Payload) : List Byte := (List.range 16).flatMap fun i => le 4096 ((ngetD acc i 0).toNat % 2 ^ 32768)
  data o.accP ++ data o.accQ
/-- The bytes that BODYCRC covers, in ascending order. -/
def dumpBody (sbs : NMap (OpenSb × Sb)) : List Byte :=
  (sbs.flatMap fun e => dumpRecord e.2.1 e.2.2) ++ sbs.flatMap fun e => sealBuffer e.2.1
/-- The die offset of a dump slot (R258). -/
def dumpOff (slot1 : Bool) : Nat := 0x2100000 + if slot1 then 0x200000 else 0
/-- Where a dump's parts lie in its slot, each with its bytes (R271): the header, the record of superblock k at 0x1000 + 2,048k and its
buffer at 0x1_0000 + 0x2_0000k. -/
def Dump.parts (d : Dump) : List (Nat × List Byte) :=
  (0, d.head) :: (d.sbs.flatMap fun e => [(0x1000 + 2048 * e.1, dumpRecord e.2.1 e.2.2), (0x10000 + 0x20000 * e.1, sealBuffer e.2.1)])
/-- Byte d of the slot that a dump was written to; none where the dump wrote none. -/
def Dump.byte (d : Dump) (a : Nat) : Option Byte :=
  (d.parts.find? fun p => p.1 ≤ a && a < p.1 + p.2.length).bind fun p => p.2[a - p.1]?
/-- Where its parts lie, by offset and length. -/
def Dump.spans (d : Dump) : List (Nat × Nat) :=
  (0, 64) :: (d.sbs.flatMap fun e => [(0x1000 + 2048 * e.1, 1356), (0x10000 + 0x20000 * e.1, 0x20000)])
/-- Does a JRAM unit hold bytes that a dump occupies (R258)? -/
def dumpHolds (slot1 : Bool) (d : Dump) (a : Nat) : Bool :=
  let base := dumpOff slot1
  base ≤ a % 2 ^ 26 && a % 2 ^ 26 < base + 0x200000 && d.spans.any fun x => ilv base a < x.1 + x.2 && x.1 < ilv base a + 64
/-- A dump is valid: MAGIC, the header's CRC and BODYCRC are right, and every byte of it is readable. -/
def dumpValid (j : Jrc) (slot1 : Bool) (d : Dump) : Bool :=
  fieldAt d.head 0 4 == 0x44554D50 && crcOver d.head 4 4 == fieldAt d.head 4 4 && !(j.hurt.any (dumpHolds slot1 d))
    && crc32c (dumpBody d.sbs) == fieldAt d.head 32 4
/-- The newest valid dump. -/
def newestDump (j : Jrc) : Option (Bool × Dump) :=
  match j.dump0.filter (dumpValid j false), j.dump1.filter (dumpValid j true) with
  | some a, some b => if a.dseq < b.dseq then some (true, b) else some (false, a)
  | some a, none => some (false, a)
  | none, some b => some (true, b)
  | none, none => none

/-- Every open superblock that is present, as the dump records it. -/
def dumpSbs (s : State) : NMap (OpenSb × Sb) :=
  s.map.opens.filterMap fun e => (nget s.map.tab.sbs e.2.sbx).map fun b => (e.1, (e.2, b))

/-- Write a seal dump into the slot that does not hold the newest; JRC_DUMPRES and source 62 (Tables 10-13 and 10-17). -/
def sealDump (s : State) (reason : Nat) : State :=
  let old := newestDump s.jrc
  let slot1 : Bool := match old with | some (x, _) => !x | none => false
  let sbs := dumpSbs s
  let d : Dump := { head := dumpHead (((old.map fun x => x.2.dseq).getD 0) + 1) s.jrc.gseq (rowMap (sbs.map fun e => e.1)) reason (crc32c (dumpBody sbs)), sbs }
  let s := updJrc s fun j => { j with
    hurt := j.hurt.filter fun a => !dumpHolds slot1 d a
    dump0 := if slot1 then j.dump0 else some d, dump1 := if slot1 then some d else j.dump1 }
  let s := updPwr s fun p => { p with dumpAt := some s.clk.tb }
  let g := (rdField s (jrc 0x54) 15 0 + 1) % 65536
  let s := wr s (jrc 0x54) (2 ^ 31 + (if slot1 then 2 ^ 29 else 0) + reason * 2 ^ 24 + sbs.length * 2 ^ 16 + g)
  raise (orReg s (jrc 0x50) (2 ^ 6)) 62

/-- The restore of the present superblocks from the newest dump: JRC_DUMPRES and source 62. -/
def restoreDone (s : State) : State :=
  match newestDump s.jrc with
  | none => s
  | some (slot1, d) =>
    let g := (rdField s (jrc 0x54) 15 0 + 1) % 65536
    let s := wr s (jrc 0x54) (2 ^ 31 + 2 ^ 30 + (if slot1 then 2 ^ 29 else 0) + d.reason * 2 ^ 24 + d.sbs.length * 2 ^ 16 + g)
    raise (orReg s (jrc 0x50) (2 ^ 6)) 62

/-! ## Resets (Table 18-8) -/

/-- The bits of a register that a field keeps. -/
def keepFields (p : Fld → Bool) (x : RegAt) (b : Blk) (v : Nat) : Nat :=
  x.row.flds.foldl (fun r f => if p f then setBits r f.hi f.lo (bitsOf v f.hi f.lo) else r) (x.resetVal b)

/-- A register that no reset clears by itself: the straps, which a cold reset samples. -/
def boardReg (a : Nat) : Bool := a == 0xE0018

/-- One stored register through a reset of the islands outside the always-on one. -/
def coreReg (warm : Bool) (e : Nat × Dword) : Option (Nat × Dword) :=
  if boardReg e.1 then some e else
  match locate e.1 with
  | none => none
  | some (b, u, o) =>
    if b.alwaysOn then some e else
    if !warm then none else
    match findReg b u o with
    | none => none
    | some x =>
      if x.row.flds.any fun f => f.acc == .rws then
        some (e.1, BitVec.ofNat 64 (keepFields (fun f => f.acc == .rws) x b e.2.toNat))
      else none

/-- A write operation on the NOR that a reset cuts short leaves its target invalid (R356, R438, R457). -/
def norCut (s : State) : State :=
  match s.boot.op with
  | some o => if o.refused || o.op = 1 then s else norPut s o.addr (List.replicate (min 4096 o.data.length) 0xFF)
  | none => s

/-- Every island outside the always-on one is reset (R446). What JRAM, the Config NOR, the flash system area, the fuses and
the last-gasp store hold is kept. -/
def coreReset (s : State) (warm : Bool) : State :=
  let s := rootCut (norCut s)
  let port (x : PortSt) : PortSt := { perst := x.perst }
  { s with
    regs := s.regs.filterMap (coreReg warm)
    clk := { s.clk with wd := [] }
    portA := port s.portA
    portB := port s.portB
    evr := { circ := s.evr.circ, found := s.evr.found, lg := s.evr.lg, lgSeq := s.evr.lgSeq, lgDone := s.evr.lgDone,
             flashLog := s.evr.flashLog, flashOnly := s.evr.flashOnly }
    ring := { s.ring with
      schedWait := none, txImage := [], rxImage := [], haveImgs := [], rx := {}, rxFrom := none, txEast := {}, txWest := {} }
    sec := { slots := s.sec.slots, minsvn := s.sec.minsvn, depot := s.sec.depot, uds := s.sec.uds, handover := s.sec.handover,
             winA := if s.sec.depot then .openRw else .closed, winB := if s.sec.depot then .openRw else .closed }
    cry := { salts := s.cry.salts, selfFail := s.cry.selfFail }
    boot := { nor := s.boot.nor, norSize := s.boot.norSize, recom := s.boot.recom, rankFail := s.boot.rankFail }
    dram := []
    phc := {}
    map := { tab := s.map.tab, anaChanges := s.map.anaChanges, badLog := s.map.badLog.take 4096, badTab := s.map.badTab, chip := s.map.chip,
             shedReq := s.map.shedReq, retired := s.map.retired, u0 := s.map.u0, s0 := s.map.s0, lifeCopy := s.map.lifeCopy,
             mhSaved := s.map.mhSaved, mhBase := s.map.mhSaved, sysSb := s.map.sysSb, retSys := s.map.retSys }
    flash := { die := s.flash.die, media := s.flash.media, absent := s.flash.absent, marks := s.flash.marks }
    jrc := { ring := s.jrc.ring, roots := s.jrc.roots, flashRoot := s.jrc.flashRoot,
             dump0 := s.jrc.dump0, dump1 := s.jrc.dump1, hurt := s.jrc.hurt, progBlk := s.jrc.progBlk }
    srt := {}
    prog := { s.prog with cursor := s.prog.saved, cmd := none }
    pat := { dlo := s.pat.dlo, staging := s.pat.staging, lastDseq := s.pat.lastDseq, dloChg := s.pat.dloChg,
             dloOvf := s.pat.dloOvf, saved := s.pat.saved, copyTab := s.pat.copyTab, copyTage := s.pat.copyTage,
             copyStamp := s.pat.copyStamp }
    mem := { repair := s.mem.repair, jspare := s.mem.jspare }
    chip := { s.chip with
      held := true, closures := [], coreStop := [], chnReset := [], mapReady := false, wakeWait := false
      stopFetch := false, starting := false, disabling := s.chip.disabling.filter fun x => x.1 == .rng } }

/-- One always-on register at a cold reset that is no supply power-on: fields that name a cold reset are reset (R11). -/
def aonCold (e : Nat × Dword) : Nat × Dword :=
  match locate e.1 with
  | none => e
  | some (b, u, o) =>
    if !b.alwaysOn then e else
    match findReg b u o with
    | none => e
    | some x => (e.1, BitVec.ofNat 64 (keepFields (fun f => !f.cold) x b e.2.toNat))
def isAon (a : Nat) : Bool := match locate a with | some (b, _, _) => b.alwaysOn | none => false

/-- The always-on island at a chip-level reset of a kind (Table 18-8), and the kind that CFG_RSTCAUSE will name. A cold reset
samples the straps (R15, R68). PWR_STATE keeps its value (R11). -/
def aonReset (s : State) (kind : Nat) : State :=
  let s := updChip s fun c => { c with kind, parked := false }
  let s := if kind < 5 then wr s 0xE0018 s.chip.straps else s
  let s := updPwr s fun p => { p with want := none, defer := false, stopped := false }
  if kind = 1 then { s with
    regs := s.regs.filter fun e => !isAon e.1
    clk := { s.clk with tb := 0, boot := 0 }
    thm := { sdcnt := s.thm.sdcnt, restarted := s.thm.restarted, warnRounds := s.thm.warnRounds, throtRounds := s.thm.throtRounds }
    pwr := { failRan := s.pwr.failRan }
    ring := {}
    sec := { s.sec with depot := false, winA := .closed, winB := .closed } }
  else if 5 ≤ kind then s
  else
    let s := { s with regs := s.regs.map aonCold }
    updThm s fun t => { t with
      seen := false, tempMax := t.temp, shutdown := false, noSensor := false, coolCount := 0
      shut := {} }

/-! ## The power-fail sequence (R269, R270, Table 19-11) -/

/-- The sequence of R269: groups handed to the JRC stay durable, the dump is written where the stripe engine has been
enabled and the device is in no gated state, and every island but the always-on one is gated. -/
def failSequence (s : State) (reason : Nat) : State :=
  let s := if active s .jrc && active s .str && s.pwr.ps < 3 then sealDump s reason else s
  updChip (coreReset (updPwr s fun p => { p with failRan := true }) false) fun c => { c with parked := true }

/-- PWR_FAIL_ASSERT: 2 µs or more; none during a thermal shutdown (R397). -/
def pwrFail (s : State) (counts : Nat) : State :=
  if counts < 500 || !s.chip.powered || s.thm.shutdown then s else
  let s := updChip s fun c => { c with failLow := true }
  updChip (if s.chip.parked then s else failSequence s 1) fun c => { c with kind := if c.kind = 1 then 1 else 3 }

/-- POWER_FAIL_RESTART: the end of the hold of R270; with RESET_N still asserted its release is the later event. -/
def failRestart (s : State) : State :=
  if !s.chip.powered || !s.chip.failLow || !s.chip.parked then s else
  let s := updChip s fun c => { c with failLow := false }
  if s.chip.kind = 1 then s
  else if s.chip.rstLow then updChip s fun c => { c with kind := 2 } else aonReset s 3

/-- RESET_N_ASSERT (R445): shorter than 2 µs it is ignored. -/
def resetAssert (s : State) (counts : Nat) : State :=
  if counts < 500 || !s.chip.powered then s else
  let s := if s.chip.parked || s.chip.held then updChip (coreReset s false) fun c => { c with parked := true } else failSequence s 1
  updChip s fun c => { c with rstLow := true, kind := if c.kind = 1 then 1 else 2 }

/-- A warm reset (R272, R445, R446): the seal dump with REASON 0x04, then the reset. -/
def warmReset (s : State) (kind core : Nat) : State :=
  if s.chip.held then s else
  let s := if active s .jrc && active s .str && s.pwr.ps < 3 then sealDump s 4 else s
  let warms := min 65535 (rdField s 0xE0014 31 16 + 1)
  aonReset (wr (coreReset s true) 0xE0014 (warms * 2 ^ 16 + core % 16 * 2 ^ 8 + kind)) kind

/-- SUPPLY_POWER_ON (R444): the always-on supply rises. -/
def powerOn (s : State) : State :=
  if s.chip.powered then s else
  updChip (aonReset (coreReset s false) 1) fun c => { c with powered := true, rstLow := true, failLow := false }
/-- SUPPLY_POWER_LOSS (R27): the always-on supply leaves its window. -/
def powerLoss (s : State) : State :=
  if !s.chip.powered then s else updChip (coreReset s false) fun c => { c with powered := false, parked := true }

/-- WATCHDOG_EXPIRY with RSTREQ: a second expiry requests a warm reset of KIND 0x5 (R67). -/
def watchdog (s : State) (k : Nat) : State :=
  if 10 ≤ k || !wdDue s k then s else
  let s := wdExpire s k
  if rdField s (Reg.wdSts k) 1 0 = 2 && bitOf (rd s (Reg.wdCtl k)) 1 then warmReset s 5 k else s

/-! ## Thermal shutdown (R397, R398) -/

/-- THERMAL_SHUTDOWN: the sequence, the THERMAL record with the reported temperature, THM_SDCNT. Which sensor the record
names after a round without one is a free value. -/
def thermalShutdown (s : State) : State :=
  if s.thm.shutdown || !s.chip.powered || !(8 ≤ s.thm.shut.up || s.thm.noSensor) then s else
  let t := s.thm.temp
  let s := if s.chip.held then s else failSequence s 1
  let (s, k) := match (List.range 16).find? fun i => (s.thm.sensors.getD i {}).reading == some t && !isBroken s i with
    | some i => (s, i)
    | none => freshBelow s 256
  let s := lastGasp s 0x103 0xC (le 2 (s16 t) ++ le 1 k)
  updChip (updThm s fun x => { x with
    shutdown := true, sdcnt := x.sdcnt + 1, coolCount := 0
    shut := { x.shut with inForce := true } }) fun c => { c with parked := true }

/-- The pin THERMTRIP_N is asserted, from the shutdown until the restart (Table 19-5). -/
def thermtrip (s : State) : Bool := s.thm.shutdown
/-- THERMAL_RESTART: 3,750 rounds below 85 °C; a shutdown without a sensor restarts on a cold reset only. -/
def thermalRestart (s : State) : State :=
  if !s.thm.shutdown || s.thm.noSensor || s.thm.coolCount < 3750 || s.chip.rstLow || s.chip.failLow then s else
  aonReset (updThm s fun x => { x with restarted := true }) 4

/-! ## Power states (R401 to R407) -/

/-- Latency tolerance L in µs: 0xFFFFFFFF unlimited (R406). -/
def latency (s : State) : Nat :=
  let host (x : PortSt) : Nat := if x.linkUp then x.ltrHost.getD 0xFFFFFFFF else 0xFFFFFFFF
  min (ngetD s.portA.feat 0xD0 0xFFFFFFFF) (min (host s.portA) (host s.portB))

/-- No submission queue of a port holds an unfetched entry. -/
def queuesEmpty (x : PortSt) : Bool := !(x.sqs.any fun q => q.2.head != q.2.tail)

/-- The device is idle (R405). -/
def deviceIdle (s : State) : Bool :=
  s.srt.cmds.isEmpty && s.sec.commit.isNone && s.ring.schedWait.isNone && queuesEmpty s.portA && queuesEmpty s.portB
    && s.prog.kind == 0 && s.map.relocs.isEmpty && s.map.jobs.isEmpty && s.map.retiring.isEmpty && s.map.refresh.isEmpty
    && s.pat.insp.isEmpty && !catchupOn s && decide (rdField s 0x30084 15 0 ≤ freeF s)
/-- The disable sequences of the couriers, the stripe engine and the JRC can end: nothing of theirs is in progress (R203, R234, R280). -/
def powerSettled (s : State) : Bool :=
  (s.flash.ops.all fun o => o.2.st == .held) && (s.flash.lads.all fun l => l.2.rb.isNone)
    && ((List.range 32).all fun c => (courier s c).training.isNone)
    && s.jrc.reqs.isEmpty && s.jrc.batches.isEmpty && s.jrc.applyQ.isEmpty && !s.jrc.hold && !s.jrc.committing

/-- A power state change is complete: PWR_CAUSE.PS_CHANGE and source 114. -/
def psDone (s : State) (ps : Nat) : State :=
  raise (orReg (updPwr s fun p => { p with ps, target := ps, transit := false }) Reg.pwrCause 1) 114

/-- Start-up runs in an operational state: SC1's exit request takes the device out of PS3 or PS4, or ends an entry that the reset cut
short (R404; DEDUCED, log entry 71). -/
def powerUp (s : State) : State :=
  if 3 ≤ s.pwr.ps then psDone s s.pwr.lastOp
  else if s.pwr.transit then updPwr s fun p => { p with transit := false, target := p.ps } else s

/-- Within 1 s of the end of the last seal dump (R260). -/
def dumpRecent (s : State) : Bool := match s.pwr.dumpAt with | some t => s.clk.tb < t + Config.countsPerSec | none => false

/-- A host's choice of a power state (R402, R407): PS0 to PS2 at once, PS3 and PS4 at the next idle moment. -/
def psSet (s : State) (ps : Nat) : State :=
  if 3 ≤ ps then updPwr s fun p => { p with want := some ps }
  else
    let s := updPwr s fun p => { p with want := none, defer := false, lastOp := ps }
    if s.pwr.ps = ps then s else pump (psDone s ps)

/-- The blocks that PS3 and PS4 disable follow their EN bits again at exit. -/
def psActive (s : State) (on : Bool) : State :=
  let s := (List.range 32).foldl (fun s c => setActive s .chn c (on && enabled s .chn c && !(courier s c).reset)) s
  setActive (setActive s .str 0 (on && enabled s .str)) .jrc 0 (on && enabled s .jrc)

/-- The last step of an entry (R403 step 6). -/
def psEntered (s : State) : State := updPwr (psDone s s.pwr.target) fun p => { p with want := none, defer := false }

/-- The sequences have ended (R403 step 3 on): the seal dump, the JRC and the islands; entry to PS4 waits for the cache's drain. -/
def psSettled (s : State) : State :=
  let t := s.pwr.target
  let s := updPwr s fun p => { p with settling := false }
  let s := psActive (sealDump s (t - 1)) false
  if t = 4 && s.phc.st == 2 then phcDrain s true
  else if t = 4 && s.phc.st == 3 then s
  else psEntered (if t = 4 then updPhc s fun p => { p with drainPs4 := true } else s)
/-- PS_ENTRY (R403), when the device is idle: fetching stops, and the disable sequences of the couriers and the stripe engine run, with
suspended operations resumed; where they need time, a later PS_ENTRY finds them ended. -/
def psEntry (s : State) : State :=
  if s.pwr.settling then (if powerSettled s then psSettled s else s) else
  match s.pwr.want with
  | none => s
  | some t =>
    if !s.chip.mapReady || s.chip.held || 3 ≤ s.pwr.ps || s.pwr.transit || !deviceIdle s || dumpRecent s then s
    else
      let s := updPwr s fun p => { p with transit := true, target := t, stopped := true, settling := true, bandAt := s.thm.band }
      let s := pump ((s.flash.ops.filter fun o => o.2.st == .suspended).foldl (fun s o => askResume s o.1) s)
      if powerSettled s then psSettled s else s

/-- PHC_DRAIN_DONE, which an entry to PS4 waits for. -/
def phcDrained (s : State) : State :=
  let was := s.phc.st == 3
  let s := drainDone s
  if was && s.pwr.transit && s.pwr.target = 4 then (if s.phc.st == 2 then phcDrain s true else psEntered s) else s

/-- PS_EXIT (R404): an entry in progress ends, or PS3 or PS4 is left for the last operational state. -/
def psExit (s : State) : State :=
  if !s.pwr.transit && s.pwr.ps < 3 then s else
  let entering := s.pwr.transit
  let s := if s.pwr.settling then s else restoreDone (psActive s true)
  let s := if s.phc.st == 3 then updPhc s fun p => { p with wake := p.drainPs4 } else phcWake s
  let s := updJrc s fun j => { j with lastCut := s.clk.tb }
  let s := updPwr s fun p => { p with stopped := false, settling := false, want := none, defer := false }
  let s := if entering then updPwr s fun p => { p with transit := false, target := p.ps } else psDone s s.pwr.lastOp
  pump (if s.thm.band = s.pwr.bandAt then s else bandTrain s)

/-- PS_CHANGE_DEFERRED (R260): PWR_CAUSE.DEFER and source 117. -/
def psDeferred (s : State) : State :=
  if s.pwr.want.isNone || s.pwr.defer || !dumpRecent s || !deviceIdle s then s
  else raise (orReg (updPwr s fun p => { p with defer := true }) Reg.pwrCause 4) 117

/-- EXLAT of a non-operational state in µs (Table 16-5). -/
def exlat (ps : Nat) : Nat := if ps = 3 then 200 else 5000
/-- The deepest of PS3 and PS4 whose EXLAT is within L. -/
def deepest (l : Nat) : Option Nat := if 5000 ≤ l then some 4 else if 200 ≤ l then some 3 else none
/-- The target of an idle descent (Table 16-6). APST entries are 8 bytes each: ITPS at [7:3], ITPT in ms at [31:8]. -/
def descent (s : State) : Option Nat :=
  let l := latency s
  let x := if ngetD s.portA.feat 0x0C 0 % 2 = 1 then s.portA else s.portB
  if ngetD x.feat 0x0C 0 % 2 = 1 then
    let e := ngetD x.feat 0x0C00 0 / 2 ^ (64 * s.pwr.ps) % 2 ^ 32
    let t := bitsOf e 7 3
    if bitsOf e 31 8 = 0 then none
    else if (t = 3 || t = 4) && exlat t ≤ l then some t else deepest l
  else if rdField s 0xA0018 15 0 = 0 then none else deepest l

/-- IDLE_TIMER_EXPIRY (R407): the descent starts, with source 118. -/
def idleTimer (s : State) : State :=
  if !s.chip.mapReady || 3 ≤ s.pwr.ps || s.pwr.transit || s.pwr.want.isSome || !deviceIdle s then s else
  match descent s with
  | some t => raise (updPwr s fun p => { p with want := some t }) 118
  | none => s

/-- A write of PWR_AVSEL restarts MINSLACK. -/
def avsel (s : State) : State := updPwr s fun p => { p with minSlack := 255 }

end Sys2Proof.Machine
end

