-- ==== Sys2Proof/Machine/Boot.lean ====
section
/-! DEFINITION. Start-up (R447 to R453): configuration load (R438 to R441), image choice (R443), the boot stages, first boot,
recommissioning, and recovery (R273 to R278). -/

namespace Sys2Proof.Machine

/-! ## Configuration load (R439) -/

/-- The register that a word of the register space belongs to, with its first address. -/
def regOf (a : Nat) : Option (Blk × RegAt × Nat) :=
  match locate a with
  | none => none
  | some (b, u, o) => (findReg b u o).map fun x => (b, x, b.base u + x.start)

/-- The bits of fields whose Reset entry is C. -/
def cMask (x : RegAt) : Nat := x.row.flds.foldl (fun m f => if f.src == .image then setBits m f.hi f.lo (2 ^ 64 - 1) else m) 0

/-- What configuration load has done so far: the state, the bits set, and whether an entry named a field that is not C. -/
structure Load where
  s   : State
  set : NMap Nat := []
  bad : Bool := false

/-- One REGSET entry: a 32-bit word of a register, under its mask. -/
def loadEntry (l : Load) (off mask val : Nat) : Load :=
  match regOf off with
  | none => { l with bad := true }
  | some (_, x, a) =>
    let sh := 2 ^ (8 * (off - a))
    let m := mask * sh
    if m &&& cMask x != m then { l with bad := true } else
    let old := rd l.s a
    { l with s := wr l.s a (old - (old &&& m) + (val * sh &&& m)), set := nset l.set a (ngetD l.set a 0 ||| m) }

/-- The entries of a REGSET block's data, 12 bytes each. -/
def loadBlock : Nat → Load → List Byte → Load
  | 0, l, _ => l
  | n + 1, l, d => if d.length < 12 then l else loadBlock n (loadEntry l (fieldAt d 0 4) (fieldAt d 4 4) (fieldAt d 8 4)) (d.drop 12)

/-- The body blocks of an image. -/
def imgBlocks (img : List Byte) : List (Nat × List Byte) := (bodyBlocks (img.length + 1) (imgBody img)).getD []
/-- The data of an image's first block of a type. -/
def blockOf (img : List Byte) (typ : Nat) : Option (List Byte) := ((imgBlocks img).find? fun b => b.1 == typ).map fun b => b.2
/-- The REGSET blocks of an image, in order. -/
def loadImage (l : Load) (img : List Byte) : Load :=
  (imgBlocks img).foldl (fun l b => if b.1 = 1 then loadBlock (b.2.length + 1) l b.2 else l) l

/-- Every register of the register space with a C field, with its first address. -/
def cRegs : List (Nat × RegAt) :=
  (blkOrder ++ [Blk.dst, Blk.chn]).flatMap fun (b : Blk) => (List.range b.units).flatMap fun u =>
    (headerRows b u ++ blockRows b).flatMap fun (r : Row) =>
      if r.flds.any fun f => f.src == .image then
        (List.range r.n1).flatMap fun i => (List.range r.n2).map fun j =>
          (b.base u + r.off + i * r.s1 + j * r.s2, { row := r, i1 := i, i2 := j, start := r.off + i * r.s1 + j * r.s2 })
      else []

/-- Relations between registers that the chapters reserve: MINRUN against CHN_FLOOR (R195), RESV against POOLSZ. -/
def crossOk (s : State) : Bool :=
  rdField s 0x30014 19 0 < rdField s 0x30010 26 0 && (List.range 32).all fun c =>
    rdField s (chn c 0x20) 15 0 ≤ rdField s (chn c 0x14) 15 0 && rdField s (chn c 0x20) 31 16 ≤ rdField s (chn c 0x18) 15 0

/-- Is the final configuration refused (R439)? -/
def loadRefused (l : Load) : Bool :=
  l.bad || (cRegs.any fun e =>
    let v := rd l.s e.1
    ngetD l.set e.1 0 &&& cMask e.2 != cMask e.2
      || (e.2.row.flds.any fun f => f.src == .image && !f.ok (bitsOf v f.hi f.lo)) || !e.2.row.okRow v) || !crossOk l.s

/-! ## Stages -/

/-- A stage begins: CFG_BOOT.STAGE, CFG_STGT, CFG_CAUSE.STAGE (R447). -/
def stage (s : State) (n : Nat) : State :=
  let s := wrField s Reg.cfgBoot 22 20 n
  let s := if n ≤ 6 then wr s (0xE005C + 4 * n) ((s.clk.tb - s.clk.boot) / 250 % 2 ^ 32) else s
  cfgCauseSet s 0
/-- A halt (R450): HALTED, HALTCAUSE, source 146. -/
def halt (s : State) (cause : Nat) : State :=
  let s := wrField (wrField s Reg.cfgBoot 31 31 1) Reg.cfgBoot 27 24 cause
  updChip (cfgCauseSet s 1) fun c => { c with starting := false }
def halted (s : State) : Bool := bitOf (rd s Reg.cfgBoot) 31
/-- A block's EN and ACTIVE are set. -/
def enableBlk (s : State) (b : Blk) (u : Nat := 0) : State := setActive (wrField s (Reg.ctl b u) 0 0 1) b u true

/-- HFE_CTL.EN of a present port whose PERST_N is deasserted (R97). -/
def portEnable (s : State) (p : Port) : State :=
  if !portPresent s p || (getPort s p).perst || s.chip.held then s
  else modPort (enableBlk s (portBlk p)) p fun x => { x with trainEn := true }
/-- HFE_LCFG of both ports from the base image's REGSET, or with the defaults of R97 where no base bank is valid. -/
def linkConfig (s : State) (base : List Byte) : State :=
  let t := (loadImage { s := s } base).s
  wr (wr s 0x14 (rd t 0x14)) 0x10014 (rd t 0x10014)
def linkDefaults (s : State) : State := wr (wr s 0x14 0x4446) 0x10014 0x4446
/-- The configuration space of a function once it is loaded (R75, R97), from the identifiers of PCIID. -/
def loadSpace (s : State) (ids : List Byte) (p : Port) : State :=
  modPort s p fun x => { x with cfgReady := true, cfgSpace := spaceTable (fieldAt ids 0 4) (fieldAt ids 4 4) }

/-- Depot mode as a reset decides it, with both windows as it gives them (R451, Table 2-9). -/
def setDepot (s : State) (depot : Bool) : State :=
  let w : Window := if depot then .openRw else .closed
  updSec s fun x => { x with depot, winA := w, winB := w }

/-- Does the boot record in force say that the device was never commissioned? -/
def uncommissioned (s : State) : Bool := match recordInForce s with | some (_, l) => !recCommissioned l | none => false

/-- Stage 1: SRAM spare rows (R448; at first boot the repair list is skipped), the self-tests, whose failure leaves the crypto island
inactive (Table 14-10), base bank, depot mode, links, boot record and image choice (R438, R451, R97, R443). -/
def stage1 (s : State) : State :=
  let s := fuseMapRows s
  let s := if uncommissioned s && (newestRoot s.jrc).isNone then s else repairRows s
  let s := enableBlk (stage s 1) .sec
  let s := if s.cry.selfFail then cryCauseSet (wrField s (Reg.ctl .cry) 0 0 1) 2 else enableBlk s .cry
  let warm := 5 ≤ rdField s 0xE0014 3 0
  let strap := bitOf (rd s 0xE0018) 2
  match bankInUse s 1 with
  | none =>
    let s := setDepot s (if warm then s.sec.depot else strap)
    halt (portEnable (portEnable (linkDefaults s) .a) .b) 1
  | some (bank, seq, imgs, fb) =>
    let img := imgs.headD []
    let depot := if warm then s.sec.depot else strap && bitOf (fieldAt img 13 1) 0
    let s := linkConfig s img
    let s := wr (wrField s Reg.cfgBoot 7 7 bank) 0xE0038 seq
    let s := updSec (setDepot s depot) fun x => { x with meas4 := Config.sha512 (img.take (imgLen img)) }
    let s := if fb then cfgCauseSet s 3 else s
    let ids := (blockOf img 3).getD []
    let s := portEnable (portEnable (loadSpace (loadSpace s ids .a) ids .b) .a) .b
    let r := recordInForce s
    let slot := match r with | some (_, l) => fieldAt l 16 1 % 2 | none => 0
    let s := match r with
      | some (c, l) => wr (wrField s Reg.cfgBoot 9 9 c) 0xE0048 (fieldAt l 8 8)
      | none => wr s 0xE0048 0
    let pick := if accept s (slotImage s slot) = 0 then some slot else if accept s (slotImage s (1 - slot)) = 0 then some (1 - slot) else none
    match pick with
    | none => halt s 2
    | some k =>
      let im := slotImage s k
      let s := takeImage s k (Config.sha512 im) (fieldAt im 10 1) (fieldAt im 11 1) (bitOf (fieldAt im 12 4) 0)
      if k != slot || r.isNone then cfgCauseSet (wrField s Reg.cfgBoot 16 16 1) 3 else s

/-- The overlays that SELECT names, in ascending mode: none where one is absent (R440). -/
def pickOverlays (base : List Byte) (imgs : List (List Byte)) : Option (List (Nat × List Byte)) :=
  let sel := (blockOf base 2).getD []
  (List.range 5).foldr (fun m r =>
    let id := fieldAt sel (2 * m) 2
    if id = 0xFFFF then r else
    match r, imgs.find? fun i => imgId i == (m + 1, id) with
    | some l, some i => some ((m + 1, i) :: l)
    | _, _ => none) (some [])

/-- What the typed body blocks set besides registers: die type, DRAM, capacity, supply windows, thermistors (Table 18-5). -/
def loadTyped (s : State) (base : List Byte) (ovls : List (Nat × List Byte)) : State :=
  let ov (m : Nat) : List Byte := ((ovls.find? fun e => e.1 == m).map fun e => e.2).getD []
  let die := (blockOf (ov 2) 5).getD []
  let cap := Config.capacityBlock ((blockOf (ov 1) 8).getD [])
  let s := updFlash s fun f => { f with
    die := { raw := die, blocks := Config.dieNum die 0, pages := Config.dieNum die 1, rated := Config.dieNum die 2 } }
  let s := updBoot s fun b => { b with
    dramGib := Config.dramGeo ((blockOf base 4).getD []), userCap := cap.1, minDram := cap.2 }
  let f := Config.spaceFigures cap.1
  let s := updMap s fun m => { m with sysArea := f.1, ckptImg := f.2.1, reserveR := f.2.2 }
  let rl := Config.rails ((blockOf base 6).getD [])
  let th := Config.thermistors ((blockOf base 7).getD [])
  updThm s fun t => { t with
    rails := t.rails.mapIdx fun i x => { x with lo := (rl.getD i (0, 65535)).1, hi := (rl.getD i (0, 65535)).2 }
    ext := t.ext.mapIdx fun i x => { x with enabled := th.getD i false } }

/-- The ring-member overlay is selected (R318). -/
def ringOverlay (s : State) : Bool := let v := rd s 0xE002C; bitOf v 31 && Config.ringMember (v % 65536)
/-- The object-store overlay is selected (R120). -/
def storeOverlay (s : State) : Bool := let v := rd s 0xE0030; bitOf v 31 && Config.objectStore (v % 65536)

/-- Stage 2 with the base image and the overlay bank in use: overlays, C fields, the DRAM check, depot mode and the ring. -/
def stage2With (s : State) (base : List Byte) (bank seq : Nat) (imgs : List (List Byte)) (fb : Bool) : State :=
  let s := wr (wrField s Reg.cfgBoot 8 8 bank) 0xE0040 seq
  let s := if fb then cfgCauseSet s 3 else s
  match pickOverlays base imgs with
  | none => halt s 3
  | some ovls =>
    let s := ovls.foldl (fun s e => wr s (0xE0020 + 4 * (e.1 - 1)) (2 ^ 31 + (imgId e.2).2)) s
    let l := ovls.foldl (fun l e => loadImage l e.2) (loadImage { s := s } base)
    let die := (ovls.find? fun e => e.1 == 2).bind fun e => blockOf e.2 5
    let badDie := match die with
      | some d => !Config.dieTypeOk d || 16384 < Config.dieNum d 0 || 4096 < Config.dieNum d 1
      | none => false
    if loadRefused l || badDie then halt s 6 else
    let s := loadTyped l.s base ovls
    let code := rd s 0xD0048
    let s := if bitsOf code 23 16 = 0 then s else updEvr s fun e => { e with
      dflt := { burst := bitsOf code 23 16, refill := bitsOf code 15 8, off := bitOf code 0,
                level := bitsOf code 23 16 * tokUnit, asOf := s.clk.tb } }
    let s := updSec s fun x => { x with meas5 := Config.sha512 (ovls.flatMap fun e => e.2.take (imgLen e.2)) }
    if s.boot.dramGib < s.boot.minDram then halt s 4 else
    if ringOverlay s && !active s .rng then ringEnable (wrField s (Reg.ctl .rng) 0 0 1) else s

/-- Stage 2 (R438 to R441, R451, R318). -/
def stage2 (s : State) : State :=
  if halted s then s else
  let s := wrField (stage s 2) Reg.cfgBoot 19 19 (if s.sec.depot then 1 else 0)
  match bankInUse s 1, bankInUse s 2 with
  | some (_, _, base, _), some (bank, seq, imgs, fb) => stage2With s (base.headD []) bank seq imgs fb
  | none, _ => halt s 3
  | some _, none => halt s 3

/-- Does the staggered wake hold start-up before stage 3 (R340)? -/
def mustWait (s : State) : Bool := rdField s 0xE0014 3 0 = 1 && ringOverlay s && rdField s (Reg.ctl .rng) 7 4 != 0

/-- Stage 3: repairs, DRAM, which halts where a declared rank does not train (R441), zero-fill, the JRC and the recorder (R315, R316,
R449, R280, R383). -/
def stage3 (s : State) : State :=
  let s := stage s 3
  let dp := s.mem.repair.filter fun (r : Repair) => r.kind == 2
  let s := updMem (wr s (drc 0x44) (dp.foldl (fun n r => max n (r.spare + 1)) 0)) fun m => { m with
    pages := dp.foldl (fun t r => nset t (r.addr / 4096) r.spare) [] }
  let s := (s.mem.repair.filter fun (r : Repair) => r.kind == 4).foldl (fun s r =>
    wr s (devFail (r.addr / 32 % 4)) (2 ^ 31 + r.addr % 32 * 2 ^ 16)) s
  if s.boot.rankFail then halt s 5 else
  let s := enableBlk (drawNonce s) .drc
  let s := updMem (trig54 s (drc 0x24)) fun m => { m with zf := some (0, s.boot.dramGib * 16384) }
  let s := enableBlk (enableBlk (zeroFillDone s) .jrc) .evr
  let s := if s.evr.flashOnly then wrField s (Reg.sts .evr) 17 17 1 else s
  wrField { s with evr := { s.evr with scanning := true } } (Reg.sts .evr) 16 16 1

/-! ## Stage 4: couriers, and the root -/

/-- A courier's enable at start-up: identification against the overlay (R184) and the training it then waits for (R188). -/
def courierStart (s : State) (c : Nat) : State :=
  if s.chip.chnGone.contains c then s else
  let s := enableBlk s .chn c
  let here := (List.range 32).filterMap fun p =>
    match nget s.flash.absent (lunOf c p) with | some true => some (p, false) | some false => none | none => some (p, true)
  let s := (List.range 32).foldl (identify1 here c) (wr s (rLunFlt c) 0)
  train (modCourier s c fun x => { x with untrained := true }) c 0

/-- The map as recovery takes it over: volatile marks dropped, bad blocks with the ERASES at which they failed (a replayed SBFREE names no
outcome; log entry 199) and retired blocks as the system area has them, the
namespaces attached as they were (R279, R253, R255). -/
def settleTab (s : State) (t : MapTab) : MapTab :=
  let sb (b : Sb) : Sb := { b with
    st := if b.st = 1 then 1 else 2, pins := 0, job := false, erasing := false, ended := [], epoch := 0 }
  let blk (e : Nat × BlkInfo) : Nat × BlkInfo :=
    if e.2.st = 6 then (e.1, { e.2 with st := 2 }) else if e.2.st = 1 then (e.1, { e.2 with epoch := 0 }) else e
  let t := { t with sbs := t.sbs.map fun e => (e.1, sb e.2), blocks := t.blocks.map blk }
  let t := (s.map.badTab ++ s.map.badLog).foldl (fun t (x : BadEnt) =>
    let k := blkKey x.lun x.block
    blkSet t k { blkGet t k with st := 3, erases := x.erases }) t
  let luns := ((List.range 32).flatMap fun c => (List.range 32).map (lunOf c)).filter fun l =>
    lunRetired s (lunChn l) (lunPos l) && lunFitted s (lunChn l) (lunPos l)
  let t := luns.foldl (fun t l => retireBlocks s.flash.die.blocks t l) t
  { t with ns := t.ns.map fun e => (e.1, { e.2 with attached := ((nget s.map.tab.ns e.1).map fun n => n.attached).getD [] }) }

/-- JRC_RECOV's OUTCOME and ROOTCOPY, before recovery ends (R277). -/
def recovNote (s : State) (outcome copy : Nat) : State :=
  wr s (jrc 0x58) (outcome * 2 ^ 28 + copy * 2 ^ 24 + rdField s (jrc 0x58) 15 0)
/-- Recovery is complete: VALID, and source 63. Its VALID and GEN changed as root selection began it (R54). -/
def recovEnd (s : State) : State := raise (wrField s (jrc 0x58) 31 31 1) 63
/-- FAILED at start-up (R278): the namespaces stay, each in Persistent Loss, and no letter is read. -/
def recoverFailed (s : State) : State :=
  let s := updMap s fun m => { m with
    tab := { ns := m.tab.ns.map fun e => (e.1, { e.2 with parcels := [], mapped := 0 }) }, life := m.lifeCopy }
  setChip (recovNote (updJrc s fun j => { j with tokens := Config.tokenDepth, lastCut := s.clk.tb }) 3 (rdField s (jrc 0x58) 26 24)) 4
/-- The bad-block log and the progress block as their mirrored regions give them (R257): a log entry that neither die gives is lost,
and a progress block without a readable copy counts as KIND 0 (R417). -/
def systemArea (s : State) : State :=
  let (s, bad) := mirroredRead s 0x8000 0x8000
  let (s, lost) := mirroredRead s 0x4000 64
  let s := updMap s fun m => { m with
    badLog := (m.badLog.zipIdx.filter fun e => !bad.contains (0x8000 + 8 * e.2 / 64 * 64)).map fun e => e.1 }
  let p := if lost.isEmpty then progOf s.jrc.progBlk else {}
  { s with prog := { p with sstat := s.prog.sstat, cdw10 := s.prog.cdw10, stage := if p.kind = 0 && s.prog.stage != 7 then 0 else s.prog.stage } }

/-- The data page groups of a system stream's superblocks in the order they are written: superblock after superblock by SBID, row after
row (R266; log entry 166). -/
def sysOrder (s : State) (k : Nat) : List Nat :=
  let sbs := (s.map.sysSb.filter fun e => e.2 == k).filterMap fun e => nget s.map.tab.sbs e.1
  let put (l : List Sb) (b : Sb) : List Sb := l.takeWhile (fun y => y.sbid < b.sbid) ++ b :: l.dropWhile fun y => y.sbid < b.sbid
  (sbs.foldl put []).flatMap fun b => (List.range b.rows).flatMap fun r =>
    (b.dataMems.filter fun m => decide (r < b.endRow m)).map fun m => b.page m r
/-- Does a member give its codeword of a row and slot: its LUN is in service and the page group programmed? -/
def memberGives (s : State) (b : Sb) (r slot m : Nat) : Bool :=
  lunInService s (lunChn (b.lun m)) (lunPos (b.lun m)) && (nget s.flash.media (b.page m r + slot)).isSome
/-- A slot of system data through steps 1 to 6: as it is, or rebuilt while no more than two members of its row are lost. -/
def sysSlot (s : State) (ppa : Nat) : Option Payload :=
  match (sbxOf s.map.tab ppa).bind fun x => nget s.map.tab.sbs x with
  | none => none
  | some b =>
    let lost := (List.range b.nmem).filter fun m => !memberGives s b (ppaPage ppa) (ppa % 16) m
    if (match b.memOf ppa with | some m => !lost.contains m | none => false) || lost.length ≤ 2 then slotPayload s ppa else none
/-- n bytes of system data from a first page group on: the units of KIND and number that are due, each identified by its metadata (R212);
none where one cannot be read. -/
def sysRead (s : State) (k kind first ppa n : Nat) : Option (List Byte) :=
  let units := (n + 4095) / 4096
  let pgs := ((sysOrder s k).dropWhile fun p => p != pgBase ppa).take ((units + 15) / 16)
  if pgs.length < (units + 15) / 16 then none else
  let got := (List.range units).map fun u => ((pgs[u / 16]?).bind fun p => sysSlot s (p + u % 16)).filter fun p =>
    pKind p == kind && pLetter p == first + u && pNsid p == 0
  if got.any fun x => x.isNone then none
  else some ((got.flatMap fun x => le 4096 ((x.getD 0).toNat % 2 ^ 32768)).take n)
/-- A valid copy of the segment table: STLOC0's through stream 22, or STLOC1's through stream 23 (R265 step 4, Table 10-8). -/
def segTableRead (s : State) (r : Root) : Option (List Byte) :=
  let n := 16 * fieldAt r.bytes 44 4
  if n = 0 then some [] else
  [(22, 56), (23, 64)].findSome? fun c => (sysRead s c.1 4 0 (fieldAt r.bytes c.2 5) n).filter fun l => crc32c l == fieldAt r.bytes 72 4
/-- Every segment of some classes that the table names is read and its CRC-32C right (R274). -/
def segsReadable (s : State) (r : Root) (need : Nat → Bool) : Bool :=
  match segTableRead s r with
  | none => false
  | some l => (List.range (l.length / 16)).all fun i =>
      let id := fieldAt l (16 * i) 4
      bitOf (fieldAt l (16 * i + 9) 1) 0 || !need (id / 2 ^ 28) ||
        ((sysRead s 22 (if id < 2 ^ 28 then 3 else 4) (id % 2 ^ 28 * 1024) (fieldAt l (16 * i + 4) 5) (2 ^ 22)).map
          fun b => crc32c b == fieldAt l (16 * i + 12) 4).getD false

/-- The replay of the journal from a root (R274). -/
def replayFrom (s : State) (r : Root) : Replay :=
  replay s.jrc (heatInc s) s.flash.die.rated r.epoch ringWords { tab := r.tab, off := r.jstart, gen := r.epoch, next := r.gseq0 }
/-- What a replay from a root leaves (R275): the map, the JRC, WSN and the SBID counter. -/
def recoverTake (s : State) (r : Root) (x : Replay) : State :=
  let next : Option Root := x.mid.map fun m =>
    { r with bytes := rootImage x.gen 0 m.1 m.2.1 (r.wsnLim + 2 ^ 36) r.sbidNext r.segs.length r.tbkt 0, tab := m.2.2 }
  let s := systemArea s
  let s := updJrc s fun j => { j with
    dirty := x.segs, dirtyOld := x.segsOld
    ring := tailClear j x.off r.jstart, head := x.off, tail := r.jstart, gen := x.gen, gseq := x.next - 1, acked := x.next - 1
    live := x.bytes, twoGen := x.mid.isSome, tokens := r.tbkt - x.paid, next
    lastCut := s.clk.tb }
  let s := updMap s fun m => { m with
    tab := settleTab s x.tab, wsn := r.wsnLim, wsnLim := r.wsnLim + (if x.mid.isSome then 2 ^ 36 else 0)
    sbidNext := max r.sbidNext (x.sbid + 1), life := r.tab.sbs.foldl (fun l e => max l e.2.sealTime) m.lifeCopy }
  let s := stagingRecover s
  let base := ttBase s 0
  fullJudge (wr { s with dram := r.ttab.foldl (fun d e => memWrite 0 d (base + e.1) e.2) s.dram } (jrc 0x38) r.seq)

/-- Segment load and replay from a root (R274, R275). What a root's segments hold stands beside it (log entry 31): it is taken once they
are read. -/
def recoverFrom (s : State) (r : Root) : State :=
  if !segsReadable s r (fun _ => true) then recoverFailed s else
  if (replayFrom s r).failed then recoverFailed (jramUe s) else recoverTake s r (replayFrom s r)

/-- May the flash root be used (Table 10-10, second row)? -/
def flashRootOk (s : State) (r : Root) : Bool :=
  let w := wordAt s.jrc (r.jstart + Config.ringBytes - 16)
  r.valid && wType w = 13 && w % 2 ^ 32 = r.epoch && wGen w = r.epoch % 16
    && genScan s.jrc ringWords r.jstart r.epoch r.gseq0 ≤ r.epoch + 1
/-- Root selection (Table 10-10): the copy, 4 for the flash root, and the root; none where the device FAILED. -/
def chosenRoot (s : State) : Option (Nat × Root) :=
  match newestCopy s.jrc with
  | some x => some x
  | none => (s.jrc.flashRoot.filter (flashRootOk s)).map fun r => (4, r)

/-- Record groups that SC0 commits during start-up, in one batch that is durable and applied at once. -/
def commitNow (s : State) (gs : List Group) : State :=
  let (s, rs) := gs.foldl (fun (a : State × List JRec) g =>
    let rs := decideAll a.1 g.owner a.1.map.tab g.wants
    (updTab a.1 fun t => applyRecs s t rs, a.2 ++ rs)) (s, [])
  let ws := rs.flatMap fun r => r.words s.jrc.gen
  if ws.isEmpty then s else
  let g := s.jrc.gseq + 1
  updJrc s fun j => { ringAppend j (ws ++ [commitWord j.gen ws.length (crc32c (ws.flatMap wordBytes)) g]) with gseq := g, acked := g }
/-- The requests so far are such groups. -/
def commitReqs (s : State) : State :=
  let gs := s.jrc.reqs
  let s := commitNow (updJrc s fun j => { j with reqs := [] }) gs
  gs.foldl (fun s g => match g.owner with
    | .sb x => updPat (match streamOf s x with | some k => modOpen s k fun o => { o with durable := true } | none => s)
        fun p => { p with tab := nset p.tab x (p.tage, 0, false, false) }
    | _ => s) s
/-- An epoch cut whose root SC0 commits at once, into the bank that does not hold the newest one. The stripe engine is not enabled yet at
stage 4, and no segment goes to flash: the root's table is empty (DESIGN CHOICE, log entry 198). -/
def cutNow (s : State) : State :=
  let g := s.jrc.gen + 1
  let j := ringAppend { s.jrc with gen := g } [gensWord g]
  let seq := ((newestRoot s.jrc).map fun r => r.seq).getD 0 + 1
  let root : Root := {
    bytes := rootImage g seq j.head (j.gseq + 1) (s.map.wsn + 2 ^ 36) s.map.sbidNext 0 j.tokens 0
    tab := s.map.tab, badTab := s.map.badTab, ttab := viewRange s (ttBase s 0) (2 ^ 25) }
  let s := { s with jrc := { putRoot j (otherBank s.jrc) root with
    tail := j.head, live := 0, twoGen := false, next := none, lastRoot := some s.clk.tb, lastCopy := some root } }
  writeArea (wr (updMap s fun m => { m with wsnLim := m.wsn + 2 ^ 36 }) (jrc 0x38) seq) root

/-- The boot record with COMMISSIONED 1 (R453 step 6). -/
def commissioned (s : State) : State :=
  let slot := match recordInForce s with | some (_, l) => fieldAt l 16 1 % 2 | none => runningSlot s
  writeRecordCopy s slot 1 (digest16 (slotImage s slot))

/-- First boot (R453): empty JRAM regions, the factory marks, an empty map, the system superblocks, the first epoch and its root, and
the boot record with source 149. No record has marked a segment before that cut: its table is empty; the groups of the system superblocks
follow it into the first generation (DESIGN CHOICE, log entry 198). -/
def firstBoot (s : State) : State :=
  let bad : List BadEnt := s.flash.marks.map fun m => { cause := 1, erases := 0, lun := m.1, block := m.2 }
  let blocks := bad.foldl (fun (t : NMap BlkInfo) x => nset t (blkKey x.lun x.block) { st := 3 }) []
  let s := updMap s fun m => { m with
    tab := { blocks, commitC := s.boot.userCap }, badTab := bad, badLog := [], chip := 0, retired := false, sbidNext := 1, wsn := 0
    wsnLim := 2 ^ 36, sysSb := [], retSys := [] }
  let s := updMap s fun m => { m with s0 := spare s, u0 := usable s }
  let j : Jrc := mirrorWrite { tokens := Config.tokenDepth, lastCut := s.clk.tb, hurt := s.jrc.hurt } 0 0x20000
  let s := updMem { s with jrc := j, prog := {} } fun m => { m with repair := [], jspare := [] }
  let s := if (openChannels s).length < minWidth s then s else openNow (openNow s 22) 23
  let s := wrField (commitReqs (cutNow s)) Reg.cfgBoot 18 18 1
  raise (commissioned (updBoot (recovNote s 4 0) fun b => { b with firstBoot := true })) 149


/-- What recommissioning loads: the block and superblock information tables (R452 step 1). -/
def recomTables (s : State) (r : Root) : Bool := segsReadable s r fun c => c == 3 || c == 4
/-- Recommissioning (R452) steps 1 to 5. The journal is replayed as far as it can be read (DESIGN CHOICE, log entry 205). -/
def recommission (s : State) (r : Root) : State :=
  let s := wrField s Reg.cfgBoot 17 17 1
  let s := recoverTake s r (replayFrom s r)
  let ids := (List.range 128).map (· + 1)
  let s := ids.foldl (fun s n => newSalt (newSalt s n 0) n 1) (updCry s fun c => { c with keys := [] })
  let s := updTab s fun t => { t with ns := [], bundles := [], commitC := 0, sanitize := 0 }
  let s := updMap s fun m => { m with badTab := m.badTab ++ m.badLog, badLog := [] }
  let s := commitNow s [{ owner := .other, wants := [.nsop 5 0 0xA []] }]
  let s := progWrite s fun p => { p with
    kind := 2, phase := 1, action := 0xA, nsid := 0xFFFFFFFF, cursor := 0, rounds := 0, fails := 0, stage := 1, sstat := 2, cdw10 := 0xA, cmd := none }
  let s := setChip (cutNow s) 0
  let s := updPat s fun p => { p with dlo := [], staging := [] }
  let s := recovNote (updBoot s fun b => { b with recom := true, recomNow := true }) 0 (((chosenRoot s).map fun x => x.1).getD 0)
  let slot := match recordInForce s with | some (_, l) => fieldAt l 16 1 % 2 | none => runningSlot s
  wrField (raise (writeRecordCopy s slot 1 (digest16 (slotImage s slot))) 149) Reg.cfgBoot 17 17 0

/-- RECOM stands in the boot record in force, in depot mode. -/
def recomAsked (s : State) : Bool := s.sec.depot && (match recordInForce s with | some (_, l) => recRecom l | none => false)
/-- Recommissioning is refused: RECOM is cleared and source 149 is raised (R452 step 1). -/
def recomRefused (s : State) : State :=
  let slot := match recordInForce s with | some (_, l) => fieldAt l 16 1 % 2 | none => runningSlot s
  let com := match recordInForce s with | some (_, l) => (if recCommissioned l then 1 else 0) | none => 1
  raise (writeRecordCopy s slot com (digest16 (slotImage s slot))) 149

/-- The root banks as they were read: a copy of J0 that is uncorrectable is rewritten from J1's (R257). -/
def rootsRead (s : State) : State :=
  [0, 1].foldl (fun s b =>
    if (hurtIn s.jrc 0 (b * 0x1000) 256).isEmpty then s else
    let (s, lost) := mirroredRead s (b * 0x1000) 256
    if !lost.isEmpty then s else
    match nget s.jrc.roots (2 * b + 1) with
    | some r => updJrc s fun j => { j with roots := nset j.roots (2 * b) r }
    | none => s) s
/-- Root selection at stage 4 (R273): JRC_RECOV shows what stage 5 replays. -/
def selectRoot (s : State) : State :=
  match chosenRoot s with
  | some (k, _) => recovNote s (if k = 4 then 2 else 0) k
  | none => recovNote s 3 0
/-- Segment load and replay at stage 5 (R274, R275): not after a first boot or a recommissioning, which have their map. -/
def loadMap (s : State) : State :=
  if s.boot.firstBoot || s.boot.recomNow then s else
  match chosenRoot s with
  | some (_, r) => recoverFrom s r
  | none => recoverFailed s

/-- The retirement bits that the flash system area holds (R255): the registers show them again, and a channel past step 6 stays so. -/
def restoreRetired (s : State) : State :=
  let s := s.map.retSys.foldl (fun s e => orReg s e.1 e.2) s
  updChip s fun c => { c with chnGone := c.chnGone.filter fun k => bit32 s rChRet k }
/-- Retirements that a reset cut short go on at step 3 (Table 10-12): the members' superblocks are marked, and a channel's sweep is
still to come. -/
def resumeRetired (s : State) : State :=
  let gone (c p : Nat) : Bool := lunRetired s c p
  let mark (e : Nat × Sb) : Nat × Sb := if e.2.members.any (fun m => gone m.chn m.pos) then (e.1, { e.2 with degraded := true }) else e
  let s := updTab s fun t => { t with sbs := t.sbs.map mark }
  let chns := (List.range 32).filter fun c => bit32 s rChRet c && !s.chip.chnGone.contains c
  updMap s fun m => { m with retiring := m.retiring ++ chns.map fun c => (c, none, 2) }

/-- The seed tables that the die-type overlay supplies, in DRAM where CHN_TTSEED places them (R219). -/
def seedTables (s : State) : State :=
  let tab := (List.range 40).flatMap fun k =>
    (List.range 16).map fun i => if i = 15 then (0 : Byte) else BitVec.ofInt 8 (Config.dieSeed s.flash.die.raw (k / 8) (k % 8) (i + 1))
  (((List.range 32).map (ttSeedBase s)).dedup).foldl (fun s a => directWrite s a tab) s

/-- Stage 4 (R447): couriers, then first boot, recommissioning or root selection; JRC_STS.RECOVERING is 1. -/
def stage4 (s : State) : State :=
  let s := restoreRetired (trig54 (wrField (stage s 4) (Reg.sts .jrc) 19 19 1) (jrc 0x58))
  let s := (List.range 4).foldl (fun s d => takeCost (enableBlk s .dst d) d) (seedTables s)
  let s := (List.range 32).foldl courierStart s
  rootsRead (if uncommissioned s && (chosenRoot s).isNone then firstBoot s
  else if recomAsked s then
    (match (chosenRoot s).filter fun x => recomTables s x.2 with
    | some (_, r) => recommission s r
    | none => selectRoot (recomRefused s))
  else selectRoot s)

/-! ## Stage 5: open superblocks (R276) -/

/-- A page group reads as programmed: every one of its slots is there. -/
def pageWritten (s : State) (base : Nat) : Bool := (List.range 16).all fun i => (nget s.flash.media (base + i)).isSome

/-- The dump that matches the replay: the newest, whose DGSEQ is the last replayed group's GSEQ. -/
def matchingDump (s : State) : Option Dump :=
  match newestDump s.jrc with | some (_, d) => if d.dgseq = s.jrc.gseq then some d else none | none => none

/-- Close a superblock early at row r at recovery (R276): done are the members of that row that hold their page group. -/
def closeAt (s : State) (k x : Nat) (o : OpenSb) (b : Sb) (r : Nat) (done : List Nat) (bare : List Nat := []) : State :=
  let ends (m : Nat) (y : Member) : Member :=
    { y with endrow := min y.endrow (if done.contains m && !b.isParity m then r + 1 else r) }
  let pgs := bare ++ (b.dataMems.filter fun m => r < b.endRow m && done.contains m).map fun m => b.page m r
  let s := modSb s x fun b => { b with closed := true, nextRow := r, members := b.members.mapIdx ends }
  let s := updMap s fun m => { m with opens := nset m.opens k { o with
    sbx := x, durable := true, done, next := 0, closing := some pgs, asked := false } }
  let s := updChip (strCauseSet (refreshHead s pgs) 3) fun c => { c with closures := c.closures ++ [x] }
  if pgs.isEmpty then askSeal s k else s

/-- Seal a superblock whose last row was done. -/
def sealAt (s : State) (k x : Nat) (o : OpenSb) : State :=
  let s := updMap s fun m => { m with opens := nset m.opens k { o with sbx := x, durable := true, asked := false, closing := none } }
  askSeal (updChip s fun c => { c with closures := c.closures ++ [x] }) k

/-- The first row with a member page group that is not programmed; rows where every one is. -/
def firstGap (s : State) (b : Sb) : Nat :=
  ((List.range b.rows).find? fun r => (List.range b.nmem).any fun m => r < b.endRow m && !pageWritten s (b.page m r)).getD b.rows

/-- The data page groups of rows below r whose P or Q cannot be read (R276, no matching dump). -/
def bareRows (s : State) (b : Sb) (r : Nat) : List Nat :=
  let bare := (List.range r).filter fun q => !(pageWritten s (b.page b.pIdx q) && pageWritten s (b.page b.qIdx q))
  bare.flatMap fun q => (b.dataMems.filter fun m => decide (q < b.endRow m)).map fun m => b.page m q
/-- One superblock that the replay left open (R276). -/
def reopen (s : State) (x : Nat) (b : Sb) : State :=
  let k := b.stream
  match (matchingDump s).bind fun d => (nget d.sbs k).filter fun e => e.1.sbx == x with
  | some (o, db) =>
    let s := modSb s x fun _ => { db with vcount := b.vcount, st := 1, pins := 0, job := false }
    if db.rows ≤ db.nextRow then sealAt s k x o
    else if !o.sealing && o.closing.isNone && (o.folded.all fun m => o.done.contains m) && (o.done.all fun m => o.folded.contains m) then
      updMap s fun m => { m with opens := nset m.opens k { o with durable := true, next := db.nextRow * db.dataMems.length, asked := false } }
    else closeAt s k x o db db.nextRow o.done
  | none =>
    let r := firstGap s b
    if b.rows ≤ r then sealAt (modSb s x fun b => { b with nextRow := b.rows }) k x { sbx := x }
    else closeAt s k x { sbx := x, lost := true } b r
      ((List.range b.nmem).filter fun m => r < b.endRow m && pageWritten s (b.page m r)) (bareRows s b r)

/-- The keys of every namespace are loaded from their carriers; one that fails, or whose SALT neither die gives, stays lost (R369). -/
def loadKeys (s : State) : State :=
  let (s, lost) := mirroredRead s 0x30000 0x2000
  s.map.tab.ns.foldl (fun s e => if lost.contains (saltUnit e.1 e.2.key.salt) then s else
    match unwrapOf s e.1 e.2.key.salt e.2.key.wrapped with
    | some k => updCry s fun c => { c with keys := nset c.keys e.1 k }
    | none => s) s

/-- PHC_CTL.EN at stage 5 (R180): the invalidation that the reset began has ended by then, since stage 3 lasts longer than its
16,448 clocks (DEDUCED, log entry 156). -/
def phcStart (s : State) : State := phcEnable (invalidationDone (wrField s (Reg.ctl .phc) 0 0 1))

/-- Stage 5 (R447): the cache, the map, the keys with step 4 of a replacement repeated (R368, log entry 174), the stripe engine, the map
engine, the closures and the recount they are followed by. -/
def stage5 (s : State) : State :=
  let s := loadKeys (loadMap (phcStart (stage s 5)))
  let s := resumeRetired (oldSalts s (s.map.tab.ns.map fun e => e.1))
  let s := if uncommissioned s && (newestRoot s.jrc).isSome then commissioned s else s
  let opened := s.map.tab.sbs.filter fun e => e.2.st == 1
  let lost := !opened.isEmpty && (matchingDump s).isNone
  let s := enableBlk (enableBlk s .str) .map
  let s := if lost && rdField s (jrc 0x58) 30 28 = 0 then wrField s (jrc 0x58) 30 28 1 else s
  let s := opened.foldl (fun s e => reopen s e.1 e.2) s
  let s := if opened.isEmpty || lost then s else restoreDone s
  let s := updMap s fun m => { m with recount := m.tab.sbs.map fun e => e.1 }
  let s := if s.jrc.twoGen then ckptStart s s.jrc.dirtyOld else s
  spaceUpdate (turn s)

/-! ## Stage 6 (R79), and what follows it -/

/-- CSTS.RDY of an enabled controller once the map is ready; CSTS.CFS where start-up has halted (R79, R450). -/
def portReady (s : State) (p : Port) : State :=
  let x := getPort s p
  if !x.en || x.rdy || x.cfs || x.drain.isSome then s
  else if s.chip.mapReady then noteReady (setPort s p { x with rdy := true, fetching := true })
  else if halted s then setPort s p { x with cfs := true } else s

/-- A format or sanitize that a reset cut short goes on (R418, Table 10-12). -/
def progResume (s : State) : State :=
  let p := s.prog
  if p.kind = 0 && s.map.tab.sanitize != 0 then sanitizeKeys s s.map.tab.sanitize none
  else if p.kind = 0 && anyFormat s then segFill { s with prog := { p with kind := 1, phase := 1, stage := 2, nsid := 0xFFFFFFFF } }
  else if p.kind = 1 then
    if (s.map.tab.ns.any fun e => e.2.formatting) then segFill { s with prog := { p with stage := 2 } } else { s with prog := {} }
  else if p.kind = 2 then
    if p.stage = 8 || s.map.tab.sanitize = 0 then sanitizeKeys s p.action none
    else if p.phase = 3 then issueRound { s with prog := { p with stage := 4 } }
    else if p.phase = 4 then { s with prog := { p with stage := 5 } }
    else segFill { s with prog := { p with stage := 2, phase := 2 } }
  else s

/-- Off-time at a supply power-on: PAT_OFFDEF days until the Timestamp tells it (R284). -/
def offTime (s : State) : State :=
  if rdField s 0xE0014 3 0 != 1 then s else
  let d := rdField s (pat 0x20) 7 0 * 86400
  updPat s fun p => { p with tage := p.tage + d, offAdv := some d }

/-- Start-up ends once the closures and the recount have (R277, R127, R79): JRC_RECOV is final, source 63, the sorting office
and the patrol run, controllers with CC.EN become ready, and what the reset cut short resumes. -/
def stage6 (s : State) : State :=
  if !s.chip.starting || s.chip.mapReady || s.chip.held || s.chip.wakeWait || halted s then s else
  let left := s.chip.closures.filter fun x => match nget s.map.tab.sbs x with | some b => b.st == 1 | none => false
  let s := updChip s fun c => { c with closures := left }
  if !left.isEmpty || !s.map.recount.isEmpty then s else
  let s := wrField s (Reg.sts .jrc) 19 19 0
  let s := recovEnd (enableBlk s .srt)
  let s := updChip (stage s 6) fun c => { c with mapReady := true, starting := false }
  let s := updPat s fun p => { p with tab := p.copyTab, tage := p.copyTage }
  let s := match s.pat.saved with | some d => wrField s (pat 0x10) 6 0 d | none => s
  let s := offTime (portReady (portReady s .a) .b)
  let s := if s.prog.kind = 2 then s else enableBlk s .pat
  pump (progResume s)

/-- Stages 3 to 6, as far as they go at once. -/
def stages3 (s : State) : State :=
  let s := if halted s then s else stage3 s
  if halted s then s else stage6 (stage5 (stage4 s))

/-- May the staggered wake end (R340)? Group time has reached the address's step; a unit without an address 250 ms after its first port
came UP goes by SERHASH; none waits more than 960 ms after stage 2, which ends as the reset is released. -/
def wakeDue (s : State) : Bool :=
  let step := rdField s (Reg.ctl .rng) 7 4 * 250000
  let r := s.ring
  decide (s.clk.boot + 240000000 ≤ s.clk.tb) || (match r.addr with
    | some a => r.st == .member && decide (r.gstart + a * step ≤ groupTime s)
    | none => r.everUp && decide (r.upAt + 62500000 ≤ s.clk.tb) && decide (s.clk.boot + serhash s % 64 * step ≤ s.clk.tb))
/-- STAGGERED_WAKE_END (R340). -/
def wakeEnd (s : State) : State :=
  if !s.chip.wakeWait || s.chip.held || !wakeDue s then s else stages3 (updChip s fun c => { c with wakeWait := false })

/-- RESET_RELEASE (R447): a reset that waits is released and start-up runs. -/
def resetRelease (s : State) : State :=
  if !s.chip.powered || !s.chip.held then s else
  let s := updChip s fun c => { c with rstLow := false }
  if s.chip.failLow then updChip s fun c => { c with kind := if c.kind = 1 then 1 else 3 }
  else if s.chip.kind = 0 || s.thm.shutdown && s.chip.kind != 2 && s.chip.kind != 1 then s
  else
    let kind := s.chip.kind
    let s := if kind = 2 then aonReset s 2 else s
    let s := updChip s fun c => { c with held := false, parked := false, kind := 0, starting := true }
    let s := powerUp (updClk s fun c => { c with boot := c.tb })
    let s := if 5 ≤ kind then raise s 151 else wr s 0xE0014 kind
    let s := if kind = 4 then setCause s Reg.thmCause 8 111 else s
    let s := if s.pwr.failRan then raise (updPwr s fun p => { p with failRan := false }) 119 else s
    let s := stage2 (stage1 s)
    if halted s then s
    else if mustWait s then updChip (stage s 7) fun c => { c with wakeWait := true }
    else stages3 s

/-- PERST_N_DEASSERT (R97). -/
def perstOff (s : State) (p : Port) : State :=
  if !portPresent s p || !(getPort s p).perst then s else
  let s := modPort s p fun x => { x with perst := false }
  portEnable s p

/-- The sanitize that recommissioning started is done (R452): C, S0 and the chip state. -/
def recomDone (s : State) : State :=
  if !s.boot.recom then s else
  let room := ((usable s - reserveR s : Nat) : Int) - shedThr s
  let c := min s.boot.userCap room.toNat / 16 * 16
  let s := updTab s fun t => { t with commitC := c }
  let s := updMap (updBoot s fun b => { b with recom := false }) fun m => { m with s0 := spare s }
  setChip s (if c = 0 || noFreeBlock s then 3 else if s.map.retired then 1 else 0)

/-- MAP_RECOUNT_DONE (R277): at start-up it follows the closures. -/
def recountEnd (s : State) : State :=
  if s.chip.starting && !s.chip.closures.isEmpty then s else stage6 (recountDone s)

/-- COMMIT_ACK, with what waits for its groups: start-up's closures, and recommissioning's end. -/
def commitEnded (s : State) (lines : List LineReq) : State :=
  let was := s.prog.kind == 2
  let s := stage6 (commitAck s lines)
  if was && s.prog.kind = 0 then recomDone s else s

end Sys2Proof.Machine
end

