-- ==== Sys2Proof/Machine/Ports.lean ====
section
/-! DEFINITION. Port and controller events (R69 to R74, R79, R95 to R98): links, controller enable and disable, shutdown,
drains, LTR, configuration requests and PCIe errors. -/

namespace Sys2Proof.Machine

/-- A front end's register at an offset, and its event source: those of port B are eight above port A's (Table 3-15). -/
def hfe (p : Port) (off : Nat) : Nat := (portBlk p).base 0 + off
def hfeRaise (s : State) (p : Port) (src : Nat) : State := raise s (src + 8 * p.num)

/-- Lanes of the port at full width (Table 3-1). -/
def fullWidth (s : State) : Nat := if hostX8 s then 8 else 4

/-! ## Drains (R95, R96, Tables 3-10 and 3-11) -/

/-- Does an event leave the command running past the drain: Format NVM and Sanitize (Table 3-11)? -/
def outlives (c : Cmd) : Bool := isFormat c.body || isSanitize c.body
/-- Fetched commands of the port that the drain waits for (HFE_DRAIN). A normal shutdown posts completions: it waits for the
held ones too. -/
def drainLeft (s : State) (p : Port) : Nat :=
  (s.srt.cmds.filter fun c => c.2.q.port == p && !outlives c.2).length
    + (match s.sec.commit with | some c => if c.port == p && s.boot.op.isSome then 1 else 0 | none => 0)
    + (if (getPort s p).drain == some .shutdown then sumOf ((getPort s p).cqs.map fun e => e.2.held.length) else 0)

/-- The drain of a port starts: no completion of its commands is posted any more, held ones included, and a write whose data
transfer is incomplete is dropped. Outstanding Asynchronous Event Requests end. -/
def drainStart (s : State) (p : Port) (k : DrainKind) : State :=
  let keep (e : Nat × Sq) : Nat × Sq := (e.1, { e.2 with deleting := none })
  let bare (e : Nat × Cq) : Nat × Cq := (e.1, { e.2 with held := [] })
  let s := modPort s p fun x => { x with
    fetching := false, drain := some k, aerOut := [], abortOut := none, abortWait := none, coal := []
    sqs := x.sqs.map keep, cqs := x.cqs.map bare }
  let mine := (s.srt.cmds.filter fun c => c.2.q.port == p).map fun c => c.1
  let s := mine.foldl (fun s id => modCmd s id fun c => { c with mute := true }) s
  let s := updSec s fun x => { x with commit := x.commit.map fun c => if c.port == p then { c with mute := true } else c }
  let s := if (s.ring.schedWait.map fun w => w.1) == some p then updRing s fun r => { r with schedWait := none } else s
  let s := mine.foldl (fun s id => match getCmd s id with
    | some c => if isWrite c.body && !c.dataIn then endCmd s id stAbortReq else s
    | none => s) s
  pump (proceedAll (trkSettle s))

/-- The controller of a port after the drain of a reset, link event or CC.EN clear: no queue is left, and its features and
directives are at their defaults but for the subsystem's (PRESUMED, the standard's; log entry 43). -/
def controllerCleared (s : State) (p : Port) : State :=
  modPort s p fun x => { x with
    rdy := false, cfs := false, shst := 0, sqs := [], cqs := [], aerHeld := [], aerMask := [], arb := {}
    secRsp := [], dirEn := [], dirOpen := [], dirRes := [], plm := false, tOver := {}, tUnder := {}
    feat := x.feat.filter fun e => e.1 == 0xD0 }

/-- The controller of a port after a shutdown: SHST is 0b10, and its I/O queues cease to exist, frozen ones with them (Table
4-6; DEDUCED, log entry 152). -/
def shutDown (s : State) (p : Port) : State :=
  modPort s p fun x => { x with shst := 2, sqs := x.sqs.filter fun e => e.1 == 0, cqs := x.cqs.filter fun e => e.1 == 0 }

/-- DRAIN_COMPLETE: nothing fetched is left. A normal shutdown, whose commands completed, raises no source. -/
def drainEnd (s : State) (p : Port) : State :=
  match (getPort s p).drain with
  | none => s
  | some k =>
    if drainLeft s p != 0 then s else
    let s := modPort s p fun x => { x with drain := none, fetching := false }
    match k with
    | .shutdown => shutDown s p
    | .abruptShutdown => hfeRaise (shutDown s p) p 75
    | .reset => hfeRaise (controllerCleared s p) p 75
    | .flr => hfeRaise (controllerCleared s p) p 75
    | .link => hfeRaise (controllerCleared s p) p 75

/-! ## Controller enable, disable and shutdown -/

/-- Can the host reach the controller's registers: the port is present, its link up and the function in D0? -/
def reachable (s : State) (p : Port) : Bool :=
  portPresent s p && (getPort s p).linkUp && !(getPort s p).d3hot && !s.chip.held

/-- A value of CC that the controller supports: CC.AMS round robin or weighted round robin, CC.MPS up to CAP.MPSMAX (R78). -/
def ccOk (ams mps : Nat) : Bool := ams ≤ 1 && mps ≤ 4

/-- CC_EN_SET (R79, R80): the admin queue pair has the sizes of AQA, ASQS and ACQS being one less than the entries, and CSTS.RDY
follows once the map is ready. The host's write raises source 76 whatever comes of it (R98); CC.EN set while it is 1 or while a
drain runs has no effect (Table 3-10). An unsupported AMS or MPS is a fatal error, CSTS.CFS (PRESUMED, log entry 90). -/
def enableController (s : State) (p : Port) (cc : CcFields) (aqa : Aqa) : State :=
  let x := getPort s p
  if !reachable s p then s
  else if x.en || x.drain.isSome then hfeRaise s p 76 else
  let s := setPort s p { x with
    en := true, cfs := !ccOk cc.ams cc.mps, ams := cc.ams, mps := cc.mps, cc, aq := aqa, shst := 0, shn := 0
    asqs := aqa.asqs % 4096, acqs := aqa.acqs % 4096, arb := {}, coal := []
    abortOut := none, abortWait := none
    sqs := nset x.sqs 0 { size := aqa.asqs % 4096 + 1 }
    cqs := nset x.cqs 0 { size := aqa.acqs % 4096 + 1, ien := true } }
  hfeRaise (portReady s p) p 76

/-- CC_EN_CLEAR. -/
def disableController (s : State) (p : Port) : State :=
  let x := getPort s p
  if !reachable s p then s
  else if !x.en then hfeRaise s p 76
  else drainStart (hfeRaise (setPort s p { x with en := false }) p 76) p .reset

/-- SHUTDOWN_NORMAL: the commands fetched complete; with none, SHST is 0b10 at once. The write raises source 76 whatever comes
of it (R98). -/
def shutdownOrderly (s : State) (p : Port) : State :=
  let x := getPort s p
  if !reachable s p then s
  else if !x.en || x.drain.isSome || x.shst = 2 then hfeRaise s p 76 else
  let s := hfeRaise (setPort s p { x with shst := 1, shn := 1, drain := some .shutdown }) p 76
  if drainLeft s p = 0 then drainEnd s p else s

/-- SHUTDOWN_ABRUPT: fetched commands are drained. -/
def shutdownAtOnce (s : State) (p : Port) : State :=
  let x := getPort s p
  if !reachable s p then s
  else if !x.en || (x.drain.isSome && x.drain != some .shutdown) || x.shst = 2 then hfeRaise s p 76 else
  drainStart (hfeRaise (setPort s p { x with shst := 1, shn := 2 }) p 76) p .abruptShutdown

/-! ## What the host reads in BAR0 and BAR4 (R76 to R78); no row of the table reads them -/

/-- The controller registers of the standard in BAR0: CAP (0x00 and 0x04), VS, INTMS and INTMC (which mask nothing under MSI-X and
read 0), CC, CSTS, AQA, ASQ and ACQ. A reset of the controller leaves AQA, ASQ and ACQ as they are and CC at 0 (PRESUMED, the
standard's; log entry 97). -/
def nvmeReg (s : State) (p : Port) (off : Nat) : Option Nat :=
  let x := getPort s p
  if off = 0x00 then some (12 * 2 ^ 24 + 1 * 2 ^ 17 + 2 ^ 16 + 0xFFFF)
  else if off = 0x04 then some (4 * 2 ^ 20 + 2 ^ 5)
  else if off = 0x08 then some 0x00020000
  else if off = 0x0C || off = 0x10 then some 0
  else if off = 0x14 then some (x.cc.iocqes * 2 ^ 20 + x.cc.iosqes * 2 ^ 16 + x.shn * 2 ^ 14 + x.ams * 2 ^ 11 + x.mps * 2 ^ 7
    + x.cc.css * 2 ^ 4 + if x.en then 1 else 0)
  else if off = 0x1C then some (x.shst * 4 + (if x.cfs then 2 else 0) + if x.rdy then 1 else 0)
  else if off = 0x24 then some (x.acqs * 2 ^ 16 + x.asqs)
  else if off = 0x28 then some (x.aq.asq % 2 ^ 32)
  else if off = 0x2C then some (x.aq.asq / 2 ^ 32)
  else if off = 0x30 then some (x.aq.acq % 2 ^ 32)
  else if off = 0x34 then some (x.aq.acq / 2 ^ 32)
  else none
/-- A dword of the MSI-X table in BAR4: vector v's address low and high, data, and mask bit. -/
def msixTable (s : State) (p : Port) (v dw : Nat) : Nat :=
  let e := ngetD (getPort s p).msix v {}
  match dw with
  | 0 => e.addr % 2 ^ 32 | 1 => e.addr / 2 ^ 32 % 2 ^ 32 | 2 => e.data % 2 ^ 32 | _ => if e.mask then 1 else 0
/-- A 64-bit word of the Pending Bit Array, at 0x2000 of BAR4. -/
def pbaWord (s : State) (p : Port) (w : Nat) : Nat :=
  sumOf ((List.range 64).map fun i => if (ngetD (getPort s p).msix (64 * w + i) {}).pba then 2 ^ i else 0)

/-! ## Function and link events -/

/-- What every reset of the function does at once: CC.EN reads 0, configuration space and the MSI-X table are at their
defaults, BAR2's window closes outside depot mode (Tables 2-9 and 3-10), and a link that stays up leaves L1 for L0 (R73). -/
def functionReset (s : State) (p : Port) : State :=
  let x := getPort s p
  let s := if x.linkUp && x.d3hot then wrField s (hfe p 0x10) 23 18 (3 * 4) else s
  closeWin (modPort s p fun x => { x with
    en := false, ams := 0, mps := 0, shn := 0, cc := { ams := 0, mps := 0, iosqes := 0, iocqes := 0 }
    d3hot := false, ltrHost := none, msix := [], cfgSpace := spaceRestored x }) p

/-- FUNCTION_LEVEL_RESET. -/
def flr (s : State) (p : Port) : State :=
  if !portPresent s p || !(getPort s p).linkUp || s.chip.held then s
  else drainStart (wrField (functionReset s p) (hfe p 0x18) 15 0 0) p .flr

/-- The data link goes down: HFE_LINK shows no rate and no width, source 73. -/
def dropLink (s : State) (p : Port) (ltssm : Nat) : State :=
  if !(getPort s p).linkUp then s
  else hfeRaise (modPort (wr s (hfe p 0x10) (ltssm * 2 ^ 20)) p fun x => { x with linkUp := false }) p 73

/-- HOT_RESET_OR_PERST: a hot reset arrives over the link; PERST_N at any time. -/
def conventionalReset (s : State) (p : Port) (perst : Bool) : State :=
  let x := getPort s p
  if !portPresent s p || (!perst && !x.linkUp) || (perst && x.perst) then s else
  let s := modPort s p fun y => { y with perst := y.perst || perst }
  if s.chip.held then s
  else drainStart (wrField (functionReset (dropLink s p (if perst then 0 else 8)) p) (hfe p 0x18) 15 0 0) p .link

/-- LINK_DOWN. -/
def linkLost (s : State) (p : Port) : State :=
  if !portPresent s p || !(getPort s p).linkUp || s.chip.held then s
  else drainStart (wrField (functionReset (dropLink s p 0) p) (hfe p 0x18) 15 0 0) p .link

/-- What a port offers its partner in training, from HFE_LCFG: the highest rate, the preset hints at 16, 32 and 64 GT/s, whether it
advertises Equalization Bypass to Highest Rate, and the reference clock mode (R69, R71, R72). -/
def linkOffer (s : State) (p : Port) : Out :=
  let v := rd s (hfe p 0x14)
  .linkOffer p (bitsOf v 2 0) [bitsOf v 7 4, bitsOf v 11 8, bitsOf v 15 12] (bitOf v 3) (bitsOf v 17 16)

/-- LINK_UP (R69, R70, Tables 3-2 and 3-13): the link comes up at a rate of at most MAXRATE, 1 for 2.5 GT/s to 6 for 64, and a
width the port can train to; 64 GT/s is FLIT mode. -/
def linkTrained (s : State) (p : Port) (rate width : Nat) (flit : Bool) : State :=
  let x := getPort s p
  let maxr := rdField s (hfe p 0x14) 2 0
  let full := fullWidth s
  let widths := [1, 2, 4] ++ if full = 8 then [8] else []
  if !portPresent s p || x.perst || x.linkUp || !x.trainEn || s.chip.held || !active s (portBlk p)
      || rate = 0 || maxr < rate || !widths.contains width then s else
  let deg := decide (width < full) || decide (rate < 4) || (maxr == 6 && decide (rate < 6))
  let s := emit s (linkOffer s p)
  let s := wr s (hfe p 0x10) ((if deg then 2 ^ 31 else 0) + 3 * 2 ^ 20 + (if flit || rate = 6 then 2 ^ 17 else 0) + 2 ^ 16 + width * 2 ^ 8 + rate)
  let s := hfeRaise (modPort s p fun y => { y with linkUp := true }) p 73
  if deg then hfeRaise s p 74 else s

/-! ## LTR, configuration requests and PCIe errors -/

/-- LTR_SEND (R74): a changed latency is sent, at most once per 1 ms. -/
def ltrMessage (s : State) (p : Port) (us : Nat) : State :=
  let x := getPort s p
  let soon := match x.ltrAt with | some t => decide (s.clk.tb < t + 250000) | none => false
  if !portPresent s p || !x.linkUp || s.chip.held || soon || us = x.ltrSent then s
  else emit (wrField (setPort s p { x with ltrSent := us, ltrAt := some s.clk.tb }) (hfe p 0x18) 31 16 (min us 0xFFFF)) (.ltr p us)

/-- The link state of a function in D3hot: L1, in the substate that the L1 PM Substates control enables; L0 again in D0 (R73;
DEDUCED, log entry 151). -/
def dState (s : State) (p : Port) (hot : Bool) : State :=
  let x := getPort s p
  let sub := cfgDword x 0x178
  let s := wrField (setPort s p { x with d3hot := hot }) (hfe p 0x10) 23 20 (if hot then 5 else 3)
  wrField s (hfe p 0x10) 19 18 (if !hot then 0 else if bitOf sub 0 then 2 else if bitOf sub 1 then 1 else 0)
/-- The host's maximum latencies, in µs; a change raises source 79 (R74, R98). -/
def ltrMaxSet (s : State) (p : Port) (m : Nat) : State :=
  if (getPort s p).ltrHost = some m then s
  else hfeRaise (wrField (modPort s p fun y => { y with ltrHost := some m }) (hfe p 0x18) 15 0 (min m 0xFFFF)) p 79
/-- A configuration write: the writable bits of the dword, those that a 1 clears, and what they govern: Initiate Function Level
Reset is bit 15 of Device Control. D1 and D2 are not supported. -/
def configWrite (s : State) (p : Port) (off v : Nat) : State :=
  let m := cfgWritable off
  if m = 0 && cfgClears off = 0 then s else
  let old := cfgDword (getPort s p) off
  let pst := off = 0x44 && (v % 4 = 1 || v % 4 = 2)
  let kept := old - (old &&& (m ||| (v &&& cfgClears off)))
  let new := if pst then old else kept + (v &&& m)
  let s := modPort s p fun x => { x with cfgSpace := nset x.cfgSpace off new }
  if off = 0x44 then (if pst then s else dState s p (v % 4 == 3))
  else if off = 0x50 then (List.range 130).foldl (fun s v => msixFlush s p v) s
  else if off = 0x68 && bitOf v 15 then flr s p
  else if off = 0x164 then ltrMaxSet s p (min (ltrMicros (v % 2 ^ 16)) (ltrMicros (v / 2 ^ 16)))
  else s

/-- Link Capabilities and Link Status from the port's rate and width (R69, R70, R73: ASPM L1, no L0s), and the serial number; every
other dword as the function's space holds it. -/
def cfgRead (s : State) (p : Port) (off : Nat) : Option Nat :=
  let x := getPort s p
  let l := rd s (hfe p 0x10)
  if off = 0x6C then some (rdField s (hfe p 0x14) 2 0 + fullWidth s * 2 ^ 4 + 2 ^ 11 + 2 ^ 22)
  else if off = 0x70 then some (cfgDword x 0x70 + (bitsOf l 2 0) * 2 ^ 16 + bitsOf l 11 8 * 2 ^ 20
    + (if rdField s (hfe p 0x14) 17 16 = 0 then 2 ^ 28 else 0) + (if x.linkUp then 2 ^ 29 else 0))
  else if off = 0x154 then some (Config.serialNumber s.chip.serial % 2 ^ 32)
  else if off = 0x158 then some (Config.serialNumber s.chip.serial / 2 ^ 32 % 2 ^ 32)
  else nget x.cfgSpace off

/-- CONFIGURATION_REQUEST (R73, R74, R97): Retry Status until configuration space is loaded. What a read of a register the
spec gives no value for returns is a free value. -/
def configAccess (s : State) (p : Port) (w : CfgReq) : State :=
  let x := getPort s p
  if !portPresent s p || !x.linkUp || s.chip.held then s
  else if !x.cfgReady then emit s (.configReply p none)
  else match w with
  | .read off =>
    (match cfgRead s p off with
    | some v => emit s (.configReply p (some v))
    | none => let (s, v) := freshBelow s (2 ^ 32); emit s (.configReply p (some v)))
  | .write off v => configWrite (emit s (.configReply p (some 0))) p off v
  | .dState hot => dState (emit (modPort s p fun y => { y with
      cfgSpace := nset y.cfgSpace 0x44 (setBits (cfgDword y 0x44) 1 0 (if hot then 3 else 0)) }) (.configReply p (some 0))) p hot
  | .ltrMax snoop noSnoop => ltrMaxSet (emit s (.configReply p (some 0))) p (min snoop noSnoop)

/-- The uncorrectable errors of AER, by bit. -/
def aerBits : List Nat := [4, 5, 12, 13, 14, 15, 16, 17, 18, 19, 20, 22]
/-- An uncorrectable error is logged: which one it was the command does not say (a free value), and its severity is what the AER
severity register gives it (PRESUMED, the standard's; log entry 97). -/
def aerLog (s : State) (p : Port) : State :=
  let (s, k) := freshBelow s 12
  let b := 2 ^ aerBits.getD k 4
  modPort s p fun x => if !x.cfgReady then x else { x with
    cfgSpace :=
      let t := nset x.cfgSpace 0x104 (cfgDword x 0x104 ||| b)
      nset t 0x68 (cfgDword x 0x68 ||| (if cfgDword x 0x10C &&& b = 0 then 2 ^ 17 else 2 ^ 18)) }

/-- PCIE_UNCORRECTABLE_ERROR (R98, R113): source 77, and the transfer it belongs to fails its command. -/
def pcieError (s : State) (p : Port) (id : Option Nat) : State :=
  if !portPresent s p || s.chip.held then s else
  let s := hfeRaise (aerLog s p) p 77
  match id.bind fun i => (getCmd s i).map fun c => (i, c) with
  | none => s
  | some (i, c) =>
    let transfers := isReading c.body || (isWrite c.body && !c.dataIn)
    if c.q.port != p || c.status.isSome || !transfers then s
    else failCmd s i stDataTransfer (match ioFields c.body with | some f => f.slba | none => 0)

end Sys2Proof.Machine
end

