-- ==== Sys2Proof/Machine/Admin.lean ====
section
/-! DEFINITION. Administrative commands (R80, R84, R91, R94, R120, R124, R353 to R356, R365, R410, R420 to R426): queues,
asynchronous events, attachment, directives, firmware download and commit, security, and the vendor commands. -/

namespace Sys2Proof.Machine

def stAccessDenied : Status := stField 2 0x86
def stRingUnavailable : Status := { sct := 7, sc := 0x10, m := true }
def stPrpOffset : Status := stField 0 0x13

/-- An admin command that can be fetched is taken for firmware, which then acts on it. -/
def admin (s : State) (q : Sqe) (f : State → State) : State := if !canFetchAdm s q then s else f (takeAdmin s q.port)
/-- An admin command that the standard does not permit during a sanitize or after a failed one (Table 17-6; PRESUMED, log
entry 42). -/
def adminClean (s : State) (q : Sqe) (f : State → State) : State :=
  admin s q fun s => if sanitizeOn s then complete s q stSanProgress else if sanFailed s then complete s q stSanFailed else f s
/-- A vendor command whose NSID must be 0 (R410). -/
def vendorCmd (s : State) (q : Sqe) (f : State → State) : State :=
  admin s q fun s => if q.nsid != 0 then complete s q stInvalidField else f s

/-! ## Queues (R77, R80, R120, R124) -/

/-- CREATE_IO_CQ; size is the number of entries. -/
def createCq (s : State) (q : Sqe) (qid size vector : Nat) (ien pc aligned : Bool) : State :=
  admin s q fun s =>
    let x := getPort s q.port
    if !pc then complete s q stInvalidField
    else if qid = 0 || 256 < qid || (nget x.cqs qid).isSome then complete s q stQidInvalid
    else if size < 2 || 65536 < size then complete s q stQueueSize
    else if 128 ≤ vector then complete s q stIntVector
    else if !aligned then complete s q stPrpOffset
    else complete (setPort s q.port { x with cqs := nset x.cqs qid { size, vector, ien } }) q stOk

/-- The fail-stop class of a new queue: FSM, or the Fail-Stop Default feature of the controller (R120). -/
def failStopDefault (s : State) (p : Port) : Nat := ngetD (getPort s p).feat 0xD1 (if storeOverlay s then 1 else 0)

/-- CREATE_IO_SQ. -/
def createSq (s : State) (q : Sqe) (qid size cqid prio fsm : Nat) (pc aligned : Bool) : State :=
  admin s q fun s =>
    let x := getPort s q.port
    if !pc || fsm = 3 then complete s q stInvalidField
    else if qid = 0 || 256 < qid || (nget x.sqs qid).isSome || cqid = 0 || 256 < cqid then complete s q stQidInvalid
    else if (nget x.cqs cqid).isNone then complete s q stCqInvalid
    else if size < 2 || 65536 < size then complete s q stQueueSize
    else if !aligned then complete s q stPrpOffset
    else
      let failStop := if fsm = 0 then failStopDefault s q.port == 1 else fsm == 1
      complete (setPort s q.port { x with sqs := nset x.sqs qid { size, cqid, prio, failStop } }) q stOk

/-- DELETE_IO_SQ (R124, Table 4-4): outstanding commands that Abort would catch complete with SQ Deletion, the others by their
own execution; the queue and the deletion wait for those. -/
def deleteSq (s : State) (q : Sqe) (qid : Nat) : State :=
  admin s q fun s =>
    let x := getPort s q.port
    match nget x.sqs qid with
    | none => complete s q stQidInvalid
    | some sq =>
      if qid = 0 || sq.deleting.isSome then complete s q stQidInvalid else
      let s := setPort s q.port { x with sqs := nset x.sqs qid { sq with deleting := some q } }
      let mine := (s.srt.cmds.filter fun c => c.2.q.port == q.port && c.2.q.qid == qid).map fun c => c.1
      if mine.isEmpty then deleteSettled s { q with qid := qid }
      else trkSettle (mine.reverse.foldl (fun s id => match getCmd s id with
        | some c => if !caught c then s else if c.modif then failCmd s id stSqDeleted else endCmd s id stSqDeleted
        | none => s) s)

/-- DELETE_IO_CQ. -/
def deleteCq (s : State) (q : Sqe) (qid : Nat) : State :=
  admin s q fun s =>
    let x := getPort s q.port
    if qid = 0 || (nget x.cqs qid).isNone then complete s q stQidInvalid
    else if x.sqs.any fun e => e.2.cqid == qid && e.1 != 0 then complete s q stQueueDeletion
    else complete (setPort s q.port { x with cqs := ndel x.cqs qid }) q stOk

/-- RESUME_QUEUE (R422, Table 4-6): Dword 0 is the SQHD from which fetching resumes. -/
def resumeQ (s : State) (q : Sqe) (sqid : Nat) : State :=
  vendorCmd s q fun s =>
    let x := getPort s q.port
    match nget x.sqs sqid with
    | none => complete s q stQidInvalid
    | some sq =>
      if sqid = 0 then complete s q stQidInvalid
      else if !sq.frozen then complete s q stOk sq.head
      else complete (raise (setPort s q.port { x with sqs := nset x.sqs sqid { sq with frozen := false } }) 92) q stOk sq.head

/-- ASYNC_EVENT_REQUEST (R94, AERL). -/
def aerRequest (s : State) (q : Sqe) : State :=
  admin s q fun s =>
    let x := getPort s q.port
    if 16 ≤ x.aerOut.length then complete s q stAerLimit
    else aerDeliver (setPort s q.port { x with aerOut := x.aerOut ++ [q.cid] }) q.port

/-! ## Attachment and directives (R84, R91) -/

/-- The port of a CNTLID (Table 3-1). -/
def ctrlPort (s : State) (c : Nat) : Option Port :=
  if c = 1 then some .a else if c = 2 && portPresent s .b then some .b else none

/-- NAMESPACE_ATTACHMENT. -/
def attachNs (s : State) (q : Sqe) (detach : Bool) (ctrls : List Nat) : State :=
  adminClean s q fun s =>
    if q.nsid = 0 || 128 < q.nsid then complete s q stInvalidNs else
    match nsOf s q.nsid with
    | none => complete s q stInvalidField
    | some n =>
      let ps := ctrls.filterMap (ctrlPort s)
      if ctrls.isEmpty || ps.length != ctrls.length then complete s q stCtrlList
      else if !detach && ps.any n.attached.contains then complete s q stNsAttached
      else if detach && !ps.all n.attached.contains then complete s q stNsNotAttached
      else
        let att := if detach then n.attached.filter fun p => !ps.contains p else n.attached ++ ps.dedup
        let s := updTab s fun t => { t with ns := nmod t.ns q.nsid fun n => { n with attached := att } }
        let s := if detach then ps.foldl (fun s p => modPort s p fun x => { x with
            dirEn := x.dirEn.filter (· != q.nsid), dirOpen := x.dirOpen.filter fun e => e.1 != q.nsid
            dirRes := x.dirRes.filter fun e => e.1 != q.nsid }) s else s
        complete (nsChanged s q.nsid ps.dedup) q stOk

/-- Streams allocated over the subsystem, and streams open. -/
def streamsHeld (s : State) : Nat := sumOf ((s.portA.dirRes ++ s.portB.dirRes).map fun e => e.2)
def streamsOpen (s : State) : Nat := ((s.portA.dirOpen ++ s.portB.dirOpen).map fun e => e.2).dedup.length

/-- DIRECTIVE_SEND: Identify 0x00 enables and disables (val as CDW12: ENDIR at [0], DTYPE at [15:8]); Streams 0x01 releases
an identifier or its resources. -/
def dirSend (s : State) (q : Sqe) (dtype doper dspec val : Nat) : State :=
  adminClean s q fun s =>
    let x := getPort s q.port
    let bad := complete s q stInvalidField
    if (attachedNs s q).isNone then (if q.nsid = 0 || 128 < q.nsid then complete s q stInvalidNs else bad)
    else if dtype = 0 && doper = 1 && bitsOf val 15 8 = 1 then
      let en := x.dirEn.filter (· != q.nsid)
      complete (setPort s q.port (if bitOf val 0 then { x with dirEn := en ++ [q.nsid] } else { x with
        dirEn := en
        dirOpen := x.dirOpen.filter fun e => e.1 != q.nsid
        dirRes := x.dirRes.filter fun e => e.1 != q.nsid })) q stOk
    else if dtype = 1 && x.dirEn.contains q.nsid && doper = 1 then
      complete (setPort s q.port { x with dirOpen := x.dirOpen.filter fun e => e != (q.nsid, dspec) }) q stOk
    else if dtype = 1 && x.dirEn.contains q.nsid && doper = 2 then
      complete (setPort s q.port { x with dirOpen := x.dirOpen.filter fun e => e.1 != q.nsid
                                          dirRes := x.dirRes.filter fun e => e.1 != q.nsid }) q stOk
    else bad

/-- DIRECTIVE_RECEIVE: the Identify parameters; Streams parameters, status and allocation (val is NSR). -/
def dirReceive (s : State) (q : Sqe) (dtype doper val : Nat) : State :=
  adminClean s q fun s =>
    let x := getPort s q.port
    let bad := complete s q stInvalidField
    let on := x.dirEn.contains q.nsid
    let mine := (x.dirOpen.filter fun e => e.1 == q.nsid).map fun e => e.2
    let held := sumOf ((x.dirRes.filter fun e => e.1 == q.nsid).map fun e => e.2)
    if (attachedNs s q).isNone then (if q.nsid = 0 || 128 < q.nsid then complete s q stInvalidNs else bad)
    else if dtype = 0 && doper = 1 then complete (reply s q 4096 [(0, 1, 3), (32, 1, if on then 3 else 1)]) q stOk
    else if dtype = 1 && doper = 1 then
      complete (reply s q 32 [(0, 2, 16), (2, 2, 16 - streamsHeld s), (4, 2, streamsOpen s), (16, 4, 16), (22, 2, held),
        (24, 2, mine.length)]) q stOk
    else if dtype = 1 && on && doper = 2 then
      complete (reply s q (2 + 2 * mine.length) ((0, 2, mine.length) :: (List.range mine.length).map fun i => (2 + 2 * i, 2, mine.getD i 0))) q stOk
    else if dtype = 1 && on && doper = 3 then
      let n := min (val % 65536) (16 - streamsHeld s)
      complete (setPort s q.port { x with dirRes := x.dirRes ++ (if n = 0 then [] else [(q.nsid, n)]) }) q stOk n
    else bad

/-! ## Firmware download and commit (R353 to R356) -/

/-- FIRMWARE_IMAGE_DOWNLOAD: NUMD and OFST in dwords. -/
def download (s : State) (q : Sqe) (numd ofst : Nat) (data : List Byte) : State :=
  adminClean s q fun s =>
    if 16777216 < 4 * (ofst + numd) then complete s q stInvalidField else
    let bytes := padTo (4 * numd) (data.take (4 * numd))
    let put (m : NMap Byte) : NMap Byte :=
      (bytes.foldl (fun (a : NMap Byte × Nat) b => (nset a.1 a.2 b, a.2 + 1)) (if ofst = 0 then [] else m, 4 * ofst)).1
    let last (e : Nat) : Nat := max (if ofst = 0 then 0 else e) (4 * (ofst + numd))
    let s := updSec s fun x => match q.port with
      | .a => { x with dlA := put x.dlA, dlEndA := last x.dlEndA }
      | .b => { x with dlB := put x.dlB, dlEndB := last x.dlEndB }
    complete s q stOk

/-- The image in a download buffer: none where downloads leave gaps (R353). -/
def bufferImage (s : State) (p : Port) : Option (List Byte) :=
  let m := match p with | .a => s.sec.dlA | .b => s.sec.dlB
  let n := match p with | .a => s.sec.dlEndA | .b => s.sec.dlEndB
  if m.length = n then some (m.map fun e => e.2) else none

/-- The NOR slot that FS names (R354). -/
def commitSlot (s : State) (fs : Nat) : Nat := if fs = 0 then 1 - runningSlot s else fs - 1

/-- The boot record is written to name a slot, its other flags as they are. -/
def nameSlot (s : State) (slot : Nat) : State :=
  writeRecordCopy s slot (match recordInForce s with | some (_, l) => fieldAt l 17 1 | none => 0) (digest16 (slotImage s slot))

/-- After a fallback boot, firmware writes a record that names its own slot before it accepts a Firmware Commit (R443). -/
def ownRecord (s : State) : State :=
  let named := match recordInForce s with | some (_, l) => fieldAt l 16 1 % 2 == runningSlot s | none => false
  if rdField s Reg.cfgBoot 16 16 = 1 && !named then nameSlot s (runningSlot s) else s

/-- The NOR write of a waiting commit starts once the NOR is free. -/
def commitBegin (s : State) : State :=
  match s.sec.commit with
  | some c =>
    if c.begun || s.boot.op.isSome then s else
    let o : NorOp := { op := 5, addr := slotOff c.slot, data := c.img, commit := true }
    updBoot (updSec s fun x => { x with commit := some { c with begun := true } }) fun b => { b with op := some o }
  | none => s

/-- FIRMWARE_COMMIT, CA 0b000, 0b001 and 0b011: the buffer image is accepted and written to the slot. -/
def commitImage (s : State) (q : Sqe) (ca fs : Nat) (bpid : Bool) : State :=
  admin s q fun s =>
    if bpid || 2 < fs then complete s q stInvalidField
    else if s.sec.commit.isSome then complete s q stSequence
    else if sanitizeOn s then complete s q stSanProgress
    else if sanFailed s then complete s q stSanFailed
    else if ca = 3 && anyFormat s then complete s q stFmtProgress
    else if commitSlot s fs = runningSlot s then complete s q stFwSlot
    else match bufferImage s q.port with
      | none => complete s q stFwImage
      | some img =>
        let s := ownRecord s
        let r := accept s img
        if r != 0 then complete s q (acceptStatus r)
        else commitBegin (updSec s fun x => { x with commit := some { port := q.port, qid := q.qid, cid := q.cid, ca, slot := commitSlot s fs, img } })

/-- FIRMWARE_COMMIT, CA 0b010: the slot's image is accepted and named for the next boot; naming the running slot cancels a
pending change. -/
def commitNamed (s : State) (q : Sqe) (fs : Nat) (bpid : Bool) : State :=
  admin s q fun s =>
    let slot := commitSlot s fs
    if bpid || 2 < fs then complete s q stInvalidField
    else if s.sec.commit.isSome then complete s q stSequence
    else if sanitizeOn s then complete s q stSanProgress
    else if sanFailed s then complete s q stSanFailed
    else
      let s := ownRecord s
      if accept s (slotImage s slot) != 0 then complete s q stFwImage
      else complete (nameSlot s slot) q stOk

/-- The slot writes that wait for the NOR: a Firmware Commit's before a relayed image's. -/
def norNext (s : State) : State := relayBegin (commitBegin s)
/-- NOR_OP_DONE: the firmware's commit write, which is offered along the ring (R361), a relayed image's, or an operation of CFG_NORCMD. A
slot that does not read back is invalid and the commit fails with Internal Error (PRESUMED, log entry 45). -/
def norEnd (s : State) (mismatch timeout : Bool) : State :=
  match s.boot.op with
  | none => s
  | some o =>
    if !o.commit then norNext (norDone s mismatch timeout) else
    let s := norApply s o (mismatch || timeout)
    let s := xipServe (updBoot s fun b => { b with op := none })
    match s.sec.commit with
    | none => norNext s
    | some c =>
      if !c.begun then norNext s
      else if mismatch || timeout then norNext (commitEnd s stInternal)
      else
        let s := if relays s then offerImage s c.img none else s
        norNext (if c.ca = 0 then commitEnd s stOk
          else if c.ca = 1 then commitEnd (nameSlot s c.slot) stOk
          else commitActivate s c.slot)

/-! ## Security Send and Receive (R365) -/

/-- SECURITY_SEND. -/
def secSend (s : State) (q : Sqe) (secp : Nat) (req : SpdmReq) : State :=
  adminClean s q fun s =>
    if secp != 0xE8 then complete s q stInvalidField else complete (spdm s (.nvme q.port) req) q stOk

/-- SECURITY_RECEIVE: the oldest response that waits, or with SECP 0x00 the protocols supported. -/
def secReceive (s : State) (q : Sqe) (secp : Nat) : State :=
  adminClean s q fun s =>
    let x := getPort s q.port
    if secp = 0 then complete (reply s q 10 [(6, 1, 0), (7, 1, 2), (8, 1, 0x00), (9, 1, 0xE8)]) q stOk
    else if secp != 0xE8 then complete s q stInvalidField
    else match x.secRsp with
      | [] => complete s q stSequence
      | r :: rest => complete (replyBytes (setPort s q.port { x with secRsp := rest }) q r) q stOk

/-! ## Vendor commands (R420 to R426) -/

/-- Do two of the ranges share a letter? -/
def rangesShare : List LetterRange → Bool
  | [] => false
  | r :: rest => (rest.any fun t => r.slba < t.slba + t.nlb && t.slba < r.slba + r.nlb) || rangesShare rest

/-- SHED_CAPACITY_RANGES at fetch (Table 17-8). -/
def shedFetch (s : State) (body : Instr) (q : Sqe) (rs : List LetterRange) : State :=
  if !canFetchAdm s q then s else
  let s := takeFirm s q.port
  match nsOf s q.nsid with
  | none => turnAway s q stInvalidNs
  | some n =>
    if rs.isEmpty || 256 < rs.length || rs.any (fun r => r.slba % 16 != 0 || r.nlb % 16 != 0 || r.nlb = 0) || rangesShare rs then
      turnAway s q stInvalidField
    else match (rs.filter fun r => n.nsze < r.slba + r.nlb).map fun r => max r.slba n.nsze with
      | l :: ls => turnAway s q stLbaRange (ls.foldl min l)
      | [] => match stateFault s q.nsid true with
        | some st => turnAway s q st ((rs.map fun r => r.slba).foldl min ((rs.head?.map fun r => r.slba).getD 0))
        | none => enterTracker s { body, q, modif := true, entries := rs.length + 1, ranges := rs.map fun r => (q.nsid, r.slba, r.nlb) }

/-- SHED_CAPACITY_UNALLOCATED at fetch (Table 17-8): it names no letters. -/
def shedFreeFetch (s : State) (body : Instr) (q : Sqe) (letters : Nat) : State :=
  if !canFetchAdm s q then s else
  let s := takeFirm s q.port
  if q.nsid != 0 then turnAway s q stInvalidField
  else if letters = 0 || letters % 16 != 0 || commitC s < ncapHeld s + letters then turnAway s q stInvalidField
  else match stateFault s 0 true with
    | some st => turnAway s q st
    | none => enterTracker s { body, q, modif := true, entries := 1 }

/-- A descriptor in the form of Table 13-7, with 64 entries. -/
def schedNorm (d : SchedDesc) : SchedDesc := { d with entry := (List.range 64).map fun a => d.entry.getD a (0, 0) }

/-- COLLECTION_SCHEDULE_SET (Table 17-9, R336). -/
def schedSet (s : State) (q : Sqe) (d : SchedDesc) : State :=
  vendorCmd s q fun s =>
    let d := schedNorm d
    if d.sseq != 0 || d.eff != 0 || d.period < 60 || 65535 < d.period || d.rsvd != 0
        || d.entry.any (fun e => d.period < e.1 + e.2) then complete s q stInvalidField
    else if !ringOverlay s then complete (schedInstall s { d with eff := s.clk.tb }) q stOk
    else if s.ring.schedWait.isSome then complete s q stSequence
    else if s.ring.st != .member then complete s q stRingUnavailable
    else
      let s := updRing s fun r => { r with schedWait := some (q.port, q.cid, d) }
      if s.ring.role = 1 then schedPublish s d else sendSched s (s.ring.pmaddr.getD 0xFF) d

/-- COLLECTION_SCHEDULE_TIMEOUT: not installed within 200 ms. -/
def schedTimeout (s : State) : State :=
  match s.ring.schedWait with
  | some (p, cid, _) =>
    complete (updRing s fun r => { r with schedWait := none }) { port := p, qid := 0, cid, nsid := 0 } stRingUnavailable
  | none => s

/-- The index of the local default (Tables 13-4 and 13-8). -/
def defIndex (s : State) : Nat :=
  match s.ring.st with
  | .member => s.ring.addr.getD 0 | .isolated => s.ring.addr.getD 0 | .unenumerated => serhash s | .disabled => 0

/-- COLLECTION_SCHEDULE_GET (R423): the descriptor in force, or the local default in the entry of the unit's index. -/
def schedGet (s : State) (q : Sqe) : State :=
  vendorCmd s q fun s =>
    let d : SchedDesc := match s.ring.sched with
      | some d => d
      | none =>
        let i := defIndex s % max 1 (defSlots s)
        let len := rdField s Reg.rngDefSched 15 0
        { sseq := 0, eff := 0, period := rdField s Reg.rngDefSched 31 16, rsvd := 0
          entry := (List.range 64).map fun a => if a = i % 64 then (i * len, len) else (0, 0) }
    complete (replyBytes s q (schedBytes d)) q stOk

/-- The record that Recorder Read finds for a SEQ (R425). -/
def readRec (e : Evr) (found : Bool) (q : Nat) : Option Rec :=
  let a := if found && q < 4096 then foundRec e q else circRec e q
  a.orElse fun _ => (e.flashLog ++ e.buf).find? fun r => r.seq == q

/-- SEQ values examined upward: records placed from byte off, the count, and those not held. The last is where it stopped. -/
def readRecs (e : Evr) (found : Bool) (limit : Nat) : Nat → Nat → Nat → List (Nat × Rec) → Nat → List (Nat × Rec) × Nat × Nat
  | 0, q, _, acc, skip => (acc, skip, q)
  | n + 1, q, off, acc, skip =>
    match readRec e found q with
    | none => readRecs e found limit n (q + 1) off acc (skip + 1)
    | some r =>
      let len := (recBytes r).length
      if limit < off + len then (acc, skip, q) else readRecs e found limit n (q + 1) (off + len) (acc ++ [(off, r)]) skip

/-- RECORDER_READ (R425, Table 17-11). -/
def recRead (s : State) (q : Sqe) (start length : Nat) (found : Bool) : State :=
  vendorCmd s q fun s =>
    if length % 4096 != 0 || length < 4096 || 1048576 < length then complete s q stInvalidField else
    let e := s.evr
    let (rs, skip, stop) := readRecs e found length (e.next - start) start 64 [] 0
    let oldest := (lowestSeq e.circ).getD e.next
    let hdr := [(0, 8, ((rs.head?.map fun x => x.2.seq).getD 0)), (8, 8, stop), (16, 8, e.next), (24, 8, oldest), (32, 4, rs.length),
      (36, 4, skip), (40, 1, if e.flashOnly then 1 else 0)]
    let size := (rs.getLast?.map fun x => x.1 + (recBytes x.2).length).getD 64
    complete (reply s q size (hdr ++ rs.map fun x => (x.1, (recBytes x.2).length, leNat (recBytes x.2)))) q stOk

/-- DEPOT_UNLOCK (Table 17-12), with REQ read, read-write and close. -/
def depotOpen (s : State) (q : Sqe) (session : Nat) (w : Window) : State :=
  vendorCmd s q fun s =>
    if s.sec.depot then complete s q stOk else
    match findSession s session with
    | some x =>
      if !x.up || !x.authed then complete (denyAccess s q.port) q stAccessDenied else
      let grant (z : Session) : Session := if z.sid == session then { z with windows := z.windows.filter (· != q.port) ++ [q.port] }
        else { z with windows := z.windows.filter (· != q.port) }
      complete (setWin (updSec s fun y => { y with sessions := y.sessions.map grant }) q.port w) q stOk
    | none => complete (denyAccess s q.port) q stAccessDenied
def depotClose (s : State) (q : Sqe) : State := vendorCmd s q fun s => complete (closeWin s q.port) q stOk

end Sys2Proof.Machine
end

