-- ==== Sys2Proof/Machine/Logs.lean ====
section
/-! DEFINITION. Identify (R68, R78, R84 to R91) and the log pages (R93, R113, R160, R292, R344, R394, R418, R427 to R430). A
page is built from its fields as (offset, length, value); the offsets of the standard's structures are
the standard's (PRESUMED, log entry 46). -/

namespace Sys2Proof.Machine

/-! ## Identify -/

def cntlid (p : Port) : Nat := p.num + 1

/-- Identify Controller (Table 3-4, R401, R353, R394). -/
def idController (s : State) (p : Port) : List (Nat × Nat × Nat) :=
  let ids := (getPort s p).cfgSpace
  let vid := ngetD ids 0x00 0 % 65536
  let ssvid := ngetD ids 0x2C 0 % 65536
  let psd (k nops enlat exlat : Nat) : List (Nat × Nat × Nat) :=
    let o := 2048 + 32 * k
    [(o + 3, 1, 2 * nops), (o + 4, 4, enlat), (o + 8, 4, exlat), (o + 12, 1, k), (o + 13, 1, k), (o + 14, 1, k), (o + 15, 1, k)]
  [(0, 2, vid), (2, 2, ssvid), (76, 1, if hostX8 s then 8 else 11), (77, 1, 8), (78, 2, cntlid p), (80, 4, 0x00020000),
   (84, 4, 6000000), (88, 4, 1000000), (92, 4, 0x1B00), (96, 4, 0x34), (256, 2, 0x2F), (258, 1, 0), (259, 1, 15), (260, 1, 0x14),
   (261, 1, 7), (262, 1, 255), (263, 1, 4), (265, 1, 1), (266, 2, 368), (268, 2, 375), (319, 1, 1), (320, 2, 0),
   (328, 4, 3 + 2 ^ 29 + 2 ^ 31), (338, 2, 1), (340, 2, 1), (342, 1, 10), (343, 1, 9), (344, 4, 128), (348, 4, 128), (512, 1, 0x66),
   (513, 1, 0x44), (516, 4, 128), (520, 2, 0xDD), (522, 2, 0), (524, 1, 4), (525, 1, 0), (526, 2, 255), (528, 2, 255), (532, 2, 0),
   (536, 4, 2 + 2 ^ 16)]
  ++ psd 0 0 0 0 ++ psd 1 0 0 0 ++ psd 2 0 0 0 ++ psd 3 1 2000 200 ++ psd 4 1 10000 5000

/-- Identify Namespace (R84 to R88, R90, R91, Table 3-7). -/
def idNamespace (nsid : Nat) (n : Ns) : List (Nat × Nat × Nat) :=
  let dps := n.piType + if n.pil then 8 else 0
  [(0, 8, n.nsze), (8, 8, n.ncap), (16, 8, n.mapped), (24, 1, 0x10), (25, 1, 3), (26, 1, n.lbaf + if n.ext then 16 else 0), (27, 1, 3),
   (28, 1, 0x1D), (29, 1, if n.lbaf = 2 then dps else 0), (30, 1, 1), (33, 1, 9), (34, 2, 255), (36, 2, 255), (38, 2, 0), (64, 2, 15),
   (66, 2, 15), (68, 2, 15), (70, 2, 15), (72, 2, 255), (92, 4, nsid), (100, 2, 1), (102, 2, 1), (128, 4, 0x000C0000),
   (132, 4, 0x000C0008), (136, 4, 0x000C0010), (140, 4, 0x010C0040)]

/-- A list of NSIDs above a given one, as dwords. -/
def nsidList (l : List Nat) (above : Nat) : List (Nat × Nat × Nat) :=
  let ids := (l.filter fun n => above < n).take 1024
  (List.range ids.length).map fun i => (4 * i, 4, ids.getD i 0)
/-- A list of CNTLIDs from a given one. -/
def ctrlList (l : List Nat) (first : Nat) : List (Nat × Nat × Nat) :=
  let cs := l.filter fun c => first ≤ c
  (0, 2, cs.length) :: (List.range cs.length).map fun i => (2 + 2 * i, 2, cs.getD i 0)

/-- IDENTIFY. An inactive namespace's structure is all 0. -/
def identifyCmd (s : State) (q : Sqe) (cns cntid : Nat) : State :=
  admin s q fun s =>
    let p := q.port
    let active := (s.map.tab.ns.filter fun e => e.2.attached.contains p).map fun e => e.1
    let all := s.map.tab.ns.map fun e => e.1
    let here := if portPresent s .b then [1, 2] else [1]
    let answer (f : List (Nat × Nat × Nat)) : State := complete (reply s q 4096 f) q stOk
    let onNs (act : Bool) (f : Nat → Ns → List (Nat × Nat × Nat)) : State :=
      if q.nsid = 0 || 128 < q.nsid then complete s q stInvalidNs else
      match nsOf s q.nsid with
      | some n => answer (if act && !n.attached.contains p then [] else f q.nsid n)
      | none => answer []
    match cns with
    | 0x00 => onNs true idNamespace
    | 0x01 => answer (idController s p)
    | 0x02 => answer (nsidList active q.nsid)
    | 0x03 => onNs true fun _ _ => [(0, 1, 4), (1, 1, 1), (4, 1, 0)]
    | 0x05 => onNs true fun _ _ => [(12, 4, 0), (16, 4, 0), (20, 4, 0x100), (24, 4, 0)]
    | 0x06 => answer []
    | 0x07 => answer (nsidList active q.nsid)
    | 0x08 => onNs true fun i _ => [(1, 1, 1), (4, 4, i), (10, 2, 1), (12, 2, 1)]
    | 0x10 => answer (nsidList all q.nsid)
    | 0x11 => onNs false idNamespace
    | 0x12 => onNs false fun _ n => ctrlList (n.attached.map cntlid) cntid
    | 0x13 => answer (ctrlList here cntid)
    | _ => complete s q stInvalidField

/-! ## Standard log pages -/

/-- Error Information, newest first (R113, R115). -/
def errorLog (x : PortSt) : List (Nat × Nat × Nat) :=
  (List.range x.errLog.length).flatMap fun i => match x.errLog[i]? with
    | some e =>
      let o := 64 * i
      let st := 2 * (e.st.sc + e.st.sct * 256 + (if e.st.m then 2 ^ 13 else 0) + (if e.st.dnr then 2 ^ 14 else 0))
      [(o, 8, e.count), (o + 8, 2, e.sqid), (o + 10, 2, e.cid), (o + 12, 2, st), (o + 16, 8, e.lba), (o + 24, 4, e.nsid), (o + 32, 8, e.cs)]
    | none => []

/-- Available Spare and its threshold (R160). -/
def spareNow (s : State) : Nat := if s.map.s0 ≤ 0 then 0 else min 100 (100 * (spare s).toNat / s.map.s0.toNat)
def spareThr (s : State) : Nat :=
  if s.map.s0 ≤ 0 then 100 else min 100 ((100 * (shedThr s).toNat + s.map.s0.toNat - 1) / s.map.s0.toNat)
/-- Blocks of LUNs in service, their mean and highest ERASES, and Percentage Used (R160). -/
def blocksAll (s : State) : Nat := sumOf ((List.range 32).map fun c => (positions s c).length) * s.flash.die.blocks
def meanErases (s : State) : Nat := sumOf (s.map.tab.blocks.map fun b => b.2.erases) / max 1 (blocksAll s)
def maxErases (s : State) : Nat := s.map.tab.blocks.foldl (fun a b => max a b.2.erases) 0
def percentUsed (s : State) : Nat := min 255 (100 * meanErases s / max 1 s.flash.die.rated)
/-- Critical warning (R160); bit 1 where a threshold of feature 0x04 is in force (PRESUMED, the standard's; log entry 46). -/
def critWarning (s : State) (p : Port) : Nat :=
  let c := s.map.chip
  let x := getPort s p
  (if c = 2 || c = 3 then 1 else 0) + (if x.tOver.inForce || x.tUnder.inForce then 2 else 0)
    + (if c = 1 || c = 2 || c = 3 then 4 else 0) + (if c = 3 then 8 else 0)
/-- A temperature in kelvin, as 16 bits. -/
def kelvin16 (t : Int) : Nat := s16 (kelvin t)

/-- SMART / Health Information (R160, R394): minutes are 3,750 rounds. -/
def smartLog (s : State) (p : Port) : List (Nat × Nat × Nat) :=
  let t := kelvin16 s.thm.temp
  let ext (i : Nat) : Nat × Nat × Nat :=
    let x := s.thm.ext.getD i {}
    (202 + 2 * i, 2, if x.enabled && !bitOf (rd s Reg.thmBroken) (16 + i) then (match x.reading with | some r => kelvin16 r | none => 0) else 0)
  [(0, 1, critWarning s p), (1, 2, t), (3, 1, spareNow s), (4, 1, spareThr s), (5, 1, percentUsed s), (176, 16, (getPort s p).errCount),
   (192, 4, s.thm.warnRounds / 3750), (196, 4, s.thm.throtRounds / 3750), (200, 2, t), ext 0, ext 1, ext 2, ext 3]

/-- Firmware Slot Information: the running slot, and the slot of the next boot where it is another (R354). -/
def fwSlotLog (s : State) : List (Nat × Nat × Nat) :=
  let run := runningSlot s
  let next := match recordInForce s with | some (_, l) => fieldAt l 16 1 % 2 | none => run
  [(0, 1, run + 1 + if next = run then 0 else (next + 1) * 16)]

/-- Commands Supported and Effects: CSUPP for every command of Tables 3-5, 3-6 and 17-1, with LBCC and NCC for Shed Capacity
(R410). -/
def effectsLog : List (Nat × Nat × Nat) :=
  let adm := [0x00, 0x01, 0x02, 0x04, 0x05, 0x06, 0x08, 0x09, 0x0A, 0x0C, 0x0D, 0x10, 0x11, 0x15, 0x19, 0x1A, 0x80, 0x81, 0x82, 0x84,
    0xC1, 0xC2, 0xC4, 0xC5, 0xC6, 0xC8]
  (adm.map fun o => (4 * o, 4, if o = 0xC1 then 7 else 1))
    ++ ([0x00, 0x01, 0x02, 0x05, 0x08, 0x09, 0x0C].map fun o => (1024 + 4 * o, 4, 1))

/-- Asymmetric Namespace Access (R90): state 0x01 Optimized, 0x04 Persistent Loss. -/
def anaLog (s : State) : List (Nat × Nat × Nat) :=
  let l := s.map.tab.ns.map fun e => e.1
  [(0, 8, s.map.anaChanges), (8, 2, l.length)] ++ (List.range l.length).flatMap fun i =>
    let n := l.getD i 0
    let o := 16 + 40 * i
    [(o, 4, n), (o + 4, 4, 1), (o + 8, 8, s.map.anaChanges), (o + 16, 1, if s.map.chip = 4 || keyLost s n then 4 else 1), (o + 32, 4, n)]

/-- Sanitize Status (R418). -/
def sanitizeLog (s : State) : List (Nat × Nat × Nat) :=
  let p := s.prog
  let be := p.action % 8 == 2
  let sprog := if p.kind != 2 then 65535 else if p.phase = 3 && be then p.cursor * 65536 / max 1 p.rounds else if p.phase = 4 then 65535 else 0
  [(0, 2, sprog), (2, 2, p.sstat), (4, 4, p.cdw10),
   (12, 4, (s.flash.die.blocks * Config.dieNum s.flash.die.raw 3 + 999999) / 1000000), (16, 4, 3)]

/-! ## Vendor log pages -/

/-- Dead-Letter Office (Tables 11-6 and 11-7), after STATE is evaluated. -/
def dloLog (s : State) (activeOnly : Bool) : List (Nat × Nat × Nat) :=
  let p := s.pat
  let act := p.dlo.filter fun e => e.st == 1 || e.st == 2
  let es := if activeOnly then act else p.dlo
  let deadIn (e : PEnt) : Nat := ((List.range 16).filter fun i => isDead (letterIn s.map.tab e i)).length
  let deadNow := sumOf (s.map.tab.ns.map fun n => sumOf (n.2.parcels.map fun e => deadIn e.2))
  [(0, 8, p.lastDseq), (8, 8, p.dloChg), (16, 4, es.length), (20, 4, act.length), (24, 8, deadNow), (32, 4, p.dloOvf), (36, 4, 65536)]
  ++ (List.range es.length).flatMap fun i => match es[i]? with
    | some e =>
      let o := 64 + 32 * i
      [(o, 8, e.dseq), (o + 8, 8, e.slba), (o + 16, 4, e.nsid), (o + 20, 2, e.nlb), (o + 22, 1, e.cause), (o + 23, 1, e.req),
       (o + 24, 1, e.st), (o + 25, 1, if e.md then 1 else 0), (o + 26, 6, e.ppa)]
    | none => []

/-- Letters dead now over all namespaces. -/
def deadNow (s : State) : Nat := match (dloLog s false)[4]? with | some (_, _, n) => n | none => 0

/-- Recorder Export (R428): the header, and the circulating slots or, with LSP bit 0, the founding slots. -/
def exportLog (s : State) (founding : Bool) : List (Nat × Nat × Nat) :=
  let e := s.evr
  let rec4 (i : Nat) (r : Rec) : Nat × Nat × Nat := (4096 + 256 * i, (recBytes r).length, leNat (recBytes r))
  let slots := if founding then e.found.filterMap fun x => if x.2.a || x.2.b then some (rec4 x.1 x.2.r) else none
    else e.circ.filterMap fun x => match x.2 with | .held r => some (rec4 x.1 r) | .broken _ => none
  [(0, 8, e.next), (8, 8, (lowestSeq e.circ).getD e.next), (16, 1, (if e.flashOnly then 1 else 0) + if 4096 ≤ e.found.length then 2 else 0),
   (20, 4, rd s Reg.evrLostCnt), (24, 4, rd s Reg.evrSuppCnt), (28, 4, rd s Reg.evrUeCnt)] ++ slots

/-- Ring Status (Table 13-9). -/
def ringLog (s : State) : List (Nat × Nat × Nat) :=
  let r := s.ring
  let master := bitOf (rd s 0xE0018) 1
  let dflt := match winSource s with | some (_, _, _, _, d) => d | none => false
  let flags := (if r.unsync then 1 else 0) + (if master then 2 else 0) + (if r.inWin then 4 else 0) + if dflt then 8 else 0
  [(0, 1, r.st.code), (1, 1, r.addr.getD 0xFF), (2, 1, r.topo), (3, 1, r.role), (4, 1, r.n), (5, 1, r.pmaddr.getD 0xFF),
   (6, 1, (subAddr r).getD 0xFF), (7, 1, flags), (8, 8, r.gid.getD 0), (16, 8, sumOf ((reachSet r).map fun a => 2 ^ a)), (24, 8, s.clk.tb),
   (32, 8, s64 (r.offset / 64)), (40, 8, sseqNow r), (48, 8, r.tchange), (56, 4, r.changes), (60, 4, rd s Reg.rngErr),
   (64, 4, rd s Reg.rngDown), (68, 4, nextWin s), (72, 4, rd s Reg.rngForeign)]

/-- The counts of Table 17-14 since the last reset: steps 1, 1 failed, 2, 3, 4, rebuilds with P and with P and Q, step 7, program
and erase fails. -/
def mhLive (s : State) : List Nat :=
  let chs (o hi lo : Nat) : Nat := sumOf ((List.range 32).map fun c => rdField s (chn c o) hi lo)
  let dsts (o : Nat) : Nat := sumOf ((List.range 4).map fun d => rd s (dst d o))
  [chs 0xA0 63 0, chs 0xA8 63 0, chs 0xB0 31 0, dsts 0x30, dsts 0x34, rdField s (str 0x18) 15 0, rdField s (str 0x18) 31 16,
   rd s (str 0x1C), chs 0x5C 31 0, chs 0x60 31 0]
/-- With the counts from before it. -/
def mhNow (s : State) : List Nat := (List.range 10).map fun i => (mhLive s).getD i 0 + s.map.mhBase.getD i 0

/-- Media Health Detail (Table 17-14). -/
def mediaLog (s : State) : List (Nat × Nat × Nat) :=
  let m (i : Nat) : Nat := (mhNow s).getD i 0
  let worn := (s.map.tab.blocks.filter fun b => b.2.st == 5).length
  let kinds (k : Nat) : Nat := (s.mem.repair.filter fun (r : Repair) => r.kind == k && !r.unrep).length
  let devs := (List.range 4).any fun i => bitOf (rd s (drc (0x60 + 4 * i))) 31
  let flags := (if s.evr.flashOnly then 1 else 0) + (if enabledWays s ≤ 2 then 2 else 0) + (if devs then 4 else 0)
    + if s.thm.restarted then 8 else 0
  let broken := ((List.range 16).filter (isBroken s)).length
  let luns := sumOf ((List.range 32).flatMap fun c => ((List.range 32).filter fun p => bit32 s (rLunRet c) p).map fun p => 2 ^ lunOf c p)
  [(0, 1, s.map.chip), (1, 1, flags), (2, 1, enabledWays s), (3, 1, broken), (4, 4, rd s rChRet)]
  ++ ((List.range 8).map fun i => (8 + 8 * i, 8, m i))
  ++ [(72, 8, deadNow s), (80, 4, (s.map.badTab ++ s.map.badLog).length), (84, 4, worn), (88, 2, meanErases s), (90, 2, maxErases s),
      (92, 2, s.flash.die.rated), (94, 2, 0), (96, 4, m 8), (100, 4, m 9), (104, 4, kinds 2), (108, 4, kinds 3), (112, 4, kinds 1),
      (116, 4, s.thm.sdcnt), (120, 4, patOldest s), (124, 4, 0), (128, 128, luns)]

/-- Capacity and Shedding (R430). -/
def capacityLog (s : State) : List (Nat × Nat × Nat) :=
  [(0, 8, usable s), (8, 8, reserveR s), (16, 8, commitC s), (24, 8, mappedM s), (32, 8, s64 (spare s)), (40, 8, budget s),
   (48, 8, s.map.shedReq), (56, 8, s64 s.map.s0), (64, 8, s64 (shedThr s)), (72, 1, s.map.chip), (74, 2, rdField s 0x30028 15 0),
   (76, 4, s.map.tab.ns.length)]
  ++ s.map.tab.ns.flatMap fun e =>
    let o := 128 + 32 * (e.1 - 1)
    [(o, 4, e.1), (o + 8, 8, e.2.ncap), (o + 16, 8, e.2.mapped), (o + 24, 8, e.2.nsze)]

/-! ## Get Log Page -/

/-- Answer a log page of a size with its bytes from an offset on; RAE 0 ends the retention of its events (R94, R427). -/
def logAnswer (s : State) (q : Sqe) (lid size lpo : Nat) (rae : Bool) (l : List (Nat × Nat × Nat)) : State :=
  if lpo % 4 != 0 || size < lpo then complete s q stInvalidField else
  let s := complete (replyBytes s q ((pageOf size l).drop lpo)) q stOk
  if rae then s else aerClear s q.port lid

/-- The Dead-Letter Office log (R292). -/
def dloPage (s : State) (q : Sqe) (lsp lpo : Nat) (rae : Bool) : State :=
  let s := dloEval s
  let l := dloLog s (lsp % 2 == 1)
  logAnswer s q 0xC0 (64 + 32 * ((l[2]?.map fun x => x.2.2).getD 0)) lpo rae l
/-- Each log page by its identifier (Table 3-8). -/
def logPage (s : State) (q : Sqe) (lid lsp lpo : Nat) (rae : Bool) : State :=
  let x := getPort s q.port
  let ok := lpo % 4 == 0
  match lid with
  | 0x01 => logAnswer s q lid 16384 lpo rae (errorLog x)
  | 0x02 => logAnswer s q lid 512 lpo rae (smartLog s q.port)
  | 0x03 => logAnswer s q lid 512 lpo rae (fwSlotLog s)
  | 0x04 =>
    let s := logAnswer s q lid 4096 lpo rae (nsidList (nsorted4 x.nsNotice) 0)
    if rae || !ok || 4096 < lpo then s else modPort s q.port fun x => { x with nsNotice := [] }
  | 0x05 => logAnswer s q lid 4096 lpo rae effectsLog
  | 0x09 => logAnswer s q lid 512 lpo rae [(3, 1, spareNow s), (4, 1, spareThr s), (5, 1, percentUsed s)]
  | 0x0A =>
    let s := logAnswer s q lid 512 lpo rae [(0, 1, if s.ring.inWin then 2 else 1)]
    if rae || !ok || 512 < lpo then s else modPort s q.port fun x => { x with plm := false }
  | 0x0B => logAnswer s q lid 4096 lpo rae (if x.plm then [(0, 8, 1), (8, 2, 1)] else [(0, 8, 0)])
  | 0x0C => logAnswer s q lid (16 + 40 * s.map.tab.ns.length) lpo rae (anaLog s)
  | 0x81 => logAnswer s q lid 512 lpo rae (sanitizeLog s)
  | 0xC0 => dloPage s q lsp lpo rae
  | 0xC1 => logAnswer s q lid (4096 + if lsp % 2 = 1 then 1048576 else 4194304) lpo rae (exportLog s (lsp % 2 == 1))
  | 0xC2 => logAnswer s q lid 128 lpo rae (ringLog s)
  | 0xC3 => logAnswer s q lid 512 lpo rae (mediaLog s)
  | 0xC4 => logAnswer s q lid 4224 lpo rae (capacityLog s)
  | _ => complete s q stInvalidField
where
  nsorted4 (l : List Nat) : List Nat := (List.range 129).filter l.contains

/-- GET_LOG_PAGE. -/
def getLog (s : State) (q : Sqe) (lid lsp lpo : Nat) (rae : Bool) : State := admin s q fun s => logPage s q lid lsp lpo rae

end Sys2Proof.Machine
end

