-- ==== Sys2Proof/Machine/Features.lean ====
section
/-! DEFINITION. Set Features and Get Features (Table 3-9, Table 17-15, R92, R394, R402, R406, R431). A controller's values
stand in feat by identifier; 0x0400 and 0x0401 are the over and under temperature thresholds, 0x0C00 the APST entries, 0x1300
the Predictable Latency Mode configuration and 0x10000 + v the coalescing disable of vector v. -/

namespace Sys2Proof.Machine

/-- The features of Table 3-9. -/
def featIds : List Nat := [0x01, 0x02, 0x04, 0x07, 0x08, 0x09, 0x0A, 0x0B, 0x0C, 0x0E, 0x13, 0x14, 0xD0, 0xD1, 0xD2]

def putFeat (s : State) (p : Port) (k v : Nat) : State := modPort s p fun x => { x with feat := nset x.feat k v }

/-- Power Management (R402): one state for the subsystem. -/
def featPower (s : State) (q : Sqe) (ps : Nat) (sv : Bool) : State :=
  if 4 < ps then complete s q stInvalidField else if sv then complete s q stNotSaveable else complete (psSet s ps) q stOk
/-- PLM Window (R92): 1 deterministic, 2 non-deterministic; only the current one succeeds. -/
def featPlm (s : State) (q : Sqe) (window : Nat) : State :=
  if window = (if s.ring.inWin then 2 else 1) then complete s q stOk else complete s q stInvalidField
/-- Latency Tolerance (R431): the last value set through either controller applies. -/
def featLatency (s : State) (q : Sqe) (us : Nat) (sv : Bool) : State :=
  if sv then complete s q stNotSaveable else complete (putFeat (putFeat s .a 0xD0 us) .b 0xD0 us) q stOk
/-- Fail-Stop Default (R431, R120). -/
def featFailStop (s : State) (q : Sqe) (cdw11 : Nat) (sv : Bool) : State :=
  if 1 < cdw11 then complete s q stInvalidField else if sv then complete s q stNotSaveable
  else complete (putFeat s q.port 0xD1 cdw11) q stOk
/-- Patrol Period (R431): written to PAT_PERIOD, and with SV 1 kept. -/
def featPatrol (s : State) (q : Sqe) (cdw11 : Nat) (sv : Bool) : State :=
  if cdw11 = 0 || 90 < cdw11 then complete s q stInvalidField else
  let s := wrField s (pat 0x10) 6 0 cdw11
  let s := if sv then updPat s fun p => { p with saved := some cdw11 } else s
  complete (catchup s) q stOk

/-- The Timestamp now, in ms: since it was set, or since start-up. -/
def stampNow (s : State) : Nat :=
  match s.pat.stamp with
  | some t => t + (s.clk.tb - s.pat.stampAt) / 250000
  | none => (s.clk.tb - s.clk.boot) / 250000
/-- Setting the Timestamp; off-time is then the difference of the two timestamps where one was kept (R284). -/
def setStamp (s : State) (ms : Nat) : State :=
  updPat s fun p =>
    let t := match p.offAdv, p.copyStamp with
      | some d, some old => p.tage - d + (ms - old) / 1000
      | _, _ => p.tage
    { p with stamp := some ms, stampAt := s.clk.tb, offAdv := none, tage := t }

/-- Set Features of any identifier. -/
def featSet (s : State) (q : Sqe) (fid : Nat) (sv : Bool) (v : FeatVal) : State :=
  let p := q.port
  let w := v.cdw11
  let bad := complete s q stInvalidField
  let keep (k x : Nat) : State := complete (putFeat s p k x) q stOk
  if !featIds.contains fid then bad
  else if sv && fid != 0xD2 && fid != 0x02 && fid != 0x14 && fid != 0xD1 then complete s q stNotSaveable
  else match fid with
    | 0x02 => featPower s q (w % 32) sv
    | 0x04 => if bitsOf w 19 16 != 0 || 1 < bitsOf w 21 20 then bad else keep (0x0400 + bitsOf w 21 20) (w % 65536)
    | 0x07 =>
      if w % 65536 = 65535 || w / 65536 = 65535 then bad
      else if ((getPort s p).sqs.any fun e => e.1 != 0) || ((getPort s p).cqs.any fun e => e.1 != 0) then complete s q stSequence
      else complete s q stOk 0x00FF00FF
    | 0x09 => if 128 ≤ w % 65536 then bad else keep (0x10000 + w % 65536) (bitsOf w 16 16)
    | 0x0C => complete (putFeat (putFeat s p 0x0C (w % 2)) p 0x0C00 v.data) q stOk
    | 0x0E => complete (setStamp s (v.data % 2 ^ 48)) q stOk
    | 0x13 => if w % 65536 != 1 then bad else complete (putFeat (putFeat s p 0x13 (v.cdw12 % 2)) p 0x1300 v.data) q stOk
    | 0x14 => if sv then complete s q stNotSaveable else if w % 65536 != 1 then bad else featPlm s q (v.cdw12 % 8)
    | 0xD0 => featLatency s q w sv
    | 0xD1 => featFailStop s q w sv
    | 0xD2 => featPatrol s q w sv
    | _ => keep fid w

/-- SET_FEATURES. -/
def setFeatures (s : State) (q : Sqe) (fid : Nat) (sv : Bool) (v : FeatVal) : State := admin s q fun s => featSet s q fid sv v

/-- A feature's default value (Table 17-15, R394). -/
def featDefault (s : State) (fid cdw11 : Nat) : Nat :=
  match fid with
  | 0x04 => if bitsOf cdw11 21 20 = 0 then 368 else 0
  | 0x07 => 0x00FF00FF
  | 0x09 => cdw11 % 65536
  | 0xD0 => 0xFFFFFFFF
  | 0xD1 => if storeOverlay s then 1 else 0
  | 0xD2 => 14
  | _ => 0
/-- A feature's current value. -/
def featNow (s : State) (p : Port) (fid cdw11 : Nat) : Nat :=
  let x := getPort s p
  match fid with
  | 0x02 => s.pwr.ps
  | 0x04 => ngetD x.feat (0x0400 + bitsOf cdw11 21 20) (featDefault s fid cdw11)
  | 0x07 => 0x00FF00FF
  | 0x09 => cdw11 % 65536 + 65536 * ngetD x.feat (0x10000 + cdw11 % 65536) 0
  | 0x0E => 0
  | 0x14 => if s.ring.inWin then 2 else 1
  | 0xD2 => rdField s (pat 0x10) 6 0
  | _ => ngetD x.feat fid (featDefault s fid cdw11)
/-- The data structure that Get Features returns beside Dword 0. -/
def featData (s : State) (p : Port) (fid : Nat) : List Byte :=
  let x := getPort s p
  match fid with
  | 0x0C => le 256 (ngetD x.feat 0x0C00 0)
  | 0x0E => pageOf 8 [(0, 6, stampNow s % 2 ^ 48), (6, 1, if s.pat.stamp.isSome then 2 else 0)]
  | 0x13 => le 512 (ngetD x.feat 0x1300 0)
  | _ => []

/-- GET_FEATURES: SEL 0 current, 1 default, 2 saved, 3 capabilities (bit 0 saveable, bit 2 changeable). -/
def getFeatures (s : State) (q : Sqe) (fid sel cdw11 : Nat) : State :=
  admin s q fun s =>
    let bad := complete s q stInvalidField
    if !featIds.contains fid || 3 < sel then bad
    else if fid = 0x04 && (bitsOf cdw11 19 16 != 0 || 1 < bitsOf cdw11 21 20) then bad
    else if fid = 0x09 && 128 ≤ cdw11 % 65536 then bad
    else if (fid = 0x13 || fid = 0x14) && cdw11 % 65536 != 1 then bad
    else match sel with
      | 0 =>
        let d := featData s q.port fid
        complete (if d.isEmpty then s else replyBytes s q d) q stOk (featNow s q.port fid cdw11)
      | 1 => complete s q stOk (featDefault s fid cdw11)
      | 2 => complete s q stOk (if fid = 0xD2 then s.pat.saved.getD 14 else featDefault s fid cdw11)
      | _ => complete s q stOk (if fid = 0xD2 then 5 else 4)

end Sys2Proof.Machine
end

