-- ==== Sys2Proof/Machine/RegView.lean ====
section
/-! DEFINITION. What a register read gives (R43, R46, R47, R58): the registers whose value follows the units' own state,
the checks of a read in the order of R46, and the island of each block (Table 1-1, R26). -/

namespace Sys2Proof.Machine

/-! ## Islands (R26, Tables 1-1, 1-2 and 2-1) -/

/-- A block's island in the order of Table 1-1 (log entry 47). -/
def islandOf (b : Blk) (u : Nat) : Nat :=
  match b with
  | .hfeA => 0 | .hfeB => 1 | .srt => 2 | .map => 3 | .phc => 4 | .drc => 5 | .scb => 5 | .jrc => 6
  | .chn => 7 + u | .dst => 39 + u | .str => 43 | .pat => 43
  | .sec => 44 | .evr => 44 | .cfg => 44 | .evf => 44 | .cry => 45 | .thm => 46 | .pwr => 46 | .rng => 46
/-- Does a block's island run: not gated by a power state, nor in a reset of its own, nor a retired channel's courier? -/
def islandRuns (s : State) (b : Blk) (u : Nat) : Bool :=
  match b with
  | .chn => decide (s.pwr.ps < 3) && !s.chip.chnReset.contains u && !s.chip.chnGone.contains u
  | .dst => decide (s.pwr.ps < 3) | .str => decide (s.pwr.ps < 3) | .pat => decide (s.pwr.ps < 3)
  | .jrc => decide (s.pwr.ps < 3) | .cry => decide (s.pwr.ps < 3)
  | .srt => decide (s.pwr.ps < 4) | .map => decide (s.pwr.ps < 4) | .phc => decide (s.pwr.ps < 4)
  | .hfeB => !hostX8 s
  | .hfeA => true | .drc => true | .scb => true | .sec => true | .evr => true | .cfg => true | .evf => true
  | .thm => true | .pwr => true | .rng => true
/-- An undeliverable crossing is reported: PWR_UNDELIV, UNDELIV and source 113 (Tables 1-2 and 16-10). -/
def undeliverable (s : State) (b : Blk) (u : Nat) : State :=
  let s := satAdd (wrField s Reg.pwrUndeliv 21 16 (islandOf b u)) Reg.pwrUndeliv 15 0 1
  raise (orReg s Reg.pwrCause 0x10) 113

/-! ## Registers that follow the units' state -/

/-- A sensor's or input's reading as bits [15:0] with flags above. -/
def readingBits (r : Option Int) : Nat := match r with | some t => s16 t | none => 0
def flagBit (b : Bool) (n : Nat) : Nat := if b then 2 ^ n else 0
def optBits (o : Option Nat) : Nat := o.getD 0

/-- ASPM has put the link in L1: the host has enabled it and the port has nothing to do; how long the link idles first the spec does
not say (DESIGN CHOICE: no time at all, log entry 151). -/
def aspmL1 (s : State) (p : Port) : Bool :=
  let x := getPort s p
  x.linkUp && !x.d3hot && bitOf (cfgDword x 0x70) 1 && (nextFetch s p).isNone && !(s.srt.cmds.any fun c => c.2.q.port == p)
/-- HFE_LINK in that L1, in the substate that the L1 PM Substates control enables for ASPM. -/
def aspmLink (x : PortSt) (v : Nat) : Nat :=
  let sub := cfgDword x 0x178
  setBits v 23 18 (5 * 4 + if bitOf sub 2 then 2 else if bitOf sub 3 then 1 else 0)
/-- Front end (Table 3-12). A read that arrives over the port's own link finds that link in L0. -/
def hfeView (s : State) (i : Initiator) (p : Port) (off v : Nat) : Nat :=
  let x := getPort s p
  if off = 0x10 && aspmL1 s p && i != .bar2 p && bitsOf v 23 20 = 3 then aspmLink x v else
  if off = 0x1C then
    (x.sqs.filter fun q => q.1 != 0).length * 2 ^ 16 + flagBit (x.shst == 2) 8 + flagBit x.cfs 2 + flagBit x.rdy 1 + flagBit x.en 0
  else if off = 0x20 then (if x.drain.isSome then min 65535 (drainLeft s p) else 0)
  else v

/-- Frozen submission queues 32w + 1 to 32w + 32 of a port. -/
def frozenBits (s : State) (p : Port) (w : Nat) : Nat :=
  sumOf ((List.range 32).map fun i => flagBit (((nget (getPort s p).sqs (32 * w + i + 1)).map fun q => q.frozen).getD false) i)
/-- Sorting office (Table 4-7). -/
def srtView (s : State) (off v : Nat) : Nat :=
  if off = 0x10 then occRanges s * 2 ^ 16 + occCmds s
  else if 0x20 ≤ off && off < 0x40 then frozenBits s .a ((off - 0x20) / 4)
  else if 0x40 ≤ off && off < 0x60 then frozenBits s .b ((off - 0x40) / 4)
  else v

/-- The erase counts of the FREE blocks of every LUN that answers (R251, MAP_WEARSTAT). -/
def freeErases (s : State) : List Nat :=
  ((List.range 1024).filter fun l => lunFitted s (lunChn l) (lunPos l)).flatMap fun l =>
    ((List.range s.flash.die.blocks).filter fun b => (blkGet s.map.tab (blkKey l b)).st == 0).map fun b =>
      (blkGet s.map.tab (blkKey l b)).erases
/-- Map engine (Tables 5-12 and 9-14). -/
def mapView (s : State) (off v : Nat) : Nat :=
  if off = 0x24 then bundlesUsed s
  else if off = 0x2C then s.map.changes * 2 ^ 16 + s.map.chip
  else if off = 0x30 then usable s
  else if off = 0x38 then reserveR s
  else if off = 0x40 then commitC s
  else if off = 0x48 then mappedM s
  else if off = 0x50 then s64 (spare s)
  else if off = 0x58 then budget s
  else if off = 0x60 then (if s.map.chip = 2 then s.map.shedReq else 0)
  else if off = 0x80 then freeF s
  else if off = 0x90 then
    (match freeErases s with
      | [] => 0
      | e :: r => min 65535 (r.foldl max e) * 2 ^ 16 + min 65535 (r.foldl min e))
  else if off = 0x104 then s.map.refresh.length
  else if off = 0x10C then min 4096 s.map.badLog.length
  else if off = 0x114 then s.map.life
  else v

/-- Pigeonhole cache (Table 6-6). -/
def phcView (s : State) (off v : Nat) : Nat :=
  if off = 0x1C then (s.phc.lines.filter fun x => x.2.dirty).length else v
/-- DRAM controller (Table 12-7). -/
def drcView (s : State) (off v : Nat) : Nat := if off = 0x28 then initCount s else v
/-- JRAM controller (Tables 10-13 and 10-15). -/
def jrcView (s : State) (off v : Nat) : Nat :=
  let j := s.jrc
  if off = 8 then setBits v 18 16 ((if j.stalled then 4 else 0) + (if j.hold then 2 else 0) + if j.twoGen then 1 else 0)
  else if off = 0x10 then j.head
  else if off = 0x14 then j.tail
  else if off = 0x18 then j.live * 256 / Config.ringBytes
  else if off = 0x1C then j.gen
  else if off = 0x20 then j.acked
  else if off = 0x40 then j.tokens
  else v
/-- Stripe engine (Table 8-14). -/
def strView (s : State) (off v : Nat) : Nat :=
  if off = 0x10 then sumOf ((List.range 24).map fun k => flagBit (nget s.map.opens k).isSome k)
  else if 0x100 ≤ off && off < 0x1C0 then
    match nget s.map.opens ((off - 0x100) / 8) with
    | none => 0
    | some o => match nget s.map.tab.sbs o.sbx with
      | none => 0
      | some b =>
        if off % 8 = 0 then b.sbid
        else b.nextRow * 2 ^ 16 + flagBit o.sealing 12 + o.folded.length % 32 * 2 ^ 5
          + (b.dataMems.filter fun m => b.nextRow < b.endRow m).length % 32
  else v
/-- Patrol (Table 11-9). -/
def patView (s : State) (off v : Nat) : Nat :=
  if off = 0x30 then s.pat.tage
  else if off = 0x38 then patWritten s
  else if off = 0x40 then patOldest s
  else if off = 0x50 then setBits v 8 0 s.pat.insp.length
  else v
/-- Scrubber (Table 12-8): the offender entry that SCB_ROIDX selects. -/
def scbView (s : State) (off v : Nat) : Nat :=
  if off = 0x50 then
    match s.mem.offend[rdField s (scb 0x48) 5 0]? with
    | some o => 2 ^ 63 + o.mem * 2 ^ 61 + o.unit * 2 ^ 57 + o.rewr * 2 ^ 54 + o.corr * 2 ^ 50 + o.addr
    | none => 0
  else v
/-- District (Tables 7-13 and 8-12). -/
def dstView (s : State) (d off v : Nat) : Nat :=
  if off = 0x18 then tokHeld s d true
  else if off = 0x2C then min 64 (softQueue s d)
  else v
/-- Thermal round (Table 16-8). -/
def thmView (s : State) (off v : Nat) : Nat :=
  let x := s.thm
  if off = 0x10 then s16 x.tempMax * 2 ^ 16 + s16 x.temp
  else if off = 0x14 then flagBit x.noSensor 11 + flagBit x.shutdown 10 + flagBit (throttled s) 9 + flagBit x.warn.inForce 8 + x.band
  else if 0x20 ≤ off && off < 0x60 then
    let y := x.sensors.getD ((off - 0x20) / 4) {}
    flagBit y.reading.isSome 31 + flagBit y.disagree 30 + readingBits y.reading
  else if 0x60 ≤ off && off < 0x70 then
    let k := (off - 0x60) / 4
    let y := x.ext.getD k {}
    flagBit y.enabled 31 + flagBit (isBroken s (16 + k)) 30 + readingBits y.reading
  else if 0x80 ≤ off && off < 0xB0 then
    let y := x.rails.getD ((off - 0x80) / 4) {}
    flagBit y.mv.isSome 31 + flagBit y.low 30 + flagBit y.high 29 + min 65535 (optBits y.mv)
  else if off = 0xB4 then x.sdcnt
  else v
/-- Power (Table 16-10). -/
def pwrView (s : State) (off v : Nat) : Nat :=
  if off = 0x10 then flagBit (throttled s) 9 + flagBit s.pwr.transit 8 + s.pwr.target * 2 ^ 4 + s.pwr.ps
  else if off = 0x14 then latency s
  else if off = 0x1C then flashBudget s
  else if off = 0x3C then
    let y := ngetD s.pwr.avfs (rdField s Reg.pwrAvsel 5 0) {}
    y.fdiv * 2 ^ 24 + y.volt * 2 ^ 12 + (s.pwr.minSlack % 256).toNat
  else v
/-- Ring (Tables 13-10 and 13-12). LOCAL is a window on the local default, HELD one held outside after a rejoin (log 48). -/
def rngView (s : State) (off v : Nat) : Nat :=
  let r := s.ring
  if off = 0x10 then
    flagBit r.unsync 28 + flagBit (bitOf (rd s 0xE0018) 1) 24 + r.topo * 2 ^ 20 + r.role * 2 ^ 16 + flagBit r.addr.isSome 14
      + optBits r.addr * 2 ^ 8 + r.st.code
  else if off = 0x14 then
    r.n * 2 ^ 24 + optBits r.pmaddr * 2 ^ 16 + flagBit (subAddr r).isSome 14 + optBits (subAddr r) * 2 ^ 8 + (reachSet r).length
  else if off = 0x18 then optBits r.gid
  else if off = 0x20 then sumOf ((reachSet r).map fun a => 2 ^ a)
  else if off = 0x28 then s64 (r.offset / 64)
  else if off = 0x30 then groupTime s
  else if off = 0x38 then sseqNow r
  else if off = 0x40 then
    r.west.code * 2 ^ 8 + flagBit (r.upstream == some .west) 10 + r.east.code + flagBit (r.upstream == some .east) 2
  else if off = 0x4C then
    let src := winSource s
    flagBit r.inWin 31 + flagBit (match src with | some (_, _, _, _, d) => d | none => false) 30 + flagBit src.isNone 29
      + min 65535 (nextWin s)
  else if 0x100 ≤ off && off < 0x140 then
    ((r.rxq.head?.map fun f => fieldAt f.payload (off - 0x100) 4)).getD 0
  else if off = 0x140 then
    (match r.rxq.head? with
      | some f => f.typ * 2 ^ 24 + f.src * 2 ^ 16 + r.rxq.length * 2 ^ 8 + f.payload.length
      | none => 0)
  else v
/-- Security and firmware (Tables 14-11 and 14-12). -/
def secView (s : State) (off v : Nat) : Nat :=
  let x := s.sec
  let bits (f : KeySlot → Bool) : Nat := sumOf ((List.range 4).map fun k => flagBit (f (x.slots.getD k {})) k)
  if off = 0x10 then flagBit (bitOf (rd s Reg.cfgBoot) 19) 23 + x.minsvn % 128 * 2 ^ 16 + bits (fun k => k.revoked) * 2 ^ 8 + bits fun k => k.programmed
  else if off = 0x14 then
    let named : Bool := match recordInForce s with | some (_, l) => fieldAt l 16 1 != runningSlot s | none => false
    flagBit x.runCommit 16 + flagBit named 13 + runningSlot s * 2 ^ 12 + x.runKey * 2 ^ 8 + x.runSvn % 128
  else v
/-- Crypto (Table 14-14). -/
def cryView (s : State) (off v : Nat) : Nat :=
  if 0x80 ≤ off && off < 0x90 then
    sumOf ((List.range 32).map fun i => flagBit (nget s.cry.keys (32 * ((off - 0x80) / 4) + i + 1)).isSome i)
  else v
/-- Recorder (Table 15-9), with the banked registers of an initiator. -/
def evrView (s : State) (i : Initiator) (off v : Nat) : Nat :=
  let e := s.evr
  let b := bankOf s i
  let code := rdField s 0xD0044 11 0
  let k := bucketNow s code
  if off = 0x10 then e.next
  else if off = 0x18 then (lowestSeq e.circ).getD e.next
  else if off = 0x20 then b.cursor
  else if off = 0x28 then flagBit b.valid 31 + b.status * 2 ^ 28 + b.gen
  else if off = 0x34 then e.fifoMax * 2 ^ 16 + e.fifo.length
  else if off = 0x40 then e.pace / paceUnit
  else if off = 0x48 then k.burst * 2 ^ 16 + k.refill * 2 ^ 8 + flagBit k.off 0
  else if off = 0x4C then min 65535 k.supp * 2 ^ 16 + k.level / tokUnit
  else if off = 0x54 then e.lgSeq % 2 ^ 24 * 2 ^ 8 + min 8 e.lgSeq
  else if 0x100 ≤ off && off < 0x200 then fieldAt b.win (off - 0x100) 4
  else if 0x200 ≤ off && off < 0x2F0 then ngetD b.wrbuf ((off - 0x200) / 4) 0
  else v
/-- Event fabric (Table 2-10). With no pending source (NONE = 1), for which the spec gives SRC no value, SRC reads 0 (DESIGN
CHOICE, log entry 148). -/
def evfView (s : State) (off v : Nat) : Nat :=
  if off = 0x20 then s.clk.tb
  else if 0x280 ≤ off && off < 0x2A8 then (firstPending s ((off - 0x280) / 4)).getD 0x100
  else v

/-- The value of a whole register as an initiator reads it; start is its offset in the block. -/
def regView (s : State) (i : Initiator) (b : Blk) (u start : Nat) : Nat :=
  let v := rd s (b.base u + start)
  match b with
  | .hfeA => hfeView s i .a start v | .hfeB => hfeView s i .b start v
  | .srt => srtView s start v | .map => mapView s start v | .phc => phcView s start v | .drc => drcView s start v
  | .jrc => jrcView s start v | .str => strView s start v | .pat => patView s start v | .thm => thmView s start v
  | .pwr => pwrView s start v | .rng => rngView s start v | .sec => secView s start v | .evr => evrView s i start v
  | .cfg => v | .cry => cryView s start v | .evf => evfView s start v | .scb => scbView s start v
  | .dst => dstView s u start v
  | .chn => if start % 8 = 0 && 0x80 ≤ start && start < 0xB0 then v else chnView s u start

/-! ## Reads (R43, R46, R47) -/

/-- 0xFF in every byte requested. -/
def allOnes (size : Nat) : Nat := 2 ^ (8 * size) - 1

/-- A read of MAP_RMWCNT lets the next fallback raise source 42 (Table 5-16); no other read has an effect. -/
def noteRead (s : State) (b : Blk) (off : Nat) : State :=
  if b == .map && off == 0x68 then updMap s fun m => { m with rmwSeen := true } else s

/-- A read that reached the register space: the checks of R46 in order, and the value. -/
def regRead (s : State) (i : Initiator) (a size : Nat) : State × Nat :=
  match locate a with
  | none => (orReg s Reg.evfSts2 1, allOnes size)
  | some (b, u, o) =>
    let fault (kind v : Nat) : State × Nat := (accessFault s b u 0 kind (initCode i) o, v)
    if !islandRuns s b u then (undeliverable s b u, allOnes size)
    else if size = 8 then
      match findReg b u o with
      | some x => if x.row.wide && o = x.start && o % 8 = 0 then (s, regView s i b u x.start % 2 ^ 64) else fault 3 (allOnes 8)
      | none => fault 3 (allOnes 8)
    else if !(size = 1 || size = 2 || size = 4) || o % size != 0 then fault 2 (allOnes size)
    else
      match findReg b u o with
      | none => fault 4 0
      | some x => (noteRead s b x.start, regView s i b u x.start / 2 ^ (8 * (o - x.start)) % 2 ^ (8 * size))

/-- Can a host request reach BAR2 of a port: present, its link up, its function in D0, the chip out of reset? -/
def bar2Reach (s : State) (p : Port) : Bool :=
  let x := getPort s p
  portPresent s p && x.linkUp && !x.d3hot && !s.chip.held && !s.chip.parked
/-- Do the cores run: out of reset, past the staggered wake, and after a halt only SC0, in depot mode, where an image had been accepted
(Table 18-9, R450)? -/
def coresRun (s : State) (i : Initiator) : Bool :=
  !s.chip.held && !s.chip.parked && !s.chip.wakeWait
    && (!bitOf (rd s 0xE0010) 31 || (i == .sc0 && s.sec.depot && decide (3 ≤ rdField s 0xE0010 27 24)))
/-- Can an initiator send an access: a core runs that no error in its SRAM has stopped, or BAR2 is reached? -/
def canAccess (s : State) (i : Initiator) : Bool :=
  !s.chip.coreStop.contains (initCode i) &&
  match i with
  | .bar2 p => bar2Reach s p
  | .ap _ => coresRun s i | .sc0 => coresRun s i | .sc1 => coresRun s i
/-- Does an offset lie in CRY or SEC, which a window never reaches (Table 2-8)? -/
def secretBlock (a : Nat) : Bool := match locate a with | some (b, _, _) => b == .cry || b == .sec | none => false
/-- What the window of R58 answers a read in place of the register; none lets it through. -/
def windowRead (s : State) (i : Initiator) (a size : Nat) : Option (State × Nat) :=
  match i with
  | .bar2 p => match winOfPort s p with
    | .closed => some (denyAccess s p, allOnes size)
    | .openRo => if secretBlock a then some (s, 0) else none
    | .openRw => if secretBlock a then some (s, 0) else none
  | .ap _ => none | .sc0 => none | .sc1 => none

/-- A read by an initiator: its value is sent back (R47, R58). -/
def readAccess (s : State) (i : Initiator) (a size : Nat) : State :=
  if !canAccess s i then s else
  let x := (windowRead s i a size).getD (regRead s i a size)
  emit x.1 (.readValue i x.2)

end Sys2Proof.Machine
end

