-- ==== Sys2Proof/Machine/Regs.lean ====
section
/-! DEFINITION. Register writes: the access codes of Table 0-4, configuration fields and enables (R50 to R52), the checks of
R46 in order, triggers (R55), and what a write of each register sets off. -/

namespace Sys2Proof.Machine

/-- What a command tells of a write beside its value: whether the entropy source answered, whether the recorder slot at the
cursor is unreadable, and the entries of a job ring or a search list where firmware's stores to DRAM are not commands. -/
structure Extra where
  entropyOk : Bool := true
  slotUe    : Bool := false
  jobs      : Option (List JobReq) := none
  list      : Option (List (Ppa × Bool)) := none

/-! ## Fields (Table 0-4, R12, R16, R17, R49) -/

/-- A field's write: the register's new value, and whether the value was a reserved encoding, which the field does not take. -/
def fldWrite (old v : Nat) (f : Fld) : Nat × Bool :=
  let x := bitsOf v f.hi f.lo
  let was := bitsOf old f.hi f.lo
  match f.acc with
  | .ro => (old, false)
  | .wo => (old, !f.ok x)
  | .w1c => (setBits old f.hi f.lo (was - (was &&& x)), false)
  | .mw =>
    let m := bitsOf (v / 2 ^ 16) f.hi f.lo
    let n := (was - (was &&& m)) + (x &&& m)
    if m = 0 || f.ok n then (setBits old f.hi f.lo n, false) else (old, true)
  | .rw => if f.ok x then (setBits old f.hi f.lo x, false) else (old, true)
  | .rws => if f.ok x then (setBits old f.hi f.lo x, false) else (old, true)
/-- Every field of a register. -/
def fldsWrite (flds : List Fld) (old v : Nat) : Nat × Bool :=
  flds.foldl (fun a f => let y := fldWrite a.1 v f; (y.1, a.2 || y.2)) (old, false)
/-- Would the write change a configuration field (R50)? -/
def confChange (flds : List Fld) (old v : Nat) : Bool :=
  flds.any fun f => f.conf && bitsOf v f.hi f.lo != bitsOf old f.hi f.lo

/-- Fields, as bits [hi:lo], that keep their values because of another register: MINRUN below CHN_FLOOR (R195), GAIN beyond
R222's bound, RESV not below MAP_POOLSZ, fewer than two enabled ways (R179), bucket codes 0x100 to 0x1FF (Table 15-9). -/
def reservedNow (s : State) (b : Blk) (u off n : Nat) : List (Nat × Nat) :=
  match b with
  | .chn =>
    if off = 0x14 then (if bitsOf n 15 0 < rdField s (chn u 0x20) 15 0 then [(15, 0)] else [])
    else if off = 0x18 then (if bitsOf n 15 0 < rdField s (chn u 0x20) 31 16 then [(15, 0)] else [])
    else if off = 0x90 then (if 131072 ≤ bitsOf n 31 24 * rdField s (chn u 0x94) 15 0 then [(31, 24)] else [])
    else []
  | .map => if off = 0x14 && rdField s 0x30010 26 0 ≤ bitsOf n 19 0 then [(19, 0)] else []
  | .phc =>
    if off = 0x10 && ((List.range (phcWays s)).filter fun w => !bitOf n w).length < 2 then [(15, 0)] else []
  | .evr =>
    let c := rdField s 0xD0044 11 0
    if off = 0x48 && 0x100 ≤ c && c ≤ 0x1FF then [(31, 0)] else []
  | .hfeA => [] | .hfeB => [] | .srt => [] | .drc => [] | .jrc => [] | .str => [] | .pat => [] | .thm => [] | .pwr => []
  | .rng => [] | .sec => [] | .cfg => [] | .cry => [] | .evf => [] | .scb => [] | .dst => []

/-- The value a register takes from a write, and whether any encoding was reserved (R17). -/
def rowWrite (s : State) (b : Blk) (u : Nat) (x : RegAt) (old v : Nat) : Nat × Bool :=
  let r := fldsWrite x.row.flds old v
  let r := if x.row.okRow r.1 then r else (old, true)
  let keep := reservedNow s b u x.start r.1
  (keep.foldl (fun n k => setBits n k.1 k.2 (bitsOf old k.1 k.2)) r.1, r.2 || !keep.isEmpty)

/-! ## Enable and disable (R51, R52) -/

/-- A block's enable sequence ends: ACTIVE, and what its chapter ties to it. -/
def enableUnit (s : State) (b : Blk) (u : Nat) : State :=
  let s1 := setActive s b u true
  match b with
  | .phc => phcEnable s
  | .rng => ringEnable s
  | .hfeA => portEnable s .a | .hfeB => portEnable s .b
  | .str => pump ((s1.flash.lads.filter fun l => l.2.step == 5 && l.2.rb.isNone).foldl (fun s l => startRebuild s l.1) s1)
  | .srt => updSrt s1 fun t => { t with lastB := true }
  | .chn => pump (trainEnabled s1 u)
  | .dst => pump (takeCost s1 u)
  | .map => proceedAll s1 | .drc => s1 | .jrc => s1 | .pat => s1 | .thm => s1 | .pwr => s1 | .sec => s1 | .evr => s1 | .cfg => s1
  | .cry => anaAfter (lostKeys s) s1 | .evf => s1 | .scb => s1
/-- EN written 0 while ACTIVE: the disable sequence of the block's chapter starts (R127, R161, R172, R203, R234, R280, R316). -/
def disableStart (s : State) (b : Blk) (u : Nat) : State :=
  if b == .phc then phcDrain s false
  else if leaving s b u then s
  else
    let s := updChip s fun c => { c with disabling := c.disabling ++ [(b, u)] }
    if b == .scb then scrubStopReq s
    else if b == .chn then
      pump ((s.flash.ops.filter fun o => lunChn o.2.lun == u && o.2.st == .suspended).foldl (fun s o => askResume s o.1) s)
    else s
/-- Has the disable sequence nothing left to wait for? -/
def disableReady (s : State) (b : Blk) (u : Nat) : Bool :=
  match b with
  | .srt => occCmds s == 0
  | .map => s.jrc.batches.isEmpty && s.jrc.applyQ.isEmpty
  | .chn => !(s.flash.ops.any fun o => lunChn o.2.lun == u && o.2.st != .held) && (courier s u).training.isNone
  | .str => !(s.flash.ops.any fun o => o.2.par.isSome) && !(s.flash.lads.any fun l => l.2.rb.isSome)
  | .jrc => s.jrc.batches.isEmpty
  | .scb => s.mem.scrub.isNone
  | .pat => s.pat.cur.isNone && s.pat.search.isNone
  | .hfeA => true | .hfeB => true | .phc => true | .drc => true | .thm => true | .pwr => true | .rng => true | .sec => true
  | .evr => true | .cfg => true | .cry => true | .evf => true | .dst => true
/-- DISABLE_SEQUENCE_DONE (R52): ACTIVE becomes 0; where EN has been written 1 meanwhile the block enables again. -/
def disableDone (s : State) (b : Blk) (u : Nat) : State :=
  if b == .phc then phcDrained s else
  if !leaving s b u || !disableReady s b u then s else
  let s := updChip s fun c => { c with disabling := c.disabling.filter fun x => !(x.1 == b && x.2 == u) }
  let s := match b with
    | .rng => ringDisable s
    | .hfeA => setActive (modPort s .a fun x => { x with trainEn := false }) b u false
    | .hfeB => setActive (modPort s .b fun x => { x with trainEn := false }) b u false
    | .srt => setActive s b u false | .map => releaseHolds (setActive s b u false) | .phc => setActive s b u false
    | .drc => setActive s b u false | .jrc => setActive s b u false | .str => setActive s b u false
    | .pat => setActive s b u false | .thm => setActive s b u false | .pwr => setActive s b u false
    | .sec => setActive s b u false | .evr => setActive s b u false | .cfg => setActive s b u false
    | .cry => anaAfter (lostKeys s) (setActive s b u false) | .evf => setActive s b u false | .scb => setActive s b u false
    | .dst => setActive s b u false | .chn => setActive s b u false
  if enabled s b u then enableUnit s b u else s

/-- A write of a CTL register (R50, R51): judged against ACTIVE as it stood. -/
def ctlStore (s : State) (i : Initiator) (b : Blk) (u v : Nat) : State :=
  let flds := ctlFields b
  let a := Reg.ctl b u
  let old := rd s a
  let was := active s b u
  let fixed : Bool := b == .thm || b == .pwr || b == .evf
  let s :=
    if was then
      let s := if fixed then s else wrField s a 0 0 v
      if confChange flds old v then accessFault s b u 1 6 (initCode i) 4 else s
    else
      let n := fldsWrite flds old v
      let s := wr s a n.1
      let s := if b == .phc && bitsOf n.1 2 1 != bitsOf old 2 1 then wr s Reg.phcWayDis 0 else s
      if n.2 then accessFault s b u 0 5 (initCode i) 4 else s
  if fixed then s
  else if was then (if v % 2 = 0 then disableStart s b u else s)
  else if v % 2 = 1 then enableUnit s b u else s

/-! ## Triggers (R55) -/

/-- Is the operation that a write starts already running (R55, R198, R265)? A CUTOVER within MINSP of the last root commit starts
nothing either (R260); that it is handled under R55 is DESIGN CHOICE, log entry 197. -/
def trigBusy (s : State) (b : Blk) (u off v : Nat) : Bool :=
  match b with
  | .chn => off == 0x28 && bitOf v 0 && ((courier s u).training.isSome || (courier s u).wantTrain.isSome)
  | .phc => off == 0x30 && bitsOf v 1 0 != 0 && s.phc.rng.isSome
  | .map => off == 0xA4 && bitOf v 0 && s.map.scanning
  | .drc => off == 0x20 && bitOf v 0 && s.mem.zf.isSome
  | .scb => off == 0x28 && bitOf v 0 && s.mem.scrub.isSome
  | .jrc => off == 0x2C && (s.jrc.hold || s.jrc.committing || (if v % 4 = 1 then s.jrc.twoGen || inMinsp s else !s.jrc.twoGen))
  | .pat => off == 0x60 && bitsOf v 6 0 != 0 && s.pat.search.isSome
  | .sec => off == 0x2C && bitOf v 0 && s.sec.verifying
  | .cfg => off == 0x90 && bitsOf v 3 0 != 0 && s.boot.op.isSome
  | .pwr => off == 0x40 && ((List.range 32).any fun c => bitOf v c && (courier s c).reset)
  | .hfeA => false | .hfeB => false | .srt => false | .str => false | .thm => false | .rng => false | .evr => false
  | .cry => false | .evf => false | .dst => false

/-! ## What a write sets off -/

/-- A search list entry of DRAM (Table 11-5). -/
def listEntry (l : List Byte) : Ppa × Bool :=
  let v := leNat l
  ({ lun := bitsOf v 39 30, block := bitsOf v 29 16, page := bitsOf v 15 4, slot := bitsOf v 3 0 }, bitOf v 40)
/-- The first k entries of the search list, as the engine reads them. -/
def listRead (s : State) (k : Nat) : State × List (Ppa × Bool) :=
  let (s, l) := directRead s (rdField s (pat 0x58) 35 6 * 64) (8 * k)
  (s, (List.range k).map fun j => listEntry ((l.drop (8 * j)).take 8))
/-- A job entry of DRAM (Table 9-5). -/
def jobEntry (l : List Byte) : JobReq :=
  { sbid := fieldAt l 0 4, op := fieldAt l 4 1, stream := fieldAt l 5 1, member := fieldAt l 6 1, first := fieldAt l 8 2
    last := fieldAt l 10 2, rsvd := fieldAt l 7 1 + fieldAt l 12 4 + fieldAt l 27 5 }
/-- The entries that a write of MAP_JOBHEAD hands over, as the engine reads them. -/
def jobsRead (s : State) (head : Nat) : State × List JobReq :=
  let old := rdField s 0x300F8 7 0
  (List.range ((head % 256 + 256 - old) % 256)).foldl (fun (a : State × List JobReq) k =>
    let (s, l) := directRead a.1 (jobAddr a.1 ((old + k) % 256)) 32
    (s, a.2 ++ [jobEntry l])) (s, [])

/-- THM_BROKEN: sensors and inputs written 0 are re-admitted, their counts from 0 (Table 16-8). -/
def readmit (s : State) (v : Nat) : State :=
  let old := rd s Reg.thmBroken
  let back (k : Nat) : Bool := bitOf old k && !bitOf v k
  let s := wr s Reg.thmBroken (old &&& v)
  updThm s fun t => { t with
    sensors := t.sensors.mapIdx fun k x => if back k then { x with count := 0 } else x
    ext := t.ext.mapIdx fun k x => if back (16 + k) then { x with up := 0, down := 0 } else x }

/-- EVR_CODECFG: the bucket of the selected code, its level cut to BURST (R377). -/
def codeConfig (s : State) (n : Nat) : State :=
  let c := rdField s 0xD0044 11 0
  let k := bucketNow s c
  let burst := bitsOf n 23 16
  updEvr s fun e => { e with buckets := nset e.buckets c { k with
    burst := burst, refill := bitsOf n 15 8, off := bitOf n 0, level := min k.level (burst * tokUnit) } }

/-- RNG_GEPER at the postmaster: taken and distributed by GROUPSTATE; ticks already passed are not raised (R339). -/
def newGeper (s : State) (n : Nat) : State :=
  if s.ring.role != 1 then s else
  let s := updRing s fun r => { r with geper := n % 65536 }
  let s := updRing s fun r => { r with tickDone := tickIndex s }
  sendRepeat s 0x12 0xFF (ownGs s.ring)

/-- Bits that a retirement register may take: those not set yet, inside the channel's geometry (R255). -/
def retireBits (s : State) (c v : Nat) : List Nat :=
  (List.range 32).filter fun p => bitOf v p && !bit32 s (rLunRet c) p && inGeometry s c p

/-- What follows a write of a register of the flash side, v as written. -/
def flashEffect (s : State) (i : Initiator) (b : Blk) (u off v : Nat) (e : Extra) : State :=
  match b with
  | .chn =>
    if off = 0x28 then (if bitOf v 0 then trainStart s u else s)
    else if off = 0xD4 then snapCmd s u v
    else s
  | .dst => if off = 0x10 || off = 0x1C then pump s else s
  | .str => if off = 0x2C then turn s else s
  | .map =>
    if off = 0x28 then spaceUpdate s
    else if off = 0xA4 then (if bitOf v 0 then victimScan s else s)
    else if off = 0xF8 then
      let (s, js) := match e.jobs with | some l => (jobPlace s l, l) | none => jobsRead s v
      readsOver (jobSubmit s v js)
    else if off = 0x84 then reclaimPace s
    else if off = 0x100 then (if bitOf v 0 then jobAbort s else s)
    else s
  | .pat =>
    if off = 0x60 then
      let k := bitsOf v 6 0
      if k = 0 then s
      else
        let (s, l) := match e.list with | some l => (s, l) | none => listRead s k
        ownerSearch s k l
    else if off = 0x10 then catchup s
    else s
  | .jrc =>
    if off = 0x2C then (if v % 4 = 1 then cutover s else if v % 4 = 2 then jrcCommit s else s)
    else if off = 0x28 then fullJudge s else s
  | .drc => if off = 0x20 then (if bitOf v 0 then zeroFill s else s) else s
  | .scb =>
    if off = 0x28 then
      let s := if bitOf v 0 && s.mem.scrub.isNone then
          let sel := rd s (scb 0x20)
          scrubStart s (bitsOf sel 1 0) (bitsOf sel 7 4) (rdField s (scb 0x10) 39 0) (rdField s (scb 0x18) 39 0)
        else s
      if bitOf v 1 then scrubStopReq s else s
    else s
  | .phc =>
    if off = 0x30 then rangeStart s (v % 4)
    else if off = 0x18 then (if swopLegal s v then swop s v else accessFault s .phc 0 0 5 (initCode i) off)
    else s
  | .srt => if off = 0x18 then (if bitOf v 0 then hwmClear s else s) else s
  | .cry => if off = 0x10 then kcmd s v e.entropyOk else s
  | .hfeA => s | .hfeB => s | .thm => s | .pwr => s | .rng => s | .sec => s | .evr => s | .cfg => s | .evf => s

/-- What follows a write of a register of the system side, v as written and n as stored. -/
def systemEffect (s : State) (i : Initiator) (b : Blk) (off v n : Nat) (e : Extra) : State :=
  match b with
  | .evf =>
    if off = 0x400 then doorbell s i v
    else if 0x1100 ≤ off && off < 0x11A0 then
      let k := (off - 0x1100) / 16
      if off % 16 = 0 then wdRestart s k else if off % 16 = 4 && bitOf v 0 then wdRestart s k else s
    else s
  | .cfg =>
    if off = 0x1C then (if bitOf v 0 && isCore i then warmReset s 6 0 else s)
    else if off = 0x90 then norStart s i v
    else s
  | .pwr =>
    if off = 0x38 then avsel s
    else if off = 0x40 then ((List.range 32).filter fun c => bitOf v c && !(courier s c).reset).foldl courierReset s
    else s
  | .thm => if off = 0x18 then readmit s v else s
  | .rng =>
    if off = 0x44 then updWindow s
    else if off = 0x48 then newGeper s n
    else if off = 0x54 then (if bitOf v 0 then enumCommand s else s)
    else if off = 0xC0 then txDispatch s v
    else if off = 0x144 then (if bitOf v 0 then rxPop s else s)
    else s
  | .sec =>
    if off = 0x2C then (if bitOf v 0 then verifyStart s else s)
    else if off = 0x84 then
      if !handoverLegal s v then accessFault s .sec 0 0 5 (initCode i) off
      else if bitOf v 0 then handoverSwitch s else if bitOf v 1 then handoverDone s else s
    else if off = 0xA0 then fuseCmd s i v
    else s
  | .evr =>
    if off = 0x20 then setCursor s i v e.slotUe
    else if off = 0x2C then
      let s := if bitOf v 2 then (if s.sec.depot then rearm s else accessFault s .evr 0 0 5 (initCode i) off) else s
      let s := if bitOf v 1 then flushSup s else s
      if bitOf v 0 then setCursor s i (((bankOf s i).cursor + 1) % 2 ^ 64) e.slotUe else s
    else if off = 0x48 then codeConfig s n
    else if 0x200 ≤ off && off < 0x2F0 then
      let k := bankOf s i
      setBank s i { k with wrbuf := nset k.wrbuf ((off - 0x200) / 4) (v % 2 ^ 32) }
    else if off = 0x2F0 then writeRecord s i v
    else s
  | .hfeA => s | .hfeB => s | .srt => s | .map => s | .phc => s | .drc => s | .jrc => s | .str => s | .pat => s
  | .cry => s | .scb => s | .dst => s | .chn => s

/-- The registers whose write goes to a unit's own state and not to the stored value. -/
def storedElsewhere (b : Blk) (off : Nat) : Bool :=
  (b == .evr && (off == 0x20 || off == 0x48 || (0x200 ≤ off && off < 0x2F0))) || (b == .thm && off == 0x18)
    || (b == .map && (off == 0xF8 || off == 0x110 || (0x180 ≤ off && off < 0x200)))
/-- Writes that have no effect and are no fault: routes of reserved sources (R61), the words that the JRC supplies (Table
10-13), and the recorder's write buffer and WRCTL from BAR2. -/
def ignoredWrite (i : Initiator) (b : Blk) (x : RegAt) : Bool :=
  (b == .evf && x.row.off == 0x800 && 248 ≤ x.i1)
    || (b == .jrc && x.row.off == 0x100 && (x.i1 == 2 || x.i1 == 3 || x.i1 == 62 || x.i1 == 63))
    || (b == .evr && (x.row.off == 0x200 || x.row.off == 0x2F0) && !isCore i)
/-- The retirement registers (Table 9-14): a write that would clear a set bit is ignored with KIND 0x5; other bits retire. -/
def retireWrite (s : State) (i : Initiator) (off v : Nat) : State :=
  let old := rd s (0x30000 + off)
  if old &&& v != old then accessFault s .map 0 0 5 (initCode i) off
  else if off = 0x110 then readsOver (((List.range 32).filter fun c => bitOf v c && !bitOf old c).foldl channelRetire s)
  else readsOver ((retireBits s ((off - 0x180) / 4) v).foldl (fun s p => lunRetire s ((off - 0x180) / 4) p) s)

/-- A whole-register write that passed the width checks: R50, then R17, then R55, then the stored value and what follows. -/
def regStore (s : State) (i : Initiator) (b : Blk) (u : Nat) (x : RegAt) (v : Nat) (e : Extra) : State :=
  let off := x.start
  let old := regView s i b u off
  if ignoredWrite i b x then s
  else if off = 4 then ctlStore s i b u v
  else if b == .map && (off == 0x110 || (0x180 ≤ off && off < 0x200)) then retireWrite s i off v
  else
    let w := if b == .phc && off = 0x10 then v % 2 ^ phcWays s + old / 2 ^ phcWays s * 2 ^ phcWays s else v
    if confChange x.row.flds old w && active s b u then accessFault s b u 1 6 (initCode i) off else
    let n := rowWrite s b u x old w
    let s := if n.2 then accessFault s b u 0 5 (initCode i) off else s
    let bad := n.2 && (x.row.flds.all fun f => f.acc == .wo)
    if bad then s
    else if trigBusy s b u off v && b != .pwr && b != .scb then accessFault s b u 2 7 (initCode i) off
    else
      let s := if trigBusy s b u off v then accessFault s b u 2 7 (initCode i) off else s
      let s := if storedElsewhere b off || n.1 = old then s else wr s (b.base u + off) n.1
      systemEffect (flashEffect s i b u off v e) i b off v n.1 e

/-! ## Writes (R43, R46, R58) -/

/-- What the window of R58 makes of a write; none lets it through. -/
def windowWrite (s : State) (i : Initiator) (a : Nat) : Option State :=
  match i with
  | .bar2 p => match winOfPort s p with
    | .closed => some (denyAccess s p)
    | .openRo => some (denyAccess s p)
    | .openRw => if secretBlock a then some (denyAccess s p) else none
  | .ap _ => none | .sc0 => none | .sc1 => none
/-- A write that reached the register space: the checks of R46 in order. -/
def regWrite (s : State) (i : Initiator) (a size v : Nat) (e : Extra) : State :=
  match locate a with
  | none => orReg s Reg.evfSts2 1
  | some (b, u, o) =>
    let fault (kind : Nat) : State := accessFault s b u 0 kind (initCode i) o
    if !islandRuns s b u then undeliverable s b u
    else if size = 8 then
      match findReg b u o with
      | some x => if x.row.wide && o = x.start && o % 8 = 0 then regStore s i b u x (v % 2 ^ 64) e else fault 3
      | none => fault 3
    else if size = 1 || size = 2 then fault 1
    else if size != 4 || o % 4 != 0 then fault 2
    else
      match findReg b u o with
      | none => fault 4
      | some x => if x.row.wide then fault 3 else regStore s i b u x (v % 2 ^ 32) e
/-- A write by an initiator. -/
def writeAccess (s : State) (i : Initiator) (a size v : Nat) (e : Extra) : State :=
  if !canAccess s i then s else (windowWrite s i a).getD (regWrite s i a size v e)

end Sys2Proof.Machine
end

