-- ==== Sys2Proof/Machine/AdminCmds.lean ====
section
/-! DEFINITION. The meanings of the commands of administrative commands (17_admin_commands.md). -/

namespace Sys2Proof.Machine

/-- CREATE_IO_SQ (R120). -/
def execCreateIoSq (q : Sqe) (qid size cqid prio fsm : Nat) (pc aligned : Bool) (s : State) : Host.Outcome State Fault Refusal :=
  .next (createSq s q qid size cqid prio fsm pc aligned)

/-- CREATE_IO_CQ (R77). -/
def execCreateIoCq (q : Sqe) (qid size vector : Nat) (ien pc aligned : Bool) (s : State) : Host.Outcome State Fault Refusal :=
  .next (createCq s q qid size vector ien pc aligned)

/-- DELETE_IO_SQ (R124). -/
def execDeleteIoSq (q : Sqe) (qid : Nat) (s : State) : Host.Outcome State Fault Refusal :=
  .next (deleteSq s q qid)

/-- DELETE_IO_CQ (R83). -/
def execDeleteIoCq (q : Sqe) (qid : Nat) (s : State) : Host.Outcome State Fault Refusal :=
  .next (deleteCq s q qid)

/-- IDENTIFY (R78). -/
def execIdentify (q : Sqe) (cns cntid : Nat) (s : State) : Host.Outcome State Fault Refusal :=
  .next (identifyCmd s q cns cntid)

/-- GET_LOG_PAGE (R93). -/
def execGetLogPage (q : Sqe) (lid lsp lpo : Nat) (rae : Bool) (s : State) : Host.Outcome State Fault Refusal :=
  .next (getLog s q lid lsp lpo rae)

/-- DEAD_LETTER_OFFICE_LOG (R292). -/
def execDeadLetterOfficeLog (q : Sqe) (lsp lpo : Nat) (rae : Bool) (s : State) : Host.Outcome State Fault Refusal :=
  .next (getLog s q 0xC0 lsp lpo rae)

/-- RECORDER_EXPORT_LOG (R428). -/
def execRecorderExportLog (q : Sqe) (lsp lpo : Nat) (rae : Bool) (s : State) : Host.Outcome State Fault Refusal :=
  .next (getLog s q 0xC1 lsp lpo rae)

/-- RING_STATUS_LOG (R344). -/
def execRingStatusLog (q : Sqe) (lsp lpo : Nat) (rae : Bool) (s : State) : Host.Outcome State Fault Refusal :=
  .next (getLog s q 0xC2 lsp lpo rae)

/-- MEDIA_HEALTH_DETAIL_LOG (R429). -/
def execMediaHealthDetailLog (q : Sqe) (lsp lpo : Nat) (rae : Bool) (s : State) : Host.Outcome State Fault Refusal :=
  .next (getLog s q 0xC3 lsp lpo rae)

/-- CAPACITY_AND_SHEDDING_LOG (R430). -/
def execCapacityAndSheddingLog (q : Sqe) (lsp lpo : Nat) (rae : Bool) (s : State) : Host.Outcome State Fault Refusal :=
  .next (getLog s q 0xC4 lsp lpo rae)

/-- SET_FEATURES (R93). -/
def execSetFeatures (q : Sqe) (fid : Nat) (sv : Bool) (v : FeatVal) (s : State) : Host.Outcome State Fault Refusal :=
  .next (setFeatures s q fid sv v)

/-- GET_FEATURES (R93). -/
def execGetFeatures (q : Sqe) (fid sel cdw11 : Nat) (s : State) : Host.Outcome State Fault Refusal :=
  .next (getFeatures s q fid sel cdw11)

/-- SET_POWER_MANAGEMENT (R402). -/
def execSetPowerManagement (q : Sqe) (ps : Nat) (sv : Bool) (s : State) : Host.Outcome State Fault Refusal :=
  .next (admin s q fun s => featPower s q ps sv)

/-- SET_PLM_WINDOW (R92). -/
def execSetPlmWindow (q : Sqe) (window : Nat) (s : State) : Host.Outcome State Fault Refusal :=
  .next (admin s q fun s => featPlm s q window)

/-- SET_LATENCY_TOLERANCE (R431). -/
def execSetLatencyTolerance (q : Sqe) (us : Nat) (sv : Bool) (s : State) : Host.Outcome State Fault Refusal :=
  .next (admin s q fun s => featLatency s q us sv)

/-- SET_FAIL_STOP_DEFAULT (R431). -/
def execSetFailStopDefault (q : Sqe) (cdw11 : Nat) (sv : Bool) (s : State) : Host.Outcome State Fault Refusal :=
  .next (admin s q fun s => featFailStop s q cdw11 sv)

/-- SET_PATROL_PERIOD (R431). -/
def execSetPatrolPeriod (q : Sqe) (cdw11 : Nat) (sv : Bool) (s : State) : Host.Outcome State Fault Refusal :=
  .next (admin s q fun s => featPatrol s q cdw11 sv)

/-- ASYNC_EVENT_REQUEST (R94). -/
def execAsyncEventRequest (q : Sqe) (s : State) : Host.Outcome State Fault Refusal :=
  .next (aerRequest s q)

/-- NAMESPACE_CREATE (R155). -/
def execNamespaceCreate (q : Sqe) (nsze ncap lbaf piType : Nat) (pil ext entropyOk : Bool) (s : State) : Host.Outcome State Fault Refusal :=
  .next (nsCreate s (.namespaceCreate q nsze ncap lbaf piType pil ext entropyOk) q nsze ncap lbaf piType pil ext entropyOk)

/-- NAMESPACE_DELETE (R155). -/
def execNamespaceDelete (q : Sqe) (s : State) : Host.Outcome State Fault Refusal :=
  .next (nsDelete s (.namespaceDelete q) q)

/-- NAMESPACE_ATTACHMENT (R84). -/
def execNamespaceAttachment (q : Sqe) (detach : Bool) (ctrls : List Nat) (s : State) : Host.Outcome State Fault Refusal :=
  .next (attachNs s q detach ctrls)

/-- DIRECTIVE_SEND (R91). -/
def execDirectiveSend (q : Sqe) (dtype doper dspec val : Nat) (s : State) : Host.Outcome State Fault Refusal :=
  .next (dirSend s q dtype doper dspec val)

/-- DIRECTIVE_RECEIVE (R91). -/
def execDirectiveReceive (q : Sqe) (dtype doper val : Nat) (s : State) : Host.Outcome State Fault Refusal :=
  .next (dirReceive s q dtype doper val)

/-- FIRMWARE_IMAGE_DOWNLOAD (R353). -/
def execFirmwareImageDownload (q : Sqe) (numd ofst : Nat) (data : List Byte) (s : State) : Host.Outcome State Fault Refusal :=
  .next (download s q numd ofst data)

/-- FIRMWARE_COMMIT_REPLACE (R354). -/
def execFirmwareCommitReplace (q : Sqe) (fs : Nat) (bpid : Bool) (s : State) : Host.Outcome State Fault Refusal :=
  .next (commitImage s q 0 fs bpid)

/-- FIRMWARE_COMMIT_REPLACE_NEXT (R354). -/
def execFirmwareCommitReplaceNext (q : Sqe) (fs : Nat) (bpid : Bool) (s : State) : Host.Outcome State Fault Refusal :=
  .next (commitImage s q 1 fs bpid)

/-- FIRMWARE_COMMIT_ACTIVATE_SLOT (R354). -/
def execFirmwareCommitActivateSlot (q : Sqe) (fs : Nat) (bpid : Bool) (s : State) : Host.Outcome State Fault Refusal :=
  .next (commitNamed s q fs bpid)

/-- FIRMWARE_COMMIT_ACTIVATE_NOW (R357). -/
def execFirmwareCommitActivateNow (q : Sqe) (fs : Nat) (bpid : Bool) (s : State) : Host.Outcome State Fault Refusal :=
  .next (commitImage s q 3 fs bpid)

/-- FORMAT_NVM (R414). -/
def execFormatNvm (q : Sqe) (lbaf ses piType : Nat) (pil mset entropyOk : Bool) (s : State) : Host.Outcome State Fault Refusal :=
  .next (formatFetch s (.formatNvm q lbaf ses piType pil mset entropyOk) q lbaf ses piType)

/-- SANITIZE_EXIT_FAILURE_MODE (R415). -/
def execSanitizeExitFailureMode (q : Sqe) (ndas : Bool) (s : State) : Host.Outcome State Fault Refusal :=
  .next (sanitizeExit s q ndas)

/-- SANITIZE_BLOCK_ERASE (R416). -/
def execSanitizeBlockErase (q : Sqe) (ause ndas entropyOk : Bool) (s : State) : Host.Outcome State Fault Refusal :=
  .next (sanitizeFetch s (.sanitizeBlockErase q ause ndas entropyOk) q ndas)

/-- SANITIZE_CRYPTO_ERASE (R416). -/
def execSanitizeCryptoErase (q : Sqe) (ause ndas entropyOk : Bool) (s : State) : Host.Outcome State Fault Refusal :=
  .next (sanitizeFetch s (.sanitizeCryptoErase q ause ndas entropyOk) q ndas)

/-- SANITIZE_ROUND_DONE (R416). -/
def execSanitizeRoundDone (s : State) : Host.Outcome State Fault Refusal :=
  .next (roundDone s)

/-- SANITIZE_PROGRESS_WRITE (R416). -/
def execSanitizeProgressWrite (s : State) : Host.Outcome State Fault Refusal :=
  .next (sanProgress s)

/-- SECURITY_SEND (R365). -/
def execSecuritySend (q : Sqe) (secp : Nat) (req : SpdmReq) (s : State) : Host.Outcome State Fault Refusal :=
  .next (secSend s q secp req)

/-- SECURITY_RECEIVE (R365). -/
def execSecurityReceive (q : Sqe) (secp : Nat) (s : State) : Host.Outcome State Fault Refusal :=
  .next (secReceive s q secp)

/-- SHED_CAPACITY_RANGES (R158). -/
def execShedCapacityRanges (q : Sqe) (ranges : List LetterRange) (s : State) : Host.Outcome State Fault Refusal :=
  .next (shedFetch s (.shedCapacityRanges q ranges) q ranges)

/-- SHED_CAPACITY_UNALLOCATED (R158). -/
def execShedCapacityUnallocated (q : Sqe) (letters : Nat) (s : State) : Host.Outcome State Fault Refusal :=
  .next (shedFreeFetch s (.shedCapacityUnallocated q letters) q letters)

/-- RESUME_QUEUE (R124). -/
def execResumeQueue (q : Sqe) (sqid : Nat) (s : State) : Host.Outcome State Fault Refusal :=
  .next (resumeQ s q sqid)

/-- COLLECTION_SCHEDULE_SET (R336). -/
def execCollectionScheduleSet (q : Sqe) (d : SchedDesc) (s : State) : Host.Outcome State Fault Refusal :=
  .next (schedSet s q d)

/-- COLLECTION_SCHEDULE_GET (R423). -/
def execCollectionScheduleGet (q : Sqe) (s : State) : Host.Outcome State Fault Refusal :=
  .next (schedGet s q)

/-- COLLECTION_SCHEDULE_TIMEOUT (R336). -/
def execCollectionScheduleTimeout (s : State) : Host.Outcome State Fault Refusal :=
  .next (schedTimeout s)

/-- SCRUB_RANGE (R424). -/
def execScrubRange (q : Sqe) (mem unit rate base len : Nat) (s : State) : Host.Outcome State Fault Refusal :=
  .next (scrubCommand s (.scrubRange q mem unit rate base len) q mem unit rate base len)

/-- RECORDER_READ (R425). -/
def execRecorderRead (q : Sqe) (start length : Nat) (found : Bool) (s : State) : Host.Outcome State Fault Refusal :=
  .next (recRead s q start length found)

/-- DEPOT_UNLOCK_READ (R426). -/
def execDepotUnlockRead (q : Sqe) (session : Nat) (s : State) : Host.Outcome State Fault Refusal :=
  .next (depotOpen s q session .openRo)

/-- DEPOT_UNLOCK_READ_WRITE (R426). -/
def execDepotUnlockReadWrite (q : Sqe) (session : Nat) (s : State) : Host.Outcome State Fault Refusal :=
  .next (depotOpen s q session .openRw)

/-- DEPOT_UNLOCK_CLOSE (R426). -/
def execDepotUnlockClose (q : Sqe) (_session : Nat) (s : State) : Host.Outcome State Fault Refusal :=
  .next (depotClose s q)

end Sys2Proof.Machine
end

