-- ==== Sys2Proof/Machine/CacheCmds.lean ====
section
/-! DEFINITION. The meanings of the commands of the pigeonhole cache (06_pigeonhole_cache.md). -/

namespace Sys2Proof.Machine

/-- The segment of a line: of the threshold table, or the one given. -/
def lineSeg (s : State) (line seg : Nat) : Option Nat := if inTt s line then unitSeg s line else some seg
/-- A correction in the cache's SRAM counts for a row of its data or of its tags (R311); which row holds a line is a free value (log
entry 5). -/
def cacheRow (s : State) (tags : Bool) : State :=
  let (s, row) := freshBelow s (2 ^ 16)
  offender s 2 (if tags then 1 else 0) (256 * row)
/-- An error met at a lookup of a line, before the request is served (Table 6-5). -/
def lookupError (s : State) (line : Nat) (err : Option LineError) (seg : Nat) : State :=
  match err, findWay s line with
  | some e, some w =>
    let s := phcError s (phcSet s line) w (lineSeg s line seg) e
    (match e with | .corrected => cacheRow s false | .oneTag => cacheRow s true | .dataUncorrected => s | .bothTags _ => s)
  | _, _ => s
/-- The error that a lookup met, the requests, and the DRAM controller's report of the fill, then the fill (R167, R178, R300). What the
line holds is what DRAM holds (log entry 185). -/
def phcFilled (s : State) (line : Nat) (r : UnitRead) (more : List LineReq) (err : Option LineError) (seg : Nat) : State :=
  let s := clientAccesses (lookupError s line err seg) more
  let went := s.phc.fills.any (fun f => f.line == line) && fillFits s line
  let rep := effective s line r
  fillDone (if went then dramReport s line r else s) line rep (lineSeg s line seg)
/-- PHC_WAY_DISABLE_DONE, with SC1's repair list entry for the failing row, whose address the spec does not tie to a set and way:
a free value (R176; log entry 5). -/
def wayDisableDone (s : State) (way set : Nat) : State :=
  if s.phc.disabling != some (way, set) then s
  else if s.phc.rowKnown then wayDisabled s way set else
  let (s, unit) := freshBelow (wayDisabled s way set) 2
  let (s, addr) := freshBelow s (2 ^ 24)
  if s.mem.repair.any fun r => r.kind == 1 && r.unit == unit && sramRow r.addr == sramRow addr then s
  else addRepair s { kind := 1, unit, addr }
/-- A PHC_SWOP word (Table 6-9). -/
def swopWord (op way set : Nat) : Nat := op * 2 ^ 30 + way % 16 * 2 ^ 17 + set % 2 ^ 17

/-- PHC_FILL_DONE (R167). -/
def execPhcFillDone (line : Nat) (_data : BitVec 512) (rep : UnitRead) (waiting : List LineReq) (err : Option LineError) (seg : Nat) (s : State) : Host.Outcome State Fault Refusal :=
  .next (phcFilled s line rep waiting err seg)

/-- PHC_WRITEBACK_ACK (R170). -/
def execPhcWritebackAck (line : Nat) (s : State) : Host.Outcome State Fault Refusal :=
  .next (writebackAck s line)

/-- PHC_ERR_WINDOW_END (R176). -/
def execPhcErrWindowEnd (s : State) : Host.Outcome State Fault Refusal :=
  .next (errWindowEnd s)

/-- PHC_WAY_DISABLE_DONE (R176). -/
def execPhcWayDisableDone (way set : Nat) (s : State) : Host.Outcome State Fault Refusal :=
  .next (wayDisableDone s way set)

/-- PHC_INVALIDATION_DONE (R172). -/
def execPhcInvalidationDone (s : State) : Host.Outcome State Fault Refusal :=
  .next (invalidationDone s)

/-- PHC_DRAIN_DONE (R172). -/
def execPhcDrainDone (s : State) : Host.Outcome State Fault Refusal :=
  .next (phcDrained s)

/-- PHC_RANGE_CLEAN (R173). -/
def execPhcRangeClean (i : Initiator) (v : Word) (s : State) : Host.Outcome State Fault Refusal :=
  .next (writeAccess s i 0x40030 4 (setBits v.toNat 1 0 1) {})

/-- PHC_RANGE_INVALIDATE (R173). -/
def execPhcRangeInvalidate (i : Initiator) (v : Word) (s : State) : Host.Outcome State Fault Refusal :=
  .next (writeAccess s i 0x40030 4 (setBits v.toNat 1 0 2) {})

/-- PHC_RANGE_CLEAN_INVALIDATE (R173). -/
def execPhcRangeCleanInvalidate (i : Initiator) (v : Word) (s : State) : Host.Outcome State Fault Refusal :=
  .next (writeAccess s i 0x40030 4 (setBits v.toNat 1 0 3) {})

/-- PHC_RANGE_DONE (R173). -/
def execPhcRangeDone (s : State) : Host.Outcome State Fault Refusal :=
  .next (rangeDone s)

/-- PHC_SWOP_CLEAN (R175). -/
def execPhcSwopClean (i : Initiator) (way set : Nat) (s : State) : Host.Outcome State Fault Refusal :=
  .next (writeAccess s i 0x40018 4 (swopWord 1 way set) {})

/-- PHC_SWOP_INVALIDATE (R175). -/
def execPhcSwopInvalidate (i : Initiator) (way set : Nat) (s : State) : Host.Outcome State Fault Refusal :=
  .next (writeAccess s i 0x40018 4 (swopWord 2 way set) {})

/-- PHC_SWOP_CLEAN_INVALIDATE (R175). -/
def execPhcSwopCleanInvalidate (i : Initiator) (way set : Nat) (s : State) : Host.Outcome State Fault Refusal :=
  .next (writeAccess s i 0x40018 4 (swopWord 3 way set) {})

end Sys2Proof.Machine
end

