-- ==== Sys2Proof/Machine/FirmwareCmds.lean ====
section
/-! DEFINITION. The meanings of the commands of firmware, keys and attestation (14_firmware_security.md). -/

namespace Sys2Proof.Machine

/-- A CRY_KCMD word (Table 14-14). -/
def keyWord (op : Nat) (salt : Bool) (nsid : Nat) : Nat := op * 2 ^ 28 + flagBit salt 8 + nsid % 256

/-- IMAGE_VERIFY (R352). -/
def execImageVerify (i : Initiator) (v : Word) (s : State) : Host.Outcome State Fault Refusal :=
  .next (writeAccess s i 0xC002C 4 (setBits v.toNat 0 0 1) {})

/-- IMAGE_VERIFY_DONE (R352). -/
def execImageVerifyDone (s : State) : Host.Outcome State Fault Refusal :=
  .next (verifyDone s)

/-- HANDOVER_SWITCH (R357). -/
def execHandoverSwitch (i : Initiator) (v : Word) (s : State) : Host.Outcome State Fault Refusal :=
  .next (writeAccess s i 0xC0084 4 (setBits v.toNat 1 0 1) {})

/-- HANDOVER_DONE (R357). -/
def execHandoverDone (i : Initiator) (v : Word) (s : State) : Host.Outcome State Fault Refusal :=
  .next (writeAccess s i 0xC0084 4 (setBits v.toNat 1 0 2) {})

/-- ACTIVATION_REVERT (R358). -/
def execActivationRevert (s : State) : Host.Outcome State Fault Refusal :=
  .next (activationRevert s)

/-- FUSE_PROGRAM_KEYHASH (R350). -/
def execFuseProgramKeyhash (i : Initiator) (slot : Fin 4) (s : State) : Host.Outcome State Fault Refusal :=
  .next (writeAccess s i 0xC00A0 4 (2 ^ 28 + slot.val * 2 ^ 24) {})

/-- FUSE_REVOKE_SLOT (R350). -/
def execFuseRevokeSlot (i : Initiator) (slot : Fin 4) (s : State) : Host.Outcome State Fault Refusal :=
  .next (writeAccess s i 0xC00A0 4 (2 * 2 ^ 28 + slot.val * 2 ^ 24) {})

/-- FUSE_RAISE_MINSVN (R350). -/
def execFuseRaiseMinsvn (i : Initiator) (value : Nat) (s : State) : Host.Outcome State Fault Refusal :=
  .next (if raiseEarly s i value then s else writeAccess s i 0xC00A0 4 (3 * 2 ^ 28 + value % 128) {})

/-- KEY_GENERATE (R367). -/
def execKeyGenerate (i : Initiator) (salt : Bool) (nsid : Nat) (entropyOk : Bool) (s : State) : Host.Outcome State Fault Refusal :=
  .next (writeAccess s i 0xF0010 4 (keyWord 1 salt nsid) { entropyOk })

/-- KEY_LOAD_WRAPPED (R367). -/
def execKeyLoadWrapped (i : Initiator) (salt : Bool) (nsid : Nat) (s : State) : Host.Outcome State Fault Refusal :=
  .next (writeAccess s i 0xF0010 4 (keyWord 2 salt nsid) {})

/-- KEY_DESTROY (R367). -/
def execKeyDestroy (i : Initiator) (nsid : Nat) (s : State) : Host.Outcome State Fault Refusal :=
  .next (writeAccess s i 0xF0010 4 (keyWord 3 false nsid) {})

/-- GET_VERSION (R365). -/
def execGetVersion (t : SpdmTransport) (s : State) : Host.Outcome State Fault Refusal :=
  .next (spdm s t .getVersion)

/-- GET_CAPABILITIES (R365). -/
def execGetCapabilities (t : SpdmTransport) (s : State) : Host.Outcome State Fault Refusal :=
  .next (spdm s t .getCapabilities)

/-- NEGOTIATE_ALGORITHMS (R365). -/
def execNegotiateAlgorithms (t : SpdmTransport) (supported : Bool) (s : State) : Host.Outcome State Fault Refusal :=
  .next (spdm s t (.negotiateAlgorithms supported))

/-- GET_DIGESTS (R365). -/
def execGetDigests (t : SpdmTransport) (s : State) : Host.Outcome State Fault Refusal :=
  .next (spdm s t .getDigests)

/-- GET_CERTIFICATE (R364). -/
def execGetCertificate (t : SpdmTransport) (slot offset length : Nat) (s : State) : Host.Outcome State Fault Refusal :=
  .next (spdm s t (.getCertificate slot offset length))

/-- CHALLENGE (R365). -/
def execChallenge (t : SpdmTransport) (slot : Nat) (s : State) : Host.Outcome State Fault Refusal :=
  .next (spdm s t (.challenge slot))

/-- GET_MEASUREMENTS (R366). -/
def execGetMeasurements (t : SpdmTransport) (index : Nat) (signed : Bool) (s : State) : Host.Outcome State Fault Refusal :=
  .next (spdm s t (.getMeasurements index signed))

/-- KEY_EXCHANGE (R365). -/
def execKeyExchange (t : SpdmTransport) (mutualAuth : Bool) (s : State) : Host.Outcome State Fault Refusal :=
  .next (spdm s t (.keyExchange mutualAuth))

/-- FINISH (R365). -/
def execFinish (t : SpdmTransport) (session : Nat) (verified : Bool) (chainKeyHash : BitVec 512) (s : State) : Host.Outcome State Fault Refusal :=
  .next (spdm s t (.finish session verified chainKeyHash))

/-- HEARTBEAT (R365). -/
def execHeartbeat (t : SpdmTransport) (session : Nat) (s : State) : Host.Outcome State Fault Refusal :=
  .next (spdm s t (.heartbeat session))

/-- KEY_UPDATE (R365). -/
def execKeyUpdate (t : SpdmTransport) (session : Nat) (s : State) : Host.Outcome State Fault Refusal :=
  .next (spdm s t (.keyUpdate session))

/-- END_SESSION (R365). -/
def execEndSession (t : SpdmTransport) (session : Nat) (s : State) : Host.Outcome State Fault Refusal :=
  .next (spdm s t (.endSession session))

/-- SPDM_HEARTBEAT_TIMEOUT (R365). -/
def execSpdmHeartbeatTimeout (session : Nat) (s : State) : Host.Outcome State Fault Refusal :=
  .next (spdmTimeout s session)

end Sys2Proof.Machine
end

