-- ==== Sys2Proof/Machine/FlashCmds.lean ====
section
/-! DEFINITION. The meanings of the commands of couriers, the ladder and the dead-letter queue (07_flash_channels.md, 08_data_protection.md). -/

namespace Sys2Proof.Machine

/-- READ_COMPLETE (R196). -/
def execReadComplete (op : Nat) (cws : List CodewordRead) (s : State) : Host.Outcome State Fault Refusal :=
  .next (readComplete s op cws)

/-- SOFT_DECODE_DONE (R213). -/
def execSoftDecodeDone (lad : Nat) (decoded : Bool) (corrected : Nat) (s : State) : Host.Outcome State Fault Refusal :=
  .next (softDone s lad decoded corrected)

/-- REBUILD_DONE (R232). -/
def execRebuildDone (lad : Nat) (s : State) : Host.Outcome State Fault Refusal :=
  .next (rebuildDone s lad)

/-- DLQ_ENTRY_WRITE (R236). -/
def execDlqEntryWrite (lad : Nat) (s : State) : Host.Outcome State Fault Refusal :=
  .next (dlqEntryWrite s lad)

/-- STR_DLQ_TAIL_WRITE (R236). -/
def execStrDlqTailWrite (i : Initiator) (v : Word) (s : State) : Host.Outcome State Fault Refusal :=
  .next (writeAccess s i 0x7002C 4 v.toNat {})

/-- PROGRAM_COMPLETE (R197). -/
def execProgramComplete (op : Nat) (o : DieOutcome) (s : State) : Host.Outcome State Fault Refusal :=
  .next (programComplete s op (o == .ok))

/-- ERASE_SUSPEND (R191). -/
def execEraseSuspend (op : Nat) (s : State) : Host.Outcome State Fault Refusal :=
  .next (suspend s op .erase)

/-- PROGRAM_SUSPEND (R194). -/
def execProgramSuspend (op : Nat) (s : State) : Host.Outcome State Fault Refusal :=
  .next (suspend s op .program)

/-- SUSPEND_RESUME (R192). -/
def execSuspendResume (op : Nat) (dwell : Bool) (s : State) : Host.Outcome State Fault Refusal :=
  .next (suspendResume s op dwell)

/-- RD_I_AGE_EXPIRY (R186). -/
def execRdIAgeExpiry (op : Nat) (s : State) : Host.Outcome State Fault Refusal :=
  .next (rdIAge s op)

/-- LUN_TIMEOUT (R197). -/
def execLunTimeout (op : Nat) (recent : Bool) (s : State) : Host.Outcome State Fault Refusal :=
  .next (lunTimeout s op recent)

/-- TRAINING_START (R188). -/
def execTrainingStart (i : Initiator) (c : Fin 32) (v : Word) (s : State) : Host.Outcome State Fault Refusal :=
  .next (writeAccess s i (chn c 0x28) 4 (setBits v.toNat 0 0 1) {})

/-- TRAINING_DONE (R190). -/
def execTrainingDone (c : Fin 32) (eyes : List (Nat × Nat)) (attemptsFailed : List Nat) (s : State) : Host.Outcome State Fault Refusal :=
  .next (trainingDone s c eyes attemptsFailed)

/-- COURIER_RESET (R198). -/
def execCourierReset (i : Initiator) (v : Word) (s : State) : Host.Outcome State Fault Refusal :=
  .next (writeAccess s i 0xA0040 4 v.toNat {})

/-- COURIER_RESET_DONE (R198). -/
def execCourierResetDone (c : Fin 32) (answers : List (Nat × Bool)) (train : TrainFound) (s : State) : Host.Outcome State Fault Refusal :=
  .next (courierResetDone s c answers train.eyes train.failedCe train.verified)

/-- TOKEN_ALLOCATION (R200). -/
def execTokenAllocation (s : State) : Host.Outcome State Fault Refusal :=
  .next (allocate s)

/-- SNAPSHOT_FIRE (R372). -/
def execSnapshotFire (i : Initiator) (c : Fin 32) (v : Word) (s : State) : Host.Outcome State Fault Refusal :=
  .next (writeAccess s i (chn c 0xD4) 4 (setBits v.toNat 1 0 1) {})

/-- SNAPSHOT_POP (R373). -/
def execSnapshotPop (i : Initiator) (c : Fin 32) (v : Word) (s : State) : Host.Outcome State Fault Refusal :=
  .next (writeAccess s i (chn c 0xD4) 4 (setBits v.toNat 1 0 2) {})

end Sys2Proof.Machine
end

