-- ==== Sys2Proof/Machine/JournalCmds.lean ====
section
/-! DEFINITION. The meanings of the commands of the journal and its epochs (10_power_loss.md). -/

namespace Sys2Proof.Machine

/-- ROOT_COMMIT_DONE (R265 steps 7 and 8): what the checkpoint holds of the patrol table, and the saved health counts. -/
def rootCommitted (s : State) : State :=
  let was := s.jrc.committing && s.jrc.next.isSome
  let s := rootDone s
  if !was then s else
  let s := updPat s fun p => { p with
    copyTab := p.tab, copyTage := p.tage, copyStamp := if p.stamp.isSome then some (stampNow s) else p.copyStamp }
  noteRoot (stageRuns (reclaimPace (updMap s fun m => { m with mhSaved := mhNow s })))

/-- EPOCH_PERIOD_EXPIRY (R264). -/
def execEpochPeriodExpiry (s : State) : Host.Outcome State Fault Refusal :=
  .next (epochPeriod s)

/-- MINSP_EXPIRY (R264). -/
def execMinspExpiry (s : State) : Host.Outcome State Fault Refusal :=
  .next (stageRuns (minspExpiry s))

/-- JRC_CUTOVER (R265). -/
def execJrcCutover (i : Initiator) (v : Word) (s : State) : Host.Outcome State Fault Refusal :=
  .next (writeAccess s i 0x6002C 4 (setBits v.toNat 1 0 1) {})

/-- CUTOVER_DONE (R265). -/
def execCutoverDone (s : State) : Host.Outcome State Fault Refusal :=
  .next (cutoverDone s)

/-- JRC_COMMIT (R265). -/
def execJrcCommit (i : Initiator) (v : Word) (s : State) : Host.Outcome State Fault Refusal :=
  .next (writeAccess s i 0x6002C 4 (setBits v.toNat 1 0 2) {})

/-- ROOT_COMMIT_DONE (R265). -/
def execRootCommitDone (s : State) : Host.Outcome State Fault Refusal :=
  .next (rootCommitted s)

end Sys2Proof.Machine
end

