-- ==== Sys2Proof/Machine/MapCmds.lean ====
section
/-! DEFINITION. The meanings of the commands of the map engine, reclaim and retirement (05_translation.md, 09_reclaim_and_wear.md). -/

namespace Sys2Proof.Machine

/-- PACKING_FILLWAIT_EXPIRY (R139). -/
def execPackingFillwaitExpiry (stream : Nat) (s : State) : Host.Outcome State Fault Refusal :=
  .next (fillwait s stream)

/-- BUNDLE_WAIT_END (R143). -/
def execBundleWaitEnd (s : State) : Host.Outcome State Fault Refusal :=
  .next (bundleWaitEnd s)

/-- DEALLOC_BUNDLE_TIMEOUT (R149). -/
def execDeallocBundleTimeout (id : Nat) (s : State) : Host.Outcome State Fault Refusal :=
  .next (deallocTimeout s id)

/-- HEAT_HALVING (R147). -/
def execHeatHalving (s : State) : Host.Outcome State Fault Refusal :=
  .next (heatHalving s)

/-- LIFE_CLOCK_TICK (R239). -/
def execLifeClockTick (s : State) : Host.Outcome State Fault Refusal :=
  .next (lifeTick s)

/-- VICTIM_SCAN (R244). -/
def execVictimScan (i : Initiator) (v : Word) (s : State) : Host.Outcome State Fault Refusal :=
  .next (writeAccess s i 0x300A4 4 (setBits v.toNat 0 0 1) {})

/-- VICTIM_SCAN_DONE (R244). -/
def execVictimScanDone (s : State) : Host.Outcome State Fault Refusal :=
  .next (victimScanDone s)

/-- JOB_SUBMIT (R245). -/
def execJobSubmit (i : Initiator) (head : Nat) (jobs : List JobReq) (s : State) : Host.Outcome State Fault Refusal :=
  .next (writeAccess s i 0x300F8 4 head { jobs := some jobs })

/-- JOB_DONE (R245). -/
def execJobDone (job : Nat) (s : State) : Host.Outcome State Fault Refusal :=
  .next (jobDone s job)

/-- JOB_ABORT (R245). -/
def execJobAbort (i : Initiator) (v : Word) (s : State) : Host.Outcome State Fault Refusal :=
  .next (writeAccess s i 0x30100 4 (setBits v.toNat 0 0 1) {})

/-- ERASE_COMPLETE (R243). -/
def execEraseComplete (lun block : Nat) (o : DieOutcome) (s : State) : Host.Outcome State Fault Refusal :=
  .next (eraseComplete s lun block (o == .ok))

/-- REFRESH_RELOCATION (R252). -/
def execRefreshRelocation (s : State) : Host.Outcome State Fault Refusal :=
  .next (readsOver (refreshRelocation s))

/-- LUN_RETIRE (R255). -/
def execLunRetire (i : Initiator) (c pos : Fin 32) (s : State) : Host.Outcome State Fault Refusal :=
  .next (writeAccess s i (0x30180 + 4 * c.val) 4 (rd s (0x30180 + 4 * c.val) ||| 2 ^ pos.val) {})

/-- CHANNEL_RETIRE (R255). -/
def execChannelRetire (i : Initiator) (c : Fin 32) (s : State) : Host.Outcome State Fault Refusal :=
  .next (writeAccess s i 0x30110 4 (rd s 0x30110 ||| 2 ^ c.val) {})

/-- CHANNEL_SWEEP_DONE (R255). -/
def execChannelSweepDone (c : Fin 32) (s : State) : Host.Outcome State Fault Refusal :=
  .next (channelSweepDone s c)

/-- MAP_RECOUNT_DONE (R277). -/
def execMapRecountDone (s : State) : Host.Outcome State Fault Refusal :=
  .next (recountEnd s)

end Sys2Proof.Machine
end

