-- ==== Sys2Proof/Machine/MemCmds.lean ====
section
/-! DEFINITION. The meanings of the commands of memory integrity (12_memory_integrity.md). -/

namespace Sys2Proof.Machine

/-- ZERO_FILL_START (R301). -/
def execZeroFillStart (i : Initiator) (v : Word) (s : State) : Host.Outcome State Fault Refusal :=
  .next (writeAccess s i 0x50020 4 (setBits v.toNat 0 0 1) {})

/-- ZERO_FILL_DONE (R301). -/
def execZeroFillDone (s : State) : Host.Outcome State Fault Refusal :=
  .next (fillDoneAll s)

/-- MERGE_AGE_FLUSH (R303). -/
def execMergeAgeFlush (line : Nat) (rep : UnitRead) (_old : BitVec 512) (s : State) : Host.Outcome State Fault Refusal :=
  .next (mergeAge s line rep)

/-- SEGMENT_REBUILD_DONE (R308). -/
def execSegmentRebuildDone (seg : Nat) (readable : Bool) (s : State) : Host.Outcome State Fault Refusal :=
  .next (segmentDone s seg readable)

/-- SCRUB_START (R310). -/
def execScrubStart (i : Initiator) (v : Word) (s : State) : Host.Outcome State Fault Refusal :=
  .next (writeAccess s i 0x110028 4 (setBits v.toNat 1 0 1) {})

/-- SCRUB_STOP (R310). -/
def execScrubStop (i : Initiator) (v : Word) (s : State) : Host.Outcome State Fault Refusal :=
  .next (writeAccess s i 0x110028 4 (setBits v.toNat 1 0 2) {})

/-- SCRUB_DONE (R310). -/
def execScrubDone (found : List (Nat × UnitRead)) (s : State) : Host.Outcome State Fault Refusal :=
  .next (scrubDone s found)

/-- JRAM_LINE_SWITCH (R314). -/
def execJramLineSwitch (die line : Nat) (s : State) : Host.Outcome State Fault Refusal :=
  .next (lineSwitch s die line)

end Sys2Proof.Machine
end

