-- ==== Sys2Proof/Machine/PatrolCmds.lean ====
section
/-! DEFINITION. The meanings of the commands of the patrol (11_patrol.md). -/

namespace Sys2Proof.Machine

/-- PATROL_READ_DONE (R287). -/
def execPatrolReadDone (sbx member row status worst corrected : Nat) (lost : List Nat) (s : State) : Host.Outcome State Fault Refusal :=
  .next (patrolReadDone s sbx member row (status, worst, corrected, lost))

/-- PATROL_RESCAN (R285). -/
def execPatrolRescan (s : State) : Host.Outcome State Fault Refusal :=
  .next (rescan s)

/-- PATROL_TAGE_TICK (R284). -/
def execPatrolTageTick (s : State) : Host.Outcome State Fault Refusal :=
  .next (tageTick s)

/-- PATROL_FLOOR_PACE (R286). -/
def execPatrolFloorPace (s : State) : Host.Outcome State Fault Refusal :=
  .next (floorPace s)

/-- OWNER_SEARCH (R289). -/
def execOwnerSearch (i : Initiator) (v : Word) (list : List (Ppa × Bool)) (s : State) : Host.Outcome State Fault Refusal :=
  .next (writeAccess s i 0x80060 4 v.toNat { list := some list })

/-- OWNER_SEARCH_DONE (R289). -/
def execOwnerSearchDone (s : State) : Host.Outcome State Fault Refusal :=
  .next (ownerSearchDone s)

end Sys2Proof.Machine
end

