-- ==== Sys2Proof/Machine/PortCmds.lean ====
section
/-! DEFINITION. The meanings of the commands of port and controller events (03_host_ports.md). -/

namespace Sys2Proof.Machine

/-- CC_EN_SET (R79). -/
def execCcEnSet (p : Port) (cc : CcFields) (aqa : Aqa) (s : State) : Host.Outcome State Fault Refusal :=
  .next (enableController s p cc aqa)

/-- CC_EN_CLEAR (R95). -/
def execCcEnClear (p : Port) (s : State) : Host.Outcome State Fault Refusal :=
  .next (disableController s p)

/-- SHUTDOWN_NORMAL (R95). -/
def execShutdownNormal (p : Port) (s : State) : Host.Outcome State Fault Refusal :=
  .next (shutdownOrderly s p)

/-- SHUTDOWN_ABRUPT (R95). -/
def execShutdownAbrupt (p : Port) (s : State) : Host.Outcome State Fault Refusal :=
  .next (shutdownAtOnce s p)

/-- FUNCTION_LEVEL_RESET (R95). -/
def execFunctionLevelReset (p : Port) (s : State) : Host.Outcome State Fault Refusal :=
  .next (flr s p)

/-- HOT_RESET_OR_PERST (R95). -/
def execHotResetOrPerst (p : Port) (perst : Bool) (s : State) : Host.Outcome State Fault Refusal :=
  .next (conventionalReset s p perst)

/-- LINK_DOWN (R95). -/
def execLinkDown (p : Port) (s : State) : Host.Outcome State Fault Refusal :=
  .next (linkLost s p)

/-- LINK_UP (R70). -/
def execLinkUp (p : Port) (rate width : Nat) (flit : Bool) (s : State) : Host.Outcome State Fault Refusal :=
  .next (linkTrained s p rate width flit)

/-- DRAIN_COMPLETE (R95). -/
def execDrainComplete (p : Port) (s : State) : Host.Outcome State Fault Refusal :=
  .next (drainEnd s p)

/-- LTR_SEND (R74). -/
def execLtrSend (p : Port) (us : Nat) (s : State) : Host.Outcome State Fault Refusal :=
  .next (ltrMessage s p us)

/-- PERST_N_DEASSERT (R97). -/
def execPerstNDeassert (p : Port) (s : State) : Host.Outcome State Fault Refusal :=
  .next (perstOff s p)

/-- CONFIGURATION_REQUEST (R73). -/
def execConfigurationRequest (p : Port) (w : CfgReq) (s : State) : Host.Outcome State Fault Refusal :=
  .next (configAccess s p w)

/-- MSIX_TABLE_WRITE (R65). -/
def execMsixTableWrite (p : Port) (vector : Nat) (mask : Bool) (addr data : Nat) (s : State) : Host.Outcome State Fault Refusal :=
  .next (msixWrite s p vector mask addr data)

/-- INTERRUPT_COALESCING_EXPIRY (R82). -/
def execInterruptCoalescingExpiry (p : Port) (vector : Nat) (s : State) : Host.Outcome State Fault Refusal :=
  .next (coalExpiry s p vector)

/-- PCIE_UNCORRECTABLE_ERROR (R98). -/
def execPcieUncorrectableError (p : Port) (id : Option Nat) (s : State) : Host.Outcome State Fault Refusal :=
  .next (pcieError s p id)

end Sys2Proof.Machine
end

