-- ==== Sys2Proof/Machine/QueueCmds.lean ====
section
/-! DEFINITION. The meanings of the commands of doorbells of the host, I/O commands and their ordering (03_host_ports.md, 04_command_ordering.md). -/

namespace Sys2Proof.Machine

/-- A Write, whose stream opens with it (R91). -/
def writeCmd (s : State) (q : Sqe) (f : IoFields) (stream : Nat) : State :=
  let body : Instr := .write q f stream
  let t := fetchIo s q body true true [(f.slba, f.nlb + 1)]
  if canFetchIo s q && (ioFault s q body true).isNone then noteStream t q stream else t
/-- A Dataset Management: Deallocate is tracked; without AD its hints are accepted and ignored (Table 3-6). -/
def dsmCmd (s : State) (q : Sqe) (ranges : List LetterRange) (ad : Bool) : State :=
  let body : Instr := .datasetManagement q ranges ad
  if ad then fetchIo s q body true false (ranges.map fun r => (r.slba, r.nlb))
  else if !canFetchIo s q then s
  else
    let s := takeIo s q
    match ioFault s q body false with
    | some (st, lba) => complete s q st 0 lba
    | none => complete s q stOk

/-- SQ_TAIL_DOORBELL (R76). -/
def execSqTailDoorbell (p : Port) (qid tail : Nat) (s : State) : Host.Outcome State Fault Refusal :=
  .next (sqDoorbell s p qid tail)

/-- CQ_HEAD_DOORBELL (R76). -/
def execCqHeadDoorbell (p : Port) (qid head : Nat) (s : State) : Host.Outcome State Fault Refusal :=
  .next (cqDoorbell s p qid head)

/-- TRACKED_COMMAND_ACCEPT (R101). -/
def execTrackedCommandAccept (s : State) : Host.Outcome State Fault Refusal :=
  .next (acceptWaiting s)

/-- UNSUPPORTED_OPCODE (R83). -/
def execUnsupportedOpcode (q : Sqe) (_opc : Nat) (fused : Bool) (s : State) : Host.Outcome State Fault Refusal :=
  .next (unsupported s q fused)

/-- FLUSH (R83). -/
def execFlush (q : Sqe) (s : State) : Host.Outcome State Fault Refusal :=
  .next (flushCmd s q)

/-- WRITE (R32). -/
def execWrite (q : Sqe) (f : IoFields) (stream : Nat) (s : State) : Host.Outcome State Fault Refusal :=
  .next (writeCmd s q f stream)

/-- READ (R34). -/
def execRead (q : Sqe) (f : IoFields) (lr : Bool) (s : State) : Host.Outcome State Fault Refusal :=
  .next (fetchIo s q (.read q f lr) false false [(f.slba, f.nlb + 1)])

/-- COMPARE (R83). -/
def execCompare (q : Sqe) (f : IoFields) (hostData : List HostBlock) (s : State) : Host.Outcome State Fault Refusal :=
  .next (fetchIo s q (.compare q f hostData) false false [(f.slba, f.nlb + 1)])

/-- WRITE_ZEROES (R83). -/
def execWriteZeroes (q : Sqe) (f : IoFields) (deac : Bool) (s : State) : Host.Outcome State Fault Refusal :=
  .next (fetchIo s q (.writeZeroes q f deac) true (!deac) [(f.slba, f.nlb + 1)])

/-- DATASET_MANAGEMENT (R149). -/
def execDatasetManagement (q : Sqe) (ranges : List LetterRange) (ad : Bool) (s : State) : Host.Outcome State Fault Refusal :=
  .next (dsmCmd s q ranges ad)

/-- VERIFY (R83). -/
def execVerify (q : Sqe) (f : IoFields) (s : State) : Host.Outcome State Fault Refusal :=
  .next (fetchIo s q (.verify q f) false false [(f.slba, f.nlb + 1)])

/-- WRITE_DATA_TRANSFER_DONE (R32). -/
def execWriteDataTransferDone (id : Nat) (blocks : List HostBlock) (hostFail bufferUe : Bool) (s : State) : Host.Outcome State Fault Refusal :=
  .next (writeData s id blocks hostFail bufferUe)

/-- COMMAND_RELEASE (R107). -/
def execCommandRelease (id : Nat) (lines : List LineReq) (s : State) : Host.Outcome State Fault Refusal :=
  .next (release s id lines)

/-- JOURNAL_BATCH_START (R262). -/
def execJournalBatchStart (s : State) : Host.Outcome State Fault Refusal :=
  .next (batchStart s)

/-- COMMIT_ACK (R262). -/
def execCommitAck (lines : List LineReq) (s : State) : Host.Outcome State Fault Refusal :=
  .next (commitEnded s lines)

/-- TRACKER_FAULT (R126). -/
def execTrackerFault (s : State) : Host.Outcome State Fault Refusal :=
  .next (trackerFault s)

/-- TRACKER_REINIT (R126). -/
def execTrackerReinit (s : State) : Host.Outcome State Fault Refusal :=
  .next (trackerReinit s)

/-- WAITLIM_EXCEEDED (R128). -/
def execWaitlimExceeded (id : Nat) (s : State) : Host.Outcome State Fault Refusal :=
  .next (waitlim s id)

/-- SRT_HWM_CLR (R101). -/
def execSrtHwmClr (i : Initiator) (v : Word) (s : State) : Host.Outcome State Fault Refusal :=
  .next (writeAccess s i 0x20018 4 (setBits v.toNat 0 0 1) {})

/-- ABORT (R117). -/
def execAbort (q : Sqe) (sqid tcid : Nat) (s : State) : Host.Outcome State Fault Refusal :=
  .next (abortCmd s q sqid tcid)

end Sys2Proof.Machine
end

