-- ==== Sys2Proof/Machine/RecorderCmds.lean ====
section
/-! DEFINITION. The meanings of the commands of the event recorder (15_event_recorder.md). -/

namespace Sys2Proof.Machine

/-- RECORDER_WRITE_RECORD (R376). -/
def execRecorderWriteRecord (i : Initiator) (v : Word) (s : State) : Host.Outcome State Fault Refusal :=
  .next (writeAccess s i 0xD02F0 4 v.toNat {})

/-- RECORDER_ENTRY_WRITTEN (R380). -/
def execRecorderEntryWritten (readBackFails : Nat) (lineExhausted : Bool) (s : State) : Host.Outcome State Fault Refusal :=
  .next (entryWritten s readBackFails lineExhausted)

/-- RECORDER_CURSOR_WRITE (R385). -/
def execRecorderCursorWrite (i : Initiator) (seq : Dword) (slotUe : Bool) (s : State) : Host.Outcome State Fault Refusal :=
  .next (writeAccess s i 0xD0020 8 seq.toNat { slotUe })

/-- RECORDER_CURSOR_NEXT (R385). -/
def execRecorderCursorNext (i : Initiator) (v : Word) (slotUe : Bool) (s : State) : Host.Outcome State Fault Refusal :=
  .next (writeAccess s i 0xD002C 4 (setBits v.toNat 2 0 1) { slotUe })

/-- RECORDER_FLUSHSUP (R378). -/
def execRecorderFlushsup (i : Initiator) (v : Word) (s : State) : Host.Outcome State Fault Refusal :=
  .next (writeAccess s i 0xD002C 4 (setBits v.toNat 2 0 2) {})

/-- RECORDER_REARM (R387). -/
def execRecorderRearm (i : Initiator) (v : Word) (s : State) : Host.Outcome State Fault Refusal :=
  .next (writeAccess s i 0xD002C 4 (setBits v.toNat 2 0 4) {})

/-- RECORDER_SCAN_DONE (R383). -/
def execRecorderScanDone (s : State) : Host.Outcome State Fault Refusal :=
  .next (scanDone s)

/-- FLASHONLY_BUFFER_FLUSH (R387). -/
def execFlashonlyBufferFlush (s : State) : Host.Outcome State Fault Refusal :=
  .next (flashFlush s)

/-- RECORDER_PACE_REFILL (R380). -/
def execRecorderPaceRefill (s : State) : Host.Outcome State Fault Refusal :=
  .next (paceRefill s)

end Sys2Proof.Machine
end

