-- ==== Sys2Proof/Machine/RegCmds.lean ====
section
/-! DEFINITION. The meanings of the commands of register writes, enables, doorbells, timers and watchdogs (02_registers_and_events.md). -/

namespace Sys2Proof.Machine

/-- REGISTER_WRITE (R46). -/
def execRegisterWrite (i : Initiator) (off size : Nat) (v : Dword) (s : State) : Host.Outcome State Fault Refusal :=
  .next (writeAccess s i off size v.toNat {})

/-- BAR2_ACCESS (R58). -/
def execBar2Access (p : Port) (off size : Nat) (w : Option Dword) (s : State) : Host.Outcome State Fault Refusal :=
  .next (match w with | some v => writeAccess s (.bar2 p) off size v.toNat {} | none => readAccess s (.bar2 p) off size)

/-- BLOCK_CTL_WRITE (R51). -/
def execBlockCtlWrite (i : Initiator) (b : Blk) (u : Fin 32) (v : Word) (s : State) : Host.Outcome State Fault Refusal :=
  .next (writeAccess s i (Reg.ctl b u) 4 v.toNat {})

/-- DISABLE_SEQUENCE_DONE (R52). -/
def execDisableSequenceDone (b : Blk) (u : Fin 32) (s : State) : Host.Outcome State Fault Refusal :=
  .next (disableDone s b u)

/-- EVF_DOORBELL_WRITE (R62). -/
def execEvfDoorbellWrite (i : Initiator) (v : Word) (s : State) : Host.Outcome State Fault Refusal :=
  .next (writeAccess s i 0x100400 4 v.toNat {})

/-- HOLDOFF_EXPIRY (R65). -/
def execHoldoffExpiry (p : Port) (second : Bool) (s : State) : Host.Outcome State Fault Refusal :=
  .next (holdoffEnd s p (if second then 129 else 128))

/-- TIMER_FIRE (R66). -/
def execTimerFire (n : Fin 14) (s : State) : Host.Outcome State Fault Refusal :=
  .next (timerFire s n)

/-- WATCHDOG_EXPIRY (R67). -/
def execWatchdogExpiry (k : Fin 10) (s : State) : Host.Outcome State Fault Refusal :=
  .next (watchdog s k)

/-- WATCHDOG_KICK (R67). -/
def execWatchdogKick (i : Initiator) (k : Fin 10) (v : Word) (s : State) : Host.Outcome State Fault Refusal :=
  .next (writeAccess s i (0x101104 + 16 * k.val) 4 (setBits v.toNat 0 0 1) {})

/-- FAULTY_REGISTER_READ (R46). -/
def execFaultyRegisterRead (i : Initiator) (off size : Nat) (s : State) : Host.Outcome State Fault Refusal :=
  .next (readAccess s i off size)

end Sys2Proof.Machine
end

