-- ==== Sys2Proof/Machine/RingCmds.lean ====
section
/-! DEFINITION. The meanings of the commands of the Yosol ring (13_yosol_ring.md). -/

namespace Sys2Proof.Machine

/-- GROUP_EPOCH_TICK (R339): TICK, and the JRC's ring trigger while the JRC is enabled (R264, R404). -/
def groupTick (s : State) : State :=
  if !tickDue s then s else
  let s := tickMark s
  if running s .jrc then epochTrig s 2 else s

/-- RING_LINK_UP (R320). -/
def execRingLinkUp (p : RingPort) (sameName : Bool) (s : State) : Host.Outcome State Fault Refusal :=
  .next (linkUpRing s p sameName)

/-- RING_LINK_DOWN (R320). -/
def execRingLinkDown (p : RingPort) (s : State) : Host.Outcome State Fault Refusal :=
  .next (linkDownRing s p)

/-- LINK (R320). -/
def execLink (h : DispHdr) (serial gid addr farPort : Nat) (s : State) : Host.Outcome State Fault Refusal :=
  .next (linkRecv s h serial gid addr farPort)

/-- BEACON (R327). -/
def execBeacon (h : DispHdr) (gid addr state ports n pmaddr sseq serhash : Nat) (strapped : Bool) (s : State) : Host.Outcome State Fault Refusal :=
  .next (beaconRecv s h { gid, addr, state, ports, n, pmaddr, sseq, serhash, strapped })

/-- SYNC_REQ (R332). -/
def execSyncReq (h : DispHdr) (t1 : Nat) (s : State) : Host.Outcome State Fault Refusal :=
  .next (syncReq s h t1)

/-- SYNC_RSP (R332). -/
def execSyncRsp (h : DispHdr) (t1 t2 t3 t4 : Nat) (s : State) : Host.Outcome State Fault Refusal :=
  .next (syncRsp s h t1 t2 t3 t4)

/-- ENUM (R325). -/
def execEnum (h : DispHdr) (next dir tbmax origin : Nat) (s : State) : Host.Outcome State Fault Refusal :=
  .next (enumRecv s h next dir tbmax origin)

/-- ENUMEND (R325). -/
def execEnumend (h : DispHdr) (count dir tbmax origin : Nat) (s : State) : Host.Outcome State Fault Refusal :=
  .next (enumEnd s h count dir tbmax origin)

/-- GROUPSTATE (R325). -/
def execGroupstate (h : DispHdr) (request : Bool) (gid n pmaddr gstart geper : Nat) (s : State) : Host.Outcome State Fault Refusal :=
  .next (groupstate s h request gid n pmaddr gstart geper)

/-- JOIN (R326). -/
def execJoin (h : DispHdr) (serial : Nat) (s : State) : Host.Outcome State Fault Refusal :=
  .next (joinRecv s h serial)

/-- ADMIT (R326). -/
def execRingAdmit (h : DispHdr) (serial addr gid n : Nat) (s : State) : Host.Outcome State Fault Refusal :=
  .next (admitRecv s h serial addr gid n)

/-- ROLE (R330). -/
def execRole (h : DispHdr) (pmaddr prev : Nat) (s : State) : Host.Outcome State Fault Refusal :=
  .next (roleRecv s h pmaddr prev)

/-- SCHED (R336). -/
def execSched (h : DispHdr) (request : Bool) (part sseq : Nat) (bytes : BitVec 384) (s : State) : Host.Outcome State Fault Refusal :=
  .next (schedRecv s h request part sseq bytes)

/-- ACK (R323). -/
def execAck (h : DispHdr) (typ seq : Nat) (s : State) : Host.Outcome State Fault Refusal :=
  .next (ackRecv s h typ seq)

/-- ACT (R341). -/
def execAct (h : DispHdr) (digest tact step : Nat) (s : State) : Host.Outcome State Fault Refusal :=
  .next (actRecv s h digest tact step)

/-- REL_OFFER (R342). -/
def execRelOffer (h : DispHdr) (size digest : Nat) (s : State) : Host.Outcome State Fault Refusal :=
  .next (relOfferHeld s h size digest)

/-- REL_DATA (R342). -/
def execRelData (h : DispHdr) (index : Nat) (bytes : List Byte) (s : State) : Host.Outcome State Fault Refusal :=
  .next (relDataVerify s h index bytes)

/-- REL_ACK (R342). -/
def execRelAck (h : DispHdr) (next : Nat) (s : State) : Host.Outcome State Fault Refusal :=
  .next (relAck s h next)

/-- REL_HAVE (R342). -/
def execRelHave (h : DispHdr) (digest : Nat) (s : State) : Host.Outcome State Fault Refusal :=
  .next (relHave s h digest)

/-- RING_FIRMWARE_DISPATCH (R323). -/
def execRingFirmwareDispatch (h : DispHdr) (typ : Nat) (payload : List Byte) (s : State) : Host.Outcome State Fault Refusal :=
  .next (fwDispatch s h typ payload)

/-- RING_TX_DISPATCH (R323). -/
def execRingTxDispatch (i : Initiator) (v : Word) (s : State) : Host.Outcome State Fault Refusal :=
  .next (writeAccess s i 0xB00C0 4 v.toNat {})

/-- RING_RX_POP (R323). -/
def execRingRxPop (i : Initiator) (v : Word) (s : State) : Host.Outcome State Fault Refusal :=
  .next (writeAccess s i 0xB0144 4 (setBits v.toNat 0 0 1) {})

/-- RNG_ENUM_COMMAND (R326). -/
def execRngEnumCommand (i : Initiator) (v : Word) (s : State) : Host.Outcome State Fault Refusal :=
  .next (writeAccess s i 0xB0054 4 (setBits v.toNat 0 0 1) {})

/-- BEACON_SEND (R327). -/
def execBeaconSend (s : State) : Host.Outcome State Fault Refusal :=
  .next (beaconSend s)

/-- REACH_EXPIRY (R327). -/
def execReachExpiry (addr : Nat) (s : State) : Host.Outcome State Fault Refusal :=
  .next (reachExpiry s addr)

/-- ISOLATED_ENTRY (R328). -/
def execIsolatedEntry (s : State) : Host.Outcome State Fault Refusal :=
  .next (isolatedEntry s)

/-- REJOIN (R343). -/
def execRejoin (s : State) : Host.Outcome State Fault Refusal :=
  .next (rejoin s)

/-- ISOLATED_ADDRESS_DROP (R329). -/
def execIsolatedAddressDrop (s : State) : Host.Outcome State Fault Refusal :=
  .next (addressDrop s)

/-- ENUM_START (R324). -/
def execEnumStart (s : State) : Host.Outcome State Fault Refusal :=
  .next (enumStart s)

/-- ENUM_TIMEOUT (R325). -/
def execEnumTimeout (s : State) : Host.Outcome State Fault Refusal :=
  .next (enumTimeout s)

/-- JOIN_SEND (R326). -/
def execJoinSend (s : State) : Host.Outcome State Fault Refusal :=
  .next (joinSend s)

/-- POSTMASTER_TAKEOVER (R330). -/
def execPostmasterTakeover (s : State) : Host.Outcome State Fault Refusal :=
  .next (takeover s)

/-- DISPATCH_REPEAT (R323). -/
def execDispatchRepeat (seq : Nat) (s : State) : Host.Outcome State Fault Refusal :=
  .next (dispatchRepeat s seq)

/-- GROUPSTATE_REQUEST (R323). -/
def execGroupstateRequest (s : State) : Host.Outcome State Fault Refusal :=
  .next (gsRequest s)

/-- SYNC_REQ_SEND (R332). -/
def execSyncReqSend (s : State) : Host.Outcome State Fault Refusal :=
  .next (syncSend s)

/-- SLEW_DONE (R334). -/
def execSlewDone (s : State) : Host.Outcome State Fault Refusal :=
  .next (slewDone s)

/-- SCHEDULE_EFFECTIVE (R336). -/
def execScheduleEffective (s : State) : Host.Outcome State Fault Refusal :=
  .next (schedEffective s)

/-- At a window's edge the window state is taken (R338), and reclaim and patrol go on at their new rates (R249, Table 11-4). -/
def windowBoundary (s : State) : State := patGo (updWindow s)

/-- WINDOW_BOUNDARY (R338). -/
def execWindowBoundary (s : State) : Host.Outcome State Fault Refusal :=
  .next (windowBoundary s)

/-- GROUP_EPOCH_TICK (R339). -/
def execGroupEpochTick (s : State) : Host.Outcome State Fault Refusal :=
  .next (groupTick s)

/-- STAGGERED_WAKE_END (R340). -/
def execStaggeredWakeEnd (s : State) : Host.Outcome State Fault Refusal :=
  .next (wakeEnd s)

/-- RELAY_RESEND (R342). -/
def execRelayResend (p : RingPort) (s : State) : Host.Outcome State Fault Refusal :=
  .next (relayResend s p)

/-- ACTIVATION_TIME (R341). -/
def execActivationTime (s : State) : Host.Outcome State Fault Refusal :=
  .next (activationTime s)

/-- RING_SIGNAL_DETECT (R320). -/
def execRingSignalDetect (p : RingPort) (s : State) : Host.Outcome State Fault Refusal :=
  .next (signalDetect s p)

/-- HOLDOVER_EXPIRY (R335). -/
def execHoldoverExpiry (s : State) : Host.Outcome State Fault Refusal :=
  .next (holdoverExpiry s)

/-- DISPATCH_FRAME_ERROR (R321). -/
def execDispatchFrameError (p : RingPort) (s : State) : Host.Outcome State Fault Refusal :=
  .next (frameError s p)

/-- RESERVED_DISPATCH_TYPE (R323). -/
def execReservedDispatchType (h : DispHdr) (typ : Nat) (s : State) : Host.Outcome State Fault Refusal :=
  .next (reservedType s h typ)

end Sys2Proof.Machine
end

