-- ==== Sys2Proof/Machine/StartCmds.lean ====
section
/-! DEFINITION. The meanings of the commands of resets, start-up and the Config NOR (18_start_up.md). -/

namespace Sys2Proof.Machine

/-- RESET_N_ASSERT (R445). -/
def execResetNAssert (counts : Nat) (s : State) : Host.Outcome State Fault Refusal :=
  .next (resetAssert s counts)

/-- RESET_RELEASE (R447). -/
def execResetRelease (s : State) : Host.Outcome State Fault Refusal :=
  .next (resetRelease s)

/-- CFG_RST_WARM (R445). -/
def execCfgRstWarm (i : Initiator) (v : Word) (s : State) : Host.Outcome State Fault Refusal :=
  .next (writeAccess s i 0xE001C 4 (setBits v.toNat 0 0 1) {})

/-- NOR_READ (R457). -/
def execNorRead (i : Initiator) (s : State) : Host.Outcome State Fault Refusal :=
  .next (writeAccess s i 0xE0090 4 1 {})

/-- NOR_WRITE (R457). -/
def execNorWrite (i : Initiator) (s : State) : Host.Outcome State Fault Refusal :=
  .next (writeAccess s i 0xE0090 4 2 {})

/-- NOR_BASEWR (R457). -/
def execNorBasewr (i : Initiator) (s : State) : Host.Outcome State Fault Refusal :=
  .next (writeAccess s i 0xE0090 4 3 {})

/-- NOR_OVLWR (R457). -/
def execNorOvlwr (i : Initiator) (s : State) : Host.Outcome State Fault Refusal :=
  .next (writeAccess s i 0xE0090 4 4 {})

/-- NOR_SLOTWR (R457). -/
def execNorSlotwr (i : Initiator) (slot : Bool) (s : State) : Host.Outcome State Fault Refusal :=
  .next (writeAccess s i 0xE0090 4 (5 + flagBit slot 8) {})

/-- NOR_BOOTREC (R457). -/
def execNorBootrec (i : Initiator) (slot recom commissioned : Bool) (s : State) : Host.Outcome State Fault Refusal :=
  .next (writeAccess s i 0xE0090 4 (6 + flagBit slot 8 + flagBit recom 9 + flagBit commissioned 10) {})

/-- NOR_IDWR (R457). -/
def execNorIdwr (i : Initiator) (s : State) : Host.Outcome State Fault Refusal :=
  .next (writeAccess s i 0xE0090 4 7 {})

/-- NOR_OP_DONE (R457). -/
def execNorOpDone (mismatch timeout : Bool) (s : State) : Host.Outcome State Fault Refusal :=
  .next (norEnd s mismatch timeout)

/-- XIP_FETCH (R456). -/
def execXipFetch (i : Initiator) (off : Nat) (waited : Nat) (s : State) : Host.Outcome State Fault Refusal :=
  .next (xipFetch s i off waited)

/-- NOR_ERASE_RESUME (R456). -/
def execNorEraseResume (s : State) : Host.Outcome State Fault Refusal :=
  .next (norResume s)

/-- NOR_ERASE_SUSPEND (R456). -/
def execNorEraseSuspend (waited : Nat) (s : State) : Host.Outcome State Fault Refusal :=
  .next (norSuspend s waited)

/-- NOR_PAGE_PROGRAM_DONE (R456). -/
def execNorPageProgramDone (s : State) : Host.Outcome State Fault Refusal :=
  .next (norPageDone s)

end Sys2Proof.Machine
end

