-- ==== Sys2Proof/Machine/ThermalCmds.lean ====
section
/-! DEFINITION. The meanings of the commands of temperature and power (16_thermal_power.md, 10_power_loss.md). -/

namespace Sys2Proof.Machine

/-- BAND_CHANGE (R399), and the couriers' verify or training on entry to the band (R189). -/
def bandTrained (s : State) : State :=
  let b := s.thm.band
  let s := bandChange s
  if s.thm.band = b || 3 ≤ s.pwr.ps || s.chip.held then s else bandTrain s

/-- THERMAL_ROUND (R390). -/
def execThermalRound (die ext : List Reading) (rails : List (Option Nat)) (s : State) : Host.Outcome State Fault Refusal :=
  .next (thermalRound s die ext rails)

/-- SENSOR_BROKEN (R391). -/
def execSensorBroken (sensor : Nat) (s : State) : Host.Outcome State Fault Refusal :=
  .next (sensorBroken s sensor)

/-- EXT_LIMIT (R392). -/
def execExtLimit (input : Fin 4) (s : State) : Host.Outcome State Fault Refusal :=
  .next (extLimit s input)

/-- WARNING_CHANGE (R395). -/
def execWarningChange (s : State) : Host.Outcome State Fault Refusal :=
  .next (warningChange s)

/-- THROTTLE_CHANGE (R396). -/
def execThrottleChange (s : State) : Host.Outcome State Fault Refusal :=
  .next (throttleChange s)

/-- THERMAL_SHUTDOWN (R397). -/
def execThermalShutdown (s : State) : Host.Outcome State Fault Refusal :=
  .next (thermalShutdown s)

/-- THERMAL_RESTART (R398). -/
def execThermalRestart (s : State) : Host.Outcome State Fault Refusal :=
  .next (thermalRestart s)

/-- BAND_CHANGE (R399). -/
def execBandChange (s : State) : Host.Outcome State Fault Refusal :=
  .next (bandTrained s)

/-- SUPPLY_OUT_OF_WINDOW (R400). -/
def execSupplyOutOfWindow (v : Fin 12) (s : State) : Host.Outcome State Fault Refusal :=
  .next (supplyOut s v)

/-- IDLE_TIMER_EXPIRY (R407). -/
def execIdleTimerExpiry (s : State) : Host.Outcome State Fault Refusal :=
  .next (idleTimer s)

/-- PS_ENTRY (R403). -/
def execPsEntry (s : State) : Host.Outcome State Fault Refusal :=
  .next (psEntry s)

/-- PS_EXIT (R404). -/
def execPsExit (s : State) : Host.Outcome State Fault Refusal :=
  .next (psExit s)

/-- PS_CHANGE_DEFERRED (R260). -/
def execPsChangeDeferred (s : State) : Host.Outcome State Fault Refusal :=
  .next (psDeferred s)

/-- AVFS_EVALUATION (R408). -/
def execAvfsEvaluation (island : Nat) (slack : List Int) (s : State) : Host.Outcome State Fault Refusal :=
  .next (avfsEval s island slack)

/-- AVSEL_WRITE (R408). -/
def execAvselWrite (i : Initiator) (v : Word) (s : State) : Host.Outcome State Fault Refusal :=
  .next (writeAccess s i 0xA0038 4 v.toNat {})

/-- PWR_FAIL_ASSERT (R269). -/
def execPwrFailAssert (counts : Nat) (s : State) : Host.Outcome State Fault Refusal :=
  .next (pwrFail s counts)

/-- POWER_FAIL_RESTART (R270). -/
def execPowerFailRestart (s : State) : Host.Outcome State Fault Refusal :=
  .next (failRestart s)

/-- SUPPLY_POWER_ON (R444). -/
def execSupplyPowerOn (s : State) : Host.Outcome State Fault Refusal :=
  .next (powerOn s)

/-- SUPPLY_POWER_LOSS (R27). -/
def execSupplyPowerLoss (s : State) : Host.Outcome State Fault Refusal :=
  .next (powerLoss s)

end Sys2Proof.Machine
end

