-- ==== Sys2Proof/Machine/Dispatch.lean ====
section
/-! DEFINITION. The meaning of every command, one arm each. -/

namespace Sys2Proof.Machine

def exec (i : Instr) (s : State) : Host.Outcome State Fault Refusal :=
  match i with
  | .registerWrite ini off size v => Sys2Proof.Machine.execRegisterWrite ini off size v s
  | .bar2Access p off size w => Sys2Proof.Machine.execBar2Access p off size w s
  | .blockCtlWrite ini b u v => Sys2Proof.Machine.execBlockCtlWrite ini b u v s
  | .disableSequenceDone b u => Sys2Proof.Machine.execDisableSequenceDone b u s
  | .evfDoorbellWrite ini v => Sys2Proof.Machine.execEvfDoorbellWrite ini v s
  | .holdoffExpiry p second => Sys2Proof.Machine.execHoldoffExpiry p second s
  | .timerFire n => Sys2Proof.Machine.execTimerFire n s
  | .watchdogExpiry k => Sys2Proof.Machine.execWatchdogExpiry k s
  | .watchdogKick ini k v => Sys2Proof.Machine.execWatchdogKick ini k v s
  | .sqTailDoorbell p qid tail => Sys2Proof.Machine.execSqTailDoorbell p qid tail s
  | .cqHeadDoorbell p qid head => Sys2Proof.Machine.execCqHeadDoorbell p qid head s
  | .trackedCommandAccept => Sys2Proof.Machine.execTrackedCommandAccept s
  | .unsupportedOpcode q opc fused => Sys2Proof.Machine.execUnsupportedOpcode q opc fused s
  | .flush q => Sys2Proof.Machine.execFlush q s
  | .write q f stream => Sys2Proof.Machine.execWrite q f stream s
  | .read q f lr => Sys2Proof.Machine.execRead q f lr s
  | .compare q f hostData => Sys2Proof.Machine.execCompare q f hostData s
  | .writeZeroes q f deac => Sys2Proof.Machine.execWriteZeroes q f deac s
  | .datasetManagement q ranges ad => Sys2Proof.Machine.execDatasetManagement q ranges ad s
  | .verify q f => Sys2Proof.Machine.execVerify q f s
  | .writeDataTransferDone id blocks hostFail bufferUe => Sys2Proof.Machine.execWriteDataTransferDone id blocks hostFail bufferUe s
  | .commandRelease id lines => Sys2Proof.Machine.execCommandRelease id lines s
  | .journalBatchStart => Sys2Proof.Machine.execJournalBatchStart s
  | .commitAck lines => Sys2Proof.Machine.execCommitAck lines s
  | .trackerFault => Sys2Proof.Machine.execTrackerFault s
  | .trackerReinit => Sys2Proof.Machine.execTrackerReinit s
  | .waitlimExceeded id => Sys2Proof.Machine.execWaitlimExceeded id s
  | .srtHwmClr ini v => Sys2Proof.Machine.execSrtHwmClr ini v s
  | .abort q sqid tcid => Sys2Proof.Machine.execAbort q sqid tcid s
  | .createIoSq q qid size cqid prio fsm pc aligned => Sys2Proof.Machine.execCreateIoSq q qid size cqid prio fsm pc aligned s
  | .createIoCq q qid size vector ien pc aligned => Sys2Proof.Machine.execCreateIoCq q qid size vector ien pc aligned s
  | .deleteIoSq q qid => Sys2Proof.Machine.execDeleteIoSq q qid s
  | .deleteIoCq q qid => Sys2Proof.Machine.execDeleteIoCq q qid s
  | .identify q cns cntid => Sys2Proof.Machine.execIdentify q cns cntid s
  | .getLogPage q lid lsp lpo rae => Sys2Proof.Machine.execGetLogPage q lid lsp lpo rae s
  | .deadLetterOfficeLog q lsp lpo rae => Sys2Proof.Machine.execDeadLetterOfficeLog q lsp lpo rae s
  | .recorderExportLog q lsp lpo rae => Sys2Proof.Machine.execRecorderExportLog q lsp lpo rae s
  | .ringStatusLog q lsp lpo rae => Sys2Proof.Machine.execRingStatusLog q lsp lpo rae s
  | .mediaHealthDetailLog q lsp lpo rae => Sys2Proof.Machine.execMediaHealthDetailLog q lsp lpo rae s
  | .capacityAndSheddingLog q lsp lpo rae => Sys2Proof.Machine.execCapacityAndSheddingLog q lsp lpo rae s
  | .setFeatures q fid sv v => Sys2Proof.Machine.execSetFeatures q fid sv v s
  | .getFeatures q fid sel cdw11 => Sys2Proof.Machine.execGetFeatures q fid sel cdw11 s
  | .setPowerManagement q ps sv => Sys2Proof.Machine.execSetPowerManagement q ps sv s
  | .setPlmWindow q window => Sys2Proof.Machine.execSetPlmWindow q window s
  | .setLatencyTolerance q us sv => Sys2Proof.Machine.execSetLatencyTolerance q us sv s
  | .setFailStopDefault q cdw11 sv => Sys2Proof.Machine.execSetFailStopDefault q cdw11 sv s
  | .setPatrolPeriod q cdw11 sv => Sys2Proof.Machine.execSetPatrolPeriod q cdw11 sv s
  | .asyncEventRequest q => Sys2Proof.Machine.execAsyncEventRequest q s
  | .namespaceCreate q nsze ncap lbaf piType pil ext entropyOk => Sys2Proof.Machine.execNamespaceCreate q nsze ncap lbaf piType pil ext entropyOk s
  | .namespaceDelete q => Sys2Proof.Machine.execNamespaceDelete q s
  | .namespaceAttachment q detach ctrls => Sys2Proof.Machine.execNamespaceAttachment q detach ctrls s
  | .directiveSend q dtype doper dspec val => Sys2Proof.Machine.execDirectiveSend q dtype doper dspec val s
  | .directiveReceive q dtype doper val => Sys2Proof.Machine.execDirectiveReceive q dtype doper val s
  | .firmwareImageDownload q numd ofst data => Sys2Proof.Machine.execFirmwareImageDownload q numd ofst data s
  | .firmwareCommitReplace q fs bpid => Sys2Proof.Machine.execFirmwareCommitReplace q fs bpid s
  | .firmwareCommitReplaceNext q fs bpid => Sys2Proof.Machine.execFirmwareCommitReplaceNext q fs bpid s
  | .firmwareCommitActivateSlot q fs bpid => Sys2Proof.Machine.execFirmwareCommitActivateSlot q fs bpid s
  | .firmwareCommitActivateNow q fs bpid => Sys2Proof.Machine.execFirmwareCommitActivateNow q fs bpid s
  | .formatNvm q lbaf ses piType pil mset entropyOk => Sys2Proof.Machine.execFormatNvm q lbaf ses piType pil mset entropyOk s
  | .sanitizeExitFailureMode q ndas => Sys2Proof.Machine.execSanitizeExitFailureMode q ndas s
  | .sanitizeBlockErase q ause ndas entropyOk => Sys2Proof.Machine.execSanitizeBlockErase q ause ndas entropyOk s
  | .sanitizeCryptoErase q ause ndas entropyOk => Sys2Proof.Machine.execSanitizeCryptoErase q ause ndas entropyOk s
  | .sanitizeRoundDone => Sys2Proof.Machine.execSanitizeRoundDone s
  | .sanitizeProgressWrite => Sys2Proof.Machine.execSanitizeProgressWrite s
  | .securitySend q secp req => Sys2Proof.Machine.execSecuritySend q secp req s
  | .securityReceive q secp => Sys2Proof.Machine.execSecurityReceive q secp s
  | .shedCapacityRanges q ranges => Sys2Proof.Machine.execShedCapacityRanges q ranges s
  | .shedCapacityUnallocated q letters => Sys2Proof.Machine.execShedCapacityUnallocated q letters s
  | .resumeQueue q sqid => Sys2Proof.Machine.execResumeQueue q sqid s
  | .collectionScheduleSet q d => Sys2Proof.Machine.execCollectionScheduleSet q d s
  | .collectionScheduleGet q => Sys2Proof.Machine.execCollectionScheduleGet q s
  | .collectionScheduleTimeout => Sys2Proof.Machine.execCollectionScheduleTimeout s
  | .scrubRange q mem unit rate base len => Sys2Proof.Machine.execScrubRange q mem unit rate base len s
  | .recorderRead q start length found => Sys2Proof.Machine.execRecorderRead q start length found s
  | .depotUnlockRead q session => Sys2Proof.Machine.execDepotUnlockRead q session s
  | .depotUnlockReadWrite q session => Sys2Proof.Machine.execDepotUnlockReadWrite q session s
  | .depotUnlockClose q session => Sys2Proof.Machine.execDepotUnlockClose q session s
  | .ccEnSet p cc aqa => Sys2Proof.Machine.execCcEnSet p cc aqa s
  | .ccEnClear p => Sys2Proof.Machine.execCcEnClear p s
  | .shutdownNormal p => Sys2Proof.Machine.execShutdownNormal p s
  | .shutdownAbrupt p => Sys2Proof.Machine.execShutdownAbrupt p s
  | .functionLevelReset p => Sys2Proof.Machine.execFunctionLevelReset p s
  | .hotResetOrPerst p perst => Sys2Proof.Machine.execHotResetOrPerst p perst s
  | .linkDown p => Sys2Proof.Machine.execLinkDown p s
  | .linkUp p rate width flit => Sys2Proof.Machine.execLinkUp p rate width flit s
  | .drainComplete p => Sys2Proof.Machine.execDrainComplete p s
  | .ltrSend p us => Sys2Proof.Machine.execLtrSend p us s
  | .phcFillDone line data rep waiting err seg => Sys2Proof.Machine.execPhcFillDone line data rep waiting err seg s
  | .phcWritebackAck line => Sys2Proof.Machine.execPhcWritebackAck line s
  | .phcErrWindowEnd => Sys2Proof.Machine.execPhcErrWindowEnd s
  | .phcWayDisableDone way set => Sys2Proof.Machine.execPhcWayDisableDone way set s
  | .phcInvalidationDone => Sys2Proof.Machine.execPhcInvalidationDone s
  | .phcDrainDone => Sys2Proof.Machine.execPhcDrainDone s
  | .phcRangeClean ini v => Sys2Proof.Machine.execPhcRangeClean ini v s
  | .phcRangeInvalidate ini v => Sys2Proof.Machine.execPhcRangeInvalidate ini v s
  | .phcRangeCleanInvalidate ini v => Sys2Proof.Machine.execPhcRangeCleanInvalidate ini v s
  | .phcRangeDone => Sys2Proof.Machine.execPhcRangeDone s
  | .phcSwopClean ini way set => Sys2Proof.Machine.execPhcSwopClean ini way set s
  | .phcSwopInvalidate ini way set => Sys2Proof.Machine.execPhcSwopInvalidate ini way set s
  | .phcSwopCleanInvalidate ini way set => Sys2Proof.Machine.execPhcSwopCleanInvalidate ini way set s
  | .packingFillwaitExpiry stream => Sys2Proof.Machine.execPackingFillwaitExpiry stream s
  | .bundleWaitEnd => Sys2Proof.Machine.execBundleWaitEnd s
  | .deallocBundleTimeout id => Sys2Proof.Machine.execDeallocBundleTimeout id s
  | .heatHalving => Sys2Proof.Machine.execHeatHalving s
  | .lifeClockTick => Sys2Proof.Machine.execLifeClockTick s
  | .victimScan ini v => Sys2Proof.Machine.execVictimScan ini v s
  | .victimScanDone => Sys2Proof.Machine.execVictimScanDone s
  | .jobSubmit ini head jobs => Sys2Proof.Machine.execJobSubmit ini head jobs s
  | .jobDone job => Sys2Proof.Machine.execJobDone job s
  | .jobAbort ini v => Sys2Proof.Machine.execJobAbort ini v s
  | .eraseComplete lun block o => Sys2Proof.Machine.execEraseComplete lun block o s
  | .refreshRelocation => Sys2Proof.Machine.execRefreshRelocation s
  | .lunRetire ini c pos => Sys2Proof.Machine.execLunRetire ini c pos s
  | .channelRetire ini c => Sys2Proof.Machine.execChannelRetire ini c s
  | .channelSweepDone c => Sys2Proof.Machine.execChannelSweepDone c s
  | .readComplete op cws => Sys2Proof.Machine.execReadComplete op cws s
  | .softDecodeDone lad decoded corrected => Sys2Proof.Machine.execSoftDecodeDone lad decoded corrected s
  | .rebuildDone lad => Sys2Proof.Machine.execRebuildDone lad s
  | .dlqEntryWrite lad => Sys2Proof.Machine.execDlqEntryWrite lad s
  | .strDlqTailWrite ini v => Sys2Proof.Machine.execStrDlqTailWrite ini v s
  | .programComplete op o => Sys2Proof.Machine.execProgramComplete op o s
  | .eraseSuspend op => Sys2Proof.Machine.execEraseSuspend op s
  | .programSuspend op => Sys2Proof.Machine.execProgramSuspend op s
  | .suspendResume op dwell => Sys2Proof.Machine.execSuspendResume op dwell s
  | .rdIAgeExpiry op => Sys2Proof.Machine.execRdIAgeExpiry op s
  | .lunTimeout op recent => Sys2Proof.Machine.execLunTimeout op recent s
  | .trainingStart ini c v => Sys2Proof.Machine.execTrainingStart ini c v s
  | .trainingDone c eyes attemptsFailed => Sys2Proof.Machine.execTrainingDone c eyes attemptsFailed s
  | .courierReset ini v => Sys2Proof.Machine.execCourierReset ini v s
  | .courierResetDone c answers train => Sys2Proof.Machine.execCourierResetDone c answers train s
  | .tokenAllocation => Sys2Proof.Machine.execTokenAllocation s
  | .snapshotFire ini c v => Sys2Proof.Machine.execSnapshotFire ini c v s
  | .snapshotPop ini c v => Sys2Proof.Machine.execSnapshotPop ini c v s
  | .epochPeriodExpiry => Sys2Proof.Machine.execEpochPeriodExpiry s
  | .minspExpiry => Sys2Proof.Machine.execMinspExpiry s
  | .jrcCutover ini v => Sys2Proof.Machine.execJrcCutover ini v s
  | .cutoverDone => Sys2Proof.Machine.execCutoverDone s
  | .jrcCommit ini v => Sys2Proof.Machine.execJrcCommit ini v s
  | .rootCommitDone => Sys2Proof.Machine.execRootCommitDone s
  | .pwrFailAssert counts => Sys2Proof.Machine.execPwrFailAssert counts s
  | .powerFailRestart => Sys2Proof.Machine.execPowerFailRestart s
  | .patrolReadDone sbx member row status worst corrected lost => Sys2Proof.Machine.execPatrolReadDone sbx member row status worst corrected lost s
  | .patrolRescan => Sys2Proof.Machine.execPatrolRescan s
  | .patrolTageTick => Sys2Proof.Machine.execPatrolTageTick s
  | .ownerSearch ini v list => Sys2Proof.Machine.execOwnerSearch ini v list s
  | .ownerSearchDone => Sys2Proof.Machine.execOwnerSearchDone s
  | .zeroFillStart ini v => Sys2Proof.Machine.execZeroFillStart ini v s
  | .zeroFillDone => Sys2Proof.Machine.execZeroFillDone s
  | .mergeAgeFlush line rep old => Sys2Proof.Machine.execMergeAgeFlush line rep old s
  | .segmentRebuildDone seg readable => Sys2Proof.Machine.execSegmentRebuildDone seg readable s
  | .scrubStart ini v => Sys2Proof.Machine.execScrubStart ini v s
  | .scrubStop ini v => Sys2Proof.Machine.execScrubStop ini v s
  | .scrubDone found => Sys2Proof.Machine.execScrubDone found s
  | .jramLineSwitch die line => Sys2Proof.Machine.execJramLineSwitch die line s
  | .ringLinkUp p sameName => Sys2Proof.Machine.execRingLinkUp p sameName s
  | .ringLinkDown p => Sys2Proof.Machine.execRingLinkDown p s
  | .link h serial gid addr farPort => Sys2Proof.Machine.execLink h serial gid addr farPort s
  | .beacon h gid addr state ports n pmaddr sseq serhash strapped => Sys2Proof.Machine.execBeacon h gid addr state ports n pmaddr sseq serhash strapped s
  | .syncReq h t1 => Sys2Proof.Machine.execSyncReq h t1 s
  | .syncRsp h t1 t2 t3 t4 => Sys2Proof.Machine.execSyncRsp h t1 t2 t3 t4 s
  | .enum h next dir tbmax origin => Sys2Proof.Machine.execEnum h next dir tbmax origin s
  | .enumend h count dir tbmax origin => Sys2Proof.Machine.execEnumend h count dir tbmax origin s
  | .groupstate h request gid n pmaddr gstart geper => Sys2Proof.Machine.execGroupstate h request gid n pmaddr gstart geper s
  | .join h serial => Sys2Proof.Machine.execJoin h serial s
  | .ringAdmit h serial addr gid n => Sys2Proof.Machine.execRingAdmit h serial addr gid n s
  | .role h pmaddr prev => Sys2Proof.Machine.execRole h pmaddr prev s
  | .sched h request part sseq bytes => Sys2Proof.Machine.execSched h request part sseq bytes s
  | .ack h typ seq => Sys2Proof.Machine.execAck h typ seq s
  | .act h digest tact step => Sys2Proof.Machine.execAct h digest tact step s
  | .relOffer h size digest => Sys2Proof.Machine.execRelOffer h size digest s
  | .relData h index bytes => Sys2Proof.Machine.execRelData h index bytes s
  | .relAck h next => Sys2Proof.Machine.execRelAck h next s
  | .relHave h digest => Sys2Proof.Machine.execRelHave h digest s
  | .ringFirmwareDispatch h typ payload => Sys2Proof.Machine.execRingFirmwareDispatch h typ payload s
  | .ringTxDispatch ini v => Sys2Proof.Machine.execRingTxDispatch ini v s
  | .ringRxPop ini v => Sys2Proof.Machine.execRingRxPop ini v s
  | .rngEnumCommand ini v => Sys2Proof.Machine.execRngEnumCommand ini v s
  | .beaconSend => Sys2Proof.Machine.execBeaconSend s
  | .reachExpiry addr => Sys2Proof.Machine.execReachExpiry addr s
  | .isolatedEntry => Sys2Proof.Machine.execIsolatedEntry s
  | .rejoin => Sys2Proof.Machine.execRejoin s
  | .isolatedAddressDrop => Sys2Proof.Machine.execIsolatedAddressDrop s
  | .enumStart => Sys2Proof.Machine.execEnumStart s
  | .enumTimeout => Sys2Proof.Machine.execEnumTimeout s
  | .joinSend => Sys2Proof.Machine.execJoinSend s
  | .postmasterTakeover => Sys2Proof.Machine.execPostmasterTakeover s
  | .dispatchRepeat seq => Sys2Proof.Machine.execDispatchRepeat seq s
  | .groupstateRequest => Sys2Proof.Machine.execGroupstateRequest s
  | .syncReqSend => Sys2Proof.Machine.execSyncReqSend s
  | .slewDone => Sys2Proof.Machine.execSlewDone s
  | .scheduleEffective => Sys2Proof.Machine.execScheduleEffective s
  | .windowBoundary => Sys2Proof.Machine.execWindowBoundary s
  | .groupEpochTick => Sys2Proof.Machine.execGroupEpochTick s
  | .staggeredWakeEnd => Sys2Proof.Machine.execStaggeredWakeEnd s
  | .relayResend p => Sys2Proof.Machine.execRelayResend p s
  | .activationTime => Sys2Proof.Machine.execActivationTime s
  | .imageVerify ini v => Sys2Proof.Machine.execImageVerify ini v s
  | .imageVerifyDone => Sys2Proof.Machine.execImageVerifyDone s
  | .handoverSwitch ini v => Sys2Proof.Machine.execHandoverSwitch ini v s
  | .handoverDone ini v => Sys2Proof.Machine.execHandoverDone ini v s
  | .activationRevert => Sys2Proof.Machine.execActivationRevert s
  | .fuseProgramKeyhash ini slot => Sys2Proof.Machine.execFuseProgramKeyhash ini slot s
  | .fuseRevokeSlot ini slot => Sys2Proof.Machine.execFuseRevokeSlot ini slot s
  | .fuseRaiseMinsvn ini value => Sys2Proof.Machine.execFuseRaiseMinsvn ini value s
  | .keyGenerate ini salt nsid entropyOk => Sys2Proof.Machine.execKeyGenerate ini salt nsid entropyOk s
  | .keyLoadWrapped ini salt nsid => Sys2Proof.Machine.execKeyLoadWrapped ini salt nsid s
  | .keyDestroy ini nsid => Sys2Proof.Machine.execKeyDestroy ini nsid s
  | .getVersion t => Sys2Proof.Machine.execGetVersion t s
  | .getCapabilities t => Sys2Proof.Machine.execGetCapabilities t s
  | .negotiateAlgorithms t supported => Sys2Proof.Machine.execNegotiateAlgorithms t supported s
  | .getDigests t => Sys2Proof.Machine.execGetDigests t s
  | .getCertificate t slot offset length => Sys2Proof.Machine.execGetCertificate t slot offset length s
  | .challenge t slot => Sys2Proof.Machine.execChallenge t slot s
  | .getMeasurements t index signed => Sys2Proof.Machine.execGetMeasurements t index signed s
  | .keyExchange t mutualAuth => Sys2Proof.Machine.execKeyExchange t mutualAuth s
  | .finish t session verified chainKeyHash => Sys2Proof.Machine.execFinish t session verified chainKeyHash s
  | .heartbeat t session => Sys2Proof.Machine.execHeartbeat t session s
  | .keyUpdate t session => Sys2Proof.Machine.execKeyUpdate t session s
  | .endSession t session => Sys2Proof.Machine.execEndSession t session s
  | .recorderWriteRecord ini v => Sys2Proof.Machine.execRecorderWriteRecord ini v s
  | .recorderEntryWritten readBackFails lineExhausted => Sys2Proof.Machine.execRecorderEntryWritten readBackFails lineExhausted s
  | .recorderCursorWrite ini seq slotUe => Sys2Proof.Machine.execRecorderCursorWrite ini seq slotUe s
  | .recorderCursorNext ini v slotUe => Sys2Proof.Machine.execRecorderCursorNext ini v slotUe s
  | .recorderFlushsup ini v => Sys2Proof.Machine.execRecorderFlushsup ini v s
  | .recorderRearm ini v => Sys2Proof.Machine.execRecorderRearm ini v s
  | .recorderScanDone => Sys2Proof.Machine.execRecorderScanDone s
  | .flashonlyBufferFlush => Sys2Proof.Machine.execFlashonlyBufferFlush s
  | .thermalRound die ext rails => Sys2Proof.Machine.execThermalRound die ext rails s
  | .sensorBroken sensor => Sys2Proof.Machine.execSensorBroken sensor s
  | .extLimit input => Sys2Proof.Machine.execExtLimit input s
  | .warningChange => Sys2Proof.Machine.execWarningChange s
  | .throttleChange => Sys2Proof.Machine.execThrottleChange s
  | .thermalShutdown => Sys2Proof.Machine.execThermalShutdown s
  | .thermalRestart => Sys2Proof.Machine.execThermalRestart s
  | .bandChange => Sys2Proof.Machine.execBandChange s
  | .supplyOutOfWindow v => Sys2Proof.Machine.execSupplyOutOfWindow v s
  | .idleTimerExpiry => Sys2Proof.Machine.execIdleTimerExpiry s
  | .psEntry => Sys2Proof.Machine.execPsEntry s
  | .psExit => Sys2Proof.Machine.execPsExit s
  | .psChangeDeferred => Sys2Proof.Machine.execPsChangeDeferred s
  | .avfsEvaluation island slack => Sys2Proof.Machine.execAvfsEvaluation island slack s
  | .avselWrite ini v => Sys2Proof.Machine.execAvselWrite ini v s
  | .supplyPowerOn => Sys2Proof.Machine.execSupplyPowerOn s
  | .resetNAssert counts => Sys2Proof.Machine.execResetNAssert counts s
  | .resetRelease => Sys2Proof.Machine.execResetRelease s
  | .cfgRstWarm ini v => Sys2Proof.Machine.execCfgRstWarm ini v s
  | .norRead ini => Sys2Proof.Machine.execNorRead ini s
  | .norWrite ini => Sys2Proof.Machine.execNorWrite ini s
  | .norBasewr ini => Sys2Proof.Machine.execNorBasewr ini s
  | .norOvlwr ini => Sys2Proof.Machine.execNorOvlwr ini s
  | .norSlotwr ini slot => Sys2Proof.Machine.execNorSlotwr ini slot s
  | .norBootrec ini slot recom commissioned => Sys2Proof.Machine.execNorBootrec ini slot recom commissioned s
  | .norIdwr ini => Sys2Proof.Machine.execNorIdwr ini s
  | .norOpDone mismatch timeout => Sys2Proof.Machine.execNorOpDone mismatch timeout s
  | .xipFetch ini off waited => Sys2Proof.Machine.execXipFetch ini off waited s
  | .norEraseResume => Sys2Proof.Machine.execNorEraseResume s
  | .faultyRegisterRead ini off size => Sys2Proof.Machine.execFaultyRegisterRead ini off size s
  | .perstNDeassert p => Sys2Proof.Machine.execPerstNDeassert p s
  | .supplyPowerLoss => Sys2Proof.Machine.execSupplyPowerLoss s
  | .ringSignalDetect p => Sys2Proof.Machine.execRingSignalDetect p s
  | .configurationRequest p w => Sys2Proof.Machine.execConfigurationRequest p w s
  | .msixTableWrite p vector mask addr data => Sys2Proof.Machine.execMsixTableWrite p vector mask addr data s
  | .interruptCoalescingExpiry p vector => Sys2Proof.Machine.execInterruptCoalescingExpiry p vector s
  | .pcieUncorrectableError p id => Sys2Proof.Machine.execPcieUncorrectableError p id s
  | .spdmHeartbeatTimeout session => Sys2Proof.Machine.execSpdmHeartbeatTimeout session s
  | .mapRecountDone => Sys2Proof.Machine.execMapRecountDone s
  | .patrolFloorPace => Sys2Proof.Machine.execPatrolFloorPace s
  | .recorderPaceRefill => Sys2Proof.Machine.execRecorderPaceRefill s
  | .holdoverExpiry => Sys2Proof.Machine.execHoldoverExpiry s
  | .dispatchFrameError p => Sys2Proof.Machine.execDispatchFrameError p s
  | .reservedDispatchType h typ => Sys2Proof.Machine.execReservedDispatchType h typ s
  | .norEraseSuspend waited => Sys2Proof.Machine.execNorEraseSuspend waited s
  | .norPageProgramDone => Sys2Proof.Machine.execNorPageProgramDone s

end Sys2Proof.Machine
end

