-- ==== Sys2Proof/Machine/Time.lean ====
section
/-! DEFINITION. What one count of the timebase does when no command waits (log entry 4): the timebase, the watchdogs' counts
(R67), the recorder's pace (R381), the journal's token bucket (R259) and the channels' buses (R187). Everything else that time
brings is a command. -/

namespace Sys2Proof.Machine

/-- The token bucket gains 36,000,000 tokens a second: 18/125 of one in each count (R259). -/
def tickTokens (j : Jrc) : Jrc :=
  let r := j.tokRes + 18
  if r < 125 then { j with tokRes := r } else { j with tokRes := r - 125, tokens := min (j.tokens + 1) Config.tokenDepth }


/-- One count of the timebase, while the unit has power. -/
def tick (s : State) : State :=
  if !s.chip.powered then s else
  let s := { s with clk := { s.clk with tb := (s.clk.tb + 1) % 2 ^ 64, wd := wdCount s 1 } }
  let s := updEvr s fun e => { e with pace := min (e.pace + 1) 250000000 }
  busTick (updJrc s tickTokens)

end Sys2Proof.Machine
end

