-- ==== Sys2Proof/Safety.lean ====
section
/-! DEFINITION. The terms in which claims about runs are stated: a command that completes, the canonical form of the state's
tables, the fuses' one-way order, and the parts of the state that each command leaves alone. -/

namespace Sys2Proof.Machine

/-- The command completes in a state for which P holds. -/
def Completes (c : Instr) (s : State) (P : State → Prop) : Prop := ∃ t, exec c s = .next t ∧ P t

/-- The parts of the state. -/
inductive Part
  | pending | out | clk | regs | portA | portB | evr | thm | pwr | chip | ring | sec | cry | boot | dram | phc | map | flash | jrc | srt | prog | pat | mem
deriving DecidableEq, Repr

/-- Source n is pending in the event fabric (R62). -/
def raised (s : State) (n : Nat) : Bool := bitOf (rd s (Reg.srcPend (n / 32))) (n % 32)

/-- The completion queue of a command's submission queue takes a completion at once: it exists, has a free slot and holds
none back (R118). -/
def cqReady (s : State) (q : Sqe) : Bool :=
  match nget (getPort s q.port).cqs (((nget (getPort s q.port).sqs q.qid).map fun x => x.cqid).getD 0) with
  | some c => !c.full && c.held.isEmpty
  | none => false

/-- Between two states the block sent the command's completion with a status and, but for the flags of R123, a Dword 0. -/
def Answered (s t : State) (q : Sqe) (st : Status) : Prop :=
  ∃ l, t.out = s.out ++ l ∧ ∃ cqid phase c, Out.completion cqid phase c ∈ l ∧ c.port = q.port ∧ c.qid = q.qid ∧ c.cid = q.cid ∧ c.st = st

/-- Between two states the block sent an admin command's completion with a status and this Dword 0. -/
def AnsweredWith (s t : State) (q : Sqe) (st : Status) (dw0 : Nat) : Prop :=
  ∃ l, t.out = s.out ++ l ∧
    ∃ cqid phase c, Out.completion cqid phase c ∈ l ∧ c.port = q.port ∧ c.qid = q.qid ∧ c.cid = q.cid ∧ c.st = st ∧ c.dw0 = dw0

/-- Between two states the block sent a command's data. -/
def Replied (s t : State) (q : Sqe) (bytes : List Byte) : Prop :=
  ∃ l, t.out = s.out ++ l ∧ Out.reply q.port q.cid bytes ∈ l

/-- Between two states the block sent a command a page of a size, whose fields (offset, length, value) hold these values. -/
def RepliedPage (s t : State) (q : Sqe) (size : Nat) (fields : List (Nat × Nat × Nat)) : Prop :=
  ∃ b, Replied s t q b ∧ b.length = size ∧ ∀ f ∈ fields, fieldAt b f.1 f.2.1 = f.2.2 % 256 ^ f.2.1

/-- Nothing on the map's side is under way: no tracked command, open superblock, page group, relocation, listed case that waits
for a bundle, record group, or victim, and no channel whose sweep ends. -/
structure Calm (s : State) : Prop where
  cmds    : s.srt.cmds = []
  opens   : s.map.opens = []
  pgs     : s.map.pgs = []
  relocs  : s.map.relocs = []
  waiters : s.map.waiters = []
  reqs    : s.jrc.reqs = []
  victims : ∀ e ∈ s.map.tab.sbs, e.2.st ≠ 3
  sweeps  : ∀ r ∈ s.map.retiring, r.2.2 ≠ 5
  pins    : s.map.pinHold = []
  cut     : s.jrc.cutSt = 0
  rounds  : s.prog.pinned = false

/-- The part that holds a port. -/
def portPart (p : Port) : Part := match p with | .a => .portA | .b => .portB

/-- An access of a core reaches the register block: the initiator is a core that runs, and so does the block's island (R26, R46). -/
def coreAccess (s : State) (i : Initiator) (b : Blk) (u : Nat) : Bool := isCore i && canAccess s i && islandRuns s b u

/-- A byte memory in canonical form: addresses strictly rising, and no entry equal to what an unlisted address reads as. -/
def memWf (dflt : Byte) (m : NMap Byte) : Bool := nsorted none m && m.all fun e => e.2 != dflt

/-- The canonical form of the register file, the DRAM and the Config NOR: equal contents are equal data. -/
structure Canon (s : State) : Prop where
  regs : nsorted none s.regs = true
  dram : memWf 0 s.dram = true
  nor  : memWf 0xFF s.boot.nor = true

/-- One key slot's fuses before and after: a blown fuse stays blown, and a programmed hash stays as it is. -/
structure SlotKept (a b : KeySlot) : Prop where
  programmed : a.programmed = true → b.programmed = true ∧ b.keyhash = a.keyhash
  revoked    : a.revoked = true → b.revoked = true

/-- The fuses before and after (R350): none is cleared. -/
structure FusesKept (s t : State) : Prop where
  minsvn : s.sec.minsvn ≤ t.sec.minsvn
  slots  : ∀ k, SlotKept (s.sec.slots.getD k {}) (t.sec.slots.getD k {})

/-- Two states agree on a part. -/
def Same (p : Part) (s t : State) : Prop :=
  match p with
  | .pending => t.pending = s.pending
  | .out => t.out = s.out
  | .clk => t.clk = s.clk
  | .regs => t.regs = s.regs
  | .portA => t.portA = s.portA
  | .portB => t.portB = s.portB
  | .evr => t.evr = s.evr
  | .thm => t.thm = s.thm
  | .pwr => t.pwr = s.pwr
  | .chip => t.chip = s.chip
  | .ring => t.ring = s.ring
  | .sec => t.sec = s.sec
  | .cry => t.cry = s.cry
  | .boot => t.boot = s.boot
  | .dram => t.dram = s.dram
  | .phc => t.phc = s.phc
  | .map => t.map = s.map
  | .flash => t.flash = s.flash
  | .jrc => t.jrc = s.jrc
  | .srt => t.srt = s.srt
  | .prog => t.prog = s.prog
  | .pat => t.pat = s.pat
  | .mem => t.mem = s.mem

/-- From s to t nothing changes outside the parts listed. -/
structure OnlyChanges (ps : List Part) (s t : State) : Prop where
  same : ∀ p, p ∉ ps → Same p s t

/-- The parts that reports and completions reach: what is sent, the registers, the ports' queues and messages, the recorder. -/
def signals : List Part := [.out, .regs, .portA, .portB, .evr]
/-- Every part but the queue. -/
def allParts : List Part :=
  [.out, .clk, .regs, .portA, .portB, .evr, .thm, .pwr, .chip, .ring, .sec, .cry, .boot, .dram, .phc, .map, .flash, .jrc, .srt,
    .prog, .pat, .mem]

/-- What each command may change: every part of the state outside its list stays as it is. -/
def mayChange (c : Instr) : List Part :=
  match c with
  | .createIoSq .. | .createIoCq .. | .deleteIoCq .. | .identify .. | .getFeatures .. | .setPlmWindow .. |
    .setLatencyTolerance .. | .setFailStopDefault .. | .asyncEventRequest .. | .namespaceDelete .. | .directiveSend .. |
    .directiveReceive .. | .formatNvm .. | .sanitizeBlockErase .. | .sanitizeCryptoErase .. | .securityReceive .. |
    .shedCapacityRanges .. | .shedCapacityUnallocated .. | .resumeQueue .. | .collectionScheduleGet .. | .recorderRead .. |
    .unsupportedOpcode .. | .flush .. | .write .. | .read .. | .compare .. | .writeZeroes .. | .datasetManagement .. |
    .verify .. => signals ++ [.srt]
  | .deleteIoSq .. | .trackedCommandAccept | .trackerFault | .abort .. => signals ++ [.map, .flash, .jrc, .srt]
  | .getLogPage .. | .deadLetterOfficeLog .. | .recorderExportLog .. | .ringStatusLog .. | .mediaHealthDetailLog .. |
    .capacityAndSheddingLog .. | .setPatrolPeriod .. => signals ++ [.srt, .pat]
  | .setFeatures .. => signals ++ [.pwr, .flash, .srt, .pat]
  | .setPowerManagement .. => signals ++ [.pwr, .flash, .srt]
  | .namespaceCreate .. => signals ++ [.clk, .cry, .jrc, .srt]
  | .namespaceAttachment .. => signals ++ [.map, .srt]
  | .firmwareImageDownload .. | .securitySend .. | .depotUnlockRead .. | .depotUnlockReadWrite .. |
    .depotUnlockClose .. => signals ++ [.sec, .srt]
  | .firmwareCommitReplace .. | .firmwareCommitReplaceNext .. |
    .firmwareCommitActivateNow .. => signals ++ [.sec, .boot, .srt]
  | .firmwareCommitActivateSlot .. => signals ++ [.boot, .srt]
  | .sanitizeExitFailureMode .. => signals ++ [.srt, .prog]
  | .sanitizeRoundDone | .eraseComplete .. => signals ++ [.map, .flash, .jrc, .srt, .prog]
  | .sanitizeProgressWrite => signals ++ [.flash, .jrc, .prog]
  | .collectionScheduleSet .. =>
    allParts.filter fun p =>
    p != .thm && p != .pwr && p != .chip && p != .sec && p != .cry && p != .boot && p != .prog
  | .collectionScheduleTimeout | .link .. | .syncReq .. | .ack .. | .act .. | .relOffer .. | .relAck .. | .relHave .. |
    .ringFirmwareDispatch .. | .ringTxDispatch .. | .ringRxPop .. | .ringSignalDetect .. |
    .holdoverExpiry => signals ++ [.ring]
  | .scrubRange .. => signals ++ [.srt, .mem]
  | .phcFillDone .. | .mergeAgeFlush .. => signals ++ [.clk, .dram, .phc, .jrc, .pat, .mem]
  | .phcWritebackAck .. => [.dram, .phc, .mem]
  | .phcErrWindowEnd => [.regs, .phc]
  | .phcWayDisableDone .. => signals ++ [.clk, .phc, .jrc, .mem]
  | .phcInvalidationDone => [.clk, .regs, .dram, .phc, .mem]
  | .phcDrainDone => signals ++ [.pwr, .dram, .phc, .mem]
  | .phcRangeClean .. | .phcRangeInvalidate .. | .phcRangeCleanInvalidate .. => signals ++ [.phc]
  | .phcRangeDone => signals ++ [.dram, .phc, .mem]
  | .phcSwopClean .. | .phcSwopInvalidate .. | .phcSwopCleanInvalidate .. => signals ++ [.clk, .dram, .phc, .mem]
  | .imageVerify .. | .fuseProgramKeyhash .. | .fuseRevokeSlot .. | .fuseRaiseMinsvn .. | .getVersion .. |
    .getCapabilities .. | .negotiateAlgorithms .. | .getDigests .. | .getCertificate .. | .challenge .. |
    .getMeasurements .. | .keyExchange .. | .finish .. | .heartbeat .. | .keyUpdate .. | .endSession .. |
    .spdmHeartbeatTimeout .. | .ccEnSet .. => signals ++ [.sec]
  | .imageVerifyDone => signals ++ [.clk, .sec, .dram, .phc, .jrc, .pat, .mem]
  | .handoverSwitch .. => signals ++ [.sec, .jrc]
  | .handoverDone .. => signals ++ [.chip, .sec, .boot, .jrc]
  | .activationRevert => signals ++ [.chip, .sec]
  | .keyGenerate .. | .keyLoadWrapped .. | .keyDestroy .. => signals ++ [.clk, .cry, .map, .jrc]
  | .readComplete .. | .softDecodeDone .. | .rebuildDone .. | .dlqEntryWrite .. | .bundleWaitEnd | .deallocBundleTimeout .. |
    .jobSubmit .. | .refreshRelocation | .lunRetire .. | .channelRetire .. |
    .writeDataTransferDone .. =>
    allParts.filter fun p =>
    p != .thm && p != .pwr && p != .chip && p != .ring && p != .sec && p != .cry && p != .boot && p != .prog
  | .strDlqTailWrite .. | .jrcCutover .. | .packingFillwaitExpiry .. => signals ++ [.map, .flash, .jrc]
  | .programComplete .. | .lunTimeout .. |
    .trainingDone .. =>
    allParts.filter fun p =>
    p != .thm && p != .pwr && p != .chip && p != .ring && p != .sec && p != .cry && p != .boot
  | .eraseSuspend .. | .programSuspend .. | .suspendResume .. | .rdIAgeExpiry .. | .trainingStart .. | .tokenAllocation |
    .snapshotFire .. | .snapshotPop .. => signals ++ [.flash]
  | .courierReset .. => signals ++ [.clk, .chip, .map, .flash, .jrc]
  | .courierResetDone .. =>
    allParts.filter fun p =>
    p != .thm && p != .pwr && p != .ring && p != .sec && p != .cry && p != .boot
  | .epochPeriodExpiry | .jrcCommit .. | .journalBatchStart | .recorderEntryWritten .. |
    .recorderScanDone => signals ++ [.jrc]
  | .minspExpiry => signals ++ [.map, .flash, .jrc, .pat]
  | .cutoverDone => signals ++ [.dram, .phc, .map, .flash, .jrc, .pat, .mem]
  | .rootCommitDone =>
    allParts.filter fun p =>
    p != .thm && p != .pwr && p != .chip && p != .ring && p != .cry && p != .boot && p != .srt
  | .heatHalving | .lifeClockTick => [.map]
  | .victimScan .. | .faultyRegisterRead .. => signals ++ [.map]
  | .victimScanDone => [.regs, .map]
  | .jobDone .. | .patrolReadDone .. | .patrolRescan | .patrolTageTick | .patrolFloorPace |
    .ownerSearchDone => signals ++ [.clk, .dram, .phc, .map, .flash, .jrc, .pat, .mem]
  | .jobAbort .. => signals ++ [.map, .flash]
  | .channelSweepDone .. => signals ++ [.chip, .map, .jrc]
  | .mapRecountDone =>
    allParts.filter fun p =>
    p != .thm && p != .pwr && p != .ring && p != .boot && p != .dram && p != .phc && p != .srt
  | .zeroFillStart .. => signals ++ [.dram, .mem]
  | .zeroFillDone => signals ++ [.clk, .dram, .prog, .mem]
  | .segmentRebuildDone .. => allParts.filter fun p => p != .thm && p != .pwr && p != .ring && p != .sec && p != .boot
  | .scrubStart .. | .scrubStop .. => signals ++ [.mem]
  | .scrubDone .. =>
    allParts.filter fun p =>
    p != .thm && p != .pwr && p != .ring && p != .sec && p != .cry && p != .boot && p != .prog
  | .jramLineSwitch .. => [.mem]
  | .ownerSearch .. => signals ++ [.pat]
  | .ccEnClear .. | .shutdownAbrupt .. | .functionLevelReset .. | .hotResetOrPerst .. | .linkDown .. |
    .configurationRequest .. =>
    allParts.filter fun p =>
    p != .thm && p != .pwr && p != .chip && p != .cry && p != .boot && p != .prog
  | .shutdownNormal .. | .linkUp .. | .drainComplete .. | .sqTailDoorbell .. | .cqHeadDoorbell .. | .waitlimExceeded .. |
    .srtHwmClr .. | .recorderWriteRecord .. | .recorderCursorWrite .. | .recorderCursorNext .. | .recorderFlushsup .. |
    .recorderRearm .. | .evfDoorbellWrite .. | .timerFire .. | .sensorBroken .. => signals
  | .ltrSend .. => [.out, .regs, .portA, .portB]
  | .perstNDeassert .. => [.regs, .portA, .portB]
  | .msixTableWrite .. | .interruptCoalescingExpiry .. | .holdoffExpiry .. => [.out, .portA, .portB]
  | .pcieUncorrectableError .. => signals ++ [.clk, .map, .flash, .jrc, .srt]
  | .commandRelease .. =>
    allParts.filter fun p =>
    p != .thm && p != .pwr && p != .chip && p != .ring && p != .sec && p != .boot
  | .commitAck .. => allParts.filter fun p => p != .thm && p != .pwr && p != .ring
  | .trackerReinit => [.regs, .srt]
  | .flashonlyBufferFlush | .recorderPaceRefill => [.evr]
  | .registerWrite .. | .bar2Access .. | .blockCtlWrite .. | .watchdogExpiry .. | .cfgRstWarm .. |
    .thermalShutdown => allParts
  | .disableSequenceDone .. => allParts.filter fun p => p != .thm && p != .sec && p != .cry && p != .boot && p != .prog
  | .watchdogKick .. => signals ++ [.clk]
  | .ringLinkUp .. | .ringLinkDown .. | .beacon .. | .syncRsp .. | .enum .. | .enumend .. | .groupstate .. | .join .. |
    .ringAdmit .. | .role .. | .sched .. | .rngEnumCommand .. | .reachExpiry .. | .isolatedEntry | .rejoin |
    .isolatedAddressDrop | .enumStart | .enumTimeout | .postmasterTakeover | .slewDone | .scheduleEffective |
    .windowBoundary =>
    allParts.filter fun p =>
    p != .thm && p != .pwr && p != .chip && p != .sec && p != .cry && p != .boot && p != .srt && p != .prog
  | .relData .. => signals ++ [.ring, .sec, .boot]
  | .beaconSend | .joinSend | .dispatchRepeat .. | .groupstateRequest | .syncReqSend | .relayResend .. => [.out, .ring]
  | .groupEpochTick => signals ++ [.ring, .jrc]
  | .staggeredWakeEnd => allParts.filter fun p => p != .thm && p != .pwr && p != .ring && p != .srt
  | .activationTime => signals ++ [.chip, .ring, .sec]
  | .dispatchFrameError .. => [.regs]
  | .reservedDispatchType .. => signals ++ [.clk, .ring]
  | .resetNAssert .. | .pwrFailAssert .. => allParts.filter fun p => p != .thm
  | .resetRelease => allParts.filter fun p => p != .srt
  | .norRead .. | .norWrite .. | .norBasewr .. | .norOvlwr .. | .norSlotwr .. | .norBootrec .. |
    .norIdwr .. => signals ++ [.clk, .boot, .dram, .phc, .jrc, .pat, .mem]
  | .norOpDone .. =>
    allParts.filter fun p =>
    p != .thm && p != .pwr && p != .cry && p != .map && p != .flash && p != .srt && p != .prog
  | .xipFetch .. => signals ++ [.boot]
  | .norEraseResume => [.boot]
  | .norEraseSuspend .. => [.out, .regs, .boot]
  | .norPageProgramDone => [.out, .boot]
  | .thermalRound .. | .extLimit .. | .warningChange | .throttleChange | .supplyOutOfWindow .. => signals ++ [.thm]
  | .thermalRestart | .powerFailRestart => [.clk, .regs, .thm, .pwr, .chip, .ring, .sec]
  | .bandChange => signals ++ [.thm, .flash]
  | .idleTimerExpiry | .psChangeDeferred | .avfsEvaluation .. | .avselWrite .. => signals ++ [.pwr]
  | .psEntry | .psExit => signals ++ [.pwr, .phc, .flash, .jrc]
  | .supplyPowerOn => allParts.filter fun p => p != .out
  | .supplyPowerLoss => allParts.filter fun p => p != .out && p != .thm && p != .pwr

end Sys2Proof.Machine
end

