-- ==== Sys2Proof/Certificates/Slice0/Obligations.lean ====
section
/-! DEFINITION. The statements for the provers: each clause is a `Prop` of its own in `Sys2Proof.Claims`, and an obligation is the
conjunction of its clauses. `Completes c s P` says that `exec c s` answers a next state and that P holds of it. -/

set_option linter.unusedVariables false

namespace Sys2Proof.Claims
open Sys2Proof.Machine

/-! ## The block as a whole -/

/-- A step with a command at the front of the queue is that command's effect on the state with the queue's rest. -/
def stepTakesFront : Prop :=
  ∀ (c : Instr) (rest : List Instr) (s : State), step { s with pending := c :: rest } = exec c { s with pending := rest }

/-- With an empty queue a step is one count of the timebase, and nothing at all without power; where flash operations stand, the
channels' buses move on with it. The model's choice (log entry 4). -/
def stepIdle : Prop :=
  ∀ s : State, s.pending = [] → ∃ t, step s = .next t ∧ (s.chip.powered = false → t = s) ∧
    (s.chip.powered = true → t.clk.tb = (s.clk.tb + 1) % 2 ^ 64 ∧ t.evr.pace = min (s.evr.pace + 1) 250000000 ∧ t.pending = [] ∧
      OnlyChanges [.clk, .evr, .jrc, .flash, .out, .regs, .portA, .portB] s t ∧
      (s.flash.ops = [] → OnlyChanges [.clk, .evr, .jrc] s t))

/-- Every command has an effect in every state: nothing is refused and nothing faults. -/
def stepAlwaysGoesOn : Prop := ∀ s : State, ∃ t, step s = .next t

/-- No command touches the queue: a step takes the front command and leaves the rest in order. -/
def queueIsFifo : Prop := ∀ (s t : State), step s = .next t → t.pending = s.pending.tail

/-- At reset the queue is empty and the tables are in canonical form. -/
def resetCanon : Prop := Canon State.reset ∧ State.reset.pending = [] ∧ State.reset.out = []

/-- Every step keeps the canonical form of the register file, the DRAM and the Config NOR. -/
def stepKeepsCanon : Prop := ∀ s t : State, Canon s → step s = .next t → Canon t

/-- No step clears a fuse: MINSVN never falls, a programmed slot stays programmed with its hash, a revoked one revoked (R350). -/
def stepKeepsFuses : Prop := ∀ s t : State, step s = .next t → FusesKept s t

/-- What a command may change, for every command, operand and state: every part of the state outside its list stays. -/
def frameOfEveryCommand : Prop := ∀ (c : Instr) (s t : State), exec c s = .next t → OnlyChanges (mayChange c) s t

/-- A register reads its reset value at reset; among the values the spec states: EVF_HOLDOFF 1000 µs, the recorder in
the route of every source and SC0 in those of the boot block, no route for a reserved source, a watchdog TIMEOUT of 0xF42, EN 0 and ACTIVE 0 of the map engine, and
EN and ACTIVE 1 of the event fabric (Tables 2-4, 2-5, 2-10, 2-11 and 2-15). -/
def resetRegisters : Prop :=
  (∀ a, rd State.reset a = resetAt a) ∧ rdField State.reset Reg.holdoff 15 0 = 1000 ∧
    (∀ n, n < 248 → bitOf (rd State.reset (Reg.route n)) 10 = true ∧
      bitOf (rd State.reset (Reg.route n)) 8 = decide (144 ≤ n ∧ n ≤ 151)) ∧ (∀ n, 248 ≤ n → n < 256 → rd State.reset (Reg.route n) = 0) ∧
    (∀ k, k < 10 → rdField State.reset (Reg.wdCtl k) 31 8 = 0xF42 ∧ bitOf (rd State.reset (Reg.wdCtl k)) 0 = false) ∧
    enabled State.reset .map = false ∧ active State.reset .map = false ∧ enabled State.reset .evf = true ∧
    active State.reset .evf = true

/-- A byte memory: reading the byte just written gives it, and every other address reads as before. -/
def memoryReadWrite : Prop :=
  ∀ (d v : Byte) (m : NMap Byte) (a b : Nat), memWf d m = true →
    memRead d (memWrite d m a v) b = (if b = a then v else memRead d m b) ∧ memWf d (memWrite d m a v) = true

/-- A run of bytes: the bytes written read back, and every address outside them reads as before. -/
def memoryRuns : Prop :=
  ∀ (d : Byte) (m : NMap Byte) (a : Nat) (l : List Byte), memWf d m = true →
    memReads d (memWrites d m a l) a l.length = l ∧
    (∀ b, b < a ∨ a + l.length ≤ b → memRead d (memWrites d m a l) b = memRead d m b) ∧ memWf d (memWrites d m a l) = true

/-- Two canonical memories that read alike at every address are the same data. -/
def memoryCanonical : Prop :=
  ∀ (d : Byte) (m n : NMap Byte), memWf d m = true → memWf d n = true → (∀ a, memRead d m a = memRead d n a) → m = n

/-! ## Rules of the register space, the event fabric, ordering, the recorder, the thermal round and the stripes -/

/-- An initiator's access that reaches the register space: the chip runs, and the window of R58 lets a BAR2 access through. -/
def ReadReaches (s : State) (i : Initiator) (off size : Nat) : Prop := canAccess s i = true ∧ windowRead s i off size = none

def WriteReaches (s : State) (i : Initiator) (off : Nat) : Prop := canAccess s i = true ∧ windowWrite s i off = none

/-- A read at an offset that holds no block gives 0xFF in every byte requested and sets ADDR_ERR, and nothing else (R43). -/
def holeRead : Prop :=
  ∀ (s : State) (i : Initiator) (off size : Nat), ReadReaches s i off size → locate off = none →
    Completes (.faultyRegisterRead i off size) s fun t => t = emit (orReg s Reg.evfSts2 1) (.readValue i (2 ^ (8 * size) - 1))

/-- A write of any width at such an offset is dropped and sets ADDR_ERR, and nothing else (R43). -/
def holeWrite : Prop :=
  ∀ (s : State) (i : Initiator) (off size : Nat) (v : Dword), WriteReaches s i off → locate off = none →
    Completes (.registerWrite i off size v) s fun t => t = orReg s Reg.evfSts2 1

/-- A read, of a width and alignment that pass, at an offset where the block has no register gives 0 with KIND 0x4 (R43). -/
def unimplementedRead : Prop :=
  ∀ (s : State) (i : Initiator) (off size u o : Nat) (b : Blk), ReadReaches s i off size → islandRuns s b u = true →
    locate off = some (b, u, o) → findReg b u o = none → (size = 1 ∨ size = 2 ∨ size = 4) → o % size = 0 →
    Completes (.faultyRegisterRead i off size) s fun t => t = emit (accessFault s b u 0 4 (initCode i) o) (.readValue i 0)

/-- A write there is ignored, with KIND 0x4 (R43). -/
def unimplementedWrite : Prop :=
  ∀ (s : State) (i : Initiator) (off u o : Nat) (b : Blk) (v : Dword), WriteReaches s i off → islandRuns s b u = true →
    locate off = some (b, u, o) → findReg b u o = none → o % 4 = 0 →
    Completes (.registerWrite i off 4 v) s fun t => t = accessFault s b u 0 4 (initCode i) o

/-- What a faulty access does (R45): its status bit, the capture while all three bits were 0 and none otherwise, and one raise
of the register-error source for a 0-to-1 transition. No other register changes but those a raise changes. -/
def faultReport : Prop :=
  ∀ (s : State) (b : Blk) (u bit kind init off : Nat), bit < 3 → kind < 8 → init < 12 → u < 32 →
    let t := accessFault s b u bit kind init off
    rd t (Reg.sts b u) = rd s (Reg.sts b u) ||| 2 ^ bit ∧
    (rdField s (Reg.sts b u) 2 0 = 0 → rd t (Reg.errAddr b u) = 2 ^ 31 + kind * 2 ^ 20 + init * 2 ^ 16 + off % 2 ^ 16) ∧
    (rdField s (Reg.sts b u) 2 0 ≠ 0 → rd t (Reg.errAddr b u) = rd s (Reg.errAddr b u)) ∧
    (bitOf (rd s (Reg.sts b u)) bit = false → s.chip.held = false → ∀ n, errSource b u = some n → raised t n = true) ∧
    (bitOf (rd s (Reg.sts b u)) bit = true → OnlyChanges [.regs] s t ∧ ∀ n, n < 256 → raised t n = raised s n) ∧
    ∀ a, a ≠ Reg.sts b u → a ≠ Reg.errAddr b u → ((0x100040 ≤ a ∧ a < 0x100340) ∨ a = 0xD0038 ∨ a = 0xD003C ∨ rd t a = rd s a)

/-- The checks of a write, the first failed one deciding (R46): the island, then width and alignment, then the register. -/
def writeChecks : Prop :=
  ∀ (s : State) (i : Initiator) (off size u o : Nat) (b : Blk) (v : Dword), isCore i = true → canAccess s i = true →
    locate off = some (b, u, o) →
    Completes (.registerWrite i off size v) s fun t =>
      (islandRuns s b u = false → t = undeliverable s b u) ∧
      (islandRuns s b u = true →
        (size = 1 ∨ size = 2 → t = accessFault s b u 0 1 (initCode i) o) ∧
        (size = 4 → o % 4 ≠ 0 → t = accessFault s b u 0 2 (initCode i) o) ∧
        (8 < size → t = accessFault s b u 0 2 (initCode i) o) ∧
        (size = 8 → (∀ x, findReg b u o = some x → x.row.wide = false) → t = accessFault s b u 0 3 (initCode i) o) ∧
        (size = 4 → o % 4 = 0 → ∀ x, findReg b u o = some x → x.row.wide = true → t = accessFault s b u 0 3 (initCode i) o))

/-- The checks of a read, in the same order (R46). -/
def readChecks : Prop :=
  ∀ (s : State) (i : Initiator) (off size u o : Nat) (b : Blk), isCore i = true → canAccess s i = true →
    locate off = some (b, u, o) →
    Completes (.faultyRegisterRead i off size) s fun t =>
      (islandRuns s b u = false → t = emit (undeliverable s b u) (.readValue i (2 ^ (8 * size) - 1))) ∧
      (islandRuns s b u = true →
        (size = 2 ∨ size = 4 → o % size ≠ 0 → t = emit (accessFault s b u 0 2 (initCode i) o) (.readValue i (2 ^ (8 * size) - 1))) ∧
        (size = 8 → (∀ x, findReg b u o = some x → x.row.wide = false) →
          t = emit (accessFault s b u 0 3 (initCode i) o) (.readValue i (2 ^ 64 - 1))))

/-- A read that passes the checks, of any register by any initiator whose window lets it through, sends the value and changes
nothing (R47), but that a read of MAP_RMWCNT lets the next fallback raise source 42 (Table 5-16). -/
def readNormal : Prop :=
  ∀ (s : State) (i : Initiator) (off size u o : Nat) (b : Blk) (x : RegAt), canAccess s i = true →
    windowRead s i off size = none → locate off = some (b, u, o) → islandRuns s b u = true → findReg b u o = some x →
    ((size = 1 ∨ size = 2 ∨ size = 4) ∧ o % size = 0 ∨ size = 8 ∧ x.row.wide = true ∧ o = x.start ∧ o % 8 = 0) →
    Completes (.faultyRegisterRead i off size) s fun t =>
      t = emit (if size ≠ 8 ∧ b = .map ∧ x.start = 0x68 then { s with map := { s.map with rmwSeen := true } } else s)
        (.readValue i (regView s i b u x.start / 2 ^ (8 * (o - x.start)) % 2 ^ (8 * size)))

/-- Any read at all, a faulty one too, changes no register but fault records, the count of denied accesses and what a raise
changes, and of the state behind the registers only the note that MAP_RMWCNT has been read (R47, Table 5-16). -/
def readNoSideEffect : Prop :=
  ∀ (s : State) (i : Initiator) (off size : Nat),
    Completes (.faultyRegisterRead i off size) s fun t =>
      OnlyChanges [.regs, .out, .portA, .portB, .evr, .map] s t ∧ (∃ r, t.map = { s.map with rmwSeen := r }) ∧
      ∀ a, a ≠ Reg.evfSts2 → (∀ b u o, locate off = some (b, u, o) → a ≠ Reg.sts b u ∧ a ≠ Reg.errAddr b u) →
        a ≠ Reg.pwrUndeliv → a ≠ Reg.pwrCause → a ≠ Reg.secDeny → a ≠ Reg.secCause →
        ¬ (0x100040 ≤ a ∧ a < 0x100340) → a ≠ 0xD0038 → a ≠ 0xD003C → rd t a = rd s a

/-- A write to a register whose fields are all read-only or cleared by writing 1, with no 1 written to a set bit that clears:
nothing changes and nothing is reported (R12, R49). -/
def inertWrite : Prop :=
  ∀ (s : State) (i : Initiator) (off u o : Nat) (b : Blk) (x : RegAt) (v : Dword), WriteReaches s i off → islandRuns s b u = true →
    locate off = some (b, u, o) → findReg b u o = some x → o = x.start → o % (if x.row.wide then 8 else 4) = 0 → o ≠ 4 →
    (∀ f ∈ x.row.flds, f.acc = .ro ∨
      f.acc = .w1c ∧ bitsOf v.toNat f.hi f.lo &&& bitsOf (regView s i b u x.start) f.hi f.lo = 0) →
    Completes (.registerWrite i off (if x.row.wide then 8 else 4) v) s fun t => t = s

/-- Two writes of such a register that agree in every W1C bit that is set have the same effect: what is written to a W1C bit that
is already 0 makes no difference (R49). -/
def zeroBitsInert : Prop :=
  ∀ (s : State) (i : Initiator) (off u o : Nat) (b : Blk) (x : RegAt) (v w : Dword), WriteReaches s i off → islandRuns s b u = true →
    locate off = some (b, u, o) → findReg b u o = some x → o = x.start → o % (if x.row.wide then 8 else 4) = 0 → o ≠ 4 →
    (∀ f ∈ x.row.flds, f.acc = .ro ∨
      f.acc = .w1c ∧ bitsOf v.toNat f.hi f.lo &&& bitsOf (regView s i b u x.start) f.hi f.lo =
        bitsOf w.toNat f.hi f.lo &&& bitsOf (regView s i b u x.start) f.hi f.lo) →
    Completes (.registerWrite i off (if x.row.wide then 8 else 4) v) s fun t =>
      exec (.registerWrite i off (if x.row.wide then 8 else 4) w) s = .next t

/-- A write of a route, an MW register, with all mask bits 0 changes nothing and is not a fault (R49). -/
def maskZeroWrite : Prop :=
  ∀ (s : State) (i : Initiator) (n : Nat) (v : Dword), WriteReaches s i (Reg.route n) → islandRuns s .evf 0 = true → n < 256 → v.toNat / 2 ^ 16 % 2 ^ 16 = 0 →
    Completes (.registerWrite i (Reg.route n) 4 v) s fun t => t = s

/-- A write that would change a configuration field of an ACTIVE block leaves the register and reports KIND 0x6 alone, whatever
the encoding (R50). PHC_WAYDIS is judged over the ways the cache has. -/
def configWhileActive : Prop :=
  ∀ (s : State) (i : Initiator) (off u o : Nat) (b : Blk) (x : RegAt) (v : Dword), coreAccess s i b u = true →
    locate off = some (b, u, o) → findReg b u o = some x → x.row.wide = false → o % 4 = 0 → o ≠ 4 → active s b u = true →
    confChange x.row.flds (regView s i b u x.start)
      (if b = .phc ∧ o = 0x10 then v.toNat % 2 ^ phcWays s + regView s i b u o / 2 ^ phcWays s * 2 ^ phcWays s else v.toNat % 2 ^ 32) = true →
    Completes (.registerWrite i off 4 v) s fun t => t = accessFault s b u 1 6 (initCode i) x.start

/-- The same of `<BLK>_CTL` with EN = 1: every configuration field of it keeps its value (R50, R51). -/
def ctlWhileActive : Prop :=
  ∀ (s : State) (i : Initiator) (b : Blk) (u : Fin 32) (v : Word), coreAccess s i b u = true →
    locate (Reg.ctl b u) = some (b, u.val, 4) → active s b u = true → v.toNat % 2 = 1 →
    confChange (ctlFields b) (rd s (Reg.ctl b u)) v.toNat = true →
    Completes (.blockCtlWrite i b u v) s fun t => bitOf (rd t (Reg.sts b u)) 1 = true ∧
      (rdField s (Reg.sts b u) 2 0 = 0 → rd t (Reg.errAddr b u) = 2 ^ 31 + 6 * 2 ^ 20 + initCode i * 2 ^ 16 + 4) ∧
      ∀ f ∈ ctlFields b, f.conf = true → f.hi < 32 → bitsOf (rd t (Reg.ctl b u)) f.hi f.lo = bitsOf (rd s (Reg.ctl b u)) f.hi f.lo

/-- A trigger while its operation runs (R55): nothing happens but the report of KIND 0x7 at the trigger's offset. -/
def Ignored (c : Instr) (s : State) (i : Initiator) (b : Blk) (u off : Nat) : Prop :=
  Completes c s fun t => t = accessFault s b u 2 7 (initCode i) off

/-- Every trigger that a command of the table writes, while the operation it starts runs (R55): no second operation starts, GEN
and the results stay, and TRIG_IGN is set with KIND 0x7. -/
def triggerWhileRunning : Prop :=
  ∀ (s : State) (i : Initiator),
    (∀ c : Fin 32, coreAccess s i .chn c = true → ((courier s c).training.isSome || (courier s c).wantTrain.isSome) = true →
      ∀ v : Word, Ignored (.trainingStart i c v) s i .chn c 0x28) ∧
    (coreAccess s i .phc 0 = true → s.phc.rng.isSome = true → ∀ v : Word, Ignored (.phcRangeClean i v) s i .phc 0 0x30 ∧
      Ignored (.phcRangeInvalidate i v) s i .phc 0 0x30 ∧ Ignored (.phcRangeCleanInvalidate i v) s i .phc 0 0x30) ∧
    (coreAccess s i .jrc 0 = true → (s.jrc.hold || s.jrc.committing) = true → ∀ v : Word,
      Ignored (.jrcCutover i v) s i .jrc 0 0x2C ∧ Ignored (.jrcCommit i v) s i .jrc 0 0x2C) ∧
    (coreAccess s i .cfg 0 = true → s.boot.op.isSome = true → ∀ slot recom com : Bool, Ignored (.norRead i) s i .cfg 0 0x90 ∧
      Ignored (.norWrite i) s i .cfg 0 0x90 ∧ Ignored (.norBasewr i) s i .cfg 0 0x90 ∧ Ignored (.norOvlwr i) s i .cfg 0 0x90 ∧
      Ignored (.norSlotwr i slot) s i .cfg 0 0x90 ∧ Ignored (.norBootrec i slot recom com) s i .cfg 0 0x90 ∧
      Ignored (.norIdwr i) s i .cfg 0 0x90) ∧
    (coreAccess s i .scb 0 = true → s.mem.scrub.isSome = true → ∀ v : Word, Ignored (.scrubStart i v) s i .scb 0 0x28) ∧
    (coreAccess s i .pwr 0 = true → ∀ v : Word, (∃ c, c < 32 ∧ bitOf v.toNat c = true) →
      (∀ c, c < 32 → bitOf v.toNat c = true → (courier s c).reset = true) → Ignored (.courierReset i v) s i .pwr 0 0x40) ∧
    (coreAccess s i .map 0 = true → s.map.scanning = true →
      ∀ v : Word, Ignored (.victimScan i v) s i .map 0 0xA4) ∧
    (coreAccess s i .drc 0 = true → s.mem.zf.isSome = true →
      ∀ v : Word, Ignored (.zeroFillStart i v) s i .drc 0 0x20) ∧
    (coreAccess s i .sec 0 = true → s.sec.verifying = true →
      ∀ v : Word, Ignored (.imageVerify i v) s i .sec 0 0x2C) ∧
    (coreAccess s i .pat 0 = true → s.pat.search.isSome = true →
      ∀ (v : Word) (l : List (Ppa × Bool)), v.toNat % 128 ≠ 0 → v.toNat % 128 ≤ 64 → Ignored (.ownerSearch i v l) s i .pat 0 0x60)

/-- Table 2-8: what each window state makes of a read and a write through BAR2 of a port, with precedence as R58 states. -/
def windowTable : Prop :=
  ∀ (s : State) (p : Port) (off size : Nat) (v : Dword), bar2Reach s p = true →
    (winOfPort s p = .closed →
      Completes (.bar2Access p off size none) s (fun t => t = emit (denyAccess s p) (.readValue (.bar2 p) (2 ^ (8 * size) - 1))) ∧
      Completes (.bar2Access p off size (some v)) s (fun t => t = denyAccess s p)) ∧
    (winOfPort s p ≠ .closed → secretBlock off = true →
      Completes (.bar2Access p off size none) s (fun t => t = emit s (.readValue (.bar2 p) 0)) ∧
      Completes (.bar2Access p off size (some v)) s (fun t => t = denyAccess s p)) ∧
    (winOfPort s p ≠ .closed → secretBlock off = false →
      Completes (.bar2Access p off size none) s
        (fun t => t = emit (regRead s (.bar2 p) off size).1 (.readValue (.bar2 p) (regRead s (.bar2 p) off size).2))) ∧
    (winOfPort s p = .openRo → secretBlock off = false →
      Completes (.bar2Access p off size (some v)) s (fun t => t = denyAccess s p)) ∧
    (winOfPort s p = .openRw → secretBlock off = false →
      Completes (.bar2Access p off size (some v)) s (fun t => t = regWrite s (.bar2 p) off size v.toNat {}))

/-- A denied access sets no fault bit: it is counted for its port, up to 65,535, and nothing in the block's header changes (R58). -/
def denialCounted : Prop :=
  ∀ (s : State) (p : Port), (∀ b u, u < 32 → rd (denyAccess s p) (Reg.sts b u) = rd s (Reg.sts b u)) ∧
    (p = .a → rdField (denyAccess s p) Reg.secDeny 15 0 = min (rdField s Reg.secDeny 15 0 + 1) 65535) ∧
    (p = .b → rdField (denyAccess s p) Reg.secDeny 31 16 = min (rdField s Reg.secDeny 31 16 + 1) 65535)

/-- The effects of a raise (R62): bit n of the source bitmap, of each named core's bitmap, and of each named port's bitmap; with
REC the recorder takes the raise with its payload, without it the recorder is untouched. Pending bits stay (R63). -/
def raiseEffects : Prop :=
  ∀ (s : State) (n origin : Nat) (pl : List Byte), n < 248 → ¬ (157 ≤ n ∧ n ≤ 159) → s.chip.held = false →
    let r := rd s (Reg.route n)
    let t := raiseWith s n pl origin
    raised t n = true ∧ (∀ k, k < 10 → bitOf r k = true → bitOf (rd t (Reg.cpend k (n / 32))) (n % 32) = true) ∧
    (bitsOf r 12 11 ≠ 0 → bitOf (rd t (Reg.hpendA (n / 32))) (n % 32) = true) ∧
    (bitsOf r 14 13 ≠ 0 → bitOf (rd t (Reg.hpendB (n / 32))) (n % 32) = true) ∧
    (bitOf r 10 = true → t.evr = (admitCand s { code := n, origin, payload := pl }).evr) ∧ (bitOf r 10 = false → t.evr = s.evr) ∧
    (∀ m, m < 256 → raised s m = true → raised t m = true) ∧
    ∀ m k, m < 256 → m ≠ n → k < 10 → bitOf (rd t (Reg.cpend k (m / 32))) (m % 32) = bitOf (rd s (Reg.cpend k (m / 32))) (m % 32)

/-- A raise changes nothing but the pending bitmaps, the recorder with its two counters, the ports' message state and what is
sent; a reserved source is never raised (R61, R62). -/
def raiseFrame : Prop :=
  ∀ (s : State) (n origin : Nat) (pl : List Byte), let t := raiseWith s n pl origin
    OnlyChanges [.regs, .out, .portA, .portB, .evr] s t ∧
    (∀ a, rd t a = rd s a ∨ (0x100040 ≤ a ∧ a < 0x100340) ∨ a = 0xD0038 ∨ a = 0xD003C) ∧
    (248 ≤ n ∨ (157 ≤ n ∧ n ≤ 159) → t = s)

/-- EVF_CFIRSTk holds the lowest-numbered pending source of core k, and NONE where none is pending (R64). -/
def firstPendingSource : Prop :=
  ∀ (s : State) (i : Initiator) (k : Nat), k < 10 → let v := regView s i .evf 0 (0x280 + 4 * k)
    (v < 256 → bitOf (rd s (Reg.cpend k (v / 32))) (v % 32) = true ∧
      ∀ m, m < v → bitOf (rd s (Reg.cpend k (m / 32))) (m % 32) = false) ∧
    (¬ v < 256 → v = 256 ∧ ∀ m, m < 256 → bitOf (rd s (Reg.cpend k (m / 32))) (m % 32) = false)

/-- Two tracked commands overlap exactly when one of them is modifying and some letter of one namespace is addressed by both
(R102). -/
def overlapRule : Prop :=
  ∀ c d : Cmd, overlap c d = true ↔ ((c.modif = true ∨ d.modif = true) ∧ ∃ nsid letter : Nat,
    (∃ a ∈ c.ranges, a.1 = nsid ∧ a.2.1 ≤ letter ∧ letter < a.2.1 + a.2.2) ∧
    ∃ b ∈ d.ranges, b.1 = nsid ∧ b.2.1 ≤ letter ∧ letter < b.2.1 + b.2.2)

/-- The recorder's admission (R377, R379): a code with a whole token takes it and enters the FIFO while it has space; without
one, or with OFF, the candidate is suppressed and counted and the FIFO stays. -/
def bucketRule : Prop :=
  ∀ (s : State) (c : Cand), ¬ (0x100 ≤ c.code ∧ c.code ≤ 0x103) →
    let b := bucketNow s c.code
    let t := admitCand s c
    ((b.off = true ∨ b.level < 4000000000) → t.evr.fifo = s.evr.fifo ∧ 
      rdField t Reg.evrSuppCnt 31 0 = min (rdField s Reg.evrSuppCnt 31 0 + 1) (2 ^ 32 - 1) ∧
      nget t.evr.buckets c.code = some { b with supp := b.supp + 1 }) ∧
    (b.off = false → 4000000000 ≤ b.level → s.evr.fifo.length < 64 → t.evr.fifo = s.evr.fifo ++ [c] ∧
      nget t.evr.buckets c.code = some { b with level := b.level - 4000000000 } ∧ t.regs = s.regs)

/-- A candidate that has passed its bucket, or needs none, and finds 64 entries in the FIFO is lost and counted; the first loss begins an episode and marks the newest
entry, and a later one counts within it (R379). -/
def fifoFull : Prop :=
  ∀ (s : State) (c : Cand), s.evr.fifo.length = 64 →
    (0x100 ≤ c.code ∧ c.code ≤ 0x103 ∨ (bucketNow s c.code).off = false ∧ 4000000000 ≤ (bucketNow s c.code).level) →
    let t := admitCand s c
    rdField t Reg.evrLostCnt 31 0 = min (rdField s Reg.evrLostCnt 31 0 + 1) (2 ^ 32 - 1) ∧ t.evr.fifo.length = 64 ∧
    (s.evr.episode = none → t.evr.episode = some (1, c.code, c.code) ∧ (t.evr.fifo[63]?).map (fun x => x.marked) = some true ∧
      t.evr.fifo.take 63 = s.evr.fifo.take 63) ∧
    ∀ n f l, s.evr.episode = some (n, f, l) → t.evr.episode = some (n + 1, f, c.code) ∧ t.evr.fifo = s.evr.fifo

/-- One round of the thresholds of Table 16-2 (R395): each count goes on while its condition holds and restarts from 0 in a
round that breaks it; Warning 95 and 90 °C, Throttle 102 and 97 °C, Shutdown 115 °C. -/
def thresholdRound : Prop :=
  ∀ (s : State) (die ext : List Reading) (rails : List (Option Nat)) (t0 : Int), reported s (sensorsRound s die) = some t0 →
    Completes (.thermalRound die ext rails) s fun t =>
      t.thm.warn = { s.thm.warn with up := if 95 * 16 ≤ t0 then s.thm.warn.up + 1 else 0
                                     down := if t0 ≤ 90 * 16 then s.thm.warn.down + 1 else 0 } ∧
      t.thm.throttle = { s.thm.throttle with up := if 102 * 16 ≤ t0 then s.thm.throttle.up + 1 else 0
                                             down := if t0 ≤ 97 * 16 then s.thm.throttle.down + 1 else 0 } ∧
      t.thm.shut = { s.thm.shut with up := if 115 * 16 ≤ t0 then s.thm.shut.up + 1 else 0, down := 0 }

/-- A threshold changes exactly when its count is 8: clear to in force on the set count, in force to clear on the clear count
(R395). The change takes the source of Table 16-2 with it. -/
def thresholdChange : Prop :=
  ∀ s : State, s.chip.held = false →
    Completes .warningChange s (fun t =>
      if (s.thm.warn.inForce = false ∧ 8 ≤ s.thm.warn.up) ∨ (s.thm.warn.inForce = true ∧ 8 ≤ s.thm.warn.down) then
        t.thm.warn = { inForce := !s.thm.warn.inForce, up := 0, down := 0 } ∧ raised t 105 = true
      else t = s) ∧
    Completes .throttleChange s (fun t =>
      if (s.thm.throttle.inForce = false ∧ 8 ≤ s.thm.throttle.up) ∨ (s.thm.throttle.inForce = true ∧ 8 ≤ s.thm.throttle.down) then
        t.thm.throttle = { inForce := !s.thm.throttle.inForce, up := 0, down := 0 } ∧ raised t 106 = true
      else t = s)

/-- A supply monitor counts the rounds outside its window, from 0 again after one inside (R400). -/
def railRounds : Prop :=
  ∀ (s : State) (die ext : List Reading) (rails : List (Option Nat)) (k mv : Nat), k < 12 → rails.getD k none = some mv →
    Completes (.thermalRound die ext rails) s fun t =>
      let x := s.thm.rails.getD k {}
      t.thm.rails.getD k {} = { x with mv := some mv, count := if mv < x.lo ∨ x.hi < mv then x.count + 1 else 0 }

/-- After 8 such rounds LOW or HIGH is set, with THM_CAUSE.VMON and source 109, and no power-fail sequence starts (R400). -/
def railDeclared : Prop :=
  ∀ (s : State) (k : Fin 12) (x : Rail) (mv : Nat), s.chip.held = false → s.thm.rails[k.val]? = some x → 8 ≤ x.count →
    x.mv = some mv →
    Completes (.supplyOutOfWindow k) s fun t => t.thm.rails.getD k {} = { x with low := mv < x.lo, high := x.hi < mv, count := 0 } ∧
      bitOf (rd t Reg.thmCause) 5 = true ∧ raised t 109 = true ∧
      OnlyChanges [.thm, .regs, .portA, .portB, .out, .evr] s t

/-- The P and Q payloads that R225 gives a slot of a row: the sum of every data member's, and that of g^i times each. -/
def rowP (s : State) (x : Nat) (b : Sb) (row slot : Nat) : Payload :=
  b.dataMems.foldl (fun v m => v ^^^ memPayload s x b row m slot) 0

def rowQ (s : State) (x : Nat) (b : Sb) (row slot : Nat) : Payload :=
  b.dataMems.foldl (fun v m => v ^^^ gPowTimes (b.dataIdx m) (memPayload s x b row m slot)) 0

/-- A rebuild of a finished row whose parity agrees with R225, with a data member lost and no other: its payload comes back from P
(Table 8-9, E = target, and target with Q). -/
def rebuildFromP : Prop :=
  ∀ (s : State) (b : Sb) (r : Rebuild) (slot : Nat), b.nmem ≤ 32 → inSealBuffer s r.sbx b r.row = none → r.target ∈ b.dataMems →
    r.row < b.endRow b.pIdx → r.erased.contains b.pIdx = false → (∀ m ∈ r.erased, m = b.qIdx) →
    (slotPayload s (b.page b.pIdx r.row + slot)).getD 0 = rowP s r.sbx b r.row slot →
    solve s b r slot = .inl (memPayload s r.sbx b r.row r.target slot)

/-- The same with P lost too: the payload comes back from Q divided by g^a (Table 8-9, E = target and P). -/
def rebuildFromQ : Prop :=
  ∀ (s : State) (b : Sb) (r : Rebuild) (slot : Nat), b.nmem ≤ 32 → inSealBuffer s r.sbx b r.row = none → r.target ∈ b.dataMems →
    r.row < b.endRow b.qIdx → b.pIdx ≠ b.qIdx → r.erased = [b.pIdx] →
    (slotPayload s (b.page b.qIdx r.row + slot)).getD 0 = rowQ s r.sbx b r.row slot →
    solve s b r slot = .inl (memPayload s r.sbx b r.row r.target slot)

/-- Two data members lost: both parities solve for the target (R233). -/
def rebuildFromPQ : Prop :=
  ∀ (s : State) (b : Sb) (r : Rebuild) (slot other : Nat), b.nmem ≤ 32 → inSealBuffer s r.sbx b r.row = none →
    r.target ∈ b.dataMems → other ∈ b.dataMems → other ≠ r.target → r.erased = [other] →
    r.row < b.endRow b.pIdx → r.row < b.endRow b.qIdx →
    (slotPayload s (b.page b.pIdx r.row + slot)).getD 0 = rowP s r.sbx b r.row slot →
    (slotPayload s (b.page b.qIdx r.row + slot)).getD 0 = rowQ s r.sbx b r.row slot →
    solve s b r slot = .inl (memPayload s r.sbx b r.row r.target slot)

/-- A target with two more members lost cannot be rebuilt: the cause is 0x01 (Table 8-9). -/
def rebuildLost : Prop :=
  ∀ (s : State) (b : Sb) (r : Rebuild) (slot c d : Nat), inSealBuffer s r.sbx b r.row = none → r.target ∈ b.dataMems →
    c ∈ b.dataMems → d ∈ b.dataMems → r.erased = [c, d] → (r.row < b.endRow b.pIdx ∨ r.row < b.endRow b.qIdx) →
    solve s b r slot = .inr 1

/-! ## The register space (R43 to R52) -/

/-- A write of EVF_HOLDOFF, a plain RW register: the register takes the value in its field (R46, "normal"). -/
def registerWrite : Prop :=
  ∀ (s : State) (i : Initiator) (v : Dword), coreAccess s i .evf 0 = true →
    Completes (.registerWrite i 0x100340 4 v) s fun t => rdField t Reg.holdoff 15 0 = v.toNat % 2 ^ 16 ∧
      (∀ a, a ≠ Reg.holdoff → rd t a = rd s a) ∧ OnlyChanges [.regs] s t

/-- A write at an offset that holds no block is dropped and sets EVF_STS2.ADDR_ERR (R43). -/
def registerWriteHole : Prop :=
  ∀ (s : State) (i : Initiator) (off size : Nat) (v : Dword), isCore i = true → canAccess s i = true →
    locate off = none →
    Completes (.registerWrite i off size v) s fun t => bitOf (rd t Reg.evfSts2) 0 = true ∧
      (∀ a, a ≠ Reg.evfSts2 → rd t a = rd s a) ∧ OnlyChanges [.regs] s t

/-- A write of 1 or 2 bytes is a faulty access of KIND 0x1: ACC_ERR is set, and where no fault was captured ERRADDR takes it
(R45, R46). -/
def registerWriteNarrow : Prop :=
  ∀ (s : State) (i : Initiator) (off size u o : Nat) (b : Blk) (v : Dword), coreAccess s i b u = true →
    locate off = some (b, u, o) → (size = 1 ∨ size = 2) →
    Completes (.registerWrite i off size v) s fun t => bitOf (rd t (Reg.sts b u)) 0 = true ∧
      (rdField s (Reg.sts b u) 2 0 = 0 → rd t (Reg.errAddr b u) = 2 ^ 31 + 2 ^ 20 + initCode i * 2 ^ 16 + o % 2 ^ 16)

/-- BAR2 through an open window: the same write, with the port as initiator (R58, R60). -/
def bar2Access : Prop :=
  ∀ (s : State) (p : Port) (v : Dword), bar2Reach s p = true → winOfPort s p = .openRw →
    Completes (.bar2Access p 0x100340 4 (some v)) s fun t => rdField t Reg.holdoff 15 0 = v.toNat % 2 ^ 16 ∧ OnlyChanges [.regs] s t

/-- BAR2 through a closed window: a read gives ones, and the denial is counted and reported (R58). -/
def bar2AccessClosed : Prop :=
  ∀ (s : State) (p : Port) (off size : Nat), bar2Reach s p = true → winOfPort s p = .closed →
    Completes (.bar2Access p off size none) s fun t => t = emit (denyAccess s p) (.readValue (.bar2 p) (allOnes size))

/-- A write of EN = 1 to a patrol that is not ACTIVE: EN and ACTIVE become 1 (R51). -/
def blockCtlWrite : Prop :=
  ∀ (s : State) (i : Initiator) (v : Word), coreAccess s i .pat 0 = true → active s .pat = false → v.toNat % 2 = 1 →
    Completes (.blockCtlWrite i .pat 0 v) s fun t => active t .pat = true ∧ enabled t .pat = true ∧ OnlyChanges [.regs] s t

/-- A write of EN = 0 to an ACTIVE patrol: its disable sequence begins and ACTIVE stays 1 (R51, R52). -/
def blockCtlWriteDisable : Prop :=
  ∀ (s : State) (i : Initiator) (v : Word), coreAccess s i .pat 0 = true → active s .pat = true → leaving s .pat = false →
    v.toNat % 2 = 0 →
    Completes (.blockCtlWrite i .pat 0 v) s fun t => active t .pat = true ∧ enabled t .pat = false ∧
      leaving t .pat = true ∧ running t .pat = false

/-- The patrol's disable sequence ends with nothing left to wait for: ACTIVE becomes 0 (R52). -/
def disableSequenceDone : Prop :=
  ∀ s : State, leaving s .pat = true → s.pat.cur = none → s.pat.search = none → enabled s .pat = false →
    Completes (.disableSequenceDone .pat 0) s fun t => active t .pat = false ∧ leaving t .pat = false ∧
      OnlyChanges [.regs, .chip] s t

/-- Writing 1 to bit k raises source 160 + k (Table 2-10). -/
def evfDoorbellWrite : Prop :=
  ∀ (s : State) (i : Initiator) (v : Word) (k : Nat), coreAccess s i .evf 0 = true → k < 32 → bitOf v.toNat k = true →
    Completes (.evfDoorbellWrite i v) s fun t => raised t (160 + k) = true

/-- At the end of a holdoff the raises merged into it are sent as one message, which starts a holdoff again; a masked vector or
function takes it as its pending bit, and one without MSI-X Enable or Bus Master Enable sends none. With nothing merged the
holdoff ends (R65). -/
def holdoffExpiry : Prop :=
  ∀ (s : State) (p : Port) (b : Bool), (ngetD (getPort s p).hold (if b then 129 else 128) {}).running = true →
    Completes (.holdoffExpiry p b) s fun t =>
      if (ngetD (getPort s p).hold (if b then 129 else 128) {}).merged then
        let e := ngetD (getPort s p).msix (if b then 129 else 128) {}
        if msixOn (getPort s p) = false then t.out = s.out
        else if e.mask = true ∨ msixFnMask (getPort s p) = true then
          nget (getPort t p).msix (if b then 129 else 128) = some { e with pba := true } ∧ t.out = s.out
        else t.out = s.out ++ [.msix p (if b then 129 else 128) e.addr e.data] ∧ (rdField s Reg.holdoff 15 0 ≠ 0 →
          nget (getPort t p).hold (if b then 129 else 128) = some { running := true, merged := false })
      else t.out = s.out ∧ nget (getPort t p).hold (if b then 129 else 128) = some {}

/-- An armed timer at or past its compare value raises its source; with period 0 it clears ARM, otherwise CMP moves above the
timebase by whole periods (R66). -/
def timerFire : Prop :=
  ∀ (s : State) (n : Fin 14), bitOf (rd s (Reg.tmrCtl n)) 0 = true → rd s (Reg.tmrCmp n) ≤ s.clk.tb → s.chip.held = false →
    s.clk.tb < 2 ^ 63 → rd s (Reg.tmrPer n) < 2 ^ 32 →
    Completes (.timerFire n) s fun t => raised t (224 + n) = true ∧
      (rd s (Reg.tmrPer n) = 0 → bitOf (rd t (Reg.tmrCtl n)) 0 = false) ∧
      (rd s (Reg.tmrPer n) ≠ 0 → s.clk.tb < rd t (Reg.tmrCmp n) ∧ rd t (Reg.tmrCmp n) ≤ s.clk.tb + rd s (Reg.tmrPer n) ∧
        rd t (Reg.tmrCmp n) % rd s (Reg.tmrPer n) = rd s (Reg.tmrCmp n) % rd s (Reg.tmrPer n))

/-- The first expiry of a running watchdog sets STAGE to 1, raises its source and starts counting again (R67). -/
def watchdogExpiry : Prop :=
  ∀ (s : State) (k : Fin 10), wdDue s k = true → rdField s (Reg.wdSts k) 1 0 = 0 → s.chip.held = false →
    Completes (.watchdogExpiry k) s fun t => rdField t (Reg.wdSts k) 1 0 = 1 ∧ raised t (238 + k) = true ∧
      nget t.clk.wd k = some 0 ∧ t.clk.tb = s.clk.tb

/-- A kick sets STAGE to 0 and restarts the count (R67). -/
def watchdogKick : Prop :=
  ∀ (s : State) (i : Initiator) (k : Fin 10) (v : Word), coreAccess s i .evf 0 = true →
    Completes (.watchdogKick i k v) s fun t => rdField t (Reg.wdSts k) 1 0 = 0 ∧ nget t.clk.wd k = some 0 ∧
      OnlyChanges [.regs, .clk] s t

/-- A read of 8 bytes of a 32-bit register is a faulty access of KIND 0x3: it gives ones and sets ACC_ERR (R46). -/
def faultyRegisterRead : Prop :=
  ∀ (s : State) (i : Initiator), coreAccess s i .evf 0 = true →
    Completes (.faultyRegisterRead i 0x100340 8) s fun t => bitOf (rd t (Reg.sts .evf)) 0 = true ∧
      t.out = s.out ++ [.readValue i (2 ^ 64 - 1)] ∧ OnlyChanges [.regs, .out] s t

/-! ## Doorbells, fetching and the sorting office (R76 to R128) -/

/-- A tail doorbell moves the tail of an existing queue, a frozen one too (R76, R122). -/
def sqTailDoorbell : Prop :=
  ∀ (s : State) (p : Port) (qid tail : Nat) (q : Sq), (getPort s p).en = true → (getPort s p).d3hot = false →
    nget (getPort s p).sqs qid = some q → tail < q.size →
    Completes (.sqTailDoorbell p qid tail) s fun t => nget (getPort t p).sqs qid = some { q with tail } ∧
      (∀ k, k ≠ qid → nget (getPort t p).sqs k = nget (getPort s p).sqs k) ∧ OnlyChanges [portPart p] s t

/-- A head doorbell frees slots: with nothing held, only the head moves (R76). -/
def cqHeadDoorbell : Prop :=
  ∀ (s : State) (p : Port) (qid head : Nat) (q : Cq), (getPort s p).en = true → (getPort s p).d3hot = false →
    nget (getPort s p).cqs qid = some q → head < q.size → q.held = [] → (getPort s p).abortWait = none →
    Completes (.cqHeadDoorbell p qid head) s fun t => nget (getPort t p).cqs qid = some { q with head } ∧ OnlyChanges [portPart p] s t

/-- A head doorbell that frees the slot a held completion waits for: it is posted (R118). -/
def cqHeadDoorbellPosts : Prop :=
  ∀ (s : State) (p : Port) (qid head : Nat) (q : Cq) (c : Compl), (getPort s p).en = true → (getPort s p).d3hot = false →
    nget (getPort s p).cqs qid = some q → head < q.size → q.held = [c] → (q.tail + 1) % q.size ≠ head →
    (getPort s p).abortWait = none →
    Completes (.cqHeadDoorbell p qid head) s fun t => (∃ e, nget (getPort t p).cqs qid = some e ∧ e.held = [] ∧ e.head = head ∧
        e.tail = (q.tail + 1) % q.size) ∧
      ∃ l c', t.out = s.out ++ l ∧ Out.completion qid q.phase c' ∈ l ∧ c'.cid = c.cid ∧ c'.qid = c.qid ∧ c'.st = c.st

/-- The one command that waits at acceptance, and meets no condition of Table 4-4 there, is accepted, with the next fetch number,
once the tracker has room (R101). -/
def trackedCommandAccept : Prop :=
  ∀ (s : State) (id : Nat) (c : Cmd), nget s.srt.cmds id = some c → (s.srt.cmds.filter fun e => !e.2.accepted) = [(id, c)] → acceptFault (dropCmd s id) c = none →
    s.srt.quiesce = false → running s .srt = true → occCmds s < 16384 → occRanges s + (c.entries - 1) ≤ 32768 →
    nsorted none s.srt.cmds = true →
    Completes .trackedCommandAccept s fun t => nget t.srt.cmds s.srt.next = some { c with accepted := true } ∧
      t.srt.next = s.srt.next + 1 ∧ OnlyChanges [.srt, .regs] s t

/-- An admin command of an unsupported opcode completes with Invalid Command Opcode, a fused one with Invalid Field (R83). -/
def unsupportedOpcode : Prop :=
  ∀ (s : State) (q : Sqe) (opc : Nat) (fused : Bool), (if q.qid = 0 then canFetchAdm s q else canFetchIo s q) = true →
    cqReady s q = true →
    Completes (.unsupportedOpcode q opc fused) s fun t => Answered s t q (if fused then stInvalidField else stInvalidOpcode)

/-- A Flush of an attached namespace completes with success at once (R83). -/
def flush : Prop :=
  ∀ (s : State) (q : Sqe), canFetchIo s q = true → cqReady s q = true → 1 ≤ q.nsid → q.nsid ≤ 128 →
    (attachedNs s q).isSome = true → stateFault s q.nsid false = none →
    Completes (.flush q) s fun t => Answered s t q stOk ∧ t.srt.lastB = (q.port == .b) ∧ OnlyChanges [.out, .portA, .portB, .srt] s t

/-- The command was accepted into the sorting office, with the next fetch number, and its front end was the last one accepted
(R82, R101). -/
def Tracked (s t : State) (body : Instr) (q : Sqe) (modif : Bool) : Prop :=
  t.srt.next = s.srt.next + 1 ∧ t.srt.lastB = (q.port == .b) ∧ ∃ c, nget t.srt.cmds s.srt.next = some c ∧ c.body = body ∧ c.q = q ∧ c.modif = modif ∧ c.accepted = true

/-- What a command that names ranges needs to be accepted: it can be fetched, meets no condition of Table 4-4, and the tracker
has room for n ranges (R101). -/
def Fetches (s : State) (q : Sqe) (body : Instr) (modif : Bool) (n : Nat) : Prop :=
  canFetchIo s q = true ∧ ioFault s q body modif = none ∧ occCmds s < 16384 ∧ occRanges s + n ≤ 32768

/-- A Write is accepted as a modifying command (R32, R100, R101). -/
def write : Prop :=
  ∀ (s : State) (q : Sqe) (f : IoFields) (k : Nat), Fetches s q (.write q f k) true 1 →
    Completes (.write q f k) s fun t => Tracked s t (.write q f k) q true ∧ OnlyChanges [.regs, .portA, .portB, .srt] s t

/-- A Read is accepted as a reading command (R34, R100, R101). -/
def read : Prop :=
  ∀ (s : State) (q : Sqe) (f : IoFields) (lr : Bool), Fetches s q (.read q f lr) false 1 →
    Completes (.read q f lr) s fun t => Tracked s t (.read q f lr) q false ∧ OnlyChanges [.regs, .portA, .portB, .srt] s t

/-- A Compare is accepted as a reading command (R83, R100). -/
def compare : Prop :=
  ∀ (s : State) (q : Sqe) (f : IoFields) (l : List HostBlock), Fetches s q (.compare q f l) false 1 →
    Completes (.compare q f l) s fun t => Tracked s t (.compare q f l) q false ∧ OnlyChanges [.regs, .portA, .portB, .srt] s t

/-- A Write Zeroes is accepted as a modifying command (R83, R100). -/
def writeZeroes : Prop :=
  ∀ (s : State) (q : Sqe) (f : IoFields) (d : Bool), Fetches s q (.writeZeroes q f d) true 1 →
    Completes (.writeZeroes q f d) s fun t => Tracked s t (.writeZeroes q f d) q true ∧ OnlyChanges [.regs, .portA, .portB, .srt] s t

/-- A Verify is accepted as a reading command (R83, R100). -/
def verify : Prop :=
  ∀ (s : State) (q : Sqe) (f : IoFields), Fetches s q (.verify q f) false 1 →
    Completes (.verify q f) s fun t => Tracked s t (.verify q f) q false ∧ OnlyChanges [.regs, .portA, .portB, .srt] s t

/-- A Dataset Management with AD is accepted as a modifying command (R83, R100). -/
def datasetManagement : Prop :=
  ∀ (s : State) (q : Sqe) (l : List LetterRange), Fetches s q (.datasetManagement q l true) true l.length →
    Completes (.datasetManagement q l true) s fun t => Tracked s t (.datasetManagement q l true) q true ∧
      OnlyChanges [.regs, .portA, .portB, .srt] s t

/-- A command that meets a condition of Table 4-4 when it is fetched completes with it, unapplied (R113, R114). -/
def fetchFault : Prop :=
  ∀ (s : State) (q : Sqe) (f : IoFields) (st : Status) (lba : Nat), canFetchIo s q = true → cqReady s q = true →
    (∀ lr, ioFault s q (.read q f lr) false = some (st, lba) → Completes (.read q f lr) s fun t => Answered s t q st ∧ t.srt.cmds = s.srt.cmds) ∧
    (∀ k, ioFault s q (.write q f k) true = some (st, lba) → Completes (.write q f k) s fun t => Answered s t q st ∧ t.srt.cmds = s.srt.cmds)

/-- A Write's data arrives: the command holds it and its slots are allocated (R32 step 3, R137). Here before its release,
in a namespace without protection information. -/
def writeDataTransferDone : Prop :=
  ∀ (s : State) (id : Nat) (bs : List HostBlock) (c : Cmd) (n : Ns), getCmd s id = some c → c.accepted = true → c.dataIn = false →
    c.status = none → isWrite c.body = true → c.released = false → nsOf s c.q.nsid = some n → n.lbaf ≠ 2 →
    (∀ f, ioFields c.body = some f → writeRoom s { c with blocks := bs } n f = true) →
    Completes (.writeDataTransferDone id bs false false) s fun t =>
      ∃ d, getCmd t id = some d ∧ d.dataIn = true ∧ d.blocks = bs ∧ d.body = c.body ∧ d.released = false

/-- A transfer that fails at the host completes the Write with Data Transfer Error (Table 4-4). -/
def writeDataTransferFails : Prop :=
  ∀ (s : State) (id : Nat) (bs : List HostBlock) (c : Cmd), s.srt.cmds = [(id, c)] → c.accepted = true → c.dataIn = false →
    c.status = none → isWrite c.body = true → (nsOf s c.q.nsid).isSome = true → c.mute = false → cqReady s c.q = true →
    (∀ q, sqOf s c.q = some q → q.failStop = false ∧ q.deleting = none) → c.pins = [] →
    Completes (.writeDataTransferDone id bs true false) s fun t => Answered s t c.q stDataTransfer ∧ t.srt.cmds = []

/-- A Write whose data has not arrived is released once it is ordered: RELEASED is all that changes of it (R107). -/
def commandRelease : Prop :=
  ∀ (s : State) (id : Nat) (q : Sqe) (f : IoFields) (k : Nat) (c : Cmd) (n : Ns), getCmd s id = some c → c.body = .write q f k →
    releasable s id c = true → nsOf s c.q.nsid = some n → n.lbaf ≠ 3 → c.dataIn = false → c.places = [] → s.phc.lost = [] → s.map.chip < 3 →
    corruptSeg s c.q.nsid ((List.range (f.nlb + 1)).map fun i => f.slba + i) = none →
    capacityOk s c.q.nsid (newLetters s c.q.nsid ((List.range (f.nlb + 1)).map fun i => f.slba + i))
      (newLetters s c.q.nsid ((List.range (f.nlb + 1)).map fun i => f.slba + i)) = true →
    Completes (.commandRelease id []) s fun t => ∃ d, getCmd t id = some d ∧ d.released = true ∧ d.body = c.body ∧ d.dataIn = false

/-- A batch: the groups that need not wait get their records, which go to the ring with one commit marker (R262). Here one group
of one record that fits. -/
def journalBatchStart : Prop :=
  ∀ (s : State) (g : Group) (rs : List JRec), running s .jrc = true → s.jrc.hold = false → s.chip.parked = false → running s .map = true →
    s.jrc.reqs = [g] → batchDue s = true → queuedBytes s.jrc ≤ 49152 →
    groupWaits s g = false → decideAll s g.owner (projected s) g.wants = rs →
    1 ≤ (rs.flatMap fun r => r.words s.jrc.gen).length → (rs.flatMap fun r => r.words s.jrc.gen).length ≤ 1000 →
    s.jrc.head + 16384 ≤ Config.ringBytes → s.jrc.live + 16384 ≤ Config.ringBytes → 16384 ≤ s.jrc.tokens →
    Completes .journalBatchStart s fun t => t.jrc.reqs = [] ∧ t.jrc.gseq = s.jrc.gseq + 1 ∧
      t.jrc.batches = s.jrc.batches ++ [{ gseq := s.jrc.gseq + 1, groups := [{ g with recs := rs }] }] ∧
      t.jrc.tokens + 16 * ((rs.flatMap fun r => r.words s.jrc.gen).length + 1) = s.jrc.tokens

/-- The commit marker of the oldest batch is durable: its groups are applied to the map (R263). Here a batch of one group that
maps one parcel, with nothing else under way. -/
def commitAck : Prop :=
  ∀ (s : State) (b : Batch) (rest : List Batch) (g : Group) (nsid parcel ppa : Nat) (n : Ns), Calm s → s.flash.ops = [] →
    s.jrc.batches = b :: rest → b.groups = [g] → g.owner = .other → g.recs = [.parcel nsid parcel none (.ptr ppa)] →
    s.jrc.applyQ = [] → s.phc.lost = [] → nsOf s nsid = some n → s.prog.kind ≠ 2 →
    Completes (.commitAck []) s fun t => t.jrc.batches = rest ∧ t.jrc.acked = b.gseq ∧ entryOf t.map.tab nsid parcel = .ptr ppa

/-- A tracker fault quiesces the sorting office and is reported (R126). -/
def trackerFault : Prop :=
  ∀ (s : State), s.srt.quiesce = false → active s .srt = true → s.srt.cmds = [] → s.chip.held = false →
    Completes .trackerFault s fun t => t.srt.quiesce = true ∧ raised t 90 = true ∧ bitOf (rd t (Reg.sts .srt)) 17 = true ∧
      bitOf (rd t (Reg.sts .srt)) 18 = true

/-- A command that waits for its release when the fault is found completes with Internal Error, and leaves the tracker (R126). -/
def trackerFaultEnds : Prop :=
  ∀ (s : State) (id : Nat) (c : Cmd), s.srt.quiesce = false → active s .srt = true → s.srt.cmds = [(id, c)] → c.accepted = true →
    0 < c.entries → c.released = false → c.status = none → c.mute = false → c.pins = [] → cqReady s c.q = true →
    (∀ x, sqOf s c.q = some x → x.failStop = false ∧ x.deleting = none) →
    Completes .trackerFault s fun t => Answered s t c.q stTracker ∧ t.srt.cmds = [] ∧ t.srt.quiesce = true

/-- The tracker is initialised again once its released commands have ended, and fetching resumes (R126). -/
def trackerReinit : Prop :=
  ∀ (s : State), s.srt.quiesce = true → (s.srt.cmds.any fun c => c.2.accepted && 0 < c.2.entries && c.2.released) = false →
    Completes .trackerReinit s fun t => t.srt.quiesce = false ∧ t.srt.cmds = s.srt.cmds ∧ bitOf (rd t (Reg.sts .srt)) 18 = false ∧
      OnlyChanges [.srt, .regs] s t

/-- A command that waits past WAITLIM is counted and reported (R128). -/
def waitlimExceeded : Prop :=
  ∀ (s : State) (id : Nat) (c : Cmd), getCmd s id = some c → rdField s (Reg.ctl .srt) 11 4 ≠ 0 → c.accepted = true →
    c.released = false → 0 < c.entries → c.status = none → s.chip.held = false →
    Completes (.waitlimExceeded id) s fun t => raised t 95 = true ∧
      rd t 0x2001C % 2 ^ 32 = min (rd s 0x2001C % 2 ^ 32 + 1) (2 ^ 32 - 1) ∧ t.srt = s.srt

/-- SRT_CMD.HWM_CLR sets SRT_HWM to the present occupancy (Table 4-9). -/
def srtHwmClr : Prop :=
  ∀ (s : State) (i : Initiator) (v : Word), coreAccess s i .srt 0 = true →
    Completes (.srtHwmClr i v) s fun t => rd t 0x20014 = (occRanges s * 2 ^ 16 + occCmds s) % 2 ^ 64 ∧
      (∀ a, a ≠ 0x20014 → rd t a = rd s a) ∧ OnlyChanges [.regs] s t

/-- An Abort of a command that is not found completes with success and bit 0 set, and is counted (R116 to R118). -/
def abort : Prop :=
  ∀ (s : State) (q : Sqe) (sqid cid : Nat), canFetchAdm s q = true → cqReady s q = true → abortPending (getPort s q.port) = false →
    (∀ c ∈ s.srt.cmds, ¬ (c.2.q.port = q.port ∧ c.2.q.qid = sqid ∧ c.2.q.cid = cid)) → s.chip.held = false →
    Completes (.abort q sqid cid) s fun t => AnsweredWith s t q stOk 1 ∧ raised t 94 = true ∧
      t.srt = { s.srt with lastB := q.port == .b } ∧ (getPort t q.port).abortOut = none ∧
      rd t 0x20060 % 2 ^ 16 = min (rd s 0x20060 % 2 ^ 16 + 1) 65535

/-- An Abort of a reading command that is still in the tracker: the target completes with Command Abort Requested, and leaves
the tracker (R117, R118). -/
def abortCaught : Prop :=
  ∀ (s : State) (q : Sqe) (id : Nat) (c : Cmd), canFetchAdm s q = true → cqReady s q = true → abortPending (getPort s q.port) = false →
    s.srt.cmds = [(id, c)] → c.q.port = q.port → c.q.qid ≠ 0 → c.mute = false → c.modif = false → c.status = none → c.pins = [] →
    cqReady s c.q = true → (∀ x, sqOf s c.q = some x → x.failStop = false ∧ x.deleting = none) →
    Completes (.abort q c.q.qid c.q.cid) s fun t => Answered s t c.q stAbortReq ∧ t.srt.cmds = []

/-- What arbitration picks has an entry to fetch, and is neither frozen nor being deleted; while TRK_FULL is 1 it is the admin
queue (R81, R101, R122). -/
def arbitrationPicks : Prop :=
  ∀ (s : State) (p : Port) (qid : Nat) (a : Arb), nextFetch s p = some (qid, a) →
    (∃ q, (qid, q) ∈ (getPort s p).sqs ∧ q.head ≠ q.tail ∧ q.frozen = false ∧ q.deleting = none) ∧ (trkFull s = true → qid = 0)

/-- In weighted round robin a new turn goes to the admin queue first, then to a queue of the urgent class (R81). -/
def weightedClassesFirst : Prop :=
  ∀ (s : State) (p : Port) (qid : Nat) (a : Arb), nextFetch s p = some (qid, a) → (getPort s p).ams = 1 →
    (getPort s p).arb.cur = none →
    let qs := eligible (getPort s p) (!admWaits s p) (!trkFull s)
    (0 ∈ qs → qid = 0) ∧ ((∃ u ∈ qs, prioOf (getPort s p) u = 0) → 0 ∉ qs → prioOf (getPort s p) qid = 0)

/-- A turn lasts 2^AB commands, without limit where AB is 7: while it has commands left and its queue has entries, that queue is
picked again (R81). -/
def turnGoesOn : Prop :=
  ∀ (s : State) (p : Port) (qid : Nat), (getPort s p).arb.cur = some qid →
    qid ∈ eligible (getPort s p) (!admWaits s p) (!trkFull s) →
    (0 < (getPort s p).arb.left ∨ ngetD (getPort s p).feat 0x01 0 % 8 = 7) → ∃ a, nextFetch s p = some (qid, a) ∧ a.cur = some qid ∧
      a.left = (getPort s p).arb.left - 1

/-- Where both front ends have a command ready, the one accepted, from its admin queue or another, is of the port that was not
accepted last (R82). -/
def frontEndsAlternate : Prop :=
  ∀ (s : State) (q : Sqe), (canFetchIo s q = true ∨ canFetchAdm s q = true) → portHasCmd s (otherPort q.port) = true →
    s.srt.lastB = (q.port == .a)

/-! ## Administrative commands (R77 to R94, R353 to R356, R410 to R426) -/

/-- An admin command can be fetched, and its completion queue takes a completion. -/
def Adm (s : State) (q : Sqe) : Prop := canFetchAdm s q = true ∧ cqReady s q = true

/-- The same outside a sanitize and its failure mode. -/
def AdmClean (s : State) (q : Sqe) : Prop := Adm s q ∧ sanitizeOn s = false ∧ sanFailed s = false

/-- The same for a vendor command that names no namespace. -/
def Vendor (s : State) (q : Sqe) : Prop := Adm s q ∧ q.nsid = 0

/-- Create I/O Completion Queue (R80). -/
def createIoCq : Prop :=
  ∀ (s : State) (q : Sqe) (qid size vector : Nat) (ien : Bool), Adm s q → 1 ≤ qid → qid ≤ 256 → nget (getPort s q.port).cqs qid = none →
    2 ≤ size → size ≤ 65536 → vector < 128 → (∀ x, nget (getPort s q.port).sqs 0 = some x → x.cqid ≠ qid) →
    Completes (.createIoCq q qid size vector ien true true) s fun t => Answered s t q stOk ∧
      nget (getPort t q.port).cqs qid = some { size, vector, ien }

/-- Create I/O Submission Queue (R80, R120). -/
def createIoSq : Prop :=
  ∀ (s : State) (q : Sqe) (qid size cqid prio fsm : Nat), Adm s q → 1 ≤ qid → qid ≤ 256 → nget (getPort s q.port).sqs qid = none →
    1 ≤ cqid → cqid ≤ 256 → (nget (getPort s q.port).cqs cqid).isSome = true → 2 ≤ size → size ≤ 65536 → fsm < 3 →
    Completes (.createIoSq q qid size cqid prio fsm true true) s fun t => Answered s t q stOk ∧
      ∃ x, nget (getPort t q.port).sqs qid = some x ∧ x.size = size ∧ x.cqid = cqid ∧ x.prio = prio ∧ x.head = 0 ∧ x.tail = 0 ∧
        x.frozen = false ∧ (fsm = 1 → x.failStop = true) ∧ (fsm = 2 → x.failStop = false)

/-- Delete I/O Submission Queue without outstanding commands: the queue is gone (R124). -/
def deleteIoSq : Prop :=
  ∀ (s : State) (q : Sqe) (qid : Nat) (x : Sq), Adm s q → qid ≠ 0 → nget (getPort s q.port).sqs qid = some x → x.deleting = none →
    nsorted none (getPort s q.port).sqs = true → (∀ c ∈ s.srt.cmds, ¬ (c.2.q.port = q.port ∧ c.2.q.qid = qid)) →
    Completes (.deleteIoSq q qid) s fun t => Answered s t q stOk ∧ nget (getPort t q.port).sqs qid = none

/-- Delete I/O Completion Queue with no submission queue on it (R80). -/
def deleteIoCq : Prop :=
  ∀ (s : State) (q : Sqe) (qid : Nat), Adm s q → qid ≠ 0 → (nget (getPort s q.port).cqs qid).isSome = true →
    (∀ e ∈ (getPort s q.port).sqs, e.2.cqid ≠ qid) → nsorted none (getPort s q.port).cqs = true →
    Completes (.deleteIoCq q qid) s fun t => Answered s t q stOk ∧ nget (getPort t q.port).cqs qid = none

/-- Identify Namespace of a namespace attached to the controller: its NSZE, NCAP and NUSE, its formats, its FLBAS and DPS, and its
ANA group (R84 to R88, R90, Table 3-7). -/
def identify : Prop :=
  ∀ (s : State) (q : Sqe) (n : Ns) (cntid : Nat), Adm s q → 1 ≤ q.nsid → q.nsid ≤ 128 → nsOf s q.nsid = some n →
    n.attached.contains q.port = true →
    Completes (.identify q 0 cntid) s fun t => Answered s t q stOk ∧ RepliedPage s t q 4096 [(0, 8, n.nsze), (8, 8, n.ncap), (16, 8, n.mapped),
      (25, 1, 3), (26, 1, n.lbaf + if n.ext then 16 else 0), (29, 1, if n.lbaf = 2 then n.piType + if n.pil then 8 else 0 else 0), (92, 4, q.nsid)]

/-- Identify Controller, and the active namespaces above an NSID (R78, R84). -/
def identifyController : Prop :=
  ∀ (s : State) (q : Sqe) (cntid : Nat), Adm s q →
    (Completes (.identify q 1 cntid) s fun t => Answered s t q stOk ∧
      RepliedPage s t q 4096 [(77, 1, 8), (78, 2, q.port.num + 1), (80, 4, 0x00020000), (516, 4, 128)]) ∧
    (Completes (.identify q 2 cntid) s fun t => Answered s t q stOk ∧
      Replied s t q (pageOf 4096 (nsidList ((s.map.tab.ns.filter fun e => e.2.attached.contains q.port).map fun e => e.1) q.nsid)))

/-- The SMART / Health page: temperature, spare, threshold and Percentage Used (R93, R160). -/
def getLogPage : Prop :=
  ∀ (s : State) (q : Sqe) (lsp : Nat), Adm s q →
    Completes (.getLogPage q 2 lsp 0 true) s fun t => Answered s t q stOk ∧ RepliedPage s t q 512 [(0, 1, critWarning s q.port),
      (1, 2, kelvin16 s.thm.temp), (3, 1, spareNow s), (4, 1, spareThr s), (5, 1, percentUsed s)]

/-- A page from an offset on: what is returned is the page without the bytes before it (R93, R427). Here the Capacity and Shedding
log. -/
def getLogPageFrom : Prop :=
  ∀ (s : State) (q : Sqe) (lsp lpo : Nat), Adm s q → lpo % 4 = 0 → lpo ≤ 4224 →
    ∃ b : List Byte, (Completes (.capacityAndSheddingLog q lsp 0 true) s fun t => Replied s t q b) ∧
      Completes (.capacityAndSheddingLog q lsp lpo true) s fun t => Answered s t q stOk ∧ Replied s t q (b.drop lpo)

/-- A page offset that is not a multiple of 4 is refused, for any page that exists (R93). -/
def getLogPageOffset : Prop :=
  ∀ (s : State) (q : Sqe) (lsp lpo : Nat) (rae : Bool), Adm s q → lpo % 4 ≠ 0 →
    (Completes (.getLogPage q 2 lsp lpo rae) s fun t => Answered s t q stInvalidField) ∧
    (Completes (.ringStatusLog q lsp lpo rae) s fun t => Answered s t q stInvalidField)

/-- The Dead-Letter Office log: the last DSEQ, the overflow count and the limit stand in its header (R292). -/
def deadLetterOfficeLog : Prop :=
  ∀ (s : State) (q : Sqe), Adm s q →
    Completes (.deadLetterOfficeLog q 0 0 true) s fun t => Answered s t q stOk ∧ RepliedPage s t q (64 + 32 * t.pat.dlo.length)
      [(0, 8, t.pat.lastDseq), (8, 8, t.pat.dloChg), (16, 4, t.pat.dlo.length), (32, 4, t.pat.dloOvf), (36, 4, 65536)]

/-- The Recorder Export log: NEXT_SEQ and the oldest SEQ held, as the recorder stands when the command was taken (R428). -/
def recorderExportLog : Prop :=
  ∀ (s : State) (q : Sqe) (lsp : Nat), Adm s q →
    Completes (.recorderExportLog q lsp 0 true) s fun t => Answered s t q stOk ∧ RepliedPage s t q (4096 + if lsp % 2 = 1 then 1048576 else 4194304)
      [(0, 8, t.evr.next), (8, 8, (lowestSeq t.evr.circ).getD t.evr.next)]

/-- The Ring Status log (Table 13-9). -/
def ringStatusLog : Prop :=
  ∀ (s : State) (q : Sqe) (lsp : Nat), Adm s q →
    Completes (.ringStatusLog q lsp 0 true) s fun t => Answered s t q stOk ∧ RepliedPage s t q 128 [(0, 1, s.ring.st.code),
      (1, 1, s.ring.addr.getD 0xFF), (2, 1, s.ring.topo), (3, 1, s.ring.role), (4, 1, s.ring.n), (8, 8, s.ring.gid.getD 0)]

/-- The Media Health Detail log: the chip's state and the ways enabled (Table 17-14). -/
def mediaHealthDetailLog : Prop :=
  ∀ (s : State) (q : Sqe) (lsp : Nat), Adm s q →
    Completes (.mediaHealthDetailLog q lsp 0 true) s fun t => Answered s t q stOk ∧ RepliedPage s t q 512 [(0, 1, s.map.chip),
      (2, 1, enabledWays s), (88, 2, meanErases s), (90, 2, maxErases s), (92, 2, s.flash.die.rated)]

/-- The Capacity and Shedding log: U, R, C, M and S (R430). -/
def capacityAndSheddingLog : Prop :=
  ∀ (s : State) (q : Sqe) (lsp : Nat), Adm s q →
    Completes (.capacityAndSheddingLog q lsp 0 true) s fun t => Answered s t q stOk ∧ RepliedPage s t q 4224 [(0, 8, usable s),
      (8, 8, reserveR s), (16, 8, commitC s), (24, 8, mappedM s), (32, 8, s64 (spare s)), (72, 1, s.map.chip)]

/-- Set Features of arbitration (0x01): the controller's value is Dword 11, and nothing else of either controller's features
changes. A feature of Table 3-9 that is not saveable, set with SV 1, is refused (R431). -/
def setFeatures : Prop :=
  ∀ (s : State) (q : Sqe) (v : FeatVal), Adm s q →
    (Completes (.setFeatures q 1 false v) s fun t => Answered s t q stOk ∧ nget (getPort t q.port).feat 1 = some v.cdw11 ∧
      (∀ k, k ≠ 1 → nget (getPort t q.port).feat k = nget (getPort s q.port).feat k) ∧
      ∀ p, p ≠ q.port → (getPort t p).feat = (getPort s p).feat) ∧
    (Completes (.setFeatures q 1 true v) s fun t => Answered s t q stNotSaveable)

/-- Get Features of the Patrol Period: the current value, the default of 14 and the saved one (R431, R394). -/
def getFeatures : Prop :=
  ∀ (s : State) (q : Sqe) (w : Nat), Adm s q → q.qid = 0 →
    (Completes (.getFeatures q 0xD2 0 w) s fun t => AnsweredWith s t q stOk (rdField s (pat 0x10) 6 0)) ∧
    (Completes (.getFeatures q 0xD2 1 w) s fun t => AnsweredWith s t q stOk 14) ∧
    (Completes (.getFeatures q 0xD2 2 w) s fun t => AnsweredWith s t q stOk (s.pat.saved.getD 14))

/-- Power Management: PS0 to PS2 at once, PS3 and PS4 wait for the next idle moment (R402, R407). -/
def setPowerManagement : Prop :=
  ∀ (s : State) (q : Sqe) (ps : Nat), Adm s q → ps ≤ 4 →
    Completes (.setPowerManagement q ps false) s fun t => Answered s t q stOk ∧
      (ps ≤ 2 → t.pwr.ps = ps ∧ t.pwr.want = none) ∧ (3 ≤ ps → t.pwr.want = some ps ∧ t.pwr.ps = s.pwr.ps)

/-- PLM Window: the current window alone succeeds (R92). -/
def setPlmWindow : Prop :=
  ∀ (s : State) (q : Sqe), Adm s q →
    (Completes (.setPlmWindow q (if s.ring.inWin then 2 else 1)) s fun t => Answered s t q stOk ∧ t.ring = s.ring) ∧
    (∀ w, w ≠ (if s.ring.inWin then 2 else 1) → Completes (.setPlmWindow q w) s fun t => Answered s t q stInvalidField ∧ t.ring = s.ring)

/-- Latency Tolerance: one value for both controllers (R431). -/
def setLatencyTolerance : Prop :=
  ∀ (s : State) (q : Sqe) (us : Nat), Adm s q →
    Completes (.setLatencyTolerance q us false) s fun t => Answered s t q stOk ∧ nget t.portA.feat 0xD0 = some us ∧
      nget t.portB.feat 0xD0 = some us

/-- Fail-Stop Default: 0 or 1 for the controller (R431, R120). -/
def setFailStopDefault : Prop :=
  ∀ (s : State) (q : Sqe) (v : Nat), Adm s q → v ≤ 1 →
    Completes (.setFailStopDefault q v false) s fun t => Answered s t q stOk ∧ failStopDefault t q.port = v

/-- Patrol Period: 1 to 90 days into PAT_PERIOD, and with SV 1 kept (R431). -/
def setPatrolPeriod : Prop :=
  ∀ (s : State) (q : Sqe) (d : Nat) (sv : Bool), Adm s q → 1 ≤ d → d ≤ 90 →
    Completes (.setPatrolPeriod q d sv) s fun t => Answered s t q stOk ∧ rdField t (pat 0x10) 6 0 = d ∧
      t.pat.saved = (if sv then some d else s.pat.saved)

/-- An Asynchronous Event Request with no event held waits; the seventeenth is refused (R94). -/
def asyncEventRequest : Prop :=
  ∀ (s : State) (q : Sqe), Adm s q →
    ((getPort s q.port).aerOut.length < 16 → (getPort s q.port).aerHeld = [] →
      Completes (.asyncEventRequest q) s fun t => (getPort t q.port).aerOut = (getPort s q.port).aerOut ++ [q.cid]) ∧
    (16 ≤ (getPort s q.port).aerOut.length → Completes (.asyncEventRequest q) s fun t => Answered s t q stAerLimit)

/-- Namespace Create: the lowest free NSID gets its key, and one NSOP group is asked for the command (R85, R86, R155). -/
def namespaceCreate : Prop :=
  ∀ (s : State) (q : Sqe) (n lbaf piType id : Nat) (pil ext : Bool), AdmClean s q → n % 16 = 0 → badFormat lbaf piType = false →
    s.map.chip ≠ 3 → s.map.chip ≠ 4 → capacityFits s (n + hiddenLetters n lbaf) (segCount n lbaf) 0 = true → freeNsid s = some id →
    Completes (.namespaceCreate q n n lbaf piType pil ext true) s fun t =>
      (∃ c, nget t.srt.cmds s.srt.next = some c ∧ c.body = .namespaceCreate q n n lbaf piType pil ext true ∧ c.applied = id ∧ c.q = q) ∧
      (nget t.cry.keys id).isSome = true ∧
      ∃ k, k.nsid = id ∧ t.jrc.reqs = s.jrc.reqs ++ [{ owner := .cmd s.srt.next, wants := [.nsop 1 id (n / 16 + lbaf * 2 ^ 40 +
        (if piType = 3 then 2 ^ 44 else 0) + (if pil then 2 ^ 45 else 0) + (if ext then 2 ^ 46 else 0)) [k]] }]

/-- Namespace Create without entropy fails with Internal Error, and makes no key (R369). -/
def namespaceCreateNoEntropy : Prop :=
  ∀ (s : State) (q : Sqe) (n lbaf piType id : Nat) (pil ext : Bool), AdmClean s q → n % 16 = 0 → badFormat lbaf piType = false →
    s.map.chip ≠ 3 → s.map.chip ≠ 4 → capacityFits s (n + hiddenLetters n lbaf) (segCount n lbaf) 0 = true → freeNsid s = some id →
    Completes (.namespaceCreate q n n lbaf piType pil ext false) s fun t => Answered s t q stInternal ∧ t.cry = s.cry ∧ t.jrc = s.jrc

/-- Namespace Delete of one namespace is ordered over every letter of it (Table 5-17, R85). -/
def namespaceDelete : Prop :=
  ∀ (s : State) (q : Sqe) (n : Ns), AdmClean s q → 1 ≤ q.nsid → q.nsid ≤ 128 → nsOf s q.nsid = some n → s.map.chip ≠ 4 →
    formatOn s q.nsid = false → occCmds s < 16384 → occRanges s + 1 ≤ 32768 →
    Completes (.namespaceDelete q) s fun t => Tracked s t (.namespaceDelete q) q true

/-- Namespace Attachment: attaching to the controller adds the port, and detaching takes it away (R84, R94). -/
def namespaceAttachment : Prop :=
  ∀ (s : State) (q : Sqe) (n : Ns), AdmClean s q → 1 ≤ q.nsid → q.nsid ≤ 128 → nsOf s q.nsid = some n →
    (getPort s q.port).aerOut = [] →
    (Port.a ∉ n.attached → Completes (.namespaceAttachment q false [1]) s fun t => Answered s t q stOk ∧
      nsOf t q.nsid = some { n with attached := n.attached ++ [.a] }) ∧
    (Port.a ∈ n.attached → Completes (.namespaceAttachment q true [1]) s fun t => Answered s t q stOk ∧
      nsOf t q.nsid = some { n with attached := n.attached.filter fun p => p != .a })

/-- Directive Send, Identify: Streams are enabled for an attached namespace (R91). -/
def directiveSend : Prop :=
  ∀ (s : State) (q : Sqe) (dspec : Nat), AdmClean s q → (attachedNs s q).isSome = true →
    Completes (.directiveSend q 0 1 dspec 0x101) s fun t => Answered s t q stOk ∧ q.nsid ∈ (getPort t q.port).dirEn

/-- Directive Receive, Allocate Resources: what is asked for, at most what is left of 16, in Dword 0 (R91). -/
def directiveReceive : Prop :=
  ∀ (s : State) (q : Sqe) (n : Nat), AdmClean s q → q.qid = 0 → (attachedNs s q).isSome = true → q.nsid ∈ (getPort s q.port).dirEn →
    1 ≤ n → n ≤ 16 - streamsHeld s → n < 65536 →
    Completes (.directiveReceive q 1 3 n) s fun t => AnsweredWith s t q stOk n ∧
      (getPort t q.port).dirRes = (getPort s q.port).dirRes ++ [(q.nsid, n)]

/-- The download buffer of a controller. -/
def dlOf (s : State) (p : Port) : NMap Byte := match p with | .a => s.sec.dlA | .b => s.sec.dlB

/-- A firmware download writes its bytes into the controller's buffer; one at offset 0 starts it anew (R353). -/
def firmwareImageDownload : Prop :=
  ∀ (s : State) (q : Sqe) (numd ofst : Nat) (data : List Byte), AdmClean s q → 4 * (ofst + numd) ≤ 16777216 → data.length = 4 * numd →
    Completes (.firmwareImageDownload q numd ofst data) s fun t => Answered s t q stOk ∧
      (∀ k, k < data.length → nget (dlOf t q.port) (4 * ofst + k) = data[k]?) ∧
      (∀ a, (a < 4 * ofst ∨ 4 * ofst + data.length ≤ a) →
        nget (dlOf t q.port) a = if ofst = 0 then none else nget (dlOf s q.port) a) ∧
      ∀ p, p ≠ q.port → dlOf t p = dlOf s p

/-- What a Firmware Commit that writes a slot needs (R354, R355); a boot record that names the running slot is written first (R443). -/
def CommitsImage (s : State) (q : Sqe) (fs : Nat) (img : List Byte) : Prop :=
  AdmClean s q ∧ fs ≤ 2 ∧ s.sec.commit = none ∧ s.boot.op = none ∧ commitSlot s fs ≠ runningSlot s ∧ bufferImage s q.port = some img ∧
    accept (ownRecord s) img = 0

/-- The accepted image is being written to its slot, for a commit of this action. -/
def Committing (s t : State) (q : Sqe) (ca slot : Nat) (img : List Byte) : Prop :=
  t.sec.commit = some { port := q.port, qid := q.qid, cid := q.cid, ca, slot, img, begun := true } ∧
    t.boot.op = some { op := 5, addr := slotOff slot, data := img, commit := true } ∧ t.boot.nor = (ownRecord s).boot.nor

/-- A commit that replaces the slot's image starts the write of the accepted image (R354). -/
def firmwareCommitReplace : Prop :=
  ∀ (s : State) (q : Sqe) (fs : Nat) (img : List Byte), CommitsImage s q fs img →
    Completes (.firmwareCommitReplace q fs false) s fun t => Committing s t q 0 (commitSlot s fs) img

/-- The same with the slot named for the next boot (R354). -/
def firmwareCommitReplaceNext : Prop :=
  ∀ (s : State) (q : Sqe) (fs : Nat) (img : List Byte), CommitsImage s q fs img →
    Completes (.firmwareCommitReplaceNext q fs false) s fun t => Committing s t q 1 (commitSlot s fs) img

/-- The same with activation at once (R354). -/
def firmwareCommitActivateNow : Prop :=
  ∀ (s : State) (q : Sqe) (fs : Nat) (img : List Byte), CommitsImage s q fs img → anyFormat s = false →
    Completes (.firmwareCommitActivateNow q fs false) s fun t => Committing s t q 3 (commitSlot s fs) img

/-- An image that acceptance refuses is not written: the commit completes with its status (R352, R354). -/
def firmwareCommitRefused : Prop :=
  ∀ (s : State) (q : Sqe) (fs : Nat) (img : List Byte), AdmClean s q → fs ≤ 2 → s.sec.commit = none →
    commitSlot s fs ≠ runningSlot s → bufferImage s q.port = some img → accept (ownRecord s) img ≠ 0 →
    Completes (.firmwareCommitReplace q fs false) s fun t => Answered s t q (acceptStatus (accept (ownRecord s) img)) ∧
      t.boot = (ownRecord s).boot ∧ t.sec = s.sec

/-- Naming a slot for the next boot: its image is accepted, and the boot record copy not in force is written (R354, R442). -/
def firmwareCommitActivateSlot : Prop :=
  ∀ (s : State) (q : Sqe) (fs : Nat), AdmClean s q → fs ≤ 2 → s.sec.commit = none → accept (ownRecord s) (slotImage (ownRecord s) (commitSlot s fs)) = 0 →
    Completes (.firmwareCommitActivateSlot q fs false) s fun t => Answered s t q stOk ∧ t.sec = s.sec ∧
      t.boot.nor = (nameSlot (ownRecord s) (commitSlot s fs)).boot.nor ∧ t.boot.op = s.boot.op

/-- A Format NVM of one namespace is ordered over every letter of it (R413, Table 17-4). -/
def formatNvm : Prop :=
  ∀ (s : State) (q : Sqe) (n : Ns) (lbaf ses piType : Nat) (pil mset ok : Bool), AdmClean s q → 1 ≤ q.nsid → q.nsid ≤ 128 →
    nsOf s q.nsid = some n → badFormat lbaf piType = false → ses < 3 → resizeFits s [q.nsid] lbaf = true → s.map.chip ≠ 3 →
    s.map.chip ≠ 4 → anyFormat s = false → occCmds s < 16384 → occRanges s + 1 ≤ 32768 →
    Completes (.formatNvm q lbaf ses piType pil mset ok) s fun t => Tracked s t (.formatNvm q lbaf ses piType pil mset ok) q true

/-- What a sanitize needs to be accepted (Table 17-6). -/
def Sanitizes (s : State) (q : Sqe) : Prop :=
  Adm s q ∧ s.map.chip ≠ 3 ∧ s.map.chip ≠ 4 ∧ sanitizeOn s = false ∧ anyFormat s = false ∧ occCmds s < 16384 ∧
    occRanges s + s.map.tab.ns.length ≤ 32768

/-- Sanitize by block erase is accepted as a modifying command (R415). -/
def sanitizeBlockErase : Prop :=
  ∀ (s : State) (q : Sqe) (ause ok : Bool), Sanitizes s q →
    Completes (.sanitizeBlockErase q ause false ok) s fun t => Tracked s t (.sanitizeBlockErase q ause false ok) q true

/-- Sanitize by crypto erase is accepted as a modifying command (R415). -/
def sanitizeCryptoErase : Prop :=
  ∀ (s : State) (q : Sqe) (ause ok : Bool), Sanitizes s q →
    Completes (.sanitizeCryptoErase q ause false ok) s fun t => Tracked s t (.sanitizeCryptoErase q ause false ok) q true

/-- Exit Failure Mode ends the failure mode (R418, R419). -/
def sanitizeExitFailureMode : Prop :=
  ∀ (s : State) (q : Sqe), Adm s q → sanFailed s = true → sanitizeOn s = false → anyFormat s = false →
    Completes (.sanitizeExitFailureMode q false) s fun t => Answered s t q stOk ∧ sanFailed t = false

/-- A round's erases have ended: the next round begins, which may wait for pins (R108), and after the last the final phase (R416). -/
def sanitizeRoundDone : Prop :=
  ∀ (s : State), s.prog.stage = 4 → s.prog.pinned = false → (s.flash.ops.any fun o => o.2.sysOp) = false → s.map.chip ≠ 4 → s.prog.kind = 2 →
    (s.prog.cursor + 1 < s.prog.rounds → Completes .sanitizeRoundDone s fun t => ∃ w,
      t.prog = { s.prog with cursor := s.prog.cursor + 1, pinned := w }) ∧
    (s.prog.rounds ≤ s.prog.cursor + 1 → Completes .sanitizeRoundDone s fun t => t.prog.phase = 4 ∧ t.prog.stage = 5 ∧
      t.prog.opseq = s.prog.opseq + 1 ∧ OnlyChanges [.prog, .jrc] s t)

/-- The progress block is written again while the erase rounds last (R416). -/
def sanitizeProgressWrite : Prop :=
  ∀ (s : State), s.prog.stage = 4 →
    Completes .sanitizeProgressWrite s fun t => t.prog.saved = s.prog.cursor ∧ t.prog.opseq = s.prog.opseq + 1 ∧
      (s.prog.pinned = false → OnlyChanges [.prog, .jrc] s t)

/-- Security Send hands an SPDM request to the responder; the response waits for a Security Receive (R365). -/
def securitySend : Prop :=
  ∀ (s : State) (q : Sqe), AdmClean s q → s.chip.held = false →
    Completes (.securitySend q 0xE8 .getVersion) s fun t => Answered s t q stOk ∧ (connOf t (.nvme q.port)).version = true ∧
      ∃ r, (getPort t q.port).secRsp = (getPort s q.port).secRsp ++ [r]

/-- Security Receive returns the oldest response that waits (R365). -/
def securityReceive : Prop :=
  ∀ (s : State) (q : Sqe) (r : List Byte) (l : List (List Byte)), AdmClean s q → (getPort s q.port).secRsp = r :: l →
    Completes (.securityReceive q 0xE8) s fun t => Answered s t q stOk ∧ Replied s t q r ∧
      (getPort t q.port).secRsp = l

/-- Shed Capacity over ranges is ordered over them (R410, Table 17-8). -/
def shedCapacityRanges : Prop :=
  ∀ (s : State) (q : Sqe) (n : Ns) (rs : List LetterRange), Adm s q → nsOf s q.nsid = some n → rs ≠ [] → rs.length ≤ 256 →
    (∀ r ∈ rs, r.slba % 16 = 0 ∧ r.nlb % 16 = 0 ∧ r.nlb ≠ 0 ∧ r.slba + r.nlb ≤ n.nsze) → rangesShare rs = false →
    stateFault s q.nsid true = none → occCmds s < 16384 → occRanges s + rs.length ≤ 32768 →
    Completes (.shedCapacityRanges q rs) s fun t => Tracked s t (.shedCapacityRanges q rs) q true

/-- Shed Capacity of unallocated letters (R410, Table 17-8). -/
def shedCapacityUnallocated : Prop :=
  ∀ (s : State) (q : Sqe) (l : Nat), Vendor s q → l ≠ 0 → l % 16 = 0 → ncapHeld s + l ≤ commitC s →
    stateFault s 0 true = none → occCmds s < 16384 → occRanges s ≤ 32768 →
    Completes (.shedCapacityUnallocated q l) s fun t => Tracked s t (.shedCapacityUnallocated q l) q true

/-- Resume Queue thaws a frozen queue, and answers the SQHD from which fetching resumes (R422). -/
def resumeQueue : Prop :=
  ∀ (s : State) (q : Sqe) (sqid : Nat) (x : Sq), Vendor s q → q.qid = 0 → sqid ≠ 0 → nget (getPort s q.port).sqs sqid = some x →
    x.frozen = true →
    Completes (.resumeQueue q sqid) s fun t => AnsweredWith s t q stOk x.head ∧
      nget (getPort t q.port).sqs sqid = some { x with frozen := false }

/-- Collection Schedule Set in a unit alone: the schedule is in force at once (R336, Table 17-9). -/
def collectionScheduleSet : Prop :=
  ∀ (s : State) (q : Sqe) (d : SchedDesc), Vendor s q → d.sseq = 0 → d.eff = 0 → 60 ≤ d.period → d.period ≤ 65535 → d.rsvd = 0 →
    (∀ a, a < 64 → (d.entry.getD a (0, 0)).1 + (d.entry.getD a (0, 0)).2 ≤ d.period) → ringOverlay s = false → s.ring.schedWait = none →
    s.clk.tb ≤ groupTime s → (getPort s q.port).aerOut = [] →
    Completes (.collectionScheduleSet q d) s fun t => Answered s t q stOk ∧ ∃ e, t.ring.sched = some e ∧ e.period = d.period ∧
      ∀ a, a < 64 → e.entry.getD a (0, 0) = d.entry.getD a (0, 0)

/-- Collection Schedule Get: the descriptor in force (R423). -/
def collectionScheduleGet : Prop :=
  ∀ (s : State) (q : Sqe) (d : SchedDesc), Vendor s q → s.ring.sched = some d →
    Completes (.collectionScheduleGet q) s fun t => Answered s t q stOk ∧ Replied s t q (schedBytes d)

/-- A schedule not installed in time: the waiting command completes with Ring Unavailable (R336). -/
def collectionScheduleTimeout : Prop :=
  ∀ (s : State) (p : Port) (cid : Nat) (d : SchedDesc), s.ring.schedWait = some (p, cid, d) →
    cqReady s { port := p, qid := 0, cid, nsid := 0 } = true →
    Completes .collectionScheduleTimeout s fun t => Answered s t { port := p, qid := 0, cid, nsid := 0 } stRingUnavailable ∧
      t.ring = { s.ring with schedWait := none }

/-- Scrub Range with no scrub running: it starts, and the command waits for its end (R424). -/
def scrubRange : Prop :=
  ∀ (s : State) (q : Sqe) (mem unit rate base len : Nat), Vendor s q → mem < 3 → unit ≤ 8 → rate ≤ 4000 → len ≠ 0 →
    scrubFits s mem base len = true → s.mem.scrubCmd = none → s.mem.scrub = none →
    Completes (.scrubRange q mem unit rate base len) s fun t => t.mem.scrubCmd = some s.srt.next ∧ t.mem.scrub.isSome = true ∧
      ∃ c, nget t.srt.cmds s.srt.next = some c ∧ c.q = q ∧ c.phase = 1

/-- Recorder Read of a length that is no multiple of 4096, or beyond 1 MiB, is refused; another is answered (R425). -/
def recorderRead : Prop :=
  ∀ (s : State) (q : Sqe) (start length : Nat) (found : Bool), Vendor s q →
    (length % 4096 = 0 → 4096 ≤ length → length ≤ 1048576 →
      Completes (.recorderRead q start length found) s fun t => Answered s t q stOk ∧
        ∃ size, RepliedPage s t q size [(16, 8, t.evr.next), (24, 8, (lowestSeq t.evr.circ).getD t.evr.next)]) ∧
    ((length % 4096 ≠ 0 ∨ length < 4096 ∨ 1048576 < length) →
      Completes (.recorderRead q start length found) s fun t => Answered s t q stInvalidField)

/-- Depot Unlock through an authenticated session opens the port's window; through none it is denied (R426). -/
def depotUnlock : Prop :=
  ∀ (s : State) (q : Sqe) (sid : Nat), Vendor s q → s.sec.depot = false →
    (∀ x, findSession s sid = some x → x.up = true → x.authed = true →
      (Completes (.depotUnlockRead q sid) s fun t => Answered s t q stOk ∧ winOfPort t q.port = .openRo) ∧
      (Completes (.depotUnlockReadWrite q sid) s fun t => Answered s t q stOk ∧ winOfPort t q.port = .openRw)) ∧
    (findSession s sid = none → Completes (.depotUnlockReadWrite q sid) s fun t => Answered s t q stAccessDenied ∧ t.sec = s.sec)

/-- Its close closes the window (R426). -/
def depotUnlockClose : Prop :=
  ∀ (s : State) (q : Sqe) (sid : Nat), Vendor s q → s.sec.depot = false →
    Completes (.depotUnlockClose q sid) s fun t => Answered s t q stOk ∧ winOfPort t q.port = .closed

/-! ## Port and controller events (R69 to R74, R79, R95 to R98) -/

/-- No command is in the sorting office, and no flash operation is queued or under way. -/
def Drained (s : State) : Prop := s.srt.cmds = [] ∧ s.flash.ops = []

/-- CC.EN set: the admin queue pair of the sizes in AQA exists, RDY follows where the map is ready, and an AMS or MPS that is not
supported is a fatal error (R78 to R80; the last PRESUMED, log entry 90). -/
def ccEnSet : Prop :=
  ∀ (s : State) (p : Port) (cc : CcFields) (aqa : Aqa), reachable s p = true → (getPort s p).en = false → (getPort s p).drain = none →
    Completes (.ccEnSet p cc aqa) s fun t => (getPort t p).en = true ∧ (getPort t p).ams = cc.ams ∧ (getPort t p).mps = cc.mps ∧
      nget (getPort t p).sqs 0 = some { size := aqa.asqs % 4096 + 1 } ∧
      nget (getPort t p).cqs 0 = some { size := aqa.acqs % 4096 + 1, ien := true } ∧
      (cc.ams ≤ 1 → cc.mps ≤ 4 → s.chip.mapReady = true → (getPort t p).rdy = true) ∧ (1 < cc.ams ∨ 4 < cc.mps → (getPort t p).cfs = true)

/-- CC.EN cleared: fetching stops, the Asynchronous Event Requests end, and the drain of a reset runs (Tables 3-10, 3-11). -/
def ccEnClear : Prop :=
  ∀ (s : State) (p : Port), reachable s p = true → (getPort s p).en = true → Drained s →
    Completes (.ccEnClear p) s fun t => (getPort t p).en = false ∧ (getPort t p).fetching = false ∧
      (getPort t p).drain = some .reset ∧ (getPort t p).aerOut = []

/-- A write whose data has not arrived when the drain starts is dropped without a completion (R95, Table 3-11). -/
def ccEnClearDrops : Prop :=
  ∀ (s : State) (p : Port) (id : Nat) (c : Cmd), reachable s p = true → (getPort s p).en = true → s.srt.cmds = [(id, c)] →
    s.flash.ops = [] → c.q.port = p → isWrite c.body = true → c.dataIn = false → c.pins = [] → s.map.opens = [] → s.map.pgs = [] →
    Completes (.ccEnClear p) s fun t => t.srt.cmds = [] ∧ (getPort t p).drain = some .reset

/-- A normal shutdown: SHST is 0b10 at once where no fetched command is left and no completion is held, else 0b01 (R95). -/
def shutdownNormal : Prop :=
  ∀ (s : State) (p : Port), reachable s p = true → (getPort s p).en = true → (getPort s p).drain = none → (getPort s p).shst ≠ 2 →
    Completes (.shutdownNormal p) s fun t => (getPort t p).en = true ∧
      (getPort t p).shst = (if drainLeft s p = 0 ∧ ∀ e ∈ (getPort s p).cqs, e.2.held = [] then 2 else 1)

/-- An abrupt shutdown drains what was fetched (R95, R96). -/
def shutdownAbrupt : Prop :=
  ∀ (s : State) (p : Port), reachable s p = true → (getPort s p).en = true → (getPort s p).drain = none → (getPort s p).shst ≠ 2 →
    Drained s →
    Completes (.shutdownAbrupt p) s fun t => (getPort t p).shst = 1 ∧ (getPort t p).drain = some .abruptShutdown ∧
      (getPort t p).fetching = false

/-- A function level reset: CC.EN reads 0, the MSI-X table is at its default, and BAR2's window closes outside depot mode
(Tables 2-9 and 3-10). -/
def functionLevelReset : Prop :=
  ∀ (s : State) (p : Port), portPresent s p = true → (getPort s p).linkUp = true → s.chip.held = false → Drained s →
    Completes (.functionLevelReset p) s fun t => (getPort t p).en = false ∧ (getPort t p).msix = [] ∧ (getPort t p).d3hot = false ∧
      (getPort t p).drain = some .flr ∧ (s.sec.depot = false → winOfPort t p = .closed)

/-- A hot reset or PERST_N: the function is reset and the link is down, with no rate in HFE_LINK (Table 3-10). -/
def hotResetOrPerst : Prop :=
  ∀ (s : State) (p : Port) (perst : Bool), portPresent s p = true → (getPort s p).linkUp = true → (getPort s p).perst = false →
    s.chip.held = false → Drained s →
    Completes (.hotResetOrPerst p perst) s fun t => (getPort t p).en = false ∧ (getPort t p).linkUp = false ∧
      (getPort t p).perst = perst ∧ (getPort t p).drain = some .link ∧ rdField t (hfe p 0x10) 2 0 = 0 ∧ rdField t (hfe p 0x10) 11 8 = 0

/-- Link down (Table 3-10). -/
def linkDown : Prop :=
  ∀ (s : State) (p : Port), portPresent s p = true → (getPort s p).linkUp = true → s.chip.held = false → Drained s →
    Completes (.linkDown p) s fun t => (getPort t p).en = false ∧ (getPort t p).linkUp = false ∧ (getPort t p).drain = some .link ∧
      rdField t (hfe p 0x10) 2 0 = 0 ∧ raised t (73 + 8 * p.num) = true

/-- Link up at a rate and width that the port can train to: it offered what HFE_LCFG says, and HFE_LINK shows the two (R69 to R71). -/
def linkUp : Prop :=
  ∀ (s : State) (p : Port) (rate width : Nat) (flit : Bool), portPresent s p = true → (getPort s p).perst = false →
    (getPort s p).linkUp = false → (getPort s p).trainEn = true → s.chip.held = false → active s (portBlk p) = true → 1 ≤ rate →
    rate ≤ rdField s (hfe p 0x14) 2 0 → (width = 1 ∨ width = 2 ∨ width = 4 ∨ (width = 8 ∧ hostX8 s = true)) →
    Completes (.linkUp p rate width flit) s fun t => (getPort t p).linkUp = true ∧ rdField t (hfe p 0x10) 2 0 = rate ∧
      rdField t (hfe p 0x10) 11 8 = width ∧ ∃ l, t.out = s.out ++ linkOffer s p :: l

/-- The drain ends once nothing fetched is left: after a shutdown SHST is 0b10 and no I/O queue is left (DEDUCED, log entry 152),
after a reset no queue at all (R95, R96, Table 4-6). -/
def drainComplete : Prop :=
  ∀ (s : State) (p : Port) (k : DrainKind), (getPort s p).drain = some k → drainLeft s p = 0 →
    Completes (.drainComplete p) s fun t => (getPort t p).drain = none ∧ (getPort t p).fetching = false ∧
      ((k = .shutdown ∨ k = .abruptShutdown) → (getPort t p).shst = 2 ∧ (∀ e ∈ (getPort t p).sqs, e.1 = 0) ∧ ∀ e ∈ (getPort t p).cqs, e.1 = 0) ∧
      ((k = .reset ∨ k = .flr ∨ k = .link) → (getPort t p).rdy = false ∧ (getPort t p).sqs = [] ∧ (getPort t p).cqs = [])

/-- A changed latency is sent and shown in HFE_LTR (R74). -/
def ltrSend : Prop :=
  ∀ (s : State) (p : Port) (us : Nat), portPresent s p = true → (getPort s p).linkUp = true → s.chip.held = false →
    (getPort s p).ltrAt = none → us ≠ (getPort s p).ltrSent →
    Completes (.ltrSend p us) s fun t => (getPort t p).ltrSent = us ∧ (getPort t p).ltrAt = some s.clk.tb ∧
      t.out = s.out ++ [.ltr p us] ∧ rdField t (hfe p 0x18) 31 16 = min us 0xFFFF

/-- PERST_N released: the port may train (R69). -/
def perstNDeassert : Prop :=
  ∀ (s : State) (p : Port), portPresent s p = true → (getPort s p).perst = true →
    Completes (.perstNDeassert p) s fun t => (getPort t p).perst = false

/-- A configuration request before configuration space is loaded is answered with Retry Status (R73). -/
def configurationRequest : Prop :=
  ∀ (s : State) (p : Port) (w : CfgReq), portPresent s p = true → (getPort s p).linkUp = true → s.chip.held = false →
    (getPort s p).cfgReady = false → Completes (.configurationRequest p w) s fun t => t = emit s (.configReply p none)

/-- After that it is served, with the rate and the width of the link in Link Status: D3hot takes the link to L1 (R73, R74, R97; the state of the link DEDUCED, log entry 151). -/
def configurationRequestReady : Prop :=
  ∀ (s : State) (p : Port), portPresent s p = true → (getPort s p).linkUp = true → s.chip.held = false → (getPort s p).cfgReady = true →
    (∀ off v, cfgRead s p off = some v →
      Completes (.configurationRequest p (.read off)) s fun t => t = emit s (.configReply p (some v))) ∧
    (∀ off, nget (getPort s p).cfgSpace off = some (cfgDword (getPort s p) off) → off ≠ 0x6C → off ≠ 0x70 → off ≠ 0x154 → off ≠ 0x158 →
      cfgRead s p off = some (cfgDword (getPort s p) off)) ∧
    (cfgDword (getPort s p) 0x70 < 2 ^ 16 → ∃ v, cfgRead s p 0x70 = some v ∧ bitsOf v 18 16 = rdField s (hfe p 0x10) 2 0 ∧
      bitsOf v 23 20 = rdField s (hfe p 0x10) 11 8) ∧
    (∀ hot, Completes (.configurationRequest p (.dState hot)) s fun t => (getPort t p).d3hot = hot ∧
      rdField t (hfe p 0x10) 23 20 = if hot then 5 else 3) ∧
    (∀ sn no, Completes (.configurationRequest p (.ltrMax sn no)) s fun t => (getPort t p).ltrHost = some (min sn no))

/-- A write of an MSI-X entry; clearing the mask of a pending vector sends its message, where the function may send one (R65). -/
def msixTableWrite : Prop :=
  ∀ (s : State) (p : Port) (v : Nat) (mask : Bool) (addr data : Nat), portPresent s p = true → (getPort s p).d3hot = false → v < 130 →
    Completes (.msixTableWrite p v mask addr data) s fun t =>
      nget (getPort t p).msix v = some { mask, addr, data, pba := (ngetD (getPort s p).msix v {}).pba &&
        (mask || msixFnMask (getPort s p) || !msixOn (getPort s p)) } ∧
      t.out = if (ngetD (getPort s p).msix v {}).pba = true ∧ mask = false ∧ msixFnMask (getPort s p) = false ∧ msixOn (getPort s p) = true
        then s.out ++ [.msix p v addr data] else s.out

/-- The coalescing time ends: the vector's message is sent and its count restarts (R82). -/
def interruptCoalescingExpiry : Prop :=
  ∀ (s : State) (p : Port) (v : Nat), 0 < ngetD (getPort s p).coal v 0 → (ngetD (getPort s p).msix v {}).mask = false →
    msixOn (getPort s p) = true → msixFnMask (getPort s p) = false →
    Completes (.interruptCoalescingExpiry p v) s fun t =>
      t.out = s.out ++ [.msix p v (ngetD (getPort s p).msix v {}).addr (ngetD (getPort s p).msix v {}).data] ∧
      ngetD (getPort t p).coal v 0 = 0

/-- An uncorrectable error of the link: source 77, or 85 at port B (R98). -/
def pcieUncorrectableError : Prop :=
  ∀ (s : State) (p : Port), portPresent s p = true → s.chip.held = false →
    Completes (.pcieUncorrectableError p none) s fun t => raised t (77 + 8 * p.num) = true ∧ t.srt = s.srt ∧
      OnlyChanges [.clk, .evr, .out, .portA, .portB, .regs] s t

/-- One that hits the transfer of a command completes it with Data Transfer Error (R98, R113). -/
def pcieErrorOfTransfer : Prop :=
  ∀ (s : State) (p : Port) (id : Nat) (c : Cmd), portPresent s p = true → s.chip.held = false → s.srt.cmds = [(id, c)] → c.q.port = p →
    isReading c.body = true → c.status = none → c.mute = false → c.pins = [] → cqReady s c.q = true →
    (∀ x, sqOf s c.q = some x → x.failStop = false ∧ x.deleting = none) →
    Completes (.pcieUncorrectableError p (some id)) s fun t => Answered s t c.q stDataTransfer ∧ t.srt.cmds = []

/-- A write of BAR2's lower dword sets its address bits alone: all ones read back as a 64-bit, non-prefetchable BAR of 16 MiB (R57,
R76, Table 3-3). -/
def configurationWriteBar : Prop :=
  ∀ (s : State) (p : Port) (b : Nat), portPresent s p = true → (getPort s p).linkUp = true → s.chip.held = false →
    (getPort s p).cfgReady = true → b < 256 → cfgDword (getPort s p) 0x18 = b * 2 ^ 24 + 4 →
    Completes (.configurationRequest p (.write 0x18 0xFFFFFFFF)) s fun t => cfgDword (getPort t p) 0x18 = 0xFF000004 ∧
      ∀ off, off ≠ 0x18 → cfgDword (getPort t p) off = cfgDword (getPort s p) off

/-- A completion of an I/O queue whose vector coalesces sends no message while the count over the vector's queues is within the
threshold, and the next one sends it (R82; the count over the vector PRESUMED, log entry 53). -/
def coalescing : Prop :=
  ∀ (s : State) (p : Port) (cqid thr : Nat) (q : Cq), q.ien = true → coalThr (getPort s p) cqid q.vector = some thr →
    (ngetD (getPort s p).coal q.vector 0 < thr →
      (cqInterrupt s p cqid q).out = s.out ∧ ngetD (getPort (cqInterrupt s p cqid q) p).coal q.vector 0 = ngetD (getPort s p).coal q.vector 0 + 1) ∧
    (thr ≤ ngetD (getPort s p).coal q.vector 0 → ngetD (getPort (cqInterrupt s p cqid q) p).coal q.vector 0 = 0 ∧
      (msixOn (getPort s p) = true → msixFnMask (getPort s p) = false → (ngetD (getPort s p).msix q.vector {}).mask = false →
        (cqInterrupt s p cqid q).out = s.out ++
          [.msix p q.vector (ngetD (getPort s p).msix q.vector {}).addr (ngetD (getPort s p).msix q.vector {}).data]))

/-! ## The pigeonhole map cache (R165 to R179) -/

/-- The DRAM bytes of one line hold a value, and every other byte is as it was. -/
def LineStored (s t : State) (line : Nat) (d : BitVec 512) : Prop :=
  memReads 0 t.dram (line * 64) 64 = le 64 d.toNat ∧
    ∀ a, (a < line * 64 ∨ line * 64 + 64 ≤ a) → memRead 0 t.dram a = memRead 0 s.dram a

/-- A fill that ends well puts the line, as DRAM holds it, clean, into a way that holds none, and serves the read that missed (R167,
R168). -/
def phcFillDone : Prop :=
  ∀ (s : State) (line seg w : Nat) (data : BitVec 512) (r : UnitRead) (q : LineReq) (f : PhcFill), s.phc.st = 2 → s.phc.fills = [f] →
    f.line = line → f.waiting = [q] → q.write = false → q.line = line → s.phc.held = [] → effective s line r = .clean →
    findWay s line = none → s.phc.evict.length < 16 → w < phcWays s → wayOk s w = true →
    nget s.phc.lines (slotKey (phcSet s line) w) = none →
    Completes (.phcFillDone line data r [] none seg) s fun t => lineAt t line = some { line, dirty := false, data := dramLine s line } ∧
      t.phc.fills = [] ∧ OnlyChanges [.phc, .mem] s t

/-- A fill that meets an uncorrectable unit allocates nothing, and every request that waited for it is told so (R167, R302). -/
def phcFillFails : Prop :=
  ∀ (s : State) (line seg : Nat) (data : BitVec 512) (r : UnitRead) (f : PhcFill), s.phc.st = 2 → s.phc.fills = [f] → f.line = line →
    s.phc.held = [] → effective s line r = .ue → s.phc.evict.length < 16 →
    Completes (.phcFillDone line data r [] none seg) s fun t => t.phc.lines = s.phc.lines ∧ t.phc.fills = [] ∧
      t.phc.reports = f.waiting.map (fun q => (q, .ue)) ∧ bitOf (rd t (drc 0x2C)) 0 = true

/-- A write-back that DRAM has taken: the bytes it carried are in DRAM, and no other byte changes (R169, R170). -/
def phcWritebackAck : Prop :=
  ∀ (s : State) (line : Nat) (e : PhcEvict), memWf 0 s.dram = true → (s.phc.evict.find? fun x => x.line == line) = some e →
    e.touched = false → e.redirty = false →
    Completes (.phcWritebackAck line) s fun t => LineStored s t line e.wb ∧ (∀ x ∈ t.phc.evict, x.line ≠ line) ∧
      OnlyChanges [.phc, .dram, .mem] s t

/-- The error window ends: the counts of all ways are 0 (R176). -/
def phcErrWindowEnd : Prop :=
  ∀ (s : State), 1048576 ≤ s.phc.accesses →
    Completes .phcErrWindowEnd s fun t => t.phc = { s.phc with accesses := 0 } ∧ (∀ k, k < 4 → rd t (Reg.phcWayErr k) = 0) ∧
      (∀ a, (∀ k, k < 4 → a ≠ Reg.phcWayErr k) → rd t a = rd s a) ∧ OnlyChanges [.phc, .regs] s t

/-- A way is disabled: no line is left in it, its bit is set, and source 51 is raised (R176). -/
def phcWayDisableDone : Prop :=
  ∀ (s : State) (way set : Nat), s.phc.disabling = some (way, set) → way < 16 → s.chip.held = false →
    Completes (.phcWayDisableDone way set) s fun t => (∀ x ∈ t.phc.lines, x.1 % 16 ≠ way) ∧ t.phc.disabling = none ∧
      wayOff t way = true ∧ raised t 51 = true

/-- Invalidation ends: no line is valid, and the cache is ENABLED where EN is 1 (R171, R172). -/
def phcInvalidationDone : Prop :=
  ∀ (s : State), s.phc.st = 1 → s.phc.held = [] → s.phc.drainPs4 = false →
    Completes .phcInvalidationDone s fun t => t.phc.lines = [] ∧ t.phc.st = (if enabled s .phc then 2 else 0) ∧
      active t .phc = enabled s .phc ∧ OnlyChanges [.phc, .regs] s t

/-- The drain ends: its one dirty line is in DRAM, no line is valid, and source 50 is raised (R172). -/
def phcDrainDone : Prop :=
  ∀ (s : State) (k : Nat) (x : PhcLine), s.phc.st = 3 → s.phc.lines = [(k, x)] → x.dirty = true → s.phc.evict = [] →
    memWf 0 s.dram = true → s.pwr.transit = false → s.chip.held = false →
    Completes .phcDrainDone s fun t => LineStored s t x.line x.data ∧ t.phc.lines = [] ∧ raised t 50 = true ∧
      (enabled s .phc = false → t.phc.st = 0)

/-- A range operation with work to do starts its engine over the lines of [BASE, BASE + LEN) (R173). -/
def RangeStarts (s t : State) (op : Nat) : Prop :=
  t.phc.rng = some { lo := rdField s Reg.phcRngBase 35 6, hi := rdField s Reg.phcRngBase 35 6 + (rdField s Reg.phcRngLen 36 0 + 63) / 64, op }
    ∧ bitOf (rd t (Reg.sts .phc)) 18 = true ∧ OnlyChanges [.phc, .regs] s t

/-- Its trigger is obeyed: a core's write, no range operation running, the cache ENABLED and LEN not 0. -/
def RangeReady (s : State) (i : Initiator) : Prop :=
  coreAccess s i .phc 0 = true ∧ s.phc.rng = none ∧ s.phc.st = 2 ∧ rdField s Reg.phcRngLen 36 0 ≠ 0

/-- Range Clean starts (R173). -/
def phcRangeClean : Prop :=
  ∀ (s : State) (i : Initiator) (v : Word), RangeReady s i → Completes (.phcRangeClean i v) s fun t => RangeStarts s t 1

/-- Range Invalidate starts (R173). -/
def phcRangeInvalidate : Prop :=
  ∀ (s : State) (i : Initiator) (v : Word), RangeReady s i → Completes (.phcRangeInvalidate i v) s fun t => RangeStarts s t 2

/-- Range Clean and Invalidate starts (R173). -/
def phcRangeCleanInvalidate : Prop :=
  ∀ (s : State) (i : Initiator) (v : Word), RangeReady s i → Completes (.phcRangeCleanInvalidate i v) s fun t => RangeStarts s t 3

/-- A range operation over one line ends: Clean writes a dirty line to DRAM and leaves it clean; Invalidate drops it without
writing it (R173). -/
def phcRangeDone : Prop :=
  ∀ (s : State) (r : PhcRange) (w : Nat) (x : PhcLine), s.phc.rng = some r → r.seen = [] → r.wb = 0 → r.inv = 0 → s.phc.evict = [] →
    w < phcWays s → s.phc.lines = [(slotKey (phcSet s x.line) w, x)] →
    r.lo ≤ x.line → x.line < r.hi → x.dirty = true → memWf 0 s.dram = true → s.chip.held = false →
    (r.op = 1 → Completes .phcRangeDone s fun t => LineStored s t x.line x.data ∧ t.phc.lines = [(slotKey (phcSet s x.line) w, { x with dirty := false })] ∧
      rd t Reg.phcRngWb = 1 ∧ raised t 49 = true) ∧
    (r.op = 2 → Completes .phcRangeDone s fun t => t.dram = s.dram ∧ t.phc.lines = [] ∧ rd t Reg.phcRngInv = 1 ∧ raised t 49 = true) ∧
    (r.op = 3 → Completes .phcRangeDone s fun t => LineStored s t x.line x.data ∧ t.phc.lines = [] ∧ rd t Reg.phcRngWb = 1 ∧
      rd t Reg.phcRngInv = 1)

/-- A set and way operation on a dirty line (R175): the trigger is obeyed in the state ENABLED; here no range operation runs. -/
def SwopReady (s : State) (i : Initiator) (way set : Nat) (x : PhcLine) : Prop :=
  coreAccess s i .phc 0 = true ∧ s.phc.st = 2 ∧ s.phc.rng = none ∧ way < phcWays s ∧ set < phcSets s ∧ wayOff s way = false ∧
    nget s.phc.lines (slotKey set way) = some x ∧ x.dirty = true ∧ memWf 0 s.dram = true ∧ nsorted none s.phc.lines = true

/-- Clean by set and way: the line is in DRAM and stays, clean (R175). -/
def phcSwopClean : Prop :=
  ∀ (s : State) (i : Initiator) (way set : Nat) (x : PhcLine), SwopReady s i way set x →
    Completes (.phcSwopClean i way set) s fun t => LineStored s t x.line x.data ∧
      nget t.phc.lines (slotKey set way) = some { x with dirty := false } ∧ OnlyChanges [.phc, .dram, .mem] s t

/-- Invalidate by set and way drops the line unwritten (R175). -/
def phcSwopInvalidate : Prop :=
  ∀ (s : State) (i : Initiator) (way set : Nat) (x : PhcLine), SwopReady s i way set x →
    Completes (.phcSwopInvalidate i way set) s fun t => t.dram = s.dram ∧ nget t.phc.lines (slotKey set way) = none ∧
      OnlyChanges [.phc] s t

/-- Clean and Invalidate by set and way writes and drops it (R175). -/
def phcSwopCleanInvalidate : Prop :=
  ∀ (s : State) (i : Initiator) (way set : Nat) (x : PhcLine), SwopReady s i way set x →
    Completes (.phcSwopCleanInvalidate i way set) s fun t => LineStored s t x.line x.data ∧
      nget t.phc.lines (slotKey set way) = none ∧ OnlyChanges [.phc, .dram, .mem] s t

/-- At most 64 fills are outstanding: a miss beyond them waits, and no fill is added (R167). -/
def phcFillsBounded : Prop :=
  ∀ (s : State) (r : LineReq), s.phc.fills.length ≤ 64 → (phcRequest s r).phc.fills.length ≤ 64 ∧
    (s.phc.st = 2 → s.phc.rng = none → s.phc.fills.length = 64 → findWay s r.line = none → (∀ e ∈ s.phc.evict, e.line ≠ r.line) →
      (∀ f ∈ s.phc.fills, f.line ≠ r.line) → (phcRequest s r).phc.fills = s.phc.fills ∧ (phcRequest s r).phc.held = s.phc.held ++ [r])

/-- In DRAINING nothing is allocated, and a request of a line in the eviction buffer is served there: DRAM keeps what it holds until
the write-back (R170, R171). -/
def phcDrainingRequest : Prop :=
  ∀ (s : State) (r : LineReq), s.phc.st = 3 → findWay s r.line = none →
    (phcRequest s r).phc.lines = s.phc.lines ∧ (phcRequest s r).phc.fills = s.phc.fills ∧
    ((s.phc.evict.any fun e => e.line == r.line) = true → (phcRequest s r).dram = s.dram) ∧
    ((s.phc.evict.any fun e => e.line == r.line) = false → r.write = false → (phcRequest s r).dram = s.dram)

/-! ## The map engine, reclaim and retirement (R137 to R161, R239 to R255) -/

/-- No superblock is open, no page group and no flash operation is under way: the work that follows a command finds nothing. -/
def Still (s : State) : Prop := s.map.opens = [] ∧ s.map.pgs = [] ∧ s.flash.ops = []

/-- No LUN is retired, of those there are and of those that operations name. -/
def NoneRetired (s : State) : Prop := (∀ c, c < 32 → ∀ p, p < 32 → lunRetired s c p = false) ∧
  ∀ o ∈ s.flash.ops, lunRetired s (lunChn o.2.lun) (lunPos o.2.lun) = false

/-- No entry of the map is corrupt (R131). -/
def MapSound (s : State) : Prop := ∀ n ∈ s.map.tab.ns, ∀ e ∈ n.2.parcels, ∀ i, i < 16 → corruptAt s n.1 (16 * e.1 + i) = false

/-- No segment of the map is lost either: every lookup finds what the map holds. -/
def Untouched (s : State) : Prop := s.phc.lost = [] ∧ MapSound s ∧ NoneRetired s

/-- The fill wait ends: the stream's packing page group is complete, filler slots filling what was left (R139). Here with the
stripe engine disabled, so that it takes no place at once. -/
def packingFillwaitExpiry : Prop :=
  ∀ (s : State) (k id : Nat) (g : Pg), nget s.map.packs k = some id → nget s.map.pgs id = some g → nsorted none s.map.packs = true →
    s.map.opens = [] → s.flash.ops = [] → active s .str = false →
    Completes (.packingFillwaitExpiry k) s fun t => nget t.map.packs k = none ∧ ∃ h, nget t.map.pgs id = some h ∧ h.st = .ready ∧
      h.used = 16 ∧ (∀ i p, nget g.slots i = some p → nget h.slots i = some p) ∧
      (∀ i, i < 16 → nget g.slots i = none → nget h.slots i = some filler)

/-- The oldest listed case that waits takes a free bundle (R143). -/
def bundleWaitEnd : Prop :=
  ∀ (s : State) (w : Waiter) (r : List Waiter) (id : Nat), s.map.waiters = w :: r → w.h = .reloc id → nget s.map.relocs id = none →
    0 < bundlesFree s → Completes .bundleWaitEnd s fun t => t.map.waiters = r ∧
      t.map.resv = s.map.resv ++ [(freeBundle s, w.h, w.nsid, w.parcel)] ∧ t.map.tab = s.map.tab

/-- Without a free bundle it waits on (R143). -/
def bundleWaitStays : Prop :=
  ∀ (s : State) (w : Waiter) (r : List Waiter), s.map.waiters = w :: r → bundlesFree s = 0 →
    Completes .bundleWaitEnd s fun t => t = s

/-- The wait of a deallocation ends: its parcels that still wait are rewritten by read-modify-write (R149). -/
def deallocBundleTimeout : Prop :=
  ∀ (s : State) (id : Nat) (c : Cmd) (n : Ns) (w : Waiter) (ls : List Nat), s.srt.cmds = [(id, c)] → c.released = true → c.dataIn = true →
    c.status = none → deallocates c.body = true → nsOf s c.q.nsid = some n → s.jrc.applyQ = [] → s.jrc.batches = [] →
    running s .map = true → Untouched s → s.map.waiters = [w] → w.h = .cmd id → w.dealloc = true → c.wants = [[.clear w.nsid w.parcel ls]] →
    rmwReads s c { nsid := w.nsid, parcel := w.parcel, own := some ls } ≠ [] →
    Completes (.deallocBundleTimeout id) s fun t => t.map.waiters = [] ∧ ∃ d, getCmd t id = some d ∧ d.rmwStart = true ∧ d.phase = 1 ∧
      d.rmws = [{ nsid := w.nsid, parcel := w.parcel, own := some ls }] ∧ d.pend ≠ []

/-- Every bundle's heat halves (R147). -/
def heatHalving : Prop :=
  ∀ (s : State), active s .map = true →
    Completes .heatHalving s fun t => (∀ b u, nget s.map.tab.bundles b = some u →
      nget t.map.tab.bundles b = some { u with heat := u.heat / 2 }) ∧ t.map.tab.bundles.length = s.map.tab.bundles.length ∧
      OnlyChanges [.map] s t

/-- The life clock advances by one second while the map engine runs (R239). -/
def lifeClockTick : Prop :=
  ∀ (s : State), s.chip.held = false →
    (active s .map = true → s.map.life < 0xFFFFFFFF → Completes .lifeClockTick s fun t => t = updMap s fun m => { m with life := m.life + 1 }) ∧
    (active s .map = false → Completes .lifeClockTick s fun t => t = s)

/-- A victim scan begins: VALID of its result is 0 and GEN rises (R54, R244). -/
def victimScan : Prop :=
  ∀ (s : State) (i : Initiator) (v : Word), coreAccess s i .map 0 = true → s.map.scanning = false →
    Completes (.victimScan i v) s fun t => t.map = { s.map with scanning := true } ∧ rdField t 0x300A8 31 31 = 0 ∧
      rdField t 0x300A8 15 0 = (rdField s 0x300A8 15 0 + 1) % 65536 ∧ OnlyChanges [.regs, .map] s t

/-- The scan's result over one superblock that may be a victim: its score and SBID, a count of 1, VALID (R244). -/
def victimScanDone : Prop :=
  ∀ (s : State) (x : Nat) (b : Sb), s.map.scanning = true → s.map.tab.sbs = [(x, b)] → b.st = 2 → b.system = false → b.job = false →
    b.vcount * 256 ≤ rdField s 0x300A0 7 0 * b.cap → s.map.recount.contains x = false → victimScore s b < 2 ^ 32 → b.sbid < 2 ^ 32 →
    Completes .victimScanDone s fun t => rd t 0x300B0 = victimScore s b * 2 ^ 32 + b.sbid ∧ rd t 0x300B8 = 0 ∧
      rdField t 0x300A8 19 16 = 1 ∧ rdField t 0x300A8 31 31 = 1 ∧ t.map.scanning = false ∧ OnlyChanges [.regs, .map] s t

/-- A job over a whole superblock is taken: the superblock is a victim with a job, and the job runs (R245, Table 9-3). -/
def jobSubmit : Prop :=
  ∀ (s : State) (i : Initiator) (head x : Nat) (j : JobReq) (b : Sb), coreAccess s i .map 0 = true → s.map.jobs = [] →
    jobsRunning s < 4 → head = (rdField s 0x300F8 7 0 + 1) % 256 → sbxBySbid s j.sbid = some x → nget s.map.tab.sbs x = some b →
    b.st = 2 → Still s → s.map.pinHold = [] → NoneRetired s → j.op = 1 → j.rsvd = 0 → 16 ≤ j.stream → j.stream ≤ 21 →
    Completes (.jobSubmit i head [j]) s fun t => nget t.map.tab.sbs x = some { b with st := 3, job := true } ∧
      nget t.map.jobStat (rdField s 0x300F8 7 0) = some 1 ∧ rdField t 0x300F8 7 0 = head ∧ t.map.jobs = []

/-- A job on an SBID that no superblock has is refused: STATUS 3 (R245, Table 9-5). -/
def jobRefused : Prop :=
  ∀ (s : State) (i : Initiator) (head : Nat) (j : JobReq), coreAccess s i .map 0 = true → s.map.jobs = [] →
    jobsRunning s < 4 → head = (rdField s 0x300F8 7 0 + 1) % 256 → sbxBySbid s j.sbid = none → Still s → s.map.pinHold = [] → NoneRetired s →
    Completes (.jobSubmit i head [j]) s fun t => nget t.map.jobStat (rdField s 0x300F8 7 0) = some 3 ∧ t.map.tab = s.map.tab ∧
      t.map.relocs = s.map.relocs

/-- A job over one page group with nothing left to do ends with STATUS 2, and its superblock is no longer named by a job (R238, R245). -/
def jobDone : Prop :=
  ∀ (s : State) (idx id : Nat) (r : Reloc) (b : Sb), s.map.relocs = [(id, r)] → r.idx = some idx → r.groups = 0 → relocIdle r = true →
    r.aborted = false → r.op = 2 → r.stream ≠ 20 → s.map.jobs = [] → (∀ e ∈ s.map.tab.sbs, e.2.st ≠ 3) → nget s.map.tab.sbs r.sbx = some b →
    Completes (.jobDone idx) s fun t => t.map.relocs = [] ∧ nget t.map.jobStat idx = some 2 ∧
      nget t.map.tab.sbs r.sbx = some { b with job := false } ∧ t.map.tab.blocks = s.map.tab.blocks ∧ t.map.tab.ns = s.map.tab.ns

/-- A job abort: every running job is marked, and nothing it had not asked for goes on (R245). -/
def jobAbort : Prop :=
  ∀ (s : State) (i : Initiator) (v : Word) (id : Nat) (r : Reloc), coreAccess s i .map 0 = true → s.map.relocs = [(id, r)] →
    r.idx.isSome = true →
    Completes (.jobAbort i v) s fun t => t.map.relocs = [(id, { r with aborted := true, todo := [], pend := [], gather := [], parts := [], wants := [] })] ∧
      OnlyChanges [.map, .flash] s t

/-- An erase that succeeds: the block holds nothing, its ERASES rises by 1 up to 65,535, and it is FREE, or WORN at the rated
count (R197, R243). -/
def eraseComplete : Prop :=
  ∀ (s : State) (id : Nat) (o : FOp), Calm s → s.flash.ops = [(id, o)] → o.kind = .erase → o.st = .running → o.sysOp = false →
    memberAt s o.lun o.block = none → (courier s (lunChn o.lun)).training = none →
    Completes (.eraseComplete o.lun o.block .ok) s fun t => t.flash.ops = [] ∧
      (∀ a, a / 2 ^ 16 = ppaOf o.lun o.block 0 0 / 2 ^ 16 → nget t.flash.media a = none) ∧
      (blkGet t.map.tab (blkKey o.lun o.block)).erases = min ((blkGet s.map.tab (blkKey o.lun o.block)).erases + 1) 65535 ∧
      (blkGet t.map.tab (blkKey o.lun o.block)).st =
        if s.flash.die.rated ≤ min ((blkGet s.map.tab (blkKey o.lun o.block)).erases + 1) 65535 then 5 else 1

/-- An erase's first status fail: it is repeated once (R197). -/
def eraseRepeats : Prop :=
  ∀ (s : State) (id : Nat) (o : FOp), s.flash.ops = [(id, o)] → o.kind = .erase → o.st = .running → o.again = false →
    (courier s (lunChn o.lun)).training = none → Completes (.eraseComplete o.lun o.block .statusFail) s fun t => t.map = s.map ∧ ∃ p, nget t.flash.ops id = some p ∧ p.again = true ∧
      p.kind = .erase ∧ p.lun = o.lun ∧ p.block = o.block

/-- The head of the refresh queue is relocated through stream 19 (R252). -/
def refreshRelocation : Prop :=
  ∀ (s : State) (p x : Nat) (rest : List Nat), s.map.refresh = p :: rest → sbxOf s.map.tab p = some x →
    Still s → s.map.pinHold = [] → NoneRetired s →
    Completes .refreshRelocation s fun t => t.map.refresh = rest ∧
      nget t.map.relocs s.map.relNext = some { sbx := x, stream := 19, first := p, pend := [p] } ∧ t.map.tab = s.map.tab

/-- What the retirement claims assume: nothing is under way on the flash side, and no erasable superblock is being erased. -/
def RetireReady (s : State) (i : Initiator) (a : Nat) : Prop :=
  coreAccess s i .map 0 = true ∧ rd s a < 2 ^ 32 ∧ Still s ∧ s.map.pinHold = [] ∧ ∀ e ∈ s.map.tab.sbs, ¬ (e.2.st = 4 ∧ e.2.erasing = true)

/-- A LUN retires: its bit in MAP_LUNRETc is set and its blocks become RETIRED, but for BAD ones (R255). -/
def lunRetire : Prop :=
  ∀ (s : State) (i : Initiator) (c pos : Fin 32), RetireReady s i (rLunRet c) → bitOf (rd s (rLunRet c)) pos = false →
    inGeometry s c pos = true → s.flash.die.blocks ≤ 16384 →
    Completes (.lunRetire i c pos) s fun t => bitOf (rd t (rLunRet c)) pos = true ∧ t.map.retired = true ∧
      (∀ k b, nget s.map.tab.blocks k = some b → k / 16384 = lunOf c pos → k % 16384 < s.flash.die.blocks → b.st ≠ 3 →
        nget t.map.tab.blocks k = some { b with st := 4 }) ∧
      (∀ k b, nget s.map.tab.blocks k = some b → (k / 16384 ≠ lunOf c pos ∨ b.st = 3) → nget t.map.tab.blocks k = some b)

/-- A channel retires: its bit in MAP_CHRET is set, and the blocks of all its LUNs become RETIRED, but for BAD ones (R255). -/
def channelRetire : Prop :=
  ∀ (s : State) (i : Initiator) (c : Fin 32), RetireReady s i 0x30110 → bitOf (rd s 0x30110) c = false →
    Completes (.channelRetire i c) s fun t => bitOf (rd t 0x30110) c = true ∧ t.map.retired = true ∧
      ∀ k b p, inGeometry s c p = true → nget s.map.tab.blocks k = some b → k / 16384 = lunOf c p → k % 16384 < s.flash.die.blocks →
        b.st ≠ 3 →
        nget t.map.tab.blocks k = some { b with st := 4 }

/-- No dead letter of the map names the channel. -/
def NoDeadOn (s : State) (c : Nat) : Prop :=
  ∀ n ∈ s.map.tab.ns, ∀ e ∈ n.2.parcels, ∀ i p, i < 16 → letterIn s.map.tab e.2 i = .dead p → lunChn (ppaLun p) ≠ c

/-- A channel's sweep is done and its groups are applied: the channel counts as retired (R255 step 6, R480). -/
def channelSweepDone : Prop :=
  ∀ (s : State) (c : Fin 32), (∃ b, (c.val, none, b) ∈ s.map.retiring) → NoDeadOn s c → sweepLeft s c = false →
    Completes (.channelSweepDone c) s fun t => c.val ∈ t.chip.chnGone ∧
      (∀ b, (c.val, none, b) ∉ t.map.retiring) ∧ t.map.tab = s.map.tab

/-- While one of its groups is not applied, it does not (R255 step 6). -/
def channelSweepWaits : Prop :=
  ∀ (s : State) (c : Fin 32), sweepLeft s c = true → c.val ∉ s.chip.chnGone →
    Completes (.channelSweepDone c) s fun t => c.val ∉ t.chip.chnGone

/-- The recount ends: a closed superblock in which the map names nothing becomes ERASABLE (R277). -/
def mapRecountDone : Prop :=
  ∀ (s : State) (x : Nat) (b : Sb), s.chip.starting = false → s.prog.stage ≠ 3 → s.map.recount = [x] → s.map.tab.sbs = [(x, b)] →
    b.st = 2 → b.system = false → x ∉ liveSbs s.map.tab → s.map.relocs = [] →
    Completes .mapRecountDone s fun t => t.map.recount = [] ∧ ∃ d, nget t.map.tab.sbs x = some d ∧ d.st = 4 ∧ d.members = b.members

/-! ## Flash channels and the ladder (R182 to R236, R372) -/

/-- A command waits for this codeword and for others. -/
def WaitsFor (s : State) (cid ppa : Nat) (c : Cmd) : Prop :=
  getCmd s cid = some c ∧ ppa ∈ c.pend ∧ (c.pend.filter (· != ppa)).isEmpty = false

/-- It has received it. -/
def Received (t : State) (cid ppa : Nat) (c : Cmd) (v : Option Payload) : Prop :=
  ∃ d, getCmd t cid = some d ∧ nget d.got ppa = some v ∧ d.pend = c.pend.filter (· != ppa) ∧ d.body = c.body ∧ d.released = c.released

/-- A read completes with a codeword that the first hard decode corrects: its requester receives the payload (R196, R213). -/
def readComplete : Prop :=
  ∀ (s : State) (id slot cid : Nat) (o : FOp) (x : CodewordRead) (p : Payload) (c : Cmd), s.flash.ops = [(id, o)] →
    o.kind = .read → o.st = .running → o.cws = [(slot, [.cmd cid])] → s.map.opens = [] → s.map.pgs = [] → s.map.pinHold = [] →
    bit32 s (rLunFlt (lunChn o.lun)) (lunPos o.lun) = false → lunRetired s (lunChn o.lun) (lunPos o.lun) = false → x.slot = slot →
    x.decoded = true → slotPayload s (ppaOf o.lun o.block o.page 0 + slot) = some p →
    identOk s [.cmd cid] (ppaOf o.lun o.block o.page 0 + slot) p = true → WaitsFor s cid (ppaOf o.lun o.block o.page 0 + slot) c →
    (courier s (lunChn o.lun)).training = none →
    Completes (.readComplete id [x]) s fun t => t.flash.ops = [] ∧
      Received t cid (ppaOf o.lun o.block o.page 0 + slot) c (some p)

/-- A first hard decode that fails starts the codeword's ladder at step 2, whose first read is added (R213, R214, R477). -/
def readFails : Prop :=
  ∀ (s : State) (id slot cid : Nat) (o : FOp) (x : CodewordRead), s.flash.ops = [(id, o)] → o.kind = .read → o.st = .running →
    o.cws = [(slot, [.cmd cid])] → s.map.opens = [] → s.map.pgs = [] → s.map.pinHold = [] → s.flash.lads = [] →
    bit32 s (rLunFlt (lunChn o.lun)) (lunPos o.lun) = false → lunRetired s (lunChn o.lun) (lunPos o.lun) = false → x.slot = slot →
    x.decoded = false → (courier s (lunChn o.lun)).training = none → Completes (.readComplete id [x]) s fun t => ∃ l k p, t.flash.lads = [(s.flash.ladNext, l)] ∧
      l.ppa = ppaOf o.lun o.block o.page 0 + slot ∧ l.step = 2 ∧ l.sub = 1 ∧ l.reqs = [.cmd cid] ∧
      t.flash.ops = [(k, p)] ∧ p.kind = .read ∧ p.single = true ∧ p.cws = [(l.ppa % 16, [.ladder s.flash.ladNext])]

/-- A soft decode that fails at step 3 leads to step 4, whose first read is added; its decoder is free again (R31, R213, R477). -/
def softDecodeFails : Prop :=
  ∀ (s : State) (id n : Nat) (l : Ladder), s.flash.lads = [(id, l)] → l.step = 3 → l.dec = true →
    s.map.opens = [] → s.map.pgs = [] → s.map.pinHold = [] → NoneRetired s →
    Completes (.softDecodeDone id false n) s fun t => t.flash.lads = [(id, { l with step := 4, sub := 1, soft := none, dec := false })] ∧
      ∃ k o, nget t.flash.ops k = some o ∧ o.kind = .read ∧ o.single = true ∧ o.cws = [(l.ppa % 16, [.ladder id])] ∧ t.map = s.map

/-- One that succeeds delivers the codeword's payload, and the ladder ends (R213). -/
def softDecodeDone : Prop :=
  ∀ (s : State) (id n cid : Nat) (l : Ladder) (p : Payload) (c : Cmd), s.flash.lads = [(id, l)] → l.step = 3 → l.dec = true →
    slotPayload s l.ppa = some p → l.reqs = [.cmd cid] → identOk s l.reqs l.ppa p = true → WaitsFor s cid l.ppa c → NoneRetired s →
    Completes (.softDecodeDone id true n) s fun t => t.flash.lads = [] ∧ Received t cid l.ppa c (some p)

/-- What has no decoder yet does not end (R31). -/
def softDecodeWaits : Prop :=
  ∀ (s : State) (id n : Nat) (d : Bool) (l : Ladder), nget s.flash.lads id = some l → l.dec = false →
    Completes (.softDecodeDone id d n) s fun t => t = s

/-- A rebuild whose members are all read delivers what the parity gives (R225, R232). -/
def rebuildDone : Prop :=
  ∀ (s : State) (id cid : Nat) (l : Ladder) (r : Rebuild) (b : Sb) (p : Payload) (c : Cmd), s.flash.lads = [(id, l)] → l.step = 5 →
    l.rb = some r → r.pend = [] → r.erased = [] → nget s.map.tab.sbs r.sbx = some b → solve s b r (l.ppa % 16) = .inl p → b.isParity r.target = false →
    l.reqs = [.cmd cid] → identOk s l.reqs l.ppa p = true → WaitsFor s cid l.ppa c → NoneRetired s →
    Completes (.rebuildDone id) s fun t => t.flash.lads = [] ∧ Received t cid l.ppa c (some p)

/-- One that the parity cannot give goes to step 7 with its cause (R232, R236). -/
def rebuildFails : Prop :=
  ∀ (s : State) (id k : Nat) (l : Ladder) (r : Rebuild) (b : Sb), nget s.flash.lads id = some l → l.step = 5 → l.rb = some r →
    r.pend = [] → nget s.map.tab.sbs r.sbx = some b → solve s b r (l.ppa % 16) = .inr k → b.isParity r.target = false →
    Completes (.rebuildDone id) s fun t => nget t.flash.lads id = some { l with step := 7, cause := k }

/-- Step 7 writes its entry once the dead-letter queue has space (R236). -/
def dlqEntryWrite : Prop :=
  ∀ (s : State) (id : Nat) (l : Ladder), s.flash.lads = [(id, l)] → l.step = 7 → dlqFull s = false → l.reqs = [] → s.flash.ops = [] →
    Completes (.dlqEntryWrite id) s fun t => t.flash.lads = [] ∧ rdField t (str 0x28) 5 0 = (rdField s (str 0x28) 5 0 + 1) % 64

/-- Firmware moves the queue's tail (R236). -/
def strDlqTailWrite : Prop :=
  ∀ (s : State) (i : Initiator) (v : Word), coreAccess s i .str 0 = true → Still s →
    Completes (.strDlqTailWrite i v) s fun t => rdField t (str 0x2C) 5 0 = v.toNat % 64 ∧ OnlyChanges [.regs] s t

/-- A program of a placed page group succeeds: its slots are on the medium, and the page group is done (R32 step 5, R197). -/
def programComplete : Prop :=
  ∀ (s : State) (id g x r m : Nat) (o : FOp) (pg : Pg) (b : Sb), s.flash.ops = [(id, o)] → o.kind = .program → o.st = .running →
    o.pg = some g → s.map.pgs = [(g, pg)] → pg.place = some (x, r, m) → nget s.map.tab.sbs x = some b → s.map.opens = [] →
    s.srt.cmds = [] → s.map.relocs = [] → s.map.pinHold = [] → s.jrc.cutSt = 0 → s.prog.pinned = false → nsorted none pg.slots = true →
    bit32 s (rLunFlt (lunChn o.lun)) (lunPos o.lun) = false → (courier s (lunChn o.lun)).training = none →
    Completes (.programComplete id .ok) s fun t => t.flash.ops = [] ∧ t.map.pgs = [(g, { pg with st := .done })] ∧
      (∀ i p, nget pg.slots i = some p → slotPayload t (b.page m r + i) = some p) ∧
      (∀ a, (∀ i p, nget pg.slots i = some p → a ≠ b.page m r + i) → nget t.flash.media a = nget s.flash.media a)

/-- What a suspend needs: a queued read that may suspend, a suspend left, and nothing suspended on the LUN (R191 to R193). -/
def Suspends (s : State) (id : Nat) (o : FOp) : Prop :=
  nget s.flash.ops id = some o ∧ nsorted none s.flash.ops = true ∧ o.st = .running ∧ o.susp < suspMax s o ∧ suspenders s o.lun = true ∧
    (∀ x ∈ s.flash.ops, x.2.lun = o.lun → x.2.st ≠ .suspended) ∧ (courier s (lunChn o.lun)).training = none ∧
    leaving s .chn (lunChn o.lun) = false ∧ o.resume = false

/-- An erase with a read waiting is suspended and counted (R191 to R193). -/
def eraseSuspend : Prop :=
  ∀ (s : State) (id : Nat) (o : FOp), Suspends s id o → o.kind = .erase →
    Completes (.eraseSuspend id) s fun t => nget t.flash.ops id = some { o with st := .suspended, susp := o.susp + 1, units := 0 } ∧
      OnlyChanges [.evr, .flash, .out, .portA, .portB, .regs] s t

/-- A program likewise (R191 to R193). -/
def programSuspend : Prop :=
  ∀ (s : State) (id : Nat) (o : FOp), Suspends s id o → o.kind = .program →
    Completes (.programSuspend id) s fun t => nget t.flash.ops id = some { o with st := .suspended, susp := o.susp + 1, units := 0 } ∧
      OnlyChanges [.evr, .flash, .out, .portA, .portB, .regs] s t

/-- A suspended operation that is due to resume, by the dwell or because its LUN has no read left, does so with its grant (R192, R201). -/
def suspendResume : Prop :=
  ∀ (s : State) (id : Nat) (dwell : Bool) (o : FOp), s.flash.ops = [(id, o)] → o.st = .suspended → o.units = 0 →
    tokCovers s (opDst o) (opCost s o) o.kind = true → active s .dst (opDst o) = true → courierRuns s (lunChn o.lun) = true →
    lunRetired s (lunChn o.lun) (lunPos o.lun) = false →
    Completes (.suspendResume id dwell) s fun t => t.map = s.map ∧ ∃ p, nget t.flash.ops id = some p ∧ p.st = .running ∧
      p.resume = false ∧ p.kind = o.kind ∧ p.lun = o.lun ∧ p.block = o.block ∧ p.susp = o.susp

/-- While reads of its LUN are queued and the dwell has not passed, it stays suspended (R192). -/
def suspendStays : Prop :=
  ∀ (s : State) (id k : Nat) (o r : FOp), nget s.flash.ops id = some o → o.st = .suspended → (k, r) ∈ s.flash.ops → r.lun = o.lun →
    r.kind = .read → r.st = .queued → Completes (.suspendResume id false) s fun t => t = s

/-- A background read that waited CHN_AGE is served in the order of host reads (R186). -/
def rdIAgeExpiry : Prop :=
  ∀ (s : State) (id : Nat) (o : FOp), nget s.flash.ops id = some o → nsorted none s.flash.ops = true → o.kind = .read → o.cls = 2 →
    o.st = .queued → rdField s (chn (lunChn o.lun) 0x24) 15 0 ≠ 0 →
    Completes (.rdIAgeExpiry id) s fun t => ∃ p, nget t.flash.ops id = some p ∧ p.aged = true ∧ p.lun = o.lun ∧ p.cws = o.cws

/-- The first timeout of a read: CHN_CAUSE bit 4 is set, the timeout is noted, and the read is issued again (Table 7-6). -/
def lunTimeout : Prop :=
  ∀ (s : State) (id : Nat) (o : FOp), s.flash.ops = [(id, o)] → o.kind = .read → o.st = .running → o.again = false →
    s.map.opens = [] → s.map.pgs = [] → s.srt.cmds = [] → s.map.relocs = [] → s.map.pinHold = [] → s.jrc.cutSt = 0 →
    s.prog.pinned = false → (courier s (lunChn o.lun)).training = none → Completes (.lunTimeout id false) s fun t => bitOf (rd t (chn (lunChn o.lun) 0x44)) 4 = true ∧
      (courier t (lunChn o.lun)).timeouts = [(o.lun, s.clk.tb)] ∧ ∃ p, nget t.flash.ops id = some p ∧ p.again = true ∧ p.cws = o.cws

/-- A training starts where fewer than two couriers of the district train (R188, R189). -/
def trainingStart : Prop :=
  ∀ (s : State) (i : Initiator) (c : Fin 32) (v : Word), coreAccess s i .chn c = true → (courier s c).training = none →
    (courier s c).wantTrain = none → fittedCes s c ≠ [] → trainingIn s (c / 8) < 2 →
    Completes (.trainingStart i c v) s fun t => (courier t c).training = some 0 ∧ rdField t (chn c 0x2C) 31 31 = 0 ∧
      OnlyChanges [.regs, .flash] s t

/-- A full training in which no chip enable failed ends with a VALID result and CHN_CAUSE bit 0 (R189, R190). -/
def trainingDone : Prop :=
  ∀ (s : State) (c : Fin 32) (eyes : List (Nat × Nat)), (courier s c).training = some 0 → (∀ d, (courier s d).wantTrain = none) →
    Calm s → s.flash.ops = [] →
    Completes (.trainingDone c eyes []) s fun t => (courier t c).training = none ∧ rdField t (chn c 0x2C) 31 28 = 8 ∧
      bitOf (rd t (chn c 0x44)) 0 = true

/-- A courier reset: the courier is held in reset, out of service, with its snapshots gone (R198, R481). -/
def courierReset : Prop :=
  ∀ (s : State) (i : Initiator) (c : Fin 32), coreAccess s i .pwr 0 = true → (courier s c).reset = false → s.flash.ops = [] →
    (∀ d, (courier s d).wantTrain = none) →
    Completes (.courierReset i (BitVec.ofNat 32 (2 ^ c.val))) s fun t => (courier t c).reset = true ∧ (courier t c).snaps = [] ∧
      (courier t c).training = none ∧ c.val ∈ t.chip.chnReset ∧ rd t (chn c 0x2C) = 0

/-- The reset of a courier ends: it is back, and CHN_CAUSE bit 8 is set (R198, R481). -/
def courierResetDone : Prop :=
  ∀ (s : State) (c : Fin 32) (ans : List (Nat × Bool)) (train : TrainFound),
    (courier s c).reset = true → trainingIn s (c / 8) < 2 → Calm s → s.flash.ops = [] →
    Completes (.courierResetDone c ans train) s fun t => (courier t c).reset = false ∧ c.val ∉ t.chip.chnReset ∧
      bitOf (rd t (chn c 0x44)) 8 = true

/-- The allowances of the four districts add up to the flash budget, and none is below its read reserve (R200). -/
def tokenAllocation : Prop :=
  ∀ (s : State), s.flash.ops = [] → flashBudget s < 65536 →
    Completes .tokenAllocation s fun t => tokAllow t 0 + tokAllow t 1 + tokAllow t 2 + tokAllow t 3 = flashBudget s ∧
      (∀ d, d < 4 → tokReserve t d ≤ tokAllow t d) ∧ t.flash.budget = flashBudget s ∧
      t.flash.oneDec = (s.pwr.ps == 2 || throttled s) ∧ OnlyChanges [.regs, .flash] s t

/-- FIRE captures one snapshot, whatever is armed, and raises the channel's source (R372, R373). -/
def snapshotFire : Prop :=
  ∀ (s : State) (i : Initiator) (c : Fin 32) (v : Word), coreAccess s i .chn c = true →
    (courier s c).snaps.length < 8 →
    Completes (.snapshotFire i c v) s fun t => (∃ e, (courier t c).snaps = (courier s c).snaps ++ [e] ∧ e.words.length = 9) ∧
      (courier t c).snapCount = (courier s c).snapCount + 1 ∧ raised t (192 + c) = true

/-- POP removes the oldest snapshot (R373). -/
def snapshotPop : Prop :=
  ∀ (s : State) (i : Initiator) (c : Fin 32) (v : Word), coreAccess s i .chn c = true →
    Completes (.snapshotPop i c v) s fun t => (courier t c).snaps = (courier s c).snaps.drop 1 ∧ OnlyChanges [.flash] s t

/-! ## The journal and the epoch (R259 to R265) -/

/-- The epoch period ends: a cut is asked for, at once or once MINSP has passed (R264). -/
def epochPeriodExpiry : Prop :=
  ∀ (s : State), active s .jrc = true → s.jrc.lastCut + rdField s 0x60028 31 16 * 250000 ≤ s.clk.tb → s.chip.held = false →
    Completes .epochPeriodExpiry s fun t => t.jrc.lastCut = s.clk.tb ∧
      (inMinsp s = false → raised t 57 = true ∧ bitOf (rd t 0x60050) 0 = true) ∧ (inMinsp s = true → 0 ∈ t.jrc.trigs)

/-- MINSP has passed: the triggers that waited for it are given (R264). -/
def minspExpiry : Prop :=
  ∀ (s : State) (b : Nat), inMinsp s = false → s.jrc.trigs = [b] → b < 32 → s.chip.held = false →
    s.pat.deadQ = [] → s.pat.staging.length < 512 →
    Completes .minspExpiry s fun t => t.jrc = { s.jrc with trigs := [] } ∧ raised t 57 = true ∧ bitOf (rd t 0x60050) b = true

/-- A cutover is started: HOLD is set, and no batch starts while it is (R265). -/
def jrcCutover : Prop :=
  ∀ (s : State) (i : Initiator) (v : Word), coreAccess s i .jrc 0 = true → s.jrc.hold = false → s.jrc.committing = false →
    s.jrc.twoGen = false → inMinsp s = false → Still s → s.map.packs = [] →
    Completes (.jrcCutover i v) s fun t => t.jrc = { s.jrc with hold := true, holdAt := s.clk.tb } ∧ rdField t 0x60030 29 28 = 1 ∧
      rdField t 0x60030 31 31 = 0 ∧ rdField t 0x60030 15 0 = (rdField s 0x60030 15 0 + 1) % 65536

/-- A second cutover before the root commit, or one within MINSP of the last root commit (R260), is a faulty trigger: KIND 0x7, and nothing is held (R55, R265). -/
def jrcCutoverBusy : Prop :=
  ∀ (s : State) (i : Initiator) (v : Word), coreAccess s i .jrc 0 = true → (s.jrc.twoGen = true ∨ inMinsp s = true) →
    Completes (.jrcCutover i v) s fun t => t.jrc = s.jrc ∧ bitOf (rd t (Reg.sts .jrc)) 2 = true

/-- The cutover is done: generation e + 1 begins, the checkpoint is the map of this moment, WSNLIM lies 2^36 ahead, and
source 58 is raised (R265). -/
def cutoverDone : Prop :=
  ∀ (s : State), s.jrc.hold = true → s.jrc.batches = [] → s.jrc.applyQ = [] → s.chip.held = false →
    s.jrc.live + (ringNeeds s.jrc 16).1 < Config.ringBytes →
    Completes .cutoverDone s fun t => t.jrc.gen = s.jrc.gen + 1 ∧ t.jrc.hold = false ∧ t.jrc.twoGen = true ∧
      (∃ r, t.jrc.next = some r ∧ r.epoch = (s.jrc.gen + 1) % 2 ^ 32 ∧ r.tab = s.map.tab ∧ r.wsnLim = (s.map.wsn + 2 ^ 36) % 2 ^ 64) ∧
      t.map.wsnLim = s.map.wsn + 2 ^ 36 ∧ raised t 58 = true ∧ rdField t 0x60030 31 31 = 1

/-- The root commit is started (R265). -/
def jrcCommit : Prop :=
  ∀ (s : State) (i : Initiator) (v : Word), coreAccess s i .jrc 0 = true → s.jrc.hold = false → s.jrc.committing = false →
    s.jrc.twoGen = true →
    Completes (.jrcCommit i v) s fun t => t.jrc = { s.jrc with committing := true } ∧ rdField t 0x60030 29 28 = 2 ∧
      OnlyChanges [.regs, .jrc] s t

/-- The root is committed: its sequence number is one more than JRC_ROOTSEQ held, both copies of the bank that did not hold the newest root
carry it, blocks that became FREE in an older generation may be used, and source 59 is raised (R265 step 7, R267). -/
def rootCommitDone : Prop :=
  ∀ (s : State) (n r : Root), s.jrc.committing = true → s.jrc.next = some n → commitRoot s = some r → Calm s → s.flash.ops = [] →
    s.map.sysSb = [] → s.prog.stage ≠ 5 → s.chip.held = false →
    s.pat.deadQ = [] → s.pat.staging.length < 512 →
    Completes .rootCommitDone s fun t => t.jrc.committing = false ∧ t.jrc.twoGen = false ∧ t.jrc.next = none ∧
      rd t 0x60038 = (rd s 0x60038 + 1) % 2 ^ 64 ∧ raised t 59 = true ∧
      nget t.jrc.roots (2 * otherBank s.jrc) = some r ∧ nget t.jrc.roots (2 * otherBank s.jrc + 1) = some r ∧ r.valid = (fieldAt r.bytes 0 4 == 0x524F4F54) ∧
      (∀ k b, nget s.map.tab.blocks k = some b → b.st = 1 →
        (b.epoch ≤ s.jrc.gen - 1 → ∃ d, nget t.map.tab.blocks k = some d ∧ (d = { b with st := 0 } ∨ d.st = 2)) ∧
        (s.jrc.gen - 1 < b.epoch → nget t.map.tab.blocks k = some b))

/-! ## The patrol and the owner search (R282 to R290) -/

/-- The patrol's read of this page group has ended with its last codeword. -/
def PatrolEnds (s : State) (x m r : Nat) (c : PatRead) (b : Sb) : Prop :=
  s.pat.cur = some c ∧ c.sbx = x ∧ c.mem = m ∧ c.row = r ∧ c.pend = [] ∧ nget s.map.tab.sbs x = some b

/-- A patrol read that the courier turned away: the page group stays in the inspection queue, the visit reads it again, and nothing is
queued for refresh (Table 11-3). -/
def patrolReadTurned : Prop :=
  ∀ (s : State) (x m r : Nat) (c : PatRead) (b : Sb), PatrolEnds s x m r c b → c.status = 1 → s.pat.visit = some x →
    patSpot s x b = some (m, r) →
    Completes (.patrolReadDone x m r c.status c.worst c.corr c.lost) s fun t => t.pat.insp = s.pat.insp ∧ (m, r) ∈ t.pat.redo ∧ t.map.refresh = s.map.refresh

/-- A page group that needed a rebuild: PAT_CAUSE bit 1, and the count of rebuilds (Tables 11-1 and 11-3). -/
def patrolReadDone : Prop :=
  ∀ (s : State) (x m r : Nat) (c : PatRead) (b : Sb), PatrolEnds s x m r c b → c.status = 0 → c.lost = [] → c.worst = 5 →
    Completes (.patrolReadDone x m r c.status c.worst c.corr c.lost) s fun t => bitOf (rd t (pat 0x54)) 1 = true ∧
      rd t (pat 0x48) % 2 ^ 32 = min (rd s (pat 0x48) % 2 ^ 32 + 1) (2 ^ 32 - 1)

/-- A clean one: no count rises, nothing is queued for refresh, and it leaves the inspection queue (Table 11-1, R288). -/
def patrolReadClean : Prop :=
  ∀ (s : State) (x m r : Nat) (c : PatRead) (b : Sb), PatrolEnds s x m r c b → c.status = 0 → c.lost = [] → c.worst ≤ 1 →
    c.corr ≤ rdField s (pat 0x14) 9 0 →
    Completes (.patrolReadDone x m r c.status c.worst c.corr c.lost) s fun t => rd t (pat 0x44) = rd s (pat 0x44) ∧ rd t (pat 0x48) = rd s (pat 0x48) ∧
      rd t (pat 0x4C) = rd s (pat 0x4C) ∧ t.map.refresh = s.map.refresh ∧ t.pat.insp = s.pat.insp.filter (· != c.pg)

/-- A read lost with its bus: PAT_CAUSE bit 5 (Table 11-3). -/
def patrolReadLost : Prop :=
  ∀ (s : State) (x m r : Nat) (c : PatRead) (b : Sb), PatrolEnds s x m r c b → c.status = 2 →
    Completes (.patrolReadDone x m r c.status c.worst c.corr c.lost) s fun t => bitOf (rd t (pat 0x54)) 5 = true

/-- The rescan chooses the one superblock that has something to read (R285). -/
def patrolRescan : Prop :=
  ∀ (s : State) (x : Nat) (b : Sb), patOn s = true → s.pat.visit = none → patCands s = [(x, b)] →
    Completes .patrolRescan s fun t => t.pat.visit = some x ∧ t.map.refresh = s.map.refresh

/-- The thermal age in sixteenths of a second rises by the band's factor (R284). -/
def patrolTageTick : Prop :=
  ∀ (s : State), 1 ≤ s.thm.band → s.thm.band ≤ 4 →
    Completes .patrolTageTick s fun t => 16 * t.pat.tage + t.pat.tageRes = 16 * s.pat.tage + s.pat.tageRes +
      bitsOf (rd s (pat 0x18)) (8 * s.thm.band - 1) (8 * (s.thm.band - 1)) ∧ t.pat.tageRes < 16

/-- Outside full rate the pacing interval lets the patrol issue one read, which pins its superblock; at full rate it adds none (R283,
R286). -/
def patrolFloorPace : Prop :=
  ∀ (s : State),
    (∀ x m r b, patOn s = true → patFull s = false → s.pat.cur = none → patPick s = some (x, m, r) → nget s.map.tab.sbs x = some b →
      Completes .patrolFloorPace s fun t =>
        t.pat = { s.pat with cur := some { sbx := x, mem := m, row := r, pg := b.page m r, pend := List.range 16 } } ∧
        nget t.map.tab.sbs x = some { b with pins := min (b.pins + 1) 65535 }) ∧
    (patFull s = true → Completes .patrolFloorPace s fun t => t = s)

/-- An owner search starts over the first COUNT entries of its list (R289). -/
def ownerSearch : Prop :=
  ∀ (s : State) (i : Initiator) (v : Word) (l : List (Ppa × Bool)), coreAccess s i .pat 0 = true → s.pat.search = none →
    1 ≤ v.toNat % 128 → v.toNat % 128 ≤ 64 →
    Completes (.ownerSearch i v l) s fun t => t.pat = { s.pat with search := some (l.take (v.toNat % 128)) } ∧
      bitOf (rd t (Reg.sts .pat)) 18 = true ∧ rdField t (pat 0x64) 15 0 = (rdField s (pat 0x64) 15 0 + 1) % 65536 ∧
      OnlyChanges [.regs, .pat] s t

/-- Its results stand in DRAM after the list, with their count and VALID in PAT_OSRES (R289). -/
def ownerSearchDone : Prop :=
  ∀ (s : State) (l : List (Ppa × Bool)), s.pat.search = some l → memWf 0 s.dram = true → s.mem.merge = [] →
    MapSound s → dlqOpen s = [] →
    Completes .ownerSearchDone s fun t => t.pat.search = none ∧ rdField t (pat 0x64) 26 16 = (owners s.map.tab l).length ∧
      rdField t (pat 0x64) 31 31 = 1 ∧ bitOf (rd t (pat 0x54)) 0 = true ∧
      memReads 0 t.dram (rdField s (pat 0x58) 35 6 * 64 + 512) (16 * (owners s.map.tab l).length) =
        (owners s.map.tab l).flatMap fun r => le 6 r.2.1 ++ le 1 r.1 ++ le 1 r.2.2.1 ++ le 5 r.2.2.2 ++ le 3 0

/-! ## DRAM, SRAM and JRAM integrity (R297 to R314) -/

/-- A zero-fill starts: the bytes of its range read 0, no other byte changes, and GEN of its result rises (R54, R301). -/
def zeroFillStart : Prop :=
  ∀ (s : State) (i : Initiator) (v : Word) (lo n : Nat), coreAccess s i .drc 0 = true → s.mem.zf = none →
    rdField s 0x50010 35 16 = lo → rdField s 0x50018 36 16 = n →
    Completes (.zeroFillStart i v) s fun t => t.mem.zf = some (lo, lo + n) ∧
      (∀ a, lo * 65536 ≤ a → a < (lo + n) * 65536 → memRead 0 t.dram a = (0 : Byte)) ∧
      (∀ a, (a < lo * 65536 ∨ (lo + n) * 65536 ≤ a) → memRead 0 t.dram a = memRead 0 s.dram a) ∧
      rdField t 0x50024 15 0 = (rdField s 0x50024 15 0 + 1) % 65536 ∧ OnlyChanges [.regs, .dram, .mem] s t

/-- Its end, with nothing written there meanwhile: the granules count as initialised, and source 65 is raised (R301). -/
def zeroFillDone : Prop :=
  ∀ (s : State) (lo hi : Nat), s.mem.zf = some (lo, hi) → lo < hi → s.prog.stage ≠ 2 → s.chip.held = false →
    (∀ e ∈ s.dram, e.1 < lo * 65536 ∨ hi * 65536 ≤ e.1) → (∀ e ∈ s.mem.merge, inGranules lo hi e.line = false) →
    Completes .zeroFillDone s fun t => t.mem.zf = none ∧ t.dram = s.dram ∧ raised t 65 = true ∧ rdField t 0x50024 31 31 = 1 ∧
      (s.mem.granules = [] → initCount t = min 1048576 (hi - lo))

/-- A merge-buffer entry of a whole line, with the cache off, goes to DRAM as it is (R303). -/
def mergeAgeFlush : Prop :=
  ∀ (s : State) (line : Nat) (e : MergeEnt) (r : UnitRead) (old : BitVec 512), (s.mem.merge.find? fun x => x.line == line) = some e →
    e.mask = BitVec.allOnes 64 → s.phc.st = 0 → memWf 0 s.dram = true → joinedTo s.mem.merge line = [line] →
    Completes (.mergeAgeFlush line r old) s fun t => LineStored s t line e.data ∧ (∀ x ∈ t.mem.merge, x.line ≠ line)

/-- A partial one, with the cache off, is merged with what DRAM holds once that has been read well, and written (R303). -/
def mergeAgeFlushPartial : Prop :=
  ∀ (s : State) (line : Nat) (e : MergeEnt) (r : UnitRead) (old : BitVec 512), (s.mem.merge.find? fun x => x.line == line) = some e →
    e.mask ≠ BitVec.allOnes 64 → s.phc.st = 0 → memWf 0 s.dram = true → joinedTo s.mem.merge line = [line] → effective s line r = .clean →
    Completes (.mergeAgeFlush line r old) s fun t => LineStored s t line (mergeLine e.mask (dramLine s line) e.data) ∧
      (∀ x ∈ t.mem.merge, x.line ≠ line) ∧ rd t 0x5005C % 2 ^ 32 = min (rd s 0x5005C % 2 ^ 32 + 1) (2 ^ 32 - 1)

/-- Where that read meets an uncorrectable error, the unit is written poisoned, and the error is reported (R302, R304). -/
def mergeAgeFlushBad : Prop :=
  ∀ (s : State) (line : Nat) (e : MergeEnt) (r : UnitRead) (old : BitVec 512), (s.mem.merge.find? fun x => x.line == line) = some e →
    e.mask ≠ BitVec.allOnes 64 → s.phc.st = 0 → joinedTo s.mem.merge line = [line] → effective s line r = .ue → s.chip.held = false →
    Completes (.mergeAgeFlush line r old) s fun t => line ∈ t.mem.poisoned ∧ bitOf (rd t 0x5002C) 0 = true ∧ raised t 66 = true

/-- A segment of the map is rebuilt: it is held no longer; an unreadable one leads to FAILED (R278, R308). -/
def segmentRebuildDone : Prop :=
  ∀ (s : State) (seg : Nat), s.phc.lost = [seg] →
    (Calm s → s.flash.ops = [] → s.jrc.applyQ = [] → Completes (.segmentRebuildDone seg true) s fun t => t.phc.lost = []) ∧
    (Completes (.segmentRebuildDone seg false) s fun t => t.map.chip = 4)

/-- A scrub starts over its range, rounded outward to whole units (R310). -/
def scrubStart : Prop :=
  ∀ (s : State) (i : Initiator) (v : Word) (base len : Nat), coreAccess s i .scb 0 = true → s.mem.scrub = none →
    rdField s 0x110010 39 0 = base → rdField s 0x110018 39 0 = len → bitsOf (rd s 0x110020) 1 0 = 0 →
    Completes (.scrubStart i v) s fun t =>
      t.mem.scrub = some (0, bitsOf (rd s 0x110020) 7 4, base / 64 * 64, (base + len + 63) / 64 * 64) ∧ rdField t 0x11002C 31 31 = 0

/-- A running scrub is told to end after the unit in progress (R310). -/
def scrubStop : Prop :=
  ∀ (s : State) (i : Initiator) (v : Word), coreAccess s i .scb 0 = true → s.mem.scrub.isSome = true →
    Completes (.scrubStop i v) s fun t => t.mem = { s.mem with scrubStop := true } ∧ OnlyChanges [.mem] s t

/-- A scrub that found every unit clean ends: counts of 0, VALID, STOPPED as asked, and source 69 (R310). -/
def scrubDone : Prop :=
  ∀ (s : State) (mem unit lo hi : Nat) (found : List (Nat × UnitRead)), s.mem.scrub = some (mem, unit, lo, hi) → s.mem.scrubCmd = none →
    s.chip.held = false → s.mem.merge = [] → (∀ x ∈ scrubReads mem lo hi found, scrubReport s mem x = .clean) →
    Completes (.scrubDone found) s fun t => t.mem.scrub = none ∧ rd t 0x110030 = 0 ∧ rd t 0x110034 = 0 ∧ rdField t 0x11002C 31 31 = 1 ∧
      rdField t 0x11002C 30 30 = (if s.mem.scrubStop then 1 else 0) ∧ raised t 69 = true

/-- One unit of JRAM that needed a correction: the count is 1, SCB_FIRST names it, and it enters the list of offenders (R305, R310,
R311). -/
def scrubDoneCorrected : Prop :=
  ∀ (s : State) (unit lo hi a p : Nat) (r : UnitRead), s.mem.scrub = some (1, unit, lo, hi) → s.mem.scrubCmd = none →
    s.mem.scrubStop = false → lo % 64 = 0 → hi % 64 = 0 → a % 64 = 0 → lo ≤ a → a < hi → a < 2 ^ 40 → s.mem.offend = [] → s.jrc.hurt = [] →
    jramReport r = .corrected p →
    Completes (.scrubDone [(a, r)]) s fun t => rd t 0x110030 = 1 ∧ rd t 0x110034 = 0 ∧ rd t 0x110038 = 2 ^ 63 + a ∧
      t.mem.offend = [{ mem := 1, unit := offUnit 1 unit, addr := offAddr 1 a, corr := 1, rewr := 0 }]

/-- A line's switch to its spare is done (R314). -/
def jramLineSwitch : Prop :=
  ∀ (s : State) (die line : Nat),
    Completes (.jramLineSwitch die line) s fun t => (die, line) ∉ t.mem.jline ∧
      (∀ x, x ≠ (die, line) → (x ∈ t.mem.jline ↔ x ∈ s.mem.jline)) ∧ OnlyChanges [.mem] s t

/-! ## The Yosol ring (R318 to R346) -/

/-- A dispatch sent from a port: its bytes as R321 frames them. -/
def frameOut (p : RingPort) (typ dst src ttl seq : Nat) (pl : List Byte) : Out := .frame p (frameBytes typ dst src ttl seq pl)

/-- A neighbour dispatch that the ring engine takes: its port is UP, it names the next unit (0x40), and the engine runs. -/
def Near (s : State) (h : DispHdr) : Prop := linkOf s.ring h.port = .up ∧ h.dst = 0x40 ∧ running s .rng = true

/-- A first copy of another unit's dispatch, on a port that is UP, of the unit's own group where it carries a GID (R322, R323). -/
def FirstCopy (s : State) (h : DispHdr) (gid : Option Nat) : Prop :=
  linkOf s.ring h.port = .up ∧ running s .rng = true ∧ s.ring.addr ≠ some h.src ∧ h.src < 64 ∧
    (seqMark (nget s.ring.seen h.src) h.seq).isSome = true ∧ (gid = none ∨ s.ring.gid = none ∨ gid = s.ring.gid)

/-- Such a copy of a broadcast. -/
def Heard (s : State) (h : DispHdr) (gid : Option Nat) : Prop := FirstCopy s h gid ∧ h.dst = 0xFF

/-- Such a copy for this unit alone. -/
def Addressed (s : State) (h : DispHdr) (gid : Option Nat) : Prop := FirstCopy s h gid ∧ h.dst < 64 ∧ s.ring.addr = some h.dst

/-- From s to t a dispatch of the unit's own went out on every port that is UP, with the unit's SEQ of s. -/
def Sent (s t : State) (typ dst : Nat) (pl : List Byte) : Prop :=
  ∀ p, linkOf s.ring p = .up → frameOut p typ dst (ownSrc s) 64 s.ring.seq pl ∈ t.out

/-- A dispatch to the neighbour on a port. -/
def SentNear (s t : State) (p : RingPort) (typ src : Nat) (pl : List Byte) : Prop :=
  frameOut p typ 0x40 src 64 s.ring.seq pl ∈ t.out

/-- Signal on a port that is DOWN: it trains, LINK goes out, and RNG_CAUSE bit 1 is set (R320, Table 13-14). -/
def ringSignalDetect : Prop :=
  ∀ (s : State) (p : RingPort), linkOf s.ring p = .down →
    Completes (.ringSignalDetect p) s fun t => linkOf t.ring p = .training ∧ bitOf (rd t Reg.rngCause) 1 = true ∧
      frameOut p 0x01 0x40 (ownSrc s) 64 0 (linkBytes s p) ∈ t.out

/-- Training ends UP where the far end's port has the opposite name, and MISWIRED where it has the same (R320). -/
def ringLinkUp : Prop :=
  ∀ (s : State) (p : RingPort), linkOf s.ring p = .training →
    Completes (.ringLinkUp p false) s (fun t => linkOf t.ring p = .up ∧ linkOf t.ring p.other = linkOf s.ring p.other ∧
      bitOf (rd t Reg.rngCause) 1 = true) ∧
    Completes (.ringLinkUp p true) s (fun t => linkOf t.ring p = .miswired ∧ linkOf t.ring p.other = linkOf s.ring p.other ∧
      bitOf (rd t Reg.rngCause) 9 = true)

/-- A port goes DOWN; its departures from UP are counted, saturating (R320, Table 13-10). -/
def ringLinkDown : Prop :=
  ∀ (s : State) (p : RingPort), linkOf s.ring p ≠ .down →
    Completes (.ringLinkDown p) s fun t => linkOf t.ring p = .down ∧ bitOf (rd t Reg.rngCause) 1 = true ∧
      (linkOf s.ring p = .up → p = .east → rdField t Reg.rngDown 15 0 = min (rdField s Reg.rngDown 15 0 + 1) 65535) ∧
      (linkOf s.ring p = .up → p = .west → rdField t Reg.rngDown 31 16 = min (rdField s Reg.rngDown 31 16 + 1) 65535)

/-- LINK names the neighbour's serial and port (R320); one of another GID is dropped and counted (R323). -/
def link : Prop :=
  ∀ (s : State) (h : DispHdr) (serial gid addr far : Nat), linkOf s.ring h.port ≠ .down →
    (64 ≤ addr ∨ s.ring.gid = none ∨ s.ring.gid = some gid → Completes (.link h serial gid addr far) s fun t => OnlyChanges [.ring] s t ∧
      (match h.port with | .east => t.ring.nbEast = some (serial, far) | .west => t.ring.nbWest = some (serial, far))) ∧
    (∀ g, addr < 64 → s.ring.gid = some g → g ≠ gid → Completes (.link h serial gid addr far) s fun t => t.ring = s.ring ∧
      rdField t Reg.rngForeign 31 0 = min (rdField s Reg.rngForeign 31 0 + 1) (2 ^ 32 - 1) ∧ bitOf (rd t Reg.rngCause) 10 = true)

/-- A beacon of the group: its address is in the reachable set and its content is held (R327). -/
def beacon : Prop :=
  ∀ (s : State) (h : DispHdr) (gid addr state ports n pm sseq hash : Nat) (strap : Bool), Heard s h (some gid) → addr < 64 →
    Completes (.beacon h gid addr state ports n pm sseq hash strap) s fun t => addr ∈ t.ring.reach ∧
      nget t.ring.heard addr = some ⟨gid, addr, state, ports, n, pm, sseq, hash, strap⟩

/-- SYNC_REQ is answered to the neighbour with T1 and the time in 64ths of a count, twice (R332). -/
def syncReq : Prop :=
  ∀ (s : State) (h : DispHdr) (t1 : Nat), Near s h →
    Completes (.syncReq h t1) s fun t =>
      t.out = s.out ++ [frameOut h.port 0x04 0x40 (ownSrc s) 64 s.ring.seq (le 8 t1 ++ le 8 (64 * s.clk.tb) ++ le 8 (64 * s.clk.tb))] ∧
      OnlyChanges [.out, .ring] s t

/-- SYNC_RSP from the upstream port: the offset is half of (T2 - T1) + (T3 - T4); a locked unit slews it, and never steps (R332, R334). -/
def syncRsp : Prop :=
  ∀ (s : State) (h : DispHdr) (t1 t2 t3 t4 : Nat), Near s h → s.ring.st = .member → s.ring.upstream = some h.port → s.ring.locked = true →
    Completes (.syncRsp h t1 t2 t3 t4) s fun t => t.ring.offset = (((t2 : Int) - t1) + ((t3 : Int) - t4)) / 2 ∧
      t.ring.holdover = false ∧ t.clk.tb = s.clk.tb

/-- The first lock ahead of the timebase steps it forward by whole counts; less than half a count is left (R334). -/
def syncRspFirst : Prop :=
  ∀ (s : State) (h : DispHdr) (t1 t2 t3 t4 : Nat), Near s h → s.ring.st = .member → s.ring.upstream = some h.port → s.ring.locked = false →
    0 ≤ (((t2 : Int) - t1) + ((t3 : Int) - t4)) / 2 →
    Completes (.syncRsp h t1 t2 t3 t4) s fun t => t.ring.locked = true ∧ s.clk.tb ≤ t.clk.tb ∧
      (64 * t.clk.tb : Int) + t.ring.offset = 64 * s.clk.tb + (((t2 : Int) - t1) + ((t3 : Int) - t4)) / 2 ∧
      -32 ≤ t.ring.offset ∧ t.ring.offset < 32

/-- ENUM: the unit takes NEXT as its address and passes NEXT + 1 on, or ends the pass with ENUMEND where it cannot (R325). -/
def enumTaken : Prop :=
  ∀ (s : State) (h : DispHdr) (next dir tbmax origin : Nat), Near s h → s.ring.origin = none → next < 64 →
    Completes (.enum h next dir tbmax origin) s fun t => t.ring.addr = some next ∧ t.ring.origin = some origin ∧ t.ring.gid = none ∧
      (linkOf s.ring h.port.other = .up →
        SentNear s t h.port.other 0x10 next (enumBytes (next + 1) dir (max tbmax s.clk.tb) origin)) ∧
      (linkOf s.ring h.port.other ≠ .up → frameOut h.port 0x11 0xFF next 64 s.ring.seq
        (le 1 (next + 1) ++ le 1 dir ++ le 8 (max tbmax s.clk.tb) ++ le 4 origin) ∈ t.out)

/-- An ENUM of a higher ORIGIN than one already taken is dropped (R325). -/
def enumDropped : Prop :=
  ∀ (s : State) (h : DispHdr) (next dir tbmax origin o : Nat), Near s h → s.ring.origin = some o → o < origin →
    Completes (.enum h next dir tbmax origin) s fun t => t = s

/-- The westward pass ends: the originator has address 0 and is postmaster of COUNT units, GID and GSTART are the group time
TBMAX + 2^20, and it is a member (R325 step 4). -/
def enumend : Prop :=
  ∀ (s : State) (h : DispHdr) (count tbmax origin : Nat), Heard s h none → s.ring.starting = true → s.ring.origin = some origin →
    Completes (.enumend h count 1 tbmax origin) s fun t => t.ring.st = .member ∧ t.ring.n = count ∧ t.ring.addr = some 0 ∧
      t.ring.pmaddr = some 0 ∧ t.ring.role = 1 ∧ t.ring.gid = some (max s.ring.tbmax tbmax + 2 ^ 20) ∧
      t.ring.gstart = max s.ring.tbmax tbmax + 2 ^ 20 ∧ t.ring.starting = false ∧ t.ring.geper = rdField s Reg.rngGeper 15 0

/-- The eastward pass ends: the westward one begins at COUNT (R325 step 3). -/
def enumendEast : Prop :=
  ∀ (s : State) (h : DispHdr) (count tbmax origin : Nat), Heard s h none → s.ring.starting = true → s.ring.origin = some origin →
    s.ring.eastDone = false → s.ring.west = .up →
    Completes (.enumend h count 0 tbmax origin) s fun t => t.ring.eastDone = true ∧ t.ring.starting = true ∧
      SentNear s t .west 0x10 (ownSrc s) (enumBytes count 1 (max s.ring.tbmax tbmax) (serhash s))

/-- GROUPSTATE makes an addressed unit a member of the group that it describes (R325 step 5). -/
def groupstate : Prop :=
  ∀ (s : State) (h : DispHdr) (gid n pm gstart geper : Nat), Heard s h (some gid) → s.ring.addr.isSome = true → s.ring.st ≠ .isolated →
    Completes (.groupstate h false gid n pm gstart geper) s fun t => t.ring.st = .member ∧ t.ring.gid = some gid ∧ t.ring.n = n ∧
      t.ring.pmaddr = some pm ∧ t.ring.gstart = gstart ∧ t.ring.geper = geper

/-- A request for it: the postmaster acknowledges and answers that unit, to be repeated until its ACK (R323). -/
def groupstateRequested : Prop :=
  ∀ (s : State) (h : DispHdr), Addressed s h none → s.ring.role = 1 →
    Completes (.groupstate h true 0 0 0 0 0) s fun t => Sent s t 0x22 h.src (le 1 0x12 ++ le 2 h.seq) ∧
      t.ring.repeats = s.ring.repeats ++ [⟨0x12, h.src, (s.ring.seq + 1) % 65536, ownGs s.ring, 3, true⟩]

/-- JOIN at the postmaster: a new serial has address N, and N rises (R326). -/
def join : Prop :=
  ∀ (s : State) (h : DispHdr) (serial : Nat), Heard s h none → s.ring.role = 1 → nget s.ring.admitted serial = none → s.ring.n < 64 →
    Completes (.join h serial) s fun t => t.ring.n = s.ring.n + 1 ∧ nget t.ring.admitted serial = some s.ring.n ∧
      ∃ q, (⟨0x14, 0xFF, q, admitBytes serial s.ring.n (s.ring.gid.getD 0) (s.ring.n + 1), 2, false⟩ : Repeat) ∈ t.ring.repeats

/-- A unit beyond the 64th is refused: RNG_CAUSE bit 12 (R326). -/
def joinRefused : Prop :=
  ∀ (s : State) (h : DispHdr) (serial : Nat), Heard s h none → s.ring.role = 1 → nget s.ring.admitted serial = none → 64 ≤ s.ring.n →
    Completes (.join h serial) s fun t => bitOf (rd t Reg.rngCause) 12 = true ∧ t.ring.n = s.ring.n ∧ t.ring.admitted = s.ring.admitted

/-- ADMIT of this unit's own serial: it takes the address, the GID and N (R326). -/
def ringAdmit : Prop :=
  ∀ (s : State) (h : DispHdr) (addr gid n : Nat), Heard s h (some gid) → s.ring.addr = none →
    Completes (.ringAdmit h s.chip.serial.toNat addr gid n) s fun t => t.ring.addr = some addr ∧ t.ring.gid = some gid ∧ t.ring.n = n

/-- ROLE: a member takes the new postmaster (R330). -/
def role : Prop :=
  ∀ (s : State) (h : DispHdr) (pm prev : Nat), Heard s h none → s.ring.st = .member →
    Completes (.role h pm prev) s fun t => t.ring.pmaddr = some pm ∧ t.ring.st = .member

/-- The first part of a schedule is held (R336). -/
def sched : Prop :=
  ∀ (s : State) (h : DispHdr) (part sseq : Nat) (bytes : BitVec 384), Heard s h none → s.ring.st = .member → part < 6 → s.ring.parts = [] →
    Completes (.sched h false part sseq bytes) s fun t => t.ring.parts = [(part, sseq, bytes)] ∧ t.ring.sched = s.ring.sched ∧
      t.ring.nextSched = s.ring.nextSched

/-- With the last of its six parts a schedule with an SSEQ takes effect: at once where its EFF has passed, else at EFF (R336). -/
def schedWhole : Prop :=
  ∀ (s : State) (h : DispHdr) (part sseq : Nat) (bytes : BitVec 384) (d : SchedDesc), Heard s h none → s.ring.st = .member → part < 6 →
    sseq ≠ 0 → s.ring.schedWait = none → schedJoined { s.ring with parts := nset s.ring.parts part (sseq, bytes) } sseq = some d →
    Completes (.sched h false part sseq bytes) s fun t => t.ring.parts = [] ∧ bitOf (rd t Reg.rngCause) 5 = true ∧
      (d.eff ≤ groupTime s → t.ring.sched = some d ∧ t.ring.nextSched = none) ∧
      (groupTime s < d.eff → t.ring.sched = s.ring.sched ∧ t.ring.nextSched = some d)

/-- ACK ends the repeats of the dispatch that it names, to the unit it came from (R323). -/
def ack : Prop :=
  ∀ (s : State) (h : DispHdr) (typ seq : Nat), Addressed s h none →
    Completes (.ack h typ seq) s fun t => t.out = s.out ∧
      ∀ x, x ∈ t.ring.repeats ↔ x ∈ s.ring.repeats ∧ ¬ (x.acked = true ∧ x.typ = typ ∧ x.seq = seq ∧ x.dst = h.src)

/-- ACT schedules an activation (R341). -/
def act : Prop :=
  ∀ (s : State) (h : DispHdr) (digest tact step : Nat), Heard s h none →
    Completes (.act h digest tact step) s fun t => t.ring.act = some (digest, tact, step)

/-- An offer of an image not held: reception begins, and chunk 0 is asked for (R342 step 3). -/
def relOffer : Prop :=
  ∀ (s : State) (h : DispHdr) (size digest : Nat), Near s h → relays s = true → size ≤ 2 ^ 24 → digest ∉ s.ring.haveImgs →
    (∀ k, k < 2 → digest16 (slotImage s k) ≠ digest) → s.ring.rx.active = false →
    Completes (.relOffer h size digest) s fun t => t.ring.rx = ⟨digest, size, 0, 0, true⟩ ∧ t.ring.rxFrom = some h.port ∧
      t.ring.rxImage = [] ∧ SentNear s t h.port 0x42 (ownSrc s) (le 4 0)

/-- An offer of an image that is held is answered REL_HAVE (R342 step 2). -/
def relOfferHeld : Prop :=
  ∀ (s : State) (h : DispHdr) (size digest : Nat), Near s h → relays s = true → size ≤ 2 ^ 24 → digest ∈ s.ring.haveImgs →
    Completes (.relOffer h size digest) s fun t => t.ring.rx = s.ring.rx ∧ SentNear s t h.port 0x43 (ownSrc s) (le 16 digest)

/-- The wanted chunk, not the last: it is stored, and every 16th is acknowledged (R342 step 4). -/
def relData : Prop :=
  ∀ (s : State) (h : DispHdr) (bytes : List Byte), Near s h → relays s = true → s.ring.rx.active = true → s.ring.rxFrom = some h.port →
    s.ring.rx.next + 1 < relChunks s.ring.rx.size → s.ring.rxImage.length + bytes.length < s.ring.rx.size →
    Completes (.relData h s.ring.rx.next bytes) s fun t => t.ring.rx.next = s.ring.rx.next + 1 ∧ t.ring.rxImage = s.ring.rxImage ++ bytes ∧
      ((s.ring.rx.next + 1) % 16 = 0 → SentNear s t h.port 0x42 (ownSrc s) (le 4 (s.ring.rx.next + 1)))

/-- Any other chunk is ignored (R342 step 4). -/
def relDataIgnored : Prop :=
  ∀ (s : State) (h : DispHdr) (index : Nat) (bytes : List Byte), Near s h → index ≠ s.ring.rx.next → relayWhole s.ring = false →
    Completes (.relData h index bytes) s fun t => t = s

/-- REL_ACK: past the last chunk the relay is done; else chunks up to 64 beyond NEXT have been sent (R342 step 3). -/
def relAck : Prop :=
  ∀ (s : State) (h : DispHdr) (next : Nat), Near s h → (txOf s.ring h.port).active = true → s.ring.st = .member →
    Completes (.relAck h next) s fun t => (txOf t.ring h.port).next = next ∧
      (relChunks (txOf s.ring h.port).size ≤ next → (txOf t.ring h.port).active = false ∧ t.out = s.out) ∧
      (next < relChunks (txOf s.ring h.port).size → (txOf t.ring h.port).sent =
        max (txOf s.ring h.port).sent (min (relChunks (txOf s.ring h.port).size) (next + 64)))

/-- REL_HAVE stops the relay on that side (R342 step 2). -/
def relHave : Prop :=
  ∀ (s : State) (h : DispHdr), Near s h →
    Completes (.relHave h (txOf s.ring h.port).digest) s fun t => (txOf t.ring h.port).active = false ∧
      txOf t.ring h.port.other = txOf s.ring h.port.other

/-- A firmware dispatch waits for SC1; the seventeenth is dropped and counted (R323). -/
def ringFirmwareDispatch : Prop :=
  ∀ (s : State) (h : DispHdr) (typ : Nat) (pl : List Byte), Heard s h none →
    Completes (.ringFirmwareDispatch h typ pl) s fun t =>
      (s.ring.rxq.length < 16 → t.ring.rxq = s.ring.rxq ++ [⟨typ, h.src, pl⟩]) ∧
      (16 ≤ s.ring.rxq.length → t.ring.rxq = s.ring.rxq ∧
        rdField t Reg.rngForeign 31 0 = min (rdField s Reg.rngForeign 31 0 + 1) (2 ^ 32 - 1) ∧ bitOf (rd t Reg.rngCause) 10 = true)

/-- A dispatch of a reserved type is dropped and counted, and still forwarded with TTL one less and its payload, which is
free (R322, R323, log entry 5). -/
def reservedDispatchType : Prop :=
  ∀ (s : State) (h : DispHdr) (typ : Nat), Heard s h none →
    Completes (.reservedDispatchType h typ) s fun t =>
      rdField t Reg.rngForeign 31 0 = min (rdField s Reg.rngForeign 31 0 + 1) (2 ^ 32 - 1) ∧ bitOf (rd t Reg.rngCause) 10 = true ∧
      (1 < h.ttl → s.ring.addr ≠ some 0xFF → linkOf s.ring h.port.other = .up →
        ∃ pl, pl.length ≤ 64 ∧ frameOut h.port.other typ 0xFF h.src (h.ttl - 1) h.seq pl ∈ t.out)

/-- A repeated copy is dropped: nothing is used or forwarded (R322). -/
def repeatedCopy : Prop :=
  ∀ (s : State) (h : DispHdr) (typ : Nat) (pl : List Byte), linkOf s.ring h.port = .up → h.dst ≠ 0x40 → h.src < 64 →
    seqMark (nget s.ring.seen h.src) h.seq = none →
    Completes (.ringFirmwareDispatch h typ pl) s fun t => t = s

/-- A bad frame is counted for its port, saturating (R321). -/
def dispatchFrameError : Prop :=
  ∀ (s : State),
    Completes (.dispatchFrameError .east) s (fun t => rdField t Reg.rngErr 15 0 = min (rdField s Reg.rngErr 15 0 + 1) 65535 ∧
      rdField t Reg.rngErr 31 16 = rdField s Reg.rngErr 31 16 ∧ OnlyChanges [.regs] s t) ∧
    Completes (.dispatchFrameError .west) s (fun t => rdField t Reg.rngErr 31 16 = min (rdField s Reg.rngErr 31 16 + 1) 65535 ∧
      rdField t Reg.rngErr 15 0 = rdField s Reg.rngErr 15 0 ∧ OnlyChanges [.regs] s t)

/-- RNG_TXCTL sends the first LEN bytes of the buffer as a broadcast of a firmware type (R323, Table 13-13). -/
def ringTxDispatch : Prop :=
  ∀ (s : State) (i : Initiator) (v : Word), coreAccess s i .rng 0 = true → running s .rng = true → v.toNat < 2 ^ 32 →
    0x80 ≤ bitsOf v.toNat 31 24 → bitsOf v.toNat 31 24 ≤ 0xEF → bitsOf v.toNat 23 16 = 0xFF → bitsOf v.toNat 6 0 ≤ 64 →
    Completes (.ringTxDispatch i v) s fun t => t.ring.seq = (s.ring.seq + 1) % 65536 ∧ OnlyChanges [.ring, .out] s t ∧
      Sent s t (bitsOf v.toNat 31 24) 0xFF
        (((List.range 16).map fun w => le 4 (rd s (Reg.rngTxbuf w))).flatten.take (bitsOf v.toNat 6 0))

/-- RX_POP takes the oldest queued dispatch away (R323). -/
def ringRxPop : Prop :=
  ∀ (s : State) (i : Initiator) (v : Word), coreAccess s i .rng 0 = true →
    Completes (.ringRxPop i v) s fun t => t.ring = { s.ring with rxq := s.ring.rxq.drop 1 } ∧ OnlyChanges [.ring] s t

/-- RNG_CMD.ENUM: at the postmaster enumeration begins again; elsewhere it is rejected (R326). -/
def rngEnumCommand : Prop :=
  ∀ (s : State) (i : Initiator) (v : Word), coreAccess s i .rng 0 = true → running s .rng = true →
    (s.ring.role = 1 → s.ring.east = .up → Completes (.rngEnumCommand i v) s fun t => t.ring.starting = true ∧ t.ring.retried = false ∧
      t.ring.addr = some 0 ∧ SentNear s t .east 0x10 0 (enumBytes 1 0 s.clk.tb (serhash s))) ∧
    (s.ring.role ≠ 1 → Completes (.rngEnumCommand i v) s fun t => bitOf (rd t Reg.rngCause) 11 = true ∧ t.ring = s.ring)

/-- The unit's own beacon goes out (R327). -/
def beaconSend : Prop :=
  ∀ (s : State), running s .rng = true →
    Completes .beaconSend s fun t => Sent s t 0x02 0xFF (beaconBytes (ownBeacon s)) ∧ t.ring.seq = (s.ring.seq + 1) % 65536 ∧
      OnlyChanges [.ring, .out] s t

/-- A unit that is heard no more leaves the reachable set (R327). -/
def reachExpiry : Prop :=
  ∀ (s : State) (a : Nat), a ∈ s.ring.reach →
    Completes (.reachExpiry a) s fun t => t.ring.reach = s.ring.reach.filter (· != a) ∧ t.ring.topo = topoOf t.ring ∧
      t.ring.role = roleOf t.ring

/-- A member that is no longer in the group becomes ISOLATED, with UNSYNC, the change counted and timed (R328, R335). -/
def isolatedEntry : Prop :=
  ∀ (s : State), s.ring.st = .member → inGroup s.ring = false →
    Completes .isolatedEntry s fun t => t.ring.st = .isolated ∧ t.ring.unsync = true ∧ t.ring.changes = s.ring.changes + 1 ∧
      t.ring.tchange = s.clk.tb ∧ bitOf (rd t Reg.rngCause) 0 = true

/-- An isolated unit in the group again, whose beacons name a schedule, is a member, outside its window with none, and asks for both states (R328, R343). -/
def rejoin : Prop :=
  ∀ (s : State) (a : Nat) (b : Beacon), s.ring.st = .isolated → inGroup s.ring = true → a ∈ s.ring.reach → nget s.ring.heard a = some b →
    b.state = 2 → running s .rng = true → (∀ c d, nget s.ring.heard c = some d → d.sseq ≠ 0) →
    Completes .rejoin s fun t => t.ring.st = .member ∧ t.ring.sched = none ∧ t.ring.inWin = false ∧
      t.ring.repeats.length = s.ring.repeats.length + 2

/-- An isolated unit that hears another group and no member of its own gives up its address (R329). -/
def isolatedAddressDrop : Prop :=
  ∀ (s : State), s.ring.st = .isolated → s.ring.foreign = true → (∀ a ∈ s.ring.reach, isMember s.ring a = false) →
    Completes .isolatedAddressDrop s fun t => t.ring.st = .unenumerated ∧ t.ring.addr = none ∧ t.ring.gid = none ∧ t.ring.role = 0

/-- Enumeration starts with address 0 and ENUM to the east (R324, R325 step 1). -/
def enumStart : Prop :=
  ∀ (s : State), mayEnum s = true → running s .rng = true → s.ring.east = .up →
    Completes .enumStart s fun t => t.ring.starting = true ∧ t.ring.addr = some 0 ∧ t.ring.origin = some (serhash s) ∧
      SentNear s t .east 0x10 0 (enumBytes 1 0 s.clk.tb (serhash s))

/-- An enumeration without its end is started once more, and then given up (R325). -/
def enumTimeout : Prop :=
  ∀ (s : State), s.ring.starting = true →
    (s.ring.retried = false → s.ring.east = .up → Completes .enumTimeout s fun t => t.ring.retried = true ∧ t.ring.starting = true ∧
      bitOf (rd t Reg.rngCause) 4 = true) ∧
    (s.ring.retried = true → Completes .enumTimeout s fun t => t.ring.starting = false ∧ t.ring.addr = none ∧
      bitOf (rd t Reg.rngCause) 4 = true)

/-- A unit without an address that hears a group asks to join (R326). -/
def joinSend : Prop :=
  ∀ (s : State), s.ring.st = .unenumerated → s.ring.addr = none → s.ring.heard ≠ [] → mayEnum s = false → s.ring.retried = false →
    running s .rng = true → Completes .joinSend s fun t => Sent s t 0x13 0xFF (le 24 s.chip.serial.toNat) ∧ OnlyChanges [.ring, .out] s t

/-- The sub-postmaster takes over a postmaster that is not reachable, and says so (R330). -/
def postmasterTakeover : Prop :=
  ∀ (s : State) (pm a : Nat), s.ring.st = .member → s.ring.pmaddr = some pm → s.ring.addr = some a → pm ∉ reachSet s.ring →
    subAddr s.ring = some a → running s .rng = true →
    Completes .postmasterTakeover s fun t => t.ring.pmaddr = some a ∧ t.ring.role = 1 ∧ Sent s t 0x15 0xFF (le 1 a ++ le 1 pm)

/-- A repeat goes out with the SEQ it had; its last one ends it (R323). -/
def dispatchRepeat : Prop :=
  ∀ (s : State) (x : Repeat), s.ring.repeats = [x] →
    Completes (.dispatchRepeat x.seq) s fun t => t.ring.repeats = (if x.left ≤ 1 then [] else [{ x with left := x.left - 1 }]) ∧
      t.ring.seq = s.ring.seq ∧
      ∀ p, linkOf s.ring p = .up → frameOut p x.typ x.dst (ownSrc s) 64 x.seq x.payload ∈ t.out

/-- A unit of another GID than its postmaster's beacon, or no member yet, asks it for GROUPSTATE, up to four times in all (R323). -/
def groupstateRequest : Prop :=
  ∀ (s : State) (pm : Nat) (b : Beacon), s.ring.pmaddr = some pm → nget s.ring.heard pm = some b →
    (s.ring.gid ≠ some b.gid ∨ s.ring.st ≠ .member) →
    sseqNow s.ring = b.sseq → b.addr < 64 → running s .rng = true →
    Completes .groupstateRequest s fun t => Sent s t 0x12 b.addr [] ∧
      t.ring.repeats = s.ring.repeats ++ [⟨0x12, b.addr, s.ring.seq, [], 3, true⟩]

/-- A member asks its upstream neighbour for the time (R332). -/
def syncReqSend : Prop :=
  ∀ (s : State) (p : RingPort), s.ring.upstream = some p → s.ring.st = .member → linkOf s.ring p = .up → running s .rng = true →
    Completes .syncReqSend s fun t => t.out = s.out ++ [frameOut p 0x03 0x40 (ownSrc s) 64 s.ring.seq (le 8 (64 * s.clk.tb))] ∧
      OnlyChanges [.ring, .out] s t

/-- A slew ends: the offset is 0, UNSYNC is 0, and the timebase has not fallen (R334, R335). -/
def slewDone : Prop :=
  ∀ (s : State), s.ring.st = .member → s.ring.holdover = false → s.ring.locked = true →
    Completes .slewDone s fun t => t.ring.offset = 0 ∧ t.ring.unsync = false ∧ s.clk.tb ≤ t.clk.tb

/-- The next schedule is the one in force from its EFF on (R336). -/
def scheduleEffective : Prop :=
  ∀ (s : State) (d : SchedDesc), s.ring.nextSched = some d → d.eff ≤ groupTime s →
    Completes .scheduleEffective s fun t => t.ring.sched = some d ∧ t.ring.nextSched = none ∧ t.ring.rejoined = false ∧
      t.ring.inWin = insideWin t

/-- A window begins or ends: IN_WIN is in MAP_REGIME and PAT_STS, and RNG_CAUSE bit 6 is set (R338). -/
def windowBoundary : Prop :=
  ∀ (s : State), insideWin s ≠ s.ring.inWin →
    Completes .windowBoundary s fun t => t.ring.inWin = insideWin s ∧ rdField t Reg.mapRegime 1 1 = (if insideWin s then 1 else 0) ∧
      rdField t (Reg.sts .pat) 17 17 = (if insideWin s then 1 else 0) ∧ bitOf (rd t Reg.rngCause) 6 = true

/-- A group-epoch tick that is due is marked and reported once (R339). -/
def groupEpochTick : Prop :=
  ∀ (s : State), tickDue s = true → running s .jrc = false →
    Completes .groupEpochTick s fun t => t.ring = { s.ring with tickDone := tickIndex s } ∧ bitOf (rd t Reg.rngCause) 7 = true ∧
      tickDue t = false

/-- The wait before start-up ends at the unit's place in the group (R340). -/
def staggeredWakeEnd : Prop :=
  ∀ (s : State), s.chip.wakeWait = true → s.chip.held = false → wakeDue s = true → Completes .staggeredWakeEnd s fun t => t.chip.wakeWait = false

/-- No REL_ACK: the relay goes on from NEXT (R342 step 4). -/
def relayResend : Prop :=
  ∀ (s : State) (p : RingPort), (txOf s.ring p).active = true → s.ring.st = .member → linkOf s.ring p = .up → running s .rng = true →
    (txOf s.ring p).next < relChunks (txOf s.ring p).size →
    Completes (.relayResend p) s fun t =>
      (txOf t.ring p).sent = min (relChunks (txOf s.ring p).size) ((txOf s.ring p).next + 64) ∧
      SentNear s t p 0x41 (ownSrc s) (le 4 (txOf s.ring p).next ++ (s.ring.txImage.drop (60 * (txOf s.ring p).next)).take 60)

/-- At its time a unit outside the group skips the activation: OUTCOME 3 and SEC_CAUSE bit 3 (R341, R362). -/
def activationTimeSkip : Prop :=
  ∀ (s : State) (digest tact step : Nat), s.ring.act = some (digest, tact, step) → s.sec.act = none → s.ring.st ≠ .member →
    tact + s.ring.addr.getD 0 * step * 250000 ≤ groupTime s →
    Completes .activationTime s fun t => t.ring.act = none ∧ rdField t Reg.secActres 30 28 = 3 ∧ rdField t Reg.secActres 31 31 = 1 ∧
      bitOf (rd t Reg.secCause) 3 = true ∧ t.sec.act = none

/-- At its time a member that holds the image, accepted again, activates: fetching stops on both ports (R341, R357, R362). -/
def activationTime : Prop :=
  ∀ (s : State) (tact step : Nat), s.ring.act = some (digest16 (slotImage s (1 - runningSlot s)), tact, step) → s.sec.act = none →
    s.ring.st = .member → tact + s.ring.addr.getD 0 * step * 250000 ≤ groupTime s → accept s (slotImage s (1 - runningSlot s)) = 0 →
    Completes .activationTime s fun t => t.ring.act = none ∧ t.chip.stopFetch = true ∧
      ∃ a, t.sec.act = some a ∧ a.slot = 1 - runningSlot s ∧ a.cmd = none ∧ a.switched = false ∧
        a.digest = Config.sha512 (slotImage s (1 - runningSlot s))

/-- A member whose holdover is over is unsynchronised (R335). -/
def holdoverExpiry : Prop :=
  ∀ (s : State), s.ring.st = .member → s.ring.holdover = true →
    Completes .holdoverExpiry s fun t => t.ring.unsync = true ∧ (s.ring.unsync = false → bitOf (rd t Reg.rngCause) 3 = true)

/-! ## Firmware, fuses, keys and attestation (R348 to R369) -/

/-- An acceptance test starts: GEN rises and VALID is 0 (R54, R352). -/
def imageVerify : Prop :=
  ∀ (s : State) (i : Initiator) (v : Word), coreAccess s i .sec 0 = true → s.sec.verifying = false →
    Completes (.imageVerify i v) s fun t => t.sec = { s.sec with verifying := true } ∧ rdField t Reg.secVres 31 31 = 0 ∧
      rdField t Reg.secVres 15 0 = (rdField s Reg.secVres 15 0 + 1) % 65536 ∧ OnlyChanges [.regs, .sec] s t

/-- A second start while one runs is ignored, with TRIG_IGN (R55). -/
def imageVerifyBusy : Prop :=
  ∀ (s : State) (i : Initiator) (v : Word), coreAccess s i .sec 0 = true → s.sec.verifying = true →
    Completes (.imageVerify i v) s fun t => t.sec = s.sec ∧ bitOf (rd t (Reg.sts .sec)) 2 = true

/-- Its end: RESULT of Table 14-3 and the image digest stand in SEC_VRES and SEC_VDIG, and SEC_CAUSE bit 0 is set (R349, R352). -/
def imageVerifyDone : Prop :=
  ∀ (s : State) (img : List Byte), s.sec.verifying = true → s.mem.merge = [] →
    (∀ u ∈ unitsIn (rdField s Reg.imgAddr 35 6 * 64) (rdField s Reg.imgLenReg 24 0), effective s u {} = .clean) →
    img = memReads 0 s.dram (rdField s Reg.imgAddr 35 6 * 64) (rdField s Reg.imgLenReg 24 0) →
    Completes .imageVerifyDone s fun t => t.sec.verifying = false ∧ t.sec.vres = some (accept s img, Config.sha512 img) ∧
      rdField t Reg.secVres 31 31 = 1 ∧ rdField t Reg.secVres 30 28 = accept s img ∧ bitOf (rd t Reg.secCause) 0 = true ∧
      ∀ w, w < 16 → rd t (Reg.secVdig w) = (Config.sha512 img).toNat / 2 ^ (32 * w) % 2 ^ 32

/-- SWITCH: the cores run the standby slot's image, and every SPDM session is over (R357 step 3, Table 14-7). -/
def handoverSwitch : Prop :=
  ∀ (s : State) (i : Initiator) (v : Word) (a : Activation), coreAccess s i .sec 0 = true → s.sec.act = some a → a.switched = false →
    Completes (.handoverSwitch i v) s fun t => t.sec.act = some { a with switched := true } ∧ t.sec.runDigest = a.digest ∧
      t.sec.runSvn = a.svn ∧ t.sec.runKey = a.keyslot ∧ rdField t Reg.cfgBoot 12 12 = a.slot % 2 ∧ t.sec.sessions = [] ∧
      t.sec.oldImg = some (runningSlot s, s.sec.runDigest, s.sec.runSvn, s.sec.runKey, s.sec.runCommit)

/-- SWITCH with no activation is a reserved value: ACC_ERR, and nothing else of the engine (R17, Table 14-11). -/
def handoverSwitchIdle : Prop :=
  ∀ (s : State) (i : Initiator) (v : Word), coreAccess s i .sec 0 = true → s.sec.act = none →
    Completes (.handoverSwitch i v) s fun t => t.sec = s.sec ∧ bitOf (rd t (Reg.sts .sec)) 0 = true

/-- The old firmware's handover block: MAGIC, SEQ one more than the last block's, and both digests (R357 step 2, Table 14-6). -/
def handoverBlockWritten : Prop :=
  ∀ (s : State) (i : Initiator) (v : Word) (a : Activation), coreAccess s i .sec 0 = true → s.sec.act = some a → a.switched = false →
    Completes (.handoverSwitch i v) s fun t => fieldAt t.sec.handover 0 4 = 0x48444F56 ∧
      fieldAt t.sec.handover 8 8 = (fieldAt s.sec.handover 8 8 + 1) % 2 ^ 64 ∧
      fieldAt t.sec.handover 16 16 = s.sec.runDigest.toNat % 2 ^ 128 ∧ fieldAt t.sec.handover 32 16 = a.digest.toNat % 2 ^ 128

/-- DONE: fetching resumes, the boot record names the new slot, and the activation is over with OUTCOME 0 (R357 step 4). The new
firmware has taken the block (R359). -/
def handoverDone : Prop :=
  ∀ (s : State) (i : Initiator) (v : Word) (a : Activation), coreAccess s i .sec 0 = true → s.sec.act = some a → a.switched = true →
    (readHandover s a.digest).2 = true → s.sec.commit = none →
    Completes (.handoverDone i v) s fun t => t.sec.act = none ∧ t.sec.oldImg = none ∧ t.chip.stopFetch = false ∧
      rdField t Reg.secActres 31 28 = 8 ∧ bitOf (rd t Reg.secCause) 2 = true ∧
      (recordInForce s = none → memWf 0xFF s.boot.nor = true →
        norBytes t 0 64 = recordBytes 1 a.slot 1 (a.digest.toNat % 2 ^ 128))

/-- A block that the new firmware must refuse ends nothing (R359; the model's choice, log entry 168). -/
def handoverRefused : Prop :=
  ∀ (s : State) (i : Initiator) (v : Word) (a : Activation), coreAccess s i .sec 0 = true → s.sec.act = some a → a.switched = true →
    handoverOk s.sec.handover a.digest.toNat = false →
    Completes (.handoverDone i v) s fun t => t.sec = s.sec ∧ t.chip = s.chip

/-- The Firmware Commit that waited for it completes with success (R354, R357). -/
def handoverDoneCommit : Prop :=
  ∀ (s : State) (i : Initiator) (v : Word) (a : Activation) (c : Commit) (q : Sqe), coreAccess s i .sec 0 = true → s.sec.act = some a →
    a.switched = true → (readHandover s a.digest).2 = true → s.sec.commit = some c → c.mute = false →
    q = { port := c.port, qid := c.qid, cid := c.cid, nsid := 0 } → cqReady s q = true →
    Completes (.handoverDone i v) s fun t => t.sec.commit = none ∧ Answered s t q stOk

/-- A revert runs the old image again: OUTCOME 1 and SEC_CAUSE bit 4 (R358). -/
def activationRevert : Prop :=
  ∀ (s : State) (a : Activation) (slot svn key : Nat) (d : BitVec 512) (com : Bool), s.sec.act = some a → a.switched = true →
    s.sec.oldImg = some (slot, d, svn, key, com) → s.sec.commit = none →
    Completes .activationRevert s fun t => t.sec.act = none ∧ t.sec.runDigest = d ∧ t.sec.runSvn = svn ∧ t.sec.runKey = key ∧
      rdField t Reg.cfgBoot 12 12 = slot % 2 ∧ t.chip.stopFetch = false ∧ rdField t Reg.secActres 31 28 = 9 ∧
      bitOf (rd t Reg.secCause) 4 = true

/-- A fuse operation that Table 14-2 refuses: REJ, SEC_CAUSE bit 6, and no fuse changes. -/
def FuseRefused (s t : State) : Prop := t.sec = s.sec ∧ rdField t Reg.fuseRes 31 30 = 3 ∧ bitOf (rd t Reg.secCause) 6 = true

/-- A fuse operation done: VALID without REJ, and SEC_CAUSE bit 5. -/
def FuseDone (t : State) : Prop := rdField t Reg.fuseRes 31 30 = 2 ∧ bitOf (rd t Reg.secCause) 5 = true

/-- Operation 1 programs a slot's key hash in depot mode, once (R350, Table 14-2). -/
def fuseProgramKeyhash : Prop :=
  ∀ (s : State) (i : Initiator) (k : Fin 4), coreAccess s i .sec 0 = true → s.sec.slots.length = 4 →
    (i = .sc0 → s.sec.depot = true → (s.sec.slots.getD k {}).programmed = false →
      Completes (.fuseProgramKeyhash i k) s fun t => FuseDone t ∧ (t.sec.slots.getD k {}).programmed = true ∧
        (t.sec.slots.getD k {}).keyhash = BitVec.ofNat 512 (fuseDataVal s) ∧
        ∀ j, j ≠ k.val → t.sec.slots.getD j {} = s.sec.slots.getD j {}) ∧
    (i ≠ .sc0 ∨ s.sec.depot = false ∨ (s.sec.slots.getD k {}).programmed = true →
      Completes (.fuseProgramKeyhash i k) s fun t => FuseRefused s t)

/-- Operation 2 revokes a slot in depot mode, but not the running image's or the last usable one (R350, Table 14-2). -/
def fuseRevokeSlot : Prop :=
  ∀ (s : State) (i : Initiator) (k : Fin 4), coreAccess s i .sec 0 = true → s.sec.slots.length = 4 →
    (i = .sc0 → s.sec.depot = true → k.val ≠ s.sec.runKey → (usableSlot s k = false ∨ usableCount s ≠ 1) →
      Completes (.fuseRevokeSlot i k) s fun t => FuseDone t ∧ (t.sec.slots.getD k {}).revoked = true ∧
        (t.sec.slots.getD k {}).programmed = (s.sec.slots.getD k {}).programmed ∧
        ∀ j, j ≠ k.val → t.sec.slots.getD j {} = s.sec.slots.getD j {}) ∧
    (i ≠ .sc0 ∨ s.sec.depot = false ∨ k.val = s.sec.runKey ∨ (usableSlot s k = true ∧ usableCount s = 1) →
      Completes (.fuseRevokeSlot i k) s fun t => FuseRefused s t)

/-- Operation 3 raises MINSVN, outside depot mode only to the SVN of a running image with SVNCOMMIT (R350, Table 14-2), once
the first root after its CSTS.RDY is committed (R351). -/
def fuseRaiseMinsvn : Prop :=
  ∀ (s : State) (i : Initiator) (v : Nat), coreAccess s i .sec 0 = true → v < 128 →
    (i = .sc0 → s.sec.minsvn < v → (s.sec.depot = true ∨ (v = s.sec.runSvn ∧ s.sec.runCommit = true ∧ s.sec.rootAfter = true)) →
      Completes (.fuseRaiseMinsvn i v) s fun t => FuseDone t ∧ t.sec = { s.sec with minsvn := v }) ∧
    (i ≠ .sc0 ∨ v ≤ s.sec.minsvn ∨ (s.sec.depot = false ∧ ¬ (v = s.sec.runSvn ∧ s.sec.runCommit = true)) →
      Completes (.fuseRaiseMinsvn i v) s fun t => FuseRefused s t)

/-- A key operation of a core on a namespace with a key slot (Table 14-14). -/
def KeyOp (s : State) (i : Initiator) (nsid : Nat) : Prop := coreAccess s i .cry 0 = true ∧ 1 ≤ nsid ∧ nsid ≤ 128

/-- CRY_KRES is complete with a RESULT, and CRY_CAUSE bit 0 is set (R54, Table 14-14). -/
def KeyResult (t : State) (r : Nat) : Prop := rdField t Reg.cryKres 31 28 = 8 + r ∧ bitOf (rd t Reg.cryCause) 0 = true

/-- Generate: the namespace has a key, and CRY_WRAP its wrapped form under the entry's new SALT (R367). -/
def keyGenerate : Prop :=
  ∀ (s : State) (i : Initiator) (salt : Bool) (nsid : Nat), KeyOp s i nsid →
    Completes (.keyGenerate i salt nsid true) s fun t => KeyResult t 0 ∧
      (∃ k, nget t.cry.keys nsid = some k ∧ wrapRegs t = wrapOf t nsid (if salt then 1 else 0) k) ∧
      ∀ n, n ≠ nsid → nget t.cry.keys n = nget s.cry.keys n

/-- Generate with no entropy: RESULT 1, CRY_CAUSE bit 1, and no key changes (R367). -/
def keyGenerateNoEntropy : Prop :=
  ∀ (s : State) (i : Initiator) (salt : Bool) (nsid : Nat), KeyOp s i nsid →
    Completes (.keyGenerate i salt nsid false) s fun t => KeyResult t 1 ∧ bitOf (rd t Reg.cryCause) 1 = true ∧ t.cry = s.cry

/-- Load: the wrapped key of CRY_WRAP is the namespace's, or RESULT 2 where it does not unwrap (R367). -/
def keyLoadWrapped : Prop :=
  ∀ (s : State) (i : Initiator) (salt : Bool) (nsid : Nat), KeyOp s i nsid →
    (∀ k, unwrapOf s nsid (if salt then 1 else 0) (wrapRegs s) = some k →
      Completes (.keyLoadWrapped i salt nsid) s fun t => KeyResult t 0 ∧ t.cry = { s.cry with keys := nset s.cry.keys nsid k }) ∧
    (unwrapOf s nsid (if salt then 1 else 0) (wrapRegs s) = none →
      Completes (.keyLoadWrapped i salt nsid) s fun t => KeyResult t 2 ∧ t.cry = s.cry)

/-- Destroy: the namespace has no key, and the others keep theirs (R367, R368). -/
def keyDestroy : Prop :=
  ∀ (s : State) (i : Initiator) (nsid : Nat), KeyOp s i nsid → nsorted none s.cry.keys = true →
    Completes (.keyDestroy i nsid) s fun t => KeyResult t 0 ∧ nget t.cry.keys nsid = none ∧
      (∀ n, n ≠ nsid → nget t.cry.keys n = nget s.cry.keys n) ∧ t.cry.salts = s.cry.salts

/-- From s to t the responder answered on the transport by which the request came; over NVMe the answer waits for Security
Receive (R365). -/
def Spoke (s t : State) (tr : SpdmTransport) (code : Nat) (body : List Byte) : Prop :=
  match tr with
  | .nvme p => (getPort t p).secRsp = (getPort s p).secRsp ++ [BitVec.ofNat 8 code :: body]
  | .smbus => ∃ l, t.out = s.out ++ l ∧ Out.spdm tr code body ∈ l
  | .vdm _ => ∃ l, t.out = s.out ++ l ∧ Out.spdm tr code body ∈ l

/-- GET_VERSION begins a connection anew: version 1.2 (R365). -/
def getVersion : Prop :=
  ∀ (s : State) (tr : SpdmTransport), s.chip.held = false →
    Completes (.getVersion tr) s fun t => Spoke s t tr 0x04 (le 2 0x1200) ∧ connOf t tr = { version := true }

/-- GET_CAPABILITIES follows the version; before it the answer is ERROR (R365). -/
def getCapabilities : Prop :=
  ∀ (s : State) (tr : SpdmTransport), s.chip.held = false →
    ((connOf s tr).version = true → Completes (.getCapabilities tr) s fun t =>
      Spoke s t tr 0x61 (Config.spdmBytes 0x61 0) ∧ (connOf t tr).caps = true) ∧
    ((connOf s tr).version = false → Completes (.getCapabilities tr) s fun t => Spoke s t tr 0x7F (le 1 4) ∧ t.sec = s.sec)

/-- NEGOTIATE_ALGORITHMS: agreed where the requester offers the algorithms of Table 14-8 (R365). -/
def negotiateAlgorithms : Prop :=
  ∀ (s : State) (tr : SpdmTransport), s.chip.held = false → (connOf s tr).caps = true →
    Completes (.negotiateAlgorithms tr true) s (fun t => Spoke s t tr 0x63 (Config.spdmBytes 0x63 0) ∧ (connOf t tr).algs = true) ∧
    Completes (.negotiateAlgorithms tr false) s (fun t => Spoke s t tr 0x7F (le 1 1) ∧ t.sec = s.sec)

/-- The requests that tell of the identity and the measurements, once algorithms are agreed: the digest of the one chain, a
part of it, a signed challenge, and measurement blocks, plain or signed (R363 to R366). -/
def spdmAttests : Prop :=
  ∀ (s : State) (tr : SpdmTransport), s.chip.held = false → (connOf s tr).algs = true →
    Completes (.getDigests tr) s (fun t => Spoke s t tr 0x01 (le 1 1 ++ le 64 (Config.sha512 (certChain s)).toNat) ∧ t.sec = s.sec) ∧
    (∀ off len, off < (certChain s).length → Completes (.getCertificate tr 0 off len) s fun t =>
      Spoke s t tr 0x02 (((certChain s).drop off).take len) ∧ t.sec = s.sec) ∧
    Completes (.challenge tr 0) s (fun t => (∃ b, b = le 64 (Config.sha512 (certChain s)).toNat ++ Config.spdmBytes 0x03 0 ∧
      Spoke s t tr 0x03 (b ++ aliasSign s b)) ∧ t.sec = s.sec) ∧
    (∀ k, 1 ≤ k → k ≤ 5 → Completes (.getMeasurements tr k false) s fun t => Spoke s t tr 0x60 (measBlock s k) ∧ t.sec = s.sec) ∧
    (∀ k, 1 ≤ k → k ≤ 5 → Completes (.getMeasurements tr k true) s fun t =>
      Spoke s t tr 0x60 (measBlock s k ++ aliasSign s (measBlock s k)) ∧ t.sec = s.sec)

/-- KEY_EXCHANGE opens a session where fewer than four are open (R365). -/
def keyExchange : Prop :=
  ∀ (s : State) (tr : SpdmTransport) (m : Bool), s.chip.held = false → (connOf s tr).algs = true →
    (s.sec.sessions.length < 4 → Completes (.keyExchange tr m) s fun t =>
      t.sec.sessions = s.sec.sessions ++ [{ sid := s.sec.nextSid, mutAuth := m }] ∧ t.sec.nextSid = s.sec.nextSid + 1) ∧
    (4 ≤ s.sec.sessions.length → Completes (.keyExchange tr m) s fun t => Spoke s t tr 0x7F (le 1 0x0A) ∧ t.sec = s.sec)

/-- FINISH ends the handshake; the session is authenticated where the requester's chain ends in a usable key slot (R365). -/
def finish : Prop :=
  ∀ (s : State) (tr : SpdmTransport) (sid : Nat) (ok : Bool) (hash : BitVec 512) (x : Session), s.chip.held = false →
    findSession s sid = some x → x.up = false → (x.mutAuth = true → ok = true) →
    Completes (.finish tr sid ok hash) s fun t => Spoke s t tr 0x65 [] ∧ raised t 134 = true ∧ findSession t sid = some { x with
      up := true, authed := x.mutAuth && s.sec.slots.any fun k => k.usable && k.keyhash == hash }

/-- HEARTBEAT on an open session is answered (R365). -/
def heartbeat : Prop :=
  ∀ (s : State) (tr : SpdmTransport) (sid : Nat) (x : Session), s.chip.held = false → findSession s sid = some x → x.up = true →
    Completes (.heartbeat tr sid) s fun t => Spoke s t tr 0x68 [] ∧ t.sec = s.sec

/-- KEY_UPDATE: the session's keys are the next (R365). -/
def keyUpdate : Prop :=
  ∀ (s : State) (tr : SpdmTransport) (sid : Nat) (x : Session), s.chip.held = false → findSession s sid = some x → x.up = true →
    Completes (.keyUpdate tr sid) s fun t => Spoke s t tr 0x69 [] ∧ findSession t sid = some { x with epoch := x.epoch + 1 }

/-- A session is over: it is gone, its windows are closed outside depot mode, and source 134 is raised (R365, Table 2-9). -/
def SessionOver (s t : State) (x : Session) : Prop :=
  findSession t x.sid = none ∧ (s.sec.depot = false → ∀ p ∈ x.windows, winOfPort t p = .closed) ∧ (x.up = true → raised t 134 = true)

/-- END_SESSION (R365). -/
def endSession : Prop :=
  ∀ (s : State) (tr : SpdmTransport) (sid : Nat) (x : Session), s.chip.held = false → findSession s sid = some x →
    Completes (.endSession tr sid) s fun t => Spoke s t tr 0x6C [] ∧ SessionOver s t x

/-- A missed heartbeat ends its session (R365). -/
def spdmHeartbeatTimeout : Prop :=
  ∀ (s : State) (sid : Nat) (x : Session), s.chip.held = false → findSession s sid = some x → x.up = true → x.heartbeat = true →
    Completes (.spdmHeartbeatTimeout sid) s fun t => SessionOver s t x

/-- A request that names no session is answered with ERROR (R365). -/
def noSession : Prop :=
  ∀ (s : State) (tr : SpdmTransport) (sid : Nat), s.chip.held = false → findSession s sid = none →
    Completes (.heartbeat tr sid) s (fun t => Spoke s t tr 0x7F (le 1 1) ∧ t.sec = s.sec) ∧
    Completes (.keyUpdate tr sid) s (fun t => Spoke s t tr 0x7F (le 1 1) ∧ t.sec = s.sec) ∧
    Completes (.endSession tr sid) s (fun t => Spoke s t tr 0x7F (le 1 1) ∧ t.sec = s.sec)

/-! ## The event recorder (R374 to R388) -/

/-- A core's record enters the FIFO where its code's bucket has a token and the FIFO room: CODE, the core as ORIGIN, and 16
times the length field of its write buffer as payload (R376, R377). -/
def recorderWriteRecord : Prop :=
  ∀ (s : State) (i : Initiator) (v : Word), coreAccess s i .evr 0 = true → v.toNat < 2 ^ 32 → 0x200 ≤ bitsOf v.toNat 27 16 →
    (bucketNow s (bitsOf v.toNat 27 16)).off = false → tokUnit ≤ (bucketNow s (bitsOf v.toNat 27 16)).level →
    s.evr.fifo.length < 64 →
    Completes (.recorderWriteRecord i v) s fun t => OnlyChanges [.evr] s t ∧
      t.evr.fifo = s.evr.fifo ++ [{ code := bitsOf v.toNat 27 16, origin := initCode i, payload :=
        ((List.range (bitsOf v.toNat 3 0 * 4)).map fun w => le 4 (ngetD (bankOf s i).wrbuf w 0)).flatten }]

/-- Without a token it is suppressed and counted (R377, R378). -/
def recorderWriteSuppressed : Prop :=
  ∀ (s : State) (i : Initiator) (v : Word), coreAccess s i .evr 0 = true → v.toNat < 2 ^ 32 → 0x200 ≤ bitsOf v.toNat 27 16 →
    (bucketNow s (bitsOf v.toNat 27 16)).level < tokUnit →
    Completes (.recorderWriteRecord i v) s fun t => t.evr.fifo = s.evr.fifo ∧
      (ngetD t.evr.buckets (bitsOf v.toNat 27 16) t.evr.dflt).supp = (bucketNow s (bitsOf v.toNat 27 16)).supp + 1 ∧
      rdField t Reg.evrSuppCnt 31 0 = min (rdField s Reg.evrSuppCnt 31 0 + 1) (2 ^ 32 - 1)

/-- With a token and a full FIFO it is lost, and counted (R379). -/
def recorderWriteLost : Prop :=
  ∀ (s : State) (i : Initiator) (v : Word), coreAccess s i .evr 0 = true → v.toNat < 2 ^ 32 → 0x200 ≤ bitsOf v.toNat 27 16 →
    (bucketNow s (bitsOf v.toNat 27 16)).off = false → tokUnit ≤ (bucketNow s (bitsOf v.toNat 27 16)).level →
    64 ≤ s.evr.fifo.length → s.evr.episode = none →
    Completes (.recorderWriteRecord i v) s fun t => t.evr.fifo.length = s.evr.fifo.length ∧
      t.evr.episode = some (1, bitsOf v.toNat 27 16, bitsOf v.toNat 27 16) ∧
      rdField t Reg.evrLostCnt 31 0 = min (rdField s Reg.evrLostCnt 31 0 + 1) (2 ^ 32 - 1)

/-- The write engine has an entry to write and a token of its pace to write it with. -/
def Writes (s : State) (c : Cand) (r : List Cand) : Prop :=
  recReady s = true ∧ paceUnit ≤ s.evr.pace ∧ s.evr.lostRec = none ∧ s.evr.fifo = c :: r ∧ c.fromLg = none ∧ s.evr.flashOnly = false

/-- The entry stands in its circulating slot under the next SEQ, and below 4,096 in its founding slot too, where that
is not written yet (R380 to R382). -/
def recorderEntryWritten : Prop :=
  ∀ (s : State) (c : Cand) (r : List Cand), Writes s c r → s.evr.next ≠ 4095 → c.sumOnly = false → c.marked = false →
    Completes (.recorderEntryWritten 0 false) s fun t => t.evr.next = s.evr.next + 1 ∧ t.evr.fifo = r ∧
      t.evr.pace = s.evr.pace - paceUnit ∧
      (∃ x, circRec t.evr s.evr.next = some x ∧ x.seq = s.evr.next ∧ x.cand.code = c.code ∧ x.cand.origin = c.origin ∧
        x.cand.payload = c.payload) ∧
      (s.evr.next < 4096 → nget s.evr.found s.evr.next = none → foundRec t.evr s.evr.next = circRec t.evr s.evr.next)

/-- The marked entry ends its episode of losses: a LOST record with the count and the first and last codes is next (R379). -/
def recorderEpisode : Prop :=
  ∀ (s : State) (c : Cand) (r : List Cand) (n f l : Nat), Writes s c r → s.evr.next ≠ 4095 → c.sumOnly = false → c.marked = true →
    s.evr.episode = some (n, f, l) →
    Completes (.recorderEntryWritten 0 false) s fun t => t.evr.episode = none ∧
      t.evr.lostRec = some { code := 0x101, origin := 0xB, payload := le 4 n ++ le 2 f ++ le 2 l }

/-- A slot that fails its read-back twice is lost, and the recorder fails over to flash (Table 15-8, R387). -/
def recorderReadBack : Prop :=
  ∀ (s : State) (c : Cand) (r : List Cand) (k : Nat), Writes s c r → 2 ≤ k →
    Completes (.recorderEntryWritten k false) s fun t => t.evr.flashOnly = true ∧
      nget t.evr.circ (s.evr.next % 16384) = some (.broken s.evr.next) ∧ bitOf (rd t (Reg.sts .evr)) 17 = true ∧
      rdField t Reg.evrUeCnt 31 0 = min (rdField s Reg.evrUeCnt 31 0 + 1) (2 ^ 32 - 1) ∧ t.evr.lgSeq = s.evr.lgSeq + 1

/-- The pace bucket gains one token (R380). -/
def recorderPaceRefill : Prop :=
  ∀ (s : State), s.evr.pace < paceUnit → s.evr.fifo ≠ [] →
    Completes .recorderPaceRefill s fun t => t.evr = { s.evr with pace := paceUnit } ∧ OnlyChanges [.evr] s t

/-- A cursor's window is loaded by its write: VALID, GEN one more, STATUS and the record's bytes (R385, R54). -/
def recorderCursorWrite : Prop :=
  ∀ (s : State) (i : Initiator) (q : Dword), coreAccess s i .evr 0 = true →
    Completes (.recorderCursorWrite i q false) s fun t => OnlyChanges [.evr] s t ∧ t.evr.circ = s.evr.circ ∧
      bankOf t i = { bankOf s i with cursor := q.toNat, valid := true, gen := ((bankOf s i).gen + 1) % 65536,
                                     status := (winOf s.evr q.toNat).1, win := (winOf s.evr q.toNat).2 }

/-- NEXT moves the cursor by one and loads its window (R385). -/
def recorderCursorNext : Prop :=
  ∀ (s : State) (i : Initiator) (v : Word), coreAccess s i .evr 0 = true →
    Completes (.recorderCursorNext i v false) s fun t => ∃ q, q = ((bankOf s i).cursor + 1) % 2 ^ 64 ∧
      bankOf t i = { bankOf s i with cursor := q, valid := true, gen := ((bankOf s i).gen + 1) % 65536,
                                     status := (winOf s.evr q).1, win := (winOf s.evr q).2 }

/-- FLUSHSUP: each code with a suppressed count has an entry of its own (R378). -/
def recorderFlushsup : Prop :=
  ∀ (s : State) (i : Initiator) (v : Word) (c : Nat) (b : Bucket), coreAccess s i .evr 0 = true → s.evr.buckets = [(c, b)] → 0 < b.supp →
    s.evr.fifo.length < 64 →
    Completes (.recorderFlushsup i v) s fun t => t.evr.flushSup = true ∧
      t.evr.fifo = s.evr.fifo ++ [{ code := c, origin := 0xB, payload := [], sumOnly := true }]

/-- REARM in depot mode clears the failed state and the circulating area; outside it is a reserved value (R387, R17). -/
def recorderRearm : Prop :=
  ∀ (s : State) (i : Initiator) (v : Word), coreAccess s i .evr 0 = true →
    (s.sec.depot = true → Completes (.recorderRearm i v) s fun t => t.evr.flashOnly = false ∧ t.evr.circ = [] ∧
      bitOf (rd t (Reg.sts .evr)) 17 = false) ∧
    (s.sec.depot = false → Completes (.recorderRearm i v) s fun t => t.evr.flashOnly = s.evr.flashOnly ∧ t.evr.circ = s.evr.circ ∧
      bitOf (rd t (Reg.sts .evr)) 0 = true)

/-- The scan ends: the BOOT record has the SEQ after the highest one found, and EVR_CAUSE bit 0 is set (R383). -/
def recorderScanDone : Prop :=
  ∀ (s : State) (q : Nat), active s .evr = true → s.evr.scanning = true → s.evr.flashOnly = false → lgNew s = [] →
    oneMore (highestSeq s.evr.circ) = q →
    Completes .recorderScanDone s fun t => t.evr.scanned = true ∧ t.evr.scanning = false ∧ t.evr.next = q + 1 ∧
      bitOf (rd t (Reg.sts .evr)) 16 = false ∧ bitOf (rd t Reg.evrCause) 0 = true ∧
      ∃ x, circRec t.evr q = some x ∧ x.cand.code = 0x100 ∧ x.cand.payload = (le 64 s.sec.runDigest.toNat).take 16

/-- The flash-only buffer is in the flash system log (R387). -/
def flashonlyBufferFlush : Prop :=
  ∀ (s : State), Completes .flashonlyBufferFlush s fun t =>
    t.evr = { s.evr with flashLog := s.evr.flashLog ++ s.evr.buf, buf := [] } ∧ OnlyChanges [.evr] s t

/-! ## Temperature (R390 to R400) -/

/-- A round with a valid sensor: the reported temperature, the counts of the warning, the throttle and the shutdown, each from
0 in a round that breaks it (R393, R395 to R397). -/
def thermalRound : Prop :=
  ∀ (s : State) (die ext : List Reading) (rails : List (Option Nat)) (x : Int), reported s (sensorsRound s die) = some x →
    Completes (.thermalRound die ext rails) s fun t => t.thm.temp = x ∧ t.thm.sensors = sensorsRound s die ∧
      t.thm.warn.up = (if 1520 ≤ x then s.thm.warn.up + 1 else 0) ∧ t.thm.warn.down = (if x ≤ 1440 then s.thm.warn.down + 1 else 0) ∧
      t.thm.throttle.up = (if 1632 ≤ x then s.thm.throttle.up + 1 else 0) ∧
      t.thm.shut.up = (if 1840 ≤ x then s.thm.shut.up + 1 else 0)

/-- What a round makes of a sensor that is not broken: an invalid conversion counts, one within 12 °C of its reference starts
the count again, and one further off counts as disagreeing (R390, R391). -/
def thermalSensors : Prop :=
  ∀ (s : State) (die : List Reading) (i : Nat), i < 16 → isBroken s i = false →
    (validTemp (die.getD i none) = none →
      (sensorsRound s die).getD i {} = { reading := none, disagree := false, count := (s.thm.sensors.getD i {}).count + 1 }) ∧
    (∀ x, validTemp (die.getD i none) = some x → ∀ r, r = 2 * x - reference2
        ((List.range 16).map fun k => if isBroken s k then none else validTemp (die.getD k none)) i →
      (-384 ≤ r → r ≤ 384 → (sensorsRound s die).getD i {} = { reading := some x, disagree := false, count := 0 }) ∧
      (r < -384 ∨ 384 < r → (sensorsRound s die).getD i {} =
        { reading := some x, disagree := true, count := (s.thm.sensors.getD i {}).count + 1 }))

/-- A round with no valid sensor: NOSENSOR, with THM_CAUSE bit 7 (R393). -/
def thermalNoSensor : Prop :=
  ∀ (s : State) (die ext : List Reading) (rails : List (Option Nat)), reported s (sensorsRound s die) = none → s.thm.noSensor = false →
    Completes (.thermalRound die ext rails) s fun t => t.thm.noSensor = true ∧ bitOf (rd t Reg.thmCause) 7 = true

/-- The eighth round of disagreeing or being invalid: the sensor is broken (R391). -/
def sensorBroken : Prop :=
  ∀ (s : State) (i : Nat), i < 16 → isBroken s i = false → 8 ≤ (s.thm.sensors.getD i {}).count → s.chip.held = false →
    Completes (.sensorBroken i) s fun t => isBroken t i = true ∧ bitOf (rd t Reg.thmCause) 4 = true ∧ raised t 108 = true ∧ t.thm = s.thm

/-- An external input that was at its limit for eight rounds throttles (R392, R396). -/
def extLimit : Prop :=
  ∀ (s : State) (i : Fin 4), i.val < s.thm.ext.length → (s.thm.ext.getD i {}).isOver = false → 8 ≤ (s.thm.ext.getD i {}).up →
    s.chip.held = false →
    Completes (.extLimit i) s fun t => (t.thm.ext.getD i {}).isOver = true ∧ throttled t = true ∧
      bitOf (rd t Reg.thmCause) 6 = true ∧ raised t 109 = true ∧ (throttled s = false → bitOf (rd t Reg.pwrCause) 1 = true)

/-- Eight rounds 5 °C below it, and it no longer does (R392). -/
def extLimitEnds : Prop :=
  ∀ (s : State) (i : Fin 4), i.val < s.thm.ext.length → (s.thm.ext.getD i {}).isOver = true → 8 ≤ (s.thm.ext.getD i {}).down →
    Completes (.extLimit i) s fun t => (t.thm.ext.getD i {}).isOver = false

/-- The warning comes into force or ends after its eighth round: THM_CAUSE bit 1 and source 105 (R395). -/
def warningChange : Prop :=
  ∀ (s : State), ((s.thm.warn.inForce = false ∧ 8 ≤ s.thm.warn.up) ∨ (s.thm.warn.inForce = true ∧ 8 ≤ s.thm.warn.down)) →
    s.chip.held = false →
    Completes .warningChange s fun t => t.thm.warn = { inForce := !s.thm.warn.inForce, up := 0, down := 0 } ∧
      bitOf (rd t Reg.thmCause) 1 = true ∧ raised t 105 = true

/-- The throttle likewise: THM_CAUSE bit 2, source 106, and PWR_CAUSE bit 1 where no external input throttles (R396). -/
def throttleChange : Prop :=
  ∀ (s : State), ((s.thm.throttle.inForce = false ∧ 8 ≤ s.thm.throttle.up) ∨ (s.thm.throttle.inForce = true ∧ 8 ≤ s.thm.throttle.down)) →
    s.chip.held = false →
    Completes .throttleChange s fun t => t.thm.throttle = { inForce := !s.thm.throttle.inForce, up := 0, down := 0 } ∧
      bitOf (rd t Reg.thmCause) 2 = true ∧ raised t 106 = true ∧
      ((s.thm.ext.any fun x => x.isOver) = false → bitOf (rd t Reg.pwrCause) 1 = true)

/-- Thermal shutdown: the power-fail sequence, a THERMAL record in the last-gasp store, the count, and the chip parked (R397). -/
def thermalShutdown : Prop :=
  ∀ (s : State), s.thm.shutdown = false → s.chip.powered = true → s.chip.held = false → (8 ≤ s.thm.shut.up ∨ s.thm.noSensor = true) →
    Completes .thermalShutdown s fun t => t.thm.shutdown = true ∧ t.thm.sdcnt = s.thm.sdcnt + 1 ∧ t.chip.parked = true ∧
      t.chip.held = true ∧ t.srt.cmds = [] ∧ t.evr.lgSeq = s.evr.lgSeq + 1 ∧
      ∃ x, nget t.evr.lg (t.evr.lgSeq % 8) = some x ∧ x.seq = t.evr.lgSeq ∧ x.cand.code = 0x103

/-- The restart after 3,750 rounds below 85 °C is a cold reset of kind 4 (R398). -/
def thermalRestart : Prop :=
  ∀ (s : State), s.thm.shutdown = true → s.thm.noSensor = false → 3750 ≤ s.thm.coolCount → s.chip.rstLow = false → s.chip.failLow = false →
    Completes .thermalRestart s fun t => t.thm.shutdown = false ∧ t.thm.restarted = true ∧ t.chip.kind = 4 ∧ t.chip.parked = false

/-- The band that the counts decided: up to the lowest of eight rounds, or down to the one that holds the temperature (R399). -/
def bandChange : Prop :=
  ∀ (s : State), s.chip.held = false →
    (8 ≤ s.thm.bandUp → Completes .bandChange s fun t => t.thm.band = s.thm.lowest ∧ t.thm.bandUp = 0 ∧ t.thm.bandDown = 0 ∧
      bitOf (rd t Reg.thmCause) 3 = true ∧ raised t 107 = true) ∧
    (s.thm.bandUp < 8 → 8 ≤ s.thm.bandDown → Completes .bandChange s fun t => t.thm.band = bandOf s.thm.temp ∧ t.thm.bandUp = 0 ∧
      t.thm.bandDown = 0 ∧ bitOf (rd t Reg.thmCause) 3 = true ∧ raised t 107 = true)

/-- Entry to a band in an operational state: each enabled courier with a fitted chip enable trains or has its turn to come (R189). -/
def bandTrains : Prop :=
  ∀ (s : State) (c : Nat), s.chip.held = false → s.pwr.ps < 3 → 8 ≤ s.thm.bandUp → s.thm.lowest ≠ s.thm.band → c < 32 →
    active s .chn c = true → (courier s c).reset = false → fittedCes s c ≠ [] →
    Completes .bandChange s fun t => (courier t c).training.isSome = true ∨ (courier t c).wantTrain.isSome = true

/-- A supply outside its window for eight rounds: LOW or HIGH, THM_CAUSE bit 5 and source 109 (R400). -/
def supplyOutOfWindow : Prop :=
  ∀ (s : State) (v : Fin 12) (mv : Nat), v.val < s.thm.rails.length → 8 ≤ (s.thm.rails.getD v {}).count →
    (s.thm.rails.getD v {}).mv = some mv → s.chip.held = false →
    Completes (.supplyOutOfWindow v) s fun t => (t.thm.rails.getD v {}).low = decide (mv < (s.thm.rails.getD v {}).lo) ∧
      (t.thm.rails.getD v {}).high = decide ((s.thm.rails.getD v {}).hi < mv) ∧ bitOf (rd t Reg.thmCause) 5 = true ∧ raised t 109 = true

/-! ## Power states and the voltage loops (R401 to R408) -/

/-- The device is at rest in an operational state, with no change of state in progress. -/
def AtRest (s : State) : Prop :=
  s.chip.mapReady = true ∧ s.chip.held = false ∧ s.pwr.ps < 3 ∧ s.pwr.transit = false ∧ s.pwr.settling = false ∧ deviceIdle s = true

/-- The idle timer ends: the descent's target is wanted, with source 118 (R407). -/
def idleTimerExpiry : Prop :=
  ∀ (s : State) (k : Nat), AtRest s → s.pwr.want = none → descent s = some k →
    Completes .idleTimerExpiry s fun t => t.pwr = { s.pwr with want := some k } ∧ raised t 118 = true

/-- Without APST and with an idle time, the target is the deepest state whose exit latency the host's tolerance allows (R407). -/
def idleTarget : Prop :=
  ∀ (s : State), ngetD s.portA.feat 0x0C 0 % 2 = 0 → ngetD s.portB.feat 0x0C 0 % 2 = 0 → rdField s 0xA0018 15 0 ≠ 0 →
    descent s = (if 5000 ≤ latency s then some 4 else if 200 ≤ latency s then some 3 else none)

/-- Entry to PS3: the state, PWR_CAUSE bit 0 with source 114, no flash budget, and the JRC no longer ACTIVE (R403). -/
def psEntry : Prop :=
  ∀ (s : State), AtRest s → s.pwr.want = some 3 → s.flash.ops = [] → powerSettled s = true → dumpRecent s = false →
    Completes .psEntry s fun t => t.pwr.ps = 3 ∧ t.pwr.want = none ∧ t.pwr.transit = false ∧ bitOf (rd t Reg.pwrCause) 0 = true ∧
      raised t 114 = true ∧ flashBudget t = 0 ∧ active t .jrc = false ∧ active t .str = false ∧ s.pwr.lastOp = t.pwr.lastOp

/-- Entry to PS4 with the cache enabled waits for its drain (R403). -/
def psEntryDrains : Prop :=
  ∀ (s : State), AtRest s → s.pwr.want = some 4 → s.flash.ops = [] → powerSettled s = true → dumpRecent s = false → s.phc.st = 2 →
    Completes .psEntry s fun t => t.pwr.transit = true ∧ t.pwr.target = 4 ∧ t.pwr.ps = s.pwr.ps ∧ t.phc.st = 3

/-- Exit leads to the last operational state (R404). -/
def psExit : Prop :=
  ∀ (s : State), 3 ≤ s.pwr.ps → s.pwr.transit = false →
    Completes .psExit s fun t => t.pwr.ps = s.pwr.lastOp ∧ t.pwr.stopped = false ∧ t.pwr.want = none

/-- An entry within a second of a seal dump is put off: PWR_CAUSE bit 2 and source 117 (R260). -/
def psChangeDeferred : Prop :=
  ∀ (s : State) (k d : Nat), s.pwr.want = some k → s.pwr.defer = false → s.pwr.dumpAt = some d → s.clk.tb < d + 250000000 →
    deviceIdle s = true → s.chip.held = false →
    Completes .psChangeDeferred s fun t => t.pwr = { s.pwr with defer := true } ∧ bitOf (rd t Reg.pwrCause) 2 = true ∧ raised t 117 = true

/-- One island's loop takes the action of Table 16-7 for its least slack (R408). -/
def avfsEvaluation : Prop :=
  ∀ (s : State) (k : Nat) (x0 : Int) (r : List Int) (m : Int) (a : Avfs), k < 47 → m = r.foldl min x0 → a = ngetD s.pwr.avfs k {} →
    Completes (.avfsEvaluation k (x0 :: r)) s fun t => ∃ b, nget t.pwr.avfs k = some b ∧ b.vmin = a.vmin ∧ b.vmax = a.vmax ∧
      (m < 0 → b.fdiv = min 8 (a.fdiv + 1) ∧ b.volt = a.volt ∧ (a.fdiv = 0 → bitOf (rd t Reg.pwrCause) 3 = true)) ∧
      (0 ≤ m → m < rdField s Reg.pwrAvcfg 7 0 → a.volt < a.vmax → b.volt = a.volt + 1 ∧ b.fdiv = a.fdiv) ∧
      (0 ≤ m → m < rdField s Reg.pwrAvcfg 7 0 → a.vmax ≤ a.volt → b.volt = a.volt ∧ b.fdiv = min 8 (a.fdiv + 1)) ∧
      (0 ≤ m → (rdField s Reg.pwrAvcfg 7 0 : Int) ≤ m → m ≤ rdField s Reg.pwrAvcfg 15 8 → b = a) ∧
      (0 ≤ m → (rdField s Reg.pwrAvcfg 7 0 : Int) ≤ m → (rdField s Reg.pwrAvcfg 15 8 : Int) < m → 0 < a.fdiv → b.fdiv = a.fdiv - 1 ∧ b.volt = a.volt) ∧
      (0 ≤ m → (rdField s Reg.pwrAvcfg 7 0 : Int) ≤ m → (rdField s Reg.pwrAvcfg 15 8 : Int) < m → a.fdiv = 0 → a.vmin < a.volt → b.volt = a.volt - 1 ∧ b.fdiv = 0) ∧
      (0 ≤ m → (rdField s Reg.pwrAvcfg 7 0 : Int) ≤ m → (rdField s Reg.pwrAvcfg 15 8 : Int) < m → a.fdiv = 0 → a.volt ≤ a.vmin → b = a)

/-- A write of PWR_AVSEL selects an island, and MINSLACK begins anew (R408). -/
def avselWrite : Prop :=
  ∀ (s : State) (i : Initiator) (v : Word), coreAccess s i .pwr 0 = true → v.toNat % 64 ≤ 46 →
    Completes (.avselWrite i v) s fun t => t.pwr = { s.pwr with minSlack := 255 } ∧ rdField t Reg.pwrAvsel 5 0 = v.toNat % 64 ∧
      OnlyChanges [.regs, .pwr] s t

/-! ## Supplies and the power-fail sequence (R269 to R271, R444) -/

/-- PWR_FAIL_N for 2 µs or more: the sequence runs, the chip is parked, and the restart will be of kind 3; a shorter pulse is
ignored (R269, R270). -/
def pwrFailAssert : Prop :=
  ∀ (s : State) (n : Nat), (n < 500 → Completes (.pwrFailAssert n) s fun t => t = s) ∧
    (500 ≤ n → s.chip.powered = true → s.thm.shutdown = false → s.chip.parked = false → s.chip.kind ≠ 1 →
      Completes (.pwrFailAssert n) s fun t => t.chip.parked = true ∧ t.chip.held = true ∧ t.chip.failLow = true ∧ t.chip.kind = 3 ∧
        t.pwr.failRan = true ∧ t.srt.cmds = [] ∧ t.jrc.ring = s.jrc.ring ∧ t.boot.nor = (Sys2Proof.Machine.norCut s).boot.nor)

/-- Its seal dump: newer than every other, of REASON 1, with the last group handed over (R271). -/
def pwrFailDump : Prop :=
  ∀ (s : State) (n : Nat), 500 ≤ n → s.chip.powered = true → s.thm.shutdown = false → s.chip.parked = false → active s .jrc = true →
    active s .str = true → s.pwr.ps < 3 → s.jrc.gseq < 2 ^ 64 → (∀ x, newestDump s.jrc = some x → x.2.dseq + 1 < 2 ^ 64) →
    Completes (.pwrFailAssert n) s fun t => ∃ k d, newestDump t.jrc = some (k, d) ∧ d.reason = 1 ∧ d.dgseq = s.jrc.gseq ∧
      d.dseq = ((newestDump s.jrc).map fun x => x.2.dseq).getD 0 + 1 ∧ d.sbs = dumpSbs s

/-- The hold of R270 ends: the chip is no longer parked, the reset that waits is of kind 3, and PWR_STATE is as it was (R11). -/
def powerFailRestart : Prop :=
  ∀ (s : State), s.chip.powered = true → s.chip.failLow = true → s.chip.parked = true → s.chip.kind ≠ 1 → s.chip.rstLow = false →
    Completes .powerFailRestart s fun t => t.chip.failLow = false ∧ t.chip.parked = false ∧ t.chip.kind = 3 ∧
      t.pwr.ps = s.pwr.ps ∧ t.pwr.transit = s.pwr.transit ∧ t.pwr.target = s.pwr.target

/-- Supply power-on: held in reset of kind 1, the timebase and the ring at their reset state, and the fuses as they were (R444). -/
def supplyPowerOn : Prop :=
  ∀ (s : State), s.chip.powered = false →
    Completes .supplyPowerOn s fun t => t.chip.powered = true ∧ t.chip.held = true ∧ t.chip.kind = 1 ∧ t.clk.tb = 0 ∧ t.ring = {} ∧
      t.sec.slots = s.sec.slots ∧ t.sec.minsvn = s.sec.minsvn ∧ t.dram = [] ∧ winOfPort t .a = .closed ∧ winOfPort t .b = .closed

/-- Supply loss: nothing runs, and what the flash, JRAM and the Config NOR hold is kept (R27). -/
def supplyPowerLoss : Prop :=
  ∀ (s : State), s.chip.powered = true → s.boot.op = none →
    Completes .supplyPowerLoss s fun t => t.chip.powered = false ∧ t.chip.parked = true ∧ t.chip.held = true ∧ t.dram = [] ∧
      t.boot.nor = s.boot.nor ∧ t.flash.media = s.flash.media ∧ t.jrc.ring = s.jrc.ring ∧ t.evr.circ = s.evr.circ

/-! ## Reset and start-up (R444 to R453) -/

/-- RESET_N low for 2 µs or more: the power-fail sequence runs, and a reset of kind 2 waits for the release; a shorter pulse is
ignored (R445). -/
def resetNAssert : Prop :=
  ∀ (s : State) (n : Nat), (n < 500 → Completes (.resetNAssert n) s fun t => t = s) ∧
    (500 ≤ n → s.chip.powered = true → s.chip.kind ≠ 1 → Completes (.resetNAssert n) s fun t => t.chip.rstLow = true ∧ t.chip.kind = 2 ∧
      t.chip.held = true ∧ t.chip.parked = true ∧ t.srt.cmds = [] ∧ t.dram = [] ∧ t.jrc.ring = s.jrc.ring ∧
      t.flash.media = s.flash.media ∧ t.sec.slots = s.sec.slots)

/-- A reset is released: the chip runs from the boot time on, and CFG_RSTCAUSE names the reset's kind (R447, R446). -/
def resetRelease : Prop :=
  ∀ (s : State) (k : Nat), s.chip.powered = true → s.chip.held = true → s.chip.failLow = false → s.chip.kind = k → 1 ≤ k → k ≤ 4 →
    s.thm.shutdown = false →
    Completes .resetRelease s fun t => t.chip.held = false ∧ t.chip.parked = false ∧ t.chip.kind = 0 ∧ t.clk.boot = s.clk.tb ∧
      rdField t 0xE0014 3 0 = k

/-- With no valid base bank start-up halts at stage 1 with cause 1; depot mode is what the strap says (R450, R451, Table 2-9). -/
def resetReleaseNoBank : Prop :=
  ∀ (s : State), s.chip.powered = true → s.chip.held = true → s.chip.failLow = false → s.chip.kind = 3 → s.thm.shutdown = false →
    bankInUse s 1 = none →
    Completes .resetRelease s fun t => rdField t Reg.cfgBoot 31 31 = 1 ∧ rdField t Reg.cfgBoot 27 24 = 1 ∧
      rdField t Reg.cfgBoot 22 20 = 1 ∧ t.sec.depot = bitOf (rd s 0xE0018) 2 ∧
      winOfPort t .a = (if bitOf (rd s 0xE0018) 2 then .openRw else .closed)

/-- The reset waits while PWR_FAIL_N is low (R270). -/
def resetReleaseFails : Prop :=
  ∀ (s : State), s.chip.powered = true → s.chip.held = true → s.chip.failLow = true → s.chip.kind ≠ 1 →
    Completes .resetRelease s fun t => t.chip.held = true ∧ t.chip.kind = 3 ∧ t.chip.rstLow = false

/-- A warm reset by a core: the count of warm resets rises, KIND is 6, and what is not kept is at its reset state (R445, R446). -/
def cfgRstWarm : Prop :=
  ∀ (s : State) (i : Initiator) (v : Word), coreAccess s i .cfg 0 = true →
    Completes (.cfgRstWarm i v) s fun t => t.chip.held = true ∧ t.chip.kind = 6 ∧ rdField t 0xE0014 3 0 = 6 ∧
      rdField t 0xE0014 31 16 = min 65535 (rdField s 0xE0014 31 16 + 1) ∧ t.dram = [] ∧ t.srt.cmds = [] ∧ t.ring.st = s.ring.st ∧
      t.clk.tb = s.clk.tb ∧ t.sec.depot = s.sec.depot ∧ t.jrc.ring = s.jrc.ring

/-- The staggered wake's end lets start-up go on to stage 5, and to 6 where nothing is left to close, if every DRAM rank
trains (R340, R441, R447). -/
def staggeredWakeStages : Prop :=
  ∀ (s : State), s.chip.wakeWait = true → s.chip.held = false → halted s = false → wakeDue s = true →
    s.boot.rankFail = false →
    Completes .staggeredWakeEnd s fun t => rdField t Reg.cfgBoot 22 20 = 5 ∨ rdField t Reg.cfgBoot 22 20 = 6

/-! ## The Config NOR (R434 to R438, R455 to R457) -/

/-- A NOR operation that SC0 or SC1 may start now. -/
def NorFree (s : State) (i : Initiator) : Prop := coreAccess s i .cfg 0 = true ∧ (i = .sc0 ∨ i = .sc1) ∧ s.boot.op = none

/-- The units that hold the NOR buffer read clean, and the merge buffer holds none of them (R302, R303). -/
def BufferClean (s : State) : Prop := s.mem.merge = [] ∧
  ∀ u ∈ unitsIn (rdField s Reg.norBuf 35 6 * 64) (rdField s Reg.norLen 24 0), effective s u {} = .clean

/-- The NOR buffer's bytes in DRAM (Table 18-16). -/
def norBuffer (s : State) : List Byte := memReads 0 s.dram (rdField s Reg.norBuf 35 6 * 64) (rdField s Reg.norLen 24 0)

/-- From s to t an operation has started with these bytes for this address: GEN of CFG_NORRES is one more and VALID 0 (R54). -/
def NorStarted (s t : State) (op addr : Nat) (data : List Byte) : Prop :=
  (∃ o, t.boot.op = some o ∧ o.op = op ∧ o.refused = false ∧ o.addr = addr ∧ o.data = data ∧ o.suspended = false) ∧
    rdField t Reg.norRes 15 0 = (rdField s Reg.norRes 15 0 + 1) % 65536 ∧ rdField t Reg.norRes 31 31 = 0 ∧
    OnlyChanges [.regs, .boot, .mem] s t

/-- An operation that Table 18-14 refuses has started; it will end with RESULT 1 (R457). -/
def NorRefused (t : State) : Prop := ∃ o, t.boot.op = some o ∧ o.refused = true

/-- READ, inside the device (R457, Table 18-14). -/
def norRead : Prop :=
  ∀ (s : State) (i : Initiator), NorFree s i →
    (rd s Reg.norAddr + rdField s Reg.norLen 24 0 ≤ s.boot.norSize → Completes (.norRead i) s fun t =>
      NorStarted s t 1 (rd s Reg.norAddr) (norBytes s (rd s Reg.norAddr) (rdField s Reg.norLen 24 0))) ∧
    (s.boot.norSize < rd s Reg.norAddr + rdField s Reg.norLen 24 0 → Completes (.norRead i) s fun t => NorRefused t)

/-- WRITE, of whole sectors of a firmware area (R457, Table 18-14). -/
def norWrite : Prop :=
  ∀ (s : State) (i : Initiator), NorFree s i → BufferClean s →
    (rd s Reg.norAddr % 4096 = 0 → rdField s Reg.norLen 24 0 % 4096 = 0 →
      inFirmwareArea s (rd s Reg.norAddr) (rdField s Reg.norLen 24 0) = true →
      Completes (.norWrite i) s fun t => NorStarted s t 2 (rd s Reg.norAddr) (norBuffer s)) ∧
    (inFirmwareArea s (rd s Reg.norAddr) (rdField s Reg.norLen 24 0) = false → Completes (.norWrite i) s fun t => NorRefused t)

/-- BASEWR: one base image that passes goes under a bank header to the bank that does not hold the newest valid one (R438, R457). -/
def norBasewr : Prop :=
  ∀ (s : State) (i : Initiator), NorFree s i → BufferClean s →
    (∀ l, contentOk s 1 1 (norBuffer s) = some l → Completes (.norBasewr i) s fun t =>
      NorStarted s t 3 (bankOff 1 (bankTarget s 1).1) (bankBytes (bankTarget s 1).2 1 (norBuffer s))) ∧
    (contentOk s 1 1 (norBuffer s) = none → Completes (.norBasewr i) s fun t => NorRefused t)

/-- OVLWR: the same with the overlays of a bank (R438, R457). -/
def norOvlwr : Prop :=
  ∀ (s : State) (i : Initiator) (n : Nat), NorFree s i → BufferClean s → n = countImgs 33 (norBuffer s) →
    (∀ l, contentOk s 2 n (norBuffer s) = some l → Completes (.norOvlwr i) s fun t =>
      NorStarted s t 4 (bankOff 2 (bankTarget s 2).1) (bankBytes (bankTarget s 2).2 n (norBuffer s))) ∧
    (contentOk s 2 n (norBuffer s) = none → Completes (.norOvlwr i) s fun t => NorRefused t)

/-- SLOTWR: an accepted image goes to the slot that does not run (R352, R457). -/
def norSlotwr : Prop :=
  ∀ (s : State) (i : Initiator) (slot : Bool) (k : Nat), NorFree s i → BufferClean s → k = (if slot then 1 else 0) →
    (accept s (norBuffer s) = 0 → k ≠ runningSlot s → Completes (.norSlotwr i slot) s fun t =>
      NorStarted s t 5 (slotOff k) (norBuffer s)) ∧
    (accept s (norBuffer s) ≠ 0 ∨ k = runningSlot s → Completes (.norSlotwr i slot) s fun t => NorRefused t)

/-- BOOTREC: the boot record names an accepted slot, in the copy that is not in force, with the next SEQ (R442, R457). -/
def norBootrec : Prop :=
  ∀ (s : State) (i : Initiator) (slot : Bool) (k : Nat), NorFree s i → BufferClean s → k = (if slot then 1 else 0) → recordInForce s = none →
    (accept s (slotImage s k) = 0 → Completes (.norBootrec i slot false true) s fun t =>
      NorStarted s t 6 0 (recordBytes 1 k 1 (digest16 (slotImage s k)))) ∧
    (accept s (slotImage s k) ≠ 0 → Completes (.norBootrec i slot false true) s fun t => NorRefused t)

/-- BOOTREC with RECOM outside depot mode is refused (R452, Table 18-14). -/
def norBootrecRecom : Prop :=
  ∀ (s : State) (i : Initiator) (slot com : Bool), NorFree s i → s.sec.depot = false →
    Completes (.norBootrec i slot true com) s fun t => NorRefused t

/-- IDWR, in depot mode only; what the buffer does not reach of the 64 KiB is erased (R457, Table 18-14). -/
def norIdwr : Prop :=
  ∀ (s : State) (i : Initiator), NorFree s i →
    (s.sec.depot = true → BufferClean s → Completes (.norIdwr i) s fun t => NorStarted s t 7 0x10000
      ((norBuffer s).take 65536 ++ List.replicate (65536 - (norBuffer s).length) 0xFF)) ∧
    (s.sec.depot = false → Completes (.norIdwr i) s fun t => NorRefused t)

/-- A write operation ends: its bytes stand in the NOR, and CFG_NORRES is complete with RESULT 0 (R457). -/
def norOpDone : Prop :=
  ∀ (s : State) (o : NorOp), s.boot.op = some o → o.commit = false → o.refused = false → (o.op = 2 ∨ o.op = 3 ∨ o.op = 4 ∨ o.op = 5) →
    s.sec.commit = none → s.sec.store = none → memWf 0xFF s.boot.nor = true → o.result < 8 →
    Completes (.norOpDone false false) s fun t => t.boot.op = none ∧ norBytes t o.addr o.data.length = o.data ∧
      (∀ a, (a < o.addr ∨ o.addr + o.data.length ≤ a) → memRead 0xFF t.boot.nor a = memRead 0xFF s.boot.nor a) ∧
      rdField t Reg.norRes 30 28 = 0 ∧ rdField t Reg.norRes 31 31 = 1 ∧ bitOf (rd t Reg.cfgCause) 2 = true

/-- A read operation ends with its bytes in the buffer (R457). -/
def norOpDoneRead : Prop :=
  ∀ (s : State) (o : NorOp), s.boot.op = some o → o.commit = false → o.refused = false → o.op = 1 → s.sec.commit = none → s.sec.store = none →
    memWf 0 s.dram = true → s.mem.merge = [] → o.result < 8 →
    Completes (.norOpDone false false) s fun t => t.boot.nor = s.boot.nor ∧
      memReads 0 t.dram (rdField s Reg.norBuf 35 6 * 64) o.data.length = o.data ∧ rdField t Reg.norRes 30 28 = 0

/-- A refused one ends with RESULT 1 and changes nothing in the NOR (R457). -/
def norOpDoneRefused : Prop :=
  ∀ (s : State) (o : NorOp) (m x : Bool), s.boot.op = some o → o.commit = false → o.refused = true → s.sec.commit = none → s.sec.store = none → o.result < 8 →
    Completes (.norOpDone m x) s fun t => t.boot.op = none ∧ t.boot.nor = s.boot.nor ∧ t.dram = s.dram ∧
      rdField t Reg.norRes 30 28 = 1 ∧ rdField t Reg.norRes 26 24 = o.result ∧ bitOf (rd t Reg.cfgCause) 2 = true

/-- A failed read-back ends it with RESULT 2, and a time-out with RESULT 3 (R457). -/
def norOpDoneFailed : Prop :=
  ∀ (s : State) (o : NorOp) (m x : Bool), s.boot.op = some o → o.commit = false → o.refused = false → s.sec.commit = none → s.sec.store = none →
    (m = true ∨ x = true) → o.result < 8 →
    Completes (.norOpDone m x) s fun t => t.boot.op = none ∧ rdField t Reg.norRes 30 28 = (if x then 3 else 2)

/-- A fetch through the window, with no operation: its 64 bytes (R455). -/
def xipFetch : Prop :=
  ∀ (s : State) (i : Initiator) (off w : Nat), isCore i = true → off < 0x4000000 → s.boot.op = none →
    Completes (.xipFetch i off w) s fun t => t.out = s.out ++ [.fetch i (norBytes s (off / 64 * 64) 64)] ∧
      rdField t Reg.xipStat 31 16 = max (rdField s Reg.xipStat 31 16) (min w 65535) ∧ OnlyChanges [.regs, .out] s t

/-- One that meets a running program or erase waits; in the range being changed it is a bus fault, CFG_CAUSE bit 4 (R456). -/
def xipFetchHeld : Prop :=
  ∀ (s : State) (i : Initiator) (off w : Nat) (o : NorOp), isCore i = true → off < 0x4000000 → s.boot.op = some o → o.refused = false →
    o.op ≠ 1 → o.suspended = false →
    (inOpRange o off = false → Completes (.xipFetch i off w) s fun t =>
      t.boot = { s.boot with waiting := s.boot.waiting ++ [(i, off)] } ∧ OnlyChanges [.boot] s t) ∧
    (inOpRange o off = true → Completes (.xipFetch i off w) s fun t => bitOf (rd t Reg.cfgCause) 4 = true ∧ t.boot = s.boot)

/-- An erase is suspended for the accesses that wait: they are served, and the suspension is counted (R456). -/
def norEraseSuspend : Prop :=
  ∀ (s : State) (w : Nat) (o : NorOp), s.boot.op = some o → o.erasing = true → o.suspended = false → s.boot.waiting ≠ [] →
    Completes (.norEraseSuspend w) s fun t => t.boot = { s.boot with op := some { o with suspended := true }, waiting := [] } ∧
      t.out = s.out ++ s.boot.waiting.map (fun x => .fetch x.1 (norBytes s (x.2 / 64 * 64) 64)) ∧
      rdField t Reg.xipStat 15 0 = min (rdField s Reg.xipStat 15 0 + 1) 65535 ∧ OnlyChanges [.regs, .boot, .out] s t

/-- It resumes when nothing waits (R456). -/
def norEraseResume : Prop :=
  ∀ (s : State) (o : NorOp), s.boot.op = some o → o.suspended = true → s.boot.waiting = [] →
    Completes .norEraseResume s fun t => t.boot = { s.boot with op := some { o with suspended := false } } ∧ OnlyChanges [.boot] s t

/-- Between two page programs the accesses that wait are served (R456). -/
def norPageProgramDone : Prop :=
  ∀ (s : State) (o : NorOp), s.boot.op = some o →
    Completes .norPageProgramDone s fun t => t.boot = { s.boot with waiting := [] } ∧ OnlyChanges [.boot, .out] s t ∧
      t.out = s.out ++ s.boot.waiting.map (fun x => .fetch x.1 (norBytes s (x.2 / 64 * 64) 64))

end Sys2Proof.Claims

/-- A step with a command at the front of the queue is exec of it on the state with the queue's rest. -/
def Obligations.StepRunsFrontCommand : Prop :=
  Sys2Proof.Claims.stepTakesFront

/-- On an empty queue a step is one count of the timebase, or nothing without power (the model's choice, log entry 4). -/
def Obligations.IdleStepTicks : Prop :=
  Sys2Proof.Claims.stepIdle

/-- At reset the tables are canonical and the registers read their reset values. -/
def Obligations.ResetState : Prop :=
  Sys2Proof.Claims.resetCanon ∧ Sys2Proof.Claims.resetRegisters

/-- Every command has an effect in every state, and the queue is first in, first out. -/
def Obligations.EveryStepGoesOn : Prop :=
  Sys2Proof.Claims.stepAlwaysGoesOn ∧ Sys2Proof.Claims.queueIsFifo

/-- Every step keeps the register file, the DRAM and the Config NOR in canonical form. -/
def Obligations.StepKeepsCanonicalForm : Prop :=
  Sys2Proof.Claims.stepKeepsCanon

/-- No step clears a fuse: MINSVN never falls, and slots stay programmed and revoked. -/
def Obligations.FusesOnlyGrow : Prop :=
  Sys2Proof.Claims.stepKeepsFuses

/-- Every command leaves unchanged every part of the state outside its list in mayChange. -/
def Obligations.FrameOfEveryCommand : Prop :=
  Sys2Proof.Claims.frameOfEveryCommand

/-- A byte memory reads back what was written, keeps the rest, stays canonical, and is determined by its reads. -/
def Obligations.MemoryLaws : Prop :=
  Sys2Proof.Claims.memoryReadWrite ∧ Sys2Proof.Claims.memoryRuns ∧ Sys2Proof.Claims.memoryCanonical

/-- Accesses where no block or no register stands (R43). -/
def Obligations.HolesAndUnimplemented : Prop :=
  Sys2Proof.Claims.holeRead ∧ Sys2Proof.Claims.holeWrite ∧ Sys2Proof.Claims.unimplementedRead ∧
  Sys2Proof.Claims.unimplementedWrite

/-- Faulty accesses: the order of the checks, the status bit, the capture and the raise. -/
def Obligations.AccessChecks : Prop :=
  Sys2Proof.Claims.faultReport ∧ Sys2Proof.Claims.writeChecks ∧ Sys2Proof.Claims.readChecks

/-- A read changes nothing but the fault bits it reports (R47). -/
def Obligations.ReadsHaveNoSideEffect : Prop :=
  Sys2Proof.Claims.readNormal ∧ Sys2Proof.Claims.readNoSideEffect

/-- Writing 1 to a W1C bit that is 0, or an MW register with an empty mask, has no effect (R49). -/
def Obligations.InertWrites : Prop :=
  Sys2Proof.Claims.inertWrite ∧ Sys2Proof.Claims.zeroBitsInert ∧ Sys2Proof.Claims.maskZeroWrite

/-- A write that would change a configuration field of an ACTIVE block is refused with KIND 0x6. -/
def Obligations.ConfigurationWhileActive : Prop :=
  Sys2Proof.Claims.configWhileActive ∧ Sys2Proof.Claims.ctlWhileActive

/-- A trigger written while its operation runs starts no second one, keeps GEN, and sets TRIG_IGN with KIND 0x7 (R55). -/
def Obligations.TriggersWhileRunning : Prop :=
  Sys2Proof.Claims.triggerWhileRunning

/-- What each window state makes of BAR2 reads and writes (R58). -/
def Obligations.MaintenanceWindow : Prop :=
  Sys2Proof.Claims.windowTable ∧ Sys2Proof.Claims.denialCounted

/-- What a raise of an event source changes, and that it changes nothing else; the first pending source (R62). -/
def Obligations.RaisesOfSources : Prop :=
  Sys2Proof.Claims.raiseEffects ∧ Sys2Proof.Claims.raiseFrame ∧ Sys2Proof.Claims.firstPendingSource

/-- Two tracked commands overlap exactly when one is modifying and they share a letter of one namespace (R102). -/
def Obligations.OverlapOfCommands : Prop :=
  Sys2Proof.Claims.overlapRule

/-- The recorder's buckets and FIFO: what is admitted, suppressed and lost. -/
def Obligations.RecorderAdmission : Prop :=
  Sys2Proof.Claims.bucketRule ∧ Sys2Proof.Claims.fifoFull

/-- The thresholds' counts in each round and their changes at eight; a rail outside its window for eight rounds (R400). -/
def Obligations.ThresholdsAndSupplyMonitors : Prop :=
  Sys2Proof.Claims.thresholdRound ∧ Sys2Proof.Claims.thresholdChange ∧ Sys2Proof.Claims.railRounds ∧
  Sys2Proof.Claims.railDeclared

/-- A lost member comes back from P, from Q, or from both with a second one lost; three lost members do not. -/
def Obligations.ParityRebuilds : Prop :=
  Sys2Proof.Claims.rebuildFromP ∧ Sys2Proof.Claims.rebuildFromQ ∧ Sys2Proof.Claims.rebuildFromPQ ∧
  Sys2Proof.Claims.rebuildLost

/-- What register and event fabric commands do, from hypotheses on state and operands alone: registerWrite to blockCtlWriteDisable. -/
def Obligations.RegisterWrites : Prop :=
  Sys2Proof.Claims.registerWrite ∧ Sys2Proof.Claims.registerWriteHole ∧ Sys2Proof.Claims.registerWriteNarrow ∧
  Sys2Proof.Claims.bar2Access ∧ Sys2Proof.Claims.bar2AccessClosed ∧ Sys2Proof.Claims.blockCtlWrite ∧
  Sys2Proof.Claims.blockCtlWriteDisable

/-- What register and event fabric commands do, from hypotheses on state and operands alone: disableSequenceDone to faultyRegisterRead. -/
def Obligations.EventFabricCommands : Prop :=
  Sys2Proof.Claims.disableSequenceDone ∧ Sys2Proof.Claims.evfDoorbellWrite ∧ Sys2Proof.Claims.holdoffExpiry ∧
  Sys2Proof.Claims.timerFire ∧ Sys2Proof.Claims.watchdogExpiry ∧ Sys2Proof.Claims.watchdogKick ∧
  Sys2Proof.Claims.faultyRegisterRead

/-- What queue and I/O commands do, from hypotheses on state and operands alone: sqTailDoorbell to read. -/
def Obligations.DoorbellsAndAcceptance : Prop :=
  Sys2Proof.Claims.sqTailDoorbell ∧ Sys2Proof.Claims.cqHeadDoorbell ∧ Sys2Proof.Claims.cqHeadDoorbellPosts ∧
  Sys2Proof.Claims.trackedCommandAccept ∧ Sys2Proof.Claims.unsupportedOpcode ∧ Sys2Proof.Claims.flush ∧
  Sys2Proof.Claims.write ∧ Sys2Proof.Claims.read

/-- What queue and I/O commands do, from hypotheses on state and operands alone: compare to writeDataTransferFails. -/
def Obligations.FetchedIoCommands : Prop :=
  Sys2Proof.Claims.compare ∧ Sys2Proof.Claims.writeZeroes ∧ Sys2Proof.Claims.verify ∧
  Sys2Proof.Claims.datasetManagement ∧ Sys2Proof.Claims.fetchFault ∧ Sys2Proof.Claims.writeDataTransferDone ∧
  Sys2Proof.Claims.writeDataTransferFails

/-- What queue and I/O commands do, from hypotheses on state and operands alone: commandRelease to waitlimExceeded. -/
def Obligations.CommandsUnderWay : Prop :=
  Sys2Proof.Claims.commandRelease ∧ Sys2Proof.Claims.journalBatchStart ∧ Sys2Proof.Claims.commitAck ∧
  Sys2Proof.Claims.trackerFault ∧ Sys2Proof.Claims.trackerFaultEnds ∧ Sys2Proof.Claims.trackerReinit ∧
  Sys2Proof.Claims.waitlimExceeded

/-- What queue and I/O commands do, from hypotheses on state and operands alone: srtHwmClr to frontEndsAlternate. -/
def Obligations.TrackerCommands : Prop :=
  Sys2Proof.Claims.srtHwmClr ∧ Sys2Proof.Claims.abort ∧ Sys2Proof.Claims.abortCaught ∧
  Sys2Proof.Claims.arbitrationPicks ∧ Sys2Proof.Claims.weightedClassesFirst ∧ Sys2Proof.Claims.turnGoesOn ∧
  Sys2Proof.Claims.frontEndsAlternate

/-- What admin commands do, from hypotheses on state and operands alone: createIoCq to getLogPageOffset. -/
def Obligations.QueueAdministration : Prop :=
  Sys2Proof.Claims.createIoCq ∧ Sys2Proof.Claims.createIoSq ∧ Sys2Proof.Claims.deleteIoSq ∧
  Sys2Proof.Claims.deleteIoCq ∧ Sys2Proof.Claims.identify ∧ Sys2Proof.Claims.identifyController ∧
  Sys2Proof.Claims.getLogPage ∧ Sys2Proof.Claims.getLogPageFrom ∧ Sys2Proof.Claims.getLogPageOffset

/-- What admin commands do, from hypotheses on state and operands alone: deadLetterOfficeLog to setPlmWindow. -/
def Obligations.FeaturesAndEvents : Prop :=
  Sys2Proof.Claims.deadLetterOfficeLog ∧ Sys2Proof.Claims.recorderExportLog ∧ Sys2Proof.Claims.ringStatusLog ∧
  Sys2Proof.Claims.mediaHealthDetailLog ∧ Sys2Proof.Claims.capacityAndSheddingLog ∧ Sys2Proof.Claims.setFeatures ∧
  Sys2Proof.Claims.getFeatures ∧ Sys2Proof.Claims.setPowerManagement ∧ Sys2Proof.Claims.setPlmWindow

/-- What admin commands do, from hypotheses on state and operands alone: setLatencyTolerance to directiveSend. -/
def Obligations.NamespaceAdministration : Prop :=
  Sys2Proof.Claims.setLatencyTolerance ∧ Sys2Proof.Claims.setFailStopDefault ∧ Sys2Proof.Claims.setPatrolPeriod ∧
  Sys2Proof.Claims.asyncEventRequest ∧ Sys2Proof.Claims.namespaceCreate ∧ Sys2Proof.Claims.namespaceCreateNoEntropy ∧
  Sys2Proof.Claims.namespaceDelete ∧ Sys2Proof.Claims.namespaceAttachment ∧ Sys2Proof.Claims.directiveSend

/-- What admin commands do, from hypotheses on state and operands alone: directiveReceive to sanitizeBlockErase. -/
def Obligations.FirmwareAndFormat : Prop :=
  Sys2Proof.Claims.directiveReceive ∧ Sys2Proof.Claims.firmwareImageDownload ∧ Sys2Proof.Claims.firmwareCommitReplace
  ∧ Sys2Proof.Claims.firmwareCommitReplaceNext ∧ Sys2Proof.Claims.firmwareCommitActivateNow ∧
  Sys2Proof.Claims.firmwareCommitRefused ∧ Sys2Proof.Claims.firmwareCommitActivateSlot ∧ Sys2Proof.Claims.formatNvm ∧
  Sys2Proof.Claims.sanitizeBlockErase

/-- What admin commands do, from hypotheses on state and operands alone: sanitizeCryptoErase to shedCapacityUnallocated. -/
def Obligations.SanitizeAndSecurity : Prop :=
  Sys2Proof.Claims.sanitizeCryptoErase ∧ Sys2Proof.Claims.sanitizeExitFailureMode ∧ Sys2Proof.Claims.sanitizeRoundDone
  ∧ Sys2Proof.Claims.sanitizeProgressWrite ∧ Sys2Proof.Claims.securitySend ∧ Sys2Proof.Claims.securityReceive ∧
  Sys2Proof.Claims.shedCapacityRanges ∧ Sys2Proof.Claims.shedCapacityUnallocated

/-- What admin commands do, from hypotheses on state and operands alone: resumeQueue to depotUnlockClose. -/
def Obligations.VendorCommands : Prop :=
  Sys2Proof.Claims.resumeQueue ∧ Sys2Proof.Claims.collectionScheduleSet ∧ Sys2Proof.Claims.collectionScheduleGet ∧
  Sys2Proof.Claims.collectionScheduleTimeout ∧ Sys2Proof.Claims.scrubRange ∧ Sys2Proof.Claims.recorderRead ∧
  Sys2Proof.Claims.depotUnlock ∧ Sys2Proof.Claims.depotUnlockClose

/-- What port and controller events do, from hypotheses on state and operands alone: ccEnSet to drainComplete. The clauses that name a log entry (90, 152) state the model's choice there. -/
def Obligations.ControllerEvents : Prop :=
  Sys2Proof.Claims.ccEnSet ∧ Sys2Proof.Claims.ccEnClear ∧ Sys2Proof.Claims.ccEnClearDrops ∧
  Sys2Proof.Claims.shutdownNormal ∧ Sys2Proof.Claims.shutdownAbrupt ∧ Sys2Proof.Claims.functionLevelReset ∧
  Sys2Proof.Claims.hotResetOrPerst ∧ Sys2Proof.Claims.linkDown ∧ Sys2Proof.Claims.linkUp ∧
  Sys2Proof.Claims.drainComplete

/-- What port and controller events do, from hypotheses on state and operands alone: ltrSend to coalescing. The clauses that name a log entry (53, 151) state the model's choice there. -/
def Obligations.LinkAndMessageEvents : Prop :=
  Sys2Proof.Claims.ltrSend ∧ Sys2Proof.Claims.perstNDeassert ∧ Sys2Proof.Claims.configurationRequest ∧
  Sys2Proof.Claims.configurationRequestReady ∧ Sys2Proof.Claims.msixTableWrite ∧
  Sys2Proof.Claims.interruptCoalescingExpiry ∧ Sys2Proof.Claims.pcieUncorrectableError ∧
  Sys2Proof.Claims.pcieErrorOfTransfer ∧ Sys2Proof.Claims.configurationWriteBar ∧ Sys2Proof.Claims.coalescing

/-- What cache commands do, from hypotheses on state and operands alone: phcFillDone to phcRangeClean. -/
def Obligations.CacheEvents : Prop :=
  Sys2Proof.Claims.phcFillDone ∧ Sys2Proof.Claims.phcFillFails ∧ Sys2Proof.Claims.phcWritebackAck ∧
  Sys2Proof.Claims.phcErrWindowEnd ∧ Sys2Proof.Claims.phcWayDisableDone ∧ Sys2Proof.Claims.phcInvalidationDone ∧
  Sys2Proof.Claims.phcDrainDone ∧ Sys2Proof.Claims.phcRangeClean

/-- What cache commands do, from hypotheses on state and operands alone: phcRangeInvalidate to phcDrainingRequest. -/
def Obligations.CacheOperations : Prop :=
  Sys2Proof.Claims.phcRangeInvalidate ∧ Sys2Proof.Claims.phcRangeCleanInvalidate ∧ Sys2Proof.Claims.phcRangeDone ∧
  Sys2Proof.Claims.phcSwopClean ∧ Sys2Proof.Claims.phcSwopInvalidate ∧ Sys2Proof.Claims.phcSwopCleanInvalidate ∧
  Sys2Proof.Claims.phcFillsBounded ∧ Sys2Proof.Claims.phcDrainingRequest

/-- What map engine events do, from hypotheses on state and operands alone: packingFillwaitExpiry to jobRefused. -/
def Obligations.MapTimersAndJobs : Prop :=
  Sys2Proof.Claims.packingFillwaitExpiry ∧ Sys2Proof.Claims.bundleWaitEnd ∧ Sys2Proof.Claims.bundleWaitStays ∧
  Sys2Proof.Claims.deallocBundleTimeout ∧ Sys2Proof.Claims.heatHalving ∧ Sys2Proof.Claims.lifeClockTick ∧
  Sys2Proof.Claims.victimScan ∧ Sys2Proof.Claims.victimScanDone ∧ Sys2Proof.Claims.jobSubmit ∧
  Sys2Proof.Claims.jobRefused

/-- What map engine events do, from hypotheses on state and operands alone: jobDone to mapRecountDone. -/
def Obligations.ErasesAndRetirement : Prop :=
  Sys2Proof.Claims.jobDone ∧ Sys2Proof.Claims.jobAbort ∧ Sys2Proof.Claims.eraseComplete ∧
  Sys2Proof.Claims.eraseRepeats ∧ Sys2Proof.Claims.refreshRelocation ∧ Sys2Proof.Claims.lunRetire ∧
  Sys2Proof.Claims.channelRetire ∧ Sys2Proof.Claims.channelSweepDone ∧ Sys2Proof.Claims.channelSweepWaits ∧
  Sys2Proof.Claims.mapRecountDone

/-- What flash commands do, from hypotheses on state and operands alone: readComplete to programSuspend. -/
def Obligations.ReadsAndRebuilds : Prop :=
  Sys2Proof.Claims.readComplete ∧ Sys2Proof.Claims.readFails ∧ Sys2Proof.Claims.softDecodeFails ∧
  Sys2Proof.Claims.softDecodeDone ∧ Sys2Proof.Claims.softDecodeWaits ∧ Sys2Proof.Claims.rebuildDone ∧
  Sys2Proof.Claims.rebuildFails ∧ Sys2Proof.Claims.dlqEntryWrite ∧ Sys2Proof.Claims.strDlqTailWrite ∧
  Sys2Proof.Claims.programComplete ∧ Sys2Proof.Claims.eraseSuspend ∧ Sys2Proof.Claims.programSuspend

/-- What flash commands do, from hypotheses on state and operands alone: suspendResume to snapshotPop. -/
def Obligations.CourierCommands : Prop :=
  Sys2Proof.Claims.suspendResume ∧ Sys2Proof.Claims.suspendStays ∧ Sys2Proof.Claims.rdIAgeExpiry ∧
  Sys2Proof.Claims.lunTimeout ∧ Sys2Proof.Claims.trainingStart ∧ Sys2Proof.Claims.trainingDone ∧
  Sys2Proof.Claims.courierReset ∧ Sys2Proof.Claims.courierResetDone ∧ Sys2Proof.Claims.tokenAllocation ∧
  Sys2Proof.Claims.snapshotFire ∧ Sys2Proof.Claims.snapshotPop

/-- What journal commands do, from hypotheses on state and operands alone: epochPeriodExpiry to rootCommitDone. -/
def Obligations.JournalAndRoots : Prop :=
  Sys2Proof.Claims.epochPeriodExpiry ∧ Sys2Proof.Claims.minspExpiry ∧ Sys2Proof.Claims.jrcCutover ∧
  Sys2Proof.Claims.jrcCutoverBusy ∧ Sys2Proof.Claims.cutoverDone ∧ Sys2Proof.Claims.jrcCommit ∧
  Sys2Proof.Claims.rootCommitDone

/-- What patrol commands do, from hypotheses on state and operands alone: patrolReadTurned to ownerSearchDone. -/
def Obligations.PatrolCommands : Prop :=
  Sys2Proof.Claims.patrolReadTurned ∧ Sys2Proof.Claims.patrolReadDone ∧ Sys2Proof.Claims.patrolReadClean ∧
  Sys2Proof.Claims.patrolReadLost ∧ Sys2Proof.Claims.patrolRescan ∧ Sys2Proof.Claims.patrolTageTick ∧
  Sys2Proof.Claims.patrolFloorPace ∧ Sys2Proof.Claims.ownerSearch ∧ Sys2Proof.Claims.ownerSearchDone

/-- What memory integrity commands do, from hypotheses on state and operands alone: zeroFillStart to jramLineSwitch. -/
def Obligations.MemoryIntegrityCommands : Prop :=
  Sys2Proof.Claims.zeroFillStart ∧ Sys2Proof.Claims.zeroFillDone ∧ Sys2Proof.Claims.mergeAgeFlush ∧
  Sys2Proof.Claims.mergeAgeFlushPartial ∧ Sys2Proof.Claims.mergeAgeFlushBad ∧ Sys2Proof.Claims.scrubStart ∧
  Sys2Proof.Claims.scrubStop ∧ Sys2Proof.Claims.scrubDone ∧ Sys2Proof.Claims.scrubDoneCorrected ∧
  Sys2Proof.Claims.jramLineSwitch

/-- What ring commands do, from hypotheses on state and operands alone: ringSignalDetect to enumDropped. -/
def Obligations.RingLinksAndTime : Prop :=
  Sys2Proof.Claims.ringSignalDetect ∧ Sys2Proof.Claims.ringLinkUp ∧ Sys2Proof.Claims.ringLinkDown ∧
  Sys2Proof.Claims.link ∧ Sys2Proof.Claims.beacon ∧ Sys2Proof.Claims.syncReq ∧ Sys2Proof.Claims.syncRsp ∧
  Sys2Proof.Claims.syncRspFirst ∧ Sys2Proof.Claims.enumTaken ∧ Sys2Proof.Claims.enumDropped

/-- What ring commands do, from hypotheses on state and operands alone: enumend to sched. -/
def Obligations.RingEnumeration : Prop :=
  Sys2Proof.Claims.enumend ∧ Sys2Proof.Claims.enumendEast ∧ Sys2Proof.Claims.groupstate ∧
  Sys2Proof.Claims.groupstateRequested ∧ Sys2Proof.Claims.join ∧ Sys2Proof.Claims.joinRefused ∧
  Sys2Proof.Claims.ringAdmit ∧ Sys2Proof.Claims.role ∧ Sys2Proof.Claims.sched

/-- What ring commands do, from hypotheses on state and operands alone: schedWhole to relHave. -/
def Obligations.RingSchedules : Prop :=
  Sys2Proof.Claims.schedWhole ∧ Sys2Proof.Claims.ack ∧ Sys2Proof.Claims.act ∧ Sys2Proof.Claims.relOffer ∧
  Sys2Proof.Claims.relOfferHeld ∧ Sys2Proof.Claims.relData ∧ Sys2Proof.Claims.relDataIgnored ∧ Sys2Proof.Claims.relAck
  ∧ Sys2Proof.Claims.relHave

/-- What ring commands do, from hypotheses on state and operands alone: ringFirmwareDispatch to reachExpiry. The clauses that name a log entry (5) state the model's choice there. -/
def Obligations.RingRelay : Prop :=
  Sys2Proof.Claims.ringFirmwareDispatch ∧ Sys2Proof.Claims.reservedDispatchType ∧ Sys2Proof.Claims.repeatedCopy ∧
  Sys2Proof.Claims.dispatchFrameError ∧ Sys2Proof.Claims.ringTxDispatch ∧ Sys2Proof.Claims.ringRxPop ∧
  Sys2Proof.Claims.rngEnumCommand ∧ Sys2Proof.Claims.beaconSend ∧ Sys2Proof.Claims.reachExpiry

/-- What ring commands do, from hypotheses on state and operands alone: isolatedEntry to groupstateRequest. -/
def Obligations.RingTimersA : Prop :=
  Sys2Proof.Claims.isolatedEntry ∧ Sys2Proof.Claims.rejoin ∧ Sys2Proof.Claims.isolatedAddressDrop ∧
  Sys2Proof.Claims.enumStart ∧ Sys2Proof.Claims.enumTimeout ∧ Sys2Proof.Claims.joinSend ∧
  Sys2Proof.Claims.postmasterTakeover ∧ Sys2Proof.Claims.dispatchRepeat ∧ Sys2Proof.Claims.groupstateRequest

/-- What ring commands do, from hypotheses on state and operands alone: syncReqSend to holdoverExpiry. -/
def Obligations.RingTimersB : Prop :=
  Sys2Proof.Claims.syncReqSend ∧ Sys2Proof.Claims.slewDone ∧ Sys2Proof.Claims.scheduleEffective ∧
  Sys2Proof.Claims.windowBoundary ∧ Sys2Proof.Claims.groupEpochTick ∧ Sys2Proof.Claims.relayResend ∧
  Sys2Proof.Claims.activationTimeSkip ∧ Sys2Proof.Claims.activationTime ∧ Sys2Proof.Claims.holdoverExpiry

/-- What security commands do, from hypotheses on state and operands alone: imageVerify to activationRevert. The clauses that name a log entry (168) state the model's choice there. -/
def Obligations.ImagesAndHandover : Prop :=
  Sys2Proof.Claims.imageVerify ∧ Sys2Proof.Claims.imageVerifyBusy ∧ Sys2Proof.Claims.imageVerifyDone ∧
  Sys2Proof.Claims.handoverSwitch ∧ Sys2Proof.Claims.handoverSwitchIdle ∧ Sys2Proof.Claims.handoverBlockWritten ∧
  Sys2Proof.Claims.handoverDone ∧ Sys2Proof.Claims.handoverRefused ∧ Sys2Proof.Claims.handoverDoneCommit ∧
  Sys2Proof.Claims.activationRevert

/-- What security commands do, from hypotheses on state and operands alone: fuseProgramKeyhash to getCapabilities. -/
def Obligations.FusesAndKeys : Prop :=
  Sys2Proof.Claims.fuseProgramKeyhash ∧ Sys2Proof.Claims.fuseRevokeSlot ∧ Sys2Proof.Claims.fuseRaiseMinsvn ∧
  Sys2Proof.Claims.keyGenerate ∧ Sys2Proof.Claims.keyGenerateNoEntropy ∧ Sys2Proof.Claims.keyLoadWrapped ∧
  Sys2Proof.Claims.keyDestroy ∧ Sys2Proof.Claims.getVersion ∧ Sys2Proof.Claims.getCapabilities

/-- What security commands do, from hypotheses on state and operands alone: negotiateAlgorithms to noSession. -/
def Obligations.AttestationSessions : Prop :=
  Sys2Proof.Claims.negotiateAlgorithms ∧ Sys2Proof.Claims.spdmAttests ∧ Sys2Proof.Claims.keyExchange ∧
  Sys2Proof.Claims.finish ∧ Sys2Proof.Claims.heartbeat ∧ Sys2Proof.Claims.keyUpdate ∧ Sys2Proof.Claims.endSession ∧
  Sys2Proof.Claims.spdmHeartbeatTimeout ∧ Sys2Proof.Claims.noSession

/-- What recorder commands do, from hypotheses on state and operands alone: recorderWriteRecord to flashonlyBufferFlush. -/
def Obligations.RecorderCommands : Prop :=
  Sys2Proof.Claims.recorderWriteRecord ∧ Sys2Proof.Claims.recorderWriteSuppressed ∧ Sys2Proof.Claims.recorderWriteLost
  ∧ Sys2Proof.Claims.recorderEntryWritten ∧ Sys2Proof.Claims.recorderEpisode ∧ Sys2Proof.Claims.recorderReadBack ∧
  Sys2Proof.Claims.recorderPaceRefill ∧ Sys2Proof.Claims.recorderCursorWrite ∧ Sys2Proof.Claims.recorderCursorNext ∧
  Sys2Proof.Claims.recorderFlushsup ∧ Sys2Proof.Claims.recorderRearm ∧ Sys2Proof.Claims.recorderScanDone ∧
  Sys2Proof.Claims.flashonlyBufferFlush

/-- What thermal and power commands do, from hypotheses on state and operands alone: thermalRound to thermalShutdown. -/
def Obligations.ThermalCommands : Prop :=
  Sys2Proof.Claims.thermalRound ∧ Sys2Proof.Claims.thermalSensors ∧ Sys2Proof.Claims.thermalNoSensor ∧
  Sys2Proof.Claims.sensorBroken ∧ Sys2Proof.Claims.extLimit ∧ Sys2Proof.Claims.extLimitEnds ∧
  Sys2Proof.Claims.warningChange ∧ Sys2Proof.Claims.throttleChange ∧ Sys2Proof.Claims.thermalShutdown

/-- What thermal and power commands do, from hypotheses on state and operands alone: thermalRestart to psEntryDrains. -/
def Obligations.PowerStates : Prop :=
  Sys2Proof.Claims.thermalRestart ∧ Sys2Proof.Claims.bandChange ∧ Sys2Proof.Claims.bandTrains ∧
  Sys2Proof.Claims.supplyOutOfWindow ∧ Sys2Proof.Claims.idleTimerExpiry ∧ Sys2Proof.Claims.idleTarget ∧
  Sys2Proof.Claims.psEntry ∧ Sys2Proof.Claims.psEntryDrains

/-- What thermal and power commands do, from hypotheses on state and operands alone: psChangeDeferred to supplyPowerLoss. -/
def Obligations.SupplyAndPowerFail : Prop :=
  Sys2Proof.Claims.psChangeDeferred ∧ Sys2Proof.Claims.avfsEvaluation ∧ Sys2Proof.Claims.avselWrite ∧
  Sys2Proof.Claims.pwrFailAssert ∧ Sys2Proof.Claims.pwrFailDump ∧ Sys2Proof.Claims.powerFailRestart ∧
  Sys2Proof.Claims.supplyPowerOn ∧ Sys2Proof.Claims.supplyPowerLoss

/-- What reset and Config NOR commands do, from hypotheses on state and operands alone: resetNAssert to norBasewr. -/
def Obligations.ResetCommands : Prop :=
  Sys2Proof.Claims.resetNAssert ∧ Sys2Proof.Claims.resetReleaseNoBank ∧ Sys2Proof.Claims.resetReleaseFails ∧
  Sys2Proof.Claims.cfgRstWarm ∧ Sys2Proof.Claims.norRead ∧ Sys2Proof.Claims.norWrite ∧ Sys2Proof.Claims.norBasewr

/-- What reset and Config NOR commands do, from hypotheses on state and operands alone: norOvlwr to norOpDoneRead. -/
def Obligations.NorCommands : Prop :=
  Sys2Proof.Claims.norOvlwr ∧ Sys2Proof.Claims.norSlotwr ∧ Sys2Proof.Claims.norBootrec ∧
  Sys2Proof.Claims.norBootrecRecom ∧ Sys2Proof.Claims.norIdwr ∧ Sys2Proof.Claims.norOpDone ∧
  Sys2Proof.Claims.norOpDoneRead

/-- What reset and Config NOR commands do, from hypotheses on state and operands alone: norOpDoneRefused to norPageProgramDone. -/
def Obligations.NorAccesses : Prop :=
  Sys2Proof.Claims.norOpDoneRefused ∧ Sys2Proof.Claims.norOpDoneFailed ∧ Sys2Proof.Claims.xipFetch ∧
  Sys2Proof.Claims.xipFetchHeld ∧ Sys2Proof.Claims.norEraseSuspend ∧ Sys2Proof.Claims.norEraseResume ∧
  Sys2Proof.Claims.norPageProgramDone

/-- What a reset's release, the end of the staggered wake, a power state exit and a segment rebuild do. -/
def Obligations.StartUpAndWake : Prop :=
  Sys2Proof.Claims.resetRelease ∧ Sys2Proof.Claims.staggeredWakeEnd ∧ Sys2Proof.Claims.staggeredWakeStages ∧
  Sys2Proof.Claims.psExit ∧ Sys2Proof.Claims.segmentRebuildDone
end

