-- ==== Sys2Proof/Laws/Frame.lean ====
section
/-! SUPPORT. What every operation leaves alone, part by part: here the laws of the plain updates and of control; the files
Frame<Group> give one law for each operation. -/

set_option Elab.async false

namespace Sys2Proof.Machine

variable {F : List Part} {z s : State}

theorem OnlyChanges.refl (F : List Part) (s : State) : OnlyChanges F s s := ⟨fun p _ => by cases p <;> rfl⟩
theorem OnlyChanges.trans {a b c : State} (h : OnlyChanges F a b) (k : OnlyChanges F b c) : OnlyChanges F a c := ⟨fun p hp => by
  have x := h.same p hp
  have y := k.same p hp
  cases p <;> exact y.trans x⟩
theorem OnlyChanges.mono {G : List Part} {a b : State} (h : OnlyChanges F a b) (hs : F ⊆ G) : OnlyChanges G a b :=
  ⟨fun p hp => h.same p fun x => hp (hs x)⟩

/-- An update whose changed parts are all listed. -/
theorem frame_upd {x : State} (h : OnlyChanges F z x) {out clk regs portA portB evr thm pwr chip ring sec cry boot dram phc map
    flash jrc srt prog pat mem}
    (h1 : out = x.out ∨ Part.out ∈ F := by first | exact Or.inr (by assumption) | exact Or.inl rfl)
    (h2 : clk = x.clk ∨ Part.clk ∈ F := by first | exact Or.inr (by assumption) | exact Or.inl rfl)
    (h3 : regs = x.regs ∨ Part.regs ∈ F := by first | exact Or.inr (by assumption) | exact Or.inl rfl)
    (h4 : portA = x.portA ∨ Part.portA ∈ F := by first | exact Or.inr (by assumption) | exact Or.inl rfl)
    (h5 : portB = x.portB ∨ Part.portB ∈ F := by first | exact Or.inr (by assumption) | exact Or.inl rfl)
    (h6 : evr = x.evr ∨ Part.evr ∈ F := by first | exact Or.inr (by assumption) | exact Or.inl rfl)
    (h7 : thm = x.thm ∨ Part.thm ∈ F := by first | exact Or.inr (by assumption) | exact Or.inl rfl)
    (h8 : pwr = x.pwr ∨ Part.pwr ∈ F := by first | exact Or.inr (by assumption) | exact Or.inl rfl)
    (h9 : chip = x.chip ∨ Part.chip ∈ F := by first | exact Or.inr (by assumption) | exact Or.inl rfl)
    (h10 : ring = x.ring ∨ Part.ring ∈ F := by first | exact Or.inr (by assumption) | exact Or.inl rfl)
    (h11 : sec = x.sec ∨ Part.sec ∈ F := by first | exact Or.inr (by assumption) | exact Or.inl rfl)
    (h12 : cry = x.cry ∨ Part.cry ∈ F := by first | exact Or.inr (by assumption) | exact Or.inl rfl)
    (h13 : boot = x.boot ∨ Part.boot ∈ F := by first | exact Or.inr (by assumption) | exact Or.inl rfl)
    (h14 : dram = x.dram ∨ Part.dram ∈ F := by first | exact Or.inr (by assumption) | exact Or.inl rfl)
    (h15 : phc = x.phc ∨ Part.phc ∈ F := by first | exact Or.inr (by assumption) | exact Or.inl rfl)
    (h16 : map = x.map ∨ Part.map ∈ F := by first | exact Or.inr (by assumption) | exact Or.inl rfl)
    (h17 : flash = x.flash ∨ Part.flash ∈ F := by first | exact Or.inr (by assumption) | exact Or.inl rfl)
    (h18 : jrc = x.jrc ∨ Part.jrc ∈ F := by first | exact Or.inr (by assumption) | exact Or.inl rfl)
    (h19 : srt = x.srt ∨ Part.srt ∈ F := by first | exact Or.inr (by assumption) | exact Or.inl rfl)
    (h20 : prog = x.prog ∨ Part.prog ∈ F := by first | exact Or.inr (by assumption) | exact Or.inl rfl)
    (h21 : pat = x.pat ∨ Part.pat ∈ F := by first | exact Or.inr (by assumption) | exact Or.inl rfl)
    (h22 : mem = x.mem ∨ Part.mem ∈ F := by first | exact Or.inr (by assumption) | exact Or.inl rfl) :
    OnlyChanges F z ⟨x.pending, out, clk, regs, portA, portB, evr, thm, pwr, chip, ring, sec, cry, boot, dram, phc, map, flash, jrc, srt,
      prog, pat, mem⟩ := by
  refine h.trans ⟨fun p hp => ?_⟩
  cases p
  · rfl
  · exact h1.resolve_right hp
  · exact h2.resolve_right hp
  · exact h3.resolve_right hp
  · exact h4.resolve_right hp
  · exact h5.resolve_right hp
  · exact h6.resolve_right hp
  · exact h7.resolve_right hp
  · exact h8.resolve_right hp
  · exact h9.resolve_right hp
  · exact h10.resolve_right hp
  · exact h11.resolve_right hp
  · exact h12.resolve_right hp
  · exact h13.resolve_right hp
  · exact h14.resolve_right hp
  · exact h15.resolve_right hp
  · exact h16.resolve_right hp
  · exact h17.resolve_right hp
  · exact h18.resolve_right hp
  · exact h19.resolve_right hp
  · exact h20.resolve_right hp
  · exact h21.resolve_right hp
  · exact h22.resolve_right hp

/-! ## Control -/

theorem frame_ite {a b : State} {c : Prop} [Decidable c] (ha : OnlyChanges F z a) (hb : OnlyChanges F z b) :
    OnlyChanges F z (if c then a else b) := by split <;> assumption
theorem frame_ite_fst {α : Type} {a b : State × α} {c : Prop} [Decidable c] (ha : OnlyChanges F z a.1) (hb : OnlyChanges F z b.1) :
    OnlyChanges F z (if c then a else b).1 := by split <;> assumption
theorem frame_foldl {β : Type} {g : State → β → State} {l : List β} (hg : ∀ x b, OnlyChanges F z x → OnlyChanges F z (g x b))
    (h : OnlyChanges F z s) : OnlyChanges F z (l.foldl g s) := by
  induction l generalizing s with
  | nil => exact h
  | cons b r ih => exact ih (hg s b h)
theorem frame_foldl_fst {α β : Type} {g : State × α → β → State × α} {l : List β} {p : State × α}
    (hg : ∀ x b, OnlyChanges F z x.1 → OnlyChanges F z (g x b).1) (h : OnlyChanges F z p.1) :
    OnlyChanges F z (l.foldl g p).1 := by
  induction l generalizing p with
  | nil => exact h
  | cons b r ih => exact ih (hg p b h)
theorem frame_of_eq {α : Type} {p : State × α} {x : State} {y : α} (e : p = (x, y)) (h : OnlyChanges F z p.1) : OnlyChanges F z x := by
  rw [e] at h; exact h

/-! ## Field updates -/

theorem updSec_frame {f} (h : OnlyChanges F z s) (m : Part.sec ∈ F) : OnlyChanges F z (updSec s f) :=
  h.trans ⟨fun p hp => by cases p <;> first | rfl | exact absurd m hp⟩
theorem updBoot_frame {f} (h : OnlyChanges F z s) (m : Part.boot ∈ F) : OnlyChanges F z (updBoot s f) :=
  h.trans ⟨fun p hp => by cases p <;> first | rfl | exact absurd m hp⟩
theorem updClk_frame {f} (h : OnlyChanges F z s) (m : Part.clk ∈ F) : OnlyChanges F z (updClk s f) :=
  h.trans ⟨fun p hp => by cases p <;> first | rfl | exact absurd m hp⟩
theorem updEvr_frame {f} (h : OnlyChanges F z s) (m : Part.evr ∈ F) : OnlyChanges F z (updEvr s f) :=
  h.trans ⟨fun p hp => by cases p <;> first | rfl | exact absurd m hp⟩
theorem updThm_frame {f} (h : OnlyChanges F z s) (m : Part.thm ∈ F) : OnlyChanges F z (updThm s f) :=
  h.trans ⟨fun p hp => by cases p <;> first | rfl | exact absurd m hp⟩
theorem updPwr_frame {f} (h : OnlyChanges F z s) (m : Part.pwr ∈ F) : OnlyChanges F z (updPwr s f) :=
  h.trans ⟨fun p hp => by cases p <;> first | rfl | exact absurd m hp⟩
theorem updChip_frame {f} (h : OnlyChanges F z s) (m : Part.chip ∈ F) : OnlyChanges F z (updChip s f) :=
  h.trans ⟨fun p hp => by cases p <;> first | rfl | exact absurd m hp⟩
theorem updRing_frame {f} (h : OnlyChanges F z s) (m : Part.ring ∈ F) : OnlyChanges F z (updRing s f) :=
  h.trans ⟨fun p hp => by cases p <;> first | rfl | exact absurd m hp⟩
theorem updCry_frame {f} (h : OnlyChanges F z s) (m : Part.cry ∈ F) : OnlyChanges F z (updCry s f) :=
  h.trans ⟨fun p hp => by cases p <;> first | rfl | exact absurd m hp⟩
theorem updPhc_frame {f} (h : OnlyChanges F z s) (m : Part.phc ∈ F) : OnlyChanges F z (updPhc s f) :=
  h.trans ⟨fun p hp => by cases p <;> first | rfl | exact absurd m hp⟩
theorem updMap_frame {f} (h : OnlyChanges F z s) (m : Part.map ∈ F) : OnlyChanges F z (updMap s f) :=
  h.trans ⟨fun p hp => by cases p <;> first | rfl | exact absurd m hp⟩
theorem updTab_frame {f} (h : OnlyChanges F z s) (m : Part.map ∈ F) : OnlyChanges F z (updTab s f) :=
  h.trans ⟨fun p hp => by cases p <;> first | rfl | exact absurd m hp⟩
theorem updFlash_frame {f} (h : OnlyChanges F z s) (m : Part.flash ∈ F) : OnlyChanges F z (updFlash s f) :=
  h.trans ⟨fun p hp => by cases p <;> first | rfl | exact absurd m hp⟩
theorem updJrc_frame {f} (h : OnlyChanges F z s) (m : Part.jrc ∈ F) : OnlyChanges F z (updJrc s f) :=
  h.trans ⟨fun p hp => by cases p <;> first | rfl | exact absurd m hp⟩
theorem updSrt_frame {f} (h : OnlyChanges F z s) (m : Part.srt ∈ F) : OnlyChanges F z (updSrt s f) :=
  h.trans ⟨fun p hp => by cases p <;> first | rfl | exact absurd m hp⟩
theorem updPat_frame {f} (h : OnlyChanges F z s) (m : Part.pat ∈ F) : OnlyChanges F z (updPat s f) :=
  h.trans ⟨fun p hp => by cases p <;> first | rfl | exact absurd m hp⟩
theorem updMem_frame {f} (h : OnlyChanges F z s) (m : Part.mem ∈ F) : OnlyChanges F z (updMem s f) :=
  h.trans ⟨fun p hp => by cases p <;> first | rfl | exact absurd m hp⟩
theorem wr_frame {a v} (h : OnlyChanges F z s) (m : Part.regs ∈ F) : OnlyChanges F z (wr s a v) :=
  h.trans ⟨fun p hp => by cases p <;> first | rfl | exact absurd m hp⟩
theorem setPort_frame {p x} (h : OnlyChanges F z s) (m : Part.portA ∈ F) (n : Part.portB ∈ F) : OnlyChanges F z (setPort s p x) :=
  h.trans ⟨fun q hq => by cases p <;> cases q <;> first | rfl | exact absurd m hq | exact absurd n hq⟩
theorem modPort_frame {p f} (h : OnlyChanges F z s) (m : Part.portA ∈ F) (n : Part.portB ∈ F) : OnlyChanges F z (modPort s p f) :=
  setPort_frame h m n
theorem freshBelow_frame {n} (h : OnlyChanges F z s) (m : Part.clk ∈ F) : OnlyChanges F z (freshBelow s n).1 :=
  h.trans ⟨fun p hp => by cases p <;> first | rfl | exact absurd m hp⟩

end Sys2Proof.Machine
end

