-- ==== Sys2Proof/Laws/FrameOps.lean ====
section
/-! SUPPORT. What the operations leave alone (Laws/Frame.lean): signalling, the queues, the map tables, the thermal round and the cache. One law for each operation. -/

set_option Elab.async false
set_option linter.unusedTactic false
set_option linter.unreachableTactic false

namespace Sys2Proof.Machine

variable {F : List Part} {z s : State}

theorem orReg_frame {a : Nat} {m : Nat} (hz : OnlyChanges F z s) (m3 : Part.regs ∈ F) : OnlyChanges F z (orReg s a m) := by
  unfold orReg
  repeat' first
    | with_reducible assumption
    | (with_reducible apply wr_frame)

theorem wrField_frame {a : Nat} {hi : Nat} {lo : Nat} {v : Nat} (hz : OnlyChanges F z s) (m3 : Part.regs ∈ F) : OnlyChanges F z (wrField s a hi lo v) := by
  unfold wrField
  repeat' first
    | with_reducible assumption
    | (with_reducible apply wr_frame)

theorem satAdd_frame {a : Nat} {hi : Nat} {lo : Nat} {n : Nat} (hz : OnlyChanges F z s) (m3 : Part.regs ∈ F) : OnlyChanges F z (satAdd s a hi lo n) := by
  unfold satAdd
  repeat' first
    | with_reducible assumption
    | (with_reducible apply wrField_frame)

theorem wrapAdd_frame {a : Nat} {n : Nat} (hz : OnlyChanges F z s) (m3 : Part.regs ∈ F) : OnlyChanges F z (wrapAdd s a n) := by
  unfold wrapAdd
  repeat' first
    | with_reducible assumption
    | (with_reducible apply wr_frame)

theorem setActive_frame {b : Blk} {u : Nat} {on : Bool} (hz : OnlyChanges F z s) (m3 : Part.regs ∈ F) : OnlyChanges F z (setActive s b u on) := by
  unfold setActive
  repeat' first
    | with_reducible assumption
    | (with_reducible apply wrField_frame)
    | (with_reducible apply frame_ite)
    | split

theorem emit_frame {o : Out} (hz : OnlyChanges F z s) (m1 : Part.out ∈ F) : OnlyChanges F z (emit s o) := by
  unfold emit
  repeat' first
    | with_reducible assumption
    | (fail_if_no_progress with_reducible refine frame_upd ?_)

theorem enqueue_frame {c : Cand} (hz : OnlyChanges F z s) (m3 : Part.regs ∈ F) (m6 : Part.evr ∈ F) : OnlyChanges F z (enqueue s c) := by
  unfold enqueue
  repeat' first
    | with_reducible assumption
    | (with_reducible apply satAdd_frame)
    | (with_reducible apply frame_ite)
    | (intro b; refine (fun (_ : OnlyChanges F z b) => ?_) ?_; clear_value b; swap; dsimp only [b]; swap)
    | (intro b; clear_value b)
    | intro b
    | lift_lets
    | split
    | (fail_if_no_progress with_reducible refine frame_upd ?_)
    | dsimp only

theorem admitCand_frame {c : Cand} (hz : OnlyChanges F z s) (m3 : Part.regs ∈ F) (m6 : Part.evr ∈ F) : OnlyChanges F z (admitCand s c) := by
  unfold admitCand
  repeat' first
    | with_reducible assumption
    | (with_reducible apply enqueue_frame)
    | (with_reducible apply satAdd_frame)
    | (with_reducible apply frame_ite)
    | (intro b; refine (fun (_ : OnlyChanges F z b) => ?_) ?_; clear_value b; swap; dsimp only [b]; swap)
    | (intro b; clear_value b)
    | intro b
    | lift_lets
    | split
    | (fail_if_no_progress with_reducible refine frame_upd ?_)

theorem msixSend_frame {p : Port} {v : Nat} (hz : OnlyChanges F z s) (m1 : Part.out ∈ F) (m4 : Part.portA ∈ F) (m5 : Part.portB ∈ F) : OnlyChanges F z (msixSend s p v) := by
  unfold msixSend
  repeat' first
    | with_reducible assumption
    | (with_reducible apply setPort_frame)
    | (with_reducible apply emit_frame)
    | (with_reducible apply frame_ite)
    | (intro b; refine (fun (_ : OnlyChanges F z b) => ?_) ?_; clear_value b; swap; dsimp only [b]; swap)
    | (intro b; clear_value b)
    | intro b
    | lift_lets
    | split
    | (fail_if_no_progress with_reducible refine frame_upd ?_)

theorem vendorMsg_frame {p : Port} {v : Nat} (hz : OnlyChanges F z s) (m1 : Part.out ∈ F) (m4 : Part.portA ∈ F) (m5 : Part.portB ∈ F) : OnlyChanges F z (vendorMsg s p v) := by
  unfold vendorMsg
  repeat' first
    | with_reducible assumption
    | (with_reducible apply setPort_frame)
    | (with_reducible apply msixSend_frame)
    | (with_reducible apply frame_ite)
    | (intro b; refine (fun (_ : OnlyChanges F z b) => ?_) ?_; clear_value b; swap; dsimp only [b]; swap)
    | (intro b; clear_value b)
    | intro b
    | lift_lets
    | split
    | (fail_if_no_progress with_reducible refine frame_upd ?_)

theorem setMapBit_frame {base : Nat → Nat} {n : Nat} (hz : OnlyChanges F z s) (m3 : Part.regs ∈ F) : OnlyChanges F z (setMapBit s base n) := by
  unfold setMapBit
  repeat' first
    | with_reducible assumption
    | (with_reducible apply orReg_frame)
    | (with_reducible apply hf)

theorem raiseWith_frame {n : Nat} {payload : List Byte} {origin : optParam Nat 10} (hz : OnlyChanges F z s) (m1 : Part.out ∈ F) (m3 : Part.regs ∈ F) (m4 : Part.portA ∈ F) (m5 : Part.portB ∈ F) (m6 : Part.evr ∈ F) : OnlyChanges F z (raiseWith s n payload origin) := by
  unfold raiseWith
  repeat' first
    | with_reducible assumption
    | (with_reducible apply setMapBit_frame)
    | (with_reducible apply vendorMsg_frame)
    | (with_reducible apply admitCand_frame)
    | (with_reducible apply frame_ite)
    | (with_reducible refine frame_foldl (fun x b hx => ?_) ?_)
    | (intro b; refine (fun (_ : OnlyChanges F z b) => ?_) ?_; clear_value b; swap; dsimp only [b]; swap)
    | (intro b; clear_value b)
    | intro b
    | lift_lets
    | split

theorem raise_frame {n : Nat} (hz : OnlyChanges F z s) (m1 : Part.out ∈ F) (m3 : Part.regs ∈ F) (m4 : Part.portA ∈ F) (m5 : Part.portB ∈ F) (m6 : Part.evr ∈ F) : OnlyChanges F z (raise s n) := by
  unfold raise
  repeat' first
    | with_reducible assumption
    | (with_reducible apply raiseWith_frame)

theorem setCause_frame {a : Nat} {bit : Nat} {src : Nat} (hz : OnlyChanges F z s) (m1 : Part.out ∈ F) (m3 : Part.regs ∈ F) (m4 : Part.portA ∈ F) (m5 : Part.portB ∈ F) (m6 : Part.evr ∈ F) : OnlyChanges F z (setCause s a bit src) := by
  unfold setCause
  repeat' first
    | with_reducible assumption
    | (with_reducible apply raise_frame)
    | (with_reducible apply orReg_frame)
    | (with_reducible apply frame_ite)
    | split

theorem accessFault_frame {b : Blk} {u : Nat} {bit : Nat} {kind : Nat} {init : Nat} {off : Nat} (hz : OnlyChanges F z s) (m1 : Part.out ∈ F) (m3 : Part.regs ∈ F) (m4 : Part.portA ∈ F) (m5 : Part.portB ∈ F) (m6 : Part.evr ∈ F) : OnlyChanges F z (accessFault s b u bit kind init off) := by
  unfold accessFault
  repeat' first
    | with_reducible assumption
    | (with_reducible apply wr_frame)
    | (with_reducible apply raiseWith_frame)
    | (with_reducible apply frame_ite)
    | (intro b; refine (fun (_ : OnlyChanges F z b) => ?_) ?_; clear_value b; swap; dsimp only [b]; swap)
    | (intro b; clear_value b)
    | intro b
    | lift_lets
    | split
    | dsimp only

theorem noteCause_frame {a : Nat} {bit : Nat} {src : Nat} (hz : OnlyChanges F z s) (m1 : Part.out ∈ F) (m3 : Part.regs ∈ F) (m4 : Part.portA ∈ F) (m5 : Part.portB ∈ F) (m6 : Part.evr ∈ F) : OnlyChanges F z (noteCause s a bit src) := by
  unfold noteCause
  repeat' first
    | with_reducible assumption
    | (with_reducible apply raise_frame)
    | (with_reducible apply orReg_frame)

theorem jramUe_frame (hz : OnlyChanges F z s) (m1 : Part.out ∈ F) (m3 : Part.regs ∈ F) (m4 : Part.portA ∈ F) (m5 : Part.portB ∈ F) (m6 : Part.evr ∈ F) : OnlyChanges F z (jramUe s) := by
  unfold jramUe
  repeat' first
    | with_reducible assumption
    | (with_reducible apply raise_frame)
    | (with_reducible apply orReg_frame)

theorem cqInterrupt_frame {p : Port} {cqid : Nat} {q : Cq} (hz : OnlyChanges F z s) (m1 : Part.out ∈ F) (m4 : Part.portA ∈ F) (m5 : Part.portB ∈ F) : OnlyChanges F z (cqInterrupt s p cqid q) := by
  unfold cqInterrupt
  repeat' first
    | with_reducible assumption
    | (with_reducible apply msixSend_frame)
    | (with_reducible apply modPort_frame)
    | (with_reducible apply frame_ite)
    | (intro b; refine (fun (_ : OnlyChanges F z b) => ?_) ?_; clear_value b; swap; dsimp only [b]; swap)
    | (intro b; clear_value b)
    | intro b
    | lift_lets
    | split
    | (fail_if_no_progress with_reducible refine frame_upd ?_)
    | dsimp only

theorem placeCompl_frame {p : Port} {cqid : Nat} {q : Cq} {c : Compl} (hz : OnlyChanges F z s) (m1 : Part.out ∈ F) (m3 : Part.regs ∈ F) (m4 : Part.portA ∈ F) (m5 : Part.portB ∈ F) (m6 : Part.evr ∈ F) : OnlyChanges F z (placeCompl s p cqid q c) := by
  unfold placeCompl
  repeat' first
    | with_reducible assumption
    | (with_reducible apply modPort_frame)
    | (with_reducible apply emit_frame)
    | (with_reducible apply cqInterrupt_frame)
    | (with_reducible apply raise_frame)
    | (with_reducible apply frame_ite)
    | (intro b; refine (fun (_ : OnlyChanges F z b) => ?_) ?_; clear_value b; swap; dsimp only [b]; swap)
    | (intro b; clear_value b)
    | intro b
    | lift_lets
    | split
    | (fail_if_no_progress with_reducible refine frame_upd ?_)

theorem post_frame {c : Compl} (hz : OnlyChanges F z s) (m1 : Part.out ∈ F) (m3 : Part.regs ∈ F) (m4 : Part.portA ∈ F) (m5 : Part.portB ∈ F) (m6 : Part.evr ∈ F) : OnlyChanges F z (post s c) := by
  unfold post
  repeat' first
    | with_reducible assumption
    | (with_reducible apply setPort_frame)
    | (with_reducible apply placeCompl_frame)
    | (with_reducible apply frame_ite)
    | (intro b; refine (fun (_ : OnlyChanges F z b) => ?_) ?_; clear_value b; swap; dsimp only [b]; swap)
    | (intro b; clear_value b)
    | intro b
    | lift_lets
    | split
    | (fail_if_no_progress with_reducible refine frame_upd ?_)
    | dsimp only

theorem abortAfter_frame {p : Port} (hz : OnlyChanges F z s) (m1 : Part.out ∈ F) (m3 : Part.regs ∈ F) (m4 : Part.portA ∈ F) (m5 : Part.portB ∈ F) (m6 : Part.evr ∈ F) : OnlyChanges F z (abortAfter s p) := by
  unfold abortAfter
  repeat' first
    | with_reducible assumption
    | (with_reducible apply post_frame)
    | (with_reducible apply modPort_frame)
    | (with_reducible apply frame_ite)
    | split
    | (fail_if_no_progress with_reducible refine frame_upd ?_)
    | dsimp only

theorem postHeld_frame {n : Nat} {p : Port} {cqid : Nat} (h : OnlyChanges F z s) (m1 : Part.out ∈ F) (m3 : Part.regs ∈ F) (m4 : Part.portA ∈ F) (m5 : Part.portB ∈ F) (m6 : Part.evr ∈ F)
    : OnlyChanges F z (postHeld n s p cqid) := by
  induction n generalizing s with
  | zero => exact h
  | succ n ih =>
    unfold postHeld
    repeat' first
      | assumption
      | (with_reducible apply ih)
      | (with_reducible apply placeCompl_frame)
      | (with_reducible apply frame_ite)
      | split

theorem addError_frame {q : Sqe} {st : Status} {lba : Nat} {cs : Nat} (hz : OnlyChanges F z s) (m4 : Part.portA ∈ F) (m5 : Part.portB ∈ F) : OnlyChanges F z (addError s q st lba cs) := by
  unfold addError
  repeat' first
    | with_reducible assumption
    | (with_reducible apply modPort_frame)
    | (fail_if_no_progress with_reducible refine frame_upd ?_)

theorem complete_frame {q : Sqe} {st : Status} {dw0 : optParam Nat 0} {lba : optParam Nat 0} {cs : optParam Nat 0} (hz : OnlyChanges F z s) (m1 : Part.out ∈ F) (m3 : Part.regs ∈ F) (m4 : Part.portA ∈ F) (m5 : Part.portB ∈ F) (m6 : Part.evr ∈ F) : OnlyChanges F z (complete s q st dw0 lba cs) := by
  unfold complete
  repeat' first
    | with_reducible assumption
    | (with_reducible apply addError_frame)
    | (with_reducible apply post_frame)
    | (with_reducible apply frame_ite)
    | (intro b; refine (fun (_ : OnlyChanges F z b) => ?_) ?_; clear_value b; swap; dsimp only [b]; swap)
    | (intro b; clear_value b)
    | intro b
    | lift_lets
    | split

theorem aerDeliver_frame {p : Port} (hz : OnlyChanges F z s) (m1 : Part.out ∈ F) (m3 : Part.regs ∈ F) (m4 : Part.portA ∈ F) (m5 : Part.portB ∈ F) (m6 : Part.evr ∈ F) : OnlyChanges F z (aerDeliver s p) := by
  unfold aerDeliver
  repeat' first
    | with_reducible assumption
    | (with_reducible apply setPort_frame)
    | (with_reducible apply post_frame)
    | (intro b; refine (fun (_ : OnlyChanges F z b) => ?_) ?_; clear_value b; swap; dsimp only [b]; swap)
    | (intro b; clear_value b)
    | intro b
    | lift_lets
    | split
    | (fail_if_no_progress with_reducible refine frame_upd ?_)
    | dsimp only

theorem asyncEvent_frame {p : Port} {typ : Nat} {info : Nat} {lid : Nat} (hz : OnlyChanges F z s) (m1 : Part.out ∈ F) (m3 : Part.regs ∈ F) (m4 : Part.portA ∈ F) (m5 : Part.portB ∈ F) (m6 : Part.evr ∈ F) : OnlyChanges F z (asyncEvent s p typ info lid) := by
  unfold asyncEvent
  repeat' first
    | with_reducible assumption
    | (with_reducible apply aerDeliver_frame)
    | (with_reducible apply setPort_frame)
    | (with_reducible apply frame_ite)
    | (intro b; refine (fun (_ : OnlyChanges F z b) => ?_) ?_; clear_value b; swap; dsimp only [b]; swap)
    | (intro b; clear_value b)
    | intro b
    | lift_lets
    | split
    | (fail_if_no_progress with_reducible refine frame_upd ?_)

theorem asyncBoth_frame {typ : Nat} {info : Nat} {lid : Nat} (hz : OnlyChanges F z s) (m1 : Part.out ∈ F) (m3 : Part.regs ∈ F) (m4 : Part.portA ∈ F) (m5 : Part.portB ∈ F) (m6 : Part.evr ∈ F) : OnlyChanges F z (asyncBoth s typ info lid) := by
  unfold asyncBoth
  repeat' first
    | with_reducible assumption
    | (with_reducible apply asyncEvent_frame)

theorem aerClear_frame {p : Port} {lid : Nat} (hz : OnlyChanges F z s) (m4 : Part.portA ∈ F) (m5 : Part.portB ∈ F) : OnlyChanges F z (aerClear s p lid) := by
  unfold aerClear
  repeat' first
    | with_reducible assumption
    | (with_reducible apply modPort_frame)
    | (fail_if_no_progress with_reducible refine frame_upd ?_)

theorem sqDoorbell_frame {p : Port} {qid : Nat} {tail : Nat} (hz : OnlyChanges F z s) (m1 : Part.out ∈ F) (m3 : Part.regs ∈ F) (m4 : Part.portA ∈ F) (m5 : Part.portB ∈ F) (m6 : Part.evr ∈ F) : OnlyChanges F z (sqDoorbell s p qid tail) := by
  unfold sqDoorbell
  repeat' first
    | with_reducible assumption
    | (with_reducible apply asyncEvent_frame)
    | (with_reducible apply setPort_frame)
    | (with_reducible apply frame_ite)
    | (intro b; refine (fun (_ : OnlyChanges F z b) => ?_) ?_; clear_value b; swap; dsimp only [b]; swap)
    | (intro b; clear_value b)
    | intro b
    | lift_lets
    | split
    | (fail_if_no_progress with_reducible refine frame_upd ?_)
    | dsimp only

theorem cqDoorbell_frame {p : Port} {qid : Nat} {head : Nat} (hz : OnlyChanges F z s) (m1 : Part.out ∈ F) (m3 : Part.regs ∈ F) (m4 : Part.portA ∈ F) (m5 : Part.portB ∈ F) (m6 : Part.evr ∈ F) : OnlyChanges F z (cqDoorbell s p qid head) := by
  unfold cqDoorbell
  repeat' first
    | with_reducible assumption
    | (with_reducible apply asyncEvent_frame)
    | (with_reducible apply abortAfter_frame)
    | (with_reducible apply postHeld_frame)
    | (with_reducible apply setPort_frame)
    | (with_reducible apply frame_ite)
    | (intro b; refine (fun (_ : OnlyChanges F z b) => ?_) ?_; clear_value b; swap; dsimp only [b]; swap)
    | (intro b; clear_value b)
    | intro b
    | lift_lets
    | split
    | (fail_if_no_progress with_reducible refine frame_upd ?_)
    | dsimp only

theorem coalExpiry_frame {p : Port} {vector : Nat} (hz : OnlyChanges F z s) (m1 : Part.out ∈ F) (m4 : Part.portA ∈ F) (m5 : Part.portB ∈ F) : OnlyChanges F z (coalExpiry s p vector) := by
  unfold coalExpiry
  repeat' first
    | with_reducible assumption
    | (with_reducible apply msixSend_frame)
    | (with_reducible apply setPort_frame)
    | (with_reducible apply frame_ite)
    | (intro b; refine (fun (_ : OnlyChanges F z b) => ?_) ?_; clear_value b; swap; dsimp only [b]; swap)
    | (intro b; clear_value b)
    | intro b
    | lift_lets
    | split
    | (fail_if_no_progress with_reducible refine frame_upd ?_)

theorem msixFlush_frame {p : Port} {v : Nat} (hz : OnlyChanges F z s) (m1 : Part.out ∈ F) (m4 : Part.portA ∈ F) (m5 : Part.portB ∈ F) : OnlyChanges F z (msixFlush s p v) := by
  unfold msixFlush
  repeat' first
    | with_reducible assumption
    | (with_reducible apply msixSend_frame)
    | (with_reducible apply frame_ite)
    | split

theorem msixWrite_frame {p : Port} {v : Nat} {mask : Bool} {addr : Nat} {data : Nat} (hz : OnlyChanges F z s) (m1 : Part.out ∈ F) (m4 : Part.portA ∈ F) (m5 : Part.portB ∈ F) : OnlyChanges F z (msixWrite s p v mask addr data) := by
  unfold msixWrite
  repeat' first
    | with_reducible assumption
    | (with_reducible apply msixFlush_frame)
    | (with_reducible apply setPort_frame)
    | (with_reducible apply frame_ite)
    | (intro b; refine (fun (_ : OnlyChanges F z b) => ?_) ?_; clear_value b; swap; dsimp only [b]; swap)
    | (intro b; clear_value b)
    | intro b
    | lift_lets
    | split
    | (fail_if_no_progress with_reducible refine frame_upd ?_)

theorem anaNotice_frame (hz : OnlyChanges F z s) (m1 : Part.out ∈ F) (m3 : Part.regs ∈ F) (m4 : Part.portA ∈ F) (m5 : Part.portB ∈ F) (m6 : Part.evr ∈ F) (m16 : Part.map ∈ F) : OnlyChanges F z (anaNotice s) := by
  unfold anaNotice
  repeat' first
    | with_reducible assumption
    | (with_reducible apply asyncEvent_frame)
    | (with_reducible apply updMap_frame)
    | (with_reducible apply frame_ite)
    | (intro b; refine (fun (_ : OnlyChanges F z b) => ?_) ?_; clear_value b; swap; dsimp only [b]; swap)
    | (with_reducible apply hfn)
    | (intro b; refine (fun (hfn : ∀ x, OnlyChanges F z x → OnlyChanges F z (b x)) => ?_) ?_; clear_value b; swap; (intro x hx; dsimp only [b]); swap)
    | (intro b; refine (fun (hfn : ∀ x y, OnlyChanges F z x → OnlyChanges F z (b x y)) => ?_) ?_; clear_value b; swap; (intro x y hx; dsimp only [b]); swap)
    | (with_reducible apply hfc)
    | (with_reducible apply hfd)
    | (intro b; refine (fun (hfc : ∀ x, OnlyChanges F z (b x)) => ?_) ?_; clear_value b; swap; (intro x; dsimp only [b]); swap)
    | (intro b; refine (fun (hfd : ∀ x y, OnlyChanges F z (b x y)) => ?_) ?_; clear_value b; swap; (intro x y; dsimp only [b]); swap)
    | (intro b; clear_value b)
    | intro b
    | lift_lets
    | split

theorem anaAfter_frame {old : List Nat} (hz : OnlyChanges F z s) (m1 : Part.out ∈ F) (m3 : Part.regs ∈ F) (m4 : Part.portA ∈ F) (m5 : Part.portB ∈ F) (m6 : Part.evr ∈ F) (m16 : Part.map ∈ F) : OnlyChanges F z (anaAfter old s) := by
  unfold anaAfter
  repeat' first
    | with_reducible assumption
    | (with_reducible apply anaNotice_frame)
    | (with_reducible apply frame_ite)
    | split

theorem setChip_frame {n : Nat} (hz : OnlyChanges F z s) (m1 : Part.out ∈ F) (m3 : Part.regs ∈ F) (m4 : Part.portA ∈ F) (m5 : Part.portB ∈ F) (m6 : Part.evr ∈ F) (m16 : Part.map ∈ F) : OnlyChanges F z (setChip s n) := by
  unfold setChip
  repeat' first
    | with_reducible assumption
    | (with_reducible apply updMap_frame)
    | (with_reducible apply raise_frame)
    | (with_reducible apply asyncEvent_frame)
    | (with_reducible apply anaNotice_frame)
    | (with_reducible apply frame_ite)
    | (intro b; refine (fun (_ : OnlyChanges F z b) => ?_) ?_; clear_value b; swap; dsimp only [b]; swap)
    | (with_reducible apply hfn)
    | (intro b; refine (fun (hfn : ∀ x, OnlyChanges F z x → OnlyChanges F z (b x)) => ?_) ?_; clear_value b; swap; (intro x hx; dsimp only [b]); swap)
    | (intro b; refine (fun (hfn : ∀ x y, OnlyChanges F z x → OnlyChanges F z (b x y)) => ?_) ?_; clear_value b; swap; (intro x y hx; dsimp only [b]); swap)
    | (with_reducible apply hfc)
    | (with_reducible apply hfd)
    | (intro b; refine (fun (hfc : ∀ x, OnlyChanges F z (b x)) => ?_) ?_; clear_value b; swap; (intro x; dsimp only [b]); swap)
    | (intro b; refine (fun (hfd : ∀ x y, OnlyChanges F z (b x y)) => ?_) ?_; clear_value b; swap; (intro x y; dsimp only [b]); swap)
    | (intro b; clear_value b)
    | intro b
    | lift_lets
    | split

theorem spaceUpdate_frame (hz : OnlyChanges F z s) (m1 : Part.out ∈ F) (m3 : Part.regs ∈ F) (m4 : Part.portA ∈ F) (m5 : Part.portB ∈ F) (m6 : Part.evr ∈ F) (m16 : Part.map ∈ F) : OnlyChanges F z (spaceUpdate s) := by
  unfold spaceUpdate
  repeat' first
    | with_reducible assumption
    | (with_reducible apply setChip_frame)
    | (with_reducible apply updMap_frame)
    | (with_reducible apply raise_frame)
    | (with_reducible apply asyncBoth_frame)
    | (with_reducible apply frame_ite)
    | (intro b; refine (fun (_ : OnlyChanges F z b) => ?_) ?_; clear_value b; swap; dsimp only [b]; swap)
    | (intro b; clear_value b)
    | intro b
    | lift_lets
    | split

theorem hostTemps_frame {p : Port} {k : ℤ} (hz : OnlyChanges F z s) (m1 : Part.out ∈ F) (m3 : Part.regs ∈ F) (m4 : Part.portA ∈ F) (m5 : Part.portB ∈ F) (m6 : Part.evr ∈ F) : OnlyChanges F z (hostTemps s p k) := by
  unfold hostTemps
  repeat' first
    | with_reducible assumption
    | (with_reducible apply setPort_frame)
    | (with_reducible apply asyncEvent_frame)
    | (with_reducible apply frame_ite)
    | (with_reducible apply frame_ite_fst)
    | (intro b; refine (fun (_ : OnlyChanges F z b) => ?_) ?_; clear_value b; swap; dsimp only [b]; swap)
    | (intro b; refine (fun (_ : OnlyChanges F z b.1) => ?_) ?_; clear_value b; swap; dsimp only [b]; swap)
    | (intro b; clear_value b)
    | intro b
    | lift_lets
    | split
    | (fail_if_no_progress with_reducible refine frame_upd ?_)

theorem extBroken_frame {ext : List Reading} {i : Nat} (hz : OnlyChanges F z s) (m1 : Part.out ∈ F) (m3 : Part.regs ∈ F) (m4 : Part.portA ∈ F) (m5 : Part.portB ∈ F) (m6 : Part.evr ∈ F) : OnlyChanges F z (extBroken s ext i) := by
  unfold extBroken
  repeat' first
    | with_reducible assumption
    | (with_reducible apply raise_frame)
    | (with_reducible apply orReg_frame)
    | (with_reducible apply frame_ite)
    | (intro b; refine (fun (_ : OnlyChanges F z b) => ?_) ?_; clear_value b; swap; dsimp only [b]; swap)
    | (intro b; clear_value b)
    | intro b
    | lift_lets
    | split

theorem thermalRound_frame {die : List Reading} {ext : List Reading} {rails : List (Option Nat)} (hz : OnlyChanges F z s) (m1 : Part.out ∈ F) (m3 : Part.regs ∈ F) (m4 : Part.portA ∈ F) (m5 : Part.portB ∈ F) (m6 : Part.evr ∈ F) (m7 : Part.thm ∈ F) : OnlyChanges F z (thermalRound s die ext rails) := by
  unfold thermalRound
  repeat' first
    | with_reducible assumption
    | (with_reducible apply extBroken_frame)
    | (with_reducible apply updThm_frame)
    | (with_reducible apply raise_frame)
    | (with_reducible apply orReg_frame)
    | (with_reducible apply hostTemps_frame)
    | (with_reducible apply frame_ite)
    | (with_reducible refine frame_foldl (fun x b hx => ?_) ?_)
    | (intro b; refine (fun (_ : OnlyChanges F z b) => ?_) ?_; clear_value b; swap; dsimp only [b]; swap)
    | (intro b; clear_value b)
    | intro b
    | lift_lets
    | split
    | (fail_if_no_progress with_reducible refine frame_upd ?_)
    | dsimp only

theorem sensorBroken_frame {i : Nat} (hz : OnlyChanges F z s) (m1 : Part.out ∈ F) (m3 : Part.regs ∈ F) (m4 : Part.portA ∈ F) (m5 : Part.portB ∈ F) (m6 : Part.evr ∈ F) : OnlyChanges F z (sensorBroken s i) := by
  unfold sensorBroken
  repeat' first
    | with_reducible assumption
    | (with_reducible apply raise_frame)
    | (with_reducible apply orReg_frame)
    | (with_reducible apply frame_ite)
    | split

theorem throttleEdge_frame {before : Bool} (hz : OnlyChanges F z s) (m1 : Part.out ∈ F) (m3 : Part.regs ∈ F) (m4 : Part.portA ∈ F) (m5 : Part.portB ∈ F) (m6 : Part.evr ∈ F) : OnlyChanges F z (throttleEdge before s) := by
  unfold throttleEdge
  repeat' first
    | with_reducible assumption
    | (with_reducible apply raise_frame)
    | (with_reducible apply orReg_frame)
    | (with_reducible apply frame_ite)
    | split

theorem extLimit_frame {i : Nat} (hz : OnlyChanges F z s) (m1 : Part.out ∈ F) (m3 : Part.regs ∈ F) (m4 : Part.portA ∈ F) (m5 : Part.portB ∈ F) (m6 : Part.evr ∈ F) (m7 : Part.thm ∈ F) : OnlyChanges F z (extLimit s i) := by
  unfold extLimit
  repeat' first
    | with_reducible assumption
    | (with_reducible apply throttleEdge_frame)
    | (with_reducible apply raise_frame)
    | (with_reducible apply orReg_frame)
    | (with_reducible apply updThm_frame)
    | (with_reducible apply frame_ite)
    | (intro b; refine (fun (_ : OnlyChanges F z b) => ?_) ?_; clear_value b; swap; dsimp only [b]; swap)
    | (intro b; clear_value b)
    | intro b
    | lift_lets
    | split

theorem warningChange_frame (hz : OnlyChanges F z s) (m1 : Part.out ∈ F) (m3 : Part.regs ∈ F) (m4 : Part.portA ∈ F) (m5 : Part.portB ∈ F) (m6 : Part.evr ∈ F) (m7 : Part.thm ∈ F) : OnlyChanges F z (warningChange s) := by
  unfold warningChange
  repeat' first
    | with_reducible assumption
    | (with_reducible apply raise_frame)
    | (with_reducible apply orReg_frame)
    | (with_reducible apply updThm_frame)
    | (with_reducible apply frame_ite)
    | split
    | (fail_if_no_progress with_reducible refine frame_upd ?_)

theorem throttleChange_frame (hz : OnlyChanges F z s) (m1 : Part.out ∈ F) (m3 : Part.regs ∈ F) (m4 : Part.portA ∈ F) (m5 : Part.portB ∈ F) (m6 : Part.evr ∈ F) (m7 : Part.thm ∈ F) : OnlyChanges F z (throttleChange s) := by
  unfold throttleChange
  repeat' first
    | with_reducible assumption
    | (with_reducible apply throttleEdge_frame)
    | (with_reducible apply raise_frame)
    | (with_reducible apply orReg_frame)
    | (with_reducible apply updThm_frame)
    | (with_reducible apply frame_ite)
    | split
    | (fail_if_no_progress with_reducible refine frame_upd ?_)

theorem bandChange_frame (hz : OnlyChanges F z s) (m1 : Part.out ∈ F) (m3 : Part.regs ∈ F) (m4 : Part.portA ∈ F) (m5 : Part.portB ∈ F) (m6 : Part.evr ∈ F) (m7 : Part.thm ∈ F) : OnlyChanges F z (bandChange s) := by
  unfold bandChange
  repeat' first
    | with_reducible assumption
    | (with_reducible apply raise_frame)
    | (with_reducible apply orReg_frame)
    | (with_reducible apply updThm_frame)
    | (with_reducible apply frame_ite)
    | (intro b; refine (fun (_ : OnlyChanges F z b) => ?_) ?_; clear_value b; swap; dsimp only [b]; swap)
    | (intro b; clear_value b)
    | intro b
    | lift_lets
    | split

theorem supplyOut_frame {v : Nat} (hz : OnlyChanges F z s) (m1 : Part.out ∈ F) (m3 : Part.regs ∈ F) (m4 : Part.portA ∈ F) (m5 : Part.portB ∈ F) (m6 : Part.evr ∈ F) (m7 : Part.thm ∈ F) : OnlyChanges F z (supplyOut s v) := by
  unfold supplyOut
  repeat' first
    | with_reducible assumption
    | (with_reducible apply raise_frame)
    | (with_reducible apply orReg_frame)
    | (with_reducible apply updThm_frame)
    | (with_reducible apply frame_ite)
    | (intro b; refine (fun (_ : OnlyChanges F z b) => ?_) ?_; clear_value b; swap; dsimp only [b]; swap)
    | (intro b; clear_value b)
    | intro b
    | lift_lets
    | split

theorem avfsEval_frame {isl : Nat} {slack : List ℤ} (hz : OnlyChanges F z s) (m1 : Part.out ∈ F) (m3 : Part.regs ∈ F) (m4 : Part.portA ∈ F) (m5 : Part.portB ∈ F) (m6 : Part.evr ∈ F) (m8 : Part.pwr ∈ F) : OnlyChanges F z (avfsEval s isl slack) := by
  unfold avfsEval
  repeat' first
    | with_reducible assumption
    | (with_reducible apply updPwr_frame)
    | (with_reducible apply raise_frame)
    | (with_reducible apply orReg_frame)
    | (with_reducible apply frame_ite)
    | (with_reducible refine frame_foldl (fun x b hx => ?_) ?_)
    | (intro b; refine (fun (_ : OnlyChanges F z b) => ?_) ?_; clear_value b; swap; dsimp only [b]; swap)
    | (intro b; clear_value b)
    | intro b
    | lift_lets
    | split
    | dsimp only

theorem phcTo_frame {st : Nat} (hz : OnlyChanges F z s) (m3 : Part.regs ∈ F) (m15 : Part.phc ∈ F) : OnlyChanges F z (phcTo s st) := by
  unfold phcTo
  repeat' first
    | with_reducible assumption
    | (with_reducible apply updPhc_frame)
    | (with_reducible apply setActive_frame)
    | (with_reducible apply wrField_frame)
    | (intro b; refine (fun (_ : OnlyChanges F z b) => ?_) ?_; clear_value b; swap; dsimp only [b]; swap)
    | (intro b; clear_value b)
    | intro b
    | lift_lets

theorem useWay_frame {set : Nat} {way : Nat} (hz : OnlyChanges F z s) (m15 : Part.phc ∈ F) : OnlyChanges F z (useWay s set way) := by
  unfold useWay
  repeat' first
    | with_reducible assumption
    | (with_reducible apply updPhc_frame)

theorem putDramLine_frame {line : Nat} {d : BitVec 512} (hz : OnlyChanges F z s) (m14 : Part.dram ∈ F) (m22 : Part.mem ∈ F) : OnlyChanges F z (putDramLine s line d) := by
  unfold putDramLine
  repeat' first
    | with_reducible assumption
    | (with_reducible apply updMem_frame)
    | (with_reducible apply frame_ite)
    | split
    | (fail_if_no_progress with_reducible refine frame_upd ?_)

theorem phcDrop_frame {k : Nat} (hz : OnlyChanges F z s) (m15 : Part.phc ∈ F) : OnlyChanges F z (phcDrop s k) := by
  unfold phcDrop
  repeat' first
    | with_reducible assumption
    | (with_reducible apply updPhc_frame)

theorem lineOp_frame {op : Nat} {k : Nat} {x : PhcLine} (hz : OnlyChanges F z s) (m14 : Part.dram ∈ F) (m15 : Part.phc ∈ F) (m22 : Part.mem ∈ F) : OnlyChanges F z (lineOp s op k x) := by
  unfold lineOp
  repeat' first
    | with_reducible assumption
    | (with_reducible apply putDramLine_frame)
    | (with_reducible apply phcDrop_frame)
    | (with_reducible apply updPhc_frame)
    | (with_reducible apply frame_ite)
    | (intro b; refine (fun (_ : OnlyChanges F z b) => ?_) ?_; clear_value b; swap; dsimp only [b]; swap)
    | (intro b; clear_value b)
    | intro b
    | lift_lets
    | split
    | (fail_if_no_progress with_reducible refine frame_upd ?_)

theorem evictOp_frame {op : Nat} {e : PhcEvict} (hz : OnlyChanges F z s) (m14 : Part.dram ∈ F) (m15 : Part.phc ∈ F) (m22 : Part.mem ∈ F) : OnlyChanges F z (evictOp s op e) := by
  unfold evictOp
  repeat' first
    | with_reducible assumption
    | (with_reducible apply putDramLine_frame)
    | (with_reducible apply updPhc_frame)
    | (with_reducible apply frame_ite)
    | (intro b; refine (fun (_ : OnlyChanges F z b) => ?_) ?_; clear_value b; swap; dsimp only [b]; swap)
    | (intro b; clear_value b)
    | intro b
    | lift_lets
    | split
    | (fail_if_no_progress with_reducible refine frame_upd ?_)

theorem visitLine_frame {line : Nat} (hz : OnlyChanges F z s) (m14 : Part.dram ∈ F) (m15 : Part.phc ∈ F) (m22 : Part.mem ∈ F) : OnlyChanges F z (visitLine s line) := by
  unfold visitLine
  repeat' first
    | with_reducible assumption
    | (with_reducible apply updPhc_frame)
    | (with_reducible apply lineOp_frame)
    | (with_reducible apply evictOp_frame)
    | (with_reducible apply frame_ite)
    | (intro b; refine (fun (_ : OnlyChanges F z b) => ?_) ?_; clear_value b; swap; dsimp only [b]; swap)
    | (with_reducible apply hfn)
    | (intro b; refine (fun (hfn : ∀ x, OnlyChanges F z x → OnlyChanges F z (b x)) => ?_) ?_; clear_value b; swap; (intro x hx; dsimp only [b]); swap)
    | (intro b; refine (fun (hfn : ∀ x y, OnlyChanges F z x → OnlyChanges F z (b x y)) => ?_) ?_; clear_value b; swap; (intro x y hx; dsimp only [b]); swap)
    | (with_reducible apply hfc)
    | (with_reducible apply hfd)
    | (intro b; refine (fun (hfc : ∀ x, OnlyChanges F z (b x)) => ?_) ?_; clear_value b; swap; (intro x; dsimp only [b]); swap)
    | (intro b; refine (fun (hfd : ∀ x y, OnlyChanges F z (b x y)) => ?_) ?_; clear_value b; swap; (intro x y; dsimp only [b]); swap)
    | (intro b; clear_value b)
    | intro b
    | lift_lets
    | split
    | dsimp only

theorem rangePass_frame {line : Nat} (hz : OnlyChanges F z s) (m2 : Part.clk ∈ F) (m14 : Part.dram ∈ F) (m15 : Part.phc ∈ F) (m22 : Part.mem ∈ F) : OnlyChanges F z (rangePass s line) := by
  unfold rangePass
  repeat' first
    | with_reducible assumption
    | (with_reducible apply freshBelow_frame)
    | (with_reducible apply visitLine_frame)
    | (with_reducible apply frame_ite)
    | (with_reducible apply frame_ite_fst)
    | (intro b; refine (fun (_ : OnlyChanges F z b) => ?_) ?_; clear_value b; swap; dsimp only [b]; swap)
    | (intro b; refine (fun (_ : OnlyChanges F z b.1) => ?_) ?_; clear_value b; swap; dsimp only [b]; swap)
    | (intro b; clear_value b)
    | intro b
    | lift_lets
    | split
    | (refine frame_of_eq (by assumption) ?_)
    | dsimp only

theorem phcInsert_frame {line : Nat} {dirty : Bool} {data : BitVec 512} (hz : OnlyChanges F z s) (m15 : Part.phc ∈ F) : OnlyChanges F z (phcInsert s line dirty data) := by
  unfold phcInsert
  repeat' first
    | with_reducible assumption
    | (with_reducible apply updPhc_frame)
    | (with_reducible apply useWay_frame)
    | (with_reducible apply frame_ite)
    | (intro b; refine (fun (_ : OnlyChanges F z b) => ?_) ?_; clear_value b; swap; dsimp only [b]; swap)
    | (intro b; clear_value b)
    | intro b
    | lift_lets
    | split
    | dsimp only

theorem writeThrough_frame {r : LineReq} {k : Nat} {x : PhcLine} (hz : OnlyChanges F z s) (m14 : Part.dram ∈ F) (m15 : Part.phc ∈ F) (m22 : Part.mem ∈ F) : OnlyChanges F z (writeThrough s r k x) := by
  unfold writeThrough
  repeat' first
    | with_reducible assumption
    | (with_reducible apply putDramLine_frame)
    | (with_reducible apply updPhc_frame)
    | (intro b; refine (fun (_ : OnlyChanges F z b) => ?_) ?_; clear_value b; swap; dsimp only [b]; swap)
    | (intro b; clear_value b)
    | intro b
    | lift_lets

theorem phcServe_frame {r : LineReq} {w : Nat} (hz : OnlyChanges F z s) (m14 : Part.dram ∈ F) (m15 : Part.phc ∈ F) (m22 : Part.mem ∈ F) : OnlyChanges F z (phcServe s r w) := by
  unfold phcServe
  repeat' first
    | with_reducible assumption
    | (with_reducible apply useWay_frame)
    | (with_reducible apply writeThrough_frame)
    | (with_reducible apply updPhc_frame)
    | (with_reducible apply frame_ite)
    | (with_reducible apply frame_ite_fst)
    | (intro b; refine (fun (_ : OnlyChanges F z b) => ?_) ?_; clear_value b; swap; dsimp only [b]; swap)
    | (intro b; refine (fun (_ : OnlyChanges F z b.1) => ?_) ?_; clear_value b; swap; dsimp only [b]; swap)
    | (intro b; clear_value b)
    | intro b
    | lift_lets
    | split
    | (fail_if_no_progress with_reducible refine frame_upd ?_)
    | dsimp only

theorem phcHit_frame {r : LineReq} {w : Nat} (hz : OnlyChanges F z s) (m3 : Part.regs ∈ F) (m14 : Part.dram ∈ F) (m15 : Part.phc ∈ F) (m22 : Part.mem ∈ F) : OnlyChanges F z (phcHit s r w) := by
  unfold phcHit
  repeat' first
    | with_reducible assumption
    | (with_reducible apply phcServe_frame)
    | (with_reducible apply satAdd_frame)

theorem phcPass_frame {r : LineReq} (hz : OnlyChanges F z s) (m14 : Part.dram ∈ F) (m22 : Part.mem ∈ F) : OnlyChanges F z (phcPass s r) := by
  unfold phcPass
  repeat' first
    | with_reducible assumption
    | (with_reducible apply putDramLine_frame)
    | (with_reducible apply updMem_frame)
    | (with_reducible apply frame_ite)
    | (intro b; refine (fun (_ : OnlyChanges F z b) => ?_) ?_; clear_value b; swap; dsimp only [b]; swap)
    | (intro b; clear_value b)
    | intro b
    | lift_lets
    | split

theorem phcLookup_frame {r : LineReq} (hz : OnlyChanges F z s) (m2 : Part.clk ∈ F) (m3 : Part.regs ∈ F) (m14 : Part.dram ∈ F) (m15 : Part.phc ∈ F) (m22 : Part.mem ∈ F) : OnlyChanges F z (phcLookup s r) := by
  unfold phcLookup
  repeat' first
    | with_reducible assumption
    | (with_reducible apply phcPass_frame)
    | (with_reducible apply updPhc_frame)
    | (with_reducible apply rangePass_frame)
    | (with_reducible apply phcHit_frame)
    | (with_reducible apply satAdd_frame)
    | (with_reducible apply useWay_frame)
    | (with_reducible apply writeThrough_frame)
    | (with_reducible apply frame_ite)
    | (intro b; refine (fun (_ : OnlyChanges F z b) => ?_) ?_; clear_value b; swap; dsimp only [b]; swap)
    | (intro b; clear_value b)
    | intro b
    | lift_lets
    | split
    | dsimp only

theorem phcRequest_frame {r : LineReq} (hz : OnlyChanges F z s) (m2 : Part.clk ∈ F) (m3 : Part.regs ∈ F) (m14 : Part.dram ∈ F) (m15 : Part.phc ∈ F) (m22 : Part.mem ∈ F) : OnlyChanges F z (phcRequest s r) := by
  unfold phcRequest
  repeat' first
    | with_reducible assumption
    | (with_reducible apply phcLookup_frame)
    | (with_reducible apply updPhc_frame)

theorem writeBack_frame {l : List (Nat × PhcLine)} (hz : OnlyChanges F z s) (m14 : Part.dram ∈ F) (m22 : Part.mem ∈ F) : OnlyChanges F z (writeBack s l) := by
  unfold writeBack
  repeat' first
    | with_reducible assumption
    | (with_reducible apply putDramLine_frame)
    | (with_reducible apply frame_ite)
    | (with_reducible apply frame_ite_fst)
    | (with_reducible refine frame_foldl (fun x b hx => ?_) ?_)
    | (with_reducible refine frame_foldl_fst (fun x b hx => ?_) ?_)
    | split

theorem wayDisable_frame {way : Nat} {set : Nat} (hz : OnlyChanges F z s) (m1 : Part.out ∈ F) (m3 : Part.regs ∈ F) (m4 : Part.portA ∈ F) (m5 : Part.portB ∈ F) (m6 : Part.evr ∈ F) (m14 : Part.dram ∈ F) (m15 : Part.phc ∈ F) (m22 : Part.mem ∈ F) : OnlyChanges F z (wayDisable s way set) := by
  unfold wayDisable
  repeat' first
    | with_reducible assumption
    | (with_reducible apply raise_frame)
    | (with_reducible apply wr_frame)
    | (with_reducible apply wrField_frame)
    | (with_reducible apply writeBack_frame)
    | (with_reducible apply updPhc_frame)
    | (with_reducible apply frame_ite)
    | (with_reducible apply frame_ite_fst)
    | (intro b; refine (fun (_ : OnlyChanges F z b) => ?_) ?_; clear_value b; swap; dsimp only [b]; swap)
    | (intro b; refine (fun (_ : OnlyChanges F z b.1) => ?_) ?_; clear_value b; swap; dsimp only [b]; swap)
    | (intro b; clear_value b)
    | intro b
    | lift_lets
    | split

theorem wayError_frame {way : Nat} {set : Nat} (hz : OnlyChanges F z s) (m1 : Part.out ∈ F) (m3 : Part.regs ∈ F) (m4 : Part.portA ∈ F) (m5 : Part.portB ∈ F) (m6 : Part.evr ∈ F) (m14 : Part.dram ∈ F) (m15 : Part.phc ∈ F) (m22 : Part.mem ∈ F) : OnlyChanges F z (wayError s way set) := by
  unfold wayError
  repeat' first
    | with_reducible assumption
    | (with_reducible apply satAdd_frame)
    | (with_reducible apply wayDisable_frame)
    | (with_reducible apply frame_ite)
    | (intro b; refine (fun (_ : OnlyChanges F z b) => ?_) ?_; clear_value b; swap; dsimp only [b]; swap)
    | (intro b; clear_value b)
    | intro b
    | lift_lets
    | split

theorem needRebuild_frame {seg : Nat} (hz : OnlyChanges F z s) (m15 : Part.phc ∈ F) : OnlyChanges F z (needRebuild s seg) := by
  unfold needRebuild
  repeat' first
    | with_reducible assumption
    | (with_reducible apply updPhc_frame)
    | (with_reducible apply frame_ite)
    | split

theorem lostLine_frame {seg : Option Nat} (hz : OnlyChanges F z s) (m15 : Part.phc ∈ F) : OnlyChanges F z (lostLine s seg) := by
  unfold lostLine
  repeat' first
    | with_reducible assumption
    | (with_reducible apply needRebuild_frame)
    | split
    | dsimp only

theorem drcReport_frame {cls : Nat} {unit : Nat} (hz : OnlyChanges F z s) (m1 : Part.out ∈ F) (m3 : Part.regs ∈ F) (m4 : Part.portA ∈ F) (m5 : Part.portB ∈ F) (m6 : Part.evr ∈ F) : OnlyChanges F z (drcReport s cls unit) := by
  unfold drcReport
  repeat' first
    | with_reducible assumption
    | (with_reducible apply wr_frame)
    | (with_reducible apply satAdd_frame)
    | (with_reducible apply raise_frame)
    | (with_reducible apply orReg_frame)
    | (with_reducible apply frame_ite)
    | (intro b; refine (fun (_ : OnlyChanges F z b) => ?_) ?_; clear_value b; swap; dsimp only [b]; swap)
    | (intro b; clear_value b)
    | intro b
    | lift_lets
    | split

theorem phcError_frame {set : Nat} {way : Nat} {seg : Option Nat} {e : LineError} (hz : OnlyChanges F z s) (m1 : Part.out ∈ F) (m3 : Part.regs ∈ F) (m4 : Part.portA ∈ F) (m5 : Part.portB ∈ F) (m6 : Part.evr ∈ F) (m14 : Part.dram ∈ F) (m15 : Part.phc ∈ F) (m22 : Part.mem ∈ F) : OnlyChanges F z (phcError s set way seg e) := by
  unfold phcError
  repeat' first
    | with_reducible assumption
    | (with_reducible apply wayError_frame)
    | (with_reducible apply lostLine_frame)
    | (with_reducible apply drcReport_frame)
    | (with_reducible apply raise_frame)
    | (with_reducible apply phcDrop_frame)
    | (with_reducible apply frame_ite)
    | (intro b; refine (fun (_ : OnlyChanges F z b) => ?_) ?_; clear_value b; swap; dsimp only [b]; swap)
    | (intro b; clear_value b)
    | intro b
    | lift_lets
    | split
    | dsimp only

theorem serveHeld_frame (hz : OnlyChanges F z s) (m2 : Part.clk ∈ F) (m3 : Part.regs ∈ F) (m14 : Part.dram ∈ F) (m15 : Part.phc ∈ F) (m22 : Part.mem ∈ F) : OnlyChanges F z (serveHeld s) := by
  unfold serveHeld
  repeat' first
    | with_reducible assumption
    | (with_reducible apply phcLookup_frame)
    | (with_reducible apply updPhc_frame)
    | (with_reducible apply frame_ite)
    | (with_reducible refine frame_foldl (fun x b hx => ?_) ?_)
    | split

theorem fillFailed_frame {f : PhcFill} {rep : UnitReport} (hz : OnlyChanges F z s) (m15 : Part.phc ∈ F) : OnlyChanges F z (fillFailed s f rep) := by
  unfold fillFailed
  repeat' first
    | with_reducible assumption
    | (with_reducible apply updPhc_frame)

theorem fillMiss_frame {r : LineReq} (hz : OnlyChanges F z s) (m2 : Part.clk ∈ F) (m3 : Part.regs ∈ F) (m14 : Part.dram ∈ F) (m15 : Part.phc ∈ F) (m22 : Part.mem ∈ F) : OnlyChanges F z (fillMiss s r) := by
  unfold fillMiss
  repeat' first
    | with_reducible assumption
    | (with_reducible apply phcServe_frame)
    | (with_reducible apply phcLookup_frame)
    | split
    | dsimp only

theorem fillJoined_frame {r : LineReq} (hz : OnlyChanges F z s) (m2 : Part.clk ∈ F) (m3 : Part.regs ∈ F) (m14 : Part.dram ∈ F) (m15 : Part.phc ∈ F) (m22 : Part.mem ∈ F) : OnlyChanges F z (fillJoined s r) := by
  unfold fillJoined
  repeat' first
    | with_reducible assumption
    | (with_reducible apply phcHit_frame)
    | (with_reducible apply phcLookup_frame)
    | split
    | dsimp only

theorem fillServe_frame {l : List LineReq} (hz : OnlyChanges F z s) (m2 : Part.clk ∈ F) (m3 : Part.regs ∈ F) (m14 : Part.dram ∈ F) (m15 : Part.phc ∈ F) (m22 : Part.mem ∈ F) : OnlyChanges F z (fillServe s l) := by
  unfold fillServe
  repeat' first
    | with_reducible assumption
    | (with_reducible apply fillJoined_frame)
    | (with_reducible apply fillMiss_frame)
    | (with_reducible refine frame_foldl (fun x b hx => ?_) ?_)
    | split
    | dsimp only

theorem fillDone_allocated_frame {line : Nat} {f : PhcFill} (hz : OnlyChanges F z s) (m2 : Part.clk ∈ F) (m3 : Part.regs ∈ F) (m14 : Part.dram ∈ F) (m15 : Part.phc ∈ F) (m22 : Part.mem ∈ F) : OnlyChanges F z (fillDone.allocated line s f) := by
  unfold fillDone.allocated
  repeat' first
    | with_reducible assumption
    | (with_reducible apply serveHeld_frame)
    | (with_reducible apply phcPass_frame)
    | (with_reducible apply fillServe_frame)
    | (with_reducible apply phcInsert_frame)
    | (with_reducible apply frame_ite)
    | (with_reducible apply frame_ite_fst)
    | (with_reducible refine frame_foldl (fun x b hx => ?_) ?_)
    | (with_reducible refine frame_foldl_fst (fun x b hx => ?_) ?_)
    | (intro b; refine (fun (_ : OnlyChanges F z b) => ?_) ?_; clear_value b; swap; dsimp only [b]; swap)
    | (intro b; refine (fun (_ : OnlyChanges F z b.1) => ?_) ?_; clear_value b; swap; dsimp only [b]; swap)
    | (with_reducible apply hfn)
    | (with_reducible apply hf)
    | (intro b; refine (fun (hfn : ∀ x, OnlyChanges F z x → OnlyChanges F z (b x)) => ?_) ?_; clear_value b; swap; (intro x hx; dsimp only [b]); swap)
    | (intro b; refine (fun (hfn : ∀ x y, OnlyChanges F z x → OnlyChanges F z (b x y)) => ?_) ?_; clear_value b; swap; (intro x y hx; dsimp only [b]); swap)
    | (with_reducible apply hfc)
    | (with_reducible apply hfd)
    | (intro b; refine (fun (hfc : ∀ x, OnlyChanges F z (b x)) => ?_) ?_; clear_value b; swap; (intro x; dsimp only [b]); swap)
    | (intro b; refine (fun (hfd : ∀ x y, OnlyChanges F z (b x y)) => ?_) ?_; clear_value b; swap; (intro x y; dsimp only [b]); swap)
    | (intro b; clear_value b)
    | intro b
    | lift_lets
    | split
    | (refine frame_of_eq (by assumption) ?_)
    | (fail_if_no_progress with_reducible refine frame_upd ?_)
    | dsimp only

theorem fillDone_frame {line : Nat} {rep : UnitReport} {seg : Option Nat} (hz : OnlyChanges F z s) (m1 : Part.out ∈ F) (m2 : Part.clk ∈ F) (m3 : Part.regs ∈ F) (m4 : Part.portA ∈ F) (m5 : Part.portB ∈ F) (m6 : Part.evr ∈ F) (m14 : Part.dram ∈ F) (m15 : Part.phc ∈ F) (m22 : Part.mem ∈ F) : OnlyChanges F z (fillDone s line rep seg) := by
  unfold fillDone
  repeat' first
    | with_reducible assumption
    | (with_reducible apply updPhc_frame)
    | (with_reducible apply serveHeld_frame)
    | (with_reducible apply raise_frame)
    | (with_reducible apply fillFailed_frame)
    | (with_reducible apply lostLine_frame)
    | (with_reducible apply fillDone_allocated_frame)
    | (with_reducible apply frame_ite)
    | (with_reducible refine frame_foldl (fun x b hx => ?_) ?_)
    | (intro b; refine (fun (_ : OnlyChanges F z b) => ?_) ?_; clear_value b; swap; dsimp only [b]; swap)
    | (intro b; clear_value b)
    | intro b
    | lift_lets
    | split
    | dsimp only

theorem writebackAck_frame {line : Nat} (hz : OnlyChanges F z s) (m14 : Part.dram ∈ F) (m15 : Part.phc ∈ F) (m22 : Part.mem ∈ F) : OnlyChanges F z (writebackAck s line) := by
  unfold writebackAck
  repeat' first
    | with_reducible assumption
    | (with_reducible apply putDramLine_frame)
    | (with_reducible apply updPhc_frame)
    | (with_reducible apply phcInsert_frame)
    | (with_reducible apply frame_ite)
    | (intro b; refine (fun (_ : OnlyChanges F z b) => ?_) ?_; clear_value b; swap; dsimp only [b]; swap)
    | (intro b; clear_value b)
    | intro b
    | lift_lets
    | split
    | (fail_if_no_progress with_reducible refine frame_upd ?_)
    | dsimp only

theorem errWindowEnd_frame (hz : OnlyChanges F z s) (m3 : Part.regs ∈ F) (m15 : Part.phc ∈ F) : OnlyChanges F z (errWindowEnd s) := by
  unfold errWindowEnd
  repeat' first
    | with_reducible assumption
    | (with_reducible apply wr_frame)
    | (with_reducible apply updPhc_frame)
    | (with_reducible apply frame_ite)
    | (with_reducible refine frame_foldl (fun x b hx => ?_) ?_)
    | split

theorem wayDisabled_frame {way : Nat} {set : Nat} (hz : OnlyChanges F z s) (m1 : Part.out ∈ F) (m3 : Part.regs ∈ F) (m4 : Part.portA ∈ F) (m5 : Part.portB ∈ F) (m6 : Part.evr ∈ F) (m15 : Part.phc ∈ F) : OnlyChanges F z (wayDisabled s way set) := by
  unfold wayDisabled
  repeat' first
    | with_reducible assumption
    | (with_reducible apply updPhc_frame)
    | (with_reducible apply raise_frame)
    | (with_reducible apply wr_frame)
    | (with_reducible apply orReg_frame)
    | (with_reducible apply frame_ite)
    | (with_reducible apply frame_ite_fst)
    | (intro b; refine (fun (_ : OnlyChanges F z b) => ?_) ?_; clear_value b; swap; dsimp only [b]; swap)
    | (intro b; refine (fun (_ : OnlyChanges F z b.1) => ?_) ?_; clear_value b; swap; dsimp only [b]; swap)
    | (intro b; clear_value b)
    | intro b
    | lift_lets
    | split
    | dsimp only

theorem phcClear_frame (hz : OnlyChanges F z s) (m15 : Part.phc ∈ F) : OnlyChanges F z (phcClear s) := by
  unfold phcClear
  repeat' first
    | with_reducible assumption
    | (with_reducible apply updPhc_frame)

theorem invalidationDone_frame (hz : OnlyChanges F z s) (m2 : Part.clk ∈ F) (m3 : Part.regs ∈ F) (m14 : Part.dram ∈ F) (m15 : Part.phc ∈ F) (m22 : Part.mem ∈ F) : OnlyChanges F z (invalidationDone s) := by
  unfold invalidationDone
  repeat' first
    | with_reducible assumption
    | (with_reducible apply serveHeld_frame)
    | (with_reducible apply phcTo_frame)
    | (with_reducible apply phcClear_frame)
    | (with_reducible apply frame_ite)
    | split

theorem phcWake_frame (hz : OnlyChanges F z s) (m3 : Part.regs ∈ F) (m15 : Part.phc ∈ F) : OnlyChanges F z (phcWake s) := by
  unfold phcWake
  repeat' first
    | with_reducible assumption
    | (with_reducible apply updPhc_frame)
    | (with_reducible apply phcTo_frame)
    | (with_reducible apply frame_ite)
    | (intro b; refine (fun (_ : OnlyChanges F z b) => ?_) ?_; clear_value b; swap; dsimp only [b]; swap)
    | (intro b; clear_value b)
    | intro b
    | lift_lets
    | split

theorem phcDrain_frame {ps4 : Bool} (hz : OnlyChanges F z s) (m3 : Part.regs ∈ F) (m15 : Part.phc ∈ F) : OnlyChanges F z (phcDrain s ps4) := by
  unfold phcDrain
  repeat' first
    | with_reducible assumption
    | (with_reducible apply phcTo_frame)
    | (with_reducible apply updPhc_frame)
    | (with_reducible apply frame_ite)
    | split

theorem drainDone_frame (hz : OnlyChanges F z s) (m1 : Part.out ∈ F) (m3 : Part.regs ∈ F) (m4 : Part.portA ∈ F) (m5 : Part.portB ∈ F) (m6 : Part.evr ∈ F) (m14 : Part.dram ∈ F) (m15 : Part.phc ∈ F) (m22 : Part.mem ∈ F) : OnlyChanges F z (drainDone s) := by
  unfold drainDone
  repeat' first
    | with_reducible assumption
    | (with_reducible apply writeBack_frame)
    | (with_reducible apply putDramLine_frame)
    | (with_reducible apply phcClear_frame)
    | (with_reducible apply updPhc_frame)
    | (with_reducible apply raise_frame)
    | (with_reducible apply phcTo_frame)
    | (with_reducible apply phcWake_frame)
    | (with_reducible apply frame_ite)
    | (with_reducible refine frame_foldl (fun x b hx => ?_) ?_)
    | (intro b; refine (fun (_ : OnlyChanges F z b) => ?_) ?_; clear_value b; swap; dsimp only [b]; swap)
    | (intro b; clear_value b)
    | intro b
    | lift_lets
    | split

theorem phcEnable_frame (hz : OnlyChanges F z s) (m3 : Part.regs ∈ F) (m15 : Part.phc ∈ F) : OnlyChanges F z (phcEnable s) := by
  unfold phcEnable
  repeat' first
    | with_reducible assumption
    | (with_reducible apply phcTo_frame)
    | (with_reducible apply frame_ite)
    | split

theorem rangeStart_frame {op : Nat} (hz : OnlyChanges F z s) (m1 : Part.out ∈ F) (m3 : Part.regs ∈ F) (m4 : Part.portA ∈ F) (m5 : Part.portB ∈ F) (m6 : Part.evr ∈ F) (m15 : Part.phc ∈ F) : OnlyChanges F z (rangeStart s op) := by
  unfold rangeStart
  repeat' first
    | with_reducible assumption
    | (with_reducible apply raise_frame)
    | (with_reducible apply wr_frame)
    | (with_reducible apply wrField_frame)
    | (with_reducible apply updPhc_frame)
    | (with_reducible apply frame_ite)
    | (intro b; refine (fun (_ : OnlyChanges F z b) => ?_) ?_; clear_value b; swap; dsimp only [b]; swap)
    | (intro b; clear_value b)
    | intro b
    | lift_lets
    | split

theorem rangeDone_frame (hz : OnlyChanges F z s) (m1 : Part.out ∈ F) (m3 : Part.regs ∈ F) (m4 : Part.portA ∈ F) (m5 : Part.portB ∈ F) (m6 : Part.evr ∈ F) (m14 : Part.dram ∈ F) (m15 : Part.phc ∈ F) (m22 : Part.mem ∈ F) : OnlyChanges F z (rangeDone s) := by
  unfold rangeDone
  repeat' first
    | with_reducible assumption
    | (with_reducible apply visitLine_frame)
    | (with_reducible apply updPhc_frame)
    | (with_reducible apply wrField_frame)
    | (with_reducible apply raise_frame)
    | (with_reducible apply wr_frame)
    | (with_reducible refine frame_foldl (fun x b hx => ?_) ?_)
    | (intro b; refine (fun (_ : OnlyChanges F z b) => ?_) ?_; clear_value b; swap; dsimp only [b]; swap)
    | (intro b; clear_value b)
    | intro b
    | lift_lets
    | split
    | dsimp only

theorem swop_frame {v : Nat} (hz : OnlyChanges F z s) (m2 : Part.clk ∈ F) (m14 : Part.dram ∈ F) (m15 : Part.phc ∈ F) (m22 : Part.mem ∈ F) : OnlyChanges F z (swop s v) := by
  unfold swop
  repeat' first
    | with_reducible assumption
    | (with_reducible apply rangePass_frame)
    | (with_reducible apply lineOp_frame)
    | (with_reducible apply frame_ite)
    | (intro b; refine (fun (_ : OnlyChanges F z b) => ?_) ?_; clear_value b; swap; dsimp only [b]; swap)
    | (intro b; clear_value b)
    | intro b
    | lift_lets
    | split
    | dsimp only

end Sys2Proof.Machine
end

