-- ==== Sys2Proof/Laws/FrameFlash.lean ====
section
/-! SUPPORT. What the operations leave alone (Laws/Frame.lean): the flash path: operations, checkpoints, the journal, the recorder, the memory, commands, relocations and ladders. One law for each operation. -/

set_option Elab.async false
set_option linter.unusedTactic false
set_option linter.unreachableTactic false

namespace Sys2Proof.Machine

variable {F : List Part} {z s : State}

theorem modCourier_frame {c : Nat} {f : Courier → Courier} (hz : OnlyChanges F z s) (m17 : Part.flash ∈ F) : OnlyChanges F z (modCourier s c f) := by
  unfold modCourier
  repeat' first
    | with_reducible assumption
    | (with_reducible apply updFlash_frame)
    | (with_reducible apply hf)
    | (fail_if_no_progress with_reducible refine frame_upd ?_)

theorem snapCapture_frame {c : Nat} {kinds : Nat} {lun : Option Nat} (hz : OnlyChanges F z s) (m1 : Part.out ∈ F) (m3 : Part.regs ∈ F) (m4 : Part.portA ∈ F) (m5 : Part.portB ∈ F) (m6 : Part.evr ∈ F) (m17 : Part.flash ∈ F) : OnlyChanges F z (snapCapture s c kinds lun) := by
  unfold snapCapture
  repeat' first
    | with_reducible assumption
    | (with_reducible apply satAdd_frame)
    | (with_reducible apply modCourier_frame)
    | (with_reducible apply raiseWith_frame)
    | (with_reducible apply frame_ite)
    | (intro b; refine (fun (_ : OnlyChanges F z b) => ?_) ?_; clear_value b; swap; dsimp only [b]; swap)
    | (with_reducible apply hfn)
    | (intro b; refine (fun (hfn : ∀ x, OnlyChanges F z x → OnlyChanges F z (b x)) => ?_) ?_; clear_value b; swap; (intro x hx; dsimp only [b]); swap)
    | (intro b; refine (fun (hfn : ∀ x y, OnlyChanges F z x → OnlyChanges F z (b x y)) => ?_) ?_; clear_value b; swap; (intro x y hx; dsimp only [b]); swap)
    | (with_reducible apply hfc)
    | (with_reducible apply hfd)
    | (intro b; refine (fun (hfc : ∀ x, OnlyChanges F z (b x)) => ?_) ?_; clear_value b; swap; (intro x; dsimp only [b]); swap)
    | (intro b; refine (fun (hfd : ∀ x y, OnlyChanges F z (b x y)) => ?_) ?_; clear_value b; swap; (intro x y; dsimp only [b]); swap)
    | (intro b; clear_value b)
    | intro b
    | lift_lets
    | split
    | (fail_if_no_progress with_reducible refine frame_upd ?_)
    | dsimp only

theorem snapTrigger_frame {c : Nat} {bit : Nat} {kind : Nat} {lun : Option Nat} (hz : OnlyChanges F z s) (m1 : Part.out ∈ F) (m3 : Part.regs ∈ F) (m4 : Part.portA ∈ F) (m5 : Part.portB ∈ F) (m6 : Part.evr ∈ F) (m17 : Part.flash ∈ F) : OnlyChanges F z (snapTrigger s c bit kind lun) := by
  unfold snapTrigger
  repeat' first
    | with_reducible assumption
    | (with_reducible apply snapCapture_frame)
    | (with_reducible apply frame_ite)
    | split

theorem chnCausesSet_frame {c : Nat} {bits : List (Nat × Option Nat)} (hz : OnlyChanges F z s) (m1 : Part.out ∈ F) (m3 : Part.regs ∈ F) (m4 : Part.portA ∈ F) (m5 : Part.portB ∈ F) (m6 : Part.evr ∈ F) (m17 : Part.flash ∈ F) : OnlyChanges F z (chnCausesSet s c bits) := by
  unfold chnCausesSet
  repeat' first
    | with_reducible assumption
    | (with_reducible apply orReg_frame)
    | (with_reducible apply snapCapture_frame)
    | (with_reducible apply raise_frame)
    | (with_reducible apply frame_ite)
    | (with_reducible apply frame_ite_fst)
    | (with_reducible refine frame_foldl (fun x b hx => ?_) ?_)
    | (with_reducible refine frame_foldl_fst (fun x b hx => ?_) ?_)
    | (intro b; refine (fun (_ : OnlyChanges F z b) => ?_) ?_; clear_value b; swap; dsimp only [b]; swap)
    | (intro b; refine (fun (_ : OnlyChanges F z b.1) => ?_) ?_; clear_value b; swap; dsimp only [b]; swap)
    | (intro b; clear_value b)
    | intro b
    | lift_lets
    | split

theorem chnCauseSet_frame {c : Nat} {bit : Nat} {lun : optParam (Option Nat) none} (hz : OnlyChanges F z s) (m1 : Part.out ∈ F) (m3 : Part.regs ∈ F) (m4 : Part.portA ∈ F) (m5 : Part.portB ∈ F) (m6 : Part.evr ∈ F) (m17 : Part.flash ∈ F) : OnlyChanges F z (chnCauseSet s c bit lun) := by
  unfold chnCauseSet
  repeat' first
    | with_reducible assumption
    | (with_reducible apply orReg_frame)
    | (with_reducible apply snapTrigger_frame)
    | (with_reducible apply raise_frame)
    | (with_reducible apply frame_ite)
    | (intro b; refine (fun (_ : OnlyChanges F z b) => ?_) ?_; clear_value b; swap; dsimp only [b]; swap)
    | (intro b; clear_value b)
    | intro b
    | lift_lets
    | split

theorem dstCauseSet_frame {d : Nat} {bit : Nat} (hz : OnlyChanges F z s) (m1 : Part.out ∈ F) (m3 : Part.regs ∈ F) (m4 : Part.portA ∈ F) (m5 : Part.portB ∈ F) (m6 : Part.evr ∈ F) : OnlyChanges F z (dstCauseSet s d bit) := by
  unfold dstCauseSet
  repeat' first
    | with_reducible assumption
    | (with_reducible apply setCause_frame)

theorem strCauseSet_frame {bit : Nat} (hz : OnlyChanges F z s) (m1 : Part.out ∈ F) (m3 : Part.regs ∈ F) (m4 : Part.portA ∈ F) (m5 : Part.portB ∈ F) (m6 : Part.evr ∈ F) : OnlyChanges F z (strCauseSet s bit) := by
  unfold strCauseSet
  repeat' first
    | with_reducible assumption
    | (with_reducible apply orReg_frame)
    | (with_reducible apply setCause_frame)
    | (with_reducible apply frame_ite)
    | split

theorem askGroup_frame {o : GOwner} {w : List Want} (hz : OnlyChanges F z s) (m18 : Part.jrc ∈ F) : OnlyChanges F z (askGroup s o w) := by
  unfold askGroup
  repeat' first
    | with_reducible assumption
    | (with_reducible apply updJrc_frame)

theorem epochTrig_frame {bit : Nat} (hz : OnlyChanges F z s) (m1 : Part.out ∈ F) (m3 : Part.regs ∈ F) (m4 : Part.portA ∈ F) (m5 : Part.portB ∈ F) (m6 : Part.evr ∈ F) (m18 : Part.jrc ∈ F) : OnlyChanges F z (epochTrig s bit) := by
  unfold epochTrig
  repeat' first
    | with_reducible assumption
    | (with_reducible apply updJrc_frame)
    | (with_reducible apply raise_frame)
    | (with_reducible apply orReg_frame)
    | (with_reducible apply frame_ite)
    | split

theorem growBad_frame {cause : Nat} {lun : Nat} {block : Nat} (hz : OnlyChanges F z s) (m1 : Part.out ∈ F) (m3 : Part.regs ∈ F) (m4 : Part.portA ∈ F) (m5 : Part.portB ∈ F) (m6 : Part.evr ∈ F) (m16 : Part.map ∈ F) (m18 : Part.jrc ∈ F) : OnlyChanges F z (growBad s cause lun block) := by
  unfold growBad
  repeat' first
    | with_reducible assumption
    | (with_reducible apply updTab_frame)
    | (with_reducible apply updMap_frame)
    | (with_reducible apply updJrc_frame)
    | (with_reducible apply spaceUpdate_frame)
    | (with_reducible apply epochTrig_frame)
    | (with_reducible apply frame_ite)
    | (intro b; refine (fun (_ : OnlyChanges F z b) => ?_) ?_; clear_value b; swap; dsimp only [b]; swap)
    | (intro b; clear_value b)
    | intro b
    | lift_lets
    | split

theorem takeCost_frame {d : Nat} (hz : OnlyChanges F z s) (m17 : Part.flash ∈ F) : OnlyChanges F z (takeCost s d) := by
  unfold takeCost
  repeat' first
    | with_reducible assumption
    | (with_reducible apply updFlash_frame)

theorem modOp_frame {id : Nat} {f : FOp → FOp} (hz : OnlyChanges F z s) (m17 : Part.flash ∈ F) : OnlyChanges F z (modOp s id f) := by
  unfold modOp
  repeat' first
    | with_reducible assumption
    | (with_reducible apply updFlash_frame)
    | (with_reducible apply hf)
    | (fail_if_no_progress with_reducible refine frame_upd ?_)

theorem modCourierBus_frame {c : Nat} {id : Option Nat} (hz : OnlyChanges F z s) (m17 : Part.flash ∈ F) : OnlyChanges F z (modCourierBus s c id) := by
  unfold modCourierBus
  repeat' first
    | with_reducible assumption
    | (with_reducible apply modCourier_frame)
    | (fail_if_no_progress with_reducible refine frame_upd ?_)

theorem queueOp_frame {x : Nat × FOp} (hz : OnlyChanges F z s) (m17 : Part.flash ∈ F) : OnlyChanges F z (queueOp s x) := by
  unfold queueOp
  repeat' first
    | with_reducible assumption
    | (with_reducible apply modOp_frame)
    | (with_reducible apply frame_ite)
    | (with_reducible apply frame_ite_fst)
    | (intro b; refine (fun (_ : OnlyChanges F z b) => ?_) ?_; clear_value b; swap; dsimp only [b]; swap)
    | (intro b; refine (fun (_ : OnlyChanges F z b.1) => ?_) ?_; clear_value b; swap; dsimp only [b]; swap)
    | (intro b; clear_value b)
    | intro b
    | lift_lets
    | split

theorem refill_frame (hz : OnlyChanges F z s) (m17 : Part.flash ∈ F) : OnlyChanges F z (refill s) := by
  unfold refill
  repeat' first
    | with_reducible assumption
    | (with_reducible apply queueOp_frame)
    | (with_reducible refine frame_foldl (fun x b hx => ?_) ?_)

theorem busEnd_frame {c : Nat} (hz : OnlyChanges F z s) (m17 : Part.flash ∈ F) : OnlyChanges F z (busEnd s c) := by
  unfold busEnd
  repeat' first
    | with_reducible assumption
    | (with_reducible apply modOp_frame)
    | (with_reducible apply modCourierBus_frame)
    | split
    | dsimp only

theorem busDone_frame {id : Nat} {o : FOp} (hz : OnlyChanges F z s) (m17 : Part.flash ∈ F) : OnlyChanges F z (busDone s id o) := by
  unfold busDone
  repeat' first
    | with_reducible assumption
    | (with_reducible apply modOp_frame)
    | (with_reducible apply busEnd_frame)
    | (fail_if_no_progress with_reducible refine frame_upd ?_)

theorem startOp_frame {id : Nat} {o : FOp} (hz : OnlyChanges F z s) (m1 : Part.out ∈ F) (m3 : Part.regs ∈ F) (m4 : Part.portA ∈ F) (m5 : Part.portB ∈ F) (m6 : Part.evr ∈ F) (m17 : Part.flash ∈ F) : OnlyChanges F z (startOp s id o) := by
  unfold startOp
  repeat' first
    | with_reducible assumption
    | (with_reducible apply modOp_frame)
    | (with_reducible apply chnCauseSet_frame)
    | (with_reducible apply satAdd_frame)
    | (with_reducible apply frame_ite)
    | (intro b; refine (fun (_ : OnlyChanges F z b) => ?_) ?_; clear_value b; swap; dsimp only [b]; swap)
    | (intro b; clear_value b)
    | intro b
    | lift_lets
    | split
    | (fail_if_no_progress with_reducible refine frame_upd ?_)
    | dsimp only

theorem startUnit_frame {id : Nat} {o : FOp} (hz : OnlyChanges F z s) (m17 : Part.flash ∈ F) : OnlyChanges F z (startUnit s id o) := by
  unfold startUnit
  repeat' first
    | with_reducible assumption
    | (with_reducible apply modCourier_frame)
    | (fail_if_no_progress with_reducible refine frame_upd ?_)

theorem granted_frame {a : Ask} {o : FOp} (hz : OnlyChanges F z s) (m1 : Part.out ∈ F) (m3 : Part.regs ∈ F) (m4 : Part.portA ∈ F) (m5 : Part.portB ∈ F) (m6 : Part.evr ∈ F) (m17 : Part.flash ∈ F) : OnlyChanges F z (granted s a o) := by
  unfold granted
  repeat' first
    | with_reducible assumption
    | (with_reducible apply modOp_frame)
    | (with_reducible apply startUnit_frame)
    | (with_reducible apply startOp_frame)
    | (with_reducible apply dstCauseSet_frame)
    | (with_reducible apply satAdd_frame)
    | (with_reducible apply frame_ite)
    | (intro b; refine (fun (_ : OnlyChanges F z b) => ?_) ?_; clear_value b; swap; dsimp only [b]; swap)
    | (intro b; clear_value b)
    | intro b
    | lift_lets
    | split
    | (fail_if_no_progress with_reducible refine frame_upd ?_)
    | dsimp only

theorem grant_frame {d : Nat} {l : List Ask} {n : Nat} (hz : OnlyChanges F z s) (m1 : Part.out ∈ F) (m3 : Part.regs ∈ F) (m4 : Part.portA ∈ F) (m5 : Part.portB ∈ F) (m6 : Part.evr ∈ F) (m17 : Part.flash ∈ F)
    : OnlyChanges F z (grant d l n s) := by
  induction l generalizing n s with
  | nil => exact hz
  | cons a l ih =>
    unfold grant
    repeat' first
      | with_reducible assumption
      | (with_reducible apply ih)
      | (with_reducible apply granted_frame)
      | (with_reducible apply modOp_frame)
      | (with_reducible apply dstCauseSet_frame)
      | (with_reducible apply frame_ite)
      | (with_reducible apply frame_ite_fst)
      | (with_reducible refine frame_foldl (fun x b hx => ?_) ?_)
      | (with_reducible refine frame_foldl_fst (fun x b hx => ?_) ?_)
      | (intro b; refine (fun (_ : OnlyChanges F z b) => ?_) ?_; clear_value b; swap; dsimp only [b]; swap)
      | (intro b; refine (fun (_ : OnlyChanges F z b.1) => ?_) ?_; clear_value b; swap; dsimp only [b]; swap)
      | (with_reducible apply hfn)
      | (with_reducible apply hf)
      | (intro b; refine (fun (hfn : ∀ x, OnlyChanges F z x → OnlyChanges F z (b x)) => ?_) ?_; clear_value b; swap; (intro x hx; dsimp only [b]); swap)
      | (intro b; refine (fun (hfn : ∀ x y, OnlyChanges F z x → OnlyChanges F z (b x y)) => ?_) ?_; clear_value b; swap; (intro x y hx; dsimp only [b]); swap)
      | (with_reducible apply hfc)
      | (with_reducible apply hfd)
      | (intro b; refine (fun (hfc : ∀ x, OnlyChanges F z (b x)) => ?_) ?_; clear_value b; swap; (intro x; dsimp only [b]); swap)
      | (intro b; refine (fun (hfd : ∀ x y, OnlyChanges F z (b x y)) => ?_) ?_; clear_value b; swap; (intro x y; dsimp only [b]); swap)
      | (intro b; clear_value b)
      | intro b
      | lift_lets
      | split
      | (refine frame_of_eq (by assumption) ?_)
      | (fail_if_no_progress with_reducible refine frame_upd ?_)
      | dsimp only

theorem grants_frame {d : Nat} (hz : OnlyChanges F z s) (m1 : Part.out ∈ F) (m3 : Part.regs ∈ F) (m4 : Part.portA ∈ F) (m5 : Part.portB ∈ F) (m6 : Part.evr ∈ F) (m17 : Part.flash ∈ F) : OnlyChanges F z (grants s d) := by
  unfold grants
  repeat' first
    | with_reducible assumption
    | (with_reducible apply grant_frame)
    | (with_reducible apply frame_ite)
    | (intro b; refine (fun (_ : OnlyChanges F z b) => ?_) ?_; clear_value b; swap; dsimp only [b]; swap)
    | (intro b; clear_value b)
    | intro b
    | lift_lets
    | split

theorem pump_frame (hz : OnlyChanges F z s) (m1 : Part.out ∈ F) (m3 : Part.regs ∈ F) (m4 : Part.portA ∈ F) (m5 : Part.portB ∈ F) (m6 : Part.evr ∈ F) (m17 : Part.flash ∈ F) : OnlyChanges F z (pump s) := by
  unfold pump
  repeat' first
    | with_reducible assumption
    | (with_reducible apply grants_frame)
    | (with_reducible apply refill_frame)
    | (with_reducible refine frame_foldl (fun x b hx => ?_) ?_)

theorem addOp_frame {o : FOp} (hz : OnlyChanges F z s) (m17 : Part.flash ∈ F) : OnlyChanges F z (addOp s o) := by
  unfold addOp
  repeat' first
    | with_reducible assumption
    | (with_reducible apply updFlash_frame)
    | (fail_if_no_progress with_reducible refine frame_upd ?_)

theorem dropOp_frame {id : Nat} (hz : OnlyChanges F z s) (m17 : Part.flash ∈ F) : OnlyChanges F z (dropOp s id) := by
  unfold dropOp
  repeat' first
    | with_reducible assumption
    | (with_reducible apply updFlash_frame)
    | (fail_if_no_progress with_reducible refine frame_upd ?_)

theorem askResume_frame {id : Nat} (hz : OnlyChanges F z s) (m17 : Part.flash ∈ F) : OnlyChanges F z (askResume s id) := by
  unfold askResume
  repeat' first
    | with_reducible assumption
    | (with_reducible apply modOp_frame)
    | (with_reducible apply frame_ite)
    | split
    | (fail_if_no_progress with_reducible refine frame_upd ?_)

theorem busTick_frame (hz : OnlyChanges F z s) (m1 : Part.out ∈ F) (m3 : Part.regs ∈ F) (m4 : Part.portA ∈ F) (m5 : Part.portB ∈ F) (m6 : Part.evr ∈ F) (m17 : Part.flash ∈ F) : OnlyChanges F z (busTick s) := by
  unfold busTick
  repeat' first
    | with_reducible assumption
    | (with_reducible apply pump_frame)
    | (with_reducible apply busEnd_frame)
    | (with_reducible apply frame_ite)
    | (with_reducible refine frame_foldl (fun x b hx => ?_) ?_)
    | split

theorem tokenAllocation_frame (hz : OnlyChanges F z s) (m1 : Part.out ∈ F) (m3 : Part.regs ∈ F) (m4 : Part.portA ∈ F) (m5 : Part.portB ∈ F) (m6 : Part.evr ∈ F) (m17 : Part.flash ∈ F) : OnlyChanges F z (tokenAllocation s) := by
  unfold tokenAllocation
  repeat' first
    | with_reducible assumption
    | (with_reducible apply updFlash_frame)
    | (with_reducible apply wrField_frame)
    | (with_reducible apply pump_frame)
    | (with_reducible apply frame_ite)
    | (with_reducible refine frame_foldl (fun x b hx => ?_) ?_)
    | (intro b; refine (fun (_ : OnlyChanges F z b) => ?_) ?_; clear_value b; swap; dsimp only [b]; swap)
    | (with_reducible apply hfn)
    | (intro b; refine (fun (hfn : ∀ x, OnlyChanges F z x → OnlyChanges F z (b x)) => ?_) ?_; clear_value b; swap; (intro x hx; dsimp only [b]); swap)
    | (intro b; refine (fun (hfn : ∀ x y, OnlyChanges F z x → OnlyChanges F z (b x y)) => ?_) ?_; clear_value b; swap; (intro x y hx; dsimp only [b]); swap)
    | (with_reducible apply hfc)
    | (with_reducible apply hfd)
    | (intro b; refine (fun (hfc : ∀ x, OnlyChanges F z (b x)) => ?_) ?_; clear_value b; swap; (intro x; dsimp only [b]); swap)
    | (intro b; refine (fun (hfd : ∀ x y, OnlyChanges F z (b x y)) => ?_) ?_; clear_value b; swap; (intro x y; dsimp only [b]); swap)
    | (intro b; clear_value b)
    | intro b
    | lift_lets
    | split
    | (fail_if_no_progress with_reducible refine frame_upd ?_)

theorem openNow_frame {k : Nat} (hz : OnlyChanges F z s) (m16 : Part.map ∈ F) (m18 : Part.jrc ∈ F) : OnlyChanges F z (openNow s k) := by
  unfold openNow
  repeat' first
    | with_reducible assumption
    | (with_reducible apply updTab_frame)
    | (with_reducible apply updMap_frame)
    | (with_reducible apply askGroup_frame)
    | (with_reducible apply frame_ite)
    | (with_reducible apply frame_ite_fst)
    | (with_reducible refine frame_foldl (fun x b hx => ?_) ?_)
    | (with_reducible refine frame_foldl_fst (fun x b hx => ?_) ?_)
    | (intro b; refine (fun (_ : OnlyChanges F z b) => ?_) ?_; clear_value b; swap; dsimp only [b]; swap)
    | (intro b; refine (fun (_ : OnlyChanges F z b.1) => ?_) ?_; clear_value b; swap; dsimp only [b]; swap)
    | (intro b; clear_value b)
    | intro b
    | lift_lets
    | split

theorem openSb_frame {k : Nat} (hz : OnlyChanges F z s) (m16 : Part.map ∈ F) (m18 : Part.jrc ∈ F) : OnlyChanges F z (openSb s k) := by
  unfold openSb
  repeat' first
    | with_reducible assumption
    | (with_reducible apply openNow_frame)
    | (with_reducible apply frame_ite)
    | split

theorem modPg_frame {id : Nat} {f : Pg → Pg} (hz : OnlyChanges F z s) (m16 : Part.map ∈ F) : OnlyChanges F z (modPg s id f) := by
  unfold modPg
  repeat' first
    | with_reducible assumption
    | (with_reducible apply updMap_frame)
    | (with_reducible apply hf)

theorem modOpen_frame {k : Nat} {f : OpenSb → OpenSb} (hz : OnlyChanges F z s) (m16 : Part.map ∈ F) : OnlyChanges F z (modOpen s k f) := by
  unfold modOpen
  repeat' first
    | with_reducible assumption
    | (with_reducible apply updMap_frame)
    | (with_reducible apply hf)

theorem modSb_frame {x : Nat} {f : Sb → Sb} (hz : OnlyChanges F z s) (m16 : Part.map ∈ F) : OnlyChanges F z (modSb s x f) := by
  unfold modSb
  repeat' first
    | with_reducible assumption
    | (with_reducible apply updTab_frame)
    | (with_reducible apply hf)

theorem placeAll_frame {k : Nat} (hz : OnlyChanges F z s) (m16 : Part.map ∈ F) (m18 : Part.jrc ∈ F) : OnlyChanges F z (placeAll s k) := by
  unfold placeAll
  repeat' first
    | with_reducible assumption
    | (with_reducible apply openSb_frame)
    | (with_reducible apply modPg_frame)
    | (with_reducible apply modOpen_frame)
    | (with_reducible apply frame_ite)
    | (with_reducible apply frame_ite_fst)
    | (with_reducible refine frame_foldl (fun x b hx => ?_) ?_)
    | (with_reducible refine frame_foldl_fst (fun x b hx => ?_) ?_)
    | (intro b; refine (fun (_ : OnlyChanges F z b) => ?_) ?_; clear_value b; swap; dsimp only [b]; swap)
    | (intro b; refine (fun (_ : OnlyChanges F z b.1) => ?_) ?_; clear_value b; swap; dsimp only [b]; swap)
    | (intro b; clear_value b)
    | intro b
    | lift_lets
    | split
    | dsimp only

theorem newPg_frame {k : Nat} {h : Holder} (hz : OnlyChanges F z s) (m16 : Part.map ∈ F) : OnlyChanges F z (newPg s k h).1 := by
  unfold newPg
  repeat' first
    | with_reducible assumption
    | (with_reducible apply updMap_frame)
    | (intro b; refine (fun (_ : OnlyChanges F z b) => ?_) ?_; clear_value b; swap; dsimp only [b]; swap)
    | (intro b; refine (fun (_ : OnlyChanges F z b.1) => ?_) ?_; clear_value b; swap; dsimp only [b]; swap)
    | (intro b; clear_value b)
    | intro b
    | lift_lets
    | dsimp only

theorem takeWsn_frame (hz : OnlyChanges F z s) (m16 : Part.map ∈ F) : OnlyChanges F z (takeWsn s).1 := by
  unfold takeWsn
  repeat' first
    | with_reducible assumption
    | (with_reducible apply updMap_frame)
    | dsimp only

theorem pgPut_frame {id : Nat} {slot : Nat} {p : Payload} {h : Holder} (hz : OnlyChanges F z s) (m16 : Part.map ∈ F) : OnlyChanges F z (pgPut s id slot p h) := by
  unfold pgPut
  repeat' first
    | with_reducible assumption
    | (with_reducible apply modPg_frame)
    | (with_reducible apply frame_ite)
    | split

theorem pgClose_frame {id : Nat} (hz : OnlyChanges F z s) (m16 : Part.map ∈ F) : OnlyChanges F z (pgClose s id) := by
  unfold pgClose
  repeat' first
    | with_reducible assumption
    | (with_reducible apply modPg_frame)
    | (with_reducible apply frame_ite)
    | (with_reducible refine frame_foldl (fun x b hx => ?_) ?_)
    | split

theorem packPut_frame {k : Nat} {p : Payload} {h : Holder} (hz : OnlyChanges F z s) (m16 : Part.map ∈ F) : OnlyChanges F z (packPut s k p h).1 := by
  unfold packPut
  repeat' first
    | with_reducible assumption
    | (with_reducible apply newPg_frame)
    | (with_reducible apply updMap_frame)
    | (with_reducible apply pgPut_frame)
    | (with_reducible apply pgClose_frame)
    | (with_reducible apply frame_ite)
    | (with_reducible apply frame_ite_fst)
    | (intro b; refine (fun (_ : OnlyChanges F z b) => ?_) ?_; clear_value b; swap; dsimp only [b]; swap)
    | (intro b; refine (fun (_ : OnlyChanges F z b.1) => ?_) ?_; clear_value b; swap; dsimp only [b]; swap)
    | (intro b; clear_value b)
    | intro b
    | lift_lets
    | split
    | (refine frame_of_eq (by assumption) ?_)
    | dsimp only

theorem packClose_frame {k : Nat} (hz : OnlyChanges F z s) (m16 : Part.map ∈ F) : OnlyChanges F z (packClose s k) := by
  unfold packClose
  repeat' first
    | with_reducible assumption
    | (with_reducible apply updMap_frame)
    | (with_reducible apply pgClose_frame)
    | split
    | dsimp only

theorem dropHolder_frame {h : Holder} (hz : OnlyChanges F z s) (m16 : Part.map ∈ F) : OnlyChanges F z (dropHolder s h) := by
  unfold dropHolder
  repeat' first
    | with_reducible assumption
    | (with_reducible apply updMap_frame)
    | (intro b; refine (fun (_ : OnlyChanges F z b) => ?_) ?_; clear_value b; swap; dsimp only [b]; swap)
    | (intro b; refine (fun (_ : OnlyChanges F z b.1) => ?_) ?_; clear_value b; swap; dsimp only [b]; swap)
    | (with_reducible apply hfn)
    | (intro b; refine (fun (hfn : ∀ x, OnlyChanges F z x → OnlyChanges F z (b x)) => ?_) ?_; clear_value b; swap; (intro x hx; dsimp only [b]); swap)
    | (intro b; refine (fun (hfn : ∀ x y, OnlyChanges F z x → OnlyChanges F z (b x y)) => ?_) ?_; clear_value b; swap; (intro x y hx; dsimp only [b]); swap)
    | (with_reducible apply hfc)
    | (with_reducible apply hfd)
    | (intro b; refine (fun (hfc : ∀ x, OnlyChanges F z (b x)) => ?_) ?_; clear_value b; swap; (intro x; dsimp only [b]); swap)
    | (intro b; refine (fun (hfd : ∀ x y, OnlyChanges F z (b x y)) => ?_) ?_; clear_value b; swap; (intro x y; dsimp only [b]); swap)
    | (intro b; clear_value b)
    | intro b
    | lift_lets

theorem askSeal_frame {k : Nat} (hz : OnlyChanges F z s) (m16 : Part.map ∈ F) (m18 : Part.jrc ∈ F) : OnlyChanges F z (askSeal s k) := by
  unfold askSeal
  repeat' first
    | with_reducible assumption
    | (with_reducible apply askGroup_frame)
    | (with_reducible apply modOpen_frame)
    | (with_reducible apply frame_ite)
    | split
    | dsimp only

theorem foldStream_frame {k : Nat} (hz : OnlyChanges F z s) (m16 : Part.map ∈ F) (m17 : Part.flash ∈ F) (m18 : Part.jrc ∈ F) : OnlyChanges F z (foldStream s k) := by
  unfold foldStream
  repeat' first
    | with_reducible assumption
    | (with_reducible apply placeAll_frame)
    | (with_reducible apply askSeal_frame)
    | (with_reducible apply modSb_frame)
    | (with_reducible apply modOpen_frame)
    | (with_reducible apply modPg_frame)
    | (with_reducible apply addOp_frame)
    | (with_reducible apply frame_ite)
    | (with_reducible apply frame_ite_fst)
    | (with_reducible refine frame_foldl (fun x b hx => ?_) ?_)
    | (with_reducible refine frame_foldl_fst (fun x b hx => ?_) ?_)
    | (intro b; refine (fun (_ : OnlyChanges F z b) => ?_) ?_; clear_value b; swap; dsimp only [b]; swap)
    | (intro b; refine (fun (_ : OnlyChanges F z b.1) => ?_) ?_; clear_value b; swap; dsimp only [b]; swap)
    | (with_reducible apply hfn)
    | (intro b; refine (fun (hfn : ∀ x, OnlyChanges F z x → OnlyChanges F z (b x)) => ?_) ?_; clear_value b; swap; (intro x hx; dsimp only [b]); swap)
    | (intro b; refine (fun (hfn : ∀ x y, OnlyChanges F z x → OnlyChanges F z (b x y)) => ?_) ?_; clear_value b; swap; (intro x y hx; dsimp only [b]); swap)
    | (with_reducible apply hfc)
    | (with_reducible apply hfd)
    | (intro b; refine (fun (hfc : ∀ x, OnlyChanges F z (b x)) => ?_) ?_; clear_value b; swap; (intro x; dsimp only [b]); swap)
    | (intro b; refine (fun (hfd : ∀ x y, OnlyChanges F z (b x y)) => ?_) ?_; clear_value b; swap; (intro x y; dsimp only [b]); swap)
    | (intro b; clear_value b)
    | intro b
    | lift_lets
    | split
    | (fail_if_no_progress with_reducible refine frame_upd ?_)
    | dsimp only

theorem turn_frame (hz : OnlyChanges F z s) (m1 : Part.out ∈ F) (m3 : Part.regs ∈ F) (m4 : Part.portA ∈ F) (m5 : Part.portB ∈ F) (m6 : Part.evr ∈ F) (m16 : Part.map ∈ F) (m17 : Part.flash ∈ F) (m18 : Part.jrc ∈ F) : OnlyChanges F z (turn s) := by
  unfold turn
  repeat' first
    | with_reducible assumption
    | (with_reducible apply pump_frame)
    | (with_reducible apply foldStream_frame)
    | (with_reducible refine frame_foldl (fun x b hx => ?_) ?_)

theorem refreshOver_frame {p : Nat} (hz : OnlyChanges F z s) (m3 : Part.regs ∈ F) (m16 : Part.map ∈ F) : OnlyChanges F z (refreshOver s p) := by
  unfold refreshOver
  repeat' first
    | with_reducible assumption
    | (with_reducible apply satAdd_frame)
    | (with_reducible apply updMap_frame)
    | (with_reducible apply frame_ite)
    | (intro b; refine (fun (_ : OnlyChanges F z b) => ?_) ?_; clear_value b; swap; dsimp only [b]; swap)
    | (intro b; clear_value b)
    | intro b
    | lift_lets
    | split
    | dsimp only

theorem refreshHead_frame {ps : List Nat} (hz : OnlyChanges F z s) (m3 : Part.regs ∈ F) (m16 : Part.map ∈ F) : OnlyChanges F z (refreshHead s ps) := by
  unfold refreshHead
  repeat' first
    | with_reducible assumption
    | (with_reducible apply refreshOver_frame)
    | (with_reducible apply updMap_frame)
    | (with_reducible refine frame_foldl (fun x b hx => ?_) ?_)
    | (intro b; refine (fun (_ : OnlyChanges F z b) => ?_) ?_; clear_value b; swap; dsimp only [b]; swap)
    | (intro b; clear_value b)
    | intro b
    | lift_lets

theorem refreshAdd_frame {p : Nat} (hz : OnlyChanges F z s) (m3 : Part.regs ∈ F) (m16 : Part.map ∈ F) : OnlyChanges F z (refreshAdd s p) := by
  unfold refreshAdd
  repeat' first
    | with_reducible assumption
    | (with_reducible apply refreshOver_frame)
    | (with_reducible apply updMap_frame)
    | (with_reducible apply frame_ite)
    | (intro b; refine (fun (_ : OnlyChanges F z b) => ?_) ?_; clear_value b; swap; dsimp only [b]; swap)
    | (intro b; clear_value b)
    | intro b
    | lift_lets
    | split

theorem unplace_frame {x : Nat} {m : Nat} {from_ : Nat} (hz : OnlyChanges F z s) (m16 : Part.map ∈ F) : OnlyChanges F z (unplace s x m from_) := by
  unfold unplace
  repeat' first
    | with_reducible assumption
    | (with_reducible apply modPg_frame)
    | (with_reducible refine frame_foldl (fun x b hx => ?_) ?_)
    | (with_reducible refine frame_foldl_fst (fun x b hx => ?_) ?_)
    | split
    | dsimp only

theorem setEnd_frame {x : Nat} {m : Nat} {r : Nat} {fail : Bool} (hz : OnlyChanges F z s) (m16 : Part.map ∈ F) : OnlyChanges F z (setEnd s x m r fail) := by
  unfold setEnd
  repeat' first
    | with_reducible assumption
    | (with_reducible apply modSb_frame)

theorem closeEarly_frame {k : Nat} {parity : List Nat} {cause : optParam Nat 3} (hz : OnlyChanges F z s) (m1 : Part.out ∈ F) (m3 : Part.regs ∈ F) (m4 : Part.portA ∈ F) (m5 : Part.portB ∈ F) (m6 : Part.evr ∈ F) (m16 : Part.map ∈ F) (m18 : Part.jrc ∈ F) : OnlyChanges F z (closeEarly s k parity cause) := by
  unfold closeEarly
  repeat' first
    | with_reducible assumption
    | (with_reducible apply strCauseSet_frame)
    | (with_reducible apply modSb_frame)
    | (with_reducible apply unplace_frame)
    | (with_reducible apply refreshHead_frame)
    | (with_reducible apply modOpen_frame)
    | (with_reducible apply askSeal_frame)
    | (with_reducible apply frame_ite)
    | (with_reducible refine frame_foldl (fun x b hx => ?_) ?_)
    | (intro b; refine (fun (_ : OnlyChanges F z b) => ?_) ?_; clear_value b; swap; dsimp only [b]; swap)
    | (with_reducible apply hfn)
    | (intro b; refine (fun (hfn : ∀ x, OnlyChanges F z x → OnlyChanges F z (b x)) => ?_) ?_; clear_value b; swap; (intro x hx; dsimp only [b]); swap)
    | (intro b; refine (fun (hfn : ∀ x y, OnlyChanges F z x → OnlyChanges F z (b x y)) => ?_) ?_; clear_value b; swap; (intro x y hx; dsimp only [b]); swap)
    | (with_reducible apply hfc)
    | (with_reducible apply hfd)
    | (intro b; refine (fun (hfc : ∀ x, OnlyChanges F z (b x)) => ?_) ?_; clear_value b; swap; (intro x; dsimp only [b]); swap)
    | (intro b; refine (fun (hfd : ∀ x y, OnlyChanges F z (b x y)) => ?_) ?_; clear_value b; swap; (intro x y; dsimp only [b]); swap)
    | (intro b; clear_value b)
    | intro b
    | lift_lets
    | split
    | (fail_if_no_progress with_reducible refine frame_upd ?_)
    | dsimp only

theorem unfold_frame {k : Nat} {m : Nat} {b : Sb} {slots : NMap Payload} (hz : OnlyChanges F z s) (m1 : Part.out ∈ F) (m2 : Part.clk ∈ F) (m3 : Part.regs ∈ F) (m4 : Part.portA ∈ F) (m5 : Part.portB ∈ F) (m6 : Part.evr ∈ F) (m16 : Part.map ∈ F) (m18 : Part.jrc ∈ F) : OnlyChanges F z (unfold s k m b slots) := by
  unfold unfold
  repeat' first
    | with_reducible assumption
    | (with_reducible apply freshBelow_frame)
    | (with_reducible apply closeEarly_frame)
    | (with_reducible apply drcReport_frame)
    | (with_reducible apply modOpen_frame)
    | (with_reducible apply strCauseSet_frame)
    | (with_reducible apply satAdd_frame)
    | (with_reducible apply frame_ite)
    | (with_reducible apply frame_ite_fst)
    | (intro b; refine (fun (_ : OnlyChanges F z b) => ?_) ?_; clear_value b; swap; dsimp only [b]; swap)
    | (intro b; refine (fun (_ : OnlyChanges F z b.1) => ?_) ?_; clear_value b; swap; dsimp only [b]; swap)
    | (intro b; clear_value b)
    | intro b
    | lift_lets
    | split
    | (refine frame_of_eq (by assumption) ?_)
    | dsimp only

theorem endMember_frame {x : Nat} {m : Nat} (hz : OnlyChanges F z s) (m1 : Part.out ∈ F) (m2 : Part.clk ∈ F) (m3 : Part.regs ∈ F) (m4 : Part.portA ∈ F) (m5 : Part.portB ∈ F) (m6 : Part.evr ∈ F) (m16 : Part.map ∈ F) (m18 : Part.jrc ∈ F) : OnlyChanges F z (endMember s x m) := by
  unfold endMember
  repeat' first
    | with_reducible assumption
    | (with_reducible apply closeEarly_frame)
    | (with_reducible apply unplace_frame)
    | (with_reducible apply setEnd_frame)
    | (with_reducible apply refreshHead_frame)
    | (with_reducible apply unfold_frame)
    | (with_reducible apply frame_ite)
    | (with_reducible refine frame_foldl (fun x b hx => ?_) ?_)
    | (intro b; refine (fun (_ : OnlyChanges F z b) => ?_) ?_; clear_value b; swap; dsimp only [b]; swap)
    | (intro b; clear_value b)
    | intro b
    | lift_lets
    | split
    | dsimp only

theorem reprogram_frame {id : Nat} (hz : OnlyChanges F z s) (m16 : Part.map ∈ F) : OnlyChanges F z (reprogram s id) := by
  unfold reprogram
  repeat' first
    | with_reducible assumption
    | (with_reducible apply modPg_frame)

theorem dataProgramEnd_frame {id : Nat} {ok : Bool} (hz : OnlyChanges F z s) (m1 : Part.out ∈ F) (m2 : Part.clk ∈ F) (m3 : Part.regs ∈ F) (m4 : Part.portA ∈ F) (m5 : Part.portB ∈ F) (m6 : Part.evr ∈ F) (m16 : Part.map ∈ F) (m17 : Part.flash ∈ F) (m18 : Part.jrc ∈ F) : OnlyChanges F z (dataProgramEnd s id ok) := by
  unfold dataProgramEnd
  repeat' first
    | with_reducible assumption
    | (with_reducible apply updFlash_frame)
    | (with_reducible apply modOpen_frame)
    | (with_reducible apply modPg_frame)
    | (with_reducible apply satAdd_frame)
    | (with_reducible apply chnCauseSet_frame)
    | (with_reducible apply endMember_frame)
    | (with_reducible apply growBad_frame)
    | (with_reducible apply reprogram_frame)
    | (with_reducible apply frame_ite)
    | (with_reducible apply frame_ite_fst)
    | (with_reducible refine frame_foldl (fun x b hx => ?_) ?_)
    | (with_reducible refine frame_foldl_fst (fun x b hx => ?_) ?_)
    | (intro b; refine (fun (_ : OnlyChanges F z b) => ?_) ?_; clear_value b; swap; dsimp only [b]; swap)
    | (intro b; refine (fun (_ : OnlyChanges F z b.1) => ?_) ?_; clear_value b; swap; dsimp only [b]; swap)
    | (intro b; clear_value b)
    | intro b
    | lift_lets
    | split
    | dsimp only

theorem rowDone_frame {k : Nat} (hz : OnlyChanges F z s) (m16 : Part.map ∈ F) : OnlyChanges F z (rowDone s k) := by
  unfold rowDone
  repeat' first
    | with_reducible assumption
    | (with_reducible apply modOpen_frame)
    | (with_reducible apply modSb_frame)
    | (with_reducible apply frame_ite)
    | (intro b; refine (fun (_ : OnlyChanges F z b) => ?_) ?_; clear_value b; swap; dsimp only [b]; swap)
    | (intro b; clear_value b)
    | intro b
    | lift_lets
    | split
    | dsimp only

theorem parityProgramEnd_frame {x : Nat} {m : Nat} {ok : Bool} (hz : OnlyChanges F z s) (m1 : Part.out ∈ F) (m3 : Part.regs ∈ F) (m4 : Part.portA ∈ F) (m5 : Part.portB ∈ F) (m6 : Part.evr ∈ F) (m16 : Part.map ∈ F) (m17 : Part.flash ∈ F) (m18 : Part.jrc ∈ F) : OnlyChanges F z (parityProgramEnd s x m ok) := by
  unfold parityProgramEnd
  repeat' first
    | with_reducible assumption
    | (with_reducible apply updFlash_frame)
    | (with_reducible apply rowDone_frame)
    | (with_reducible apply modOpen_frame)
    | (with_reducible apply satAdd_frame)
    | (with_reducible apply chnCauseSet_frame)
    | (with_reducible apply growBad_frame)
    | (with_reducible apply closeEarly_frame)
    | (with_reducible apply frame_ite)
    | (with_reducible apply frame_ite_fst)
    | (with_reducible refine frame_foldl (fun x b hx => ?_) ?_)
    | (with_reducible refine frame_foldl_fst (fun x b hx => ?_) ?_)
    | (intro b; refine (fun (_ : OnlyChanges F z b) => ?_) ?_; clear_value b; swap; dsimp only [b]; swap)
    | (intro b; refine (fun (_ : OnlyChanges F z b.1) => ?_) ?_; clear_value b; swap; dsimp only [b]; swap)
    | (intro b; clear_value b)
    | intro b
    | lift_lets
    | split
    | dsimp only

theorem programEnd_frame {id : Nat} {o : FOp} {ok : Bool} (hz : OnlyChanges F z s) (m1 : Part.out ∈ F) (m2 : Part.clk ∈ F) (m3 : Part.regs ∈ F) (m4 : Part.portA ∈ F) (m5 : Part.portB ∈ F) (m6 : Part.evr ∈ F) (m16 : Part.map ∈ F) (m17 : Part.flash ∈ F) (m18 : Part.jrc ∈ F) : OnlyChanges F z (programEnd s id o ok) := by
  unfold programEnd
  repeat' first
    | with_reducible assumption
    | (with_reducible apply dropOp_frame)
    | (with_reducible apply dataProgramEnd_frame)
    | (with_reducible apply parityProgramEnd_frame)
    | (intro b; refine (fun (_ : OnlyChanges F z b) => ?_) ?_; clear_value b; swap; dsimp only [b]; swap)
    | (intro b; clear_value b)
    | intro b
    | lift_lets
    | split
    | dsimp only

theorem endLun_frame {lun : Nat} (hz : OnlyChanges F z s) (m1 : Part.out ∈ F) (m2 : Part.clk ∈ F) (m3 : Part.regs ∈ F) (m4 : Part.portA ∈ F) (m5 : Part.portB ∈ F) (m6 : Part.evr ∈ F) (m16 : Part.map ∈ F) (m18 : Part.jrc ∈ F) : OnlyChanges F z (endLun s lun) := by
  unfold endLun
  repeat' first
    | with_reducible assumption
    | (with_reducible apply endMember_frame)
    | (with_reducible refine frame_foldl (fun x b hx => ?_) ?_)
    | split
    | dsimp only

theorem failPrograms_frame {lun : Nat} (hz : OnlyChanges F z s) (m16 : Part.map ∈ F) (m17 : Part.flash ∈ F) : OnlyChanges F z (failPrograms s lun) := by
  unfold failPrograms
  repeat' first
    | with_reducible assumption
    | (with_reducible apply reprogram_frame)
    | (with_reducible apply dropOp_frame)
    | (with_reducible refine frame_foldl (fun x b hx => ?_) ?_)
    | (with_reducible refine frame_foldl_fst (fun x b hx => ?_) ?_)
    | split
    | dsimp only

theorem noteEnded_frame {x : Nat} {m : Nat} {out : Nat} (hz : OnlyChanges F z s) (m16 : Part.map ∈ F) (m18 : Part.jrc ∈ F) : OnlyChanges F z (noteEnded s x m out) := by
  unfold noteEnded
  repeat' first
    | with_reducible assumption
    | (with_reducible apply modSb_frame)
    | (with_reducible apply askGroup_frame)
    | (with_reducible apply frame_ite)
    | (with_reducible apply frame_ite_fst)
    | (intro b; refine (fun (_ : OnlyChanges F z b) => ?_) ?_; clear_value b; swap; dsimp only [b]; swap)
    | (intro b; refine (fun (_ : OnlyChanges F z b.1) => ?_) ?_; clear_value b; swap; dsimp only [b]; swap)
    | (intro b; clear_value b)
    | intro b
    | lift_lets
    | split
    | dsimp only

theorem issueErases_frame {x : Nat} (hz : OnlyChanges F z s) (m16 : Part.map ∈ F) (m17 : Part.flash ∈ F) (m18 : Part.jrc ∈ F) : OnlyChanges F z (issueErases s x) := by
  unfold issueErases
  repeat' first
    | with_reducible assumption
    | (with_reducible apply modSb_frame)
    | (with_reducible apply noteEnded_frame)
    | (with_reducible apply updTab_frame)
    | (with_reducible apply addOp_frame)
    | (with_reducible apply frame_ite)
    | (with_reducible refine frame_foldl (fun x b hx => ?_) ?_)
    | (intro b; refine (fun (_ : OnlyChanges F z b) => ?_) ?_; clear_value b; swap; dsimp only [b]; swap)
    | (intro b; clear_value b)
    | intro b
    | lift_lets
    | split
    | dsimp only

theorem makeErasable_frame {x : Nat} (hz : OnlyChanges F z s) (m16 : Part.map ∈ F) (m17 : Part.flash ∈ F) (m18 : Part.jrc ∈ F) : OnlyChanges F z (makeErasable s x) := by
  unfold makeErasable
  repeat' first
    | with_reducible assumption
    | (with_reducible apply issueErases_frame)
    | (with_reducible apply modSb_frame)

theorem unpin_frame {x : Nat} (hz : OnlyChanges F z s) (m16 : Part.map ∈ F) (m17 : Part.flash ∈ F) (m18 : Part.jrc ∈ F) : OnlyChanges F z (unpin s x) := by
  unfold unpin
  repeat' first
    | with_reducible assumption
    | (with_reducible apply issueErases_frame)
    | (with_reducible apply modSb_frame)

theorem pin_frame {x : Nat} (hz : OnlyChanges F z s) (m16 : Part.map ∈ F) : OnlyChanges F z (pin s x) := by
  unfold pin
  repeat' first
    | with_reducible assumption
    | (with_reducible apply modSb_frame)

theorem sysPage_frame {k : Nat} {us : List (Nat → Payload)} (hz : OnlyChanges F z s) (m16 : Part.map ∈ F) : OnlyChanges F z (sysPage s k us).1 := by
  unfold sysPage
  repeat' first
    | with_reducible assumption
    | (with_reducible apply newPg_frame)
    | (with_reducible apply takeWsn_frame)
    | (with_reducible apply pgPut_frame)
    | (with_reducible apply pgClose_frame)
    | (with_reducible refine frame_foldl (fun x b hx => ?_) ?_)
    | (with_reducible refine frame_foldl_fst (fun x b hx => ?_) ?_)
    | (intro b; refine (fun (_ : OnlyChanges F z b) => ?_) ?_; clear_value b; swap; dsimp only [b]; swap)
    | (intro b; refine (fun (_ : OnlyChanges F z b.1) => ?_) ?_; clear_value b; swap; dsimp only [b]; swap)
    | (intro b; clear_value b)
    | intro b
    | lift_lets
    | split
    | (refine frame_of_eq (by assumption) ?_)
    | dsimp only

theorem sysPages_frame {k n : Nat} {us : List (Nat → Payload)} (hz : OnlyChanges F z s) (m16 : Part.map ∈ F)
    : OnlyChanges F z (sysPages s k n us) := by
  induction n generalizing s us with
  | zero => exact hz
  | succ n ih =>
    unfold sysPages
    repeat' first
      | with_reducible assumption
      | (with_reducible apply ih)
      | (with_reducible apply sysPage_frame)
      | (with_reducible apply frame_ite)

theorem segClean_frame {id : Nat} (hz : OnlyChanges F z s) (m14 : Part.dram ∈ F) (m15 : Part.phc ∈ F) (m22 : Part.mem ∈ F) : OnlyChanges F z (segClean s id) := by
  unfold segClean
  repeat' first
    | with_reducible assumption
    | (with_reducible apply writeBack_frame)
    | (with_reducible apply updPhc_frame)
    | (with_reducible apply frame_ite)
    | (with_reducible apply frame_ite_fst)
    | (intro b; refine (fun (_ : OnlyChanges F z b) => ?_) ?_; clear_value b; swap; dsimp only [b]; swap)
    | (intro b; refine (fun (_ : OnlyChanges F z b.1) => ?_) ?_; clear_value b; swap; dsimp only [b]; swap)
    | (intro b; clear_value b)
    | intro b
    | lift_lets
    | split

theorem segWrite_frame {id : Nat} (hz : OnlyChanges F z s) (m14 : Part.dram ∈ F) (m15 : Part.phc ∈ F) (m16 : Part.map ∈ F) (m18 : Part.jrc ∈ F) (m22 : Part.mem ∈ F) : OnlyChanges F z (segWrite s id) := by
  unfold segWrite
  repeat' first
    | with_reducible assumption
    | (with_reducible apply segClean_frame)
    | (with_reducible apply updJrc_frame)
    | (with_reducible apply sysPages_frame)
    | (with_reducible apply frame_ite)
    | (intro b; refine (fun (_ : OnlyChanges F z b) => ?_) ?_; clear_value b; swap; dsimp only [b]; swap)
    | (intro b; clear_value b)
    | intro b
    | lift_lets
    | split

theorem writeTables_frame (hz : OnlyChanges F z s) (m1 : Part.out ∈ F) (m3 : Part.regs ∈ F) (m4 : Part.portA ∈ F) (m5 : Part.portB ∈ F) (m6 : Part.evr ∈ F) (m16 : Part.map ∈ F) (m17 : Part.flash ∈ F) (m18 : Part.jrc ∈ F) : OnlyChanges F z (writeTables s) := by
  unfold writeTables
  repeat' first
    | with_reducible assumption
    | (with_reducible apply turn_frame)
    | (with_reducible apply updJrc_frame)
    | (with_reducible apply sysPages_frame)
    | (intro b; refine (fun (_ : OnlyChanges F z b) => ?_) ?_; clear_value b; swap; dsimp only [b]; swap)
    | (intro b; clear_value b)
    | intro b
    | lift_lets

theorem writeArea_frame {r : Root} (hz : OnlyChanges F z s) (m16 : Part.map ∈ F) (m18 : Part.jrc ∈ F) : OnlyChanges F z (writeArea s r) := by
  unfold writeArea
  repeat' first
    | with_reducible assumption
    | (with_reducible apply updJrc_frame)
    | (with_reducible apply sysPages_frame)
    | (with_reducible apply frame_ite)
    | (intro b; refine (fun (_ : OnlyChanges F z b) => ?_) ?_; clear_value b; swap; dsimp only [b]; swap)
    | (intro b; clear_value b)
    | intro b
    | lift_lets
    | split

theorem ckptStep_frame (hz : OnlyChanges F z s) (m1 : Part.out ∈ F) (m3 : Part.regs ∈ F) (m4 : Part.portA ∈ F) (m5 : Part.portB ∈ F) (m6 : Part.evr ∈ F) (m16 : Part.map ∈ F) (m17 : Part.flash ∈ F) (m18 : Part.jrc ∈ F) : OnlyChanges F z (ckptStep s) := by
  unfold ckptStep
  repeat' first
    | with_reducible assumption
    | (with_reducible apply writeTables_frame)
    | (with_reducible apply updMap_frame)
    | (with_reducible apply updJrc_frame)
    | (with_reducible apply frame_ite)
    | (with_reducible refine frame_foldl (fun x b hx => ?_) ?_)
    | (intro b; refine (fun (_ : OnlyChanges F z b) => ?_) ?_; clear_value b; swap; dsimp only [b]; swap)
    | (intro b; clear_value b)
    | intro b
    | lift_lets
    | split

theorem ckptStart_frame {ids : List Nat} (hz : OnlyChanges F z s) (m1 : Part.out ∈ F) (m3 : Part.regs ∈ F) (m4 : Part.portA ∈ F) (m5 : Part.portB ∈ F) (m6 : Part.evr ∈ F) (m14 : Part.dram ∈ F) (m15 : Part.phc ∈ F) (m16 : Part.map ∈ F) (m17 : Part.flash ∈ F) (m18 : Part.jrc ∈ F) (m22 : Part.mem ∈ F) : OnlyChanges F z (ckptStart s ids) := by
  unfold ckptStart
  repeat' first
    | with_reducible assumption
    | (with_reducible apply updJrc_frame)
    | (with_reducible apply dropHolder_frame)
    | (with_reducible apply ckptStep_frame)
    | (with_reducible apply turn_frame)
    | (with_reducible apply segWrite_frame)
    | (with_reducible refine frame_foldl (fun x b hx => ?_) ?_)
    | (intro b; refine (fun (_ : OnlyChanges F z b) => ?_) ?_; clear_value b; swap; dsimp only [b]; swap)
    | (intro b; clear_value b)
    | intro b
    | lift_lets

theorem freeSystem_frame {r : Root} (hz : OnlyChanges F z s) (m16 : Part.map ∈ F) (m17 : Part.flash ∈ F) (m18 : Part.jrc ∈ F) : OnlyChanges F z (freeSystem s r) := by
  unfold freeSystem
  repeat' first
    | with_reducible assumption
    | (with_reducible apply makeErasable_frame)
    | (with_reducible apply frame_ite)
    | (with_reducible refine frame_foldl (fun x b hx => ?_) ?_)
    | (intro b; refine (fun (_ : OnlyChanges F z b) => ?_) ?_; clear_value b; swap; dsimp only [b]; swap)
    | (intro b; clear_value b)
    | intro b
    | lift_lets
    | split
    | dsimp only

theorem mirroredRead_frame {off : Nat} {len : Nat} (hz : OnlyChanges F z s) (m1 : Part.out ∈ F) (m3 : Part.regs ∈ F) (m4 : Part.portA ∈ F) (m5 : Part.portB ∈ F) (m6 : Part.evr ∈ F) (m18 : Part.jrc ∈ F) : OnlyChanges F z (mirroredRead s off len).1 := by
  unfold mirroredRead
  repeat' first
    | with_reducible assumption
    | (with_reducible apply jramUe_frame)
    | (with_reducible apply updJrc_frame)
    | (with_reducible refine frame_foldl (fun x b hx => ?_) ?_)
    | (with_reducible refine frame_foldl_fst (fun x b hx => ?_) ?_)
    | (intro b; refine (fun (_ : OnlyChanges F z b) => ?_) ?_; clear_value b; swap; dsimp only [b]; swap)
    | (intro b; refine (fun (_ : OnlyChanges F z b.1) => ?_) ?_; clear_value b; swap; dsimp only [b]; swap)
    | (intro b; clear_value b)
    | intro b
    | lift_lets
    | split
    | (refine frame_of_eq (by assumption) ?_)
    | dsimp only

theorem stall_frame {bit : Nat} (hz : OnlyChanges F z s) (m1 : Part.out ∈ F) (m3 : Part.regs ∈ F) (m4 : Part.portA ∈ F) (m5 : Part.portB ∈ F) (m6 : Part.evr ∈ F) (m18 : Part.jrc ∈ F) : OnlyChanges F z (stall s bit) := by
  unfold stall
  repeat' first
    | with_reducible assumption
    | (with_reducible apply satAdd_frame)
    | (with_reducible apply orReg_frame)
    | (with_reducible apply updJrc_frame)
    | (with_reducible apply raise_frame)
    | (with_reducible apply frame_ite)
    | (intro b; refine (fun (_ : OnlyChanges F z b) => ?_) ?_; clear_value b; swap; dsimp only [b]; swap)
    | (intro b; clear_value b)
    | intro b
    | lift_lets
    | split

theorem fullJudge_frame (hz : OnlyChanges F z s) (m1 : Part.out ∈ F) (m3 : Part.regs ∈ F) (m4 : Part.portA ∈ F) (m5 : Part.portB ∈ F) (m6 : Part.evr ∈ F) (m18 : Part.jrc ∈ F) : OnlyChanges F z (fullJudge s) := by
  unfold fullJudge
  repeat' first
    | with_reducible assumption
    | (with_reducible apply updJrc_frame)
    | (with_reducible apply epochTrig_frame)
    | (with_reducible apply frame_ite)
    | (intro b; refine (fun (_ : OnlyChanges F z b) => ?_) ?_; clear_value b; swap; dsimp only [b]; swap)
    | (intro b; clear_value b)
    | intro b
    | lift_lets
    | split

theorem batchStart_frame (hz : OnlyChanges F z s) (m1 : Part.out ∈ F) (m3 : Part.regs ∈ F) (m4 : Part.portA ∈ F) (m5 : Part.portB ∈ F) (m6 : Part.evr ∈ F) (m18 : Part.jrc ∈ F) : OnlyChanges F z (batchStart s) := by
  unfold batchStart
  repeat' first
    | with_reducible assumption
    | (with_reducible apply updJrc_frame)
    | (with_reducible apply stall_frame)
    | (with_reducible apply fullJudge_frame)
    | (with_reducible apply frame_ite)
    | (with_reducible apply frame_ite_fst)
    | (intro b; refine (fun (_ : OnlyChanges F z b) => ?_) ?_; clear_value b; swap; dsimp only [b]; swap)
    | (intro b; refine (fun (_ : OnlyChanges F z b.1) => ?_) ?_; clear_value b; swap; dsimp only [b]; swap)
    | (intro b; clear_value b)
    | intro b
    | lift_lets
    | split
    | (refine frame_of_eq (by assumption) ?_)
    | dsimp only

theorem trig54_frame {a : Nat} (hz : OnlyChanges F z s) (m3 : Part.regs ∈ F) : OnlyChanges F z (trig54 s a) := by
  unfold trig54
  repeat' first
    | with_reducible assumption
    | (with_reducible apply wrField_frame)
    | (intro b; refine (fun (_ : OnlyChanges F z b) => ?_) ?_; clear_value b; swap; dsimp only [b]; swap)
    | (intro b; clear_value b)
    | intro b
    | lift_lets

theorem cutover_frame (hz : OnlyChanges F z s) (m1 : Part.out ∈ F) (m3 : Part.regs ∈ F) (m4 : Part.portA ∈ F) (m5 : Part.portB ∈ F) (m6 : Part.evr ∈ F) (m16 : Part.map ∈ F) (m17 : Part.flash ∈ F) (m18 : Part.jrc ∈ F) : OnlyChanges F z (cutover s) := by
  unfold cutover
  repeat' first
    | with_reducible assumption
    | (with_reducible apply wrField_frame)
    | (with_reducible apply trig54_frame)
    | (with_reducible apply updJrc_frame)
    | (with_reducible apply turn_frame)
    | (with_reducible apply packClose_frame)
    | (with_reducible refine frame_foldl (fun x b hx => ?_) ?_)
    | (intro b; refine (fun (_ : OnlyChanges F z b) => ?_) ?_; clear_value b; swap; dsimp only [b]; swap)
    | (intro b; clear_value b)
    | intro b
    | lift_lets

theorem dloEval_frame (hz : OnlyChanges F z s) (m21 : Part.pat ∈ F) : OnlyChanges F z (dloEval s) := by
  unfold dloEval
  repeat' first
    | with_reducible assumption
    | (with_reducible apply updPat_frame)
    | (intro b; refine (fun (_ : OnlyChanges F z b) => ?_) ?_; clear_value b; swap; dsimp only [b]; swap)
    | (intro b; refine (fun (_ : OnlyChanges F z b.1) => ?_) ?_; clear_value b; swap; dsimp only [b]; swap)
    | (intro b; clear_value b)
    | intro b
    | lift_lets

theorem cutoverDone_frame (hz : OnlyChanges F z s) (m1 : Part.out ∈ F) (m3 : Part.regs ∈ F) (m4 : Part.portA ∈ F) (m5 : Part.portB ∈ F) (m6 : Part.evr ∈ F) (m14 : Part.dram ∈ F) (m15 : Part.phc ∈ F) (m16 : Part.map ∈ F) (m17 : Part.flash ∈ F) (m18 : Part.jrc ∈ F) (m21 : Part.pat ∈ F) (m22 : Part.mem ∈ F) : OnlyChanges F z (cutoverDone s) := by
  unfold cutoverDone
  repeat' first
    | with_reducible assumption
    | (with_reducible apply updJrc_frame)
    | (with_reducible apply updMap_frame)
    | (with_reducible apply dloEval_frame)
    | (with_reducible apply wrField_frame)
    | (with_reducible apply orReg_frame)
    | (with_reducible apply fullJudge_frame)
    | (with_reducible apply ckptStart_frame)
    | (with_reducible apply raise_frame)
    | (with_reducible apply frame_ite)
    | (intro b; refine (fun (_ : OnlyChanges F z b) => ?_) ?_; clear_value b; swap; dsimp only [b]; swap)
    | (intro b; clear_value b)
    | intro b
    | lift_lets
    | split

theorem jrcCommit_frame (hz : OnlyChanges F z s) (m3 : Part.regs ∈ F) (m18 : Part.jrc ∈ F) : OnlyChanges F z (jrcCommit s) := by
  unfold jrcCommit
  repeat' first
    | with_reducible assumption
    | (with_reducible apply wrField_frame)
    | (with_reducible apply trig54_frame)
    | (with_reducible apply updJrc_frame)
    | (intro b; refine (fun (_ : OnlyChanges F z b) => ?_) ?_; clear_value b; swap; dsimp only [b]; swap)
    | (intro b; clear_value b)
    | intro b
    | lift_lets

theorem rootCut_frame (hz : OnlyChanges F z s) (m2 : Part.clk ∈ F) (m18 : Part.jrc ∈ F) : OnlyChanges F z (rootCut s) := by
  unfold rootCut
  repeat' first
    | with_reducible assumption
    | (with_reducible apply freshBelow_frame)
    | (with_reducible apply updJrc_frame)
    | (with_reducible apply frame_ite)
    | (with_reducible apply frame_ite_fst)
    | (with_reducible refine frame_foldl (fun x b hx => ?_) ?_)
    | (with_reducible refine frame_foldl_fst (fun x b hx => ?_) ?_)
    | (intro b; refine (fun (_ : OnlyChanges F z b) => ?_) ?_; clear_value b; swap; dsimp only [b]; swap)
    | (intro b; refine (fun (_ : OnlyChanges F z b.1) => ?_) ?_; clear_value b; swap; dsimp only [b]; swap)
    | (intro b; clear_value b)
    | intro b
    | lift_lets
    | split
    | (refine frame_of_eq (by assumption) ?_)
    | dsimp only

theorem rootCommitDone_frame (hz : OnlyChanges F z s) (m1 : Part.out ∈ F) (m3 : Part.regs ∈ F) (m4 : Part.portA ∈ F) (m5 : Part.portB ∈ F) (m6 : Part.evr ∈ F) (m16 : Part.map ∈ F) (m17 : Part.flash ∈ F) (m18 : Part.jrc ∈ F) (m21 : Part.pat ∈ F) : OnlyChanges F z (rootCommitDone s) := by
  unfold rootCommitDone
  repeat' first
    | with_reducible assumption
    | (with_reducible apply updJrc_frame)
    | (with_reducible apply updTab_frame)
    | (with_reducible apply updMap_frame)
    | (with_reducible apply updPat_frame)
    | (with_reducible apply wr_frame)
    | (with_reducible apply raise_frame)
    | (with_reducible apply orReg_frame)
    | (with_reducible apply wrField_frame)
    | (with_reducible apply fullJudge_frame)
    | (with_reducible apply ckptStep_frame)
    | (with_reducible apply turn_frame)
    | (with_reducible apply writeArea_frame)
    | (with_reducible apply freeSystem_frame)
    | (with_reducible apply dropHolder_frame)
    | (with_reducible apply frame_ite)
    | (with_reducible apply frame_ite_fst)
    | (intro b; refine (fun (_ : OnlyChanges F z b) => ?_) ?_; clear_value b; swap; dsimp only [b]; swap)
    | (intro b; refine (fun (_ : OnlyChanges F z b.1) => ?_) ?_; clear_value b; swap; dsimp only [b]; swap)
    | (with_reducible apply hfn)
    | (intro b; refine (fun (hfn : ∀ x, OnlyChanges F z x → OnlyChanges F z (b x)) => ?_) ?_; clear_value b; swap; (intro x hx; dsimp only [b]); swap)
    | (intro b; refine (fun (hfn : ∀ x y, OnlyChanges F z x → OnlyChanges F z (b x y)) => ?_) ?_; clear_value b; swap; (intro x y hx; dsimp only [b]); swap)
    | (with_reducible apply hfc)
    | (with_reducible apply hfd)
    | (intro b; refine (fun (hfc : ∀ x, OnlyChanges F z (b x)) => ?_) ?_; clear_value b; swap; (intro x; dsimp only [b]); swap)
    | (intro b; refine (fun (hfd : ∀ x y, OnlyChanges F z (b x y)) => ?_) ?_; clear_value b; swap; (intro x y; dsimp only [b]); swap)
    | (intro b; clear_value b)
    | intro b
    | lift_lets
    | split
    | dsimp only

theorem epochPeriod_frame (hz : OnlyChanges F z s) (m1 : Part.out ∈ F) (m3 : Part.regs ∈ F) (m4 : Part.portA ∈ F) (m5 : Part.portB ∈ F) (m6 : Part.evr ∈ F) (m18 : Part.jrc ∈ F) : OnlyChanges F z (epochPeriod s) := by
  unfold epochPeriod
  repeat' first
    | with_reducible assumption
    | (with_reducible apply epochTrig_frame)
    | (with_reducible apply updJrc_frame)
    | (with_reducible apply frame_ite)
    | (intro b; refine (fun (_ : OnlyChanges F z b) => ?_) ?_; clear_value b; swap; dsimp only [b]; swap)
    | (intro b; clear_value b)
    | intro b
    | lift_lets
    | split

theorem minspExpiry_frame (hz : OnlyChanges F z s) (m1 : Part.out ∈ F) (m3 : Part.regs ∈ F) (m4 : Part.portA ∈ F) (m5 : Part.portB ∈ F) (m6 : Part.evr ∈ F) (m18 : Part.jrc ∈ F) : OnlyChanges F z (minspExpiry s) := by
  unfold minspExpiry
  repeat' first
    | with_reducible assumption
    | (with_reducible apply updJrc_frame)
    | (with_reducible apply raise_frame)
    | (with_reducible apply orReg_frame)
    | (with_reducible apply frame_ite)
    | (with_reducible refine frame_foldl (fun x b hx => ?_) ?_)
    | (intro b; refine (fun (_ : OnlyChanges F z b) => ?_) ?_; clear_value b; swap; dsimp only [b]; swap)
    | (intro b; clear_value b)
    | intro b
    | lift_lets
    | split

theorem lastGasp_frame {code : Nat} {origin : Nat} {payload : List Byte} (hz : OnlyChanges F z s) (m6 : Part.evr ∈ F) : OnlyChanges F z (lastGasp s code origin payload) := by
  unfold lastGasp
  repeat' first
    | with_reducible assumption
    | (intro b; refine (fun (_ : OnlyChanges F z b) => ?_) ?_; clear_value b; swap; dsimp only [b]; swap)
    | (intro b; clear_value b)
    | intro b
    | lift_lets
    | (fail_if_no_progress with_reducible refine frame_upd ?_)

theorem recFail_frame {cond : Nat} {off : Nat} (hz : OnlyChanges F z s) (m1 : Part.out ∈ F) (m3 : Part.regs ∈ F) (m4 : Part.portA ∈ F) (m5 : Part.portB ∈ F) (m6 : Part.evr ∈ F) : OnlyChanges F z (recFail s cond off) := by
  unfold recFail
  repeat' first
    | with_reducible assumption
    | (with_reducible apply lastGasp_frame)
    | (with_reducible apply noteCause_frame)
    | (with_reducible apply wrField_frame)
    | (with_reducible apply frame_ite)
    | (intro b; refine (fun (_ : OnlyChanges F z b) => ?_) ?_; clear_value b; swap; dsimp only [b]; swap)
    | (intro b; clear_value b)
    | intro b
    | lift_lets
    | split
    | (fail_if_no_progress with_reducible refine frame_upd ?_)

theorem placeRec_frame {c : Cand} (hz : OnlyChanges F z s) (m1 : Part.out ∈ F) (m3 : Part.regs ∈ F) (m4 : Part.portA ∈ F) (m5 : Part.portB ∈ F) (m6 : Part.evr ∈ F) (m18 : Part.jrc ∈ F) : OnlyChanges F z (placeRec s c) := by
  unfold placeRec
  repeat' first
    | with_reducible assumption
    | (with_reducible apply orReg_frame)
    | (with_reducible apply noteCause_frame)
    | (with_reducible apply frame_ite)
    | (intro b; refine (fun (_ : OnlyChanges F z b) => ?_) ?_; clear_value b; swap; dsimp only [b]; swap)
    | (intro b; clear_value b)
    | intro b
    | lift_lets
    | split
    | (fail_if_no_progress with_reducible refine frame_upd ?_)

theorem slotLost_frame {own : optParam Bool false} (hz : OnlyChanges F z s) (m1 : Part.out ∈ F) (m3 : Part.regs ∈ F) (m4 : Part.portA ∈ F) (m5 : Part.portB ∈ F) (m6 : Part.evr ∈ F) : OnlyChanges F z (slotLost s own) := by
  unfold slotLost
  repeat' first
    | with_reducible assumption
    | (with_reducible apply satAdd_frame)
    | (with_reducible apply orReg_frame)
    | (with_reducible apply noteCause_frame)
    | (with_reducible apply frame_ite)
    | (intro b; refine (fun (_ : OnlyChanges F z b) => ?_) ?_; clear_value b; swap; dsimp only [b]; swap)
    | (intro b; clear_value b)
    | intro b
    | lift_lets
    | split

theorem recPop_frame {c : Cand} (hz : OnlyChanges F z s) (m1 : Part.out ∈ F) (m3 : Part.regs ∈ F) (m4 : Part.portA ∈ F) (m5 : Part.portB ∈ F) (m6 : Part.evr ∈ F) : OnlyChanges F z (recPop s c) := by
  unfold recPop
  repeat' first
    | with_reducible assumption
    | (with_reducible apply noteCause_frame)
    | (with_reducible apply raise_frame)
    | (with_reducible apply frame_ite)
    | (intro b; refine (fun (_ : OnlyChanges F z b) => ?_) ?_; clear_value b; swap; dsimp only [b]; swap)
    | (intro b; clear_value b)
    | intro b
    | lift_lets
    | split
    | (fail_if_no_progress with_reducible refine frame_upd ?_)
    | dsimp only

theorem entryWritten_frame {fails : Nat} {lineExhausted : Bool} (hz : OnlyChanges F z s) (m1 : Part.out ∈ F) (m3 : Part.regs ∈ F) (m4 : Part.portA ∈ F) (m5 : Part.portB ∈ F) (m6 : Part.evr ∈ F) (m18 : Part.jrc ∈ F) : OnlyChanges F z (entryWritten s fails lineExhausted) := by
  unfold entryWritten
  repeat' first
    | with_reducible assumption
    | (with_reducible apply placeRec_frame)
    | (with_reducible apply recPop_frame)
    | (with_reducible apply slotLost_frame)
    | (with_reducible apply recFail_frame)
    | (with_reducible apply raise_frame)
    | (with_reducible apply frame_ite)
    | (intro b; refine (fun (_ : OnlyChanges F z b) => ?_) ?_; clear_value b; swap; dsimp only [b]; swap)
    | (intro b; clear_value b)
    | intro b
    | lift_lets
    | split
    | (fail_if_no_progress with_reducible refine frame_upd ?_)
    | dsimp only

theorem paceRefill_frame (hz : OnlyChanges F z s) (m6 : Part.evr ∈ F) : OnlyChanges F z (paceRefill s) := by
  unfold paceRefill
  repeat' first
    | with_reducible assumption
    | (with_reducible apply frame_ite)
    | split
    | (fail_if_no_progress with_reducible refine frame_upd ?_)

theorem scanDone_frame (hz : OnlyChanges F z s) (m1 : Part.out ∈ F) (m3 : Part.regs ∈ F) (m4 : Part.portA ∈ F) (m5 : Part.portB ∈ F) (m6 : Part.evr ∈ F) (m18 : Part.jrc ∈ F) : OnlyChanges F z (scanDone s) := by
  unfold scanDone
  repeat' first
    | with_reducible assumption
    | (with_reducible apply wrField_frame)
    | (with_reducible apply placeRec_frame)
    | (with_reducible apply noteCause_frame)
    | (with_reducible apply frame_ite)
    | (with_reducible refine frame_foldl (fun x b hx => ?_) ?_)
    | (intro b; refine (fun (_ : OnlyChanges F z b) => ?_) ?_; clear_value b; swap; dsimp only [b]; swap)
    | (intro b; clear_value b)
    | intro b
    | lift_lets
    | split
    | (fail_if_no_progress with_reducible refine frame_upd ?_)

theorem setBank_frame {i : Initiator} {b : EvrBank} (hz : OnlyChanges F z s) (m6 : Part.evr ∈ F) : OnlyChanges F z (setBank s i b) := by
  unfold setBank
  repeat' first
    | with_reducible assumption
    | (fail_if_no_progress with_reducible refine frame_upd ?_)

theorem circLost_frame {i : Nat} (hz : OnlyChanges F z s) (m1 : Part.out ∈ F) (m3 : Part.regs ∈ F) (m4 : Part.portA ∈ F) (m5 : Part.portB ∈ F) (m6 : Part.evr ∈ F) : OnlyChanges F z (circLost s i) := by
  unfold circLost
  repeat' first
    | with_reducible assumption
    | (with_reducible apply slotLost_frame)
    | (with_reducible apply recFail_frame)
    | (with_reducible apply frame_ite)
    | (intro b; refine (fun (_ : OnlyChanges F z b) => ?_) ?_; clear_value b; swap; dsimp only [b]; swap)
    | (intro b; clear_value b)
    | intro b
    | lift_lets
    | split
    | (fail_if_no_progress with_reducible refine frame_upd ?_)
    | dsimp only

theorem foundLost_frame {k : Nat} {second : Bool} (hz : OnlyChanges F z s) (m1 : Part.out ∈ F) (m3 : Part.regs ∈ F) (m4 : Part.portA ∈ F) (m5 : Part.portB ∈ F) (m6 : Part.evr ∈ F) : OnlyChanges F z (foundLost s k second) := by
  unfold foundLost
  repeat' first
    | with_reducible assumption
    | (with_reducible apply recFail_frame)
    | (with_reducible apply frame_ite)
    | (intro b; refine (fun (_ : OnlyChanges F z b) => ?_) ?_; clear_value b; swap; dsimp only [b]; swap)
    | (intro b; clear_value b)
    | intro b
    | lift_lets
    | split
    | (fail_if_no_progress with_reducible refine frame_upd ?_)
    | dsimp only

theorem recorderLost_frame {off : Nat} (hz : OnlyChanges F z s) (m1 : Part.out ∈ F) (m3 : Part.regs ∈ F) (m4 : Part.portA ∈ F) (m5 : Part.portB ∈ F) (m6 : Part.evr ∈ F) : OnlyChanges F z (recorderLost s off) := by
  unfold recorderLost
  repeat' first
    | with_reducible assumption
    | (with_reducible apply foundLost_frame)
    | (with_reducible apply circLost_frame)
    | (with_reducible apply frame_ite)
    | split

theorem slotUnreadable_frame {q : Nat} (hz : OnlyChanges F z s) (m1 : Part.out ∈ F) (m3 : Part.regs ∈ F) (m4 : Part.portA ∈ F) (m5 : Part.portB ∈ F) (m6 : Part.evr ∈ F) : OnlyChanges F z (slotUnreadable s q) := by
  unfold slotUnreadable
  repeat' first
    | with_reducible assumption
    | (with_reducible apply foundLost_frame)
    | (with_reducible apply jramUe_frame)
    | (with_reducible apply circLost_frame)
    | (with_reducible apply frame_ite)
    | split
    | dsimp only

theorem setCursor_frame {i : Initiator} {q : Nat} {slotUe : Bool} (hz : OnlyChanges F z s) (m1 : Part.out ∈ F) (m3 : Part.regs ∈ F) (m4 : Part.portA ∈ F) (m5 : Part.portB ∈ F) (m6 : Part.evr ∈ F) : OnlyChanges F z (setCursor s i q slotUe) := by
  unfold setCursor
  repeat' first
    | with_reducible assumption
    | (with_reducible apply slotUnreadable_frame)
    | (with_reducible apply setBank_frame)
    | (with_reducible apply frame_ite)
    | (with_reducible apply frame_ite_fst)
    | (intro b; refine (fun (_ : OnlyChanges F z b) => ?_) ?_; clear_value b; swap; dsimp only [b]; swap)
    | (intro b; refine (fun (_ : OnlyChanges F z b.1) => ?_) ?_; clear_value b; swap; dsimp only [b]; swap)
    | (intro b; clear_value b)
    | intro b
    | lift_lets
    | split

theorem flushSup_frame (hz : OnlyChanges F z s) (m3 : Part.regs ∈ F) (m6 : Part.evr ∈ F) : OnlyChanges F z (flushSup s) := by
  unfold flushSup
  repeat' first
    | with_reducible assumption
    | (with_reducible apply enqueue_frame)
    | (with_reducible apply frame_ite)
    | (with_reducible apply frame_ite_fst)
    | (with_reducible refine frame_foldl (fun x b hx => ?_) ?_)
    | (with_reducible refine frame_foldl_fst (fun x b hx => ?_) ?_)
    | (intro b; refine (fun (_ : OnlyChanges F z b) => ?_) ?_; clear_value b; swap; dsimp only [b]; swap)
    | (intro b; refine (fun (_ : OnlyChanges F z b.1) => ?_) ?_; clear_value b; swap; dsimp only [b]; swap)
    | (intro b; clear_value b)
    | intro b
    | lift_lets
    | split
    | (fail_if_no_progress with_reducible refine frame_upd ?_)

theorem rearm_frame (hz : OnlyChanges F z s) (m3 : Part.regs ∈ F) (m6 : Part.evr ∈ F) : OnlyChanges F z (rearm s) := by
  unfold rearm
  repeat' first
    | with_reducible assumption
    | (with_reducible apply wrField_frame)
    | (fail_if_no_progress with_reducible refine frame_upd ?_)

theorem writeRecord_frame {i : Initiator} {v : Nat} (hz : OnlyChanges F z s) (m3 : Part.regs ∈ F) (m6 : Part.evr ∈ F) : OnlyChanges F z (writeRecord s i v) := by
  unfold writeRecord
  repeat' first
    | with_reducible assumption
    | (with_reducible apply admitCand_frame)
    | (intro b; refine (fun (_ : OnlyChanges F z b) => ?_) ?_; clear_value b; swap; dsimp only [b]; swap)
    | (intro b; clear_value b)
    | intro b
    | lift_lets

theorem flashFlush_frame (hz : OnlyChanges F z s) (m6 : Part.evr ∈ F) : OnlyChanges F z (flashFlush s) := by
  unfold flashFlush
  repeat' first
    | with_reducible assumption
    | (fail_if_no_progress with_reducible refine frame_upd ?_)

theorem patrolUnit_frame {unit : Nat} (hz : OnlyChanges F z s) (m21 : Part.pat ∈ F) : OnlyChanges F z (patrolUnit s unit) := by
  unfold patrolUnit
  repeat' first
    | with_reducible assumption
    | (with_reducible apply updPat_frame)
    | (with_reducible apply frame_ite)
    | (with_reducible refine frame_foldl (fun x b hx => ?_) ?_)
    | (intro b; refine (fun (_ : OnlyChanges F z b) => ?_) ?_; clear_value b; swap; dsimp only [b]; swap)
    | (intro b; clear_value b)
    | intro b
    | lift_lets
    | split

theorem repairWritten_frame (hz : OnlyChanges F z s) (m18 : Part.jrc ∈ F) : OnlyChanges F z (repairWritten s) := by
  unfold repairWritten
  repeat' first
    | with_reducible assumption
    | (with_reducible apply updJrc_frame)

theorem addRepair_frame {r : Repair} (hz : OnlyChanges F z s) (m18 : Part.jrc ∈ F) (m22 : Part.mem ∈ F) : OnlyChanges F z (addRepair s r) := by
  unfold addRepair
  repeat' first
    | with_reducible assumption
    | (with_reducible apply repairWritten_frame)
    | (with_reducible apply updMem_frame)

theorem applyRow_frame {a : State × List Repair} {r : Repair} (hz : OnlyChanges F z a.1) (m1 : Part.out ∈ F) (m3 : Part.regs ∈ F) (m4 : Part.portA ∈ F) (m5 : Part.portB ∈ F) (m6 : Part.evr ∈ F) (m22 : Part.mem ∈ F) : OnlyChanges F z (applyRow a r).1 := by
  unfold applyRow
  repeat' first
    | with_reducible assumption
    | (with_reducible apply updMem_frame)
    | (with_reducible apply raise_frame)
    | (with_reducible apply frame_ite)
    | (with_reducible apply frame_ite_fst)
    | (intro b; refine (fun (_ : OnlyChanges F z b) => ?_) ?_; clear_value b; swap; dsimp only [b]; swap)
    | (intro b; refine (fun (_ : OnlyChanges F z b.1) => ?_) ?_; clear_value b; swap; dsimp only [b]; swap)
    | (intro b; clear_value b)
    | intro b
    | lift_lets
    | split
    | dsimp only

theorem repairRead_frame (hz : OnlyChanges F z s) (m1 : Part.out ∈ F) (m3 : Part.regs ∈ F) (m4 : Part.portA ∈ F) (m5 : Part.portB ∈ F) (m6 : Part.evr ∈ F) (m18 : Part.jrc ∈ F) (m22 : Part.mem ∈ F) : OnlyChanges F z (repairRead s) := by
  unfold repairRead
  repeat' first
    | with_reducible assumption
    | (with_reducible apply mirroredRead_frame)
    | (with_reducible apply updMem_frame)
    | (with_reducible apply frame_ite)
    | (with_reducible apply frame_ite_fst)
    | (intro b; refine (fun (_ : OnlyChanges F z b) => ?_) ?_; clear_value b; swap; dsimp only [b]; swap)
    | (intro b; refine (fun (_ : OnlyChanges F z b.1) => ?_) ?_; clear_value b; swap; dsimp only [b]; swap)
    | (intro b; clear_value b)
    | intro b
    | lift_lets
    | split
    | (refine frame_of_eq (by assumption) ?_)
    | dsimp only

theorem repairRows_frame (hz : OnlyChanges F z s) (m1 : Part.out ∈ F) (m3 : Part.regs ∈ F) (m4 : Part.portA ∈ F) (m5 : Part.portB ∈ F) (m6 : Part.evr ∈ F) (m18 : Part.jrc ∈ F) (m22 : Part.mem ∈ F) : OnlyChanges F z (repairRows s) := by
  unfold repairRows
  repeat' first
    | with_reducible assumption
    | (with_reducible apply repairRead_frame)
    | (with_reducible apply applyRow_frame)
    | (with_reducible apply updMem_frame)
    | (with_reducible refine frame_foldl (fun x b hx => ?_) ?_)
    | (with_reducible refine frame_foldl_fst (fun x b hx => ?_) ?_)
    | (intro b; refine (fun (_ : OnlyChanges F z b) => ?_) ?_; clear_value b; swap; dsimp only [b]; swap)
    | (intro b; refine (fun (_ : OnlyChanges F z b.1) => ?_) ?_; clear_value b; swap; dsimp only [b]; swap)
    | (intro b; clear_value b)
    | intro b
    | lift_lets
    | split
    | (refine frame_of_eq (by assumption) ?_)
    | dsimp only

theorem fuseMapRows_frame (hz : OnlyChanges F z s) (m22 : Part.mem ∈ F) : OnlyChanges F z (fuseMapRows s) := by
  unfold fuseMapRows
  repeat' first
    | with_reducible assumption
    | (with_reducible apply updMem_frame)

theorem retirePage_frame {addr : Nat} (hz : OnlyChanges F z s) (m1 : Part.out ∈ F) (m3 : Part.regs ∈ F) (m4 : Part.portA ∈ F) (m5 : Part.portB ∈ F) (m6 : Part.evr ∈ F) (m18 : Part.jrc ∈ F) (m22 : Part.mem ∈ F) : OnlyChanges F z (retirePage s addr) := by
  unfold retirePage
  repeat' first
    | with_reducible assumption
    | (with_reducible apply raise_frame)
    | (with_reducible apply repairWritten_frame)
    | (with_reducible apply updMem_frame)
    | (with_reducible apply wr_frame)
    | (with_reducible apply frame_ite)
    | (intro b; refine (fun (_ : OnlyChanges F z b) => ?_) ?_; clear_value b; swap; dsimp only [b]; swap)
    | (intro b; clear_value b)
    | intro b
    | lift_lets
    | split
    | dsimp only

theorem retireLine_frame {addr : Nat} (hz : OnlyChanges F z s) (m1 : Part.out ∈ F) (m3 : Part.regs ∈ F) (m4 : Part.portA ∈ F) (m5 : Part.portB ∈ F) (m6 : Part.evr ∈ F) (m18 : Part.jrc ∈ F) (m22 : Part.mem ∈ F) : OnlyChanges F z (retireLine s addr) := by
  unfold retireLine
  repeat' first
    | with_reducible assumption
    | (with_reducible apply raise_frame)
    | (with_reducible apply addRepair_frame)
    | (with_reducible apply updMem_frame)
    | (with_reducible apply frame_ite)
    | (intro b; refine (fun (_ : OnlyChanges F z b) => ?_) ?_; clear_value b; swap; dsimp only [b]; swap)
    | (intro b; clear_value b)
    | intro b
    | lift_lets
    | split

theorem lineSwitch_frame {die : Nat} {line : Nat} (hz : OnlyChanges F z s) (m22 : Part.mem ∈ F) : OnlyChanges F z (lineSwitch s die line) := by
  unfold lineSwitch
  repeat' first
    | with_reducible assumption
    | (with_reducible apply updMem_frame)

theorem retireRow_frame {unit : Nat} {addr : Nat} (hz : OnlyChanges F z s) (m1 : Part.out ∈ F) (m2 : Part.clk ∈ F) (m3 : Part.regs ∈ F) (m4 : Part.portA ∈ F) (m5 : Part.portB ∈ F) (m6 : Part.evr ∈ F) (m14 : Part.dram ∈ F) (m15 : Part.phc ∈ F) (m18 : Part.jrc ∈ F) (m22 : Part.mem ∈ F) : OnlyChanges F z (retireRow s unit addr) := by
  unfold retireRow
  repeat' first
    | with_reducible assumption
    | (with_reducible apply addRepair_frame)
    | (with_reducible apply freshBelow_frame)
    | (with_reducible apply updPhc_frame)
    | (with_reducible apply wayDisable_frame)
    | (with_reducible apply frame_ite)
    | (with_reducible apply frame_ite_fst)
    | (intro b; refine (fun (_ : OnlyChanges F z b) => ?_) ?_; clear_value b; swap; dsimp only [b]; swap)
    | (intro b; refine (fun (_ : OnlyChanges F z b.1) => ?_) ?_; clear_value b; swap; dsimp only [b]; swap)
    | (intro b; clear_value b)
    | intro b
    | lift_lets
    | split
    | (refine frame_of_eq (by assumption) ?_)
    | dsimp only

theorem hardFault_frame {mem : Nat} {unit : Nat} {addr : Nat} (hz : OnlyChanges F z s) (m1 : Part.out ∈ F) (m2 : Part.clk ∈ F) (m3 : Part.regs ∈ F) (m4 : Part.portA ∈ F) (m5 : Part.portB ∈ F) (m6 : Part.evr ∈ F) (m14 : Part.dram ∈ F) (m15 : Part.phc ∈ F) (m18 : Part.jrc ∈ F) (m22 : Part.mem ∈ F) : OnlyChanges F z (hardFault s mem unit addr) := by
  unfold hardFault
  repeat' first
    | with_reducible assumption
    | (with_reducible apply raise_frame)
    | (with_reducible apply wr_frame)
    | (with_reducible apply retirePage_frame)
    | (with_reducible apply retireLine_frame)
    | (with_reducible apply recFail_frame)
    | (with_reducible apply retireRow_frame)
    | (with_reducible apply frame_ite)
    | (intro b; refine (fun (_ : OnlyChanges F z b) => ?_) ?_; clear_value b; swap; dsimp only [b]; swap)
    | (intro b; clear_value b)
    | intro b
    | lift_lets
    | split

theorem offender_frame {mem : Nat} {unit : Nat} {addr : Nat} (hz : OnlyChanges F z s) (m1 : Part.out ∈ F) (m2 : Part.clk ∈ F) (m3 : Part.regs ∈ F) (m4 : Part.portA ∈ F) (m5 : Part.portB ∈ F) (m6 : Part.evr ∈ F) (m14 : Part.dram ∈ F) (m15 : Part.phc ∈ F) (m18 : Part.jrc ∈ F) (m22 : Part.mem ∈ F) : OnlyChanges F z (offender s mem unit addr) := by
  unfold offender
  repeat' first
    | with_reducible assumption
    | (with_reducible apply hardFault_frame)
    | (with_reducible apply updMem_frame)
    | (with_reducible apply satAdd_frame)
    | (with_reducible apply frame_ite)
    | (intro b; refine (fun (_ : OnlyChanges F z b) => ?_) ?_; clear_value b; swap; dsimp only [b]; swap)
    | (intro b; clear_value b)
    | intro b
    | lift_lets
    | split
    | dsimp only

theorem declareFailed_frame {i : Nat} {pos : Nat} (hz : OnlyChanges F z s) (m1 : Part.out ∈ F) (m3 : Part.regs ∈ F) (m4 : Part.portA ∈ F) (m5 : Part.portB ∈ F) (m6 : Part.evr ∈ F) (m18 : Part.jrc ∈ F) (m22 : Part.mem ∈ F) : OnlyChanges F z (declareFailed s i pos) := by
  unfold declareFailed
  repeat' first
    | with_reducible assumption
    | (with_reducible apply wr_frame)
    | (with_reducible apply orReg_frame)
    | (with_reducible apply wrField_frame)
    | (with_reducible apply addRepair_frame)
    | (with_reducible apply raise_frame)
    | (with_reducible apply frame_ite)
    | (intro b; refine (fun (_ : OnlyChanges F z b) => ?_) ?_; clear_value b; swap; dsimp only [b]; swap)
    | (intro b; clear_value b)
    | intro b
    | lift_lets
    | split

theorem deviceHit_frame {unit : Nat} {pos : Nat} (hz : OnlyChanges F z s) (m1 : Part.out ∈ F) (m3 : Part.regs ∈ F) (m4 : Part.portA ∈ F) (m5 : Part.portB ∈ F) (m6 : Part.evr ∈ F) (m18 : Part.jrc ∈ F) (m22 : Part.mem ∈ F) : OnlyChanges F z (deviceHit s unit pos) := by
  unfold deviceHit
  repeat' first
    | with_reducible assumption
    | (with_reducible apply updMem_frame)
    | (with_reducible apply declareFailed_frame)
    | (with_reducible apply frame_ite)
    | (with_reducible apply frame_ite_fst)
    | (intro b; refine (fun (_ : OnlyChanges F z b) => ?_) ?_; clear_value b; swap; dsimp only [b]; swap)
    | (intro b; refine (fun (_ : OnlyChanges F z b.1) => ?_) ?_; clear_value b; swap; dsimp only [b]; swap)
    | (intro b; clear_value b)
    | intro b
    | lift_lets
    | split

theorem dramReport_frame {unit : Nat} {r : UnitRead} (hz : OnlyChanges F z s) (m1 : Part.out ∈ F) (m2 : Part.clk ∈ F) (m3 : Part.regs ∈ F) (m4 : Part.portA ∈ F) (m5 : Part.portB ∈ F) (m6 : Part.evr ∈ F) (m14 : Part.dram ∈ F) (m15 : Part.phc ∈ F) (m18 : Part.jrc ∈ F) (m21 : Part.pat ∈ F) (m22 : Part.mem ∈ F) : OnlyChanges F z (dramReport s unit r) := by
  unfold dramReport
  repeat' first
    | with_reducible assumption
    | (with_reducible apply updMem_frame)
    | (with_reducible apply offender_frame)
    | (with_reducible apply deviceHit_frame)
    | (with_reducible apply satAdd_frame)
    | (with_reducible apply patrolUnit_frame)
    | (with_reducible apply drcReport_frame)
    | (with_reducible apply frame_ite)
    | (intro b; refine (fun (_ : OnlyChanges F z b) => ?_) ?_; clear_value b; swap; dsimp only [b]; swap)
    | (intro b; clear_value b)
    | intro b
    | lift_lets
    | split
    | dsimp only

theorem dramRead_frame {unit : Nat} {r : UnitRead} (hz : OnlyChanges F z s) (m1 : Part.out ∈ F) (m2 : Part.clk ∈ F) (m3 : Part.regs ∈ F) (m4 : Part.portA ∈ F) (m5 : Part.portB ∈ F) (m6 : Part.evr ∈ F) (m14 : Part.dram ∈ F) (m15 : Part.phc ∈ F) (m18 : Part.jrc ∈ F) (m21 : Part.pat ∈ F) (m22 : Part.mem ∈ F) : OnlyChanges F z (dramRead s unit r) := by
  unfold dramRead
  repeat' first
    | with_reducible assumption
    | (with_reducible apply dramReport_frame)
    | (with_reducible apply lostLine_frame)
    | (with_reducible apply frame_ite)
    | (intro b; refine (fun (_ : OnlyChanges F z b) => ?_) ?_; clear_value b; swap; dsimp only [b]; swap)
    | (intro b; clear_value b)
    | intro b
    | lift_lets
    | split

theorem zeroUnit_frame {u : Nat} (hz : OnlyChanges F z s) (m14 : Part.dram ∈ F) (m22 : Part.mem ∈ F) : OnlyChanges F z (zeroUnit s u) := by
  unfold zeroUnit
  repeat' first
    | with_reducible assumption
    | (with_reducible apply updMem_frame)
    | (fail_if_no_progress with_reducible refine frame_upd ?_)

theorem zeroFill_frame (hz : OnlyChanges F z s) (m3 : Part.regs ∈ F) (m14 : Part.dram ∈ F) (m22 : Part.mem ∈ F) : OnlyChanges F z (zeroFill s) := by
  unfold zeroFill
  repeat' first
    | with_reducible assumption
    | (with_reducible apply trig54_frame)
    | (with_reducible apply updMem_frame)
    | (intro b; refine (fun (_ : OnlyChanges F z b) => ?_) ?_; clear_value b; swap; dsimp only [b]; swap)
    | (intro b; refine (fun (_ : OnlyChanges F z b.1) => ?_) ?_; clear_value b; swap; dsimp only [b]; swap)
    | (intro b; clear_value b)
    | intro b
    | lift_lets
    | (fail_if_no_progress with_reducible refine frame_upd ?_)

theorem zeroLate_frame {lo : Nat} {hi : Nat} (hz : OnlyChanges F z s) (m2 : Part.clk ∈ F) (m14 : Part.dram ∈ F) (m22 : Part.mem ∈ F) : OnlyChanges F z (zeroLate s lo hi) := by
  unfold zeroLate
  repeat' first
    | with_reducible assumption
    | (with_reducible apply freshBelow_frame)
    | (with_reducible apply zeroUnit_frame)
    | (with_reducible apply frame_ite)
    | (with_reducible apply frame_ite_fst)
    | (with_reducible refine frame_foldl (fun x b hx => ?_) ?_)
    | (with_reducible refine frame_foldl_fst (fun x b hx => ?_) ?_)
    | (intro b; refine (fun (_ : OnlyChanges F z b) => ?_) ?_; clear_value b; swap; dsimp only [b]; swap)
    | (intro b; refine (fun (_ : OnlyChanges F z b.1) => ?_) ?_; clear_value b; swap; dsimp only [b]; swap)
    | (intro b; clear_value b)
    | intro b
    | lift_lets
    | split
    | (refine frame_of_eq (by assumption) ?_)
    | dsimp only

theorem zeroFillDone_frame (hz : OnlyChanges F z s) (m1 : Part.out ∈ F) (m2 : Part.clk ∈ F) (m3 : Part.regs ∈ F) (m4 : Part.portA ∈ F) (m5 : Part.portB ∈ F) (m6 : Part.evr ∈ F) (m14 : Part.dram ∈ F) (m22 : Part.mem ∈ F) : OnlyChanges F z (zeroFillDone s) := by
  unfold zeroFillDone
  repeat' first
    | with_reducible assumption
    | (with_reducible apply zeroLate_frame)
    | (with_reducible apply updMem_frame)
    | (with_reducible apply raise_frame)
    | (with_reducible apply orReg_frame)
    | (with_reducible apply wrField_frame)
    | (with_reducible apply frame_ite)
    | (intro b; refine (fun (_ : OnlyChanges F z b) => ?_) ?_; clear_value b; swap; dsimp only [b]; swap)
    | (intro b; clear_value b)
    | intro b
    | lift_lets
    | split
    | dsimp only

theorem drawNonce_frame (hz : OnlyChanges F z s) (m2 : Part.clk ∈ F) (m22 : Part.mem ∈ F) : OnlyChanges F z (drawNonce s) := by
  unfold drawNonce
  repeat' first
    | with_reducible assumption
    | (with_reducible apply freshBelow_frame)
    | (with_reducible apply updMem_frame)
    | (intro b; refine (fun (_ : OnlyChanges F z b) => ?_) ?_; clear_value b; swap; dsimp only [b]; swap)
    | (intro b; refine (fun (_ : OnlyChanges F z b.1) => ?_) ?_; clear_value b; swap; dsimp only [b]; swap)
    | (intro b; clear_value b)
    | intro b
    | lift_lets
    | split
    | (refine frame_of_eq (by assumption) ?_)
    | dsimp only

theorem mergeRmw_frame {e : MergeEnt} {r : UnitRead} (hz : OnlyChanges F z s) (m1 : Part.out ∈ F) (m2 : Part.clk ∈ F) (m3 : Part.regs ∈ F) (m4 : Part.portA ∈ F) (m5 : Part.portB ∈ F) (m6 : Part.evr ∈ F) (m14 : Part.dram ∈ F) (m15 : Part.phc ∈ F) (m18 : Part.jrc ∈ F) (m21 : Part.pat ∈ F) (m22 : Part.mem ∈ F) : OnlyChanges F z (mergeRmw s e r) := by
  unfold mergeRmw
  repeat' first
    | with_reducible assumption
    | (with_reducible apply dramRead_frame)
    | (with_reducible apply satAdd_frame)
    | (with_reducible apply putDramLine_frame)
    | (with_reducible apply updMem_frame)
    | (with_reducible apply frame_ite)
    | (intro b; refine (fun (_ : OnlyChanges F z b) => ?_) ?_; clear_value b; swap; dsimp only [b]; swap)
    | (intro b; clear_value b)
    | intro b
    | lift_lets
    | split

theorem flushEnt_frame {e : MergeEnt} {r : optParam UnitRead { }} (hz : OnlyChanges F z s) (m1 : Part.out ∈ F) (m2 : Part.clk ∈ F) (m3 : Part.regs ∈ F) (m4 : Part.portA ∈ F) (m5 : Part.portB ∈ F) (m6 : Part.evr ∈ F) (m14 : Part.dram ∈ F) (m15 : Part.phc ∈ F) (m18 : Part.jrc ∈ F) (m21 : Part.pat ∈ F) (m22 : Part.mem ∈ F) : OnlyChanges F z (flushEnt s e r) := by
  unfold flushEnt
  repeat' first
    | with_reducible assumption
    | (with_reducible apply phcRequest_frame)
    | (with_reducible apply putDramLine_frame)
    | (with_reducible apply mergeRmw_frame)
    | (with_reducible apply frame_ite)
    | split

theorem dropEnt_frame {line : Nat} (hz : OnlyChanges F z s) (m22 : Part.mem ∈ F) : OnlyChanges F z (dropEnt s line) := by
  unfold dropEnt
  repeat' first
    | with_reducible assumption
    | (with_reducible apply updMem_frame)

theorem flushOne_frame {line : Nat} (hz : OnlyChanges F z s) (m1 : Part.out ∈ F) (m2 : Part.clk ∈ F) (m3 : Part.regs ∈ F) (m4 : Part.portA ∈ F) (m5 : Part.portB ∈ F) (m6 : Part.evr ∈ F) (m14 : Part.dram ∈ F) (m15 : Part.phc ∈ F) (m18 : Part.jrc ∈ F) (m21 : Part.pat ∈ F) (m22 : Part.mem ∈ F) : OnlyChanges F z (flushOne s line) := by
  unfold flushOne
  repeat' first
    | with_reducible assumption
    | (with_reducible apply flushEnt_frame)
    | (with_reducible apply dropEnt_frame)
    | split
    | dsimp only

theorem flushLine_frame {line : Nat} (hz : OnlyChanges F z s) (m1 : Part.out ∈ F) (m2 : Part.clk ∈ F) (m3 : Part.regs ∈ F) (m4 : Part.portA ∈ F) (m5 : Part.portB ∈ F) (m6 : Part.evr ∈ F) (m14 : Part.dram ∈ F) (m15 : Part.phc ∈ F) (m18 : Part.jrc ∈ F) (m21 : Part.pat ∈ F) (m22 : Part.mem ∈ F) : OnlyChanges F z (flushLine s line) := by
  unfold flushLine
  repeat' first
    | with_reducible assumption
    | (with_reducible apply flushOne_frame)
    | (with_reducible apply frame_ite)
    | (with_reducible refine frame_foldl (fun x b hx => ?_) ?_)
    | split

theorem clientAccess_frame {r : LineReq} (hz : OnlyChanges F z s) (m1 : Part.out ∈ F) (m2 : Part.clk ∈ F) (m3 : Part.regs ∈ F) (m4 : Part.portA ∈ F) (m5 : Part.portB ∈ F) (m6 : Part.evr ∈ F) (m14 : Part.dram ∈ F) (m15 : Part.phc ∈ F) (m18 : Part.jrc ∈ F) (m21 : Part.pat ∈ F) (m22 : Part.mem ∈ F) : OnlyChanges F z (clientAccess s r) := by
  unfold clientAccess
  repeat' first
    | with_reducible assumption
    | (with_reducible apply phcRequest_frame)
    | (with_reducible apply flushLine_frame)
    | (with_reducible apply updMem_frame)
    | (with_reducible apply frame_ite)
    | (intro b; refine (fun (_ : OnlyChanges F z b) => ?_) ?_; clear_value b; swap; dsimp only [b]; swap)
    | (intro b; clear_value b)
    | intro b
    | lift_lets
    | split
    | dsimp only

theorem clientPair_frame {a : LineReq} {b : LineReq} (hz : OnlyChanges F z s) (m1 : Part.out ∈ F) (m2 : Part.clk ∈ F) (m3 : Part.regs ∈ F) (m4 : Part.portA ∈ F) (m5 : Part.portB ∈ F) (m6 : Part.evr ∈ F) (m14 : Part.dram ∈ F) (m15 : Part.phc ∈ F) (m18 : Part.jrc ∈ F) (m21 : Part.pat ∈ F) (m22 : Part.mem ∈ F) : OnlyChanges F z (clientPair s a b) := by
  unfold clientPair
  repeat' first
    | with_reducible assumption
    | (with_reducible apply clientAccess_frame)
    | (with_reducible apply updMem_frame)
    | (with_reducible apply flushLine_frame)
    | (with_reducible apply frame_ite)
    | (intro b; refine (fun (_ : OnlyChanges F z b) => ?_) ?_; clear_value b; swap; dsimp only [b]; swap)
    | (with_reducible apply hfn)
    | (intro b; refine (fun (hfn : ∀ x, OnlyChanges F z x → OnlyChanges F z (b x)) => ?_) ?_; clear_value b; swap; (intro x hx; dsimp only [b]); swap)
    | (intro b; refine (fun (hfn : ∀ x y, OnlyChanges F z x → OnlyChanges F z (b x y)) => ?_) ?_; clear_value b; swap; (intro x y hx; dsimp only [b]); swap)
    | (with_reducible apply hfc)
    | (with_reducible apply hfd)
    | (intro b; refine (fun (hfc : ∀ x, OnlyChanges F z (b x)) => ?_) ?_; clear_value b; swap; (intro x; dsimp only [b]); swap)
    | (intro b; refine (fun (hfd : ∀ x y, OnlyChanges F z (b x y)) => ?_) ?_; clear_value b; swap; (intro x y; dsimp only [b]); swap)
    | (intro b; clear_value b)
    | intro b
    | lift_lets
    | split

theorem clientAccesses_frame {l : List LineReq} (hz : OnlyChanges F z s) (m1 : Part.out ∈ F) (m2 : Part.clk ∈ F) (m3 : Part.regs ∈ F) (m4 : Part.portA ∈ F) (m5 : Part.portB ∈ F) (m6 : Part.evr ∈ F) (m14 : Part.dram ∈ F) (m15 : Part.phc ∈ F) (m18 : Part.jrc ∈ F) (m21 : Part.pat ∈ F) (m22 : Part.mem ∈ F)
    : OnlyChanges F z (clientAccesses s l) := by
  induction s, l using clientAccesses.induct with
  | case1 s => exact hz
  | case2 s a =>
    unfold clientAccesses
    repeat' first
      | with_reducible assumption
      | (with_reducible apply clientAccess_frame)
  | case3 s a b r h ih =>
    unfold clientAccesses
    rw [if_pos h]
    refine ih ?_
    repeat' first
      | with_reducible assumption
      | (with_reducible apply clientPair_frame)
  | case4 s a b r h ih =>
    unfold clientAccesses
    rw [if_neg h]
    refine ih ?_
    repeat' first
      | with_reducible assumption
      | (with_reducible apply clientAccess_frame)

theorem mergeAge_frame {line : Nat} {r : UnitRead} (hz : OnlyChanges F z s) (m1 : Part.out ∈ F) (m2 : Part.clk ∈ F) (m3 : Part.regs ∈ F) (m4 : Part.portA ∈ F) (m5 : Part.portB ∈ F) (m6 : Part.evr ∈ F) (m14 : Part.dram ∈ F) (m15 : Part.phc ∈ F) (m18 : Part.jrc ∈ F) (m21 : Part.pat ∈ F) (m22 : Part.mem ∈ F) : OnlyChanges F z (mergeAge s line r) := by
  unfold mergeAge
  repeat' first
    | with_reducible assumption
    | (with_reducible apply flushOne_frame)
    | (with_reducible apply flushEnt_frame)
    | (with_reducible apply dropEnt_frame)
    | (with_reducible refine frame_foldl (fun x b hx => ?_) ?_)
    | split
    | dsimp only

theorem directWrite_frame {a : Nat} {bytes : List Byte} (hz : OnlyChanges F z s) (m1 : Part.out ∈ F) (m2 : Part.clk ∈ F) (m3 : Part.regs ∈ F) (m4 : Part.portA ∈ F) (m5 : Part.portB ∈ F) (m6 : Part.evr ∈ F) (m14 : Part.dram ∈ F) (m15 : Part.phc ∈ F) (m18 : Part.jrc ∈ F) (m21 : Part.pat ∈ F) (m22 : Part.mem ∈ F) : OnlyChanges F z (directWrite s a bytes) := by
  unfold directWrite
  repeat' first
    | with_reducible assumption
    | (with_reducible apply flushLine_frame)
    | (with_reducible apply putDramLine_frame)
    | (with_reducible apply updMem_frame)
    | (with_reducible apply frame_ite)
    | (with_reducible refine frame_foldl (fun x b hx => ?_) ?_)
    | (intro b; refine (fun (_ : OnlyChanges F z b) => ?_) ?_; clear_value b; swap; dsimp only [b]; swap)
    | (intro b; clear_value b)
    | intro b
    | lift_lets
    | split

theorem directRead_frame {a : Nat} {n : Nat} (hz : OnlyChanges F z s) (m1 : Part.out ∈ F) (m2 : Part.clk ∈ F) (m3 : Part.regs ∈ F) (m4 : Part.portA ∈ F) (m5 : Part.portB ∈ F) (m6 : Part.evr ∈ F) (m14 : Part.dram ∈ F) (m15 : Part.phc ∈ F) (m18 : Part.jrc ∈ F) (m21 : Part.pat ∈ F) (m22 : Part.mem ∈ F) : OnlyChanges F z (directRead s a n).1 := by
  unfold directRead
  repeat' first
    | with_reducible assumption
    | (with_reducible apply dramRead_frame)
    | (with_reducible apply flushLine_frame)
    | (with_reducible apply frame_ite)
    | (with_reducible apply frame_ite_fst)
    | (with_reducible refine frame_foldl (fun x b hx => ?_) ?_)
    | (with_reducible refine frame_foldl_fst (fun x b hx => ?_) ?_)
    | (intro b; refine (fun (_ : OnlyChanges F z b) => ?_) ?_; clear_value b; swap; dsimp only [b]; swap)
    | (intro b; refine (fun (_ : OnlyChanges F z b.1) => ?_) ?_; clear_value b; swap; dsimp only [b]; swap)
    | (intro b; clear_value b)
    | intro b
    | lift_lets
    | split
    | dsimp only

theorem scrubStart_frame {mem : Nat} {unit : Nat} {base : Nat} {len : Nat} (hz : OnlyChanges F z s) (m3 : Part.regs ∈ F) (m22 : Part.mem ∈ F) : OnlyChanges F z (scrubStart s mem unit base len) := by
  unfold scrubStart
  repeat' first
    | with_reducible assumption
    | (with_reducible apply wrField_frame)
    | (with_reducible apply trig54_frame)
    | (with_reducible apply updMem_frame)
    | (intro b; refine (fun (_ : OnlyChanges F z b) => ?_) ?_; clear_value b; swap; dsimp only [b]; swap)
    | (intro b; refine (fun (_ : OnlyChanges F z b.1) => ?_) ?_; clear_value b; swap; dsimp only [b]; swap)
    | (intro b; clear_value b)
    | intro b
    | lift_lets

theorem scrubStopReq_frame (hz : OnlyChanges F z s) (m22 : Part.mem ∈ F) : OnlyChanges F z (scrubStopReq s) := by
  unfold scrubStopReq
  repeat' first
    | with_reducible assumption
    | (with_reducible apply updMem_frame)
    | (with_reducible apply frame_ite)
    | split

theorem ttFetch_frame {addr : Nat} (hz : OnlyChanges F z s) (m1 : Part.out ∈ F) (m2 : Part.clk ∈ F) (m3 : Part.regs ∈ F) (m4 : Part.portA ∈ F) (m5 : Part.portB ∈ F) (m6 : Part.evr ∈ F) (m14 : Part.dram ∈ F) (m15 : Part.phc ∈ F) (m18 : Part.jrc ∈ F) (m21 : Part.pat ∈ F) (m22 : Part.mem ∈ F) : OnlyChanges F z (ttFetch s addr) := by
  unfold ttFetch
  repeat' first
    | with_reducible assumption
    | (with_reducible apply clientAccess_frame)

theorem ttStore_frame {addr : Nat} {e : TtEntry} (hz : OnlyChanges F z s) (m1 : Part.out ∈ F) (m2 : Part.clk ∈ F) (m3 : Part.regs ∈ F) (m4 : Part.portA ∈ F) (m5 : Part.portB ∈ F) (m6 : Part.evr ∈ F) (m14 : Part.dram ∈ F) (m15 : Part.phc ∈ F) (m18 : Part.jrc ∈ F) (m21 : Part.pat ∈ F) (m22 : Part.mem ∈ F) : OnlyChanges F z (ttStore s addr e) := by
  unfold ttStore
  repeat' first
    | with_reducible assumption
    | (with_reducible apply updJrc_frame)
    | (with_reducible apply clientAccess_frame)
    | (with_reducible apply frame_ite)
    | (intro b; refine (fun (_ : OnlyChanges F z b) => ?_) ?_; clear_value b; swap; dsimp only [b]; swap)
    | (intro b; clear_value b)
    | intro b
    | lift_lets
    | split

theorem ttUse_frame {lun : Nat} {block : Nat} {page : Nat} (hz : OnlyChanges F z s) (m1 : Part.out ∈ F) (m2 : Part.clk ∈ F) (m3 : Part.regs ∈ F) (m4 : Part.portA ∈ F) (m5 : Part.portB ∈ F) (m6 : Part.evr ∈ F) (m14 : Part.dram ∈ F) (m15 : Part.phc ∈ F) (m18 : Part.jrc ∈ F) (m21 : Part.pat ∈ F) (m22 : Part.mem ∈ F) : OnlyChanges F z (ttUse s lun block page).1 := by
  unfold ttUse
  repeat' first
    | with_reducible assumption
    | (with_reducible apply ttFetch_frame)
    | (with_reducible apply ttStore_frame)
    | (with_reducible apply frame_ite)
    | (with_reducible apply frame_ite_fst)
    | (intro b; refine (fun (_ : OnlyChanges F z b) => ?_) ?_; clear_value b; swap; dsimp only [b]; swap)
    | (intro b; refine (fun (_ : OnlyChanges F z b.1) => ?_) ?_; clear_value b; swap; dsimp only [b]; swap)
    | (intro b; clear_value b)
    | intro b
    | lift_lets
    | split
    | dsimp only

theorem ttTracked_frame {lun : Nat} {block : Nat} {page : Nat} (hz : OnlyChanges F z s) (m1 : Part.out ∈ F) (m2 : Part.clk ∈ F) (m3 : Part.regs ∈ F) (m4 : Part.portA ∈ F) (m5 : Part.portB ∈ F) (m6 : Part.evr ∈ F) (m14 : Part.dram ∈ F) (m15 : Part.phc ∈ F) (m18 : Part.jrc ∈ F) (m21 : Part.pat ∈ F) (m22 : Part.mem ∈ F) : OnlyChanges F z (ttTracked s lun block page).1 := by
  unfold ttTracked
  repeat' first
    | with_reducible assumption
    | (with_reducible apply ttUse_frame)
    | (intro b; refine (fun (_ : OnlyChanges F z b) => ?_) ?_; clear_value b; swap; dsimp only [b]; swap)
    | (intro b; refine (fun (_ : OnlyChanges F z b.1) => ?_) ?_; clear_value b; swap; dsimp only [b]; swap)
    | (intro b; clear_value b)
    | intro b
    | lift_lets
    | split
    | (refine frame_of_eq (by assumption) ?_)
    | dsimp only

theorem ttUpdate_frame {lun : Nat} {block : Nat} {page : Nat} {decoded : Bool} {st : ReadStats} (hz : OnlyChanges F z s) (m1 : Part.out ∈ F) (m2 : Part.clk ∈ F) (m3 : Part.regs ∈ F) (m4 : Part.portA ∈ F) (m5 : Part.portB ∈ F) (m6 : Part.evr ∈ F) (m14 : Part.dram ∈ F) (m15 : Part.phc ∈ F) (m18 : Part.jrc ∈ F) (m21 : Part.pat ∈ F) (m22 : Part.mem ∈ F) : OnlyChanges F z (ttUpdate s lun block page decoded st) := by
  unfold ttUpdate
  repeat' first
    | with_reducible assumption
    | (with_reducible apply ttUse_frame)
    | (with_reducible apply ttStore_frame)
    | (with_reducible apply ttFetch_frame)
    | (with_reducible apply dstCauseSet_frame)
    | (with_reducible apply satAdd_frame)
    | (with_reducible apply frame_ite)
    | (with_reducible apply frame_ite_fst)
    | (with_reducible refine frame_foldl (fun x b hx => ?_) ?_)
    | (with_reducible refine frame_foldl_fst (fun x b hx => ?_) ?_)
    | (intro b; refine (fun (_ : OnlyChanges F z b) => ?_) ?_; clear_value b; swap; dsimp only [b]; swap)
    | (intro b; refine (fun (_ : OnlyChanges F z b.1) => ?_) ?_; clear_value b; swap; dsimp only [b]; swap)
    | (with_reducible apply hfn)
    | (intro b; refine (fun (hfn : ∀ x, OnlyChanges F z x → OnlyChanges F z (b x)) => ?_) ?_; clear_value b; swap; (intro x hx; dsimp only [b]); swap)
    | (intro b; refine (fun (hfn : ∀ x y, OnlyChanges F z x → OnlyChanges F z (b x y)) => ?_) ?_; clear_value b; swap; (intro x y hx; dsimp only [b]); swap)
    | (with_reducible apply hfc)
    | (with_reducible apply hfd)
    | (intro b; refine (fun (hfc : ∀ x, OnlyChanges F z (b x)) => ?_) ?_; clear_value b; swap; (intro x; dsimp only [b]); swap)
    | (intro b; refine (fun (hfd : ∀ x y, OnlyChanges F z (b x y)) => ?_) ?_; clear_value b; swap; (intro x y; dsimp only [b]); swap)
    | (intro b; clear_value b)
    | intro b
    | lift_lets
    | split
    | (refine frame_of_eq (by assumption) ?_)
    | (fail_if_no_progress with_reducible refine frame_upd ?_)
    | dsimp only

theorem ttShifted_frame {lun : Nat} {block : Nat} {page : Nat} {sig : ℤ} {j : Nat} (hz : OnlyChanges F z s) (m1 : Part.out ∈ F) (m2 : Part.clk ∈ F) (m3 : Part.regs ∈ F) (m4 : Part.portA ∈ F) (m5 : Part.portB ∈ F) (m6 : Part.evr ∈ F) (m14 : Part.dram ∈ F) (m15 : Part.phc ∈ F) (m18 : Part.jrc ∈ F) (m21 : Part.pat ∈ F) (m22 : Part.mem ∈ F) : OnlyChanges F z (ttShifted s lun block page sig j).1 := by
  unfold ttShifted
  repeat' first
    | with_reducible assumption
    | (with_reducible apply ttUse_frame)
    | (intro b; refine (fun (_ : OnlyChanges F z b) => ?_) ?_; clear_value b; swap; dsimp only [b]; swap)
    | (intro b; refine (fun (_ : OnlyChanges F z b.1) => ?_) ?_; clear_value b; swap; dsimp only [b]; swap)
    | (intro b; clear_value b)
    | intro b
    | lift_lets
    | split
    | (refine frame_of_eq (by assumption) ?_)
    | dsimp only

theorem ttHalfShift_frame {lun : Nat} {block : Nat} {page : Nat} {tried : List (Nat × ℤ × ℤ)} (hz : OnlyChanges F z s) (m1 : Part.out ∈ F) (m2 : Part.clk ∈ F) (m3 : Part.regs ∈ F) (m4 : Part.portA ∈ F) (m5 : Part.portB ∈ F) (m6 : Part.evr ∈ F) (m14 : Part.dram ∈ F) (m15 : Part.phc ∈ F) (m18 : Part.jrc ∈ F) (m21 : Part.pat ∈ F) (m22 : Part.mem ∈ F) : OnlyChanges F z (ttHalfShift s lun block page tried) := by
  unfold ttHalfShift
  repeat' first
    | with_reducible assumption
    | (with_reducible apply ttUse_frame)
    | (with_reducible apply ttStore_frame)
    | (with_reducible refine frame_foldl (fun x b hx => ?_) ?_)
    | (with_reducible refine frame_foldl_fst (fun x b hx => ?_) ?_)
    | (intro b; refine (fun (_ : OnlyChanges F z b) => ?_) ?_; clear_value b; swap; dsimp only [b]; swap)
    | (intro b; refine (fun (_ : OnlyChanges F z b.1) => ?_) ?_; clear_value b; swap; dsimp only [b]; swap)
    | (with_reducible apply hfn)
    | (intro b; refine (fun (hfn : ∀ x, OnlyChanges F z x → OnlyChanges F z (b x)) => ?_) ?_; clear_value b; swap; (intro x hx; dsimp only [b]); swap)
    | (intro b; refine (fun (hfn : ∀ x y, OnlyChanges F z x → OnlyChanges F z (b x y)) => ?_) ?_; clear_value b; swap; (intro x y hx; dsimp only [b]); swap)
    | (with_reducible apply hfc)
    | (with_reducible apply hfd)
    | (intro b; refine (fun (hfc : ∀ x, OnlyChanges F z (b x)) => ?_) ?_; clear_value b; swap; (intro x; dsimp only [b]); swap)
    | (intro b; refine (fun (hfd : ∀ x y, OnlyChanges F z (b x y)) => ?_) ?_; clear_value b; swap; (intro x y; dsimp only [b]); swap)
    | (intro b; clear_value b)
    | intro b
    | lift_lets
    | split
    | (refine frame_of_eq (by assumption) ?_)
    | dsimp only

theorem modCmd_frame {id : Nat} {f : Cmd → Cmd} (hz : OnlyChanges F z s) (m19 : Part.srt ∈ F) : OnlyChanges F z (modCmd s id f) := by
  unfold modCmd
  repeat' first
    | with_reducible assumption
    | (with_reducible apply updSrt_frame)
    | (with_reducible apply hf)

theorem dropCmd_frame {id : Nat} (hz : OnlyChanges F z s) (m19 : Part.srt ∈ F) : OnlyChanges F z (dropCmd s id) := by
  unfold dropCmd
  repeat' first
    | with_reducible assumption
    | (with_reducible apply updSrt_frame)

theorem hwm_frame (hz : OnlyChanges F z s) (m3 : Part.regs ∈ F) : OnlyChanges F z (hwm s) := by
  unfold hwm
  repeat' first
    | with_reducible assumption
    | (with_reducible apply wrField_frame)
    | (intro b; refine (fun (_ : OnlyChanges F z b) => ?_) ?_; clear_value b; swap; dsimp only [b]; swap)
    | (intro b; clear_value b)
    | intro b
    | lift_lets

theorem trkSettle_frame (hz : OnlyChanges F z s) (m3 : Part.regs ∈ F) : OnlyChanges F z (trkSettle s) := by
  unfold trkSettle
  repeat' first
    | with_reducible assumption
    | (with_reducible apply wrField_frame)
    | (with_reducible apply frame_ite)
    | split

theorem unpinCmd_frame {id : Nat} {pins : List Nat} (hz : OnlyChanges F z s) (m16 : Part.map ∈ F) (m17 : Part.flash ∈ F) (m18 : Part.jrc ∈ F) : OnlyChanges F z (unpinCmd s id pins) := by
  unfold unpinCmd
  repeat' first
    | with_reducible assumption
    | (with_reducible apply updMap_frame)
    | (with_reducible apply unpin_frame)
    | (with_reducible apply frame_ite)
    | (with_reducible refine frame_foldl (fun x b hx => ?_) ?_)
    | split

theorem settlePins_frame (hz : OnlyChanges F z s) (m16 : Part.map ∈ F) (m17 : Part.flash ∈ F) (m18 : Part.jrc ∈ F) : OnlyChanges F z (settlePins s) := by
  unfold settlePins
  repeat' first
    | with_reducible assumption
    | (with_reducible apply unpin_frame)
    | (with_reducible apply updMap_frame)
    | (with_reducible apply frame_ite)
    | (with_reducible apply frame_ite_fst)
    | (with_reducible refine frame_foldl (fun x b hx => ?_) ?_)
    | (with_reducible refine frame_foldl_fst (fun x b hx => ?_) ?_)
    | (intro b; refine (fun (_ : OnlyChanges F z b) => ?_) ?_; clear_value b; swap; dsimp only [b]; swap)
    | (intro b; refine (fun (_ : OnlyChanges F z b.1) => ?_) ?_; clear_value b; swap; dsimp only [b]; swap)
    | (intro b; clear_value b)
    | intro b
    | lift_lets
    | split

theorem deleteSettled_frame {q : Sqe} (hz : OnlyChanges F z s) (m1 : Part.out ∈ F) (m3 : Part.regs ∈ F) (m4 : Part.portA ∈ F) (m5 : Part.portB ∈ F) (m6 : Part.evr ∈ F) : OnlyChanges F z (deleteSettled s q) := by
  unfold deleteSettled
  repeat' first
    | with_reducible assumption
    | (with_reducible apply complete_frame)
    | (with_reducible apply modPort_frame)
    | (with_reducible apply frame_ite)
    | split
    | (fail_if_no_progress with_reducible refine frame_upd ?_)
    | dsimp only

theorem settlePressure_frame (hz : OnlyChanges F z s) (m16 : Part.map ∈ F) : OnlyChanges F z (settlePressure s) := by
  unfold settlePressure
  repeat' first
    | with_reducible assumption
    | (with_reducible apply updMap_frame)
    | (with_reducible apply frame_ite)
    | (intro b; refine (fun (_ : OnlyChanges F z b) => ?_) ?_; clear_value b; swap; dsimp only [b]; swap)
    | (intro b; clear_value b)
    | intro b
    | lift_lets
    | split

theorem endCmd_frame {id : Nat} {st : Status} {dw0 : optParam Nat 0} {lba : optParam Nat 0} {cs : optParam Nat 0} (hz : OnlyChanges F z s) (m1 : Part.out ∈ F) (m3 : Part.regs ∈ F) (m4 : Part.portA ∈ F) (m5 : Part.portB ∈ F) (m6 : Part.evr ∈ F) (m16 : Part.map ∈ F) (m17 : Part.flash ∈ F) (m18 : Part.jrc ∈ F) (m19 : Part.srt ∈ F) : OnlyChanges F z (endCmd s id st dw0 lba cs) := by
  unfold endCmd
  repeat' first
    | with_reducible assumption
    | (with_reducible apply dropHolder_frame)
    | (with_reducible apply dropCmd_frame)
    | (with_reducible apply updMap_frame)
    | (with_reducible apply unpinCmd_frame)
    | (with_reducible apply trkSettle_frame)
    | (with_reducible apply settlePressure_frame)
    | (with_reducible apply raise_frame)
    | (with_reducible apply modPort_frame)
    | (with_reducible apply deleteSettled_frame)
    | (with_reducible apply complete_frame)
    | (with_reducible apply frame_ite)
    | (intro b; refine (fun (_ : OnlyChanges F z b) => ?_) ?_; clear_value b; swap; dsimp only [b]; swap)
    | (intro b; clear_value b)
    | intro b
    | lift_lets
    | split
    | (fail_if_no_progress with_reducible refine frame_upd ?_)
    | dsimp only

theorem failFuel_frame {n : Nat} {id : Nat} {st : Status} {lba cs : Nat} (h : OnlyChanges F z s) (m1 : Part.out ∈ F) (m3 : Part.regs ∈ F) (m4 : Part.portA ∈ F) (m5 : Part.portB ∈ F) (m6 : Part.evr ∈ F) (m16 : Part.map ∈ F) (m17 : Part.flash ∈ F) (m18 : Part.jrc ∈ F) (m19 : Part.srt ∈ F)
    : OnlyChanges F z (failFuel n s id st lba cs) := by
  induction n generalizing s id st lba cs with
  | zero => exact h
  | succ n ih =>
    unfold failFuel
    repeat' first
      | with_reducible assumption
      | (with_reducible apply ih)
      | (with_reducible apply endCmd_frame)
      | (with_reducible apply frame_ite)
      | (with_reducible apply frame_ite_fst)
      | (with_reducible refine frame_foldl (fun x b hx => ?_) ?_)
      | (with_reducible refine frame_foldl_fst (fun x b hx => ?_) ?_)
      | (intro b; refine (fun (_ : OnlyChanges F z b) => ?_) ?_; clear_value b; swap; dsimp only [b]; swap)
      | (intro b; refine (fun (_ : OnlyChanges F z b.1) => ?_) ?_; clear_value b; swap; dsimp only [b]; swap)
      | (with_reducible apply hfn)
      | (with_reducible apply hf)
      | (intro b; refine (fun (hfn : ∀ x, OnlyChanges F z x → OnlyChanges F z (b x)) => ?_) ?_; clear_value b; swap; (intro x hx; dsimp only [b]); swap)
      | (intro b; refine (fun (hfn : ∀ x y, OnlyChanges F z x → OnlyChanges F z (b x y)) => ?_) ?_; clear_value b; swap; (intro x y hx; dsimp only [b]); swap)
      | (with_reducible apply hfc)
      | (with_reducible apply hfd)
      | (intro b; refine (fun (hfc : ∀ x, OnlyChanges F z (b x)) => ?_) ?_; clear_value b; swap; (intro x; dsimp only [b]); swap)
      | (intro b; refine (fun (hfd : ∀ x y, OnlyChanges F z (b x y)) => ?_) ?_; clear_value b; swap; (intro x y; dsimp only [b]); swap)
      | (intro b; clear_value b)
      | intro b
      | lift_lets
      | split
      | (refine frame_of_eq (by assumption) ?_)
      | (fail_if_no_progress with_reducible refine frame_upd ?_)
      | dsimp only

theorem failCmd_frame {id : Nat} {st : Status} {lba : optParam Nat 0} {cs : optParam Nat 0} (hz : OnlyChanges F z s) (m1 : Part.out ∈ F) (m3 : Part.regs ∈ F) (m4 : Part.portA ∈ F) (m5 : Part.portB ∈ F) (m6 : Part.evr ∈ F) (m16 : Part.map ∈ F) (m17 : Part.flash ∈ F) (m18 : Part.jrc ∈ F) (m19 : Part.srt ∈ F) : OnlyChanges F z (failCmd s id st lba cs) := by
  unfold failCmd
  repeat' first
    | with_reducible assumption
    | (with_reducible apply failFuel_frame)

theorem inProgressEnds_frame {id : Nat} {c : Cmd} {st : Status} (hz : OnlyChanges F z s) (m1 : Part.out ∈ F) (m3 : Part.regs ∈ F) (m4 : Part.portA ∈ F) (m5 : Part.portB ∈ F) (m6 : Part.evr ∈ F) (m16 : Part.map ∈ F) (m17 : Part.flash ∈ F) (m18 : Part.jrc ∈ F) (m19 : Part.srt ∈ F) : OnlyChanges F z (inProgressEnds s id c st) := by
  unfold inProgressEnds
  repeat' first
    | with_reducible assumption
    | (with_reducible apply failCmd_frame)
    | (with_reducible refine frame_foldl (fun x b hx => ?_) ?_)
    | (with_reducible refine frame_foldl_fst (fun x b hx => ?_) ?_)
    | split
    | dsimp only

theorem finishCmd_frame {id : Nat} {dw0 : optParam Nat 0} (hz : OnlyChanges F z s) (m1 : Part.out ∈ F) (m3 : Part.regs ∈ F) (m4 : Part.portA ∈ F) (m5 : Part.portB ∈ F) (m6 : Part.evr ∈ F) (m16 : Part.map ∈ F) (m17 : Part.flash ∈ F) (m18 : Part.jrc ∈ F) (m19 : Part.srt ∈ F) : OnlyChanges F z (finishCmd s id dw0) := by
  unfold finishCmd
  repeat' first
    | with_reducible assumption
    | (with_reducible apply endCmd_frame)
    | (with_reducible apply modCmd_frame)

theorem poolEvents_frame {free : Nat} {used : Nat} (hz : OnlyChanges F z s) (m1 : Part.out ∈ F) (m3 : Part.regs ∈ F) (m4 : Part.portA ∈ F) (m5 : Part.portB ∈ F) (m6 : Part.evr ∈ F) (m16 : Part.map ∈ F) : OnlyChanges F z (poolEvents s free used) := by
  unfold poolEvents
  repeat' first
    | with_reducible assumption
    | (with_reducible apply raise_frame)
    | (with_reducible apply settlePressure_frame)
    | (with_reducible apply frame_ite)
    | (intro b; refine (fun (_ : OnlyChanges F z b) => ?_) ?_; clear_value b; swap; dsimp only [b]; swap)
    | (intro b; clear_value b)
    | intro b
    | lift_lets
    | split

theorem takeBundle_frame {h : Holder} {nsid : Nat} {p : Nat} (hz : OnlyChanges F z s) (m1 : Part.out ∈ F) (m3 : Part.regs ∈ F) (m4 : Part.portA ∈ F) (m5 : Part.portB ∈ F) (m6 : Part.evr ∈ F) (m16 : Part.map ∈ F) : OnlyChanges F z (takeBundle s h nsid p) := by
  unfold takeBundle
  repeat' first
    | with_reducible assumption
    | (with_reducible apply poolEvents_frame)
    | (with_reducible apply updMap_frame)

theorem tryBundle_frame {h : Holder} {nsid : Nat} {p : Nat} {listed : Bool} (hz : OnlyChanges F z s) (m1 : Part.out ∈ F) (m3 : Part.regs ∈ F) (m4 : Part.portA ∈ F) (m5 : Part.portB ∈ F) (m6 : Part.evr ∈ F) (m16 : Part.map ∈ F) : OnlyChanges F z (tryBundle s h nsid p listed).1 := by
  unfold tryBundle
  repeat' first
    | with_reducible assumption
    | (with_reducible apply takeBundle_frame)
    | (with_reducible apply frame_ite)
    | (with_reducible apply frame_ite_fst)
    | (intro b; refine (fun (_ : OnlyChanges F z b) => ?_) ?_; clear_value b; swap; dsimp only [b]; swap)
    | (intro b; refine (fun (_ : OnlyChanges F z b.1) => ?_) ?_; clear_value b; swap; dsimp only [b]; swap)
    | (intro b; clear_value b)
    | intro b
    | lift_lets
    | split
    | dsimp only

theorem waitBundle_frame {w : Waiter} (hz : OnlyChanges F z s) (m1 : Part.out ∈ F) (m3 : Part.regs ∈ F) (m4 : Part.portA ∈ F) (m5 : Part.portB ∈ F) (m6 : Part.evr ∈ F) (m16 : Part.map ∈ F) : OnlyChanges F z (waitBundle s w) := by
  unfold waitBundle
  repeat' first
    | with_reducible assumption
    | (with_reducible apply raise_frame)
    | (with_reducible apply updMap_frame)
    | (with_reducible apply frame_ite)
    | split

theorem corrupt_frame {seg : Nat} (hz : OnlyChanges F z s) (m1 : Part.out ∈ F) (m3 : Part.regs ∈ F) (m4 : Part.portA ∈ F) (m5 : Part.portB ∈ F) (m6 : Part.evr ∈ F) (m15 : Part.phc ∈ F) : OnlyChanges F z (corrupt s seg) := by
  unfold corrupt
  repeat' first
    | with_reducible assumption
    | (with_reducible apply needRebuild_frame)
    | (with_reducible apply raise_frame)
    | (with_reducible apply frame_ite)
    | split

theorem corruptAny_frame {ls : List (Nat × Nat)} (hz : OnlyChanges F z s) (m1 : Part.out ∈ F) (m3 : Part.regs ∈ F) (m4 : Part.portA ∈ F) (m5 : Part.portB ∈ F) (m6 : Part.evr ∈ F) (m15 : Part.phc ∈ F) : OnlyChanges F z (corruptAny s ls) := by
  unfold corruptAny
  repeat' first
    | with_reducible assumption
    | (with_reducible apply corrupt_frame)
    | (with_reducible refine frame_foldl (fun x b hx => ?_) ?_)
    | (with_reducible refine frame_foldl_fst (fun x b hx => ?_) ?_)
    | split
    | dsimp only

theorem placeLetters_frame {id : Nat} {k : Nat} {p : Nat} {ls : List Nat} {pay : Nat → Nat → Payload} (hz : OnlyChanges F z s) (m16 : Part.map ∈ F) : OnlyChanges F z (placeLetters s id k p ls pay).1 := by
  unfold placeLetters
  repeat' first
    | with_reducible assumption
    | (with_reducible apply newPg_frame)
    | (with_reducible apply takeWsn_frame)
    | (with_reducible apply pgPut_frame)
    | (with_reducible apply pgClose_frame)
    | (with_reducible apply packPut_frame)
    | (with_reducible apply frame_ite)
    | (with_reducible apply frame_ite_fst)
    | (with_reducible refine frame_foldl (fun x b hx => ?_) ?_)
    | (with_reducible refine frame_foldl_fst (fun x b hx => ?_) ?_)
    | (intro b; refine (fun (_ : OnlyChanges F z b) => ?_) ?_; clear_value b; swap; dsimp only [b]; swap)
    | (intro b; refine (fun (_ : OnlyChanges F z b.1) => ?_) ?_; clear_value b; swap; dsimp only [b]; swap)
    | (with_reducible apply hf)
    | (intro b; clear_value b)
    | intro b
    | lift_lets
    | split
    | (refine frame_of_eq (by assumption) ?_)
    | dsimp only

theorem capacityFail_frame {id : Nat} (hz : OnlyChanges F z s) (m1 : Part.out ∈ F) (m3 : Part.regs ∈ F) (m4 : Part.portA ∈ F) (m5 : Part.portB ∈ F) (m6 : Part.evr ∈ F) (m16 : Part.map ∈ F) (m17 : Part.flash ∈ F) (m18 : Part.jrc ∈ F) (m19 : Part.srt ∈ F) : OnlyChanges F z (capacityFail s id) := by
  unfold capacityFail
  repeat' first
    | with_reducible assumption
    | (with_reducible apply failCmd_frame)
    | (with_reducible apply raise_frame)
    | (with_reducible apply satAdd_frame)

theorem joinLadder_frame {x : Nat × Req} (hz : OnlyChanges F z s) (m17 : Part.flash ∈ F) : OnlyChanges F z (joinLadder s x) := by
  unfold joinLadder
  repeat' first
    | with_reducible assumption
    | (with_reducible apply updFlash_frame)
    | (with_reducible apply frame_ite)
    | (with_reducible apply frame_ite_fst)
    | split

theorem addReads_frame {cls : Nat} {ps : List (Nat × Req)} (hz : OnlyChanges F z s) (m1 : Part.out ∈ F) (m2 : Part.clk ∈ F) (m3 : Part.regs ∈ F) (m4 : Part.portA ∈ F) (m5 : Part.portB ∈ F) (m6 : Part.evr ∈ F) (m14 : Part.dram ∈ F) (m15 : Part.phc ∈ F) (m17 : Part.flash ∈ F) (m18 : Part.jrc ∈ F) (m21 : Part.pat ∈ F) (m22 : Part.mem ∈ F) : OnlyChanges F z (addReads s cls ps) := by
  unfold addReads
  repeat' first
    | with_reducible assumption
    | (with_reducible apply joinLadder_frame)
    | (with_reducible apply ttTracked_frame)
    | (with_reducible apply addOp_frame)
    | (with_reducible refine frame_foldl (fun x b hx => ?_) ?_)
    | (with_reducible refine frame_foldl_fst (fun x b hx => ?_) ?_)
    | (intro b; refine (fun (_ : OnlyChanges F z b) => ?_) ?_; clear_value b; swap; dsimp only [b]; swap)
    | (intro b; refine (fun (_ : OnlyChanges F z b.1) => ?_) ?_; clear_value b; swap; dsimp only [b]; swap)
    | (with_reducible apply hfn)
    | (intro b; refine (fun (hfn : ∀ x, OnlyChanges F z x → OnlyChanges F z (b x)) => ?_) ?_; clear_value b; swap; (intro x hx; dsimp only [b]); swap)
    | (intro b; refine (fun (hfn : ∀ x y, OnlyChanges F z x → OnlyChanges F z (b x y)) => ?_) ?_; clear_value b; swap; (intro x y hx; dsimp only [b]); swap)
    | (with_reducible apply hfc)
    | (with_reducible apply hfd)
    | (intro b; refine (fun (hfc : ∀ x, OnlyChanges F z (b x)) => ?_) ?_; clear_value b; swap; (intro x; dsimp only [b]); swap)
    | (intro b; refine (fun (hfd : ∀ x y, OnlyChanges F z (b x y)) => ?_) ?_; clear_value b; swap; (intro x y; dsimp only [b]); swap)
    | (intro b; clear_value b)
    | intro b
    | lift_lets
    | split
    | (refine frame_of_eq (by assumption) ?_)
    | dsimp only

theorem askNext_frame {id : Nat} (hz : OnlyChanges F z s) (m18 : Part.jrc ∈ F) (m19 : Part.srt ∈ F) : OnlyChanges F z (askNext s id) := by
  unfold askNext
  repeat' first
    | with_reducible assumption
    | (with_reducible apply askGroup_frame)
    | (with_reducible apply modCmd_frame)
    | (with_reducible apply frame_ite)
    | split
    | dsimp only

theorem askAll_frame (hz : OnlyChanges F z s) (m18 : Part.jrc ∈ F) (m19 : Part.srt ∈ F) : OnlyChanges F z (askAll s) := by
  unfold askAll
  repeat' first
    | with_reducible assumption
    | (with_reducible apply askNext_frame)
    | (with_reducible refine frame_foldl (fun x b hx => ?_) ?_)
    | (with_reducible refine frame_foldl_fst (fun x b hx => ?_) ?_)

theorem setWants_frame {id : Nat} {ws : List (List Want)} (hz : OnlyChanges F z s) (m1 : Part.out ∈ F) (m3 : Part.regs ∈ F) (m4 : Part.portA ∈ F) (m5 : Part.portB ∈ F) (m6 : Part.evr ∈ F) (m16 : Part.map ∈ F) (m17 : Part.flash ∈ F) (m18 : Part.jrc ∈ F) (m19 : Part.srt ∈ F) : OnlyChanges F z (setWants s id ws) := by
  unfold setWants
  repeat' first
    | with_reducible assumption
    | (with_reducible apply askNext_frame)
    | (with_reducible apply turn_frame)
    | (with_reducible apply modCmd_frame)

theorem finishRead_frame {id : Nat} (hz : OnlyChanges F z s) (m1 : Part.out ∈ F) (m3 : Part.regs ∈ F) (m4 : Part.portA ∈ F) (m5 : Part.portB ∈ F) (m6 : Part.evr ∈ F) (m16 : Part.map ∈ F) (m17 : Part.flash ∈ F) (m18 : Part.jrc ∈ F) (m19 : Part.srt ∈ F) : OnlyChanges F z (finishRead s id) := by
  unfold finishRead
  repeat' first
    | with_reducible assumption
    | (with_reducible apply emit_frame)
    | (with_reducible apply endCmd_frame)
    | (with_reducible apply frame_ite)
    | (with_reducible apply frame_ite_fst)
    | (intro b; refine (fun (_ : OnlyChanges F z b) => ?_) ?_; clear_value b; swap; dsimp only [b]; swap)
    | (intro b; refine (fun (_ : OnlyChanges F z b.1) => ?_) ?_; clear_value b; swap; dsimp only [b]; swap)
    | (intro b; clear_value b)
    | intro b
    | lift_lets
    | split
    | (refine frame_of_eq (by assumption) ?_)
    | dsimp only

theorem placeUnits_frame {id : Nat} {c : Cmd} {n : Ns} {f : IoFields} {us : List (Nat × Nat × Nat)} (hz : OnlyChanges F z s) (m16 : Part.map ∈ F) : OnlyChanges F z (placeUnits s id c n f us).1 := by
  unfold placeUnits
  repeat' first
    | with_reducible assumption
    | (with_reducible apply takeWsn_frame)
    | (with_reducible apply packPut_frame)
    | (with_reducible refine frame_foldl (fun x b hx => ?_) ?_)
    | (with_reducible refine frame_foldl_fst (fun x b hx => ?_) ?_)
    | (intro b; refine (fun (_ : OnlyChanges F z b) => ?_) ?_; clear_value b; swap; dsimp only [b]; swap)
    | (intro b; refine (fun (_ : OnlyChanges F z b.1) => ?_) ?_; clear_value b; swap; dsimp only [b]; swap)
    | (intro b; clear_value b)
    | intro b
    | lift_lets
    | split
    | (refine frame_of_eq (by assumption) ?_)
    | dsimp only

theorem rmwAssemble_frame {id : Nat} {c : Cmd} {n : Ns} {f : IoFields} (hz : OnlyChanges F z s) (m1 : Part.out ∈ F) (m3 : Part.regs ∈ F) (m4 : Part.portA ∈ F) (m5 : Part.portB ∈ F) (m6 : Part.evr ∈ F) (m16 : Part.map ∈ F) : OnlyChanges F z (rmwAssemble s id c n f).1 := by
  unfold rmwAssemble
  repeat' first
    | with_reducible assumption
    | (with_reducible apply newPg_frame)
    | (with_reducible apply takeWsn_frame)
    | (with_reducible apply pgPut_frame)
    | (with_reducible apply pgClose_frame)
    | (with_reducible apply tryBundle_frame)
    | (with_reducible apply waitBundle_frame)
    | (with_reducible apply frame_ite)
    | (with_reducible apply frame_ite_fst)
    | (with_reducible refine frame_foldl (fun x b hx => ?_) ?_)
    | (with_reducible refine frame_foldl_fst (fun x b hx => ?_) ?_)
    | (intro b; refine (fun (_ : OnlyChanges F z b) => ?_) ?_; clear_value b; swap; dsimp only [b]; swap)
    | (intro b; refine (fun (_ : OnlyChanges F z b.1) => ?_) ?_; clear_value b; swap; dsimp only [b]; swap)
    | (with_reducible apply hfn)
    | (intro b; refine (fun (hfn : ∀ x, OnlyChanges F z x → OnlyChanges F z (b x)) => ?_) ?_; clear_value b; swap; (intro x hx; dsimp only [b]); swap)
    | (intro b; refine (fun (hfn : ∀ x y, OnlyChanges F z x → OnlyChanges F z (b x y)) => ?_) ?_; clear_value b; swap; (intro x y hx; dsimp only [b]); swap)
    | (with_reducible apply hfc)
    | (with_reducible apply hfd)
    | (intro b; refine (fun (hfc : ∀ x, OnlyChanges F z (b x)) => ?_) ?_; clear_value b; swap; (intro x; dsimp only [b]); swap)
    | (intro b; refine (fun (hfd : ∀ x y, OnlyChanges F z (b x y)) => ?_) ?_; clear_value b; swap; (intro x y; dsimp only [b]); swap)
    | (intro b; clear_value b)
    | intro b
    | lift_lets
    | split
    | (refine frame_of_eq (by assumption) ?_)
    | dsimp only

theorem writeGot_frame {id : Nat} (hz : OnlyChanges F z s) (m1 : Part.out ∈ F) (m3 : Part.regs ∈ F) (m4 : Part.portA ∈ F) (m5 : Part.portB ∈ F) (m6 : Part.evr ∈ F) (m16 : Part.map ∈ F) (m17 : Part.flash ∈ F) (m18 : Part.jrc ∈ F) (m19 : Part.srt ∈ F) : OnlyChanges F z (writeGot s id) := by
  unfold writeGot
  repeat' first
    | with_reducible assumption
    | (with_reducible apply failCmd_frame)
    | (with_reducible apply placeUnits_frame)
    | (with_reducible apply rmwAssemble_frame)
    | (with_reducible apply setWants_frame)
    | (with_reducible apply frame_ite)
    | (with_reducible apply frame_ite_fst)
    | (intro b; refine (fun (_ : OnlyChanges F z b) => ?_) ?_; clear_value b; swap; dsimp only [b]; swap)
    | (intro b; refine (fun (_ : OnlyChanges F z b.1) => ?_) ?_; clear_value b; swap; dsimp only [b]; swap)
    | (intro b; clear_value b)
    | intro b
    | lift_lets
    | split
    | (refine frame_of_eq (by assumption) ?_)
    | dsimp only

theorem cmdGot_frame {id : Nat} {ppa : Nat} {v : Option Payload} (hz : OnlyChanges F z s) (m1 : Part.out ∈ F) (m3 : Part.regs ∈ F) (m4 : Part.portA ∈ F) (m5 : Part.portB ∈ F) (m6 : Part.evr ∈ F) (m16 : Part.map ∈ F) (m17 : Part.flash ∈ F) (m18 : Part.jrc ∈ F) (m19 : Part.srt ∈ F) : OnlyChanges F z (cmdGot s id ppa v) := by
  unfold cmdGot
  repeat' first
    | with_reducible assumption
    | (with_reducible apply modCmd_frame)
    | (with_reducible apply finishRead_frame)
    | (with_reducible apply writeGot_frame)
    | (with_reducible apply frame_ite)
    | (intro b; refine (fun (_ : OnlyChanges F z b) => ?_) ?_; clear_value b; swap; dsimp only [b]; swap)
    | (intro b; clear_value b)
    | intro b
    | lift_lets
    | split
    | dsimp only

theorem modReloc_frame {id : Nat} {f : Reloc → Reloc} (hz : OnlyChanges F z s) (m16 : Part.map ∈ F) : OnlyChanges F z (modReloc s id f) := by
  unfold modReloc
  repeat' first
    | with_reducible assumption
    | (with_reducible apply updMap_frame)
    | (with_reducible apply hf)

theorem tryReloc_frame {id : Nat} (hz : OnlyChanges F z s) (m16 : Part.map ∈ F) (m18 : Part.jrc ∈ F) : OnlyChanges F z (tryReloc s id) := by
  unfold tryReloc
  repeat' first
    | with_reducible assumption
    | (with_reducible apply modReloc_frame)
    | (with_reducible apply askGroup_frame)
    | (with_reducible apply frame_ite)
    | (with_reducible refine frame_foldl (fun x b hx => ?_) ?_)
    | (intro b; refine (fun (_ : OnlyChanges F z b) => ?_) ?_; clear_value b; swap; dsimp only [b]; swap)
    | (intro b; clear_value b)
    | intro b
    | lift_lets
    | split
    | dsimp only

theorem readPages_frame {id : Nat} {pgs : List Nat} (hz : OnlyChanges F z s) (m1 : Part.out ∈ F) (m2 : Part.clk ∈ F) (m3 : Part.regs ∈ F) (m4 : Part.portA ∈ F) (m5 : Part.portB ∈ F) (m6 : Part.evr ∈ F) (m14 : Part.dram ∈ F) (m15 : Part.phc ∈ F) (m17 : Part.flash ∈ F) (m18 : Part.jrc ∈ F) (m21 : Part.pat ∈ F) (m22 : Part.mem ∈ F) : OnlyChanges F z (readPages s id pgs) := by
  unfold readPages
  repeat' first
    | with_reducible assumption
    | (with_reducible apply addReads_frame)

theorem paceBack_frame {x : Nat × Reloc} (hz : OnlyChanges F z s) (m16 : Part.map ∈ F) (m17 : Part.flash ∈ F) : OnlyChanges F z (paceBack s x) := by
  unfold paceBack
  repeat' first
    | with_reducible assumption
    | (with_reducible apply updFlash_frame)
    | (with_reducible apply modReloc_frame)
    | (with_reducible apply frame_ite)
    | (with_reducible apply frame_ite_fst)
    | (intro b; refine (fun (_ : OnlyChanges F z b) => ?_) ?_; clear_value b; swap; dsimp only [b]; swap)
    | (intro b; refine (fun (_ : OnlyChanges F z b.1) => ?_) ?_; clear_value b; swap; dsimp only [b]; swap)
    | (with_reducible apply hfn)
    | (intro b; refine (fun (hfn : ∀ x, OnlyChanges F z x → OnlyChanges F z (b x)) => ?_) ?_; clear_value b; swap; (intro x hx; dsimp only [b]); swap)
    | (intro b; refine (fun (hfn : ∀ x y, OnlyChanges F z x → OnlyChanges F z (b x y)) => ?_) ?_; clear_value b; swap; (intro x y hx; dsimp only [b]); swap)
    | (with_reducible apply hfc)
    | (with_reducible apply hfd)
    | (intro b; refine (fun (hfc : ∀ x, OnlyChanges F z (b x)) => ?_) ?_; clear_value b; swap; (intro x; dsimp only [b]); swap)
    | (intro b; refine (fun (hfd : ∀ x y, OnlyChanges F z (b x y)) => ?_) ?_; clear_value b; swap; (intro x y; dsimp only [b]); swap)
    | (intro b; clear_value b)
    | intro b
    | lift_lets
    | split

theorem paceJob_frame {x : Nat × Reloc} (hz : OnlyChanges F z s) (m1 : Part.out ∈ F) (m2 : Part.clk ∈ F) (m3 : Part.regs ∈ F) (m4 : Part.portA ∈ F) (m5 : Part.portB ∈ F) (m6 : Part.evr ∈ F) (m14 : Part.dram ∈ F) (m15 : Part.phc ∈ F) (m16 : Part.map ∈ F) (m17 : Part.flash ∈ F) (m18 : Part.jrc ∈ F) (m21 : Part.pat ∈ F) (m22 : Part.mem ∈ F) : OnlyChanges F z (paceJob s x) := by
  unfold paceJob
  repeat' first
    | with_reducible assumption
    | (with_reducible apply readPages_frame)
    | (with_reducible apply modReloc_frame)
    | (with_reducible apply frame_ite)
    | (with_reducible apply frame_ite_fst)
    | (intro b; refine (fun (_ : OnlyChanges F z b) => ?_) ?_; clear_value b; swap; dsimp only [b]; swap)
    | (intro b; refine (fun (_ : OnlyChanges F z b.1) => ?_) ?_; clear_value b; swap; dsimp only [b]; swap)
    | (intro b; clear_value b)
    | intro b
    | lift_lets
    | split

theorem reclaimPace_frame (hz : OnlyChanges F z s) (m1 : Part.out ∈ F) (m2 : Part.clk ∈ F) (m3 : Part.regs ∈ F) (m4 : Part.portA ∈ F) (m5 : Part.portB ∈ F) (m6 : Part.evr ∈ F) (m14 : Part.dram ∈ F) (m15 : Part.phc ∈ F) (m16 : Part.map ∈ F) (m17 : Part.flash ∈ F) (m18 : Part.jrc ∈ F) (m21 : Part.pat ∈ F) (m22 : Part.mem ∈ F) : OnlyChanges F z (reclaimPace s) := by
  unfold reclaimPace
  repeat' first
    | with_reducible assumption
    | (with_reducible apply paceBack_frame)
    | (with_reducible apply pump_frame)
    | (with_reducible apply paceJob_frame)
    | (with_reducible apply frame_ite)
    | (with_reducible refine frame_foldl (fun x b hx => ?_) ?_)
    | (intro b; refine (fun (_ : OnlyChanges F z b) => ?_) ?_; clear_value b; swap; dsimp only [b]; swap)
    | (intro b; clear_value b)
    | intro b
    | lift_lets
    | split

theorem earn_frame (hz : OnlyChanges F z s) (m16 : Part.map ∈ F) : OnlyChanges F z (earn s) := by
  unfold earn
  repeat' first
    | with_reducible assumption
    | (with_reducible apply updMap_frame)
    | (with_reducible apply frame_ite)
    | (intro b; refine (fun (_ : OnlyChanges F z b) => ?_) ?_; clear_value b; swap; dsimp only [b]; swap)
    | (intro b; clear_value b)
    | intro b
    | lift_lets
    | split
    | dsimp only

theorem spend_frame {t : State} {id : Nat} (hz : OnlyChanges F z s) (hz1 : OnlyChanges F z t) (m16 : Part.map ∈ F) : OnlyChanges F z (spend s t id) := by
  unfold spend
  repeat' first
    | with_reducible assumption
    | (with_reducible apply updMap_frame)
    | (with_reducible apply frame_ite)
    | (with_reducible apply frame_ite_fst)
    | split

theorem refreshEnd_frame {id : Nat} (hz : OnlyChanges F z s) (m16 : Part.map ∈ F) (m18 : Part.jrc ∈ F) : OnlyChanges F z (refreshEnd s id) := by
  unfold refreshEnd
  repeat' first
    | with_reducible assumption
    | (with_reducible apply updMap_frame)
    | (with_reducible apply modOpen_frame)
    | (with_reducible apply askSeal_frame)
    | (with_reducible apply frame_ite)
    | (with_reducible apply frame_ite_fst)
    | (with_reducible refine frame_foldl (fun x b hx => ?_) ?_)
    | (with_reducible refine frame_foldl_fst (fun x b hx => ?_) ?_)
    | (intro b; refine (fun (_ : OnlyChanges F z b) => ?_) ?_; clear_value b; swap; dsimp only [b]; swap)
    | (intro b; refine (fun (_ : OnlyChanges F z b.1) => ?_) ?_; clear_value b; swap; dsimp only [b]; swap)
    | (intro b; clear_value b)
    | intro b
    | lift_lets
    | split
    | dsimp only

theorem markLost_frame {id : Nat} {ppas : List Nat} (hz : OnlyChanges F z s) (m16 : Part.map ∈ F) : OnlyChanges F z (markLost s id ppas) := by
  unfold markLost
  repeat' first
    | with_reducible assumption
    | (with_reducible apply modReloc_frame)

theorem gatherPut_frame {id : Nat} {r : Reloc} {g : Nat × Nat × List (Nat × Nat)} (hz : OnlyChanges F z s) (m16 : Part.map ∈ F) : OnlyChanges F z (gatherPut s id r g) := by
  unfold gatherPut
  repeat' first
    | with_reducible assumption
    | (with_reducible apply markLost_frame)
    | (with_reducible apply packPut_frame)
    | (with_reducible apply modReloc_frame)
    | (with_reducible apply newPg_frame)
    | (with_reducible apply pgPut_frame)
    | (with_reducible apply pgClose_frame)
    | (with_reducible apply frame_ite)
    | (with_reducible apply frame_ite_fst)
    | (with_reducible refine frame_foldl (fun x b hx => ?_) ?_)
    | (with_reducible refine frame_foldl_fst (fun x b hx => ?_) ?_)
    | (intro b; refine (fun (_ : OnlyChanges F z b) => ?_) ?_; clear_value b; swap; dsimp only [b]; swap)
    | (intro b; refine (fun (_ : OnlyChanges F z b.1) => ?_) ?_; clear_value b; swap; dsimp only [b]; swap)
    | (intro b; clear_value b)
    | intro b
    | lift_lets
    | split
    | (refine frame_of_eq (by assumption) ?_)
    | dsimp only

theorem relocPage_frame {id : Nat} {pg : Nat} {slots : NMap (Option Payload)} (hz : OnlyChanges F z s) (m1 : Part.out ∈ F) (m2 : Part.clk ∈ F) (m3 : Part.regs ∈ F) (m4 : Part.portA ∈ F) (m5 : Part.portB ∈ F) (m6 : Part.evr ∈ F) (m14 : Part.dram ∈ F) (m15 : Part.phc ∈ F) (m16 : Part.map ∈ F) (m17 : Part.flash ∈ F) (m18 : Part.jrc ∈ F) (m21 : Part.pat ∈ F) (m22 : Part.mem ∈ F) : OnlyChanges F z (relocPage s id pg slots) := by
  unfold relocPage
  repeat' first
    | with_reducible assumption
    | (with_reducible apply markLost_frame)
    | (with_reducible apply newPg_frame)
    | (with_reducible apply pgPut_frame)
    | (with_reducible apply modReloc_frame)
    | (with_reducible apply pgClose_frame)
    | (with_reducible apply tryBundle_frame)
    | (with_reducible apply waitBundle_frame)
    | (with_reducible apply packPut_frame)
    | (with_reducible apply addReads_frame)
    | (with_reducible apply frame_ite)
    | (with_reducible apply frame_ite_fst)
    | (with_reducible refine frame_foldl (fun x b hx => ?_) ?_)
    | (with_reducible refine frame_foldl_fst (fun x b hx => ?_) ?_)
    | (intro b; refine (fun (_ : OnlyChanges F z b) => ?_) ?_; clear_value b; swap; dsimp only [b]; swap)
    | (intro b; refine (fun (_ : OnlyChanges F z b.1) => ?_) ?_; clear_value b; swap; dsimp only [b]; swap)
    | (intro b; clear_value b)
    | intro b
    | lift_lets
    | split
    | (refine frame_of_eq (by assumption) ?_)
    | dsimp only

theorem relocLook_frame {id : Nat} {pg : Nat} {slots : NMap (Option Payload)} (hz : OnlyChanges F z s) (m1 : Part.out ∈ F) (m2 : Part.clk ∈ F) (m3 : Part.regs ∈ F) (m4 : Part.portA ∈ F) (m5 : Part.portB ∈ F) (m6 : Part.evr ∈ F) (m14 : Part.dram ∈ F) (m15 : Part.phc ∈ F) (m16 : Part.map ∈ F) (m17 : Part.flash ∈ F) (m18 : Part.jrc ∈ F) (m21 : Part.pat ∈ F) (m22 : Part.mem ∈ F) : OnlyChanges F z (relocLook s id pg slots) := by
  unfold relocLook
  repeat' first
    | with_reducible assumption
    | (with_reducible apply corruptAny_frame)
    | (with_reducible apply modReloc_frame)
    | (with_reducible apply relocPage_frame)
    | (with_reducible apply frame_ite)
    | (with_reducible apply frame_ite_fst)
    | (intro b; refine (fun (_ : OnlyChanges F z b) => ?_) ?_; clear_value b; swap; dsimp only [b]; swap)
    | (intro b; refine (fun (_ : OnlyChanges F z b.1) => ?_) ?_; clear_value b; swap; dsimp only [b]; swap)
    | (intro b; clear_value b)
    | intro b
    | lift_lets
    | split

theorem gatherDone_frame {id : Nat} (hz : OnlyChanges F z s) (m16 : Part.map ∈ F) : OnlyChanges F z (gatherDone s id) := by
  unfold gatherDone
  repeat' first
    | with_reducible assumption
    | (with_reducible apply modReloc_frame)
    | (with_reducible apply gatherPut_frame)
    | (with_reducible refine frame_foldl (fun x b hx => ?_) ?_)
    | (intro b; refine (fun (_ : OnlyChanges F z b) => ?_) ?_; clear_value b; swap; dsimp only [b]; swap)
    | (intro b; clear_value b)
    | intro b
    | lift_lets
    | split
    | dsimp only

theorem relocGot_frame {id : Nat} {ppa : Nat} {v : Option Payload} (hz : OnlyChanges F z s) (m1 : Part.out ∈ F) (m2 : Part.clk ∈ F) (m3 : Part.regs ∈ F) (m4 : Part.portA ∈ F) (m5 : Part.portB ∈ F) (m6 : Part.evr ∈ F) (m14 : Part.dram ∈ F) (m15 : Part.phc ∈ F) (m16 : Part.map ∈ F) (m17 : Part.flash ∈ F) (m18 : Part.jrc ∈ F) (m21 : Part.pat ∈ F) (m22 : Part.mem ∈ F) : OnlyChanges F z (relocGot s id ppa v) := by
  unfold relocGot
  repeat' first
    | with_reducible assumption
    | (with_reducible apply relocLook_frame)
    | (with_reducible apply modReloc_frame)
    | (with_reducible apply turn_frame)
    | (with_reducible apply spend_frame)
    | (with_reducible apply gatherDone_frame)
    | (with_reducible apply refreshEnd_frame)
    | (with_reducible apply tryReloc_frame)
    | (with_reducible apply reclaimPace_frame)
    | (with_reducible apply frame_ite)
    | (intro b; refine (fun (_ : OnlyChanges F z b) => ?_) ?_; clear_value b; swap; dsimp only [b]; swap)
    | (intro b; clear_value b)
    | intro b
    | lift_lets
    | split
    | dsimp only

theorem relocRetry_frame {id : Nat} (hz : OnlyChanges F z s) (m1 : Part.out ∈ F) (m2 : Part.clk ∈ F) (m3 : Part.regs ∈ F) (m4 : Part.portA ∈ F) (m5 : Part.portB ∈ F) (m6 : Part.evr ∈ F) (m14 : Part.dram ∈ F) (m15 : Part.phc ∈ F) (m16 : Part.map ∈ F) (m17 : Part.flash ∈ F) (m18 : Part.jrc ∈ F) (m21 : Part.pat ∈ F) (m22 : Part.mem ∈ F) : OnlyChanges F z (relocRetry s id) := by
  unfold relocRetry
  repeat' first
    | with_reducible assumption
    | (with_reducible apply relocLook_frame)
    | (with_reducible apply turn_frame)
    | (with_reducible apply spend_frame)
    | (with_reducible apply gatherDone_frame)
    | (with_reducible apply refreshEnd_frame)
    | (with_reducible apply tryReloc_frame)
    | (with_reducible apply reclaimPace_frame)
    | (with_reducible apply frame_ite)
    | (with_reducible apply frame_ite_fst)
    | (with_reducible refine frame_foldl (fun x b hx => ?_) ?_)
    | (with_reducible refine frame_foldl_fst (fun x b hx => ?_) ?_)
    | (intro b; refine (fun (_ : OnlyChanges F z b) => ?_) ?_; clear_value b; swap; dsimp only [b]; swap)
    | (intro b; refine (fun (_ : OnlyChanges F z b.1) => ?_) ?_; clear_value b; swap; dsimp only [b]; swap)
    | (intro b; clear_value b)
    | intro b
    | lift_lets
    | split
    | dsimp only

theorem startReloc_frame {r : Reloc} {pgs : List Nat} (hz : OnlyChanges F z s) (m1 : Part.out ∈ F) (m2 : Part.clk ∈ F) (m3 : Part.regs ∈ F) (m4 : Part.portA ∈ F) (m5 : Part.portB ∈ F) (m6 : Part.evr ∈ F) (m14 : Part.dram ∈ F) (m15 : Part.phc ∈ F) (m16 : Part.map ∈ F) (m17 : Part.flash ∈ F) (m18 : Part.jrc ∈ F) (m21 : Part.pat ∈ F) (m22 : Part.mem ∈ F) : OnlyChanges F z (startReloc s r pgs) := by
  unfold startReloc
  repeat' first
    | with_reducible assumption
    | (with_reducible apply updMap_frame)
    | (with_reducible apply reclaimPace_frame)
    | (with_reducible apply pump_frame)
    | (with_reducible apply readPages_frame)
    | (with_reducible apply frame_ite)
    | (intro b; refine (fun (_ : OnlyChanges F z b) => ?_) ?_; clear_value b; swap; dsimp only [b]; swap)
    | (intro b; clear_value b)
    | intro b
    | lift_lets
    | split

theorem refreshRelocation_frame (hz : OnlyChanges F z s) (m1 : Part.out ∈ F) (m2 : Part.clk ∈ F) (m3 : Part.regs ∈ F) (m4 : Part.portA ∈ F) (m5 : Part.portB ∈ F) (m6 : Part.evr ∈ F) (m14 : Part.dram ∈ F) (m15 : Part.phc ∈ F) (m16 : Part.map ∈ F) (m17 : Part.flash ∈ F) (m18 : Part.jrc ∈ F) (m21 : Part.pat ∈ F) (m22 : Part.mem ∈ F) : OnlyChanges F z (refreshRelocation s) := by
  unfold refreshRelocation
  repeat' first
    | with_reducible assumption
    | (with_reducible apply updMap_frame)
    | (with_reducible apply startReloc_frame)
    | (intro b; refine (fun (_ : OnlyChanges F z b) => ?_) ?_; clear_value b; swap; dsimp only [b]; swap)
    | (intro b; clear_value b)
    | intro b
    | lift_lets
    | split
    | dsimp only

theorem jobWrite_frame {idx : Nat} {r : Reloc} {st : Nat} (hz : OnlyChanges F z s) (m1 : Part.out ∈ F) (m2 : Part.clk ∈ F) (m3 : Part.regs ∈ F) (m4 : Part.portA ∈ F) (m5 : Part.portB ∈ F) (m6 : Part.evr ∈ F) (m14 : Part.dram ∈ F) (m15 : Part.phc ∈ F) (m16 : Part.map ∈ F) (m18 : Part.jrc ∈ F) (m21 : Part.pat ∈ F) (m22 : Part.mem ∈ F) : OnlyChanges F z (jobWrite s idx r st) := by
  unfold jobWrite
  repeat' first
    | with_reducible assumption
    | (with_reducible apply directWrite_frame)
    | (with_reducible apply updMap_frame)
    | (intro b; refine (fun (_ : OnlyChanges F z b) => ?_) ?_; clear_value b; swap; dsimp only [b]; swap)
    | (intro b; clear_value b)
    | intro b
    | lift_lets

theorem takeJobs_frame {n : Nat} (h : OnlyChanges F z s) (m1 : Part.out ∈ F) (m2 : Part.clk ∈ F) (m3 : Part.regs ∈ F) (m4 : Part.portA ∈ F) (m5 : Part.portB ∈ F) (m6 : Part.evr ∈ F) (m14 : Part.dram ∈ F) (m15 : Part.phc ∈ F) (m16 : Part.map ∈ F) (m17 : Part.flash ∈ F) (m18 : Part.jrc ∈ F) (m21 : Part.pat ∈ F) (m22 : Part.mem ∈ F)
    : OnlyChanges F z (takeJobs n s) := by
  induction n generalizing s with
  | zero => exact h
  | succ n ih =>
    unfold takeJobs
    repeat' first
      | with_reducible assumption
      | (with_reducible apply ih)
      | (with_reducible apply updMap_frame)
      | (with_reducible apply wr_frame)
      | (with_reducible apply jobWrite_frame)
      | (with_reducible apply directWrite_frame)
      | (with_reducible apply modSb_frame)
      | (with_reducible apply startReloc_frame)
      | (with_reducible apply frame_ite)
      | (with_reducible apply frame_ite_fst)
      | (with_reducible refine frame_foldl (fun x b hx => ?_) ?_)
      | (with_reducible refine frame_foldl_fst (fun x b hx => ?_) ?_)
      | (intro b; refine (fun (_ : OnlyChanges F z b) => ?_) ?_; clear_value b; swap; dsimp only [b]; swap)
      | (intro b; refine (fun (_ : OnlyChanges F z b.1) => ?_) ?_; clear_value b; swap; dsimp only [b]; swap)
      | (with_reducible apply hfn)
      | (with_reducible apply hf)
      | (intro b; refine (fun (hfn : ∀ x, OnlyChanges F z x → OnlyChanges F z (b x)) => ?_) ?_; clear_value b; swap; (intro x hx; dsimp only [b]); swap)
      | (intro b; refine (fun (hfn : ∀ x y, OnlyChanges F z x → OnlyChanges F z (b x y)) => ?_) ?_; clear_value b; swap; (intro x y hx; dsimp only [b]); swap)
      | (with_reducible apply hfc)
      | (with_reducible apply hfd)
      | (intro b; refine (fun (hfc : ∀ x, OnlyChanges F z (b x)) => ?_) ?_; clear_value b; swap; (intro x; dsimp only [b]); swap)
      | (intro b; refine (fun (hfd : ∀ x y, OnlyChanges F z (b x y)) => ?_) ?_; clear_value b; swap; (intro x y; dsimp only [b]); swap)
      | (intro b; clear_value b)
      | intro b
      | lift_lets
      | split
      | (refine frame_of_eq (by assumption) ?_)
      | (fail_if_no_progress with_reducible refine frame_upd ?_)
      | dsimp only

theorem jobPlace_frame {jobs : List JobReq} (hz : OnlyChanges F z s) (m1 : Part.out ∈ F) (m2 : Part.clk ∈ F) (m3 : Part.regs ∈ F) (m4 : Part.portA ∈ F) (m5 : Part.portB ∈ F) (m6 : Part.evr ∈ F) (m14 : Part.dram ∈ F) (m15 : Part.phc ∈ F) (m18 : Part.jrc ∈ F) (m21 : Part.pat ∈ F) (m22 : Part.mem ∈ F) : OnlyChanges F z (jobPlace s jobs) := by
  unfold jobPlace
  repeat' first
    | with_reducible assumption
    | (with_reducible apply directWrite_frame)
    | (with_reducible refine frame_foldl (fun x b hx => ?_) ?_)
    | (with_reducible refine frame_foldl_fst (fun x b hx => ?_) ?_)
    | (intro b; refine (fun (_ : OnlyChanges F z b) => ?_) ?_; clear_value b; swap; dsimp only [b]; swap)
    | (intro b; refine (fun (_ : OnlyChanges F z b.1) => ?_) ?_; clear_value b; swap; dsimp only [b]; swap)
    | (intro b; clear_value b)
    | intro b
    | lift_lets

theorem jobSubmit_frame {head : Nat} {jobs : List JobReq} (hz : OnlyChanges F z s) (m1 : Part.out ∈ F) (m2 : Part.clk ∈ F) (m3 : Part.regs ∈ F) (m4 : Part.portA ∈ F) (m5 : Part.portB ∈ F) (m6 : Part.evr ∈ F) (m14 : Part.dram ∈ F) (m15 : Part.phc ∈ F) (m16 : Part.map ∈ F) (m17 : Part.flash ∈ F) (m18 : Part.jrc ∈ F) (m21 : Part.pat ∈ F) (m22 : Part.mem ∈ F) : OnlyChanges F z (jobSubmit s head jobs) := by
  unfold jobSubmit
  repeat' first
    | with_reducible assumption
    | (with_reducible apply wr_frame)
    | (with_reducible apply updMap_frame)
    | (with_reducible apply takeJobs_frame)
    | (with_reducible refine frame_foldl (fun x b hx => ?_) ?_)
    | (with_reducible refine frame_foldl_fst (fun x b hx => ?_) ?_)
    | (intro b; refine (fun (_ : OnlyChanges F z b) => ?_) ?_; clear_value b; swap; dsimp only [b]; swap)
    | (intro b; refine (fun (_ : OnlyChanges F z b.1) => ?_) ?_; clear_value b; swap; dsimp only [b]; swap)
    | (intro b; clear_value b)
    | intro b
    | lift_lets

theorem victimsErasable_frame (hz : OnlyChanges F z s) (m16 : Part.map ∈ F) (m17 : Part.flash ∈ F) (m18 : Part.jrc ∈ F) : OnlyChanges F z (victimsErasable s) := by
  unfold victimsErasable
  repeat' first
    | with_reducible assumption
    | (with_reducible apply makeErasable_frame)
    | (with_reducible refine frame_foldl (fun x b hx => ?_) ?_)
    | (with_reducible refine frame_foldl_fst (fun x b hx => ?_) ?_)

theorem retireEnd_frame (hz : OnlyChanges F z s) (m16 : Part.map ∈ F) : OnlyChanges F z (retireEnd s) := by
  unfold retireEnd
  repeat' first
    | with_reducible assumption
    | (with_reducible apply updMap_frame)
    | (with_reducible apply frame_ite)
    | split

theorem jobDone_frame {idx : Nat} (hz : OnlyChanges F z s) (m1 : Part.out ∈ F) (m2 : Part.clk ∈ F) (m3 : Part.regs ∈ F) (m4 : Part.portA ∈ F) (m5 : Part.portB ∈ F) (m6 : Part.evr ∈ F) (m14 : Part.dram ∈ F) (m15 : Part.phc ∈ F) (m16 : Part.map ∈ F) (m17 : Part.flash ∈ F) (m18 : Part.jrc ∈ F) (m21 : Part.pat ∈ F) (m22 : Part.mem ∈ F) : OnlyChanges F z (jobDone s idx) := by
  unfold jobDone
  repeat' first
    | with_reducible assumption
    | (with_reducible apply dropHolder_frame)
    | (with_reducible apply updMap_frame)
    | (with_reducible apply jobWrite_frame)
    | (with_reducible apply modSb_frame)
    | (with_reducible apply victimsErasable_frame)
    | (with_reducible apply retireEnd_frame)
    | (with_reducible apply spaceUpdate_frame)
    | (with_reducible apply takeJobs_frame)
    | (with_reducible apply frame_ite)
    | (intro b; refine (fun (_ : OnlyChanges F z b) => ?_) ?_; clear_value b; swap; dsimp only [b]; swap)
    | (intro b; clear_value b)
    | intro b
    | lift_lets
    | split
    | dsimp only

theorem jobAbort_frame (hz : OnlyChanges F z s) (m16 : Part.map ∈ F) (m17 : Part.flash ∈ F) : OnlyChanges F z (jobAbort s) := by
  unfold jobAbort
  repeat' first
    | with_reducible assumption
    | (with_reducible apply modReloc_frame)
    | (with_reducible apply updFlash_frame)
    | (with_reducible refine frame_foldl (fun x b hx => ?_) ?_)
    | (with_reducible refine frame_foldl_fst (fun x b hx => ?_) ?_)
    | (intro b; refine (fun (_ : OnlyChanges F z b) => ?_) ?_; clear_value b; swap; dsimp only [b]; swap)
    | (intro b; refine (fun (_ : OnlyChanges F z b.1) => ?_) ?_; clear_value b; swap; dsimp only [b]; swap)
    | (intro b; clear_value b)
    | intro b
    | lift_lets

theorem victimScan_frame (hz : OnlyChanges F z s) (m3 : Part.regs ∈ F) (m16 : Part.map ∈ F) : OnlyChanges F z (victimScan s) := by
  unfold victimScan
  repeat' first
    | with_reducible assumption
    | (with_reducible apply updMap_frame)
    | (with_reducible apply trig54_frame)

theorem victimScanDone_frame (hz : OnlyChanges F z s) (m3 : Part.regs ∈ F) (m16 : Part.map ∈ F) : OnlyChanges F z (victimScanDone s) := by
  unfold victimScanDone
  repeat' first
    | with_reducible assumption
    | (with_reducible apply wr_frame)
    | (with_reducible apply wrField_frame)
    | (with_reducible apply updMap_frame)
    | (with_reducible apply frame_ite)
    | (with_reducible apply frame_ite_fst)
    | (with_reducible refine frame_foldl (fun x b hx => ?_) ?_)
    | (with_reducible refine frame_foldl_fst (fun x b hx => ?_) ?_)
    | (intro b; refine (fun (_ : OnlyChanges F z b) => ?_) ?_; clear_value b; swap; dsimp only [b]; swap)
    | (intro b; refine (fun (_ : OnlyChanges F z b.1) => ?_) ?_; clear_value b; swap; dsimp only [b]; swap)
    | (intro b; clear_value b)
    | intro b
    | lift_lets
    | split
    | dsimp only

theorem retireLuns_frame {luns : List Nat} (hz : OnlyChanges F z s) (m1 : Part.out ∈ F) (m2 : Part.clk ∈ F) (m3 : Part.regs ∈ F) (m4 : Part.portA ∈ F) (m5 : Part.portB ∈ F) (m6 : Part.evr ∈ F) (m16 : Part.map ∈ F) (m17 : Part.flash ∈ F) (m18 : Part.jrc ∈ F) : OnlyChanges F z (retireLuns s luns) := by
  unfold retireLuns
  repeat' first
    | with_reducible assumption
    | (with_reducible apply failPrograms_frame)
    | (with_reducible apply endLun_frame)
    | (with_reducible apply dropOp_frame)
    | (with_reducible apply updTab_frame)
    | (with_reducible apply noteEnded_frame)
    | (with_reducible apply spaceUpdate_frame)
    | (with_reducible apply turn_frame)
    | (with_reducible apply updMap_frame)
    | (with_reducible apply frame_ite)
    | (with_reducible apply frame_ite_fst)
    | (with_reducible refine frame_foldl (fun x b hx => ?_) ?_)
    | (with_reducible refine frame_foldl_fst (fun x b hx => ?_) ?_)
    | (intro b; refine (fun (_ : OnlyChanges F z b) => ?_) ?_; clear_value b; swap; dsimp only [b]; swap)
    | (intro b; refine (fun (_ : OnlyChanges F z b.1) => ?_) ?_; clear_value b; swap; dsimp only [b]; swap)
    | (intro b; clear_value b)
    | intro b
    | lift_lets
    | split

theorem lunRetire_frame {c : Nat} {p : Nat} (hz : OnlyChanges F z s) (m1 : Part.out ∈ F) (m2 : Part.clk ∈ F) (m3 : Part.regs ∈ F) (m4 : Part.portA ∈ F) (m5 : Part.portB ∈ F) (m6 : Part.evr ∈ F) (m16 : Part.map ∈ F) (m17 : Part.flash ∈ F) (m18 : Part.jrc ∈ F) : OnlyChanges F z (lunRetire s c p) := by
  unfold lunRetire
  repeat' first
    | with_reducible assumption
    | (with_reducible apply orReg_frame)
    | (with_reducible apply retireLuns_frame)
    | (with_reducible apply updMap_frame)
    | (intro b; refine (fun (_ : OnlyChanges F z b) => ?_) ?_; clear_value b; swap; dsimp only [b]; swap)
    | (intro b; clear_value b)
    | intro b
    | lift_lets

theorem channelRetire_frame {c : Nat} (hz : OnlyChanges F z s) (m1 : Part.out ∈ F) (m2 : Part.clk ∈ F) (m3 : Part.regs ∈ F) (m4 : Part.portA ∈ F) (m5 : Part.portB ∈ F) (m6 : Part.evr ∈ F) (m16 : Part.map ∈ F) (m17 : Part.flash ∈ F) (m18 : Part.jrc ∈ F) : OnlyChanges F z (channelRetire s c) := by
  unfold channelRetire
  repeat' first
    | with_reducible assumption
    | (with_reducible apply orReg_frame)
    | (with_reducible apply retireLuns_frame)
    | (with_reducible apply updMap_frame)
    | (intro b; refine (fun (_ : OnlyChanges F z b) => ?_) ?_; clear_value b; swap; dsimp only [b]; swap)
    | (intro b; clear_value b)
    | intro b
    | lift_lets

theorem channelGone_frame {c : Nat} (hz : OnlyChanges F z s) (m1 : Part.out ∈ F) (m3 : Part.regs ∈ F) (m4 : Part.portA ∈ F) (m5 : Part.portB ∈ F) (m6 : Part.evr ∈ F) (m9 : Part.chip ∈ F) (m16 : Part.map ∈ F) : OnlyChanges F z (channelGone s c) := by
  unfold channelGone
  repeat' first
    | with_reducible assumption
    | (with_reducible apply updChip_frame)
    | (with_reducible apply spaceUpdate_frame)
    | (with_reducible apply updMap_frame)
    | (intro b; refine (fun (_ : OnlyChanges F z b) => ?_) ?_; clear_value b; swap; dsimp only [b]; swap)
    | (intro b; refine (fun (_ : OnlyChanges F z b.1) => ?_) ?_; clear_value b; swap; dsimp only [b]; swap)
    | (intro b; clear_value b)
    | intro b
    | lift_lets
    | (fail_if_no_progress with_reducible refine frame_upd ?_)

theorem sweepsEnd_frame (hz : OnlyChanges F z s) (m1 : Part.out ∈ F) (m3 : Part.regs ∈ F) (m4 : Part.portA ∈ F) (m5 : Part.portB ∈ F) (m6 : Part.evr ∈ F) (m9 : Part.chip ∈ F) (m16 : Part.map ∈ F) : OnlyChanges F z (sweepsEnd s) := by
  unfold sweepsEnd
  repeat' first
    | with_reducible assumption
    | (with_reducible apply channelGone_frame)
    | (with_reducible refine frame_foldl (fun x b hx => ?_) ?_)
    | (with_reducible refine frame_foldl_fst (fun x b hx => ?_) ?_)

theorem channelSweepDone_frame {c : Nat} (hz : OnlyChanges F z s) (m1 : Part.out ∈ F) (m3 : Part.regs ∈ F) (m4 : Part.portA ∈ F) (m5 : Part.portB ∈ F) (m6 : Part.evr ∈ F) (m9 : Part.chip ∈ F) (m16 : Part.map ∈ F) (m18 : Part.jrc ∈ F) : OnlyChanges F z (channelSweepDone s c) := by
  unfold channelSweepDone
  repeat' first
    | with_reducible assumption
    | (with_reducible apply askGroup_frame)
    | (with_reducible apply sweepsEnd_frame)
    | (with_reducible apply updMap_frame)
    | (with_reducible apply frame_ite)
    | (with_reducible apply frame_ite_fst)
    | (with_reducible refine frame_foldl (fun x b hx => ?_) ?_)
    | (with_reducible refine frame_foldl_fst (fun x b hx => ?_) ?_)
    | (intro b; refine (fun (_ : OnlyChanges F z b) => ?_) ?_; clear_value b; swap; dsimp only [b]; swap)
    | (intro b; refine (fun (_ : OnlyChanges F z b.1) => ?_) ?_; clear_value b; swap; dsimp only [b]; swap)
    | (with_reducible apply hfn)
    | (intro b; refine (fun (hfn : ∀ x, OnlyChanges F z x → OnlyChanges F z (b x)) => ?_) ?_; clear_value b; swap; (intro x hx; dsimp only [b]); swap)
    | (intro b; refine (fun (hfn : ∀ x y, OnlyChanges F z x → OnlyChanges F z (b x y)) => ?_) ?_; clear_value b; swap; (intro x y hx; dsimp only [b]); swap)
    | (with_reducible apply hfc)
    | (with_reducible apply hfd)
    | (intro b; refine (fun (hfc : ∀ x, OnlyChanges F z (b x)) => ?_) ?_; clear_value b; swap; (intro x; dsimp only [b]); swap)
    | (intro b; refine (fun (hfd : ∀ x y, OnlyChanges F z (b x y)) => ?_) ?_; clear_value b; swap; (intro x y; dsimp only [b]); swap)
    | (intro b; clear_value b)
    | intro b
    | lift_lets
    | split
    | dsimp only

theorem dlqWrite_frame {cause : Nat} {req : Nat} {ppa : Nat} {ctx : Option (Nat × Nat)} (hz : OnlyChanges F z s) (m1 : Part.out ∈ F) (m3 : Part.regs ∈ F) (m4 : Part.portA ∈ F) (m5 : Part.portB ∈ F) (m6 : Part.evr ∈ F) : OnlyChanges F z (dlqWrite s cause req ppa ctx) := by
  unfold dlqWrite
  repeat' first
    | with_reducible assumption
    | (with_reducible apply wr_frame)
    | (with_reducible apply raise_frame)
    | (intro b; refine (fun (_ : OnlyChanges F z b) => ?_) ?_; clear_value b; swap; dsimp only [b]; swap)
    | (intro b; refine (fun (_ : OnlyChanges F z b.1) => ?_) ?_; clear_value b; swap; dsimp only [b]; swap)
    | (intro b; clear_value b)
    | intro b
    | lift_lets
    | split
    | dsimp only

theorem stageRun_frame {r : DeadRun} (hz : OnlyChanges F z s) (m1 : Part.out ∈ F) (m3 : Part.regs ∈ F) (m4 : Part.portA ∈ F) (m5 : Part.portB ∈ F) (m6 : Part.evr ∈ F) (m16 : Part.map ∈ F) (m18 : Part.jrc ∈ F) (m21 : Part.pat ∈ F) : OnlyChanges F z (stageRun s r) := by
  unfold stageRun
  repeat' first
    | with_reducible assumption
    | (with_reducible apply updPat_frame)
    | (with_reducible apply tryBundle_frame)
    | (with_reducible apply waitBundle_frame)
    | (with_reducible apply askGroup_frame)
    | (with_reducible apply frame_ite)
    | (with_reducible apply frame_ite_fst)
    | (with_reducible refine frame_foldl (fun x b hx => ?_) ?_)
    | (with_reducible refine frame_foldl_fst (fun x b hx => ?_) ?_)
    | (intro b; refine (fun (_ : OnlyChanges F z b) => ?_) ?_; clear_value b; swap; dsimp only [b]; swap)
    | (intro b; refine (fun (_ : OnlyChanges F z b.1) => ?_) ?_; clear_value b; swap; dsimp only [b]; swap)
    | (with_reducible apply hfn)
    | (intro b; refine (fun (hfn : ∀ x, OnlyChanges F z x → OnlyChanges F z (b x)) => ?_) ?_; clear_value b; swap; (intro x hx; dsimp only [b]); swap)
    | (intro b; refine (fun (hfn : ∀ x y, OnlyChanges F z x → OnlyChanges F z (b x y)) => ?_) ?_; clear_value b; swap; (intro x y hx; dsimp only [b]); swap)
    | (with_reducible apply hfc)
    | (with_reducible apply hfd)
    | (intro b; refine (fun (hfc : ∀ x, OnlyChanges F z (b x)) => ?_) ?_; clear_value b; swap; (intro x; dsimp only [b]); swap)
    | (intro b; refine (fun (hfd : ∀ x y, OnlyChanges F z (b x y)) => ?_) ?_; clear_value b; swap; (intro x y; dsimp only [b]); swap)
    | (intro b; clear_value b)
    | intro b
    | lift_lets
    | split
    | (refine frame_of_eq (by assumption) ?_)
    | (fail_if_no_progress with_reducible refine frame_upd ?_)
    | dsimp only

theorem ownCut_frame (hz : OnlyChanges F z s) (m1 : Part.out ∈ F) (m3 : Part.regs ∈ F) (m4 : Part.portA ∈ F) (m5 : Part.portB ∈ F) (m6 : Part.evr ∈ F) (m16 : Part.map ∈ F) (m17 : Part.flash ∈ F) (m18 : Part.jrc ∈ F) : OnlyChanges F z (ownCut s) := by
  unfold ownCut
  repeat' first
    | with_reducible assumption
    | (with_reducible apply cutover_frame)
    | (with_reducible apply frame_ite)
    | split

theorem stageRuns_frame (hz : OnlyChanges F z s) (m1 : Part.out ∈ F) (m3 : Part.regs ∈ F) (m4 : Part.portA ∈ F) (m5 : Part.portB ∈ F) (m6 : Part.evr ∈ F) (m16 : Part.map ∈ F) (m17 : Part.flash ∈ F) (m18 : Part.jrc ∈ F) (m21 : Part.pat ∈ F) : OnlyChanges F z (stageRuns s) := by
  unfold stageRuns
  repeat' first
    | with_reducible assumption
    | (with_reducible apply stageRun_frame)
    | (with_reducible apply updPat_frame)
    | (with_reducible apply ownCut_frame)
    | (with_reducible apply frame_ite)
    | (with_reducible refine frame_foldl (fun x b hx => ?_) ?_)
    | (intro b; refine (fun (_ : OnlyChanges F z b) => ?_) ?_; clear_value b; swap; dsimp only [b]; swap)
    | (with_reducible apply hfn)
    | (intro b; refine (fun (hfn : ∀ x, OnlyChanges F z x → OnlyChanges F z (b x)) => ?_) ?_; clear_value b; swap; (intro x hx; dsimp only [b]); swap)
    | (intro b; refine (fun (hfn : ∀ x y, OnlyChanges F z x → OnlyChanges F z (b x y)) => ?_) ?_; clear_value b; swap; (intro x y hx; dsimp only [b]); swap)
    | (with_reducible apply hfc)
    | (with_reducible apply hfd)
    | (intro b; refine (fun (hfc : ∀ x, OnlyChanges F z (b x)) => ?_) ?_; clear_value b; swap; (intro x; dsimp only [b]); swap)
    | (intro b; refine (fun (hfd : ∀ x y, OnlyChanges F z (b x y)) => ?_) ?_; clear_value b; swap; (intro x y; dsimp only [b]); swap)
    | (intro b; clear_value b)
    | intro b
    | lift_lets
    | split

theorem markDead_frame {nsid : Nat} {lets : List (Nat × Nat)} {whole : Bool} {cause : Nat} {req : Nat} (hz : OnlyChanges F z s) (m1 : Part.out ∈ F) (m3 : Part.regs ∈ F) (m4 : Part.portA ∈ F) (m5 : Part.portB ∈ F) (m6 : Part.evr ∈ F) (m15 : Part.phc ∈ F) (m16 : Part.map ∈ F) (m17 : Part.flash ∈ F) (m18 : Part.jrc ∈ F) (m21 : Part.pat ∈ F) : OnlyChanges F z (markDead s nsid lets whole cause req) := by
  unfold markDead
  repeat' first
    | with_reducible assumption
    | (with_reducible apply corruptAny_frame)
    | (with_reducible apply stageRuns_frame)
    | (with_reducible apply updPat_frame)
    | (with_reducible apply frame_ite)
    | (with_reducible apply frame_ite_fst)
    | (intro b; refine (fun (_ : OnlyChanges F z b) => ?_) ?_; clear_value b; swap; dsimp only [b]; swap)
    | (intro b; refine (fun (_ : OnlyChanges F z b.1) => ?_) ?_; clear_value b; swap; dsimp only [b]; swap)
    | (intro b; clear_value b)
    | intro b
    | lift_lets
    | split
    | dsimp only

theorem deadApplied_frame {dseq : Nat} {done : Bool} (hz : OnlyChanges F z s) (m1 : Part.out ∈ F) (m3 : Part.regs ∈ F) (m4 : Part.portA ∈ F) (m5 : Part.portB ∈ F) (m6 : Part.evr ∈ F) (m16 : Part.map ∈ F) (m21 : Part.pat ∈ F) : OnlyChanges F z (deadApplied s dseq done) := by
  unfold deadApplied
  repeat' first
    | with_reducible assumption
    | (with_reducible apply updMap_frame)
    | (with_reducible apply asyncBoth_frame)
    | (with_reducible apply updPat_frame)
    | (with_reducible apply frame_ite)
    | (intro b; refine (fun (_ : OnlyChanges F z b) => ?_) ?_; clear_value b; swap; dsimp only [b]; swap)
    | (intro b; clear_value b)
    | intro b
    | lift_lets
    | split
    | dsimp only

theorem stagingRecover_frame (hz : OnlyChanges F z s) (m21 : Part.pat ∈ F) : OnlyChanges F z (stagingRecover s) := by
  unfold stagingRecover
  repeat' first
    | with_reducible assumption
    | (with_reducible apply updPat_frame)
    | (with_reducible refine frame_foldl (fun x b hx => ?_) ?_)
    | (intro b; refine (fun (_ : OnlyChanges F z b) => ?_) ?_; clear_value b; swap; dsimp only [b]; swap)
    | (intro b; clear_value b)
    | intro b
    | lift_lets

theorem inspect_frame {ppa : Nat} (hz : OnlyChanges F z s) (m1 : Part.out ∈ F) (m3 : Part.regs ∈ F) (m4 : Part.portA ∈ F) (m5 : Part.portB ∈ F) (m6 : Part.evr ∈ F) (m21 : Part.pat ∈ F) : OnlyChanges F z (inspect s ppa) := by
  unfold inspect
  repeat' first
    | with_reducible assumption
    | (with_reducible apply setCause_frame)
    | (with_reducible apply satAdd_frame)
    | (with_reducible apply updPat_frame)
    | (with_reducible apply frame_ite)
    | (with_reducible apply frame_ite_fst)
    | (intro b; refine (fun (_ : OnlyChanges F z b) => ?_) ?_; clear_value b; swap; dsimp only [b]; swap)
    | (intro b; refine (fun (_ : OnlyChanges F z b.1) => ?_) ?_; clear_value b; swap; dsimp only [b]; swap)
    | (intro b; clear_value b)
    | intro b
    | lift_lets
    | split
    | dsimp only

theorem modLad_frame {id : Nat} {f : Ladder → Ladder} (hz : OnlyChanges F z s) (m17 : Part.flash ∈ F) : OnlyChanges F z (modLad s id f) := by
  unfold modLad
  repeat' first
    | with_reducible assumption
    | (with_reducible apply updFlash_frame)
    | (with_reducible apply hf)
    | (fail_if_no_progress with_reducible refine frame_upd ?_)

theorem dropLad_frame {id : Nat} (hz : OnlyChanges F z s) (m17 : Part.flash ∈ F) : OnlyChanges F z (dropLad s id) := by
  unfold dropLad
  repeat' first
    | with_reducible assumption
    | (with_reducible apply updFlash_frame)
    | (fail_if_no_progress with_reducible refine frame_upd ?_)

theorem reportPage_frame {ppa : Nat} (hz : OnlyChanges F z s) (m3 : Part.regs ∈ F) (m16 : Part.map ∈ F) : OnlyChanges F z (reportPage s ppa) := by
  unfold reportPage
  repeat' first
    | with_reducible assumption
    | (with_reducible apply refreshAdd_frame)
    | (with_reducible apply frame_ite)
    | split
    | dsimp only

theorem startRebuild_frame {id : Nat} (hz : OnlyChanges F z s) (m1 : Part.out ∈ F) (m2 : Part.clk ∈ F) (m3 : Part.regs ∈ F) (m4 : Part.portA ∈ F) (m5 : Part.portB ∈ F) (m6 : Part.evr ∈ F) (m14 : Part.dram ∈ F) (m15 : Part.phc ∈ F) (m17 : Part.flash ∈ F) (m18 : Part.jrc ∈ F) (m21 : Part.pat ∈ F) (m22 : Part.mem ∈ F) : OnlyChanges F z (startRebuild s id) := by
  unfold startRebuild
  repeat' first
    | with_reducible assumption
    | (with_reducible apply modLad_frame)
    | (with_reducible apply pump_frame)
    | (with_reducible apply addReads_frame)
    | (with_reducible apply frame_ite)
    | (intro b; refine (fun (_ : OnlyChanges F z b) => ?_) ?_; clear_value b; swap; dsimp only [b]; swap)
    | (with_reducible apply hfn)
    | (intro b; refine (fun (hfn : ∀ x, OnlyChanges F z x → OnlyChanges F z (b x)) => ?_) ?_; clear_value b; swap; (intro x hx; dsimp only [b]); swap)
    | (intro b; refine (fun (hfn : ∀ x y, OnlyChanges F z x → OnlyChanges F z (b x y)) => ?_) ?_; clear_value b; swap; (intro x y hx; dsimp only [b]); swap)
    | (with_reducible apply hfc)
    | (with_reducible apply hfd)
    | (intro b; refine (fun (hfc : ∀ x, OnlyChanges F z (b x)) => ?_) ?_; clear_value b; swap; (intro x; dsimp only [b]); swap)
    | (intro b; refine (fun (hfd : ∀ x y, OnlyChanges F z (b x y)) => ?_) ?_; clear_value b; swap; (intro x y; dsimp only [b]); swap)
    | (intro b; clear_value b)
    | intro b
    | lift_lets
    | split
    | dsimp only

theorem memberDone_frame {id : Nat} {m : Nat} {ok : Bool} (hz : OnlyChanges F z s) (m1 : Part.out ∈ F) (m2 : Part.clk ∈ F) (m3 : Part.regs ∈ F) (m4 : Part.portA ∈ F) (m5 : Part.portB ∈ F) (m6 : Part.evr ∈ F) (m14 : Part.dram ∈ F) (m15 : Part.phc ∈ F) (m17 : Part.flash ∈ F) (m18 : Part.jrc ∈ F) (m21 : Part.pat ∈ F) (m22 : Part.mem ∈ F) : OnlyChanges F z (memberDone s id m ok) := by
  unfold memberDone
  repeat' first
    | with_reducible assumption
    | (with_reducible apply modLad_frame)
    | (with_reducible apply pump_frame)
    | (with_reducible apply addReads_frame)
    | (with_reducible apply frame_ite)
    | (intro b; refine (fun (_ : OnlyChanges F z b) => ?_) ?_; clear_value b; swap; dsimp only [b]; swap)
    | (intro b; clear_value b)
    | intro b
    | lift_lets
    | split
    | dsimp only

theorem patGot_frame {ppa : Nat} {v : Got} (hz : OnlyChanges F z s) (m21 : Part.pat ∈ F) : OnlyChanges F z (patGot s ppa v) := by
  unfold patGot
  repeat' first
    | with_reducible assumption
    | (with_reducible apply updPat_frame)

theorem patFault_frame {ppa : Nat} (hz : OnlyChanges F z s) (m21 : Part.pat ∈ F) : OnlyChanges F z (patFault s ppa) := by
  unfold patFault
  repeat' first
    | with_reducible assumption
    | (with_reducible apply updPat_frame)
    | (with_reducible apply frame_ite)
    | (intro b; refine (fun (_ : OnlyChanges F z b) => ?_) ?_; clear_value b; swap; dsimp only [b]; swap)
    | (with_reducible apply hfn)
    | (intro b; refine (fun (hfn : ∀ x, OnlyChanges F z x → OnlyChanges F z (b x)) => ?_) ?_; clear_value b; swap; (intro x hx; dsimp only [b]); swap)
    | (intro b; refine (fun (hfn : ∀ x y, OnlyChanges F z x → OnlyChanges F z (b x y)) => ?_) ?_; clear_value b; swap; (intro x y hx; dsimp only [b]); swap)
    | (with_reducible apply hfc)
    | (with_reducible apply hfd)
    | (intro b; refine (fun (hfc : ∀ x, OnlyChanges F z (b x)) => ?_) ?_; clear_value b; swap; (intro x; dsimp only [b]); swap)
    | (intro b; refine (fun (hfd : ∀ x y, OnlyChanges F z (b x y)) => ?_) ?_; clear_value b; swap; (intro x y; dsimp only [b]); swap)
    | (intro b; clear_value b)
    | intro b
    | lift_lets
    | split

theorem deliver1_frame {ppa : Nat} {v : Got} {r : Req} (hz : OnlyChanges F z s) (m1 : Part.out ∈ F) (m2 : Part.clk ∈ F) (m3 : Part.regs ∈ F) (m4 : Part.portA ∈ F) (m5 : Part.portB ∈ F) (m6 : Part.evr ∈ F) (m14 : Part.dram ∈ F) (m15 : Part.phc ∈ F) (m16 : Part.map ∈ F) (m17 : Part.flash ∈ F) (m18 : Part.jrc ∈ F) (m19 : Part.srt ∈ F) (m21 : Part.pat ∈ F) (m22 : Part.mem ∈ F) : OnlyChanges F z (deliver1 s ppa v r) := by
  unfold deliver1
  repeat' first
    | with_reducible assumption
    | (with_reducible apply patGot_frame)
    | (with_reducible apply memberDone_frame)
    | (with_reducible apply addReads_frame)
    | (with_reducible apply cmdGot_frame)
    | (with_reducible apply inspect_frame)
    | (with_reducible apply relocGot_frame)
    | (with_reducible apply frame_ite)
    | split
    | dsimp only

theorem deliver_frame {ppa : Nat} {v : Got} {r : Req} (hz : OnlyChanges F z s) (m1 : Part.out ∈ F) (m2 : Part.clk ∈ F) (m3 : Part.regs ∈ F) (m4 : Part.portA ∈ F) (m5 : Part.portB ∈ F) (m6 : Part.evr ∈ F) (m14 : Part.dram ∈ F) (m15 : Part.phc ∈ F) (m16 : Part.map ∈ F) (m17 : Part.flash ∈ F) (m18 : Part.jrc ∈ F) (m19 : Part.srt ∈ F) (m21 : Part.pat ∈ F) (m22 : Part.mem ∈ F) : OnlyChanges F z (deliver s ppa v r) := by
  unfold deliver
  repeat' first
    | with_reducible assumption
    | (with_reducible apply deliver1_frame)
    | (with_reducible apply dropLad_frame)
    | (with_reducible refine frame_foldl (fun x b hx => ?_) ?_)
    | split
    | dsimp only

theorem deliverAll_frame {ppa : Nat} {v : Got} {rs : List Req} (hz : OnlyChanges F z s) (m1 : Part.out ∈ F) (m2 : Part.clk ∈ F) (m3 : Part.regs ∈ F) (m4 : Part.portA ∈ F) (m5 : Part.portB ∈ F) (m6 : Part.evr ∈ F) (m14 : Part.dram ∈ F) (m15 : Part.phc ∈ F) (m16 : Part.map ∈ F) (m17 : Part.flash ∈ F) (m18 : Part.jrc ∈ F) (m19 : Part.srt ∈ F) (m21 : Part.pat ∈ F) (m22 : Part.mem ∈ F) : OnlyChanges F z (deliverAll s ppa v rs) := by
  unfold deliverAll
  repeat' first
    | with_reducible assumption
    | (with_reducible apply deliver_frame)
    | (with_reducible refine frame_foldl (fun x b hx => ?_) ?_)

theorem requestReads_frame {cls : Nat} {ps : List (Nat × Req)} (hz : OnlyChanges F z s) (m1 : Part.out ∈ F) (m2 : Part.clk ∈ F) (m3 : Part.regs ∈ F) (m4 : Part.portA ∈ F) (m5 : Part.portB ∈ F) (m6 : Part.evr ∈ F) (m14 : Part.dram ∈ F) (m15 : Part.phc ∈ F) (m16 : Part.map ∈ F) (m17 : Part.flash ∈ F) (m18 : Part.jrc ∈ F) (m19 : Part.srt ∈ F) (m21 : Part.pat ∈ F) (m22 : Part.mem ∈ F) : OnlyChanges F z (requestReads s cls ps) := by
  unfold requestReads
  repeat' first
    | with_reducible assumption
    | (with_reducible apply deliver_frame)
    | (with_reducible apply addReads_frame)
    | (with_reducible refine frame_foldl (fun x b hx => ?_) ?_)
    | (with_reducible refine frame_foldl_fst (fun x b hx => ?_) ?_)
    | (intro b; refine (fun (_ : OnlyChanges F z b) => ?_) ?_; clear_value b; swap; dsimp only [b]; swap)
    | (intro b; refine (fun (_ : OnlyChanges F z b.1) => ?_) ?_; clear_value b; swap; dsimp only [b]; swap)
    | (intro b; clear_value b)
    | intro b
    | lift_lets

theorem addStepRead_frame {id : Nat} (hz : OnlyChanges F z s) (m1 : Part.out ∈ F) (m2 : Part.clk ∈ F) (m3 : Part.regs ∈ F) (m4 : Part.portA ∈ F) (m5 : Part.portB ∈ F) (m6 : Part.evr ∈ F) (m14 : Part.dram ∈ F) (m15 : Part.phc ∈ F) (m17 : Part.flash ∈ F) (m18 : Part.jrc ∈ F) (m21 : Part.pat ∈ F) (m22 : Part.mem ∈ F) : OnlyChanges F z (addStepRead s id) := by
  unfold addStepRead
  repeat' first
    | with_reducible assumption
    | (with_reducible apply ttShifted_frame)
    | (with_reducible apply modLad_frame)
    | (with_reducible apply addOp_frame)
    | (with_reducible apply frame_ite)
    | (with_reducible apply frame_ite_fst)
    | (intro b; refine (fun (_ : OnlyChanges F z b) => ?_) ?_; clear_value b; swap; dsimp only [b]; swap)
    | (intro b; refine (fun (_ : OnlyChanges F z b.1) => ?_) ?_; clear_value b; swap; dsimp only [b]; swap)
    | (intro b; clear_value b)
    | intro b
    | lift_lets
    | split
    | (refine frame_of_eq (by assumption) ?_)
    | dsimp only

theorem softTake_frame {d : Nat} (hz : OnlyChanges F z s) (m17 : Part.flash ∈ F) : OnlyChanges F z (softTake s d) := by
  unfold softTake
  repeat' first
    | with_reducible assumption
    | (with_reducible apply modLad_frame)
    | (with_reducible apply frame_ite)
    | (with_reducible apply frame_ite_fst)
    | (with_reducible refine frame_foldl (fun x b hx => ?_) ?_)
    | (with_reducible refine frame_foldl_fst (fun x b hx => ?_) ?_)
    | (intro b; refine (fun (_ : OnlyChanges F z b) => ?_) ?_; clear_value b; swap; dsimp only [b]; swap)
    | (intro b; refine (fun (_ : OnlyChanges F z b.1) => ?_) ?_; clear_value b; swap; dsimp only [b]; swap)
    | (intro b; clear_value b)
    | intro b
    | lift_lets
    | split
    | dsimp only

theorem allocate_frame (hz : OnlyChanges F z s) (m1 : Part.out ∈ F) (m3 : Part.regs ∈ F) (m4 : Part.portA ∈ F) (m5 : Part.portB ∈ F) (m6 : Part.evr ∈ F) (m17 : Part.flash ∈ F) : OnlyChanges F z (allocate s) := by
  unfold allocate
  repeat' first
    | with_reducible assumption
    | (with_reducible apply softTake_frame)
    | (with_reducible apply tokenAllocation_frame)
    | (with_reducible refine frame_foldl (fun x b hx => ?_) ?_)

theorem softAsk_frame {id : Nat} {d : Nat} (hz : OnlyChanges F z s) (m1 : Part.out ∈ F) (m3 : Part.regs ∈ F) (m4 : Part.portA ∈ F) (m5 : Part.portB ∈ F) (m6 : Part.evr ∈ F) (m17 : Part.flash ∈ F) : OnlyChanges F z (softAsk s id d) := by
  unfold softAsk
  repeat' first
    | with_reducible assumption
    | (with_reducible apply softTake_frame)
    | (with_reducible apply modLad_frame)
    | (with_reducible apply dstCauseSet_frame)
    | (with_reducible apply frame_ite)
    | (with_reducible refine frame_foldl (fun x b hx => ?_) ?_)
    | (intro b; refine (fun (_ : OnlyChanges F z b) => ?_) ?_; clear_value b; swap; dsimp only [b]; swap)
    | (intro b; clear_value b)
    | intro b
    | lift_lets
    | split

theorem endLimited_frame {id : Nat} {l : Ladder} (hz : OnlyChanges F z s) (m1 : Part.out ∈ F) (m2 : Part.clk ∈ F) (m3 : Part.regs ∈ F) (m4 : Part.portA ∈ F) (m5 : Part.portB ∈ F) (m6 : Part.evr ∈ F) (m14 : Part.dram ∈ F) (m15 : Part.phc ∈ F) (m16 : Part.map ∈ F) (m17 : Part.flash ∈ F) (m18 : Part.jrc ∈ F) (m19 : Part.srt ∈ F) (m21 : Part.pat ∈ F) (m22 : Part.mem ∈ F) : OnlyChanges F z (endLimited s id l).1 := by
  unfold endLimited
  repeat' first
    | with_reducible assumption
    | (with_reducible apply dropLad_frame)
    | (with_reducible apply modLad_frame)
    | (with_reducible apply deliverAll_frame)
    | (with_reducible apply frame_ite)
    | (with_reducible apply frame_ite_fst)
    | (intro b; refine (fun (_ : OnlyChanges F z b) => ?_) ?_; clear_value b; swap; dsimp only [b]; swap)
    | (intro b; refine (fun (_ : OnlyChanges F z b.1) => ?_) ?_; clear_value b; swap; dsimp only [b]; swap)
    | (intro b; clear_value b)
    | intro b
    | lift_lets
    | split
    | dsimp only

theorem toRebuild_frame {id : Nat} (hz : OnlyChanges F z s) (m1 : Part.out ∈ F) (m2 : Part.clk ∈ F) (m3 : Part.regs ∈ F) (m4 : Part.portA ∈ F) (m5 : Part.portB ∈ F) (m6 : Part.evr ∈ F) (m14 : Part.dram ∈ F) (m15 : Part.phc ∈ F) (m16 : Part.map ∈ F) (m17 : Part.flash ∈ F) (m18 : Part.jrc ∈ F) (m19 : Part.srt ∈ F) (m21 : Part.pat ∈ F) (m22 : Part.mem ∈ F) : OnlyChanges F z (toRebuild s id) := by
  unfold toRebuild
  repeat' first
    | with_reducible assumption
    | (with_reducible apply deliverAll_frame)
    | (with_reducible apply dropLad_frame)
    | (with_reducible apply endLimited_frame)
    | (with_reducible apply startRebuild_frame)
    | (with_reducible apply modLad_frame)
    | (with_reducible apply frame_ite)
    | (with_reducible apply frame_ite_fst)
    | (intro b; refine (fun (_ : OnlyChanges F z b) => ?_) ?_; clear_value b; swap; dsimp only [b]; swap)
    | (intro b; refine (fun (_ : OnlyChanges F z b.1) => ?_) ?_; clear_value b; swap; dsimp only [b]; swap)
    | (intro b; clear_value b)
    | intro b
    | lift_lets
    | split
    | (refine frame_of_eq (by assumption) ?_)
    | dsimp only

theorem enterLadder_frame {ppa : Nat} {sig : ℤ} {reqs : List Req} (hz : OnlyChanges F z s) (m1 : Part.out ∈ F) (m2 : Part.clk ∈ F) (m3 : Part.regs ∈ F) (m4 : Part.portA ∈ F) (m5 : Part.portB ∈ F) (m6 : Part.evr ∈ F) (m14 : Part.dram ∈ F) (m15 : Part.phc ∈ F) (m16 : Part.map ∈ F) (m17 : Part.flash ∈ F) (m18 : Part.jrc ∈ F) (m19 : Part.srt ∈ F) (m21 : Part.pat ∈ F) (m22 : Part.mem ∈ F) : OnlyChanges F z (enterLadder s ppa sig reqs) := by
  unfold enterLadder
  repeat' first
    | with_reducible assumption
    | (with_reducible apply modLad_frame)
    | (with_reducible apply deliverAll_frame)
    | (with_reducible apply addStepRead_frame)
    | (with_reducible apply updFlash_frame)
    | (intro b; refine (fun (_ : OnlyChanges F z b) => ?_) ?_; clear_value b; swap; dsimp only [b]; swap)
    | (intro b; clear_value b)
    | intro b
    | lift_lets
    | split
    | dsimp only

theorem busFault_frame {ppa : Nat} {reqs : List Req} (hz : OnlyChanges F z s) (m1 : Part.out ∈ F) (m2 : Part.clk ∈ F) (m3 : Part.regs ∈ F) (m4 : Part.portA ∈ F) (m5 : Part.portB ∈ F) (m6 : Part.evr ∈ F) (m14 : Part.dram ∈ F) (m15 : Part.phc ∈ F) (m16 : Part.map ∈ F) (m17 : Part.flash ∈ F) (m18 : Part.jrc ∈ F) (m19 : Part.srt ∈ F) (m21 : Part.pat ∈ F) (m22 : Part.mem ∈ F) : OnlyChanges F z (busFault s ppa reqs) := by
  unfold busFault
  repeat' first
    | with_reducible assumption
    | (with_reducible apply patFault_frame)
    | (with_reducible apply toRebuild_frame)
    | (with_reducible apply modLad_frame)
    | (with_reducible apply deliver_frame)
    | (with_reducible apply updFlash_frame)
    | (with_reducible apply frame_ite)
    | (with_reducible refine frame_foldl (fun x b hx => ?_) ?_)
    | (intro b; refine (fun (_ : OnlyChanges F z b) => ?_) ?_; clear_value b; swap; dsimp only [b]; swap)
    | (intro b; clear_value b)
    | intro b
    | lift_lets
    | split
    | dsimp only

theorem lostReads_frame (hz : OnlyChanges F z s) (m1 : Part.out ∈ F) (m2 : Part.clk ∈ F) (m3 : Part.regs ∈ F) (m4 : Part.portA ∈ F) (m5 : Part.portB ∈ F) (m6 : Part.evr ∈ F) (m14 : Part.dram ∈ F) (m15 : Part.phc ∈ F) (m16 : Part.map ∈ F) (m17 : Part.flash ∈ F) (m18 : Part.jrc ∈ F) (m19 : Part.srt ∈ F) (m21 : Part.pat ∈ F) (m22 : Part.mem ∈ F) : OnlyChanges F z (lostReads s) := by
  unfold lostReads
  repeat' first
    | with_reducible assumption
    | (with_reducible apply busFault_frame)
    | (with_reducible apply dropOp_frame)
    | (with_reducible refine frame_foldl (fun x b hx => ?_) ?_)
    | (with_reducible refine frame_foldl_fst (fun x b hx => ?_) ?_)

theorem readsOver_frame (hz : OnlyChanges F z s) (m1 : Part.out ∈ F) (m2 : Part.clk ∈ F) (m3 : Part.regs ∈ F) (m4 : Part.portA ∈ F) (m5 : Part.portB ∈ F) (m6 : Part.evr ∈ F) (m14 : Part.dram ∈ F) (m15 : Part.phc ∈ F) (m16 : Part.map ∈ F) (m17 : Part.flash ∈ F) (m18 : Part.jrc ∈ F) (m19 : Part.srt ∈ F) (m21 : Part.pat ∈ F) (m22 : Part.mem ∈ F) : OnlyChanges F z (readsOver s) := by
  unfold readsOver
  repeat' first
    | with_reducible assumption
    | (with_reducible apply settlePins_frame)
    | (with_reducible apply turn_frame)
    | (with_reducible apply lostReads_frame)

theorem ladderOk_frame {id : Nat} {l : Ladder} {p : Payload} {corrected : Nat} (hz : OnlyChanges F z s) (m1 : Part.out ∈ F) (m2 : Part.clk ∈ F) (m3 : Part.regs ∈ F) (m4 : Part.portA ∈ F) (m5 : Part.portB ∈ F) (m6 : Part.evr ∈ F) (m14 : Part.dram ∈ F) (m15 : Part.phc ∈ F) (m16 : Part.map ∈ F) (m17 : Part.flash ∈ F) (m18 : Part.jrc ∈ F) (m19 : Part.srt ∈ F) (m21 : Part.pat ∈ F) (m22 : Part.mem ∈ F) : OnlyChanges F z (ladderOk s id l p corrected) := by
  unfold ladderOk
  repeat' first
    | with_reducible assumption
    | (with_reducible apply deliverAll_frame)
    | (with_reducible apply dropLad_frame)

theorem rereadDone_frame {id : Nat} {l : Ladder} {decoded : Bool} {corrected : Nat} {st : ReadStats} (hz : OnlyChanges F z s) (m1 : Part.out ∈ F) (m2 : Part.clk ∈ F) (m3 : Part.regs ∈ F) (m4 : Part.portA ∈ F) (m5 : Part.portB ∈ F) (m6 : Part.evr ∈ F) (m14 : Part.dram ∈ F) (m15 : Part.phc ∈ F) (m16 : Part.map ∈ F) (m17 : Part.flash ∈ F) (m18 : Part.jrc ∈ F) (m19 : Part.srt ∈ F) (m21 : Part.pat ∈ F) (m22 : Part.mem ∈ F) : OnlyChanges F z (rereadDone s id l decoded corrected st) := by
  unfold rereadDone
  repeat' first
    | with_reducible assumption
    | (with_reducible apply snapTrigger_frame)
    | (with_reducible apply satAdd_frame)
    | (with_reducible apply ttHalfShift_frame)
    | (with_reducible apply ladderOk_frame)
    | (with_reducible apply ttUpdate_frame)
    | (with_reducible apply modLad_frame)
    | (with_reducible apply addStepRead_frame)
    | (with_reducible apply frame_ite)
    | (with_reducible apply frame_ite_fst)
    | (intro b; refine (fun (_ : OnlyChanges F z b) => ?_) ?_; clear_value b; swap; dsimp only [b]; swap)
    | (intro b; refine (fun (_ : OnlyChanges F z b.1) => ?_) ?_; clear_value b; swap; dsimp only [b]; swap)
    | (intro b; clear_value b)
    | intro b
    | lift_lets
    | split
    | dsimp only

theorem stepReadDone_frame {id : Nat} {decoded : Bool} {corrected : Nat} {st : ReadStats} (hz : OnlyChanges F z s) (m1 : Part.out ∈ F) (m2 : Part.clk ∈ F) (m3 : Part.regs ∈ F) (m4 : Part.portA ∈ F) (m5 : Part.portB ∈ F) (m6 : Part.evr ∈ F) (m14 : Part.dram ∈ F) (m15 : Part.phc ∈ F) (m16 : Part.map ∈ F) (m17 : Part.flash ∈ F) (m18 : Part.jrc ∈ F) (m19 : Part.srt ∈ F) (m21 : Part.pat ∈ F) (m22 : Part.mem ∈ F) : OnlyChanges F z (stepReadDone s id decoded corrected st) := by
  unfold stepReadDone
  repeat' first
    | with_reducible assumption
    | (with_reducible apply rereadDone_frame)
    | (with_reducible apply addStepRead_frame)
    | (with_reducible apply modLad_frame)
    | (with_reducible apply softAsk_frame)
    | (with_reducible apply frame_ite)
    | split
    | dsimp only

theorem softDone_frame {id : Nat} {decoded : Bool} {corrected : Nat} (hz : OnlyChanges F z s) (m1 : Part.out ∈ F) (m2 : Part.clk ∈ F) (m3 : Part.regs ∈ F) (m4 : Part.portA ∈ F) (m5 : Part.portB ∈ F) (m6 : Part.evr ∈ F) (m14 : Part.dram ∈ F) (m15 : Part.phc ∈ F) (m16 : Part.map ∈ F) (m17 : Part.flash ∈ F) (m18 : Part.jrc ∈ F) (m19 : Part.srt ∈ F) (m21 : Part.pat ∈ F) (m22 : Part.mem ∈ F) : OnlyChanges F z (softDone s id decoded corrected) := by
  unfold softDone
  repeat' first
    | with_reducible assumption
    | (with_reducible apply softTake_frame)
    | (with_reducible apply modLad_frame)
    | (with_reducible apply readsOver_frame)
    | (with_reducible apply ladderOk_frame)
    | (with_reducible apply satAdd_frame)
    | (with_reducible apply reportPage_frame)
    | (with_reducible apply addStepRead_frame)
    | (with_reducible apply toRebuild_frame)
    | (with_reducible apply dstCauseSet_frame)
    | (with_reducible apply frame_ite)
    | (intro b; refine (fun (_ : OnlyChanges F z b) => ?_) ?_; clear_value b; swap; dsimp only [b]; swap)
    | (intro b; clear_value b)
    | intro b
    | lift_lets
    | split
    | dsimp only

theorem rebuildDone_frame {id : Nat} (hz : OnlyChanges F z s) (m1 : Part.out ∈ F) (m2 : Part.clk ∈ F) (m3 : Part.regs ∈ F) (m4 : Part.portA ∈ F) (m5 : Part.portB ∈ F) (m6 : Part.evr ∈ F) (m14 : Part.dram ∈ F) (m15 : Part.phc ∈ F) (m16 : Part.map ∈ F) (m17 : Part.flash ∈ F) (m18 : Part.jrc ∈ F) (m19 : Part.srt ∈ F) (m21 : Part.pat ∈ F) (m22 : Part.mem ∈ F) : OnlyChanges F z (rebuildDone s id) := by
  unfold rebuildDone
  repeat' first
    | with_reducible assumption
    | (with_reducible apply startRebuild_frame)
    | (with_reducible apply readsOver_frame)
    | (with_reducible apply deliverAll_frame)
    | (with_reducible apply dropLad_frame)
    | (with_reducible apply strCauseSet_frame)
    | (with_reducible apply satAdd_frame)
    | (with_reducible apply refreshAdd_frame)
    | (with_reducible apply modLad_frame)
    | (with_reducible apply reportPage_frame)
    | (with_reducible apply ladderOk_frame)
    | (with_reducible apply frame_ite)
    | (with_reducible refine frame_foldl (fun x b hx => ?_) ?_)
    | (intro b; refine (fun (_ : OnlyChanges F z b) => ?_) ?_; clear_value b; swap; dsimp only [b]; swap)
    | (with_reducible apply hfn)
    | (intro b; refine (fun (hfn : ∀ x, OnlyChanges F z x → OnlyChanges F z (b x)) => ?_) ?_; clear_value b; swap; (intro x hx; dsimp only [b]); swap)
    | (intro b; refine (fun (hfn : ∀ x y, OnlyChanges F z x → OnlyChanges F z (b x y)) => ?_) ?_; clear_value b; swap; (intro x y hx; dsimp only [b]); swap)
    | (with_reducible apply hfc)
    | (with_reducible apply hfd)
    | (intro b; refine (fun (hfc : ∀ x, OnlyChanges F z (b x)) => ?_) ?_; clear_value b; swap; (intro x; dsimp only [b]); swap)
    | (intro b; refine (fun (hfd : ∀ x y, OnlyChanges F z (b x y)) => ?_) ?_; clear_value b; swap; (intro x y; dsimp only [b]); swap)
    | (intro b; clear_value b)
    | intro b
    | lift_lets
    | split
    | dsimp only

theorem dlqEntryWrite_frame {id : Nat} (hz : OnlyChanges F z s) (m1 : Part.out ∈ F) (m2 : Part.clk ∈ F) (m3 : Part.regs ∈ F) (m4 : Part.portA ∈ F) (m5 : Part.portB ∈ F) (m6 : Part.evr ∈ F) (m14 : Part.dram ∈ F) (m15 : Part.phc ∈ F) (m16 : Part.map ∈ F) (m17 : Part.flash ∈ F) (m18 : Part.jrc ∈ F) (m19 : Part.srt ∈ F) (m21 : Part.pat ∈ F) (m22 : Part.mem ∈ F) : OnlyChanges F z (dlqEntryWrite s id) := by
  unfold dlqEntryWrite
  repeat' first
    | with_reducible assumption
    | (with_reducible apply dlqWrite_frame)
    | (with_reducible apply markDead_frame)
    | (with_reducible apply readsOver_frame)
    | (with_reducible apply deliverAll_frame)
    | (with_reducible apply dropLad_frame)
    | (with_reducible apply frame_ite)
    | (intro b; refine (fun (_ : OnlyChanges F z b) => ?_) ?_; clear_value b; swap; dsimp only [b]; swap)
    | (intro b; clear_value b)
    | intro b
    | lift_lets
    | split
    | dsimp only

theorem countRead_frame {lun : Nat} {block : Nat} (hz : OnlyChanges F z s) (m3 : Part.regs ∈ F) (m16 : Part.map ∈ F) : OnlyChanges F z (countRead s lun block) := by
  unfold countRead
  repeat' first
    | with_reducible assumption
    | (with_reducible apply updTab_frame)
    | (with_reducible apply refreshAdd_frame)
    | (with_reducible apply frame_ite)
    | (with_reducible refine frame_foldl (fun x b hx => ?_) ?_)
    | (intro b; refine (fun (_ : OnlyChanges F z b) => ?_) ?_; clear_value b; swap; dsimp only [b]; swap)
    | (intro b; clear_value b)
    | intro b
    | lift_lets
    | split
    | dsimp only

theorem readComplete_frame {id : Nat} {cws : List CodewordRead} (hz : OnlyChanges F z s) (m1 : Part.out ∈ F) (m2 : Part.clk ∈ F) (m3 : Part.regs ∈ F) (m4 : Part.portA ∈ F) (m5 : Part.portB ∈ F) (m6 : Part.evr ∈ F) (m14 : Part.dram ∈ F) (m15 : Part.phc ∈ F) (m16 : Part.map ∈ F) (m17 : Part.flash ∈ F) (m18 : Part.jrc ∈ F) (m19 : Part.srt ∈ F) (m21 : Part.pat ∈ F) (m22 : Part.mem ∈ F) : OnlyChanges F z (readComplete s id cws) := by
  unfold readComplete
  repeat' first
    | with_reducible assumption
    | (with_reducible apply readsOver_frame)
    | (with_reducible apply busFault_frame)
    | (with_reducible apply dropOp_frame)
    | (with_reducible apply countRead_frame)
    | (with_reducible apply busDone_frame)
    | (with_reducible apply chnCauseSet_frame)
    | (with_reducible apply satAdd_frame)
    | (with_reducible apply deliverAll_frame)
    | (with_reducible apply stepReadDone_frame)
    | (with_reducible apply ttUpdate_frame)
    | (with_reducible apply snapTrigger_frame)
    | (with_reducible apply enterLadder_frame)
    | (with_reducible apply frame_ite)
    | (with_reducible apply frame_ite_fst)
    | (with_reducible refine frame_foldl (fun x b hx => ?_) ?_)
    | (with_reducible refine frame_foldl_fst (fun x b hx => ?_) ?_)
    | (intro b; refine (fun (_ : OnlyChanges F z b) => ?_) ?_; clear_value b; swap; dsimp only [b]; swap)
    | (intro b; refine (fun (_ : OnlyChanges F z b.1) => ?_) ?_; clear_value b; swap; dsimp only [b]; swap)
    | (with_reducible apply hfn)
    | (intro b; refine (fun (hfn : ∀ x, OnlyChanges F z x → OnlyChanges F z (b x)) => ?_) ?_; clear_value b; swap; (intro x hx; dsimp only [b]); swap)
    | (intro b; refine (fun (hfn : ∀ x y, OnlyChanges F z x → OnlyChanges F z (b x y)) => ?_) ?_; clear_value b; swap; (intro x y hx; dsimp only [b]); swap)
    | (with_reducible apply hfc)
    | (with_reducible apply hfd)
    | (intro b; refine (fun (hfc : ∀ x, OnlyChanges F z (b x)) => ?_) ?_; clear_value b; swap; (intro x; dsimp only [b]); swap)
    | (intro b; refine (fun (hfd : ∀ x y, OnlyChanges F z (b x y)) => ?_) ?_; clear_value b; swap; (intro x y; dsimp only [b]); swap)
    | (intro b; clear_value b)
    | intro b
    | lift_lets
    | split
    | dsimp only

end Sys2Proof.Machine
end

