-- ==== Sys2Proof/Laws/FrameUnits.lean ====
section
/-! SUPPORT. What the operations leave alone (Laws/Frame.lean): the event fabric, the ring, the Config NOR and security. One law for each operation. -/

set_option Elab.async false
set_option linter.unusedTactic false
set_option linter.unreachableTactic false

namespace Sys2Proof.Machine

variable {F : List Part} {z s : State}

theorem doorbell_frame {i : Initiator} {v : Nat} (hz : OnlyChanges F z s) (m1 : Part.out ∈ F) (m3 : Part.regs ∈ F) (m4 : Part.portA ∈ F) (m5 : Part.portB ∈ F) (m6 : Part.evr ∈ F) : OnlyChanges F z (doorbell s i v) := by
  unfold doorbell
  repeat' first
    | with_reducible assumption
    | (with_reducible apply raiseWith_frame)
    | (with_reducible refine frame_foldl (fun x b hx => ?_) ?_)

theorem holdoffEnd_frame {p : Port} {v : Nat} (hz : OnlyChanges F z s) (m1 : Part.out ∈ F) (m4 : Part.portA ∈ F) (m5 : Part.portB ∈ F) : OnlyChanges F z (holdoffEnd s p v) := by
  unfold holdoffEnd
  repeat' first
    | with_reducible assumption
    | (with_reducible apply setPort_frame)
    | (with_reducible apply msixSend_frame)
    | (with_reducible apply frame_ite)
    | (intro b; refine (fun (_ : OnlyChanges F z b) => ?_) ?_; clear_value b; swap; dsimp only [b]; swap)
    | (intro b; clear_value b)
    | intro b
    | lift_lets
    | split
    | (fail_if_no_progress with_reducible refine frame_upd ?_)

theorem timerFire_frame {n : Nat} (hz : OnlyChanges F z s) (m1 : Part.out ∈ F) (m3 : Part.regs ∈ F) (m4 : Part.portA ∈ F) (m5 : Part.portB ∈ F) (m6 : Part.evr ∈ F) : OnlyChanges F z (timerFire s n) := by
  unfold timerFire
  repeat' first
    | with_reducible assumption
    | (with_reducible apply raiseWith_frame)
    | (with_reducible apply wrField_frame)
    | (with_reducible apply wr_frame)
    | (with_reducible apply frame_ite)
    | (intro b; refine (fun (_ : OnlyChanges F z b) => ?_) ?_; clear_value b; swap; dsimp only [b]; swap)
    | (intro b; clear_value b)
    | intro b
    | lift_lets
    | split

theorem wdRestart_frame {k : Nat} (hz : OnlyChanges F z s) (m2 : Part.clk ∈ F) (m3 : Part.regs ∈ F) : OnlyChanges F z (wdRestart s k) := by
  unfold wdRestart
  repeat' first
    | with_reducible assumption
    | (with_reducible apply updClk_frame)
    | (with_reducible apply wrField_frame)

theorem wdExpire_frame {k : Nat} (hz : OnlyChanges F z s) (m1 : Part.out ∈ F) (m2 : Part.clk ∈ F) (m3 : Part.regs ∈ F) (m4 : Part.portA ∈ F) (m5 : Part.portB ∈ F) (m6 : Part.evr ∈ F) : OnlyChanges F z (wdExpire s k) := by
  unfold wdExpire
  repeat' first
    | with_reducible assumption
    | (with_reducible apply raiseWith_frame)
    | (with_reducible apply updClk_frame)
    | (with_reducible apply wrField_frame)
    | (intro b; refine (fun (_ : OnlyChanges F z b) => ?_) ?_; clear_value b; swap; dsimp only [b]; swap)
    | (intro b; clear_value b)
    | intro b
    | lift_lets

theorem ringCause_frame {bit : Nat} (hz : OnlyChanges F z s) (m1 : Part.out ∈ F) (m3 : Part.regs ∈ F) (m4 : Part.portA ∈ F) (m5 : Part.portB ∈ F) (m6 : Part.evr ∈ F) : OnlyChanges F z (ringCause s bit) := by
  unfold ringCause
  repeat' first
    | with_reducible assumption
    | (with_reducible apply setCause_frame)

theorem ringNotice_frame (hz : OnlyChanges F z s) (m1 : Part.out ∈ F) (m3 : Part.regs ∈ F) (m4 : Part.portA ∈ F) (m5 : Part.portB ∈ F) (m6 : Part.evr ∈ F) : OnlyChanges F z (ringNotice s) := by
  unfold ringNotice
  repeat' first
    | with_reducible assumption
    | (with_reducible apply asyncBoth_frame)

theorem setLink_frame {p : RingPort} {l : RingLink} (hz : OnlyChanges F z s) (m10 : Part.ring ∈ F) : OnlyChanges F z (setLink s p l) := by
  unfold setLink
  repeat' first
    | with_reducible assumption
    | (with_reducible apply updRing_frame)
    | split
    | dsimp only

theorem sendPort_frame {p : RingPort} {typ : Nat} {dst : Nat} {src : Nat} {ttl : Nat} {seq : Nat} {pl : List Byte} (hz : OnlyChanges F z s) (m1 : Part.out ∈ F) : OnlyChanges F z (sendPort s p typ dst src ttl seq pl) := by
  unfold sendPort
  repeat' first
    | with_reducible assumption
    | (with_reducible apply emit_frame)
    | (with_reducible apply frame_ite)
    | split

theorem sendAll_frame {typ : Nat} {dst : Nat} {pl : List Byte} (hz : OnlyChanges F z s) (m1 : Part.out ∈ F) (m10 : Part.ring ∈ F) : OnlyChanges F z (sendAll s typ dst pl) := by
  unfold sendAll
  repeat' first
    | with_reducible assumption
    | (with_reducible apply updRing_frame)
    | (with_reducible apply sendPort_frame)
    | (with_reducible apply frame_ite)
    | (intro b; refine (fun (_ : OnlyChanges F z b) => ?_) ?_; clear_value b; swap; dsimp only [b]; swap)
    | (intro b; clear_value b)
    | intro b
    | lift_lets
    | split

theorem sendNear_frame {p : RingPort} {typ : Nat} {pl : List Byte} (hz : OnlyChanges F z s) (m1 : Part.out ∈ F) (m10 : Part.ring ∈ F) : OnlyChanges F z (sendNear s p typ pl) := by
  unfold sendNear
  repeat' first
    | with_reducible assumption
    | (with_reducible apply sendPort_frame)
    | (with_reducible apply updRing_frame)
    | (with_reducible apply frame_ite)
    | (intro b; refine (fun (_ : OnlyChanges F z b) => ?_) ?_; clear_value b; swap; dsimp only [b]; swap)
    | (intro b; clear_value b)
    | intro b
    | lift_lets
    | split

theorem sendRepeat_frame {typ : Nat} {dst : Nat} {pl : List Byte} (hz : OnlyChanges F z s) (m1 : Part.out ∈ F) (m10 : Part.ring ∈ F) : OnlyChanges F z (sendRepeat s typ dst pl) := by
  unfold sendRepeat
  repeat' first
    | with_reducible assumption
    | (with_reducible apply updRing_frame)
    | (with_reducible apply sendAll_frame)
    | (with_reducible apply frame_ite)
    | (intro b; refine (fun (_ : OnlyChanges F z b) => ?_) ?_; clear_value b; swap; dsimp only [b]; swap)
    | (intro b; clear_value b)
    | intro b
    | lift_lets
    | split

theorem plmNotice_frame {p : Port} (hz : OnlyChanges F z s) (m1 : Part.out ∈ F) (m3 : Part.regs ∈ F) (m4 : Part.portA ∈ F) (m5 : Part.portB ∈ F) (m6 : Part.evr ∈ F) : OnlyChanges F z (plmNotice s p) := by
  unfold plmNotice
  repeat' first
    | with_reducible assumption
    | (with_reducible apply setPort_frame)
    | (with_reducible apply asyncEvent_frame)
    | (with_reducible apply frame_ite)
    | (intro b; refine (fun (_ : OnlyChanges F z b) => ?_) ?_; clear_value b; swap; dsimp only [b]; swap)
    | (intro b; clear_value b)
    | intro b
    | lift_lets
    | split
    | (fail_if_no_progress with_reducible refine frame_upd ?_)

theorem updWindow_frame (hz : OnlyChanges F z s) (m1 : Part.out ∈ F) (m2 : Part.clk ∈ F) (m3 : Part.regs ∈ F) (m4 : Part.portA ∈ F) (m5 : Part.portB ∈ F) (m6 : Part.evr ∈ F) (m10 : Part.ring ∈ F) (m14 : Part.dram ∈ F) (m15 : Part.phc ∈ F) (m16 : Part.map ∈ F) (m17 : Part.flash ∈ F) (m18 : Part.jrc ∈ F) (m21 : Part.pat ∈ F) (m22 : Part.mem ∈ F) : OnlyChanges F z (updWindow s) := by
  unfold updWindow
  repeat' first
    | with_reducible assumption
    | (with_reducible apply updRing_frame)
    | (with_reducible apply wrField_frame)
    | (with_reducible apply reclaimPace_frame)
    | (with_reducible apply ringCause_frame)
    | (with_reducible apply plmNotice_frame)
    | (with_reducible apply frame_ite)
    | (intro b; refine (fun (_ : OnlyChanges F z b) => ?_) ?_; clear_value b; swap; dsimp only [b]; swap)
    | (intro b; clear_value b)
    | intro b
    | lift_lets
    | split

theorem updUnsync_frame {b : Bool} (hz : OnlyChanges F z s) (m1 : Part.out ∈ F) (m3 : Part.regs ∈ F) (m4 : Part.portA ∈ F) (m5 : Part.portB ∈ F) (m6 : Part.evr ∈ F) (m10 : Part.ring ∈ F) : OnlyChanges F z (updUnsync s b) := by
  unfold updUnsync
  repeat' first
    | with_reducible assumption
    | (with_reducible apply ringNotice_frame)
    | (with_reducible apply ringCause_frame)
    | (with_reducible apply updRing_frame)
    | (with_reducible apply frame_ite)
    | split

theorem refresh_frame {old : Ring} (hz : OnlyChanges F z s) (m1 : Part.out ∈ F) (m2 : Part.clk ∈ F) (m3 : Part.regs ∈ F) (m4 : Part.portA ∈ F) (m5 : Part.portB ∈ F) (m6 : Part.evr ∈ F) (m10 : Part.ring ∈ F) (m14 : Part.dram ∈ F) (m15 : Part.phc ∈ F) (m16 : Part.map ∈ F) (m17 : Part.flash ∈ F) (m18 : Part.jrc ∈ F) (m21 : Part.pat ∈ F) (m22 : Part.mem ∈ F) : OnlyChanges F z (refresh old s) := by
  unfold refresh
  repeat' first
    | with_reducible assumption
    | (with_reducible apply updRing_frame)
    | (with_reducible apply ringCause_frame)
    | (with_reducible apply ringNotice_frame)
    | (with_reducible apply updWindow_frame)
    | (with_reducible apply frame_ite)
    | (intro b; refine (fun (_ : OnlyChanges F z b) => ?_) ?_; clear_value b; swap; dsimp only [b]; swap)
    | (intro b; clear_value b)
    | intro b
    | lift_lets
    | split
    | dsimp only

theorem toState_frame {x : RingSt} (hz : OnlyChanges F z s) (m1 : Part.out ∈ F) (m3 : Part.regs ∈ F) (m4 : Part.portA ∈ F) (m5 : Part.portB ∈ F) (m6 : Part.evr ∈ F) (m10 : Part.ring ∈ F) : OnlyChanges F z (toState s x) := by
  unfold toState
  repeat' first
    | with_reducible assumption
    | (with_reducible apply updRing_frame)
    | (with_reducible apply ringNotice_frame)
    | (with_reducible apply ringCause_frame)
    | (with_reducible apply updUnsync_frame)
    | (with_reducible apply frame_ite)
    | (intro b; refine (fun (_ : OnlyChanges F z b) => ?_) ?_; clear_value b; swap; dsimp only [b]; swap)
    | (intro b; clear_value b)
    | intro b
    | lift_lets
    | split

theorem countForeign_frame (hz : OnlyChanges F z s) (m1 : Part.out ∈ F) (m3 : Part.regs ∈ F) (m4 : Part.portA ∈ F) (m5 : Part.portB ∈ F) (m6 : Part.evr ∈ F) : OnlyChanges F z (countForeign s) := by
  unfold countForeign
  repeat' first
    | with_reducible assumption
    | (with_reducible apply ringCause_frame)
    | (with_reducible apply satAdd_frame)

theorem receive_frame {h : DispHdr} {typ : Nat} {gid : Option Nat} {pl : List Byte} {use : State → State} (hz : OnlyChanges F z s) (hf : ∀ t, OnlyChanges F z t → OnlyChanges F z (use t)) (m1 : Part.out ∈ F) (m3 : Part.regs ∈ F) (m4 : Part.portA ∈ F) (m5 : Part.portB ∈ F) (m6 : Part.evr ∈ F) (m10 : Part.ring ∈ F) : OnlyChanges F z (receive s h typ gid pl use) := by
  unfold receive
  repeat' first
    | with_reducible assumption
    | (with_reducible apply updRing_frame)
    | (with_reducible apply sendPort_frame)
    | (with_reducible apply sendAll_frame)
    | (with_reducible apply countForeign_frame)
    | (with_reducible apply frame_ite)
    | (intro b; refine (fun (_ : OnlyChanges F z b) => ?_) ?_; clear_value b; swap; dsimp only [b]; swap)
    | (with_reducible apply hf)
    | (intro b; clear_value b)
    | intro b
    | lift_lets
    | split
    | dsimp only

theorem signalDetect_frame {p : RingPort} (hz : OnlyChanges F z s) (m1 : Part.out ∈ F) (m3 : Part.regs ∈ F) (m4 : Part.portA ∈ F) (m5 : Part.portB ∈ F) (m6 : Part.evr ∈ F) (m10 : Part.ring ∈ F) : OnlyChanges F z (signalDetect s p) := by
  unfold signalDetect
  repeat' first
    | with_reducible assumption
    | (with_reducible apply emit_frame)
    | (with_reducible apply ringCause_frame)
    | (with_reducible apply setLink_frame)
    | (with_reducible apply frame_ite)
    | split

theorem linkUpRing_frame {p : RingPort} {same : Bool} (hz : OnlyChanges F z s) (m1 : Part.out ∈ F) (m2 : Part.clk ∈ F) (m3 : Part.regs ∈ F) (m4 : Part.portA ∈ F) (m5 : Part.portB ∈ F) (m6 : Part.evr ∈ F) (m10 : Part.ring ∈ F) (m14 : Part.dram ∈ F) (m15 : Part.phc ∈ F) (m16 : Part.map ∈ F) (m17 : Part.flash ∈ F) (m18 : Part.jrc ∈ F) (m21 : Part.pat ∈ F) (m22 : Part.mem ∈ F) : OnlyChanges F z (linkUpRing s p same) := by
  unfold linkUpRing
  repeat' first
    | with_reducible assumption
    | (with_reducible apply ringCause_frame)
    | (with_reducible apply setLink_frame)
    | (with_reducible apply updRing_frame)
    | (with_reducible apply refresh_frame)
    | (with_reducible apply frame_ite)
    | (intro b; refine (fun (_ : OnlyChanges F z b) => ?_) ?_; clear_value b; swap; dsimp only [b]; swap)
    | (intro b; clear_value b)
    | intro b
    | lift_lets
    | split

theorem linkDownRing_frame {p : RingPort} (hz : OnlyChanges F z s) (m1 : Part.out ∈ F) (m2 : Part.clk ∈ F) (m3 : Part.regs ∈ F) (m4 : Part.portA ∈ F) (m5 : Part.portB ∈ F) (m6 : Part.evr ∈ F) (m10 : Part.ring ∈ F) (m14 : Part.dram ∈ F) (m15 : Part.phc ∈ F) (m16 : Part.map ∈ F) (m17 : Part.flash ∈ F) (m18 : Part.jrc ∈ F) (m21 : Part.pat ∈ F) (m22 : Part.mem ∈ F) : OnlyChanges F z (linkDownRing s p) := by
  unfold linkDownRing
  repeat' first
    | with_reducible assumption
    | (with_reducible apply satAdd_frame)
    | (with_reducible apply refresh_frame)
    | (with_reducible apply ringCause_frame)
    | (with_reducible apply setLink_frame)
    | (with_reducible apply frame_ite)
    | (intro b; refine (fun (_ : OnlyChanges F z b) => ?_) ?_; clear_value b; swap; dsimp only [b]; swap)
    | (intro b; clear_value b)
    | intro b
    | lift_lets
    | split
    | dsimp only

theorem linkRecv_frame {h : DispHdr} {serial : Nat} {gid : Nat} {addr : Nat} {far : Nat} (hz : OnlyChanges F z s) (m1 : Part.out ∈ F) (m3 : Part.regs ∈ F) (m4 : Part.portA ∈ F) (m5 : Part.portB ∈ F) (m6 : Part.evr ∈ F) (m10 : Part.ring ∈ F) : OnlyChanges F z (linkRecv s h serial gid addr far) := by
  unfold linkRecv
  repeat' first
    | with_reducible assumption
    | (with_reducible apply countForeign_frame)
    | (with_reducible apply updRing_frame)
    | (with_reducible apply frame_ite)
    | split
    | dsimp only

theorem frameError_frame {p : RingPort} (hz : OnlyChanges F z s) (m3 : Part.regs ∈ F) : OnlyChanges F z (frameError s p) := by
  unfold frameError
  repeat' first
    | with_reducible assumption
    | (with_reducible apply satAdd_frame)
    | split
    | dsimp only

theorem beaconSend_frame (hz : OnlyChanges F z s) (m1 : Part.out ∈ F) (m10 : Part.ring ∈ F) : OnlyChanges F z (beaconSend s) := by
  unfold beaconSend
  repeat' first
    | with_reducible assumption
    | (with_reducible apply sendAll_frame)

theorem beaconUse_frame {b : Beacon} (hz : OnlyChanges F z s) (m1 : Part.out ∈ F) (m2 : Part.clk ∈ F) (m3 : Part.regs ∈ F) (m4 : Part.portA ∈ F) (m5 : Part.portB ∈ F) (m6 : Part.evr ∈ F) (m10 : Part.ring ∈ F) (m14 : Part.dram ∈ F) (m15 : Part.phc ∈ F) (m16 : Part.map ∈ F) (m17 : Part.flash ∈ F) (m18 : Part.jrc ∈ F) (m21 : Part.pat ∈ F) (m22 : Part.mem ∈ F) : OnlyChanges F z (beaconUse b s) := by
  unfold beaconUse
  repeat' first
    | with_reducible assumption
    | (with_reducible apply updRing_frame)
    | (with_reducible apply ringCause_frame)
    | (with_reducible apply refresh_frame)
    | (with_reducible apply frame_ite)
    | (intro b; refine (fun (_ : OnlyChanges F z b) => ?_) ?_; clear_value b; swap; dsimp only [b]; swap)
    | (intro b; clear_value b)
    | intro b
    | lift_lets
    | split

theorem beaconRecv_frame {h : DispHdr} {b : Beacon} (hz : OnlyChanges F z s) (m1 : Part.out ∈ F) (m2 : Part.clk ∈ F) (m3 : Part.regs ∈ F) (m4 : Part.portA ∈ F) (m5 : Part.portB ∈ F) (m6 : Part.evr ∈ F) (m10 : Part.ring ∈ F) (m14 : Part.dram ∈ F) (m15 : Part.phc ∈ F) (m16 : Part.map ∈ F) (m17 : Part.flash ∈ F) (m18 : Part.jrc ∈ F) (m21 : Part.pat ∈ F) (m22 : Part.mem ∈ F) : OnlyChanges F z (beaconRecv s h b) := by
  unfold beaconRecv
  repeat' first
    | with_reducible assumption
    | (with_reducible apply updRing_frame)
    | (with_reducible refine receive_frame ?_ (fun x hx => ?_) ?_ ?_ ?_ ?_ ?_ ?_)
    | (with_reducible apply beaconUse_frame)
    | (with_reducible apply frame_ite)
    | (intro b; refine (fun (_ : OnlyChanges F z b) => ?_) ?_; clear_value b; swap; dsimp only [b]; swap)
    | (intro b; clear_value b)
    | intro b
    | lift_lets
    | split

theorem reachExpiry_frame {a : Nat} (hz : OnlyChanges F z s) (m1 : Part.out ∈ F) (m2 : Part.clk ∈ F) (m3 : Part.regs ∈ F) (m4 : Part.portA ∈ F) (m5 : Part.portB ∈ F) (m6 : Part.evr ∈ F) (m10 : Part.ring ∈ F) (m14 : Part.dram ∈ F) (m15 : Part.phc ∈ F) (m16 : Part.map ∈ F) (m17 : Part.flash ∈ F) (m18 : Part.jrc ∈ F) (m21 : Part.pat ∈ F) (m22 : Part.mem ∈ F) : OnlyChanges F z (reachExpiry s a) := by
  unfold reachExpiry
  repeat' first
    | with_reducible assumption
    | (with_reducible apply refresh_frame)
    | (with_reducible apply updRing_frame)
    | (with_reducible apply frame_ite)
    | split

theorem isolatedEntry_frame (hz : OnlyChanges F z s) (m1 : Part.out ∈ F) (m2 : Part.clk ∈ F) (m3 : Part.regs ∈ F) (m4 : Part.portA ∈ F) (m5 : Part.portB ∈ F) (m6 : Part.evr ∈ F) (m10 : Part.ring ∈ F) (m14 : Part.dram ∈ F) (m15 : Part.phc ∈ F) (m16 : Part.map ∈ F) (m17 : Part.flash ∈ F) (m18 : Part.jrc ∈ F) (m21 : Part.pat ∈ F) (m22 : Part.mem ∈ F) : OnlyChanges F z (isolatedEntry s) := by
  unfold isolatedEntry
  repeat' first
    | with_reducible assumption
    | (with_reducible apply refresh_frame)
    | (with_reducible apply toState_frame)
    | (with_reducible apply frame_ite)
    | split

theorem rejoin_frame (hz : OnlyChanges F z s) (m1 : Part.out ∈ F) (m2 : Part.clk ∈ F) (m3 : Part.regs ∈ F) (m4 : Part.portA ∈ F) (m5 : Part.portB ∈ F) (m6 : Part.evr ∈ F) (m10 : Part.ring ∈ F) (m14 : Part.dram ∈ F) (m15 : Part.phc ∈ F) (m16 : Part.map ∈ F) (m17 : Part.flash ∈ F) (m18 : Part.jrc ∈ F) (m21 : Part.pat ∈ F) (m22 : Part.mem ∈ F) : OnlyChanges F z (rejoin s) := by
  unfold rejoin
  repeat' first
    | with_reducible assumption
    | (with_reducible apply toState_frame)
    | (with_reducible apply updRing_frame)
    | (with_reducible apply refresh_frame)
    | (with_reducible apply sendRepeat_frame)
    | (with_reducible apply frame_ite)
    | (intro b; refine (fun (_ : OnlyChanges F z b) => ?_) ?_; clear_value b; swap; dsimp only [b]; swap)
    | (intro b; clear_value b)
    | intro b
    | lift_lets
    | split

theorem addressDrop_frame (hz : OnlyChanges F z s) (m1 : Part.out ∈ F) (m2 : Part.clk ∈ F) (m3 : Part.regs ∈ F) (m4 : Part.portA ∈ F) (m5 : Part.portB ∈ F) (m6 : Part.evr ∈ F) (m10 : Part.ring ∈ F) (m14 : Part.dram ∈ F) (m15 : Part.phc ∈ F) (m16 : Part.map ∈ F) (m17 : Part.flash ∈ F) (m18 : Part.jrc ∈ F) (m21 : Part.pat ∈ F) (m22 : Part.mem ∈ F) : OnlyChanges F z (addressDrop s) := by
  unfold addressDrop
  repeat' first
    | with_reducible assumption
    | (with_reducible apply refresh_frame)
    | (with_reducible apply toState_frame)
    | (with_reducible apply updRing_frame)
    | (with_reducible apply frame_ite)
    | (intro b; refine (fun (_ : OnlyChanges F z b) => ?_) ?_; clear_value b; swap; dsimp only [b]; swap)
    | (intro b; clear_value b)
    | intro b
    | lift_lets
    | split

theorem measure_frame {th : ℤ} (hz : OnlyChanges F z s) (m1 : Part.out ∈ F) (m2 : Part.clk ∈ F) (m3 : Part.regs ∈ F) (m4 : Part.portA ∈ F) (m5 : Part.portB ∈ F) (m6 : Part.evr ∈ F) (m10 : Part.ring ∈ F) (m14 : Part.dram ∈ F) (m15 : Part.phc ∈ F) (m16 : Part.map ∈ F) (m17 : Part.flash ∈ F) (m18 : Part.jrc ∈ F) (m21 : Part.pat ∈ F) (m22 : Part.mem ∈ F) : OnlyChanges F z (measure s th) := by
  unfold measure
  repeat' first
    | with_reducible assumption
    | (with_reducible apply updRing_frame)
    | (with_reducible apply updWindow_frame)
    | (with_reducible apply updUnsync_frame)
    | (with_reducible apply updClk_frame)
    | (with_reducible apply frame_ite)
    | (intro b; refine (fun (_ : OnlyChanges F z b) => ?_) ?_; clear_value b; swap; dsimp only [b]; swap)
    | (intro b; clear_value b)
    | intro b
    | lift_lets
    | split

theorem slewDone_frame (hz : OnlyChanges F z s) (m1 : Part.out ∈ F) (m2 : Part.clk ∈ F) (m3 : Part.regs ∈ F) (m4 : Part.portA ∈ F) (m5 : Part.portB ∈ F) (m6 : Part.evr ∈ F) (m10 : Part.ring ∈ F) (m14 : Part.dram ∈ F) (m15 : Part.phc ∈ F) (m16 : Part.map ∈ F) (m17 : Part.flash ∈ F) (m18 : Part.jrc ∈ F) (m21 : Part.pat ∈ F) (m22 : Part.mem ∈ F) : OnlyChanges F z (slewDone s) := by
  unfold slewDone
  repeat' first
    | with_reducible assumption
    | (with_reducible apply updClk_frame)
    | (with_reducible apply updWindow_frame)
    | (with_reducible apply updUnsync_frame)
    | (with_reducible apply updRing_frame)
    | (with_reducible apply frame_ite)
    | (intro b; refine (fun (_ : OnlyChanges F z b) => ?_) ?_; clear_value b; swap; dsimp only [b]; swap)
    | (intro b; clear_value b)
    | intro b
    | lift_lets
    | split

theorem holdoverExpiry_frame (hz : OnlyChanges F z s) (m1 : Part.out ∈ F) (m3 : Part.regs ∈ F) (m4 : Part.portA ∈ F) (m5 : Part.portB ∈ F) (m6 : Part.evr ∈ F) (m10 : Part.ring ∈ F) : OnlyChanges F z (holdoverExpiry s) := by
  unfold holdoverExpiry
  repeat' first
    | with_reducible assumption
    | (with_reducible apply updUnsync_frame)
    | (with_reducible apply frame_ite)
    | split

theorem syncReq_frame {h : DispHdr} {t1 : Nat} (hz : OnlyChanges F z s) (m1 : Part.out ∈ F) (m3 : Part.regs ∈ F) (m4 : Part.portA ∈ F) (m5 : Part.portB ∈ F) (m6 : Part.evr ∈ F) (m10 : Part.ring ∈ F) : OnlyChanges F z (syncReq s h t1) := by
  unfold syncReq
  repeat' first
    | with_reducible assumption
    | (with_reducible refine receive_frame ?_ (fun x hx => ?_) ?_ ?_ ?_ ?_ ?_ ?_)
    | (with_reducible apply sendNear_frame)

theorem syncRsp_frame {h : DispHdr} {t1 : Nat} {t2 : Nat} {t3 : Nat} {t4 : Nat} (hz : OnlyChanges F z s) (m1 : Part.out ∈ F) (m2 : Part.clk ∈ F) (m3 : Part.regs ∈ F) (m4 : Part.portA ∈ F) (m5 : Part.portB ∈ F) (m6 : Part.evr ∈ F) (m10 : Part.ring ∈ F) (m14 : Part.dram ∈ F) (m15 : Part.phc ∈ F) (m16 : Part.map ∈ F) (m17 : Part.flash ∈ F) (m18 : Part.jrc ∈ F) (m21 : Part.pat ∈ F) (m22 : Part.mem ∈ F) : OnlyChanges F z (syncRsp s h t1 t2 t3 t4) := by
  unfold syncRsp
  repeat' first
    | with_reducible assumption
    | (with_reducible refine receive_frame ?_ (fun x hx => ?_) ?_ ?_ ?_ ?_ ?_ ?_)
    | (with_reducible apply measure_frame)
    | (with_reducible apply frame_ite)
    | split

theorem syncSend_frame (hz : OnlyChanges F z s) (m1 : Part.out ∈ F) (m10 : Part.ring ∈ F) : OnlyChanges F z (syncSend s) := by
  unfold syncSend
  repeat' first
    | with_reducible assumption
    | (with_reducible apply sendNear_frame)
    | (with_reducible apply frame_ite)
    | split
    | dsimp only

theorem enumDone_frame {n : Nat} {tbmax : Nat} (hz : OnlyChanges F z s) (m1 : Part.out ∈ F) (m2 : Part.clk ∈ F) (m3 : Part.regs ∈ F) (m4 : Part.portA ∈ F) (m5 : Part.portB ∈ F) (m6 : Part.evr ∈ F) (m10 : Part.ring ∈ F) (m14 : Part.dram ∈ F) (m15 : Part.phc ∈ F) (m16 : Part.map ∈ F) (m17 : Part.flash ∈ F) (m18 : Part.jrc ∈ F) (m21 : Part.pat ∈ F) (m22 : Part.mem ∈ F) : OnlyChanges F z (enumDone s n tbmax) := by
  unfold enumDone
  repeat' first
    | with_reducible assumption
    | (with_reducible apply updRing_frame)
    | (with_reducible apply toState_frame)
    | (with_reducible apply measure_frame)
    | (with_reducible apply ringCause_frame)
    | (with_reducible apply refresh_frame)
    | (with_reducible apply sendRepeat_frame)
    | (with_reducible apply frame_ite)
    | (intro b; refine (fun (_ : OnlyChanges F z b) => ?_) ?_; clear_value b; swap; dsimp only [b]; swap)
    | (intro b; clear_value b)
    | intro b
    | lift_lets
    | split

theorem enumWest_frame {count : Nat} {tbmax : Nat} (hz : OnlyChanges F z s) (m1 : Part.out ∈ F) (m2 : Part.clk ∈ F) (m3 : Part.regs ∈ F) (m4 : Part.portA ∈ F) (m5 : Part.portB ∈ F) (m6 : Part.evr ∈ F) (m10 : Part.ring ∈ F) (m14 : Part.dram ∈ F) (m15 : Part.phc ∈ F) (m16 : Part.map ∈ F) (m17 : Part.flash ∈ F) (m18 : Part.jrc ∈ F) (m21 : Part.pat ∈ F) (m22 : Part.mem ∈ F) : OnlyChanges F z (enumWest s count tbmax) := by
  unfold enumWest
  repeat' first
    | with_reducible assumption
    | (with_reducible apply updRing_frame)
    | (with_reducible apply sendNear_frame)
    | (with_reducible apply enumDone_frame)
    | (with_reducible apply frame_ite)
    | (intro b; refine (fun (_ : OnlyChanges F z b) => ?_) ?_; clear_value b; swap; dsimp only [b]; swap)
    | (intro b; clear_value b)
    | intro b
    | lift_lets
    | split

theorem enumBegin_frame (hz : OnlyChanges F z s) (m1 : Part.out ∈ F) (m2 : Part.clk ∈ F) (m3 : Part.regs ∈ F) (m4 : Part.portA ∈ F) (m5 : Part.portB ∈ F) (m6 : Part.evr ∈ F) (m10 : Part.ring ∈ F) (m14 : Part.dram ∈ F) (m15 : Part.phc ∈ F) (m16 : Part.map ∈ F) (m17 : Part.flash ∈ F) (m18 : Part.jrc ∈ F) (m21 : Part.pat ∈ F) (m22 : Part.mem ∈ F) : OnlyChanges F z (enumBegin s) := by
  unfold enumBegin
  repeat' first
    | with_reducible assumption
    | (with_reducible apply updRing_frame)
    | (with_reducible apply sendNear_frame)
    | (with_reducible apply enumWest_frame)
    | (with_reducible apply frame_ite)
    | (intro b; refine (fun (_ : OnlyChanges F z b) => ?_) ?_; clear_value b; swap; dsimp only [b]; swap)
    | (intro b; clear_value b)
    | intro b
    | lift_lets
    | split

theorem enumStart_frame (hz : OnlyChanges F z s) (m1 : Part.out ∈ F) (m2 : Part.clk ∈ F) (m3 : Part.regs ∈ F) (m4 : Part.portA ∈ F) (m5 : Part.portB ∈ F) (m6 : Part.evr ∈ F) (m10 : Part.ring ∈ F) (m14 : Part.dram ∈ F) (m15 : Part.phc ∈ F) (m16 : Part.map ∈ F) (m17 : Part.flash ∈ F) (m18 : Part.jrc ∈ F) (m21 : Part.pat ∈ F) (m22 : Part.mem ∈ F) : OnlyChanges F z (enumStart s) := by
  unfold enumStart
  repeat' first
    | with_reducible assumption
    | (with_reducible apply enumBegin_frame)
    | (with_reducible apply frame_ite)
    | split

theorem enumTimeout_frame (hz : OnlyChanges F z s) (m1 : Part.out ∈ F) (m2 : Part.clk ∈ F) (m3 : Part.regs ∈ F) (m4 : Part.portA ∈ F) (m5 : Part.portB ∈ F) (m6 : Part.evr ∈ F) (m10 : Part.ring ∈ F) (m14 : Part.dram ∈ F) (m15 : Part.phc ∈ F) (m16 : Part.map ∈ F) (m17 : Part.flash ∈ F) (m18 : Part.jrc ∈ F) (m21 : Part.pat ∈ F) (m22 : Part.mem ∈ F) : OnlyChanges F z (enumTimeout s) := by
  unfold enumTimeout
  repeat' first
    | with_reducible assumption
    | (with_reducible apply ringCause_frame)
    | (with_reducible apply updRing_frame)
    | (with_reducible apply refresh_frame)
    | (with_reducible apply toState_frame)
    | (with_reducible apply enumBegin_frame)
    | (with_reducible apply frame_ite)
    | (intro b; refine (fun (_ : OnlyChanges F z b) => ?_) ?_; clear_value b; swap; dsimp only [b]; swap)
    | (intro b; clear_value b)
    | intro b
    | lift_lets
    | split

theorem enumUse_frame {p : RingPort} {next : Nat} {dir : Nat} {tbmax : Nat} {origin : Nat} (hz : OnlyChanges F z s) (m1 : Part.out ∈ F) (m2 : Part.clk ∈ F) (m3 : Part.regs ∈ F) (m4 : Part.portA ∈ F) (m5 : Part.portB ∈ F) (m6 : Part.evr ∈ F) (m10 : Part.ring ∈ F) (m14 : Part.dram ∈ F) (m15 : Part.phc ∈ F) (m16 : Part.map ∈ F) (m17 : Part.flash ∈ F) (m18 : Part.jrc ∈ F) (m21 : Part.pat ∈ F) (m22 : Part.mem ∈ F) : OnlyChanges F z (enumUse p next dir tbmax origin s) := by
  unfold enumUse
  repeat' first
    | with_reducible assumption
    | (with_reducible apply enumDone_frame)
    | (with_reducible apply updRing_frame)
    | (with_reducible apply toState_frame)
    | (with_reducible apply refresh_frame)
    | (with_reducible apply sendNear_frame)
    | (with_reducible apply sendAll_frame)
    | (with_reducible apply frame_ite)
    | (intro b; refine (fun (_ : OnlyChanges F z b) => ?_) ?_; clear_value b; swap; dsimp only [b]; swap)
    | (intro b; clear_value b)
    | intro b
    | lift_lets
    | split
    | dsimp only

theorem enumRecv_frame {h : DispHdr} {next : Nat} {dir : Nat} {tbmax : Nat} {origin : Nat} (hz : OnlyChanges F z s) (m1 : Part.out ∈ F) (m2 : Part.clk ∈ F) (m3 : Part.regs ∈ F) (m4 : Part.portA ∈ F) (m5 : Part.portB ∈ F) (m6 : Part.evr ∈ F) (m10 : Part.ring ∈ F) (m14 : Part.dram ∈ F) (m15 : Part.phc ∈ F) (m16 : Part.map ∈ F) (m17 : Part.flash ∈ F) (m18 : Part.jrc ∈ F) (m21 : Part.pat ∈ F) (m22 : Part.mem ∈ F) : OnlyChanges F z (enumRecv s h next dir tbmax origin) := by
  unfold enumRecv
  repeat' first
    | with_reducible assumption
    | (with_reducible refine receive_frame ?_ (fun x hx => ?_) ?_ ?_ ?_ ?_ ?_ ?_)
    | (with_reducible apply enumUse_frame)

theorem enumEnd_frame {h : DispHdr} {count : Nat} {dir : Nat} {tbmax : Nat} {origin : Nat} (hz : OnlyChanges F z s) (m1 : Part.out ∈ F) (m2 : Part.clk ∈ F) (m3 : Part.regs ∈ F) (m4 : Part.portA ∈ F) (m5 : Part.portB ∈ F) (m6 : Part.evr ∈ F) (m10 : Part.ring ∈ F) (m14 : Part.dram ∈ F) (m15 : Part.phc ∈ F) (m16 : Part.map ∈ F) (m17 : Part.flash ∈ F) (m18 : Part.jrc ∈ F) (m21 : Part.pat ∈ F) (m22 : Part.mem ∈ F) : OnlyChanges F z (enumEnd s h count dir tbmax origin) := by
  unfold enumEnd
  repeat' first
    | with_reducible assumption
    | (with_reducible refine receive_frame ?_ (fun x hx => ?_) ?_ ?_ ?_ ?_ ?_ ?_)
    | (with_reducible apply enumWest_frame)
    | (with_reducible apply enumDone_frame)
    | (with_reducible apply frame_ite)
    | split

theorem groupstate_frame {h : DispHdr} {request : Bool} {gid : Nat} {n : Nat} {pm : Nat} {gstart : Nat} {geper : Nat} (hz : OnlyChanges F z s) (m1 : Part.out ∈ F) (m2 : Part.clk ∈ F) (m3 : Part.regs ∈ F) (m4 : Part.portA ∈ F) (m5 : Part.portB ∈ F) (m6 : Part.evr ∈ F) (m10 : Part.ring ∈ F) (m14 : Part.dram ∈ F) (m15 : Part.phc ∈ F) (m16 : Part.map ∈ F) (m17 : Part.flash ∈ F) (m18 : Part.jrc ∈ F) (m21 : Part.pat ∈ F) (m22 : Part.mem ∈ F) : OnlyChanges F z (groupstate s h request gid n pm gstart geper) := by
  unfold groupstate
  repeat' first
    | with_reducible assumption
    | (with_reducible refine receive_frame ?_ (fun x hx => ?_) ?_ ?_ ?_ ?_ ?_ ?_)
    | (with_reducible apply sendRepeat_frame)
    | (with_reducible apply updRing_frame)
    | (with_reducible apply ringCause_frame)
    | (with_reducible apply toState_frame)
    | (with_reducible apply refresh_frame)
    | (with_reducible apply frame_ite)
    | (intro b; refine (fun (_ : OnlyChanges F z b) => ?_) ?_; clear_value b; swap; dsimp only [b]; swap)
    | (intro b; clear_value b)
    | intro b
    | lift_lets
    | split

theorem joinRecv_frame {h : DispHdr} {serial : Nat} (hz : OnlyChanges F z s) (m1 : Part.out ∈ F) (m2 : Part.clk ∈ F) (m3 : Part.regs ∈ F) (m4 : Part.portA ∈ F) (m5 : Part.portB ∈ F) (m6 : Part.evr ∈ F) (m10 : Part.ring ∈ F) (m14 : Part.dram ∈ F) (m15 : Part.phc ∈ F) (m16 : Part.map ∈ F) (m17 : Part.flash ∈ F) (m18 : Part.jrc ∈ F) (m21 : Part.pat ∈ F) (m22 : Part.mem ∈ F) : OnlyChanges F z (joinRecv s h serial) := by
  unfold joinRecv
  repeat' first
    | with_reducible assumption
    | (with_reducible refine receive_frame ?_ (fun x hx => ?_) ?_ ?_ ?_ ?_ ?_ ?_)
    | (with_reducible apply sendRepeat_frame)
    | (with_reducible apply ringCause_frame)
    | (with_reducible apply updRing_frame)
    | (with_reducible apply refresh_frame)
    | (with_reducible apply frame_ite)
    | (intro b; refine (fun (_ : OnlyChanges F z b) => ?_) ?_; clear_value b; swap; dsimp only [b]; swap)
    | (intro b; clear_value b)
    | intro b
    | lift_lets
    | split
    | dsimp only

theorem admitRecv_frame {h : DispHdr} {serial : Nat} {addr : Nat} {gid : Nat} {n : Nat} (hz : OnlyChanges F z s) (m1 : Part.out ∈ F) (m2 : Part.clk ∈ F) (m3 : Part.regs ∈ F) (m4 : Part.portA ∈ F) (m5 : Part.portB ∈ F) (m6 : Part.evr ∈ F) (m10 : Part.ring ∈ F) (m14 : Part.dram ∈ F) (m15 : Part.phc ∈ F) (m16 : Part.map ∈ F) (m17 : Part.flash ∈ F) (m18 : Part.jrc ∈ F) (m21 : Part.pat ∈ F) (m22 : Part.mem ∈ F) : OnlyChanges F z (admitRecv s h serial addr gid n) := by
  unfold admitRecv
  repeat' first
    | with_reducible assumption
    | (with_reducible refine receive_frame ?_ (fun x hx => ?_) ?_ ?_ ?_ ?_ ?_ ?_)
    | (with_reducible apply refresh_frame)
    | (with_reducible apply updRing_frame)
    | (with_reducible apply frame_ite)
    | (intro b; refine (fun (_ : OnlyChanges F z b) => ?_) ?_; clear_value b; swap; dsimp only [b]; swap)
    | (intro b; clear_value b)
    | intro b
    | lift_lets
    | split

theorem joinSend_frame (hz : OnlyChanges F z s) (m1 : Part.out ∈ F) (m10 : Part.ring ∈ F) : OnlyChanges F z (joinSend s) := by
  unfold joinSend
  repeat' first
    | with_reducible assumption
    | (with_reducible apply sendAll_frame)
    | (with_reducible apply frame_ite)
    | split

theorem roleRecv_frame {h : DispHdr} {pm : Nat} {prev : Nat} (hz : OnlyChanges F z s) (m1 : Part.out ∈ F) (m2 : Part.clk ∈ F) (m3 : Part.regs ∈ F) (m4 : Part.portA ∈ F) (m5 : Part.portB ∈ F) (m6 : Part.evr ∈ F) (m10 : Part.ring ∈ F) (m14 : Part.dram ∈ F) (m15 : Part.phc ∈ F) (m16 : Part.map ∈ F) (m17 : Part.flash ∈ F) (m18 : Part.jrc ∈ F) (m21 : Part.pat ∈ F) (m22 : Part.mem ∈ F) : OnlyChanges F z (roleRecv s h pm prev) := by
  unfold roleRecv
  repeat' first
    | with_reducible assumption
    | (with_reducible refine receive_frame ?_ (fun x hx => ?_) ?_ ?_ ?_ ?_ ?_ ?_)
    | (with_reducible apply refresh_frame)
    | (with_reducible apply updRing_frame)
    | (with_reducible apply frame_ite)
    | split

theorem takeover_frame (hz : OnlyChanges F z s) (m1 : Part.out ∈ F) (m2 : Part.clk ∈ F) (m3 : Part.regs ∈ F) (m4 : Part.portA ∈ F) (m5 : Part.portB ∈ F) (m6 : Part.evr ∈ F) (m10 : Part.ring ∈ F) (m14 : Part.dram ∈ F) (m15 : Part.phc ∈ F) (m16 : Part.map ∈ F) (m17 : Part.flash ∈ F) (m18 : Part.jrc ∈ F) (m21 : Part.pat ∈ F) (m22 : Part.mem ∈ F) : OnlyChanges F z (takeover s) := by
  unfold takeover
  repeat' first
    | with_reducible assumption
    | (with_reducible apply refresh_frame)
    | (with_reducible apply updRing_frame)
    | (with_reducible apply sendRepeat_frame)
    | (with_reducible apply updUnsync_frame)
    | (with_reducible apply frame_ite)
    | (intro b; refine (fun (_ : OnlyChanges F z b) => ?_) ?_; clear_value b; swap; dsimp only [b]; swap)
    | (intro b; clear_value b)
    | intro b
    | lift_lets
    | split
    | dsimp only

theorem enumCommand_frame (hz : OnlyChanges F z s) (m1 : Part.out ∈ F) (m2 : Part.clk ∈ F) (m3 : Part.regs ∈ F) (m4 : Part.portA ∈ F) (m5 : Part.portB ∈ F) (m6 : Part.evr ∈ F) (m10 : Part.ring ∈ F) (m14 : Part.dram ∈ F) (m15 : Part.phc ∈ F) (m16 : Part.map ∈ F) (m17 : Part.flash ∈ F) (m18 : Part.jrc ∈ F) (m21 : Part.pat ∈ F) (m22 : Part.mem ∈ F) : OnlyChanges F z (enumCommand s) := by
  unfold enumCommand
  repeat' first
    | with_reducible assumption
    | (with_reducible apply enumBegin_frame)
    | (with_reducible apply updRing_frame)
    | (with_reducible apply ringCause_frame)
    | (with_reducible apply frame_ite)
    | split

theorem gsRequest_frame (hz : OnlyChanges F z s) (m1 : Part.out ∈ F) (m10 : Part.ring ∈ F) : OnlyChanges F z (gsRequest s) := by
  unfold gsRequest
  repeat' first
    | with_reducible assumption
    | (with_reducible apply sendRepeat_frame)
    | (with_reducible apply frame_ite)
    | (intro b; refine (fun (_ : OnlyChanges F z b) => ?_) ?_; clear_value b; swap; dsimp only [b]; swap)
    | (intro b; clear_value b)
    | intro b
    | lift_lets
    | split
    | dsimp only

theorem ackRecv_frame {h : DispHdr} {typ : Nat} {seq : Nat} (hz : OnlyChanges F z s) (m1 : Part.out ∈ F) (m3 : Part.regs ∈ F) (m4 : Part.portA ∈ F) (m5 : Part.portB ∈ F) (m6 : Part.evr ∈ F) (m10 : Part.ring ∈ F) : OnlyChanges F z (ackRecv s h typ seq) := by
  unfold ackRecv
  repeat' first
    | with_reducible assumption
    | (with_reducible refine receive_frame ?_ (fun x hx => ?_) ?_ ?_ ?_ ?_ ?_ ?_)
    | (with_reducible apply updRing_frame)

theorem dispatchRepeat_frame {seq : Nat} (hz : OnlyChanges F z s) (m1 : Part.out ∈ F) (m10 : Part.ring ∈ F) : OnlyChanges F z (dispatchRepeat s seq) := by
  unfold dispatchRepeat
  repeat' first
    | with_reducible assumption
    | (with_reducible apply sendPort_frame)
    | (with_reducible apply updRing_frame)
    | (with_reducible apply frame_ite)
    | (intro b; refine (fun (_ : OnlyChanges F z b) => ?_) ?_; clear_value b; swap; dsimp only [b]; swap)
    | (intro b; clear_value b)
    | intro b
    | lift_lets
    | split
    | dsimp only

theorem sendSched_frame {dst : Nat} {d : SchedDesc} (hz : OnlyChanges F z s) (m1 : Part.out ∈ F) (m10 : Part.ring ∈ F) : OnlyChanges F z (sendSched s dst d) := by
  unfold sendSched
  repeat' first
    | with_reducible assumption
    | (with_reducible apply sendRepeat_frame)
    | (with_reducible refine frame_foldl (fun x b hx => ?_) ?_)

theorem schedInstall_frame {d : SchedDesc} (hz : OnlyChanges F z s) (m1 : Part.out ∈ F) (m2 : Part.clk ∈ F) (m3 : Part.regs ∈ F) (m4 : Part.portA ∈ F) (m5 : Part.portB ∈ F) (m6 : Part.evr ∈ F) (m10 : Part.ring ∈ F) (m14 : Part.dram ∈ F) (m15 : Part.phc ∈ F) (m16 : Part.map ∈ F) (m17 : Part.flash ∈ F) (m18 : Part.jrc ∈ F) (m21 : Part.pat ∈ F) (m22 : Part.mem ∈ F) : OnlyChanges F z (schedInstall s d) := by
  unfold schedInstall
  repeat' first
    | with_reducible assumption
    | (with_reducible apply updRing_frame)
    | (with_reducible apply complete_frame)
    | (with_reducible apply updWindow_frame)
    | (with_reducible apply ringCause_frame)
    | (with_reducible apply frame_ite)
    | (intro b; refine (fun (_ : OnlyChanges F z b) => ?_) ?_; clear_value b; swap; dsimp only [b]; swap)
    | (intro b; clear_value b)
    | intro b
    | lift_lets
    | split
    | dsimp only

theorem schedPublish_frame {d : SchedDesc} (hz : OnlyChanges F z s) (m1 : Part.out ∈ F) (m2 : Part.clk ∈ F) (m3 : Part.regs ∈ F) (m4 : Part.portA ∈ F) (m5 : Part.portB ∈ F) (m6 : Part.evr ∈ F) (m10 : Part.ring ∈ F) (m14 : Part.dram ∈ F) (m15 : Part.phc ∈ F) (m16 : Part.map ∈ F) (m17 : Part.flash ∈ F) (m18 : Part.jrc ∈ F) (m21 : Part.pat ∈ F) (m22 : Part.mem ∈ F) : OnlyChanges F z (schedPublish s d) := by
  unfold schedPublish
  repeat' first
    | with_reducible assumption
    | (with_reducible apply schedInstall_frame)
    | (with_reducible apply sendSched_frame)
    | (intro b; refine (fun (_ : OnlyChanges F z b) => ?_) ?_; clear_value b; swap; dsimp only [b]; swap)
    | (intro b; clear_value b)
    | intro b
    | lift_lets

theorem schedRecv_frame {h : DispHdr} {request : Bool} {part : Nat} {sseq : Nat} {bytes : BitVec 384} (hz : OnlyChanges F z s) (m1 : Part.out ∈ F) (m2 : Part.clk ∈ F) (m3 : Part.regs ∈ F) (m4 : Part.portA ∈ F) (m5 : Part.portB ∈ F) (m6 : Part.evr ∈ F) (m10 : Part.ring ∈ F) (m14 : Part.dram ∈ F) (m15 : Part.phc ∈ F) (m16 : Part.map ∈ F) (m17 : Part.flash ∈ F) (m18 : Part.jrc ∈ F) (m21 : Part.pat ∈ F) (m22 : Part.mem ∈ F) : OnlyChanges F z (schedRecv s h request part sseq bytes) := by
  unfold schedRecv
  repeat' first
    | with_reducible assumption
    | (with_reducible refine receive_frame ?_ (fun x hx => ?_) ?_ ?_ ?_ ?_ ?_ ?_)
    | (with_reducible apply sendSched_frame)
    | (with_reducible apply updRing_frame)
    | (with_reducible apply schedPublish_frame)
    | (with_reducible apply schedInstall_frame)
    | (with_reducible apply frame_ite)
    | (intro b; refine (fun (_ : OnlyChanges F z b) => ?_) ?_; clear_value b; swap; dsimp only [b]; swap)
    | (intro b; clear_value b)
    | intro b
    | lift_lets
    | split
    | dsimp only

theorem schedEffective_frame (hz : OnlyChanges F z s) (m1 : Part.out ∈ F) (m2 : Part.clk ∈ F) (m3 : Part.regs ∈ F) (m4 : Part.portA ∈ F) (m5 : Part.portB ∈ F) (m6 : Part.evr ∈ F) (m10 : Part.ring ∈ F) (m14 : Part.dram ∈ F) (m15 : Part.phc ∈ F) (m16 : Part.map ∈ F) (m17 : Part.flash ∈ F) (m18 : Part.jrc ∈ F) (m21 : Part.pat ∈ F) (m22 : Part.mem ∈ F) : OnlyChanges F z (schedEffective s) := by
  unfold schedEffective
  repeat' first
    | with_reducible assumption
    | (with_reducible apply updWindow_frame)
    | (with_reducible apply updRing_frame)
    | (with_reducible apply frame_ite)
    | split
    | dsimp only

theorem tickMark_frame (hz : OnlyChanges F z s) (m1 : Part.out ∈ F) (m3 : Part.regs ∈ F) (m4 : Part.portA ∈ F) (m5 : Part.portB ∈ F) (m6 : Part.evr ∈ F) (m10 : Part.ring ∈ F) : OnlyChanges F z (tickMark s) := by
  unfold tickMark
  repeat' first
    | with_reducible assumption
    | (with_reducible apply ringCause_frame)
    | (with_reducible apply updRing_frame)

theorem fwDispatch_frame {h : DispHdr} {typ : Nat} {pl : List Byte} (hz : OnlyChanges F z s) (m1 : Part.out ∈ F) (m3 : Part.regs ∈ F) (m4 : Part.portA ∈ F) (m5 : Part.portB ∈ F) (m6 : Part.evr ∈ F) (m10 : Part.ring ∈ F) : OnlyChanges F z (fwDispatch s h typ pl) := by
  unfold fwDispatch
  repeat' first
    | with_reducible assumption
    | (with_reducible refine receive_frame ?_ (fun x hx => ?_) ?_ ?_ ?_ ?_ ?_ ?_)
    | (with_reducible apply countForeign_frame)
    | (with_reducible apply updRing_frame)
    | (with_reducible apply ringCause_frame)
    | (with_reducible apply frame_ite)
    | (intro b; refine (fun (_ : OnlyChanges F z b) => ?_) ?_; clear_value b; swap; dsimp only [b]; swap)
    | (intro b; clear_value b)
    | intro b
    | lift_lets
    | split

theorem rxPop_frame (hz : OnlyChanges F z s) (m10 : Part.ring ∈ F) : OnlyChanges F z (rxPop s) := by
  unfold rxPop
  repeat' first
    | with_reducible assumption
    | (with_reducible apply updRing_frame)

theorem txDispatch_frame {v : Nat} (hz : OnlyChanges F z s) (m1 : Part.out ∈ F) (m10 : Part.ring ∈ F) : OnlyChanges F z (txDispatch s v) := by
  unfold txDispatch
  repeat' first
    | with_reducible assumption
    | (with_reducible apply sendNear_frame)
    | (with_reducible apply sendRepeat_frame)
    | (with_reducible apply sendAll_frame)
    | (with_reducible apply frame_ite)
    | (intro b; refine (fun (_ : OnlyChanges F z b) => ?_) ?_; clear_value b; swap; dsimp only [b]; swap)
    | (intro b; clear_value b)
    | intro b
    | lift_lets
    | split

theorem reservedType_frame {h : DispHdr} {typ : Nat} (hz : OnlyChanges F z s) (m1 : Part.out ∈ F) (m2 : Part.clk ∈ F) (m3 : Part.regs ∈ F) (m4 : Part.portA ∈ F) (m5 : Part.portB ∈ F) (m6 : Part.evr ∈ F) (m10 : Part.ring ∈ F) : OnlyChanges F z (reservedType s h typ) := by
  unfold reservedType
  repeat' first
    | with_reducible assumption
    | (with_reducible apply freshBelow_frame)
    | (with_reducible refine receive_frame ?_ (fun x hx => ?_) ?_ ?_ ?_ ?_ ?_ ?_)
    | (with_reducible apply countForeign_frame)
    | (intro b; refine (fun (_ : OnlyChanges F z b) => ?_) ?_; clear_value b; swap; dsimp only [b]; swap)
    | (intro b; refine (fun (_ : OnlyChanges F z b.1) => ?_) ?_; clear_value b; swap; dsimp only [b]; swap)
    | (intro b; clear_value b)
    | intro b
    | lift_lets
    | split
    | (refine frame_of_eq (by assumption) ?_)
    | dsimp only

theorem setTx_frame {p : RingPort} {x : Relay} (hz : OnlyChanges F z s) (m10 : Part.ring ∈ F) : OnlyChanges F z (setTx s p x) := by
  unfold setTx
  repeat' first
    | with_reducible assumption
    | (with_reducible apply updRing_frame)
    | split
    | dsimp only

theorem sendChunks_frame {p : RingPort} (hz : OnlyChanges F z s) (m1 : Part.out ∈ F) (m10 : Part.ring ∈ F) : OnlyChanges F z (sendChunks s p) := by
  unfold sendChunks
  repeat' first
    | with_reducible assumption
    | (with_reducible apply sendNear_frame)
    | (with_reducible apply setTx_frame)
    | (with_reducible refine frame_foldl (fun x b hx => ?_) ?_)
    | (intro b; refine (fun (_ : OnlyChanges F z b) => ?_) ?_; clear_value b; swap; dsimp only [b]; swap)
    | (intro b; clear_value b)
    | intro b
    | lift_lets
    | (fail_if_no_progress with_reducible refine frame_upd ?_)

theorem relayOffer_frame {p : RingPort} {size : Nat} {digest : Nat} (hz : OnlyChanges F z s) (m1 : Part.out ∈ F) (m10 : Part.ring ∈ F) : OnlyChanges F z (relayOffer s p size digest) := by
  unfold relayOffer
  repeat' first
    | with_reducible assumption
    | (with_reducible apply sendNear_frame)
    | (with_reducible apply setTx_frame)
    | (with_reducible apply frame_ite)
    | split

theorem relOffer_frame {h : DispHdr} {size : Nat} {digest : Nat} (hz : OnlyChanges F z s) (m1 : Part.out ∈ F) (m3 : Part.regs ∈ F) (m4 : Part.portA ∈ F) (m5 : Part.portB ∈ F) (m6 : Part.evr ∈ F) (m10 : Part.ring ∈ F) : OnlyChanges F z (relOffer s h size digest) := by
  unfold relOffer
  repeat' first
    | with_reducible assumption
    | (with_reducible refine receive_frame ?_ (fun x hx => ?_) ?_ ?_ ?_ ?_ ?_ ?_)
    | (with_reducible apply sendNear_frame)
    | (with_reducible apply updRing_frame)
    | (with_reducible apply frame_ite)
    | (intro b; refine (fun (_ : OnlyChanges F z b) => ?_) ?_; clear_value b; swap; dsimp only [b]; swap)
    | (intro b; clear_value b)
    | intro b
    | lift_lets
    | split

theorem relData_frame {h : DispHdr} {index : Nat} {bytes : List Byte} (hz : OnlyChanges F z s) (m1 : Part.out ∈ F) (m3 : Part.regs ∈ F) (m4 : Part.portA ∈ F) (m5 : Part.portB ∈ F) (m6 : Part.evr ∈ F) (m10 : Part.ring ∈ F) : OnlyChanges F z (relData s h index bytes) := by
  unfold relData
  repeat' first
    | with_reducible assumption
    | (with_reducible refine receive_frame ?_ (fun x hx => ?_) ?_ ?_ ?_ ?_ ?_ ?_)
    | (with_reducible apply updRing_frame)
    | (with_reducible apply sendNear_frame)
    | (with_reducible apply frame_ite)
    | (intro b; refine (fun (_ : OnlyChanges F z b) => ?_) ?_; clear_value b; swap; dsimp only [b]; swap)
    | (intro b; clear_value b)
    | intro b
    | lift_lets
    | split
    | (fail_if_no_progress with_reducible refine frame_upd ?_)

theorem relAck_frame {h : DispHdr} {next : Nat} (hz : OnlyChanges F z s) (m1 : Part.out ∈ F) (m3 : Part.regs ∈ F) (m4 : Part.portA ∈ F) (m5 : Part.portB ∈ F) (m6 : Part.evr ∈ F) (m10 : Part.ring ∈ F) : OnlyChanges F z (relAck s h next) := by
  unfold relAck
  repeat' first
    | with_reducible assumption
    | (with_reducible refine receive_frame ?_ (fun x hx => ?_) ?_ ?_ ?_ ?_ ?_ ?_)
    | (with_reducible apply setTx_frame)
    | (with_reducible apply sendChunks_frame)
    | (with_reducible apply frame_ite)
    | (intro b; refine (fun (_ : OnlyChanges F z b) => ?_) ?_; clear_value b; swap; dsimp only [b]; swap)
    | (intro b; clear_value b)
    | intro b
    | lift_lets
    | split
    | (fail_if_no_progress with_reducible refine frame_upd ?_)

theorem relHave_frame {h : DispHdr} {digest : Nat} (hz : OnlyChanges F z s) (m1 : Part.out ∈ F) (m3 : Part.regs ∈ F) (m4 : Part.portA ∈ F) (m5 : Part.portB ∈ F) (m6 : Part.evr ∈ F) (m10 : Part.ring ∈ F) : OnlyChanges F z (relHave s h digest) := by
  unfold relHave
  repeat' first
    | with_reducible assumption
    | (with_reducible refine receive_frame ?_ (fun x hx => ?_) ?_ ?_ ?_ ?_ ?_ ?_)
    | (with_reducible apply setTx_frame)
    | (with_reducible apply frame_ite)
    | (intro b; refine (fun (_ : OnlyChanges F z b) => ?_) ?_; clear_value b; swap; dsimp only [b]; swap)
    | (intro b; clear_value b)
    | intro b
    | lift_lets
    | split
    | (fail_if_no_progress with_reducible refine frame_upd ?_)

theorem relayResend_frame {p : RingPort} (hz : OnlyChanges F z s) (m1 : Part.out ∈ F) (m10 : Part.ring ∈ F) : OnlyChanges F z (relayResend s p) := by
  unfold relayResend
  repeat' first
    | with_reducible assumption
    | (with_reducible apply sendChunks_frame)
    | (with_reducible apply setTx_frame)
    | (with_reducible apply frame_ite)
    | (intro b; refine (fun (_ : OnlyChanges F z b) => ?_) ?_; clear_value b; swap; dsimp only [b]; swap)
    | (intro b; clear_value b)
    | intro b
    | lift_lets
    | split
    | (fail_if_no_progress with_reducible refine frame_upd ?_)

theorem actRecv_frame {h : DispHdr} {digest : Nat} {tact : Nat} {stp : Nat} (hz : OnlyChanges F z s) (m1 : Part.out ∈ F) (m3 : Part.regs ∈ F) (m4 : Part.portA ∈ F) (m5 : Part.portB ∈ F) (m6 : Part.evr ∈ F) (m10 : Part.ring ∈ F) : OnlyChanges F z (actRecv s h digest tact stp) := by
  unfold actRecv
  repeat' first
    | with_reducible assumption
    | (with_reducible refine receive_frame ?_ (fun x hx => ?_) ?_ ?_ ?_ ?_ ?_ ?_)
    | (with_reducible apply updRing_frame)

theorem ringEnable_frame (hz : OnlyChanges F z s) (m1 : Part.out ∈ F) (m2 : Part.clk ∈ F) (m3 : Part.regs ∈ F) (m4 : Part.portA ∈ F) (m5 : Part.portB ∈ F) (m6 : Part.evr ∈ F) (m10 : Part.ring ∈ F) (m14 : Part.dram ∈ F) (m15 : Part.phc ∈ F) (m16 : Part.map ∈ F) (m17 : Part.flash ∈ F) (m18 : Part.jrc ∈ F) (m21 : Part.pat ∈ F) (m22 : Part.mem ∈ F) : OnlyChanges F z (ringEnable s) := by
  unfold ringEnable
  repeat' first
    | with_reducible assumption
    | (with_reducible apply refresh_frame)
    | (with_reducible apply toState_frame)
    | (with_reducible apply setActive_frame)

theorem ringDisable_frame (hz : OnlyChanges F z s) (m1 : Part.out ∈ F) (m2 : Part.clk ∈ F) (m3 : Part.regs ∈ F) (m4 : Part.portA ∈ F) (m5 : Part.portB ∈ F) (m6 : Part.evr ∈ F) (m10 : Part.ring ∈ F) (m14 : Part.dram ∈ F) (m15 : Part.phc ∈ F) (m16 : Part.map ∈ F) (m17 : Part.flash ∈ F) (m18 : Part.jrc ∈ F) (m21 : Part.pat ∈ F) (m22 : Part.mem ∈ F) : OnlyChanges F z (ringDisable s) := by
  unfold ringDisable
  repeat' first
    | with_reducible assumption
    | (with_reducible apply updRing_frame)
    | (with_reducible apply setActive_frame)
    | (with_reducible apply refresh_frame)
    | (with_reducible apply toState_frame)
    | (intro b; refine (fun (_ : OnlyChanges F z b) => ?_) ?_; clear_value b; swap; dsimp only [b]; swap)
    | (intro b; clear_value b)
    | intro b
    | lift_lets

theorem cfgCauseSet_frame {bit : Nat} (hz : OnlyChanges F z s) (m1 : Part.out ∈ F) (m3 : Part.regs ∈ F) (m4 : Part.portA ∈ F) (m5 : Part.portB ∈ F) (m6 : Part.evr ∈ F) : OnlyChanges F z (cfgCauseSet s bit) := by
  unfold cfgCauseSet
  repeat' first
    | with_reducible assumption
    | (with_reducible apply noteCause_frame)
    | (with_reducible apply setCause_frame)
    | (with_reducible apply frame_ite)
    | split

theorem norPut_frame {a : Nat} {l : List Byte} (hz : OnlyChanges F z s) (m13 : Part.boot ∈ F) : OnlyChanges F z (norPut s a l) := by
  unfold norPut
  repeat' first
    | with_reducible assumption
    | (with_reducible apply updBoot_frame)

theorem writeRecordCopy_frame {slot : Nat} {flags : Nat} {digest : Nat} (hz : OnlyChanges F z s) (m3 : Part.regs ∈ F) (m13 : Part.boot ∈ F) : OnlyChanges F z (writeRecordCopy s slot flags digest) := by
  unfold writeRecordCopy
  repeat' first
    | with_reducible assumption
    | (with_reducible apply norPut_frame)
    | (with_reducible apply wrField_frame)
    | (with_reducible apply wr_frame)
    | (intro b; refine (fun (_ : OnlyChanges F z b) => ?_) ?_; clear_value b; swap; dsimp only [b]; swap)
    | (intro b; refine (fun (_ : OnlyChanges F z b.1) => ?_) ?_; clear_value b; swap; dsimp only [b]; swap)
    | (intro b; clear_value b)
    | intro b
    | lift_lets
    | split
    | (refine frame_of_eq (by assumption) ?_)
    | dsimp only

theorem norStart_frame {i : Initiator} {v : Nat} (hz : OnlyChanges F z s) (m1 : Part.out ∈ F) (m2 : Part.clk ∈ F) (m3 : Part.regs ∈ F) (m4 : Part.portA ∈ F) (m5 : Part.portB ∈ F) (m6 : Part.evr ∈ F) (m13 : Part.boot ∈ F) (m14 : Part.dram ∈ F) (m15 : Part.phc ∈ F) (m18 : Part.jrc ∈ F) (m21 : Part.pat ∈ F) (m22 : Part.mem ∈ F) : OnlyChanges F z (norStart s i v) := by
  unfold norStart
  repeat' first
    | with_reducible assumption
    | (with_reducible apply directRead_frame)
    | (with_reducible apply updBoot_frame)
    | (with_reducible apply wr_frame)
    | (with_reducible apply frame_ite)
    | (with_reducible apply frame_ite_fst)
    | (intro b; refine (fun (_ : OnlyChanges F z b) => ?_) ?_; clear_value b; swap; dsimp only [b]; swap)
    | (intro b; refine (fun (_ : OnlyChanges F z b.1) => ?_) ?_; clear_value b; swap; dsimp only [b]; swap)
    | (intro b; clear_value b)
    | intro b
    | lift_lets
    | split
    | (refine frame_of_eq (by assumption) ?_)
    | dsimp only

theorem freeBytes_frame {n : Nat} {l : List Byte} (hz : OnlyChanges F z s) (m2 : Part.clk ∈ F)
    : OnlyChanges F z (freeBytes n s l).1 := by
  induction n generalizing s l with
  | zero => exact hz
  | succ n ih =>
    cases l with
    | nil => exact hz
    | cons b r => exact ih (freshBelow_frame hz (by assumption))

theorem norApply_frame {o : NorOp} {bad : Bool} (hz : OnlyChanges F z s) (m1 : Part.out ∈ F) (m2 : Part.clk ∈ F) (m3 : Part.regs ∈ F) (m4 : Part.portA ∈ F) (m5 : Part.portB ∈ F) (m6 : Part.evr ∈ F) (m13 : Part.boot ∈ F) (m14 : Part.dram ∈ F) (m15 : Part.phc ∈ F) (m18 : Part.jrc ∈ F) (m21 : Part.pat ∈ F) (m22 : Part.mem ∈ F) : OnlyChanges F z (norApply s o bad) := by
  unfold norApply
  repeat' first
    | with_reducible assumption
    | (with_reducible apply directWrite_frame)
    | (with_reducible apply freeBytes_frame)
    | (with_reducible apply norPut_frame)
    | (with_reducible apply wrField_frame)
    | (with_reducible apply wr_frame)
    | (with_reducible apply frame_ite)
    | (with_reducible apply frame_ite_fst)
    | (intro b; refine (fun (_ : OnlyChanges F z b) => ?_) ?_; clear_value b; swap; dsimp only [b]; swap)
    | (intro b; refine (fun (_ : OnlyChanges F z b.1) => ?_) ?_; clear_value b; swap; dsimp only [b]; swap)
    | (intro b; clear_value b)
    | intro b
    | lift_lets
    | split

theorem norDone_frame {mismatch : Bool} {timeout : Bool} (hz : OnlyChanges F z s) (m1 : Part.out ∈ F) (m2 : Part.clk ∈ F) (m3 : Part.regs ∈ F) (m4 : Part.portA ∈ F) (m5 : Part.portB ∈ F) (m6 : Part.evr ∈ F) (m13 : Part.boot ∈ F) (m14 : Part.dram ∈ F) (m15 : Part.phc ∈ F) (m18 : Part.jrc ∈ F) (m21 : Part.pat ∈ F) (m22 : Part.mem ∈ F) : OnlyChanges F z (norDone s mismatch timeout) := by
  unfold norDone
  repeat' first
    | with_reducible assumption
    | (with_reducible apply norApply_frame)
    | (with_reducible apply updBoot_frame)
    | (with_reducible apply wr_frame)
    | (with_reducible apply emit_frame)
    | (with_reducible apply cfgCauseSet_frame)
    | (with_reducible apply frame_ite)
    | (with_reducible apply frame_ite_fst)
    | (with_reducible refine frame_foldl (fun x b hx => ?_) ?_)
    | (with_reducible refine frame_foldl_fst (fun x b hx => ?_) ?_)
    | (intro b; refine (fun (_ : OnlyChanges F z b) => ?_) ?_; clear_value b; swap; dsimp only [b]; swap)
    | (intro b; refine (fun (_ : OnlyChanges F z b.1) => ?_) ?_; clear_value b; swap; dsimp only [b]; swap)
    | (intro b; clear_value b)
    | intro b
    | lift_lets
    | split
    | dsimp only

theorem xipWait_frame {us : Nat} (hz : OnlyChanges F z s) (m3 : Part.regs ∈ F) : OnlyChanges F z (xipWait s us) := by
  unfold xipWait
  repeat' first
    | with_reducible assumption
    | (with_reducible apply wrField_frame)

theorem xipFetch_frame {i : Initiator} {off : Nat} {waited : Nat} (hz : OnlyChanges F z s) (m1 : Part.out ∈ F) (m3 : Part.regs ∈ F) (m4 : Part.portA ∈ F) (m5 : Part.portB ∈ F) (m6 : Part.evr ∈ F) (m13 : Part.boot ∈ F) : OnlyChanges F z (xipFetch s i off waited) := by
  unfold xipFetch
  repeat' first
    | with_reducible assumption
    | (with_reducible apply emit_frame)
    | (with_reducible apply xipWait_frame)
    | (with_reducible apply cfgCauseSet_frame)
    | (with_reducible apply updBoot_frame)
    | (with_reducible apply frame_ite)
    | split
    | dsimp only

theorem xipServe_frame (hz : OnlyChanges F z s) (m1 : Part.out ∈ F) (m13 : Part.boot ∈ F) : OnlyChanges F z (xipServe s) := by
  unfold xipServe
  repeat' first
    | with_reducible assumption
    | (with_reducible apply emit_frame)
    | (with_reducible apply updBoot_frame)
    | (with_reducible refine frame_foldl (fun x b hx => ?_) ?_)
    | (with_reducible refine frame_foldl_fst (fun x b hx => ?_) ?_)
    | (intro b; refine (fun (_ : OnlyChanges F z b) => ?_) ?_; clear_value b; swap; dsimp only [b]; swap)
    | (intro b; refine (fun (_ : OnlyChanges F z b.1) => ?_) ?_; clear_value b; swap; dsimp only [b]; swap)
    | (intro b; clear_value b)
    | intro b
    | lift_lets

theorem norSuspend_frame {waited : Nat} (hz : OnlyChanges F z s) (m1 : Part.out ∈ F) (m3 : Part.regs ∈ F) (m13 : Part.boot ∈ F) : OnlyChanges F z (norSuspend s waited) := by
  unfold norSuspend
  repeat' first
    | with_reducible assumption
    | (with_reducible apply satAdd_frame)
    | (with_reducible apply xipWait_frame)
    | (with_reducible apply xipServe_frame)
    | (with_reducible apply updBoot_frame)
    | (with_reducible apply frame_ite)
    | (intro b; refine (fun (_ : OnlyChanges F z b) => ?_) ?_; clear_value b; swap; dsimp only [b]; swap)
    | (intro b; clear_value b)
    | intro b
    | lift_lets
    | split
    | dsimp only

theorem norResume_frame (hz : OnlyChanges F z s) (m13 : Part.boot ∈ F) : OnlyChanges F z (norResume s) := by
  unfold norResume
  repeat' first
    | with_reducible assumption
    | (with_reducible apply updBoot_frame)
    | (with_reducible apply frame_ite)
    | split
    | dsimp only

theorem norPageDone_frame (hz : OnlyChanges F z s) (m1 : Part.out ∈ F) (m13 : Part.boot ∈ F) : OnlyChanges F z (norPageDone s) := by
  unfold norPageDone
  repeat' first
    | with_reducible assumption
    | (with_reducible apply xipServe_frame)
    | split
    | dsimp only

theorem secCauseSet_frame {bit : Nat} (hz : OnlyChanges F z s) (m1 : Part.out ∈ F) (m3 : Part.regs ∈ F) (m4 : Part.portA ∈ F) (m5 : Part.portB ∈ F) (m6 : Part.evr ∈ F) : OnlyChanges F z (secCauseSet s bit) := by
  unfold secCauseSet
  repeat' first
    | with_reducible assumption
    | (with_reducible apply setCause_frame)

theorem cryCauseSet_frame {bit : Nat} (hz : OnlyChanges F z s) (m1 : Part.out ∈ F) (m3 : Part.regs ∈ F) (m4 : Part.portA ∈ F) (m5 : Part.portB ∈ F) (m6 : Part.evr ∈ F) : OnlyChanges F z (cryCauseSet s bit) := by
  unfold cryCauseSet
  repeat' first
    | with_reducible assumption
    | (with_reducible apply setCause_frame)

theorem trigRes_frame {a : Nat} (hz : OnlyChanges F z s) (m3 : Part.regs ∈ F) : OnlyChanges F z (trigRes s a) := by
  unfold trigRes
  repeat' first
    | with_reducible assumption
    | (with_reducible apply wr_frame)

theorem doneRes_frame {a : Nat} {bits : Nat} (hz : OnlyChanges F z s) (m3 : Part.regs ∈ F) : OnlyChanges F z (doneRes s a bits) := by
  unfold doneRes
  repeat' first
    | with_reducible assumption
    | (with_reducible apply wr_frame)

theorem setWin_frame {p : Port} {w : Window} (hz : OnlyChanges F z s) (m11 : Part.sec ∈ F) : OnlyChanges F z (setWin s p w) := by
  unfold setWin
  repeat' first
    | with_reducible assumption
    | (with_reducible apply updSec_frame)
    | split
    | (fail_if_no_progress with_reducible refine frame_upd ?_)
    | dsimp only

theorem closeWin_frame {p : Port} (hz : OnlyChanges F z s) (m11 : Part.sec ∈ F) : OnlyChanges F z (closeWin s p) := by
  unfold closeWin
  repeat' first
    | with_reducible assumption
    | (with_reducible apply setWin_frame)
    | (with_reducible apply frame_ite)
    | split

theorem denyAccess_frame {p : Port} (hz : OnlyChanges F z s) (m1 : Part.out ∈ F) (m3 : Part.regs ∈ F) (m4 : Part.portA ∈ F) (m5 : Part.portB ∈ F) (m6 : Part.evr ∈ F) : OnlyChanges F z (denyAccess s p) := by
  unfold denyAccess
  repeat' first
    | with_reducible assumption
    | (with_reducible apply secCauseSet_frame)
    | (with_reducible apply satAdd_frame)
    | split
    | dsimp only

theorem endSession_frame {sid : Nat} (hz : OnlyChanges F z s) (m1 : Part.out ∈ F) (m3 : Part.regs ∈ F) (m4 : Part.portA ∈ F) (m5 : Part.portB ∈ F) (m6 : Part.evr ∈ F) (m11 : Part.sec ∈ F) : OnlyChanges F z (endSession s sid) := by
  unfold endSession
  repeat' first
    | with_reducible assumption
    | (with_reducible apply closeWin_frame)
    | (with_reducible apply updSec_frame)
    | (with_reducible apply raise_frame)
    | (with_reducible apply frame_ite)
    | (with_reducible refine frame_foldl (fun x b hx => ?_) ?_)
    | (intro b; refine (fun (_ : OnlyChanges F z b) => ?_) ?_; clear_value b; swap; dsimp only [b]; swap)
    | (intro b; clear_value b)
    | intro b
    | lift_lets
    | split
    | dsimp only

theorem endAllSessions_frame (hz : OnlyChanges F z s) (m1 : Part.out ∈ F) (m3 : Part.regs ∈ F) (m4 : Part.portA ∈ F) (m5 : Part.portB ∈ F) (m6 : Part.evr ∈ F) (m11 : Part.sec ∈ F) : OnlyChanges F z (endAllSessions s) := by
  unfold endAllSessions
  repeat' first
    | with_reducible assumption
    | (with_reducible apply endSession_frame)
    | (with_reducible refine frame_foldl (fun x b hx => ?_) ?_)

theorem fuseBlow_frame {op : Nat} {slot : Nat} {value : Nat} (hz : OnlyChanges F z s) (m11 : Part.sec ∈ F) : OnlyChanges F z (fuseBlow s op slot value) := by
  unfold fuseBlow
  repeat' first
    | with_reducible assumption
    | (with_reducible apply updSec_frame)
    | split
    | (fail_if_no_progress with_reducible refine frame_upd ?_)
    | dsimp only

theorem fuseCmd_frame {i : Initiator} {v : Nat} (hz : OnlyChanges F z s) (m1 : Part.out ∈ F) (m3 : Part.regs ∈ F) (m4 : Part.portA ∈ F) (m5 : Part.portB ∈ F) (m6 : Part.evr ∈ F) (m11 : Part.sec ∈ F) : OnlyChanges F z (fuseCmd s i v) := by
  unfold fuseCmd
  repeat' first
    | with_reducible assumption
    | (with_reducible apply trigRes_frame)
    | (with_reducible apply secCauseSet_frame)
    | (with_reducible apply doneRes_frame)
    | (with_reducible apply fuseBlow_frame)
    | (with_reducible apply frame_ite)
    | (intro b; refine (fun (_ : OnlyChanges F z b) => ?_) ?_; clear_value b; swap; dsimp only [b]; swap)
    | (intro b; clear_value b)
    | intro b
    | lift_lets
    | split

theorem verifyStart_frame (hz : OnlyChanges F z s) (m3 : Part.regs ∈ F) (m11 : Part.sec ∈ F) : OnlyChanges F z (verifyStart s) := by
  unfold verifyStart
  repeat' first
    | with_reducible assumption
    | (with_reducible apply updSec_frame)
    | (with_reducible apply trigRes_frame)
    | (fail_if_no_progress with_reducible refine frame_upd ?_)

theorem putDigest_frame {d : BitVec 512} (hz : OnlyChanges F z s) (m3 : Part.regs ∈ F) : OnlyChanges F z (putDigest s d) := by
  unfold putDigest
  repeat' first
    | with_reducible assumption
    | (with_reducible apply wr_frame)
    | (with_reducible refine frame_foldl (fun x b hx => ?_) ?_)

theorem putVres_frame {r : Nat} {d : BitVec 512} (hz : OnlyChanges F z s) (m3 : Part.regs ∈ F) (m11 : Part.sec ∈ F) : OnlyChanges F z (putVres s r d) := by
  unfold putVres
  repeat' first
    | with_reducible assumption
    | (with_reducible apply doneRes_frame)
    | (with_reducible apply putDigest_frame)
    | (with_reducible apply updSec_frame)
    | (fail_if_no_progress with_reducible refine frame_upd ?_)

theorem verifyDone_frame (hz : OnlyChanges F z s) (m1 : Part.out ∈ F) (m2 : Part.clk ∈ F) (m3 : Part.regs ∈ F) (m4 : Part.portA ∈ F) (m5 : Part.portB ∈ F) (m6 : Part.evr ∈ F) (m11 : Part.sec ∈ F) (m14 : Part.dram ∈ F) (m15 : Part.phc ∈ F) (m18 : Part.jrc ∈ F) (m21 : Part.pat ∈ F) (m22 : Part.mem ∈ F) : OnlyChanges F z (verifyDone s) := by
  unfold verifyDone
  repeat' first
    | with_reducible assumption
    | (with_reducible apply updSec_frame)
    | (with_reducible apply directRead_frame)
    | (with_reducible apply secCauseSet_frame)
    | (with_reducible apply putVres_frame)
    | (with_reducible apply frame_ite)
    | (with_reducible apply frame_ite_fst)
    | (intro b; refine (fun (_ : OnlyChanges F z b) => ?_) ?_; clear_value b; swap; dsimp only [b]; swap)
    | (intro b; refine (fun (_ : OnlyChanges F z b.1) => ?_) ?_; clear_value b; swap; dsimp only [b]; swap)
    | (intro b; clear_value b)
    | intro b
    | lift_lets
    | split
    | (refine frame_of_eq (by assumption) ?_)
    | (fail_if_no_progress with_reducible refine frame_upd ?_)
    | dsimp only

theorem offerImage_frame {img : List Byte} {skip : Option RingPort} (hz : OnlyChanges F z s) (m1 : Part.out ∈ F) (m10 : Part.ring ∈ F) : OnlyChanges F z (offerImage s img skip) := by
  unfold offerImage
  repeat' first
    | with_reducible assumption
    | (with_reducible apply updRing_frame)
    | (with_reducible apply relayOffer_frame)
    | (with_reducible apply frame_ite)
    | (intro b; refine (fun (_ : OnlyChanges F z b) => ?_) ?_; clear_value b; swap; dsimp only [b]; swap)
    | (intro b; clear_value b)
    | intro b
    | lift_lets
    | split

theorem relayBegin_frame (hz : OnlyChanges F z s) (m11 : Part.sec ∈ F) (m13 : Part.boot ∈ F) : OnlyChanges F z (relayBegin s) := by
  unfold relayBegin
  repeat' first
    | with_reducible assumption
    | (with_reducible apply updBoot_frame)
    | (with_reducible apply updSec_frame)
    | (with_reducible apply frame_ite)
    | (intro b; refine (fun (_ : OnlyChanges F z b) => ?_) ?_; clear_value b; swap; dsimp only [b]; swap)
    | (intro b; clear_value b)
    | intro b
    | lift_lets
    | split
    | (fail_if_no_progress with_reducible refine frame_upd ?_)
    | dsimp only

theorem relayVerify_frame (hz : OnlyChanges F z s) (m1 : Part.out ∈ F) (m3 : Part.regs ∈ F) (m4 : Part.portA ∈ F) (m5 : Part.portB ∈ F) (m6 : Part.evr ∈ F) (m10 : Part.ring ∈ F) (m11 : Part.sec ∈ F) (m13 : Part.boot ∈ F) : OnlyChanges F z (relayVerify s) := by
  unfold relayVerify
  repeat' first
    | with_reducible assumption
    | (with_reducible apply updRing_frame)
    | (with_reducible apply relayBegin_frame)
    | (with_reducible apply updSec_frame)
    | (with_reducible apply secCauseSet_frame)
    | (with_reducible apply putVres_frame)
    | (with_reducible apply trigRes_frame)
    | (with_reducible apply offerImage_frame)
    | (with_reducible apply frame_ite)
    | (intro b; refine (fun (_ : OnlyChanges F z b) => ?_) ?_; clear_value b; swap; dsimp only [b]; swap)
    | (intro b; clear_value b)
    | intro b
    | lift_lets
    | split
    | (fail_if_no_progress with_reducible refine frame_upd ?_)

theorem relOfferHeld_frame {h : DispHdr} {size : Nat} {digest : Nat} (hz : OnlyChanges F z s) (m1 : Part.out ∈ F) (m3 : Part.regs ∈ F) (m4 : Part.portA ∈ F) (m5 : Part.portB ∈ F) (m6 : Part.evr ∈ F) (m10 : Part.ring ∈ F) : OnlyChanges F z (relOfferHeld s h size digest) := by
  unfold relOfferHeld
  repeat' first
    | with_reducible assumption
    | (with_reducible apply relOffer_frame)
    | (with_reducible apply updRing_frame)
    | (with_reducible apply frame_ite)
    | (with_reducible refine frame_foldl (fun x b hx => ?_) ?_)
    | (intro b; refine (fun (_ : OnlyChanges F z b) => ?_) ?_; clear_value b; swap; dsimp only [b]; swap)
    | (with_reducible apply hfn)
    | (intro b; refine (fun (hfn : ∀ x, OnlyChanges F z x → OnlyChanges F z (b x)) => ?_) ?_; clear_value b; swap; (intro x hx; dsimp only [b]); swap)
    | (intro b; refine (fun (hfn : ∀ x y, OnlyChanges F z x → OnlyChanges F z (b x y)) => ?_) ?_; clear_value b; swap; (intro x y hx; dsimp only [b]); swap)
    | (with_reducible apply hfc)
    | (with_reducible apply hfd)
    | (intro b; refine (fun (hfc : ∀ x, OnlyChanges F z (b x)) => ?_) ?_; clear_value b; swap; (intro x; dsimp only [b]); swap)
    | (intro b; refine (fun (hfd : ∀ x y, OnlyChanges F z (b x y)) => ?_) ?_; clear_value b; swap; (intro x y; dsimp only [b]); swap)
    | (intro b; clear_value b)
    | intro b
    | lift_lets
    | split

theorem relDataVerify_frame {h : DispHdr} {index : Nat} {bytes : List Byte} (hz : OnlyChanges F z s) (m1 : Part.out ∈ F) (m3 : Part.regs ∈ F) (m4 : Part.portA ∈ F) (m5 : Part.portB ∈ F) (m6 : Part.evr ∈ F) (m10 : Part.ring ∈ F) (m11 : Part.sec ∈ F) (m13 : Part.boot ∈ F) : OnlyChanges F z (relDataVerify s h index bytes) := by
  unfold relDataVerify
  repeat' first
    | with_reducible assumption
    | (with_reducible apply relayVerify_frame)
    | (with_reducible apply relData_frame)

theorem commitEnd_frame {st : Status} (hz : OnlyChanges F z s) (m1 : Part.out ∈ F) (m3 : Part.regs ∈ F) (m4 : Part.portA ∈ F) (m5 : Part.portB ∈ F) (m6 : Part.evr ∈ F) (m11 : Part.sec ∈ F) : OnlyChanges F z (commitEnd s st) := by
  unfold commitEnd
  repeat' first
    | with_reducible assumption
    | (with_reducible apply updSec_frame)
    | (with_reducible apply complete_frame)
    | (with_reducible apply frame_ite)
    | (intro b; refine (fun (_ : OnlyChanges F z b) => ?_) ?_; clear_value b; swap; dsimp only [b]; swap)
    | (intro b; clear_value b)
    | intro b
    | lift_lets
    | split
    | (fail_if_no_progress with_reducible refine frame_upd ?_)
    | dsimp only

theorem activationSkip_frame {outcome : Nat} {st : Status} (hz : OnlyChanges F z s) (m1 : Part.out ∈ F) (m3 : Part.regs ∈ F) (m4 : Part.portA ∈ F) (m5 : Part.portB ∈ F) (m6 : Part.evr ∈ F) (m11 : Part.sec ∈ F) : OnlyChanges F z (activationSkip s outcome st) := by
  unfold activationSkip
  repeat' first
    | with_reducible assumption
    | (with_reducible apply commitEnd_frame)
    | (with_reducible apply secCauseSet_frame)
    | (with_reducible apply doneRes_frame)
    | (with_reducible apply trigRes_frame)

theorem activate_frame {slot : Nat} {group : Bool} (hz : OnlyChanges F z s) (m1 : Part.out ∈ F) (m3 : Part.regs ∈ F) (m4 : Part.portA ∈ F) (m5 : Part.portB ∈ F) (m6 : Part.evr ∈ F) (m9 : Part.chip ∈ F) (m11 : Part.sec ∈ F) : OnlyChanges F z (activate s slot group) := by
  unfold activate
  repeat' first
    | with_reducible assumption
    | (with_reducible apply commitEnd_frame)
    | (with_reducible apply doneRes_frame)
    | (with_reducible apply trigRes_frame)
    | (with_reducible apply updSec_frame)
    | (with_reducible apply updChip_frame)
    | (with_reducible apply asyncEvent_frame)
    | (with_reducible apply frame_ite)
    | (intro b; refine (fun (_ : OnlyChanges F z b) => ?_) ?_; clear_value b; swap; dsimp only [b]; swap)
    | (intro b; clear_value b)
    | intro b
    | lift_lets
    | split
    | (fail_if_no_progress with_reducible refine frame_upd ?_)

theorem takeImage_frame {slot : Nat} {d : BitVec 512} {svn : Nat} {key : Nat} {com : Bool} (hz : OnlyChanges F z s) (m3 : Part.regs ∈ F) (m11 : Part.sec ∈ F) : OnlyChanges F z (takeImage s slot d svn key com) := by
  unfold takeImage
  repeat' first
    | with_reducible assumption
    | (with_reducible apply wrField_frame)
    | (with_reducible apply updSec_frame)
    | (fail_if_no_progress with_reducible refine frame_upd ?_)

theorem noteReady_frame (hz : OnlyChanges F z s) (m11 : Part.sec ∈ F) : OnlyChanges F z (noteReady s) := by
  unfold noteReady
  repeat' first
    | with_reducible assumption
    | (with_reducible apply updSec_frame)
    | (fail_if_no_progress with_reducible refine frame_upd ?_)

theorem noteRoot_frame (hz : OnlyChanges F z s) (m11 : Part.sec ∈ F) : OnlyChanges F z (noteRoot s) := by
  unfold noteRoot
  repeat' first
    | with_reducible assumption
    | (with_reducible apply updSec_frame)
    | (fail_if_no_progress with_reducible refine frame_upd ?_)

theorem writeHandover_frame {new : BitVec 512} (hz : OnlyChanges F z s) (m11 : Part.sec ∈ F) (m18 : Part.jrc ∈ F) : OnlyChanges F z (writeHandover s new) := by
  unfold writeHandover
  repeat' first
    | with_reducible assumption
    | (with_reducible apply updSec_frame)
    | (with_reducible apply updJrc_frame)
    | (intro b; refine (fun (_ : OnlyChanges F z b) => ?_) ?_; clear_value b; swap; dsimp only [b]; swap)
    | (intro b; clear_value b)
    | intro b
    | lift_lets
    | (fail_if_no_progress with_reducible refine frame_upd ?_)

theorem readHandover_frame {new : BitVec 512} (hz : OnlyChanges F z s) (m1 : Part.out ∈ F) (m3 : Part.regs ∈ F) (m4 : Part.portA ∈ F) (m5 : Part.portB ∈ F) (m6 : Part.evr ∈ F) (m18 : Part.jrc ∈ F) : OnlyChanges F z (readHandover s new).1 := by
  unfold readHandover
  repeat' first
    | with_reducible assumption
    | (with_reducible apply mirroredRead_frame)
    | (intro b; refine (fun (_ : OnlyChanges F z b) => ?_) ?_; clear_value b; swap; dsimp only [b]; swap)
    | (intro b; refine (fun (_ : OnlyChanges F z b.1) => ?_) ?_; clear_value b; swap; dsimp only [b]; swap)
    | (intro b; clear_value b)
    | intro b
    | lift_lets
    | split
    | (refine frame_of_eq (by assumption) ?_)
    | dsimp only

theorem handoverSwitch_frame (hz : OnlyChanges F z s) (m1 : Part.out ∈ F) (m3 : Part.regs ∈ F) (m4 : Part.portA ∈ F) (m5 : Part.portB ∈ F) (m6 : Part.evr ∈ F) (m11 : Part.sec ∈ F) (m18 : Part.jrc ∈ F) : OnlyChanges F z (handoverSwitch s) := by
  unfold handoverSwitch
  repeat' first
    | with_reducible assumption
    | (with_reducible apply writeHandover_frame)
    | (with_reducible apply updSec_frame)
    | (with_reducible apply endAllSessions_frame)
    | (with_reducible apply takeImage_frame)
    | (with_reducible apply frame_ite)
    | (intro b; refine (fun (_ : OnlyChanges F z b) => ?_) ?_; clear_value b; swap; dsimp only [b]; swap)
    | (intro b; clear_value b)
    | intro b
    | lift_lets
    | split
    | (fail_if_no_progress with_reducible refine frame_upd ?_)
    | dsimp only

theorem handoverDone_frame (hz : OnlyChanges F z s) (m1 : Part.out ∈ F) (m3 : Part.regs ∈ F) (m4 : Part.portA ∈ F) (m5 : Part.portB ∈ F) (m6 : Part.evr ∈ F) (m9 : Part.chip ∈ F) (m11 : Part.sec ∈ F) (m13 : Part.boot ∈ F) (m18 : Part.jrc ∈ F) : OnlyChanges F z (handoverDone s) := by
  unfold handoverDone
  repeat' first
    | with_reducible assumption
    | (with_reducible apply readHandover_frame)
    | (with_reducible apply writeRecordCopy_frame)
    | (with_reducible apply updSec_frame)
    | (with_reducible apply noteReady_frame)
    | (with_reducible apply updChip_frame)
    | (with_reducible apply secCauseSet_frame)
    | (with_reducible apply commitEnd_frame)
    | (with_reducible apply doneRes_frame)
    | (with_reducible apply frame_ite)
    | (with_reducible apply frame_ite_fst)
    | (intro b; refine (fun (_ : OnlyChanges F z b) => ?_) ?_; clear_value b; swap; dsimp only [b]; swap)
    | (intro b; refine (fun (_ : OnlyChanges F z b.1) => ?_) ?_; clear_value b; swap; dsimp only [b]; swap)
    | (intro b; clear_value b)
    | intro b
    | lift_lets
    | split
    | (refine frame_of_eq (by assumption) ?_)
    | (fail_if_no_progress with_reducible refine frame_upd ?_)
    | dsimp only

theorem activationRevert_frame (hz : OnlyChanges F z s) (m1 : Part.out ∈ F) (m3 : Part.regs ∈ F) (m4 : Part.portA ∈ F) (m5 : Part.portB ∈ F) (m6 : Part.evr ∈ F) (m9 : Part.chip ∈ F) (m11 : Part.sec ∈ F) : OnlyChanges F z (activationRevert s) := by
  unfold activationRevert
  repeat' first
    | with_reducible assumption
    | (with_reducible apply takeImage_frame)
    | (with_reducible apply updSec_frame)
    | (with_reducible apply noteReady_frame)
    | (with_reducible apply updChip_frame)
    | (with_reducible apply secCauseSet_frame)
    | (with_reducible apply commitEnd_frame)
    | (with_reducible apply doneRes_frame)
    | (with_reducible apply frame_ite)
    | (intro b; refine (fun (_ : OnlyChanges F z b) => ?_) ?_; clear_value b; swap; dsimp only [b]; swap)
    | (intro b; clear_value b)
    | intro b
    | lift_lets
    | split
    | (fail_if_no_progress with_reducible refine frame_upd ?_)
    | dsimp only

theorem activationTime_frame (hz : OnlyChanges F z s) (m1 : Part.out ∈ F) (m3 : Part.regs ∈ F) (m4 : Part.portA ∈ F) (m5 : Part.portB ∈ F) (m6 : Part.evr ∈ F) (m9 : Part.chip ∈ F) (m10 : Part.ring ∈ F) (m11 : Part.sec ∈ F) : OnlyChanges F z (activationTime s) := by
  unfold activationTime
  repeat' first
    | with_reducible assumption
    | (with_reducible apply updRing_frame)
    | (with_reducible apply activationSkip_frame)
    | (with_reducible apply activate_frame)
    | (with_reducible apply frame_ite)
    | (intro b; refine (fun (_ : OnlyChanges F z b) => ?_) ?_; clear_value b; swap; dsimp only [b]; swap)
    | (intro b; clear_value b)
    | intro b
    | lift_lets
    | split
    | dsimp only

theorem commitActivate_frame {slot : Nat} (hz : OnlyChanges F z s) (m1 : Part.out ∈ F) (m3 : Part.regs ∈ F) (m4 : Part.portA ∈ F) (m5 : Part.portB ∈ F) (m6 : Part.evr ∈ F) (m9 : Part.chip ∈ F) (m10 : Part.ring ∈ F) (m11 : Part.sec ∈ F) : OnlyChanges F z (commitActivate s slot) := by
  unfold commitActivate
  repeat' first
    | with_reducible assumption
    | (with_reducible apply sendRepeat_frame)
    | (with_reducible apply updRing_frame)
    | (with_reducible apply activate_frame)
    | (with_reducible apply secCauseSet_frame)
    | (with_reducible apply frame_ite)
    | (intro b; refine (fun (_ : OnlyChanges F z b) => ?_) ?_; clear_value b; swap; dsimp only [b]; swap)
    | (intro b; clear_value b)
    | intro b
    | lift_lets
    | split

theorem drawKey_frame (hz : OnlyChanges F z s) (m2 : Part.clk ∈ F) : OnlyChanges F z (drawKey s).1 := by
  unfold drawKey
  repeat' first
    | with_reducible assumption
    | (with_reducible apply freshBelow_frame)
    | (with_reducible apply frame_ite)
    | (with_reducible apply frame_ite_fst)
    | (intro b; refine (fun (_ : OnlyChanges F z b) => ?_) ?_; clear_value b; swap; dsimp only [b]; swap)
    | (intro b; refine (fun (_ : OnlyChanges F z b.1) => ?_) ?_; clear_value b; swap; dsimp only [b]; swap)
    | (intro b; clear_value b)
    | intro b
    | lift_lets
    | split
    | (refine frame_of_eq (by assumption) ?_)
    | dsimp only

theorem newSalt_frame {nsid : Nat} {entry : Nat} (hz : OnlyChanges F z s) (m2 : Part.clk ∈ F) (m12 : Part.cry ∈ F) (m18 : Part.jrc ∈ F) : OnlyChanges F z (newSalt s nsid entry) := by
  unfold newSalt
  repeat' first
    | with_reducible assumption
    | (with_reducible apply freshBelow_frame)
    | (with_reducible apply updJrc_frame)
    | (with_reducible apply updCry_frame)
    | (intro b; refine (fun (_ : OnlyChanges F z b) => ?_) ?_; clear_value b; swap; dsimp only [b]; swap)
    | (intro b; refine (fun (_ : OnlyChanges F z b.1) => ?_) ?_; clear_value b; swap; dsimp only [b]; swap)
    | (intro b; clear_value b)
    | intro b
    | lift_lets

theorem makeKey_frame {nsid : Nat} {entry : Nat} (hz : OnlyChanges F z s) (m2 : Part.clk ∈ F) (m12 : Part.cry ∈ F) (m18 : Part.jrc ∈ F) : OnlyChanges F z (makeKey s nsid entry).1 := by
  unfold makeKey
  repeat' first
    | with_reducible assumption
    | (with_reducible apply drawKey_frame)
    | (with_reducible apply newSalt_frame)
    | (with_reducible apply updCry_frame)
    | (intro b; refine (fun (_ : OnlyChanges F z b) => ?_) ?_; clear_value b; swap; dsimp only [b]; swap)
    | (intro b; refine (fun (_ : OnlyChanges F z b.1) => ?_) ?_; clear_value b; swap; dsimp only [b]; swap)
    | (intro b; clear_value b)
    | intro b
    | lift_lets
    | dsimp only

theorem putWrap_frame {w : BitVec 576} (hz : OnlyChanges F z s) (m3 : Part.regs ∈ F) : OnlyChanges F z (putWrap s w) := by
  unfold putWrap
  repeat' first
    | with_reducible assumption
    | (with_reducible apply wr_frame)
    | (with_reducible refine frame_foldl (fun x b hx => ?_) ?_)

theorem keyCommand_frame {v : Nat} {entropyOk : Bool} (hz : OnlyChanges F z s) (m1 : Part.out ∈ F) (m2 : Part.clk ∈ F) (m3 : Part.regs ∈ F) (m4 : Part.portA ∈ F) (m5 : Part.portB ∈ F) (m6 : Part.evr ∈ F) (m12 : Part.cry ∈ F) (m18 : Part.jrc ∈ F) : OnlyChanges F z (keyCommand s v entropyOk) := by
  unfold keyCommand
  repeat' first
    | with_reducible assumption
    | (with_reducible apply trigRes_frame)
    | (with_reducible apply cryCauseSet_frame)
    | (with_reducible apply doneRes_frame)
    | (with_reducible apply makeKey_frame)
    | (with_reducible apply putWrap_frame)
    | (with_reducible apply updCry_frame)
    | (with_reducible apply frame_ite)
    | (with_reducible apply frame_ite_fst)
    | (intro b; refine (fun (_ : OnlyChanges F z b) => ?_) ?_; clear_value b; swap; dsimp only [b]; swap)
    | (intro b; refine (fun (_ : OnlyChanges F z b.1) => ?_) ?_; clear_value b; swap; dsimp only [b]; swap)
    | (intro b; clear_value b)
    | intro b
    | lift_lets
    | split
    | dsimp only

theorem kcmd_frame {v : Nat} {entropyOk : Bool} (hz : OnlyChanges F z s) (m1 : Part.out ∈ F) (m2 : Part.clk ∈ F) (m3 : Part.regs ∈ F) (m4 : Part.portA ∈ F) (m5 : Part.portB ∈ F) (m6 : Part.evr ∈ F) (m12 : Part.cry ∈ F) (m16 : Part.map ∈ F) (m18 : Part.jrc ∈ F) : OnlyChanges F z (kcmd s v entropyOk) := by
  unfold kcmd
  repeat' first
    | with_reducible assumption
    | (with_reducible apply anaAfter_frame)
    | (with_reducible apply keyCommand_frame)
    | (with_reducible apply frame_ite)
    | (with_reducible apply frame_ite_fst)
    | (with_reducible refine frame_foldl (fun x b hx => ?_) ?_)
    | (with_reducible refine frame_foldl_fst (fun x b hx => ?_) ?_)
    | (intro b; refine (fun (_ : OnlyChanges F z b) => ?_) ?_; clear_value b; swap; dsimp only [b]; swap)
    | (intro b; refine (fun (_ : OnlyChanges F z b.1) => ?_) ?_; clear_value b; swap; dsimp only [b]; swap)
    | (with_reducible apply hfn)
    | (with_reducible apply hf)
    | (intro b; refine (fun (hfn : ∀ x, OnlyChanges F z x → OnlyChanges F z (b x)) => ?_) ?_; clear_value b; swap; (intro x hx; dsimp only [b]); swap)
    | (intro b; refine (fun (hfn : ∀ x y, OnlyChanges F z x → OnlyChanges F z (b x y)) => ?_) ?_; clear_value b; swap; (intro x y hx; dsimp only [b]); swap)
    | (with_reducible apply hfc)
    | (with_reducible apply hfd)
    | (intro b; refine (fun (hfc : ∀ x, OnlyChanges F z (b x)) => ?_) ?_; clear_value b; swap; (intro x; dsimp only [b]); swap)
    | (intro b; refine (fun (hfd : ∀ x y, OnlyChanges F z (b x y)) => ?_) ?_; clear_value b; swap; (intro x y; dsimp only [b]); swap)
    | (intro b; clear_value b)
    | intro b
    | lift_lets
    | split
    | (refine frame_of_eq (by assumption) ?_)
    | (fail_if_no_progress with_reducible refine frame_upd ?_)
    | dsimp only

theorem setConn_frame {t : SpdmTransport} {c : SpdmConn} (hz : OnlyChanges F z s) (m11 : Part.sec ∈ F) : OnlyChanges F z (setConn s t c) := by
  unfold setConn
  repeat' first
    | with_reducible assumption
    | (with_reducible apply updSec_frame)
    | (fail_if_no_progress with_reducible refine frame_upd ?_)

theorem respond_frame {t : SpdmTransport} {code : Nat} {body : List Byte} (hz : OnlyChanges F z s) (m1 : Part.out ∈ F) (m4 : Part.portA ∈ F) (m5 : Part.portB ∈ F) : OnlyChanges F z (respond s t code body) := by
  unfold respond
  repeat' first
    | with_reducible assumption
    | (with_reducible apply modPort_frame)
    | (with_reducible apply emit_frame)
    | split
    | (fail_if_no_progress with_reducible refine frame_upd ?_)
    | dsimp only

theorem spdmError_frame {t : SpdmTransport} {e : Nat} (hz : OnlyChanges F z s) (m1 : Part.out ∈ F) (m4 : Part.portA ∈ F) (m5 : Part.portB ∈ F) : OnlyChanges F z (spdmError s t e) := by
  unfold spdmError
  repeat' first
    | with_reducible assumption
    | (with_reducible apply respond_frame)

theorem spdm_frame {t : SpdmTransport} {r : SpdmReq} (hz : OnlyChanges F z s) (m1 : Part.out ∈ F) (m3 : Part.regs ∈ F) (m4 : Part.portA ∈ F) (m5 : Part.portB ∈ F) (m6 : Part.evr ∈ F) (m11 : Part.sec ∈ F) : OnlyChanges F z (spdm s t r) := by
  unfold spdm
  repeat' first
    | with_reducible assumption
    | (with_reducible apply respond_frame)
    | (with_reducible apply setConn_frame)
    | (with_reducible apply spdmError_frame)
    | (with_reducible apply updSec_frame)
    | (with_reducible apply raise_frame)
    | (with_reducible apply endSession_frame)
    | (with_reducible apply frame_ite)
    | (intro b; refine (fun (_ : OnlyChanges F z b) => ?_) ?_; clear_value b; swap; dsimp only [b]; swap)
    | (intro b; clear_value b)
    | intro b
    | lift_lets
    | split
    | (fail_if_no_progress with_reducible refine frame_upd ?_)
    | dsimp only

theorem spdmTimeout_frame {sid : Nat} (hz : OnlyChanges F z s) (m1 : Part.out ∈ F) (m3 : Part.regs ∈ F) (m4 : Part.portA ∈ F) (m5 : Part.portB ∈ F) (m6 : Part.evr ∈ F) (m11 : Part.sec ∈ F) : OnlyChanges F z (spdmTimeout s sid) := by
  unfold spdmTimeout
  repeat' first
    | with_reducible assumption
    | (with_reducible apply endSession_frame)
    | (with_reducible apply frame_ite)
    | split
    | dsimp only

end Sys2Proof.Machine
end

