-- ==== Sys2Proof/Laws/FrameIo.lean ====
section
/-! SUPPORT. What the operations leave alone (Laws/Frame.lean): host commands, namespaces, commits, couriers, the patrol and scrubs. One law for each operation. -/

set_option Elab.async false
set_option linter.unusedTactic false
set_option linter.unreachableTactic false

namespace Sys2Proof.Machine

variable {F : List Part} {z s : State}

theorem takeEntry_frame {p : Port} {qid : Nat} (hz : OnlyChanges F z s) (m4 : Part.portA ∈ F) (m5 : Part.portB ∈ F) : OnlyChanges F z (takeEntry s p qid) := by
  unfold takeEntry
  repeat' first
    | with_reducible assumption
    | (with_reducible apply modPort_frame)
    | (intro b; refine (fun (_ : OnlyChanges F z b) => ?_) ?_; clear_value b; swap; dsimp only [b]; swap)
    | (intro b; clear_value b)
    | intro b
    | lift_lets
    | split
    | (fail_if_no_progress with_reducible refine frame_upd ?_)
    | dsimp only

theorem noteAccept_frame {p : Port} (hz : OnlyChanges F z s) (m19 : Part.srt ∈ F) : OnlyChanges F z (noteAccept s p) := by
  unfold noteAccept
  repeat' first
    | with_reducible assumption
    | (with_reducible apply updSrt_frame)

theorem takeIo_frame {q : Sqe} (hz : OnlyChanges F z s) (m4 : Part.portA ∈ F) (m5 : Part.portB ∈ F) (m19 : Part.srt ∈ F) : OnlyChanges F z (takeIo s q) := by
  unfold takeIo
  repeat' first
    | with_reducible assumption
    | (with_reducible apply noteAccept_frame)
    | (with_reducible apply takeEntry_frame)

theorem takeFirm_frame {p : Port} (hz : OnlyChanges F z s) (m1 : Part.out ∈ F) (m3 : Part.regs ∈ F) (m4 : Part.portA ∈ F) (m5 : Part.portB ∈ F) (m6 : Part.evr ∈ F) : OnlyChanges F z (takeFirm s p) := by
  unfold takeFirm
  repeat' first
    | with_reducible assumption
    | (with_reducible apply raise_frame)
    | (with_reducible apply takeEntry_frame)

theorem takeAdmin_frame {p : Port} (hz : OnlyChanges F z s) (m1 : Part.out ∈ F) (m3 : Part.regs ∈ F) (m4 : Part.portA ∈ F) (m5 : Part.portB ∈ F) (m6 : Part.evr ∈ F) (m19 : Part.srt ∈ F) : OnlyChanges F z (takeAdmin s p) := by
  unfold takeAdmin
  repeat' first
    | with_reducible assumption
    | (with_reducible apply noteAccept_frame)
    | (with_reducible apply takeFirm_frame)

theorem turnAway_frame {q : Sqe} {st : Status} {lba : optParam Nat 0} (hz : OnlyChanges F z s) (m1 : Part.out ∈ F) (m3 : Part.regs ∈ F) (m4 : Part.portA ∈ F) (m5 : Part.portB ∈ F) (m6 : Part.evr ∈ F) (m19 : Part.srt ∈ F) : OnlyChanges F z (turnAway s q st lba) := by
  unfold turnAway
  repeat' first
    | with_reducible assumption
    | (with_reducible apply complete_frame)
    | (with_reducible apply noteAccept_frame)

theorem enterTracker_frame {c : Cmd} (hz : OnlyChanges F z s) (m1 : Part.out ∈ F) (m3 : Part.regs ∈ F) (m4 : Part.portA ∈ F) (m5 : Part.portB ∈ F) (m6 : Part.evr ∈ F) (m19 : Part.srt ∈ F) : OnlyChanges F z (enterTracker s c) := by
  unfold enterTracker
  repeat' first
    | with_reducible assumption
    | (with_reducible apply updSrt_frame)
    | (with_reducible apply hwm_frame)
    | (with_reducible apply raise_frame)
    | (with_reducible apply orReg_frame)
    | (with_reducible apply frame_ite)
    | (intro b; refine (fun (_ : OnlyChanges F z b) => ?_) ?_; clear_value b; swap; dsimp only [b]; swap)
    | (intro b; clear_value b)
    | intro b
    | lift_lets
    | split

theorem acceptWaiting_frame (hz : OnlyChanges F z s) (m1 : Part.out ∈ F) (m3 : Part.regs ∈ F) (m4 : Part.portA ∈ F) (m5 : Part.portB ∈ F) (m6 : Part.evr ∈ F) (m16 : Part.map ∈ F) (m17 : Part.flash ∈ F) (m18 : Part.jrc ∈ F) (m19 : Part.srt ∈ F) : OnlyChanges F z (acceptWaiting s) := by
  unfold acceptWaiting
  repeat' first
    | with_reducible assumption
    | (with_reducible apply dropCmd_frame)
    | (with_reducible apply endCmd_frame)
    | (with_reducible apply noteAccept_frame)
    | (with_reducible apply trkSettle_frame)
    | (with_reducible apply enterTracker_frame)
    | (with_reducible apply frame_ite)
    | (intro b; refine (fun (_ : OnlyChanges F z b) => ?_) ?_; clear_value b; swap; dsimp only [b]; swap)
    | (intro b; clear_value b)
    | intro b
    | lift_lets
    | split
    | dsimp only

theorem fetchIo_frame {q : Sqe} {body : Instr} {modif : Bool} {writes : Bool} {rs : List (Nat × Nat)} (hz : OnlyChanges F z s) (m1 : Part.out ∈ F) (m3 : Part.regs ∈ F) (m4 : Part.portA ∈ F) (m5 : Part.portB ∈ F) (m6 : Part.evr ∈ F) (m19 : Part.srt ∈ F) : OnlyChanges F z (fetchIo s q body modif writes rs) := by
  unfold fetchIo
  repeat' first
    | with_reducible assumption
    | (with_reducible apply takeEntry_frame)
    | (with_reducible apply complete_frame)
    | (with_reducible apply noteAccept_frame)
    | (with_reducible apply enterTracker_frame)
    | (with_reducible apply frame_ite)
    | (with_reducible apply frame_ite_fst)
    | (intro b; refine (fun (_ : OnlyChanges F z b) => ?_) ?_; clear_value b; swap; dsimp only [b]; swap)
    | (intro b; refine (fun (_ : OnlyChanges F z b.1) => ?_) ?_; clear_value b; swap; dsimp only [b]; swap)
    | (intro b; clear_value b)
    | intro b
    | lift_lets
    | split
    | dsimp only

theorem flushCmd_frame {q : Sqe} (hz : OnlyChanges F z s) (m1 : Part.out ∈ F) (m3 : Part.regs ∈ F) (m4 : Part.portA ∈ F) (m5 : Part.portB ∈ F) (m6 : Part.evr ∈ F) (m19 : Part.srt ∈ F) : OnlyChanges F z (flushCmd s q) := by
  unfold flushCmd
  repeat' first
    | with_reducible assumption
    | (with_reducible apply takeIo_frame)
    | (with_reducible apply complete_frame)
    | (with_reducible apply frame_ite)
    | (intro b; refine (fun (_ : OnlyChanges F z b) => ?_) ?_; clear_value b; swap; dsimp only [b]; swap)
    | (intro b; clear_value b)
    | intro b
    | lift_lets
    | split

theorem unsupported_frame {q : Sqe} {fused : Bool} (hz : OnlyChanges F z s) (m1 : Part.out ∈ F) (m3 : Part.regs ∈ F) (m4 : Part.portA ∈ F) (m5 : Part.portB ∈ F) (m6 : Part.evr ∈ F) (m19 : Part.srt ∈ F) : OnlyChanges F z (unsupported s q fused) := by
  unfold unsupported
  repeat' first
    | with_reducible assumption
    | (with_reducible apply complete_frame)
    | (with_reducible apply takeAdmin_frame)
    | (with_reducible apply takeIo_frame)
    | (with_reducible apply frame_ite)
    | (intro b; refine (fun (_ : OnlyChanges F z b) => ?_) ?_; clear_value b; swap; dsimp only [b]; swap)
    | (intro b; clear_value b)
    | intro b
    | lift_lets
    | split

theorem noteStream_frame {q : Sqe} {stream : Nat} (hz : OnlyChanges F z s) (m4 : Part.portA ∈ F) (m5 : Part.portB ∈ F) : OnlyChanges F z (noteStream s q stream) := by
  unfold noteStream
  repeat' first
    | with_reducible assumption
    | (with_reducible apply setPort_frame)
    | (with_reducible apply frame_ite)
    | (intro b; refine (fun (_ : OnlyChanges F z b) => ?_) ?_; clear_value b; swap; dsimp only [b]; swap)
    | (intro b; clear_value b)
    | intro b
    | lift_lets
    | split
    | (fail_if_no_progress with_reducible refine frame_upd ?_)

theorem allocOne_frame {id : Nat} {c : Cmd} {n : Ns} {f : IoFields} {a : State × List (Nat × Nat × Nat) × List Rmw} {x : Nat × List Nat} (hz : OnlyChanges F z a.1) (m1 : Part.out ∈ F) (m3 : Part.regs ∈ F) (m4 : Part.portA ∈ F) (m5 : Part.portB ∈ F) (m6 : Part.evr ∈ F) (m16 : Part.map ∈ F) : OnlyChanges F z (allocOne id c n f a x).1 := by
  unfold allocOne
  repeat' first
    | with_reducible assumption
    | (with_reducible apply placeLetters_frame)
    | (with_reducible apply tryBundle_frame)
    | (with_reducible apply waitBundle_frame)
    | (with_reducible apply frame_ite)
    | (with_reducible apply frame_ite_fst)
    | (intro b; refine (fun (_ : OnlyChanges F z b) => ?_) ?_; clear_value b; swap; dsimp only [b]; swap)
    | (intro b; refine (fun (_ : OnlyChanges F z b.1) => ?_) ?_; clear_value b; swap; dsimp only [b]; swap)
    | (with_reducible apply hfn)
    | (intro b; refine (fun (hfn : ∀ x, OnlyChanges F z x → OnlyChanges F z (b x)) => ?_) ?_; clear_value b; swap; (intro x hx; dsimp only [b]); swap)
    | (intro b; refine (fun (hfn : ∀ x y, OnlyChanges F z x → OnlyChanges F z (b x y)) => ?_) ?_; clear_value b; swap; (intro x y hx; dsimp only [b]); swap)
    | (with_reducible apply hfc)
    | (with_reducible apply hfd)
    | (intro b; refine (fun (hfc : ∀ x, OnlyChanges F z (b x)) => ?_) ?_; clear_value b; swap; (intro x; dsimp only [b]); swap)
    | (intro b; refine (fun (hfd : ∀ x y, OnlyChanges F z (b x y)) => ?_) ?_; clear_value b; swap; (intro x y; dsimp only [b]); swap)
    | (intro b; clear_value b)
    | intro b
    | lift_lets
    | split
    | (refine frame_of_eq (by assumption) ?_)
    | dsimp only

theorem allocUnits_frame {id : Nat} {c : Cmd} {n : Ns} {f : IoFields} {us : List (Nat × Nat × Nat)} {a : State × List (Nat × Nat × Nat) × List Rmw} {p : Nat} (hz : OnlyChanges F z a.1) (m1 : Part.out ∈ F) (m3 : Part.regs ∈ F) (m4 : Part.portA ∈ F) (m5 : Part.portB ∈ F) (m6 : Part.evr ∈ F) (m16 : Part.map ∈ F) : OnlyChanges F z (allocUnits id c n f us a p).1 := by
  unfold allocUnits
  repeat' first
    | with_reducible assumption
    | (with_reducible apply placeUnits_frame)
    | (with_reducible apply tryBundle_frame)
    | (with_reducible apply waitBundle_frame)
    | (with_reducible apply frame_ite)
    | (with_reducible apply frame_ite_fst)
    | (intro b; refine (fun (_ : OnlyChanges F z b) => ?_) ?_; clear_value b; swap; dsimp only [b]; swap)
    | (intro b; refine (fun (_ : OnlyChanges F z b.1) => ?_) ?_; clear_value b; swap; dsimp only [b]; swap)
    | (with_reducible apply hfn)
    | (intro b; refine (fun (hfn : ∀ x, OnlyChanges F z x → OnlyChanges F z (b x)) => ?_) ?_; clear_value b; swap; (intro x hx; dsimp only [b]); swap)
    | (intro b; refine (fun (hfn : ∀ x y, OnlyChanges F z x → OnlyChanges F z (b x y)) => ?_) ?_; clear_value b; swap; (intro x y hx; dsimp only [b]); swap)
    | (with_reducible apply hfc)
    | (with_reducible apply hfd)
    | (intro b; refine (fun (hfc : ∀ x, OnlyChanges F z (b x)) => ?_) ?_; clear_value b; swap; (intro x; dsimp only [b]); swap)
    | (intro b; refine (fun (hfd : ∀ x y, OnlyChanges F z (b x y)) => ?_) ?_; clear_value b; swap; (intro x y; dsimp only [b]); swap)
    | (intro b; clear_value b)
    | intro b
    | lift_lets
    | split
    | (refine frame_of_eq (by assumption) ?_)
    | dsimp only

theorem allocAll_frame {id : Nat} {c : Cmd} {n : Ns} {f : IoFields} (hz : OnlyChanges F z s) (m1 : Part.out ∈ F) (m3 : Part.regs ∈ F) (m4 : Part.portA ∈ F) (m5 : Part.portB ∈ F) (m6 : Part.evr ∈ F) (m16 : Part.map ∈ F) (m19 : Part.srt ∈ F) : OnlyChanges F z (allocAll s id c n f) := by
  unfold allocAll
  repeat' first
    | with_reducible assumption
    | (with_reducible apply allocOne_frame)
    | (with_reducible apply allocUnits_frame)
    | (with_reducible apply modCmd_frame)
    | (with_reducible refine frame_foldl (fun x b hx => ?_) ?_)
    | (with_reducible refine frame_foldl_fst (fun x b hx => ?_) ?_)
    | (intro b; refine (fun (_ : OnlyChanges F z b) => ?_) ?_; clear_value b; swap; dsimp only [b]; swap)
    | (intro b; refine (fun (_ : OnlyChanges F z b.1) => ?_) ?_; clear_value b; swap; dsimp only [b]; swap)
    | (intro b; clear_value b)
    | intro b
    | lift_lets
    | split
    | (refine frame_of_eq (by assumption) ?_)
    | dsimp only

theorem settleBundle_frame {id : Nat} {p : Nat} (hz : OnlyChanges F z s) (m1 : Part.out ∈ F) (m3 : Part.regs ∈ F) (m4 : Part.portA ∈ F) (m5 : Part.portB ∈ F) (m6 : Part.evr ∈ F) (m16 : Part.map ∈ F) (m19 : Part.srt ∈ F) : OnlyChanges F z (settleBundle id s p) := by
  unfold settleBundle
  repeat' first
    | with_reducible assumption
    | (with_reducible apply updMap_frame)
    | (with_reducible apply tryBundle_frame)
    | (with_reducible apply waitBundle_frame)
    | (with_reducible apply modCmd_frame)
    | (with_reducible apply frame_ite)
    | (with_reducible apply frame_ite_fst)
    | (intro b; refine (fun (_ : OnlyChanges F z b) => ?_) ?_; clear_value b; swap; dsimp only [b]; swap)
    | (intro b; refine (fun (_ : OnlyChanges F z b.1) => ?_) ?_; clear_value b; swap; dsimp only [b]; swap)
    | (with_reducible apply hfn)
    | (intro b; refine (fun (hfn : ∀ x, OnlyChanges F z x → OnlyChanges F z (b x)) => ?_) ?_; clear_value b; swap; (intro x hx; dsimp only [b]); swap)
    | (intro b; refine (fun (hfn : ∀ x y, OnlyChanges F z x → OnlyChanges F z (b x y)) => ?_) ?_; clear_value b; swap; (intro x y hx; dsimp only [b]); swap)
    | (with_reducible apply hfc)
    | (with_reducible apply hfd)
    | (intro b; refine (fun (hfc : ∀ x, OnlyChanges F z (b x)) => ?_) ?_; clear_value b; swap; (intro x; dsimp only [b]); swap)
    | (intro b; refine (fun (hfd : ∀ x y, OnlyChanges F z (b x y)) => ?_) ?_; clear_value b; swap; (intro x y; dsimp only [b]); swap)
    | (intro b; clear_value b)
    | intro b
    | lift_lets
    | split
    | (refine frame_of_eq (by assumption) ?_)
    | dsimp only

theorem settleBundles_frame {id : Nat} {c : Cmd} {n : Ns} (hz : OnlyChanges F z s) (m1 : Part.out ∈ F) (m3 : Part.regs ∈ F) (m4 : Part.portA ∈ F) (m5 : Part.portB ∈ F) (m6 : Part.evr ∈ F) (m16 : Part.map ∈ F) (m19 : Part.srt ∈ F) : OnlyChanges F z (settleBundles s id c n) := by
  unfold settleBundles
  repeat' first
    | with_reducible assumption
    | (with_reducible apply settleBundle_frame)
    | (with_reducible refine frame_foldl (fun x b hx => ?_) ?_)
    | (with_reducible refine frame_foldl_fst (fun x b hx => ?_) ?_)
    | (intro b; refine (fun (_ : OnlyChanges F z b) => ?_) ?_; clear_value b; swap; dsimp only [b]; swap)
    | (intro b; refine (fun (_ : OnlyChanges F z b.1) => ?_) ?_; clear_value b; swap; dsimp only [b]; swap)
    | (intro b; clear_value b)
    | intro b
    | lift_lets

theorem rmwCount_frame (hz : OnlyChanges F z s) (m1 : Part.out ∈ F) (m3 : Part.regs ∈ F) (m4 : Part.portA ∈ F) (m5 : Part.portB ∈ F) (m6 : Part.evr ∈ F) (m16 : Part.map ∈ F) : OnlyChanges F z (rmwCount s) := by
  unfold rmwCount
  repeat' first
    | with_reducible assumption
    | (with_reducible apply updMap_frame)
    | (with_reducible apply satAdd_frame)
    | (with_reducible apply raise_frame)
    | (with_reducible apply frame_ite)
    | (intro b; refine (fun (_ : OnlyChanges F z b) => ?_) ?_; clear_value b; swap; dsimp only [b]; swap)
    | (intro b; clear_value b)
    | intro b
    | lift_lets
    | split

theorem proceed_frame {id : Nat} (hz : OnlyChanges F z s) (m1 : Part.out ∈ F) (m2 : Part.clk ∈ F) (m3 : Part.regs ∈ F) (m4 : Part.portA ∈ F) (m5 : Part.portB ∈ F) (m6 : Part.evr ∈ F) (m14 : Part.dram ∈ F) (m15 : Part.phc ∈ F) (m16 : Part.map ∈ F) (m17 : Part.flash ∈ F) (m18 : Part.jrc ∈ F) (m19 : Part.srt ∈ F) (m21 : Part.pat ∈ F) (m22 : Part.mem ∈ F) : OnlyChanges F z (proceed s id) := by
  unfold proceed
  repeat' first
    | with_reducible assumption
    | (with_reducible apply corrupt_frame)
    | (with_reducible apply rmwCount_frame)
    | (with_reducible apply modCmd_frame)
    | (with_reducible apply writeGot_frame)
    | (with_reducible apply readsOver_frame)
    | (with_reducible apply addReads_frame)
    | (with_reducible apply frame_ite)
    | (with_reducible apply frame_ite_fst)
    | (with_reducible refine frame_foldl (fun x b hx => ?_) ?_)
    | (with_reducible refine frame_foldl_fst (fun x b hx => ?_) ?_)
    | (intro b; refine (fun (_ : OnlyChanges F z b) => ?_) ?_; clear_value b; swap; dsimp only [b]; swap)
    | (intro b; refine (fun (_ : OnlyChanges F z b.1) => ?_) ?_; clear_value b; swap; dsimp only [b]; swap)
    | (intro b; clear_value b)
    | intro b
    | lift_lets
    | split
    | dsimp only

theorem releaseHolds_frame (hz : OnlyChanges F z s) (m19 : Part.srt ∈ F) : OnlyChanges F z (releaseHolds s) := by
  unfold releaseHolds
  repeat' first
    | with_reducible assumption
    | (with_reducible apply updSrt_frame)
    | (with_reducible apply frame_ite)
    | (with_reducible apply frame_ite_fst)
    | split

theorem proceedAll_frame (hz : OnlyChanges F z s) (m1 : Part.out ∈ F) (m2 : Part.clk ∈ F) (m3 : Part.regs ∈ F) (m4 : Part.portA ∈ F) (m5 : Part.portB ∈ F) (m6 : Part.evr ∈ F) (m14 : Part.dram ∈ F) (m15 : Part.phc ∈ F) (m16 : Part.map ∈ F) (m17 : Part.flash ∈ F) (m18 : Part.jrc ∈ F) (m19 : Part.srt ∈ F) (m21 : Part.pat ∈ F) (m22 : Part.mem ∈ F) : OnlyChanges F z (proceedAll s) := by
  unfold proceedAll
  repeat' first
    | with_reducible assumption
    | (with_reducible apply proceed_frame)
    | (with_reducible refine frame_foldl (fun x b hx => ?_) ?_)
    | (with_reducible refine frame_foldl_fst (fun x b hx => ?_) ?_)

theorem writeData_frame {id : Nat} {blocks : List HostBlock} {hostFail : Bool} {bufferUe : Bool} (hz : OnlyChanges F z s) (m1 : Part.out ∈ F) (m2 : Part.clk ∈ F) (m3 : Part.regs ∈ F) (m4 : Part.portA ∈ F) (m5 : Part.portB ∈ F) (m6 : Part.evr ∈ F) (m14 : Part.dram ∈ F) (m15 : Part.phc ∈ F) (m16 : Part.map ∈ F) (m17 : Part.flash ∈ F) (m18 : Part.jrc ∈ F) (m19 : Part.srt ∈ F) (m21 : Part.pat ∈ F) (m22 : Part.mem ∈ F) : OnlyChanges F z (writeData s id blocks hostFail bufferUe) := by
  unfold writeData
  repeat' first
    | with_reducible assumption
    | (with_reducible apply failCmd_frame)
    | (with_reducible apply freshBelow_frame)
    | (with_reducible apply drcReport_frame)
    | (with_reducible apply allocAll_frame)
    | (with_reducible apply modCmd_frame)
    | (with_reducible apply proceed_frame)
    | (with_reducible apply turn_frame)
    | (with_reducible apply frame_ite)
    | (with_reducible apply frame_ite_fst)
    | (intro b; refine (fun (_ : OnlyChanges F z b) => ?_) ?_; clear_value b; swap; dsimp only [b]; swap)
    | (intro b; refine (fun (_ : OnlyChanges F z b.1) => ?_) ?_; clear_value b; swap; dsimp only [b]; swap)
    | (intro b; clear_value b)
    | intro b
    | lift_lets
    | split
    | (refine frame_of_eq (by assumption) ?_)
    | (fail_if_no_progress with_reducible refine frame_upd ?_)
    | dsimp only

theorem lookup_frame {id : Nat} {c : Cmd} {n : Ns} {f : IoFields} (hz : OnlyChanges F z s) (m1 : Part.out ∈ F) (m2 : Part.clk ∈ F) (m3 : Part.regs ∈ F) (m4 : Part.portA ∈ F) (m5 : Part.portB ∈ F) (m6 : Part.evr ∈ F) (m14 : Part.dram ∈ F) (m15 : Part.phc ∈ F) (m16 : Part.map ∈ F) (m17 : Part.flash ∈ F) (m18 : Part.jrc ∈ F) (m19 : Part.srt ∈ F) (m21 : Part.pat ∈ F) (m22 : Part.mem ∈ F) : OnlyChanges F z (lookup s id c n f) := by
  unfold lookup
  repeat' first
    | with_reducible assumption
    | (with_reducible apply endCmd_frame)
    | (with_reducible apply corrupt_frame)
    | (with_reducible apply pin_frame)
    | (with_reducible apply modCmd_frame)
    | (with_reducible apply finishRead_frame)
    | (with_reducible apply readsOver_frame)
    | (with_reducible apply requestReads_frame)
    | (with_reducible apply frame_ite)
    | (with_reducible refine frame_foldl (fun x b hx => ?_) ?_)
    | (intro b; refine (fun (_ : OnlyChanges F z b) => ?_) ?_; clear_value b; swap; dsimp only [b]; swap)
    | (intro b; clear_value b)
    | intro b
    | lift_lets
    | split
    | dsimp only

theorem releaseWrite_frame {id : Nat} {c : Cmd} {n : Ns} {f : IoFields} (hz : OnlyChanges F z s) (m1 : Part.out ∈ F) (m2 : Part.clk ∈ F) (m3 : Part.regs ∈ F) (m4 : Part.portA ∈ F) (m5 : Part.portB ∈ F) (m6 : Part.evr ∈ F) (m14 : Part.dram ∈ F) (m15 : Part.phc ∈ F) (m16 : Part.map ∈ F) (m17 : Part.flash ∈ F) (m18 : Part.jrc ∈ F) (m19 : Part.srt ∈ F) (m21 : Part.pat ∈ F) (m22 : Part.mem ∈ F) : OnlyChanges F z (releaseWrite s id c n f) := by
  unfold releaseWrite
  repeat' first
    | with_reducible assumption
    | (with_reducible apply corrupt_frame)
    | (with_reducible apply capacityFail_frame)
    | (with_reducible apply modCmd_frame)
    | (with_reducible apply settleBundles_frame)
    | (with_reducible apply turn_frame)
    | (with_reducible apply allocAll_frame)
    | (with_reducible apply proceed_frame)
    | (with_reducible apply frame_ite)
    | (with_reducible apply frame_ite_fst)
    | (intro b; refine (fun (_ : OnlyChanges F z b) => ?_) ?_; clear_value b; swap; dsimp only [b]; swap)
    | (intro b; refine (fun (_ : OnlyChanges F z b.1) => ?_) ?_; clear_value b; swap; dsimp only [b]; swap)
    | (intro b; clear_value b)
    | intro b
    | lift_lets
    | split
    | dsimp only

theorem releaseDealloc_frame {id : Nat} {c : Cmd} (hz : OnlyChanges F z s) (m1 : Part.out ∈ F) (m3 : Part.regs ∈ F) (m4 : Part.portA ∈ F) (m5 : Part.portB ∈ F) (m6 : Part.evr ∈ F) (m15 : Part.phc ∈ F) (m16 : Part.map ∈ F) (m17 : Part.flash ∈ F) (m18 : Part.jrc ∈ F) (m19 : Part.srt ∈ F) : OnlyChanges F z (releaseDealloc s id c) := by
  unfold releaseDealloc
  repeat' first
    | with_reducible assumption
    | (with_reducible apply corrupt_frame)
    | (with_reducible apply tryBundle_frame)
    | (with_reducible apply waitBundle_frame)
    | (with_reducible apply modCmd_frame)
    | (with_reducible apply finishCmd_frame)
    | (with_reducible apply askNext_frame)
    | (with_reducible apply frame_ite)
    | (with_reducible apply frame_ite_fst)
    | (with_reducible refine frame_foldl (fun x b hx => ?_) ?_)
    | (with_reducible refine frame_foldl_fst (fun x b hx => ?_) ?_)
    | (intro b; refine (fun (_ : OnlyChanges F z b) => ?_) ?_; clear_value b; swap; dsimp only [b]; swap)
    | (intro b; refine (fun (_ : OnlyChanges F z b.1) => ?_) ?_; clear_value b; swap; dsimp only [b]; swap)
    | (with_reducible apply hfn)
    | (intro b; refine (fun (hfn : ∀ x, OnlyChanges F z x → OnlyChanges F z (b x)) => ?_) ?_; clear_value b; swap; (intro x hx; dsimp only [b]); swap)
    | (intro b; refine (fun (hfn : ∀ x y, OnlyChanges F z x → OnlyChanges F z (b x y)) => ?_) ?_; clear_value b; swap; (intro x y hx; dsimp only [b]); swap)
    | (with_reducible apply hfc)
    | (with_reducible apply hfd)
    | (intro b; refine (fun (hfc : ∀ x, OnlyChanges F z (b x)) => ?_) ?_; clear_value b; swap; (intro x; dsimp only [b]); swap)
    | (intro b; refine (fun (hfd : ∀ x y, OnlyChanges F z (b x y)) => ?_) ?_; clear_value b; swap; (intro x y; dsimp only [b]); swap)
    | (intro b; clear_value b)
    | intro b
    | lift_lets
    | split
    | (refine frame_of_eq (by assumption) ?_)
    | dsimp only

theorem deallocTimeout_frame {id : Nat} (hz : OnlyChanges F z s) (m1 : Part.out ∈ F) (m2 : Part.clk ∈ F) (m3 : Part.regs ∈ F) (m4 : Part.portA ∈ F) (m5 : Part.portB ∈ F) (m6 : Part.evr ∈ F) (m14 : Part.dram ∈ F) (m15 : Part.phc ∈ F) (m16 : Part.map ∈ F) (m17 : Part.flash ∈ F) (m18 : Part.jrc ∈ F) (m19 : Part.srt ∈ F) (m21 : Part.pat ∈ F) (m22 : Part.mem ∈ F) : OnlyChanges F z (deallocTimeout s id) := by
  unfold deallocTimeout
  repeat' first
    | with_reducible assumption
    | (with_reducible apply settlePressure_frame)
    | (with_reducible apply updMap_frame)
    | (with_reducible apply proceed_frame)
    | (with_reducible apply modCmd_frame)
    | (with_reducible apply frame_ite)
    | (intro b; refine (fun (_ : OnlyChanges F z b) => ?_) ?_; clear_value b; swap; dsimp only [b]; swap)
    | (with_reducible apply hfn)
    | (intro b; refine (fun (hfn : ∀ x, OnlyChanges F z x → OnlyChanges F z (b x)) => ?_) ?_; clear_value b; swap; (intro x hx; dsimp only [b]); swap)
    | (intro b; refine (fun (hfn : ∀ x y, OnlyChanges F z x → OnlyChanges F z (b x y)) => ?_) ?_; clear_value b; swap; (intro x y hx; dsimp only [b]); swap)
    | (with_reducible apply hfc)
    | (with_reducible apply hfd)
    | (intro b; refine (fun (hfc : ∀ x, OnlyChanges F z (b x)) => ?_) ?_; clear_value b; swap; (intro x; dsimp only [b]); swap)
    | (intro b; refine (fun (hfd : ∀ x y, OnlyChanges F z (b x y)) => ?_) ?_; clear_value b; swap; (intro x y; dsimp only [b]); swap)
    | (intro b; clear_value b)
    | intro b
    | lift_lets
    | split
    | dsimp only

theorem bundleWaitEnd_frame (hz : OnlyChanges F z s) (m1 : Part.out ∈ F) (m2 : Part.clk ∈ F) (m3 : Part.regs ∈ F) (m4 : Part.portA ∈ F) (m5 : Part.portB ∈ F) (m6 : Part.evr ∈ F) (m14 : Part.dram ∈ F) (m15 : Part.phc ∈ F) (m16 : Part.map ∈ F) (m17 : Part.flash ∈ F) (m18 : Part.jrc ∈ F) (m19 : Part.srt ∈ F) (m21 : Part.pat ∈ F) (m22 : Part.mem ∈ F) : OnlyChanges F z (bundleWaitEnd s) := by
  unfold bundleWaitEnd
  repeat' first
    | with_reducible assumption
    | (with_reducible apply takeBundle_frame)
    | (with_reducible apply updMap_frame)
    | (with_reducible apply askNext_frame)
    | (with_reducible apply proceed_frame)
    | (with_reducible apply tryReloc_frame)
    | (with_reducible apply frame_ite)
    | (intro b; refine (fun (_ : OnlyChanges F z b) => ?_) ?_; clear_value b; swap; dsimp only [b]; swap)
    | (intro b; clear_value b)
    | intro b
    | lift_lets
    | split
    | dsimp only

theorem rebundle_frame (hz : OnlyChanges F z s) (m1 : Part.out ∈ F) (m3 : Part.regs ∈ F) (m4 : Part.portA ∈ F) (m5 : Part.portB ∈ F) (m6 : Part.evr ∈ F) (m16 : Part.map ∈ F) : OnlyChanges F z (rebundle s) := by
  unfold rebundle
  repeat' first
    | with_reducible assumption
    | (with_reducible apply tryBundle_frame)
    | (with_reducible apply waitBundle_frame)
    | (with_reducible apply frame_ite)
    | (with_reducible apply frame_ite_fst)
    | (with_reducible refine frame_foldl (fun x b hx => ?_) ?_)
    | (with_reducible refine frame_foldl_fst (fun x b hx => ?_) ?_)
    | (intro b; refine (fun (_ : OnlyChanges F z b) => ?_) ?_; clear_value b; swap; dsimp only [b]; swap)
    | (intro b; refine (fun (_ : OnlyChanges F z b.1) => ?_) ?_; clear_value b; swap; dsimp only [b]; swap)
    | (intro b; clear_value b)
    | intro b
    | lift_lets
    | split
    | (refine frame_of_eq (by assumption) ?_)
    | dsimp only

theorem fillwait_frame {k : Nat} (hz : OnlyChanges F z s) (m1 : Part.out ∈ F) (m3 : Part.regs ∈ F) (m4 : Part.portA ∈ F) (m5 : Part.portB ∈ F) (m6 : Part.evr ∈ F) (m16 : Part.map ∈ F) (m17 : Part.flash ∈ F) (m18 : Part.jrc ∈ F) : OnlyChanges F z (fillwait s k) := by
  unfold fillwait
  repeat' first
    | with_reducible assumption
    | (with_reducible apply turn_frame)
    | (with_reducible apply packClose_frame)

theorem heatHalving_frame (hz : OnlyChanges F z s) (m16 : Part.map ∈ F) : OnlyChanges F z (heatHalving s) := by
  unfold heatHalving
  repeat' first
    | with_reducible assumption
    | (with_reducible apply updTab_frame)
    | (with_reducible apply frame_ite)
    | (with_reducible apply frame_ite_fst)
    | split

theorem nsNotify_frame {nsid : Nat} {p : Port} (hz : OnlyChanges F z s) (m1 : Part.out ∈ F) (m3 : Part.regs ∈ F) (m4 : Part.portA ∈ F) (m5 : Part.portB ∈ F) (m6 : Part.evr ∈ F) : OnlyChanges F z (nsNotify nsid s p) := by
  unfold nsNotify
  repeat' first
    | with_reducible assumption
    | (with_reducible apply modPort_frame)
    | (with_reducible apply asyncEvent_frame)
    | (with_reducible apply frame_ite)
    | (intro b; refine (fun (_ : OnlyChanges F z b) => ?_) ?_; clear_value b; swap; dsimp only [b]; swap)
    | (intro b; clear_value b)
    | intro b
    | lift_lets
    | split
    | (fail_if_no_progress with_reducible refine frame_upd ?_)

theorem nsChanged_frame {nsid : Nat} {ports : List Port} (hz : OnlyChanges F z s) (m1 : Part.out ∈ F) (m3 : Part.regs ∈ F) (m4 : Part.portA ∈ F) (m5 : Part.portB ∈ F) (m6 : Part.evr ∈ F) : OnlyChanges F z (nsChanged s nsid ports) := by
  unfold nsChanged
  repeat' first
    | with_reducible assumption
    | (with_reducible apply nsNotify_frame)
    | (with_reducible refine frame_foldl (fun x b hx => ?_) ?_)

theorem firmwareCmd_frame {body : Instr} {q : Sqe} {applied : Nat} (hz : OnlyChanges F z s) (m1 : Part.out ∈ F) (m3 : Part.regs ∈ F) (m4 : Part.portA ∈ F) (m5 : Part.portB ∈ F) (m6 : Part.evr ∈ F) (m19 : Part.srt ∈ F) : OnlyChanges F z (firmwareCmd s body q applied) := by
  unfold firmwareCmd
  repeat' first
    | with_reducible assumption
    | (with_reducible apply enterTracker_frame)
    | (with_reducible apply frame_ite)
    | split

theorem nsCreate_frame {body : Instr} {q : Sqe} {nsze : Nat} {ncap : Nat} {lbaf : Nat} {piType : Nat} {pil : Bool} {ext : Bool} {entropyOk : Bool} (hz : OnlyChanges F z s) (m1 : Part.out ∈ F) (m2 : Part.clk ∈ F) (m3 : Part.regs ∈ F) (m4 : Part.portA ∈ F) (m5 : Part.portB ∈ F) (m6 : Part.evr ∈ F) (m12 : Part.cry ∈ F) (m18 : Part.jrc ∈ F) (m19 : Part.srt ∈ F) : OnlyChanges F z (nsCreate s body q nsze ncap lbaf piType pil ext entropyOk) := by
  unfold nsCreate
  repeat' first
    | with_reducible assumption
    | (with_reducible apply takeAdmin_frame)
    | (with_reducible apply complete_frame)
    | (with_reducible apply cryCauseSet_frame)
    | (with_reducible apply makeKey_frame)
    | (with_reducible apply askGroup_frame)
    | (with_reducible apply firmwareCmd_frame)
    | (with_reducible apply frame_ite)
    | (with_reducible apply frame_ite_fst)
    | (intro b; refine (fun (_ : OnlyChanges F z b) => ?_) ?_; clear_value b; swap; dsimp only [b]; swap)
    | (intro b; refine (fun (_ : OnlyChanges F z b.1) => ?_) ?_; clear_value b; swap; dsimp only [b]; swap)
    | (with_reducible apply hfn)
    | (intro b; refine (fun (hfn : ∀ x, OnlyChanges F z x → OnlyChanges F z (b x)) => ?_) ?_; clear_value b; swap; (intro x hx; dsimp only [b]); swap)
    | (intro b; refine (fun (hfn : ∀ x y, OnlyChanges F z x → OnlyChanges F z (b x y)) => ?_) ?_; clear_value b; swap; (intro x y hx; dsimp only [b]); swap)
    | (with_reducible apply hfc)
    | (with_reducible apply hfd)
    | (intro b; refine (fun (hfc : ∀ x, OnlyChanges F z (b x)) => ?_) ?_; clear_value b; swap; (intro x; dsimp only [b]); swap)
    | (intro b; refine (fun (hfd : ∀ x y, OnlyChanges F z (b x y)) => ?_) ?_; clear_value b; swap; (intro x y; dsimp only [b]); swap)
    | (intro b; clear_value b)
    | intro b
    | lift_lets
    | split
    | (refine frame_of_eq (by assumption) ?_)
    | dsimp only

theorem wholeCmd_frame {body : Instr} {q : Sqe} {ids : List Nat} (hz : OnlyChanges F z s) (m1 : Part.out ∈ F) (m3 : Part.regs ∈ F) (m4 : Part.portA ∈ F) (m5 : Part.portB ∈ F) (m6 : Part.evr ∈ F) (m19 : Part.srt ∈ F) : OnlyChanges F z (wholeCmd s body q ids) := by
  unfold wholeCmd
  repeat' first
    | with_reducible assumption
    | (with_reducible apply enterTracker_frame)
    | (with_reducible apply frame_ite)
    | split

theorem nsDelete_frame {body : Instr} {q : Sqe} (hz : OnlyChanges F z s) (m1 : Part.out ∈ F) (m3 : Part.regs ∈ F) (m4 : Part.portA ∈ F) (m5 : Part.portB ∈ F) (m6 : Part.evr ∈ F) (m19 : Part.srt ∈ F) : OnlyChanges F z (nsDelete s body q) := by
  unfold nsDelete
  repeat' first
    | with_reducible assumption
    | (with_reducible apply takeFirm_frame)
    | (with_reducible apply turnAway_frame)
    | (with_reducible apply wholeCmd_frame)
    | (with_reducible apply frame_ite)
    | (intro b; refine (fun (_ : OnlyChanges F z b) => ?_) ?_; clear_value b; swap; dsimp only [b]; swap)
    | (intro b; clear_value b)
    | intro b
    | lift_lets
    | split
    | dsimp only

theorem releaseDelete_frame {id : Nat} {c : Cmd} (hz : OnlyChanges F z s) (m1 : Part.out ∈ F) (m3 : Part.regs ∈ F) (m4 : Part.portA ∈ F) (m5 : Part.portB ∈ F) (m6 : Part.evr ∈ F) (m16 : Part.map ∈ F) (m17 : Part.flash ∈ F) (m18 : Part.jrc ∈ F) (m19 : Part.srt ∈ F) : OnlyChanges F z (releaseDelete s id c) := by
  unfold releaseDelete
  repeat' first
    | with_reducible assumption
    | (with_reducible apply failCmd_frame)
    | (with_reducible apply modCmd_frame)
    | (with_reducible apply finishCmd_frame)
    | (with_reducible apply askGroup_frame)
    | (with_reducible apply frame_ite)
    | (intro b; refine (fun (_ : OnlyChanges F z b) => ?_) ?_; clear_value b; swap; dsimp only [b]; swap)
    | (intro b; clear_value b)
    | intro b
    | lift_lets
    | split

theorem formatFetch_frame {body : Instr} {q : Sqe} {lbaf : Nat} {ses : Nat} {piType : Nat} (hz : OnlyChanges F z s) (m1 : Part.out ∈ F) (m3 : Part.regs ∈ F) (m4 : Part.portA ∈ F) (m5 : Part.portB ∈ F) (m6 : Part.evr ∈ F) (m19 : Part.srt ∈ F) : OnlyChanges F z (formatFetch s body q lbaf ses piType) := by
  unfold formatFetch
  repeat' first
    | with_reducible assumption
    | (with_reducible apply takeFirm_frame)
    | (with_reducible apply turnAway_frame)
    | (with_reducible apply wholeCmd_frame)
    | (with_reducible apply frame_ite)
    | (intro b; refine (fun (_ : OnlyChanges F z b) => ?_) ?_; clear_value b; swap; dsimp only [b]; swap)
    | (intro b; clear_value b)
    | intro b
    | lift_lets
    | split
    | dsimp only

theorem newKeys_frame {ids : List Nat} (hz : OnlyChanges F z s) (m1 : Part.out ∈ F) (m2 : Part.clk ∈ F) (m3 : Part.regs ∈ F) (m4 : Part.portA ∈ F) (m5 : Part.portB ∈ F) (m6 : Part.evr ∈ F) (m12 : Part.cry ∈ F) (m16 : Part.map ∈ F) (m18 : Part.jrc ∈ F) : OnlyChanges F z (newKeys s ids).1 := by
  unfold newKeys
  repeat' first
    | with_reducible assumption
    | (with_reducible apply makeKey_frame)
    | (with_reducible apply anaAfter_frame)
    | (with_reducible refine frame_foldl (fun x b hx => ?_) ?_)
    | (with_reducible refine frame_foldl_fst (fun x b hx => ?_) ?_)
    | (intro b; refine (fun (_ : OnlyChanges F z b) => ?_) ?_; clear_value b; swap; dsimp only [b]; swap)
    | (intro b; refine (fun (_ : OnlyChanges F z b.1) => ?_) ?_; clear_value b; swap; dsimp only [b]; swap)
    | (intro b; clear_value b)
    | intro b
    | lift_lets
    | split
    | (refine frame_of_eq (by assumption) ?_)
    | dsimp only

theorem progWrite_frame {f : Progress → Progress} (hz : OnlyChanges F z s) (m18 : Part.jrc ∈ F) (m20 : Part.prog ∈ F) : OnlyChanges F z (progWrite s f) := by
  unfold progWrite
  repeat' first
    | with_reducible assumption
    | (intro b; refine (fun (_ : OnlyChanges F z b) => ?_) ?_; clear_value b; swap; dsimp only [b]; swap)
    | (with_reducible apply hf)
    | (intro b; clear_value b)
    | intro b
    | lift_lets
    | (fail_if_no_progress with_reducible refine frame_upd ?_)

theorem formatStart_frame {id : Nat} {c : Cmd} {lbaf : Nat} {ses : Nat} {piType : Nat} {pil : Bool} {mset : Bool} {entropyOk : Bool} (hz : OnlyChanges F z s) (m1 : Part.out ∈ F) (m2 : Part.clk ∈ F) (m3 : Part.regs ∈ F) (m4 : Part.portA ∈ F) (m5 : Part.portB ∈ F) (m6 : Part.evr ∈ F) (m12 : Part.cry ∈ F) (m16 : Part.map ∈ F) (m17 : Part.flash ∈ F) (m18 : Part.jrc ∈ F) (m19 : Part.srt ∈ F) (m20 : Part.prog ∈ F) : OnlyChanges F z (formatStart s id c lbaf ses piType pil mset entropyOk) := by
  unfold formatStart
  repeat' first
    | with_reducible assumption
    | (with_reducible apply failCmd_frame)
    | (with_reducible apply cryCauseSet_frame)
    | (with_reducible apply finishCmd_frame)
    | (with_reducible apply modCmd_frame)
    | (with_reducible apply inProgressEnds_frame)
    | (with_reducible apply newKeys_frame)
    | (with_reducible apply progWrite_frame)
    | (with_reducible apply askGroup_frame)
    | (with_reducible apply frame_ite)
    | (with_reducible apply frame_ite_fst)
    | (intro b; refine (fun (_ : OnlyChanges F z b) => ?_) ?_; clear_value b; swap; dsimp only [b]; swap)
    | (intro b; refine (fun (_ : OnlyChanges F z b.1) => ?_) ?_; clear_value b; swap; dsimp only [b]; swap)
    | (intro b; clear_value b)
    | intro b
    | lift_lets
    | split
    | (refine frame_of_eq (by assumption) ?_)
    | dsimp only

theorem dropDlo_frame {ids : List Nat} (hz : OnlyChanges F z s) (m21 : Part.pat ∈ F) : OnlyChanges F z (dropDlo s ids) := by
  unfold dropDlo
  repeat' first
    | with_reducible assumption
    | (with_reducible apply updPat_frame)

theorem segFill_frame (hz : OnlyChanges F z s) (m3 : Part.regs ∈ F) (m22 : Part.mem ∈ F) : OnlyChanges F z (segFill s) := by
  unfold segFill
  repeat' first
    | with_reducible assumption
    | (with_reducible apply updMem_frame)
    | (with_reducible apply trig54_frame)
    | (with_reducible apply frame_ite)
    | split

theorem oldSalts_frame {ids : List Nat} (hz : OnlyChanges F z s) (m2 : Part.clk ∈ F) (m12 : Part.cry ∈ F) (m18 : Part.jrc ∈ F) : OnlyChanges F z (oldSalts s ids) := by
  unfold oldSalts
  repeat' first
    | with_reducible assumption
    | (with_reducible apply newSalt_frame)
    | (with_reducible refine frame_foldl (fun x b hx => ?_) ?_)
    | split
    | dsimp only

theorem issueRound_frame (hz : OnlyChanges F z s) (m1 : Part.out ∈ F) (m3 : Part.regs ∈ F) (m4 : Part.portA ∈ F) (m5 : Part.portB ∈ F) (m6 : Part.evr ∈ F) (m17 : Part.flash ∈ F) (m20 : Part.prog ∈ F) : OnlyChanges F z (issueRound s) := by
  unfold issueRound
  repeat' first
    | with_reducible assumption
    | (with_reducible apply pump_frame)
    | (with_reducible apply addOp_frame)
    | (with_reducible apply frame_ite)
    | (with_reducible refine frame_foldl (fun x b hx => ?_) ?_)
    | (intro b; refine (fun (_ : OnlyChanges F z b) => ?_) ?_; clear_value b; swap; dsimp only [b]; swap)
    | (intro b; clear_value b)
    | intro b
    | lift_lets
    | split
    | (fail_if_no_progress with_reducible refine frame_upd ?_)
    | dsimp only

theorem retryRound_frame (hz : OnlyChanges F z s) (m1 : Part.out ∈ F) (m3 : Part.regs ∈ F) (m4 : Part.portA ∈ F) (m5 : Part.portB ∈ F) (m6 : Part.evr ∈ F) (m17 : Part.flash ∈ F) (m20 : Part.prog ∈ F) : OnlyChanges F z (retryRound s) := by
  unfold retryRound
  repeat' first
    | with_reducible assumption
    | (with_reducible apply issueRound_frame)
    | (with_reducible apply frame_ite)
    | split

theorem sanFail_frame (hz : OnlyChanges F z s) (m1 : Part.out ∈ F) (m3 : Part.regs ∈ F) (m4 : Part.portA ∈ F) (m5 : Part.portB ∈ F) (m6 : Part.evr ∈ F) (m16 : Part.map ∈ F) (m17 : Part.flash ∈ F) (m18 : Part.jrc ∈ F) (m19 : Part.srt ∈ F) (m20 : Part.prog ∈ F) : OnlyChanges F z (sanFail s) := by
  unfold sanFail
  repeat' first
    | with_reducible assumption
    | (with_reducible apply failCmd_frame)
    | (with_reducible apply progWrite_frame)
    | (with_reducible apply frame_ite)
    | (intro b; refine (fun (_ : OnlyChanges F z b) => ?_) ?_; clear_value b; swap; dsimp only [b]; swap)
    | (intro b; clear_value b)
    | intro b
    | lift_lets
    | split
    | (fail_if_no_progress with_reducible refine frame_upd ?_)
    | dsimp only

theorem sanDone_frame (hz : OnlyChanges F z s) (m18 : Part.jrc ∈ F) (m20 : Part.prog ∈ F) : OnlyChanges F z (sanDone s) := by
  unfold sanDone
  repeat' first
    | with_reducible assumption
    | (with_reducible apply progWrite_frame)

theorem doneGroup_frame (hz : OnlyChanges F z s) (m18 : Part.jrc ∈ F) (m20 : Part.prog ∈ F) : OnlyChanges F z (doneGroup s) := by
  unfold doneGroup
  repeat' first
    | with_reducible assumption
    | (with_reducible apply askGroup_frame)
    | (with_reducible apply frame_ite)
    | (intro b; refine (fun (_ : OnlyChanges F z b) => ?_) ?_; clear_value b; swap; dsimp only [b]; swap)
    | (intro b; clear_value b)
    | intro b
    | lift_lets
    | split
    | (fail_if_no_progress with_reducible refine frame_upd ?_)

theorem recountDone_frame (hz : OnlyChanges F z s) (m1 : Part.out ∈ F) (m2 : Part.clk ∈ F) (m3 : Part.regs ∈ F) (m4 : Part.portA ∈ F) (m5 : Part.portB ∈ F) (m6 : Part.evr ∈ F) (m12 : Part.cry ∈ F) (m16 : Part.map ∈ F) (m17 : Part.flash ∈ F) (m18 : Part.jrc ∈ F) (m20 : Part.prog ∈ F) : OnlyChanges F z (recountDone s) := by
  unfold recountDone
  repeat' first
    | with_reducible assumption
    | (with_reducible apply updTab_frame)
    | (with_reducible apply updMap_frame)
    | (with_reducible apply makeErasable_frame)
    | (with_reducible apply spaceUpdate_frame)
    | (with_reducible apply pump_frame)
    | (with_reducible apply victimsErasable_frame)
    | (with_reducible apply oldSalts_frame)
    | (with_reducible apply doneGroup_frame)
    | (with_reducible apply issueRound_frame)
    | (with_reducible apply progWrite_frame)
    | (with_reducible apply sanDone_frame)
    | (with_reducible apply frame_ite)
    | (with_reducible apply frame_ite_fst)
    | (with_reducible refine frame_foldl (fun x b hx => ?_) ?_)
    | (with_reducible refine frame_foldl_fst (fun x b hx => ?_) ?_)
    | (intro b; refine (fun (_ : OnlyChanges F z b) => ?_) ?_; clear_value b; swap; dsimp only [b]; swap)
    | (intro b; refine (fun (_ : OnlyChanges F z b.1) => ?_) ?_; clear_value b; swap; dsimp only [b]; swap)
    | (intro b; clear_value b)
    | intro b
    | lift_lets
    | split

theorem roundDone_frame (hz : OnlyChanges F z s) (m1 : Part.out ∈ F) (m3 : Part.regs ∈ F) (m4 : Part.portA ∈ F) (m5 : Part.portB ∈ F) (m6 : Part.evr ∈ F) (m16 : Part.map ∈ F) (m17 : Part.flash ∈ F) (m18 : Part.jrc ∈ F) (m19 : Part.srt ∈ F) (m20 : Part.prog ∈ F) : OnlyChanges F z (roundDone s) := by
  unfold roundDone
  repeat' first
    | with_reducible assumption
    | (with_reducible apply sanFail_frame)
    | (with_reducible apply issueRound_frame)
    | (with_reducible apply sanDone_frame)
    | (with_reducible apply frame_ite)
    | (intro b; refine (fun (_ : OnlyChanges F z b) => ?_) ?_; clear_value b; swap; dsimp only [b]; swap)
    | (intro b; clear_value b)
    | intro b
    | lift_lets
    | split
    | (fail_if_no_progress with_reducible refine frame_upd ?_)

theorem sanProgress_frame (hz : OnlyChanges F z s) (m1 : Part.out ∈ F) (m3 : Part.regs ∈ F) (m4 : Part.portA ∈ F) (m5 : Part.portB ∈ F) (m6 : Part.evr ∈ F) (m17 : Part.flash ∈ F) (m18 : Part.jrc ∈ F) (m20 : Part.prog ∈ F) : OnlyChanges F z (sanProgress s) := by
  unfold sanProgress
  repeat' first
    | with_reducible assumption
    | (with_reducible apply retryRound_frame)
    | (with_reducible apply progWrite_frame)
    | (with_reducible apply frame_ite)
    | split

theorem sanitizeFetch_frame {body : Instr} {q : Sqe} {ndas : Bool} (hz : OnlyChanges F z s) (m1 : Part.out ∈ F) (m3 : Part.regs ∈ F) (m4 : Part.portA ∈ F) (m5 : Part.portB ∈ F) (m6 : Part.evr ∈ F) (m19 : Part.srt ∈ F) : OnlyChanges F z (sanitizeFetch s body q ndas) := by
  unfold sanitizeFetch
  repeat' first
    | with_reducible assumption
    | (with_reducible apply takeFirm_frame)
    | (with_reducible apply turnAway_frame)
    | (with_reducible apply wholeCmd_frame)
    | (with_reducible apply frame_ite)
    | (with_reducible apply frame_ite_fst)
    | (intro b; refine (fun (_ : OnlyChanges F z b) => ?_) ?_; clear_value b; swap; dsimp only [b]; swap)
    | (intro b; refine (fun (_ : OnlyChanges F z b.1) => ?_) ?_; clear_value b; swap; dsimp only [b]; swap)
    | (intro b; clear_value b)
    | intro b
    | lift_lets
    | split
    | dsimp only

theorem sanitizeExit_frame {q : Sqe} {ndas : Bool} (hz : OnlyChanges F z s) (m1 : Part.out ∈ F) (m3 : Part.regs ∈ F) (m4 : Part.portA ∈ F) (m5 : Part.portB ∈ F) (m6 : Part.evr ∈ F) (m19 : Part.srt ∈ F) (m20 : Part.prog ∈ F) : OnlyChanges F z (sanitizeExit s q ndas) := by
  unfold sanitizeExit
  repeat' first
    | with_reducible assumption
    | (with_reducible apply takeAdmin_frame)
    | (with_reducible apply complete_frame)
    | (with_reducible apply frame_ite)
    | (intro b; refine (fun (_ : OnlyChanges F z b) => ?_) ?_; clear_value b; swap; dsimp only [b]; swap)
    | (intro b; clear_value b)
    | intro b
    | lift_lets
    | split
    | (fail_if_no_progress with_reducible refine frame_upd ?_)

theorem sanitizeKeys_frame {action : Nat} {cmd : Option Nat} (hz : OnlyChanges F z s) (m1 : Part.out ∈ F) (m2 : Part.clk ∈ F) (m3 : Part.regs ∈ F) (m4 : Part.portA ∈ F) (m5 : Part.portB ∈ F) (m6 : Part.evr ∈ F) (m12 : Part.cry ∈ F) (m16 : Part.map ∈ F) (m17 : Part.flash ∈ F) (m18 : Part.jrc ∈ F) (m20 : Part.prog ∈ F) : OnlyChanges F z (sanitizeKeys s action cmd) := by
  unfold sanitizeKeys
  repeat' first
    | with_reducible assumption
    | (with_reducible apply progWrite_frame)
    | (with_reducible apply wrField_frame)
    | (with_reducible apply jobAbort_frame)
    | (with_reducible apply newKeys_frame)
    | (with_reducible apply askGroup_frame)
    | (intro b; refine (fun (_ : OnlyChanges F z b) => ?_) ?_; clear_value b; swap; dsimp only [b]; swap)
    | (intro b; refine (fun (_ : OnlyChanges F z b.1) => ?_) ?_; clear_value b; swap; dsimp only [b]; swap)
    | (intro b; clear_value b)
    | intro b
    | lift_lets
    | split
    | (refine frame_of_eq (by assumption) ?_)
    | dsimp only

theorem sanitizeStart_frame {id : Nat} {c : Cmd} {action : Nat} {entropyOk : Bool} (hz : OnlyChanges F z s) (m1 : Part.out ∈ F) (m2 : Part.clk ∈ F) (m3 : Part.regs ∈ F) (m4 : Part.portA ∈ F) (m5 : Part.portB ∈ F) (m6 : Part.evr ∈ F) (m12 : Part.cry ∈ F) (m16 : Part.map ∈ F) (m17 : Part.flash ∈ F) (m18 : Part.jrc ∈ F) (m19 : Part.srt ∈ F) (m20 : Part.prog ∈ F) : OnlyChanges F z (sanitizeStart s id c action entropyOk) := by
  unfold sanitizeStart
  repeat' first
    | with_reducible assumption
    | (with_reducible apply failCmd_frame)
    | (with_reducible apply cryCauseSet_frame)
    | (with_reducible apply inProgressEnds_frame)
    | (with_reducible apply sanitizeKeys_frame)
    | (with_reducible apply modCmd_frame)
    | (with_reducible apply frame_ite)
    | split

theorem dropOpens_frame (hz : OnlyChanges F z s) (m16 : Part.map ∈ F) (m17 : Part.flash ∈ F) : OnlyChanges F z (dropOpens s) := by
  unfold dropOpens
  repeat' first
    | with_reducible assumption
    | (with_reducible apply updFlash_frame)
    | (with_reducible apply updMap_frame)
    | (with_reducible apply frame_ite)
    | (with_reducible apply frame_ite_fst)
    | (intro b; refine (fun (_ : OnlyChanges F z b) => ?_) ?_; clear_value b; swap; dsimp only [b]; swap)
    | (intro b; refine (fun (_ : OnlyChanges F z b.1) => ?_) ?_; clear_value b; swap; dsimp only [b]; swap)
    | (intro b; clear_value b)
    | intro b
    | lift_lets
    | split
    | dsimp only

theorem nsopDone_frame {old : MapTab} {op : Nat} {ids : List Nat} (hz : OnlyChanges F z s) (m1 : Part.out ∈ F) (m2 : Part.clk ∈ F) (m3 : Part.regs ∈ F) (m4 : Part.portA ∈ F) (m5 : Part.portB ∈ F) (m6 : Part.evr ∈ F) (m12 : Part.cry ∈ F) (m16 : Part.map ∈ F) (m17 : Part.flash ∈ F) (m18 : Part.jrc ∈ F) (m19 : Part.srt ∈ F) (m20 : Part.prog ∈ F) (m21 : Part.pat ∈ F) (m22 : Part.mem ∈ F) : OnlyChanges F z (nsopDone s old op ids) := by
  unfold nsopDone
  repeat' first
    | with_reducible assumption
    | (with_reducible apply dropDlo_frame)
    | (with_reducible apply updCry_frame)
    | (with_reducible apply newSalt_frame)
    | (with_reducible apply modPort_frame)
    | (with_reducible apply nsChanged_frame)
    | (with_reducible apply segFill_frame)
    | (with_reducible apply progWrite_frame)
    | (with_reducible apply finishCmd_frame)
    | (with_reducible apply dropOpens_frame)
    | (with_reducible apply setActive_frame)
    | (with_reducible apply wrField_frame)
    | (with_reducible apply frame_ite)
    | (with_reducible apply frame_ite_fst)
    | (with_reducible refine frame_foldl (fun x b hx => ?_) ?_)
    | (with_reducible refine frame_foldl_fst (fun x b hx => ?_) ?_)
    | (intro b; refine (fun (_ : OnlyChanges F z b) => ?_) ?_; clear_value b; swap; dsimp only [b]; swap)
    | (intro b; refine (fun (_ : OnlyChanges F z b.1) => ?_) ?_; clear_value b; swap; dsimp only [b]; swap)
    | (with_reducible apply hfn)
    | (intro b; refine (fun (hfn : ∀ x, OnlyChanges F z x → OnlyChanges F z (b x)) => ?_) ?_; clear_value b; swap; (intro x hx; dsimp only [b]); swap)
    | (intro b; refine (fun (hfn : ∀ x y, OnlyChanges F z x → OnlyChanges F z (b x y)) => ?_) ?_; clear_value b; swap; (intro x y hx; dsimp only [b]); swap)
    | (with_reducible apply hfc)
    | (with_reducible apply hfd)
    | (intro b; refine (fun (hfc : ∀ x, OnlyChanges F z (b x)) => ?_) ?_; clear_value b; swap; (intro x; dsimp only [b]); swap)
    | (intro b; refine (fun (hfd : ∀ x y, OnlyChanges F z (b x y)) => ?_) ?_; clear_value b; swap; (intro x y; dsimp only [b]); swap)
    | (intro b; clear_value b)
    | intro b
    | lift_lets
    | split
    | (fail_if_no_progress with_reducible refine frame_upd ?_)
    | dsimp only

theorem fillDoneAll_frame (hz : OnlyChanges F z s) (m1 : Part.out ∈ F) (m2 : Part.clk ∈ F) (m3 : Part.regs ∈ F) (m4 : Part.portA ∈ F) (m5 : Part.portB ∈ F) (m6 : Part.evr ∈ F) (m14 : Part.dram ∈ F) (m20 : Part.prog ∈ F) (m22 : Part.mem ∈ F) : OnlyChanges F z (fillDoneAll s) := by
  unfold fillDoneAll
  repeat' first
    | with_reducible assumption
    | (with_reducible apply zeroFillDone_frame)
    | (with_reducible apply segFill_frame)
    | (with_reducible apply frame_ite)
    | (intro b; refine (fun (_ : OnlyChanges F z b) => ?_) ?_; clear_value b; swap; dsimp only [b]; swap)
    | (intro b; clear_value b)
    | intro b
    | lift_lets
    | split
    | (fail_if_no_progress with_reducible refine frame_upd ?_)

theorem rootDone_frame (hz : OnlyChanges F z s) (m1 : Part.out ∈ F) (m3 : Part.regs ∈ F) (m4 : Part.portA ∈ F) (m5 : Part.portB ∈ F) (m6 : Part.evr ∈ F) (m16 : Part.map ∈ F) (m17 : Part.flash ∈ F) (m18 : Part.jrc ∈ F) (m20 : Part.prog ∈ F) (m21 : Part.pat ∈ F) : OnlyChanges F z (rootDone s) := by
  unfold rootDone
  repeat' first
    | with_reducible assumption
    | (with_reducible apply rootCommitDone_frame)
    | (with_reducible apply doneGroup_frame)
    | (with_reducible apply frame_ite)
    | (intro b; refine (fun (_ : OnlyChanges F z b) => ?_) ?_; clear_value b; swap; dsimp only [b]; swap)
    | (intro b; clear_value b)
    | intro b
    | lift_lets
    | split

theorem releaseShed_frame {id : Nat} {c : Cmd} {n : Ns} (hz : OnlyChanges F z s) (m1 : Part.out ∈ F) (m3 : Part.regs ∈ F) (m4 : Part.portA ∈ F) (m5 : Part.portB ∈ F) (m6 : Part.evr ∈ F) (m15 : Part.phc ∈ F) (m16 : Part.map ∈ F) (m17 : Part.flash ∈ F) (m18 : Part.jrc ∈ F) (m19 : Part.srt ∈ F) : OnlyChanges F z (releaseShed s id c n) := by
  unfold releaseShed
  repeat' first
    | with_reducible assumption
    | (with_reducible apply capacityFail_frame)
    | (with_reducible apply releaseDealloc_frame)
    | (with_reducible apply frame_ite)
    | (with_reducible refine frame_foldl (fun x b hx => ?_) ?_)
    | (intro b; refine (fun (_ : OnlyChanges F z b) => ?_) ?_; clear_value b; swap; dsimp only [b]; swap)
    | (intro b; clear_value b)
    | intro b
    | lift_lets
    | split

theorem releaseShedFree_frame {id : Nat} {letters : Nat} (hz : OnlyChanges F z s) (m1 : Part.out ∈ F) (m3 : Part.regs ∈ F) (m4 : Part.portA ∈ F) (m5 : Part.portB ∈ F) (m6 : Part.evr ∈ F) (m16 : Part.map ∈ F) (m17 : Part.flash ∈ F) (m18 : Part.jrc ∈ F) (m19 : Part.srt ∈ F) : OnlyChanges F z (releaseShedFree s id letters) := by
  unfold releaseShedFree
  repeat' first
    | with_reducible assumption
    | (with_reducible apply failCmd_frame)
    | (with_reducible apply askNext_frame)
    | (with_reducible apply modCmd_frame)
    | (with_reducible apply frame_ite)
    | split

theorem writable_frame {id : Nat} {c : Cmd} {f : State → State} (hz : OnlyChanges F z s) (hf : ∀ t, OnlyChanges F z t → OnlyChanges F z (f t)) (m1 : Part.out ∈ F) (m3 : Part.regs ∈ F) (m4 : Part.portA ∈ F) (m5 : Part.portB ∈ F) (m6 : Part.evr ∈ F) (m16 : Part.map ∈ F) (m17 : Part.flash ∈ F) (m18 : Part.jrc ∈ F) (m19 : Part.srt ∈ F) : OnlyChanges F z (writable s id c f) := by
  unfold writable
  repeat' first
    | with_reducible assumption
    | (with_reducible apply failCmd_frame)
    | (with_reducible apply frame_ite)
    | (with_reducible apply hf)
    | split

theorem onNs_frame {id : Nat} {c : Cmd} {f : Ns → State} (hz : OnlyChanges F z s) (hf : ∀ t, OnlyChanges F z (f t)) (m1 : Part.out ∈ F) (m3 : Part.regs ∈ F) (m4 : Part.portA ∈ F) (m5 : Part.portB ∈ F) (m6 : Part.evr ∈ F) (m16 : Part.map ∈ F) (m17 : Part.flash ∈ F) (m18 : Part.jrc ∈ F) (m19 : Part.srt ∈ F) : OnlyChanges F z (onNs s id c f) := by
  unfold onNs
  repeat' first
    | with_reducible assumption
    | (with_reducible apply failCmd_frame)
    | (with_reducible apply hf)
    | split
    | dsimp only

theorem releaseCmd_frame {id : Nat} {c : Cmd} (hz : OnlyChanges F z s) (m1 : Part.out ∈ F) (m2 : Part.clk ∈ F) (m3 : Part.regs ∈ F) (m4 : Part.portA ∈ F) (m5 : Part.portB ∈ F) (m6 : Part.evr ∈ F) (m12 : Part.cry ∈ F) (m14 : Part.dram ∈ F) (m15 : Part.phc ∈ F) (m16 : Part.map ∈ F) (m17 : Part.flash ∈ F) (m18 : Part.jrc ∈ F) (m19 : Part.srt ∈ F) (m20 : Part.prog ∈ F) (m21 : Part.pat ∈ F) (m22 : Part.mem ∈ F) : OnlyChanges F z (releaseCmd s id c) := by
  unfold releaseCmd
  repeat' first
    | with_reducible assumption
    | (with_reducible refine onNs_frame ?_ (fun x => ?_) ?_ ?_ ?_ ?_ ?_ ?_ ?_ ?_ ?_)
    | (with_reducible refine writable_frame ?_ (fun x hx => ?_) ?_ ?_ ?_ ?_ ?_ ?_ ?_ ?_ ?_)
    | (with_reducible apply releaseWrite_frame)
    | (with_reducible apply lookup_frame)
    | (with_reducible apply releaseDealloc_frame)
    | (with_reducible apply releaseShed_frame)
    | (with_reducible apply releaseShedFree_frame)
    | (with_reducible apply releaseDelete_frame)
    | (with_reducible apply formatStart_frame)
    | (with_reducible apply sanitizeStart_frame)
    | (with_reducible apply frame_ite)
    | split
    | dsimp only

theorem release_frame {id : Nat} {lines : List LineReq} (hz : OnlyChanges F z s) (m1 : Part.out ∈ F) (m2 : Part.clk ∈ F) (m3 : Part.regs ∈ F) (m4 : Part.portA ∈ F) (m5 : Part.portB ∈ F) (m6 : Part.evr ∈ F) (m12 : Part.cry ∈ F) (m14 : Part.dram ∈ F) (m15 : Part.phc ∈ F) (m16 : Part.map ∈ F) (m17 : Part.flash ∈ F) (m18 : Part.jrc ∈ F) (m19 : Part.srt ∈ F) (m20 : Part.prog ∈ F) (m21 : Part.pat ∈ F) (m22 : Part.mem ∈ F) : OnlyChanges F z (release s id lines) := by
  unfold release
  repeat' first
    | with_reducible assumption
    | (with_reducible apply releaseCmd_frame)
    | (with_reducible apply clientAccesses_frame)
    | (with_reducible apply frame_ite)
    | split
    | dsimp only

theorem relocApplied_frame {id : Nat} {g : Group} (hz : OnlyChanges F z s) (m16 : Part.map ∈ F) (m18 : Part.jrc ∈ F) : OnlyChanges F z (relocApplied s id g) := by
  unfold relocApplied
  repeat' first
    | with_reducible assumption
    | (with_reducible apply modReloc_frame)
    | (with_reducible apply refreshEnd_frame)
    | (with_reducible apply dropHolder_frame)
    | (with_reducible apply frame_ite)
    | (intro b; refine (fun (_ : OnlyChanges F z b) => ?_) ?_; clear_value b; swap; dsimp only [b]; swap)
    | (intro b; clear_value b)
    | intro b
    | lift_lets
    | split
    | dsimp only

theorem sbApplied_frame {x : Nat} {g : Group} (hz : OnlyChanges F z s) (m16 : Part.map ∈ F) (m21 : Part.pat ∈ F) : OnlyChanges F z (sbApplied s x g) := by
  unfold sbApplied
  repeat' first
    | with_reducible assumption
    | (with_reducible apply updPat_frame)
    | (with_reducible apply modOpen_frame)
    | (with_reducible apply updMap_frame)
    | (with_reducible apply modSb_frame)
    | (with_reducible apply frame_ite)
    | (with_reducible refine frame_foldl (fun x b hx => ?_) ?_)
    | (intro b; refine (fun (_ : OnlyChanges F z b) => ?_) ?_; clear_value b; swap; dsimp only [b]; swap)
    | (intro b; clear_value b)
    | intro b
    | lift_lets
    | split
    | dsimp only

theorem cmdApplied_frame {id : Nat} {c : Cmd} (hz : OnlyChanges F z s) (m1 : Part.out ∈ F) (m3 : Part.regs ∈ F) (m4 : Part.portA ∈ F) (m5 : Part.portB ∈ F) (m6 : Part.evr ∈ F) (m16 : Part.map ∈ F) (m17 : Part.flash ∈ F) (m18 : Part.jrc ∈ F) (m19 : Part.srt ∈ F) : OnlyChanges F z (cmdApplied s id c) := by
  unfold cmdApplied
  repeat' first
    | with_reducible assumption
    | (with_reducible apply spaceUpdate_frame)
    | (with_reducible apply finishCmd_frame)
    | (intro b; refine (fun (_ : OnlyChanges F z b) => ?_) ?_; clear_value b; swap; dsimp only [b]; swap)
    | (intro b; clear_value b)
    | intro b
    | lift_lets
    | split
    | dsimp only

theorem ownerApplied_frame {old : MapTab} {g : Group} (hz : OnlyChanges F z s) (m1 : Part.out ∈ F) (m3 : Part.regs ∈ F) (m4 : Part.portA ∈ F) (m5 : Part.portB ∈ F) (m6 : Part.evr ∈ F) (m16 : Part.map ∈ F) (m17 : Part.flash ∈ F) (m18 : Part.jrc ∈ F) (m19 : Part.srt ∈ F) (m21 : Part.pat ∈ F) : OnlyChanges F z (ownerApplied s old g) := by
  unfold ownerApplied
  repeat' first
    | with_reducible assumption
    | (with_reducible apply modCmd_frame)
    | (with_reducible apply cmdApplied_frame)
    | (with_reducible apply askNext_frame)
    | (with_reducible apply relocApplied_frame)
    | (with_reducible apply deadApplied_frame)
    | (with_reducible apply sbApplied_frame)
    | (with_reducible apply frame_ite)
    | (with_reducible apply frame_ite_fst)
    | (intro b; refine (fun (_ : OnlyChanges F z b) => ?_) ?_; clear_value b; swap; dsimp only [b]; swap)
    | (intro b; refine (fun (_ : OnlyChanges F z b.1) => ?_) ?_; clear_value b; swap; dsimp only [b]; swap)
    | (with_reducible apply hfn)
    | (intro b; refine (fun (hfn : ∀ x, OnlyChanges F z x → OnlyChanges F z (b x)) => ?_) ?_; clear_value b; swap; (intro x hx; dsimp only [b]); swap)
    | (intro b; refine (fun (hfn : ∀ x y, OnlyChanges F z x → OnlyChanges F z (b x y)) => ?_) ?_; clear_value b; swap; (intro x y hx; dsimp only [b]); swap)
    | (with_reducible apply hfc)
    | (with_reducible apply hfd)
    | (intro b; refine (fun (hfc : ∀ x, OnlyChanges F z (b x)) => ?_) ?_; clear_value b; swap; (intro x; dsimp only [b]); swap)
    | (intro b; refine (fun (hfd : ∀ x y, OnlyChanges F z (b x y)) => ?_) ?_; clear_value b; swap; (intro x y; dsimp only [b]); swap)
    | (intro b; clear_value b)
    | intro b
    | lift_lets
    | split
    | (refine frame_of_eq (by assumption) ?_)
    | (fail_if_no_progress with_reducible refine frame_upd ?_)
    | dsimp only

theorem applyGroup_frame {g : Group} (hz : OnlyChanges F z s) (m1 : Part.out ∈ F) (m2 : Part.clk ∈ F) (m3 : Part.regs ∈ F) (m4 : Part.portA ∈ F) (m5 : Part.portB ∈ F) (m6 : Part.evr ∈ F) (m12 : Part.cry ∈ F) (m16 : Part.map ∈ F) (m17 : Part.flash ∈ F) (m18 : Part.jrc ∈ F) (m19 : Part.srt ∈ F) (m20 : Part.prog ∈ F) (m21 : Part.pat ∈ F) (m22 : Part.mem ∈ F) : OnlyChanges F z (applyGroup s g) := by
  unfold applyGroup
  repeat' first
    | with_reducible assumption
    | (with_reducible apply updTab_frame)
    | (with_reducible apply updJrc_frame)
    | (with_reducible apply updMap_frame)
    | (with_reducible apply poolEvents_frame)
    | (with_reducible apply nsopDone_frame)
    | (with_reducible apply ownerApplied_frame)
    | (intro b; refine (fun (_ : OnlyChanges F z b) => ?_) ?_; clear_value b; swap; dsimp only [b]; swap)
    | (intro b; clear_value b)
    | intro b
    | lift_lets
    | split
    | dsimp only

theorem drainApply_frame (hz : OnlyChanges F z s) (m1 : Part.out ∈ F) (m2 : Part.clk ∈ F) (m3 : Part.regs ∈ F) (m4 : Part.portA ∈ F) (m5 : Part.portB ∈ F) (m6 : Part.evr ∈ F) (m12 : Part.cry ∈ F) (m16 : Part.map ∈ F) (m17 : Part.flash ∈ F) (m18 : Part.jrc ∈ F) (m19 : Part.srt ∈ F) (m20 : Part.prog ∈ F) (m21 : Part.pat ∈ F) (m22 : Part.mem ∈ F) : OnlyChanges F z (drainApply s) := by
  unfold drainApply
  repeat' first
    | with_reducible assumption
    | (with_reducible apply applyGroup_frame)
    | (with_reducible apply updJrc_frame)
    | (with_reducible apply frame_ite)
    | (with_reducible apply frame_ite_fst)
    | (with_reducible refine frame_foldl (fun x b hx => ?_) ?_)
    | (with_reducible refine frame_foldl_fst (fun x b hx => ?_) ?_)
    | (intro b; refine (fun (_ : OnlyChanges F z b) => ?_) ?_; clear_value b; swap; dsimp only [b]; swap)
    | (intro b; refine (fun (_ : OnlyChanges F z b.1) => ?_) ?_; clear_value b; swap; dsimp only [b]; swap)
    | (intro b; clear_value b)
    | intro b
    | lift_lets
    | split
    | dsimp only

theorem afterApply_frame (hz : OnlyChanges F z s) (m1 : Part.out ∈ F) (m2 : Part.clk ∈ F) (m3 : Part.regs ∈ F) (m4 : Part.portA ∈ F) (m5 : Part.portB ∈ F) (m6 : Part.evr ∈ F) (m9 : Part.chip ∈ F) (m14 : Part.dram ∈ F) (m15 : Part.phc ∈ F) (m16 : Part.map ∈ F) (m17 : Part.flash ∈ F) (m18 : Part.jrc ∈ F) (m19 : Part.srt ∈ F) (m21 : Part.pat ∈ F) (m22 : Part.mem ∈ F) : OnlyChanges F z (afterApply s) := by
  unfold afterApply
  repeat' first
    | with_reducible assumption
    | (with_reducible apply proceedAll_frame)
    | (with_reducible apply rebundle_frame)
    | (with_reducible apply victimsErasable_frame)
    | (with_reducible apply relocRetry_frame)
    | (with_reducible apply tryReloc_frame)
    | (with_reducible apply askAll_frame)
    | (with_reducible apply reclaimPace_frame)
    | (with_reducible apply spaceUpdate_frame)
    | (with_reducible apply sweepsEnd_frame)
    | (with_reducible apply turn_frame)
    | (with_reducible refine frame_foldl (fun x b hx => ?_) ?_)
    | (with_reducible refine frame_foldl_fst (fun x b hx => ?_) ?_)
    | (intro b; refine (fun (_ : OnlyChanges F z b) => ?_) ?_; clear_value b; swap; dsimp only [b]; swap)
    | (intro b; refine (fun (_ : OnlyChanges F z b.1) => ?_) ?_; clear_value b; swap; dsimp only [b]; swap)
    | (intro b; clear_value b)
    | intro b
    | lift_lets

theorem commitAck_frame {lines : List LineReq} (hz : OnlyChanges F z s) (m1 : Part.out ∈ F) (m2 : Part.clk ∈ F) (m3 : Part.regs ∈ F) (m4 : Part.portA ∈ F) (m5 : Part.portB ∈ F) (m6 : Part.evr ∈ F) (m9 : Part.chip ∈ F) (m12 : Part.cry ∈ F) (m14 : Part.dram ∈ F) (m15 : Part.phc ∈ F) (m16 : Part.map ∈ F) (m17 : Part.flash ∈ F) (m18 : Part.jrc ∈ F) (m19 : Part.srt ∈ F) (m20 : Part.prog ∈ F) (m21 : Part.pat ∈ F) (m22 : Part.mem ∈ F) : OnlyChanges F z (commitAck s lines) := by
  unfold commitAck
  repeat' first
    | with_reducible assumption
    | (with_reducible apply updJrc_frame)
    | (with_reducible apply afterApply_frame)
    | (with_reducible apply drainApply_frame)
    | (with_reducible apply clientAccesses_frame)
    | (intro b; refine (fun (_ : OnlyChanges F z b) => ?_) ?_; clear_value b; swap; dsimp only [b]; swap)
    | (intro b; clear_value b)
    | intro b
    | lift_lets
    | split
    | dsimp only

theorem abortDone_frame {q : Sqe} {sqid : Nat} {tcid : Nat} {hit : Bool} (hz : OnlyChanges F z s) (m1 : Part.out ∈ F) (m3 : Part.regs ∈ F) (m4 : Part.portA ∈ F) (m5 : Part.portB ∈ F) (m6 : Part.evr ∈ F) : OnlyChanges F z (abortDone s q sqid tcid hit) := by
  unfold abortDone
  repeat' first
    | with_reducible assumption
    | (with_reducible apply modPort_frame)
    | (with_reducible apply complete_frame)
    | (with_reducible apply frame_ite)
    | (intro b; refine (fun (_ : OnlyChanges F z b) => ?_) ?_; clear_value b; swap; dsimp only [b]; swap)
    | (intro b; clear_value b)
    | intro b
    | lift_lets
    | split
    | (fail_if_no_progress with_reducible refine frame_upd ?_)
    | dsimp only

theorem abortCmd_frame {q : Sqe} {sqid : Nat} {tcid : Nat} (hz : OnlyChanges F z s) (m1 : Part.out ∈ F) (m3 : Part.regs ∈ F) (m4 : Part.portA ∈ F) (m5 : Part.portB ∈ F) (m6 : Part.evr ∈ F) (m16 : Part.map ∈ F) (m17 : Part.flash ∈ F) (m18 : Part.jrc ∈ F) (m19 : Part.srt ∈ F) : OnlyChanges F z (abortCmd s q sqid tcid) := by
  unfold abortCmd
  repeat' first
    | with_reducible assumption
    | (with_reducible apply takeAdmin_frame)
    | (with_reducible apply complete_frame)
    | (with_reducible apply failCmd_frame)
    | (with_reducible apply endCmd_frame)
    | (with_reducible apply satAdd_frame)
    | (with_reducible apply abortDone_frame)
    | (with_reducible apply raise_frame)
    | (with_reducible apply frame_ite)
    | (intro b; refine (fun (_ : OnlyChanges F z b) => ?_) ?_; clear_value b; swap; dsimp only [b]; swap)
    | (intro b; clear_value b)
    | intro b
    | lift_lets
    | split
    | dsimp only

theorem trackerFault_frame (hz : OnlyChanges F z s) (m1 : Part.out ∈ F) (m3 : Part.regs ∈ F) (m4 : Part.portA ∈ F) (m5 : Part.portB ∈ F) (m6 : Part.evr ∈ F) (m16 : Part.map ∈ F) (m17 : Part.flash ∈ F) (m18 : Part.jrc ∈ F) (m19 : Part.srt ∈ F) : OnlyChanges F z (trackerFault s) := by
  unfold trackerFault
  repeat' first
    | with_reducible assumption
    | (with_reducible apply raise_frame)
    | (with_reducible apply orReg_frame)
    | (with_reducible apply updSrt_frame)
    | (with_reducible apply endCmd_frame)
    | (with_reducible apply frame_ite)
    | (with_reducible apply frame_ite_fst)
    | (with_reducible refine frame_foldl (fun x b hx => ?_) ?_)
    | (with_reducible refine frame_foldl_fst (fun x b hx => ?_) ?_)
    | (intro b; refine (fun (_ : OnlyChanges F z b) => ?_) ?_; clear_value b; swap; dsimp only [b]; swap)
    | (intro b; refine (fun (_ : OnlyChanges F z b.1) => ?_) ?_; clear_value b; swap; dsimp only [b]; swap)
    | (intro b; clear_value b)
    | intro b
    | lift_lets
    | split

theorem trackerReinit_frame (hz : OnlyChanges F z s) (m3 : Part.regs ∈ F) (m19 : Part.srt ∈ F) : OnlyChanges F z (trackerReinit s) := by
  unfold trackerReinit
  repeat' first
    | with_reducible assumption
    | (with_reducible apply wrField_frame)
    | (with_reducible apply updSrt_frame)
    | (with_reducible apply frame_ite)
    | split

theorem waitlim_frame {id : Nat} (hz : OnlyChanges F z s) (m1 : Part.out ∈ F) (m3 : Part.regs ∈ F) (m4 : Part.portA ∈ F) (m5 : Part.portB ∈ F) (m6 : Part.evr ∈ F) : OnlyChanges F z (waitlim s id) := by
  unfold waitlim
  repeat' first
    | with_reducible assumption
    | (with_reducible apply raise_frame)
    | (with_reducible apply satAdd_frame)
    | (with_reducible apply frame_ite)
    | split
    | dsimp only

theorem hwmClear_frame (hz : OnlyChanges F z s) (m3 : Part.regs ∈ F) : OnlyChanges F z (hwmClear s) := by
  unfold hwmClear
  repeat' first
    | with_reducible assumption
    | (with_reducible apply wr_frame)

theorem afterFlash_frame (hz : OnlyChanges F z s) (m1 : Part.out ∈ F) (m3 : Part.regs ∈ F) (m4 : Part.portA ∈ F) (m5 : Part.portB ∈ F) (m6 : Part.evr ∈ F) (m16 : Part.map ∈ F) (m17 : Part.flash ∈ F) (m18 : Part.jrc ∈ F) (m19 : Part.srt ∈ F) (m20 : Part.prog ∈ F) : OnlyChanges F z (afterFlash s) := by
  unfold afterFlash
  repeat' first
    | with_reducible assumption
    | (with_reducible apply ckptStep_frame)
    | (with_reducible apply askAll_frame)
    | (with_reducible apply turn_frame)
    | (with_reducible apply retryRound_frame)
    | (with_reducible apply settlePins_frame)
    | (with_reducible apply tryReloc_frame)
    | (with_reducible refine frame_foldl (fun x b hx => ?_) ?_)
    | (with_reducible refine frame_foldl_fst (fun x b hx => ?_) ?_)
    | (intro b; refine (fun (_ : OnlyChanges F z b) => ?_) ?_; clear_value b; swap; dsimp only [b]; swap)
    | (intro b; refine (fun (_ : OnlyChanges F z b.1) => ?_) ?_; clear_value b; swap; dsimp only [b]; swap)
    | (intro b; clear_value b)
    | intro b
    | lift_lets

theorem eraseLost_frame {id : Nat} {o : FOp} (hz : OnlyChanges F z s) (m16 : Part.map ∈ F) (m17 : Part.flash ∈ F) (m18 : Part.jrc ∈ F) : OnlyChanges F z (eraseLost s id o) := by
  unfold eraseLost
  repeat' first
    | with_reducible assumption
    | (with_reducible apply dropOp_frame)
    | (with_reducible apply noteEnded_frame)
    | (intro b; refine (fun (_ : OnlyChanges F z b) => ?_) ?_; clear_value b; swap; dsimp only [b]; swap)
    | (intro b; clear_value b)
    | intro b
    | lift_lets
    | split
    | dsimp only

theorem faultLun_frame {c : Nat} {p : Nat} (hz : OnlyChanges F z s) (m1 : Part.out ∈ F) (m2 : Part.clk ∈ F) (m3 : Part.regs ∈ F) (m4 : Part.portA ∈ F) (m5 : Part.portB ∈ F) (m6 : Part.evr ∈ F) (m14 : Part.dram ∈ F) (m15 : Part.phc ∈ F) (m16 : Part.map ∈ F) (m17 : Part.flash ∈ F) (m18 : Part.jrc ∈ F) (m19 : Part.srt ∈ F) (m21 : Part.pat ∈ F) (m22 : Part.mem ∈ F) : OnlyChanges F z (faultLun s c p) := by
  unfold faultLun
  repeat' first
    | with_reducible assumption
    | (with_reducible apply orReg_frame)
    | (with_reducible apply failPrograms_frame)
    | (with_reducible apply endLun_frame)
    | (with_reducible apply spaceUpdate_frame)
    | (with_reducible apply busFault_frame)
    | (with_reducible apply dropOp_frame)
    | (with_reducible apply eraseLost_frame)
    | (with_reducible refine frame_foldl (fun x b hx => ?_) ?_)
    | (with_reducible refine frame_foldl_fst (fun x b hx => ?_) ?_)
    | (intro b; refine (fun (_ : OnlyChanges F z b) => ?_) ?_; clear_value b; swap; dsimp only [b]; swap)
    | (intro b; refine (fun (_ : OnlyChanges F z b.1) => ?_) ?_; clear_value b; swap; dsimp only [b]; swap)
    | (intro b; clear_value b)
    | intro b
    | lift_lets
    | split
    | dsimp only

theorem programComplete_frame {id : Nat} {ok : Bool} (hz : OnlyChanges F z s) (m1 : Part.out ∈ F) (m2 : Part.clk ∈ F) (m3 : Part.regs ∈ F) (m4 : Part.portA ∈ F) (m5 : Part.portB ∈ F) (m6 : Part.evr ∈ F) (m14 : Part.dram ∈ F) (m15 : Part.phc ∈ F) (m16 : Part.map ∈ F) (m17 : Part.flash ∈ F) (m18 : Part.jrc ∈ F) (m19 : Part.srt ∈ F) (m20 : Part.prog ∈ F) (m21 : Part.pat ∈ F) (m22 : Part.mem ∈ F) : OnlyChanges F z (programComplete s id ok) := by
  unfold programComplete
  repeat' first
    | with_reducible assumption
    | (with_reducible apply afterFlash_frame)
    | (with_reducible apply programEnd_frame)
    | (with_reducible apply busDone_frame)
    | (with_reducible apply reclaimPace_frame)
    | (with_reducible apply earn_frame)
    | (with_reducible apply frame_ite)
    | (intro b; refine (fun (_ : OnlyChanges F z b) => ?_) ?_; clear_value b; swap; dsimp only [b]; swap)
    | (intro b; clear_value b)
    | intro b
    | lift_lets
    | split
    | dsimp only

theorem eraseFailed_frame {id : Nat} {o : FOp} {cause : Nat} (hz : OnlyChanges F z s) (m1 : Part.out ∈ F) (m3 : Part.regs ∈ F) (m4 : Part.portA ∈ F) (m5 : Part.portB ∈ F) (m6 : Part.evr ∈ F) (m16 : Part.map ∈ F) (m17 : Part.flash ∈ F) (m18 : Part.jrc ∈ F) (m20 : Part.prog ∈ F) : OnlyChanges F z (eraseFailed s id o cause) := by
  unfold eraseFailed
  repeat' first
    | with_reducible assumption
    | (with_reducible apply chnCauseSet_frame)
    | (with_reducible apply satAdd_frame)
    | (with_reducible apply dropOp_frame)
    | (with_reducible apply growBad_frame)
    | (with_reducible apply noteEnded_frame)
    | (with_reducible apply frame_ite)
    | (intro b; refine (fun (_ : OnlyChanges F z b) => ?_) ?_; clear_value b; swap; dsimp only [b]; swap)
    | (intro b; clear_value b)
    | intro b
    | lift_lets
    | split
    | (fail_if_no_progress with_reducible refine frame_upd ?_)
    | dsimp only

theorem wipeBlock_frame {lun : Nat} {block : Nat} (hz : OnlyChanges F z s) (m17 : Part.flash ∈ F) : OnlyChanges F z (wipeBlock s lun block) := by
  unfold wipeBlock
  repeat' first
    | with_reducible assumption
    | (with_reducible apply updFlash_frame)

theorem erased_frame {o : FOp} (hz : OnlyChanges F z s) (m16 : Part.map ∈ F) (m17 : Part.flash ∈ F) (m18 : Part.jrc ∈ F) : OnlyChanges F z (erased s o) := by
  unfold erased
  repeat' first
    | with_reducible assumption
    | (with_reducible apply wipeBlock_frame)
    | (with_reducible apply updTab_frame)
    | (with_reducible apply noteEnded_frame)
    | (with_reducible apply modSb_frame)
    | (with_reducible apply frame_ite)
    | (with_reducible apply frame_ite_fst)
    | (intro b; refine (fun (_ : OnlyChanges F z b) => ?_) ?_; clear_value b; swap; dsimp only [b]; swap)
    | (intro b; refine (fun (_ : OnlyChanges F z b.1) => ?_) ?_; clear_value b; swap; dsimp only [b]; swap)
    | (intro b; clear_value b)
    | intro b
    | lift_lets
    | split
    | dsimp only

theorem eraseComplete_frame {lun : Nat} {block : Nat} {ok : Bool} (hz : OnlyChanges F z s) (m1 : Part.out ∈ F) (m3 : Part.regs ∈ F) (m4 : Part.portA ∈ F) (m5 : Part.portB ∈ F) (m6 : Part.evr ∈ F) (m16 : Part.map ∈ F) (m17 : Part.flash ∈ F) (m18 : Part.jrc ∈ F) (m19 : Part.srt ∈ F) (m20 : Part.prog ∈ F) : OnlyChanges F z (eraseComplete s lun block ok) := by
  unfold eraseComplete
  repeat' first
    | with_reducible assumption
    | (with_reducible apply spaceUpdate_frame)
    | (with_reducible apply afterFlash_frame)
    | (with_reducible apply erased_frame)
    | (with_reducible apply dropOp_frame)
    | (with_reducible apply pump_frame)
    | (with_reducible apply modOp_frame)
    | (with_reducible apply eraseFailed_frame)
    | (with_reducible apply frame_ite)
    | split
    | (fail_if_no_progress with_reducible refine frame_upd ?_)
    | dsimp only

theorem suspend_frame {id : Nat} {k : FKind} (hz : OnlyChanges F z s) (m1 : Part.out ∈ F) (m3 : Part.regs ∈ F) (m4 : Part.portA ∈ F) (m5 : Part.portB ∈ F) (m6 : Part.evr ∈ F) (m17 : Part.flash ∈ F) : OnlyChanges F z (suspend s id k) := by
  unfold suspend
  repeat' first
    | with_reducible assumption
    | (with_reducible apply busDone_frame)
    | (with_reducible apply pump_frame)
    | (with_reducible apply modOp_frame)
    | (with_reducible apply frame_ite)
    | (intro b; refine (fun (_ : OnlyChanges F z b) => ?_) ?_; clear_value b; swap; dsimp only [b]; swap)
    | (intro b; clear_value b)
    | intro b
    | lift_lets
    | split
    | (fail_if_no_progress with_reducible refine frame_upd ?_)
    | dsimp only

theorem suspendResume_frame {id : Nat} {dwell : Bool} (hz : OnlyChanges F z s) (m1 : Part.out ∈ F) (m3 : Part.regs ∈ F) (m4 : Part.portA ∈ F) (m5 : Part.portB ∈ F) (m6 : Part.evr ∈ F) (m17 : Part.flash ∈ F) : OnlyChanges F z (suspendResume s id dwell) := by
  unfold suspendResume
  repeat' first
    | with_reducible assumption
    | (with_reducible apply pump_frame)
    | (with_reducible apply askResume_frame)
    | (with_reducible apply frame_ite)
    | (intro b; refine (fun (_ : OnlyChanges F z b) => ?_) ?_; clear_value b; swap; dsimp only [b]; swap)
    | (intro b; clear_value b)
    | intro b
    | lift_lets
    | split
    | dsimp only

theorem rdIAge_frame {id : Nat} (hz : OnlyChanges F z s) (m1 : Part.out ∈ F) (m3 : Part.regs ∈ F) (m4 : Part.portA ∈ F) (m5 : Part.portB ∈ F) (m6 : Part.evr ∈ F) (m17 : Part.flash ∈ F) : OnlyChanges F z (rdIAge s id) := by
  unfold rdIAge
  repeat' first
    | with_reducible assumption
    | (with_reducible apply pump_frame)
    | (with_reducible apply modOp_frame)
    | (with_reducible apply frame_ite)
    | split
    | (fail_if_no_progress with_reducible refine frame_upd ?_)
    | dsimp only

theorem lunTimeout_frame {id : Nat} {recent : Bool} (hz : OnlyChanges F z s) (m1 : Part.out ∈ F) (m2 : Part.clk ∈ F) (m3 : Part.regs ∈ F) (m4 : Part.portA ∈ F) (m5 : Part.portB ∈ F) (m6 : Part.evr ∈ F) (m14 : Part.dram ∈ F) (m15 : Part.phc ∈ F) (m16 : Part.map ∈ F) (m17 : Part.flash ∈ F) (m18 : Part.jrc ∈ F) (m19 : Part.srt ∈ F) (m20 : Part.prog ∈ F) (m21 : Part.pat ∈ F) (m22 : Part.mem ∈ F) : OnlyChanges F z (lunTimeout s id recent) := by
  unfold lunTimeout
  repeat' first
    | with_reducible assumption
    | (with_reducible apply modCourier_frame)
    | (with_reducible apply busDone_frame)
    | (with_reducible apply chnCausesSet_frame)
    | (with_reducible apply programEnd_frame)
    | (with_reducible apply growBad_frame)
    | (with_reducible apply eraseFailed_frame)
    | (with_reducible apply modOp_frame)
    | (with_reducible apply busFault_frame)
    | (with_reducible apply dropOp_frame)
    | (with_reducible apply faultLun_frame)
    | (with_reducible apply afterFlash_frame)
    | (with_reducible apply frame_ite)
    | (with_reducible apply frame_ite_fst)
    | (with_reducible refine frame_foldl (fun x b hx => ?_) ?_)
    | (with_reducible refine frame_foldl_fst (fun x b hx => ?_) ?_)
    | (intro b; refine (fun (_ : OnlyChanges F z b) => ?_) ?_; clear_value b; swap; dsimp only [b]; swap)
    | (intro b; refine (fun (_ : OnlyChanges F z b.1) => ?_) ?_; clear_value b; swap; dsimp only [b]; swap)
    | (intro b; clear_value b)
    | intro b
    | lift_lets
    | split
    | (fail_if_no_progress with_reducible refine frame_upd ?_)
    | dsimp only

theorem trainBegin_frame {c : Nat} {w : Nat} (hz : OnlyChanges F z s) (m3 : Part.regs ∈ F) (m17 : Part.flash ∈ F) : OnlyChanges F z (trainBegin s c w) := by
  unfold trainBegin
  repeat' first
    | with_reducible assumption
    | (with_reducible apply trig54_frame)
    | (with_reducible apply modCourier_frame)
    | (with_reducible apply frame_ite)
    | (intro b; refine (fun (_ : OnlyChanges F z b) => ?_) ?_; clear_value b; swap; dsimp only [b]; swap)
    | (intro b; clear_value b)
    | intro b
    | lift_lets
    | split
    | (fail_if_no_progress with_reducible refine frame_upd ?_)

theorem train_frame {c : Nat} {w : Nat} (hz : OnlyChanges F z s) (m3 : Part.regs ∈ F) (m17 : Part.flash ∈ F) : OnlyChanges F z (train s c w) := by
  unfold train
  repeat' first
    | with_reducible assumption
    | (with_reducible apply trig54_frame)
    | (with_reducible apply trainBegin_frame)
    | (with_reducible apply modCourier_frame)
    | (with_reducible apply frame_ite)
    | (intro b; refine (fun (_ : OnlyChanges F z b) => ?_) ?_; clear_value b; swap; dsimp only [b]; swap)
    | (with_reducible apply hfn)
    | (intro b; refine (fun (hfn : ∀ x, OnlyChanges F z x → OnlyChanges F z (b x)) => ?_) ?_; clear_value b; swap; (intro x hx; dsimp only [b]); swap)
    | (intro b; refine (fun (hfn : ∀ x y, OnlyChanges F z x → OnlyChanges F z (b x y)) => ?_) ?_; clear_value b; swap; (intro x y hx; dsimp only [b]); swap)
    | (with_reducible apply hfc)
    | (with_reducible apply hfd)
    | (intro b; refine (fun (hfc : ∀ x, OnlyChanges F z (b x)) => ?_) ?_; clear_value b; swap; (intro x; dsimp only [b]); swap)
    | (intro b; refine (fun (hfd : ∀ x y, OnlyChanges F z (b x y)) => ?_) ?_; clear_value b; swap; (intro x y; dsimp only [b]); swap)
    | (intro b; clear_value b)
    | intro b
    | lift_lets
    | split
    | (fail_if_no_progress with_reducible refine frame_upd ?_)

theorem trainNext_frame {d : Nat} (hz : OnlyChanges F z s) (m3 : Part.regs ∈ F) (m17 : Part.flash ∈ F) : OnlyChanges F z (trainNext s d) := by
  unfold trainNext
  repeat' first
    | with_reducible assumption
    | (with_reducible apply trainBegin_frame)
    | (with_reducible apply frame_ite)
    | split
    | dsimp only

theorem trainStart_frame {c : Nat} (hz : OnlyChanges F z s) (m3 : Part.regs ∈ F) (m17 : Part.flash ∈ F) : OnlyChanges F z (trainStart s c) := by
  unfold trainStart
  repeat' first
    | with_reducible assumption
    | (with_reducible apply train_frame)

theorem bandTrain_frame (hz : OnlyChanges F z s) (m3 : Part.regs ∈ F) (m17 : Part.flash ∈ F) : OnlyChanges F z (bandTrain s) := by
  unfold bandTrain
  repeat' first
    | with_reducible assumption
    | (with_reducible apply train_frame)
    | (with_reducible apply frame_ite)
    | (with_reducible refine frame_foldl (fun x b hx => ?_) ?_)
    | split

theorem trainEnabled_frame {c : Nat} (hz : OnlyChanges F z s) (m3 : Part.regs ∈ F) (m17 : Part.flash ∈ F) : OnlyChanges F z (trainEnabled s c) := by
  unfold trainEnabled
  repeat' first
    | with_reducible assumption
    | (with_reducible apply train_frame)
    | (with_reducible apply frame_ite)
    | (intro b; refine (fun (_ : OnlyChanges F z b) => ?_) ?_; clear_value b; swap; dsimp only [b]; swap)
    | (intro b; clear_value b)
    | intro b
    | lift_lets
    | split

theorem trainEnd_frame {c : Nat} {kind : Nat} {eyes : List (Nat × Nat)} {failed : List Nat} (hz : OnlyChanges F z s) (m1 : Part.out ∈ F) (m2 : Part.clk ∈ F) (m3 : Part.regs ∈ F) (m4 : Part.portA ∈ F) (m5 : Part.portB ∈ F) (m6 : Part.evr ∈ F) (m14 : Part.dram ∈ F) (m15 : Part.phc ∈ F) (m16 : Part.map ∈ F) (m17 : Part.flash ∈ F) (m18 : Part.jrc ∈ F) (m19 : Part.srt ∈ F) (m21 : Part.pat ∈ F) (m22 : Part.mem ∈ F) : OnlyChanges F z (trainEnd s c kind eyes failed) := by
  unfold trainEnd
  repeat' first
    | with_reducible assumption
    | (with_reducible apply wr_frame)
    | (with_reducible apply modCourier_frame)
    | (with_reducible apply chnCausesSet_frame)
    | (with_reducible apply faultLun_frame)
    | (with_reducible apply frame_ite)
    | (with_reducible apply frame_ite_fst)
    | (with_reducible refine frame_foldl (fun x b hx => ?_) ?_)
    | (with_reducible refine frame_foldl_fst (fun x b hx => ?_) ?_)
    | (intro b; refine (fun (_ : OnlyChanges F z b) => ?_) ?_; clear_value b; swap; dsimp only [b]; swap)
    | (intro b; refine (fun (_ : OnlyChanges F z b.1) => ?_) ?_; clear_value b; swap; dsimp only [b]; swap)
    | (intro b; clear_value b)
    | intro b
    | lift_lets
    | split
    | (fail_if_no_progress with_reducible refine frame_upd ?_)
    | dsimp only

theorem trainingDone_frame {c : Nat} {eyes : List (Nat × Nat)} {failed : List Nat} (hz : OnlyChanges F z s) (m1 : Part.out ∈ F) (m2 : Part.clk ∈ F) (m3 : Part.regs ∈ F) (m4 : Part.portA ∈ F) (m5 : Part.portB ∈ F) (m6 : Part.evr ∈ F) (m14 : Part.dram ∈ F) (m15 : Part.phc ∈ F) (m16 : Part.map ∈ F) (m17 : Part.flash ∈ F) (m18 : Part.jrc ∈ F) (m19 : Part.srt ∈ F) (m20 : Part.prog ∈ F) (m21 : Part.pat ∈ F) (m22 : Part.mem ∈ F) : OnlyChanges F z (trainingDone s c eyes failed) := by
  unfold trainingDone
  repeat' first
    | with_reducible assumption
    | (with_reducible apply modCourier_frame)
    | (with_reducible apply afterFlash_frame)
    | (with_reducible apply trainNext_frame)
    | (with_reducible apply trainEnd_frame)
    | (with_reducible apply frame_ite)
    | (with_reducible apply frame_ite_fst)
    | split
    | (fail_if_no_progress with_reducible refine frame_upd ?_)
    | dsimp only

theorem courierReset_frame {c : Nat} (hz : OnlyChanges F z s) (m1 : Part.out ∈ F) (m2 : Part.clk ∈ F) (m3 : Part.regs ∈ F) (m4 : Part.portA ∈ F) (m5 : Part.portB ∈ F) (m6 : Part.evr ∈ F) (m9 : Part.chip ∈ F) (m16 : Part.map ∈ F) (m17 : Part.flash ∈ F) (m18 : Part.jrc ∈ F) : OnlyChanges F z (courierReset s c) := by
  unfold courierReset
  repeat' first
    | with_reducible assumption
    | (with_reducible apply updChip_frame)
    | (with_reducible apply modCourier_frame)
    | (with_reducible apply wr_frame)
    | (with_reducible apply programEnd_frame)
    | (with_reducible apply modOp_frame)
    | (with_reducible apply trainNext_frame)
    | (with_reducible apply frame_ite)
    | (with_reducible apply frame_ite_fst)
    | (with_reducible refine frame_foldl (fun x b hx => ?_) ?_)
    | (with_reducible refine frame_foldl_fst (fun x b hx => ?_) ?_)
    | (intro b; refine (fun (_ : OnlyChanges F z b) => ?_) ?_; clear_value b; swap; dsimp only [b]; swap)
    | (intro b; refine (fun (_ : OnlyChanges F z b.1) => ?_) ?_; clear_value b; swap; dsimp only [b]; swap)
    | (intro b; clear_value b)
    | intro b
    | lift_lets
    | split
    | (fail_if_no_progress with_reducible refine frame_upd ?_)
    | dsimp only

theorem reissueErases_frame {lun : Nat} (hz : OnlyChanges F z s) (m17 : Part.flash ∈ F) : OnlyChanges F z (reissueErases s lun) := by
  unfold reissueErases
  repeat' first
    | with_reducible assumption
    | (with_reducible apply addOp_frame)
    | (with_reducible apply frame_ite)
    | (with_reducible apply frame_ite_fst)
    | (with_reducible refine frame_foldl (fun x b hx => ?_) ?_)
    | (with_reducible refine frame_foldl_fst (fun x b hx => ?_) ?_)
    | (intro b; refine (fun (_ : OnlyChanges F z b) => ?_) ?_; clear_value b; swap; dsimp only [b]; swap)
    | (intro b; refine (fun (_ : OnlyChanges F z b.1) => ?_) ?_; clear_value b; swap; dsimp only [b]; swap)
    | (intro b; clear_value b)
    | intro b
    | lift_lets
    | split

theorem identify1_frame {answers : List (Nat × Bool)} {c : Nat} {p : Nat} (hz : OnlyChanges F z s) (m1 : Part.out ∈ F) (m3 : Part.regs ∈ F) (m4 : Part.portA ∈ F) (m5 : Part.portB ∈ F) (m6 : Part.evr ∈ F) (m17 : Part.flash ∈ F) : OnlyChanges F z (identify1 answers c s p) := by
  unfold identify1
  repeat' first
    | with_reducible assumption
    | (with_reducible apply orReg_frame)
    | (with_reducible apply updFlash_frame)
    | (with_reducible apply chnCauseSet_frame)
    | (with_reducible apply frame_ite)
    | (with_reducible apply frame_ite_fst)
    | (intro b; refine (fun (_ : OnlyChanges F z b) => ?_) ?_; clear_value b; swap; dsimp only [b]; swap)
    | (intro b; refine (fun (_ : OnlyChanges F z b.1) => ?_) ?_; clear_value b; swap; dsimp only [b]; swap)
    | (intro b; clear_value b)
    | intro b
    | lift_lets
    | split
    | dsimp only

theorem courierResetDone_frame {c : Nat} {answers : List (Nat × Bool)} {eyes : List (Nat × Nat)} {failedCe : List Nat} {verified : Bool} (hz : OnlyChanges F z s) (m1 : Part.out ∈ F) (m2 : Part.clk ∈ F) (m3 : Part.regs ∈ F) (m4 : Part.portA ∈ F) (m5 : Part.portB ∈ F) (m6 : Part.evr ∈ F) (m9 : Part.chip ∈ F) (m14 : Part.dram ∈ F) (m15 : Part.phc ∈ F) (m16 : Part.map ∈ F) (m17 : Part.flash ∈ F) (m18 : Part.jrc ∈ F) (m19 : Part.srt ∈ F) (m20 : Part.prog ∈ F) (m21 : Part.pat ∈ F) (m22 : Part.mem ∈ F) : OnlyChanges F z (courierResetDone s c answers eyes failedCe verified) := by
  unfold courierResetDone
  repeat' first
    | with_reducible assumption
    | (with_reducible apply identify1_frame)
    | (with_reducible apply wr_frame)
    | (with_reducible apply modCourier_frame)
    | (with_reducible apply trig54_frame)
    | (with_reducible apply trainEnd_frame)
    | (with_reducible apply updChip_frame)
    | (with_reducible apply setActive_frame)
    | (with_reducible apply reissueErases_frame)
    | (with_reducible apply faultLun_frame)
    | (with_reducible apply afterFlash_frame)
    | (with_reducible apply chnCauseSet_frame)
    | (with_reducible apply frame_ite)
    | (with_reducible apply frame_ite_fst)
    | (with_reducible refine frame_foldl (fun x b hx => ?_) ?_)
    | (with_reducible refine frame_foldl_fst (fun x b hx => ?_) ?_)
    | (intro b; refine (fun (_ : OnlyChanges F z b) => ?_) ?_; clear_value b; swap; dsimp only [b]; swap)
    | (intro b; refine (fun (_ : OnlyChanges F z b.1) => ?_) ?_; clear_value b; swap; dsimp only [b]; swap)
    | (intro b; clear_value b)
    | intro b
    | lift_lets
    | split
    | (fail_if_no_progress with_reducible refine frame_upd ?_)

theorem snapCmd_frame {c : Nat} {v : Nat} (hz : OnlyChanges F z s) (m1 : Part.out ∈ F) (m3 : Part.regs ∈ F) (m4 : Part.portA ∈ F) (m5 : Part.portB ∈ F) (m6 : Part.evr ∈ F) (m17 : Part.flash ∈ F) : OnlyChanges F z (snapCmd s c v) := by
  unfold snapCmd
  repeat' first
    | with_reducible assumption
    | (with_reducible apply modCourier_frame)
    | (with_reducible apply snapCapture_frame)
    | (with_reducible apply frame_ite)
    | (intro b; refine (fun (_ : OnlyChanges F z b) => ?_) ?_; clear_value b; swap; dsimp only [b]; swap)
    | (intro b; clear_value b)
    | intro b
    | lift_lets
    | split
    | (fail_if_no_progress with_reducible refine frame_upd ?_)

theorem lifeTick_frame (hz : OnlyChanges F z s) (m16 : Part.map ∈ F) : OnlyChanges F z (lifeTick s) := by
  unfold lifeTick
  repeat' first
    | with_reducible assumption
    | (with_reducible apply updMap_frame)
    | (with_reducible apply frame_ite)
    | split

theorem catchup_frame (hz : OnlyChanges F z s) (m1 : Part.out ∈ F) (m3 : Part.regs ∈ F) (m4 : Part.portA ∈ F) (m5 : Part.portB ∈ F) (m6 : Part.evr ∈ F) : OnlyChanges F z (catchup s) := by
  unfold catchup
  repeat' first
    | with_reducible assumption
    | (with_reducible apply setCause_frame)
    | (with_reducible apply orReg_frame)
    | (with_reducible apply wrField_frame)
    | (with_reducible apply frame_ite)
    | (with_reducible apply frame_ite_fst)
    | (intro b; refine (fun (_ : OnlyChanges F z b) => ?_) ?_; clear_value b; swap; dsimp only [b]; swap)
    | (intro b; refine (fun (_ : OnlyChanges F z b.1) => ?_) ?_; clear_value b; swap; dsimp only [b]; swap)
    | (intro b; clear_value b)
    | intro b
    | lift_lets
    | split

theorem choose_frame (hz : OnlyChanges F z s) (m1 : Part.out ∈ F) (m3 : Part.regs ∈ F) (m4 : Part.portA ∈ F) (m5 : Part.portB ∈ F) (m6 : Part.evr ∈ F) (m21 : Part.pat ∈ F) : OnlyChanges F z (choose s) := by
  unfold choose
  repeat' first
    | with_reducible assumption
    | (with_reducible apply catchup_frame)
    | (with_reducible apply updPat_frame)
    | (with_reducible apply frame_ite)
    | (with_reducible apply frame_ite_fst)
    | (with_reducible refine frame_foldl (fun x b hx => ?_) ?_)
    | (with_reducible refine frame_foldl_fst (fun x b hx => ?_) ?_)
    | (intro b; refine (fun (_ : OnlyChanges F z b) => ?_) ?_; clear_value b; swap; dsimp only [b]; swap)
    | (intro b; refine (fun (_ : OnlyChanges F z b.1) => ?_) ?_; clear_value b; swap; dsimp only [b]; swap)
    | (intro b; clear_value b)
    | intro b
    | lift_lets
    | split
    | dsimp only

theorem endVisit_frame {x : Nat} (hz : OnlyChanges F z s) (m1 : Part.out ∈ F) (m3 : Part.regs ∈ F) (m4 : Part.portA ∈ F) (m5 : Part.portB ∈ F) (m6 : Part.evr ∈ F) (m21 : Part.pat ∈ F) : OnlyChanges F z (endVisit s x) := by
  unfold endVisit
  repeat' first
    | with_reducible assumption
    | (with_reducible apply choose_frame)
    | (with_reducible apply updPat_frame)

theorem visitOver_frame (hz : OnlyChanges F z s) (m1 : Part.out ∈ F) (m3 : Part.regs ∈ F) (m4 : Part.portA ∈ F) (m5 : Part.portB ∈ F) (m6 : Part.evr ∈ F) (m21 : Part.pat ∈ F) : OnlyChanges F z (visitOver s) := by
  unfold visitOver
  repeat' first
    | with_reducible assumption
    | (with_reducible apply endVisit_frame)
    | (with_reducible apply frame_ite)
    | split
    | dsimp only

theorem patIssue_frame (hz : OnlyChanges F z s) (m1 : Part.out ∈ F) (m2 : Part.clk ∈ F) (m3 : Part.regs ∈ F) (m4 : Part.portA ∈ F) (m5 : Part.portB ∈ F) (m6 : Part.evr ∈ F) (m14 : Part.dram ∈ F) (m15 : Part.phc ∈ F) (m16 : Part.map ∈ F) (m17 : Part.flash ∈ F) (m18 : Part.jrc ∈ F) (m21 : Part.pat ∈ F) (m22 : Part.mem ∈ F) : OnlyChanges F z (patIssue s) := by
  unfold patIssue
  repeat' first
    | with_reducible assumption
    | (with_reducible apply visitOver_frame)
    | (with_reducible apply updPat_frame)
    | (with_reducible apply pin_frame)
    | (with_reducible apply pump_frame)
    | (with_reducible apply addReads_frame)
    | (with_reducible apply frame_ite)
    | (intro b; refine (fun (_ : OnlyChanges F z b) => ?_) ?_; clear_value b; swap; dsimp only [b]; swap)
    | (intro b; clear_value b)
    | intro b
    | lift_lets
    | split
    | dsimp only

theorem patGo_frame (hz : OnlyChanges F z s) (m1 : Part.out ∈ F) (m2 : Part.clk ∈ F) (m3 : Part.regs ∈ F) (m4 : Part.portA ∈ F) (m5 : Part.portB ∈ F) (m6 : Part.evr ∈ F) (m14 : Part.dram ∈ F) (m15 : Part.phc ∈ F) (m16 : Part.map ∈ F) (m17 : Part.flash ∈ F) (m18 : Part.jrc ∈ F) (m21 : Part.pat ∈ F) (m22 : Part.mem ∈ F) : OnlyChanges F z (patGo s) := by
  unfold patGo
  repeat' first
    | with_reducible assumption
    | (with_reducible apply patIssue_frame)
    | (with_reducible apply frame_ite)
    | split

theorem rescan_frame (hz : OnlyChanges F z s) (m1 : Part.out ∈ F) (m2 : Part.clk ∈ F) (m3 : Part.regs ∈ F) (m4 : Part.portA ∈ F) (m5 : Part.portB ∈ F) (m6 : Part.evr ∈ F) (m14 : Part.dram ∈ F) (m15 : Part.phc ∈ F) (m16 : Part.map ∈ F) (m17 : Part.flash ∈ F) (m18 : Part.jrc ∈ F) (m21 : Part.pat ∈ F) (m22 : Part.mem ∈ F) : OnlyChanges F z (rescan s) := by
  unfold rescan
  repeat' first
    | with_reducible assumption
    | (with_reducible apply patGo_frame)
    | (with_reducible apply choose_frame)
    | (with_reducible apply visitOver_frame)

theorem floorPace_frame (hz : OnlyChanges F z s) (m1 : Part.out ∈ F) (m2 : Part.clk ∈ F) (m3 : Part.regs ∈ F) (m4 : Part.portA ∈ F) (m5 : Part.portB ∈ F) (m6 : Part.evr ∈ F) (m14 : Part.dram ∈ F) (m15 : Part.phc ∈ F) (m16 : Part.map ∈ F) (m17 : Part.flash ∈ F) (m18 : Part.jrc ∈ F) (m21 : Part.pat ∈ F) (m22 : Part.mem ∈ F) : OnlyChanges F z (floorPace s) := by
  unfold floorPace
  repeat' first
    | with_reducible assumption
    | (with_reducible apply patIssue_frame)
    | (with_reducible apply frame_ite)
    | split

theorem tageTick_frame (hz : OnlyChanges F z s) (m1 : Part.out ∈ F) (m2 : Part.clk ∈ F) (m3 : Part.regs ∈ F) (m4 : Part.portA ∈ F) (m5 : Part.portB ∈ F) (m6 : Part.evr ∈ F) (m14 : Part.dram ∈ F) (m15 : Part.phc ∈ F) (m16 : Part.map ∈ F) (m17 : Part.flash ∈ F) (m18 : Part.jrc ∈ F) (m21 : Part.pat ∈ F) (m22 : Part.mem ∈ F) : OnlyChanges F z (tageTick s) := by
  unfold tageTick
  repeat' first
    | with_reducible assumption
    | (with_reducible apply patGo_frame)
    | (with_reducible apply catchup_frame)
    | (with_reducible apply updPat_frame)
    | (with_reducible apply frame_ite)
    | (intro b; refine (fun (_ : OnlyChanges F z b) => ?_) ?_; clear_value b; swap; dsimp only [b]; swap)
    | (intro b; clear_value b)
    | intro b
    | lift_lets
    | split

theorem refreshPages_frame {ps : List Nat} (hz : OnlyChanges F z s) (m3 : Part.regs ∈ F) (m16 : Part.map ∈ F) : OnlyChanges F z (refreshPages s ps) := by
  unfold refreshPages
  repeat' first
    | with_reducible assumption
    | (with_reducible apply refreshAdd_frame)
    | (with_reducible refine frame_foldl (fun x b hx => ?_) ?_)

theorem verdict_frame {b : Sb} {c : PatRead} (hz : OnlyChanges F z s) (m1 : Part.out ∈ F) (m3 : Part.regs ∈ F) (m4 : Part.portA ∈ F) (m5 : Part.portB ∈ F) (m6 : Part.evr ∈ F) (m16 : Part.map ∈ F) : OnlyChanges F z (verdict s b c) := by
  unfold verdict
  repeat' first
    | with_reducible assumption
    | (with_reducible apply satAdd_frame)
    | (with_reducible apply setCause_frame)
    | (with_reducible apply refreshPages_frame)
    | (with_reducible apply frame_ite)
    | (intro b; refine (fun (_ : OnlyChanges F z b) => ?_) ?_; clear_value b; swap; dsimp only [b]; swap)
    | (with_reducible apply hfn)
    | (intro b; refine (fun (hfn : ∀ x, OnlyChanges F z x → OnlyChanges F z (b x)) => ?_) ?_; clear_value b; swap; (intro x hx; dsimp only [b]); swap)
    | (intro b; refine (fun (hfn : ∀ x y, OnlyChanges F z x → OnlyChanges F z (b x y)) => ?_) ?_; clear_value b; swap; (intro x y hx; dsimp only [b]); swap)
    | (with_reducible apply hfc)
    | (with_reducible apply hfd)
    | (intro b; refine (fun (hfc : ∀ x, OnlyChanges F z (b x)) => ?_) ?_; clear_value b; swap; (intro x; dsimp only [b]); swap)
    | (intro b; refine (fun (hfd : ∀ x y, OnlyChanges F z (b x y)) => ?_) ?_; clear_value b; swap; (intro x y; dsimp only [b]); swap)
    | (intro b; clear_value b)
    | intro b
    | lift_lets
    | split

theorem visitStep_frame {c : PatRead} {b : Sb} (hz : OnlyChanges F z s) (m1 : Part.out ∈ F) (m3 : Part.regs ∈ F) (m4 : Part.portA ∈ F) (m5 : Part.portB ∈ F) (m6 : Part.evr ∈ F) (m21 : Part.pat ∈ F) : OnlyChanges F z (visitStep s c b) := by
  unfold visitStep
  repeat' first
    | with_reducible assumption
    | (with_reducible apply updPat_frame)
    | (with_reducible apply endVisit_frame)
    | (with_reducible apply frame_ite)
    | (with_reducible apply frame_ite_fst)
    | (intro b; refine (fun (_ : OnlyChanges F z b) => ?_) ?_; clear_value b; swap; dsimp only [b]; swap)
    | (intro b; refine (fun (_ : OnlyChanges F z b.1) => ?_) ?_; clear_value b; swap; dsimp only [b]; swap)
    | (intro b; clear_value b)
    | intro b
    | lift_lets
    | split
    | dsimp only

theorem patrolReadDone_frame {x : Nat} {m : Nat} {r : Nat} {found : Nat × Nat × Nat × List Nat} (hz : OnlyChanges F z s) (m1 : Part.out ∈ F) (m2 : Part.clk ∈ F) (m3 : Part.regs ∈ F) (m4 : Part.portA ∈ F) (m5 : Part.portB ∈ F) (m6 : Part.evr ∈ F) (m14 : Part.dram ∈ F) (m15 : Part.phc ∈ F) (m16 : Part.map ∈ F) (m17 : Part.flash ∈ F) (m18 : Part.jrc ∈ F) (m21 : Part.pat ∈ F) (m22 : Part.mem ∈ F) : OnlyChanges F z (patrolReadDone s x m r found) := by
  unfold patrolReadDone
  repeat' first
    | with_reducible assumption
    | (with_reducible apply unpin_frame)
    | (with_reducible apply updPat_frame)
    | (with_reducible apply setCause_frame)
    | (with_reducible apply verdict_frame)
    | (with_reducible apply patGo_frame)
    | (with_reducible apply visitStep_frame)
    | (with_reducible apply frame_ite)
    | (with_reducible apply frame_ite_fst)
    | (intro b; refine (fun (_ : OnlyChanges F z b) => ?_) ?_; clear_value b; swap; dsimp only [b]; swap)
    | (intro b; refine (fun (_ : OnlyChanges F z b.1) => ?_) ?_; clear_value b; swap; dsimp only [b]; swap)
    | (intro b; clear_value b)
    | intro b
    | lift_lets
    | split
    | dsimp only

theorem ownerSearch_frame {count : Nat} {list : List (Ppa × Bool)} (hz : OnlyChanges F z s) (m3 : Part.regs ∈ F) (m21 : Part.pat ∈ F) : OnlyChanges F z (ownerSearch s count list) := by
  unfold ownerSearch
  repeat' first
    | with_reducible assumption
    | (with_reducible apply trig54_frame)
    | (with_reducible apply updPat_frame)
    | (with_reducible apply orReg_frame)
    | (intro b; refine (fun (_ : OnlyChanges F z b) => ?_) ?_; clear_value b; swap; dsimp only [b]; swap)
    | (intro b; refine (fun (_ : OnlyChanges F z b.1) => ?_) ?_; clear_value b; swap; dsimp only [b]; swap)
    | (intro b; clear_value b)
    | intro b
    | lift_lets

theorem markFound_frame {rs : List (Nat × Nat × Nat × Nat)} {lost : List (Nat × Nat × Nat)} {g : Nat} {n : Nat} (hz : OnlyChanges F z s) (m1 : Part.out ∈ F) (m3 : Part.regs ∈ F) (m4 : Part.portA ∈ F) (m5 : Part.portB ∈ F) (m6 : Part.evr ∈ F) (m15 : Part.phc ∈ F) (m16 : Part.map ∈ F) (m17 : Part.flash ∈ F) (m18 : Part.jrc ∈ F) (m21 : Part.pat ∈ F) : OnlyChanges F z (markFound s rs lost g n) := by
  unfold markFound
  repeat' first
    | with_reducible assumption
    | (with_reducible apply markDead_frame)
    | (with_reducible apply frame_ite)
    | (with_reducible apply frame_ite_fst)
    | (with_reducible refine frame_foldl (fun x b hx => ?_) ?_)
    | (with_reducible refine frame_foldl_fst (fun x b hx => ?_) ?_)
    | (intro b; refine (fun (_ : OnlyChanges F z b) => ?_) ?_; clear_value b; swap; dsimp only [b]; swap)
    | (intro b; refine (fun (_ : OnlyChanges F z b.1) => ?_) ?_; clear_value b; swap; dsimp only [b]; swap)
    | (intro b; clear_value b)
    | intro b
    | lift_lets
    | split
    | dsimp only

theorem ownerSearchDone_frame (hz : OnlyChanges F z s) (m1 : Part.out ∈ F) (m2 : Part.clk ∈ F) (m3 : Part.regs ∈ F) (m4 : Part.portA ∈ F) (m5 : Part.portB ∈ F) (m6 : Part.evr ∈ F) (m14 : Part.dram ∈ F) (m15 : Part.phc ∈ F) (m16 : Part.map ∈ F) (m17 : Part.flash ∈ F) (m18 : Part.jrc ∈ F) (m21 : Part.pat ∈ F) (m22 : Part.mem ∈ F) : OnlyChanges F z (ownerSearchDone s) := by
  unfold ownerSearchDone
  repeat' first
    | with_reducible assumption
    | (with_reducible apply directWrite_frame)
    | (with_reducible apply wrField_frame)
    | (with_reducible apply updPat_frame)
    | (with_reducible apply setCause_frame)
    | (with_reducible apply corruptAny_frame)
    | (with_reducible apply markFound_frame)
    | (with_reducible refine frame_foldl (fun x b hx => ?_) ?_)
    | (with_reducible refine frame_foldl_fst (fun x b hx => ?_) ?_)
    | (intro b; refine (fun (_ : OnlyChanges F z b) => ?_) ?_; clear_value b; swap; dsimp only [b]; swap)
    | (intro b; refine (fun (_ : OnlyChanges F z b.1) => ?_) ?_; clear_value b; swap; dsimp only [b]; swap)
    | (intro b; clear_value b)
    | intro b
    | lift_lets
    | split
    | dsimp only

theorem replyBytes_frame {q : Sqe} {b : List Byte} (hz : OnlyChanges F z s) (m1 : Part.out ∈ F) : OnlyChanges F z (replyBytes s q b) := by
  unfold replyBytes
  repeat' first
    | with_reducible assumption
    | (with_reducible apply emit_frame)

theorem reply_frame {q : Sqe} {size : Nat} {fields : List (Nat × Nat × Nat)} (hz : OnlyChanges F z s) (m1 : Part.out ∈ F) : OnlyChanges F z (reply s q size fields) := by
  unfold reply
  repeat' first
    | with_reducible assumption
    | (with_reducible apply replyBytes_frame)

theorem scrubNext_frame (hz : OnlyChanges F z s) (m3 : Part.regs ∈ F) (m19 : Part.srt ∈ F) (m22 : Part.mem ∈ F) : OnlyChanges F z (scrubNext s) := by
  unfold scrubNext
  repeat' first
    | with_reducible assumption
    | (with_reducible apply modCmd_frame)
    | (with_reducible apply scrubStart_frame)
    | (with_reducible apply updMem_frame)
    | split
    | dsimp only

theorem scrubCommand_frame {body : Instr} {q : Sqe} {mem : Nat} {unit : Nat} {rate : Nat} {base : Nat} {len : Nat} (hz : OnlyChanges F z s) (m1 : Part.out ∈ F) (m3 : Part.regs ∈ F) (m4 : Part.portA ∈ F) (m5 : Part.portB ∈ F) (m6 : Part.evr ∈ F) (m19 : Part.srt ∈ F) (m22 : Part.mem ∈ F) : OnlyChanges F z (scrubCommand s body q mem unit rate base len) := by
  unfold scrubCommand
  repeat' first
    | with_reducible assumption
    | (with_reducible apply takeAdmin_frame)
    | (with_reducible apply complete_frame)
    | (with_reducible apply scrubNext_frame)
    | (with_reducible apply updMem_frame)
    | (with_reducible apply firmwareCmd_frame)
    | (with_reducible apply frame_ite)
    | (intro b; refine (fun (_ : OnlyChanges F z b) => ?_) ?_; clear_value b; swap; dsimp only [b]; swap)
    | (intro b; clear_value b)
    | intro b
    | lift_lets
    | split

theorem scrubCache_frame {unit : Nat} {corrected : Bool} (hz : OnlyChanges F z s) (m1 : Part.out ∈ F) (m2 : Part.clk ∈ F) (m3 : Part.regs ∈ F) (m4 : Part.portA ∈ F) (m5 : Part.portB ∈ F) (m6 : Part.evr ∈ F) (m14 : Part.dram ∈ F) (m15 : Part.phc ∈ F) (m22 : Part.mem ∈ F) : OnlyChanges F z (scrubCache s unit corrected) := by
  unfold scrubCache
  repeat' first
    | with_reducible assumption
    | (with_reducible apply freshBelow_frame)
    | (with_reducible apply wayError_frame)
    | (with_reducible apply phcError_frame)
    | (with_reducible apply frame_ite)
    | (with_reducible apply frame_ite_fst)
    | (intro b; refine (fun (_ : OnlyChanges F z b) => ?_) ?_; clear_value b; swap; dsimp only [b]; swap)
    | (intro b; refine (fun (_ : OnlyChanges F z b.1) => ?_) ?_; clear_value b; swap; dsimp only [b]; swap)
    | (intro b; clear_value b)
    | intro b
    | lift_lets
    | split
    | (refine frame_of_eq (by assumption) ?_)
    | dsimp only

theorem sealError_frame (hz : OnlyChanges F z s) (m1 : Part.out ∈ F) (m2 : Part.clk ∈ F) (m3 : Part.regs ∈ F) (m4 : Part.portA ∈ F) (m5 : Part.portB ∈ F) (m6 : Part.evr ∈ F) (m16 : Part.map ∈ F) (m17 : Part.flash ∈ F) (m18 : Part.jrc ∈ F) : OnlyChanges F z (sealError s) := by
  unfold sealError
  repeat' first
    | with_reducible assumption
    | (with_reducible apply freshBelow_frame)
    | (with_reducible apply modOpen_frame)
    | (with_reducible apply turn_frame)
    | (with_reducible apply closeEarly_frame)
    | (with_reducible apply strCauseSet_frame)
    | (intro b; refine (fun (_ : OnlyChanges F z b) => ?_) ?_; clear_value b; swap; dsimp only [b]; swap)
    | (intro b; refine (fun (_ : OnlyChanges F z b.1) => ?_) ?_; clear_value b; swap; dsimp only [b]; swap)
    | (intro b; clear_value b)
    | intro b
    | lift_lets
    | split
    | (refine frame_of_eq (by assumption) ?_)
    | dsimp only

theorem stagingError_frame {d : Nat} (hz : OnlyChanges F z s) (m1 : Part.out ∈ F) (m2 : Part.clk ∈ F) (m3 : Part.regs ∈ F) (m4 : Part.portA ∈ F) (m5 : Part.portB ∈ F) (m6 : Part.evr ∈ F) (m14 : Part.dram ∈ F) (m15 : Part.phc ∈ F) (m17 : Part.flash ∈ F) (m18 : Part.jrc ∈ F) (m21 : Part.pat ∈ F) (m22 : Part.mem ∈ F) : OnlyChanges F z (stagingError s d) := by
  unfold stagingError
  repeat' first
    | with_reducible assumption
    | (with_reducible apply freshBelow_frame)
    | (with_reducible apply pump_frame)
    | (with_reducible apply addStepRead_frame)
    | (with_reducible apply modLad_frame)
    | (intro b; refine (fun (_ : OnlyChanges F z b) => ?_) ?_; clear_value b; swap; dsimp only [b]; swap)
    | (intro b; refine (fun (_ : OnlyChanges F z b.1) => ?_) ?_; clear_value b; swap; dsimp only [b]; swap)
    | (intro b; clear_value b)
    | intro b
    | lift_lets
    | split
    | (refine frame_of_eq (by assumption) ?_)
    | dsimp only

theorem coreError_frame (hz : OnlyChanges F z s) (m2 : Part.clk ∈ F) (m9 : Part.chip ∈ F) : OnlyChanges F z (coreError s) := by
  unfold coreError
  repeat' first
    | with_reducible assumption
    | (with_reducible apply freshBelow_frame)
    | (with_reducible apply updChip_frame)
    | (with_reducible apply frame_ite)
    | (with_reducible apply frame_ite_fst)
    | (intro b; refine (fun (_ : OnlyChanges F z b) => ?_) ?_; clear_value b; swap; dsimp only [b]; swap)
    | (intro b; refine (fun (_ : OnlyChanges F z b.1) => ?_) ?_; clear_value b; swap; dsimp only [b]; swap)
    | (intro b; clear_value b)
    | intro b
    | lift_lets
    | split
    | (refine frame_of_eq (by assumption) ?_)
    | dsimp only

theorem scrubLost_frame {mem : Nat} {unit : Nat} {addr : Nat} (hz : OnlyChanges F z s) (m1 : Part.out ∈ F) (m2 : Part.clk ∈ F) (m3 : Part.regs ∈ F) (m4 : Part.portA ∈ F) (m5 : Part.portB ∈ F) (m6 : Part.evr ∈ F) (m9 : Part.chip ∈ F) (m14 : Part.dram ∈ F) (m15 : Part.phc ∈ F) (m16 : Part.map ∈ F) (m17 : Part.flash ∈ F) (m18 : Part.jrc ∈ F) (m19 : Part.srt ∈ F) (m21 : Part.pat ∈ F) (m22 : Part.mem ∈ F) : OnlyChanges F z (scrubLost s mem unit addr) := by
  unfold scrubLost
  repeat' first
    | with_reducible assumption
    | (with_reducible apply jramUe_frame)
    | (with_reducible apply updJrc_frame)
    | (with_reducible apply recorderLost_frame)
    | (with_reducible apply scrubCache_frame)
    | (with_reducible apply sealError_frame)
    | (with_reducible apply coreError_frame)
    | (with_reducible apply trackerFault_frame)
    | (with_reducible apply stagingError_frame)
    | (with_reducible apply frame_ite)
    | (intro b; refine (fun (_ : OnlyChanges F z b) => ?_) ?_; clear_value b; swap; dsimp only [b]; swap)
    | (intro b; clear_value b)
    | intro b
    | lift_lets
    | split
    | dsimp only

theorem scrubUnit_frame {mem : Nat} {unit : Nat} {x : Nat × UnitRead} (hz : OnlyChanges F z s) (m1 : Part.out ∈ F) (m2 : Part.clk ∈ F) (m3 : Part.regs ∈ F) (m4 : Part.portA ∈ F) (m5 : Part.portB ∈ F) (m6 : Part.evr ∈ F) (m9 : Part.chip ∈ F) (m14 : Part.dram ∈ F) (m15 : Part.phc ∈ F) (m16 : Part.map ∈ F) (m17 : Part.flash ∈ F) (m18 : Part.jrc ∈ F) (m19 : Part.srt ∈ F) (m21 : Part.pat ∈ F) (m22 : Part.mem ∈ F) : OnlyChanges F z (scrubUnit mem unit s x) := by
  unfold scrubUnit
  repeat' first
    | with_reducible assumption
    | (with_reducible apply dramRead_frame)
    | (with_reducible apply offender_frame)
    | (with_reducible apply scrubCache_frame)
    | (with_reducible apply scrubLost_frame)
    | (with_reducible apply frame_ite)
    | (with_reducible apply frame_ite_fst)
    | split
    | dsimp only

theorem scrubSummary_frame {mem : Nat} {unit : Nat} {l : List (Nat × UnitRead)} (hz : OnlyChanges F z s) (m3 : Part.regs ∈ F) : OnlyChanges F z (scrubSummary s mem unit l) := by
  unfold scrubSummary
  repeat' first
    | with_reducible assumption
    | (with_reducible apply wr_frame)
    | (intro b; refine (fun (_ : OnlyChanges F z b) => ?_) ?_; clear_value b; swap; dsimp only [b]; swap)
    | (intro b; refine (fun (_ : OnlyChanges F z b.1) => ?_) ?_; clear_value b; swap; dsimp only [b]; swap)
    | (with_reducible apply hfn)
    | (intro b; refine (fun (hfn : ∀ x, OnlyChanges F z x → OnlyChanges F z (b x)) => ?_) ?_; clear_value b; swap; (intro x hx; dsimp only [b]); swap)
    | (intro b; refine (fun (hfn : ∀ x y, OnlyChanges F z x → OnlyChanges F z (b x y)) => ?_) ?_; clear_value b; swap; (intro x y hx; dsimp only [b]); swap)
    | (with_reducible apply hfc)
    | (with_reducible apply hfd)
    | (intro b; refine (fun (hfc : ∀ x, OnlyChanges F z (b x)) => ?_) ?_; clear_value b; swap; (intro x; dsimp only [b]); swap)
    | (intro b; refine (fun (hfd : ∀ x y, OnlyChanges F z (b x y)) => ?_) ?_; clear_value b; swap; (intro x y; dsimp only [b]); swap)
    | (intro b; clear_value b)
    | intro b
    | lift_lets
    | split
    | dsimp only

theorem scrubDone_frame {found : List (Nat × UnitRead)} (hz : OnlyChanges F z s) (m1 : Part.out ∈ F) (m2 : Part.clk ∈ F) (m3 : Part.regs ∈ F) (m4 : Part.portA ∈ F) (m5 : Part.portB ∈ F) (m6 : Part.evr ∈ F) (m9 : Part.chip ∈ F) (m14 : Part.dram ∈ F) (m15 : Part.phc ∈ F) (m16 : Part.map ∈ F) (m17 : Part.flash ∈ F) (m18 : Part.jrc ∈ F) (m19 : Part.srt ∈ F) (m21 : Part.pat ∈ F) (m22 : Part.mem ∈ F) : OnlyChanges F z (scrubDone s found) := by
  unfold scrubDone
  repeat' first
    | with_reducible assumption
    | (with_reducible apply freshBelow_frame)
    | (with_reducible apply flushLine_frame)
    | (with_reducible apply scrubSummary_frame)
    | (with_reducible apply scrubUnit_frame)
    | (with_reducible apply wrField_frame)
    | (with_reducible apply raise_frame)
    | (with_reducible apply updMem_frame)
    | (with_reducible apply scrubNext_frame)
    | (with_reducible apply reply_frame)
    | (with_reducible apply endCmd_frame)
    | (with_reducible apply frame_ite)
    | (with_reducible apply frame_ite_fst)
    | (with_reducible refine frame_foldl (fun x b hx => ?_) ?_)
    | (with_reducible refine frame_foldl_fst (fun x b hx => ?_) ?_)
    | (intro b; refine (fun (_ : OnlyChanges F z b) => ?_) ?_; clear_value b; swap; dsimp only [b]; swap)
    | (intro b; refine (fun (_ : OnlyChanges F z b.1) => ?_) ?_; clear_value b; swap; dsimp only [b]; swap)
    | (intro b; clear_value b)
    | intro b
    | lift_lets
    | split
    | (refine frame_of_eq (by assumption) ?_)
    | dsimp only

theorem enterFailed_frame (hz : OnlyChanges F z s) (m1 : Part.out ∈ F) (m3 : Part.regs ∈ F) (m4 : Part.portA ∈ F) (m5 : Part.portB ∈ F) (m6 : Part.evr ∈ F) (m16 : Part.map ∈ F) (m17 : Part.flash ∈ F) (m18 : Part.jrc ∈ F) (m19 : Part.srt ∈ F) (m20 : Part.prog ∈ F) : OnlyChanges F z (enterFailed s) := by
  unfold enterFailed
  repeat' first
    | with_reducible assumption
    | (with_reducible apply sanFail_frame)
    | (with_reducible apply setChip_frame)
    | (with_reducible apply wr_frame)
    | (intro b; refine (fun (_ : OnlyChanges F z b) => ?_) ?_; clear_value b; swap; dsimp only [b]; swap)
    | (intro b; clear_value b)
    | intro b
    | lift_lets

theorem segDiscard_frame {seg : Nat} (hz : OnlyChanges F z s) (m15 : Part.phc ∈ F) (m22 : Part.mem ∈ F) : OnlyChanges F z (segDiscard s seg) := by
  unfold segDiscard
  repeat' first
    | with_reducible assumption
    | (with_reducible apply updPhc_frame)
    | (with_reducible apply updMem_frame)
    | (intro b; refine (fun (_ : OnlyChanges F z b) => ?_) ?_; clear_value b; swap; dsimp only [b]; swap)
    | (intro b; clear_value b)
    | intro b
    | lift_lets

theorem ttReload_frame {r : Root} {i : Nat} (hz : OnlyChanges F z s) (m14 : Part.dram ∈ F) : OnlyChanges F z (ttReload s r i) := by
  unfold ttReload
  repeat' first
    | with_reducible assumption
    | (with_reducible apply frame_ite)
    | (with_reducible apply frame_ite_fst)
    | (with_reducible refine frame_foldl (fun x b hx => ?_) ?_)
    | (with_reducible refine frame_foldl_fst (fun x b hx => ?_) ?_)
    | (intro b; refine (fun (_ : OnlyChanges F z b) => ?_) ?_; clear_value b; swap; dsimp only [b]; swap)
    | (intro b; refine (fun (_ : OnlyChanges F z b.1) => ?_) ?_; clear_value b; swap; dsimp only [b]; swap)
    | (with_reducible apply hfn)
    | (intro b; refine (fun (hfn : ∀ x, OnlyChanges F z x → OnlyChanges F z (b x)) => ?_) ?_; clear_value b; swap; (intro x hx; dsimp only [b]); swap)
    | (intro b; refine (fun (hfn : ∀ x y, OnlyChanges F z x → OnlyChanges F z (b x y)) => ?_) ?_; clear_value b; swap; (intro x y hx; dsimp only [b]); swap)
    | (with_reducible apply hfc)
    | (with_reducible apply hfd)
    | (intro b; refine (fun (hfc : ∀ x, OnlyChanges F z (b x)) => ?_) ?_; clear_value b; swap; (intro x; dsimp only [b]); swap)
    | (intro b; refine (fun (hfd : ∀ x y, OnlyChanges F z (b x y)) => ?_) ?_; clear_value b; swap; (intro x y; dsimp only [b]); swap)
    | (intro b; clear_value b)
    | intro b
    | lift_lets
    | split
    | (fail_if_no_progress with_reducible refine frame_upd ?_)

theorem segReload_frame {seg : Nat} (hz : OnlyChanges F z s) (m14 : Part.dram ∈ F) (m15 : Part.phc ∈ F) (m16 : Part.map ∈ F) (m22 : Part.mem ∈ F) : OnlyChanges F z (segReload s seg) := by
  unfold segReload
  repeat' first
    | with_reducible assumption
    | (with_reducible apply segDiscard_frame)
    | (with_reducible apply updTab_frame)
    | (with_reducible apply updMap_frame)
    | (with_reducible apply ttReload_frame)
    | (intro b; refine (fun (_ : OnlyChanges F z b) => ?_) ?_; clear_value b; swap; dsimp only [b]; swap)
    | (intro b; refine (fun (_ : OnlyChanges F z b.1) => ?_) ?_; clear_value b; swap; dsimp only [b]; swap)
    | (intro b; clear_value b)
    | intro b
    | lift_lets
    | split
    | dsimp only

theorem segmentDone_frame {seg : Nat} {readable : Bool} (hz : OnlyChanges F z s) (m1 : Part.out ∈ F) (m2 : Part.clk ∈ F) (m3 : Part.regs ∈ F) (m4 : Part.portA ∈ F) (m5 : Part.portB ∈ F) (m6 : Part.evr ∈ F) (m9 : Part.chip ∈ F) (m12 : Part.cry ∈ F) (m14 : Part.dram ∈ F) (m15 : Part.phc ∈ F) (m16 : Part.map ∈ F) (m17 : Part.flash ∈ F) (m18 : Part.jrc ∈ F) (m19 : Part.srt ∈ F) (m20 : Part.prog ∈ F) (m21 : Part.pat ∈ F) (m22 : Part.mem ∈ F) : OnlyChanges F z (segmentDone s seg readable) := by
  unfold segmentDone
  repeat' first
    | with_reducible assumption
    | (with_reducible apply enterFailed_frame)
    | (with_reducible apply segReload_frame)
    | (with_reducible apply afterApply_frame)
    | (with_reducible apply drainApply_frame)
    | (with_reducible apply updPhc_frame)
    | (with_reducible apply frame_ite)
    | (intro b; refine (fun (_ : OnlyChanges F z b) => ?_) ?_; clear_value b; swap; dsimp only [b]; swap)
    | (intro b; clear_value b)
    | intro b
    | lift_lets
    | split

end Sys2Proof.Machine
end

