-- ==== Sys2Proof/Laws/FrameBoot.lean ====
section
/-! SUPPORT. What the operations leave alone (Laws/Frame.lean): resets, start-up and the ports. One law for each operation. -/

set_option Elab.async false
set_option linter.unusedTactic false
set_option linter.unreachableTactic false

namespace Sys2Proof.Machine

variable {F : List Part} {z s : State}

theorem sealDump_frame {reason : Nat} (hz : OnlyChanges F z s) (m1 : Part.out ∈ F) (m3 : Part.regs ∈ F) (m4 : Part.portA ∈ F) (m5 : Part.portB ∈ F) (m6 : Part.evr ∈ F) (m8 : Part.pwr ∈ F) (m18 : Part.jrc ∈ F) : OnlyChanges F z (sealDump s reason) := by
  unfold sealDump
  repeat' first
    | with_reducible assumption
    | (with_reducible apply updJrc_frame)
    | (with_reducible apply updPwr_frame)
    | (with_reducible apply wr_frame)
    | (with_reducible apply raise_frame)
    | (with_reducible apply orReg_frame)
    | (with_reducible apply frame_ite)
    | (with_reducible apply frame_ite_fst)
    | (intro b; refine (fun (_ : OnlyChanges F z b) => ?_) ?_; clear_value b; swap; dsimp only [b]; swap)
    | (intro b; refine (fun (_ : OnlyChanges F z b.1) => ?_) ?_; clear_value b; swap; dsimp only [b]; swap)
    | (intro b; clear_value b)
    | intro b
    | lift_lets
    | split
    | dsimp only

theorem restoreDone_frame (hz : OnlyChanges F z s) (m1 : Part.out ∈ F) (m3 : Part.regs ∈ F) (m4 : Part.portA ∈ F) (m5 : Part.portB ∈ F) (m6 : Part.evr ∈ F) : OnlyChanges F z (restoreDone s) := by
  unfold restoreDone
  repeat' first
    | with_reducible assumption
    | (with_reducible apply wr_frame)
    | (with_reducible apply raise_frame)
    | (with_reducible apply orReg_frame)
    | (with_reducible apply frame_ite)
    | (intro b; refine (fun (_ : OnlyChanges F z b) => ?_) ?_; clear_value b; swap; dsimp only [b]; swap)
    | (intro b; clear_value b)
    | intro b
    | lift_lets
    | split
    | dsimp only

theorem norCut_frame (hz : OnlyChanges F z s) (m13 : Part.boot ∈ F) : OnlyChanges F z (norCut s) := by
  unfold norCut
  repeat' first
    | with_reducible assumption
    | (with_reducible apply norPut_frame)
    | (with_reducible apply frame_ite)
    | split
    | dsimp only

theorem coreReset_frame {warm : Bool} (hz : OnlyChanges F z s) (m2 : Part.clk ∈ F) (m3 : Part.regs ∈ F) (m4 : Part.portA ∈ F) (m5 : Part.portB ∈ F) (m6 : Part.evr ∈ F) (m9 : Part.chip ∈ F) (m10 : Part.ring ∈ F) (m11 : Part.sec ∈ F) (m12 : Part.cry ∈ F) (m13 : Part.boot ∈ F) (m14 : Part.dram ∈ F) (m15 : Part.phc ∈ F) (m16 : Part.map ∈ F) (m17 : Part.flash ∈ F) (m18 : Part.jrc ∈ F) (m19 : Part.srt ∈ F) (m20 : Part.prog ∈ F) (m21 : Part.pat ∈ F) (m22 : Part.mem ∈ F) : OnlyChanges F z (coreReset s warm) := by
  unfold coreReset
  repeat' first
    | with_reducible assumption
    | (with_reducible apply rootCut_frame)
    | (with_reducible apply norCut_frame)
    | (with_reducible apply frame_ite)
    | (with_reducible apply frame_ite_fst)
    | (intro b; refine (fun (_ : OnlyChanges F z b) => ?_) ?_; clear_value b; swap; dsimp only [b]; swap)
    | (intro b; refine (fun (_ : OnlyChanges F z b.1) => ?_) ?_; clear_value b; swap; dsimp only [b]; swap)
    | (with_reducible apply hfn)
    | (intro b; refine (fun (hfn : ∀ x, OnlyChanges F z x → OnlyChanges F z (b x)) => ?_) ?_; clear_value b; swap; (intro x hx; dsimp only [b]); swap)
    | (intro b; refine (fun (hfn : ∀ x y, OnlyChanges F z x → OnlyChanges F z (b x y)) => ?_) ?_; clear_value b; swap; (intro x y hx; dsimp only [b]); swap)
    | (with_reducible apply hfc)
    | (with_reducible apply hfd)
    | (intro b; refine (fun (hfc : ∀ x, OnlyChanges F z (b x)) => ?_) ?_; clear_value b; swap; (intro x; dsimp only [b]); swap)
    | (intro b; refine (fun (hfd : ∀ x y, OnlyChanges F z (b x y)) => ?_) ?_; clear_value b; swap; (intro x y; dsimp only [b]); swap)
    | (intro b; clear_value b)
    | intro b
    | lift_lets
    | split
    | (fail_if_no_progress with_reducible refine frame_upd ?_)

theorem aonReset_frame {kind : Nat} (hz : OnlyChanges F z s) (m2 : Part.clk ∈ F) (m3 : Part.regs ∈ F) (m7 : Part.thm ∈ F) (m8 : Part.pwr ∈ F) (m9 : Part.chip ∈ F) (m10 : Part.ring ∈ F) (m11 : Part.sec ∈ F) : OnlyChanges F z (aonReset s kind) := by
  unfold aonReset
  repeat' first
    | with_reducible assumption
    | (with_reducible apply updChip_frame)
    | (with_reducible apply wr_frame)
    | (with_reducible apply updPwr_frame)
    | (with_reducible apply updThm_frame)
    | (with_reducible apply frame_ite)
    | (with_reducible apply frame_ite_fst)
    | (intro b; refine (fun (_ : OnlyChanges F z b) => ?_) ?_; clear_value b; swap; dsimp only [b]; swap)
    | (intro b; refine (fun (_ : OnlyChanges F z b.1) => ?_) ?_; clear_value b; swap; dsimp only [b]; swap)
    | (intro b; clear_value b)
    | intro b
    | lift_lets
    | split
    | (fail_if_no_progress with_reducible refine frame_upd ?_)

theorem failSequence_frame {reason : Nat} (hz : OnlyChanges F z s) (m1 : Part.out ∈ F) (m2 : Part.clk ∈ F) (m3 : Part.regs ∈ F) (m4 : Part.portA ∈ F) (m5 : Part.portB ∈ F) (m6 : Part.evr ∈ F) (m8 : Part.pwr ∈ F) (m9 : Part.chip ∈ F) (m10 : Part.ring ∈ F) (m11 : Part.sec ∈ F) (m12 : Part.cry ∈ F) (m13 : Part.boot ∈ F) (m14 : Part.dram ∈ F) (m15 : Part.phc ∈ F) (m16 : Part.map ∈ F) (m17 : Part.flash ∈ F) (m18 : Part.jrc ∈ F) (m19 : Part.srt ∈ F) (m20 : Part.prog ∈ F) (m21 : Part.pat ∈ F) (m22 : Part.mem ∈ F) : OnlyChanges F z (failSequence s reason) := by
  unfold failSequence
  repeat' first
    | with_reducible assumption
    | (with_reducible apply sealDump_frame)
    | (with_reducible apply updChip_frame)
    | (with_reducible apply coreReset_frame)
    | (with_reducible apply updPwr_frame)
    | (with_reducible apply frame_ite)
    | (intro b; refine (fun (_ : OnlyChanges F z b) => ?_) ?_; clear_value b; swap; dsimp only [b]; swap)
    | (intro b; clear_value b)
    | intro b
    | lift_lets
    | split

theorem pwrFail_frame {counts : Nat} (hz : OnlyChanges F z s) (m1 : Part.out ∈ F) (m2 : Part.clk ∈ F) (m3 : Part.regs ∈ F) (m4 : Part.portA ∈ F) (m5 : Part.portB ∈ F) (m6 : Part.evr ∈ F) (m8 : Part.pwr ∈ F) (m9 : Part.chip ∈ F) (m10 : Part.ring ∈ F) (m11 : Part.sec ∈ F) (m12 : Part.cry ∈ F) (m13 : Part.boot ∈ F) (m14 : Part.dram ∈ F) (m15 : Part.phc ∈ F) (m16 : Part.map ∈ F) (m17 : Part.flash ∈ F) (m18 : Part.jrc ∈ F) (m19 : Part.srt ∈ F) (m20 : Part.prog ∈ F) (m21 : Part.pat ∈ F) (m22 : Part.mem ∈ F) : OnlyChanges F z (pwrFail s counts) := by
  unfold pwrFail
  repeat' first
    | with_reducible assumption
    | (with_reducible apply updChip_frame)
    | (with_reducible apply failSequence_frame)
    | (with_reducible apply frame_ite)
    | (intro b; refine (fun (_ : OnlyChanges F z b) => ?_) ?_; clear_value b; swap; dsimp only [b]; swap)
    | (intro b; clear_value b)
    | intro b
    | lift_lets
    | split

theorem failRestart_frame (hz : OnlyChanges F z s) (m2 : Part.clk ∈ F) (m3 : Part.regs ∈ F) (m7 : Part.thm ∈ F) (m8 : Part.pwr ∈ F) (m9 : Part.chip ∈ F) (m10 : Part.ring ∈ F) (m11 : Part.sec ∈ F) : OnlyChanges F z (failRestart s) := by
  unfold failRestart
  repeat' first
    | with_reducible assumption
    | (with_reducible apply updChip_frame)
    | (with_reducible apply aonReset_frame)
    | (with_reducible apply frame_ite)
    | (intro b; refine (fun (_ : OnlyChanges F z b) => ?_) ?_; clear_value b; swap; dsimp only [b]; swap)
    | (intro b; clear_value b)
    | intro b
    | lift_lets
    | split

theorem resetAssert_frame {counts : Nat} (hz : OnlyChanges F z s) (m1 : Part.out ∈ F) (m2 : Part.clk ∈ F) (m3 : Part.regs ∈ F) (m4 : Part.portA ∈ F) (m5 : Part.portB ∈ F) (m6 : Part.evr ∈ F) (m8 : Part.pwr ∈ F) (m9 : Part.chip ∈ F) (m10 : Part.ring ∈ F) (m11 : Part.sec ∈ F) (m12 : Part.cry ∈ F) (m13 : Part.boot ∈ F) (m14 : Part.dram ∈ F) (m15 : Part.phc ∈ F) (m16 : Part.map ∈ F) (m17 : Part.flash ∈ F) (m18 : Part.jrc ∈ F) (m19 : Part.srt ∈ F) (m20 : Part.prog ∈ F) (m21 : Part.pat ∈ F) (m22 : Part.mem ∈ F) : OnlyChanges F z (resetAssert s counts) := by
  unfold resetAssert
  repeat' first
    | with_reducible assumption
    | (with_reducible apply updChip_frame)
    | (with_reducible apply coreReset_frame)
    | (with_reducible apply failSequence_frame)
    | (with_reducible apply frame_ite)
    | (intro b; refine (fun (_ : OnlyChanges F z b) => ?_) ?_; clear_value b; swap; dsimp only [b]; swap)
    | (intro b; clear_value b)
    | intro b
    | lift_lets
    | split

theorem warmReset_frame {kind : Nat} {core : Nat} (hz : OnlyChanges F z s) (m1 : Part.out ∈ F) (m2 : Part.clk ∈ F) (m3 : Part.regs ∈ F) (m4 : Part.portA ∈ F) (m5 : Part.portB ∈ F) (m6 : Part.evr ∈ F) (m7 : Part.thm ∈ F) (m8 : Part.pwr ∈ F) (m9 : Part.chip ∈ F) (m10 : Part.ring ∈ F) (m11 : Part.sec ∈ F) (m12 : Part.cry ∈ F) (m13 : Part.boot ∈ F) (m14 : Part.dram ∈ F) (m15 : Part.phc ∈ F) (m16 : Part.map ∈ F) (m17 : Part.flash ∈ F) (m18 : Part.jrc ∈ F) (m19 : Part.srt ∈ F) (m20 : Part.prog ∈ F) (m21 : Part.pat ∈ F) (m22 : Part.mem ∈ F) : OnlyChanges F z (warmReset s kind core) := by
  unfold warmReset
  repeat' first
    | with_reducible assumption
    | (with_reducible apply sealDump_frame)
    | (with_reducible apply aonReset_frame)
    | (with_reducible apply wr_frame)
    | (with_reducible apply coreReset_frame)
    | (with_reducible apply frame_ite)
    | (intro b; refine (fun (_ : OnlyChanges F z b) => ?_) ?_; clear_value b; swap; dsimp only [b]; swap)
    | (intro b; clear_value b)
    | intro b
    | lift_lets
    | split

theorem powerOn_frame (hz : OnlyChanges F z s) (m2 : Part.clk ∈ F) (m3 : Part.regs ∈ F) (m4 : Part.portA ∈ F) (m5 : Part.portB ∈ F) (m6 : Part.evr ∈ F) (m7 : Part.thm ∈ F) (m8 : Part.pwr ∈ F) (m9 : Part.chip ∈ F) (m10 : Part.ring ∈ F) (m11 : Part.sec ∈ F) (m12 : Part.cry ∈ F) (m13 : Part.boot ∈ F) (m14 : Part.dram ∈ F) (m15 : Part.phc ∈ F) (m16 : Part.map ∈ F) (m17 : Part.flash ∈ F) (m18 : Part.jrc ∈ F) (m19 : Part.srt ∈ F) (m20 : Part.prog ∈ F) (m21 : Part.pat ∈ F) (m22 : Part.mem ∈ F) : OnlyChanges F z (powerOn s) := by
  unfold powerOn
  repeat' first
    | with_reducible assumption
    | (with_reducible apply updChip_frame)
    | (with_reducible apply aonReset_frame)
    | (with_reducible apply coreReset_frame)
    | (with_reducible apply frame_ite)
    | split

theorem powerLoss_frame (hz : OnlyChanges F z s) (m2 : Part.clk ∈ F) (m3 : Part.regs ∈ F) (m4 : Part.portA ∈ F) (m5 : Part.portB ∈ F) (m6 : Part.evr ∈ F) (m9 : Part.chip ∈ F) (m10 : Part.ring ∈ F) (m11 : Part.sec ∈ F) (m12 : Part.cry ∈ F) (m13 : Part.boot ∈ F) (m14 : Part.dram ∈ F) (m15 : Part.phc ∈ F) (m16 : Part.map ∈ F) (m17 : Part.flash ∈ F) (m18 : Part.jrc ∈ F) (m19 : Part.srt ∈ F) (m20 : Part.prog ∈ F) (m21 : Part.pat ∈ F) (m22 : Part.mem ∈ F) : OnlyChanges F z (powerLoss s) := by
  unfold powerLoss
  repeat' first
    | with_reducible assumption
    | (with_reducible apply updChip_frame)
    | (with_reducible apply coreReset_frame)
    | (with_reducible apply frame_ite)
    | split

theorem watchdog_frame {k : Nat} (hz : OnlyChanges F z s) (m1 : Part.out ∈ F) (m2 : Part.clk ∈ F) (m3 : Part.regs ∈ F) (m4 : Part.portA ∈ F) (m5 : Part.portB ∈ F) (m6 : Part.evr ∈ F) (m7 : Part.thm ∈ F) (m8 : Part.pwr ∈ F) (m9 : Part.chip ∈ F) (m10 : Part.ring ∈ F) (m11 : Part.sec ∈ F) (m12 : Part.cry ∈ F) (m13 : Part.boot ∈ F) (m14 : Part.dram ∈ F) (m15 : Part.phc ∈ F) (m16 : Part.map ∈ F) (m17 : Part.flash ∈ F) (m18 : Part.jrc ∈ F) (m19 : Part.srt ∈ F) (m20 : Part.prog ∈ F) (m21 : Part.pat ∈ F) (m22 : Part.mem ∈ F) : OnlyChanges F z (watchdog s k) := by
  unfold watchdog
  repeat' first
    | with_reducible assumption
    | (with_reducible apply wdExpire_frame)
    | (with_reducible apply warmReset_frame)
    | (with_reducible apply frame_ite)
    | (intro b; refine (fun (_ : OnlyChanges F z b) => ?_) ?_; clear_value b; swap; dsimp only [b]; swap)
    | (intro b; clear_value b)
    | intro b
    | lift_lets
    | split

theorem thermalShutdown_frame (hz : OnlyChanges F z s) (m1 : Part.out ∈ F) (m2 : Part.clk ∈ F) (m3 : Part.regs ∈ F) (m4 : Part.portA ∈ F) (m5 : Part.portB ∈ F) (m6 : Part.evr ∈ F) (m7 : Part.thm ∈ F) (m8 : Part.pwr ∈ F) (m9 : Part.chip ∈ F) (m10 : Part.ring ∈ F) (m11 : Part.sec ∈ F) (m12 : Part.cry ∈ F) (m13 : Part.boot ∈ F) (m14 : Part.dram ∈ F) (m15 : Part.phc ∈ F) (m16 : Part.map ∈ F) (m17 : Part.flash ∈ F) (m18 : Part.jrc ∈ F) (m19 : Part.srt ∈ F) (m20 : Part.prog ∈ F) (m21 : Part.pat ∈ F) (m22 : Part.mem ∈ F) : OnlyChanges F z (thermalShutdown s) := by
  unfold thermalShutdown
  repeat' first
    | with_reducible assumption
    | (with_reducible apply failSequence_frame)
    | (with_reducible apply freshBelow_frame)
    | (with_reducible apply lastGasp_frame)
    | (with_reducible apply updChip_frame)
    | (with_reducible apply updThm_frame)
    | (with_reducible apply frame_ite)
    | (with_reducible apply frame_ite_fst)
    | (intro b; refine (fun (_ : OnlyChanges F z b) => ?_) ?_; clear_value b; swap; dsimp only [b]; swap)
    | (intro b; refine (fun (_ : OnlyChanges F z b.1) => ?_) ?_; clear_value b; swap; dsimp only [b]; swap)
    | (intro b; clear_value b)
    | intro b
    | lift_lets
    | split
    | (refine frame_of_eq (by assumption) ?_)
    | (fail_if_no_progress with_reducible refine frame_upd ?_)
    | dsimp only

theorem thermalRestart_frame (hz : OnlyChanges F z s) (m2 : Part.clk ∈ F) (m3 : Part.regs ∈ F) (m7 : Part.thm ∈ F) (m8 : Part.pwr ∈ F) (m9 : Part.chip ∈ F) (m10 : Part.ring ∈ F) (m11 : Part.sec ∈ F) : OnlyChanges F z (thermalRestart s) := by
  unfold thermalRestart
  repeat' first
    | with_reducible assumption
    | (with_reducible apply aonReset_frame)
    | (with_reducible apply updThm_frame)
    | (with_reducible apply frame_ite)
    | split
    | (fail_if_no_progress with_reducible refine frame_upd ?_)

theorem psDone_frame {ps : Nat} (hz : OnlyChanges F z s) (m1 : Part.out ∈ F) (m3 : Part.regs ∈ F) (m4 : Part.portA ∈ F) (m5 : Part.portB ∈ F) (m6 : Part.evr ∈ F) (m8 : Part.pwr ∈ F) : OnlyChanges F z (psDone s ps) := by
  unfold psDone
  repeat' first
    | with_reducible assumption
    | (with_reducible apply raise_frame)
    | (with_reducible apply orReg_frame)
    | (with_reducible apply updPwr_frame)

theorem powerUp_frame (hz : OnlyChanges F z s) (m1 : Part.out ∈ F) (m3 : Part.regs ∈ F) (m4 : Part.portA ∈ F) (m5 : Part.portB ∈ F) (m6 : Part.evr ∈ F) (m8 : Part.pwr ∈ F) : OnlyChanges F z (powerUp s) := by
  unfold powerUp
  repeat' first
    | with_reducible assumption
    | (with_reducible apply psDone_frame)
    | (with_reducible apply updPwr_frame)
    | (with_reducible apply frame_ite)
    | split

theorem psSet_frame {ps : Nat} (hz : OnlyChanges F z s) (m1 : Part.out ∈ F) (m3 : Part.regs ∈ F) (m4 : Part.portA ∈ F) (m5 : Part.portB ∈ F) (m6 : Part.evr ∈ F) (m8 : Part.pwr ∈ F) (m17 : Part.flash ∈ F) : OnlyChanges F z (psSet s ps) := by
  unfold psSet
  repeat' first
    | with_reducible assumption
    | (with_reducible apply updPwr_frame)
    | (with_reducible apply pump_frame)
    | (with_reducible apply psDone_frame)
    | (with_reducible apply frame_ite)
    | (intro b; refine (fun (_ : OnlyChanges F z b) => ?_) ?_; clear_value b; swap; dsimp only [b]; swap)
    | (intro b; clear_value b)
    | intro b
    | lift_lets
    | split

theorem psActive_frame {on : Bool} (hz : OnlyChanges F z s) (m3 : Part.regs ∈ F) : OnlyChanges F z (psActive s on) := by
  unfold psActive
  repeat' first
    | with_reducible assumption
    | (with_reducible apply setActive_frame)
    | (with_reducible refine frame_foldl (fun x b hx => ?_) ?_)
    | (intro b; refine (fun (_ : OnlyChanges F z b) => ?_) ?_; clear_value b; swap; dsimp only [b]; swap)
    | (intro b; clear_value b)
    | intro b
    | lift_lets

theorem psEntered_frame (hz : OnlyChanges F z s) (m1 : Part.out ∈ F) (m3 : Part.regs ∈ F) (m4 : Part.portA ∈ F) (m5 : Part.portB ∈ F) (m6 : Part.evr ∈ F) (m8 : Part.pwr ∈ F) : OnlyChanges F z (psEntered s) := by
  unfold psEntered
  repeat' first
    | with_reducible assumption
    | (with_reducible apply updPwr_frame)
    | (with_reducible apply psDone_frame)

theorem psSettled_frame (hz : OnlyChanges F z s) (m1 : Part.out ∈ F) (m3 : Part.regs ∈ F) (m4 : Part.portA ∈ F) (m5 : Part.portB ∈ F) (m6 : Part.evr ∈ F) (m8 : Part.pwr ∈ F) (m15 : Part.phc ∈ F) (m18 : Part.jrc ∈ F) : OnlyChanges F z (psSettled s) := by
  unfold psSettled
  repeat' first
    | with_reducible assumption
    | (with_reducible apply updPwr_frame)
    | (with_reducible apply psActive_frame)
    | (with_reducible apply sealDump_frame)
    | (with_reducible apply phcDrain_frame)
    | (with_reducible apply psEntered_frame)
    | (with_reducible apply updPhc_frame)
    | (with_reducible apply frame_ite)
    | (intro b; refine (fun (_ : OnlyChanges F z b) => ?_) ?_; clear_value b; swap; dsimp only [b]; swap)
    | (intro b; clear_value b)
    | intro b
    | lift_lets
    | split

theorem psEntry_frame (hz : OnlyChanges F z s) (m1 : Part.out ∈ F) (m3 : Part.regs ∈ F) (m4 : Part.portA ∈ F) (m5 : Part.portB ∈ F) (m6 : Part.evr ∈ F) (m8 : Part.pwr ∈ F) (m15 : Part.phc ∈ F) (m17 : Part.flash ∈ F) (m18 : Part.jrc ∈ F) : OnlyChanges F z (psEntry s) := by
  unfold psEntry
  repeat' first
    | with_reducible assumption
    | (with_reducible apply psSettled_frame)
    | (with_reducible apply updPwr_frame)
    | (with_reducible apply pump_frame)
    | (with_reducible apply askResume_frame)
    | (with_reducible apply frame_ite)
    | (with_reducible apply frame_ite_fst)
    | (with_reducible refine frame_foldl (fun x b hx => ?_) ?_)
    | (with_reducible refine frame_foldl_fst (fun x b hx => ?_) ?_)
    | (intro b; refine (fun (_ : OnlyChanges F z b) => ?_) ?_; clear_value b; swap; dsimp only [b]; swap)
    | (intro b; refine (fun (_ : OnlyChanges F z b.1) => ?_) ?_; clear_value b; swap; dsimp only [b]; swap)
    | (intro b; clear_value b)
    | intro b
    | lift_lets
    | split
    | dsimp only

theorem phcDrained_frame (hz : OnlyChanges F z s) (m1 : Part.out ∈ F) (m3 : Part.regs ∈ F) (m4 : Part.portA ∈ F) (m5 : Part.portB ∈ F) (m6 : Part.evr ∈ F) (m8 : Part.pwr ∈ F) (m14 : Part.dram ∈ F) (m15 : Part.phc ∈ F) (m22 : Part.mem ∈ F) : OnlyChanges F z (phcDrained s) := by
  unfold phcDrained
  repeat' first
    | with_reducible assumption
    | (with_reducible apply drainDone_frame)
    | (with_reducible apply phcDrain_frame)
    | (with_reducible apply psEntered_frame)
    | (with_reducible apply frame_ite)
    | (intro b; refine (fun (_ : OnlyChanges F z b) => ?_) ?_; clear_value b; swap; dsimp only [b]; swap)
    | (intro b; clear_value b)
    | intro b
    | lift_lets
    | split

theorem psExit_frame (hz : OnlyChanges F z s) (m1 : Part.out ∈ F) (m3 : Part.regs ∈ F) (m4 : Part.portA ∈ F) (m5 : Part.portB ∈ F) (m6 : Part.evr ∈ F) (m8 : Part.pwr ∈ F) (m15 : Part.phc ∈ F) (m17 : Part.flash ∈ F) (m18 : Part.jrc ∈ F) : OnlyChanges F z (psExit s) := by
  unfold psExit
  repeat' first
    | with_reducible assumption
    | (with_reducible apply restoreDone_frame)
    | (with_reducible apply psActive_frame)
    | (with_reducible apply updPhc_frame)
    | (with_reducible apply phcWake_frame)
    | (with_reducible apply updJrc_frame)
    | (with_reducible apply updPwr_frame)
    | (with_reducible apply psDone_frame)
    | (with_reducible apply pump_frame)
    | (with_reducible apply bandTrain_frame)
    | (with_reducible apply frame_ite)
    | (intro b; refine (fun (_ : OnlyChanges F z b) => ?_) ?_; clear_value b; swap; dsimp only [b]; swap)
    | (intro b; clear_value b)
    | intro b
    | lift_lets
    | split

theorem psDeferred_frame (hz : OnlyChanges F z s) (m1 : Part.out ∈ F) (m3 : Part.regs ∈ F) (m4 : Part.portA ∈ F) (m5 : Part.portB ∈ F) (m6 : Part.evr ∈ F) (m8 : Part.pwr ∈ F) : OnlyChanges F z (psDeferred s) := by
  unfold psDeferred
  repeat' first
    | with_reducible assumption
    | (with_reducible apply raise_frame)
    | (with_reducible apply orReg_frame)
    | (with_reducible apply updPwr_frame)
    | (with_reducible apply frame_ite)
    | split

theorem idleTimer_frame (hz : OnlyChanges F z s) (m1 : Part.out ∈ F) (m3 : Part.regs ∈ F) (m4 : Part.portA ∈ F) (m5 : Part.portB ∈ F) (m6 : Part.evr ∈ F) (m8 : Part.pwr ∈ F) : OnlyChanges F z (idleTimer s) := by
  unfold idleTimer
  repeat' first
    | with_reducible assumption
    | (with_reducible apply raise_frame)
    | (with_reducible apply updPwr_frame)
    | (with_reducible apply frame_ite)
    | split
    | dsimp only

theorem avsel_frame (hz : OnlyChanges F z s) (m8 : Part.pwr ∈ F) : OnlyChanges F z (avsel s) := by
  unfold avsel
  repeat' first
    | with_reducible assumption
    | (with_reducible apply updPwr_frame)

theorem stage_frame {n : Nat} (hz : OnlyChanges F z s) (m1 : Part.out ∈ F) (m3 : Part.regs ∈ F) (m4 : Part.portA ∈ F) (m5 : Part.portB ∈ F) (m6 : Part.evr ∈ F) : OnlyChanges F z (stage s n) := by
  unfold stage
  repeat' first
    | with_reducible assumption
    | (with_reducible apply wrField_frame)
    | (with_reducible apply wr_frame)
    | (with_reducible apply cfgCauseSet_frame)
    | (with_reducible apply frame_ite)
    | (intro b; refine (fun (_ : OnlyChanges F z b) => ?_) ?_; clear_value b; swap; dsimp only [b]; swap)
    | (intro b; clear_value b)
    | intro b
    | lift_lets
    | split

theorem halt_frame {cause : Nat} (hz : OnlyChanges F z s) (m1 : Part.out ∈ F) (m3 : Part.regs ∈ F) (m4 : Part.portA ∈ F) (m5 : Part.portB ∈ F) (m6 : Part.evr ∈ F) (m9 : Part.chip ∈ F) : OnlyChanges F z (halt s cause) := by
  unfold halt
  repeat' first
    | with_reducible assumption
    | (with_reducible apply wrField_frame)
    | (with_reducible apply updChip_frame)
    | (with_reducible apply cfgCauseSet_frame)
    | (intro b; refine (fun (_ : OnlyChanges F z b) => ?_) ?_; clear_value b; swap; dsimp only [b]; swap)
    | (intro b; clear_value b)
    | intro b
    | lift_lets

theorem enableBlk_frame {b : Blk} {u : optParam Nat 0} (hz : OnlyChanges F z s) (m3 : Part.regs ∈ F) : OnlyChanges F z (enableBlk s b u) := by
  unfold enableBlk
  repeat' first
    | with_reducible assumption
    | (with_reducible apply setActive_frame)
    | (with_reducible apply wrField_frame)

theorem portEnable_frame {p : Port} (hz : OnlyChanges F z s) (m3 : Part.regs ∈ F) (m4 : Part.portA ∈ F) (m5 : Part.portB ∈ F) : OnlyChanges F z (portEnable s p) := by
  unfold portEnable
  repeat' first
    | with_reducible assumption
    | (with_reducible apply modPort_frame)
    | (with_reducible apply enableBlk_frame)
    | (with_reducible apply frame_ite)
    | split
    | (fail_if_no_progress with_reducible refine frame_upd ?_)

theorem linkConfig_frame {base : List Byte} (hz : OnlyChanges F z s) (m3 : Part.regs ∈ F) : OnlyChanges F z (linkConfig s base) := by
  unfold linkConfig
  repeat' first
    | with_reducible assumption
    | (with_reducible apply wr_frame)
    | (intro b; refine (fun (_ : OnlyChanges F z b) => ?_) ?_; clear_value b; swap; dsimp only [b]; swap)
    | (intro b; clear_value b)
    | intro b
    | lift_lets

theorem linkDefaults_frame (hz : OnlyChanges F z s) (m3 : Part.regs ∈ F) : OnlyChanges F z (linkDefaults s) := by
  unfold linkDefaults
  repeat' first
    | with_reducible assumption
    | (with_reducible apply wr_frame)

theorem loadSpace_frame {ids : List Byte} {p : Port} (hz : OnlyChanges F z s) (m4 : Part.portA ∈ F) (m5 : Part.portB ∈ F) : OnlyChanges F z (loadSpace s ids p) := by
  unfold loadSpace
  repeat' first
    | with_reducible assumption
    | (with_reducible apply modPort_frame)
    | (fail_if_no_progress with_reducible refine frame_upd ?_)

theorem setDepot_frame {depot : Bool} (hz : OnlyChanges F z s) (m11 : Part.sec ∈ F) : OnlyChanges F z (setDepot s depot) := by
  unfold setDepot
  repeat' first
    | with_reducible assumption
    | (with_reducible apply updSec_frame)
    | (with_reducible apply frame_ite)
    | (intro b; refine (fun (_ : OnlyChanges F z b) => ?_) ?_; clear_value b; swap; dsimp only [b]; swap)
    | (intro b; clear_value b)
    | intro b
    | lift_lets
    | split
    | (fail_if_no_progress with_reducible refine frame_upd ?_)

theorem stage1_frame (hz : OnlyChanges F z s) (m1 : Part.out ∈ F) (m3 : Part.regs ∈ F) (m4 : Part.portA ∈ F) (m5 : Part.portB ∈ F) (m6 : Part.evr ∈ F) (m9 : Part.chip ∈ F) (m11 : Part.sec ∈ F) (m18 : Part.jrc ∈ F) (m22 : Part.mem ∈ F) : OnlyChanges F z (stage1 s) := by
  unfold stage1
  repeat' first
    | with_reducible assumption
    | (with_reducible apply fuseMapRows_frame)
    | (with_reducible apply repairRows_frame)
    | (with_reducible apply enableBlk_frame)
    | (with_reducible apply stage_frame)
    | (with_reducible apply cryCauseSet_frame)
    | (with_reducible apply wrField_frame)
    | (with_reducible apply setDepot_frame)
    | (with_reducible apply halt_frame)
    | (with_reducible apply portEnable_frame)
    | (with_reducible apply linkDefaults_frame)
    | (with_reducible apply linkConfig_frame)
    | (with_reducible apply wr_frame)
    | (with_reducible apply updSec_frame)
    | (with_reducible apply cfgCauseSet_frame)
    | (with_reducible apply loadSpace_frame)
    | (with_reducible apply takeImage_frame)
    | (with_reducible apply frame_ite)
    | (intro b; refine (fun (_ : OnlyChanges F z b) => ?_) ?_; clear_value b; swap; dsimp only [b]; swap)
    | (intro b; clear_value b)
    | intro b
    | lift_lets
    | split
    | (fail_if_no_progress with_reducible refine frame_upd ?_)
    | dsimp only

theorem loadTyped_frame {base : List Byte} {ovls : List (Nat × List Byte)} (hz : OnlyChanges F z s) (m7 : Part.thm ∈ F) (m13 : Part.boot ∈ F) (m16 : Part.map ∈ F) (m17 : Part.flash ∈ F) : OnlyChanges F z (loadTyped s base ovls) := by
  unfold loadTyped
  repeat' first
    | with_reducible assumption
    | (with_reducible apply updFlash_frame)
    | (with_reducible apply updBoot_frame)
    | (with_reducible apply updMap_frame)
    | (with_reducible apply updThm_frame)
    | (intro b; refine (fun (_ : OnlyChanges F z b) => ?_) ?_; clear_value b; swap; dsimp only [b]; swap)
    | (intro b; refine (fun (_ : OnlyChanges F z b.1) => ?_) ?_; clear_value b; swap; dsimp only [b]; swap)
    | (with_reducible apply hfn)
    | (intro b; refine (fun (hfn : ∀ x, OnlyChanges F z x → OnlyChanges F z (b x)) => ?_) ?_; clear_value b; swap; (intro x hx; dsimp only [b]); swap)
    | (intro b; refine (fun (hfn : ∀ x y, OnlyChanges F z x → OnlyChanges F z (b x y)) => ?_) ?_; clear_value b; swap; (intro x y hx; dsimp only [b]); swap)
    | (with_reducible apply hfc)
    | (with_reducible apply hfd)
    | (intro b; refine (fun (hfc : ∀ x, OnlyChanges F z (b x)) => ?_) ?_; clear_value b; swap; (intro x; dsimp only [b]); swap)
    | (intro b; refine (fun (hfd : ∀ x y, OnlyChanges F z (b x y)) => ?_) ?_; clear_value b; swap; (intro x y; dsimp only [b]); swap)
    | (intro b; clear_value b)
    | intro b
    | lift_lets
    | (fail_if_no_progress with_reducible refine frame_upd ?_)

theorem loadEntry_frame {l : Load} {off mask val : Nat} (hz : OnlyChanges F z l.s) (m3 : Part.regs ∈ F)
    : OnlyChanges F z (loadEntry l off mask val).s := by
  unfold loadEntry
  repeat' first
    | with_reducible assumption
    | (with_reducible apply wr_frame)
    | split
    | dsimp only

theorem loadBlock_frame {n : Nat} {l : Load} {d : List Byte} (hz : OnlyChanges F z l.s) (m3 : Part.regs ∈ F)
    : OnlyChanges F z (loadBlock n l d).s := by
  induction n generalizing l d with
  | zero => exact hz
  | succ n ih =>
    unfold loadBlock
    split
    · exact hz
    · exact ih (loadEntry_frame hz (by assumption))

theorem frame_loads {β : Type} {g : Load → β → Load} {l : List β} {a : Load} (hg : ∀ x b, OnlyChanges F z x.s → OnlyChanges F z (g x b).s)
    (h : OnlyChanges F z a.s)
    : OnlyChanges F z (l.foldl g a).s := by
  induction l generalizing a with
  | nil => exact h
  | cons b r ih => exact ih (hg a b h)

theorem loadImage_frame {l : Load} {img : List Byte} (hz : OnlyChanges F z l.s) (m3 : Part.regs ∈ F)
    : OnlyChanges F z (loadImage l img).s := by
  unfold loadImage
  refine frame_loads (fun x b hx => ?_) hz
  split
  · exact loadBlock_frame hx (by assumption)
  · exact hx

theorem stage2With_frame {base : List Byte} {bank seq : Nat} {imgs : List (List Byte)} {fb : Bool} (hz : OnlyChanges F z s) (m1 : Part.out ∈ F) (m2 : Part.clk ∈ F) (m3 : Part.regs ∈ F) (m4 : Part.portA ∈ F) (m5 : Part.portB ∈ F) (m6 : Part.evr ∈ F) (m7 : Part.thm ∈ F) (m9 : Part.chip ∈ F) (m10 : Part.ring ∈ F) (m11 : Part.sec ∈ F) (m13 : Part.boot ∈ F) (m14 : Part.dram ∈ F) (m15 : Part.phc ∈ F) (m16 : Part.map ∈ F) (m17 : Part.flash ∈ F) (m18 : Part.jrc ∈ F) (m21 : Part.pat ∈ F) (m22 : Part.mem ∈ F)
    :
    OnlyChanges F z (stage2With s base bank seq imgs fb) := by
  unfold stage2With
  repeat' first
    | with_reducible assumption
    | (with_reducible apply stage_frame)
    | (with_reducible apply wr_frame)
    | (with_reducible apply wrField_frame)
    | (with_reducible apply cfgCauseSet_frame)
    | (with_reducible apply halt_frame)
    | (with_reducible apply loadTyped_frame)
    | (with_reducible apply updEvr_frame)
    | (with_reducible apply updSec_frame)
    | (with_reducible apply setWin_frame)
    | (with_reducible apply ringEnable_frame)
    | (with_reducible apply loadImage_frame)
    | (with_reducible refine frame_loads (fun x b hx => ?_) ?_)
    | (with_reducible apply frame_ite)
    | (with_reducible refine frame_foldl (fun x b hx => ?_) ?_)
    | (intro b; refine (fun (_ : OnlyChanges F z b) => ?_) ?_; clear_value b; swap; dsimp only [b]; swap)
    | (intro b; refine (fun (_ : OnlyChanges F z b.s) => ?_) ?_; clear_value b; swap; dsimp only [b]; swap)
    | (intro b; clear_value b)
    | lift_lets
    | split

theorem stage2_frame (hz : OnlyChanges F z s) (m1 : Part.out ∈ F) (m2 : Part.clk ∈ F) (m3 : Part.regs ∈ F) (m4 : Part.portA ∈ F) (m5 : Part.portB ∈ F) (m6 : Part.evr ∈ F) (m7 : Part.thm ∈ F) (m9 : Part.chip ∈ F) (m10 : Part.ring ∈ F) (m11 : Part.sec ∈ F) (m13 : Part.boot ∈ F) (m14 : Part.dram ∈ F) (m15 : Part.phc ∈ F) (m16 : Part.map ∈ F) (m17 : Part.flash ∈ F) (m18 : Part.jrc ∈ F) (m21 : Part.pat ∈ F) (m22 : Part.mem ∈ F) : OnlyChanges F z (stage2 s) := by
  unfold stage2
  repeat' first
    | with_reducible assumption
    | (with_reducible apply wrField_frame)
    | (with_reducible apply stage_frame)
    | (with_reducible apply stage2With_frame)
    | (with_reducible apply halt_frame)
    | (with_reducible apply frame_ite)
    | (intro b; refine (fun (_ : OnlyChanges F z b) => ?_) ?_; clear_value b; swap; dsimp only [b]; swap)
    | (intro b; clear_value b)
    | intro b
    | lift_lets
    | split
    | dsimp only

theorem stage3_frame (hz : OnlyChanges F z s) (m1 : Part.out ∈ F) (m2 : Part.clk ∈ F) (m3 : Part.regs ∈ F) (m4 : Part.portA ∈ F) (m5 : Part.portB ∈ F) (m6 : Part.evr ∈ F) (m9 : Part.chip ∈ F) (m14 : Part.dram ∈ F) (m22 : Part.mem ∈ F) : OnlyChanges F z (stage3 s) := by
  unfold stage3
  repeat' first
    | with_reducible assumption
    | (with_reducible apply stage_frame)
    | (with_reducible apply updMem_frame)
    | (with_reducible apply wr_frame)
    | (with_reducible apply halt_frame)
    | (with_reducible apply enableBlk_frame)
    | (with_reducible apply drawNonce_frame)
    | (with_reducible apply trig54_frame)
    | (with_reducible apply zeroFillDone_frame)
    | (with_reducible apply wrField_frame)
    | (with_reducible apply frame_ite)
    | (with_reducible refine frame_foldl (fun x b hx => ?_) ?_)
    | (intro b; refine (fun (_ : OnlyChanges F z b) => ?_) ?_; clear_value b; swap; dsimp only [b]; swap)
    | (intro b; clear_value b)
    | intro b
    | lift_lets
    | split
    | (fail_if_no_progress with_reducible refine frame_upd ?_)
    | dsimp only

theorem courierStart_frame {c : Nat} (hz : OnlyChanges F z s) (m1 : Part.out ∈ F) (m3 : Part.regs ∈ F) (m4 : Part.portA ∈ F) (m5 : Part.portB ∈ F) (m6 : Part.evr ∈ F) (m17 : Part.flash ∈ F) : OnlyChanges F z (courierStart s c) := by
  unfold courierStart
  repeat' first
    | with_reducible assumption
    | (with_reducible apply enableBlk_frame)
    | (with_reducible apply identify1_frame)
    | (with_reducible apply wr_frame)
    | (with_reducible apply train_frame)
    | (with_reducible apply modCourier_frame)
    | (with_reducible apply frame_ite)
    | (with_reducible refine frame_foldl (fun x b hx => ?_) ?_)
    | (intro b; refine (fun (_ : OnlyChanges F z b) => ?_) ?_; clear_value b; swap; dsimp only [b]; swap)
    | (intro b; clear_value b)
    | intro b
    | lift_lets
    | split
    | (fail_if_no_progress with_reducible refine frame_upd ?_)
    | dsimp only

theorem recovNote_frame {outcome : Nat} {copy : Nat} (hz : OnlyChanges F z s) (m3 : Part.regs ∈ F) : OnlyChanges F z (recovNote s outcome copy) := by
  unfold recovNote
  repeat' first
    | with_reducible assumption
    | (with_reducible apply wr_frame)

theorem recovEnd_frame (hz : OnlyChanges F z s) (m1 : Part.out ∈ F) (m3 : Part.regs ∈ F) (m4 : Part.portA ∈ F) (m5 : Part.portB ∈ F) (m6 : Part.evr ∈ F) : OnlyChanges F z (recovEnd s) := by
  unfold recovEnd
  repeat' first
    | with_reducible assumption
    | (with_reducible apply raise_frame)
    | (with_reducible apply wrField_frame)

theorem recoverFailed_frame (hz : OnlyChanges F z s) (m1 : Part.out ∈ F) (m3 : Part.regs ∈ F) (m4 : Part.portA ∈ F) (m5 : Part.portB ∈ F) (m6 : Part.evr ∈ F) (m16 : Part.map ∈ F) (m18 : Part.jrc ∈ F) : OnlyChanges F z (recoverFailed s) := by
  unfold recoverFailed
  repeat' first
    | with_reducible assumption
    | (with_reducible apply updMap_frame)
    | (with_reducible apply setChip_frame)
    | (with_reducible apply recovNote_frame)
    | (with_reducible apply updJrc_frame)
    | (intro b; refine (fun (_ : OnlyChanges F z b) => ?_) ?_; clear_value b; swap; dsimp only [b]; swap)
    | (intro b; refine (fun (_ : OnlyChanges F z b.1) => ?_) ?_; clear_value b; swap; dsimp only [b]; swap)
    | (intro b; clear_value b)
    | intro b
    | lift_lets

theorem systemArea_frame (hz : OnlyChanges F z s) (m1 : Part.out ∈ F) (m3 : Part.regs ∈ F) (m4 : Part.portA ∈ F) (m5 : Part.portB ∈ F) (m6 : Part.evr ∈ F) (m16 : Part.map ∈ F) (m18 : Part.jrc ∈ F) (m20 : Part.prog ∈ F) : OnlyChanges F z (systemArea s) := by
  unfold systemArea
  repeat' first
    | with_reducible assumption
    | (with_reducible apply mirroredRead_frame)
    | (with_reducible apply updMap_frame)
    | (with_reducible apply frame_ite)
    | (with_reducible apply frame_ite_fst)
    | (intro b; refine (fun (_ : OnlyChanges F z b) => ?_) ?_; clear_value b; swap; dsimp only [b]; swap)
    | (intro b; refine (fun (_ : OnlyChanges F z b.1) => ?_) ?_; clear_value b; swap; dsimp only [b]; swap)
    | (intro b; clear_value b)
    | intro b
    | lift_lets
    | split
    | (refine frame_of_eq (by assumption) ?_)
    | (fail_if_no_progress with_reducible refine frame_upd ?_)
    | dsimp only

theorem recoverTake_frame {r : Root} {x : Replay} (hz : OnlyChanges F z s) (m1 : Part.out ∈ F) (m3 : Part.regs ∈ F) (m4 : Part.portA ∈ F) (m5 : Part.portB ∈ F) (m6 : Part.evr ∈ F) (m14 : Part.dram ∈ F) (m16 : Part.map ∈ F) (m18 : Part.jrc ∈ F) (m20 : Part.prog ∈ F) (m21 : Part.pat ∈ F) : OnlyChanges F z (recoverTake s r x) := by
  unfold recoverTake
  repeat' first
    | with_reducible assumption
    | (with_reducible apply systemArea_frame)
    | (with_reducible apply updJrc_frame)
    | (with_reducible apply updMap_frame)
    | (with_reducible apply stagingRecover_frame)
    | (with_reducible apply fullJudge_frame)
    | (with_reducible apply wr_frame)
    | (with_reducible apply frame_ite)
    | (with_reducible apply frame_ite_fst)
    | (with_reducible refine frame_foldl (fun x b hx => ?_) ?_)
    | (with_reducible refine frame_foldl_fst (fun x b hx => ?_) ?_)
    | (intro b; refine (fun (_ : OnlyChanges F z b) => ?_) ?_; clear_value b; swap; dsimp only [b]; swap)
    | (intro b; refine (fun (_ : OnlyChanges F z b.1) => ?_) ?_; clear_value b; swap; dsimp only [b]; swap)
    | (intro b; clear_value b)
    | intro b
    | lift_lets
    | split
    | (fail_if_no_progress with_reducible refine frame_upd ?_)

theorem recoverFrom_frame {r : Root} (hz : OnlyChanges F z s) (m1 : Part.out ∈ F) (m3 : Part.regs ∈ F) (m4 : Part.portA ∈ F) (m5 : Part.portB ∈ F) (m6 : Part.evr ∈ F) (m14 : Part.dram ∈ F) (m16 : Part.map ∈ F) (m18 : Part.jrc ∈ F) (m20 : Part.prog ∈ F) (m21 : Part.pat ∈ F) : OnlyChanges F z (recoverFrom s r) := by
  unfold recoverFrom
  repeat' first
    | with_reducible assumption
    | (with_reducible apply recoverFailed_frame)
    | (with_reducible apply jramUe_frame)
    | (with_reducible apply recoverTake_frame)
    | (with_reducible apply frame_ite)
    | split

theorem commitNow_frame {gs : List Group} (hz : OnlyChanges F z s) (m16 : Part.map ∈ F) (m18 : Part.jrc ∈ F) : OnlyChanges F z (commitNow s gs) := by
  unfold commitNow
  repeat' first
    | with_reducible assumption
    | (with_reducible apply updTab_frame)
    | (with_reducible apply updJrc_frame)
    | (with_reducible apply frame_ite)
    | (with_reducible apply frame_ite_fst)
    | (with_reducible refine frame_foldl (fun x b hx => ?_) ?_)
    | (with_reducible refine frame_foldl_fst (fun x b hx => ?_) ?_)
    | (intro b; refine (fun (_ : OnlyChanges F z b) => ?_) ?_; clear_value b; swap; dsimp only [b]; swap)
    | (intro b; refine (fun (_ : OnlyChanges F z b.1) => ?_) ?_; clear_value b; swap; dsimp only [b]; swap)
    | (intro b; clear_value b)
    | intro b
    | lift_lets
    | split
    | (refine frame_of_eq (by assumption) ?_)
    | dsimp only

theorem commitReqs_frame (hz : OnlyChanges F z s) (m16 : Part.map ∈ F) (m18 : Part.jrc ∈ F) (m21 : Part.pat ∈ F) : OnlyChanges F z (commitReqs s) := by
  unfold commitReqs
  repeat' first
    | with_reducible assumption
    | (with_reducible apply commitNow_frame)
    | (with_reducible apply updJrc_frame)
    | (with_reducible apply updPat_frame)
    | (with_reducible apply modOpen_frame)
    | (with_reducible refine frame_foldl (fun x b hx => ?_) ?_)
    | (intro b; refine (fun (_ : OnlyChanges F z b) => ?_) ?_; clear_value b; swap; dsimp only [b]; swap)
    | (intro b; clear_value b)
    | intro b
    | lift_lets
    | split
    | dsimp only

theorem cutNow_frame (hz : OnlyChanges F z s) (m3 : Part.regs ∈ F) (m16 : Part.map ∈ F) (m18 : Part.jrc ∈ F) : OnlyChanges F z (cutNow s) := by
  unfold cutNow
  repeat' first
    | with_reducible assumption
    | (with_reducible apply writeArea_frame)
    | (with_reducible apply wr_frame)
    | (with_reducible apply updMap_frame)
    | (intro b; refine (fun (_ : OnlyChanges F z b) => ?_) ?_; clear_value b; swap; dsimp only [b]; swap)
    | (intro b; clear_value b)
    | intro b
    | lift_lets
    | (fail_if_no_progress with_reducible refine frame_upd ?_)

theorem commissioned_frame (hz : OnlyChanges F z s) (m3 : Part.regs ∈ F) (m13 : Part.boot ∈ F) : OnlyChanges F z (commissioned s) := by
  unfold commissioned
  repeat' first
    | with_reducible assumption
    | (with_reducible apply writeRecordCopy_frame)
    | (intro b; refine (fun (_ : OnlyChanges F z b) => ?_) ?_; clear_value b; swap; dsimp only [b]; swap)
    | (intro b; clear_value b)
    | intro b
    | lift_lets
    | split
    | dsimp only

theorem firstBoot_frame (hz : OnlyChanges F z s) (m1 : Part.out ∈ F) (m3 : Part.regs ∈ F) (m4 : Part.portA ∈ F) (m5 : Part.portB ∈ F) (m6 : Part.evr ∈ F) (m13 : Part.boot ∈ F) (m16 : Part.map ∈ F) (m18 : Part.jrc ∈ F) (m20 : Part.prog ∈ F) (m21 : Part.pat ∈ F) (m22 : Part.mem ∈ F) : OnlyChanges F z (firstBoot s) := by
  unfold firstBoot
  repeat' first
    | with_reducible assumption
    | (with_reducible apply updMap_frame)
    | (with_reducible apply updMem_frame)
    | (with_reducible apply openNow_frame)
    | (with_reducible apply wrField_frame)
    | (with_reducible apply commitReqs_frame)
    | (with_reducible apply cutNow_frame)
    | (with_reducible apply raise_frame)
    | (with_reducible apply commissioned_frame)
    | (with_reducible apply updBoot_frame)
    | (with_reducible apply recovNote_frame)
    | (with_reducible apply frame_ite)
    | (with_reducible apply frame_ite_fst)
    | (with_reducible refine frame_foldl (fun x b hx => ?_) ?_)
    | (with_reducible refine frame_foldl_fst (fun x b hx => ?_) ?_)
    | (intro b; refine (fun (_ : OnlyChanges F z b) => ?_) ?_; clear_value b; swap; dsimp only [b]; swap)
    | (intro b; refine (fun (_ : OnlyChanges F z b.1) => ?_) ?_; clear_value b; swap; dsimp only [b]; swap)
    | (intro b; clear_value b)
    | intro b
    | lift_lets
    | split
    | (fail_if_no_progress with_reducible refine frame_upd ?_)
    | dsimp only

theorem recommission_frame {r : Root} (hz : OnlyChanges F z s) (m1 : Part.out ∈ F) (m2 : Part.clk ∈ F) (m3 : Part.regs ∈ F) (m4 : Part.portA ∈ F) (m5 : Part.portB ∈ F) (m6 : Part.evr ∈ F) (m12 : Part.cry ∈ F) (m13 : Part.boot ∈ F) (m14 : Part.dram ∈ F) (m16 : Part.map ∈ F) (m18 : Part.jrc ∈ F) (m20 : Part.prog ∈ F) (m21 : Part.pat ∈ F) : OnlyChanges F z (recommission s r) := by
  unfold recommission
  repeat' first
    | with_reducible assumption
    | (with_reducible apply wrField_frame)
    | (with_reducible apply recoverTake_frame)
    | (with_reducible apply newSalt_frame)
    | (with_reducible apply updCry_frame)
    | (with_reducible apply updTab_frame)
    | (with_reducible apply updMap_frame)
    | (with_reducible apply commitNow_frame)
    | (with_reducible apply progWrite_frame)
    | (with_reducible apply setChip_frame)
    | (with_reducible apply cutNow_frame)
    | (with_reducible apply updPat_frame)
    | (with_reducible apply recovNote_frame)
    | (with_reducible apply updBoot_frame)
    | (with_reducible apply raise_frame)
    | (with_reducible apply writeRecordCopy_frame)
    | (with_reducible refine frame_foldl (fun x b hx => ?_) ?_)
    | (with_reducible refine frame_foldl_fst (fun x b hx => ?_) ?_)
    | (intro b; refine (fun (_ : OnlyChanges F z b) => ?_) ?_; clear_value b; swap; dsimp only [b]; swap)
    | (intro b; refine (fun (_ : OnlyChanges F z b.1) => ?_) ?_; clear_value b; swap; dsimp only [b]; swap)
    | (intro b; clear_value b)
    | intro b
    | lift_lets
    | split
    | dsimp only

theorem recomRefused_frame (hz : OnlyChanges F z s) (m1 : Part.out ∈ F) (m3 : Part.regs ∈ F) (m4 : Part.portA ∈ F) (m5 : Part.portB ∈ F) (m6 : Part.evr ∈ F) (m13 : Part.boot ∈ F) : OnlyChanges F z (recomRefused s) := by
  unfold recomRefused
  repeat' first
    | with_reducible assumption
    | (with_reducible apply raise_frame)
    | (with_reducible apply writeRecordCopy_frame)
    | (with_reducible apply frame_ite)
    | (intro b; refine (fun (_ : OnlyChanges F z b) => ?_) ?_; clear_value b; swap; dsimp only [b]; swap)
    | (intro b; clear_value b)
    | intro b
    | lift_lets
    | split
    | dsimp only

theorem rootsRead_frame (hz : OnlyChanges F z s) (m1 : Part.out ∈ F) (m3 : Part.regs ∈ F) (m4 : Part.portA ∈ F) (m5 : Part.portB ∈ F) (m6 : Part.evr ∈ F) (m18 : Part.jrc ∈ F) : OnlyChanges F z (rootsRead s) := by
  unfold rootsRead
  repeat' first
    | with_reducible assumption
    | (with_reducible apply mirroredRead_frame)
    | (with_reducible apply updJrc_frame)
    | (with_reducible apply frame_ite)
    | (with_reducible apply frame_ite_fst)
    | (with_reducible refine frame_foldl (fun x b hx => ?_) ?_)
    | (with_reducible refine frame_foldl_fst (fun x b hx => ?_) ?_)
    | (intro b; refine (fun (_ : OnlyChanges F z b) => ?_) ?_; clear_value b; swap; dsimp only [b]; swap)
    | (intro b; refine (fun (_ : OnlyChanges F z b.1) => ?_) ?_; clear_value b; swap; dsimp only [b]; swap)
    | (intro b; clear_value b)
    | intro b
    | lift_lets
    | split
    | (refine frame_of_eq (by assumption) ?_)
    | dsimp only

theorem selectRoot_frame (hz : OnlyChanges F z s) (m3 : Part.regs ∈ F) : OnlyChanges F z (selectRoot s) := by
  unfold selectRoot
  repeat' first
    | with_reducible assumption
    | (with_reducible apply recovNote_frame)
    | (with_reducible apply frame_ite)
    | split
    | dsimp only

theorem loadMap_frame (hz : OnlyChanges F z s) (m1 : Part.out ∈ F) (m3 : Part.regs ∈ F) (m4 : Part.portA ∈ F) (m5 : Part.portB ∈ F) (m6 : Part.evr ∈ F) (m14 : Part.dram ∈ F) (m16 : Part.map ∈ F) (m18 : Part.jrc ∈ F) (m20 : Part.prog ∈ F) (m21 : Part.pat ∈ F) : OnlyChanges F z (loadMap s) := by
  unfold loadMap
  repeat' first
    | with_reducible assumption
    | (with_reducible apply recoverFrom_frame)
    | (with_reducible apply recoverFailed_frame)
    | (with_reducible apply frame_ite)
    | split
    | dsimp only

theorem restoreRetired_frame (hz : OnlyChanges F z s) (m3 : Part.regs ∈ F) (m9 : Part.chip ∈ F) : OnlyChanges F z (restoreRetired s) := by
  unfold restoreRetired
  repeat' first
    | with_reducible assumption
    | (with_reducible apply orReg_frame)
    | (with_reducible apply updChip_frame)
    | (with_reducible refine frame_foldl (fun x b hx => ?_) ?_)
    | (with_reducible refine frame_foldl_fst (fun x b hx => ?_) ?_)
    | (intro b; refine (fun (_ : OnlyChanges F z b) => ?_) ?_; clear_value b; swap; dsimp only [b]; swap)
    | (intro b; refine (fun (_ : OnlyChanges F z b.1) => ?_) ?_; clear_value b; swap; dsimp only [b]; swap)
    | (intro b; clear_value b)
    | intro b
    | lift_lets

theorem resumeRetired_frame (hz : OnlyChanges F z s) (m16 : Part.map ∈ F) : OnlyChanges F z (resumeRetired s) := by
  unfold resumeRetired
  repeat' first
    | with_reducible assumption
    | (with_reducible apply updTab_frame)
    | (with_reducible apply updMap_frame)
    | (with_reducible apply frame_ite)
    | (with_reducible apply frame_ite_fst)
    | (intro b; refine (fun (_ : OnlyChanges F z b) => ?_) ?_; clear_value b; swap; dsimp only [b]; swap)
    | (intro b; refine (fun (_ : OnlyChanges F z b.1) => ?_) ?_; clear_value b; swap; dsimp only [b]; swap)
    | (with_reducible apply hfn)
    | (intro b; refine (fun (hfn : ∀ x, OnlyChanges F z x → OnlyChanges F z (b x)) => ?_) ?_; clear_value b; swap; (intro x hx; dsimp only [b]); swap)
    | (intro b; refine (fun (hfn : ∀ x y, OnlyChanges F z x → OnlyChanges F z (b x y)) => ?_) ?_; clear_value b; swap; (intro x y hx; dsimp only [b]); swap)
    | (with_reducible apply hfc)
    | (with_reducible apply hfd)
    | (intro b; refine (fun (hfc : ∀ x, OnlyChanges F z (b x)) => ?_) ?_; clear_value b; swap; (intro x; dsimp only [b]); swap)
    | (intro b; refine (fun (hfd : ∀ x y, OnlyChanges F z (b x y)) => ?_) ?_; clear_value b; swap; (intro x y; dsimp only [b]); swap)
    | (intro b; clear_value b)
    | intro b
    | lift_lets
    | split

theorem seedTables_frame (hz : OnlyChanges F z s) (m1 : Part.out ∈ F) (m2 : Part.clk ∈ F) (m3 : Part.regs ∈ F) (m4 : Part.portA ∈ F) (m5 : Part.portB ∈ F) (m6 : Part.evr ∈ F) (m14 : Part.dram ∈ F) (m15 : Part.phc ∈ F) (m18 : Part.jrc ∈ F) (m21 : Part.pat ∈ F) (m22 : Part.mem ∈ F) : OnlyChanges F z (seedTables s) := by
  unfold seedTables
  repeat' first
    | with_reducible assumption
    | (with_reducible apply directWrite_frame)
    | (with_reducible apply frame_ite)
    | (with_reducible refine frame_foldl (fun x b hx => ?_) ?_)
    | (intro b; refine (fun (_ : OnlyChanges F z b) => ?_) ?_; clear_value b; swap; dsimp only [b]; swap)
    | (intro b; clear_value b)
    | intro b
    | lift_lets
    | split

theorem stage4_frame (hz : OnlyChanges F z s) (m1 : Part.out ∈ F) (m2 : Part.clk ∈ F) (m3 : Part.regs ∈ F) (m4 : Part.portA ∈ F) (m5 : Part.portB ∈ F) (m6 : Part.evr ∈ F) (m9 : Part.chip ∈ F) (m12 : Part.cry ∈ F) (m13 : Part.boot ∈ F) (m14 : Part.dram ∈ F) (m15 : Part.phc ∈ F) (m16 : Part.map ∈ F) (m17 : Part.flash ∈ F) (m18 : Part.jrc ∈ F) (m20 : Part.prog ∈ F) (m21 : Part.pat ∈ F) (m22 : Part.mem ∈ F) : OnlyChanges F z (stage4 s) := by
  unfold stage4
  repeat' first
    | with_reducible assumption
    | (with_reducible apply restoreRetired_frame)
    | (with_reducible apply trig54_frame)
    | (with_reducible apply wrField_frame)
    | (with_reducible apply stage_frame)
    | (with_reducible apply takeCost_frame)
    | (with_reducible apply enableBlk_frame)
    | (with_reducible apply seedTables_frame)
    | (with_reducible apply courierStart_frame)
    | (with_reducible apply rootsRead_frame)
    | (with_reducible apply firstBoot_frame)
    | (with_reducible apply recommission_frame)
    | (with_reducible apply selectRoot_frame)
    | (with_reducible apply recomRefused_frame)
    | (with_reducible apply frame_ite)
    | (with_reducible refine frame_foldl (fun x b hx => ?_) ?_)
    | (intro b; refine (fun (_ : OnlyChanges F z b) => ?_) ?_; clear_value b; swap; dsimp only [b]; swap)
    | (intro b; clear_value b)
    | intro b
    | lift_lets
    | split
    | dsimp only

theorem closeAt_frame {k : Nat} {x : Nat} {o : OpenSb} {b : Sb} {r : Nat} {done : List Nat} {bare : optParam (List Nat) []} (hz : OnlyChanges F z s) (m1 : Part.out ∈ F) (m3 : Part.regs ∈ F) (m4 : Part.portA ∈ F) (m5 : Part.portB ∈ F) (m6 : Part.evr ∈ F) (m9 : Part.chip ∈ F) (m16 : Part.map ∈ F) (m18 : Part.jrc ∈ F) : OnlyChanges F z (closeAt s k x o b r done bare) := by
  unfold closeAt
  repeat' first
    | with_reducible assumption
    | (with_reducible apply modSb_frame)
    | (with_reducible apply updMap_frame)
    | (with_reducible apply updChip_frame)
    | (with_reducible apply strCauseSet_frame)
    | (with_reducible apply refreshHead_frame)
    | (with_reducible apply askSeal_frame)
    | (with_reducible apply frame_ite)
    | (intro b; refine (fun (_ : OnlyChanges F z b) => ?_) ?_; clear_value b; swap; dsimp only [b]; swap)
    | (with_reducible apply hfn)
    | (intro b; refine (fun (hfn : ∀ x, OnlyChanges F z x → OnlyChanges F z (b x)) => ?_) ?_; clear_value b; swap; (intro x hx; dsimp only [b]); swap)
    | (intro b; refine (fun (hfn : ∀ x y, OnlyChanges F z x → OnlyChanges F z (b x y)) => ?_) ?_; clear_value b; swap; (intro x y hx; dsimp only [b]); swap)
    | (with_reducible apply hfc)
    | (with_reducible apply hfd)
    | (intro b; refine (fun (hfc : ∀ x, OnlyChanges F z (b x)) => ?_) ?_; clear_value b; swap; (intro x; dsimp only [b]); swap)
    | (intro b; refine (fun (hfd : ∀ x y, OnlyChanges F z (b x y)) => ?_) ?_; clear_value b; swap; (intro x y; dsimp only [b]); swap)
    | (intro b; clear_value b)
    | intro b
    | lift_lets
    | split

theorem sealAt_frame {k : Nat} {x : Nat} {o : OpenSb} (hz : OnlyChanges F z s) (m9 : Part.chip ∈ F) (m16 : Part.map ∈ F) (m18 : Part.jrc ∈ F) : OnlyChanges F z (sealAt s k x o) := by
  unfold sealAt
  repeat' first
    | with_reducible assumption
    | (with_reducible apply updMap_frame)
    | (with_reducible apply askSeal_frame)
    | (with_reducible apply updChip_frame)
    | (intro b; refine (fun (_ : OnlyChanges F z b) => ?_) ?_; clear_value b; swap; dsimp only [b]; swap)
    | (intro b; clear_value b)
    | intro b
    | lift_lets

theorem reopen_frame {x : Nat} {b : Sb} (hz : OnlyChanges F z s) (m1 : Part.out ∈ F) (m3 : Part.regs ∈ F) (m4 : Part.portA ∈ F) (m5 : Part.portB ∈ F) (m6 : Part.evr ∈ F) (m9 : Part.chip ∈ F) (m16 : Part.map ∈ F) (m18 : Part.jrc ∈ F) : OnlyChanges F z (reopen s x b) := by
  unfold reopen
  repeat' first
    | with_reducible assumption
    | (with_reducible apply modSb_frame)
    | (with_reducible apply sealAt_frame)
    | (with_reducible apply updMap_frame)
    | (with_reducible apply closeAt_frame)
    | (with_reducible apply frame_ite)
    | (with_reducible apply frame_ite_fst)
    | (intro b; refine (fun (_ : OnlyChanges F z b) => ?_) ?_; clear_value b; swap; dsimp only [b]; swap)
    | (intro b; refine (fun (_ : OnlyChanges F z b.1) => ?_) ?_; clear_value b; swap; dsimp only [b]; swap)
    | (intro b; clear_value b)
    | intro b
    | lift_lets
    | split
    | dsimp only

theorem loadKeys_frame (hz : OnlyChanges F z s) (m1 : Part.out ∈ F) (m3 : Part.regs ∈ F) (m4 : Part.portA ∈ F) (m5 : Part.portB ∈ F) (m6 : Part.evr ∈ F) (m12 : Part.cry ∈ F) (m18 : Part.jrc ∈ F) : OnlyChanges F z (loadKeys s) := by
  unfold loadKeys
  repeat' first
    | with_reducible assumption
    | (with_reducible apply mirroredRead_frame)
    | (with_reducible apply updCry_frame)
    | (with_reducible apply frame_ite)
    | (with_reducible apply frame_ite_fst)
    | (with_reducible refine frame_foldl (fun x b hx => ?_) ?_)
    | (with_reducible refine frame_foldl_fst (fun x b hx => ?_) ?_)
    | (intro b; refine (fun (_ : OnlyChanges F z b) => ?_) ?_; clear_value b; swap; dsimp only [b]; swap)
    | (intro b; refine (fun (_ : OnlyChanges F z b.1) => ?_) ?_; clear_value b; swap; dsimp only [b]; swap)
    | (intro b; clear_value b)
    | intro b
    | lift_lets
    | split
    | (refine frame_of_eq (by assumption) ?_)
    | dsimp only

theorem phcStart_frame (hz : OnlyChanges F z s) (m2 : Part.clk ∈ F) (m3 : Part.regs ∈ F) (m14 : Part.dram ∈ F) (m15 : Part.phc ∈ F) (m22 : Part.mem ∈ F) : OnlyChanges F z (phcStart s) := by
  unfold phcStart
  repeat' first
    | with_reducible assumption
    | (with_reducible apply phcEnable_frame)
    | (with_reducible apply invalidationDone_frame)
    | (with_reducible apply wrField_frame)

theorem stage5_frame (hz : OnlyChanges F z s) (m1 : Part.out ∈ F) (m2 : Part.clk ∈ F) (m3 : Part.regs ∈ F) (m4 : Part.portA ∈ F) (m5 : Part.portB ∈ F) (m6 : Part.evr ∈ F) (m9 : Part.chip ∈ F) (m12 : Part.cry ∈ F) (m13 : Part.boot ∈ F) (m14 : Part.dram ∈ F) (m15 : Part.phc ∈ F) (m16 : Part.map ∈ F) (m17 : Part.flash ∈ F) (m18 : Part.jrc ∈ F) (m20 : Part.prog ∈ F) (m21 : Part.pat ∈ F) (m22 : Part.mem ∈ F) : OnlyChanges F z (stage5 s) := by
  unfold stage5
  repeat' first
    | with_reducible assumption
    | (with_reducible apply loadKeys_frame)
    | (with_reducible apply loadMap_frame)
    | (with_reducible apply phcStart_frame)
    | (with_reducible apply stage_frame)
    | (with_reducible apply resumeRetired_frame)
    | (with_reducible apply oldSalts_frame)
    | (with_reducible apply commissioned_frame)
    | (with_reducible apply enableBlk_frame)
    | (with_reducible apply wrField_frame)
    | (with_reducible apply reopen_frame)
    | (with_reducible apply restoreDone_frame)
    | (with_reducible apply updMap_frame)
    | (with_reducible apply ckptStart_frame)
    | (with_reducible apply spaceUpdate_frame)
    | (with_reducible apply turn_frame)
    | (with_reducible apply frame_ite)
    | (with_reducible apply frame_ite_fst)
    | (with_reducible refine frame_foldl (fun x b hx => ?_) ?_)
    | (with_reducible refine frame_foldl_fst (fun x b hx => ?_) ?_)
    | (intro b; refine (fun (_ : OnlyChanges F z b) => ?_) ?_; clear_value b; swap; dsimp only [b]; swap)
    | (intro b; refine (fun (_ : OnlyChanges F z b.1) => ?_) ?_; clear_value b; swap; dsimp only [b]; swap)
    | (intro b; clear_value b)
    | intro b
    | lift_lets
    | split
    | dsimp only

theorem portReady_frame {p : Port} (hz : OnlyChanges F z s) (m4 : Part.portA ∈ F) (m5 : Part.portB ∈ F) (m11 : Part.sec ∈ F) : OnlyChanges F z (portReady s p) := by
  unfold portReady
  repeat' first
    | with_reducible assumption
    | (with_reducible apply noteReady_frame)
    | (with_reducible apply setPort_frame)
    | (with_reducible apply frame_ite)
    | (intro b; refine (fun (_ : OnlyChanges F z b) => ?_) ?_; clear_value b; swap; dsimp only [b]; swap)
    | (intro b; clear_value b)
    | intro b
    | lift_lets
    | split
    | (fail_if_no_progress with_reducible refine frame_upd ?_)

theorem progResume_frame (hz : OnlyChanges F z s) (m1 : Part.out ∈ F) (m2 : Part.clk ∈ F) (m3 : Part.regs ∈ F) (m4 : Part.portA ∈ F) (m5 : Part.portB ∈ F) (m6 : Part.evr ∈ F) (m12 : Part.cry ∈ F) (m16 : Part.map ∈ F) (m17 : Part.flash ∈ F) (m18 : Part.jrc ∈ F) (m20 : Part.prog ∈ F) (m22 : Part.mem ∈ F) : OnlyChanges F z (progResume s) := by
  unfold progResume
  repeat' first
    | with_reducible assumption
    | (with_reducible apply sanitizeKeys_frame)
    | (with_reducible apply segFill_frame)
    | (with_reducible apply issueRound_frame)
    | (with_reducible apply frame_ite)
    | (intro b; refine (fun (_ : OnlyChanges F z b) => ?_) ?_; clear_value b; swap; dsimp only [b]; swap)
    | (intro b; clear_value b)
    | intro b
    | lift_lets
    | split
    | (fail_if_no_progress with_reducible refine frame_upd ?_)

theorem offTime_frame (hz : OnlyChanges F z s) (m21 : Part.pat ∈ F) : OnlyChanges F z (offTime s) := by
  unfold offTime
  repeat' first
    | with_reducible assumption
    | (with_reducible apply updPat_frame)
    | (with_reducible apply frame_ite)
    | (intro b; refine (fun (_ : OnlyChanges F z b) => ?_) ?_; clear_value b; swap; dsimp only [b]; swap)
    | (intro b; clear_value b)
    | intro b
    | lift_lets
    | split

theorem stage6_frame (hz : OnlyChanges F z s) (m1 : Part.out ∈ F) (m2 : Part.clk ∈ F) (m3 : Part.regs ∈ F) (m4 : Part.portA ∈ F) (m5 : Part.portB ∈ F) (m6 : Part.evr ∈ F) (m9 : Part.chip ∈ F) (m11 : Part.sec ∈ F) (m12 : Part.cry ∈ F) (m16 : Part.map ∈ F) (m17 : Part.flash ∈ F) (m18 : Part.jrc ∈ F) (m20 : Part.prog ∈ F) (m21 : Part.pat ∈ F) (m22 : Part.mem ∈ F) : OnlyChanges F z (stage6 s) := by
  unfold stage6
  repeat' first
    | with_reducible assumption
    | (with_reducible apply updChip_frame)
    | (with_reducible apply wrField_frame)
    | (with_reducible apply recovEnd_frame)
    | (with_reducible apply enableBlk_frame)
    | (with_reducible apply stage_frame)
    | (with_reducible apply updPat_frame)
    | (with_reducible apply offTime_frame)
    | (with_reducible apply portReady_frame)
    | (with_reducible apply pump_frame)
    | (with_reducible apply progResume_frame)
    | (with_reducible apply frame_ite)
    | (intro b; refine (fun (_ : OnlyChanges F z b) => ?_) ?_; clear_value b; swap; dsimp only [b]; swap)
    | (intro b; clear_value b)
    | intro b
    | lift_lets
    | split
    | dsimp only

theorem stages3_frame (hz : OnlyChanges F z s) (m1 : Part.out ∈ F) (m2 : Part.clk ∈ F) (m3 : Part.regs ∈ F) (m4 : Part.portA ∈ F) (m5 : Part.portB ∈ F) (m6 : Part.evr ∈ F) (m9 : Part.chip ∈ F) (m11 : Part.sec ∈ F) (m12 : Part.cry ∈ F) (m13 : Part.boot ∈ F) (m14 : Part.dram ∈ F) (m15 : Part.phc ∈ F) (m16 : Part.map ∈ F) (m17 : Part.flash ∈ F) (m18 : Part.jrc ∈ F) (m20 : Part.prog ∈ F) (m21 : Part.pat ∈ F) (m22 : Part.mem ∈ F) : OnlyChanges F z (stages3 s) := by
  unfold stages3
  repeat' first
    | with_reducible assumption
    | (with_reducible apply stage3_frame)
    | (with_reducible apply stage6_frame)
    | (with_reducible apply stage5_frame)
    | (with_reducible apply stage4_frame)
    | (with_reducible apply frame_ite)
    | (intro b; refine (fun (_ : OnlyChanges F z b) => ?_) ?_; clear_value b; swap; dsimp only [b]; swap)
    | (intro b; clear_value b)
    | intro b
    | lift_lets
    | split

theorem wakeEnd_frame (hz : OnlyChanges F z s) (m1 : Part.out ∈ F) (m2 : Part.clk ∈ F) (m3 : Part.regs ∈ F) (m4 : Part.portA ∈ F) (m5 : Part.portB ∈ F) (m6 : Part.evr ∈ F) (m9 : Part.chip ∈ F) (m11 : Part.sec ∈ F) (m12 : Part.cry ∈ F) (m13 : Part.boot ∈ F) (m14 : Part.dram ∈ F) (m15 : Part.phc ∈ F) (m16 : Part.map ∈ F) (m17 : Part.flash ∈ F) (m18 : Part.jrc ∈ F) (m20 : Part.prog ∈ F) (m21 : Part.pat ∈ F) (m22 : Part.mem ∈ F) : OnlyChanges F z (wakeEnd s) := by
  unfold wakeEnd
  repeat' first
    | with_reducible assumption
    | (with_reducible apply stages3_frame)
    | (with_reducible apply updChip_frame)
    | (with_reducible apply frame_ite)
    | split

theorem resetRelease_frame (hz : OnlyChanges F z s) (m1 : Part.out ∈ F) (m2 : Part.clk ∈ F) (m3 : Part.regs ∈ F) (m4 : Part.portA ∈ F) (m5 : Part.portB ∈ F) (m6 : Part.evr ∈ F) (m7 : Part.thm ∈ F) (m8 : Part.pwr ∈ F) (m9 : Part.chip ∈ F) (m10 : Part.ring ∈ F) (m11 : Part.sec ∈ F) (m12 : Part.cry ∈ F) (m13 : Part.boot ∈ F) (m14 : Part.dram ∈ F) (m15 : Part.phc ∈ F) (m16 : Part.map ∈ F) (m17 : Part.flash ∈ F) (m18 : Part.jrc ∈ F) (m20 : Part.prog ∈ F) (m21 : Part.pat ∈ F) (m22 : Part.mem ∈ F) : OnlyChanges F z (resetRelease s) := by
  unfold resetRelease
  repeat' first
    | with_reducible assumption
    | (with_reducible apply updChip_frame)
    | (with_reducible apply aonReset_frame)
    | (with_reducible apply powerUp_frame)
    | (with_reducible apply updClk_frame)
    | (with_reducible apply raise_frame)
    | (with_reducible apply wr_frame)
    | (with_reducible apply setCause_frame)
    | (with_reducible apply updPwr_frame)
    | (with_reducible apply stage2_frame)
    | (with_reducible apply stage1_frame)
    | (with_reducible apply stage_frame)
    | (with_reducible apply stages3_frame)
    | (with_reducible apply frame_ite)
    | (intro b; refine (fun (_ : OnlyChanges F z b) => ?_) ?_; clear_value b; swap; dsimp only [b]; swap)
    | (intro b; clear_value b)
    | intro b
    | lift_lets
    | split

theorem perstOff_frame {p : Port} (hz : OnlyChanges F z s) (m3 : Part.regs ∈ F) (m4 : Part.portA ∈ F) (m5 : Part.portB ∈ F) : OnlyChanges F z (perstOff s p) := by
  unfold perstOff
  repeat' first
    | with_reducible assumption
    | (with_reducible apply modPort_frame)
    | (with_reducible apply portEnable_frame)
    | (with_reducible apply frame_ite)
    | (intro b; refine (fun (_ : OnlyChanges F z b) => ?_) ?_; clear_value b; swap; dsimp only [b]; swap)
    | (intro b; clear_value b)
    | intro b
    | lift_lets
    | split
    | (fail_if_no_progress with_reducible refine frame_upd ?_)

theorem recomDone_frame (hz : OnlyChanges F z s) (m1 : Part.out ∈ F) (m3 : Part.regs ∈ F) (m4 : Part.portA ∈ F) (m5 : Part.portB ∈ F) (m6 : Part.evr ∈ F) (m13 : Part.boot ∈ F) (m16 : Part.map ∈ F) : OnlyChanges F z (recomDone s) := by
  unfold recomDone
  repeat' first
    | with_reducible assumption
    | (with_reducible apply updTab_frame)
    | (with_reducible apply updMap_frame)
    | (with_reducible apply updBoot_frame)
    | (with_reducible apply setChip_frame)
    | (with_reducible apply frame_ite)
    | (intro b; refine (fun (_ : OnlyChanges F z b) => ?_) ?_; clear_value b; swap; dsimp only [b]; swap)
    | (intro b; clear_value b)
    | intro b
    | lift_lets
    | split

theorem recountEnd_frame (hz : OnlyChanges F z s) (m1 : Part.out ∈ F) (m2 : Part.clk ∈ F) (m3 : Part.regs ∈ F) (m4 : Part.portA ∈ F) (m5 : Part.portB ∈ F) (m6 : Part.evr ∈ F) (m9 : Part.chip ∈ F) (m11 : Part.sec ∈ F) (m12 : Part.cry ∈ F) (m16 : Part.map ∈ F) (m17 : Part.flash ∈ F) (m18 : Part.jrc ∈ F) (m20 : Part.prog ∈ F) (m21 : Part.pat ∈ F) (m22 : Part.mem ∈ F) : OnlyChanges F z (recountEnd s) := by
  unfold recountEnd
  repeat' first
    | with_reducible assumption
    | (with_reducible apply stage6_frame)
    | (with_reducible apply recountDone_frame)
    | (with_reducible apply frame_ite)
    | split

theorem commitEnded_frame {lines : List LineReq} (hz : OnlyChanges F z s) (m1 : Part.out ∈ F) (m2 : Part.clk ∈ F) (m3 : Part.regs ∈ F) (m4 : Part.portA ∈ F) (m5 : Part.portB ∈ F) (m6 : Part.evr ∈ F) (m9 : Part.chip ∈ F) (m11 : Part.sec ∈ F) (m12 : Part.cry ∈ F) (m13 : Part.boot ∈ F) (m14 : Part.dram ∈ F) (m15 : Part.phc ∈ F) (m16 : Part.map ∈ F) (m17 : Part.flash ∈ F) (m18 : Part.jrc ∈ F) (m19 : Part.srt ∈ F) (m20 : Part.prog ∈ F) (m21 : Part.pat ∈ F) (m22 : Part.mem ∈ F) : OnlyChanges F z (commitEnded s lines) := by
  unfold commitEnded
  repeat' first
    | with_reducible assumption
    | (with_reducible apply stage6_frame)
    | (with_reducible apply commitAck_frame)
    | (with_reducible apply recomDone_frame)
    | (with_reducible apply frame_ite)
    | (intro b; refine (fun (_ : OnlyChanges F z b) => ?_) ?_; clear_value b; swap; dsimp only [b]; swap)
    | (intro b; clear_value b)
    | intro b
    | lift_lets
    | split

theorem hfeRaise_frame {p : Port} {src : Nat} (hz : OnlyChanges F z s) (m1 : Part.out ∈ F) (m3 : Part.regs ∈ F) (m4 : Part.portA ∈ F) (m5 : Part.portB ∈ F) (m6 : Part.evr ∈ F) : OnlyChanges F z (hfeRaise s p src) := by
  unfold hfeRaise
  repeat' first
    | with_reducible assumption
    | (with_reducible apply raise_frame)

theorem drainStart_frame {p : Port} {k : DrainKind} (hz : OnlyChanges F z s) (m1 : Part.out ∈ F) (m2 : Part.clk ∈ F) (m3 : Part.regs ∈ F) (m4 : Part.portA ∈ F) (m5 : Part.portB ∈ F) (m6 : Part.evr ∈ F) (m10 : Part.ring ∈ F) (m11 : Part.sec ∈ F) (m14 : Part.dram ∈ F) (m15 : Part.phc ∈ F) (m16 : Part.map ∈ F) (m17 : Part.flash ∈ F) (m18 : Part.jrc ∈ F) (m19 : Part.srt ∈ F) (m21 : Part.pat ∈ F) (m22 : Part.mem ∈ F) : OnlyChanges F z (drainStart s p k) := by
  unfold drainStart
  repeat' first
    | with_reducible assumption
    | (with_reducible apply modPort_frame)
    | (with_reducible apply modCmd_frame)
    | (with_reducible apply updSec_frame)
    | (with_reducible apply updRing_frame)
    | (with_reducible apply endCmd_frame)
    | (with_reducible apply pump_frame)
    | (with_reducible apply proceedAll_frame)
    | (with_reducible apply trkSettle_frame)
    | (with_reducible apply frame_ite)
    | (with_reducible apply frame_ite_fst)
    | (with_reducible refine frame_foldl (fun x b hx => ?_) ?_)
    | (with_reducible refine frame_foldl_fst (fun x b hx => ?_) ?_)
    | (intro b; refine (fun (_ : OnlyChanges F z b) => ?_) ?_; clear_value b; swap; dsimp only [b]; swap)
    | (intro b; refine (fun (_ : OnlyChanges F z b.1) => ?_) ?_; clear_value b; swap; dsimp only [b]; swap)
    | (with_reducible apply hfn)
    | (intro b; refine (fun (hfn : ∀ x, OnlyChanges F z x → OnlyChanges F z (b x)) => ?_) ?_; clear_value b; swap; (intro x hx; dsimp only [b]); swap)
    | (intro b; refine (fun (hfn : ∀ x y, OnlyChanges F z x → OnlyChanges F z (b x y)) => ?_) ?_; clear_value b; swap; (intro x y hx; dsimp only [b]); swap)
    | (with_reducible apply hfc)
    | (with_reducible apply hfd)
    | (intro b; refine (fun (hfc : ∀ x, OnlyChanges F z (b x)) => ?_) ?_; clear_value b; swap; (intro x; dsimp only [b]); swap)
    | (intro b; refine (fun (hfd : ∀ x y, OnlyChanges F z (b x y)) => ?_) ?_; clear_value b; swap; (intro x y; dsimp only [b]); swap)
    | (intro b; clear_value b)
    | intro b
    | lift_lets
    | split
    | (fail_if_no_progress with_reducible refine frame_upd ?_)
    | dsimp only

theorem controllerCleared_frame {p : Port} (hz : OnlyChanges F z s) (m4 : Part.portA ∈ F) (m5 : Part.portB ∈ F) : OnlyChanges F z (controllerCleared s p) := by
  unfold controllerCleared
  repeat' first
    | with_reducible assumption
    | (with_reducible apply modPort_frame)
    | (fail_if_no_progress with_reducible refine frame_upd ?_)

theorem shutDown_frame {p : Port} (hz : OnlyChanges F z s) (m4 : Part.portA ∈ F) (m5 : Part.portB ∈ F) : OnlyChanges F z (shutDown s p) := by
  unfold shutDown
  repeat' first
    | with_reducible assumption
    | (with_reducible apply modPort_frame)
    | (fail_if_no_progress with_reducible refine frame_upd ?_)

theorem drainEnd_frame {p : Port} (hz : OnlyChanges F z s) (m1 : Part.out ∈ F) (m3 : Part.regs ∈ F) (m4 : Part.portA ∈ F) (m5 : Part.portB ∈ F) (m6 : Part.evr ∈ F) : OnlyChanges F z (drainEnd s p) := by
  unfold drainEnd
  repeat' first
    | with_reducible assumption
    | (with_reducible apply modPort_frame)
    | (with_reducible apply shutDown_frame)
    | (with_reducible apply hfeRaise_frame)
    | (with_reducible apply controllerCleared_frame)
    | (with_reducible apply frame_ite)
    | (intro b; refine (fun (_ : OnlyChanges F z b) => ?_) ?_; clear_value b; swap; dsimp only [b]; swap)
    | (intro b; clear_value b)
    | intro b
    | lift_lets
    | split
    | (fail_if_no_progress with_reducible refine frame_upd ?_)
    | dsimp only

theorem enableController_frame {p : Port} {cc : CcFields} {aqa : Aqa} (hz : OnlyChanges F z s) (m1 : Part.out ∈ F) (m3 : Part.regs ∈ F) (m4 : Part.portA ∈ F) (m5 : Part.portB ∈ F) (m6 : Part.evr ∈ F) (m11 : Part.sec ∈ F) : OnlyChanges F z (enableController s p cc aqa) := by
  unfold enableController
  repeat' first
    | with_reducible assumption
    | (with_reducible apply hfeRaise_frame)
    | (with_reducible apply setPort_frame)
    | (with_reducible apply portReady_frame)
    | (with_reducible apply frame_ite)
    | (intro b; refine (fun (_ : OnlyChanges F z b) => ?_) ?_; clear_value b; swap; dsimp only [b]; swap)
    | (intro b; clear_value b)
    | intro b
    | lift_lets
    | split
    | (fail_if_no_progress with_reducible refine frame_upd ?_)

theorem disableController_frame {p : Port} (hz : OnlyChanges F z s) (m1 : Part.out ∈ F) (m2 : Part.clk ∈ F) (m3 : Part.regs ∈ F) (m4 : Part.portA ∈ F) (m5 : Part.portB ∈ F) (m6 : Part.evr ∈ F) (m10 : Part.ring ∈ F) (m11 : Part.sec ∈ F) (m14 : Part.dram ∈ F) (m15 : Part.phc ∈ F) (m16 : Part.map ∈ F) (m17 : Part.flash ∈ F) (m18 : Part.jrc ∈ F) (m19 : Part.srt ∈ F) (m21 : Part.pat ∈ F) (m22 : Part.mem ∈ F) : OnlyChanges F z (disableController s p) := by
  unfold disableController
  repeat' first
    | with_reducible assumption
    | (with_reducible apply hfeRaise_frame)
    | (with_reducible apply drainStart_frame)
    | (with_reducible apply setPort_frame)
    | (with_reducible apply frame_ite)
    | (intro b; refine (fun (_ : OnlyChanges F z b) => ?_) ?_; clear_value b; swap; dsimp only [b]; swap)
    | (intro b; clear_value b)
    | intro b
    | lift_lets
    | split
    | (fail_if_no_progress with_reducible refine frame_upd ?_)

theorem shutdownOrderly_frame {p : Port} (hz : OnlyChanges F z s) (m1 : Part.out ∈ F) (m3 : Part.regs ∈ F) (m4 : Part.portA ∈ F) (m5 : Part.portB ∈ F) (m6 : Part.evr ∈ F) : OnlyChanges F z (shutdownOrderly s p) := by
  unfold shutdownOrderly
  repeat' first
    | with_reducible assumption
    | (with_reducible apply hfeRaise_frame)
    | (with_reducible apply setPort_frame)
    | (with_reducible apply drainEnd_frame)
    | (with_reducible apply frame_ite)
    | (intro b; refine (fun (_ : OnlyChanges F z b) => ?_) ?_; clear_value b; swap; dsimp only [b]; swap)
    | (intro b; clear_value b)
    | intro b
    | lift_lets
    | split
    | (fail_if_no_progress with_reducible refine frame_upd ?_)

theorem shutdownAtOnce_frame {p : Port} (hz : OnlyChanges F z s) (m1 : Part.out ∈ F) (m2 : Part.clk ∈ F) (m3 : Part.regs ∈ F) (m4 : Part.portA ∈ F) (m5 : Part.portB ∈ F) (m6 : Part.evr ∈ F) (m10 : Part.ring ∈ F) (m11 : Part.sec ∈ F) (m14 : Part.dram ∈ F) (m15 : Part.phc ∈ F) (m16 : Part.map ∈ F) (m17 : Part.flash ∈ F) (m18 : Part.jrc ∈ F) (m19 : Part.srt ∈ F) (m21 : Part.pat ∈ F) (m22 : Part.mem ∈ F) : OnlyChanges F z (shutdownAtOnce s p) := by
  unfold shutdownAtOnce
  repeat' first
    | with_reducible assumption
    | (with_reducible apply hfeRaise_frame)
    | (with_reducible apply drainStart_frame)
    | (with_reducible apply setPort_frame)
    | (with_reducible apply frame_ite)
    | (intro b; refine (fun (_ : OnlyChanges F z b) => ?_) ?_; clear_value b; swap; dsimp only [b]; swap)
    | (intro b; clear_value b)
    | intro b
    | lift_lets
    | split
    | (fail_if_no_progress with_reducible refine frame_upd ?_)

theorem functionReset_frame {p : Port} (hz : OnlyChanges F z s) (m3 : Part.regs ∈ F) (m4 : Part.portA ∈ F) (m5 : Part.portB ∈ F) (m11 : Part.sec ∈ F) : OnlyChanges F z (functionReset s p) := by
  unfold functionReset
  repeat' first
    | with_reducible assumption
    | (with_reducible apply wrField_frame)
    | (with_reducible apply closeWin_frame)
    | (with_reducible apply modPort_frame)
    | (with_reducible apply frame_ite)
    | (intro b; refine (fun (_ : OnlyChanges F z b) => ?_) ?_; clear_value b; swap; dsimp only [b]; swap)
    | (intro b; clear_value b)
    | intro b
    | lift_lets
    | split
    | (fail_if_no_progress with_reducible refine frame_upd ?_)

theorem flr_frame {p : Port} (hz : OnlyChanges F z s) (m1 : Part.out ∈ F) (m2 : Part.clk ∈ F) (m3 : Part.regs ∈ F) (m4 : Part.portA ∈ F) (m5 : Part.portB ∈ F) (m6 : Part.evr ∈ F) (m10 : Part.ring ∈ F) (m11 : Part.sec ∈ F) (m14 : Part.dram ∈ F) (m15 : Part.phc ∈ F) (m16 : Part.map ∈ F) (m17 : Part.flash ∈ F) (m18 : Part.jrc ∈ F) (m19 : Part.srt ∈ F) (m21 : Part.pat ∈ F) (m22 : Part.mem ∈ F) : OnlyChanges F z (flr s p) := by
  unfold flr
  repeat' first
    | with_reducible assumption
    | (with_reducible apply drainStart_frame)
    | (with_reducible apply wrField_frame)
    | (with_reducible apply functionReset_frame)
    | (with_reducible apply frame_ite)
    | split

theorem dropLink_frame {p : Port} {ltssm : Nat} (hz : OnlyChanges F z s) (m1 : Part.out ∈ F) (m3 : Part.regs ∈ F) (m4 : Part.portA ∈ F) (m5 : Part.portB ∈ F) (m6 : Part.evr ∈ F) : OnlyChanges F z (dropLink s p ltssm) := by
  unfold dropLink
  repeat' first
    | with_reducible assumption
    | (with_reducible apply hfeRaise_frame)
    | (with_reducible apply modPort_frame)
    | (with_reducible apply wr_frame)
    | (with_reducible apply frame_ite)
    | split
    | (fail_if_no_progress with_reducible refine frame_upd ?_)

theorem conventionalReset_frame {p : Port} {perst : Bool} (hz : OnlyChanges F z s) (m1 : Part.out ∈ F) (m2 : Part.clk ∈ F) (m3 : Part.regs ∈ F) (m4 : Part.portA ∈ F) (m5 : Part.portB ∈ F) (m6 : Part.evr ∈ F) (m10 : Part.ring ∈ F) (m11 : Part.sec ∈ F) (m14 : Part.dram ∈ F) (m15 : Part.phc ∈ F) (m16 : Part.map ∈ F) (m17 : Part.flash ∈ F) (m18 : Part.jrc ∈ F) (m19 : Part.srt ∈ F) (m21 : Part.pat ∈ F) (m22 : Part.mem ∈ F) : OnlyChanges F z (conventionalReset s p perst) := by
  unfold conventionalReset
  repeat' first
    | with_reducible assumption
    | (with_reducible apply modPort_frame)
    | (with_reducible apply drainStart_frame)
    | (with_reducible apply wrField_frame)
    | (with_reducible apply functionReset_frame)
    | (with_reducible apply dropLink_frame)
    | (with_reducible apply frame_ite)
    | (intro b; refine (fun (_ : OnlyChanges F z b) => ?_) ?_; clear_value b; swap; dsimp only [b]; swap)
    | (intro b; clear_value b)
    | intro b
    | lift_lets
    | split

theorem linkLost_frame {p : Port} (hz : OnlyChanges F z s) (m1 : Part.out ∈ F) (m2 : Part.clk ∈ F) (m3 : Part.regs ∈ F) (m4 : Part.portA ∈ F) (m5 : Part.portB ∈ F) (m6 : Part.evr ∈ F) (m10 : Part.ring ∈ F) (m11 : Part.sec ∈ F) (m14 : Part.dram ∈ F) (m15 : Part.phc ∈ F) (m16 : Part.map ∈ F) (m17 : Part.flash ∈ F) (m18 : Part.jrc ∈ F) (m19 : Part.srt ∈ F) (m21 : Part.pat ∈ F) (m22 : Part.mem ∈ F) : OnlyChanges F z (linkLost s p) := by
  unfold linkLost
  repeat' first
    | with_reducible assumption
    | (with_reducible apply drainStart_frame)
    | (with_reducible apply wrField_frame)
    | (with_reducible apply functionReset_frame)
    | (with_reducible apply dropLink_frame)
    | (with_reducible apply frame_ite)
    | split

theorem linkTrained_frame {p : Port} {rate : Nat} {width : Nat} {flit : Bool} (hz : OnlyChanges F z s) (m1 : Part.out ∈ F) (m3 : Part.regs ∈ F) (m4 : Part.portA ∈ F) (m5 : Part.portB ∈ F) (m6 : Part.evr ∈ F) : OnlyChanges F z (linkTrained s p rate width flit) := by
  unfold linkTrained
  repeat' first
    | with_reducible assumption
    | (with_reducible apply emit_frame)
    | (with_reducible apply wr_frame)
    | (with_reducible apply hfeRaise_frame)
    | (with_reducible apply modPort_frame)
    | (with_reducible apply frame_ite)
    | (intro b; refine (fun (_ : OnlyChanges F z b) => ?_) ?_; clear_value b; swap; dsimp only [b]; swap)
    | (intro b; clear_value b)
    | intro b
    | lift_lets
    | split

theorem ltrMessage_frame {p : Port} {us : Nat} (hz : OnlyChanges F z s) (m1 : Part.out ∈ F) (m3 : Part.regs ∈ F) (m4 : Part.portA ∈ F) (m5 : Part.portB ∈ F) : OnlyChanges F z (ltrMessage s p us) := by
  unfold ltrMessage
  repeat' first
    | with_reducible assumption
    | (with_reducible apply emit_frame)
    | (with_reducible apply wrField_frame)
    | (with_reducible apply setPort_frame)
    | (with_reducible apply frame_ite)
    | (intro b; refine (fun (_ : OnlyChanges F z b) => ?_) ?_; clear_value b; swap; dsimp only [b]; swap)
    | (intro b; clear_value b)
    | intro b
    | lift_lets
    | split
    | (fail_if_no_progress with_reducible refine frame_upd ?_)
    | dsimp only

theorem dState_frame {p : Port} {hot : Bool} (hz : OnlyChanges F z s) (m3 : Part.regs ∈ F) (m4 : Part.portA ∈ F) (m5 : Part.portB ∈ F) : OnlyChanges F z (dState s p hot) := by
  unfold dState
  repeat' first
    | with_reducible assumption
    | (with_reducible apply wrField_frame)
    | (with_reducible apply setPort_frame)
    | (with_reducible apply frame_ite)
    | (intro b; refine (fun (_ : OnlyChanges F z b) => ?_) ?_; clear_value b; swap; dsimp only [b]; swap)
    | (intro b; clear_value b)
    | intro b
    | lift_lets
    | split
    | (fail_if_no_progress with_reducible refine frame_upd ?_)

theorem ltrMaxSet_frame {p : Port} {m : Nat} (hz : OnlyChanges F z s) (m1 : Part.out ∈ F) (m3 : Part.regs ∈ F) (m4 : Part.portA ∈ F) (m5 : Part.portB ∈ F) (m6 : Part.evr ∈ F) : OnlyChanges F z (ltrMaxSet s p m) := by
  unfold ltrMaxSet
  repeat' first
    | with_reducible assumption
    | (with_reducible apply hfeRaise_frame)
    | (with_reducible apply wrField_frame)
    | (with_reducible apply modPort_frame)
    | (with_reducible apply frame_ite)
    | split

theorem configWrite_frame {p : Port} {off : Nat} {v : Nat} (hz : OnlyChanges F z s) (m1 : Part.out ∈ F) (m2 : Part.clk ∈ F) (m3 : Part.regs ∈ F) (m4 : Part.portA ∈ F) (m5 : Part.portB ∈ F) (m6 : Part.evr ∈ F) (m10 : Part.ring ∈ F) (m11 : Part.sec ∈ F) (m14 : Part.dram ∈ F) (m15 : Part.phc ∈ F) (m16 : Part.map ∈ F) (m17 : Part.flash ∈ F) (m18 : Part.jrc ∈ F) (m19 : Part.srt ∈ F) (m21 : Part.pat ∈ F) (m22 : Part.mem ∈ F) : OnlyChanges F z (configWrite s p off v) := by
  unfold configWrite
  repeat' first
    | with_reducible assumption
    | (with_reducible apply modPort_frame)
    | (with_reducible apply dState_frame)
    | (with_reducible apply msixFlush_frame)
    | (with_reducible apply flr_frame)
    | (with_reducible apply ltrMaxSet_frame)
    | (with_reducible apply frame_ite)
    | (with_reducible refine frame_foldl (fun x b hx => ?_) ?_)
    | (intro b; refine (fun (_ : OnlyChanges F z b) => ?_) ?_; clear_value b; swap; dsimp only [b]; swap)
    | (intro b; clear_value b)
    | intro b
    | lift_lets
    | split
    | (fail_if_no_progress with_reducible refine frame_upd ?_)

theorem configAccess_frame {p : Port} {w : CfgReq} (hz : OnlyChanges F z s) (m1 : Part.out ∈ F) (m2 : Part.clk ∈ F) (m3 : Part.regs ∈ F) (m4 : Part.portA ∈ F) (m5 : Part.portB ∈ F) (m6 : Part.evr ∈ F) (m10 : Part.ring ∈ F) (m11 : Part.sec ∈ F) (m14 : Part.dram ∈ F) (m15 : Part.phc ∈ F) (m16 : Part.map ∈ F) (m17 : Part.flash ∈ F) (m18 : Part.jrc ∈ F) (m19 : Part.srt ∈ F) (m21 : Part.pat ∈ F) (m22 : Part.mem ∈ F) : OnlyChanges F z (configAccess s p w) := by
  unfold configAccess
  repeat' first
    | with_reducible assumption
    | (with_reducible apply emit_frame)
    | (with_reducible apply freshBelow_frame)
    | (with_reducible apply configWrite_frame)
    | (with_reducible apply dState_frame)
    | (with_reducible apply modPort_frame)
    | (with_reducible apply ltrMaxSet_frame)
    | (with_reducible apply frame_ite)
    | (with_reducible apply frame_ite_fst)
    | (intro b; refine (fun (_ : OnlyChanges F z b) => ?_) ?_; clear_value b; swap; dsimp only [b]; swap)
    | (intro b; refine (fun (_ : OnlyChanges F z b.1) => ?_) ?_; clear_value b; swap; dsimp only [b]; swap)
    | (intro b; clear_value b)
    | intro b
    | lift_lets
    | split
    | (refine frame_of_eq (by assumption) ?_)
    | dsimp only

theorem aerLog_frame {p : Port} (hz : OnlyChanges F z s) (m2 : Part.clk ∈ F) (m4 : Part.portA ∈ F) (m5 : Part.portB ∈ F) : OnlyChanges F z (aerLog s p) := by
  unfold aerLog
  repeat' first
    | with_reducible assumption
    | (with_reducible apply freshBelow_frame)
    | (with_reducible apply modPort_frame)
    | (with_reducible apply frame_ite)
    | (with_reducible apply frame_ite_fst)
    | (intro b; refine (fun (_ : OnlyChanges F z b) => ?_) ?_; clear_value b; swap; dsimp only [b]; swap)
    | (intro b; refine (fun (_ : OnlyChanges F z b.1) => ?_) ?_; clear_value b; swap; dsimp only [b]; swap)
    | (intro b; clear_value b)
    | intro b
    | lift_lets
    | split
    | (refine frame_of_eq (by assumption) ?_)
    | (fail_if_no_progress with_reducible refine frame_upd ?_)
    | dsimp only

theorem pcieError_frame {p : Port} {id : Option Nat} (hz : OnlyChanges F z s) (m1 : Part.out ∈ F) (m2 : Part.clk ∈ F) (m3 : Part.regs ∈ F) (m4 : Part.portA ∈ F) (m5 : Part.portB ∈ F) (m6 : Part.evr ∈ F) (m16 : Part.map ∈ F) (m17 : Part.flash ∈ F) (m18 : Part.jrc ∈ F) (m19 : Part.srt ∈ F) : OnlyChanges F z (pcieError s p id) := by
  unfold pcieError
  repeat' first
    | with_reducible assumption
    | (with_reducible apply hfeRaise_frame)
    | (with_reducible apply aerLog_frame)
    | (with_reducible apply failCmd_frame)
    | (with_reducible apply frame_ite)
    | (intro b; refine (fun (_ : OnlyChanges F z b) => ?_) ?_; clear_value b; swap; dsimp only [b]; swap)
    | (intro b; clear_value b)
    | intro b
    | lift_lets
    | split
    | dsimp only

end Sys2Proof.Machine
end

