-- ==== Sys2Proof/Laws/FrameAdmin.lean ====
section
/-! SUPPORT. What the operations leave alone (Laws/Frame.lean): administrative commands. One law for each operation. -/

set_option Elab.async false
set_option linter.unusedTactic false
set_option linter.unreachableTactic false

namespace Sys2Proof.Machine

variable {F : List Part} {z s : State}

theorem admin_frame {q : Sqe} {f : State → State} (hz : OnlyChanges F z s) (hf : ∀ t, OnlyChanges F z t → OnlyChanges F z (f t)) (m1 : Part.out ∈ F) (m3 : Part.regs ∈ F) (m4 : Part.portA ∈ F) (m5 : Part.portB ∈ F) (m6 : Part.evr ∈ F) (m19 : Part.srt ∈ F) : OnlyChanges F z (admin s q f) := by
  unfold admin
  repeat' first
    | with_reducible assumption
    | (with_reducible apply takeAdmin_frame)
    | (with_reducible apply frame_ite)
    | (with_reducible apply hf)
    | split

theorem adminClean_frame {q : Sqe} {f : State → State} (hz : OnlyChanges F z s) (hf : ∀ t, OnlyChanges F z t → OnlyChanges F z (f t)) (m1 : Part.out ∈ F) (m3 : Part.regs ∈ F) (m4 : Part.portA ∈ F) (m5 : Part.portB ∈ F) (m6 : Part.evr ∈ F) (m19 : Part.srt ∈ F) : OnlyChanges F z (adminClean s q f) := by
  unfold adminClean
  repeat' first
    | with_reducible assumption
    | (with_reducible refine admin_frame ?_ (fun x hx => ?_) ?_ ?_ ?_ ?_ ?_ ?_)
    | (with_reducible apply complete_frame)
    | (with_reducible apply frame_ite)
    | (with_reducible apply hf)
    | split

theorem vendorCmd_frame {q : Sqe} {f : State → State} (hz : OnlyChanges F z s) (hf : ∀ t, OnlyChanges F z t → OnlyChanges F z (f t)) (m1 : Part.out ∈ F) (m3 : Part.regs ∈ F) (m4 : Part.portA ∈ F) (m5 : Part.portB ∈ F) (m6 : Part.evr ∈ F) (m19 : Part.srt ∈ F) : OnlyChanges F z (vendorCmd s q f) := by
  unfold vendorCmd
  repeat' first
    | with_reducible assumption
    | (with_reducible refine admin_frame ?_ (fun x hx => ?_) ?_ ?_ ?_ ?_ ?_ ?_)
    | (with_reducible apply complete_frame)
    | (with_reducible apply frame_ite)
    | (with_reducible apply hf)
    | split

theorem createCq_frame {q : Sqe} {qid : Nat} {size : Nat} {vector : Nat} {ien : Bool} {pc : Bool} {aligned : Bool} (hz : OnlyChanges F z s) (m1 : Part.out ∈ F) (m3 : Part.regs ∈ F) (m4 : Part.portA ∈ F) (m5 : Part.portB ∈ F) (m6 : Part.evr ∈ F) (m19 : Part.srt ∈ F) : OnlyChanges F z (createCq s q qid size vector ien pc aligned) := by
  unfold createCq
  repeat' first
    | with_reducible assumption
    | (with_reducible refine admin_frame ?_ (fun x hx => ?_) ?_ ?_ ?_ ?_ ?_ ?_)
    | (with_reducible apply complete_frame)
    | (with_reducible apply setPort_frame)
    | (with_reducible apply frame_ite)
    | (intro b; refine (fun (_ : OnlyChanges F z b) => ?_) ?_; clear_value b; swap; dsimp only [b]; swap)
    | (intro b; clear_value b)
    | intro b
    | lift_lets
    | split
    | (fail_if_no_progress with_reducible refine frame_upd ?_)

theorem createSq_frame {q : Sqe} {qid : Nat} {size : Nat} {cqid : Nat} {prio : Nat} {fsm : Nat} {pc : Bool} {aligned : Bool} (hz : OnlyChanges F z s) (m1 : Part.out ∈ F) (m3 : Part.regs ∈ F) (m4 : Part.portA ∈ F) (m5 : Part.portB ∈ F) (m6 : Part.evr ∈ F) (m19 : Part.srt ∈ F) : OnlyChanges F z (createSq s q qid size cqid prio fsm pc aligned) := by
  unfold createSq
  repeat' first
    | with_reducible assumption
    | (with_reducible refine admin_frame ?_ (fun x hx => ?_) ?_ ?_ ?_ ?_ ?_ ?_)
    | (with_reducible apply complete_frame)
    | (with_reducible apply setPort_frame)
    | (with_reducible apply frame_ite)
    | (intro b; refine (fun (_ : OnlyChanges F z b) => ?_) ?_; clear_value b; swap; dsimp only [b]; swap)
    | (intro b; clear_value b)
    | intro b
    | lift_lets
    | split
    | (fail_if_no_progress with_reducible refine frame_upd ?_)

theorem deleteSq_frame {q : Sqe} {qid : Nat} (hz : OnlyChanges F z s) (m1 : Part.out ∈ F) (m3 : Part.regs ∈ F) (m4 : Part.portA ∈ F) (m5 : Part.portB ∈ F) (m6 : Part.evr ∈ F) (m16 : Part.map ∈ F) (m17 : Part.flash ∈ F) (m18 : Part.jrc ∈ F) (m19 : Part.srt ∈ F) : OnlyChanges F z (deleteSq s q qid) := by
  unfold deleteSq
  repeat' first
    | with_reducible assumption
    | (with_reducible refine admin_frame ?_ (fun x hx => ?_) ?_ ?_ ?_ ?_ ?_ ?_)
    | (with_reducible apply complete_frame)
    | (with_reducible apply setPort_frame)
    | (with_reducible apply deleteSettled_frame)
    | (with_reducible apply trkSettle_frame)
    | (with_reducible apply failCmd_frame)
    | (with_reducible apply endCmd_frame)
    | (with_reducible apply frame_ite)
    | (with_reducible apply frame_ite_fst)
    | (with_reducible refine frame_foldl (fun x b hx => ?_) ?_)
    | (with_reducible refine frame_foldl_fst (fun x b hx => ?_) ?_)
    | (intro b; refine (fun (_ : OnlyChanges F z b) => ?_) ?_; clear_value b; swap; dsimp only [b]; swap)
    | (intro b; refine (fun (_ : OnlyChanges F z b.1) => ?_) ?_; clear_value b; swap; dsimp only [b]; swap)
    | (intro b; clear_value b)
    | intro b
    | lift_lets
    | split
    | (fail_if_no_progress with_reducible refine frame_upd ?_)
    | dsimp only

theorem deleteCq_frame {q : Sqe} {qid : Nat} (hz : OnlyChanges F z s) (m1 : Part.out ∈ F) (m3 : Part.regs ∈ F) (m4 : Part.portA ∈ F) (m5 : Part.portB ∈ F) (m6 : Part.evr ∈ F) (m19 : Part.srt ∈ F) : OnlyChanges F z (deleteCq s q qid) := by
  unfold deleteCq
  repeat' first
    | with_reducible assumption
    | (with_reducible refine admin_frame ?_ (fun x hx => ?_) ?_ ?_ ?_ ?_ ?_ ?_)
    | (with_reducible apply complete_frame)
    | (with_reducible apply setPort_frame)
    | (with_reducible apply frame_ite)
    | (with_reducible apply frame_ite_fst)
    | (intro b; refine (fun (_ : OnlyChanges F z b) => ?_) ?_; clear_value b; swap; dsimp only [b]; swap)
    | (intro b; refine (fun (_ : OnlyChanges F z b.1) => ?_) ?_; clear_value b; swap; dsimp only [b]; swap)
    | (intro b; clear_value b)
    | intro b
    | lift_lets
    | split
    | (fail_if_no_progress with_reducible refine frame_upd ?_)

theorem resumeQ_frame {q : Sqe} {sqid : Nat} (hz : OnlyChanges F z s) (m1 : Part.out ∈ F) (m3 : Part.regs ∈ F) (m4 : Part.portA ∈ F) (m5 : Part.portB ∈ F) (m6 : Part.evr ∈ F) (m19 : Part.srt ∈ F) : OnlyChanges F z (resumeQ s q sqid) := by
  unfold resumeQ
  repeat' first
    | with_reducible assumption
    | (with_reducible refine vendorCmd_frame ?_ (fun x hx => ?_) ?_ ?_ ?_ ?_ ?_ ?_)
    | (with_reducible apply complete_frame)
    | (with_reducible apply raise_frame)
    | (with_reducible apply setPort_frame)
    | (with_reducible apply frame_ite)
    | (intro b; refine (fun (_ : OnlyChanges F z b) => ?_) ?_; clear_value b; swap; dsimp only [b]; swap)
    | (intro b; clear_value b)
    | intro b
    | lift_lets
    | split
    | (fail_if_no_progress with_reducible refine frame_upd ?_)
    | dsimp only

theorem aerRequest_frame {q : Sqe} (hz : OnlyChanges F z s) (m1 : Part.out ∈ F) (m3 : Part.regs ∈ F) (m4 : Part.portA ∈ F) (m5 : Part.portB ∈ F) (m6 : Part.evr ∈ F) (m19 : Part.srt ∈ F) : OnlyChanges F z (aerRequest s q) := by
  unfold aerRequest
  repeat' first
    | with_reducible assumption
    | (with_reducible refine admin_frame ?_ (fun x hx => ?_) ?_ ?_ ?_ ?_ ?_ ?_)
    | (with_reducible apply complete_frame)
    | (with_reducible apply aerDeliver_frame)
    | (with_reducible apply setPort_frame)
    | (with_reducible apply frame_ite)
    | (intro b; refine (fun (_ : OnlyChanges F z b) => ?_) ?_; clear_value b; swap; dsimp only [b]; swap)
    | (intro b; clear_value b)
    | intro b
    | lift_lets
    | split
    | (fail_if_no_progress with_reducible refine frame_upd ?_)

theorem attachNs_frame {q : Sqe} {detach : Bool} {ctrls : List Nat} (hz : OnlyChanges F z s) (m1 : Part.out ∈ F) (m3 : Part.regs ∈ F) (m4 : Part.portA ∈ F) (m5 : Part.portB ∈ F) (m6 : Part.evr ∈ F) (m16 : Part.map ∈ F) (m19 : Part.srt ∈ F) : OnlyChanges F z (attachNs s q detach ctrls) := by
  unfold attachNs
  repeat' first
    | with_reducible assumption
    | (with_reducible refine adminClean_frame ?_ (fun x hx => ?_) ?_ ?_ ?_ ?_ ?_ ?_)
    | (with_reducible apply complete_frame)
    | (with_reducible apply updTab_frame)
    | (with_reducible apply modPort_frame)
    | (with_reducible apply nsChanged_frame)
    | (with_reducible apply frame_ite)
    | (with_reducible apply frame_ite_fst)
    | (with_reducible refine frame_foldl (fun x b hx => ?_) ?_)
    | (with_reducible refine frame_foldl_fst (fun x b hx => ?_) ?_)
    | (intro b; refine (fun (_ : OnlyChanges F z b) => ?_) ?_; clear_value b; swap; dsimp only [b]; swap)
    | (intro b; refine (fun (_ : OnlyChanges F z b.1) => ?_) ?_; clear_value b; swap; dsimp only [b]; swap)
    | (intro b; clear_value b)
    | intro b
    | lift_lets
    | split
    | (fail_if_no_progress with_reducible refine frame_upd ?_)
    | dsimp only

theorem dirSend_frame {q : Sqe} {dtype : Nat} {doper : Nat} {dspec : Nat} {val : Nat} (hz : OnlyChanges F z s) (m1 : Part.out ∈ F) (m3 : Part.regs ∈ F) (m4 : Part.portA ∈ F) (m5 : Part.portB ∈ F) (m6 : Part.evr ∈ F) (m19 : Part.srt ∈ F) : OnlyChanges F z (dirSend s q dtype doper dspec val) := by
  unfold dirSend
  repeat' first
    | with_reducible assumption
    | (with_reducible refine adminClean_frame ?_ (fun x hx => ?_) ?_ ?_ ?_ ?_ ?_ ?_)
    | (with_reducible apply complete_frame)
    | (with_reducible apply setPort_frame)
    | (with_reducible apply frame_ite)
    | (with_reducible apply frame_ite_fst)
    | (intro b; refine (fun (_ : OnlyChanges F z b) => ?_) ?_; clear_value b; swap; dsimp only [b]; swap)
    | (intro b; refine (fun (_ : OnlyChanges F z b.1) => ?_) ?_; clear_value b; swap; dsimp only [b]; swap)
    | (intro b; clear_value b)
    | intro b
    | lift_lets
    | split
    | (fail_if_no_progress with_reducible refine frame_upd ?_)

theorem dirReceive_frame {q : Sqe} {dtype : Nat} {doper : Nat} {val : Nat} (hz : OnlyChanges F z s) (m1 : Part.out ∈ F) (m3 : Part.regs ∈ F) (m4 : Part.portA ∈ F) (m5 : Part.portB ∈ F) (m6 : Part.evr ∈ F) (m19 : Part.srt ∈ F) : OnlyChanges F z (dirReceive s q dtype doper val) := by
  unfold dirReceive
  repeat' first
    | with_reducible assumption
    | (with_reducible refine adminClean_frame ?_ (fun x hx => ?_) ?_ ?_ ?_ ?_ ?_ ?_)
    | (with_reducible apply complete_frame)
    | (with_reducible apply reply_frame)
    | (with_reducible apply setPort_frame)
    | (with_reducible apply frame_ite)
    | (with_reducible apply frame_ite_fst)
    | (intro b; refine (fun (_ : OnlyChanges F z b) => ?_) ?_; clear_value b; swap; dsimp only [b]; swap)
    | (intro b; refine (fun (_ : OnlyChanges F z b.1) => ?_) ?_; clear_value b; swap; dsimp only [b]; swap)
    | (intro b; clear_value b)
    | intro b
    | lift_lets
    | split
    | (fail_if_no_progress with_reducible refine frame_upd ?_)

theorem download_frame {q : Sqe} {numd : Nat} {ofst : Nat} {data : List Byte} (hz : OnlyChanges F z s) (m1 : Part.out ∈ F) (m3 : Part.regs ∈ F) (m4 : Part.portA ∈ F) (m5 : Part.portB ∈ F) (m6 : Part.evr ∈ F) (m11 : Part.sec ∈ F) (m19 : Part.srt ∈ F) : OnlyChanges F z (download s q numd ofst data) := by
  unfold download
  repeat' first
    | with_reducible assumption
    | (with_reducible refine adminClean_frame ?_ (fun x hx => ?_) ?_ ?_ ?_ ?_ ?_ ?_)
    | (with_reducible apply complete_frame)
    | (with_reducible apply updSec_frame)
    | (with_reducible apply frame_ite)
    | (with_reducible apply frame_ite_fst)
    | (with_reducible refine frame_foldl (fun x b hx => ?_) ?_)
    | (with_reducible refine frame_foldl_fst (fun x b hx => ?_) ?_)
    | (intro b; refine (fun (_ : OnlyChanges F z b) => ?_) ?_; clear_value b; swap; dsimp only [b]; swap)
    | (intro b; refine (fun (_ : OnlyChanges F z b.1) => ?_) ?_; clear_value b; swap; dsimp only [b]; swap)
    | (with_reducible apply hfn)
    | (intro b; refine (fun (hfn : ∀ x, OnlyChanges F z x → OnlyChanges F z (b x)) => ?_) ?_; clear_value b; swap; (intro x hx; dsimp only [b]); swap)
    | (intro b; refine (fun (hfn : ∀ x y, OnlyChanges F z x → OnlyChanges F z (b x y)) => ?_) ?_; clear_value b; swap; (intro x y hx; dsimp only [b]); swap)
    | (with_reducible apply hfc)
    | (with_reducible apply hfd)
    | (intro b; refine (fun (hfc : ∀ x, OnlyChanges F z (b x)) => ?_) ?_; clear_value b; swap; (intro x; dsimp only [b]); swap)
    | (intro b; refine (fun (hfd : ∀ x y, OnlyChanges F z (b x y)) => ?_) ?_; clear_value b; swap; (intro x y; dsimp only [b]); swap)
    | (intro b; clear_value b)
    | intro b
    | lift_lets
    | split
    | (fail_if_no_progress with_reducible refine frame_upd ?_)
    | dsimp only

theorem nameSlot_frame {slot : Nat} (hz : OnlyChanges F z s) (m3 : Part.regs ∈ F) (m13 : Part.boot ∈ F) : OnlyChanges F z (nameSlot s slot) := by
  unfold nameSlot
  repeat' first
    | with_reducible assumption
    | (with_reducible apply writeRecordCopy_frame)
    | split
    | dsimp only

theorem ownRecord_frame (hz : OnlyChanges F z s) (m3 : Part.regs ∈ F) (m13 : Part.boot ∈ F) : OnlyChanges F z (ownRecord s) := by
  unfold ownRecord
  repeat' first
    | with_reducible assumption
    | (with_reducible apply nameSlot_frame)
    | (with_reducible apply frame_ite)
    | (intro b; refine (fun (_ : OnlyChanges F z b) => ?_) ?_; clear_value b; swap; dsimp only [b]; swap)
    | (intro b; clear_value b)
    | intro b
    | lift_lets
    | split
    | dsimp only

theorem commitBegin_frame (hz : OnlyChanges F z s) (m11 : Part.sec ∈ F) (m13 : Part.boot ∈ F) : OnlyChanges F z (commitBegin s) := by
  unfold commitBegin
  repeat' first
    | with_reducible assumption
    | (with_reducible apply updBoot_frame)
    | (with_reducible apply updSec_frame)
    | (with_reducible apply frame_ite)
    | (intro b; refine (fun (_ : OnlyChanges F z b) => ?_) ?_; clear_value b; swap; dsimp only [b]; swap)
    | (intro b; clear_value b)
    | intro b
    | lift_lets
    | split
    | (fail_if_no_progress with_reducible refine frame_upd ?_)
    | dsimp only

theorem commitImage_frame {q : Sqe} {ca : Nat} {fs : Nat} {bpid : Bool} (hz : OnlyChanges F z s) (m1 : Part.out ∈ F) (m3 : Part.regs ∈ F) (m4 : Part.portA ∈ F) (m5 : Part.portB ∈ F) (m6 : Part.evr ∈ F) (m11 : Part.sec ∈ F) (m13 : Part.boot ∈ F) (m19 : Part.srt ∈ F) : OnlyChanges F z (commitImage s q ca fs bpid) := by
  unfold commitImage
  repeat' first
    | with_reducible assumption
    | (with_reducible refine admin_frame ?_ (fun x hx => ?_) ?_ ?_ ?_ ?_ ?_ ?_)
    | (with_reducible apply complete_frame)
    | (with_reducible apply ownRecord_frame)
    | (with_reducible apply commitBegin_frame)
    | (with_reducible apply updSec_frame)
    | (with_reducible apply frame_ite)
    | (intro b; refine (fun (_ : OnlyChanges F z b) => ?_) ?_; clear_value b; swap; dsimp only [b]; swap)
    | (intro b; clear_value b)
    | intro b
    | lift_lets
    | split
    | (fail_if_no_progress with_reducible refine frame_upd ?_)
    | dsimp only

theorem commitNamed_frame {q : Sqe} {fs : Nat} {bpid : Bool} (hz : OnlyChanges F z s) (m1 : Part.out ∈ F) (m3 : Part.regs ∈ F) (m4 : Part.portA ∈ F) (m5 : Part.portB ∈ F) (m6 : Part.evr ∈ F) (m13 : Part.boot ∈ F) (m19 : Part.srt ∈ F) : OnlyChanges F z (commitNamed s q fs bpid) := by
  unfold commitNamed
  repeat' first
    | with_reducible assumption
    | (with_reducible refine admin_frame ?_ (fun x hx => ?_) ?_ ?_ ?_ ?_ ?_ ?_)
    | (with_reducible apply complete_frame)
    | (with_reducible apply ownRecord_frame)
    | (with_reducible apply nameSlot_frame)
    | (with_reducible apply frame_ite)
    | (intro b; refine (fun (_ : OnlyChanges F z b) => ?_) ?_; clear_value b; swap; dsimp only [b]; swap)
    | (intro b; clear_value b)
    | intro b
    | lift_lets
    | split

theorem norNext_frame (hz : OnlyChanges F z s) (m11 : Part.sec ∈ F) (m13 : Part.boot ∈ F) : OnlyChanges F z (norNext s) := by
  unfold norNext
  repeat' first
    | with_reducible assumption
    | (with_reducible apply relayBegin_frame)
    | (with_reducible apply commitBegin_frame)

theorem norEnd_frame {mismatch : Bool} {timeout : Bool} (hz : OnlyChanges F z s) (m1 : Part.out ∈ F) (m2 : Part.clk ∈ F) (m3 : Part.regs ∈ F) (m4 : Part.portA ∈ F) (m5 : Part.portB ∈ F) (m6 : Part.evr ∈ F) (m9 : Part.chip ∈ F) (m10 : Part.ring ∈ F) (m11 : Part.sec ∈ F) (m13 : Part.boot ∈ F) (m14 : Part.dram ∈ F) (m15 : Part.phc ∈ F) (m18 : Part.jrc ∈ F) (m21 : Part.pat ∈ F) (m22 : Part.mem ∈ F) : OnlyChanges F z (norEnd s mismatch timeout) := by
  unfold norEnd
  repeat' first
    | with_reducible assumption
    | (with_reducible apply norNext_frame)
    | (with_reducible apply norDone_frame)
    | (with_reducible apply norApply_frame)
    | (with_reducible apply xipServe_frame)
    | (with_reducible apply updBoot_frame)
    | (with_reducible apply commitEnd_frame)
    | (with_reducible apply offerImage_frame)
    | (with_reducible apply nameSlot_frame)
    | (with_reducible apply commitActivate_frame)
    | (with_reducible apply frame_ite)
    | (intro b; refine (fun (_ : OnlyChanges F z b) => ?_) ?_; clear_value b; swap; dsimp only [b]; swap)
    | (intro b; clear_value b)
    | intro b
    | lift_lets
    | split
    | dsimp only

theorem secSend_frame {q : Sqe} {secp : Nat} {req : SpdmReq} (hz : OnlyChanges F z s) (m1 : Part.out ∈ F) (m3 : Part.regs ∈ F) (m4 : Part.portA ∈ F) (m5 : Part.portB ∈ F) (m6 : Part.evr ∈ F) (m11 : Part.sec ∈ F) (m19 : Part.srt ∈ F) : OnlyChanges F z (secSend s q secp req) := by
  unfold secSend
  repeat' first
    | with_reducible assumption
    | (with_reducible refine adminClean_frame ?_ (fun x hx => ?_) ?_ ?_ ?_ ?_ ?_ ?_)
    | (with_reducible apply complete_frame)
    | (with_reducible apply spdm_frame)
    | (with_reducible apply frame_ite)
    | split

theorem secReceive_frame {q : Sqe} {secp : Nat} (hz : OnlyChanges F z s) (m1 : Part.out ∈ F) (m3 : Part.regs ∈ F) (m4 : Part.portA ∈ F) (m5 : Part.portB ∈ F) (m6 : Part.evr ∈ F) (m19 : Part.srt ∈ F) : OnlyChanges F z (secReceive s q secp) := by
  unfold secReceive
  repeat' first
    | with_reducible assumption
    | (with_reducible refine adminClean_frame ?_ (fun x hx => ?_) ?_ ?_ ?_ ?_ ?_ ?_)
    | (with_reducible apply complete_frame)
    | (with_reducible apply reply_frame)
    | (with_reducible apply replyBytes_frame)
    | (with_reducible apply setPort_frame)
    | (with_reducible apply frame_ite)
    | (intro b; refine (fun (_ : OnlyChanges F z b) => ?_) ?_; clear_value b; swap; dsimp only [b]; swap)
    | (intro b; clear_value b)
    | intro b
    | lift_lets
    | split
    | (fail_if_no_progress with_reducible refine frame_upd ?_)
    | dsimp only

theorem shedFetch_frame {body : Instr} {q : Sqe} {rs : List LetterRange} (hz : OnlyChanges F z s) (m1 : Part.out ∈ F) (m3 : Part.regs ∈ F) (m4 : Part.portA ∈ F) (m5 : Part.portB ∈ F) (m6 : Part.evr ∈ F) (m19 : Part.srt ∈ F) : OnlyChanges F z (shedFetch s body q rs) := by
  unfold shedFetch
  repeat' first
    | with_reducible assumption
    | (with_reducible apply takeFirm_frame)
    | (with_reducible apply turnAway_frame)
    | (with_reducible apply enterTracker_frame)
    | (with_reducible apply frame_ite)
    | (with_reducible refine frame_foldl (fun x b hx => ?_) ?_)
    | (intro b; refine (fun (_ : OnlyChanges F z b) => ?_) ?_; clear_value b; swap; dsimp only [b]; swap)
    | (intro b; clear_value b)
    | intro b
    | lift_lets
    | split
    | dsimp only

theorem shedFreeFetch_frame {body : Instr} {q : Sqe} {letters : Nat} (hz : OnlyChanges F z s) (m1 : Part.out ∈ F) (m3 : Part.regs ∈ F) (m4 : Part.portA ∈ F) (m5 : Part.portB ∈ F) (m6 : Part.evr ∈ F) (m19 : Part.srt ∈ F) : OnlyChanges F z (shedFreeFetch s body q letters) := by
  unfold shedFreeFetch
  repeat' first
    | with_reducible assumption
    | (with_reducible apply takeFirm_frame)
    | (with_reducible apply turnAway_frame)
    | (with_reducible apply enterTracker_frame)
    | (with_reducible apply frame_ite)
    | (intro b; refine (fun (_ : OnlyChanges F z b) => ?_) ?_; clear_value b; swap; dsimp only [b]; swap)
    | (intro b; clear_value b)
    | intro b
    | lift_lets
    | split
    | dsimp only

theorem schedSet_frame {q : Sqe} {d : SchedDesc} (hz : OnlyChanges F z s) (m1 : Part.out ∈ F) (m2 : Part.clk ∈ F) (m3 : Part.regs ∈ F) (m4 : Part.portA ∈ F) (m5 : Part.portB ∈ F) (m6 : Part.evr ∈ F) (m10 : Part.ring ∈ F) (m14 : Part.dram ∈ F) (m15 : Part.phc ∈ F) (m16 : Part.map ∈ F) (m17 : Part.flash ∈ F) (m18 : Part.jrc ∈ F) (m19 : Part.srt ∈ F) (m21 : Part.pat ∈ F) (m22 : Part.mem ∈ F) : OnlyChanges F z (schedSet s q d) := by
  unfold schedSet
  repeat' first
    | with_reducible assumption
    | (with_reducible refine vendorCmd_frame ?_ (fun x hx => ?_) ?_ ?_ ?_ ?_ ?_ ?_)
    | (with_reducible apply complete_frame)
    | (with_reducible apply schedInstall_frame)
    | (with_reducible apply updRing_frame)
    | (with_reducible apply schedPublish_frame)
    | (with_reducible apply sendSched_frame)
    | (with_reducible apply frame_ite)
    | (with_reducible apply frame_ite_fst)
    | (intro b; refine (fun (_ : OnlyChanges F z b) => ?_) ?_; clear_value b; swap; dsimp only [b]; swap)
    | (intro b; refine (fun (_ : OnlyChanges F z b.1) => ?_) ?_; clear_value b; swap; dsimp only [b]; swap)
    | (intro b; clear_value b)
    | intro b
    | lift_lets
    | split

theorem schedTimeout_frame (hz : OnlyChanges F z s) (m1 : Part.out ∈ F) (m3 : Part.regs ∈ F) (m4 : Part.portA ∈ F) (m5 : Part.portB ∈ F) (m6 : Part.evr ∈ F) (m10 : Part.ring ∈ F) : OnlyChanges F z (schedTimeout s) := by
  unfold schedTimeout
  repeat' first
    | with_reducible assumption
    | (with_reducible apply complete_frame)
    | (with_reducible apply updRing_frame)
    | split
    | dsimp only

theorem schedGet_frame {q : Sqe} (hz : OnlyChanges F z s) (m1 : Part.out ∈ F) (m3 : Part.regs ∈ F) (m4 : Part.portA ∈ F) (m5 : Part.portB ∈ F) (m6 : Part.evr ∈ F) (m19 : Part.srt ∈ F) : OnlyChanges F z (schedGet s q) := by
  unfold schedGet
  repeat' first
    | with_reducible assumption
    | (with_reducible refine vendorCmd_frame ?_ (fun x hx => ?_) ?_ ?_ ?_ ?_ ?_ ?_)
    | (with_reducible apply complete_frame)
    | (with_reducible apply replyBytes_frame)
    | (with_reducible apply frame_ite)
    | (intro b; refine (fun (_ : OnlyChanges F z b) => ?_) ?_; clear_value b; swap; dsimp only [b]; swap)
    | (intro b; clear_value b)
    | intro b
    | lift_lets
    | split
    | dsimp only

theorem recRead_frame {q : Sqe} {start : Nat} {length : Nat} {found : Bool} (hz : OnlyChanges F z s) (m1 : Part.out ∈ F) (m3 : Part.regs ∈ F) (m4 : Part.portA ∈ F) (m5 : Part.portB ∈ F) (m6 : Part.evr ∈ F) (m19 : Part.srt ∈ F) : OnlyChanges F z (recRead s q start length found) := by
  unfold recRead
  repeat' first
    | with_reducible assumption
    | (with_reducible refine vendorCmd_frame ?_ (fun x hx => ?_) ?_ ?_ ?_ ?_ ?_ ?_)
    | (with_reducible apply complete_frame)
    | (with_reducible apply reply_frame)
    | (with_reducible apply frame_ite)
    | (with_reducible apply frame_ite_fst)
    | (intro b; refine (fun (_ : OnlyChanges F z b) => ?_) ?_; clear_value b; swap; dsimp only [b]; swap)
    | (intro b; refine (fun (_ : OnlyChanges F z b.1) => ?_) ?_; clear_value b; swap; dsimp only [b]; swap)
    | (intro b; clear_value b)
    | intro b
    | lift_lets
    | split
    | (refine frame_of_eq (by assumption) ?_)
    | dsimp only

theorem depotOpen_frame {q : Sqe} {session : Nat} {w : Window} (hz : OnlyChanges F z s) (m1 : Part.out ∈ F) (m3 : Part.regs ∈ F) (m4 : Part.portA ∈ F) (m5 : Part.portB ∈ F) (m6 : Part.evr ∈ F) (m11 : Part.sec ∈ F) (m19 : Part.srt ∈ F) : OnlyChanges F z (depotOpen s q session w) := by
  unfold depotOpen
  repeat' first
    | with_reducible assumption
    | (with_reducible refine vendorCmd_frame ?_ (fun x hx => ?_) ?_ ?_ ?_ ?_ ?_ ?_)
    | (with_reducible apply complete_frame)
    | (with_reducible apply denyAccess_frame)
    | (with_reducible apply setWin_frame)
    | (with_reducible apply updSec_frame)
    | (with_reducible apply frame_ite)
    | (intro b; refine (fun (_ : OnlyChanges F z b) => ?_) ?_; clear_value b; swap; dsimp only [b]; swap)
    | (with_reducible apply hfn)
    | (intro b; refine (fun (hfn : ∀ x, OnlyChanges F z x → OnlyChanges F z (b x)) => ?_) ?_; clear_value b; swap; (intro x hx; dsimp only [b]); swap)
    | (intro b; refine (fun (hfn : ∀ x y, OnlyChanges F z x → OnlyChanges F z (b x y)) => ?_) ?_; clear_value b; swap; (intro x y hx; dsimp only [b]); swap)
    | (with_reducible apply hfc)
    | (with_reducible apply hfd)
    | (intro b; refine (fun (hfc : ∀ x, OnlyChanges F z (b x)) => ?_) ?_; clear_value b; swap; (intro x; dsimp only [b]); swap)
    | (intro b; refine (fun (hfd : ∀ x y, OnlyChanges F z (b x y)) => ?_) ?_; clear_value b; swap; (intro x y; dsimp only [b]); swap)
    | (intro b; clear_value b)
    | intro b
    | lift_lets
    | split
    | dsimp only

theorem depotClose_frame {q : Sqe} (hz : OnlyChanges F z s) (m1 : Part.out ∈ F) (m3 : Part.regs ∈ F) (m4 : Part.portA ∈ F) (m5 : Part.portB ∈ F) (m6 : Part.evr ∈ F) (m11 : Part.sec ∈ F) (m19 : Part.srt ∈ F) : OnlyChanges F z (depotClose s q) := by
  unfold depotClose
  repeat' first
    | with_reducible assumption
    | (with_reducible refine vendorCmd_frame ?_ (fun x hx => ?_) ?_ ?_ ?_ ?_ ?_ ?_)
    | (with_reducible apply complete_frame)
    | (with_reducible apply closeWin_frame)

theorem identifyCmd_frame {q : Sqe} {cns : Nat} {cntid : Nat} (hz : OnlyChanges F z s) (m1 : Part.out ∈ F) (m3 : Part.regs ∈ F) (m4 : Part.portA ∈ F) (m5 : Part.portB ∈ F) (m6 : Part.evr ∈ F) (m19 : Part.srt ∈ F) : OnlyChanges F z (identifyCmd s q cns cntid) := by
  unfold identifyCmd
  repeat' first
    | with_reducible assumption
    | (with_reducible refine admin_frame ?_ (fun x hx => ?_) ?_ ?_ ?_ ?_ ?_ ?_)
    | (with_reducible apply complete_frame)
    | (with_reducible apply reply_frame)
    | (with_reducible apply frame_ite)
    | (with_reducible apply frame_ite_fst)
    | (intro b; refine (fun (_ : OnlyChanges F z b) => ?_) ?_; clear_value b; swap; dsimp only [b]; swap)
    | (intro b; refine (fun (_ : OnlyChanges F z b.1) => ?_) ?_; clear_value b; swap; dsimp only [b]; swap)
    | (with_reducible apply hfn)
    | (intro b; refine (fun (hfn : ∀ x, OnlyChanges F z x → OnlyChanges F z (b x)) => ?_) ?_; clear_value b; swap; (intro x hx; dsimp only [b]); swap)
    | (intro b; refine (fun (hfn : ∀ x y, OnlyChanges F z x → OnlyChanges F z (b x y)) => ?_) ?_; clear_value b; swap; (intro x y hx; dsimp only [b]); swap)
    | (with_reducible apply hfc)
    | (with_reducible apply hfd)
    | (intro b; refine (fun (hfc : ∀ x, OnlyChanges F z (b x)) => ?_) ?_; clear_value b; swap; (intro x; dsimp only [b]); swap)
    | (intro b; refine (fun (hfd : ∀ x y, OnlyChanges F z (b x y)) => ?_) ?_; clear_value b; swap; (intro x y; dsimp only [b]); swap)
    | (intro b; clear_value b)
    | intro b
    | lift_lets
    | split
    | dsimp only

theorem logAnswer_frame {q : Sqe} {lid : Nat} {size : Nat} {lpo : Nat} {rae : Bool} {l : List (Nat × Nat × Nat)} (hz : OnlyChanges F z s) (m1 : Part.out ∈ F) (m3 : Part.regs ∈ F) (m4 : Part.portA ∈ F) (m5 : Part.portB ∈ F) (m6 : Part.evr ∈ F) : OnlyChanges F z (logAnswer s q lid size lpo rae l) := by
  unfold logAnswer
  repeat' first
    | with_reducible assumption
    | (with_reducible apply complete_frame)
    | (with_reducible apply replyBytes_frame)
    | (with_reducible apply aerClear_frame)
    | (with_reducible apply frame_ite)
    | (with_reducible apply frame_ite_fst)
    | (intro b; refine (fun (_ : OnlyChanges F z b) => ?_) ?_; clear_value b; swap; dsimp only [b]; swap)
    | (intro b; refine (fun (_ : OnlyChanges F z b.1) => ?_) ?_; clear_value b; swap; dsimp only [b]; swap)
    | (intro b; clear_value b)
    | intro b
    | lift_lets
    | split

theorem dloPage_frame {q : Sqe} {lsp : Nat} {lpo : Nat} {rae : Bool} (hz : OnlyChanges F z s) (m1 : Part.out ∈ F) (m3 : Part.regs ∈ F) (m4 : Part.portA ∈ F) (m5 : Part.portB ∈ F) (m6 : Part.evr ∈ F) (m21 : Part.pat ∈ F) : OnlyChanges F z (dloPage s q lsp lpo rae) := by
  unfold dloPage
  repeat' first
    | with_reducible assumption
    | (with_reducible apply dloEval_frame)
    | (with_reducible apply logAnswer_frame)
    | (intro b; refine (fun (_ : OnlyChanges F z b) => ?_) ?_; clear_value b; swap; dsimp only [b]; swap)
    | (intro b; clear_value b)
    | intro b
    | lift_lets

theorem logPage_frame {q : Sqe} {lid : Nat} {lsp : Nat} {lpo : Nat} {rae : Bool} (hz : OnlyChanges F z s) (m1 : Part.out ∈ F) (m3 : Part.regs ∈ F) (m4 : Part.portA ∈ F) (m5 : Part.portB ∈ F) (m6 : Part.evr ∈ F) (m21 : Part.pat ∈ F) : OnlyChanges F z (logPage s q lid lsp lpo rae) := by
  unfold logPage
  repeat' first
    | with_reducible assumption
    | (with_reducible apply logAnswer_frame)
    | (with_reducible apply modPort_frame)
    | (with_reducible apply dloPage_frame)
    | (with_reducible apply complete_frame)
    | (with_reducible apply frame_ite)
    | (intro b; refine (fun (_ : OnlyChanges F z b) => ?_) ?_; clear_value b; swap; dsimp only [b]; swap)
    | (intro b; clear_value b)
    | intro b
    | lift_lets
    | split
    | (fail_if_no_progress with_reducible refine frame_upd ?_)
    | dsimp only

theorem getLog_frame {q : Sqe} {lid : Nat} {lsp : Nat} {lpo : Nat} {rae : Bool} (hz : OnlyChanges F z s) (m1 : Part.out ∈ F) (m3 : Part.regs ∈ F) (m4 : Part.portA ∈ F) (m5 : Part.portB ∈ F) (m6 : Part.evr ∈ F) (m19 : Part.srt ∈ F) (m21 : Part.pat ∈ F) : OnlyChanges F z (getLog s q lid lsp lpo rae) := by
  unfold getLog
  repeat' first
    | with_reducible assumption
    | (with_reducible refine admin_frame ?_ (fun x hx => ?_) ?_ ?_ ?_ ?_ ?_ ?_)
    | (with_reducible apply logPage_frame)

theorem putFeat_frame {p : Port} {k : Nat} {v : Nat} (hz : OnlyChanges F z s) (m4 : Part.portA ∈ F) (m5 : Part.portB ∈ F) : OnlyChanges F z (putFeat s p k v) := by
  unfold putFeat
  repeat' first
    | with_reducible assumption
    | (with_reducible apply modPort_frame)
    | (fail_if_no_progress with_reducible refine frame_upd ?_)

theorem featPower_frame {q : Sqe} {ps : Nat} {sv : Bool} (hz : OnlyChanges F z s) (m1 : Part.out ∈ F) (m3 : Part.regs ∈ F) (m4 : Part.portA ∈ F) (m5 : Part.portB ∈ F) (m6 : Part.evr ∈ F) (m8 : Part.pwr ∈ F) (m17 : Part.flash ∈ F) : OnlyChanges F z (featPower s q ps sv) := by
  unfold featPower
  repeat' first
    | with_reducible assumption
    | (with_reducible apply complete_frame)
    | (with_reducible apply psSet_frame)
    | (with_reducible apply frame_ite)
    | split

theorem featPlm_frame {q : Sqe} {window : Nat} (hz : OnlyChanges F z s) (m1 : Part.out ∈ F) (m3 : Part.regs ∈ F) (m4 : Part.portA ∈ F) (m5 : Part.portB ∈ F) (m6 : Part.evr ∈ F) : OnlyChanges F z (featPlm s q window) := by
  unfold featPlm
  repeat' first
    | with_reducible assumption
    | (with_reducible apply complete_frame)
    | (with_reducible apply frame_ite)
    | split

theorem featLatency_frame {q : Sqe} {us : Nat} {sv : Bool} (hz : OnlyChanges F z s) (m1 : Part.out ∈ F) (m3 : Part.regs ∈ F) (m4 : Part.portA ∈ F) (m5 : Part.portB ∈ F) (m6 : Part.evr ∈ F) : OnlyChanges F z (featLatency s q us sv) := by
  unfold featLatency
  repeat' first
    | with_reducible assumption
    | (with_reducible apply complete_frame)
    | (with_reducible apply putFeat_frame)
    | (with_reducible apply frame_ite)
    | split

theorem featFailStop_frame {q : Sqe} {cdw11 : Nat} {sv : Bool} (hz : OnlyChanges F z s) (m1 : Part.out ∈ F) (m3 : Part.regs ∈ F) (m4 : Part.portA ∈ F) (m5 : Part.portB ∈ F) (m6 : Part.evr ∈ F) : OnlyChanges F z (featFailStop s q cdw11 sv) := by
  unfold featFailStop
  repeat' first
    | with_reducible assumption
    | (with_reducible apply complete_frame)
    | (with_reducible apply putFeat_frame)
    | (with_reducible apply frame_ite)
    | split

theorem featPatrol_frame {q : Sqe} {cdw11 : Nat} {sv : Bool} (hz : OnlyChanges F z s) (m1 : Part.out ∈ F) (m3 : Part.regs ∈ F) (m4 : Part.portA ∈ F) (m5 : Part.portB ∈ F) (m6 : Part.evr ∈ F) (m21 : Part.pat ∈ F) : OnlyChanges F z (featPatrol s q cdw11 sv) := by
  unfold featPatrol
  repeat' first
    | with_reducible assumption
    | (with_reducible apply complete_frame)
    | (with_reducible apply wrField_frame)
    | (with_reducible apply updPat_frame)
    | (with_reducible apply catchup_frame)
    | (with_reducible apply frame_ite)
    | (intro b; refine (fun (_ : OnlyChanges F z b) => ?_) ?_; clear_value b; swap; dsimp only [b]; swap)
    | (intro b; clear_value b)
    | intro b
    | lift_lets
    | split

theorem setStamp_frame {ms : Nat} (hz : OnlyChanges F z s) (m21 : Part.pat ∈ F) : OnlyChanges F z (setStamp s ms) := by
  unfold setStamp
  repeat' first
    | with_reducible assumption
    | (with_reducible apply updPat_frame)
    | (intro b; refine (fun (_ : OnlyChanges F z b) => ?_) ?_; clear_value b; swap; dsimp only [b]; swap)
    | (intro b; clear_value b)
    | intro b
    | lift_lets
    | split
    | dsimp only

theorem featSet_frame {q : Sqe} {fid : Nat} {sv : Bool} {v : FeatVal} (hz : OnlyChanges F z s) (m1 : Part.out ∈ F) (m3 : Part.regs ∈ F) (m4 : Part.portA ∈ F) (m5 : Part.portB ∈ F) (m6 : Part.evr ∈ F) (m8 : Part.pwr ∈ F) (m17 : Part.flash ∈ F) (m21 : Part.pat ∈ F) : OnlyChanges F z (featSet s q fid sv v) := by
  unfold featSet
  repeat' first
    | with_reducible assumption
    | (with_reducible apply complete_frame)
    | (with_reducible apply putFeat_frame)
    | (with_reducible apply featPower_frame)
    | (with_reducible apply setStamp_frame)
    | (with_reducible apply featPlm_frame)
    | (with_reducible apply featLatency_frame)
    | (with_reducible apply featFailStop_frame)
    | (with_reducible apply featPatrol_frame)
    | (with_reducible apply frame_ite)
    | (with_reducible apply frame_ite_fst)
    | (intro b; refine (fun (_ : OnlyChanges F z b) => ?_) ?_; clear_value b; swap; dsimp only [b]; swap)
    | (intro b; refine (fun (_ : OnlyChanges F z b.1) => ?_) ?_; clear_value b; swap; dsimp only [b]; swap)
    | (with_reducible apply hfn)
    | (intro b; refine (fun (hfn : ∀ x, OnlyChanges F z x → OnlyChanges F z (b x)) => ?_) ?_; clear_value b; swap; (intro x hx; dsimp only [b]); swap)
    | (intro b; refine (fun (hfn : ∀ x y, OnlyChanges F z x → OnlyChanges F z (b x y)) => ?_) ?_; clear_value b; swap; (intro x y hx; dsimp only [b]); swap)
    | (with_reducible apply hfc)
    | (with_reducible apply hfd)
    | (intro b; refine (fun (hfc : ∀ x, OnlyChanges F z (b x)) => ?_) ?_; clear_value b; swap; (intro x; dsimp only [b]); swap)
    | (intro b; refine (fun (hfd : ∀ x y, OnlyChanges F z (b x y)) => ?_) ?_; clear_value b; swap; (intro x y; dsimp only [b]); swap)
    | (intro b; clear_value b)
    | intro b
    | lift_lets
    | split
    | dsimp only

theorem setFeatures_frame {q : Sqe} {fid : Nat} {sv : Bool} {v : FeatVal} (hz : OnlyChanges F z s) (m1 : Part.out ∈ F) (m3 : Part.regs ∈ F) (m4 : Part.portA ∈ F) (m5 : Part.portB ∈ F) (m6 : Part.evr ∈ F) (m8 : Part.pwr ∈ F) (m17 : Part.flash ∈ F) (m19 : Part.srt ∈ F) (m21 : Part.pat ∈ F) : OnlyChanges F z (setFeatures s q fid sv v) := by
  unfold setFeatures
  repeat' first
    | with_reducible assumption
    | (with_reducible refine admin_frame ?_ (fun x hx => ?_) ?_ ?_ ?_ ?_ ?_ ?_)
    | (with_reducible apply featSet_frame)

theorem getFeatures_frame {q : Sqe} {fid : Nat} {sel : Nat} {cdw11 : Nat} (hz : OnlyChanges F z s) (m1 : Part.out ∈ F) (m3 : Part.regs ∈ F) (m4 : Part.portA ∈ F) (m5 : Part.portB ∈ F) (m6 : Part.evr ∈ F) (m19 : Part.srt ∈ F) : OnlyChanges F z (getFeatures s q fid sel cdw11) := by
  unfold getFeatures
  repeat' first
    | with_reducible assumption
    | (with_reducible refine admin_frame ?_ (fun x hx => ?_) ?_ ?_ ?_ ?_ ?_ ?_)
    | (with_reducible apply complete_frame)
    | (with_reducible apply replyBytes_frame)
    | (with_reducible apply frame_ite)
    | (intro b; refine (fun (_ : OnlyChanges F z b) => ?_) ?_; clear_value b; swap; dsimp only [b]; swap)
    | (intro b; clear_value b)
    | intro b
    | lift_lets
    | split
    | dsimp only

end Sys2Proof.Machine
end

