-- ==== Sys2Proof/Laws/FrameRegs.lean ====
section
/-! SUPPORT. What the operations leave alone (Laws/Frame.lean): register accesses and the commands of one line. One law for each operation. -/

set_option Elab.async false
set_option linter.unusedTactic false
set_option linter.unreachableTactic false

namespace Sys2Proof.Machine

variable {F : List Part} {z s : State}

theorem undeliverable_frame {b : Blk} {u : Nat} (hz : OnlyChanges F z s) (m1 : Part.out ∈ F) (m3 : Part.regs ∈ F) (m4 : Part.portA ∈ F) (m5 : Part.portB ∈ F) (m6 : Part.evr ∈ F) : OnlyChanges F z (undeliverable s b u) := by
  unfold undeliverable
  repeat' first
    | with_reducible assumption
    | (with_reducible apply satAdd_frame)
    | (with_reducible apply wrField_frame)
    | (with_reducible apply raise_frame)
    | (with_reducible apply orReg_frame)
    | (intro b; refine (fun (_ : OnlyChanges F z b) => ?_) ?_; clear_value b; swap; dsimp only [b]; swap)
    | (intro b; clear_value b)
    | intro b
    | lift_lets

theorem noteRead_frame {b : Blk} {off : Nat} (hz : OnlyChanges F z s) (m16 : Part.map ∈ F) : OnlyChanges F z (noteRead s b off) := by
  unfold noteRead
  repeat' first
    | with_reducible assumption
    | (with_reducible apply updMap_frame)
    | (with_reducible apply frame_ite)
    | split

theorem regRead_frame {i : Initiator} {a : Nat} {size : Nat} (hz : OnlyChanges F z s) (m1 : Part.out ∈ F) (m3 : Part.regs ∈ F) (m4 : Part.portA ∈ F) (m5 : Part.portB ∈ F) (m6 : Part.evr ∈ F) (m16 : Part.map ∈ F) : OnlyChanges F z (regRead s i a size).1 := by
  unfold regRead
  repeat' first
    | with_reducible assumption
    | (with_reducible apply orReg_frame)
    | (with_reducible apply accessFault_frame)
    | (with_reducible apply undeliverable_frame)
    | (with_reducible apply noteRead_frame)
    | (with_reducible apply frame_ite)
    | (with_reducible apply frame_ite_fst)
    | (intro b; refine (fun (_ : OnlyChanges F z b) => ?_) ?_; clear_value b; swap; dsimp only [b]; swap)
    | (intro b; refine (fun (_ : OnlyChanges F z b.1) => ?_) ?_; clear_value b; swap; dsimp only [b]; swap)
    | (with_reducible apply hfn)
    | (intro b; refine (fun (hfn : ∀ x, OnlyChanges F z x → OnlyChanges F z (b x)) => ?_) ?_; clear_value b; swap; (intro x hx; dsimp only [b]); swap)
    | (intro b; refine (fun (hfn : ∀ x y, OnlyChanges F z x → OnlyChanges F z (b x y)) => ?_) ?_; clear_value b; swap; (intro x y hx; dsimp only [b]); swap)
    | (with_reducible apply hfc)
    | (with_reducible apply hfd)
    | (intro b; refine (fun (hfc : ∀ x, OnlyChanges F z (b x)) => ?_) ?_; clear_value b; swap; (intro x; dsimp only [b]); swap)
    | (intro b; refine (fun (hfd : ∀ x y, OnlyChanges F z (b x y)) => ?_) ?_; clear_value b; swap; (intro x y; dsimp only [b]); swap)
    | (intro b; clear_value b)
    | intro b
    | lift_lets
    | split
    | dsimp only

theorem windowRead_frame {i : Initiator} {a size : Nat} {x : State × Nat} (hz : OnlyChanges F z s) (hx : windowRead s i a size = some x) (m1 : Part.out ∈ F) (m3 : Part.regs ∈ F) (m4 : Part.portA ∈ F) (m5 : Part.portB ∈ F) (m6 : Part.evr ∈ F) (m16 : Part.map ∈ F)
    :
    OnlyChanges F z x.1 := by
  unfold windowRead at hx
  repeat' first
    | contradiction
    | (cases hx; first | exact hz | (apply denyAccess_frame hz <;> assumption))
    | split at hx

theorem readAccess_frame {i : Initiator} {a size : Nat} (hz : OnlyChanges F z s) (m1 : Part.out ∈ F) (m3 : Part.regs ∈ F) (m4 : Part.portA ∈ F) (m5 : Part.portB ∈ F) (m6 : Part.evr ∈ F) (m16 : Part.map ∈ F)
    : OnlyChanges F z (readAccess s i a size) := by
  unfold readAccess
  refine frame_ite hz ?_
  dsimp only
  refine emit_frame ?_ (by assumption)
  cases hx : windowRead s i a size with
  | none => apply regRead_frame hz <;> assumption
  | some x => (apply windowRead_frame hz hx <;> assumption)

theorem enableUnit_frame {b : Blk} {u : Nat} (hz : OnlyChanges F z s) (m1 : Part.out ∈ F) (m2 : Part.clk ∈ F) (m3 : Part.regs ∈ F) (m4 : Part.portA ∈ F) (m5 : Part.portB ∈ F) (m6 : Part.evr ∈ F) (m10 : Part.ring ∈ F) (m14 : Part.dram ∈ F) (m15 : Part.phc ∈ F) (m16 : Part.map ∈ F) (m17 : Part.flash ∈ F) (m18 : Part.jrc ∈ F) (m19 : Part.srt ∈ F) (m21 : Part.pat ∈ F) (m22 : Part.mem ∈ F) : OnlyChanges F z (enableUnit s b u) := by
  unfold enableUnit
  repeat' first
    | with_reducible assumption
    | (with_reducible apply setActive_frame)
    | (with_reducible apply phcEnable_frame)
    | (with_reducible apply ringEnable_frame)
    | (with_reducible apply portEnable_frame)
    | (with_reducible apply pump_frame)
    | (with_reducible apply startRebuild_frame)
    | (with_reducible apply updSrt_frame)
    | (with_reducible apply trainEnabled_frame)
    | (with_reducible apply takeCost_frame)
    | (with_reducible apply proceedAll_frame)
    | (with_reducible apply anaAfter_frame)
    | (with_reducible refine frame_foldl (fun x b hx => ?_) ?_)
    | (with_reducible refine frame_foldl_fst (fun x b hx => ?_) ?_)
    | (intro b; refine (fun (_ : OnlyChanges F z b) => ?_) ?_; clear_value b; swap; dsimp only [b]; swap)
    | (intro b; refine (fun (_ : OnlyChanges F z b.1) => ?_) ?_; clear_value b; swap; dsimp only [b]; swap)
    | (intro b; clear_value b)
    | intro b
    | lift_lets
    | split
    | dsimp only

theorem disableStart_frame {b : Blk} {u : Nat} (hz : OnlyChanges F z s) (m1 : Part.out ∈ F) (m3 : Part.regs ∈ F) (m4 : Part.portA ∈ F) (m5 : Part.portB ∈ F) (m6 : Part.evr ∈ F) (m9 : Part.chip ∈ F) (m15 : Part.phc ∈ F) (m17 : Part.flash ∈ F) (m22 : Part.mem ∈ F) : OnlyChanges F z (disableStart s b u) := by
  unfold disableStart
  repeat' first
    | with_reducible assumption
    | (with_reducible apply phcDrain_frame)
    | (with_reducible apply updChip_frame)
    | (with_reducible apply scrubStopReq_frame)
    | (with_reducible apply pump_frame)
    | (with_reducible apply askResume_frame)
    | (with_reducible apply frame_ite)
    | (with_reducible apply frame_ite_fst)
    | (with_reducible refine frame_foldl (fun x b hx => ?_) ?_)
    | (with_reducible refine frame_foldl_fst (fun x b hx => ?_) ?_)
    | (intro b; refine (fun (_ : OnlyChanges F z b) => ?_) ?_; clear_value b; swap; dsimp only [b]; swap)
    | (intro b; refine (fun (_ : OnlyChanges F z b.1) => ?_) ?_; clear_value b; swap; dsimp only [b]; swap)
    | (intro b; clear_value b)
    | intro b
    | lift_lets
    | split

theorem disableDone_frame {b : Blk} {u : Nat} (hz : OnlyChanges F z s) (m1 : Part.out ∈ F) (m2 : Part.clk ∈ F) (m3 : Part.regs ∈ F) (m4 : Part.portA ∈ F) (m5 : Part.portB ∈ F) (m6 : Part.evr ∈ F) (m8 : Part.pwr ∈ F) (m9 : Part.chip ∈ F) (m10 : Part.ring ∈ F) (m14 : Part.dram ∈ F) (m15 : Part.phc ∈ F) (m16 : Part.map ∈ F) (m17 : Part.flash ∈ F) (m18 : Part.jrc ∈ F) (m19 : Part.srt ∈ F) (m21 : Part.pat ∈ F) (m22 : Part.mem ∈ F) : OnlyChanges F z (disableDone s b u) := by
  unfold disableDone
  repeat' first
    | with_reducible assumption
    | (with_reducible apply phcDrained_frame)
    | (with_reducible apply updChip_frame)
    | (with_reducible apply ringDisable_frame)
    | (with_reducible apply setActive_frame)
    | (with_reducible apply modPort_frame)
    | (with_reducible apply releaseHolds_frame)
    | (with_reducible apply anaAfter_frame)
    | (with_reducible apply enableUnit_frame)
    | (with_reducible apply frame_ite)
    | (with_reducible apply frame_ite_fst)
    | (intro b; refine (fun (_ : OnlyChanges F z b) => ?_) ?_; clear_value b; swap; dsimp only [b]; swap)
    | (intro b; refine (fun (_ : OnlyChanges F z b.1) => ?_) ?_; clear_value b; swap; dsimp only [b]; swap)
    | (intro b; clear_value b)
    | intro b
    | lift_lets
    | split
    | (fail_if_no_progress with_reducible refine frame_upd ?_)
    | dsimp only

theorem ctlStore_frame {i : Initiator} {b : Blk} {u : Nat} {v : Nat} (hz : OnlyChanges F z s) (m1 : Part.out ∈ F) (m2 : Part.clk ∈ F) (m3 : Part.regs ∈ F) (m4 : Part.portA ∈ F) (m5 : Part.portB ∈ F) (m6 : Part.evr ∈ F) (m9 : Part.chip ∈ F) (m10 : Part.ring ∈ F) (m14 : Part.dram ∈ F) (m15 : Part.phc ∈ F) (m16 : Part.map ∈ F) (m17 : Part.flash ∈ F) (m18 : Part.jrc ∈ F) (m19 : Part.srt ∈ F) (m21 : Part.pat ∈ F) (m22 : Part.mem ∈ F) : OnlyChanges F z (ctlStore s i b u v) := by
  unfold ctlStore
  repeat' first
    | with_reducible assumption
    | (with_reducible apply wrField_frame)
    | (with_reducible apply accessFault_frame)
    | (with_reducible apply wr_frame)
    | (with_reducible apply disableStart_frame)
    | (with_reducible apply enableUnit_frame)
    | (with_reducible apply frame_ite)
    | (with_reducible apply frame_ite_fst)
    | (intro b; refine (fun (_ : OnlyChanges F z b) => ?_) ?_; clear_value b; swap; dsimp only [b]; swap)
    | (intro b; refine (fun (_ : OnlyChanges F z b.1) => ?_) ?_; clear_value b; swap; dsimp only [b]; swap)
    | (intro b; clear_value b)
    | intro b
    | lift_lets
    | split

theorem listRead_frame {k : Nat} (hz : OnlyChanges F z s) (m1 : Part.out ∈ F) (m2 : Part.clk ∈ F) (m3 : Part.regs ∈ F) (m4 : Part.portA ∈ F) (m5 : Part.portB ∈ F) (m6 : Part.evr ∈ F) (m14 : Part.dram ∈ F) (m15 : Part.phc ∈ F) (m18 : Part.jrc ∈ F) (m21 : Part.pat ∈ F) (m22 : Part.mem ∈ F) : OnlyChanges F z (listRead s k).1 := by
  unfold listRead
  repeat' first
    | with_reducible assumption
    | (with_reducible apply directRead_frame)
    | (intro b; refine (fun (_ : OnlyChanges F z b) => ?_) ?_; clear_value b; swap; dsimp only [b]; swap)
    | (intro b; refine (fun (_ : OnlyChanges F z b.1) => ?_) ?_; clear_value b; swap; dsimp only [b]; swap)
    | (intro b; clear_value b)
    | intro b
    | lift_lets
    | split
    | (refine frame_of_eq (by assumption) ?_)
    | dsimp only

theorem jobsRead_frame {head : Nat} (hz : OnlyChanges F z s) (m1 : Part.out ∈ F) (m2 : Part.clk ∈ F) (m3 : Part.regs ∈ F) (m4 : Part.portA ∈ F) (m5 : Part.portB ∈ F) (m6 : Part.evr ∈ F) (m14 : Part.dram ∈ F) (m15 : Part.phc ∈ F) (m18 : Part.jrc ∈ F) (m21 : Part.pat ∈ F) (m22 : Part.mem ∈ F) : OnlyChanges F z (jobsRead s head).1 := by
  unfold jobsRead
  repeat' first
    | with_reducible assumption
    | (with_reducible apply directRead_frame)
    | (with_reducible refine frame_foldl (fun x b hx => ?_) ?_)
    | (with_reducible refine frame_foldl_fst (fun x b hx => ?_) ?_)
    | (intro b; refine (fun (_ : OnlyChanges F z b) => ?_) ?_; clear_value b; swap; dsimp only [b]; swap)
    | (intro b; refine (fun (_ : OnlyChanges F z b.1) => ?_) ?_; clear_value b; swap; dsimp only [b]; swap)
    | (intro b; clear_value b)
    | intro b
    | lift_lets
    | split
    | (refine frame_of_eq (by assumption) ?_)
    | dsimp only

theorem readmit_frame {v : Nat} (hz : OnlyChanges F z s) (m3 : Part.regs ∈ F) (m7 : Part.thm ∈ F) : OnlyChanges F z (readmit s v) := by
  unfold readmit
  repeat' first
    | with_reducible assumption
    | (with_reducible apply wr_frame)
    | (with_reducible apply updThm_frame)
    | (with_reducible apply frame_ite)
    | (intro b; refine (fun (_ : OnlyChanges F z b) => ?_) ?_; clear_value b; swap; dsimp only [b]; swap)
    | (with_reducible apply hfn)
    | (intro b; refine (fun (hfn : ∀ x, OnlyChanges F z x → OnlyChanges F z (b x)) => ?_) ?_; clear_value b; swap; (intro x hx; dsimp only [b]); swap)
    | (intro b; refine (fun (hfn : ∀ x y, OnlyChanges F z x → OnlyChanges F z (b x y)) => ?_) ?_; clear_value b; swap; (intro x y hx; dsimp only [b]); swap)
    | (with_reducible apply hfc)
    | (with_reducible apply hfd)
    | (intro b; refine (fun (hfc : ∀ x, OnlyChanges F z (b x)) => ?_) ?_; clear_value b; swap; (intro x; dsimp only [b]); swap)
    | (intro b; refine (fun (hfd : ∀ x y, OnlyChanges F z (b x y)) => ?_) ?_; clear_value b; swap; (intro x y; dsimp only [b]); swap)
    | (intro b; clear_value b)
    | intro b
    | lift_lets
    | split
    | (fail_if_no_progress with_reducible refine frame_upd ?_)

theorem codeConfig_frame {n : Nat} (hz : OnlyChanges F z s) (m6 : Part.evr ∈ F) : OnlyChanges F z (codeConfig s n) := by
  unfold codeConfig
  repeat' first
    | with_reducible assumption
    | (with_reducible apply updEvr_frame)
    | (intro b; refine (fun (_ : OnlyChanges F z b) => ?_) ?_; clear_value b; swap; dsimp only [b]; swap)
    | (intro b; clear_value b)
    | intro b
    | lift_lets

theorem newGeper_frame {n : Nat} (hz : OnlyChanges F z s) (m1 : Part.out ∈ F) (m10 : Part.ring ∈ F) : OnlyChanges F z (newGeper s n) := by
  unfold newGeper
  repeat' first
    | with_reducible assumption
    | (with_reducible apply updRing_frame)
    | (with_reducible apply sendRepeat_frame)
    | (with_reducible apply frame_ite)
    | (intro b; refine (fun (_ : OnlyChanges F z b) => ?_) ?_; clear_value b; swap; dsimp only [b]; swap)
    | (intro b; clear_value b)
    | intro b
    | lift_lets
    | split

theorem flashEffect_frame {i : Initiator} {b : Blk} {u : Nat} {off : Nat} {v : Nat} {e : Extra} (hz : OnlyChanges F z s) (m1 : Part.out ∈ F) (m2 : Part.clk ∈ F) (m3 : Part.regs ∈ F) (m4 : Part.portA ∈ F) (m5 : Part.portB ∈ F) (m6 : Part.evr ∈ F) (m12 : Part.cry ∈ F) (m14 : Part.dram ∈ F) (m15 : Part.phc ∈ F) (m16 : Part.map ∈ F) (m17 : Part.flash ∈ F) (m18 : Part.jrc ∈ F) (m19 : Part.srt ∈ F) (m21 : Part.pat ∈ F) (m22 : Part.mem ∈ F) : OnlyChanges F z (flashEffect s i b u off v e) := by
  unfold flashEffect
  repeat' first
    | with_reducible assumption
    | (with_reducible apply trainStart_frame)
    | (with_reducible apply snapCmd_frame)
    | (with_reducible apply pump_frame)
    | (with_reducible apply turn_frame)
    | (with_reducible apply spaceUpdate_frame)
    | (with_reducible apply victimScan_frame)
    | (with_reducible apply jobPlace_frame)
    | (with_reducible apply jobsRead_frame)
    | (with_reducible apply readsOver_frame)
    | (with_reducible apply jobSubmit_frame)
    | (with_reducible apply reclaimPace_frame)
    | (with_reducible apply jobAbort_frame)
    | (with_reducible apply listRead_frame)
    | (with_reducible apply ownerSearch_frame)
    | (with_reducible apply catchup_frame)
    | (with_reducible apply cutover_frame)
    | (with_reducible apply jrcCommit_frame)
    | (with_reducible apply fullJudge_frame)
    | (with_reducible apply zeroFill_frame)
    | (with_reducible apply scrubStart_frame)
    | (with_reducible apply scrubStopReq_frame)
    | (with_reducible apply rangeStart_frame)
    | (with_reducible apply swop_frame)
    | (with_reducible apply accessFault_frame)
    | (with_reducible apply hwmClear_frame)
    | (with_reducible apply kcmd_frame)
    | (with_reducible apply frame_ite)
    | (with_reducible apply frame_ite_fst)
    | (intro b; refine (fun (_ : OnlyChanges F z b) => ?_) ?_; clear_value b; swap; dsimp only [b]; swap)
    | (intro b; refine (fun (_ : OnlyChanges F z b.1) => ?_) ?_; clear_value b; swap; dsimp only [b]; swap)
    | (intro b; clear_value b)
    | intro b
    | lift_lets
    | split
    | (refine frame_of_eq (by assumption) ?_)
    | dsimp only

theorem systemEffect_frame {i : Initiator} {b : Blk} {off : Nat} {v : Nat} {n : Nat} {e : Extra} (hz : OnlyChanges F z s) (m1 : Part.out ∈ F) (m2 : Part.clk ∈ F) (m3 : Part.regs ∈ F) (m4 : Part.portA ∈ F) (m5 : Part.portB ∈ F) (m6 : Part.evr ∈ F) (m7 : Part.thm ∈ F) (m8 : Part.pwr ∈ F) (m9 : Part.chip ∈ F) (m10 : Part.ring ∈ F) (m11 : Part.sec ∈ F) (m12 : Part.cry ∈ F) (m13 : Part.boot ∈ F) (m14 : Part.dram ∈ F) (m15 : Part.phc ∈ F) (m16 : Part.map ∈ F) (m17 : Part.flash ∈ F) (m18 : Part.jrc ∈ F) (m19 : Part.srt ∈ F) (m20 : Part.prog ∈ F) (m21 : Part.pat ∈ F) (m22 : Part.mem ∈ F) : OnlyChanges F z (systemEffect s i b off v n e) := by
  unfold systemEffect
  repeat' first
    | with_reducible assumption
    | (with_reducible apply doorbell_frame)
    | (with_reducible apply wdRestart_frame)
    | (with_reducible apply warmReset_frame)
    | (with_reducible apply norStart_frame)
    | (with_reducible apply avsel_frame)
    | (with_reducible apply courierReset_frame)
    | (with_reducible apply readmit_frame)
    | (with_reducible apply updWindow_frame)
    | (with_reducible apply newGeper_frame)
    | (with_reducible apply enumCommand_frame)
    | (with_reducible apply txDispatch_frame)
    | (with_reducible apply rxPop_frame)
    | (with_reducible apply verifyStart_frame)
    | (with_reducible apply accessFault_frame)
    | (with_reducible apply handoverSwitch_frame)
    | (with_reducible apply handoverDone_frame)
    | (with_reducible apply fuseCmd_frame)
    | (with_reducible apply setCursor_frame)
    | (with_reducible apply rearm_frame)
    | (with_reducible apply flushSup_frame)
    | (with_reducible apply codeConfig_frame)
    | (with_reducible apply setBank_frame)
    | (with_reducible apply writeRecord_frame)
    | (with_reducible apply frame_ite)
    | (with_reducible refine frame_foldl (fun x b hx => ?_) ?_)
    | (intro b; refine (fun (_ : OnlyChanges F z b) => ?_) ?_; clear_value b; swap; dsimp only [b]; swap)
    | (intro b; clear_value b)
    | intro b
    | lift_lets
    | split
    | dsimp only

theorem retireWrite_frame {i : Initiator} {off : Nat} {v : Nat} (hz : OnlyChanges F z s) (m1 : Part.out ∈ F) (m2 : Part.clk ∈ F) (m3 : Part.regs ∈ F) (m4 : Part.portA ∈ F) (m5 : Part.portB ∈ F) (m6 : Part.evr ∈ F) (m14 : Part.dram ∈ F) (m15 : Part.phc ∈ F) (m16 : Part.map ∈ F) (m17 : Part.flash ∈ F) (m18 : Part.jrc ∈ F) (m19 : Part.srt ∈ F) (m21 : Part.pat ∈ F) (m22 : Part.mem ∈ F) : OnlyChanges F z (retireWrite s i off v) := by
  unfold retireWrite
  repeat' first
    | with_reducible assumption
    | (with_reducible apply accessFault_frame)
    | (with_reducible apply readsOver_frame)
    | (with_reducible apply channelRetire_frame)
    | (with_reducible apply lunRetire_frame)
    | (with_reducible apply frame_ite)
    | (with_reducible refine frame_foldl (fun x b hx => ?_) ?_)
    | (intro b; refine (fun (_ : OnlyChanges F z b) => ?_) ?_; clear_value b; swap; dsimp only [b]; swap)
    | (intro b; clear_value b)
    | intro b
    | lift_lets
    | split

theorem regStore_frame {i : Initiator} {b : Blk} {u : Nat} {x : RegAt} {v : Nat} {e : Extra} (hz : OnlyChanges F z s) (m1 : Part.out ∈ F) (m2 : Part.clk ∈ F) (m3 : Part.regs ∈ F) (m4 : Part.portA ∈ F) (m5 : Part.portB ∈ F) (m6 : Part.evr ∈ F) (m7 : Part.thm ∈ F) (m8 : Part.pwr ∈ F) (m9 : Part.chip ∈ F) (m10 : Part.ring ∈ F) (m11 : Part.sec ∈ F) (m12 : Part.cry ∈ F) (m13 : Part.boot ∈ F) (m14 : Part.dram ∈ F) (m15 : Part.phc ∈ F) (m16 : Part.map ∈ F) (m17 : Part.flash ∈ F) (m18 : Part.jrc ∈ F) (m19 : Part.srt ∈ F) (m20 : Part.prog ∈ F) (m21 : Part.pat ∈ F) (m22 : Part.mem ∈ F) : OnlyChanges F z (regStore s i b u x v e) := by
  unfold regStore
  repeat' first
    | with_reducible assumption
    | (with_reducible apply ctlStore_frame)
    | (with_reducible apply retireWrite_frame)
    | (with_reducible apply accessFault_frame)
    | (with_reducible apply wr_frame)
    | (with_reducible apply systemEffect_frame)
    | (with_reducible apply flashEffect_frame)
    | (with_reducible apply frame_ite)
    | (with_reducible apply frame_ite_fst)
    | (intro b; refine (fun (_ : OnlyChanges F z b) => ?_) ?_; clear_value b; swap; dsimp only [b]; swap)
    | (intro b; refine (fun (_ : OnlyChanges F z b.1) => ?_) ?_; clear_value b; swap; dsimp only [b]; swap)
    | (intro b; clear_value b)
    | intro b
    | lift_lets
    | split

theorem regWrite_frame {i : Initiator} {a : Nat} {size : Nat} {v : Nat} {e : Extra} (hz : OnlyChanges F z s) (m1 : Part.out ∈ F) (m2 : Part.clk ∈ F) (m3 : Part.regs ∈ F) (m4 : Part.portA ∈ F) (m5 : Part.portB ∈ F) (m6 : Part.evr ∈ F) (m7 : Part.thm ∈ F) (m8 : Part.pwr ∈ F) (m9 : Part.chip ∈ F) (m10 : Part.ring ∈ F) (m11 : Part.sec ∈ F) (m12 : Part.cry ∈ F) (m13 : Part.boot ∈ F) (m14 : Part.dram ∈ F) (m15 : Part.phc ∈ F) (m16 : Part.map ∈ F) (m17 : Part.flash ∈ F) (m18 : Part.jrc ∈ F) (m19 : Part.srt ∈ F) (m20 : Part.prog ∈ F) (m21 : Part.pat ∈ F) (m22 : Part.mem ∈ F) : OnlyChanges F z (regWrite s i a size v e) := by
  unfold regWrite
  repeat' first
    | with_reducible assumption
    | (with_reducible apply orReg_frame)
    | (with_reducible apply accessFault_frame)
    | (with_reducible apply undeliverable_frame)
    | (with_reducible apply regStore_frame)
    | (with_reducible apply frame_ite)
    | (intro b; refine (fun (_ : OnlyChanges F z b) => ?_) ?_; clear_value b; swap; dsimp only [b]; swap)
    | (with_reducible apply hfn)
    | (intro b; refine (fun (hfn : ∀ x, OnlyChanges F z x → OnlyChanges F z (b x)) => ?_) ?_; clear_value b; swap; (intro x hx; dsimp only [b]); swap)
    | (intro b; refine (fun (hfn : ∀ x y, OnlyChanges F z x → OnlyChanges F z (b x y)) => ?_) ?_; clear_value b; swap; (intro x y hx; dsimp only [b]); swap)
    | (with_reducible apply hfc)
    | (with_reducible apply hfd)
    | (intro b; refine (fun (hfc : ∀ x, OnlyChanges F z (b x)) => ?_) ?_; clear_value b; swap; (intro x; dsimp only [b]); swap)
    | (intro b; refine (fun (hfd : ∀ x y, OnlyChanges F z (b x y)) => ?_) ?_; clear_value b; swap; (intro x y; dsimp only [b]); swap)
    | (intro b; clear_value b)
    | intro b
    | lift_lets
    | split
    | dsimp only

theorem windowWrite_frame {i : Initiator} {a : Nat} {x : State} (hz : OnlyChanges F z s) (hx : windowWrite s i a = some x) (m1 : Part.out ∈ F) (m2 : Part.clk ∈ F) (m3 : Part.regs ∈ F) (m4 : Part.portA ∈ F) (m5 : Part.portB ∈ F) (m6 : Part.evr ∈ F) (m7 : Part.thm ∈ F) (m8 : Part.pwr ∈ F) (m9 : Part.chip ∈ F) (m10 : Part.ring ∈ F) (m11 : Part.sec ∈ F) (m12 : Part.cry ∈ F) (m13 : Part.boot ∈ F) (m14 : Part.dram ∈ F) (m15 : Part.phc ∈ F) (m16 : Part.map ∈ F) (m17 : Part.flash ∈ F) (m18 : Part.jrc ∈ F) (m19 : Part.srt ∈ F) (m20 : Part.prog ∈ F) (m21 : Part.pat ∈ F) (m22 : Part.mem ∈ F)
    : OnlyChanges F z x := by
  unfold windowWrite at hx
  repeat' first
    | contradiction
    | (cases hx; first | exact hz | (apply denyAccess_frame hz <;> assumption))
    | split at hx

theorem writeAccess_frame {i : Initiator} {a size v : Nat} {e : Extra} (hz : OnlyChanges F z s) (m1 : Part.out ∈ F) (m2 : Part.clk ∈ F) (m3 : Part.regs ∈ F) (m4 : Part.portA ∈ F) (m5 : Part.portB ∈ F) (m6 : Part.evr ∈ F) (m7 : Part.thm ∈ F) (m8 : Part.pwr ∈ F) (m9 : Part.chip ∈ F) (m10 : Part.ring ∈ F) (m11 : Part.sec ∈ F) (m12 : Part.cry ∈ F) (m13 : Part.boot ∈ F) (m14 : Part.dram ∈ F) (m15 : Part.phc ∈ F) (m16 : Part.map ∈ F) (m17 : Part.flash ∈ F) (m18 : Part.jrc ∈ F) (m19 : Part.srt ∈ F) (m20 : Part.prog ∈ F) (m21 : Part.pat ∈ F) (m22 : Part.mem ∈ F)
    : OnlyChanges F z (writeAccess s i a size v e) := by
  unfold writeAccess
  refine frame_ite hz ?_
  cases hx : windowWrite s i a with
  | none => apply regWrite_frame hz <;> assumption
  | some x => (apply windowWrite_frame hz hx <;> assumption)

theorem writeCmd_frame {q : Sqe} {f : IoFields} {stream : Nat} (hz : OnlyChanges F z s) (m1 : Part.out ∈ F) (m3 : Part.regs ∈ F) (m4 : Part.portA ∈ F) (m5 : Part.portB ∈ F) (m6 : Part.evr ∈ F) (m19 : Part.srt ∈ F) : OnlyChanges F z (writeCmd s q f stream) := by
  unfold writeCmd
  repeat' first
    | with_reducible assumption
    | (with_reducible apply fetchIo_frame)
    | (with_reducible apply noteStream_frame)
    | (with_reducible apply frame_ite)
    | (intro b; refine (fun (_ : OnlyChanges F z b) => ?_) ?_; clear_value b; swap; dsimp only [b]; swap)
    | (intro b; clear_value b)
    | intro b
    | lift_lets
    | split

theorem dsmCmd_frame {q : Sqe} {ranges : List LetterRange} {ad : Bool} (hz : OnlyChanges F z s) (m1 : Part.out ∈ F) (m3 : Part.regs ∈ F) (m4 : Part.portA ∈ F) (m5 : Part.portB ∈ F) (m6 : Part.evr ∈ F) (m19 : Part.srt ∈ F) : OnlyChanges F z (dsmCmd s q ranges ad) := by
  unfold dsmCmd
  repeat' first
    | with_reducible assumption
    | (with_reducible apply fetchIo_frame)
    | (with_reducible apply takeIo_frame)
    | (with_reducible apply complete_frame)
    | (with_reducible apply frame_ite)
    | (intro b; refine (fun (_ : OnlyChanges F z b) => ?_) ?_; clear_value b; swap; dsimp only [b]; swap)
    | (intro b; clear_value b)
    | intro b
    | lift_lets
    | split
    | dsimp only

theorem cacheRow_frame {tags : Bool} (hz : OnlyChanges F z s) (m1 : Part.out ∈ F) (m2 : Part.clk ∈ F) (m3 : Part.regs ∈ F) (m4 : Part.portA ∈ F) (m5 : Part.portB ∈ F) (m6 : Part.evr ∈ F) (m14 : Part.dram ∈ F) (m15 : Part.phc ∈ F) (m18 : Part.jrc ∈ F) (m22 : Part.mem ∈ F) : OnlyChanges F z (cacheRow s tags) := by
  unfold cacheRow
  repeat' first
    | with_reducible assumption
    | (with_reducible apply freshBelow_frame)
    | (with_reducible apply offender_frame)
    | (with_reducible apply frame_ite)
    | (with_reducible apply frame_ite_fst)
    | (intro b; refine (fun (_ : OnlyChanges F z b) => ?_) ?_; clear_value b; swap; dsimp only [b]; swap)
    | (intro b; refine (fun (_ : OnlyChanges F z b.1) => ?_) ?_; clear_value b; swap; dsimp only [b]; swap)
    | (intro b; clear_value b)
    | intro b
    | lift_lets
    | split
    | (refine frame_of_eq (by assumption) ?_)
    | dsimp only

theorem lookupError_frame {line : Nat} {err : Option LineError} {seg : Nat} (hz : OnlyChanges F z s) (m1 : Part.out ∈ F) (m2 : Part.clk ∈ F) (m3 : Part.regs ∈ F) (m4 : Part.portA ∈ F) (m5 : Part.portB ∈ F) (m6 : Part.evr ∈ F) (m14 : Part.dram ∈ F) (m15 : Part.phc ∈ F) (m18 : Part.jrc ∈ F) (m22 : Part.mem ∈ F) : OnlyChanges F z (lookupError s line err seg) := by
  unfold lookupError
  repeat' first
    | with_reducible assumption
    | (with_reducible apply phcError_frame)
    | (with_reducible apply cacheRow_frame)
    | (intro b; refine (fun (_ : OnlyChanges F z b) => ?_) ?_; clear_value b; swap; dsimp only [b]; swap)
    | (intro b; clear_value b)
    | intro b
    | lift_lets
    | split
    | dsimp only

theorem phcFilled_frame {line : Nat} {r : UnitRead} {more : List LineReq} {err : Option LineError} {seg : Nat} (hz : OnlyChanges F z s) (m1 : Part.out ∈ F) (m2 : Part.clk ∈ F) (m3 : Part.regs ∈ F) (m4 : Part.portA ∈ F) (m5 : Part.portB ∈ F) (m6 : Part.evr ∈ F) (m14 : Part.dram ∈ F) (m15 : Part.phc ∈ F) (m18 : Part.jrc ∈ F) (m21 : Part.pat ∈ F) (m22 : Part.mem ∈ F) : OnlyChanges F z (phcFilled s line r more err seg) := by
  unfold phcFilled
  repeat' first
    | with_reducible assumption
    | (with_reducible apply clientAccesses_frame)
    | (with_reducible apply lookupError_frame)
    | (with_reducible apply fillDone_frame)
    | (with_reducible apply dramReport_frame)
    | (with_reducible apply frame_ite)
    | (intro b; refine (fun (_ : OnlyChanges F z b) => ?_) ?_; clear_value b; swap; dsimp only [b]; swap)
    | (intro b; clear_value b)
    | intro b
    | lift_lets
    | split

theorem wayDisableDone_frame {way : Nat} {set : Nat} (hz : OnlyChanges F z s) (m1 : Part.out ∈ F) (m2 : Part.clk ∈ F) (m3 : Part.regs ∈ F) (m4 : Part.portA ∈ F) (m5 : Part.portB ∈ F) (m6 : Part.evr ∈ F) (m15 : Part.phc ∈ F) (m18 : Part.jrc ∈ F) (m22 : Part.mem ∈ F) : OnlyChanges F z (wayDisableDone s way set) := by
  unfold wayDisableDone
  repeat' first
    | with_reducible assumption
    | (with_reducible apply wayDisabled_frame)
    | (with_reducible apply freshBelow_frame)
    | (with_reducible apply addRepair_frame)
    | (with_reducible apply frame_ite)
    | (with_reducible apply frame_ite_fst)
    | (intro b; refine (fun (_ : OnlyChanges F z b) => ?_) ?_; clear_value b; swap; dsimp only [b]; swap)
    | (intro b; refine (fun (_ : OnlyChanges F z b.1) => ?_) ?_; clear_value b; swap; dsimp only [b]; swap)
    | (intro b; clear_value b)
    | intro b
    | lift_lets
    | split
    | (refine frame_of_eq (by assumption) ?_)
    | dsimp only

theorem rootCommitted_frame (hz : OnlyChanges F z s) (m1 : Part.out ∈ F) (m2 : Part.clk ∈ F) (m3 : Part.regs ∈ F) (m4 : Part.portA ∈ F) (m5 : Part.portB ∈ F) (m6 : Part.evr ∈ F) (m11 : Part.sec ∈ F) (m14 : Part.dram ∈ F) (m15 : Part.phc ∈ F) (m16 : Part.map ∈ F) (m17 : Part.flash ∈ F) (m18 : Part.jrc ∈ F) (m20 : Part.prog ∈ F) (m21 : Part.pat ∈ F) (m22 : Part.mem ∈ F) : OnlyChanges F z (rootCommitted s) := by
  unfold rootCommitted
  repeat' first
    | with_reducible assumption
    | (with_reducible apply rootDone_frame)
    | (with_reducible apply updPat_frame)
    | (with_reducible apply noteRoot_frame)
    | (with_reducible apply stageRuns_frame)
    | (with_reducible apply reclaimPace_frame)
    | (with_reducible apply updMap_frame)
    | (with_reducible apply frame_ite)
    | (intro b; refine (fun (_ : OnlyChanges F z b) => ?_) ?_; clear_value b; swap; dsimp only [b]; swap)
    | (intro b; clear_value b)
    | intro b
    | lift_lets
    | split

theorem groupTick_frame (hz : OnlyChanges F z s) (m1 : Part.out ∈ F) (m3 : Part.regs ∈ F) (m4 : Part.portA ∈ F) (m5 : Part.portB ∈ F) (m6 : Part.evr ∈ F) (m10 : Part.ring ∈ F) (m18 : Part.jrc ∈ F) : OnlyChanges F z (groupTick s) := by
  unfold groupTick
  repeat' first
    | with_reducible assumption
    | (with_reducible apply tickMark_frame)
    | (with_reducible apply epochTrig_frame)
    | (with_reducible apply frame_ite)
    | (intro b; refine (fun (_ : OnlyChanges F z b) => ?_) ?_; clear_value b; swap; dsimp only [b]; swap)
    | (intro b; clear_value b)
    | intro b
    | lift_lets
    | split

theorem windowBoundary_frame (hz : OnlyChanges F z s) (m1 : Part.out ∈ F) (m2 : Part.clk ∈ F) (m3 : Part.regs ∈ F) (m4 : Part.portA ∈ F) (m5 : Part.portB ∈ F) (m6 : Part.evr ∈ F) (m10 : Part.ring ∈ F) (m14 : Part.dram ∈ F) (m15 : Part.phc ∈ F) (m16 : Part.map ∈ F) (m17 : Part.flash ∈ F) (m18 : Part.jrc ∈ F) (m21 : Part.pat ∈ F) (m22 : Part.mem ∈ F) : OnlyChanges F z (windowBoundary s) := by
  unfold windowBoundary
  repeat' first
    | with_reducible assumption
    | (with_reducible apply patGo_frame)
    | (with_reducible apply updWindow_frame)

theorem bandTrained_frame (hz : OnlyChanges F z s) (m1 : Part.out ∈ F) (m3 : Part.regs ∈ F) (m4 : Part.portA ∈ F) (m5 : Part.portB ∈ F) (m6 : Part.evr ∈ F) (m7 : Part.thm ∈ F) (m17 : Part.flash ∈ F) : OnlyChanges F z (bandTrained s) := by
  unfold bandTrained
  repeat' first
    | with_reducible assumption
    | (with_reducible apply bandChange_frame)
    | (with_reducible apply bandTrain_frame)
    | (with_reducible apply frame_ite)
    | (intro b; refine (fun (_ : OnlyChanges F z b) => ?_) ?_; clear_value b; swap; dsimp only [b]; swap)
    | (intro b; clear_value b)
    | intro b
    | lift_lets
    | split

theorem tick_frame (hz : OnlyChanges F z s) (m1 : Part.out ∈ F) (m2 : Part.clk ∈ F) (m3 : Part.regs ∈ F) (m4 : Part.portA ∈ F) (m5 : Part.portB ∈ F) (m6 : Part.evr ∈ F) (m17 : Part.flash ∈ F) (m18 : Part.jrc ∈ F) : OnlyChanges F z (tick s) := by
  unfold tick
  repeat' first
    | with_reducible assumption
    | (with_reducible apply updEvr_frame)
    | (with_reducible apply busTick_frame)
    | (with_reducible apply updJrc_frame)
    | (with_reducible apply frame_ite)
    | (intro b; refine (fun (_ : OnlyChanges F z b) => ?_) ?_; clear_value b; swap; dsimp only [b]; swap)
    | (intro b; clear_value b)
    | intro b
    | lift_lets
    | split
    | (fail_if_no_progress with_reducible refine frame_upd ?_)

end Sys2Proof.Machine
end

