-- ==== Sys2Proof/Laws/Tables.lean ====
section
/-! SUPPORT. The laws of the sparse tables and of byte memories: what a read gives after a write, and that every operation
keeps the canonical form. -/

set_option Elab.async false

namespace Sys2Proof.Machine

variable {α β : Type}

/-! ## Reads after writes -/

@[simp] theorem nget_nset_same (m : NMap α) (k : Nat) (v : α) : nget (nset m k v) k = some v := by
  induction m with
  | nil => simp [nset, nget]
  | cons e r ih =>
    obtain ⟨a, w⟩ := e
    unfold nset
    split
    · simp [nget]
    · split
      · simp [nget]
      · simp_all [nget]

theorem nget_nset_other (m : NMap α) {k j : Nat} (v : α) (h : j ≠ k) : nget (nset m k v) j = nget m j := by
  induction m with
  | nil => simp [nset, nget, h]
  | cons e r ih =>
    obtain ⟨a, w⟩ := e
    unfold nset
    split
    · rename_i hk; subst hk; simp [nget, h]
    · split
      · rename_i h1 h2
        by_cases hj : j < k
        · have : ¬ j = a := by omega
          have : j < a := by omega
          simp [nget, *]
        · simp [nget, h, hj]
      · simp only [nget, ih]

theorem ngetD_nset_same (m : NMap α) (k : Nat) (v d : α) : ngetD (nset m k v) k d = v := by simp [ngetD]
theorem ngetD_nset_other (m : NMap α) {k j : Nat} (v d : α) (h : j ≠ k) : ngetD (nset m k v) j d = ngetD m j d := by
  simp [ngetD, nget_nset_other m v h]

/-! ## The canonical form -/

/-- A table that is sorted above a bound lists nothing at or below it. -/
theorem nget_low {m : NMap α} {b : Nat} (h : nsorted (some b) m = true) {j : Nat} (hj : j ≤ b) : nget m j = none := by
  cases m with
  | nil => rfl
  | cons e r =>
    obtain ⟨a, w⟩ := e
    simp only [nsorted, Bool.and_eq_true, decide_eq_true_eq] at h
    have : ¬ j = a := by omega
    have : j < a := by omega
    simp [nget, *]

theorem nsorted_weaken {m : NMap α} {b c : Nat} (hc : c ≤ b) (h : nsorted (some b) m = true) : nsorted (some c) m = true := by
  cases m with
  | nil => rfl
  | cons e r =>
    obtain ⟨a, w⟩ := e
    simp only [nsorted, Bool.and_eq_true, decide_eq_true_eq] at h ⊢
    exact ⟨by omega, h.2⟩

theorem nsorted_none {m : NMap α} {b : Nat} (h : nsorted (some b) m = true) : nsorted none m = true := by
  cases m with
  | nil => rfl
  | cons e r =>
    obtain ⟨a, w⟩ := e
    simp only [nsorted, Bool.and_eq_true] at h ⊢
    exact h.2

theorem nsorted_tail {e : Nat × α} {r : NMap α} (h : nsorted none (e :: r) = true) : nsorted (some e.1) r = true := by
  simpa [nsorted] using h

theorem nsorted_nset_above {m : NMap α} {b k : Nat} (v : α) (hk : b < k) (h : nsorted (some b) m = true) :
    nsorted (some b) (nset m k v) = true := by
  induction m generalizing b with
  | nil => simp [nset, nsorted, hk]
  | cons e r ih =>
    obtain ⟨a, w⟩ := e
    simp only [nsorted, Bool.and_eq_true, decide_eq_true_eq] at h
    unfold nset
    split
    · rename_i hka; subst hka
      simp [nsorted, hk, h.2]
    · split
      · rename_i h1 h2
        simp [nsorted, hk, h2, h.2]
      · rename_i h1 h2
        simp only [nsorted, Bool.and_eq_true, decide_eq_true_eq]
        exact ⟨h.1, ih (by omega) h.2⟩

theorem nsorted_nset {m : NMap α} (k : Nat) (v : α) (h : nsorted none m = true) : nsorted none (nset m k v) = true := by
  cases m with
  | nil => simp [nset, nsorted]
  | cons e r =>
    obtain ⟨a, w⟩ := e
    simp only [nsorted] at h
    unfold nset
    split
    · rename_i hka; subst hka; simpa [nsorted] using h
    · split
      · rename_i h1 h2; simp [nsorted, h2, h]
      · rename_i h1 h2; simp only [nsorted]; exact nsorted_nset_above v (by omega) h

theorem nsorted_ndel_above {m : NMap α} {b : Nat} (k : Nat) (h : nsorted (some b) m = true) :
    nsorted (some b) (ndel m k) = true := by
  induction m generalizing b with
  | nil => simp [ndel, nsorted]
  | cons e r ih =>
    obtain ⟨a, w⟩ := e
    have h' := h
    simp only [nsorted, Bool.and_eq_true, decide_eq_true_eq] at h
    unfold ndel
    split
    · exact nsorted_weaken (by omega) h.2
    · split
      · exact h'
      · simp only [nsorted, Bool.and_eq_true, decide_eq_true_eq]; exact ⟨h.1, ih h.2⟩

theorem nsorted_ndel {m : NMap α} (k : Nat) (h : nsorted none m = true) : nsorted none (ndel m k) = true := by
  cases m with
  | nil => simp [ndel, nsorted]
  | cons e r =>
    obtain ⟨a, w⟩ := e
    have h' := h
    simp only [nsorted] at h
    unfold ndel
    split
    · exact nsorted_none h
    · split
      · exact h'
      · simp only [nsorted]; exact nsorted_ndel_above k h

theorem nget_ndel_same {m : NMap α} (k : Nat) (h : nsorted none m = true) : nget (ndel m k) k = none := by
  induction m with
  | nil => rfl
  | cons e r ih =>
    obtain ⟨a, w⟩ := e
    have ht := nsorted_tail h
    unfold ndel
    split
    · rename_i hk; subst hk; exact nget_low ht (Nat.le_refl _)
    · split
      · rename_i h1 h2; simp [nget, h1, h2]
      · rename_i h1 h2; simp [nget, h1, h2, ih (nsorted_none ht)]

theorem nget_ndel_other {m : NMap α} {k j : Nat} (hj : j ≠ k) (h : nsorted none m = true) : nget (ndel m k) j = nget m j := by
  induction m with
  | nil => rfl
  | cons e r ih =>
    obtain ⟨a, w⟩ := e
    have ht := nsorted_tail h
    unfold ndel
    split
    · rename_i hk; subst hk
      by_cases hl : j < k
      · simp [nget, hj, hl, nget_low ht (Nat.le_of_lt hl)]
      · simp [nget, hj, hl]
    · split
      · rfl
      · simp only [nget, ih (nsorted_none ht)]

/-- Dropping entries keeps a table sorted. -/
theorem nsorted_filter_above {m : NMap α} {b : Nat} (p : Nat × α → Bool) (h : nsorted (some b) m = true) :
    nsorted (some b) (m.filter p) = true := by
  induction m generalizing b with
  | nil => rfl
  | cons e r ih =>
    obtain ⟨a, w⟩ := e
    simp only [nsorted, Bool.and_eq_true, decide_eq_true_eq] at h
    rw [List.filter_cons]
    split
    · simp only [nsorted, Bool.and_eq_true, decide_eq_true_eq]; exact ⟨h.1, ih h.2⟩
    · exact ih (nsorted_weaken (by omega) h.2)

theorem nsorted_filter {m : NMap α} (p : Nat × α → Bool) (h : nsorted none m = true) : nsorted none (m.filter p) = true := by
  cases m with
  | nil => rfl
  | cons e r =>
    obtain ⟨a, w⟩ := e
    simp only [nsorted] at h
    rw [List.filter_cons]
    split
    · simp only [nsorted]; exact nsorted_filter_above p h
    · exact nsorted_none (nsorted_filter_above p h)

/-- Changing or dropping values, keys kept, keeps a table sorted. -/
theorem nsorted_filterMap_above {m : NMap α} {b : Nat} (f : Nat × α → Option (Nat × β)) (hf : ∀ e x, f e = some x → x.1 = e.1)
    (h : nsorted (some b) m = true) : nsorted (some b) (m.filterMap f) = true := by
  induction m generalizing b with
  | nil => rfl
  | cons e r ih =>
    obtain ⟨a, w⟩ := e
    simp only [nsorted, Bool.and_eq_true, decide_eq_true_eq] at h
    rw [List.filterMap_cons]
    split
    · exact ih (nsorted_weaken (by omega) h.2)
    · rename_i x hx
      obtain ⟨k, v⟩ := x
      have := hf _ _ hx
      simp only at this
      subst this
      simp only [nsorted, Bool.and_eq_true, decide_eq_true_eq]; exact ⟨h.1, ih h.2⟩

theorem nsorted_filterMap {m : NMap α} (f : Nat × α → Option (Nat × β)) (hf : ∀ e x, f e = some x → x.1 = e.1)
    (h : nsorted none m = true) : nsorted none (m.filterMap f) = true := by
  cases m with
  | nil => rfl
  | cons e r =>
    have ht := nsorted_tail h
    rw [List.filterMap_cons]
    split
    · exact nsorted_none (nsorted_filterMap_above f hf ht)
    · rename_i x hx
      obtain ⟨k, v⟩ := x
      have := hf _ _ hx
      simp only at this
      subst this
      simp only [nsorted]; exact nsorted_filterMap_above f hf ht

theorem nsorted_map {m : NMap α} (f : Nat × α → Nat × β) (hf : ∀ e, (f e).1 = e.1) (h : nsorted none m = true) :
    nsorted none (m.map f) = true := by
  rw [← List.filterMap_eq_map]
  exact nsorted_filterMap _ (fun e x hx => by simp at hx; rw [← hx]; exact hf e) h

/-! ## Byte memories -/

theorem memWf_iff {d : Byte} {m : NMap Byte} :
    memWf d m = true ↔ nsorted none m = true ∧ ∀ e ∈ m, e.2 ≠ d := by
  simp [memWf, List.all_eq_true, bne_iff_ne]

theorem mem_of_ndel {m : NMap α} {k : Nat} {e : Nat × α} (h : e ∈ ndel m k) : e ∈ m := by
  induction m with
  | nil => exact h
  | cons x r ih =>
    obtain ⟨a, w⟩ := x
    unfold ndel at h
    split at h
    · exact List.mem_cons_of_mem _ h
    · split at h
      · exact h
      · rcases List.mem_cons.mp h with rfl | h
        · exact List.mem_cons_self
        · exact List.mem_cons_of_mem _ (ih h)

theorem mem_of_nset {m : NMap α} {k : Nat} {v : α} {e : Nat × α} (h : e ∈ nset m k v) : e ∈ m ∨ e = (k, v) := by
  induction m with
  | nil => exact .inr (by simpa [nset] using h)
  | cons x r ih =>
    obtain ⟨a, w⟩ := x
    unfold nset at h
    split at h
    · rcases List.mem_cons.mp h with rfl | h
      · exact .inr rfl
      · exact .inl (List.mem_cons_of_mem _ h)
    · split at h
      · rcases List.mem_cons.mp h with rfl | h
        · exact .inr rfl
        · exact .inl h
      · rcases List.mem_cons.mp h with rfl | h
        · exact .inl List.mem_cons_self
        · rcases ih h with h | h
          · exact .inl (List.mem_cons_of_mem _ h)
          · exact .inr h

/-- A write of one byte keeps the canonical form. -/
theorem memWf_memWrite {d : Byte} {m : NMap Byte} (a : Nat) (v : Byte) (h : memWf d m = true) : memWf d (memWrite d m a v) = true := by
  rw [memWf_iff] at h ⊢
  unfold memWrite
  split
  · exact ⟨nsorted_ndel a h.1, fun e he => h.2 e (mem_of_ndel he)⟩
  · rename_i hv
    refine ⟨nsorted_nset a v h.1, fun e he => ?_⟩
    rcases mem_of_nset he with he | rfl
    · exact h.2 e he
    · exact hv

/-- A write of several bytes keeps the canonical form. -/
theorem memWf_memWrites {d : Byte} {m : NMap Byte} (a : Nat) (l : List Byte) (h : memWf d m = true) :
    memWf d (memWrites d m a l) = true := by
  induction l generalizing m a with
  | nil => exact h
  | cons b r ih => exact ih (a + 1) (memWf_memWrite a b h)

/-- Dropping bytes keeps the canonical form. -/
theorem memWf_filter {d : Byte} {m : NMap Byte} (p : Nat × Byte → Bool) (h : memWf d m = true) : memWf d (m.filter p) = true := by
  rw [memWf_iff] at h ⊢
  exact ⟨nsorted_filter p h.1, fun e he => h.2 e (List.mem_filter.mp he).1⟩

/-- The byte written reads back. -/
theorem memRead_memWrite_same {d : Byte} {m : NMap Byte} (a : Nat) (v : Byte) (h : nsorted none m = true) :
    memRead d (memWrite d m a v) a = v := by
  unfold memRead memWrite
  split
  · rename_i hv; subst hv; simp [ngetD, nget_ndel_same a h]
  · simp [ngetD]

/-- Every other byte reads as before. -/
theorem memRead_memWrite_other {d : Byte} {m : NMap Byte} {a j : Nat} (v : Byte) (hj : j ≠ a) (h : nsorted none m = true) :
    memRead d (memWrite d m a v) j = memRead d m j := by
  unfold memRead memWrite
  split
  · simp [ngetD, nget_ndel_other hj h]
  · simp [ngetD, nget_nset_other m v hj]

/-- A byte outside the bytes written reads as before. -/
theorem memRead_memWrites_outside {d : Byte} {m : NMap Byte} {a j : Nat} (l : List Byte) (hj : j < a ∨ a + l.length ≤ j)
    (h : memWf d m = true) : memRead d (memWrites d m a l) j = memRead d m j := by
  induction l generalizing m a with
  | nil => rfl
  | cons b r ih =>
    simp only [List.length_cons] at hj
    have h' := memWf_memWrite a b h
    unfold memWrites
    rw [ih (by omega) h', memRead_memWrite_other b (by omega) (memWf_iff.mp h).1]

end Sys2Proof.Machine
end

