-- ==== Sys2Proof/Laws/State.lean ====
section
/-! SUPPORT. One law for each field and each update of State: what it leaves, and what it changes. -/

set_option Elab.async false

namespace Sys2Proof.Machine

variable (s : State)

@[simp] theorem updSec_pending (f : Sec → Sec) : (updSec s f).pending = s.pending := rfl
@[simp] theorem updSec_out (f : Sec → Sec) : (updSec s f).out = s.out := rfl
@[simp] theorem updSec_clk (f : Sec → Sec) : (updSec s f).clk = s.clk := rfl
@[simp] theorem updSec_regs (f : Sec → Sec) : (updSec s f).regs = s.regs := rfl
@[simp] theorem updSec_portA (f : Sec → Sec) : (updSec s f).portA = s.portA := rfl
@[simp] theorem updSec_portB (f : Sec → Sec) : (updSec s f).portB = s.portB := rfl
@[simp] theorem updSec_evr (f : Sec → Sec) : (updSec s f).evr = s.evr := rfl
@[simp] theorem updSec_thm (f : Sec → Sec) : (updSec s f).thm = s.thm := rfl
@[simp] theorem updSec_pwr (f : Sec → Sec) : (updSec s f).pwr = s.pwr := rfl
@[simp] theorem updSec_chip (f : Sec → Sec) : (updSec s f).chip = s.chip := rfl
@[simp] theorem updSec_ring (f : Sec → Sec) : (updSec s f).ring = s.ring := rfl
@[simp] theorem updSec_sec (f : Sec → Sec) : (updSec s f).sec = f s.sec := rfl
@[simp] theorem updSec_cry (f : Sec → Sec) : (updSec s f).cry = s.cry := rfl
@[simp] theorem updSec_boot (f : Sec → Sec) : (updSec s f).boot = s.boot := rfl
@[simp] theorem updSec_dram (f : Sec → Sec) : (updSec s f).dram = s.dram := rfl
@[simp] theorem updSec_phc (f : Sec → Sec) : (updSec s f).phc = s.phc := rfl
@[simp] theorem updSec_map (f : Sec → Sec) : (updSec s f).map = s.map := rfl
@[simp] theorem updSec_flash (f : Sec → Sec) : (updSec s f).flash = s.flash := rfl
@[simp] theorem updSec_jrc (f : Sec → Sec) : (updSec s f).jrc = s.jrc := rfl
@[simp] theorem updSec_srt (f : Sec → Sec) : (updSec s f).srt = s.srt := rfl
@[simp] theorem updSec_prog (f : Sec → Sec) : (updSec s f).prog = s.prog := rfl
@[simp] theorem updSec_pat (f : Sec → Sec) : (updSec s f).pat = s.pat := rfl
@[simp] theorem updSec_mem (f : Sec → Sec) : (updSec s f).mem = s.mem := rfl

@[simp] theorem updBoot_pending (f : Boot → Boot) : (updBoot s f).pending = s.pending := rfl
@[simp] theorem updBoot_out (f : Boot → Boot) : (updBoot s f).out = s.out := rfl
@[simp] theorem updBoot_clk (f : Boot → Boot) : (updBoot s f).clk = s.clk := rfl
@[simp] theorem updBoot_regs (f : Boot → Boot) : (updBoot s f).regs = s.regs := rfl
@[simp] theorem updBoot_portA (f : Boot → Boot) : (updBoot s f).portA = s.portA := rfl
@[simp] theorem updBoot_portB (f : Boot → Boot) : (updBoot s f).portB = s.portB := rfl
@[simp] theorem updBoot_evr (f : Boot → Boot) : (updBoot s f).evr = s.evr := rfl
@[simp] theorem updBoot_thm (f : Boot → Boot) : (updBoot s f).thm = s.thm := rfl
@[simp] theorem updBoot_pwr (f : Boot → Boot) : (updBoot s f).pwr = s.pwr := rfl
@[simp] theorem updBoot_chip (f : Boot → Boot) : (updBoot s f).chip = s.chip := rfl
@[simp] theorem updBoot_ring (f : Boot → Boot) : (updBoot s f).ring = s.ring := rfl
@[simp] theorem updBoot_sec (f : Boot → Boot) : (updBoot s f).sec = s.sec := rfl
@[simp] theorem updBoot_cry (f : Boot → Boot) : (updBoot s f).cry = s.cry := rfl
@[simp] theorem updBoot_boot (f : Boot → Boot) : (updBoot s f).boot = f s.boot := rfl
@[simp] theorem updBoot_dram (f : Boot → Boot) : (updBoot s f).dram = s.dram := rfl
@[simp] theorem updBoot_phc (f : Boot → Boot) : (updBoot s f).phc = s.phc := rfl
@[simp] theorem updBoot_map (f : Boot → Boot) : (updBoot s f).map = s.map := rfl
@[simp] theorem updBoot_flash (f : Boot → Boot) : (updBoot s f).flash = s.flash := rfl
@[simp] theorem updBoot_jrc (f : Boot → Boot) : (updBoot s f).jrc = s.jrc := rfl
@[simp] theorem updBoot_srt (f : Boot → Boot) : (updBoot s f).srt = s.srt := rfl
@[simp] theorem updBoot_prog (f : Boot → Boot) : (updBoot s f).prog = s.prog := rfl
@[simp] theorem updBoot_pat (f : Boot → Boot) : (updBoot s f).pat = s.pat := rfl
@[simp] theorem updBoot_mem (f : Boot → Boot) : (updBoot s f).mem = s.mem := rfl

@[simp] theorem updClk_pending (f : Clock → Clock) : (updClk s f).pending = s.pending := rfl
@[simp] theorem updClk_out (f : Clock → Clock) : (updClk s f).out = s.out := rfl
@[simp] theorem updClk_clk (f : Clock → Clock) : (updClk s f).clk = f s.clk := rfl
@[simp] theorem updClk_regs (f : Clock → Clock) : (updClk s f).regs = s.regs := rfl
@[simp] theorem updClk_portA (f : Clock → Clock) : (updClk s f).portA = s.portA := rfl
@[simp] theorem updClk_portB (f : Clock → Clock) : (updClk s f).portB = s.portB := rfl
@[simp] theorem updClk_evr (f : Clock → Clock) : (updClk s f).evr = s.evr := rfl
@[simp] theorem updClk_thm (f : Clock → Clock) : (updClk s f).thm = s.thm := rfl
@[simp] theorem updClk_pwr (f : Clock → Clock) : (updClk s f).pwr = s.pwr := rfl
@[simp] theorem updClk_chip (f : Clock → Clock) : (updClk s f).chip = s.chip := rfl
@[simp] theorem updClk_ring (f : Clock → Clock) : (updClk s f).ring = s.ring := rfl
@[simp] theorem updClk_sec (f : Clock → Clock) : (updClk s f).sec = s.sec := rfl
@[simp] theorem updClk_cry (f : Clock → Clock) : (updClk s f).cry = s.cry := rfl
@[simp] theorem updClk_boot (f : Clock → Clock) : (updClk s f).boot = s.boot := rfl
@[simp] theorem updClk_dram (f : Clock → Clock) : (updClk s f).dram = s.dram := rfl
@[simp] theorem updClk_phc (f : Clock → Clock) : (updClk s f).phc = s.phc := rfl
@[simp] theorem updClk_map (f : Clock → Clock) : (updClk s f).map = s.map := rfl
@[simp] theorem updClk_flash (f : Clock → Clock) : (updClk s f).flash = s.flash := rfl
@[simp] theorem updClk_jrc (f : Clock → Clock) : (updClk s f).jrc = s.jrc := rfl
@[simp] theorem updClk_srt (f : Clock → Clock) : (updClk s f).srt = s.srt := rfl
@[simp] theorem updClk_prog (f : Clock → Clock) : (updClk s f).prog = s.prog := rfl
@[simp] theorem updClk_pat (f : Clock → Clock) : (updClk s f).pat = s.pat := rfl
@[simp] theorem updClk_mem (f : Clock → Clock) : (updClk s f).mem = s.mem := rfl

@[simp] theorem updEvr_pending (f : Evr → Evr) : (updEvr s f).pending = s.pending := rfl
@[simp] theorem updEvr_out (f : Evr → Evr) : (updEvr s f).out = s.out := rfl
@[simp] theorem updEvr_clk (f : Evr → Evr) : (updEvr s f).clk = s.clk := rfl
@[simp] theorem updEvr_regs (f : Evr → Evr) : (updEvr s f).regs = s.regs := rfl
@[simp] theorem updEvr_portA (f : Evr → Evr) : (updEvr s f).portA = s.portA := rfl
@[simp] theorem updEvr_portB (f : Evr → Evr) : (updEvr s f).portB = s.portB := rfl
@[simp] theorem updEvr_evr (f : Evr → Evr) : (updEvr s f).evr = f s.evr := rfl
@[simp] theorem updEvr_thm (f : Evr → Evr) : (updEvr s f).thm = s.thm := rfl
@[simp] theorem updEvr_pwr (f : Evr → Evr) : (updEvr s f).pwr = s.pwr := rfl
@[simp] theorem updEvr_chip (f : Evr → Evr) : (updEvr s f).chip = s.chip := rfl
@[simp] theorem updEvr_ring (f : Evr → Evr) : (updEvr s f).ring = s.ring := rfl
@[simp] theorem updEvr_sec (f : Evr → Evr) : (updEvr s f).sec = s.sec := rfl
@[simp] theorem updEvr_cry (f : Evr → Evr) : (updEvr s f).cry = s.cry := rfl
@[simp] theorem updEvr_boot (f : Evr → Evr) : (updEvr s f).boot = s.boot := rfl
@[simp] theorem updEvr_dram (f : Evr → Evr) : (updEvr s f).dram = s.dram := rfl
@[simp] theorem updEvr_phc (f : Evr → Evr) : (updEvr s f).phc = s.phc := rfl
@[simp] theorem updEvr_map (f : Evr → Evr) : (updEvr s f).map = s.map := rfl
@[simp] theorem updEvr_flash (f : Evr → Evr) : (updEvr s f).flash = s.flash := rfl
@[simp] theorem updEvr_jrc (f : Evr → Evr) : (updEvr s f).jrc = s.jrc := rfl
@[simp] theorem updEvr_srt (f : Evr → Evr) : (updEvr s f).srt = s.srt := rfl
@[simp] theorem updEvr_prog (f : Evr → Evr) : (updEvr s f).prog = s.prog := rfl
@[simp] theorem updEvr_pat (f : Evr → Evr) : (updEvr s f).pat = s.pat := rfl
@[simp] theorem updEvr_mem (f : Evr → Evr) : (updEvr s f).mem = s.mem := rfl

@[simp] theorem updThm_pending (f : Thm → Thm) : (updThm s f).pending = s.pending := rfl
@[simp] theorem updThm_out (f : Thm → Thm) : (updThm s f).out = s.out := rfl
@[simp] theorem updThm_clk (f : Thm → Thm) : (updThm s f).clk = s.clk := rfl
@[simp] theorem updThm_regs (f : Thm → Thm) : (updThm s f).regs = s.regs := rfl
@[simp] theorem updThm_portA (f : Thm → Thm) : (updThm s f).portA = s.portA := rfl
@[simp] theorem updThm_portB (f : Thm → Thm) : (updThm s f).portB = s.portB := rfl
@[simp] theorem updThm_evr (f : Thm → Thm) : (updThm s f).evr = s.evr := rfl
@[simp] theorem updThm_thm (f : Thm → Thm) : (updThm s f).thm = f s.thm := rfl
@[simp] theorem updThm_pwr (f : Thm → Thm) : (updThm s f).pwr = s.pwr := rfl
@[simp] theorem updThm_chip (f : Thm → Thm) : (updThm s f).chip = s.chip := rfl
@[simp] theorem updThm_ring (f : Thm → Thm) : (updThm s f).ring = s.ring := rfl
@[simp] theorem updThm_sec (f : Thm → Thm) : (updThm s f).sec = s.sec := rfl
@[simp] theorem updThm_cry (f : Thm → Thm) : (updThm s f).cry = s.cry := rfl
@[simp] theorem updThm_boot (f : Thm → Thm) : (updThm s f).boot = s.boot := rfl
@[simp] theorem updThm_dram (f : Thm → Thm) : (updThm s f).dram = s.dram := rfl
@[simp] theorem updThm_phc (f : Thm → Thm) : (updThm s f).phc = s.phc := rfl
@[simp] theorem updThm_map (f : Thm → Thm) : (updThm s f).map = s.map := rfl
@[simp] theorem updThm_flash (f : Thm → Thm) : (updThm s f).flash = s.flash := rfl
@[simp] theorem updThm_jrc (f : Thm → Thm) : (updThm s f).jrc = s.jrc := rfl
@[simp] theorem updThm_srt (f : Thm → Thm) : (updThm s f).srt = s.srt := rfl
@[simp] theorem updThm_prog (f : Thm → Thm) : (updThm s f).prog = s.prog := rfl
@[simp] theorem updThm_pat (f : Thm → Thm) : (updThm s f).pat = s.pat := rfl
@[simp] theorem updThm_mem (f : Thm → Thm) : (updThm s f).mem = s.mem := rfl

@[simp] theorem updPwr_pending (f : Pwr → Pwr) : (updPwr s f).pending = s.pending := rfl
@[simp] theorem updPwr_out (f : Pwr → Pwr) : (updPwr s f).out = s.out := rfl
@[simp] theorem updPwr_clk (f : Pwr → Pwr) : (updPwr s f).clk = s.clk := rfl
@[simp] theorem updPwr_regs (f : Pwr → Pwr) : (updPwr s f).regs = s.regs := rfl
@[simp] theorem updPwr_portA (f : Pwr → Pwr) : (updPwr s f).portA = s.portA := rfl
@[simp] theorem updPwr_portB (f : Pwr → Pwr) : (updPwr s f).portB = s.portB := rfl
@[simp] theorem updPwr_evr (f : Pwr → Pwr) : (updPwr s f).evr = s.evr := rfl
@[simp] theorem updPwr_thm (f : Pwr → Pwr) : (updPwr s f).thm = s.thm := rfl
@[simp] theorem updPwr_pwr (f : Pwr → Pwr) : (updPwr s f).pwr = f s.pwr := rfl
@[simp] theorem updPwr_chip (f : Pwr → Pwr) : (updPwr s f).chip = s.chip := rfl
@[simp] theorem updPwr_ring (f : Pwr → Pwr) : (updPwr s f).ring = s.ring := rfl
@[simp] theorem updPwr_sec (f : Pwr → Pwr) : (updPwr s f).sec = s.sec := rfl
@[simp] theorem updPwr_cry (f : Pwr → Pwr) : (updPwr s f).cry = s.cry := rfl
@[simp] theorem updPwr_boot (f : Pwr → Pwr) : (updPwr s f).boot = s.boot := rfl
@[simp] theorem updPwr_dram (f : Pwr → Pwr) : (updPwr s f).dram = s.dram := rfl
@[simp] theorem updPwr_phc (f : Pwr → Pwr) : (updPwr s f).phc = s.phc := rfl
@[simp] theorem updPwr_map (f : Pwr → Pwr) : (updPwr s f).map = s.map := rfl
@[simp] theorem updPwr_flash (f : Pwr → Pwr) : (updPwr s f).flash = s.flash := rfl
@[simp] theorem updPwr_jrc (f : Pwr → Pwr) : (updPwr s f).jrc = s.jrc := rfl
@[simp] theorem updPwr_srt (f : Pwr → Pwr) : (updPwr s f).srt = s.srt := rfl
@[simp] theorem updPwr_prog (f : Pwr → Pwr) : (updPwr s f).prog = s.prog := rfl
@[simp] theorem updPwr_pat (f : Pwr → Pwr) : (updPwr s f).pat = s.pat := rfl
@[simp] theorem updPwr_mem (f : Pwr → Pwr) : (updPwr s f).mem = s.mem := rfl

@[simp] theorem updChip_pending (f : Chip → Chip) : (updChip s f).pending = s.pending := rfl
@[simp] theorem updChip_out (f : Chip → Chip) : (updChip s f).out = s.out := rfl
@[simp] theorem updChip_clk (f : Chip → Chip) : (updChip s f).clk = s.clk := rfl
@[simp] theorem updChip_regs (f : Chip → Chip) : (updChip s f).regs = s.regs := rfl
@[simp] theorem updChip_portA (f : Chip → Chip) : (updChip s f).portA = s.portA := rfl
@[simp] theorem updChip_portB (f : Chip → Chip) : (updChip s f).portB = s.portB := rfl
@[simp] theorem updChip_evr (f : Chip → Chip) : (updChip s f).evr = s.evr := rfl
@[simp] theorem updChip_thm (f : Chip → Chip) : (updChip s f).thm = s.thm := rfl
@[simp] theorem updChip_pwr (f : Chip → Chip) : (updChip s f).pwr = s.pwr := rfl
@[simp] theorem updChip_chip (f : Chip → Chip) : (updChip s f).chip = f s.chip := rfl
@[simp] theorem updChip_ring (f : Chip → Chip) : (updChip s f).ring = s.ring := rfl
@[simp] theorem updChip_sec (f : Chip → Chip) : (updChip s f).sec = s.sec := rfl
@[simp] theorem updChip_cry (f : Chip → Chip) : (updChip s f).cry = s.cry := rfl
@[simp] theorem updChip_boot (f : Chip → Chip) : (updChip s f).boot = s.boot := rfl
@[simp] theorem updChip_dram (f : Chip → Chip) : (updChip s f).dram = s.dram := rfl
@[simp] theorem updChip_phc (f : Chip → Chip) : (updChip s f).phc = s.phc := rfl
@[simp] theorem updChip_map (f : Chip → Chip) : (updChip s f).map = s.map := rfl
@[simp] theorem updChip_flash (f : Chip → Chip) : (updChip s f).flash = s.flash := rfl
@[simp] theorem updChip_jrc (f : Chip → Chip) : (updChip s f).jrc = s.jrc := rfl
@[simp] theorem updChip_srt (f : Chip → Chip) : (updChip s f).srt = s.srt := rfl
@[simp] theorem updChip_prog (f : Chip → Chip) : (updChip s f).prog = s.prog := rfl
@[simp] theorem updChip_pat (f : Chip → Chip) : (updChip s f).pat = s.pat := rfl
@[simp] theorem updChip_mem (f : Chip → Chip) : (updChip s f).mem = s.mem := rfl

@[simp] theorem updRing_pending (f : Ring → Ring) : (updRing s f).pending = s.pending := rfl
@[simp] theorem updRing_out (f : Ring → Ring) : (updRing s f).out = s.out := rfl
@[simp] theorem updRing_clk (f : Ring → Ring) : (updRing s f).clk = s.clk := rfl
@[simp] theorem updRing_regs (f : Ring → Ring) : (updRing s f).regs = s.regs := rfl
@[simp] theorem updRing_portA (f : Ring → Ring) : (updRing s f).portA = s.portA := rfl
@[simp] theorem updRing_portB (f : Ring → Ring) : (updRing s f).portB = s.portB := rfl
@[simp] theorem updRing_evr (f : Ring → Ring) : (updRing s f).evr = s.evr := rfl
@[simp] theorem updRing_thm (f : Ring → Ring) : (updRing s f).thm = s.thm := rfl
@[simp] theorem updRing_pwr (f : Ring → Ring) : (updRing s f).pwr = s.pwr := rfl
@[simp] theorem updRing_chip (f : Ring → Ring) : (updRing s f).chip = s.chip := rfl
@[simp] theorem updRing_ring (f : Ring → Ring) : (updRing s f).ring = f s.ring := rfl
@[simp] theorem updRing_sec (f : Ring → Ring) : (updRing s f).sec = s.sec := rfl
@[simp] theorem updRing_cry (f : Ring → Ring) : (updRing s f).cry = s.cry := rfl
@[simp] theorem updRing_boot (f : Ring → Ring) : (updRing s f).boot = s.boot := rfl
@[simp] theorem updRing_dram (f : Ring → Ring) : (updRing s f).dram = s.dram := rfl
@[simp] theorem updRing_phc (f : Ring → Ring) : (updRing s f).phc = s.phc := rfl
@[simp] theorem updRing_map (f : Ring → Ring) : (updRing s f).map = s.map := rfl
@[simp] theorem updRing_flash (f : Ring → Ring) : (updRing s f).flash = s.flash := rfl
@[simp] theorem updRing_jrc (f : Ring → Ring) : (updRing s f).jrc = s.jrc := rfl
@[simp] theorem updRing_srt (f : Ring → Ring) : (updRing s f).srt = s.srt := rfl
@[simp] theorem updRing_prog (f : Ring → Ring) : (updRing s f).prog = s.prog := rfl
@[simp] theorem updRing_pat (f : Ring → Ring) : (updRing s f).pat = s.pat := rfl
@[simp] theorem updRing_mem (f : Ring → Ring) : (updRing s f).mem = s.mem := rfl

@[simp] theorem updCry_pending (f : Cry → Cry) : (updCry s f).pending = s.pending := rfl
@[simp] theorem updCry_out (f : Cry → Cry) : (updCry s f).out = s.out := rfl
@[simp] theorem updCry_clk (f : Cry → Cry) : (updCry s f).clk = s.clk := rfl
@[simp] theorem updCry_regs (f : Cry → Cry) : (updCry s f).regs = s.regs := rfl
@[simp] theorem updCry_portA (f : Cry → Cry) : (updCry s f).portA = s.portA := rfl
@[simp] theorem updCry_portB (f : Cry → Cry) : (updCry s f).portB = s.portB := rfl
@[simp] theorem updCry_evr (f : Cry → Cry) : (updCry s f).evr = s.evr := rfl
@[simp] theorem updCry_thm (f : Cry → Cry) : (updCry s f).thm = s.thm := rfl
@[simp] theorem updCry_pwr (f : Cry → Cry) : (updCry s f).pwr = s.pwr := rfl
@[simp] theorem updCry_chip (f : Cry → Cry) : (updCry s f).chip = s.chip := rfl
@[simp] theorem updCry_ring (f : Cry → Cry) : (updCry s f).ring = s.ring := rfl
@[simp] theorem updCry_sec (f : Cry → Cry) : (updCry s f).sec = s.sec := rfl
@[simp] theorem updCry_cry (f : Cry → Cry) : (updCry s f).cry = f s.cry := rfl
@[simp] theorem updCry_boot (f : Cry → Cry) : (updCry s f).boot = s.boot := rfl
@[simp] theorem updCry_dram (f : Cry → Cry) : (updCry s f).dram = s.dram := rfl
@[simp] theorem updCry_phc (f : Cry → Cry) : (updCry s f).phc = s.phc := rfl
@[simp] theorem updCry_map (f : Cry → Cry) : (updCry s f).map = s.map := rfl
@[simp] theorem updCry_flash (f : Cry → Cry) : (updCry s f).flash = s.flash := rfl
@[simp] theorem updCry_jrc (f : Cry → Cry) : (updCry s f).jrc = s.jrc := rfl
@[simp] theorem updCry_srt (f : Cry → Cry) : (updCry s f).srt = s.srt := rfl
@[simp] theorem updCry_prog (f : Cry → Cry) : (updCry s f).prog = s.prog := rfl
@[simp] theorem updCry_pat (f : Cry → Cry) : (updCry s f).pat = s.pat := rfl
@[simp] theorem updCry_mem (f : Cry → Cry) : (updCry s f).mem = s.mem := rfl

@[simp] theorem updPhc_pending (f : Phc → Phc) : (updPhc s f).pending = s.pending := rfl
@[simp] theorem updPhc_out (f : Phc → Phc) : (updPhc s f).out = s.out := rfl
@[simp] theorem updPhc_clk (f : Phc → Phc) : (updPhc s f).clk = s.clk := rfl
@[simp] theorem updPhc_regs (f : Phc → Phc) : (updPhc s f).regs = s.regs := rfl
@[simp] theorem updPhc_portA (f : Phc → Phc) : (updPhc s f).portA = s.portA := rfl
@[simp] theorem updPhc_portB (f : Phc → Phc) : (updPhc s f).portB = s.portB := rfl
@[simp] theorem updPhc_evr (f : Phc → Phc) : (updPhc s f).evr = s.evr := rfl
@[simp] theorem updPhc_thm (f : Phc → Phc) : (updPhc s f).thm = s.thm := rfl
@[simp] theorem updPhc_pwr (f : Phc → Phc) : (updPhc s f).pwr = s.pwr := rfl
@[simp] theorem updPhc_chip (f : Phc → Phc) : (updPhc s f).chip = s.chip := rfl
@[simp] theorem updPhc_ring (f : Phc → Phc) : (updPhc s f).ring = s.ring := rfl
@[simp] theorem updPhc_sec (f : Phc → Phc) : (updPhc s f).sec = s.sec := rfl
@[simp] theorem updPhc_cry (f : Phc → Phc) : (updPhc s f).cry = s.cry := rfl
@[simp] theorem updPhc_boot (f : Phc → Phc) : (updPhc s f).boot = s.boot := rfl
@[simp] theorem updPhc_dram (f : Phc → Phc) : (updPhc s f).dram = s.dram := rfl
@[simp] theorem updPhc_phc (f : Phc → Phc) : (updPhc s f).phc = f s.phc := rfl
@[simp] theorem updPhc_map (f : Phc → Phc) : (updPhc s f).map = s.map := rfl
@[simp] theorem updPhc_flash (f : Phc → Phc) : (updPhc s f).flash = s.flash := rfl
@[simp] theorem updPhc_jrc (f : Phc → Phc) : (updPhc s f).jrc = s.jrc := rfl
@[simp] theorem updPhc_srt (f : Phc → Phc) : (updPhc s f).srt = s.srt := rfl
@[simp] theorem updPhc_prog (f : Phc → Phc) : (updPhc s f).prog = s.prog := rfl
@[simp] theorem updPhc_pat (f : Phc → Phc) : (updPhc s f).pat = s.pat := rfl
@[simp] theorem updPhc_mem (f : Phc → Phc) : (updPhc s f).mem = s.mem := rfl

@[simp] theorem updMap_pending (f : MapEng → MapEng) : (updMap s f).pending = s.pending := rfl
@[simp] theorem updMap_out (f : MapEng → MapEng) : (updMap s f).out = s.out := rfl
@[simp] theorem updMap_clk (f : MapEng → MapEng) : (updMap s f).clk = s.clk := rfl
@[simp] theorem updMap_regs (f : MapEng → MapEng) : (updMap s f).regs = s.regs := rfl
@[simp] theorem updMap_portA (f : MapEng → MapEng) : (updMap s f).portA = s.portA := rfl
@[simp] theorem updMap_portB (f : MapEng → MapEng) : (updMap s f).portB = s.portB := rfl
@[simp] theorem updMap_evr (f : MapEng → MapEng) : (updMap s f).evr = s.evr := rfl
@[simp] theorem updMap_thm (f : MapEng → MapEng) : (updMap s f).thm = s.thm := rfl
@[simp] theorem updMap_pwr (f : MapEng → MapEng) : (updMap s f).pwr = s.pwr := rfl
@[simp] theorem updMap_chip (f : MapEng → MapEng) : (updMap s f).chip = s.chip := rfl
@[simp] theorem updMap_ring (f : MapEng → MapEng) : (updMap s f).ring = s.ring := rfl
@[simp] theorem updMap_sec (f : MapEng → MapEng) : (updMap s f).sec = s.sec := rfl
@[simp] theorem updMap_cry (f : MapEng → MapEng) : (updMap s f).cry = s.cry := rfl
@[simp] theorem updMap_boot (f : MapEng → MapEng) : (updMap s f).boot = s.boot := rfl
@[simp] theorem updMap_dram (f : MapEng → MapEng) : (updMap s f).dram = s.dram := rfl
@[simp] theorem updMap_phc (f : MapEng → MapEng) : (updMap s f).phc = s.phc := rfl
@[simp] theorem updMap_map (f : MapEng → MapEng) : (updMap s f).map = f s.map := rfl
@[simp] theorem updMap_flash (f : MapEng → MapEng) : (updMap s f).flash = s.flash := rfl
@[simp] theorem updMap_jrc (f : MapEng → MapEng) : (updMap s f).jrc = s.jrc := rfl
@[simp] theorem updMap_srt (f : MapEng → MapEng) : (updMap s f).srt = s.srt := rfl
@[simp] theorem updMap_prog (f : MapEng → MapEng) : (updMap s f).prog = s.prog := rfl
@[simp] theorem updMap_pat (f : MapEng → MapEng) : (updMap s f).pat = s.pat := rfl
@[simp] theorem updMap_mem (f : MapEng → MapEng) : (updMap s f).mem = s.mem := rfl

@[simp] theorem updFlash_pending (f : Flash → Flash) : (updFlash s f).pending = s.pending := rfl
@[simp] theorem updFlash_out (f : Flash → Flash) : (updFlash s f).out = s.out := rfl
@[simp] theorem updFlash_clk (f : Flash → Flash) : (updFlash s f).clk = s.clk := rfl
@[simp] theorem updFlash_regs (f : Flash → Flash) : (updFlash s f).regs = s.regs := rfl
@[simp] theorem updFlash_portA (f : Flash → Flash) : (updFlash s f).portA = s.portA := rfl
@[simp] theorem updFlash_portB (f : Flash → Flash) : (updFlash s f).portB = s.portB := rfl
@[simp] theorem updFlash_evr (f : Flash → Flash) : (updFlash s f).evr = s.evr := rfl
@[simp] theorem updFlash_thm (f : Flash → Flash) : (updFlash s f).thm = s.thm := rfl
@[simp] theorem updFlash_pwr (f : Flash → Flash) : (updFlash s f).pwr = s.pwr := rfl
@[simp] theorem updFlash_chip (f : Flash → Flash) : (updFlash s f).chip = s.chip := rfl
@[simp] theorem updFlash_ring (f : Flash → Flash) : (updFlash s f).ring = s.ring := rfl
@[simp] theorem updFlash_sec (f : Flash → Flash) : (updFlash s f).sec = s.sec := rfl
@[simp] theorem updFlash_cry (f : Flash → Flash) : (updFlash s f).cry = s.cry := rfl
@[simp] theorem updFlash_boot (f : Flash → Flash) : (updFlash s f).boot = s.boot := rfl
@[simp] theorem updFlash_dram (f : Flash → Flash) : (updFlash s f).dram = s.dram := rfl
@[simp] theorem updFlash_phc (f : Flash → Flash) : (updFlash s f).phc = s.phc := rfl
@[simp] theorem updFlash_map (f : Flash → Flash) : (updFlash s f).map = s.map := rfl
@[simp] theorem updFlash_flash (f : Flash → Flash) : (updFlash s f).flash = f s.flash := rfl
@[simp] theorem updFlash_jrc (f : Flash → Flash) : (updFlash s f).jrc = s.jrc := rfl
@[simp] theorem updFlash_srt (f : Flash → Flash) : (updFlash s f).srt = s.srt := rfl
@[simp] theorem updFlash_prog (f : Flash → Flash) : (updFlash s f).prog = s.prog := rfl
@[simp] theorem updFlash_pat (f : Flash → Flash) : (updFlash s f).pat = s.pat := rfl
@[simp] theorem updFlash_mem (f : Flash → Flash) : (updFlash s f).mem = s.mem := rfl

@[simp] theorem updJrc_pending (f : Jrc → Jrc) : (updJrc s f).pending = s.pending := rfl
@[simp] theorem updJrc_out (f : Jrc → Jrc) : (updJrc s f).out = s.out := rfl
@[simp] theorem updJrc_clk (f : Jrc → Jrc) : (updJrc s f).clk = s.clk := rfl
@[simp] theorem updJrc_regs (f : Jrc → Jrc) : (updJrc s f).regs = s.regs := rfl
@[simp] theorem updJrc_portA (f : Jrc → Jrc) : (updJrc s f).portA = s.portA := rfl
@[simp] theorem updJrc_portB (f : Jrc → Jrc) : (updJrc s f).portB = s.portB := rfl
@[simp] theorem updJrc_evr (f : Jrc → Jrc) : (updJrc s f).evr = s.evr := rfl
@[simp] theorem updJrc_thm (f : Jrc → Jrc) : (updJrc s f).thm = s.thm := rfl
@[simp] theorem updJrc_pwr (f : Jrc → Jrc) : (updJrc s f).pwr = s.pwr := rfl
@[simp] theorem updJrc_chip (f : Jrc → Jrc) : (updJrc s f).chip = s.chip := rfl
@[simp] theorem updJrc_ring (f : Jrc → Jrc) : (updJrc s f).ring = s.ring := rfl
@[simp] theorem updJrc_sec (f : Jrc → Jrc) : (updJrc s f).sec = s.sec := rfl
@[simp] theorem updJrc_cry (f : Jrc → Jrc) : (updJrc s f).cry = s.cry := rfl
@[simp] theorem updJrc_boot (f : Jrc → Jrc) : (updJrc s f).boot = s.boot := rfl
@[simp] theorem updJrc_dram (f : Jrc → Jrc) : (updJrc s f).dram = s.dram := rfl
@[simp] theorem updJrc_phc (f : Jrc → Jrc) : (updJrc s f).phc = s.phc := rfl
@[simp] theorem updJrc_map (f : Jrc → Jrc) : (updJrc s f).map = s.map := rfl
@[simp] theorem updJrc_flash (f : Jrc → Jrc) : (updJrc s f).flash = s.flash := rfl
@[simp] theorem updJrc_jrc (f : Jrc → Jrc) : (updJrc s f).jrc = f s.jrc := rfl
@[simp] theorem updJrc_srt (f : Jrc → Jrc) : (updJrc s f).srt = s.srt := rfl
@[simp] theorem updJrc_prog (f : Jrc → Jrc) : (updJrc s f).prog = s.prog := rfl
@[simp] theorem updJrc_pat (f : Jrc → Jrc) : (updJrc s f).pat = s.pat := rfl
@[simp] theorem updJrc_mem (f : Jrc → Jrc) : (updJrc s f).mem = s.mem := rfl

@[simp] theorem updSrt_pending (f : Srt → Srt) : (updSrt s f).pending = s.pending := rfl
@[simp] theorem updSrt_out (f : Srt → Srt) : (updSrt s f).out = s.out := rfl
@[simp] theorem updSrt_clk (f : Srt → Srt) : (updSrt s f).clk = s.clk := rfl
@[simp] theorem updSrt_regs (f : Srt → Srt) : (updSrt s f).regs = s.regs := rfl
@[simp] theorem updSrt_portA (f : Srt → Srt) : (updSrt s f).portA = s.portA := rfl
@[simp] theorem updSrt_portB (f : Srt → Srt) : (updSrt s f).portB = s.portB := rfl
@[simp] theorem updSrt_evr (f : Srt → Srt) : (updSrt s f).evr = s.evr := rfl
@[simp] theorem updSrt_thm (f : Srt → Srt) : (updSrt s f).thm = s.thm := rfl
@[simp] theorem updSrt_pwr (f : Srt → Srt) : (updSrt s f).pwr = s.pwr := rfl
@[simp] theorem updSrt_chip (f : Srt → Srt) : (updSrt s f).chip = s.chip := rfl
@[simp] theorem updSrt_ring (f : Srt → Srt) : (updSrt s f).ring = s.ring := rfl
@[simp] theorem updSrt_sec (f : Srt → Srt) : (updSrt s f).sec = s.sec := rfl
@[simp] theorem updSrt_cry (f : Srt → Srt) : (updSrt s f).cry = s.cry := rfl
@[simp] theorem updSrt_boot (f : Srt → Srt) : (updSrt s f).boot = s.boot := rfl
@[simp] theorem updSrt_dram (f : Srt → Srt) : (updSrt s f).dram = s.dram := rfl
@[simp] theorem updSrt_phc (f : Srt → Srt) : (updSrt s f).phc = s.phc := rfl
@[simp] theorem updSrt_map (f : Srt → Srt) : (updSrt s f).map = s.map := rfl
@[simp] theorem updSrt_flash (f : Srt → Srt) : (updSrt s f).flash = s.flash := rfl
@[simp] theorem updSrt_jrc (f : Srt → Srt) : (updSrt s f).jrc = s.jrc := rfl
@[simp] theorem updSrt_srt (f : Srt → Srt) : (updSrt s f).srt = f s.srt := rfl
@[simp] theorem updSrt_prog (f : Srt → Srt) : (updSrt s f).prog = s.prog := rfl
@[simp] theorem updSrt_pat (f : Srt → Srt) : (updSrt s f).pat = s.pat := rfl
@[simp] theorem updSrt_mem (f : Srt → Srt) : (updSrt s f).mem = s.mem := rfl

@[simp] theorem updPat_pending (f : Patrol → Patrol) : (updPat s f).pending = s.pending := rfl
@[simp] theorem updPat_out (f : Patrol → Patrol) : (updPat s f).out = s.out := rfl
@[simp] theorem updPat_clk (f : Patrol → Patrol) : (updPat s f).clk = s.clk := rfl
@[simp] theorem updPat_regs (f : Patrol → Patrol) : (updPat s f).regs = s.regs := rfl
@[simp] theorem updPat_portA (f : Patrol → Patrol) : (updPat s f).portA = s.portA := rfl
@[simp] theorem updPat_portB (f : Patrol → Patrol) : (updPat s f).portB = s.portB := rfl
@[simp] theorem updPat_evr (f : Patrol → Patrol) : (updPat s f).evr = s.evr := rfl
@[simp] theorem updPat_thm (f : Patrol → Patrol) : (updPat s f).thm = s.thm := rfl
@[simp] theorem updPat_pwr (f : Patrol → Patrol) : (updPat s f).pwr = s.pwr := rfl
@[simp] theorem updPat_chip (f : Patrol → Patrol) : (updPat s f).chip = s.chip := rfl
@[simp] theorem updPat_ring (f : Patrol → Patrol) : (updPat s f).ring = s.ring := rfl
@[simp] theorem updPat_sec (f : Patrol → Patrol) : (updPat s f).sec = s.sec := rfl
@[simp] theorem updPat_cry (f : Patrol → Patrol) : (updPat s f).cry = s.cry := rfl
@[simp] theorem updPat_boot (f : Patrol → Patrol) : (updPat s f).boot = s.boot := rfl
@[simp] theorem updPat_dram (f : Patrol → Patrol) : (updPat s f).dram = s.dram := rfl
@[simp] theorem updPat_phc (f : Patrol → Patrol) : (updPat s f).phc = s.phc := rfl
@[simp] theorem updPat_map (f : Patrol → Patrol) : (updPat s f).map = s.map := rfl
@[simp] theorem updPat_flash (f : Patrol → Patrol) : (updPat s f).flash = s.flash := rfl
@[simp] theorem updPat_jrc (f : Patrol → Patrol) : (updPat s f).jrc = s.jrc := rfl
@[simp] theorem updPat_srt (f : Patrol → Patrol) : (updPat s f).srt = s.srt := rfl
@[simp] theorem updPat_prog (f : Patrol → Patrol) : (updPat s f).prog = s.prog := rfl
@[simp] theorem updPat_pat (f : Patrol → Patrol) : (updPat s f).pat = f s.pat := rfl
@[simp] theorem updPat_mem (f : Patrol → Patrol) : (updPat s f).mem = s.mem := rfl

@[simp] theorem updMem_pending (f : Mem → Mem) : (updMem s f).pending = s.pending := rfl
@[simp] theorem updMem_out (f : Mem → Mem) : (updMem s f).out = s.out := rfl
@[simp] theorem updMem_clk (f : Mem → Mem) : (updMem s f).clk = s.clk := rfl
@[simp] theorem updMem_regs (f : Mem → Mem) : (updMem s f).regs = s.regs := rfl
@[simp] theorem updMem_portA (f : Mem → Mem) : (updMem s f).portA = s.portA := rfl
@[simp] theorem updMem_portB (f : Mem → Mem) : (updMem s f).portB = s.portB := rfl
@[simp] theorem updMem_evr (f : Mem → Mem) : (updMem s f).evr = s.evr := rfl
@[simp] theorem updMem_thm (f : Mem → Mem) : (updMem s f).thm = s.thm := rfl
@[simp] theorem updMem_pwr (f : Mem → Mem) : (updMem s f).pwr = s.pwr := rfl
@[simp] theorem updMem_chip (f : Mem → Mem) : (updMem s f).chip = s.chip := rfl
@[simp] theorem updMem_ring (f : Mem → Mem) : (updMem s f).ring = s.ring := rfl
@[simp] theorem updMem_sec (f : Mem → Mem) : (updMem s f).sec = s.sec := rfl
@[simp] theorem updMem_cry (f : Mem → Mem) : (updMem s f).cry = s.cry := rfl
@[simp] theorem updMem_boot (f : Mem → Mem) : (updMem s f).boot = s.boot := rfl
@[simp] theorem updMem_dram (f : Mem → Mem) : (updMem s f).dram = s.dram := rfl
@[simp] theorem updMem_phc (f : Mem → Mem) : (updMem s f).phc = s.phc := rfl
@[simp] theorem updMem_map (f : Mem → Mem) : (updMem s f).map = s.map := rfl
@[simp] theorem updMem_flash (f : Mem → Mem) : (updMem s f).flash = s.flash := rfl
@[simp] theorem updMem_jrc (f : Mem → Mem) : (updMem s f).jrc = s.jrc := rfl
@[simp] theorem updMem_srt (f : Mem → Mem) : (updMem s f).srt = s.srt := rfl
@[simp] theorem updMem_prog (f : Mem → Mem) : (updMem s f).prog = s.prog := rfl
@[simp] theorem updMem_pat (f : Mem → Mem) : (updMem s f).pat = s.pat := rfl
@[simp] theorem updMem_mem (f : Mem → Mem) : (updMem s f).mem = f s.mem := rfl

@[simp] theorem updTab_pending (f : MapTab → MapTab) : (updTab s f).pending = s.pending := rfl
@[simp] theorem updTab_out (f : MapTab → MapTab) : (updTab s f).out = s.out := rfl
@[simp] theorem updTab_clk (f : MapTab → MapTab) : (updTab s f).clk = s.clk := rfl
@[simp] theorem updTab_regs (f : MapTab → MapTab) : (updTab s f).regs = s.regs := rfl
@[simp] theorem updTab_portA (f : MapTab → MapTab) : (updTab s f).portA = s.portA := rfl
@[simp] theorem updTab_portB (f : MapTab → MapTab) : (updTab s f).portB = s.portB := rfl
@[simp] theorem updTab_evr (f : MapTab → MapTab) : (updTab s f).evr = s.evr := rfl
@[simp] theorem updTab_thm (f : MapTab → MapTab) : (updTab s f).thm = s.thm := rfl
@[simp] theorem updTab_pwr (f : MapTab → MapTab) : (updTab s f).pwr = s.pwr := rfl
@[simp] theorem updTab_chip (f : MapTab → MapTab) : (updTab s f).chip = s.chip := rfl
@[simp] theorem updTab_ring (f : MapTab → MapTab) : (updTab s f).ring = s.ring := rfl
@[simp] theorem updTab_sec (f : MapTab → MapTab) : (updTab s f).sec = s.sec := rfl
@[simp] theorem updTab_cry (f : MapTab → MapTab) : (updTab s f).cry = s.cry := rfl
@[simp] theorem updTab_boot (f : MapTab → MapTab) : (updTab s f).boot = s.boot := rfl
@[simp] theorem updTab_dram (f : MapTab → MapTab) : (updTab s f).dram = s.dram := rfl
@[simp] theorem updTab_phc (f : MapTab → MapTab) : (updTab s f).phc = s.phc := rfl
@[simp] theorem updTab_flash (f : MapTab → MapTab) : (updTab s f).flash = s.flash := rfl
@[simp] theorem updTab_jrc (f : MapTab → MapTab) : (updTab s f).jrc = s.jrc := rfl
@[simp] theorem updTab_srt (f : MapTab → MapTab) : (updTab s f).srt = s.srt := rfl
@[simp] theorem updTab_prog (f : MapTab → MapTab) : (updTab s f).prog = s.prog := rfl
@[simp] theorem updTab_pat (f : MapTab → MapTab) : (updTab s f).pat = s.pat := rfl
@[simp] theorem updTab_mem (f : MapTab → MapTab) : (updTab s f).mem = s.mem := rfl
@[simp] theorem updTab_map (f : MapTab → MapTab) : (updTab s f).map = { s.map with tab := f s.map.tab } := rfl

@[simp] theorem wr_pending (a v : Nat) : (wr s a v).pending = s.pending := rfl
@[simp] theorem wr_out (a v : Nat) : (wr s a v).out = s.out := rfl
@[simp] theorem wr_clk (a v : Nat) : (wr s a v).clk = s.clk := rfl
@[simp] theorem wr_portA (a v : Nat) : (wr s a v).portA = s.portA := rfl
@[simp] theorem wr_portB (a v : Nat) : (wr s a v).portB = s.portB := rfl
@[simp] theorem wr_evr (a v : Nat) : (wr s a v).evr = s.evr := rfl
@[simp] theorem wr_thm (a v : Nat) : (wr s a v).thm = s.thm := rfl
@[simp] theorem wr_pwr (a v : Nat) : (wr s a v).pwr = s.pwr := rfl
@[simp] theorem wr_chip (a v : Nat) : (wr s a v).chip = s.chip := rfl
@[simp] theorem wr_ring (a v : Nat) : (wr s a v).ring = s.ring := rfl
@[simp] theorem wr_sec (a v : Nat) : (wr s a v).sec = s.sec := rfl
@[simp] theorem wr_cry (a v : Nat) : (wr s a v).cry = s.cry := rfl
@[simp] theorem wr_boot (a v : Nat) : (wr s a v).boot = s.boot := rfl
@[simp] theorem wr_dram (a v : Nat) : (wr s a v).dram = s.dram := rfl
@[simp] theorem wr_phc (a v : Nat) : (wr s a v).phc = s.phc := rfl
@[simp] theorem wr_map (a v : Nat) : (wr s a v).map = s.map := rfl
@[simp] theorem wr_flash (a v : Nat) : (wr s a v).flash = s.flash := rfl
@[simp] theorem wr_jrc (a v : Nat) : (wr s a v).jrc = s.jrc := rfl
@[simp] theorem wr_srt (a v : Nat) : (wr s a v).srt = s.srt := rfl
@[simp] theorem wr_prog (a v : Nat) : (wr s a v).prog = s.prog := rfl
@[simp] theorem wr_pat (a v : Nat) : (wr s a v).pat = s.pat := rfl
@[simp] theorem wr_mem (a v : Nat) : (wr s a v).mem = s.mem := rfl
@[simp] theorem wr_regs (a v : Nat) : (wr s a v).regs = nset s.regs a (BitVec.ofNat 64 v) := rfl

@[simp] theorem setPort_pending (p : Port) (x : PortSt) : (setPort s p x).pending = s.pending := by cases p <;> rfl
@[simp] theorem modPort_pending (p : Port) (f : PortSt → PortSt) : (modPort s p f).pending = s.pending := by cases p <;> rfl
@[simp] theorem setPort_out (p : Port) (x : PortSt) : (setPort s p x).out = s.out := by cases p <;> rfl
@[simp] theorem modPort_out (p : Port) (f : PortSt → PortSt) : (modPort s p f).out = s.out := by cases p <;> rfl
@[simp] theorem setPort_clk (p : Port) (x : PortSt) : (setPort s p x).clk = s.clk := by cases p <;> rfl
@[simp] theorem modPort_clk (p : Port) (f : PortSt → PortSt) : (modPort s p f).clk = s.clk := by cases p <;> rfl
@[simp] theorem setPort_regs (p : Port) (x : PortSt) : (setPort s p x).regs = s.regs := by cases p <;> rfl
@[simp] theorem modPort_regs (p : Port) (f : PortSt → PortSt) : (modPort s p f).regs = s.regs := by cases p <;> rfl
@[simp] theorem setPort_evr (p : Port) (x : PortSt) : (setPort s p x).evr = s.evr := by cases p <;> rfl
@[simp] theorem modPort_evr (p : Port) (f : PortSt → PortSt) : (modPort s p f).evr = s.evr := by cases p <;> rfl
@[simp] theorem setPort_thm (p : Port) (x : PortSt) : (setPort s p x).thm = s.thm := by cases p <;> rfl
@[simp] theorem modPort_thm (p : Port) (f : PortSt → PortSt) : (modPort s p f).thm = s.thm := by cases p <;> rfl
@[simp] theorem setPort_pwr (p : Port) (x : PortSt) : (setPort s p x).pwr = s.pwr := by cases p <;> rfl
@[simp] theorem modPort_pwr (p : Port) (f : PortSt → PortSt) : (modPort s p f).pwr = s.pwr := by cases p <;> rfl
@[simp] theorem setPort_chip (p : Port) (x : PortSt) : (setPort s p x).chip = s.chip := by cases p <;> rfl
@[simp] theorem modPort_chip (p : Port) (f : PortSt → PortSt) : (modPort s p f).chip = s.chip := by cases p <;> rfl
@[simp] theorem setPort_ring (p : Port) (x : PortSt) : (setPort s p x).ring = s.ring := by cases p <;> rfl
@[simp] theorem modPort_ring (p : Port) (f : PortSt → PortSt) : (modPort s p f).ring = s.ring := by cases p <;> rfl
@[simp] theorem setPort_sec (p : Port) (x : PortSt) : (setPort s p x).sec = s.sec := by cases p <;> rfl
@[simp] theorem modPort_sec (p : Port) (f : PortSt → PortSt) : (modPort s p f).sec = s.sec := by cases p <;> rfl
@[simp] theorem setPort_cry (p : Port) (x : PortSt) : (setPort s p x).cry = s.cry := by cases p <;> rfl
@[simp] theorem modPort_cry (p : Port) (f : PortSt → PortSt) : (modPort s p f).cry = s.cry := by cases p <;> rfl
@[simp] theorem setPort_boot (p : Port) (x : PortSt) : (setPort s p x).boot = s.boot := by cases p <;> rfl
@[simp] theorem modPort_boot (p : Port) (f : PortSt → PortSt) : (modPort s p f).boot = s.boot := by cases p <;> rfl
@[simp] theorem setPort_dram (p : Port) (x : PortSt) : (setPort s p x).dram = s.dram := by cases p <;> rfl
@[simp] theorem modPort_dram (p : Port) (f : PortSt → PortSt) : (modPort s p f).dram = s.dram := by cases p <;> rfl
@[simp] theorem setPort_phc (p : Port) (x : PortSt) : (setPort s p x).phc = s.phc := by cases p <;> rfl
@[simp] theorem modPort_phc (p : Port) (f : PortSt → PortSt) : (modPort s p f).phc = s.phc := by cases p <;> rfl
@[simp] theorem setPort_map (p : Port) (x : PortSt) : (setPort s p x).map = s.map := by cases p <;> rfl
@[simp] theorem modPort_map (p : Port) (f : PortSt → PortSt) : (modPort s p f).map = s.map := by cases p <;> rfl
@[simp] theorem setPort_flash (p : Port) (x : PortSt) : (setPort s p x).flash = s.flash := by cases p <;> rfl
@[simp] theorem modPort_flash (p : Port) (f : PortSt → PortSt) : (modPort s p f).flash = s.flash := by cases p <;> rfl
@[simp] theorem setPort_jrc (p : Port) (x : PortSt) : (setPort s p x).jrc = s.jrc := by cases p <;> rfl
@[simp] theorem modPort_jrc (p : Port) (f : PortSt → PortSt) : (modPort s p f).jrc = s.jrc := by cases p <;> rfl
@[simp] theorem setPort_srt (p : Port) (x : PortSt) : (setPort s p x).srt = s.srt := by cases p <;> rfl
@[simp] theorem modPort_srt (p : Port) (f : PortSt → PortSt) : (modPort s p f).srt = s.srt := by cases p <;> rfl
@[simp] theorem setPort_prog (p : Port) (x : PortSt) : (setPort s p x).prog = s.prog := by cases p <;> rfl
@[simp] theorem modPort_prog (p : Port) (f : PortSt → PortSt) : (modPort s p f).prog = s.prog := by cases p <;> rfl
@[simp] theorem setPort_pat (p : Port) (x : PortSt) : (setPort s p x).pat = s.pat := by cases p <;> rfl
@[simp] theorem modPort_pat (p : Port) (f : PortSt → PortSt) : (modPort s p f).pat = s.pat := by cases p <;> rfl
@[simp] theorem setPort_mem (p : Port) (x : PortSt) : (setPort s p x).mem = s.mem := by cases p <;> rfl
@[simp] theorem modPort_mem (p : Port) (f : PortSt → PortSt) : (modPort s p f).mem = s.mem := by cases p <;> rfl

/-! ## The ports -/

@[simp] theorem getPort_setPort (p : Port) (x : PortSt) : getPort (setPort s p x) p = x := by cases p <;> rfl
theorem getPort_setPort_other {p q : Port} (x : PortSt) (h : q ≠ p) : getPort (setPort s p x) q = getPort s q := by
  cases p <;> cases q <;> first | rfl | exact absurd rfl h
@[simp] theorem getPort_modPort (p : Port) (f : PortSt → PortSt) : getPort (modPort s p f) p = f (getPort s p) := by cases p <;> rfl
theorem getPort_modPort_other {p q : Port} (f : PortSt → PortSt) (h : q ≠ p) : getPort (modPort s p f) q = getPort s q := by
  cases p <;> cases q <;> first | rfl | exact absurd rfl h
@[simp] theorem getPort_wr (a v : Nat) (p : Port) : getPort (wr s a v) p = getPort s p := by cases p <;> rfl

/-! ## Registers -/

theorem rd_wr_same (a v : Nat) : rd (wr s a v) a = v % 2 ^ 64 := by simp [rd]
theorem rd_wr_other {a b : Nat} (v : Nat) (h : b ≠ a) : rd (wr s a v) b = rd s b := by simp [rd, nget_nset_other _ _ h]

@[simp] theorem rd_updSec (f : Sec → Sec) (a : Nat) : rd (updSec s f) a = rd s a := rfl
@[simp] theorem getPort_updSec (f : Sec → Sec) (p : Port) : getPort (updSec s f) p = getPort s p := by cases p <;> rfl
@[simp] theorem rd_updBoot (f : Boot → Boot) (a : Nat) : rd (updBoot s f) a = rd s a := rfl
@[simp] theorem getPort_updBoot (f : Boot → Boot) (p : Port) : getPort (updBoot s f) p = getPort s p := by cases p <;> rfl
@[simp] theorem rd_updClk (f : Clock → Clock) (a : Nat) : rd (updClk s f) a = rd s a := rfl
@[simp] theorem getPort_updClk (f : Clock → Clock) (p : Port) : getPort (updClk s f) p = getPort s p := by cases p <;> rfl
@[simp] theorem rd_updEvr (f : Evr → Evr) (a : Nat) : rd (updEvr s f) a = rd s a := rfl
@[simp] theorem getPort_updEvr (f : Evr → Evr) (p : Port) : getPort (updEvr s f) p = getPort s p := by cases p <;> rfl
@[simp] theorem rd_updThm (f : Thm → Thm) (a : Nat) : rd (updThm s f) a = rd s a := rfl
@[simp] theorem getPort_updThm (f : Thm → Thm) (p : Port) : getPort (updThm s f) p = getPort s p := by cases p <;> rfl
@[simp] theorem rd_updPwr (f : Pwr → Pwr) (a : Nat) : rd (updPwr s f) a = rd s a := rfl
@[simp] theorem getPort_updPwr (f : Pwr → Pwr) (p : Port) : getPort (updPwr s f) p = getPort s p := by cases p <;> rfl
@[simp] theorem rd_updChip (f : Chip → Chip) (a : Nat) : rd (updChip s f) a = rd s a := rfl
@[simp] theorem getPort_updChip (f : Chip → Chip) (p : Port) : getPort (updChip s f) p = getPort s p := by cases p <;> rfl
@[simp] theorem rd_updRing (f : Ring → Ring) (a : Nat) : rd (updRing s f) a = rd s a := rfl
@[simp] theorem getPort_updRing (f : Ring → Ring) (p : Port) : getPort (updRing s f) p = getPort s p := by cases p <;> rfl
@[simp] theorem rd_updCry (f : Cry → Cry) (a : Nat) : rd (updCry s f) a = rd s a := rfl
@[simp] theorem getPort_updCry (f : Cry → Cry) (p : Port) : getPort (updCry s f) p = getPort s p := by cases p <;> rfl
@[simp] theorem rd_updPhc (f : Phc → Phc) (a : Nat) : rd (updPhc s f) a = rd s a := rfl
@[simp] theorem getPort_updPhc (f : Phc → Phc) (p : Port) : getPort (updPhc s f) p = getPort s p := by cases p <;> rfl
@[simp] theorem rd_updMap (f : MapEng → MapEng) (a : Nat) : rd (updMap s f) a = rd s a := rfl
@[simp] theorem getPort_updMap (f : MapEng → MapEng) (p : Port) : getPort (updMap s f) p = getPort s p := by cases p <;> rfl
@[simp] theorem rd_updFlash (f : Flash → Flash) (a : Nat) : rd (updFlash s f) a = rd s a := rfl
@[simp] theorem getPort_updFlash (f : Flash → Flash) (p : Port) : getPort (updFlash s f) p = getPort s p := by cases p <;> rfl
@[simp] theorem rd_updJrc (f : Jrc → Jrc) (a : Nat) : rd (updJrc s f) a = rd s a := rfl
@[simp] theorem getPort_updJrc (f : Jrc → Jrc) (p : Port) : getPort (updJrc s f) p = getPort s p := by cases p <;> rfl
@[simp] theorem rd_updSrt (f : Srt → Srt) (a : Nat) : rd (updSrt s f) a = rd s a := rfl
@[simp] theorem getPort_updSrt (f : Srt → Srt) (p : Port) : getPort (updSrt s f) p = getPort s p := by cases p <;> rfl
@[simp] theorem rd_updPat (f : Patrol → Patrol) (a : Nat) : rd (updPat s f) a = rd s a := rfl
@[simp] theorem getPort_updPat (f : Patrol → Patrol) (p : Port) : getPort (updPat s f) p = getPort s p := by cases p <;> rfl
@[simp] theorem rd_updMem (f : Mem → Mem) (a : Nat) : rd (updMem s f) a = rd s a := rfl
@[simp] theorem getPort_updMem (f : Mem → Mem) (p : Port) : getPort (updMem s f) p = getPort s p := by cases p <;> rfl
@[simp] theorem rd_updTab (f : MapTab → MapTab) (a : Nat) : rd (updTab s f) a = rd s a := rfl
@[simp] theorem getPort_updTab (f : MapTab → MapTab) (p : Port) : getPort (updTab s f) p = getPort s p := by cases p <;> rfl
@[simp] theorem rd_setPort (p : Port) (x : PortSt) (a : Nat) : rd (setPort s p x) a = rd s a := by cases p <;> rfl
@[simp] theorem rd_modPort (p : Port) (f : PortSt → PortSt) (a : Nat) : rd (modPort s p f) a = rd s a := by cases p <;> rfl

end Sys2Proof.Machine
end

