-- ==== Sys2Proof/Laws/Signals.lean ====
section
/-! SUPPORT. What the signalling operations leave alone, field by field (from the laws of Laws/Frame), and the registers that a
 raise leaves as they are. -/

set_option Elab.async false

namespace Sys2Proof.Machine

variable (s : State)

@[simp] theorem orReg_pending (a : Nat) (m : Nat) : (orReg s a m).pending = s.pending :=
  (orReg_frame (F := [.regs]) (OnlyChanges.refl _ s) (by decide)).same .pending (by decide)
@[simp] theorem orReg_out (a : Nat) (m : Nat) : (orReg s a m).out = s.out :=
  (orReg_frame (F := [.regs]) (OnlyChanges.refl _ s) (by decide)).same .out (by decide)
@[simp] theorem orReg_clk (a : Nat) (m : Nat) : (orReg s a m).clk = s.clk :=
  (orReg_frame (F := [.regs]) (OnlyChanges.refl _ s) (by decide)).same .clk (by decide)
@[simp] theorem orReg_portA (a : Nat) (m : Nat) : (orReg s a m).portA = s.portA :=
  (orReg_frame (F := [.regs]) (OnlyChanges.refl _ s) (by decide)).same .portA (by decide)
@[simp] theorem orReg_portB (a : Nat) (m : Nat) : (orReg s a m).portB = s.portB :=
  (orReg_frame (F := [.regs]) (OnlyChanges.refl _ s) (by decide)).same .portB (by decide)
@[simp] theorem orReg_evr (a : Nat) (m : Nat) : (orReg s a m).evr = s.evr :=
  (orReg_frame (F := [.regs]) (OnlyChanges.refl _ s) (by decide)).same .evr (by decide)
@[simp] theorem orReg_thm (a : Nat) (m : Nat) : (orReg s a m).thm = s.thm :=
  (orReg_frame (F := [.regs]) (OnlyChanges.refl _ s) (by decide)).same .thm (by decide)
@[simp] theorem orReg_pwr (a : Nat) (m : Nat) : (orReg s a m).pwr = s.pwr :=
  (orReg_frame (F := [.regs]) (OnlyChanges.refl _ s) (by decide)).same .pwr (by decide)
@[simp] theorem orReg_chip (a : Nat) (m : Nat) : (orReg s a m).chip = s.chip :=
  (orReg_frame (F := [.regs]) (OnlyChanges.refl _ s) (by decide)).same .chip (by decide)
@[simp] theorem orReg_ring (a : Nat) (m : Nat) : (orReg s a m).ring = s.ring :=
  (orReg_frame (F := [.regs]) (OnlyChanges.refl _ s) (by decide)).same .ring (by decide)
@[simp] theorem orReg_sec (a : Nat) (m : Nat) : (orReg s a m).sec = s.sec :=
  (orReg_frame (F := [.regs]) (OnlyChanges.refl _ s) (by decide)).same .sec (by decide)
@[simp] theorem orReg_cry (a : Nat) (m : Nat) : (orReg s a m).cry = s.cry :=
  (orReg_frame (F := [.regs]) (OnlyChanges.refl _ s) (by decide)).same .cry (by decide)
@[simp] theorem orReg_boot (a : Nat) (m : Nat) : (orReg s a m).boot = s.boot :=
  (orReg_frame (F := [.regs]) (OnlyChanges.refl _ s) (by decide)).same .boot (by decide)
@[simp] theorem orReg_dram (a : Nat) (m : Nat) : (orReg s a m).dram = s.dram :=
  (orReg_frame (F := [.regs]) (OnlyChanges.refl _ s) (by decide)).same .dram (by decide)
@[simp] theorem orReg_phc (a : Nat) (m : Nat) : (orReg s a m).phc = s.phc :=
  (orReg_frame (F := [.regs]) (OnlyChanges.refl _ s) (by decide)).same .phc (by decide)
@[simp] theorem orReg_map (a : Nat) (m : Nat) : (orReg s a m).map = s.map :=
  (orReg_frame (F := [.regs]) (OnlyChanges.refl _ s) (by decide)).same .map (by decide)
@[simp] theorem orReg_flash (a : Nat) (m : Nat) : (orReg s a m).flash = s.flash :=
  (orReg_frame (F := [.regs]) (OnlyChanges.refl _ s) (by decide)).same .flash (by decide)
@[simp] theorem orReg_jrc (a : Nat) (m : Nat) : (orReg s a m).jrc = s.jrc :=
  (orReg_frame (F := [.regs]) (OnlyChanges.refl _ s) (by decide)).same .jrc (by decide)
@[simp] theorem orReg_srt (a : Nat) (m : Nat) : (orReg s a m).srt = s.srt :=
  (orReg_frame (F := [.regs]) (OnlyChanges.refl _ s) (by decide)).same .srt (by decide)
@[simp] theorem orReg_prog (a : Nat) (m : Nat) : (orReg s a m).prog = s.prog :=
  (orReg_frame (F := [.regs]) (OnlyChanges.refl _ s) (by decide)).same .prog (by decide)
@[simp] theorem orReg_pat (a : Nat) (m : Nat) : (orReg s a m).pat = s.pat :=
  (orReg_frame (F := [.regs]) (OnlyChanges.refl _ s) (by decide)).same .pat (by decide)
@[simp] theorem orReg_mem (a : Nat) (m : Nat) : (orReg s a m).mem = s.mem :=
  (orReg_frame (F := [.regs]) (OnlyChanges.refl _ s) (by decide)).same .mem (by decide)

@[simp] theorem wrField_pending (a : Nat) (hi : Nat) (lo : Nat) (v : Nat) : (wrField s a hi lo v).pending = s.pending :=
  (wrField_frame (F := [.regs]) (OnlyChanges.refl _ s) (by decide)).same .pending (by decide)
@[simp] theorem wrField_out (a : Nat) (hi : Nat) (lo : Nat) (v : Nat) : (wrField s a hi lo v).out = s.out :=
  (wrField_frame (F := [.regs]) (OnlyChanges.refl _ s) (by decide)).same .out (by decide)
@[simp] theorem wrField_clk (a : Nat) (hi : Nat) (lo : Nat) (v : Nat) : (wrField s a hi lo v).clk = s.clk :=
  (wrField_frame (F := [.regs]) (OnlyChanges.refl _ s) (by decide)).same .clk (by decide)
@[simp] theorem wrField_portA (a : Nat) (hi : Nat) (lo : Nat) (v : Nat) : (wrField s a hi lo v).portA = s.portA :=
  (wrField_frame (F := [.regs]) (OnlyChanges.refl _ s) (by decide)).same .portA (by decide)
@[simp] theorem wrField_portB (a : Nat) (hi : Nat) (lo : Nat) (v : Nat) : (wrField s a hi lo v).portB = s.portB :=
  (wrField_frame (F := [.regs]) (OnlyChanges.refl _ s) (by decide)).same .portB (by decide)
@[simp] theorem wrField_evr (a : Nat) (hi : Nat) (lo : Nat) (v : Nat) : (wrField s a hi lo v).evr = s.evr :=
  (wrField_frame (F := [.regs]) (OnlyChanges.refl _ s) (by decide)).same .evr (by decide)
@[simp] theorem wrField_thm (a : Nat) (hi : Nat) (lo : Nat) (v : Nat) : (wrField s a hi lo v).thm = s.thm :=
  (wrField_frame (F := [.regs]) (OnlyChanges.refl _ s) (by decide)).same .thm (by decide)
@[simp] theorem wrField_pwr (a : Nat) (hi : Nat) (lo : Nat) (v : Nat) : (wrField s a hi lo v).pwr = s.pwr :=
  (wrField_frame (F := [.regs]) (OnlyChanges.refl _ s) (by decide)).same .pwr (by decide)
@[simp] theorem wrField_chip (a : Nat) (hi : Nat) (lo : Nat) (v : Nat) : (wrField s a hi lo v).chip = s.chip :=
  (wrField_frame (F := [.regs]) (OnlyChanges.refl _ s) (by decide)).same .chip (by decide)
@[simp] theorem wrField_ring (a : Nat) (hi : Nat) (lo : Nat) (v : Nat) : (wrField s a hi lo v).ring = s.ring :=
  (wrField_frame (F := [.regs]) (OnlyChanges.refl _ s) (by decide)).same .ring (by decide)
@[simp] theorem wrField_sec (a : Nat) (hi : Nat) (lo : Nat) (v : Nat) : (wrField s a hi lo v).sec = s.sec :=
  (wrField_frame (F := [.regs]) (OnlyChanges.refl _ s) (by decide)).same .sec (by decide)
@[simp] theorem wrField_cry (a : Nat) (hi : Nat) (lo : Nat) (v : Nat) : (wrField s a hi lo v).cry = s.cry :=
  (wrField_frame (F := [.regs]) (OnlyChanges.refl _ s) (by decide)).same .cry (by decide)
@[simp] theorem wrField_boot (a : Nat) (hi : Nat) (lo : Nat) (v : Nat) : (wrField s a hi lo v).boot = s.boot :=
  (wrField_frame (F := [.regs]) (OnlyChanges.refl _ s) (by decide)).same .boot (by decide)
@[simp] theorem wrField_dram (a : Nat) (hi : Nat) (lo : Nat) (v : Nat) : (wrField s a hi lo v).dram = s.dram :=
  (wrField_frame (F := [.regs]) (OnlyChanges.refl _ s) (by decide)).same .dram (by decide)
@[simp] theorem wrField_phc (a : Nat) (hi : Nat) (lo : Nat) (v : Nat) : (wrField s a hi lo v).phc = s.phc :=
  (wrField_frame (F := [.regs]) (OnlyChanges.refl _ s) (by decide)).same .phc (by decide)
@[simp] theorem wrField_map (a : Nat) (hi : Nat) (lo : Nat) (v : Nat) : (wrField s a hi lo v).map = s.map :=
  (wrField_frame (F := [.regs]) (OnlyChanges.refl _ s) (by decide)).same .map (by decide)
@[simp] theorem wrField_flash (a : Nat) (hi : Nat) (lo : Nat) (v : Nat) : (wrField s a hi lo v).flash = s.flash :=
  (wrField_frame (F := [.regs]) (OnlyChanges.refl _ s) (by decide)).same .flash (by decide)
@[simp] theorem wrField_jrc (a : Nat) (hi : Nat) (lo : Nat) (v : Nat) : (wrField s a hi lo v).jrc = s.jrc :=
  (wrField_frame (F := [.regs]) (OnlyChanges.refl _ s) (by decide)).same .jrc (by decide)
@[simp] theorem wrField_srt (a : Nat) (hi : Nat) (lo : Nat) (v : Nat) : (wrField s a hi lo v).srt = s.srt :=
  (wrField_frame (F := [.regs]) (OnlyChanges.refl _ s) (by decide)).same .srt (by decide)
@[simp] theorem wrField_prog (a : Nat) (hi : Nat) (lo : Nat) (v : Nat) : (wrField s a hi lo v).prog = s.prog :=
  (wrField_frame (F := [.regs]) (OnlyChanges.refl _ s) (by decide)).same .prog (by decide)
@[simp] theorem wrField_pat (a : Nat) (hi : Nat) (lo : Nat) (v : Nat) : (wrField s a hi lo v).pat = s.pat :=
  (wrField_frame (F := [.regs]) (OnlyChanges.refl _ s) (by decide)).same .pat (by decide)
@[simp] theorem wrField_mem (a : Nat) (hi : Nat) (lo : Nat) (v : Nat) : (wrField s a hi lo v).mem = s.mem :=
  (wrField_frame (F := [.regs]) (OnlyChanges.refl _ s) (by decide)).same .mem (by decide)

@[simp] theorem satAdd_pending (a : Nat) (hi : Nat) (lo : Nat) (n : Nat) : (satAdd s a hi lo n).pending = s.pending :=
  (satAdd_frame (F := [.regs]) (OnlyChanges.refl _ s) (by decide)).same .pending (by decide)
@[simp] theorem satAdd_out (a : Nat) (hi : Nat) (lo : Nat) (n : Nat) : (satAdd s a hi lo n).out = s.out :=
  (satAdd_frame (F := [.regs]) (OnlyChanges.refl _ s) (by decide)).same .out (by decide)
@[simp] theorem satAdd_clk (a : Nat) (hi : Nat) (lo : Nat) (n : Nat) : (satAdd s a hi lo n).clk = s.clk :=
  (satAdd_frame (F := [.regs]) (OnlyChanges.refl _ s) (by decide)).same .clk (by decide)
@[simp] theorem satAdd_portA (a : Nat) (hi : Nat) (lo : Nat) (n : Nat) : (satAdd s a hi lo n).portA = s.portA :=
  (satAdd_frame (F := [.regs]) (OnlyChanges.refl _ s) (by decide)).same .portA (by decide)
@[simp] theorem satAdd_portB (a : Nat) (hi : Nat) (lo : Nat) (n : Nat) : (satAdd s a hi lo n).portB = s.portB :=
  (satAdd_frame (F := [.regs]) (OnlyChanges.refl _ s) (by decide)).same .portB (by decide)
@[simp] theorem satAdd_evr (a : Nat) (hi : Nat) (lo : Nat) (n : Nat) : (satAdd s a hi lo n).evr = s.evr :=
  (satAdd_frame (F := [.regs]) (OnlyChanges.refl _ s) (by decide)).same .evr (by decide)
@[simp] theorem satAdd_thm (a : Nat) (hi : Nat) (lo : Nat) (n : Nat) : (satAdd s a hi lo n).thm = s.thm :=
  (satAdd_frame (F := [.regs]) (OnlyChanges.refl _ s) (by decide)).same .thm (by decide)
@[simp] theorem satAdd_pwr (a : Nat) (hi : Nat) (lo : Nat) (n : Nat) : (satAdd s a hi lo n).pwr = s.pwr :=
  (satAdd_frame (F := [.regs]) (OnlyChanges.refl _ s) (by decide)).same .pwr (by decide)
@[simp] theorem satAdd_chip (a : Nat) (hi : Nat) (lo : Nat) (n : Nat) : (satAdd s a hi lo n).chip = s.chip :=
  (satAdd_frame (F := [.regs]) (OnlyChanges.refl _ s) (by decide)).same .chip (by decide)
@[simp] theorem satAdd_ring (a : Nat) (hi : Nat) (lo : Nat) (n : Nat) : (satAdd s a hi lo n).ring = s.ring :=
  (satAdd_frame (F := [.regs]) (OnlyChanges.refl _ s) (by decide)).same .ring (by decide)
@[simp] theorem satAdd_sec (a : Nat) (hi : Nat) (lo : Nat) (n : Nat) : (satAdd s a hi lo n).sec = s.sec :=
  (satAdd_frame (F := [.regs]) (OnlyChanges.refl _ s) (by decide)).same .sec (by decide)
@[simp] theorem satAdd_cry (a : Nat) (hi : Nat) (lo : Nat) (n : Nat) : (satAdd s a hi lo n).cry = s.cry :=
  (satAdd_frame (F := [.regs]) (OnlyChanges.refl _ s) (by decide)).same .cry (by decide)
@[simp] theorem satAdd_boot (a : Nat) (hi : Nat) (lo : Nat) (n : Nat) : (satAdd s a hi lo n).boot = s.boot :=
  (satAdd_frame (F := [.regs]) (OnlyChanges.refl _ s) (by decide)).same .boot (by decide)
@[simp] theorem satAdd_dram (a : Nat) (hi : Nat) (lo : Nat) (n : Nat) : (satAdd s a hi lo n).dram = s.dram :=
  (satAdd_frame (F := [.regs]) (OnlyChanges.refl _ s) (by decide)).same .dram (by decide)
@[simp] theorem satAdd_phc (a : Nat) (hi : Nat) (lo : Nat) (n : Nat) : (satAdd s a hi lo n).phc = s.phc :=
  (satAdd_frame (F := [.regs]) (OnlyChanges.refl _ s) (by decide)).same .phc (by decide)
@[simp] theorem satAdd_map (a : Nat) (hi : Nat) (lo : Nat) (n : Nat) : (satAdd s a hi lo n).map = s.map :=
  (satAdd_frame (F := [.regs]) (OnlyChanges.refl _ s) (by decide)).same .map (by decide)
@[simp] theorem satAdd_flash (a : Nat) (hi : Nat) (lo : Nat) (n : Nat) : (satAdd s a hi lo n).flash = s.flash :=
  (satAdd_frame (F := [.regs]) (OnlyChanges.refl _ s) (by decide)).same .flash (by decide)
@[simp] theorem satAdd_jrc (a : Nat) (hi : Nat) (lo : Nat) (n : Nat) : (satAdd s a hi lo n).jrc = s.jrc :=
  (satAdd_frame (F := [.regs]) (OnlyChanges.refl _ s) (by decide)).same .jrc (by decide)
@[simp] theorem satAdd_srt (a : Nat) (hi : Nat) (lo : Nat) (n : Nat) : (satAdd s a hi lo n).srt = s.srt :=
  (satAdd_frame (F := [.regs]) (OnlyChanges.refl _ s) (by decide)).same .srt (by decide)
@[simp] theorem satAdd_prog (a : Nat) (hi : Nat) (lo : Nat) (n : Nat) : (satAdd s a hi lo n).prog = s.prog :=
  (satAdd_frame (F := [.regs]) (OnlyChanges.refl _ s) (by decide)).same .prog (by decide)
@[simp] theorem satAdd_pat (a : Nat) (hi : Nat) (lo : Nat) (n : Nat) : (satAdd s a hi lo n).pat = s.pat :=
  (satAdd_frame (F := [.regs]) (OnlyChanges.refl _ s) (by decide)).same .pat (by decide)
@[simp] theorem satAdd_mem (a : Nat) (hi : Nat) (lo : Nat) (n : Nat) : (satAdd s a hi lo n).mem = s.mem :=
  (satAdd_frame (F := [.regs]) (OnlyChanges.refl _ s) (by decide)).same .mem (by decide)

@[simp] theorem wrapAdd_pending (a : Nat) (n : Nat) : (wrapAdd s a n).pending = s.pending :=
  (wrapAdd_frame (F := [.regs]) (OnlyChanges.refl _ s) (by decide)).same .pending (by decide)
@[simp] theorem wrapAdd_out (a : Nat) (n : Nat) : (wrapAdd s a n).out = s.out :=
  (wrapAdd_frame (F := [.regs]) (OnlyChanges.refl _ s) (by decide)).same .out (by decide)
@[simp] theorem wrapAdd_clk (a : Nat) (n : Nat) : (wrapAdd s a n).clk = s.clk :=
  (wrapAdd_frame (F := [.regs]) (OnlyChanges.refl _ s) (by decide)).same .clk (by decide)
@[simp] theorem wrapAdd_portA (a : Nat) (n : Nat) : (wrapAdd s a n).portA = s.portA :=
  (wrapAdd_frame (F := [.regs]) (OnlyChanges.refl _ s) (by decide)).same .portA (by decide)
@[simp] theorem wrapAdd_portB (a : Nat) (n : Nat) : (wrapAdd s a n).portB = s.portB :=
  (wrapAdd_frame (F := [.regs]) (OnlyChanges.refl _ s) (by decide)).same .portB (by decide)
@[simp] theorem wrapAdd_evr (a : Nat) (n : Nat) : (wrapAdd s a n).evr = s.evr :=
  (wrapAdd_frame (F := [.regs]) (OnlyChanges.refl _ s) (by decide)).same .evr (by decide)
@[simp] theorem wrapAdd_thm (a : Nat) (n : Nat) : (wrapAdd s a n).thm = s.thm :=
  (wrapAdd_frame (F := [.regs]) (OnlyChanges.refl _ s) (by decide)).same .thm (by decide)
@[simp] theorem wrapAdd_pwr (a : Nat) (n : Nat) : (wrapAdd s a n).pwr = s.pwr :=
  (wrapAdd_frame (F := [.regs]) (OnlyChanges.refl _ s) (by decide)).same .pwr (by decide)
@[simp] theorem wrapAdd_chip (a : Nat) (n : Nat) : (wrapAdd s a n).chip = s.chip :=
  (wrapAdd_frame (F := [.regs]) (OnlyChanges.refl _ s) (by decide)).same .chip (by decide)
@[simp] theorem wrapAdd_ring (a : Nat) (n : Nat) : (wrapAdd s a n).ring = s.ring :=
  (wrapAdd_frame (F := [.regs]) (OnlyChanges.refl _ s) (by decide)).same .ring (by decide)
@[simp] theorem wrapAdd_sec (a : Nat) (n : Nat) : (wrapAdd s a n).sec = s.sec :=
  (wrapAdd_frame (F := [.regs]) (OnlyChanges.refl _ s) (by decide)).same .sec (by decide)
@[simp] theorem wrapAdd_cry (a : Nat) (n : Nat) : (wrapAdd s a n).cry = s.cry :=
  (wrapAdd_frame (F := [.regs]) (OnlyChanges.refl _ s) (by decide)).same .cry (by decide)
@[simp] theorem wrapAdd_boot (a : Nat) (n : Nat) : (wrapAdd s a n).boot = s.boot :=
  (wrapAdd_frame (F := [.regs]) (OnlyChanges.refl _ s) (by decide)).same .boot (by decide)
@[simp] theorem wrapAdd_dram (a : Nat) (n : Nat) : (wrapAdd s a n).dram = s.dram :=
  (wrapAdd_frame (F := [.regs]) (OnlyChanges.refl _ s) (by decide)).same .dram (by decide)
@[simp] theorem wrapAdd_phc (a : Nat) (n : Nat) : (wrapAdd s a n).phc = s.phc :=
  (wrapAdd_frame (F := [.regs]) (OnlyChanges.refl _ s) (by decide)).same .phc (by decide)
@[simp] theorem wrapAdd_map (a : Nat) (n : Nat) : (wrapAdd s a n).map = s.map :=
  (wrapAdd_frame (F := [.regs]) (OnlyChanges.refl _ s) (by decide)).same .map (by decide)
@[simp] theorem wrapAdd_flash (a : Nat) (n : Nat) : (wrapAdd s a n).flash = s.flash :=
  (wrapAdd_frame (F := [.regs]) (OnlyChanges.refl _ s) (by decide)).same .flash (by decide)
@[simp] theorem wrapAdd_jrc (a : Nat) (n : Nat) : (wrapAdd s a n).jrc = s.jrc :=
  (wrapAdd_frame (F := [.regs]) (OnlyChanges.refl _ s) (by decide)).same .jrc (by decide)
@[simp] theorem wrapAdd_srt (a : Nat) (n : Nat) : (wrapAdd s a n).srt = s.srt :=
  (wrapAdd_frame (F := [.regs]) (OnlyChanges.refl _ s) (by decide)).same .srt (by decide)
@[simp] theorem wrapAdd_prog (a : Nat) (n : Nat) : (wrapAdd s a n).prog = s.prog :=
  (wrapAdd_frame (F := [.regs]) (OnlyChanges.refl _ s) (by decide)).same .prog (by decide)
@[simp] theorem wrapAdd_pat (a : Nat) (n : Nat) : (wrapAdd s a n).pat = s.pat :=
  (wrapAdd_frame (F := [.regs]) (OnlyChanges.refl _ s) (by decide)).same .pat (by decide)
@[simp] theorem wrapAdd_mem (a : Nat) (n : Nat) : (wrapAdd s a n).mem = s.mem :=
  (wrapAdd_frame (F := [.regs]) (OnlyChanges.refl _ s) (by decide)).same .mem (by decide)

@[simp] theorem setActive_pending (b : Blk) (u : Nat) (on : Bool) : (setActive s b u on).pending = s.pending :=
  (setActive_frame (F := [.regs]) (OnlyChanges.refl _ s) (by decide)).same .pending (by decide)
@[simp] theorem setActive_out (b : Blk) (u : Nat) (on : Bool) : (setActive s b u on).out = s.out :=
  (setActive_frame (F := [.regs]) (OnlyChanges.refl _ s) (by decide)).same .out (by decide)
@[simp] theorem setActive_clk (b : Blk) (u : Nat) (on : Bool) : (setActive s b u on).clk = s.clk :=
  (setActive_frame (F := [.regs]) (OnlyChanges.refl _ s) (by decide)).same .clk (by decide)
@[simp] theorem setActive_portA (b : Blk) (u : Nat) (on : Bool) : (setActive s b u on).portA = s.portA :=
  (setActive_frame (F := [.regs]) (OnlyChanges.refl _ s) (by decide)).same .portA (by decide)
@[simp] theorem setActive_portB (b : Blk) (u : Nat) (on : Bool) : (setActive s b u on).portB = s.portB :=
  (setActive_frame (F := [.regs]) (OnlyChanges.refl _ s) (by decide)).same .portB (by decide)
@[simp] theorem setActive_evr (b : Blk) (u : Nat) (on : Bool) : (setActive s b u on).evr = s.evr :=
  (setActive_frame (F := [.regs]) (OnlyChanges.refl _ s) (by decide)).same .evr (by decide)
@[simp] theorem setActive_thm (b : Blk) (u : Nat) (on : Bool) : (setActive s b u on).thm = s.thm :=
  (setActive_frame (F := [.regs]) (OnlyChanges.refl _ s) (by decide)).same .thm (by decide)
@[simp] theorem setActive_pwr (b : Blk) (u : Nat) (on : Bool) : (setActive s b u on).pwr = s.pwr :=
  (setActive_frame (F := [.regs]) (OnlyChanges.refl _ s) (by decide)).same .pwr (by decide)
@[simp] theorem setActive_chip (b : Blk) (u : Nat) (on : Bool) : (setActive s b u on).chip = s.chip :=
  (setActive_frame (F := [.regs]) (OnlyChanges.refl _ s) (by decide)).same .chip (by decide)
@[simp] theorem setActive_ring (b : Blk) (u : Nat) (on : Bool) : (setActive s b u on).ring = s.ring :=
  (setActive_frame (F := [.regs]) (OnlyChanges.refl _ s) (by decide)).same .ring (by decide)
@[simp] theorem setActive_sec (b : Blk) (u : Nat) (on : Bool) : (setActive s b u on).sec = s.sec :=
  (setActive_frame (F := [.regs]) (OnlyChanges.refl _ s) (by decide)).same .sec (by decide)
@[simp] theorem setActive_cry (b : Blk) (u : Nat) (on : Bool) : (setActive s b u on).cry = s.cry :=
  (setActive_frame (F := [.regs]) (OnlyChanges.refl _ s) (by decide)).same .cry (by decide)
@[simp] theorem setActive_boot (b : Blk) (u : Nat) (on : Bool) : (setActive s b u on).boot = s.boot :=
  (setActive_frame (F := [.regs]) (OnlyChanges.refl _ s) (by decide)).same .boot (by decide)
@[simp] theorem setActive_dram (b : Blk) (u : Nat) (on : Bool) : (setActive s b u on).dram = s.dram :=
  (setActive_frame (F := [.regs]) (OnlyChanges.refl _ s) (by decide)).same .dram (by decide)
@[simp] theorem setActive_phc (b : Blk) (u : Nat) (on : Bool) : (setActive s b u on).phc = s.phc :=
  (setActive_frame (F := [.regs]) (OnlyChanges.refl _ s) (by decide)).same .phc (by decide)
@[simp] theorem setActive_map (b : Blk) (u : Nat) (on : Bool) : (setActive s b u on).map = s.map :=
  (setActive_frame (F := [.regs]) (OnlyChanges.refl _ s) (by decide)).same .map (by decide)
@[simp] theorem setActive_flash (b : Blk) (u : Nat) (on : Bool) : (setActive s b u on).flash = s.flash :=
  (setActive_frame (F := [.regs]) (OnlyChanges.refl _ s) (by decide)).same .flash (by decide)
@[simp] theorem setActive_jrc (b : Blk) (u : Nat) (on : Bool) : (setActive s b u on).jrc = s.jrc :=
  (setActive_frame (F := [.regs]) (OnlyChanges.refl _ s) (by decide)).same .jrc (by decide)
@[simp] theorem setActive_srt (b : Blk) (u : Nat) (on : Bool) : (setActive s b u on).srt = s.srt :=
  (setActive_frame (F := [.regs]) (OnlyChanges.refl _ s) (by decide)).same .srt (by decide)
@[simp] theorem setActive_prog (b : Blk) (u : Nat) (on : Bool) : (setActive s b u on).prog = s.prog :=
  (setActive_frame (F := [.regs]) (OnlyChanges.refl _ s) (by decide)).same .prog (by decide)
@[simp] theorem setActive_pat (b : Blk) (u : Nat) (on : Bool) : (setActive s b u on).pat = s.pat :=
  (setActive_frame (F := [.regs]) (OnlyChanges.refl _ s) (by decide)).same .pat (by decide)
@[simp] theorem setActive_mem (b : Blk) (u : Nat) (on : Bool) : (setActive s b u on).mem = s.mem :=
  (setActive_frame (F := [.regs]) (OnlyChanges.refl _ s) (by decide)).same .mem (by decide)

@[simp] theorem emit_pending (o : Out) : (emit s o).pending = s.pending :=
  (emit_frame (F := [.out]) (OnlyChanges.refl _ s) (by decide)).same .pending (by decide)
@[simp] theorem emit_clk (o : Out) : (emit s o).clk = s.clk :=
  (emit_frame (F := [.out]) (OnlyChanges.refl _ s) (by decide)).same .clk (by decide)
@[simp] theorem emit_regs (o : Out) : (emit s o).regs = s.regs :=
  (emit_frame (F := [.out]) (OnlyChanges.refl _ s) (by decide)).same .regs (by decide)
@[simp] theorem emit_portA (o : Out) : (emit s o).portA = s.portA :=
  (emit_frame (F := [.out]) (OnlyChanges.refl _ s) (by decide)).same .portA (by decide)
@[simp] theorem emit_portB (o : Out) : (emit s o).portB = s.portB :=
  (emit_frame (F := [.out]) (OnlyChanges.refl _ s) (by decide)).same .portB (by decide)
@[simp] theorem emit_evr (o : Out) : (emit s o).evr = s.evr :=
  (emit_frame (F := [.out]) (OnlyChanges.refl _ s) (by decide)).same .evr (by decide)
@[simp] theorem emit_thm (o : Out) : (emit s o).thm = s.thm :=
  (emit_frame (F := [.out]) (OnlyChanges.refl _ s) (by decide)).same .thm (by decide)
@[simp] theorem emit_pwr (o : Out) : (emit s o).pwr = s.pwr :=
  (emit_frame (F := [.out]) (OnlyChanges.refl _ s) (by decide)).same .pwr (by decide)
@[simp] theorem emit_chip (o : Out) : (emit s o).chip = s.chip :=
  (emit_frame (F := [.out]) (OnlyChanges.refl _ s) (by decide)).same .chip (by decide)
@[simp] theorem emit_ring (o : Out) : (emit s o).ring = s.ring :=
  (emit_frame (F := [.out]) (OnlyChanges.refl _ s) (by decide)).same .ring (by decide)
@[simp] theorem emit_sec (o : Out) : (emit s o).sec = s.sec :=
  (emit_frame (F := [.out]) (OnlyChanges.refl _ s) (by decide)).same .sec (by decide)
@[simp] theorem emit_cry (o : Out) : (emit s o).cry = s.cry :=
  (emit_frame (F := [.out]) (OnlyChanges.refl _ s) (by decide)).same .cry (by decide)
@[simp] theorem emit_boot (o : Out) : (emit s o).boot = s.boot :=
  (emit_frame (F := [.out]) (OnlyChanges.refl _ s) (by decide)).same .boot (by decide)
@[simp] theorem emit_dram (o : Out) : (emit s o).dram = s.dram :=
  (emit_frame (F := [.out]) (OnlyChanges.refl _ s) (by decide)).same .dram (by decide)
@[simp] theorem emit_phc (o : Out) : (emit s o).phc = s.phc :=
  (emit_frame (F := [.out]) (OnlyChanges.refl _ s) (by decide)).same .phc (by decide)
@[simp] theorem emit_map (o : Out) : (emit s o).map = s.map :=
  (emit_frame (F := [.out]) (OnlyChanges.refl _ s) (by decide)).same .map (by decide)
@[simp] theorem emit_flash (o : Out) : (emit s o).flash = s.flash :=
  (emit_frame (F := [.out]) (OnlyChanges.refl _ s) (by decide)).same .flash (by decide)
@[simp] theorem emit_jrc (o : Out) : (emit s o).jrc = s.jrc :=
  (emit_frame (F := [.out]) (OnlyChanges.refl _ s) (by decide)).same .jrc (by decide)
@[simp] theorem emit_srt (o : Out) : (emit s o).srt = s.srt :=
  (emit_frame (F := [.out]) (OnlyChanges.refl _ s) (by decide)).same .srt (by decide)
@[simp] theorem emit_prog (o : Out) : (emit s o).prog = s.prog :=
  (emit_frame (F := [.out]) (OnlyChanges.refl _ s) (by decide)).same .prog (by decide)
@[simp] theorem emit_pat (o : Out) : (emit s o).pat = s.pat :=
  (emit_frame (F := [.out]) (OnlyChanges.refl _ s) (by decide)).same .pat (by decide)
@[simp] theorem emit_mem (o : Out) : (emit s o).mem = s.mem :=
  (emit_frame (F := [.out]) (OnlyChanges.refl _ s) (by decide)).same .mem (by decide)

@[simp] theorem msixSend_pending (p : Port) (v : Nat) : (msixSend s p v).pending = s.pending :=
  (msixSend_frame (F := [.out, .portA, .portB]) (OnlyChanges.refl _ s) (by decide) (by decide) (by decide)).same .pending (by decide)
@[simp] theorem msixSend_clk (p : Port) (v : Nat) : (msixSend s p v).clk = s.clk :=
  (msixSend_frame (F := [.out, .portA, .portB]) (OnlyChanges.refl _ s) (by decide) (by decide) (by decide)).same .clk (by decide)
@[simp] theorem msixSend_regs (p : Port) (v : Nat) : (msixSend s p v).regs = s.regs :=
  (msixSend_frame (F := [.out, .portA, .portB]) (OnlyChanges.refl _ s) (by decide) (by decide) (by decide)).same .regs (by decide)
@[simp] theorem msixSend_evr (p : Port) (v : Nat) : (msixSend s p v).evr = s.evr :=
  (msixSend_frame (F := [.out, .portA, .portB]) (OnlyChanges.refl _ s) (by decide) (by decide) (by decide)).same .evr (by decide)
@[simp] theorem msixSend_thm (p : Port) (v : Nat) : (msixSend s p v).thm = s.thm :=
  (msixSend_frame (F := [.out, .portA, .portB]) (OnlyChanges.refl _ s) (by decide) (by decide) (by decide)).same .thm (by decide)
@[simp] theorem msixSend_pwr (p : Port) (v : Nat) : (msixSend s p v).pwr = s.pwr :=
  (msixSend_frame (F := [.out, .portA, .portB]) (OnlyChanges.refl _ s) (by decide) (by decide) (by decide)).same .pwr (by decide)
@[simp] theorem msixSend_chip (p : Port) (v : Nat) : (msixSend s p v).chip = s.chip :=
  (msixSend_frame (F := [.out, .portA, .portB]) (OnlyChanges.refl _ s) (by decide) (by decide) (by decide)).same .chip (by decide)
@[simp] theorem msixSend_ring (p : Port) (v : Nat) : (msixSend s p v).ring = s.ring :=
  (msixSend_frame (F := [.out, .portA, .portB]) (OnlyChanges.refl _ s) (by decide) (by decide) (by decide)).same .ring (by decide)
@[simp] theorem msixSend_sec (p : Port) (v : Nat) : (msixSend s p v).sec = s.sec :=
  (msixSend_frame (F := [.out, .portA, .portB]) (OnlyChanges.refl _ s) (by decide) (by decide) (by decide)).same .sec (by decide)
@[simp] theorem msixSend_cry (p : Port) (v : Nat) : (msixSend s p v).cry = s.cry :=
  (msixSend_frame (F := [.out, .portA, .portB]) (OnlyChanges.refl _ s) (by decide) (by decide) (by decide)).same .cry (by decide)
@[simp] theorem msixSend_boot (p : Port) (v : Nat) : (msixSend s p v).boot = s.boot :=
  (msixSend_frame (F := [.out, .portA, .portB]) (OnlyChanges.refl _ s) (by decide) (by decide) (by decide)).same .boot (by decide)
@[simp] theorem msixSend_dram (p : Port) (v : Nat) : (msixSend s p v).dram = s.dram :=
  (msixSend_frame (F := [.out, .portA, .portB]) (OnlyChanges.refl _ s) (by decide) (by decide) (by decide)).same .dram (by decide)
@[simp] theorem msixSend_phc (p : Port) (v : Nat) : (msixSend s p v).phc = s.phc :=
  (msixSend_frame (F := [.out, .portA, .portB]) (OnlyChanges.refl _ s) (by decide) (by decide) (by decide)).same .phc (by decide)
@[simp] theorem msixSend_map (p : Port) (v : Nat) : (msixSend s p v).map = s.map :=
  (msixSend_frame (F := [.out, .portA, .portB]) (OnlyChanges.refl _ s) (by decide) (by decide) (by decide)).same .map (by decide)
@[simp] theorem msixSend_flash (p : Port) (v : Nat) : (msixSend s p v).flash = s.flash :=
  (msixSend_frame (F := [.out, .portA, .portB]) (OnlyChanges.refl _ s) (by decide) (by decide) (by decide)).same .flash (by decide)
@[simp] theorem msixSend_jrc (p : Port) (v : Nat) : (msixSend s p v).jrc = s.jrc :=
  (msixSend_frame (F := [.out, .portA, .portB]) (OnlyChanges.refl _ s) (by decide) (by decide) (by decide)).same .jrc (by decide)
@[simp] theorem msixSend_srt (p : Port) (v : Nat) : (msixSend s p v).srt = s.srt :=
  (msixSend_frame (F := [.out, .portA, .portB]) (OnlyChanges.refl _ s) (by decide) (by decide) (by decide)).same .srt (by decide)
@[simp] theorem msixSend_prog (p : Port) (v : Nat) : (msixSend s p v).prog = s.prog :=
  (msixSend_frame (F := [.out, .portA, .portB]) (OnlyChanges.refl _ s) (by decide) (by decide) (by decide)).same .prog (by decide)
@[simp] theorem msixSend_pat (p : Port) (v : Nat) : (msixSend s p v).pat = s.pat :=
  (msixSend_frame (F := [.out, .portA, .portB]) (OnlyChanges.refl _ s) (by decide) (by decide) (by decide)).same .pat (by decide)
@[simp] theorem msixSend_mem (p : Port) (v : Nat) : (msixSend s p v).mem = s.mem :=
  (msixSend_frame (F := [.out, .portA, .portB]) (OnlyChanges.refl _ s) (by decide) (by decide) (by decide)).same .mem (by decide)

@[simp] theorem vendorMsg_pending (p : Port) (v : Nat) : (vendorMsg s p v).pending = s.pending :=
  (vendorMsg_frame (F := [.out, .portA, .portB]) (OnlyChanges.refl _ s) (by decide) (by decide) (by decide)).same .pending (by decide)
@[simp] theorem vendorMsg_clk (p : Port) (v : Nat) : (vendorMsg s p v).clk = s.clk :=
  (vendorMsg_frame (F := [.out, .portA, .portB]) (OnlyChanges.refl _ s) (by decide) (by decide) (by decide)).same .clk (by decide)
@[simp] theorem vendorMsg_regs (p : Port) (v : Nat) : (vendorMsg s p v).regs = s.regs :=
  (vendorMsg_frame (F := [.out, .portA, .portB]) (OnlyChanges.refl _ s) (by decide) (by decide) (by decide)).same .regs (by decide)
@[simp] theorem vendorMsg_evr (p : Port) (v : Nat) : (vendorMsg s p v).evr = s.evr :=
  (vendorMsg_frame (F := [.out, .portA, .portB]) (OnlyChanges.refl _ s) (by decide) (by decide) (by decide)).same .evr (by decide)
@[simp] theorem vendorMsg_thm (p : Port) (v : Nat) : (vendorMsg s p v).thm = s.thm :=
  (vendorMsg_frame (F := [.out, .portA, .portB]) (OnlyChanges.refl _ s) (by decide) (by decide) (by decide)).same .thm (by decide)
@[simp] theorem vendorMsg_pwr (p : Port) (v : Nat) : (vendorMsg s p v).pwr = s.pwr :=
  (vendorMsg_frame (F := [.out, .portA, .portB]) (OnlyChanges.refl _ s) (by decide) (by decide) (by decide)).same .pwr (by decide)
@[simp] theorem vendorMsg_chip (p : Port) (v : Nat) : (vendorMsg s p v).chip = s.chip :=
  (vendorMsg_frame (F := [.out, .portA, .portB]) (OnlyChanges.refl _ s) (by decide) (by decide) (by decide)).same .chip (by decide)
@[simp] theorem vendorMsg_ring (p : Port) (v : Nat) : (vendorMsg s p v).ring = s.ring :=
  (vendorMsg_frame (F := [.out, .portA, .portB]) (OnlyChanges.refl _ s) (by decide) (by decide) (by decide)).same .ring (by decide)
@[simp] theorem vendorMsg_sec (p : Port) (v : Nat) : (vendorMsg s p v).sec = s.sec :=
  (vendorMsg_frame (F := [.out, .portA, .portB]) (OnlyChanges.refl _ s) (by decide) (by decide) (by decide)).same .sec (by decide)
@[simp] theorem vendorMsg_cry (p : Port) (v : Nat) : (vendorMsg s p v).cry = s.cry :=
  (vendorMsg_frame (F := [.out, .portA, .portB]) (OnlyChanges.refl _ s) (by decide) (by decide) (by decide)).same .cry (by decide)
@[simp] theorem vendorMsg_boot (p : Port) (v : Nat) : (vendorMsg s p v).boot = s.boot :=
  (vendorMsg_frame (F := [.out, .portA, .portB]) (OnlyChanges.refl _ s) (by decide) (by decide) (by decide)).same .boot (by decide)
@[simp] theorem vendorMsg_dram (p : Port) (v : Nat) : (vendorMsg s p v).dram = s.dram :=
  (vendorMsg_frame (F := [.out, .portA, .portB]) (OnlyChanges.refl _ s) (by decide) (by decide) (by decide)).same .dram (by decide)
@[simp] theorem vendorMsg_phc (p : Port) (v : Nat) : (vendorMsg s p v).phc = s.phc :=
  (vendorMsg_frame (F := [.out, .portA, .portB]) (OnlyChanges.refl _ s) (by decide) (by decide) (by decide)).same .phc (by decide)
@[simp] theorem vendorMsg_map (p : Port) (v : Nat) : (vendorMsg s p v).map = s.map :=
  (vendorMsg_frame (F := [.out, .portA, .portB]) (OnlyChanges.refl _ s) (by decide) (by decide) (by decide)).same .map (by decide)
@[simp] theorem vendorMsg_flash (p : Port) (v : Nat) : (vendorMsg s p v).flash = s.flash :=
  (vendorMsg_frame (F := [.out, .portA, .portB]) (OnlyChanges.refl _ s) (by decide) (by decide) (by decide)).same .flash (by decide)
@[simp] theorem vendorMsg_jrc (p : Port) (v : Nat) : (vendorMsg s p v).jrc = s.jrc :=
  (vendorMsg_frame (F := [.out, .portA, .portB]) (OnlyChanges.refl _ s) (by decide) (by decide) (by decide)).same .jrc (by decide)
@[simp] theorem vendorMsg_srt (p : Port) (v : Nat) : (vendorMsg s p v).srt = s.srt :=
  (vendorMsg_frame (F := [.out, .portA, .portB]) (OnlyChanges.refl _ s) (by decide) (by decide) (by decide)).same .srt (by decide)
@[simp] theorem vendorMsg_prog (p : Port) (v : Nat) : (vendorMsg s p v).prog = s.prog :=
  (vendorMsg_frame (F := [.out, .portA, .portB]) (OnlyChanges.refl _ s) (by decide) (by decide) (by decide)).same .prog (by decide)
@[simp] theorem vendorMsg_pat (p : Port) (v : Nat) : (vendorMsg s p v).pat = s.pat :=
  (vendorMsg_frame (F := [.out, .portA, .portB]) (OnlyChanges.refl _ s) (by decide) (by decide) (by decide)).same .pat (by decide)
@[simp] theorem vendorMsg_mem (p : Port) (v : Nat) : (vendorMsg s p v).mem = s.mem :=
  (vendorMsg_frame (F := [.out, .portA, .portB]) (OnlyChanges.refl _ s) (by decide) (by decide) (by decide)).same .mem (by decide)

@[simp] theorem setMapBit_pending (base : Nat → Nat) (n : Nat) : (setMapBit s base n).pending = s.pending :=
  (setMapBit_frame (F := [.regs]) (OnlyChanges.refl _ s) (by decide)).same .pending (by decide)
@[simp] theorem setMapBit_out (base : Nat → Nat) (n : Nat) : (setMapBit s base n).out = s.out :=
  (setMapBit_frame (F := [.regs]) (OnlyChanges.refl _ s) (by decide)).same .out (by decide)
@[simp] theorem setMapBit_clk (base : Nat → Nat) (n : Nat) : (setMapBit s base n).clk = s.clk :=
  (setMapBit_frame (F := [.regs]) (OnlyChanges.refl _ s) (by decide)).same .clk (by decide)
@[simp] theorem setMapBit_portA (base : Nat → Nat) (n : Nat) : (setMapBit s base n).portA = s.portA :=
  (setMapBit_frame (F := [.regs]) (OnlyChanges.refl _ s) (by decide)).same .portA (by decide)
@[simp] theorem setMapBit_portB (base : Nat → Nat) (n : Nat) : (setMapBit s base n).portB = s.portB :=
  (setMapBit_frame (F := [.regs]) (OnlyChanges.refl _ s) (by decide)).same .portB (by decide)
@[simp] theorem setMapBit_evr (base : Nat → Nat) (n : Nat) : (setMapBit s base n).evr = s.evr :=
  (setMapBit_frame (F := [.regs]) (OnlyChanges.refl _ s) (by decide)).same .evr (by decide)
@[simp] theorem setMapBit_thm (base : Nat → Nat) (n : Nat) : (setMapBit s base n).thm = s.thm :=
  (setMapBit_frame (F := [.regs]) (OnlyChanges.refl _ s) (by decide)).same .thm (by decide)
@[simp] theorem setMapBit_pwr (base : Nat → Nat) (n : Nat) : (setMapBit s base n).pwr = s.pwr :=
  (setMapBit_frame (F := [.regs]) (OnlyChanges.refl _ s) (by decide)).same .pwr (by decide)
@[simp] theorem setMapBit_chip (base : Nat → Nat) (n : Nat) : (setMapBit s base n).chip = s.chip :=
  (setMapBit_frame (F := [.regs]) (OnlyChanges.refl _ s) (by decide)).same .chip (by decide)
@[simp] theorem setMapBit_ring (base : Nat → Nat) (n : Nat) : (setMapBit s base n).ring = s.ring :=
  (setMapBit_frame (F := [.regs]) (OnlyChanges.refl _ s) (by decide)).same .ring (by decide)
@[simp] theorem setMapBit_sec (base : Nat → Nat) (n : Nat) : (setMapBit s base n).sec = s.sec :=
  (setMapBit_frame (F := [.regs]) (OnlyChanges.refl _ s) (by decide)).same .sec (by decide)
@[simp] theorem setMapBit_cry (base : Nat → Nat) (n : Nat) : (setMapBit s base n).cry = s.cry :=
  (setMapBit_frame (F := [.regs]) (OnlyChanges.refl _ s) (by decide)).same .cry (by decide)
@[simp] theorem setMapBit_boot (base : Nat → Nat) (n : Nat) : (setMapBit s base n).boot = s.boot :=
  (setMapBit_frame (F := [.regs]) (OnlyChanges.refl _ s) (by decide)).same .boot (by decide)
@[simp] theorem setMapBit_dram (base : Nat → Nat) (n : Nat) : (setMapBit s base n).dram = s.dram :=
  (setMapBit_frame (F := [.regs]) (OnlyChanges.refl _ s) (by decide)).same .dram (by decide)
@[simp] theorem setMapBit_phc (base : Nat → Nat) (n : Nat) : (setMapBit s base n).phc = s.phc :=
  (setMapBit_frame (F := [.regs]) (OnlyChanges.refl _ s) (by decide)).same .phc (by decide)
@[simp] theorem setMapBit_map (base : Nat → Nat) (n : Nat) : (setMapBit s base n).map = s.map :=
  (setMapBit_frame (F := [.regs]) (OnlyChanges.refl _ s) (by decide)).same .map (by decide)
@[simp] theorem setMapBit_flash (base : Nat → Nat) (n : Nat) : (setMapBit s base n).flash = s.flash :=
  (setMapBit_frame (F := [.regs]) (OnlyChanges.refl _ s) (by decide)).same .flash (by decide)
@[simp] theorem setMapBit_jrc (base : Nat → Nat) (n : Nat) : (setMapBit s base n).jrc = s.jrc :=
  (setMapBit_frame (F := [.regs]) (OnlyChanges.refl _ s) (by decide)).same .jrc (by decide)
@[simp] theorem setMapBit_srt (base : Nat → Nat) (n : Nat) : (setMapBit s base n).srt = s.srt :=
  (setMapBit_frame (F := [.regs]) (OnlyChanges.refl _ s) (by decide)).same .srt (by decide)
@[simp] theorem setMapBit_prog (base : Nat → Nat) (n : Nat) : (setMapBit s base n).prog = s.prog :=
  (setMapBit_frame (F := [.regs]) (OnlyChanges.refl _ s) (by decide)).same .prog (by decide)
@[simp] theorem setMapBit_pat (base : Nat → Nat) (n : Nat) : (setMapBit s base n).pat = s.pat :=
  (setMapBit_frame (F := [.regs]) (OnlyChanges.refl _ s) (by decide)).same .pat (by decide)
@[simp] theorem setMapBit_mem (base : Nat → Nat) (n : Nat) : (setMapBit s base n).mem = s.mem :=
  (setMapBit_frame (F := [.regs]) (OnlyChanges.refl _ s) (by decide)).same .mem (by decide)

@[simp] theorem enqueue_pending (c : Cand) : (enqueue s c).pending = s.pending :=
  (enqueue_frame (F := [.regs, .evr]) (OnlyChanges.refl _ s) (by decide) (by decide)).same .pending (by decide)
@[simp] theorem enqueue_out (c : Cand) : (enqueue s c).out = s.out :=
  (enqueue_frame (F := [.regs, .evr]) (OnlyChanges.refl _ s) (by decide) (by decide)).same .out (by decide)
@[simp] theorem enqueue_clk (c : Cand) : (enqueue s c).clk = s.clk :=
  (enqueue_frame (F := [.regs, .evr]) (OnlyChanges.refl _ s) (by decide) (by decide)).same .clk (by decide)
@[simp] theorem enqueue_portA (c : Cand) : (enqueue s c).portA = s.portA :=
  (enqueue_frame (F := [.regs, .evr]) (OnlyChanges.refl _ s) (by decide) (by decide)).same .portA (by decide)
@[simp] theorem enqueue_portB (c : Cand) : (enqueue s c).portB = s.portB :=
  (enqueue_frame (F := [.regs, .evr]) (OnlyChanges.refl _ s) (by decide) (by decide)).same .portB (by decide)
@[simp] theorem enqueue_thm (c : Cand) : (enqueue s c).thm = s.thm :=
  (enqueue_frame (F := [.regs, .evr]) (OnlyChanges.refl _ s) (by decide) (by decide)).same .thm (by decide)
@[simp] theorem enqueue_pwr (c : Cand) : (enqueue s c).pwr = s.pwr :=
  (enqueue_frame (F := [.regs, .evr]) (OnlyChanges.refl _ s) (by decide) (by decide)).same .pwr (by decide)
@[simp] theorem enqueue_chip (c : Cand) : (enqueue s c).chip = s.chip :=
  (enqueue_frame (F := [.regs, .evr]) (OnlyChanges.refl _ s) (by decide) (by decide)).same .chip (by decide)
@[simp] theorem enqueue_ring (c : Cand) : (enqueue s c).ring = s.ring :=
  (enqueue_frame (F := [.regs, .evr]) (OnlyChanges.refl _ s) (by decide) (by decide)).same .ring (by decide)
@[simp] theorem enqueue_sec (c : Cand) : (enqueue s c).sec = s.sec :=
  (enqueue_frame (F := [.regs, .evr]) (OnlyChanges.refl _ s) (by decide) (by decide)).same .sec (by decide)
@[simp] theorem enqueue_cry (c : Cand) : (enqueue s c).cry = s.cry :=
  (enqueue_frame (F := [.regs, .evr]) (OnlyChanges.refl _ s) (by decide) (by decide)).same .cry (by decide)
@[simp] theorem enqueue_boot (c : Cand) : (enqueue s c).boot = s.boot :=
  (enqueue_frame (F := [.regs, .evr]) (OnlyChanges.refl _ s) (by decide) (by decide)).same .boot (by decide)
@[simp] theorem enqueue_dram (c : Cand) : (enqueue s c).dram = s.dram :=
  (enqueue_frame (F := [.regs, .evr]) (OnlyChanges.refl _ s) (by decide) (by decide)).same .dram (by decide)
@[simp] theorem enqueue_phc (c : Cand) : (enqueue s c).phc = s.phc :=
  (enqueue_frame (F := [.regs, .evr]) (OnlyChanges.refl _ s) (by decide) (by decide)).same .phc (by decide)
@[simp] theorem enqueue_map (c : Cand) : (enqueue s c).map = s.map :=
  (enqueue_frame (F := [.regs, .evr]) (OnlyChanges.refl _ s) (by decide) (by decide)).same .map (by decide)
@[simp] theorem enqueue_flash (c : Cand) : (enqueue s c).flash = s.flash :=
  (enqueue_frame (F := [.regs, .evr]) (OnlyChanges.refl _ s) (by decide) (by decide)).same .flash (by decide)
@[simp] theorem enqueue_jrc (c : Cand) : (enqueue s c).jrc = s.jrc :=
  (enqueue_frame (F := [.regs, .evr]) (OnlyChanges.refl _ s) (by decide) (by decide)).same .jrc (by decide)
@[simp] theorem enqueue_srt (c : Cand) : (enqueue s c).srt = s.srt :=
  (enqueue_frame (F := [.regs, .evr]) (OnlyChanges.refl _ s) (by decide) (by decide)).same .srt (by decide)
@[simp] theorem enqueue_prog (c : Cand) : (enqueue s c).prog = s.prog :=
  (enqueue_frame (F := [.regs, .evr]) (OnlyChanges.refl _ s) (by decide) (by decide)).same .prog (by decide)
@[simp] theorem enqueue_pat (c : Cand) : (enqueue s c).pat = s.pat :=
  (enqueue_frame (F := [.regs, .evr]) (OnlyChanges.refl _ s) (by decide) (by decide)).same .pat (by decide)
@[simp] theorem enqueue_mem (c : Cand) : (enqueue s c).mem = s.mem :=
  (enqueue_frame (F := [.regs, .evr]) (OnlyChanges.refl _ s) (by decide) (by decide)).same .mem (by decide)

@[simp] theorem admitCand_pending (c : Cand) : (admitCand s c).pending = s.pending :=
  (admitCand_frame (F := [.regs, .evr]) (OnlyChanges.refl _ s) (by decide) (by decide)).same .pending (by decide)
@[simp] theorem admitCand_out (c : Cand) : (admitCand s c).out = s.out :=
  (admitCand_frame (F := [.regs, .evr]) (OnlyChanges.refl _ s) (by decide) (by decide)).same .out (by decide)
@[simp] theorem admitCand_clk (c : Cand) : (admitCand s c).clk = s.clk :=
  (admitCand_frame (F := [.regs, .evr]) (OnlyChanges.refl _ s) (by decide) (by decide)).same .clk (by decide)
@[simp] theorem admitCand_portA (c : Cand) : (admitCand s c).portA = s.portA :=
  (admitCand_frame (F := [.regs, .evr]) (OnlyChanges.refl _ s) (by decide) (by decide)).same .portA (by decide)
@[simp] theorem admitCand_portB (c : Cand) : (admitCand s c).portB = s.portB :=
  (admitCand_frame (F := [.regs, .evr]) (OnlyChanges.refl _ s) (by decide) (by decide)).same .portB (by decide)
@[simp] theorem admitCand_thm (c : Cand) : (admitCand s c).thm = s.thm :=
  (admitCand_frame (F := [.regs, .evr]) (OnlyChanges.refl _ s) (by decide) (by decide)).same .thm (by decide)
@[simp] theorem admitCand_pwr (c : Cand) : (admitCand s c).pwr = s.pwr :=
  (admitCand_frame (F := [.regs, .evr]) (OnlyChanges.refl _ s) (by decide) (by decide)).same .pwr (by decide)
@[simp] theorem admitCand_chip (c : Cand) : (admitCand s c).chip = s.chip :=
  (admitCand_frame (F := [.regs, .evr]) (OnlyChanges.refl _ s) (by decide) (by decide)).same .chip (by decide)
@[simp] theorem admitCand_ring (c : Cand) : (admitCand s c).ring = s.ring :=
  (admitCand_frame (F := [.regs, .evr]) (OnlyChanges.refl _ s) (by decide) (by decide)).same .ring (by decide)
@[simp] theorem admitCand_sec (c : Cand) : (admitCand s c).sec = s.sec :=
  (admitCand_frame (F := [.regs, .evr]) (OnlyChanges.refl _ s) (by decide) (by decide)).same .sec (by decide)
@[simp] theorem admitCand_cry (c : Cand) : (admitCand s c).cry = s.cry :=
  (admitCand_frame (F := [.regs, .evr]) (OnlyChanges.refl _ s) (by decide) (by decide)).same .cry (by decide)
@[simp] theorem admitCand_boot (c : Cand) : (admitCand s c).boot = s.boot :=
  (admitCand_frame (F := [.regs, .evr]) (OnlyChanges.refl _ s) (by decide) (by decide)).same .boot (by decide)
@[simp] theorem admitCand_dram (c : Cand) : (admitCand s c).dram = s.dram :=
  (admitCand_frame (F := [.regs, .evr]) (OnlyChanges.refl _ s) (by decide) (by decide)).same .dram (by decide)
@[simp] theorem admitCand_phc (c : Cand) : (admitCand s c).phc = s.phc :=
  (admitCand_frame (F := [.regs, .evr]) (OnlyChanges.refl _ s) (by decide) (by decide)).same .phc (by decide)
@[simp] theorem admitCand_map (c : Cand) : (admitCand s c).map = s.map :=
  (admitCand_frame (F := [.regs, .evr]) (OnlyChanges.refl _ s) (by decide) (by decide)).same .map (by decide)
@[simp] theorem admitCand_flash (c : Cand) : (admitCand s c).flash = s.flash :=
  (admitCand_frame (F := [.regs, .evr]) (OnlyChanges.refl _ s) (by decide) (by decide)).same .flash (by decide)
@[simp] theorem admitCand_jrc (c : Cand) : (admitCand s c).jrc = s.jrc :=
  (admitCand_frame (F := [.regs, .evr]) (OnlyChanges.refl _ s) (by decide) (by decide)).same .jrc (by decide)
@[simp] theorem admitCand_srt (c : Cand) : (admitCand s c).srt = s.srt :=
  (admitCand_frame (F := [.regs, .evr]) (OnlyChanges.refl _ s) (by decide) (by decide)).same .srt (by decide)
@[simp] theorem admitCand_prog (c : Cand) : (admitCand s c).prog = s.prog :=
  (admitCand_frame (F := [.regs, .evr]) (OnlyChanges.refl _ s) (by decide) (by decide)).same .prog (by decide)
@[simp] theorem admitCand_pat (c : Cand) : (admitCand s c).pat = s.pat :=
  (admitCand_frame (F := [.regs, .evr]) (OnlyChanges.refl _ s) (by decide) (by decide)).same .pat (by decide)
@[simp] theorem admitCand_mem (c : Cand) : (admitCand s c).mem = s.mem :=
  (admitCand_frame (F := [.regs, .evr]) (OnlyChanges.refl _ s) (by decide) (by decide)).same .mem (by decide)

@[simp] theorem raiseWith_pending (n : Nat) (payload : List Byte) (origin : optParam Nat 10) : (raiseWith s n payload origin).pending = s.pending :=
  (raiseWith_frame (F := [.out, .regs, .portA, .portB, .evr]) (OnlyChanges.refl _ s) (by decide) (by decide) (by decide) (by decide) (by decide)).same .pending (by decide)
@[simp] theorem raiseWith_clk (n : Nat) (payload : List Byte) (origin : optParam Nat 10) : (raiseWith s n payload origin).clk = s.clk :=
  (raiseWith_frame (F := [.out, .regs, .portA, .portB, .evr]) (OnlyChanges.refl _ s) (by decide) (by decide) (by decide) (by decide) (by decide)).same .clk (by decide)
@[simp] theorem raiseWith_thm (n : Nat) (payload : List Byte) (origin : optParam Nat 10) : (raiseWith s n payload origin).thm = s.thm :=
  (raiseWith_frame (F := [.out, .regs, .portA, .portB, .evr]) (OnlyChanges.refl _ s) (by decide) (by decide) (by decide) (by decide) (by decide)).same .thm (by decide)
@[simp] theorem raiseWith_pwr (n : Nat) (payload : List Byte) (origin : optParam Nat 10) : (raiseWith s n payload origin).pwr = s.pwr :=
  (raiseWith_frame (F := [.out, .regs, .portA, .portB, .evr]) (OnlyChanges.refl _ s) (by decide) (by decide) (by decide) (by decide) (by decide)).same .pwr (by decide)
@[simp] theorem raiseWith_chip (n : Nat) (payload : List Byte) (origin : optParam Nat 10) : (raiseWith s n payload origin).chip = s.chip :=
  (raiseWith_frame (F := [.out, .regs, .portA, .portB, .evr]) (OnlyChanges.refl _ s) (by decide) (by decide) (by decide) (by decide) (by decide)).same .chip (by decide)
@[simp] theorem raiseWith_ring (n : Nat) (payload : List Byte) (origin : optParam Nat 10) : (raiseWith s n payload origin).ring = s.ring :=
  (raiseWith_frame (F := [.out, .regs, .portA, .portB, .evr]) (OnlyChanges.refl _ s) (by decide) (by decide) (by decide) (by decide) (by decide)).same .ring (by decide)
@[simp] theorem raiseWith_sec (n : Nat) (payload : List Byte) (origin : optParam Nat 10) : (raiseWith s n payload origin).sec = s.sec :=
  (raiseWith_frame (F := [.out, .regs, .portA, .portB, .evr]) (OnlyChanges.refl _ s) (by decide) (by decide) (by decide) (by decide) (by decide)).same .sec (by decide)
@[simp] theorem raiseWith_cry (n : Nat) (payload : List Byte) (origin : optParam Nat 10) : (raiseWith s n payload origin).cry = s.cry :=
  (raiseWith_frame (F := [.out, .regs, .portA, .portB, .evr]) (OnlyChanges.refl _ s) (by decide) (by decide) (by decide) (by decide) (by decide)).same .cry (by decide)
@[simp] theorem raiseWith_boot (n : Nat) (payload : List Byte) (origin : optParam Nat 10) : (raiseWith s n payload origin).boot = s.boot :=
  (raiseWith_frame (F := [.out, .regs, .portA, .portB, .evr]) (OnlyChanges.refl _ s) (by decide) (by decide) (by decide) (by decide) (by decide)).same .boot (by decide)
@[simp] theorem raiseWith_dram (n : Nat) (payload : List Byte) (origin : optParam Nat 10) : (raiseWith s n payload origin).dram = s.dram :=
  (raiseWith_frame (F := [.out, .regs, .portA, .portB, .evr]) (OnlyChanges.refl _ s) (by decide) (by decide) (by decide) (by decide) (by decide)).same .dram (by decide)
@[simp] theorem raiseWith_phc (n : Nat) (payload : List Byte) (origin : optParam Nat 10) : (raiseWith s n payload origin).phc = s.phc :=
  (raiseWith_frame (F := [.out, .regs, .portA, .portB, .evr]) (OnlyChanges.refl _ s) (by decide) (by decide) (by decide) (by decide) (by decide)).same .phc (by decide)
@[simp] theorem raiseWith_map (n : Nat) (payload : List Byte) (origin : optParam Nat 10) : (raiseWith s n payload origin).map = s.map :=
  (raiseWith_frame (F := [.out, .regs, .portA, .portB, .evr]) (OnlyChanges.refl _ s) (by decide) (by decide) (by decide) (by decide) (by decide)).same .map (by decide)
@[simp] theorem raiseWith_flash (n : Nat) (payload : List Byte) (origin : optParam Nat 10) : (raiseWith s n payload origin).flash = s.flash :=
  (raiseWith_frame (F := [.out, .regs, .portA, .portB, .evr]) (OnlyChanges.refl _ s) (by decide) (by decide) (by decide) (by decide) (by decide)).same .flash (by decide)
@[simp] theorem raiseWith_jrc (n : Nat) (payload : List Byte) (origin : optParam Nat 10) : (raiseWith s n payload origin).jrc = s.jrc :=
  (raiseWith_frame (F := [.out, .regs, .portA, .portB, .evr]) (OnlyChanges.refl _ s) (by decide) (by decide) (by decide) (by decide) (by decide)).same .jrc (by decide)
@[simp] theorem raiseWith_srt (n : Nat) (payload : List Byte) (origin : optParam Nat 10) : (raiseWith s n payload origin).srt = s.srt :=
  (raiseWith_frame (F := [.out, .regs, .portA, .portB, .evr]) (OnlyChanges.refl _ s) (by decide) (by decide) (by decide) (by decide) (by decide)).same .srt (by decide)
@[simp] theorem raiseWith_prog (n : Nat) (payload : List Byte) (origin : optParam Nat 10) : (raiseWith s n payload origin).prog = s.prog :=
  (raiseWith_frame (F := [.out, .regs, .portA, .portB, .evr]) (OnlyChanges.refl _ s) (by decide) (by decide) (by decide) (by decide) (by decide)).same .prog (by decide)
@[simp] theorem raiseWith_pat (n : Nat) (payload : List Byte) (origin : optParam Nat 10) : (raiseWith s n payload origin).pat = s.pat :=
  (raiseWith_frame (F := [.out, .regs, .portA, .portB, .evr]) (OnlyChanges.refl _ s) (by decide) (by decide) (by decide) (by decide) (by decide)).same .pat (by decide)
@[simp] theorem raiseWith_mem (n : Nat) (payload : List Byte) (origin : optParam Nat 10) : (raiseWith s n payload origin).mem = s.mem :=
  (raiseWith_frame (F := [.out, .regs, .portA, .portB, .evr]) (OnlyChanges.refl _ s) (by decide) (by decide) (by decide) (by decide) (by decide)).same .mem (by decide)

@[simp] theorem raise_pending (n : Nat) : (raise s n).pending = s.pending :=
  (raise_frame (F := [.out, .regs, .portA, .portB, .evr]) (OnlyChanges.refl _ s) (by decide) (by decide) (by decide) (by decide) (by decide)).same .pending (by decide)
@[simp] theorem raise_clk (n : Nat) : (raise s n).clk = s.clk :=
  (raise_frame (F := [.out, .regs, .portA, .portB, .evr]) (OnlyChanges.refl _ s) (by decide) (by decide) (by decide) (by decide) (by decide)).same .clk (by decide)
@[simp] theorem raise_thm (n : Nat) : (raise s n).thm = s.thm :=
  (raise_frame (F := [.out, .regs, .portA, .portB, .evr]) (OnlyChanges.refl _ s) (by decide) (by decide) (by decide) (by decide) (by decide)).same .thm (by decide)
@[simp] theorem raise_pwr (n : Nat) : (raise s n).pwr = s.pwr :=
  (raise_frame (F := [.out, .regs, .portA, .portB, .evr]) (OnlyChanges.refl _ s) (by decide) (by decide) (by decide) (by decide) (by decide)).same .pwr (by decide)
@[simp] theorem raise_chip (n : Nat) : (raise s n).chip = s.chip :=
  (raise_frame (F := [.out, .regs, .portA, .portB, .evr]) (OnlyChanges.refl _ s) (by decide) (by decide) (by decide) (by decide) (by decide)).same .chip (by decide)
@[simp] theorem raise_ring (n : Nat) : (raise s n).ring = s.ring :=
  (raise_frame (F := [.out, .regs, .portA, .portB, .evr]) (OnlyChanges.refl _ s) (by decide) (by decide) (by decide) (by decide) (by decide)).same .ring (by decide)
@[simp] theorem raise_sec (n : Nat) : (raise s n).sec = s.sec :=
  (raise_frame (F := [.out, .regs, .portA, .portB, .evr]) (OnlyChanges.refl _ s) (by decide) (by decide) (by decide) (by decide) (by decide)).same .sec (by decide)
@[simp] theorem raise_cry (n : Nat) : (raise s n).cry = s.cry :=
  (raise_frame (F := [.out, .regs, .portA, .portB, .evr]) (OnlyChanges.refl _ s) (by decide) (by decide) (by decide) (by decide) (by decide)).same .cry (by decide)
@[simp] theorem raise_boot (n : Nat) : (raise s n).boot = s.boot :=
  (raise_frame (F := [.out, .regs, .portA, .portB, .evr]) (OnlyChanges.refl _ s) (by decide) (by decide) (by decide) (by decide) (by decide)).same .boot (by decide)
@[simp] theorem raise_dram (n : Nat) : (raise s n).dram = s.dram :=
  (raise_frame (F := [.out, .regs, .portA, .portB, .evr]) (OnlyChanges.refl _ s) (by decide) (by decide) (by decide) (by decide) (by decide)).same .dram (by decide)
@[simp] theorem raise_phc (n : Nat) : (raise s n).phc = s.phc :=
  (raise_frame (F := [.out, .regs, .portA, .portB, .evr]) (OnlyChanges.refl _ s) (by decide) (by decide) (by decide) (by decide) (by decide)).same .phc (by decide)
@[simp] theorem raise_map (n : Nat) : (raise s n).map = s.map :=
  (raise_frame (F := [.out, .regs, .portA, .portB, .evr]) (OnlyChanges.refl _ s) (by decide) (by decide) (by decide) (by decide) (by decide)).same .map (by decide)
@[simp] theorem raise_flash (n : Nat) : (raise s n).flash = s.flash :=
  (raise_frame (F := [.out, .regs, .portA, .portB, .evr]) (OnlyChanges.refl _ s) (by decide) (by decide) (by decide) (by decide) (by decide)).same .flash (by decide)
@[simp] theorem raise_jrc (n : Nat) : (raise s n).jrc = s.jrc :=
  (raise_frame (F := [.out, .regs, .portA, .portB, .evr]) (OnlyChanges.refl _ s) (by decide) (by decide) (by decide) (by decide) (by decide)).same .jrc (by decide)
@[simp] theorem raise_srt (n : Nat) : (raise s n).srt = s.srt :=
  (raise_frame (F := [.out, .regs, .portA, .portB, .evr]) (OnlyChanges.refl _ s) (by decide) (by decide) (by decide) (by decide) (by decide)).same .srt (by decide)
@[simp] theorem raise_prog (n : Nat) : (raise s n).prog = s.prog :=
  (raise_frame (F := [.out, .regs, .portA, .portB, .evr]) (OnlyChanges.refl _ s) (by decide) (by decide) (by decide) (by decide) (by decide)).same .prog (by decide)
@[simp] theorem raise_pat (n : Nat) : (raise s n).pat = s.pat :=
  (raise_frame (F := [.out, .regs, .portA, .portB, .evr]) (OnlyChanges.refl _ s) (by decide) (by decide) (by decide) (by decide) (by decide)).same .pat (by decide)
@[simp] theorem raise_mem (n : Nat) : (raise s n).mem = s.mem :=
  (raise_frame (F := [.out, .regs, .portA, .portB, .evr]) (OnlyChanges.refl _ s) (by decide) (by decide) (by decide) (by decide) (by decide)).same .mem (by decide)

@[simp] theorem setCause_pending (a : Nat) (bit : Nat) (src : Nat) : (setCause s a bit src).pending = s.pending :=
  (setCause_frame (F := [.out, .regs, .portA, .portB, .evr]) (OnlyChanges.refl _ s) (by decide) (by decide) (by decide) (by decide) (by decide)).same .pending (by decide)
@[simp] theorem setCause_clk (a : Nat) (bit : Nat) (src : Nat) : (setCause s a bit src).clk = s.clk :=
  (setCause_frame (F := [.out, .regs, .portA, .portB, .evr]) (OnlyChanges.refl _ s) (by decide) (by decide) (by decide) (by decide) (by decide)).same .clk (by decide)
@[simp] theorem setCause_thm (a : Nat) (bit : Nat) (src : Nat) : (setCause s a bit src).thm = s.thm :=
  (setCause_frame (F := [.out, .regs, .portA, .portB, .evr]) (OnlyChanges.refl _ s) (by decide) (by decide) (by decide) (by decide) (by decide)).same .thm (by decide)
@[simp] theorem setCause_pwr (a : Nat) (bit : Nat) (src : Nat) : (setCause s a bit src).pwr = s.pwr :=
  (setCause_frame (F := [.out, .regs, .portA, .portB, .evr]) (OnlyChanges.refl _ s) (by decide) (by decide) (by decide) (by decide) (by decide)).same .pwr (by decide)
@[simp] theorem setCause_chip (a : Nat) (bit : Nat) (src : Nat) : (setCause s a bit src).chip = s.chip :=
  (setCause_frame (F := [.out, .regs, .portA, .portB, .evr]) (OnlyChanges.refl _ s) (by decide) (by decide) (by decide) (by decide) (by decide)).same .chip (by decide)
@[simp] theorem setCause_ring (a : Nat) (bit : Nat) (src : Nat) : (setCause s a bit src).ring = s.ring :=
  (setCause_frame (F := [.out, .regs, .portA, .portB, .evr]) (OnlyChanges.refl _ s) (by decide) (by decide) (by decide) (by decide) (by decide)).same .ring (by decide)
@[simp] theorem setCause_sec (a : Nat) (bit : Nat) (src : Nat) : (setCause s a bit src).sec = s.sec :=
  (setCause_frame (F := [.out, .regs, .portA, .portB, .evr]) (OnlyChanges.refl _ s) (by decide) (by decide) (by decide) (by decide) (by decide)).same .sec (by decide)
@[simp] theorem setCause_cry (a : Nat) (bit : Nat) (src : Nat) : (setCause s a bit src).cry = s.cry :=
  (setCause_frame (F := [.out, .regs, .portA, .portB, .evr]) (OnlyChanges.refl _ s) (by decide) (by decide) (by decide) (by decide) (by decide)).same .cry (by decide)
@[simp] theorem setCause_boot (a : Nat) (bit : Nat) (src : Nat) : (setCause s a bit src).boot = s.boot :=
  (setCause_frame (F := [.out, .regs, .portA, .portB, .evr]) (OnlyChanges.refl _ s) (by decide) (by decide) (by decide) (by decide) (by decide)).same .boot (by decide)
@[simp] theorem setCause_dram (a : Nat) (bit : Nat) (src : Nat) : (setCause s a bit src).dram = s.dram :=
  (setCause_frame (F := [.out, .regs, .portA, .portB, .evr]) (OnlyChanges.refl _ s) (by decide) (by decide) (by decide) (by decide) (by decide)).same .dram (by decide)
@[simp] theorem setCause_phc (a : Nat) (bit : Nat) (src : Nat) : (setCause s a bit src).phc = s.phc :=
  (setCause_frame (F := [.out, .regs, .portA, .portB, .evr]) (OnlyChanges.refl _ s) (by decide) (by decide) (by decide) (by decide) (by decide)).same .phc (by decide)
@[simp] theorem setCause_map (a : Nat) (bit : Nat) (src : Nat) : (setCause s a bit src).map = s.map :=
  (setCause_frame (F := [.out, .regs, .portA, .portB, .evr]) (OnlyChanges.refl _ s) (by decide) (by decide) (by decide) (by decide) (by decide)).same .map (by decide)
@[simp] theorem setCause_flash (a : Nat) (bit : Nat) (src : Nat) : (setCause s a bit src).flash = s.flash :=
  (setCause_frame (F := [.out, .regs, .portA, .portB, .evr]) (OnlyChanges.refl _ s) (by decide) (by decide) (by decide) (by decide) (by decide)).same .flash (by decide)
@[simp] theorem setCause_jrc (a : Nat) (bit : Nat) (src : Nat) : (setCause s a bit src).jrc = s.jrc :=
  (setCause_frame (F := [.out, .regs, .portA, .portB, .evr]) (OnlyChanges.refl _ s) (by decide) (by decide) (by decide) (by decide) (by decide)).same .jrc (by decide)
@[simp] theorem setCause_srt (a : Nat) (bit : Nat) (src : Nat) : (setCause s a bit src).srt = s.srt :=
  (setCause_frame (F := [.out, .regs, .portA, .portB, .evr]) (OnlyChanges.refl _ s) (by decide) (by decide) (by decide) (by decide) (by decide)).same .srt (by decide)
@[simp] theorem setCause_prog (a : Nat) (bit : Nat) (src : Nat) : (setCause s a bit src).prog = s.prog :=
  (setCause_frame (F := [.out, .regs, .portA, .portB, .evr]) (OnlyChanges.refl _ s) (by decide) (by decide) (by decide) (by decide) (by decide)).same .prog (by decide)
@[simp] theorem setCause_pat (a : Nat) (bit : Nat) (src : Nat) : (setCause s a bit src).pat = s.pat :=
  (setCause_frame (F := [.out, .regs, .portA, .portB, .evr]) (OnlyChanges.refl _ s) (by decide) (by decide) (by decide) (by decide) (by decide)).same .pat (by decide)
@[simp] theorem setCause_mem (a : Nat) (bit : Nat) (src : Nat) : (setCause s a bit src).mem = s.mem :=
  (setCause_frame (F := [.out, .regs, .portA, .portB, .evr]) (OnlyChanges.refl _ s) (by decide) (by decide) (by decide) (by decide) (by decide)).same .mem (by decide)

@[simp] theorem accessFault_pending (b : Blk) (u : Nat) (bit : Nat) (kind : Nat) (init : Nat) (off : Nat) : (accessFault s b u bit kind init off).pending = s.pending :=
  (accessFault_frame (F := [.out, .regs, .portA, .portB, .evr]) (OnlyChanges.refl _ s) (by decide) (by decide) (by decide) (by decide) (by decide)).same .pending (by decide)
@[simp] theorem accessFault_clk (b : Blk) (u : Nat) (bit : Nat) (kind : Nat) (init : Nat) (off : Nat) : (accessFault s b u bit kind init off).clk = s.clk :=
  (accessFault_frame (F := [.out, .regs, .portA, .portB, .evr]) (OnlyChanges.refl _ s) (by decide) (by decide) (by decide) (by decide) (by decide)).same .clk (by decide)
@[simp] theorem accessFault_thm (b : Blk) (u : Nat) (bit : Nat) (kind : Nat) (init : Nat) (off : Nat) : (accessFault s b u bit kind init off).thm = s.thm :=
  (accessFault_frame (F := [.out, .regs, .portA, .portB, .evr]) (OnlyChanges.refl _ s) (by decide) (by decide) (by decide) (by decide) (by decide)).same .thm (by decide)
@[simp] theorem accessFault_pwr (b : Blk) (u : Nat) (bit : Nat) (kind : Nat) (init : Nat) (off : Nat) : (accessFault s b u bit kind init off).pwr = s.pwr :=
  (accessFault_frame (F := [.out, .regs, .portA, .portB, .evr]) (OnlyChanges.refl _ s) (by decide) (by decide) (by decide) (by decide) (by decide)).same .pwr (by decide)
@[simp] theorem accessFault_chip (b : Blk) (u : Nat) (bit : Nat) (kind : Nat) (init : Nat) (off : Nat) : (accessFault s b u bit kind init off).chip = s.chip :=
  (accessFault_frame (F := [.out, .regs, .portA, .portB, .evr]) (OnlyChanges.refl _ s) (by decide) (by decide) (by decide) (by decide) (by decide)).same .chip (by decide)
@[simp] theorem accessFault_ring (b : Blk) (u : Nat) (bit : Nat) (kind : Nat) (init : Nat) (off : Nat) : (accessFault s b u bit kind init off).ring = s.ring :=
  (accessFault_frame (F := [.out, .regs, .portA, .portB, .evr]) (OnlyChanges.refl _ s) (by decide) (by decide) (by decide) (by decide) (by decide)).same .ring (by decide)
@[simp] theorem accessFault_sec (b : Blk) (u : Nat) (bit : Nat) (kind : Nat) (init : Nat) (off : Nat) : (accessFault s b u bit kind init off).sec = s.sec :=
  (accessFault_frame (F := [.out, .regs, .portA, .portB, .evr]) (OnlyChanges.refl _ s) (by decide) (by decide) (by decide) (by decide) (by decide)).same .sec (by decide)
@[simp] theorem accessFault_cry (b : Blk) (u : Nat) (bit : Nat) (kind : Nat) (init : Nat) (off : Nat) : (accessFault s b u bit kind init off).cry = s.cry :=
  (accessFault_frame (F := [.out, .regs, .portA, .portB, .evr]) (OnlyChanges.refl _ s) (by decide) (by decide) (by decide) (by decide) (by decide)).same .cry (by decide)
@[simp] theorem accessFault_boot (b : Blk) (u : Nat) (bit : Nat) (kind : Nat) (init : Nat) (off : Nat) : (accessFault s b u bit kind init off).boot = s.boot :=
  (accessFault_frame (F := [.out, .regs, .portA, .portB, .evr]) (OnlyChanges.refl _ s) (by decide) (by decide) (by decide) (by decide) (by decide)).same .boot (by decide)
@[simp] theorem accessFault_dram (b : Blk) (u : Nat) (bit : Nat) (kind : Nat) (init : Nat) (off : Nat) : (accessFault s b u bit kind init off).dram = s.dram :=
  (accessFault_frame (F := [.out, .regs, .portA, .portB, .evr]) (OnlyChanges.refl _ s) (by decide) (by decide) (by decide) (by decide) (by decide)).same .dram (by decide)
@[simp] theorem accessFault_phc (b : Blk) (u : Nat) (bit : Nat) (kind : Nat) (init : Nat) (off : Nat) : (accessFault s b u bit kind init off).phc = s.phc :=
  (accessFault_frame (F := [.out, .regs, .portA, .portB, .evr]) (OnlyChanges.refl _ s) (by decide) (by decide) (by decide) (by decide) (by decide)).same .phc (by decide)
@[simp] theorem accessFault_map (b : Blk) (u : Nat) (bit : Nat) (kind : Nat) (init : Nat) (off : Nat) : (accessFault s b u bit kind init off).map = s.map :=
  (accessFault_frame (F := [.out, .regs, .portA, .portB, .evr]) (OnlyChanges.refl _ s) (by decide) (by decide) (by decide) (by decide) (by decide)).same .map (by decide)
@[simp] theorem accessFault_flash (b : Blk) (u : Nat) (bit : Nat) (kind : Nat) (init : Nat) (off : Nat) : (accessFault s b u bit kind init off).flash = s.flash :=
  (accessFault_frame (F := [.out, .regs, .portA, .portB, .evr]) (OnlyChanges.refl _ s) (by decide) (by decide) (by decide) (by decide) (by decide)).same .flash (by decide)
@[simp] theorem accessFault_jrc (b : Blk) (u : Nat) (bit : Nat) (kind : Nat) (init : Nat) (off : Nat) : (accessFault s b u bit kind init off).jrc = s.jrc :=
  (accessFault_frame (F := [.out, .regs, .portA, .portB, .evr]) (OnlyChanges.refl _ s) (by decide) (by decide) (by decide) (by decide) (by decide)).same .jrc (by decide)
@[simp] theorem accessFault_srt (b : Blk) (u : Nat) (bit : Nat) (kind : Nat) (init : Nat) (off : Nat) : (accessFault s b u bit kind init off).srt = s.srt :=
  (accessFault_frame (F := [.out, .regs, .portA, .portB, .evr]) (OnlyChanges.refl _ s) (by decide) (by decide) (by decide) (by decide) (by decide)).same .srt (by decide)
@[simp] theorem accessFault_prog (b : Blk) (u : Nat) (bit : Nat) (kind : Nat) (init : Nat) (off : Nat) : (accessFault s b u bit kind init off).prog = s.prog :=
  (accessFault_frame (F := [.out, .regs, .portA, .portB, .evr]) (OnlyChanges.refl _ s) (by decide) (by decide) (by decide) (by decide) (by decide)).same .prog (by decide)
@[simp] theorem accessFault_pat (b : Blk) (u : Nat) (bit : Nat) (kind : Nat) (init : Nat) (off : Nat) : (accessFault s b u bit kind init off).pat = s.pat :=
  (accessFault_frame (F := [.out, .regs, .portA, .portB, .evr]) (OnlyChanges.refl _ s) (by decide) (by decide) (by decide) (by decide) (by decide)).same .pat (by decide)
@[simp] theorem accessFault_mem (b : Blk) (u : Nat) (bit : Nat) (kind : Nat) (init : Nat) (off : Nat) : (accessFault s b u bit kind init off).mem = s.mem :=
  (accessFault_frame (F := [.out, .regs, .portA, .portB, .evr]) (OnlyChanges.refl _ s) (by decide) (by decide) (by decide) (by decide) (by decide)).same .mem (by decide)

@[simp] theorem cqInterrupt_pending (p : Port) (cqid : Nat) (q : Cq) : (cqInterrupt s p cqid q).pending = s.pending :=
  (cqInterrupt_frame (F := [.out, .portA, .portB]) (OnlyChanges.refl _ s) (by decide) (by decide) (by decide)).same .pending (by decide)
@[simp] theorem cqInterrupt_clk (p : Port) (cqid : Nat) (q : Cq) : (cqInterrupt s p cqid q).clk = s.clk :=
  (cqInterrupt_frame (F := [.out, .portA, .portB]) (OnlyChanges.refl _ s) (by decide) (by decide) (by decide)).same .clk (by decide)
@[simp] theorem cqInterrupt_regs (p : Port) (cqid : Nat) (q : Cq) : (cqInterrupt s p cqid q).regs = s.regs :=
  (cqInterrupt_frame (F := [.out, .portA, .portB]) (OnlyChanges.refl _ s) (by decide) (by decide) (by decide)).same .regs (by decide)
@[simp] theorem cqInterrupt_evr (p : Port) (cqid : Nat) (q : Cq) : (cqInterrupt s p cqid q).evr = s.evr :=
  (cqInterrupt_frame (F := [.out, .portA, .portB]) (OnlyChanges.refl _ s) (by decide) (by decide) (by decide)).same .evr (by decide)
@[simp] theorem cqInterrupt_thm (p : Port) (cqid : Nat) (q : Cq) : (cqInterrupt s p cqid q).thm = s.thm :=
  (cqInterrupt_frame (F := [.out, .portA, .portB]) (OnlyChanges.refl _ s) (by decide) (by decide) (by decide)).same .thm (by decide)
@[simp] theorem cqInterrupt_pwr (p : Port) (cqid : Nat) (q : Cq) : (cqInterrupt s p cqid q).pwr = s.pwr :=
  (cqInterrupt_frame (F := [.out, .portA, .portB]) (OnlyChanges.refl _ s) (by decide) (by decide) (by decide)).same .pwr (by decide)
@[simp] theorem cqInterrupt_chip (p : Port) (cqid : Nat) (q : Cq) : (cqInterrupt s p cqid q).chip = s.chip :=
  (cqInterrupt_frame (F := [.out, .portA, .portB]) (OnlyChanges.refl _ s) (by decide) (by decide) (by decide)).same .chip (by decide)
@[simp] theorem cqInterrupt_ring (p : Port) (cqid : Nat) (q : Cq) : (cqInterrupt s p cqid q).ring = s.ring :=
  (cqInterrupt_frame (F := [.out, .portA, .portB]) (OnlyChanges.refl _ s) (by decide) (by decide) (by decide)).same .ring (by decide)
@[simp] theorem cqInterrupt_sec (p : Port) (cqid : Nat) (q : Cq) : (cqInterrupt s p cqid q).sec = s.sec :=
  (cqInterrupt_frame (F := [.out, .portA, .portB]) (OnlyChanges.refl _ s) (by decide) (by decide) (by decide)).same .sec (by decide)
@[simp] theorem cqInterrupt_cry (p : Port) (cqid : Nat) (q : Cq) : (cqInterrupt s p cqid q).cry = s.cry :=
  (cqInterrupt_frame (F := [.out, .portA, .portB]) (OnlyChanges.refl _ s) (by decide) (by decide) (by decide)).same .cry (by decide)
@[simp] theorem cqInterrupt_boot (p : Port) (cqid : Nat) (q : Cq) : (cqInterrupt s p cqid q).boot = s.boot :=
  (cqInterrupt_frame (F := [.out, .portA, .portB]) (OnlyChanges.refl _ s) (by decide) (by decide) (by decide)).same .boot (by decide)
@[simp] theorem cqInterrupt_dram (p : Port) (cqid : Nat) (q : Cq) : (cqInterrupt s p cqid q).dram = s.dram :=
  (cqInterrupt_frame (F := [.out, .portA, .portB]) (OnlyChanges.refl _ s) (by decide) (by decide) (by decide)).same .dram (by decide)
@[simp] theorem cqInterrupt_phc (p : Port) (cqid : Nat) (q : Cq) : (cqInterrupt s p cqid q).phc = s.phc :=
  (cqInterrupt_frame (F := [.out, .portA, .portB]) (OnlyChanges.refl _ s) (by decide) (by decide) (by decide)).same .phc (by decide)
@[simp] theorem cqInterrupt_map (p : Port) (cqid : Nat) (q : Cq) : (cqInterrupt s p cqid q).map = s.map :=
  (cqInterrupt_frame (F := [.out, .portA, .portB]) (OnlyChanges.refl _ s) (by decide) (by decide) (by decide)).same .map (by decide)
@[simp] theorem cqInterrupt_flash (p : Port) (cqid : Nat) (q : Cq) : (cqInterrupt s p cqid q).flash = s.flash :=
  (cqInterrupt_frame (F := [.out, .portA, .portB]) (OnlyChanges.refl _ s) (by decide) (by decide) (by decide)).same .flash (by decide)
@[simp] theorem cqInterrupt_jrc (p : Port) (cqid : Nat) (q : Cq) : (cqInterrupt s p cqid q).jrc = s.jrc :=
  (cqInterrupt_frame (F := [.out, .portA, .portB]) (OnlyChanges.refl _ s) (by decide) (by decide) (by decide)).same .jrc (by decide)
@[simp] theorem cqInterrupt_srt (p : Port) (cqid : Nat) (q : Cq) : (cqInterrupt s p cqid q).srt = s.srt :=
  (cqInterrupt_frame (F := [.out, .portA, .portB]) (OnlyChanges.refl _ s) (by decide) (by decide) (by decide)).same .srt (by decide)
@[simp] theorem cqInterrupt_prog (p : Port) (cqid : Nat) (q : Cq) : (cqInterrupt s p cqid q).prog = s.prog :=
  (cqInterrupt_frame (F := [.out, .portA, .portB]) (OnlyChanges.refl _ s) (by decide) (by decide) (by decide)).same .prog (by decide)
@[simp] theorem cqInterrupt_pat (p : Port) (cqid : Nat) (q : Cq) : (cqInterrupt s p cqid q).pat = s.pat :=
  (cqInterrupt_frame (F := [.out, .portA, .portB]) (OnlyChanges.refl _ s) (by decide) (by decide) (by decide)).same .pat (by decide)
@[simp] theorem cqInterrupt_mem (p : Port) (cqid : Nat) (q : Cq) : (cqInterrupt s p cqid q).mem = s.mem :=
  (cqInterrupt_frame (F := [.out, .portA, .portB]) (OnlyChanges.refl _ s) (by decide) (by decide) (by decide)).same .mem (by decide)

@[simp] theorem placeCompl_pending (p : Port) (cqid : Nat) (q : Cq) (c : Compl) : (placeCompl s p cqid q c).pending = s.pending :=
  (placeCompl_frame (F := [.out, .regs, .portA, .portB, .evr]) (OnlyChanges.refl _ s) (by decide) (by decide) (by decide) (by decide) (by decide)).same .pending (by decide)
@[simp] theorem placeCompl_clk (p : Port) (cqid : Nat) (q : Cq) (c : Compl) : (placeCompl s p cqid q c).clk = s.clk :=
  (placeCompl_frame (F := [.out, .regs, .portA, .portB, .evr]) (OnlyChanges.refl _ s) (by decide) (by decide) (by decide) (by decide) (by decide)).same .clk (by decide)
@[simp] theorem placeCompl_thm (p : Port) (cqid : Nat) (q : Cq) (c : Compl) : (placeCompl s p cqid q c).thm = s.thm :=
  (placeCompl_frame (F := [.out, .regs, .portA, .portB, .evr]) (OnlyChanges.refl _ s) (by decide) (by decide) (by decide) (by decide) (by decide)).same .thm (by decide)
@[simp] theorem placeCompl_pwr (p : Port) (cqid : Nat) (q : Cq) (c : Compl) : (placeCompl s p cqid q c).pwr = s.pwr :=
  (placeCompl_frame (F := [.out, .regs, .portA, .portB, .evr]) (OnlyChanges.refl _ s) (by decide) (by decide) (by decide) (by decide) (by decide)).same .pwr (by decide)
@[simp] theorem placeCompl_chip (p : Port) (cqid : Nat) (q : Cq) (c : Compl) : (placeCompl s p cqid q c).chip = s.chip :=
  (placeCompl_frame (F := [.out, .regs, .portA, .portB, .evr]) (OnlyChanges.refl _ s) (by decide) (by decide) (by decide) (by decide) (by decide)).same .chip (by decide)
@[simp] theorem placeCompl_ring (p : Port) (cqid : Nat) (q : Cq) (c : Compl) : (placeCompl s p cqid q c).ring = s.ring :=
  (placeCompl_frame (F := [.out, .regs, .portA, .portB, .evr]) (OnlyChanges.refl _ s) (by decide) (by decide) (by decide) (by decide) (by decide)).same .ring (by decide)
@[simp] theorem placeCompl_sec (p : Port) (cqid : Nat) (q : Cq) (c : Compl) : (placeCompl s p cqid q c).sec = s.sec :=
  (placeCompl_frame (F := [.out, .regs, .portA, .portB, .evr]) (OnlyChanges.refl _ s) (by decide) (by decide) (by decide) (by decide) (by decide)).same .sec (by decide)
@[simp] theorem placeCompl_cry (p : Port) (cqid : Nat) (q : Cq) (c : Compl) : (placeCompl s p cqid q c).cry = s.cry :=
  (placeCompl_frame (F := [.out, .regs, .portA, .portB, .evr]) (OnlyChanges.refl _ s) (by decide) (by decide) (by decide) (by decide) (by decide)).same .cry (by decide)
@[simp] theorem placeCompl_boot (p : Port) (cqid : Nat) (q : Cq) (c : Compl) : (placeCompl s p cqid q c).boot = s.boot :=
  (placeCompl_frame (F := [.out, .regs, .portA, .portB, .evr]) (OnlyChanges.refl _ s) (by decide) (by decide) (by decide) (by decide) (by decide)).same .boot (by decide)
@[simp] theorem placeCompl_dram (p : Port) (cqid : Nat) (q : Cq) (c : Compl) : (placeCompl s p cqid q c).dram = s.dram :=
  (placeCompl_frame (F := [.out, .regs, .portA, .portB, .evr]) (OnlyChanges.refl _ s) (by decide) (by decide) (by decide) (by decide) (by decide)).same .dram (by decide)
@[simp] theorem placeCompl_phc (p : Port) (cqid : Nat) (q : Cq) (c : Compl) : (placeCompl s p cqid q c).phc = s.phc :=
  (placeCompl_frame (F := [.out, .regs, .portA, .portB, .evr]) (OnlyChanges.refl _ s) (by decide) (by decide) (by decide) (by decide) (by decide)).same .phc (by decide)
@[simp] theorem placeCompl_map (p : Port) (cqid : Nat) (q : Cq) (c : Compl) : (placeCompl s p cqid q c).map = s.map :=
  (placeCompl_frame (F := [.out, .regs, .portA, .portB, .evr]) (OnlyChanges.refl _ s) (by decide) (by decide) (by decide) (by decide) (by decide)).same .map (by decide)
@[simp] theorem placeCompl_flash (p : Port) (cqid : Nat) (q : Cq) (c : Compl) : (placeCompl s p cqid q c).flash = s.flash :=
  (placeCompl_frame (F := [.out, .regs, .portA, .portB, .evr]) (OnlyChanges.refl _ s) (by decide) (by decide) (by decide) (by decide) (by decide)).same .flash (by decide)
@[simp] theorem placeCompl_jrc (p : Port) (cqid : Nat) (q : Cq) (c : Compl) : (placeCompl s p cqid q c).jrc = s.jrc :=
  (placeCompl_frame (F := [.out, .regs, .portA, .portB, .evr]) (OnlyChanges.refl _ s) (by decide) (by decide) (by decide) (by decide) (by decide)).same .jrc (by decide)
@[simp] theorem placeCompl_srt (p : Port) (cqid : Nat) (q : Cq) (c : Compl) : (placeCompl s p cqid q c).srt = s.srt :=
  (placeCompl_frame (F := [.out, .regs, .portA, .portB, .evr]) (OnlyChanges.refl _ s) (by decide) (by decide) (by decide) (by decide) (by decide)).same .srt (by decide)
@[simp] theorem placeCompl_prog (p : Port) (cqid : Nat) (q : Cq) (c : Compl) : (placeCompl s p cqid q c).prog = s.prog :=
  (placeCompl_frame (F := [.out, .regs, .portA, .portB, .evr]) (OnlyChanges.refl _ s) (by decide) (by decide) (by decide) (by decide) (by decide)).same .prog (by decide)
@[simp] theorem placeCompl_pat (p : Port) (cqid : Nat) (q : Cq) (c : Compl) : (placeCompl s p cqid q c).pat = s.pat :=
  (placeCompl_frame (F := [.out, .regs, .portA, .portB, .evr]) (OnlyChanges.refl _ s) (by decide) (by decide) (by decide) (by decide) (by decide)).same .pat (by decide)
@[simp] theorem placeCompl_mem (p : Port) (cqid : Nat) (q : Cq) (c : Compl) : (placeCompl s p cqid q c).mem = s.mem :=
  (placeCompl_frame (F := [.out, .regs, .portA, .portB, .evr]) (OnlyChanges.refl _ s) (by decide) (by decide) (by decide) (by decide) (by decide)).same .mem (by decide)

@[simp] theorem post_pending (c : Compl) : (post s c).pending = s.pending :=
  (post_frame (F := [.out, .regs, .portA, .portB, .evr]) (OnlyChanges.refl _ s) (by decide) (by decide) (by decide) (by decide) (by decide)).same .pending (by decide)
@[simp] theorem post_clk (c : Compl) : (post s c).clk = s.clk :=
  (post_frame (F := [.out, .regs, .portA, .portB, .evr]) (OnlyChanges.refl _ s) (by decide) (by decide) (by decide) (by decide) (by decide)).same .clk (by decide)
@[simp] theorem post_thm (c : Compl) : (post s c).thm = s.thm :=
  (post_frame (F := [.out, .regs, .portA, .portB, .evr]) (OnlyChanges.refl _ s) (by decide) (by decide) (by decide) (by decide) (by decide)).same .thm (by decide)
@[simp] theorem post_pwr (c : Compl) : (post s c).pwr = s.pwr :=
  (post_frame (F := [.out, .regs, .portA, .portB, .evr]) (OnlyChanges.refl _ s) (by decide) (by decide) (by decide) (by decide) (by decide)).same .pwr (by decide)
@[simp] theorem post_chip (c : Compl) : (post s c).chip = s.chip :=
  (post_frame (F := [.out, .regs, .portA, .portB, .evr]) (OnlyChanges.refl _ s) (by decide) (by decide) (by decide) (by decide) (by decide)).same .chip (by decide)
@[simp] theorem post_ring (c : Compl) : (post s c).ring = s.ring :=
  (post_frame (F := [.out, .regs, .portA, .portB, .evr]) (OnlyChanges.refl _ s) (by decide) (by decide) (by decide) (by decide) (by decide)).same .ring (by decide)
@[simp] theorem post_sec (c : Compl) : (post s c).sec = s.sec :=
  (post_frame (F := [.out, .regs, .portA, .portB, .evr]) (OnlyChanges.refl _ s) (by decide) (by decide) (by decide) (by decide) (by decide)).same .sec (by decide)
@[simp] theorem post_cry (c : Compl) : (post s c).cry = s.cry :=
  (post_frame (F := [.out, .regs, .portA, .portB, .evr]) (OnlyChanges.refl _ s) (by decide) (by decide) (by decide) (by decide) (by decide)).same .cry (by decide)
@[simp] theorem post_boot (c : Compl) : (post s c).boot = s.boot :=
  (post_frame (F := [.out, .regs, .portA, .portB, .evr]) (OnlyChanges.refl _ s) (by decide) (by decide) (by decide) (by decide) (by decide)).same .boot (by decide)
@[simp] theorem post_dram (c : Compl) : (post s c).dram = s.dram :=
  (post_frame (F := [.out, .regs, .portA, .portB, .evr]) (OnlyChanges.refl _ s) (by decide) (by decide) (by decide) (by decide) (by decide)).same .dram (by decide)
@[simp] theorem post_phc (c : Compl) : (post s c).phc = s.phc :=
  (post_frame (F := [.out, .regs, .portA, .portB, .evr]) (OnlyChanges.refl _ s) (by decide) (by decide) (by decide) (by decide) (by decide)).same .phc (by decide)
@[simp] theorem post_map (c : Compl) : (post s c).map = s.map :=
  (post_frame (F := [.out, .regs, .portA, .portB, .evr]) (OnlyChanges.refl _ s) (by decide) (by decide) (by decide) (by decide) (by decide)).same .map (by decide)
@[simp] theorem post_flash (c : Compl) : (post s c).flash = s.flash :=
  (post_frame (F := [.out, .regs, .portA, .portB, .evr]) (OnlyChanges.refl _ s) (by decide) (by decide) (by decide) (by decide) (by decide)).same .flash (by decide)
@[simp] theorem post_jrc (c : Compl) : (post s c).jrc = s.jrc :=
  (post_frame (F := [.out, .regs, .portA, .portB, .evr]) (OnlyChanges.refl _ s) (by decide) (by decide) (by decide) (by decide) (by decide)).same .jrc (by decide)
@[simp] theorem post_srt (c : Compl) : (post s c).srt = s.srt :=
  (post_frame (F := [.out, .regs, .portA, .portB, .evr]) (OnlyChanges.refl _ s) (by decide) (by decide) (by decide) (by decide) (by decide)).same .srt (by decide)
@[simp] theorem post_prog (c : Compl) : (post s c).prog = s.prog :=
  (post_frame (F := [.out, .regs, .portA, .portB, .evr]) (OnlyChanges.refl _ s) (by decide) (by decide) (by decide) (by decide) (by decide)).same .prog (by decide)
@[simp] theorem post_pat (c : Compl) : (post s c).pat = s.pat :=
  (post_frame (F := [.out, .regs, .portA, .portB, .evr]) (OnlyChanges.refl _ s) (by decide) (by decide) (by decide) (by decide) (by decide)).same .pat (by decide)
@[simp] theorem post_mem (c : Compl) : (post s c).mem = s.mem :=
  (post_frame (F := [.out, .regs, .portA, .portB, .evr]) (OnlyChanges.refl _ s) (by decide) (by decide) (by decide) (by decide) (by decide)).same .mem (by decide)

@[simp] theorem addError_pending (q : Sqe) (st : Status) (lba : Nat) (cs : Nat) : (addError s q st lba cs).pending = s.pending :=
  (addError_frame (F := [.portA, .portB]) (OnlyChanges.refl _ s) (by decide) (by decide)).same .pending (by decide)
@[simp] theorem addError_out (q : Sqe) (st : Status) (lba : Nat) (cs : Nat) : (addError s q st lba cs).out = s.out :=
  (addError_frame (F := [.portA, .portB]) (OnlyChanges.refl _ s) (by decide) (by decide)).same .out (by decide)
@[simp] theorem addError_clk (q : Sqe) (st : Status) (lba : Nat) (cs : Nat) : (addError s q st lba cs).clk = s.clk :=
  (addError_frame (F := [.portA, .portB]) (OnlyChanges.refl _ s) (by decide) (by decide)).same .clk (by decide)
@[simp] theorem addError_regs (q : Sqe) (st : Status) (lba : Nat) (cs : Nat) : (addError s q st lba cs).regs = s.regs :=
  (addError_frame (F := [.portA, .portB]) (OnlyChanges.refl _ s) (by decide) (by decide)).same .regs (by decide)
@[simp] theorem addError_evr (q : Sqe) (st : Status) (lba : Nat) (cs : Nat) : (addError s q st lba cs).evr = s.evr :=
  (addError_frame (F := [.portA, .portB]) (OnlyChanges.refl _ s) (by decide) (by decide)).same .evr (by decide)
@[simp] theorem addError_thm (q : Sqe) (st : Status) (lba : Nat) (cs : Nat) : (addError s q st lba cs).thm = s.thm :=
  (addError_frame (F := [.portA, .portB]) (OnlyChanges.refl _ s) (by decide) (by decide)).same .thm (by decide)
@[simp] theorem addError_pwr (q : Sqe) (st : Status) (lba : Nat) (cs : Nat) : (addError s q st lba cs).pwr = s.pwr :=
  (addError_frame (F := [.portA, .portB]) (OnlyChanges.refl _ s) (by decide) (by decide)).same .pwr (by decide)
@[simp] theorem addError_chip (q : Sqe) (st : Status) (lba : Nat) (cs : Nat) : (addError s q st lba cs).chip = s.chip :=
  (addError_frame (F := [.portA, .portB]) (OnlyChanges.refl _ s) (by decide) (by decide)).same .chip (by decide)
@[simp] theorem addError_ring (q : Sqe) (st : Status) (lba : Nat) (cs : Nat) : (addError s q st lba cs).ring = s.ring :=
  (addError_frame (F := [.portA, .portB]) (OnlyChanges.refl _ s) (by decide) (by decide)).same .ring (by decide)
@[simp] theorem addError_sec (q : Sqe) (st : Status) (lba : Nat) (cs : Nat) : (addError s q st lba cs).sec = s.sec :=
  (addError_frame (F := [.portA, .portB]) (OnlyChanges.refl _ s) (by decide) (by decide)).same .sec (by decide)
@[simp] theorem addError_cry (q : Sqe) (st : Status) (lba : Nat) (cs : Nat) : (addError s q st lba cs).cry = s.cry :=
  (addError_frame (F := [.portA, .portB]) (OnlyChanges.refl _ s) (by decide) (by decide)).same .cry (by decide)
@[simp] theorem addError_boot (q : Sqe) (st : Status) (lba : Nat) (cs : Nat) : (addError s q st lba cs).boot = s.boot :=
  (addError_frame (F := [.portA, .portB]) (OnlyChanges.refl _ s) (by decide) (by decide)).same .boot (by decide)
@[simp] theorem addError_dram (q : Sqe) (st : Status) (lba : Nat) (cs : Nat) : (addError s q st lba cs).dram = s.dram :=
  (addError_frame (F := [.portA, .portB]) (OnlyChanges.refl _ s) (by decide) (by decide)).same .dram (by decide)
@[simp] theorem addError_phc (q : Sqe) (st : Status) (lba : Nat) (cs : Nat) : (addError s q st lba cs).phc = s.phc :=
  (addError_frame (F := [.portA, .portB]) (OnlyChanges.refl _ s) (by decide) (by decide)).same .phc (by decide)
@[simp] theorem addError_map (q : Sqe) (st : Status) (lba : Nat) (cs : Nat) : (addError s q st lba cs).map = s.map :=
  (addError_frame (F := [.portA, .portB]) (OnlyChanges.refl _ s) (by decide) (by decide)).same .map (by decide)
@[simp] theorem addError_flash (q : Sqe) (st : Status) (lba : Nat) (cs : Nat) : (addError s q st lba cs).flash = s.flash :=
  (addError_frame (F := [.portA, .portB]) (OnlyChanges.refl _ s) (by decide) (by decide)).same .flash (by decide)
@[simp] theorem addError_jrc (q : Sqe) (st : Status) (lba : Nat) (cs : Nat) : (addError s q st lba cs).jrc = s.jrc :=
  (addError_frame (F := [.portA, .portB]) (OnlyChanges.refl _ s) (by decide) (by decide)).same .jrc (by decide)
@[simp] theorem addError_srt (q : Sqe) (st : Status) (lba : Nat) (cs : Nat) : (addError s q st lba cs).srt = s.srt :=
  (addError_frame (F := [.portA, .portB]) (OnlyChanges.refl _ s) (by decide) (by decide)).same .srt (by decide)
@[simp] theorem addError_prog (q : Sqe) (st : Status) (lba : Nat) (cs : Nat) : (addError s q st lba cs).prog = s.prog :=
  (addError_frame (F := [.portA, .portB]) (OnlyChanges.refl _ s) (by decide) (by decide)).same .prog (by decide)
@[simp] theorem addError_pat (q : Sqe) (st : Status) (lba : Nat) (cs : Nat) : (addError s q st lba cs).pat = s.pat :=
  (addError_frame (F := [.portA, .portB]) (OnlyChanges.refl _ s) (by decide) (by decide)).same .pat (by decide)
@[simp] theorem addError_mem (q : Sqe) (st : Status) (lba : Nat) (cs : Nat) : (addError s q st lba cs).mem = s.mem :=
  (addError_frame (F := [.portA, .portB]) (OnlyChanges.refl _ s) (by decide) (by decide)).same .mem (by decide)

@[simp] theorem complete_pending (q : Sqe) (st : Status) (dw0 : optParam Nat 0) (lba : optParam Nat 0) (cs : optParam Nat 0) : (complete s q st dw0 lba cs).pending = s.pending :=
  (complete_frame (F := [.out, .regs, .portA, .portB, .evr]) (OnlyChanges.refl _ s) (by decide) (by decide) (by decide) (by decide) (by decide)).same .pending (by decide)
@[simp] theorem complete_clk (q : Sqe) (st : Status) (dw0 : optParam Nat 0) (lba : optParam Nat 0) (cs : optParam Nat 0) : (complete s q st dw0 lba cs).clk = s.clk :=
  (complete_frame (F := [.out, .regs, .portA, .portB, .evr]) (OnlyChanges.refl _ s) (by decide) (by decide) (by decide) (by decide) (by decide)).same .clk (by decide)
@[simp] theorem complete_thm (q : Sqe) (st : Status) (dw0 : optParam Nat 0) (lba : optParam Nat 0) (cs : optParam Nat 0) : (complete s q st dw0 lba cs).thm = s.thm :=
  (complete_frame (F := [.out, .regs, .portA, .portB, .evr]) (OnlyChanges.refl _ s) (by decide) (by decide) (by decide) (by decide) (by decide)).same .thm (by decide)
@[simp] theorem complete_pwr (q : Sqe) (st : Status) (dw0 : optParam Nat 0) (lba : optParam Nat 0) (cs : optParam Nat 0) : (complete s q st dw0 lba cs).pwr = s.pwr :=
  (complete_frame (F := [.out, .regs, .portA, .portB, .evr]) (OnlyChanges.refl _ s) (by decide) (by decide) (by decide) (by decide) (by decide)).same .pwr (by decide)
@[simp] theorem complete_chip (q : Sqe) (st : Status) (dw0 : optParam Nat 0) (lba : optParam Nat 0) (cs : optParam Nat 0) : (complete s q st dw0 lba cs).chip = s.chip :=
  (complete_frame (F := [.out, .regs, .portA, .portB, .evr]) (OnlyChanges.refl _ s) (by decide) (by decide) (by decide) (by decide) (by decide)).same .chip (by decide)
@[simp] theorem complete_ring (q : Sqe) (st : Status) (dw0 : optParam Nat 0) (lba : optParam Nat 0) (cs : optParam Nat 0) : (complete s q st dw0 lba cs).ring = s.ring :=
  (complete_frame (F := [.out, .regs, .portA, .portB, .evr]) (OnlyChanges.refl _ s) (by decide) (by decide) (by decide) (by decide) (by decide)).same .ring (by decide)
@[simp] theorem complete_sec (q : Sqe) (st : Status) (dw0 : optParam Nat 0) (lba : optParam Nat 0) (cs : optParam Nat 0) : (complete s q st dw0 lba cs).sec = s.sec :=
  (complete_frame (F := [.out, .regs, .portA, .portB, .evr]) (OnlyChanges.refl _ s) (by decide) (by decide) (by decide) (by decide) (by decide)).same .sec (by decide)
@[simp] theorem complete_cry (q : Sqe) (st : Status) (dw0 : optParam Nat 0) (lba : optParam Nat 0) (cs : optParam Nat 0) : (complete s q st dw0 lba cs).cry = s.cry :=
  (complete_frame (F := [.out, .regs, .portA, .portB, .evr]) (OnlyChanges.refl _ s) (by decide) (by decide) (by decide) (by decide) (by decide)).same .cry (by decide)
@[simp] theorem complete_boot (q : Sqe) (st : Status) (dw0 : optParam Nat 0) (lba : optParam Nat 0) (cs : optParam Nat 0) : (complete s q st dw0 lba cs).boot = s.boot :=
  (complete_frame (F := [.out, .regs, .portA, .portB, .evr]) (OnlyChanges.refl _ s) (by decide) (by decide) (by decide) (by decide) (by decide)).same .boot (by decide)
@[simp] theorem complete_dram (q : Sqe) (st : Status) (dw0 : optParam Nat 0) (lba : optParam Nat 0) (cs : optParam Nat 0) : (complete s q st dw0 lba cs).dram = s.dram :=
  (complete_frame (F := [.out, .regs, .portA, .portB, .evr]) (OnlyChanges.refl _ s) (by decide) (by decide) (by decide) (by decide) (by decide)).same .dram (by decide)
@[simp] theorem complete_phc (q : Sqe) (st : Status) (dw0 : optParam Nat 0) (lba : optParam Nat 0) (cs : optParam Nat 0) : (complete s q st dw0 lba cs).phc = s.phc :=
  (complete_frame (F := [.out, .regs, .portA, .portB, .evr]) (OnlyChanges.refl _ s) (by decide) (by decide) (by decide) (by decide) (by decide)).same .phc (by decide)
@[simp] theorem complete_map (q : Sqe) (st : Status) (dw0 : optParam Nat 0) (lba : optParam Nat 0) (cs : optParam Nat 0) : (complete s q st dw0 lba cs).map = s.map :=
  (complete_frame (F := [.out, .regs, .portA, .portB, .evr]) (OnlyChanges.refl _ s) (by decide) (by decide) (by decide) (by decide) (by decide)).same .map (by decide)
@[simp] theorem complete_flash (q : Sqe) (st : Status) (dw0 : optParam Nat 0) (lba : optParam Nat 0) (cs : optParam Nat 0) : (complete s q st dw0 lba cs).flash = s.flash :=
  (complete_frame (F := [.out, .regs, .portA, .portB, .evr]) (OnlyChanges.refl _ s) (by decide) (by decide) (by decide) (by decide) (by decide)).same .flash (by decide)
@[simp] theorem complete_jrc (q : Sqe) (st : Status) (dw0 : optParam Nat 0) (lba : optParam Nat 0) (cs : optParam Nat 0) : (complete s q st dw0 lba cs).jrc = s.jrc :=
  (complete_frame (F := [.out, .regs, .portA, .portB, .evr]) (OnlyChanges.refl _ s) (by decide) (by decide) (by decide) (by decide) (by decide)).same .jrc (by decide)
@[simp] theorem complete_srt (q : Sqe) (st : Status) (dw0 : optParam Nat 0) (lba : optParam Nat 0) (cs : optParam Nat 0) : (complete s q st dw0 lba cs).srt = s.srt :=
  (complete_frame (F := [.out, .regs, .portA, .portB, .evr]) (OnlyChanges.refl _ s) (by decide) (by decide) (by decide) (by decide) (by decide)).same .srt (by decide)
@[simp] theorem complete_prog (q : Sqe) (st : Status) (dw0 : optParam Nat 0) (lba : optParam Nat 0) (cs : optParam Nat 0) : (complete s q st dw0 lba cs).prog = s.prog :=
  (complete_frame (F := [.out, .regs, .portA, .portB, .evr]) (OnlyChanges.refl _ s) (by decide) (by decide) (by decide) (by decide) (by decide)).same .prog (by decide)
@[simp] theorem complete_pat (q : Sqe) (st : Status) (dw0 : optParam Nat 0) (lba : optParam Nat 0) (cs : optParam Nat 0) : (complete s q st dw0 lba cs).pat = s.pat :=
  (complete_frame (F := [.out, .regs, .portA, .portB, .evr]) (OnlyChanges.refl _ s) (by decide) (by decide) (by decide) (by decide) (by decide)).same .pat (by decide)
@[simp] theorem complete_mem (q : Sqe) (st : Status) (dw0 : optParam Nat 0) (lba : optParam Nat 0) (cs : optParam Nat 0) : (complete s q st dw0 lba cs).mem = s.mem :=
  (complete_frame (F := [.out, .regs, .portA, .portB, .evr]) (OnlyChanges.refl _ s) (by decide) (by decide) (by decide) (by decide) (by decide)).same .mem (by decide)

@[simp] theorem aerDeliver_pending (p : Port) : (aerDeliver s p).pending = s.pending :=
  (aerDeliver_frame (F := [.out, .regs, .portA, .portB, .evr]) (OnlyChanges.refl _ s) (by decide) (by decide) (by decide) (by decide) (by decide)).same .pending (by decide)
@[simp] theorem aerDeliver_clk (p : Port) : (aerDeliver s p).clk = s.clk :=
  (aerDeliver_frame (F := [.out, .regs, .portA, .portB, .evr]) (OnlyChanges.refl _ s) (by decide) (by decide) (by decide) (by decide) (by decide)).same .clk (by decide)
@[simp] theorem aerDeliver_thm (p : Port) : (aerDeliver s p).thm = s.thm :=
  (aerDeliver_frame (F := [.out, .regs, .portA, .portB, .evr]) (OnlyChanges.refl _ s) (by decide) (by decide) (by decide) (by decide) (by decide)).same .thm (by decide)
@[simp] theorem aerDeliver_pwr (p : Port) : (aerDeliver s p).pwr = s.pwr :=
  (aerDeliver_frame (F := [.out, .regs, .portA, .portB, .evr]) (OnlyChanges.refl _ s) (by decide) (by decide) (by decide) (by decide) (by decide)).same .pwr (by decide)
@[simp] theorem aerDeliver_chip (p : Port) : (aerDeliver s p).chip = s.chip :=
  (aerDeliver_frame (F := [.out, .regs, .portA, .portB, .evr]) (OnlyChanges.refl _ s) (by decide) (by decide) (by decide) (by decide) (by decide)).same .chip (by decide)
@[simp] theorem aerDeliver_ring (p : Port) : (aerDeliver s p).ring = s.ring :=
  (aerDeliver_frame (F := [.out, .regs, .portA, .portB, .evr]) (OnlyChanges.refl _ s) (by decide) (by decide) (by decide) (by decide) (by decide)).same .ring (by decide)
@[simp] theorem aerDeliver_sec (p : Port) : (aerDeliver s p).sec = s.sec :=
  (aerDeliver_frame (F := [.out, .regs, .portA, .portB, .evr]) (OnlyChanges.refl _ s) (by decide) (by decide) (by decide) (by decide) (by decide)).same .sec (by decide)
@[simp] theorem aerDeliver_cry (p : Port) : (aerDeliver s p).cry = s.cry :=
  (aerDeliver_frame (F := [.out, .regs, .portA, .portB, .evr]) (OnlyChanges.refl _ s) (by decide) (by decide) (by decide) (by decide) (by decide)).same .cry (by decide)
@[simp] theorem aerDeliver_boot (p : Port) : (aerDeliver s p).boot = s.boot :=
  (aerDeliver_frame (F := [.out, .regs, .portA, .portB, .evr]) (OnlyChanges.refl _ s) (by decide) (by decide) (by decide) (by decide) (by decide)).same .boot (by decide)
@[simp] theorem aerDeliver_dram (p : Port) : (aerDeliver s p).dram = s.dram :=
  (aerDeliver_frame (F := [.out, .regs, .portA, .portB, .evr]) (OnlyChanges.refl _ s) (by decide) (by decide) (by decide) (by decide) (by decide)).same .dram (by decide)
@[simp] theorem aerDeliver_phc (p : Port) : (aerDeliver s p).phc = s.phc :=
  (aerDeliver_frame (F := [.out, .regs, .portA, .portB, .evr]) (OnlyChanges.refl _ s) (by decide) (by decide) (by decide) (by decide) (by decide)).same .phc (by decide)
@[simp] theorem aerDeliver_map (p : Port) : (aerDeliver s p).map = s.map :=
  (aerDeliver_frame (F := [.out, .regs, .portA, .portB, .evr]) (OnlyChanges.refl _ s) (by decide) (by decide) (by decide) (by decide) (by decide)).same .map (by decide)
@[simp] theorem aerDeliver_flash (p : Port) : (aerDeliver s p).flash = s.flash :=
  (aerDeliver_frame (F := [.out, .regs, .portA, .portB, .evr]) (OnlyChanges.refl _ s) (by decide) (by decide) (by decide) (by decide) (by decide)).same .flash (by decide)
@[simp] theorem aerDeliver_jrc (p : Port) : (aerDeliver s p).jrc = s.jrc :=
  (aerDeliver_frame (F := [.out, .regs, .portA, .portB, .evr]) (OnlyChanges.refl _ s) (by decide) (by decide) (by decide) (by decide) (by decide)).same .jrc (by decide)
@[simp] theorem aerDeliver_srt (p : Port) : (aerDeliver s p).srt = s.srt :=
  (aerDeliver_frame (F := [.out, .regs, .portA, .portB, .evr]) (OnlyChanges.refl _ s) (by decide) (by decide) (by decide) (by decide) (by decide)).same .srt (by decide)
@[simp] theorem aerDeliver_prog (p : Port) : (aerDeliver s p).prog = s.prog :=
  (aerDeliver_frame (F := [.out, .regs, .portA, .portB, .evr]) (OnlyChanges.refl _ s) (by decide) (by decide) (by decide) (by decide) (by decide)).same .prog (by decide)
@[simp] theorem aerDeliver_pat (p : Port) : (aerDeliver s p).pat = s.pat :=
  (aerDeliver_frame (F := [.out, .regs, .portA, .portB, .evr]) (OnlyChanges.refl _ s) (by decide) (by decide) (by decide) (by decide) (by decide)).same .pat (by decide)
@[simp] theorem aerDeliver_mem (p : Port) : (aerDeliver s p).mem = s.mem :=
  (aerDeliver_frame (F := [.out, .regs, .portA, .portB, .evr]) (OnlyChanges.refl _ s) (by decide) (by decide) (by decide) (by decide) (by decide)).same .mem (by decide)

@[simp] theorem asyncEvent_pending (p : Port) (typ : Nat) (info : Nat) (lid : Nat) : (asyncEvent s p typ info lid).pending = s.pending :=
  (asyncEvent_frame (F := [.out, .regs, .portA, .portB, .evr]) (OnlyChanges.refl _ s) (by decide) (by decide) (by decide) (by decide) (by decide)).same .pending (by decide)
@[simp] theorem asyncEvent_clk (p : Port) (typ : Nat) (info : Nat) (lid : Nat) : (asyncEvent s p typ info lid).clk = s.clk :=
  (asyncEvent_frame (F := [.out, .regs, .portA, .portB, .evr]) (OnlyChanges.refl _ s) (by decide) (by decide) (by decide) (by decide) (by decide)).same .clk (by decide)
@[simp] theorem asyncEvent_thm (p : Port) (typ : Nat) (info : Nat) (lid : Nat) : (asyncEvent s p typ info lid).thm = s.thm :=
  (asyncEvent_frame (F := [.out, .regs, .portA, .portB, .evr]) (OnlyChanges.refl _ s) (by decide) (by decide) (by decide) (by decide) (by decide)).same .thm (by decide)
@[simp] theorem asyncEvent_pwr (p : Port) (typ : Nat) (info : Nat) (lid : Nat) : (asyncEvent s p typ info lid).pwr = s.pwr :=
  (asyncEvent_frame (F := [.out, .regs, .portA, .portB, .evr]) (OnlyChanges.refl _ s) (by decide) (by decide) (by decide) (by decide) (by decide)).same .pwr (by decide)
@[simp] theorem asyncEvent_chip (p : Port) (typ : Nat) (info : Nat) (lid : Nat) : (asyncEvent s p typ info lid).chip = s.chip :=
  (asyncEvent_frame (F := [.out, .regs, .portA, .portB, .evr]) (OnlyChanges.refl _ s) (by decide) (by decide) (by decide) (by decide) (by decide)).same .chip (by decide)
@[simp] theorem asyncEvent_ring (p : Port) (typ : Nat) (info : Nat) (lid : Nat) : (asyncEvent s p typ info lid).ring = s.ring :=
  (asyncEvent_frame (F := [.out, .regs, .portA, .portB, .evr]) (OnlyChanges.refl _ s) (by decide) (by decide) (by decide) (by decide) (by decide)).same .ring (by decide)
@[simp] theorem asyncEvent_sec (p : Port) (typ : Nat) (info : Nat) (lid : Nat) : (asyncEvent s p typ info lid).sec = s.sec :=
  (asyncEvent_frame (F := [.out, .regs, .portA, .portB, .evr]) (OnlyChanges.refl _ s) (by decide) (by decide) (by decide) (by decide) (by decide)).same .sec (by decide)
@[simp] theorem asyncEvent_cry (p : Port) (typ : Nat) (info : Nat) (lid : Nat) : (asyncEvent s p typ info lid).cry = s.cry :=
  (asyncEvent_frame (F := [.out, .regs, .portA, .portB, .evr]) (OnlyChanges.refl _ s) (by decide) (by decide) (by decide) (by decide) (by decide)).same .cry (by decide)
@[simp] theorem asyncEvent_boot (p : Port) (typ : Nat) (info : Nat) (lid : Nat) : (asyncEvent s p typ info lid).boot = s.boot :=
  (asyncEvent_frame (F := [.out, .regs, .portA, .portB, .evr]) (OnlyChanges.refl _ s) (by decide) (by decide) (by decide) (by decide) (by decide)).same .boot (by decide)
@[simp] theorem asyncEvent_dram (p : Port) (typ : Nat) (info : Nat) (lid : Nat) : (asyncEvent s p typ info lid).dram = s.dram :=
  (asyncEvent_frame (F := [.out, .regs, .portA, .portB, .evr]) (OnlyChanges.refl _ s) (by decide) (by decide) (by decide) (by decide) (by decide)).same .dram (by decide)
@[simp] theorem asyncEvent_phc (p : Port) (typ : Nat) (info : Nat) (lid : Nat) : (asyncEvent s p typ info lid).phc = s.phc :=
  (asyncEvent_frame (F := [.out, .regs, .portA, .portB, .evr]) (OnlyChanges.refl _ s) (by decide) (by decide) (by decide) (by decide) (by decide)).same .phc (by decide)
@[simp] theorem asyncEvent_map (p : Port) (typ : Nat) (info : Nat) (lid : Nat) : (asyncEvent s p typ info lid).map = s.map :=
  (asyncEvent_frame (F := [.out, .regs, .portA, .portB, .evr]) (OnlyChanges.refl _ s) (by decide) (by decide) (by decide) (by decide) (by decide)).same .map (by decide)
@[simp] theorem asyncEvent_flash (p : Port) (typ : Nat) (info : Nat) (lid : Nat) : (asyncEvent s p typ info lid).flash = s.flash :=
  (asyncEvent_frame (F := [.out, .regs, .portA, .portB, .evr]) (OnlyChanges.refl _ s) (by decide) (by decide) (by decide) (by decide) (by decide)).same .flash (by decide)
@[simp] theorem asyncEvent_jrc (p : Port) (typ : Nat) (info : Nat) (lid : Nat) : (asyncEvent s p typ info lid).jrc = s.jrc :=
  (asyncEvent_frame (F := [.out, .regs, .portA, .portB, .evr]) (OnlyChanges.refl _ s) (by decide) (by decide) (by decide) (by decide) (by decide)).same .jrc (by decide)
@[simp] theorem asyncEvent_srt (p : Port) (typ : Nat) (info : Nat) (lid : Nat) : (asyncEvent s p typ info lid).srt = s.srt :=
  (asyncEvent_frame (F := [.out, .regs, .portA, .portB, .evr]) (OnlyChanges.refl _ s) (by decide) (by decide) (by decide) (by decide) (by decide)).same .srt (by decide)
@[simp] theorem asyncEvent_prog (p : Port) (typ : Nat) (info : Nat) (lid : Nat) : (asyncEvent s p typ info lid).prog = s.prog :=
  (asyncEvent_frame (F := [.out, .regs, .portA, .portB, .evr]) (OnlyChanges.refl _ s) (by decide) (by decide) (by decide) (by decide) (by decide)).same .prog (by decide)
@[simp] theorem asyncEvent_pat (p : Port) (typ : Nat) (info : Nat) (lid : Nat) : (asyncEvent s p typ info lid).pat = s.pat :=
  (asyncEvent_frame (F := [.out, .regs, .portA, .portB, .evr]) (OnlyChanges.refl _ s) (by decide) (by decide) (by decide) (by decide) (by decide)).same .pat (by decide)
@[simp] theorem asyncEvent_mem (p : Port) (typ : Nat) (info : Nat) (lid : Nat) : (asyncEvent s p typ info lid).mem = s.mem :=
  (asyncEvent_frame (F := [.out, .regs, .portA, .portB, .evr]) (OnlyChanges.refl _ s) (by decide) (by decide) (by decide) (by decide) (by decide)).same .mem (by decide)

@[simp] theorem asyncBoth_pending (typ : Nat) (info : Nat) (lid : Nat) : (asyncBoth s typ info lid).pending = s.pending :=
  (asyncBoth_frame (F := [.out, .regs, .portA, .portB, .evr]) (OnlyChanges.refl _ s) (by decide) (by decide) (by decide) (by decide) (by decide)).same .pending (by decide)
@[simp] theorem asyncBoth_clk (typ : Nat) (info : Nat) (lid : Nat) : (asyncBoth s typ info lid).clk = s.clk :=
  (asyncBoth_frame (F := [.out, .regs, .portA, .portB, .evr]) (OnlyChanges.refl _ s) (by decide) (by decide) (by decide) (by decide) (by decide)).same .clk (by decide)
@[simp] theorem asyncBoth_thm (typ : Nat) (info : Nat) (lid : Nat) : (asyncBoth s typ info lid).thm = s.thm :=
  (asyncBoth_frame (F := [.out, .regs, .portA, .portB, .evr]) (OnlyChanges.refl _ s) (by decide) (by decide) (by decide) (by decide) (by decide)).same .thm (by decide)
@[simp] theorem asyncBoth_pwr (typ : Nat) (info : Nat) (lid : Nat) : (asyncBoth s typ info lid).pwr = s.pwr :=
  (asyncBoth_frame (F := [.out, .regs, .portA, .portB, .evr]) (OnlyChanges.refl _ s) (by decide) (by decide) (by decide) (by decide) (by decide)).same .pwr (by decide)
@[simp] theorem asyncBoth_chip (typ : Nat) (info : Nat) (lid : Nat) : (asyncBoth s typ info lid).chip = s.chip :=
  (asyncBoth_frame (F := [.out, .regs, .portA, .portB, .evr]) (OnlyChanges.refl _ s) (by decide) (by decide) (by decide) (by decide) (by decide)).same .chip (by decide)
@[simp] theorem asyncBoth_ring (typ : Nat) (info : Nat) (lid : Nat) : (asyncBoth s typ info lid).ring = s.ring :=
  (asyncBoth_frame (F := [.out, .regs, .portA, .portB, .evr]) (OnlyChanges.refl _ s) (by decide) (by decide) (by decide) (by decide) (by decide)).same .ring (by decide)
@[simp] theorem asyncBoth_sec (typ : Nat) (info : Nat) (lid : Nat) : (asyncBoth s typ info lid).sec = s.sec :=
  (asyncBoth_frame (F := [.out, .regs, .portA, .portB, .evr]) (OnlyChanges.refl _ s) (by decide) (by decide) (by decide) (by decide) (by decide)).same .sec (by decide)
@[simp] theorem asyncBoth_cry (typ : Nat) (info : Nat) (lid : Nat) : (asyncBoth s typ info lid).cry = s.cry :=
  (asyncBoth_frame (F := [.out, .regs, .portA, .portB, .evr]) (OnlyChanges.refl _ s) (by decide) (by decide) (by decide) (by decide) (by decide)).same .cry (by decide)
@[simp] theorem asyncBoth_boot (typ : Nat) (info : Nat) (lid : Nat) : (asyncBoth s typ info lid).boot = s.boot :=
  (asyncBoth_frame (F := [.out, .regs, .portA, .portB, .evr]) (OnlyChanges.refl _ s) (by decide) (by decide) (by decide) (by decide) (by decide)).same .boot (by decide)
@[simp] theorem asyncBoth_dram (typ : Nat) (info : Nat) (lid : Nat) : (asyncBoth s typ info lid).dram = s.dram :=
  (asyncBoth_frame (F := [.out, .regs, .portA, .portB, .evr]) (OnlyChanges.refl _ s) (by decide) (by decide) (by decide) (by decide) (by decide)).same .dram (by decide)
@[simp] theorem asyncBoth_phc (typ : Nat) (info : Nat) (lid : Nat) : (asyncBoth s typ info lid).phc = s.phc :=
  (asyncBoth_frame (F := [.out, .regs, .portA, .portB, .evr]) (OnlyChanges.refl _ s) (by decide) (by decide) (by decide) (by decide) (by decide)).same .phc (by decide)
@[simp] theorem asyncBoth_map (typ : Nat) (info : Nat) (lid : Nat) : (asyncBoth s typ info lid).map = s.map :=
  (asyncBoth_frame (F := [.out, .regs, .portA, .portB, .evr]) (OnlyChanges.refl _ s) (by decide) (by decide) (by decide) (by decide) (by decide)).same .map (by decide)
@[simp] theorem asyncBoth_flash (typ : Nat) (info : Nat) (lid : Nat) : (asyncBoth s typ info lid).flash = s.flash :=
  (asyncBoth_frame (F := [.out, .regs, .portA, .portB, .evr]) (OnlyChanges.refl _ s) (by decide) (by decide) (by decide) (by decide) (by decide)).same .flash (by decide)
@[simp] theorem asyncBoth_jrc (typ : Nat) (info : Nat) (lid : Nat) : (asyncBoth s typ info lid).jrc = s.jrc :=
  (asyncBoth_frame (F := [.out, .regs, .portA, .portB, .evr]) (OnlyChanges.refl _ s) (by decide) (by decide) (by decide) (by decide) (by decide)).same .jrc (by decide)
@[simp] theorem asyncBoth_srt (typ : Nat) (info : Nat) (lid : Nat) : (asyncBoth s typ info lid).srt = s.srt :=
  (asyncBoth_frame (F := [.out, .regs, .portA, .portB, .evr]) (OnlyChanges.refl _ s) (by decide) (by decide) (by decide) (by decide) (by decide)).same .srt (by decide)
@[simp] theorem asyncBoth_prog (typ : Nat) (info : Nat) (lid : Nat) : (asyncBoth s typ info lid).prog = s.prog :=
  (asyncBoth_frame (F := [.out, .regs, .portA, .portB, .evr]) (OnlyChanges.refl _ s) (by decide) (by decide) (by decide) (by decide) (by decide)).same .prog (by decide)
@[simp] theorem asyncBoth_pat (typ : Nat) (info : Nat) (lid : Nat) : (asyncBoth s typ info lid).pat = s.pat :=
  (asyncBoth_frame (F := [.out, .regs, .portA, .portB, .evr]) (OnlyChanges.refl _ s) (by decide) (by decide) (by decide) (by decide) (by decide)).same .pat (by decide)
@[simp] theorem asyncBoth_mem (typ : Nat) (info : Nat) (lid : Nat) : (asyncBoth s typ info lid).mem = s.mem :=
  (asyncBoth_frame (F := [.out, .regs, .portA, .portB, .evr]) (OnlyChanges.refl _ s) (by decide) (by decide) (by decide) (by decide) (by decide)).same .mem (by decide)

@[simp] theorem aerClear_pending (p : Port) (lid : Nat) : (aerClear s p lid).pending = s.pending :=
  (aerClear_frame (F := [.out, .regs, .portA, .portB, .evr]) (OnlyChanges.refl _ s) (by decide) (by decide)).same .pending (by decide)
@[simp] theorem aerClear_clk (p : Port) (lid : Nat) : (aerClear s p lid).clk = s.clk :=
  (aerClear_frame (F := [.out, .regs, .portA, .portB, .evr]) (OnlyChanges.refl _ s) (by decide) (by decide)).same .clk (by decide)
@[simp] theorem aerClear_thm (p : Port) (lid : Nat) : (aerClear s p lid).thm = s.thm :=
  (aerClear_frame (F := [.out, .regs, .portA, .portB, .evr]) (OnlyChanges.refl _ s) (by decide) (by decide)).same .thm (by decide)
@[simp] theorem aerClear_pwr (p : Port) (lid : Nat) : (aerClear s p lid).pwr = s.pwr :=
  (aerClear_frame (F := [.out, .regs, .portA, .portB, .evr]) (OnlyChanges.refl _ s) (by decide) (by decide)).same .pwr (by decide)
@[simp] theorem aerClear_chip (p : Port) (lid : Nat) : (aerClear s p lid).chip = s.chip :=
  (aerClear_frame (F := [.out, .regs, .portA, .portB, .evr]) (OnlyChanges.refl _ s) (by decide) (by decide)).same .chip (by decide)
@[simp] theorem aerClear_ring (p : Port) (lid : Nat) : (aerClear s p lid).ring = s.ring :=
  (aerClear_frame (F := [.out, .regs, .portA, .portB, .evr]) (OnlyChanges.refl _ s) (by decide) (by decide)).same .ring (by decide)
@[simp] theorem aerClear_sec (p : Port) (lid : Nat) : (aerClear s p lid).sec = s.sec :=
  (aerClear_frame (F := [.out, .regs, .portA, .portB, .evr]) (OnlyChanges.refl _ s) (by decide) (by decide)).same .sec (by decide)
@[simp] theorem aerClear_cry (p : Port) (lid : Nat) : (aerClear s p lid).cry = s.cry :=
  (aerClear_frame (F := [.out, .regs, .portA, .portB, .evr]) (OnlyChanges.refl _ s) (by decide) (by decide)).same .cry (by decide)
@[simp] theorem aerClear_boot (p : Port) (lid : Nat) : (aerClear s p lid).boot = s.boot :=
  (aerClear_frame (F := [.out, .regs, .portA, .portB, .evr]) (OnlyChanges.refl _ s) (by decide) (by decide)).same .boot (by decide)
@[simp] theorem aerClear_dram (p : Port) (lid : Nat) : (aerClear s p lid).dram = s.dram :=
  (aerClear_frame (F := [.out, .regs, .portA, .portB, .evr]) (OnlyChanges.refl _ s) (by decide) (by decide)).same .dram (by decide)
@[simp] theorem aerClear_phc (p : Port) (lid : Nat) : (aerClear s p lid).phc = s.phc :=
  (aerClear_frame (F := [.out, .regs, .portA, .portB, .evr]) (OnlyChanges.refl _ s) (by decide) (by decide)).same .phc (by decide)
@[simp] theorem aerClear_map (p : Port) (lid : Nat) : (aerClear s p lid).map = s.map :=
  (aerClear_frame (F := [.out, .regs, .portA, .portB, .evr]) (OnlyChanges.refl _ s) (by decide) (by decide)).same .map (by decide)
@[simp] theorem aerClear_flash (p : Port) (lid : Nat) : (aerClear s p lid).flash = s.flash :=
  (aerClear_frame (F := [.out, .regs, .portA, .portB, .evr]) (OnlyChanges.refl _ s) (by decide) (by decide)).same .flash (by decide)
@[simp] theorem aerClear_jrc (p : Port) (lid : Nat) : (aerClear s p lid).jrc = s.jrc :=
  (aerClear_frame (F := [.out, .regs, .portA, .portB, .evr]) (OnlyChanges.refl _ s) (by decide) (by decide)).same .jrc (by decide)
@[simp] theorem aerClear_srt (p : Port) (lid : Nat) : (aerClear s p lid).srt = s.srt :=
  (aerClear_frame (F := [.out, .regs, .portA, .portB, .evr]) (OnlyChanges.refl _ s) (by decide) (by decide)).same .srt (by decide)
@[simp] theorem aerClear_prog (p : Port) (lid : Nat) : (aerClear s p lid).prog = s.prog :=
  (aerClear_frame (F := [.out, .regs, .portA, .portB, .evr]) (OnlyChanges.refl _ s) (by decide) (by decide)).same .prog (by decide)
@[simp] theorem aerClear_pat (p : Port) (lid : Nat) : (aerClear s p lid).pat = s.pat :=
  (aerClear_frame (F := [.out, .regs, .portA, .portB, .evr]) (OnlyChanges.refl _ s) (by decide) (by decide)).same .pat (by decide)
@[simp] theorem aerClear_mem (p : Port) (lid : Nat) : (aerClear s p lid).mem = s.mem :=
  (aerClear_frame (F := [.out, .regs, .portA, .portB, .evr]) (OnlyChanges.refl _ s) (by decide) (by decide)).same .mem (by decide)

@[simp] theorem hfeRaise_pending (p : Port) (src : Nat) : (hfeRaise s p src).pending = s.pending :=
  (hfeRaise_frame (F := [.out, .regs, .portA, .portB, .evr]) (OnlyChanges.refl _ s) (by decide) (by decide) (by decide) (by decide) (by decide)).same .pending (by decide)
@[simp] theorem hfeRaise_clk (p : Port) (src : Nat) : (hfeRaise s p src).clk = s.clk :=
  (hfeRaise_frame (F := [.out, .regs, .portA, .portB, .evr]) (OnlyChanges.refl _ s) (by decide) (by decide) (by decide) (by decide) (by decide)).same .clk (by decide)
@[simp] theorem hfeRaise_thm (p : Port) (src : Nat) : (hfeRaise s p src).thm = s.thm :=
  (hfeRaise_frame (F := [.out, .regs, .portA, .portB, .evr]) (OnlyChanges.refl _ s) (by decide) (by decide) (by decide) (by decide) (by decide)).same .thm (by decide)
@[simp] theorem hfeRaise_pwr (p : Port) (src : Nat) : (hfeRaise s p src).pwr = s.pwr :=
  (hfeRaise_frame (F := [.out, .regs, .portA, .portB, .evr]) (OnlyChanges.refl _ s) (by decide) (by decide) (by decide) (by decide) (by decide)).same .pwr (by decide)
@[simp] theorem hfeRaise_chip (p : Port) (src : Nat) : (hfeRaise s p src).chip = s.chip :=
  (hfeRaise_frame (F := [.out, .regs, .portA, .portB, .evr]) (OnlyChanges.refl _ s) (by decide) (by decide) (by decide) (by decide) (by decide)).same .chip (by decide)
@[simp] theorem hfeRaise_ring (p : Port) (src : Nat) : (hfeRaise s p src).ring = s.ring :=
  (hfeRaise_frame (F := [.out, .regs, .portA, .portB, .evr]) (OnlyChanges.refl _ s) (by decide) (by decide) (by decide) (by decide) (by decide)).same .ring (by decide)
@[simp] theorem hfeRaise_sec (p : Port) (src : Nat) : (hfeRaise s p src).sec = s.sec :=
  (hfeRaise_frame (F := [.out, .regs, .portA, .portB, .evr]) (OnlyChanges.refl _ s) (by decide) (by decide) (by decide) (by decide) (by decide)).same .sec (by decide)
@[simp] theorem hfeRaise_cry (p : Port) (src : Nat) : (hfeRaise s p src).cry = s.cry :=
  (hfeRaise_frame (F := [.out, .regs, .portA, .portB, .evr]) (OnlyChanges.refl _ s) (by decide) (by decide) (by decide) (by decide) (by decide)).same .cry (by decide)
@[simp] theorem hfeRaise_boot (p : Port) (src : Nat) : (hfeRaise s p src).boot = s.boot :=
  (hfeRaise_frame (F := [.out, .regs, .portA, .portB, .evr]) (OnlyChanges.refl _ s) (by decide) (by decide) (by decide) (by decide) (by decide)).same .boot (by decide)
@[simp] theorem hfeRaise_dram (p : Port) (src : Nat) : (hfeRaise s p src).dram = s.dram :=
  (hfeRaise_frame (F := [.out, .regs, .portA, .portB, .evr]) (OnlyChanges.refl _ s) (by decide) (by decide) (by decide) (by decide) (by decide)).same .dram (by decide)
@[simp] theorem hfeRaise_phc (p : Port) (src : Nat) : (hfeRaise s p src).phc = s.phc :=
  (hfeRaise_frame (F := [.out, .regs, .portA, .portB, .evr]) (OnlyChanges.refl _ s) (by decide) (by decide) (by decide) (by decide) (by decide)).same .phc (by decide)
@[simp] theorem hfeRaise_map (p : Port) (src : Nat) : (hfeRaise s p src).map = s.map :=
  (hfeRaise_frame (F := [.out, .regs, .portA, .portB, .evr]) (OnlyChanges.refl _ s) (by decide) (by decide) (by decide) (by decide) (by decide)).same .map (by decide)
@[simp] theorem hfeRaise_flash (p : Port) (src : Nat) : (hfeRaise s p src).flash = s.flash :=
  (hfeRaise_frame (F := [.out, .regs, .portA, .portB, .evr]) (OnlyChanges.refl _ s) (by decide) (by decide) (by decide) (by decide) (by decide)).same .flash (by decide)
@[simp] theorem hfeRaise_jrc (p : Port) (src : Nat) : (hfeRaise s p src).jrc = s.jrc :=
  (hfeRaise_frame (F := [.out, .regs, .portA, .portB, .evr]) (OnlyChanges.refl _ s) (by decide) (by decide) (by decide) (by decide) (by decide)).same .jrc (by decide)
@[simp] theorem hfeRaise_srt (p : Port) (src : Nat) : (hfeRaise s p src).srt = s.srt :=
  (hfeRaise_frame (F := [.out, .regs, .portA, .portB, .evr]) (OnlyChanges.refl _ s) (by decide) (by decide) (by decide) (by decide) (by decide)).same .srt (by decide)
@[simp] theorem hfeRaise_prog (p : Port) (src : Nat) : (hfeRaise s p src).prog = s.prog :=
  (hfeRaise_frame (F := [.out, .regs, .portA, .portB, .evr]) (OnlyChanges.refl _ s) (by decide) (by decide) (by decide) (by decide) (by decide)).same .prog (by decide)
@[simp] theorem hfeRaise_pat (p : Port) (src : Nat) : (hfeRaise s p src).pat = s.pat :=
  (hfeRaise_frame (F := [.out, .regs, .portA, .portB, .evr]) (OnlyChanges.refl _ s) (by decide) (by decide) (by decide) (by decide) (by decide)).same .pat (by decide)
@[simp] theorem hfeRaise_mem (p : Port) (src : Nat) : (hfeRaise s p src).mem = s.mem :=
  (hfeRaise_frame (F := [.out, .regs, .portA, .portB, .evr]) (OnlyChanges.refl _ s) (by decide) (by decide) (by decide) (by decide) (by decide)).same .mem (by decide)

@[simp] theorem cfgCauseSet_pending (bit : Nat) : (cfgCauseSet s bit).pending = s.pending :=
  (cfgCauseSet_frame (F := [.out, .regs, .portA, .portB, .evr]) (OnlyChanges.refl _ s) (by decide) (by decide) (by decide) (by decide) (by decide)).same .pending (by decide)
@[simp] theorem cfgCauseSet_clk (bit : Nat) : (cfgCauseSet s bit).clk = s.clk :=
  (cfgCauseSet_frame (F := [.out, .regs, .portA, .portB, .evr]) (OnlyChanges.refl _ s) (by decide) (by decide) (by decide) (by decide) (by decide)).same .clk (by decide)
@[simp] theorem cfgCauseSet_thm (bit : Nat) : (cfgCauseSet s bit).thm = s.thm :=
  (cfgCauseSet_frame (F := [.out, .regs, .portA, .portB, .evr]) (OnlyChanges.refl _ s) (by decide) (by decide) (by decide) (by decide) (by decide)).same .thm (by decide)
@[simp] theorem cfgCauseSet_pwr (bit : Nat) : (cfgCauseSet s bit).pwr = s.pwr :=
  (cfgCauseSet_frame (F := [.out, .regs, .portA, .portB, .evr]) (OnlyChanges.refl _ s) (by decide) (by decide) (by decide) (by decide) (by decide)).same .pwr (by decide)
@[simp] theorem cfgCauseSet_chip (bit : Nat) : (cfgCauseSet s bit).chip = s.chip :=
  (cfgCauseSet_frame (F := [.out, .regs, .portA, .portB, .evr]) (OnlyChanges.refl _ s) (by decide) (by decide) (by decide) (by decide) (by decide)).same .chip (by decide)
@[simp] theorem cfgCauseSet_ring (bit : Nat) : (cfgCauseSet s bit).ring = s.ring :=
  (cfgCauseSet_frame (F := [.out, .regs, .portA, .portB, .evr]) (OnlyChanges.refl _ s) (by decide) (by decide) (by decide) (by decide) (by decide)).same .ring (by decide)
@[simp] theorem cfgCauseSet_sec (bit : Nat) : (cfgCauseSet s bit).sec = s.sec :=
  (cfgCauseSet_frame (F := [.out, .regs, .portA, .portB, .evr]) (OnlyChanges.refl _ s) (by decide) (by decide) (by decide) (by decide) (by decide)).same .sec (by decide)
@[simp] theorem cfgCauseSet_cry (bit : Nat) : (cfgCauseSet s bit).cry = s.cry :=
  (cfgCauseSet_frame (F := [.out, .regs, .portA, .portB, .evr]) (OnlyChanges.refl _ s) (by decide) (by decide) (by decide) (by decide) (by decide)).same .cry (by decide)
@[simp] theorem cfgCauseSet_boot (bit : Nat) : (cfgCauseSet s bit).boot = s.boot :=
  (cfgCauseSet_frame (F := [.out, .regs, .portA, .portB, .evr]) (OnlyChanges.refl _ s) (by decide) (by decide) (by decide) (by decide) (by decide)).same .boot (by decide)
@[simp] theorem cfgCauseSet_dram (bit : Nat) : (cfgCauseSet s bit).dram = s.dram :=
  (cfgCauseSet_frame (F := [.out, .regs, .portA, .portB, .evr]) (OnlyChanges.refl _ s) (by decide) (by decide) (by decide) (by decide) (by decide)).same .dram (by decide)
@[simp] theorem cfgCauseSet_phc (bit : Nat) : (cfgCauseSet s bit).phc = s.phc :=
  (cfgCauseSet_frame (F := [.out, .regs, .portA, .portB, .evr]) (OnlyChanges.refl _ s) (by decide) (by decide) (by decide) (by decide) (by decide)).same .phc (by decide)
@[simp] theorem cfgCauseSet_map (bit : Nat) : (cfgCauseSet s bit).map = s.map :=
  (cfgCauseSet_frame (F := [.out, .regs, .portA, .portB, .evr]) (OnlyChanges.refl _ s) (by decide) (by decide) (by decide) (by decide) (by decide)).same .map (by decide)
@[simp] theorem cfgCauseSet_flash (bit : Nat) : (cfgCauseSet s bit).flash = s.flash :=
  (cfgCauseSet_frame (F := [.out, .regs, .portA, .portB, .evr]) (OnlyChanges.refl _ s) (by decide) (by decide) (by decide) (by decide) (by decide)).same .flash (by decide)
@[simp] theorem cfgCauseSet_jrc (bit : Nat) : (cfgCauseSet s bit).jrc = s.jrc :=
  (cfgCauseSet_frame (F := [.out, .regs, .portA, .portB, .evr]) (OnlyChanges.refl _ s) (by decide) (by decide) (by decide) (by decide) (by decide)).same .jrc (by decide)
@[simp] theorem cfgCauseSet_srt (bit : Nat) : (cfgCauseSet s bit).srt = s.srt :=
  (cfgCauseSet_frame (F := [.out, .regs, .portA, .portB, .evr]) (OnlyChanges.refl _ s) (by decide) (by decide) (by decide) (by decide) (by decide)).same .srt (by decide)
@[simp] theorem cfgCauseSet_prog (bit : Nat) : (cfgCauseSet s bit).prog = s.prog :=
  (cfgCauseSet_frame (F := [.out, .regs, .portA, .portB, .evr]) (OnlyChanges.refl _ s) (by decide) (by decide) (by decide) (by decide) (by decide)).same .prog (by decide)
@[simp] theorem cfgCauseSet_pat (bit : Nat) : (cfgCauseSet s bit).pat = s.pat :=
  (cfgCauseSet_frame (F := [.out, .regs, .portA, .portB, .evr]) (OnlyChanges.refl _ s) (by decide) (by decide) (by decide) (by decide) (by decide)).same .pat (by decide)
@[simp] theorem cfgCauseSet_mem (bit : Nat) : (cfgCauseSet s bit).mem = s.mem :=
  (cfgCauseSet_frame (F := [.out, .regs, .portA, .portB, .evr]) (OnlyChanges.refl _ s) (by decide) (by decide) (by decide) (by decide) (by decide)).same .mem (by decide)

@[simp] theorem secCauseSet_pending (bit : Nat) : (secCauseSet s bit).pending = s.pending :=
  (secCauseSet_frame (F := [.out, .regs, .portA, .portB, .evr]) (OnlyChanges.refl _ s) (by decide) (by decide) (by decide) (by decide) (by decide)).same .pending (by decide)
@[simp] theorem secCauseSet_clk (bit : Nat) : (secCauseSet s bit).clk = s.clk :=
  (secCauseSet_frame (F := [.out, .regs, .portA, .portB, .evr]) (OnlyChanges.refl _ s) (by decide) (by decide) (by decide) (by decide) (by decide)).same .clk (by decide)
@[simp] theorem secCauseSet_thm (bit : Nat) : (secCauseSet s bit).thm = s.thm :=
  (secCauseSet_frame (F := [.out, .regs, .portA, .portB, .evr]) (OnlyChanges.refl _ s) (by decide) (by decide) (by decide) (by decide) (by decide)).same .thm (by decide)
@[simp] theorem secCauseSet_pwr (bit : Nat) : (secCauseSet s bit).pwr = s.pwr :=
  (secCauseSet_frame (F := [.out, .regs, .portA, .portB, .evr]) (OnlyChanges.refl _ s) (by decide) (by decide) (by decide) (by decide) (by decide)).same .pwr (by decide)
@[simp] theorem secCauseSet_chip (bit : Nat) : (secCauseSet s bit).chip = s.chip :=
  (secCauseSet_frame (F := [.out, .regs, .portA, .portB, .evr]) (OnlyChanges.refl _ s) (by decide) (by decide) (by decide) (by decide) (by decide)).same .chip (by decide)
@[simp] theorem secCauseSet_ring (bit : Nat) : (secCauseSet s bit).ring = s.ring :=
  (secCauseSet_frame (F := [.out, .regs, .portA, .portB, .evr]) (OnlyChanges.refl _ s) (by decide) (by decide) (by decide) (by decide) (by decide)).same .ring (by decide)
@[simp] theorem secCauseSet_sec (bit : Nat) : (secCauseSet s bit).sec = s.sec :=
  (secCauseSet_frame (F := [.out, .regs, .portA, .portB, .evr]) (OnlyChanges.refl _ s) (by decide) (by decide) (by decide) (by decide) (by decide)).same .sec (by decide)
@[simp] theorem secCauseSet_cry (bit : Nat) : (secCauseSet s bit).cry = s.cry :=
  (secCauseSet_frame (F := [.out, .regs, .portA, .portB, .evr]) (OnlyChanges.refl _ s) (by decide) (by decide) (by decide) (by decide) (by decide)).same .cry (by decide)
@[simp] theorem secCauseSet_boot (bit : Nat) : (secCauseSet s bit).boot = s.boot :=
  (secCauseSet_frame (F := [.out, .regs, .portA, .portB, .evr]) (OnlyChanges.refl _ s) (by decide) (by decide) (by decide) (by decide) (by decide)).same .boot (by decide)
@[simp] theorem secCauseSet_dram (bit : Nat) : (secCauseSet s bit).dram = s.dram :=
  (secCauseSet_frame (F := [.out, .regs, .portA, .portB, .evr]) (OnlyChanges.refl _ s) (by decide) (by decide) (by decide) (by decide) (by decide)).same .dram (by decide)
@[simp] theorem secCauseSet_phc (bit : Nat) : (secCauseSet s bit).phc = s.phc :=
  (secCauseSet_frame (F := [.out, .regs, .portA, .portB, .evr]) (OnlyChanges.refl _ s) (by decide) (by decide) (by decide) (by decide) (by decide)).same .phc (by decide)
@[simp] theorem secCauseSet_map (bit : Nat) : (secCauseSet s bit).map = s.map :=
  (secCauseSet_frame (F := [.out, .regs, .portA, .portB, .evr]) (OnlyChanges.refl _ s) (by decide) (by decide) (by decide) (by decide) (by decide)).same .map (by decide)
@[simp] theorem secCauseSet_flash (bit : Nat) : (secCauseSet s bit).flash = s.flash :=
  (secCauseSet_frame (F := [.out, .regs, .portA, .portB, .evr]) (OnlyChanges.refl _ s) (by decide) (by decide) (by decide) (by decide) (by decide)).same .flash (by decide)
@[simp] theorem secCauseSet_jrc (bit : Nat) : (secCauseSet s bit).jrc = s.jrc :=
  (secCauseSet_frame (F := [.out, .regs, .portA, .portB, .evr]) (OnlyChanges.refl _ s) (by decide) (by decide) (by decide) (by decide) (by decide)).same .jrc (by decide)
@[simp] theorem secCauseSet_srt (bit : Nat) : (secCauseSet s bit).srt = s.srt :=
  (secCauseSet_frame (F := [.out, .regs, .portA, .portB, .evr]) (OnlyChanges.refl _ s) (by decide) (by decide) (by decide) (by decide) (by decide)).same .srt (by decide)
@[simp] theorem secCauseSet_prog (bit : Nat) : (secCauseSet s bit).prog = s.prog :=
  (secCauseSet_frame (F := [.out, .regs, .portA, .portB, .evr]) (OnlyChanges.refl _ s) (by decide) (by decide) (by decide) (by decide) (by decide)).same .prog (by decide)
@[simp] theorem secCauseSet_pat (bit : Nat) : (secCauseSet s bit).pat = s.pat :=
  (secCauseSet_frame (F := [.out, .regs, .portA, .portB, .evr]) (OnlyChanges.refl _ s) (by decide) (by decide) (by decide) (by decide) (by decide)).same .pat (by decide)
@[simp] theorem secCauseSet_mem (bit : Nat) : (secCauseSet s bit).mem = s.mem :=
  (secCauseSet_frame (F := [.out, .regs, .portA, .portB, .evr]) (OnlyChanges.refl _ s) (by decide) (by decide) (by decide) (by decide) (by decide)).same .mem (by decide)

@[simp] theorem chnCauseSet_pending (c : Nat) (bit : Nat) (lun : optParam (Option Nat) none) : (chnCauseSet s c bit lun).pending = s.pending :=
  (chnCauseSet_frame (F := [.out, .regs, .portA, .portB, .evr, .flash]) (OnlyChanges.refl _ s) (by decide) (by decide) (by decide) (by decide) (by decide) (by decide)).same .pending (by decide)
@[simp] theorem chnCauseSet_clk (c : Nat) (bit : Nat) (lun : optParam (Option Nat) none) : (chnCauseSet s c bit lun).clk = s.clk :=
  (chnCauseSet_frame (F := [.out, .regs, .portA, .portB, .evr, .flash]) (OnlyChanges.refl _ s) (by decide) (by decide) (by decide) (by decide) (by decide) (by decide)).same .clk (by decide)
@[simp] theorem chnCauseSet_thm (c : Nat) (bit : Nat) (lun : optParam (Option Nat) none) : (chnCauseSet s c bit lun).thm = s.thm :=
  (chnCauseSet_frame (F := [.out, .regs, .portA, .portB, .evr, .flash]) (OnlyChanges.refl _ s) (by decide) (by decide) (by decide) (by decide) (by decide) (by decide)).same .thm (by decide)
@[simp] theorem chnCauseSet_pwr (c : Nat) (bit : Nat) (lun : optParam (Option Nat) none) : (chnCauseSet s c bit lun).pwr = s.pwr :=
  (chnCauseSet_frame (F := [.out, .regs, .portA, .portB, .evr, .flash]) (OnlyChanges.refl _ s) (by decide) (by decide) (by decide) (by decide) (by decide) (by decide)).same .pwr (by decide)
@[simp] theorem chnCauseSet_chip (c : Nat) (bit : Nat) (lun : optParam (Option Nat) none) : (chnCauseSet s c bit lun).chip = s.chip :=
  (chnCauseSet_frame (F := [.out, .regs, .portA, .portB, .evr, .flash]) (OnlyChanges.refl _ s) (by decide) (by decide) (by decide) (by decide) (by decide) (by decide)).same .chip (by decide)
@[simp] theorem chnCauseSet_ring (c : Nat) (bit : Nat) (lun : optParam (Option Nat) none) : (chnCauseSet s c bit lun).ring = s.ring :=
  (chnCauseSet_frame (F := [.out, .regs, .portA, .portB, .evr, .flash]) (OnlyChanges.refl _ s) (by decide) (by decide) (by decide) (by decide) (by decide) (by decide)).same .ring (by decide)
@[simp] theorem chnCauseSet_sec (c : Nat) (bit : Nat) (lun : optParam (Option Nat) none) : (chnCauseSet s c bit lun).sec = s.sec :=
  (chnCauseSet_frame (F := [.out, .regs, .portA, .portB, .evr, .flash]) (OnlyChanges.refl _ s) (by decide) (by decide) (by decide) (by decide) (by decide) (by decide)).same .sec (by decide)
@[simp] theorem chnCauseSet_cry (c : Nat) (bit : Nat) (lun : optParam (Option Nat) none) : (chnCauseSet s c bit lun).cry = s.cry :=
  (chnCauseSet_frame (F := [.out, .regs, .portA, .portB, .evr, .flash]) (OnlyChanges.refl _ s) (by decide) (by decide) (by decide) (by decide) (by decide) (by decide)).same .cry (by decide)
@[simp] theorem chnCauseSet_boot (c : Nat) (bit : Nat) (lun : optParam (Option Nat) none) : (chnCauseSet s c bit lun).boot = s.boot :=
  (chnCauseSet_frame (F := [.out, .regs, .portA, .portB, .evr, .flash]) (OnlyChanges.refl _ s) (by decide) (by decide) (by decide) (by decide) (by decide) (by decide)).same .boot (by decide)
@[simp] theorem chnCauseSet_dram (c : Nat) (bit : Nat) (lun : optParam (Option Nat) none) : (chnCauseSet s c bit lun).dram = s.dram :=
  (chnCauseSet_frame (F := [.out, .regs, .portA, .portB, .evr, .flash]) (OnlyChanges.refl _ s) (by decide) (by decide) (by decide) (by decide) (by decide) (by decide)).same .dram (by decide)
@[simp] theorem chnCauseSet_phc (c : Nat) (bit : Nat) (lun : optParam (Option Nat) none) : (chnCauseSet s c bit lun).phc = s.phc :=
  (chnCauseSet_frame (F := [.out, .regs, .portA, .portB, .evr, .flash]) (OnlyChanges.refl _ s) (by decide) (by decide) (by decide) (by decide) (by decide) (by decide)).same .phc (by decide)
@[simp] theorem chnCauseSet_map (c : Nat) (bit : Nat) (lun : optParam (Option Nat) none) : (chnCauseSet s c bit lun).map = s.map :=
  (chnCauseSet_frame (F := [.out, .regs, .portA, .portB, .evr, .flash]) (OnlyChanges.refl _ s) (by decide) (by decide) (by decide) (by decide) (by decide) (by decide)).same .map (by decide)
@[simp] theorem chnCauseSet_jrc (c : Nat) (bit : Nat) (lun : optParam (Option Nat) none) : (chnCauseSet s c bit lun).jrc = s.jrc :=
  (chnCauseSet_frame (F := [.out, .regs, .portA, .portB, .evr, .flash]) (OnlyChanges.refl _ s) (by decide) (by decide) (by decide) (by decide) (by decide) (by decide)).same .jrc (by decide)
@[simp] theorem chnCauseSet_srt (c : Nat) (bit : Nat) (lun : optParam (Option Nat) none) : (chnCauseSet s c bit lun).srt = s.srt :=
  (chnCauseSet_frame (F := [.out, .regs, .portA, .portB, .evr, .flash]) (OnlyChanges.refl _ s) (by decide) (by decide) (by decide) (by decide) (by decide) (by decide)).same .srt (by decide)
@[simp] theorem chnCauseSet_prog (c : Nat) (bit : Nat) (lun : optParam (Option Nat) none) : (chnCauseSet s c bit lun).prog = s.prog :=
  (chnCauseSet_frame (F := [.out, .regs, .portA, .portB, .evr, .flash]) (OnlyChanges.refl _ s) (by decide) (by decide) (by decide) (by decide) (by decide) (by decide)).same .prog (by decide)
@[simp] theorem chnCauseSet_pat (c : Nat) (bit : Nat) (lun : optParam (Option Nat) none) : (chnCauseSet s c bit lun).pat = s.pat :=
  (chnCauseSet_frame (F := [.out, .regs, .portA, .portB, .evr, .flash]) (OnlyChanges.refl _ s) (by decide) (by decide) (by decide) (by decide) (by decide) (by decide)).same .pat (by decide)
@[simp] theorem chnCauseSet_mem (c : Nat) (bit : Nat) (lun : optParam (Option Nat) none) : (chnCauseSet s c bit lun).mem = s.mem :=
  (chnCauseSet_frame (F := [.out, .regs, .portA, .portB, .evr, .flash]) (OnlyChanges.refl _ s) (by decide) (by decide) (by decide) (by decide) (by decide) (by decide)).same .mem (by decide)

@[simp] theorem strCauseSet_pending (bit : Nat) : (strCauseSet s bit).pending = s.pending :=
  (strCauseSet_frame (F := [.out, .regs, .portA, .portB, .evr]) (OnlyChanges.refl _ s) (by decide) (by decide) (by decide) (by decide) (by decide)).same .pending (by decide)
@[simp] theorem strCauseSet_clk (bit : Nat) : (strCauseSet s bit).clk = s.clk :=
  (strCauseSet_frame (F := [.out, .regs, .portA, .portB, .evr]) (OnlyChanges.refl _ s) (by decide) (by decide) (by decide) (by decide) (by decide)).same .clk (by decide)
@[simp] theorem strCauseSet_thm (bit : Nat) : (strCauseSet s bit).thm = s.thm :=
  (strCauseSet_frame (F := [.out, .regs, .portA, .portB, .evr]) (OnlyChanges.refl _ s) (by decide) (by decide) (by decide) (by decide) (by decide)).same .thm (by decide)
@[simp] theorem strCauseSet_pwr (bit : Nat) : (strCauseSet s bit).pwr = s.pwr :=
  (strCauseSet_frame (F := [.out, .regs, .portA, .portB, .evr]) (OnlyChanges.refl _ s) (by decide) (by decide) (by decide) (by decide) (by decide)).same .pwr (by decide)
@[simp] theorem strCauseSet_chip (bit : Nat) : (strCauseSet s bit).chip = s.chip :=
  (strCauseSet_frame (F := [.out, .regs, .portA, .portB, .evr]) (OnlyChanges.refl _ s) (by decide) (by decide) (by decide) (by decide) (by decide)).same .chip (by decide)
@[simp] theorem strCauseSet_ring (bit : Nat) : (strCauseSet s bit).ring = s.ring :=
  (strCauseSet_frame (F := [.out, .regs, .portA, .portB, .evr]) (OnlyChanges.refl _ s) (by decide) (by decide) (by decide) (by decide) (by decide)).same .ring (by decide)
@[simp] theorem strCauseSet_sec (bit : Nat) : (strCauseSet s bit).sec = s.sec :=
  (strCauseSet_frame (F := [.out, .regs, .portA, .portB, .evr]) (OnlyChanges.refl _ s) (by decide) (by decide) (by decide) (by decide) (by decide)).same .sec (by decide)
@[simp] theorem strCauseSet_cry (bit : Nat) : (strCauseSet s bit).cry = s.cry :=
  (strCauseSet_frame (F := [.out, .regs, .portA, .portB, .evr]) (OnlyChanges.refl _ s) (by decide) (by decide) (by decide) (by decide) (by decide)).same .cry (by decide)
@[simp] theorem strCauseSet_boot (bit : Nat) : (strCauseSet s bit).boot = s.boot :=
  (strCauseSet_frame (F := [.out, .regs, .portA, .portB, .evr]) (OnlyChanges.refl _ s) (by decide) (by decide) (by decide) (by decide) (by decide)).same .boot (by decide)
@[simp] theorem strCauseSet_dram (bit : Nat) : (strCauseSet s bit).dram = s.dram :=
  (strCauseSet_frame (F := [.out, .regs, .portA, .portB, .evr]) (OnlyChanges.refl _ s) (by decide) (by decide) (by decide) (by decide) (by decide)).same .dram (by decide)
@[simp] theorem strCauseSet_phc (bit : Nat) : (strCauseSet s bit).phc = s.phc :=
  (strCauseSet_frame (F := [.out, .regs, .portA, .portB, .evr]) (OnlyChanges.refl _ s) (by decide) (by decide) (by decide) (by decide) (by decide)).same .phc (by decide)
@[simp] theorem strCauseSet_map (bit : Nat) : (strCauseSet s bit).map = s.map :=
  (strCauseSet_frame (F := [.out, .regs, .portA, .portB, .evr]) (OnlyChanges.refl _ s) (by decide) (by decide) (by decide) (by decide) (by decide)).same .map (by decide)
@[simp] theorem strCauseSet_flash (bit : Nat) : (strCauseSet s bit).flash = s.flash :=
  (strCauseSet_frame (F := [.out, .regs, .portA, .portB, .evr]) (OnlyChanges.refl _ s) (by decide) (by decide) (by decide) (by decide) (by decide)).same .flash (by decide)
@[simp] theorem strCauseSet_jrc (bit : Nat) : (strCauseSet s bit).jrc = s.jrc :=
  (strCauseSet_frame (F := [.out, .regs, .portA, .portB, .evr]) (OnlyChanges.refl _ s) (by decide) (by decide) (by decide) (by decide) (by decide)).same .jrc (by decide)
@[simp] theorem strCauseSet_srt (bit : Nat) : (strCauseSet s bit).srt = s.srt :=
  (strCauseSet_frame (F := [.out, .regs, .portA, .portB, .evr]) (OnlyChanges.refl _ s) (by decide) (by decide) (by decide) (by decide) (by decide)).same .srt (by decide)
@[simp] theorem strCauseSet_prog (bit : Nat) : (strCauseSet s bit).prog = s.prog :=
  (strCauseSet_frame (F := [.out, .regs, .portA, .portB, .evr]) (OnlyChanges.refl _ s) (by decide) (by decide) (by decide) (by decide) (by decide)).same .prog (by decide)
@[simp] theorem strCauseSet_pat (bit : Nat) : (strCauseSet s bit).pat = s.pat :=
  (strCauseSet_frame (F := [.out, .regs, .portA, .portB, .evr]) (OnlyChanges.refl _ s) (by decide) (by decide) (by decide) (by decide) (by decide)).same .pat (by decide)
@[simp] theorem strCauseSet_mem (bit : Nat) : (strCauseSet s bit).mem = s.mem :=
  (strCauseSet_frame (F := [.out, .regs, .portA, .portB, .evr]) (OnlyChanges.refl _ s) (by decide) (by decide) (by decide) (by decide) (by decide)).same .mem (by decide)

@[simp] theorem dstCauseSet_pending (d : Nat) (bit : Nat) : (dstCauseSet s d bit).pending = s.pending :=
  (dstCauseSet_frame (F := [.out, .regs, .portA, .portB, .evr]) (OnlyChanges.refl _ s) (by decide) (by decide) (by decide) (by decide) (by decide)).same .pending (by decide)
@[simp] theorem dstCauseSet_clk (d : Nat) (bit : Nat) : (dstCauseSet s d bit).clk = s.clk :=
  (dstCauseSet_frame (F := [.out, .regs, .portA, .portB, .evr]) (OnlyChanges.refl _ s) (by decide) (by decide) (by decide) (by decide) (by decide)).same .clk (by decide)
@[simp] theorem dstCauseSet_thm (d : Nat) (bit : Nat) : (dstCauseSet s d bit).thm = s.thm :=
  (dstCauseSet_frame (F := [.out, .regs, .portA, .portB, .evr]) (OnlyChanges.refl _ s) (by decide) (by decide) (by decide) (by decide) (by decide)).same .thm (by decide)
@[simp] theorem dstCauseSet_pwr (d : Nat) (bit : Nat) : (dstCauseSet s d bit).pwr = s.pwr :=
  (dstCauseSet_frame (F := [.out, .regs, .portA, .portB, .evr]) (OnlyChanges.refl _ s) (by decide) (by decide) (by decide) (by decide) (by decide)).same .pwr (by decide)
@[simp] theorem dstCauseSet_chip (d : Nat) (bit : Nat) : (dstCauseSet s d bit).chip = s.chip :=
  (dstCauseSet_frame (F := [.out, .regs, .portA, .portB, .evr]) (OnlyChanges.refl _ s) (by decide) (by decide) (by decide) (by decide) (by decide)).same .chip (by decide)
@[simp] theorem dstCauseSet_ring (d : Nat) (bit : Nat) : (dstCauseSet s d bit).ring = s.ring :=
  (dstCauseSet_frame (F := [.out, .regs, .portA, .portB, .evr]) (OnlyChanges.refl _ s) (by decide) (by decide) (by decide) (by decide) (by decide)).same .ring (by decide)
@[simp] theorem dstCauseSet_sec (d : Nat) (bit : Nat) : (dstCauseSet s d bit).sec = s.sec :=
  (dstCauseSet_frame (F := [.out, .regs, .portA, .portB, .evr]) (OnlyChanges.refl _ s) (by decide) (by decide) (by decide) (by decide) (by decide)).same .sec (by decide)
@[simp] theorem dstCauseSet_cry (d : Nat) (bit : Nat) : (dstCauseSet s d bit).cry = s.cry :=
  (dstCauseSet_frame (F := [.out, .regs, .portA, .portB, .evr]) (OnlyChanges.refl _ s) (by decide) (by decide) (by decide) (by decide) (by decide)).same .cry (by decide)
@[simp] theorem dstCauseSet_boot (d : Nat) (bit : Nat) : (dstCauseSet s d bit).boot = s.boot :=
  (dstCauseSet_frame (F := [.out, .regs, .portA, .portB, .evr]) (OnlyChanges.refl _ s) (by decide) (by decide) (by decide) (by decide) (by decide)).same .boot (by decide)
@[simp] theorem dstCauseSet_dram (d : Nat) (bit : Nat) : (dstCauseSet s d bit).dram = s.dram :=
  (dstCauseSet_frame (F := [.out, .regs, .portA, .portB, .evr]) (OnlyChanges.refl _ s) (by decide) (by decide) (by decide) (by decide) (by decide)).same .dram (by decide)
@[simp] theorem dstCauseSet_phc (d : Nat) (bit : Nat) : (dstCauseSet s d bit).phc = s.phc :=
  (dstCauseSet_frame (F := [.out, .regs, .portA, .portB, .evr]) (OnlyChanges.refl _ s) (by decide) (by decide) (by decide) (by decide) (by decide)).same .phc (by decide)
@[simp] theorem dstCauseSet_map (d : Nat) (bit : Nat) : (dstCauseSet s d bit).map = s.map :=
  (dstCauseSet_frame (F := [.out, .regs, .portA, .portB, .evr]) (OnlyChanges.refl _ s) (by decide) (by decide) (by decide) (by decide) (by decide)).same .map (by decide)
@[simp] theorem dstCauseSet_flash (d : Nat) (bit : Nat) : (dstCauseSet s d bit).flash = s.flash :=
  (dstCauseSet_frame (F := [.out, .regs, .portA, .portB, .evr]) (OnlyChanges.refl _ s) (by decide) (by decide) (by decide) (by decide) (by decide)).same .flash (by decide)
@[simp] theorem dstCauseSet_jrc (d : Nat) (bit : Nat) : (dstCauseSet s d bit).jrc = s.jrc :=
  (dstCauseSet_frame (F := [.out, .regs, .portA, .portB, .evr]) (OnlyChanges.refl _ s) (by decide) (by decide) (by decide) (by decide) (by decide)).same .jrc (by decide)
@[simp] theorem dstCauseSet_srt (d : Nat) (bit : Nat) : (dstCauseSet s d bit).srt = s.srt :=
  (dstCauseSet_frame (F := [.out, .regs, .portA, .portB, .evr]) (OnlyChanges.refl _ s) (by decide) (by decide) (by decide) (by decide) (by decide)).same .srt (by decide)
@[simp] theorem dstCauseSet_prog (d : Nat) (bit : Nat) : (dstCauseSet s d bit).prog = s.prog :=
  (dstCauseSet_frame (F := [.out, .regs, .portA, .portB, .evr]) (OnlyChanges.refl _ s) (by decide) (by decide) (by decide) (by decide) (by decide)).same .prog (by decide)
@[simp] theorem dstCauseSet_pat (d : Nat) (bit : Nat) : (dstCauseSet s d bit).pat = s.pat :=
  (dstCauseSet_frame (F := [.out, .regs, .portA, .portB, .evr]) (OnlyChanges.refl _ s) (by decide) (by decide) (by decide) (by decide) (by decide)).same .pat (by decide)
@[simp] theorem dstCauseSet_mem (d : Nat) (bit : Nat) : (dstCauseSet s d bit).mem = s.mem :=
  (dstCauseSet_frame (F := [.out, .regs, .portA, .portB, .evr]) (OnlyChanges.refl _ s) (by decide) (by decide) (by decide) (by decide) (by decide)).same .mem (by decide)

@[simp] theorem ringCause_pending (bit : Nat) : (ringCause s bit).pending = s.pending :=
  (ringCause_frame (F := [.out, .regs, .portA, .portB, .evr]) (OnlyChanges.refl _ s) (by decide) (by decide) (by decide) (by decide) (by decide)).same .pending (by decide)
@[simp] theorem ringCause_clk (bit : Nat) : (ringCause s bit).clk = s.clk :=
  (ringCause_frame (F := [.out, .regs, .portA, .portB, .evr]) (OnlyChanges.refl _ s) (by decide) (by decide) (by decide) (by decide) (by decide)).same .clk (by decide)
@[simp] theorem ringCause_thm (bit : Nat) : (ringCause s bit).thm = s.thm :=
  (ringCause_frame (F := [.out, .regs, .portA, .portB, .evr]) (OnlyChanges.refl _ s) (by decide) (by decide) (by decide) (by decide) (by decide)).same .thm (by decide)
@[simp] theorem ringCause_pwr (bit : Nat) : (ringCause s bit).pwr = s.pwr :=
  (ringCause_frame (F := [.out, .regs, .portA, .portB, .evr]) (OnlyChanges.refl _ s) (by decide) (by decide) (by decide) (by decide) (by decide)).same .pwr (by decide)
@[simp] theorem ringCause_chip (bit : Nat) : (ringCause s bit).chip = s.chip :=
  (ringCause_frame (F := [.out, .regs, .portA, .portB, .evr]) (OnlyChanges.refl _ s) (by decide) (by decide) (by decide) (by decide) (by decide)).same .chip (by decide)
@[simp] theorem ringCause_ring (bit : Nat) : (ringCause s bit).ring = s.ring :=
  (ringCause_frame (F := [.out, .regs, .portA, .portB, .evr]) (OnlyChanges.refl _ s) (by decide) (by decide) (by decide) (by decide) (by decide)).same .ring (by decide)
@[simp] theorem ringCause_sec (bit : Nat) : (ringCause s bit).sec = s.sec :=
  (ringCause_frame (F := [.out, .regs, .portA, .portB, .evr]) (OnlyChanges.refl _ s) (by decide) (by decide) (by decide) (by decide) (by decide)).same .sec (by decide)
@[simp] theorem ringCause_cry (bit : Nat) : (ringCause s bit).cry = s.cry :=
  (ringCause_frame (F := [.out, .regs, .portA, .portB, .evr]) (OnlyChanges.refl _ s) (by decide) (by decide) (by decide) (by decide) (by decide)).same .cry (by decide)
@[simp] theorem ringCause_boot (bit : Nat) : (ringCause s bit).boot = s.boot :=
  (ringCause_frame (F := [.out, .regs, .portA, .portB, .evr]) (OnlyChanges.refl _ s) (by decide) (by decide) (by decide) (by decide) (by decide)).same .boot (by decide)
@[simp] theorem ringCause_dram (bit : Nat) : (ringCause s bit).dram = s.dram :=
  (ringCause_frame (F := [.out, .regs, .portA, .portB, .evr]) (OnlyChanges.refl _ s) (by decide) (by decide) (by decide) (by decide) (by decide)).same .dram (by decide)
@[simp] theorem ringCause_phc (bit : Nat) : (ringCause s bit).phc = s.phc :=
  (ringCause_frame (F := [.out, .regs, .portA, .portB, .evr]) (OnlyChanges.refl _ s) (by decide) (by decide) (by decide) (by decide) (by decide)).same .phc (by decide)
@[simp] theorem ringCause_map (bit : Nat) : (ringCause s bit).map = s.map :=
  (ringCause_frame (F := [.out, .regs, .portA, .portB, .evr]) (OnlyChanges.refl _ s) (by decide) (by decide) (by decide) (by decide) (by decide)).same .map (by decide)
@[simp] theorem ringCause_flash (bit : Nat) : (ringCause s bit).flash = s.flash :=
  (ringCause_frame (F := [.out, .regs, .portA, .portB, .evr]) (OnlyChanges.refl _ s) (by decide) (by decide) (by decide) (by decide) (by decide)).same .flash (by decide)
@[simp] theorem ringCause_jrc (bit : Nat) : (ringCause s bit).jrc = s.jrc :=
  (ringCause_frame (F := [.out, .regs, .portA, .portB, .evr]) (OnlyChanges.refl _ s) (by decide) (by decide) (by decide) (by decide) (by decide)).same .jrc (by decide)
@[simp] theorem ringCause_srt (bit : Nat) : (ringCause s bit).srt = s.srt :=
  (ringCause_frame (F := [.out, .regs, .portA, .portB, .evr]) (OnlyChanges.refl _ s) (by decide) (by decide) (by decide) (by decide) (by decide)).same .srt (by decide)
@[simp] theorem ringCause_prog (bit : Nat) : (ringCause s bit).prog = s.prog :=
  (ringCause_frame (F := [.out, .regs, .portA, .portB, .evr]) (OnlyChanges.refl _ s) (by decide) (by decide) (by decide) (by decide) (by decide)).same .prog (by decide)
@[simp] theorem ringCause_pat (bit : Nat) : (ringCause s bit).pat = s.pat :=
  (ringCause_frame (F := [.out, .regs, .portA, .portB, .evr]) (OnlyChanges.refl _ s) (by decide) (by decide) (by decide) (by decide) (by decide)).same .pat (by decide)
@[simp] theorem ringCause_mem (bit : Nat) : (ringCause s bit).mem = s.mem :=
  (ringCause_frame (F := [.out, .regs, .portA, .portB, .evr]) (OnlyChanges.refl _ s) (by decide) (by decide) (by decide) (by decide) (by decide)).same .mem (by decide)

@[simp] theorem takeEntry_pending (p : Port) (qid : Nat) : (takeEntry s p qid).pending = s.pending :=
  (takeEntry_frame (F := [.portA, .portB]) (OnlyChanges.refl _ s) (by decide) (by decide)).same .pending (by decide)
@[simp] theorem takeEntry_out (p : Port) (qid : Nat) : (takeEntry s p qid).out = s.out :=
  (takeEntry_frame (F := [.portA, .portB]) (OnlyChanges.refl _ s) (by decide) (by decide)).same .out (by decide)
@[simp] theorem takeEntry_clk (p : Port) (qid : Nat) : (takeEntry s p qid).clk = s.clk :=
  (takeEntry_frame (F := [.portA, .portB]) (OnlyChanges.refl _ s) (by decide) (by decide)).same .clk (by decide)
@[simp] theorem takeEntry_regs (p : Port) (qid : Nat) : (takeEntry s p qid).regs = s.regs :=
  (takeEntry_frame (F := [.portA, .portB]) (OnlyChanges.refl _ s) (by decide) (by decide)).same .regs (by decide)
@[simp] theorem takeEntry_evr (p : Port) (qid : Nat) : (takeEntry s p qid).evr = s.evr :=
  (takeEntry_frame (F := [.portA, .portB]) (OnlyChanges.refl _ s) (by decide) (by decide)).same .evr (by decide)
@[simp] theorem takeEntry_thm (p : Port) (qid : Nat) : (takeEntry s p qid).thm = s.thm :=
  (takeEntry_frame (F := [.portA, .portB]) (OnlyChanges.refl _ s) (by decide) (by decide)).same .thm (by decide)
@[simp] theorem takeEntry_pwr (p : Port) (qid : Nat) : (takeEntry s p qid).pwr = s.pwr :=
  (takeEntry_frame (F := [.portA, .portB]) (OnlyChanges.refl _ s) (by decide) (by decide)).same .pwr (by decide)
@[simp] theorem takeEntry_chip (p : Port) (qid : Nat) : (takeEntry s p qid).chip = s.chip :=
  (takeEntry_frame (F := [.portA, .portB]) (OnlyChanges.refl _ s) (by decide) (by decide)).same .chip (by decide)
@[simp] theorem takeEntry_ring (p : Port) (qid : Nat) : (takeEntry s p qid).ring = s.ring :=
  (takeEntry_frame (F := [.portA, .portB]) (OnlyChanges.refl _ s) (by decide) (by decide)).same .ring (by decide)
@[simp] theorem takeEntry_sec (p : Port) (qid : Nat) : (takeEntry s p qid).sec = s.sec :=
  (takeEntry_frame (F := [.portA, .portB]) (OnlyChanges.refl _ s) (by decide) (by decide)).same .sec (by decide)
@[simp] theorem takeEntry_cry (p : Port) (qid : Nat) : (takeEntry s p qid).cry = s.cry :=
  (takeEntry_frame (F := [.portA, .portB]) (OnlyChanges.refl _ s) (by decide) (by decide)).same .cry (by decide)
@[simp] theorem takeEntry_boot (p : Port) (qid : Nat) : (takeEntry s p qid).boot = s.boot :=
  (takeEntry_frame (F := [.portA, .portB]) (OnlyChanges.refl _ s) (by decide) (by decide)).same .boot (by decide)
@[simp] theorem takeEntry_dram (p : Port) (qid : Nat) : (takeEntry s p qid).dram = s.dram :=
  (takeEntry_frame (F := [.portA, .portB]) (OnlyChanges.refl _ s) (by decide) (by decide)).same .dram (by decide)
@[simp] theorem takeEntry_phc (p : Port) (qid : Nat) : (takeEntry s p qid).phc = s.phc :=
  (takeEntry_frame (F := [.portA, .portB]) (OnlyChanges.refl _ s) (by decide) (by decide)).same .phc (by decide)
@[simp] theorem takeEntry_map (p : Port) (qid : Nat) : (takeEntry s p qid).map = s.map :=
  (takeEntry_frame (F := [.portA, .portB]) (OnlyChanges.refl _ s) (by decide) (by decide)).same .map (by decide)
@[simp] theorem takeEntry_flash (p : Port) (qid : Nat) : (takeEntry s p qid).flash = s.flash :=
  (takeEntry_frame (F := [.portA, .portB]) (OnlyChanges.refl _ s) (by decide) (by decide)).same .flash (by decide)
@[simp] theorem takeEntry_jrc (p : Port) (qid : Nat) : (takeEntry s p qid).jrc = s.jrc :=
  (takeEntry_frame (F := [.portA, .portB]) (OnlyChanges.refl _ s) (by decide) (by decide)).same .jrc (by decide)
@[simp] theorem takeEntry_srt (p : Port) (qid : Nat) : (takeEntry s p qid).srt = s.srt :=
  (takeEntry_frame (F := [.portA, .portB]) (OnlyChanges.refl _ s) (by decide) (by decide)).same .srt (by decide)
@[simp] theorem takeEntry_prog (p : Port) (qid : Nat) : (takeEntry s p qid).prog = s.prog :=
  (takeEntry_frame (F := [.portA, .portB]) (OnlyChanges.refl _ s) (by decide) (by decide)).same .prog (by decide)
@[simp] theorem takeEntry_pat (p : Port) (qid : Nat) : (takeEntry s p qid).pat = s.pat :=
  (takeEntry_frame (F := [.portA, .portB]) (OnlyChanges.refl _ s) (by decide) (by decide)).same .pat (by decide)
@[simp] theorem takeEntry_mem (p : Port) (qid : Nat) : (takeEntry s p qid).mem = s.mem :=
  (takeEntry_frame (F := [.portA, .portB]) (OnlyChanges.refl _ s) (by decide) (by decide)).same .mem (by decide)

@[simp] theorem takeAdmin_pending (p : Port) : (takeAdmin s p).pending = s.pending :=
  (takeAdmin_frame (F := [.out, .regs, .portA, .portB, .evr, .srt]) (OnlyChanges.refl _ s) (by decide) (by decide) (by decide) (by decide) (by decide)
    (by decide)).same .pending (by decide)
@[simp] theorem takeAdmin_clk (p : Port) : (takeAdmin s p).clk = s.clk :=
  (takeAdmin_frame (F := [.out, .regs, .portA, .portB, .evr, .srt]) (OnlyChanges.refl _ s) (by decide) (by decide) (by decide) (by decide) (by decide)
    (by decide)).same .clk (by decide)
@[simp] theorem takeAdmin_thm (p : Port) : (takeAdmin s p).thm = s.thm :=
  (takeAdmin_frame (F := [.out, .regs, .portA, .portB, .evr, .srt]) (OnlyChanges.refl _ s) (by decide) (by decide) (by decide) (by decide) (by decide)
    (by decide)).same .thm (by decide)
@[simp] theorem takeAdmin_pwr (p : Port) : (takeAdmin s p).pwr = s.pwr :=
  (takeAdmin_frame (F := [.out, .regs, .portA, .portB, .evr, .srt]) (OnlyChanges.refl _ s) (by decide) (by decide) (by decide) (by decide) (by decide)
    (by decide)).same .pwr (by decide)
@[simp] theorem takeAdmin_chip (p : Port) : (takeAdmin s p).chip = s.chip :=
  (takeAdmin_frame (F := [.out, .regs, .portA, .portB, .evr, .srt]) (OnlyChanges.refl _ s) (by decide) (by decide) (by decide) (by decide) (by decide)
    (by decide)).same .chip (by decide)
@[simp] theorem takeAdmin_ring (p : Port) : (takeAdmin s p).ring = s.ring :=
  (takeAdmin_frame (F := [.out, .regs, .portA, .portB, .evr, .srt]) (OnlyChanges.refl _ s) (by decide) (by decide) (by decide) (by decide) (by decide)
    (by decide)).same .ring (by decide)
@[simp] theorem takeAdmin_sec (p : Port) : (takeAdmin s p).sec = s.sec :=
  (takeAdmin_frame (F := [.out, .regs, .portA, .portB, .evr, .srt]) (OnlyChanges.refl _ s) (by decide) (by decide) (by decide) (by decide) (by decide)
    (by decide)).same .sec (by decide)
@[simp] theorem takeAdmin_cry (p : Port) : (takeAdmin s p).cry = s.cry :=
  (takeAdmin_frame (F := [.out, .regs, .portA, .portB, .evr, .srt]) (OnlyChanges.refl _ s) (by decide) (by decide) (by decide) (by decide) (by decide)
    (by decide)).same .cry (by decide)
@[simp] theorem takeAdmin_boot (p : Port) : (takeAdmin s p).boot = s.boot :=
  (takeAdmin_frame (F := [.out, .regs, .portA, .portB, .evr, .srt]) (OnlyChanges.refl _ s) (by decide) (by decide) (by decide) (by decide) (by decide)
    (by decide)).same .boot (by decide)
@[simp] theorem takeAdmin_dram (p : Port) : (takeAdmin s p).dram = s.dram :=
  (takeAdmin_frame (F := [.out, .regs, .portA, .portB, .evr, .srt]) (OnlyChanges.refl _ s) (by decide) (by decide) (by decide) (by decide) (by decide)
    (by decide)).same .dram (by decide)
@[simp] theorem takeAdmin_phc (p : Port) : (takeAdmin s p).phc = s.phc :=
  (takeAdmin_frame (F := [.out, .regs, .portA, .portB, .evr, .srt]) (OnlyChanges.refl _ s) (by decide) (by decide) (by decide) (by decide) (by decide)
    (by decide)).same .phc (by decide)
@[simp] theorem takeAdmin_map (p : Port) : (takeAdmin s p).map = s.map :=
  (takeAdmin_frame (F := [.out, .regs, .portA, .portB, .evr, .srt]) (OnlyChanges.refl _ s) (by decide) (by decide) (by decide) (by decide) (by decide)
    (by decide)).same .map (by decide)
@[simp] theorem takeAdmin_flash (p : Port) : (takeAdmin s p).flash = s.flash :=
  (takeAdmin_frame (F := [.out, .regs, .portA, .portB, .evr, .srt]) (OnlyChanges.refl _ s) (by decide) (by decide) (by decide) (by decide) (by decide)
    (by decide)).same .flash (by decide)
@[simp] theorem takeAdmin_jrc (p : Port) : (takeAdmin s p).jrc = s.jrc :=
  (takeAdmin_frame (F := [.out, .regs, .portA, .portB, .evr, .srt]) (OnlyChanges.refl _ s) (by decide) (by decide) (by decide) (by decide) (by decide)
    (by decide)).same .jrc (by decide)
@[simp] theorem takeFirm_srt (p : Port) : (takeFirm s p).srt = s.srt := by simp [takeFirm]
@[simp] theorem takeAdmin_srt (p : Port) : (takeAdmin s p).srt = { s.srt with lastB := p == .b } := by
  simp [takeAdmin, noteAccept, updSrt]
@[simp] theorem takeAdmin_prog (p : Port) : (takeAdmin s p).prog = s.prog :=
  (takeAdmin_frame (F := [.out, .regs, .portA, .portB, .evr, .srt]) (OnlyChanges.refl _ s) (by decide) (by decide) (by decide) (by decide) (by decide)
    (by decide)).same .prog (by decide)
@[simp] theorem takeAdmin_pat (p : Port) : (takeAdmin s p).pat = s.pat :=
  (takeAdmin_frame (F := [.out, .regs, .portA, .portB, .evr, .srt]) (OnlyChanges.refl _ s) (by decide) (by decide) (by decide) (by decide) (by decide)
    (by decide)).same .pat (by decide)
@[simp] theorem takeAdmin_mem (p : Port) : (takeAdmin s p).mem = s.mem :=
  (takeAdmin_frame (F := [.out, .regs, .portA, .portB, .evr, .srt]) (OnlyChanges.refl _ s) (by decide) (by decide) (by decide) (by decide) (by decide)
    (by decide)).same .mem (by decide)

@[simp] theorem stage_pending (n : Nat) : (stage s n).pending = s.pending :=
  (stage_frame (F := [.out, .regs, .portA, .portB, .evr]) (OnlyChanges.refl _ s) (by decide) (by decide) (by decide) (by decide) (by decide)).same .pending (by decide)
@[simp] theorem stage_clk (n : Nat) : (stage s n).clk = s.clk :=
  (stage_frame (F := [.out, .regs, .portA, .portB, .evr]) (OnlyChanges.refl _ s) (by decide) (by decide) (by decide) (by decide) (by decide)).same .clk (by decide)
@[simp] theorem stage_thm (n : Nat) : (stage s n).thm = s.thm :=
  (stage_frame (F := [.out, .regs, .portA, .portB, .evr]) (OnlyChanges.refl _ s) (by decide) (by decide) (by decide) (by decide) (by decide)).same .thm (by decide)
@[simp] theorem stage_pwr (n : Nat) : (stage s n).pwr = s.pwr :=
  (stage_frame (F := [.out, .regs, .portA, .portB, .evr]) (OnlyChanges.refl _ s) (by decide) (by decide) (by decide) (by decide) (by decide)).same .pwr (by decide)
@[simp] theorem stage_chip (n : Nat) : (stage s n).chip = s.chip :=
  (stage_frame (F := [.out, .regs, .portA, .portB, .evr]) (OnlyChanges.refl _ s) (by decide) (by decide) (by decide) (by decide) (by decide)).same .chip (by decide)
@[simp] theorem stage_ring (n : Nat) : (stage s n).ring = s.ring :=
  (stage_frame (F := [.out, .regs, .portA, .portB, .evr]) (OnlyChanges.refl _ s) (by decide) (by decide) (by decide) (by decide) (by decide)).same .ring (by decide)
@[simp] theorem stage_sec (n : Nat) : (stage s n).sec = s.sec :=
  (stage_frame (F := [.out, .regs, .portA, .portB, .evr]) (OnlyChanges.refl _ s) (by decide) (by decide) (by decide) (by decide) (by decide)).same .sec (by decide)
@[simp] theorem stage_cry (n : Nat) : (stage s n).cry = s.cry :=
  (stage_frame (F := [.out, .regs, .portA, .portB, .evr]) (OnlyChanges.refl _ s) (by decide) (by decide) (by decide) (by decide) (by decide)).same .cry (by decide)
@[simp] theorem stage_boot (n : Nat) : (stage s n).boot = s.boot :=
  (stage_frame (F := [.out, .regs, .portA, .portB, .evr]) (OnlyChanges.refl _ s) (by decide) (by decide) (by decide) (by decide) (by decide)).same .boot (by decide)
@[simp] theorem stage_dram (n : Nat) : (stage s n).dram = s.dram :=
  (stage_frame (F := [.out, .regs, .portA, .portB, .evr]) (OnlyChanges.refl _ s) (by decide) (by decide) (by decide) (by decide) (by decide)).same .dram (by decide)
@[simp] theorem stage_phc (n : Nat) : (stage s n).phc = s.phc :=
  (stage_frame (F := [.out, .regs, .portA, .portB, .evr]) (OnlyChanges.refl _ s) (by decide) (by decide) (by decide) (by decide) (by decide)).same .phc (by decide)
@[simp] theorem stage_map (n : Nat) : (stage s n).map = s.map :=
  (stage_frame (F := [.out, .regs, .portA, .portB, .evr]) (OnlyChanges.refl _ s) (by decide) (by decide) (by decide) (by decide) (by decide)).same .map (by decide)
@[simp] theorem stage_flash (n : Nat) : (stage s n).flash = s.flash :=
  (stage_frame (F := [.out, .regs, .portA, .portB, .evr]) (OnlyChanges.refl _ s) (by decide) (by decide) (by decide) (by decide) (by decide)).same .flash (by decide)
@[simp] theorem stage_jrc (n : Nat) : (stage s n).jrc = s.jrc :=
  (stage_frame (F := [.out, .regs, .portA, .portB, .evr]) (OnlyChanges.refl _ s) (by decide) (by decide) (by decide) (by decide) (by decide)).same .jrc (by decide)
@[simp] theorem stage_srt (n : Nat) : (stage s n).srt = s.srt :=
  (stage_frame (F := [.out, .regs, .portA, .portB, .evr]) (OnlyChanges.refl _ s) (by decide) (by decide) (by decide) (by decide) (by decide)).same .srt (by decide)
@[simp] theorem stage_prog (n : Nat) : (stage s n).prog = s.prog :=
  (stage_frame (F := [.out, .regs, .portA, .portB, .evr]) (OnlyChanges.refl _ s) (by decide) (by decide) (by decide) (by decide) (by decide)).same .prog (by decide)
@[simp] theorem stage_pat (n : Nat) : (stage s n).pat = s.pat :=
  (stage_frame (F := [.out, .regs, .portA, .portB, .evr]) (OnlyChanges.refl _ s) (by decide) (by decide) (by decide) (by decide) (by decide)).same .pat (by decide)
@[simp] theorem stage_mem (n : Nat) : (stage s n).mem = s.mem :=
  (stage_frame (F := [.out, .regs, .portA, .portB, .evr]) (OnlyChanges.refl _ s) (by decide) (by decide) (by decide) (by decide) (by decide)).same .mem (by decide)

@[simp] theorem doneRes_pending (a : Nat) (bits : Nat) : (doneRes s a bits).pending = s.pending :=
  (doneRes_frame (F := [.regs]) (OnlyChanges.refl _ s) (by decide)).same .pending (by decide)
@[simp] theorem doneRes_out (a : Nat) (bits : Nat) : (doneRes s a bits).out = s.out :=
  (doneRes_frame (F := [.regs]) (OnlyChanges.refl _ s) (by decide)).same .out (by decide)
@[simp] theorem doneRes_clk (a : Nat) (bits : Nat) : (doneRes s a bits).clk = s.clk :=
  (doneRes_frame (F := [.regs]) (OnlyChanges.refl _ s) (by decide)).same .clk (by decide)
@[simp] theorem doneRes_portA (a : Nat) (bits : Nat) : (doneRes s a bits).portA = s.portA :=
  (doneRes_frame (F := [.regs]) (OnlyChanges.refl _ s) (by decide)).same .portA (by decide)
@[simp] theorem doneRes_portB (a : Nat) (bits : Nat) : (doneRes s a bits).portB = s.portB :=
  (doneRes_frame (F := [.regs]) (OnlyChanges.refl _ s) (by decide)).same .portB (by decide)
@[simp] theorem doneRes_evr (a : Nat) (bits : Nat) : (doneRes s a bits).evr = s.evr :=
  (doneRes_frame (F := [.regs]) (OnlyChanges.refl _ s) (by decide)).same .evr (by decide)
@[simp] theorem doneRes_thm (a : Nat) (bits : Nat) : (doneRes s a bits).thm = s.thm :=
  (doneRes_frame (F := [.regs]) (OnlyChanges.refl _ s) (by decide)).same .thm (by decide)
@[simp] theorem doneRes_pwr (a : Nat) (bits : Nat) : (doneRes s a bits).pwr = s.pwr :=
  (doneRes_frame (F := [.regs]) (OnlyChanges.refl _ s) (by decide)).same .pwr (by decide)
@[simp] theorem doneRes_chip (a : Nat) (bits : Nat) : (doneRes s a bits).chip = s.chip :=
  (doneRes_frame (F := [.regs]) (OnlyChanges.refl _ s) (by decide)).same .chip (by decide)
@[simp] theorem doneRes_ring (a : Nat) (bits : Nat) : (doneRes s a bits).ring = s.ring :=
  (doneRes_frame (F := [.regs]) (OnlyChanges.refl _ s) (by decide)).same .ring (by decide)
@[simp] theorem doneRes_sec (a : Nat) (bits : Nat) : (doneRes s a bits).sec = s.sec :=
  (doneRes_frame (F := [.regs]) (OnlyChanges.refl _ s) (by decide)).same .sec (by decide)
@[simp] theorem doneRes_cry (a : Nat) (bits : Nat) : (doneRes s a bits).cry = s.cry :=
  (doneRes_frame (F := [.regs]) (OnlyChanges.refl _ s) (by decide)).same .cry (by decide)
@[simp] theorem doneRes_boot (a : Nat) (bits : Nat) : (doneRes s a bits).boot = s.boot :=
  (doneRes_frame (F := [.regs]) (OnlyChanges.refl _ s) (by decide)).same .boot (by decide)
@[simp] theorem doneRes_dram (a : Nat) (bits : Nat) : (doneRes s a bits).dram = s.dram :=
  (doneRes_frame (F := [.regs]) (OnlyChanges.refl _ s) (by decide)).same .dram (by decide)
@[simp] theorem doneRes_phc (a : Nat) (bits : Nat) : (doneRes s a bits).phc = s.phc :=
  (doneRes_frame (F := [.regs]) (OnlyChanges.refl _ s) (by decide)).same .phc (by decide)
@[simp] theorem doneRes_map (a : Nat) (bits : Nat) : (doneRes s a bits).map = s.map :=
  (doneRes_frame (F := [.regs]) (OnlyChanges.refl _ s) (by decide)).same .map (by decide)
@[simp] theorem doneRes_flash (a : Nat) (bits : Nat) : (doneRes s a bits).flash = s.flash :=
  (doneRes_frame (F := [.regs]) (OnlyChanges.refl _ s) (by decide)).same .flash (by decide)
@[simp] theorem doneRes_jrc (a : Nat) (bits : Nat) : (doneRes s a bits).jrc = s.jrc :=
  (doneRes_frame (F := [.regs]) (OnlyChanges.refl _ s) (by decide)).same .jrc (by decide)
@[simp] theorem doneRes_srt (a : Nat) (bits : Nat) : (doneRes s a bits).srt = s.srt :=
  (doneRes_frame (F := [.regs]) (OnlyChanges.refl _ s) (by decide)).same .srt (by decide)
@[simp] theorem doneRes_prog (a : Nat) (bits : Nat) : (doneRes s a bits).prog = s.prog :=
  (doneRes_frame (F := [.regs]) (OnlyChanges.refl _ s) (by decide)).same .prog (by decide)
@[simp] theorem doneRes_pat (a : Nat) (bits : Nat) : (doneRes s a bits).pat = s.pat :=
  (doneRes_frame (F := [.regs]) (OnlyChanges.refl _ s) (by decide)).same .pat (by decide)
@[simp] theorem doneRes_mem (a : Nat) (bits : Nat) : (doneRes s a bits).mem = s.mem :=
  (doneRes_frame (F := [.regs]) (OnlyChanges.refl _ s) (by decide)).same .mem (by decide)

@[simp] theorem trigRes_pending (a : Nat) : (trigRes s a).pending = s.pending :=
  (trigRes_frame (F := [.regs]) (OnlyChanges.refl _ s) (by decide)).same .pending (by decide)
@[simp] theorem trigRes_out (a : Nat) : (trigRes s a).out = s.out :=
  (trigRes_frame (F := [.regs]) (OnlyChanges.refl _ s) (by decide)).same .out (by decide)
@[simp] theorem trigRes_clk (a : Nat) : (trigRes s a).clk = s.clk :=
  (trigRes_frame (F := [.regs]) (OnlyChanges.refl _ s) (by decide)).same .clk (by decide)
@[simp] theorem trigRes_portA (a : Nat) : (trigRes s a).portA = s.portA :=
  (trigRes_frame (F := [.regs]) (OnlyChanges.refl _ s) (by decide)).same .portA (by decide)
@[simp] theorem trigRes_portB (a : Nat) : (trigRes s a).portB = s.portB :=
  (trigRes_frame (F := [.regs]) (OnlyChanges.refl _ s) (by decide)).same .portB (by decide)
@[simp] theorem trigRes_evr (a : Nat) : (trigRes s a).evr = s.evr :=
  (trigRes_frame (F := [.regs]) (OnlyChanges.refl _ s) (by decide)).same .evr (by decide)
@[simp] theorem trigRes_thm (a : Nat) : (trigRes s a).thm = s.thm :=
  (trigRes_frame (F := [.regs]) (OnlyChanges.refl _ s) (by decide)).same .thm (by decide)
@[simp] theorem trigRes_pwr (a : Nat) : (trigRes s a).pwr = s.pwr :=
  (trigRes_frame (F := [.regs]) (OnlyChanges.refl _ s) (by decide)).same .pwr (by decide)
@[simp] theorem trigRes_chip (a : Nat) : (trigRes s a).chip = s.chip :=
  (trigRes_frame (F := [.regs]) (OnlyChanges.refl _ s) (by decide)).same .chip (by decide)
@[simp] theorem trigRes_ring (a : Nat) : (trigRes s a).ring = s.ring :=
  (trigRes_frame (F := [.regs]) (OnlyChanges.refl _ s) (by decide)).same .ring (by decide)
@[simp] theorem trigRes_sec (a : Nat) : (trigRes s a).sec = s.sec :=
  (trigRes_frame (F := [.regs]) (OnlyChanges.refl _ s) (by decide)).same .sec (by decide)
@[simp] theorem trigRes_cry (a : Nat) : (trigRes s a).cry = s.cry :=
  (trigRes_frame (F := [.regs]) (OnlyChanges.refl _ s) (by decide)).same .cry (by decide)
@[simp] theorem trigRes_boot (a : Nat) : (trigRes s a).boot = s.boot :=
  (trigRes_frame (F := [.regs]) (OnlyChanges.refl _ s) (by decide)).same .boot (by decide)
@[simp] theorem trigRes_dram (a : Nat) : (trigRes s a).dram = s.dram :=
  (trigRes_frame (F := [.regs]) (OnlyChanges.refl _ s) (by decide)).same .dram (by decide)
@[simp] theorem trigRes_phc (a : Nat) : (trigRes s a).phc = s.phc :=
  (trigRes_frame (F := [.regs]) (OnlyChanges.refl _ s) (by decide)).same .phc (by decide)
@[simp] theorem trigRes_map (a : Nat) : (trigRes s a).map = s.map :=
  (trigRes_frame (F := [.regs]) (OnlyChanges.refl _ s) (by decide)).same .map (by decide)
@[simp] theorem trigRes_flash (a : Nat) : (trigRes s a).flash = s.flash :=
  (trigRes_frame (F := [.regs]) (OnlyChanges.refl _ s) (by decide)).same .flash (by decide)
@[simp] theorem trigRes_jrc (a : Nat) : (trigRes s a).jrc = s.jrc :=
  (trigRes_frame (F := [.regs]) (OnlyChanges.refl _ s) (by decide)).same .jrc (by decide)
@[simp] theorem trigRes_srt (a : Nat) : (trigRes s a).srt = s.srt :=
  (trigRes_frame (F := [.regs]) (OnlyChanges.refl _ s) (by decide)).same .srt (by decide)
@[simp] theorem trigRes_prog (a : Nat) : (trigRes s a).prog = s.prog :=
  (trigRes_frame (F := [.regs]) (OnlyChanges.refl _ s) (by decide)).same .prog (by decide)
@[simp] theorem trigRes_pat (a : Nat) : (trigRes s a).pat = s.pat :=
  (trigRes_frame (F := [.regs]) (OnlyChanges.refl _ s) (by decide)).same .pat (by decide)
@[simp] theorem trigRes_mem (a : Nat) : (trigRes s a).mem = s.mem :=
  (trigRes_frame (F := [.regs]) (OnlyChanges.refl _ s) (by decide)).same .mem (by decide)

@[simp] theorem setChip_pending (n : Nat) : (setChip s n).pending = s.pending :=
  (setChip_frame (F := [.out, .regs, .portA, .portB, .evr, .map]) (OnlyChanges.refl _ s) (by decide) (by decide) (by decide) (by decide) (by decide) (by decide)).same .pending (by decide)
@[simp] theorem setChip_clk (n : Nat) : (setChip s n).clk = s.clk :=
  (setChip_frame (F := [.out, .regs, .portA, .portB, .evr, .map]) (OnlyChanges.refl _ s) (by decide) (by decide) (by decide) (by decide) (by decide) (by decide)).same .clk (by decide)
@[simp] theorem setChip_thm (n : Nat) : (setChip s n).thm = s.thm :=
  (setChip_frame (F := [.out, .regs, .portA, .portB, .evr, .map]) (OnlyChanges.refl _ s) (by decide) (by decide) (by decide) (by decide) (by decide) (by decide)).same .thm (by decide)
@[simp] theorem setChip_pwr (n : Nat) : (setChip s n).pwr = s.pwr :=
  (setChip_frame (F := [.out, .regs, .portA, .portB, .evr, .map]) (OnlyChanges.refl _ s) (by decide) (by decide) (by decide) (by decide) (by decide) (by decide)).same .pwr (by decide)
@[simp] theorem setChip_chip (n : Nat) : (setChip s n).chip = s.chip :=
  (setChip_frame (F := [.out, .regs, .portA, .portB, .evr, .map]) (OnlyChanges.refl _ s) (by decide) (by decide) (by decide) (by decide) (by decide) (by decide)).same .chip (by decide)
@[simp] theorem setChip_ring (n : Nat) : (setChip s n).ring = s.ring :=
  (setChip_frame (F := [.out, .regs, .portA, .portB, .evr, .map]) (OnlyChanges.refl _ s) (by decide) (by decide) (by decide) (by decide) (by decide) (by decide)).same .ring (by decide)
@[simp] theorem setChip_sec (n : Nat) : (setChip s n).sec = s.sec :=
  (setChip_frame (F := [.out, .regs, .portA, .portB, .evr, .map]) (OnlyChanges.refl _ s) (by decide) (by decide) (by decide) (by decide) (by decide) (by decide)).same .sec (by decide)
@[simp] theorem setChip_cry (n : Nat) : (setChip s n).cry = s.cry :=
  (setChip_frame (F := [.out, .regs, .portA, .portB, .evr, .map]) (OnlyChanges.refl _ s) (by decide) (by decide) (by decide) (by decide) (by decide) (by decide)).same .cry (by decide)
@[simp] theorem setChip_boot (n : Nat) : (setChip s n).boot = s.boot :=
  (setChip_frame (F := [.out, .regs, .portA, .portB, .evr, .map]) (OnlyChanges.refl _ s) (by decide) (by decide) (by decide) (by decide) (by decide) (by decide)).same .boot (by decide)
@[simp] theorem setChip_dram (n : Nat) : (setChip s n).dram = s.dram :=
  (setChip_frame (F := [.out, .regs, .portA, .portB, .evr, .map]) (OnlyChanges.refl _ s) (by decide) (by decide) (by decide) (by decide) (by decide) (by decide)).same .dram (by decide)
@[simp] theorem setChip_phc (n : Nat) : (setChip s n).phc = s.phc :=
  (setChip_frame (F := [.out, .regs, .portA, .portB, .evr, .map]) (OnlyChanges.refl _ s) (by decide) (by decide) (by decide) (by decide) (by decide) (by decide)).same .phc (by decide)
@[simp] theorem setChip_flash (n : Nat) : (setChip s n).flash = s.flash :=
  (setChip_frame (F := [.out, .regs, .portA, .portB, .evr, .map]) (OnlyChanges.refl _ s) (by decide) (by decide) (by decide) (by decide) (by decide) (by decide)).same .flash (by decide)
@[simp] theorem setChip_jrc (n : Nat) : (setChip s n).jrc = s.jrc :=
  (setChip_frame (F := [.out, .regs, .portA, .portB, .evr, .map]) (OnlyChanges.refl _ s) (by decide) (by decide) (by decide) (by decide) (by decide) (by decide)).same .jrc (by decide)
@[simp] theorem setChip_srt (n : Nat) : (setChip s n).srt = s.srt :=
  (setChip_frame (F := [.out, .regs, .portA, .portB, .evr, .map]) (OnlyChanges.refl _ s) (by decide) (by decide) (by decide) (by decide) (by decide) (by decide)).same .srt (by decide)
@[simp] theorem setChip_prog (n : Nat) : (setChip s n).prog = s.prog :=
  (setChip_frame (F := [.out, .regs, .portA, .portB, .evr, .map]) (OnlyChanges.refl _ s) (by decide) (by decide) (by decide) (by decide) (by decide) (by decide)).same .prog (by decide)
@[simp] theorem setChip_pat (n : Nat) : (setChip s n).pat = s.pat :=
  (setChip_frame (F := [.out, .regs, .portA, .portB, .evr, .map]) (OnlyChanges.refl _ s) (by decide) (by decide) (by decide) (by decide) (by decide) (by decide)).same .pat (by decide)
@[simp] theorem setChip_mem (n : Nat) : (setChip s n).mem = s.mem :=
  (setChip_frame (F := [.out, .regs, .portA, .portB, .evr, .map]) (OnlyChanges.refl _ s) (by decide) (by decide) (by decide) (by decide) (by decide) (by decide)).same .mem (by decide)

@[simp] theorem trig54_pending (a : Nat) : (trig54 s a).pending = s.pending :=
  (trig54_frame (F := [.regs]) (OnlyChanges.refl _ s) (by decide)).same .pending (by decide)
@[simp] theorem trig54_out (a : Nat) : (trig54 s a).out = s.out :=
  (trig54_frame (F := [.regs]) (OnlyChanges.refl _ s) (by decide)).same .out (by decide)
@[simp] theorem trig54_clk (a : Nat) : (trig54 s a).clk = s.clk :=
  (trig54_frame (F := [.regs]) (OnlyChanges.refl _ s) (by decide)).same .clk (by decide)
@[simp] theorem trig54_portA (a : Nat) : (trig54 s a).portA = s.portA :=
  (trig54_frame (F := [.regs]) (OnlyChanges.refl _ s) (by decide)).same .portA (by decide)
@[simp] theorem trig54_portB (a : Nat) : (trig54 s a).portB = s.portB :=
  (trig54_frame (F := [.regs]) (OnlyChanges.refl _ s) (by decide)).same .portB (by decide)
@[simp] theorem trig54_evr (a : Nat) : (trig54 s a).evr = s.evr :=
  (trig54_frame (F := [.regs]) (OnlyChanges.refl _ s) (by decide)).same .evr (by decide)
@[simp] theorem trig54_thm (a : Nat) : (trig54 s a).thm = s.thm :=
  (trig54_frame (F := [.regs]) (OnlyChanges.refl _ s) (by decide)).same .thm (by decide)
@[simp] theorem trig54_pwr (a : Nat) : (trig54 s a).pwr = s.pwr :=
  (trig54_frame (F := [.regs]) (OnlyChanges.refl _ s) (by decide)).same .pwr (by decide)
@[simp] theorem trig54_chip (a : Nat) : (trig54 s a).chip = s.chip :=
  (trig54_frame (F := [.regs]) (OnlyChanges.refl _ s) (by decide)).same .chip (by decide)
@[simp] theorem trig54_ring (a : Nat) : (trig54 s a).ring = s.ring :=
  (trig54_frame (F := [.regs]) (OnlyChanges.refl _ s) (by decide)).same .ring (by decide)
@[simp] theorem trig54_sec (a : Nat) : (trig54 s a).sec = s.sec :=
  (trig54_frame (F := [.regs]) (OnlyChanges.refl _ s) (by decide)).same .sec (by decide)
@[simp] theorem trig54_cry (a : Nat) : (trig54 s a).cry = s.cry :=
  (trig54_frame (F := [.regs]) (OnlyChanges.refl _ s) (by decide)).same .cry (by decide)
@[simp] theorem trig54_boot (a : Nat) : (trig54 s a).boot = s.boot :=
  (trig54_frame (F := [.regs]) (OnlyChanges.refl _ s) (by decide)).same .boot (by decide)
@[simp] theorem trig54_dram (a : Nat) : (trig54 s a).dram = s.dram :=
  (trig54_frame (F := [.regs]) (OnlyChanges.refl _ s) (by decide)).same .dram (by decide)
@[simp] theorem trig54_phc (a : Nat) : (trig54 s a).phc = s.phc :=
  (trig54_frame (F := [.regs]) (OnlyChanges.refl _ s) (by decide)).same .phc (by decide)
@[simp] theorem trig54_map (a : Nat) : (trig54 s a).map = s.map :=
  (trig54_frame (F := [.regs]) (OnlyChanges.refl _ s) (by decide)).same .map (by decide)
@[simp] theorem trig54_flash (a : Nat) : (trig54 s a).flash = s.flash :=
  (trig54_frame (F := [.regs]) (OnlyChanges.refl _ s) (by decide)).same .flash (by decide)
@[simp] theorem trig54_jrc (a : Nat) : (trig54 s a).jrc = s.jrc :=
  (trig54_frame (F := [.regs]) (OnlyChanges.refl _ s) (by decide)).same .jrc (by decide)
@[simp] theorem trig54_srt (a : Nat) : (trig54 s a).srt = s.srt :=
  (trig54_frame (F := [.regs]) (OnlyChanges.refl _ s) (by decide)).same .srt (by decide)
@[simp] theorem trig54_prog (a : Nat) : (trig54 s a).prog = s.prog :=
  (trig54_frame (F := [.regs]) (OnlyChanges.refl _ s) (by decide)).same .prog (by decide)
@[simp] theorem trig54_pat (a : Nat) : (trig54 s a).pat = s.pat :=
  (trig54_frame (F := [.regs]) (OnlyChanges.refl _ s) (by decide)).same .pat (by decide)
@[simp] theorem trig54_mem (a : Nat) : (trig54 s a).mem = s.mem :=
  (trig54_frame (F := [.regs]) (OnlyChanges.refl _ s) (by decide)).same .mem (by decide)

end Sys2Proof.Machine
end

