-- ==== Sys2Proof/Laws/Registers.lean ====
section
/-! SUPPORT. What a register reads after the operations that write registers, and which registers a raise changes. -/

set_option Elab.async false

namespace Sys2Proof.Machine

variable (s : State)

/-- The registers that a raise may change: the pending bitmaps, EVR_LOSTCNT and EVR_SUPPCNT. -/
def signalReg (a : Nat) : Bool := (0x100040 ≤ a && a < 0x100340) || a == 0xD0038 || a == 0xD003C

theorem rd_of_regs {s t : State} (h : t.regs = s.regs) (a : Nat) : rd t a = rd s a := by simp [rd, h]

@[simp] theorem rd_emit (o : Out) (a : Nat) : rd (emit s o) a = rd s a := rfl
@[simp] theorem rd_msixSend (p : Port) (v a : Nat) : rd (msixSend s p v) a = rd s a := rd_of_regs (msixSend_regs s p v) a
@[simp] theorem rd_vendorMsg (p : Port) (v a : Nat) : rd (vendorMsg s p v) a = rd s a := rd_of_regs (vendorMsg_regs s p v) a
@[simp] theorem rd_cqInterrupt (p : Port) (k : Nat) (q : Cq) (a : Nat) : rd (cqInterrupt s p k q) a = rd s a :=
  rd_of_regs (cqInterrupt_regs s p k q) a
@[simp] theorem rd_takeEntry (p : Port) (q a : Nat) : rd (takeEntry s p q) a = rd s a := rd_of_regs (takeEntry_regs s p q) a

theorem rd_wrField_other {a b hi lo v : Nat} (h : b ≠ a) : rd (wrField s a hi lo v) b = rd s b := rd_wr_other s _ h
theorem rd_wrField_same (a hi lo v : Nat) : rd (wrField s a hi lo v) a = setBits (rd s a) hi lo v % 2 ^ 64 := rd_wr_same s _ _
theorem rd_orReg_other {a b m : Nat} (h : b ≠ a) : rd (orReg s a m) b = rd s b := rd_wr_other s _ h
theorem rd_orReg_same (a m : Nat) : rd (orReg s a m) a = (rd s a ||| m) % 2 ^ 64 := rd_wr_same s _ _
theorem rd_satAdd_other {a b hi lo n : Nat} (h : b ≠ a) : rd (satAdd s a hi lo n) b = rd s b := rd_wr_other s _ h

theorem rd_enqueue {a : Nat} (c : Cand) (h : a ≠ 0xD0038) : rd (enqueue s c) a = rd s a := by
  unfold enqueue
  split
  · rfl
  · dsimp only
    have k : rd (satAdd s Reg.evrLostCnt 31 0 1) a = rd s a := rd_satAdd_other s h
    split <;> simpa [rd] using k

theorem rd_admitCand {a : Nat} (c : Cand) (h : a ≠ 0xD0038) (h2 : a ≠ 0xD003C) : rd (admitCand s c) a = rd s a := by
  unfold admitCand
  split
  · exact rd_enqueue s c h
  · dsimp only
    split
    · rw [rd_satAdd_other _ (by exact h2)]; rfl
    · rw [rd_enqueue _ _ h]; rfl

theorem rd_foldl_same {β : Type} {g : State → β → State} {a : Nat} (l : List β) (hg : ∀ t b, b ∈ l → rd (g t b) a = rd t a) :
    rd (l.foldl g s) a = rd s a := by
  induction l generalizing s with
  | nil => rfl
  | cons b r ih =>
    rw [List.foldl_cons, ih _ fun t c hc => hg t c (List.mem_cons_of_mem _ hc)]
    exact hg s b List.mem_cons_self

theorem rd_setMapBit {a n : Nat} (base : Nat → Nat) (h : a ≠ base (n / 32)) : rd (setMapBit s base n) a = rd s a :=
  rd_orReg_other s h

/-- A raise changes only the pending bitmaps and the recorder's two counters. -/
theorem rd_raiseWith {a : Nat} (n : Nat) (pl : List Byte) (origin : Nat) (h : signalReg a = false) :
    rd (raiseWith s n pl origin) a = rd s a := by
  simp only [signalReg, Bool.or_eq_false_iff, Bool.and_eq_false_iff, decide_eq_false_iff_not, beq_eq_false_iff_ne] at h
  obtain ⟨⟨hr, h1⟩, h2⟩ := h
  unfold raiseWith
  split
  · rfl
  rename_i hn
  have hn : n / 32 < 8 := by
    have : n < 248 := by
      by_contra hc
      exact hn (by simp [show 248 ≤ n by omega])
    omega
  dsimp only
  have e0 : ∀ t, rd (setMapBit t Reg.srcPend n) a = rd t a := fun t => rd_setMapBit t _ (by unfold Reg.srcPend; omega)
  have e1 : ∀ t, rd (setMapBit t Reg.hpendA n) a = rd t a := fun t => rd_setMapBit t _ (by unfold Reg.hpendA; omega)
  have e2 : ∀ t, rd (setMapBit t Reg.hpendB n) a = rd t a := fun t => rd_setMapBit t _ (by unfold Reg.hpendB; omega)
  have e3 : ∀ t, rd ((routeCores (rd s (Reg.route n))).foldl (fun s k => setMapBit s (Reg.cpend k) n) t) a = rd t a := by
    intro t
    refine rd_foldl_same t _ fun u k hk => rd_setMapBit u _ ?_
    have : k < 10 := by simp [routeCores] at hk; exact hk.1
    unfold Reg.cpend
    omega
  split <;> (try rw [rd_admitCand _ _ h1 h2]) <;> split <;> split <;> simp only [rd_vendorMsg, e0, e1, e2, e3]

theorem rd_raise {a : Nat} (n : Nat) (h : signalReg a = false) : rd (raise s n) a = rd s a := rd_raiseWith s n _ _ h
theorem rd_placeCompl {a : Nat} (p : Port) (k : Nat) (q : Cq) (c : Compl) (h : signalReg a = false) :
    rd (placeCompl s p k q c) a = rd s a := by
  unfold placeCompl
  dsimp only
  rw [rd_cqInterrupt]
  split
  · rw [rd_raise _ _ h, rd_emit, rd_modPort]
  · rw [rd_emit, rd_modPort]
theorem rd_post {a : Nat} (c : Compl) (h : signalReg a = false) : rd (post s c) a = rd s a := by
  unfold post
  dsimp only
  split
  · rfl
  split
  · exact rd_setPort s _ _ a
  · exact rd_placeCompl s _ _ _ _ h
theorem rd_complete {a : Nat} (q : Sqe) (st : Status) (dw lba cs : Nat) (h : signalReg a = false) :
    rd (complete s q st dw lba cs) a = rd s a := by
  unfold complete
  dsimp only
  rw [rd_post _ _ h]
  split
  · exact rd_modPort s _ _ a
  · rfl
theorem rd_setCause {a c bit src : Nat} (h : signalReg a = false) (hc : a ≠ c) : rd (setCause s c bit src) a = rd s a := by
  unfold setCause
  split
  · rfl
  · rw [rd_raise _ _ h, rd_orReg_other _ hc]

end Sys2Proof.Machine
end

