-- ==== Sys2Proof/Laws/Bits.lean ====
section
/-! SUPPORT. Bit fields: what reading bits gives after bits were set, in numbers and in registers. -/

set_option Elab.async false

namespace Sys2Proof.Machine

theorem bitOf_or (a b n : Nat) : bitOf (a ||| b) n = (bitOf a n || bitOf b n) := by simp [bitOf]
theorem bitOf_mod (a m n : Nat) (h : n < m) : bitOf (a % 2 ^ m) n = bitOf a n := by simp [bitOf, Nat.testBit_mod_two_pow, h]
theorem bitOf_two_pow (n : Nat) : bitOf (2 ^ n) n = true := by simp [bitOf]

theorem testBit_bitsOf (v hi lo k : Nat) : (bitsOf v hi lo).testBit k = (decide (k < hi + 1 - lo) && v.testBit (k + lo)) := by
  simp [bitsOf, Nat.testBit_mod_two_pow, Nat.testBit_div_two_pow]

theorem bitsOf_mod64 (v hi lo : Nat) (h : hi < 64) : bitsOf (v % 2 ^ 64) hi lo = bitsOf v hi lo := by
  apply Nat.eq_of_testBit_eq
  intro k
  simp only [testBit_bitsOf, Nat.testBit_mod_two_pow]
  by_cases hk : k < hi + 1 - lo
  · have : k + lo < 64 := by omega
    simp [this]
  · simp [hk]

theorem bitsOf_lt (v hi lo : Nat) : bitsOf v hi lo < 2 ^ (hi + 1 - lo) := Nat.mod_lt _ (Nat.two_pow_pos _)

/-- The number around a field: what lies above it, the field and what lies below it. -/
theorem setBits_eq (v hi lo x : Nat) :
    setBits v hi lo x = v / 2 ^ lo / 2 ^ (hi + 1 - lo) * (2 ^ (hi + 1 - lo) * 2 ^ lo) + x % 2 ^ (hi + 1 - lo) * 2 ^ lo + v % 2 ^ lo := by
  have h1 := Nat.div_add_mod v (2 ^ lo)
  have h2 := Nat.div_add_mod (v / 2 ^ lo) (2 ^ (hi + 1 - lo))
  unfold setBits bitsOf
  generalize hA : 2 ^ lo = A at *
  generalize hN : 2 ^ (hi + 1 - lo) = N at *
  generalize hq : v / A / N = q at *
  generalize hb : v / A % N = b at *
  generalize hr : v % A = r at *
  have h3 : v = q * (N * A) + b * A + r := by
    rw [← h1, ← h2]; ring
  rw [h3]
  omega

theorem testBit_setBits (v hi lo x k : Nat) :
    (setBits v hi lo x).testBit k = if lo ≤ k ∧ k < hi + 1 then x.testBit (k - lo) else v.testBit k := by
  by_cases hl : hi + 1 ≤ lo
  · have h0 : hi + 1 - lo = 0 := by omega
    have : setBits v hi lo x = v := by simp [setBits, bitsOf, h0, Nat.mod_one]
    rw [this, if_neg (by omega)]
  rw [setBits_eq]
  have hp : 2 ^ (hi + 1 - lo) * 2 ^ lo = 2 ^ (hi + 1) := by rw [← Nat.pow_add]; congr 1; omega
  have hd : v / 2 ^ lo / 2 ^ (hi + 1 - lo) = v / 2 ^ (hi + 1) := by rw [Nat.div_div_eq_div_mul, Nat.mul_comm, hp]
  rw [hp, hd]
  have hr : v % 2 ^ lo < 2 ^ lo := Nat.mod_lt _ (Nat.two_pow_pos _)
  have hx : x % 2 ^ (hi + 1 - lo) < 2 ^ (hi + 1 - lo) := Nat.mod_lt _ (Nat.two_pow_pos _)
  have hlow : x % 2 ^ (hi + 1 - lo) * 2 ^ lo + v % 2 ^ lo < 2 ^ (hi + 1) := by
    rw [← hp]
    calc _ < x % 2 ^ (hi + 1 - lo) * 2 ^ lo + 2 ^ lo := by omega
      _ = (x % 2 ^ (hi + 1 - lo) + 1) * 2 ^ lo := by ring
      _ ≤ _ := Nat.mul_le_mul_right _ hx
  rw [Nat.mul_comm (v / 2 ^ (hi + 1)), Nat.add_assoc, Nat.testBit_two_pow_mul_add _ hlow]
  by_cases hk : k < hi + 1
  · rw [if_pos hk, Nat.mul_comm _ (2 ^ lo), Nat.testBit_two_pow_mul_add _ hr]
    by_cases h2 : k < lo
    · rw [if_pos h2, if_neg (by omega), Nat.testBit_mod_two_pow]; simp [h2]
    · rw [if_neg h2, if_pos ⟨by omega, hk⟩, Nat.testBit_mod_two_pow]
      have : k - lo < hi + 1 - lo := by omega
      simp [this]
  · rw [if_neg hk, if_neg (by omega), Nat.testBit_div_two_pow]
    congr 1; omega

theorem bitsOf_setBits (v hi lo x : Nat) : bitsOf (setBits v hi lo x) hi lo = x % 2 ^ (hi + 1 - lo) := by
  apply Nat.eq_of_testBit_eq
  intro k
  rw [testBit_bitsOf, testBit_setBits, Nat.testBit_mod_two_pow]
  by_cases hk : k < hi + 1 - lo
  · rw [if_pos (by omega)]; simp [hk]
  · simp [hk]

/-- A field apart from the one that is set keeps its bits. -/
theorem bitsOf_setBits_other (v hi lo h2 l2 x : Nat) (h : h2 < lo ∨ hi < l2) : bitsOf (setBits v hi lo x) h2 l2 = bitsOf v h2 l2 := by
  apply Nat.eq_of_testBit_eq
  intro k
  rw [testBit_bitsOf, testBit_bitsOf, testBit_setBits]
  by_cases hk : k < h2 + 1 - l2
  · rw [if_neg (by omega)]
  · simp [hk]

theorem bitOf_setBits_other (v hi lo n x : Nat) (h : n < lo ∨ hi < n) : bitOf (setBits v hi lo x) n = bitOf v n := by
  rw [bitOf, bitOf, testBit_setBits, if_neg (by omega)]
theorem bitOf_setBits_one (v n x : Nat) : bitOf (setBits v n n x) n = bitOf x 0 := by
  rw [bitOf, bitOf, testBit_setBits, if_pos (by omega), Nat.sub_self]

/-! ## Fields of registers -/

variable (s : State)

theorem rdField_wrField (a hi lo v : Nat) (h : hi < 64) : rdField (wrField s a hi lo v) a hi lo = v % 2 ^ (hi + 1 - lo) := by
  rw [rdField, rd_wrField_same, bitsOf_mod64 _ _ _ h, bitsOf_setBits]
theorem rdField_wrField_other (a hi lo v h2 l2 : Nat) (h : h2 < 64) (hd : h2 < lo ∨ hi < l2) :
    rdField (wrField s a hi lo v) a h2 l2 = rdField s a h2 l2 := by
  rw [rdField, rdField, rd_wrField_same, bitsOf_mod64 _ _ _ h, bitsOf_setBits_other _ _ _ _ _ _ hd]
theorem bitOf_wrField (a n v : Nat) (h : n < 64) : bitOf (rd (wrField s a n n v) a) n = bitOf v 0 := by
  rw [rd_wrField_same, bitOf_mod _ _ _ h, bitOf_setBits_one]
theorem bitOf_wrField_other (a hi lo v n : Nat) (h : n < 64) (hd : n < lo ∨ hi < n) :
    bitOf (rd (wrField s a hi lo v) a) n = bitOf (rd s a) n := by
  rw [rd_wrField_same, bitOf_mod _ _ _ h, bitOf_setBits_other _ _ _ _ _ hd]
theorem bitOf_orReg (a m n : Nat) (h : n < 64) : bitOf (rd (orReg s a m) a) n = (bitOf (rd s a) n || bitOf m n) := by
  rw [rd_orReg_same, bitOf_mod _ _ _ h, bitOf_or]

theorem active_setActive (b : Blk) (u : Nat) (on : Bool) : active (setActive s b u on) b u = on := by
  rw [active, setActive, bitOf_wrField _ _ _ _ (by decide)]; cases on <;> rfl

/-- A raise leaves a field of a register outside the fabric's bitmaps and the recorder's counters as it is. -/
theorem rdField_raiseWith {a : Nat} (hi lo n : Nat) (pl : List Byte) (o : Nat) (h : signalReg a = false) :
    rdField (raiseWith s n pl o) a hi lo = rdField s a hi lo := by rw [rdField, rdField, rd_raiseWith _ _ _ _ h]
theorem rdField_raise {a : Nat} (hi lo n : Nat) (h : signalReg a = false) : rdField (raise s n) a hi lo = rdField s a hi lo :=
  rdField_raiseWith s hi lo n _ _ h

end Sys2Proof.Machine
end

