-- ==== Sys2Proof/Laws/Ports.lean ====
section
/-! SUPPORT. What a raise leaves of a port: everything but its MSI-X table and holdoffs. -/

set_option Elab.async false

namespace Sys2Proof.Machine

variable (s : State)

/-- A port but for its MSI-X table and its holdoffs. -/
def portCore (x : PortSt) : PortSt := { x with msix := [], hold := [] }

theorem portCore_setPort {p q : Port} {x : PortSt} (h : portCore x = portCore (getPort s p)) :
    portCore (getPort (setPort s p x) q) = portCore (getPort s q) := by
  by_cases e : q = p
  · subst e; simpa using h
  · rw [getPort_setPort_other s x e]

@[simp] theorem getPort_emit (o : Out) (q : Port) : getPort (emit s o) q = getPort s q := by cases q <;> rfl
theorem portCore_msixSend (p : Port) (v : Nat) (q : Port) : portCore (getPort (msixSend s p v) q) = portCore (getPort s q) := by
  unfold msixSend
  dsimp only
  split
  · rfl
  split
  · exact portCore_setPort s rfl
  · rw [getPort_emit]
    exact portCore_setPort s rfl

theorem portCore_vendorMsg (p : Port) (v : Nat) (q : Port) : portCore (getPort (vendorMsg s p v) q) = portCore (getPort s q) := by
  unfold vendorMsg
  dsimp only
  split
  · rfl
  split
  · exact portCore_setPort s rfl
  · exact portCore_msixSend s p v q

theorem getPort_of_ports {t : State} (a : t.portA = s.portA) (b : t.portB = s.portB) (q : Port) : getPort t q = getPort s q := by
  cases q <;> assumption
@[simp] theorem getPort_orReg (a m : Nat) (q : Port) : getPort (orReg s a m) q = getPort s q := by cases q <;> rfl
@[simp] theorem getPort_wrField (a hi lo v : Nat) (q : Port) : getPort (wrField s a hi lo v) q = getPort s q := by cases q <;> rfl
@[simp] theorem getPort_satAdd (a hi lo n : Nat) (q : Port) : getPort (satAdd s a hi lo n) q = getPort s q := by cases q <;> rfl
theorem getPort_setMapBit (b : Nat → Nat) (n : Nat) (q : Port) : getPort (setMapBit s b n) q = getPort s q := by cases q <;> rfl
theorem getPort_admitCand (c : Cand) (q : Port) : getPort (admitCand s c) q = getPort s q :=
  getPort_of_ports s (admitCand_portA s c) (admitCand_portB s c) q
theorem getPort_routeFold (l : List Nat) (n : Nat) (q : Port) :
    getPort (l.foldl (fun s k => setMapBit s (Reg.cpend k) n) s) q = getPort s q := by
  induction l generalizing s with
  | nil => rfl
  | cons k r ih => rw [List.foldl_cons, ih]; rfl

theorem portCore_raiseWith (n : Nat) (pl : List Byte) (o : Nat) (q : Port) :
    portCore (getPort (raiseWith s n pl o) q) = portCore (getPort s q) := by
  unfold raiseWith
  dsimp only
  split
  · rfl
  split <;> (try rw [getPort_admitCand]) <;> split <;> split <;>
    simp only [portCore_vendorMsg, getPort_setMapBit, getPort_routeFold]

theorem portCore_raise (n : Nat) (q : Port) : portCore (getPort (raise s n) q) = portCore (getPort s q) := portCore_raiseWith s n _ _ q

@[simp] theorem getPort_raise_en (n : Nat) (q : Port) : (getPort (raise s n) q).en = (getPort s q).en :=
  by have h := congrArg PortSt.en (portCore_raise s n q); exact h
@[simp] theorem getPort_raise_rdy (n : Nat) (q : Port) : (getPort (raise s n) q).rdy = (getPort s q).rdy :=
  by have h := congrArg PortSt.rdy (portCore_raise s n q); exact h
@[simp] theorem getPort_raise_cfs (n : Nat) (q : Port) : (getPort (raise s n) q).cfs = (getPort s q).cfs :=
  by have h := congrArg PortSt.cfs (portCore_raise s n q); exact h
@[simp] theorem getPort_raise_shst (n : Nat) (q : Port) : (getPort (raise s n) q).shst = (getPort s q).shst :=
  by have h := congrArg PortSt.shst (portCore_raise s n q); exact h
@[simp] theorem getPort_raise_ams (n : Nat) (q : Port) : (getPort (raise s n) q).ams = (getPort s q).ams :=
  by have h := congrArg PortSt.ams (portCore_raise s n q); exact h
@[simp] theorem getPort_raise_mps (n : Nat) (q : Port) : (getPort (raise s n) q).mps = (getPort s q).mps :=
  by have h := congrArg PortSt.mps (portCore_raise s n q); exact h
@[simp] theorem getPort_raise_asqs (n : Nat) (q : Port) : (getPort (raise s n) q).asqs = (getPort s q).asqs :=
  by have h := congrArg PortSt.asqs (portCore_raise s n q); exact h
@[simp] theorem getPort_raise_acqs (n : Nat) (q : Port) : (getPort (raise s n) q).acqs = (getPort s q).acqs :=
  by have h := congrArg PortSt.acqs (portCore_raise s n q); exact h
@[simp] theorem getPort_raise_arb (n : Nat) (q : Port) : (getPort (raise s n) q).arb = (getPort s q).arb :=
  by have h := congrArg PortSt.arb (portCore_raise s n q); exact h
@[simp] theorem getPort_raise_coal (n : Nat) (q : Port) : (getPort (raise s n) q).coal = (getPort s q).coal :=
  by have h := congrArg PortSt.coal (portCore_raise s n q); exact h
@[simp] theorem getPort_raise_abortWait (n : Nat) (q : Port) : (getPort (raise s n) q).abortWait = (getPort s q).abortWait :=
  by have h := congrArg PortSt.abortWait (portCore_raise s n q); exact h
@[simp] theorem getPort_raise_linkUp (n : Nat) (q : Port) : (getPort (raise s n) q).linkUp = (getPort s q).linkUp :=
  by have h := congrArg PortSt.linkUp (portCore_raise s n q); exact h
@[simp] theorem getPort_raise_trainEn (n : Nat) (q : Port) : (getPort (raise s n) q).trainEn = (getPort s q).trainEn :=
  by have h := congrArg PortSt.trainEn (portCore_raise s n q); exact h
@[simp] theorem getPort_raise_perst (n : Nat) (q : Port) : (getPort (raise s n) q).perst = (getPort s q).perst :=
  by have h := congrArg PortSt.perst (portCore_raise s n q); exact h
@[simp] theorem getPort_raise_cfgReady (n : Nat) (q : Port) : (getPort (raise s n) q).cfgReady = (getPort s q).cfgReady :=
  by have h := congrArg PortSt.cfgReady (portCore_raise s n q); exact h
@[simp] theorem getPort_raise_cfgSpace (n : Nat) (q : Port) : (getPort (raise s n) q).cfgSpace = (getPort s q).cfgSpace :=
  by have h := congrArg PortSt.cfgSpace (portCore_raise s n q); exact h
@[simp] theorem getPort_raise_fetching (n : Nat) (q : Port) : (getPort (raise s n) q).fetching = (getPort s q).fetching :=
  by have h := congrArg PortSt.fetching (portCore_raise s n q); exact h
@[simp] theorem getPort_raise_drain (n : Nat) (q : Port) : (getPort (raise s n) q).drain = (getPort s q).drain :=
  by have h := congrArg PortSt.drain (portCore_raise s n q); exact h
@[simp] theorem getPort_raise_sqs (n : Nat) (q : Port) : (getPort (raise s n) q).sqs = (getPort s q).sqs :=
  by have h := congrArg PortSt.sqs (portCore_raise s n q); exact h
@[simp] theorem getPort_raise_cqs (n : Nat) (q : Port) : (getPort (raise s n) q).cqs = (getPort s q).cqs :=
  by have h := congrArg PortSt.cqs (portCore_raise s n q); exact h
@[simp] theorem getPort_raise_aerOut (n : Nat) (q : Port) : (getPort (raise s n) q).aerOut = (getPort s q).aerOut :=
  by have h := congrArg PortSt.aerOut (portCore_raise s n q); exact h
@[simp] theorem getPort_raise_aerHeld (n : Nat) (q : Port) : (getPort (raise s n) q).aerHeld = (getPort s q).aerHeld :=
  by have h := congrArg PortSt.aerHeld (portCore_raise s n q); exact h
@[simp] theorem getPort_raise_aerMask (n : Nat) (q : Port) : (getPort (raise s n) q).aerMask = (getPort s q).aerMask :=
  by have h := congrArg PortSt.aerMask (portCore_raise s n q); exact h
@[simp] theorem getPort_raise_errLog (n : Nat) (q : Port) : (getPort (raise s n) q).errLog = (getPort s q).errLog :=
  by have h := congrArg PortSt.errLog (portCore_raise s n q); exact h
@[simp] theorem getPort_raise_errCount (n : Nat) (q : Port) : (getPort (raise s n) q).errCount = (getPort s q).errCount :=
  by have h := congrArg PortSt.errCount (portCore_raise s n q); exact h
@[simp] theorem getPort_raise_feat (n : Nat) (q : Port) : (getPort (raise s n) q).feat = (getPort s q).feat :=
  by have h := congrArg PortSt.feat (portCore_raise s n q); exact h
@[simp] theorem getPort_raise_abortOut (n : Nat) (q : Port) : (getPort (raise s n) q).abortOut = (getPort s q).abortOut :=
  by have h := congrArg PortSt.abortOut (portCore_raise s n q); exact h
@[simp] theorem getPort_raise_nsNotice (n : Nat) (q : Port) : (getPort (raise s n) q).nsNotice = (getPort s q).nsNotice :=
  by have h := congrArg PortSt.nsNotice (portCore_raise s n q); exact h
@[simp] theorem getPort_raise_ltrHost (n : Nat) (q : Port) : (getPort (raise s n) q).ltrHost = (getPort s q).ltrHost :=
  by have h := congrArg PortSt.ltrHost (portCore_raise s n q); exact h
@[simp] theorem getPort_raise_ltrSent (n : Nat) (q : Port) : (getPort (raise s n) q).ltrSent = (getPort s q).ltrSent :=
  by have h := congrArg PortSt.ltrSent (portCore_raise s n q); exact h
@[simp] theorem getPort_raise_ltrAt (n : Nat) (q : Port) : (getPort (raise s n) q).ltrAt = (getPort s q).ltrAt :=
  by have h := congrArg PortSt.ltrAt (portCore_raise s n q); exact h
@[simp] theorem getPort_raise_d3hot (n : Nat) (q : Port) : (getPort (raise s n) q).d3hot = (getPort s q).d3hot :=
  by have h := congrArg PortSt.d3hot (portCore_raise s n q); exact h
@[simp] theorem getPort_raise_secRsp (n : Nat) (q : Port) : (getPort (raise s n) q).secRsp = (getPort s q).secRsp :=
  by have h := congrArg PortSt.secRsp (portCore_raise s n q); exact h
@[simp] theorem getPort_raise_dirEn (n : Nat) (q : Port) : (getPort (raise s n) q).dirEn = (getPort s q).dirEn :=
  by have h := congrArg PortSt.dirEn (portCore_raise s n q); exact h
@[simp] theorem getPort_raise_dirOpen (n : Nat) (q : Port) : (getPort (raise s n) q).dirOpen = (getPort s q).dirOpen :=
  by have h := congrArg PortSt.dirOpen (portCore_raise s n q); exact h
@[simp] theorem getPort_raise_dirRes (n : Nat) (q : Port) : (getPort (raise s n) q).dirRes = (getPort s q).dirRes :=
  by have h := congrArg PortSt.dirRes (portCore_raise s n q); exact h
@[simp] theorem getPort_raise_plm (n : Nat) (q : Port) : (getPort (raise s n) q).plm = (getPort s q).plm :=
  by have h := congrArg PortSt.plm (portCore_raise s n q); exact h
@[simp] theorem getPort_raise_tOver (n : Nat) (q : Port) : (getPort (raise s n) q).tOver = (getPort s q).tOver :=
  by have h := congrArg PortSt.tOver (portCore_raise s n q); exact h
@[simp] theorem getPort_raise_tUnder (n : Nat) (q : Port) : (getPort (raise s n) q).tUnder = (getPort s q).tUnder :=
  by have h := congrArg PortSt.tUnder (portCore_raise s n q); exact h
@[simp] theorem getPort_hfeRaise_en (p : Port) (n : Nat) (q : Port) : (getPort (hfeRaise s p n) q).en = (getPort s q).en :=
  by have h := congrArg PortSt.en (portCore_raise s (n + 8 * p.num) q); exact h
@[simp] theorem getPort_hfeRaise_rdy (p : Port) (n : Nat) (q : Port) : (getPort (hfeRaise s p n) q).rdy = (getPort s q).rdy :=
  by have h := congrArg PortSt.rdy (portCore_raise s (n + 8 * p.num) q); exact h
@[simp] theorem getPort_hfeRaise_cfs (p : Port) (n : Nat) (q : Port) : (getPort (hfeRaise s p n) q).cfs = (getPort s q).cfs :=
  by have h := congrArg PortSt.cfs (portCore_raise s (n + 8 * p.num) q); exact h
@[simp] theorem getPort_hfeRaise_shst (p : Port) (n : Nat) (q : Port) : (getPort (hfeRaise s p n) q).shst = (getPort s q).shst :=
  by have h := congrArg PortSt.shst (portCore_raise s (n + 8 * p.num) q); exact h
@[simp] theorem getPort_hfeRaise_ams (p : Port) (n : Nat) (q : Port) : (getPort (hfeRaise s p n) q).ams = (getPort s q).ams :=
  by have h := congrArg PortSt.ams (portCore_raise s (n + 8 * p.num) q); exact h
@[simp] theorem getPort_hfeRaise_mps (p : Port) (n : Nat) (q : Port) : (getPort (hfeRaise s p n) q).mps = (getPort s q).mps :=
  by have h := congrArg PortSt.mps (portCore_raise s (n + 8 * p.num) q); exact h
@[simp] theorem getPort_hfeRaise_asqs (p : Port) (n : Nat) (q : Port) : (getPort (hfeRaise s p n) q).asqs = (getPort s q).asqs :=
  by have h := congrArg PortSt.asqs (portCore_raise s (n + 8 * p.num) q); exact h
@[simp] theorem getPort_hfeRaise_acqs (p : Port) (n : Nat) (q : Port) : (getPort (hfeRaise s p n) q).acqs = (getPort s q).acqs :=
  by have h := congrArg PortSt.acqs (portCore_raise s (n + 8 * p.num) q); exact h
@[simp] theorem getPort_hfeRaise_arb (p : Port) (n : Nat) (q : Port) : (getPort (hfeRaise s p n) q).arb = (getPort s q).arb :=
  by have h := congrArg PortSt.arb (portCore_raise s (n + 8 * p.num) q); exact h
@[simp] theorem getPort_hfeRaise_coal (p : Port) (n : Nat) (q : Port) : (getPort (hfeRaise s p n) q).coal = (getPort s q).coal :=
  by have h := congrArg PortSt.coal (portCore_raise s (n + 8 * p.num) q); exact h
@[simp] theorem getPort_hfeRaise_abortWait (p : Port) (n : Nat) (q : Port) : (getPort (hfeRaise s p n) q).abortWait = (getPort s q).abortWait :=
  by have h := congrArg PortSt.abortWait (portCore_raise s (n + 8 * p.num) q); exact h
@[simp] theorem getPort_hfeRaise_linkUp (p : Port) (n : Nat) (q : Port) : (getPort (hfeRaise s p n) q).linkUp = (getPort s q).linkUp :=
  by have h := congrArg PortSt.linkUp (portCore_raise s (n + 8 * p.num) q); exact h
@[simp] theorem getPort_hfeRaise_trainEn (p : Port) (n : Nat) (q : Port) : (getPort (hfeRaise s p n) q).trainEn = (getPort s q).trainEn :=
  by have h := congrArg PortSt.trainEn (portCore_raise s (n + 8 * p.num) q); exact h
@[simp] theorem getPort_hfeRaise_perst (p : Port) (n : Nat) (q : Port) : (getPort (hfeRaise s p n) q).perst = (getPort s q).perst :=
  by have h := congrArg PortSt.perst (portCore_raise s (n + 8 * p.num) q); exact h
@[simp] theorem getPort_hfeRaise_cfgReady (p : Port) (n : Nat) (q : Port) : (getPort (hfeRaise s p n) q).cfgReady = (getPort s q).cfgReady :=
  by have h := congrArg PortSt.cfgReady (portCore_raise s (n + 8 * p.num) q); exact h
@[simp] theorem getPort_hfeRaise_cfgSpace (p : Port) (n : Nat) (q : Port) : (getPort (hfeRaise s p n) q).cfgSpace = (getPort s q).cfgSpace :=
  by have h := congrArg PortSt.cfgSpace (portCore_raise s (n + 8 * p.num) q); exact h
@[simp] theorem getPort_hfeRaise_fetching (p : Port) (n : Nat) (q : Port) : (getPort (hfeRaise s p n) q).fetching = (getPort s q).fetching :=
  by have h := congrArg PortSt.fetching (portCore_raise s (n + 8 * p.num) q); exact h
@[simp] theorem getPort_hfeRaise_drain (p : Port) (n : Nat) (q : Port) : (getPort (hfeRaise s p n) q).drain = (getPort s q).drain :=
  by have h := congrArg PortSt.drain (portCore_raise s (n + 8 * p.num) q); exact h
@[simp] theorem getPort_hfeRaise_sqs (p : Port) (n : Nat) (q : Port) : (getPort (hfeRaise s p n) q).sqs = (getPort s q).sqs :=
  by have h := congrArg PortSt.sqs (portCore_raise s (n + 8 * p.num) q); exact h
@[simp] theorem getPort_hfeRaise_cqs (p : Port) (n : Nat) (q : Port) : (getPort (hfeRaise s p n) q).cqs = (getPort s q).cqs :=
  by have h := congrArg PortSt.cqs (portCore_raise s (n + 8 * p.num) q); exact h
@[simp] theorem getPort_hfeRaise_aerOut (p : Port) (n : Nat) (q : Port) : (getPort (hfeRaise s p n) q).aerOut = (getPort s q).aerOut :=
  by have h := congrArg PortSt.aerOut (portCore_raise s (n + 8 * p.num) q); exact h
@[simp] theorem getPort_hfeRaise_aerHeld (p : Port) (n : Nat) (q : Port) : (getPort (hfeRaise s p n) q).aerHeld = (getPort s q).aerHeld :=
  by have h := congrArg PortSt.aerHeld (portCore_raise s (n + 8 * p.num) q); exact h
@[simp] theorem getPort_hfeRaise_aerMask (p : Port) (n : Nat) (q : Port) : (getPort (hfeRaise s p n) q).aerMask = (getPort s q).aerMask :=
  by have h := congrArg PortSt.aerMask (portCore_raise s (n + 8 * p.num) q); exact h
@[simp] theorem getPort_hfeRaise_errLog (p : Port) (n : Nat) (q : Port) : (getPort (hfeRaise s p n) q).errLog = (getPort s q).errLog :=
  by have h := congrArg PortSt.errLog (portCore_raise s (n + 8 * p.num) q); exact h
@[simp] theorem getPort_hfeRaise_errCount (p : Port) (n : Nat) (q : Port) : (getPort (hfeRaise s p n) q).errCount = (getPort s q).errCount :=
  by have h := congrArg PortSt.errCount (portCore_raise s (n + 8 * p.num) q); exact h
@[simp] theorem getPort_hfeRaise_feat (p : Port) (n : Nat) (q : Port) : (getPort (hfeRaise s p n) q).feat = (getPort s q).feat :=
  by have h := congrArg PortSt.feat (portCore_raise s (n + 8 * p.num) q); exact h
@[simp] theorem getPort_hfeRaise_abortOut (p : Port) (n : Nat) (q : Port) : (getPort (hfeRaise s p n) q).abortOut = (getPort s q).abortOut :=
  by have h := congrArg PortSt.abortOut (portCore_raise s (n + 8 * p.num) q); exact h
@[simp] theorem getPort_hfeRaise_nsNotice (p : Port) (n : Nat) (q : Port) : (getPort (hfeRaise s p n) q).nsNotice = (getPort s q).nsNotice :=
  by have h := congrArg PortSt.nsNotice (portCore_raise s (n + 8 * p.num) q); exact h
@[simp] theorem getPort_hfeRaise_ltrHost (p : Port) (n : Nat) (q : Port) : (getPort (hfeRaise s p n) q).ltrHost = (getPort s q).ltrHost :=
  by have h := congrArg PortSt.ltrHost (portCore_raise s (n + 8 * p.num) q); exact h
@[simp] theorem getPort_hfeRaise_ltrSent (p : Port) (n : Nat) (q : Port) : (getPort (hfeRaise s p n) q).ltrSent = (getPort s q).ltrSent :=
  by have h := congrArg PortSt.ltrSent (portCore_raise s (n + 8 * p.num) q); exact h
@[simp] theorem getPort_hfeRaise_ltrAt (p : Port) (n : Nat) (q : Port) : (getPort (hfeRaise s p n) q).ltrAt = (getPort s q).ltrAt :=
  by have h := congrArg PortSt.ltrAt (portCore_raise s (n + 8 * p.num) q); exact h
@[simp] theorem getPort_hfeRaise_d3hot (p : Port) (n : Nat) (q : Port) : (getPort (hfeRaise s p n) q).d3hot = (getPort s q).d3hot :=
  by have h := congrArg PortSt.d3hot (portCore_raise s (n + 8 * p.num) q); exact h
@[simp] theorem getPort_hfeRaise_secRsp (p : Port) (n : Nat) (q : Port) : (getPort (hfeRaise s p n) q).secRsp = (getPort s q).secRsp :=
  by have h := congrArg PortSt.secRsp (portCore_raise s (n + 8 * p.num) q); exact h
@[simp] theorem getPort_hfeRaise_dirEn (p : Port) (n : Nat) (q : Port) : (getPort (hfeRaise s p n) q).dirEn = (getPort s q).dirEn :=
  by have h := congrArg PortSt.dirEn (portCore_raise s (n + 8 * p.num) q); exact h
@[simp] theorem getPort_hfeRaise_dirOpen (p : Port) (n : Nat) (q : Port) : (getPort (hfeRaise s p n) q).dirOpen = (getPort s q).dirOpen :=
  by have h := congrArg PortSt.dirOpen (portCore_raise s (n + 8 * p.num) q); exact h
@[simp] theorem getPort_hfeRaise_dirRes (p : Port) (n : Nat) (q : Port) : (getPort (hfeRaise s p n) q).dirRes = (getPort s q).dirRes :=
  by have h := congrArg PortSt.dirRes (portCore_raise s (n + 8 * p.num) q); exact h
@[simp] theorem getPort_hfeRaise_plm (p : Port) (n : Nat) (q : Port) : (getPort (hfeRaise s p n) q).plm = (getPort s q).plm :=
  by have h := congrArg PortSt.plm (portCore_raise s (n + 8 * p.num) q); exact h
@[simp] theorem getPort_hfeRaise_tOver (p : Port) (n : Nat) (q : Port) : (getPort (hfeRaise s p n) q).tOver = (getPort s q).tOver :=
  by have h := congrArg PortSt.tOver (portCore_raise s (n + 8 * p.num) q); exact h
@[simp] theorem getPort_hfeRaise_tUnder (p : Port) (n : Nat) (q : Port) : (getPort (hfeRaise s p n) q).tUnder = (getPort s q).tUnder :=
  by have h := congrArg PortSt.tUnder (portCore_raise s (n + 8 * p.num) q); exact h

end Sys2Proof.Machine
end

