-- ==== Sys2Proof/Laws/Writes.lean ====
section
/-! SUPPORT. What a register write comes to once the checks of R46 pass, and what a raise leaves pending. -/

set_option Elab.async false

namespace Sys2Proof.Machine

variable {s : State}

theorem writeAccess_core {i : Initiator} {b : Blk} {u : Nat} (h : coreAccess s i b u = true) (a size v : Nat) (e : Extra) :
    writeAccess s i a size v e = regWrite s i a size v e := by
  cases i <;> simp_all [coreAccess, writeAccess, canAccess, windowWrite, isCore]

/-- A whole 32-bit write of a register by a core is the register's own. -/
theorem writeAccess_word {i : Initiator} {b : Blk} {u a o : Nat} {x : RegAt} (h : coreAccess s i b u = true)
    (hl : locate a = some (b, u, o)) (ho : o % 4 = 0) (hx : findReg b u o = some x) (hw : x.row.wide = false) (v : Nat) (e : Extra) :
    writeAccess s i a 4 v e = regStore s i b u x (v % 2 ^ 32) e := by
  have hr : islandRuns s b u = true := by simp [coreAccess] at h; exact h.2
  rw [writeAccess_core h]
  simp [regWrite, hl, hr, ho, hx, hw]

/-- A whole 64-bit write of a register by a core is the register's own. -/
theorem writeAccess_wide {i : Initiator} {b : Blk} {u a o : Nat} {x : RegAt} (h : coreAccess s i b u = true)
    (hl : locate a = some (b, u, o)) (ho : o % 8 = 0) (hx : findReg b u o = some x) (hw : x.row.wide = true) (hs : x.start = o)
    (v : Nat) (e : Extra) : writeAccess s i a 8 v e = regStore s i b u x (v % 2 ^ 64) e := by
  have hr : islandRuns s b u = true := by simp [coreAccess] at h; exact h.2
  rw [writeAccess_core h]
  simp [regWrite, hl, hr, ho, hx, hw, hs]

@[simp] theorem emit_out (t : State) (o : Out) : (emit t o).out = t.out ++ [o] := rfl

theorem signalReg_sts (b : Blk) (u : Nat) : signalReg (Reg.sts b u) = false := by
  cases b <;> simp only [signalReg, Reg.sts, Blk.base] <;> first | rfl | (simp; omega) | (simp; refine ⟨⟨fun _ => decide_eq_false (by omega), by omega⟩, by omega⟩)
theorem signalReg_errAddr (b : Blk) (u : Nat) : signalReg (Reg.errAddr b u) = false := by
  cases b <;> simp only [signalReg, Reg.errAddr, Blk.base] <;> first | rfl | (simp; omega) | (simp; refine ⟨⟨fun _ => decide_eq_false (by omega), by omega⟩, by omega⟩)

/-- A faulty access sets its bit of STS, and captures ERRADDR where no fault was (R45). -/
theorem accessFault_sets (b : Blk) (u bit kind init off : Nat) (h : bit < 64) :
    bitOf (rd (accessFault s b u bit kind init off) (Reg.sts b u)) bit = true ∧
      (rdField s (Reg.sts b u) 2 0 = 0 → rd (accessFault s b u bit kind init off) (Reg.errAddr b u) =
        (2 ^ 31 + kind * 2 ^ 20 + init * 2 ^ 16 + off % 2 ^ 16) % 2 ^ 64) := by
  have ne : Reg.errAddr b u ≠ Reg.sts b u := by simp [Reg.errAddr, Reg.sts]
  have ho : ∀ a, bitOf ((a ||| 2 ^ bit) % 2 ^ 64) bit = true := fun a => by rw [bitOf_mod _ _ _ h, bitOf_or]; simp [bitOf]
  simp only [accessFault, rdField]
  constructor
  · split <;> (try split) <;> (try rw [rd_raiseWith _ _ _ _ (signalReg_sts b u)]) <;> rw [rd_wr_same, ho]
  · intro h
    rw [if_pos h]
    split <;> (try split) <;> (try rw [rd_raiseWith _ _ _ _ (signalReg_errAddr b u)]) <;> rw [rd_wr_other _ _ ne, rd_wr_same]

/-! ## What a raise leaves pending -/


/-- A raise that is delivered leaves its source pending (R62). -/
theorem raised_raiseWith {n : Nat} (h : n < 248) (hr : n < 157 ∨ 159 < n) (hc : s.chip.held = false) (pl : List Byte) (o : Nat) :
    raised (raiseWith s n pl o) n = true := by
  have h1 : (decide (248 ≤ n) || decide (157 ≤ n) && decide (n ≤ 159) || s.chip.held) = false := by
    simp [hc]; omega
  have hb : n % 32 < 32 := Nat.mod_lt _ (by decide)
  have hn : n / 32 < 8 := by omega
  have e0 : ∀ t, raised (setMapBit t Reg.srcPend n) n = true := fun t => by
    rw [raised, setMapBit, rd_orReg_same, bitOf_mod _ _ _ (by omega), bitOf_or, bitOf_two_pow]; simp
  have e1 : ∀ t, raised (setMapBit t Reg.hpendA n) n = raised t n := fun t => by
    rw [raised, raised, rd_setMapBit _ _ (by unfold Reg.hpendA Reg.srcPend; omega)]
  have e2 : ∀ t, raised (setMapBit t Reg.hpendB n) n = raised t n := fun t => by
    rw [raised, raised, rd_setMapBit _ _ (by unfold Reg.hpendB Reg.srcPend; omega)]
  have e3 : ∀ t, raised ((routeCores (rd s (Reg.route n))).foldl (fun s k => setMapBit s (Reg.cpend k) n) t) n = raised t n := by
    intro t
    rw [raised, raised, rd_foldl_same]
    intro u k hk
    have : k < 10 := by simp [routeCores] at hk; exact hk.1
    exact rd_setMapBit _ _ (by unfold Reg.cpend Reg.srcPend; omega)
  have e4 : ∀ t p v, raised (vendorMsg t p v) n = raised t n := fun t p v => by simp [raised]
  have e5 : ∀ t c, raised (admitCand t c) n = raised t n := fun t c => by
    rw [raised, raised, rd_admitCand _ _ (by unfold Reg.srcPend; omega) (by unfold Reg.srcPend; omega)]
  unfold raiseWith
  rw [if_neg (by simp [h1])]
  dsimp only
  split <;> (try rw [e5]) <;> split <;> split <;> simp only [e4, e2, e1, e3, e0]

theorem raised_raise {n : Nat} (h : n < 248) (hr : n < 157 ∨ 159 < n) (hc : s.chip.held = false) : raised (raise s n) n = true :=
  raised_raiseWith h hr hc _ _

/-! ## The frame of a write -/

variable {F : List Part} {z : State}

/-- A whole write of a register that is no CTL register and no retirement register changes what its effect changes, and what
reports change. -/
theorem regStore_frame_of {i : Initiator} {b : Blk} {u v : Nat} {x : RegAt} {e : Extra} (hz : OnlyChanges F z s)
    (m1 : Part.out ∈ F) (m3 : Part.regs ∈ F) (m4 : Part.portA ∈ F) (m5 : Part.portB ∈ F) (m6 : Part.evr ∈ F)
    (h4 : x.start ≠ 4) (hm : (b == .map && (x.start == 0x110 || (0x180 ≤ x.start && x.start < 0x200))) = false)
    (hE : ∀ (y : State) (n : Nat), OnlyChanges F z y → OnlyChanges F z (systemEffect (flashEffect y i b u x.start v e) i b x.start v n e)) :
    OnlyChanges F z (regStore s i b u x v e) := by
  unfold regStore
  dsimp only
  rw [if_neg h4, hm]
  simp only [Bool.false_eq_true, if_false]
  generalize (if (b == Blk.phc && decide (x.start = 16)) = true then v % 2 ^ phcWays s + regView s i b u x.start / 2 ^ phcWays s * 2 ^ phcWays s else v) = w
  generalize rowWrite s b u x (regView s i b u x.start) w = n
  have h1 : ∀ y, OnlyChanges F z y → ∀ bit k, OnlyChanges F z (accessFault y b u bit k (initCode i) x.start) := fun y hy bit k =>
    accessFault_frame hy m1 m3 m4 m5 m6
  have hy : OnlyChanges F z (if n.2 = true then accessFault s b u 0 5 (initCode i) x.start else s) := by
    split
    · exact h1 _ hz _ _
    · exact hz
  generalize (if n.2 = true then accessFault s b u 0 5 (initCode i) x.start else s) = y at hy ⊢
  split
  · exact hz
  · split
    · exact h1 _ hz _ _
    · split
      · exact hy
      · split
        · exact h1 _ hy _ _
        · apply hE
          split
          · split
            · exact h1 _ hy _ _
            · exact hy
          · refine wr_frame ?_ m3
            split
            · exact h1 _ hy _ _
            · exact hy
/-- An access changes what the register's write changes, and what reports change, whoever makes it and whatever its outcome. -/
theorem access_frame_of {i : Initiator} {a v size : Nat} {e : Extra} {b : Blk} {u o : Nat} (hl : locate a = some (b, u, o))
    (m1 : Part.out ∈ F) (m3 : Part.regs ∈ F) (m4 : Part.portA ∈ F) (m5 : Part.portB ∈ F) (m6 : Part.evr ∈ F)
    (st : ∀ x w, findReg b u o = some x → w % 2 ^ 32 = v % 2 ^ 32 → OnlyChanges F s (regStore s i b u x w e)) :
    OnlyChanges F s (writeAccess s i a size v e) := by
  have r := OnlyChanges.refl F s
  have h1 : ∀ k, OnlyChanges F s (accessFault s b u 0 k (initCode i) o) := fun k => accessFault_frame r m1 m3 m4 m5 m6
  have d : ∀ p, OnlyChanges F s (denyAccess s p) := fun p => denyAccess_frame r m1 m3 m4 m5 m6
  have w : OnlyChanges F s (regWrite s i a size v e) := by
    simp only [regWrite, hl]
    cases hx : findReg b u o with
    | none =>
      dsimp only
      repeat' first
        | exact undeliverable_frame r m1 m3 m4 m5 m6
        | exact h1 _
        | split
    | some x =>
      dsimp only
      repeat' first
        | exact undeliverable_frame r m1 m3 m4 m5 m6
        | exact h1 _
        | exact st _ _ hx (by omega)
        | split
  simp only [writeAccess]
  split
  · exact r
  · cases hww : windowWrite s i a with
    | none => exact w
    | some z =>
      simp only [windowWrite] at hww
      split at hww
      · rename_i p
        split at hww
        · injection hww with hww; subst hww; exact d _
        · injection hww with hww; subst hww; exact d _
        · split at hww
          · injection hww with hww; subst hww; exact d _
          · cases hww
      all_goals cases hww
/-- The same of a register that is no CTL register and no retirement register, by its effect. -/
theorem access_frame {i : Initiator} {a v size : Nat} {e : Extra} {b : Blk} {u o : Nat}
    (hl : locate a = some (b, u, o)) (ho : (findReg b u o).map (fun x => x.start) = some o) (h4 : o ≠ 4)
    (hm : (b == .map && (o == 0x110 || (0x180 ≤ o && o < 0x200))) = false)
    (m1 : Part.out ∈ F) (m3 : Part.regs ∈ F) (m4 : Part.portA ∈ F) (m5 : Part.portB ∈ F) (m6 : Part.evr ∈ F)
    (hE : ∀ (z : State) (v' n : Nat), v' % 2 ^ 32 = v % 2 ^ 32 → OnlyChanges F s z →
      OnlyChanges F s (systemEffect (flashEffect z i b u o v' e) i b o v' n e)) :
    OnlyChanges F s (writeAccess s i a size v e) := by
  refine access_frame_of hl m1 m3 m4 m5 m6 fun x w hx hw => ?_
  have hs : x.start = o := by rw [hx] at ho; exact Option.some.inj ho
  exact regStore_frame_of (OnlyChanges.refl F s) m1 m3 m4 m5 m6 (by rw [hs]; exact h4) (by rw [hs]; exact hm)
    (by rw [hs]; exact fun y n => hE y w n hw)

end Sys2Proof.Machine
end

