-- ==== Sys2Proof/Laws/Completions.lean ====
section
/-! SUPPORT. What completing a command leaves of a port, and that its completion is sent. -/

set_option Elab.async false

namespace Sys2Proof.Machine

variable (s : State)

/-- A port but for what a completion touches: completion queues, the completions coalesced, MSI-X table, holdoffs and the error log. -/
def portRest (x : PortSt) : PortSt := { x with cqs := [], coal := [], msix := [], hold := [], errLog := [], errCount := 0, abortOut := none }

theorem portRest_of_core {x y : PortSt} (h : portCore x = portCore y) : portRest x = portRest y := by
  have := congrArg portRest h
  exact this
theorem portRest_setPort {p q : Port} {x : PortSt} (h : portRest x = portRest (getPort s p)) :
    portRest (getPort (setPort s p x) q) = portRest (getPort s q) := by
  by_cases e : q = p
  · subst e; simpa using h
  · rw [getPort_setPort_other s x e]
theorem portRest_modPort {p q : Port} {f : PortSt → PortSt} (h : portRest (f (getPort s p)) = portRest (getPort s p)) :
    portRest (getPort (modPort s p f) q) = portRest (getPort s q) := portRest_setPort s h
theorem portRest_msixSend (p : Port) (v : Nat) (q : Port) : portRest (getPort (msixSend s p v) q) = portRest (getPort s q) :=
  portRest_of_core (portCore_msixSend s p v q)
theorem portRest_cqInterrupt (p : Port) (k : Nat) (c : Cq) (q : Port) :
    portRest (getPort (cqInterrupt s p k c) q) = portRest (getPort s q) := by
  unfold cqInterrupt
  split
  · rfl
  split
  · exact portRest_msixSend s p _ q
  · dsimp only
    split <;> (try rw [portRest_msixSend]) <;> exact portRest_modPort s rfl
theorem portRest_placeCompl (p : Port) (k : Nat) (c : Cq) (e : Compl) (q : Port) :
    portRest (getPort (placeCompl s p k c e) q) = portRest (getPort s q) := by
  unfold placeCompl
  dsimp only
  rw [portRest_cqInterrupt]
  split <;> (try rw [portRest_of_core (portCore_raise _ _ _)]) <;> rw [getPort_emit] <;> exact portRest_modPort s rfl
theorem portRest_post (c : Compl) (q : Port) : portRest (getPort (post s c) q) = portRest (getPort s q) := by
  unfold post
  dsimp only
  split
  · rfl
  split
  · exact portRest_setPort s rfl
  · exact portRest_placeCompl s _ _ _ _ q
theorem portRest_complete (q : Sqe) (st : Status) (dw lba cs : Nat) (p : Port) :
    portRest (getPort (complete s q st dw lba cs) p) = portRest (getPort s p) := by
  unfold complete
  dsimp only
  rw [portRest_post]
  split
  · exact portRest_modPort s rfl
  · rfl
theorem portRest_raise (n : Nat) (p : Port) : portRest (getPort (raise s n) p) = portRest (getPort s p) :=
  portRest_of_core (portCore_raise s n p)

@[simp] theorem getPort_complete_en (q : Sqe) (st : Status) (dw lba cs : Nat) (p : Port) :
    (getPort (complete s q st dw lba cs) p).en = (getPort s p).en := by
  have h := congrArg PortSt.en (portRest_complete s q st dw lba cs p); exact h
@[simp] theorem getPort_complete_rdy (q : Sqe) (st : Status) (dw lba cs : Nat) (p : Port) :
    (getPort (complete s q st dw lba cs) p).rdy = (getPort s p).rdy := by
  have h := congrArg PortSt.rdy (portRest_complete s q st dw lba cs p); exact h
@[simp] theorem getPort_complete_cfs (q : Sqe) (st : Status) (dw lba cs : Nat) (p : Port) :
    (getPort (complete s q st dw lba cs) p).cfs = (getPort s p).cfs := by
  have h := congrArg PortSt.cfs (portRest_complete s q st dw lba cs p); exact h
@[simp] theorem getPort_complete_shst (q : Sqe) (st : Status) (dw lba cs : Nat) (p : Port) :
    (getPort (complete s q st dw lba cs) p).shst = (getPort s p).shst := by
  have h := congrArg PortSt.shst (portRest_complete s q st dw lba cs p); exact h
@[simp] theorem getPort_complete_ams (q : Sqe) (st : Status) (dw lba cs : Nat) (p : Port) :
    (getPort (complete s q st dw lba cs) p).ams = (getPort s p).ams := by
  have h := congrArg PortSt.ams (portRest_complete s q st dw lba cs p); exact h
@[simp] theorem getPort_complete_mps (q : Sqe) (st : Status) (dw lba cs : Nat) (p : Port) :
    (getPort (complete s q st dw lba cs) p).mps = (getPort s p).mps := by
  have h := congrArg PortSt.mps (portRest_complete s q st dw lba cs p); exact h
@[simp] theorem getPort_complete_asqs (q : Sqe) (st : Status) (dw lba cs : Nat) (p : Port) :
    (getPort (complete s q st dw lba cs) p).asqs = (getPort s p).asqs := by
  have h := congrArg PortSt.asqs (portRest_complete s q st dw lba cs p); exact h
@[simp] theorem getPort_complete_acqs (q : Sqe) (st : Status) (dw lba cs : Nat) (p : Port) :
    (getPort (complete s q st dw lba cs) p).acqs = (getPort s p).acqs := by
  have h := congrArg PortSt.acqs (portRest_complete s q st dw lba cs p); exact h
@[simp] theorem getPort_complete_arb (q : Sqe) (st : Status) (dw lba cs : Nat) (p : Port) :
    (getPort (complete s q st dw lba cs) p).arb = (getPort s p).arb := by
  have h := congrArg PortSt.arb (portRest_complete s q st dw lba cs p); exact h
@[simp] theorem getPort_complete_abortWait (q : Sqe) (st : Status) (dw lba cs : Nat) (p : Port) :
    (getPort (complete s q st dw lba cs) p).abortWait = (getPort s p).abortWait := by
  have h := congrArg PortSt.abortWait (portRest_complete s q st dw lba cs p); exact h
@[simp] theorem getPort_complete_linkUp (q : Sqe) (st : Status) (dw lba cs : Nat) (p : Port) :
    (getPort (complete s q st dw lba cs) p).linkUp = (getPort s p).linkUp := by
  have h := congrArg PortSt.linkUp (portRest_complete s q st dw lba cs p); exact h
@[simp] theorem getPort_complete_trainEn (q : Sqe) (st : Status) (dw lba cs : Nat) (p : Port) :
    (getPort (complete s q st dw lba cs) p).trainEn = (getPort s p).trainEn := by
  have h := congrArg PortSt.trainEn (portRest_complete s q st dw lba cs p); exact h
@[simp] theorem getPort_complete_perst (q : Sqe) (st : Status) (dw lba cs : Nat) (p : Port) :
    (getPort (complete s q st dw lba cs) p).perst = (getPort s p).perst := by
  have h := congrArg PortSt.perst (portRest_complete s q st dw lba cs p); exact h
@[simp] theorem getPort_complete_cfgReady (q : Sqe) (st : Status) (dw lba cs : Nat) (p : Port) :
    (getPort (complete s q st dw lba cs) p).cfgReady = (getPort s p).cfgReady := by
  have h := congrArg PortSt.cfgReady (portRest_complete s q st dw lba cs p); exact h
@[simp] theorem getPort_complete_cfgSpace (q : Sqe) (st : Status) (dw lba cs : Nat) (p : Port) :
    (getPort (complete s q st dw lba cs) p).cfgSpace = (getPort s p).cfgSpace := by
  have h := congrArg PortSt.cfgSpace (portRest_complete s q st dw lba cs p); exact h
@[simp] theorem getPort_complete_fetching (q : Sqe) (st : Status) (dw lba cs : Nat) (p : Port) :
    (getPort (complete s q st dw lba cs) p).fetching = (getPort s p).fetching := by
  have h := congrArg PortSt.fetching (portRest_complete s q st dw lba cs p); exact h
@[simp] theorem getPort_complete_drain (q : Sqe) (st : Status) (dw lba cs : Nat) (p : Port) :
    (getPort (complete s q st dw lba cs) p).drain = (getPort s p).drain := by
  have h := congrArg PortSt.drain (portRest_complete s q st dw lba cs p); exact h
@[simp] theorem getPort_complete_sqs (q : Sqe) (st : Status) (dw lba cs : Nat) (p : Port) :
    (getPort (complete s q st dw lba cs) p).sqs = (getPort s p).sqs := by
  have h := congrArg PortSt.sqs (portRest_complete s q st dw lba cs p); exact h
@[simp] theorem getPort_complete_aerOut (q : Sqe) (st : Status) (dw lba cs : Nat) (p : Port) :
    (getPort (complete s q st dw lba cs) p).aerOut = (getPort s p).aerOut := by
  have h := congrArg PortSt.aerOut (portRest_complete s q st dw lba cs p); exact h
@[simp] theorem getPort_complete_aerHeld (q : Sqe) (st : Status) (dw lba cs : Nat) (p : Port) :
    (getPort (complete s q st dw lba cs) p).aerHeld = (getPort s p).aerHeld := by
  have h := congrArg PortSt.aerHeld (portRest_complete s q st dw lba cs p); exact h
@[simp] theorem getPort_complete_aerMask (q : Sqe) (st : Status) (dw lba cs : Nat) (p : Port) :
    (getPort (complete s q st dw lba cs) p).aerMask = (getPort s p).aerMask := by
  have h := congrArg PortSt.aerMask (portRest_complete s q st dw lba cs p); exact h
@[simp] theorem getPort_complete_feat (q : Sqe) (st : Status) (dw lba cs : Nat) (p : Port) :
    (getPort (complete s q st dw lba cs) p).feat = (getPort s p).feat := by
  have h := congrArg PortSt.feat (portRest_complete s q st dw lba cs p); exact h
@[simp] theorem getPort_complete_nsNotice (q : Sqe) (st : Status) (dw lba cs : Nat) (p : Port) :
    (getPort (complete s q st dw lba cs) p).nsNotice = (getPort s p).nsNotice := by
  have h := congrArg PortSt.nsNotice (portRest_complete s q st dw lba cs p); exact h
@[simp] theorem getPort_complete_ltrHost (q : Sqe) (st : Status) (dw lba cs : Nat) (p : Port) :
    (getPort (complete s q st dw lba cs) p).ltrHost = (getPort s p).ltrHost := by
  have h := congrArg PortSt.ltrHost (portRest_complete s q st dw lba cs p); exact h
@[simp] theorem getPort_complete_ltrSent (q : Sqe) (st : Status) (dw lba cs : Nat) (p : Port) :
    (getPort (complete s q st dw lba cs) p).ltrSent = (getPort s p).ltrSent := by
  have h := congrArg PortSt.ltrSent (portRest_complete s q st dw lba cs p); exact h
@[simp] theorem getPort_complete_ltrAt (q : Sqe) (st : Status) (dw lba cs : Nat) (p : Port) :
    (getPort (complete s q st dw lba cs) p).ltrAt = (getPort s p).ltrAt := by
  have h := congrArg PortSt.ltrAt (portRest_complete s q st dw lba cs p); exact h
@[simp] theorem getPort_complete_d3hot (q : Sqe) (st : Status) (dw lba cs : Nat) (p : Port) :
    (getPort (complete s q st dw lba cs) p).d3hot = (getPort s p).d3hot := by
  have h := congrArg PortSt.d3hot (portRest_complete s q st dw lba cs p); exact h
@[simp] theorem getPort_complete_secRsp (q : Sqe) (st : Status) (dw lba cs : Nat) (p : Port) :
    (getPort (complete s q st dw lba cs) p).secRsp = (getPort s p).secRsp := by
  have h := congrArg PortSt.secRsp (portRest_complete s q st dw lba cs p); exact h
@[simp] theorem getPort_complete_dirEn (q : Sqe) (st : Status) (dw lba cs : Nat) (p : Port) :
    (getPort (complete s q st dw lba cs) p).dirEn = (getPort s p).dirEn := by
  have h := congrArg PortSt.dirEn (portRest_complete s q st dw lba cs p); exact h
@[simp] theorem getPort_complete_dirOpen (q : Sqe) (st : Status) (dw lba cs : Nat) (p : Port) :
    (getPort (complete s q st dw lba cs) p).dirOpen = (getPort s p).dirOpen := by
  have h := congrArg PortSt.dirOpen (portRest_complete s q st dw lba cs p); exact h
@[simp] theorem getPort_complete_dirRes (q : Sqe) (st : Status) (dw lba cs : Nat) (p : Port) :
    (getPort (complete s q st dw lba cs) p).dirRes = (getPort s p).dirRes := by
  have h := congrArg PortSt.dirRes (portRest_complete s q st dw lba cs p); exact h
@[simp] theorem getPort_complete_plm (q : Sqe) (st : Status) (dw lba cs : Nat) (p : Port) :
    (getPort (complete s q st dw lba cs) p).plm = (getPort s p).plm := by
  have h := congrArg PortSt.plm (portRest_complete s q st dw lba cs p); exact h
@[simp] theorem getPort_complete_tOver (q : Sqe) (st : Status) (dw lba cs : Nat) (p : Port) :
    (getPort (complete s q st dw lba cs) p).tOver = (getPort s p).tOver := by
  have h := congrArg PortSt.tOver (portRest_complete s q st dw lba cs p); exact h
@[simp] theorem getPort_complete_tUnder (q : Sqe) (st : Status) (dw lba cs : Nat) (p : Port) :
    (getPort (complete s q st dw lba cs) p).tUnder = (getPort s p).tUnder := by
  have h := congrArg PortSt.tUnder (portRest_complete s q st dw lba cs p); exact h

/-! ## The completion is sent -/

theorem msixSend_out (p : Port) (v : Nat) : ∃ l, (msixSend s p v).out = s.out ++ l := by
  unfold msixSend
  dsimp only
  split
  · exact ⟨[], by simp⟩
  split
  · exact ⟨[], by simp⟩
  · exact ⟨_, by rw [emit_out, setPort_out]⟩
theorem cqInterrupt_out (p : Port) (k : Nat) (c : Cq) : ∃ l, (cqInterrupt s p k c).out = s.out ++ l := by
  unfold cqInterrupt
  split
  · exact ⟨[], by simp⟩
  split
  · exact msixSend_out s p _
  · dsimp only
    split
    · simpa using msixSend_out (modPort s p _) p c.vector
    · exact ⟨[], by simp⟩

theorem vendorMsg_out (p : Port) (v : Nat) : ∃ l, (vendorMsg s p v).out = s.out ++ l := by
  unfold vendorMsg
  dsimp only
  split
  · exact ⟨[], by simp⟩
  split
  · exact ⟨[], by simp⟩
  · exact msixSend_out s p v
theorem raiseWith_out (n : Nat) (pl : List Byte) (o : Nat) : ∃ l, (raiseWith s n pl o).out = s.out ++ l := by
  have e1 : ∀ (t : State) b, (setMapBit t b n).out = t.out := fun _ _ => rfl
  have e2 : ∀ (l : List Nat) (t : State), (l.foldl (fun s k => setMapBit s (Reg.cpend k) n) t).out = t.out := by
    intro l
    induction l with
    | nil => intro t; rfl
    | cons k r ih => intro t; rw [List.foldl_cons, ih]; rfl
  unfold raiseWith
  split
  · exact ⟨[], by simp⟩
  dsimp only
  generalize hA : (if bitsOf (rd s (Reg.route n)) 12 11 = 0 then _ else _ : State) = A
  have kA : ∃ l, A.out = s.out ++ l := by
    subst hA
    split
    · exact ⟨[], by rw [e2, e1]; simp⟩
    · obtain ⟨l, h⟩ := vendorMsg_out (setMapBit ((routeCores (rd s (Reg.route n))).foldl (fun s k => setMapBit s (Reg.cpend k) n)
        (setMapBit s Reg.srcPend n)) Reg.hpendA n) .a (127 + bitsOf (rd s (Reg.route n)) 12 11)
      exact ⟨l, by rw [h, e1, e2, e1]⟩
  obtain ⟨l, hl⟩ := kA
  split <;> (try rw [admitCand_out]) <;> split
  · exact ⟨l, hl⟩
  · obtain ⟨m, h⟩ := vendorMsg_out (setMapBit A Reg.hpendB n) .b (127 + bitsOf (rd s (Reg.route n)) 14 13)
    exact ⟨l ++ m, by rw [h, e1, hl, List.append_assoc]⟩
  · exact ⟨l, hl⟩
  · obtain ⟨m, h⟩ := vendorMsg_out (setMapBit A Reg.hpendB n) .b (127 + bitsOf (rd s (Reg.route n)) 14 13)
    exact ⟨l ++ m, by rw [h, e1, hl, List.append_assoc]⟩
theorem raise_out (n : Nat) : ∃ l, (raise s n).out = s.out ++ l := raiseWith_out s n _ _

theorem interrupt_sent (m : State) (b : Bool) (p : Port) (k : Nat) (q : Cq) (o : Out) :
    ∃ l, (cqInterrupt (if b then raise (emit m o) 93 else emit m o) p k q).out = m.out ++ [o] ++ l := by
  have kr : ∃ l, (if b then raise (emit m o) 93 else emit m o).out = m.out ++ [o] ++ l := by
    split
    · obtain ⟨l, h⟩ := raise_out (emit m o) 93
      exact ⟨l, by rw [h, emit_out]⟩
    · exact ⟨[], by rw [emit_out]; simp⟩
  obtain ⟨l, hl⟩ := kr
  obtain ⟨l', hl'⟩ := cqInterrupt_out (if b then raise (emit m o) 93 else emit m o) p k q
  exact ⟨l ++ l', by rw [hl', hl, List.append_assoc]⟩
theorem placeCompl_sent (p : Port) (k : Nat) (q : Cq) (c : Compl) : ∃ l c', (placeCompl s p k q c).out = s.out ++ l ∧
    Out.completion k q.phase c' ∈ l ∧ c'.port = c.port ∧ c'.qid = c.qid ∧ c'.cid = c.cid ∧ c'.st = c.st := by
  have key : ∃ l, (placeCompl s p k q c).out = s.out ++ [Out.completion k q.phase { c with
      sqhd := ((nget (getPort s p).sqs c.qid).map fun x => x.head).getD 0
      dw0 := if c.qid = 0 then c.dw0 else dwFrozen c.dw0 (((nget (getPort s p).sqs c.qid).map fun x => x.frozen).getD false) }] ++ l :=
    (interrupt_sent (modPort s p _) _ p k _ _).imp fun l h => h.trans (by rw [modPort_out])
  obtain ⟨l, h⟩ := key
  exact ⟨[_] ++ l, _, h.trans (List.append_assoc _ _ _), List.mem_append_left _ List.mem_cons_self, rfl, rfl, rfl, rfl⟩

/-- A completion that its queue takes is sent. -/
theorem answered_complete (q : Sqe) (st : Status) (dw lba cs : Nat) (h : cqReady s q = true) :
    Answered s (complete s q st dw lba cs) q st := by
  have key : ∀ t : State, t.out = s.out → (getPort t q.port).sqs = (getPort s q.port).sqs → (getPort t q.port).cqs = (getPort s q.port).cqs →
      Answered s (post t { port := q.port, qid := q.qid, cid := q.cid, st, dw0 := dw }) q st := by
    intro t ho hs hc
    unfold cqReady at h
    unfold post
    dsimp only
    rw [hs, hc]
    generalize (Option.map (fun x : Sq => x.cqid) (nget (getPort s q.port).sqs q.qid)).getD 0 = k at h
    cases hg : nget (getPort s q.port).cqs k with
    | none => simp [hg] at h
    | some c =>
      simp only [hg, Bool.and_eq_true, Bool.not_eq_true'] at h
      dsimp only
      rw [if_neg (by simp [h.1, h.2])]
      obtain ⟨l, c', h1, h2, h3⟩ := placeCompl_sent t q.port k c { port := q.port, qid := q.qid, cid := q.cid, st, dw0 := dw }
      exact ⟨l, by rw [h1, ho], _, _, c', h2, h3⟩
  unfold complete
  dsimp only
  apply key <;> split <;> simp [addError]

theorem Answered.before {t u : State} {q : Sqe} {st : Status} (h : Answered t u q st) (k : ∃ l, t.out = s.out ++ l) : Answered s u q st := by
  obtain ⟨l, h1, h2⟩ := h
  obtain ⟨m, hm⟩ := k
  obtain ⟨a, b, c, h3, h4⟩ := h2
  exact ⟨m ++ l, by rw [h1, hm, List.append_assoc], a, b, c, List.mem_append_right _ h3, h4⟩
theorem Answered.after {t u : State} {q : Sqe} {st : Status} (h : Answered s t q st) (k : ∃ l, u.out = t.out ++ l) : Answered s u q st := by
  obtain ⟨l, h1, h2⟩ := h
  obtain ⟨m, hm⟩ := k
  obtain ⟨a, b, c, h3, h4⟩ := h2
  exact ⟨l ++ m, by rw [hm, h1, List.append_assoc], a, b, c, List.mem_append_left _ h3, h4⟩

/-! ## Taking an entry -/

theorem nget_nmod_same {α : Type} (m : NMap α) (k : Nat) (f : α → α) : nget (nmod m k f) k = (nget m k).map f := by
  unfold nmod
  split <;> simp [*]
theorem nget_nmod_other {α : Type} (m : NMap α) {k j : Nat} (f : α → α) (h : j ≠ k) : nget (nmod m k f) j = nget m j := by
  unfold nmod
  split
  · exact nget_nset_other _ _ h
  · rfl

@[simp] theorem getPort_noteAccept (s : State) (p q : Port) : getPort (noteAccept s p) q = getPort s q := by cases q <;> rfl
@[simp] theorem getPort_takeEntry_en (p : Port) (k : Nat) (q : Port) : (getPort (takeEntry s p k) q).en = (getPort s q).en := by
  cases p <;> cases q <;> rfl
@[simp] theorem getPort_takeAdmin_en (p q : Port) : (getPort (takeAdmin s p) q).en = (getPort s q).en := by
  simp [takeAdmin, takeFirm]
@[simp] theorem getPort_takeEntry_rdy (p : Port) (k : Nat) (q : Port) : (getPort (takeEntry s p k) q).rdy = (getPort s q).rdy := by
  cases p <;> cases q <;> rfl
@[simp] theorem getPort_takeAdmin_rdy (p q : Port) : (getPort (takeAdmin s p) q).rdy = (getPort s q).rdy := by
  simp [takeAdmin, takeFirm]
@[simp] theorem getPort_takeEntry_cfs (p : Port) (k : Nat) (q : Port) : (getPort (takeEntry s p k) q).cfs = (getPort s q).cfs := by
  cases p <;> cases q <;> rfl
@[simp] theorem getPort_takeAdmin_cfs (p q : Port) : (getPort (takeAdmin s p) q).cfs = (getPort s q).cfs := by
  simp [takeAdmin, takeFirm]
@[simp] theorem getPort_takeEntry_shst (p : Port) (k : Nat) (q : Port) : (getPort (takeEntry s p k) q).shst = (getPort s q).shst := by
  cases p <;> cases q <;> rfl
@[simp] theorem getPort_takeAdmin_shst (p q : Port) : (getPort (takeAdmin s p) q).shst = (getPort s q).shst := by
  simp [takeAdmin, takeFirm]
@[simp] theorem getPort_takeEntry_ams (p : Port) (k : Nat) (q : Port) : (getPort (takeEntry s p k) q).ams = (getPort s q).ams := by
  cases p <;> cases q <;> rfl
@[simp] theorem getPort_takeAdmin_ams (p q : Port) : (getPort (takeAdmin s p) q).ams = (getPort s q).ams := by
  simp [takeAdmin, takeFirm]
@[simp] theorem getPort_takeEntry_mps (p : Port) (k : Nat) (q : Port) : (getPort (takeEntry s p k) q).mps = (getPort s q).mps := by
  cases p <;> cases q <;> rfl
@[simp] theorem getPort_takeAdmin_mps (p q : Port) : (getPort (takeAdmin s p) q).mps = (getPort s q).mps := by
  simp [takeAdmin, takeFirm]
@[simp] theorem getPort_takeEntry_linkUp (p : Port) (k : Nat) (q : Port) : (getPort (takeEntry s p k) q).linkUp = (getPort s q).linkUp := by
  cases p <;> cases q <;> rfl
@[simp] theorem getPort_takeAdmin_linkUp (p q : Port) : (getPort (takeAdmin s p) q).linkUp = (getPort s q).linkUp := by
  simp [takeAdmin, takeFirm]
@[simp] theorem getPort_takeEntry_trainEn (p : Port) (k : Nat) (q : Port) : (getPort (takeEntry s p k) q).trainEn = (getPort s q).trainEn := by
  cases p <;> cases q <;> rfl
@[simp] theorem getPort_takeAdmin_trainEn (p q : Port) : (getPort (takeAdmin s p) q).trainEn = (getPort s q).trainEn := by
  simp [takeAdmin, takeFirm]
@[simp] theorem getPort_takeEntry_perst (p : Port) (k : Nat) (q : Port) : (getPort (takeEntry s p k) q).perst = (getPort s q).perst := by
  cases p <;> cases q <;> rfl
@[simp] theorem getPort_takeAdmin_perst (p q : Port) : (getPort (takeAdmin s p) q).perst = (getPort s q).perst := by
  simp [takeAdmin, takeFirm]
@[simp] theorem getPort_takeEntry_cfgReady (p : Port) (k : Nat) (q : Port) : (getPort (takeEntry s p k) q).cfgReady = (getPort s q).cfgReady := by
  cases p <;> cases q <;> rfl
@[simp] theorem getPort_takeAdmin_cfgReady (p q : Port) : (getPort (takeAdmin s p) q).cfgReady = (getPort s q).cfgReady := by
  simp [takeAdmin, takeFirm]
@[simp] theorem getPort_takeEntry_cfgSpace (p : Port) (k : Nat) (q : Port) : (getPort (takeEntry s p k) q).cfgSpace = (getPort s q).cfgSpace := by
  cases p <;> cases q <;> rfl
@[simp] theorem getPort_takeAdmin_cfgSpace (p q : Port) : (getPort (takeAdmin s p) q).cfgSpace = (getPort s q).cfgSpace := by
  simp [takeAdmin, takeFirm]
@[simp] theorem getPort_takeEntry_fetching (p : Port) (k : Nat) (q : Port) : (getPort (takeEntry s p k) q).fetching = (getPort s q).fetching := by
  cases p <;> cases q <;> rfl
@[simp] theorem getPort_takeAdmin_fetching (p q : Port) : (getPort (takeAdmin s p) q).fetching = (getPort s q).fetching := by
  simp [takeAdmin, takeFirm]
@[simp] theorem getPort_takeEntry_drain (p : Port) (k : Nat) (q : Port) : (getPort (takeEntry s p k) q).drain = (getPort s q).drain := by
  cases p <;> cases q <;> rfl
@[simp] theorem getPort_takeAdmin_drain (p q : Port) : (getPort (takeAdmin s p) q).drain = (getPort s q).drain := by
  simp [takeAdmin, takeFirm]
@[simp] theorem getPort_takeEntry_cqs (p : Port) (k : Nat) (q : Port) : (getPort (takeEntry s p k) q).cqs = (getPort s q).cqs := by
  cases p <;> cases q <;> rfl
@[simp] theorem getPort_takeAdmin_cqs (p q : Port) : (getPort (takeAdmin s p) q).cqs = (getPort s q).cqs := by
  simp [takeAdmin, takeFirm]
@[simp] theorem getPort_takeEntry_msix (p : Port) (k : Nat) (q : Port) : (getPort (takeEntry s p k) q).msix = (getPort s q).msix := by
  cases p <;> cases q <;> rfl
@[simp] theorem getPort_takeEntry_hold (p : Port) (k : Nat) (q : Port) : (getPort (takeEntry s p k) q).hold = (getPort s q).hold := by
  cases p <;> cases q <;> rfl
@[simp] theorem getPort_takeEntry_aerOut (p : Port) (k : Nat) (q : Port) : (getPort (takeEntry s p k) q).aerOut = (getPort s q).aerOut := by
  cases p <;> cases q <;> rfl
@[simp] theorem getPort_takeAdmin_aerOut (p q : Port) : (getPort (takeAdmin s p) q).aerOut = (getPort s q).aerOut := by
  simp [takeAdmin, takeFirm]
@[simp] theorem getPort_takeEntry_aerHeld (p : Port) (k : Nat) (q : Port) : (getPort (takeEntry s p k) q).aerHeld = (getPort s q).aerHeld := by
  cases p <;> cases q <;> rfl
@[simp] theorem getPort_takeAdmin_aerHeld (p q : Port) : (getPort (takeAdmin s p) q).aerHeld = (getPort s q).aerHeld := by
  simp [takeAdmin, takeFirm]
@[simp] theorem getPort_takeEntry_aerMask (p : Port) (k : Nat) (q : Port) : (getPort (takeEntry s p k) q).aerMask = (getPort s q).aerMask := by
  cases p <;> cases q <;> rfl
@[simp] theorem getPort_takeAdmin_aerMask (p q : Port) : (getPort (takeAdmin s p) q).aerMask = (getPort s q).aerMask := by
  simp [takeAdmin, takeFirm]
@[simp] theorem getPort_takeEntry_errLog (p : Port) (k : Nat) (q : Port) : (getPort (takeEntry s p k) q).errLog = (getPort s q).errLog := by
  cases p <;> cases q <;> rfl
@[simp] theorem getPort_takeAdmin_errLog (p q : Port) : (getPort (takeAdmin s p) q).errLog = (getPort s q).errLog := by
  simp [takeAdmin, takeFirm]
@[simp] theorem getPort_takeEntry_errCount (p : Port) (k : Nat) (q : Port) : (getPort (takeEntry s p k) q).errCount = (getPort s q).errCount := by
  cases p <;> cases q <;> rfl
@[simp] theorem getPort_takeAdmin_errCount (p q : Port) : (getPort (takeAdmin s p) q).errCount = (getPort s q).errCount := by
  simp [takeAdmin, takeFirm]
@[simp] theorem getPort_takeEntry_feat (p : Port) (k : Nat) (q : Port) : (getPort (takeEntry s p k) q).feat = (getPort s q).feat := by
  cases p <;> cases q <;> rfl
@[simp] theorem getPort_takeAdmin_feat (p q : Port) : (getPort (takeAdmin s p) q).feat = (getPort s q).feat := by
  simp [takeAdmin, takeFirm]
@[simp] theorem getPort_takeEntry_abortOut (p : Port) (k : Nat) (q : Port) : (getPort (takeEntry s p k) q).abortOut = (getPort s q).abortOut := by
  cases p <;> cases q <;> rfl
@[simp] theorem getPort_takeAdmin_abortOut (p q : Port) : (getPort (takeAdmin s p) q).abortOut = (getPort s q).abortOut := by
  simp [takeAdmin, takeFirm]
@[simp] theorem getPort_takeEntry_nsNotice (p : Port) (k : Nat) (q : Port) : (getPort (takeEntry s p k) q).nsNotice = (getPort s q).nsNotice := by
  cases p <;> cases q <;> rfl
@[simp] theorem getPort_takeAdmin_nsNotice (p q : Port) : (getPort (takeAdmin s p) q).nsNotice = (getPort s q).nsNotice := by
  simp [takeAdmin, takeFirm]
@[simp] theorem getPort_takeEntry_ltrHost (p : Port) (k : Nat) (q : Port) : (getPort (takeEntry s p k) q).ltrHost = (getPort s q).ltrHost := by
  cases p <;> cases q <;> rfl
@[simp] theorem getPort_takeAdmin_ltrHost (p q : Port) : (getPort (takeAdmin s p) q).ltrHost = (getPort s q).ltrHost := by
  simp [takeAdmin, takeFirm]
@[simp] theorem getPort_takeEntry_ltrSent (p : Port) (k : Nat) (q : Port) : (getPort (takeEntry s p k) q).ltrSent = (getPort s q).ltrSent := by
  cases p <;> cases q <;> rfl
@[simp] theorem getPort_takeAdmin_ltrSent (p q : Port) : (getPort (takeAdmin s p) q).ltrSent = (getPort s q).ltrSent := by
  simp [takeAdmin, takeFirm]
@[simp] theorem getPort_takeEntry_ltrAt (p : Port) (k : Nat) (q : Port) : (getPort (takeEntry s p k) q).ltrAt = (getPort s q).ltrAt := by
  cases p <;> cases q <;> rfl
@[simp] theorem getPort_takeAdmin_ltrAt (p q : Port) : (getPort (takeAdmin s p) q).ltrAt = (getPort s q).ltrAt := by
  simp [takeAdmin, takeFirm]
@[simp] theorem getPort_takeEntry_d3hot (p : Port) (k : Nat) (q : Port) : (getPort (takeEntry s p k) q).d3hot = (getPort s q).d3hot := by
  cases p <;> cases q <;> rfl
@[simp] theorem getPort_takeAdmin_d3hot (p q : Port) : (getPort (takeAdmin s p) q).d3hot = (getPort s q).d3hot := by
  simp [takeAdmin, takeFirm]
@[simp] theorem getPort_takeEntry_secRsp (p : Port) (k : Nat) (q : Port) : (getPort (takeEntry s p k) q).secRsp = (getPort s q).secRsp := by
  cases p <;> cases q <;> rfl
@[simp] theorem getPort_takeAdmin_secRsp (p q : Port) : (getPort (takeAdmin s p) q).secRsp = (getPort s q).secRsp := by
  simp [takeAdmin, takeFirm]
@[simp] theorem getPort_takeEntry_dirEn (p : Port) (k : Nat) (q : Port) : (getPort (takeEntry s p k) q).dirEn = (getPort s q).dirEn := by
  cases p <;> cases q <;> rfl
@[simp] theorem getPort_takeAdmin_dirEn (p q : Port) : (getPort (takeAdmin s p) q).dirEn = (getPort s q).dirEn := by
  simp [takeAdmin, takeFirm]
@[simp] theorem getPort_takeEntry_dirOpen (p : Port) (k : Nat) (q : Port) : (getPort (takeEntry s p k) q).dirOpen = (getPort s q).dirOpen := by
  cases p <;> cases q <;> rfl
@[simp] theorem getPort_takeAdmin_dirOpen (p q : Port) : (getPort (takeAdmin s p) q).dirOpen = (getPort s q).dirOpen := by
  simp [takeAdmin, takeFirm]
@[simp] theorem getPort_takeEntry_dirRes (p : Port) (k : Nat) (q : Port) : (getPort (takeEntry s p k) q).dirRes = (getPort s q).dirRes := by
  cases p <;> cases q <;> rfl
@[simp] theorem getPort_takeAdmin_dirRes (p q : Port) : (getPort (takeAdmin s p) q).dirRes = (getPort s q).dirRes := by
  simp [takeAdmin, takeFirm]
@[simp] theorem getPort_takeEntry_plm (p : Port) (k : Nat) (q : Port) : (getPort (takeEntry s p k) q).plm = (getPort s q).plm := by
  cases p <;> cases q <;> rfl
@[simp] theorem getPort_takeAdmin_plm (p q : Port) : (getPort (takeAdmin s p) q).plm = (getPort s q).plm := by
  simp [takeAdmin, takeFirm]
@[simp] theorem getPort_takeEntry_tOver (p : Port) (k : Nat) (q : Port) : (getPort (takeEntry s p k) q).tOver = (getPort s q).tOver := by
  cases p <;> cases q <;> rfl
@[simp] theorem getPort_takeAdmin_tOver (p q : Port) : (getPort (takeAdmin s p) q).tOver = (getPort s q).tOver := by
  simp [takeAdmin, takeFirm]
@[simp] theorem getPort_takeEntry_tUnder (p : Port) (k : Nat) (q : Port) : (getPort (takeEntry s p k) q).tUnder = (getPort s q).tUnder := by
  cases p <;> cases q <;> rfl
@[simp] theorem getPort_takeAdmin_tUnder (p q : Port) : (getPort (takeAdmin s p) q).tUnder = (getPort s q).tUnder := by
  simp [takeAdmin, takeFirm]
theorem getPort_takeEntry_sqs (p : Port) (k : Nat) :
    (getPort (takeEntry s p k) p).sqs = nmod (getPort s p).sqs k fun q => { q with head := (q.head + 1) % max q.size 1 } := by cases p <;> rfl
theorem getPort_takeEntry_other {p q : Port} (k : Nat) (h : q ≠ p) : getPort (takeEntry s p k) q = getPort s q := by
  cases p <;> cases q <;> first | rfl | exact absurd rfl h
theorem cqid_takeEntry (p : Port) (k j : Nat) :
    (nget (getPort (takeEntry s p k) p).sqs j).map (fun x => x.cqid) = (nget (getPort s p).sqs j).map fun x => x.cqid := by
  rw [getPort_takeEntry_sqs]
  by_cases h : j = k
  · subst h; rw [nget_nmod_same, Option.map_map]; rfl
  · rw [nget_nmod_other _ _ h]
@[simp] theorem cqReady_takeEntry (q : Sqe) (k : Nat) : cqReady (takeEntry s q.port k) q = cqReady s q := by
  unfold cqReady
  rw [cqid_takeEntry]; simp
@[simp] theorem cqReady_raise (n : Nat) (q : Sqe) : cqReady (raise s n) q = cqReady s q := by simp [cqReady]
@[simp] theorem cqReady_noteAccept (p : Port) (q : Sqe) : cqReady (noteAccept s p) q = cqReady s q := by simp [cqReady]
@[simp] theorem noteAccept_out (p : Port) : (noteAccept s p).out = s.out := rfl
@[simp] theorem cqReady_takeAdmin (q : Sqe) : cqReady (takeAdmin s q.port) q = cqReady s q := by simp [takeAdmin, takeFirm]
theorem takeAdmin_out (p : Port) : ∃ l, (takeAdmin s p).out = s.out ++ l := by
  obtain ⟨l, h⟩ := raise_out (takeEntry s p 0) (78 + 8 * p.num)
  exact ⟨l, by rw [takeAdmin, noteAccept_out, takeFirm, h, takeEntry_out]⟩

/-- A command that firmware answers at once. -/
theorem answered_admin (q : Sqe) (st : Status) (dw lba cs : Nat) (h : cqReady s q = true) :
    Answered s (complete (takeAdmin s q.port) q st dw lba cs) q st :=
  (answered_complete (takeAdmin s q.port) q st dw lba cs (by simpa using h)).before s (takeAdmin_out s q.port)
/-- An I/O command that is answered as it is fetched. -/
theorem answered_entry (q : Sqe) (st : Status) (dw lba cs : Nat) (h : cqReady s q = true) :
    Answered s (complete (takeEntry s q.port q.qid) q st dw lba cs) q st :=
  (answered_complete (takeEntry s q.port q.qid) q st dw lba cs (by simpa using h)).before s ⟨[], by simp⟩

end Sys2Proof.Machine
end

