-- ==== Sys2Proof/Laws/Calm.lean ====
section
/-! SUPPORT. Where nothing is under way, the work that follows a command changes nothing. -/

set_option Elab.async false

namespace Sys2Proof.Machine

variable {s : State}

theorem foldl_id {α β : Type} {g : β → α → β} {b : β} (l : List α) (h : ∀ a ∈ l, g b a = b) : l.foldl g b = b := by
  induction l with
  | nil => rfl
  | cons a r ih =>
    rw [List.foldl_cons, h a List.mem_cons_self]
    exact ih fun c hc => h c (List.mem_cons_of_mem _ hc)

theorem pump_idle (h : s.flash.ops = []) : pump s = s := by
  have e : refill s = s := by simp [refill, h]
  rw [pump, e]
  refine foldl_id _ fun d _ => ?_
  have a : asks s d = [] := by
    simp [asks, h, lunNext, busNext, firstOf]
    rfl
  simp [grants, a, grant]

theorem turn_calm (h : Calm s) (ho : s.flash.ops = []) : turn s = s := by
  have e : (List.range 24).foldl foldStream s = s := by
    refine foldl_id _ fun k _ => ?_
    simp [foldStream, placeAll, h.opens, h.pgs, nget]
  rw [turn, e, pump_idle ho]

theorem proceedAll_calm (h : Calm s) : proceedAll s = s := by simp [proceedAll, h.cmds]
theorem askAll_calm (h : Calm s) : askAll s = s := by simp [askAll, h.cmds]
theorem rebundle_calm (h : Calm s) : rebundle s = s := by simp [rebundle, h.reqs]
theorem victimsErasable_calm (h : Calm s) : victimsErasable s = s := by
  have : (s.map.tab.sbs.filter fun e => e.2.st == 3 && e.2.vcount == 0 && !jobOn s e.1 && !s.map.recount.contains e.1) = [] := by
    rw [List.filter_eq_nil_iff]
    intro e he
    simp [h.victims e he]
  rw [victimsErasable, this]; rfl

theorem sweepsEnd_calm (h : Calm s) : sweepsEnd s = s := by
  have : (s.map.retiring.filter fun r => r.2.1.isNone && r.2.2 == 5 && !sweepLeft s r.1) = [] := by
    rw [List.filter_eq_nil_iff]
    intro r hr
    simp [h.sweeps r hr]
  rw [sweepsEnd, this]; rfl

theorem relocs_ite {r : NMap Reloc} {c : Prop} [Decidable c] {x y : State} (h : x.map.relocs = r) (k : y.map.relocs = r) :
    (if c then x else y).map.relocs = r := by split <;> assumption
theorem relocs_asyncEvent {r : NMap Reloc} {x : State} (h : x.map.relocs = r) (p : Port) (t i l : Nat) :
    (asyncEvent x p t i l).map.relocs = r := by simpa using h
theorem relocs_asyncBoth {r : NMap Reloc} {x : State} (h : x.map.relocs = r) (t i l : Nat) :
    (asyncBoth x t i l).map.relocs = r := by simpa using h
theorem relocs_raise {r : NMap Reloc} {x : State} (h : x.map.relocs = r) (n : Nat) : (raise x n).map.relocs = r := by simpa using h
theorem relocs_upd {r : NMap Reloc} {x : State} {f : MapEng → MapEng} (h : x.map.relocs = r) (k : (f x.map).relocs = x.map.relocs) :
    (updMap x f).map.relocs = r := k.trans h
/-- A change of the chip's state, or of the space quantities, starts and ends no relocation. -/
theorem anaNotice_relocs {t : State} (h : t.map.relocs = s.map.relocs) : (anaNotice t).map.relocs = s.map.relocs := by
  unfold anaNotice
  repeat' first
    | with_reducible assumption
    | rfl
    | with_reducible apply relocs_ite
    | with_reducible apply relocs_asyncEvent
    | with_reducible apply relocs_raise
    | (with_reducible refine relocs_upd ?_ rfl)
    | with_reducible apply hfn
    | (intro b; refine (fun (_ : b.map.relocs = s.map.relocs) => ?_) ?_; clear_value b; swap; dsimp only [b]; swap)
    | (intro b; refine (fun (hfn : ∀ x y, x.map.relocs = s.map.relocs → (b x y).map.relocs = s.map.relocs) => ?_) ?_; clear_value b; swap;
        (intro x y hx; dsimp only [b]); swap)
    | (intro b; clear_value b)
    | lift_lets
theorem setChip_relocs {n : Nat} : (setChip s n).map.relocs = s.map.relocs := by
  unfold setChip
  repeat' first
    | with_reducible assumption
    | rfl
    | with_reducible apply relocs_ite
    | with_reducible apply relocs_asyncEvent
    | with_reducible apply relocs_raise
    | (with_reducible refine relocs_upd ?_ rfl)
    | with_reducible apply hfn
    | with_reducible apply anaNotice_relocs
    | (intro b; refine (fun (_ : b.map.relocs = s.map.relocs) => ?_) ?_; clear_value b; swap; dsimp only [b]; swap)
    | (intro b; refine (fun (hfn : ∀ x y, x.map.relocs = s.map.relocs → (b x y).map.relocs = s.map.relocs) => ?_) ?_; clear_value b; swap;
        (intro x y hx; dsimp only [b]); swap)
    | (intro b; clear_value b)
    | lift_lets
theorem spaceUpdate_relocs (s : State) : (spaceUpdate s).map.relocs = s.map.relocs := by
  unfold spaceUpdate
  repeat' first
    | with_reducible assumption
    | rfl
    | with_reducible apply relocs_ite
    | with_reducible apply relocs_asyncEvent
    | with_reducible apply relocs_raise
    | (with_reducible refine relocs_upd ?_ rfl)
    | exact setChip_relocs
    | with_reducible apply relocs_asyncBoth
    | (intro b; refine (fun (_ : b.map.relocs = s.map.relocs) => ?_) ?_; clear_value b; swap; dsimp only [b]; swap)
    | (intro b; refine (fun (hfn : ∀ x y, x.map.relocs = s.map.relocs → (b x y).map.relocs = s.map.relocs) => ?_) ?_; clear_value b; swap;
        (intro x y hx; dsimp only [b]); swap)
    | (intro b; clear_value b)
    | lift_lets

theorem afterApply_calm (h : Calm s) (ho : s.flash.ops = []) : afterApply s = spaceUpdate s := by
  simp only [afterApply, victimsErasable_calm h, rebundle_calm h, proceedAll_calm h, askAll_calm h, h.relocs, List.foldl_nil, turn_calm h ho,
    sweepsEnd_calm h, reclaimPace, victimJobs, spaceUpdate_relocs]
  simp

theorem afterFlash_calm (h : Calm s) (ho : s.flash.ops = []) : afterFlash s = s := by
  have d : s.map.pinHold.filter (fun e => !readsLive s e.1) = [] := by simp [h.pins]
  have k : ckptStep s = s := by simp [ckptStep, h.cut]
  rw [afterFlash, turn_calm h ho, askAll_calm h, k, h.relocs]
  simp [settlePins, h.pins, retryRound, h.rounds]

/-! ## The conditions of Table 4-4 after an entry is taken -/

theorem stateFault_of {s t : State} (h1 : t.map = s.map) (h2 : t.cry = s.cry) (h3 : t.regs = s.regs) (h4 : t.prog = s.prog) (h5 : t.srt = s.srt)
    (n : Nat) (m : Bool) : stateFault t n m = stateFault s n m := by
  unfold stateFault keyLost sanitizeOn sanFailed formatOn nsOf active rd
  rw [h1, h2, h3, h4, h5]
theorem stateFault_takeEntry (s : State) (p : Port) (k n : Nat) (m : Bool) : stateFault (takeEntry s p k) n m = stateFault s n m :=
  stateFault_of (by simp) (by simp) (by simp) (by simp) (by simp) n m
theorem attachedNs_takeEntry (s : State) (p : Port) (k : Nat) (q : Sqe) : attachedNs (takeEntry s p k) q = attachedNs s q := by
  simp [attachedNs, nsOf]
theorem ioFault_takeEntry (s : State) (p : Port) (k : Nat) (q : Sqe) (b : Instr) (m : Bool) :
    ioFault (takeEntry s p k) q b m = ioFault s q b m := by
  simp only [ioFault, attachedNs_takeEntry, stateFault_takeEntry]

end Sys2Proof.Machine
end

