-- ==== Sys2Proof/Laws/CmdFrame.lean ====
section
/-! SUPPORT. What each command may change: the laws of the operations, command by command (mayChange of Safety.lean). -/

set_option Elab.async false

namespace Sys2Proof.Machine

variable {s t : State}

theorem may_createIoSq (x0 : Sqe) (x1 x2 x3 x4 x5 : Nat) (x6 x7 : Bool) (h : exec (.createIoSq x0 x1 x2 x3 x4 x5 x6 x7) s = .next t) :
    OnlyChanges (mayChange (.createIoSq x0 x1 x2 x3 x4 x5 x6 x7)) s t := by
  rw [← Host.Outcome.next.inj h]
  apply createSq_frame (OnlyChanges.refl _ s) <;> exact of_decide_eq_true rfl
theorem may_createIoCq (x0 : Sqe) (x1 x2 x3 : Nat) (x4 x5 x6 : Bool) (h : exec (.createIoCq x0 x1 x2 x3 x4 x5 x6) s = .next t) :
    OnlyChanges (mayChange (.createIoCq x0 x1 x2 x3 x4 x5 x6)) s t := by
  rw [← Host.Outcome.next.inj h]
  apply createCq_frame (OnlyChanges.refl _ s) <;> exact of_decide_eq_true rfl
theorem may_deleteIoSq (x0 : Sqe) (x1 : Nat) (h : exec (.deleteIoSq x0 x1) s = .next t) :
    OnlyChanges (mayChange (.deleteIoSq x0 x1)) s t := by
  rw [← Host.Outcome.next.inj h]
  apply deleteSq_frame (OnlyChanges.refl _ s) <;> exact of_decide_eq_true rfl
theorem may_deleteIoCq (x0 : Sqe) (x1 : Nat) (h : exec (.deleteIoCq x0 x1) s = .next t) :
    OnlyChanges (mayChange (.deleteIoCq x0 x1)) s t := by
  rw [← Host.Outcome.next.inj h]
  apply deleteCq_frame (OnlyChanges.refl _ s) <;> exact of_decide_eq_true rfl
theorem may_identify (x0 : Sqe) (x1 x2 : Nat) (h : exec (.identify x0 x1 x2) s = .next t) :
    OnlyChanges (mayChange (.identify x0 x1 x2)) s t := by
  rw [← Host.Outcome.next.inj h]
  apply identifyCmd_frame (OnlyChanges.refl _ s) <;> exact of_decide_eq_true rfl
theorem may_getLogPage (x0 : Sqe) (x1 x2 x3 : Nat) (x4 : Bool) (h : exec (.getLogPage x0 x1 x2 x3 x4) s = .next t) :
    OnlyChanges (mayChange (.getLogPage x0 x1 x2 x3 x4)) s t := by
  rw [← Host.Outcome.next.inj h]
  apply getLog_frame (OnlyChanges.refl _ s) <;> exact of_decide_eq_true rfl
theorem may_deadLetterOfficeLog (x0 : Sqe) (x1 x2 : Nat) (x3 : Bool) (h : exec (.deadLetterOfficeLog x0 x1 x2 x3) s = .next t) :
    OnlyChanges (mayChange (.deadLetterOfficeLog x0 x1 x2 x3)) s t := by
  rw [← Host.Outcome.next.inj h]
  apply getLog_frame (OnlyChanges.refl _ s) <;> exact of_decide_eq_true rfl
theorem may_recorderExportLog (x0 : Sqe) (x1 x2 : Nat) (x3 : Bool) (h : exec (.recorderExportLog x0 x1 x2 x3) s = .next t) :
    OnlyChanges (mayChange (.recorderExportLog x0 x1 x2 x3)) s t := by
  rw [← Host.Outcome.next.inj h]
  apply getLog_frame (OnlyChanges.refl _ s) <;> exact of_decide_eq_true rfl
theorem may_ringStatusLog (x0 : Sqe) (x1 x2 : Nat) (x3 : Bool) (h : exec (.ringStatusLog x0 x1 x2 x3) s = .next t) :
    OnlyChanges (mayChange (.ringStatusLog x0 x1 x2 x3)) s t := by
  rw [← Host.Outcome.next.inj h]
  apply getLog_frame (OnlyChanges.refl _ s) <;> exact of_decide_eq_true rfl
theorem may_mediaHealthDetailLog (x0 : Sqe) (x1 x2 : Nat) (x3 : Bool) (h : exec (.mediaHealthDetailLog x0 x1 x2 x3) s = .next t) :
    OnlyChanges (mayChange (.mediaHealthDetailLog x0 x1 x2 x3)) s t := by
  rw [← Host.Outcome.next.inj h]
  apply getLog_frame (OnlyChanges.refl _ s) <;> exact of_decide_eq_true rfl
theorem may_capacityAndSheddingLog (x0 : Sqe) (x1 x2 : Nat) (x3 : Bool) (h : exec (.capacityAndSheddingLog x0 x1 x2 x3) s = .next t) :
    OnlyChanges (mayChange (.capacityAndSheddingLog x0 x1 x2 x3)) s t := by
  rw [← Host.Outcome.next.inj h]
  apply getLog_frame (OnlyChanges.refl _ s) <;> exact of_decide_eq_true rfl
theorem may_setFeatures (x0 : Sqe) (x1 : Nat) (x2 : Bool) (x3 : FeatVal) (h : exec (.setFeatures x0 x1 x2 x3) s = .next t) :
    OnlyChanges (mayChange (.setFeatures x0 x1 x2 x3)) s t := by
  rw [← Host.Outcome.next.inj h]
  apply setFeatures_frame (OnlyChanges.refl _ s) <;> exact of_decide_eq_true rfl
theorem may_getFeatures (x0 : Sqe) (x1 x2 x3 : Nat) (h : exec (.getFeatures x0 x1 x2 x3) s = .next t) :
    OnlyChanges (mayChange (.getFeatures x0 x1 x2 x3)) s t := by
  rw [← Host.Outcome.next.inj h]
  apply getFeatures_frame (OnlyChanges.refl _ s) <;> exact of_decide_eq_true rfl
theorem may_setPowerManagement (x0 : Sqe) (x1 : Nat) (x2 : Bool) (h : exec (.setPowerManagement x0 x1 x2) s = .next t) :
    OnlyChanges (mayChange (.setPowerManagement x0 x1 x2)) s t := by
  rw [← Host.Outcome.next.inj h]
  repeat' first
    | with_reducible exact OnlyChanges.refl _ s
    | with_reducible apply admin_frame
    | with_reducible apply featPower_frame
    | exact of_decide_eq_true rfl
    | (with_reducible apply frame_ite)
    | intro _
    | split
    | assumption
theorem may_setPlmWindow (x0 : Sqe) (x1 : Nat) (h : exec (.setPlmWindow x0 x1) s = .next t) :
    OnlyChanges (mayChange (.setPlmWindow x0 x1)) s t := by
  rw [← Host.Outcome.next.inj h]
  repeat' first
    | with_reducible exact OnlyChanges.refl _ s
    | with_reducible apply admin_frame
    | with_reducible apply featPlm_frame
    | exact of_decide_eq_true rfl
    | (with_reducible apply frame_ite)
    | intro _
    | split
    | assumption
theorem may_setLatencyTolerance (x0 : Sqe) (x1 : Nat) (x2 : Bool) (h : exec (.setLatencyTolerance x0 x1 x2) s = .next t) :
    OnlyChanges (mayChange (.setLatencyTolerance x0 x1 x2)) s t := by
  rw [← Host.Outcome.next.inj h]
  repeat' first
    | with_reducible exact OnlyChanges.refl _ s
    | with_reducible apply admin_frame
    | with_reducible apply featLatency_frame
    | exact of_decide_eq_true rfl
    | (with_reducible apply frame_ite)
    | intro _
    | split
    | assumption
theorem may_setFailStopDefault (x0 : Sqe) (x1 : Nat) (x2 : Bool) (h : exec (.setFailStopDefault x0 x1 x2) s = .next t) :
    OnlyChanges (mayChange (.setFailStopDefault x0 x1 x2)) s t := by
  rw [← Host.Outcome.next.inj h]
  repeat' first
    | with_reducible exact OnlyChanges.refl _ s
    | with_reducible apply admin_frame
    | with_reducible apply featFailStop_frame
    | exact of_decide_eq_true rfl
    | (with_reducible apply frame_ite)
    | intro _
    | split
    | assumption
theorem may_setPatrolPeriod (x0 : Sqe) (x1 : Nat) (x2 : Bool) (h : exec (.setPatrolPeriod x0 x1 x2) s = .next t) :
    OnlyChanges (mayChange (.setPatrolPeriod x0 x1 x2)) s t := by
  rw [← Host.Outcome.next.inj h]
  repeat' first
    | with_reducible exact OnlyChanges.refl _ s
    | with_reducible apply admin_frame
    | with_reducible apply featPatrol_frame
    | exact of_decide_eq_true rfl
    | (with_reducible apply frame_ite)
    | intro _
    | split
    | assumption
theorem may_asyncEventRequest (x0 : Sqe) (h : exec (.asyncEventRequest x0) s = .next t) :
    OnlyChanges (mayChange (.asyncEventRequest x0)) s t := by
  rw [← Host.Outcome.next.inj h]
  apply aerRequest_frame (OnlyChanges.refl _ s) <;> exact of_decide_eq_true rfl
theorem may_namespaceCreate (x0 : Sqe) (x1 x2 x3 x4 : Nat) (x5 x6 x7 : Bool) (h : exec (.namespaceCreate x0 x1 x2 x3 x4 x5 x6 x7) s = .next t) :
    OnlyChanges (mayChange (.namespaceCreate x0 x1 x2 x3 x4 x5 x6 x7)) s t := by
  rw [← Host.Outcome.next.inj h]
  repeat' first
    | with_reducible exact OnlyChanges.refl _ s
    | with_reducible apply nsCreate_frame
    | exact of_decide_eq_true rfl
    | (with_reducible apply frame_ite)
    | intro _
    | split
    | assumption
theorem may_namespaceDelete (x0 : Sqe) (h : exec (.namespaceDelete x0) s = .next t) :
    OnlyChanges (mayChange (.namespaceDelete x0)) s t := by
  rw [← Host.Outcome.next.inj h]
  repeat' first
    | with_reducible exact OnlyChanges.refl _ s
    | with_reducible apply nsDelete_frame
    | exact of_decide_eq_true rfl
    | (with_reducible apply frame_ite)
    | intro _
    | split
    | assumption
theorem may_namespaceAttachment (x0 : Sqe) (x1 : Bool) (x2 : List Nat) (h : exec (.namespaceAttachment x0 x1 x2) s = .next t) :
    OnlyChanges (mayChange (.namespaceAttachment x0 x1 x2)) s t := by
  rw [← Host.Outcome.next.inj h]
  apply attachNs_frame (OnlyChanges.refl _ s) <;> exact of_decide_eq_true rfl
theorem may_directiveSend (x0 : Sqe) (x1 x2 x3 x4 : Nat) (h : exec (.directiveSend x0 x1 x2 x3 x4) s = .next t) :
    OnlyChanges (mayChange (.directiveSend x0 x1 x2 x3 x4)) s t := by
  rw [← Host.Outcome.next.inj h]
  apply dirSend_frame (OnlyChanges.refl _ s) <;> exact of_decide_eq_true rfl
theorem may_directiveReceive (x0 : Sqe) (x1 x2 x3 : Nat) (h : exec (.directiveReceive x0 x1 x2 x3) s = .next t) :
    OnlyChanges (mayChange (.directiveReceive x0 x1 x2 x3)) s t := by
  rw [← Host.Outcome.next.inj h]
  apply dirReceive_frame (OnlyChanges.refl _ s) <;> exact of_decide_eq_true rfl
theorem may_firmwareImageDownload (x0 : Sqe) (x1 x2 : Nat) (x3 : List Byte) (h : exec (.firmwareImageDownload x0 x1 x2 x3) s = .next t) :
    OnlyChanges (mayChange (.firmwareImageDownload x0 x1 x2 x3)) s t := by
  rw [← Host.Outcome.next.inj h]
  apply download_frame (OnlyChanges.refl _ s) <;> exact of_decide_eq_true rfl
theorem may_firmwareCommitReplace (x0 : Sqe) (x1 : Nat) (x2 : Bool) (h : exec (.firmwareCommitReplace x0 x1 x2) s = .next t) :
    OnlyChanges (mayChange (.firmwareCommitReplace x0 x1 x2)) s t := by
  rw [← Host.Outcome.next.inj h]
  apply commitImage_frame (OnlyChanges.refl _ s) <;> exact of_decide_eq_true rfl
theorem may_firmwareCommitReplaceNext (x0 : Sqe) (x1 : Nat) (x2 : Bool) (h : exec (.firmwareCommitReplaceNext x0 x1 x2) s = .next t) :
    OnlyChanges (mayChange (.firmwareCommitReplaceNext x0 x1 x2)) s t := by
  rw [← Host.Outcome.next.inj h]
  apply commitImage_frame (OnlyChanges.refl _ s) <;> exact of_decide_eq_true rfl
theorem may_firmwareCommitActivateSlot (x0 : Sqe) (x1 : Nat) (x2 : Bool) (h : exec (.firmwareCommitActivateSlot x0 x1 x2) s = .next t) :
    OnlyChanges (mayChange (.firmwareCommitActivateSlot x0 x1 x2)) s t := by
  rw [← Host.Outcome.next.inj h]
  apply commitNamed_frame (OnlyChanges.refl _ s) <;> exact of_decide_eq_true rfl
theorem may_firmwareCommitActivateNow (x0 : Sqe) (x1 : Nat) (x2 : Bool) (h : exec (.firmwareCommitActivateNow x0 x1 x2) s = .next t) :
    OnlyChanges (mayChange (.firmwareCommitActivateNow x0 x1 x2)) s t := by
  rw [← Host.Outcome.next.inj h]
  apply commitImage_frame (OnlyChanges.refl _ s) <;> exact of_decide_eq_true rfl
theorem may_formatNvm (x0 : Sqe) (x1 x2 x3 : Nat) (x4 x5 x6 : Bool) (h : exec (.formatNvm x0 x1 x2 x3 x4 x5 x6) s = .next t) :
    OnlyChanges (mayChange (.formatNvm x0 x1 x2 x3 x4 x5 x6)) s t := by
  rw [← Host.Outcome.next.inj h]
  repeat' first
    | with_reducible exact OnlyChanges.refl _ s
    | with_reducible apply formatFetch_frame
    | exact of_decide_eq_true rfl
    | (with_reducible apply frame_ite)
    | intro _
    | split
    | assumption
theorem may_sanitizeExitFailureMode (x0 : Sqe) (x1 : Bool) (h : exec (.sanitizeExitFailureMode x0 x1) s = .next t) :
    OnlyChanges (mayChange (.sanitizeExitFailureMode x0 x1)) s t := by
  rw [← Host.Outcome.next.inj h]
  apply sanitizeExit_frame (OnlyChanges.refl _ s) <;> exact of_decide_eq_true rfl
theorem may_sanitizeBlockErase (x0 : Sqe) (x1 x2 x3 : Bool) (h : exec (.sanitizeBlockErase x0 x1 x2 x3) s = .next t) :
    OnlyChanges (mayChange (.sanitizeBlockErase x0 x1 x2 x3)) s t := by
  rw [← Host.Outcome.next.inj h]
  repeat' first
    | with_reducible exact OnlyChanges.refl _ s
    | with_reducible apply sanitizeFetch_frame
    | exact of_decide_eq_true rfl
    | (with_reducible apply frame_ite)
    | intro _
    | split
    | assumption
theorem may_sanitizeCryptoErase (x0 : Sqe) (x1 x2 x3 : Bool) (h : exec (.sanitizeCryptoErase x0 x1 x2 x3) s = .next t) :
    OnlyChanges (mayChange (.sanitizeCryptoErase x0 x1 x2 x3)) s t := by
  rw [← Host.Outcome.next.inj h]
  repeat' first
    | with_reducible exact OnlyChanges.refl _ s
    | with_reducible apply sanitizeFetch_frame
    | exact of_decide_eq_true rfl
    | (with_reducible apply frame_ite)
    | intro _
    | split
    | assumption
theorem may_sanitizeRoundDone (h : exec .sanitizeRoundDone s = .next t) :
    OnlyChanges (mayChange .sanitizeRoundDone) s t := by
  rw [← Host.Outcome.next.inj h]
  apply roundDone_frame (OnlyChanges.refl _ s) <;> exact of_decide_eq_true rfl
theorem may_sanitizeProgressWrite (h : exec .sanitizeProgressWrite s = .next t) :
    OnlyChanges (mayChange .sanitizeProgressWrite) s t := by
  rw [← Host.Outcome.next.inj h]
  apply sanProgress_frame (OnlyChanges.refl _ s) <;> exact of_decide_eq_true rfl
theorem may_securitySend (x0 : Sqe) (x1 : Nat) (x2 : SpdmReq) (h : exec (.securitySend x0 x1 x2) s = .next t) :
    OnlyChanges (mayChange (.securitySend x0 x1 x2)) s t := by
  rw [← Host.Outcome.next.inj h]
  apply secSend_frame (OnlyChanges.refl _ s) <;> exact of_decide_eq_true rfl
theorem may_securityReceive (x0 : Sqe) (x1 : Nat) (h : exec (.securityReceive x0 x1) s = .next t) :
    OnlyChanges (mayChange (.securityReceive x0 x1)) s t := by
  rw [← Host.Outcome.next.inj h]
  apply secReceive_frame (OnlyChanges.refl _ s) <;> exact of_decide_eq_true rfl
theorem may_shedCapacityRanges (x0 : Sqe) (x1 : List LetterRange) (h : exec (.shedCapacityRanges x0 x1) s = .next t) :
    OnlyChanges (mayChange (.shedCapacityRanges x0 x1)) s t := by
  rw [← Host.Outcome.next.inj h]
  repeat' first
    | with_reducible exact OnlyChanges.refl _ s
    | with_reducible apply shedFetch_frame
    | exact of_decide_eq_true rfl
    | (with_reducible apply frame_ite)
    | intro _
    | split
    | assumption
theorem may_shedCapacityUnallocated (x0 : Sqe) (x1 : Nat) (h : exec (.shedCapacityUnallocated x0 x1) s = .next t) :
    OnlyChanges (mayChange (.shedCapacityUnallocated x0 x1)) s t := by
  rw [← Host.Outcome.next.inj h]
  repeat' first
    | with_reducible exact OnlyChanges.refl _ s
    | with_reducible apply shedFreeFetch_frame
    | exact of_decide_eq_true rfl
    | (with_reducible apply frame_ite)
    | intro _
    | split
    | assumption
theorem may_resumeQueue (x0 : Sqe) (x1 : Nat) (h : exec (.resumeQueue x0 x1) s = .next t) :
    OnlyChanges (mayChange (.resumeQueue x0 x1)) s t := by
  rw [← Host.Outcome.next.inj h]
  apply resumeQ_frame (OnlyChanges.refl _ s) <;> exact of_decide_eq_true rfl
theorem may_collectionScheduleSet (x0 : Sqe) (x1 : SchedDesc) (h : exec (.collectionScheduleSet x0 x1) s = .next t) :
    OnlyChanges (mayChange (.collectionScheduleSet x0 x1)) s t := by
  rw [← Host.Outcome.next.inj h]
  apply schedSet_frame (OnlyChanges.refl _ s) <;> exact of_decide_eq_true rfl
theorem may_collectionScheduleGet (x0 : Sqe) (h : exec (.collectionScheduleGet x0) s = .next t) :
    OnlyChanges (mayChange (.collectionScheduleGet x0)) s t := by
  rw [← Host.Outcome.next.inj h]
  apply schedGet_frame (OnlyChanges.refl _ s) <;> exact of_decide_eq_true rfl
theorem may_collectionScheduleTimeout (h : exec .collectionScheduleTimeout s = .next t) :
    OnlyChanges (mayChange .collectionScheduleTimeout) s t := by
  rw [← Host.Outcome.next.inj h]
  apply schedTimeout_frame (OnlyChanges.refl _ s) <;> exact of_decide_eq_true rfl
theorem may_scrubRange (x0 : Sqe) (x1 x2 x3 x4 x5 : Nat) (h : exec (.scrubRange x0 x1 x2 x3 x4 x5) s = .next t) :
    OnlyChanges (mayChange (.scrubRange x0 x1 x2 x3 x4 x5)) s t := by
  rw [← Host.Outcome.next.inj h]
  repeat' first
    | with_reducible exact OnlyChanges.refl _ s
    | with_reducible apply scrubCommand_frame
    | exact of_decide_eq_true rfl
    | (with_reducible apply frame_ite)
    | intro _
    | split
    | assumption
theorem may_recorderRead (x0 : Sqe) (x1 x2 : Nat) (x3 : Bool) (h : exec (.recorderRead x0 x1 x2 x3) s = .next t) :
    OnlyChanges (mayChange (.recorderRead x0 x1 x2 x3)) s t := by
  rw [← Host.Outcome.next.inj h]
  apply recRead_frame (OnlyChanges.refl _ s) <;> exact of_decide_eq_true rfl
theorem may_depotUnlockRead (x0 : Sqe) (x1 : Nat) (h : exec (.depotUnlockRead x0 x1) s = .next t) :
    OnlyChanges (mayChange (.depotUnlockRead x0 x1)) s t := by
  rw [← Host.Outcome.next.inj h]
  apply depotOpen_frame (OnlyChanges.refl _ s) <;> exact of_decide_eq_true rfl
theorem may_depotUnlockReadWrite (x0 : Sqe) (x1 : Nat) (h : exec (.depotUnlockReadWrite x0 x1) s = .next t) :
    OnlyChanges (mayChange (.depotUnlockReadWrite x0 x1)) s t := by
  rw [← Host.Outcome.next.inj h]
  apply depotOpen_frame (OnlyChanges.refl _ s) <;> exact of_decide_eq_true rfl
theorem may_depotUnlockClose (x0 : Sqe) (x1 : Nat) (h : exec (.depotUnlockClose x0 x1) s = .next t) :
    OnlyChanges (mayChange (.depotUnlockClose x0 x1)) s t := by
  rw [← Host.Outcome.next.inj h]
  apply depotClose_frame (OnlyChanges.refl _ s) <;> exact of_decide_eq_true rfl
theorem may_phcFillDone (x0 : Nat) (x1 : BitVec 512) (x2 : UnitRead) (x3 : List LineReq) (x4 : Option LineError) (x5 : Nat) (h : exec (.phcFillDone x0 x1 x2 x3 x4 x5) s = .next t) :
    OnlyChanges (mayChange (.phcFillDone x0 x1 x2 x3 x4 x5)) s t := by
  rw [← Host.Outcome.next.inj h]
  apply phcFilled_frame (OnlyChanges.refl _ s) <;> exact of_decide_eq_true rfl
theorem may_phcWritebackAck (x0 : Nat) (h : exec (.phcWritebackAck x0) s = .next t) :
    OnlyChanges (mayChange (.phcWritebackAck x0)) s t := by
  rw [← Host.Outcome.next.inj h]
  apply writebackAck_frame (OnlyChanges.refl _ s) <;> exact of_decide_eq_true rfl
theorem may_phcErrWindowEnd (h : exec .phcErrWindowEnd s = .next t) :
    OnlyChanges (mayChange .phcErrWindowEnd) s t := by
  rw [← Host.Outcome.next.inj h]
  apply errWindowEnd_frame (OnlyChanges.refl _ s) <;> exact of_decide_eq_true rfl
theorem may_phcWayDisableDone (x0 x1 : Nat) (h : exec (.phcWayDisableDone x0 x1) s = .next t) :
    OnlyChanges (mayChange (.phcWayDisableDone x0 x1)) s t := by
  rw [← Host.Outcome.next.inj h]
  apply wayDisableDone_frame (OnlyChanges.refl _ s) <;> exact of_decide_eq_true rfl
theorem may_phcInvalidationDone (h : exec .phcInvalidationDone s = .next t) :
    OnlyChanges (mayChange .phcInvalidationDone) s t := by
  rw [← Host.Outcome.next.inj h]
  apply invalidationDone_frame (OnlyChanges.refl _ s) <;> exact of_decide_eq_true rfl
theorem may_phcDrainDone (h : exec .phcDrainDone s = .next t) :
    OnlyChanges (mayChange .phcDrainDone) s t := by
  rw [← Host.Outcome.next.inj h]
  apply phcDrained_frame (OnlyChanges.refl _ s) <;> exact of_decide_eq_true rfl
theorem may_phcRangeDone (h : exec .phcRangeDone s = .next t) :
    OnlyChanges (mayChange .phcRangeDone) s t := by
  rw [← Host.Outcome.next.inj h]
  apply rangeDone_frame (OnlyChanges.refl _ s) <;> exact of_decide_eq_true rfl
theorem may_imageVerifyDone (h : exec .imageVerifyDone s = .next t) :
    OnlyChanges (mayChange .imageVerifyDone) s t := by
  rw [← Host.Outcome.next.inj h]
  apply verifyDone_frame (OnlyChanges.refl _ s) <;> exact of_decide_eq_true rfl
theorem may_activationRevert (h : exec .activationRevert s = .next t) :
    OnlyChanges (mayChange .activationRevert) s t := by
  rw [← Host.Outcome.next.inj h]
  apply activationRevert_frame (OnlyChanges.refl _ s) <;> exact of_decide_eq_true rfl
theorem may_getVersion (x0 : SpdmTransport) (h : exec (.getVersion x0) s = .next t) :
    OnlyChanges (mayChange (.getVersion x0)) s t := by
  rw [← Host.Outcome.next.inj h]
  apply spdm_frame (OnlyChanges.refl _ s) <;> exact of_decide_eq_true rfl
theorem may_getCapabilities (x0 : SpdmTransport) (h : exec (.getCapabilities x0) s = .next t) :
    OnlyChanges (mayChange (.getCapabilities x0)) s t := by
  rw [← Host.Outcome.next.inj h]
  apply spdm_frame (OnlyChanges.refl _ s) <;> exact of_decide_eq_true rfl
theorem may_negotiateAlgorithms (x0 : SpdmTransport) (x1 : Bool) (h : exec (.negotiateAlgorithms x0 x1) s = .next t) :
    OnlyChanges (mayChange (.negotiateAlgorithms x0 x1)) s t := by
  rw [← Host.Outcome.next.inj h]
  repeat' first
    | with_reducible exact OnlyChanges.refl _ s
    | with_reducible apply spdm_frame
    | exact of_decide_eq_true rfl
    | (with_reducible apply frame_ite)
    | intro _
    | split
    | assumption
theorem may_getDigests (x0 : SpdmTransport) (h : exec (.getDigests x0) s = .next t) :
    OnlyChanges (mayChange (.getDigests x0)) s t := by
  rw [← Host.Outcome.next.inj h]
  apply spdm_frame (OnlyChanges.refl _ s) <;> exact of_decide_eq_true rfl
theorem may_getCertificate (x0 : SpdmTransport) (x1 x2 x3 : Nat) (h : exec (.getCertificate x0 x1 x2 x3) s = .next t) :
    OnlyChanges (mayChange (.getCertificate x0 x1 x2 x3)) s t := by
  rw [← Host.Outcome.next.inj h]
  repeat' first
    | with_reducible exact OnlyChanges.refl _ s
    | with_reducible apply spdm_frame
    | exact of_decide_eq_true rfl
    | (with_reducible apply frame_ite)
    | intro _
    | split
    | assumption
theorem may_challenge (x0 : SpdmTransport) (x1 : Nat) (h : exec (.challenge x0 x1) s = .next t) :
    OnlyChanges (mayChange (.challenge x0 x1)) s t := by
  rw [← Host.Outcome.next.inj h]
  repeat' first
    | with_reducible exact OnlyChanges.refl _ s
    | with_reducible apply spdm_frame
    | exact of_decide_eq_true rfl
    | (with_reducible apply frame_ite)
    | intro _
    | split
    | assumption
theorem may_getMeasurements (x0 : SpdmTransport) (x1 : Nat) (x2 : Bool) (h : exec (.getMeasurements x0 x1 x2) s = .next t) :
    OnlyChanges (mayChange (.getMeasurements x0 x1 x2)) s t := by
  rw [← Host.Outcome.next.inj h]
  repeat' first
    | with_reducible exact OnlyChanges.refl _ s
    | with_reducible apply spdm_frame
    | exact of_decide_eq_true rfl
    | (with_reducible apply frame_ite)
    | intro _
    | split
    | assumption
theorem may_keyExchange (x0 : SpdmTransport) (x1 : Bool) (h : exec (.keyExchange x0 x1) s = .next t) :
    OnlyChanges (mayChange (.keyExchange x0 x1)) s t := by
  rw [← Host.Outcome.next.inj h]
  repeat' first
    | with_reducible exact OnlyChanges.refl _ s
    | with_reducible apply spdm_frame
    | exact of_decide_eq_true rfl
    | (with_reducible apply frame_ite)
    | intro _
    | split
    | assumption
theorem may_finish (x0 : SpdmTransport) (x1 : Nat) (x2 : Bool) (x3 : BitVec 512) (h : exec (.finish x0 x1 x2 x3) s = .next t) :
    OnlyChanges (mayChange (.finish x0 x1 x2 x3)) s t := by
  rw [← Host.Outcome.next.inj h]
  repeat' first
    | with_reducible exact OnlyChanges.refl _ s
    | with_reducible apply spdm_frame
    | exact of_decide_eq_true rfl
    | (with_reducible apply frame_ite)
    | intro _
    | split
    | assumption
theorem may_heartbeat (x0 : SpdmTransport) (x1 : Nat) (h : exec (.heartbeat x0 x1) s = .next t) :
    OnlyChanges (mayChange (.heartbeat x0 x1)) s t := by
  rw [← Host.Outcome.next.inj h]
  repeat' first
    | with_reducible exact OnlyChanges.refl _ s
    | with_reducible apply spdm_frame
    | exact of_decide_eq_true rfl
    | (with_reducible apply frame_ite)
    | intro _
    | split
    | assumption
theorem may_keyUpdate (x0 : SpdmTransport) (x1 : Nat) (h : exec (.keyUpdate x0 x1) s = .next t) :
    OnlyChanges (mayChange (.keyUpdate x0 x1)) s t := by
  rw [← Host.Outcome.next.inj h]
  repeat' first
    | with_reducible exact OnlyChanges.refl _ s
    | with_reducible apply spdm_frame
    | exact of_decide_eq_true rfl
    | (with_reducible apply frame_ite)
    | intro _
    | split
    | assumption
theorem may_endSession (x0 : SpdmTransport) (x1 : Nat) (h : exec (.endSession x0 x1) s = .next t) :
    OnlyChanges (mayChange (.endSession x0 x1)) s t := by
  rw [← Host.Outcome.next.inj h]
  repeat' first
    | with_reducible exact OnlyChanges.refl _ s
    | with_reducible apply spdm_frame
    | with_reducible apply endSession_frame
    | exact of_decide_eq_true rfl
    | (with_reducible apply frame_ite)
    | intro _
    | split
    | assumption
theorem may_spdmHeartbeatTimeout (x0 : Nat) (h : exec (.spdmHeartbeatTimeout x0) s = .next t) :
    OnlyChanges (mayChange (.spdmHeartbeatTimeout x0)) s t := by
  rw [← Host.Outcome.next.inj h]
  apply spdmTimeout_frame (OnlyChanges.refl _ s) <;> exact of_decide_eq_true rfl
theorem may_readComplete (x0 : Nat) (x1 : List CodewordRead) (h : exec (.readComplete x0 x1) s = .next t) :
    OnlyChanges (mayChange (.readComplete x0 x1)) s t := by
  rw [← Host.Outcome.next.inj h]
  apply readComplete_frame (OnlyChanges.refl _ s) <;> exact of_decide_eq_true rfl
theorem may_softDecodeDone (x0 : Nat) (x1 : Bool) (x2 : Nat) (h : exec (.softDecodeDone x0 x1 x2) s = .next t) :
    OnlyChanges (mayChange (.softDecodeDone x0 x1 x2)) s t := by
  rw [← Host.Outcome.next.inj h]
  apply softDone_frame (OnlyChanges.refl _ s) <;> exact of_decide_eq_true rfl
theorem may_rebuildDone (x0 : Nat) (h : exec (.rebuildDone x0) s = .next t) :
    OnlyChanges (mayChange (.rebuildDone x0)) s t := by
  rw [← Host.Outcome.next.inj h]
  apply rebuildDone_frame (OnlyChanges.refl _ s) <;> exact of_decide_eq_true rfl
theorem may_dlqEntryWrite (x0 : Nat) (h : exec (.dlqEntryWrite x0) s = .next t) :
    OnlyChanges (mayChange (.dlqEntryWrite x0)) s t := by
  rw [← Host.Outcome.next.inj h]
  apply dlqEntryWrite_frame (OnlyChanges.refl _ s) <;> exact of_decide_eq_true rfl
theorem may_programComplete (x0 : Nat) (x1 : DieOutcome) (h : exec (.programComplete x0 x1) s = .next t) :
    OnlyChanges (mayChange (.programComplete x0 x1)) s t := by
  rw [← Host.Outcome.next.inj h]
  repeat' first
    | with_reducible exact OnlyChanges.refl _ s
    | with_reducible apply programComplete_frame
    | exact of_decide_eq_true rfl
    | (with_reducible apply frame_ite)
    | intro _
    | split
    | assumption
theorem may_eraseSuspend (x0 : Nat) (h : exec (.eraseSuspend x0) s = .next t) :
    OnlyChanges (mayChange (.eraseSuspend x0)) s t := by
  rw [← Host.Outcome.next.inj h]
  apply suspend_frame (OnlyChanges.refl _ s) <;> exact of_decide_eq_true rfl
theorem may_programSuspend (x0 : Nat) (h : exec (.programSuspend x0) s = .next t) :
    OnlyChanges (mayChange (.programSuspend x0)) s t := by
  rw [← Host.Outcome.next.inj h]
  apply suspend_frame (OnlyChanges.refl _ s) <;> exact of_decide_eq_true rfl
theorem may_suspendResume (x0 : Nat) (x1 : Bool) (h : exec (.suspendResume x0 x1) s = .next t) :
    OnlyChanges (mayChange (.suspendResume x0 x1)) s t := by
  rw [← Host.Outcome.next.inj h]
  apply suspendResume_frame (OnlyChanges.refl _ s) <;> exact of_decide_eq_true rfl
theorem may_rdIAgeExpiry (x0 : Nat) (h : exec (.rdIAgeExpiry x0) s = .next t) :
    OnlyChanges (mayChange (.rdIAgeExpiry x0)) s t := by
  rw [← Host.Outcome.next.inj h]
  apply rdIAge_frame (OnlyChanges.refl _ s) <;> exact of_decide_eq_true rfl
theorem may_lunTimeout (x0 : Nat) (x1 : Bool) (h : exec (.lunTimeout x0 x1) s = .next t) :
    OnlyChanges (mayChange (.lunTimeout x0 x1)) s t := by
  rw [← Host.Outcome.next.inj h]
  apply lunTimeout_frame (OnlyChanges.refl _ s) <;> exact of_decide_eq_true rfl
theorem may_trainingDone (x0 : Fin 32) (x1 : List (Nat × Nat)) (x2 : List Nat) (h : exec (.trainingDone x0 x1 x2) s = .next t) :
    OnlyChanges (mayChange (.trainingDone x0 x1 x2)) s t := by
  rw [← Host.Outcome.next.inj h]
  apply trainingDone_frame (OnlyChanges.refl _ s) <;> exact of_decide_eq_true rfl
theorem may_courierResetDone (x0 : Fin 32) (x1 : List (Nat × Bool)) (x2 : TrainFound) (h : exec (.courierResetDone x0 x1 x2) s = .next t) :
    OnlyChanges (mayChange (.courierResetDone x0 x1 x2)) s t := by
  rw [← Host.Outcome.next.inj h]
  repeat' first
    | with_reducible exact OnlyChanges.refl _ s
    | with_reducible apply courierResetDone_frame
    | with_reducible apply train_frame
    | exact of_decide_eq_true rfl
    | (with_reducible apply frame_ite)
    | intro _
    | split
    | assumption
theorem may_tokenAllocation (h : exec .tokenAllocation s = .next t) :
    OnlyChanges (mayChange .tokenAllocation) s t := by
  rw [← Host.Outcome.next.inj h]
  apply allocate_frame (OnlyChanges.refl _ s) <;> exact of_decide_eq_true rfl
theorem may_epochPeriodExpiry (h : exec .epochPeriodExpiry s = .next t) :
    OnlyChanges (mayChange .epochPeriodExpiry) s t := by
  rw [← Host.Outcome.next.inj h]
  apply epochPeriod_frame (OnlyChanges.refl _ s) <;> exact of_decide_eq_true rfl
theorem may_minspExpiry (h : exec .minspExpiry s = .next t) :
    OnlyChanges (mayChange .minspExpiry) s t := by
  rw [← Host.Outcome.next.inj h]
  repeat' first
    | with_reducible exact OnlyChanges.refl _ s
    | with_reducible apply stageRuns_frame
    | with_reducible apply minspExpiry_frame
    | exact of_decide_eq_true rfl
    | (with_reducible apply frame_ite)
    | intro _
    | split
    | assumption
theorem may_cutoverDone (h : exec .cutoverDone s = .next t) :
    OnlyChanges (mayChange .cutoverDone) s t := by
  rw [← Host.Outcome.next.inj h]
  apply cutoverDone_frame (OnlyChanges.refl _ s) <;> exact of_decide_eq_true rfl
theorem may_rootCommitDone (h : exec .rootCommitDone s = .next t) :
    OnlyChanges (mayChange .rootCommitDone) s t := by
  rw [← Host.Outcome.next.inj h]
  apply rootCommitted_frame (OnlyChanges.refl _ s) <;> exact of_decide_eq_true rfl
theorem may_packingFillwaitExpiry (x0 : Nat) (h : exec (.packingFillwaitExpiry x0) s = .next t) :
    OnlyChanges (mayChange (.packingFillwaitExpiry x0)) s t := by
  rw [← Host.Outcome.next.inj h]
  apply fillwait_frame (OnlyChanges.refl _ s) <;> exact of_decide_eq_true rfl
theorem may_bundleWaitEnd (h : exec .bundleWaitEnd s = .next t) :
    OnlyChanges (mayChange .bundleWaitEnd) s t := by
  rw [← Host.Outcome.next.inj h]
  apply bundleWaitEnd_frame (OnlyChanges.refl _ s) <;> exact of_decide_eq_true rfl
theorem may_deallocBundleTimeout (x0 : Nat) (h : exec (.deallocBundleTimeout x0) s = .next t) :
    OnlyChanges (mayChange (.deallocBundleTimeout x0)) s t := by
  rw [← Host.Outcome.next.inj h]
  apply deallocTimeout_frame (OnlyChanges.refl _ s) <;> exact of_decide_eq_true rfl
theorem may_heatHalving (h : exec .heatHalving s = .next t) :
    OnlyChanges (mayChange .heatHalving) s t := by
  rw [← Host.Outcome.next.inj h]
  apply heatHalving_frame (OnlyChanges.refl _ s) <;> exact of_decide_eq_true rfl
theorem may_lifeClockTick (h : exec .lifeClockTick s = .next t) :
    OnlyChanges (mayChange .lifeClockTick) s t := by
  rw [← Host.Outcome.next.inj h]
  apply lifeTick_frame (OnlyChanges.refl _ s) <;> exact of_decide_eq_true rfl
theorem may_victimScanDone (h : exec .victimScanDone s = .next t) :
    OnlyChanges (mayChange .victimScanDone) s t := by
  rw [← Host.Outcome.next.inj h]
  apply victimScanDone_frame (OnlyChanges.refl _ s) <;> exact of_decide_eq_true rfl
theorem may_jobDone (x0 : Nat) (h : exec (.jobDone x0) s = .next t) :
    OnlyChanges (mayChange (.jobDone x0)) s t := by
  rw [← Host.Outcome.next.inj h]
  apply jobDone_frame (OnlyChanges.refl _ s) <;> exact of_decide_eq_true rfl
theorem may_eraseComplete (x0 x1 : Nat) (x2 : DieOutcome) (h : exec (.eraseComplete x0 x1 x2) s = .next t) :
    OnlyChanges (mayChange (.eraseComplete x0 x1 x2)) s t := by
  rw [← Host.Outcome.next.inj h]
  repeat' first
    | with_reducible exact OnlyChanges.refl _ s
    | with_reducible apply eraseComplete_frame
    | exact of_decide_eq_true rfl
    | (with_reducible apply frame_ite)
    | intro _
    | split
    | assumption
theorem may_refreshRelocation (h : exec .refreshRelocation s = .next t) :
    OnlyChanges (mayChange .refreshRelocation) s t := by
  rw [← Host.Outcome.next.inj h]
  repeat' first
    | with_reducible exact OnlyChanges.refl _ s
    | with_reducible apply readsOver_frame
    | with_reducible apply refreshRelocation_frame
    | exact of_decide_eq_true rfl
    | (with_reducible apply frame_ite)
    | intro _
    | split
    | assumption
theorem may_channelSweepDone (x0 : Fin 32) (h : exec (.channelSweepDone x0) s = .next t) :
    OnlyChanges (mayChange (.channelSweepDone x0)) s t := by
  rw [← Host.Outcome.next.inj h]
  apply channelSweepDone_frame (OnlyChanges.refl _ s) <;> exact of_decide_eq_true rfl
theorem may_mapRecountDone (h : exec .mapRecountDone s = .next t) :
    OnlyChanges (mayChange .mapRecountDone) s t := by
  rw [← Host.Outcome.next.inj h]
  apply recountEnd_frame (OnlyChanges.refl _ s) <;> exact of_decide_eq_true rfl
theorem may_zeroFillDone (h : exec .zeroFillDone s = .next t) :
    OnlyChanges (mayChange .zeroFillDone) s t := by
  rw [← Host.Outcome.next.inj h]
  apply fillDoneAll_frame (OnlyChanges.refl _ s) <;> exact of_decide_eq_true rfl
theorem may_mergeAgeFlush (x0 : Nat) (x1 : UnitRead) (x2 : BitVec 512) (h : exec (.mergeAgeFlush x0 x1 x2) s = .next t) :
    OnlyChanges (mayChange (.mergeAgeFlush x0 x1 x2)) s t := by
  rw [← Host.Outcome.next.inj h]
  apply mergeAge_frame (OnlyChanges.refl _ s) <;> exact of_decide_eq_true rfl
theorem may_segmentRebuildDone (x0 : Nat) (x1 : Bool) (h : exec (.segmentRebuildDone x0 x1) s = .next t) :
    OnlyChanges (mayChange (.segmentRebuildDone x0 x1)) s t := by
  rw [← Host.Outcome.next.inj h]
  apply segmentDone_frame (OnlyChanges.refl _ s) <;> exact of_decide_eq_true rfl
theorem may_scrubDone (x0 : List (Nat × UnitRead)) (h : exec (.scrubDone x0) s = .next t) :
    OnlyChanges (mayChange (.scrubDone x0)) s t := by
  rw [← Host.Outcome.next.inj h]
  apply scrubDone_frame (OnlyChanges.refl _ s) <;> exact of_decide_eq_true rfl
theorem may_jramLineSwitch (x0 x1 : Nat) (h : exec (.jramLineSwitch x0 x1) s = .next t) :
    OnlyChanges (mayChange (.jramLineSwitch x0 x1)) s t := by
  rw [← Host.Outcome.next.inj h]
  apply lineSwitch_frame (OnlyChanges.refl _ s) <;> exact of_decide_eq_true rfl
theorem may_patrolReadDone (x0 x1 x2 x3 x4 x5 : Nat) (x6 : List Nat) (h : exec (.patrolReadDone x0 x1 x2 x3 x4 x5 x6) s = .next t) :
    OnlyChanges (mayChange (.patrolReadDone x0 x1 x2 x3 x4 x5 x6)) s t := by
  rw [← Host.Outcome.next.inj h]
  repeat' first
    | with_reducible exact OnlyChanges.refl _ s
    | with_reducible apply patrolReadDone_frame
    | exact of_decide_eq_true rfl
    | (with_reducible apply frame_ite)
    | intro _
    | split
    | assumption
theorem may_patrolRescan (h : exec .patrolRescan s = .next t) :
    OnlyChanges (mayChange .patrolRescan) s t := by
  rw [← Host.Outcome.next.inj h]
  apply rescan_frame (OnlyChanges.refl _ s) <;> exact of_decide_eq_true rfl
theorem may_patrolTageTick (h : exec .patrolTageTick s = .next t) :
    OnlyChanges (mayChange .patrolTageTick) s t := by
  rw [← Host.Outcome.next.inj h]
  apply tageTick_frame (OnlyChanges.refl _ s) <;> exact of_decide_eq_true rfl
theorem may_patrolFloorPace (h : exec .patrolFloorPace s = .next t) :
    OnlyChanges (mayChange .patrolFloorPace) s t := by
  rw [← Host.Outcome.next.inj h]
  apply floorPace_frame (OnlyChanges.refl _ s) <;> exact of_decide_eq_true rfl
theorem may_ownerSearchDone (h : exec .ownerSearchDone s = .next t) :
    OnlyChanges (mayChange .ownerSearchDone) s t := by
  rw [← Host.Outcome.next.inj h]
  apply ownerSearchDone_frame (OnlyChanges.refl _ s) <;> exact of_decide_eq_true rfl
theorem may_ccEnSet (x0 : Port) (x1 : CcFields) (x2 : Aqa) (h : exec (.ccEnSet x0 x1 x2) s = .next t) :
    OnlyChanges (mayChange (.ccEnSet x0 x1 x2)) s t := by
  rw [← Host.Outcome.next.inj h]
  apply enableController_frame (OnlyChanges.refl _ s) <;> exact of_decide_eq_true rfl
theorem may_ccEnClear (x0 : Port) (h : exec (.ccEnClear x0) s = .next t) :
    OnlyChanges (mayChange (.ccEnClear x0)) s t := by
  rw [← Host.Outcome.next.inj h]
  apply disableController_frame (OnlyChanges.refl _ s) <;> exact of_decide_eq_true rfl
theorem may_shutdownNormal (x0 : Port) (h : exec (.shutdownNormal x0) s = .next t) :
    OnlyChanges (mayChange (.shutdownNormal x0)) s t := by
  rw [← Host.Outcome.next.inj h]
  apply shutdownOrderly_frame (OnlyChanges.refl _ s) <;> exact of_decide_eq_true rfl
theorem may_shutdownAbrupt (x0 : Port) (h : exec (.shutdownAbrupt x0) s = .next t) :
    OnlyChanges (mayChange (.shutdownAbrupt x0)) s t := by
  rw [← Host.Outcome.next.inj h]
  apply shutdownAtOnce_frame (OnlyChanges.refl _ s) <;> exact of_decide_eq_true rfl
theorem may_functionLevelReset (x0 : Port) (h : exec (.functionLevelReset x0) s = .next t) :
    OnlyChanges (mayChange (.functionLevelReset x0)) s t := by
  rw [← Host.Outcome.next.inj h]
  apply flr_frame (OnlyChanges.refl _ s) <;> exact of_decide_eq_true rfl
theorem may_hotResetOrPerst (x0 : Port) (x1 : Bool) (h : exec (.hotResetOrPerst x0 x1) s = .next t) :
    OnlyChanges (mayChange (.hotResetOrPerst x0 x1)) s t := by
  rw [← Host.Outcome.next.inj h]
  apply conventionalReset_frame (OnlyChanges.refl _ s) <;> exact of_decide_eq_true rfl
theorem may_linkDown (x0 : Port) (h : exec (.linkDown x0) s = .next t) :
    OnlyChanges (mayChange (.linkDown x0)) s t := by
  rw [← Host.Outcome.next.inj h]
  apply linkLost_frame (OnlyChanges.refl _ s) <;> exact of_decide_eq_true rfl
theorem may_linkUp (x0 : Port) (x1 x2 : Nat) (x3 : Bool) (h : exec (.linkUp x0 x1 x2 x3) s = .next t) :
    OnlyChanges (mayChange (.linkUp x0 x1 x2 x3)) s t := by
  rw [← Host.Outcome.next.inj h]
  apply linkTrained_frame (OnlyChanges.refl _ s) <;> exact of_decide_eq_true rfl
theorem may_drainComplete (x0 : Port) (h : exec (.drainComplete x0) s = .next t) :
    OnlyChanges (mayChange (.drainComplete x0)) s t := by
  rw [← Host.Outcome.next.inj h]
  apply drainEnd_frame (OnlyChanges.refl _ s) <;> exact of_decide_eq_true rfl
theorem may_ltrSend (x0 : Port) (x1 : Nat) (h : exec (.ltrSend x0 x1) s = .next t) :
    OnlyChanges (mayChange (.ltrSend x0 x1)) s t := by
  rw [← Host.Outcome.next.inj h]
  apply ltrMessage_frame (OnlyChanges.refl _ s) <;> exact of_decide_eq_true rfl
theorem may_perstNDeassert (x0 : Port) (h : exec (.perstNDeassert x0) s = .next t) :
    OnlyChanges (mayChange (.perstNDeassert x0)) s t := by
  rw [← Host.Outcome.next.inj h]
  apply perstOff_frame (OnlyChanges.refl _ s) <;> exact of_decide_eq_true rfl
theorem may_configurationRequest (x0 : Port) (x1 : CfgReq) (h : exec (.configurationRequest x0 x1) s = .next t) :
    OnlyChanges (mayChange (.configurationRequest x0 x1)) s t := by
  rw [← Host.Outcome.next.inj h]
  apply configAccess_frame (OnlyChanges.refl _ s) <;> exact of_decide_eq_true rfl
theorem may_msixTableWrite (x0 : Port) (x1 : Nat) (x2 : Bool) (x3 x4 : Nat) (h : exec (.msixTableWrite x0 x1 x2 x3 x4) s = .next t) :
    OnlyChanges (mayChange (.msixTableWrite x0 x1 x2 x3 x4)) s t := by
  rw [← Host.Outcome.next.inj h]
  apply msixWrite_frame (OnlyChanges.refl _ s) <;> exact of_decide_eq_true rfl
theorem may_interruptCoalescingExpiry (x0 : Port) (x1 : Nat) (h : exec (.interruptCoalescingExpiry x0 x1) s = .next t) :
    OnlyChanges (mayChange (.interruptCoalescingExpiry x0 x1)) s t := by
  rw [← Host.Outcome.next.inj h]
  apply coalExpiry_frame (OnlyChanges.refl _ s) <;> exact of_decide_eq_true rfl
theorem may_pcieUncorrectableError (x0 : Port) (x1 : Option Nat) (h : exec (.pcieUncorrectableError x0 x1) s = .next t) :
    OnlyChanges (mayChange (.pcieUncorrectableError x0 x1)) s t := by
  rw [← Host.Outcome.next.inj h]
  apply pcieError_frame (OnlyChanges.refl _ s) <;> exact of_decide_eq_true rfl
theorem may_sqTailDoorbell (x0 : Port) (x1 x2 : Nat) (h : exec (.sqTailDoorbell x0 x1 x2) s = .next t) :
    OnlyChanges (mayChange (.sqTailDoorbell x0 x1 x2)) s t := by
  rw [← Host.Outcome.next.inj h]
  apply sqDoorbell_frame (OnlyChanges.refl _ s) <;> exact of_decide_eq_true rfl
theorem may_cqHeadDoorbell (x0 : Port) (x1 x2 : Nat) (h : exec (.cqHeadDoorbell x0 x1 x2) s = .next t) :
    OnlyChanges (mayChange (.cqHeadDoorbell x0 x1 x2)) s t := by
  rw [← Host.Outcome.next.inj h]
  apply cqDoorbell_frame (OnlyChanges.refl _ s) <;> exact of_decide_eq_true rfl
theorem may_trackedCommandAccept (h : exec .trackedCommandAccept s = .next t) :
    OnlyChanges (mayChange .trackedCommandAccept) s t := by
  rw [← Host.Outcome.next.inj h]
  apply acceptWaiting_frame (OnlyChanges.refl _ s) <;> exact of_decide_eq_true rfl
theorem may_unsupportedOpcode (x0 : Sqe) (x1 : Nat) (x2 : Bool) (h : exec (.unsupportedOpcode x0 x1 x2) s = .next t) :
    OnlyChanges (mayChange (.unsupportedOpcode x0 x1 x2)) s t := by
  rw [← Host.Outcome.next.inj h]
  apply unsupported_frame (OnlyChanges.refl _ s) <;> exact of_decide_eq_true rfl
theorem may_flush (x0 : Sqe) (h : exec (.flush x0) s = .next t) :
    OnlyChanges (mayChange (.flush x0)) s t := by
  rw [← Host.Outcome.next.inj h]
  apply flushCmd_frame (OnlyChanges.refl _ s) <;> exact of_decide_eq_true rfl
theorem may_write (x0 : Sqe) (x1 : IoFields) (x2 : Nat) (h : exec (.write x0 x1 x2) s = .next t) :
    OnlyChanges (mayChange (.write x0 x1 x2)) s t := by
  rw [← Host.Outcome.next.inj h]
  apply writeCmd_frame (OnlyChanges.refl _ s) <;> exact of_decide_eq_true rfl
theorem may_read (x0 : Sqe) (x1 : IoFields) (x2 : Bool) (h : exec (.read x0 x1 x2) s = .next t) :
    OnlyChanges (mayChange (.read x0 x1 x2)) s t := by
  rw [← Host.Outcome.next.inj h]
  repeat' first
    | with_reducible exact OnlyChanges.refl _ s
    | with_reducible apply fetchIo_frame
    | exact of_decide_eq_true rfl
    | (with_reducible apply frame_ite)
    | intro _
    | split
    | assumption
theorem may_compare (x0 : Sqe) (x1 : IoFields) (x2 : List HostBlock) (h : exec (.compare x0 x1 x2) s = .next t) :
    OnlyChanges (mayChange (.compare x0 x1 x2)) s t := by
  rw [← Host.Outcome.next.inj h]
  repeat' first
    | with_reducible exact OnlyChanges.refl _ s
    | with_reducible apply fetchIo_frame
    | exact of_decide_eq_true rfl
    | (with_reducible apply frame_ite)
    | intro _
    | split
    | assumption
theorem may_writeZeroes (x0 : Sqe) (x1 : IoFields) (x2 : Bool) (h : exec (.writeZeroes x0 x1 x2) s = .next t) :
    OnlyChanges (mayChange (.writeZeroes x0 x1 x2)) s t := by
  rw [← Host.Outcome.next.inj h]
  repeat' first
    | with_reducible exact OnlyChanges.refl _ s
    | with_reducible apply fetchIo_frame
    | exact of_decide_eq_true rfl
    | (with_reducible apply frame_ite)
    | intro _
    | split
    | assumption
theorem may_datasetManagement (x0 : Sqe) (x1 : List LetterRange) (x2 : Bool) (h : exec (.datasetManagement x0 x1 x2) s = .next t) :
    OnlyChanges (mayChange (.datasetManagement x0 x1 x2)) s t := by
  rw [← Host.Outcome.next.inj h]
  apply dsmCmd_frame (OnlyChanges.refl _ s) <;> exact of_decide_eq_true rfl
theorem may_verify (x0 : Sqe) (x1 : IoFields) (h : exec (.verify x0 x1) s = .next t) :
    OnlyChanges (mayChange (.verify x0 x1)) s t := by
  rw [← Host.Outcome.next.inj h]
  repeat' first
    | with_reducible exact OnlyChanges.refl _ s
    | with_reducible apply fetchIo_frame
    | exact of_decide_eq_true rfl
    | (with_reducible apply frame_ite)
    | intro _
    | split
    | assumption
theorem may_writeDataTransferDone (x0 : Nat) (x1 : List HostBlock) (x2 x3 : Bool) (h : exec (.writeDataTransferDone x0 x1 x2 x3) s = .next t) :
    OnlyChanges (mayChange (.writeDataTransferDone x0 x1 x2 x3)) s t := by
  rw [← Host.Outcome.next.inj h]
  apply writeData_frame (OnlyChanges.refl _ s) <;> exact of_decide_eq_true rfl
theorem may_commandRelease (x0 : Nat) (x1 : List LineReq) (h : exec (.commandRelease x0 x1) s = .next t) :
    OnlyChanges (mayChange (.commandRelease x0 x1)) s t := by
  rw [← Host.Outcome.next.inj h]
  apply release_frame (OnlyChanges.refl _ s) <;> exact of_decide_eq_true rfl
theorem may_journalBatchStart (h : exec .journalBatchStart s = .next t) :
    OnlyChanges (mayChange .journalBatchStart) s t := by
  rw [← Host.Outcome.next.inj h]
  apply batchStart_frame (OnlyChanges.refl _ s) <;> exact of_decide_eq_true rfl
theorem may_commitAck (x0 : List LineReq) (h : exec (.commitAck x0) s = .next t) :
    OnlyChanges (mayChange (.commitAck x0)) s t := by
  rw [← Host.Outcome.next.inj h]
  apply commitEnded_frame (OnlyChanges.refl _ s) <;> exact of_decide_eq_true rfl
theorem may_trackerFault (h : exec .trackerFault s = .next t) :
    OnlyChanges (mayChange .trackerFault) s t := by
  rw [← Host.Outcome.next.inj h]
  apply trackerFault_frame (OnlyChanges.refl _ s) <;> exact of_decide_eq_true rfl
theorem may_trackerReinit (h : exec .trackerReinit s = .next t) :
    OnlyChanges (mayChange .trackerReinit) s t := by
  rw [← Host.Outcome.next.inj h]
  apply trackerReinit_frame (OnlyChanges.refl _ s) <;> exact of_decide_eq_true rfl
theorem may_waitlimExceeded (x0 : Nat) (h : exec (.waitlimExceeded x0) s = .next t) :
    OnlyChanges (mayChange (.waitlimExceeded x0)) s t := by
  rw [← Host.Outcome.next.inj h]
  apply waitlim_frame (OnlyChanges.refl _ s) <;> exact of_decide_eq_true rfl
theorem may_abort (x0 : Sqe) (x1 x2 : Nat) (h : exec (.abort x0 x1 x2) s = .next t) :
    OnlyChanges (mayChange (.abort x0 x1 x2)) s t := by
  rw [← Host.Outcome.next.inj h]
  apply abortCmd_frame (OnlyChanges.refl _ s) <;> exact of_decide_eq_true rfl
theorem may_recorderEntryWritten (x0 : Nat) (x1 : Bool) (h : exec (.recorderEntryWritten x0 x1) s = .next t) :
    OnlyChanges (mayChange (.recorderEntryWritten x0 x1)) s t := by
  rw [← Host.Outcome.next.inj h]
  apply entryWritten_frame (OnlyChanges.refl _ s) <;> exact of_decide_eq_true rfl
theorem may_recorderScanDone (h : exec .recorderScanDone s = .next t) :
    OnlyChanges (mayChange .recorderScanDone) s t := by
  rw [← Host.Outcome.next.inj h]
  apply scanDone_frame (OnlyChanges.refl _ s) <;> exact of_decide_eq_true rfl
theorem may_flashonlyBufferFlush (h : exec .flashonlyBufferFlush s = .next t) :
    OnlyChanges (mayChange .flashonlyBufferFlush) s t := by
  rw [← Host.Outcome.next.inj h]
  apply flashFlush_frame (OnlyChanges.refl _ s) <;> exact of_decide_eq_true rfl
theorem may_recorderPaceRefill (h : exec .recorderPaceRefill s = .next t) :
    OnlyChanges (mayChange .recorderPaceRefill) s t := by
  rw [← Host.Outcome.next.inj h]
  apply paceRefill_frame (OnlyChanges.refl _ s) <;> exact of_decide_eq_true rfl
theorem may_disableSequenceDone (x0 : Blk) (x1 : Fin 32) (h : exec (.disableSequenceDone x0 x1) s = .next t) :
    OnlyChanges (mayChange (.disableSequenceDone x0 x1)) s t := by
  rw [← Host.Outcome.next.inj h]
  apply disableDone_frame (OnlyChanges.refl _ s) <;> exact of_decide_eq_true rfl
theorem may_holdoffExpiry (x0 : Port) (x1 : Bool) (h : exec (.holdoffExpiry x0 x1) s = .next t) :
    OnlyChanges (mayChange (.holdoffExpiry x0 x1)) s t := by
  rw [← Host.Outcome.next.inj h]
  repeat' first
    | with_reducible exact OnlyChanges.refl _ s
    | with_reducible apply holdoffEnd_frame
    | exact of_decide_eq_true rfl
    | (with_reducible apply frame_ite)
    | intro _
    | split
    | assumption
theorem may_timerFire (x0 : Fin 14) (h : exec (.timerFire x0) s = .next t) :
    OnlyChanges (mayChange (.timerFire x0)) s t := by
  rw [← Host.Outcome.next.inj h]
  apply timerFire_frame (OnlyChanges.refl _ s) <;> exact of_decide_eq_true rfl
theorem may_watchdogExpiry (x0 : Fin 10) (h : exec (.watchdogExpiry x0) s = .next t) :
    OnlyChanges (mayChange (.watchdogExpiry x0)) s t := by
  rw [← Host.Outcome.next.inj h]
  apply watchdog_frame (OnlyChanges.refl _ s) <;> exact of_decide_eq_true rfl
theorem may_faultyRegisterRead (x0 : Initiator) (x1 x2 : Nat) (h : exec (.faultyRegisterRead x0 x1 x2) s = .next t) :
    OnlyChanges (mayChange (.faultyRegisterRead x0 x1 x2)) s t := by
  rw [← Host.Outcome.next.inj h]
  apply readAccess_frame (OnlyChanges.refl _ s) <;> exact of_decide_eq_true rfl
theorem may_ringLinkUp (x0 : RingPort) (x1 : Bool) (h : exec (.ringLinkUp x0 x1) s = .next t) :
    OnlyChanges (mayChange (.ringLinkUp x0 x1)) s t := by
  rw [← Host.Outcome.next.inj h]
  apply linkUpRing_frame (OnlyChanges.refl _ s) <;> exact of_decide_eq_true rfl
theorem may_ringLinkDown (x0 : RingPort) (h : exec (.ringLinkDown x0) s = .next t) :
    OnlyChanges (mayChange (.ringLinkDown x0)) s t := by
  rw [← Host.Outcome.next.inj h]
  apply linkDownRing_frame (OnlyChanges.refl _ s) <;> exact of_decide_eq_true rfl
theorem may_link (x0 : DispHdr) (x1 x2 x3 x4 : Nat) (h : exec (.link x0 x1 x2 x3 x4) s = .next t) :
    OnlyChanges (mayChange (.link x0 x1 x2 x3 x4)) s t := by
  rw [← Host.Outcome.next.inj h]
  apply linkRecv_frame (OnlyChanges.refl _ s) <;> exact of_decide_eq_true rfl
theorem may_beacon (x0 : DispHdr) (x1 x2 x3 x4 x5 x6 x7 x8 : Nat) (x9 : Bool) (h : exec (.beacon x0 x1 x2 x3 x4 x5 x6 x7 x8 x9) s = .next t) :
    OnlyChanges (mayChange (.beacon x0 x1 x2 x3 x4 x5 x6 x7 x8 x9)) s t := by
  rw [← Host.Outcome.next.inj h]
  apply beaconRecv_frame (OnlyChanges.refl _ s) <;> exact of_decide_eq_true rfl
theorem may_syncReq (x0 : DispHdr) (x1 : Nat) (h : exec (.syncReq x0 x1) s = .next t) :
    OnlyChanges (mayChange (.syncReq x0 x1)) s t := by
  rw [← Host.Outcome.next.inj h]
  apply syncReq_frame (OnlyChanges.refl _ s) <;> exact of_decide_eq_true rfl
theorem may_syncRsp (x0 : DispHdr) (x1 x2 x3 x4 : Nat) (h : exec (.syncRsp x0 x1 x2 x3 x4) s = .next t) :
    OnlyChanges (mayChange (.syncRsp x0 x1 x2 x3 x4)) s t := by
  rw [← Host.Outcome.next.inj h]
  apply syncRsp_frame (OnlyChanges.refl _ s) <;> exact of_decide_eq_true rfl
theorem may_enum (x0 : DispHdr) (x1 x2 x3 x4 : Nat) (h : exec (.enum x0 x1 x2 x3 x4) s = .next t) :
    OnlyChanges (mayChange (.enum x0 x1 x2 x3 x4)) s t := by
  rw [← Host.Outcome.next.inj h]
  apply enumRecv_frame (OnlyChanges.refl _ s) <;> exact of_decide_eq_true rfl
theorem may_enumend (x0 : DispHdr) (x1 x2 x3 x4 : Nat) (h : exec (.enumend x0 x1 x2 x3 x4) s = .next t) :
    OnlyChanges (mayChange (.enumend x0 x1 x2 x3 x4)) s t := by
  rw [← Host.Outcome.next.inj h]
  apply enumEnd_frame (OnlyChanges.refl _ s) <;> exact of_decide_eq_true rfl
theorem may_groupstate (x0 : DispHdr) (x1 : Bool) (x2 x3 x4 x5 x6 : Nat) (h : exec (.groupstate x0 x1 x2 x3 x4 x5 x6) s = .next t) :
    OnlyChanges (mayChange (.groupstate x0 x1 x2 x3 x4 x5 x6)) s t := by
  rw [← Host.Outcome.next.inj h]
  apply groupstate_frame (OnlyChanges.refl _ s) <;> exact of_decide_eq_true rfl
theorem may_join (x0 : DispHdr) (x1 : Nat) (h : exec (.join x0 x1) s = .next t) :
    OnlyChanges (mayChange (.join x0 x1)) s t := by
  rw [← Host.Outcome.next.inj h]
  apply joinRecv_frame (OnlyChanges.refl _ s) <;> exact of_decide_eq_true rfl
theorem may_ringAdmit (x0 : DispHdr) (x1 x2 x3 x4 : Nat) (h : exec (.ringAdmit x0 x1 x2 x3 x4) s = .next t) :
    OnlyChanges (mayChange (.ringAdmit x0 x1 x2 x3 x4)) s t := by
  rw [← Host.Outcome.next.inj h]
  apply admitRecv_frame (OnlyChanges.refl _ s) <;> exact of_decide_eq_true rfl
theorem may_role (x0 : DispHdr) (x1 x2 : Nat) (h : exec (.role x0 x1 x2) s = .next t) :
    OnlyChanges (mayChange (.role x0 x1 x2)) s t := by
  rw [← Host.Outcome.next.inj h]
  apply roleRecv_frame (OnlyChanges.refl _ s) <;> exact of_decide_eq_true rfl
theorem may_sched (x0 : DispHdr) (x1 : Bool) (x2 x3 : Nat) (x4 : BitVec 384) (h : exec (.sched x0 x1 x2 x3 x4) s = .next t) :
    OnlyChanges (mayChange (.sched x0 x1 x2 x3 x4)) s t := by
  rw [← Host.Outcome.next.inj h]
  apply schedRecv_frame (OnlyChanges.refl _ s) <;> exact of_decide_eq_true rfl
theorem may_ack (x0 : DispHdr) (x1 x2 : Nat) (h : exec (.ack x0 x1 x2) s = .next t) :
    OnlyChanges (mayChange (.ack x0 x1 x2)) s t := by
  rw [← Host.Outcome.next.inj h]
  apply ackRecv_frame (OnlyChanges.refl _ s) <;> exact of_decide_eq_true rfl
theorem may_act (x0 : DispHdr) (x1 x2 x3 : Nat) (h : exec (.act x0 x1 x2 x3) s = .next t) :
    OnlyChanges (mayChange (.act x0 x1 x2 x3)) s t := by
  rw [← Host.Outcome.next.inj h]
  apply actRecv_frame (OnlyChanges.refl _ s) <;> exact of_decide_eq_true rfl
theorem may_relOffer (x0 : DispHdr) (x1 x2 : Nat) (h : exec (.relOffer x0 x1 x2) s = .next t) :
    OnlyChanges (mayChange (.relOffer x0 x1 x2)) s t := by
  rw [← Host.Outcome.next.inj h]
  apply relOfferHeld_frame (OnlyChanges.refl _ s) <;> exact of_decide_eq_true rfl
theorem may_relData (x0 : DispHdr) (x1 : Nat) (x2 : List Byte) (h : exec (.relData x0 x1 x2) s = .next t) :
    OnlyChanges (mayChange (.relData x0 x1 x2)) s t := by
  rw [← Host.Outcome.next.inj h]
  apply relDataVerify_frame (OnlyChanges.refl _ s) <;> exact of_decide_eq_true rfl
theorem may_relAck (x0 : DispHdr) (x1 : Nat) (h : exec (.relAck x0 x1) s = .next t) :
    OnlyChanges (mayChange (.relAck x0 x1)) s t := by
  rw [← Host.Outcome.next.inj h]
  apply relAck_frame (OnlyChanges.refl _ s) <;> exact of_decide_eq_true rfl
theorem may_relHave (x0 : DispHdr) (x1 : Nat) (h : exec (.relHave x0 x1) s = .next t) :
    OnlyChanges (mayChange (.relHave x0 x1)) s t := by
  rw [← Host.Outcome.next.inj h]
  apply relHave_frame (OnlyChanges.refl _ s) <;> exact of_decide_eq_true rfl
theorem may_ringFirmwareDispatch (x0 : DispHdr) (x1 : Nat) (x2 : List Byte) (h : exec (.ringFirmwareDispatch x0 x1 x2) s = .next t) :
    OnlyChanges (mayChange (.ringFirmwareDispatch x0 x1 x2)) s t := by
  rw [← Host.Outcome.next.inj h]
  apply fwDispatch_frame (OnlyChanges.refl _ s) <;> exact of_decide_eq_true rfl
theorem may_beaconSend (h : exec .beaconSend s = .next t) :
    OnlyChanges (mayChange .beaconSend) s t := by
  rw [← Host.Outcome.next.inj h]
  apply beaconSend_frame (OnlyChanges.refl _ s) <;> exact of_decide_eq_true rfl
theorem may_reachExpiry (x0 : Nat) (h : exec (.reachExpiry x0) s = .next t) :
    OnlyChanges (mayChange (.reachExpiry x0)) s t := by
  rw [← Host.Outcome.next.inj h]
  apply reachExpiry_frame (OnlyChanges.refl _ s) <;> exact of_decide_eq_true rfl
theorem may_isolatedEntry (h : exec .isolatedEntry s = .next t) :
    OnlyChanges (mayChange .isolatedEntry) s t := by
  rw [← Host.Outcome.next.inj h]
  apply isolatedEntry_frame (OnlyChanges.refl _ s) <;> exact of_decide_eq_true rfl
theorem may_rejoin (h : exec .rejoin s = .next t) :
    OnlyChanges (mayChange .rejoin) s t := by
  rw [← Host.Outcome.next.inj h]
  apply rejoin_frame (OnlyChanges.refl _ s) <;> exact of_decide_eq_true rfl
theorem may_isolatedAddressDrop (h : exec .isolatedAddressDrop s = .next t) :
    OnlyChanges (mayChange .isolatedAddressDrop) s t := by
  rw [← Host.Outcome.next.inj h]
  apply addressDrop_frame (OnlyChanges.refl _ s) <;> exact of_decide_eq_true rfl
theorem may_enumStart (h : exec .enumStart s = .next t) :
    OnlyChanges (mayChange .enumStart) s t := by
  rw [← Host.Outcome.next.inj h]
  apply enumStart_frame (OnlyChanges.refl _ s) <;> exact of_decide_eq_true rfl
theorem may_enumTimeout (h : exec .enumTimeout s = .next t) :
    OnlyChanges (mayChange .enumTimeout) s t := by
  rw [← Host.Outcome.next.inj h]
  apply enumTimeout_frame (OnlyChanges.refl _ s) <;> exact of_decide_eq_true rfl
theorem may_joinSend (h : exec .joinSend s = .next t) :
    OnlyChanges (mayChange .joinSend) s t := by
  rw [← Host.Outcome.next.inj h]
  apply joinSend_frame (OnlyChanges.refl _ s) <;> exact of_decide_eq_true rfl
theorem may_postmasterTakeover (h : exec .postmasterTakeover s = .next t) :
    OnlyChanges (mayChange .postmasterTakeover) s t := by
  rw [← Host.Outcome.next.inj h]
  apply takeover_frame (OnlyChanges.refl _ s) <;> exact of_decide_eq_true rfl
theorem may_dispatchRepeat (x0 : Nat) (h : exec (.dispatchRepeat x0) s = .next t) :
    OnlyChanges (mayChange (.dispatchRepeat x0)) s t := by
  rw [← Host.Outcome.next.inj h]
  apply dispatchRepeat_frame (OnlyChanges.refl _ s) <;> exact of_decide_eq_true rfl
theorem may_groupstateRequest (h : exec .groupstateRequest s = .next t) :
    OnlyChanges (mayChange .groupstateRequest) s t := by
  rw [← Host.Outcome.next.inj h]
  apply gsRequest_frame (OnlyChanges.refl _ s) <;> exact of_decide_eq_true rfl
theorem may_syncReqSend (h : exec .syncReqSend s = .next t) :
    OnlyChanges (mayChange .syncReqSend) s t := by
  rw [← Host.Outcome.next.inj h]
  apply syncSend_frame (OnlyChanges.refl _ s) <;> exact of_decide_eq_true rfl
theorem may_slewDone (h : exec .slewDone s = .next t) :
    OnlyChanges (mayChange .slewDone) s t := by
  rw [← Host.Outcome.next.inj h]
  apply slewDone_frame (OnlyChanges.refl _ s) <;> exact of_decide_eq_true rfl
theorem may_scheduleEffective (h : exec .scheduleEffective s = .next t) :
    OnlyChanges (mayChange .scheduleEffective) s t := by
  rw [← Host.Outcome.next.inj h]
  apply schedEffective_frame (OnlyChanges.refl _ s) <;> exact of_decide_eq_true rfl
theorem may_windowBoundary (h : exec .windowBoundary s = .next t) :
    OnlyChanges (mayChange .windowBoundary) s t := by
  rw [← Host.Outcome.next.inj h]
  apply windowBoundary_frame (OnlyChanges.refl _ s) <;> exact of_decide_eq_true rfl
theorem may_groupEpochTick (h : exec .groupEpochTick s = .next t) :
    OnlyChanges (mayChange .groupEpochTick) s t := by
  rw [← Host.Outcome.next.inj h]
  apply groupTick_frame (OnlyChanges.refl _ s) <;> exact of_decide_eq_true rfl
theorem may_staggeredWakeEnd (h : exec .staggeredWakeEnd s = .next t) :
    OnlyChanges (mayChange .staggeredWakeEnd) s t := by
  rw [← Host.Outcome.next.inj h]
  apply wakeEnd_frame (OnlyChanges.refl _ s) <;> exact of_decide_eq_true rfl
theorem may_relayResend (x0 : RingPort) (h : exec (.relayResend x0) s = .next t) :
    OnlyChanges (mayChange (.relayResend x0)) s t := by
  rw [← Host.Outcome.next.inj h]
  apply relayResend_frame (OnlyChanges.refl _ s) <;> exact of_decide_eq_true rfl
theorem may_activationTime (h : exec .activationTime s = .next t) :
    OnlyChanges (mayChange .activationTime) s t := by
  rw [← Host.Outcome.next.inj h]
  apply activationTime_frame (OnlyChanges.refl _ s) <;> exact of_decide_eq_true rfl
theorem may_ringSignalDetect (x0 : RingPort) (h : exec (.ringSignalDetect x0) s = .next t) :
    OnlyChanges (mayChange (.ringSignalDetect x0)) s t := by
  rw [← Host.Outcome.next.inj h]
  apply signalDetect_frame (OnlyChanges.refl _ s) <;> exact of_decide_eq_true rfl
theorem may_holdoverExpiry (h : exec .holdoverExpiry s = .next t) :
    OnlyChanges (mayChange .holdoverExpiry) s t := by
  rw [← Host.Outcome.next.inj h]
  apply holdoverExpiry_frame (OnlyChanges.refl _ s) <;> exact of_decide_eq_true rfl
theorem may_dispatchFrameError (x0 : RingPort) (h : exec (.dispatchFrameError x0) s = .next t) :
    OnlyChanges (mayChange (.dispatchFrameError x0)) s t := by
  rw [← Host.Outcome.next.inj h]
  apply frameError_frame (OnlyChanges.refl _ s) <;> exact of_decide_eq_true rfl
theorem may_reservedDispatchType (x0 : DispHdr) (x1 : Nat) (h : exec (.reservedDispatchType x0 x1) s = .next t) :
    OnlyChanges (mayChange (.reservedDispatchType x0 x1)) s t := by
  rw [← Host.Outcome.next.inj h]
  apply reservedType_frame (OnlyChanges.refl _ s) <;> exact of_decide_eq_true rfl
theorem may_resetNAssert (x0 : Nat) (h : exec (.resetNAssert x0) s = .next t) :
    OnlyChanges (mayChange (.resetNAssert x0)) s t := by
  rw [← Host.Outcome.next.inj h]
  apply resetAssert_frame (OnlyChanges.refl _ s) <;> exact of_decide_eq_true rfl
theorem may_resetRelease (h : exec .resetRelease s = .next t) :
    OnlyChanges (mayChange .resetRelease) s t := by
  rw [← Host.Outcome.next.inj h]
  apply resetRelease_frame (OnlyChanges.refl _ s) <;> exact of_decide_eq_true rfl
theorem may_norOpDone (x0 x1 : Bool) (h : exec (.norOpDone x0 x1) s = .next t) :
    OnlyChanges (mayChange (.norOpDone x0 x1)) s t := by
  rw [← Host.Outcome.next.inj h]
  apply norEnd_frame (OnlyChanges.refl _ s) <;> exact of_decide_eq_true rfl
theorem may_xipFetch (x0 : Initiator) (x1 x2 : Nat) (h : exec (.xipFetch x0 x1 x2) s = .next t) :
    OnlyChanges (mayChange (.xipFetch x0 x1 x2)) s t := by
  rw [← Host.Outcome.next.inj h]
  apply xipFetch_frame (OnlyChanges.refl _ s) <;> exact of_decide_eq_true rfl
theorem may_norEraseResume (h : exec .norEraseResume s = .next t) :
    OnlyChanges (mayChange .norEraseResume) s t := by
  rw [← Host.Outcome.next.inj h]
  apply norResume_frame (OnlyChanges.refl _ s) <;> exact of_decide_eq_true rfl
theorem may_norEraseSuspend (x0 : Nat) (h : exec (.norEraseSuspend x0) s = .next t) :
    OnlyChanges (mayChange (.norEraseSuspend x0)) s t := by
  rw [← Host.Outcome.next.inj h]
  apply norSuspend_frame (OnlyChanges.refl _ s) <;> exact of_decide_eq_true rfl
theorem may_norPageProgramDone (h : exec .norPageProgramDone s = .next t) :
    OnlyChanges (mayChange .norPageProgramDone) s t := by
  rw [← Host.Outcome.next.inj h]
  apply norPageDone_frame (OnlyChanges.refl _ s) <;> exact of_decide_eq_true rfl
theorem may_thermalRound (x0 x1 : List Reading) (x2 : List (Option Nat)) (h : exec (.thermalRound x0 x1 x2) s = .next t) :
    OnlyChanges (mayChange (.thermalRound x0 x1 x2)) s t := by
  rw [← Host.Outcome.next.inj h]
  apply thermalRound_frame (OnlyChanges.refl _ s) <;> exact of_decide_eq_true rfl
theorem may_sensorBroken (x0 : Nat) (h : exec (.sensorBroken x0) s = .next t) :
    OnlyChanges (mayChange (.sensorBroken x0)) s t := by
  rw [← Host.Outcome.next.inj h]
  apply sensorBroken_frame (OnlyChanges.refl _ s) <;> exact of_decide_eq_true rfl
theorem may_extLimit (x0 : Fin 4) (h : exec (.extLimit x0) s = .next t) :
    OnlyChanges (mayChange (.extLimit x0)) s t := by
  rw [← Host.Outcome.next.inj h]
  apply extLimit_frame (OnlyChanges.refl _ s) <;> exact of_decide_eq_true rfl
theorem may_warningChange (h : exec .warningChange s = .next t) :
    OnlyChanges (mayChange .warningChange) s t := by
  rw [← Host.Outcome.next.inj h]
  apply warningChange_frame (OnlyChanges.refl _ s) <;> exact of_decide_eq_true rfl
theorem may_throttleChange (h : exec .throttleChange s = .next t) :
    OnlyChanges (mayChange .throttleChange) s t := by
  rw [← Host.Outcome.next.inj h]
  apply throttleChange_frame (OnlyChanges.refl _ s) <;> exact of_decide_eq_true rfl
theorem may_thermalShutdown (h : exec .thermalShutdown s = .next t) :
    OnlyChanges (mayChange .thermalShutdown) s t := by
  rw [← Host.Outcome.next.inj h]
  apply thermalShutdown_frame (OnlyChanges.refl _ s) <;> exact of_decide_eq_true rfl
theorem may_thermalRestart (h : exec .thermalRestart s = .next t) :
    OnlyChanges (mayChange .thermalRestart) s t := by
  rw [← Host.Outcome.next.inj h]
  apply thermalRestart_frame (OnlyChanges.refl _ s) <;> exact of_decide_eq_true rfl
theorem may_bandChange (h : exec .bandChange s = .next t) :
    OnlyChanges (mayChange .bandChange) s t := by
  rw [← Host.Outcome.next.inj h]
  apply bandTrained_frame (OnlyChanges.refl _ s) <;> exact of_decide_eq_true rfl
theorem may_supplyOutOfWindow (x0 : Fin 12) (h : exec (.supplyOutOfWindow x0) s = .next t) :
    OnlyChanges (mayChange (.supplyOutOfWindow x0)) s t := by
  rw [← Host.Outcome.next.inj h]
  apply supplyOut_frame (OnlyChanges.refl _ s) <;> exact of_decide_eq_true rfl
theorem may_idleTimerExpiry (h : exec .idleTimerExpiry s = .next t) :
    OnlyChanges (mayChange .idleTimerExpiry) s t := by
  rw [← Host.Outcome.next.inj h]
  apply idleTimer_frame (OnlyChanges.refl _ s) <;> exact of_decide_eq_true rfl
theorem may_psEntry (h : exec .psEntry s = .next t) :
    OnlyChanges (mayChange .psEntry) s t := by
  rw [← Host.Outcome.next.inj h]
  apply psEntry_frame (OnlyChanges.refl _ s) <;> exact of_decide_eq_true rfl
theorem may_psExit (h : exec .psExit s = .next t) :
    OnlyChanges (mayChange .psExit) s t := by
  rw [← Host.Outcome.next.inj h]
  apply psExit_frame (OnlyChanges.refl _ s) <;> exact of_decide_eq_true rfl
theorem may_psChangeDeferred (h : exec .psChangeDeferred s = .next t) :
    OnlyChanges (mayChange .psChangeDeferred) s t := by
  rw [← Host.Outcome.next.inj h]
  apply psDeferred_frame (OnlyChanges.refl _ s) <;> exact of_decide_eq_true rfl
theorem may_avfsEvaluation (x0 : Nat) (x1 : List Int) (h : exec (.avfsEvaluation x0 x1) s = .next t) :
    OnlyChanges (mayChange (.avfsEvaluation x0 x1)) s t := by
  rw [← Host.Outcome.next.inj h]
  apply avfsEval_frame (OnlyChanges.refl _ s) <;> exact of_decide_eq_true rfl
theorem may_pwrFailAssert (x0 : Nat) (h : exec (.pwrFailAssert x0) s = .next t) :
    OnlyChanges (mayChange (.pwrFailAssert x0)) s t := by
  rw [← Host.Outcome.next.inj h]
  apply pwrFail_frame (OnlyChanges.refl _ s) <;> exact of_decide_eq_true rfl
theorem may_powerFailRestart (h : exec .powerFailRestart s = .next t) :
    OnlyChanges (mayChange .powerFailRestart) s t := by
  rw [← Host.Outcome.next.inj h]
  apply failRestart_frame (OnlyChanges.refl _ s) <;> exact of_decide_eq_true rfl
theorem may_supplyPowerOn (h : exec .supplyPowerOn s = .next t) :
    OnlyChanges (mayChange .supplyPowerOn) s t := by
  rw [← Host.Outcome.next.inj h]
  apply powerOn_frame (OnlyChanges.refl _ s) <;> exact of_decide_eq_true rfl
theorem may_supplyPowerLoss (h : exec .supplyPowerLoss s = .next t) :
    OnlyChanges (mayChange .supplyPowerLoss) s t := by
  rw [← Host.Outcome.next.inj h]
  apply powerLoss_frame (OnlyChanges.refl _ s) <;> exact of_decide_eq_true rfl

/-! ## Commands that write a register -/

theorem loc_chn (c : Fin 32) (o : Nat) (h : o < 0x4000) : locate (chn c o) = some (.chn, c.val, o) := by
  have := c.isLt
  unfold locate
  rw [if_neg (by unfold chn; omega), if_neg (by unfold chn; omega), if_neg (by unfold chn; omega), if_neg (by unfold chn; omega), if_pos (by unfold chn; omega)]
  rw [show (chn c o - 0x200000) / 0x4000 = c.val by unfold chn; omega, show (chn c o - 0x200000) % 0x4000 = o by unfold chn; omega]
theorem bitOf_setBits_low (v hi x k : Nat) (h : k < hi + 1) : bitOf (setBits v hi 0 x) k = bitOf x k := by simp [bitOf, testBit_setBits, h]
theorem loc_wd (k : Fin 10) : locate (0x101104 + 16 * k.val) = some (.evf, 0, 0x1104 + 16 * k.val) := by revert k; decide
theorem reg_wd (k : Fin 10) : (findReg .evf 0 (0x1104 + 16 * k.val)).map (fun x => x.start) = some (0x1104 + 16 * k.val) := by revert k; decide
theorem may_phcRangeClean (x0 : Initiator) (x1 : Word) (h : exec (.phcRangeClean x0 x1) s = .next t) :
    OnlyChanges (mayChange (.phcRangeClean x0 x1)) s t := by
  rw [← Host.Outcome.next.inj h]
  refine access_frame (b := .phc) (u := 0) (o := 0x30) (by rfl) (by rfl) (by decide) (by rfl)
    (of_decide_eq_true rfl) (of_decide_eq_true rfl) (of_decide_eq_true rfl) (of_decide_eq_true rfl) (of_decide_eq_true rfl) ?_
  intro z v n hv hz
  simp [flashEffect, systemEffect]
  repeat' first
    | with_reducible assumption
    | with_reducible apply rangeStart_frame
    | with_reducible apply setCursor_frame
    | with_reducible apply accessFault_frame
    | with_reducible apply setBank_frame
    | with_reducible apply updPwr_frame
    | with_reducible apply courierReset_frame
    | with_reducible apply scrubStopReq_frame
    | with_reducible apply raise_frame
    | with_reducible apply handoverSwitch_frame
    | with_reducible apply orReg_frame
    | with_reducible apply pump_frame
    | with_reducible apply updWindow_frame
    | with_reducible apply jobPlace_frame
    | (with_reducible apply frame_ite)
    | (with_reducible apply frame_foldl)
    | exact of_decide_eq_true rfl
    | intro _
    | split
theorem may_phcRangeInvalidate (x0 : Initiator) (x1 : Word) (h : exec (.phcRangeInvalidate x0 x1) s = .next t) :
    OnlyChanges (mayChange (.phcRangeInvalidate x0 x1)) s t := by
  rw [← Host.Outcome.next.inj h]
  refine access_frame (b := .phc) (u := 0) (o := 0x30) (by rfl) (by rfl) (by decide) (by rfl)
    (of_decide_eq_true rfl) (of_decide_eq_true rfl) (of_decide_eq_true rfl) (of_decide_eq_true rfl) (of_decide_eq_true rfl) ?_
  intro z v n hv hz
  simp [flashEffect, systemEffect]
  repeat' first
    | with_reducible assumption
    | with_reducible apply rangeStart_frame
    | with_reducible apply setCursor_frame
    | with_reducible apply accessFault_frame
    | with_reducible apply setBank_frame
    | with_reducible apply updPwr_frame
    | with_reducible apply courierReset_frame
    | with_reducible apply scrubStopReq_frame
    | with_reducible apply raise_frame
    | with_reducible apply handoverSwitch_frame
    | with_reducible apply orReg_frame
    | with_reducible apply pump_frame
    | with_reducible apply updWindow_frame
    | with_reducible apply jobPlace_frame
    | (with_reducible apply frame_ite)
    | (with_reducible apply frame_foldl)
    | exact of_decide_eq_true rfl
    | intro _
    | split
theorem may_phcRangeCleanInvalidate (x0 : Initiator) (x1 : Word) (h : exec (.phcRangeCleanInvalidate x0 x1) s = .next t) :
    OnlyChanges (mayChange (.phcRangeCleanInvalidate x0 x1)) s t := by
  rw [← Host.Outcome.next.inj h]
  refine access_frame (b := .phc) (u := 0) (o := 0x30) (by rfl) (by rfl) (by decide) (by rfl)
    (of_decide_eq_true rfl) (of_decide_eq_true rfl) (of_decide_eq_true rfl) (of_decide_eq_true rfl) (of_decide_eq_true rfl) ?_
  intro z v n hv hz
  simp [flashEffect, systemEffect]
  repeat' first
    | with_reducible assumption
    | with_reducible apply rangeStart_frame
    | with_reducible apply setCursor_frame
    | with_reducible apply accessFault_frame
    | with_reducible apply setBank_frame
    | with_reducible apply updPwr_frame
    | with_reducible apply courierReset_frame
    | with_reducible apply scrubStopReq_frame
    | with_reducible apply raise_frame
    | with_reducible apply handoverSwitch_frame
    | with_reducible apply orReg_frame
    | with_reducible apply pump_frame
    | with_reducible apply updWindow_frame
    | with_reducible apply jobPlace_frame
    | (with_reducible apply frame_ite)
    | (with_reducible apply frame_foldl)
    | exact of_decide_eq_true rfl
    | intro _
    | split
theorem may_phcSwopClean (x0 : Initiator) (x1 : Nat) (x2 : Nat) (h : exec (.phcSwopClean x0 x1 x2) s = .next t) :
    OnlyChanges (mayChange (.phcSwopClean x0 x1 x2)) s t := by
  rw [← Host.Outcome.next.inj h]
  refine access_frame (b := .phc) (u := 0) (o := 0x18) (by rfl) (by rfl) (by decide) (by rfl)
    (of_decide_eq_true rfl) (of_decide_eq_true rfl) (of_decide_eq_true rfl) (of_decide_eq_true rfl) (of_decide_eq_true rfl) ?_
  intro z v n hv hz
  simp [flashEffect, systemEffect]
  repeat' first
    | with_reducible assumption
    | with_reducible apply swop_frame
    | with_reducible apply setCursor_frame
    | with_reducible apply accessFault_frame
    | with_reducible apply setBank_frame
    | with_reducible apply updPwr_frame
    | with_reducible apply courierReset_frame
    | with_reducible apply scrubStopReq_frame
    | with_reducible apply raise_frame
    | with_reducible apply handoverSwitch_frame
    | with_reducible apply orReg_frame
    | with_reducible apply pump_frame
    | with_reducible apply updWindow_frame
    | with_reducible apply jobPlace_frame
    | (with_reducible apply frame_ite)
    | (with_reducible apply frame_foldl)
    | exact of_decide_eq_true rfl
    | intro _
    | split
theorem may_phcSwopInvalidate (x0 : Initiator) (x1 : Nat) (x2 : Nat) (h : exec (.phcSwopInvalidate x0 x1 x2) s = .next t) :
    OnlyChanges (mayChange (.phcSwopInvalidate x0 x1 x2)) s t := by
  rw [← Host.Outcome.next.inj h]
  refine access_frame (b := .phc) (u := 0) (o := 0x18) (by rfl) (by rfl) (by decide) (by rfl)
    (of_decide_eq_true rfl) (of_decide_eq_true rfl) (of_decide_eq_true rfl) (of_decide_eq_true rfl) (of_decide_eq_true rfl) ?_
  intro z v n hv hz
  simp [flashEffect, systemEffect]
  repeat' first
    | with_reducible assumption
    | with_reducible apply swop_frame
    | with_reducible apply setCursor_frame
    | with_reducible apply accessFault_frame
    | with_reducible apply setBank_frame
    | with_reducible apply updPwr_frame
    | with_reducible apply courierReset_frame
    | with_reducible apply scrubStopReq_frame
    | with_reducible apply raise_frame
    | with_reducible apply handoverSwitch_frame
    | with_reducible apply orReg_frame
    | with_reducible apply pump_frame
    | with_reducible apply updWindow_frame
    | with_reducible apply jobPlace_frame
    | (with_reducible apply frame_ite)
    | (with_reducible apply frame_foldl)
    | exact of_decide_eq_true rfl
    | intro _
    | split
theorem may_phcSwopCleanInvalidate (x0 : Initiator) (x1 : Nat) (x2 : Nat) (h : exec (.phcSwopCleanInvalidate x0 x1 x2) s = .next t) :
    OnlyChanges (mayChange (.phcSwopCleanInvalidate x0 x1 x2)) s t := by
  rw [← Host.Outcome.next.inj h]
  refine access_frame (b := .phc) (u := 0) (o := 0x18) (by rfl) (by rfl) (by decide) (by rfl)
    (of_decide_eq_true rfl) (of_decide_eq_true rfl) (of_decide_eq_true rfl) (of_decide_eq_true rfl) (of_decide_eq_true rfl) ?_
  intro z v n hv hz
  simp [flashEffect, systemEffect]
  repeat' first
    | with_reducible assumption
    | with_reducible apply swop_frame
    | with_reducible apply setCursor_frame
    | with_reducible apply accessFault_frame
    | with_reducible apply setBank_frame
    | with_reducible apply updPwr_frame
    | with_reducible apply courierReset_frame
    | with_reducible apply scrubStopReq_frame
    | with_reducible apply raise_frame
    | with_reducible apply handoverSwitch_frame
    | with_reducible apply orReg_frame
    | with_reducible apply pump_frame
    | with_reducible apply updWindow_frame
    | with_reducible apply jobPlace_frame
    | (with_reducible apply frame_ite)
    | (with_reducible apply frame_foldl)
    | exact of_decide_eq_true rfl
    | intro _
    | split
theorem may_imageVerify (x0 : Initiator) (x1 : Word) (h : exec (.imageVerify x0 x1) s = .next t) :
    OnlyChanges (mayChange (.imageVerify x0 x1)) s t := by
  rw [← Host.Outcome.next.inj h]
  refine access_frame (b := .sec) (u := 0) (o := 0x2c) (by rfl) (by rfl) (by decide) (by rfl)
    (of_decide_eq_true rfl) (of_decide_eq_true rfl) (of_decide_eq_true rfl) (of_decide_eq_true rfl) (of_decide_eq_true rfl) ?_
  intro z v n hv hz
  simp [flashEffect, systemEffect]
  repeat' first
    | with_reducible assumption
    | with_reducible apply verifyStart_frame
    | with_reducible apply setCursor_frame
    | with_reducible apply accessFault_frame
    | with_reducible apply setBank_frame
    | with_reducible apply updPwr_frame
    | with_reducible apply courierReset_frame
    | with_reducible apply scrubStopReq_frame
    | with_reducible apply raise_frame
    | with_reducible apply handoverSwitch_frame
    | with_reducible apply orReg_frame
    | with_reducible apply pump_frame
    | with_reducible apply updWindow_frame
    | with_reducible apply jobPlace_frame
    | (with_reducible apply frame_ite)
    | (with_reducible apply frame_foldl)
    | exact of_decide_eq_true rfl
    | intro _
    | split
theorem may_handoverSwitch (x0 : Initiator) (x1 : Word) (h : exec (.handoverSwitch x0 x1) s = .next t) :
    OnlyChanges (mayChange (.handoverSwitch x0 x1)) s t := by
  rw [← Host.Outcome.next.inj h]
  refine access_frame (b := .sec) (u := 0) (o := 0x84) (by rfl) (by rfl) (by decide) (by rfl)
    (of_decide_eq_true rfl) (of_decide_eq_true rfl) (of_decide_eq_true rfl) (of_decide_eq_true rfl) (of_decide_eq_true rfl) ?_
  intro z v n hv hz
  have hb : bitOf v 0 = true := by rw [← bitOf_mod v 32 0 (by decide), hv, bitOf_mod _ 32 0 (by decide), bitOf_setBits_low _ _ _ _ (by decide)]; rfl
  simp [flashEffect, systemEffect, hb]
  repeat' first
    | with_reducible assumption
    | with_reducible apply handoverSwitch_frame
    | with_reducible apply setCursor_frame
    | with_reducible apply accessFault_frame
    | with_reducible apply setBank_frame
    | with_reducible apply updPwr_frame
    | with_reducible apply courierReset_frame
    | with_reducible apply scrubStopReq_frame
    | with_reducible apply raise_frame
    | with_reducible apply orReg_frame
    | with_reducible apply pump_frame
    | with_reducible apply updWindow_frame
    | with_reducible apply jobPlace_frame
    | (with_reducible apply frame_ite)
    | (with_reducible apply frame_foldl)
    | exact of_decide_eq_true rfl
    | intro _
    | split
theorem may_handoverDone (x0 : Initiator) (x1 : Word) (h : exec (.handoverDone x0 x1) s = .next t) :
    OnlyChanges (mayChange (.handoverDone x0 x1)) s t := by
  rw [← Host.Outcome.next.inj h]
  refine access_frame (b := .sec) (u := 0) (o := 0x84) (by rfl) (by rfl) (by decide) (by rfl)
    (of_decide_eq_true rfl) (of_decide_eq_true rfl) (of_decide_eq_true rfl) (of_decide_eq_true rfl) (of_decide_eq_true rfl) ?_
  intro z v n hv hz
  simp [flashEffect, systemEffect]
  repeat' first
    | with_reducible assumption
    | with_reducible apply handoverDone_frame
    | with_reducible apply setCursor_frame
    | with_reducible apply accessFault_frame
    | with_reducible apply setBank_frame
    | with_reducible apply updPwr_frame
    | with_reducible apply courierReset_frame
    | with_reducible apply scrubStopReq_frame
    | with_reducible apply raise_frame
    | with_reducible apply handoverSwitch_frame
    | with_reducible apply orReg_frame
    | with_reducible apply pump_frame
    | with_reducible apply updWindow_frame
    | with_reducible apply jobPlace_frame
    | (with_reducible apply frame_ite)
    | (with_reducible apply frame_foldl)
    | exact of_decide_eq_true rfl
    | intro _
    | split
theorem may_fuseProgramKeyhash (x0 : Initiator) (x1 : Fin 4) (h : exec (.fuseProgramKeyhash x0 x1) s = .next t) :
    OnlyChanges (mayChange (.fuseProgramKeyhash x0 x1)) s t := by
  rw [← Host.Outcome.next.inj h]
  refine access_frame (b := .sec) (u := 0) (o := 0xa0) (by rfl) (by rfl) (by decide) (by rfl)
    (of_decide_eq_true rfl) (of_decide_eq_true rfl) (of_decide_eq_true rfl) (of_decide_eq_true rfl) (of_decide_eq_true rfl) ?_
  intro z v n hv hz
  simp [flashEffect, systemEffect]
  repeat' first
    | with_reducible assumption
    | with_reducible apply fuseCmd_frame
    | with_reducible apply setCursor_frame
    | with_reducible apply accessFault_frame
    | with_reducible apply setBank_frame
    | with_reducible apply updPwr_frame
    | with_reducible apply courierReset_frame
    | with_reducible apply scrubStopReq_frame
    | with_reducible apply raise_frame
    | with_reducible apply handoverSwitch_frame
    | with_reducible apply orReg_frame
    | with_reducible apply pump_frame
    | with_reducible apply updWindow_frame
    | with_reducible apply jobPlace_frame
    | (with_reducible apply frame_ite)
    | (with_reducible apply frame_foldl)
    | exact of_decide_eq_true rfl
    | intro _
    | split
theorem may_fuseRevokeSlot (x0 : Initiator) (x1 : Fin 4) (h : exec (.fuseRevokeSlot x0 x1) s = .next t) :
    OnlyChanges (mayChange (.fuseRevokeSlot x0 x1)) s t := by
  rw [← Host.Outcome.next.inj h]
  refine access_frame (b := .sec) (u := 0) (o := 0xa0) (by rfl) (by rfl) (by decide) (by rfl)
    (of_decide_eq_true rfl) (of_decide_eq_true rfl) (of_decide_eq_true rfl) (of_decide_eq_true rfl) (of_decide_eq_true rfl) ?_
  intro z v n hv hz
  simp [flashEffect, systemEffect]
  repeat' first
    | with_reducible assumption
    | with_reducible apply fuseCmd_frame
    | with_reducible apply setCursor_frame
    | with_reducible apply accessFault_frame
    | with_reducible apply setBank_frame
    | with_reducible apply updPwr_frame
    | with_reducible apply courierReset_frame
    | with_reducible apply scrubStopReq_frame
    | with_reducible apply raise_frame
    | with_reducible apply handoverSwitch_frame
    | with_reducible apply orReg_frame
    | with_reducible apply pump_frame
    | with_reducible apply updWindow_frame
    | with_reducible apply jobPlace_frame
    | (with_reducible apply frame_ite)
    | (with_reducible apply frame_foldl)
    | exact of_decide_eq_true rfl
    | intro _
    | split
theorem may_fuseRaiseMinsvn (x0 : Initiator) (x1 : Nat) (h : exec (.fuseRaiseMinsvn x0 x1) s = .next t) :
    OnlyChanges (mayChange (.fuseRaiseMinsvn x0 x1)) s t := by
  rw [← Host.Outcome.next.inj h]
  refine frame_ite (OnlyChanges.refl _ s) ?_
  refine access_frame (b := .sec) (u := 0) (o := 0xa0) (by rfl) (by rfl) (by decide) (by rfl)
    (of_decide_eq_true rfl) (of_decide_eq_true rfl) (of_decide_eq_true rfl) (of_decide_eq_true rfl) (of_decide_eq_true rfl) ?_
  intro z v n hv hz
  simp [flashEffect, systemEffect]
  repeat' first
    | with_reducible assumption
    | with_reducible apply fuseCmd_frame
    | with_reducible apply setCursor_frame
    | with_reducible apply accessFault_frame
    | with_reducible apply setBank_frame
    | with_reducible apply updPwr_frame
    | with_reducible apply courierReset_frame
    | with_reducible apply scrubStopReq_frame
    | with_reducible apply raise_frame
    | with_reducible apply handoverSwitch_frame
    | with_reducible apply orReg_frame
    | with_reducible apply pump_frame
    | with_reducible apply updWindow_frame
    | with_reducible apply jobPlace_frame
    | (with_reducible apply frame_ite)
    | (with_reducible apply frame_foldl)
    | exact of_decide_eq_true rfl
    | intro _
    | split
theorem may_keyGenerate (x0 : Initiator) (x1 : Bool) (x2 : Nat) (x3 : Bool) (h : exec (.keyGenerate x0 x1 x2 x3) s = .next t) :
    OnlyChanges (mayChange (.keyGenerate x0 x1 x2 x3)) s t := by
  rw [← Host.Outcome.next.inj h]
  refine access_frame (b := .cry) (u := 0) (o := 0x10) (by rfl) (by rfl) (by decide) (by rfl)
    (of_decide_eq_true rfl) (of_decide_eq_true rfl) (of_decide_eq_true rfl) (of_decide_eq_true rfl) (of_decide_eq_true rfl) ?_
  intro z v n hv hz
  simp [flashEffect, systemEffect]
  repeat' first
    | with_reducible assumption
    | with_reducible apply kcmd_frame
    | with_reducible apply setCursor_frame
    | with_reducible apply accessFault_frame
    | with_reducible apply setBank_frame
    | with_reducible apply updPwr_frame
    | with_reducible apply courierReset_frame
    | with_reducible apply scrubStopReq_frame
    | with_reducible apply raise_frame
    | with_reducible apply handoverSwitch_frame
    | with_reducible apply orReg_frame
    | with_reducible apply pump_frame
    | with_reducible apply updWindow_frame
    | with_reducible apply jobPlace_frame
    | (with_reducible apply frame_ite)
    | (with_reducible apply frame_foldl)
    | exact of_decide_eq_true rfl
    | intro _
    | split
theorem may_keyLoadWrapped (x0 : Initiator) (x1 : Bool) (x2 : Nat) (h : exec (.keyLoadWrapped x0 x1 x2) s = .next t) :
    OnlyChanges (mayChange (.keyLoadWrapped x0 x1 x2)) s t := by
  rw [← Host.Outcome.next.inj h]
  refine access_frame (b := .cry) (u := 0) (o := 0x10) (by rfl) (by rfl) (by decide) (by rfl)
    (of_decide_eq_true rfl) (of_decide_eq_true rfl) (of_decide_eq_true rfl) (of_decide_eq_true rfl) (of_decide_eq_true rfl) ?_
  intro z v n hv hz
  simp [flashEffect, systemEffect]
  repeat' first
    | with_reducible assumption
    | with_reducible apply kcmd_frame
    | with_reducible apply setCursor_frame
    | with_reducible apply accessFault_frame
    | with_reducible apply setBank_frame
    | with_reducible apply updPwr_frame
    | with_reducible apply courierReset_frame
    | with_reducible apply scrubStopReq_frame
    | with_reducible apply raise_frame
    | with_reducible apply handoverSwitch_frame
    | with_reducible apply orReg_frame
    | with_reducible apply pump_frame
    | with_reducible apply updWindow_frame
    | with_reducible apply jobPlace_frame
    | (with_reducible apply frame_ite)
    | (with_reducible apply frame_foldl)
    | exact of_decide_eq_true rfl
    | intro _
    | split
theorem may_keyDestroy (x0 : Initiator) (x1 : Nat) (h : exec (.keyDestroy x0 x1) s = .next t) :
    OnlyChanges (mayChange (.keyDestroy x0 x1)) s t := by
  rw [← Host.Outcome.next.inj h]
  refine access_frame (b := .cry) (u := 0) (o := 0x10) (by rfl) (by rfl) (by decide) (by rfl)
    (of_decide_eq_true rfl) (of_decide_eq_true rfl) (of_decide_eq_true rfl) (of_decide_eq_true rfl) (of_decide_eq_true rfl) ?_
  intro z v n hv hz
  simp [flashEffect, systemEffect]
  repeat' first
    | with_reducible assumption
    | with_reducible apply kcmd_frame
    | with_reducible apply setCursor_frame
    | with_reducible apply accessFault_frame
    | with_reducible apply setBank_frame
    | with_reducible apply updPwr_frame
    | with_reducible apply courierReset_frame
    | with_reducible apply scrubStopReq_frame
    | with_reducible apply raise_frame
    | with_reducible apply handoverSwitch_frame
    | with_reducible apply orReg_frame
    | with_reducible apply pump_frame
    | with_reducible apply updWindow_frame
    | with_reducible apply jobPlace_frame
    | (with_reducible apply frame_ite)
    | (with_reducible apply frame_foldl)
    | exact of_decide_eq_true rfl
    | intro _
    | split
theorem may_strDlqTailWrite (x0 : Initiator) (x1 : Word) (h : exec (.strDlqTailWrite x0 x1) s = .next t) :
    OnlyChanges (mayChange (.strDlqTailWrite x0 x1)) s t := by
  rw [← Host.Outcome.next.inj h]
  refine access_frame (b := .str) (u := 0) (o := 0x2c) (by rfl) (by rfl) (by decide) (by rfl)
    (of_decide_eq_true rfl) (of_decide_eq_true rfl) (of_decide_eq_true rfl) (of_decide_eq_true rfl) (of_decide_eq_true rfl) ?_
  intro z v n hv hz
  simp [flashEffect, systemEffect]
  repeat' first
    | with_reducible assumption
    | with_reducible apply turn_frame
    | with_reducible apply setCursor_frame
    | with_reducible apply accessFault_frame
    | with_reducible apply setBank_frame
    | with_reducible apply updPwr_frame
    | with_reducible apply courierReset_frame
    | with_reducible apply scrubStopReq_frame
    | with_reducible apply raise_frame
    | with_reducible apply handoverSwitch_frame
    | with_reducible apply orReg_frame
    | with_reducible apply pump_frame
    | with_reducible apply updWindow_frame
    | with_reducible apply jobPlace_frame
    | (with_reducible apply frame_ite)
    | (with_reducible apply frame_foldl)
    | exact of_decide_eq_true rfl
    | intro _
    | split
theorem may_trainingStart (x0 : Initiator) (x1 : Fin 32) (x2 : Word) (h : exec (.trainingStart x0 x1 x2) s = .next t) :
    OnlyChanges (mayChange (.trainingStart x0 x1 x2)) s t := by
  rw [← Host.Outcome.next.inj h]
  refine access_frame (b := .chn) (u := x1) (o := 0x28) (loc_chn x1 0x28 (by decide)) (by rfl) (by decide) (by rfl)
    (of_decide_eq_true rfl) (of_decide_eq_true rfl) (of_decide_eq_true rfl) (of_decide_eq_true rfl) (of_decide_eq_true rfl) ?_
  intro z v n hv hz
  simp [flashEffect, systemEffect]
  repeat' first
    | with_reducible assumption
    | with_reducible apply trainStart_frame
    | with_reducible apply setCursor_frame
    | with_reducible apply accessFault_frame
    | with_reducible apply setBank_frame
    | with_reducible apply updPwr_frame
    | with_reducible apply courierReset_frame
    | with_reducible apply scrubStopReq_frame
    | with_reducible apply raise_frame
    | with_reducible apply handoverSwitch_frame
    | with_reducible apply orReg_frame
    | with_reducible apply pump_frame
    | with_reducible apply updWindow_frame
    | with_reducible apply jobPlace_frame
    | (with_reducible apply frame_ite)
    | (with_reducible apply frame_foldl)
    | exact of_decide_eq_true rfl
    | intro _
    | split
theorem may_courierReset (x0 : Initiator) (x1 : Word) (h : exec (.courierReset x0 x1) s = .next t) :
    OnlyChanges (mayChange (.courierReset x0 x1)) s t := by
  rw [← Host.Outcome.next.inj h]
  refine access_frame (b := .pwr) (u := 0) (o := 0x40) (by rfl) (by rfl) (by decide) (by rfl)
    (of_decide_eq_true rfl) (of_decide_eq_true rfl) (of_decide_eq_true rfl) (of_decide_eq_true rfl) (of_decide_eq_true rfl) ?_
  intro z v n hv hz
  simp [flashEffect, systemEffect]
  repeat' first
    | with_reducible assumption
    | with_reducible apply courierReset_frame
    | with_reducible apply setCursor_frame
    | with_reducible apply accessFault_frame
    | with_reducible apply setBank_frame
    | with_reducible apply updPwr_frame
    | with_reducible apply scrubStopReq_frame
    | with_reducible apply raise_frame
    | with_reducible apply handoverSwitch_frame
    | with_reducible apply orReg_frame
    | with_reducible apply pump_frame
    | with_reducible apply updWindow_frame
    | with_reducible apply jobPlace_frame
    | (with_reducible apply frame_ite)
    | (with_reducible apply frame_foldl)
    | exact of_decide_eq_true rfl
    | intro _
    | split
theorem may_snapshotFire (x0 : Initiator) (x1 : Fin 32) (x2 : Word) (h : exec (.snapshotFire x0 x1 x2) s = .next t) :
    OnlyChanges (mayChange (.snapshotFire x0 x1 x2)) s t := by
  rw [← Host.Outcome.next.inj h]
  refine access_frame (b := .chn) (u := x1) (o := 0xD4) (loc_chn x1 0xD4 (by decide)) (by rfl) (by decide) (by rfl)
    (of_decide_eq_true rfl) (of_decide_eq_true rfl) (of_decide_eq_true rfl) (of_decide_eq_true rfl) (of_decide_eq_true rfl) ?_
  intro z v n hv hz
  simp [flashEffect, systemEffect]
  repeat' first
    | with_reducible assumption
    | with_reducible apply snapCmd_frame
    | with_reducible apply setCursor_frame
    | with_reducible apply accessFault_frame
    | with_reducible apply setBank_frame
    | with_reducible apply updPwr_frame
    | with_reducible apply courierReset_frame
    | with_reducible apply scrubStopReq_frame
    | with_reducible apply raise_frame
    | with_reducible apply handoverSwitch_frame
    | with_reducible apply orReg_frame
    | with_reducible apply pump_frame
    | with_reducible apply updWindow_frame
    | with_reducible apply jobPlace_frame
    | (with_reducible apply frame_ite)
    | (with_reducible apply frame_foldl)
    | exact of_decide_eq_true rfl
    | intro _
    | split
theorem may_snapshotPop (x0 : Initiator) (x1 : Fin 32) (x2 : Word) (h : exec (.snapshotPop x0 x1 x2) s = .next t) :
    OnlyChanges (mayChange (.snapshotPop x0 x1 x2)) s t := by
  rw [← Host.Outcome.next.inj h]
  refine access_frame (b := .chn) (u := x1) (o := 0xD4) (loc_chn x1 0xD4 (by decide)) (by rfl) (by decide) (by rfl)
    (of_decide_eq_true rfl) (of_decide_eq_true rfl) (of_decide_eq_true rfl) (of_decide_eq_true rfl) (of_decide_eq_true rfl) ?_
  intro z v n hv hz
  simp [flashEffect, systemEffect]
  repeat' first
    | with_reducible assumption
    | with_reducible apply snapCmd_frame
    | with_reducible apply setCursor_frame
    | with_reducible apply accessFault_frame
    | with_reducible apply setBank_frame
    | with_reducible apply updPwr_frame
    | with_reducible apply courierReset_frame
    | with_reducible apply scrubStopReq_frame
    | with_reducible apply raise_frame
    | with_reducible apply handoverSwitch_frame
    | with_reducible apply orReg_frame
    | with_reducible apply pump_frame
    | with_reducible apply updWindow_frame
    | with_reducible apply jobPlace_frame
    | (with_reducible apply frame_ite)
    | (with_reducible apply frame_foldl)
    | exact of_decide_eq_true rfl
    | intro _
    | split
theorem may_jrcCutover (x0 : Initiator) (x1 : Word) (h : exec (.jrcCutover x0 x1) s = .next t) :
    OnlyChanges (mayChange (.jrcCutover x0 x1)) s t := by
  rw [← Host.Outcome.next.inj h]
  refine access_frame (b := .jrc) (u := 0) (o := 0x2c) (by rfl) (by rfl) (by decide) (by rfl)
    (of_decide_eq_true rfl) (of_decide_eq_true rfl) (of_decide_eq_true rfl) (of_decide_eq_true rfl) (of_decide_eq_true rfl) ?_
  intro z v n hv hz
  have hb : v % 4 = 1 := by
    have h1 := bitsOf_setBits x1.toNat 1 0 1
    simp only [bitsOf] at h1
    omega
  simp [flashEffect, systemEffect, hb]
  repeat' first
    | with_reducible assumption
    | with_reducible apply cutover_frame
    | with_reducible apply setCursor_frame
    | with_reducible apply accessFault_frame
    | with_reducible apply setBank_frame
    | with_reducible apply updPwr_frame
    | with_reducible apply courierReset_frame
    | with_reducible apply scrubStopReq_frame
    | with_reducible apply raise_frame
    | with_reducible apply handoverSwitch_frame
    | with_reducible apply orReg_frame
    | with_reducible apply pump_frame
    | with_reducible apply updWindow_frame
    | with_reducible apply jobPlace_frame
    | (with_reducible apply frame_ite)
    | (with_reducible apply frame_foldl)
    | exact of_decide_eq_true rfl
    | intro _
    | split
theorem may_jrcCommit (x0 : Initiator) (x1 : Word) (h : exec (.jrcCommit x0 x1) s = .next t) :
    OnlyChanges (mayChange (.jrcCommit x0 x1)) s t := by
  rw [← Host.Outcome.next.inj h]
  refine access_frame (b := .jrc) (u := 0) (o := 0x2c) (by rfl) (by rfl) (by decide) (by rfl)
    (of_decide_eq_true rfl) (of_decide_eq_true rfl) (of_decide_eq_true rfl) (of_decide_eq_true rfl) (of_decide_eq_true rfl) ?_
  intro z v n hv hz
  have hb : v % 4 = 2 := by
    have h1 := bitsOf_setBits x1.toNat 1 0 2
    simp only [bitsOf] at h1
    omega
  simp [flashEffect, systemEffect, hb]
  repeat' first
    | with_reducible assumption
    | with_reducible apply jrcCommit_frame
    | with_reducible apply setCursor_frame
    | with_reducible apply accessFault_frame
    | with_reducible apply setBank_frame
    | with_reducible apply updPwr_frame
    | with_reducible apply courierReset_frame
    | with_reducible apply scrubStopReq_frame
    | with_reducible apply raise_frame
    | with_reducible apply handoverSwitch_frame
    | with_reducible apply orReg_frame
    | with_reducible apply pump_frame
    | with_reducible apply updWindow_frame
    | with_reducible apply jobPlace_frame
    | (with_reducible apply frame_ite)
    | (with_reducible apply frame_foldl)
    | exact of_decide_eq_true rfl
    | intro _
    | split
theorem may_victimScan (x0 : Initiator) (x1 : Word) (h : exec (.victimScan x0 x1) s = .next t) :
    OnlyChanges (mayChange (.victimScan x0 x1)) s t := by
  rw [← Host.Outcome.next.inj h]
  refine access_frame (b := .map) (u := 0) (o := 0xa4) (by rfl) (by rfl) (by decide) (by rfl)
    (of_decide_eq_true rfl) (of_decide_eq_true rfl) (of_decide_eq_true rfl) (of_decide_eq_true rfl) (of_decide_eq_true rfl) ?_
  intro z v n hv hz
  simp [flashEffect, systemEffect]
  repeat' first
    | with_reducible assumption
    | with_reducible apply victimScan_frame
    | with_reducible apply setCursor_frame
    | with_reducible apply accessFault_frame
    | with_reducible apply setBank_frame
    | with_reducible apply updPwr_frame
    | with_reducible apply courierReset_frame
    | with_reducible apply scrubStopReq_frame
    | with_reducible apply raise_frame
    | with_reducible apply handoverSwitch_frame
    | with_reducible apply orReg_frame
    | with_reducible apply pump_frame
    | with_reducible apply updWindow_frame
    | with_reducible apply jobPlace_frame
    | (with_reducible apply frame_ite)
    | (with_reducible apply frame_foldl)
    | exact of_decide_eq_true rfl
    | intro _
    | split
theorem may_jobSubmit (x0 : Initiator) (x1 : Nat) (x2 : List JobReq) (h : exec (.jobSubmit x0 x1 x2) s = .next t) :
    OnlyChanges (mayChange (.jobSubmit x0 x1 x2)) s t := by
  rw [← Host.Outcome.next.inj h]
  refine access_frame (b := .map) (u := 0) (o := 0xf8) (by rfl) (by rfl) (by decide) (by rfl)
    (of_decide_eq_true rfl) (of_decide_eq_true rfl) (of_decide_eq_true rfl) (of_decide_eq_true rfl) (of_decide_eq_true rfl) ?_
  intro z v n hv hz
  simp [flashEffect, systemEffect]
  repeat' first
    | with_reducible assumption
    | with_reducible apply readsOver_frame
    | with_reducible apply jobSubmit_frame
    | with_reducible apply setCursor_frame
    | with_reducible apply accessFault_frame
    | with_reducible apply setBank_frame
    | with_reducible apply updPwr_frame
    | with_reducible apply courierReset_frame
    | with_reducible apply scrubStopReq_frame
    | with_reducible apply raise_frame
    | with_reducible apply handoverSwitch_frame
    | with_reducible apply orReg_frame
    | with_reducible apply pump_frame
    | with_reducible apply updWindow_frame
    | with_reducible apply jobPlace_frame
    | (with_reducible apply frame_ite)
    | (with_reducible apply frame_foldl)
    | exact of_decide_eq_true rfl
    | intro _
    | split
theorem may_jobAbort (x0 : Initiator) (x1 : Word) (h : exec (.jobAbort x0 x1) s = .next t) :
    OnlyChanges (mayChange (.jobAbort x0 x1)) s t := by
  rw [← Host.Outcome.next.inj h]
  refine access_frame (b := .map) (u := 0) (o := 0x100) (by rfl) (by rfl) (by decide) (by rfl)
    (of_decide_eq_true rfl) (of_decide_eq_true rfl) (of_decide_eq_true rfl) (of_decide_eq_true rfl) (of_decide_eq_true rfl) ?_
  intro z v n hv hz
  simp [flashEffect, systemEffect]
  repeat' first
    | with_reducible assumption
    | with_reducible apply jobAbort_frame
    | with_reducible apply setCursor_frame
    | with_reducible apply accessFault_frame
    | with_reducible apply setBank_frame
    | with_reducible apply updPwr_frame
    | with_reducible apply courierReset_frame
    | with_reducible apply scrubStopReq_frame
    | with_reducible apply raise_frame
    | with_reducible apply handoverSwitch_frame
    | with_reducible apply orReg_frame
    | with_reducible apply pump_frame
    | with_reducible apply updWindow_frame
    | with_reducible apply jobPlace_frame
    | (with_reducible apply frame_ite)
    | (with_reducible apply frame_foldl)
    | exact of_decide_eq_true rfl
    | intro _
    | split
theorem may_zeroFillStart (x0 : Initiator) (x1 : Word) (h : exec (.zeroFillStart x0 x1) s = .next t) :
    OnlyChanges (mayChange (.zeroFillStart x0 x1)) s t := by
  rw [← Host.Outcome.next.inj h]
  refine access_frame (b := .drc) (u := 0) (o := 0x20) (by rfl) (by rfl) (by decide) (by rfl)
    (of_decide_eq_true rfl) (of_decide_eq_true rfl) (of_decide_eq_true rfl) (of_decide_eq_true rfl) (of_decide_eq_true rfl) ?_
  intro z v n hv hz
  simp [flashEffect, systemEffect]
  repeat' first
    | with_reducible assumption
    | with_reducible apply zeroFill_frame
    | with_reducible apply setCursor_frame
    | with_reducible apply accessFault_frame
    | with_reducible apply setBank_frame
    | with_reducible apply updPwr_frame
    | with_reducible apply courierReset_frame
    | with_reducible apply scrubStopReq_frame
    | with_reducible apply raise_frame
    | with_reducible apply handoverSwitch_frame
    | with_reducible apply orReg_frame
    | with_reducible apply pump_frame
    | with_reducible apply updWindow_frame
    | with_reducible apply jobPlace_frame
    | (with_reducible apply frame_ite)
    | (with_reducible apply frame_foldl)
    | exact of_decide_eq_true rfl
    | intro _
    | split
theorem may_scrubStart (x0 : Initiator) (x1 : Word) (h : exec (.scrubStart x0 x1) s = .next t) :
    OnlyChanges (mayChange (.scrubStart x0 x1)) s t := by
  rw [← Host.Outcome.next.inj h]
  refine access_frame (b := .scb) (u := 0) (o := 0x28) (by rfl) (by rfl) (by decide) (by rfl)
    (of_decide_eq_true rfl) (of_decide_eq_true rfl) (of_decide_eq_true rfl) (of_decide_eq_true rfl) (of_decide_eq_true rfl) ?_
  intro z v n hv hz
  simp [flashEffect, systemEffect]
  repeat' first
    | with_reducible assumption
    | with_reducible apply scrubStart_frame
    | with_reducible apply setCursor_frame
    | with_reducible apply accessFault_frame
    | with_reducible apply setBank_frame
    | with_reducible apply updPwr_frame
    | with_reducible apply courierReset_frame
    | with_reducible apply scrubStopReq_frame
    | with_reducible apply raise_frame
    | with_reducible apply handoverSwitch_frame
    | with_reducible apply orReg_frame
    | with_reducible apply pump_frame
    | with_reducible apply updWindow_frame
    | with_reducible apply jobPlace_frame
    | (with_reducible apply frame_ite)
    | (with_reducible apply frame_foldl)
    | exact of_decide_eq_true rfl
    | intro _
    | split
theorem may_scrubStop (x0 : Initiator) (x1 : Word) (h : exec (.scrubStop x0 x1) s = .next t) :
    OnlyChanges (mayChange (.scrubStop x0 x1)) s t := by
  rw [← Host.Outcome.next.inj h]
  refine access_frame (b := .scb) (u := 0) (o := 0x28) (by rfl) (by rfl) (by decide) (by rfl)
    (of_decide_eq_true rfl) (of_decide_eq_true rfl) (of_decide_eq_true rfl) (of_decide_eq_true rfl) (of_decide_eq_true rfl) ?_
  intro z v n hv hz
  have hb : bitOf v 0 = false := by rw [← bitOf_mod v 32 0 (by decide), hv, bitOf_mod _ 32 0 (by decide), bitOf_setBits_low _ _ _ _ (by decide)]; rfl
  simp [flashEffect, systemEffect, hb]
  repeat' first
    | with_reducible assumption
    | with_reducible apply scrubStopReq_frame
    | with_reducible apply setCursor_frame
    | with_reducible apply accessFault_frame
    | with_reducible apply setBank_frame
    | with_reducible apply updPwr_frame
    | with_reducible apply courierReset_frame
    | with_reducible apply raise_frame
    | with_reducible apply handoverSwitch_frame
    | with_reducible apply orReg_frame
    | with_reducible apply pump_frame
    | with_reducible apply updWindow_frame
    | with_reducible apply jobPlace_frame
    | (with_reducible apply frame_ite)
    | (with_reducible apply frame_foldl)
    | exact of_decide_eq_true rfl
    | intro _
    | split
theorem may_ownerSearch (x0 : Initiator) (x1 : Word) (x2 : List (Ppa × Bool)) (h : exec (.ownerSearch x0 x1 x2) s = .next t) :
    OnlyChanges (mayChange (.ownerSearch x0 x1 x2)) s t := by
  rw [← Host.Outcome.next.inj h]
  refine access_frame (b := .pat) (u := 0) (o := 0x60) (by rfl) (by rfl) (by decide) (by rfl)
    (of_decide_eq_true rfl) (of_decide_eq_true rfl) (of_decide_eq_true rfl) (of_decide_eq_true rfl) (of_decide_eq_true rfl) ?_
  intro z v n hv hz
  simp [flashEffect, systemEffect]
  repeat' first
    | with_reducible assumption
    | with_reducible apply ownerSearch_frame
    | with_reducible apply setCursor_frame
    | with_reducible apply accessFault_frame
    | with_reducible apply setBank_frame
    | with_reducible apply updPwr_frame
    | with_reducible apply courierReset_frame
    | with_reducible apply scrubStopReq_frame
    | with_reducible apply raise_frame
    | with_reducible apply handoverSwitch_frame
    | with_reducible apply orReg_frame
    | with_reducible apply pump_frame
    | with_reducible apply updWindow_frame
    | with_reducible apply jobPlace_frame
    | (with_reducible apply frame_ite)
    | (with_reducible apply frame_foldl)
    | exact of_decide_eq_true rfl
    | intro _
    | split
theorem may_srtHwmClr (x0 : Initiator) (x1 : Word) (h : exec (.srtHwmClr x0 x1) s = .next t) :
    OnlyChanges (mayChange (.srtHwmClr x0 x1)) s t := by
  rw [← Host.Outcome.next.inj h]
  refine access_frame (b := .srt) (u := 0) (o := 0x18) (by rfl) (by rfl) (by decide) (by rfl)
    (of_decide_eq_true rfl) (of_decide_eq_true rfl) (of_decide_eq_true rfl) (of_decide_eq_true rfl) (of_decide_eq_true rfl) ?_
  intro z v n hv hz
  simp [flashEffect, systemEffect]
  repeat' first
    | with_reducible assumption
    | with_reducible apply hwmClear_frame
    | with_reducible apply setCursor_frame
    | with_reducible apply accessFault_frame
    | with_reducible apply setBank_frame
    | with_reducible apply updPwr_frame
    | with_reducible apply courierReset_frame
    | with_reducible apply scrubStopReq_frame
    | with_reducible apply raise_frame
    | with_reducible apply handoverSwitch_frame
    | with_reducible apply orReg_frame
    | with_reducible apply pump_frame
    | with_reducible apply updWindow_frame
    | with_reducible apply jobPlace_frame
    | (with_reducible apply frame_ite)
    | (with_reducible apply frame_foldl)
    | exact of_decide_eq_true rfl
    | intro _
    | split
theorem may_recorderWriteRecord (x0 : Initiator) (x1 : Word) (h : exec (.recorderWriteRecord x0 x1) s = .next t) :
    OnlyChanges (mayChange (.recorderWriteRecord x0 x1)) s t := by
  rw [← Host.Outcome.next.inj h]
  refine access_frame (b := .evr) (u := 0) (o := 0x2f0) (by rfl) (by rfl) (by decide) (by rfl)
    (of_decide_eq_true rfl) (of_decide_eq_true rfl) (of_decide_eq_true rfl) (of_decide_eq_true rfl) (of_decide_eq_true rfl) ?_
  intro z v n hv hz
  simp [flashEffect, systemEffect]
  repeat' first
    | with_reducible assumption
    | with_reducible apply writeRecord_frame
    | with_reducible apply setCursor_frame
    | with_reducible apply accessFault_frame
    | with_reducible apply setBank_frame
    | with_reducible apply updPwr_frame
    | with_reducible apply courierReset_frame
    | with_reducible apply scrubStopReq_frame
    | with_reducible apply raise_frame
    | with_reducible apply handoverSwitch_frame
    | with_reducible apply orReg_frame
    | with_reducible apply pump_frame
    | with_reducible apply updWindow_frame
    | with_reducible apply jobPlace_frame
    | (with_reducible apply frame_ite)
    | (with_reducible apply frame_foldl)
    | exact of_decide_eq_true rfl
    | intro _
    | split
theorem may_recorderCursorWrite (x0 : Initiator) (x1 : Dword) (x2 : Bool) (h : exec (.recorderCursorWrite x0 x1 x2) s = .next t) :
    OnlyChanges (mayChange (.recorderCursorWrite x0 x1 x2)) s t := by
  rw [← Host.Outcome.next.inj h]
  refine access_frame (b := .evr) (u := 0) (o := 0x20) (by rfl) (by rfl) (by decide) (by rfl)
    (of_decide_eq_true rfl) (of_decide_eq_true rfl) (of_decide_eq_true rfl) (of_decide_eq_true rfl) (of_decide_eq_true rfl) ?_
  intro z v n hv hz
  simp [flashEffect, systemEffect]
  repeat' first
    | with_reducible assumption
    | with_reducible apply setCursor_frame
    | with_reducible apply accessFault_frame
    | with_reducible apply setBank_frame
    | with_reducible apply updPwr_frame
    | with_reducible apply courierReset_frame
    | with_reducible apply scrubStopReq_frame
    | with_reducible apply raise_frame
    | with_reducible apply handoverSwitch_frame
    | with_reducible apply orReg_frame
    | with_reducible apply pump_frame
    | with_reducible apply updWindow_frame
    | with_reducible apply jobPlace_frame
    | (with_reducible apply frame_ite)
    | (with_reducible apply frame_foldl)
    | exact of_decide_eq_true rfl
    | intro _
    | split
theorem may_recorderCursorNext (x0 : Initiator) (x1 : Word) (x2 : Bool) (h : exec (.recorderCursorNext x0 x1 x2) s = .next t) :
    OnlyChanges (mayChange (.recorderCursorNext x0 x1 x2)) s t := by
  rw [← Host.Outcome.next.inj h]
  refine access_frame (b := .evr) (u := 0) (o := 0x2c) (by rfl) (by rfl) (by decide) (by rfl)
    (of_decide_eq_true rfl) (of_decide_eq_true rfl) (of_decide_eq_true rfl) (of_decide_eq_true rfl) (of_decide_eq_true rfl) ?_
  intro z v n hv hz
  have hb0 : bitOf v 0 = true := by rw [← bitOf_mod v 32 0 (by decide), hv, bitOf_mod _ 32 0 (by decide), bitOf_setBits_low _ _ _ _ (by decide)]; rfl
  have hb1 : bitOf v 1 = false := by rw [← bitOf_mod v 32 1 (by decide), hv, bitOf_mod _ 32 1 (by decide), bitOf_setBits_low _ _ _ _ (by decide)]; rfl
  have hb2 : bitOf v 2 = false := by rw [← bitOf_mod v 32 2 (by decide), hv, bitOf_mod _ 32 2 (by decide), bitOf_setBits_low _ _ _ _ (by decide)]; rfl
  simp [flashEffect, systemEffect, hb0, hb1, hb2]
  repeat' first
    | with_reducible assumption
    | with_reducible apply setCursor_frame
    | with_reducible apply accessFault_frame
    | with_reducible apply setBank_frame
    | with_reducible apply updPwr_frame
    | with_reducible apply courierReset_frame
    | with_reducible apply scrubStopReq_frame
    | with_reducible apply raise_frame
    | with_reducible apply handoverSwitch_frame
    | with_reducible apply orReg_frame
    | with_reducible apply pump_frame
    | with_reducible apply updWindow_frame
    | with_reducible apply jobPlace_frame
    | (with_reducible apply frame_ite)
    | (with_reducible apply frame_foldl)
    | exact of_decide_eq_true rfl
    | intro _
    | split
theorem may_recorderFlushsup (x0 : Initiator) (x1 : Word) (h : exec (.recorderFlushsup x0 x1) s = .next t) :
    OnlyChanges (mayChange (.recorderFlushsup x0 x1)) s t := by
  rw [← Host.Outcome.next.inj h]
  refine access_frame (b := .evr) (u := 0) (o := 0x2c) (by rfl) (by rfl) (by decide) (by rfl)
    (of_decide_eq_true rfl) (of_decide_eq_true rfl) (of_decide_eq_true rfl) (of_decide_eq_true rfl) (of_decide_eq_true rfl) ?_
  intro z v n hv hz
  have hb0 : bitOf v 0 = false := by rw [← bitOf_mod v 32 0 (by decide), hv, bitOf_mod _ 32 0 (by decide), bitOf_setBits_low _ _ _ _ (by decide)]; rfl
  have hb1 : bitOf v 1 = true := by rw [← bitOf_mod v 32 1 (by decide), hv, bitOf_mod _ 32 1 (by decide), bitOf_setBits_low _ _ _ _ (by decide)]; rfl
  have hb2 : bitOf v 2 = false := by rw [← bitOf_mod v 32 2 (by decide), hv, bitOf_mod _ 32 2 (by decide), bitOf_setBits_low _ _ _ _ (by decide)]; rfl
  simp [flashEffect, systemEffect, hb0, hb1, hb2]
  repeat' first
    | with_reducible assumption
    | with_reducible apply flushSup_frame
    | with_reducible apply setCursor_frame
    | with_reducible apply accessFault_frame
    | with_reducible apply setBank_frame
    | with_reducible apply updPwr_frame
    | with_reducible apply courierReset_frame
    | with_reducible apply scrubStopReq_frame
    | with_reducible apply raise_frame
    | with_reducible apply handoverSwitch_frame
    | with_reducible apply orReg_frame
    | with_reducible apply pump_frame
    | with_reducible apply updWindow_frame
    | with_reducible apply jobPlace_frame
    | (with_reducible apply frame_ite)
    | (with_reducible apply frame_foldl)
    | exact of_decide_eq_true rfl
    | intro _
    | split
theorem may_recorderRearm (x0 : Initiator) (x1 : Word) (h : exec (.recorderRearm x0 x1) s = .next t) :
    OnlyChanges (mayChange (.recorderRearm x0 x1)) s t := by
  rw [← Host.Outcome.next.inj h]
  refine access_frame (b := .evr) (u := 0) (o := 0x2c) (by rfl) (by rfl) (by decide) (by rfl)
    (of_decide_eq_true rfl) (of_decide_eq_true rfl) (of_decide_eq_true rfl) (of_decide_eq_true rfl) (of_decide_eq_true rfl) ?_
  intro z v n hv hz
  have hb0 : bitOf v 0 = false := by rw [← bitOf_mod v 32 0 (by decide), hv, bitOf_mod _ 32 0 (by decide), bitOf_setBits_low _ _ _ _ (by decide)]; rfl
  have hb1 : bitOf v 1 = false := by rw [← bitOf_mod v 32 1 (by decide), hv, bitOf_mod _ 32 1 (by decide), bitOf_setBits_low _ _ _ _ (by decide)]; rfl
  have hb2 : bitOf v 2 = true := by rw [← bitOf_mod v 32 2 (by decide), hv, bitOf_mod _ 32 2 (by decide), bitOf_setBits_low _ _ _ _ (by decide)]; rfl
  have hd : OnlyChanges (mayChange (.recorderRearm x0 x1)) s (rearm z) := rearm_frame hz (of_decide_eq_true rfl) (of_decide_eq_true rfl)
  have ha : OnlyChanges (mayChange (.recorderRearm x0 x1)) s (accessFault z .evr 0 0 5 (initCode x0) 44) :=
    accessFault_frame hz (of_decide_eq_true rfl) (of_decide_eq_true rfl) (of_decide_eq_true rfl) (of_decide_eq_true rfl)
      (of_decide_eq_true rfl)
  cases hs : z.sec.depot <;> simp [flashEffect, systemEffect, hb0, hb1, hb2, hs, hd, ha]
theorem may_evfDoorbellWrite (x0 : Initiator) (x1 : Word) (h : exec (.evfDoorbellWrite x0 x1) s = .next t) :
    OnlyChanges (mayChange (.evfDoorbellWrite x0 x1)) s t := by
  rw [← Host.Outcome.next.inj h]
  refine access_frame (b := .evf) (u := 0) (o := 0x400) (by rfl) (by rfl) (by decide) (by rfl)
    (of_decide_eq_true rfl) (of_decide_eq_true rfl) (of_decide_eq_true rfl) (of_decide_eq_true rfl) (of_decide_eq_true rfl) ?_
  intro z v n hv hz
  simp [flashEffect, systemEffect]
  repeat' first
    | with_reducible assumption
    | with_reducible apply doorbell_frame
    | with_reducible apply setCursor_frame
    | with_reducible apply accessFault_frame
    | with_reducible apply setBank_frame
    | with_reducible apply updPwr_frame
    | with_reducible apply courierReset_frame
    | with_reducible apply scrubStopReq_frame
    | with_reducible apply raise_frame
    | with_reducible apply handoverSwitch_frame
    | with_reducible apply orReg_frame
    | with_reducible apply pump_frame
    | with_reducible apply updWindow_frame
    | with_reducible apply jobPlace_frame
    | (with_reducible apply frame_ite)
    | (with_reducible apply frame_foldl)
    | exact of_decide_eq_true rfl
    | intro _
    | split
theorem may_watchdogKick (x0 : Initiator) (x1 : Fin 10) (x2 : Word) (h : exec (.watchdogKick x0 x1 x2) s = .next t) :
    OnlyChanges (mayChange (.watchdogKick x0 x1 x2)) s t := by
  rw [← Host.Outcome.next.inj h]
  refine access_frame (b := .evf) (u := 0) (o := 0x1104 + 16 * x1) (loc_wd x1) (reg_wd x1) (by omega) (by rfl)
    (of_decide_eq_true rfl) (of_decide_eq_true rfl) (of_decide_eq_true rfl) (of_decide_eq_true rfl) (of_decide_eq_true rfl) ?_
  intro z v n hv hz
  have h1 : ¬ 0x1104 + 16 * x1.val = 0x400 := by omega
  simp [flashEffect, systemEffect, h1]
  repeat' first
    | with_reducible assumption
    | with_reducible apply wdRestart_frame
    | with_reducible apply setCursor_frame
    | with_reducible apply accessFault_frame
    | with_reducible apply setBank_frame
    | with_reducible apply updPwr_frame
    | with_reducible apply courierReset_frame
    | with_reducible apply scrubStopReq_frame
    | with_reducible apply raise_frame
    | with_reducible apply handoverSwitch_frame
    | with_reducible apply orReg_frame
    | with_reducible apply pump_frame
    | with_reducible apply updWindow_frame
    | with_reducible apply jobPlace_frame
    | (with_reducible apply frame_ite)
    | (with_reducible apply frame_foldl)
    | exact of_decide_eq_true rfl
    | intro _
    | split
theorem may_ringTxDispatch (x0 : Initiator) (x1 : Word) (h : exec (.ringTxDispatch x0 x1) s = .next t) :
    OnlyChanges (mayChange (.ringTxDispatch x0 x1)) s t := by
  rw [← Host.Outcome.next.inj h]
  refine access_frame (b := .rng) (u := 0) (o := 0xc0) (by rfl) (by rfl) (by decide) (by rfl)
    (of_decide_eq_true rfl) (of_decide_eq_true rfl) (of_decide_eq_true rfl) (of_decide_eq_true rfl) (of_decide_eq_true rfl) ?_
  intro z v n hv hz
  simp [flashEffect, systemEffect]
  repeat' first
    | with_reducible assumption
    | with_reducible apply txDispatch_frame
    | with_reducible apply setCursor_frame
    | with_reducible apply accessFault_frame
    | with_reducible apply setBank_frame
    | with_reducible apply updPwr_frame
    | with_reducible apply courierReset_frame
    | with_reducible apply scrubStopReq_frame
    | with_reducible apply raise_frame
    | with_reducible apply handoverSwitch_frame
    | with_reducible apply orReg_frame
    | with_reducible apply pump_frame
    | with_reducible apply updWindow_frame
    | with_reducible apply jobPlace_frame
    | (with_reducible apply frame_ite)
    | (with_reducible apply frame_foldl)
    | exact of_decide_eq_true rfl
    | intro _
    | split
theorem may_ringRxPop (x0 : Initiator) (x1 : Word) (h : exec (.ringRxPop x0 x1) s = .next t) :
    OnlyChanges (mayChange (.ringRxPop x0 x1)) s t := by
  rw [← Host.Outcome.next.inj h]
  refine access_frame (b := .rng) (u := 0) (o := 0x144) (by rfl) (by rfl) (by decide) (by rfl)
    (of_decide_eq_true rfl) (of_decide_eq_true rfl) (of_decide_eq_true rfl) (of_decide_eq_true rfl) (of_decide_eq_true rfl) ?_
  intro z v n hv hz
  simp [flashEffect, systemEffect]
  repeat' first
    | with_reducible assumption
    | with_reducible apply rxPop_frame
    | with_reducible apply setCursor_frame
    | with_reducible apply accessFault_frame
    | with_reducible apply setBank_frame
    | with_reducible apply updPwr_frame
    | with_reducible apply courierReset_frame
    | with_reducible apply scrubStopReq_frame
    | with_reducible apply raise_frame
    | with_reducible apply handoverSwitch_frame
    | with_reducible apply orReg_frame
    | with_reducible apply pump_frame
    | with_reducible apply updWindow_frame
    | with_reducible apply jobPlace_frame
    | (with_reducible apply frame_ite)
    | (with_reducible apply frame_foldl)
    | exact of_decide_eq_true rfl
    | intro _
    | split
theorem may_rngEnumCommand (x0 : Initiator) (x1 : Word) (h : exec (.rngEnumCommand x0 x1) s = .next t) :
    OnlyChanges (mayChange (.rngEnumCommand x0 x1)) s t := by
  rw [← Host.Outcome.next.inj h]
  refine access_frame (b := .rng) (u := 0) (o := 0x54) (by rfl) (by rfl) (by decide) (by rfl)
    (of_decide_eq_true rfl) (of_decide_eq_true rfl) (of_decide_eq_true rfl) (of_decide_eq_true rfl) (of_decide_eq_true rfl) ?_
  intro z v n hv hz
  simp [flashEffect, systemEffect]
  repeat' first
    | with_reducible assumption
    | with_reducible apply enumCommand_frame
    | with_reducible apply setCursor_frame
    | with_reducible apply accessFault_frame
    | with_reducible apply setBank_frame
    | with_reducible apply updPwr_frame
    | with_reducible apply courierReset_frame
    | with_reducible apply scrubStopReq_frame
    | with_reducible apply raise_frame
    | with_reducible apply handoverSwitch_frame
    | with_reducible apply orReg_frame
    | with_reducible apply pump_frame
    | with_reducible apply updWindow_frame
    | with_reducible apply jobPlace_frame
    | (with_reducible apply frame_ite)
    | (with_reducible apply frame_foldl)
    | exact of_decide_eq_true rfl
    | intro _
    | split
theorem may_norRead (x0 : Initiator) (h : exec (.norRead x0) s = .next t) :
    OnlyChanges (mayChange (.norRead x0)) s t := by
  rw [← Host.Outcome.next.inj h]
  refine access_frame (b := .cfg) (u := 0) (o := 0x90) (by rfl) (by rfl) (by decide) (by rfl)
    (of_decide_eq_true rfl) (of_decide_eq_true rfl) (of_decide_eq_true rfl) (of_decide_eq_true rfl) (of_decide_eq_true rfl) ?_
  intro z v n hv hz
  simp [flashEffect, systemEffect]
  repeat' first
    | with_reducible assumption
    | with_reducible apply norStart_frame
    | with_reducible apply setCursor_frame
    | with_reducible apply accessFault_frame
    | with_reducible apply setBank_frame
    | with_reducible apply updPwr_frame
    | with_reducible apply courierReset_frame
    | with_reducible apply scrubStopReq_frame
    | with_reducible apply raise_frame
    | with_reducible apply handoverSwitch_frame
    | with_reducible apply orReg_frame
    | with_reducible apply pump_frame
    | with_reducible apply updWindow_frame
    | with_reducible apply jobPlace_frame
    | (with_reducible apply frame_ite)
    | (with_reducible apply frame_foldl)
    | exact of_decide_eq_true rfl
    | intro _
    | split
theorem may_norWrite (x0 : Initiator) (h : exec (.norWrite x0) s = .next t) :
    OnlyChanges (mayChange (.norWrite x0)) s t := by
  rw [← Host.Outcome.next.inj h]
  refine access_frame (b := .cfg) (u := 0) (o := 0x90) (by rfl) (by rfl) (by decide) (by rfl)
    (of_decide_eq_true rfl) (of_decide_eq_true rfl) (of_decide_eq_true rfl) (of_decide_eq_true rfl) (of_decide_eq_true rfl) ?_
  intro z v n hv hz
  simp [flashEffect, systemEffect]
  repeat' first
    | with_reducible assumption
    | with_reducible apply norStart_frame
    | with_reducible apply setCursor_frame
    | with_reducible apply accessFault_frame
    | with_reducible apply setBank_frame
    | with_reducible apply updPwr_frame
    | with_reducible apply courierReset_frame
    | with_reducible apply scrubStopReq_frame
    | with_reducible apply raise_frame
    | with_reducible apply handoverSwitch_frame
    | with_reducible apply orReg_frame
    | with_reducible apply pump_frame
    | with_reducible apply updWindow_frame
    | with_reducible apply jobPlace_frame
    | (with_reducible apply frame_ite)
    | (with_reducible apply frame_foldl)
    | exact of_decide_eq_true rfl
    | intro _
    | split
theorem may_norBasewr (x0 : Initiator) (h : exec (.norBasewr x0) s = .next t) :
    OnlyChanges (mayChange (.norBasewr x0)) s t := by
  rw [← Host.Outcome.next.inj h]
  refine access_frame (b := .cfg) (u := 0) (o := 0x90) (by rfl) (by rfl) (by decide) (by rfl)
    (of_decide_eq_true rfl) (of_decide_eq_true rfl) (of_decide_eq_true rfl) (of_decide_eq_true rfl) (of_decide_eq_true rfl) ?_
  intro z v n hv hz
  simp [flashEffect, systemEffect]
  repeat' first
    | with_reducible assumption
    | with_reducible apply norStart_frame
    | with_reducible apply setCursor_frame
    | with_reducible apply accessFault_frame
    | with_reducible apply setBank_frame
    | with_reducible apply updPwr_frame
    | with_reducible apply courierReset_frame
    | with_reducible apply scrubStopReq_frame
    | with_reducible apply raise_frame
    | with_reducible apply handoverSwitch_frame
    | with_reducible apply orReg_frame
    | with_reducible apply pump_frame
    | with_reducible apply updWindow_frame
    | with_reducible apply jobPlace_frame
    | (with_reducible apply frame_ite)
    | (with_reducible apply frame_foldl)
    | exact of_decide_eq_true rfl
    | intro _
    | split
theorem may_norOvlwr (x0 : Initiator) (h : exec (.norOvlwr x0) s = .next t) :
    OnlyChanges (mayChange (.norOvlwr x0)) s t := by
  rw [← Host.Outcome.next.inj h]
  refine access_frame (b := .cfg) (u := 0) (o := 0x90) (by rfl) (by rfl) (by decide) (by rfl)
    (of_decide_eq_true rfl) (of_decide_eq_true rfl) (of_decide_eq_true rfl) (of_decide_eq_true rfl) (of_decide_eq_true rfl) ?_
  intro z v n hv hz
  simp [flashEffect, systemEffect]
  repeat' first
    | with_reducible assumption
    | with_reducible apply norStart_frame
    | with_reducible apply setCursor_frame
    | with_reducible apply accessFault_frame
    | with_reducible apply setBank_frame
    | with_reducible apply updPwr_frame
    | with_reducible apply courierReset_frame
    | with_reducible apply scrubStopReq_frame
    | with_reducible apply raise_frame
    | with_reducible apply handoverSwitch_frame
    | with_reducible apply orReg_frame
    | with_reducible apply pump_frame
    | with_reducible apply updWindow_frame
    | with_reducible apply jobPlace_frame
    | (with_reducible apply frame_ite)
    | (with_reducible apply frame_foldl)
    | exact of_decide_eq_true rfl
    | intro _
    | split
theorem may_norSlotwr (x0 : Initiator) (x1 : Bool) (h : exec (.norSlotwr x0 x1) s = .next t) :
    OnlyChanges (mayChange (.norSlotwr x0 x1)) s t := by
  rw [← Host.Outcome.next.inj h]
  refine access_frame (b := .cfg) (u := 0) (o := 0x90) (by rfl) (by rfl) (by decide) (by rfl)
    (of_decide_eq_true rfl) (of_decide_eq_true rfl) (of_decide_eq_true rfl) (of_decide_eq_true rfl) (of_decide_eq_true rfl) ?_
  intro z v n hv hz
  simp [flashEffect, systemEffect]
  repeat' first
    | with_reducible assumption
    | with_reducible apply norStart_frame
    | with_reducible apply setCursor_frame
    | with_reducible apply accessFault_frame
    | with_reducible apply setBank_frame
    | with_reducible apply updPwr_frame
    | with_reducible apply courierReset_frame
    | with_reducible apply scrubStopReq_frame
    | with_reducible apply raise_frame
    | with_reducible apply handoverSwitch_frame
    | with_reducible apply orReg_frame
    | with_reducible apply pump_frame
    | with_reducible apply updWindow_frame
    | with_reducible apply jobPlace_frame
    | (with_reducible apply frame_ite)
    | (with_reducible apply frame_foldl)
    | exact of_decide_eq_true rfl
    | intro _
    | split
theorem may_norBootrec (x0 : Initiator) (x1 : Bool) (x2 : Bool) (x3 : Bool) (h : exec (.norBootrec x0 x1 x2 x3) s = .next t) :
    OnlyChanges (mayChange (.norBootrec x0 x1 x2 x3)) s t := by
  rw [← Host.Outcome.next.inj h]
  refine access_frame (b := .cfg) (u := 0) (o := 0x90) (by rfl) (by rfl) (by decide) (by rfl)
    (of_decide_eq_true rfl) (of_decide_eq_true rfl) (of_decide_eq_true rfl) (of_decide_eq_true rfl) (of_decide_eq_true rfl) ?_
  intro z v n hv hz
  simp [flashEffect, systemEffect]
  repeat' first
    | with_reducible assumption
    | with_reducible apply norStart_frame
    | with_reducible apply setCursor_frame
    | with_reducible apply accessFault_frame
    | with_reducible apply setBank_frame
    | with_reducible apply updPwr_frame
    | with_reducible apply courierReset_frame
    | with_reducible apply scrubStopReq_frame
    | with_reducible apply raise_frame
    | with_reducible apply handoverSwitch_frame
    | with_reducible apply orReg_frame
    | with_reducible apply pump_frame
    | with_reducible apply updWindow_frame
    | with_reducible apply jobPlace_frame
    | (with_reducible apply frame_ite)
    | (with_reducible apply frame_foldl)
    | exact of_decide_eq_true rfl
    | intro _
    | split
theorem may_norIdwr (x0 : Initiator) (h : exec (.norIdwr x0) s = .next t) :
    OnlyChanges (mayChange (.norIdwr x0)) s t := by
  rw [← Host.Outcome.next.inj h]
  refine access_frame (b := .cfg) (u := 0) (o := 0x90) (by rfl) (by rfl) (by decide) (by rfl)
    (of_decide_eq_true rfl) (of_decide_eq_true rfl) (of_decide_eq_true rfl) (of_decide_eq_true rfl) (of_decide_eq_true rfl) ?_
  intro z v n hv hz
  simp [flashEffect, systemEffect]
  repeat' first
    | with_reducible assumption
    | with_reducible apply norStart_frame
    | with_reducible apply setCursor_frame
    | with_reducible apply accessFault_frame
    | with_reducible apply setBank_frame
    | with_reducible apply updPwr_frame
    | with_reducible apply courierReset_frame
    | with_reducible apply scrubStopReq_frame
    | with_reducible apply raise_frame
    | with_reducible apply handoverSwitch_frame
    | with_reducible apply orReg_frame
    | with_reducible apply pump_frame
    | with_reducible apply updWindow_frame
    | with_reducible apply jobPlace_frame
    | (with_reducible apply frame_ite)
    | (with_reducible apply frame_foldl)
    | exact of_decide_eq_true rfl
    | intro _
    | split
theorem may_avselWrite (x0 : Initiator) (x1 : Word) (h : exec (.avselWrite x0 x1) s = .next t) :
    OnlyChanges (mayChange (.avselWrite x0 x1)) s t := by
  rw [← Host.Outcome.next.inj h]
  refine access_frame (b := .pwr) (u := 0) (o := 0x38) (by rfl) (by rfl) (by decide) (by rfl)
    (of_decide_eq_true rfl) (of_decide_eq_true rfl) (of_decide_eq_true rfl) (of_decide_eq_true rfl) (of_decide_eq_true rfl) ?_
  intro z v n hv hz
  simp [flashEffect, systemEffect]
  repeat' first
    | with_reducible assumption
    | with_reducible apply avsel_frame
    | with_reducible apply setCursor_frame
    | with_reducible apply accessFault_frame
    | with_reducible apply setBank_frame
    | with_reducible apply updPwr_frame
    | with_reducible apply courierReset_frame
    | with_reducible apply scrubStopReq_frame
    | with_reducible apply raise_frame
    | with_reducible apply handoverSwitch_frame
    | with_reducible apply orReg_frame
    | with_reducible apply pump_frame
    | with_reducible apply updWindow_frame
    | with_reducible apply jobPlace_frame
    | (with_reducible apply frame_ite)
    | (with_reducible apply frame_foldl)
    | exact of_decide_eq_true rfl
    | intro _
    | split
theorem retire_frame {F : List Part} {i : Initiator} {a v off : Nat} (hl : locate a = some (.map, 0, off))
    (ho : (findReg .map 0 off).map (fun x => x.start) = some off) (h4 : off ≠ 4) (hm : (off == 0x110 || (0x180 ≤ off && off < 0x200)) = true)
    (m1 : Part.out ∈ F) (m3 : Part.regs ∈ F) (m4 : Part.portA ∈ F) (m5 : Part.portB ∈ F) (m6 : Part.evr ∈ F)
    (m2 : Part.clk ∈ F) (m14 : Part.dram ∈ F) (m15 : Part.phc ∈ F) (m16 : Part.map ∈ F) (m17 : Part.flash ∈ F) (m18 : Part.jrc ∈ F)
    (m19 : Part.srt ∈ F) (m21 : Part.pat ∈ F) (m22 : Part.mem ∈ F) : OnlyChanges F s (writeAccess s i a 4 v {}) := by
  refine access_frame_of hl m1 m3 m4 m5 m6 fun x w hx hw => ?_
  have hs : x.start = off := by rw [hx] at ho; exact Option.some.inj ho
  unfold regStore
  dsimp only
  rw [hs, if_neg h4, hm]
  split
  · exact OnlyChanges.refl F s
  · exact retireWrite_frame (OnlyChanges.refl F s) m1 m2 m3 m4 m5 m6 m14 m15 m16 m17 m18 m19 m21 m22
theorem loc_retire (c : Fin 32) : locate (0x30180 + 4 * c.val) = some (.map, 0, 0x180 + 4 * c.val) := by revert c; decide
theorem reg_retire (c : Fin 32) : (findReg .map 0 (0x180 + 4 * c.val)).map (fun x => x.start) = some (0x180 + 4 * c.val) := by
  revert c; decide
theorem may_lunRetire (x0 : Initiator) (x1 x2 : Fin 32) (h : exec (.lunRetire x0 x1 x2) s = .next t) :
    OnlyChanges (mayChange (.lunRetire x0 x1 x2)) s t := by
  rw [← Host.Outcome.next.inj h]
  refine retire_frame (loc_retire x1) (reg_retire x1) (by omega) ?_ ?_ ?_ ?_ ?_ ?_ ?_ ?_ ?_ ?_ ?_ ?_ ?_ ?_ ?_
  · have := x1.isLt
    simp; omega
  all_goals exact of_decide_eq_true rfl
theorem may_channelRetire (x0 : Initiator) (x1 : Fin 32) (h : exec (.channelRetire x0 x1) s = .next t) :
    OnlyChanges (mayChange (.channelRetire x0 x1)) s t := by
  rw [← Host.Outcome.next.inj h]
  refine retire_frame (by rfl) (by rfl) (by decide) (by decide) ?_ ?_ ?_ ?_ ?_ ?_ ?_ ?_ ?_ ?_ ?_ ?_ ?_ ?_ <;> exact of_decide_eq_true rfl
theorem may_registerWrite (x0 : Initiator) (x1 x2 : Nat) (x3 : Dword) (h : exec (.registerWrite x0 x1 x2 x3) s = .next t) :
    OnlyChanges (mayChange (.registerWrite x0 x1 x2 x3)) s t := by
  rw [← Host.Outcome.next.inj h]
  apply writeAccess_frame (OnlyChanges.refl _ s) <;> exact of_decide_eq_true rfl
theorem may_blockCtlWrite (x0 : Initiator) (x1 : Blk) (x2 : Fin 32) (x3 : Word) (h : exec (.blockCtlWrite x0 x1 x2 x3) s = .next t) :
    OnlyChanges (mayChange (.blockCtlWrite x0 x1 x2 x3)) s t := by
  rw [← Host.Outcome.next.inj h]
  apply writeAccess_frame (OnlyChanges.refl _ s) <;> exact of_decide_eq_true rfl
theorem may_cfgRstWarm (x0 : Initiator) (x1 : Word) (h : exec (.cfgRstWarm x0 x1) s = .next t) :
    OnlyChanges (mayChange (.cfgRstWarm x0 x1)) s t := by
  rw [← Host.Outcome.next.inj h]
  apply writeAccess_frame (OnlyChanges.refl _ s) <;> exact of_decide_eq_true rfl
theorem may_bar2Access (x0 : Port) (x1 x2 : Nat) (x3 : Option Dword) (h : exec (.bar2Access x0 x1 x2 x3) s = .next t) :
    OnlyChanges (mayChange (.bar2Access x0 x1 x2 x3)) s t := by
  rw [← Host.Outcome.next.inj h]
  cases x3
  · apply readAccess_frame (OnlyChanges.refl _ s) <;> exact of_decide_eq_true rfl
  · apply writeAccess_frame (OnlyChanges.refl _ s) <;> exact of_decide_eq_true rfl

end Sys2Proof.Machine
end

