-- ==== Sys2Proof/Laws/Keeps.lean ====
section
/-! SUPPORT. What every operation keeps: the queue of waiting commands, the canonical form of the tables, and blown fuses.
Here the relation and the laws of the plain updates; the files Keeps<Group> give one law for each operation. -/

set_option Elab.async false

namespace Sys2Proof.Machine

/-- From z to t the queue stays, the canonical form is kept, and no fuse is cleared. -/
structure Keeps (z t : State) : Prop where
  queue : t.pending = z.pending
  canon : Canon z → Canon t
  fuses : FusesKept z t

theorem SlotKept.refl (a : KeySlot) : SlotKept a a := ⟨fun h => ⟨h, rfl⟩, id⟩
theorem SlotKept.trans {a b c : KeySlot} (h : SlotKept a b) (k : SlotKept b c) : SlotKept a c :=
  ⟨fun x => let y := h.programmed x; let w := k.programmed y.1; ⟨w.1, w.2.trans y.2⟩, fun x => k.revoked (h.revoked x)⟩
theorem FusesKept.refl (s : State) : FusesKept s s := ⟨Nat.le_refl _, fun _ => SlotKept.refl _⟩
theorem FusesKept.trans {a b c : State} (h : FusesKept a b) (k : FusesKept b c) : FusesKept a c :=
  ⟨Nat.le_trans h.minsvn k.minsvn, fun i => (h.slots i).trans (k.slots i)⟩
theorem Keeps.refl (s : State) : Keeps s s := ⟨rfl, id, FusesKept.refl s⟩
theorem Keeps.trans {a b c : State} (h : Keeps a b) (k : Keeps b c) : Keeps a c :=
  ⟨k.queue.trans h.queue, fun x => k.canon (h.canon x), h.fuses.trans k.fuses⟩

variable {z s : State}

/-- An update of anything but the queue, the registers and the DRAM that leaves the fuses and the NOR as they are. -/
theorem keeps_upd {x : State} (h : Keeps z x) {out clk portA portB evr thm pwr chip ring sec cry boot phc map flash jrc srt prog pat mem}
    (hs : Sec.slots sec = x.sec.slots) (hm : Sec.minsvn sec = x.sec.minsvn) (hn : Boot.nor boot = x.boot.nor) :
    Keeps z ⟨x.pending, out, clk, x.regs, portA, portB, evr, thm, pwr, chip, ring, sec, cry, boot, x.dram, phc, map, flash, jrc, srt,
      prog, pat, mem⟩ := by
  refine h.trans ⟨rfl, fun c => ⟨c.regs, c.dram, ?_⟩, ⟨Nat.le_of_eq hm.symm, fun k => ?_⟩⟩
  · simpa only [hn] using c.nor
  · rw [show (Sec.slots sec) = x.sec.slots from hs]; exact SlotKept.refl _

theorem keeps_regs {x : State} (h : Keeps z x) {regs} (hr : nsorted none x.regs = true → nsorted none regs = true) :
    Keeps z { x with regs := regs } :=
  h.trans ⟨rfl, fun c => ⟨hr c.regs, c.dram, c.nor⟩, ⟨Nat.le_refl _, fun _ => SlotKept.refl _⟩⟩
theorem keeps_dram {x : State} (h : Keeps z x) {dram} (hr : memWf 0 x.dram = true → memWf 0 dram = true) :
    Keeps z { x with dram := dram } :=
  h.trans ⟨rfl, fun c => ⟨c.regs, hr c.dram, c.nor⟩, ⟨Nat.le_refl _, fun _ => SlotKept.refl _⟩⟩
theorem keeps_dram_write {x : State} (h : Keeps z x) (a : Nat) (l : List Byte) :
    Keeps z { x with dram := memWrites 0 x.dram a l } := keeps_dram h (memWf_memWrites a l)
theorem keeps_dram_filter {x : State} (h : Keeps z x) (p : Nat × Byte → Bool) :
    Keeps z { x with dram := x.dram.filter p } := keeps_dram h (memWf_filter p)
theorem keeps_dram_puts {x : State} (h : Keeps z x) (base : Nat) (l : NMap Byte) :
    Keeps z { x with dram := l.foldl (fun d e => memWrite 0 d (base + e.1) e.2) x.dram } :=
  keeps_dram h fun hr => by
    generalize x.dram = d at hr
    induction l generalizing d with
    | nil => exact hr
    | cons e r ih => exact ih _ (memWf_memWrite _ _ hr)
theorem keeps_nor {x : State} (h : Keeps z x) {boot} (hr : memWf 0xFF x.boot.nor = true → memWf 0xFF (Boot.nor boot) = true) :
    Keeps z { x with boot := boot } :=
  h.trans ⟨rfl, fun c => ⟨c.regs, c.dram, hr c.nor⟩, ⟨Nat.le_refl _, fun _ => SlotKept.refl _⟩⟩

/-! ## Control -/

theorem keeps_ite {a b : State} {c : Prop} [Decidable c] (ha : Keeps z a) (hb : Keeps z b) : Keeps z (if c then a else b) := by
  split <;> assumption
theorem keeps_dite {a b : State} {c : Prop} [Decidable c] (ha : c → Keeps z a) (hb : ¬c → Keeps z b) :
    Keeps z (if c then a else b) := by
  split
  · exact ha ‹_›
  · exact hb ‹_›
theorem keeps_ite_fst {α : Type} {a b : State × α} {c : Prop} [Decidable c] (ha : Keeps z a.1) (hb : Keeps z b.1) :
    Keeps z (if c then a else b).1 := by split <;> assumption
theorem keeps_foldl {β : Type} {g : State → β → State} {l : List β} (hg : ∀ x b, Keeps z x → Keeps z (g x b)) (h : Keeps z s) :
    Keeps z (l.foldl g s) := by
  induction l generalizing s with
  | nil => exact h
  | cons b r ih => exact ih (hg s b h)
theorem keeps_foldr {β : Type} {g : β → State → State} {l : List β} (hg : ∀ b x, Keeps z x → Keeps z (g b x)) (h : Keeps z s) :
    Keeps z (l.foldr g s) := by
  induction l with
  | nil => exact h
  | cons b r ih => exact hg b _ ih
theorem keeps_foldl_fst {α β : Type} {g : State × α → β → State × α} {l : List β} {p : State × α}
    (hg : ∀ x b, Keeps z x.1 → Keeps z (g x b).1) (h : Keeps z p.1) : Keeps z (l.foldl g p).1 := by
  induction l generalizing p with
  | nil => exact h
  | cons b r ih => exact ih (hg p b h)
theorem keeps_of_eq {α : Type} {p : State × α} {x : State} {y : α} (e : p = (x, y)) (h : Keeps z p.1) : Keeps z x := by
  rw [e] at h; exact h

/-! ## Field updates -/

theorem updSec_keeps {f} (h : Keeps z s) (hs : (f s.sec).slots = s.sec.slots ∧ (f s.sec).minsvn = s.sec.minsvn) : Keeps z (updSec s f) :=
  keeps_upd h hs.1 hs.2 rfl
theorem updBoot_keeps {f} (h : Keeps z s) (hs : (f s.boot).nor = s.boot.nor) : Keeps z (updBoot s f) := keeps_upd h rfl rfl hs
theorem updClk_keeps {f} (h : Keeps z s) : Keeps z (updClk s f) := keeps_upd h rfl rfl rfl
theorem updEvr_keeps {f} (h : Keeps z s) : Keeps z (updEvr s f) := keeps_upd h rfl rfl rfl
theorem updThm_keeps {f} (h : Keeps z s) : Keeps z (updThm s f) := keeps_upd h rfl rfl rfl
theorem updPwr_keeps {f} (h : Keeps z s) : Keeps z (updPwr s f) := keeps_upd h rfl rfl rfl
theorem updChip_keeps {f} (h : Keeps z s) : Keeps z (updChip s f) := keeps_upd h rfl rfl rfl
theorem updRing_keeps {f} (h : Keeps z s) : Keeps z (updRing s f) := keeps_upd h rfl rfl rfl
theorem updCry_keeps {f} (h : Keeps z s) : Keeps z (updCry s f) := keeps_upd h rfl rfl rfl
theorem updPhc_keeps {f} (h : Keeps z s) : Keeps z (updPhc s f) := keeps_upd h rfl rfl rfl
theorem updMap_keeps {f} (h : Keeps z s) : Keeps z (updMap s f) := keeps_upd h rfl rfl rfl
theorem updTab_keeps {f} (h : Keeps z s) : Keeps z (updTab s f) := keeps_upd h rfl rfl rfl
theorem updFlash_keeps {f} (h : Keeps z s) : Keeps z (updFlash s f) := keeps_upd h rfl rfl rfl
theorem updJrc_keeps {f} (h : Keeps z s) : Keeps z (updJrc s f) := keeps_upd h rfl rfl rfl
theorem updSrt_keeps {f} (h : Keeps z s) : Keeps z (updSrt s f) := keeps_upd h rfl rfl rfl
theorem updPat_keeps {f} (h : Keeps z s) : Keeps z (updPat s f) := keeps_upd h rfl rfl rfl
theorem updMem_keeps {f} (h : Keeps z s) : Keeps z (updMem s f) := keeps_upd h rfl rfl rfl

theorem wr_keeps {a v} (h : Keeps z s) : Keeps z (wr s a v) := keeps_regs h (nsorted_nset _ _)
theorem setPort_keeps {p x} (h : Keeps z s) : Keeps z (setPort s p x) := by
  cases p <;> exact keeps_upd h rfl rfl rfl
theorem modPort_keeps {p f} (h : Keeps z s) : Keeps z (modPort s p f) := setPort_keeps h
theorem freshBelow_keeps {n} (h : Keeps z s) : Keeps z (freshBelow s n).1 := keeps_upd h rfl rfl rfl

end Sys2Proof.Machine
end

