-- ==== Sys2Proof/Laws/KeepsOps.lean ====
section
/-! SUPPORT. What the operations keep (Laws/Keeps.lean): signalling, the queues, the map tables, the thermal round and the cache. One law for each operation. -/

set_option Elab.async false
set_option linter.unusedTactic false
set_option linter.unreachableTactic false

namespace Sys2Proof.Machine

variable {z s : State}

theorem orReg_keeps {a : Nat} {m : Nat} (hz : Keeps z s) : Keeps z (orReg s a m) := by
  unfold orReg
  repeat' first
    | with_reducible assumption
    | (with_reducible apply wr_keeps)

theorem wrField_keeps {a : Nat} {hi : Nat} {lo : Nat} {v : Nat} (hz : Keeps z s) : Keeps z (wrField s a hi lo v) := by
  unfold wrField
  repeat' first
    | with_reducible assumption
    | (with_reducible apply wr_keeps)

theorem satAdd_keeps {a : Nat} {hi : Nat} {lo : Nat} {n : Nat} (hz : Keeps z s) : Keeps z (satAdd s a hi lo n) := by
  unfold satAdd
  repeat' first
    | with_reducible assumption
    | (with_reducible apply wrField_keeps)

theorem wrapAdd_keeps {a : Nat} {n : Nat} (hz : Keeps z s) : Keeps z (wrapAdd s a n) := by
  unfold wrapAdd
  repeat' first
    | with_reducible assumption
    | (with_reducible apply wr_keeps)

theorem setActive_keeps {b : Blk} {u : Nat} {on : Bool} (hz : Keeps z s) : Keeps z (setActive s b u on) := by
  unfold setActive
  repeat' first
    | with_reducible assumption
    | (with_reducible apply wrField_keeps)
    | (with_reducible apply keeps_ite)
    | split

theorem emit_keeps {o : Out} (hz : Keeps z s) : Keeps z (emit s o) := by
  unfold emit
  repeat' first
    | with_reducible assumption
    | (fail_if_no_progress with_reducible refine keeps_upd ?_ rfl rfl rfl)

theorem enqueue_keeps {c : Cand} (hz : Keeps z s) : Keeps z (enqueue s c) := by
  unfold enqueue
  repeat' first
    | with_reducible assumption
    | (with_reducible apply satAdd_keeps)
    | (with_reducible apply keeps_ite)
    | (intro b; refine (fun (_ : Keeps z b) => ?_) ?_; clear_value b; swap; dsimp only [b]; swap)
    | (intro b; clear_value b)
    | intro b
    | lift_lets
    | split
    | (fail_if_no_progress with_reducible refine keeps_upd ?_ rfl rfl rfl)
    | dsimp only

theorem admitCand_keeps {c : Cand} (hz : Keeps z s) : Keeps z (admitCand s c) := by
  unfold admitCand
  repeat' first
    | with_reducible assumption
    | (with_reducible apply enqueue_keeps)
    | (with_reducible apply satAdd_keeps)
    | (with_reducible apply keeps_ite)
    | (intro b; refine (fun (_ : Keeps z b) => ?_) ?_; clear_value b; swap; dsimp only [b]; swap)
    | (intro b; clear_value b)
    | intro b
    | lift_lets
    | split
    | (fail_if_no_progress with_reducible refine keeps_upd ?_ rfl rfl rfl)

theorem msixSend_keeps {p : Port} {v : Nat} (hz : Keeps z s) : Keeps z (msixSend s p v) := by
  unfold msixSend
  repeat' first
    | with_reducible assumption
    | (with_reducible apply setPort_keeps)
    | (with_reducible apply emit_keeps)
    | (with_reducible apply keeps_ite)
    | (intro b; refine (fun (_ : Keeps z b) => ?_) ?_; clear_value b; swap; dsimp only [b]; swap)
    | (intro b; clear_value b)
    | intro b
    | lift_lets
    | split
    | (fail_if_no_progress with_reducible refine keeps_upd ?_ rfl rfl rfl)

theorem vendorMsg_keeps {p : Port} {v : Nat} (hz : Keeps z s) : Keeps z (vendorMsg s p v) := by
  unfold vendorMsg
  repeat' first
    | with_reducible assumption
    | (with_reducible apply setPort_keeps)
    | (with_reducible apply msixSend_keeps)
    | (with_reducible apply keeps_ite)
    | (intro b; refine (fun (_ : Keeps z b) => ?_) ?_; clear_value b; swap; dsimp only [b]; swap)
    | (intro b; clear_value b)
    | intro b
    | lift_lets
    | split
    | (fail_if_no_progress with_reducible refine keeps_upd ?_ rfl rfl rfl)

theorem setMapBit_keeps {base : Nat → Nat} {n : Nat} (hz : Keeps z s) : Keeps z (setMapBit s base n) := by
  unfold setMapBit
  repeat' first
    | with_reducible assumption
    | (with_reducible apply orReg_keeps)
    | (with_reducible apply hf)

theorem raiseWith_keeps {n : Nat} {payload : List Byte} {origin : optParam Nat 10} (hz : Keeps z s) : Keeps z (raiseWith s n payload origin) := by
  unfold raiseWith
  repeat' first
    | with_reducible assumption
    | (with_reducible apply setMapBit_keeps)
    | (with_reducible apply vendorMsg_keeps)
    | (with_reducible apply admitCand_keeps)
    | (with_reducible apply keeps_ite)
    | (with_reducible refine keeps_foldl (fun x b hx => ?_) ?_)
    | (intro b; refine (fun (_ : Keeps z b) => ?_) ?_; clear_value b; swap; dsimp only [b]; swap)
    | (intro b; clear_value b)
    | intro b
    | lift_lets
    | split

theorem raise_keeps {n : Nat} (hz : Keeps z s) : Keeps z (raise s n) := by
  unfold raise
  repeat' first
    | with_reducible assumption
    | (with_reducible apply raiseWith_keeps)

theorem setCause_keeps {a : Nat} {bit : Nat} {src : Nat} (hz : Keeps z s) : Keeps z (setCause s a bit src) := by
  unfold setCause
  repeat' first
    | with_reducible assumption
    | (with_reducible apply raise_keeps)
    | (with_reducible apply orReg_keeps)
    | (with_reducible apply keeps_ite)
    | split

theorem accessFault_keeps {b : Blk} {u : Nat} {bit : Nat} {kind : Nat} {init : Nat} {off : Nat} (hz : Keeps z s) : Keeps z (accessFault s b u bit kind init off) := by
  unfold accessFault
  repeat' first
    | with_reducible assumption
    | (with_reducible apply wr_keeps)
    | (with_reducible apply raiseWith_keeps)
    | (with_reducible apply keeps_ite)
    | (intro b; refine (fun (_ : Keeps z b) => ?_) ?_; clear_value b; swap; dsimp only [b]; swap)
    | (intro b; clear_value b)
    | intro b
    | lift_lets
    | split
    | dsimp only

theorem noteCause_keeps {a : Nat} {bit : Nat} {src : Nat} (hz : Keeps z s) : Keeps z (noteCause s a bit src) := by
  unfold noteCause
  repeat' first
    | with_reducible assumption
    | (with_reducible apply raise_keeps)
    | (with_reducible apply orReg_keeps)

theorem jramUe_keeps (hz : Keeps z s) : Keeps z (jramUe s) := by
  unfold jramUe
  repeat' first
    | with_reducible assumption
    | (with_reducible apply raise_keeps)
    | (with_reducible apply orReg_keeps)

theorem cqInterrupt_keeps {p : Port} {cqid : Nat} {q : Cq} (hz : Keeps z s) : Keeps z (cqInterrupt s p cqid q) := by
  unfold cqInterrupt
  repeat' first
    | with_reducible assumption
    | (with_reducible apply msixSend_keeps)
    | (with_reducible apply modPort_keeps)
    | (with_reducible apply keeps_ite)
    | (intro b; refine (fun (_ : Keeps z b) => ?_) ?_; clear_value b; swap; dsimp only [b]; swap)
    | (intro b; clear_value b)
    | intro b
    | lift_lets
    | split
    | (fail_if_no_progress with_reducible refine keeps_upd ?_ rfl rfl rfl)
    | dsimp only

theorem placeCompl_keeps {p : Port} {cqid : Nat} {q : Cq} {c : Compl} (hz : Keeps z s) : Keeps z (placeCompl s p cqid q c) := by
  unfold placeCompl
  repeat' first
    | with_reducible assumption
    | (with_reducible apply modPort_keeps)
    | (with_reducible apply emit_keeps)
    | (with_reducible apply cqInterrupt_keeps)
    | (with_reducible apply raise_keeps)
    | (with_reducible apply keeps_ite)
    | (intro b; refine (fun (_ : Keeps z b) => ?_) ?_; clear_value b; swap; dsimp only [b]; swap)
    | (intro b; clear_value b)
    | intro b
    | lift_lets
    | split
    | (fail_if_no_progress with_reducible refine keeps_upd ?_ rfl rfl rfl)

theorem post_keeps {c : Compl} (hz : Keeps z s) : Keeps z (post s c) := by
  unfold post
  repeat' first
    | with_reducible assumption
    | (with_reducible apply setPort_keeps)
    | (with_reducible apply placeCompl_keeps)
    | (with_reducible apply keeps_ite)
    | (intro b; refine (fun (_ : Keeps z b) => ?_) ?_; clear_value b; swap; dsimp only [b]; swap)
    | (intro b; clear_value b)
    | intro b
    | lift_lets
    | split
    | (fail_if_no_progress with_reducible refine keeps_upd ?_ rfl rfl rfl)
    | dsimp only

theorem abortAfter_keeps {p : Port} (hz : Keeps z s) : Keeps z (abortAfter s p) := by
  unfold abortAfter
  repeat' first
    | with_reducible assumption
    | (with_reducible apply post_keeps)
    | (with_reducible apply modPort_keeps)
    | (with_reducible apply keeps_ite)
    | split
    | (fail_if_no_progress with_reducible refine keeps_upd ?_ rfl rfl rfl)
    | dsimp only

theorem postHeld_keeps {n : Nat} {p : Port} {cqid : Nat} (h : Keeps z s) : Keeps z (postHeld n s p cqid) := by
  induction n generalizing s with
  | zero => exact h
  | succ n ih =>
    unfold postHeld
    repeat' first
      | assumption
      | (with_reducible apply ih)
      | (with_reducible apply placeCompl_keeps)
      | (with_reducible apply keeps_ite)
      | split

theorem addError_keeps {q : Sqe} {st : Status} {lba : Nat} {cs : Nat} (hz : Keeps z s) : Keeps z (addError s q st lba cs) := by
  unfold addError
  repeat' first
    | with_reducible assumption
    | (with_reducible apply modPort_keeps)
    | (fail_if_no_progress with_reducible refine keeps_upd ?_ rfl rfl rfl)

theorem complete_keeps {q : Sqe} {st : Status} {dw0 : optParam Nat 0} {lba : optParam Nat 0} {cs : optParam Nat 0} (hz : Keeps z s) : Keeps z (complete s q st dw0 lba cs) := by
  unfold complete
  repeat' first
    | with_reducible assumption
    | (with_reducible apply addError_keeps)
    | (with_reducible apply post_keeps)
    | (with_reducible apply keeps_ite)
    | (intro b; refine (fun (_ : Keeps z b) => ?_) ?_; clear_value b; swap; dsimp only [b]; swap)
    | (intro b; clear_value b)
    | intro b
    | lift_lets
    | split

theorem aerDeliver_keeps {p : Port} (hz : Keeps z s) : Keeps z (aerDeliver s p) := by
  unfold aerDeliver
  repeat' first
    | with_reducible assumption
    | (with_reducible apply setPort_keeps)
    | (with_reducible apply post_keeps)
    | (intro b; refine (fun (_ : Keeps z b) => ?_) ?_; clear_value b; swap; dsimp only [b]; swap)
    | (intro b; clear_value b)
    | intro b
    | lift_lets
    | split
    | (fail_if_no_progress with_reducible refine keeps_upd ?_ rfl rfl rfl)
    | dsimp only

theorem asyncEvent_keeps {p : Port} {typ : Nat} {info : Nat} {lid : Nat} (hz : Keeps z s) : Keeps z (asyncEvent s p typ info lid) := by
  unfold asyncEvent
  repeat' first
    | with_reducible assumption
    | (with_reducible apply aerDeliver_keeps)
    | (with_reducible apply setPort_keeps)
    | (with_reducible apply keeps_ite)
    | (intro b; refine (fun (_ : Keeps z b) => ?_) ?_; clear_value b; swap; dsimp only [b]; swap)
    | (intro b; clear_value b)
    | intro b
    | lift_lets
    | split
    | (fail_if_no_progress with_reducible refine keeps_upd ?_ rfl rfl rfl)

theorem asyncBoth_keeps {typ : Nat} {info : Nat} {lid : Nat} (hz : Keeps z s) : Keeps z (asyncBoth s typ info lid) := by
  unfold asyncBoth
  repeat' first
    | with_reducible assumption
    | (with_reducible apply asyncEvent_keeps)

theorem aerClear_keeps {p : Port} {lid : Nat} (hz : Keeps z s) : Keeps z (aerClear s p lid) := by
  unfold aerClear
  repeat' first
    | with_reducible assumption
    | (with_reducible apply modPort_keeps)
    | (fail_if_no_progress with_reducible refine keeps_upd ?_ rfl rfl rfl)

theorem sqDoorbell_keeps {p : Port} {qid : Nat} {tail : Nat} (hz : Keeps z s) : Keeps z (sqDoorbell s p qid tail) := by
  unfold sqDoorbell
  repeat' first
    | with_reducible assumption
    | (with_reducible apply asyncEvent_keeps)
    | (with_reducible apply setPort_keeps)
    | (with_reducible apply keeps_ite)
    | (intro b; refine (fun (_ : Keeps z b) => ?_) ?_; clear_value b; swap; dsimp only [b]; swap)
    | (intro b; clear_value b)
    | intro b
    | lift_lets
    | split
    | (fail_if_no_progress with_reducible refine keeps_upd ?_ rfl rfl rfl)
    | dsimp only

theorem cqDoorbell_keeps {p : Port} {qid : Nat} {head : Nat} (hz : Keeps z s) : Keeps z (cqDoorbell s p qid head) := by
  unfold cqDoorbell
  repeat' first
    | with_reducible assumption
    | (with_reducible apply asyncEvent_keeps)
    | (with_reducible apply abortAfter_keeps)
    | (with_reducible apply postHeld_keeps)
    | (with_reducible apply setPort_keeps)
    | (with_reducible apply keeps_ite)
    | (intro b; refine (fun (_ : Keeps z b) => ?_) ?_; clear_value b; swap; dsimp only [b]; swap)
    | (intro b; clear_value b)
    | intro b
    | lift_lets
    | split
    | (fail_if_no_progress with_reducible refine keeps_upd ?_ rfl rfl rfl)
    | dsimp only

theorem coalExpiry_keeps {p : Port} {vector : Nat} (hz : Keeps z s) : Keeps z (coalExpiry s p vector) := by
  unfold coalExpiry
  repeat' first
    | with_reducible assumption
    | (with_reducible apply msixSend_keeps)
    | (with_reducible apply setPort_keeps)
    | (with_reducible apply keeps_ite)
    | (intro b; refine (fun (_ : Keeps z b) => ?_) ?_; clear_value b; swap; dsimp only [b]; swap)
    | (intro b; clear_value b)
    | intro b
    | lift_lets
    | split
    | (fail_if_no_progress with_reducible refine keeps_upd ?_ rfl rfl rfl)

theorem msixFlush_keeps {p : Port} {v : Nat} (hz : Keeps z s) : Keeps z (msixFlush s p v) := by
  unfold msixFlush
  repeat' first
    | with_reducible assumption
    | (with_reducible apply msixSend_keeps)
    | (with_reducible apply keeps_ite)
    | split

theorem msixWrite_keeps {p : Port} {v : Nat} {mask : Bool} {addr : Nat} {data : Nat} (hz : Keeps z s) : Keeps z (msixWrite s p v mask addr data) := by
  unfold msixWrite
  repeat' first
    | with_reducible assumption
    | (with_reducible apply msixFlush_keeps)
    | (with_reducible apply setPort_keeps)
    | (with_reducible apply keeps_ite)
    | (intro b; refine (fun (_ : Keeps z b) => ?_) ?_; clear_value b; swap; dsimp only [b]; swap)
    | (intro b; clear_value b)
    | intro b
    | lift_lets
    | split
    | (fail_if_no_progress with_reducible refine keeps_upd ?_ rfl rfl rfl)

theorem anaNotice_keeps (hz : Keeps z s) : Keeps z (anaNotice s) := by
  unfold anaNotice
  repeat' first
    | with_reducible assumption
    | (with_reducible apply asyncEvent_keeps)
    | (with_reducible apply updMap_keeps)
    | (with_reducible apply keeps_ite)
    | (intro b; refine (fun (_ : Keeps z b) => ?_) ?_; clear_value b; swap; dsimp only [b]; swap)
    | (with_reducible apply hfn)
    | (intro b; refine (fun (hfn : ∀ x, Keeps z x → Keeps z (b x)) => ?_) ?_; clear_value b; swap; (intro x hx; dsimp only [b]); swap)
    | (intro b; refine (fun (hfn : ∀ x y, Keeps z x → Keeps z (b x y)) => ?_) ?_; clear_value b; swap; (intro x y hx; dsimp only [b]); swap)
    | (with_reducible apply hfc)
    | (with_reducible apply hfd)
    | (intro b; refine (fun (hfc : ∀ x, Keeps z (b x)) => ?_) ?_; clear_value b; swap; (intro x; dsimp only [b]); swap)
    | (intro b; refine (fun (hfd : ∀ x y, Keeps z (b x y)) => ?_) ?_; clear_value b; swap; (intro x y; dsimp only [b]); swap)
    | (intro b; clear_value b)
    | intro b
    | lift_lets
    | split

theorem anaAfter_keeps {old : List Nat} (hz : Keeps z s) : Keeps z (anaAfter old s) := by
  unfold anaAfter
  repeat' first
    | with_reducible assumption
    | (with_reducible apply anaNotice_keeps)
    | (with_reducible apply keeps_ite)
    | split

theorem setChip_keeps {n : Nat} (hz : Keeps z s) : Keeps z (setChip s n) := by
  unfold setChip
  repeat' first
    | with_reducible assumption
    | (with_reducible apply updMap_keeps)
    | (with_reducible apply raise_keeps)
    | (with_reducible apply asyncEvent_keeps)
    | (with_reducible apply anaNotice_keeps)
    | (with_reducible apply keeps_ite)
    | (intro b; refine (fun (_ : Keeps z b) => ?_) ?_; clear_value b; swap; dsimp only [b]; swap)
    | (with_reducible apply hfn)
    | (intro b; refine (fun (hfn : ∀ x, Keeps z x → Keeps z (b x)) => ?_) ?_; clear_value b; swap; (intro x hx; dsimp only [b]); swap)
    | (intro b; refine (fun (hfn : ∀ x y, Keeps z x → Keeps z (b x y)) => ?_) ?_; clear_value b; swap; (intro x y hx; dsimp only [b]); swap)
    | (with_reducible apply hfc)
    | (with_reducible apply hfd)
    | (intro b; refine (fun (hfc : ∀ x, Keeps z (b x)) => ?_) ?_; clear_value b; swap; (intro x; dsimp only [b]); swap)
    | (intro b; refine (fun (hfd : ∀ x y, Keeps z (b x y)) => ?_) ?_; clear_value b; swap; (intro x y; dsimp only [b]); swap)
    | (intro b; clear_value b)
    | intro b
    | lift_lets
    | split

theorem spaceUpdate_keeps (hz : Keeps z s) : Keeps z (spaceUpdate s) := by
  unfold spaceUpdate
  repeat' first
    | with_reducible assumption
    | (with_reducible apply setChip_keeps)
    | (with_reducible apply updMap_keeps)
    | (with_reducible apply raise_keeps)
    | (with_reducible apply asyncBoth_keeps)
    | (with_reducible apply keeps_ite)
    | (intro b; refine (fun (_ : Keeps z b) => ?_) ?_; clear_value b; swap; dsimp only [b]; swap)
    | (intro b; clear_value b)
    | intro b
    | lift_lets
    | split

theorem hostTemps_keeps {p : Port} {k : ℤ} (hz : Keeps z s) : Keeps z (hostTemps s p k) := by
  unfold hostTemps
  repeat' first
    | with_reducible assumption
    | (with_reducible apply setPort_keeps)
    | (with_reducible apply asyncEvent_keeps)
    | (with_reducible apply keeps_ite)
    | (with_reducible apply keeps_ite_fst)
    | (intro b; refine (fun (_ : Keeps z b) => ?_) ?_; clear_value b; swap; dsimp only [b]; swap)
    | (intro b; refine (fun (_ : Keeps z b.1) => ?_) ?_; clear_value b; swap; dsimp only [b]; swap)
    | (intro b; clear_value b)
    | intro b
    | lift_lets
    | split
    | (fail_if_no_progress with_reducible refine keeps_upd ?_ rfl rfl rfl)

theorem extBroken_keeps {ext : List Reading} {i : Nat} (hz : Keeps z s) : Keeps z (extBroken s ext i) := by
  unfold extBroken
  repeat' first
    | with_reducible assumption
    | (with_reducible apply raise_keeps)
    | (with_reducible apply orReg_keeps)
    | (with_reducible apply keeps_ite)
    | (intro b; refine (fun (_ : Keeps z b) => ?_) ?_; clear_value b; swap; dsimp only [b]; swap)
    | (intro b; clear_value b)
    | intro b
    | lift_lets
    | split

theorem thermalRound_keeps {die : List Reading} {ext : List Reading} {rails : List (Option Nat)} (hz : Keeps z s) : Keeps z (thermalRound s die ext rails) := by
  unfold thermalRound
  repeat' first
    | with_reducible assumption
    | (with_reducible apply extBroken_keeps)
    | (with_reducible apply updThm_keeps)
    | (with_reducible apply raise_keeps)
    | (with_reducible apply orReg_keeps)
    | (with_reducible apply hostTemps_keeps)
    | (with_reducible apply keeps_ite)
    | (with_reducible refine keeps_foldl (fun x b hx => ?_) ?_)
    | (intro b; refine (fun (_ : Keeps z b) => ?_) ?_; clear_value b; swap; dsimp only [b]; swap)
    | (intro b; clear_value b)
    | intro b
    | lift_lets
    | split
    | (fail_if_no_progress with_reducible refine keeps_upd ?_ rfl rfl rfl)
    | dsimp only

theorem sensorBroken_keeps {i : Nat} (hz : Keeps z s) : Keeps z (sensorBroken s i) := by
  unfold sensorBroken
  repeat' first
    | with_reducible assumption
    | (with_reducible apply raise_keeps)
    | (with_reducible apply orReg_keeps)
    | (with_reducible apply keeps_ite)
    | split

theorem throttleEdge_keeps {before : Bool} (hz : Keeps z s) : Keeps z (throttleEdge before s) := by
  unfold throttleEdge
  repeat' first
    | with_reducible assumption
    | (with_reducible apply raise_keeps)
    | (with_reducible apply orReg_keeps)
    | (with_reducible apply keeps_ite)
    | split

theorem extLimit_keeps {i : Nat} (hz : Keeps z s) : Keeps z (extLimit s i) := by
  unfold extLimit
  repeat' first
    | with_reducible assumption
    | (with_reducible apply throttleEdge_keeps)
    | (with_reducible apply raise_keeps)
    | (with_reducible apply orReg_keeps)
    | (with_reducible apply updThm_keeps)
    | (with_reducible apply keeps_ite)
    | (intro b; refine (fun (_ : Keeps z b) => ?_) ?_; clear_value b; swap; dsimp only [b]; swap)
    | (intro b; clear_value b)
    | intro b
    | lift_lets
    | split

theorem warningChange_keeps (hz : Keeps z s) : Keeps z (warningChange s) := by
  unfold warningChange
  repeat' first
    | with_reducible assumption
    | (with_reducible apply raise_keeps)
    | (with_reducible apply orReg_keeps)
    | (with_reducible apply updThm_keeps)
    | (with_reducible apply keeps_ite)
    | split
    | (fail_if_no_progress with_reducible refine keeps_upd ?_ rfl rfl rfl)

theorem throttleChange_keeps (hz : Keeps z s) : Keeps z (throttleChange s) := by
  unfold throttleChange
  repeat' first
    | with_reducible assumption
    | (with_reducible apply throttleEdge_keeps)
    | (with_reducible apply raise_keeps)
    | (with_reducible apply orReg_keeps)
    | (with_reducible apply updThm_keeps)
    | (with_reducible apply keeps_ite)
    | split
    | (fail_if_no_progress with_reducible refine keeps_upd ?_ rfl rfl rfl)

theorem bandChange_keeps (hz : Keeps z s) : Keeps z (bandChange s) := by
  unfold bandChange
  repeat' first
    | with_reducible assumption
    | (with_reducible apply raise_keeps)
    | (with_reducible apply orReg_keeps)
    | (with_reducible apply updThm_keeps)
    | (with_reducible apply keeps_ite)
    | (intro b; refine (fun (_ : Keeps z b) => ?_) ?_; clear_value b; swap; dsimp only [b]; swap)
    | (intro b; clear_value b)
    | intro b
    | lift_lets
    | split

theorem supplyOut_keeps {v : Nat} (hz : Keeps z s) : Keeps z (supplyOut s v) := by
  unfold supplyOut
  repeat' first
    | with_reducible assumption
    | (with_reducible apply raise_keeps)
    | (with_reducible apply orReg_keeps)
    | (with_reducible apply updThm_keeps)
    | (with_reducible apply keeps_ite)
    | (intro b; refine (fun (_ : Keeps z b) => ?_) ?_; clear_value b; swap; dsimp only [b]; swap)
    | (intro b; clear_value b)
    | intro b
    | lift_lets
    | split

theorem avfsEval_keeps {isl : Nat} {slack : List ℤ} (hz : Keeps z s) : Keeps z (avfsEval s isl slack) := by
  unfold avfsEval
  repeat' first
    | with_reducible assumption
    | (with_reducible apply updPwr_keeps)
    | (with_reducible apply raise_keeps)
    | (with_reducible apply orReg_keeps)
    | (with_reducible apply keeps_ite)
    | (with_reducible refine keeps_foldl (fun x b hx => ?_) ?_)
    | (intro b; refine (fun (_ : Keeps z b) => ?_) ?_; clear_value b; swap; dsimp only [b]; swap)
    | (intro b; clear_value b)
    | intro b
    | lift_lets
    | split
    | dsimp only

theorem phcTo_keeps {st : Nat} (hz : Keeps z s) : Keeps z (phcTo s st) := by
  unfold phcTo
  repeat' first
    | with_reducible assumption
    | (with_reducible apply updPhc_keeps)
    | (with_reducible apply setActive_keeps)
    | (with_reducible apply wrField_keeps)
    | (intro b; refine (fun (_ : Keeps z b) => ?_) ?_; clear_value b; swap; dsimp only [b]; swap)
    | (intro b; clear_value b)
    | intro b
    | lift_lets

theorem useWay_keeps {set : Nat} {way : Nat} (hz : Keeps z s) : Keeps z (useWay s set way) := by
  unfold useWay
  repeat' first
    | with_reducible assumption
    | (with_reducible apply updPhc_keeps)

theorem putDramLine_keeps {line : Nat} {d : BitVec 512} (hz : Keeps z s) : Keeps z (putDramLine s line d) := by
  unfold putDramLine
  repeat' first
    | with_reducible assumption
    | (with_reducible apply updMem_keeps)
    | (with_reducible apply keeps_ite)
    | split
    | (with_reducible refine keeps_dram_write ?_ _ _)
    | (fail_if_no_progress with_reducible refine keeps_upd ?_ rfl rfl rfl)

theorem phcDrop_keeps {k : Nat} (hz : Keeps z s) : Keeps z (phcDrop s k) := by
  unfold phcDrop
  repeat' first
    | with_reducible assumption
    | (with_reducible apply updPhc_keeps)

theorem lineOp_keeps {op : Nat} {k : Nat} {x : PhcLine} (hz : Keeps z s) : Keeps z (lineOp s op k x) := by
  unfold lineOp
  repeat' first
    | with_reducible assumption
    | (with_reducible apply putDramLine_keeps)
    | (with_reducible apply phcDrop_keeps)
    | (with_reducible apply updPhc_keeps)
    | (with_reducible apply keeps_ite)
    | (intro b; refine (fun (_ : Keeps z b) => ?_) ?_; clear_value b; swap; dsimp only [b]; swap)
    | (intro b; clear_value b)
    | intro b
    | lift_lets
    | split
    | (fail_if_no_progress with_reducible refine keeps_upd ?_ rfl rfl rfl)

theorem evictOp_keeps {op : Nat} {e : PhcEvict} (hz : Keeps z s) : Keeps z (evictOp s op e) := by
  unfold evictOp
  repeat' first
    | with_reducible assumption
    | (with_reducible apply putDramLine_keeps)
    | (with_reducible apply updPhc_keeps)
    | (with_reducible apply keeps_ite)
    | (intro b; refine (fun (_ : Keeps z b) => ?_) ?_; clear_value b; swap; dsimp only [b]; swap)
    | (intro b; clear_value b)
    | intro b
    | lift_lets
    | split
    | (fail_if_no_progress with_reducible refine keeps_upd ?_ rfl rfl rfl)

theorem visitLine_keeps {line : Nat} (hz : Keeps z s) : Keeps z (visitLine s line) := by
  unfold visitLine
  repeat' first
    | with_reducible assumption
    | (with_reducible apply updPhc_keeps)
    | (with_reducible apply lineOp_keeps)
    | (with_reducible apply evictOp_keeps)
    | (with_reducible apply keeps_ite)
    | (intro b; refine (fun (_ : Keeps z b) => ?_) ?_; clear_value b; swap; dsimp only [b]; swap)
    | (with_reducible apply hfn)
    | (intro b; refine (fun (hfn : ∀ x, Keeps z x → Keeps z (b x)) => ?_) ?_; clear_value b; swap; (intro x hx; dsimp only [b]); swap)
    | (intro b; refine (fun (hfn : ∀ x y, Keeps z x → Keeps z (b x y)) => ?_) ?_; clear_value b; swap; (intro x y hx; dsimp only [b]); swap)
    | (with_reducible apply hfc)
    | (with_reducible apply hfd)
    | (intro b; refine (fun (hfc : ∀ x, Keeps z (b x)) => ?_) ?_; clear_value b; swap; (intro x; dsimp only [b]); swap)
    | (intro b; refine (fun (hfd : ∀ x y, Keeps z (b x y)) => ?_) ?_; clear_value b; swap; (intro x y; dsimp only [b]); swap)
    | (intro b; clear_value b)
    | intro b
    | lift_lets
    | split
    | dsimp only

theorem rangePass_keeps {line : Nat} (hz : Keeps z s) : Keeps z (rangePass s line) := by
  unfold rangePass
  repeat' first
    | with_reducible assumption
    | (with_reducible apply freshBelow_keeps)
    | (with_reducible apply visitLine_keeps)
    | (with_reducible apply keeps_ite)
    | (with_reducible apply keeps_ite_fst)
    | (intro b; refine (fun (_ : Keeps z b) => ?_) ?_; clear_value b; swap; dsimp only [b]; swap)
    | (intro b; refine (fun (_ : Keeps z b.1) => ?_) ?_; clear_value b; swap; dsimp only [b]; swap)
    | (intro b; clear_value b)
    | intro b
    | lift_lets
    | split
    | (refine keeps_of_eq (by assumption) ?_)
    | dsimp only

theorem phcInsert_keeps {line : Nat} {dirty : Bool} {data : BitVec 512} (hz : Keeps z s) : Keeps z (phcInsert s line dirty data) := by
  unfold phcInsert
  repeat' first
    | with_reducible assumption
    | (with_reducible apply updPhc_keeps)
    | (with_reducible apply useWay_keeps)
    | (with_reducible apply keeps_ite)
    | (intro b; refine (fun (_ : Keeps z b) => ?_) ?_; clear_value b; swap; dsimp only [b]; swap)
    | (intro b; clear_value b)
    | intro b
    | lift_lets
    | split
    | dsimp only

theorem writeThrough_keeps {r : LineReq} {k : Nat} {x : PhcLine} (hz : Keeps z s) : Keeps z (writeThrough s r k x) := by
  unfold writeThrough
  repeat' first
    | with_reducible assumption
    | (with_reducible apply putDramLine_keeps)
    | (with_reducible apply updPhc_keeps)
    | (intro b; refine (fun (_ : Keeps z b) => ?_) ?_; clear_value b; swap; dsimp only [b]; swap)
    | (intro b; clear_value b)
    | intro b
    | lift_lets

theorem phcServe_keeps {r : LineReq} {w : Nat} (hz : Keeps z s) : Keeps z (phcServe s r w) := by
  unfold phcServe
  repeat' first
    | with_reducible assumption
    | (with_reducible apply useWay_keeps)
    | (with_reducible apply writeThrough_keeps)
    | (with_reducible apply updPhc_keeps)
    | (with_reducible apply keeps_ite)
    | (with_reducible apply keeps_ite_fst)
    | (intro b; refine (fun (_ : Keeps z b) => ?_) ?_; clear_value b; swap; dsimp only [b]; swap)
    | (intro b; refine (fun (_ : Keeps z b.1) => ?_) ?_; clear_value b; swap; dsimp only [b]; swap)
    | (intro b; clear_value b)
    | intro b
    | lift_lets
    | split
    | (fail_if_no_progress with_reducible refine keeps_upd ?_ rfl rfl rfl)
    | dsimp only

theorem phcHit_keeps {r : LineReq} {w : Nat} (hz : Keeps z s) : Keeps z (phcHit s r w) := by
  unfold phcHit
  repeat' first
    | with_reducible assumption
    | (with_reducible apply phcServe_keeps)
    | (with_reducible apply satAdd_keeps)

theorem phcPass_keeps {r : LineReq} (hz : Keeps z s) : Keeps z (phcPass s r) := by
  unfold phcPass
  repeat' first
    | with_reducible assumption
    | (with_reducible apply putDramLine_keeps)
    | (with_reducible apply updMem_keeps)
    | (with_reducible apply keeps_ite)
    | (intro b; refine (fun (_ : Keeps z b) => ?_) ?_; clear_value b; swap; dsimp only [b]; swap)
    | (intro b; clear_value b)
    | intro b
    | lift_lets
    | split

theorem phcLookup_keeps {r : LineReq} (hz : Keeps z s) : Keeps z (phcLookup s r) := by
  unfold phcLookup
  repeat' first
    | with_reducible assumption
    | (with_reducible apply phcPass_keeps)
    | (with_reducible apply updPhc_keeps)
    | (with_reducible apply rangePass_keeps)
    | (with_reducible apply phcHit_keeps)
    | (with_reducible apply satAdd_keeps)
    | (with_reducible apply useWay_keeps)
    | (with_reducible apply writeThrough_keeps)
    | (with_reducible apply keeps_ite)
    | (intro b; refine (fun (_ : Keeps z b) => ?_) ?_; clear_value b; swap; dsimp only [b]; swap)
    | (intro b; clear_value b)
    | intro b
    | lift_lets
    | split
    | dsimp only

theorem phcRequest_keeps {r : LineReq} (hz : Keeps z s) : Keeps z (phcRequest s r) := by
  unfold phcRequest
  repeat' first
    | with_reducible assumption
    | (with_reducible apply phcLookup_keeps)
    | (with_reducible apply updPhc_keeps)

theorem writeBack_keeps {l : List (Nat × PhcLine)} (hz : Keeps z s) : Keeps z (writeBack s l) := by
  unfold writeBack
  repeat' first
    | with_reducible assumption
    | (with_reducible apply putDramLine_keeps)
    | (with_reducible apply keeps_ite)
    | (with_reducible apply keeps_ite_fst)
    | (with_reducible refine keeps_foldl (fun x b hx => ?_) ?_)
    | (with_reducible refine keeps_foldl_fst (fun x b hx => ?_) ?_)
    | split

theorem wayDisable_keeps {way : Nat} {set : Nat} (hz : Keeps z s) : Keeps z (wayDisable s way set) := by
  unfold wayDisable
  repeat' first
    | with_reducible assumption
    | (with_reducible apply raise_keeps)
    | (with_reducible apply wr_keeps)
    | (with_reducible apply wrField_keeps)
    | (with_reducible apply writeBack_keeps)
    | (with_reducible apply updPhc_keeps)
    | (with_reducible apply keeps_ite)
    | (with_reducible apply keeps_ite_fst)
    | (intro b; refine (fun (_ : Keeps z b) => ?_) ?_; clear_value b; swap; dsimp only [b]; swap)
    | (intro b; refine (fun (_ : Keeps z b.1) => ?_) ?_; clear_value b; swap; dsimp only [b]; swap)
    | (intro b; clear_value b)
    | intro b
    | lift_lets
    | split

theorem wayError_keeps {way : Nat} {set : Nat} (hz : Keeps z s) : Keeps z (wayError s way set) := by
  unfold wayError
  repeat' first
    | with_reducible assumption
    | (with_reducible apply satAdd_keeps)
    | (with_reducible apply wayDisable_keeps)
    | (with_reducible apply keeps_ite)
    | (intro b; refine (fun (_ : Keeps z b) => ?_) ?_; clear_value b; swap; dsimp only [b]; swap)
    | (intro b; clear_value b)
    | intro b
    | lift_lets
    | split

theorem needRebuild_keeps {seg : Nat} (hz : Keeps z s) : Keeps z (needRebuild s seg) := by
  unfold needRebuild
  repeat' first
    | with_reducible assumption
    | (with_reducible apply updPhc_keeps)
    | (with_reducible apply keeps_ite)
    | split

theorem lostLine_keeps {seg : Option Nat} (hz : Keeps z s) : Keeps z (lostLine s seg) := by
  unfold lostLine
  repeat' first
    | with_reducible assumption
    | (with_reducible apply needRebuild_keeps)
    | split
    | dsimp only

theorem drcReport_keeps {cls : Nat} {unit : Nat} (hz : Keeps z s) : Keeps z (drcReport s cls unit) := by
  unfold drcReport
  repeat' first
    | with_reducible assumption
    | (with_reducible apply wr_keeps)
    | (with_reducible apply satAdd_keeps)
    | (with_reducible apply raise_keeps)
    | (with_reducible apply orReg_keeps)
    | (with_reducible apply keeps_ite)
    | (intro b; refine (fun (_ : Keeps z b) => ?_) ?_; clear_value b; swap; dsimp only [b]; swap)
    | (intro b; clear_value b)
    | intro b
    | lift_lets
    | split

theorem phcError_keeps {set : Nat} {way : Nat} {seg : Option Nat} {e : LineError} (hz : Keeps z s) : Keeps z (phcError s set way seg e) := by
  unfold phcError
  repeat' first
    | with_reducible assumption
    | (with_reducible apply wayError_keeps)
    | (with_reducible apply lostLine_keeps)
    | (with_reducible apply drcReport_keeps)
    | (with_reducible apply raise_keeps)
    | (with_reducible apply phcDrop_keeps)
    | (with_reducible apply keeps_ite)
    | (intro b; refine (fun (_ : Keeps z b) => ?_) ?_; clear_value b; swap; dsimp only [b]; swap)
    | (intro b; clear_value b)
    | intro b
    | lift_lets
    | split
    | dsimp only

theorem serveHeld_keeps (hz : Keeps z s) : Keeps z (serveHeld s) := by
  unfold serveHeld
  repeat' first
    | with_reducible assumption
    | (with_reducible apply phcLookup_keeps)
    | (with_reducible apply updPhc_keeps)
    | (with_reducible apply keeps_ite)
    | (with_reducible refine keeps_foldl (fun x b hx => ?_) ?_)
    | split

theorem fillFailed_keeps {f : PhcFill} {rep : UnitReport} (hz : Keeps z s) : Keeps z (fillFailed s f rep) := by
  unfold fillFailed
  repeat' first
    | with_reducible assumption
    | (with_reducible apply updPhc_keeps)

theorem fillMiss_keeps {r : LineReq} (hz : Keeps z s) : Keeps z (fillMiss s r) := by
  unfold fillMiss
  repeat' first
    | with_reducible assumption
    | (with_reducible apply phcServe_keeps)
    | (with_reducible apply phcLookup_keeps)
    | split
    | dsimp only

theorem fillJoined_keeps {r : LineReq} (hz : Keeps z s) : Keeps z (fillJoined s r) := by
  unfold fillJoined
  repeat' first
    | with_reducible assumption
    | (with_reducible apply phcHit_keeps)
    | (with_reducible apply phcLookup_keeps)
    | split
    | dsimp only

theorem fillServe_keeps {l : List LineReq} (hz : Keeps z s) : Keeps z (fillServe s l) := by
  unfold fillServe
  repeat' first
    | with_reducible assumption
    | (with_reducible apply fillJoined_keeps)
    | (with_reducible apply fillMiss_keeps)
    | (with_reducible refine keeps_foldl (fun x b hx => ?_) ?_)
    | split
    | dsimp only

theorem fillDone_allocated_keeps {line : Nat} {f : PhcFill} (hz : Keeps z s) : Keeps z (fillDone.allocated line s f) := by
  unfold fillDone.allocated
  repeat' first
    | with_reducible assumption
    | (with_reducible apply serveHeld_keeps)
    | (with_reducible apply phcPass_keeps)
    | (with_reducible apply fillServe_keeps)
    | (with_reducible apply phcInsert_keeps)
    | (with_reducible apply keeps_ite)
    | (with_reducible apply keeps_ite_fst)
    | (with_reducible refine keeps_foldl (fun x b hx => ?_) ?_)
    | (with_reducible refine keeps_foldl_fst (fun x b hx => ?_) ?_)
    | (intro b; refine (fun (_ : Keeps z b) => ?_) ?_; clear_value b; swap; dsimp only [b]; swap)
    | (intro b; refine (fun (_ : Keeps z b.1) => ?_) ?_; clear_value b; swap; dsimp only [b]; swap)
    | (with_reducible apply hfn)
    | (with_reducible apply hf)
    | (intro b; refine (fun (hfn : ∀ x, Keeps z x → Keeps z (b x)) => ?_) ?_; clear_value b; swap; (intro x hx; dsimp only [b]); swap)
    | (intro b; refine (fun (hfn : ∀ x y, Keeps z x → Keeps z (b x y)) => ?_) ?_; clear_value b; swap; (intro x y hx; dsimp only [b]); swap)
    | (with_reducible apply hfc)
    | (with_reducible apply hfd)
    | (intro b; refine (fun (hfc : ∀ x, Keeps z (b x)) => ?_) ?_; clear_value b; swap; (intro x; dsimp only [b]); swap)
    | (intro b; refine (fun (hfd : ∀ x y, Keeps z (b x y)) => ?_) ?_; clear_value b; swap; (intro x y; dsimp only [b]); swap)
    | (intro b; clear_value b)
    | intro b
    | lift_lets
    | split
    | (refine keeps_of_eq (by assumption) ?_)
    | (with_reducible refine keeps_dram_write ?_ _ _)
    | (with_reducible refine keeps_dram_filter ?_ _)
    | (refine keeps_dram_puts ?_ _ _)
    | (fail_if_no_progress with_reducible refine keeps_upd ?_ rfl rfl rfl)
    | dsimp only

theorem fillDone_keeps {line : Nat} {rep : UnitReport} {seg : Option Nat} (hz : Keeps z s) : Keeps z (fillDone s line rep seg) := by
  unfold fillDone
  repeat' first
    | with_reducible assumption
    | (with_reducible apply updPhc_keeps)
    | (with_reducible apply serveHeld_keeps)
    | (with_reducible apply raise_keeps)
    | (with_reducible apply fillFailed_keeps)
    | (with_reducible apply lostLine_keeps)
    | (with_reducible apply fillDone_allocated_keeps)
    | (with_reducible apply keeps_ite)
    | (with_reducible refine keeps_foldl (fun x b hx => ?_) ?_)
    | (intro b; refine (fun (_ : Keeps z b) => ?_) ?_; clear_value b; swap; dsimp only [b]; swap)
    | (intro b; clear_value b)
    | intro b
    | lift_lets
    | split
    | dsimp only

theorem writebackAck_keeps {line : Nat} (hz : Keeps z s) : Keeps z (writebackAck s line) := by
  unfold writebackAck
  repeat' first
    | with_reducible assumption
    | (with_reducible apply putDramLine_keeps)
    | (with_reducible apply updPhc_keeps)
    | (with_reducible apply phcInsert_keeps)
    | (with_reducible apply keeps_ite)
    | (intro b; refine (fun (_ : Keeps z b) => ?_) ?_; clear_value b; swap; dsimp only [b]; swap)
    | (intro b; clear_value b)
    | intro b
    | lift_lets
    | split
    | (fail_if_no_progress with_reducible refine keeps_upd ?_ rfl rfl rfl)
    | dsimp only

theorem errWindowEnd_keeps (hz : Keeps z s) : Keeps z (errWindowEnd s) := by
  unfold errWindowEnd
  repeat' first
    | with_reducible assumption
    | (with_reducible apply wr_keeps)
    | (with_reducible apply updPhc_keeps)
    | (with_reducible apply keeps_ite)
    | (with_reducible refine keeps_foldl (fun x b hx => ?_) ?_)
    | split

theorem wayDisabled_keeps {way : Nat} {set : Nat} (hz : Keeps z s) : Keeps z (wayDisabled s way set) := by
  unfold wayDisabled
  repeat' first
    | with_reducible assumption
    | (with_reducible apply updPhc_keeps)
    | (with_reducible apply raise_keeps)
    | (with_reducible apply wr_keeps)
    | (with_reducible apply orReg_keeps)
    | (with_reducible apply keeps_ite)
    | (with_reducible apply keeps_ite_fst)
    | (intro b; refine (fun (_ : Keeps z b) => ?_) ?_; clear_value b; swap; dsimp only [b]; swap)
    | (intro b; refine (fun (_ : Keeps z b.1) => ?_) ?_; clear_value b; swap; dsimp only [b]; swap)
    | (intro b; clear_value b)
    | intro b
    | lift_lets
    | split
    | dsimp only

theorem phcClear_keeps (hz : Keeps z s) : Keeps z (phcClear s) := by
  unfold phcClear
  repeat' first
    | with_reducible assumption
    | (with_reducible apply updPhc_keeps)

theorem invalidationDone_keeps (hz : Keeps z s) : Keeps z (invalidationDone s) := by
  unfold invalidationDone
  repeat' first
    | with_reducible assumption
    | (with_reducible apply serveHeld_keeps)
    | (with_reducible apply phcTo_keeps)
    | (with_reducible apply phcClear_keeps)
    | (with_reducible apply keeps_ite)
    | split

theorem phcWake_keeps (hz : Keeps z s) : Keeps z (phcWake s) := by
  unfold phcWake
  repeat' first
    | with_reducible assumption
    | (with_reducible apply updPhc_keeps)
    | (with_reducible apply phcTo_keeps)
    | (with_reducible apply keeps_ite)
    | (intro b; refine (fun (_ : Keeps z b) => ?_) ?_; clear_value b; swap; dsimp only [b]; swap)
    | (intro b; clear_value b)
    | intro b
    | lift_lets
    | split

theorem phcDrain_keeps {ps4 : Bool} (hz : Keeps z s) : Keeps z (phcDrain s ps4) := by
  unfold phcDrain
  repeat' first
    | with_reducible assumption
    | (with_reducible apply phcTo_keeps)
    | (with_reducible apply updPhc_keeps)
    | (with_reducible apply keeps_ite)
    | split

theorem drainDone_keeps (hz : Keeps z s) : Keeps z (drainDone s) := by
  unfold drainDone
  repeat' first
    | with_reducible assumption
    | (with_reducible apply writeBack_keeps)
    | (with_reducible apply putDramLine_keeps)
    | (with_reducible apply phcClear_keeps)
    | (with_reducible apply updPhc_keeps)
    | (with_reducible apply raise_keeps)
    | (with_reducible apply phcTo_keeps)
    | (with_reducible apply phcWake_keeps)
    | (with_reducible apply keeps_ite)
    | (with_reducible refine keeps_foldl (fun x b hx => ?_) ?_)
    | (intro b; refine (fun (_ : Keeps z b) => ?_) ?_; clear_value b; swap; dsimp only [b]; swap)
    | (intro b; clear_value b)
    | intro b
    | lift_lets
    | split

theorem phcEnable_keeps (hz : Keeps z s) : Keeps z (phcEnable s) := by
  unfold phcEnable
  repeat' first
    | with_reducible assumption
    | (with_reducible apply phcTo_keeps)
    | (with_reducible apply keeps_ite)
    | split

theorem rangeStart_keeps {op : Nat} (hz : Keeps z s) : Keeps z (rangeStart s op) := by
  unfold rangeStart
  repeat' first
    | with_reducible assumption
    | (with_reducible apply raise_keeps)
    | (with_reducible apply wr_keeps)
    | (with_reducible apply wrField_keeps)
    | (with_reducible apply updPhc_keeps)
    | (with_reducible apply keeps_ite)
    | (intro b; refine (fun (_ : Keeps z b) => ?_) ?_; clear_value b; swap; dsimp only [b]; swap)
    | (intro b; clear_value b)
    | intro b
    | lift_lets
    | split

theorem rangeDone_keeps (hz : Keeps z s) : Keeps z (rangeDone s) := by
  unfold rangeDone
  repeat' first
    | with_reducible assumption
    | (with_reducible apply visitLine_keeps)
    | (with_reducible apply updPhc_keeps)
    | (with_reducible apply wrField_keeps)
    | (with_reducible apply raise_keeps)
    | (with_reducible apply wr_keeps)
    | (with_reducible refine keeps_foldl (fun x b hx => ?_) ?_)
    | (intro b; refine (fun (_ : Keeps z b) => ?_) ?_; clear_value b; swap; dsimp only [b]; swap)
    | (intro b; clear_value b)
    | intro b
    | lift_lets
    | split
    | dsimp only

theorem swop_keeps {v : Nat} (hz : Keeps z s) : Keeps z (swop s v) := by
  unfold swop
  repeat' first
    | with_reducible assumption
    | (with_reducible apply rangePass_keeps)
    | (with_reducible apply lineOp_keeps)
    | (with_reducible apply keeps_ite)
    | (intro b; refine (fun (_ : Keeps z b) => ?_) ?_; clear_value b; swap; dsimp only [b]; swap)
    | (intro b; clear_value b)
    | intro b
    | lift_lets
    | split
    | dsimp only

end Sys2Proof.Machine
end

