-- ==== Sys2Proof/Laws/KeepsFlash.lean ====
section
/-! SUPPORT. What the operations keep (Laws/Keeps.lean): the flash path: operations, checkpoints, the journal, the recorder, the memory, commands, relocations and ladders. One law for each operation. -/

set_option Elab.async false
set_option linter.unusedTactic false
set_option linter.unreachableTactic false

namespace Sys2Proof.Machine

variable {z s : State}

theorem modCourier_keeps {c : Nat} {f : Courier → Courier} (hz : Keeps z s) : Keeps z (modCourier s c f) := by
  unfold modCourier
  repeat' first
    | with_reducible assumption
    | (with_reducible apply updFlash_keeps)
    | (with_reducible apply hf)
    | (fail_if_no_progress with_reducible refine keeps_upd ?_ rfl rfl rfl)

theorem snapCapture_keeps {c : Nat} {kinds : Nat} {lun : Option Nat} (hz : Keeps z s) : Keeps z (snapCapture s c kinds lun) := by
  unfold snapCapture
  repeat' first
    | with_reducible assumption
    | (with_reducible apply satAdd_keeps)
    | (with_reducible apply modCourier_keeps)
    | (with_reducible apply raiseWith_keeps)
    | (with_reducible apply keeps_ite)
    | (intro b; refine (fun (_ : Keeps z b) => ?_) ?_; clear_value b; swap; dsimp only [b]; swap)
    | (with_reducible apply hfn)
    | (intro b; refine (fun (hfn : ∀ x, Keeps z x → Keeps z (b x)) => ?_) ?_; clear_value b; swap; (intro x hx; dsimp only [b]); swap)
    | (intro b; refine (fun (hfn : ∀ x y, Keeps z x → Keeps z (b x y)) => ?_) ?_; clear_value b; swap; (intro x y hx; dsimp only [b]); swap)
    | (with_reducible apply hfc)
    | (with_reducible apply hfd)
    | (intro b; refine (fun (hfc : ∀ x, Keeps z (b x)) => ?_) ?_; clear_value b; swap; (intro x; dsimp only [b]); swap)
    | (intro b; refine (fun (hfd : ∀ x y, Keeps z (b x y)) => ?_) ?_; clear_value b; swap; (intro x y; dsimp only [b]); swap)
    | (intro b; clear_value b)
    | intro b
    | lift_lets
    | split
    | (fail_if_no_progress with_reducible refine keeps_upd ?_ rfl rfl rfl)
    | dsimp only

theorem snapTrigger_keeps {c : Nat} {bit : Nat} {kind : Nat} {lun : Option Nat} (hz : Keeps z s) : Keeps z (snapTrigger s c bit kind lun) := by
  unfold snapTrigger
  repeat' first
    | with_reducible assumption
    | (with_reducible apply snapCapture_keeps)
    | (with_reducible apply keeps_ite)
    | split

theorem chnCausesSet_keeps {c : Nat} {bits : List (Nat × Option Nat)} (hz : Keeps z s) : Keeps z (chnCausesSet s c bits) := by
  unfold chnCausesSet
  repeat' first
    | with_reducible assumption
    | (with_reducible apply orReg_keeps)
    | (with_reducible apply snapCapture_keeps)
    | (with_reducible apply raise_keeps)
    | (with_reducible apply keeps_ite)
    | (with_reducible apply keeps_ite_fst)
    | (with_reducible refine keeps_foldl (fun x b hx => ?_) ?_)
    | (with_reducible refine keeps_foldl_fst (fun x b hx => ?_) ?_)
    | (intro b; refine (fun (_ : Keeps z b) => ?_) ?_; clear_value b; swap; dsimp only [b]; swap)
    | (intro b; refine (fun (_ : Keeps z b.1) => ?_) ?_; clear_value b; swap; dsimp only [b]; swap)
    | (intro b; clear_value b)
    | intro b
    | lift_lets
    | split

theorem chnCauseSet_keeps {c : Nat} {bit : Nat} {lun : optParam (Option Nat) none} (hz : Keeps z s) : Keeps z (chnCauseSet s c bit lun) := by
  unfold chnCauseSet
  repeat' first
    | with_reducible assumption
    | (with_reducible apply orReg_keeps)
    | (with_reducible apply snapTrigger_keeps)
    | (with_reducible apply raise_keeps)
    | (with_reducible apply keeps_ite)
    | (intro b; refine (fun (_ : Keeps z b) => ?_) ?_; clear_value b; swap; dsimp only [b]; swap)
    | (intro b; clear_value b)
    | intro b
    | lift_lets
    | split

theorem dstCauseSet_keeps {d : Nat} {bit : Nat} (hz : Keeps z s) : Keeps z (dstCauseSet s d bit) := by
  unfold dstCauseSet
  repeat' first
    | with_reducible assumption
    | (with_reducible apply setCause_keeps)

theorem strCauseSet_keeps {bit : Nat} (hz : Keeps z s) : Keeps z (strCauseSet s bit) := by
  unfold strCauseSet
  repeat' first
    | with_reducible assumption
    | (with_reducible apply orReg_keeps)
    | (with_reducible apply setCause_keeps)
    | (with_reducible apply keeps_ite)
    | split

theorem askGroup_keeps {o : GOwner} {w : List Want} (hz : Keeps z s) : Keeps z (askGroup s o w) := by
  unfold askGroup
  repeat' first
    | with_reducible assumption
    | (with_reducible apply updJrc_keeps)

theorem epochTrig_keeps {bit : Nat} (hz : Keeps z s) : Keeps z (epochTrig s bit) := by
  unfold epochTrig
  repeat' first
    | with_reducible assumption
    | (with_reducible apply updJrc_keeps)
    | (with_reducible apply raise_keeps)
    | (with_reducible apply orReg_keeps)
    | (with_reducible apply keeps_ite)
    | split

theorem growBad_keeps {cause : Nat} {lun : Nat} {block : Nat} (hz : Keeps z s) : Keeps z (growBad s cause lun block) := by
  unfold growBad
  repeat' first
    | with_reducible assumption
    | (with_reducible apply updTab_keeps)
    | (with_reducible apply updMap_keeps)
    | (with_reducible apply updJrc_keeps)
    | (with_reducible apply spaceUpdate_keeps)
    | (with_reducible apply epochTrig_keeps)
    | (with_reducible apply keeps_ite)
    | (intro b; refine (fun (_ : Keeps z b) => ?_) ?_; clear_value b; swap; dsimp only [b]; swap)
    | (intro b; clear_value b)
    | intro b
    | lift_lets
    | split

theorem takeCost_keeps {d : Nat} (hz : Keeps z s) : Keeps z (takeCost s d) := by
  unfold takeCost
  repeat' first
    | with_reducible assumption
    | (with_reducible apply updFlash_keeps)

theorem modOp_keeps {id : Nat} {f : FOp → FOp} (hz : Keeps z s) : Keeps z (modOp s id f) := by
  unfold modOp
  repeat' first
    | with_reducible assumption
    | (with_reducible apply updFlash_keeps)
    | (with_reducible apply hf)
    | (fail_if_no_progress with_reducible refine keeps_upd ?_ rfl rfl rfl)

theorem modCourierBus_keeps {c : Nat} {id : Option Nat} (hz : Keeps z s) : Keeps z (modCourierBus s c id) := by
  unfold modCourierBus
  repeat' first
    | with_reducible assumption
    | (with_reducible apply modCourier_keeps)
    | (fail_if_no_progress with_reducible refine keeps_upd ?_ rfl rfl rfl)

theorem queueOp_keeps {x : Nat × FOp} (hz : Keeps z s) : Keeps z (queueOp s x) := by
  unfold queueOp
  repeat' first
    | with_reducible assumption
    | (with_reducible apply modOp_keeps)
    | (with_reducible apply keeps_ite)
    | (with_reducible apply keeps_ite_fst)
    | (intro b; refine (fun (_ : Keeps z b) => ?_) ?_; clear_value b; swap; dsimp only [b]; swap)
    | (intro b; refine (fun (_ : Keeps z b.1) => ?_) ?_; clear_value b; swap; dsimp only [b]; swap)
    | (intro b; clear_value b)
    | intro b
    | lift_lets
    | split

theorem refill_keeps (hz : Keeps z s) : Keeps z (refill s) := by
  unfold refill
  repeat' first
    | with_reducible assumption
    | (with_reducible apply queueOp_keeps)
    | (with_reducible refine keeps_foldl (fun x b hx => ?_) ?_)

theorem busEnd_keeps {c : Nat} (hz : Keeps z s) : Keeps z (busEnd s c) := by
  unfold busEnd
  repeat' first
    | with_reducible assumption
    | (with_reducible apply modOp_keeps)
    | (with_reducible apply modCourierBus_keeps)
    | split
    | dsimp only

theorem busDone_keeps {id : Nat} {o : FOp} (hz : Keeps z s) : Keeps z (busDone s id o) := by
  unfold busDone
  repeat' first
    | with_reducible assumption
    | (with_reducible apply modOp_keeps)
    | (with_reducible apply busEnd_keeps)
    | (fail_if_no_progress with_reducible refine keeps_upd ?_ rfl rfl rfl)

theorem startOp_keeps {id : Nat} {o : FOp} (hz : Keeps z s) : Keeps z (startOp s id o) := by
  unfold startOp
  repeat' first
    | with_reducible assumption
    | (with_reducible apply modOp_keeps)
    | (with_reducible apply chnCauseSet_keeps)
    | (with_reducible apply satAdd_keeps)
    | (with_reducible apply keeps_ite)
    | (intro b; refine (fun (_ : Keeps z b) => ?_) ?_; clear_value b; swap; dsimp only [b]; swap)
    | (intro b; clear_value b)
    | intro b
    | lift_lets
    | split
    | (fail_if_no_progress with_reducible refine keeps_upd ?_ rfl rfl rfl)
    | dsimp only

theorem startUnit_keeps {id : Nat} {o : FOp} (hz : Keeps z s) : Keeps z (startUnit s id o) := by
  unfold startUnit
  repeat' first
    | with_reducible assumption
    | (with_reducible apply modCourier_keeps)
    | (fail_if_no_progress with_reducible refine keeps_upd ?_ rfl rfl rfl)

theorem granted_keeps {a : Ask} {o : FOp} (hz : Keeps z s) : Keeps z (granted s a o) := by
  unfold granted
  repeat' first
    | with_reducible assumption
    | (with_reducible apply modOp_keeps)
    | (with_reducible apply startUnit_keeps)
    | (with_reducible apply startOp_keeps)
    | (with_reducible apply dstCauseSet_keeps)
    | (with_reducible apply satAdd_keeps)
    | (with_reducible apply keeps_ite)
    | (intro b; refine (fun (_ : Keeps z b) => ?_) ?_; clear_value b; swap; dsimp only [b]; swap)
    | (intro b; clear_value b)
    | intro b
    | lift_lets
    | split
    | (fail_if_no_progress with_reducible refine keeps_upd ?_ rfl rfl rfl)
    | dsimp only

theorem grant_keeps {d : Nat} {l : List Ask} {n : Nat} (hz : Keeps z s) : Keeps z (grant d l n s) := by
  induction l generalizing n s with
  | nil => exact hz
  | cons a l ih =>
    unfold grant
    repeat' first
      | with_reducible assumption
      | (with_reducible apply ih)
      | (with_reducible apply granted_keeps)
      | (with_reducible apply modOp_keeps)
      | (with_reducible apply dstCauseSet_keeps)
      | (with_reducible apply keeps_ite)
      | (with_reducible apply keeps_ite_fst)
      | (with_reducible refine keeps_foldl (fun x b hx => ?_) ?_)
      | (with_reducible refine keeps_foldl_fst (fun x b hx => ?_) ?_)
      | (intro b; refine (fun (_ : Keeps z b) => ?_) ?_; clear_value b; swap; dsimp only [b]; swap)
      | (intro b; refine (fun (_ : Keeps z b.1) => ?_) ?_; clear_value b; swap; dsimp only [b]; swap)
      | (with_reducible apply hfn)
      | (with_reducible apply hf)
      | (intro b; refine (fun (hfn : ∀ x, Keeps z x → Keeps z (b x)) => ?_) ?_; clear_value b; swap; (intro x hx; dsimp only [b]); swap)
      | (intro b; refine (fun (hfn : ∀ x y, Keeps z x → Keeps z (b x y)) => ?_) ?_; clear_value b; swap; (intro x y hx; dsimp only [b]); swap)
      | (with_reducible apply hfc)
      | (with_reducible apply hfd)
      | (intro b; refine (fun (hfc : ∀ x, Keeps z (b x)) => ?_) ?_; clear_value b; swap; (intro x; dsimp only [b]); swap)
      | (intro b; refine (fun (hfd : ∀ x y, Keeps z (b x y)) => ?_) ?_; clear_value b; swap; (intro x y; dsimp only [b]); swap)
      | (intro b; clear_value b)
      | intro b
      | lift_lets
      | split
      | (refine keeps_of_eq (by assumption) ?_)
      | (with_reducible refine keeps_dram_write ?_ _ _)
      | (with_reducible refine keeps_dram_filter ?_ _)
      | (refine keeps_dram_puts ?_ _ _)
      | (fail_if_no_progress with_reducible refine keeps_upd ?_ rfl rfl rfl)
      | dsimp only

theorem grants_keeps {d : Nat} (hz : Keeps z s) : Keeps z (grants s d) := by
  unfold grants
  repeat' first
    | with_reducible assumption
    | (with_reducible apply grant_keeps)
    | (with_reducible apply keeps_ite)
    | (intro b; refine (fun (_ : Keeps z b) => ?_) ?_; clear_value b; swap; dsimp only [b]; swap)
    | (intro b; clear_value b)
    | intro b
    | lift_lets
    | split

theorem pump_keeps (hz : Keeps z s) : Keeps z (pump s) := by
  unfold pump
  repeat' first
    | with_reducible assumption
    | (with_reducible apply grants_keeps)
    | (with_reducible apply refill_keeps)
    | (with_reducible refine keeps_foldl (fun x b hx => ?_) ?_)

theorem addOp_keeps {o : FOp} (hz : Keeps z s) : Keeps z (addOp s o) := by
  unfold addOp
  repeat' first
    | with_reducible assumption
    | (with_reducible apply updFlash_keeps)
    | (fail_if_no_progress with_reducible refine keeps_upd ?_ rfl rfl rfl)

theorem dropOp_keeps {id : Nat} (hz : Keeps z s) : Keeps z (dropOp s id) := by
  unfold dropOp
  repeat' first
    | with_reducible assumption
    | (with_reducible apply updFlash_keeps)
    | (fail_if_no_progress with_reducible refine keeps_upd ?_ rfl rfl rfl)

theorem askResume_keeps {id : Nat} (hz : Keeps z s) : Keeps z (askResume s id) := by
  unfold askResume
  repeat' first
    | with_reducible assumption
    | (with_reducible apply modOp_keeps)
    | (with_reducible apply keeps_ite)
    | split
    | (fail_if_no_progress with_reducible refine keeps_upd ?_ rfl rfl rfl)

theorem busTick_keeps (hz : Keeps z s) : Keeps z (busTick s) := by
  unfold busTick
  repeat' first
    | with_reducible assumption
    | (with_reducible apply pump_keeps)
    | (with_reducible apply busEnd_keeps)
    | (with_reducible apply keeps_ite)
    | (with_reducible refine keeps_foldl (fun x b hx => ?_) ?_)
    | split

theorem tokenAllocation_keeps (hz : Keeps z s) : Keeps z (tokenAllocation s) := by
  unfold tokenAllocation
  repeat' first
    | with_reducible assumption
    | (with_reducible apply updFlash_keeps)
    | (with_reducible apply wrField_keeps)
    | (with_reducible apply pump_keeps)
    | (with_reducible apply keeps_ite)
    | (with_reducible refine keeps_foldl (fun x b hx => ?_) ?_)
    | (intro b; refine (fun (_ : Keeps z b) => ?_) ?_; clear_value b; swap; dsimp only [b]; swap)
    | (with_reducible apply hfn)
    | (intro b; refine (fun (hfn : ∀ x, Keeps z x → Keeps z (b x)) => ?_) ?_; clear_value b; swap; (intro x hx; dsimp only [b]); swap)
    | (intro b; refine (fun (hfn : ∀ x y, Keeps z x → Keeps z (b x y)) => ?_) ?_; clear_value b; swap; (intro x y hx; dsimp only [b]); swap)
    | (with_reducible apply hfc)
    | (with_reducible apply hfd)
    | (intro b; refine (fun (hfc : ∀ x, Keeps z (b x)) => ?_) ?_; clear_value b; swap; (intro x; dsimp only [b]); swap)
    | (intro b; refine (fun (hfd : ∀ x y, Keeps z (b x y)) => ?_) ?_; clear_value b; swap; (intro x y; dsimp only [b]); swap)
    | (intro b; clear_value b)
    | intro b
    | lift_lets
    | split
    | (fail_if_no_progress with_reducible refine keeps_upd ?_ rfl rfl rfl)

theorem openNow_keeps {k : Nat} (hz : Keeps z s) : Keeps z (openNow s k) := by
  unfold openNow
  repeat' first
    | with_reducible assumption
    | (with_reducible apply updTab_keeps)
    | (with_reducible apply updMap_keeps)
    | (with_reducible apply askGroup_keeps)
    | (with_reducible apply keeps_ite)
    | (with_reducible apply keeps_ite_fst)
    | (with_reducible refine keeps_foldl (fun x b hx => ?_) ?_)
    | (with_reducible refine keeps_foldl_fst (fun x b hx => ?_) ?_)
    | (intro b; refine (fun (_ : Keeps z b) => ?_) ?_; clear_value b; swap; dsimp only [b]; swap)
    | (intro b; refine (fun (_ : Keeps z b.1) => ?_) ?_; clear_value b; swap; dsimp only [b]; swap)
    | (intro b; clear_value b)
    | intro b
    | lift_lets
    | split

theorem openSb_keeps {k : Nat} (hz : Keeps z s) : Keeps z (openSb s k) := by
  unfold openSb
  repeat' first
    | with_reducible assumption
    | (with_reducible apply openNow_keeps)
    | (with_reducible apply keeps_ite)
    | split

theorem modPg_keeps {id : Nat} {f : Pg → Pg} (hz : Keeps z s) : Keeps z (modPg s id f) := by
  unfold modPg
  repeat' first
    | with_reducible assumption
    | (with_reducible apply updMap_keeps)
    | (with_reducible apply hf)

theorem modOpen_keeps {k : Nat} {f : OpenSb → OpenSb} (hz : Keeps z s) : Keeps z (modOpen s k f) := by
  unfold modOpen
  repeat' first
    | with_reducible assumption
    | (with_reducible apply updMap_keeps)
    | (with_reducible apply hf)

theorem modSb_keeps {x : Nat} {f : Sb → Sb} (hz : Keeps z s) : Keeps z (modSb s x f) := by
  unfold modSb
  repeat' first
    | with_reducible assumption
    | (with_reducible apply updTab_keeps)
    | (with_reducible apply hf)

theorem placeAll_keeps {k : Nat} (hz : Keeps z s) : Keeps z (placeAll s k) := by
  unfold placeAll
  repeat' first
    | with_reducible assumption
    | (with_reducible apply openSb_keeps)
    | (with_reducible apply modPg_keeps)
    | (with_reducible apply modOpen_keeps)
    | (with_reducible apply keeps_ite)
    | (with_reducible apply keeps_ite_fst)
    | (with_reducible refine keeps_foldl (fun x b hx => ?_) ?_)
    | (with_reducible refine keeps_foldl_fst (fun x b hx => ?_) ?_)
    | (intro b; refine (fun (_ : Keeps z b) => ?_) ?_; clear_value b; swap; dsimp only [b]; swap)
    | (intro b; refine (fun (_ : Keeps z b.1) => ?_) ?_; clear_value b; swap; dsimp only [b]; swap)
    | (intro b; clear_value b)
    | intro b
    | lift_lets
    | split
    | dsimp only

theorem newPg_keeps {k : Nat} {h : Holder} (hz : Keeps z s) : Keeps z (newPg s k h).1 := by
  unfold newPg
  repeat' first
    | with_reducible assumption
    | (with_reducible apply updMap_keeps)
    | (intro b; refine (fun (_ : Keeps z b) => ?_) ?_; clear_value b; swap; dsimp only [b]; swap)
    | (intro b; refine (fun (_ : Keeps z b.1) => ?_) ?_; clear_value b; swap; dsimp only [b]; swap)
    | (intro b; clear_value b)
    | intro b
    | lift_lets
    | dsimp only

theorem takeWsn_keeps (hz : Keeps z s) : Keeps z (takeWsn s).1 := by
  unfold takeWsn
  repeat' first
    | with_reducible assumption
    | (with_reducible apply updMap_keeps)
    | dsimp only

theorem pgPut_keeps {id : Nat} {slot : Nat} {p : Payload} {h : Holder} (hz : Keeps z s) : Keeps z (pgPut s id slot p h) := by
  unfold pgPut
  repeat' first
    | with_reducible assumption
    | (with_reducible apply modPg_keeps)
    | (with_reducible apply keeps_ite)
    | split

theorem pgClose_keeps {id : Nat} (hz : Keeps z s) : Keeps z (pgClose s id) := by
  unfold pgClose
  repeat' first
    | with_reducible assumption
    | (with_reducible apply modPg_keeps)
    | (with_reducible apply keeps_ite)
    | (with_reducible refine keeps_foldl (fun x b hx => ?_) ?_)
    | split

theorem packPut_keeps {k : Nat} {p : Payload} {h : Holder} (hz : Keeps z s) : Keeps z (packPut s k p h).1 := by
  unfold packPut
  repeat' first
    | with_reducible assumption
    | (with_reducible apply newPg_keeps)
    | (with_reducible apply updMap_keeps)
    | (with_reducible apply pgPut_keeps)
    | (with_reducible apply pgClose_keeps)
    | (with_reducible apply keeps_ite)
    | (with_reducible apply keeps_ite_fst)
    | (intro b; refine (fun (_ : Keeps z b) => ?_) ?_; clear_value b; swap; dsimp only [b]; swap)
    | (intro b; refine (fun (_ : Keeps z b.1) => ?_) ?_; clear_value b; swap; dsimp only [b]; swap)
    | (intro b; clear_value b)
    | intro b
    | lift_lets
    | split
    | (refine keeps_of_eq (by assumption) ?_)
    | dsimp only

theorem packClose_keeps {k : Nat} (hz : Keeps z s) : Keeps z (packClose s k) := by
  unfold packClose
  repeat' first
    | with_reducible assumption
    | (with_reducible apply updMap_keeps)
    | (with_reducible apply pgClose_keeps)
    | split
    | dsimp only

theorem dropHolder_keeps {h : Holder} (hz : Keeps z s) : Keeps z (dropHolder s h) := by
  unfold dropHolder
  repeat' first
    | with_reducible assumption
    | (with_reducible apply updMap_keeps)
    | (intro b; refine (fun (_ : Keeps z b) => ?_) ?_; clear_value b; swap; dsimp only [b]; swap)
    | (intro b; refine (fun (_ : Keeps z b.1) => ?_) ?_; clear_value b; swap; dsimp only [b]; swap)
    | (with_reducible apply hfn)
    | (intro b; refine (fun (hfn : ∀ x, Keeps z x → Keeps z (b x)) => ?_) ?_; clear_value b; swap; (intro x hx; dsimp only [b]); swap)
    | (intro b; refine (fun (hfn : ∀ x y, Keeps z x → Keeps z (b x y)) => ?_) ?_; clear_value b; swap; (intro x y hx; dsimp only [b]); swap)
    | (with_reducible apply hfc)
    | (with_reducible apply hfd)
    | (intro b; refine (fun (hfc : ∀ x, Keeps z (b x)) => ?_) ?_; clear_value b; swap; (intro x; dsimp only [b]); swap)
    | (intro b; refine (fun (hfd : ∀ x y, Keeps z (b x y)) => ?_) ?_; clear_value b; swap; (intro x y; dsimp only [b]); swap)
    | (intro b; clear_value b)
    | intro b
    | lift_lets

theorem askSeal_keeps {k : Nat} (hz : Keeps z s) : Keeps z (askSeal s k) := by
  unfold askSeal
  repeat' first
    | with_reducible assumption
    | (with_reducible apply askGroup_keeps)
    | (with_reducible apply modOpen_keeps)
    | (with_reducible apply keeps_ite)
    | split
    | dsimp only

theorem foldStream_keeps {k : Nat} (hz : Keeps z s) : Keeps z (foldStream s k) := by
  unfold foldStream
  repeat' first
    | with_reducible assumption
    | (with_reducible apply placeAll_keeps)
    | (with_reducible apply askSeal_keeps)
    | (with_reducible apply modSb_keeps)
    | (with_reducible apply modOpen_keeps)
    | (with_reducible apply modPg_keeps)
    | (with_reducible apply addOp_keeps)
    | (with_reducible apply keeps_ite)
    | (with_reducible apply keeps_ite_fst)
    | (with_reducible refine keeps_foldl (fun x b hx => ?_) ?_)
    | (with_reducible refine keeps_foldl_fst (fun x b hx => ?_) ?_)
    | (intro b; refine (fun (_ : Keeps z b) => ?_) ?_; clear_value b; swap; dsimp only [b]; swap)
    | (intro b; refine (fun (_ : Keeps z b.1) => ?_) ?_; clear_value b; swap; dsimp only [b]; swap)
    | (with_reducible apply hfn)
    | (intro b; refine (fun (hfn : ∀ x, Keeps z x → Keeps z (b x)) => ?_) ?_; clear_value b; swap; (intro x hx; dsimp only [b]); swap)
    | (intro b; refine (fun (hfn : ∀ x y, Keeps z x → Keeps z (b x y)) => ?_) ?_; clear_value b; swap; (intro x y hx; dsimp only [b]); swap)
    | (with_reducible apply hfc)
    | (with_reducible apply hfd)
    | (intro b; refine (fun (hfc : ∀ x, Keeps z (b x)) => ?_) ?_; clear_value b; swap; (intro x; dsimp only [b]); swap)
    | (intro b; refine (fun (hfd : ∀ x y, Keeps z (b x y)) => ?_) ?_; clear_value b; swap; (intro x y; dsimp only [b]); swap)
    | (intro b; clear_value b)
    | intro b
    | lift_lets
    | split
    | (fail_if_no_progress with_reducible refine keeps_upd ?_ rfl rfl rfl)
    | dsimp only

theorem turn_keeps (hz : Keeps z s) : Keeps z (turn s) := by
  unfold turn
  repeat' first
    | with_reducible assumption
    | (with_reducible apply pump_keeps)
    | (with_reducible apply foldStream_keeps)
    | (with_reducible refine keeps_foldl (fun x b hx => ?_) ?_)

theorem refreshOver_keeps {p : Nat} (hz : Keeps z s) : Keeps z (refreshOver s p) := by
  unfold refreshOver
  repeat' first
    | with_reducible assumption
    | (with_reducible apply satAdd_keeps)
    | (with_reducible apply updMap_keeps)
    | (with_reducible apply keeps_ite)
    | (intro b; refine (fun (_ : Keeps z b) => ?_) ?_; clear_value b; swap; dsimp only [b]; swap)
    | (intro b; clear_value b)
    | intro b
    | lift_lets
    | split
    | dsimp only

theorem refreshHead_keeps {ps : List Nat} (hz : Keeps z s) : Keeps z (refreshHead s ps) := by
  unfold refreshHead
  repeat' first
    | with_reducible assumption
    | (with_reducible apply refreshOver_keeps)
    | (with_reducible apply updMap_keeps)
    | (with_reducible refine keeps_foldl (fun x b hx => ?_) ?_)
    | (intro b; refine (fun (_ : Keeps z b) => ?_) ?_; clear_value b; swap; dsimp only [b]; swap)
    | (intro b; clear_value b)
    | intro b
    | lift_lets

theorem refreshAdd_keeps {p : Nat} (hz : Keeps z s) : Keeps z (refreshAdd s p) := by
  unfold refreshAdd
  repeat' first
    | with_reducible assumption
    | (with_reducible apply refreshOver_keeps)
    | (with_reducible apply updMap_keeps)
    | (with_reducible apply keeps_ite)
    | (intro b; refine (fun (_ : Keeps z b) => ?_) ?_; clear_value b; swap; dsimp only [b]; swap)
    | (intro b; clear_value b)
    | intro b
    | lift_lets
    | split

theorem unplace_keeps {x : Nat} {m : Nat} {from_ : Nat} (hz : Keeps z s) : Keeps z (unplace s x m from_) := by
  unfold unplace
  repeat' first
    | with_reducible assumption
    | (with_reducible apply modPg_keeps)
    | (with_reducible refine keeps_foldl (fun x b hx => ?_) ?_)
    | (with_reducible refine keeps_foldl_fst (fun x b hx => ?_) ?_)
    | split
    | dsimp only

theorem setEnd_keeps {x : Nat} {m : Nat} {r : Nat} {fail : Bool} (hz : Keeps z s) : Keeps z (setEnd s x m r fail) := by
  unfold setEnd
  repeat' first
    | with_reducible assumption
    | (with_reducible apply modSb_keeps)

theorem closeEarly_keeps {k : Nat} {parity : List Nat} {cause : optParam Nat 3} (hz : Keeps z s) : Keeps z (closeEarly s k parity cause) := by
  unfold closeEarly
  repeat' first
    | with_reducible assumption
    | (with_reducible apply strCauseSet_keeps)
    | (with_reducible apply modSb_keeps)
    | (with_reducible apply unplace_keeps)
    | (with_reducible apply refreshHead_keeps)
    | (with_reducible apply modOpen_keeps)
    | (with_reducible apply askSeal_keeps)
    | (with_reducible apply keeps_ite)
    | (with_reducible refine keeps_foldl (fun x b hx => ?_) ?_)
    | (intro b; refine (fun (_ : Keeps z b) => ?_) ?_; clear_value b; swap; dsimp only [b]; swap)
    | (with_reducible apply hfn)
    | (intro b; refine (fun (hfn : ∀ x, Keeps z x → Keeps z (b x)) => ?_) ?_; clear_value b; swap; (intro x hx; dsimp only [b]); swap)
    | (intro b; refine (fun (hfn : ∀ x y, Keeps z x → Keeps z (b x y)) => ?_) ?_; clear_value b; swap; (intro x y hx; dsimp only [b]); swap)
    | (with_reducible apply hfc)
    | (with_reducible apply hfd)
    | (intro b; refine (fun (hfc : ∀ x, Keeps z (b x)) => ?_) ?_; clear_value b; swap; (intro x; dsimp only [b]); swap)
    | (intro b; refine (fun (hfd : ∀ x y, Keeps z (b x y)) => ?_) ?_; clear_value b; swap; (intro x y; dsimp only [b]); swap)
    | (intro b; clear_value b)
    | intro b
    | lift_lets
    | split
    | (fail_if_no_progress with_reducible refine keeps_upd ?_ rfl rfl rfl)
    | dsimp only

theorem unfold_keeps {k : Nat} {m : Nat} {b : Sb} {slots : NMap Payload} (hz : Keeps z s) : Keeps z (unfold s k m b slots) := by
  unfold unfold
  repeat' first
    | with_reducible assumption
    | (with_reducible apply freshBelow_keeps)
    | (with_reducible apply closeEarly_keeps)
    | (with_reducible apply drcReport_keeps)
    | (with_reducible apply modOpen_keeps)
    | (with_reducible apply strCauseSet_keeps)
    | (with_reducible apply satAdd_keeps)
    | (with_reducible apply keeps_ite)
    | (with_reducible apply keeps_ite_fst)
    | (intro b; refine (fun (_ : Keeps z b) => ?_) ?_; clear_value b; swap; dsimp only [b]; swap)
    | (intro b; refine (fun (_ : Keeps z b.1) => ?_) ?_; clear_value b; swap; dsimp only [b]; swap)
    | (intro b; clear_value b)
    | intro b
    | lift_lets
    | split
    | (refine keeps_of_eq (by assumption) ?_)
    | dsimp only

theorem endMember_keeps {x : Nat} {m : Nat} (hz : Keeps z s) : Keeps z (endMember s x m) := by
  unfold endMember
  repeat' first
    | with_reducible assumption
    | (with_reducible apply closeEarly_keeps)
    | (with_reducible apply unplace_keeps)
    | (with_reducible apply setEnd_keeps)
    | (with_reducible apply refreshHead_keeps)
    | (with_reducible apply unfold_keeps)
    | (with_reducible apply keeps_ite)
    | (with_reducible refine keeps_foldl (fun x b hx => ?_) ?_)
    | (intro b; refine (fun (_ : Keeps z b) => ?_) ?_; clear_value b; swap; dsimp only [b]; swap)
    | (intro b; clear_value b)
    | intro b
    | lift_lets
    | split
    | dsimp only

theorem reprogram_keeps {id : Nat} (hz : Keeps z s) : Keeps z (reprogram s id) := by
  unfold reprogram
  repeat' first
    | with_reducible assumption
    | (with_reducible apply modPg_keeps)

theorem dataProgramEnd_keeps {id : Nat} {ok : Bool} (hz : Keeps z s) : Keeps z (dataProgramEnd s id ok) := by
  unfold dataProgramEnd
  repeat' first
    | with_reducible assumption
    | (with_reducible apply updFlash_keeps)
    | (with_reducible apply modOpen_keeps)
    | (with_reducible apply modPg_keeps)
    | (with_reducible apply satAdd_keeps)
    | (with_reducible apply chnCauseSet_keeps)
    | (with_reducible apply endMember_keeps)
    | (with_reducible apply growBad_keeps)
    | (with_reducible apply reprogram_keeps)
    | (with_reducible apply keeps_ite)
    | (with_reducible apply keeps_ite_fst)
    | (with_reducible refine keeps_foldl (fun x b hx => ?_) ?_)
    | (with_reducible refine keeps_foldl_fst (fun x b hx => ?_) ?_)
    | (intro b; refine (fun (_ : Keeps z b) => ?_) ?_; clear_value b; swap; dsimp only [b]; swap)
    | (intro b; refine (fun (_ : Keeps z b.1) => ?_) ?_; clear_value b; swap; dsimp only [b]; swap)
    | (intro b; clear_value b)
    | intro b
    | lift_lets
    | split
    | dsimp only

theorem rowDone_keeps {k : Nat} (hz : Keeps z s) : Keeps z (rowDone s k) := by
  unfold rowDone
  repeat' first
    | with_reducible assumption
    | (with_reducible apply modOpen_keeps)
    | (with_reducible apply modSb_keeps)
    | (with_reducible apply keeps_ite)
    | (intro b; refine (fun (_ : Keeps z b) => ?_) ?_; clear_value b; swap; dsimp only [b]; swap)
    | (intro b; clear_value b)
    | intro b
    | lift_lets
    | split
    | dsimp only

theorem parityProgramEnd_keeps {x : Nat} {m : Nat} {ok : Bool} (hz : Keeps z s) : Keeps z (parityProgramEnd s x m ok) := by
  unfold parityProgramEnd
  repeat' first
    | with_reducible assumption
    | (with_reducible apply updFlash_keeps)
    | (with_reducible apply rowDone_keeps)
    | (with_reducible apply modOpen_keeps)
    | (with_reducible apply satAdd_keeps)
    | (with_reducible apply chnCauseSet_keeps)
    | (with_reducible apply growBad_keeps)
    | (with_reducible apply closeEarly_keeps)
    | (with_reducible apply keeps_ite)
    | (with_reducible apply keeps_ite_fst)
    | (with_reducible refine keeps_foldl (fun x b hx => ?_) ?_)
    | (with_reducible refine keeps_foldl_fst (fun x b hx => ?_) ?_)
    | (intro b; refine (fun (_ : Keeps z b) => ?_) ?_; clear_value b; swap; dsimp only [b]; swap)
    | (intro b; refine (fun (_ : Keeps z b.1) => ?_) ?_; clear_value b; swap; dsimp only [b]; swap)
    | (intro b; clear_value b)
    | intro b
    | lift_lets
    | split
    | dsimp only

theorem programEnd_keeps {id : Nat} {o : FOp} {ok : Bool} (hz : Keeps z s) : Keeps z (programEnd s id o ok) := by
  unfold programEnd
  repeat' first
    | with_reducible assumption
    | (with_reducible apply dropOp_keeps)
    | (with_reducible apply dataProgramEnd_keeps)
    | (with_reducible apply parityProgramEnd_keeps)
    | (intro b; refine (fun (_ : Keeps z b) => ?_) ?_; clear_value b; swap; dsimp only [b]; swap)
    | (intro b; clear_value b)
    | intro b
    | lift_lets
    | split
    | dsimp only

theorem endLun_keeps {lun : Nat} (hz : Keeps z s) : Keeps z (endLun s lun) := by
  unfold endLun
  repeat' first
    | with_reducible assumption
    | (with_reducible apply endMember_keeps)
    | (with_reducible refine keeps_foldl (fun x b hx => ?_) ?_)
    | split
    | dsimp only

theorem failPrograms_keeps {lun : Nat} (hz : Keeps z s) : Keeps z (failPrograms s lun) := by
  unfold failPrograms
  repeat' first
    | with_reducible assumption
    | (with_reducible apply reprogram_keeps)
    | (with_reducible apply dropOp_keeps)
    | (with_reducible refine keeps_foldl (fun x b hx => ?_) ?_)
    | (with_reducible refine keeps_foldl_fst (fun x b hx => ?_) ?_)
    | split
    | dsimp only

theorem noteEnded_keeps {x : Nat} {m : Nat} {out : Nat} (hz : Keeps z s) : Keeps z (noteEnded s x m out) := by
  unfold noteEnded
  repeat' first
    | with_reducible assumption
    | (with_reducible apply modSb_keeps)
    | (with_reducible apply askGroup_keeps)
    | (with_reducible apply keeps_ite)
    | (with_reducible apply keeps_ite_fst)
    | (intro b; refine (fun (_ : Keeps z b) => ?_) ?_; clear_value b; swap; dsimp only [b]; swap)
    | (intro b; refine (fun (_ : Keeps z b.1) => ?_) ?_; clear_value b; swap; dsimp only [b]; swap)
    | (intro b; clear_value b)
    | intro b
    | lift_lets
    | split
    | dsimp only

theorem issueErases_keeps {x : Nat} (hz : Keeps z s) : Keeps z (issueErases s x) := by
  unfold issueErases
  repeat' first
    | with_reducible assumption
    | (with_reducible apply modSb_keeps)
    | (with_reducible apply noteEnded_keeps)
    | (with_reducible apply updTab_keeps)
    | (with_reducible apply addOp_keeps)
    | (with_reducible apply keeps_ite)
    | (with_reducible refine keeps_foldl (fun x b hx => ?_) ?_)
    | (intro b; refine (fun (_ : Keeps z b) => ?_) ?_; clear_value b; swap; dsimp only [b]; swap)
    | (intro b; clear_value b)
    | intro b
    | lift_lets
    | split
    | dsimp only

theorem makeErasable_keeps {x : Nat} (hz : Keeps z s) : Keeps z (makeErasable s x) := by
  unfold makeErasable
  repeat' first
    | with_reducible assumption
    | (with_reducible apply issueErases_keeps)
    | (with_reducible apply modSb_keeps)

theorem unpin_keeps {x : Nat} (hz : Keeps z s) : Keeps z (unpin s x) := by
  unfold unpin
  repeat' first
    | with_reducible assumption
    | (with_reducible apply issueErases_keeps)
    | (with_reducible apply modSb_keeps)

theorem pin_keeps {x : Nat} (hz : Keeps z s) : Keeps z (pin s x) := by
  unfold pin
  repeat' first
    | with_reducible assumption
    | (with_reducible apply modSb_keeps)

theorem sysPage_keeps {k : Nat} {us : List (Nat → Payload)} (hz : Keeps z s) : Keeps z (sysPage s k us).1 := by
  unfold sysPage
  repeat' first
    | with_reducible assumption
    | (with_reducible apply newPg_keeps)
    | (with_reducible apply takeWsn_keeps)
    | (with_reducible apply pgPut_keeps)
    | (with_reducible apply pgClose_keeps)
    | (with_reducible refine keeps_foldl (fun x b hx => ?_) ?_)
    | (with_reducible refine keeps_foldl_fst (fun x b hx => ?_) ?_)
    | (intro b; refine (fun (_ : Keeps z b) => ?_) ?_; clear_value b; swap; dsimp only [b]; swap)
    | (intro b; refine (fun (_ : Keeps z b.1) => ?_) ?_; clear_value b; swap; dsimp only [b]; swap)
    | (intro b; clear_value b)
    | intro b
    | lift_lets
    | split
    | (refine keeps_of_eq (by assumption) ?_)
    | dsimp only

theorem sysPages_keeps {k n : Nat} {us : List (Nat → Payload)} (hz : Keeps z s) : Keeps z (sysPages s k n us) := by
  induction n generalizing s us with
  | zero => exact hz
  | succ n ih =>
    unfold sysPages
    repeat' first
      | with_reducible assumption
      | (with_reducible apply ih)
      | (with_reducible apply sysPage_keeps)
      | (with_reducible apply keeps_ite)

theorem segClean_keeps {id : Nat} (hz : Keeps z s) : Keeps z (segClean s id) := by
  unfold segClean
  repeat' first
    | with_reducible assumption
    | (with_reducible apply writeBack_keeps)
    | (with_reducible apply updPhc_keeps)
    | (with_reducible apply keeps_ite)
    | (with_reducible apply keeps_ite_fst)
    | (intro b; refine (fun (_ : Keeps z b) => ?_) ?_; clear_value b; swap; dsimp only [b]; swap)
    | (intro b; refine (fun (_ : Keeps z b.1) => ?_) ?_; clear_value b; swap; dsimp only [b]; swap)
    | (intro b; clear_value b)
    | intro b
    | lift_lets
    | split

theorem segWrite_keeps {id : Nat} (hz : Keeps z s) : Keeps z (segWrite s id) := by
  unfold segWrite
  repeat' first
    | with_reducible assumption
    | (with_reducible apply segClean_keeps)
    | (with_reducible apply updJrc_keeps)
    | (with_reducible apply sysPages_keeps)
    | (with_reducible apply keeps_ite)
    | (intro b; refine (fun (_ : Keeps z b) => ?_) ?_; clear_value b; swap; dsimp only [b]; swap)
    | (intro b; clear_value b)
    | intro b
    | lift_lets
    | split

theorem writeTables_keeps (hz : Keeps z s) : Keeps z (writeTables s) := by
  unfold writeTables
  repeat' first
    | with_reducible assumption
    | (with_reducible apply turn_keeps)
    | (with_reducible apply updJrc_keeps)
    | (with_reducible apply sysPages_keeps)
    | (intro b; refine (fun (_ : Keeps z b) => ?_) ?_; clear_value b; swap; dsimp only [b]; swap)
    | (intro b; clear_value b)
    | intro b
    | lift_lets

theorem writeArea_keeps {r : Root} (hz : Keeps z s) : Keeps z (writeArea s r) := by
  unfold writeArea
  repeat' first
    | with_reducible assumption
    | (with_reducible apply updJrc_keeps)
    | (with_reducible apply sysPages_keeps)
    | (with_reducible apply keeps_ite)
    | (intro b; refine (fun (_ : Keeps z b) => ?_) ?_; clear_value b; swap; dsimp only [b]; swap)
    | (intro b; clear_value b)
    | intro b
    | lift_lets
    | split

theorem ckptStep_keeps (hz : Keeps z s) : Keeps z (ckptStep s) := by
  unfold ckptStep
  repeat' first
    | with_reducible assumption
    | (with_reducible apply writeTables_keeps)
    | (with_reducible apply updMap_keeps)
    | (with_reducible apply updJrc_keeps)
    | (with_reducible apply keeps_ite)
    | (with_reducible refine keeps_foldl (fun x b hx => ?_) ?_)
    | (intro b; refine (fun (_ : Keeps z b) => ?_) ?_; clear_value b; swap; dsimp only [b]; swap)
    | (intro b; clear_value b)
    | intro b
    | lift_lets
    | split

theorem ckptStart_keeps {ids : List Nat} (hz : Keeps z s) : Keeps z (ckptStart s ids) := by
  unfold ckptStart
  repeat' first
    | with_reducible assumption
    | (with_reducible apply updJrc_keeps)
    | (with_reducible apply dropHolder_keeps)
    | (with_reducible apply ckptStep_keeps)
    | (with_reducible apply turn_keeps)
    | (with_reducible apply segWrite_keeps)
    | (with_reducible refine keeps_foldl (fun x b hx => ?_) ?_)
    | (intro b; refine (fun (_ : Keeps z b) => ?_) ?_; clear_value b; swap; dsimp only [b]; swap)
    | (intro b; clear_value b)
    | intro b
    | lift_lets

theorem freeSystem_keeps {r : Root} (hz : Keeps z s) : Keeps z (freeSystem s r) := by
  unfold freeSystem
  repeat' first
    | with_reducible assumption
    | (with_reducible apply makeErasable_keeps)
    | (with_reducible apply keeps_ite)
    | (with_reducible refine keeps_foldl (fun x b hx => ?_) ?_)
    | (intro b; refine (fun (_ : Keeps z b) => ?_) ?_; clear_value b; swap; dsimp only [b]; swap)
    | (intro b; clear_value b)
    | intro b
    | lift_lets
    | split
    | dsimp only

theorem mirroredRead_keeps {off : Nat} {len : Nat} (hz : Keeps z s) : Keeps z (mirroredRead s off len).1 := by
  unfold mirroredRead
  repeat' first
    | with_reducible assumption
    | (with_reducible apply jramUe_keeps)
    | (with_reducible apply updJrc_keeps)
    | (with_reducible refine keeps_foldl (fun x b hx => ?_) ?_)
    | (with_reducible refine keeps_foldl_fst (fun x b hx => ?_) ?_)
    | (intro b; refine (fun (_ : Keeps z b) => ?_) ?_; clear_value b; swap; dsimp only [b]; swap)
    | (intro b; refine (fun (_ : Keeps z b.1) => ?_) ?_; clear_value b; swap; dsimp only [b]; swap)
    | (intro b; clear_value b)
    | intro b
    | lift_lets
    | split
    | (refine keeps_of_eq (by assumption) ?_)
    | dsimp only

theorem stall_keeps {bit : Nat} (hz : Keeps z s) : Keeps z (stall s bit) := by
  unfold stall
  repeat' first
    | with_reducible assumption
    | (with_reducible apply satAdd_keeps)
    | (with_reducible apply orReg_keeps)
    | (with_reducible apply updJrc_keeps)
    | (with_reducible apply raise_keeps)
    | (with_reducible apply keeps_ite)
    | (intro b; refine (fun (_ : Keeps z b) => ?_) ?_; clear_value b; swap; dsimp only [b]; swap)
    | (intro b; clear_value b)
    | intro b
    | lift_lets
    | split

theorem fullJudge_keeps (hz : Keeps z s) : Keeps z (fullJudge s) := by
  unfold fullJudge
  repeat' first
    | with_reducible assumption
    | (with_reducible apply updJrc_keeps)
    | (with_reducible apply epochTrig_keeps)
    | (with_reducible apply keeps_ite)
    | (intro b; refine (fun (_ : Keeps z b) => ?_) ?_; clear_value b; swap; dsimp only [b]; swap)
    | (intro b; clear_value b)
    | intro b
    | lift_lets
    | split

theorem batchStart_keeps (hz : Keeps z s) : Keeps z (batchStart s) := by
  unfold batchStart
  repeat' first
    | with_reducible assumption
    | (with_reducible apply updJrc_keeps)
    | (with_reducible apply stall_keeps)
    | (with_reducible apply fullJudge_keeps)
    | (with_reducible apply keeps_ite)
    | (with_reducible apply keeps_ite_fst)
    | (intro b; refine (fun (_ : Keeps z b) => ?_) ?_; clear_value b; swap; dsimp only [b]; swap)
    | (intro b; refine (fun (_ : Keeps z b.1) => ?_) ?_; clear_value b; swap; dsimp only [b]; swap)
    | (intro b; clear_value b)
    | intro b
    | lift_lets
    | split
    | (refine keeps_of_eq (by assumption) ?_)
    | dsimp only

theorem trig54_keeps {a : Nat} (hz : Keeps z s) : Keeps z (trig54 s a) := by
  unfold trig54
  repeat' first
    | with_reducible assumption
    | (with_reducible apply wrField_keeps)
    | (intro b; refine (fun (_ : Keeps z b) => ?_) ?_; clear_value b; swap; dsimp only [b]; swap)
    | (intro b; clear_value b)
    | intro b
    | lift_lets

theorem cutover_keeps (hz : Keeps z s) : Keeps z (cutover s) := by
  unfold cutover
  repeat' first
    | with_reducible assumption
    | (with_reducible apply wrField_keeps)
    | (with_reducible apply trig54_keeps)
    | (with_reducible apply updJrc_keeps)
    | (with_reducible apply turn_keeps)
    | (with_reducible apply packClose_keeps)
    | (with_reducible refine keeps_foldl (fun x b hx => ?_) ?_)
    | (intro b; refine (fun (_ : Keeps z b) => ?_) ?_; clear_value b; swap; dsimp only [b]; swap)
    | (intro b; clear_value b)
    | intro b
    | lift_lets

theorem dloEval_keeps (hz : Keeps z s) : Keeps z (dloEval s) := by
  unfold dloEval
  repeat' first
    | with_reducible assumption
    | (with_reducible apply updPat_keeps)
    | (intro b; refine (fun (_ : Keeps z b) => ?_) ?_; clear_value b; swap; dsimp only [b]; swap)
    | (intro b; refine (fun (_ : Keeps z b.1) => ?_) ?_; clear_value b; swap; dsimp only [b]; swap)
    | (intro b; clear_value b)
    | intro b
    | lift_lets

theorem cutoverDone_keeps (hz : Keeps z s) : Keeps z (cutoverDone s) := by
  unfold cutoverDone
  repeat' first
    | with_reducible assumption
    | (with_reducible apply updJrc_keeps)
    | (with_reducible apply updMap_keeps)
    | (with_reducible apply dloEval_keeps)
    | (with_reducible apply wrField_keeps)
    | (with_reducible apply orReg_keeps)
    | (with_reducible apply fullJudge_keeps)
    | (with_reducible apply ckptStart_keeps)
    | (with_reducible apply raise_keeps)
    | (with_reducible apply keeps_ite)
    | (intro b; refine (fun (_ : Keeps z b) => ?_) ?_; clear_value b; swap; dsimp only [b]; swap)
    | (intro b; clear_value b)
    | intro b
    | lift_lets
    | split

theorem jrcCommit_keeps (hz : Keeps z s) : Keeps z (jrcCommit s) := by
  unfold jrcCommit
  repeat' first
    | with_reducible assumption
    | (with_reducible apply wrField_keeps)
    | (with_reducible apply trig54_keeps)
    | (with_reducible apply updJrc_keeps)
    | (intro b; refine (fun (_ : Keeps z b) => ?_) ?_; clear_value b; swap; dsimp only [b]; swap)
    | (intro b; clear_value b)
    | intro b
    | lift_lets

theorem rootCut_keeps (hz : Keeps z s) : Keeps z (rootCut s) := by
  unfold rootCut
  repeat' first
    | with_reducible assumption
    | (with_reducible apply freshBelow_keeps)
    | (with_reducible apply updJrc_keeps)
    | (with_reducible apply keeps_ite)
    | (with_reducible apply keeps_ite_fst)
    | (with_reducible refine keeps_foldl (fun x b hx => ?_) ?_)
    | (with_reducible refine keeps_foldl_fst (fun x b hx => ?_) ?_)
    | (intro b; refine (fun (_ : Keeps z b) => ?_) ?_; clear_value b; swap; dsimp only [b]; swap)
    | (intro b; refine (fun (_ : Keeps z b.1) => ?_) ?_; clear_value b; swap; dsimp only [b]; swap)
    | (intro b; clear_value b)
    | intro b
    | lift_lets
    | split
    | (refine keeps_of_eq (by assumption) ?_)
    | dsimp only

theorem rootCommitDone_keeps (hz : Keeps z s) : Keeps z (rootCommitDone s) := by
  unfold rootCommitDone
  repeat' first
    | with_reducible assumption
    | (with_reducible apply updJrc_keeps)
    | (with_reducible apply updTab_keeps)
    | (with_reducible apply updMap_keeps)
    | (with_reducible apply updPat_keeps)
    | (with_reducible apply wr_keeps)
    | (with_reducible apply raise_keeps)
    | (with_reducible apply orReg_keeps)
    | (with_reducible apply wrField_keeps)
    | (with_reducible apply fullJudge_keeps)
    | (with_reducible apply ckptStep_keeps)
    | (with_reducible apply turn_keeps)
    | (with_reducible apply writeArea_keeps)
    | (with_reducible apply freeSystem_keeps)
    | (with_reducible apply dropHolder_keeps)
    | (with_reducible apply keeps_ite)
    | (with_reducible apply keeps_ite_fst)
    | (intro b; refine (fun (_ : Keeps z b) => ?_) ?_; clear_value b; swap; dsimp only [b]; swap)
    | (intro b; refine (fun (_ : Keeps z b.1) => ?_) ?_; clear_value b; swap; dsimp only [b]; swap)
    | (with_reducible apply hfn)
    | (intro b; refine (fun (hfn : ∀ x, Keeps z x → Keeps z (b x)) => ?_) ?_; clear_value b; swap; (intro x hx; dsimp only [b]); swap)
    | (intro b; refine (fun (hfn : ∀ x y, Keeps z x → Keeps z (b x y)) => ?_) ?_; clear_value b; swap; (intro x y hx; dsimp only [b]); swap)
    | (with_reducible apply hfc)
    | (with_reducible apply hfd)
    | (intro b; refine (fun (hfc : ∀ x, Keeps z (b x)) => ?_) ?_; clear_value b; swap; (intro x; dsimp only [b]); swap)
    | (intro b; refine (fun (hfd : ∀ x y, Keeps z (b x y)) => ?_) ?_; clear_value b; swap; (intro x y; dsimp only [b]); swap)
    | (intro b; clear_value b)
    | intro b
    | lift_lets
    | split
    | dsimp only

theorem epochPeriod_keeps (hz : Keeps z s) : Keeps z (epochPeriod s) := by
  unfold epochPeriod
  repeat' first
    | with_reducible assumption
    | (with_reducible apply epochTrig_keeps)
    | (with_reducible apply updJrc_keeps)
    | (with_reducible apply keeps_ite)
    | (intro b; refine (fun (_ : Keeps z b) => ?_) ?_; clear_value b; swap; dsimp only [b]; swap)
    | (intro b; clear_value b)
    | intro b
    | lift_lets
    | split

theorem minspExpiry_keeps (hz : Keeps z s) : Keeps z (minspExpiry s) := by
  unfold minspExpiry
  repeat' first
    | with_reducible assumption
    | (with_reducible apply updJrc_keeps)
    | (with_reducible apply raise_keeps)
    | (with_reducible apply orReg_keeps)
    | (with_reducible apply keeps_ite)
    | (with_reducible refine keeps_foldl (fun x b hx => ?_) ?_)
    | (intro b; refine (fun (_ : Keeps z b) => ?_) ?_; clear_value b; swap; dsimp only [b]; swap)
    | (intro b; clear_value b)
    | intro b
    | lift_lets
    | split

theorem lastGasp_keeps {code : Nat} {origin : Nat} {payload : List Byte} (hz : Keeps z s) : Keeps z (lastGasp s code origin payload) := by
  unfold lastGasp
  repeat' first
    | with_reducible assumption
    | (intro b; refine (fun (_ : Keeps z b) => ?_) ?_; clear_value b; swap; dsimp only [b]; swap)
    | (intro b; clear_value b)
    | intro b
    | lift_lets
    | (fail_if_no_progress with_reducible refine keeps_upd ?_ rfl rfl rfl)

theorem recFail_keeps {cond : Nat} {off : Nat} (hz : Keeps z s) : Keeps z (recFail s cond off) := by
  unfold recFail
  repeat' first
    | with_reducible assumption
    | (with_reducible apply lastGasp_keeps)
    | (with_reducible apply noteCause_keeps)
    | (with_reducible apply wrField_keeps)
    | (with_reducible apply keeps_ite)
    | (intro b; refine (fun (_ : Keeps z b) => ?_) ?_; clear_value b; swap; dsimp only [b]; swap)
    | (intro b; clear_value b)
    | intro b
    | lift_lets
    | split
    | (fail_if_no_progress with_reducible refine keeps_upd ?_ rfl rfl rfl)

theorem placeRec_keeps {c : Cand} (hz : Keeps z s) : Keeps z (placeRec s c) := by
  unfold placeRec
  repeat' first
    | with_reducible assumption
    | (with_reducible apply orReg_keeps)
    | (with_reducible apply noteCause_keeps)
    | (with_reducible apply keeps_ite)
    | (intro b; refine (fun (_ : Keeps z b) => ?_) ?_; clear_value b; swap; dsimp only [b]; swap)
    | (intro b; clear_value b)
    | intro b
    | lift_lets
    | split
    | (fail_if_no_progress with_reducible refine keeps_upd ?_ rfl rfl rfl)

theorem slotLost_keeps {own : optParam Bool false} (hz : Keeps z s) : Keeps z (slotLost s own) := by
  unfold slotLost
  repeat' first
    | with_reducible assumption
    | (with_reducible apply satAdd_keeps)
    | (with_reducible apply orReg_keeps)
    | (with_reducible apply noteCause_keeps)
    | (with_reducible apply keeps_ite)
    | (intro b; refine (fun (_ : Keeps z b) => ?_) ?_; clear_value b; swap; dsimp only [b]; swap)
    | (intro b; clear_value b)
    | intro b
    | lift_lets
    | split

theorem recPop_keeps {c : Cand} (hz : Keeps z s) : Keeps z (recPop s c) := by
  unfold recPop
  repeat' first
    | with_reducible assumption
    | (with_reducible apply noteCause_keeps)
    | (with_reducible apply raise_keeps)
    | (with_reducible apply keeps_ite)
    | (intro b; refine (fun (_ : Keeps z b) => ?_) ?_; clear_value b; swap; dsimp only [b]; swap)
    | (intro b; clear_value b)
    | intro b
    | lift_lets
    | split
    | (fail_if_no_progress with_reducible refine keeps_upd ?_ rfl rfl rfl)
    | dsimp only

theorem entryWritten_keeps {fails : Nat} {lineExhausted : Bool} (hz : Keeps z s) : Keeps z (entryWritten s fails lineExhausted) := by
  unfold entryWritten
  repeat' first
    | with_reducible assumption
    | (with_reducible apply placeRec_keeps)
    | (with_reducible apply recPop_keeps)
    | (with_reducible apply slotLost_keeps)
    | (with_reducible apply recFail_keeps)
    | (with_reducible apply raise_keeps)
    | (with_reducible apply keeps_ite)
    | (intro b; refine (fun (_ : Keeps z b) => ?_) ?_; clear_value b; swap; dsimp only [b]; swap)
    | (intro b; clear_value b)
    | intro b
    | lift_lets
    | split
    | (fail_if_no_progress with_reducible refine keeps_upd ?_ rfl rfl rfl)
    | dsimp only

theorem paceRefill_keeps (hz : Keeps z s) : Keeps z (paceRefill s) := by
  unfold paceRefill
  repeat' first
    | with_reducible assumption
    | (with_reducible apply keeps_ite)
    | split
    | (fail_if_no_progress with_reducible refine keeps_upd ?_ rfl rfl rfl)

theorem scanDone_keeps (hz : Keeps z s) : Keeps z (scanDone s) := by
  unfold scanDone
  repeat' first
    | with_reducible assumption
    | (with_reducible apply wrField_keeps)
    | (with_reducible apply placeRec_keeps)
    | (with_reducible apply noteCause_keeps)
    | (with_reducible apply keeps_ite)
    | (with_reducible refine keeps_foldl (fun x b hx => ?_) ?_)
    | (intro b; refine (fun (_ : Keeps z b) => ?_) ?_; clear_value b; swap; dsimp only [b]; swap)
    | (intro b; clear_value b)
    | intro b
    | lift_lets
    | split
    | (fail_if_no_progress with_reducible refine keeps_upd ?_ rfl rfl rfl)

theorem setBank_keeps {i : Initiator} {b : EvrBank} (hz : Keeps z s) : Keeps z (setBank s i b) := by
  unfold setBank
  repeat' first
    | with_reducible assumption
    | (fail_if_no_progress with_reducible refine keeps_upd ?_ rfl rfl rfl)

theorem circLost_keeps {i : Nat} (hz : Keeps z s) : Keeps z (circLost s i) := by
  unfold circLost
  repeat' first
    | with_reducible assumption
    | (with_reducible apply slotLost_keeps)
    | (with_reducible apply recFail_keeps)
    | (with_reducible apply keeps_ite)
    | (intro b; refine (fun (_ : Keeps z b) => ?_) ?_; clear_value b; swap; dsimp only [b]; swap)
    | (intro b; clear_value b)
    | intro b
    | lift_lets
    | split
    | (fail_if_no_progress with_reducible refine keeps_upd ?_ rfl rfl rfl)
    | dsimp only

theorem foundLost_keeps {k : Nat} {second : Bool} (hz : Keeps z s) : Keeps z (foundLost s k second) := by
  unfold foundLost
  repeat' first
    | with_reducible assumption
    | (with_reducible apply recFail_keeps)
    | (with_reducible apply keeps_ite)
    | (intro b; refine (fun (_ : Keeps z b) => ?_) ?_; clear_value b; swap; dsimp only [b]; swap)
    | (intro b; clear_value b)
    | intro b
    | lift_lets
    | split
    | (fail_if_no_progress with_reducible refine keeps_upd ?_ rfl rfl rfl)
    | dsimp only

theorem recorderLost_keeps {off : Nat} (hz : Keeps z s) : Keeps z (recorderLost s off) := by
  unfold recorderLost
  repeat' first
    | with_reducible assumption
    | (with_reducible apply foundLost_keeps)
    | (with_reducible apply circLost_keeps)
    | (with_reducible apply keeps_ite)
    | split

theorem slotUnreadable_keeps {q : Nat} (hz : Keeps z s) : Keeps z (slotUnreadable s q) := by
  unfold slotUnreadable
  repeat' first
    | with_reducible assumption
    | (with_reducible apply foundLost_keeps)
    | (with_reducible apply jramUe_keeps)
    | (with_reducible apply circLost_keeps)
    | (with_reducible apply keeps_ite)
    | split
    | dsimp only

theorem setCursor_keeps {i : Initiator} {q : Nat} {slotUe : Bool} (hz : Keeps z s) : Keeps z (setCursor s i q slotUe) := by
  unfold setCursor
  repeat' first
    | with_reducible assumption
    | (with_reducible apply slotUnreadable_keeps)
    | (with_reducible apply setBank_keeps)
    | (with_reducible apply keeps_ite)
    | (with_reducible apply keeps_ite_fst)
    | (intro b; refine (fun (_ : Keeps z b) => ?_) ?_; clear_value b; swap; dsimp only [b]; swap)
    | (intro b; refine (fun (_ : Keeps z b.1) => ?_) ?_; clear_value b; swap; dsimp only [b]; swap)
    | (intro b; clear_value b)
    | intro b
    | lift_lets
    | split

theorem flushSup_keeps (hz : Keeps z s) : Keeps z (flushSup s) := by
  unfold flushSup
  repeat' first
    | with_reducible assumption
    | (with_reducible apply enqueue_keeps)
    | (with_reducible apply keeps_ite)
    | (with_reducible apply keeps_ite_fst)
    | (with_reducible refine keeps_foldl (fun x b hx => ?_) ?_)
    | (with_reducible refine keeps_foldl_fst (fun x b hx => ?_) ?_)
    | (intro b; refine (fun (_ : Keeps z b) => ?_) ?_; clear_value b; swap; dsimp only [b]; swap)
    | (intro b; refine (fun (_ : Keeps z b.1) => ?_) ?_; clear_value b; swap; dsimp only [b]; swap)
    | (intro b; clear_value b)
    | intro b
    | lift_lets
    | split
    | (fail_if_no_progress with_reducible refine keeps_upd ?_ rfl rfl rfl)

theorem rearm_keeps (hz : Keeps z s) : Keeps z (rearm s) := by
  unfold rearm
  repeat' first
    | with_reducible assumption
    | (with_reducible apply wrField_keeps)
    | (fail_if_no_progress with_reducible refine keeps_upd ?_ rfl rfl rfl)

theorem writeRecord_keeps {i : Initiator} {v : Nat} (hz : Keeps z s) : Keeps z (writeRecord s i v) := by
  unfold writeRecord
  repeat' first
    | with_reducible assumption
    | (with_reducible apply admitCand_keeps)
    | (intro b; refine (fun (_ : Keeps z b) => ?_) ?_; clear_value b; swap; dsimp only [b]; swap)
    | (intro b; clear_value b)
    | intro b
    | lift_lets

theorem flashFlush_keeps (hz : Keeps z s) : Keeps z (flashFlush s) := by
  unfold flashFlush
  repeat' first
    | with_reducible assumption
    | (fail_if_no_progress with_reducible refine keeps_upd ?_ rfl rfl rfl)

theorem patrolUnit_keeps {unit : Nat} (hz : Keeps z s) : Keeps z (patrolUnit s unit) := by
  unfold patrolUnit
  repeat' first
    | with_reducible assumption
    | (with_reducible apply updPat_keeps)
    | (with_reducible apply keeps_ite)
    | (with_reducible refine keeps_foldl (fun x b hx => ?_) ?_)
    | (intro b; refine (fun (_ : Keeps z b) => ?_) ?_; clear_value b; swap; dsimp only [b]; swap)
    | (intro b; clear_value b)
    | intro b
    | lift_lets
    | split

theorem repairWritten_keeps (hz : Keeps z s) : Keeps z (repairWritten s) := by
  unfold repairWritten
  repeat' first
    | with_reducible assumption
    | (with_reducible apply updJrc_keeps)

theorem addRepair_keeps {r : Repair} (hz : Keeps z s) : Keeps z (addRepair s r) := by
  unfold addRepair
  repeat' first
    | with_reducible assumption
    | (with_reducible apply repairWritten_keeps)
    | (with_reducible apply updMem_keeps)

theorem applyRow_keeps {a : State × List Repair} {r : Repair} (hz : Keeps z a.1) : Keeps z (applyRow a r).1 := by
  unfold applyRow
  repeat' first
    | with_reducible assumption
    | (with_reducible apply updMem_keeps)
    | (with_reducible apply raise_keeps)
    | (with_reducible apply keeps_ite)
    | (with_reducible apply keeps_ite_fst)
    | (intro b; refine (fun (_ : Keeps z b) => ?_) ?_; clear_value b; swap; dsimp only [b]; swap)
    | (intro b; refine (fun (_ : Keeps z b.1) => ?_) ?_; clear_value b; swap; dsimp only [b]; swap)
    | (intro b; clear_value b)
    | intro b
    | lift_lets
    | split
    | dsimp only

theorem repairRead_keeps (hz : Keeps z s) : Keeps z (repairRead s) := by
  unfold repairRead
  repeat' first
    | with_reducible assumption
    | (with_reducible apply mirroredRead_keeps)
    | (with_reducible apply updMem_keeps)
    | (with_reducible apply keeps_ite)
    | (with_reducible apply keeps_ite_fst)
    | (intro b; refine (fun (_ : Keeps z b) => ?_) ?_; clear_value b; swap; dsimp only [b]; swap)
    | (intro b; refine (fun (_ : Keeps z b.1) => ?_) ?_; clear_value b; swap; dsimp only [b]; swap)
    | (intro b; clear_value b)
    | intro b
    | lift_lets
    | split
    | (refine keeps_of_eq (by assumption) ?_)
    | dsimp only

theorem repairRows_keeps (hz : Keeps z s) : Keeps z (repairRows s) := by
  unfold repairRows
  repeat' first
    | with_reducible assumption
    | (with_reducible apply repairRead_keeps)
    | (with_reducible apply applyRow_keeps)
    | (with_reducible apply updMem_keeps)
    | (with_reducible refine keeps_foldl (fun x b hx => ?_) ?_)
    | (with_reducible refine keeps_foldl_fst (fun x b hx => ?_) ?_)
    | (intro b; refine (fun (_ : Keeps z b) => ?_) ?_; clear_value b; swap; dsimp only [b]; swap)
    | (intro b; refine (fun (_ : Keeps z b.1) => ?_) ?_; clear_value b; swap; dsimp only [b]; swap)
    | (intro b; clear_value b)
    | intro b
    | lift_lets
    | split
    | (refine keeps_of_eq (by assumption) ?_)
    | dsimp only

theorem fuseMapRows_keeps (hz : Keeps z s) : Keeps z (fuseMapRows s) := by
  unfold fuseMapRows
  repeat' first
    | with_reducible assumption
    | (with_reducible apply updMem_keeps)

theorem retirePage_keeps {addr : Nat} (hz : Keeps z s) : Keeps z (retirePage s addr) := by
  unfold retirePage
  repeat' first
    | with_reducible assumption
    | (with_reducible apply raise_keeps)
    | (with_reducible apply repairWritten_keeps)
    | (with_reducible apply updMem_keeps)
    | (with_reducible apply wr_keeps)
    | (with_reducible apply keeps_ite)
    | (intro b; refine (fun (_ : Keeps z b) => ?_) ?_; clear_value b; swap; dsimp only [b]; swap)
    | (intro b; clear_value b)
    | intro b
    | lift_lets
    | split
    | dsimp only

theorem retireLine_keeps {addr : Nat} (hz : Keeps z s) : Keeps z (retireLine s addr) := by
  unfold retireLine
  repeat' first
    | with_reducible assumption
    | (with_reducible apply raise_keeps)
    | (with_reducible apply addRepair_keeps)
    | (with_reducible apply updMem_keeps)
    | (with_reducible apply keeps_ite)
    | (intro b; refine (fun (_ : Keeps z b) => ?_) ?_; clear_value b; swap; dsimp only [b]; swap)
    | (intro b; clear_value b)
    | intro b
    | lift_lets
    | split

theorem lineSwitch_keeps {die : Nat} {line : Nat} (hz : Keeps z s) : Keeps z (lineSwitch s die line) := by
  unfold lineSwitch
  repeat' first
    | with_reducible assumption
    | (with_reducible apply updMem_keeps)

theorem retireRow_keeps {unit : Nat} {addr : Nat} (hz : Keeps z s) : Keeps z (retireRow s unit addr) := by
  unfold retireRow
  repeat' first
    | with_reducible assumption
    | (with_reducible apply addRepair_keeps)
    | (with_reducible apply freshBelow_keeps)
    | (with_reducible apply updPhc_keeps)
    | (with_reducible apply wayDisable_keeps)
    | (with_reducible apply keeps_ite)
    | (with_reducible apply keeps_ite_fst)
    | (intro b; refine (fun (_ : Keeps z b) => ?_) ?_; clear_value b; swap; dsimp only [b]; swap)
    | (intro b; refine (fun (_ : Keeps z b.1) => ?_) ?_; clear_value b; swap; dsimp only [b]; swap)
    | (intro b; clear_value b)
    | intro b
    | lift_lets
    | split
    | (refine keeps_of_eq (by assumption) ?_)
    | dsimp only

theorem hardFault_keeps {mem : Nat} {unit : Nat} {addr : Nat} (hz : Keeps z s) : Keeps z (hardFault s mem unit addr) := by
  unfold hardFault
  repeat' first
    | with_reducible assumption
    | (with_reducible apply raise_keeps)
    | (with_reducible apply wr_keeps)
    | (with_reducible apply retirePage_keeps)
    | (with_reducible apply retireLine_keeps)
    | (with_reducible apply recFail_keeps)
    | (with_reducible apply retireRow_keeps)
    | (with_reducible apply keeps_ite)
    | (intro b; refine (fun (_ : Keeps z b) => ?_) ?_; clear_value b; swap; dsimp only [b]; swap)
    | (intro b; clear_value b)
    | intro b
    | lift_lets
    | split

theorem offender_keeps {mem : Nat} {unit : Nat} {addr : Nat} (hz : Keeps z s) : Keeps z (offender s mem unit addr) := by
  unfold offender
  repeat' first
    | with_reducible assumption
    | (with_reducible apply hardFault_keeps)
    | (with_reducible apply updMem_keeps)
    | (with_reducible apply satAdd_keeps)
    | (with_reducible apply keeps_ite)
    | (intro b; refine (fun (_ : Keeps z b) => ?_) ?_; clear_value b; swap; dsimp only [b]; swap)
    | (intro b; clear_value b)
    | intro b
    | lift_lets
    | split
    | dsimp only

theorem declareFailed_keeps {i : Nat} {pos : Nat} (hz : Keeps z s) : Keeps z (declareFailed s i pos) := by
  unfold declareFailed
  repeat' first
    | with_reducible assumption
    | (with_reducible apply wr_keeps)
    | (with_reducible apply orReg_keeps)
    | (with_reducible apply wrField_keeps)
    | (with_reducible apply addRepair_keeps)
    | (with_reducible apply raise_keeps)
    | (with_reducible apply keeps_ite)
    | (intro b; refine (fun (_ : Keeps z b) => ?_) ?_; clear_value b; swap; dsimp only [b]; swap)
    | (intro b; clear_value b)
    | intro b
    | lift_lets
    | split

theorem deviceHit_keeps {unit : Nat} {pos : Nat} (hz : Keeps z s) : Keeps z (deviceHit s unit pos) := by
  unfold deviceHit
  repeat' first
    | with_reducible assumption
    | (with_reducible apply updMem_keeps)
    | (with_reducible apply declareFailed_keeps)
    | (with_reducible apply keeps_ite)
    | (with_reducible apply keeps_ite_fst)
    | (intro b; refine (fun (_ : Keeps z b) => ?_) ?_; clear_value b; swap; dsimp only [b]; swap)
    | (intro b; refine (fun (_ : Keeps z b.1) => ?_) ?_; clear_value b; swap; dsimp only [b]; swap)
    | (intro b; clear_value b)
    | intro b
    | lift_lets
    | split

theorem dramReport_keeps {unit : Nat} {r : UnitRead} (hz : Keeps z s) : Keeps z (dramReport s unit r) := by
  unfold dramReport
  repeat' first
    | with_reducible assumption
    | (with_reducible apply updMem_keeps)
    | (with_reducible apply offender_keeps)
    | (with_reducible apply deviceHit_keeps)
    | (with_reducible apply satAdd_keeps)
    | (with_reducible apply patrolUnit_keeps)
    | (with_reducible apply drcReport_keeps)
    | (with_reducible apply keeps_ite)
    | (intro b; refine (fun (_ : Keeps z b) => ?_) ?_; clear_value b; swap; dsimp only [b]; swap)
    | (intro b; clear_value b)
    | intro b
    | lift_lets
    | split
    | dsimp only

theorem dramRead_keeps {unit : Nat} {r : UnitRead} (hz : Keeps z s) : Keeps z (dramRead s unit r) := by
  unfold dramRead
  repeat' first
    | with_reducible assumption
    | (with_reducible apply dramReport_keeps)
    | (with_reducible apply lostLine_keeps)
    | (with_reducible apply keeps_ite)
    | (intro b; refine (fun (_ : Keeps z b) => ?_) ?_; clear_value b; swap; dsimp only [b]; swap)
    | (intro b; clear_value b)
    | intro b
    | lift_lets
    | split

theorem zeroUnit_keeps {u : Nat} (hz : Keeps z s) : Keeps z (zeroUnit s u) := by
  unfold zeroUnit
  repeat' first
    | with_reducible assumption
    | (with_reducible apply updMem_keeps)
    | (with_reducible refine keeps_dram_filter ?_ _)
    | (fail_if_no_progress with_reducible refine keeps_upd ?_ rfl rfl rfl)

theorem zeroFill_keeps (hz : Keeps z s) : Keeps z (zeroFill s) := by
  unfold zeroFill
  repeat' first
    | with_reducible assumption
    | (with_reducible apply trig54_keeps)
    | (with_reducible apply updMem_keeps)
    | (intro b; refine (fun (_ : Keeps z b) => ?_) ?_; clear_value b; swap; dsimp only [b]; swap)
    | (intro b; refine (fun (_ : Keeps z b.1) => ?_) ?_; clear_value b; swap; dsimp only [b]; swap)
    | (intro b; clear_value b)
    | intro b
    | lift_lets
    | (with_reducible refine keeps_dram_filter ?_ _)
    | (fail_if_no_progress with_reducible refine keeps_upd ?_ rfl rfl rfl)

theorem zeroLate_keeps {lo : Nat} {hi : Nat} (hz : Keeps z s) : Keeps z (zeroLate s lo hi) := by
  unfold zeroLate
  repeat' first
    | with_reducible assumption
    | (with_reducible apply freshBelow_keeps)
    | (with_reducible apply zeroUnit_keeps)
    | (with_reducible apply keeps_ite)
    | (with_reducible apply keeps_ite_fst)
    | (with_reducible refine keeps_foldl (fun x b hx => ?_) ?_)
    | (with_reducible refine keeps_foldl_fst (fun x b hx => ?_) ?_)
    | (intro b; refine (fun (_ : Keeps z b) => ?_) ?_; clear_value b; swap; dsimp only [b]; swap)
    | (intro b; refine (fun (_ : Keeps z b.1) => ?_) ?_; clear_value b; swap; dsimp only [b]; swap)
    | (intro b; clear_value b)
    | intro b
    | lift_lets
    | split
    | (refine keeps_of_eq (by assumption) ?_)
    | dsimp only

theorem zeroFillDone_keeps (hz : Keeps z s) : Keeps z (zeroFillDone s) := by
  unfold zeroFillDone
  repeat' first
    | with_reducible assumption
    | (with_reducible apply zeroLate_keeps)
    | (with_reducible apply updMem_keeps)
    | (with_reducible apply raise_keeps)
    | (with_reducible apply orReg_keeps)
    | (with_reducible apply wrField_keeps)
    | (with_reducible apply keeps_ite)
    | (intro b; refine (fun (_ : Keeps z b) => ?_) ?_; clear_value b; swap; dsimp only [b]; swap)
    | (intro b; clear_value b)
    | intro b
    | lift_lets
    | split
    | dsimp only

theorem drawNonce_keeps (hz : Keeps z s) : Keeps z (drawNonce s) := by
  unfold drawNonce
  repeat' first
    | with_reducible assumption
    | (with_reducible apply freshBelow_keeps)
    | (with_reducible apply updMem_keeps)
    | (intro b; refine (fun (_ : Keeps z b) => ?_) ?_; clear_value b; swap; dsimp only [b]; swap)
    | (intro b; refine (fun (_ : Keeps z b.1) => ?_) ?_; clear_value b; swap; dsimp only [b]; swap)
    | (intro b; clear_value b)
    | intro b
    | lift_lets
    | split
    | (refine keeps_of_eq (by assumption) ?_)
    | dsimp only

theorem mergeRmw_keeps {e : MergeEnt} {r : UnitRead} (hz : Keeps z s) : Keeps z (mergeRmw s e r) := by
  unfold mergeRmw
  repeat' first
    | with_reducible assumption
    | (with_reducible apply dramRead_keeps)
    | (with_reducible apply satAdd_keeps)
    | (with_reducible apply putDramLine_keeps)
    | (with_reducible apply updMem_keeps)
    | (with_reducible apply keeps_ite)
    | (intro b; refine (fun (_ : Keeps z b) => ?_) ?_; clear_value b; swap; dsimp only [b]; swap)
    | (intro b; clear_value b)
    | intro b
    | lift_lets
    | split

theorem flushEnt_keeps {e : MergeEnt} {r : optParam UnitRead { }} (hz : Keeps z s) : Keeps z (flushEnt s e r) := by
  unfold flushEnt
  repeat' first
    | with_reducible assumption
    | (with_reducible apply phcRequest_keeps)
    | (with_reducible apply putDramLine_keeps)
    | (with_reducible apply mergeRmw_keeps)
    | (with_reducible apply keeps_ite)
    | split

theorem dropEnt_keeps {line : Nat} (hz : Keeps z s) : Keeps z (dropEnt s line) := by
  unfold dropEnt
  repeat' first
    | with_reducible assumption
    | (with_reducible apply updMem_keeps)

theorem flushOne_keeps {line : Nat} (hz : Keeps z s) : Keeps z (flushOne s line) := by
  unfold flushOne
  repeat' first
    | with_reducible assumption
    | (with_reducible apply flushEnt_keeps)
    | (with_reducible apply dropEnt_keeps)
    | split
    | dsimp only

theorem flushLine_keeps {line : Nat} (hz : Keeps z s) : Keeps z (flushLine s line) := by
  unfold flushLine
  repeat' first
    | with_reducible assumption
    | (with_reducible apply flushOne_keeps)
    | (with_reducible apply keeps_ite)
    | (with_reducible refine keeps_foldl (fun x b hx => ?_) ?_)
    | split

theorem clientAccess_keeps {r : LineReq} (hz : Keeps z s) : Keeps z (clientAccess s r) := by
  unfold clientAccess
  repeat' first
    | with_reducible assumption
    | (with_reducible apply phcRequest_keeps)
    | (with_reducible apply flushLine_keeps)
    | (with_reducible apply updMem_keeps)
    | (with_reducible apply keeps_ite)
    | (intro b; refine (fun (_ : Keeps z b) => ?_) ?_; clear_value b; swap; dsimp only [b]; swap)
    | (intro b; clear_value b)
    | intro b
    | lift_lets
    | split
    | dsimp only

theorem clientPair_keeps {a : LineReq} {b : LineReq} (hz : Keeps z s) : Keeps z (clientPair s a b) := by
  unfold clientPair
  repeat' first
    | with_reducible assumption
    | (with_reducible apply clientAccess_keeps)
    | (with_reducible apply updMem_keeps)
    | (with_reducible apply flushLine_keeps)
    | (with_reducible apply keeps_ite)
    | (intro b; refine (fun (_ : Keeps z b) => ?_) ?_; clear_value b; swap; dsimp only [b]; swap)
    | (with_reducible apply hfn)
    | (intro b; refine (fun (hfn : ∀ x, Keeps z x → Keeps z (b x)) => ?_) ?_; clear_value b; swap; (intro x hx; dsimp only [b]); swap)
    | (intro b; refine (fun (hfn : ∀ x y, Keeps z x → Keeps z (b x y)) => ?_) ?_; clear_value b; swap; (intro x y hx; dsimp only [b]); swap)
    | (with_reducible apply hfc)
    | (with_reducible apply hfd)
    | (intro b; refine (fun (hfc : ∀ x, Keeps z (b x)) => ?_) ?_; clear_value b; swap; (intro x; dsimp only [b]); swap)
    | (intro b; refine (fun (hfd : ∀ x y, Keeps z (b x y)) => ?_) ?_; clear_value b; swap; (intro x y; dsimp only [b]); swap)
    | (intro b; clear_value b)
    | intro b
    | lift_lets
    | split

theorem clientAccesses_keeps {l : List LineReq} (hz : Keeps z s) : Keeps z (clientAccesses s l) := by
  induction s, l using clientAccesses.induct with
  | case1 s => exact hz
  | case2 s a =>
    unfold clientAccesses
    repeat' first
      | with_reducible assumption
      | (with_reducible apply clientAccess_keeps)
  | case3 s a b r h ih =>
    unfold clientAccesses
    rw [if_pos h]
    refine ih ?_
    repeat' first
      | with_reducible assumption
      | (with_reducible apply clientPair_keeps)
  | case4 s a b r h ih =>
    unfold clientAccesses
    rw [if_neg h]
    refine ih ?_
    repeat' first
      | with_reducible assumption
      | (with_reducible apply clientAccess_keeps)

theorem mergeAge_keeps {line : Nat} {r : UnitRead} (hz : Keeps z s) : Keeps z (mergeAge s line r) := by
  unfold mergeAge
  repeat' first
    | with_reducible assumption
    | (with_reducible apply flushOne_keeps)
    | (with_reducible apply flushEnt_keeps)
    | (with_reducible apply dropEnt_keeps)
    | (with_reducible refine keeps_foldl (fun x b hx => ?_) ?_)
    | split
    | dsimp only

theorem directWrite_keeps {a : Nat} {bytes : List Byte} (hz : Keeps z s) : Keeps z (directWrite s a bytes) := by
  unfold directWrite
  repeat' first
    | with_reducible assumption
    | (with_reducible apply flushLine_keeps)
    | (with_reducible apply putDramLine_keeps)
    | (with_reducible apply updMem_keeps)
    | (with_reducible apply keeps_ite)
    | (with_reducible refine keeps_foldl (fun x b hx => ?_) ?_)
    | (intro b; refine (fun (_ : Keeps z b) => ?_) ?_; clear_value b; swap; dsimp only [b]; swap)
    | (intro b; clear_value b)
    | intro b
    | lift_lets
    | split

theorem directRead_keeps {a : Nat} {n : Nat} (hz : Keeps z s) : Keeps z (directRead s a n).1 := by
  unfold directRead
  repeat' first
    | with_reducible assumption
    | (with_reducible apply dramRead_keeps)
    | (with_reducible apply flushLine_keeps)
    | (with_reducible apply keeps_ite)
    | (with_reducible apply keeps_ite_fst)
    | (with_reducible refine keeps_foldl (fun x b hx => ?_) ?_)
    | (with_reducible refine keeps_foldl_fst (fun x b hx => ?_) ?_)
    | (intro b; refine (fun (_ : Keeps z b) => ?_) ?_; clear_value b; swap; dsimp only [b]; swap)
    | (intro b; refine (fun (_ : Keeps z b.1) => ?_) ?_; clear_value b; swap; dsimp only [b]; swap)
    | (intro b; clear_value b)
    | intro b
    | lift_lets
    | split
    | dsimp only

theorem scrubStart_keeps {mem : Nat} {unit : Nat} {base : Nat} {len : Nat} (hz : Keeps z s) : Keeps z (scrubStart s mem unit base len) := by
  unfold scrubStart
  repeat' first
    | with_reducible assumption
    | (with_reducible apply wrField_keeps)
    | (with_reducible apply trig54_keeps)
    | (with_reducible apply updMem_keeps)
    | (intro b; refine (fun (_ : Keeps z b) => ?_) ?_; clear_value b; swap; dsimp only [b]; swap)
    | (intro b; refine (fun (_ : Keeps z b.1) => ?_) ?_; clear_value b; swap; dsimp only [b]; swap)
    | (intro b; clear_value b)
    | intro b
    | lift_lets

theorem scrubStopReq_keeps (hz : Keeps z s) : Keeps z (scrubStopReq s) := by
  unfold scrubStopReq
  repeat' first
    | with_reducible assumption
    | (with_reducible apply updMem_keeps)
    | (with_reducible apply keeps_ite)
    | split

theorem ttFetch_keeps {addr : Nat} (hz : Keeps z s) : Keeps z (ttFetch s addr) := by
  unfold ttFetch
  repeat' first
    | with_reducible assumption
    | (with_reducible apply clientAccess_keeps)

theorem ttStore_keeps {addr : Nat} {e : TtEntry} (hz : Keeps z s) : Keeps z (ttStore s addr e) := by
  unfold ttStore
  repeat' first
    | with_reducible assumption
    | (with_reducible apply updJrc_keeps)
    | (with_reducible apply clientAccess_keeps)
    | (with_reducible apply keeps_ite)
    | (intro b; refine (fun (_ : Keeps z b) => ?_) ?_; clear_value b; swap; dsimp only [b]; swap)
    | (intro b; clear_value b)
    | intro b
    | lift_lets
    | split

theorem ttUse_keeps {lun : Nat} {block : Nat} {page : Nat} (hz : Keeps z s) : Keeps z (ttUse s lun block page).1 := by
  unfold ttUse
  repeat' first
    | with_reducible assumption
    | (with_reducible apply ttFetch_keeps)
    | (with_reducible apply ttStore_keeps)
    | (with_reducible apply keeps_ite)
    | (with_reducible apply keeps_ite_fst)
    | (intro b; refine (fun (_ : Keeps z b) => ?_) ?_; clear_value b; swap; dsimp only [b]; swap)
    | (intro b; refine (fun (_ : Keeps z b.1) => ?_) ?_; clear_value b; swap; dsimp only [b]; swap)
    | (intro b; clear_value b)
    | intro b
    | lift_lets
    | split
    | dsimp only

theorem ttTracked_keeps {lun : Nat} {block : Nat} {page : Nat} (hz : Keeps z s) : Keeps z (ttTracked s lun block page).1 := by
  unfold ttTracked
  repeat' first
    | with_reducible assumption
    | (with_reducible apply ttUse_keeps)
    | (intro b; refine (fun (_ : Keeps z b) => ?_) ?_; clear_value b; swap; dsimp only [b]; swap)
    | (intro b; refine (fun (_ : Keeps z b.1) => ?_) ?_; clear_value b; swap; dsimp only [b]; swap)
    | (intro b; clear_value b)
    | intro b
    | lift_lets
    | split
    | (refine keeps_of_eq (by assumption) ?_)
    | dsimp only

theorem ttUpdate_keeps {lun : Nat} {block : Nat} {page : Nat} {decoded : Bool} {st : ReadStats} (hz : Keeps z s) : Keeps z (ttUpdate s lun block page decoded st) := by
  unfold ttUpdate
  repeat' first
    | with_reducible assumption
    | (with_reducible apply ttUse_keeps)
    | (with_reducible apply ttStore_keeps)
    | (with_reducible apply ttFetch_keeps)
    | (with_reducible apply dstCauseSet_keeps)
    | (with_reducible apply satAdd_keeps)
    | (with_reducible apply keeps_ite)
    | (with_reducible apply keeps_ite_fst)
    | (with_reducible refine keeps_foldl (fun x b hx => ?_) ?_)
    | (with_reducible refine keeps_foldl_fst (fun x b hx => ?_) ?_)
    | (intro b; refine (fun (_ : Keeps z b) => ?_) ?_; clear_value b; swap; dsimp only [b]; swap)
    | (intro b; refine (fun (_ : Keeps z b.1) => ?_) ?_; clear_value b; swap; dsimp only [b]; swap)
    | (with_reducible apply hfn)
    | (intro b; refine (fun (hfn : ∀ x, Keeps z x → Keeps z (b x)) => ?_) ?_; clear_value b; swap; (intro x hx; dsimp only [b]); swap)
    | (intro b; refine (fun (hfn : ∀ x y, Keeps z x → Keeps z (b x y)) => ?_) ?_; clear_value b; swap; (intro x y hx; dsimp only [b]); swap)
    | (with_reducible apply hfc)
    | (with_reducible apply hfd)
    | (intro b; refine (fun (hfc : ∀ x, Keeps z (b x)) => ?_) ?_; clear_value b; swap; (intro x; dsimp only [b]); swap)
    | (intro b; refine (fun (hfd : ∀ x y, Keeps z (b x y)) => ?_) ?_; clear_value b; swap; (intro x y; dsimp only [b]); swap)
    | (intro b; clear_value b)
    | intro b
    | lift_lets
    | split
    | (refine keeps_of_eq (by assumption) ?_)
    | (fail_if_no_progress with_reducible refine keeps_upd ?_ rfl rfl rfl)
    | dsimp only

theorem ttShifted_keeps {lun : Nat} {block : Nat} {page : Nat} {sig : ℤ} {j : Nat} (hz : Keeps z s) : Keeps z (ttShifted s lun block page sig j).1 := by
  unfold ttShifted
  repeat' first
    | with_reducible assumption
    | (with_reducible apply ttUse_keeps)
    | (intro b; refine (fun (_ : Keeps z b) => ?_) ?_; clear_value b; swap; dsimp only [b]; swap)
    | (intro b; refine (fun (_ : Keeps z b.1) => ?_) ?_; clear_value b; swap; dsimp only [b]; swap)
    | (intro b; clear_value b)
    | intro b
    | lift_lets
    | split
    | (refine keeps_of_eq (by assumption) ?_)
    | dsimp only

theorem ttHalfShift_keeps {lun : Nat} {block : Nat} {page : Nat} {tried : List (Nat × ℤ × ℤ)} (hz : Keeps z s) : Keeps z (ttHalfShift s lun block page tried) := by
  unfold ttHalfShift
  repeat' first
    | with_reducible assumption
    | (with_reducible apply ttUse_keeps)
    | (with_reducible apply ttStore_keeps)
    | (with_reducible refine keeps_foldl (fun x b hx => ?_) ?_)
    | (with_reducible refine keeps_foldl_fst (fun x b hx => ?_) ?_)
    | (intro b; refine (fun (_ : Keeps z b) => ?_) ?_; clear_value b; swap; dsimp only [b]; swap)
    | (intro b; refine (fun (_ : Keeps z b.1) => ?_) ?_; clear_value b; swap; dsimp only [b]; swap)
    | (with_reducible apply hfn)
    | (intro b; refine (fun (hfn : ∀ x, Keeps z x → Keeps z (b x)) => ?_) ?_; clear_value b; swap; (intro x hx; dsimp only [b]); swap)
    | (intro b; refine (fun (hfn : ∀ x y, Keeps z x → Keeps z (b x y)) => ?_) ?_; clear_value b; swap; (intro x y hx; dsimp only [b]); swap)
    | (with_reducible apply hfc)
    | (with_reducible apply hfd)
    | (intro b; refine (fun (hfc : ∀ x, Keeps z (b x)) => ?_) ?_; clear_value b; swap; (intro x; dsimp only [b]); swap)
    | (intro b; refine (fun (hfd : ∀ x y, Keeps z (b x y)) => ?_) ?_; clear_value b; swap; (intro x y; dsimp only [b]); swap)
    | (intro b; clear_value b)
    | intro b
    | lift_lets
    | split
    | (refine keeps_of_eq (by assumption) ?_)
    | dsimp only

theorem modCmd_keeps {id : Nat} {f : Cmd → Cmd} (hz : Keeps z s) : Keeps z (modCmd s id f) := by
  unfold modCmd
  repeat' first
    | with_reducible assumption
    | (with_reducible apply updSrt_keeps)
    | (with_reducible apply hf)

theorem dropCmd_keeps {id : Nat} (hz : Keeps z s) : Keeps z (dropCmd s id) := by
  unfold dropCmd
  repeat' first
    | with_reducible assumption
    | (with_reducible apply updSrt_keeps)

theorem hwm_keeps (hz : Keeps z s) : Keeps z (hwm s) := by
  unfold hwm
  repeat' first
    | with_reducible assumption
    | (with_reducible apply wrField_keeps)
    | (intro b; refine (fun (_ : Keeps z b) => ?_) ?_; clear_value b; swap; dsimp only [b]; swap)
    | (intro b; clear_value b)
    | intro b
    | lift_lets

theorem trkSettle_keeps (hz : Keeps z s) : Keeps z (trkSettle s) := by
  unfold trkSettle
  repeat' first
    | with_reducible assumption
    | (with_reducible apply wrField_keeps)
    | (with_reducible apply keeps_ite)
    | split

theorem unpinCmd_keeps {id : Nat} {pins : List Nat} (hz : Keeps z s) : Keeps z (unpinCmd s id pins) := by
  unfold unpinCmd
  repeat' first
    | with_reducible assumption
    | (with_reducible apply updMap_keeps)
    | (with_reducible apply unpin_keeps)
    | (with_reducible apply keeps_ite)
    | (with_reducible refine keeps_foldl (fun x b hx => ?_) ?_)
    | split

theorem settlePins_keeps (hz : Keeps z s) : Keeps z (settlePins s) := by
  unfold settlePins
  repeat' first
    | with_reducible assumption
    | (with_reducible apply unpin_keeps)
    | (with_reducible apply updMap_keeps)
    | (with_reducible apply keeps_ite)
    | (with_reducible apply keeps_ite_fst)
    | (with_reducible refine keeps_foldl (fun x b hx => ?_) ?_)
    | (with_reducible refine keeps_foldl_fst (fun x b hx => ?_) ?_)
    | (intro b; refine (fun (_ : Keeps z b) => ?_) ?_; clear_value b; swap; dsimp only [b]; swap)
    | (intro b; refine (fun (_ : Keeps z b.1) => ?_) ?_; clear_value b; swap; dsimp only [b]; swap)
    | (intro b; clear_value b)
    | intro b
    | lift_lets
    | split

theorem deleteSettled_keeps {q : Sqe} (hz : Keeps z s) : Keeps z (deleteSettled s q) := by
  unfold deleteSettled
  repeat' first
    | with_reducible assumption
    | (with_reducible apply complete_keeps)
    | (with_reducible apply modPort_keeps)
    | (with_reducible apply keeps_ite)
    | split
    | (fail_if_no_progress with_reducible refine keeps_upd ?_ rfl rfl rfl)
    | dsimp only

theorem settlePressure_keeps (hz : Keeps z s) : Keeps z (settlePressure s) := by
  unfold settlePressure
  repeat' first
    | with_reducible assumption
    | (with_reducible apply updMap_keeps)
    | (with_reducible apply keeps_ite)
    | (intro b; refine (fun (_ : Keeps z b) => ?_) ?_; clear_value b; swap; dsimp only [b]; swap)
    | (intro b; clear_value b)
    | intro b
    | lift_lets
    | split

theorem endCmd_keeps {id : Nat} {st : Status} {dw0 : optParam Nat 0} {lba : optParam Nat 0} {cs : optParam Nat 0} (hz : Keeps z s) : Keeps z (endCmd s id st dw0 lba cs) := by
  unfold endCmd
  repeat' first
    | with_reducible assumption
    | (with_reducible apply dropHolder_keeps)
    | (with_reducible apply dropCmd_keeps)
    | (with_reducible apply updMap_keeps)
    | (with_reducible apply unpinCmd_keeps)
    | (with_reducible apply trkSettle_keeps)
    | (with_reducible apply settlePressure_keeps)
    | (with_reducible apply raise_keeps)
    | (with_reducible apply modPort_keeps)
    | (with_reducible apply deleteSettled_keeps)
    | (with_reducible apply complete_keeps)
    | (with_reducible apply keeps_ite)
    | (intro b; refine (fun (_ : Keeps z b) => ?_) ?_; clear_value b; swap; dsimp only [b]; swap)
    | (intro b; clear_value b)
    | intro b
    | lift_lets
    | split
    | (fail_if_no_progress with_reducible refine keeps_upd ?_ rfl rfl rfl)
    | dsimp only

theorem failFuel_keeps {n : Nat} {id : Nat} {st : Status} {lba cs : Nat} (h : Keeps z s) : Keeps z (failFuel n s id st lba cs) := by
  induction n generalizing s id st lba cs with
  | zero => exact h
  | succ n ih =>
    unfold failFuel
    repeat' first
      | with_reducible assumption
      | (with_reducible apply ih)
      | (with_reducible apply endCmd_keeps)
      | (with_reducible apply keeps_ite)
      | (with_reducible apply keeps_ite_fst)
      | (with_reducible refine keeps_foldl (fun x b hx => ?_) ?_)
      | (with_reducible refine keeps_foldl_fst (fun x b hx => ?_) ?_)
      | (intro b; refine (fun (_ : Keeps z b) => ?_) ?_; clear_value b; swap; dsimp only [b]; swap)
      | (intro b; refine (fun (_ : Keeps z b.1) => ?_) ?_; clear_value b; swap; dsimp only [b]; swap)
      | (with_reducible apply hfn)
      | (with_reducible apply hf)
      | (intro b; refine (fun (hfn : ∀ x, Keeps z x → Keeps z (b x)) => ?_) ?_; clear_value b; swap; (intro x hx; dsimp only [b]); swap)
      | (intro b; refine (fun (hfn : ∀ x y, Keeps z x → Keeps z (b x y)) => ?_) ?_; clear_value b; swap; (intro x y hx; dsimp only [b]); swap)
      | (with_reducible apply hfc)
      | (with_reducible apply hfd)
      | (intro b; refine (fun (hfc : ∀ x, Keeps z (b x)) => ?_) ?_; clear_value b; swap; (intro x; dsimp only [b]); swap)
      | (intro b; refine (fun (hfd : ∀ x y, Keeps z (b x y)) => ?_) ?_; clear_value b; swap; (intro x y; dsimp only [b]); swap)
      | (intro b; clear_value b)
      | intro b
      | lift_lets
      | split
      | (refine keeps_of_eq (by assumption) ?_)
      | (with_reducible refine keeps_dram_write ?_ _ _)
      | (with_reducible refine keeps_dram_filter ?_ _)
      | (refine keeps_dram_puts ?_ _ _)
      | (fail_if_no_progress with_reducible refine keeps_upd ?_ rfl rfl rfl)
      | dsimp only

theorem failCmd_keeps {id : Nat} {st : Status} {lba : optParam Nat 0} {cs : optParam Nat 0} (hz : Keeps z s) : Keeps z (failCmd s id st lba cs) := by
  unfold failCmd
  repeat' first
    | with_reducible assumption
    | (with_reducible apply failFuel_keeps)

theorem inProgressEnds_keeps {id : Nat} {c : Cmd} {st : Status} (hz : Keeps z s) : Keeps z (inProgressEnds s id c st) := by
  unfold inProgressEnds
  repeat' first
    | with_reducible assumption
    | (with_reducible apply failCmd_keeps)
    | (with_reducible refine keeps_foldl (fun x b hx => ?_) ?_)
    | (with_reducible refine keeps_foldl_fst (fun x b hx => ?_) ?_)
    | split
    | dsimp only

theorem finishCmd_keeps {id : Nat} {dw0 : optParam Nat 0} (hz : Keeps z s) : Keeps z (finishCmd s id dw0) := by
  unfold finishCmd
  repeat' first
    | with_reducible assumption
    | (with_reducible apply endCmd_keeps)
    | (with_reducible apply modCmd_keeps)

theorem poolEvents_keeps {free : Nat} {used : Nat} (hz : Keeps z s) : Keeps z (poolEvents s free used) := by
  unfold poolEvents
  repeat' first
    | with_reducible assumption
    | (with_reducible apply raise_keeps)
    | (with_reducible apply settlePressure_keeps)
    | (with_reducible apply keeps_ite)
    | (intro b; refine (fun (_ : Keeps z b) => ?_) ?_; clear_value b; swap; dsimp only [b]; swap)
    | (intro b; clear_value b)
    | intro b
    | lift_lets
    | split

theorem takeBundle_keeps {h : Holder} {nsid : Nat} {p : Nat} (hz : Keeps z s) : Keeps z (takeBundle s h nsid p) := by
  unfold takeBundle
  repeat' first
    | with_reducible assumption
    | (with_reducible apply poolEvents_keeps)
    | (with_reducible apply updMap_keeps)

theorem tryBundle_keeps {h : Holder} {nsid : Nat} {p : Nat} {listed : Bool} (hz : Keeps z s) : Keeps z (tryBundle s h nsid p listed).1 := by
  unfold tryBundle
  repeat' first
    | with_reducible assumption
    | (with_reducible apply takeBundle_keeps)
    | (with_reducible apply keeps_ite)
    | (with_reducible apply keeps_ite_fst)
    | (intro b; refine (fun (_ : Keeps z b) => ?_) ?_; clear_value b; swap; dsimp only [b]; swap)
    | (intro b; refine (fun (_ : Keeps z b.1) => ?_) ?_; clear_value b; swap; dsimp only [b]; swap)
    | (intro b; clear_value b)
    | intro b
    | lift_lets
    | split
    | dsimp only

theorem waitBundle_keeps {w : Waiter} (hz : Keeps z s) : Keeps z (waitBundle s w) := by
  unfold waitBundle
  repeat' first
    | with_reducible assumption
    | (with_reducible apply raise_keeps)
    | (with_reducible apply updMap_keeps)
    | (with_reducible apply keeps_ite)
    | split

theorem corrupt_keeps {seg : Nat} (hz : Keeps z s) : Keeps z (corrupt s seg) := by
  unfold corrupt
  repeat' first
    | with_reducible assumption
    | (with_reducible apply needRebuild_keeps)
    | (with_reducible apply raise_keeps)
    | (with_reducible apply keeps_ite)
    | split

theorem corruptAny_keeps {ls : List (Nat × Nat)} (hz : Keeps z s) : Keeps z (corruptAny s ls) := by
  unfold corruptAny
  repeat' first
    | with_reducible assumption
    | (with_reducible apply corrupt_keeps)
    | (with_reducible refine keeps_foldl (fun x b hx => ?_) ?_)
    | (with_reducible refine keeps_foldl_fst (fun x b hx => ?_) ?_)
    | split
    | dsimp only

theorem placeLetters_keeps {id : Nat} {k : Nat} {p : Nat} {ls : List Nat} {pay : Nat → Nat → Payload} (hz : Keeps z s) : Keeps z (placeLetters s id k p ls pay).1 := by
  unfold placeLetters
  repeat' first
    | with_reducible assumption
    | (with_reducible apply newPg_keeps)
    | (with_reducible apply takeWsn_keeps)
    | (with_reducible apply pgPut_keeps)
    | (with_reducible apply pgClose_keeps)
    | (with_reducible apply packPut_keeps)
    | (with_reducible apply keeps_ite)
    | (with_reducible apply keeps_ite_fst)
    | (with_reducible refine keeps_foldl (fun x b hx => ?_) ?_)
    | (with_reducible refine keeps_foldl_fst (fun x b hx => ?_) ?_)
    | (intro b; refine (fun (_ : Keeps z b) => ?_) ?_; clear_value b; swap; dsimp only [b]; swap)
    | (intro b; refine (fun (_ : Keeps z b.1) => ?_) ?_; clear_value b; swap; dsimp only [b]; swap)
    | (with_reducible apply hf)
    | (intro b; clear_value b)
    | intro b
    | lift_lets
    | split
    | (refine keeps_of_eq (by assumption) ?_)
    | dsimp only

theorem capacityFail_keeps {id : Nat} (hz : Keeps z s) : Keeps z (capacityFail s id) := by
  unfold capacityFail
  repeat' first
    | with_reducible assumption
    | (with_reducible apply failCmd_keeps)
    | (with_reducible apply raise_keeps)
    | (with_reducible apply satAdd_keeps)

theorem joinLadder_keeps {x : Nat × Req} (hz : Keeps z s) : Keeps z (joinLadder s x) := by
  unfold joinLadder
  repeat' first
    | with_reducible assumption
    | (with_reducible apply updFlash_keeps)
    | (with_reducible apply keeps_ite)
    | (with_reducible apply keeps_ite_fst)
    | split

theorem addReads_keeps {cls : Nat} {ps : List (Nat × Req)} (hz : Keeps z s) : Keeps z (addReads s cls ps) := by
  unfold addReads
  repeat' first
    | with_reducible assumption
    | (with_reducible apply joinLadder_keeps)
    | (with_reducible apply ttTracked_keeps)
    | (with_reducible apply addOp_keeps)
    | (with_reducible refine keeps_foldl (fun x b hx => ?_) ?_)
    | (with_reducible refine keeps_foldl_fst (fun x b hx => ?_) ?_)
    | (intro b; refine (fun (_ : Keeps z b) => ?_) ?_; clear_value b; swap; dsimp only [b]; swap)
    | (intro b; refine (fun (_ : Keeps z b.1) => ?_) ?_; clear_value b; swap; dsimp only [b]; swap)
    | (with_reducible apply hfn)
    | (intro b; refine (fun (hfn : ∀ x, Keeps z x → Keeps z (b x)) => ?_) ?_; clear_value b; swap; (intro x hx; dsimp only [b]); swap)
    | (intro b; refine (fun (hfn : ∀ x y, Keeps z x → Keeps z (b x y)) => ?_) ?_; clear_value b; swap; (intro x y hx; dsimp only [b]); swap)
    | (with_reducible apply hfc)
    | (with_reducible apply hfd)
    | (intro b; refine (fun (hfc : ∀ x, Keeps z (b x)) => ?_) ?_; clear_value b; swap; (intro x; dsimp only [b]); swap)
    | (intro b; refine (fun (hfd : ∀ x y, Keeps z (b x y)) => ?_) ?_; clear_value b; swap; (intro x y; dsimp only [b]); swap)
    | (intro b; clear_value b)
    | intro b
    | lift_lets
    | split
    | (refine keeps_of_eq (by assumption) ?_)
    | dsimp only

theorem askNext_keeps {id : Nat} (hz : Keeps z s) : Keeps z (askNext s id) := by
  unfold askNext
  repeat' first
    | with_reducible assumption
    | (with_reducible apply askGroup_keeps)
    | (with_reducible apply modCmd_keeps)
    | (with_reducible apply keeps_ite)
    | split
    | dsimp only

theorem askAll_keeps (hz : Keeps z s) : Keeps z (askAll s) := by
  unfold askAll
  repeat' first
    | with_reducible assumption
    | (with_reducible apply askNext_keeps)
    | (with_reducible refine keeps_foldl (fun x b hx => ?_) ?_)
    | (with_reducible refine keeps_foldl_fst (fun x b hx => ?_) ?_)

theorem setWants_keeps {id : Nat} {ws : List (List Want)} (hz : Keeps z s) : Keeps z (setWants s id ws) := by
  unfold setWants
  repeat' first
    | with_reducible assumption
    | (with_reducible apply askNext_keeps)
    | (with_reducible apply turn_keeps)
    | (with_reducible apply modCmd_keeps)

theorem finishRead_keeps {id : Nat} (hz : Keeps z s) : Keeps z (finishRead s id) := by
  unfold finishRead
  repeat' first
    | with_reducible assumption
    | (with_reducible apply emit_keeps)
    | (with_reducible apply endCmd_keeps)
    | (with_reducible apply keeps_ite)
    | (with_reducible apply keeps_ite_fst)
    | (intro b; refine (fun (_ : Keeps z b) => ?_) ?_; clear_value b; swap; dsimp only [b]; swap)
    | (intro b; refine (fun (_ : Keeps z b.1) => ?_) ?_; clear_value b; swap; dsimp only [b]; swap)
    | (intro b; clear_value b)
    | intro b
    | lift_lets
    | split
    | (refine keeps_of_eq (by assumption) ?_)
    | dsimp only

theorem placeUnits_keeps {id : Nat} {c : Cmd} {n : Ns} {f : IoFields} {us : List (Nat × Nat × Nat)} (hz : Keeps z s) : Keeps z (placeUnits s id c n f us).1 := by
  unfold placeUnits
  repeat' first
    | with_reducible assumption
    | (with_reducible apply takeWsn_keeps)
    | (with_reducible apply packPut_keeps)
    | (with_reducible refine keeps_foldl (fun x b hx => ?_) ?_)
    | (with_reducible refine keeps_foldl_fst (fun x b hx => ?_) ?_)
    | (intro b; refine (fun (_ : Keeps z b) => ?_) ?_; clear_value b; swap; dsimp only [b]; swap)
    | (intro b; refine (fun (_ : Keeps z b.1) => ?_) ?_; clear_value b; swap; dsimp only [b]; swap)
    | (intro b; clear_value b)
    | intro b
    | lift_lets
    | split
    | (refine keeps_of_eq (by assumption) ?_)
    | dsimp only

theorem rmwAssemble_keeps {id : Nat} {c : Cmd} {n : Ns} {f : IoFields} (hz : Keeps z s) : Keeps z (rmwAssemble s id c n f).1 := by
  unfold rmwAssemble
  repeat' first
    | with_reducible assumption
    | (with_reducible apply newPg_keeps)
    | (with_reducible apply takeWsn_keeps)
    | (with_reducible apply pgPut_keeps)
    | (with_reducible apply pgClose_keeps)
    | (with_reducible apply tryBundle_keeps)
    | (with_reducible apply waitBundle_keeps)
    | (with_reducible apply keeps_ite)
    | (with_reducible apply keeps_ite_fst)
    | (with_reducible refine keeps_foldl (fun x b hx => ?_) ?_)
    | (with_reducible refine keeps_foldl_fst (fun x b hx => ?_) ?_)
    | (intro b; refine (fun (_ : Keeps z b) => ?_) ?_; clear_value b; swap; dsimp only [b]; swap)
    | (intro b; refine (fun (_ : Keeps z b.1) => ?_) ?_; clear_value b; swap; dsimp only [b]; swap)
    | (with_reducible apply hfn)
    | (intro b; refine (fun (hfn : ∀ x, Keeps z x → Keeps z (b x)) => ?_) ?_; clear_value b; swap; (intro x hx; dsimp only [b]); swap)
    | (intro b; refine (fun (hfn : ∀ x y, Keeps z x → Keeps z (b x y)) => ?_) ?_; clear_value b; swap; (intro x y hx; dsimp only [b]); swap)
    | (with_reducible apply hfc)
    | (with_reducible apply hfd)
    | (intro b; refine (fun (hfc : ∀ x, Keeps z (b x)) => ?_) ?_; clear_value b; swap; (intro x; dsimp only [b]); swap)
    | (intro b; refine (fun (hfd : ∀ x y, Keeps z (b x y)) => ?_) ?_; clear_value b; swap; (intro x y; dsimp only [b]); swap)
    | (intro b; clear_value b)
    | intro b
    | lift_lets
    | split
    | (refine keeps_of_eq (by assumption) ?_)
    | dsimp only

theorem writeGot_keeps {id : Nat} (hz : Keeps z s) : Keeps z (writeGot s id) := by
  unfold writeGot
  repeat' first
    | with_reducible assumption
    | (with_reducible apply failCmd_keeps)
    | (with_reducible apply placeUnits_keeps)
    | (with_reducible apply rmwAssemble_keeps)
    | (with_reducible apply setWants_keeps)
    | (with_reducible apply keeps_ite)
    | (with_reducible apply keeps_ite_fst)
    | (intro b; refine (fun (_ : Keeps z b) => ?_) ?_; clear_value b; swap; dsimp only [b]; swap)
    | (intro b; refine (fun (_ : Keeps z b.1) => ?_) ?_; clear_value b; swap; dsimp only [b]; swap)
    | (intro b; clear_value b)
    | intro b
    | lift_lets
    | split
    | (refine keeps_of_eq (by assumption) ?_)
    | dsimp only

theorem cmdGot_keeps {id : Nat} {ppa : Nat} {v : Option Payload} (hz : Keeps z s) : Keeps z (cmdGot s id ppa v) := by
  unfold cmdGot
  repeat' first
    | with_reducible assumption
    | (with_reducible apply modCmd_keeps)
    | (with_reducible apply finishRead_keeps)
    | (with_reducible apply writeGot_keeps)
    | (with_reducible apply keeps_ite)
    | (intro b; refine (fun (_ : Keeps z b) => ?_) ?_; clear_value b; swap; dsimp only [b]; swap)
    | (intro b; clear_value b)
    | intro b
    | lift_lets
    | split
    | dsimp only

theorem modReloc_keeps {id : Nat} {f : Reloc → Reloc} (hz : Keeps z s) : Keeps z (modReloc s id f) := by
  unfold modReloc
  repeat' first
    | with_reducible assumption
    | (with_reducible apply updMap_keeps)
    | (with_reducible apply hf)

theorem tryReloc_keeps {id : Nat} (hz : Keeps z s) : Keeps z (tryReloc s id) := by
  unfold tryReloc
  repeat' first
    | with_reducible assumption
    | (with_reducible apply modReloc_keeps)
    | (with_reducible apply askGroup_keeps)
    | (with_reducible apply keeps_ite)
    | (with_reducible refine keeps_foldl (fun x b hx => ?_) ?_)
    | (intro b; refine (fun (_ : Keeps z b) => ?_) ?_; clear_value b; swap; dsimp only [b]; swap)
    | (intro b; clear_value b)
    | intro b
    | lift_lets
    | split
    | dsimp only

theorem readPages_keeps {id : Nat} {pgs : List Nat} (hz : Keeps z s) : Keeps z (readPages s id pgs) := by
  unfold readPages
  repeat' first
    | with_reducible assumption
    | (with_reducible apply addReads_keeps)

theorem paceBack_keeps {x : Nat × Reloc} (hz : Keeps z s) : Keeps z (paceBack s x) := by
  unfold paceBack
  repeat' first
    | with_reducible assumption
    | (with_reducible apply updFlash_keeps)
    | (with_reducible apply modReloc_keeps)
    | (with_reducible apply keeps_ite)
    | (with_reducible apply keeps_ite_fst)
    | (intro b; refine (fun (_ : Keeps z b) => ?_) ?_; clear_value b; swap; dsimp only [b]; swap)
    | (intro b; refine (fun (_ : Keeps z b.1) => ?_) ?_; clear_value b; swap; dsimp only [b]; swap)
    | (with_reducible apply hfn)
    | (intro b; refine (fun (hfn : ∀ x, Keeps z x → Keeps z (b x)) => ?_) ?_; clear_value b; swap; (intro x hx; dsimp only [b]); swap)
    | (intro b; refine (fun (hfn : ∀ x y, Keeps z x → Keeps z (b x y)) => ?_) ?_; clear_value b; swap; (intro x y hx; dsimp only [b]); swap)
    | (with_reducible apply hfc)
    | (with_reducible apply hfd)
    | (intro b; refine (fun (hfc : ∀ x, Keeps z (b x)) => ?_) ?_; clear_value b; swap; (intro x; dsimp only [b]); swap)
    | (intro b; refine (fun (hfd : ∀ x y, Keeps z (b x y)) => ?_) ?_; clear_value b; swap; (intro x y; dsimp only [b]); swap)
    | (intro b; clear_value b)
    | intro b
    | lift_lets
    | split

theorem paceJob_keeps {x : Nat × Reloc} (hz : Keeps z s) : Keeps z (paceJob s x) := by
  unfold paceJob
  repeat' first
    | with_reducible assumption
    | (with_reducible apply readPages_keeps)
    | (with_reducible apply modReloc_keeps)
    | (with_reducible apply keeps_ite)
    | (with_reducible apply keeps_ite_fst)
    | (intro b; refine (fun (_ : Keeps z b) => ?_) ?_; clear_value b; swap; dsimp only [b]; swap)
    | (intro b; refine (fun (_ : Keeps z b.1) => ?_) ?_; clear_value b; swap; dsimp only [b]; swap)
    | (intro b; clear_value b)
    | intro b
    | lift_lets
    | split

theorem reclaimPace_keeps (hz : Keeps z s) : Keeps z (reclaimPace s) := by
  unfold reclaimPace
  repeat' first
    | with_reducible assumption
    | (with_reducible apply paceBack_keeps)
    | (with_reducible apply pump_keeps)
    | (with_reducible apply paceJob_keeps)
    | (with_reducible apply keeps_ite)
    | (with_reducible refine keeps_foldl (fun x b hx => ?_) ?_)
    | (intro b; refine (fun (_ : Keeps z b) => ?_) ?_; clear_value b; swap; dsimp only [b]; swap)
    | (intro b; clear_value b)
    | intro b
    | lift_lets
    | split

theorem earn_keeps (hz : Keeps z s) : Keeps z (earn s) := by
  unfold earn
  repeat' first
    | with_reducible assumption
    | (with_reducible apply updMap_keeps)
    | (with_reducible apply keeps_ite)
    | (intro b; refine (fun (_ : Keeps z b) => ?_) ?_; clear_value b; swap; dsimp only [b]; swap)
    | (intro b; clear_value b)
    | intro b
    | lift_lets
    | split
    | dsimp only

theorem spend_keeps {t : State} {id : Nat} (hz : Keeps z s) (hz1 : Keeps z t) : Keeps z (spend s t id) := by
  unfold spend
  repeat' first
    | with_reducible assumption
    | (with_reducible apply updMap_keeps)
    | (with_reducible apply keeps_ite)
    | (with_reducible apply keeps_ite_fst)
    | split

theorem refreshEnd_keeps {id : Nat} (hz : Keeps z s) : Keeps z (refreshEnd s id) := by
  unfold refreshEnd
  repeat' first
    | with_reducible assumption
    | (with_reducible apply updMap_keeps)
    | (with_reducible apply modOpen_keeps)
    | (with_reducible apply askSeal_keeps)
    | (with_reducible apply keeps_ite)
    | (with_reducible apply keeps_ite_fst)
    | (with_reducible refine keeps_foldl (fun x b hx => ?_) ?_)
    | (with_reducible refine keeps_foldl_fst (fun x b hx => ?_) ?_)
    | (intro b; refine (fun (_ : Keeps z b) => ?_) ?_; clear_value b; swap; dsimp only [b]; swap)
    | (intro b; refine (fun (_ : Keeps z b.1) => ?_) ?_; clear_value b; swap; dsimp only [b]; swap)
    | (intro b; clear_value b)
    | intro b
    | lift_lets
    | split
    | dsimp only

theorem markLost_keeps {id : Nat} {ppas : List Nat} (hz : Keeps z s) : Keeps z (markLost s id ppas) := by
  unfold markLost
  repeat' first
    | with_reducible assumption
    | (with_reducible apply modReloc_keeps)

theorem gatherPut_keeps {id : Nat} {r : Reloc} {g : Nat × Nat × List (Nat × Nat)} (hz : Keeps z s) : Keeps z (gatherPut s id r g) := by
  unfold gatherPut
  repeat' first
    | with_reducible assumption
    | (with_reducible apply markLost_keeps)
    | (with_reducible apply packPut_keeps)
    | (with_reducible apply modReloc_keeps)
    | (with_reducible apply newPg_keeps)
    | (with_reducible apply pgPut_keeps)
    | (with_reducible apply pgClose_keeps)
    | (with_reducible apply keeps_ite)
    | (with_reducible apply keeps_ite_fst)
    | (with_reducible refine keeps_foldl (fun x b hx => ?_) ?_)
    | (with_reducible refine keeps_foldl_fst (fun x b hx => ?_) ?_)
    | (intro b; refine (fun (_ : Keeps z b) => ?_) ?_; clear_value b; swap; dsimp only [b]; swap)
    | (intro b; refine (fun (_ : Keeps z b.1) => ?_) ?_; clear_value b; swap; dsimp only [b]; swap)
    | (intro b; clear_value b)
    | intro b
    | lift_lets
    | split
    | (refine keeps_of_eq (by assumption) ?_)
    | dsimp only

theorem relocPage_keeps {id : Nat} {pg : Nat} {slots : NMap (Option Payload)} (hz : Keeps z s) : Keeps z (relocPage s id pg slots) := by
  unfold relocPage
  repeat' first
    | with_reducible assumption
    | (with_reducible apply markLost_keeps)
    | (with_reducible apply newPg_keeps)
    | (with_reducible apply pgPut_keeps)
    | (with_reducible apply modReloc_keeps)
    | (with_reducible apply pgClose_keeps)
    | (with_reducible apply tryBundle_keeps)
    | (with_reducible apply waitBundle_keeps)
    | (with_reducible apply packPut_keeps)
    | (with_reducible apply addReads_keeps)
    | (with_reducible apply keeps_ite)
    | (with_reducible apply keeps_ite_fst)
    | (with_reducible refine keeps_foldl (fun x b hx => ?_) ?_)
    | (with_reducible refine keeps_foldl_fst (fun x b hx => ?_) ?_)
    | (intro b; refine (fun (_ : Keeps z b) => ?_) ?_; clear_value b; swap; dsimp only [b]; swap)
    | (intro b; refine (fun (_ : Keeps z b.1) => ?_) ?_; clear_value b; swap; dsimp only [b]; swap)
    | (intro b; clear_value b)
    | intro b
    | lift_lets
    | split
    | (refine keeps_of_eq (by assumption) ?_)
    | dsimp only

theorem relocLook_keeps {id : Nat} {pg : Nat} {slots : NMap (Option Payload)} (hz : Keeps z s) : Keeps z (relocLook s id pg slots) := by
  unfold relocLook
  repeat' first
    | with_reducible assumption
    | (with_reducible apply corruptAny_keeps)
    | (with_reducible apply modReloc_keeps)
    | (with_reducible apply relocPage_keeps)
    | (with_reducible apply keeps_ite)
    | (with_reducible apply keeps_ite_fst)
    | (intro b; refine (fun (_ : Keeps z b) => ?_) ?_; clear_value b; swap; dsimp only [b]; swap)
    | (intro b; refine (fun (_ : Keeps z b.1) => ?_) ?_; clear_value b; swap; dsimp only [b]; swap)
    | (intro b; clear_value b)
    | intro b
    | lift_lets
    | split

theorem gatherDone_keeps {id : Nat} (hz : Keeps z s) : Keeps z (gatherDone s id) := by
  unfold gatherDone
  repeat' first
    | with_reducible assumption
    | (with_reducible apply modReloc_keeps)
    | (with_reducible apply gatherPut_keeps)
    | (with_reducible refine keeps_foldl (fun x b hx => ?_) ?_)
    | (intro b; refine (fun (_ : Keeps z b) => ?_) ?_; clear_value b; swap; dsimp only [b]; swap)
    | (intro b; clear_value b)
    | intro b
    | lift_lets
    | split
    | dsimp only

theorem relocGot_keeps {id : Nat} {ppa : Nat} {v : Option Payload} (hz : Keeps z s) : Keeps z (relocGot s id ppa v) := by
  unfold relocGot
  repeat' first
    | with_reducible assumption
    | (with_reducible apply relocLook_keeps)
    | (with_reducible apply modReloc_keeps)
    | (with_reducible apply turn_keeps)
    | (with_reducible apply spend_keeps)
    | (with_reducible apply gatherDone_keeps)
    | (with_reducible apply refreshEnd_keeps)
    | (with_reducible apply tryReloc_keeps)
    | (with_reducible apply reclaimPace_keeps)
    | (with_reducible apply keeps_ite)
    | (intro b; refine (fun (_ : Keeps z b) => ?_) ?_; clear_value b; swap; dsimp only [b]; swap)
    | (intro b; clear_value b)
    | intro b
    | lift_lets
    | split
    | dsimp only

theorem relocRetry_keeps {id : Nat} (hz : Keeps z s) : Keeps z (relocRetry s id) := by
  unfold relocRetry
  repeat' first
    | with_reducible assumption
    | (with_reducible apply relocLook_keeps)
    | (with_reducible apply turn_keeps)
    | (with_reducible apply spend_keeps)
    | (with_reducible apply gatherDone_keeps)
    | (with_reducible apply refreshEnd_keeps)
    | (with_reducible apply tryReloc_keeps)
    | (with_reducible apply reclaimPace_keeps)
    | (with_reducible apply keeps_ite)
    | (with_reducible apply keeps_ite_fst)
    | (with_reducible refine keeps_foldl (fun x b hx => ?_) ?_)
    | (with_reducible refine keeps_foldl_fst (fun x b hx => ?_) ?_)
    | (intro b; refine (fun (_ : Keeps z b) => ?_) ?_; clear_value b; swap; dsimp only [b]; swap)
    | (intro b; refine (fun (_ : Keeps z b.1) => ?_) ?_; clear_value b; swap; dsimp only [b]; swap)
    | (intro b; clear_value b)
    | intro b
    | lift_lets
    | split
    | dsimp only

theorem startReloc_keeps {r : Reloc} {pgs : List Nat} (hz : Keeps z s) : Keeps z (startReloc s r pgs) := by
  unfold startReloc
  repeat' first
    | with_reducible assumption
    | (with_reducible apply updMap_keeps)
    | (with_reducible apply reclaimPace_keeps)
    | (with_reducible apply pump_keeps)
    | (with_reducible apply readPages_keeps)
    | (with_reducible apply keeps_ite)
    | (intro b; refine (fun (_ : Keeps z b) => ?_) ?_; clear_value b; swap; dsimp only [b]; swap)
    | (intro b; clear_value b)
    | intro b
    | lift_lets
    | split

theorem refreshRelocation_keeps (hz : Keeps z s) : Keeps z (refreshRelocation s) := by
  unfold refreshRelocation
  repeat' first
    | with_reducible assumption
    | (with_reducible apply updMap_keeps)
    | (with_reducible apply startReloc_keeps)
    | (intro b; refine (fun (_ : Keeps z b) => ?_) ?_; clear_value b; swap; dsimp only [b]; swap)
    | (intro b; clear_value b)
    | intro b
    | lift_lets
    | split
    | dsimp only

theorem jobWrite_keeps {idx : Nat} {r : Reloc} {st : Nat} (hz : Keeps z s) : Keeps z (jobWrite s idx r st) := by
  unfold jobWrite
  repeat' first
    | with_reducible assumption
    | (with_reducible apply directWrite_keeps)
    | (with_reducible apply updMap_keeps)
    | (intro b; refine (fun (_ : Keeps z b) => ?_) ?_; clear_value b; swap; dsimp only [b]; swap)
    | (intro b; clear_value b)
    | intro b
    | lift_lets

theorem takeJobs_keeps {n : Nat} (h : Keeps z s) : Keeps z (takeJobs n s) := by
  induction n generalizing s with
  | zero => exact h
  | succ n ih =>
    unfold takeJobs
    repeat' first
      | with_reducible assumption
      | (with_reducible apply ih)
      | (with_reducible apply updMap_keeps)
      | (with_reducible apply wr_keeps)
      | (with_reducible apply jobWrite_keeps)
      | (with_reducible apply directWrite_keeps)
      | (with_reducible apply modSb_keeps)
      | (with_reducible apply startReloc_keeps)
      | (with_reducible apply keeps_ite)
      | (with_reducible apply keeps_ite_fst)
      | (with_reducible refine keeps_foldl (fun x b hx => ?_) ?_)
      | (with_reducible refine keeps_foldl_fst (fun x b hx => ?_) ?_)
      | (intro b; refine (fun (_ : Keeps z b) => ?_) ?_; clear_value b; swap; dsimp only [b]; swap)
      | (intro b; refine (fun (_ : Keeps z b.1) => ?_) ?_; clear_value b; swap; dsimp only [b]; swap)
      | (with_reducible apply hfn)
      | (with_reducible apply hf)
      | (intro b; refine (fun (hfn : ∀ x, Keeps z x → Keeps z (b x)) => ?_) ?_; clear_value b; swap; (intro x hx; dsimp only [b]); swap)
      | (intro b; refine (fun (hfn : ∀ x y, Keeps z x → Keeps z (b x y)) => ?_) ?_; clear_value b; swap; (intro x y hx; dsimp only [b]); swap)
      | (with_reducible apply hfc)
      | (with_reducible apply hfd)
      | (intro b; refine (fun (hfc : ∀ x, Keeps z (b x)) => ?_) ?_; clear_value b; swap; (intro x; dsimp only [b]); swap)
      | (intro b; refine (fun (hfd : ∀ x y, Keeps z (b x y)) => ?_) ?_; clear_value b; swap; (intro x y; dsimp only [b]); swap)
      | (intro b; clear_value b)
      | intro b
      | lift_lets
      | split
      | (refine keeps_of_eq (by assumption) ?_)
      | (with_reducible refine keeps_dram_write ?_ _ _)
      | (with_reducible refine keeps_dram_filter ?_ _)
      | (refine keeps_dram_puts ?_ _ _)
      | (fail_if_no_progress with_reducible refine keeps_upd ?_ rfl rfl rfl)
      | dsimp only

theorem jobPlace_keeps {jobs : List JobReq} (hz : Keeps z s) : Keeps z (jobPlace s jobs) := by
  unfold jobPlace
  repeat' first
    | with_reducible assumption
    | (with_reducible apply directWrite_keeps)
    | (with_reducible refine keeps_foldl (fun x b hx => ?_) ?_)
    | (with_reducible refine keeps_foldl_fst (fun x b hx => ?_) ?_)
    | (intro b; refine (fun (_ : Keeps z b) => ?_) ?_; clear_value b; swap; dsimp only [b]; swap)
    | (intro b; refine (fun (_ : Keeps z b.1) => ?_) ?_; clear_value b; swap; dsimp only [b]; swap)
    | (intro b; clear_value b)
    | intro b
    | lift_lets

theorem jobSubmit_keeps {head : Nat} {jobs : List JobReq} (hz : Keeps z s) : Keeps z (jobSubmit s head jobs) := by
  unfold jobSubmit
  repeat' first
    | with_reducible assumption
    | (with_reducible apply wr_keeps)
    | (with_reducible apply updMap_keeps)
    | (with_reducible apply takeJobs_keeps)
    | (with_reducible refine keeps_foldl (fun x b hx => ?_) ?_)
    | (with_reducible refine keeps_foldl_fst (fun x b hx => ?_) ?_)
    | (intro b; refine (fun (_ : Keeps z b) => ?_) ?_; clear_value b; swap; dsimp only [b]; swap)
    | (intro b; refine (fun (_ : Keeps z b.1) => ?_) ?_; clear_value b; swap; dsimp only [b]; swap)
    | (intro b; clear_value b)
    | intro b
    | lift_lets

theorem victimsErasable_keeps (hz : Keeps z s) : Keeps z (victimsErasable s) := by
  unfold victimsErasable
  repeat' first
    | with_reducible assumption
    | (with_reducible apply makeErasable_keeps)
    | (with_reducible refine keeps_foldl (fun x b hx => ?_) ?_)
    | (with_reducible refine keeps_foldl_fst (fun x b hx => ?_) ?_)

theorem retireEnd_keeps (hz : Keeps z s) : Keeps z (retireEnd s) := by
  unfold retireEnd
  repeat' first
    | with_reducible assumption
    | (with_reducible apply updMap_keeps)
    | (with_reducible apply keeps_ite)
    | split

theorem jobDone_keeps {idx : Nat} (hz : Keeps z s) : Keeps z (jobDone s idx) := by
  unfold jobDone
  repeat' first
    | with_reducible assumption
    | (with_reducible apply dropHolder_keeps)
    | (with_reducible apply updMap_keeps)
    | (with_reducible apply jobWrite_keeps)
    | (with_reducible apply modSb_keeps)
    | (with_reducible apply victimsErasable_keeps)
    | (with_reducible apply retireEnd_keeps)
    | (with_reducible apply spaceUpdate_keeps)
    | (with_reducible apply takeJobs_keeps)
    | (with_reducible apply keeps_ite)
    | (intro b; refine (fun (_ : Keeps z b) => ?_) ?_; clear_value b; swap; dsimp only [b]; swap)
    | (intro b; clear_value b)
    | intro b
    | lift_lets
    | split
    | dsimp only

theorem jobAbort_keeps (hz : Keeps z s) : Keeps z (jobAbort s) := by
  unfold jobAbort
  repeat' first
    | with_reducible assumption
    | (with_reducible apply modReloc_keeps)
    | (with_reducible apply updFlash_keeps)
    | (with_reducible refine keeps_foldl (fun x b hx => ?_) ?_)
    | (with_reducible refine keeps_foldl_fst (fun x b hx => ?_) ?_)
    | (intro b; refine (fun (_ : Keeps z b) => ?_) ?_; clear_value b; swap; dsimp only [b]; swap)
    | (intro b; refine (fun (_ : Keeps z b.1) => ?_) ?_; clear_value b; swap; dsimp only [b]; swap)
    | (intro b; clear_value b)
    | intro b
    | lift_lets

theorem victimScan_keeps (hz : Keeps z s) : Keeps z (victimScan s) := by
  unfold victimScan
  repeat' first
    | with_reducible assumption
    | (with_reducible apply updMap_keeps)
    | (with_reducible apply trig54_keeps)

theorem victimScanDone_keeps (hz : Keeps z s) : Keeps z (victimScanDone s) := by
  unfold victimScanDone
  repeat' first
    | with_reducible assumption
    | (with_reducible apply wr_keeps)
    | (with_reducible apply wrField_keeps)
    | (with_reducible apply updMap_keeps)
    | (with_reducible apply keeps_ite)
    | (with_reducible apply keeps_ite_fst)
    | (with_reducible refine keeps_foldl (fun x b hx => ?_) ?_)
    | (with_reducible refine keeps_foldl_fst (fun x b hx => ?_) ?_)
    | (intro b; refine (fun (_ : Keeps z b) => ?_) ?_; clear_value b; swap; dsimp only [b]; swap)
    | (intro b; refine (fun (_ : Keeps z b.1) => ?_) ?_; clear_value b; swap; dsimp only [b]; swap)
    | (intro b; clear_value b)
    | intro b
    | lift_lets
    | split
    | dsimp only

theorem retireLuns_keeps {luns : List Nat} (hz : Keeps z s) : Keeps z (retireLuns s luns) := by
  unfold retireLuns
  repeat' first
    | with_reducible assumption
    | (with_reducible apply failPrograms_keeps)
    | (with_reducible apply endLun_keeps)
    | (with_reducible apply dropOp_keeps)
    | (with_reducible apply updTab_keeps)
    | (with_reducible apply noteEnded_keeps)
    | (with_reducible apply spaceUpdate_keeps)
    | (with_reducible apply turn_keeps)
    | (with_reducible apply updMap_keeps)
    | (with_reducible apply keeps_ite)
    | (with_reducible apply keeps_ite_fst)
    | (with_reducible refine keeps_foldl (fun x b hx => ?_) ?_)
    | (with_reducible refine keeps_foldl_fst (fun x b hx => ?_) ?_)
    | (intro b; refine (fun (_ : Keeps z b) => ?_) ?_; clear_value b; swap; dsimp only [b]; swap)
    | (intro b; refine (fun (_ : Keeps z b.1) => ?_) ?_; clear_value b; swap; dsimp only [b]; swap)
    | (intro b; clear_value b)
    | intro b
    | lift_lets
    | split

theorem lunRetire_keeps {c : Nat} {p : Nat} (hz : Keeps z s) : Keeps z (lunRetire s c p) := by
  unfold lunRetire
  repeat' first
    | with_reducible assumption
    | (with_reducible apply orReg_keeps)
    | (with_reducible apply retireLuns_keeps)
    | (with_reducible apply updMap_keeps)
    | (intro b; refine (fun (_ : Keeps z b) => ?_) ?_; clear_value b; swap; dsimp only [b]; swap)
    | (intro b; clear_value b)
    | intro b
    | lift_lets

theorem channelRetire_keeps {c : Nat} (hz : Keeps z s) : Keeps z (channelRetire s c) := by
  unfold channelRetire
  repeat' first
    | with_reducible assumption
    | (with_reducible apply orReg_keeps)
    | (with_reducible apply retireLuns_keeps)
    | (with_reducible apply updMap_keeps)
    | (intro b; refine (fun (_ : Keeps z b) => ?_) ?_; clear_value b; swap; dsimp only [b]; swap)
    | (intro b; clear_value b)
    | intro b
    | lift_lets

theorem channelGone_keeps {c : Nat} (hz : Keeps z s) : Keeps z (channelGone s c) := by
  unfold channelGone
  repeat' first
    | with_reducible assumption
    | (with_reducible apply updChip_keeps)
    | (with_reducible apply spaceUpdate_keeps)
    | (with_reducible apply updMap_keeps)
    | (intro b; refine (fun (_ : Keeps z b) => ?_) ?_; clear_value b; swap; dsimp only [b]; swap)
    | (intro b; refine (fun (_ : Keeps z b.1) => ?_) ?_; clear_value b; swap; dsimp only [b]; swap)
    | (intro b; clear_value b)
    | intro b
    | lift_lets
    | (fail_if_no_progress with_reducible refine keeps_upd ?_ rfl rfl rfl)

theorem sweepsEnd_keeps (hz : Keeps z s) : Keeps z (sweepsEnd s) := by
  unfold sweepsEnd
  repeat' first
    | with_reducible assumption
    | (with_reducible apply channelGone_keeps)
    | (with_reducible refine keeps_foldl (fun x b hx => ?_) ?_)
    | (with_reducible refine keeps_foldl_fst (fun x b hx => ?_) ?_)

theorem channelSweepDone_keeps {c : Nat} (hz : Keeps z s) : Keeps z (channelSweepDone s c) := by
  unfold channelSweepDone
  repeat' first
    | with_reducible assumption
    | (with_reducible apply askGroup_keeps)
    | (with_reducible apply sweepsEnd_keeps)
    | (with_reducible apply updMap_keeps)
    | (with_reducible apply keeps_ite)
    | (with_reducible apply keeps_ite_fst)
    | (with_reducible refine keeps_foldl (fun x b hx => ?_) ?_)
    | (with_reducible refine keeps_foldl_fst (fun x b hx => ?_) ?_)
    | (intro b; refine (fun (_ : Keeps z b) => ?_) ?_; clear_value b; swap; dsimp only [b]; swap)
    | (intro b; refine (fun (_ : Keeps z b.1) => ?_) ?_; clear_value b; swap; dsimp only [b]; swap)
    | (with_reducible apply hfn)
    | (intro b; refine (fun (hfn : ∀ x, Keeps z x → Keeps z (b x)) => ?_) ?_; clear_value b; swap; (intro x hx; dsimp only [b]); swap)
    | (intro b; refine (fun (hfn : ∀ x y, Keeps z x → Keeps z (b x y)) => ?_) ?_; clear_value b; swap; (intro x y hx; dsimp only [b]); swap)
    | (with_reducible apply hfc)
    | (with_reducible apply hfd)
    | (intro b; refine (fun (hfc : ∀ x, Keeps z (b x)) => ?_) ?_; clear_value b; swap; (intro x; dsimp only [b]); swap)
    | (intro b; refine (fun (hfd : ∀ x y, Keeps z (b x y)) => ?_) ?_; clear_value b; swap; (intro x y; dsimp only [b]); swap)
    | (intro b; clear_value b)
    | intro b
    | lift_lets
    | split
    | dsimp only

theorem dlqWrite_keeps {cause : Nat} {req : Nat} {ppa : Nat} {ctx : Option (Nat × Nat)} (hz : Keeps z s) : Keeps z (dlqWrite s cause req ppa ctx) := by
  unfold dlqWrite
  repeat' first
    | with_reducible assumption
    | (with_reducible apply wr_keeps)
    | (with_reducible apply raise_keeps)
    | (intro b; refine (fun (_ : Keeps z b) => ?_) ?_; clear_value b; swap; dsimp only [b]; swap)
    | (intro b; refine (fun (_ : Keeps z b.1) => ?_) ?_; clear_value b; swap; dsimp only [b]; swap)
    | (intro b; clear_value b)
    | intro b
    | lift_lets
    | split
    | dsimp only

theorem stageRun_keeps {r : DeadRun} (hz : Keeps z s) : Keeps z (stageRun s r) := by
  unfold stageRun
  repeat' first
    | with_reducible assumption
    | (with_reducible apply updPat_keeps)
    | (with_reducible apply tryBundle_keeps)
    | (with_reducible apply waitBundle_keeps)
    | (with_reducible apply askGroup_keeps)
    | (with_reducible apply keeps_ite)
    | (with_reducible apply keeps_ite_fst)
    | (with_reducible refine keeps_foldl (fun x b hx => ?_) ?_)
    | (with_reducible refine keeps_foldl_fst (fun x b hx => ?_) ?_)
    | (intro b; refine (fun (_ : Keeps z b) => ?_) ?_; clear_value b; swap; dsimp only [b]; swap)
    | (intro b; refine (fun (_ : Keeps z b.1) => ?_) ?_; clear_value b; swap; dsimp only [b]; swap)
    | (with_reducible apply hfn)
    | (intro b; refine (fun (hfn : ∀ x, Keeps z x → Keeps z (b x)) => ?_) ?_; clear_value b; swap; (intro x hx; dsimp only [b]); swap)
    | (intro b; refine (fun (hfn : ∀ x y, Keeps z x → Keeps z (b x y)) => ?_) ?_; clear_value b; swap; (intro x y hx; dsimp only [b]); swap)
    | (with_reducible apply hfc)
    | (with_reducible apply hfd)
    | (intro b; refine (fun (hfc : ∀ x, Keeps z (b x)) => ?_) ?_; clear_value b; swap; (intro x; dsimp only [b]); swap)
    | (intro b; refine (fun (hfd : ∀ x y, Keeps z (b x y)) => ?_) ?_; clear_value b; swap; (intro x y; dsimp only [b]); swap)
    | (intro b; clear_value b)
    | intro b
    | lift_lets
    | split
    | (refine keeps_of_eq (by assumption) ?_)
    | (fail_if_no_progress with_reducible refine keeps_upd ?_ rfl rfl rfl)
    | dsimp only

theorem ownCut_keeps (hz : Keeps z s) : Keeps z (ownCut s) := by
  unfold ownCut
  repeat' first
    | with_reducible assumption
    | (with_reducible apply cutover_keeps)
    | (with_reducible apply keeps_ite)
    | split

theorem stageRuns_keeps (hz : Keeps z s) : Keeps z (stageRuns s) := by
  unfold stageRuns
  repeat' first
    | with_reducible assumption
    | (with_reducible apply stageRun_keeps)
    | (with_reducible apply updPat_keeps)
    | (with_reducible apply ownCut_keeps)
    | (with_reducible apply keeps_ite)
    | (with_reducible refine keeps_foldl (fun x b hx => ?_) ?_)
    | (intro b; refine (fun (_ : Keeps z b) => ?_) ?_; clear_value b; swap; dsimp only [b]; swap)
    | (with_reducible apply hfn)
    | (intro b; refine (fun (hfn : ∀ x, Keeps z x → Keeps z (b x)) => ?_) ?_; clear_value b; swap; (intro x hx; dsimp only [b]); swap)
    | (intro b; refine (fun (hfn : ∀ x y, Keeps z x → Keeps z (b x y)) => ?_) ?_; clear_value b; swap; (intro x y hx; dsimp only [b]); swap)
    | (with_reducible apply hfc)
    | (with_reducible apply hfd)
    | (intro b; refine (fun (hfc : ∀ x, Keeps z (b x)) => ?_) ?_; clear_value b; swap; (intro x; dsimp only [b]); swap)
    | (intro b; refine (fun (hfd : ∀ x y, Keeps z (b x y)) => ?_) ?_; clear_value b; swap; (intro x y; dsimp only [b]); swap)
    | (intro b; clear_value b)
    | intro b
    | lift_lets
    | split

theorem markDead_keeps {nsid : Nat} {lets : List (Nat × Nat)} {whole : Bool} {cause : Nat} {req : Nat} (hz : Keeps z s) : Keeps z (markDead s nsid lets whole cause req) := by
  unfold markDead
  repeat' first
    | with_reducible assumption
    | (with_reducible apply corruptAny_keeps)
    | (with_reducible apply stageRuns_keeps)
    | (with_reducible apply updPat_keeps)
    | (with_reducible apply keeps_ite)
    | (with_reducible apply keeps_ite_fst)
    | (intro b; refine (fun (_ : Keeps z b) => ?_) ?_; clear_value b; swap; dsimp only [b]; swap)
    | (intro b; refine (fun (_ : Keeps z b.1) => ?_) ?_; clear_value b; swap; dsimp only [b]; swap)
    | (intro b; clear_value b)
    | intro b
    | lift_lets
    | split
    | dsimp only

theorem deadApplied_keeps {dseq : Nat} {done : Bool} (hz : Keeps z s) : Keeps z (deadApplied s dseq done) := by
  unfold deadApplied
  repeat' first
    | with_reducible assumption
    | (with_reducible apply updMap_keeps)
    | (with_reducible apply asyncBoth_keeps)
    | (with_reducible apply updPat_keeps)
    | (with_reducible apply keeps_ite)
    | (intro b; refine (fun (_ : Keeps z b) => ?_) ?_; clear_value b; swap; dsimp only [b]; swap)
    | (intro b; clear_value b)
    | intro b
    | lift_lets
    | split
    | dsimp only

theorem stagingRecover_keeps (hz : Keeps z s) : Keeps z (stagingRecover s) := by
  unfold stagingRecover
  repeat' first
    | with_reducible assumption
    | (with_reducible apply updPat_keeps)
    | (with_reducible refine keeps_foldl (fun x b hx => ?_) ?_)
    | (intro b; refine (fun (_ : Keeps z b) => ?_) ?_; clear_value b; swap; dsimp only [b]; swap)
    | (intro b; clear_value b)
    | intro b
    | lift_lets

theorem inspect_keeps {ppa : Nat} (hz : Keeps z s) : Keeps z (inspect s ppa) := by
  unfold inspect
  repeat' first
    | with_reducible assumption
    | (with_reducible apply setCause_keeps)
    | (with_reducible apply satAdd_keeps)
    | (with_reducible apply updPat_keeps)
    | (with_reducible apply keeps_ite)
    | (with_reducible apply keeps_ite_fst)
    | (intro b; refine (fun (_ : Keeps z b) => ?_) ?_; clear_value b; swap; dsimp only [b]; swap)
    | (intro b; refine (fun (_ : Keeps z b.1) => ?_) ?_; clear_value b; swap; dsimp only [b]; swap)
    | (intro b; clear_value b)
    | intro b
    | lift_lets
    | split
    | dsimp only

theorem modLad_keeps {id : Nat} {f : Ladder → Ladder} (hz : Keeps z s) : Keeps z (modLad s id f) := by
  unfold modLad
  repeat' first
    | with_reducible assumption
    | (with_reducible apply updFlash_keeps)
    | (with_reducible apply hf)
    | (fail_if_no_progress with_reducible refine keeps_upd ?_ rfl rfl rfl)

theorem dropLad_keeps {id : Nat} (hz : Keeps z s) : Keeps z (dropLad s id) := by
  unfold dropLad
  repeat' first
    | with_reducible assumption
    | (with_reducible apply updFlash_keeps)
    | (fail_if_no_progress with_reducible refine keeps_upd ?_ rfl rfl rfl)

theorem reportPage_keeps {ppa : Nat} (hz : Keeps z s) : Keeps z (reportPage s ppa) := by
  unfold reportPage
  repeat' first
    | with_reducible assumption
    | (with_reducible apply refreshAdd_keeps)
    | (with_reducible apply keeps_ite)
    | split
    | dsimp only

theorem startRebuild_keeps {id : Nat} (hz : Keeps z s) : Keeps z (startRebuild s id) := by
  unfold startRebuild
  repeat' first
    | with_reducible assumption
    | (with_reducible apply modLad_keeps)
    | (with_reducible apply pump_keeps)
    | (with_reducible apply addReads_keeps)
    | (with_reducible apply keeps_ite)
    | (intro b; refine (fun (_ : Keeps z b) => ?_) ?_; clear_value b; swap; dsimp only [b]; swap)
    | (with_reducible apply hfn)
    | (intro b; refine (fun (hfn : ∀ x, Keeps z x → Keeps z (b x)) => ?_) ?_; clear_value b; swap; (intro x hx; dsimp only [b]); swap)
    | (intro b; refine (fun (hfn : ∀ x y, Keeps z x → Keeps z (b x y)) => ?_) ?_; clear_value b; swap; (intro x y hx; dsimp only [b]); swap)
    | (with_reducible apply hfc)
    | (with_reducible apply hfd)
    | (intro b; refine (fun (hfc : ∀ x, Keeps z (b x)) => ?_) ?_; clear_value b; swap; (intro x; dsimp only [b]); swap)
    | (intro b; refine (fun (hfd : ∀ x y, Keeps z (b x y)) => ?_) ?_; clear_value b; swap; (intro x y; dsimp only [b]); swap)
    | (intro b; clear_value b)
    | intro b
    | lift_lets
    | split
    | dsimp only

theorem memberDone_keeps {id : Nat} {m : Nat} {ok : Bool} (hz : Keeps z s) : Keeps z (memberDone s id m ok) := by
  unfold memberDone
  repeat' first
    | with_reducible assumption
    | (with_reducible apply modLad_keeps)
    | (with_reducible apply pump_keeps)
    | (with_reducible apply addReads_keeps)
    | (with_reducible apply keeps_ite)
    | (intro b; refine (fun (_ : Keeps z b) => ?_) ?_; clear_value b; swap; dsimp only [b]; swap)
    | (intro b; clear_value b)
    | intro b
    | lift_lets
    | split
    | dsimp only

theorem patGot_keeps {ppa : Nat} {v : Got} (hz : Keeps z s) : Keeps z (patGot s ppa v) := by
  unfold patGot
  repeat' first
    | with_reducible assumption
    | (with_reducible apply updPat_keeps)

theorem patFault_keeps {ppa : Nat} (hz : Keeps z s) : Keeps z (patFault s ppa) := by
  unfold patFault
  repeat' first
    | with_reducible assumption
    | (with_reducible apply updPat_keeps)
    | (with_reducible apply keeps_ite)
    | (intro b; refine (fun (_ : Keeps z b) => ?_) ?_; clear_value b; swap; dsimp only [b]; swap)
    | (with_reducible apply hfn)
    | (intro b; refine (fun (hfn : ∀ x, Keeps z x → Keeps z (b x)) => ?_) ?_; clear_value b; swap; (intro x hx; dsimp only [b]); swap)
    | (intro b; refine (fun (hfn : ∀ x y, Keeps z x → Keeps z (b x y)) => ?_) ?_; clear_value b; swap; (intro x y hx; dsimp only [b]); swap)
    | (with_reducible apply hfc)
    | (with_reducible apply hfd)
    | (intro b; refine (fun (hfc : ∀ x, Keeps z (b x)) => ?_) ?_; clear_value b; swap; (intro x; dsimp only [b]); swap)
    | (intro b; refine (fun (hfd : ∀ x y, Keeps z (b x y)) => ?_) ?_; clear_value b; swap; (intro x y; dsimp only [b]); swap)
    | (intro b; clear_value b)
    | intro b
    | lift_lets
    | split

theorem deliver1_keeps {ppa : Nat} {v : Got} {r : Req} (hz : Keeps z s) : Keeps z (deliver1 s ppa v r) := by
  unfold deliver1
  repeat' first
    | with_reducible assumption
    | (with_reducible apply patGot_keeps)
    | (with_reducible apply memberDone_keeps)
    | (with_reducible apply addReads_keeps)
    | (with_reducible apply cmdGot_keeps)
    | (with_reducible apply inspect_keeps)
    | (with_reducible apply relocGot_keeps)
    | (with_reducible apply keeps_ite)
    | split
    | dsimp only

theorem deliver_keeps {ppa : Nat} {v : Got} {r : Req} (hz : Keeps z s) : Keeps z (deliver s ppa v r) := by
  unfold deliver
  repeat' first
    | with_reducible assumption
    | (with_reducible apply deliver1_keeps)
    | (with_reducible apply dropLad_keeps)
    | (with_reducible refine keeps_foldl (fun x b hx => ?_) ?_)
    | split
    | dsimp only

theorem deliverAll_keeps {ppa : Nat} {v : Got} {rs : List Req} (hz : Keeps z s) : Keeps z (deliverAll s ppa v rs) := by
  unfold deliverAll
  repeat' first
    | with_reducible assumption
    | (with_reducible apply deliver_keeps)
    | (with_reducible refine keeps_foldl (fun x b hx => ?_) ?_)

theorem requestReads_keeps {cls : Nat} {ps : List (Nat × Req)} (hz : Keeps z s) : Keeps z (requestReads s cls ps) := by
  unfold requestReads
  repeat' first
    | with_reducible assumption
    | (with_reducible apply deliver_keeps)
    | (with_reducible apply addReads_keeps)
    | (with_reducible refine keeps_foldl (fun x b hx => ?_) ?_)
    | (with_reducible refine keeps_foldl_fst (fun x b hx => ?_) ?_)
    | (intro b; refine (fun (_ : Keeps z b) => ?_) ?_; clear_value b; swap; dsimp only [b]; swap)
    | (intro b; refine (fun (_ : Keeps z b.1) => ?_) ?_; clear_value b; swap; dsimp only [b]; swap)
    | (intro b; clear_value b)
    | intro b
    | lift_lets

theorem addStepRead_keeps {id : Nat} (hz : Keeps z s) : Keeps z (addStepRead s id) := by
  unfold addStepRead
  repeat' first
    | with_reducible assumption
    | (with_reducible apply ttShifted_keeps)
    | (with_reducible apply modLad_keeps)
    | (with_reducible apply addOp_keeps)
    | (with_reducible apply keeps_ite)
    | (with_reducible apply keeps_ite_fst)
    | (intro b; refine (fun (_ : Keeps z b) => ?_) ?_; clear_value b; swap; dsimp only [b]; swap)
    | (intro b; refine (fun (_ : Keeps z b.1) => ?_) ?_; clear_value b; swap; dsimp only [b]; swap)
    | (intro b; clear_value b)
    | intro b
    | lift_lets
    | split
    | (refine keeps_of_eq (by assumption) ?_)
    | dsimp only

theorem softTake_keeps {d : Nat} (hz : Keeps z s) : Keeps z (softTake s d) := by
  unfold softTake
  repeat' first
    | with_reducible assumption
    | (with_reducible apply modLad_keeps)
    | (with_reducible apply keeps_ite)
    | (with_reducible apply keeps_ite_fst)
    | (with_reducible refine keeps_foldl (fun x b hx => ?_) ?_)
    | (with_reducible refine keeps_foldl_fst (fun x b hx => ?_) ?_)
    | (intro b; refine (fun (_ : Keeps z b) => ?_) ?_; clear_value b; swap; dsimp only [b]; swap)
    | (intro b; refine (fun (_ : Keeps z b.1) => ?_) ?_; clear_value b; swap; dsimp only [b]; swap)
    | (intro b; clear_value b)
    | intro b
    | lift_lets
    | split
    | dsimp only

theorem allocate_keeps (hz : Keeps z s) : Keeps z (allocate s) := by
  unfold allocate
  repeat' first
    | with_reducible assumption
    | (with_reducible apply softTake_keeps)
    | (with_reducible apply tokenAllocation_keeps)
    | (with_reducible refine keeps_foldl (fun x b hx => ?_) ?_)

theorem softAsk_keeps {id : Nat} {d : Nat} (hz : Keeps z s) : Keeps z (softAsk s id d) := by
  unfold softAsk
  repeat' first
    | with_reducible assumption
    | (with_reducible apply softTake_keeps)
    | (with_reducible apply modLad_keeps)
    | (with_reducible apply dstCauseSet_keeps)
    | (with_reducible apply keeps_ite)
    | (with_reducible refine keeps_foldl (fun x b hx => ?_) ?_)
    | (intro b; refine (fun (_ : Keeps z b) => ?_) ?_; clear_value b; swap; dsimp only [b]; swap)
    | (intro b; clear_value b)
    | intro b
    | lift_lets
    | split

theorem endLimited_keeps {id : Nat} {l : Ladder} (hz : Keeps z s) : Keeps z (endLimited s id l).1 := by
  unfold endLimited
  repeat' first
    | with_reducible assumption
    | (with_reducible apply dropLad_keeps)
    | (with_reducible apply modLad_keeps)
    | (with_reducible apply deliverAll_keeps)
    | (with_reducible apply keeps_ite)
    | (with_reducible apply keeps_ite_fst)
    | (intro b; refine (fun (_ : Keeps z b) => ?_) ?_; clear_value b; swap; dsimp only [b]; swap)
    | (intro b; refine (fun (_ : Keeps z b.1) => ?_) ?_; clear_value b; swap; dsimp only [b]; swap)
    | (intro b; clear_value b)
    | intro b
    | lift_lets
    | split
    | dsimp only

theorem toRebuild_keeps {id : Nat} (hz : Keeps z s) : Keeps z (toRebuild s id) := by
  unfold toRebuild
  repeat' first
    | with_reducible assumption
    | (with_reducible apply deliverAll_keeps)
    | (with_reducible apply dropLad_keeps)
    | (with_reducible apply endLimited_keeps)
    | (with_reducible apply startRebuild_keeps)
    | (with_reducible apply modLad_keeps)
    | (with_reducible apply keeps_ite)
    | (with_reducible apply keeps_ite_fst)
    | (intro b; refine (fun (_ : Keeps z b) => ?_) ?_; clear_value b; swap; dsimp only [b]; swap)
    | (intro b; refine (fun (_ : Keeps z b.1) => ?_) ?_; clear_value b; swap; dsimp only [b]; swap)
    | (intro b; clear_value b)
    | intro b
    | lift_lets
    | split
    | (refine keeps_of_eq (by assumption) ?_)
    | dsimp only

theorem enterLadder_keeps {ppa : Nat} {sig : ℤ} {reqs : List Req} (hz : Keeps z s) : Keeps z (enterLadder s ppa sig reqs) := by
  unfold enterLadder
  repeat' first
    | with_reducible assumption
    | (with_reducible apply modLad_keeps)
    | (with_reducible apply deliverAll_keeps)
    | (with_reducible apply addStepRead_keeps)
    | (with_reducible apply updFlash_keeps)
    | (intro b; refine (fun (_ : Keeps z b) => ?_) ?_; clear_value b; swap; dsimp only [b]; swap)
    | (intro b; clear_value b)
    | intro b
    | lift_lets
    | split
    | dsimp only

theorem busFault_keeps {ppa : Nat} {reqs : List Req} (hz : Keeps z s) : Keeps z (busFault s ppa reqs) := by
  unfold busFault
  repeat' first
    | with_reducible assumption
    | (with_reducible apply patFault_keeps)
    | (with_reducible apply toRebuild_keeps)
    | (with_reducible apply modLad_keeps)
    | (with_reducible apply deliver_keeps)
    | (with_reducible apply updFlash_keeps)
    | (with_reducible apply keeps_ite)
    | (with_reducible refine keeps_foldl (fun x b hx => ?_) ?_)
    | (intro b; refine (fun (_ : Keeps z b) => ?_) ?_; clear_value b; swap; dsimp only [b]; swap)
    | (intro b; clear_value b)
    | intro b
    | lift_lets
    | split
    | dsimp only

theorem lostReads_keeps (hz : Keeps z s) : Keeps z (lostReads s) := by
  unfold lostReads
  repeat' first
    | with_reducible assumption
    | (with_reducible apply busFault_keeps)
    | (with_reducible apply dropOp_keeps)
    | (with_reducible refine keeps_foldl (fun x b hx => ?_) ?_)
    | (with_reducible refine keeps_foldl_fst (fun x b hx => ?_) ?_)

theorem readsOver_keeps (hz : Keeps z s) : Keeps z (readsOver s) := by
  unfold readsOver
  repeat' first
    | with_reducible assumption
    | (with_reducible apply settlePins_keeps)
    | (with_reducible apply turn_keeps)
    | (with_reducible apply lostReads_keeps)

theorem ladderOk_keeps {id : Nat} {l : Ladder} {p : Payload} {corrected : Nat} (hz : Keeps z s) : Keeps z (ladderOk s id l p corrected) := by
  unfold ladderOk
  repeat' first
    | with_reducible assumption
    | (with_reducible apply deliverAll_keeps)
    | (with_reducible apply dropLad_keeps)

theorem rereadDone_keeps {id : Nat} {l : Ladder} {decoded : Bool} {corrected : Nat} {st : ReadStats} (hz : Keeps z s) : Keeps z (rereadDone s id l decoded corrected st) := by
  unfold rereadDone
  repeat' first
    | with_reducible assumption
    | (with_reducible apply snapTrigger_keeps)
    | (with_reducible apply satAdd_keeps)
    | (with_reducible apply ttHalfShift_keeps)
    | (with_reducible apply ladderOk_keeps)
    | (with_reducible apply ttUpdate_keeps)
    | (with_reducible apply modLad_keeps)
    | (with_reducible apply addStepRead_keeps)
    | (with_reducible apply keeps_ite)
    | (with_reducible apply keeps_ite_fst)
    | (intro b; refine (fun (_ : Keeps z b) => ?_) ?_; clear_value b; swap; dsimp only [b]; swap)
    | (intro b; refine (fun (_ : Keeps z b.1) => ?_) ?_; clear_value b; swap; dsimp only [b]; swap)
    | (intro b; clear_value b)
    | intro b
    | lift_lets
    | split
    | dsimp only

theorem stepReadDone_keeps {id : Nat} {decoded : Bool} {corrected : Nat} {st : ReadStats} (hz : Keeps z s) : Keeps z (stepReadDone s id decoded corrected st) := by
  unfold stepReadDone
  repeat' first
    | with_reducible assumption
    | (with_reducible apply rereadDone_keeps)
    | (with_reducible apply addStepRead_keeps)
    | (with_reducible apply modLad_keeps)
    | (with_reducible apply softAsk_keeps)
    | (with_reducible apply keeps_ite)
    | split
    | dsimp only

theorem softDone_keeps {id : Nat} {decoded : Bool} {corrected : Nat} (hz : Keeps z s) : Keeps z (softDone s id decoded corrected) := by
  unfold softDone
  repeat' first
    | with_reducible assumption
    | (with_reducible apply softTake_keeps)
    | (with_reducible apply modLad_keeps)
    | (with_reducible apply readsOver_keeps)
    | (with_reducible apply ladderOk_keeps)
    | (with_reducible apply satAdd_keeps)
    | (with_reducible apply reportPage_keeps)
    | (with_reducible apply addStepRead_keeps)
    | (with_reducible apply toRebuild_keeps)
    | (with_reducible apply dstCauseSet_keeps)
    | (with_reducible apply keeps_ite)
    | (intro b; refine (fun (_ : Keeps z b) => ?_) ?_; clear_value b; swap; dsimp only [b]; swap)
    | (intro b; clear_value b)
    | intro b
    | lift_lets
    | split
    | dsimp only

theorem rebuildDone_keeps {id : Nat} (hz : Keeps z s) : Keeps z (rebuildDone s id) := by
  unfold rebuildDone
  repeat' first
    | with_reducible assumption
    | (with_reducible apply startRebuild_keeps)
    | (with_reducible apply readsOver_keeps)
    | (with_reducible apply deliverAll_keeps)
    | (with_reducible apply dropLad_keeps)
    | (with_reducible apply strCauseSet_keeps)
    | (with_reducible apply satAdd_keeps)
    | (with_reducible apply refreshAdd_keeps)
    | (with_reducible apply modLad_keeps)
    | (with_reducible apply reportPage_keeps)
    | (with_reducible apply ladderOk_keeps)
    | (with_reducible apply keeps_ite)
    | (with_reducible refine keeps_foldl (fun x b hx => ?_) ?_)
    | (intro b; refine (fun (_ : Keeps z b) => ?_) ?_; clear_value b; swap; dsimp only [b]; swap)
    | (with_reducible apply hfn)
    | (intro b; refine (fun (hfn : ∀ x, Keeps z x → Keeps z (b x)) => ?_) ?_; clear_value b; swap; (intro x hx; dsimp only [b]); swap)
    | (intro b; refine (fun (hfn : ∀ x y, Keeps z x → Keeps z (b x y)) => ?_) ?_; clear_value b; swap; (intro x y hx; dsimp only [b]); swap)
    | (with_reducible apply hfc)
    | (with_reducible apply hfd)
    | (intro b; refine (fun (hfc : ∀ x, Keeps z (b x)) => ?_) ?_; clear_value b; swap; (intro x; dsimp only [b]); swap)
    | (intro b; refine (fun (hfd : ∀ x y, Keeps z (b x y)) => ?_) ?_; clear_value b; swap; (intro x y; dsimp only [b]); swap)
    | (intro b; clear_value b)
    | intro b
    | lift_lets
    | split
    | dsimp only

theorem dlqEntryWrite_keeps {id : Nat} (hz : Keeps z s) : Keeps z (dlqEntryWrite s id) := by
  unfold dlqEntryWrite
  repeat' first
    | with_reducible assumption
    | (with_reducible apply dlqWrite_keeps)
    | (with_reducible apply markDead_keeps)
    | (with_reducible apply readsOver_keeps)
    | (with_reducible apply deliverAll_keeps)
    | (with_reducible apply dropLad_keeps)
    | (with_reducible apply keeps_ite)
    | (intro b; refine (fun (_ : Keeps z b) => ?_) ?_; clear_value b; swap; dsimp only [b]; swap)
    | (intro b; clear_value b)
    | intro b
    | lift_lets
    | split
    | dsimp only

theorem countRead_keeps {lun : Nat} {block : Nat} (hz : Keeps z s) : Keeps z (countRead s lun block) := by
  unfold countRead
  repeat' first
    | with_reducible assumption
    | (with_reducible apply updTab_keeps)
    | (with_reducible apply refreshAdd_keeps)
    | (with_reducible apply keeps_ite)
    | (with_reducible refine keeps_foldl (fun x b hx => ?_) ?_)
    | (intro b; refine (fun (_ : Keeps z b) => ?_) ?_; clear_value b; swap; dsimp only [b]; swap)
    | (intro b; clear_value b)
    | intro b
    | lift_lets
    | split
    | dsimp only

theorem readComplete_keeps {id : Nat} {cws : List CodewordRead} (hz : Keeps z s) : Keeps z (readComplete s id cws) := by
  unfold readComplete
  repeat' first
    | with_reducible assumption
    | (with_reducible apply readsOver_keeps)
    | (with_reducible apply busFault_keeps)
    | (with_reducible apply dropOp_keeps)
    | (with_reducible apply countRead_keeps)
    | (with_reducible apply busDone_keeps)
    | (with_reducible apply chnCauseSet_keeps)
    | (with_reducible apply satAdd_keeps)
    | (with_reducible apply deliverAll_keeps)
    | (with_reducible apply stepReadDone_keeps)
    | (with_reducible apply ttUpdate_keeps)
    | (with_reducible apply snapTrigger_keeps)
    | (with_reducible apply enterLadder_keeps)
    | (with_reducible apply keeps_ite)
    | (with_reducible apply keeps_ite_fst)
    | (with_reducible refine keeps_foldl (fun x b hx => ?_) ?_)
    | (with_reducible refine keeps_foldl_fst (fun x b hx => ?_) ?_)
    | (intro b; refine (fun (_ : Keeps z b) => ?_) ?_; clear_value b; swap; dsimp only [b]; swap)
    | (intro b; refine (fun (_ : Keeps z b.1) => ?_) ?_; clear_value b; swap; dsimp only [b]; swap)
    | (with_reducible apply hfn)
    | (intro b; refine (fun (hfn : ∀ x, Keeps z x → Keeps z (b x)) => ?_) ?_; clear_value b; swap; (intro x hx; dsimp only [b]); swap)
    | (intro b; refine (fun (hfn : ∀ x y, Keeps z x → Keeps z (b x y)) => ?_) ?_; clear_value b; swap; (intro x y hx; dsimp only [b]); swap)
    | (with_reducible apply hfc)
    | (with_reducible apply hfd)
    | (intro b; refine (fun (hfc : ∀ x, Keeps z (b x)) => ?_) ?_; clear_value b; swap; (intro x; dsimp only [b]); swap)
    | (intro b; refine (fun (hfd : ∀ x y, Keeps z (b x y)) => ?_) ?_; clear_value b; swap; (intro x y; dsimp only [b]); swap)
    | (intro b; clear_value b)
    | intro b
    | lift_lets
    | split
    | dsimp only

end Sys2Proof.Machine
end

