-- ==== Sys2Proof/Laws/KeepsUnits.lean ====
section
/-! SUPPORT. What the operations keep (Laws/Keeps.lean): the event fabric, the ring, the Config NOR and security. One law for each operation. -/

set_option Elab.async false
set_option linter.unusedTactic false
set_option linter.unreachableTactic false

namespace Sys2Proof.Machine

variable {z s : State}

theorem doorbell_keeps {i : Initiator} {v : Nat} (hz : Keeps z s) : Keeps z (doorbell s i v) := by
  unfold doorbell
  repeat' first
    | with_reducible assumption
    | (with_reducible apply raiseWith_keeps)
    | (with_reducible refine keeps_foldl (fun x b hx => ?_) ?_)

theorem holdoffEnd_keeps {p : Port} {v : Nat} (hz : Keeps z s) : Keeps z (holdoffEnd s p v) := by
  unfold holdoffEnd
  repeat' first
    | with_reducible assumption
    | (with_reducible apply setPort_keeps)
    | (with_reducible apply msixSend_keeps)
    | (with_reducible apply keeps_ite)
    | (intro b; refine (fun (_ : Keeps z b) => ?_) ?_; clear_value b; swap; dsimp only [b]; swap)
    | (intro b; clear_value b)
    | intro b
    | lift_lets
    | split
    | (fail_if_no_progress with_reducible refine keeps_upd ?_ rfl rfl rfl)

theorem timerFire_keeps {n : Nat} (hz : Keeps z s) : Keeps z (timerFire s n) := by
  unfold timerFire
  repeat' first
    | with_reducible assumption
    | (with_reducible apply raiseWith_keeps)
    | (with_reducible apply wrField_keeps)
    | (with_reducible apply wr_keeps)
    | (with_reducible apply keeps_ite)
    | (intro b; refine (fun (_ : Keeps z b) => ?_) ?_; clear_value b; swap; dsimp only [b]; swap)
    | (intro b; clear_value b)
    | intro b
    | lift_lets
    | split

theorem wdRestart_keeps {k : Nat} (hz : Keeps z s) : Keeps z (wdRestart s k) := by
  unfold wdRestart
  repeat' first
    | with_reducible assumption
    | (with_reducible apply updClk_keeps)
    | (with_reducible apply wrField_keeps)

theorem wdExpire_keeps {k : Nat} (hz : Keeps z s) : Keeps z (wdExpire s k) := by
  unfold wdExpire
  repeat' first
    | with_reducible assumption
    | (with_reducible apply raiseWith_keeps)
    | (with_reducible apply updClk_keeps)
    | (with_reducible apply wrField_keeps)
    | (intro b; refine (fun (_ : Keeps z b) => ?_) ?_; clear_value b; swap; dsimp only [b]; swap)
    | (intro b; clear_value b)
    | intro b
    | lift_lets

theorem ringCause_keeps {bit : Nat} (hz : Keeps z s) : Keeps z (ringCause s bit) := by
  unfold ringCause
  repeat' first
    | with_reducible assumption
    | (with_reducible apply setCause_keeps)

theorem ringNotice_keeps (hz : Keeps z s) : Keeps z (ringNotice s) := by
  unfold ringNotice
  repeat' first
    | with_reducible assumption
    | (with_reducible apply asyncBoth_keeps)

theorem setLink_keeps {p : RingPort} {l : RingLink} (hz : Keeps z s) : Keeps z (setLink s p l) := by
  unfold setLink
  repeat' first
    | with_reducible assumption
    | (with_reducible apply updRing_keeps)
    | split
    | dsimp only

theorem sendPort_keeps {p : RingPort} {typ : Nat} {dst : Nat} {src : Nat} {ttl : Nat} {seq : Nat} {pl : List Byte} (hz : Keeps z s) : Keeps z (sendPort s p typ dst src ttl seq pl) := by
  unfold sendPort
  repeat' first
    | with_reducible assumption
    | (with_reducible apply emit_keeps)
    | (with_reducible apply keeps_ite)
    | split

theorem sendAll_keeps {typ : Nat} {dst : Nat} {pl : List Byte} (hz : Keeps z s) : Keeps z (sendAll s typ dst pl) := by
  unfold sendAll
  repeat' first
    | with_reducible assumption
    | (with_reducible apply updRing_keeps)
    | (with_reducible apply sendPort_keeps)
    | (with_reducible apply keeps_ite)
    | (intro b; refine (fun (_ : Keeps z b) => ?_) ?_; clear_value b; swap; dsimp only [b]; swap)
    | (intro b; clear_value b)
    | intro b
    | lift_lets
    | split

theorem sendNear_keeps {p : RingPort} {typ : Nat} {pl : List Byte} (hz : Keeps z s) : Keeps z (sendNear s p typ pl) := by
  unfold sendNear
  repeat' first
    | with_reducible assumption
    | (with_reducible apply sendPort_keeps)
    | (with_reducible apply updRing_keeps)
    | (with_reducible apply keeps_ite)
    | (intro b; refine (fun (_ : Keeps z b) => ?_) ?_; clear_value b; swap; dsimp only [b]; swap)
    | (intro b; clear_value b)
    | intro b
    | lift_lets
    | split

theorem sendRepeat_keeps {typ : Nat} {dst : Nat} {pl : List Byte} (hz : Keeps z s) : Keeps z (sendRepeat s typ dst pl) := by
  unfold sendRepeat
  repeat' first
    | with_reducible assumption
    | (with_reducible apply updRing_keeps)
    | (with_reducible apply sendAll_keeps)
    | (with_reducible apply keeps_ite)
    | (intro b; refine (fun (_ : Keeps z b) => ?_) ?_; clear_value b; swap; dsimp only [b]; swap)
    | (intro b; clear_value b)
    | intro b
    | lift_lets
    | split

theorem plmNotice_keeps {p : Port} (hz : Keeps z s) : Keeps z (plmNotice s p) := by
  unfold plmNotice
  repeat' first
    | with_reducible assumption
    | (with_reducible apply setPort_keeps)
    | (with_reducible apply asyncEvent_keeps)
    | (with_reducible apply keeps_ite)
    | (intro b; refine (fun (_ : Keeps z b) => ?_) ?_; clear_value b; swap; dsimp only [b]; swap)
    | (intro b; clear_value b)
    | intro b
    | lift_lets
    | split
    | (fail_if_no_progress with_reducible refine keeps_upd ?_ rfl rfl rfl)

theorem updWindow_keeps (hz : Keeps z s) : Keeps z (updWindow s) := by
  unfold updWindow
  repeat' first
    | with_reducible assumption
    | (with_reducible apply updRing_keeps)
    | (with_reducible apply wrField_keeps)
    | (with_reducible apply reclaimPace_keeps)
    | (with_reducible apply ringCause_keeps)
    | (with_reducible apply plmNotice_keeps)
    | (with_reducible apply keeps_ite)
    | (intro b; refine (fun (_ : Keeps z b) => ?_) ?_; clear_value b; swap; dsimp only [b]; swap)
    | (intro b; clear_value b)
    | intro b
    | lift_lets
    | split

theorem updUnsync_keeps {b : Bool} (hz : Keeps z s) : Keeps z (updUnsync s b) := by
  unfold updUnsync
  repeat' first
    | with_reducible assumption
    | (with_reducible apply ringNotice_keeps)
    | (with_reducible apply ringCause_keeps)
    | (with_reducible apply updRing_keeps)
    | (with_reducible apply keeps_ite)
    | split

theorem refresh_keeps {old : Ring} (hz : Keeps z s) : Keeps z (refresh old s) := by
  unfold refresh
  repeat' first
    | with_reducible assumption
    | (with_reducible apply updRing_keeps)
    | (with_reducible apply ringCause_keeps)
    | (with_reducible apply ringNotice_keeps)
    | (with_reducible apply updWindow_keeps)
    | (with_reducible apply keeps_ite)
    | (intro b; refine (fun (_ : Keeps z b) => ?_) ?_; clear_value b; swap; dsimp only [b]; swap)
    | (intro b; clear_value b)
    | intro b
    | lift_lets
    | split
    | dsimp only

theorem toState_keeps {x : RingSt} (hz : Keeps z s) : Keeps z (toState s x) := by
  unfold toState
  repeat' first
    | with_reducible assumption
    | (with_reducible apply updRing_keeps)
    | (with_reducible apply ringNotice_keeps)
    | (with_reducible apply ringCause_keeps)
    | (with_reducible apply updUnsync_keeps)
    | (with_reducible apply keeps_ite)
    | (intro b; refine (fun (_ : Keeps z b) => ?_) ?_; clear_value b; swap; dsimp only [b]; swap)
    | (intro b; clear_value b)
    | intro b
    | lift_lets
    | split

theorem countForeign_keeps (hz : Keeps z s) : Keeps z (countForeign s) := by
  unfold countForeign
  repeat' first
    | with_reducible assumption
    | (with_reducible apply ringCause_keeps)
    | (with_reducible apply satAdd_keeps)

theorem receive_keeps {h : DispHdr} {typ : Nat} {gid : Option Nat} {pl : List Byte} {use : State → State} (hz : Keeps z s) (hf : ∀ t, Keeps z t → Keeps z (use t)) : Keeps z (receive s h typ gid pl use) := by
  unfold receive
  repeat' first
    | with_reducible assumption
    | (with_reducible apply updRing_keeps)
    | (with_reducible apply sendPort_keeps)
    | (with_reducible apply sendAll_keeps)
    | (with_reducible apply countForeign_keeps)
    | (with_reducible apply keeps_ite)
    | (intro b; refine (fun (_ : Keeps z b) => ?_) ?_; clear_value b; swap; dsimp only [b]; swap)
    | (with_reducible apply hf)
    | (intro b; clear_value b)
    | intro b
    | lift_lets
    | split
    | dsimp only

theorem signalDetect_keeps {p : RingPort} (hz : Keeps z s) : Keeps z (signalDetect s p) := by
  unfold signalDetect
  repeat' first
    | with_reducible assumption
    | (with_reducible apply emit_keeps)
    | (with_reducible apply ringCause_keeps)
    | (with_reducible apply setLink_keeps)
    | (with_reducible apply keeps_ite)
    | split

theorem linkUpRing_keeps {p : RingPort} {same : Bool} (hz : Keeps z s) : Keeps z (linkUpRing s p same) := by
  unfold linkUpRing
  repeat' first
    | with_reducible assumption
    | (with_reducible apply ringCause_keeps)
    | (with_reducible apply setLink_keeps)
    | (with_reducible apply updRing_keeps)
    | (with_reducible apply refresh_keeps)
    | (with_reducible apply keeps_ite)
    | (intro b; refine (fun (_ : Keeps z b) => ?_) ?_; clear_value b; swap; dsimp only [b]; swap)
    | (intro b; clear_value b)
    | intro b
    | lift_lets
    | split

theorem linkDownRing_keeps {p : RingPort} (hz : Keeps z s) : Keeps z (linkDownRing s p) := by
  unfold linkDownRing
  repeat' first
    | with_reducible assumption
    | (with_reducible apply satAdd_keeps)
    | (with_reducible apply refresh_keeps)
    | (with_reducible apply ringCause_keeps)
    | (with_reducible apply setLink_keeps)
    | (with_reducible apply keeps_ite)
    | (intro b; refine (fun (_ : Keeps z b) => ?_) ?_; clear_value b; swap; dsimp only [b]; swap)
    | (intro b; clear_value b)
    | intro b
    | lift_lets
    | split
    | dsimp only

theorem linkRecv_keeps {h : DispHdr} {serial : Nat} {gid : Nat} {addr : Nat} {far : Nat} (hz : Keeps z s) : Keeps z (linkRecv s h serial gid addr far) := by
  unfold linkRecv
  repeat' first
    | with_reducible assumption
    | (with_reducible apply countForeign_keeps)
    | (with_reducible apply updRing_keeps)
    | (with_reducible apply keeps_ite)
    | split
    | dsimp only

theorem frameError_keeps {p : RingPort} (hz : Keeps z s) : Keeps z (frameError s p) := by
  unfold frameError
  repeat' first
    | with_reducible assumption
    | (with_reducible apply satAdd_keeps)
    | split
    | dsimp only

theorem beaconSend_keeps (hz : Keeps z s) : Keeps z (beaconSend s) := by
  unfold beaconSend
  repeat' first
    | with_reducible assumption
    | (with_reducible apply sendAll_keeps)

theorem beaconUse_keeps {b : Beacon} (hz : Keeps z s) : Keeps z (beaconUse b s) := by
  unfold beaconUse
  repeat' first
    | with_reducible assumption
    | (with_reducible apply updRing_keeps)
    | (with_reducible apply ringCause_keeps)
    | (with_reducible apply refresh_keeps)
    | (with_reducible apply keeps_ite)
    | (intro b; refine (fun (_ : Keeps z b) => ?_) ?_; clear_value b; swap; dsimp only [b]; swap)
    | (intro b; clear_value b)
    | intro b
    | lift_lets
    | split

theorem beaconRecv_keeps {h : DispHdr} {b : Beacon} (hz : Keeps z s) : Keeps z (beaconRecv s h b) := by
  unfold beaconRecv
  repeat' first
    | with_reducible assumption
    | (with_reducible apply updRing_keeps)
    | (with_reducible refine receive_keeps ?_ (fun x hx => ?_))
    | (with_reducible apply beaconUse_keeps)
    | (with_reducible apply keeps_ite)
    | (intro b; refine (fun (_ : Keeps z b) => ?_) ?_; clear_value b; swap; dsimp only [b]; swap)
    | (intro b; clear_value b)
    | intro b
    | lift_lets
    | split

theorem reachExpiry_keeps {a : Nat} (hz : Keeps z s) : Keeps z (reachExpiry s a) := by
  unfold reachExpiry
  repeat' first
    | with_reducible assumption
    | (with_reducible apply refresh_keeps)
    | (with_reducible apply updRing_keeps)
    | (with_reducible apply keeps_ite)
    | split

theorem isolatedEntry_keeps (hz : Keeps z s) : Keeps z (isolatedEntry s) := by
  unfold isolatedEntry
  repeat' first
    | with_reducible assumption
    | (with_reducible apply refresh_keeps)
    | (with_reducible apply toState_keeps)
    | (with_reducible apply keeps_ite)
    | split

theorem rejoin_keeps (hz : Keeps z s) : Keeps z (rejoin s) := by
  unfold rejoin
  repeat' first
    | with_reducible assumption
    | (with_reducible apply toState_keeps)
    | (with_reducible apply updRing_keeps)
    | (with_reducible apply refresh_keeps)
    | (with_reducible apply sendRepeat_keeps)
    | (with_reducible apply keeps_ite)
    | (intro b; refine (fun (_ : Keeps z b) => ?_) ?_; clear_value b; swap; dsimp only [b]; swap)
    | (intro b; clear_value b)
    | intro b
    | lift_lets
    | split

theorem addressDrop_keeps (hz : Keeps z s) : Keeps z (addressDrop s) := by
  unfold addressDrop
  repeat' first
    | with_reducible assumption
    | (with_reducible apply refresh_keeps)
    | (with_reducible apply toState_keeps)
    | (with_reducible apply updRing_keeps)
    | (with_reducible apply keeps_ite)
    | (intro b; refine (fun (_ : Keeps z b) => ?_) ?_; clear_value b; swap; dsimp only [b]; swap)
    | (intro b; clear_value b)
    | intro b
    | lift_lets
    | split

theorem measure_keeps {th : ℤ} (hz : Keeps z s) : Keeps z (measure s th) := by
  unfold measure
  repeat' first
    | with_reducible assumption
    | (with_reducible apply updRing_keeps)
    | (with_reducible apply updWindow_keeps)
    | (with_reducible apply updUnsync_keeps)
    | (with_reducible apply updClk_keeps)
    | (with_reducible apply keeps_ite)
    | (intro b; refine (fun (_ : Keeps z b) => ?_) ?_; clear_value b; swap; dsimp only [b]; swap)
    | (intro b; clear_value b)
    | intro b
    | lift_lets
    | split

theorem slewDone_keeps (hz : Keeps z s) : Keeps z (slewDone s) := by
  unfold slewDone
  repeat' first
    | with_reducible assumption
    | (with_reducible apply updClk_keeps)
    | (with_reducible apply updWindow_keeps)
    | (with_reducible apply updUnsync_keeps)
    | (with_reducible apply updRing_keeps)
    | (with_reducible apply keeps_ite)
    | (intro b; refine (fun (_ : Keeps z b) => ?_) ?_; clear_value b; swap; dsimp only [b]; swap)
    | (intro b; clear_value b)
    | intro b
    | lift_lets
    | split

theorem holdoverExpiry_keeps (hz : Keeps z s) : Keeps z (holdoverExpiry s) := by
  unfold holdoverExpiry
  repeat' first
    | with_reducible assumption
    | (with_reducible apply updUnsync_keeps)
    | (with_reducible apply keeps_ite)
    | split

theorem syncReq_keeps {h : DispHdr} {t1 : Nat} (hz : Keeps z s) : Keeps z (syncReq s h t1) := by
  unfold syncReq
  repeat' first
    | with_reducible assumption
    | (with_reducible refine receive_keeps ?_ (fun x hx => ?_))
    | (with_reducible apply sendNear_keeps)

theorem syncRsp_keeps {h : DispHdr} {t1 : Nat} {t2 : Nat} {t3 : Nat} {t4 : Nat} (hz : Keeps z s) : Keeps z (syncRsp s h t1 t2 t3 t4) := by
  unfold syncRsp
  repeat' first
    | with_reducible assumption
    | (with_reducible refine receive_keeps ?_ (fun x hx => ?_))
    | (with_reducible apply measure_keeps)
    | (with_reducible apply keeps_ite)
    | split

theorem syncSend_keeps (hz : Keeps z s) : Keeps z (syncSend s) := by
  unfold syncSend
  repeat' first
    | with_reducible assumption
    | (with_reducible apply sendNear_keeps)
    | (with_reducible apply keeps_ite)
    | split
    | dsimp only

theorem enumDone_keeps {n : Nat} {tbmax : Nat} (hz : Keeps z s) : Keeps z (enumDone s n tbmax) := by
  unfold enumDone
  repeat' first
    | with_reducible assumption
    | (with_reducible apply updRing_keeps)
    | (with_reducible apply toState_keeps)
    | (with_reducible apply measure_keeps)
    | (with_reducible apply ringCause_keeps)
    | (with_reducible apply refresh_keeps)
    | (with_reducible apply sendRepeat_keeps)
    | (with_reducible apply keeps_ite)
    | (intro b; refine (fun (_ : Keeps z b) => ?_) ?_; clear_value b; swap; dsimp only [b]; swap)
    | (intro b; clear_value b)
    | intro b
    | lift_lets
    | split

theorem enumWest_keeps {count : Nat} {tbmax : Nat} (hz : Keeps z s) : Keeps z (enumWest s count tbmax) := by
  unfold enumWest
  repeat' first
    | with_reducible assumption
    | (with_reducible apply updRing_keeps)
    | (with_reducible apply sendNear_keeps)
    | (with_reducible apply enumDone_keeps)
    | (with_reducible apply keeps_ite)
    | (intro b; refine (fun (_ : Keeps z b) => ?_) ?_; clear_value b; swap; dsimp only [b]; swap)
    | (intro b; clear_value b)
    | intro b
    | lift_lets
    | split

theorem enumBegin_keeps (hz : Keeps z s) : Keeps z (enumBegin s) := by
  unfold enumBegin
  repeat' first
    | with_reducible assumption
    | (with_reducible apply updRing_keeps)
    | (with_reducible apply sendNear_keeps)
    | (with_reducible apply enumWest_keeps)
    | (with_reducible apply keeps_ite)
    | (intro b; refine (fun (_ : Keeps z b) => ?_) ?_; clear_value b; swap; dsimp only [b]; swap)
    | (intro b; clear_value b)
    | intro b
    | lift_lets
    | split

theorem enumStart_keeps (hz : Keeps z s) : Keeps z (enumStart s) := by
  unfold enumStart
  repeat' first
    | with_reducible assumption
    | (with_reducible apply enumBegin_keeps)
    | (with_reducible apply keeps_ite)
    | split

theorem enumTimeout_keeps (hz : Keeps z s) : Keeps z (enumTimeout s) := by
  unfold enumTimeout
  repeat' first
    | with_reducible assumption
    | (with_reducible apply ringCause_keeps)
    | (with_reducible apply updRing_keeps)
    | (with_reducible apply refresh_keeps)
    | (with_reducible apply toState_keeps)
    | (with_reducible apply enumBegin_keeps)
    | (with_reducible apply keeps_ite)
    | (intro b; refine (fun (_ : Keeps z b) => ?_) ?_; clear_value b; swap; dsimp only [b]; swap)
    | (intro b; clear_value b)
    | intro b
    | lift_lets
    | split

theorem enumUse_keeps {p : RingPort} {next : Nat} {dir : Nat} {tbmax : Nat} {origin : Nat} (hz : Keeps z s) : Keeps z (enumUse p next dir tbmax origin s) := by
  unfold enumUse
  repeat' first
    | with_reducible assumption
    | (with_reducible apply enumDone_keeps)
    | (with_reducible apply updRing_keeps)
    | (with_reducible apply toState_keeps)
    | (with_reducible apply refresh_keeps)
    | (with_reducible apply sendNear_keeps)
    | (with_reducible apply sendAll_keeps)
    | (with_reducible apply keeps_ite)
    | (intro b; refine (fun (_ : Keeps z b) => ?_) ?_; clear_value b; swap; dsimp only [b]; swap)
    | (intro b; clear_value b)
    | intro b
    | lift_lets
    | split
    | dsimp only

theorem enumRecv_keeps {h : DispHdr} {next : Nat} {dir : Nat} {tbmax : Nat} {origin : Nat} (hz : Keeps z s) : Keeps z (enumRecv s h next dir tbmax origin) := by
  unfold enumRecv
  repeat' first
    | with_reducible assumption
    | (with_reducible refine receive_keeps ?_ (fun x hx => ?_))
    | (with_reducible apply enumUse_keeps)

theorem enumEnd_keeps {h : DispHdr} {count : Nat} {dir : Nat} {tbmax : Nat} {origin : Nat} (hz : Keeps z s) : Keeps z (enumEnd s h count dir tbmax origin) := by
  unfold enumEnd
  repeat' first
    | with_reducible assumption
    | (with_reducible refine receive_keeps ?_ (fun x hx => ?_))
    | (with_reducible apply enumWest_keeps)
    | (with_reducible apply enumDone_keeps)
    | (with_reducible apply keeps_ite)
    | split

theorem groupstate_keeps {h : DispHdr} {request : Bool} {gid : Nat} {n : Nat} {pm : Nat} {gstart : Nat} {geper : Nat} (hz : Keeps z s) : Keeps z (groupstate s h request gid n pm gstart geper) := by
  unfold groupstate
  repeat' first
    | with_reducible assumption
    | (with_reducible refine receive_keeps ?_ (fun x hx => ?_))
    | (with_reducible apply sendRepeat_keeps)
    | (with_reducible apply updRing_keeps)
    | (with_reducible apply ringCause_keeps)
    | (with_reducible apply toState_keeps)
    | (with_reducible apply refresh_keeps)
    | (with_reducible apply keeps_ite)
    | (intro b; refine (fun (_ : Keeps z b) => ?_) ?_; clear_value b; swap; dsimp only [b]; swap)
    | (intro b; clear_value b)
    | intro b
    | lift_lets
    | split

theorem joinRecv_keeps {h : DispHdr} {serial : Nat} (hz : Keeps z s) : Keeps z (joinRecv s h serial) := by
  unfold joinRecv
  repeat' first
    | with_reducible assumption
    | (with_reducible refine receive_keeps ?_ (fun x hx => ?_))
    | (with_reducible apply sendRepeat_keeps)
    | (with_reducible apply ringCause_keeps)
    | (with_reducible apply updRing_keeps)
    | (with_reducible apply refresh_keeps)
    | (with_reducible apply keeps_ite)
    | (intro b; refine (fun (_ : Keeps z b) => ?_) ?_; clear_value b; swap; dsimp only [b]; swap)
    | (intro b; clear_value b)
    | intro b
    | lift_lets
    | split
    | dsimp only

theorem admitRecv_keeps {h : DispHdr} {serial : Nat} {addr : Nat} {gid : Nat} {n : Nat} (hz : Keeps z s) : Keeps z (admitRecv s h serial addr gid n) := by
  unfold admitRecv
  repeat' first
    | with_reducible assumption
    | (with_reducible refine receive_keeps ?_ (fun x hx => ?_))
    | (with_reducible apply refresh_keeps)
    | (with_reducible apply updRing_keeps)
    | (with_reducible apply keeps_ite)
    | (intro b; refine (fun (_ : Keeps z b) => ?_) ?_; clear_value b; swap; dsimp only [b]; swap)
    | (intro b; clear_value b)
    | intro b
    | lift_lets
    | split

theorem joinSend_keeps (hz : Keeps z s) : Keeps z (joinSend s) := by
  unfold joinSend
  repeat' first
    | with_reducible assumption
    | (with_reducible apply sendAll_keeps)
    | (with_reducible apply keeps_ite)
    | split

theorem roleRecv_keeps {h : DispHdr} {pm : Nat} {prev : Nat} (hz : Keeps z s) : Keeps z (roleRecv s h pm prev) := by
  unfold roleRecv
  repeat' first
    | with_reducible assumption
    | (with_reducible refine receive_keeps ?_ (fun x hx => ?_))
    | (with_reducible apply refresh_keeps)
    | (with_reducible apply updRing_keeps)
    | (with_reducible apply keeps_ite)
    | split

theorem takeover_keeps (hz : Keeps z s) : Keeps z (takeover s) := by
  unfold takeover
  repeat' first
    | with_reducible assumption
    | (with_reducible apply refresh_keeps)
    | (with_reducible apply updRing_keeps)
    | (with_reducible apply sendRepeat_keeps)
    | (with_reducible apply updUnsync_keeps)
    | (with_reducible apply keeps_ite)
    | (intro b; refine (fun (_ : Keeps z b) => ?_) ?_; clear_value b; swap; dsimp only [b]; swap)
    | (intro b; clear_value b)
    | intro b
    | lift_lets
    | split
    | dsimp only

theorem enumCommand_keeps (hz : Keeps z s) : Keeps z (enumCommand s) := by
  unfold enumCommand
  repeat' first
    | with_reducible assumption
    | (with_reducible apply enumBegin_keeps)
    | (with_reducible apply updRing_keeps)
    | (with_reducible apply ringCause_keeps)
    | (with_reducible apply keeps_ite)
    | split

theorem gsRequest_keeps (hz : Keeps z s) : Keeps z (gsRequest s) := by
  unfold gsRequest
  repeat' first
    | with_reducible assumption
    | (with_reducible apply sendRepeat_keeps)
    | (with_reducible apply keeps_ite)
    | (intro b; refine (fun (_ : Keeps z b) => ?_) ?_; clear_value b; swap; dsimp only [b]; swap)
    | (intro b; clear_value b)
    | intro b
    | lift_lets
    | split
    | dsimp only

theorem ackRecv_keeps {h : DispHdr} {typ : Nat} {seq : Nat} (hz : Keeps z s) : Keeps z (ackRecv s h typ seq) := by
  unfold ackRecv
  repeat' first
    | with_reducible assumption
    | (with_reducible refine receive_keeps ?_ (fun x hx => ?_))
    | (with_reducible apply updRing_keeps)

theorem dispatchRepeat_keeps {seq : Nat} (hz : Keeps z s) : Keeps z (dispatchRepeat s seq) := by
  unfold dispatchRepeat
  repeat' first
    | with_reducible assumption
    | (with_reducible apply sendPort_keeps)
    | (with_reducible apply updRing_keeps)
    | (with_reducible apply keeps_ite)
    | (intro b; refine (fun (_ : Keeps z b) => ?_) ?_; clear_value b; swap; dsimp only [b]; swap)
    | (intro b; clear_value b)
    | intro b
    | lift_lets
    | split
    | dsimp only

theorem sendSched_keeps {dst : Nat} {d : SchedDesc} (hz : Keeps z s) : Keeps z (sendSched s dst d) := by
  unfold sendSched
  repeat' first
    | with_reducible assumption
    | (with_reducible apply sendRepeat_keeps)
    | (with_reducible refine keeps_foldl (fun x b hx => ?_) ?_)

theorem schedInstall_keeps {d : SchedDesc} (hz : Keeps z s) : Keeps z (schedInstall s d) := by
  unfold schedInstall
  repeat' first
    | with_reducible assumption
    | (with_reducible apply updRing_keeps)
    | (with_reducible apply complete_keeps)
    | (with_reducible apply updWindow_keeps)
    | (with_reducible apply ringCause_keeps)
    | (with_reducible apply keeps_ite)
    | (intro b; refine (fun (_ : Keeps z b) => ?_) ?_; clear_value b; swap; dsimp only [b]; swap)
    | (intro b; clear_value b)
    | intro b
    | lift_lets
    | split
    | dsimp only

theorem schedPublish_keeps {d : SchedDesc} (hz : Keeps z s) : Keeps z (schedPublish s d) := by
  unfold schedPublish
  repeat' first
    | with_reducible assumption
    | (with_reducible apply schedInstall_keeps)
    | (with_reducible apply sendSched_keeps)
    | (intro b; refine (fun (_ : Keeps z b) => ?_) ?_; clear_value b; swap; dsimp only [b]; swap)
    | (intro b; clear_value b)
    | intro b
    | lift_lets

theorem schedRecv_keeps {h : DispHdr} {request : Bool} {part : Nat} {sseq : Nat} {bytes : BitVec 384} (hz : Keeps z s) : Keeps z (schedRecv s h request part sseq bytes) := by
  unfold schedRecv
  repeat' first
    | with_reducible assumption
    | (with_reducible refine receive_keeps ?_ (fun x hx => ?_))
    | (with_reducible apply sendSched_keeps)
    | (with_reducible apply updRing_keeps)
    | (with_reducible apply schedPublish_keeps)
    | (with_reducible apply schedInstall_keeps)
    | (with_reducible apply keeps_ite)
    | (intro b; refine (fun (_ : Keeps z b) => ?_) ?_; clear_value b; swap; dsimp only [b]; swap)
    | (intro b; clear_value b)
    | intro b
    | lift_lets
    | split
    | dsimp only

theorem schedEffective_keeps (hz : Keeps z s) : Keeps z (schedEffective s) := by
  unfold schedEffective
  repeat' first
    | with_reducible assumption
    | (with_reducible apply updWindow_keeps)
    | (with_reducible apply updRing_keeps)
    | (with_reducible apply keeps_ite)
    | split
    | dsimp only

theorem tickMark_keeps (hz : Keeps z s) : Keeps z (tickMark s) := by
  unfold tickMark
  repeat' first
    | with_reducible assumption
    | (with_reducible apply ringCause_keeps)
    | (with_reducible apply updRing_keeps)

theorem fwDispatch_keeps {h : DispHdr} {typ : Nat} {pl : List Byte} (hz : Keeps z s) : Keeps z (fwDispatch s h typ pl) := by
  unfold fwDispatch
  repeat' first
    | with_reducible assumption
    | (with_reducible refine receive_keeps ?_ (fun x hx => ?_))
    | (with_reducible apply countForeign_keeps)
    | (with_reducible apply updRing_keeps)
    | (with_reducible apply ringCause_keeps)
    | (with_reducible apply keeps_ite)
    | (intro b; refine (fun (_ : Keeps z b) => ?_) ?_; clear_value b; swap; dsimp only [b]; swap)
    | (intro b; clear_value b)
    | intro b
    | lift_lets
    | split

theorem rxPop_keeps (hz : Keeps z s) : Keeps z (rxPop s) := by
  unfold rxPop
  repeat' first
    | with_reducible assumption
    | (with_reducible apply updRing_keeps)

theorem txDispatch_keeps {v : Nat} (hz : Keeps z s) : Keeps z (txDispatch s v) := by
  unfold txDispatch
  repeat' first
    | with_reducible assumption
    | (with_reducible apply sendNear_keeps)
    | (with_reducible apply sendRepeat_keeps)
    | (with_reducible apply sendAll_keeps)
    | (with_reducible apply keeps_ite)
    | (intro b; refine (fun (_ : Keeps z b) => ?_) ?_; clear_value b; swap; dsimp only [b]; swap)
    | (intro b; clear_value b)
    | intro b
    | lift_lets
    | split

theorem reservedType_keeps {h : DispHdr} {typ : Nat} (hz : Keeps z s) : Keeps z (reservedType s h typ) := by
  unfold reservedType
  repeat' first
    | with_reducible assumption
    | (with_reducible apply freshBelow_keeps)
    | (with_reducible refine receive_keeps ?_ (fun x hx => ?_))
    | (with_reducible apply countForeign_keeps)
    | (intro b; refine (fun (_ : Keeps z b) => ?_) ?_; clear_value b; swap; dsimp only [b]; swap)
    | (intro b; refine (fun (_ : Keeps z b.1) => ?_) ?_; clear_value b; swap; dsimp only [b]; swap)
    | (intro b; clear_value b)
    | intro b
    | lift_lets
    | split
    | (refine keeps_of_eq (by assumption) ?_)
    | dsimp only

theorem setTx_keeps {p : RingPort} {x : Relay} (hz : Keeps z s) : Keeps z (setTx s p x) := by
  unfold setTx
  repeat' first
    | with_reducible assumption
    | (with_reducible apply updRing_keeps)
    | split
    | dsimp only

theorem sendChunks_keeps {p : RingPort} (hz : Keeps z s) : Keeps z (sendChunks s p) := by
  unfold sendChunks
  repeat' first
    | with_reducible assumption
    | (with_reducible apply sendNear_keeps)
    | (with_reducible apply setTx_keeps)
    | (with_reducible refine keeps_foldl (fun x b hx => ?_) ?_)
    | (intro b; refine (fun (_ : Keeps z b) => ?_) ?_; clear_value b; swap; dsimp only [b]; swap)
    | (intro b; clear_value b)
    | intro b
    | lift_lets
    | (fail_if_no_progress with_reducible refine keeps_upd ?_ rfl rfl rfl)

theorem relayOffer_keeps {p : RingPort} {size : Nat} {digest : Nat} (hz : Keeps z s) : Keeps z (relayOffer s p size digest) := by
  unfold relayOffer
  repeat' first
    | with_reducible assumption
    | (with_reducible apply sendNear_keeps)
    | (with_reducible apply setTx_keeps)
    | (with_reducible apply keeps_ite)
    | split

theorem relOffer_keeps {h : DispHdr} {size : Nat} {digest : Nat} (hz : Keeps z s) : Keeps z (relOffer s h size digest) := by
  unfold relOffer
  repeat' first
    | with_reducible assumption
    | (with_reducible refine receive_keeps ?_ (fun x hx => ?_))
    | (with_reducible apply sendNear_keeps)
    | (with_reducible apply updRing_keeps)
    | (with_reducible apply keeps_ite)
    | (intro b; refine (fun (_ : Keeps z b) => ?_) ?_; clear_value b; swap; dsimp only [b]; swap)
    | (intro b; clear_value b)
    | intro b
    | lift_lets
    | split

theorem relData_keeps {h : DispHdr} {index : Nat} {bytes : List Byte} (hz : Keeps z s) : Keeps z (relData s h index bytes) := by
  unfold relData
  repeat' first
    | with_reducible assumption
    | (with_reducible refine receive_keeps ?_ (fun x hx => ?_))
    | (with_reducible apply updRing_keeps)
    | (with_reducible apply sendNear_keeps)
    | (with_reducible apply keeps_ite)
    | (intro b; refine (fun (_ : Keeps z b) => ?_) ?_; clear_value b; swap; dsimp only [b]; swap)
    | (intro b; clear_value b)
    | intro b
    | lift_lets
    | split
    | (fail_if_no_progress with_reducible refine keeps_upd ?_ rfl rfl rfl)

theorem relAck_keeps {h : DispHdr} {next : Nat} (hz : Keeps z s) : Keeps z (relAck s h next) := by
  unfold relAck
  repeat' first
    | with_reducible assumption
    | (with_reducible refine receive_keeps ?_ (fun x hx => ?_))
    | (with_reducible apply setTx_keeps)
    | (with_reducible apply sendChunks_keeps)
    | (with_reducible apply keeps_ite)
    | (intro b; refine (fun (_ : Keeps z b) => ?_) ?_; clear_value b; swap; dsimp only [b]; swap)
    | (intro b; clear_value b)
    | intro b
    | lift_lets
    | split
    | (fail_if_no_progress with_reducible refine keeps_upd ?_ rfl rfl rfl)

theorem relHave_keeps {h : DispHdr} {digest : Nat} (hz : Keeps z s) : Keeps z (relHave s h digest) := by
  unfold relHave
  repeat' first
    | with_reducible assumption
    | (with_reducible refine receive_keeps ?_ (fun x hx => ?_))
    | (with_reducible apply setTx_keeps)
    | (with_reducible apply keeps_ite)
    | (intro b; refine (fun (_ : Keeps z b) => ?_) ?_; clear_value b; swap; dsimp only [b]; swap)
    | (intro b; clear_value b)
    | intro b
    | lift_lets
    | split
    | (fail_if_no_progress with_reducible refine keeps_upd ?_ rfl rfl rfl)

theorem relayResend_keeps {p : RingPort} (hz : Keeps z s) : Keeps z (relayResend s p) := by
  unfold relayResend
  repeat' first
    | with_reducible assumption
    | (with_reducible apply sendChunks_keeps)
    | (with_reducible apply setTx_keeps)
    | (with_reducible apply keeps_ite)
    | (intro b; refine (fun (_ : Keeps z b) => ?_) ?_; clear_value b; swap; dsimp only [b]; swap)
    | (intro b; clear_value b)
    | intro b
    | lift_lets
    | split
    | (fail_if_no_progress with_reducible refine keeps_upd ?_ rfl rfl rfl)

theorem actRecv_keeps {h : DispHdr} {digest : Nat} {tact : Nat} {stp : Nat} (hz : Keeps z s) : Keeps z (actRecv s h digest tact stp) := by
  unfold actRecv
  repeat' first
    | with_reducible assumption
    | (with_reducible refine receive_keeps ?_ (fun x hx => ?_))
    | (with_reducible apply updRing_keeps)

theorem ringEnable_keeps (hz : Keeps z s) : Keeps z (ringEnable s) := by
  unfold ringEnable
  repeat' first
    | with_reducible assumption
    | (with_reducible apply refresh_keeps)
    | (with_reducible apply toState_keeps)
    | (with_reducible apply setActive_keeps)

theorem ringDisable_keeps (hz : Keeps z s) : Keeps z (ringDisable s) := by
  unfold ringDisable
  repeat' first
    | with_reducible assumption
    | (with_reducible apply updRing_keeps)
    | (with_reducible apply setActive_keeps)
    | (with_reducible apply refresh_keeps)
    | (with_reducible apply toState_keeps)
    | (intro b; refine (fun (_ : Keeps z b) => ?_) ?_; clear_value b; swap; dsimp only [b]; swap)
    | (intro b; clear_value b)
    | intro b
    | lift_lets

theorem cfgCauseSet_keeps {bit : Nat} (hz : Keeps z s) : Keeps z (cfgCauseSet s bit) := by
  unfold cfgCauseSet
  repeat' first
    | with_reducible assumption
    | (with_reducible apply noteCause_keeps)
    | (with_reducible apply setCause_keeps)
    | (with_reducible apply keeps_ite)
    | split

theorem norPut_keeps {a : Nat} {l : List Byte} (hz : Keeps z s) : Keeps z (norPut s a l) :=
  keeps_nor hz (memWf_memWrites a l)

theorem writeRecordCopy_keeps {slot : Nat} {flags : Nat} {digest : Nat} (hz : Keeps z s) : Keeps z (writeRecordCopy s slot flags digest) := by
  unfold writeRecordCopy
  repeat' first
    | with_reducible assumption
    | (with_reducible apply norPut_keeps)
    | (with_reducible apply wrField_keeps)
    | (with_reducible apply wr_keeps)
    | (intro b; refine (fun (_ : Keeps z b) => ?_) ?_; clear_value b; swap; dsimp only [b]; swap)
    | (intro b; refine (fun (_ : Keeps z b.1) => ?_) ?_; clear_value b; swap; dsimp only [b]; swap)
    | (intro b; clear_value b)
    | intro b
    | lift_lets
    | split
    | (refine keeps_of_eq (by assumption) ?_)
    | dsimp only

theorem norStart_keeps {i : Initiator} {v : Nat} (hz : Keeps z s) : Keeps z (norStart s i v) := by
  unfold norStart
  repeat' first
    | with_reducible assumption
    | (with_reducible apply directRead_keeps)
    | (with_reducible refine updBoot_keeps ?_ rfl)
    | (with_reducible apply wr_keeps)
    | (with_reducible apply keeps_ite)
    | (with_reducible apply keeps_ite_fst)
    | (intro b; refine (fun (_ : Keeps z b) => ?_) ?_; clear_value b; swap; dsimp only [b]; swap)
    | (intro b; refine (fun (_ : Keeps z b.1) => ?_) ?_; clear_value b; swap; dsimp only [b]; swap)
    | (intro b; clear_value b)
    | intro b
    | lift_lets
    | split
    | (refine keeps_of_eq (by assumption) ?_)
    | dsimp only

theorem freeBytes_keeps {n : Nat} {l : List Byte} (hz : Keeps z s) : Keeps z (freeBytes n s l).1 := by
  induction n generalizing s l with
  | zero => exact hz
  | succ n ih =>
    cases l with
    | nil => exact hz
    | cons b r => exact ih (freshBelow_keeps hz)

theorem norApply_keeps {o : NorOp} {bad : Bool} (hz : Keeps z s) : Keeps z (norApply s o bad) := by
  unfold norApply
  repeat' first
    | with_reducible assumption
    | (with_reducible apply directWrite_keeps)
    | (with_reducible apply freeBytes_keeps)
    | (with_reducible apply norPut_keeps)
    | (with_reducible apply wrField_keeps)
    | (with_reducible apply wr_keeps)
    | (with_reducible apply keeps_ite)
    | (with_reducible apply keeps_ite_fst)
    | (intro b; refine (fun (_ : Keeps z b) => ?_) ?_; clear_value b; swap; dsimp only [b]; swap)
    | (intro b; refine (fun (_ : Keeps z b.1) => ?_) ?_; clear_value b; swap; dsimp only [b]; swap)
    | (intro b; clear_value b)
    | intro b
    | lift_lets
    | split

theorem norDone_keeps {mismatch : Bool} {timeout : Bool} (hz : Keeps z s) : Keeps z (norDone s mismatch timeout) := by
  unfold norDone
  repeat' first
    | with_reducible assumption
    | (with_reducible apply norApply_keeps)
    | (with_reducible refine updBoot_keeps ?_ rfl)
    | (with_reducible apply wr_keeps)
    | (with_reducible apply emit_keeps)
    | (with_reducible apply cfgCauseSet_keeps)
    | (with_reducible apply keeps_ite)
    | (with_reducible apply keeps_ite_fst)
    | (with_reducible refine keeps_foldl (fun x b hx => ?_) ?_)
    | (with_reducible refine keeps_foldl_fst (fun x b hx => ?_) ?_)
    | (intro b; refine (fun (_ : Keeps z b) => ?_) ?_; clear_value b; swap; dsimp only [b]; swap)
    | (intro b; refine (fun (_ : Keeps z b.1) => ?_) ?_; clear_value b; swap; dsimp only [b]; swap)
    | (intro b; clear_value b)
    | intro b
    | lift_lets
    | split
    | dsimp only

theorem xipWait_keeps {us : Nat} (hz : Keeps z s) : Keeps z (xipWait s us) := by
  unfold xipWait
  repeat' first
    | with_reducible assumption
    | (with_reducible apply wrField_keeps)

theorem xipFetch_keeps {i : Initiator} {off : Nat} {waited : Nat} (hz : Keeps z s) : Keeps z (xipFetch s i off waited) := by
  unfold xipFetch
  repeat' first
    | with_reducible assumption
    | (with_reducible apply emit_keeps)
    | (with_reducible apply xipWait_keeps)
    | (with_reducible apply cfgCauseSet_keeps)
    | (with_reducible refine updBoot_keeps ?_ rfl)
    | (with_reducible apply keeps_ite)
    | split
    | dsimp only

theorem xipServe_keeps (hz : Keeps z s) : Keeps z (xipServe s) := by
  unfold xipServe
  repeat' first
    | with_reducible assumption
    | (with_reducible apply emit_keeps)
    | (with_reducible refine updBoot_keeps ?_ rfl)
    | (with_reducible refine keeps_foldl (fun x b hx => ?_) ?_)
    | (with_reducible refine keeps_foldl_fst (fun x b hx => ?_) ?_)
    | (intro b; refine (fun (_ : Keeps z b) => ?_) ?_; clear_value b; swap; dsimp only [b]; swap)
    | (intro b; refine (fun (_ : Keeps z b.1) => ?_) ?_; clear_value b; swap; dsimp only [b]; swap)
    | (intro b; clear_value b)
    | intro b
    | lift_lets

theorem norSuspend_keeps {waited : Nat} (hz : Keeps z s) : Keeps z (norSuspend s waited) := by
  unfold norSuspend
  repeat' first
    | with_reducible assumption
    | (with_reducible apply satAdd_keeps)
    | (with_reducible apply xipWait_keeps)
    | (with_reducible apply xipServe_keeps)
    | (with_reducible refine updBoot_keeps ?_ rfl)
    | (with_reducible apply keeps_ite)
    | (intro b; refine (fun (_ : Keeps z b) => ?_) ?_; clear_value b; swap; dsimp only [b]; swap)
    | (intro b; clear_value b)
    | intro b
    | lift_lets
    | split
    | dsimp only

theorem norResume_keeps (hz : Keeps z s) : Keeps z (norResume s) := by
  unfold norResume
  repeat' first
    | with_reducible assumption
    | (with_reducible refine updBoot_keeps ?_ rfl)
    | (with_reducible apply keeps_ite)
    | split
    | dsimp only

theorem norPageDone_keeps (hz : Keeps z s) : Keeps z (norPageDone s) := by
  unfold norPageDone
  repeat' first
    | with_reducible assumption
    | (with_reducible apply xipServe_keeps)
    | split
    | dsimp only

theorem secCauseSet_keeps {bit : Nat} (hz : Keeps z s) : Keeps z (secCauseSet s bit) := by
  unfold secCauseSet
  repeat' first
    | with_reducible assumption
    | (with_reducible apply setCause_keeps)

theorem cryCauseSet_keeps {bit : Nat} (hz : Keeps z s) : Keeps z (cryCauseSet s bit) := by
  unfold cryCauseSet
  repeat' first
    | with_reducible assumption
    | (with_reducible apply setCause_keeps)

theorem trigRes_keeps {a : Nat} (hz : Keeps z s) : Keeps z (trigRes s a) := by
  unfold trigRes
  repeat' first
    | with_reducible assumption
    | (with_reducible apply wr_keeps)

theorem doneRes_keeps {a : Nat} {bits : Nat} (hz : Keeps z s) : Keeps z (doneRes s a bits) := by
  unfold doneRes
  repeat' first
    | with_reducible assumption
    | (with_reducible apply wr_keeps)

theorem setWin_keeps {p : Port} {w : Window} (hz : Keeps z s) : Keeps z (setWin s p w) := by
  unfold setWin
  repeat' first
    | with_reducible assumption
    | (with_reducible refine updSec_keeps ?_ ⟨rfl, rfl⟩)
    | split
    | (fail_if_no_progress with_reducible refine keeps_upd ?_ rfl rfl rfl)
    | dsimp only

theorem closeWin_keeps {p : Port} (hz : Keeps z s) : Keeps z (closeWin s p) := by
  unfold closeWin
  repeat' first
    | with_reducible assumption
    | (with_reducible apply setWin_keeps)
    | (with_reducible apply keeps_ite)
    | split

theorem denyAccess_keeps {p : Port} (hz : Keeps z s) : Keeps z (denyAccess s p) := by
  unfold denyAccess
  repeat' first
    | with_reducible assumption
    | (with_reducible apply secCauseSet_keeps)
    | (with_reducible apply satAdd_keeps)
    | split
    | dsimp only

theorem endSession_keeps {sid : Nat} (hz : Keeps z s) : Keeps z (endSession s sid) := by
  unfold endSession
  repeat' first
    | with_reducible assumption
    | (with_reducible apply closeWin_keeps)
    | (with_reducible refine updSec_keeps ?_ ⟨rfl, rfl⟩)
    | (with_reducible apply raise_keeps)
    | (with_reducible apply keeps_ite)
    | (with_reducible refine keeps_foldl (fun x b hx => ?_) ?_)
    | (intro b; refine (fun (_ : Keeps z b) => ?_) ?_; clear_value b; swap; dsimp only [b]; swap)
    | (intro b; clear_value b)
    | intro b
    | lift_lets
    | split
    | dsimp only

theorem endAllSessions_keeps (hz : Keeps z s) : Keeps z (endAllSessions s) := by
  unfold endAllSessions
  repeat' first
    | with_reducible assumption
    | (with_reducible apply endSession_keeps)
    | (with_reducible refine keeps_foldl (fun x b hx => ?_) ?_)

theorem modAt_getD {α : Type} (l : List α) (i k : Nat) (f : α → α) (d : α) :
    (modAt l i f).getD k d = if k = i ∧ i < l.length then f (l.getD k d) else l.getD k d := by
  induction l generalizing i k with
  | nil => simp [modAt]
  | cons a r ih =>
    cases i with
    | zero => cases k <;> simp [modAt]
    | succ i => cases k with
      | zero => simp [modAt]
      | succ k => simpa [modAt] using ih i k

/-- Changing one slot's fuses upwards clears none. -/
theorem keeps_slot {f : KeySlot → KeySlot} {i : Nat} (hz : Keeps z s) (hf : SlotKept (s.sec.slots.getD i {}) (f (s.sec.slots.getD i {}))) :
    Keeps z (updSec s fun x => { x with slots := modAt x.slots i f }) := by
  refine hz.trans ⟨rfl, fun c => ⟨c.regs, c.dram, c.nor⟩, ⟨Nat.le_refl _, fun k => ?_⟩⟩
  show SlotKept _ ((modAt s.sec.slots i f).getD k {})
  rw [modAt_getD]
  split
  · rename_i h; rw [h.1]; exact hf
  · exact SlotKept.refl _

/-- The fuses blown are those that were not (R350): a slot is programmed only where it was not. -/
theorem fuseBlow_keeps {op slot value : Nat} (hz : Keeps z s) (hp : op = 1 → (s.sec.slots.getD slot {}).programmed = false) :
    Keeps z (fuseBlow s op slot value) := by
  unfold fuseBlow
  split
  · exact keeps_slot hz ⟨fun h => by simp_all, fun h => h⟩
  · exact keeps_slot hz ⟨fun h => ⟨h, rfl⟩, fun _ => rfl⟩
  · exact hz.trans ⟨rfl, fun c => ⟨c.regs, c.dram, c.nor⟩, ⟨Nat.le_max_left _ _, fun k => SlotKept.refl _⟩⟩
  · exact hz

theorem fuseCmd_keeps {i : Initiator} {v : Nat} (hz : Keeps z s) : Keeps z (fuseCmd s i v) := by
  unfold fuseCmd
  dsimp only
  split
  · exact secCauseSet_keeps (doneRes_keeps (trigRes_keeps hz))
  · rename_i h
    refine secCauseSet_keeps (doneRes_keeps (fuseBlow_keeps (trigRes_keeps hz) fun h1 => ?_))
    rw [h1] at h
    simp only [fuseRefused, Bool.or_eq_true, not_or, Bool.not_eq_true] at h
    exact h.2.2

theorem verifyStart_keeps (hz : Keeps z s) : Keeps z (verifyStart s) := by
  unfold verifyStart
  repeat' first
    | with_reducible assumption
    | (with_reducible refine updSec_keeps ?_ ⟨rfl, rfl⟩)
    | (with_reducible apply trigRes_keeps)
    | (fail_if_no_progress with_reducible refine keeps_upd ?_ rfl rfl rfl)

theorem putDigest_keeps {d : BitVec 512} (hz : Keeps z s) : Keeps z (putDigest s d) := by
  unfold putDigest
  repeat' first
    | with_reducible assumption
    | (with_reducible apply wr_keeps)
    | (with_reducible refine keeps_foldl (fun x b hx => ?_) ?_)

theorem putVres_keeps {r : Nat} {d : BitVec 512} (hz : Keeps z s) : Keeps z (putVres s r d) := by
  unfold putVres
  repeat' first
    | with_reducible assumption
    | (with_reducible apply doneRes_keeps)
    | (with_reducible apply putDigest_keeps)
    | (with_reducible refine updSec_keeps ?_ ⟨rfl, rfl⟩)
    | (fail_if_no_progress with_reducible refine keeps_upd ?_ rfl rfl rfl)

theorem verifyDone_keeps (hz : Keeps z s) : Keeps z (verifyDone s) := by
  unfold verifyDone
  repeat' first
    | with_reducible assumption
    | (with_reducible refine updSec_keeps ?_ ⟨rfl, rfl⟩)
    | (with_reducible apply directRead_keeps)
    | (with_reducible apply secCauseSet_keeps)
    | (with_reducible apply putVres_keeps)
    | (with_reducible apply keeps_ite)
    | (with_reducible apply keeps_ite_fst)
    | (intro b; refine (fun (_ : Keeps z b) => ?_) ?_; clear_value b; swap; dsimp only [b]; swap)
    | (intro b; refine (fun (_ : Keeps z b.1) => ?_) ?_; clear_value b; swap; dsimp only [b]; swap)
    | (intro b; clear_value b)
    | intro b
    | lift_lets
    | split
    | (refine keeps_of_eq (by assumption) ?_)
    | (fail_if_no_progress with_reducible refine keeps_upd ?_ rfl rfl rfl)
    | dsimp only

theorem offerImage_keeps {img : List Byte} {skip : Option RingPort} (hz : Keeps z s) : Keeps z (offerImage s img skip) := by
  unfold offerImage
  repeat' first
    | with_reducible assumption
    | (with_reducible apply updRing_keeps)
    | (with_reducible apply relayOffer_keeps)
    | (with_reducible apply keeps_ite)
    | (intro b; refine (fun (_ : Keeps z b) => ?_) ?_; clear_value b; swap; dsimp only [b]; swap)
    | (intro b; clear_value b)
    | intro b
    | lift_lets
    | split

theorem relayBegin_keeps (hz : Keeps z s) : Keeps z (relayBegin s) := by
  unfold relayBegin
  repeat' first
    | with_reducible assumption
    | (with_reducible refine updBoot_keeps ?_ rfl)
    | (with_reducible refine updSec_keeps ?_ ⟨rfl, rfl⟩)
    | (with_reducible apply keeps_ite)
    | (intro b; refine (fun (_ : Keeps z b) => ?_) ?_; clear_value b; swap; dsimp only [b]; swap)
    | (intro b; clear_value b)
    | intro b
    | lift_lets
    | split
    | (fail_if_no_progress with_reducible refine keeps_upd ?_ rfl rfl rfl)
    | dsimp only

theorem relayVerify_keeps (hz : Keeps z s) : Keeps z (relayVerify s) := by
  unfold relayVerify
  repeat' first
    | with_reducible assumption
    | (with_reducible apply updRing_keeps)
    | (with_reducible apply relayBegin_keeps)
    | (with_reducible refine updSec_keeps ?_ ⟨rfl, rfl⟩)
    | (with_reducible apply secCauseSet_keeps)
    | (with_reducible apply putVres_keeps)
    | (with_reducible apply trigRes_keeps)
    | (with_reducible apply offerImage_keeps)
    | (with_reducible apply keeps_ite)
    | (intro b; refine (fun (_ : Keeps z b) => ?_) ?_; clear_value b; swap; dsimp only [b]; swap)
    | (intro b; clear_value b)
    | intro b
    | lift_lets
    | split
    | (fail_if_no_progress with_reducible refine keeps_upd ?_ rfl rfl rfl)

theorem relOfferHeld_keeps {h : DispHdr} {size : Nat} {digest : Nat} (hz : Keeps z s) : Keeps z (relOfferHeld s h size digest) := by
  unfold relOfferHeld
  repeat' first
    | with_reducible assumption
    | (with_reducible apply relOffer_keeps)
    | (with_reducible apply updRing_keeps)
    | (with_reducible apply keeps_ite)
    | (with_reducible refine keeps_foldl (fun x b hx => ?_) ?_)
    | (intro b; refine (fun (_ : Keeps z b) => ?_) ?_; clear_value b; swap; dsimp only [b]; swap)
    | (with_reducible apply hfn)
    | (intro b; refine (fun (hfn : ∀ x, Keeps z x → Keeps z (b x)) => ?_) ?_; clear_value b; swap; (intro x hx; dsimp only [b]); swap)
    | (intro b; refine (fun (hfn : ∀ x y, Keeps z x → Keeps z (b x y)) => ?_) ?_; clear_value b; swap; (intro x y hx; dsimp only [b]); swap)
    | (with_reducible apply hfc)
    | (with_reducible apply hfd)
    | (intro b; refine (fun (hfc : ∀ x, Keeps z (b x)) => ?_) ?_; clear_value b; swap; (intro x; dsimp only [b]); swap)
    | (intro b; refine (fun (hfd : ∀ x y, Keeps z (b x y)) => ?_) ?_; clear_value b; swap; (intro x y; dsimp only [b]); swap)
    | (intro b; clear_value b)
    | intro b
    | lift_lets
    | split

theorem relDataVerify_keeps {h : DispHdr} {index : Nat} {bytes : List Byte} (hz : Keeps z s) : Keeps z (relDataVerify s h index bytes) := by
  unfold relDataVerify
  repeat' first
    | with_reducible assumption
    | (with_reducible apply relayVerify_keeps)
    | (with_reducible apply relData_keeps)

theorem commitEnd_keeps {st : Status} (hz : Keeps z s) : Keeps z (commitEnd s st) := by
  unfold commitEnd
  repeat' first
    | with_reducible assumption
    | (with_reducible refine updSec_keeps ?_ ⟨rfl, rfl⟩)
    | (with_reducible apply complete_keeps)
    | (with_reducible apply keeps_ite)
    | (intro b; refine (fun (_ : Keeps z b) => ?_) ?_; clear_value b; swap; dsimp only [b]; swap)
    | (intro b; clear_value b)
    | intro b
    | lift_lets
    | split
    | (fail_if_no_progress with_reducible refine keeps_upd ?_ rfl rfl rfl)
    | dsimp only

theorem activationSkip_keeps {outcome : Nat} {st : Status} (hz : Keeps z s) : Keeps z (activationSkip s outcome st) := by
  unfold activationSkip
  repeat' first
    | with_reducible assumption
    | (with_reducible apply commitEnd_keeps)
    | (with_reducible apply secCauseSet_keeps)
    | (with_reducible apply doneRes_keeps)
    | (with_reducible apply trigRes_keeps)

theorem activate_keeps {slot : Nat} {group : Bool} (hz : Keeps z s) : Keeps z (activate s slot group) := by
  unfold activate
  repeat' first
    | with_reducible assumption
    | (with_reducible apply commitEnd_keeps)
    | (with_reducible apply doneRes_keeps)
    | (with_reducible apply trigRes_keeps)
    | (with_reducible refine updSec_keeps ?_ ⟨rfl, rfl⟩)
    | (with_reducible apply updChip_keeps)
    | (with_reducible apply asyncEvent_keeps)
    | (with_reducible apply keeps_ite)
    | (intro b; refine (fun (_ : Keeps z b) => ?_) ?_; clear_value b; swap; dsimp only [b]; swap)
    | (intro b; clear_value b)
    | intro b
    | lift_lets
    | split
    | (fail_if_no_progress with_reducible refine keeps_upd ?_ rfl rfl rfl)

theorem takeImage_keeps {slot : Nat} {d : BitVec 512} {svn : Nat} {key : Nat} {com : Bool} (hz : Keeps z s) : Keeps z (takeImage s slot d svn key com) := by
  unfold takeImage
  repeat' first
    | with_reducible assumption
    | (with_reducible apply wrField_keeps)
    | (with_reducible refine updSec_keeps ?_ ⟨rfl, rfl⟩)
    | (fail_if_no_progress with_reducible refine keeps_upd ?_ rfl rfl rfl)

theorem noteReady_keeps (hz : Keeps z s) : Keeps z (noteReady s) := by
  unfold noteReady
  repeat' first
    | with_reducible assumption
    | (with_reducible refine updSec_keeps ?_ ⟨rfl, rfl⟩)
    | (fail_if_no_progress with_reducible refine keeps_upd ?_ rfl rfl rfl)

theorem noteRoot_keeps (hz : Keeps z s) : Keeps z (noteRoot s) := by
  unfold noteRoot
  repeat' first
    | with_reducible assumption
    | (with_reducible refine updSec_keeps ?_ ⟨rfl, rfl⟩)
    | (fail_if_no_progress with_reducible refine keeps_upd ?_ rfl rfl rfl)

theorem writeHandover_keeps {new : BitVec 512} (hz : Keeps z s) : Keeps z (writeHandover s new) := by
  unfold writeHandover
  repeat' first
    | with_reducible assumption
    | (with_reducible refine updSec_keeps ?_ ⟨rfl, rfl⟩)
    | (with_reducible apply updJrc_keeps)
    | (intro b; refine (fun (_ : Keeps z b) => ?_) ?_; clear_value b; swap; dsimp only [b]; swap)
    | (intro b; clear_value b)
    | intro b
    | lift_lets
    | (fail_if_no_progress with_reducible refine keeps_upd ?_ rfl rfl rfl)

theorem readHandover_keeps {new : BitVec 512} (hz : Keeps z s) : Keeps z (readHandover s new).1 := by
  unfold readHandover
  repeat' first
    | with_reducible assumption
    | (with_reducible apply mirroredRead_keeps)
    | (intro b; refine (fun (_ : Keeps z b) => ?_) ?_; clear_value b; swap; dsimp only [b]; swap)
    | (intro b; refine (fun (_ : Keeps z b.1) => ?_) ?_; clear_value b; swap; dsimp only [b]; swap)
    | (intro b; clear_value b)
    | intro b
    | lift_lets
    | split
    | (refine keeps_of_eq (by assumption) ?_)
    | dsimp only

theorem handoverSwitch_keeps (hz : Keeps z s) : Keeps z (handoverSwitch s) := by
  unfold handoverSwitch
  repeat' first
    | with_reducible assumption
    | (with_reducible apply writeHandover_keeps)
    | (with_reducible refine updSec_keeps ?_ ⟨rfl, rfl⟩)
    | (with_reducible apply endAllSessions_keeps)
    | (with_reducible apply takeImage_keeps)
    | (with_reducible apply keeps_ite)
    | (intro b; refine (fun (_ : Keeps z b) => ?_) ?_; clear_value b; swap; dsimp only [b]; swap)
    | (intro b; clear_value b)
    | intro b
    | lift_lets
    | split
    | (fail_if_no_progress with_reducible refine keeps_upd ?_ rfl rfl rfl)
    | dsimp only

theorem handoverDone_keeps (hz : Keeps z s) : Keeps z (handoverDone s) := by
  unfold handoverDone
  repeat' first
    | with_reducible assumption
    | (with_reducible apply readHandover_keeps)
    | (with_reducible apply writeRecordCopy_keeps)
    | (with_reducible refine updSec_keeps ?_ ⟨rfl, rfl⟩)
    | (with_reducible apply noteReady_keeps)
    | (with_reducible apply updChip_keeps)
    | (with_reducible apply secCauseSet_keeps)
    | (with_reducible apply commitEnd_keeps)
    | (with_reducible apply doneRes_keeps)
    | (with_reducible apply keeps_ite)
    | (with_reducible apply keeps_ite_fst)
    | (intro b; refine (fun (_ : Keeps z b) => ?_) ?_; clear_value b; swap; dsimp only [b]; swap)
    | (intro b; refine (fun (_ : Keeps z b.1) => ?_) ?_; clear_value b; swap; dsimp only [b]; swap)
    | (intro b; clear_value b)
    | intro b
    | lift_lets
    | split
    | (refine keeps_of_eq (by assumption) ?_)
    | (fail_if_no_progress with_reducible refine keeps_upd ?_ rfl rfl rfl)
    | dsimp only

theorem activationRevert_keeps (hz : Keeps z s) : Keeps z (activationRevert s) := by
  unfold activationRevert
  repeat' first
    | with_reducible assumption
    | (with_reducible apply takeImage_keeps)
    | (with_reducible refine updSec_keeps ?_ ⟨rfl, rfl⟩)
    | (with_reducible apply noteReady_keeps)
    | (with_reducible apply updChip_keeps)
    | (with_reducible apply secCauseSet_keeps)
    | (with_reducible apply commitEnd_keeps)
    | (with_reducible apply doneRes_keeps)
    | (with_reducible apply keeps_ite)
    | (intro b; refine (fun (_ : Keeps z b) => ?_) ?_; clear_value b; swap; dsimp only [b]; swap)
    | (intro b; clear_value b)
    | intro b
    | lift_lets
    | split
    | (fail_if_no_progress with_reducible refine keeps_upd ?_ rfl rfl rfl)
    | dsimp only

theorem activationTime_keeps (hz : Keeps z s) : Keeps z (activationTime s) := by
  unfold activationTime
  repeat' first
    | with_reducible assumption
    | (with_reducible apply updRing_keeps)
    | (with_reducible apply activationSkip_keeps)
    | (with_reducible apply activate_keeps)
    | (with_reducible apply keeps_ite)
    | (intro b; refine (fun (_ : Keeps z b) => ?_) ?_; clear_value b; swap; dsimp only [b]; swap)
    | (intro b; clear_value b)
    | intro b
    | lift_lets
    | split
    | dsimp only

theorem commitActivate_keeps {slot : Nat} (hz : Keeps z s) : Keeps z (commitActivate s slot) := by
  unfold commitActivate
  repeat' first
    | with_reducible assumption
    | (with_reducible apply sendRepeat_keeps)
    | (with_reducible apply updRing_keeps)
    | (with_reducible apply activate_keeps)
    | (with_reducible apply secCauseSet_keeps)
    | (with_reducible apply keeps_ite)
    | (intro b; refine (fun (_ : Keeps z b) => ?_) ?_; clear_value b; swap; dsimp only [b]; swap)
    | (intro b; clear_value b)
    | intro b
    | lift_lets
    | split

theorem drawKey_keeps (hz : Keeps z s) : Keeps z (drawKey s).1 := by
  unfold drawKey
  repeat' first
    | with_reducible assumption
    | (with_reducible apply freshBelow_keeps)
    | (with_reducible apply keeps_ite)
    | (with_reducible apply keeps_ite_fst)
    | (intro b; refine (fun (_ : Keeps z b) => ?_) ?_; clear_value b; swap; dsimp only [b]; swap)
    | (intro b; refine (fun (_ : Keeps z b.1) => ?_) ?_; clear_value b; swap; dsimp only [b]; swap)
    | (intro b; clear_value b)
    | intro b
    | lift_lets
    | split
    | (refine keeps_of_eq (by assumption) ?_)
    | dsimp only

theorem newSalt_keeps {nsid : Nat} {entry : Nat} (hz : Keeps z s) : Keeps z (newSalt s nsid entry) := by
  unfold newSalt
  repeat' first
    | with_reducible assumption
    | (with_reducible apply freshBelow_keeps)
    | (with_reducible apply updJrc_keeps)
    | (with_reducible apply updCry_keeps)
    | (intro b; refine (fun (_ : Keeps z b) => ?_) ?_; clear_value b; swap; dsimp only [b]; swap)
    | (intro b; refine (fun (_ : Keeps z b.1) => ?_) ?_; clear_value b; swap; dsimp only [b]; swap)
    | (intro b; clear_value b)
    | intro b
    | lift_lets

theorem makeKey_keeps {nsid : Nat} {entry : Nat} (hz : Keeps z s) : Keeps z (makeKey s nsid entry).1 := by
  unfold makeKey
  repeat' first
    | with_reducible assumption
    | (with_reducible apply drawKey_keeps)
    | (with_reducible apply newSalt_keeps)
    | (with_reducible apply updCry_keeps)
    | (intro b; refine (fun (_ : Keeps z b) => ?_) ?_; clear_value b; swap; dsimp only [b]; swap)
    | (intro b; refine (fun (_ : Keeps z b.1) => ?_) ?_; clear_value b; swap; dsimp only [b]; swap)
    | (intro b; clear_value b)
    | intro b
    | lift_lets
    | dsimp only

theorem putWrap_keeps {w : BitVec 576} (hz : Keeps z s) : Keeps z (putWrap s w) := by
  unfold putWrap
  repeat' first
    | with_reducible assumption
    | (with_reducible apply wr_keeps)
    | (with_reducible refine keeps_foldl (fun x b hx => ?_) ?_)

theorem keyCommand_keeps {v : Nat} {entropyOk : Bool} (hz : Keeps z s) : Keeps z (keyCommand s v entropyOk) := by
  unfold keyCommand
  repeat' first
    | with_reducible assumption
    | (with_reducible apply trigRes_keeps)
    | (with_reducible apply cryCauseSet_keeps)
    | (with_reducible apply doneRes_keeps)
    | (with_reducible apply makeKey_keeps)
    | (with_reducible apply putWrap_keeps)
    | (with_reducible apply updCry_keeps)
    | (with_reducible apply keeps_ite)
    | (with_reducible apply keeps_ite_fst)
    | (intro b; refine (fun (_ : Keeps z b) => ?_) ?_; clear_value b; swap; dsimp only [b]; swap)
    | (intro b; refine (fun (_ : Keeps z b.1) => ?_) ?_; clear_value b; swap; dsimp only [b]; swap)
    | (intro b; clear_value b)
    | intro b
    | lift_lets
    | split
    | dsimp only

theorem kcmd_keeps {v : Nat} {entropyOk : Bool} (hz : Keeps z s) : Keeps z (kcmd s v entropyOk) := by
  unfold kcmd
  repeat' first
    | with_reducible assumption
    | (with_reducible apply anaAfter_keeps)
    | (with_reducible apply keyCommand_keeps)
    | (with_reducible apply keeps_ite)
    | (with_reducible apply keeps_ite_fst)
    | (with_reducible refine keeps_foldl (fun x b hx => ?_) ?_)
    | (with_reducible refine keeps_foldl_fst (fun x b hx => ?_) ?_)
    | (intro b; refine (fun (_ : Keeps z b) => ?_) ?_; clear_value b; swap; dsimp only [b]; swap)
    | (intro b; refine (fun (_ : Keeps z b.1) => ?_) ?_; clear_value b; swap; dsimp only [b]; swap)
    | (with_reducible apply hfn)
    | (with_reducible apply hf)
    | (intro b; refine (fun (hfn : ∀ x, Keeps z x → Keeps z (b x)) => ?_) ?_; clear_value b; swap; (intro x hx; dsimp only [b]); swap)
    | (intro b; refine (fun (hfn : ∀ x y, Keeps z x → Keeps z (b x y)) => ?_) ?_; clear_value b; swap; (intro x y hx; dsimp only [b]); swap)
    | (with_reducible apply hfc)
    | (with_reducible apply hfd)
    | (intro b; refine (fun (hfc : ∀ x, Keeps z (b x)) => ?_) ?_; clear_value b; swap; (intro x; dsimp only [b]); swap)
    | (intro b; refine (fun (hfd : ∀ x y, Keeps z (b x y)) => ?_) ?_; clear_value b; swap; (intro x y; dsimp only [b]); swap)
    | (intro b; clear_value b)
    | intro b
    | lift_lets
    | split
    | (refine keeps_of_eq (by assumption) ?_)
    | (with_reducible refine keeps_dram_write ?_ _ _)
    | (with_reducible refine keeps_dram_filter ?_ _)
    | (refine keeps_dram_puts ?_ _ _)
    | (fail_if_no_progress with_reducible refine keeps_upd ?_ rfl rfl rfl)
    | dsimp only

theorem setConn_keeps {t : SpdmTransport} {c : SpdmConn} (hz : Keeps z s) : Keeps z (setConn s t c) := by
  unfold setConn
  repeat' first
    | with_reducible assumption
    | (with_reducible refine updSec_keeps ?_ ⟨rfl, rfl⟩)
    | (fail_if_no_progress with_reducible refine keeps_upd ?_ rfl rfl rfl)

theorem respond_keeps {t : SpdmTransport} {code : Nat} {body : List Byte} (hz : Keeps z s) : Keeps z (respond s t code body) := by
  unfold respond
  repeat' first
    | with_reducible assumption
    | (with_reducible apply modPort_keeps)
    | (with_reducible apply emit_keeps)
    | split
    | (fail_if_no_progress with_reducible refine keeps_upd ?_ rfl rfl rfl)
    | dsimp only

theorem spdmError_keeps {t : SpdmTransport} {e : Nat} (hz : Keeps z s) : Keeps z (spdmError s t e) := by
  unfold spdmError
  repeat' first
    | with_reducible assumption
    | (with_reducible apply respond_keeps)

theorem spdm_keeps {t : SpdmTransport} {r : SpdmReq} (hz : Keeps z s) : Keeps z (spdm s t r) := by
  unfold spdm
  repeat' first
    | with_reducible assumption
    | (with_reducible apply respond_keeps)
    | (with_reducible apply setConn_keeps)
    | (with_reducible apply spdmError_keeps)
    | (with_reducible refine updSec_keeps ?_ ⟨rfl, rfl⟩)
    | (with_reducible apply raise_keeps)
    | (with_reducible apply endSession_keeps)
    | (with_reducible apply keeps_ite)
    | (intro b; refine (fun (_ : Keeps z b) => ?_) ?_; clear_value b; swap; dsimp only [b]; swap)
    | (intro b; clear_value b)
    | intro b
    | lift_lets
    | split
    | (fail_if_no_progress with_reducible refine keeps_upd ?_ rfl rfl rfl)
    | dsimp only

theorem spdmTimeout_keeps {sid : Nat} (hz : Keeps z s) : Keeps z (spdmTimeout s sid) := by
  unfold spdmTimeout
  repeat' first
    | with_reducible assumption
    | (with_reducible apply endSession_keeps)
    | (with_reducible apply keeps_ite)
    | split
    | dsimp only

end Sys2Proof.Machine
end

