-- ==== Sys2Proof/Laws/KeepsIo.lean ====
section
/-! SUPPORT. What the operations keep (Laws/Keeps.lean): host commands, namespaces, commits, couriers, the patrol and scrubs. One law for each operation. -/

set_option Elab.async false
set_option linter.unusedTactic false
set_option linter.unreachableTactic false

namespace Sys2Proof.Machine

variable {z s : State}

theorem takeEntry_keeps {p : Port} {qid : Nat} (hz : Keeps z s) : Keeps z (takeEntry s p qid) := by
  unfold takeEntry
  repeat' first
    | with_reducible assumption
    | (with_reducible apply modPort_keeps)
    | (intro b; refine (fun (_ : Keeps z b) => ?_) ?_; clear_value b; swap; dsimp only [b]; swap)
    | (intro b; clear_value b)
    | intro b
    | lift_lets
    | split
    | (fail_if_no_progress with_reducible refine keeps_upd ?_ rfl rfl rfl)
    | dsimp only

theorem noteAccept_keeps {p : Port} (hz : Keeps z s) : Keeps z (noteAccept s p) := by
  unfold noteAccept
  repeat' first
    | with_reducible assumption
    | (with_reducible apply updSrt_keeps)

theorem takeIo_keeps {q : Sqe} (hz : Keeps z s) : Keeps z (takeIo s q) := by
  unfold takeIo
  repeat' first
    | with_reducible assumption
    | (with_reducible apply noteAccept_keeps)
    | (with_reducible apply takeEntry_keeps)

theorem takeFirm_keeps {p : Port} (hz : Keeps z s) : Keeps z (takeFirm s p) := by
  unfold takeFirm
  repeat' first
    | with_reducible assumption
    | (with_reducible apply raise_keeps)
    | (with_reducible apply takeEntry_keeps)

theorem takeAdmin_keeps {p : Port} (hz : Keeps z s) : Keeps z (takeAdmin s p) := by
  unfold takeAdmin
  repeat' first
    | with_reducible assumption
    | (with_reducible apply noteAccept_keeps)
    | (with_reducible apply takeFirm_keeps)

theorem turnAway_keeps {q : Sqe} {st : Status} {lba : optParam Nat 0} (hz : Keeps z s) : Keeps z (turnAway s q st lba) := by
  unfold turnAway
  repeat' first
    | with_reducible assumption
    | (with_reducible apply complete_keeps)
    | (with_reducible apply noteAccept_keeps)

theorem enterTracker_keeps {c : Cmd} (hz : Keeps z s) : Keeps z (enterTracker s c) := by
  unfold enterTracker
  repeat' first
    | with_reducible assumption
    | (with_reducible apply updSrt_keeps)
    | (with_reducible apply hwm_keeps)
    | (with_reducible apply raise_keeps)
    | (with_reducible apply orReg_keeps)
    | (with_reducible apply keeps_ite)
    | (intro b; refine (fun (_ : Keeps z b) => ?_) ?_; clear_value b; swap; dsimp only [b]; swap)
    | (intro b; clear_value b)
    | intro b
    | lift_lets
    | split

theorem acceptWaiting_keeps (hz : Keeps z s) : Keeps z (acceptWaiting s) := by
  unfold acceptWaiting
  repeat' first
    | with_reducible assumption
    | (with_reducible apply dropCmd_keeps)
    | (with_reducible apply endCmd_keeps)
    | (with_reducible apply noteAccept_keeps)
    | (with_reducible apply trkSettle_keeps)
    | (with_reducible apply enterTracker_keeps)
    | (with_reducible apply keeps_ite)
    | (intro b; refine (fun (_ : Keeps z b) => ?_) ?_; clear_value b; swap; dsimp only [b]; swap)
    | (intro b; clear_value b)
    | intro b
    | lift_lets
    | split
    | dsimp only

theorem fetchIo_keeps {q : Sqe} {body : Instr} {modif : Bool} {writes : Bool} {rs : List (Nat × Nat)} (hz : Keeps z s) : Keeps z (fetchIo s q body modif writes rs) := by
  unfold fetchIo
  repeat' first
    | with_reducible assumption
    | (with_reducible apply takeEntry_keeps)
    | (with_reducible apply complete_keeps)
    | (with_reducible apply noteAccept_keeps)
    | (with_reducible apply enterTracker_keeps)
    | (with_reducible apply keeps_ite)
    | (with_reducible apply keeps_ite_fst)
    | (intro b; refine (fun (_ : Keeps z b) => ?_) ?_; clear_value b; swap; dsimp only [b]; swap)
    | (intro b; refine (fun (_ : Keeps z b.1) => ?_) ?_; clear_value b; swap; dsimp only [b]; swap)
    | (intro b; clear_value b)
    | intro b
    | lift_lets
    | split
    | dsimp only

theorem flushCmd_keeps {q : Sqe} (hz : Keeps z s) : Keeps z (flushCmd s q) := by
  unfold flushCmd
  repeat' first
    | with_reducible assumption
    | (with_reducible apply takeIo_keeps)
    | (with_reducible apply complete_keeps)
    | (with_reducible apply keeps_ite)
    | (intro b; refine (fun (_ : Keeps z b) => ?_) ?_; clear_value b; swap; dsimp only [b]; swap)
    | (intro b; clear_value b)
    | intro b
    | lift_lets
    | split

theorem unsupported_keeps {q : Sqe} {fused : Bool} (hz : Keeps z s) : Keeps z (unsupported s q fused) := by
  unfold unsupported
  repeat' first
    | with_reducible assumption
    | (with_reducible apply complete_keeps)
    | (with_reducible apply takeAdmin_keeps)
    | (with_reducible apply takeIo_keeps)
    | (with_reducible apply keeps_ite)
    | (intro b; refine (fun (_ : Keeps z b) => ?_) ?_; clear_value b; swap; dsimp only [b]; swap)
    | (intro b; clear_value b)
    | intro b
    | lift_lets
    | split

theorem noteStream_keeps {q : Sqe} {stream : Nat} (hz : Keeps z s) : Keeps z (noteStream s q stream) := by
  unfold noteStream
  repeat' first
    | with_reducible assumption
    | (with_reducible apply setPort_keeps)
    | (with_reducible apply keeps_ite)
    | (intro b; refine (fun (_ : Keeps z b) => ?_) ?_; clear_value b; swap; dsimp only [b]; swap)
    | (intro b; clear_value b)
    | intro b
    | lift_lets
    | split
    | (fail_if_no_progress with_reducible refine keeps_upd ?_ rfl rfl rfl)

theorem allocOne_keeps {id : Nat} {c : Cmd} {n : Ns} {f : IoFields} {a : State × List (Nat × Nat × Nat) × List Rmw} {x : Nat × List Nat} (hz : Keeps z a.1) : Keeps z (allocOne id c n f a x).1 := by
  unfold allocOne
  repeat' first
    | with_reducible assumption
    | (with_reducible apply placeLetters_keeps)
    | (with_reducible apply tryBundle_keeps)
    | (with_reducible apply waitBundle_keeps)
    | (with_reducible apply keeps_ite)
    | (with_reducible apply keeps_ite_fst)
    | (intro b; refine (fun (_ : Keeps z b) => ?_) ?_; clear_value b; swap; dsimp only [b]; swap)
    | (intro b; refine (fun (_ : Keeps z b.1) => ?_) ?_; clear_value b; swap; dsimp only [b]; swap)
    | (with_reducible apply hfn)
    | (intro b; refine (fun (hfn : ∀ x, Keeps z x → Keeps z (b x)) => ?_) ?_; clear_value b; swap; (intro x hx; dsimp only [b]); swap)
    | (intro b; refine (fun (hfn : ∀ x y, Keeps z x → Keeps z (b x y)) => ?_) ?_; clear_value b; swap; (intro x y hx; dsimp only [b]); swap)
    | (with_reducible apply hfc)
    | (with_reducible apply hfd)
    | (intro b; refine (fun (hfc : ∀ x, Keeps z (b x)) => ?_) ?_; clear_value b; swap; (intro x; dsimp only [b]); swap)
    | (intro b; refine (fun (hfd : ∀ x y, Keeps z (b x y)) => ?_) ?_; clear_value b; swap; (intro x y; dsimp only [b]); swap)
    | (intro b; clear_value b)
    | intro b
    | lift_lets
    | split
    | (refine keeps_of_eq (by assumption) ?_)
    | dsimp only

theorem allocUnits_keeps {id : Nat} {c : Cmd} {n : Ns} {f : IoFields} {us : List (Nat × Nat × Nat)} {a : State × List (Nat × Nat × Nat) × List Rmw} {p : Nat} (hz : Keeps z a.1) : Keeps z (allocUnits id c n f us a p).1 := by
  unfold allocUnits
  repeat' first
    | with_reducible assumption
    | (with_reducible apply placeUnits_keeps)
    | (with_reducible apply tryBundle_keeps)
    | (with_reducible apply waitBundle_keeps)
    | (with_reducible apply keeps_ite)
    | (with_reducible apply keeps_ite_fst)
    | (intro b; refine (fun (_ : Keeps z b) => ?_) ?_; clear_value b; swap; dsimp only [b]; swap)
    | (intro b; refine (fun (_ : Keeps z b.1) => ?_) ?_; clear_value b; swap; dsimp only [b]; swap)
    | (with_reducible apply hfn)
    | (intro b; refine (fun (hfn : ∀ x, Keeps z x → Keeps z (b x)) => ?_) ?_; clear_value b; swap; (intro x hx; dsimp only [b]); swap)
    | (intro b; refine (fun (hfn : ∀ x y, Keeps z x → Keeps z (b x y)) => ?_) ?_; clear_value b; swap; (intro x y hx; dsimp only [b]); swap)
    | (with_reducible apply hfc)
    | (with_reducible apply hfd)
    | (intro b; refine (fun (hfc : ∀ x, Keeps z (b x)) => ?_) ?_; clear_value b; swap; (intro x; dsimp only [b]); swap)
    | (intro b; refine (fun (hfd : ∀ x y, Keeps z (b x y)) => ?_) ?_; clear_value b; swap; (intro x y; dsimp only [b]); swap)
    | (intro b; clear_value b)
    | intro b
    | lift_lets
    | split
    | (refine keeps_of_eq (by assumption) ?_)
    | dsimp only

theorem allocAll_keeps {id : Nat} {c : Cmd} {n : Ns} {f : IoFields} (hz : Keeps z s) : Keeps z (allocAll s id c n f) := by
  unfold allocAll
  repeat' first
    | with_reducible assumption
    | (with_reducible apply allocOne_keeps)
    | (with_reducible apply allocUnits_keeps)
    | (with_reducible apply modCmd_keeps)
    | (with_reducible refine keeps_foldl (fun x b hx => ?_) ?_)
    | (with_reducible refine keeps_foldl_fst (fun x b hx => ?_) ?_)
    | (intro b; refine (fun (_ : Keeps z b) => ?_) ?_; clear_value b; swap; dsimp only [b]; swap)
    | (intro b; refine (fun (_ : Keeps z b.1) => ?_) ?_; clear_value b; swap; dsimp only [b]; swap)
    | (intro b; clear_value b)
    | intro b
    | lift_lets
    | split
    | (refine keeps_of_eq (by assumption) ?_)
    | dsimp only

theorem settleBundle_keeps {id : Nat} {p : Nat} (hz : Keeps z s) : Keeps z (settleBundle id s p) := by
  unfold settleBundle
  repeat' first
    | with_reducible assumption
    | (with_reducible apply updMap_keeps)
    | (with_reducible apply tryBundle_keeps)
    | (with_reducible apply waitBundle_keeps)
    | (with_reducible apply modCmd_keeps)
    | (with_reducible apply keeps_ite)
    | (with_reducible apply keeps_ite_fst)
    | (intro b; refine (fun (_ : Keeps z b) => ?_) ?_; clear_value b; swap; dsimp only [b]; swap)
    | (intro b; refine (fun (_ : Keeps z b.1) => ?_) ?_; clear_value b; swap; dsimp only [b]; swap)
    | (with_reducible apply hfn)
    | (intro b; refine (fun (hfn : ∀ x, Keeps z x → Keeps z (b x)) => ?_) ?_; clear_value b; swap; (intro x hx; dsimp only [b]); swap)
    | (intro b; refine (fun (hfn : ∀ x y, Keeps z x → Keeps z (b x y)) => ?_) ?_; clear_value b; swap; (intro x y hx; dsimp only [b]); swap)
    | (with_reducible apply hfc)
    | (with_reducible apply hfd)
    | (intro b; refine (fun (hfc : ∀ x, Keeps z (b x)) => ?_) ?_; clear_value b; swap; (intro x; dsimp only [b]); swap)
    | (intro b; refine (fun (hfd : ∀ x y, Keeps z (b x y)) => ?_) ?_; clear_value b; swap; (intro x y; dsimp only [b]); swap)
    | (intro b; clear_value b)
    | intro b
    | lift_lets
    | split
    | (refine keeps_of_eq (by assumption) ?_)
    | dsimp only

theorem settleBundles_keeps {id : Nat} {c : Cmd} {n : Ns} (hz : Keeps z s) : Keeps z (settleBundles s id c n) := by
  unfold settleBundles
  repeat' first
    | with_reducible assumption
    | (with_reducible apply settleBundle_keeps)
    | (with_reducible refine keeps_foldl (fun x b hx => ?_) ?_)
    | (with_reducible refine keeps_foldl_fst (fun x b hx => ?_) ?_)
    | (intro b; refine (fun (_ : Keeps z b) => ?_) ?_; clear_value b; swap; dsimp only [b]; swap)
    | (intro b; refine (fun (_ : Keeps z b.1) => ?_) ?_; clear_value b; swap; dsimp only [b]; swap)
    | (intro b; clear_value b)
    | intro b
    | lift_lets

theorem rmwCount_keeps (hz : Keeps z s) : Keeps z (rmwCount s) := by
  unfold rmwCount
  repeat' first
    | with_reducible assumption
    | (with_reducible apply updMap_keeps)
    | (with_reducible apply satAdd_keeps)
    | (with_reducible apply raise_keeps)
    | (with_reducible apply keeps_ite)
    | (intro b; refine (fun (_ : Keeps z b) => ?_) ?_; clear_value b; swap; dsimp only [b]; swap)
    | (intro b; clear_value b)
    | intro b
    | lift_lets
    | split

theorem proceed_keeps {id : Nat} (hz : Keeps z s) : Keeps z (proceed s id) := by
  unfold proceed
  repeat' first
    | with_reducible assumption
    | (with_reducible apply corrupt_keeps)
    | (with_reducible apply rmwCount_keeps)
    | (with_reducible apply modCmd_keeps)
    | (with_reducible apply writeGot_keeps)
    | (with_reducible apply readsOver_keeps)
    | (with_reducible apply addReads_keeps)
    | (with_reducible apply keeps_ite)
    | (with_reducible apply keeps_ite_fst)
    | (with_reducible refine keeps_foldl (fun x b hx => ?_) ?_)
    | (with_reducible refine keeps_foldl_fst (fun x b hx => ?_) ?_)
    | (intro b; refine (fun (_ : Keeps z b) => ?_) ?_; clear_value b; swap; dsimp only [b]; swap)
    | (intro b; refine (fun (_ : Keeps z b.1) => ?_) ?_; clear_value b; swap; dsimp only [b]; swap)
    | (intro b; clear_value b)
    | intro b
    | lift_lets
    | split
    | dsimp only

theorem releaseHolds_keeps (hz : Keeps z s) : Keeps z (releaseHolds s) := by
  unfold releaseHolds
  repeat' first
    | with_reducible assumption
    | (with_reducible apply updSrt_keeps)
    | (with_reducible apply keeps_ite)
    | (with_reducible apply keeps_ite_fst)
    | split

theorem proceedAll_keeps (hz : Keeps z s) : Keeps z (proceedAll s) := by
  unfold proceedAll
  repeat' first
    | with_reducible assumption
    | (with_reducible apply proceed_keeps)
    | (with_reducible refine keeps_foldl (fun x b hx => ?_) ?_)
    | (with_reducible refine keeps_foldl_fst (fun x b hx => ?_) ?_)

theorem writeData_keeps {id : Nat} {blocks : List HostBlock} {hostFail : Bool} {bufferUe : Bool} (hz : Keeps z s) : Keeps z (writeData s id blocks hostFail bufferUe) := by
  unfold writeData
  repeat' first
    | with_reducible assumption
    | (with_reducible apply failCmd_keeps)
    | (with_reducible apply freshBelow_keeps)
    | (with_reducible apply drcReport_keeps)
    | (with_reducible apply allocAll_keeps)
    | (with_reducible apply modCmd_keeps)
    | (with_reducible apply proceed_keeps)
    | (with_reducible apply turn_keeps)
    | (with_reducible apply keeps_ite)
    | (with_reducible apply keeps_ite_fst)
    | (intro b; refine (fun (_ : Keeps z b) => ?_) ?_; clear_value b; swap; dsimp only [b]; swap)
    | (intro b; refine (fun (_ : Keeps z b.1) => ?_) ?_; clear_value b; swap; dsimp only [b]; swap)
    | (intro b; clear_value b)
    | intro b
    | lift_lets
    | split
    | (refine keeps_of_eq (by assumption) ?_)
    | (fail_if_no_progress with_reducible refine keeps_upd ?_ rfl rfl rfl)
    | dsimp only

theorem lookup_keeps {id : Nat} {c : Cmd} {n : Ns} {f : IoFields} (hz : Keeps z s) : Keeps z (lookup s id c n f) := by
  unfold lookup
  repeat' first
    | with_reducible assumption
    | (with_reducible apply endCmd_keeps)
    | (with_reducible apply corrupt_keeps)
    | (with_reducible apply pin_keeps)
    | (with_reducible apply modCmd_keeps)
    | (with_reducible apply finishRead_keeps)
    | (with_reducible apply readsOver_keeps)
    | (with_reducible apply requestReads_keeps)
    | (with_reducible apply keeps_ite)
    | (with_reducible refine keeps_foldl (fun x b hx => ?_) ?_)
    | (intro b; refine (fun (_ : Keeps z b) => ?_) ?_; clear_value b; swap; dsimp only [b]; swap)
    | (intro b; clear_value b)
    | intro b
    | lift_lets
    | split
    | dsimp only

theorem releaseWrite_keeps {id : Nat} {c : Cmd} {n : Ns} {f : IoFields} (hz : Keeps z s) : Keeps z (releaseWrite s id c n f) := by
  unfold releaseWrite
  repeat' first
    | with_reducible assumption
    | (with_reducible apply corrupt_keeps)
    | (with_reducible apply capacityFail_keeps)
    | (with_reducible apply modCmd_keeps)
    | (with_reducible apply settleBundles_keeps)
    | (with_reducible apply turn_keeps)
    | (with_reducible apply allocAll_keeps)
    | (with_reducible apply proceed_keeps)
    | (with_reducible apply keeps_ite)
    | (with_reducible apply keeps_ite_fst)
    | (intro b; refine (fun (_ : Keeps z b) => ?_) ?_; clear_value b; swap; dsimp only [b]; swap)
    | (intro b; refine (fun (_ : Keeps z b.1) => ?_) ?_; clear_value b; swap; dsimp only [b]; swap)
    | (intro b; clear_value b)
    | intro b
    | lift_lets
    | split
    | dsimp only

theorem releaseDealloc_keeps {id : Nat} {c : Cmd} (hz : Keeps z s) : Keeps z (releaseDealloc s id c) := by
  unfold releaseDealloc
  repeat' first
    | with_reducible assumption
    | (with_reducible apply corrupt_keeps)
    | (with_reducible apply tryBundle_keeps)
    | (with_reducible apply waitBundle_keeps)
    | (with_reducible apply modCmd_keeps)
    | (with_reducible apply finishCmd_keeps)
    | (with_reducible apply askNext_keeps)
    | (with_reducible apply keeps_ite)
    | (with_reducible apply keeps_ite_fst)
    | (with_reducible refine keeps_foldl (fun x b hx => ?_) ?_)
    | (with_reducible refine keeps_foldl_fst (fun x b hx => ?_) ?_)
    | (intro b; refine (fun (_ : Keeps z b) => ?_) ?_; clear_value b; swap; dsimp only [b]; swap)
    | (intro b; refine (fun (_ : Keeps z b.1) => ?_) ?_; clear_value b; swap; dsimp only [b]; swap)
    | (with_reducible apply hfn)
    | (intro b; refine (fun (hfn : ∀ x, Keeps z x → Keeps z (b x)) => ?_) ?_; clear_value b; swap; (intro x hx; dsimp only [b]); swap)
    | (intro b; refine (fun (hfn : ∀ x y, Keeps z x → Keeps z (b x y)) => ?_) ?_; clear_value b; swap; (intro x y hx; dsimp only [b]); swap)
    | (with_reducible apply hfc)
    | (with_reducible apply hfd)
    | (intro b; refine (fun (hfc : ∀ x, Keeps z (b x)) => ?_) ?_; clear_value b; swap; (intro x; dsimp only [b]); swap)
    | (intro b; refine (fun (hfd : ∀ x y, Keeps z (b x y)) => ?_) ?_; clear_value b; swap; (intro x y; dsimp only [b]); swap)
    | (intro b; clear_value b)
    | intro b
    | lift_lets
    | split
    | (refine keeps_of_eq (by assumption) ?_)
    | dsimp only

theorem deallocTimeout_keeps {id : Nat} (hz : Keeps z s) : Keeps z (deallocTimeout s id) := by
  unfold deallocTimeout
  repeat' first
    | with_reducible assumption
    | (with_reducible apply settlePressure_keeps)
    | (with_reducible apply updMap_keeps)
    | (with_reducible apply proceed_keeps)
    | (with_reducible apply modCmd_keeps)
    | (with_reducible apply keeps_ite)
    | (intro b; refine (fun (_ : Keeps z b) => ?_) ?_; clear_value b; swap; dsimp only [b]; swap)
    | (with_reducible apply hfn)
    | (intro b; refine (fun (hfn : ∀ x, Keeps z x → Keeps z (b x)) => ?_) ?_; clear_value b; swap; (intro x hx; dsimp only [b]); swap)
    | (intro b; refine (fun (hfn : ∀ x y, Keeps z x → Keeps z (b x y)) => ?_) ?_; clear_value b; swap; (intro x y hx; dsimp only [b]); swap)
    | (with_reducible apply hfc)
    | (with_reducible apply hfd)
    | (intro b; refine (fun (hfc : ∀ x, Keeps z (b x)) => ?_) ?_; clear_value b; swap; (intro x; dsimp only [b]); swap)
    | (intro b; refine (fun (hfd : ∀ x y, Keeps z (b x y)) => ?_) ?_; clear_value b; swap; (intro x y; dsimp only [b]); swap)
    | (intro b; clear_value b)
    | intro b
    | lift_lets
    | split
    | dsimp only

theorem bundleWaitEnd_keeps (hz : Keeps z s) : Keeps z (bundleWaitEnd s) := by
  unfold bundleWaitEnd
  repeat' first
    | with_reducible assumption
    | (with_reducible apply takeBundle_keeps)
    | (with_reducible apply updMap_keeps)
    | (with_reducible apply askNext_keeps)
    | (with_reducible apply proceed_keeps)
    | (with_reducible apply tryReloc_keeps)
    | (with_reducible apply keeps_ite)
    | (intro b; refine (fun (_ : Keeps z b) => ?_) ?_; clear_value b; swap; dsimp only [b]; swap)
    | (intro b; clear_value b)
    | intro b
    | lift_lets
    | split
    | dsimp only

theorem rebundle_keeps (hz : Keeps z s) : Keeps z (rebundle s) := by
  unfold rebundle
  repeat' first
    | with_reducible assumption
    | (with_reducible apply tryBundle_keeps)
    | (with_reducible apply waitBundle_keeps)
    | (with_reducible apply keeps_ite)
    | (with_reducible apply keeps_ite_fst)
    | (with_reducible refine keeps_foldl (fun x b hx => ?_) ?_)
    | (with_reducible refine keeps_foldl_fst (fun x b hx => ?_) ?_)
    | (intro b; refine (fun (_ : Keeps z b) => ?_) ?_; clear_value b; swap; dsimp only [b]; swap)
    | (intro b; refine (fun (_ : Keeps z b.1) => ?_) ?_; clear_value b; swap; dsimp only [b]; swap)
    | (intro b; clear_value b)
    | intro b
    | lift_lets
    | split
    | (refine keeps_of_eq (by assumption) ?_)
    | dsimp only

theorem fillwait_keeps {k : Nat} (hz : Keeps z s) : Keeps z (fillwait s k) := by
  unfold fillwait
  repeat' first
    | with_reducible assumption
    | (with_reducible apply turn_keeps)
    | (with_reducible apply packClose_keeps)

theorem heatHalving_keeps (hz : Keeps z s) : Keeps z (heatHalving s) := by
  unfold heatHalving
  repeat' first
    | with_reducible assumption
    | (with_reducible apply updTab_keeps)
    | (with_reducible apply keeps_ite)
    | (with_reducible apply keeps_ite_fst)
    | split

theorem nsNotify_keeps {nsid : Nat} {p : Port} (hz : Keeps z s) : Keeps z (nsNotify nsid s p) := by
  unfold nsNotify
  repeat' first
    | with_reducible assumption
    | (with_reducible apply modPort_keeps)
    | (with_reducible apply asyncEvent_keeps)
    | (with_reducible apply keeps_ite)
    | (intro b; refine (fun (_ : Keeps z b) => ?_) ?_; clear_value b; swap; dsimp only [b]; swap)
    | (intro b; clear_value b)
    | intro b
    | lift_lets
    | split
    | (fail_if_no_progress with_reducible refine keeps_upd ?_ rfl rfl rfl)

theorem nsChanged_keeps {nsid : Nat} {ports : List Port} (hz : Keeps z s) : Keeps z (nsChanged s nsid ports) := by
  unfold nsChanged
  repeat' first
    | with_reducible assumption
    | (with_reducible apply nsNotify_keeps)
    | (with_reducible refine keeps_foldl (fun x b hx => ?_) ?_)

theorem firmwareCmd_keeps {body : Instr} {q : Sqe} {applied : Nat} (hz : Keeps z s) : Keeps z (firmwareCmd s body q applied) := by
  unfold firmwareCmd
  repeat' first
    | with_reducible assumption
    | (with_reducible apply enterTracker_keeps)
    | (with_reducible apply keeps_ite)
    | split

theorem nsCreate_keeps {body : Instr} {q : Sqe} {nsze : Nat} {ncap : Nat} {lbaf : Nat} {piType : Nat} {pil : Bool} {ext : Bool} {entropyOk : Bool} (hz : Keeps z s) : Keeps z (nsCreate s body q nsze ncap lbaf piType pil ext entropyOk) := by
  unfold nsCreate
  repeat' first
    | with_reducible assumption
    | (with_reducible apply takeAdmin_keeps)
    | (with_reducible apply complete_keeps)
    | (with_reducible apply cryCauseSet_keeps)
    | (with_reducible apply makeKey_keeps)
    | (with_reducible apply askGroup_keeps)
    | (with_reducible apply firmwareCmd_keeps)
    | (with_reducible apply keeps_ite)
    | (with_reducible apply keeps_ite_fst)
    | (intro b; refine (fun (_ : Keeps z b) => ?_) ?_; clear_value b; swap; dsimp only [b]; swap)
    | (intro b; refine (fun (_ : Keeps z b.1) => ?_) ?_; clear_value b; swap; dsimp only [b]; swap)
    | (with_reducible apply hfn)
    | (intro b; refine (fun (hfn : ∀ x, Keeps z x → Keeps z (b x)) => ?_) ?_; clear_value b; swap; (intro x hx; dsimp only [b]); swap)
    | (intro b; refine (fun (hfn : ∀ x y, Keeps z x → Keeps z (b x y)) => ?_) ?_; clear_value b; swap; (intro x y hx; dsimp only [b]); swap)
    | (with_reducible apply hfc)
    | (with_reducible apply hfd)
    | (intro b; refine (fun (hfc : ∀ x, Keeps z (b x)) => ?_) ?_; clear_value b; swap; (intro x; dsimp only [b]); swap)
    | (intro b; refine (fun (hfd : ∀ x y, Keeps z (b x y)) => ?_) ?_; clear_value b; swap; (intro x y; dsimp only [b]); swap)
    | (intro b; clear_value b)
    | intro b
    | lift_lets
    | split
    | (refine keeps_of_eq (by assumption) ?_)
    | dsimp only

theorem wholeCmd_keeps {body : Instr} {q : Sqe} {ids : List Nat} (hz : Keeps z s) : Keeps z (wholeCmd s body q ids) := by
  unfold wholeCmd
  repeat' first
    | with_reducible assumption
    | (with_reducible apply enterTracker_keeps)
    | (with_reducible apply keeps_ite)
    | split

theorem nsDelete_keeps {body : Instr} {q : Sqe} (hz : Keeps z s) : Keeps z (nsDelete s body q) := by
  unfold nsDelete
  repeat' first
    | with_reducible assumption
    | (with_reducible apply takeFirm_keeps)
    | (with_reducible apply turnAway_keeps)
    | (with_reducible apply wholeCmd_keeps)
    | (with_reducible apply keeps_ite)
    | (intro b; refine (fun (_ : Keeps z b) => ?_) ?_; clear_value b; swap; dsimp only [b]; swap)
    | (intro b; clear_value b)
    | intro b
    | lift_lets
    | split
    | dsimp only

theorem releaseDelete_keeps {id : Nat} {c : Cmd} (hz : Keeps z s) : Keeps z (releaseDelete s id c) := by
  unfold releaseDelete
  repeat' first
    | with_reducible assumption
    | (with_reducible apply failCmd_keeps)
    | (with_reducible apply modCmd_keeps)
    | (with_reducible apply finishCmd_keeps)
    | (with_reducible apply askGroup_keeps)
    | (with_reducible apply keeps_ite)
    | (intro b; refine (fun (_ : Keeps z b) => ?_) ?_; clear_value b; swap; dsimp only [b]; swap)
    | (intro b; clear_value b)
    | intro b
    | lift_lets
    | split

theorem formatFetch_keeps {body : Instr} {q : Sqe} {lbaf : Nat} {ses : Nat} {piType : Nat} (hz : Keeps z s) : Keeps z (formatFetch s body q lbaf ses piType) := by
  unfold formatFetch
  repeat' first
    | with_reducible assumption
    | (with_reducible apply takeFirm_keeps)
    | (with_reducible apply turnAway_keeps)
    | (with_reducible apply wholeCmd_keeps)
    | (with_reducible apply keeps_ite)
    | (intro b; refine (fun (_ : Keeps z b) => ?_) ?_; clear_value b; swap; dsimp only [b]; swap)
    | (intro b; clear_value b)
    | intro b
    | lift_lets
    | split
    | dsimp only

theorem newKeys_keeps {ids : List Nat} (hz : Keeps z s) : Keeps z (newKeys s ids).1 := by
  unfold newKeys
  repeat' first
    | with_reducible assumption
    | (with_reducible apply makeKey_keeps)
    | (with_reducible apply anaAfter_keeps)
    | (with_reducible refine keeps_foldl (fun x b hx => ?_) ?_)
    | (with_reducible refine keeps_foldl_fst (fun x b hx => ?_) ?_)
    | (intro b; refine (fun (_ : Keeps z b) => ?_) ?_; clear_value b; swap; dsimp only [b]; swap)
    | (intro b; refine (fun (_ : Keeps z b.1) => ?_) ?_; clear_value b; swap; dsimp only [b]; swap)
    | (intro b; clear_value b)
    | intro b
    | lift_lets
    | split
    | (refine keeps_of_eq (by assumption) ?_)
    | dsimp only

theorem progWrite_keeps {f : Progress → Progress} (hz : Keeps z s) : Keeps z (progWrite s f) := by
  unfold progWrite
  repeat' first
    | with_reducible assumption
    | (intro b; refine (fun (_ : Keeps z b) => ?_) ?_; clear_value b; swap; dsimp only [b]; swap)
    | (with_reducible apply hf)
    | (intro b; clear_value b)
    | intro b
    | lift_lets
    | (fail_if_no_progress with_reducible refine keeps_upd ?_ rfl rfl rfl)

theorem formatStart_keeps {id : Nat} {c : Cmd} {lbaf : Nat} {ses : Nat} {piType : Nat} {pil : Bool} {mset : Bool} {entropyOk : Bool} (hz : Keeps z s) : Keeps z (formatStart s id c lbaf ses piType pil mset entropyOk) := by
  unfold formatStart
  repeat' first
    | with_reducible assumption
    | (with_reducible apply failCmd_keeps)
    | (with_reducible apply cryCauseSet_keeps)
    | (with_reducible apply finishCmd_keeps)
    | (with_reducible apply modCmd_keeps)
    | (with_reducible apply inProgressEnds_keeps)
    | (with_reducible apply newKeys_keeps)
    | (with_reducible apply progWrite_keeps)
    | (with_reducible apply askGroup_keeps)
    | (with_reducible apply keeps_ite)
    | (with_reducible apply keeps_ite_fst)
    | (intro b; refine (fun (_ : Keeps z b) => ?_) ?_; clear_value b; swap; dsimp only [b]; swap)
    | (intro b; refine (fun (_ : Keeps z b.1) => ?_) ?_; clear_value b; swap; dsimp only [b]; swap)
    | (intro b; clear_value b)
    | intro b
    | lift_lets
    | split
    | (refine keeps_of_eq (by assumption) ?_)
    | dsimp only

theorem dropDlo_keeps {ids : List Nat} (hz : Keeps z s) : Keeps z (dropDlo s ids) := by
  unfold dropDlo
  repeat' first
    | with_reducible assumption
    | (with_reducible apply updPat_keeps)

theorem segFill_keeps (hz : Keeps z s) : Keeps z (segFill s) := by
  unfold segFill
  repeat' first
    | with_reducible assumption
    | (with_reducible apply updMem_keeps)
    | (with_reducible apply trig54_keeps)
    | (with_reducible apply keeps_ite)
    | split

theorem oldSalts_keeps {ids : List Nat} (hz : Keeps z s) : Keeps z (oldSalts s ids) := by
  unfold oldSalts
  repeat' first
    | with_reducible assumption
    | (with_reducible apply newSalt_keeps)
    | (with_reducible refine keeps_foldl (fun x b hx => ?_) ?_)
    | split
    | dsimp only

theorem issueRound_keeps (hz : Keeps z s) : Keeps z (issueRound s) := by
  unfold issueRound
  repeat' first
    | with_reducible assumption
    | (with_reducible apply pump_keeps)
    | (with_reducible apply addOp_keeps)
    | (with_reducible apply keeps_ite)
    | (with_reducible refine keeps_foldl (fun x b hx => ?_) ?_)
    | (intro b; refine (fun (_ : Keeps z b) => ?_) ?_; clear_value b; swap; dsimp only [b]; swap)
    | (intro b; clear_value b)
    | intro b
    | lift_lets
    | split
    | (fail_if_no_progress with_reducible refine keeps_upd ?_ rfl rfl rfl)
    | dsimp only

theorem retryRound_keeps (hz : Keeps z s) : Keeps z (retryRound s) := by
  unfold retryRound
  repeat' first
    | with_reducible assumption
    | (with_reducible apply issueRound_keeps)
    | (with_reducible apply keeps_ite)
    | split

theorem sanFail_keeps (hz : Keeps z s) : Keeps z (sanFail s) := by
  unfold sanFail
  repeat' first
    | with_reducible assumption
    | (with_reducible apply failCmd_keeps)
    | (with_reducible apply progWrite_keeps)
    | (with_reducible apply keeps_ite)
    | (intro b; refine (fun (_ : Keeps z b) => ?_) ?_; clear_value b; swap; dsimp only [b]; swap)
    | (intro b; clear_value b)
    | intro b
    | lift_lets
    | split
    | (fail_if_no_progress with_reducible refine keeps_upd ?_ rfl rfl rfl)
    | dsimp only

theorem sanDone_keeps (hz : Keeps z s) : Keeps z (sanDone s) := by
  unfold sanDone
  repeat' first
    | with_reducible assumption
    | (with_reducible apply progWrite_keeps)

theorem doneGroup_keeps (hz : Keeps z s) : Keeps z (doneGroup s) := by
  unfold doneGroup
  repeat' first
    | with_reducible assumption
    | (with_reducible apply askGroup_keeps)
    | (with_reducible apply keeps_ite)
    | (intro b; refine (fun (_ : Keeps z b) => ?_) ?_; clear_value b; swap; dsimp only [b]; swap)
    | (intro b; clear_value b)
    | intro b
    | lift_lets
    | split
    | (fail_if_no_progress with_reducible refine keeps_upd ?_ rfl rfl rfl)

theorem recountDone_keeps (hz : Keeps z s) : Keeps z (recountDone s) := by
  unfold recountDone
  repeat' first
    | with_reducible assumption
    | (with_reducible apply updTab_keeps)
    | (with_reducible apply updMap_keeps)
    | (with_reducible apply makeErasable_keeps)
    | (with_reducible apply spaceUpdate_keeps)
    | (with_reducible apply pump_keeps)
    | (with_reducible apply victimsErasable_keeps)
    | (with_reducible apply oldSalts_keeps)
    | (with_reducible apply doneGroup_keeps)
    | (with_reducible apply issueRound_keeps)
    | (with_reducible apply progWrite_keeps)
    | (with_reducible apply sanDone_keeps)
    | (with_reducible apply keeps_ite)
    | (with_reducible apply keeps_ite_fst)
    | (with_reducible refine keeps_foldl (fun x b hx => ?_) ?_)
    | (with_reducible refine keeps_foldl_fst (fun x b hx => ?_) ?_)
    | (intro b; refine (fun (_ : Keeps z b) => ?_) ?_; clear_value b; swap; dsimp only [b]; swap)
    | (intro b; refine (fun (_ : Keeps z b.1) => ?_) ?_; clear_value b; swap; dsimp only [b]; swap)
    | (intro b; clear_value b)
    | intro b
    | lift_lets
    | split

theorem roundDone_keeps (hz : Keeps z s) : Keeps z (roundDone s) := by
  unfold roundDone
  repeat' first
    | with_reducible assumption
    | (with_reducible apply sanFail_keeps)
    | (with_reducible apply issueRound_keeps)
    | (with_reducible apply sanDone_keeps)
    | (with_reducible apply keeps_ite)
    | (intro b; refine (fun (_ : Keeps z b) => ?_) ?_; clear_value b; swap; dsimp only [b]; swap)
    | (intro b; clear_value b)
    | intro b
    | lift_lets
    | split
    | (fail_if_no_progress with_reducible refine keeps_upd ?_ rfl rfl rfl)

theorem sanProgress_keeps (hz : Keeps z s) : Keeps z (sanProgress s) := by
  unfold sanProgress
  repeat' first
    | with_reducible assumption
    | (with_reducible apply retryRound_keeps)
    | (with_reducible apply progWrite_keeps)
    | (with_reducible apply keeps_ite)
    | split

theorem sanitizeFetch_keeps {body : Instr} {q : Sqe} {ndas : Bool} (hz : Keeps z s) : Keeps z (sanitizeFetch s body q ndas) := by
  unfold sanitizeFetch
  repeat' first
    | with_reducible assumption
    | (with_reducible apply takeFirm_keeps)
    | (with_reducible apply turnAway_keeps)
    | (with_reducible apply wholeCmd_keeps)
    | (with_reducible apply keeps_ite)
    | (with_reducible apply keeps_ite_fst)
    | (intro b; refine (fun (_ : Keeps z b) => ?_) ?_; clear_value b; swap; dsimp only [b]; swap)
    | (intro b; refine (fun (_ : Keeps z b.1) => ?_) ?_; clear_value b; swap; dsimp only [b]; swap)
    | (intro b; clear_value b)
    | intro b
    | lift_lets
    | split
    | dsimp only

theorem sanitizeExit_keeps {q : Sqe} {ndas : Bool} (hz : Keeps z s) : Keeps z (sanitizeExit s q ndas) := by
  unfold sanitizeExit
  repeat' first
    | with_reducible assumption
    | (with_reducible apply takeAdmin_keeps)
    | (with_reducible apply complete_keeps)
    | (with_reducible apply keeps_ite)
    | (intro b; refine (fun (_ : Keeps z b) => ?_) ?_; clear_value b; swap; dsimp only [b]; swap)
    | (intro b; clear_value b)
    | intro b
    | lift_lets
    | split
    | (fail_if_no_progress with_reducible refine keeps_upd ?_ rfl rfl rfl)

theorem sanitizeKeys_keeps {action : Nat} {cmd : Option Nat} (hz : Keeps z s) : Keeps z (sanitizeKeys s action cmd) := by
  unfold sanitizeKeys
  repeat' first
    | with_reducible assumption
    | (with_reducible apply progWrite_keeps)
    | (with_reducible apply wrField_keeps)
    | (with_reducible apply jobAbort_keeps)
    | (with_reducible apply newKeys_keeps)
    | (with_reducible apply askGroup_keeps)
    | (intro b; refine (fun (_ : Keeps z b) => ?_) ?_; clear_value b; swap; dsimp only [b]; swap)
    | (intro b; refine (fun (_ : Keeps z b.1) => ?_) ?_; clear_value b; swap; dsimp only [b]; swap)
    | (intro b; clear_value b)
    | intro b
    | lift_lets
    | split
    | (refine keeps_of_eq (by assumption) ?_)
    | dsimp only

theorem sanitizeStart_keeps {id : Nat} {c : Cmd} {action : Nat} {entropyOk : Bool} (hz : Keeps z s) : Keeps z (sanitizeStart s id c action entropyOk) := by
  unfold sanitizeStart
  repeat' first
    | with_reducible assumption
    | (with_reducible apply failCmd_keeps)
    | (with_reducible apply cryCauseSet_keeps)
    | (with_reducible apply inProgressEnds_keeps)
    | (with_reducible apply sanitizeKeys_keeps)
    | (with_reducible apply modCmd_keeps)
    | (with_reducible apply keeps_ite)
    | split

theorem dropOpens_keeps (hz : Keeps z s) : Keeps z (dropOpens s) := by
  unfold dropOpens
  repeat' first
    | with_reducible assumption
    | (with_reducible apply updFlash_keeps)
    | (with_reducible apply updMap_keeps)
    | (with_reducible apply keeps_ite)
    | (with_reducible apply keeps_ite_fst)
    | (intro b; refine (fun (_ : Keeps z b) => ?_) ?_; clear_value b; swap; dsimp only [b]; swap)
    | (intro b; refine (fun (_ : Keeps z b.1) => ?_) ?_; clear_value b; swap; dsimp only [b]; swap)
    | (intro b; clear_value b)
    | intro b
    | lift_lets
    | split
    | dsimp only

theorem nsopDone_keeps {old : MapTab} {op : Nat} {ids : List Nat} (hz : Keeps z s) : Keeps z (nsopDone s old op ids) := by
  unfold nsopDone
  repeat' first
    | with_reducible assumption
    | (with_reducible apply dropDlo_keeps)
    | (with_reducible apply updCry_keeps)
    | (with_reducible apply newSalt_keeps)
    | (with_reducible apply modPort_keeps)
    | (with_reducible apply nsChanged_keeps)
    | (with_reducible apply segFill_keeps)
    | (with_reducible apply progWrite_keeps)
    | (with_reducible apply finishCmd_keeps)
    | (with_reducible apply dropOpens_keeps)
    | (with_reducible apply setActive_keeps)
    | (with_reducible apply wrField_keeps)
    | (with_reducible apply keeps_ite)
    | (with_reducible apply keeps_ite_fst)
    | (with_reducible refine keeps_foldl (fun x b hx => ?_) ?_)
    | (with_reducible refine keeps_foldl_fst (fun x b hx => ?_) ?_)
    | (intro b; refine (fun (_ : Keeps z b) => ?_) ?_; clear_value b; swap; dsimp only [b]; swap)
    | (intro b; refine (fun (_ : Keeps z b.1) => ?_) ?_; clear_value b; swap; dsimp only [b]; swap)
    | (with_reducible apply hfn)
    | (intro b; refine (fun (hfn : ∀ x, Keeps z x → Keeps z (b x)) => ?_) ?_; clear_value b; swap; (intro x hx; dsimp only [b]); swap)
    | (intro b; refine (fun (hfn : ∀ x y, Keeps z x → Keeps z (b x y)) => ?_) ?_; clear_value b; swap; (intro x y hx; dsimp only [b]); swap)
    | (with_reducible apply hfc)
    | (with_reducible apply hfd)
    | (intro b; refine (fun (hfc : ∀ x, Keeps z (b x)) => ?_) ?_; clear_value b; swap; (intro x; dsimp only [b]); swap)
    | (intro b; refine (fun (hfd : ∀ x y, Keeps z (b x y)) => ?_) ?_; clear_value b; swap; (intro x y; dsimp only [b]); swap)
    | (intro b; clear_value b)
    | intro b
    | lift_lets
    | split
    | (fail_if_no_progress with_reducible refine keeps_upd ?_ rfl rfl rfl)
    | dsimp only

theorem fillDoneAll_keeps (hz : Keeps z s) : Keeps z (fillDoneAll s) := by
  unfold fillDoneAll
  repeat' first
    | with_reducible assumption
    | (with_reducible apply zeroFillDone_keeps)
    | (with_reducible apply segFill_keeps)
    | (with_reducible apply keeps_ite)
    | (intro b; refine (fun (_ : Keeps z b) => ?_) ?_; clear_value b; swap; dsimp only [b]; swap)
    | (intro b; clear_value b)
    | intro b
    | lift_lets
    | split
    | (fail_if_no_progress with_reducible refine keeps_upd ?_ rfl rfl rfl)

theorem rootDone_keeps (hz : Keeps z s) : Keeps z (rootDone s) := by
  unfold rootDone
  repeat' first
    | with_reducible assumption
    | (with_reducible apply rootCommitDone_keeps)
    | (with_reducible apply doneGroup_keeps)
    | (with_reducible apply keeps_ite)
    | (intro b; refine (fun (_ : Keeps z b) => ?_) ?_; clear_value b; swap; dsimp only [b]; swap)
    | (intro b; clear_value b)
    | intro b
    | lift_lets
    | split

theorem releaseShed_keeps {id : Nat} {c : Cmd} {n : Ns} (hz : Keeps z s) : Keeps z (releaseShed s id c n) := by
  unfold releaseShed
  repeat' first
    | with_reducible assumption
    | (with_reducible apply capacityFail_keeps)
    | (with_reducible apply releaseDealloc_keeps)
    | (with_reducible apply keeps_ite)
    | (with_reducible refine keeps_foldl (fun x b hx => ?_) ?_)
    | (intro b; refine (fun (_ : Keeps z b) => ?_) ?_; clear_value b; swap; dsimp only [b]; swap)
    | (intro b; clear_value b)
    | intro b
    | lift_lets
    | split

theorem releaseShedFree_keeps {id : Nat} {letters : Nat} (hz : Keeps z s) : Keeps z (releaseShedFree s id letters) := by
  unfold releaseShedFree
  repeat' first
    | with_reducible assumption
    | (with_reducible apply failCmd_keeps)
    | (with_reducible apply askNext_keeps)
    | (with_reducible apply modCmd_keeps)
    | (with_reducible apply keeps_ite)
    | split

theorem writable_keeps {id : Nat} {c : Cmd} {f : State → State} (hz : Keeps z s) (hf : ∀ t, Keeps z t → Keeps z (f t)) : Keeps z (writable s id c f) := by
  unfold writable
  repeat' first
    | with_reducible assumption
    | (with_reducible apply failCmd_keeps)
    | (with_reducible apply keeps_ite)
    | (with_reducible apply hf)
    | split

theorem onNs_keeps {id : Nat} {c : Cmd} {f : Ns → State} (hz : Keeps z s) (hf : ∀ t, Keeps z (f t)) : Keeps z (onNs s id c f) := by
  unfold onNs
  repeat' first
    | with_reducible assumption
    | (with_reducible apply failCmd_keeps)
    | (with_reducible apply hf)
    | split
    | dsimp only

theorem releaseCmd_keeps {id : Nat} {c : Cmd} (hz : Keeps z s) : Keeps z (releaseCmd s id c) := by
  unfold releaseCmd
  repeat' first
    | with_reducible assumption
    | (with_reducible refine onNs_keeps ?_ (fun x => ?_))
    | (with_reducible refine writable_keeps ?_ (fun x hx => ?_))
    | (with_reducible apply releaseWrite_keeps)
    | (with_reducible apply lookup_keeps)
    | (with_reducible apply releaseDealloc_keeps)
    | (with_reducible apply releaseShed_keeps)
    | (with_reducible apply releaseShedFree_keeps)
    | (with_reducible apply releaseDelete_keeps)
    | (with_reducible apply formatStart_keeps)
    | (with_reducible apply sanitizeStart_keeps)
    | (with_reducible apply keeps_ite)
    | split
    | dsimp only

theorem release_keeps {id : Nat} {lines : List LineReq} (hz : Keeps z s) : Keeps z (release s id lines) := by
  unfold release
  repeat' first
    | with_reducible assumption
    | (with_reducible apply releaseCmd_keeps)
    | (with_reducible apply clientAccesses_keeps)
    | (with_reducible apply keeps_ite)
    | split
    | dsimp only

theorem relocApplied_keeps {id : Nat} {g : Group} (hz : Keeps z s) : Keeps z (relocApplied s id g) := by
  unfold relocApplied
  repeat' first
    | with_reducible assumption
    | (with_reducible apply modReloc_keeps)
    | (with_reducible apply refreshEnd_keeps)
    | (with_reducible apply dropHolder_keeps)
    | (with_reducible apply keeps_ite)
    | (intro b; refine (fun (_ : Keeps z b) => ?_) ?_; clear_value b; swap; dsimp only [b]; swap)
    | (intro b; clear_value b)
    | intro b
    | lift_lets
    | split
    | dsimp only

theorem sbApplied_keeps {x : Nat} {g : Group} (hz : Keeps z s) : Keeps z (sbApplied s x g) := by
  unfold sbApplied
  repeat' first
    | with_reducible assumption
    | (with_reducible apply updPat_keeps)
    | (with_reducible apply modOpen_keeps)
    | (with_reducible apply updMap_keeps)
    | (with_reducible apply modSb_keeps)
    | (with_reducible apply keeps_ite)
    | (with_reducible refine keeps_foldl (fun x b hx => ?_) ?_)
    | (intro b; refine (fun (_ : Keeps z b) => ?_) ?_; clear_value b; swap; dsimp only [b]; swap)
    | (intro b; clear_value b)
    | intro b
    | lift_lets
    | split
    | dsimp only

theorem cmdApplied_keeps {id : Nat} {c : Cmd} (hz : Keeps z s) : Keeps z (cmdApplied s id c) := by
  unfold cmdApplied
  repeat' first
    | with_reducible assumption
    | (with_reducible apply spaceUpdate_keeps)
    | (with_reducible apply finishCmd_keeps)
    | (intro b; refine (fun (_ : Keeps z b) => ?_) ?_; clear_value b; swap; dsimp only [b]; swap)
    | (intro b; clear_value b)
    | intro b
    | lift_lets
    | split
    | dsimp only

theorem ownerApplied_keeps {old : MapTab} {g : Group} (hz : Keeps z s) : Keeps z (ownerApplied s old g) := by
  unfold ownerApplied
  repeat' first
    | with_reducible assumption
    | (with_reducible apply modCmd_keeps)
    | (with_reducible apply cmdApplied_keeps)
    | (with_reducible apply askNext_keeps)
    | (with_reducible apply relocApplied_keeps)
    | (with_reducible apply deadApplied_keeps)
    | (with_reducible apply sbApplied_keeps)
    | (with_reducible apply keeps_ite)
    | (with_reducible apply keeps_ite_fst)
    | (intro b; refine (fun (_ : Keeps z b) => ?_) ?_; clear_value b; swap; dsimp only [b]; swap)
    | (intro b; refine (fun (_ : Keeps z b.1) => ?_) ?_; clear_value b; swap; dsimp only [b]; swap)
    | (with_reducible apply hfn)
    | (intro b; refine (fun (hfn : ∀ x, Keeps z x → Keeps z (b x)) => ?_) ?_; clear_value b; swap; (intro x hx; dsimp only [b]); swap)
    | (intro b; refine (fun (hfn : ∀ x y, Keeps z x → Keeps z (b x y)) => ?_) ?_; clear_value b; swap; (intro x y hx; dsimp only [b]); swap)
    | (with_reducible apply hfc)
    | (with_reducible apply hfd)
    | (intro b; refine (fun (hfc : ∀ x, Keeps z (b x)) => ?_) ?_; clear_value b; swap; (intro x; dsimp only [b]); swap)
    | (intro b; refine (fun (hfd : ∀ x y, Keeps z (b x y)) => ?_) ?_; clear_value b; swap; (intro x y; dsimp only [b]); swap)
    | (intro b; clear_value b)
    | intro b
    | lift_lets
    | split
    | (refine keeps_of_eq (by assumption) ?_)
    | (fail_if_no_progress with_reducible refine keeps_upd ?_ rfl rfl rfl)
    | dsimp only

theorem applyGroup_keeps {g : Group} (hz : Keeps z s) : Keeps z (applyGroup s g) := by
  unfold applyGroup
  repeat' first
    | with_reducible assumption
    | (with_reducible apply updTab_keeps)
    | (with_reducible apply updJrc_keeps)
    | (with_reducible apply updMap_keeps)
    | (with_reducible apply poolEvents_keeps)
    | (with_reducible apply nsopDone_keeps)
    | (with_reducible apply ownerApplied_keeps)
    | (intro b; refine (fun (_ : Keeps z b) => ?_) ?_; clear_value b; swap; dsimp only [b]; swap)
    | (intro b; clear_value b)
    | intro b
    | lift_lets
    | split
    | dsimp only

theorem drainApply_keeps (hz : Keeps z s) : Keeps z (drainApply s) := by
  unfold drainApply
  repeat' first
    | with_reducible assumption
    | (with_reducible apply applyGroup_keeps)
    | (with_reducible apply updJrc_keeps)
    | (with_reducible apply keeps_ite)
    | (with_reducible apply keeps_ite_fst)
    | (with_reducible refine keeps_foldl (fun x b hx => ?_) ?_)
    | (with_reducible refine keeps_foldl_fst (fun x b hx => ?_) ?_)
    | (intro b; refine (fun (_ : Keeps z b) => ?_) ?_; clear_value b; swap; dsimp only [b]; swap)
    | (intro b; refine (fun (_ : Keeps z b.1) => ?_) ?_; clear_value b; swap; dsimp only [b]; swap)
    | (intro b; clear_value b)
    | intro b
    | lift_lets
    | split
    | dsimp only

theorem afterApply_keeps (hz : Keeps z s) : Keeps z (afterApply s) := by
  unfold afterApply
  repeat' first
    | with_reducible assumption
    | (with_reducible apply proceedAll_keeps)
    | (with_reducible apply rebundle_keeps)
    | (with_reducible apply victimsErasable_keeps)
    | (with_reducible apply relocRetry_keeps)
    | (with_reducible apply tryReloc_keeps)
    | (with_reducible apply askAll_keeps)
    | (with_reducible apply reclaimPace_keeps)
    | (with_reducible apply spaceUpdate_keeps)
    | (with_reducible apply sweepsEnd_keeps)
    | (with_reducible apply turn_keeps)
    | (with_reducible refine keeps_foldl (fun x b hx => ?_) ?_)
    | (with_reducible refine keeps_foldl_fst (fun x b hx => ?_) ?_)
    | (intro b; refine (fun (_ : Keeps z b) => ?_) ?_; clear_value b; swap; dsimp only [b]; swap)
    | (intro b; refine (fun (_ : Keeps z b.1) => ?_) ?_; clear_value b; swap; dsimp only [b]; swap)
    | (intro b; clear_value b)
    | intro b
    | lift_lets

theorem commitAck_keeps {lines : List LineReq} (hz : Keeps z s) : Keeps z (commitAck s lines) := by
  unfold commitAck
  repeat' first
    | with_reducible assumption
    | (with_reducible apply updJrc_keeps)
    | (with_reducible apply afterApply_keeps)
    | (with_reducible apply drainApply_keeps)
    | (with_reducible apply clientAccesses_keeps)
    | (intro b; refine (fun (_ : Keeps z b) => ?_) ?_; clear_value b; swap; dsimp only [b]; swap)
    | (intro b; clear_value b)
    | intro b
    | lift_lets
    | split
    | dsimp only

theorem abortDone_keeps {q : Sqe} {sqid : Nat} {tcid : Nat} {hit : Bool} (hz : Keeps z s) : Keeps z (abortDone s q sqid tcid hit) := by
  unfold abortDone
  repeat' first
    | with_reducible assumption
    | (with_reducible apply modPort_keeps)
    | (with_reducible apply complete_keeps)
    | (with_reducible apply keeps_ite)
    | (intro b; refine (fun (_ : Keeps z b) => ?_) ?_; clear_value b; swap; dsimp only [b]; swap)
    | (intro b; clear_value b)
    | intro b
    | lift_lets
    | split
    | (fail_if_no_progress with_reducible refine keeps_upd ?_ rfl rfl rfl)
    | dsimp only

theorem abortCmd_keeps {q : Sqe} {sqid : Nat} {tcid : Nat} (hz : Keeps z s) : Keeps z (abortCmd s q sqid tcid) := by
  unfold abortCmd
  repeat' first
    | with_reducible assumption
    | (with_reducible apply takeAdmin_keeps)
    | (with_reducible apply complete_keeps)
    | (with_reducible apply failCmd_keeps)
    | (with_reducible apply endCmd_keeps)
    | (with_reducible apply satAdd_keeps)
    | (with_reducible apply abortDone_keeps)
    | (with_reducible apply raise_keeps)
    | (with_reducible apply keeps_ite)
    | (intro b; refine (fun (_ : Keeps z b) => ?_) ?_; clear_value b; swap; dsimp only [b]; swap)
    | (intro b; clear_value b)
    | intro b
    | lift_lets
    | split
    | dsimp only

theorem trackerFault_keeps (hz : Keeps z s) : Keeps z (trackerFault s) := by
  unfold trackerFault
  repeat' first
    | with_reducible assumption
    | (with_reducible apply raise_keeps)
    | (with_reducible apply orReg_keeps)
    | (with_reducible apply updSrt_keeps)
    | (with_reducible apply endCmd_keeps)
    | (with_reducible apply keeps_ite)
    | (with_reducible apply keeps_ite_fst)
    | (with_reducible refine keeps_foldl (fun x b hx => ?_) ?_)
    | (with_reducible refine keeps_foldl_fst (fun x b hx => ?_) ?_)
    | (intro b; refine (fun (_ : Keeps z b) => ?_) ?_; clear_value b; swap; dsimp only [b]; swap)
    | (intro b; refine (fun (_ : Keeps z b.1) => ?_) ?_; clear_value b; swap; dsimp only [b]; swap)
    | (intro b; clear_value b)
    | intro b
    | lift_lets
    | split

theorem trackerReinit_keeps (hz : Keeps z s) : Keeps z (trackerReinit s) := by
  unfold trackerReinit
  repeat' first
    | with_reducible assumption
    | (with_reducible apply wrField_keeps)
    | (with_reducible apply updSrt_keeps)
    | (with_reducible apply keeps_ite)
    | split

theorem waitlim_keeps {id : Nat} (hz : Keeps z s) : Keeps z (waitlim s id) := by
  unfold waitlim
  repeat' first
    | with_reducible assumption
    | (with_reducible apply raise_keeps)
    | (with_reducible apply satAdd_keeps)
    | (with_reducible apply keeps_ite)
    | split
    | dsimp only

theorem hwmClear_keeps (hz : Keeps z s) : Keeps z (hwmClear s) := by
  unfold hwmClear
  repeat' first
    | with_reducible assumption
    | (with_reducible apply wr_keeps)

theorem afterFlash_keeps (hz : Keeps z s) : Keeps z (afterFlash s) := by
  unfold afterFlash
  repeat' first
    | with_reducible assumption
    | (with_reducible apply ckptStep_keeps)
    | (with_reducible apply askAll_keeps)
    | (with_reducible apply turn_keeps)
    | (with_reducible apply retryRound_keeps)
    | (with_reducible apply settlePins_keeps)
    | (with_reducible apply tryReloc_keeps)
    | (with_reducible refine keeps_foldl (fun x b hx => ?_) ?_)
    | (with_reducible refine keeps_foldl_fst (fun x b hx => ?_) ?_)
    | (intro b; refine (fun (_ : Keeps z b) => ?_) ?_; clear_value b; swap; dsimp only [b]; swap)
    | (intro b; refine (fun (_ : Keeps z b.1) => ?_) ?_; clear_value b; swap; dsimp only [b]; swap)
    | (intro b; clear_value b)
    | intro b
    | lift_lets

theorem eraseLost_keeps {id : Nat} {o : FOp} (hz : Keeps z s) : Keeps z (eraseLost s id o) := by
  unfold eraseLost
  repeat' first
    | with_reducible assumption
    | (with_reducible apply dropOp_keeps)
    | (with_reducible apply noteEnded_keeps)
    | (intro b; refine (fun (_ : Keeps z b) => ?_) ?_; clear_value b; swap; dsimp only [b]; swap)
    | (intro b; clear_value b)
    | intro b
    | lift_lets
    | split
    | dsimp only

theorem faultLun_keeps {c : Nat} {p : Nat} (hz : Keeps z s) : Keeps z (faultLun s c p) := by
  unfold faultLun
  repeat' first
    | with_reducible assumption
    | (with_reducible apply orReg_keeps)
    | (with_reducible apply failPrograms_keeps)
    | (with_reducible apply endLun_keeps)
    | (with_reducible apply spaceUpdate_keeps)
    | (with_reducible apply busFault_keeps)
    | (with_reducible apply dropOp_keeps)
    | (with_reducible apply eraseLost_keeps)
    | (with_reducible refine keeps_foldl (fun x b hx => ?_) ?_)
    | (with_reducible refine keeps_foldl_fst (fun x b hx => ?_) ?_)
    | (intro b; refine (fun (_ : Keeps z b) => ?_) ?_; clear_value b; swap; dsimp only [b]; swap)
    | (intro b; refine (fun (_ : Keeps z b.1) => ?_) ?_; clear_value b; swap; dsimp only [b]; swap)
    | (intro b; clear_value b)
    | intro b
    | lift_lets
    | split
    | dsimp only

theorem programComplete_keeps {id : Nat} {ok : Bool} (hz : Keeps z s) : Keeps z (programComplete s id ok) := by
  unfold programComplete
  repeat' first
    | with_reducible assumption
    | (with_reducible apply afterFlash_keeps)
    | (with_reducible apply programEnd_keeps)
    | (with_reducible apply busDone_keeps)
    | (with_reducible apply reclaimPace_keeps)
    | (with_reducible apply earn_keeps)
    | (with_reducible apply keeps_ite)
    | (intro b; refine (fun (_ : Keeps z b) => ?_) ?_; clear_value b; swap; dsimp only [b]; swap)
    | (intro b; clear_value b)
    | intro b
    | lift_lets
    | split
    | dsimp only

theorem eraseFailed_keeps {id : Nat} {o : FOp} {cause : Nat} (hz : Keeps z s) : Keeps z (eraseFailed s id o cause) := by
  unfold eraseFailed
  repeat' first
    | with_reducible assumption
    | (with_reducible apply chnCauseSet_keeps)
    | (with_reducible apply satAdd_keeps)
    | (with_reducible apply dropOp_keeps)
    | (with_reducible apply growBad_keeps)
    | (with_reducible apply noteEnded_keeps)
    | (with_reducible apply keeps_ite)
    | (intro b; refine (fun (_ : Keeps z b) => ?_) ?_; clear_value b; swap; dsimp only [b]; swap)
    | (intro b; clear_value b)
    | intro b
    | lift_lets
    | split
    | (fail_if_no_progress with_reducible refine keeps_upd ?_ rfl rfl rfl)
    | dsimp only

theorem wipeBlock_keeps {lun : Nat} {block : Nat} (hz : Keeps z s) : Keeps z (wipeBlock s lun block) := by
  unfold wipeBlock
  repeat' first
    | with_reducible assumption
    | (with_reducible apply updFlash_keeps)

theorem erased_keeps {o : FOp} (hz : Keeps z s) : Keeps z (erased s o) := by
  unfold erased
  repeat' first
    | with_reducible assumption
    | (with_reducible apply wipeBlock_keeps)
    | (with_reducible apply updTab_keeps)
    | (with_reducible apply noteEnded_keeps)
    | (with_reducible apply modSb_keeps)
    | (with_reducible apply keeps_ite)
    | (with_reducible apply keeps_ite_fst)
    | (intro b; refine (fun (_ : Keeps z b) => ?_) ?_; clear_value b; swap; dsimp only [b]; swap)
    | (intro b; refine (fun (_ : Keeps z b.1) => ?_) ?_; clear_value b; swap; dsimp only [b]; swap)
    | (intro b; clear_value b)
    | intro b
    | lift_lets
    | split
    | dsimp only

theorem eraseComplete_keeps {lun : Nat} {block : Nat} {ok : Bool} (hz : Keeps z s) : Keeps z (eraseComplete s lun block ok) := by
  unfold eraseComplete
  repeat' first
    | with_reducible assumption
    | (with_reducible apply spaceUpdate_keeps)
    | (with_reducible apply afterFlash_keeps)
    | (with_reducible apply erased_keeps)
    | (with_reducible apply dropOp_keeps)
    | (with_reducible apply pump_keeps)
    | (with_reducible apply modOp_keeps)
    | (with_reducible apply eraseFailed_keeps)
    | (with_reducible apply keeps_ite)
    | split
    | (fail_if_no_progress with_reducible refine keeps_upd ?_ rfl rfl rfl)
    | dsimp only

theorem suspend_keeps {id : Nat} {k : FKind} (hz : Keeps z s) : Keeps z (suspend s id k) := by
  unfold suspend
  repeat' first
    | with_reducible assumption
    | (with_reducible apply busDone_keeps)
    | (with_reducible apply pump_keeps)
    | (with_reducible apply modOp_keeps)
    | (with_reducible apply keeps_ite)
    | (intro b; refine (fun (_ : Keeps z b) => ?_) ?_; clear_value b; swap; dsimp only [b]; swap)
    | (intro b; clear_value b)
    | intro b
    | lift_lets
    | split
    | (fail_if_no_progress with_reducible refine keeps_upd ?_ rfl rfl rfl)
    | dsimp only

theorem suspendResume_keeps {id : Nat} {dwell : Bool} (hz : Keeps z s) : Keeps z (suspendResume s id dwell) := by
  unfold suspendResume
  repeat' first
    | with_reducible assumption
    | (with_reducible apply pump_keeps)
    | (with_reducible apply askResume_keeps)
    | (with_reducible apply keeps_ite)
    | (intro b; refine (fun (_ : Keeps z b) => ?_) ?_; clear_value b; swap; dsimp only [b]; swap)
    | (intro b; clear_value b)
    | intro b
    | lift_lets
    | split
    | dsimp only

theorem rdIAge_keeps {id : Nat} (hz : Keeps z s) : Keeps z (rdIAge s id) := by
  unfold rdIAge
  repeat' first
    | with_reducible assumption
    | (with_reducible apply pump_keeps)
    | (with_reducible apply modOp_keeps)
    | (with_reducible apply keeps_ite)
    | split
    | (fail_if_no_progress with_reducible refine keeps_upd ?_ rfl rfl rfl)
    | dsimp only

theorem lunTimeout_keeps {id : Nat} {recent : Bool} (hz : Keeps z s) : Keeps z (lunTimeout s id recent) := by
  unfold lunTimeout
  repeat' first
    | with_reducible assumption
    | (with_reducible apply modCourier_keeps)
    | (with_reducible apply busDone_keeps)
    | (with_reducible apply chnCausesSet_keeps)
    | (with_reducible apply programEnd_keeps)
    | (with_reducible apply growBad_keeps)
    | (with_reducible apply eraseFailed_keeps)
    | (with_reducible apply modOp_keeps)
    | (with_reducible apply busFault_keeps)
    | (with_reducible apply dropOp_keeps)
    | (with_reducible apply faultLun_keeps)
    | (with_reducible apply afterFlash_keeps)
    | (with_reducible apply keeps_ite)
    | (with_reducible apply keeps_ite_fst)
    | (with_reducible refine keeps_foldl (fun x b hx => ?_) ?_)
    | (with_reducible refine keeps_foldl_fst (fun x b hx => ?_) ?_)
    | (intro b; refine (fun (_ : Keeps z b) => ?_) ?_; clear_value b; swap; dsimp only [b]; swap)
    | (intro b; refine (fun (_ : Keeps z b.1) => ?_) ?_; clear_value b; swap; dsimp only [b]; swap)
    | (intro b; clear_value b)
    | intro b
    | lift_lets
    | split
    | (fail_if_no_progress with_reducible refine keeps_upd ?_ rfl rfl rfl)
    | dsimp only

theorem trainBegin_keeps {c : Nat} {w : Nat} (hz : Keeps z s) : Keeps z (trainBegin s c w) := by
  unfold trainBegin
  repeat' first
    | with_reducible assumption
    | (with_reducible apply trig54_keeps)
    | (with_reducible apply modCourier_keeps)
    | (with_reducible apply keeps_ite)
    | (intro b; refine (fun (_ : Keeps z b) => ?_) ?_; clear_value b; swap; dsimp only [b]; swap)
    | (intro b; clear_value b)
    | intro b
    | lift_lets
    | split
    | (fail_if_no_progress with_reducible refine keeps_upd ?_ rfl rfl rfl)

theorem train_keeps {c : Nat} {w : Nat} (hz : Keeps z s) : Keeps z (train s c w) := by
  unfold train
  repeat' first
    | with_reducible assumption
    | (with_reducible apply trig54_keeps)
    | (with_reducible apply trainBegin_keeps)
    | (with_reducible apply modCourier_keeps)
    | (with_reducible apply keeps_ite)
    | (intro b; refine (fun (_ : Keeps z b) => ?_) ?_; clear_value b; swap; dsimp only [b]; swap)
    | (with_reducible apply hfn)
    | (intro b; refine (fun (hfn : ∀ x, Keeps z x → Keeps z (b x)) => ?_) ?_; clear_value b; swap; (intro x hx; dsimp only [b]); swap)
    | (intro b; refine (fun (hfn : ∀ x y, Keeps z x → Keeps z (b x y)) => ?_) ?_; clear_value b; swap; (intro x y hx; dsimp only [b]); swap)
    | (with_reducible apply hfc)
    | (with_reducible apply hfd)
    | (intro b; refine (fun (hfc : ∀ x, Keeps z (b x)) => ?_) ?_; clear_value b; swap; (intro x; dsimp only [b]); swap)
    | (intro b; refine (fun (hfd : ∀ x y, Keeps z (b x y)) => ?_) ?_; clear_value b; swap; (intro x y; dsimp only [b]); swap)
    | (intro b; clear_value b)
    | intro b
    | lift_lets
    | split
    | (fail_if_no_progress with_reducible refine keeps_upd ?_ rfl rfl rfl)

theorem trainNext_keeps {d : Nat} (hz : Keeps z s) : Keeps z (trainNext s d) := by
  unfold trainNext
  repeat' first
    | with_reducible assumption
    | (with_reducible apply trainBegin_keeps)
    | (with_reducible apply keeps_ite)
    | split
    | dsimp only

theorem trainStart_keeps {c : Nat} (hz : Keeps z s) : Keeps z (trainStart s c) := by
  unfold trainStart
  repeat' first
    | with_reducible assumption
    | (with_reducible apply train_keeps)

theorem bandTrain_keeps (hz : Keeps z s) : Keeps z (bandTrain s) := by
  unfold bandTrain
  repeat' first
    | with_reducible assumption
    | (with_reducible apply train_keeps)
    | (with_reducible apply keeps_ite)
    | (with_reducible refine keeps_foldl (fun x b hx => ?_) ?_)
    | split

theorem trainEnabled_keeps {c : Nat} (hz : Keeps z s) : Keeps z (trainEnabled s c) := by
  unfold trainEnabled
  repeat' first
    | with_reducible assumption
    | (with_reducible apply train_keeps)
    | (with_reducible apply keeps_ite)
    | (intro b; refine (fun (_ : Keeps z b) => ?_) ?_; clear_value b; swap; dsimp only [b]; swap)
    | (intro b; clear_value b)
    | intro b
    | lift_lets
    | split

theorem trainEnd_keeps {c : Nat} {kind : Nat} {eyes : List (Nat × Nat)} {failed : List Nat} (hz : Keeps z s) : Keeps z (trainEnd s c kind eyes failed) := by
  unfold trainEnd
  repeat' first
    | with_reducible assumption
    | (with_reducible apply wr_keeps)
    | (with_reducible apply modCourier_keeps)
    | (with_reducible apply chnCausesSet_keeps)
    | (with_reducible apply faultLun_keeps)
    | (with_reducible apply keeps_ite)
    | (with_reducible apply keeps_ite_fst)
    | (with_reducible refine keeps_foldl (fun x b hx => ?_) ?_)
    | (with_reducible refine keeps_foldl_fst (fun x b hx => ?_) ?_)
    | (intro b; refine (fun (_ : Keeps z b) => ?_) ?_; clear_value b; swap; dsimp only [b]; swap)
    | (intro b; refine (fun (_ : Keeps z b.1) => ?_) ?_; clear_value b; swap; dsimp only [b]; swap)
    | (intro b; clear_value b)
    | intro b
    | lift_lets
    | split
    | (fail_if_no_progress with_reducible refine keeps_upd ?_ rfl rfl rfl)
    | dsimp only

theorem trainingDone_keeps {c : Nat} {eyes : List (Nat × Nat)} {failed : List Nat} (hz : Keeps z s) : Keeps z (trainingDone s c eyes failed) := by
  unfold trainingDone
  repeat' first
    | with_reducible assumption
    | (with_reducible apply modCourier_keeps)
    | (with_reducible apply afterFlash_keeps)
    | (with_reducible apply trainNext_keeps)
    | (with_reducible apply trainEnd_keeps)
    | (with_reducible apply keeps_ite)
    | (with_reducible apply keeps_ite_fst)
    | split
    | (fail_if_no_progress with_reducible refine keeps_upd ?_ rfl rfl rfl)
    | dsimp only

theorem courierReset_keeps {c : Nat} (hz : Keeps z s) : Keeps z (courierReset s c) := by
  unfold courierReset
  repeat' first
    | with_reducible assumption
    | (with_reducible apply updChip_keeps)
    | (with_reducible apply modCourier_keeps)
    | (with_reducible apply wr_keeps)
    | (with_reducible apply programEnd_keeps)
    | (with_reducible apply modOp_keeps)
    | (with_reducible apply trainNext_keeps)
    | (with_reducible apply keeps_ite)
    | (with_reducible apply keeps_ite_fst)
    | (with_reducible refine keeps_foldl (fun x b hx => ?_) ?_)
    | (with_reducible refine keeps_foldl_fst (fun x b hx => ?_) ?_)
    | (intro b; refine (fun (_ : Keeps z b) => ?_) ?_; clear_value b; swap; dsimp only [b]; swap)
    | (intro b; refine (fun (_ : Keeps z b.1) => ?_) ?_; clear_value b; swap; dsimp only [b]; swap)
    | (intro b; clear_value b)
    | intro b
    | lift_lets
    | split
    | (fail_if_no_progress with_reducible refine keeps_upd ?_ rfl rfl rfl)
    | dsimp only

theorem reissueErases_keeps {lun : Nat} (hz : Keeps z s) : Keeps z (reissueErases s lun) := by
  unfold reissueErases
  repeat' first
    | with_reducible assumption
    | (with_reducible apply addOp_keeps)
    | (with_reducible apply keeps_ite)
    | (with_reducible apply keeps_ite_fst)
    | (with_reducible refine keeps_foldl (fun x b hx => ?_) ?_)
    | (with_reducible refine keeps_foldl_fst (fun x b hx => ?_) ?_)
    | (intro b; refine (fun (_ : Keeps z b) => ?_) ?_; clear_value b; swap; dsimp only [b]; swap)
    | (intro b; refine (fun (_ : Keeps z b.1) => ?_) ?_; clear_value b; swap; dsimp only [b]; swap)
    | (intro b; clear_value b)
    | intro b
    | lift_lets
    | split

theorem identify1_keeps {answers : List (Nat × Bool)} {c : Nat} {p : Nat} (hz : Keeps z s) : Keeps z (identify1 answers c s p) := by
  unfold identify1
  repeat' first
    | with_reducible assumption
    | (with_reducible apply orReg_keeps)
    | (with_reducible apply updFlash_keeps)
    | (with_reducible apply chnCauseSet_keeps)
    | (with_reducible apply keeps_ite)
    | (with_reducible apply keeps_ite_fst)
    | (intro b; refine (fun (_ : Keeps z b) => ?_) ?_; clear_value b; swap; dsimp only [b]; swap)
    | (intro b; refine (fun (_ : Keeps z b.1) => ?_) ?_; clear_value b; swap; dsimp only [b]; swap)
    | (intro b; clear_value b)
    | intro b
    | lift_lets
    | split
    | dsimp only

theorem courierResetDone_keeps {c : Nat} {answers : List (Nat × Bool)} {eyes : List (Nat × Nat)} {failedCe : List Nat} {verified : Bool} (hz : Keeps z s) : Keeps z (courierResetDone s c answers eyes failedCe verified) := by
  unfold courierResetDone
  repeat' first
    | with_reducible assumption
    | (with_reducible apply identify1_keeps)
    | (with_reducible apply wr_keeps)
    | (with_reducible apply modCourier_keeps)
    | (with_reducible apply trig54_keeps)
    | (with_reducible apply trainEnd_keeps)
    | (with_reducible apply updChip_keeps)
    | (with_reducible apply setActive_keeps)
    | (with_reducible apply reissueErases_keeps)
    | (with_reducible apply faultLun_keeps)
    | (with_reducible apply afterFlash_keeps)
    | (with_reducible apply chnCauseSet_keeps)
    | (with_reducible apply keeps_ite)
    | (with_reducible apply keeps_ite_fst)
    | (with_reducible refine keeps_foldl (fun x b hx => ?_) ?_)
    | (with_reducible refine keeps_foldl_fst (fun x b hx => ?_) ?_)
    | (intro b; refine (fun (_ : Keeps z b) => ?_) ?_; clear_value b; swap; dsimp only [b]; swap)
    | (intro b; refine (fun (_ : Keeps z b.1) => ?_) ?_; clear_value b; swap; dsimp only [b]; swap)
    | (intro b; clear_value b)
    | intro b
    | lift_lets
    | split
    | (fail_if_no_progress with_reducible refine keeps_upd ?_ rfl rfl rfl)

theorem snapCmd_keeps {c : Nat} {v : Nat} (hz : Keeps z s) : Keeps z (snapCmd s c v) := by
  unfold snapCmd
  repeat' first
    | with_reducible assumption
    | (with_reducible apply modCourier_keeps)
    | (with_reducible apply snapCapture_keeps)
    | (with_reducible apply keeps_ite)
    | (intro b; refine (fun (_ : Keeps z b) => ?_) ?_; clear_value b; swap; dsimp only [b]; swap)
    | (intro b; clear_value b)
    | intro b
    | lift_lets
    | split
    | (fail_if_no_progress with_reducible refine keeps_upd ?_ rfl rfl rfl)

theorem lifeTick_keeps (hz : Keeps z s) : Keeps z (lifeTick s) := by
  unfold lifeTick
  repeat' first
    | with_reducible assumption
    | (with_reducible apply updMap_keeps)
    | (with_reducible apply keeps_ite)
    | split

theorem catchup_keeps (hz : Keeps z s) : Keeps z (catchup s) := by
  unfold catchup
  repeat' first
    | with_reducible assumption
    | (with_reducible apply setCause_keeps)
    | (with_reducible apply orReg_keeps)
    | (with_reducible apply wrField_keeps)
    | (with_reducible apply keeps_ite)
    | (with_reducible apply keeps_ite_fst)
    | (intro b; refine (fun (_ : Keeps z b) => ?_) ?_; clear_value b; swap; dsimp only [b]; swap)
    | (intro b; refine (fun (_ : Keeps z b.1) => ?_) ?_; clear_value b; swap; dsimp only [b]; swap)
    | (intro b; clear_value b)
    | intro b
    | lift_lets
    | split

theorem choose_keeps (hz : Keeps z s) : Keeps z (choose s) := by
  unfold choose
  repeat' first
    | with_reducible assumption
    | (with_reducible apply catchup_keeps)
    | (with_reducible apply updPat_keeps)
    | (with_reducible apply keeps_ite)
    | (with_reducible apply keeps_ite_fst)
    | (with_reducible refine keeps_foldl (fun x b hx => ?_) ?_)
    | (with_reducible refine keeps_foldl_fst (fun x b hx => ?_) ?_)
    | (intro b; refine (fun (_ : Keeps z b) => ?_) ?_; clear_value b; swap; dsimp only [b]; swap)
    | (intro b; refine (fun (_ : Keeps z b.1) => ?_) ?_; clear_value b; swap; dsimp only [b]; swap)
    | (intro b; clear_value b)
    | intro b
    | lift_lets
    | split
    | dsimp only

theorem endVisit_keeps {x : Nat} (hz : Keeps z s) : Keeps z (endVisit s x) := by
  unfold endVisit
  repeat' first
    | with_reducible assumption
    | (with_reducible apply choose_keeps)
    | (with_reducible apply updPat_keeps)

theorem visitOver_keeps (hz : Keeps z s) : Keeps z (visitOver s) := by
  unfold visitOver
  repeat' first
    | with_reducible assumption
    | (with_reducible apply endVisit_keeps)
    | (with_reducible apply keeps_ite)
    | split
    | dsimp only

theorem patIssue_keeps (hz : Keeps z s) : Keeps z (patIssue s) := by
  unfold patIssue
  repeat' first
    | with_reducible assumption
    | (with_reducible apply visitOver_keeps)
    | (with_reducible apply updPat_keeps)
    | (with_reducible apply pin_keeps)
    | (with_reducible apply pump_keeps)
    | (with_reducible apply addReads_keeps)
    | (with_reducible apply keeps_ite)
    | (intro b; refine (fun (_ : Keeps z b) => ?_) ?_; clear_value b; swap; dsimp only [b]; swap)
    | (intro b; clear_value b)
    | intro b
    | lift_lets
    | split
    | dsimp only

theorem patGo_keeps (hz : Keeps z s) : Keeps z (patGo s) := by
  unfold patGo
  repeat' first
    | with_reducible assumption
    | (with_reducible apply patIssue_keeps)
    | (with_reducible apply keeps_ite)
    | split

theorem rescan_keeps (hz : Keeps z s) : Keeps z (rescan s) := by
  unfold rescan
  repeat' first
    | with_reducible assumption
    | (with_reducible apply patGo_keeps)
    | (with_reducible apply choose_keeps)
    | (with_reducible apply visitOver_keeps)

theorem floorPace_keeps (hz : Keeps z s) : Keeps z (floorPace s) := by
  unfold floorPace
  repeat' first
    | with_reducible assumption
    | (with_reducible apply patIssue_keeps)
    | (with_reducible apply keeps_ite)
    | split

theorem tageTick_keeps (hz : Keeps z s) : Keeps z (tageTick s) := by
  unfold tageTick
  repeat' first
    | with_reducible assumption
    | (with_reducible apply patGo_keeps)
    | (with_reducible apply catchup_keeps)
    | (with_reducible apply updPat_keeps)
    | (with_reducible apply keeps_ite)
    | (intro b; refine (fun (_ : Keeps z b) => ?_) ?_; clear_value b; swap; dsimp only [b]; swap)
    | (intro b; clear_value b)
    | intro b
    | lift_lets
    | split

theorem refreshPages_keeps {ps : List Nat} (hz : Keeps z s) : Keeps z (refreshPages s ps) := by
  unfold refreshPages
  repeat' first
    | with_reducible assumption
    | (with_reducible apply refreshAdd_keeps)
    | (with_reducible refine keeps_foldl (fun x b hx => ?_) ?_)

theorem verdict_keeps {b : Sb} {c : PatRead} (hz : Keeps z s) : Keeps z (verdict s b c) := by
  unfold verdict
  repeat' first
    | with_reducible assumption
    | (with_reducible apply satAdd_keeps)
    | (with_reducible apply setCause_keeps)
    | (with_reducible apply refreshPages_keeps)
    | (with_reducible apply keeps_ite)
    | (intro b; refine (fun (_ : Keeps z b) => ?_) ?_; clear_value b; swap; dsimp only [b]; swap)
    | (with_reducible apply hfn)
    | (intro b; refine (fun (hfn : ∀ x, Keeps z x → Keeps z (b x)) => ?_) ?_; clear_value b; swap; (intro x hx; dsimp only [b]); swap)
    | (intro b; refine (fun (hfn : ∀ x y, Keeps z x → Keeps z (b x y)) => ?_) ?_; clear_value b; swap; (intro x y hx; dsimp only [b]); swap)
    | (with_reducible apply hfc)
    | (with_reducible apply hfd)
    | (intro b; refine (fun (hfc : ∀ x, Keeps z (b x)) => ?_) ?_; clear_value b; swap; (intro x; dsimp only [b]); swap)
    | (intro b; refine (fun (hfd : ∀ x y, Keeps z (b x y)) => ?_) ?_; clear_value b; swap; (intro x y; dsimp only [b]); swap)
    | (intro b; clear_value b)
    | intro b
    | lift_lets
    | split

theorem visitStep_keeps {c : PatRead} {b : Sb} (hz : Keeps z s) : Keeps z (visitStep s c b) := by
  unfold visitStep
  repeat' first
    | with_reducible assumption
    | (with_reducible apply updPat_keeps)
    | (with_reducible apply endVisit_keeps)
    | (with_reducible apply keeps_ite)
    | (with_reducible apply keeps_ite_fst)
    | (intro b; refine (fun (_ : Keeps z b) => ?_) ?_; clear_value b; swap; dsimp only [b]; swap)
    | (intro b; refine (fun (_ : Keeps z b.1) => ?_) ?_; clear_value b; swap; dsimp only [b]; swap)
    | (intro b; clear_value b)
    | intro b
    | lift_lets
    | split
    | dsimp only

theorem patrolReadDone_keeps {x : Nat} {m : Nat} {r : Nat} {found : Nat × Nat × Nat × List Nat} (hz : Keeps z s) : Keeps z (patrolReadDone s x m r found) := by
  unfold patrolReadDone
  repeat' first
    | with_reducible assumption
    | (with_reducible apply unpin_keeps)
    | (with_reducible apply updPat_keeps)
    | (with_reducible apply setCause_keeps)
    | (with_reducible apply verdict_keeps)
    | (with_reducible apply patGo_keeps)
    | (with_reducible apply visitStep_keeps)
    | (with_reducible apply keeps_ite)
    | (with_reducible apply keeps_ite_fst)
    | (intro b; refine (fun (_ : Keeps z b) => ?_) ?_; clear_value b; swap; dsimp only [b]; swap)
    | (intro b; refine (fun (_ : Keeps z b.1) => ?_) ?_; clear_value b; swap; dsimp only [b]; swap)
    | (intro b; clear_value b)
    | intro b
    | lift_lets
    | split
    | dsimp only

theorem ownerSearch_keeps {count : Nat} {list : List (Ppa × Bool)} (hz : Keeps z s) : Keeps z (ownerSearch s count list) := by
  unfold ownerSearch
  repeat' first
    | with_reducible assumption
    | (with_reducible apply trig54_keeps)
    | (with_reducible apply updPat_keeps)
    | (with_reducible apply orReg_keeps)
    | (intro b; refine (fun (_ : Keeps z b) => ?_) ?_; clear_value b; swap; dsimp only [b]; swap)
    | (intro b; refine (fun (_ : Keeps z b.1) => ?_) ?_; clear_value b; swap; dsimp only [b]; swap)
    | (intro b; clear_value b)
    | intro b
    | lift_lets

theorem markFound_keeps {rs : List (Nat × Nat × Nat × Nat)} {lost : List (Nat × Nat × Nat)} {g : Nat} {n : Nat} (hz : Keeps z s) : Keeps z (markFound s rs lost g n) := by
  unfold markFound
  repeat' first
    | with_reducible assumption
    | (with_reducible apply markDead_keeps)
    | (with_reducible apply keeps_ite)
    | (with_reducible apply keeps_ite_fst)
    | (with_reducible refine keeps_foldl (fun x b hx => ?_) ?_)
    | (with_reducible refine keeps_foldl_fst (fun x b hx => ?_) ?_)
    | (intro b; refine (fun (_ : Keeps z b) => ?_) ?_; clear_value b; swap; dsimp only [b]; swap)
    | (intro b; refine (fun (_ : Keeps z b.1) => ?_) ?_; clear_value b; swap; dsimp only [b]; swap)
    | (intro b; clear_value b)
    | intro b
    | lift_lets
    | split
    | dsimp only

theorem ownerSearchDone_keeps (hz : Keeps z s) : Keeps z (ownerSearchDone s) := by
  unfold ownerSearchDone
  repeat' first
    | with_reducible assumption
    | (with_reducible apply directWrite_keeps)
    | (with_reducible apply wrField_keeps)
    | (with_reducible apply updPat_keeps)
    | (with_reducible apply setCause_keeps)
    | (with_reducible apply corruptAny_keeps)
    | (with_reducible apply markFound_keeps)
    | (with_reducible refine keeps_foldl (fun x b hx => ?_) ?_)
    | (with_reducible refine keeps_foldl_fst (fun x b hx => ?_) ?_)
    | (intro b; refine (fun (_ : Keeps z b) => ?_) ?_; clear_value b; swap; dsimp only [b]; swap)
    | (intro b; refine (fun (_ : Keeps z b.1) => ?_) ?_; clear_value b; swap; dsimp only [b]; swap)
    | (intro b; clear_value b)
    | intro b
    | lift_lets
    | split
    | dsimp only

theorem replyBytes_keeps {q : Sqe} {b : List Byte} (hz : Keeps z s) : Keeps z (replyBytes s q b) := by
  unfold replyBytes
  repeat' first
    | with_reducible assumption
    | (with_reducible apply emit_keeps)

theorem reply_keeps {q : Sqe} {size : Nat} {fields : List (Nat × Nat × Nat)} (hz : Keeps z s) : Keeps z (reply s q size fields) := by
  unfold reply
  repeat' first
    | with_reducible assumption
    | (with_reducible apply replyBytes_keeps)

theorem scrubNext_keeps (hz : Keeps z s) : Keeps z (scrubNext s) := by
  unfold scrubNext
  repeat' first
    | with_reducible assumption
    | (with_reducible apply modCmd_keeps)
    | (with_reducible apply scrubStart_keeps)
    | (with_reducible apply updMem_keeps)
    | split
    | dsimp only

theorem scrubCommand_keeps {body : Instr} {q : Sqe} {mem : Nat} {unit : Nat} {rate : Nat} {base : Nat} {len : Nat} (hz : Keeps z s) : Keeps z (scrubCommand s body q mem unit rate base len) := by
  unfold scrubCommand
  repeat' first
    | with_reducible assumption
    | (with_reducible apply takeAdmin_keeps)
    | (with_reducible apply complete_keeps)
    | (with_reducible apply scrubNext_keeps)
    | (with_reducible apply updMem_keeps)
    | (with_reducible apply firmwareCmd_keeps)
    | (with_reducible apply keeps_ite)
    | (intro b; refine (fun (_ : Keeps z b) => ?_) ?_; clear_value b; swap; dsimp only [b]; swap)
    | (intro b; clear_value b)
    | intro b
    | lift_lets
    | split

theorem scrubCache_keeps {unit : Nat} {corrected : Bool} (hz : Keeps z s) : Keeps z (scrubCache s unit corrected) := by
  unfold scrubCache
  repeat' first
    | with_reducible assumption
    | (with_reducible apply freshBelow_keeps)
    | (with_reducible apply wayError_keeps)
    | (with_reducible apply phcError_keeps)
    | (with_reducible apply keeps_ite)
    | (with_reducible apply keeps_ite_fst)
    | (intro b; refine (fun (_ : Keeps z b) => ?_) ?_; clear_value b; swap; dsimp only [b]; swap)
    | (intro b; refine (fun (_ : Keeps z b.1) => ?_) ?_; clear_value b; swap; dsimp only [b]; swap)
    | (intro b; clear_value b)
    | intro b
    | lift_lets
    | split
    | (refine keeps_of_eq (by assumption) ?_)
    | dsimp only

theorem sealError_keeps (hz : Keeps z s) : Keeps z (sealError s) := by
  unfold sealError
  repeat' first
    | with_reducible assumption
    | (with_reducible apply freshBelow_keeps)
    | (with_reducible apply modOpen_keeps)
    | (with_reducible apply turn_keeps)
    | (with_reducible apply closeEarly_keeps)
    | (with_reducible apply strCauseSet_keeps)
    | (intro b; refine (fun (_ : Keeps z b) => ?_) ?_; clear_value b; swap; dsimp only [b]; swap)
    | (intro b; refine (fun (_ : Keeps z b.1) => ?_) ?_; clear_value b; swap; dsimp only [b]; swap)
    | (intro b; clear_value b)
    | intro b
    | lift_lets
    | split
    | (refine keeps_of_eq (by assumption) ?_)
    | dsimp only

theorem stagingError_keeps {d : Nat} (hz : Keeps z s) : Keeps z (stagingError s d) := by
  unfold stagingError
  repeat' first
    | with_reducible assumption
    | (with_reducible apply freshBelow_keeps)
    | (with_reducible apply pump_keeps)
    | (with_reducible apply addStepRead_keeps)
    | (with_reducible apply modLad_keeps)
    | (intro b; refine (fun (_ : Keeps z b) => ?_) ?_; clear_value b; swap; dsimp only [b]; swap)
    | (intro b; refine (fun (_ : Keeps z b.1) => ?_) ?_; clear_value b; swap; dsimp only [b]; swap)
    | (intro b; clear_value b)
    | intro b
    | lift_lets
    | split
    | (refine keeps_of_eq (by assumption) ?_)
    | dsimp only

theorem coreError_keeps (hz : Keeps z s) : Keeps z (coreError s) := by
  unfold coreError
  repeat' first
    | with_reducible assumption
    | (with_reducible apply freshBelow_keeps)
    | (with_reducible apply updChip_keeps)
    | (with_reducible apply keeps_ite)
    | (with_reducible apply keeps_ite_fst)
    | (intro b; refine (fun (_ : Keeps z b) => ?_) ?_; clear_value b; swap; dsimp only [b]; swap)
    | (intro b; refine (fun (_ : Keeps z b.1) => ?_) ?_; clear_value b; swap; dsimp only [b]; swap)
    | (intro b; clear_value b)
    | intro b
    | lift_lets
    | split
    | (refine keeps_of_eq (by assumption) ?_)
    | dsimp only

theorem scrubLost_keeps {mem : Nat} {unit : Nat} {addr : Nat} (hz : Keeps z s) : Keeps z (scrubLost s mem unit addr) := by
  unfold scrubLost
  repeat' first
    | with_reducible assumption
    | (with_reducible apply jramUe_keeps)
    | (with_reducible apply updJrc_keeps)
    | (with_reducible apply recorderLost_keeps)
    | (with_reducible apply scrubCache_keeps)
    | (with_reducible apply sealError_keeps)
    | (with_reducible apply coreError_keeps)
    | (with_reducible apply trackerFault_keeps)
    | (with_reducible apply stagingError_keeps)
    | (with_reducible apply keeps_ite)
    | (intro b; refine (fun (_ : Keeps z b) => ?_) ?_; clear_value b; swap; dsimp only [b]; swap)
    | (intro b; clear_value b)
    | intro b
    | lift_lets
    | split
    | dsimp only

theorem scrubUnit_keeps {mem : Nat} {unit : Nat} {x : Nat × UnitRead} (hz : Keeps z s) : Keeps z (scrubUnit mem unit s x) := by
  unfold scrubUnit
  repeat' first
    | with_reducible assumption
    | (with_reducible apply dramRead_keeps)
    | (with_reducible apply offender_keeps)
    | (with_reducible apply scrubCache_keeps)
    | (with_reducible apply scrubLost_keeps)
    | (with_reducible apply keeps_ite)
    | (with_reducible apply keeps_ite_fst)
    | split
    | dsimp only

theorem scrubSummary_keeps {mem : Nat} {unit : Nat} {l : List (Nat × UnitRead)} (hz : Keeps z s) : Keeps z (scrubSummary s mem unit l) := by
  unfold scrubSummary
  repeat' first
    | with_reducible assumption
    | (with_reducible apply wr_keeps)
    | (intro b; refine (fun (_ : Keeps z b) => ?_) ?_; clear_value b; swap; dsimp only [b]; swap)
    | (intro b; refine (fun (_ : Keeps z b.1) => ?_) ?_; clear_value b; swap; dsimp only [b]; swap)
    | (with_reducible apply hfn)
    | (intro b; refine (fun (hfn : ∀ x, Keeps z x → Keeps z (b x)) => ?_) ?_; clear_value b; swap; (intro x hx; dsimp only [b]); swap)
    | (intro b; refine (fun (hfn : ∀ x y, Keeps z x → Keeps z (b x y)) => ?_) ?_; clear_value b; swap; (intro x y hx; dsimp only [b]); swap)
    | (with_reducible apply hfc)
    | (with_reducible apply hfd)
    | (intro b; refine (fun (hfc : ∀ x, Keeps z (b x)) => ?_) ?_; clear_value b; swap; (intro x; dsimp only [b]); swap)
    | (intro b; refine (fun (hfd : ∀ x y, Keeps z (b x y)) => ?_) ?_; clear_value b; swap; (intro x y; dsimp only [b]); swap)
    | (intro b; clear_value b)
    | intro b
    | lift_lets
    | split
    | dsimp only

theorem scrubDone_keeps {found : List (Nat × UnitRead)} (hz : Keeps z s) : Keeps z (scrubDone s found) := by
  unfold scrubDone
  repeat' first
    | with_reducible assumption
    | (with_reducible apply freshBelow_keeps)
    | (with_reducible apply flushLine_keeps)
    | (with_reducible apply scrubSummary_keeps)
    | (with_reducible apply scrubUnit_keeps)
    | (with_reducible apply wrField_keeps)
    | (with_reducible apply raise_keeps)
    | (with_reducible apply updMem_keeps)
    | (with_reducible apply scrubNext_keeps)
    | (with_reducible apply reply_keeps)
    | (with_reducible apply endCmd_keeps)
    | (with_reducible apply keeps_ite)
    | (with_reducible apply keeps_ite_fst)
    | (with_reducible refine keeps_foldl (fun x b hx => ?_) ?_)
    | (with_reducible refine keeps_foldl_fst (fun x b hx => ?_) ?_)
    | (intro b; refine (fun (_ : Keeps z b) => ?_) ?_; clear_value b; swap; dsimp only [b]; swap)
    | (intro b; refine (fun (_ : Keeps z b.1) => ?_) ?_; clear_value b; swap; dsimp only [b]; swap)
    | (intro b; clear_value b)
    | intro b
    | lift_lets
    | split
    | (refine keeps_of_eq (by assumption) ?_)
    | dsimp only

theorem enterFailed_keeps (hz : Keeps z s) : Keeps z (enterFailed s) := by
  unfold enterFailed
  repeat' first
    | with_reducible assumption
    | (with_reducible apply sanFail_keeps)
    | (with_reducible apply setChip_keeps)
    | (with_reducible apply wr_keeps)
    | (intro b; refine (fun (_ : Keeps z b) => ?_) ?_; clear_value b; swap; dsimp only [b]; swap)
    | (intro b; clear_value b)
    | intro b
    | lift_lets

theorem segDiscard_keeps {seg : Nat} (hz : Keeps z s) : Keeps z (segDiscard s seg) := by
  unfold segDiscard
  repeat' first
    | with_reducible assumption
    | (with_reducible apply updPhc_keeps)
    | (with_reducible apply updMem_keeps)
    | (intro b; refine (fun (_ : Keeps z b) => ?_) ?_; clear_value b; swap; dsimp only [b]; swap)
    | (intro b; clear_value b)
    | intro b
    | lift_lets

theorem memWf_puts {β : Type} (a : β → Nat) (v : β → Byte) {l : List β} {d : NMap Byte} (h : memWf 0 d = true) :
    memWf 0 (l.foldl (fun d e => memWrite 0 d (a e) (v e)) d) = true := by
  induction l generalizing d with
  | nil => exact h
  | cons e r ih => exact ih (memWf_memWrite _ _ h)

theorem ttReload_keeps {r : Root} {i : Nat} (hz : Keeps z s) : Keeps z (ttReload s r i) :=
  keeps_dram hz fun hr => memWf_puts (fun e : Nat × Byte => ttBase s 0 + e.1) (fun e => if e.1 % 16 = 15 then e.2 &&& 0xE0 else e.2)
    (memWf_filter _ hr)

theorem segReload_keeps {seg : Nat} (hz : Keeps z s) : Keeps z (segReload s seg) := by
  unfold segReload
  repeat' first
    | with_reducible assumption
    | (with_reducible apply segDiscard_keeps)
    | (with_reducible apply updTab_keeps)
    | (with_reducible apply updMap_keeps)
    | (with_reducible apply ttReload_keeps)
    | (intro b; refine (fun (_ : Keeps z b) => ?_) ?_; clear_value b; swap; dsimp only [b]; swap)
    | (intro b; refine (fun (_ : Keeps z b.1) => ?_) ?_; clear_value b; swap; dsimp only [b]; swap)
    | (intro b; clear_value b)
    | intro b
    | lift_lets
    | split
    | dsimp only

theorem segmentDone_keeps {seg : Nat} {readable : Bool} (hz : Keeps z s) : Keeps z (segmentDone s seg readable) := by
  unfold segmentDone
  repeat' first
    | with_reducible assumption
    | (with_reducible apply enterFailed_keeps)
    | (with_reducible apply segReload_keeps)
    | (with_reducible apply afterApply_keeps)
    | (with_reducible apply drainApply_keeps)
    | (with_reducible apply updPhc_keeps)
    | (with_reducible apply keeps_ite)
    | (intro b; refine (fun (_ : Keeps z b) => ?_) ?_; clear_value b; swap; dsimp only [b]; swap)
    | (intro b; clear_value b)
    | intro b
    | lift_lets
    | split

end Sys2Proof.Machine
end

