-- ==== Sys2Proof/Laws/KeepsBoot.lean ====
section
/-! SUPPORT. What the operations keep (Laws/Keeps.lean): resets, start-up and the ports. One law for each operation. -/

set_option Elab.async false
set_option linter.unusedTactic false
set_option linter.unreachableTactic false

namespace Sys2Proof.Machine

variable {z s : State}

theorem sealDump_keeps {reason : Nat} (hz : Keeps z s) : Keeps z (sealDump s reason) := by
  unfold sealDump
  repeat' first
    | with_reducible assumption
    | (with_reducible apply updJrc_keeps)
    | (with_reducible apply updPwr_keeps)
    | (with_reducible apply wr_keeps)
    | (with_reducible apply raise_keeps)
    | (with_reducible apply orReg_keeps)
    | (with_reducible apply keeps_ite)
    | (with_reducible apply keeps_ite_fst)
    | (intro b; refine (fun (_ : Keeps z b) => ?_) ?_; clear_value b; swap; dsimp only [b]; swap)
    | (intro b; refine (fun (_ : Keeps z b.1) => ?_) ?_; clear_value b; swap; dsimp only [b]; swap)
    | (intro b; clear_value b)
    | intro b
    | lift_lets
    | split
    | dsimp only

theorem restoreDone_keeps (hz : Keeps z s) : Keeps z (restoreDone s) := by
  unfold restoreDone
  repeat' first
    | with_reducible assumption
    | (with_reducible apply wr_keeps)
    | (with_reducible apply raise_keeps)
    | (with_reducible apply orReg_keeps)
    | (with_reducible apply keeps_ite)
    | (intro b; refine (fun (_ : Keeps z b) => ?_) ?_; clear_value b; swap; dsimp only [b]; swap)
    | (intro b; clear_value b)
    | intro b
    | lift_lets
    | split
    | dsimp only

theorem norCut_keeps (hz : Keeps z s) : Keeps z (norCut s) := by
  unfold norCut
  repeat' first
    | with_reducible assumption
    | (with_reducible apply norPut_keeps)
    | (with_reducible apply keeps_ite)
    | split
    | dsimp only

theorem coreReg_key (warm : Bool) (e x : Nat × Dword) (h : coreReg warm e = some x) : x.1 = e.1 := by
  unfold coreReg at h
  repeat' first
    | contradiction
    | (cases h; rfl)
    | split at h

theorem coreReset_keeps {warm : Bool} (hz : Keeps z s) : Keeps z (coreReset s warm) :=
  (rootCut_keeps (norCut_keeps hz)).trans ⟨rfl, fun c => ⟨nsorted_filterMap _ (coreReg_key warm) c.regs, rfl, c.nor⟩,
    ⟨Nat.le_refl _, fun _ => SlotKept.refl _⟩⟩

theorem aonCold_key (e : Nat × Dword) : (aonCold e).1 = e.1 := by
  unfold aonCold
  repeat' first
    | rfl
    | split

theorem aonReset_keeps {kind : Nat} (hz : Keeps z s) : Keeps z (aonReset s kind) := by
  unfold aonReset
  dsimp only
  have h : Keeps z (if kind < 5 then wr (updChip s fun c => { c with kind, parked := false }) 0xE0018
      (updChip s fun c => { c with kind, parked := false }).chip.straps
      else updChip s fun c => { c with kind, parked := false }) := keeps_ite (wr_keeps (updChip_keeps hz)) (updChip_keeps hz)
  revert h
  generalize (if kind < 5 then wr (updChip s fun c => { c with kind, parked := false }) 0xE0018
      (updChip s fun c => { c with kind, parked := false }).chip.straps
      else updChip s fun c => { c with kind, parked := false }) = x
  intro h
  refine keeps_ite ?_ (keeps_ite (updPwr_keeps h) (updThm_keeps (keeps_regs (updPwr_keeps h) (nsorted_map _ aonCold_key))))
  exact h.trans ⟨rfl, fun c => ⟨nsorted_filter _ c.regs, c.dram, c.nor⟩, ⟨Nat.le_refl _, fun _ => SlotKept.refl _⟩⟩

theorem failSequence_keeps {reason : Nat} (hz : Keeps z s) : Keeps z (failSequence s reason) := by
  unfold failSequence
  repeat' first
    | with_reducible assumption
    | (with_reducible apply sealDump_keeps)
    | (with_reducible apply updChip_keeps)
    | (with_reducible apply coreReset_keeps)
    | (with_reducible apply updPwr_keeps)
    | (with_reducible apply keeps_ite)
    | (intro b; refine (fun (_ : Keeps z b) => ?_) ?_; clear_value b; swap; dsimp only [b]; swap)
    | (intro b; clear_value b)
    | intro b
    | lift_lets
    | split

theorem pwrFail_keeps {counts : Nat} (hz : Keeps z s) : Keeps z (pwrFail s counts) := by
  unfold pwrFail
  repeat' first
    | with_reducible assumption
    | (with_reducible apply updChip_keeps)
    | (with_reducible apply failSequence_keeps)
    | (with_reducible apply keeps_ite)
    | (intro b; refine (fun (_ : Keeps z b) => ?_) ?_; clear_value b; swap; dsimp only [b]; swap)
    | (intro b; clear_value b)
    | intro b
    | lift_lets
    | split

theorem failRestart_keeps (hz : Keeps z s) : Keeps z (failRestart s) := by
  unfold failRestart
  repeat' first
    | with_reducible assumption
    | (with_reducible apply updChip_keeps)
    | (with_reducible apply aonReset_keeps)
    | (with_reducible apply keeps_ite)
    | (intro b; refine (fun (_ : Keeps z b) => ?_) ?_; clear_value b; swap; dsimp only [b]; swap)
    | (intro b; clear_value b)
    | intro b
    | lift_lets
    | split

theorem resetAssert_keeps {counts : Nat} (hz : Keeps z s) : Keeps z (resetAssert s counts) := by
  unfold resetAssert
  repeat' first
    | with_reducible assumption
    | (with_reducible apply updChip_keeps)
    | (with_reducible apply coreReset_keeps)
    | (with_reducible apply failSequence_keeps)
    | (with_reducible apply keeps_ite)
    | (intro b; refine (fun (_ : Keeps z b) => ?_) ?_; clear_value b; swap; dsimp only [b]; swap)
    | (intro b; clear_value b)
    | intro b
    | lift_lets
    | split

theorem warmReset_keeps {kind : Nat} {core : Nat} (hz : Keeps z s) : Keeps z (warmReset s kind core) := by
  unfold warmReset
  repeat' first
    | with_reducible assumption
    | (with_reducible apply sealDump_keeps)
    | (with_reducible apply aonReset_keeps)
    | (with_reducible apply wr_keeps)
    | (with_reducible apply coreReset_keeps)
    | (with_reducible apply keeps_ite)
    | (intro b; refine (fun (_ : Keeps z b) => ?_) ?_; clear_value b; swap; dsimp only [b]; swap)
    | (intro b; clear_value b)
    | intro b
    | lift_lets
    | split

theorem powerOn_keeps (hz : Keeps z s) : Keeps z (powerOn s) := by
  unfold powerOn
  repeat' first
    | with_reducible assumption
    | (with_reducible apply updChip_keeps)
    | (with_reducible apply aonReset_keeps)
    | (with_reducible apply coreReset_keeps)
    | (with_reducible apply keeps_ite)
    | split

theorem powerLoss_keeps (hz : Keeps z s) : Keeps z (powerLoss s) := by
  unfold powerLoss
  repeat' first
    | with_reducible assumption
    | (with_reducible apply updChip_keeps)
    | (with_reducible apply coreReset_keeps)
    | (with_reducible apply keeps_ite)
    | split

theorem watchdog_keeps {k : Nat} (hz : Keeps z s) : Keeps z (watchdog s k) := by
  unfold watchdog
  repeat' first
    | with_reducible assumption
    | (with_reducible apply wdExpire_keeps)
    | (with_reducible apply warmReset_keeps)
    | (with_reducible apply keeps_ite)
    | (intro b; refine (fun (_ : Keeps z b) => ?_) ?_; clear_value b; swap; dsimp only [b]; swap)
    | (intro b; clear_value b)
    | intro b
    | lift_lets
    | split

theorem thermalShutdown_keeps (hz : Keeps z s) : Keeps z (thermalShutdown s) := by
  unfold thermalShutdown
  repeat' first
    | with_reducible assumption
    | (with_reducible apply failSequence_keeps)
    | (with_reducible apply freshBelow_keeps)
    | (with_reducible apply lastGasp_keeps)
    | (with_reducible apply updChip_keeps)
    | (with_reducible apply updThm_keeps)
    | (with_reducible apply keeps_ite)
    | (with_reducible apply keeps_ite_fst)
    | (intro b; refine (fun (_ : Keeps z b) => ?_) ?_; clear_value b; swap; dsimp only [b]; swap)
    | (intro b; refine (fun (_ : Keeps z b.1) => ?_) ?_; clear_value b; swap; dsimp only [b]; swap)
    | (intro b; clear_value b)
    | intro b
    | lift_lets
    | split
    | (refine keeps_of_eq (by assumption) ?_)
    | (fail_if_no_progress with_reducible refine keeps_upd ?_ rfl rfl rfl)
    | dsimp only

theorem thermalRestart_keeps (hz : Keeps z s) : Keeps z (thermalRestart s) := by
  unfold thermalRestart
  repeat' first
    | with_reducible assumption
    | (with_reducible apply aonReset_keeps)
    | (with_reducible apply updThm_keeps)
    | (with_reducible apply keeps_ite)
    | split
    | (fail_if_no_progress with_reducible refine keeps_upd ?_ rfl rfl rfl)

theorem psDone_keeps {ps : Nat} (hz : Keeps z s) : Keeps z (psDone s ps) := by
  unfold psDone
  repeat' first
    | with_reducible assumption
    | (with_reducible apply raise_keeps)
    | (with_reducible apply orReg_keeps)
    | (with_reducible apply updPwr_keeps)

theorem powerUp_keeps (hz : Keeps z s) : Keeps z (powerUp s) := by
  unfold powerUp
  repeat' first
    | with_reducible assumption
    | (with_reducible apply psDone_keeps)
    | (with_reducible apply updPwr_keeps)
    | (with_reducible apply keeps_ite)
    | split

theorem psSet_keeps {ps : Nat} (hz : Keeps z s) : Keeps z (psSet s ps) := by
  unfold psSet
  repeat' first
    | with_reducible assumption
    | (with_reducible apply updPwr_keeps)
    | (with_reducible apply pump_keeps)
    | (with_reducible apply psDone_keeps)
    | (with_reducible apply keeps_ite)
    | (intro b; refine (fun (_ : Keeps z b) => ?_) ?_; clear_value b; swap; dsimp only [b]; swap)
    | (intro b; clear_value b)
    | intro b
    | lift_lets
    | split

theorem psActive_keeps {on : Bool} (hz : Keeps z s) : Keeps z (psActive s on) := by
  unfold psActive
  repeat' first
    | with_reducible assumption
    | (with_reducible apply setActive_keeps)
    | (with_reducible refine keeps_foldl (fun x b hx => ?_) ?_)
    | (intro b; refine (fun (_ : Keeps z b) => ?_) ?_; clear_value b; swap; dsimp only [b]; swap)
    | (intro b; clear_value b)
    | intro b
    | lift_lets

theorem psEntered_keeps (hz : Keeps z s) : Keeps z (psEntered s) := by
  unfold psEntered
  repeat' first
    | with_reducible assumption
    | (with_reducible apply updPwr_keeps)
    | (with_reducible apply psDone_keeps)

theorem psSettled_keeps (hz : Keeps z s) : Keeps z (psSettled s) := by
  unfold psSettled
  repeat' first
    | with_reducible assumption
    | (with_reducible apply updPwr_keeps)
    | (with_reducible apply psActive_keeps)
    | (with_reducible apply sealDump_keeps)
    | (with_reducible apply phcDrain_keeps)
    | (with_reducible apply psEntered_keeps)
    | (with_reducible apply updPhc_keeps)
    | (with_reducible apply keeps_ite)
    | (intro b; refine (fun (_ : Keeps z b) => ?_) ?_; clear_value b; swap; dsimp only [b]; swap)
    | (intro b; clear_value b)
    | intro b
    | lift_lets
    | split

theorem psEntry_keeps (hz : Keeps z s) : Keeps z (psEntry s) := by
  unfold psEntry
  repeat' first
    | with_reducible assumption
    | (with_reducible apply psSettled_keeps)
    | (with_reducible apply updPwr_keeps)
    | (with_reducible apply pump_keeps)
    | (with_reducible apply askResume_keeps)
    | (with_reducible apply keeps_ite)
    | (with_reducible apply keeps_ite_fst)
    | (with_reducible refine keeps_foldl (fun x b hx => ?_) ?_)
    | (with_reducible refine keeps_foldl_fst (fun x b hx => ?_) ?_)
    | (intro b; refine (fun (_ : Keeps z b) => ?_) ?_; clear_value b; swap; dsimp only [b]; swap)
    | (intro b; refine (fun (_ : Keeps z b.1) => ?_) ?_; clear_value b; swap; dsimp only [b]; swap)
    | (intro b; clear_value b)
    | intro b
    | lift_lets
    | split
    | dsimp only

theorem phcDrained_keeps (hz : Keeps z s) : Keeps z (phcDrained s) := by
  unfold phcDrained
  repeat' first
    | with_reducible assumption
    | (with_reducible apply drainDone_keeps)
    | (with_reducible apply phcDrain_keeps)
    | (with_reducible apply psEntered_keeps)
    | (with_reducible apply keeps_ite)
    | (intro b; refine (fun (_ : Keeps z b) => ?_) ?_; clear_value b; swap; dsimp only [b]; swap)
    | (intro b; clear_value b)
    | intro b
    | lift_lets
    | split

theorem psExit_keeps (hz : Keeps z s) : Keeps z (psExit s) := by
  unfold psExit
  repeat' first
    | with_reducible assumption
    | (with_reducible apply restoreDone_keeps)
    | (with_reducible apply psActive_keeps)
    | (with_reducible apply updPhc_keeps)
    | (with_reducible apply phcWake_keeps)
    | (with_reducible apply updJrc_keeps)
    | (with_reducible apply updPwr_keeps)
    | (with_reducible apply psDone_keeps)
    | (with_reducible apply pump_keeps)
    | (with_reducible apply bandTrain_keeps)
    | (with_reducible apply keeps_ite)
    | (intro b; refine (fun (_ : Keeps z b) => ?_) ?_; clear_value b; swap; dsimp only [b]; swap)
    | (intro b; clear_value b)
    | intro b
    | lift_lets
    | split

theorem psDeferred_keeps (hz : Keeps z s) : Keeps z (psDeferred s) := by
  unfold psDeferred
  repeat' first
    | with_reducible assumption
    | (with_reducible apply raise_keeps)
    | (with_reducible apply orReg_keeps)
    | (with_reducible apply updPwr_keeps)
    | (with_reducible apply keeps_ite)
    | split

theorem idleTimer_keeps (hz : Keeps z s) : Keeps z (idleTimer s) := by
  unfold idleTimer
  repeat' first
    | with_reducible assumption
    | (with_reducible apply raise_keeps)
    | (with_reducible apply updPwr_keeps)
    | (with_reducible apply keeps_ite)
    | split
    | dsimp only

theorem avsel_keeps (hz : Keeps z s) : Keeps z (avsel s) := by
  unfold avsel
  repeat' first
    | with_reducible assumption
    | (with_reducible apply updPwr_keeps)

theorem stage_keeps {n : Nat} (hz : Keeps z s) : Keeps z (stage s n) := by
  unfold stage
  repeat' first
    | with_reducible assumption
    | (with_reducible apply wrField_keeps)
    | (with_reducible apply wr_keeps)
    | (with_reducible apply cfgCauseSet_keeps)
    | (with_reducible apply keeps_ite)
    | (intro b; refine (fun (_ : Keeps z b) => ?_) ?_; clear_value b; swap; dsimp only [b]; swap)
    | (intro b; clear_value b)
    | intro b
    | lift_lets
    | split

theorem halt_keeps {cause : Nat} (hz : Keeps z s) : Keeps z (halt s cause) := by
  unfold halt
  repeat' first
    | with_reducible assumption
    | (with_reducible apply wrField_keeps)
    | (with_reducible apply updChip_keeps)
    | (with_reducible apply cfgCauseSet_keeps)
    | (intro b; refine (fun (_ : Keeps z b) => ?_) ?_; clear_value b; swap; dsimp only [b]; swap)
    | (intro b; clear_value b)
    | intro b
    | lift_lets

theorem enableBlk_keeps {b : Blk} {u : optParam Nat 0} (hz : Keeps z s) : Keeps z (enableBlk s b u) := by
  unfold enableBlk
  repeat' first
    | with_reducible assumption
    | (with_reducible apply setActive_keeps)
    | (with_reducible apply wrField_keeps)

theorem portEnable_keeps {p : Port} (hz : Keeps z s) : Keeps z (portEnable s p) := by
  unfold portEnable
  repeat' first
    | with_reducible assumption
    | (with_reducible apply modPort_keeps)
    | (with_reducible apply enableBlk_keeps)
    | (with_reducible apply keeps_ite)
    | split
    | (fail_if_no_progress with_reducible refine keeps_upd ?_ rfl rfl rfl)

theorem linkConfig_keeps {base : List Byte} (hz : Keeps z s) : Keeps z (linkConfig s base) := by
  unfold linkConfig
  repeat' first
    | with_reducible assumption
    | (with_reducible apply wr_keeps)
    | (intro b; refine (fun (_ : Keeps z b) => ?_) ?_; clear_value b; swap; dsimp only [b]; swap)
    | (intro b; clear_value b)
    | intro b
    | lift_lets

theorem linkDefaults_keeps (hz : Keeps z s) : Keeps z (linkDefaults s) := by
  unfold linkDefaults
  repeat' first
    | with_reducible assumption
    | (with_reducible apply wr_keeps)

theorem loadSpace_keeps {ids : List Byte} {p : Port} (hz : Keeps z s) : Keeps z (loadSpace s ids p) := by
  unfold loadSpace
  repeat' first
    | with_reducible assumption
    | (with_reducible apply modPort_keeps)
    | (fail_if_no_progress with_reducible refine keeps_upd ?_ rfl rfl rfl)

theorem setDepot_keeps {depot : Bool} (hz : Keeps z s) : Keeps z (setDepot s depot) := by
  unfold setDepot
  repeat' first
    | with_reducible assumption
    | (with_reducible refine updSec_keeps ?_ ⟨rfl, rfl⟩)
    | (with_reducible apply keeps_ite)
    | (intro b; refine (fun (_ : Keeps z b) => ?_) ?_; clear_value b; swap; dsimp only [b]; swap)
    | (intro b; clear_value b)
    | intro b
    | lift_lets
    | split
    | (fail_if_no_progress with_reducible refine keeps_upd ?_ rfl rfl rfl)

theorem stage1_keeps (hz : Keeps z s) : Keeps z (stage1 s) := by
  unfold stage1
  repeat' first
    | with_reducible assumption
    | (with_reducible apply fuseMapRows_keeps)
    | (with_reducible apply repairRows_keeps)
    | (with_reducible apply enableBlk_keeps)
    | (with_reducible apply stage_keeps)
    | (with_reducible apply cryCauseSet_keeps)
    | (with_reducible apply wrField_keeps)
    | (with_reducible apply setDepot_keeps)
    | (with_reducible apply halt_keeps)
    | (with_reducible apply portEnable_keeps)
    | (with_reducible apply linkDefaults_keeps)
    | (with_reducible apply linkConfig_keeps)
    | (with_reducible apply wr_keeps)
    | (with_reducible refine updSec_keeps ?_ ⟨rfl, rfl⟩)
    | (with_reducible apply cfgCauseSet_keeps)
    | (with_reducible apply loadSpace_keeps)
    | (with_reducible apply takeImage_keeps)
    | (with_reducible apply keeps_ite)
    | (intro b; refine (fun (_ : Keeps z b) => ?_) ?_; clear_value b; swap; dsimp only [b]; swap)
    | (intro b; clear_value b)
    | intro b
    | lift_lets
    | split
    | (fail_if_no_progress with_reducible refine keeps_upd ?_ rfl rfl rfl)
    | dsimp only

theorem loadTyped_keeps {base : List Byte} {ovls : List (Nat × List Byte)} (hz : Keeps z s) : Keeps z (loadTyped s base ovls) := by
  unfold loadTyped
  repeat' first
    | with_reducible assumption
    | (with_reducible apply updFlash_keeps)
    | (with_reducible refine updBoot_keeps ?_ rfl)
    | (with_reducible apply updMap_keeps)
    | (with_reducible apply updThm_keeps)
    | (intro b; refine (fun (_ : Keeps z b) => ?_) ?_; clear_value b; swap; dsimp only [b]; swap)
    | (intro b; refine (fun (_ : Keeps z b.1) => ?_) ?_; clear_value b; swap; dsimp only [b]; swap)
    | (with_reducible apply hfn)
    | (intro b; refine (fun (hfn : ∀ x, Keeps z x → Keeps z (b x)) => ?_) ?_; clear_value b; swap; (intro x hx; dsimp only [b]); swap)
    | (intro b; refine (fun (hfn : ∀ x y, Keeps z x → Keeps z (b x y)) => ?_) ?_; clear_value b; swap; (intro x y hx; dsimp only [b]); swap)
    | (with_reducible apply hfc)
    | (with_reducible apply hfd)
    | (intro b; refine (fun (hfc : ∀ x, Keeps z (b x)) => ?_) ?_; clear_value b; swap; (intro x; dsimp only [b]); swap)
    | (intro b; refine (fun (hfd : ∀ x y, Keeps z (b x y)) => ?_) ?_; clear_value b; swap; (intro x y; dsimp only [b]); swap)
    | (intro b; clear_value b)
    | intro b
    | lift_lets
    | (fail_if_no_progress with_reducible refine keeps_upd ?_ rfl rfl rfl)

theorem loadEntry_keeps {l : Load} {off mask val : Nat} (hz : Keeps z l.s) : Keeps z (loadEntry l off mask val).s := by
  unfold loadEntry
  repeat' first
    | with_reducible assumption
    | (with_reducible apply wr_keeps)
    | split
    | dsimp only

theorem loadBlock_keeps {n : Nat} {l : Load} {d : List Byte} (hz : Keeps z l.s) : Keeps z (loadBlock n l d).s := by
  induction n generalizing l d with
  | zero => exact hz
  | succ n ih =>
    unfold loadBlock
    split
    · exact hz
    · exact ih (loadEntry_keeps hz)

theorem keeps_loads {β : Type} {g : Load → β → Load} {l : List β} {a : Load} (hg : ∀ x b, Keeps z x.s → Keeps z (g x b).s)
    (h : Keeps z a.s) : Keeps z (l.foldl g a).s := by
  induction l generalizing a with
  | nil => exact h
  | cons b r ih => exact ih (hg a b h)

theorem loadImage_keeps {l : Load} {img : List Byte} (hz : Keeps z l.s) : Keeps z (loadImage l img).s := by
  unfold loadImage
  refine keeps_loads (fun x b hx => ?_) hz
  split
  · exact loadBlock_keeps hx
  · exact hx

theorem stage2With_keeps {base : List Byte} {bank seq : Nat} {imgs : List (List Byte)} {fb : Bool} (hz : Keeps z s) :
    Keeps z (stage2With s base bank seq imgs fb) := by
  unfold stage2With
  repeat' first
    | with_reducible assumption
    | (with_reducible apply stage_keeps)
    | (with_reducible apply wr_keeps)
    | (with_reducible apply wrField_keeps)
    | (with_reducible apply cfgCauseSet_keeps)
    | (with_reducible apply halt_keeps)
    | (with_reducible apply loadTyped_keeps)
    | (with_reducible apply updEvr_keeps)
    | (with_reducible refine updSec_keeps ?_ ⟨rfl, rfl⟩)
    | (with_reducible apply setWin_keeps)
    | (with_reducible apply ringEnable_keeps)
    | (with_reducible apply loadImage_keeps)
    | (with_reducible refine keeps_loads (fun x b hx => ?_) ?_)
    | (with_reducible apply keeps_ite)
    | (with_reducible refine keeps_foldl (fun x b hx => ?_) ?_)
    | (intro b; refine (fun (_ : Keeps z b) => ?_) ?_; clear_value b; swap; dsimp only [b]; swap)
    | (intro b; refine (fun (_ : Keeps z b.s) => ?_) ?_; clear_value b; swap; dsimp only [b]; swap)
    | (intro b; clear_value b)
    | lift_lets
    | split

theorem stage2_keeps (hz : Keeps z s) : Keeps z (stage2 s) := by
  unfold stage2
  repeat' first
    | with_reducible assumption
    | (with_reducible apply wrField_keeps)
    | (with_reducible apply stage_keeps)
    | (with_reducible apply stage2With_keeps)
    | (with_reducible apply halt_keeps)
    | (with_reducible apply keeps_ite)
    | (intro b; refine (fun (_ : Keeps z b) => ?_) ?_; clear_value b; swap; dsimp only [b]; swap)
    | (intro b; clear_value b)
    | intro b
    | lift_lets
    | split
    | dsimp only

theorem stage3_keeps (hz : Keeps z s) : Keeps z (stage3 s) := by
  unfold stage3
  repeat' first
    | with_reducible assumption
    | (with_reducible apply stage_keeps)
    | (with_reducible apply updMem_keeps)
    | (with_reducible apply wr_keeps)
    | (with_reducible apply halt_keeps)
    | (with_reducible apply enableBlk_keeps)
    | (with_reducible apply drawNonce_keeps)
    | (with_reducible apply trig54_keeps)
    | (with_reducible apply zeroFillDone_keeps)
    | (with_reducible apply wrField_keeps)
    | (with_reducible apply keeps_ite)
    | (with_reducible refine keeps_foldl (fun x b hx => ?_) ?_)
    | (intro b; refine (fun (_ : Keeps z b) => ?_) ?_; clear_value b; swap; dsimp only [b]; swap)
    | (intro b; clear_value b)
    | intro b
    | lift_lets
    | split
    | (fail_if_no_progress with_reducible refine keeps_upd ?_ rfl rfl rfl)
    | dsimp only

theorem courierStart_keeps {c : Nat} (hz : Keeps z s) : Keeps z (courierStart s c) := by
  unfold courierStart
  repeat' first
    | with_reducible assumption
    | (with_reducible apply enableBlk_keeps)
    | (with_reducible apply identify1_keeps)
    | (with_reducible apply wr_keeps)
    | (with_reducible apply train_keeps)
    | (with_reducible apply modCourier_keeps)
    | (with_reducible apply keeps_ite)
    | (with_reducible refine keeps_foldl (fun x b hx => ?_) ?_)
    | (intro b; refine (fun (_ : Keeps z b) => ?_) ?_; clear_value b; swap; dsimp only [b]; swap)
    | (intro b; clear_value b)
    | intro b
    | lift_lets
    | split
    | (fail_if_no_progress with_reducible refine keeps_upd ?_ rfl rfl rfl)
    | dsimp only

theorem recovNote_keeps {outcome : Nat} {copy : Nat} (hz : Keeps z s) : Keeps z (recovNote s outcome copy) := by
  unfold recovNote
  repeat' first
    | with_reducible assumption
    | (with_reducible apply wr_keeps)

theorem recovEnd_keeps (hz : Keeps z s) : Keeps z (recovEnd s) := by
  unfold recovEnd
  repeat' first
    | with_reducible assumption
    | (with_reducible apply raise_keeps)
    | (with_reducible apply wrField_keeps)

theorem recoverFailed_keeps (hz : Keeps z s) : Keeps z (recoverFailed s) := by
  unfold recoverFailed
  repeat' first
    | with_reducible assumption
    | (with_reducible apply updMap_keeps)
    | (with_reducible apply setChip_keeps)
    | (with_reducible apply recovNote_keeps)
    | (with_reducible apply updJrc_keeps)
    | (intro b; refine (fun (_ : Keeps z b) => ?_) ?_; clear_value b; swap; dsimp only [b]; swap)
    | (intro b; refine (fun (_ : Keeps z b.1) => ?_) ?_; clear_value b; swap; dsimp only [b]; swap)
    | (intro b; clear_value b)
    | intro b
    | lift_lets

theorem systemArea_keeps (hz : Keeps z s) : Keeps z (systemArea s) := by
  unfold systemArea
  repeat' first
    | with_reducible assumption
    | (with_reducible apply mirroredRead_keeps)
    | (with_reducible apply updMap_keeps)
    | (with_reducible apply keeps_ite)
    | (with_reducible apply keeps_ite_fst)
    | (intro b; refine (fun (_ : Keeps z b) => ?_) ?_; clear_value b; swap; dsimp only [b]; swap)
    | (intro b; refine (fun (_ : Keeps z b.1) => ?_) ?_; clear_value b; swap; dsimp only [b]; swap)
    | (intro b; clear_value b)
    | intro b
    | lift_lets
    | split
    | (refine keeps_of_eq (by assumption) ?_)
    | (fail_if_no_progress with_reducible refine keeps_upd ?_ rfl rfl rfl)
    | dsimp only

theorem recoverTake_keeps {r : Root} {x : Replay} (hz : Keeps z s) : Keeps z (recoverTake s r x) := by
  unfold recoverTake
  repeat' first
    | with_reducible assumption
    | (with_reducible apply systemArea_keeps)
    | (with_reducible apply updJrc_keeps)
    | (with_reducible apply updMap_keeps)
    | (with_reducible apply stagingRecover_keeps)
    | (with_reducible apply fullJudge_keeps)
    | (with_reducible apply wr_keeps)
    | (with_reducible apply keeps_ite)
    | (with_reducible apply keeps_ite_fst)
    | (with_reducible refine keeps_foldl (fun x b hx => ?_) ?_)
    | (with_reducible refine keeps_foldl_fst (fun x b hx => ?_) ?_)
    | (intro b; refine (fun (_ : Keeps z b) => ?_) ?_; clear_value b; swap; dsimp only [b]; swap)
    | (intro b; refine (fun (_ : Keeps z b.1) => ?_) ?_; clear_value b; swap; dsimp only [b]; swap)
    | (intro b; clear_value b)
    | intro b
    | lift_lets
    | split
    | (refine keeps_dram_puts ?_ _ _)
    | (fail_if_no_progress with_reducible refine keeps_upd ?_ rfl rfl rfl)

theorem recoverFrom_keeps {r : Root} (hz : Keeps z s) : Keeps z (recoverFrom s r) := by
  unfold recoverFrom
  repeat' first
    | with_reducible assumption
    | (with_reducible apply recoverFailed_keeps)
    | (with_reducible apply jramUe_keeps)
    | (with_reducible apply recoverTake_keeps)
    | (with_reducible apply keeps_ite)
    | split

theorem commitNow_keeps {gs : List Group} (hz : Keeps z s) : Keeps z (commitNow s gs) := by
  unfold commitNow
  repeat' first
    | with_reducible assumption
    | (with_reducible apply updTab_keeps)
    | (with_reducible apply updJrc_keeps)
    | (with_reducible apply keeps_ite)
    | (with_reducible apply keeps_ite_fst)
    | (with_reducible refine keeps_foldl (fun x b hx => ?_) ?_)
    | (with_reducible refine keeps_foldl_fst (fun x b hx => ?_) ?_)
    | (intro b; refine (fun (_ : Keeps z b) => ?_) ?_; clear_value b; swap; dsimp only [b]; swap)
    | (intro b; refine (fun (_ : Keeps z b.1) => ?_) ?_; clear_value b; swap; dsimp only [b]; swap)
    | (intro b; clear_value b)
    | intro b
    | lift_lets
    | split
    | (refine keeps_of_eq (by assumption) ?_)
    | dsimp only

theorem commitReqs_keeps (hz : Keeps z s) : Keeps z (commitReqs s) := by
  unfold commitReqs
  repeat' first
    | with_reducible assumption
    | (with_reducible apply commitNow_keeps)
    | (with_reducible apply updJrc_keeps)
    | (with_reducible apply updPat_keeps)
    | (with_reducible apply modOpen_keeps)
    | (with_reducible refine keeps_foldl (fun x b hx => ?_) ?_)
    | (intro b; refine (fun (_ : Keeps z b) => ?_) ?_; clear_value b; swap; dsimp only [b]; swap)
    | (intro b; clear_value b)
    | intro b
    | lift_lets
    | split
    | dsimp only

theorem cutNow_keeps (hz : Keeps z s) : Keeps z (cutNow s) := by
  unfold cutNow
  repeat' first
    | with_reducible assumption
    | (with_reducible apply writeArea_keeps)
    | (with_reducible apply wr_keeps)
    | (with_reducible apply updMap_keeps)
    | (intro b; refine (fun (_ : Keeps z b) => ?_) ?_; clear_value b; swap; dsimp only [b]; swap)
    | (intro b; clear_value b)
    | intro b
    | lift_lets
    | (fail_if_no_progress with_reducible refine keeps_upd ?_ rfl rfl rfl)

theorem commissioned_keeps (hz : Keeps z s) : Keeps z (commissioned s) := by
  unfold commissioned
  repeat' first
    | with_reducible assumption
    | (with_reducible apply writeRecordCopy_keeps)
    | (intro b; refine (fun (_ : Keeps z b) => ?_) ?_; clear_value b; swap; dsimp only [b]; swap)
    | (intro b; clear_value b)
    | intro b
    | lift_lets
    | split
    | dsimp only

theorem firstBoot_keeps (hz : Keeps z s) : Keeps z (firstBoot s) := by
  unfold firstBoot
  repeat' first
    | with_reducible assumption
    | (with_reducible apply updMap_keeps)
    | (with_reducible apply updMem_keeps)
    | (with_reducible apply openNow_keeps)
    | (with_reducible apply wrField_keeps)
    | (with_reducible apply commitReqs_keeps)
    | (with_reducible apply cutNow_keeps)
    | (with_reducible apply raise_keeps)
    | (with_reducible apply commissioned_keeps)
    | (with_reducible refine updBoot_keeps ?_ rfl)
    | (with_reducible apply recovNote_keeps)
    | (with_reducible apply keeps_ite)
    | (with_reducible apply keeps_ite_fst)
    | (with_reducible refine keeps_foldl (fun x b hx => ?_) ?_)
    | (with_reducible refine keeps_foldl_fst (fun x b hx => ?_) ?_)
    | (intro b; refine (fun (_ : Keeps z b) => ?_) ?_; clear_value b; swap; dsimp only [b]; swap)
    | (intro b; refine (fun (_ : Keeps z b.1) => ?_) ?_; clear_value b; swap; dsimp only [b]; swap)
    | (intro b; clear_value b)
    | intro b
    | lift_lets
    | split
    | (fail_if_no_progress with_reducible refine keeps_upd ?_ rfl rfl rfl)
    | dsimp only

theorem recommission_keeps {r : Root} (hz : Keeps z s) : Keeps z (recommission s r) := by
  unfold recommission
  repeat' first
    | with_reducible assumption
    | (with_reducible apply wrField_keeps)
    | (with_reducible apply recoverTake_keeps)
    | (with_reducible apply newSalt_keeps)
    | (with_reducible apply updCry_keeps)
    | (with_reducible apply updTab_keeps)
    | (with_reducible apply updMap_keeps)
    | (with_reducible apply commitNow_keeps)
    | (with_reducible apply progWrite_keeps)
    | (with_reducible apply setChip_keeps)
    | (with_reducible apply cutNow_keeps)
    | (with_reducible apply updPat_keeps)
    | (with_reducible apply recovNote_keeps)
    | (with_reducible refine updBoot_keeps ?_ rfl)
    | (with_reducible apply raise_keeps)
    | (with_reducible apply writeRecordCopy_keeps)
    | (with_reducible refine keeps_foldl (fun x b hx => ?_) ?_)
    | (with_reducible refine keeps_foldl_fst (fun x b hx => ?_) ?_)
    | (intro b; refine (fun (_ : Keeps z b) => ?_) ?_; clear_value b; swap; dsimp only [b]; swap)
    | (intro b; refine (fun (_ : Keeps z b.1) => ?_) ?_; clear_value b; swap; dsimp only [b]; swap)
    | (intro b; clear_value b)
    | intro b
    | lift_lets
    | split
    | dsimp only

theorem recomRefused_keeps (hz : Keeps z s) : Keeps z (recomRefused s) := by
  unfold recomRefused
  repeat' first
    | with_reducible assumption
    | (with_reducible apply raise_keeps)
    | (with_reducible apply writeRecordCopy_keeps)
    | (with_reducible apply keeps_ite)
    | (intro b; refine (fun (_ : Keeps z b) => ?_) ?_; clear_value b; swap; dsimp only [b]; swap)
    | (intro b; clear_value b)
    | intro b
    | lift_lets
    | split
    | dsimp only

theorem rootsRead_keeps (hz : Keeps z s) : Keeps z (rootsRead s) := by
  unfold rootsRead
  repeat' first
    | with_reducible assumption
    | (with_reducible apply mirroredRead_keeps)
    | (with_reducible apply updJrc_keeps)
    | (with_reducible apply keeps_ite)
    | (with_reducible apply keeps_ite_fst)
    | (with_reducible refine keeps_foldl (fun x b hx => ?_) ?_)
    | (with_reducible refine keeps_foldl_fst (fun x b hx => ?_) ?_)
    | (intro b; refine (fun (_ : Keeps z b) => ?_) ?_; clear_value b; swap; dsimp only [b]; swap)
    | (intro b; refine (fun (_ : Keeps z b.1) => ?_) ?_; clear_value b; swap; dsimp only [b]; swap)
    | (intro b; clear_value b)
    | intro b
    | lift_lets
    | split
    | (refine keeps_of_eq (by assumption) ?_)
    | dsimp only

theorem selectRoot_keeps (hz : Keeps z s) : Keeps z (selectRoot s) := by
  unfold selectRoot
  repeat' first
    | with_reducible assumption
    | (with_reducible apply recovNote_keeps)
    | (with_reducible apply keeps_ite)
    | split
    | dsimp only

theorem loadMap_keeps (hz : Keeps z s) : Keeps z (loadMap s) := by
  unfold loadMap
  repeat' first
    | with_reducible assumption
    | (with_reducible apply recoverFrom_keeps)
    | (with_reducible apply recoverFailed_keeps)
    | (with_reducible apply keeps_ite)
    | split
    | dsimp only

theorem restoreRetired_keeps (hz : Keeps z s) : Keeps z (restoreRetired s) := by
  unfold restoreRetired
  repeat' first
    | with_reducible assumption
    | (with_reducible apply orReg_keeps)
    | (with_reducible apply updChip_keeps)
    | (with_reducible refine keeps_foldl (fun x b hx => ?_) ?_)
    | (with_reducible refine keeps_foldl_fst (fun x b hx => ?_) ?_)
    | (intro b; refine (fun (_ : Keeps z b) => ?_) ?_; clear_value b; swap; dsimp only [b]; swap)
    | (intro b; refine (fun (_ : Keeps z b.1) => ?_) ?_; clear_value b; swap; dsimp only [b]; swap)
    | (intro b; clear_value b)
    | intro b
    | lift_lets

theorem resumeRetired_keeps (hz : Keeps z s) : Keeps z (resumeRetired s) := by
  unfold resumeRetired
  repeat' first
    | with_reducible assumption
    | (with_reducible apply updTab_keeps)
    | (with_reducible apply updMap_keeps)
    | (with_reducible apply keeps_ite)
    | (with_reducible apply keeps_ite_fst)
    | (intro b; refine (fun (_ : Keeps z b) => ?_) ?_; clear_value b; swap; dsimp only [b]; swap)
    | (intro b; refine (fun (_ : Keeps z b.1) => ?_) ?_; clear_value b; swap; dsimp only [b]; swap)
    | (with_reducible apply hfn)
    | (intro b; refine (fun (hfn : ∀ x, Keeps z x → Keeps z (b x)) => ?_) ?_; clear_value b; swap; (intro x hx; dsimp only [b]); swap)
    | (intro b; refine (fun (hfn : ∀ x y, Keeps z x → Keeps z (b x y)) => ?_) ?_; clear_value b; swap; (intro x y hx; dsimp only [b]); swap)
    | (with_reducible apply hfc)
    | (with_reducible apply hfd)
    | (intro b; refine (fun (hfc : ∀ x, Keeps z (b x)) => ?_) ?_; clear_value b; swap; (intro x; dsimp only [b]); swap)
    | (intro b; refine (fun (hfd : ∀ x y, Keeps z (b x y)) => ?_) ?_; clear_value b; swap; (intro x y; dsimp only [b]); swap)
    | (intro b; clear_value b)
    | intro b
    | lift_lets
    | split

theorem seedTables_keeps (hz : Keeps z s) : Keeps z (seedTables s) := by
  unfold seedTables
  repeat' first
    | with_reducible assumption
    | (with_reducible apply directWrite_keeps)
    | (with_reducible apply keeps_ite)
    | (with_reducible refine keeps_foldl (fun x b hx => ?_) ?_)
    | (intro b; refine (fun (_ : Keeps z b) => ?_) ?_; clear_value b; swap; dsimp only [b]; swap)
    | (intro b; clear_value b)
    | intro b
    | lift_lets
    | split

theorem stage4_keeps (hz : Keeps z s) : Keeps z (stage4 s) := by
  unfold stage4
  repeat' first
    | with_reducible assumption
    | (with_reducible apply restoreRetired_keeps)
    | (with_reducible apply trig54_keeps)
    | (with_reducible apply wrField_keeps)
    | (with_reducible apply stage_keeps)
    | (with_reducible apply takeCost_keeps)
    | (with_reducible apply enableBlk_keeps)
    | (with_reducible apply seedTables_keeps)
    | (with_reducible apply courierStart_keeps)
    | (with_reducible apply rootsRead_keeps)
    | (with_reducible apply firstBoot_keeps)
    | (with_reducible apply recommission_keeps)
    | (with_reducible apply selectRoot_keeps)
    | (with_reducible apply recomRefused_keeps)
    | (with_reducible apply keeps_ite)
    | (with_reducible refine keeps_foldl (fun x b hx => ?_) ?_)
    | (intro b; refine (fun (_ : Keeps z b) => ?_) ?_; clear_value b; swap; dsimp only [b]; swap)
    | (intro b; clear_value b)
    | intro b
    | lift_lets
    | split
    | dsimp only

theorem closeAt_keeps {k : Nat} {x : Nat} {o : OpenSb} {b : Sb} {r : Nat} {done : List Nat} {bare : optParam (List Nat) []} (hz : Keeps z s) : Keeps z (closeAt s k x o b r done bare) := by
  unfold closeAt
  repeat' first
    | with_reducible assumption
    | (with_reducible apply modSb_keeps)
    | (with_reducible apply updMap_keeps)
    | (with_reducible apply updChip_keeps)
    | (with_reducible apply strCauseSet_keeps)
    | (with_reducible apply refreshHead_keeps)
    | (with_reducible apply askSeal_keeps)
    | (with_reducible apply keeps_ite)
    | (intro b; refine (fun (_ : Keeps z b) => ?_) ?_; clear_value b; swap; dsimp only [b]; swap)
    | (with_reducible apply hfn)
    | (intro b; refine (fun (hfn : ∀ x, Keeps z x → Keeps z (b x)) => ?_) ?_; clear_value b; swap; (intro x hx; dsimp only [b]); swap)
    | (intro b; refine (fun (hfn : ∀ x y, Keeps z x → Keeps z (b x y)) => ?_) ?_; clear_value b; swap; (intro x y hx; dsimp only [b]); swap)
    | (with_reducible apply hfc)
    | (with_reducible apply hfd)
    | (intro b; refine (fun (hfc : ∀ x, Keeps z (b x)) => ?_) ?_; clear_value b; swap; (intro x; dsimp only [b]); swap)
    | (intro b; refine (fun (hfd : ∀ x y, Keeps z (b x y)) => ?_) ?_; clear_value b; swap; (intro x y; dsimp only [b]); swap)
    | (intro b; clear_value b)
    | intro b
    | lift_lets
    | split

theorem sealAt_keeps {k : Nat} {x : Nat} {o : OpenSb} (hz : Keeps z s) : Keeps z (sealAt s k x o) := by
  unfold sealAt
  repeat' first
    | with_reducible assumption
    | (with_reducible apply updMap_keeps)
    | (with_reducible apply askSeal_keeps)
    | (with_reducible apply updChip_keeps)
    | (intro b; refine (fun (_ : Keeps z b) => ?_) ?_; clear_value b; swap; dsimp only [b]; swap)
    | (intro b; clear_value b)
    | intro b
    | lift_lets

theorem reopen_keeps {x : Nat} {b : Sb} (hz : Keeps z s) : Keeps z (reopen s x b) := by
  unfold reopen
  repeat' first
    | with_reducible assumption
    | (with_reducible apply modSb_keeps)
    | (with_reducible apply sealAt_keeps)
    | (with_reducible apply updMap_keeps)
    | (with_reducible apply closeAt_keeps)
    | (with_reducible apply keeps_ite)
    | (with_reducible apply keeps_ite_fst)
    | (intro b; refine (fun (_ : Keeps z b) => ?_) ?_; clear_value b; swap; dsimp only [b]; swap)
    | (intro b; refine (fun (_ : Keeps z b.1) => ?_) ?_; clear_value b; swap; dsimp only [b]; swap)
    | (intro b; clear_value b)
    | intro b
    | lift_lets
    | split
    | dsimp only

theorem loadKeys_keeps (hz : Keeps z s) : Keeps z (loadKeys s) := by
  unfold loadKeys
  repeat' first
    | with_reducible assumption
    | (with_reducible apply mirroredRead_keeps)
    | (with_reducible apply updCry_keeps)
    | (with_reducible apply keeps_ite)
    | (with_reducible apply keeps_ite_fst)
    | (with_reducible refine keeps_foldl (fun x b hx => ?_) ?_)
    | (with_reducible refine keeps_foldl_fst (fun x b hx => ?_) ?_)
    | (intro b; refine (fun (_ : Keeps z b) => ?_) ?_; clear_value b; swap; dsimp only [b]; swap)
    | (intro b; refine (fun (_ : Keeps z b.1) => ?_) ?_; clear_value b; swap; dsimp only [b]; swap)
    | (intro b; clear_value b)
    | intro b
    | lift_lets
    | split
    | (refine keeps_of_eq (by assumption) ?_)
    | dsimp only

theorem phcStart_keeps (hz : Keeps z s) : Keeps z (phcStart s) := by
  unfold phcStart
  repeat' first
    | with_reducible assumption
    | (with_reducible apply phcEnable_keeps)
    | (with_reducible apply invalidationDone_keeps)
    | (with_reducible apply wrField_keeps)

theorem stage5_keeps (hz : Keeps z s) : Keeps z (stage5 s) := by
  unfold stage5
  repeat' first
    | with_reducible assumption
    | (with_reducible apply loadKeys_keeps)
    | (with_reducible apply loadMap_keeps)
    | (with_reducible apply phcStart_keeps)
    | (with_reducible apply stage_keeps)
    | (with_reducible apply resumeRetired_keeps)
    | (with_reducible apply oldSalts_keeps)
    | (with_reducible apply commissioned_keeps)
    | (with_reducible apply enableBlk_keeps)
    | (with_reducible apply wrField_keeps)
    | (with_reducible apply reopen_keeps)
    | (with_reducible apply restoreDone_keeps)
    | (with_reducible apply updMap_keeps)
    | (with_reducible apply ckptStart_keeps)
    | (with_reducible apply spaceUpdate_keeps)
    | (with_reducible apply turn_keeps)
    | (with_reducible apply keeps_ite)
    | (with_reducible apply keeps_ite_fst)
    | (with_reducible refine keeps_foldl (fun x b hx => ?_) ?_)
    | (with_reducible refine keeps_foldl_fst (fun x b hx => ?_) ?_)
    | (intro b; refine (fun (_ : Keeps z b) => ?_) ?_; clear_value b; swap; dsimp only [b]; swap)
    | (intro b; refine (fun (_ : Keeps z b.1) => ?_) ?_; clear_value b; swap; dsimp only [b]; swap)
    | (intro b; clear_value b)
    | intro b
    | lift_lets
    | split
    | dsimp only

theorem portReady_keeps {p : Port} (hz : Keeps z s) : Keeps z (portReady s p) := by
  unfold portReady
  repeat' first
    | with_reducible assumption
    | (with_reducible apply noteReady_keeps)
    | (with_reducible apply setPort_keeps)
    | (with_reducible apply keeps_ite)
    | (intro b; refine (fun (_ : Keeps z b) => ?_) ?_; clear_value b; swap; dsimp only [b]; swap)
    | (intro b; clear_value b)
    | intro b
    | lift_lets
    | split
    | (fail_if_no_progress with_reducible refine keeps_upd ?_ rfl rfl rfl)

theorem progResume_keeps (hz : Keeps z s) : Keeps z (progResume s) := by
  unfold progResume
  repeat' first
    | with_reducible assumption
    | (with_reducible apply sanitizeKeys_keeps)
    | (with_reducible apply segFill_keeps)
    | (with_reducible apply issueRound_keeps)
    | (with_reducible apply keeps_ite)
    | (intro b; refine (fun (_ : Keeps z b) => ?_) ?_; clear_value b; swap; dsimp only [b]; swap)
    | (intro b; clear_value b)
    | intro b
    | lift_lets
    | split
    | (fail_if_no_progress with_reducible refine keeps_upd ?_ rfl rfl rfl)

theorem offTime_keeps (hz : Keeps z s) : Keeps z (offTime s) := by
  unfold offTime
  repeat' first
    | with_reducible assumption
    | (with_reducible apply updPat_keeps)
    | (with_reducible apply keeps_ite)
    | (intro b; refine (fun (_ : Keeps z b) => ?_) ?_; clear_value b; swap; dsimp only [b]; swap)
    | (intro b; clear_value b)
    | intro b
    | lift_lets
    | split

theorem stage6_keeps (hz : Keeps z s) : Keeps z (stage6 s) := by
  unfold stage6
  repeat' first
    | with_reducible assumption
    | (with_reducible apply updChip_keeps)
    | (with_reducible apply wrField_keeps)
    | (with_reducible apply recovEnd_keeps)
    | (with_reducible apply enableBlk_keeps)
    | (with_reducible apply stage_keeps)
    | (with_reducible apply updPat_keeps)
    | (with_reducible apply offTime_keeps)
    | (with_reducible apply portReady_keeps)
    | (with_reducible apply pump_keeps)
    | (with_reducible apply progResume_keeps)
    | (with_reducible apply keeps_ite)
    | (intro b; refine (fun (_ : Keeps z b) => ?_) ?_; clear_value b; swap; dsimp only [b]; swap)
    | (intro b; clear_value b)
    | intro b
    | lift_lets
    | split
    | dsimp only

theorem stages3_keeps (hz : Keeps z s) : Keeps z (stages3 s) := by
  unfold stages3
  repeat' first
    | with_reducible assumption
    | (with_reducible apply stage3_keeps)
    | (with_reducible apply stage6_keeps)
    | (with_reducible apply stage5_keeps)
    | (with_reducible apply stage4_keeps)
    | (with_reducible apply keeps_ite)
    | (intro b; refine (fun (_ : Keeps z b) => ?_) ?_; clear_value b; swap; dsimp only [b]; swap)
    | (intro b; clear_value b)
    | intro b
    | lift_lets
    | split

theorem wakeEnd_keeps (hz : Keeps z s) : Keeps z (wakeEnd s) := by
  unfold wakeEnd
  repeat' first
    | with_reducible assumption
    | (with_reducible apply stages3_keeps)
    | (with_reducible apply updChip_keeps)
    | (with_reducible apply keeps_ite)
    | split

theorem resetRelease_keeps (hz : Keeps z s) : Keeps z (resetRelease s) := by
  unfold resetRelease
  repeat' first
    | with_reducible assumption
    | (with_reducible apply updChip_keeps)
    | (with_reducible apply aonReset_keeps)
    | (with_reducible apply powerUp_keeps)
    | (with_reducible apply updClk_keeps)
    | (with_reducible apply raise_keeps)
    | (with_reducible apply wr_keeps)
    | (with_reducible apply setCause_keeps)
    | (with_reducible apply updPwr_keeps)
    | (with_reducible apply stage2_keeps)
    | (with_reducible apply stage1_keeps)
    | (with_reducible apply stage_keeps)
    | (with_reducible apply stages3_keeps)
    | (with_reducible apply keeps_ite)
    | (intro b; refine (fun (_ : Keeps z b) => ?_) ?_; clear_value b; swap; dsimp only [b]; swap)
    | (intro b; clear_value b)
    | intro b
    | lift_lets
    | split

theorem perstOff_keeps {p : Port} (hz : Keeps z s) : Keeps z (perstOff s p) := by
  unfold perstOff
  repeat' first
    | with_reducible assumption
    | (with_reducible apply modPort_keeps)
    | (with_reducible apply portEnable_keeps)
    | (with_reducible apply keeps_ite)
    | (intro b; refine (fun (_ : Keeps z b) => ?_) ?_; clear_value b; swap; dsimp only [b]; swap)
    | (intro b; clear_value b)
    | intro b
    | lift_lets
    | split
    | (fail_if_no_progress with_reducible refine keeps_upd ?_ rfl rfl rfl)

theorem recomDone_keeps (hz : Keeps z s) : Keeps z (recomDone s) := by
  unfold recomDone
  repeat' first
    | with_reducible assumption
    | (with_reducible apply updTab_keeps)
    | (with_reducible apply updMap_keeps)
    | (with_reducible refine updBoot_keeps ?_ rfl)
    | (with_reducible apply setChip_keeps)
    | (with_reducible apply keeps_ite)
    | (intro b; refine (fun (_ : Keeps z b) => ?_) ?_; clear_value b; swap; dsimp only [b]; swap)
    | (intro b; clear_value b)
    | intro b
    | lift_lets
    | split

theorem recountEnd_keeps (hz : Keeps z s) : Keeps z (recountEnd s) := by
  unfold recountEnd
  repeat' first
    | with_reducible assumption
    | (with_reducible apply stage6_keeps)
    | (with_reducible apply recountDone_keeps)
    | (with_reducible apply keeps_ite)
    | split

theorem commitEnded_keeps {lines : List LineReq} (hz : Keeps z s) : Keeps z (commitEnded s lines) := by
  unfold commitEnded
  repeat' first
    | with_reducible assumption
    | (with_reducible apply stage6_keeps)
    | (with_reducible apply commitAck_keeps)
    | (with_reducible apply recomDone_keeps)
    | (with_reducible apply keeps_ite)
    | (intro b; refine (fun (_ : Keeps z b) => ?_) ?_; clear_value b; swap; dsimp only [b]; swap)
    | (intro b; clear_value b)
    | intro b
    | lift_lets
    | split

theorem hfeRaise_keeps {p : Port} {src : Nat} (hz : Keeps z s) : Keeps z (hfeRaise s p src) := by
  unfold hfeRaise
  repeat' first
    | with_reducible assumption
    | (with_reducible apply raise_keeps)

theorem drainStart_keeps {p : Port} {k : DrainKind} (hz : Keeps z s) : Keeps z (drainStart s p k) := by
  unfold drainStart
  repeat' first
    | with_reducible assumption
    | (with_reducible apply modPort_keeps)
    | (with_reducible apply modCmd_keeps)
    | (with_reducible refine updSec_keeps ?_ ⟨rfl, rfl⟩)
    | (with_reducible apply updRing_keeps)
    | (with_reducible apply endCmd_keeps)
    | (with_reducible apply pump_keeps)
    | (with_reducible apply proceedAll_keeps)
    | (with_reducible apply trkSettle_keeps)
    | (with_reducible apply keeps_ite)
    | (with_reducible apply keeps_ite_fst)
    | (with_reducible refine keeps_foldl (fun x b hx => ?_) ?_)
    | (with_reducible refine keeps_foldl_fst (fun x b hx => ?_) ?_)
    | (intro b; refine (fun (_ : Keeps z b) => ?_) ?_; clear_value b; swap; dsimp only [b]; swap)
    | (intro b; refine (fun (_ : Keeps z b.1) => ?_) ?_; clear_value b; swap; dsimp only [b]; swap)
    | (with_reducible apply hfn)
    | (intro b; refine (fun (hfn : ∀ x, Keeps z x → Keeps z (b x)) => ?_) ?_; clear_value b; swap; (intro x hx; dsimp only [b]); swap)
    | (intro b; refine (fun (hfn : ∀ x y, Keeps z x → Keeps z (b x y)) => ?_) ?_; clear_value b; swap; (intro x y hx; dsimp only [b]); swap)
    | (with_reducible apply hfc)
    | (with_reducible apply hfd)
    | (intro b; refine (fun (hfc : ∀ x, Keeps z (b x)) => ?_) ?_; clear_value b; swap; (intro x; dsimp only [b]); swap)
    | (intro b; refine (fun (hfd : ∀ x y, Keeps z (b x y)) => ?_) ?_; clear_value b; swap; (intro x y; dsimp only [b]); swap)
    | (intro b; clear_value b)
    | intro b
    | lift_lets
    | split
    | (fail_if_no_progress with_reducible refine keeps_upd ?_ rfl rfl rfl)
    | dsimp only

theorem controllerCleared_keeps {p : Port} (hz : Keeps z s) : Keeps z (controllerCleared s p) := by
  unfold controllerCleared
  repeat' first
    | with_reducible assumption
    | (with_reducible apply modPort_keeps)
    | (fail_if_no_progress with_reducible refine keeps_upd ?_ rfl rfl rfl)

theorem shutDown_keeps {p : Port} (hz : Keeps z s) : Keeps z (shutDown s p) := by
  unfold shutDown
  repeat' first
    | with_reducible assumption
    | (with_reducible apply modPort_keeps)
    | (fail_if_no_progress with_reducible refine keeps_upd ?_ rfl rfl rfl)

theorem drainEnd_keeps {p : Port} (hz : Keeps z s) : Keeps z (drainEnd s p) := by
  unfold drainEnd
  repeat' first
    | with_reducible assumption
    | (with_reducible apply modPort_keeps)
    | (with_reducible apply shutDown_keeps)
    | (with_reducible apply hfeRaise_keeps)
    | (with_reducible apply controllerCleared_keeps)
    | (with_reducible apply keeps_ite)
    | (intro b; refine (fun (_ : Keeps z b) => ?_) ?_; clear_value b; swap; dsimp only [b]; swap)
    | (intro b; clear_value b)
    | intro b
    | lift_lets
    | split
    | (fail_if_no_progress with_reducible refine keeps_upd ?_ rfl rfl rfl)
    | dsimp only

theorem enableController_keeps {p : Port} {cc : CcFields} {aqa : Aqa} (hz : Keeps z s) : Keeps z (enableController s p cc aqa) := by
  unfold enableController
  repeat' first
    | with_reducible assumption
    | (with_reducible apply hfeRaise_keeps)
    | (with_reducible apply setPort_keeps)
    | (with_reducible apply portReady_keeps)
    | (with_reducible apply keeps_ite)
    | (intro b; refine (fun (_ : Keeps z b) => ?_) ?_; clear_value b; swap; dsimp only [b]; swap)
    | (intro b; clear_value b)
    | intro b
    | lift_lets
    | split
    | (fail_if_no_progress with_reducible refine keeps_upd ?_ rfl rfl rfl)

theorem disableController_keeps {p : Port} (hz : Keeps z s) : Keeps z (disableController s p) := by
  unfold disableController
  repeat' first
    | with_reducible assumption
    | (with_reducible apply hfeRaise_keeps)
    | (with_reducible apply drainStart_keeps)
    | (with_reducible apply setPort_keeps)
    | (with_reducible apply keeps_ite)
    | (intro b; refine (fun (_ : Keeps z b) => ?_) ?_; clear_value b; swap; dsimp only [b]; swap)
    | (intro b; clear_value b)
    | intro b
    | lift_lets
    | split
    | (fail_if_no_progress with_reducible refine keeps_upd ?_ rfl rfl rfl)

theorem shutdownOrderly_keeps {p : Port} (hz : Keeps z s) : Keeps z (shutdownOrderly s p) := by
  unfold shutdownOrderly
  repeat' first
    | with_reducible assumption
    | (with_reducible apply hfeRaise_keeps)
    | (with_reducible apply setPort_keeps)
    | (with_reducible apply drainEnd_keeps)
    | (with_reducible apply keeps_ite)
    | (intro b; refine (fun (_ : Keeps z b) => ?_) ?_; clear_value b; swap; dsimp only [b]; swap)
    | (intro b; clear_value b)
    | intro b
    | lift_lets
    | split
    | (fail_if_no_progress with_reducible refine keeps_upd ?_ rfl rfl rfl)

theorem shutdownAtOnce_keeps {p : Port} (hz : Keeps z s) : Keeps z (shutdownAtOnce s p) := by
  unfold shutdownAtOnce
  repeat' first
    | with_reducible assumption
    | (with_reducible apply hfeRaise_keeps)
    | (with_reducible apply drainStart_keeps)
    | (with_reducible apply setPort_keeps)
    | (with_reducible apply keeps_ite)
    | (intro b; refine (fun (_ : Keeps z b) => ?_) ?_; clear_value b; swap; dsimp only [b]; swap)
    | (intro b; clear_value b)
    | intro b
    | lift_lets
    | split
    | (fail_if_no_progress with_reducible refine keeps_upd ?_ rfl rfl rfl)

theorem functionReset_keeps {p : Port} (hz : Keeps z s) : Keeps z (functionReset s p) := by
  unfold functionReset
  repeat' first
    | with_reducible assumption
    | (with_reducible apply wrField_keeps)
    | (with_reducible apply closeWin_keeps)
    | (with_reducible apply modPort_keeps)
    | (with_reducible apply keeps_ite)
    | (intro b; refine (fun (_ : Keeps z b) => ?_) ?_; clear_value b; swap; dsimp only [b]; swap)
    | (intro b; clear_value b)
    | intro b
    | lift_lets
    | split
    | (fail_if_no_progress with_reducible refine keeps_upd ?_ rfl rfl rfl)

theorem flr_keeps {p : Port} (hz : Keeps z s) : Keeps z (flr s p) := by
  unfold flr
  repeat' first
    | with_reducible assumption
    | (with_reducible apply drainStart_keeps)
    | (with_reducible apply wrField_keeps)
    | (with_reducible apply functionReset_keeps)
    | (with_reducible apply keeps_ite)
    | split

theorem dropLink_keeps {p : Port} {ltssm : Nat} (hz : Keeps z s) : Keeps z (dropLink s p ltssm) := by
  unfold dropLink
  repeat' first
    | with_reducible assumption
    | (with_reducible apply hfeRaise_keeps)
    | (with_reducible apply modPort_keeps)
    | (with_reducible apply wr_keeps)
    | (with_reducible apply keeps_ite)
    | split
    | (fail_if_no_progress with_reducible refine keeps_upd ?_ rfl rfl rfl)

theorem conventionalReset_keeps {p : Port} {perst : Bool} (hz : Keeps z s) : Keeps z (conventionalReset s p perst) := by
  unfold conventionalReset
  repeat' first
    | with_reducible assumption
    | (with_reducible apply modPort_keeps)
    | (with_reducible apply drainStart_keeps)
    | (with_reducible apply wrField_keeps)
    | (with_reducible apply functionReset_keeps)
    | (with_reducible apply dropLink_keeps)
    | (with_reducible apply keeps_ite)
    | (intro b; refine (fun (_ : Keeps z b) => ?_) ?_; clear_value b; swap; dsimp only [b]; swap)
    | (intro b; clear_value b)
    | intro b
    | lift_lets
    | split

theorem linkLost_keeps {p : Port} (hz : Keeps z s) : Keeps z (linkLost s p) := by
  unfold linkLost
  repeat' first
    | with_reducible assumption
    | (with_reducible apply drainStart_keeps)
    | (with_reducible apply wrField_keeps)
    | (with_reducible apply functionReset_keeps)
    | (with_reducible apply dropLink_keeps)
    | (with_reducible apply keeps_ite)
    | split

theorem linkTrained_keeps {p : Port} {rate : Nat} {width : Nat} {flit : Bool} (hz : Keeps z s) : Keeps z (linkTrained s p rate width flit) := by
  unfold linkTrained
  repeat' first
    | with_reducible assumption
    | (with_reducible apply emit_keeps)
    | (with_reducible apply wr_keeps)
    | (with_reducible apply hfeRaise_keeps)
    | (with_reducible apply modPort_keeps)
    | (with_reducible apply keeps_ite)
    | (intro b; refine (fun (_ : Keeps z b) => ?_) ?_; clear_value b; swap; dsimp only [b]; swap)
    | (intro b; clear_value b)
    | intro b
    | lift_lets
    | split

theorem ltrMessage_keeps {p : Port} {us : Nat} (hz : Keeps z s) : Keeps z (ltrMessage s p us) := by
  unfold ltrMessage
  repeat' first
    | with_reducible assumption
    | (with_reducible apply emit_keeps)
    | (with_reducible apply wrField_keeps)
    | (with_reducible apply setPort_keeps)
    | (with_reducible apply keeps_ite)
    | (intro b; refine (fun (_ : Keeps z b) => ?_) ?_; clear_value b; swap; dsimp only [b]; swap)
    | (intro b; clear_value b)
    | intro b
    | lift_lets
    | split
    | (fail_if_no_progress with_reducible refine keeps_upd ?_ rfl rfl rfl)
    | dsimp only

theorem dState_keeps {p : Port} {hot : Bool} (hz : Keeps z s) : Keeps z (dState s p hot) := by
  unfold dState
  repeat' first
    | with_reducible assumption
    | (with_reducible apply wrField_keeps)
    | (with_reducible apply setPort_keeps)
    | (with_reducible apply keeps_ite)
    | (intro b; refine (fun (_ : Keeps z b) => ?_) ?_; clear_value b; swap; dsimp only [b]; swap)
    | (intro b; clear_value b)
    | intro b
    | lift_lets
    | split
    | (fail_if_no_progress with_reducible refine keeps_upd ?_ rfl rfl rfl)

theorem ltrMaxSet_keeps {p : Port} {m : Nat} (hz : Keeps z s) : Keeps z (ltrMaxSet s p m) := by
  unfold ltrMaxSet
  repeat' first
    | with_reducible assumption
    | (with_reducible apply hfeRaise_keeps)
    | (with_reducible apply wrField_keeps)
    | (with_reducible apply modPort_keeps)
    | (with_reducible apply keeps_ite)
    | split

theorem configWrite_keeps {p : Port} {off : Nat} {v : Nat} (hz : Keeps z s) : Keeps z (configWrite s p off v) := by
  unfold configWrite
  repeat' first
    | with_reducible assumption
    | (with_reducible apply modPort_keeps)
    | (with_reducible apply dState_keeps)
    | (with_reducible apply msixFlush_keeps)
    | (with_reducible apply flr_keeps)
    | (with_reducible apply ltrMaxSet_keeps)
    | (with_reducible apply keeps_ite)
    | (with_reducible refine keeps_foldl (fun x b hx => ?_) ?_)
    | (intro b; refine (fun (_ : Keeps z b) => ?_) ?_; clear_value b; swap; dsimp only [b]; swap)
    | (intro b; clear_value b)
    | intro b
    | lift_lets
    | split
    | (fail_if_no_progress with_reducible refine keeps_upd ?_ rfl rfl rfl)

theorem configAccess_keeps {p : Port} {w : CfgReq} (hz : Keeps z s) : Keeps z (configAccess s p w) := by
  unfold configAccess
  repeat' first
    | with_reducible assumption
    | (with_reducible apply emit_keeps)
    | (with_reducible apply freshBelow_keeps)
    | (with_reducible apply configWrite_keeps)
    | (with_reducible apply dState_keeps)
    | (with_reducible apply modPort_keeps)
    | (with_reducible apply ltrMaxSet_keeps)
    | (with_reducible apply keeps_ite)
    | (with_reducible apply keeps_ite_fst)
    | (intro b; refine (fun (_ : Keeps z b) => ?_) ?_; clear_value b; swap; dsimp only [b]; swap)
    | (intro b; refine (fun (_ : Keeps z b.1) => ?_) ?_; clear_value b; swap; dsimp only [b]; swap)
    | (intro b; clear_value b)
    | intro b
    | lift_lets
    | split
    | (refine keeps_of_eq (by assumption) ?_)
    | dsimp only

theorem aerLog_keeps {p : Port} (hz : Keeps z s) : Keeps z (aerLog s p) := by
  unfold aerLog
  repeat' first
    | with_reducible assumption
    | (with_reducible apply freshBelow_keeps)
    | (with_reducible apply modPort_keeps)
    | (with_reducible apply keeps_ite)
    | (with_reducible apply keeps_ite_fst)
    | (intro b; refine (fun (_ : Keeps z b) => ?_) ?_; clear_value b; swap; dsimp only [b]; swap)
    | (intro b; refine (fun (_ : Keeps z b.1) => ?_) ?_; clear_value b; swap; dsimp only [b]; swap)
    | (intro b; clear_value b)
    | intro b
    | lift_lets
    | split
    | (refine keeps_of_eq (by assumption) ?_)
    | (fail_if_no_progress with_reducible refine keeps_upd ?_ rfl rfl rfl)
    | dsimp only

theorem pcieError_keeps {p : Port} {id : Option Nat} (hz : Keeps z s) : Keeps z (pcieError s p id) := by
  unfold pcieError
  repeat' first
    | with_reducible assumption
    | (with_reducible apply hfeRaise_keeps)
    | (with_reducible apply aerLog_keeps)
    | (with_reducible apply failCmd_keeps)
    | (with_reducible apply keeps_ite)
    | (intro b; refine (fun (_ : Keeps z b) => ?_) ?_; clear_value b; swap; dsimp only [b]; swap)
    | (intro b; clear_value b)
    | intro b
    | lift_lets
    | split
    | dsimp only

end Sys2Proof.Machine
end

