-- ==== Sys2Proof/Laws/KeepsAdmin.lean ====
section
/-! SUPPORT. What the operations keep (Laws/Keeps.lean): administrative commands. One law for each operation. -/

set_option Elab.async false
set_option linter.unusedTactic false
set_option linter.unreachableTactic false

namespace Sys2Proof.Machine

variable {z s : State}

theorem admin_keeps {q : Sqe} {f : State → State} (hz : Keeps z s) (hf : ∀ t, Keeps z t → Keeps z (f t)) : Keeps z (admin s q f) := by
  unfold admin
  repeat' first
    | with_reducible assumption
    | (with_reducible apply takeAdmin_keeps)
    | (with_reducible apply keeps_ite)
    | (with_reducible apply hf)
    | split

theorem adminClean_keeps {q : Sqe} {f : State → State} (hz : Keeps z s) (hf : ∀ t, Keeps z t → Keeps z (f t)) : Keeps z (adminClean s q f) := by
  unfold adminClean
  repeat' first
    | with_reducible assumption
    | (with_reducible refine admin_keeps ?_ (fun x hx => ?_))
    | (with_reducible apply complete_keeps)
    | (with_reducible apply keeps_ite)
    | (with_reducible apply hf)
    | split

theorem vendorCmd_keeps {q : Sqe} {f : State → State} (hz : Keeps z s) (hf : ∀ t, Keeps z t → Keeps z (f t)) : Keeps z (vendorCmd s q f) := by
  unfold vendorCmd
  repeat' first
    | with_reducible assumption
    | (with_reducible refine admin_keeps ?_ (fun x hx => ?_))
    | (with_reducible apply complete_keeps)
    | (with_reducible apply keeps_ite)
    | (with_reducible apply hf)
    | split

theorem createCq_keeps {q : Sqe} {qid : Nat} {size : Nat} {vector : Nat} {ien : Bool} {pc : Bool} {aligned : Bool} (hz : Keeps z s) : Keeps z (createCq s q qid size vector ien pc aligned) := by
  unfold createCq
  repeat' first
    | with_reducible assumption
    | (with_reducible refine admin_keeps ?_ (fun x hx => ?_))
    | (with_reducible apply complete_keeps)
    | (with_reducible apply setPort_keeps)
    | (with_reducible apply keeps_ite)
    | (intro b; refine (fun (_ : Keeps z b) => ?_) ?_; clear_value b; swap; dsimp only [b]; swap)
    | (intro b; clear_value b)
    | intro b
    | lift_lets
    | split
    | (fail_if_no_progress with_reducible refine keeps_upd ?_ rfl rfl rfl)

theorem createSq_keeps {q : Sqe} {qid : Nat} {size : Nat} {cqid : Nat} {prio : Nat} {fsm : Nat} {pc : Bool} {aligned : Bool} (hz : Keeps z s) : Keeps z (createSq s q qid size cqid prio fsm pc aligned) := by
  unfold createSq
  repeat' first
    | with_reducible assumption
    | (with_reducible refine admin_keeps ?_ (fun x hx => ?_))
    | (with_reducible apply complete_keeps)
    | (with_reducible apply setPort_keeps)
    | (with_reducible apply keeps_ite)
    | (intro b; refine (fun (_ : Keeps z b) => ?_) ?_; clear_value b; swap; dsimp only [b]; swap)
    | (intro b; clear_value b)
    | intro b
    | lift_lets
    | split
    | (fail_if_no_progress with_reducible refine keeps_upd ?_ rfl rfl rfl)

theorem deleteSq_keeps {q : Sqe} {qid : Nat} (hz : Keeps z s) : Keeps z (deleteSq s q qid) := by
  unfold deleteSq
  repeat' first
    | with_reducible assumption
    | (with_reducible refine admin_keeps ?_ (fun x hx => ?_))
    | (with_reducible apply complete_keeps)
    | (with_reducible apply setPort_keeps)
    | (with_reducible apply deleteSettled_keeps)
    | (with_reducible apply trkSettle_keeps)
    | (with_reducible apply failCmd_keeps)
    | (with_reducible apply endCmd_keeps)
    | (with_reducible apply keeps_ite)
    | (with_reducible apply keeps_ite_fst)
    | (with_reducible refine keeps_foldl (fun x b hx => ?_) ?_)
    | (with_reducible refine keeps_foldl_fst (fun x b hx => ?_) ?_)
    | (intro b; refine (fun (_ : Keeps z b) => ?_) ?_; clear_value b; swap; dsimp only [b]; swap)
    | (intro b; refine (fun (_ : Keeps z b.1) => ?_) ?_; clear_value b; swap; dsimp only [b]; swap)
    | (intro b; clear_value b)
    | intro b
    | lift_lets
    | split
    | (fail_if_no_progress with_reducible refine keeps_upd ?_ rfl rfl rfl)
    | dsimp only

theorem deleteCq_keeps {q : Sqe} {qid : Nat} (hz : Keeps z s) : Keeps z (deleteCq s q qid) := by
  unfold deleteCq
  repeat' first
    | with_reducible assumption
    | (with_reducible refine admin_keeps ?_ (fun x hx => ?_))
    | (with_reducible apply complete_keeps)
    | (with_reducible apply setPort_keeps)
    | (with_reducible apply keeps_ite)
    | (with_reducible apply keeps_ite_fst)
    | (intro b; refine (fun (_ : Keeps z b) => ?_) ?_; clear_value b; swap; dsimp only [b]; swap)
    | (intro b; refine (fun (_ : Keeps z b.1) => ?_) ?_; clear_value b; swap; dsimp only [b]; swap)
    | (intro b; clear_value b)
    | intro b
    | lift_lets
    | split
    | (fail_if_no_progress with_reducible refine keeps_upd ?_ rfl rfl rfl)

theorem resumeQ_keeps {q : Sqe} {sqid : Nat} (hz : Keeps z s) : Keeps z (resumeQ s q sqid) := by
  unfold resumeQ
  repeat' first
    | with_reducible assumption
    | (with_reducible refine vendorCmd_keeps ?_ (fun x hx => ?_))
    | (with_reducible apply complete_keeps)
    | (with_reducible apply raise_keeps)
    | (with_reducible apply setPort_keeps)
    | (with_reducible apply keeps_ite)
    | (intro b; refine (fun (_ : Keeps z b) => ?_) ?_; clear_value b; swap; dsimp only [b]; swap)
    | (intro b; clear_value b)
    | intro b
    | lift_lets
    | split
    | (fail_if_no_progress with_reducible refine keeps_upd ?_ rfl rfl rfl)
    | dsimp only

theorem aerRequest_keeps {q : Sqe} (hz : Keeps z s) : Keeps z (aerRequest s q) := by
  unfold aerRequest
  repeat' first
    | with_reducible assumption
    | (with_reducible refine admin_keeps ?_ (fun x hx => ?_))
    | (with_reducible apply complete_keeps)
    | (with_reducible apply aerDeliver_keeps)
    | (with_reducible apply setPort_keeps)
    | (with_reducible apply keeps_ite)
    | (intro b; refine (fun (_ : Keeps z b) => ?_) ?_; clear_value b; swap; dsimp only [b]; swap)
    | (intro b; clear_value b)
    | intro b
    | lift_lets
    | split
    | (fail_if_no_progress with_reducible refine keeps_upd ?_ rfl rfl rfl)

theorem attachNs_keeps {q : Sqe} {detach : Bool} {ctrls : List Nat} (hz : Keeps z s) : Keeps z (attachNs s q detach ctrls) := by
  unfold attachNs
  repeat' first
    | with_reducible assumption
    | (with_reducible refine adminClean_keeps ?_ (fun x hx => ?_))
    | (with_reducible apply complete_keeps)
    | (with_reducible apply updTab_keeps)
    | (with_reducible apply modPort_keeps)
    | (with_reducible apply nsChanged_keeps)
    | (with_reducible apply keeps_ite)
    | (with_reducible apply keeps_ite_fst)
    | (with_reducible refine keeps_foldl (fun x b hx => ?_) ?_)
    | (with_reducible refine keeps_foldl_fst (fun x b hx => ?_) ?_)
    | (intro b; refine (fun (_ : Keeps z b) => ?_) ?_; clear_value b; swap; dsimp only [b]; swap)
    | (intro b; refine (fun (_ : Keeps z b.1) => ?_) ?_; clear_value b; swap; dsimp only [b]; swap)
    | (intro b; clear_value b)
    | intro b
    | lift_lets
    | split
    | (fail_if_no_progress with_reducible refine keeps_upd ?_ rfl rfl rfl)
    | dsimp only

theorem dirSend_keeps {q : Sqe} {dtype : Nat} {doper : Nat} {dspec : Nat} {val : Nat} (hz : Keeps z s) : Keeps z (dirSend s q dtype doper dspec val) := by
  unfold dirSend
  repeat' first
    | with_reducible assumption
    | (with_reducible refine adminClean_keeps ?_ (fun x hx => ?_))
    | (with_reducible apply complete_keeps)
    | (with_reducible apply setPort_keeps)
    | (with_reducible apply keeps_ite)
    | (with_reducible apply keeps_ite_fst)
    | (intro b; refine (fun (_ : Keeps z b) => ?_) ?_; clear_value b; swap; dsimp only [b]; swap)
    | (intro b; refine (fun (_ : Keeps z b.1) => ?_) ?_; clear_value b; swap; dsimp only [b]; swap)
    | (intro b; clear_value b)
    | intro b
    | lift_lets
    | split
    | (fail_if_no_progress with_reducible refine keeps_upd ?_ rfl rfl rfl)

theorem dirReceive_keeps {q : Sqe} {dtype : Nat} {doper : Nat} {val : Nat} (hz : Keeps z s) : Keeps z (dirReceive s q dtype doper val) := by
  unfold dirReceive
  repeat' first
    | with_reducible assumption
    | (with_reducible refine adminClean_keeps ?_ (fun x hx => ?_))
    | (with_reducible apply complete_keeps)
    | (with_reducible apply reply_keeps)
    | (with_reducible apply setPort_keeps)
    | (with_reducible apply keeps_ite)
    | (with_reducible apply keeps_ite_fst)
    | (intro b; refine (fun (_ : Keeps z b) => ?_) ?_; clear_value b; swap; dsimp only [b]; swap)
    | (intro b; refine (fun (_ : Keeps z b.1) => ?_) ?_; clear_value b; swap; dsimp only [b]; swap)
    | (intro b; clear_value b)
    | intro b
    | lift_lets
    | split
    | (fail_if_no_progress with_reducible refine keeps_upd ?_ rfl rfl rfl)

theorem download_keeps {q : Sqe} {numd : Nat} {ofst : Nat} {data : List Byte} (hz : Keeps z s) : Keeps z (download s q numd ofst data) := by
  unfold download
  repeat' first
    | with_reducible assumption
    | (with_reducible refine adminClean_keeps ?_ (fun x hx => ?_))
    | (with_reducible apply complete_keeps)
    | (with_reducible refine updSec_keeps ?_ ⟨rfl, rfl⟩)
    | (with_reducible apply keeps_ite)
    | (with_reducible apply keeps_ite_fst)
    | (with_reducible refine keeps_foldl (fun x b hx => ?_) ?_)
    | (with_reducible refine keeps_foldl_fst (fun x b hx => ?_) ?_)
    | (intro b; refine (fun (_ : Keeps z b) => ?_) ?_; clear_value b; swap; dsimp only [b]; swap)
    | (intro b; refine (fun (_ : Keeps z b.1) => ?_) ?_; clear_value b; swap; dsimp only [b]; swap)
    | (with_reducible apply hfn)
    | (intro b; refine (fun (hfn : ∀ x, Keeps z x → Keeps z (b x)) => ?_) ?_; clear_value b; swap; (intro x hx; dsimp only [b]); swap)
    | (intro b; refine (fun (hfn : ∀ x y, Keeps z x → Keeps z (b x y)) => ?_) ?_; clear_value b; swap; (intro x y hx; dsimp only [b]); swap)
    | (with_reducible apply hfc)
    | (with_reducible apply hfd)
    | (intro b; refine (fun (hfc : ∀ x, Keeps z (b x)) => ?_) ?_; clear_value b; swap; (intro x; dsimp only [b]); swap)
    | (intro b; refine (fun (hfd : ∀ x y, Keeps z (b x y)) => ?_) ?_; clear_value b; swap; (intro x y; dsimp only [b]); swap)
    | (intro b; clear_value b)
    | intro b
    | lift_lets
    | split
    | (fail_if_no_progress with_reducible refine keeps_upd ?_ rfl rfl rfl)
    | dsimp only

theorem nameSlot_keeps {slot : Nat} (hz : Keeps z s) : Keeps z (nameSlot s slot) := by
  unfold nameSlot
  repeat' first
    | with_reducible assumption
    | (with_reducible apply writeRecordCopy_keeps)
    | split
    | dsimp only

theorem ownRecord_keeps (hz : Keeps z s) : Keeps z (ownRecord s) := by
  unfold ownRecord
  repeat' first
    | with_reducible assumption
    | (with_reducible apply nameSlot_keeps)
    | (with_reducible apply keeps_ite)
    | (intro b; refine (fun (_ : Keeps z b) => ?_) ?_; clear_value b; swap; dsimp only [b]; swap)
    | (intro b; clear_value b)
    | intro b
    | lift_lets
    | split
    | dsimp only

theorem commitBegin_keeps (hz : Keeps z s) : Keeps z (commitBegin s) := by
  unfold commitBegin
  repeat' first
    | with_reducible assumption
    | (with_reducible refine updBoot_keeps ?_ rfl)
    | (with_reducible refine updSec_keeps ?_ ⟨rfl, rfl⟩)
    | (with_reducible apply keeps_ite)
    | (intro b; refine (fun (_ : Keeps z b) => ?_) ?_; clear_value b; swap; dsimp only [b]; swap)
    | (intro b; clear_value b)
    | intro b
    | lift_lets
    | split
    | (fail_if_no_progress with_reducible refine keeps_upd ?_ rfl rfl rfl)
    | dsimp only

theorem commitImage_keeps {q : Sqe} {ca : Nat} {fs : Nat} {bpid : Bool} (hz : Keeps z s) : Keeps z (commitImage s q ca fs bpid) := by
  unfold commitImage
  repeat' first
    | with_reducible assumption
    | (with_reducible refine admin_keeps ?_ (fun x hx => ?_))
    | (with_reducible apply complete_keeps)
    | (with_reducible apply ownRecord_keeps)
    | (with_reducible apply commitBegin_keeps)
    | (with_reducible refine updSec_keeps ?_ ⟨rfl, rfl⟩)
    | (with_reducible apply keeps_ite)
    | (intro b; refine (fun (_ : Keeps z b) => ?_) ?_; clear_value b; swap; dsimp only [b]; swap)
    | (intro b; clear_value b)
    | intro b
    | lift_lets
    | split
    | (fail_if_no_progress with_reducible refine keeps_upd ?_ rfl rfl rfl)
    | dsimp only

theorem commitNamed_keeps {q : Sqe} {fs : Nat} {bpid : Bool} (hz : Keeps z s) : Keeps z (commitNamed s q fs bpid) := by
  unfold commitNamed
  repeat' first
    | with_reducible assumption
    | (with_reducible refine admin_keeps ?_ (fun x hx => ?_))
    | (with_reducible apply complete_keeps)
    | (with_reducible apply ownRecord_keeps)
    | (with_reducible apply nameSlot_keeps)
    | (with_reducible apply keeps_ite)
    | (intro b; refine (fun (_ : Keeps z b) => ?_) ?_; clear_value b; swap; dsimp only [b]; swap)
    | (intro b; clear_value b)
    | intro b
    | lift_lets
    | split

theorem norNext_keeps (hz : Keeps z s) : Keeps z (norNext s) := by
  unfold norNext
  repeat' first
    | with_reducible assumption
    | (with_reducible apply relayBegin_keeps)
    | (with_reducible apply commitBegin_keeps)

theorem norEnd_keeps {mismatch : Bool} {timeout : Bool} (hz : Keeps z s) : Keeps z (norEnd s mismatch timeout) := by
  unfold norEnd
  repeat' first
    | with_reducible assumption
    | (with_reducible apply norNext_keeps)
    | (with_reducible apply norDone_keeps)
    | (with_reducible apply norApply_keeps)
    | (with_reducible apply xipServe_keeps)
    | (with_reducible refine updBoot_keeps ?_ rfl)
    | (with_reducible apply commitEnd_keeps)
    | (with_reducible apply offerImage_keeps)
    | (with_reducible apply nameSlot_keeps)
    | (with_reducible apply commitActivate_keeps)
    | (with_reducible apply keeps_ite)
    | (intro b; refine (fun (_ : Keeps z b) => ?_) ?_; clear_value b; swap; dsimp only [b]; swap)
    | (intro b; clear_value b)
    | intro b
    | lift_lets
    | split
    | dsimp only

theorem secSend_keeps {q : Sqe} {secp : Nat} {req : SpdmReq} (hz : Keeps z s) : Keeps z (secSend s q secp req) := by
  unfold secSend
  repeat' first
    | with_reducible assumption
    | (with_reducible refine adminClean_keeps ?_ (fun x hx => ?_))
    | (with_reducible apply complete_keeps)
    | (with_reducible apply spdm_keeps)
    | (with_reducible apply keeps_ite)
    | split

theorem secReceive_keeps {q : Sqe} {secp : Nat} (hz : Keeps z s) : Keeps z (secReceive s q secp) := by
  unfold secReceive
  repeat' first
    | with_reducible assumption
    | (with_reducible refine adminClean_keeps ?_ (fun x hx => ?_))
    | (with_reducible apply complete_keeps)
    | (with_reducible apply reply_keeps)
    | (with_reducible apply replyBytes_keeps)
    | (with_reducible apply setPort_keeps)
    | (with_reducible apply keeps_ite)
    | (intro b; refine (fun (_ : Keeps z b) => ?_) ?_; clear_value b; swap; dsimp only [b]; swap)
    | (intro b; clear_value b)
    | intro b
    | lift_lets
    | split
    | (fail_if_no_progress with_reducible refine keeps_upd ?_ rfl rfl rfl)
    | dsimp only

theorem shedFetch_keeps {body : Instr} {q : Sqe} {rs : List LetterRange} (hz : Keeps z s) : Keeps z (shedFetch s body q rs) := by
  unfold shedFetch
  repeat' first
    | with_reducible assumption
    | (with_reducible apply takeFirm_keeps)
    | (with_reducible apply turnAway_keeps)
    | (with_reducible apply enterTracker_keeps)
    | (with_reducible apply keeps_ite)
    | (with_reducible refine keeps_foldl (fun x b hx => ?_) ?_)
    | (intro b; refine (fun (_ : Keeps z b) => ?_) ?_; clear_value b; swap; dsimp only [b]; swap)
    | (intro b; clear_value b)
    | intro b
    | lift_lets
    | split
    | dsimp only

theorem shedFreeFetch_keeps {body : Instr} {q : Sqe} {letters : Nat} (hz : Keeps z s) : Keeps z (shedFreeFetch s body q letters) := by
  unfold shedFreeFetch
  repeat' first
    | with_reducible assumption
    | (with_reducible apply takeFirm_keeps)
    | (with_reducible apply turnAway_keeps)
    | (with_reducible apply enterTracker_keeps)
    | (with_reducible apply keeps_ite)
    | (intro b; refine (fun (_ : Keeps z b) => ?_) ?_; clear_value b; swap; dsimp only [b]; swap)
    | (intro b; clear_value b)
    | intro b
    | lift_lets
    | split
    | dsimp only

theorem schedSet_keeps {q : Sqe} {d : SchedDesc} (hz : Keeps z s) : Keeps z (schedSet s q d) := by
  unfold schedSet
  repeat' first
    | with_reducible assumption
    | (with_reducible refine vendorCmd_keeps ?_ (fun x hx => ?_))
    | (with_reducible apply complete_keeps)
    | (with_reducible apply schedInstall_keeps)
    | (with_reducible apply updRing_keeps)
    | (with_reducible apply schedPublish_keeps)
    | (with_reducible apply sendSched_keeps)
    | (with_reducible apply keeps_ite)
    | (with_reducible apply keeps_ite_fst)
    | (intro b; refine (fun (_ : Keeps z b) => ?_) ?_; clear_value b; swap; dsimp only [b]; swap)
    | (intro b; refine (fun (_ : Keeps z b.1) => ?_) ?_; clear_value b; swap; dsimp only [b]; swap)
    | (intro b; clear_value b)
    | intro b
    | lift_lets
    | split

theorem schedTimeout_keeps (hz : Keeps z s) : Keeps z (schedTimeout s) := by
  unfold schedTimeout
  repeat' first
    | with_reducible assumption
    | (with_reducible apply complete_keeps)
    | (with_reducible apply updRing_keeps)
    | split
    | dsimp only

theorem schedGet_keeps {q : Sqe} (hz : Keeps z s) : Keeps z (schedGet s q) := by
  unfold schedGet
  repeat' first
    | with_reducible assumption
    | (with_reducible refine vendorCmd_keeps ?_ (fun x hx => ?_))
    | (with_reducible apply complete_keeps)
    | (with_reducible apply replyBytes_keeps)
    | (with_reducible apply keeps_ite)
    | (intro b; refine (fun (_ : Keeps z b) => ?_) ?_; clear_value b; swap; dsimp only [b]; swap)
    | (intro b; clear_value b)
    | intro b
    | lift_lets
    | split
    | dsimp only

theorem recRead_keeps {q : Sqe} {start : Nat} {length : Nat} {found : Bool} (hz : Keeps z s) : Keeps z (recRead s q start length found) := by
  unfold recRead
  repeat' first
    | with_reducible assumption
    | (with_reducible refine vendorCmd_keeps ?_ (fun x hx => ?_))
    | (with_reducible apply complete_keeps)
    | (with_reducible apply reply_keeps)
    | (with_reducible apply keeps_ite)
    | (with_reducible apply keeps_ite_fst)
    | (intro b; refine (fun (_ : Keeps z b) => ?_) ?_; clear_value b; swap; dsimp only [b]; swap)
    | (intro b; refine (fun (_ : Keeps z b.1) => ?_) ?_; clear_value b; swap; dsimp only [b]; swap)
    | (intro b; clear_value b)
    | intro b
    | lift_lets
    | split
    | (refine keeps_of_eq (by assumption) ?_)
    | dsimp only

theorem depotOpen_keeps {q : Sqe} {session : Nat} {w : Window} (hz : Keeps z s) : Keeps z (depotOpen s q session w) := by
  unfold depotOpen
  repeat' first
    | with_reducible assumption
    | (with_reducible refine vendorCmd_keeps ?_ (fun x hx => ?_))
    | (with_reducible apply complete_keeps)
    | (with_reducible apply denyAccess_keeps)
    | (with_reducible apply setWin_keeps)
    | (with_reducible refine updSec_keeps ?_ ⟨rfl, rfl⟩)
    | (with_reducible apply keeps_ite)
    | (intro b; refine (fun (_ : Keeps z b) => ?_) ?_; clear_value b; swap; dsimp only [b]; swap)
    | (with_reducible apply hfn)
    | (intro b; refine (fun (hfn : ∀ x, Keeps z x → Keeps z (b x)) => ?_) ?_; clear_value b; swap; (intro x hx; dsimp only [b]); swap)
    | (intro b; refine (fun (hfn : ∀ x y, Keeps z x → Keeps z (b x y)) => ?_) ?_; clear_value b; swap; (intro x y hx; dsimp only [b]); swap)
    | (with_reducible apply hfc)
    | (with_reducible apply hfd)
    | (intro b; refine (fun (hfc : ∀ x, Keeps z (b x)) => ?_) ?_; clear_value b; swap; (intro x; dsimp only [b]); swap)
    | (intro b; refine (fun (hfd : ∀ x y, Keeps z (b x y)) => ?_) ?_; clear_value b; swap; (intro x y; dsimp only [b]); swap)
    | (intro b; clear_value b)
    | intro b
    | lift_lets
    | split
    | dsimp only

theorem depotClose_keeps {q : Sqe} (hz : Keeps z s) : Keeps z (depotClose s q) := by
  unfold depotClose
  repeat' first
    | with_reducible assumption
    | (with_reducible refine vendorCmd_keeps ?_ (fun x hx => ?_))
    | (with_reducible apply complete_keeps)
    | (with_reducible apply closeWin_keeps)

theorem identifyCmd_keeps {q : Sqe} {cns : Nat} {cntid : Nat} (hz : Keeps z s) : Keeps z (identifyCmd s q cns cntid) := by
  unfold identifyCmd
  repeat' first
    | with_reducible assumption
    | (with_reducible refine admin_keeps ?_ (fun x hx => ?_))
    | (with_reducible apply complete_keeps)
    | (with_reducible apply reply_keeps)
    | (with_reducible apply keeps_ite)
    | (with_reducible apply keeps_ite_fst)
    | (intro b; refine (fun (_ : Keeps z b) => ?_) ?_; clear_value b; swap; dsimp only [b]; swap)
    | (intro b; refine (fun (_ : Keeps z b.1) => ?_) ?_; clear_value b; swap; dsimp only [b]; swap)
    | (with_reducible apply hfn)
    | (intro b; refine (fun (hfn : ∀ x, Keeps z x → Keeps z (b x)) => ?_) ?_; clear_value b; swap; (intro x hx; dsimp only [b]); swap)
    | (intro b; refine (fun (hfn : ∀ x y, Keeps z x → Keeps z (b x y)) => ?_) ?_; clear_value b; swap; (intro x y hx; dsimp only [b]); swap)
    | (with_reducible apply hfc)
    | (with_reducible apply hfd)
    | (intro b; refine (fun (hfc : ∀ x, Keeps z (b x)) => ?_) ?_; clear_value b; swap; (intro x; dsimp only [b]); swap)
    | (intro b; refine (fun (hfd : ∀ x y, Keeps z (b x y)) => ?_) ?_; clear_value b; swap; (intro x y; dsimp only [b]); swap)
    | (intro b; clear_value b)
    | intro b
    | lift_lets
    | split
    | dsimp only

theorem logAnswer_keeps {q : Sqe} {lid : Nat} {size : Nat} {lpo : Nat} {rae : Bool} {l : List (Nat × Nat × Nat)} (hz : Keeps z s) : Keeps z (logAnswer s q lid size lpo rae l) := by
  unfold logAnswer
  repeat' first
    | with_reducible assumption
    | (with_reducible apply complete_keeps)
    | (with_reducible apply replyBytes_keeps)
    | (with_reducible apply aerClear_keeps)
    | (with_reducible apply keeps_ite)
    | (with_reducible apply keeps_ite_fst)
    | (intro b; refine (fun (_ : Keeps z b) => ?_) ?_; clear_value b; swap; dsimp only [b]; swap)
    | (intro b; refine (fun (_ : Keeps z b.1) => ?_) ?_; clear_value b; swap; dsimp only [b]; swap)
    | (intro b; clear_value b)
    | intro b
    | lift_lets
    | split

theorem dloPage_keeps {q : Sqe} {lsp : Nat} {lpo : Nat} {rae : Bool} (hz : Keeps z s) : Keeps z (dloPage s q lsp lpo rae) := by
  unfold dloPage
  repeat' first
    | with_reducible assumption
    | (with_reducible apply dloEval_keeps)
    | (with_reducible apply logAnswer_keeps)
    | (intro b; refine (fun (_ : Keeps z b) => ?_) ?_; clear_value b; swap; dsimp only [b]; swap)
    | (intro b; clear_value b)
    | intro b
    | lift_lets

theorem logPage_keeps {q : Sqe} {lid : Nat} {lsp : Nat} {lpo : Nat} {rae : Bool} (hz : Keeps z s) : Keeps z (logPage s q lid lsp lpo rae) := by
  unfold logPage
  repeat' first
    | with_reducible assumption
    | (with_reducible apply logAnswer_keeps)
    | (with_reducible apply modPort_keeps)
    | (with_reducible apply dloPage_keeps)
    | (with_reducible apply complete_keeps)
    | (with_reducible apply keeps_ite)
    | (intro b; refine (fun (_ : Keeps z b) => ?_) ?_; clear_value b; swap; dsimp only [b]; swap)
    | (intro b; clear_value b)
    | intro b
    | lift_lets
    | split
    | (fail_if_no_progress with_reducible refine keeps_upd ?_ rfl rfl rfl)
    | dsimp only

theorem getLog_keeps {q : Sqe} {lid : Nat} {lsp : Nat} {lpo : Nat} {rae : Bool} (hz : Keeps z s) : Keeps z (getLog s q lid lsp lpo rae) := by
  unfold getLog
  repeat' first
    | with_reducible assumption
    | (with_reducible refine admin_keeps ?_ (fun x hx => ?_))
    | (with_reducible apply logPage_keeps)

theorem putFeat_keeps {p : Port} {k : Nat} {v : Nat} (hz : Keeps z s) : Keeps z (putFeat s p k v) := by
  unfold putFeat
  repeat' first
    | with_reducible assumption
    | (with_reducible apply modPort_keeps)
    | (fail_if_no_progress with_reducible refine keeps_upd ?_ rfl rfl rfl)

theorem featPower_keeps {q : Sqe} {ps : Nat} {sv : Bool} (hz : Keeps z s) : Keeps z (featPower s q ps sv) := by
  unfold featPower
  repeat' first
    | with_reducible assumption
    | (with_reducible apply complete_keeps)
    | (with_reducible apply psSet_keeps)
    | (with_reducible apply keeps_ite)
    | split

theorem featPlm_keeps {q : Sqe} {window : Nat} (hz : Keeps z s) : Keeps z (featPlm s q window) := by
  unfold featPlm
  repeat' first
    | with_reducible assumption
    | (with_reducible apply complete_keeps)
    | (with_reducible apply keeps_ite)
    | split

theorem featLatency_keeps {q : Sqe} {us : Nat} {sv : Bool} (hz : Keeps z s) : Keeps z (featLatency s q us sv) := by
  unfold featLatency
  repeat' first
    | with_reducible assumption
    | (with_reducible apply complete_keeps)
    | (with_reducible apply putFeat_keeps)
    | (with_reducible apply keeps_ite)
    | split

theorem featFailStop_keeps {q : Sqe} {cdw11 : Nat} {sv : Bool} (hz : Keeps z s) : Keeps z (featFailStop s q cdw11 sv) := by
  unfold featFailStop
  repeat' first
    | with_reducible assumption
    | (with_reducible apply complete_keeps)
    | (with_reducible apply putFeat_keeps)
    | (with_reducible apply keeps_ite)
    | split

theorem featPatrol_keeps {q : Sqe} {cdw11 : Nat} {sv : Bool} (hz : Keeps z s) : Keeps z (featPatrol s q cdw11 sv) := by
  unfold featPatrol
  repeat' first
    | with_reducible assumption
    | (with_reducible apply complete_keeps)
    | (with_reducible apply wrField_keeps)
    | (with_reducible apply updPat_keeps)
    | (with_reducible apply catchup_keeps)
    | (with_reducible apply keeps_ite)
    | (intro b; refine (fun (_ : Keeps z b) => ?_) ?_; clear_value b; swap; dsimp only [b]; swap)
    | (intro b; clear_value b)
    | intro b
    | lift_lets
    | split

theorem setStamp_keeps {ms : Nat} (hz : Keeps z s) : Keeps z (setStamp s ms) := by
  unfold setStamp
  repeat' first
    | with_reducible assumption
    | (with_reducible apply updPat_keeps)
    | (intro b; refine (fun (_ : Keeps z b) => ?_) ?_; clear_value b; swap; dsimp only [b]; swap)
    | (intro b; clear_value b)
    | intro b
    | lift_lets
    | split
    | dsimp only

theorem featSet_keeps {q : Sqe} {fid : Nat} {sv : Bool} {v : FeatVal} (hz : Keeps z s) : Keeps z (featSet s q fid sv v) := by
  unfold featSet
  repeat' first
    | with_reducible assumption
    | (with_reducible apply complete_keeps)
    | (with_reducible apply putFeat_keeps)
    | (with_reducible apply featPower_keeps)
    | (with_reducible apply setStamp_keeps)
    | (with_reducible apply featPlm_keeps)
    | (with_reducible apply featLatency_keeps)
    | (with_reducible apply featFailStop_keeps)
    | (with_reducible apply featPatrol_keeps)
    | (with_reducible apply keeps_ite)
    | (with_reducible apply keeps_ite_fst)
    | (intro b; refine (fun (_ : Keeps z b) => ?_) ?_; clear_value b; swap; dsimp only [b]; swap)
    | (intro b; refine (fun (_ : Keeps z b.1) => ?_) ?_; clear_value b; swap; dsimp only [b]; swap)
    | (with_reducible apply hfn)
    | (intro b; refine (fun (hfn : ∀ x, Keeps z x → Keeps z (b x)) => ?_) ?_; clear_value b; swap; (intro x hx; dsimp only [b]); swap)
    | (intro b; refine (fun (hfn : ∀ x y, Keeps z x → Keeps z (b x y)) => ?_) ?_; clear_value b; swap; (intro x y hx; dsimp only [b]); swap)
    | (with_reducible apply hfc)
    | (with_reducible apply hfd)
    | (intro b; refine (fun (hfc : ∀ x, Keeps z (b x)) => ?_) ?_; clear_value b; swap; (intro x; dsimp only [b]); swap)
    | (intro b; refine (fun (hfd : ∀ x y, Keeps z (b x y)) => ?_) ?_; clear_value b; swap; (intro x y; dsimp only [b]); swap)
    | (intro b; clear_value b)
    | intro b
    | lift_lets
    | split
    | dsimp only

theorem setFeatures_keeps {q : Sqe} {fid : Nat} {sv : Bool} {v : FeatVal} (hz : Keeps z s) : Keeps z (setFeatures s q fid sv v) := by
  unfold setFeatures
  repeat' first
    | with_reducible assumption
    | (with_reducible refine admin_keeps ?_ (fun x hx => ?_))
    | (with_reducible apply featSet_keeps)

theorem getFeatures_keeps {q : Sqe} {fid : Nat} {sel : Nat} {cdw11 : Nat} (hz : Keeps z s) : Keeps z (getFeatures s q fid sel cdw11) := by
  unfold getFeatures
  repeat' first
    | with_reducible assumption
    | (with_reducible refine admin_keeps ?_ (fun x hx => ?_))
    | (with_reducible apply complete_keeps)
    | (with_reducible apply replyBytes_keeps)
    | (with_reducible apply keeps_ite)
    | (intro b; refine (fun (_ : Keeps z b) => ?_) ?_; clear_value b; swap; dsimp only [b]; swap)
    | (intro b; clear_value b)
    | intro b
    | lift_lets
    | split
    | dsimp only

end Sys2Proof.Machine
end

