-- ==== Sys2Proof/Laws/KeepsRegs.lean ====
section
/-! SUPPORT. What the operations keep (Laws/Keeps.lean): register accesses and the commands of one line. One law for each operation. -/

set_option Elab.async false
set_option linter.unusedTactic false
set_option linter.unreachableTactic false

namespace Sys2Proof.Machine

variable {z s : State}

theorem undeliverable_keeps {b : Blk} {u : Nat} (hz : Keeps z s) : Keeps z (undeliverable s b u) := by
  unfold undeliverable
  repeat' first
    | with_reducible assumption
    | (with_reducible apply satAdd_keeps)
    | (with_reducible apply wrField_keeps)
    | (with_reducible apply raise_keeps)
    | (with_reducible apply orReg_keeps)
    | (intro b; refine (fun (_ : Keeps z b) => ?_) ?_; clear_value b; swap; dsimp only [b]; swap)
    | (intro b; clear_value b)
    | intro b
    | lift_lets

theorem noteRead_keeps {b : Blk} {off : Nat} (hz : Keeps z s) : Keeps z (noteRead s b off) := by
  unfold noteRead
  repeat' first
    | with_reducible assumption
    | (with_reducible apply updMap_keeps)
    | (with_reducible apply keeps_ite)
    | split

theorem regRead_keeps {i : Initiator} {a : Nat} {size : Nat} (hz : Keeps z s) : Keeps z (regRead s i a size).1 := by
  unfold regRead
  repeat' first
    | with_reducible assumption
    | (with_reducible apply orReg_keeps)
    | (with_reducible apply accessFault_keeps)
    | (with_reducible apply undeliverable_keeps)
    | (with_reducible apply noteRead_keeps)
    | (with_reducible apply keeps_ite)
    | (with_reducible apply keeps_ite_fst)
    | (intro b; refine (fun (_ : Keeps z b) => ?_) ?_; clear_value b; swap; dsimp only [b]; swap)
    | (intro b; refine (fun (_ : Keeps z b.1) => ?_) ?_; clear_value b; swap; dsimp only [b]; swap)
    | (with_reducible apply hfn)
    | (intro b; refine (fun (hfn : ∀ x, Keeps z x → Keeps z (b x)) => ?_) ?_; clear_value b; swap; (intro x hx; dsimp only [b]); swap)
    | (intro b; refine (fun (hfn : ∀ x y, Keeps z x → Keeps z (b x y)) => ?_) ?_; clear_value b; swap; (intro x y hx; dsimp only [b]); swap)
    | (with_reducible apply hfc)
    | (with_reducible apply hfd)
    | (intro b; refine (fun (hfc : ∀ x, Keeps z (b x)) => ?_) ?_; clear_value b; swap; (intro x; dsimp only [b]); swap)
    | (intro b; refine (fun (hfd : ∀ x y, Keeps z (b x y)) => ?_) ?_; clear_value b; swap; (intro x y; dsimp only [b]); swap)
    | (intro b; clear_value b)
    | intro b
    | lift_lets
    | split
    | dsimp only

theorem windowRead_keeps {i : Initiator} {a size : Nat} {x : State × Nat} (hz : Keeps z s) (hx : windowRead s i a size = some x) :
    Keeps z x.1 := by
  unfold windowRead at hx
  repeat' first
    | contradiction
    | (cases hx; first | exact hz | exact denyAccess_keeps hz)
    | split at hx

theorem readAccess_keeps {i : Initiator} {a size : Nat} (hz : Keeps z s) : Keeps z (readAccess s i a size) := by
  unfold readAccess
  refine keeps_ite hz ?_
  dsimp only
  apply emit_keeps
  cases hx : windowRead s i a size with
  | none => exact regRead_keeps hz
  | some x => exact windowRead_keeps hz hx

theorem enableUnit_keeps {b : Blk} {u : Nat} (hz : Keeps z s) : Keeps z (enableUnit s b u) := by
  unfold enableUnit
  repeat' first
    | with_reducible assumption
    | (with_reducible apply setActive_keeps)
    | (with_reducible apply phcEnable_keeps)
    | (with_reducible apply ringEnable_keeps)
    | (with_reducible apply portEnable_keeps)
    | (with_reducible apply pump_keeps)
    | (with_reducible apply startRebuild_keeps)
    | (with_reducible apply updSrt_keeps)
    | (with_reducible apply trainEnabled_keeps)
    | (with_reducible apply takeCost_keeps)
    | (with_reducible apply proceedAll_keeps)
    | (with_reducible apply anaAfter_keeps)
    | (with_reducible refine keeps_foldl (fun x b hx => ?_) ?_)
    | (with_reducible refine keeps_foldl_fst (fun x b hx => ?_) ?_)
    | (intro b; refine (fun (_ : Keeps z b) => ?_) ?_; clear_value b; swap; dsimp only [b]; swap)
    | (intro b; refine (fun (_ : Keeps z b.1) => ?_) ?_; clear_value b; swap; dsimp only [b]; swap)
    | (intro b; clear_value b)
    | intro b
    | lift_lets
    | split
    | dsimp only

theorem disableStart_keeps {b : Blk} {u : Nat} (hz : Keeps z s) : Keeps z (disableStart s b u) := by
  unfold disableStart
  repeat' first
    | with_reducible assumption
    | (with_reducible apply phcDrain_keeps)
    | (with_reducible apply updChip_keeps)
    | (with_reducible apply scrubStopReq_keeps)
    | (with_reducible apply pump_keeps)
    | (with_reducible apply askResume_keeps)
    | (with_reducible apply keeps_ite)
    | (with_reducible apply keeps_ite_fst)
    | (with_reducible refine keeps_foldl (fun x b hx => ?_) ?_)
    | (with_reducible refine keeps_foldl_fst (fun x b hx => ?_) ?_)
    | (intro b; refine (fun (_ : Keeps z b) => ?_) ?_; clear_value b; swap; dsimp only [b]; swap)
    | (intro b; refine (fun (_ : Keeps z b.1) => ?_) ?_; clear_value b; swap; dsimp only [b]; swap)
    | (intro b; clear_value b)
    | intro b
    | lift_lets
    | split

theorem disableDone_keeps {b : Blk} {u : Nat} (hz : Keeps z s) : Keeps z (disableDone s b u) := by
  unfold disableDone
  repeat' first
    | with_reducible assumption
    | (with_reducible apply phcDrained_keeps)
    | (with_reducible apply updChip_keeps)
    | (with_reducible apply ringDisable_keeps)
    | (with_reducible apply setActive_keeps)
    | (with_reducible apply modPort_keeps)
    | (with_reducible apply releaseHolds_keeps)
    | (with_reducible apply anaAfter_keeps)
    | (with_reducible apply enableUnit_keeps)
    | (with_reducible apply keeps_ite)
    | (with_reducible apply keeps_ite_fst)
    | (intro b; refine (fun (_ : Keeps z b) => ?_) ?_; clear_value b; swap; dsimp only [b]; swap)
    | (intro b; refine (fun (_ : Keeps z b.1) => ?_) ?_; clear_value b; swap; dsimp only [b]; swap)
    | (intro b; clear_value b)
    | intro b
    | lift_lets
    | split
    | (fail_if_no_progress with_reducible refine keeps_upd ?_ rfl rfl rfl)
    | dsimp only

theorem ctlStore_keeps {i : Initiator} {b : Blk} {u : Nat} {v : Nat} (hz : Keeps z s) : Keeps z (ctlStore s i b u v) := by
  unfold ctlStore
  repeat' first
    | with_reducible assumption
    | (with_reducible apply wrField_keeps)
    | (with_reducible apply accessFault_keeps)
    | (with_reducible apply wr_keeps)
    | (with_reducible apply disableStart_keeps)
    | (with_reducible apply enableUnit_keeps)
    | (with_reducible apply keeps_ite)
    | (with_reducible apply keeps_ite_fst)
    | (intro b; refine (fun (_ : Keeps z b) => ?_) ?_; clear_value b; swap; dsimp only [b]; swap)
    | (intro b; refine (fun (_ : Keeps z b.1) => ?_) ?_; clear_value b; swap; dsimp only [b]; swap)
    | (intro b; clear_value b)
    | intro b
    | lift_lets
    | split

theorem listRead_keeps {k : Nat} (hz : Keeps z s) : Keeps z (listRead s k).1 := by
  unfold listRead
  repeat' first
    | with_reducible assumption
    | (with_reducible apply directRead_keeps)
    | (intro b; refine (fun (_ : Keeps z b) => ?_) ?_; clear_value b; swap; dsimp only [b]; swap)
    | (intro b; refine (fun (_ : Keeps z b.1) => ?_) ?_; clear_value b; swap; dsimp only [b]; swap)
    | (intro b; clear_value b)
    | intro b
    | lift_lets
    | split
    | (refine keeps_of_eq (by assumption) ?_)
    | dsimp only

theorem jobsRead_keeps {head : Nat} (hz : Keeps z s) : Keeps z (jobsRead s head).1 := by
  unfold jobsRead
  repeat' first
    | with_reducible assumption
    | (with_reducible apply directRead_keeps)
    | (with_reducible refine keeps_foldl (fun x b hx => ?_) ?_)
    | (with_reducible refine keeps_foldl_fst (fun x b hx => ?_) ?_)
    | (intro b; refine (fun (_ : Keeps z b) => ?_) ?_; clear_value b; swap; dsimp only [b]; swap)
    | (intro b; refine (fun (_ : Keeps z b.1) => ?_) ?_; clear_value b; swap; dsimp only [b]; swap)
    | (intro b; clear_value b)
    | intro b
    | lift_lets
    | split
    | (refine keeps_of_eq (by assumption) ?_)
    | dsimp only

theorem readmit_keeps {v : Nat} (hz : Keeps z s) : Keeps z (readmit s v) := by
  unfold readmit
  repeat' first
    | with_reducible assumption
    | (with_reducible apply wr_keeps)
    | (with_reducible apply updThm_keeps)
    | (with_reducible apply keeps_ite)
    | (intro b; refine (fun (_ : Keeps z b) => ?_) ?_; clear_value b; swap; dsimp only [b]; swap)
    | (with_reducible apply hfn)
    | (intro b; refine (fun (hfn : ∀ x, Keeps z x → Keeps z (b x)) => ?_) ?_; clear_value b; swap; (intro x hx; dsimp only [b]); swap)
    | (intro b; refine (fun (hfn : ∀ x y, Keeps z x → Keeps z (b x y)) => ?_) ?_; clear_value b; swap; (intro x y hx; dsimp only [b]); swap)
    | (with_reducible apply hfc)
    | (with_reducible apply hfd)
    | (intro b; refine (fun (hfc : ∀ x, Keeps z (b x)) => ?_) ?_; clear_value b; swap; (intro x; dsimp only [b]); swap)
    | (intro b; refine (fun (hfd : ∀ x y, Keeps z (b x y)) => ?_) ?_; clear_value b; swap; (intro x y; dsimp only [b]); swap)
    | (intro b; clear_value b)
    | intro b
    | lift_lets
    | split
    | (fail_if_no_progress with_reducible refine keeps_upd ?_ rfl rfl rfl)

theorem codeConfig_keeps {n : Nat} (hz : Keeps z s) : Keeps z (codeConfig s n) := by
  unfold codeConfig
  repeat' first
    | with_reducible assumption
    | (with_reducible apply updEvr_keeps)
    | (intro b; refine (fun (_ : Keeps z b) => ?_) ?_; clear_value b; swap; dsimp only [b]; swap)
    | (intro b; clear_value b)
    | intro b
    | lift_lets

theorem newGeper_keeps {n : Nat} (hz : Keeps z s) : Keeps z (newGeper s n) := by
  unfold newGeper
  repeat' first
    | with_reducible assumption
    | (with_reducible apply updRing_keeps)
    | (with_reducible apply sendRepeat_keeps)
    | (with_reducible apply keeps_ite)
    | (intro b; refine (fun (_ : Keeps z b) => ?_) ?_; clear_value b; swap; dsimp only [b]; swap)
    | (intro b; clear_value b)
    | intro b
    | lift_lets
    | split

theorem flashEffect_keeps {i : Initiator} {b : Blk} {u : Nat} {off : Nat} {v : Nat} {e : Extra} (hz : Keeps z s) : Keeps z (flashEffect s i b u off v e) := by
  unfold flashEffect
  repeat' first
    | with_reducible assumption
    | (with_reducible apply trainStart_keeps)
    | (with_reducible apply snapCmd_keeps)
    | (with_reducible apply pump_keeps)
    | (with_reducible apply turn_keeps)
    | (with_reducible apply spaceUpdate_keeps)
    | (with_reducible apply victimScan_keeps)
    | (with_reducible apply jobPlace_keeps)
    | (with_reducible apply jobsRead_keeps)
    | (with_reducible apply readsOver_keeps)
    | (with_reducible apply jobSubmit_keeps)
    | (with_reducible apply reclaimPace_keeps)
    | (with_reducible apply jobAbort_keeps)
    | (with_reducible apply listRead_keeps)
    | (with_reducible apply ownerSearch_keeps)
    | (with_reducible apply catchup_keeps)
    | (with_reducible apply cutover_keeps)
    | (with_reducible apply jrcCommit_keeps)
    | (with_reducible apply fullJudge_keeps)
    | (with_reducible apply zeroFill_keeps)
    | (with_reducible apply scrubStart_keeps)
    | (with_reducible apply scrubStopReq_keeps)
    | (with_reducible apply rangeStart_keeps)
    | (with_reducible apply swop_keeps)
    | (with_reducible apply accessFault_keeps)
    | (with_reducible apply hwmClear_keeps)
    | (with_reducible apply kcmd_keeps)
    | (with_reducible apply keeps_ite)
    | (with_reducible apply keeps_ite_fst)
    | (intro b; refine (fun (_ : Keeps z b) => ?_) ?_; clear_value b; swap; dsimp only [b]; swap)
    | (intro b; refine (fun (_ : Keeps z b.1) => ?_) ?_; clear_value b; swap; dsimp only [b]; swap)
    | (intro b; clear_value b)
    | intro b
    | lift_lets
    | split
    | (refine keeps_of_eq (by assumption) ?_)
    | dsimp only

theorem systemEffect_keeps {i : Initiator} {b : Blk} {off : Nat} {v : Nat} {n : Nat} {e : Extra} (hz : Keeps z s) : Keeps z (systemEffect s i b off v n e) := by
  unfold systemEffect
  repeat' first
    | with_reducible assumption
    | (with_reducible apply doorbell_keeps)
    | (with_reducible apply wdRestart_keeps)
    | (with_reducible apply warmReset_keeps)
    | (with_reducible apply norStart_keeps)
    | (with_reducible apply avsel_keeps)
    | (with_reducible apply courierReset_keeps)
    | (with_reducible apply readmit_keeps)
    | (with_reducible apply updWindow_keeps)
    | (with_reducible apply newGeper_keeps)
    | (with_reducible apply enumCommand_keeps)
    | (with_reducible apply txDispatch_keeps)
    | (with_reducible apply rxPop_keeps)
    | (with_reducible apply verifyStart_keeps)
    | (with_reducible apply accessFault_keeps)
    | (with_reducible apply handoverSwitch_keeps)
    | (with_reducible apply handoverDone_keeps)
    | (with_reducible apply fuseCmd_keeps)
    | (with_reducible apply setCursor_keeps)
    | (with_reducible apply rearm_keeps)
    | (with_reducible apply flushSup_keeps)
    | (with_reducible apply codeConfig_keeps)
    | (with_reducible apply setBank_keeps)
    | (with_reducible apply writeRecord_keeps)
    | (with_reducible apply keeps_ite)
    | (with_reducible refine keeps_foldl (fun x b hx => ?_) ?_)
    | (intro b; refine (fun (_ : Keeps z b) => ?_) ?_; clear_value b; swap; dsimp only [b]; swap)
    | (intro b; clear_value b)
    | intro b
    | lift_lets
    | split
    | dsimp only

theorem retireWrite_keeps {i : Initiator} {off : Nat} {v : Nat} (hz : Keeps z s) : Keeps z (retireWrite s i off v) := by
  unfold retireWrite
  repeat' first
    | with_reducible assumption
    | (with_reducible apply accessFault_keeps)
    | (with_reducible apply readsOver_keeps)
    | (with_reducible apply channelRetire_keeps)
    | (with_reducible apply lunRetire_keeps)
    | (with_reducible apply keeps_ite)
    | (with_reducible refine keeps_foldl (fun x b hx => ?_) ?_)
    | (intro b; refine (fun (_ : Keeps z b) => ?_) ?_; clear_value b; swap; dsimp only [b]; swap)
    | (intro b; clear_value b)
    | intro b
    | lift_lets
    | split

theorem regStore_keeps {i : Initiator} {b : Blk} {u : Nat} {x : RegAt} {v : Nat} {e : Extra} (hz : Keeps z s) : Keeps z (regStore s i b u x v e) := by
  unfold regStore
  repeat' first
    | with_reducible assumption
    | (with_reducible apply ctlStore_keeps)
    | (with_reducible apply retireWrite_keeps)
    | (with_reducible apply accessFault_keeps)
    | (with_reducible apply wr_keeps)
    | (with_reducible apply systemEffect_keeps)
    | (with_reducible apply flashEffect_keeps)
    | (with_reducible apply keeps_ite)
    | (with_reducible apply keeps_ite_fst)
    | (intro b; refine (fun (_ : Keeps z b) => ?_) ?_; clear_value b; swap; dsimp only [b]; swap)
    | (intro b; refine (fun (_ : Keeps z b.1) => ?_) ?_; clear_value b; swap; dsimp only [b]; swap)
    | (intro b; clear_value b)
    | intro b
    | lift_lets
    | split

theorem regWrite_keeps {i : Initiator} {a : Nat} {size : Nat} {v : Nat} {e : Extra} (hz : Keeps z s) : Keeps z (regWrite s i a size v e) := by
  unfold regWrite
  repeat' first
    | with_reducible assumption
    | (with_reducible apply orReg_keeps)
    | (with_reducible apply accessFault_keeps)
    | (with_reducible apply undeliverable_keeps)
    | (with_reducible apply regStore_keeps)
    | (with_reducible apply keeps_ite)
    | (intro b; refine (fun (_ : Keeps z b) => ?_) ?_; clear_value b; swap; dsimp only [b]; swap)
    | (with_reducible apply hfn)
    | (intro b; refine (fun (hfn : ∀ x, Keeps z x → Keeps z (b x)) => ?_) ?_; clear_value b; swap; (intro x hx; dsimp only [b]); swap)
    | (intro b; refine (fun (hfn : ∀ x y, Keeps z x → Keeps z (b x y)) => ?_) ?_; clear_value b; swap; (intro x y hx; dsimp only [b]); swap)
    | (with_reducible apply hfc)
    | (with_reducible apply hfd)
    | (intro b; refine (fun (hfc : ∀ x, Keeps z (b x)) => ?_) ?_; clear_value b; swap; (intro x; dsimp only [b]); swap)
    | (intro b; refine (fun (hfd : ∀ x y, Keeps z (b x y)) => ?_) ?_; clear_value b; swap; (intro x y; dsimp only [b]); swap)
    | (intro b; clear_value b)
    | intro b
    | lift_lets
    | split
    | dsimp only

theorem windowWrite_keeps {i : Initiator} {a : Nat} {x : State} (hz : Keeps z s) (hx : windowWrite s i a = some x) : Keeps z x := by
  unfold windowWrite at hx
  repeat' first
    | contradiction
    | (cases hx; first | exact hz | exact denyAccess_keeps hz)
    | split at hx

theorem writeAccess_keeps {i : Initiator} {a size v : Nat} {e : Extra} (hz : Keeps z s) : Keeps z (writeAccess s i a size v e) := by
  unfold writeAccess
  refine keeps_ite hz ?_
  cases hx : windowWrite s i a with
  | none => exact regWrite_keeps hz
  | some x => exact windowWrite_keeps hz hx

theorem writeCmd_keeps {q : Sqe} {f : IoFields} {stream : Nat} (hz : Keeps z s) : Keeps z (writeCmd s q f stream) := by
  unfold writeCmd
  repeat' first
    | with_reducible assumption
    | (with_reducible apply fetchIo_keeps)
    | (with_reducible apply noteStream_keeps)
    | (with_reducible apply keeps_ite)
    | (intro b; refine (fun (_ : Keeps z b) => ?_) ?_; clear_value b; swap; dsimp only [b]; swap)
    | (intro b; clear_value b)
    | intro b
    | lift_lets
    | split

theorem dsmCmd_keeps {q : Sqe} {ranges : List LetterRange} {ad : Bool} (hz : Keeps z s) : Keeps z (dsmCmd s q ranges ad) := by
  unfold dsmCmd
  repeat' first
    | with_reducible assumption
    | (with_reducible apply fetchIo_keeps)
    | (with_reducible apply takeIo_keeps)
    | (with_reducible apply complete_keeps)
    | (with_reducible apply keeps_ite)
    | (intro b; refine (fun (_ : Keeps z b) => ?_) ?_; clear_value b; swap; dsimp only [b]; swap)
    | (intro b; clear_value b)
    | intro b
    | lift_lets
    | split
    | dsimp only

theorem cacheRow_keeps {tags : Bool} (hz : Keeps z s) : Keeps z (cacheRow s tags) := by
  unfold cacheRow
  repeat' first
    | with_reducible assumption
    | (with_reducible apply freshBelow_keeps)
    | (with_reducible apply offender_keeps)
    | (with_reducible apply keeps_ite)
    | (with_reducible apply keeps_ite_fst)
    | (intro b; refine (fun (_ : Keeps z b) => ?_) ?_; clear_value b; swap; dsimp only [b]; swap)
    | (intro b; refine (fun (_ : Keeps z b.1) => ?_) ?_; clear_value b; swap; dsimp only [b]; swap)
    | (intro b; clear_value b)
    | intro b
    | lift_lets
    | split
    | (refine keeps_of_eq (by assumption) ?_)
    | dsimp only

theorem lookupError_keeps {line : Nat} {err : Option LineError} {seg : Nat} (hz : Keeps z s) : Keeps z (lookupError s line err seg) := by
  unfold lookupError
  repeat' first
    | with_reducible assumption
    | (with_reducible apply phcError_keeps)
    | (with_reducible apply cacheRow_keeps)
    | (intro b; refine (fun (_ : Keeps z b) => ?_) ?_; clear_value b; swap; dsimp only [b]; swap)
    | (intro b; clear_value b)
    | intro b
    | lift_lets
    | split
    | dsimp only

theorem phcFilled_keeps {line : Nat} {r : UnitRead} {more : List LineReq} {err : Option LineError} {seg : Nat} (hz : Keeps z s) : Keeps z (phcFilled s line r more err seg) := by
  unfold phcFilled
  repeat' first
    | with_reducible assumption
    | (with_reducible apply clientAccesses_keeps)
    | (with_reducible apply lookupError_keeps)
    | (with_reducible apply fillDone_keeps)
    | (with_reducible apply dramReport_keeps)
    | (with_reducible apply keeps_ite)
    | (intro b; refine (fun (_ : Keeps z b) => ?_) ?_; clear_value b; swap; dsimp only [b]; swap)
    | (intro b; clear_value b)
    | intro b
    | lift_lets
    | split

theorem wayDisableDone_keeps {way : Nat} {set : Nat} (hz : Keeps z s) : Keeps z (wayDisableDone s way set) := by
  unfold wayDisableDone
  repeat' first
    | with_reducible assumption
    | (with_reducible apply wayDisabled_keeps)
    | (with_reducible apply freshBelow_keeps)
    | (with_reducible apply addRepair_keeps)
    | (with_reducible apply keeps_ite)
    | (with_reducible apply keeps_ite_fst)
    | (intro b; refine (fun (_ : Keeps z b) => ?_) ?_; clear_value b; swap; dsimp only [b]; swap)
    | (intro b; refine (fun (_ : Keeps z b.1) => ?_) ?_; clear_value b; swap; dsimp only [b]; swap)
    | (intro b; clear_value b)
    | intro b
    | lift_lets
    | split
    | (refine keeps_of_eq (by assumption) ?_)
    | dsimp only

theorem rootCommitted_keeps (hz : Keeps z s) : Keeps z (rootCommitted s) := by
  unfold rootCommitted
  repeat' first
    | with_reducible assumption
    | (with_reducible apply rootDone_keeps)
    | (with_reducible apply updPat_keeps)
    | (with_reducible apply noteRoot_keeps)
    | (with_reducible apply stageRuns_keeps)
    | (with_reducible apply reclaimPace_keeps)
    | (with_reducible apply updMap_keeps)
    | (with_reducible apply keeps_ite)
    | (intro b; refine (fun (_ : Keeps z b) => ?_) ?_; clear_value b; swap; dsimp only [b]; swap)
    | (intro b; clear_value b)
    | intro b
    | lift_lets
    | split

theorem groupTick_keeps (hz : Keeps z s) : Keeps z (groupTick s) := by
  unfold groupTick
  repeat' first
    | with_reducible assumption
    | (with_reducible apply tickMark_keeps)
    | (with_reducible apply epochTrig_keeps)
    | (with_reducible apply keeps_ite)
    | (intro b; refine (fun (_ : Keeps z b) => ?_) ?_; clear_value b; swap; dsimp only [b]; swap)
    | (intro b; clear_value b)
    | intro b
    | lift_lets
    | split

theorem windowBoundary_keeps (hz : Keeps z s) : Keeps z (windowBoundary s) := by
  unfold windowBoundary
  repeat' first
    | with_reducible assumption
    | (with_reducible apply patGo_keeps)
    | (with_reducible apply updWindow_keeps)

theorem bandTrained_keeps (hz : Keeps z s) : Keeps z (bandTrained s) := by
  unfold bandTrained
  repeat' first
    | with_reducible assumption
    | (with_reducible apply bandChange_keeps)
    | (with_reducible apply bandTrain_keeps)
    | (with_reducible apply keeps_ite)
    | (intro b; refine (fun (_ : Keeps z b) => ?_) ?_; clear_value b; swap; dsimp only [b]; swap)
    | (intro b; clear_value b)
    | intro b
    | lift_lets
    | split

theorem tick_keeps (hz : Keeps z s) : Keeps z (tick s) := by
  unfold tick
  repeat' first
    | with_reducible assumption
    | (with_reducible apply updEvr_keeps)
    | (with_reducible apply busTick_keeps)
    | (with_reducible apply updJrc_keeps)
    | (with_reducible apply keeps_ite)
    | (intro b; refine (fun (_ : Keeps z b) => ?_) ?_; clear_value b; swap; dsimp only [b]; swap)
    | (intro b; clear_value b)
    | intro b
    | lift_lets
    | split
    | (fail_if_no_progress with_reducible refine keeps_upd ?_ rfl rfl rfl)

end Sys2Proof.Machine
end

