-- ==== Sys2Proof/Laws/CmdKeeps.lean ====
section
/-! SUPPORT. Every command keeps the canonical form, the fuses and the queue (Keeps), by the laws of the operations. -/

set_option Elab.async false

namespace Sys2Proof.Machine

variable {s t : State}

theorem keep_createIoSq (x0 : Sqe) (x1 x2 x3 x4 x5 : Nat) (x6 x7 : Bool) (h : exec (.createIoSq x0 x1 x2 x3 x4 x5 x6 x7) s = .next t) : Keeps s t := by
  exact Host.Outcome.next.inj h ▸ createSq_keeps (.refl s)
theorem keep_createIoCq (x0 : Sqe) (x1 x2 x3 : Nat) (x4 x5 x6 : Bool) (h : exec (.createIoCq x0 x1 x2 x3 x4 x5 x6) s = .next t) : Keeps s t := by
  exact Host.Outcome.next.inj h ▸ createCq_keeps (.refl s)
theorem keep_deleteIoSq (x0 : Sqe) (x1 : Nat) (h : exec (.deleteIoSq x0 x1) s = .next t) : Keeps s t := by
  exact Host.Outcome.next.inj h ▸ deleteSq_keeps (.refl s)
theorem keep_deleteIoCq (x0 : Sqe) (x1 : Nat) (h : exec (.deleteIoCq x0 x1) s = .next t) : Keeps s t := by
  exact Host.Outcome.next.inj h ▸ deleteCq_keeps (.refl s)
theorem keep_identify (x0 : Sqe) (x1 x2 : Nat) (h : exec (.identify x0 x1 x2) s = .next t) : Keeps s t := by
  exact Host.Outcome.next.inj h ▸ identifyCmd_keeps (.refl s)
theorem keep_getLogPage (x0 : Sqe) (x1 x2 x3 : Nat) (x4 : Bool) (h : exec (.getLogPage x0 x1 x2 x3 x4) s = .next t) : Keeps s t := by
  exact Host.Outcome.next.inj h ▸ getLog_keeps (.refl s)
theorem keep_deadLetterOfficeLog (x0 : Sqe) (x1 x2 : Nat) (x3 : Bool) (h : exec (.deadLetterOfficeLog x0 x1 x2 x3) s = .next t) : Keeps s t := by
  exact Host.Outcome.next.inj h ▸ getLog_keeps (.refl s)
theorem keep_recorderExportLog (x0 : Sqe) (x1 x2 : Nat) (x3 : Bool) (h : exec (.recorderExportLog x0 x1 x2 x3) s = .next t) : Keeps s t := by
  exact Host.Outcome.next.inj h ▸ getLog_keeps (.refl s)
theorem keep_ringStatusLog (x0 : Sqe) (x1 x2 : Nat) (x3 : Bool) (h : exec (.ringStatusLog x0 x1 x2 x3) s = .next t) : Keeps s t := by
  exact Host.Outcome.next.inj h ▸ getLog_keeps (.refl s)
theorem keep_mediaHealthDetailLog (x0 : Sqe) (x1 x2 : Nat) (x3 : Bool) (h : exec (.mediaHealthDetailLog x0 x1 x2 x3) s = .next t) : Keeps s t := by
  exact Host.Outcome.next.inj h ▸ getLog_keeps (.refl s)
theorem keep_capacityAndSheddingLog (x0 : Sqe) (x1 x2 : Nat) (x3 : Bool) (h : exec (.capacityAndSheddingLog x0 x1 x2 x3) s = .next t) : Keeps s t := by
  exact Host.Outcome.next.inj h ▸ getLog_keeps (.refl s)
theorem keep_setFeatures (x0 : Sqe) (x1 : Nat) (x2 : Bool) (x3 : FeatVal) (h : exec (.setFeatures x0 x1 x2 x3) s = .next t) : Keeps s t := by
  exact Host.Outcome.next.inj h ▸ setFeatures_keeps (.refl s)
theorem keep_getFeatures (x0 : Sqe) (x1 x2 x3 : Nat) (h : exec (.getFeatures x0 x1 x2 x3) s = .next t) : Keeps s t := by
  exact Host.Outcome.next.inj h ▸ getFeatures_keeps (.refl s)
theorem keep_setPowerManagement (x0 : Sqe) (x1 : Nat) (x2 : Bool) (h : exec (.setPowerManagement x0 x1 x2) s = .next t) : Keeps s t := by
  rw [← Host.Outcome.next.inj h]
  repeat' first
    | with_reducible exact Keeps.refl s
    | with_reducible apply admin_keeps
    | with_reducible apply featPower_keeps
    | (with_reducible apply keeps_ite)
    | intro _
    | split
    | assumption
theorem keep_setPlmWindow (x0 : Sqe) (x1 : Nat) (h : exec (.setPlmWindow x0 x1) s = .next t) : Keeps s t := by
  rw [← Host.Outcome.next.inj h]
  repeat' first
    | with_reducible exact Keeps.refl s
    | with_reducible apply admin_keeps
    | with_reducible apply featPlm_keeps
    | (with_reducible apply keeps_ite)
    | intro _
    | split
    | assumption
theorem keep_setLatencyTolerance (x0 : Sqe) (x1 : Nat) (x2 : Bool) (h : exec (.setLatencyTolerance x0 x1 x2) s = .next t) : Keeps s t := by
  rw [← Host.Outcome.next.inj h]
  repeat' first
    | with_reducible exact Keeps.refl s
    | with_reducible apply admin_keeps
    | with_reducible apply featLatency_keeps
    | (with_reducible apply keeps_ite)
    | intro _
    | split
    | assumption
theorem keep_setFailStopDefault (x0 : Sqe) (x1 : Nat) (x2 : Bool) (h : exec (.setFailStopDefault x0 x1 x2) s = .next t) : Keeps s t := by
  rw [← Host.Outcome.next.inj h]
  repeat' first
    | with_reducible exact Keeps.refl s
    | with_reducible apply admin_keeps
    | with_reducible apply featFailStop_keeps
    | (with_reducible apply keeps_ite)
    | intro _
    | split
    | assumption
theorem keep_setPatrolPeriod (x0 : Sqe) (x1 : Nat) (x2 : Bool) (h : exec (.setPatrolPeriod x0 x1 x2) s = .next t) : Keeps s t := by
  rw [← Host.Outcome.next.inj h]
  repeat' first
    | with_reducible exact Keeps.refl s
    | with_reducible apply admin_keeps
    | with_reducible apply featPatrol_keeps
    | (with_reducible apply keeps_ite)
    | intro _
    | split
    | assumption
theorem keep_asyncEventRequest (x0 : Sqe) (h : exec (.asyncEventRequest x0) s = .next t) : Keeps s t := by
  exact Host.Outcome.next.inj h ▸ aerRequest_keeps (.refl s)
theorem keep_namespaceCreate (x0 : Sqe) (x1 x2 x3 x4 : Nat) (x5 x6 x7 : Bool) (h : exec (.namespaceCreate x0 x1 x2 x3 x4 x5 x6 x7) s = .next t) : Keeps s t := by
  exact Host.Outcome.next.inj h ▸ nsCreate_keeps (.refl s)
theorem keep_namespaceDelete (x0 : Sqe) (h : exec (.namespaceDelete x0) s = .next t) : Keeps s t := by
  exact Host.Outcome.next.inj h ▸ nsDelete_keeps (.refl s)
theorem keep_namespaceAttachment (x0 : Sqe) (x1 : Bool) (x2 : List Nat) (h : exec (.namespaceAttachment x0 x1 x2) s = .next t) : Keeps s t := by
  exact Host.Outcome.next.inj h ▸ attachNs_keeps (.refl s)
theorem keep_directiveSend (x0 : Sqe) (x1 x2 x3 x4 : Nat) (h : exec (.directiveSend x0 x1 x2 x3 x4) s = .next t) : Keeps s t := by
  exact Host.Outcome.next.inj h ▸ dirSend_keeps (.refl s)
theorem keep_directiveReceive (x0 : Sqe) (x1 x2 x3 : Nat) (h : exec (.directiveReceive x0 x1 x2 x3) s = .next t) : Keeps s t := by
  exact Host.Outcome.next.inj h ▸ dirReceive_keeps (.refl s)
theorem keep_firmwareImageDownload (x0 : Sqe) (x1 x2 : Nat) (x3 : List Byte) (h : exec (.firmwareImageDownload x0 x1 x2 x3) s = .next t) : Keeps s t := by
  exact Host.Outcome.next.inj h ▸ download_keeps (.refl s)
theorem keep_firmwareCommitReplace (x0 : Sqe) (x1 : Nat) (x2 : Bool) (h : exec (.firmwareCommitReplace x0 x1 x2) s = .next t) : Keeps s t := by
  exact Host.Outcome.next.inj h ▸ commitImage_keeps (.refl s)
theorem keep_firmwareCommitReplaceNext (x0 : Sqe) (x1 : Nat) (x2 : Bool) (h : exec (.firmwareCommitReplaceNext x0 x1 x2) s = .next t) : Keeps s t := by
  exact Host.Outcome.next.inj h ▸ commitImage_keeps (.refl s)
theorem keep_firmwareCommitActivateSlot (x0 : Sqe) (x1 : Nat) (x2 : Bool) (h : exec (.firmwareCommitActivateSlot x0 x1 x2) s = .next t) : Keeps s t := by
  exact Host.Outcome.next.inj h ▸ commitNamed_keeps (.refl s)
theorem keep_firmwareCommitActivateNow (x0 : Sqe) (x1 : Nat) (x2 : Bool) (h : exec (.firmwareCommitActivateNow x0 x1 x2) s = .next t) : Keeps s t := by
  exact Host.Outcome.next.inj h ▸ commitImage_keeps (.refl s)
theorem keep_formatNvm (x0 : Sqe) (x1 x2 x3 : Nat) (x4 x5 x6 : Bool) (h : exec (.formatNvm x0 x1 x2 x3 x4 x5 x6) s = .next t) : Keeps s t := by
  exact Host.Outcome.next.inj h ▸ formatFetch_keeps (.refl s)
theorem keep_sanitizeExitFailureMode (x0 : Sqe) (x1 : Bool) (h : exec (.sanitizeExitFailureMode x0 x1) s = .next t) : Keeps s t := by
  exact Host.Outcome.next.inj h ▸ sanitizeExit_keeps (.refl s)
theorem keep_sanitizeBlockErase (x0 : Sqe) (x1 x2 x3 : Bool) (h : exec (.sanitizeBlockErase x0 x1 x2 x3) s = .next t) : Keeps s t := by
  exact Host.Outcome.next.inj h ▸ sanitizeFetch_keeps (.refl s)
theorem keep_sanitizeCryptoErase (x0 : Sqe) (x1 x2 x3 : Bool) (h : exec (.sanitizeCryptoErase x0 x1 x2 x3) s = .next t) : Keeps s t := by
  exact Host.Outcome.next.inj h ▸ sanitizeFetch_keeps (.refl s)
theorem keep_sanitizeRoundDone (h : exec .sanitizeRoundDone s = .next t) : Keeps s t := by
  exact Host.Outcome.next.inj h ▸ roundDone_keeps (.refl s)
theorem keep_sanitizeProgressWrite (h : exec .sanitizeProgressWrite s = .next t) : Keeps s t := by
  exact Host.Outcome.next.inj h ▸ sanProgress_keeps (.refl s)
theorem keep_securitySend (x0 : Sqe) (x1 : Nat) (x2 : SpdmReq) (h : exec (.securitySend x0 x1 x2) s = .next t) : Keeps s t := by
  exact Host.Outcome.next.inj h ▸ secSend_keeps (.refl s)
theorem keep_securityReceive (x0 : Sqe) (x1 : Nat) (h : exec (.securityReceive x0 x1) s = .next t) : Keeps s t := by
  exact Host.Outcome.next.inj h ▸ secReceive_keeps (.refl s)
theorem keep_shedCapacityRanges (x0 : Sqe) (x1 : List LetterRange) (h : exec (.shedCapacityRanges x0 x1) s = .next t) : Keeps s t := by
  exact Host.Outcome.next.inj h ▸ shedFetch_keeps (.refl s)
theorem keep_shedCapacityUnallocated (x0 : Sqe) (x1 : Nat) (h : exec (.shedCapacityUnallocated x0 x1) s = .next t) : Keeps s t := by
  exact Host.Outcome.next.inj h ▸ shedFreeFetch_keeps (.refl s)
theorem keep_resumeQueue (x0 : Sqe) (x1 : Nat) (h : exec (.resumeQueue x0 x1) s = .next t) : Keeps s t := by
  exact Host.Outcome.next.inj h ▸ resumeQ_keeps (.refl s)
theorem keep_collectionScheduleSet (x0 : Sqe) (x1 : SchedDesc) (h : exec (.collectionScheduleSet x0 x1) s = .next t) : Keeps s t := by
  exact Host.Outcome.next.inj h ▸ schedSet_keeps (.refl s)
theorem keep_collectionScheduleGet (x0 : Sqe) (h : exec (.collectionScheduleGet x0) s = .next t) : Keeps s t := by
  exact Host.Outcome.next.inj h ▸ schedGet_keeps (.refl s)
theorem keep_collectionScheduleTimeout (h : exec .collectionScheduleTimeout s = .next t) : Keeps s t := by
  exact Host.Outcome.next.inj h ▸ schedTimeout_keeps (.refl s)
theorem keep_scrubRange (x0 : Sqe) (x1 x2 x3 x4 x5 : Nat) (h : exec (.scrubRange x0 x1 x2 x3 x4 x5) s = .next t) : Keeps s t := by
  exact Host.Outcome.next.inj h ▸ scrubCommand_keeps (.refl s)
theorem keep_recorderRead (x0 : Sqe) (x1 x2 : Nat) (x3 : Bool) (h : exec (.recorderRead x0 x1 x2 x3) s = .next t) : Keeps s t := by
  exact Host.Outcome.next.inj h ▸ recRead_keeps (.refl s)
theorem keep_depotUnlockRead (x0 : Sqe) (x1 : Nat) (h : exec (.depotUnlockRead x0 x1) s = .next t) : Keeps s t := by
  exact Host.Outcome.next.inj h ▸ depotOpen_keeps (.refl s)
theorem keep_depotUnlockReadWrite (x0 : Sqe) (x1 : Nat) (h : exec (.depotUnlockReadWrite x0 x1) s = .next t) : Keeps s t := by
  exact Host.Outcome.next.inj h ▸ depotOpen_keeps (.refl s)
theorem keep_depotUnlockClose (x0 : Sqe) (x1 : Nat) (h : exec (.depotUnlockClose x0 x1) s = .next t) : Keeps s t := by
  exact Host.Outcome.next.inj h ▸ depotClose_keeps (.refl s)
theorem keep_phcFillDone (x0 : Nat) (x1 : BitVec 512) (x2 : UnitRead) (x3 : List LineReq) (x4 : Option LineError) (x5 : Nat) (h : exec (.phcFillDone x0 x1 x2 x3 x4 x5) s = .next t) : Keeps s t := by
  exact Host.Outcome.next.inj h ▸ phcFilled_keeps (.refl s)
theorem keep_phcWritebackAck (x0 : Nat) (h : exec (.phcWritebackAck x0) s = .next t) : Keeps s t := by
  exact Host.Outcome.next.inj h ▸ writebackAck_keeps (.refl s)
theorem keep_phcErrWindowEnd (h : exec .phcErrWindowEnd s = .next t) : Keeps s t := by
  exact Host.Outcome.next.inj h ▸ errWindowEnd_keeps (.refl s)
theorem keep_phcWayDisableDone (x0 x1 : Nat) (h : exec (.phcWayDisableDone x0 x1) s = .next t) : Keeps s t := by
  exact Host.Outcome.next.inj h ▸ wayDisableDone_keeps (.refl s)
theorem keep_phcInvalidationDone (h : exec .phcInvalidationDone s = .next t) : Keeps s t := by
  exact Host.Outcome.next.inj h ▸ invalidationDone_keeps (.refl s)
theorem keep_phcDrainDone (h : exec .phcDrainDone s = .next t) : Keeps s t := by
  exact Host.Outcome.next.inj h ▸ phcDrained_keeps (.refl s)
theorem keep_phcRangeClean (x0 : Initiator) (x1 : Word) (h : exec (.phcRangeClean x0 x1) s = .next t) : Keeps s t := by
  exact Host.Outcome.next.inj h ▸ writeAccess_keeps (.refl s)
theorem keep_phcRangeInvalidate (x0 : Initiator) (x1 : Word) (h : exec (.phcRangeInvalidate x0 x1) s = .next t) : Keeps s t := by
  exact Host.Outcome.next.inj h ▸ writeAccess_keeps (.refl s)
theorem keep_phcRangeCleanInvalidate (x0 : Initiator) (x1 : Word) (h : exec (.phcRangeCleanInvalidate x0 x1) s = .next t) : Keeps s t := by
  exact Host.Outcome.next.inj h ▸ writeAccess_keeps (.refl s)
theorem keep_phcRangeDone (h : exec .phcRangeDone s = .next t) : Keeps s t := by
  exact Host.Outcome.next.inj h ▸ rangeDone_keeps (.refl s)
theorem keep_phcSwopClean (x0 : Initiator) (x1 x2 : Nat) (h : exec (.phcSwopClean x0 x1 x2) s = .next t) : Keeps s t := by
  exact Host.Outcome.next.inj h ▸ writeAccess_keeps (.refl s)
theorem keep_phcSwopInvalidate (x0 : Initiator) (x1 x2 : Nat) (h : exec (.phcSwopInvalidate x0 x1 x2) s = .next t) : Keeps s t := by
  exact Host.Outcome.next.inj h ▸ writeAccess_keeps (.refl s)
theorem keep_phcSwopCleanInvalidate (x0 : Initiator) (x1 x2 : Nat) (h : exec (.phcSwopCleanInvalidate x0 x1 x2) s = .next t) : Keeps s t := by
  exact Host.Outcome.next.inj h ▸ writeAccess_keeps (.refl s)
theorem keep_imageVerify (x0 : Initiator) (x1 : Word) (h : exec (.imageVerify x0 x1) s = .next t) : Keeps s t := by
  exact Host.Outcome.next.inj h ▸ writeAccess_keeps (.refl s)
theorem keep_imageVerifyDone (h : exec .imageVerifyDone s = .next t) : Keeps s t := by
  exact Host.Outcome.next.inj h ▸ verifyDone_keeps (.refl s)
theorem keep_handoverSwitch (x0 : Initiator) (x1 : Word) (h : exec (.handoverSwitch x0 x1) s = .next t) : Keeps s t := by
  exact Host.Outcome.next.inj h ▸ writeAccess_keeps (.refl s)
theorem keep_handoverDone (x0 : Initiator) (x1 : Word) (h : exec (.handoverDone x0 x1) s = .next t) : Keeps s t := by
  exact Host.Outcome.next.inj h ▸ writeAccess_keeps (.refl s)
theorem keep_activationRevert (h : exec .activationRevert s = .next t) : Keeps s t := by
  exact Host.Outcome.next.inj h ▸ activationRevert_keeps (.refl s)
theorem keep_fuseProgramKeyhash (x0 : Initiator) (x1 : Fin 4) (h : exec (.fuseProgramKeyhash x0 x1) s = .next t) : Keeps s t := by
  exact Host.Outcome.next.inj h ▸ writeAccess_keeps (.refl s)
theorem keep_fuseRevokeSlot (x0 : Initiator) (x1 : Fin 4) (h : exec (.fuseRevokeSlot x0 x1) s = .next t) : Keeps s t := by
  exact Host.Outcome.next.inj h ▸ writeAccess_keeps (.refl s)
theorem keep_fuseRaiseMinsvn (x0 : Initiator) (x1 : Nat) (h : exec (.fuseRaiseMinsvn x0 x1) s = .next t) : Keeps s t := by
  rw [← Host.Outcome.next.inj h]
  repeat' first
    | with_reducible exact Keeps.refl s
    | with_reducible apply writeAccess_keeps
    | (with_reducible apply keeps_ite)
    | intro _
    | split
    | assumption
theorem keep_keyGenerate (x0 : Initiator) (x1 : Bool) (x2 : Nat) (x3 : Bool) (h : exec (.keyGenerate x0 x1 x2 x3) s = .next t) : Keeps s t := by
  exact Host.Outcome.next.inj h ▸ writeAccess_keeps (.refl s)
theorem keep_keyLoadWrapped (x0 : Initiator) (x1 : Bool) (x2 : Nat) (h : exec (.keyLoadWrapped x0 x1 x2) s = .next t) : Keeps s t := by
  exact Host.Outcome.next.inj h ▸ writeAccess_keeps (.refl s)
theorem keep_keyDestroy (x0 : Initiator) (x1 : Nat) (h : exec (.keyDestroy x0 x1) s = .next t) : Keeps s t := by
  exact Host.Outcome.next.inj h ▸ writeAccess_keeps (.refl s)
theorem keep_getVersion (x0 : SpdmTransport) (h : exec (.getVersion x0) s = .next t) : Keeps s t := by
  exact Host.Outcome.next.inj h ▸ spdm_keeps (.refl s)
theorem keep_getCapabilities (x0 : SpdmTransport) (h : exec (.getCapabilities x0) s = .next t) : Keeps s t := by
  exact Host.Outcome.next.inj h ▸ spdm_keeps (.refl s)
theorem keep_negotiateAlgorithms (x0 : SpdmTransport) (x1 : Bool) (h : exec (.negotiateAlgorithms x0 x1) s = .next t) : Keeps s t := by
  exact Host.Outcome.next.inj h ▸ spdm_keeps (.refl s)
theorem keep_getDigests (x0 : SpdmTransport) (h : exec (.getDigests x0) s = .next t) : Keeps s t := by
  exact Host.Outcome.next.inj h ▸ spdm_keeps (.refl s)
theorem keep_getCertificate (x0 : SpdmTransport) (x1 x2 x3 : Nat) (h : exec (.getCertificate x0 x1 x2 x3) s = .next t) : Keeps s t := by
  exact Host.Outcome.next.inj h ▸ spdm_keeps (.refl s)
theorem keep_challenge (x0 : SpdmTransport) (x1 : Nat) (h : exec (.challenge x0 x1) s = .next t) : Keeps s t := by
  exact Host.Outcome.next.inj h ▸ spdm_keeps (.refl s)
theorem keep_getMeasurements (x0 : SpdmTransport) (x1 : Nat) (x2 : Bool) (h : exec (.getMeasurements x0 x1 x2) s = .next t) : Keeps s t := by
  exact Host.Outcome.next.inj h ▸ spdm_keeps (.refl s)
theorem keep_keyExchange (x0 : SpdmTransport) (x1 : Bool) (h : exec (.keyExchange x0 x1) s = .next t) : Keeps s t := by
  exact Host.Outcome.next.inj h ▸ spdm_keeps (.refl s)
theorem keep_finish (x0 : SpdmTransport) (x1 : Nat) (x2 : Bool) (x3 : BitVec 512) (h : exec (.finish x0 x1 x2 x3) s = .next t) : Keeps s t := by
  exact Host.Outcome.next.inj h ▸ spdm_keeps (.refl s)
theorem keep_heartbeat (x0 : SpdmTransport) (x1 : Nat) (h : exec (.heartbeat x0 x1) s = .next t) : Keeps s t := by
  exact Host.Outcome.next.inj h ▸ spdm_keeps (.refl s)
theorem keep_keyUpdate (x0 : SpdmTransport) (x1 : Nat) (h : exec (.keyUpdate x0 x1) s = .next t) : Keeps s t := by
  exact Host.Outcome.next.inj h ▸ spdm_keeps (.refl s)
theorem keep_endSession (x0 : SpdmTransport) (x1 : Nat) (h : exec (.endSession x0 x1) s = .next t) : Keeps s t := by
  rw [← Host.Outcome.next.inj h]
  repeat' first
    | with_reducible exact Keeps.refl s
    | with_reducible apply spdm_keeps
    | with_reducible apply endSession_keeps
    | (with_reducible apply keeps_ite)
    | intro _
    | split
    | assumption
theorem keep_spdmHeartbeatTimeout (x0 : Nat) (h : exec (.spdmHeartbeatTimeout x0) s = .next t) : Keeps s t := by
  exact Host.Outcome.next.inj h ▸ spdmTimeout_keeps (.refl s)
theorem keep_readComplete (x0 : Nat) (x1 : List CodewordRead) (h : exec (.readComplete x0 x1) s = .next t) : Keeps s t := by
  exact Host.Outcome.next.inj h ▸ readComplete_keeps (.refl s)
theorem keep_softDecodeDone (x0 : Nat) (x1 : Bool) (x2 : Nat) (h : exec (.softDecodeDone x0 x1 x2) s = .next t) : Keeps s t := by
  exact Host.Outcome.next.inj h ▸ softDone_keeps (.refl s)
theorem keep_rebuildDone (x0 : Nat) (h : exec (.rebuildDone x0) s = .next t) : Keeps s t := by
  exact Host.Outcome.next.inj h ▸ rebuildDone_keeps (.refl s)
theorem keep_dlqEntryWrite (x0 : Nat) (h : exec (.dlqEntryWrite x0) s = .next t) : Keeps s t := by
  exact Host.Outcome.next.inj h ▸ dlqEntryWrite_keeps (.refl s)
theorem keep_strDlqTailWrite (x0 : Initiator) (x1 : Word) (h : exec (.strDlqTailWrite x0 x1) s = .next t) : Keeps s t := by
  exact Host.Outcome.next.inj h ▸ writeAccess_keeps (.refl s)
theorem keep_programComplete (x0 : Nat) (x1 : DieOutcome) (h : exec (.programComplete x0 x1) s = .next t) : Keeps s t := by
  exact Host.Outcome.next.inj h ▸ programComplete_keeps (.refl s)
theorem keep_eraseSuspend (x0 : Nat) (h : exec (.eraseSuspend x0) s = .next t) : Keeps s t := by
  exact Host.Outcome.next.inj h ▸ suspend_keeps (.refl s)
theorem keep_programSuspend (x0 : Nat) (h : exec (.programSuspend x0) s = .next t) : Keeps s t := by
  exact Host.Outcome.next.inj h ▸ suspend_keeps (.refl s)
theorem keep_suspendResume (x0 : Nat) (x1 : Bool) (h : exec (.suspendResume x0 x1) s = .next t) : Keeps s t := by
  exact Host.Outcome.next.inj h ▸ suspendResume_keeps (.refl s)
theorem keep_rdIAgeExpiry (x0 : Nat) (h : exec (.rdIAgeExpiry x0) s = .next t) : Keeps s t := by
  exact Host.Outcome.next.inj h ▸ rdIAge_keeps (.refl s)
theorem keep_lunTimeout (x0 : Nat) (x1 : Bool) (h : exec (.lunTimeout x0 x1) s = .next t) : Keeps s t := by
  exact Host.Outcome.next.inj h ▸ lunTimeout_keeps (.refl s)
theorem keep_trainingStart (x0 : Initiator) (x1 : Fin 32) (x2 : Word) (h : exec (.trainingStart x0 x1 x2) s = .next t) : Keeps s t := by
  exact Host.Outcome.next.inj h ▸ writeAccess_keeps (.refl s)
theorem keep_trainingDone (x0 : Fin 32) (x1 : List (Nat × Nat)) (x2 : List Nat) (h : exec (.trainingDone x0 x1 x2) s = .next t) : Keeps s t := by
  exact Host.Outcome.next.inj h ▸ trainingDone_keeps (.refl s)
theorem keep_courierReset (x0 : Initiator) (x1 : Word) (h : exec (.courierReset x0 x1) s = .next t) : Keeps s t := by
  exact Host.Outcome.next.inj h ▸ writeAccess_keeps (.refl s)
theorem keep_courierResetDone (x0 : Fin 32) (x1 : List (Nat × Bool)) (x2 : TrainFound) (h : exec (.courierResetDone x0 x1 x2) s = .next t) : Keeps s t := by
  rw [← Host.Outcome.next.inj h]
  repeat' first
    | with_reducible exact Keeps.refl s
    | with_reducible apply courierResetDone_keeps
    | with_reducible apply train_keeps
    | (with_reducible apply keeps_ite)
    | intro _
    | split
    | assumption
theorem keep_tokenAllocation (h : exec .tokenAllocation s = .next t) : Keeps s t := by
  exact Host.Outcome.next.inj h ▸ allocate_keeps (.refl s)
theorem keep_snapshotFire (x0 : Initiator) (x1 : Fin 32) (x2 : Word) (h : exec (.snapshotFire x0 x1 x2) s = .next t) : Keeps s t := by
  exact Host.Outcome.next.inj h ▸ writeAccess_keeps (.refl s)
theorem keep_snapshotPop (x0 : Initiator) (x1 : Fin 32) (x2 : Word) (h : exec (.snapshotPop x0 x1 x2) s = .next t) : Keeps s t := by
  exact Host.Outcome.next.inj h ▸ writeAccess_keeps (.refl s)
theorem keep_epochPeriodExpiry (h : exec .epochPeriodExpiry s = .next t) : Keeps s t := by
  exact Host.Outcome.next.inj h ▸ epochPeriod_keeps (.refl s)
theorem keep_minspExpiry (h : exec .minspExpiry s = .next t) : Keeps s t := by
  rw [← Host.Outcome.next.inj h]
  repeat' first
    | with_reducible exact Keeps.refl s
    | with_reducible apply stageRuns_keeps
    | with_reducible apply minspExpiry_keeps
    | (with_reducible apply keeps_ite)
    | intro _
    | split
    | assumption
theorem keep_jrcCutover (x0 : Initiator) (x1 : Word) (h : exec (.jrcCutover x0 x1) s = .next t) : Keeps s t := by
  exact Host.Outcome.next.inj h ▸ writeAccess_keeps (.refl s)
theorem keep_cutoverDone (h : exec .cutoverDone s = .next t) : Keeps s t := by
  exact Host.Outcome.next.inj h ▸ cutoverDone_keeps (.refl s)
theorem keep_jrcCommit (x0 : Initiator) (x1 : Word) (h : exec (.jrcCommit x0 x1) s = .next t) : Keeps s t := by
  exact Host.Outcome.next.inj h ▸ writeAccess_keeps (.refl s)
theorem keep_rootCommitDone (h : exec .rootCommitDone s = .next t) : Keeps s t := by
  exact Host.Outcome.next.inj h ▸ rootCommitted_keeps (.refl s)
theorem keep_packingFillwaitExpiry (x0 : Nat) (h : exec (.packingFillwaitExpiry x0) s = .next t) : Keeps s t := by
  exact Host.Outcome.next.inj h ▸ fillwait_keeps (.refl s)
theorem keep_bundleWaitEnd (h : exec .bundleWaitEnd s = .next t) : Keeps s t := by
  exact Host.Outcome.next.inj h ▸ bundleWaitEnd_keeps (.refl s)
theorem keep_deallocBundleTimeout (x0 : Nat) (h : exec (.deallocBundleTimeout x0) s = .next t) : Keeps s t := by
  exact Host.Outcome.next.inj h ▸ deallocTimeout_keeps (.refl s)
theorem keep_heatHalving (h : exec .heatHalving s = .next t) : Keeps s t := by
  exact Host.Outcome.next.inj h ▸ heatHalving_keeps (.refl s)
theorem keep_lifeClockTick (h : exec .lifeClockTick s = .next t) : Keeps s t := by
  exact Host.Outcome.next.inj h ▸ lifeTick_keeps (.refl s)
theorem keep_victimScan (x0 : Initiator) (x1 : Word) (h : exec (.victimScan x0 x1) s = .next t) : Keeps s t := by
  exact Host.Outcome.next.inj h ▸ writeAccess_keeps (.refl s)
theorem keep_victimScanDone (h : exec .victimScanDone s = .next t) : Keeps s t := by
  exact Host.Outcome.next.inj h ▸ victimScanDone_keeps (.refl s)
theorem keep_jobSubmit (x0 : Initiator) (x1 : Nat) (x2 : List JobReq) (h : exec (.jobSubmit x0 x1 x2) s = .next t) : Keeps s t := by
  exact Host.Outcome.next.inj h ▸ writeAccess_keeps (.refl s)
theorem keep_jobDone (x0 : Nat) (h : exec (.jobDone x0) s = .next t) : Keeps s t := by
  exact Host.Outcome.next.inj h ▸ jobDone_keeps (.refl s)
theorem keep_jobAbort (x0 : Initiator) (x1 : Word) (h : exec (.jobAbort x0 x1) s = .next t) : Keeps s t := by
  exact Host.Outcome.next.inj h ▸ writeAccess_keeps (.refl s)
theorem keep_eraseComplete (x0 x1 : Nat) (x2 : DieOutcome) (h : exec (.eraseComplete x0 x1 x2) s = .next t) : Keeps s t := by
  exact Host.Outcome.next.inj h ▸ eraseComplete_keeps (.refl s)
theorem keep_refreshRelocation (h : exec .refreshRelocation s = .next t) : Keeps s t := by
  rw [← Host.Outcome.next.inj h]
  repeat' first
    | with_reducible exact Keeps.refl s
    | with_reducible apply readsOver_keeps
    | with_reducible apply refreshRelocation_keeps
    | (with_reducible apply keeps_ite)
    | intro _
    | split
    | assumption
theorem keep_lunRetire (x0 : Initiator) (x1 x2 : Fin 32) (h : exec (.lunRetire x0 x1 x2) s = .next t) : Keeps s t := by
  exact Host.Outcome.next.inj h ▸ writeAccess_keeps (.refl s)
theorem keep_channelRetire (x0 : Initiator) (x1 : Fin 32) (h : exec (.channelRetire x0 x1) s = .next t) : Keeps s t := by
  exact Host.Outcome.next.inj h ▸ writeAccess_keeps (.refl s)
theorem keep_channelSweepDone (x0 : Fin 32) (h : exec (.channelSweepDone x0) s = .next t) : Keeps s t := by
  exact Host.Outcome.next.inj h ▸ channelSweepDone_keeps (.refl s)
theorem keep_mapRecountDone (h : exec .mapRecountDone s = .next t) : Keeps s t := by
  exact Host.Outcome.next.inj h ▸ recountEnd_keeps (.refl s)
theorem keep_zeroFillStart (x0 : Initiator) (x1 : Word) (h : exec (.zeroFillStart x0 x1) s = .next t) : Keeps s t := by
  exact Host.Outcome.next.inj h ▸ writeAccess_keeps (.refl s)
theorem keep_zeroFillDone (h : exec .zeroFillDone s = .next t) : Keeps s t := by
  exact Host.Outcome.next.inj h ▸ fillDoneAll_keeps (.refl s)
theorem keep_mergeAgeFlush (x0 : Nat) (x1 : UnitRead) (x2 : BitVec 512) (h : exec (.mergeAgeFlush x0 x1 x2) s = .next t) : Keeps s t := by
  exact Host.Outcome.next.inj h ▸ mergeAge_keeps (.refl s)
theorem keep_segmentRebuildDone (x0 : Nat) (x1 : Bool) (h : exec (.segmentRebuildDone x0 x1) s = .next t) : Keeps s t := by
  exact Host.Outcome.next.inj h ▸ segmentDone_keeps (.refl s)
theorem keep_scrubStart (x0 : Initiator) (x1 : Word) (h : exec (.scrubStart x0 x1) s = .next t) : Keeps s t := by
  exact Host.Outcome.next.inj h ▸ writeAccess_keeps (.refl s)
theorem keep_scrubStop (x0 : Initiator) (x1 : Word) (h : exec (.scrubStop x0 x1) s = .next t) : Keeps s t := by
  exact Host.Outcome.next.inj h ▸ writeAccess_keeps (.refl s)
theorem keep_scrubDone (x0 : List (Nat × UnitRead)) (h : exec (.scrubDone x0) s = .next t) : Keeps s t := by
  exact Host.Outcome.next.inj h ▸ scrubDone_keeps (.refl s)
theorem keep_jramLineSwitch (x0 x1 : Nat) (h : exec (.jramLineSwitch x0 x1) s = .next t) : Keeps s t := by
  exact Host.Outcome.next.inj h ▸ lineSwitch_keeps (.refl s)
theorem keep_patrolReadDone (x0 x1 x2 x3 x4 x5 : Nat) (x6 : List Nat) (h : exec (.patrolReadDone x0 x1 x2 x3 x4 x5 x6) s = .next t) : Keeps s t := by
  exact Host.Outcome.next.inj h ▸ patrolReadDone_keeps (.refl s)
theorem keep_patrolRescan (h : exec .patrolRescan s = .next t) : Keeps s t := by
  exact Host.Outcome.next.inj h ▸ rescan_keeps (.refl s)
theorem keep_patrolTageTick (h : exec .patrolTageTick s = .next t) : Keeps s t := by
  exact Host.Outcome.next.inj h ▸ tageTick_keeps (.refl s)
theorem keep_patrolFloorPace (h : exec .patrolFloorPace s = .next t) : Keeps s t := by
  exact Host.Outcome.next.inj h ▸ floorPace_keeps (.refl s)
theorem keep_ownerSearch (x0 : Initiator) (x1 : Word) (x2 : List (Ppa × Bool)) (h : exec (.ownerSearch x0 x1 x2) s = .next t) : Keeps s t := by
  exact Host.Outcome.next.inj h ▸ writeAccess_keeps (.refl s)
theorem keep_ownerSearchDone (h : exec .ownerSearchDone s = .next t) : Keeps s t := by
  exact Host.Outcome.next.inj h ▸ ownerSearchDone_keeps (.refl s)
theorem keep_ccEnSet (x0 : Port) (x1 : CcFields) (x2 : Aqa) (h : exec (.ccEnSet x0 x1 x2) s = .next t) : Keeps s t := by
  exact Host.Outcome.next.inj h ▸ enableController_keeps (.refl s)
theorem keep_ccEnClear (x0 : Port) (h : exec (.ccEnClear x0) s = .next t) : Keeps s t := by
  exact Host.Outcome.next.inj h ▸ disableController_keeps (.refl s)
theorem keep_shutdownNormal (x0 : Port) (h : exec (.shutdownNormal x0) s = .next t) : Keeps s t := by
  exact Host.Outcome.next.inj h ▸ shutdownOrderly_keeps (.refl s)
theorem keep_shutdownAbrupt (x0 : Port) (h : exec (.shutdownAbrupt x0) s = .next t) : Keeps s t := by
  exact Host.Outcome.next.inj h ▸ shutdownAtOnce_keeps (.refl s)
theorem keep_functionLevelReset (x0 : Port) (h : exec (.functionLevelReset x0) s = .next t) : Keeps s t := by
  exact Host.Outcome.next.inj h ▸ flr_keeps (.refl s)
theorem keep_hotResetOrPerst (x0 : Port) (x1 : Bool) (h : exec (.hotResetOrPerst x0 x1) s = .next t) : Keeps s t := by
  exact Host.Outcome.next.inj h ▸ conventionalReset_keeps (.refl s)
theorem keep_linkDown (x0 : Port) (h : exec (.linkDown x0) s = .next t) : Keeps s t := by
  exact Host.Outcome.next.inj h ▸ linkLost_keeps (.refl s)
theorem keep_linkUp (x0 : Port) (x1 x2 : Nat) (x3 : Bool) (h : exec (.linkUp x0 x1 x2 x3) s = .next t) : Keeps s t := by
  exact Host.Outcome.next.inj h ▸ linkTrained_keeps (.refl s)
theorem keep_drainComplete (x0 : Port) (h : exec (.drainComplete x0) s = .next t) : Keeps s t := by
  exact Host.Outcome.next.inj h ▸ drainEnd_keeps (.refl s)
theorem keep_ltrSend (x0 : Port) (x1 : Nat) (h : exec (.ltrSend x0 x1) s = .next t) : Keeps s t := by
  exact Host.Outcome.next.inj h ▸ ltrMessage_keeps (.refl s)
theorem keep_perstNDeassert (x0 : Port) (h : exec (.perstNDeassert x0) s = .next t) : Keeps s t := by
  exact Host.Outcome.next.inj h ▸ perstOff_keeps (.refl s)
theorem keep_configurationRequest (x0 : Port) (x1 : CfgReq) (h : exec (.configurationRequest x0 x1) s = .next t) : Keeps s t := by
  exact Host.Outcome.next.inj h ▸ configAccess_keeps (.refl s)
theorem keep_msixTableWrite (x0 : Port) (x1 : Nat) (x2 : Bool) (x3 x4 : Nat) (h : exec (.msixTableWrite x0 x1 x2 x3 x4) s = .next t) : Keeps s t := by
  exact Host.Outcome.next.inj h ▸ msixWrite_keeps (.refl s)
theorem keep_interruptCoalescingExpiry (x0 : Port) (x1 : Nat) (h : exec (.interruptCoalescingExpiry x0 x1) s = .next t) : Keeps s t := by
  exact Host.Outcome.next.inj h ▸ coalExpiry_keeps (.refl s)
theorem keep_pcieUncorrectableError (x0 : Port) (x1 : Option Nat) (h : exec (.pcieUncorrectableError x0 x1) s = .next t) : Keeps s t := by
  exact Host.Outcome.next.inj h ▸ pcieError_keeps (.refl s)
theorem keep_sqTailDoorbell (x0 : Port) (x1 x2 : Nat) (h : exec (.sqTailDoorbell x0 x1 x2) s = .next t) : Keeps s t := by
  exact Host.Outcome.next.inj h ▸ sqDoorbell_keeps (.refl s)
theorem keep_cqHeadDoorbell (x0 : Port) (x1 x2 : Nat) (h : exec (.cqHeadDoorbell x0 x1 x2) s = .next t) : Keeps s t := by
  exact Host.Outcome.next.inj h ▸ cqDoorbell_keeps (.refl s)
theorem keep_trackedCommandAccept (h : exec .trackedCommandAccept s = .next t) : Keeps s t := by
  exact Host.Outcome.next.inj h ▸ acceptWaiting_keeps (.refl s)
theorem keep_unsupportedOpcode (x0 : Sqe) (x1 : Nat) (x2 : Bool) (h : exec (.unsupportedOpcode x0 x1 x2) s = .next t) : Keeps s t := by
  exact Host.Outcome.next.inj h ▸ unsupported_keeps (.refl s)
theorem keep_flush (x0 : Sqe) (h : exec (.flush x0) s = .next t) : Keeps s t := by
  exact Host.Outcome.next.inj h ▸ flushCmd_keeps (.refl s)
theorem keep_write (x0 : Sqe) (x1 : IoFields) (x2 : Nat) (h : exec (.write x0 x1 x2) s = .next t) : Keeps s t := by
  exact Host.Outcome.next.inj h ▸ writeCmd_keeps (.refl s)
theorem keep_read (x0 : Sqe) (x1 : IoFields) (x2 : Bool) (h : exec (.read x0 x1 x2) s = .next t) : Keeps s t := by
  exact Host.Outcome.next.inj h ▸ fetchIo_keeps (.refl s)
theorem keep_compare (x0 : Sqe) (x1 : IoFields) (x2 : List HostBlock) (h : exec (.compare x0 x1 x2) s = .next t) : Keeps s t := by
  exact Host.Outcome.next.inj h ▸ fetchIo_keeps (.refl s)
theorem keep_writeZeroes (x0 : Sqe) (x1 : IoFields) (x2 : Bool) (h : exec (.writeZeroes x0 x1 x2) s = .next t) : Keeps s t := by
  exact Host.Outcome.next.inj h ▸ fetchIo_keeps (.refl s)
theorem keep_datasetManagement (x0 : Sqe) (x1 : List LetterRange) (x2 : Bool) (h : exec (.datasetManagement x0 x1 x2) s = .next t) : Keeps s t := by
  exact Host.Outcome.next.inj h ▸ dsmCmd_keeps (.refl s)
theorem keep_verify (x0 : Sqe) (x1 : IoFields) (h : exec (.verify x0 x1) s = .next t) : Keeps s t := by
  exact Host.Outcome.next.inj h ▸ fetchIo_keeps (.refl s)
theorem keep_writeDataTransferDone (x0 : Nat) (x1 : List HostBlock) (x2 x3 : Bool) (h : exec (.writeDataTransferDone x0 x1 x2 x3) s = .next t) : Keeps s t := by
  exact Host.Outcome.next.inj h ▸ writeData_keeps (.refl s)
theorem keep_commandRelease (x0 : Nat) (x1 : List LineReq) (h : exec (.commandRelease x0 x1) s = .next t) : Keeps s t := by
  exact Host.Outcome.next.inj h ▸ release_keeps (.refl s)
theorem keep_journalBatchStart (h : exec .journalBatchStart s = .next t) : Keeps s t := by
  exact Host.Outcome.next.inj h ▸ batchStart_keeps (.refl s)
theorem keep_commitAck (x0 : List LineReq) (h : exec (.commitAck x0) s = .next t) : Keeps s t := by
  exact Host.Outcome.next.inj h ▸ commitEnded_keeps (.refl s)
theorem keep_trackerFault (h : exec .trackerFault s = .next t) : Keeps s t := by
  exact Host.Outcome.next.inj h ▸ trackerFault_keeps (.refl s)
theorem keep_trackerReinit (h : exec .trackerReinit s = .next t) : Keeps s t := by
  exact Host.Outcome.next.inj h ▸ trackerReinit_keeps (.refl s)
theorem keep_waitlimExceeded (x0 : Nat) (h : exec (.waitlimExceeded x0) s = .next t) : Keeps s t := by
  exact Host.Outcome.next.inj h ▸ waitlim_keeps (.refl s)
theorem keep_srtHwmClr (x0 : Initiator) (x1 : Word) (h : exec (.srtHwmClr x0 x1) s = .next t) : Keeps s t := by
  exact Host.Outcome.next.inj h ▸ writeAccess_keeps (.refl s)
theorem keep_abort (x0 : Sqe) (x1 x2 : Nat) (h : exec (.abort x0 x1 x2) s = .next t) : Keeps s t := by
  exact Host.Outcome.next.inj h ▸ abortCmd_keeps (.refl s)
theorem keep_recorderWriteRecord (x0 : Initiator) (x1 : Word) (h : exec (.recorderWriteRecord x0 x1) s = .next t) : Keeps s t := by
  exact Host.Outcome.next.inj h ▸ writeAccess_keeps (.refl s)
theorem keep_recorderEntryWritten (x0 : Nat) (x1 : Bool) (h : exec (.recorderEntryWritten x0 x1) s = .next t) : Keeps s t := by
  exact Host.Outcome.next.inj h ▸ entryWritten_keeps (.refl s)
theorem keep_recorderCursorWrite (x0 : Initiator) (x1 : Dword) (x2 : Bool) (h : exec (.recorderCursorWrite x0 x1 x2) s = .next t) : Keeps s t := by
  exact Host.Outcome.next.inj h ▸ writeAccess_keeps (.refl s)
theorem keep_recorderCursorNext (x0 : Initiator) (x1 : Word) (x2 : Bool) (h : exec (.recorderCursorNext x0 x1 x2) s = .next t) : Keeps s t := by
  exact Host.Outcome.next.inj h ▸ writeAccess_keeps (.refl s)
theorem keep_recorderFlushsup (x0 : Initiator) (x1 : Word) (h : exec (.recorderFlushsup x0 x1) s = .next t) : Keeps s t := by
  exact Host.Outcome.next.inj h ▸ writeAccess_keeps (.refl s)
theorem keep_recorderRearm (x0 : Initiator) (x1 : Word) (h : exec (.recorderRearm x0 x1) s = .next t) : Keeps s t := by
  exact Host.Outcome.next.inj h ▸ writeAccess_keeps (.refl s)
theorem keep_recorderScanDone (h : exec .recorderScanDone s = .next t) : Keeps s t := by
  exact Host.Outcome.next.inj h ▸ scanDone_keeps (.refl s)
theorem keep_flashonlyBufferFlush (h : exec .flashonlyBufferFlush s = .next t) : Keeps s t := by
  exact Host.Outcome.next.inj h ▸ flashFlush_keeps (.refl s)
theorem keep_recorderPaceRefill (h : exec .recorderPaceRefill s = .next t) : Keeps s t := by
  exact Host.Outcome.next.inj h ▸ paceRefill_keeps (.refl s)
theorem keep_registerWrite (x0 : Initiator) (x1 x2 : Nat) (x3 : Dword) (h : exec (.registerWrite x0 x1 x2 x3) s = .next t) : Keeps s t := by
  exact Host.Outcome.next.inj h ▸ writeAccess_keeps (.refl s)
theorem keep_bar2Access (x0 : Port) (x1 x2 : Nat) (x3 : Option Dword) (h : exec (.bar2Access x0 x1 x2 x3) s = .next t) : Keeps s t := by
  rw [← Host.Outcome.next.inj h]
  repeat' first
    | with_reducible exact Keeps.refl s
    | with_reducible apply writeAccess_keeps
    | with_reducible apply readAccess_keeps
    | (with_reducible apply keeps_ite)
    | intro _
    | split
    | assumption
theorem keep_blockCtlWrite (x0 : Initiator) (x1 : Blk) (x2 : Fin 32) (x3 : Word) (h : exec (.blockCtlWrite x0 x1 x2 x3) s = .next t) : Keeps s t := by
  exact Host.Outcome.next.inj h ▸ writeAccess_keeps (.refl s)
theorem keep_disableSequenceDone (x0 : Blk) (x1 : Fin 32) (h : exec (.disableSequenceDone x0 x1) s = .next t) : Keeps s t := by
  exact Host.Outcome.next.inj h ▸ disableDone_keeps (.refl s)
theorem keep_evfDoorbellWrite (x0 : Initiator) (x1 : Word) (h : exec (.evfDoorbellWrite x0 x1) s = .next t) : Keeps s t := by
  exact Host.Outcome.next.inj h ▸ writeAccess_keeps (.refl s)
theorem keep_holdoffExpiry (x0 : Port) (x1 : Bool) (h : exec (.holdoffExpiry x0 x1) s = .next t) : Keeps s t := by
  exact Host.Outcome.next.inj h ▸ holdoffEnd_keeps (.refl s)
theorem keep_timerFire (x0 : Fin 14) (h : exec (.timerFire x0) s = .next t) : Keeps s t := by
  exact Host.Outcome.next.inj h ▸ timerFire_keeps (.refl s)
theorem keep_watchdogExpiry (x0 : Fin 10) (h : exec (.watchdogExpiry x0) s = .next t) : Keeps s t := by
  exact Host.Outcome.next.inj h ▸ watchdog_keeps (.refl s)
theorem keep_watchdogKick (x0 : Initiator) (x1 : Fin 10) (x2 : Word) (h : exec (.watchdogKick x0 x1 x2) s = .next t) : Keeps s t := by
  exact Host.Outcome.next.inj h ▸ writeAccess_keeps (.refl s)
theorem keep_faultyRegisterRead (x0 : Initiator) (x1 x2 : Nat) (h : exec (.faultyRegisterRead x0 x1 x2) s = .next t) : Keeps s t := by
  exact Host.Outcome.next.inj h ▸ readAccess_keeps (.refl s)
theorem keep_ringLinkUp (x0 : RingPort) (x1 : Bool) (h : exec (.ringLinkUp x0 x1) s = .next t) : Keeps s t := by
  exact Host.Outcome.next.inj h ▸ linkUpRing_keeps (.refl s)
theorem keep_ringLinkDown (x0 : RingPort) (h : exec (.ringLinkDown x0) s = .next t) : Keeps s t := by
  exact Host.Outcome.next.inj h ▸ linkDownRing_keeps (.refl s)
theorem keep_link (x0 : DispHdr) (x1 x2 x3 x4 : Nat) (h : exec (.link x0 x1 x2 x3 x4) s = .next t) : Keeps s t := by
  exact Host.Outcome.next.inj h ▸ linkRecv_keeps (.refl s)
theorem keep_beacon (x0 : DispHdr) (x1 x2 x3 x4 x5 x6 x7 x8 : Nat) (x9 : Bool) (h : exec (.beacon x0 x1 x2 x3 x4 x5 x6 x7 x8 x9) s = .next t) : Keeps s t := by
  exact Host.Outcome.next.inj h ▸ beaconRecv_keeps (.refl s)
theorem keep_syncReq (x0 : DispHdr) (x1 : Nat) (h : exec (.syncReq x0 x1) s = .next t) : Keeps s t := by
  exact Host.Outcome.next.inj h ▸ syncReq_keeps (.refl s)
theorem keep_syncRsp (x0 : DispHdr) (x1 x2 x3 x4 : Nat) (h : exec (.syncRsp x0 x1 x2 x3 x4) s = .next t) : Keeps s t := by
  exact Host.Outcome.next.inj h ▸ syncRsp_keeps (.refl s)
theorem keep_enum (x0 : DispHdr) (x1 x2 x3 x4 : Nat) (h : exec (.enum x0 x1 x2 x3 x4) s = .next t) : Keeps s t := by
  exact Host.Outcome.next.inj h ▸ enumRecv_keeps (.refl s)
theorem keep_enumend (x0 : DispHdr) (x1 x2 x3 x4 : Nat) (h : exec (.enumend x0 x1 x2 x3 x4) s = .next t) : Keeps s t := by
  exact Host.Outcome.next.inj h ▸ enumEnd_keeps (.refl s)
theorem keep_groupstate (x0 : DispHdr) (x1 : Bool) (x2 x3 x4 x5 x6 : Nat) (h : exec (.groupstate x0 x1 x2 x3 x4 x5 x6) s = .next t) : Keeps s t := by
  exact Host.Outcome.next.inj h ▸ groupstate_keeps (.refl s)
theorem keep_join (x0 : DispHdr) (x1 : Nat) (h : exec (.join x0 x1) s = .next t) : Keeps s t := by
  exact Host.Outcome.next.inj h ▸ joinRecv_keeps (.refl s)
theorem keep_ringAdmit (x0 : DispHdr) (x1 x2 x3 x4 : Nat) (h : exec (.ringAdmit x0 x1 x2 x3 x4) s = .next t) : Keeps s t := by
  exact Host.Outcome.next.inj h ▸ admitRecv_keeps (.refl s)
theorem keep_role (x0 : DispHdr) (x1 x2 : Nat) (h : exec (.role x0 x1 x2) s = .next t) : Keeps s t := by
  exact Host.Outcome.next.inj h ▸ roleRecv_keeps (.refl s)
theorem keep_sched (x0 : DispHdr) (x1 : Bool) (x2 x3 : Nat) (x4 : BitVec 384) (h : exec (.sched x0 x1 x2 x3 x4) s = .next t) : Keeps s t := by
  exact Host.Outcome.next.inj h ▸ schedRecv_keeps (.refl s)
theorem keep_ack (x0 : DispHdr) (x1 x2 : Nat) (h : exec (.ack x0 x1 x2) s = .next t) : Keeps s t := by
  exact Host.Outcome.next.inj h ▸ ackRecv_keeps (.refl s)
theorem keep_act (x0 : DispHdr) (x1 x2 x3 : Nat) (h : exec (.act x0 x1 x2 x3) s = .next t) : Keeps s t := by
  exact Host.Outcome.next.inj h ▸ actRecv_keeps (.refl s)
theorem keep_relOffer (x0 : DispHdr) (x1 x2 : Nat) (h : exec (.relOffer x0 x1 x2) s = .next t) : Keeps s t := by
  exact Host.Outcome.next.inj h ▸ relOfferHeld_keeps (.refl s)
theorem keep_relData (x0 : DispHdr) (x1 : Nat) (x2 : List Byte) (h : exec (.relData x0 x1 x2) s = .next t) : Keeps s t := by
  exact Host.Outcome.next.inj h ▸ relDataVerify_keeps (.refl s)
theorem keep_relAck (x0 : DispHdr) (x1 : Nat) (h : exec (.relAck x0 x1) s = .next t) : Keeps s t := by
  exact Host.Outcome.next.inj h ▸ relAck_keeps (.refl s)
theorem keep_relHave (x0 : DispHdr) (x1 : Nat) (h : exec (.relHave x0 x1) s = .next t) : Keeps s t := by
  exact Host.Outcome.next.inj h ▸ relHave_keeps (.refl s)
theorem keep_ringFirmwareDispatch (x0 : DispHdr) (x1 : Nat) (x2 : List Byte) (h : exec (.ringFirmwareDispatch x0 x1 x2) s = .next t) : Keeps s t := by
  exact Host.Outcome.next.inj h ▸ fwDispatch_keeps (.refl s)
theorem keep_ringTxDispatch (x0 : Initiator) (x1 : Word) (h : exec (.ringTxDispatch x0 x1) s = .next t) : Keeps s t := by
  exact Host.Outcome.next.inj h ▸ writeAccess_keeps (.refl s)
theorem keep_ringRxPop (x0 : Initiator) (x1 : Word) (h : exec (.ringRxPop x0 x1) s = .next t) : Keeps s t := by
  exact Host.Outcome.next.inj h ▸ writeAccess_keeps (.refl s)
theorem keep_rngEnumCommand (x0 : Initiator) (x1 : Word) (h : exec (.rngEnumCommand x0 x1) s = .next t) : Keeps s t := by
  exact Host.Outcome.next.inj h ▸ writeAccess_keeps (.refl s)
theorem keep_beaconSend (h : exec .beaconSend s = .next t) : Keeps s t := by
  exact Host.Outcome.next.inj h ▸ beaconSend_keeps (.refl s)
theorem keep_reachExpiry (x0 : Nat) (h : exec (.reachExpiry x0) s = .next t) : Keeps s t := by
  exact Host.Outcome.next.inj h ▸ reachExpiry_keeps (.refl s)
theorem keep_isolatedEntry (h : exec .isolatedEntry s = .next t) : Keeps s t := by
  exact Host.Outcome.next.inj h ▸ isolatedEntry_keeps (.refl s)
theorem keep_rejoin (h : exec .rejoin s = .next t) : Keeps s t := by
  exact Host.Outcome.next.inj h ▸ rejoin_keeps (.refl s)
theorem keep_isolatedAddressDrop (h : exec .isolatedAddressDrop s = .next t) : Keeps s t := by
  exact Host.Outcome.next.inj h ▸ addressDrop_keeps (.refl s)
theorem keep_enumStart (h : exec .enumStart s = .next t) : Keeps s t := by
  exact Host.Outcome.next.inj h ▸ enumStart_keeps (.refl s)
theorem keep_enumTimeout (h : exec .enumTimeout s = .next t) : Keeps s t := by
  exact Host.Outcome.next.inj h ▸ enumTimeout_keeps (.refl s)
theorem keep_joinSend (h : exec .joinSend s = .next t) : Keeps s t := by
  exact Host.Outcome.next.inj h ▸ joinSend_keeps (.refl s)
theorem keep_postmasterTakeover (h : exec .postmasterTakeover s = .next t) : Keeps s t := by
  exact Host.Outcome.next.inj h ▸ takeover_keeps (.refl s)
theorem keep_dispatchRepeat (x0 : Nat) (h : exec (.dispatchRepeat x0) s = .next t) : Keeps s t := by
  exact Host.Outcome.next.inj h ▸ dispatchRepeat_keeps (.refl s)
theorem keep_groupstateRequest (h : exec .groupstateRequest s = .next t) : Keeps s t := by
  exact Host.Outcome.next.inj h ▸ gsRequest_keeps (.refl s)
theorem keep_syncReqSend (h : exec .syncReqSend s = .next t) : Keeps s t := by
  exact Host.Outcome.next.inj h ▸ syncSend_keeps (.refl s)
theorem keep_slewDone (h : exec .slewDone s = .next t) : Keeps s t := by
  exact Host.Outcome.next.inj h ▸ slewDone_keeps (.refl s)
theorem keep_scheduleEffective (h : exec .scheduleEffective s = .next t) : Keeps s t := by
  exact Host.Outcome.next.inj h ▸ schedEffective_keeps (.refl s)
theorem keep_windowBoundary (h : exec .windowBoundary s = .next t) : Keeps s t := by
  exact Host.Outcome.next.inj h ▸ windowBoundary_keeps (.refl s)
theorem keep_groupEpochTick (h : exec .groupEpochTick s = .next t) : Keeps s t := by
  exact Host.Outcome.next.inj h ▸ groupTick_keeps (.refl s)
theorem keep_staggeredWakeEnd (h : exec .staggeredWakeEnd s = .next t) : Keeps s t := by
  exact Host.Outcome.next.inj h ▸ wakeEnd_keeps (.refl s)
theorem keep_relayResend (x0 : RingPort) (h : exec (.relayResend x0) s = .next t) : Keeps s t := by
  exact Host.Outcome.next.inj h ▸ relayResend_keeps (.refl s)
theorem keep_activationTime (h : exec .activationTime s = .next t) : Keeps s t := by
  exact Host.Outcome.next.inj h ▸ activationTime_keeps (.refl s)
theorem keep_ringSignalDetect (x0 : RingPort) (h : exec (.ringSignalDetect x0) s = .next t) : Keeps s t := by
  exact Host.Outcome.next.inj h ▸ signalDetect_keeps (.refl s)
theorem keep_holdoverExpiry (h : exec .holdoverExpiry s = .next t) : Keeps s t := by
  exact Host.Outcome.next.inj h ▸ holdoverExpiry_keeps (.refl s)
theorem keep_dispatchFrameError (x0 : RingPort) (h : exec (.dispatchFrameError x0) s = .next t) : Keeps s t := by
  exact Host.Outcome.next.inj h ▸ frameError_keeps (.refl s)
theorem keep_reservedDispatchType (x0 : DispHdr) (x1 : Nat) (h : exec (.reservedDispatchType x0 x1) s = .next t) : Keeps s t := by
  exact Host.Outcome.next.inj h ▸ reservedType_keeps (.refl s)
theorem keep_resetNAssert (x0 : Nat) (h : exec (.resetNAssert x0) s = .next t) : Keeps s t := by
  exact Host.Outcome.next.inj h ▸ resetAssert_keeps (.refl s)
theorem keep_resetRelease (h : exec .resetRelease s = .next t) : Keeps s t := by
  exact Host.Outcome.next.inj h ▸ resetRelease_keeps (.refl s)
theorem keep_cfgRstWarm (x0 : Initiator) (x1 : Word) (h : exec (.cfgRstWarm x0 x1) s = .next t) : Keeps s t := by
  exact Host.Outcome.next.inj h ▸ writeAccess_keeps (.refl s)
theorem keep_norRead (x0 : Initiator) (h : exec (.norRead x0) s = .next t) : Keeps s t := by
  exact Host.Outcome.next.inj h ▸ writeAccess_keeps (.refl s)
theorem keep_norWrite (x0 : Initiator) (h : exec (.norWrite x0) s = .next t) : Keeps s t := by
  exact Host.Outcome.next.inj h ▸ writeAccess_keeps (.refl s)
theorem keep_norBasewr (x0 : Initiator) (h : exec (.norBasewr x0) s = .next t) : Keeps s t := by
  exact Host.Outcome.next.inj h ▸ writeAccess_keeps (.refl s)
theorem keep_norOvlwr (x0 : Initiator) (h : exec (.norOvlwr x0) s = .next t) : Keeps s t := by
  exact Host.Outcome.next.inj h ▸ writeAccess_keeps (.refl s)
theorem keep_norSlotwr (x0 : Initiator) (x1 : Bool) (h : exec (.norSlotwr x0 x1) s = .next t) : Keeps s t := by
  exact Host.Outcome.next.inj h ▸ writeAccess_keeps (.refl s)
theorem keep_norBootrec (x0 : Initiator) (x1 x2 x3 : Bool) (h : exec (.norBootrec x0 x1 x2 x3) s = .next t) : Keeps s t := by
  rw [← Host.Outcome.next.inj h]
  repeat' first
    | with_reducible exact Keeps.refl s
    | with_reducible apply writeAccess_keeps
    | with_reducible apply commissioned_keeps
    | (with_reducible apply keeps_ite)
    | intro _
    | split
    | assumption
theorem keep_norIdwr (x0 : Initiator) (h : exec (.norIdwr x0) s = .next t) : Keeps s t := by
  exact Host.Outcome.next.inj h ▸ writeAccess_keeps (.refl s)
theorem keep_norOpDone (x0 x1 : Bool) (h : exec (.norOpDone x0 x1) s = .next t) : Keeps s t := by
  exact Host.Outcome.next.inj h ▸ norEnd_keeps (.refl s)
theorem keep_xipFetch (x0 : Initiator) (x1 x2 : Nat) (h : exec (.xipFetch x0 x1 x2) s = .next t) : Keeps s t := by
  exact Host.Outcome.next.inj h ▸ xipFetch_keeps (.refl s)
theorem keep_norEraseResume (h : exec .norEraseResume s = .next t) : Keeps s t := by
  exact Host.Outcome.next.inj h ▸ norResume_keeps (.refl s)
theorem keep_norEraseSuspend (x0 : Nat) (h : exec (.norEraseSuspend x0) s = .next t) : Keeps s t := by
  exact Host.Outcome.next.inj h ▸ norSuspend_keeps (.refl s)
theorem keep_norPageProgramDone (h : exec .norPageProgramDone s = .next t) : Keeps s t := by
  exact Host.Outcome.next.inj h ▸ norPageDone_keeps (.refl s)
theorem keep_thermalRound (x0 x1 : List Reading) (x2 : List (Option Nat)) (h : exec (.thermalRound x0 x1 x2) s = .next t) : Keeps s t := by
  exact Host.Outcome.next.inj h ▸ thermalRound_keeps (.refl s)
theorem keep_sensorBroken (x0 : Nat) (h : exec (.sensorBroken x0) s = .next t) : Keeps s t := by
  exact Host.Outcome.next.inj h ▸ sensorBroken_keeps (.refl s)
theorem keep_extLimit (x0 : Fin 4) (h : exec (.extLimit x0) s = .next t) : Keeps s t := by
  exact Host.Outcome.next.inj h ▸ extLimit_keeps (.refl s)
theorem keep_warningChange (h : exec .warningChange s = .next t) : Keeps s t := by
  exact Host.Outcome.next.inj h ▸ warningChange_keeps (.refl s)
theorem keep_throttleChange (h : exec .throttleChange s = .next t) : Keeps s t := by
  exact Host.Outcome.next.inj h ▸ throttleChange_keeps (.refl s)
theorem keep_thermalShutdown (h : exec .thermalShutdown s = .next t) : Keeps s t := by
  exact Host.Outcome.next.inj h ▸ thermalShutdown_keeps (.refl s)
theorem keep_thermalRestart (h : exec .thermalRestart s = .next t) : Keeps s t := by
  exact Host.Outcome.next.inj h ▸ thermalRestart_keeps (.refl s)
theorem keep_bandChange (h : exec .bandChange s = .next t) : Keeps s t := by
  exact Host.Outcome.next.inj h ▸ bandTrained_keeps (.refl s)
theorem keep_supplyOutOfWindow (x0 : Fin 12) (h : exec (.supplyOutOfWindow x0) s = .next t) : Keeps s t := by
  exact Host.Outcome.next.inj h ▸ supplyOut_keeps (.refl s)
theorem keep_idleTimerExpiry (h : exec .idleTimerExpiry s = .next t) : Keeps s t := by
  exact Host.Outcome.next.inj h ▸ idleTimer_keeps (.refl s)
theorem keep_psEntry (h : exec .psEntry s = .next t) : Keeps s t := by
  exact Host.Outcome.next.inj h ▸ psEntry_keeps (.refl s)
theorem keep_psExit (h : exec .psExit s = .next t) : Keeps s t := by
  exact Host.Outcome.next.inj h ▸ psExit_keeps (.refl s)
theorem keep_psChangeDeferred (h : exec .psChangeDeferred s = .next t) : Keeps s t := by
  exact Host.Outcome.next.inj h ▸ psDeferred_keeps (.refl s)
theorem keep_avfsEvaluation (x0 : Nat) (x1 : List Int) (h : exec (.avfsEvaluation x0 x1) s = .next t) : Keeps s t := by
  exact Host.Outcome.next.inj h ▸ avfsEval_keeps (.refl s)
theorem keep_avselWrite (x0 : Initiator) (x1 : Word) (h : exec (.avselWrite x0 x1) s = .next t) : Keeps s t := by
  exact Host.Outcome.next.inj h ▸ writeAccess_keeps (.refl s)
theorem keep_pwrFailAssert (x0 : Nat) (h : exec (.pwrFailAssert x0) s = .next t) : Keeps s t := by
  exact Host.Outcome.next.inj h ▸ pwrFail_keeps (.refl s)
theorem keep_powerFailRestart (h : exec .powerFailRestart s = .next t) : Keeps s t := by
  exact Host.Outcome.next.inj h ▸ failRestart_keeps (.refl s)
theorem keep_supplyPowerOn (h : exec .supplyPowerOn s = .next t) : Keeps s t := by
  exact Host.Outcome.next.inj h ▸ powerOn_keeps (.refl s)
theorem keep_supplyPowerLoss (h : exec .supplyPowerLoss s = .next t) : Keeps s t := by
  exact Host.Outcome.next.inj h ▸ powerLoss_keeps (.refl s)

end Sys2Proof.Machine
end

