-- ==== Sys2Proof/Laws/Pages.lean ====
section
/-! SUPPORT. The pages that the block returns: their length, and what a field of one reads as. -/

set_option Elab.async false

namespace Sys2Proof.Machine

theorem le_length (n v : Nat) : (le n v).length = n := by
  induction n generalizing v with
  | zero => rfl
  | succ n ih => simp [le, ih]
theorem leNat_le (n v : Nat) : leNat (le n v) = v % 256 ^ n := by
  induction n generalizing v with
  | zero => simp [le, leNat, Nat.mod_one]
  | succ n ih =>
    rw [le, leNat, ih, BitVec.toNat_ofNat, show (2 : Nat) ^ 8 = 256 from rfl, show 256 ^ (n + 1) = 256 * 256 ^ n from Nat.pow_succ',
      Nat.mod_mul]
theorem putBytes_length (b v : List Byte) (a : Nat) : (putBytes b a v).length = b.length := by
  simp only [putBytes, List.length_append, List.length_take, List.length_drop]
  omega
theorem pageOf_length (size : Nat) (l : List (Nat × Nat × Nat)) : (pageOf size l).length = size := by
  have : ∀ b : List Byte, (l.foldl (fun b f => putBytes b f.1 (le f.2.1 f.2.2)) b).length = b.length := by
    induction l with
    | nil => intro b; rfl
    | cons f r ih => intro b; rw [List.foldl_cons, ih, putBytes_length]
  rw [pageOf, this, List.length_replicate]
/-- The bytes just put, where they fit. -/
theorem fieldAt_putBytes_same (b : List Byte) (a n v : Nat) (h : a + n ≤ b.length) :
    fieldAt (putBytes b a (le n v)) a n = v % 256 ^ n := by
  have e : ((putBytes b a (le n v)).drop a).take n = le n v := by
    rw [putBytes, List.take_of_length_le (l := le n v) (by rw [le_length]; omega), List.append_assoc,
      List.drop_append_of_le_length (by simp; omega), List.drop_of_length_le (by simp), List.nil_append,
      List.take_append_of_le_length (by rw [le_length]), List.take_of_length_le (by rw [le_length])]
  rw [fieldAt, slice, e, padTo, le_length, Nat.sub_self, List.replicate_zero, List.append_nil, leNat_le]
/-- The bytes beside those just put. -/
theorem fieldAt_putBytes_other (b v : List Byte) (a o n : Nat) (h : o + n ≤ a ∨ a + v.length ≤ o) (hf : a ≤ b.length) :
    fieldAt (putBytes b a v) o n = fieldAt b o n := by
  have e : ((putBytes b a v).drop o).take n = (b.drop o).take n := by
    refine List.ext_getElem? fun i => ?_
    rw [List.getElem?_take, List.getElem?_take]
    split
    · rename_i hi
      rw [List.getElem?_drop, List.getElem?_drop, putBytes]
      rcases h with h | h
      · rw [List.append_assoc, List.getElem?_append_left (by simp; omega), List.getElem?_take, if_pos (by omega)]
      · by_cases hb : a + v.length ≤ b.length
        · rw [List.getElem?_append_right (by simp; omega), List.getElem?_drop]
          congr 1
          simp; omega
        · rw [List.getElem?_eq_none (by simp; omega), List.getElem?_eq_none (by omega)]
    · rfl
  rw [fieldAt, fieldAt, slice, slice, e]
/-- A field of a page that no later one overlaps. -/
theorem fieldAt_pageOf (size : Nat) (l r : List (Nat × Nat × Nat)) (f : Nat × Nat × Nat) (h : f.1 + f.2.1 ≤ size)
    (hr : ∀ g ∈ r, f.1 + f.2.1 ≤ g.1 ∨ g.1 + g.2.1 ≤ f.1) :
    fieldAt (pageOf size (l ++ f :: r)) f.1 f.2.1 = f.2.2 % 256 ^ f.2.1 := by
  have rest : ∀ b : List Byte, b.length = size →
      fieldAt (r.foldl (fun b f => putBytes b f.1 (le f.2.1 f.2.2)) b) f.1 f.2.1 = fieldAt b f.1 f.2.1 := by
    induction r with
    | nil => intro b _; rfl
    | cons g r ih =>
      intro b hb
      rw [List.foldl_cons, ih (fun g hg => hr g (List.mem_cons_of_mem _ hg)) _ (by rw [putBytes_length, hb])]
      by_cases hg : g.1 ≤ b.length
      · exact fieldAt_putBytes_other _ _ _ _ _ (by rw [le_length]; exact hr g List.mem_cons_self) hg
      · have : putBytes b g.1 (le g.2.1 g.2.2) = b := by
          rw [putBytes, List.take_of_length_le (by omega), show b.length - g.1 = 0 by omega, List.take_zero,
            List.drop_of_length_le (by omega)]
          simp
        rw [this]
  have e : (l.foldl (fun b f => putBytes b f.1 (le f.2.1 f.2.2)) (List.replicate size 0)).length = size := pageOf_length size l
  rw [pageOf, List.foldl_append, List.foldl_cons, rest _ (by rw [putBytes_length, e])]
  exact fieldAt_putBytes_same _ _ _ _ (by rw [e]; exact h)

end Sys2Proof.Machine
end

