-- ==== Sys2Proof/Laws/Parity.lean ====
section
/-! SUPPORT. The arithmetic of P and Q (R225): multiplication by g acts on each byte of a payload by itself and has order 255, a
payload times a constant is a sum of powers of g, and every constant but 0 is a power of g. -/

set_option Elab.async false

namespace Sys2Proof.Machine

/-! ## Bytes of a payload -/

theorem rep_succ (v n : Nat) : v * ((2 ^ (8 * (n + 1)) - 1) / 255) = 2 ^ 8 * (v * ((2 ^ (8 * n) - 1) / 255)) + v := by
  have h : ∀ n, ∃ q, 2 ^ (8 * n) = 255 * q + 1 := fun n => by
    induction n with
    | zero => exact ⟨0, rfl⟩
    | succ n ih => obtain ⟨q, h⟩ := ih; exact ⟨256 * q + 1, by rw [show 8 * (n + 1) = 8 * n + 8 by ring, pow_add, h]; ring⟩
  obtain ⟨q, hq⟩ := h n
  have e : (2 ^ (8 * n) - 1) / 255 = q := by omega
  have e' : (2 ^ (8 * (n + 1)) - 1) / 255 = 256 * q + 1 := by rw [show 8 * (n + 1) = 8 * n + 8 by ring, pow_add]; omega
  rw [e, e']; ring

theorem testBit_rep {v : Nat} (hv : v < 256) (n i : Nat) :
    (v * ((2 ^ (8 * n) - 1) / 255)).testBit i = (decide (i < 8 * n) && v.testBit (i % 8)) := by
  induction n generalizing i with
  | zero => simp
  | succ n ih =>
    rw [rep_succ, Nat.testBit_two_pow_mul_add _ hv]
    split
    · rename_i h; rw [Nat.mod_eq_of_lt h]; simp; omega
    · rename_i h
      rw [ih, show (i - 8) % 8 = i % 8 by omega, show decide (i - 8 < 8 * n) = decide (i < 8 * (n + 1)) by simp; omega]

theorem getLsbD_everyByte {v : Nat} (hv : v < 256) (i : Nat) :
    (everyByte v).getLsbD i = (decide (i < 33024) && v.testBit (i % 8)) := by
  rw [everyByte, BitVec.getLsbD_ofNat, show (33024 : Nat) = 8 * 4128 from rfl, testBit_rep hv]
  simp

theorem topBit {j k d : Nat} (hk : k < 8) (hd : d < 8) :
    (!decide (8 * j + k < d) && Nat.testBit 1 ((8 * j + k - d) % 8)) = decide (k = d) := by
  have h1 : ∀ n, n < 8 → Nat.testBit 1 n = decide (n = 0) := by decide
  rw [h1 _ (Nat.mod_lt _ (by decide))]
  rw [Bool.eq_iff_iff]; simp only [Bool.and_eq_true, Bool.not_eq_true', decide_eq_true_eq, decide_eq_false_iff_not]
  omega
theorem lowBit {j k : Nat} (hk : k < 8) :
    (!decide (8 * j + k < 1) && Nat.testBit 127 ((8 * j + k - 1) % 8)) = decide (0 < k) := by
  have h7 : ∀ n, n < 8 → Nat.testBit 127 n = decide (n < 7) := by decide
  rw [h7 _ (Nat.mod_lt _ (by decide))]
  rw [Bool.eq_iff_iff]; simp only [Bool.and_eq_true, Bool.not_eq_true', decide_eq_true_eq, decide_eq_false_iff_not]
  omega

/-- Bit k of byte j of a product by g. -/
theorem getLsbD_gTimes (x : Payload) {j k : Nat} (hj : j < 4128) (hk : k < 8) :
    (gTimes x).getLsbD (8 * j + k) =
      ((decide (0 < k) && x.getLsbD (8 * j + k - 1)) ^^ (x.getLsbD (8 * j + 7) && decide (k = 0 ∨ k = 2 ∨ k = 3 ∨ k = 4))) := by
  have b : 8 * j + k < 33024 := by omega
  have r : ∀ d, decide (8 * j + k - d < 33024) = true := fun d => by simp; omega
  have t : ∀ d, d < 8 → (!decide (8 * j + k < d) && (x.getLsbD (7 + (8 * j + k - d)) && Nat.testBit 1 ((8 * j + k - d) % 8))) =
      (x.getLsbD (8 * j + 7) && decide (k = d)) := fun d hd => by
    rw [← topBit (j := j) hk hd]
    by_cases e : k = d
    · subst e; rw [show 7 + (8 * j + k - k) = 8 * j + 7 by omega]
      cases x.getLsbD (8 * j + 7) <;> simp
    · have := topBit (j := j) hk hd
      rw [show decide (k = d) = false by simpa using e] at this
      revert this
      cases (!decide (8 * j + k < d)) <;> cases Nat.testBit 1 ((8 * j + k - d) % 8) <;> simp
  have t0 := t 0 (by decide)
  simp only [Nat.not_lt_zero, decide_false, Bool.not_false, Bool.true_and, Nat.sub_zero] at t0
  have l : (!decide (8 * j + k < 1) && (x.getLsbD (8 * j + k - 1) && Nat.testBit 127 ((8 * j + k - 1) % 8))) =
      (decide (0 < k) && x.getLsbD (8 * j + k - 1)) := by
    rw [← lowBit (j := j) hk]
    cases (!decide (8 * j + k < 1)) <;> cases x.getLsbD (8 * j + k - 1) <;> simp
  simp only [gTimes, BitVec.getLsbD_xor, BitVec.getLsbD_shiftLeft, BitVec.getLsbD_and, BitVec.getLsbD_ushiftRight,
    getLsbD_everyByte (show 1 < 256 by decide), getLsbD_everyByte (show 127 < 256 by decide), b, r, decide_true, Bool.true_and, t0, t 2 (by decide),
    t 3 (by decide), t 4 (by decide), l]
  cases x.getLsbD (8 * j + 7) <;> simp
  interval_cases k <;> simp

/-- Byte j of a payload. -/
def byteAt (x : Payload) (j : Nat) : BitVec 8 := x.extractLsb' (8 * j) 8
/-- A byte multiplied by g. -/
def byteTimes (b : BitVec 8) : BitVec 8 := (b <<< 1) ^^^ (if b.getLsbD 7 then 0x1D else 0)

theorem payload_ext {x y : Payload} (h : ∀ j, j < 4128 → byteAt x j = byteAt y j) : x = y := by
  apply BitVec.eq_of_getLsbD_eq
  intro i hi
  have := congrArg (fun b => b.getLsbD (i % 8)) (h (i / 8) (by omega))
  simpa [byteAt, show i % 8 < 8 by omega, show 8 * (i / 8) + i % 8 = i by omega] using this

theorem byteAt_gTimes (x : Payload) {j : Nat} (hj : j < 4128) : byteAt (gTimes x) j = byteTimes (byteAt x j) := by
  apply BitVec.eq_of_getLsbD_eq
  intro k hk
  have e : (byteAt (gTimes x) j).getLsbD k = (gTimes x).getLsbD (8 * j + k) := by simp [byteAt, hk]
  have e2 : ∀ k, k < 8 → (byteAt x j).getLsbD k = x.getLsbD (8 * j + k) := fun k hk => by simp [byteAt, hk]
  rw [e, getLsbD_gTimes x hj hk, byteTimes]
  have e3 : ∀ k (h : k < 8), (byteAt x j)[k] = x.getLsbD (8 * j + k) := fun k h => e2 k h
  simp only [e2 7 (by decide), BitVec.getLsbD_xor, BitVec.getLsbD_shiftLeft]
  interval_cases k <;> cases x.getLsbD (8 * j + 7) <;> simp [e3]

theorem byteAt_xor (x y : Payload) (j : Nat) : byteAt (x ^^^ y) j = byteAt x j ^^^ byteAt y j := by
  simp [byteAt, BitVec.extractLsb'_xor]

/-! ## Multiplication by g -/

theorem xor_none (x : Payload) : x ^^^ (0 : Payload) = x := BitVec.xor_zero
theorem none_xor (x : Payload) : (0 : Payload) ^^^ x = x := BitVec.zero_xor

theorem byteTimes_xor (a b : BitVec 8) : byteTimes (a ^^^ b) = byteTimes a ^^^ byteTimes b := by
  simp only [byteTimes, BitVec.getLsbD_xor, BitVec.shiftLeft_xor_distrib]
  generalize a <<< 1 = x
  generalize b <<< 1 = y
  cases a.getLsbD 7 <;> cases b.getLsbD 7 <;> simp only [Bool.xor_false, Bool.xor_true, Bool.not_true, Bool.not_false, if_true, if_false, Bool.false_eq_true, BitVec.xor_zero]
  · rw [show ∀ z : BitVec 8, z ^^^ 0 = z from fun z => BitVec.xor_zero]; ac_rfl
  · ac_rfl
  · ac_rfl
  · rw [show x ^^^ 29 ^^^ (y ^^^ 29) = x ^^^ y ^^^ (29 ^^^ 29) by ac_rfl]; rfl

theorem gTimes_xor (x y : Payload) : gTimes (x ^^^ y) = gTimes x ^^^ gTimes y :=
  payload_ext fun j hj => by rw [byteAt_xor, byteAt_gTimes _ hj, byteAt_gTimes _ hj, byteAt_gTimes _ hj, byteAt_xor, byteTimes_xor]
@[simp] theorem gTimes_zero : gTimes 0 = 0 := by
  have := gTimes_xor 0 0
  simpa using this
@[simp] theorem gPowTimes_zero (n : Nat) : gPowTimes n 0 = 0 := by
  induction n with
  | zero => rfl
  | succ n ih => rw [gPowTimes, gTimes_zero, ih]
theorem gPowTimes_xor (n : Nat) (x y : Payload) : gPowTimes n (x ^^^ y) = gPowTimes n x ^^^ gPowTimes n y := by
  induction n generalizing x y with
  | zero => rfl
  | succ n ih => rw [gPowTimes, gTimes_xor, ih]; rfl
theorem gPowTimes_add (m n : Nat) (x : Payload) : gPowTimes (m + n) x = gPowTimes m (gPowTimes n x) := by
  induction n generalizing x with
  | zero => rfl
  | succ n ih => exact ih (gTimes x)
theorem gPowTimes_succ (n : Nat) (x : Payload) : gPowTimes (n + 1) x = gTimes (gPowTimes n x) := by
  rw [Nat.add_comm, gPowTimes_add]; rfl

def bytePow : Nat → BitVec 8 → BitVec 8
  | 0, b => b
  | n + 1, b => bytePow n (byteTimes b)
theorem byteAt_gPowTimes (n : Nat) (x : Payload) {j : Nat} (hj : j < 4128) : byteAt (gPowTimes n x) j = bytePow n (byteAt x j) := by
  induction n generalizing x with
  | zero => rfl
  | succ n ih => rw [gPowTimes, ih, byteAt_gTimes _ hj]; rfl
theorem bytePow_xor (n : Nat) (a b : BitVec 8) : bytePow n (a ^^^ b) = bytePow n a ^^^ bytePow n b := by
  induction n generalizing a b with
  | zero => rfl
  | succ n ih => rw [bytePow, byteTimes_xor, ih]; rfl
/-- g^8 = g^4 + g^3 + g^2 + 1. -/
theorem gPow_eight (x : Payload) : gPowTimes 8 x = x ^^^ gPowTimes 2 x ^^^ gPowTimes 3 x ^^^ gPowTimes 4 x :=
  payload_ext fun j hj => by
    simp only [byteAt_xor, byteAt_gPowTimes _ _ hj]
    generalize byteAt x j = b
    revert b; decide
theorem bytePow_order_basis : ∀ k : Fin 8, bytePow 255 (1#8 <<< k.val) = 1#8 <<< k.val := by decide +kernel
/-- A byte as the sum of its bits. -/
theorem byte_sum : ∀ b : BitVec 8, b = (List.range 8).foldl (fun v k => v ^^^ (if b.getLsbD k then 1#8 <<< k else 0)) 0 := by
  decide +kernel
/-- g has order 255. -/
theorem bytePow_order (b : BitVec 8) : bytePow 255 b = b := by
  have z : bytePow 255 0 = 0 := by have := bytePow_xor 255 0 0; simpa using this
  have h : ∀ k, k < 8 → bytePow 255 (if b.getLsbD k then 1#8 <<< k else 0) = if b.getLsbD k then 1#8 <<< k else 0 := fun k hk => by
    cases b.getLsbD k
    · exact z
    · exact bytePow_order_basis ⟨k, hk⟩
  have e := byte_sum b
  rw [e]
  simp only [show List.range 8 = [0, 1, 2, 3, 4, 5, 6, 7] from rfl, List.foldl, bytePow_xor, ← e]
  rw [h 0 (by decide), h 1 (by decide), h 2 (by decide), h 3 (by decide), h 4 (by decide), h 5 (by decide), h 6 (by decide),
    h 7 (by decide), z]
theorem gPowTimes_order (x : Payload) : gPowTimes 255 x = x :=
  payload_ext fun j hj => by rw [byteAt_gPowTimes _ _ hj, bytePow_order]
theorem gPowTimes_cycle (n : Nat) (x : Payload) : gPowTimes (255 * n) x = x := by
  induction n with
  | zero => rfl
  | succ n ih => rw [Nat.mul_succ, gPowTimes_add, gPowTimes_order, ih]
/-- Division by g^a undoes multiplication by it. -/
theorem gDivPow_gPowTimes {a : Nat} (h : a < 255) (x : Payload) : gDivPow a (gPowTimes a x) = x := by
  rw [gDivPow, ← gPowTimes_add, Nat.mod_eq_of_lt h, show 255 - a + a = 255 by omega, gPowTimes_order]

/-! ## Multiplication by a constant -/

theorem gmulConst_eq (c : Nat) (x : Payload) : gmulConst c x =
    (List.range 8).foldl (fun r i => r ^^^ (if c.testBit i then gPowTimes i x else 0)) 0 := by
  unfold gmulConst
  congr 1
  funext r i
  split <;> simp
theorem gmulConst_xor (a b : Nat) (x : Payload) : gmulConst (a ^^^ b) x = gmulConst a x ^^^ gmulConst b x := by
  have h : ∀ i, (if (a ^^^ b).testBit i then gPowTimes i x else (0 : Payload)) =
      (if a.testBit i then gPowTimes i x else 0) ^^^ (if b.testBit i then gPowTimes i x else 0) := fun i => by
    rw [Nat.testBit_xor]
    cases a.testBit i <;> cases b.testBit i <;> simp
  simp only [gmulConst_eq, h, show List.range 8 = [0, 1, 2, 3, 4, 5, 6, 7] from rfl, List.foldl]
  ac_rfl
@[simp] theorem gmulConst_zero (x : Payload) : gmulConst 0 x = 0 := by simp [gmulConst]
theorem gmulConst_one (x : Payload) : gmulConst 1 x = x := by
  simp only [gmulConst_eq, show List.range 8 = [0, 1, 2, 3, 4, 5, 6, 7] from rfl, List.foldl, show Nat.testBit 1 0 = true from rfl,
    show Nat.testBit 1 1 = false from rfl, show Nat.testBit 1 2 = false from rfl,
    show Nat.testBit 1 3 = false from rfl, show Nat.testBit 1 4 = false from rfl,
    show Nat.testBit 1 5 = false from rfl, show Nat.testBit 1 6 = false from rfl, show Nat.testBit 1 7 = false from rfl,
    if_true, if_false, Bool.false_eq_true, xor_none, none_xor]
  rfl

/-- A byte times g, as a number. -/
def byteDouble (v : Nat) : Nat := if 128 ≤ v then (v * 2) % 256 ^^^ 0x1D else v * 2
theorem byteDouble_lt {v : Nat} (h : v < 256) : byteDouble v < 256 := by
  unfold byteDouble
  split
  · exact Nat.xor_lt_two_pow (n := 8) (Nat.mod_lt _ (by decide)) (by decide)
  · omega
theorem gmulConst_double {w : Nat} (h : w < 128) (x : Payload) : gmulConst (w * 2) x = gmulConst w (gTimes x) := by
  have h0 : (w * 2).testBit 0 = false := by simp [Nat.testBit_zero]
  have hs : ∀ i, (w * 2).testBit (i + 1) = w.testBit i := fun i => by rw [Nat.testBit_succ]; simp
  have h7 : w.testBit 7 = false := Nat.testBit_lt_two_pow h
  simp only [gmulConst_eq, show List.range 8 = [0, 1, 2, 3, 4, 5, 6, 7] from rfl, List.foldl, h0, hs, h7, Bool.false_eq_true,
    if_false, xor_none, none_xor]
  rfl
theorem gmulConst_byteDouble {v : Nat} (h : v < 256) (x : Payload) : gmulConst (byteDouble v) x = gmulConst v (gTimes x) := by
  unfold byteDouble
  split
  · rename_i hv
    have e : v = 128 ^^^ (v - 128) := by
      have : ∀ w, w < 128 → 128 + w = 128 ^^^ w := by decide
      rw [← this _ (by omega)]; omega
    have h2 : gmulConst 128 (gTimes x) = gPowTimes 8 x := by
      simp only [gmulConst_eq, show List.range 8 = [0, 1, 2, 3, 4, 5, 6, 7] from rfl, List.foldl, show Nat.testBit 128 0 = false from rfl,
        show Nat.testBit 128 1 = false from rfl, show Nat.testBit 128 2 = false from rfl,
        show Nat.testBit 128 3 = false from rfl, show Nat.testBit 128 4 = false from rfl,
        show Nat.testBit 128 5 = false from rfl, show Nat.testBit 128 6 = false from rfl, show Nat.testBit 128 7 = true from rfl,
        if_true, if_false, Bool.false_eq_true, xor_none, none_xor]
      rfl
    have h3 : gmulConst 0x1D x = gPowTimes 8 x := by
      rw [gPow_eight]
      simp only [gmulConst_eq, show List.range 8 = [0, 1, 2, 3, 4, 5, 6, 7] from rfl, List.foldl, show Nat.testBit 29 0 = true from rfl,
        show Nat.testBit 29 1 = false from rfl, show Nat.testBit 29 2 = true from rfl,
        show Nat.testBit 29 3 = true from rfl, show Nat.testBit 29 4 = true from rfl,
        show Nat.testBit 29 5 = false from rfl, show Nat.testBit 29 6 = false from rfl, show Nat.testBit 29 7 = false from rfl,
        if_true, if_false, Bool.false_eq_true, xor_none, none_xor]
      rfl
    rw [gmulConst_xor, show v * 2 % 256 = (v - 128) * 2 by omega, gmulConst_double (by omega), h3]
    conv_rhs => rw [e, gmulConst_xor, h2]
    rw [BitVec.xor_comm]
  · rw [gmulConst_double (by omega)]

theorem gmulByte_two (v : Nat) : gmulByte v 2 = byteDouble v := by
  have : ∀ i, i < 8 → (2 : Nat).testBit i = decide (i = 1) := by decide
  simp [gmulByte, show List.range 8 = [0, 1, 2, 3, 4, 5, 6, 7] from rfl, this, byteDouble, List.range_succ]
def byteDoubles (i v : Nat) : Nat := (List.range i).foldl (fun v _ => byteDouble v) v
theorem byteDoubles_lt {v : Nat} (i : Nat) (h : v < 256) : byteDoubles i v < 256 := by
  unfold byteDoubles
  induction i with
  | zero => exact h
  | succ i ih => rw [List.range_succ, List.foldl_append]; exact byteDouble_lt ih
theorem gmulConst_byteDoubles {v : Nat} (i : Nat) (h : v < 256) (x : Payload) : gmulConst (byteDoubles i v) x = gmulConst v (gPowTimes i x) := by
  induction i generalizing x with
  | zero => rfl
  | succ i ih =>
    have e : byteDoubles (i + 1) v = byteDouble (byteDoubles i v) := by simp [byteDoubles, List.range_succ]
    rw [e, gmulConst_byteDouble (byteDoubles_lt i h), ih, gPowTimes]
theorem gpow_eq (n : Nat) : gpow n = byteDoubles (n % 255) 1 := by
  unfold gpow byteDoubles
  congr 1
  funext v _
  exact gmulByte_two v
theorem gpow_lt (n : Nat) : gpow n < 256 := by rw [gpow_eq]; exact byteDoubles_lt _ (by decide)
/-- A payload times the byte g^n is the payload times g, n times. -/
theorem gmulConst_gpow {n : Nat} (h : n < 255) (x : Payload) : gmulConst (gpow n) x = gPowTimes n x := by
  rw [gpow_eq, Nat.mod_eq_of_lt h, gmulConst_byteDoubles _ (by decide), gmulConst_one]
theorem gmulByte_eq (a b : Nat) : gmulByte a b = (List.range 8).foldl (fun r i => r ^^^ (if b.testBit i then byteDoubles i a else 0)) 0 := by
  unfold gmulByte
  congr 1
  funext r i
  split
  · rfl
  · simp
theorem gmulByte_lt {a : Nat} (h : a < 256) (b : Nat) : gmulByte a b < 256 := by
  have hx : ∀ {x y : Nat}, x < 256 → y < 256 → x ^^^ y < 256 := fun hx hy => Nat.xor_lt_two_pow (n := 8) hx hy
  have hi : ∀ i, (if b.testBit i then byteDoubles i a else 0) < 256 := fun i => by
    split
    · exact byteDoubles_lt i h
    · decide
  simp only [gmulByte_eq, show List.range 8 = [0, 1, 2, 3, 4, 5, 6, 7] from rfl, List.foldl]
  exact hx (hx (hx (hx (hx (hx (hx (hx (by decide) (hi 0)) (hi 1)) (hi 2)) (hi 3)) (hi 4)) (hi 5)) (hi 6)) (hi 7)
theorem gmulConst_sum (c : Nat) (x y : Payload) : gmulConst c (x ^^^ y) = gmulConst c x ^^^ gmulConst c y := by
  have h : ∀ i, (if c.testBit i then gPowTimes i (x ^^^ y) else (0 : Payload)) =
      (if c.testBit i then gPowTimes i x else 0) ^^^ (if c.testBit i then gPowTimes i y else 0) := fun i => by
    rw [gPowTimes_xor]; cases c.testBit i <;> simp
  simp only [gmulConst_eq, h, show List.range 8 = [0, 1, 2, 3, 4, 5, 6, 7] from rfl, List.foldl]
  ac_rfl
theorem gmulConst_of_zero (c : Nat) : gmulConst c 0 = 0 := by
  have := gmulConst_sum c 0 0
  simpa using this
/-- A product of bytes acts as the two one after the other. -/
theorem gmulConst_gmulByte {a : Nat} (h : a < 256) (b : Nat) (x : Payload) : gmulConst (gmulByte a b) x = gmulConst a (gmulConst b x) := by
  have hi : ∀ i, gmulConst (if b.testBit i then byteDoubles i a else 0) x = gmulConst a (if b.testBit i then gPowTimes i x else 0) := fun i => by
    cases b.testBit i
    · exact (gmulConst_zero x).trans (gmulConst_of_zero a).symm
    · simp [gmulConst_byteDoubles i h]
  rw [gmulConst_eq b x]
  simp only [gmulByte_eq, show List.range 8 = [0, 1, 2, 3, 4, 5, 6, 7] from rfl, List.foldl, gmulConst_xor, gmulConst_sum, hi,
    gmulConst_zero, gmulConst_of_zero]

/-- The powers of g: 1, g, g^2 and on. -/
def powers : Nat → Nat → List Nat
  | 0, _ => []
  | n + 1, v => v :: powers n (byteDouble v)
theorem mem_powers {c : Nat} (n v : Nat) (h : c ∈ powers n v) : ∃ k, k < n ∧ byteDoubles k v = c := by
  induction n generalizing v with
  | zero => cases h
  | succ n ih =>
    rcases List.mem_cons.mp h with rfl | h
    · exact ⟨0, by omega, rfl⟩
    · obtain ⟨k, hk, e⟩ := ih _ h
      refine ⟨k + 1, by omega, ?_⟩
      rw [← e]
      simp only [byteDoubles, List.range_succ_eq_map, List.foldl_cons, List.foldl_map]
theorem powers_all : ((List.range 255).all fun c => (powers 255 1).elem (c + 1)) = true := by decide +kernel
/-- Every byte but 0 is a power of g. -/
theorem power_of_g {c : Nat} (h0 : c ≠ 0) (h : c < 256) : ∃ n, n < 255 ∧ gpow n = c := by
  have e := List.all_eq_true.mp powers_all (c - 1) (List.mem_range.mpr (by omega))
  rw [show c - 1 + 1 = c by omega] at e
  obtain ⟨n, hn, e⟩ := mem_powers _ _ (List.mem_of_elem_eq_true e)
  exact ⟨n, hn, by rw [gpow_eq, Nat.mod_eq_of_lt hn, e]⟩

theorem powers_get (n v k : Nat) (h : k < n) : (powers n v)[k]? = some (byteDoubles k v) := by
  induction n generalizing v k with
  | zero => omega
  | succ n ih =>
    cases k with
    | zero => rfl
    | succ k =>
      show (powers n (byteDouble v))[k]? = _
      rw [ih _ _ (by omega)]
      simp only [byteDoubles, List.range_succ_eq_map, List.foldl_cons, List.foldl_map]
theorem powers_nodup : (powers 255 1).Nodup := by decide +kernel
/-- Different powers of g below the order are different bytes. -/
theorem gpow_inj {i j : Nat} (hi : i < 255) (hj : j < 255) (h : gpow i = gpow j) : i = j := by
  rw [gpow_eq, gpow_eq, Nat.mod_eq_of_lt hi, Nat.mod_eq_of_lt hj] at h
  have ei := powers_get 255 1 i hi
  have ej := powers_get 255 1 j hj
  have hl : i < (powers 255 1).length := (List.getElem?_eq_some_iff.mp ei).1
  exact (List.getElem?_inj hl powers_nodup).mp (by rw [ei, ej, h])

/-- The inverse of a byte undoes multiplication by it. -/
theorem gmulConst_ginv {c : Nat} (h0 : c ≠ 0) (h : c < 256) (x : Payload) : gmulConst (ginv c) (gmulConst c x) = x := by
  obtain ⟨n, hn, e⟩ := power_of_g h0 h
  have hg : ∀ y, gmulConst c y = gPowTimes n y := fun y => by rw [← e, gmulConst_gpow hn]
  have hl : ∀ k, (List.range k).foldl (fun v _ => gmulByte v c) 1 < 256 ∧
      ∀ y, gmulConst ((List.range k).foldl (fun v _ => gmulByte v c) 1) y = gPowTimes (k * n) y := fun k => by
    induction k with
    | zero => exact ⟨show 1 < 256 by decide, fun y => by rw [Nat.zero_mul]; exact gmulConst_one y⟩
    | succ k ih =>
      rw [List.range_succ, List.foldl_append]
      refine ⟨gmulByte_lt ih.1 c, fun y => ?_⟩
      show gmulConst (gmulByte _ c) y = _
      rw [gmulConst_gmulByte ih.1, hg, ih.2, ← gPowTimes_add, Nat.succ_mul]
  rw [ginv, (hl 254).2, hg, ← gPowTimes_add, show 254 * n + n = 255 * n by ring, gPowTimes_cycle]

/-- Two lost payloads' equations, solved for the one of the lower index (R233). -/
theorem solve_two {i j : Nat} (hij : i < j) (hj : j < 255) (x y : Payload) :
    gmulConst (ginv (gpow i ^^^ gpow j)) (gPowTimes j (x ^^^ y) ^^^ (gPowTimes i x ^^^ gPowTimes j y)) = x := by
  have hc : gpow i ^^^ gpow j ≠ 0 := fun h => by
    have := gpow_inj (by omega) hj (Nat.xor_eq_zero_iff.mp h)
    omega
  have hl : gpow i ^^^ gpow j < 256 := Nat.xor_lt_two_pow (n := 8) (gpow_lt i) (gpow_lt j)
  have e : gPowTimes j (x ^^^ y) ^^^ (gPowTimes i x ^^^ gPowTimes j y) = gmulConst (gpow i ^^^ gpow j) x := by
    rw [gmulConst_xor, gmulConst_gpow (by omega), gmulConst_gpow hj, gPowTimes_xor]
    generalize gPowTimes j x = a
    generalize gPowTimes j y = b
    generalize gPowTimes i x = c
    rw [show a ^^^ b ^^^ (c ^^^ b) = c ^^^ a ^^^ (b ^^^ b) by ac_rfl, show b ^^^ b = (0 : Payload) from BitVec.xor_self, xor_none]
  rw [e, gmulConst_ginv hc hl]

/-! ## Sums over a row's data members -/

theorem foldl_xor_filter {β : Type} (f : β → Payload) (l : List β) (a : Payload) : l.foldl (fun v m => v ^^^ f m) a = a ^^^ l.foldl (fun v m => v ^^^ f m) 0 := by
  induction l generalizing a with
  | nil => simp
  | cons x r ih => rw [List.foldl_cons, ih, List.foldl_cons, ih (0 ^^^ f x)]; simp [BitVec.xor_assoc]
theorem foldl_xor_split {f : Nat → Payload} {l : List Nat} (hn : l.Nodup) {x : Nat} (hx : x ∈ l) (q : Nat → Bool) (hq : ∀ m ∈ l, q m = decide (m ≠ x)) :
   (l.filter q).foldl (fun v m => v ^^^ f m) (l.foldl (fun v m => v ^^^ f m) 0) = f x := by
  induction l with
  | nil => simp at hx
  | cons y r ih =>
    rw [List.nodup_cons] at hn
    rw [List.foldl_cons, foldl_xor_filter f r]
    by_cases e : y = x
    · subst e
      have : r.filter q = r := by
        rw [List.filter_eq_self]; intro m hm; rw [hq m (List.mem_cons_of_mem _ hm)]
        simp; rintro rfl; exact hn.1 hm
      rw [List.filter_cons, hq y List.mem_cons_self]
      simp [this]
      rw [foldl_xor_filter f r]
      simp [BitVec.xor_assoc]
    · rw [List.filter_cons, hq y List.mem_cons_self]
      simp [e]
      have := ih hn.2 (by simpa [Ne.symm e] using hx) (fun m hm => hq m (List.mem_cons_of_mem _ hm))
      exact this
theorem dataMems_nodup (b : Sb) : b.dataMems.Nodup := (List.nodup_range).filter _
theorem not_parity {b : Sb} {m : Nat} (h : m ∈ b.dataMems) : b.isParity m = false := by simpa using (List.mem_filter.mp h).2
theorem dataIdx_lt {b : Sb} (h : b.nmem ≤ 32) {m : Nat} (hm : m ∈ b.dataMems) : b.dataIdx m < 255 := by
  have : b.dataMems.length ≤ b.nmem := by
    have := List.length_filter_le (fun m => !b.isParity m) (List.range b.nmem)
    simpa [Sb.dataMems] using this
  have h2 : b.dataIdx m ≤ b.dataMems.length := (List.takeWhile_sublist _).length_le
  omega
theorem dataIdx_inj {b : Sb} {m n : Nat} (hm : m ∈ b.dataMems) (hn : n ∈ b.dataMems) (h : b.dataIdx m = b.dataIdx n) : m = n := by
  have key : ∀ (l : List Nat) (m : Nat), m ∈ l → l[(l.takeWhile fun x => x != m).length]? = some m := fun l m => by
    induction l with
    | nil => simp
    | cons y r ih =>
      intro hm
      by_cases e : y = m
      · subst e; simp
      · have : m ∈ r := by simpa [Ne.symm e] using hm
        simpa [List.takeWhile_cons, e] using ih this
  have a := key _ _ hm
  have b' := key _ _ hn
  simp only [Sb.dataIdx] at h
  rw [h] at a
  exact Option.some.inj (a.symm.trans b')
theorem foldl_xor_split2 {f : Nat → Payload} {l : List Nat} (hn : l.Nodup) {x y : Nat} (hx : x ∈ l) (hy : y ∈ l) (hxy : x ≠ y) (q : Nat → Bool)
   (hq : ∀ m ∈ l, q m = (decide (m ≠ x) && decide (m ≠ y))) :
   (l.filter q).foldl (fun v m => v ^^^ f m) (l.foldl (fun v m => v ^^^ f m) 0) = f x ^^^ f y := by
  have e : l.filter q = (l.filter fun m => decide (m ≠ x)).filter fun m => decide (m ≠ y) := by
    rw [List.filter_filter]
    apply List.filter_congr
    intro m hm; rw [hq m hm, Bool.and_comm]
  have h1 := foldl_xor_split (f := f) hn hx (fun m => decide (m ≠ x)) (fun m _ => rfl)
  have h2 := foldl_xor_split (f := f) (hn.filter fun m => decide (m ≠ x)) (x := y) (List.mem_filter.mpr ⟨hy, by simpa using hxy.symm⟩) (fun m => decide (m ≠ y)) (fun m _ => rfl)
  rw [e]
  rw [foldl_xor_filter f] at h1 h2 ⊢
  generalize List.foldl (fun v m => v ^^^ f m) 0 l = A at *
  generalize List.foldl (fun v m => v ^^^ f m) 0 (List.filter (fun m => decide (m ≠ x)) l) = B at *
  generalize List.foldl (fun v m => v ^^^ f m) 0 (List.filter (fun m => decide (m ≠ y)) (List.filter (fun m => decide (m ≠ x)) l)) = C at *
  rw [← h1, ← h2]
  have : B ^^^ B = 0 := BitVec.xor_self
  rw [show A ^^^ B ^^^ (B ^^^ C) = A ^^^ (B ^^^ B) ^^^ C by ac_rfl, this]
  rw [xor_none]

end Sys2Proof.Machine
end

