-- ==== Sys2Proof/Machine/Jram.lean ====
section
/-! DEFINITION. The two JRAM dies byte by byte, before remapping (R256 to R258, Table 10-1): where the state's roots, progress block,
bad-block log, repair list, firmware data, journal ring, seal dumps and recorder lie. -/

namespace Sys2Proof.Machine

/-- The mirrored regions, which both dies hold alike; none where no block or firmware of this model has written. -/
def mirroredByte (s : State) (off : Nat) : Option Byte :=
  if 0x4000 ≤ off && off < 0x4040 then s.jrc.progBlk[off - 0x4000]?
  else if 0x8000 ≤ off && off < 0x10000 then (badImage (s.map.badLog.take 4096))[off - 0x8000]?
  else if 0x10000 ≤ off && off < 0x20000 then (repairImage s.mem.repair)[off - 0x10000]?
  else if 0x20000 ≤ off && off < 0x30000 then s.sec.handover[off - 0x20000]?
  else if 0x30000 ≤ off && off < 0x32000 then
    let e := (off - 0x30000) / 32
    (nget s.cry.salts (e + 2)).map fun v => (le 32 v).getD (off % 32) 0
  else none
/-- Byte j of the journal ring. -/
def ringByte (s : State) (j : Nat) : Byte := (ngetD s.jrc.ring (j / 16) 0).extractLsb' (8 * (j % 16)) 8
/-- Byte j of the recorder region (Table 15-6): a founding slot's copies A and B, a circulating slot, LGDONE. -/
def recorderByte (s : State) (j : Nat) : Option Byte :=
  if j < 0x200000 then
    (nget s.evr.found (j / 512)).bind fun f =>
      if if j % 512 < 256 then f.a else f.b then some ((padTo 256 (recBytes f.r)).getD (j % 256) 0) else none
  else if j < 0x600000 then
    match nget s.evr.circ ((j - 0x200000) / 256) with
    | some (.held r) => some ((padTo 256 (recBytes r)).getD (j % 256) 0)
    | some (.broken _) => none
    | none => none
  else if j < 0x600200 then s.evr.lgDone[j % 256]?
  else some 0
/-- Byte d of a dump slot. -/
def dumpByte (s : State) (slot1 : Bool) (d : Nat) : Option Byte := (if slot1 then s.jrc.dump1 else s.jrc.dump0).bind fun x => x.byte d
/-- The byte at an offset of a die: none where it is uncorrectable, or where nothing this model writes is there. -/
def jramByte (s : State) (die off : Nat) : Option Byte :=
  let a := die * 2 ^ 26 + off
  if s.jrc.hurt.contains (a / 64 * 64) then none
  else if off < 0x2000 then (nget s.jrc.roots (2 * (off / 0x1000) + die)).bind fun r => r.bytes[off % 0x1000]?
  else if off < 0x100000 then mirroredByte s off
  else if off < 0x2100000 then some (ringByte s (ilv 0x100000 a))
  else if off < 0x2300000 then dumpByte s false (ilv 0x2100000 a)
  else if off < 0x2500000 then dumpByte s true (ilv 0x2300000 a)
  else if off < 0x2900000 then recorderByte s (ilv 0x2500000 a)
  else none

end Sys2Proof.Machine
end

