-- ==== Sys2Proof/WellFormed.lean ====
section
/-! DEFINITION. Well-formed commands: every operand lies in the width that the spec gives its field. A command that is not
well formed spells no encoding of the block's interfaces; exec is total and answers for it all the same. -/

namespace Sys2Proof

/-- A number fits in n bits. -/
def fits (n v : Nat) : Bool := decide (v < 2 ^ n)
/-- The access widths of R46: 1, 2, 4 or 8 bytes. -/
def okSize (n : Nat) : Bool := n == 1 || n == 2 || n == 4 || n == 8
/-- A submission queue entry's identifiers (R78): queue and command identifiers of 16 bits and an NSID of 32. -/
def Sqe.wf (q : Sqe) : Bool := fits 16 q.qid && fits 16 q.cid && fits 32 q.nsid
/-- Protection-information operands (R88): a 48-bit reference tag, a 16-bit application tag and mask. -/
def PiOp.wf (p : PiOp) : Bool := fits 48 p.ilbrt && fits 16 p.lbat && fits 16 p.lbatm
/-- The fields of an I/O command: a 64-bit first letter and a 16-bit 0-based count. -/
def IoFields.wf (f : IoFields) : Bool := fits 64 f.slba && fits 16 f.nlb && f.pi.wf
def LetterRange.wf (r : LetterRange) : Bool := fits 64 r.slba && fits 32 r.nlb
/-- The fields of a physical address (Table 5-1). -/
def Ppa.wf (p : Ppa) : Bool := fits 10 p.lun && fits 14 p.block && fits 12 p.page && fits 4 p.slot
/-- A dispatch header (Table 13-2). -/
def DispHdr.wf (h : DispHdr) : Bool := fits 8 h.dst && fits 8 h.src && fits 8 h.ttl && fits 16 h.seq
/-- A schedule descriptor (Table 13-7). -/
def SchedDesc.wf (d : SchedDesc) : Bool :=
  fits 64 d.sseq && fits 64 d.eff && fits 32 d.period && decide (d.entry.length ≤ 64)
    && d.entry.all fun e => fits 16 e.1 && fits 16 e.2
/-- A relocation job entry (Table 9-5). -/
def JobReq.wf (j : JobReq) : Bool :=
  fits 32 j.sbid && fits 8 j.op && fits 8 j.stream && fits 8 j.member && fits 16 j.first && fits 16 j.last
def FeatVal.wf (v : FeatVal) : Bool := fits 32 v.cdw11 && fits 32 v.cdw12

/-- CC.AMS has 3 bits, CC.MPS 4 (R78), and each size of AQA 12 (R80). -/
def CcFields.wf (c : CcFields) : Bool := fits 3 c.ams && fits 4 c.mps && fits 3 c.css && fits 4 c.iosqes && fits 4 c.iocqes
def Aqa.wf (a : Aqa) : Bool := fits 12 a.asqs && fits 12 a.acqs && fits 64 a.asq && fits 64 a.acq

/-- Is the command well formed? -/
def Instr.wf (i : Instr) : Bool :=
  match i with
  | .registerWrite _ off size _ => fits 24 off && okSize size
  | .bar2Access _ off size _ => fits 24 off && decide (0 < size ∧ size ≤ 4096)
  | .blockCtlWrite _ _ _ _ => true
  | .disableSequenceDone _ _ => true
  | .evfDoorbellWrite _ _ => true
  | .holdoffExpiry _ _ => true
  | .timerFire _ => true
  | .watchdogExpiry _ => true
  | .watchdogKick _ _ _ => true
  | .sqTailDoorbell _ qid tail => fits 16 qid && fits 16 tail
  | .cqHeadDoorbell _ qid head => fits 16 qid && fits 16 head
  | .trackedCommandAccept => true
  | .unsupportedOpcode q opc _ => q.wf && fits 8 opc
  | .flush q => q.wf
  | .write q f stream => q.wf && f.wf && fits 16 stream
  | .read q f _ => q.wf && f.wf
  | .compare q f _ => q.wf && f.wf
  | .writeZeroes q f _ => q.wf && f.wf
  | .datasetManagement q ranges _ => q.wf && ranges.length ≤ 256 && ranges.all LetterRange.wf
  | .verify q f => q.wf && f.wf
  | .writeDataTransferDone _ _ _ _ => true
  | .commandRelease _ _ => true
  | .journalBatchStart => true
  | .commitAck _ => true
  | .trackerFault => true
  | .trackerReinit => true
  | .waitlimExceeded _ => true
  | .srtHwmClr _ _ => true
  | .abort q sqid tcid => q.wf && fits 16 sqid && fits 16 tcid
  | .createIoSq q qid size cqid prio fsm _ _ => q.wf && fits 16 qid && fits 17 size && fits 16 cqid && fits 2 prio && fits 2 fsm
  | .createIoCq q qid size vector _ _ _ => q.wf && fits 16 qid && fits 17 size && fits 16 vector
  | .deleteIoSq q qid => q.wf && fits 16 qid
  | .deleteIoCq q qid => q.wf && fits 16 qid
  | .identify q cns cntid => q.wf && fits 8 cns && fits 16 cntid
  | .getLogPage q lid lsp lpo _ => q.wf && fits 8 lid && fits 7 lsp && fits 64 lpo
  | .deadLetterOfficeLog q lsp lpo _ => q.wf && fits 7 lsp && fits 64 lpo
  | .recorderExportLog q lsp lpo _ => q.wf && fits 7 lsp && fits 64 lpo
  | .ringStatusLog q lsp lpo _ => q.wf && fits 7 lsp && fits 64 lpo
  | .mediaHealthDetailLog q lsp lpo _ => q.wf && fits 7 lsp && fits 64 lpo
  | .capacityAndSheddingLog q lsp lpo _ => q.wf && fits 7 lsp && fits 64 lpo
  | .setFeatures q fid _ v => q.wf && fits 8 fid && v.wf
  | .getFeatures q fid sel cdw11 => q.wf && fits 8 fid && fits 3 sel && fits 32 cdw11
  | .setPowerManagement q ps _ => q.wf && fits 5 ps
  | .setPlmWindow q window => q.wf && fits 3 window
  | .setLatencyTolerance q us _ => q.wf && fits 32 us
  | .setFailStopDefault q cdw11 _ => q.wf && fits 32 cdw11
  | .setPatrolPeriod q cdw11 _ => q.wf && fits 32 cdw11
  | .asyncEventRequest q => q.wf
  | .namespaceCreate q nsze ncap lbaf piType _ _ _ => q.wf && fits 64 nsze && fits 64 ncap && fits 6 lbaf && fits 3 piType
  | .namespaceDelete q => q.wf
  | .namespaceAttachment q _ _ => q.wf
  | .directiveSend q dtype doper dspec val => q.wf && fits 8 dtype && fits 8 doper && fits 16 dspec && fits 32 val
  | .directiveReceive q dtype doper val => q.wf && fits 8 dtype && fits 8 doper && fits 32 val
  | .firmwareImageDownload q numd ofst _ => q.wf && fits 32 numd && fits 32 ofst
  | .firmwareCommitReplace q fs _ => q.wf && fits 3 fs
  | .firmwareCommitReplaceNext q fs _ => q.wf && fits 3 fs
  | .firmwareCommitActivateSlot q fs _ => q.wf && fits 3 fs
  | .firmwareCommitActivateNow q fs _ => q.wf && fits 3 fs
  | .formatNvm q lbaf ses piType _ _ _ => q.wf && fits 6 lbaf && fits 3 ses && fits 3 piType
  | .sanitizeExitFailureMode q _ => q.wf
  | .sanitizeBlockErase q _ _ _ => q.wf
  | .sanitizeCryptoErase q _ _ _ => q.wf
  | .sanitizeRoundDone => true
  | .sanitizeProgressWrite => true
  | .securitySend q secp _ => q.wf && fits 8 secp
  | .securityReceive q secp => q.wf && fits 8 secp
  | .shedCapacityRanges q ranges => q.wf && ranges.length ≤ 256 && ranges.all LetterRange.wf
  | .shedCapacityUnallocated q letters => q.wf && fits 64 letters
  | .resumeQueue q sqid => q.wf && fits 16 sqid
  | .collectionScheduleSet q d => q.wf && d.wf
  | .collectionScheduleGet q => q.wf
  | .collectionScheduleTimeout => true
  | .scrubRange q mem unit rate base len => q.wf && fits 8 mem && fits 8 unit && fits 32 rate && fits 64 base && fits 64 len
  | .recorderRead q start length _ => q.wf && fits 64 start && fits 32 length
  | .depotUnlockRead q session => q.wf && fits 32 session
  | .depotUnlockReadWrite q session => q.wf && fits 32 session
  | .depotUnlockClose q session => q.wf && fits 32 session
  | .ccEnSet _ cc aqa => cc.wf && aqa.wf
  | .ccEnClear _ => true
  | .shutdownNormal _ => true
  | .shutdownAbrupt _ => true
  | .functionLevelReset _ => true
  | .hotResetOrPerst _ _ => true
  | .linkDown _ => true
  | .linkUp _ rate _ _ => fits 32 rate
  | .drainComplete _ => true
  | .ltrSend _ us => fits 32 us
  | .phcFillDone line _ _ _ _ seg => fits 30 line && fits 16 seg
  | .phcWritebackAck line => fits 30 line
  | .phcErrWindowEnd => true
  | .phcWayDisableDone way set => fits 4 way && fits 17 set
  | .phcInvalidationDone => true
  | .phcDrainDone => true
  | .phcRangeClean _ _ => true
  | .phcRangeInvalidate _ _ => true
  | .phcRangeCleanInvalidate _ _ => true
  | .phcRangeDone => true
  | .phcSwopClean _ way set => fits 4 way && fits 17 set
  | .phcSwopInvalidate _ way set => fits 4 way && fits 17 set
  | .phcSwopCleanInvalidate _ way set => fits 4 way && fits 17 set
  | .packingFillwaitExpiry stream => fits 16 stream
  | .bundleWaitEnd => true
  | .deallocBundleTimeout _ => true
  | .heatHalving => true
  | .lifeClockTick => true
  | .victimScan _ _ => true
  | .victimScanDone => true
  | .jobSubmit _ head jobs => fits 16 head && jobs.all JobReq.wf
  | .jobDone _ => true
  | .jobAbort _ _ => true
  | .eraseComplete lun block _ => fits 10 lun && fits 14 block
  | .refreshRelocation => true
  | .lunRetire _ _ _ => true
  | .channelRetire _ _ => true
  | .channelSweepDone _ => true
  | .readComplete _ _ => true
  | .softDecodeDone _ _ _ => true
  | .rebuildDone _ => true
  | .dlqEntryWrite _ => true
  | .strDlqTailWrite _ _ => true
  | .programComplete _ _ => true
  | .eraseSuspend _ => true
  | .programSuspend _ => true
  | .suspendResume _ _ => true
  | .rdIAgeExpiry _ => true
  | .lunTimeout _ _ => true
  | .trainingStart _ _ _ => true
  | .trainingDone _ _ _ => true
  | .courierReset _ _ => true
  | .courierResetDone _ _ _ => true
  | .tokenAllocation => true
  | .snapshotFire _ _ _ => true
  | .snapshotPop _ _ _ => true
  | .epochPeriodExpiry => true
  | .minspExpiry => true
  | .jrcCutover _ _ => true
  | .cutoverDone => true
  | .jrcCommit _ _ => true
  | .rootCommitDone => true
  | .pwrFailAssert _ => true
  | .powerFailRestart => true
  | .patrolReadDone sbx member row _ _ _ _ => fits 19 sbx && fits 5 member && fits 12 row
  | .patrolRescan => true
  | .patrolTageTick => true
  | .ownerSearch _ _ list => list.all fun e => e.1.wf
  | .ownerSearchDone => true
  | .zeroFillStart _ _ => true
  | .zeroFillDone => true
  | .mergeAgeFlush line _ _ => fits 30 line
  | .segmentRebuildDone seg _ => fits 16 seg
  | .scrubStart _ _ => true
  | .scrubStop _ _ => true
  | .scrubDone _ => true
  | .jramLineSwitch die line => fits 8 die && fits 30 line
  | .ringLinkUp _ _ => true
  | .ringLinkDown _ => true
  | .link h serial gid addr farPort => h.wf && fits 192 serial && fits 32 gid && fits 8 addr && fits 8 farPort
  | .beacon h gid addr state ports n pmaddr sseq serhash _ => h.wf && fits 32 gid && fits 8 addr && fits 8 state && fits 8 ports && fits 8 n && fits 8 pmaddr && fits 64 sseq && fits 64 serhash
  | .syncReq h t1 => h.wf && fits 64 t1
  | .syncRsp h t1 t2 t3 t4 => h.wf && fits 64 t1 && fits 64 t2 && fits 64 t3 && fits 64 t4
  | .enum h next dir tbmax origin => h.wf && fits 32 next && fits 8 dir && fits 64 tbmax && fits 64 origin
  | .enumend h count dir tbmax origin => h.wf && fits 8 count && fits 8 dir && fits 64 tbmax && fits 64 origin
  | .groupstate h _ gid n pmaddr gstart geper => h.wf && fits 32 gid && fits 8 n && fits 8 pmaddr && fits 64 gstart && fits 64 geper
  | .join h serial => h.wf && fits 192 serial
  | .ringAdmit h serial addr gid n => h.wf && fits 192 serial && fits 8 addr && fits 32 gid && fits 8 n
  | .role h pmaddr prev => h.wf && fits 8 pmaddr && fits 8 prev
  | .sched h _ part sseq _ => h.wf && fits 8 part && fits 64 sseq
  | .ack h typ seq => h.wf && fits 8 typ && fits 16 seq
  | .act h digest tact step => h.wf && fits 512 digest && fits 64 tact && fits 32 step
  | .relOffer h size digest => h.wf && fits 17 size && fits 512 digest
  | .relData h index _ => h.wf && fits 32 index
  | .relAck h next => h.wf && fits 32 next
  | .relHave h digest => h.wf && fits 512 digest
  | .ringFirmwareDispatch h typ _ => h.wf && fits 8 typ
  | .ringTxDispatch _ _ => true
  | .ringRxPop _ _ => true
  | .rngEnumCommand _ _ => true
  | .beaconSend => true
  | .reachExpiry addr => fits 8 addr
  | .isolatedEntry => true
  | .rejoin => true
  | .isolatedAddressDrop => true
  | .enumStart => true
  | .enumTimeout => true
  | .joinSend => true
  | .postmasterTakeover => true
  | .dispatchRepeat seq => fits 16 seq
  | .groupstateRequest => true
  | .syncReqSend => true
  | .slewDone => true
  | .scheduleEffective => true
  | .windowBoundary => true
  | .groupEpochTick => true
  | .staggeredWakeEnd => true
  | .relayResend _ => true
  | .activationTime => true
  | .imageVerify _ _ => true
  | .imageVerifyDone => true
  | .handoverSwitch _ _ => true
  | .handoverDone _ _ => true
  | .activationRevert => true
  | .fuseProgramKeyhash _ _ => true
  | .fuseRevokeSlot _ _ => true
  | .fuseRaiseMinsvn _ value => fits 16 value
  | .keyGenerate _ _ nsid _ => fits 32 nsid
  | .keyLoadWrapped _ _ nsid => fits 32 nsid
  | .keyDestroy _ nsid => fits 32 nsid
  | .getVersion _ => true
  | .getCapabilities _ => true
  | .negotiateAlgorithms _ _ => true
  | .getDigests _ => true
  | .getCertificate _ slot offset length => fits 16 slot && fits 32 offset && fits 32 length
  | .challenge _ slot => fits 16 slot
  | .getMeasurements _ index _ => fits 32 index
  | .keyExchange _ _ => true
  | .finish _ session _ _ => fits 32 session
  | .heartbeat _ session => fits 32 session
  | .keyUpdate _ session => fits 32 session
  | .endSession _ session => fits 32 session
  | .recorderWriteRecord _ _ => true
  | .recorderEntryWritten _ _ => true
  | .recorderCursorWrite _ _ _ => true
  | .recorderCursorNext _ _ _ => true
  | .recorderFlushsup _ _ => true
  | .recorderRearm _ _ => true
  | .recorderScanDone => true
  | .flashonlyBufferFlush => true
  | .thermalRound _ _ _ => true
  | .sensorBroken _ => true
  | .extLimit _ => true
  | .warningChange => true
  | .throttleChange => true
  | .thermalShutdown => true
  | .thermalRestart => true
  | .bandChange => true
  | .supplyOutOfWindow _ => true
  | .idleTimerExpiry => true
  | .psEntry => true
  | .psExit => true
  | .psChangeDeferred => true
  | .avfsEvaluation island _ => fits 3 island
  | .avselWrite _ _ => true
  | .supplyPowerOn => true
  | .resetNAssert _ => true
  | .resetRelease => true
  | .cfgRstWarm _ _ => true
  | .norRead _ => true
  | .norWrite _ => true
  | .norBasewr _ => true
  | .norOvlwr _ => true
  | .norSlotwr _ _ => true
  | .norBootrec _ _ _ _ => true
  | .norIdwr _ => true
  | .norOpDone _ _ => true
  | .xipFetch _ off _ => fits 24 off
  | .norEraseResume => true
  | .faultyRegisterRead _ off size => fits 24 off && okSize size
  | .perstNDeassert _ => true
  | .supplyPowerLoss => true
  | .ringSignalDetect _ => true
  | .configurationRequest _ _ => true
  | .msixTableWrite _ vector _ addr data => fits 16 vector && fits 64 addr && fits 32 data
  | .interruptCoalescingExpiry _ vector => fits 16 vector
  | .pcieUncorrectableError _ _ => true
  | .spdmHeartbeatTimeout session => fits 32 session
  | .mapRecountDone => true
  | .patrolFloorPace => true
  | .recorderPaceRefill => true
  | .holdoverExpiry => true
  | .dispatchFrameError _ => true
  | .reservedDispatchType h typ => h.wf && fits 8 typ
  | .norEraseSuspend _ => true
  | .norPageProgramDone => true

end Sys2Proof
end

