-- ==== Sys2Proof/Tests/Slice0.lean ====
section
/-! SUPPORT. The model's own tests: well-formedness refuses what no field can hold; values that the spec's tables and worked
examples state; and, of every statement with hypotheses, states and operands that meet all of them together. -/

set_option linter.unusedVariables false
set_option linter.unusedTactic false
set_option linter.unreachableTactic false
set_option maxRecDepth 20000
set_option Elab.async false

namespace Sys2Proof.Tests
open Sys2Proof.Machine Sys2Proof.Claims

/-- The chip released from reset, its map ready. -/
def up : State :=
  { State.reset with chip := { State.reset.chip with held := false, powered := true, rstLow := false, mapReady := true } }
/-- A block's EN and ACTIVE. -/
def on (s : State) (b : Blk) (u : Nat := 0) : State := setActive (wrField s (Reg.ctl b u) 0 0 1) b u true
/-- Port A with an admin and an I/O queue pair, each with an entry to fetch. -/
def portUp : PortSt :=
  { State.reset.portA with
    en := true, rdy := true, linkUp := true, perst := false, trainEn := true, cfgReady := true, fetching := true
    sqs := [(0, { size := 16, tail := 1 }), (1, { size := 16, cqid := 1, tail := 1 })]
    cqs := [(0, { size := 16 }), (1, { size := 16 })] }
/-- A namespace of 1,600 letters, attached to port A. -/
def ns1 : Ns := { nsze := 1600, ncap := 1600, attached := [.a] }
/-- A host is served: the sorting office, the map engine and the journal run, and namespace 1 exists. -/
def host : State :=
  { on (on (on (on up .srt) .map) .jrc) .cry with portA := portUp, map := { State.reset.map with tab := { ns := [(1, ns1)] } }, cry := { keys := [(1, 5)] } }
/-- The same with no admin command to fetch. -/
def hostIo : State := { host with portA := { portUp with sqs := [(0, { size := 16 }), (1, { size := 16, cqid := 1, tail := 1 })] } }
/-- A host with four channels of one LUN, two blocks of four pages each, and room for host data. -/
def roomy : State :=
  let s := (List.range 4).foldl (fun s c => wr s (0x200010 + 0x4000 * c) 0x101) (wr host 0x70014 3)
  { s with flash := { s.flash with die := { blocks := 400, pages := 4, rated := 3000 } }
           map := { s.map with tab := { s.map.tab with commitC := 4000 } }, boot := { s.boot with dramGib := 16 } }
/-- An admin command and an I/O command to fetch. -/
def adm : Sqe := { port := .a, qid := 0, cid := 7, nsid := 1 }
def vend : Sqe := { port := .a, qid := 0, cid := 7, nsid := 0 }
def io : Sqe := { port := .a, qid := 1, cid := 8, nsid := 1 }
def fields : IoFields := { slba := 0, nlb := 0, pi := { pract := false, chkGuard := false, chkApp := false, chkRef := false, ilbrt := 0, lbat := 0, lbatm := 0 } }
/-- A fetched Write of letter 0 whose data has not arrived, and a fetched Read. -/
def wcmd : Cmd := { body := .write io fields 0, q := io, modif := true, ranges := [(1, 0, 1)], entries := 2 }
def rcmd : Cmd := { body := .read io fields false, q := io, ranges := [(1, 0, 1)], entries := 2 }
/-- A chip at rest: nothing to fetch, nothing under way. -/
def rest : State := { wr up 0x30084 0 with phc := { up.phc with st := 0 } }
/-- A superblock of four members, one block on each of four channels: members 0 and 1 hold its parity. -/
def sb4 : Sb :=
  { sbid := 8, st := 2, stream := 0, rows := 4, members := (List.range 4).map fun c => { chn := c, pos := 0, block := 5, endrow := 4 } }
/-- The roomy host with it as superblock 3. -/
def striped : State :=
  { roomy with map := { roomy.map with tab := { roomy.map.tab with
      sbs := [(3, sb4)], blocks := (List.range 4).map fun c => (blkKey c 5, { st := 2, sbx := 3 }) } } }
def withCmds (s : State) (l : List (Nat × Cmd)) : State := { s with srt := { s.srt with cmds := l, next := 9 } }
/-- A number that is neither of two. -/
def third (a b : Nat) : Nat := if a ≠ 0 ∧ b ≠ 0 then 0 else if a ≠ 1 ∧ b ≠ 1 then 1 else 2
theorem third_ne (f : Nat → Nat) : ∀ k, k < 2 → f k ≠ third (f 0) (f 1) := by
  intro k h
  obtain rfl | rfl : k = 0 ∨ k = 1 := by omega
  all_goals
    unfold third
    split <;> [skip; split] <;> omega
/-- What a unit of an initialised granule reads as, whichever position is erased. -/
theorem effective_of {s : State} {u : Nat} {r : UnitRead} {rep : UnitReport} (hr : unitReady s u = true)
    (h : ∀ k : Fin 4, decodeBurst (erasedPos s k) (if s.mem.poisoned.contains u then r.err ^^^ poisonBits else r.err) = rep) :
    effective s u r = rep := by
  unfold effective
  simp only [hr, if_true]
  exact h ⟨_, Nat.mod_lt _ (by decide)⟩
theorem decode_zero (p : Option Nat) : decodeBurst p 0 = .clean := by
  have h : ((List.range 4).map (syndromes 0)).all (fun s => s.all (· == 0)) = true := by decide +kernel
  unfold decodeBurst
  simp only [h, if_true]
/-- Units of initialised granules that hold no poison read clean. -/
theorem units_clean {s : State} {l : List Nat} (h : (l.all fun u => unitReady s u && !s.mem.poisoned.contains u) = true) :
    ∀ u ∈ l, effective s u {} = .clean := by
  intro u hu
  have g := List.all_eq_true.mp h u hu
  rw [Bool.and_eq_true] at g
  have n : ¬ s.mem.poisoned.contains u = true := by simpa using g.2
  unfold effective
  simp only [g.1, n, if_true, if_false]
  exact decode_zero _
theorem nget_one {α : Type} {b c : Nat} {x d : α} (h : nget [(b, x)] c = some d) : d = x := by
  unfold nget at h
  split at h
  · exact (Option.some.inj h).symm
  · exact absurd h (by simp [nget])
/-- Of an optional value that is there, what holds of it. -/
theorem all_some {α : Type} {P : α → Prop} [DecidablePred P] {o : Option α} (h : (o.all fun x => decide (P x)) = true) :
    ∀ x, o = some x → P x := by
  intro x e
  subst e
  exact of_decide_eq_true h
/-- A slot whose codeword is a payload's, whitened, reads as that payload. -/
theorem slot_shown {s : State} {a b : Nat} {p : Payload} (h : s.flash.media = [(b, whiten b (codeword p))]) (e : b = a) :
    slotPayload s a = some p := by
  subst e
  unfold slotPayload
  rw [h]
  simp only [nget, if_true, whiten, BitVec.xor_assoc, BitVec.xor_self, BitVec.xor_zero, Option.map_some]
  exact congrArg some (BitVec.extractLsb'_append_eq_right ..)

/-! ## Well-formedness -/

def hdr : DispHdr := { port := .east, dst := 0, src := 0, ttl := 64, seq := 0 }
def sched : SchedDesc := { sseq := 1, eff := 0, period := 1, rsvd := 0, entry := [(0, 0)] }
def badQ : Sqe := { adm with qid := 2 ^ 16 }
def badF : IoFields := { fields with slba := 2 ^ 64 }
def badH : DispHdr := { hdr with dst := 256 }
/-- Each field of an operand, one past its width. -/
theorem test_wf_operands :
    ([
      { adm with qid := 2 ^ 16 }, { adm with cid := 2 ^ 16 }, { adm with nsid := 2 ^ 32 }] : List Sqe).all (fun x => !x.wf) = true ∧
    ([
      { fields.pi with ilbrt := 2 ^ 48 }, { fields.pi with lbat := 2 ^ 16 }, { fields.pi with lbatm := 2 ^ 16 }] : List PiOp).all (fun x => !x.wf) = true ∧
    ([
      { fields with slba := 2 ^ 64 }, { fields with nlb := 2 ^ 16 },
      { fields with pi := { fields.pi with lbat := 2 ^ 16 } }] : List IoFields).all (fun x => !x.wf) = true ∧
    ([
      ⟨2 ^ 64, 1⟩, ⟨0, 2 ^ 32⟩] : List LetterRange).all (fun x => !x.wf) = true ∧
    ([
      ⟨1024, 0, 0, 0⟩, ⟨0, 2 ^ 14, 0, 0⟩, ⟨0, 0, 4096, 0⟩, ⟨0, 0, 0, 16⟩] : List Ppa).all (fun x => !x.wf) = true ∧
    ([
      { hdr with dst := 256 }, { hdr with src := 256 }, { hdr with ttl := 256 }, { hdr with seq := 2 ^ 16 }] : List DispHdr).all (fun x => !x.wf) = true ∧
    ([
      { sched with sseq := 2 ^ 64 }, { sched with eff := 2 ^ 64 }, { sched with period := 2 ^ 32 },
      { sched with entry := List.replicate 65 (0, 0) }, { sched with entry := [(2 ^ 16, 0)] },
      { sched with entry := [(0, 2 ^ 16)] }] : List SchedDesc).all (fun x => !x.wf) = true ∧
    ([
      ⟨2 ^ 32, 0, 0, 0, 0, 0, 0⟩, ⟨0, 256, 0, 0, 0, 0, 0⟩, ⟨0, 0, 256, 0, 0, 0, 0⟩, ⟨0, 0, 0, 256, 0, 0, 0⟩,
      ⟨0, 0, 0, 0, 2 ^ 16, 0, 0⟩, ⟨0, 0, 0, 0, 0, 2 ^ 16, 0⟩] : List JobReq).all (fun x => !x.wf) = true ∧
    ([
      ⟨2 ^ 32, 0, 0⟩, ⟨0, 2 ^ 32, 0⟩] : List FeatVal).all (fun x => !x.wf) = true := by
  decide +kernel
def taken0 : List Instr := [
    .registerWrite (.ap 0) 0 4 0, .bar2Access .a 0 4 none, .sqTailDoorbell .a 0 0, .cqHeadDoorbell .a 0 0,
    .unsupportedOpcode adm 0 false, .flush adm, .write adm fields 0, .read adm fields false, .compare adm fields [],
    .writeZeroes adm fields false, .datasetManagement adm [] false, .verify adm fields, .abort adm 0 0,
    .createIoSq adm 0 0 0 0 0 false false, .createIoCq adm 0 0 0 false false false, .deleteIoSq adm 0,
    .deleteIoCq adm 0, .identify adm 0 0, .getLogPage adm 0 0 0 false, .deadLetterOfficeLog adm 0 0 false,
    .recorderExportLog adm 0 0 false, .ringStatusLog adm 0 0 false, .mediaHealthDetailLog adm 0 0 false,
    .capacityAndSheddingLog adm 0 0 false, .setFeatures adm 0 false ⟨0, 0, 0⟩, .getFeatures adm 0 0 0,
    .setPowerManagement adm 0 false, .setPlmWindow adm 0, .setLatencyTolerance adm 0 false,
    .setFailStopDefault adm 0 false]
def taken1 : List Instr := [
    .setPatrolPeriod adm 0 false, .asyncEventRequest adm, .namespaceCreate adm 0 0 0 0 false false false,
    .namespaceDelete adm, .namespaceAttachment adm false [], .directiveSend adm 0 0 0 0, .directiveReceive adm 0 0 0,
    .firmwareImageDownload adm 0 0 [], .firmwareCommitReplace adm 0 false, .firmwareCommitReplaceNext adm 0 false,
    .firmwareCommitActivateSlot adm 0 false, .firmwareCommitActivateNow adm 0 false,
    .formatNvm adm 0 0 0 false false false, .sanitizeExitFailureMode adm false,
    .sanitizeBlockErase adm false false false, .sanitizeCryptoErase adm false false false,
    .securitySend adm 0 .getVersion, .securityReceive adm 0, .shedCapacityRanges adm [],
    .shedCapacityUnallocated adm 0, .resumeQueue adm 0, .collectionScheduleSet adm sched, .collectionScheduleGet adm,
    .scrubRange adm 0 0 0 0 0, .recorderRead adm 0 0 false, .depotUnlockRead adm 0, .depotUnlockReadWrite adm 0,
    .depotUnlockClose adm 0, .ccEnSet .a ⟨0, 0, 0, 6, 4⟩ ⟨0, 0, 0, 0⟩, .linkUp .a 0 0 false]
def taken2 : List Instr := [
    .ltrSend .a 0, .phcFillDone 0 0 { } [] none 0, .phcWritebackAck 0, .phcWayDisableDone 0 0,
    .phcSwopClean (.ap 0) 0 0, .phcSwopInvalidate (.ap 0) 0 0, .phcSwopCleanInvalidate (.ap 0) 0 0,
    .packingFillwaitExpiry 0, .jobSubmit (.ap 0) 0 [], .eraseComplete 0 0 .ok, .patrolReadDone 0 0 0 0 0 0 [],
    .ownerSearch (.ap 0) 0 [], .mergeAgeFlush 0 { } 0, .segmentRebuildDone 0 false, .jramLineSwitch 0 0,
    .link hdr 0 0 0 0, .beacon hdr 0 0 0 0 0 0 0 0 false, .syncReq hdr 0, .syncRsp hdr 0 0 0 0, .enum hdr 0 0 0 0,
    .enumend hdr 0 0 0 0, .groupstate hdr false 0 0 0 0 0, .join hdr 0, .ringAdmit hdr 0 0 0 0, .role hdr 0 0,
    .sched hdr false 0 0 0, .ack hdr 0 0, .act hdr 0 0 0, .relOffer hdr 0 0, .relData hdr 0 []]
def taken3 : List Instr := [
    .relAck hdr 0, .relHave hdr 0, .ringFirmwareDispatch hdr 0 [], .reachExpiry 0, .dispatchRepeat 0,
    .fuseRaiseMinsvn (.ap 0) 0, .keyGenerate (.ap 0) false 0 false, .keyLoadWrapped (.ap 0) false 0,
    .keyDestroy (.ap 0) 0, .getCertificate .smbus 0 0 0, .challenge .smbus 0, .getMeasurements .smbus 0 false,
    .finish .smbus 0 false 0, .heartbeat .smbus 0, .keyUpdate .smbus 0, .endSession .smbus 0, .avfsEvaluation 0 [],
    .xipFetch (.ap 0) 0 0, .faultyRegisterRead (.ap 0) 0 4, .msixTableWrite .a 0 false 0 0,
    .interruptCoalescingExpiry .a 0, .spdmHeartbeatTimeout 0, .reservedDispatchType hdr 0]
def refused0 : List Instr := [
    .registerWrite (.ap 0) (2 ^ 24) 4 0, .registerWrite (.ap 0) 0 3 0, .bar2Access .a (2 ^ 24) 4 none,
    .bar2Access .a 0 0 none, .bar2Access .a 0 4097 none, .sqTailDoorbell .a (2 ^ 16) 0,
    .sqTailDoorbell .a 0 (2 ^ 16), .cqHeadDoorbell .a (2 ^ 16) 0, .cqHeadDoorbell .a 0 (2 ^ 16),
    .unsupportedOpcode badQ 0 false, .unsupportedOpcode adm (2 ^ 8) false, .flush badQ, .write badQ fields 0,
    .write adm badF 0, .write adm fields (2 ^ 16), .read badQ fields false, .read adm badF false,
    .compare badQ fields [], .compare adm badF [], .writeZeroes badQ fields false, .writeZeroes adm badF false,
    .datasetManagement badQ [] false, .datasetManagement adm (List.replicate 257 ⟨0, 1⟩) false,
    .datasetManagement adm [⟨2 ^ 64, 1⟩] false, .datasetManagement adm [⟨0, 2 ^ 32⟩] false, .verify badQ fields,
    .verify adm badF, .abort badQ 0 0, .abort adm (2 ^ 16) 0, .abort adm 0 (2 ^ 16)]
def refused1 : List Instr := [
    .createIoSq badQ 0 0 0 0 0 false false, .createIoSq adm (2 ^ 16) 0 0 0 0 false false,
    .createIoSq adm 0 (2 ^ 17) 0 0 0 false false, .createIoSq adm 0 0 (2 ^ 16) 0 0 false false,
    .createIoSq adm 0 0 0 (2 ^ 2) 0 false false, .createIoSq adm 0 0 0 0 (2 ^ 2) false false,
    .createIoCq badQ 0 0 0 false false false, .createIoCq adm (2 ^ 16) 0 0 false false false,
    .createIoCq adm 0 (2 ^ 17) 0 false false false, .createIoCq adm 0 0 (2 ^ 16) false false false,
    .deleteIoSq badQ 0, .deleteIoSq adm (2 ^ 16), .deleteIoCq badQ 0, .deleteIoCq adm (2 ^ 16), .identify badQ 0 0,
    .identify adm (2 ^ 8) 0, .identify adm 0 (2 ^ 16), .getLogPage badQ 0 0 0 false,
    .getLogPage adm (2 ^ 8) 0 0 false, .getLogPage adm 0 (2 ^ 7) 0 false, .getLogPage adm 0 0 (2 ^ 64) false,
    .deadLetterOfficeLog badQ 0 0 false, .deadLetterOfficeLog adm (2 ^ 7) 0 false,
    .deadLetterOfficeLog adm 0 (2 ^ 64) false, .recorderExportLog badQ 0 0 false,
    .recorderExportLog adm (2 ^ 7) 0 false, .recorderExportLog adm 0 (2 ^ 64) false, .ringStatusLog badQ 0 0 false,
    .ringStatusLog adm (2 ^ 7) 0 false, .ringStatusLog adm 0 (2 ^ 64) false]
def refused2 : List Instr := [
    .mediaHealthDetailLog badQ 0 0 false, .mediaHealthDetailLog adm (2 ^ 7) 0 false,
    .mediaHealthDetailLog adm 0 (2 ^ 64) false, .capacityAndSheddingLog badQ 0 0 false,
    .capacityAndSheddingLog adm (2 ^ 7) 0 false, .capacityAndSheddingLog adm 0 (2 ^ 64) false,
    .setFeatures badQ 0 false ⟨0, 0, 0⟩, .setFeatures adm (2 ^ 8) false ⟨0, 0, 0⟩,
    .setFeatures adm 0 false ⟨2 ^ 32, 0, 0⟩, .setFeatures adm 0 false ⟨0, 2 ^ 32, 0⟩, .getFeatures badQ 0 0 0,
    .getFeatures adm (2 ^ 8) 0 0, .getFeatures adm 0 (2 ^ 3) 0, .getFeatures adm 0 0 (2 ^ 32),
    .setPowerManagement badQ 0 false, .setPowerManagement adm (2 ^ 5) false, .setPlmWindow badQ 0,
    .setPlmWindow adm (2 ^ 3), .setLatencyTolerance badQ 0 false, .setLatencyTolerance adm (2 ^ 32) false,
    .setFailStopDefault badQ 0 false, .setFailStopDefault adm (2 ^ 32) false, .setPatrolPeriod badQ 0 false,
    .setPatrolPeriod adm (2 ^ 32) false, .asyncEventRequest badQ, .namespaceCreate badQ 0 0 0 0 false false false,
    .namespaceCreate adm (2 ^ 64) 0 0 0 false false false, .namespaceCreate adm 0 (2 ^ 64) 0 0 false false false,
    .namespaceCreate adm 0 0 (2 ^ 6) 0 false false false, .namespaceCreate adm 0 0 0 (2 ^ 3) false false false]
def refused3 : List Instr := [
    .namespaceDelete badQ, .namespaceAttachment badQ false [], .directiveSend badQ 0 0 0 0,
    .directiveSend adm (2 ^ 8) 0 0 0, .directiveSend adm 0 (2 ^ 8) 0 0, .directiveSend adm 0 0 (2 ^ 16) 0,
    .directiveSend adm 0 0 0 (2 ^ 32), .directiveReceive badQ 0 0 0, .directiveReceive adm (2 ^ 8) 0 0,
    .directiveReceive adm 0 (2 ^ 8) 0, .directiveReceive adm 0 0 (2 ^ 32), .firmwareImageDownload badQ 0 0 [],
    .firmwareImageDownload adm (2 ^ 32) 0 [], .firmwareImageDownload adm 0 (2 ^ 32) [],
    .firmwareCommitReplace badQ 0 false, .firmwareCommitReplace adm (2 ^ 3) false,
    .firmwareCommitReplaceNext badQ 0 false, .firmwareCommitReplaceNext adm (2 ^ 3) false,
    .firmwareCommitActivateSlot badQ 0 false, .firmwareCommitActivateSlot adm (2 ^ 3) false,
    .firmwareCommitActivateNow badQ 0 false, .firmwareCommitActivateNow adm (2 ^ 3) false,
    .formatNvm badQ 0 0 0 false false false, .formatNvm adm (2 ^ 6) 0 0 false false false,
    .formatNvm adm 0 (2 ^ 3) 0 false false false, .formatNvm adm 0 0 (2 ^ 3) false false false,
    .sanitizeExitFailureMode badQ false, .sanitizeBlockErase badQ false false false,
    .sanitizeCryptoErase badQ false false false, .securitySend badQ 0 .getVersion]
def refused4 : List Instr := [
    .securitySend adm (2 ^ 8) .getVersion, .securityReceive badQ 0, .securityReceive adm (2 ^ 8),
    .shedCapacityRanges badQ [], .shedCapacityRanges adm (List.replicate 257 ⟨0, 1⟩),
    .shedCapacityRanges adm [⟨2 ^ 64, 1⟩], .shedCapacityRanges adm [⟨0, 2 ^ 32⟩], .shedCapacityUnallocated badQ 0,
    .shedCapacityUnallocated adm (2 ^ 64), .resumeQueue badQ 0, .resumeQueue adm (2 ^ 16),
    .collectionScheduleSet badQ sched, .collectionScheduleSet adm { sched with sseq := 2 ^ 64 },
    .collectionScheduleGet badQ, .scrubRange badQ 0 0 0 0 0, .scrubRange adm (2 ^ 8) 0 0 0 0,
    .scrubRange adm 0 (2 ^ 8) 0 0 0, .scrubRange adm 0 0 (2 ^ 32) 0 0, .scrubRange adm 0 0 0 (2 ^ 64) 0,
    .scrubRange adm 0 0 0 0 (2 ^ 64), .recorderRead badQ 0 0 false, .recorderRead adm (2 ^ 64) 0 false,
    .recorderRead adm 0 (2 ^ 32) false, .depotUnlockRead badQ 0, .depotUnlockRead adm (2 ^ 32),
    .depotUnlockReadWrite badQ 0, .depotUnlockReadWrite adm (2 ^ 32), .depotUnlockClose badQ 0,
    .depotUnlockClose adm (2 ^ 32), .ccEnSet .a ⟨8, 0, 0, 0, 0⟩ ⟨0, 0, 0, 0⟩]
def refused5 : List Instr := [
    .ccEnSet .a ⟨0, 16, 0, 0, 0⟩ ⟨0, 0, 0, 0⟩, .ccEnSet .a ⟨0, 0, 8, 0, 0⟩ ⟨0, 0, 0, 0⟩,
    .ccEnSet .a ⟨0, 0, 0, 16, 0⟩ ⟨0, 0, 0, 0⟩, .ccEnSet .a ⟨0, 0, 0, 0, 16⟩ ⟨0, 0, 0, 0⟩,
    .ccEnSet .a ⟨0, 0, 0, 6, 4⟩ ⟨4096, 0, 0, 0⟩, .ccEnSet .a ⟨0, 0, 0, 6, 4⟩ ⟨0, 4096, 0, 0⟩,
    .ccEnSet .a ⟨0, 0, 0, 6, 4⟩ ⟨0, 0, 2 ^ 64, 0⟩, .ccEnSet .a ⟨0, 0, 0, 6, 4⟩ ⟨0, 0, 0, 2 ^ 64⟩,
    .linkUp .a (2 ^ 32) 0 false, .ltrSend .a (2 ^ 32), .phcFillDone (2 ^ 30) 0 { } [] none 0,
    .phcFillDone 0 0 { } [] none (2 ^ 16), .phcWritebackAck (2 ^ 30), .phcWayDisableDone (2 ^ 4) 0,
    .phcWayDisableDone 0 (2 ^ 17), .phcSwopClean (.ap 0) (2 ^ 4) 0, .phcSwopClean (.ap 0) 0 (2 ^ 17),
    .phcSwopInvalidate (.ap 0) (2 ^ 4) 0, .phcSwopInvalidate (.ap 0) 0 (2 ^ 17),
    .phcSwopCleanInvalidate (.ap 0) (2 ^ 4) 0, .phcSwopCleanInvalidate (.ap 0) 0 (2 ^ 17),
    .packingFillwaitExpiry (2 ^ 16), .jobSubmit (.ap 0) (2 ^ 16) [],
    .jobSubmit (.ap 0) 0 [⟨2 ^ 32, 0, 0, 0, 0, 0, 0⟩], .eraseComplete (2 ^ 10) 0 .ok, .eraseComplete 0 (2 ^ 14) .ok,
    .patrolReadDone (2 ^ 19) 0 0 0 0 0 [], .patrolReadDone 0 (2 ^ 5) 0 0 0 0 [],
    .patrolReadDone 0 0 (2 ^ 12) 0 0 0 [], .ownerSearch (.ap 0) 0 [(⟨1024, 0, 0, 0⟩, true)]]
def refused6 : List Instr := [
    .mergeAgeFlush (2 ^ 30) { } 0, .segmentRebuildDone (2 ^ 16) false, .jramLineSwitch (2 ^ 8) 0,
    .jramLineSwitch 0 (2 ^ 30), .link badH 0 0 0 0, .link hdr (2 ^ 192) 0 0 0, .link hdr 0 (2 ^ 32) 0 0,
    .link hdr 0 0 (2 ^ 8) 0, .link hdr 0 0 0 (2 ^ 8), .beacon badH 0 0 0 0 0 0 0 0 false,
    .beacon hdr (2 ^ 32) 0 0 0 0 0 0 0 false, .beacon hdr 0 (2 ^ 8) 0 0 0 0 0 0 false,
    .beacon hdr 0 0 (2 ^ 8) 0 0 0 0 0 false, .beacon hdr 0 0 0 (2 ^ 8) 0 0 0 0 false,
    .beacon hdr 0 0 0 0 (2 ^ 8) 0 0 0 false, .beacon hdr 0 0 0 0 0 (2 ^ 8) 0 0 false,
    .beacon hdr 0 0 0 0 0 0 (2 ^ 64) 0 false, .beacon hdr 0 0 0 0 0 0 0 (2 ^ 64) false, .syncReq badH 0,
    .syncReq hdr (2 ^ 64), .syncRsp badH 0 0 0 0, .syncRsp hdr (2 ^ 64) 0 0 0, .syncRsp hdr 0 (2 ^ 64) 0 0,
    .syncRsp hdr 0 0 (2 ^ 64) 0, .syncRsp hdr 0 0 0 (2 ^ 64), .enum badH 0 0 0 0, .enum hdr (2 ^ 32) 0 0 0,
    .enum hdr 0 (2 ^ 8) 0 0, .enum hdr 0 0 (2 ^ 64) 0, .enum hdr 0 0 0 (2 ^ 64)]
def refused7 : List Instr := [
    .enumend badH 0 0 0 0, .enumend hdr (2 ^ 8) 0 0 0, .enumend hdr 0 (2 ^ 8) 0 0, .enumend hdr 0 0 (2 ^ 64) 0,
    .enumend hdr 0 0 0 (2 ^ 64), .groupstate badH false 0 0 0 0 0, .groupstate hdr false (2 ^ 32) 0 0 0 0,
    .groupstate hdr false 0 (2 ^ 8) 0 0 0, .groupstate hdr false 0 0 (2 ^ 8) 0 0,
    .groupstate hdr false 0 0 0 (2 ^ 64) 0, .groupstate hdr false 0 0 0 0 (2 ^ 64), .join badH 0,
    .join hdr (2 ^ 192), .ringAdmit badH 0 0 0 0, .ringAdmit hdr (2 ^ 192) 0 0 0, .ringAdmit hdr 0 (2 ^ 8) 0 0,
    .ringAdmit hdr 0 0 (2 ^ 32) 0, .ringAdmit hdr 0 0 0 (2 ^ 8), .role badH 0 0, .role hdr (2 ^ 8) 0,
    .role hdr 0 (2 ^ 8), .sched badH false 0 0 0, .sched hdr false (2 ^ 8) 0 0, .sched hdr false 0 (2 ^ 64) 0,
    .ack badH 0 0, .ack hdr (2 ^ 8) 0, .ack hdr 0 (2 ^ 16), .act badH 0 0 0, .act hdr (2 ^ 512) 0 0,
    .act hdr 0 (2 ^ 64) 0]
def refused8 : List Instr := [
    .act hdr 0 0 (2 ^ 32), .relOffer badH 0 0, .relOffer hdr (2 ^ 17) 0, .relOffer hdr 0 (2 ^ 512),
    .relData badH 0 [], .relData hdr (2 ^ 32) [], .relAck badH 0, .relAck hdr (2 ^ 32), .relHave badH 0,
    .relHave hdr (2 ^ 512), .ringFirmwareDispatch badH 0 [], .ringFirmwareDispatch hdr (2 ^ 8) [],
    .reachExpiry (2 ^ 8), .dispatchRepeat (2 ^ 16), .fuseRaiseMinsvn (.ap 0) (2 ^ 16),
    .keyGenerate (.ap 0) false (2 ^ 32) false, .keyLoadWrapped (.ap 0) false (2 ^ 32), .keyDestroy (.ap 0) (2 ^ 32),
    .getCertificate .smbus (2 ^ 16) 0 0, .getCertificate .smbus 0 (2 ^ 32) 0, .getCertificate .smbus 0 0 (2 ^ 32),
    .challenge .smbus (2 ^ 16), .getMeasurements .smbus (2 ^ 32) false, .finish .smbus (2 ^ 32) false 0,
    .heartbeat .smbus (2 ^ 32), .keyUpdate .smbus (2 ^ 32), .endSession .smbus (2 ^ 32), .avfsEvaluation (2 ^ 3) [],
    .xipFetch (.ap 0) (2 ^ 24) 0, .faultyRegisterRead (.ap 0) (2 ^ 24) 4]
def refused9 : List Instr := [
    .faultyRegisterRead (.ap 0) 0 3, .msixTableWrite .a (2 ^ 16) false 0 0, .msixTableWrite .a 0 false (2 ^ 64) 0,
    .msixTableWrite .a 0 false 0 (2 ^ 32), .interruptCoalescingExpiry .a (2 ^ 16), .spdmHeartbeatTimeout (2 ^ 32),
    .reservedDispatchType badH 0, .reservedDispatchType hdr (2 ^ 8)]
/-- A command with its operands in range is well formed. -/
theorem test_wf_takes : (taken0 ++ taken1 ++ taken2 ++ taken3).all Instr.wf = true := by
  decide +kernel
/-- Each check of each command, met by one operand that its field cannot hold. -/
theorem test_wf_refuses :
    (refused0 ++ refused1 ++ refused2 ++ refused3 ++ refused4 ++ refused5 ++ refused6 ++ refused7 ++ refused8 ++ refused9).all (fun i => !i.wf) = true := by
  decide +kernel

/-! ## The spec's tables and worked examples -/

/-- The check values of Table 0-5, over ASCII "123456789". -/
def digits : List Byte := [0x31, 0x32, 0x33, 0x34, 0x35, 0x36, 0x37, 0x38, 0x39]
theorem test_crc32c : crc32c digits = 0xE3069283 := by decide +kernel
theorem test_crc64 : crc64 digits = 0x995DC9BBDF1939FA := by decide +kernel
/-- The parcel entry of the worked example of R140: a parcel pointer to LUN 0x205, block 0x0A2C, page group 0x037. -/
theorem test_parcel_entry : PEnt.decode 0x40814A2C0370 = .ptr (ppaOf 0x205 0xA2C 0x37 0) ∧ (PEnt.ptr (ppaOf 0x205 0xA2C 0x37 0)).code = 0x40814A2C0370 := by
  decide +kernel
/-- The PPA of the worked example of R233. -/
theorem test_ppa : (ppaLun 0x352A171376, ppaBlock 0x352A171376, ppaPage 0x352A171376, 0x352A171376 % 16) = (212, 0x2A17, 0x137, 6) := by decide
def sb32 : Sb := { sbid := 0x41C2B, st := 2, stream := 0, rows := 512, members := List.replicate 32 { chn := 0, pos := 0, block := 5, endrow := 4 } }
/-- Its superblock's parity (R224): P is member 11, Q member 12, the target on channel 20 is data member 18, channel 5 holds 5. -/
theorem test_parity_place : (sb32.pIdx, sb32.qIdx, sb32.dataIdx 20, sb32.dataIdx 5) = (11, 12, 18, 5) := by decide +kernel
/-- Its threshold entry (R219): LUN 212, group 0xA8, zone 4, of a die of 512 pages. -/
theorem test_threshold_entry :
    let s := { up with flash := { up.flash with die := { up.flash.die with pages := 512 } } }
    ttAddr s 212 0x2A17 0x137 = ttBase s 20 + ((212 * 256 + 0xA8) * 8 + 4) * 16 := by decide +kernel
/-- The score of the worked example of Reclamation: VCOUNT 24,576 of 245,760, sealed 30 hours ago, weight 4. -/
theorem test_victim_score :
    let b : Sb := { sb32 with vcount := 24576, rows := 512, sealTime := 0, members := List.replicate 32 { chn := 0, pos := 0, block := 5, endrow := 512 } }
    b.cap = 245760 ∧ victimScore (wrField { up with map := { up.map with life := 108000 } } 0x300A0 15 8 4) b = 86631 := by decide +kernel
/-- The worked example of R66: at 4.010 s timer 3 raises source 227 and CMP becomes 1,005,000,000. -/
theorem test_timer :
    let s := wr (wr (wr up (Reg.tmrCtl 3) 1) (Reg.tmrPer 3) 2500000) (Reg.tmrCmp 3) 1002500000
    let t := timerFire { s with clk := { s.clk with tb := 1002500000 } } 3
    rd t (Reg.tmrCmp 3) = 1005000000 ∧ raised t 227 = true := by decide +kernel
/-- The throttled budget of the worked example of R396: 3,100 × 128/256 = 1,550. -/
theorem test_throttled_budget :
    flashBudget (wrField { wr up (Reg.pwrFbud 0) 3100 with thm := { up.thm with throttle := { up.thm.throttle with inForce := true } } } Reg.thmThrot 7 0 128) = 1550 := by decide +kernel

/-! ## The statements' hypotheses are met -/

/-- Hypotheses of `Obligations.IdleStepTicks`. -/
theorem witness_IdleStepTicks :
    ((fun (s : State) =>
      s.pending = []) (up)) := by
  beta_reduce; (repeat' first | apply And.intro | apply Calm.mk | apply Canon.mk) <;>
    first | decide +kernel
/-- Hypotheses of `Obligations.EveryStepGoesOn`. -/
theorem witness_EveryStepGoesOn :
    ((fun (s : State) (t : State) =>
      step s = .next t) ({ up with pending := [.sanitizeProgressWrite, .beaconSend] }) ({ up with pending := [.beaconSend] })) := by
  beta_reduce; (repeat' first | apply And.intro | apply Calm.mk | apply Canon.mk) <;>
    first | decide +kernel | rfl
/-- Hypotheses of `Obligations.StepKeepsCanonicalForm`. -/
theorem witness_StepKeepsCanonicalForm :
    ((fun (s : State) (t : State) =>
      Canon s ∧
      step s = .next t) ({ up with pending := [.sanitizeProgressWrite, .beaconSend] }) ({ up with pending := [.beaconSend] })) := by
  beta_reduce; (repeat' first | apply And.intro | apply Calm.mk | apply Canon.mk) <;>
    first | decide +kernel | rfl
/-- Hypotheses of `Obligations.FusesOnlyGrow`. -/
theorem witness_FusesOnlyGrow :
    ((fun (s : State) (t : State) =>
      step s = .next t) ({ up with pending := [.sanitizeProgressWrite, .beaconSend] }) ({ up with pending := [.beaconSend] })) := by
  beta_reduce; (repeat' first | apply And.intro | apply Calm.mk | apply Canon.mk) <;>
    first | decide +kernel | rfl
/-- Hypotheses of `Obligations.FrameOfEveryCommand`. -/
theorem witness_FrameOfEveryCommand :
    ((fun (c : Instr) (s : State) (t : State) =>
      exec c s = .next t) (.sanitizeProgressWrite) (up) (up)) := by
  beta_reduce; (repeat' first | apply And.intro | apply Calm.mk | apply Canon.mk) <;>
    first | decide +kernel | rfl
/-- Hypotheses of `Obligations.MemoryLaws`. -/
theorem witness_MemoryLaws :
    ((fun (d : Byte) (v : Byte) (m : NMap Byte) (a : Nat) (b : Nat) =>
      memWf d m = true) (0) (0) ([(3, 5)]) (3) (4)) ∧
    ((fun (d : Byte) (m : NMap Byte) (a : Nat) (l : List Byte) =>
      memWf d m = true) (0xFF) ([(3, 5)]) (2) ([1, 0xFF])) ∧
    ((fun (d : Byte) (m : NMap Byte) (n : NMap Byte) =>
      memWf d m = true ∧
      memWf d n = true ∧
      (∀ a, memRead d m a = memRead d n a)) (0) ([(3, 5)]) ([(3, 5)])) := by
  refine ⟨?_, ?_, ?_⟩ <;> beta_reduce <;> (repeat' first | apply And.intro | apply Calm.mk | apply Canon.mk) <;>
    first | decide +kernel | exact fun _ => rfl
/-- Hypotheses of `Obligations.HolesAndUnimplemented`. -/
theorem witness_HolesAndUnimplemented :
    ((fun (s : State) (i : Initiator) (off : Nat) (size : Nat) =>
      ReadReaches s i off size ∧
      locate off = none) (up) (.sc0) (0xFFF000) (4)) ∧
    ((fun (s : State) (i : Initiator) (off : Nat) (size : Nat) (v : Dword) =>
      WriteReaches s i off ∧
      locate off = none) (up) (.sc0) (0xFFF000) (8) (5)) ∧
    ((fun (s : State) (i : Initiator) (off : Nat) (size : Nat) (u : Nat) (o : Nat) (b : Blk) =>
      ReadReaches s i off size ∧
      islandRuns s b u = true ∧
      locate off = some (b, u, o) ∧
      findReg b u o = none ∧
      (size = 1 ∨ size = 2 ∨ size = 4) ∧
      o % size = 0) (up) (.sc0) (0x101FFE) (2) (0) (0x1FFE) (.evf)) ∧
    ((fun (s : State) (i : Initiator) (off : Nat) (u : Nat) (o : Nat) (b : Blk) (v : Dword) =>
      WriteReaches s i off ∧
      islandRuns s b u = true ∧
      locate off = some (b, u, o) ∧
      findReg b u o = none ∧
      o % 4 = 0) (up) (.ap 7) (0x101FFC) (0) (0x1FFC) (.evf) (5)) := by
  refine ⟨?_, ?_, ?_, ?_⟩ <;> beta_reduce <;> (repeat' first | apply And.intro | apply Calm.mk | apply Canon.mk) <;>
    first | decide +kernel
/-- Hypotheses of `Obligations.AccessChecks`. -/
theorem witness_AccessChecks :
    ((fun (s : State) (b : Blk) (u : Nat) (bit : Nat) (kind : Nat) (init : Nat) (off : Nat) =>
      bit < 3 ∧
      kind < 8 ∧
      init < 12 ∧
      u < 32) (up) (.chn) (31) (2) (7) (11) (0x3FFC)) ∧
    ((fun (s : State) (i : Initiator) (off : Nat) (size : Nat) (u : Nat) (o : Nat) (b : Blk) (v : Dword) =>
      isCore i = true ∧
      canAccess s i = true ∧
      locate off = some (b, u, o)) (up) (.ap 7) (0x100340) (2) (0) (0x340) (.evf) (5)) ∧
    ((fun (s : State) (i : Initiator) (off : Nat) (size : Nat) (u : Nat) (o : Nat) (b : Blk) (v : Dword) =>
      isCore i = true ∧
      canAccess s i = true ∧
      locate off = some (b, u, o)) (up) (.ap 7) (0x100342) (4) (0) (0x342) (.evf) (5)) ∧
    ((fun (s : State) (i : Initiator) (off : Nat) (size : Nat) (u : Nat) (o : Nat) (b : Blk) =>
      isCore i = true ∧
      canAccess s i = true ∧
      locate off = some (b, u, o)) (up) (.ap 7) (0x100341) (2) (0) (0x341) (.evf)) := by
  refine ⟨?_, ?_, ?_, ?_⟩ <;> beta_reduce <;> (repeat' first | apply And.intro | apply Calm.mk | apply Canon.mk) <;>
    first | decide +kernel
/-- Hypotheses of `Obligations.ReadsHaveNoSideEffect`. -/
theorem witness_ReadsHaveNoSideEffect :
    ((fun (s : State) (i : Initiator) (off : Nat) (size : Nat) (u : Nat) (o : Nat) (b : Blk) (x : RegAt) =>
      canAccess s i = true ∧
      windowRead s i off size = none ∧
      locate off = some (b, u, o) ∧
      islandRuns s b u = true ∧
      findReg b u o = some x ∧
      ((size = 1 ∨ size = 2 ∨ size = 4) ∧ o % size = 0 ∨ size = 8 ∧ x.row.wide = true ∧ o = x.start ∧ o % 8 = 0)) (up) (.sc1) (0x100340) (4) (0) (0x340) (.evf) ((findReg .evf 0 0x340).get (by decide +kernel))) := by
  beta_reduce; (repeat' first | apply And.intro | apply Calm.mk | apply Canon.mk) <;>
    first | decide +kernel | exact (Option.some_get _).symm
/-- Hypotheses of `Obligations.InertWrites`. -/
theorem witness_InertWrites :
    ((fun (s : State) (i : Initiator) (off : Nat) (u : Nat) (o : Nat) (b : Blk) (x : RegAt) (v : Dword) =>
      WriteReaches s i off ∧
      islandRuns s b u = true ∧
      locate off = some (b, u, o) ∧
      findReg b u o = some x ∧
      o = x.start ∧
      o % (if x.row.wide then 8 else 4) = 0 ∧
      o ≠ 4 ∧
      (∀ f ∈ x.row.flds, f.acc = .ro ∨ f.acc = .w1c ∧ bitsOf v.toNat f.hi f.lo &&& bitsOf (regView s i b u x.start) f.hi f.lo = 0)) (up) (.sc0) (0xA0030) (0) (0x30) (.pwr) ((findReg .pwr 0 0x30).get (by decide +kernel)) (0xF)) ∧
    ((fun (s : State) (i : Initiator) (off : Nat) (u : Nat) (o : Nat) (b : Blk) (x : RegAt) (v : Dword) (w : Dword) =>
      WriteReaches s i off ∧
      islandRuns s b u = true ∧
      locate off = some (b, u, o) ∧
      findReg b u o = some x ∧
      o = x.start ∧
      o % (if x.row.wide then 8 else 4) = 0 ∧
      o ≠ 4 ∧
      (∀ f ∈ x.row.flds, f.acc = .ro ∨ f.acc = .w1c ∧ bitsOf v.toNat f.hi f.lo &&& bitsOf (regView s i b u x.start) f.hi f.lo = bitsOf w.toNat f.hi f.lo &&& bitsOf (regView s i b u x.start) f.hi f.lo)) (wr up 0xA0030 1) (.sc0) (0xA0030) (0) (0x30) (.pwr) ((findReg .pwr 0 0x30).get (by decide +kernel)) (0xF) (1)) ∧
    ((fun (s : State) (i : Initiator) (n : Nat) (v : Dword) =>
      WriteReaches s i (Reg.route n) ∧
      islandRuns s .evf 0 = true ∧
      n < 256 ∧
      v.toNat / 2 ^ 16 % 2 ^ 16 = 0) (up) (.sc0) (255) (0xFFFF)) := by
  refine ⟨?_, ?_, ?_⟩ <;> beta_reduce <;> (repeat' first | apply And.intro | apply Calm.mk | apply Canon.mk) <;>
    first | decide +kernel | exact (Option.some_get _).symm | exact (Option.some_get _).symm
/-- Hypotheses of `Obligations.ConfigurationWhileActive`. -/
theorem witness_ConfigurationWhileActive :
    ((fun (s : State) (i : Initiator) (off : Nat) (u : Nat) (o : Nat) (b : Blk) (x : RegAt) (v : Dword) =>
      coreAccess s i b u = true ∧
      locate off = some (b, u, o) ∧
      findReg b u o = some x ∧
      x.row.wide = false ∧
      o % 4 = 0 ∧
      o ≠ 4 ∧
      active s b u = true ∧
      confChange x.row.flds (regView s i b u x.start) (if b = .phc ∧ o = 0x10 then v.toNat % 2 ^ phcWays s + regView s i b u o / 2 ^ phcWays s * 2 ^ phcWays s else v.toNat % 2 ^ 32) = true) (setActive up .phc 0 true) (.sc0) (0x40010) (0) (0x10) (.phc) ((findReg .phc 0 0x10).get (by decide +kernel)) (2)) ∧
    ((fun (s : State) (i : Initiator) (b : Blk) (u : Fin 32) (v : Word) =>
      coreAccess s i b u = true ∧
      locate (Reg.ctl b u) = some (b, u.val, 4) ∧
      active s b u = true ∧
      v.toNat % 2 = 1 ∧
      confChange (ctlFields b) (rd s (Reg.ctl b u)) v.toNat = true) (on up .srt) (.sc0) (.srt) (0) (0x51)) := by
  refine ⟨?_, ?_⟩ <;> beta_reduce <;> (repeat' first | apply And.intro | apply Calm.mk | apply Canon.mk) <;>
    first | decide +kernel | exact (Option.some_get _).symm
/-- Hypotheses of `Obligations.MaintenanceWindow`. -/
theorem witness_MaintenanceWindow :
    ((fun (s : State) (p : Port) (off : Nat) (size : Nat) (v : Dword) =>
      bar2Reach s p = true) (host) (.a) (0x100340) (4) (5)) ∧
    ((fun (s : State) (p : Port) (off : Nat) (size : Nat) (v : Dword) =>
      bar2Reach s p = true) ({ host with sec := { host.sec with winA := .openRo } }) (.a) (0x100340) (4) (5)) ∧
    ((fun (s : State) (p : Port) (off : Nat) (size : Nat) (v : Dword) =>
      bar2Reach s p = true) ({ host with sec := { host.sec with winA := .openRw } }) (.a) (0x100340) (4) (5)) := by
  refine ⟨?_, ?_, ?_⟩ <;> beta_reduce <;> (repeat' first | apply And.intro | apply Calm.mk | apply Canon.mk) <;>
    first | decide +kernel
/-- Hypotheses of `Obligations.RaisesOfSources`. -/
theorem witness_RaisesOfSources :
    ((fun (s : State) (n : Nat) (origin : Nat) (pl : List Byte) =>
      n < 248 ∧
      ¬ (157 ≤ n ∧ n ≤ 159) ∧
      s.chip.held = false) (up) (247) (0) ([])) ∧
    ((fun (s : State) (i : Initiator) (k : Nat) =>
      k < 10) (up) (.sc0) (9)) := by
  refine ⟨?_, ?_⟩ <;> beta_reduce <;> (repeat' first | apply And.intro | apply Calm.mk | apply Canon.mk) <;>
    first | decide +kernel
/-- Hypotheses of `Obligations.RecorderAdmission`. -/
theorem witness_RecorderAdmission :
    ((fun (s : State) (c : Cand) =>
      ¬ (0x100 ≤ c.code ∧ c.code ≤ 0x103)) (up) ({ code := 0x200, origin := 1, payload := [] })) ∧
    ((fun (s : State) (c : Cand) =>
      s.evr.fifo.length = 64 ∧
      (0x100 ≤ c.code ∧ c.code ≤ 0x103 ∨ (bucketNow s c.code).off = false ∧ 4000000000 ≤ (bucketNow s c.code).level)) ({ up with evr := { up.evr with fifo := List.replicate 64 { code := 1, origin := 0, payload := [] } } }) ({ code := 0x103, origin := 1, payload := [] })) := by
  refine ⟨?_, ?_⟩ <;> beta_reduce <;> (repeat' first | apply And.intro | apply Calm.mk | apply Canon.mk) <;>
    first | decide +kernel
/-- Hypotheses of `Obligations.ThresholdsAndSupplyMonitors`. -/
theorem witness_ThresholdsAndSupplyMonitors :
    ((fun (s : State) (die : List Reading) (ext : List Reading) (rails : List (Option Nat)) (t0 : Int) =>
      reported s (sensorsRound s die) = some t0) (host) (List.replicate 16 (some 2000)) ([]) ([]) (2000)) ∧
    ((fun (s : State) =>
      s.chip.held = false) (host)) ∧
    ((fun (s : State) (die : List Reading) (ext : List Reading) (rails : List (Option Nat)) (k : Nat) (mv : Nat) =>
      k < 12 ∧
      rails.getD k none = some mv) (host) ([]) ([]) (List.replicate 12 (some 700)) (11) (700)) ∧
    ((fun (s : State) (k : Fin 12) (x : Rail) (mv : Nat) =>
      s.chip.held = false ∧
      s.thm.rails[k.val]? = some x ∧
      8 ≤ x.count ∧
      x.mv = some mv) ({ host with thm := { host.thm with rails := { lo := 700, hi := 900, mv := some 650, count := 8 } :: List.replicate 11 {} } }) (0) ({ lo := 700, hi := 900, mv := some 650, count := 8 }) (650)) := by
  refine ⟨?_, ?_, ?_, ?_⟩ <;> beta_reduce <;> (repeat' first | apply And.intro | apply Calm.mk | apply Canon.mk) <;>
    first | decide +kernel
/-- Hypotheses of `Obligations.ParityRebuilds`. -/
theorem witness_ParityRebuilds :
    ((fun (s : State) (b : Sb) (r : Rebuild) (slot : Nat) =>
      b.nmem ≤ 32 ∧
      inSealBuffer s r.sbx b r.row = none ∧
      r.target ∈ b.dataMems ∧
      r.row < b.endRow b.pIdx ∧
      r.erased.contains b.pIdx = false ∧
      (∀ m ∈ r.erased, m = b.qIdx) ∧
      (slotPayload s (b.page b.pIdx r.row + slot)).getD 0 = rowP s r.sbx b r.row slot) (striped) (sb4) ({ sbx := 3, row := 3, target := 3, pend := [], erased := [1] }) (15)) ∧
    ((fun (s : State) (b : Sb) (r : Rebuild) (slot : Nat) =>
      b.nmem ≤ 32 ∧
      inSealBuffer s r.sbx b r.row = none ∧
      r.target ∈ b.dataMems ∧
      r.row < b.endRow b.qIdx ∧
      b.pIdx ≠ b.qIdx ∧
      r.erased = [b.pIdx] ∧
      (slotPayload s (b.page b.qIdx r.row + slot)).getD 0 = rowQ s r.sbx b r.row slot) (striped) (sb4) ({ sbx := 3, row := 0, target := 2, pend := [], erased := [0] }) (0)) ∧
    ((fun (s : State) (b : Sb) (r : Rebuild) (slot : Nat) (other : Nat) =>
      b.nmem ≤ 32 ∧
      inSealBuffer s r.sbx b r.row = none ∧
      r.target ∈ b.dataMems ∧
      other ∈ b.dataMems ∧
      other ≠ r.target ∧
      r.erased = [other] ∧
      r.row < b.endRow b.pIdx ∧
      r.row < b.endRow b.qIdx ∧
      (slotPayload s (b.page b.pIdx r.row + slot)).getD 0 = rowP s r.sbx b r.row slot ∧
      (slotPayload s (b.page b.qIdx r.row + slot)).getD 0 = rowQ s r.sbx b r.row slot) (striped) (sb4) ({ sbx := 3, row := 0, target := 2, pend := [], erased := [3] }) (0) (3)) ∧
    ((fun (s : State) (b : Sb) (r : Rebuild) (slot : Nat) (c : Nat) (d : Nat) =>
      inSealBuffer s r.sbx b r.row = none ∧
      r.target ∈ b.dataMems ∧
      c ∈ b.dataMems ∧
      d ∈ b.dataMems ∧
      r.erased = [c, d] ∧
      (r.row < b.endRow b.pIdx ∨ r.row < b.endRow b.qIdx)) (striped) (sb4) ({ sbx := 3, row := 0, target := 2, pend := [], erased := [3, 3] }) (0) (3) (3)) := by
  refine ⟨?_, ?_, ?_, ?_⟩ <;> beta_reduce <;> (repeat' first | apply And.intro | apply Calm.mk | apply Canon.mk) <;>
    first | decide +kernel
/-- Hypotheses of `Obligations.RegisterWrites`. -/
theorem witness_RegisterWrites :
    ((fun (s : State) (i : Initiator) (v : Dword) =>
      coreAccess s i .evf 0 = true) (up) (.sc0) (777)) ∧
    ((fun (s : State) (i : Initiator) (off : Nat) (size : Nat) (v : Dword) =>
      isCore i = true ∧
      canAccess s i = true ∧
      locate off = none) (up) (.sc0) (0xFFF000) (4) (5)) ∧
    ((fun (s : State) (i : Initiator) (off : Nat) (size : Nat) (u : Nat) (o : Nat) (b : Blk) (v : Dword) =>
      coreAccess s i b u = true ∧
      locate off = some (b, u, o) ∧
      (size = 1 ∨ size = 2)) (up) (.sc0) (0x100340) (2) (0) (0x340) (.evf) (5)) ∧
    ((fun (s : State) (p : Port) (v : Dword) =>
      bar2Reach s p = true ∧
      winOfPort s p = .openRw) ({ host with sec := { host.sec with winA := .openRw } }) (.a) (777)) ∧
    ((fun (s : State) (p : Port) (off : Nat) (size : Nat) =>
      bar2Reach s p = true ∧
      winOfPort s p = .closed) (host) (.a) (0x100340) (4)) ∧
    ((fun (s : State) (i : Initiator) (v : Word) =>
      coreAccess s i .pat 0 = true ∧
      active s .pat = false ∧
      v.toNat % 2 = 1) (up) (.sc1) (1)) ∧
    ((fun (s : State) (i : Initiator) (v : Word) =>
      coreAccess s i .pat 0 = true ∧
      active s .pat = true ∧
      leaving s .pat = false ∧
      v.toNat % 2 = 0) (on up .pat) (.sc1) (0)) := by
  refine ⟨?_, ?_, ?_, ?_, ?_, ?_, ?_⟩ <;> beta_reduce <;> (repeat' first | apply And.intro | apply Calm.mk | apply Canon.mk) <;>
    first | decide +kernel
/-- Hypotheses of `Obligations.EventFabricCommands`. -/
theorem witness_EventFabricCommands :
    ((fun (s : State) =>
      leaving s .pat = true ∧
      s.pat.cur = none ∧
      s.pat.search = none ∧
      enabled s .pat = false) ({ setActive up .pat 0 true with chip := { up.chip with disabling := [(.pat, 0)] } })) ∧
    ((fun (s : State) (i : Initiator) (v : Word) (k : Nat) =>
      coreAccess s i .evf 0 = true ∧
      k < 32 ∧
      bitOf v.toNat k = true) (up) (.ap 2) (0x80000000) (31)) ∧
    ((fun (s : State) (p : Port) (b : Bool) =>
      (ngetD (getPort s p).hold (if b then 129 else 128) {}).running = true) ({ up with portA := { up.portA with hold := [(129, { running := true, merged := true })] } }) (.a) (true)) ∧
    ((fun (s : State) (p : Port) (b : Bool) =>
      (ngetD (getPort s p).hold (if b then 129 else 128) {}).running = true) ({ up with portA := { up.portA with hold := [(129, { running := true })] } }) (.a) (true)) ∧
    ((fun (s : State) (n : Fin 14) =>
      bitOf (rd s (Reg.tmrCtl n)) 0 = true ∧
      rd s (Reg.tmrCmp n) ≤ s.clk.tb ∧
      s.chip.held = false ∧
      s.clk.tb < 2 ^ 63 ∧
      rd s (Reg.tmrPer n) < 2 ^ 32) (wr (wr (wr up (Reg.tmrCtl 13) 1) (Reg.tmrPer 13) 100) (Reg.tmrCmp 13) 0) (13)) ∧
    ((fun (s : State) (k : Fin 10) =>
      wdDue s k = true ∧
      rdField s (Reg.wdSts k) 1 0 = 0 ∧
      s.chip.held = false) ({ wr up (Reg.wdCtl 9) 0x101 with clk := { up.clk with wd := [(9, 250000)] } }) (9)) ∧
    ((fun (s : State) (i : Initiator) (k : Fin 10) (v : Word) =>
      coreAccess s i .evf 0 = true) (up) (.ap 7) (0) (1)) ∧
    ((fun (s : State) (i : Initiator) =>
      coreAccess s i .evf 0 = true) (up) (.sc0)) := by
  refine ⟨?_, ?_, ?_, ?_, ?_, ?_, ?_, ?_⟩ <;> beta_reduce <;> (repeat' first | apply And.intro | apply Calm.mk | apply Canon.mk) <;>
    first | decide +kernel
/-- Hypotheses of `Obligations.DoorbellsAndAcceptance`. -/
theorem witness_DoorbellsAndAcceptance :
    ((fun (s : State) (p : Port) (qid : Nat) (tail : Nat) (q : Sq) =>
      (getPort s p).en = true ∧
      (getPort s p).d3hot = false ∧
      nget (getPort s p).sqs qid = some q ∧
      tail < q.size) (host) (.a) (1) (15) ({ size := 16, cqid := 1, tail := 1 })) ∧
    ((fun (s : State) (p : Port) (qid : Nat) (head : Nat) (q : Cq) =>
      (getPort s p).en = true ∧
      (getPort s p).d3hot = false ∧
      nget (getPort s p).cqs qid = some q ∧
      head < q.size ∧
      q.held = [] ∧
      (getPort s p).abortWait = none) (host) (.a) (1) (15) ({ size := 16 })) ∧
    ((fun (s : State) (p : Port) (qid : Nat) (head : Nat) (q : Cq) (c : Compl) =>
      (getPort s p).en = true ∧
      (getPort s p).d3hot = false ∧
      nget (getPort s p).cqs qid = some q ∧
      head < q.size ∧
      q.held = [c] ∧
      (q.tail + 1) % q.size ≠ head ∧
      (getPort s p).abortWait = none) ({ host with portA := { portUp with cqs := [(0, { size := 16 }), (1, { size := 2, tail := 1, held := [{ port := .a, qid := 1, cid := 8, st := stOk }] })] } }) (.a) (1) (1) ({ size := 2, tail := 1, held := [{ port := .a, qid := 1, cid := 8, st := stOk }] }) ({ port := .a, qid := 1, cid := 8, st := stOk })) ∧
    ((fun (s : State) (id : Nat) (c : Cmd) =>
      nget s.srt.cmds id = some c ∧
      (s.srt.cmds.filter fun e => !e.2.accepted) = [(id, c)] ∧
      acceptFault (dropCmd s id) c = none ∧
      s.srt.quiesce = false ∧
      running s .srt = true ∧
      occCmds s < 16384 ∧
      occRanges s + (c.entries - 1) ≤ 32768 ∧
      nsorted none s.srt.cmds = true) (withCmds host [(3, { rcmd with accepted := false })]) (3) ({ rcmd with accepted := false })) ∧
    ((fun (s : State) (q : Sqe) (opc : Nat) (fused : Bool) =>
      (if q.qid = 0 then canFetchAdm s q else canFetchIo s q) = true ∧
      cqReady s q = true) (host) (adm) (0xC7) (false)) ∧
    ((fun (s : State) (q : Sqe) (opc : Nat) (fused : Bool) =>
      (if q.qid = 0 then canFetchAdm s q else canFetchIo s q) = true ∧
      cqReady s q = true) (hostIo) (io) (0x55) (true)) ∧
    ((fun (s : State) (q : Sqe) =>
      canFetchIo s q = true ∧
      cqReady s q = true ∧
      1 ≤ q.nsid ∧
      q.nsid ≤ 128 ∧
      (attachedNs s q).isSome = true ∧
      stateFault s q.nsid false = none) (hostIo) (io)) ∧
    ((fun (s : State) (q : Sqe) (f : IoFields) (k : Nat) =>
      Fetches s q (.write q f k) true 1) (hostIo) (io) (fields) (0)) ∧
    ((fun (s : State) (q : Sqe) (f : IoFields) (lr : Bool) =>
      Fetches s q (.read q f lr) false 1) (hostIo) (io) (fields) (false)) := by
  refine ⟨?_, ?_, ?_, ?_, ?_, ?_, ?_, ?_, ?_⟩ <;> beta_reduce <;> (repeat' first | apply And.intro | apply Calm.mk | apply Canon.mk) <;>
    first | decide +kernel
/-- Hypotheses of `Obligations.FetchedIoCommands`. -/
theorem witness_FetchedIoCommands :
    ((fun (s : State) (q : Sqe) (f : IoFields) (l : List HostBlock) =>
      Fetches s q (.compare q f l) false 1) (hostIo) (io) (fields) ([])) ∧
    ((fun (s : State) (q : Sqe) (f : IoFields) (d : Bool) =>
      Fetches s q (.writeZeroes q f d) true 1) (hostIo) (io) (fields) (true)) ∧
    ((fun (s : State) (q : Sqe) (f : IoFields) =>
      Fetches s q (.verify q f) false 1) (hostIo) (io) (fields)) ∧
    ((fun (s : State) (q : Sqe) (l : List LetterRange) =>
      Fetches s q (.datasetManagement q l true) true l.length) (hostIo) (io) ([{ slba := 0, nlb := 16 }])) ∧
    ((fun (s : State) (q : Sqe) (f : IoFields) (st : Status) (lba : Nat) =>
      canFetchIo s q = true ∧
      cqReady s q = true) ({ hostIo with prog := { host.prog with kind := 2 } }) (io) ({ fields with slba := 1600 }) (stLbaRange) (1600)) ∧
    ((fun (s : State) (id : Nat) (bs : List HostBlock) (c : Cmd) (n : Ns) =>
      getCmd s id = some c ∧
      c.accepted = true ∧
      c.dataIn = false ∧
      c.status = none ∧
      isWrite c.body = true ∧
      c.released = false ∧
      nsOf s c.q.nsid = some n ∧
      n.lbaf ≠ 2 ∧
      (∀ f, ioFields c.body = some f → writeRoom s { c with blocks := bs } n f = true)) (withCmds { roomy with map := { roomy.map with wsnLim := 2 ^ 36 } } [(3, wcmd)]) (3) ([{ data := 5, md := 0 }]) (wcmd) (ns1)) ∧
    ((fun (s : State) (id : Nat) (bs : List HostBlock) (c : Cmd) =>
      s.srt.cmds = [(id, c)] ∧
      c.accepted = true ∧
      c.dataIn = false ∧
      c.status = none ∧
      isWrite c.body = true ∧
      (nsOf s c.q.nsid).isSome = true ∧
      c.mute = false ∧
      cqReady s c.q = true ∧
      (∀ q, sqOf s c.q = some q → q.failStop = false ∧ q.deleting = none) ∧
      c.pins = []) (withCmds host [(3, wcmd)]) (3) ([]) (wcmd)) := by
  refine ⟨?_, ?_, ?_, ?_, ?_, ?_, ?_⟩ <;> beta_reduce <;> (repeat' first | apply And.intro | apply Calm.mk | apply Canon.mk) <;>
    first | decide +kernel
/-- Hypotheses of `Obligations.CommandsUnderWay`. -/
theorem witness_CommandsUnderWay :
    ((fun (s : State) (id : Nat) (q : Sqe) (f : IoFields) (k : Nat) (c : Cmd) (n : Ns) =>
      getCmd s id = some c ∧
      c.body = .write q f k ∧
      releasable s id c = true ∧
      nsOf s c.q.nsid = some n ∧
      n.lbaf ≠ 3 ∧
      c.dataIn = false ∧
      c.places = [] ∧
      s.phc.lost = [] ∧
      s.map.chip < 3 ∧
      corruptSeg s c.q.nsid ((List.range (f.nlb + 1)).map fun i => f.slba + i) = none ∧
      capacityOk s c.q.nsid (newLetters s c.q.nsid ((List.range (f.nlb + 1)).map fun i => f.slba + i)) (newLetters s c.q.nsid ((List.range (f.nlb + 1)).map fun i => f.slba + i)) = true) (withCmds roomy [(3, wcmd)]) (3) (io) (fields) (0) (wcmd) (ns1)) ∧
    ((fun (s : State) (g : Group) (rs : List JRec) =>
      running s .jrc = true ∧
      s.jrc.hold = false ∧
      s.chip.parked = false ∧
      running s .map = true ∧
      s.jrc.reqs = [g] ∧
      batchDue s = true ∧
      queuedBytes s.jrc ≤ 49152 ∧
      groupWaits s g = false ∧
      decideAll s g.owner (projected s) g.wants = rs ∧
      1 ≤ (rs.flatMap fun r => r.words s.jrc.gen).length ∧
      (rs.flatMap fun r => r.words s.jrc.gen).length ≤ 1000 ∧
      s.jrc.head + 16384 ≤ Config.ringBytes ∧
      s.jrc.live + 16384 ≤ Config.ringBytes ∧
      16384 ≤ s.jrc.tokens) ({ host with jrc := { host.jrc with reqs := [{ owner := .other, wants := [.clearRange 1 0 2] }], tokens := 16384 } }) ({ owner := .other, wants := [.clearRange 1 0 2] }) ([.range 1 0 2])) ∧
    ((fun (s : State) (b : Batch) (rest : List Batch) (g : Group) (nsid : Nat) (parcel : Nat) (ppa : Nat) (n : Ns) =>
      Calm s ∧
      s.flash.ops = [] ∧
      s.jrc.batches = b :: rest ∧
      b.groups = [g] ∧
      g.owner = .other ∧
      g.recs = [.parcel nsid parcel none (.ptr ppa)] ∧
      s.jrc.applyQ = [] ∧
      s.phc.lost = [] ∧
      nsOf s nsid = some n ∧
      s.prog.kind ≠ 2) ({ up with
    map := { up.map with tab := { ns := [(1, ns1)] } }
    jrc := { up.jrc with batches := [{ gseq := 4, groups := [{ owner := .other, wants := [], recs := [.parcel 1 0 none (.ptr 16)] }] }] } }) ({ gseq := 4, groups := [{ owner := .other, wants := [], recs := [.parcel 1 0 none (.ptr 16)] }] }) ([]) ({ owner := .other, wants := [], recs := [.parcel 1 0 none (.ptr 16)] }) (1) (0) (16) (ns1)) ∧
    ((fun (s : State) =>
      s.srt.quiesce = false ∧
      active s .srt = true ∧
      s.srt.cmds = [] ∧
      s.chip.held = false) (host)) ∧
    ((fun (s : State) (id : Nat) (c : Cmd) =>
      s.srt.quiesce = false ∧
      active s .srt = true ∧
      s.srt.cmds = [(id, c)] ∧
      c.accepted = true ∧
      0 < c.entries ∧
      c.released = false ∧
      c.status = none ∧
      c.mute = false ∧
      c.pins = [] ∧
      cqReady s c.q = true ∧
      (∀ x, sqOf s c.q = some x → x.failStop = false ∧ x.deleting = none)) ({ host with srt := { host.srt with cmds := [(3, { wcmd with accepted := true })] } }) (3) ({ wcmd with accepted := true })) ∧
    ((fun (s : State) =>
      s.srt.quiesce = true ∧
      (s.srt.cmds.any fun c => c.2.accepted && 0 < c.2.entries && c.2.released) = false) ({ host with srt := { host.srt with quiesce := true } })) ∧
    ((fun (s : State) (id : Nat) (c : Cmd) =>
      getCmd s id = some c ∧
      rdField s (Reg.ctl .srt) 11 4 ≠ 0 ∧
      c.accepted = true ∧
      c.released = false ∧
      0 < c.entries ∧
      c.status = none ∧
      s.chip.held = false) (withCmds (wr host (Reg.ctl .srt) 0x11) [(3, wcmd)]) (3) (wcmd)) := by
  refine ⟨?_, ?_, ?_, ?_, ?_, ?_, ?_⟩ <;> beta_reduce <;> (repeat' first | apply And.intro | apply Calm.mk | apply Canon.mk) <;>
    first | decide +kernel
/-- Hypotheses of `Obligations.TrackerCommands`. -/
theorem witness_TrackerCommands :
    ((fun (s : State) (i : Initiator) (v : Word) =>
      coreAccess s i .srt 0 = true) (withCmds host [(3, wcmd)]) (.sc0) (1)) ∧
    ((fun (s : State) (q : Sqe) (sqid : Nat) (cid : Nat) =>
      canFetchAdm s q = true ∧
      cqReady s q = true ∧
      abortPending (getPort s q.port) = false ∧
      (∀ c ∈ s.srt.cmds, ¬ (c.2.q.port = q.port ∧ c.2.q.qid = sqid ∧ c.2.q.cid = cid)) ∧
      s.chip.held = false) (host) (adm) (1) (9)) ∧
    ((fun (s : State) (q : Sqe) (id : Nat) (c : Cmd) =>
      canFetchAdm s q = true ∧
      cqReady s q = true ∧
      abortPending (getPort s q.port) = false ∧
      s.srt.cmds = [(id, c)] ∧
      c.q.port = q.port ∧
      c.q.qid ≠ 0 ∧
      c.mute = false ∧
      c.modif = false ∧
      c.status = none ∧
      c.pins = [] ∧
      cqReady s c.q = true ∧
      (∀ x, sqOf s c.q = some x → x.failStop = false ∧ x.deleting = none)) (withCmds host [(3, rcmd)]) (adm) (3) (rcmd)) ∧
    ((fun (s : State) (p : Port) (qid : Nat) (a : Arb) =>
      nextFetch s p = some (qid, a)) (host) (.a) (0) (((nextFetch host .a).map fun x => x.2).getD {})) ∧
    ((fun (s : State) (p : Port) (qid : Nat) (a : Arb) =>
      nextFetch s p = some (qid, a) ∧
      (getPort s p).ams = 1 ∧
      (getPort s p).arb.cur = none) ({ host with portA := { portUp with ams := 1 } }) (.a) (0) (((nextFetch { host with portA := { portUp with ams := 1 } } .a).map fun x => x.2).getD {})) ∧
    ((fun (s : State) (p : Port) (qid : Nat) =>
      (getPort s p).arb.cur = some qid ∧
      qid ∈ eligible (getPort s p) (!admWaits s p) (!trkFull s) ∧
      (0 < (getPort s p).arb.left ∨ ngetD (getPort s p).feat 0x01 0 % 8 = 7)) ({ hostIo with portA := { hostIo.portA with arb := { cur := some 1, left := 1 } } }) (.a) (1)) ∧
    ((fun (s : State) (q : Sqe) =>
      (canFetchIo s q = true ∨ canFetchAdm s q = true) ∧
      portHasCmd s (otherPort q.port) = true) ({ hostIo with portB := { hostIo.portA with en := true }, srt := { hostIo.srt with lastB := true } }) (io)) := by
  refine ⟨?_, ?_, ?_, ?_, ?_, ?_, ?_⟩ <;> beta_reduce <;> (repeat' first | apply And.intro | apply Calm.mk | apply Canon.mk) <;>
    first | decide +kernel
/-- Hypotheses of `Obligations.QueueAdministration`. -/
theorem witness_QueueAdministration :
    ((fun (s : State) (q : Sqe) (qid : Nat) (size : Nat) (vector : Nat) (ien : Bool) =>
      Adm s q ∧
      1 ≤ qid ∧
      qid ≤ 256 ∧
      nget (getPort s q.port).cqs qid = none ∧
      2 ≤ size ∧
      size ≤ 65536 ∧
      vector < 128 ∧
      (∀ x, nget (getPort s q.port).sqs 0 = some x → x.cqid ≠ qid)) (host) (adm) (256) (65536) (127) (true)) ∧
    ((fun (s : State) (q : Sqe) (qid : Nat) (size : Nat) (cqid : Nat) (prio : Nat) (fsm : Nat) =>
      Adm s q ∧
      1 ≤ qid ∧
      qid ≤ 256 ∧
      nget (getPort s q.port).sqs qid = none ∧
      1 ≤ cqid ∧
      cqid ≤ 256 ∧
      (nget (getPort s q.port).cqs cqid).isSome = true ∧
      2 ≤ size ∧
      size ≤ 65536 ∧
      fsm < 3) (host) (adm) (256) (2) (1) (3) (2)) ∧
    ((fun (s : State) (q : Sqe) (qid : Nat) (x : Sq) =>
      Adm s q ∧
      qid ≠ 0 ∧
      nget (getPort s q.port).sqs qid = some x ∧
      x.deleting = none ∧
      nsorted none (getPort s q.port).sqs = true ∧
      (∀ c ∈ s.srt.cmds, ¬ (c.2.q.port = q.port ∧ c.2.q.qid = qid))) (host) (adm) (1) ({ size := 16, cqid := 1, tail := 1 })) ∧
    ((fun (s : State) (q : Sqe) (qid : Nat) =>
      Adm s q ∧
      qid ≠ 0 ∧
      (nget (getPort s q.port).cqs qid).isSome = true ∧
      (∀ e ∈ (getPort s q.port).sqs, e.2.cqid ≠ qid) ∧
      nsorted none (getPort s q.port).cqs = true) ({ host with portA := { portUp with sqs := [(0, { size := 16, tail := 1 })] } }) (adm) (1)) ∧
    ((fun (s : State) (q : Sqe) (n : Ns) (cntid : Nat) =>
      Adm s q ∧
      1 ≤ q.nsid ∧
      q.nsid ≤ 128 ∧
      nsOf s q.nsid = some n ∧
      n.attached.contains q.port = true) (host) (adm) (ns1) (0)) ∧
    ((fun (s : State) (q : Sqe) (cntid : Nat) =>
      Adm s q) (host) (vend) (0)) ∧
    ((fun (s : State) (q : Sqe) (lsp : Nat) =>
      Adm s q) (host) (vend) (0)) ∧
    ((fun (s : State) (q : Sqe) (lsp : Nat) (lpo : Nat) =>
      Adm s q ∧
      lpo % 4 = 0 ∧
      lpo ≤ 4224) (host) (vend) (0) (4224)) ∧
    ((fun (s : State) (q : Sqe) (lsp : Nat) (lpo : Nat) (rae : Bool) =>
      Adm s q ∧
      lpo % 4 ≠ 0) (host) (vend) (0) (2) (true)) := by
  refine ⟨?_, ?_, ?_, ?_, ?_, ?_, ?_, ?_, ?_⟩ <;> beta_reduce <;> (repeat' first | apply And.intro | apply Calm.mk | apply Canon.mk) <;>
    first | decide +kernel
/-- Hypotheses of `Obligations.FeaturesAndEvents`. -/
theorem witness_FeaturesAndEvents :
    ((fun (s : State) (q : Sqe) =>
      Adm s q) (host) (vend)) ∧
    ((fun (s : State) (q : Sqe) (lsp : Nat) =>
      Adm s q) (host) (vend) (0)) ∧
    ((fun (s : State) (q : Sqe) (lsp : Nat) =>
      Adm s q) (host) (vend) (0)) ∧
    ((fun (s : State) (q : Sqe) (lsp : Nat) =>
      Adm s q) (host) (vend) (0)) ∧
    ((fun (s : State) (q : Sqe) (lsp : Nat) =>
      Adm s q) (host) (vend) (0)) ∧
    ((fun (s : State) (q : Sqe) (v : FeatVal) =>
      Adm s q) (host) (vend) ({ cdw11 := 5, cdw12 := 0, data := 0 })) ∧
    ((fun (s : State) (q : Sqe) (w : Nat) =>
      Adm s q ∧
      q.qid = 0) (host) (vend) (0)) ∧
    ((fun (s : State) (q : Sqe) (ps : Nat) =>
      Adm s q ∧
      ps ≤ 4) (host) (vend) (4)) ∧
    ((fun (s : State) (q : Sqe) (ps : Nat) =>
      Adm s q ∧
      ps ≤ 4) (host) (vend) (2)) ∧
    ((fun (s : State) (q : Sqe) =>
      Adm s q) (host) (vend)) := by
  refine ⟨?_, ?_, ?_, ?_, ?_, ?_, ?_, ?_, ?_, ?_⟩ <;> beta_reduce <;> (repeat' first | apply And.intro | apply Calm.mk | apply Canon.mk) <;>
    first | decide +kernel
/-- Hypotheses of `Obligations.NamespaceAdministration`. -/
theorem witness_NamespaceAdministration :
    ((fun (s : State) (q : Sqe) (us : Nat) =>
      Adm s q) (host) (vend) (200)) ∧
    ((fun (s : State) (q : Sqe) (v : Nat) =>
      Adm s q ∧
      v ≤ 1) (host) (vend) (1)) ∧
    ((fun (s : State) (q : Sqe) (d : Nat) (sv : Bool) =>
      Adm s q ∧
      1 ≤ d ∧
      d ≤ 90) (host) (vend) (90) (true)) ∧
    ((fun (s : State) (q : Sqe) =>
      Adm s q) (host) (vend)) ∧
    ((fun (s : State) (q : Sqe) =>
      Adm s q) ({ host with portA := { portUp with aerOut := List.range 16 } }) (vend)) ∧
    ((fun (s : State) (q : Sqe) (n : Nat) (lbaf : Nat) (piType : Nat) (id : Nat) (pil : Bool) (ext : Bool) =>
      AdmClean s q ∧
      n % 16 = 0 ∧
      badFormat lbaf piType = false ∧
      s.map.chip ≠ 3 ∧
      s.map.chip ≠ 4 ∧
      capacityFits s (n + hiddenLetters n lbaf) (segCount n lbaf) 0 = true ∧
      freeNsid s = some id) (roomy) (vend) (1600) (0) (0) (2) (false) (false)) ∧
    ((fun (s : State) (q : Sqe) (n : Nat) (lbaf : Nat) (piType : Nat) (id : Nat) (pil : Bool) (ext : Bool) =>
      AdmClean s q ∧
      n % 16 = 0 ∧
      badFormat lbaf piType = false ∧
      s.map.chip ≠ 3 ∧
      s.map.chip ≠ 4 ∧
      capacityFits s (n + hiddenLetters n lbaf) (segCount n lbaf) 0 = true ∧
      freeNsid s = some id) (roomy) (vend) (1600) (0) (0) (2) (false) (false)) ∧
    ((fun (s : State) (q : Sqe) (n : Ns) =>
      AdmClean s q ∧
      1 ≤ q.nsid ∧
      q.nsid ≤ 128 ∧
      nsOf s q.nsid = some n ∧
      s.map.chip ≠ 4 ∧
      formatOn s q.nsid = false ∧
      occCmds s < 16384 ∧
      occRanges s + 1 ≤ 32768) (host) (adm) (ns1)) ∧
    ((fun (s : State) (q : Sqe) (n : Ns) =>
      AdmClean s q ∧
      1 ≤ q.nsid ∧
      q.nsid ≤ 128 ∧
      nsOf s q.nsid = some n ∧
      (getPort s q.port).aerOut = []) (host) (adm) (ns1)) ∧
    ((fun (s : State) (q : Sqe) (n : Ns) =>
      AdmClean s q ∧
      1 ≤ q.nsid ∧
      q.nsid ≤ 128 ∧
      nsOf s q.nsid = some n ∧
      (getPort s q.port).aerOut = []) ({ host with map := { host.map with tab := { ns := [(1, { ns1 with attached := [.b] })] } } }) (adm) ({ ns1 with attached := [.b] })) ∧
    ((fun (s : State) (q : Sqe) (dspec : Nat) =>
      AdmClean s q ∧
      (attachedNs s q).isSome = true) (host) (adm) (0)) := by
  refine ⟨?_, ?_, ?_, ?_, ?_, ?_, ?_, ?_, ?_, ?_, ?_⟩ <;> beta_reduce <;> (repeat' first | apply And.intro | apply Calm.mk | apply Canon.mk) <;>
    first | decide +kernel
/-- Hypotheses of `Obligations.FirmwareAndFormat`. -/
theorem witness_FirmwareAndFormat :
    ((fun (s : State) (q : Sqe) (n : Nat) =>
      AdmClean s q ∧
      q.qid = 0 ∧
      (attachedNs s q).isSome = true ∧
      q.nsid ∈ (getPort s q.port).dirEn ∧
      1 ≤ n ∧
      n ≤ 16 - streamsHeld s ∧
      n < 65536) ({ host with portA := { portUp with dirEn := [1] } }) (adm) (16)) ∧
    ((fun (s : State) (q : Sqe) (numd : Nat) (ofst : Nat) (data : List Byte) =>
      AdmClean s q ∧
      4 * (ofst + numd) ≤ 16777216 ∧
      data.length = 4 * numd) (host) (vend) (2) (4194302) ([1, 2, 3, 4, 5, 6, 7, 8])) ∧
    ((fun (s : State) (q : Sqe) (numd : Nat) (ofst : Nat) (data : List Byte) =>
      AdmClean s q ∧
      4 * (ofst + numd) ≤ 16777216 ∧
      data.length = 4 * numd) (host) (vend) (2) (0) ([1, 2, 3, 4, 5, 6, 7, 8])) ∧
    ((fun (s : State) (q : Sqe) (fs : Nat) (img : List Byte) =>
      AdmClean s q ∧
      fs ≤ 2 ∧
      s.sec.commit = none ∧
      commitSlot s fs ≠ runningSlot s ∧
      bufferImage s q.port = some img ∧
      accept (ownRecord s) img ≠ 0) ({ host with sec := { host.sec with dlA := [(0, 1)], dlEndA := 1 } }) (vend) (2) ([1])) ∧
    ((fun (s : State) (q : Sqe) (n : Ns) (lbaf : Nat) (ses : Nat) (piType : Nat) (pil : Bool) (mset : Bool) (ok : Bool) =>
      AdmClean s q ∧
      1 ≤ q.nsid ∧
      q.nsid ≤ 128 ∧
      nsOf s q.nsid = some n ∧
      badFormat lbaf piType = false ∧
      ses < 3 ∧
      resizeFits s [q.nsid] lbaf = true ∧
      s.map.chip ≠ 3 ∧
      s.map.chip ≠ 4 ∧
      anyFormat s = false ∧
      occCmds s < 16384 ∧
      occRanges s + 1 ≤ 32768) (roomy) (adm) (ns1) (0) (2) (0) (false) (false) (true)) ∧
    ((fun (s : State) (q : Sqe) (ause : Bool) (ok : Bool) =>
      Sanitizes s q) (host) (vend) (false) (true)) := by
  refine ⟨?_, ?_, ?_, ?_, ?_, ?_⟩ <;> beta_reduce <;> (repeat' first | apply And.intro | apply Calm.mk | apply Canon.mk) <;>
    first | decide +kernel
/-- Hypotheses of `Obligations.SanitizeAndSecurity`. -/
theorem witness_SanitizeAndSecurity :
    ((fun (s : State) (q : Sqe) (ause : Bool) (ok : Bool) =>
      Sanitizes s q) (host) (vend) (false) (true)) ∧
    ((fun (s : State) (q : Sqe) =>
      Adm s q ∧
      sanFailed s = true ∧
      sanitizeOn s = false ∧
      anyFormat s = false) ({ host with prog := { host.prog with stage := 7 } }) (vend)) ∧
    ((fun (s : State) =>
      s.prog.stage = 4 ∧
      s.prog.pinned = false ∧
      (s.flash.ops.any fun o => o.2.sysOp) = false ∧
      s.map.chip ≠ 4 ∧
      s.prog.kind = 2) ({ host with prog := { host.prog with kind := 2, stage := 4, rounds := 2 } })) ∧
    ((fun (s : State) =>
      s.prog.stage = 4 ∧
      s.prog.pinned = false ∧
      (s.flash.ops.any fun o => o.2.sysOp) = false ∧
      s.map.chip ≠ 4 ∧
      s.prog.kind = 2) ({ host with prog := { host.prog with kind := 2, stage := 4, rounds := 2, cursor := 1 } })) ∧
    ((fun (s : State) =>
      s.prog.stage = 4) ({ host with prog := { host.prog with kind := 2, stage := 4 } })) ∧
    ((fun (s : State) (q : Sqe) =>
      AdmClean s q ∧
      s.chip.held = false) (host) (vend)) ∧
    ((fun (s : State) (q : Sqe) (r : List Byte) (l : List (List Byte)) =>
      AdmClean s q ∧
      (getPort s q.port).secRsp = r :: l) ({ host with portA := { portUp with secRsp := [[4, 0, 18]] } }) (vend) ([4, 0, 18]) ([])) ∧
    ((fun (s : State) (q : Sqe) (n : Ns) (rs : List LetterRange) =>
      Adm s q ∧
      nsOf s q.nsid = some n ∧
      rs ≠ [] ∧
      rs.length ≤ 256 ∧
      (∀ r ∈ rs, r.slba % 16 = 0 ∧ r.nlb % 16 = 0 ∧ r.nlb ≠ 0 ∧ r.slba + r.nlb ≤ n.nsze) ∧
      rangesShare rs = false ∧
      stateFault s q.nsid true = none ∧
      occCmds s < 16384 ∧
      occRanges s + rs.length ≤ 32768) (host) (adm) (ns1) ([{ slba := 0, nlb := 16 }])) ∧
    ((fun (s : State) (q : Sqe) (l : Nat) =>
      Vendor s q ∧
      l ≠ 0 ∧
      l % 16 = 0 ∧
      ncapHeld s + l ≤ commitC s ∧
      stateFault s 0 true = none ∧
      occCmds s < 16384 ∧
      occRanges s ≤ 32768) (roomy) (vend) (16)) := by
  refine ⟨?_, ?_, ?_, ?_, ?_, ?_, ?_, ?_, ?_⟩ <;> beta_reduce <;> (repeat' first | apply And.intro | apply Calm.mk | apply Canon.mk) <;>
    first | decide +kernel
/-- Hypotheses of `Obligations.VendorCommands`. -/
theorem witness_VendorCommands :
    ((fun (s : State) (q : Sqe) (sqid : Nat) (x : Sq) =>
      Vendor s q ∧
      q.qid = 0 ∧
      sqid ≠ 0 ∧
      nget (getPort s q.port).sqs sqid = some x ∧
      x.frozen = true) ({ host with portA := { portUp with sqs := [(0, { size := 16, tail := 1 }), (1, { size := 16, cqid := 1, tail := 3, head := 2, frozen := true })] } }) (vend) (1) ({ size := 16, cqid := 1, tail := 3, head := 2, frozen := true })) ∧
    ((fun (s : State) (q : Sqe) (d : SchedDesc) =>
      Vendor s q ∧
      d.sseq = 0 ∧
      d.eff = 0 ∧
      60 ≤ d.period ∧
      d.period ≤ 65535 ∧
      d.rsvd = 0 ∧
      (∀ a, a < 64 → (d.entry.getD a (0, 0)).1 + (d.entry.getD a (0, 0)).2 ≤ d.period) ∧
      ringOverlay s = false ∧
      s.ring.schedWait = none ∧
      s.clk.tb ≤ groupTime s ∧
      (getPort s q.port).aerOut = []) (host) (vend) ({ sseq := 0, eff := 0, period := 60, rsvd := 0, entry := [(0, 60)] })) ∧
    ((fun (s : State) (q : Sqe) (d : SchedDesc) =>
      Vendor s q ∧
      s.ring.sched = some d) ({ host with ring := { host.ring with sched := some { sseq := 0, eff := 0, period := 60, rsvd := 0, entry := [(0, 60)] } } }) (vend) ({ sseq := 0, eff := 0, period := 60, rsvd := 0, entry := [(0, 60)] })) ∧
    ((fun (s : State) (p : Port) (cid : Nat) (d : SchedDesc) =>
      s.ring.schedWait = some (p, cid, d) ∧
      cqReady s { port := p, qid := 0, cid, nsid := 0 } = true) ({ host with ring := { host.ring with schedWait := some (.a, 5, { sseq := 0, eff := 0, period := 60, rsvd := 0, entry := [(0, 60)] }) } }) (.a) (5) ({ sseq := 0, eff := 0, period := 60, rsvd := 0, entry := [(0, 60)] })) ∧
    ((fun (s : State) (q : Sqe) (mem : Nat) (unit : Nat) (rate : Nat) (base : Nat) (len : Nat) =>
      Vendor s q ∧
      mem < 3 ∧
      unit ≤ 8 ∧
      rate ≤ 4000 ∧
      len ≠ 0 ∧
      scrubFits s mem base len = true ∧
      s.mem.scrubCmd = none ∧
      s.mem.scrub = none) (roomy) (vend) (0) (0) (0) (0) (65536)) ∧
    ((fun (s : State) (q : Sqe) (start : Nat) (length : Nat) (found : Bool) =>
      Vendor s q) (host) (vend) (0) (1048576) (true)) ∧
    ((fun (s : State) (q : Sqe) (start : Nat) (length : Nat) (found : Bool) =>
      Vendor s q) (host) (vend) (0) (4095) (true)) ∧
    ((fun (s : State) (q : Sqe) (sid : Nat) =>
      Vendor s q ∧
      s.sec.depot = false) ({ host with sec := { host.sec with sessions := [{ sid := 3, up := true, authed := true }] } }) (vend) (3)) ∧
    ((fun (s : State) (q : Sqe) (sid : Nat) =>
      Vendor s q ∧
      s.sec.depot = false) (host) (vend) (3)) ∧
    ((fun (s : State) (q : Sqe) (sid : Nat) =>
      Vendor s q ∧
      s.sec.depot = false) (host) (vend) (3)) := by
  refine ⟨?_, ?_, ?_, ?_, ?_, ?_, ?_, ?_, ?_, ?_⟩ <;> beta_reduce <;> (repeat' first | apply And.intro | apply Calm.mk | apply Canon.mk) <;>
    first | decide +kernel
/-- Hypotheses of `Obligations.ControllerEvents`. -/
theorem witness_ControllerEvents :
    ((fun (s : State) (p : Port) (cc : CcFields) (aqa : Aqa) =>
      reachable s p = true ∧
      (getPort s p).en = false ∧
      (getPort s p).drain = none) ({ host with portA := { portUp with en := false } }) (.a) ({ ams := 1, mps := 0 }) ({ asqs := 15, acqs := 4095 })) ∧
    ((fun (s : State) (p : Port) =>
      reachable s p = true ∧
      (getPort s p).en = true ∧
      Drained s) (host) (.a)) ∧
    ((fun (s : State) (p : Port) (id : Nat) (c : Cmd) =>
      reachable s p = true ∧
      (getPort s p).en = true ∧
      s.srt.cmds = [(id, c)] ∧
      s.flash.ops = [] ∧
      c.q.port = p ∧
      isWrite c.body = true ∧
      c.dataIn = false ∧
      c.pins = [] ∧
      s.map.opens = [] ∧
      s.map.pgs = []) (withCmds host [(3, wcmd)]) (.a) (3) (wcmd)) ∧
    ((fun (s : State) (p : Port) =>
      reachable s p = true ∧
      (getPort s p).en = true ∧
      (getPort s p).drain = none ∧
      (getPort s p).shst ≠ 2) (host) (.a)) ∧
    ((fun (s : State) (p : Port) =>
      reachable s p = true ∧
      (getPort s p).en = true ∧
      (getPort s p).drain = none ∧
      (getPort s p).shst ≠ 2) (withCmds host [(3, wcmd)]) (.a)) ∧
    ((fun (s : State) (p : Port) =>
      reachable s p = true ∧
      (getPort s p).en = true ∧
      (getPort s p).drain = none ∧
      (getPort s p).shst ≠ 2 ∧
      Drained s) (host) (.a)) ∧
    ((fun (s : State) (p : Port) =>
      portPresent s p = true ∧
      (getPort s p).linkUp = true ∧
      s.chip.held = false ∧
      Drained s) (host) (.a)) ∧
    ((fun (s : State) (p : Port) (perst : Bool) =>
      portPresent s p = true ∧
      (getPort s p).linkUp = true ∧
      (getPort s p).perst = false ∧
      s.chip.held = false ∧
      Drained s) (host) (.a) (true)) ∧
    ((fun (s : State) (p : Port) (perst : Bool) =>
      portPresent s p = true ∧
      (getPort s p).linkUp = true ∧
      (getPort s p).perst = false ∧
      s.chip.held = false ∧
      Drained s) (host) (.a) (false)) ∧
    ((fun (s : State) (p : Port) =>
      portPresent s p = true ∧
      (getPort s p).linkUp = true ∧
      s.chip.held = false ∧
      Drained s) (host) (.a)) ∧
    ((fun (s : State) (p : Port) (rate : Nat) (width : Nat) (flit : Bool) =>
      portPresent s p = true ∧
      (getPort s p).perst = false ∧
      (getPort s p).linkUp = false ∧
      (getPort s p).trainEn = true ∧
      s.chip.held = false ∧
      active s (portBlk p) = true ∧
      1 ≤ rate ∧
      rate ≤ rdField s (hfe p 0x14) 2 0 ∧
      (width = 1 ∨ width = 2 ∨ width = 4 ∨ (width = 8 ∧ hostX8 s = true))) ({ wr (on host .hfeA) (hfe .a 0x14) 6 with portA := { portUp with linkUp := false } }) (.a) (1) (4) (false)) ∧
    ((fun (s : State) (p : Port) (k : DrainKind) =>
      (getPort s p).drain = some k ∧
      drainLeft s p = 0) ({ host with portA := { portUp with drain := some .flr } }) (.a) (.flr)) ∧
    ((fun (s : State) (p : Port) (k : DrainKind) =>
      (getPort s p).drain = some k ∧
      drainLeft s p = 0) ({ host with portA := { portUp with drain := some .shutdown } }) (.a) (.shutdown)) := by
  refine ⟨?_, ?_, ?_, ?_, ?_, ?_, ?_, ?_, ?_, ?_, ?_, ?_, ?_⟩ <;> beta_reduce <;> (repeat' first | apply And.intro | apply Calm.mk | apply Canon.mk) <;>
    first | decide +kernel
/-- Hypotheses of `Obligations.LinkAndMessageEvents`. -/
theorem witness_LinkAndMessageEvents :
    ((fun (s : State) (p : Port) (us : Nat) =>
      portPresent s p = true ∧
      (getPort s p).linkUp = true ∧
      s.chip.held = false ∧
      (getPort s p).ltrAt = none ∧
      us ≠ (getPort s p).ltrSent) (host) (.a) (70000)) ∧
    ((fun (s : State) (p : Port) =>
      portPresent s p = true ∧
      (getPort s p).perst = true) ({ host with portA := { portUp with perst := true } }) (.a)) ∧
    ((fun (s : State) (p : Port) (w : CfgReq) =>
      portPresent s p = true ∧
      (getPort s p).linkUp = true ∧
      s.chip.held = false ∧
      (getPort s p).cfgReady = false) ({ host with portA := { portUp with cfgReady := false } }) (.a) (.read 16)) ∧
    ((fun (s : State) (p : Port) =>
      portPresent s p = true ∧
      (getPort s p).linkUp = true ∧
      s.chip.held = false ∧
      (getPort s p).cfgReady = true) ({ host with portA := { portUp with cfgSpace := [(0, 7)] } }) (.a)) ∧
    ((fun (s : State) (p : Port) (v : Nat) (mask : Bool) (addr : Nat) (data : Nat) =>
      portPresent s p = true ∧
      (getPort s p).d3hot = false ∧
      v < 130) ({ host with portA := { portUp with msix := [(129, { pba := true })] } }) (.a) (129) (false) (64) (5)) ∧
    ((fun (s : State) (p : Port) (v : Nat) =>
      0 < ngetD (getPort s p).coal v 0 ∧
      (ngetD (getPort s p).msix v {}).mask = false ∧
      msixOn (getPort s p) = true ∧
      msixFnMask (getPort s p) = false) ({ host with portA := { portUp with coal := [(3, 2)], cfgSpace := [(0x04, 4), (0x50, 2 ^ 31)], msix := [(3, { mask := false, addr := 64, data := 5 })] } }) (.a) (3)) ∧
    ((fun (s : State) (p : Port) =>
      portPresent s p = true ∧
      s.chip.held = false) (host) (.b)) ∧
    ((fun (s : State) (p : Port) =>
      portPresent s p = true ∧
      s.chip.held = false) (host) (.a)) ∧
    ((fun (s : State) (p : Port) (id : Nat) (c : Cmd) =>
      portPresent s p = true ∧
      s.chip.held = false ∧
      s.srt.cmds = [(id, c)] ∧
      c.q.port = p ∧
      isReading c.body = true ∧
      c.status = none ∧
      c.mute = false ∧
      c.pins = [] ∧
      cqReady s c.q = true ∧
      (∀ x, sqOf s c.q = some x → x.failStop = false ∧ x.deleting = none)) (withCmds host [(3, rcmd)]) (.a) (3) (rcmd)) ∧
    ((fun (s : State) (p : Port) (b : Nat) =>
      portPresent s p = true ∧
      (getPort s p).linkUp = true ∧
      s.chip.held = false ∧
      (getPort s p).cfgReady = true ∧
      b < 256 ∧
      cfgDword (getPort s p) 0x18 = b * 2 ^ 24 + 4) ({ host with portA := { portUp with cfgSpace := [(0x18, 0x12000004)] } }) (.a) (0x12)) ∧
    ((fun (s : State) (p : Port) (cqid : Nat) (thr : Nat) (q : Cq) =>
      q.ien = true ∧
      coalThr (getPort s p) cqid q.vector = some thr) ({ host with portA := { portUp with feat := [(8, 0x0502)], cfgSpace := [(0x04, 4), (0x50, 2 ^ 31)], coal := [(3, 1)] } }) (.a) (1) (2) ({ size := 16, vector := 3, ien := true })) ∧
    ((fun (s : State) (p : Port) (cqid : Nat) (thr : Nat) (q : Cq) =>
      q.ien = true ∧
      coalThr (getPort s p) cqid q.vector = some thr) ({ host with portA := { portUp with feat := [(8, 0x0502)], cfgSpace := [(0x04, 4), (0x50, 2 ^ 31)], coal := [(3, 2)] } }) (.a) (1) (2) ({ size := 16, vector := 3, ien := true })) := by
  refine ⟨?_, ?_, ?_, ?_, ?_, ?_, ?_, ?_, ?_, ?_, ?_, ?_⟩ <;> beta_reduce <;> (repeat' first | apply And.intro | apply Calm.mk | apply Canon.mk) <;>
    first | decide +kernel
/-- Hypotheses of `Obligations.CacheEvents`. -/
theorem witness_CacheEvents :
    ((fun (s : State) (line : Nat) (seg : Nat) (w : Nat) (data : BitVec 512) (r : UnitRead) (q : LineReq) (f : PhcFill) =>
      s.phc.st = 2 ∧
      s.phc.fills = [f] ∧
      f.line = line ∧
      f.waiting = [q] ∧
      q.write = false ∧
      q.line = line ∧
      s.phc.held = [] ∧
      effective s line r = .clean ∧
      findWay s line = none ∧
      s.phc.evict.length < 16 ∧
      w < phcWays s ∧
      wayOk s w = true ∧
      nget s.phc.lines (slotKey (phcSet s line) w) = none) ({ up with phc := { up.phc with st := 2, fills := [⟨5, [{ line := 5, write := false, mask := 0, bytes := 0 }]⟩] }, mem := { up.mem with wrote := [5] } }) (5) (0) (1) (9) ({ }) ({ line := 5, write := false, mask := 0, bytes := 0 }) (⟨5, [{ line := 5, write := false, mask := 0, bytes := 0 }]⟩)) ∧
    ((fun (s : State) (line : Nat) (seg : Nat) (data : BitVec 512) (r : UnitRead) (f : PhcFill) =>
      s.phc.st = 2 ∧
      s.phc.fills = [f] ∧
      f.line = line ∧
      s.phc.held = [] ∧
      effective s line r = .ue ∧
      s.phc.evict.length < 16) ({ up with phc := { up.phc with st := 2, fills := [⟨5, [{ line := 5, write := false, mask := 0, bytes := 0 }]⟩] }, mem := { up.mem with granules := [(0, 1)] } }) (5) (0) (9) ({ err := 0x0000000100000001 }) (⟨5, [{ line := 5, write := false, mask := 0, bytes := 0 }]⟩)) ∧
    ((fun (s : State) (line : Nat) (e : PhcEvict) =>
      memWf 0 s.dram = true ∧
      (s.phc.evict.find? fun x => x.line == line) = some e ∧
      e.touched = false ∧
      e.redirty = false) ({ up with phc := { up.phc with st := 2, evict := [{ line := 5, wb := 0x901, data := 0x901 }] } }) (5) ({ line := 5, wb := 0x901, data := 0x901 })) ∧
    ((fun (s : State) =>
      1048576 ≤ s.phc.accesses) (wr ({ up with phc := { up.phc with st := 2, accesses := 1048576 } }) (Reg.phcWayErr 3) 77)) ∧
    ((fun (s : State) (way : Nat) (set : Nat) =>
      s.phc.disabling = some (way, set) ∧
      way < 16 ∧
      s.chip.held = false) ({ up with phc := { up.phc with st := 2, disabling := some (1, 0), lines := [(1, { line := 5, dirty := true, data := 9 }), (2, { line := 6, dirty := false, data := 9 })] } }) (1) (0)) ∧
    ((fun (s : State) =>
      s.phc.st = 1 ∧
      s.phc.held = [] ∧
      s.phc.drainPs4 = false) (on { up with phc := { up.phc with st := 1, lines := [(1, { line := 5, dirty := true, data := 9 })] } } .phc)) ∧
    ((fun (s : State) (k : Nat) (x : PhcLine) =>
      s.phc.st = 3 ∧
      s.phc.lines = [(k, x)] ∧
      x.dirty = true ∧
      s.phc.evict = [] ∧
      memWf 0 s.dram = true ∧
      s.pwr.transit = false ∧
      s.chip.held = false) ({ up with phc := { up.phc with st := 3, lines := [(1, { line := 5, dirty := true, data := 0x901 })] } }) (1) ({ line := 5, dirty := true, data := 0x901 })) ∧
    ((fun (s : State) (i : Initiator) (v : Word) =>
      RangeReady s i) (wr ({ up with phc := { up.phc with st := 2 } }) Reg.phcRngLen 64) (.sc0) (0)) := by
  refine ⟨?_, ?_, ?_, ?_, ?_, ?_, ?_, ?_⟩ <;> beta_reduce <;> (repeat' first | apply And.intro | apply Calm.mk | apply Canon.mk) <;>
    first | decide +kernel | exact effective_of (by decide +kernel) (by decide +kernel)
/-- Hypotheses of `Obligations.CacheOperations`. -/
theorem witness_CacheOperations :
    ((fun (s : State) (i : Initiator) (v : Word) =>
      RangeReady s i) (wr ({ up with phc := { up.phc with st := 2 } }) Reg.phcRngLen 64) (.sc0) (0)) ∧
    ((fun (s : State) (i : Initiator) (v : Word) =>
      RangeReady s i) (wr ({ up with phc := { up.phc with st := 2 } }) Reg.phcRngLen 64) (.sc0) (0)) ∧
    ((fun (s : State) (r : PhcRange) (w : Nat) (x : PhcLine) =>
      s.phc.rng = some r ∧
      r.seen = [] ∧
      r.wb = 0 ∧
      r.inv = 0 ∧
      s.phc.evict = [] ∧
      w < phcWays s ∧
      s.phc.lines = [(slotKey (phcSet s x.line) w, x)] ∧
      r.lo ≤ x.line ∧
      x.line < r.hi ∧
      x.dirty = true ∧
      memWf 0 s.dram = true ∧
      s.chip.held = false) ({ up with phc := { up.phc with st := 2, rng := some { lo := 5, hi := 6, op := 1 }, lines := [(slotKey (phcSet up 5) 1, { line := 5, dirty := true, data := 0x901 })] } }) ({ lo := 5, hi := 6, op := 1 }) (1) ({ line := 5, dirty := true, data := 0x901 })) ∧
    ((fun (s : State) (r : PhcRange) (w : Nat) (x : PhcLine) =>
      s.phc.rng = some r ∧
      r.seen = [] ∧
      r.wb = 0 ∧
      r.inv = 0 ∧
      s.phc.evict = [] ∧
      w < phcWays s ∧
      s.phc.lines = [(slotKey (phcSet s x.line) w, x)] ∧
      r.lo ≤ x.line ∧
      x.line < r.hi ∧
      x.dirty = true ∧
      memWf 0 s.dram = true ∧
      s.chip.held = false) ({ up with phc := { up.phc with st := 2, rng := some { lo := 5, hi := 6, op := 2 }, lines := [(slotKey (phcSet up 5) 1, { line := 5, dirty := true, data := 0x901 })] } }) ({ lo := 5, hi := 6, op := 2 }) (1) ({ line := 5, dirty := true, data := 0x901 })) ∧
    ((fun (s : State) (r : PhcRange) (w : Nat) (x : PhcLine) =>
      s.phc.rng = some r ∧
      r.seen = [] ∧
      r.wb = 0 ∧
      r.inv = 0 ∧
      s.phc.evict = [] ∧
      w < phcWays s ∧
      s.phc.lines = [(slotKey (phcSet s x.line) w, x)] ∧
      r.lo ≤ x.line ∧
      x.line < r.hi ∧
      x.dirty = true ∧
      memWf 0 s.dram = true ∧
      s.chip.held = false) ({ up with phc := { up.phc with st := 2, rng := some { lo := 5, hi := 6, op := 3 }, lines := [(slotKey (phcSet up 5) 1, { line := 5, dirty := true, data := 0x901 })] } }) ({ lo := 5, hi := 6, op := 3 }) (1) ({ line := 5, dirty := true, data := 0x901 })) ∧
    ((fun (s : State) (i : Initiator) (way : Nat) (set : Nat) (x : PhcLine) =>
      SwopReady s i way set x) ({ up with phc := { up.phc with st := 2, lines := [(1, { line := 5, dirty := true, data := 0x901 })] } }) (.sc0) (1) (0) ({ line := 5, dirty := true, data := 0x901 })) ∧
    ((fun (s : State) (i : Initiator) (way : Nat) (set : Nat) (x : PhcLine) =>
      SwopReady s i way set x) ({ up with phc := { up.phc with st := 2, lines := [(1, { line := 5, dirty := true, data := 0x901 })] } }) (.sc0) (1) (0) ({ line := 5, dirty := true, data := 0x901 })) ∧
    ((fun (s : State) (i : Initiator) (way : Nat) (set : Nat) (x : PhcLine) =>
      SwopReady s i way set x) ({ up with phc := { up.phc with st := 2, lines := [(1, { line := 5, dirty := true, data := 0x901 })] } }) (.sc0) (1) (0) ({ line := 5, dirty := true, data := 0x901 })) ∧
    ((fun (s : State) (r : LineReq) =>
      s.phc.fills.length ≤ 64) ({ up with phc := { up.phc with st := 2, fills := (List.range 64).map fun k => ⟨100 + k, []⟩ } }) ({ line := 5, write := false, mask := BitVec.allOnes 64, bytes := 0 })) ∧
    ((fun (s : State) (r : LineReq) =>
      s.phc.st = 3 ∧
      findWay s r.line = none) ({ up with phc := { up.phc with st := 3, evict := [{ line := 5, wb := 0x901, data := 0x901 }] } }) ({ line := 5, write := false, mask := BitVec.allOnes 64, bytes := 0 })) ∧
    ((fun (s : State) (r : LineReq) =>
      s.phc.st = 3 ∧
      findWay s r.line = none) ({ up with phc := { up.phc with st := 3 } }) ({ line := 5, write := false, mask := BitVec.allOnes 64, bytes := 0 })) := by
  refine ⟨?_, ?_, ?_, ?_, ?_, ?_, ?_, ?_, ?_, ?_, ?_⟩ <;> beta_reduce <;> (repeat' first | apply And.intro | apply Calm.mk | apply Canon.mk) <;>
    first | decide +kernel
/-- Hypotheses of `Obligations.MapTimersAndJobs`. -/
theorem witness_MapTimersAndJobs :
    ((fun (s : State) (k : Nat) (id : Nat) (g : Pg) =>
      nget s.map.packs k = some id ∧
      nget s.map.pgs id = some g ∧
      nsorted none s.map.packs = true ∧
      s.map.opens = [] ∧
      s.flash.ops = [] ∧
      active s .str = false) ({ up with map := { up.map with packs := [(0, 4)], pgs := [(4, { k := 0, slots := [(0, 77)], used := 1 })] } }) (0) (4) ({ k := 0, slots := [(0, 77)], used := 1 })) ∧
    ((fun (s : State) (w : Waiter) (r : List Waiter) (id : Nat) =>
      s.map.waiters = w :: r ∧
      w.h = .reloc id ∧
      nget s.map.relocs id = none ∧
      0 < bundlesFree s) ({ (wr up 0x30010 100) with map := { (wr up 0x30010 100).map with waiters := [{ h := .reloc 9, nsid := 1, parcel := 2, dealloc := false }] } }) ({ h := .reloc 9, nsid := 1, parcel := 2, dealloc := false }) ([]) (9)) ∧
    ((fun (s : State) (w : Waiter) (r : List Waiter) =>
      s.map.waiters = w :: r ∧
      bundlesFree s = 0) ({ (wr up 0x30010 0) with map := { (wr up 0x30010 0).map with waiters := [{ h := .reloc 9, nsid := 1, parcel := 2, dealloc := false }] } }) ({ h := .reloc 9, nsid := 1, parcel := 2, dealloc := false }) ([])) ∧
    ((fun (s : State) (id : Nat) (c : Cmd) (n : Ns) (w : Waiter) (ls : List Nat) =>
      s.srt.cmds = [(id, c)] ∧
      c.released = true ∧
      c.dataIn = true ∧
      c.status = none ∧
      deallocates c.body = true ∧
      nsOf s c.q.nsid = some n ∧
      s.jrc.applyQ = [] ∧
      s.jrc.batches = [] ∧
      running s .map = true ∧
      Untouched s ∧
      s.map.waiters = [w] ∧
      w.h = .cmd id ∧
      w.dealloc = true ∧
      c.wants = [[.clear w.nsid w.parcel ls]] ∧
      rmwReads s c { nsid := w.nsid, parcel := w.parcel, own := some ls } ≠ []) (withCmds { striped with map := { striped.map with waiters := [{ h := .cmd 3, nsid := 1, parcel := 0, dealloc := true }], tab := { striped.map.tab with ns := [(1, { ns1 with parcels := [(0, .ptr (2 ^ 31 + 5 * 65536 + 16))] })] } } } [(3, { body := .datasetManagement io [{ slba := 1, nlb := 1 }] true, q := io, modif := true, ranges := [(1, 1, 1)], entries := 2, released := true, dataIn := true, wants := [[.clear 1 0 [1]]] })]) (3) ({ body := .datasetManagement io [{ slba := 1, nlb := 1 }] true, q := io, modif := true, ranges := [(1, 1, 1)], entries := 2, released := true, dataIn := true, wants := [[.clear 1 0 [1]]] }) ({ ns1 with parcels := [(0, .ptr (2 ^ 31 + 5 * 65536 + 16))] }) ({ h := .cmd 3, nsid := 1, parcel := 0, dealloc := true }) ([1])) ∧
    ((fun (s : State) =>
      active s .map = true) ({ host with map := { host.map with tab := { ns := [(1, ns1)], bundles := [(0, { nsid := 1, parcel := 0, heat := 7, ents := List.replicate 16 .gone })] } } })) ∧
    ((fun (s : State) =>
      s.chip.held = false) (host)) ∧
    ((fun (s : State) =>
      s.chip.held = false) (up)) ∧
    ((fun (s : State) (i : Initiator) (v : Word) =>
      coreAccess s i .map 0 = true ∧
      s.map.scanning = false) (host) (.sc1) (1)) ∧
    ((fun (s : State) (x : Nat) (b : Sb) =>
      s.map.scanning = true ∧
      s.map.tab.sbs = [(x, b)] ∧
      b.st = 2 ∧
      b.system = false ∧
      b.job = false ∧
      b.vcount * 256 ≤ rdField s 0x300A0 7 0 * b.cap ∧
      s.map.recount.contains x = false ∧
      victimScore s b < 2 ^ 32 ∧
      b.sbid < 2 ^ 32) ({ wr striped 0x300A0 200 with map := { striped.map with scanning := true } }) (3) (sb4)) ∧
    ((fun (s : State) (i : Initiator) (head : Nat) (x : Nat) (j : JobReq) (b : Sb) =>
      coreAccess s i .map 0 = true ∧
      s.map.jobs = [] ∧
      jobsRunning s < 4 ∧
      head = (rdField s 0x300F8 7 0 + 1) % 256 ∧
      sbxBySbid s j.sbid = some x ∧
      nget s.map.tab.sbs x = some b ∧
      b.st = 2 ∧
      Still s ∧
      s.map.pinHold = [] ∧
      NoneRetired s ∧
      j.op = 1 ∧
      j.rsvd = 0 ∧
      16 ≤ j.stream ∧
      j.stream ≤ 21) (striped) (.sc1) (1) (3) ({ sbid := 8, op := 1, stream := 16, member := 0, first := 0, last := 0, rsvd := 0 }) (sb4)) ∧
    ((fun (s : State) (i : Initiator) (head : Nat) (j : JobReq) =>
      coreAccess s i .map 0 = true ∧
      s.map.jobs = [] ∧
      jobsRunning s < 4 ∧
      head = (rdField s 0x300F8 7 0 + 1) % 256 ∧
      sbxBySbid s j.sbid = none ∧
      Still s ∧
      s.map.pinHold = [] ∧
      NoneRetired s) (striped) (.sc1) (1) ({ sbid := 9, op := 1, stream := 16, member := 0, first := 0, last := 0, rsvd := 0 })) := by
  refine ⟨?_, ?_, ?_, ?_, ?_, ?_, ?_, ?_, ?_, ?_, ?_⟩ <;> beta_reduce <;> (repeat' first | apply And.intro | apply Calm.mk | apply Canon.mk) <;>
    first | decide +kernel | (unfold MapSound; decide +kernel)
/-- Hypotheses of `Obligations.ErasesAndRetirement`. -/
theorem witness_ErasesAndRetirement :
    ((fun (s : State) (idx : Nat) (id : Nat) (r : Reloc) (b : Sb) =>
      s.map.relocs = [(id, r)] ∧
      r.idx = some idx ∧
      r.groups = 0 ∧
      relocIdle r = true ∧
      r.aborted = false ∧
      r.op = 2 ∧
      r.stream ≠ 20 ∧
      s.map.jobs = [] ∧
      (∀ e ∈ s.map.tab.sbs, e.2.st ≠ 3) ∧
      nget s.map.tab.sbs r.sbx = some b) ({ striped with map := { striped.map with relocs := [(9, { idx := some 0, sbx := 3, op := 2, stream := 16 })] } }) (0) (9) ({ idx := some 0, sbx := 3, op := 2, stream := 16 }) (sb4)) ∧
    ((fun (s : State) (i : Initiator) (v : Word) (id : Nat) (r : Reloc) =>
      coreAccess s i .map 0 = true ∧
      s.map.relocs = [(id, r)] ∧
      r.idx.isSome = true) ({ striped with map := { striped.map with relocs := [(9, { idx := some 0, sbx := 3, op := 2, stream := 16 })] } }) (.sc1) (1) (9) ({ idx := some 0, sbx := 3, op := 2, stream := 16 })) ∧
    ((fun (s : State) (id : Nat) (o : FOp) =>
      Calm s ∧
      s.flash.ops = [(id, o)] ∧
      o.kind = .erase ∧
      o.st = .running ∧
      o.sysOp = false ∧
      memberAt s o.lun o.block = none ∧
      (courier s (lunChn o.lun)).training = none) ({ striped with flash := { striped.flash with media := [(9 * 65536 + 3, 5)], ops := [(2, { kind := .erase, lun := 0, block := 9, cls := 4, st := .running })] } }) (2) ({ kind := .erase, lun := 0, block := 9, cls := 4, st := .running })) ∧
    ((fun (s : State) (id : Nat) (o : FOp) =>
      s.flash.ops = [(id, o)] ∧
      o.kind = .erase ∧
      o.st = .running ∧
      o.again = false ∧
      (courier s (lunChn o.lun)).training = none) ({ striped with flash := { striped.flash with ops := [(2, { kind := .erase, lun := 0, block := 9, cls := 4, st := .running })] } }) (2) ({ kind := .erase, lun := 0, block := 9, cls := 4, st := .running })) ∧
    ((fun (s : State) (p : Nat) (x : Nat) (rest : List Nat) =>
      s.map.refresh = p :: rest ∧
      sbxOf s.map.tab p = some x ∧
      Still s ∧
      s.map.pinHold = [] ∧
      NoneRetired s) ({ striped with map := { striped.map with refresh := [2 ^ 31 + 5 * 65536] } }) (2 ^ 31 + 5 * 65536) (3) ([])) ∧
    ((fun (s : State) (i : Initiator) (c : Fin 32) (pos : Fin 32) =>
      RetireReady s i (rLunRet c) ∧
      bitOf (rd s (rLunRet c)) pos = false ∧
      inGeometry s c pos = true ∧
      s.flash.die.blocks ≤ 16384) (striped) (.sc1) (2) (0)) ∧
    ((fun (s : State) (i : Initiator) (c : Fin 32) =>
      RetireReady s i 0x30110 ∧
      bitOf (rd s 0x30110) c = false) (striped) (.sc1) (2)) ∧
    ((fun (s : State) (c : Fin 32) =>
      (∃ b, (c.val, none, b) ∈ s.map.retiring) ∧
      NoDeadOn s c ∧
      sweepLeft s c = false) ({ striped with map := { striped.map with retiring := [(2, none, 5)] } }) (2)) ∧
    ((fun (s : State) (c : Fin 32) =>
      sweepLeft s c = true ∧
      c.val ∉ s.chip.chnGone) ({ striped with jrc := { striped.jrc with reqs := [{ owner := .sweep 2, wants := [] }] } }) (2)) ∧
    ((fun (s : State) (x : Nat) (b : Sb) =>
      s.chip.starting = false ∧
      s.prog.stage ≠ 3 ∧
      s.map.recount = [x] ∧
      s.map.tab.sbs = [(x, b)] ∧
      b.st = 2 ∧
      b.system = false ∧
      x ∉ liveSbs s.map.tab ∧
      s.map.relocs = []) ({ striped with map := { striped.map with recount := [3] } }) (3) (sb4)) := by
  refine ⟨?_, ?_, ?_, ?_, ?_, ?_, ?_, ?_, ?_, ?_⟩ <;> beta_reduce <;> (repeat' first | apply And.intro | apply Calm.mk | apply Canon.mk) <;>
    first | decide +kernel | exact ⟨5, by decide +kernel⟩ | exact fun n hn e he => absurd he (by rw [List.mem_singleton.mp hn]; exact List.not_mem_nil)
/-- Hypotheses of `Obligations.ReadsAndRebuilds`. -/
theorem witness_ReadsAndRebuilds :
    ((fun (s : State) (id : Nat) (slot : Nat) (cid : Nat) (o : FOp) (x : CodewordRead) (p : Payload) (c : Cmd) =>
      s.flash.ops = [(id, o)] ∧
      o.kind = .read ∧
      o.st = .running ∧
      o.cws = [(slot, [.cmd cid])] ∧
      s.map.opens = [] ∧
      s.map.pgs = [] ∧
      s.map.pinHold = [] ∧
      bit32 s (rLunFlt (lunChn o.lun)) (lunPos o.lun) = false ∧
      lunRetired s (lunChn o.lun) (lunPos o.lun) = false ∧
      x.slot = slot ∧
      x.decoded = true ∧
      slotPayload s (ppaOf o.lun o.block o.page 0 + slot) = some p ∧
      identOk s [.cmd cid] (ppaOf o.lun o.block o.page 0 + slot) p = true ∧
      WaitsFor s cid (ppaOf o.lun o.block o.page 0 + slot) c ∧
      (courier s (lunChn o.lun)).training = none) (withCmds { striped with flash := { striped.flash with media := [(2 ^ 31 + 5 * 65536 + 20, whiten (2 ^ 31 + 5 * 65536 + 20) (codeword filler))], ops := [(2, { kind := .read, lun := 2, block := 5, page := 1, cls := 1, st := .running, cws := [(4, [.cmd 3])] })] } } [(3, { rcmd with pend := [2 ^ 31 + 5 * 65536 + 20, 99], released := true })]) (2) (4) (3) ({ kind := .read, lun := 2, block := 5, page := 1, cls := 1, st := .running, cws := [(4, [.cmd 3])] }) ({ slot := 4, decoded := true, corrected := 3, stats := { rawOnes := 0, corrOnes := 0, weight := 0 } }) (filler) ({ rcmd with pend := [2 ^ 31 + 5 * 65536 + 20, 99], released := true })) ∧
    ((fun (s : State) (id : Nat) (slot : Nat) (cid : Nat) (o : FOp) (x : CodewordRead) =>
      s.flash.ops = [(id, o)] ∧
      o.kind = .read ∧
      o.st = .running ∧
      o.cws = [(slot, [.cmd cid])] ∧
      s.map.opens = [] ∧
      s.map.pgs = [] ∧
      s.map.pinHold = [] ∧
      s.flash.lads = [] ∧
      bit32 s (rLunFlt (lunChn o.lun)) (lunPos o.lun) = false ∧
      lunRetired s (lunChn o.lun) (lunPos o.lun) = false ∧
      x.slot = slot ∧
      x.decoded = false ∧
      (courier s (lunChn o.lun)).training = none) (withCmds { striped with flash := { striped.flash with media := [(2 ^ 31 + 5 * 65536 + 20, whiten (2 ^ 31 + 5 * 65536 + 20) (codeword filler))], ops := [(2, { kind := .read, lun := 2, block := 5, page := 1, cls := 1, st := .running, cws := [(4, [.cmd 3])] })] } } [(3, { rcmd with pend := [2 ^ 31 + 5 * 65536 + 20, 99], released := true })]) (2) (4) (3) ({ kind := .read, lun := 2, block := 5, page := 1, cls := 1, st := .running, cws := [(4, [.cmd 3])] }) ({ slot := 4, decoded := false, corrected := 0, stats := { rawOnes := 0, corrOnes := 0, weight := 0 } })) ∧
    ((fun (s : State) (id : Nat) (n : Nat) (l : Ladder) =>
      s.flash.lads = [(id, l)] ∧
      l.step = 3 ∧
      l.dec = true ∧
      s.map.opens = [] ∧
      s.map.pgs = [] ∧
      s.map.pinHold = [] ∧
      NoneRetired s) ({ striped with flash := { striped.flash with lads := [(1, { ppa := 5, step := 3, reqs := [], dec := true })] } }) (1) (7) ({ ppa := 5, step := 3, reqs := [], dec := true })) ∧
    ((fun (s : State) (id : Nat) (n : Nat) (cid : Nat) (l : Ladder) (p : Payload) (c : Cmd) =>
      s.flash.lads = [(id, l)] ∧
      l.step = 3 ∧
      l.dec = true ∧
      slotPayload s l.ppa = some p ∧
      l.reqs = [.cmd cid] ∧
      identOk s l.reqs l.ppa p = true ∧
      WaitsFor s cid l.ppa c ∧
      NoneRetired s) (withCmds { striped with flash := { striped.flash with media := [(2 ^ 31 + 5 * 65536 + 20, whiten (2 ^ 31 + 5 * 65536 + 20) (codeword filler))], lads := [(1, { ppa := 2 ^ 31 + 5 * 65536 + 20, step := 3, reqs := [.cmd 3], dec := true })] } } [(3, { rcmd with pend := [2 ^ 31 + 5 * 65536 + 20, 99], released := true })]) (1) (7) (3) ({ ppa := 2 ^ 31 + 5 * 65536 + 20, step := 3, reqs := [.cmd 3], dec := true }) (filler) ({ rcmd with pend := [2 ^ 31 + 5 * 65536 + 20, 99], released := true })) ∧
    ((fun (s : State) (id : Nat) (n : Nat) (d : Bool) (l : Ladder) =>
      nget s.flash.lads id = some l ∧
      l.dec = false) ({ striped with flash := { striped.flash with lads := [(1, { ppa := 5, step := 3, reqs := [] })] } }) (1) (7) (true) ({ ppa := 5, step := 3, reqs := [] })) ∧
    ((fun (s : State) (id : Nat) (cid : Nat) (l : Ladder) (r : Rebuild) (b : Sb) (p : Payload) (c : Cmd) =>
      s.flash.lads = [(id, l)] ∧
      l.step = 5 ∧
      l.rb = some r ∧
      r.pend = [] ∧
      r.erased = [] ∧
      nget s.map.tab.sbs r.sbx = some b ∧
      solve s b r (l.ppa % 16) = .inl p ∧
      b.isParity r.target = false ∧
      l.reqs = [.cmd cid] ∧
      identOk s l.reqs l.ppa p = true ∧
      WaitsFor s cid l.ppa c ∧
      NoneRetired s) (withCmds { striped with flash := { striped.flash with lads := [(1, { ppa := 2 ^ 31 + 5 * 65536 + 20, step := 5, reqs := [.cmd 3], rb := some { sbx := 3, row := 1, target := 2, pend := [], erased := [] } })] }, map := { striped.map with opens := [(0, { sbx := 3, accP := [(4, filler)] })], tab := { striped.map.tab with sbs := [(3, { sb4 with nextRow := 1 })] } } } [(3, { rcmd with pend := [2 ^ 31 + 5 * 65536 + 20, 99], released := true })]) (1) (3) ({ ppa := 2 ^ 31 + 5 * 65536 + 20, step := 5, reqs := [.cmd 3], rb := some { sbx := 3, row := 1, target := 2, pend := [], erased := [] } }) ({ sbx := 3, row := 1, target := 2, pend := [], erased := [] }) ({ sb4 with nextRow := 1 }) (filler) ({ rcmd with pend := [2 ^ 31 + 5 * 65536 + 20, 99], released := true })) ∧
    ((fun (s : State) (id : Nat) (k : Nat) (l : Ladder) (r : Rebuild) (b : Sb) =>
      nget s.flash.lads id = some l ∧
      l.step = 5 ∧
      l.rb = some r ∧
      r.pend = [] ∧
      nget s.map.tab.sbs r.sbx = some b ∧
      solve s b r (l.ppa % 16) = .inr k ∧
      b.isParity r.target = false) ({ striped with flash := { striped.flash with lads := [(1, { ppa := 2 ^ 31 + 5 * 65536 + 20, step := 5, reqs := [], rb := some { sbx := 3, row := 1, target := 2, pend := [], erased := [3, 1] } })] } }) (1) (1) ({ ppa := 2 ^ 31 + 5 * 65536 + 20, step := 5, reqs := [], rb := some { sbx := 3, row := 1, target := 2, pend := [], erased := [3, 1] } }) ({ sbx := 3, row := 1, target := 2, pend := [], erased := [3, 1] }) (sb4)) ∧
    ((fun (s : State) (id : Nat) (l : Ladder) =>
      s.flash.lads = [(id, l)] ∧
      l.step = 7 ∧
      dlqFull s = false ∧
      l.reqs = [] ∧
      s.flash.ops = []) ({ (wr striped (str 0x28) 62) with flash := { (wr striped (str 0x28) 62).flash with lads := [(1, { ppa := 5, step := 7, reqs := [], cause := 1 })] } }) (1) ({ ppa := 5, step := 7, reqs := [], cause := 1 })) ∧
    ((fun (s : State) (i : Initiator) (v : Word) =>
      coreAccess s i .str 0 = true ∧
      Still s) (striped) (.sc0) (63)) ∧
    ((fun (s : State) (id : Nat) (g : Nat) (x : Nat) (r : Nat) (m : Nat) (o : FOp) (pg : Pg) (b : Sb) =>
      s.flash.ops = [(id, o)] ∧
      o.kind = .program ∧
      o.st = .running ∧
      o.pg = some g ∧
      s.map.pgs = [(g, pg)] ∧
      pg.place = some (x, r, m) ∧
      nget s.map.tab.sbs x = some b ∧
      s.map.opens = [] ∧
      s.srt.cmds = [] ∧
      s.map.relocs = [] ∧
      s.map.pinHold = [] ∧
      s.jrc.cutSt = 0 ∧
      s.prog.pinned = false ∧
      nsorted none pg.slots = true ∧
      bit32 s (rLunFlt (lunChn o.lun)) (lunPos o.lun) = false ∧
      (courier s (lunChn o.lun)).training = none) ({ striped with flash := { striped.flash with ops := [(2, { kind := .program, lun := 2, block := 5, page := 1, cls := 3, st := .running, pg := some 4 })] }, map := { striped.map with pgs := [(4, { k := 0, place := some (3, 1, 2), slots := [(0, 77), (15, 78)], used := 16, st := .programming })] } }) (2) (4) (3) (1) (2) ({ kind := .program, lun := 2, block := 5, page := 1, cls := 3, st := .running, pg := some 4 }) ({ k := 0, place := some (3, 1, 2), slots := [(0, 77), (15, 78)], used := 16, st := .programming }) (sb4)) ∧
    ((fun (s : State) (id : Nat) (o : FOp) =>
      Suspends s id o ∧
      o.kind = .erase) ({ (wr striped (chn 2 0x14) 0x05000000) with flash := { (wr striped (chn 2 0x14) 0x05000000).flash with ops := [(2, { kind := .erase, lun := 2, block := 9, cls := 4, st := .running }), (3, { kind := .read, lun := 2, block := 5, page := 1, cls := 1, st := .queued, cws := [(4, [.cmd 3])] })] } }) (2) ({ kind := .erase, lun := 2, block := 9, cls := 4, st := .running })) ∧
    ((fun (s : State) (id : Nat) (o : FOp) =>
      Suspends s id o ∧
      o.kind = .program) ({ (wr striped (chn 2 0x18) 0x05000000) with flash := { (wr striped (chn 2 0x18) 0x05000000).flash with ops := [(2, { kind := .program, lun := 2, block := 9, cls := 3, st := .running }), (3, { kind := .read, lun := 2, block := 5, page := 1, cls := 1, st := .queued, cws := [(4, [.cmd 3])] })] } }) (2) ({ kind := .program, lun := 2, block := 9, cls := 3, st := .running })) := by
  refine ⟨?_, ?_, ?_, ?_, ?_, ?_, ?_, ?_, ?_, ?_, ?_, ?_⟩ <;> beta_reduce <;> (repeat' first | apply And.intro | apply Calm.mk | apply Canon.mk) <;>
    first | (with_reducible apply slot_shown (b := 2 ^ 31 + 5 * 65536 + 20) (p := filler); simp only [withCmds]; decide +kernel) | (with_reducible apply slot_shown (b := 2 ^ 31 + 5 * 65536 + 20) (p := filler); simp only [withCmds]; decide +kernel) | (with_reducible apply slot_shown (b := 2 ^ 31 + 5 * 65536 + 20) (p := filler); simp only [withCmds]; decide +kernel) | decide +kernel
/-- Hypotheses of `Obligations.CourierCommands`. -/
theorem witness_CourierCommands :
    ((fun (s : State) (id : Nat) (dwell : Bool) (o : FOp) =>
      s.flash.ops = [(id, o)] ∧
      o.st = .suspended ∧
      o.units = 0 ∧
      tokCovers s (opDst o) (opCost s o) o.kind = true ∧
      active s .dst (opDst o) = true ∧
      courierRuns s (lunChn o.lun) = true ∧
      lunRetired s (lunChn o.lun) (lunPos o.lun) = false) ({ (wr (setActive (setActive striped .chn 2 true) .dst 0 true) (dst 0 0x14) 60000) with flash := { (wr (setActive (setActive striped .chn 2 true) .dst 0 true) (dst 0 0x14) 60000).flash with ops := [(2, { kind := .erase, lun := 2, block := 9, cls := 4, st := .suspended, susp := 1 })] } }) (2) (false) ({ kind := .erase, lun := 2, block := 9, cls := 4, st := .suspended, susp := 1 })) ∧
    ((fun (s : State) (id : Nat) (k : Nat) (o : FOp) (r : FOp) =>
      nget s.flash.ops id = some o ∧
      o.st = .suspended ∧
      (k, r) ∈ s.flash.ops ∧
      r.lun = o.lun ∧
      r.kind = .read ∧
      r.st = .queued) ({ striped with flash := { striped.flash with ops := [(2, { kind := .erase, lun := 2, block := 9, cls := 4, st := .suspended, susp := 1 }), (3, { kind := .read, lun := 2, block := 5, page := 1, cls := 1, st := .queued, cws := [(4, [.cmd 3])] })] } }) (2) (3) ({ kind := .erase, lun := 2, block := 9, cls := 4, st := .suspended, susp := 1 }) ({ kind := .read, lun := 2, block := 5, page := 1, cls := 1, st := .queued, cws := [(4, [.cmd 3])] })) ∧
    ((fun (s : State) (id : Nat) (o : FOp) =>
      nget s.flash.ops id = some o ∧
      nsorted none s.flash.ops = true ∧
      o.kind = .read ∧
      o.cls = 2 ∧
      o.st = .queued ∧
      rdField s (chn (lunChn o.lun) 0x24) 15 0 ≠ 0) ({ striped with flash := { striped.flash with ops := [(2, { kind := .read, lun := 2, block := 5, page := 1, cls := 2, st := .queued, cws := [(4, [])] })] } }) (2) ({ kind := .read, lun := 2, block := 5, page := 1, cls := 2, st := .queued, cws := [(4, [])] })) ∧
    ((fun (s : State) (id : Nat) (o : FOp) =>
      s.flash.ops = [(id, o)] ∧
      o.kind = .read ∧
      o.st = .running ∧
      o.again = false ∧
      s.map.opens = [] ∧
      s.map.pgs = [] ∧
      s.srt.cmds = [] ∧
      s.map.relocs = [] ∧
      s.map.pinHold = [] ∧
      s.jrc.cutSt = 0 ∧
      s.prog.pinned = false ∧
      (courier s (lunChn o.lun)).training = none) ({ striped with flash := { striped.flash with ops := [(2, { kind := .read, lun := 2, block := 5, page := 1, cls := 1, st := .running, cws := [(4, [.cmd 3])] })] } }) (2) ({ kind := .read, lun := 2, block := 5, page := 1, cls := 1, st := .running, cws := [(4, [.cmd 3])] })) ∧
    ((fun (s : State) (i : Initiator) (c : Fin 32) (v : Word) =>
      coreAccess s i .chn c = true ∧
      (courier s c).training = none ∧
      (courier s c).wantTrain = none ∧
      fittedCes s c ≠ [] ∧
      trainingIn s (c / 8) < 2) (striped) (.sc0) (2) (1)) ∧
    ((fun (s : State) (c : Fin 32) (eyes : List (Nat × Nat)) =>
      (courier s c).training = some 0 ∧
      (∀ d, (courier s d).wantTrain = none) ∧
      Calm s ∧
      s.flash.ops = []) ({ striped with flash := { striped.flash with chn := [(2, { training := some 0 })] } }) (2) ([(0, 5)])) ∧
    ((fun (s : State) (i : Initiator) (c : Fin 32) =>
      coreAccess s i .pwr 0 = true ∧
      (courier s c).reset = false ∧
      s.flash.ops = [] ∧
      (∀ d, (courier s d).wantTrain = none)) (striped) (.sc0) (31)) ∧
    ((fun (s : State) (i : Initiator) (c : Fin 32) =>
      coreAccess s i .pwr 0 = true ∧
      (courier s c).reset = false ∧
      s.flash.ops = [] ∧
      (∀ d, (courier s d).wantTrain = none)) (striped) (.sc0) (2)) ∧
    ((fun (s : State) (c : Fin 32) (ans : List (Nat × Bool)) (train : TrainFound) =>
      (courier s c).reset = true ∧
      trainingIn s (c / 8) < 2 ∧
      Calm s ∧
      s.flash.ops = []) ({ striped with chip := { striped.chip with chnReset := [2] }, flash := { striped.flash with chn := [(2, { reset := true })] } }) (2) ([]) ({ eyes := [], failedCe := [], verified := true })) ∧
    ((fun (s : State) =>
      s.flash.ops = [] ∧
      flashBudget s < 65536) (striped)) ∧
    ((fun (s : State) (i : Initiator) (c : Fin 32) (v : Word) =>
      coreAccess s i .chn c = true ∧
      (courier s c).snaps.length < 8) (striped) (.sc0) (2) (1)) ∧
    ((fun (s : State) (i : Initiator) (c : Fin 32) (v : Word) =>
      coreAccess s i .chn c = true) ({ striped with flash := { striped.flash with chn := [(2, { snaps := [⟨[1]⟩, ⟨[2]⟩] })] } }) (.sc0) (2) (1)) := by
  refine ⟨?_, ?_, ?_, ?_, ?_, ?_, ?_, ?_, ?_, ?_, ?_, ?_⟩ <;> beta_reduce <;> (repeat' first | apply And.intro | apply Calm.mk | apply Canon.mk) <;>
    first | decide +kernel | exact fun _ => rfl | (intro d; simp only [courier, ngetD, nget]; (repeat' split) <;> rfl)
/-- Hypotheses of `Obligations.JournalAndRoots`. -/
theorem witness_JournalAndRoots :
    ((fun (s : State) =>
      active s .jrc = true ∧
      s.jrc.lastCut + rdField s 0x60028 31 16 * 250000 ≤ s.clk.tb ∧
      s.chip.held = false) ({ wr host 0x60028 0x00010000 with clk := { host.clk with tb := 250000 } })) ∧
    ((fun (s : State) (b : Nat) =>
      inMinsp s = false ∧
      s.jrc.trigs = [b] ∧
      b < 32 ∧
      s.chip.held = false ∧
      s.pat.deadQ = [] ∧
      s.pat.staging.length < 512) ({ host with jrc := { host.jrc with trigs := [31] } }) (31)) ∧
    ((fun (s : State) (i : Initiator) (v : Word) =>
      coreAccess s i .jrc 0 = true ∧
      s.jrc.hold = false ∧
      s.jrc.committing = false ∧
      s.jrc.twoGen = false ∧
      inMinsp s = false ∧
      Still s ∧
      s.map.packs = []) (host) (.sc1) (1)) ∧
    ((fun (s : State) (i : Initiator) (v : Word) =>
      coreAccess s i .jrc 0 = true ∧
      (s.jrc.twoGen = true ∨ inMinsp s = true)) ({ host with jrc := { host.jrc with twoGen := true } }) (.sc1) (1)) ∧
    ((fun (s : State) =>
      s.jrc.hold = true ∧
      s.jrc.batches = [] ∧
      s.jrc.applyQ = [] ∧
      s.chip.held = false ∧
      s.jrc.live + (ringNeeds s.jrc 16).1 < Config.ringBytes) ({ host with jrc := { host.jrc with hold := true } })) ∧
    ((fun (s : State) (i : Initiator) (v : Word) =>
      coreAccess s i .jrc 0 = true ∧
      s.jrc.hold = false ∧
      s.jrc.committing = false ∧
      s.jrc.twoGen = true) ({ host with jrc := { host.jrc with twoGen := true } }) (.sc1) (2)) ∧
    ((fun (s : State) (n : Root) (r : Root) =>
      s.jrc.committing = true ∧
      s.jrc.next = some n ∧
      commitRoot s = some r ∧
      Calm s ∧
      s.flash.ops = [] ∧
      s.map.sysSb = [] ∧
      s.prog.stage ≠ 5 ∧
      s.chip.held = false ∧
      s.pat.deadQ = [] ∧
      s.pat.staging.length < 512) ({ host with jrc := { host.jrc with committing := true, next := some { bytes := rootImage 1 0 0 1 0 1 0 0 0 } } }) ({ bytes := rootImage 1 0 0 1 0 1 0 0 0 }) ((commitRoot ({ host with jrc := { host.jrc with committing := true, next := some { bytes := rootImage 1 0 0 1 0 1 0 0 0 } } })).getD { bytes := [] })) := by
  refine ⟨?_, ?_, ?_, ?_, ?_, ?_, ?_⟩ <;> beta_reduce <;> (repeat' first | apply And.intro | apply Calm.mk | apply Canon.mk) <;>
    first | decide +kernel
/-- Hypotheses of `Obligations.PatrolCommands`. -/
theorem witness_PatrolCommands :
    ((fun (s : State) (x : Nat) (m : Nat) (r : Nat) (c : PatRead) (b : Sb) =>
      PatrolEnds s x m r c b ∧
      c.status = 1 ∧
      s.pat.visit = some x ∧
      patSpot s x b = some (m, r)) ({ (on striped .pat) with pat := { (on striped .pat).pat with visit := some 3, cur := some { sbx := 3, mem := 0, row := 0, pg := 9, pend := [], status := 1 } } }) (3) (0) (0) ({ sbx := 3, mem := 0, row := 0, pg := 9, pend := [], status := 1 }) (sb4)) ∧
    ((fun (s : State) (x : Nat) (m : Nat) (r : Nat) (c : PatRead) (b : Sb) =>
      PatrolEnds s x m r c b ∧
      c.status = 0 ∧
      c.lost = [] ∧
      c.worst = 5) ({ (on striped .pat) with pat := { (on striped .pat).pat with visit := some 3, cur := some { sbx := 3, mem := 3, row := 3, pg := 9, pend := [], worst := 5, status := 0 } } }) (3) (3) (3) ({ sbx := 3, mem := 3, row := 3, pg := 9, pend := [], worst := 5, status := 0 }) (sb4)) ∧
    ((fun (s : State) (x : Nat) (m : Nat) (r : Nat) (c : PatRead) (b : Sb) =>
      PatrolEnds s x m r c b ∧
      c.status = 0 ∧
      c.lost = [] ∧
      c.worst ≤ 1 ∧
      c.corr ≤ rdField s (pat 0x14) 9 0) ({ (on striped .pat) with pat := { (on striped .pat).pat with visit := some 3, cur := some { sbx := 3, mem := 3, row := 3, pg := 9, pend := [], worst := 1, status := 0 } } }) (3) (3) (3) ({ sbx := 3, mem := 3, row := 3, pg := 9, pend := [], worst := 1, status := 0 }) (sb4)) ∧
    ((fun (s : State) (x : Nat) (m : Nat) (r : Nat) (c : PatRead) (b : Sb) =>
      PatrolEnds s x m r c b ∧
      c.status = 2) ({ (on striped .pat) with pat := { (on striped .pat).pat with visit := some 3, cur := some { sbx := 3, mem := 3, row := 3, pg := 9, pend := [], worst := 1, status := 2 } } }) (3) (3) (3) ({ sbx := 3, mem := 3, row := 3, pg := 9, pend := [], worst := 1, status := 2 }) (sb4)) ∧
    ((fun (s : State) (x : Nat) (b : Sb) =>
      patOn s = true ∧
      s.pat.visit = none ∧
      patCands s = [(x, b)]) (on striped .pat) (3) (sb4)) ∧
    ((fun (s : State) =>
      1 ≤ s.thm.band ∧
      s.thm.band ≤ 4) ({ wr host (pat 0x18) 0xFFFFFFFF with thm := { host.thm with band := 4 }, pat := { host.pat with tageRes := 15 } })) ∧
    ((fun (s : State) (i : Initiator) (v : Word) (l : List (Ppa × Bool)) =>
      coreAccess s i .pat 0 = true ∧
      s.pat.search = none ∧
      1 ≤ v.toNat % 128 ∧
      v.toNat % 128 ≤ 64) (host) (.sc0) (64) ([({ lun := 0, block := 0, page := 0, slot := 0 }, false)])) ∧
    ((fun (s : State) (l : List (Ppa × Bool)) =>
      s.pat.search = some l ∧
      memWf 0 s.dram = true ∧
      s.mem.merge = [] ∧
      MapSound s ∧
      dlqOpen s = []) ({ striped with map := { striped.map with tab := { striped.map.tab with ns := [(1, { ns1 with parcels := [(0, .ptr (2 ^ 31 + 5 * 65536 + 16))] })] } }, pat := { striped.pat with search := some [({ lun := 2, block := 5, page := 1, slot := 0 }, true)] } }) ([({ lun := 2, block := 5, page := 1, slot := 0 }, true)])) := by
  refine ⟨?_, ?_, ?_, ?_, ?_, ?_, ?_, ?_⟩ <;> beta_reduce <;> (repeat' first | apply And.intro | apply Calm.mk | apply Canon.mk) <;>
    first | decide +kernel | (unfold MapSound; decide +kernel)
/-- Hypotheses of `Obligations.MemoryIntegrityCommands`. -/
theorem witness_MemoryIntegrityCommands :
    ((fun (s : State) (i : Initiator) (v : Word) (lo : Nat) (n : Nat) =>
      coreAccess s i .drc 0 = true ∧
      s.mem.zf = none ∧
      rdField s 0x50010 35 16 = lo ∧
      rdField s 0x50018 36 16 = n) ({ wr (wr host 0x50010 0x10000) 0x50018 0x20000 with dram := [(65535, 1), (65536, 2), (196607, 3), (196608, 4)] }) (.sc0) (1) (1) (2)) ∧
    ((fun (s : State) (lo : Nat) (hi : Nat) =>
      s.mem.zf = some (lo, hi) ∧
      lo < hi ∧
      s.prog.stage ≠ 2 ∧
      s.chip.held = false ∧
      (∀ e ∈ s.dram, e.1 < lo * 65536 ∨ hi * 65536 ≤ e.1) ∧
      (∀ e ∈ s.mem.merge, inGranules lo hi e.line = false)) ({ host with mem := { host.mem with zf := some (1, 3) }, dram := [(65535, 1), (196608, 4)] }) (1) (3)) ∧
    ((fun (s : State) (line : Nat) (e : MergeEnt) (r : UnitRead) (old : BitVec 512) =>
      (s.mem.merge.find? fun x => x.line == line) = some e ∧
      e.mask = BitVec.allOnes 64 ∧
      s.phc.st = 0 ∧
      memWf 0 s.dram = true ∧
      joinedTo s.mem.merge line = [line]) ({ host with phc := { host.phc with st := 0 }, mem := { host.mem with merge := [{ line := 5, mask := BitVec.allOnes 64, data := 0x905 }] } }) (5) ({ line := 5, mask := BitVec.allOnes 64, data := 0x905 }) ({ }) (0)) ∧
    ((fun (s : State) (line : Nat) (e : MergeEnt) (r : UnitRead) (old : BitVec 512) =>
      (s.mem.merge.find? fun x => x.line == line) = some e ∧
      e.mask ≠ BitVec.allOnes 64 ∧
      s.phc.st = 0 ∧
      memWf 0 s.dram = true ∧
      joinedTo s.mem.merge line = [line] ∧
      effective s line r = .clean) ({ host with phc := { host.phc with st := 0 }, dram := [(320, 7), (321, 8)], mem := { host.mem with wrote := [5], merge := [{ line := 5, mask := 1, data := 0x905 }] } }) (5) ({ line := 5, mask := 1, data := 0x905 }) ({ }) (0)) ∧
    ((fun (s : State) (line : Nat) (e : MergeEnt) (r : UnitRead) (old : BitVec 512) =>
      (s.mem.merge.find? fun x => x.line == line) = some e ∧
      e.mask ≠ BitVec.allOnes 64 ∧
      s.phc.st = 0 ∧
      joinedTo s.mem.merge line = [line] ∧
      effective s line r = .ue ∧
      s.chip.held = false) ({ host with phc := { host.phc with st := 0 }, mem := { host.mem with granules := [(0, 1)], merge := [{ line := 5, mask := 1, data := 0x905 }] } }) (5) ({ line := 5, mask := 1, data := 0x905 }) ({ err := 0x0000000100000001 }) (0)) ∧
    ((fun (s : State) (i : Initiator) (v : Word) (base : Nat) (len : Nat) =>
      coreAccess s i .scb 0 = true ∧
      s.mem.scrub = none ∧
      rdField s 0x110010 39 0 = base ∧
      rdField s 0x110018 39 0 = len ∧
      bitsOf (rd s 0x110020) 1 0 = 0) (wr (wr host 0x110010 65) 0x110018 64) (.sc0) (1) (65) (64)) ∧
    ((fun (s : State) (i : Initiator) (v : Word) =>
      coreAccess s i .scb 0 = true ∧
      s.mem.scrub.isSome = true) ({ host with mem := { host.mem with scrub := some (0, 0, 0, 64) } }) (.sc0) (2)) ∧
    ((fun (s : State) (mem : Nat) (unit : Nat) (lo : Nat) (hi : Nat) (found : List (Nat × UnitRead)) =>
      s.mem.scrub = some (mem, unit, lo, hi) ∧
      s.mem.scrubCmd = none ∧
      s.chip.held = false ∧
      s.mem.merge = [] ∧
      (∀ x ∈ scrubReads mem lo hi found, scrubReport s mem x = .clean)) ({ host with mem := { host.mem with granules := [(0, 1)], scrub := some (0, 0, 0, 128), scrubStop := true } }) (0) (0) (0) (128) ([])) ∧
    ((fun (s : State) (mem : Nat) (unit : Nat) (lo : Nat) (hi : Nat) (found : List (Nat × UnitRead)) =>
      s.mem.scrub = some (mem, unit, lo, hi) ∧
      s.mem.scrubCmd = none ∧
      s.chip.held = false ∧
      s.mem.merge = [] ∧
      (∀ x ∈ scrubReads mem lo hi found, scrubReport s mem x = .clean)) ({ host with mem := { host.mem with scrub := some (1, 0, 0, 128) } }) (1) (0) (0) (128) ([(64, {})])) ∧
    ((fun (s : State) (mem : Nat) (unit : Nat) (lo : Nat) (hi : Nat) (found : List (Nat × UnitRead)) =>
      s.mem.scrub = some (mem, unit, lo, hi) ∧
      s.mem.scrubCmd = none ∧
      s.chip.held = false ∧
      s.mem.merge = [] ∧
      (∀ x ∈ scrubReads mem lo hi found, scrubReport s mem x = .clean)) ({ host with mem := { host.mem with scrub := some (2, 4, 0, 16) } }) (2) (4) (0) (16) ([])) ∧
    ((fun (s : State) (unit : Nat) (lo : Nat) (hi : Nat) (a : Nat) (p : Nat) (r : UnitRead) =>
      s.mem.scrub = some (1, unit, lo, hi) ∧
      s.mem.scrubCmd = none ∧
      s.mem.scrubStop = false ∧
      lo % 64 = 0 ∧
      hi % 64 = 0 ∧
      a % 64 = 0 ∧
      lo ≤ a ∧
      a < hi ∧
      a < 2 ^ 40 ∧
      s.mem.offend = [] ∧
      s.jrc.hurt = [] ∧
      jramReport r = .corrected p) ({ host with mem := { host.mem with scrub := some (1, 0, 0, 128) } }) (0) (0) (128) (64) (0) ({ flag := true })) ∧
    ((fun (s : State) (unit : Nat) (lo : Nat) (hi : Nat) (a : Nat) (p : Nat) (r : UnitRead) =>
      s.mem.scrub = some (1, unit, lo, hi) ∧
      s.mem.scrubCmd = none ∧
      s.mem.scrubStop = false ∧
      lo % 64 = 0 ∧
      hi % 64 = 0 ∧
      a % 64 = 0 ∧
      lo ≤ a ∧
      a < hi ∧
      a < 2 ^ 40 ∧
      s.mem.offend = [] ∧
      s.jrc.hurt = [] ∧
      jramReport r = .corrected p) ({ host with mem := { host.mem with scrub := some (1, 0, 0, 128) } }) (0) (0) (128) (64) (0) ({ err := 0xFF00FF00FF })) := by
  refine ⟨?_, ?_, ?_, ?_, ?_, ?_, ?_, ?_, ?_, ?_, ?_, ?_⟩ <;> beta_reduce <;> (repeat' first | apply And.intro | apply Calm.mk | apply Canon.mk) <;>
    first | decide +kernel | exact effective_of (by decide +kernel) (by decide +kernel)
/-- Hypotheses of `Obligations.RingLinksAndTime`. -/
theorem witness_RingLinksAndTime :
    ((fun (s : State) (p : RingPort) =>
      linkOf s.ring p = .down) (on host .rng) (.east)) ∧
    ((fun (s : State) (p : RingPort) =>
      linkOf s.ring p = .down) (on host .rng) (.west)) ∧
    ((fun (s : State) (p : RingPort) =>
      linkOf s.ring p = .training) ({ (wrField (on host .rng) (Reg.ctl .rng) 8 8 1) with ring := { host.ring with east := .training, west := .training } }) (.east)) ∧
    ((fun (s : State) (p : RingPort) =>
      linkOf s.ring p = .training) ({ (wrField (on host .rng) (Reg.ctl .rng) 8 8 1) with ring := { host.ring with east := .training, west := .training } }) (.west)) ∧
    ((fun (s : State) (p : RingPort) =>
      linkOf s.ring p ≠ .down) ({ (wrField (on host .rng) (Reg.ctl .rng) 8 8 1) with ring := { host.ring with east := .up, west := .up, st := .member, addr := some 5, n := 8, gid := some 77, pmaddr := some 0 } }) (.east)) ∧
    ((fun (s : State) (p : RingPort) =>
      linkOf s.ring p ≠ .down) ({ (wrField (on host .rng) (Reg.ctl .rng) 8 8 1) with ring := { host.ring with east := .up, west := .up, st := .member, addr := some 5, n := 8, gid := some 77, pmaddr := some 0 } }) (.west)) ∧
    ((fun (s : State) (h : DispHdr) (serial : Nat) (gid : Nat) (addr : Nat) (far : Nat) =>
      linkOf s.ring h.port ≠ .down) ({ (wrField (on host .rng) (Reg.ctl .rng) 8 8 1) with ring := { host.ring with east := .up } }) ({ port := .east, dst := 0x40, src := 3, ttl := 1, seq := 9 }) (7) (77) (4) (1)) ∧
    ((fun (s : State) (h : DispHdr) (gid : Nat) (addr : Nat) (state : Nat) (ports : Nat) (n : Nat) (pm : Nat) (sseq : Nat) (hash : Nat) (strap : Bool) =>
      Heard s h (some gid) ∧
      addr < 64) ({ (wrField (on host .rng) (Reg.ctl .rng) 8 8 1) with ring := { host.ring with east := .up, west := .up, st := .member, addr := some 5, n := 8, gid := some 77, pmaddr := some 0 } }) ({ port := .east, dst := 0xFF, src := 3, ttl := 64, seq := 9 }) (77) (63) (2) (0) (8) (0) (0) (9) (false)) ∧
    ((fun (s : State) (h : DispHdr) (t1 : Nat) =>
      Near s h) ({ (wrField (on host .rng) (Reg.ctl .rng) 8 8 1) with ring := { host.ring with east := .up, west := .up, st := .member, addr := some 5, n := 8, gid := some 77, pmaddr := some 0 } }) ({ port := .east, dst := 0x40, src := 3, ttl := 1, seq := 9 }) (640)) ∧
    ((fun (s : State) (h : DispHdr) (t1 : Nat) (t2 : Nat) (t3 : Nat) (t4 : Nat) =>
      Near s h ∧
      s.ring.st = .member ∧
      s.ring.upstream = some h.port ∧
      s.ring.locked = true) ({ (wrField (on host .rng) (Reg.ctl .rng) 8 8 1) with ring := { host.ring with east := .up, west := .up, st := .member, addr := some 5, n := 8, gid := some 77, pmaddr := some 0, upstream := some .east, locked := true } }) ({ port := .east, dst := 0x40, src := 3, ttl := 1, seq := 9 }) (10) (20) (30) (25)) ∧
    ((fun (s : State) (h : DispHdr) (t1 : Nat) (t2 : Nat) (t3 : Nat) (t4 : Nat) =>
      Near s h ∧
      s.ring.st = .member ∧
      s.ring.upstream = some h.port ∧
      s.ring.locked = false ∧
      0 ≤ (((t2 : Int) - t1) + ((t3 : Int) - t4)) / 2) ({ (wrField (on host .rng) (Reg.ctl .rng) 8 8 1) with ring := { host.ring with east := .up, west := .up, st := .member, addr := some 5, n := 8, gid := some 77, pmaddr := some 0, upstream := some .east } }) ({ port := .east, dst := 0x40, src := 3, ttl := 1, seq := 9 }) (10) (1000) (1010) (25)) ∧
    ((fun (s : State) (h : DispHdr) (next : Nat) (dir : Nat) (tbmax : Nat) (origin : Nat) =>
      Near s h ∧
      s.ring.origin = none ∧
      next < 64) ({ (wrField (on host .rng) (Reg.ctl .rng) 8 8 1) with ring := { host.ring with east := .up, west := .up } }) ({ port := .east, dst := 0x40, src := 3, ttl := 1, seq := 9 }) (63) (0) (5) (9)) ∧
    ((fun (s : State) (h : DispHdr) (next : Nat) (dir : Nat) (tbmax : Nat) (origin : Nat) =>
      Near s h ∧
      s.ring.origin = none ∧
      next < 64) ({ (wrField (on host .rng) (Reg.ctl .rng) 8 8 1) with ring := { host.ring with east := .up } }) ({ port := .east, dst := 0x40, src := 3, ttl := 1, seq := 9 }) (63) (0) (5) (9)) ∧
    ((fun (s : State) (h : DispHdr) (next : Nat) (dir : Nat) (tbmax : Nat) (origin : Nat) (o : Nat) =>
      Near s h ∧
      s.ring.origin = some o ∧
      o < origin) ({ (wrField (on host .rng) (Reg.ctl .rng) 8 8 1) with ring := { host.ring with east := .up, origin := some 8 } }) ({ port := .east, dst := 0x40, src := 3, ttl := 1, seq := 9 }) (3) (0) (5) (9) (8)) := by
  refine ⟨?_, ?_, ?_, ?_, ?_, ?_, ?_, ?_, ?_, ?_, ?_, ?_, ?_, ?_⟩ <;> beta_reduce <;> (repeat' first | apply And.intro | apply Calm.mk | apply Canon.mk) <;>
    first | decide +kernel
/-- Hypotheses of `Obligations.RingEnumeration`. -/
theorem witness_RingEnumeration :
    ((fun (s : State) (h : DispHdr) (count : Nat) (tbmax : Nat) (origin : Nat) =>
      Heard s h none ∧
      s.ring.starting = true ∧
      s.ring.origin = some origin) ({ (wrField (on host .rng) (Reg.ctl .rng) 8 8 1) with ring := { host.ring with east := .up, west := .up, st := .unenumerated, starting := true, origin := some 8, addr := some 0, tbmax := 7 } }) ({ port := .east, dst := 0xFF, src := 3, ttl := 64, seq := 9 }) (4) (99) (8)) ∧
    ((fun (s : State) (h : DispHdr) (count : Nat) (tbmax : Nat) (origin : Nat) =>
      Heard s h none ∧
      s.ring.starting = true ∧
      s.ring.origin = some origin ∧
      s.ring.eastDone = false ∧
      s.ring.west = .up) ({ (wrField (on host .rng) (Reg.ctl .rng) 8 8 1) with ring := { host.ring with east := .up, west := .up, st := .unenumerated, starting := true, origin := some 8, addr := some 0, tbmax := 7 } }) ({ port := .east, dst := 0xFF, src := 3, ttl := 64, seq := 9 }) (4) (99) (8)) ∧
    ((fun (s : State) (h : DispHdr) (gid : Nat) (n : Nat) (pm : Nat) (gstart : Nat) (geper : Nat) =>
      Heard s h (some gid) ∧
      s.ring.addr.isSome = true ∧
      s.ring.st ≠ .isolated) ({ (wrField (on host .rng) (Reg.ctl .rng) 8 8 1) with ring := { host.ring with east := .up, addr := some 5, st := .unenumerated } }) ({ port := .east, dst := 0xFF, src := 3, ttl := 64, seq := 9 }) (77) (8) (0) (1000) (3)) ∧
    ((fun (s : State) (h : DispHdr) =>
      Addressed s h none ∧
      s.ring.role = 1) ({ (wrField (on host .rng) (Reg.ctl .rng) 8 8 1) with ring := { host.ring with east := .up, west := .up, st := .member, addr := some 5, n := 8, gid := some 77, pmaddr := some 0, role := 1 } }) ({ port := .east, dst := 5, src := 3, ttl := 64, seq := 9 })) ∧
    ((fun (s : State) (h : DispHdr) (serial : Nat) =>
      Heard s h none ∧
      s.ring.role = 1 ∧
      nget s.ring.admitted serial = none ∧
      s.ring.n < 64) ({ (wrField (on host .rng) (Reg.ctl .rng) 8 8 1) with ring := { host.ring with east := .up, west := .up, st := .member, addr := some 5, n := 8, gid := some 77, pmaddr := some 0, role := 1 } }) ({ port := .east, dst := 0xFF, src := 3, ttl := 64, seq := 9 }) (12345)) ∧
    ((fun (s : State) (h : DispHdr) (serial : Nat) =>
      Heard s h none ∧
      s.ring.role = 1 ∧
      nget s.ring.admitted serial = none ∧
      64 ≤ s.ring.n) ({ (wrField (on host .rng) (Reg.ctl .rng) 8 8 1) with ring := { host.ring with east := .up, west := .up, st := .member, addr := some 5, n := 64, gid := some 77, pmaddr := some 0, role := 1 } }) ({ port := .east, dst := 0xFF, src := 3, ttl := 64, seq := 9 }) (12345)) ∧
    ((fun (s : State) (h : DispHdr) (addr : Nat) (gid : Nat) (n : Nat) =>
      Heard s h (some gid) ∧
      s.ring.addr = none) ({ (wrField (on host .rng) (Reg.ctl .rng) 8 8 1) with ring := { host.ring with east := .up, st := .unenumerated } }) ({ port := .east, dst := 0xFF, src := 3, ttl := 64, seq := 9 }) (63) (77) (64)) ∧
    ((fun (s : State) (h : DispHdr) (pm : Nat) (prev : Nat) =>
      Heard s h none ∧
      s.ring.st = .member) ({ (wrField (on host .rng) (Reg.ctl .rng) 8 8 1) with ring := { host.ring with east := .up, west := .up, st := .member, addr := some 5, n := 8, gid := some 77, pmaddr := some 0 } }) ({ port := .east, dst := 0xFF, src := 3, ttl := 64, seq := 9 }) (4) (0)) ∧
    ((fun (s : State) (h : DispHdr) (part : Nat) (sseq : Nat) (bytes : BitVec 384) =>
      Heard s h none ∧
      s.ring.st = .member ∧
      part < 6 ∧
      s.ring.parts = []) ({ (wrField (on host .rng) (Reg.ctl .rng) 8 8 1) with ring := { host.ring with east := .up, west := .up, st := .member, addr := some 5, n := 8, gid := some 77, pmaddr := some 0 } }) ({ port := .east, dst := 0xFF, src := 3, ttl := 64, seq := 9 }) (5) (3) (7)) := by
  refine ⟨?_, ?_, ?_, ?_, ?_, ?_, ?_, ?_, ?_⟩ <;> beta_reduce <;> (repeat' first | apply And.intro | apply Calm.mk | apply Canon.mk) <;>
    first | decide +kernel
/-- Hypotheses of `Obligations.RingSchedules`. -/
theorem witness_RingSchedules :
    ((fun (s : State) (h : DispHdr) (part : Nat) (sseq : Nat) (bytes : BitVec 384) (d : SchedDesc) =>
      Heard s h none ∧
      s.ring.st = .member ∧
      part < 6 ∧
      sseq ≠ 0 ∧
      s.ring.schedWait = none ∧
      schedJoined { s.ring with parts := nset s.ring.parts part (sseq, bytes) } sseq = some d) ({ (wrField (on host .rng) (Reg.ctl .rng) 8 8 1) with ring := { host.ring with east := .up, west := .up, st := .member, addr := some 5, n := 8, gid := some 77, pmaddr := some 0, parts := [(0, 3, 0 * 2 ^ 64), (1, 3, 0), (2, 3, 0), (3, 3, 0), (4, 3, 0)] } }) ({ port := .east, dst := 0xFF, src := 3, ttl := 64, seq := 9 }) (5) (3) (0) ({ sseq := 3, eff := 0, period := 0, rsvd := 0, entry := List.replicate 64 (0, 0) })) ∧
    ((fun (s : State) (h : DispHdr) (part : Nat) (sseq : Nat) (bytes : BitVec 384) (d : SchedDesc) =>
      Heard s h none ∧
      s.ring.st = .member ∧
      part < 6 ∧
      sseq ≠ 0 ∧
      s.ring.schedWait = none ∧
      schedJoined { s.ring with parts := nset s.ring.parts part (sseq, bytes) } sseq = some d) ({ (wrField (on host .rng) (Reg.ctl .rng) 8 8 1) with ring := { host.ring with east := .up, west := .up, st := .member, addr := some 5, n := 8, gid := some 77, pmaddr := some 0, parts := [(0, 3, 10 ^ 15 * 2 ^ 64), (1, 3, 0), (2, 3, 0), (3, 3, 0), (4, 3, 0)] } }) ({ port := .east, dst := 0xFF, src := 3, ttl := 64, seq := 9 }) (5) (3) (0) ({ sseq := 3, eff := 10 ^ 15, period := 0, rsvd := 0, entry := List.replicate 64 (0, 0) })) ∧
    ((fun (s : State) (h : DispHdr) (typ : Nat) (seq : Nat) =>
      Addressed s h none) ({ (wrField (on host .rng) (Reg.ctl .rng) 8 8 1) with ring := { host.ring with east := .up, west := .up, st := .member, addr := some 5, n := 8, gid := some 77, pmaddr := some 0, repeats := [⟨0x12, 3, 7, [], 3, true⟩, ⟨0x12, 4, 7, [], 3, true⟩] } }) ({ port := .east, dst := 5, src := 3, ttl := 64, seq := 9 }) (0x12) (7)) ∧
    ((fun (s : State) (h : DispHdr) (digest : Nat) (tact : Nat) (step : Nat) =>
      Heard s h none) ({ (wrField (on host .rng) (Reg.ctl .rng) 8 8 1) with ring := { host.ring with east := .up, west := .up, st := .member, addr := some 5, n := 8, gid := some 77, pmaddr := some 0 } }) ({ port := .east, dst := 0xFF, src := 3, ttl := 64, seq := 9 }) (5) (100) (2)) ∧
    ((fun (s : State) (h : DispHdr) (size : Nat) (digest : Nat) =>
      Near s h ∧
      relays s = true ∧
      size ≤ 2 ^ 24 ∧
      digest ∉ s.ring.haveImgs ∧
      (∀ k, k < 2 → digest16 (slotImage s k) ≠ digest) ∧
      s.ring.rx.active = false) ({ (wrField (on host .rng) (Reg.ctl .rng) 8 8 1) with ring := { host.ring with east := .up, west := .up, st := .member, addr := some 5, n := 8, gid := some 77, pmaddr := some 0 } }) ({ port := .east, dst := 0x40, src := 3, ttl := 1, seq := 9 }) (1000) (third (digest16 (slotImage ({ (wrField (on host .rng) (Reg.ctl .rng) 8 8 1) with ring := { host.ring with east := .up, west := .up, st := .member, addr := some 5, n := 8, gid := some 77, pmaddr := some 0 } }) 0)) (digest16 (slotImage ({ (wrField (on host .rng) (Reg.ctl .rng) 8 8 1) with ring := { host.ring with east := .up, west := .up, st := .member, addr := some 5, n := 8, gid := some 77, pmaddr := some 0 } }) 1)))) ∧
    ((fun (s : State) (h : DispHdr) (size : Nat) (digest : Nat) =>
      Near s h ∧
      relays s = true ∧
      size ≤ 2 ^ 24 ∧
      digest ∈ s.ring.haveImgs) ({ (wrField (on host .rng) (Reg.ctl .rng) 8 8 1) with ring := { host.ring with east := .up, west := .up, st := .member, addr := some 5, n := 8, gid := some 77, pmaddr := some 0, haveImgs := [5] } }) ({ port := .east, dst := 0x40, src := 3, ttl := 1, seq := 9 }) (1000) (5)) ∧
    ((fun (s : State) (h : DispHdr) (bytes : List Byte) =>
      Near s h ∧
      relays s = true ∧
      s.ring.rx.active = true ∧
      s.ring.rxFrom = some h.port ∧
      s.ring.rx.next + 1 < relChunks s.ring.rx.size ∧
      s.ring.rxImage.length + bytes.length < s.ring.rx.size) ({ (wrField (on host .rng) (Reg.ctl .rng) 8 8 1) with ring := { host.ring with east := .up, west := .up, st := .member, addr := some 5, n := 8, gid := some 77, pmaddr := some 0, rx := ⟨5, 6000, 15, 0, true⟩, rxFrom := some .east } }) ({ port := .east, dst := 0x40, src := 3, ttl := 1, seq := 9 }) (List.replicate 60 7)) ∧
    ((fun (s : State) (h : DispHdr) (index : Nat) (bytes : List Byte) =>
      Near s h ∧
      index ≠ s.ring.rx.next ∧
      relayWhole s.ring = false) ({ (wrField (on host .rng) (Reg.ctl .rng) 8 8 1) with ring := { host.ring with east := .up, west := .up, st := .member, addr := some 5, n := 8, gid := some 77, pmaddr := some 0, rx := ⟨5, 6000, 15, 0, true⟩, rxFrom := some .east } }) ({ port := .east, dst := 0x40, src := 3, ttl := 1, seq := 9 }) (16) ([1])) ∧
    ((fun (s : State) (h : DispHdr) (next : Nat) =>
      Near s h ∧
      (txOf s.ring h.port).active = true ∧
      s.ring.st = .member) ({ (wrField (on host .rng) (Reg.ctl .rng) 8 8 1) with ring := { host.ring with east := .up, west := .up, st := .member, addr := some 5, n := 8, gid := some 77, pmaddr := some 0, txEast := ⟨5, 6000, 0, 64, true⟩, txImage := List.replicate 6000 7 } }) ({ port := .east, dst := 0x40, src := 3, ttl := 1, seq := 9 }) (64)) ∧
    ((fun (s : State) (h : DispHdr) (next : Nat) =>
      Near s h ∧
      (txOf s.ring h.port).active = true ∧
      s.ring.st = .member) ({ (wrField (on host .rng) (Reg.ctl .rng) 8 8 1) with ring := { host.ring with east := .up, west := .up, st := .member, addr := some 5, n := 8, gid := some 77, pmaddr := some 0, txEast := ⟨5, 6000, 0, 64, true⟩, txImage := List.replicate 6000 7 } }) ({ port := .east, dst := 0x40, src := 3, ttl := 1, seq := 9 }) (100)) ∧
    ((fun (s : State) (h : DispHdr) =>
      Near s h) ({ (wrField (on host .rng) (Reg.ctl .rng) 8 8 1) with ring := { host.ring with east := .up, west := .up, st := .member, addr := some 5, n := 8, gid := some 77, pmaddr := some 0, txEast := ⟨5, 6000, 0, 64, true⟩ } }) ({ port := .east, dst := 0x40, src := 3, ttl := 1, seq := 9 })) := by
  refine ⟨?_, ?_, ?_, ?_, ?_, ?_, ?_, ?_, ?_, ?_, ?_⟩ <;> beta_reduce <;> (repeat' first | apply And.intro | apply Calm.mk | apply Canon.mk) <;>
    first | decide +kernel | exact List.not_mem_nil | exact third_ne (fun k => digest16 (slotImage _ k))
/-- Hypotheses of `Obligations.RingRelay`. -/
theorem witness_RingRelay :
    ((fun (s : State) (h : DispHdr) (typ : Nat) (pl : List Byte) =>
      Heard s h none) ({ (wrField (on host .rng) (Reg.ctl .rng) 8 8 1) with ring := { host.ring with east := .up, west := .up, st := .member, addr := some 5, n := 8, gid := some 77, pmaddr := some 0 } }) ({ port := .east, dst := 0xFF, src := 3, ttl := 64, seq := 9 }) (0x80) ([1])) ∧
    ((fun (s : State) (h : DispHdr) (typ : Nat) (pl : List Byte) =>
      Heard s h none) ({ (wrField (on host .rng) (Reg.ctl .rng) 8 8 1) with ring := { host.ring with east := .up, west := .up, st := .member, addr := some 5, n := 8, gid := some 77, pmaddr := some 0, rxq := List.replicate 16 ⟨0x80, 1, []⟩ } }) ({ port := .east, dst := 0xFF, src := 3, ttl := 64, seq := 9 }) (0x80) ([1])) ∧
    ((fun (s : State) (h : DispHdr) (typ : Nat) =>
      Heard s h none) ({ (wrField (on host .rng) (Reg.ctl .rng) 8 8 1) with ring := { host.ring with east := .up, west := .up, st := .member, addr := some 5, n := 8, gid := some 77, pmaddr := some 0 } }) ({ port := .east, dst := 0xFF, src := 3, ttl := 64, seq := 9 }) (0x70)) ∧
    ((fun (s : State) (h : DispHdr) (typ : Nat) (pl : List Byte) =>
      linkOf s.ring h.port = .up ∧
      h.dst ≠ 0x40 ∧
      h.src < 64 ∧
      seqMark (nget s.ring.seen h.src) h.seq = none) ({ (wrField (on host .rng) (Reg.ctl .rng) 8 8 1) with ring := { host.ring with east := .up, west := .up, st := .member, addr := some 5, n := 8, gid := some 77, pmaddr := some 0, seen := [(3, ⟨9, 1⟩)] } }) ({ port := .east, dst := 0xFF, src := 3, ttl := 64, seq := 9 }) (0x80) ([1])) ∧
    ((fun (s : State) (i : Initiator) (v : Word) =>
      coreAccess s i .rng 0 = true ∧
      running s .rng = true ∧
      v.toNat < 2 ^ 32 ∧
      0x80 ≤ bitsOf v.toNat 31 24 ∧
      bitsOf v.toNat 31 24 ≤ 0xEF ∧
      bitsOf v.toNat 23 16 = 0xFF ∧
      bitsOf v.toNat 6 0 ≤ 64) (wr (wr { (wrField (on host .rng) (Reg.ctl .rng) 8 8 1) with ring := { host.ring with east := .up, west := .up, st := .member, addr := some 5, n := 8, gid := some 77, pmaddr := some 0 } } (Reg.rngTxbuf 0) 0x04030201) (Reg.rngTxbuf 1) 0x08070605) (.sc1) (0x80FF0005)) ∧
    ((fun (s : State) (i : Initiator) (v : Word) =>
      coreAccess s i .rng 0 = true) ({ (wrField (on host .rng) (Reg.ctl .rng) 8 8 1) with ring := { host.ring with east := .up, west := .up, st := .member, addr := some 5, n := 8, gid := some 77, pmaddr := some 0, rxq := [⟨0x80, 1, []⟩, ⟨0x81, 1, []⟩] } }) (.sc1) (1)) ∧
    ((fun (s : State) (i : Initiator) (v : Word) =>
      coreAccess s i .rng 0 = true ∧
      running s .rng = true) ({ (wrField (on host .rng) (Reg.ctl .rng) 8 8 1) with ring := { host.ring with east := .up, west := .up, st := .member, addr := some 5, n := 8, gid := some 77, pmaddr := some 0, role := 1 } }) (.sc1) (1)) ∧
    ((fun (s : State) (i : Initiator) (v : Word) =>
      coreAccess s i .rng 0 = true ∧
      running s .rng = true) ({ (wrField (on host .rng) (Reg.ctl .rng) 8 8 1) with ring := { host.ring with east := .up, west := .up, st := .member, addr := some 5, n := 8, gid := some 77, pmaddr := some 0, role := 2 } }) (.sc1) (1)) ∧
    ((fun (s : State) =>
      running s .rng = true) ({ (wrField (on host .rng) (Reg.ctl .rng) 8 8 1) with ring := { host.ring with east := .up, west := .up, st := .member, addr := some 5, n := 8, gid := some 77, pmaddr := some 0 } })) ∧
    ((fun (s : State) (a : Nat) =>
      a ∈ s.ring.reach) ({ (wrField (on host .rng) (Reg.ctl .rng) 8 8 1) with ring := { host.ring with east := .up, west := .up, st := .member, addr := some 5, n := 8, gid := some 77, pmaddr := some 0, reach := [0, 4] } }) (4)) := by
  refine ⟨?_, ?_, ?_, ?_, ?_, ?_, ?_, ?_, ?_, ?_⟩ <;> beta_reduce <;> (repeat' first | apply And.intro | apply Calm.mk | apply Canon.mk) <;>
    first | decide +kernel
/-- Hypotheses of `Obligations.RingTimersA`. -/
theorem witness_RingTimersA :
    ((fun (s : State) =>
      s.ring.st = .member ∧
      inGroup s.ring = false) ({ (wrField (on host .rng) (Reg.ctl .rng) 8 8 1) with ring := { host.ring with east := .up, west := .up, st := .member, addr := some 5, n := 8, gid := some 77, pmaddr := some 0 } })) ∧
    ((fun (s : State) (a : Nat) (b : Beacon) =>
      s.ring.st = .isolated ∧
      inGroup s.ring = true ∧
      a ∈ s.ring.reach ∧
      nget s.ring.heard a = some b ∧
      b.state = 2 ∧
      running s .rng = true ∧
      (∀ c d, nget s.ring.heard c = some d → d.sseq ≠ 0)) ({ (wrField (on host .rng) (Reg.ctl .rng) 8 8 1) with ring := { host.ring with east := .up, west := .up, st := .isolated, addr := some 5, n := 2, gid := some 77, pmaddr := some 0, reach := [0], heard := [(0, ⟨77, 0, 2, 3, 2, 0, 1, 9, false⟩)] } }) (0) (⟨77, 0, 2, 3, 2, 0, 1, 9, false⟩)) ∧
    ((fun (s : State) =>
      s.ring.st = .isolated ∧
      s.ring.foreign = true ∧
      (∀ a ∈ s.ring.reach, isMember s.ring a = false)) ({ (wrField (on host .rng) (Reg.ctl .rng) 8 8 1) with ring := { host.ring with east := .up, st := .isolated, addr := some 5, foreign := true } })) ∧
    ((fun (s : State) =>
      mayEnum s = true ∧
      running s .rng = true ∧
      s.ring.east = .up) ({ { (wrField (on host .rng) (Reg.ctl .rng) 8 8 1) with ring := { host.ring with east := .up, west := .up, st := .unenumerated, everUp := true } } with clk := { host.clk with tb := 25000000 } })) ∧
    ((fun (s : State) =>
      s.ring.starting = true) ({ (wrField (on host .rng) (Reg.ctl .rng) 8 8 1) with ring := { host.ring with east := .up, st := .unenumerated, starting := true, addr := some 0 } })) ∧
    ((fun (s : State) =>
      s.ring.starting = true) ({ (wrField (on host .rng) (Reg.ctl .rng) 8 8 1) with ring := { host.ring with east := .up, st := .unenumerated, starting := true, retried := true, addr := some 0 } })) ∧
    ((fun (s : State) =>
      s.ring.st = .unenumerated ∧
      s.ring.addr = none ∧
      s.ring.heard ≠ [] ∧
      mayEnum s = false ∧
      s.ring.retried = false ∧
      running s .rng = true) ({ (wrField (on host .rng) (Reg.ctl .rng) 8 8 1) with ring := { host.ring with east := .up, st := .unenumerated, heard := [(0, ⟨77, 0, 2, 3, 2, 0, 0, 9, false⟩)] } })) ∧
    ((fun (s : State) (pm : Nat) (a : Nat) =>
      s.ring.st = .member ∧
      s.ring.pmaddr = some pm ∧
      s.ring.addr = some a ∧
      pm ∉ reachSet s.ring ∧
      subAddr s.ring = some a ∧
      running s .rng = true) ({ (wrField (on host .rng) (Reg.ctl .rng) 8 8 1) with ring := { host.ring with east := .up, west := .up, st := .member, addr := some 5, n := 8, gid := some 77, pmaddr := some 0, reach := [] } }) (0) (5)) ∧
    ((fun (s : State) (x : Repeat) =>
      s.ring.repeats = [x]) ({ (wrField (on host .rng) (Reg.ctl .rng) 8 8 1) with ring := { host.ring with east := .up, west := .up, st := .member, addr := some 5, n := 8, gid := some 77, pmaddr := some 0, repeats := [⟨0x12, 3, 7, [1], 3, true⟩] } }) (⟨0x12, 3, 7, [1], 3, true⟩)) ∧
    ((fun (s : State) (x : Repeat) =>
      s.ring.repeats = [x]) ({ (wrField (on host .rng) (Reg.ctl .rng) 8 8 1) with ring := { host.ring with east := .up, west := .up, st := .member, addr := some 5, n := 8, gid := some 77, pmaddr := some 0, repeats := [⟨0x12, 3, 7, [1], 1, true⟩] } }) (⟨0x12, 3, 7, [1], 1, true⟩)) ∧
    ((fun (s : State) (pm : Nat) (b : Beacon) =>
      s.ring.pmaddr = some pm ∧
      nget s.ring.heard pm = some b ∧
      (s.ring.gid ≠ some b.gid ∨ s.ring.st ≠ .member) ∧
      sseqNow s.ring = b.sseq ∧
      b.addr < 64 ∧
      running s .rng = true) ({ (wrField (on host .rng) (Reg.ctl .rng) 8 8 1) with ring := { host.ring with east := .up, west := .up, st := .member, addr := some 5, n := 8, gid := some 77, pmaddr := some 0, reach := [0], heard := [(0, ⟨78, 0, 2, 3, 2, 0, 0, 9, false⟩)] } }) (0) (⟨78, 0, 2, 3, 2, 0, 0, 9, false⟩)) := by
  refine ⟨?_, ?_, ?_, ?_, ?_, ?_, ?_, ?_, ?_, ?_, ?_⟩ <;> beta_reduce <;> (repeat' first | apply And.intro | apply Calm.mk | apply Canon.mk) <;>
    first | decide +kernel | exact fun c d h => by rw [nget_one h]; decide
/-- Hypotheses of `Obligations.RingTimersB`. -/
theorem witness_RingTimersB :
    ((fun (s : State) (p : RingPort) =>
      s.ring.upstream = some p ∧
      s.ring.st = .member ∧
      linkOf s.ring p = .up ∧
      running s .rng = true) ({ (wrField (on host .rng) (Reg.ctl .rng) 8 8 1) with ring := { host.ring with east := .up, west := .up, st := .member, addr := some 5, n := 8, gid := some 77, pmaddr := some 0, upstream := some .west } }) (.west)) ∧
    ((fun (s : State) =>
      s.ring.st = .member ∧
      s.ring.holdover = false ∧
      s.ring.locked = true) ({ (wrField (on host .rng) (Reg.ctl .rng) 8 8 1) with ring := { host.ring with east := .up, west := .up, st := .member, addr := some 5, n := 8, gid := some 77, pmaddr := some 0, upstream := some .west, offset := 640, locked := true } })) ∧
    ((fun (s : State) =>
      s.ring.st = .member ∧
      s.ring.holdover = false ∧
      s.ring.locked = true) ({ (wrField (on host .rng) (Reg.ctl .rng) 8 8 1) with ring := { host.ring with east := .up, west := .up, st := .member, addr := some 5, n := 8, gid := some 77, pmaddr := some 0, upstream := some .west, offset := -640, locked := true } })) ∧
    ((fun (s : State) (d : SchedDesc) =>
      s.ring.nextSched = some d ∧
      d.eff ≤ groupTime s) ({ (wrField (on host .rng) (Reg.ctl .rng) 8 8 1) with ring := { host.ring with east := .up, west := .up, st := .member, addr := some 5, n := 8, gid := some 77, pmaddr := some 0, nextSched := some { sseq := 4, eff := 0, period := 60, rsvd := 0, entry := [(0, 60)] } } }) ({ sseq := 4, eff := 0, period := 60, rsvd := 0, entry := [(0, 60)] })) ∧
    ((fun (s : State) =>
      insideWin s ≠ s.ring.inWin) ({ (wrField (on host .rng) (Reg.ctl .rng) 8 8 1) with ring := { host.ring with east := .up, west := .up, st := .member, addr := some 5, n := 8, gid := some 77, pmaddr := some 0, sched := some { sseq := 4, eff := 0, period := 60, rsvd := 0, entry := List.replicate 64 (0, 60) } } })) ∧
    ((fun (s : State) =>
      tickDue s = true ∧
      running s .jrc = false) ({ setActive { (wrField (on host .rng) (Reg.ctl .rng) 8 8 1) with ring := { host.ring with east := .up, west := .up, st := .member, addr := some 5, n := 8, gid := some 77, pmaddr := some 0, geper := 1 } } .jrc 0 false with clk := { host.clk with tb := 10 ^ 12 } })) ∧
    ((fun (s : State) (p : RingPort) =>
      (txOf s.ring p).active = true ∧
      s.ring.st = .member ∧
      linkOf s.ring p = .up ∧
      running s .rng = true ∧
      (txOf s.ring p).next < relChunks (txOf s.ring p).size) ({ (wrField (on host .rng) (Reg.ctl .rng) 8 8 1) with ring := { host.ring with east := .up, west := .up, st := .member, addr := some 5, n := 8, gid := some 77, pmaddr := some 0, txEast := ⟨5, 6000, 10, 64, true⟩, txImage := List.replicate 6000 7 } }) (.east)) ∧
    ((fun (s : State) (digest : Nat) (tact : Nat) (step : Nat) =>
      s.ring.act = some (digest, tact, step) ∧
      s.sec.act = none ∧
      s.ring.st ≠ .member ∧
      tact + s.ring.addr.getD 0 * step * 250000 ≤ groupTime s) ({ (wrField (on host .rng) (Reg.ctl .rng) 8 8 1) with ring := { host.ring with east := .up, west := .up, st := .isolated, addr := some 5, n := 8, gid := some 77, pmaddr := some 0, act := some (5, 0, 0) } }) (5) (0) (0)) ∧
    ((fun (s : State) =>
      s.ring.st = .member ∧
      s.ring.holdover = true) ({ (wrField (on host .rng) (Reg.ctl .rng) 8 8 1) with ring := { host.ring with east := .up, west := .up, st := .member, addr := some 5, n := 8, gid := some 77, pmaddr := some 0, holdover := true, unsync := false } })) := by
  refine ⟨?_, ?_, ?_, ?_, ?_, ?_, ?_, ?_, ?_⟩ <;> beta_reduce <;> (repeat' first | apply And.intro | apply Calm.mk | apply Canon.mk) <;>
    first | decide +kernel
/-- Hypotheses of `Obligations.ImagesAndHandover`. -/
theorem witness_ImagesAndHandover :
    ((fun (s : State) (i : Initiator) (v : Word) =>
      coreAccess s i .sec 0 = true ∧
      s.sec.verifying = false) (host) (.sc0) (1)) ∧
    ((fun (s : State) (i : Initiator) (v : Word) =>
      coreAccess s i .sec 0 = true ∧
      s.sec.verifying = true) ({ host with sec := { host.sec with verifying := true } }) (.sc0) (1)) ∧
    ((fun (s : State) (img : List Byte) =>
      s.sec.verifying = true ∧
      s.mem.merge = [] ∧
      (∀ u ∈ unitsIn (rdField s Reg.imgAddr 35 6 * 64) (rdField s Reg.imgLenReg 24 0), effective s u {} = .clean) ∧
      img = memReads 0 s.dram (rdField s Reg.imgAddr 35 6 * 64) (rdField s Reg.imgLenReg 24 0)) ({ wr host Reg.imgLenReg 2 with sec := { host.sec with verifying := true }, mem := { host.mem with granules := [(0, 1)] } }) ([0, 0])) ∧
    ((fun (s : State) (i : Initiator) (v : Word) (a : Activation) =>
      coreAccess s i .sec 0 = true ∧
      s.sec.act = some a ∧
      a.switched = false) ({ host with sec := { host.sec with act := some { slot := 1, digest := 5, cmd := none, svn := 3, keyslot := 2 }, sessions := [{ sid := 3, up := true }] } }) (.sc0) (1) ({ slot := 1, digest := 5, cmd := none, svn := 3, keyslot := 2 })) ∧
    ((fun (s : State) (i : Initiator) (v : Word) =>
      coreAccess s i .sec 0 = true ∧
      s.sec.act = none) (host) (.sc0) (1)) ∧
    ((fun (s : State) (i : Initiator) (v : Word) (a : Activation) =>
      coreAccess s i .sec 0 = true ∧
      s.sec.act = some a ∧
      a.switched = false) ({ host with sec := { host.sec with act := some { slot := 1, digest := 5, cmd := none, svn := 3, keyslot := 2 } } }) (.sc0) (1) ({ slot := 1, digest := 5, cmd := none, svn := 3, keyslot := 2 })) ∧
    ((fun (s : State) (i : Initiator) (v : Word) (a : Activation) =>
      coreAccess s i .sec 0 = true ∧
      s.sec.act = some a ∧
      a.switched = true ∧
      (readHandover s a.digest).2 = true ∧
      s.sec.commit = none) ({ host with sec := { host.sec with act := some { slot := 1, digest := 5, cmd := none, svn := 3, keyslot := 2, switched := true }, handover := handoverBlock 1 0 5 [] } }) (.sc0) (2) ({ slot := 1, digest := 5, cmd := none, svn := 3, keyslot := 2, switched := true })) ∧
    ((fun (s : State) (i : Initiator) (v : Word) (a : Activation) =>
      coreAccess s i .sec 0 = true ∧
      s.sec.act = some a ∧
      a.switched = true ∧
      handoverOk s.sec.handover a.digest.toNat = false) ({ host with sec := { host.sec with act := some { slot := 1, digest := 5, cmd := none, svn := 3, keyslot := 2, switched := true }, handover := [] } }) (.sc0) (2) ({ slot := 1, digest := 5, cmd := none, svn := 3, keyslot := 2, switched := true })) ∧
    ((fun (s : State) (i : Initiator) (v : Word) (a : Activation) (c : Commit) (q : Sqe) =>
      coreAccess s i .sec 0 = true ∧
      s.sec.act = some a ∧
      a.switched = true ∧
      (readHandover s a.digest).2 = true ∧
      s.sec.commit = some c ∧
      c.mute = false ∧
      q = { port := c.port, qid := c.qid, cid := c.cid, nsid := 0 } ∧
      cqReady s q = true) ({ host with sec := { host.sec with act := some { slot := 1, digest := 5, cmd := none, svn := 3, keyslot := 2, switched := true }, commit := some { port := .a, qid := 0, cid := 7, ca := 3, slot := 1 }, handover := handoverBlock 1 0 5 [] } }) (.sc0) (2) ({ slot := 1, digest := 5, cmd := none, svn := 3, keyslot := 2, switched := true }) ({ port := .a, qid := 0, cid := 7, ca := 3, slot := 1 }) ({ port := .a, qid := 0, cid := 7, nsid := 0 })) ∧
    ((fun (s : State) (a : Activation) (slot : Nat) (svn : Nat) (key : Nat) (d : BitVec 512) (com : Bool) =>
      s.sec.act = some a ∧
      a.switched = true ∧
      s.sec.oldImg = some (slot, d, svn, key, com) ∧
      s.sec.commit = none) ({ host with sec := { host.sec with act := some { slot := 1, digest := 5, cmd := none, svn := 3, keyslot := 2, switched := true }, oldImg := some (0, 9, 1, 0, true) } }) ({ slot := 1, digest := 5, cmd := none, svn := 3, keyslot := 2, switched := true }) (0) (1) (0) (9) (true)) := by
  refine ⟨?_, ?_, ?_, ?_, ?_, ?_, ?_, ?_, ?_, ?_⟩ <;> beta_reduce <;> (repeat' first | apply And.intro | apply Calm.mk | apply Canon.mk) <;>
    first | exact units_clean (by decide +kernel) | decide +kernel
/-- Hypotheses of `Obligations.FusesAndKeys`. -/
theorem witness_FusesAndKeys :
    ((fun (s : State) (i : Initiator) (k : Fin 4) =>
      coreAccess s i .sec 0 = true ∧
      s.sec.slots.length = 4) ({ host with sec := { host.sec with depot := true } }) (.sc0) (3)) ∧
    ((fun (s : State) (i : Initiator) (k : Fin 4) =>
      coreAccess s i .sec 0 = true ∧
      s.sec.slots.length = 4) ({ host with sec := { host.sec with depot := true } }) (.sc0) (0)) ∧
    ((fun (s : State) (i : Initiator) (k : Fin 4) =>
      coreAccess s i .sec 0 = true ∧
      s.sec.slots.length = 4) (host) (.sc0) (3)) ∧
    ((fun (s : State) (i : Initiator) (k : Fin 4) =>
      coreAccess s i .sec 0 = true ∧
      s.sec.slots.length = 4) ({ host with sec := { host.sec with depot := true } }) (.sc0) (3)) ∧
    ((fun (s : State) (i : Initiator) (k : Fin 4) =>
      coreAccess s i .sec 0 = true ∧
      s.sec.slots.length = 4) ({ host with sec := { host.sec with depot := true } }) (.sc0) (0)) ∧
    ((fun (s : State) (i : Initiator) (v : Nat) =>
      coreAccess s i .sec 0 = true ∧
      v < 128) ({ host with sec := { host.sec with runSvn := 127, runCommit := true } }) (.sc0) (127)) ∧
    ((fun (s : State) (i : Initiator) (v : Nat) =>
      coreAccess s i .sec 0 = true ∧
      v < 128) ({ host with sec := { host.sec with runSvn := 127, runCommit := true } }) (.sc1) (127)) ∧
    ((fun (s : State) (i : Initiator) (v : Nat) =>
      coreAccess s i .sec 0 = true ∧
      v < 128) ({ host with sec := { host.sec with runSvn := 127, runCommit := true, rootAfter := true } }) (.sc0) (127)) ∧
    ((fun (s : State) (i : Initiator) (salt : Bool) (nsid : Nat) =>
      KeyOp s i nsid) (host) (.sc0) (true) (128)) ∧
    ((fun (s : State) (i : Initiator) (salt : Bool) (nsid : Nat) =>
      KeyOp s i nsid) (host) (.sc0) (true) (128)) ∧
    ((fun (s : State) (i : Initiator) (salt : Bool) (nsid : Nat) =>
      KeyOp s i nsid) (host) (.sc0) (false) (1)) ∧
    ((fun (s : State) (i : Initiator) (nsid : Nat) =>
      KeyOp s i nsid ∧
      nsorted none s.cry.keys = true) (host) (.sc0) (1)) ∧
    ((fun (s : State) (tr : SpdmTransport) =>
      s.chip.held = false) (host) (.smbus)) ∧
    ((fun (s : State) (tr : SpdmTransport) =>
      s.chip.held = false) (host) (.nvme .a)) ∧
    ((fun (s : State) (tr : SpdmTransport) =>
      s.chip.held = false) (host) (.vdm .b)) ∧
    ((fun (s : State) (tr : SpdmTransport) =>
      s.chip.held = false) ({ host with sec := { host.sec with conns := [(.smbus, { version := true }), (.nvme .a, { version := true })] } }) (.smbus)) ∧
    ((fun (s : State) (tr : SpdmTransport) =>
      s.chip.held = false) (host) (.smbus)) ∧
    ((fun (s : State) (tr : SpdmTransport) =>
      s.chip.held = false) ({ host with sec := { host.sec with conns := [(.smbus, { version := true }), (.nvme .a, { version := true })] } }) (.nvme .a)) ∧
    ((fun (s : State) (tr : SpdmTransport) =>
      s.chip.held = false) (host) (.nvme .a)) := by
  refine ⟨?_, ?_, ?_, ?_, ?_, ?_, ?_, ?_, ?_, ?_, ?_, ?_, ?_, ?_, ?_, ?_, ?_, ?_, ?_⟩ <;> beta_reduce <;> (repeat' first | apply And.intro | apply Calm.mk | apply Canon.mk) <;>
    first | decide +kernel
/-- Hypotheses of `Obligations.AttestationSessions`. -/
theorem witness_AttestationSessions :
    ((fun (s : State) (tr : SpdmTransport) =>
      s.chip.held = false ∧
      (connOf s tr).caps = true) ({ host with sec := { host.sec with conns := [(.smbus, { version := true, caps := true }), (.nvme .a, { version := true, caps := true })] } }) (.smbus)) ∧
    ((fun (s : State) (tr : SpdmTransport) =>
      s.chip.held = false ∧
      (connOf s tr).caps = true) ({ host with sec := { host.sec with conns := [(.smbus, { version := true, caps := true }), (.nvme .a, { version := true, caps := true })] } }) (.nvme .a)) ∧
    ((fun (s : State) (tr : SpdmTransport) =>
      s.chip.held = false ∧
      (connOf s tr).algs = true) ({ host with sec := { host.sec with conns := [(.smbus, { version := true, caps := true, algs := true }), (.nvme .a, { version := true, caps := true, algs := true })] } }) (.smbus)) ∧
    ((fun (s : State) (tr : SpdmTransport) =>
      s.chip.held = false ∧
      (connOf s tr).algs = true) ({ host with sec := { host.sec with conns := [(.smbus, { version := true, caps := true, algs := true }), (.nvme .a, { version := true, caps := true, algs := true })] } }) (.nvme .a)) ∧
    ((fun (s : State) (tr : SpdmTransport) (m : Bool) =>
      s.chip.held = false ∧
      (connOf s tr).algs = true) ({ host with sec := { host.sec with conns := [(.smbus, { version := true, caps := true, algs := true }), (.nvme .a, { version := true, caps := true, algs := true })] } }) (.smbus) (true)) ∧
    ((fun (s : State) (tr : SpdmTransport) (m : Bool) =>
      s.chip.held = false ∧
      (connOf s tr).algs = true) ({ host with sec := { host.sec with conns := [(.smbus, { version := true, caps := true, algs := true }), (.nvme .a, { version := true, caps := true, algs := true })], sessions := List.replicate 4 { sid := 3 } } }) (.smbus) (true)) ∧
    ((fun (s : State) (tr : SpdmTransport) (m : Bool) =>
      s.chip.held = false ∧
      (connOf s tr).algs = true) ({ host with sec := { host.sec with conns := [(.smbus, { version := true, caps := true, algs := true }), (.nvme .a, { version := true, caps := true, algs := true })] } }) (.nvme .a) (true)) ∧
    ((fun (s : State) (tr : SpdmTransport) (m : Bool) =>
      s.chip.held = false ∧
      (connOf s tr).algs = true) ({ host with sec := { host.sec with conns := [(.smbus, { version := true, caps := true, algs := true }), (.nvme .a, { version := true, caps := true, algs := true })], sessions := List.replicate 4 { sid := 3 } } }) (.nvme .a) (true)) ∧
    ((fun (s : State) (tr : SpdmTransport) (sid : Nat) (ok : Bool) (hash : BitVec 512) (x : Session) =>
      s.chip.held = false ∧
      findSession s sid = some x ∧
      x.up = false ∧
      (x.mutAuth = true → ok = true)) ({ host with sec := { host.sec with conns := [(.smbus, { version := true, caps := true, algs := true }), (.nvme .a, { version := true, caps := true, algs := true })], sessions := [{ sid := 3, mutAuth := true }] } }) (.smbus) (3) (true) (0) ({ sid := 3, mutAuth := true })) ∧
    ((fun (s : State) (tr : SpdmTransport) (sid : Nat) (ok : Bool) (hash : BitVec 512) (x : Session) =>
      s.chip.held = false ∧
      findSession s sid = some x ∧
      x.up = false ∧
      (x.mutAuth = true → ok = true)) ({ host with sec := { host.sec with conns := [(.smbus, { version := true, caps := true, algs := true }), (.nvme .a, { version := true, caps := true, algs := true })], sessions := [{ sid := 3, mutAuth := true }] } }) (.nvme .a) (3) (true) (0) ({ sid := 3, mutAuth := true })) ∧
    ((fun (s : State) (tr : SpdmTransport) (sid : Nat) (x : Session) =>
      s.chip.held = false ∧
      findSession s sid = some x ∧
      x.up = true) ({ host with sec := { host.sec with conns := [(.smbus, { version := true, caps := true, algs := true }), (.nvme .a, { version := true, caps := true, algs := true })], winA := .openRw, sessions := [{ sid := 3, up := true, windows := [.a] }] } }) (.smbus) (3) ({ sid := 3, up := true, windows := [.a] })) ∧
    ((fun (s : State) (tr : SpdmTransport) (sid : Nat) (x : Session) =>
      s.chip.held = false ∧
      findSession s sid = some x ∧
      x.up = true) ({ host with sec := { host.sec with conns := [(.smbus, { version := true, caps := true, algs := true }), (.nvme .a, { version := true, caps := true, algs := true })], winA := .openRw, sessions := [{ sid := 3, up := true, windows := [.a] }] } }) (.nvme .a) (3) ({ sid := 3, up := true, windows := [.a] })) ∧
    ((fun (s : State) (tr : SpdmTransport) (sid : Nat) (x : Session) =>
      s.chip.held = false ∧
      findSession s sid = some x ∧
      x.up = true) ({ host with sec := { host.sec with conns := [(.smbus, { version := true, caps := true, algs := true }), (.nvme .a, { version := true, caps := true, algs := true })], winA := .openRw, sessions := [{ sid := 3, up := true, windows := [.a] }] } }) (.smbus) (3) ({ sid := 3, up := true, windows := [.a] })) ∧
    ((fun (s : State) (tr : SpdmTransport) (sid : Nat) (x : Session) =>
      s.chip.held = false ∧
      findSession s sid = some x ∧
      x.up = true) ({ host with sec := { host.sec with conns := [(.smbus, { version := true, caps := true, algs := true }), (.nvme .a, { version := true, caps := true, algs := true })], winA := .openRw, sessions := [{ sid := 3, up := true, windows := [.a] }] } }) (.nvme .a) (3) ({ sid := 3, up := true, windows := [.a] })) ∧
    ((fun (s : State) (tr : SpdmTransport) (sid : Nat) (x : Session) =>
      s.chip.held = false ∧
      findSession s sid = some x) ({ host with sec := { host.sec with conns := [(.smbus, { version := true, caps := true, algs := true }), (.nvme .a, { version := true, caps := true, algs := true })], winA := .openRw, sessions := [{ sid := 3, up := true, windows := [.a] }] } }) (.smbus) (3) ({ sid := 3, up := true, windows := [.a] })) ∧
    ((fun (s : State) (tr : SpdmTransport) (sid : Nat) (x : Session) =>
      s.chip.held = false ∧
      findSession s sid = some x) ({ host with sec := { host.sec with conns := [(.smbus, { version := true, caps := true, algs := true }), (.nvme .a, { version := true, caps := true, algs := true })], winA := .openRw, sessions := [{ sid := 3, up := true, windows := [.a] }] } }) (.nvme .a) (3) ({ sid := 3, up := true, windows := [.a] })) ∧
    ((fun (s : State) (sid : Nat) (x : Session) =>
      s.chip.held = false ∧
      findSession s sid = some x ∧
      x.up = true ∧
      x.heartbeat = true) ({ host with sec := { host.sec with conns := [(.smbus, { version := true, caps := true, algs := true }), (.nvme .a, { version := true, caps := true, algs := true })], winA := .openRw, sessions := [{ sid := 3, up := true, windows := [.a] }] } }) (3) ({ sid := 3, up := true, windows := [.a] })) ∧
    ((fun (s : State) (tr : SpdmTransport) (sid : Nat) =>
      s.chip.held = false ∧
      findSession s sid = none) ({ host with sec := { host.sec with conns := [(.smbus, { version := true, caps := true, algs := true }), (.nvme .a, { version := true, caps := true, algs := true })] } }) (.smbus) (3)) ∧
    ((fun (s : State) (tr : SpdmTransport) (sid : Nat) =>
      s.chip.held = false ∧
      findSession s sid = none) ({ host with sec := { host.sec with conns := [(.smbus, { version := true, caps := true, algs := true }), (.nvme .a, { version := true, caps := true, algs := true })] } }) (.nvme .a) (3)) := by
  refine ⟨?_, ?_, ?_, ?_, ?_, ?_, ?_, ?_, ?_, ?_, ?_, ?_, ?_, ?_, ?_, ?_, ?_, ?_, ?_⟩ <;> beta_reduce <;> (repeat' first | apply And.intro | apply Calm.mk | apply Canon.mk) <;>
    first | decide +kernel
/-- Hypotheses of `Obligations.RecorderCommands`. -/
theorem witness_RecorderCommands :
    ((fun (s : State) (i : Initiator) (v : Word) =>
      coreAccess s i .evr 0 = true ∧
      v.toNat < 2 ^ 32 ∧
      0x200 ≤ bitsOf v.toNat 27 16 ∧
      (bucketNow s (bitsOf v.toNat 27 16)).off = false ∧
      tokUnit ≤ (bucketNow s (bitsOf v.toNat 27 16)).level ∧
      s.evr.fifo.length < 64) (setActive host .evr 0 true) (.ap 1) (0x02000001)) ∧
    ((fun (s : State) (i : Initiator) (v : Word) =>
      coreAccess s i .evr 0 = true ∧
      v.toNat < 2 ^ 32 ∧
      0x200 ≤ bitsOf v.toNat 27 16 ∧
      (bucketNow s (bitsOf v.toNat 27 16)).level < tokUnit) ({ (setActive host .evr 0 true) with evr := { host.evr with buckets := [(0x200, { level := 0 })] } }) (.ap 1) (0x02000001)) ∧
    ((fun (s : State) (i : Initiator) (v : Word) =>
      coreAccess s i .evr 0 = true ∧
      v.toNat < 2 ^ 32 ∧
      0x200 ≤ bitsOf v.toNat 27 16 ∧
      (bucketNow s (bitsOf v.toNat 27 16)).off = false ∧
      tokUnit ≤ (bucketNow s (bitsOf v.toNat 27 16)).level ∧
      64 ≤ s.evr.fifo.length ∧
      s.evr.episode = none) ({ (setActive host .evr 0 true) with evr := { host.evr with fifo := List.replicate 64 { code := 1, origin := 0, payload := [] } } }) (.ap 1) (0x02000001)) ∧
    ((fun (s : State) (c : Cand) (r : List Cand) =>
      Writes s c r ∧
      s.evr.next ≠ 4095 ∧
      c.sumOnly = false ∧
      c.marked = false) ({ (setActive host .evr 0 true) with evr := { host.evr with scanned := true, fifo := [{ code := 0x200, origin := 1, payload := [1, 2, 3, 4] }] } }) ({ code := 0x200, origin := 1, payload := [1, 2, 3, 4] }) ([])) ∧
    ((fun (s : State) (c : Cand) (r : List Cand) =>
      Writes s c r ∧
      s.evr.next ≠ 4095 ∧
      c.sumOnly = false ∧
      c.marked = false) ({ (setActive host .evr 0 true) with evr := { host.evr with scanned := true, next := 4096, fifo := [{ code := 0x200, origin := 1, payload := [1, 2, 3, 4] }] } }) ({ code := 0x200, origin := 1, payload := [1, 2, 3, 4] }) ([])) ∧
    ((fun (s : State) (c : Cand) (r : List Cand) (n : Nat) (f : Nat) (l : Nat) =>
      Writes s c r ∧
      s.evr.next ≠ 4095 ∧
      c.sumOnly = false ∧
      c.marked = true ∧
      s.evr.episode = some (n, f, l)) ({ (setActive host .evr 0 true) with evr := { host.evr with scanned := true, fifo := [{ code := 0x200, origin := 1, payload := [1, 2, 3, 4], marked := true }], episode := some (3, 0x200, 0x201) } }) ({ code := 0x200, origin := 1, payload := [1, 2, 3, 4], marked := true }) ([]) (3) (0x200) (0x201)) ∧
    ((fun (s : State) (c : Cand) (r : List Cand) (k : Nat) =>
      Writes s c r ∧
      2 ≤ k) ({ (setActive host .evr 0 true) with evr := { host.evr with scanned := true, fifo := [{ code := 0x200, origin := 1, payload := [1, 2, 3, 4] }] } }) ({ code := 0x200, origin := 1, payload := [1, 2, 3, 4] }) ([]) (2)) ∧
    ((fun (s : State) =>
      s.evr.pace < paceUnit ∧
      s.evr.fifo ≠ []) ({ (setActive host .evr 0 true) with evr := { host.evr with pace := 0, fifo := [{ code := 0x200, origin := 1, payload := [1, 2, 3, 4] }] } })) ∧
    ((fun (s : State) (i : Initiator) (q : Dword) =>
      coreAccess s i .evr 0 = true) (setActive host .evr 0 true) (.sc1) (7)) ∧
    ((fun (s : State) (i : Initiator) (v : Word) =>
      coreAccess s i .evr 0 = true) (setActive host .evr 0 true) (.sc1) (1)) ∧
    ((fun (s : State) (i : Initiator) (v : Word) (c : Nat) (b : Bucket) =>
      coreAccess s i .evr 0 = true ∧
      s.evr.buckets = [(c, b)] ∧
      0 < b.supp ∧
      s.evr.fifo.length < 64) ({ (setActive host .evr 0 true) with evr := { host.evr with buckets := [(0x200, { level := 0, supp := 3 })] } }) (.sc1) (2) (0x200) ({ level := 0, supp := 3 })) ∧
    ((fun (s : State) (i : Initiator) (v : Word) =>
      coreAccess s i .evr 0 = true) ({ { (setActive host .evr 0 true) with evr := { host.evr with flashOnly := true, circ := [(0, .broken 0)] } } with sec := { host.sec with depot := true } }) (.sc1) (4)) ∧
    ((fun (s : State) (i : Initiator) (v : Word) =>
      coreAccess s i .evr 0 = true) ({ (setActive host .evr 0 true) with evr := { host.evr with flashOnly := true, circ := [(0, .broken 0)] } }) (.sc1) (4)) ∧
    ((fun (s : State) (q : Nat) =>
      active s .evr = true ∧
      s.evr.scanning = true ∧
      s.evr.flashOnly = false ∧
      lgNew s = [] ∧
      oneMore (highestSeq s.evr.circ) = q) ({ (setActive host .evr 0 true) with evr := { host.evr with scanning := true } }) (0)) := by
  refine ⟨?_, ?_, ?_, ?_, ?_, ?_, ?_, ?_, ?_, ?_, ?_, ?_, ?_, ?_⟩ <;> beta_reduce <;> (repeat' first | apply And.intro | apply Calm.mk | apply Canon.mk) <;>
    first | decide +kernel
/-- Hypotheses of `Obligations.ThermalCommands`. -/
theorem witness_ThermalCommands :
    ((fun (s : State) (die : List Reading) (ext : List Reading) (rails : List (Option Nat)) (x : Int) =>
      reported s (sensorsRound s die) = some x) (host) (List.replicate 16 (some 2000)) ([]) ([]) (2000)) ∧
    ((fun (s : State) (die : List Reading) (i : Nat) =>
      i < 16 ∧
      isBroken s i = false) (host) ((none :: some 5000 :: List.replicate 14 (some 800))) (0)) ∧
    ((fun (s : State) (die : List Reading) (i : Nat) =>
      i < 16 ∧
      isBroken s i = false) (host) ((none :: some 1900 :: List.replicate 14 (some 800))) (1)) ∧
    ((fun (s : State) (die : List Reading) (i : Nat) =>
      i < 16 ∧
      isBroken s i = false) (host) ((none :: some 1900 :: List.replicate 14 (some 800))) (15)) ∧
    ((fun (s : State) (die : List Reading) (ext : List Reading) (rails : List (Option Nat)) =>
      reported s (sensorsRound s die) = none ∧
      s.thm.noSensor = false) (host) ([]) ([]) ([])) ∧
    ((fun (s : State) (i : Nat) =>
      i < 16 ∧
      isBroken s i = false ∧
      8 ≤ (s.thm.sensors.getD i {}).count ∧
      s.chip.held = false) ({ host with thm := { host.thm with sensors := { count := 8 } :: List.replicate 15 {} } }) (0)) ∧
    ((fun (s : State) (i : Fin 4) =>
      i.val < s.thm.ext.length ∧
      (s.thm.ext.getD i {}).isOver = false ∧
      8 ≤ (s.thm.ext.getD i {}).up ∧
      s.chip.held = false) ({ host with thm := { host.thm with ext := [{}, {}, {}, { enabled := true, up := 8 }] } }) (3)) ∧
    ((fun (s : State) (i : Fin 4) =>
      i.val < s.thm.ext.length ∧
      (s.thm.ext.getD i {}).isOver = true ∧
      8 ≤ (s.thm.ext.getD i {}).down) ({ host with thm := { host.thm with ext := [{}, {}, {}, { enabled := true, isOver := true, down := 8 }] } }) (3)) ∧
    ((fun (s : State) =>
      ((s.thm.warn.inForce = false ∧ 8 ≤ s.thm.warn.up) ∨ (s.thm.warn.inForce = true ∧ 8 ≤ s.thm.warn.down)) ∧
      s.chip.held = false) ({ host with thm := { host.thm with warn := { up := 8 } } })) ∧
    ((fun (s : State) =>
      ((s.thm.warn.inForce = false ∧ 8 ≤ s.thm.warn.up) ∨ (s.thm.warn.inForce = true ∧ 8 ≤ s.thm.warn.down)) ∧
      s.chip.held = false) ({ host with thm := { host.thm with warn := { inForce := true, down := 8 } } })) ∧
    ((fun (s : State) =>
      ((s.thm.throttle.inForce = false ∧ 8 ≤ s.thm.throttle.up) ∨ (s.thm.throttle.inForce = true ∧ 8 ≤ s.thm.throttle.down)) ∧
      s.chip.held = false) ({ host with thm := { host.thm with throttle := { up := 8 } } })) ∧
    ((fun (s : State) =>
      ((s.thm.throttle.inForce = false ∧ 8 ≤ s.thm.throttle.up) ∨ (s.thm.throttle.inForce = true ∧ 8 ≤ s.thm.throttle.down)) ∧
      s.chip.held = false) ({ host with thm := { host.thm with throttle := { inForce := true, down := 8 } } })) ∧
    ((fun (s : State) =>
      s.thm.shutdown = false ∧
      s.chip.powered = true ∧
      s.chip.held = false ∧
      (8 ≤ s.thm.shut.up ∨ s.thm.noSensor = true)) ({ host with thm := { host.thm with shut := { up := 8 } } })) ∧
    ((fun (s : State) =>
      s.thm.shutdown = false ∧
      s.chip.powered = true ∧
      s.chip.held = false ∧
      (8 ≤ s.thm.shut.up ∨ s.thm.noSensor = true)) ({ host with thm := { host.thm with noSensor := true } })) := by
  refine ⟨?_, ?_, ?_, ?_, ?_, ?_, ?_, ?_, ?_, ?_, ?_, ?_, ?_, ?_⟩ <;> beta_reduce <;> (repeat' first | apply And.intro | apply Calm.mk | apply Canon.mk) <;>
    first | decide +kernel
/-- Hypotheses of `Obligations.PowerStates`. -/
theorem witness_PowerStates :
    ((fun (s : State) =>
      s.thm.shutdown = true ∧
      s.thm.noSensor = false ∧
      3750 ≤ s.thm.coolCount ∧
      s.chip.rstLow = false ∧
      s.chip.failLow = false) ({ { host with thm := { host.thm with shutdown := true, coolCount := 3750 } } with chip := { host.chip with held := true, parked := true } })) ∧
    ((fun (s : State) =>
      s.chip.held = false) ({ { host with thm := { host.thm with bandUp := 8, lowest := 4 } } with pwr := { host.pwr with ps := 3 } })) ∧
    ((fun (s : State) =>
      s.chip.held = false) ({ { host with thm := { host.thm with bandDown := 8, temp := 640 } } with pwr := { host.pwr with ps := 3 } })) ∧
    ((fun (s : State) (c : Nat) =>
      s.chip.held = false ∧
      s.pwr.ps < 3 ∧
      8 ≤ s.thm.bandUp ∧
      s.thm.lowest ≠ s.thm.band ∧
      c < 32 ∧
      active s .chn c = true ∧
      (courier s c).reset = false ∧
      fittedCes s c ≠ []) ({ setActive striped .chn 2 true with thm := { striped.thm with bandUp := 8, lowest := 4 } }) (2)) ∧
    ((fun (s : State) (v : Fin 12) (mv : Nat) =>
      v.val < s.thm.rails.length ∧
      8 ≤ (s.thm.rails.getD v {}).count ∧
      (s.thm.rails.getD v {}).mv = some mv ∧
      s.chip.held = false) ({ host with thm := { host.thm with rails := { lo := 700, hi := 900, mv := some 650, count := 8 } :: List.replicate 11 {} } }) (0) (650)) ∧
    ((fun (s : State) (v : Fin 12) (mv : Nat) =>
      v.val < s.thm.rails.length ∧
      8 ≤ (s.thm.rails.getD v {}).count ∧
      (s.thm.rails.getD v {}).mv = some mv ∧
      s.chip.held = false) ({ host with thm := { host.thm with rails := { lo := 700, hi := 900, mv := some 901, count := 8 } :: List.replicate 11 {} } }) (0) (901)) ∧
    ((fun (s : State) (k : Nat) =>
      AtRest s ∧
      s.pwr.want = none ∧
      descent s = some k) (wr rest 0xA0018 5) (4)) ∧
    ((fun (s : State) =>
      ngetD s.portA.feat 0x0C 0 % 2 = 0 ∧
      ngetD s.portB.feat 0x0C 0 % 2 = 0 ∧
      rdField s 0xA0018 15 0 ≠ 0) (wr rest 0xA0018 5)) ∧
    ((fun (s : State) =>
      AtRest s ∧
      s.pwr.want = some 3 ∧
      s.flash.ops = [] ∧
      powerSettled s = true ∧
      dumpRecent s = false) ({ rest with pwr := { rest.pwr with want := some 3 } })) ∧
    ((fun (s : State) =>
      AtRest s ∧
      s.pwr.want = some 4 ∧
      s.flash.ops = [] ∧
      powerSettled s = true ∧
      dumpRecent s = false ∧
      s.phc.st = 2) ({ { rest with pwr := { rest.pwr with want := some 4 } } with phc := { rest.phc with st := 2 } })) := by
  refine ⟨?_, ?_, ?_, ?_, ?_, ?_, ?_, ?_, ?_, ?_⟩ <;> beta_reduce <;> (repeat' first | apply And.intro | apply Calm.mk | apply Canon.mk) <;>
    first | decide +kernel
/-- Hypotheses of `Obligations.SupplyAndPowerFail`. -/
theorem witness_SupplyAndPowerFail :
    ((fun (s : State) (k : Nat) (d : Nat) =>
      s.pwr.want = some k ∧
      s.pwr.defer = false ∧
      s.pwr.dumpAt = some d ∧
      s.clk.tb < d + 250000000 ∧
      deviceIdle s = true ∧
      s.chip.held = false) ({ rest with pwr := { rest.pwr with want := some 3, dumpAt := some 0 } }) (3) (0)) ∧
    ((fun (s : State) (k : Nat) (x0 : Int) (r : List Int) (m : Int) (a : Avfs) =>
      k < 47 ∧
      m = r.foldl min x0 ∧
      a = ngetD s.pwr.avfs k {}) ({ wr rest Reg.pwrAvcfg 0x1405 with pwr := { rest.pwr with avfs := [(46, { volt := 3, vmin := 1, vmax := 3 })] } }) (46) (400) ([-1]) (-1) ({ volt := 3, vmin := 1, vmax := 3 })) ∧
    ((fun (s : State) (k : Nat) (x0 : Int) (r : List Int) (m : Int) (a : Avfs) =>
      k < 47 ∧
      m = r.foldl min x0 ∧
      a = ngetD s.pwr.avfs k {}) ({ wr rest Reg.pwrAvcfg 0x1405 with pwr := { rest.pwr with avfs := [(46, { volt := 3, vmin := 1, vmax := 3 })] } }) (46) (400) ([300]) (300) ({ volt := 3, vmin := 1, vmax := 3 })) ∧
    ((fun (s : State) (k : Nat) (x0 : Int) (r : List Int) (m : Int) (a : Avfs) =>
      k < 47 ∧
      m = r.foldl min x0 ∧
      a = ngetD s.pwr.avfs k {}) ({ wr rest Reg.pwrAvcfg 0x1405 with pwr := { rest.pwr with avfs := [(46, { volt := 3, vmin := 1, vmax := 3 })] } }) (46) (400) ([5]) (5) ({ volt := 3, vmin := 1, vmax := 3 })) ∧
    ((fun (s : State) (k : Nat) (x0 : Int) (r : List Int) (m : Int) (a : Avfs) =>
      k < 47 ∧
      m = r.foldl min x0 ∧
      a = ngetD s.pwr.avfs k {}) ({ wr rest Reg.pwrAvcfg 0x1405 with pwr := { rest.pwr with avfs := [(46, { volt := 3, vmin := 1, vmax := 3 })] } }) (46) (400) ([0]) (0) ({ volt := 3, vmin := 1, vmax := 3 })) ∧
    ((fun (s : State) (i : Initiator) (v : Word) =>
      coreAccess s i .pwr 0 = true ∧
      v.toNat % 64 ≤ 46) (rest) (.sc0) (46)) ∧
    ((fun (s : State) (n : Nat) =>
      500 ≤ n ∧
      s.chip.powered = true ∧
      s.thm.shutdown = false ∧
      s.chip.parked = false ∧
      active s .jrc = true ∧
      active s .str = true ∧
      s.pwr.ps < 3 ∧
      s.jrc.gseq < 2 ^ 64 ∧
      (∀ x, newestDump s.jrc = some x → x.2.dseq + 1 < 2 ^ 64)) (on (on rest .jrc) .str) (500)) ∧
    ((fun (s : State) =>
      s.chip.powered = true ∧
      s.chip.failLow = true ∧
      s.chip.parked = true ∧
      s.chip.kind ≠ 1 ∧
      s.chip.rstLow = false) ({ rest with chip := { rest.chip with failLow := true, parked := true, held := true, kind := 3 } })) ∧
    ((fun (s : State) =>
      s.chip.powered = false) (State.reset)) ∧
    ((fun (s : State) =>
      s.chip.powered = true ∧
      s.boot.op = none) (rest)) := by
  refine ⟨?_, ?_, ?_, ?_, ?_, ?_, ?_, ?_, ?_, ?_⟩ <;> beta_reduce <;> (repeat' first | apply And.intro | apply Calm.mk | apply Canon.mk) <;>
    first | decide +kernel
/-- Hypotheses of `Obligations.ResetCommands`. -/
theorem witness_ResetCommands :
    ((fun (s : State) =>
      s.chip.powered = true ∧
      s.chip.held = true ∧
      s.chip.failLow = false ∧
      s.chip.kind = 3 ∧
      s.thm.shutdown = false ∧
      bankInUse s 1 = none) ({ wr rest 0xE0018 4 with chip := { rest.chip with held := true, kind := 3 } })) ∧
    ((fun (s : State) =>
      s.chip.powered = true ∧
      s.chip.held = true ∧
      s.chip.failLow = true ∧
      s.chip.kind ≠ 1) ({ rest with chip := { rest.chip with held := true, kind := 3, failLow := true } })) ∧
    ((fun (s : State) (i : Initiator) (v : Word) =>
      coreAccess s i .cfg 0 = true) (rest) (.sc0) (1)) ∧
    ((fun (s : State) (i : Initiator) =>
      NorFree s i) (wr (wr rest Reg.norLen 64) Reg.norAddr 67108800) (.sc0)) ∧
    ((fun (s : State) (i : Initiator) =>
      NorFree s i) (wr (wr rest Reg.norLen 64) Reg.norAddr 67108801) (.sc0)) ∧
    ((fun (s : State) (i : Initiator) =>
      NorFree s i ∧
      BufferClean s) ({ wr (wr rest Reg.norLen 4096) Reg.norAddr 0x220000 with mem := { rest.mem with granules := [(0, 1)] } }) (.sc1)) ∧
    ((fun (s : State) (i : Initiator) =>
      NorFree s i ∧
      BufferClean s) ({ wr (wr rest Reg.norLen 4096) Reg.norAddr 0x21F000 with mem := { rest.mem with granules := [(0, 1)] } }) (.sc1)) ∧
    ((fun (s : State) (i : Initiator) =>
      NorFree s i ∧
      BufferClean s) ({ wr (wr rest Reg.norLen 64) Reg.norAddr 0 with mem := { rest.mem with granules := [(0, 1)] } }) (.sc0)) := by
  refine ⟨?_, ?_, ?_, ?_, ?_, ?_, ?_, ?_⟩ <;> beta_reduce <;> (repeat' first | apply And.intro | apply Calm.mk | apply Canon.mk) <;>
    first | exact units_clean (by decide +kernel) | exact units_clean (by decide +kernel) | decide +kernel
/-- Hypotheses of `Obligations.NorCommands`. -/
theorem witness_NorCommands :
    ((fun (s : State) (i : Initiator) (n : Nat) =>
      NorFree s i ∧
      BufferClean s ∧
      n = countImgs 33 (norBuffer s)) ({ wr (wr rest Reg.norLen 64) Reg.norAddr 0 with mem := { rest.mem with granules := [(0, 1)] } }) (.sc0) (1)) ∧
    ((fun (s : State) (i : Initiator) (slot : Bool) (k : Nat) =>
      NorFree s i ∧
      BufferClean s ∧
      k = (if slot then 1 else 0)) ({ wr rest Reg.norLen 64 with boot := { rest.boot with nor := [(0x1000010, 0), (0x1000011, 0), (0x1000012, 0), (0x1000013, 0), (0x2000010, 0), (0x2000011, 0), (0x2000012, 0), (0x2000013, 0)] }, mem := { rest.mem with granules := [(0, 1)] } }) (.sc0) (true) (1)) ∧
    ((fun (s : State) (i : Initiator) (slot : Bool) (k : Nat) =>
      NorFree s i ∧
      BufferClean s ∧
      k = (if slot then 1 else 0) ∧
      recordInForce s = none) ({ rest with boot := { rest.boot with nor := [(0x1000010, 0), (0x1000011, 0), (0x1000012, 0), (0x1000013, 0), (0x2000010, 0), (0x2000011, 0), (0x2000012, 0), (0x2000013, 0)] }, mem := { rest.mem with granules := [(0, 1)] } }) (.sc0) (true) (1)) ∧
    ((fun (s : State) (i : Initiator) (slot : Bool) (com : Bool) =>
      NorFree s i ∧
      s.sec.depot = false) (rest) (.sc0) (true) (true)) ∧
    ((fun (s : State) (i : Initiator) =>
      NorFree s i) ({ rest with mem := { rest.mem with granules := [(0, 1)] } }) (.sc0)) ∧
    ((fun (s : State) (i : Initiator) =>
      NorFree s i) ({ rest with sec := { rest.sec with depot := true }, mem := { rest.mem with granules := [(0, 1)] } }) (.sc0)) ∧
    ((fun (s : State) (o : NorOp) =>
      s.boot.op = some o ∧
      o.commit = false ∧
      o.refused = false ∧
      (o.op = 2 ∨ o.op = 3 ∨ o.op = 4 ∨ o.op = 5) ∧
      s.sec.commit = none ∧
      s.sec.store = none ∧
      memWf 0xFF s.boot.nor = true ∧
      o.result < 8) ({ rest with boot := { rest.boot with op := some { op := 2, addr := 0x220000, data := [1, 2, 3] } } }) ({ op := 2, addr := 0x220000, data := [1, 2, 3] })) ∧
    ((fun (s : State) (o : NorOp) =>
      s.boot.op = some o ∧
      o.commit = false ∧
      o.refused = false ∧
      o.op = 1 ∧
      s.sec.commit = none ∧
      s.sec.store = none ∧
      memWf 0 s.dram = true ∧
      s.mem.merge = [] ∧
      o.result < 8) ({ rest with boot := { rest.boot with op := some { op := 1, addr := 0, data := [1, 2, 3] } } }) ({ op := 1, addr := 0, data := [1, 2, 3] })) := by
  refine ⟨?_, ?_, ?_, ?_, ?_, ?_, ?_, ?_⟩ <;> beta_reduce <;> (repeat' first | apply And.intro | apply Calm.mk | apply Canon.mk) <;>
    first | exact units_clean (by decide +kernel) | exact units_clean (by decide +kernel) | exact units_clean (by decide +kernel) | exact units_clean (by decide +kernel) | decide +kernel
/-- Hypotheses of `Obligations.NorAccesses`. -/
theorem witness_NorAccesses :
    ((fun (s : State) (o : NorOp) (m : Bool) (x : Bool) =>
      s.boot.op = some o ∧
      o.commit = false ∧
      o.refused = true ∧
      s.sec.commit = none ∧
      s.sec.store = none ∧
      o.result < 8) ({ rest with boot := { rest.boot with op := some { op := 2, addr := 0, data := [], refused := true, result := 7 } } }) ({ op := 2, addr := 0, data := [], refused := true, result := 7 }) (true) (true)) ∧
    ((fun (s : State) (o : NorOp) (m : Bool) (x : Bool) =>
      s.boot.op = some o ∧
      o.commit = false ∧
      o.refused = false ∧
      s.sec.commit = none ∧
      s.sec.store = none ∧
      (m = true ∨ x = true) ∧
      o.result < 8) ({ rest with boot := { rest.boot with op := some { op := 2, addr := 0x220000, data := [1, 2, 3] } } }) ({ op := 2, addr := 0x220000, data := [1, 2, 3] }) (true) (false)) ∧
    ((fun (s : State) (o : NorOp) (m : Bool) (x : Bool) =>
      s.boot.op = some o ∧
      o.commit = false ∧
      o.refused = false ∧
      s.sec.commit = none ∧
      s.sec.store = none ∧
      (m = true ∨ x = true) ∧
      o.result < 8) ({ rest with boot := { rest.boot with op := some { op := 2, addr := 0x220000, data := [1, 2, 3] } } }) ({ op := 2, addr := 0x220000, data := [1, 2, 3] }) (false) (true)) ∧
    ((fun (s : State) (i : Initiator) (off : Nat) (w : Nat) =>
      isCore i = true ∧
      off < 0x4000000 ∧
      s.boot.op = none) (rest) (.ap 3) (0x3FFFFFF) (70000)) ∧
    ((fun (s : State) (i : Initiator) (off : Nat) (w : Nat) (o : NorOp) =>
      isCore i = true ∧
      off < 0x4000000 ∧
      s.boot.op = some o ∧
      o.refused = false ∧
      o.op ≠ 1 ∧
      o.suspended = false) ({ rest with boot := { rest.boot with op := some { op := 2, addr := 0x220000, data := [1, 2, 3] } } }) (.ap 3) (0x220002) (0) ({ op := 2, addr := 0x220000, data := [1, 2, 3] })) ∧
    ((fun (s : State) (i : Initiator) (off : Nat) (w : Nat) (o : NorOp) =>
      isCore i = true ∧
      off < 0x4000000 ∧
      s.boot.op = some o ∧
      o.refused = false ∧
      o.op ≠ 1 ∧
      o.suspended = false) ({ rest with boot := { rest.boot with op := some { op := 2, addr := 0x220000, data := [1, 2, 3] } } }) (.ap 3) (0x230000) (0) ({ op := 2, addr := 0x220000, data := [1, 2, 3] })) ∧
    ((fun (s : State) (w : Nat) (o : NorOp) =>
      s.boot.op = some o ∧
      o.erasing = true ∧
      o.suspended = false ∧
      s.boot.waiting ≠ []) ({ rest with boot := { rest.boot with op := some { op := 2, addr := 0x220000, data := [1, 2, 3] }, waiting := [(.ap 3, 65)] } }) (5) ({ op := 2, addr := 0x220000, data := [1, 2, 3] })) ∧
    ((fun (s : State) (o : NorOp) =>
      s.boot.op = some o ∧
      o.suspended = true ∧
      s.boot.waiting = []) ({ rest with boot := { rest.boot with op := some { op := 2, addr := 0x220000, data := [1, 2, 3], suspended := true } } }) ({ op := 2, addr := 0x220000, data := [1, 2, 3], suspended := true })) ∧
    ((fun (s : State) (o : NorOp) =>
      s.boot.op = some o) ({ rest with boot := { rest.boot with op := some { op := 2, addr := 0x220000, data := [1, 2, 3] }, waiting := [(.ap 3, 65)] } }) ({ op := 2, addr := 0x220000, data := [1, 2, 3] })) := by
  refine ⟨?_, ?_, ?_, ?_, ?_, ?_, ?_, ?_, ?_⟩ <;> beta_reduce <;> (repeat' first | apply And.intro | apply Calm.mk | apply Canon.mk) <;>
    first | decide +kernel
/-- Hypotheses of `Obligations.StartUpAndWake`. -/
theorem witness_StartUpAndWake :
    ((fun (s : State) (k : Nat) =>
      s.chip.powered = true ∧
      s.chip.held = true ∧
      s.chip.failLow = false ∧
      s.chip.kind = k ∧
      1 ≤ k ∧
      k ≤ 4 ∧
      s.thm.shutdown = false) ({ rest with chip := { rest.chip with held := true, kind := 4 } }) (4)) ∧
    ((fun (s : State) (k : Nat) =>
      s.chip.powered = true ∧
      s.chip.held = true ∧
      s.chip.failLow = false ∧
      s.chip.kind = k ∧
      1 ≤ k ∧
      k ≤ 4 ∧
      s.thm.shutdown = false) ({ rest with chip := { rest.chip with held := true, kind := 1 } }) (1)) ∧
    ((fun (s : State) =>
      s.chip.wakeWait = true ∧
      s.chip.held = false ∧
      wakeDue s = true) ({ host with chip := { host.chip with wakeWait := true }, clk := { host.clk with tb := 240000000 } })) ∧
    ((fun (s : State) =>
      s.chip.wakeWait = true ∧
      s.chip.held = false ∧
      halted s = false ∧
      wakeDue s = true ∧
      s.boot.rankFail = false) ({ rest with chip := { rest.chip with wakeWait := true }, clk := { rest.clk with tb := 240000000 } })) ∧
    ((fun (s : State) =>
      3 ≤ s.pwr.ps ∧
      s.pwr.transit = false) ({ rest with pwr := { rest.pwr with ps := 4, lastOp := 1 } })) ∧
    ((fun (s : State) (seg : Nat) =>
      s.phc.lost = [seg]) ({ host with phc := { host.phc with lost := [7] } }) (7)) := by
  refine ⟨?_, ?_, ?_, ?_, ?_, ?_⟩ <;> beta_reduce <;> (repeat' first | apply And.intro | apply Calm.mk | apply Canon.mk) <;>
    first | decide +kernel

/-- A firmware image of one payload block: MAGIC, FORMAT, HWID, HWREV, PAYLEN, RESLEN, every other byte zero. -/
def imgBytes : List Byte :=
  pageOf 1220 [(0, 4, 0x53494D47), (4, 2, 1), (6, 2, 0x7400), (8, 2, 1), (16, 4, 64), (20, 4, 64)]
/-- Bytes at consecutive addresses, as a table. -/
def placed : Nat → List Byte → NMap Byte
  | _, [] => []
  | a, b :: l => (a, b) :: placed (a + 1) l
theorem memReads_below {d b : Byte} {a : Nat} {m : NMap Byte} : ∀ (n c : Nat), a < c → memReads d ((a, b) :: m) c n = memReads d m c n
  | 0, _, _ => rfl
  | n + 1, c, h => by
    simp only [memReads, memRead, ngetD, nget, if_neg (Nat.ne_of_gt h), if_neg (Nat.not_lt_of_gt h)]
    exact congrArg _ (memReads_below n (c + 1) (Nat.lt_succ_of_lt h))
theorem memReads_placed (d : Byte) : ∀ (l : List Byte) (a n : Nat), n ≤ l.length → memReads d (placed a l) a n = l.take n
  | _, _, 0, _ => rfl
  | [], _, _ + 1, h => absurd h (Nat.not_succ_le_zero _)
  | b :: l, a, n + 1, h => by
    rw [placed, memReads, memReads_below _ _ (Nat.lt_succ_self a), memReads_placed d l _ _ (Nat.le_of_succ_le_succ h)]
    simp [memRead, ngetD, nget]
/-- A unit that holds the image's key and, in NOR slot 1, the image, and whose host has downloaded it. -/
def loaded : State :=
  { host with
    sec := { host.sec with slots := [{ programmed := true, keyhash := Config.sha512 (slice imgBytes 512 133) }], dlA := placed 0 imgBytes, dlEndA := 1220 }
    boot := { host.boot with nor := placed (slotOff 1) imgBytes } }
theorem slotImage_placed {s : State} (h0 : s.boot.nor = placed (slotOff 1) imgBytes) : slotImage s 1 = imgBytes := by
  have hl : imgBytes.length = 1220 := by decide +kernel
  have hm : fieldAt (imgBytes.take 24) 0 4 = 0x53494D47 := by decide +kernel
  have hn : min 16777216 (1156 + fieldAt (imgBytes.take 24) 16 4) = 1220 := by decide +kernel
  simp only [slotImage, norBytes, h0]
  rw [memReads_placed _ _ _ 24 (by omega), if_pos hm, hn, memReads_placed _ _ _ 1220 (by omega), ← hl, List.take_length]
/-- The two outcomes of the cryptography that acceptance needs of the image: what SHA-512 gives of its payload is its PAYHASH,
and its signature verifies. -/
def Genuine : Prop :=
  Config.sha512 (slice imgBytes 1024 (fieldAt imgBytes 16 4)) = BitVec.ofNat 512 (fieldAt imgBytes 448 64) ∧
    Config.ecdsaVerify (slice imgBytes 512 133) (imgBytes.take 1024) (slice imgBytes (1024 + fieldAt imgBytes 16 4) 132) = true
theorem accept_genuine (g : Genuine) {s : State} (h : s.sec = loaded.sec) : accept s imgBytes = 0 := by
  have hf : imageForm imgBytes = true := by decide +kernel
  have hk : keyOk s (fieldAt imgBytes 11 1) (slice imgBytes 512 133) = true := by
    have e : fieldAt imgBytes 11 1 = 0 := by decide +kernel
    have hs : s.sec.slots = [{ programmed := true, keyhash := Config.sha512 (slice imgBytes 512 133) }] := by rw [h]; rfl
    rw [e]
    simp [keyOk, usableSlot, hs, KeySlot.usable]
  have h4 : (fieldAt imgBytes 6 2 != 0x7400 || fieldAt imgBytes 8 2 % 2 == 0) = false := by decide +kernel
  have h5 : ¬ 0 < fieldAt imgBytes 36 1 := by decide +kernel
  have h6 : ¬ fieldAt imgBytes 10 1 < s.sec.minsvn := by rw [h]; decide +kernel
  have h3 : (Config.sha512 (slice imgBytes 1024 (fieldAt imgBytes 16 4)) != BitVec.ofNat 512 (fieldAt imgBytes 448 64) ||
      !Config.ecdsaVerify (slice imgBytes 512 133) (imgBytes.take 1024) (slice imgBytes (1024 + fieldAt imgBytes 16 4) 132)) = false := by
    simp [g.1, g.2]
  simp only [accept, hf, hk, h3, h4, Bool.not_true, Bool.false_eq_true, if_false, if_neg h5, if_neg h6]
theorem witness_firmwareCommit (g : Genuine) :
    CommitsImage loaded vend 2 imgBytes ∧ anyFormat loaded = false ∧
    (AdmClean loaded vend ∧ 2 ≤ 2 ∧ loaded.sec.commit = none ∧ accept loaded (slotImage loaded (commitSlot loaded 2)) = 0) := by
  have hc : AdmClean loaded vend ∧ loaded.sec.commit = none ∧ loaded.boot.op = none ∧ commitSlot loaded 2 ≠ runningSlot loaded ∧
      bufferImage loaded vend.port = some imgBytes ∧ anyFormat loaded = false := by
    repeat' apply And.intro
    all_goals decide +kernel
  have hk : commitSlot loaded 2 = 1 := by decide +kernel
  refine ⟨⟨hc.1, Nat.le_refl 2, hc.2.1, hc.2.2.1, hc.2.2.2.1, hc.2.2.2.2.1, accept_genuine g rfl⟩, hc.2.2.2.2.2,
    hc.1, Nat.le_refl 2, hc.2.1, ?_⟩
  rw [hk, slotImage_placed rfl]
  exact accept_genuine g rfl
/-- The same unit as a member of a group whose activation's time has come. -/
def dueMember : State :=
  { loaded with ring := { loaded.ring with st := .member, act := some (digest16 imgBytes, 0, 0) } }
theorem witness_activationTime (g : Genuine) :
    dueMember.ring.act = some (digest16 (slotImage dueMember (1 - runningSlot dueMember)), 0, 0) ∧ dueMember.sec.act = none ∧
      dueMember.ring.st = .member ∧ 0 + dueMember.ring.addr.getD 0 * 0 * 250000 ≤ groupTime dueMember ∧
      accept dueMember (slotImage dueMember (1 - runningSlot dueMember)) = 0 := by
  have hr : 1 - runningSlot dueMember = 1 := by decide +kernel
  rw [hr, slotImage_placed (s := dueMember) rfl]
  exact ⟨rfl, rfl, rfl, by rw [Nat.mul_zero, Nat.zero_mul]; exact Nat.zero_le _, accept_genuine g rfl⟩

/-- One state in which every operation that a trigger starts is running: each inner premise of `triggerWhileRunning`. -/
def allRunning : State :=
  { striped with
    flash := { striped.flash with chn := [(2, { reset := true, wantTrain := some 1 })] }
    phc := { striped.phc with rng := some { lo := 5, hi := 6, op := 1 } }
    jrc := { striped.jrc with hold := true }
    boot := { striped.boot with op := some { op := 5, addr := 0, data := [] } }
    mem := { striped.mem with scrub := some (1, 0, 0, 64), zf := some (1, 3) }
    map := { striped.map with scanning := true }
    sec := { striped.sec with verifying := true }
    pat := { striped.pat with search := some [] } }
theorem witness_triggerWhileRunning :
    ((courier allRunning 2).training.isSome || (courier allRunning 2).wantTrain.isSome) = true ∧ coreAccess allRunning .sc0 .chn 2 = true ∧
    coreAccess allRunning .sc0 .phc 0 = true ∧ allRunning.phc.rng.isSome = true ∧
    coreAccess allRunning .sc0 .jrc 0 = true ∧ (allRunning.jrc.hold || allRunning.jrc.committing) = true ∧
    coreAccess allRunning .sc0 .cfg 0 = true ∧ allRunning.boot.op.isSome = true ∧
    coreAccess allRunning .sc0 .scb 0 = true ∧ allRunning.mem.scrub.isSome = true ∧
    coreAccess allRunning .sc0 .pwr 0 = true ∧ bitOf (4 : Word).toNat 2 = true ∧
    ((List.range 32).all fun c => !bitOf (4 : Word).toNat c || (courier allRunning c).reset) = true ∧
    coreAccess allRunning .sc0 .map 0 = true ∧ allRunning.map.scanning = true ∧
    coreAccess allRunning .sc0 .drc 0 = true ∧ allRunning.mem.zf.isSome = true ∧
    coreAccess allRunning .sc0 .sec 0 = true ∧ allRunning.sec.verifying = true ∧
    coreAccess allRunning .sc0 .pat 0 = true ∧ allRunning.pat.search.isSome = true := by
  repeat' apply And.intro
  all_goals decide +kernel

end Sys2Proof.Tests
end

section
/-! PROOFS. Register accesses: what a read and a write come to once they reach the register space, what a faulty access does
(R45), and the order of the checks (R46). Settles O9, O10 and O11. -/

namespace Sys2Proof.Machine

variable {s : State}

/-! ## Accesses that reach the register space -/

theorem readAccess_reaches {i : Initiator} {a size : Nat} (h : Claims.ReadReaches s i a size) :
    readAccess s i a size = emit (regRead s i a size).1 (.readValue i (regRead s i a size).2) := by
  obtain ⟨hacc, hwin⟩ := h
  simp [readAccess, hacc, hwin]

theorem writeAccess_reaches {i : Initiator} {a : Nat} (h : Claims.WriteReaches s i a) (size v : Nat) (e : Extra) :
    writeAccess s i a size v e = regWrite s i a size v e := by
  obtain ⟨hacc, hwin⟩ := h
  simp [writeAccess, hacc, hwin]

/-- No window stands between a core and the register space. -/
theorem readReaches_core {i : Initiator} (hc : isCore i = true) (ha : canAccess s i = true) (a size : Nat) :
    Claims.ReadReaches s i a size := by
  refine ⟨ha, ?_⟩
  cases i with
  | bar2 p => cases hc
  | ap k => rfl
  | sc0 => rfl
  | sc1 => rfl

theorem writeReaches_core {i : Initiator} (hc : isCore i = true) (ha : canAccess s i = true) (a : Nat) :
    Claims.WriteReaches s i a := by
  refine ⟨ha, ?_⟩
  cases i with
  | bar2 p => cases hc
  | ap k => rfl
  | sc0 => rfl
  | sc1 => rfl

theorem coreAccess_iff {i : Initiator} {b : Blk} {u : Nat} :
    coreAccess s i b u = true ↔ isCore i = true ∧ canAccess s i = true ∧ islandRuns s b u = true := by
  simp [coreAccess, and_assoc]

/-- A read command that reaches the register space sends what the register space answers. -/
theorem completes_read {i : Initiator} {a size : Nat} {P : State → Prop} (h : Claims.ReadReaches s i a size)
    (hp : P (emit (regRead s i a size).1 (.readValue i (regRead s i a size).2))) :
    Completes (.faultyRegisterRead i a size) s P :=
  ⟨_, rfl, by rw [readAccess_reaches h]; exact hp⟩

/-- A write command that reaches the register space does what the register space does with it. -/
theorem completes_write {i : Initiator} {a size : Nat} {v : Dword} {P : State → Prop} (h : Claims.WriteReaches s i a)
    (hp : P (regWrite s i a size v.toNat {})) : Completes (.registerWrite i a size v) s P :=
  ⟨_, rfl, by rw [writeAccess_reaches h]; exact hp⟩

/-! ## What a faulty access does (R45) -/

/-- The two registers that a faulty access writes, before any raise: its status bit, and the capture where no fault was. -/
def faultNoted (s : State) (b : Blk) (u bit kind init off : Nat) : State :=
  wr (if bitsOf (rd s (Reg.sts b u)) 2 0 = 0 then
      wr s (Reg.errAddr b u) (2 ^ 31 + kind * 2 ^ 20 + init * 2 ^ 16 + off % 2 ^ 16) else s)
    (Reg.sts b u) (rd s (Reg.sts b u) ||| 2 ^ bit)

/-- A faulty access notes the fault, and raises the block's register-error source for a 0-to-1 transition. -/
theorem accessFault_eq (s : State) (b : Blk) (u bit kind init off : Nat) :
    accessFault s b u bit kind init off =
      if bitOf (rd s (Reg.sts b u)) bit then faultNoted s b u bit kind init off
      else (errSource b u).elim (faultNoted s b u bit kind init off) fun n =>
        raiseWith (faultNoted s b u bit kind init off) n (blockPayload (faultNoted s b u bit kind init off) n true) := by
  unfold accessFault faultNoted
  cases errSource b u <;> rfl

theorem sts_ne_errAddr (b : Blk) (u : Nat) : Reg.sts b u ≠ Reg.errAddr b u := by simp [Reg.errAddr, Reg.sts]

theorem rd_faultNoted_sts (b : Blk) (u bit kind init off : Nat) :
    rd (faultNoted s b u bit kind init off) (Reg.sts b u) = (rd s (Reg.sts b u) ||| 2 ^ bit) % 2 ^ 64 := rd_wr_same _ _ _

theorem rd_faultNoted_errAddr (b : Blk) (u bit kind init off : Nat) (h : rdField s (Reg.sts b u) 2 0 ≠ 0) :
    rd (faultNoted s b u bit kind init off) (Reg.errAddr b u) = rd s (Reg.errAddr b u) := by
  rw [faultNoted, rd_wr_other _ _ (sts_ne_errAddr b u).symm]
  exact congrArg (rd · (Reg.errAddr b u)) (if_neg h)

theorem rd_faultNoted_other {a : Nat} (b : Blk) (u bit kind init off : Nat) (h1 : a ≠ Reg.sts b u) (h2 : a ≠ Reg.errAddr b u) :
    rd (faultNoted s b u bit kind init off) a = rd s a := by
  rw [faultNoted, rd_wr_other _ _ h1]
  split
  · exact rd_wr_other _ _ h2
  · rfl

theorem faultNoted_frame (b : Blk) (u bit kind init off : Nat) : OnlyChanges [.regs] s (faultNoted s b u bit kind init off) := by
  refine wr_frame ?_ (by decide)
  split
  · exact wr_frame (OnlyChanges.refl _ s) (by decide)
  · exact OnlyChanges.refl _ s

/-- Outside what a raise changes, the registers after a faulty access are those it noted. -/
theorem rd_accessFault {a : Nat} (b : Blk) (u bit kind init off : Nat) (h : signalReg a = false) :
    rd (accessFault s b u bit kind init off) a = rd (faultNoted s b u bit kind init off) a := by
  rw [accessFault_eq]
  split
  · rfl
  · cases errSource b u with
    | none => rfl
    | some n => exact rd_raiseWith _ _ _ _ h

theorem rd_accessFault_other {a : Nat} (b : Blk) (u bit kind init off : Nat) (h : signalReg a = false)
    (h1 : a ≠ Reg.sts b u) (h2 : a ≠ Reg.errAddr b u) : rd (accessFault s b u bit kind init off) a = rd s a := by
  rw [rd_accessFault _ _ _ _ _ _ h, rd_faultNoted_other _ _ _ _ _ _ h1 h2]

/-- The register-error sources are none of the reserved ones (Table 2-12). -/
theorem errSource_ordinary {b : Blk} {u n : Nat} (hu : u < 32) (h : errSource b u = some n) : n < 248 ∧ (n < 157 ∨ 159 < n) := by
  cases b <;> simp only [errSource, Option.some.injEq, reduceCtorEq] at h <;> omega

/-- A status register holds a 64-bit number, at reset too. -/
theorem rd_sts_lt {b : Blk} {u : Nat} (hu : u < 32) : rd s (Reg.sts b u) < 2 ^ 64 := by
  have hreset : ∀ k : Fin 32, resetAt (Reg.sts b k) < 2 ^ 64 := by cases b <;> decide +kernel
  unfold rd
  cases nget s.regs (Reg.sts b u) with
  | none => exact hreset ⟨u, hu⟩
  | some v => exact v.isLt

theorem or_two_pow_lt {x bit : Nat} (hx : x < 2 ^ 64) (hb : bit < 3) : (x ||| 2 ^ bit) % 2 ^ 64 = x ||| 2 ^ bit :=
  Nat.mod_eq_of_lt (Nat.or_lt_two_pow hx (Nat.pow_lt_pow_right (by decide) (by omega)))

theorem signalReg_iff {a : Nat} : signalReg a = true ↔ (0x100040 ≤ a ∧ a < 0x100340) ∨ a = 0xD0038 ∨ a = 0xD003C := by
  simp [signalReg, or_assoc]

theorem signalReg_srcPend {n : Nat} (h : n < 256) : signalReg (Reg.srcPend (n / 32)) = true := by
  rw [signalReg_iff, Reg.srcPend]
  omega

/-- The report of a fault sets no source pending by itself. -/
theorem raised_faultNoted {n : Nat} (hn : n < 256) (b : Blk) (u bit kind init off : Nat) :
    raised (faultNoted s b u bit kind init off) n = raised s n := by
  have hp := signalReg_srcPend hn
  have h1 : Reg.srcPend (n / 32) ≠ Reg.sts b u := fun h => by rw [h, signalReg_sts] at hp; cases hp
  have h2 : Reg.srcPend (n / 32) ≠ Reg.errAddr b u := fun h => by rw [h, signalReg_errAddr] at hp; cases hp
  rw [raised, raised, rd_faultNoted_other _ _ _ _ _ _ h1 h2]

/-! ## What a read leaves of the registers -/

theorem rd_undeliverable {a : Nat} (b : Blk) (u : Nat) (h : signalReg a = false) (h1 : a ≠ Reg.pwrUndeliv) (h2 : a ≠ Reg.pwrCause) :
    rd (undeliverable s b u) a = rd s a := by
  unfold undeliverable
  rw [rd_raise _ _ h, rd_orReg_other _ h2, rd_satAdd_other _ h1, rd_wrField_other _ h1]

theorem rd_denyAccess {a : Nat} (p : Port) (h : signalReg a = false) (h1 : a ≠ Reg.secDeny) (h2 : a ≠ Reg.secCause) :
    rd (denyAccess s p) a = rd s a := by
  unfold denyAccess secCauseSet
  rw [rd_setCause _ h h2]
  cases p <;> exact rd_satAdd_other _ h1

theorem rd_noteRead (b : Blk) (o a : Nat) : rd (noteRead s b o) a = rd s a := by
  unfold noteRead
  split <;> rfl

/-- All that a read does to the state: the report of a hole, of an island that does not run or of a faulty access, and the note of a
read of MAP_RMWCNT. -/
theorem regRead_cases (s : State) (i : Initiator) (off size : Nat) :
    (regRead s i off size).1 = orReg s Reg.evfSts2 1 ∨ ∃ b u o, locate off = some (b, u, o) ∧
      ((regRead s i off size).1 = undeliverable s b u ∨ (∃ k, (regRead s i off size).1 = accessFault s b u 0 k (initCode i) o) ∨
        (regRead s i off size).1 = s ∨ ∃ start, (regRead s i off size).1 = noteRead s b start) := by
  unfold regRead
  cases hl : locate off with
  | none => exact .inl rfl
  | some x =>
    obtain ⟨b, u, o⟩ := x
    refine .inr ⟨b, u, o, rfl, ?_⟩
    by_cases hi : islandRuns s b u = true
    · refine .inr ?_
      by_cases h8 : size = 8
      · subst h8
        cases hx : findReg b u o with
        | none => exact .inl ⟨3, by simp [hi, hx]⟩
        | some x =>
          by_cases hw : (x.row.wide && decide (o = x.start) && decide (o % 8 = 0)) = true
          · exact .inr (.inl (by simp only [hi, hx, hw, Bool.not_true, Bool.false_eq_true, if_false, if_true]))
          · exact .inl ⟨3, by simp only [hi, hx, hw, Bool.not_true, Bool.false_eq_true, if_false, if_true]⟩
      · by_cases hm : (!(decide (size = 1) || decide (size = 2) || decide (size = 4)) || o % size != 0) = true
        · exact .inl ⟨2, by simp only [hi, h8, hm, Bool.not_true, Bool.false_eq_true, if_false, if_true]⟩
        · cases hx : findReg b u o with
          | none => exact .inl ⟨4, by simp only [hi, h8, hm, hx, Bool.not_true, Bool.false_eq_true, if_false]⟩
          | some x => exact .inr (.inr ⟨x.start, by simp only [hi, h8, hm, hx, Bool.not_true, Bool.false_eq_true, if_false]⟩)
    · exact .inl (by simp [hi])

/-- All that a window does to a read: it denies it, or answers it in the register's place. -/
theorem windowRead_cases {i : Initiator} {off size : Nat} {x : State × Nat} (hx : windowRead s i off size = some x) :
    x.1 = s ∨ ∃ p, x.1 = denyAccess s p := by
  unfold windowRead at hx
  cases i with
  | bar2 p =>
    dsimp only at hx
    cases hw : winOfPort s p <;> simp only [hw] at hx
    case closed => cases hx; exact .inr ⟨p, rfl⟩
    all_goals
      split_ifs at hx
      cases hx; exact .inl rfl
  | ap k => cases hx
  | sc0 => cases hx
  | sc1 => cases hx

/-- The registers in which a read of the register space may report: the fault records it names, and what a raise changes. -/
theorem rd_regRead {i : Initiator} {off size a : Nat} (h : signalReg a = false) (he : a ≠ Reg.evfSts2)
    (hf : ∀ b u o, locate off = some (b, u, o) → a ≠ Reg.sts b u ∧ a ≠ Reg.errAddr b u)
    (hu : a ≠ Reg.pwrUndeliv) (hc : a ≠ Reg.pwrCause) : rd (regRead s i off size).1 a = rd s a := by
  obtain e | ⟨b, u, o, hl, e | ⟨k, e⟩ | e | ⟨start, e⟩⟩ := regRead_cases s i off size <;> rw [e]
  · exact rd_orReg_other _ he
  · exact rd_undeliverable b u h hu hc
  · exact rd_accessFault_other _ _ _ _ _ _ h (hf b u o hl).1 (hf b u o hl).2
  · exact rd_noteRead b start a

/-- What a read of the register space leaves of the map engine: all but its note of a read of MAP_RMWCNT. -/
theorem regRead_map (i : Initiator) (off size : Nat) : ∃ r, (regRead s i off size).1.map = { s.map with rmwSeen := r } := by
  obtain e | ⟨b, u, o, -, e | ⟨k, e⟩ | e | ⟨start, e⟩⟩ := regRead_cases s i off size <;> rw [e]
  · exact ⟨s.map.rmwSeen, by rw [orReg_map]⟩
  · exact ⟨s.map.rmwSeen, (undeliverable_frame (F := signals) (OnlyChanges.refl _ s) (by decide) (by decide) (by decide) (by decide)
      (by decide)).same .map (by decide)⟩
  · exact ⟨s.map.rmwSeen, by rw [accessFault_map]⟩
  · exact ⟨s.map.rmwSeen, rfl⟩
  · unfold noteRead
    split
    · exact ⟨true, rfl⟩
    · exact ⟨s.map.rmwSeen, rfl⟩

theorem denyAccess_map (p : Port) : (denyAccess s p).map = s.map :=
  (denyAccess_frame (F := signals) (OnlyChanges.refl _ s) (by decide) (by decide) (by decide) (by decide) (by decide)).same .map (by decide)

end Sys2Proof.Machine

namespace Sys2Proof.Proofs
open Sys2Proof.Machine

/-! ## Holes and offsets without a register (R43) -/

theorem holeRead : Claims.holeRead := fun s i off size hr hl =>
  completes_read hr (by simp only [regRead, hl]; rfl)

theorem holeWrite : Claims.holeWrite := fun s i off size v hr hl =>
  completes_write hr (by simp only [regWrite, hl])

theorem unimplementedRead : Claims.unimplementedRead := fun s i off size u o b hr hi hl hx hsize ho =>
  completes_read hr (by
    have h8 : size ≠ 8 := by omega
    have hw : (size = 1 || size = 2 || size = 4) = true := by simpa [or_assoc] using hsize
    simp [regRead, hl, hi, hx, h8, hw, ho])

theorem unimplementedWrite : Claims.unimplementedWrite := fun s i off u o b v hr hi hl hx ho =>
  completes_write hr (by simp [regWrite, hl, hi, hx, ho])

/-- Settles O9: the checks of an access, with no block or no register at the offset. -/
theorem holesAndUnimplemented : Obligations.HolesAndUnimplemented :=
  ⟨holeRead, holeWrite, unimplementedRead, unimplementedWrite⟩

/-! ## Faulty accesses (R45, R46) -/

theorem faultReport : Claims.faultReport := by
  intro s b u bit kind init off hbit hkind hinit hu
  have hfirst := (accessFault_sets (s := s) b u bit kind init off (by omega)).2
  refine ⟨?_, fun h => ?_, fun h => ?_, fun hb hheld n hn => ?_, fun hb => ?_, fun a h1 h2 => ?_⟩
  · rw [rd_accessFault _ _ _ _ _ _ (signalReg_sts b u), rd_faultNoted_sts, or_two_pow_lt (rd_sts_lt hu) hbit]
  · rw [hfirst h, Nat.mod_eq_of_lt (by omega)]
  · rw [rd_accessFault _ _ _ _ _ _ (signalReg_errAddr b u), rd_faultNoted_errAddr _ _ _ _ _ _ h]
  · obtain ⟨hlt, hres⟩ := errSource_ordinary hu hn
    rw [accessFault_eq, hb, hn]
    have hchip : (faultNoted s b u bit kind init off).chip = s.chip := (faultNoted_frame ..).same .chip (by decide)
    exact raised_raiseWith hlt hres (by rw [hchip]; exact hheld) _ _
  · rw [accessFault_eq, if_pos hb]
    exact ⟨faultNoted_frame _ _ _ _ _ _, fun n hn => raised_faultNoted hn _ _ _ _ _ _⟩
  · by_cases hs : signalReg a = true
    · exact (signalReg_iff.mp hs).imp_right fun h => h.imp_right .inl
    · exact .inr (.inr (.inr (rd_accessFault_other _ _ _ _ _ _ (by simpa using hs) h1 h2)))

theorem writeChecks : Claims.writeChecks := by
  intro s i off size u o b v hc ha hl
  refine completes_write (writeReaches_core hc ha off) ⟨fun hi => by simp [regWrite, hl, hi], fun hi => ⟨?_, ?_, ?_, ?_, ?_⟩⟩
  · rintro (rfl | rfl) <;> simp [regWrite, hl, hi]
  · rintro rfl ho
    simp [regWrite, hl, hi, ho]
  · intro h
    have h8 : size ≠ 8 ∧ size ≠ 1 ∧ size ≠ 2 ∧ size ≠ 4 := by omega
    simp [regWrite, hl, hi, h8]
  · rintro rfl hw
    cases hx : findReg b u o with
    | none => simp [regWrite, hl, hi, hx]
    | some x => simp [regWrite, hl, hi, hx, hw x hx]
  · rintro rfl ho x hx hw
    simp [regWrite, hl, hi, ho, hx, hw]

theorem readChecks : Claims.readChecks := by
  intro s i off size u o b hc ha hl
  refine completes_read (readReaches_core hc ha off size) ⟨fun hi => by simp [regRead, hl, hi, allOnes], fun hi => ⟨?_, ?_⟩⟩
  · intro hs ho
    have h8 : size ≠ 8 := by omega
    simp only [regRead, hl, hi, h8, bne_iff_ne.mpr ho, Bool.or_true, if_true, if_false, Bool.not_true, Bool.false_eq_true, allOnes]
  · rintro rfl hw
    cases hx : findReg b u o with
    | none => simp [regRead, hl, hi, hx, allOnes]
    | some x => simp [regRead, hl, hi, hx, hw x hx, allOnes]

/-- Settles O10: what a faulty access reports, and which check of a write and of a read decides. -/
theorem accessChecks : Obligations.AccessChecks := ⟨faultReport, writeChecks, readChecks⟩

/-! ## Reads have no side effect (R47) -/

theorem readNormal : Claims.readNormal := by
  intro s i off size u o b x ha hw hl hi hx hsize
  refine completes_read ⟨ha, hw⟩ ?_
  rcases hsize with ⟨hs, ho⟩ | ⟨rfl, hwide, rfl, ho⟩
  · have h8 : size ≠ 8 := by omega
    have hs : (size = 1 || size = 2 || size = 4) = true := by simpa [or_assoc] using hs
    simp [regRead, hl, hi, hx, h8, hs, ho, noteRead, updMap]
  · simp [regRead, hl, hi, hx, hwide, ho]

theorem readNoSideEffect : Claims.readNoSideEffect := by
  intro s i off size
  refine ⟨readAccess s i off size, rfl, ?_, ?_, ?_⟩
  · apply readAccess_frame (OnlyChanges.refl _ s) <;> decide
  · unfold readAccess
    split
    · exact ⟨s.map.rmwSeen, rfl⟩
    · cases hx : windowRead s i off size with
      | none => exact regRead_map i off size
      | some x =>
        refine ⟨s.map.rmwSeen, show x.1.map = s.map from ?_⟩
        obtain e | ⟨p, e⟩ := windowRead_cases hx <;> rw [e]
        exact denyAccess_map p
  · intro a hevf hfault hund hcause hdeny hsec hpend hlost hsupp
    have hsig : signalReg a = false := by
      rw [← Bool.not_eq_true, signalReg_iff]
      tauto
    unfold readAccess
    split
    · rfl
    · cases hx : windowRead s i off size with
      | none => exact rd_regRead hsig hevf hfault hund hcause
      | some x =>
        show rd x.1 a = rd s a
        obtain e | ⟨p, e⟩ := windowRead_cases hx <;> rw [e]
        exact rd_denyAccess p hsig hdeny hsec

/-- Settles O11: a read that passes the checks, and any read at all. -/
theorem readsHaveNoSideEffect : Obligations.ReadsHaveNoSideEffect := ⟨readNormal, readNoSideEffect⟩

end Sys2Proof.Proofs
end
section
/-! PROOFS. The event fabric's raise (R62 to R64): which pending bits it sets, what it gives the recorder, and what it leaves.
Settles O16. -/

namespace Sys2Proof.Machine

variable {s : State}

/-! ## One bit of a bitmap -/

theorem bitOf_two_pow_other {n j : Nat} (h : j ≠ n) : bitOf (2 ^ n) j = false := by
  rw [bitOf, Nat.testBit_two_pow]
  exact decide_eq_false (Ne.symm h)

/-- Setting source n's bit of a bitmap changes that bit of that word. -/
theorem bitOf_setMapBit (base : Nat → Nat) (n a j : Nat) (hj : j < 64) :
    bitOf (rd (setMapBit s base n) a) j = (bitOf (rd s a) j || decide (j = n % 32) && decide (a = base (n / 32))) := by
  by_cases ha : a = base (n / 32)
  · subst ha
    rw [setMapBit, bitOf_orReg _ _ _ _ hj]
    by_cases hn : j = n % 32
    · subst hn; simp [bitOf_two_pow]
    · simp [bitOf_two_pow_other hn, hn]
  · rw [rd_setMapBit _ _ ha]
    simp [ha]

/-- The bitmaps of several cores. -/
theorem bitOf_routeFold (l : List Nat) (n a j : Nat) (hj : j < 64) :
    bitOf (rd (l.foldl (fun s k => setMapBit s (Reg.cpend k) n) s) a) j =
      (bitOf (rd s a) j || decide (j = n % 32) && l.any fun k => decide (a = Reg.cpend k (n / 32))) := by
  induction l generalizing s with
  | nil => simp
  | cons k r ih => rw [List.foldl_cons, ih, bitOf_setMapBit _ _ _ _ hj, List.any_cons, Bool.and_or_distrib_left, Bool.or_assoc]

theorem routeFold_frame (l : List Nat) (n : Nat) :
    OnlyChanges [.regs] s (l.foldl (fun s k => setMapBit s (Reg.cpend k) n) s) :=
  frame_foldl (fun _ _ h => setMapBit_frame h (by decide)) (OnlyChanges.refl _ s)

/-! ## A raise, up to the recorder -/

/-- What a raise of source n does but for the recorder: the bitmaps of the fabric, of the cores and of the ports, and the messages. -/
def delivered (s : State) (n : Nat) : State :=
  let r := rd s (Reg.route n)
  let s := setMapBit s Reg.srcPend n
  let s := (routeCores r).foldl (fun s k => setMapBit s (Reg.cpend k) n) s
  let s := if bitsOf r 12 11 = 0 then s else vendorMsg (setMapBit s Reg.hpendA n) .a (127 + bitsOf r 12 11)
  if bitsOf r 14 13 = 0 then s else vendorMsg (setMapBit s Reg.hpendB n) .b (127 + bitsOf r 14 13)

/-- The bitmap words of source n that a route names. -/
def routedTo (r n a : Nat) : Bool :=
  decide (a = Reg.srcPend (n / 32)) || (routeCores r).any (fun k => decide (a = Reg.cpend k (n / 32)))
    || decide (bitsOf r 12 11 ≠ 0) && decide (a = Reg.hpendA (n / 32)) || decide (bitsOf r 14 13 ≠ 0) && decide (a = Reg.hpendB (n / 32))

theorem raiseWith_refused (n : Nat) (pl : List Byte) (o : Nat) (h : 248 ≤ n ∨ (157 ≤ n ∧ n ≤ 159) ∨ s.chip.held = true) :
    raiseWith s n pl o = s := if_pos (by simpa [or_assoc] using h)

theorem raiseWith_taken (n : Nat) (pl : List Byte) (o : Nat) (h : n < 248) (hr : ¬ (157 ≤ n ∧ n ≤ 159)) (hc : s.chip.held = false) :
    raiseWith s n pl o =
      if bitOf (rd s (Reg.route n)) 10 then admitCand (delivered s n) { code := n, origin := o, payload := pl } else delivered s n :=
  if_neg (by simp [hc]; omega)

theorem bitOf_delivered (n a j : Nat) (hj : j < 64) :
    bitOf (rd (delivered s n) a) j = (bitOf (rd s a) j || decide (j = n % 32) && routedTo (rd s (Reg.route n)) n a) := by
  unfold delivered routedTo
  by_cases hA : bitsOf (rd s (Reg.route n)) 12 11 = 0 <;> by_cases hB : bitsOf (rd s (Reg.route n)) 14 13 = 0 <;>
    simp only [hA, hB, if_true, if_false, rd_vendorMsg, bitOf_setMapBit _ _ _ _ hj, bitOf_routeFold _ _ _ _ hj, ne_eq,
      not_true_eq_false, not_false_eq_true, decide_true, decide_false, Bool.false_and, Bool.true_and, Bool.or_false,
      Bool.and_or_distrib_left, Bool.or_assoc]

theorem delivered_frame (n : Nat) : OnlyChanges [.regs, .out, .portA, .portB] s (delivered s n) := by
  have h0 : OnlyChanges [.regs, .out, .portA, .portB] s (setMapBit s Reg.srcPend n) :=
    setMapBit_frame (OnlyChanges.refl _ s) (by decide)
  have h1 := h0.trans ((routeFold_frame (routeCores (rd s (Reg.route n))) n).mono (by decide))
  have step : ∀ (t : State) (base : Nat → Nat) (p : Port) (v : Nat), OnlyChanges [.regs, .out, .portA, .portB] s t →
      OnlyChanges [.regs, .out, .portA, .portB] s (vendorMsg (setMapBit t base n) p v) := fun t base p v ht =>
    vendorMsg_frame (setMapBit_frame ht (by decide)) (by decide) (by decide) (by decide)
  unfold delivered
  exact frame_ite (frame_ite h1 (step _ _ _ _ h1)) (step _ _ _ _ (frame_ite h1 (step _ _ _ _ h1)))

/-! ## The recorder's part -/

/-- What enters the FIFO depends on the recorder alone. -/
theorem enqueue_evr_congr {t : State} (h : t.evr = s.evr) (c : Cand) : (enqueue t c).evr = (enqueue s c).evr := by
  unfold enqueue
  simp only [h, satAdd_evr]
  split
  · rfl
  · cases s.evr.episode <;> rfl

/-- What the recorder admits depends on the recorder and the timebase alone. -/
theorem admitCand_evr_congr {t : State} (h : t.evr = s.evr) (hc : t.clk = s.clk) (c : Cand) :
    (admitCand t c).evr = (admitCand s c).evr := by
  have hb : bucketNow t c.code = bucketNow s c.code := by rw [bucketNow, bucketNow, h, hc]
  unfold admitCand
  simp only [hb]
  split
  · exact enqueue_evr_congr h c
  · split
    · rw [satAdd_evr, satAdd_evr, h]
    · exact enqueue_evr_congr (by rw [h]) c

/-! ## What a raise leaves pending -/

/-- No raise clears a pending bit (R63). -/
theorem bitOf_raiseWith_mono {a j : Nat} (n : Nat) (pl : List Byte) (o : Nat) (hj : j < 64) (h1 : a ≠ 0xD0038) (h2 : a ≠ 0xD003C)
    (h : bitOf (rd s a) j = true) : bitOf (rd (raiseWith s n pl o) a) j = true := by
  by_cases hn : 248 ≤ n ∨ (157 ≤ n ∧ n ≤ 159) ∨ s.chip.held = true
  · rwa [raiseWith_refused n pl o hn]
  · rw [not_or, not_or, Bool.not_eq_true, not_le] at hn
    rw [raiseWith_taken n pl o hn.1 hn.2.1 hn.2.2]
    split
    · rw [rd_admitCand _ _ h1 h2, bitOf_delivered _ _ _ hj, h, Bool.true_or]
    · rw [bitOf_delivered _ _ _ hj, h, Bool.true_or]

theorem raised_raiseWith_mono {m : Nat} (n : Nat) (pl : List Byte) (o : Nat) (h : raised s m = true) :
    raised (raiseWith s n pl o) m = true :=
  bitOf_raiseWith_mono n pl o (by omega) (by unfold Reg.srcPend; omega) (by unfold Reg.srcPend; omega) h

/-- The bits that a raise that is delivered sets: those of its source in the words its route names. -/
theorem bitOf_raiseWith {n a j : Nat} (pl : List Byte) (o : Nat) (hn : n < 248) (hr : ¬ (157 ≤ n ∧ n ≤ 159)) (hc : s.chip.held = false)
    (hj : j < 64) (h1 : a ≠ 0xD0038) (h2 : a ≠ 0xD003C) :
    bitOf (rd (raiseWith s n pl o) a) j = (bitOf (rd s a) j || decide (j = n % 32) && routedTo (rd s (Reg.route n)) n a) := by
  rw [raiseWith_taken n pl o hn hr hc]
  split
  · rw [rd_admitCand _ _ h1 h2, bitOf_delivered _ _ _ hj]
  · rw [bitOf_delivered _ _ _ hj]

/-- Another source's bit of a core's bitmap lies in no word that the route names at this source's bit. -/
theorem routedTo_cpend_other {r n m k : Nat} (hn : n < 248) (hm : m < 256) (hk : k < 10) (hne : m ≠ n) :
    (decide (m % 32 = n % 32) && routedTo r n (Reg.cpend k (m / 32))) = false := by
  by_cases hmod : m % 32 = n % 32
  · have hdiv : m / 32 ≠ n / 32 := fun h => hne (by omega)
    simp only [hmod, decide_true, Bool.true_and, routedTo, Bool.or_eq_false_iff, Bool.and_eq_false_iff, decide_eq_false_iff_not,
      List.any_eq_false, decide_eq_true_eq]
    unfold Reg.cpend Reg.srcPend Reg.hpendA Reg.hpendB
    refine ⟨⟨⟨by omega, fun k' hk' => ?_⟩, .inr (by omega)⟩, .inr (by omega)⟩
    have : k' < 10 := by simp [routeCores] at hk'; exact hk'.1
    omega
  · simp [hmod]

/-! ## The first pending source (R64) -/

theorem regView_cfirst (i : Initiator) {k : Nat} (hk : k < 10) : regView s i .evf 0 (0x280 + 4 * k) = (firstPending s k).getD 0x100 := by
  have h1 : 0x280 + 4 * k ≠ 0x20 := by omega
  have h2 : 0x280 + 4 * k < 0x2A8 := by omega
  simp [regView, evfView, h1, h2]

end Sys2Proof.Machine

namespace Sys2Proof.Proofs
open Sys2Proof.Machine

theorem raiseEffects : Claims.raiseEffects := by
  intro s n origin pl hn hres hheld
  have hbit : ∀ a j, j < 64 → a ≠ 0xD0038 → a ≠ 0xD003C → bitOf (rd (raiseWith s n pl origin) a) j =
      (bitOf (rd s a) j || decide (j = n % 32) && routedTo (rd s (Reg.route n)) n a) :=
    fun a j hj h1 h2 => bitOf_raiseWith pl origin hn hres hheld hj h1 h2
  have hset : ∀ a, 0x100040 ≤ a → routedTo (rd s (Reg.route n)) n a = true → bitOf (rd (raiseWith s n pl origin) a) (n % 32) = true :=
    fun a ha h => by rw [hbit a _ (by omega) (by omega) (by omega), h]; simp
  refine ⟨raised_raiseWith hn (by omega) hheld _ _, fun k hk hr => hset _ (by unfold Reg.cpend; omega) ?_,
    fun hr => hset _ (by unfold Reg.hpendA; omega) ?_, fun hr => hset _ (by unfold Reg.hpendB; omega) ?_, fun hr => ?_, fun hr => ?_,
    fun m _ => raised_raiseWith_mono n pl origin, fun m k hm hne hk => ?_⟩
  · have hmem : k ∈ routeCores (rd s (Reg.route n)) := by simp [routeCores, hk, hr]
    have hany : ((routeCores (rd s (Reg.route n))).any fun j => decide (Reg.cpend k (n / 32) = Reg.cpend j (n / 32))) = true :=
      List.any_eq_true.mpr ⟨k, hmem, decide_eq_true rfl⟩
    simp only [routedTo, hany, Bool.or_true, Bool.true_or]
  · simp [routedTo, hr]
  · simp [routedTo, hr]
  · rw [raiseWith_taken n pl origin hn hres hheld, if_pos hr]
    exact admitCand_evr_congr ((delivered_frame n).same .evr (by decide)) ((delivered_frame n).same .clk (by decide)) _
  · rw [raiseWith_taken n pl origin hn hres hheld, if_neg (by simp [hr])]
    exact (delivered_frame n).same .evr (by decide)
  · rw [hbit _ _ (by omega) (by unfold Reg.cpend; omega) (by unfold Reg.cpend; omega), routedTo_cpend_other hn hm hk hne, Bool.or_false]

theorem raiseFrame : Claims.raiseFrame := by
  intro s n origin pl
  refine ⟨?_, fun a => ?_, fun h => raiseWith_refused n pl origin (h.imp_right .inl)⟩
  · apply raiseWith_frame (OnlyChanges.refl _ s) <;> decide
  · by_cases ha : signalReg a = true
    · exact .inr (signalReg_iff.mp ha)
    · exact .inl (rd_raiseWith s n pl origin (by simpa using ha))

theorem firstPendingSource : Claims.firstPendingSource := by
  intro s i k hk
  rw [regView_cfirst i hk]
  cases h : firstPending s k with
  | none =>
    have hnone := List.find?_range_eq_none.mp h
    exact ⟨fun hlt => absurd hlt (by decide), fun _ => ⟨rfl, fun m hm => by simpa using hnone m hm⟩⟩
  | some v =>
    obtain ⟨hbit, hmem, hless⟩ := List.find?_range_eq_some.mp h
    exact ⟨fun _ => ⟨hbit, fun m hm => by simpa using hless m hm⟩, fun hge => absurd (List.mem_range.mp hmem) hge⟩

/-- Settles O16: a raise's effects and frame follow from the bits it sets, and EVF_CFIRST from the search it is. -/
theorem raisesOfSources : Obligations.RaisesOfSources := ⟨raiseEffects, raiseFrame, firstPendingSource⟩

end Sys2Proof.Proofs
end
section
/-! PROOFS. Register writes: which register an offset names, what its fields take, and what a write that is taken without complaint
comes to (R46, R49, R50, R55). The proofs of O12, O13, O14 and O22 rest on it. -/

namespace Sys2Proof.Machine

variable {s : State}

/-! ## Bits of a written value -/

/-- A field that lies below a width reads the same in the value cut to that width. -/
theorem bitsOf_mod (v hi lo m : Nat) (h : hi < m) : bitsOf (v % 2 ^ m) hi lo = bitsOf v hi lo := by
  apply Nat.eq_of_testBit_eq
  intro k
  simp only [testBit_bitsOf, Nat.testBit_mod_two_pow]
  by_cases hk : k < hi + 1 - lo
  · have : k + lo < m := by omega
    simp [this]
  · simp [hk]

/-- A field set to what it holds. -/
theorem setBits_self (v hi lo : Nat) : setBits v hi lo (bitsOf v hi lo) = v := by
  apply Nat.eq_of_testBit_eq
  intro k
  rw [testBit_setBits, testBit_bitsOf]
  split
  · have h1 : k - lo < hi + 1 - lo := by omega
    have h2 : k - lo + lo = k := by omega
    simp [h1, h2]
  · rfl

/-! ## The register at an offset -/

/-- No two of these fields share a bit. -/
def apart : List Fld → Bool
  | [] => true
  | f :: r => (r.all fun g => decide (g.hi < f.lo) || decide (f.hi < g.lo)) && apart r

/-- A field that a write leaves, but for the bits that writing 1 clears. -/
def quietFld (f : Fld) : Bool := f.acc == .ro || f.acc == .w1c

/-- A row's registers begin on word boundaries. -/
def rowAligned (r : Row) : Bool := r.off % 4 == 0 && r.s1 % 4 == 0 && r.s2 % 4 == 0

/-- A row's fields lie within the register and apart from one another, and no read-only field or field that clears is a configuration
field. -/
def rowSound (r : Row) : Bool :=
  (r.flds.all fun f => decide (f.hi < if r.wide then 64 else 32)) && apart r.flds && r.flds.all fun f => !quietFld f || !f.conf

def rowsOf (b : Blk) (u : Nat) : List Row := headerRows b u ++ blockRows b

theorem rowsOf_sound {b : Blk} {u : Nat} {r : Row} (hr : r ∈ rowsOf b u) : rowSound r = true := by
  have h1 : (headerRows b u).all rowSound = true := by cases b <;> rfl
  have h2 : (blockRows b).all rowSound = true := by cases b <;> decide +kernel
  exact (List.mem_append.mp hr).elim (List.all_eq_true.mp h1 r) (List.all_eq_true.mp h2 r)

theorem rowsOf_aligned {b : Blk} {u : Nat} {r : Row} (hr : r ∈ rowsOf b u) : r.off % 4 = 0 ∧ r.s1 % 4 = 0 ∧ r.s2 % 4 = 0 := by
  have h1 : (headerRows b u).all rowAligned = true := by
    simp only [headerRows, r32, List.all_cons, List.all_nil, rowAligned]
    rfl
  have h2 : (blockRows b).all rowAligned = true := by cases b <;> decide +kernel
  have h := (List.mem_append.mp hr).elim (List.all_eq_true.mp h1 r) (List.all_eq_true.mp h2 r)
  simpa [rowAligned, and_assoc] using h

/-- Only rows with read-write fields reserve values by a relation among fields. -/
theorem blockRows_okRow (b : Blk) (v : Nat) : ∀ r ∈ blockRows b, (r.flds.all fun f => f.acc != .rw) = true → r.okRow v = true := by
  cases b <;> simp only [blockRows, hfeRows, thmRows, pwrRows, rngRows, secRows, evrRows, cfgRows, cryRows, evfRows, srtRows,
    mapRows, phcRows, drcRows, jrcRows, strRows, patRows, scbRows, dstRows, chnRows, List.forall_mem_cons, List.not_mem_nil,
    false_imp_iff, implies_true, and_true, r32, r64, r32s, r64s] <;> simp [rw, rwC]

theorem rowsOf_okRow {b : Blk} {u : Nat} {r : Row} (hr : r ∈ rowsOf b u) (h : (r.flds.all fun f => f.acc != .rw) = true) (v : Nat) :
    r.okRow v = true := by
  rcases List.mem_append.mp hr with hr | hr
  · simp only [headerRows, List.mem_cons, List.not_mem_nil, or_false] at hr
    rcases hr with rfl | rfl | rfl | rfl <;> rfl
  · exact blockRows_okRow b v r hr h

theorem at?_row {r : Row} {o : Nat} {x : RegAt} (h : r.at? o = some x) : x.row = r := by
  unfold Row.at? at h
  dsimp only at h
  split_ifs at h
  all_goals cases h; rfl

/-- An aligned offset within a narrow register is where it starts. -/
theorem at?_start {r : Row} {o : Nat} {x : RegAt} (h : r.at? o = some x) (hal : r.off % 4 = 0 ∧ r.s1 % 4 = 0 ∧ r.s2 % 4 = 0)
    (hw : r.wide = false) (ho : o % 4 = 0) : x.start = o := by
  have hb : r.bytes = 4 := by simp [Row.bytes, hw]
  have hmul : ∀ k m, m % 4 = 0 → k * m % 4 = 0 := fun k m hm => by simp [Nat.mul_mod, hm]
  unfold Row.at? at h
  dsimp only at h
  generalize hi1 : (if r.n1 = 1 then 0 else (o - r.off) / r.s1) = i1 at h
  generalize hi2 : (if r.n2 = 1 then 0 else (o - r.off - i1 * r.s1) / r.s2) = i2 at h
  have h1 := hmul i1 r.s1 hal.2.1
  have h2 := hmul i2 r.s2 hal.2.2
  split_ifs at h with hlt hin
  simp only [Bool.and_eq_true, decide_eq_true_eq, hb] at hin
  cases h
  show o - (o - r.off - i1 * r.s1 - i2 * r.s2) = o
  omega

theorem findReg_row {b : Blk} {u o : Nat} {x : RegAt} (h : findReg b u o = some x) : x.row ∈ rowsOf b u ∧ x.row.at? o = some x := by
  obtain ⟨r, hr, hx⟩ := List.exists_of_findSome?_eq_some h
  rw [at?_row hx]
  exact ⟨hr, hx⟩

theorem findReg_start {b : Blk} {u o : Nat} {x : RegAt} (h : findReg b u o = some x) (hw : x.row.wide = false) (ho : o % 4 = 0) :
    x.start = o := at?_start (findReg_row h).2 (rowsOf_aligned (findReg_row h).1) hw ho

/-- Only the districts and the couriers have registers whose map depends on the unit. -/
theorem findReg_unit {b : Blk} (hd : b ≠ .dst) (hc : b ≠ .chn) (u o : Nat) : findReg b u o = findReg b 0 o := by
  have h : headerRows b u = headerRows b 0 := by
    cases b with
    | dst => exact absurd rfl hd
    | chn => exact absurd rfl hc
    | _ => rfl
  rw [findReg, findReg, h]

/-! ## What the fields of a register take -/

/-- A write that a field takes without complaint: no configuration field, and no reserved encoding. -/
def accepts (v : Nat) (f : Fld) : Bool :=
  !f.conf && match f.acc with
    | .ro => true | .w1c => true | .mw => bitsOf (v / 2 ^ 16) f.hi f.lo == 0
    | .wo => f.ok (bitsOf v f.hi f.lo) | .rw => f.ok (bitsOf v f.hi f.lo) | .rws => f.ok (bitsOf v f.hi f.lo)

theorem fldWrite_accepts {v : Nat} {f : Fld} (h : accepts v f = true) (old : Nat) : (fldWrite old v f).2 = false := by
  unfold accepts at h
  unfold fldWrite
  cases hf : f.acc <;> simp_all

theorem fldsWrite_cons (f : Fld) (r : List Fld) (old v : Nat) :
    fldsWrite (f :: r) old v =
      ((fldsWrite r (fldWrite old v f).1 v).1, (fldWrite old v f).2 || (fldsWrite r (fldWrite old v f).1 v).2) := by
  have acc : ∀ (l : List Fld) (a : Nat) (c d : Bool),
      l.foldl (fun a f => ((fldWrite a.1 v f).1, a.2 || (fldWrite a.1 v f).2)) (a, c || d) =
        ((fldsWrite l a v).1, c || (l.foldl (fun a f => ((fldWrite a.1 v f).1, a.2 || (fldWrite a.1 v f).2)) (a, d)).2) := by
    intro l
    induction l with
    | nil => intro a c d; rfl
    | cons g l ih =>
      intro a c d
      simp only [fldsWrite, List.foldl_cons, Bool.or_assoc]
      rw [ih, ih _ false]
  have := acc r (fldWrite old v f).1 (fldWrite old v f).2 false
  simp only [Bool.or_false] at this
  simp only [fldsWrite, List.foldl_cons, Bool.false_or]
  exact this

theorem fldsWrite_accepts {v : Nat} {flds : List Fld} (h : flds.all (accepts v) = true) (old : Nat) : (fldsWrite flds old v).2 = false := by
  induction flds generalizing old with
  | nil => rfl
  | cons f r ih =>
    rw [List.all_cons, Bool.and_eq_true] at h
    rw [fldsWrite_cons, fldWrite_accepts h.1, ih h.2, Bool.or_false]

theorem confChange_accepts {v : Nat} {flds : List Fld} (h : flds.all (accepts v) = true) (old : Nat) : confChange flds old v = false := by
  rw [confChange, List.any_eq_false]
  intro f hf
  have := List.all_eq_true.mp h f hf
  simp_all [accepts]

/-- Fields that keep the register's value, each as it stands, keep it together. -/
theorem fldsWrite_keeps {v old : Nat} {flds : List Fld} (h : ∀ f ∈ flds, (fldWrite old v f).1 = old) : (fldsWrite flds old v).1 = old := by
  induction flds with
  | nil => rfl
  | cons f r ih =>
    rw [fldsWrite_cons, h f List.mem_cons_self]
    exact ih fun g hg => h g (List.mem_cons_of_mem _ hg)

theorem fldWrite_wo {v old : Nat} {f : Fld} (h : (f.acc == .wo) = true) : (fldWrite old v f).1 = old := by
  simp only [fldWrite, beq_iff_eq.mp h]

theorem fldWrite_ro {v old : Nat} {f : Fld} (h : f.acc = .ro) : fldWrite old v f = (old, false) := by simp only [fldWrite, h]

/-- What is written to a W1C field matters in the bits that are set there. -/
theorem fldWrite_w1c {v w old : Nat} {f : Fld} (h : f.acc = .w1c)
    (hv : bitsOf v f.hi f.lo &&& bitsOf old f.hi f.lo = bitsOf w f.hi f.lo &&& bitsOf old f.hi f.lo) :
    fldWrite old v f = fldWrite old w f := by
  simp only [fldWrite, h]
  rw [Nat.and_comm _ (bitsOf v _ _), hv, Nat.and_comm]

/-- Writing no 1 to a W1C field keeps it. -/
theorem fldWrite_w1c_zero {old : Nat} {f : Fld} (h : f.acc = .w1c) : fldWrite old 0 f = (old, false) := by
  have h0 : bitsOf 0 f.hi f.lo = 0 := by simp [bitsOf]
  simp only [fldWrite, h, h0, Nat.and_zero, Nat.sub_zero, setBits_self]

/-- A route field with no mask bit is kept. -/
theorem fldWrite_mw_zero {v old : Nat} {f : Fld} (h : f.acc = .mw) (hm : bitsOf (v / 2 ^ 16) f.hi f.lo = 0) :
    (fldWrite old v f).1 = old := by
  simp only [fldWrite, h, hm, Nat.and_zero, Nat.sub_zero, Nat.add_zero, setBits_self]
  simp

/-- A quiet field's write changes that field only. -/
theorem bitsOf_fldWrite_quiet {v old : Nat} {f g : Fld} (hf : quietFld f = true) (hd : g.hi < f.lo ∨ f.hi < g.lo) :
    bitsOf (fldWrite old v f).1 g.hi g.lo = bitsOf old g.hi g.lo := by
  simp only [quietFld, Bool.or_eq_true, beq_iff_eq] at hf
  rcases hf with hf | hf
  · rw [fldWrite_ro hf]
  · simp only [fldWrite, hf]
    exact bitsOf_setBits_other _ _ _ _ _ _ hd

/-- Two writes that agree in every W1C bit that is set give the same value. -/
theorem fldsWrite_congr {v w : Nat} {flds : List Fld} (hd : apart flds = true) {old : Nat}
    (h : ∀ f ∈ flds, f.acc = .ro ∨ f.acc = .w1c ∧
      bitsOf v f.hi f.lo &&& bitsOf old f.hi f.lo = bitsOf w f.hi f.lo &&& bitsOf old f.hi f.lo) :
    fldsWrite flds old v = fldsWrite flds old w := by
  induction flds generalizing old with
  | nil => rfl
  | cons f r ih =>
    simp only [apart, Bool.and_eq_true, List.all_eq_true, Bool.or_eq_true, decide_eq_true_eq] at hd
    obtain ⟨hfr, hr⟩ := hd
    have hf := h f List.mem_cons_self
    have hq : quietFld f = true := by
      simp only [quietFld, Bool.or_eq_true, beq_iff_eq]
      exact hf.imp_right And.left
    have e : fldWrite old v f = fldWrite old w f := by
      rcases hf with hf | ⟨hf, hb⟩
      · rw [fldWrite_ro hf, fldWrite_ro hf]
      · exact fldWrite_w1c hf hb
    have step : fldsWrite r (fldWrite old w f).1 v = fldsWrite r (fldWrite old w f).1 w :=
      ih hr fun g hg => by
        rw [bitsOf_fldWrite_quiet hq (hfr g hg)]
        exact h g (List.mem_cons_of_mem _ hg)
    rw [fldsWrite_cons, fldsWrite_cons, e, step]

/-! ## A write of a register that its fields alone judge -/

/-- The registers whose write other registers judge too, or that have a path of their own: CTL, the retirement registers, PHC_WAYDIS, and
those of `reservedNow`. -/
def judgedApart (b : Blk) (o : Nat) : Bool :=
  o == 4 || (b == .map && (o == 0x110 || (0x180 ≤ o && o < 0x200) || o == 0x14)) || (b == .phc && o == 0x10)
    || (b == .chn && (o == 0x14 || o == 0x18 || o == 0x90)) || (b == .evr && o == 0x48)

theorem reservedNow_plain {b : Blk} {o : Nat} (h : judgedApart b o = false) (u n : Nat) : reservedNow s b u o n = [] := by
  cases b <;> simp_all [reservedNow, judgedApart]

/-- The state that a write stores its value in, unless a unit keeps the value itself. -/
def storeReg (s : State) (b : Blk) (u o old n : Nat) : State :=
  if storedElsewhere b o || n = old then s else wr s (b.base u + o) n

/-- A whole write that its fields take without complaint (R46, R55): ignored while its operation runs, else stored, and what follows. -/
theorem regStore_accepted {i : Initiator} {b : Blk} {u v : Nat} {x : RegAt} {e : Extra} (hi : ignoredWrite i b x = false)
    (hj : judgedApart b x.start = false) (hf : x.row.flds.all (accepts v) = true) (hr : ∀ n, x.row.okRow n = true) :
    regStore s i b u x v e =
      let old := regView s i b u x.start
      let n := (fldsWrite x.row.flds old v).1
      let busy := trigBusy s b u x.start v
      let t := if busy then accessFault s b u 2 7 (initCode i) x.start else s
      if busy && b != .pwr && b != .scb then t
      else systemEffect (flashEffect (storeReg t b u x.start old n) i b u x.start v e) i b x.start v n e := by
  have h4 : x.start ≠ 4 := fun h => by simp [judgedApart, h] at hj
  have hmap : (b == .map && (x.start == 0x110 || (0x180 ≤ x.start && x.start < 0x200))) = false := by
    cases hb : b == Blk.map <;> simp_all [judgedApart]
  have hphc : (b == .phc && decide (x.start = 0x10)) = false := by
    cases hb : b == Blk.phc <;> simp_all [judgedApart]
  have hrow : rowWrite s b u x (regView s i b u x.start) v = ((fldsWrite x.row.flds (regView s i b u x.start) v).1, false) := by
    simp only [rowWrite, hr, if_true, reservedNow_plain hj, List.foldl_nil, List.isEmpty_nil, Bool.not_true, Bool.or_false,
      fldsWrite_accepts hf]
  unfold regStore storeReg
  simp only [hi, h4, hmap, hphc, confChange_accepts hf, hrow, Bool.false_and, Bool.false_eq_true, if_false]
  cases trigBusy s b u x.start v <;> cases b <;> simp

/-- A whole aligned write of a register, narrow or wide, reaches the register. -/
theorem regWrite_whole {i : Initiator} {b : Blk} {u a o : Nat} {x : RegAt} (hi : islandRuns s b u = true)
    (hl : locate a = some (b, u, o)) (hx : findReg b u o = some x) (hs : o = x.start)
    (ho : o % (if x.row.wide then 8 else 4) = 0) (v : Nat) (e : Extra) :
    regWrite s i a (if x.row.wide then 8 else 4) v e = regStore s i b u x (v % 2 ^ (if x.row.wide then 64 else 32)) e := by
  cases hw : x.row.wide <;> simp only [hw, Bool.false_eq_true, if_true, if_false] at ho <;> simp [regWrite, hl, hi, hx, hw, ho, ← hs]

/-! ## Registers of read-only fields and fields that clear -/

/-- The register at an offset, where there is one, has only read-only fields and fields that clear. -/
def quietAt (b : Blk) (u o : Nat) : Bool := (findReg b u o).all fun x => x.row.flds.all quietFld

/-! The recorder's write buffer, the retirement registers, and the watchdogs' controls and kicks are not quiet. -/

theorem not_quiet_evr {u o : Nat} (h1 : 0x200 ≤ o) (h2 : o < 0x2F0) : quietAt .evr u o = false := by
  have h : ∀ k : Fin 240, quietAt .evr 0 (0x200 + k) = false := by decide +kernel
  have := h ⟨o - 0x200, by omega⟩
  rwa [show 0x200 + (o - 0x200) = o by omega, quietAt, ← findReg_unit (by decide) (by decide) u] at this
theorem not_quiet_map {u o : Nat} (h1 : 0x180 ≤ o) (h2 : o < 0x200) : quietAt .map u o = false := by
  have h : ∀ k : Fin 128, quietAt .map 0 (0x180 + k) = false := by decide +kernel
  have := h ⟨o - 0x180, by omega⟩
  rwa [show 0x180 + (o - 0x180) = o by omega, quietAt, ← findReg_unit (by decide) (by decide) u] at this
theorem not_quiet_wd {u o : Nat} (h1 : 0x1100 ≤ o) (h2 : o < 0x11A0) (h3 : o % 16 = 0 ∨ o % 16 = 4) : quietAt .evf u o = false := by
  have h : ∀ k : Fin 160, k.val % 16 = 0 ∨ k.val % 16 = 4 → quietAt .evf 0 (0x1100 + k) = false := by decide +kernel
  have := h ⟨o - 0x1100, by omega⟩ (by simp only; omega)
  rwa [show 0x1100 + (o - 0x1100) = o by omega, quietAt, ← findReg_unit (by decide) (by decide) u] at this

/-- A quiet register is not one that is not quiet. -/
theorem quiet_ne {b : Blk} {u o o' : Nat} (h : quietAt b u o = true) (hn : quietAt b u o' = false) : o ≠ o' := fun e =>
  Bool.false_ne_true (by rw [← hn, ← e, h])

/-- A write of a quiet register sets nothing off on the flash side. -/
theorem flashEffect_quiet {b : Blk} {u o : Nat} (h : quietAt b u o = true) (i : Initiator) (v : Nat) (e : Extra) :
    flashEffect s i b u o v e = s := by
  have ne : ∀ o', quietAt b u o' = false → o ≠ o' := fun _ => quiet_ne h
  cases b <;> simp only [flashEffect]
  case chn => rw [if_neg (ne 0x28 rfl), if_neg (ne 0xD4 rfl)]
  case dst => rw [if_neg (by simp [ne 0x10 rfl, ne 0x1C rfl])]
  case str => rw [if_neg (ne 0x2C rfl)]
  case map => rw [if_neg (ne 0x28 rfl), if_neg (ne 0xA4 rfl), if_neg (ne 0xF8 rfl), if_neg (ne 0x84 rfl), if_neg (ne 0x100 rfl)]
  case pat => rw [if_neg (ne 0x60 rfl), if_neg (ne 0x10 rfl)]
  case jrc => rw [if_neg (ne 0x2C rfl), if_neg (ne 0x28 rfl)]
  case drc => rw [if_neg (ne 0x20 rfl)]
  case scb => rw [if_neg (ne 0x28 rfl)]
  case phc => rw [if_neg (ne 0x30 rfl), if_neg (ne 0x18 rfl)]
  case srt => rw [if_neg (ne 0x18 rfl)]
  case cry => rw [if_neg (ne 0x10 rfl)]

/-- Nor on the system side. -/
theorem systemEffect_quiet {b : Blk} {u o : Nat} (h : quietAt b u o = true) (i : Initiator) (v n : Nat) (e : Extra) :
    systemEffect s i b o v n e = s := by
  have ne : ∀ o', quietAt b u o' = false → o ≠ o' := fun _ => quiet_ne h
  cases b <;> simp only [systemEffect]
  case evf =>
    rw [if_neg (ne 0x400 rfl)]
    split
    · rename_i hr
      simp only [Bool.and_eq_true, decide_eq_true_eq] at hr
      have h0 : o % 16 ≠ 0 := fun e => Bool.false_ne_true (by rw [← not_quiet_wd hr.1 hr.2 (.inl e), h])
      have h4 : o % 16 ≠ 4 := fun e => Bool.false_ne_true (by rw [← not_quiet_wd hr.1 hr.2 (.inr e), h])
      simp [h0, h4]
    · rfl
  case cfg => rw [if_neg (ne 0x1C rfl), if_neg (ne 0x90 rfl)]
  case pwr => rw [if_neg (ne 0x38 rfl), if_neg (ne 0x40 rfl)]
  case thm => rw [if_neg (ne 0x18 rfl)]
  case rng => rw [if_neg (ne 0x44 rfl), if_neg (ne 0x48 rfl), if_neg (ne 0x54 rfl), if_neg (ne 0xC0 rfl), if_neg (ne 0x144 rfl)]
  case sec => rw [if_neg (ne 0x2C rfl), if_neg (ne 0x84 rfl), if_neg (ne 0xA0 rfl)]
  case evr =>
    rw [if_neg (ne 0x20 rfl), if_neg (ne 0x2C rfl), if_neg (ne 0x48 rfl), if_neg, if_neg (ne 0x2F0 rfl)]
    intro hr
    simp only [Bool.and_eq_true, decide_eq_true_eq] at hr
    exact Bool.false_ne_true (by rw [← not_quiet_evr hr.1 hr.2, h])

/-- It is no trigger. -/
theorem trigBusy_quiet {b : Blk} {u o : Nat} (h : quietAt b u o = true) (v : Nat) : trigBusy s b u o v = false := by
  have ne : ∀ o', quietAt b u o' = false → (o == o') = false := fun _ hn => beq_eq_false_iff_ne.mpr (quiet_ne h hn)
  cases b <;> simp only [trigBusy]
  case chn => rw [ne 0x28 rfl]; rfl
  case phc => rw [ne 0x30 rfl]; rfl
  case map => rw [ne 0xA4 rfl]; rfl
  case drc => rw [ne 0x20 rfl]; rfl
  case scb => rw [ne 0x28 rfl]; rfl
  case jrc => rw [ne 0x2C rfl]; rfl
  case pat => rw [ne 0x60 rfl]; rfl
  case sec => rw [ne 0x2C rfl]; rfl
  case cfg => rw [ne 0x90 rfl]; rfl
  case pwr => rw [ne 0x40 rfl]; rfl

/-- And its fields alone judge it. -/
theorem judgedApart_quiet {b : Blk} {u o : Nat} (h : quietAt b u o = true) (h4 : o ≠ 4) : judgedApart b o = false := by
  have ne : ∀ o', quietAt b u o' = false → o ≠ o' := fun _ => quiet_ne h
  cases b <;> simp only [judgedApart]
  case chn => simp [h4, ne 0x14 rfl, ne 0x18 rfl, ne 0x90 rfl]
  case map =>
    have hret : ¬ (0x180 ≤ o ∧ o < 0x200) := fun hr => Bool.false_ne_true (by rw [← not_quiet_map hr.1 hr.2, h])
    simpa [h4, ne 0x110 rfl, ne 0x14 rfl] using hret
  case phc => simp [h4, ne 0x10 rfl]
  case evr => simp [h4, ne 0x48 rfl]
  all_goals simp [h4]

/-- What a whole write of a quiet register comes to: its value with the bits cleared, or nothing where it is ignored. -/
theorem regStore_quiet {i : Initiator} {b : Blk} {u v : Nat} {x : RegAt} {e : Extra} (hx : findReg b u x.start = some x)
    (hq : x.row.flds.all quietFld = true) (h4 : x.start ≠ 4) :
    regStore s i b u x v e = if ignoredWrite i b x then s
      else storeReg s b u x.start (regView s i b u x.start) (fldsWrite x.row.flds (regView s i b u x.start) v).1 := by
  have hqa : quietAt b u x.start = true := by rw [quietAt, hx]; exact hq
  have hrow := (findReg_row hx).1
  have hsound : (x.row.flds.all fun f => !quietFld f || !f.conf) = true := by
    have := rowsOf_sound hrow
    simp only [rowSound, Bool.and_eq_true] at this
    exact this.2
  have hacc : x.row.flds.all (accepts v) = true := List.all_eq_true.mpr fun f hf => by
    have h1 := List.all_eq_true.mp hq f hf
    have h2 := List.all_eq_true.mp hsound f hf
    simp only [h1, Bool.not_true, Bool.false_or, Bool.not_eq_true'] at h2
    simp only [quietFld, Bool.or_eq_true, beq_iff_eq] at h1
    rcases h1 with h1 | h1 <;> simp [accepts, h1, h2]
  have hok : ∀ n, x.row.okRow n = true := rowsOf_okRow hrow (List.all_eq_true.mpr fun f hf => by
    have h1 := List.all_eq_true.mp hq f hf
    simp only [quietFld, Bool.or_eq_true, beq_iff_eq] at h1
    rcases h1 with h1 | h1 <;> simp [h1])
  cases hi : ignoredWrite i b x
  · rw [regStore_accepted hi (judgedApart_quiet hqa h4) hacc hok]
    simp only [trigBusy_quiet hqa, Bool.false_and, Bool.false_eq_true, if_false, flashEffect_quiet hqa, systemEffect_quiet hqa]
  · unfold regStore
    simp only [hi, if_true]

end Sys2Proof.Machine
end
section
/-! PROOFS. Writes that have no effect, writes of configuration fields while the block is ACTIVE, and triggers written while their
operation runs (R49, R50, R51, R55). Settles O12, O13 and O14. -/

namespace Sys2Proof.Machine

variable {s : State}

/-! ## Configuration fields (R50) -/

def confAt (b : Blk) (u o : Nat) : Bool := (findReg b u o).any fun x => x.row.flds.any fun f => f.conf

/-- The blocks in which some write has no effect and is no fault have no configuration field. -/
theorem rows_conf_free {b : Blk} {u : Nat} {r : Row} (hb : b = .evf ∨ b = .jrc ∨ b = .evr) (hr : r ∈ rowsOf b u) :
    (r.flds.any fun f => f.conf) = false := by
  have h : ((rowsOf b u).all fun r => !(r.flds.any fun f => f.conf)) = true := by rcases hb with rfl | rfl | rfl <;> rfl
  simpa using List.all_eq_true.mp h r hr

theorem not_ignored_of_conf {i : Initiator} {b : Blk} {u o : Nat} {x : RegAt} (hx : findReg b u o = some x)
    (hc : (x.row.flds.any fun f => f.conf) = true) : ignoredWrite i b x = false := by
  have hb : ¬ (b = .evf ∨ b = .jrc ∨ b = .evr) := fun hb => by
    rw [rows_conf_free hb (findReg_row hx).1] at hc
    cases hc
  simp only [not_or] at hb
  simp [ignoredWrite, hb]

/-- The retirement registers have no configuration field. -/
theorem retire_conf_free {u o : Nat} (h : o = 0x110 ∨ 0x180 ≤ o ∧ o < 0x200) : confAt .map u o = false := by
  rcases h with rfl | ⟨h1, h2⟩
  · rfl
  · have h : ∀ k : Fin 128, confAt .map 0 (0x180 + k) = false := by decide +kernel
    have := h ⟨o - 0x180, by omega⟩
    rwa [show 0x180 + (o - 0x180) = o by omega, confAt, ← findReg_unit (by decide) (by decide) u] at this

theorem phcWays_le (s : State) : phcWays s ≤ 16 := by
  have h := bitsOf_lt (rd s (Reg.ctl .phc)) 2 1
  have h : rdField s (Reg.ctl .phc) 2 1 + 1 ≤ 4 := h
  exact Nat.pow_le_pow_right (by decide) h

/-- A changed configuration field while the block is ACTIVE: KIND 0x6 alone. -/
theorem regStore_conf {i : Initiator} {b : Blk} {u v : Nat} {x : RegAt} {e : Extra} (hx : findReg b u x.start = some x)
    (h4 : x.start ≠ 4) (ha : active s b u = true)
    (hc : confChange x.row.flds (regView s i b u x.start)
      (if b == .phc && x.start = 0x10 then v % 2 ^ phcWays s + regView s i b u x.start / 2 ^ phcWays s * 2 ^ phcWays s else v) = true) :
    regStore s i b u x v e = accessFault s b u 1 6 (initCode i) x.start := by
  have hconf : (x.row.flds.any fun f => f.conf) = true := by
    obtain ⟨f, hf, h⟩ := List.any_eq_true.mp hc
    rw [Bool.and_eq_true] at h
    exact List.any_eq_true.mpr ⟨f, hf, h.1⟩
  have hat : confAt b u x.start = true := by rw [confAt, hx]; exact hconf
  have hmap : (b == .map && (x.start == 0x110 || (0x180 ≤ x.start && x.start < 0x200))) = false := by
    rw [← Bool.not_eq_true]
    intro h
    simp only [Bool.and_eq_true, Bool.or_eq_true, beq_iff_eq, decide_eq_true_eq] at h
    rw [h.1, retire_conf_free h.2] at hat
    cases hat
  unfold regStore
  simp only [not_ignored_of_conf hx hconf, h4, hmap, hc, ha, Bool.false_eq_true, if_false, Bool.and_true, if_true]

/-! ## CTL (R51) -/

theorem findReg_ctl (b : Blk) (u : Nat) : findReg b u 4 = some { row := r32 4 (ctlFields b), i1 := 0, i2 := 0, start := 4 } := rfl

/-- A core's write of CTL is the block's enable or disable. -/
theorem writeAccess_ctl {i : Initiator} {b : Blk} {u : Nat} (h : coreAccess s i b u = true)
    (hl : locate (Reg.ctl b u) = some (b, u, 4)) (v : Nat) (e : Extra) :
    writeAccess s i (Reg.ctl b u) 4 v e = ctlStore s i b u (v % 2 ^ 32) := by
  rw [writeAccess_word h hl rfl (findReg_ctl b u) rfl]
  have hi : ignoredWrite i b { row := r32 4 (ctlFields b), i1 := 0, i2 := 0, start := 4 } = false := by simp [ignoredWrite, r32]
  unfold regStore
  simp only [hi, if_true, Bool.false_eq_true, if_false]

/-- The blocks whose EN is fixed have no configuration field in CTL. -/
theorem ctl_fixed_conf_free {b : Blk} (h : b = .thm ∨ b = .pwr ∨ b = .evf) (old v : Nat) : confChange (ctlFields b) old v = false := by
  rcases h with rfl | rfl | rfl <;> rfl

/-- EN = 1 with a changed configuration field, while ACTIVE: KIND 0x6, and EN is written. -/
theorem ctlStore_conf {i : Initiator} {b : Blk} {u v : Nat} (ha : active s b u = true) (hv : v % 2 = 1)
    (hc : confChange (ctlFields b) (rd s (Reg.ctl b u)) v = true) :
    ctlStore s i b u v = accessFault (wrField s (Reg.ctl b u) 0 0 v) b u 1 6 (initCode i) 4 := by
  have hb : ¬ (b = .thm ∨ b = .pwr ∨ b = .evf) := fun hb => by
    rw [ctl_fixed_conf_free hb] at hc
    cases hc
  simp only [not_or] at hb
  simp [ctlStore, ha, hv, hc, hb]

theorem ctl_ne_sts (b : Blk) (u : Nat) : Reg.ctl b u ≠ Reg.sts b u := by simp [Reg.ctl, Reg.sts]
theorem ctl_ne_errAddr (b : Blk) (u : Nat) : Reg.ctl b u ≠ Reg.errAddr b u := by simp [Reg.ctl, Reg.errAddr]

theorem signalReg_ctl (b : Blk) (u : Nat) : signalReg (Reg.ctl b u) = false := by
  rw [← Bool.not_eq_true, signalReg_iff]
  cases b <;> simp only [Reg.ctl, Blk.base] <;> omega

/-- A configuration field of CTL does not reach down to EN. -/
theorem ctl_conf_above_en {b : Blk} {f : Fld} (hf : f ∈ ctlFields b) (hc : f.conf = true) : 0 < f.lo := by
  have h : ((ctlFields b).all fun f => !f.conf || decide (0 < f.lo)) = true := by cases b <;> rfl
  have := List.all_eq_true.mp h f hf
  simpa [hc] using this

/-! ## Triggers (R55) -/

theorem storeReg_self (b : Blk) (u o old : Nat) : storeReg s b u o old old = s := by simp [storeReg]

/-- A register of write-only fields that starts an operation, judged by its fields alone. -/
structure IsTrigger (b : Blk) (u o : Nat) (x : RegAt) : Prop where
  reg : findReg b u o = some x
  start : x.start = o
  narrow : x.row.wide = false
  aligned : o % 4 = 0
  plain : judgedApart b o = false
  writeOnly : (x.row.flds.all fun f => f.acc == .wo) = true
  heeded : ∀ i, ignoredWrite i b x = false

/-- The register of a row that has only one. -/
def single (o : Nat) (flds : List Fld) : RegAt := { row := r32 o flds, i1 := 0, i2 := 0, start := o }

/-- What a core's write of a trigger comes to: ignored with KIND 0x7 while the operation runs, else the operation. Only the reset of
couriers and the scrub go on from a report. -/
theorem writeAccess_trigger {i : Initiator} {b : Blk} {u a o : Nat} {x : RegAt} (h : coreAccess s i b u = true)
    (hl : locate a = some (b, u, o)) (ht : IsTrigger b u o x) {v : Nat} (hv : x.row.flds.all (accepts (v % 2 ^ 32)) = true) (e : Extra) :
    writeAccess s i a 4 v e =
      let busy := trigBusy s b u o (v % 2 ^ 32)
      let t := if busy then accessFault s b u 2 7 (initCode i) o else s
      if busy && b != .pwr && b != .scb then t
      else systemEffect (flashEffect t i b u o (v % 2 ^ 32) e) i b o (v % 2 ^ 32) (regView s i b u o) e := by
  obtain ⟨hx, hs, hw, ho, hj, hwo, hi⟩ := ht
  subst hs
  have hkeep : (fldsWrite x.row.flds (regView s i b u x.start) (v % 2 ^ 32)).1 = regView s i b u x.start :=
    fldsWrite_keeps fun f hf => fldWrite_wo (List.all_eq_true.mp hwo f hf)
  have hok : ∀ n, x.row.okRow n = true := rowsOf_okRow (findReg_row hx).1 (List.all_eq_true.mpr fun f hf => by
    rw [beq_iff_eq.mp (List.all_eq_true.mp hwo f hf)]
    rfl)
  rw [writeAccess_word h hl ho hx hw, regStore_accepted (hi i) hj hv hok]
  simp only [hkeep, storeReg_self]

theorem writeAccess_busy {i : Initiator} {b : Blk} {u a o : Nat} {x : RegAt} (h : coreAccess s i b u = true)
    (hl : locate a = some (b, u, o)) (ht : IsTrigger b u o x) {v : Nat} (hv : x.row.flds.all (accepts (v % 2 ^ 32)) = true) (e : Extra)
    (hb : trigBusy s b u o (v % 2 ^ 32) = true) (hn : (b != .pwr && b != .scb) = true) :
    writeAccess s i a 4 v e = accessFault s b u 2 7 (initCode i) o := by
  rw [writeAccess_trigger h hl ht hv e]
  simp only [hb, hn, Bool.true_and, if_true]

theorem isTrigger_training (c : Nat) : IsTrigger .chn c 0x28 (single 0x28 [wo 0 0]) := ⟨rfl, rfl, rfl, rfl, rfl, rfl, fun _ => rfl⟩
theorem isTrigger_phcRange : IsTrigger .phc 0 0x30 (single 0x30 [wo 1 0]) := ⟨rfl, rfl, rfl, rfl, rfl, rfl, fun _ => rfl⟩
theorem isTrigger_jrcCut : IsTrigger .jrc 0 0x2C (single 0x2C [wo 1 0 (within 1 2)]) := ⟨rfl, rfl, rfl, rfl, rfl, rfl, fun _ => rfl⟩
theorem isTrigger_norCmd : IsTrigger .cfg 0 0x90 (single 0x90 [wo 10 8, wo 3 0 (fun v => v ≤ 7)]) :=
  ⟨rfl, rfl, rfl, rfl, rfl, rfl, fun _ => rfl⟩
theorem isTrigger_scrub : IsTrigger .scb 0 0x28 (single 0x28 [wo 1 0]) := ⟨rfl, rfl, rfl, rfl, rfl, rfl, fun _ => rfl⟩
theorem isTrigger_courierReset : IsTrigger .pwr 0 0x40 (single 0x40 [wo 31 0]) := ⟨rfl, rfl, rfl, rfl, rfl, rfl, fun _ => rfl⟩
theorem isTrigger_victimScan : IsTrigger .map 0 0xA4 (single 0xA4 [wo 0 0]) := ⟨rfl, rfl, rfl, rfl, rfl, rfl, fun _ => rfl⟩
theorem isTrigger_zeroFill : IsTrigger .drc 0 0x20 (single 0x20 [wo 0 0]) := ⟨rfl, rfl, rfl, rfl, rfl, rfl, fun _ => rfl⟩
theorem isTrigger_verify : IsTrigger .sec 0 0x2C (single 0x2C [wo 0 0]) := ⟨rfl, rfl, rfl, rfl, rfl, rfl, fun _ => rfl⟩
theorem isTrigger_ownerSearch : IsTrigger .pat 0 0x60 (single 0x60 [wo 6 0 (fun v => v ≤ 64)]) := ⟨rfl, rfl, rfl, rfl, rfl, rfl, fun _ => rfl⟩

/-- A field written into a value, read from its low 32 bits. -/
theorem bitsOf_word_setBits (v hi lo x : Nat) (h : hi < 32) : bitsOf (setBits v hi lo x % 2 ^ 32) hi lo = x % 2 ^ (hi + 1 - lo) := by
  rw [bitsOf_mod _ _ _ _ h, bitsOf_setBits]

theorem bitOf_word_setBits (v n x : Nat) (h : n < 32) : bitOf (setBits v n n x % 2 ^ 32) n = bitOf x 0 := by
  rw [bitOf_mod _ _ _ h, bitOf_setBits_one]

end Sys2Proof.Machine

namespace Sys2Proof.Proofs
open Sys2Proof.Machine

variable {s : State}

/-! ## Writes without an effect (R49) -/

/-- What a write of a register of read-only fields and fields that clear comes to depends on the W1C bits that are set. -/
theorem regWrite_quiet_congr {i : Initiator} {off u o v w : Nat} {b : Blk} {x : RegAt} {e : Extra} (hi : islandRuns s b u = true)
    (hl : locate off = some (b, u, o)) (hx : findReg b u o = some x) (hs : o = x.start)
    (ho : o % (if x.row.wide then 8 else 4) = 0) (h4 : o ≠ 4)
    (h : ∀ f ∈ x.row.flds, f.acc = .ro ∨ f.acc = .w1c ∧ bitsOf v f.hi f.lo &&& bitsOf (regView s i b u x.start) f.hi f.lo =
      bitsOf w f.hi f.lo &&& bitsOf (regView s i b u x.start) f.hi f.lo) :
    regWrite s i off (if x.row.wide then 8 else 4) v e = regWrite s i off (if x.row.wide then 8 else 4) w e := by
  subst hs
  have hq : x.row.flds.all quietFld = true := List.all_eq_true.mpr fun f hf => by
    simpa only [quietFld, Bool.or_eq_true, beq_iff_eq] using (h f hf).imp_right And.left
  obtain ⟨hwidth, hapart⟩ := (rowsOf_sound (findReg_row hx).1 |> Bool.and_eq_true_iff.mp).1 |> Bool.and_eq_true_iff.mp
  have hcut : ∀ f ∈ x.row.flds, ∀ n, bitsOf (n % 2 ^ (if x.row.wide then 64 else 32)) f.hi f.lo = bitsOf n f.hi f.lo := fun f hf n =>
    bitsOf_mod _ _ _ _ (of_decide_eq_true (List.all_eq_true.mp hwidth f hf))
  have hcong := fldsWrite_congr hapart (old := regView s i b u x.start) (v := v % 2 ^ (if x.row.wide then 64 else 32))
    (w := w % 2 ^ (if x.row.wide then 64 else 32)) fun f hf => by
      rw [hcut f hf, hcut f hf]
      exact h f hf
  rw [regWrite_whole hi hl hx rfl ho, regWrite_whole hi hl hx rfl ho, regStore_quiet hx hq h4, regStore_quiet hx hq h4, hcong]

/-- Writing 0 to such a register changes nothing. -/
theorem regWrite_quiet_zero {i : Initiator} {off u o : Nat} {b : Blk} {x : RegAt} {e : Extra} (hi : islandRuns s b u = true)
    (hl : locate off = some (b, u, o)) (hx : findReg b u o = some x) (hs : o = x.start)
    (ho : o % (if x.row.wide then 8 else 4) = 0) (h4 : o ≠ 4) (h : ∀ f ∈ x.row.flds, f.acc = .ro ∨ f.acc = .w1c) :
    regWrite s i off (if x.row.wide then 8 else 4) 0 e = s := by
  subst hs
  have hq : x.row.flds.all quietFld = true := List.all_eq_true.mpr fun f hf => by
    simpa only [quietFld, Bool.or_eq_true, beq_iff_eq] using h f hf
  have hkeep : (fldsWrite x.row.flds (regView s i b u x.start) 0).1 = regView s i b u x.start :=
    fldsWrite_keeps fun f hf => by
      rcases h f hf with hf | hf
      · rw [fldWrite_ro hf]
      · rw [fldWrite_w1c_zero hf]
  rw [regWrite_whole hi hl hx rfl ho, Nat.zero_mod, regStore_quiet hx hq h4, hkeep, storeReg_self, ite_self]

/-- The register of a source's route. -/
theorem findReg_route (n : Fin 256) : ∃ x, findReg .evf 0 (0x800 + 4 * n) = some x ∧ x.start = 0x800 + 4 * n.val ∧ x.row.wide = false ∧
    (x.row.flds.all fun f => f.acc == .mw && !f.conf && decide (f.hi < 16)) = true := by
  have h : ∀ n : Fin 256, ((findReg .evf 0 (0x800 + 4 * n)).any fun x => decide (x.start = 0x800 + 4 * n.val) && !x.row.wide &&
      x.row.flds.all fun f => f.acc == .mw && !f.conf && decide (f.hi < 16)) = true := by decide +kernel
  obtain ⟨x, hx, hp⟩ := Option.any_eq_true _ _ |>.mp (h n)
  simp only [Bool.and_eq_true, decide_eq_true_eq, Bool.not_eq_true'] at hp
  exact ⟨x, hx, hp.1.1, hp.1.2, hp.2⟩

theorem locate_route {n : Nat} (hn : n < 256) : locate (Reg.route n) = some (.evf, 0, 0x800 + 4 * n) := by
  have h : ∀ n : Fin 256, locate (Reg.route n) = some (.evf, 0, 0x800 + 4 * n.val) := by decide +kernel
  exact h ⟨n, hn⟩

/-- A route takes a write without mask bits and keeps its value. -/
theorem route_keeps {old v : Nat} {f : Fld} (hf : (f.acc == .mw && !f.conf && decide (f.hi < 16)) = true) (hv : v / 2 ^ 16 % 2 ^ 16 = 0) :
    accepts v f = true ∧ (fldWrite old v f).1 = old := by
  simp only [Bool.and_eq_true, beq_iff_eq, Bool.not_eq_true', decide_eq_true_eq] at hf
  obtain ⟨⟨hacc, hconf⟩, hhi⟩ := hf
  have hm : bitsOf (v / 2 ^ 16) f.hi f.lo = 0 := by
    rw [← bitsOf_mod _ _ _ _ hhi, hv]
    simp [bitsOf]
  exact ⟨by rw [accepts, hacc, hconf, hm]; rfl, fldWrite_mw_zero hacc hm⟩

theorem regWrite_route_unmasked {i : Initiator} {n v : Nat} {e : Extra} (hi : islandRuns s .evf 0 = true) (hn : n < 256)
    (hv : v / 2 ^ 16 % 2 ^ 16 = 0) : regWrite s i (Reg.route n) 4 v e = s := by
  obtain ⟨x, hx, hs, hw, hf⟩ := findReg_route ⟨n, hn⟩
  dsimp only at hx hs
  have hlow : v % 2 ^ 32 / 2 ^ 16 % 2 ^ 16 = 0 := by omega
  have hfld : ∀ f ∈ x.row.flds, accepts (v % 2 ^ 32) f = true ∧ (fldWrite (regView s i .evf 0 x.start) (v % 2 ^ 32) f).1 = _ :=
    fun f h => route_keeps (List.all_eq_true.mp hf f h) hlow
  have hwhole := regWrite_whole (i := i) hi (locate_route hn) hx hs.symm (by rw [hw]; simp only [Bool.false_eq_true, if_false]; omega) v e
  simp only [hw, Bool.false_eq_true, if_false] at hwhole
  rw [hwhole]
  cases hg : ignoredWrite i .evf x
  · have hok : ∀ m, x.row.okRow m = true := rowsOf_okRow (findReg_row hx).1 (List.all_eq_true.mpr fun f h => by
      have := List.all_eq_true.mp hf f h
      simp only [Bool.and_eq_true, beq_iff_eq] at this
      simp [this.1.1])
    rw [regStore_accepted hg (by rw [hs]; simp [judgedApart]; omega) (List.all_eq_true.mpr fun f h => (hfld f h).1) hok]
    have h400 : ¬ 0x800 + 4 * n = 0x400 := by omega
    have hwd : ¬ (0x1100 ≤ 0x800 + 4 * n ∧ 0x800 + 4 * n < 0x11A0) := by omega
    have hkeep := fldsWrite_keeps fun f h => (hfld f h).2
    rw [hs] at hkeep
    simp only [trigBusy, hs, hkeep, storeReg_self, Bool.false_and, Bool.false_eq_true, if_false, flashEffect, systemEffect, h400,
      Bool.and_eq_true, decide_eq_true_eq, hwd]
  · unfold regStore
    simp only [hg, if_true]

theorem inertWrite : Claims.inertWrite := by
  intro s i off u o b x v hr hi hl hx hs ho h4 hf
  refine completes_write hr ?_
  rw [regWrite_quiet_congr (w := 0) hi hl hx hs ho h4 fun f h => (hf f h).imp_right fun ⟨ha, hz⟩ => ⟨ha, by rw [hz]; simp [bitsOf]⟩]
  exact regWrite_quiet_zero hi hl hx hs ho h4 fun f h => (hf f h).imp_right And.left

theorem zeroBitsInert : Claims.zeroBitsInert := by
  intro s i off u o b x v w hr hi hl hx hs ho h4 hf
  refine completes_write hr ?_
  rw [regWrite_quiet_congr hi hl hx hs ho h4 hf, ← writeAccess_reaches hr]
  rfl

theorem maskZeroWrite : Claims.maskZeroWrite := fun _ _ _ _ hr hi hn hv =>
  completes_write hr (regWrite_route_unmasked hi hn hv)

/-- Settles O12: a field that a write keeps is kept whatever else is written, and none of these registers sets anything off. -/
theorem inertWrites : Obligations.InertWrites := ⟨inertWrite, zeroBitsInert, maskZeroWrite⟩

/-! ## Configuration fields of an ACTIVE block (R50, R51) -/

theorem configWhileActive : Claims.configWhileActive := by
  intro s i off u o b x v hcore hl hx hw ho h4 hact hconf
  have hstart : x.start = o := findReg_start hx hw ho
  rw [coreAccess_iff] at hcore
  obtain ⟨hc, ha, hi⟩ := hcore
  subst hstart
  refine completes_write (writeReaches_core hc ha off) ?_
  have hwhole := regWrite_whole (i := i) (s := s) hi hl hx rfl (by simpa [hw] using ho) v.toNat {}
  simp only [hw, Bool.false_eq_true, if_false] at hwhole
  rw [hwhole]
  refine regStore_conf hx h4 hact ?_
  have hways : v.toNat % 2 ^ 32 % 2 ^ phcWays s = v.toNat % 2 ^ phcWays s :=
    Nat.mod_mod_of_dvd _ (Nat.pow_dvd_pow 2 (by have := phcWays_le s; omega))
  rw [hways]
  simpa only [Bool.and_eq_true, beq_iff_eq, decide_eq_true_eq] using hconf

theorem ctlWhileActive : Claims.ctlWhileActive := by
  intro s i b u v hcore hl hact hv hconf
  have hlow : v.toNat % 2 ^ 32 = v.toNat := Nat.mod_eq_of_lt v.isLt
  refine ⟨_, rfl, ?_⟩
  rw [writeAccess_ctl hcore hl, hlow, ctlStore_conf hact hv hconf]
  have hsts : rdField (wrField s (Reg.ctl b u) 0 0 v.toNat) (Reg.sts b u) 2 0 = rdField s (Reg.sts b u) 2 0 := by
    rw [rdField, rd_wrField_other _ (ctl_ne_sts b u).symm, rdField]
  obtain ⟨hbit, hcap⟩ := accessFault_sets (s := wrField s (Reg.ctl b u) 0 0 v.toNat) b u 1 6 (initCode i) 4 (by decide)
  have hinit : initCode i < 12 := by
    cases i with
    | ap k => exact Nat.lt_of_lt_of_le k.isLt (by decide)
    | sc0 => decide
    | sc1 => decide
    | bar2 p => cases p <;> decide
  refine ⟨hbit, fun h => ?_, fun f hf hc h32 => ?_⟩
  · rw [hcap (by rw [hsts, h]), Nat.mod_eq_of_lt (by omega)]
    rfl
  · rw [rd_accessFault_other _ _ _ _ _ _ (signalReg_ctl b u) (ctl_ne_sts b u) (ctl_ne_errAddr b u)]
    exact rdField_wrField_other s _ _ _ _ _ _ (by omega) (.inr (ctl_conf_above_en hf hc))

/-- Settles O13: a changed configuration field is judged before anything is stored. -/
theorem configurationWhileActive : Obligations.ConfigurationWhileActive := ⟨configWhileActive, ctlWhileActive⟩

/-! ## Triggers while their operation runs (R55) -/

/-- A command that writes a trigger while its operation runs is ignored. -/
theorem ignored_of_busy {c : Instr} {i : Initiator} {b : Blk} {u a o v : Nat} {x : RegAt} {e : Extra}
    (hc : exec c s = .next (writeAccess s i a 4 v e)) (h : coreAccess s i b u = true) (hl : locate a = some (b, u, o))
    (ht : IsTrigger b u o x) (hv : x.row.flds.all (accepts (v % 2 ^ 32)) = true) (hb : trigBusy s b u o (v % 2 ^ 32) = true)
    (hn : (b != .pwr && b != .scb) = true) : Claims.Ignored c s i b u o :=
  ⟨_, hc, writeAccess_busy h hl ht hv e hb hn⟩

theorem training_ignored {i : Initiator} {c : Fin 32} (h : coreAccess s i .chn c = true)
    (hb : ((courier s c).training.isSome || (courier s c).wantTrain.isSome) = true) (v : Word) :
    Claims.Ignored (.trainingStart i c v) s i .chn c 0x28 :=
  ignored_of_busy rfl h (loc_chn c _ (by decide)) (isTrigger_training c) rfl
    (by rw [trigBusy, bitOf_word_setBits _ _ _ (by decide), hb]; rfl) rfl

theorem phcRange_busy (hb : s.phc.rng.isSome = true) (v op : Nat) (hop : op % 2 ^ 2 ≠ 0) :
    trigBusy s .phc 0 0x30 (setBits v 1 0 op % 2 ^ 32) = true := by
  rw [trigBusy, bitsOf_word_setBits _ _ _ _ (by decide), hb]
  simpa using hop

theorem phcRange_ignored {i : Initiator} (h : coreAccess s i .phc 0 = true) (hb : s.phc.rng.isSome = true) (v : Word) :
    Claims.Ignored (.phcRangeClean i v) s i .phc 0 0x30 ∧ Claims.Ignored (.phcRangeInvalidate i v) s i .phc 0 0x30 ∧
      Claims.Ignored (.phcRangeCleanInvalidate i v) s i .phc 0 0x30 :=
  ⟨ignored_of_busy rfl h rfl isTrigger_phcRange rfl (phcRange_busy hb _ 1 (by decide)) rfl,
    ignored_of_busy rfl h rfl isTrigger_phcRange rfl (phcRange_busy hb _ 2 (by decide)) rfl,
    ignored_of_busy rfl h rfl isTrigger_phcRange rfl (phcRange_busy hb _ 3 (by decide)) rfl⟩

/-- JRC_CUT takes the commands 1 and 2. -/
theorem jrcCut_accepts (v op : Nat) (hop : op = 1 ∨ op = 2) : [wo 1 0 (within 1 2)].all (accepts (setBits v 1 0 op % 2 ^ 32)) = true := by
  simp only [List.all_cons, List.all_nil, accepts, wo, bitsOf_word_setBits _ 1 0 _ (by decide)]
  rcases hop with rfl | rfl <;> rfl

theorem jrcCut_ignored {i : Initiator} (h : coreAccess s i .jrc 0 = true) (hb : (s.jrc.hold || s.jrc.committing) = true) (v : Word) :
    Claims.Ignored (.jrcCutover i v) s i .jrc 0 0x2C ∧ Claims.Ignored (.jrcCommit i v) s i .jrc 0 0x2C := by
  have hbusy : ∀ w, trigBusy s .jrc 0 0x2C w = true := fun w => by
    rw [trigBusy, hb]
    rfl
  exact ⟨ignored_of_busy rfl h rfl isTrigger_jrcCut (jrcCut_accepts _ _ (.inl rfl)) (hbusy _) rfl,
    ignored_of_busy rfl h rfl isTrigger_jrcCut (jrcCut_accepts _ _ (.inr rfl)) (hbusy _) rfl⟩

/-- NOR_CMD takes the commands 1 to 7, with any flags. -/
theorem norCmd_ignored {c : Instr} {i : Initiator} (h : coreAccess s i .cfg 0 = true) (hb : s.boot.op.isSome = true) {v : Nat}
    (hc : exec c s = .next (writeAccess s i 0xE0090 4 v {})) (h0 : bitsOf (v % 2 ^ 32) 3 0 ≠ 0)
    (h7 : bitsOf (v % 2 ^ 32) 3 0 ≤ 7) : Claims.Ignored c s i .cfg 0 0x90 := by
  refine ignored_of_busy hc h rfl isTrigger_norCmd ?_ ?_ rfl
  · simp only [single, r32, List.all_cons, List.all_nil, accepts, wo, h7, decide_true, Bool.not_false, Bool.and_true]
  · simp only [trigBusy, hb, bne_iff_ne.mpr h0, beq_self_eq_true, Bool.and_true]

theorem nor_ignored {i : Initiator} (h : coreAccess s i .cfg 0 = true) (hb : s.boot.op.isSome = true) (slot recom com : Bool) :
    Claims.Ignored (.norRead i) s i .cfg 0 0x90 ∧ Claims.Ignored (.norWrite i) s i .cfg 0 0x90 ∧
      Claims.Ignored (.norBasewr i) s i .cfg 0 0x90 ∧ Claims.Ignored (.norOvlwr i) s i .cfg 0 0x90 ∧
      Claims.Ignored (.norSlotwr i slot) s i .cfg 0 0x90 ∧ Claims.Ignored (.norBootrec i slot recom com) s i .cfg 0 0x90 ∧
      Claims.Ignored (.norIdwr i) s i .cfg 0 0x90 :=
  ⟨norCmd_ignored h hb rfl (by decide) (by decide), norCmd_ignored h hb rfl (by decide) (by decide),
    norCmd_ignored h hb rfl (by decide) (by decide),
    norCmd_ignored h hb rfl (by decide) (by decide), norCmd_ignored h hb rfl (by revert slot; decide) (by revert slot; decide),
    norCmd_ignored h hb rfl (by revert slot recom com; decide)
      (by revert slot recom com; decide), norCmd_ignored h hb rfl (by decide) (by decide)⟩

/-- A start while a scrub runs: the report, and neither a second scrub nor a stop. -/
theorem scrub_ignored {i : Initiator} (h : coreAccess s i .scb 0 = true) (hb : s.mem.scrub.isSome = true) (v : Word) :
    Claims.Ignored (.scrubStart i v) s i .scb 0 0x28 := by
  refine ⟨_, rfl, ?_⟩
  have h0 : bitOf (setBits v.toNat 1 0 1 % 2 ^ 32) 0 = true := by
    rw [bitOf_mod _ _ _ (by decide), bitOf_setBits_low _ _ _ _ (by decide)]
    rfl
  have h1 : bitOf (setBits v.toNat 1 0 1 % 2 ^ 32) 1 = false := by
    rw [bitOf_mod _ _ _ (by decide), bitOf_setBits_low _ _ _ _ (by decide)]
    rfl
  have hnone : s.mem.scrub.isNone = false := by rw [← Option.not_isSome, hb]; rfl
  rw [writeAccess_trigger h rfl isTrigger_scrub rfl]
  generalize setBits v.toNat 1 0 1 % 2 ^ 32 = w at h0 h1 ⊢
  simp [trigBusy, flashEffect, systemEffect, hb, h0, h1, hnone]

/-- A reset of couriers all of which are being reset: the report, and none is reset again. -/
theorem courierReset_ignored {i : Initiator} (h : coreAccess s i .pwr 0 = true) (v : Word) (hsome : ∃ c, c < 32 ∧ bitOf v.toNat c = true)
    (hall : ∀ c, c < 32 → bitOf v.toNat c = true → (courier s c).reset = true) : Claims.Ignored (.courierReset i v) s i .pwr 0 0x40 := by
  refine ⟨_, rfl, ?_⟩
  have hlow : v.toNat % 2 ^ 32 = v.toNat := Nat.mod_eq_of_lt v.isLt
  obtain ⟨c, hc, hbit⟩ := hsome
  have hbusy : trigBusy s .pwr 0 0x40 v.toNat = true := by
    rw [trigBusy, List.any_eq_true.mpr ⟨c, List.mem_range.mpr hc, by rw [hbit, hall c hc hbit]; rfl⟩]
    rfl
  have hnone : ((List.range 32).filter fun c => bitOf v.toNat c && !(courier s c).reset) = [] :=
    List.filter_eq_nil_iff.mpr fun c hc => by
      cases hb : bitOf v.toNat c
      · simp
      · simp [hall c (List.mem_range.mp hc) hb]
  rw [writeAccess_trigger h rfl isTrigger_courierReset (by rfl) {}]
  have hcour : ∀ b u k n j o c, courier (accessFault s b u k n j o) c = courier s c := fun b u k n j o c => by
    simp only [courier, accessFault_flash]
  rw [hlow]
  simp [hbusy, flashEffect, systemEffect, hcour, hnone]

theorem victimScan_ignored {i : Initiator} (h : coreAccess s i .map 0 = true) (hb : s.map.scanning = true) (v : Word) :
    Claims.Ignored (.victimScan i v) s i .map 0 0xA4 :=
  ignored_of_busy rfl h rfl isTrigger_victimScan rfl (by rw [trigBusy, bitOf_word_setBits _ _ _ (by decide), hb]; rfl) rfl

theorem zeroFill_ignored {i : Initiator} (h : coreAccess s i .drc 0 = true) (hb : s.mem.zf.isSome = true) (v : Word) :
    Claims.Ignored (.zeroFillStart i v) s i .drc 0 0x20 :=
  ignored_of_busy rfl h rfl isTrigger_zeroFill rfl (by rw [trigBusy, bitOf_word_setBits _ _ _ (by decide), hb]; rfl) rfl

theorem imageVerify_ignored {i : Initiator} (h : coreAccess s i .sec 0 = true) (hb : s.sec.verifying = true) (v : Word) :
    Claims.Ignored (.imageVerify i v) s i .sec 0 0x2C :=
  ignored_of_busy rfl h rfl isTrigger_verify rfl (by rw [trigBusy, bitOf_word_setBits _ _ _ (by decide), hb]; rfl) rfl

theorem ownerSearch_ignored {i : Initiator} (h : coreAccess s i .pat 0 = true) (hb : s.pat.search.isSome = true) (v : Word)
    (l : List (Ppa × Bool)) (h0 : v.toNat % 128 ≠ 0) (h64 : v.toNat % 128 ≤ 64) :
    Claims.Ignored (.ownerSearch i v l) s i .pat 0 0x60 := by
  have hk : bitsOf (v.toNat % 2 ^ 32) 6 0 = v.toNat % 128 := by
    rw [bitsOf_mod _ _ _ _ (by decide)]
    simp [bitsOf]
  refine ignored_of_busy rfl h rfl isTrigger_ownerSearch ?_ ?_ rfl
  all_goals generalize v.toNat % 2 ^ 32 = w at hk ⊢
  · simp [single, r32, accepts, wo, hk, h64]
  · simp [trigBusy, hb, hk, h0]

/-- Settles O14, trigger by trigger. -/
theorem triggersWhileRunning : Obligations.TriggersWhileRunning := fun _ _ =>
  ⟨fun _ h hb v => training_ignored h hb v, fun h hb v => phcRange_ignored h hb v, fun h hb v => jrcCut_ignored h hb v,
    fun h hb slot recom com => nor_ignored h hb slot recom com, fun h hb v => scrub_ignored h hb v,
    fun h v hsome hall => courierReset_ignored h v hsome hall, fun h hb v => victimScan_ignored h hb v,
    fun h hb v => zeroFill_ignored h hb v, fun h hb v => imageVerify_ignored h hb v,
    fun h hb v l h0 h64 => ownerSearch_ignored h hb v l h0 h64⟩

end Sys2Proof.Proofs
end
section
/-! PROOFS. The event fabric's commands and the disable sequence: what each does, from hypotheses on the state and the operands alone
(R46, R52, R62, R65, R66, R67). Settles O22. -/

namespace Sys2Proof.Machine

variable {s : State}

/-! ## The disable sequence (R52) -/

/-- The patrol's disable sequence, with nothing left to wait for and EN still 0. -/
theorem disableDone_patrol (hl : leaving s .pat = true) (hc : s.pat.cur = none) (hs : s.pat.search = none) (he : enabled s .pat = false) :
    disableDone s .pat 0 =
      setActive (updChip s fun c => { c with disabling := c.disabling.filter fun x => !(x.1 == .pat && x.2 == 0) }) .pat 0 false := by
  have hready : disableReady s .pat 0 = true := by simp [disableReady, hc, hs]
  have hen : ∀ f, enabled (setActive (updChip s f) .pat 0 false) .pat 0 = false := fun f => by
    rw [enabled, setActive, rd_wrField_other _ (ctl_ne_sts .pat 0), rd_updChip]
    exact he
  have hb : (Blk.pat == Blk.phc) = false := rfl
  simp only [disableDone, hb, hl, hready, hen, Bool.not_true, Bool.or_self, Bool.false_eq_true, if_false]

/-- A sequence that has ended is no longer in progress. -/
theorem leaving_filter (s : State) (b : Blk) (u : Nat) :
    leaving (updChip s fun c => { c with disabling := c.disabling.filter fun x => !(x.1 == b && x.2 == u) }) b u = false := by
  simp [leaving, updChip]

/-! ## Doorbells (Table 2-10) -/

/-- A core that can send an access is not held in reset. -/
theorem not_held_of_coreAccess {i : Initiator} {b : Blk} {u : Nat} (h : coreAccess s i b u = true) : s.chip.held = false := by
  obtain ⟨hc, ha, -⟩ := coreAccess_iff.mp h
  cases i with
  | bar2 p => cases hc
  | ap k => simp_all [canAccess, coresRun]
  | sc0 => simp_all [canAccess, coresRun]
  | sc1 => simp_all [canAccess, coresRun]

/-- A source stays pending through further raises. -/
theorem raised_raises_mono {m : Nat} (l : List Nat) (f : Nat → Nat) (pl : List Byte) (h : raised s m = true) :
    raised (l.foldl (fun s k => raiseWith s (f k) pl) s) m = true := by
  induction l generalizing s with
  | nil => exact h
  | cons k l ih => exact ih (raised_raiseWith_mono _ _ _ h)

/-- Each of a list of raises leaves its source pending. -/
theorem raised_raises {k : Nat} {l : List Nat} {f : Nat → Nat} (pl : List Byte) (hc : s.chip.held = false)
    (hf : f k < 248 ∧ (f k < 157 ∨ 159 < f k)) (hk : k ∈ l) : raised (l.foldl (fun s k => raiseWith s (f k) pl) s) (f k) = true := by
  induction l generalizing s with
  | nil => cases hk
  | cons j l ih =>
    rcases List.mem_cons.mp hk with rfl | hk
    · exact raised_raises_mono l f pl (raised_raiseWith hf.1 hf.2 hc _ _)
    · exact ih (by rw [raiseWith_chip, hc]) hk

theorem isTrigger_doorbell : IsTrigger .evf 0 0x400 (single 0x400 [wo 31 0]) := ⟨rfl, rfl, rfl, rfl, rfl, rfl, fun _ => rfl⟩

/-! ## Messages and holdoffs (R65) -/

/-- A function without MSI-X Enable or Bus Master Enable sends nothing. -/
theorem msixSend_off {p : Port} (v : Nat) (h : msixOn (getPort s p) = false) : msixSend s p v = s := by simp [msixSend, h]

/-- A masked vector or function keeps the message as the vector's pending bit. -/
theorem msixSend_masked {p : Port} {v : Nat} (h : msixOn (getPort s p) = true)
    (hm : (ngetD (getPort s p).msix v {}).mask = true ∨ msixFnMask (getPort s p) = true) :
    msixSend s p v = setPort s p { getPort s p with
      msix := nset (getPort s p).msix v { ngetD (getPort s p).msix v {} with pba := true } } := by
  have : ((ngetD (getPort s p).msix v {}).mask || msixFnMask (getPort s p)) = true := by simpa using hm
  simp only [msixSend, h, this, Bool.not_true, Bool.false_eq_true, if_false, if_true]

/-- Any other message is sent. -/
theorem msixSend_sent {p : Port} {v : Nat} (h : msixOn (getPort s p) = true)
    (hm : ¬ ((ngetD (getPort s p).msix v {}).mask = true ∨ msixFnMask (getPort s p) = true)) :
    (msixSend s p v).out = s.out ++ [.msix p v (ngetD (getPort s p).msix v {}).addr (ngetD (getPort s p).msix v {}).data] := by
  have : ((ngetD (getPort s p).msix v {}).mask || msixFnMask (getPort s p)) = false := by simpa using hm
  simp only [msixSend, h, this, Bool.not_true, Bool.false_eq_true, if_false, emit_out, setPort_out]

/-- On a vendor vector it starts a holdoff. -/
theorem msixSend_hold {p : Port} {v : Nat} (h : msixOn (getPort s p) = true)
    (hm : ¬ ((ngetD (getPort s p).msix v {}).mask = true ∨ msixFnMask (getPort s p) = true)) (hv : 128 ≤ v)
    (ht : rdField s Reg.holdoff 15 0 ≠ 0) :
    nget (getPort (msixSend s p v) p).hold v = some { running := true, merged := false } := by
  have hno : ((ngetD (getPort s p).msix v {}).mask || msixFnMask (getPort s p)) = false := by simpa using hm
  have hlow : ¬ (v < 128 ∨ rdField s Reg.holdoff 15 0 = 0) := by omega
  simp [msixSend, h, hno, hlow, getPort_setPort]

/-- A port whose holdoff of a vector has ended. -/
def endHold (s : State) (p : Port) (v : Nat) : State := setPort s p { getPort s p with hold := nset (getPort s p).hold v {} }

theorem holdoffEnd_running {p : Port} {v : Nat} (h : (ngetD (getPort s p).hold v {}).running = true) :
    holdoffEnd s p v = if (ngetD (getPort s p).hold v {}).merged then msixSend (endHold s p v) p v else endHold s p v := by
  simp only [holdoffEnd, h, Bool.not_true, Bool.false_eq_true, if_false, endHold]

theorem endHold_out (p : Port) (v : Nat) : (endHold s p v).out = s.out := setPort_out ..
theorem getPort_endHold (p : Port) (v : Nat) : getPort (endHold s p v) p = { getPort s p with hold := nset (getPort s p).hold v {} } :=
  getPort_setPort ..
/-- The end of a holdoff leaves what decides on a message. -/
theorem endHold_messages (s : State) (p : Port) (v : Nat) : msixOn (getPort (endHold s p v) p) = msixOn (getPort s p) ∧
    msixFnMask (getPort (endHold s p v) p) = msixFnMask (getPort s p) ∧ (getPort (endHold s p v) p).msix = (getPort s p).msix := by
  rw [getPort_endHold]
  exact ⟨rfl, rfl, rfl⟩
theorem rd_endHold (p : Port) (v a : Nat) : rd (endHold s p v) a = rd s a := by rw [rd, rd, endHold, setPort_regs]

/-! ## Timers (R66) -/

theorem signalReg_tmr {n : Nat} : signalReg (Reg.tmrCtl n) = false ∧ signalReg (Reg.tmrCmp n) = false ∧ signalReg (Reg.tmrPer n) = false := by
  simp only [← Bool.not_eq_true, signalReg_iff, Reg.tmrCtl, Reg.tmrCmp, Reg.tmrPer]
  omega

/-- A write outside the pending bitmaps leaves what is pending. -/
theorem raised_wr {a n : Nat} (v : Nat) (hn : n < 256) (ha : signalReg a = false) : raised (wr s a v) n = raised s n := by
  have hne : Reg.srcPend (n / 32) ≠ a := fun e => by
    rw [← e, signalReg_srcPend hn] at ha
    cases ha
  rw [raised, rd_wr_other _ _ hne, raised]

/-- The next compare value is the first above the timebase that whole periods reach. -/
theorem tmrNext_bounds {cmp per tb : Nat} (hc : cmp ≤ tb) (hp : per ≠ 0) :
    tb < tmrNext cmp per tb ∧ tmrNext cmp per tb ≤ tb + per ∧ tmrNext cmp per tb % per = cmp % per := by
  have hlow := Nat.lt_mul_div_succ (tb - cmp) (Nat.pos_of_ne_zero hp)
  have hhigh := Nat.mul_div_le (tb - cmp) per
  refine ⟨?_, ?_, Nat.add_mul_mod_self_left ..⟩ <;> unfold tmrNext
  · omega
  · rw [Nat.mul_add]
    omega

/-- A due timer raises its source, and disarms or moves on. -/
theorem timerFire_due {n : Nat} (ha : bitOf (rd s (Reg.tmrCtl n)) 0 = true) (hc : rd s (Reg.tmrCmp n) ≤ s.clk.tb) :
    Machine.timerFire s n = if rd s (Reg.tmrPer n) = 0 then wrField (raiseWith s (224 + n) []) (Reg.tmrCtl n) 0 0 0
      else wr (raiseWith s (224 + n) []) (Reg.tmrCmp n) (tmrNext (rd s (Reg.tmrCmp n)) (rd s (Reg.tmrPer n)) s.clk.tb) := by
  have hdue : (bitOf (rd s (Reg.tmrCtl n)) 0 && decide (rd s (Reg.tmrCmp n) ≤ s.clk.tb)) = true := by simp [ha, hc]
  simp only [Machine.timerFire, hdue, Bool.not_true, Bool.false_eq_true, if_false, rd_raiseWith _ _ _ _ signalReg_tmr.2.2, raiseWith_clk]

/-! ## Watchdogs (R67) -/

theorem signalReg_wdSts (k : Nat) : signalReg (Reg.wdSts k) = false := by
  simp only [← Bool.not_eq_true, signalReg_iff, Reg.wdSts]
  omega

theorem isTrigger_kick (k : Fin 10) : ∃ x, IsTrigger .evf 0 (0x1104 + 16 * k.val) x ∧ ∀ v, x.row.flds.all (accepts v) = true := by
  fin_cases k <;> exact ⟨_, ⟨rfl, rfl, rfl, rfl, rfl, rfl, fun _ => rfl⟩, fun _ => rfl⟩

/-- A core's kick restarts its watchdog. -/
theorem writeAccess_kick {i : Initiator} (h : coreAccess s i .evf 0 = true) (k : Fin 10) (v : Nat) :
    writeAccess s i (0x101104 + 16 * k.val) 4 (setBits v 0 0 1) {} = wdRestart s k := by
  obtain ⟨x, ht, hv⟩ := isTrigger_kick k
  have hbit : bitOf (setBits v 0 0 1 % 2 ^ 32) 0 = true := by rw [bitOf_word_setBits _ _ _ (by decide)]; rfl
  have h400 : ¬ 0x1104 + 16 * k.val = 0x400 := by omega
  have hin : 0x1100 ≤ 0x1104 + 16 * k.val ∧ 0x1104 + 16 * k.val < 0x11A0 := by omega
  have hk : (0x1104 + 16 * k.val - 0x1100) / 16 = k := by omega
  have hsub : (0x1104 + 16 * k.val) % 16 = 4 := by omega
  rw [writeAccess_trigger h (loc_wd k) ht (hv _)]
  simp only [trigBusy, Bool.false_and, Bool.false_eq_true, if_false, flashEffect, systemEffect, h400, hin, hk, hsub, hbit,
    decide_true, Bool.and_self, if_true, OfNat.ofNat_ne_zero]

end Sys2Proof.Machine

namespace Sys2Proof.Proofs
open Sys2Proof.Machine

theorem disableSequenceDone : Claims.disableSequenceDone := by
  intro s hl hc hs he
  refine ⟨disableDone s .pat 0, rfl, ?_⟩
  rw [disableDone_patrol hl hc hs he]
  refine ⟨active_setActive _ _ _ _, ?_, ?_⟩
  · rw [leaving, setActive_chip]
    exact leaving_filter s .pat 0
  · exact setActive_frame (updChip_frame (OnlyChanges.refl _ s) (by decide)) (by decide)

theorem evfDoorbellWrite : Claims.evfDoorbellWrite := by
  intro s i v k hcore hk hbit
  refine ⟨_, rfl, ?_⟩
  rw [writeAccess_trigger hcore rfl isTrigger_doorbell rfl]
  have hlow : v.toNat % 2 ^ 32 = v.toNat := Nat.mod_eq_of_lt v.isLt
  rw [hlow]
  exact raised_raises (f := fun k => 160 + k) _ (not_held_of_coreAccess hcore) (by omega)
    (List.mem_filter.mpr ⟨List.mem_range.mpr hk, hbit⟩)

theorem holdoffExpiry : Claims.holdoffExpiry := by
  intro s p b hrun
  refine ⟨_, rfl, ?_⟩
  generalize hv : (if b then 129 else 128) = v at hrun ⊢
  have h128 : 128 ≤ v := by cases b <;> simp at hv <;> omega
  rw [holdoffEnd_running hrun]
  split
  · obtain ⟨hon, hmask, hmsix⟩ := endHold_messages s p v
    split
    · rename_i hoff
      rw [msixSend_off _ (by rw [hon, hoff]), endHold_out]
    rename_i hset
    have hsend : msixOn (getPort (endHold s p v) p) = true := by rw [hon]; simpa using hset
    dsimp only
    split
    · rename_i hheld
      rw [msixSend_masked hsend (by rw [hmsix, hmask]; exact hheld), setPort_out, getPort_setPort, hmsix]
      exact ⟨nget_nset_same .., endHold_out p v⟩
    · rename_i hfree
      have hfree' : ¬ ((ngetD (getPort (endHold s p v) p).msix v {}).mask = true ∨ msixFnMask (getPort (endHold s p v) p) = true) := by
        rw [hmsix, hmask]
        exact hfree
      refine ⟨by rw [msixSend_sent hsend hfree', endHold_out, hmsix], fun ht => msixSend_hold hsend hfree' h128 ?_⟩
      rwa [rdField, rd_endHold]
  · exact ⟨endHold_out p v, by rw [getPort_endHold]; exact nget_nset_same ..⟩

theorem timerFire : Claims.timerFire := by
  intro s n harm hcmp hheld htb hper
  refine ⟨_, rfl, ?_⟩
  have hn : 224 + n.val < 248 := by omega
  have hraise : raised (raiseWith s (224 + n) []) (224 + n) = true := raised_raiseWith hn (by omega) hheld _ _
  rw [timerFire_due harm hcmp]
  split
  · rename_i h0
    refine ⟨?_, fun _ => ?_, fun h => absurd h0 h⟩
    · rw [wrField, raised_wr _ (by omega) signalReg_tmr.1, hraise]
    · rw [bitOf_wrField _ _ _ _ (by decide)]
      rfl
  · rename_i h0
    obtain ⟨hlow, hhigh, hmod⟩ := tmrNext_bounds hcmp h0
    refine ⟨?_, fun h => absurd h h0, fun _ => ?_⟩
    · rw [raised_wr _ (by omega) signalReg_tmr.2.1, hraise]
    · rw [rd_wr_same, Nat.mod_eq_of_lt (by omega)]
      exact ⟨hlow, hhigh, hmod⟩

theorem watchdogExpiry : Claims.watchdogExpiry := by
  intro s k hdue h0 hheld
  have hstage : rdField (wdExpire s k) (Reg.wdSts k) 1 0 = 1 := by
    rw [wdExpire, rdField_raiseWith _ _ _ _ _ _ (signalReg_wdSts k), h0]
    exact rdField_wrField s _ 1 0 1 (by decide)
  have hstep : watchdog s k = wdExpire s k := by
    have hk : ¬ 10 ≤ k.val := by omega
    simp [watchdog, hk, hdue, hstage]
  refine ⟨watchdog s k, rfl, ?_⟩
  rw [hstep]
  refine ⟨hstage, ?_, ?_, ?_⟩
  · rw [wdExpire]
    refine raised_raiseWith ?_ ?_ ?_ _ _
    · omega
    · omega
    · rw [updClk_chip, wrField_chip, hheld]
  · rw [wdExpire, raiseWith_clk, updClk_clk, nget_nset_same]
  · rw [wdExpire, raiseWith_clk, updClk_clk]
    rfl

theorem watchdogKick : Claims.watchdogKick := by
  intro s i k v hcore
  refine ⟨wdRestart s k, ?_, ?_, ?_, ?_⟩
  · rw [← writeAccess_kick hcore k v.toNat]
    rfl
  · exact rdField_wrField s _ 1 0 0 (by decide)
  · rw [wdRestart, updClk_clk, nget_nset_same]
  · exact wdRestart_frame (OnlyChanges.refl _ s) (by decide) (by decide)

theorem faultyRegisterRead : Claims.faultyRegisterRead := by
  intro s i hcore
  obtain ⟨hc, ha, hi⟩ := coreAccess_iff.mp hcore
  refine completes_read (readReaches_core hc ha _ _) ?_
  have hread : regRead s i 0x100340 8 = (accessFault s .evf 0 0 3 (initCode i) 0x340, 2 ^ 64 - 1) := by
    have hl : locate 0x100340 = some (.evf, 0, 0x340) := rfl
    obtain ⟨x, hx, hw⟩ : ∃ x, findReg .evf 0 0x340 = some x ∧ x.row.wide = false := ⟨_, rfl, rfl⟩
    simp [regRead, hl, hi, hx, hw, allOnes]
  have hnote : OnlyChanges [.regs] s (accessFault s .evf 0 0 3 (initCode i) 0x340) := by
    rw [accessFault_eq]
    exact frame_ite (faultNoted_frame ..) (faultNoted_frame ..)
  rw [hread]
  refine ⟨(accessFault_sets _ _ _ _ _ _ (by decide)).1, ?_, emit_frame (hnote.mono (by decide)) (by decide)⟩
  rw [emit_out, show (accessFault s .evf 0 0 3 (initCode i) 0x340).out = s.out from hnote.same .out (by decide)]

/-- Settles O22, command by command. -/
theorem eventFabricCommands : Obligations.EventFabricCommands :=
  ⟨disableSequenceDone, evfDoorbellWrite, holdoffExpiry, timerFire, watchdogExpiry, watchdogKick, faultyRegisterRead⟩

end Sys2Proof.Proofs
end
section
/-! PROOFS. Two statements that fail, each at one clause that lacks a hypothesis on the state: the BAR2 accesses do not ask that the
port's initiator is not stopped, and the start of a zero-fill does not ask that the DRAM is in canonical form. Refutes O21 and O43. -/

namespace Sys2Proof.Proofs
open Sys2Proof.Machine

/-! ## BAR2 of a stopped initiator -/

/-- Port A's BAR2 can be reached and its window is open, and the initiator code of the port's accesses stands among those that an error
in their memory has stopped. -/
def stoppedPort : State :=
  { State.reset with
    chip := { State.reset.chip with coreStop := [10], held := false, parked := false }
    portA := { State.reset.portA with linkUp := true, d3hot := false }
    sec := { State.reset.sec with winA := .openRw } }

/-- Its window lets writes through. -/
theorem stoppedPort_open : bar2Reach stoppedPort .a = true ∧ winOfPort stoppedPort .a = .openRw := by decide +kernel

/-- A write of 0 through it leaves EVF_HOLDOFF at its reset value. -/
theorem stoppedPort_write_dropped : rdField (writeAccess stoppedPort (.bar2 .a) 0x100340 4 0 {}) Reg.holdoff 15 0 = 1000 := by
  decide +kernel

/-- A BAR2 write through an open window need not reach the register: `bar2Reach` does not exclude a stopped initiator. -/
theorem not_bar2Access : ¬ Claims.bar2Access := by
  intro h
  obtain ⟨hreach, hopen⟩ := stoppedPort_open
  obtain ⟨t, ht, hfield, -⟩ := h stoppedPort .a 0 hreach hopen
  have ht : writeAccess stoppedPort (.bar2 .a) 0x100340 4 0 {} = t := Host.Outcome.next.inj ht
  rw [← ht, stoppedPort_write_dropped] at hfield
  exact absurd hfield (by decide)

/-- Refutes O21: with the port's initiator code in `chip.coreStop`, a write through an open window is dropped. -/
theorem not_registerWrites : ¬ Obligations.RegisterWrites := fun h => by
  obtain ⟨-, -, -, hbar2, -⟩ := h
  exact not_bar2Access hbar2

/-! ## A zero-fill of a DRAM whose list is out of order -/

/-- A running chip whose DRAM lists address 65,536 before address 3, and whose zero-fill registers name granule 1 alone. -/
def unsortedDram : State :=
  { State.reset with
    chip := { State.reset.chip with held := false, parked := false, wakeWait := false }
    regs := [(0x50010, 0x10000), (0x50018, 0x10000)]
    dram := [(65536, 1), (3, 7)] }

/-- The zero-fill's registers ask for granule 1. -/
theorem unsortedDram_range : coreAccess unsortedDram .sc0 .drc 0 = true ∧ unsortedDram.mem.zf = none ∧
    rdField unsortedDram 0x50010 35 16 = 1 ∧ rdField unsortedDram 0x50018 36 16 = 1 := by decide +kernel

/-- Byte 3, outside that granule, reads 0 before the zero-fill and 7 after it: the entry that hid it is gone. -/
theorem unsortedDram_uncovered : memRead 0 unsortedDram.dram 3 = 0 ∧
    memRead 0 (writeAccess unsortedDram .sc0 0x50020 4 (setBits 0 0 0 1) {}).dram 3 = 7 := by decide +kernel

/-- A zero-fill may change what a byte outside its range reads as, where the DRAM is not in canonical form. -/
theorem not_zeroFillStart : ¬ Claims.zeroFillStart := by
  intro h
  obtain ⟨hcore, hidle, hlo, hn⟩ := unsortedDram_range
  obtain ⟨t, ht, -, -, hrest, -⟩ := h unsortedDram .sc0 0 1 1 hcore hidle hlo hn
  have ht : writeAccess unsortedDram .sc0 0x50020 4 (setBits 0 0 0 1) {} = t := Host.Outcome.next.inj ht
  obtain ⟨hbefore, hafter⟩ := unsortedDram_uncovered
  have hkept := hrest 3 (.inl (by decide))
  rw [← ht, hafter, hbefore] at hkept
  exact absurd hkept (by decide)

/-- Refutes O43: `zeroFillStart` asks nothing of the DRAM's list, and a zero-fill that drops an entry uncovers one behind it. -/
theorem not_memoryIntegrityCommands : ¬ Obligations.MemoryIntegrityCommands := fun h => by
  obtain ⟨hfill, -⟩ := h
  exact not_zeroFillStart hfill

end Sys2Proof.Proofs
end
section
/-! PROOFS. The queues of the host ports and the fetch of commands: doorbells (R76), the completions they post (R118), acceptance into
the sorting office (R101), and the I/O commands as they are fetched (R83, R113, R114) and as their data arrives (R32). Settles O23
and O24. -/

namespace Sys2Proof.Machine

variable {s : State}

/-- A command whose meaning comes to a state completes in it. -/
theorem completes_eq {c : Instr} {t u : State} {P : State → Prop} (hc : exec c s = .next u) (hu : u = t) (h : P t) :
    Completes c s P := ⟨t, hc.trans (congrArg _ hu), h⟩

/-! ## One port -/

/-- Replacing a port's state changes that port alone. -/
theorem setPort_only (s : State) (p : Port) (x : PortSt) : OnlyChanges [portPart p] s (setPort s p x) :=
  ⟨fun r hr => by
    have hne : r ≠ portPart p := fun e => hr (List.mem_singleton.mpr e)
    cases p with
    | a => cases r with
      | portA => exact absurd rfl hne
      | _ => rfl
    | b => cases r with
      | portB => exact absurd rfl hne
      | _ => rfl⟩

/-- An interrupt changes a port's coalesced counts, messages and holdoffs alone. -/
theorem getPort_cqInterrupt_cqs (s : State) (p : Port) (k : Nat) (q : Cq) (r : Port) :
    (getPort (cqInterrupt s p k q) r).cqs = (getPort s r).cqs := by
  have hsend : ∀ t v, (getPort (msixSend t p v) r).cqs = (getPort t r).cqs := fun t v => by
    have h := congrArg PortSt.cqs (portCore_msixSend t p v r)
    exact h
  have hcoal : ∀ m : PortSt → NMap Nat, (getPort (modPort s p fun x => { x with coal := m x }) r).cqs = (getPort s r).cqs := fun m => by
    cases p <;> cases r <;> rfl
  unfold cqInterrupt
  split
  · rfl
  split
  · exact hsend s _
  · dsimp only
    split
    · rw [hsend, hcoal]
    · exact hcoal _

/-- A completion queue's tail and phase after one more entry. -/
def Cq.posted (q : Cq) : Cq :=
  { q with tail := (q.tail + 1) % q.size, phase := if (q.tail + 1) % q.size = 0 then !q.phase else q.phase }

/-- Posting a completion takes one entry of its queue (R123). -/
theorem getPort_placeCompl_cqs (s : State) (p : Port) (k : Nat) (q : Cq) (c : Compl) :
    (getPort (placeCompl s p k q c) p).cqs = nset (getPort s p).cqs k q.posted := by
  unfold placeCompl
  dsimp only
  rw [getPort_cqInterrupt_cqs]
  split <;> simp [Cq.posted]

/-- A completion of another status than Ordering Dependency Failed raises no source. -/
theorem placeCompl_frame_quiet {p : Port} {k : Nat} {q : Cq} {c : Compl} (h : c.st ≠ stDependency) :
    OnlyChanges [.out, .portA, .portB] s (placeCompl s p k q c) := by
  have hst : (c.st == stDependency) = false := by simpa using h
  simp only [placeCompl, hst, Bool.false_eq_true, if_false]
  exact cqInterrupt_frame (emit_frame (modPort_frame (OnlyChanges.refl _ s) (by decide) (by decide)) (by decide)) (by decide) (by decide)
    (by decide)

theorem post_frame_quiet {c : Compl} (h : c.st ≠ stDependency) : OnlyChanges [.out, .portA, .portB] s (post s c) := by
  unfold post
  dsimp only
  split
  · exact OnlyChanges.refl _ s
  · split
    · exact setPort_frame (OnlyChanges.refl _ s) (by decide) (by decide)
    · exact placeCompl_frame_quiet h

/-- A completion whose M bit is 0, and that reports no dependency failure, reaches the ports and what is sent alone. -/
theorem complete_frame_quiet {q : Sqe} {st : Status} (hm : st.m = false) (h : st ≠ stDependency) (dw lba cs : Nat) :
    OnlyChanges [.out, .portA, .portB] s (complete s q st dw lba cs) := by
  simp only [complete, hm, Bool.false_eq_true, if_false]
  exact post_frame_quiet h

/-! ## Doorbells (R76) -/

theorem sqDoorbell_queue {p : Port} {qid tail : Nat} {q : Sq} (hen : (getPort s p).en = true) (hd : (getPort s p).d3hot = false)
    (hq : nget (getPort s p).sqs qid = some q) (ht : tail < q.size) :
    sqDoorbell s p qid tail = setPort s p { getPort s p with sqs := nset (getPort s p).sqs qid { q with tail } } := by
  simp [sqDoorbell, hen, hd, hq, Nat.not_le.mpr ht]

/-- A completion queue whose head has moved. -/
def headMoved (s : State) (p : Port) (qid head : Nat) (q : Cq) : State :=
  setPort s p { getPort s p with cqs := nset (getPort s p).cqs qid { q with head } }

theorem getPort_headMoved (p : Port) (qid head : Nat) (q : Cq) :
    getPort (headMoved s p qid head q) p = { getPort s p with cqs := nset (getPort s p).cqs qid { q with head } } :=
  getPort_setPort s p _

/-- Its queue is the one with the new head. -/
theorem headMoved_queue (p : Port) (qid head : Nat) (q : Cq) :
    nget (getPort (headMoved s p qid head q) p).cqs qid = some { q with head } := by
  rw [getPort_headMoved]
  exact nget_nset_same ..

theorem abortAfter_none {p : Port} (h : (getPort s p).abortWait = none) : abortAfter s p = s := by simp [abortAfter, h]

/-- A head doorbell of a queue that exists: its head moves, and what it holds is posted while there is room. -/
theorem cqDoorbell_queue {p : Port} {qid head : Nat} {q : Cq} (hen : (getPort s p).en = true) (hd : (getPort s p).d3hot = false)
    (hq : nget (getPort s p).cqs qid = some q) (hh : head < q.size) :
    cqDoorbell s p qid head = abortAfter (postHeld q.held.length (headMoved s p qid head q) p qid) p := by
  simp [cqDoorbell, hen, hd, hq, Nat.not_le.mpr hh, headMoved]

/-- A queue with a free slot that holds one completion posts it. -/
theorem postHeld_one {p : Port} {qid : Nat} {q : Cq} {c : Compl} (hq : nget (getPort s p).cqs qid = some q) (hc : q.held = [c])
    (hf : q.full = false) : postHeld 1 s p qid = placeCompl s p qid { q with held := [] } c := by
  simp [postHeld, hq, hc, hf]

/-! ## The sorting office (R101) -/

/-- Removing an entry that a filter passes over leaves what the filter takes. -/
theorem filter_ndel {α : Type} (f : Nat × α → Bool) {m : NMap α} {k : Nat} {v : α} (h : nget m k = some v) (hf : f (k, v) = false) :
    (ndel m k).filter f = m.filter f := by
  induction m with
  | nil => rfl
  | cons e r ih =>
    obtain ⟨k', w⟩ := e
    by_cases hk : k = k'
    · subst hk
      simp only [nget, if_true, Option.some.injEq] at h
      subst h
      simp [ndel, hf]
    · by_cases hlt : k < k'
      · simp [nget, hk, hlt] at h
      · simp only [nget, hk, hlt, if_false] at h
        simp only [ndel, hk, hlt, if_false, List.filter_cons, ih h]

/-- A command that holds no entries leaves the occupancy as it is (R101). -/
theorem occ_dropCmd {id : Nat} {c : Cmd} (h : nget s.srt.cmds id = some c) (hc : c.holds = false) :
    occCmds (dropCmd s id) = occCmds s ∧ occRanges (dropCmd s id) = occRanges s := by
  have hf : (ndel s.srt.cmds id).filter (fun e => e.2.holds) = s.srt.cmds.filter fun e => e.2.holds := filter_ndel _ h hc
  simp [occCmds, occRanges, dropCmd, hf]

/-- A command that has entered the sorting office and been accepted, with the next fetch number. -/
def entered (s : State) (c : Cmd) : State := updSrt s fun t => { t with
  cmds := nset t.cmds t.next { c with accepted := true }, next := t.next + 1, lastB := c.q.port == .b }

/-- Where the tracker has room, a command is accepted as it enters. -/
theorem enterTracker_room {c : Cmd} (hc : occCmds s < 16384) (hr : occRanges s + (c.entries - 1) ≤ 32768) :
    enterTracker s c = hwm (entered s c) := by
  have h1 : ¬ 16384 < occCmds s + 1 := by omega
  have h2 : ¬ 32768 < occRanges s + (c.entries - 1) := by omega
  simp [enterTracker, h1, h2, entered, updSrt]

theorem hwm_srt (s : State) : (hwm s).srt = s.srt := (hwm_frame (F := [.regs]) (OnlyChanges.refl _ s) (by decide)).same .srt (by decide)
theorem trkSettle_srt (s : State) : (trkSettle s).srt = s.srt :=
  (trkSettle_frame (F := [.regs]) (OnlyChanges.refl _ s) (by decide)).same .srt (by decide)

/-- A command that has entered the sorting office is tracked under the fetch number of the state it was fetched in. -/
theorem tracked_of_entered {u t : State} {c : Cmd} (hn : u.srt.next = s.srt.next) (ht : t.srt = (entered u c).srt) :
    Claims.Tracked s t c.body c.q c.modif := by
  rw [Claims.Tracked, ht, ← hn]
  exact ⟨rfl, rfl, _, nget_nset_same .., rfl, rfl, rfl, rfl⟩

/-- What waits at acceptance is accepted: the one command that waits, where nothing refuses it (R101). -/
theorem acceptWaiting_one {id : Nat} {c : Cmd} (hw : (s.srt.cmds.filter fun e => !e.2.accepted) = [(id, c)])
    (hf : acceptFault (dropCmd s id) c = none) (hq : s.srt.quiesce = false) (hr : running s .srt = true) (ho : occCmds s < 16384)
    (hn : occRanges s + (c.entries - 1) ≤ 32768) :
    acceptWaiting s = trkSettle (enterTracker (dropCmd s id) { c with accepted := true }) := by
  have h1 : ¬ 16384 < occCmds s + 1 := by omega
  have h2 : ¬ 32768 < occRanges s + (c.entries - 1) := by omega
  have hpick : (([(id, c)].find? fun e => (e.2.q.port == .b) != s.srt.lastB).orElse fun _ => [(id, c)].head?) = some (id, c) := by
    rw [List.find?_cons]
    split <;> rfl
  unfold acceptWaiting
  rw [hw]
  dsimp only
  rw [hpick]
  simp [h1, h2, hq, hr, hf]

/-! ## Fetching (R81, R83, R114) -/

theorem stateFault_noteAccept (s : State) (p : Port) (n : Nat) (m : Bool) : stateFault (noteAccept s p) n m = stateFault s n m := rfl
theorem attachedNs_noteAccept (s : State) (p : Port) (q : Sqe) : attachedNs (noteAccept s p) q = attachedNs s q := rfl

/-- A command that meets no condition of Table 4-4 names a namespace. -/
theorem nsOf_of_ioFault_none {q : Sqe} {b : Instr} {m : Bool} (h : ioFault s q b m = none) : ∃ n, nsOf s q.nsid = some n := by
  unfold ioFault at h
  split at h
  · cases h
  · cases hn : nsOf s q.nsid with
    | none => simp [attachedNs, hn] at h
    | some n => exact ⟨n, rfl⟩

/-- A command fetched without a condition of Table 4-4, with room in the tracker, enters the sorting office. -/
theorem fetchIo_entered {q : Sqe} {b : Instr} {modif : Bool} {rs : List (Nat × Nat)} (h : Claims.Fetches s q b modif rs.length)
    (writes : Bool) : ∃ c : Cmd, c.body = b ∧ c.q = q ∧ c.modif = modif ∧
      fetchIo s q b modif writes rs = hwm (entered (takeEntry s q.port q.qid) c) := by
  obtain ⟨hcan, hfault, hocc, hranges⟩ := h
  obtain ⟨n, hn⟩ := nsOf_of_ioFault_none hfault
  have hn' : nsOf (takeEntry s q.port q.qid) q.nsid = some n := by simpa [nsOf] using hn
  have hsrt : (takeEntry s q.port q.qid).srt = s.srt := takeEntry_srt ..
  refine ⟨{ body := b, q, modif, entries := rs.length + 1, ranges := rs.flatMap fun r => trackRanges n q.nsid r.1 r.2 writes },
    rfl, rfl, rfl, ?_⟩
  rw [← enterTracker_room (by simpa [occCmds, hsrt] using hocc) (by simpa [occRanges, hsrt] using hranges)]
  simp [fetchIo, hcan, ioFault_takeEntry, hfault, hn']

/-- It is tracked, and changes the sorting office, its port's queue and SRT_HWM alone. -/
theorem fetchIo_tracked {q : Sqe} {b : Instr} {modif : Bool} {rs : List (Nat × Nat)} (h : Claims.Fetches s q b modif rs.length)
    (writes : Bool) : Claims.Tracked s (fetchIo s q b modif writes rs) b q modif ∧
      OnlyChanges [.regs, .portA, .portB, .srt] s (fetchIo s q b modif writes rs) := by
  obtain ⟨c, rfl, rfl, rfl, hfetch⟩ := fetchIo_entered h writes
  rw [hfetch]
  refine ⟨tracked_of_entered (by rw [takeEntry_srt]) (hwm_srt _), hwm_frame (updSrt_frame ?_ (by decide)) (by decide)⟩
  exact takeEntry_frame (OnlyChanges.refl _ s) (by decide) (by decide)

/-- A command that meets a condition of Table 4-4 completes with it, and is not tracked (R113). -/
theorem fetchIo_fault {q : Sqe} {b : Instr} {modif : Bool} {st : Status} {lba : Nat} (hcan : canFetchIo s q = true)
    (h : ioFault s q b modif = some (st, lba)) (writes : Bool) (rs : List (Nat × Nat)) :
    fetchIo s q b modif writes rs = complete (takeIo s q) q st 0 lba := by
  simp [fetchIo, hcan, ioFault_takeEntry, h, takeIo]

theorem takeIo_out (s : State) (q : Sqe) : (takeIo s q).out = s.out := takeEntry_out ..
theorem cqReady_takeIo (s : State) (q : Sqe) : cqReady (takeIo s q) q = cqReady s q := by simp [takeIo]

/-- An I/O command that the sorting office answers as it accepts it. -/
theorem answered_takeIo {q : Sqe} (h : cqReady s q = true) (st : Status) (dw lba cs : Nat) :
    Answered s (complete (takeIo s q) q st dw lba cs) q st :=
  (answered_complete (takeIo s q) q st dw lba cs (by rwa [cqReady_takeIo])).before s ⟨[], by rw [takeIo_out, List.append_nil]⟩

theorem takeIo_srt (s : State) (q : Sqe) : (takeIo s q).srt = { s.srt with lastB := q.port == .b } := by
  simp [takeIo, noteAccept]

theorem stateFault_takeIo (s : State) (q : Sqe) (n : Nat) (m : Bool) : stateFault (takeIo s q) n m = stateFault s n m := by
  rw [takeIo, stateFault_noteAccept, stateFault_takeEntry]
theorem attachedNs_takeIo (s : State) (q : Sqe) : attachedNs (takeIo s q) q = attachedNs s q := by
  rw [takeIo, attachedNs_noteAccept, attachedNs_takeEntry]

/-- A Flush of an attached namespace that meets no condition. -/
theorem flushCmd_attached {q : Sqe} (hcan : canFetchIo s q = true) (h1 : 1 ≤ q.nsid) (h2 : q.nsid ≤ 128)
    (ha : (attachedNs s q).isSome = true) (hf : stateFault s q.nsid false = none) :
    flushCmd s q = complete (takeIo s q) q stOk := by
  have hall : ¬ q.nsid = 0xFFFFFFFF := by omega
  have h0 : ¬ q.nsid = 0 := by omega
  have hhigh : ¬ 128 < q.nsid := by omega
  have hnone : (attachedNs s q).isNone = false := by
    rw [← Option.not_isSome, ha]
    rfl
  simp [flushCmd, hcan, hall, h0, hhigh, attachedNs_takeIo, hnone, stateFault_takeIo, hf]

theorem noteStream_srt (s : State) (q : Sqe) (k : Nat) : (noteStream s q k).srt = s.srt := by
  unfold noteStream
  dsimp only
  split
  · rfl
  · exact setPort_srt ..

/-- A Write that is fetched without a condition may open its stream beside (R91). -/
theorem writeCmd_fetched {q : Sqe} {f : IoFields} {k : Nat} (hcan : canFetchIo s q = true) (h : ioFault s q (.write q f k) true = none) :
    writeCmd s q f k = noteStream (fetchIo s q (.write q f k) true true [(f.slba, f.nlb + 1)]) q k := by
  simp [writeCmd, hcan, h]
theorem writeCmd_fault {q : Sqe} {f : IoFields} {k : Nat} {e : Status × Nat} (h : ioFault s q (.write q f k) true = some e) :
    writeCmd s q f k = fetchIo s q (.write q f k) true true [(f.slba, f.nlb + 1)] := by simp [writeCmd, h]

/-! ## The end of a command (R113, R121, R125) -/

/-- A command has left the table, with its holders, reservations and waits. -/
def leftTable (s : State) (id : Nat) : State :=
  trkSettle (settlePressure (updMap (dropHolder (dropCmd s id) (.cmd id)) fun m => { m with
    resv := m.resv.filter fun r => r.2.1 != .cmd id
    waiters := m.waiters.filter fun w => w.h != .cmd id }))

theorem leftTable_frame (s : State) (id : Nat) : OnlyChanges [.regs, .map, .srt] s (leftTable s id) :=
  trkSettle_frame (settlePressure_frame (updMap_frame (dropHolder_frame (dropCmd_frame (OnlyChanges.refl _ s) (by decide)) (by decide))
    (by decide)) (by decide)) (by decide)

theorem leftTable_srt (s : State) (id : Nat) : (leftTable s id).srt = { s.srt with cmds := ndel s.srt.cmds id } := by
  have h : OnlyChanges [.regs, .map] (dropCmd s id) (leftTable s id) :=
    trkSettle_frame (settlePressure_frame (updMap_frame (dropHolder_frame (OnlyChanges.refl _ _) (by decide)) (by decide)) (by decide))
      (by decide)
  exact h.same .srt (by decide)
theorem leftTable_out (s : State) (id : Nat) : (leftTable s id).out = s.out := (leftTable_frame s id).same .out (by decide)
theorem getPort_leftTable (s : State) (id : Nat) (p : Port) : getPort (leftTable s id) p = getPort s p :=
  getPort_of_ports s ((leftTable_frame s id).same .portA (by decide)) ((leftTable_frame s id).same .portB (by decide)) p
theorem cqReady_leftTable (s : State) (id : Nat) (q : Sqe) : cqReady (leftTable s id) q = cqReady s q := by
  simp [cqReady, getPort_leftTable]

/-- A muted command without pins ends without a completion. -/
theorem endCmd_muted {id : Nat} {c : Cmd} (hc : getCmd s id = some c) (hm : c.mute = true) (hp : c.pins = []) (st : Status)
    (dw lba cs : Nat) : endCmd s id st dw lba cs = leftTable s id := by
  simp only [endCmd, hc, hm, hp, if_true, leftTable, unpinCmd, List.isEmpty_nil]

/-- Its submission queue is no fail-stop queue, and is not being deleted. -/
def PlainQueue (s : State) (q : Sqe) : Prop := ∀ x, sqOf s q = some x → x.failStop = false ∧ x.deleting = none

/-- No deletion of a queue waits for its commands. -/
theorem deleteSettled_plain {q : Sqe} (h : PlainQueue s q) : deleteSettled s q = s := by
  unfold deleteSettled
  split
  · rename_i hx
    exact nomatch (h _ hx).2
  · rfl

theorem PlainQueue.of_sqs {t : State} {q : Sqe} (h : PlainQueue s q) (e : (getPort t q.port).sqs = (getPort s q.port).sqs) :
    PlainQueue t q := fun x hx => h x (by rw [← hx, sqOf, sqOf, e])

/-- A command of such a queue ends with its completion, and nothing freezes. -/
theorem endCmd_plain {id : Nat} {c : Cmd} (hc : getCmd s id = some c) (hm : c.mute = false) (hp : c.pins = [])
    (hq : PlainQueue s c.q) (st : Status) (dw lba cs : Nat) :
    endCmd s id st dw lba cs = complete (leftTable s id) c.q st dw lba cs := by
  have hl : PlainQueue (leftTable s id) c.q := hq.of_sqs (by rw [getPort_leftTable])
  have hend : endCmd s id st dw lba cs = deleteSettled (complete (leftTable s id) c.q st dw lba cs) c.q := by
    unfold leftTable at hl ⊢
    unfold endCmd
    simp only [hc, hm, hp, unpinCmd, List.isEmpty_nil, if_true, Bool.false_eq_true, if_false]
    split
    · rename_i x hx
      obtain ⟨hstop, -⟩ := hl x hx
      simp only [hstop, Bool.and_false, Bool.false_and, Bool.false_eq_true, if_false, dwTrigger]
    · simp only [Bool.false_eq_true, if_false, dwTrigger]
  rw [hend]
  exact deleteSettled_plain (hl.of_sqs (by simp))

/-- The one command there is has none that depend on it. -/
theorem failCmd_alone {id : Nat} {c : Cmd} (h : s.srt.cmds = [(id, c)]) (st : Status) (lba cs : Nat) :
    failCmd s id st lba cs = endCmd s id st 0 lba cs := by
  have hc : getCmd s id = some c := by simp [getCmd, h, nget]
  have hd : dependents s id c = [] := by simp [dependents, h]
  simp [failCmd, failFuel, hc, hd]

/-- It completes with its status, and the table is empty. -/
theorem failCmd_answers {id : Nat} {c : Cmd} (h : s.srt.cmds = [(id, c)]) (hm : c.mute = false) (hp : c.pins = [])
    (hq : PlainQueue s c.q) (hr : cqReady s c.q = true) (st : Status) (lba cs : Nat) :
    Answered s (failCmd s id st lba cs) c.q st ∧ (failCmd s id st lba cs).srt.cmds = [] := by
  have hc : getCmd s id = some c := by simp [getCmd, h, nget]
  rw [failCmd_alone h, endCmd_plain hc hm hp hq]
  constructor
  · refine (answered_complete (leftTable s id) c.q st 0 lba cs (by rwa [cqReady_leftTable])).before s ⟨[], ?_⟩
    rw [leftTable_out, List.append_nil]
  · simp [leftTable_srt, h, ndel]

/-! ## A Write's data (R32, R137) -/

theorem getCmd_modCmd (s : State) (id : Nat) (f : Cmd → Cmd) : getCmd (modCmd s id f) id = (getCmd s id).map f :=
  nget_nmod_same ..
theorem getCmd_of_srt {t : State} (h : t.srt = s.srt) (id : Nat) : getCmd t id = getCmd s id := by rw [getCmd, getCmd, h]

theorem turn_srt (s : State) : (turn s).srt = s.srt :=
  (turn_frame (F := signals ++ [.map, .flash, .jrc]) (OnlyChanges.refl _ s) (by decide) (by decide) (by decide) (by decide) (by decide)
    (by decide) (by decide) (by decide)).same .srt (by decide)

/-- The slots of a command are placed without a change to the sorting office. -/
theorem allocFold_srt (s : State) (id : Nat) (c : Cmd) (n : Ns) (f : IoFields) (ps : List (Nat × List Nat)) (us : List (Nat × Nat × Nat))
    (hs : List Nat) : (hs.foldl (allocUnits id c n f us) (ps.foldl (allocOne id c n f) (s, [], []))).1.srt = s.srt := by
  have h : OnlyChanges (signals ++ [.map]) s (hs.foldl (allocUnits id c n f us) (ps.foldl (allocOne id c n f) (s, [], []))).1 := by
    refine frame_foldl_fst (fun x b hx => ?_) (frame_foldl_fst (fun x b hx => ?_) (OnlyChanges.refl _ s))
    · exact allocUnits_frame hx (by decide) (by decide) (by decide) (by decide) (by decide) (by decide)
    · exact allocOne_frame hx (by decide) (by decide) (by decide) (by decide) (by decide) (by decide)
  exact h.same .srt (by decide)

/-- A command whose slots are allocated holds its data. -/
theorem allocAll_getCmd {id : Nat} {d : Cmd} (h : getCmd s id = some d) (c : Cmd) (n : Ns) (f : IoFields) :
    ∃ pl rm us, getCmd (allocAll s id c n f) id = some { d with places := pl, rmws := rm, units := us, dataIn := true } := by
  unfold allocAll
  dsimp only
  rw [getCmd_modCmd, getCmd_of_srt (allocFold_srt ..), h]
  exact ⟨_, _, _, rfl⟩

theorem proceed_unreleased {id : Nat} {c : Cmd} (h : getCmd s id = some c) (hr : c.released = false) : proceed s id = s := by
  simp [proceed, h, hr]

theorem ioFields_of_isWrite {b : Instr} (h : isWrite b = true) : ∃ f, ioFields b = some f := by
  cases b with
  | write q f k => exact ⟨f, rfl⟩
  | _ => cases h

section
variable {id : Nat} {c : Cmd} {n : Ns} {f : IoFields} (hc : getCmd s id = some c) (ha : c.accepted = true) (hd : c.dataIn = false)
  (hst : c.status = none) (hw : isWrite c.body = true) (hf : ioFields c.body = some f) (hn : nsOf s c.q.nsid = some n)
include hc ha hd hst hw hf hn

/-- A transfer that failed at the host. -/
theorem writeData_failed (bs : List HostBlock) : writeData s id bs true false = failCmd s id stDataTransfer f.slba := by
  simp [writeData, hc, ha, hd, hst, hw, hf, hn]

/-- Data for which there are sequence numbers, in a namespace without protection information. -/
theorem writeData_taken {bs : List HostBlock} (hl : n.lbaf ≠ 2) (hroom : writeRoom s { c with blocks := bs } n f = true) :
    writeData s id bs false false =
      proceed (turn (allocAll (modCmd s id fun x => { x with blocks := bs }) id { c with blocks := bs } n f)) id := by
  unfold writeData
  rw [hc]
  dsimp only
  rw [if_neg (by simp [ha, hd, hst, hw]), hf, hn]
  simp [hl, hroom]
end

end Sys2Proof.Machine

namespace Sys2Proof.Proofs
open Sys2Proof.Machine

/-! ## Doorbells and acceptance -/

theorem sqTailDoorbell : Claims.sqTailDoorbell := by
  intro s p qid tail q hen hd hq ht
  refine completes_eq rfl (sqDoorbell_queue hen hd hq ht) ?_
  rw [getPort_setPort]
  exact ⟨nget_nset_same .., fun k hk => nget_nset_other _ _ hk, setPort_only s p _⟩

theorem cqHeadDoorbell : Claims.cqHeadDoorbell := by
  intro s p qid head q hen hd hq hh hheld hwait
  have hstep : cqDoorbell s p qid head = headMoved s p qid head q := by
    rw [cqDoorbell_queue hen hd hq hh, hheld]
    refine abortAfter_none ?_
    simpa only [List.length_nil, postHeld, getPort_headMoved] using hwait
  exact completes_eq rfl hstep ⟨headMoved_queue p qid head q, setPort_only s p _⟩

theorem cqHeadDoorbellPosts : Claims.cqHeadDoorbellPosts := by
  intro s p qid head q c hen hd hq hh hheld hroom hwait
  have hfull : Cq.full { q with head } = false := by
    have : q.size ≠ 0 := by omega
    simp [Cq.full, this, hroom]
  have hstep : cqDoorbell s p qid head = placeCompl (headMoved s p qid head q) p qid { q with head, held := [] } c := by
    rw [cqDoorbell_queue hen hd hq hh, hheld, List.length_singleton,
      postHeld_one (headMoved_queue p qid head q) hheld hfull]
    refine abortAfter_none ?_
    have hrest := congrArg PortSt.abortWait (portRest_placeCompl (headMoved s p qid head q) p qid { q with head, held := [] } c p)
    exact hrest.trans (by rw [getPort_headMoved]; exact hwait)
  obtain ⟨l, c', hout, hmem, -, hqid, hcid, hst⟩ := placeCompl_sent (headMoved s p qid head q) p qid { q with head, held := [] } c
  refine completes_eq rfl hstep ?_
  refine ⟨⟨_, by rw [getPort_placeCompl_cqs]; exact nget_nset_same .., rfl, rfl, rfl⟩, l, c', ?_, hmem, hcid, hqid, hst⟩
  rw [hout, headMoved, setPort_out]

theorem trackedCommandAccept : Claims.trackedCommandAccept := by
  intro s id c hid hwait hfault hq hrun hocc hranges _
  have hacc : c.accepted = false := by
    have : (id, c) ∈ s.srt.cmds.filter fun e => !e.2.accepted := by rw [hwait]; exact List.mem_singleton_self _
    simpa using (List.mem_filter.mp this).2
  obtain ⟨hoc, hor⟩ := occ_dropCmd hid (by simp [Cmd.holds, hacc])
  refine completes_eq rfl (acceptWaiting_one hwait hfault hq hrun hocc hranges) ?_
  rw [enterTracker_room (by rwa [hoc]) (by rwa [hor]), trkSettle_srt, hwm_srt]
  exact ⟨nget_nset_same .., rfl, trkSettle_frame (hwm_frame (updSrt_frame (updSrt_frame (OnlyChanges.refl _ s) (by decide)) (by decide))
    (by decide)) (by decide)⟩

theorem unsupportedOpcode : Claims.unsupportedOpcode := by
  intro s q opc fused hcan hready
  refine ⟨unsupported s q fused, rfl, ?_⟩
  by_cases h0 : q.qid = 0
  · rw [if_pos h0] at hcan
    simp only [unsupported, h0, hcan, if_true]
    exact answered_admin s q _ 0 0 0 hready
  · rw [if_neg h0] at hcan
    simp only [unsupported, h0, hcan, if_true, if_false]
    exact answered_takeIo hready _ 0 0 0

theorem flush : Claims.flush := by
  intro s q hcan hready h1 h2 ha hf
  refine completes_eq rfl (flushCmd_attached hcan h1 h2 ha hf) ?_
  refine ⟨answered_takeIo hready _ 0 0 0, by rw [complete_srt, takeIo_srt], ?_⟩
  have htake : OnlyChanges [.out, .portA, .portB, .srt] s (takeIo s q) :=
    takeIo_frame (OnlyChanges.refl _ s) (by decide) (by decide) (by decide)
  exact htake.trans ((complete_frame_quiet rfl (by decide) 0 0 0).mono (by decide))

theorem write : Claims.write := by
  intro s q f k h
  obtain ⟨htracked, hframe⟩ := fetchIo_tracked (rs := [(f.slba, f.nlb + 1)]) h true
  obtain ⟨hcan, hfault, -⟩ := h
  refine completes_eq rfl (writeCmd_fetched hcan hfault) ?_
  rw [Claims.Tracked, noteStream_srt]
  exact ⟨htracked, noteStream_frame hframe (by decide) (by decide)⟩

theorem read : Claims.read := fun _ _ _ _ h => ⟨_, rfl, fetchIo_tracked (rs := [(_, _)]) h false⟩

/-- Settles O23, command by command. -/
theorem doorbellsAndAcceptance : Obligations.DoorbellsAndAcceptance :=
  ⟨sqTailDoorbell, cqHeadDoorbell, cqHeadDoorbellPosts, trackedCommandAccept, unsupportedOpcode, flush, write, read⟩

/-! ## Commands as they are fetched, and a Write's data -/

theorem compare : Claims.compare := fun _ _ _ _ h => ⟨_, rfl, fetchIo_tracked (rs := [(_, _)]) h false⟩
theorem writeZeroes : Claims.writeZeroes := fun _ _ _ d h => ⟨_, rfl, fetchIo_tracked (rs := [(_, _)]) h !d⟩
theorem verify : Claims.verify := fun _ _ _ h => ⟨_, rfl, fetchIo_tracked (rs := [(_, _)]) h false⟩

theorem datasetManagement : Claims.datasetManagement := by
  intro s q l h
  have hl : (l.map fun r => (r.slba, r.nlb)).length = l.length := List.length_map _
  exact ⟨_, rfl, fetchIo_tracked (hl ▸ h) false⟩

theorem fetchFault : Claims.fetchFault := by
  intro s q f st lba hcan hready
  have hend : Answered s (complete (takeIo s q) q st 0 lba) q st ∧ (complete (takeIo s q) q st 0 lba).srt.cmds = s.srt.cmds :=
    ⟨answered_takeIo hready _ 0 lba 0, by simp [takeIo_srt]⟩
  exact ⟨fun lr h => completes_eq rfl (fetchIo_fault hcan h _ _) hend,
    fun k h => completes_eq rfl ((writeCmd_fault h).trans (fetchIo_fault hcan h _ _)) hend⟩

theorem writeDataTransferDone : Claims.writeDataTransferDone := by
  intro s id bs c n hc ha hd hst hw hrel hn hl hroom
  obtain ⟨f, hf⟩ := ioFields_of_isWrite hw
  refine completes_eq rfl (writeData_taken hc ha hd hst hw hf hn hl (hroom f hf)) ?_
  have hdata : getCmd (modCmd s id fun x => { x with blocks := bs }) id = some { c with blocks := bs } := by
    rw [getCmd_modCmd, hc]
    rfl
  obtain ⟨pl, rm, us, hcmd⟩ := allocAll_getCmd hdata { c with blocks := bs } n f
  rw [← getCmd_of_srt (turn_srt _)] at hcmd
  rw [proceed_unreleased hcmd hrel, hcmd]
  exact ⟨_, rfl, rfl, rfl, rfl, hrel⟩

theorem writeDataTransferFails : Claims.writeDataTransferFails := by
  intro s id bs c hcmds ha hd hst hw hns hm hready hq hp
  obtain ⟨f, hf⟩ := ioFields_of_isWrite hw
  obtain ⟨n, hn⟩ := Option.isSome_iff_exists.mp hns
  have hc : getCmd s id = some c := by simp [getCmd, hcmds, nget]
  exact completes_eq rfl (writeData_failed hc ha hd hst hw hf hn bs) (failCmd_answers hcmds hm hp hq hready _ _ _)

/-- Settles O24, command by command. -/
theorem fetchedIoCommands : Obligations.FetchedIoCommands :=
  ⟨compare, writeZeroes, verify, datasetManagement, fetchFault, writeDataTransferDone, writeDataTransferFails⟩

end Sys2Proof.Proofs
end
section
/-! PROOFS. Admin commands that firmware acts on as it takes them: Directive Receive (R91), the firmware download and commits (R353 to
R355), and the tracked ones, Format NVM (R413) and Sanitize (R415). Settles O30. -/

namespace Sys2Proof.Machine

variable {s : State}

/-! ## Taking an admin command (R101) -/

theorem rd_takeFirm (p : Port) {a : Nat} (h : signalReg a = false) : rd (takeFirm s p) a = rd s a := by
  rw [takeFirm, rd_raise _ _ h, rd_takeEntry]
theorem rd_takeAdmin (p : Port) {a : Nat} (h : signalReg a = false) : rd (takeAdmin s p) a = rd s a := rd_takeFirm p h
theorem attachedNs_takeAdmin (s : State) (p : Port) (q : Sqe) : attachedNs (takeAdmin s p) q = attachedNs s q := by
  simp [attachedNs, nsOf]

/-- Outside a sanitize and its failure mode firmware acts on the command. -/
theorem adminClean_taken {q : Sqe} (h : Claims.AdmClean s q) (f : State → State) : adminClean s q f = f (takeAdmin s q.port) := by
  obtain ⟨⟨hcan, -⟩, hsan, hfail⟩ := h
  have h1 : sanitizeOn (takeAdmin s q.port) = false := by simpa [sanitizeOn] using hsan
  have h2 : sanFailed (takeAdmin s q.port) = false := by simpa [sanFailed] using hfail
  simp [adminClean, admin, hcan, h1, h2]

/-! ## Dword 0 of a completion -/

/-- A completion that its queue takes is posted. -/
theorem complete_posts {q : Sqe} (h : cqReady s q = true) (st : Status) (dw lba cs : Nat) :
    ∃ u k c, u.out = s.out ∧
      complete s q st dw lba cs = placeCompl u q.port k c { port := q.port, qid := q.qid, cid := q.cid, st, dw0 := dw } := by
  have hpost : ∀ u, u.out = s.out → cqReady u q = true → ∃ k c,
      post u { port := q.port, qid := q.qid, cid := q.cid, st, dw0 := dw } =
        placeCompl u q.port k c { port := q.port, qid := q.qid, cid := q.cid, st, dw0 := dw } := by
    intro u _ hu
    unfold cqReady at hu
    unfold post
    dsimp only
    split at hu
    · rename_i c hc
      simp only [Bool.and_eq_true, Bool.not_eq_true'] at hu
      rw [hc]
      exact ⟨_, c, if_neg (by simp [hu])⟩
    · cases hu
  unfold complete
  dsimp only
  split
  · have hu : (addError s q st lba cs).out = s.out := by simp
    obtain ⟨k, c, e⟩ := hpost (addError s q st lba cs) hu (by simpa [cqReady, addError] using h)
    exact ⟨_, k, c, hu, e⟩
  · obtain ⟨k, c, e⟩ := hpost s rfl h
    exact ⟨s, k, c, rfl, e⟩

/-- The completion of an admin command carries its Dword 0 as it is. -/
theorem placeCompl_admin (s : State) (p : Port) (k : Nat) (q : Cq) {c : Compl} (hc : c.qid = 0) :
    ∃ l h, (placeCompl s p k q c).out = s.out ++ Out.completion k q.phase { c with sqhd := h } :: l := by
  have key : ∃ l, (placeCompl s p k q c).out = s.out ++ [Out.completion k q.phase { c with
      sqhd := ((nget (getPort s p).sqs c.qid).map fun x => x.head).getD 0
      dw0 := if c.qid = 0 then c.dw0 else dwFrozen c.dw0 (((nget (getPort s p).sqs c.qid).map fun x => x.frozen).getD false) }] ++ l :=
    (interrupt_sent (modPort s p _) _ p k _ _).imp fun l h => h.trans (by rw [modPort_out])
  obtain ⟨l, hl⟩ := key
  rw [if_pos hc] at hl
  exact ⟨l, _, hl.trans (List.append_assoc _ _ _)⟩

/-- An admin command that is answered with a Dword 0 as firmware takes it. -/
theorem answeredWith_complete {u : State} {q : Sqe} (h0 : q.qid = 0) (hu : cqReady u q = true) (ho : ∃ l, u.out = s.out ++ l)
    (st : Status) (dw lba cs : Nat) : AnsweredWith s (complete u q st dw lba cs) q st dw := by
  obtain ⟨v, k, c, hv, hcomplete⟩ := complete_posts hu st dw lba cs
  obtain ⟨l, x, hout⟩ := placeCompl_admin v q.port k c (c := { port := q.port, qid := q.qid, cid := q.cid, st, dw0 := dw }) h0
  obtain ⟨m, hm⟩ := ho
  refine ⟨m ++ _ :: l, by rw [hcomplete, hout, hv, hm, List.append_assoc], k, c.phase, _,
    List.mem_append_right _ List.mem_cons_self, rfl, rfl, rfl, rfl, rfl⟩

/-! ## Directive Receive (R91) -/

/-- Streams that are left are allocated as they are asked for. -/
theorem dirReceive_allocates {q : Sqe} {n : Nat} (h : Claims.AdmClean s q) (ha : (attachedNs s q).isSome = true)
    (hen : q.nsid ∈ (getPort s q.port).dirEn) (h1 : 1 ≤ n) (hn : n ≤ 16 - streamsHeld s) (h16 : n < 65536) :
    dirReceive s q 1 3 n = complete (setPort (takeAdmin s q.port) q.port { getPort (takeAdmin s q.port) q.port with
      dirRes := (getPort s q.port).dirRes ++ [(q.nsid, n)] }) q stOk n := by
  have hattached : (attachedNs (takeAdmin s q.port) q).isNone = false := by
    rw [attachedNs_takeAdmin, ← Option.not_isSome, ha]
    rfl
  have hheld : streamsHeld (takeAdmin s q.port) = streamsHeld s := by
    have hres : ∀ p, (getPort (takeAdmin s q.port) p).dirRes = (getPort s p).dirRes := fun p => getPort_takeAdmin_dirRes s q.port p
    have ha : (takeAdmin s q.port).portA.dirRes = s.portA.dirRes := hres .a
    have hb : (takeAdmin s q.port).portB.dirRes = s.portB.dirRes := hres .b
    simp [streamsHeld, ha, hb]
  have hmin : min (n % 65536) (16 - streamsHeld s) = n := by omega
  have h0 : ¬ n = 0 := by omega
  rw [dirReceive, adminClean_taken h]
  simp [hattached, hheld, hmin, h0, hen]

/-! ## The download buffer (R353) -/

/-- Bytes put one after another into a buffer. -/
def putRun (m : NMap Byte) (k : Nat) (l : List Byte) : NMap Byte :=
  (l.foldl (fun (a : NMap Byte × Nat) b => (nset a.1 a.2 b, a.2 + 1)) (m, k)).1

theorem nget_putRun (m : NMap Byte) (k j : Nat) (l : List Byte) :
    nget (putRun m k l) j = if k ≤ j ∧ j < k + l.length then l[j - k]? else nget m j := by
  induction l generalizing m k with
  | nil =>
    rw [if_neg (by simp)]
    rfl
  | cons b r ih =>
    have hstep : putRun m k (b :: r) = putRun (nset m k b) (k + 1) r := rfl
    rw [hstep, ih, List.length_cons]
    by_cases hj : j = k
    · subst hj
      rw [if_neg (by omega), if_pos (by omega), nget_nset_same]
      simp
    · rw [nget_nset_other _ _ hj]
      by_cases hin : k + 1 ≤ j ∧ j < k + 1 + r.length
      · rw [if_pos hin, if_pos (by omega), show j - k = (j - (k + 1)) + 1 by omega, List.getElem?_cons_succ]
      · rw [if_neg hin, if_neg (by omega)]

/-- The two controllers' buffers. -/
def bufferOf (x : Sec) (p : Port) : NMap Byte := match p with | .a => x.dlA | .b => x.dlB

theorem dlOf_eq (s : State) (p : Port) : Claims.dlOf s p = bufferOf s.sec p := by cases p <;> rfl

/-- A download that fits writes the port's buffer, from a new one where it begins at 0, and completes. -/
theorem download_fits {q : Sqe} {numd ofst : Nat} {data : List Byte} (h : Claims.AdmClean s q) (hfit : 4 * (ofst + numd) ≤ 16777216)
    (hlen : data.length = 4 * numd) : ∃ g : Sec → Sec, download s q numd ofst data = complete (updSec (takeAdmin s q.port) g) q stOk ∧
      (∀ x, bufferOf (g x) q.port = putRun (if ofst = 0 then [] else bufferOf x q.port) (4 * ofst) data) ∧
      ∀ x p, p ≠ q.port → bufferOf (g x) p = bufferOf x p := by
  have hbytes : padTo (4 * numd) (data.take (4 * numd)) = data := by
    rw [← hlen, List.take_length, padTo, Nat.sub_self, List.replicate_zero, List.append_nil]
  rw [download, adminClean_taken h, if_neg (by omega), hbytes]
  refine ⟨_, rfl, fun x => ?_, fun x p hp => ?_⟩
  · cases q.port <;> rfl
  · generalize q.port = r at hp
    cases r with
    | a => cases p with
      | a => exact absurd rfl hp
      | b => rfl
    | b => cases p with
      | a => rfl
      | b => exact absurd rfl hp

/-! ## Image acceptance and the boot record (R352, R442, R443) -/

/-- Acceptance rests on the fuses and the unit's serial alone. -/
theorem accept_congr {t : State} (hs : t.sec = s.sec) (hc : t.chip = s.chip) (l : List Byte) : accept t l = accept s l := by
  unfold accept keyOk usableSlot serialListed
  rw [hs, hc]

theorem norBytes_congr {t : State} (h : t.boot = s.boot) (a n : Nat) : norBytes t a n = norBytes s a n := by rw [norBytes, norBytes, h]
theorem slotImage_congr {t : State} (h : t.boot = s.boot) (k : Nat) : slotImage t k = slotImage s k := by
  simp only [slotImage, norBytes_congr h]
theorem recordInForce_congr {t : State} (h : t.boot = s.boot) : recordInForce t = recordInForce s := by
  simp only [recordInForce, recordAt, norBytes_congr h]

/-- A boot record is written into the NOR; beside, CFG_BOOT's copy in force and the sequence number change. -/
theorem nameSlot_eq (s : State) (k : Nat) : ∃ a l v copy,
    nameSlot s k = wrField (wr (norPut s a l) 0xE0048 v) Reg.cfgBoot 9 9 copy := ⟨_, _, _, _, rfl⟩
theorem nameSlot_boot_congr {t : State} (h : t.boot = s.boot) (k : Nat) : (nameSlot t k).boot = (nameSlot s k).boot := by
  simp only [nameSlot, writeRecordCopy, recordInForce_congr h, slotImage_congr h, wrField_boot, wr_boot, norPut, updBoot_boot, h]
theorem nameSlot_op (s : State) (k : Nat) : (nameSlot s k).boot.op = s.boot.op := by
  obtain ⟨a, l, v, copy, h⟩ := nameSlot_eq s k
  rw [h, wrField_boot, wr_boot, norPut, updBoot_boot]
theorem runningSlot_nameSlot (s : State) (k : Nat) : runningSlot (nameSlot s k) = runningSlot s := by
  obtain ⟨a, l, v, copy, h⟩ := nameSlot_eq s k
  rw [runningSlot, h, rdField_wrField_other _ _ _ _ _ _ _ (by decide) (by decide), rdField, rd_wr_other _ _ (by decide), norPut,
    rd_updBoot]
  rfl

/-- Firmware's own record is written at most: the NOR, with the two registers that follow it. -/
theorem ownRecord_cases (s : State) : ownRecord s = nameSlot s (runningSlot s) ∨ ownRecord s = s := by
  unfold ownRecord
  exact ite_eq_or_eq _ _ _

theorem ownRecord_only (s : State) : OnlyChanges [.regs, .boot] s (ownRecord s) :=
  ownRecord_frame (OnlyChanges.refl _ s) (by decide) (by decide)
theorem nameSlot_only (s : State) (k : Nat) : OnlyChanges [.regs, .boot] s (nameSlot s k) :=
  nameSlot_frame (OnlyChanges.refl _ s) (by decide) (by decide)
theorem ownRecord_op (s : State) : (ownRecord s).boot.op = s.boot.op := by
  rcases ownRecord_cases s with h | h <;> rw [h]
  exact nameSlot_op s _
theorem runningSlot_ownRecord (s : State) : runningSlot (ownRecord s) = runningSlot s := by
  rcases ownRecord_cases s with h | h <;> rw [h]
  exact runningSlot_nameSlot s _

/-- Whether it is written, and what, rests on the NOR and on CFG_BOOT. -/
theorem ownRecord_boot_congr {t : State} (h : t.boot = s.boot) (hr : rd t Reg.cfgBoot = rd s Reg.cfgBoot) :
    (ownRecord t).boot = (ownRecord s).boot := by
  have hrun : runningSlot t = runningSlot s := by rw [runningSlot, runningSlot, rdField, rdField, hr]
  have hfall : rdField t Reg.cfgBoot 16 16 = rdField s Reg.cfgBoot 16 16 := by rw [rdField, rdField, hr]
  simp only [ownRecord, recordInForce_congr h, hrun, hfall, apply_ite State.boot, nameSlot_boot_congr h, h]

theorem cqReady_of_only {t : State} {F : List Part} (h : OnlyChanges F s t) (ha : Part.portA ∉ F) (hb : Part.portB ∉ F) (q : Sqe) :
    cqReady t q = cqReady s q := by
  have hp : getPort t q.port = getPort s q.port := getPort_of_ports s (h.same .portA ha) (h.same .portB hb) q.port
  simp only [cqReady, hp]

/-! ## Firmware commits (R354, R355) -/

section
variable {q : Sqe} {fs : Nat} (h : Claims.AdmClean s q) (hone : s.sec.commit = none)
include h hone

/-- What firmware reads of the state as it takes a Firmware Commit. -/
theorem takeAdmin_commit (p : Port) : (takeAdmin s p).sec.commit = none ∧ sanitizeOn (takeAdmin s p) = false ∧
    sanFailed (takeAdmin s p) = false ∧ (anyFormat (takeAdmin s p) = anyFormat s) ∧ runningSlot (takeAdmin s p) = runningSlot s ∧
    commitSlot (takeAdmin s p) fs = commitSlot s fs ∧ bufferImage (takeAdmin s p) = bufferImage s := by
  obtain ⟨-, hsan, hfail⟩ := h
  have hrun : runningSlot (takeAdmin s p) = runningSlot s := by rw [runningSlot, runningSlot, rdField, rdField, rd_takeAdmin p rfl]
  refine ⟨by rw [takeAdmin_sec, hone], by simpa [sanitizeOn] using hsan, by simpa [sanFailed] using hfail, by simp [anyFormat], hrun,
    by simp only [commitSlot, hrun], ?_⟩
  funext r
  simp only [bufferImage, takeAdmin_sec]

variable (hfs : fs ≤ 2)
include hfs

/-- A commit of a buffered image to a slot that does not run comes to the acceptance of the image. -/
theorem commitImage_judged {ca : Nat} {img : List Byte} (hslot : commitSlot s fs ≠ runningSlot s)
    (himg : bufferImage s q.port = some img) (hfmt : ca = 3 → anyFormat s = false) :
    commitImage s q ca fs false = if accept (ownRecord s) img ≠ 0
      then complete (ownRecord (takeAdmin s q.port)) q (acceptStatus (accept (ownRecord s) img))
      else commitBegin (updSec (ownRecord (takeAdmin s q.port)) fun x => { x with
        commit := some { port := q.port, qid := q.qid, cid := q.cid, ca, slot := commitSlot s fs, img } }) := by
  have hcan : canFetchAdm s q = true := h.1.1
  obtain ⟨h1, h2, h3, h4, h5, h6, h7⟩ := takeAdmin_commit (fs := fs) h hone q.port
  have hown : commitSlot (ownRecord (takeAdmin s q.port)) fs = commitSlot s fs := by
    simp only [commitSlot, runningSlot_ownRecord, h5]
  have hacc : accept (ownRecord (takeAdmin s q.port)) img = accept (ownRecord s) img := by
    refine accept_congr ?_ ?_ img
    · rw [(ownRecord_only _).same .sec (by decide), (ownRecord_only s).same .sec (by decide), takeAdmin_sec]
    · rw [(ownRecord_only _).same .chip (by decide), (ownRecord_only s).same .chip (by decide), takeAdmin_chip]
  have hfmt' : (decide (ca = 3) && anyFormat s) = false := by
    by_cases hca : ca = 3 <;> simp [hca, hfmt]
  have hfs' : ¬ 2 < fs := by omega
  simp only [commitImage, admin, hcan, Bool.not_true, Bool.false_eq_true, if_false, Bool.false_or, decide_eq_true_eq, hfs', h1, h2, h3, h4,
    h5, h6, h7, hfmt', hslot, himg, hown, hacc, Option.isSome_none, bne_iff_ne]

/-- An accepted image is being written to its slot. -/
theorem commitImage_accepted {ca : Nat} {img : List Byte} (hop : s.boot.op = none) (hslot : commitSlot s fs ≠ runningSlot s)
    (himg : bufferImage s q.port = some img) (hfmt : ca = 3 → anyFormat s = false) (hacc : accept (ownRecord s) img = 0) :
    Claims.Committing s (commitImage s q ca fs false) q ca (commitSlot s fs) img := by
  have hboot : (ownRecord (takeAdmin s q.port)).boot = (ownRecord s).boot :=
    ownRecord_boot_congr (takeAdmin_boot ..) (rd_takeAdmin _ rfl)
  have hfree : (ownRecord s).boot.op = none := by rw [ownRecord_op, hop]
  rw [commitImage_judged h hone hfs hslot himg hfmt, if_neg (by simpa using hacc)]
  simp [Claims.Committing, commitBegin, hfree, hboot]

/-- A slot's accepted image is named for the next boot. -/
theorem commitNamed_accepted (hacc : accept (ownRecord s) (slotImage (ownRecord s) (commitSlot s fs)) = 0) :
    commitNamed s q fs false = complete (nameSlot (ownRecord (takeAdmin s q.port)) (commitSlot s fs)) q stOk := by
  have hcan : canFetchAdm s q = true := h.1.1
  obtain ⟨-, h2, h3, -, -, h6, -⟩ := takeAdmin_commit (fs := fs) h hone q.port
  have himg : slotImage (ownRecord (takeAdmin s q.port)) (commitSlot s fs) = slotImage (ownRecord s) (commitSlot s fs) :=
    slotImage_congr (ownRecord_boot_congr (takeAdmin_boot ..) (rd_takeAdmin _ rfl)) _
  have hacc' : accept (ownRecord (takeAdmin s q.port)) (slotImage (ownRecord s) (commitSlot s fs)) = 0 := by
    rw [← hacc]
    refine accept_congr ?_ ?_ _
    · rw [(ownRecord_only _).same .sec (by decide), (ownRecord_only s).same .sec (by decide), takeAdmin_sec]
    · rw [(ownRecord_only _).same .chip (by decide), (ownRecord_only s).same .chip (by decide), takeAdmin_chip]
  have hfs' : ¬ 2 < fs := by omega
  simp [commitNamed, admin, hcan, hfs', h2, h3, h6, himg, hacc', hone]
end

/-! ## Commands over whole namespaces (R413, R415, Table 17-6) -/

theorem takeFirm_map (s : State) (p : Port) : (takeFirm s p).map = s.map := by rw [takeFirm, raise_map, takeEntry_map]
theorem takeFirm_prog (s : State) (p : Port) : (takeFirm s p).prog = s.prog := by rw [takeFirm, raise_prog, takeEntry_prog]
theorem takeFirm_boot (s : State) (p : Port) : (takeFirm s p).boot = s.boot := by rw [takeFirm, raise_boot, takeEntry_boot]
theorem sanitizeOn_takeFirm (s : State) (p : Port) : sanitizeOn (takeFirm s p) = sanitizeOn s := by
  rw [sanitizeOn, sanitizeOn, takeFirm_prog, takeFirm_map]
theorem sanFailed_takeFirm (s : State) (p : Port) : sanFailed (takeFirm s p) = sanFailed s := by
  rw [sanFailed, sanFailed, takeFirm_prog]
theorem anyFormat_takeFirm (s : State) (p : Port) : anyFormat (takeFirm s p) = anyFormat s := by
  rw [anyFormat, anyFormat, takeFirm_map, takeFirm_srt]
theorem formatFault_takeFirm (s : State) (p : Port) : formatFault (takeFirm s p) = formatFault s := by
  rw [formatFault, formatFault, takeFirm_map, sanitizeOn_takeFirm, sanFailed_takeFirm, anyFormat_takeFirm]
theorem sanitizeFault_takeFirm (s : State) (p : Port) : sanitizeFault (takeFirm s p) = sanitizeFault s := by
  rw [sanitizeFault, sanitizeFault, takeFirm_map, sanitizeOn_takeFirm, anyFormat_takeFirm]

theorem resizeFits_takeFirm (s : State) (p : Port) (ids : List Nat) (lbaf : Nat) :
    resizeFits (takeFirm s p) ids lbaf = resizeFits s ids lbaf := by
  have hpool : poolSize (takeFirm s p) = poolSize s := by rw [poolSize, poolSize, rdField, rdField, rd_takeFirm p rfl]
  have hns : nsOf (takeFirm s p) = nsOf s := funext fun n => by rw [nsOf, nsOf, takeFirm_map]
  have hcap : capacityFits (takeFirm s p) = capacityFits s := by
    funext a b c
    rw [capacityFits, capacityFits, creating, creating, commitC, commitC, mapSegments, mapSegments, takeFirm_map, takeFirm_srt,
      takeFirm_boot, hpool]
  rw [resizeFits, resizeFits, hns, hcap]

/-- A command over whole namespaces is tracked where the tracker has room for them. -/
theorem wholeCmd_tracked {b : Instr} {q : Sqe} {ids : List Nat} {p : Port} (hc : occCmds s < 16384)
    (hr : occRanges s + ids.length ≤ 32768) : Claims.Tracked s (wholeCmd (takeFirm s p) b q ids) b q true := by
  rw [wholeCmd, enterTracker_room (by simpa [occCmds] using hc) (by simpa [occRanges] using hr)]
  exact tracked_of_entered (c := { body := b, q, modif := true, entries := ids.length + 1, ranges := ids.map fun n => (n, 0, 2 ^ 40) })
    (by rw [takeFirm_srt]) (hwm_srt _)

/-- A Format NVM of one namespace that nothing turns away. -/
theorem formatFetch_one {b : Instr} {q : Sqe} {n : Ns} {lbaf ses piType : Nat} (h : Claims.AdmClean s q) (h1 : 1 ≤ q.nsid)
    (h2 : q.nsid ≤ 128) (hn : nsOf s q.nsid = some n) (hbad : badFormat lbaf piType = false) (hses : ses < 3)
    (hfits : resizeFits s [q.nsid] lbaf = true) (h3 : s.map.chip ≠ 3) (h4 : s.map.chip ≠ 4) (hfmt : anyFormat s = false) :
    formatFetch s b q lbaf ses piType = wholeCmd (takeFirm s q.port) b q [q.nsid] := by
  obtain ⟨⟨hcan, -⟩, hsan, hfail⟩ := h
  have hall : ¬ q.nsid = 0xFFFFFFFF := by omega
  have h0 : ¬ q.nsid = 0 := by omega
  have hhigh : ¬ 128 < q.nsid := by omega
  have hses' : ¬ 3 ≤ ses := by omega
  have hns : nsOf (takeFirm s q.port) q.nsid = some n := by rwa [nsOf, takeFirm_map]
  have hids : namedNs (takeFirm s q.port) q.nsid = [q.nsid] := by simp [namedNs, hall, hns]
  have hfault : formatFault s = none := by simp [formatFault, h3, h4, hsan, hfail, hfmt]
  simp [formatFetch, hcan, hids, h0, hhigh, hbad, hses', resizeFits_takeFirm, hfits, formatFault_takeFirm, hfault]

end Sys2Proof.Machine

namespace Sys2Proof.Proofs
open Sys2Proof.Machine

theorem directiveReceive : Claims.directiveReceive := by
  intro s q n h h0 ha hen h1 hn h16
  refine completes_eq rfl (dirReceive_allocates h ha hen h1 hn h16) ⟨?_, by simp⟩
  obtain ⟨⟨-, hready⟩, -⟩ := h
  refine answeredWith_complete h0 ?_ ?_ stOk n 0 0
  · rw [← cqReady_takeAdmin] at hready
    rw [← hready]
    simp [cqReady]
  · rw [setPort_out]
    exact takeAdmin_out s q.port

theorem firmwareImageDownload : Claims.firmwareImageDownload := by
  intro s q numd ofst data h hfit hlen
  obtain ⟨g, hdownload, hput, hother⟩ := download_fits h hfit hlen
  obtain ⟨⟨-, hready⟩, -⟩ := h
  have hbuf : ∀ p, Claims.dlOf (complete (updSec (takeAdmin s q.port) g) q stOk) p = bufferOf (g s.sec) p := fun p => by
    rw [dlOf_eq, complete_sec, updSec_sec, takeAdmin_sec]
  refine completes_eq rfl hdownload ⟨?_, ?_, ?_, ?_⟩
  · refine (answered_complete (updSec (takeAdmin s q.port) g) q stOk 0 0 0 ?_).before s (takeAdmin_out s q.port)
    rw [cqReady_of_only (updSec_frame (F := [.sec]) (OnlyChanges.refl _ _) (by decide)) (by decide) (by decide), cqReady_takeAdmin, hready]
  · intro k hk
    rw [hbuf, hput, nget_putRun, if_pos (by omega), Nat.add_sub_cancel_left]
  · intro a ha
    rw [hbuf, hput, nget_putRun, if_neg (by omega), dlOf_eq]
    split <;> rfl
  · intro p hp
    rw [hbuf, hother _ _ hp, dlOf_eq]

theorem firmwareCommitReplace : Claims.firmwareCommitReplace := by
  intro s q fs img ⟨h, hfs, hone, hop, hslot, himg, hacc⟩
  exact ⟨_, rfl, commitImage_accepted h hone hfs hop hslot himg (fun e => nomatch e) hacc⟩
theorem firmwareCommitReplaceNext : Claims.firmwareCommitReplaceNext := by
  intro s q fs img ⟨h, hfs, hone, hop, hslot, himg, hacc⟩
  exact ⟨_, rfl, commitImage_accepted h hone hfs hop hslot himg (fun e => nomatch e) hacc⟩
theorem firmwareCommitActivateNow : Claims.firmwareCommitActivateNow := by
  intro s q fs img ⟨h, hfs, hone, hop, hslot, himg, hacc⟩ hfmt
  exact ⟨_, rfl, commitImage_accepted h hone hfs hop hslot himg (fun _ => hfmt) hacc⟩

theorem firmwareCommitRefused : Claims.firmwareCommitRefused := by
  intro s q fs img h hfs hone hslot himg hacc
  refine completes_eq rfl ((commitImage_judged h hone hfs (ca := 0) hslot himg (fun e => nomatch e)).trans (if_pos hacc)) ⟨?_, ?_, ?_⟩
  · refine (answered_complete (ownRecord (takeAdmin s q.port)) q _ 0 0 0 ?_).before s ?_
    · rw [cqReady_of_only (ownRecord_only _) (by decide) (by decide), cqReady_takeAdmin]
      exact h.1.2
    · rw [show (ownRecord (takeAdmin s q.port)).out = _ from (ownRecord_only _).same .out (by decide)]
      exact takeAdmin_out s q.port
  · rw [complete_boot]
    exact ownRecord_boot_congr (takeAdmin_boot ..) (rd_takeAdmin _ rfl)
  · rw [complete_sec, show (ownRecord (takeAdmin s q.port)).sec = _ from (ownRecord_only _).same .sec (by decide), takeAdmin_sec]

theorem firmwareCommitActivateSlot : Claims.firmwareCommitActivateSlot := by
  intro s q fs h hfs hone hacc
  have honly : OnlyChanges [.regs, .boot] (takeAdmin s q.port) (nameSlot (ownRecord (takeAdmin s q.port)) (commitSlot s fs)) :=
    (ownRecord_only _).trans (nameSlot_only _ _)
  refine completes_eq rfl (commitNamed_accepted h hone hfs hacc) ⟨?_, ?_, ?_, ?_⟩
  · refine (answered_complete _ q stOk 0 0 0 ?_).before s ?_
    · rw [cqReady_of_only honly (by decide) (by decide), cqReady_takeAdmin]
      exact h.1.2
    · rw [show (nameSlot (ownRecord (takeAdmin s q.port)) (commitSlot s fs)).out = _ from honly.same .out (by decide)]
      exact takeAdmin_out s q.port
  · rw [complete_sec, show (nameSlot (ownRecord (takeAdmin s q.port)) (commitSlot s fs)).sec = _ from honly.same .sec (by decide),
      takeAdmin_sec]
  · rw [complete_boot, nameSlot_boot_congr (ownRecord_boot_congr (takeAdmin_boot ..) (rd_takeAdmin _ rfl))]
  · rw [complete_boot, nameSlot_op, ownRecord_op, takeAdmin_boot]

theorem formatNvm : Claims.formatNvm := by
  intro s q n lbaf ses piType pil mset ok h h1 h2 hn hbad hses hfits h3 h4 hfmt hc hr
  exact completes_eq rfl (formatFetch_one h h1 h2 hn hbad hses hfits h3 h4 hfmt) (wholeCmd_tracked hc hr)

theorem sanitizeBlockErase : Claims.sanitizeBlockErase := by
  intro s q ause ok ⟨⟨hcan, _⟩, h3, h4, hsan, hfmt, hc, hr⟩
  have hfault : sanitizeFault s = none := by simp [sanitizeFault, h3, h4, hsan, hfmt]
  have hfetch : ∀ b, sanitizeFetch s b q false = wholeCmd (takeFirm s q.port) b q (s.map.tab.ns.map fun e => e.1) := fun b => by
    simp [sanitizeFetch, hcan, sanitizeFault_takeFirm, hfault, takeFirm_map]
  exact completes_eq rfl (hfetch _) (wholeCmd_tracked hc (by rwa [List.length_map]))

/-- Settles O30, command by command. -/
theorem firmwareAndFormat : Obligations.FirmwareAndFormat :=
  ⟨directiveReceive, firmwareImageDownload, firmwareCommitReplace, firmwareCommitReplaceNext, firmwareCommitActivateNow,
    firmwareCommitRefused, firmwareCommitActivateSlot, formatNvm, sanitizeBlockErase⟩

end Sys2Proof.Proofs
end
section
/-! PROOFS. The controllers and links of the host ports: enable and disable (R78 to R80), shutdown and drains (R95, R96, Tables 3-10 and
3-11), resets of the function, and links (R69 to R71). Settles O33. -/

namespace Sys2Proof.Machine

variable {s : State}

/-! ## Registers of the front ends -/

theorem signalReg_hfe (p : Port) {off : Nat} (h : off < 0x1000) : signalReg (hfe p off) = false := by
  rw [← Bool.not_eq_true, signalReg_iff]
  cases p <;> simp only [hfe, portBlk, Blk.base] <;> omega
theorem hfe_ne_sts_srt (p : Port) {off : Nat} (h : off < 0x1000) : hfe p off ≠ Reg.sts .srt := by
  cases p <;> simp only [hfe, portBlk, Reg.sts, Blk.base] <;> omega
theorem hfe_ne_hfe (p : Port) {a b : Nat} (h : a ≠ b) : hfe p a ≠ hfe p b := fun e => h (Nat.add_left_cancel e)
theorem rd_hfeRaise (p : Port) (n : Nat) {a : Nat} (h : signalReg a = false) : rd (hfeRaise s p n) a = rd s a := rd_raise s _ h
theorem port_num_le (p : Port) : p.num ≤ 1 := by cases p <;> decide

/-! ## Drains (R95, R96, Table 3-11) -/

/-- A port whose drain has started. -/
def portDrained (k : DrainKind) (x : PortSt) : PortSt := { x with
  fetching := false, drain := some k, aerOut := [], abortOut := none, abortWait := none, coal := []
  sqs := x.sqs.map fun e => (e.1, { e.2 with deleting := none })
  cqs := x.cqs.map fun e => (e.1, { e.2 with held := [] }) }

/-- What waits for the port outside the sorting office waits for no completion any more: a Firmware Commit and a schedule. -/
def waitsMuted (s : State) (p : Port) : State :=
  let s := updSec s fun x => { x with commit := x.commit.map fun c => if c.port == p then { c with mute := true } else c }
  if (s.ring.schedWait.map fun w => w.1) == some p then updRing s fun r => { r with schedWait := none } else s

/-- The port's commands, each to be muted, and a write among them whose data has not arrived to be dropped. -/
def portCmds (s : State) (p : Port) : List Nat := (s.srt.cmds.filter fun c => c.2.q.port == p).map fun c => c.1
def muteCmd (s : State) (id : Nat) : State := modCmd s id fun c => { c with mute := true }
def dropWrite (s : State) (id : Nat) : State :=
  match getCmd s id with
  | some c => if isWrite c.body && !c.dataIn then endCmd s id stAbortReq else s
  | none => s

/-- A drain's start, part by part. -/
theorem drainStart_eq (s : State) (p : Port) (k : DrainKind) : drainStart s p k = pump (proceedAll (trkSettle
    ((portCmds (modPort s p (portDrained k)) p).foldl dropWrite
      (waitsMuted ((portCmds (modPort s p (portDrained k)) p).foldl muteCmd (modPort s p (portDrained k))) p)))) := rfl

theorem waitsMuted_only (s : State) (p : Port) : OnlyChanges [.sec, .ring] s (waitsMuted s p) := by
  have hsec : ∀ f, OnlyChanges [.sec, .ring] s (updSec s f) := fun f => updSec_frame (OnlyChanges.refl _ s) (by decide)
  exact frame_ite (updRing_frame (hsec _) (by decide)) (hsec _)
theorem getPort_of_only {t : State} {F : List Part} (h : OnlyChanges F s t) (ha : Part.portA ∉ F) (hb : Part.portB ∉ F) (p : Port) :
    getPort t p = getPort s p := getPort_of_ports s (h.same .portA ha) (h.same .portB hb) p
theorem winOfPort_waitsMuted (s : State) (p r : Port) : winOfPort (waitsMuted s p) r = winOfPort s r := by
  unfold waitsMuted
  dsimp only
  split <;> cases r <;> rfl

theorem trkSettle_only (s : State) : OnlyChanges [.regs] s (trkSettle s) := trkSettle_frame (OnlyChanges.refl _ s) (by decide)
/-- TRK_FULL's register alone is written. -/
theorem rd_trkSettle {a : Nat} (h : a ≠ Reg.sts .srt) : rd (trkSettle s) a = rd s a := by
  unfold trkSettle
  split
  · rfl
  · exact rd_wrField_other s h

/-- With no command left and no flash operation, what follows a drain's start does nothing. -/
theorem afterDrain_idle (hc : s.srt.cmds = []) (ho : s.flash.ops = []) : pump (proceedAll (trkSettle s)) = trkSettle s := by
  have hp : proceedAll (trkSettle s) = trkSettle s := by simp [proceedAll, trkSettle_srt, hc]
  rw [hp]
  exact pump_idle (by rw [(trkSettle_only s).same .flash (by decide), ho])

/-- The start of a drain where nothing was fetched. -/
theorem drainStart_drained (h : Claims.Drained s) (p : Port) (k : DrainKind) :
    drainStart s p k = trkSettle (waitsMuted (modPort s p (portDrained k)) p) := by
  obtain ⟨hc, ho⟩ := h
  have honly := waitsMuted_only (modPort s p (portDrained k)) p
  have hmine : portCmds (modPort s p (portDrained k)) p = [] := by simp [portCmds, hc]
  rw [drainStart_eq, hmine, List.foldl_nil, List.foldl_nil]
  refine afterDrain_idle ?_ ?_
  · rw [honly.same .srt (by decide), modPort_srt, hc]
  · rw [honly.same .flash (by decide), modPort_flash, ho]

section
variable (h : Claims.Drained s) (p : Port) (k : DrainKind)
include h

theorem getPort_drainStart : getPort (drainStart s p k) p = portDrained k (getPort s p) := by
  rw [drainStart_drained h, getPort_of_only (trkSettle_only _) (by decide) (by decide),
    getPort_of_only (waitsMuted_only _ _) (by decide) (by decide), getPort_modPort]
theorem rd_drainStart {a : Nat} (ha : a ≠ Reg.sts .srt) : rd (drainStart s p k) a = rd s a := by
  rw [drainStart_drained h, rd_trkSettle ha, rd_of_regs ((waitsMuted_only _ _).same .regs (by decide)), rd_modPort]
theorem winOfPort_drainStart (r : Port) : winOfPort (drainStart s p k) r = winOfPort s r := by
  have hsec : ∀ t u : State, t.sec = u.sec → winOfPort t r = winOfPort u r := fun t u e => by simp only [winOfPort, e]
  rw [drainStart_drained h, hsec _ _ ((trkSettle_only _).same .sec (by decide)), winOfPort_waitsMuted, hsec _ _ (modPort_sec ..)]
end

/-- The start of a drain with one command of the port, a Write whose data has not arrived: it is dropped. -/
theorem drainStart_drops {p : Port} {id : Nat} {c : Cmd} (hc : s.srt.cmds = [(id, c)]) (ho : s.flash.ops = []) (hp : c.q.port = p)
    (hw : isWrite c.body = true) (hd : c.dataIn = false) (hpins : c.pins = []) (k : DrainKind) :
    (drainStart s p k).srt.cmds = [] ∧ (getPort (drainStart s p k) p).drain = some k := by
  have hmine : portCmds (modPort s p (portDrained k)) p = [id] := by simp [portCmds, hc, hp]
  rw [drainStart_eq, hmine, List.foldl_cons, List.foldl_cons, List.foldl_nil, List.foldl_nil]
  have honly := waitsMuted_only (muteCmd (modPort s p (portDrained k)) id) p
  generalize waitsMuted (muteCmd (modPort s p (portDrained k)) id) p = m at honly ⊢
  have hcmds : m.srt.cmds = [(id, { c with mute := true })] := by
    rw [honly.same .srt (by decide)]
    simp [muteCmd, modCmd, hc, nmod, nget, nset]
  have hcmd : getCmd m id = some { c with mute := true } := by simp [getCmd, hcmds, nget]
  have hdrop : dropWrite m id = leftTable m id := by
    rw [dropWrite, hcmd]
    exact (if_pos (by simp [hw, hd])).trans (endCmd_muted hcmd rfl hpins _ _ _ _)
  have hleft : (leftTable m id).srt.cmds = [] := by simp [leftTable_srt, hcmds, ndel]
  have hops : (leftTable m id).flash.ops = [] := by
    rw [(leftTable_frame m id).same .flash (by decide), honly.same .flash (by decide)]
    simpa [muteCmd, modCmd] using ho
  rw [hdrop, afterDrain_idle hleft hops]
  constructor
  · rw [trkSettle_srt, hleft]
  · rw [getPort_of_only (trkSettle_only _) (by decide) (by decide), getPort_leftTable, getPort_of_only honly (by decide) (by decide)]
    simp [muteCmd, modCmd, portDrained]

/-! ## Enable and shutdown (R78 to R80, R95) -/

/-- CSTS.RDY follows where the map is ready, and CSTS.CFS stays. -/
theorem getPort_portReady (s : State) (p : Port) : ∃ r f c, getPort (portReady s p) p = { getPort s p with rdy := r, fetching := f, cfs := c } ∧
    ((getPort s p).cfs = true → c = true) ∧
    ((getPort s p).en = true → (getPort s p).cfs = false → (getPort s p).drain = none → s.chip.mapReady = true → r = true) := by
  unfold portReady
  dsimp only
  split
  · rename_i hstay
    refine ⟨(getPort s p).rdy, (getPort s p).fetching, (getPort s p).cfs, rfl, id, fun hen hcfs hd _ => ?_⟩
    simpa only [hen, hcfs, hd, Bool.not_true, Bool.false_or, Option.isSome_none, Bool.or_false] using hstay
  · split
    · exact ⟨true, true, (getPort s p).cfs, by rw [noteReady, getPort_updSec, getPort_setPort], id, fun _ _ _ _ => rfl⟩
    · rename_i hmap
      split
      · exact ⟨(getPort s p).rdy, (getPort s p).fetching, true, getPort_setPort .., fun _ => rfl, fun _ _ _ h => absurd h hmap⟩
      · exact ⟨(getPort s p).rdy, (getPort s p).fetching, (getPort s p).cfs, rfl, id, fun _ _ _ h => absurd h hmap⟩

/-- A port as CC.EN is set: its admin queue pair has the sizes of AQA. -/
def portEnabled (x : PortSt) (cc : CcFields) (aqa : Aqa) : PortSt := { x with
  en := true, cfs := !ccOk cc.ams cc.mps, ams := cc.ams, mps := cc.mps, cc, aq := aqa, shst := 0, shn := 0
  asqs := aqa.asqs % 4096, acqs := aqa.acqs % 4096, arb := {}, coal := []
  abortOut := none, abortWait := none
  sqs := nset x.sqs 0 { size := aqa.asqs % 4096 + 1 }
  cqs := nset x.cqs 0 { size := aqa.acqs % 4096 + 1, ien := true } }

theorem enableController_off {p : Port} (h : reachable s p = true) (hen : (getPort s p).en = false) (hd : (getPort s p).drain = none)
    (cc : CcFields) (aqa : Aqa) :
    enableController s p cc aqa = hfeRaise (portReady (setPort s p (portEnabled (getPort s p) cc aqa)) p) p 76 := by
  simp only [enableController, h, hen, hd, Bool.not_true, Bool.false_eq_true, if_false, Option.isSome_none, Bool.or_self, portEnabled]

theorem disableController_on {p : Port} (h : reachable s p = true) (hen : (getPort s p).en = true) :
    disableController s p = drainStart (hfeRaise (setPort s p { getPort s p with en := false }) p 76) p .reset := by
  simp only [disableController, h, hen, Bool.not_true, Bool.false_eq_true, if_false]

/-- A state with the same sorting office and flash operations is drained where the first is. -/
theorem drained_of_same {t : State} (h : Claims.Drained s) (hs : t.srt = s.srt) (hf : t.flash = s.flash) : Claims.Drained t := by
  obtain ⟨hc, ho⟩ := h
  exact ⟨by rw [hs, hc], by rw [hf, ho]⟩

/-- A drain that ends: the port is out of it and fetches nothing. -/
def drainOver (s : State) (p : Port) : State := modPort s p fun x => { x with drain := none, fetching := false }

theorem drainEnd_over {p : Port} {k : DrainKind} (hd : (getPort s p).drain = some k) (h0 : drainLeft s p = 0) :
    drainEnd s p = match k with
      | .shutdown => shutDown (drainOver s p) p
      | .abruptShutdown => hfeRaise (shutDown (drainOver s p) p) p 75
      | .reset => hfeRaise (controllerCleared (drainOver s p) p) p 75
      | .flr => hfeRaise (controllerCleared (drainOver s p) p) p 75
      | .link => hfeRaise (controllerCleared (drainOver s p) p) p 75 := by
  simp only [drainEnd, hd, h0, bne_self_eq_false, Bool.false_eq_true, if_false]
  cases k <;> rfl

/-- A controller that has been shut down (Table 4-6; log entry 152). -/
structure ShutDown (x : PortSt) : Prop where
  drain : x.drain = none
  fetching : x.fetching = false
  shst : x.shst = 2
  sqs : ∀ e ∈ x.sqs, e.1 = 0
  cqs : ∀ e ∈ x.cqs, e.1 = 0

theorem shutDown_ends (s : State) (p : Port) : ShutDown (getPort (shutDown (drainOver s p) p) p) := by
  rw [shutDown, drainOver, getPort_modPort, getPort_modPort]
  exact ⟨rfl, rfl, rfl, fun e he => by simpa using (List.mem_filter.mp he).2, fun e he => by simpa using (List.mem_filter.mp he).2⟩
theorem ShutDown.raise {p : Port} (h : ShutDown (getPort s p)) (n : Nat) : ShutDown (getPort (hfeRaise s p n) p) := by
  obtain ⟨h1, h2, h3, h4, h5⟩ := h
  exact ⟨by simpa using h1, by simpa using h2, by simpa using h3, by simpa [hfeRaise] using h4, by simpa [hfeRaise] using h5⟩

/-- A controller that has been reset. -/
structure Cleared (x : PortSt) : Prop where
  drain : x.drain = none
  fetching : x.fetching = false
  rdy : x.rdy = false
  sqs : x.sqs = []
  cqs : x.cqs = []

theorem controllerCleared_ends (s : State) (p : Port) (n : Nat) :
    Cleared (getPort (hfeRaise (controllerCleared (drainOver s p) p) p n) p) := by
  constructor <;> simp [controllerCleared, drainOver]

/-- No completion is held where the lengths of what is held add up to none. -/
theorem sumOf_eq_zero {l : List Nat} : sumOf l = 0 ↔ ∀ n ∈ l, n = 0 := by
  rw [sumOf, ← List.sum_eq_foldl, List.sum_eq_zero_iff]

/-- A normal shutdown waits for what was fetched, and for the completions that are held (R95). -/
theorem drainLeft_shutdown {t : State} {p : Port} (hs : t.srt = s.srt) (hc : t.sec = s.sec) (hb : t.boot = s.boot)
    (hq : (getPort t p).cqs = (getPort s p).cqs) (hd : (getPort s p).drain = none) (hdt : (getPort t p).drain = some .shutdown) :
    drainLeft t p = 0 ↔ drainLeft s p = 0 ∧ ∀ e ∈ (getPort s p).cqs, e.2.held = [] := by
  have hnone : ((none : Option DrainKind) == some .shutdown) = false := rfl
  have hsome : (some DrainKind.shutdown == some .shutdown) = true := rfl
  have hheld : sumOf ((getPort s p).cqs.map fun e => e.2.held.length) = 0 ↔ ∀ e ∈ (getPort s p).cqs, e.2.held = [] := by
    simp only [sumOf_eq_zero, List.forall_mem_map, List.length_eq_zero_iff]
  rw [drainLeft, drainLeft, hs, hc, hb, hq, hd, hdt, hnone, hsome, if_pos rfl, if_neg Bool.false_ne_true, Nat.add_zero, ← hheld]
  exact Nat.add_eq_zero_iff

/-- A port in a normal shutdown. -/
def shutdownBegun (s : State) (p : Port) : State :=
  hfeRaise (setPort s p { getPort s p with shst := 1, shn := 1, drain := some .shutdown }) p 76

theorem shutdownOrderly_begins {p : Port} (h : reachable s p = true) (hen : (getPort s p).en = true) (hd : (getPort s p).drain = none)
    (hs : (getPort s p).shst ≠ 2) :
    shutdownOrderly s p = if drainLeft (shutdownBegun s p) p = 0 then drainEnd (shutdownBegun s p) p else shutdownBegun s p := by
  simp only [shutdownOrderly, h, hen, hd, hs, Bool.not_true, Bool.false_eq_true, if_false, Option.isSome_none, Bool.or_self, decide_false,
    shutdownBegun]

theorem shutdownAtOnce_begins {p : Port} (h : reachable s p = true) (hen : (getPort s p).en = true) (hd : (getPort s p).drain = none)
    (hs : (getPort s p).shst ≠ 2) : shutdownAtOnce s p =
      drainStart (hfeRaise (setPort s p { getPort s p with shst := 1, shn := 2 }) p 76) p .abruptShutdown := by
  simp only [shutdownAtOnce, h, hen, hd, hs, Bool.not_true, Bool.false_eq_true, if_false, Option.isSome_none, Bool.or_self, decide_false,
    Bool.false_and]

/-! ## Resets of the function (Tables 2-9 and 3-10) -/

/-- A port whose function has been reset. -/
def portReset (x : PortSt) : PortSt := { x with
  en := false, ams := 0, mps := 0, shn := 0, cc := { ams := 0, mps := 0, iosqes := 0, iocqes := 0 }
  d3hot := false, ltrHost := none, msix := [], cfgSpace := spaceRestored x }

theorem getPort_closeWin (s : State) (p r : Port) : getPort (closeWin s p) r = getPort s r :=
  getPort_of_only (closeWin_frame (F := [.sec]) (OnlyChanges.refl _ s) (by decide)) (by decide) (by decide) r
theorem winOfPort_closeWin {p : Port} (h : s.sec.depot = false) : winOfPort (closeWin s p) p = .closed := by
  rw [closeWin, h]
  cases p <;> rfl

theorem functionReset_eq (s : State) (p : Port) : functionReset s p = closeWin (modPort
    (if (getPort s p).linkUp && (getPort s p).d3hot then wrField s (hfe p 0x10) 23 18 (3 * 4) else s) p portReset) p := rfl

theorem getPort_functionReset (s : State) (p : Port) : getPort (functionReset s p) p = portReset (getPort s p) := by
  rw [functionReset_eq, getPort_closeWin, getPort_modPort]
  split
  · rw [getPort_wrField]
  · rfl
theorem functionReset_only (s : State) (p : Port) : OnlyChanges [.regs, .portA, .portB, .sec] s (functionReset s p) :=
  functionReset_frame (OnlyChanges.refl _ s) (by decide) (by decide) (by decide) (by decide)

/-- A link that is down stays as it is; one that is up leaves L1 (R73). -/
theorem rd_functionReset {p : Port} {a : Nat} (h : a ≠ hfe p 0x10 ∨ (getPort s p).linkUp = false) : rd (functionReset s p) a = rd s a := by
  have hclose : ∀ t, rd (closeWin t p) a = rd t a := fun t =>
    rd_of_regs ((closeWin_frame (F := [.sec]) (OnlyChanges.refl _ t) (by decide)).same .regs (by decide)) a
  rw [functionReset_eq, hclose, rd_modPort]
  split
  · rename_i hup
    rcases h with h | h
    · exact rd_wrField_other s h
    · simp [h] at hup
  · rfl
theorem winOfPort_functionReset {p : Port} (h : s.sec.depot = false) : winOfPort (functionReset s p) p = .closed := by
  rw [functionReset_eq]
  refine winOfPort_closeWin ?_
  rw [modPort_sec]
  split
  · rw [wrField_sec, h]
  · exact h

theorem flr_up {p : Port} (hp : portPresent s p = true) (hl : (getPort s p).linkUp = true) (hc : s.chip.held = false) :
    flr s p = drainStart (wrField (functionReset s p) (hfe p 0x18) 15 0 0) p .flr := by
  simp only [flr, hp, hl, hc, Bool.not_true, Bool.or_self, Bool.false_eq_true, if_false]

/-- A reset of the function that takes the link down. -/
def linkReset (s : State) (p : Port) (ltssm : Nat) : State :=
  drainStart (wrField (functionReset (dropLink s p ltssm) p) (hfe p 0x18) 15 0 0) p .link

theorem dropLink_up {p : Port} (h : (getPort s p).linkUp = true) (ltssm : Nat) :
    dropLink s p ltssm = hfeRaise (modPort (wr s (hfe p 0x10) (ltssm * 2 ^ 20)) p fun x => { x with linkUp := false }) p 73 := by
  simp only [dropLink, h, Bool.not_true, Bool.false_eq_true, if_false]

theorem raised_of_rd {t : State} {n : Nat} (h : rd t (Reg.srcPend (n / 32)) = rd s (Reg.srcPend (n / 32))) : raised t n = raised s n := by
  rw [raised, raised, h]
theorem ne_srcPend {a n : Nat} (hn : n < 256) (ha : signalReg a = false) : Reg.srcPend (n / 32) ≠ a := fun e => by
  rw [← e, signalReg_srcPend hn] at ha
  cases ha

/-- What such a reset leaves: the function disabled and draining, the link down with no rate and no width, and source 73. -/
theorem linkReset_down {p : Port} (h : Claims.Drained s) (hl : (getPort s p).linkUp = true) (hc : s.chip.held = false) {ltssm : Nat}
    (hs : ltssm < 16) : (getPort (linkReset s p ltssm) p).en = false ∧ (getPort (linkReset s p ltssm) p).linkUp = false ∧
      (getPort (linkReset s p ltssm) p).perst = (getPort s p).perst ∧ (getPort (linkReset s p ltssm) p).drain = some .link ∧
      rdField (linkReset s p ltssm) (hfe p 0x10) 2 0 = 0 ∧ rdField (linkReset s p ltssm) (hfe p 0x10) 11 8 = 0 ∧
      raised (linkReset s p ltssm) (73 + 8 * p.num) = true := by
  have hdrop := dropLink_up hl ltssm
  have hdown : (getPort (dropLink s p ltssm) p).linkUp = false := by simp [hdrop]
  have honly := functionReset_only (dropLink s p ltssm) p
  have hdrained : Claims.Drained (wrField (functionReset (dropLink s p ltssm) p) (hfe p 0x18) 15 0 0) := by
    refine drained_of_same h ?_ ?_
    · rw [wrField_srt, honly.same .srt (by decide), hdrop]
      simp
    · rw [wrField_flash, honly.same .flash (by decide), hdrop]
      simp
  have hport : getPort (linkReset s p ltssm) p = portDrained .link (portReset (getPort (dropLink s p ltssm) p)) := by
    rw [linkReset, getPort_drainStart hdrained, getPort_wrField, getPort_functionReset]
  have hrd : ∀ a, a ≠ Reg.sts .srt → a ≠ hfe p 0x18 → rd (linkReset s p ltssm) a = rd (dropLink s p ltssm) a := fun a h1 h2 => by
    rw [linkReset, rd_drainStart hdrained p _ h1, rd_wrField_other _ h2, rd_functionReset (.inr hdown)]
  have hlink : rd (linkReset s p ltssm) (hfe p 0x10) = ltssm * 2 ^ 20 := by
    rw [hrd _ (hfe_ne_sts_srt p (by decide)) (hfe_ne_hfe p (by decide)), hdrop, rd_hfeRaise p _ (signalReg_hfe p (by decide)), rd_modPort,
      rd_wr_same]
    exact Nat.mod_eq_of_lt (by omega)
  have hnum := port_num_le p
  have hfields : bitsOf (ltssm * 2 ^ 20) 2 0 = 0 ∧ bitsOf (ltssm * 2 ^ 20) 11 8 = 0 := by
    simp only [bitsOf]
    omega
  refine ⟨by rw [hport]; rfl, by rw [hport]; exact hdown, ?_, by rw [hport]; rfl, by rw [rdField, hlink, hfields.1],
    by rw [rdField, hlink, hfields.2], ?_⟩
  · rw [hport]
    simp [portDrained, portReset, hdrop]
  · have hn : 73 + 8 * p.num < 248 := by omega
    rw [raised_of_rd (hrd _ (ne_srcPend (by omega) (signalReg_sts .srt 0)) (ne_srcPend (by omega) (signalReg_hfe p (by decide)))), hdrop]
    exact raised_raise hn (by omega) (by simpa using hc)

/-! ## Link up (R69 to R71) -/

/-- HFE_LINK of a link that is up, from whether it is degraded and in FLIT mode (Table 3-13). -/
def linkWord (deg flit : Bool) (width rate : Nat) : Nat :=
  (if deg then 2 ^ 31 else 0) + 3 * 2 ^ 20 + (if flit then 2 ^ 17 else 0) + 2 ^ 16 + width * 2 ^ 8 + rate

theorem linkWord_fields {deg flit : Bool} {width rate : Nat} (hr : rate < 8) (hw : width < 16) :
    bitsOf (linkWord deg flit width rate) 2 0 = rate ∧ bitsOf (linkWord deg flit width rate) 11 8 = width := by
  simp only [bitsOf, linkWord]
  split <;> split <;> omega

/-- The port as the link comes up: what it offered is sent, HFE_LINK is written, and source 73 raised. -/
def linkBegun (s : State) (p : Port) (w : Nat) : State :=
  hfeRaise (modPort (wr (emit s (linkOffer s p)) (hfe p 0x10) w) p fun y => { y with linkUp := true }) p 73

theorem getPort_linkBegun (s : State) (p : Port) (w : Nat) : (getPort (linkBegun s p w) p).linkUp = true := by simp [linkBegun]
theorem rd_linkBegun (s : State) (p : Port) (w : Nat) : rd (linkBegun s p w) (hfe p 0x10) = w % 2 ^ 64 := by
  rw [linkBegun, rd_hfeRaise p _ (signalReg_hfe p (by decide)), rd_modPort, rd_wr_same]
theorem linkBegun_out (s : State) (p : Port) (w : Nat) : ∃ l, (linkBegun s p w).out = s.out ++ linkOffer s p :: l := by
  obtain ⟨l, hl⟩ := raise_out (modPort (wr (emit s (linkOffer s p)) (hfe p 0x10) w) p fun y => { y with linkUp := true }) (73 + 8 * p.num)
  exact ⟨l, hl.trans (by simp)⟩

/-- A port trains to a rate and width that it supports; a degraded link raises source 74 beside. -/
theorem linkTrained_up {p : Port} {rate width : Nat} (hp : portPresent s p = true) (hperst : (getPort s p).perst = false)
    (hl : (getPort s p).linkUp = false) (ht : (getPort s p).trainEn = true) (hc : s.chip.held = false)
    (ha : active s (portBlk p) = true) (h1 : 1 ≤ rate) (hr : rate ≤ rdField s (hfe p 0x14) 2 0)
    (hw : width = 1 ∨ width = 2 ∨ width = 4 ∨ (width = 8 ∧ hostX8 s = true)) (flit : Bool) :
    ∃ deg f, linkTrained s p rate width flit = linkBegun s p (linkWord deg f width rate) ∨
      linkTrained s p rate width flit = hfeRaise (linkBegun s p (linkWord deg f width rate)) p 74 := by
  have h0 : ¬ rate = 0 := by omega
  have hmax : ¬ rdField s (hfe p 0x14) 2 0 < rate := by omega
  have hwidth : ([1, 2, 4] ++ if fullWidth s = 8 then [8] else []).contains width = true := by
    rcases hw with rfl | rfl | rfl | ⟨rfl, hx⟩
    · simp
    · simp
    · simp
    · simp [fullWidth, hx]
  unfold linkTrained
  dsimp only
  rw [if_neg (by simp only [hp, hperst, hl, ht, hc, ha, h0, hmax, hwidth, Bool.not_true, Bool.or_self, decide_false, Bool.false_eq_true,
    not_false_eq_true])]
  exact ⟨_, _, (ite_eq_or_eq _ _ _).symm⟩

end Sys2Proof.Machine

namespace Sys2Proof.Proofs
open Sys2Proof.Machine

theorem ccEnSet : Claims.ccEnSet := by
  intro s p cc aqa h hen hd
  refine completes_eq rfl (enableController_off h hen hd cc aqa) ?_
  obtain ⟨r, f, c, hport, hcfs, hrdy⟩ := getPort_portReady (setPort s p (portEnabled (getPort s p) cc aqa)) p
  rw [getPort_setPort] at hport hcfs hrdy
  simp only [getPort_hfeRaise_en, getPort_hfeRaise_ams, getPort_hfeRaise_mps, getPort_hfeRaise_sqs, getPort_hfeRaise_cqs,
    getPort_hfeRaise_rdy, getPort_hfeRaise_cfs, hport]
  refine ⟨rfl, rfl, rfl, nget_nset_same .., nget_nset_same .., fun ha hm hmap => ?_, fun hbad => ?_⟩
  · exact hrdy rfl (by simp [portEnabled, ccOk, ha, hm]) hd (by simpa using hmap)
  · refine hcfs ?_
    simp only [portEnabled, ccOk, Bool.not_eq_true', Bool.and_eq_false_iff, decide_eq_false_iff_not]
    omega

theorem ccEnClear : Claims.ccEnClear := by
  intro s p h hen hdrained
  refine completes_eq rfl (disableController_on h hen) ?_
  have hd : Claims.Drained (hfeRaise (setPort s p { getPort s p with en := false }) p 76) :=
    drained_of_same hdrained (by simp) (by simp)
  rw [getPort_drainStart hd]
  simp [portDrained]

theorem ccEnClearDrops : Claims.ccEnClearDrops := by
  intro s p id c h hen hcmds hops hp hw hd hpins _ _
  exact completes_eq rfl (disableController_on h hen)
    (drainStart_drops (c := c) (by simpa using hcmds) (by simpa using hops) hp hw hd hpins _)

theorem shutdownNormal : Claims.shutdownNormal := by
  intro s p h hen hd hs
  have hleft : drainLeft (shutdownBegun s p) p = 0 ↔ drainLeft s p = 0 ∧ ∀ e ∈ (getPort s p).cqs, e.2.held = [] :=
    drainLeft_shutdown (by simp [shutdownBegun]) (by simp [shutdownBegun]) (by simp [shutdownBegun]) (by simp [shutdownBegun]) hd
      (by simp [shutdownBegun])
  refine completes_eq rfl (shutdownOrderly_begins h hen hd hs) ?_
  simp only [hleft]
  split
  · rename_i h0
    rw [drainEnd_over (k := .shutdown) (by simp [shutdownBegun]) (hleft.mpr h0)]
    exact ⟨by simp [shutDown, drainOver, shutdownBegun, hen], (shutDown_ends _ p).shst⟩
  · simp [shutdownBegun, hen]

theorem shutdownAbrupt : Claims.shutdownAbrupt := by
  intro s p h hen hd hs hdrained
  refine completes_eq rfl (shutdownAtOnce_begins h hen hd hs) ?_
  have hd : Claims.Drained (hfeRaise (setPort s p { getPort s p with shst := 1, shn := 2 }) p 76) :=
    drained_of_same hdrained (by simp) (by simp)
  rw [getPort_drainStart hd]
  simp [portDrained]

theorem functionLevelReset : Claims.functionLevelReset := by
  intro s p hp hl hc hdrained
  refine completes_eq rfl (flr_up hp hl hc) ?_
  have honly := functionReset_only s p
  have hd : Claims.Drained (wrField (functionReset s p) (hfe p 0x18) 15 0 0) :=
    drained_of_same hdrained (by rw [wrField_srt, honly.same .srt (by decide)]) (by rw [wrField_flash, honly.same .flash (by decide)])
  rw [getPort_drainStart hd, getPort_wrField, getPort_functionReset, winOfPort_drainStart hd]
  refine ⟨rfl, rfl, rfl, rfl, fun hdepot => ?_⟩
  rw [← winOfPort_functionReset (p := p) hdepot]
  cases p <;> rfl

theorem hotResetOrPerst : Claims.hotResetOrPerst := by
  intro s p perst hp hl hperst hc hdrained
  have hstep : conventionalReset s p perst =
      linkReset (modPort s p fun y => { y with perst := y.perst || perst }) p (if perst then 0 else 8) := by
    have hnone : (!portPresent s p || (!perst && !(getPort s p).linkUp) || (perst && (getPort s p).perst)) = false := by
      simp [hp, hl, hperst]
    simp only [conventionalReset, hnone, modPort_chip, hc, Bool.false_eq_true, if_false, linkReset]
  refine completes_eq rfl hstep ?_
  have hd : Claims.Drained (modPort s p fun y => { y with perst := y.perst || perst }) := drained_of_same hdrained (by simp) (by simp)
  obtain ⟨h1, h2, h3, h4, h5, h6, -⟩ := linkReset_down (p := p) hd (by simpa using hl) (by simpa using hc)
    (ltssm := if perst then 0 else 8) (by split <;> decide)
  exact ⟨h1, h2, h3.trans (by simp [hperst]), h4, h5, h6⟩

theorem linkDown : Claims.linkDown := by
  intro s p hp hl hc hdrained
  have hstep : linkLost s p = linkReset s p 0 := by
    simp only [linkLost, hp, hl, hc, Bool.not_true, Bool.or_self, Bool.false_eq_true, if_false, linkReset]
  obtain ⟨h1, h2, -, h4, h5, -, h7⟩ := linkReset_down (p := p) hdrained hl hc (ltssm := 0) (by decide)
  exact completes_eq rfl hstep ⟨h1, h2, h4, h5, h7⟩

theorem linkUp : Claims.linkUp := by
  intro s p rate width flit hp hperst hl ht hc ha h1 hr hw
  have hrate : rate < 8 := Nat.lt_of_le_of_lt hr (bitsOf_lt _ 2 0)
  have hwidth : width < 16 := by omega
  obtain ⟨deg, f, hstep⟩ := linkTrained_up hp hperst hl ht hc ha h1 hr hw flit
  obtain ⟨hf1, hf2⟩ := linkWord_fields (deg := deg) (flit := f) hrate hwidth
  obtain ⟨l, hl⟩ := linkBegun_out s p (linkWord deg f width rate)
  have hrd := rd_linkBegun s p (linkWord deg f width rate)
  have hup := getPort_linkBegun s p (linkWord deg f width rate)
  have hfield : ∀ t hi lo, hi < 64 → rd t (hfe p 0x10) = linkWord deg f width rate % 2 ^ 64 →
      rdField t (hfe p 0x10) hi lo = bitsOf (linkWord deg f width rate) hi lo := fun t hi lo h64 e => by
    rw [rdField, e, bitsOf_mod64 _ _ _ h64]
  rcases hstep with hstep | hstep
  · refine completes_eq rfl hstep ⟨hup, ?_, ?_, l, hl⟩
    · rw [hfield _ _ _ (by decide) hrd, hf1]
    · rw [hfield _ _ _ (by decide) hrd, hf2]
  · obtain ⟨m, hm⟩ := raise_out (linkBegun s p (linkWord deg f width rate)) (74 + 8 * p.num)
    rw [← rd_hfeRaise p 74 (signalReg_hfe p (by decide))] at hrd
    refine completes_eq rfl hstep ⟨by simpa using hup, ?_, ?_, l ++ m, hm.trans (by rw [hl, List.append_assoc, List.cons_append])⟩
    · rw [hfield _ _ _ (by decide) hrd, hf1]
    · rw [hfield _ _ _ (by decide) hrd, hf2]

/-- What is to hold of a port whose drain of a kind has ended. -/
def DrainEnds (k : DrainKind) (x : PortSt) : Prop :=
  x.drain = none ∧ x.fetching = false ∧
  ((k = .shutdown ∨ k = .abruptShutdown) → x.shst = 2 ∧ (∀ e ∈ x.sqs, e.1 = 0) ∧ ∀ e ∈ x.cqs, e.1 = 0) ∧
  ((k = .reset ∨ k = .flr ∨ k = .link) → x.rdy = false ∧ x.sqs = [] ∧ x.cqs = [])

theorem drainEnds_of_shutDown {x : PortSt} {k : DrainKind} (h : ShutDown x) (hk : k = .shutdown ∨ k = .abruptShutdown) : DrainEnds k x := by
  obtain ⟨h1, h2, h3, h4, h5⟩ := h
  exact ⟨h1, h2, fun _ => ⟨h3, h4, h5⟩, fun hr => by rcases hk with rfl | rfl <;> simp at hr⟩
theorem drainEnds_of_cleared {x : PortSt} {k : DrainKind} (h : Cleared x) (hk : k = .reset ∨ k = .flr ∨ k = .link) : DrainEnds k x := by
  obtain ⟨h1, h2, h3, h4, h5⟩ := h
  exact ⟨h1, h2, fun hs => by rcases hk with rfl | rfl | rfl <;> simp at hs, fun _ => ⟨h3, h4, h5⟩⟩

theorem drainComplete : Claims.drainComplete := by
  intro s p k hd h0
  refine completes_eq rfl (drainEnd_over hd h0) ?_
  show DrainEnds k _
  cases k with
  | shutdown => exact drainEnds_of_shutDown (shutDown_ends s p) (.inl rfl)
  | abruptShutdown => exact drainEnds_of_shutDown ((shutDown_ends s p).raise 75) (.inr rfl)
  | reset => exact drainEnds_of_cleared (controllerCleared_ends s p 75) (.inl rfl)
  | flr => exact drainEnds_of_cleared (controllerCleared_ends s p 75) (.inr (.inl rfl))
  | link => exact drainEnds_of_cleared (controllerCleared_ends s p 75) (.inr (.inr rfl))

/-- Settles O33, event by event. -/
theorem controllerEvents : Obligations.ControllerEvents :=
  ⟨ccEnSet, ccEnClear, ccEnClearDrops, shutdownNormal, shutdownAbrupt, functionLevelReset, hotResetOrPerst, linkDown, linkUp, drainComplete⟩

end Sys2Proof.Proofs
end
section
/-! PROOFS. What a host's link and messages do: latencies (R74), configuration space (R73, R97), MSI-X messages and their coalescing
(R65, R82), and errors of the link (R98, R113). Settles O34. -/

namespace Sys2Proof.Machine

variable {s : State}

/-! ## MSI-X messages (R65, R82) -/

/-- A message leaves the counts of the coalesced interrupts. -/
theorem getPort_msixSend_coal (s : State) (p : Port) (v : Nat) (r : Port) : (getPort (msixSend s p v) r).coal = (getPort s r).coal := by
  have h := congrArg PortSt.coal (portCore_msixSend s p v r)
  exact h

/-- A message that is sent clears its vector's pending bit. -/
theorem msixSend_sent_entry {p : Port} {v : Nat} (h : msixOn (getPort s p) = true)
    (hm : ¬ ((ngetD (getPort s p).msix v {}).mask = true ∨ msixFnMask (getPort s p) = true)) :
    nget (getPort (msixSend s p v) p).msix v = some { ngetD (getPort s p).msix v {} with pba := false } := by
  have hno : ((ngetD (getPort s p).msix v {}).mask || msixFnMask (getPort s p)) = false := by simpa using hm
  simp [msixSend, h, hno]

/-- A port one of whose MSI-X entries is replaced. -/
def vectorSet (s : State) (p : Port) (v : Nat) (e : MsixVec) : State :=
  setPort s p { getPort s p with msix := nset (getPort s p).msix v e }

theorem getPort_vectorSet (s : State) (p : Port) (v : Nat) (e : MsixVec) :
    getPort (vectorSet s p v e) p = { getPort s p with msix := nset (getPort s p).msix v e } := getPort_setPort ..
theorem ngetD_vectorSet (s : State) (p : Port) (v : Nat) (e : MsixVec) :
    ngetD (getPort (vectorSet s p v e) p).msix v {} = e := by
  rw [getPort_vectorSet]
  exact ngetD_nset_same ..
theorem vectorSet_out (s : State) (p : Port) (v : Nat) (e : MsixVec) : (vectorSet s p v e).out = s.out := setPort_out ..
theorem msixOn_vectorSet (s : State) (p : Port) (v : Nat) (e : MsixVec) :
    msixOn (getPort (vectorSet s p v e) p) = msixOn (getPort s p) := by
  rw [getPort_vectorSet]
  rfl
theorem msixFnMask_vectorSet (s : State) (p : Port) (v : Nat) (e : MsixVec) :
    msixFnMask (getPort (vectorSet s p v e) p) = msixFnMask (getPort s p) := by
  rw [getPort_vectorSet]
  rfl

theorem msixWrite_entry {p : Port} {v : Nat} (hp : portPresent s p = true) (hd : (getPort s p).d3hot = false) (hv : v < 130)
    (mask : Bool) (addr data : Nat) : msixWrite s p v mask addr data =
      msixFlush (vectorSet s p v { ngetD (getPort s p).msix v {} with mask, addr, data }) p v := by
  have hlow : ¬ 130 ≤ v := by omega
  simp only [msixWrite, hp, hd, hlow, decide_false, Bool.not_true, Bool.or_self, Bool.false_eq_true, if_false, vectorSet]

/-- What decides on a message of the vector whose entry is replaced. -/
theorem masked_vectorSet (s : State) (p : Port) (v : Nat) (e : MsixVec) :
    ((ngetD (getPort (vectorSet s p v e) p).msix v {}).mask = true ∨ msixFnMask (getPort (vectorSet s p v e) p) = true) ↔
      (e.mask = true ∨ msixFnMask (getPort s p) = true) := by rw [ngetD_vectorSet, msixFnMask_vectorSet]

theorem msixFlush_idle {e : MsixVec} (h : e.pba = false) (p : Port) (v : Nat) :
    msixFlush (vectorSet s p v e) p v = vectorSet s p v e := by
  unfold msixFlush
  rw [ngetD_vectorSet, h]
  exact if_neg Bool.false_ne_true
theorem msixFlush_pending {e : MsixVec} (h : e.pba = true) (p : Port) (v : Nat) :
    msixFlush (vectorSet s p v e) p v = msixSend (vectorSet s p v e) p v := by
  unfold msixFlush
  rw [ngetD_vectorSet, h]
  exact if_pos rfl

/-- A replaced entry whose message stays as it is: none is pending, or one stays pending. -/
theorem vectorSet_stays (s : State) (p : Port) (v : Nat) (e : MsixVec)
    (h : e.pba = true → e.mask = true ∨ msixFnMask (getPort s p) = true ∨ msixOn (getPort s p) = false) :
    some e = some { e with pba := e.pba && (e.mask || msixFnMask (getPort s p) || !msixOn (getPort s p)) } ∧
      s.out = if e.pba = true ∧ e.mask = false ∧ msixFnMask (getPort s p) = false ∧ msixOn (getPort s p) = true
        then s.out ++ [.msix p v e.addr e.data] else s.out := by
  have hpba : (e.pba && (e.mask || msixFnMask (getPort s p) || !msixOn (getPort s p))) = e.pba := by
    rw [Bool.and_eq_left_iff_imp]
    simpa [or_assoc] using h
  have hnot : ¬ (e.pba = true ∧ e.mask = false ∧ msixFnMask (getPort s p) = false ∧ msixOn (getPort s p) = true) := by
    rintro ⟨h1, h2, h3, h4⟩
    simpa [h2, h3, h4] using h h1
  rw [hpba, if_neg hnot]
  exact ⟨rfl, rfl⟩

/-- What becomes of an entry and of its message when it is written: a pending message is sent where nothing masks it, and stays
pending elsewhere. -/
theorem msixFlush_vectorSet (s : State) (p : Port) (v : Nat) (e : MsixVec) :
    nget (getPort (msixFlush (vectorSet s p v e) p v) p).msix v =
        some { e with pba := e.pba && (e.mask || msixFnMask (getPort s p) || !msixOn (getPort s p)) } ∧
      (msixFlush (vectorSet s p v e) p v).out =
        if e.pba = true ∧ e.mask = false ∧ msixFnMask (getPort s p) = false ∧ msixOn (getPort s p) = true
          then s.out ++ [.msix p v e.addr e.data] else s.out := by
  have hentry : nget (getPort (vectorSet s p v e) p).msix v = some e := by
    rw [getPort_vectorSet]
    exact nget_nset_same ..
  by_cases hpba : e.pba = true
  · rw [msixFlush_pending hpba]
    by_cases hon : msixOn (getPort s p) = true
    · have hon' := (msixOn_vectorSet s p v e).trans hon
      by_cases hm : e.mask = true ∨ msixFnMask (getPort s p) = true
      · have hsame : { e with pba := true } = e := by rw [← hpba]
        rw [msixSend_masked hon' ((masked_vectorSet s p v e).mpr hm), getPort_setPort, setPort_out, ngetD_vectorSet, vectorSet_out, hsame]
        simpa only [nget_nset_same] using vectorSet_stays s p v e fun _ => hm.imp_right .inl
      · have hm' := mt (masked_vectorSet s p v e).mp hm
        obtain ⟨hmask, hfn⟩ : e.mask = false ∧ msixFnMask (getPort s p) = false := by simpa using hm
        rw [msixSend_sent_entry hon' hm', msixSend_sent hon' hm', ngetD_vectorSet, vectorSet_out, if_pos ⟨hpba, hmask, hfn, hon⟩]
        exact ⟨by simp [hmask, hfn, hon], rfl⟩
    · have hoff : msixOn (getPort s p) = false := by simpa using hon
      rw [msixSend_off v ((msixOn_vectorSet s p v e).trans hoff), hentry, vectorSet_out]
      exact vectorSet_stays s p v e fun _ => .inr (.inr hoff)
  · rw [msixFlush_idle (by simpa using hpba), hentry, vectorSet_out]
    exact vectorSet_stays s p v e fun h => absurd h hpba

/-- A port whose count of coalesced interrupts of a vector is set. -/
def coalSet (s : State) (p : Port) (v n : Nat) : State := setPort s p { getPort s p with coal := nset (getPort s p).coal v n }

theorem getPort_coalSet (s : State) (p : Port) (v n : Nat) :
    getPort (coalSet s p v n) p = { getPort s p with coal := nset (getPort s p).coal v n } := getPort_setPort ..
theorem coalSet_out (s : State) (p : Port) (v n : Nat) : (coalSet s p v n).out = s.out := setPort_out ..
theorem ngetD_coalSet (s : State) (p : Port) (v n : Nat) : ngetD (getPort (coalSet s p v n) p).coal v 0 = n := by
  rw [getPort_coalSet]
  exact ngetD_nset_same ..

/-- A count of coalesced interrupts that restarts sends the vector's message, where nothing masks it. -/
theorem ngetD_msixSend_coalSet (s : State) (p : Port) (v n : Nat) :
    ngetD (getPort (msixSend (coalSet s p v n) p v) p).coal v 0 = n := by rw [getPort_msixSend_coal, ngetD_coalSet]
theorem msixSend_coalSet_out {p : Port} {v : Nat} (hm : (ngetD (getPort s p).msix v {}).mask = false) (hon : msixOn (getPort s p) = true)
    (hf : msixFnMask (getPort s p) = false) (n : Nat) : (msixSend (coalSet s p v n) p v).out =
      s.out ++ [.msix p v (ngetD (getPort s p).msix v {}).addr (ngetD (getPort s p).msix v {}).data] := by
  have hport := getPort_coalSet s p v n
  rw [msixSend_sent (by rw [hport]; exact hon) (by rw [hport]; simp [hm]; exact hf), coalSet_out, hport]

/-- The interrupt of a completion whose vector coalesces (R82). -/
theorem cqInterrupt_coalesced {p : Port} {cqid thr : Nat} {q : Cq} (hien : q.ien = true)
    (ht : coalThr (getPort s p) cqid q.vector = some thr) : cqInterrupt s p cqid q =
      if thr < ngetD (getPort s p).coal q.vector 0 + 1 then msixSend (coalSet s p q.vector 0) p q.vector
      else coalSet s p q.vector (ngetD (getPort s p).coal q.vector 0 + 1) := by
  simp only [cqInterrupt, hien, ht, Bool.not_true, Bool.false_eq_true, if_false]
  split <;> rfl

/-! ## Configuration space (R57, R73, R74, R97) -/

section
variable {p : Port} (hp : portPresent s p = true) (hl : (getPort s p).linkUp = true) (hc : s.chip.held = false)
include hp hl hc

/-- Before configuration space is loaded every request is answered with Retry Status. -/
theorem configAccess_retry (hr : (getPort s p).cfgReady = false) (w : CfgReq) : configAccess s p w = emit s (.configReply p none) := by
  simp only [configAccess, hp, hl, hc, hr, Bool.not_true, Bool.not_false, Bool.or_self, Bool.false_eq_true, if_false, if_true]

variable (hr : (getPort s p).cfgReady = true)
include hr

theorem configAccess_read {off v : Nat} (hv : cfgRead s p off = some v) :
    configAccess s p (.read off) = emit s (.configReply p (some v)) := by
  simp only [configAccess, hp, hl, hc, hr, Bool.not_true, Bool.or_self, Bool.false_eq_true, if_false, hv]
theorem configAccess_write (off v : Nat) :
    configAccess s p (.write off v) = configWrite (emit s (.configReply p (some 0))) p off v := by
  simp only [configAccess, hp, hl, hc, hr, Bool.not_true, Bool.or_self, Bool.false_eq_true, if_false]
theorem configAccess_dState (hot : Bool) : ∃ t, configAccess s p (.dState hot) = dState t p hot := by
  simp only [configAccess, hp, hl, hc, hr, Bool.not_true, Bool.or_self, Bool.false_eq_true, if_false]
  exact ⟨_, rfl⟩
theorem configAccess_ltrMax (snoop noSnoop : Nat) :
    configAccess s p (.ltrMax snoop noSnoop) = ltrMaxSet (emit s (.configReply p (some 0))) p (min snoop noSnoop) := by
  simp only [configAccess, hp, hl, hc, hr, Bool.not_true, Bool.or_self, Bool.false_eq_true, if_false]
end

/-- The state of a function, and of its link, as D3hot is entered or left (R73; log entry 151). -/
theorem dState_port (s : State) (p : Port) (hot : Bool) : getPort (dState s p hot) p = { getPort s p with d3hot := hot } := by
  simp only [dState, getPort_wrField, getPort_setPort]
theorem dState_link (s : State) (p : Port) (hot : Bool) : rdField (dState s p hot) (hfe p 0x10) 23 20 = if hot then 5 else 3 := by
  unfold dState
  dsimp only
  rw [rdField_wrField_other _ _ _ _ _ _ _ (by decide) (.inr (by decide)), rdField_wrField _ _ _ _ _ (by decide)]
  cases hot <;> rfl

theorem ltrMaxSet_host (s : State) (p : Port) (m : Nat) : (getPort (ltrMaxSet s p m) p).ltrHost = some m := by
  unfold ltrMaxSet
  split
  · assumption
  · simp

/-- A word with a rate and a width above its lower half, and two flags above these (Link Status). -/
theorem linkStatus_fields {c r w : Nat} (hc : c < 2 ^ 16) (hr : r < 2 ^ 3) (hw : w < 2 ^ 4) {f g : Prop} [Decidable f] [Decidable g] :
    bitsOf (c + r * 2 ^ 16 + w * 2 ^ 20 + (if f then 2 ^ 28 else 0) + (if g then 2 ^ 29 else 0)) 18 16 = r ∧
      bitsOf (c + r * 2 ^ 16 + w * 2 ^ 20 + (if f then 2 ^ 28 else 0) + (if g then 2 ^ 29 else 0)) 23 20 = w := by
  simp only [bitsOf]
  split <;> split <;> omega

/-- Link Status: the rate and the width of the link above the dword as it was written. -/
theorem cfgRead_linkStatus (s : State) (p : Port) (h : cfgDword (getPort s p) 0x70 < 2 ^ 16) :
    ∃ v, cfgRead s p 0x70 = some v ∧ bitsOf v 18 16 = rdField s (hfe p 0x10) 2 0 ∧ bitsOf v 23 20 = rdField s (hfe p 0x10) 11 8 := by
  exact ⟨_, rfl, linkStatus_fields h (bitsOf_lt _ 2 0) (bitsOf_lt _ 11 8)⟩

/-- BAR2's lower dword: its address bits are bits [31:24]. -/
theorem barAddress (b : Nat) (h : b < 256) : (b * 2 ^ 24 + 4) &&& 0xFF000000 = b * 2 ^ 24 := by
  have hor : b * 2 ^ 24 + 4 = b <<< 24 ||| 4 := by
    rw [← Nat.shiftLeft_eq]
    exact Nat.shiftLeft_add_eq_or_of_lt (by decide) b
  have hmask : 0xFF000000 = (2 ^ 8 - 1) <<< 24 := rfl
  have hlow : 4 &&& (2 ^ 8 - 1) <<< 24 = 0 := rfl
  rw [hor, hmask, Nat.and_or_distrib_right, hlow, Nat.or_zero, ← Nat.shiftLeft_and_distrib, Nat.and_two_pow_sub_one_eq_mod,
    Nat.mod_eq_of_lt h, Nat.shiftLeft_eq]

/-- A write of all ones to it sets the address bits, and leaves those that say what BAR it is. -/
theorem configWrite_bar {p : Port} {b : Nat} (hb : b < 256) (h : cfgDword (getPort s p) 0x18 = b * 2 ^ 24 + 4) :
    configWrite s p 0x18 0xFFFFFFFF = modPort s p fun x => { x with cfgSpace := nset x.cfgSpace 0x18 0xFF000004 } := by
  have hstep : configWrite s p 0x18 0xFFFFFFFF = modPort s p fun x => { x with
      cfgSpace := nset x.cfgSpace 0x18
        (cfgDword (getPort s p) 0x18 - (cfgDword (getPort s p) 0x18 &&& 0xFF000000) + 0xFF000000) } := rfl
  rw [hstep, h, barAddress b hb, Nat.add_sub_cancel_left]

/-! ## Errors of the link (R98, R113) -/

/-- AER's registers are in configuration space: the queues of every port stay. -/
theorem getPort_aerLog (s : State) (p r : Port) : ∃ m, getPort (aerLog s p) r = { getPort s r with cfgSpace := m } := by
  have hfresh : ∀ n, getPort (freshBelow s n).1 r = getPort s r := fun n => by cases r <;> rfl
  by_cases hr : r = p
  · subst hr
    unfold aerLog
    dsimp only
    rw [getPort_modPort, hfresh]
    split
    · exact ⟨_, rfl⟩
    · exact ⟨_, rfl⟩
  · refine ⟨(getPort s r).cfgSpace, ?_⟩
    unfold aerLog
    dsimp only
    rw [getPort_modPort_other _ _ hr, hfresh]
theorem aerLog_only (s : State) (p : Port) : OnlyChanges [.clk, .portA, .portB] s (aerLog s p) :=
  aerLog_frame (OnlyChanges.refl _ s) (by decide) (by decide) (by decide)

/-- The state once an error is logged and source 77, or 85 at port B, raised. -/
def linkError (s : State) (p : Port) : State := hfeRaise (aerLog s p) p 77

theorem linkError_srt (s : State) (p : Port) : (linkError s p).srt = s.srt := by
  rw [linkError, hfeRaise_srt, (aerLog_only s p).same .srt (by decide)]
theorem linkError_out (s : State) (p : Port) : ∃ l, (linkError s p).out = s.out ++ l := by
  rw [← (aerLog_only s p).same .out (by decide)]
  exact raise_out _ _
theorem linkError_sqs (s : State) (p r : Port) : (getPort (linkError s p) r).sqs = (getPort s r).sqs := by
  obtain ⟨m, hm⟩ := getPort_aerLog s p r
  rw [linkError, getPort_hfeRaise_sqs, hm]
theorem linkError_cqs (s : State) (p r : Port) : (getPort (linkError s p) r).cqs = (getPort s r).cqs := by
  obtain ⟨m, hm⟩ := getPort_aerLog s p r
  rw [linkError, getPort_hfeRaise_cqs, hm]
theorem cqReady_linkError (s : State) (p : Port) (q : Sqe) : cqReady (linkError s p) q = cqReady s q := by
  simp only [cqReady, linkError_sqs, linkError_cqs]

theorem linkError_raised {p : Port} (hc : s.chip.held = false) : raised (linkError s p) (77 + 8 * p.num) = true := by
  have hnum := port_num_le p
  refine raised_raise (by omega) (by omega) ?_
  rw [(aerLog_only s p).same .chip (by decide), hc]
theorem linkError_only (s : State) (p : Port) : OnlyChanges [.clk, .evr, .out, .portA, .portB, .regs] s (linkError s p) :=
  hfeRaise_frame (aerLog_frame (OnlyChanges.refl _ s) (by decide) (by decide) (by decide)) (by decide) (by decide) (by decide)
    (by decide) (by decide)

theorem pcieError_none {p : Port} (hp : portPresent s p = true) (hc : s.chip.held = false) : pcieError s p none = linkError s p := by
  simp [pcieError, hp, hc, linkError]
theorem pcieError_transfer {p : Port} {id : Nat} {c : Cmd} (hp : portPresent s p = true) (hc : s.chip.held = false)
    (hcmd : getCmd s id = some c) (hport : c.q.port = p) (hr : isReading c.body = true) (hst : c.status = none) :
    ∃ lba, pcieError s p (some id) = failCmd (linkError s p) id stDataTransfer lba := by
  have hget : getCmd (hfeRaise (aerLog s p) p 77) id = some c := (getCmd_of_srt (linkError_srt s p) id).trans hcmd
  simp only [pcieError, hp, hc, hget, hport, hr, hst, linkError, Option.bind_some, Option.map_some, Option.isSome_none,
    bne_self_eq_false, Bool.true_or, Bool.not_true, Bool.or_self, Bool.false_eq_true, if_false]
  exact ⟨_, rfl⟩

end Sys2Proof.Machine

namespace Sys2Proof.Proofs
open Sys2Proof.Machine

theorem ltrSend : Claims.ltrSend := by
  intro s p us hp hl hc hat hus
  have hstep : ltrMessage s p us = emit (wrField (setPort s p { getPort s p with ltrSent := us, ltrAt := some s.clk.tb })
      (hfe p 0x18) 31 16 (min us 0xFFFF)) (.ltr p us) := by
    simp only [ltrMessage, hp, hl, hc, hat, hus, Bool.not_true, Bool.or_self, decide_false, Bool.false_eq_true, if_false]
  refine completes_eq rfl hstep ⟨by simp, by simp, by simp, ?_⟩
  have hfield : ∀ t : State, rdField (emit t (.ltr p us)) (hfe p 0x18) 31 16 = rdField t (hfe p 0x18) 31 16 := fun _ => rfl
  rw [hfield, rdField_wrField _ _ _ _ _ (by decide)]
  exact Nat.mod_eq_of_lt (by omega)

theorem perstNDeassert : Claims.perstNDeassert := by
  intro s p hp hperst
  have hstep : perstOff s p = portEnable (modPort s p fun x => { x with perst := false }) p := by
    simp only [perstOff, hp, hperst, Bool.not_true, Bool.or_self, Bool.false_eq_true, if_false]
  refine completes_eq rfl hstep ?_
  unfold portEnable
  split
  · simp
  · have hblk : ∀ t : State, getPort (enableBlk t (portBlk p)) p = getPort t p := fun t =>
      getPort_of_only (enableBlk_frame (F := [.regs]) (OnlyChanges.refl _ t) (by decide)) (by decide) (by decide) p
    simp [hblk]

theorem configurationRequest : Claims.configurationRequest := by
  intro s p w hp hl hc hr
  exact completes_eq rfl (configAccess_retry hp hl hc hr w) rfl

theorem configurationRequestReady : Claims.configurationRequestReady := by
  intro s p hp hl hc hr
  refine ⟨fun off v hv => completes_eq rfl (configAccess_read hp hl hc hr hv) rfl, fun off h h1 h2 h3 h4 => ?_,
    cfgRead_linkStatus s p, fun hot => ?_, fun sn no => completes_eq rfl (configAccess_ltrMax hp hl hc hr sn no) (ltrMaxSet_host ..)⟩
  · simp only [cfgRead, h1, h2, h3, h4, if_false, h]
  · obtain ⟨t, ht⟩ := configAccess_dState hp hl hc hr hot
    exact completes_eq rfl ht ⟨by rw [dState_port], dState_link t p hot⟩

theorem msixTableWrite : Claims.msixTableWrite := by
  intro s p v mask addr data hp hd hv
  exact completes_eq rfl (msixWrite_entry hp hd hv mask addr data) (msixFlush_vectorSet s p v _)

theorem interruptCoalescingExpiry : Claims.interruptCoalescingExpiry := by
  intro s p v hn hm hon hf
  have hstep : coalExpiry s p v = msixSend (coalSet s p v 0) p v := if_pos hn
  exact completes_eq rfl hstep ⟨msixSend_coalSet_out hm hon hf 0, ngetD_msixSend_coalSet s p v 0⟩

theorem pcieUncorrectableError : Claims.pcieUncorrectableError := by
  intro s p hp hc
  exact completes_eq rfl (pcieError_none hp hc) ⟨linkError_raised hc, linkError_srt s p, linkError_only s p⟩

theorem pcieErrorOfTransfer : Claims.pcieErrorOfTransfer := by
  intro s p id c hp hc hcmds hport hr hst hm hpins hready hplain
  have hcmd : getCmd s id = some c := by simp [getCmd, hcmds, nget]
  have hq : PlainQueue (linkError s p) c.q := PlainQueue.of_sqs (s := s) hplain (linkError_sqs s p _)
  obtain ⟨lba, hstep⟩ := pcieError_transfer hp hc hcmd hport hr hst
  obtain ⟨hans, hempty⟩ := failCmd_answers (by rw [linkError_srt, hcmds]) hm hpins hq (by rwa [cqReady_linkError]) stDataTransfer lba 0
  exact completes_eq rfl hstep ⟨hans.before s (linkError_out s p), hempty⟩

theorem configurationWriteBar : Claims.configurationWriteBar := by
  intro s p b hp hl hc hr hb hbar
  have hstep := (configAccess_write hp hl hc hr 0x18 0xFFFFFFFF).trans
    (configWrite_bar (s := emit s (.configReply p (some 0))) hb (by rwa [getPort_emit]))
  refine completes_eq rfl hstep ⟨?_, fun off hoff => ?_⟩
  · rw [getPort_modPort]
    exact ngetD_nset_same ..
  · rw [getPort_modPort, getPort_emit]
    exact ngetD_nset_other _ _ _ hoff

theorem coalescing : Claims.coalescing := by
  intro s p cqid thr q hien ht
  have hstep := cqInterrupt_coalesced hien ht
  refine ⟨fun hlow => ?_, fun hhigh => ?_⟩
  · rw [hstep, if_neg (by omega)]
    exact ⟨coalSet_out .., ngetD_coalSet ..⟩
  · rw [hstep, if_pos (by omega)]
    exact ⟨ngetD_msixSend_coalSet .., fun hon hf hm => msixSend_coalSet_out hm hon hf 0⟩

/-- Settles O34, event by event. -/
theorem linkAndMessageEvents : Obligations.LinkAndMessageEvents :=
  ⟨ltrSend, perstNDeassert, configurationRequest, configurationRequestReady, msixTableWrite, interruptCoalescingExpiry,
    pcieUncorrectableError, pcieErrorOfTransfer, configurationWriteBar, coalescing⟩

end Sys2Proof.Proofs
end
section
/-! PROOFS. The sorting office's rules: the overlap of commands (R102), the arbitration of a port's queues and of the front ends (R81,
R82), SRT_HWM (Table 4-9), and Abort (R116 to R118). Settles O17 and O26. -/

namespace Sys2Proof.Machine

variable {s : State}

/-! ## Overlap (R102) -/

/-- Two ranges meet where a letter of one namespace lies in both. -/
theorem rangesMeet_iff {a b : Nat × Nat × Nat} : rangesMeet a b = true ↔
    a.1 = b.1 ∧ ∃ l, (a.2.1 ≤ l ∧ l < a.2.1 + a.2.2) ∧ b.2.1 ≤ l ∧ l < b.2.1 + b.2.2 := by
  simp only [rangesMeet, Bool.and_eq_true, beq_iff_eq, decide_eq_true_eq]
  refine and_congr_right fun _ => ⟨fun h => ⟨max a.2.1 b.2.1, ?_⟩, fun ⟨l, h⟩ => ?_⟩ <;> omega

/-! ## The arbitration of a port's queues (R81) -/

/-- A queue that arbitration may pick has an entry, and is neither frozen nor being deleted. -/
theorem mem_eligible {x : PortSt} {adm io : Bool} {k : Nat} : k ∈ eligible x adm io ↔
    (if k = 0 then adm else io) = true ∧ ∃ q, (k, q) ∈ x.sqs ∧ q.head ≠ q.tail ∧ q.frozen = false ∧ q.deleting = none := by
  simp only [eligible, List.mem_map, List.mem_filter, Bool.and_eq_true, bne_iff_ne, Bool.not_eq_true', Option.isNone_iff_eq_none]
  constructor
  · rintro ⟨e, ⟨hmem, ⟨⟨hopen, hentry⟩, hfrozen⟩, hdel⟩, rfl⟩
    exact ⟨hopen, e.2, hmem, hentry, hfrozen, hdel⟩
  · rintro ⟨hopen, q, hmem, hentry, hfrozen, hdel⟩
    exact ⟨(k, q), ⟨hmem, ⟨⟨hopen, hentry⟩, hfrozen⟩, hdel⟩, rfl⟩

theorem roundRobin_mem {last : Option Nat} {qs : List Nat} {q : Nat} (h : roundRobin last qs = some q) : q ∈ qs := by
  cases last with
  | none => exact List.mem_of_mem_head? h
  | some l =>
    cases hf : qs.find? fun q => l < q with
    | some r =>
      rw [roundRobin, hf] at h
      exact Option.some.inj h ▸ List.mem_of_find?_eq_some hf
    | none =>
      rw [roundRobin, hf] at h
      exact List.mem_of_mem_head? h

/-- Weighted round robin gives a new turn to the admin queue first, and then to the urgent class. -/
theorem arbPool_admin {x : PortSt} {qs : List Nat} (ha : x.ams = 1) (h : 0 ∈ qs) : (arbPool x qs).1 = [0] := by simp [arbPool, ha, h]
theorem arbPool_urgent {x : PortSt} {qs : List Nat} (ha : x.ams = 1) (h : 0 ∉ qs) (hu : ∃ u ∈ qs, prioOf x u = 0) :
    (arbPool x qs).1 = qs.filter fun q => prioOf x q == 0 := by
  have hne : (qs.filter fun q => prioOf x q == 0).isEmpty = false := by
    obtain ⟨u, hmem, hprio⟩ := hu
    exact List.isEmpty_eq_false_iff_exists_mem.mpr ⟨u, List.mem_filter.mpr ⟨hmem, beq_iff_eq.mpr hprio⟩⟩
  simp [arbPool, ha, h, hne]

/-- Every pool is drawn from the queues that may be picked. -/
theorem arbPool_subset (x : PortSt) (qs : List Nat) : (arbPool x qs).1 ⊆ qs := by
  unfold arbPool
  split
  · exact List.Subset.refl _
  split
  · rename_i h
    exact List.cons_subset.mpr ⟨by simpa using h, List.nil_subset _⟩
  dsimp only
  split
  · exact List.filter_subset_self _
  split
  · exact List.filter_subset_self _
  · exact List.nil_subset _

/-- A turn that has commands left goes on while its queue has entries. -/
theorem arbPick_turn {x : PortSt} {qs : List Nat} {q : Nat} (hc : x.arb.cur = some q) (hq : q ∈ qs)
    (hl : 0 < x.arb.left ∨ ngetD x.feat 0x01 0 % 8 = 7) : arbPick x qs = some (q, { x.arb with left := x.arb.left - 1 }) := by
  have hgo : (ngetD x.feat 0x01 0 % 8 == 7 || decide (0 < x.arb.left)) = true := by
    simpa only [Bool.or_eq_true, beq_iff_eq, decide_eq_true_eq] using hl.symm
  have hlive : x.arb.cur.filter (fun q => qs.contains q && (ngetD x.feat 0x01 0 % 8 == 7 || decide (0 < x.arb.left))) = some q := by
    rw [hc, Option.filter_some, List.contains_iff_mem.mpr hq, hgo]
    rfl
  unfold arbPick
  dsimp only
  rw [hlive]

/-- What arbitration picks: the queue whose turn goes on, or the next of the pool that a new turn goes to. -/
theorem arbPick_cases {x : PortSt} {qs : List Nat} {q : Nat} {a : Arb} (h : arbPick x qs = some (q, a)) :
    (x.arb.cur = some q ∧ q ∈ qs) ∨ q ∈ (arbPool x qs).1 := by
  unfold arbPick at h
  dsimp only at h
  split at h
  · rename_i r hr
    obtain ⟨hcur, hlive⟩ := Option.filter_eq_some_iff.mp hr
    cases h
    simp only [Bool.and_eq_true, List.contains_iff_mem] at hlive
    exact .inl ⟨hcur, hlive.1⟩
  · obtain ⟨r, hr, he⟩ := Option.map_eq_some_iff.mp h
    cases he
    exact .inr (roundRobin_mem hr)
theorem arbPick_mem {x : PortSt} {qs : List Nat} {q : Nat} {a : Arb} (h : arbPick x qs = some (q, a)) : q ∈ qs := by
  rcases arbPick_cases h with ⟨-, h⟩ | h
  · exact h
  · exact arbPool_subset x qs h
theorem arbPick_newTurn {x : PortSt} {qs : List Nat} {q : Nat} {a : Arb} (hc : x.arb.cur = none) (h : arbPick x qs = some (q, a)) :
    q ∈ (arbPool x qs).1 := by
  rcases arbPick_cases h with ⟨hcur, -⟩ | h
  · rw [hc] at hcur
    cases hcur
  · exact h

/-! ## SRT_HWM (Table 4-9) -/

theorem isTrigger_hwmClr : IsTrigger .srt 0 0x18 (single 0x18 [wo 0 0]) := ⟨rfl, rfl, rfl, rfl, rfl, rfl, fun _ => rfl⟩

theorem writeAccess_hwmClr {i : Initiator} (h : coreAccess s i .srt 0 = true) (v : Nat) :
    writeAccess s i 0x20018 4 (setBits v 0 0 1) {} = hwmClear s := by
  have hbit : bitOf (setBits v 0 0 1 % 2 ^ 32) 0 = true := bitOf_word_setBits v 0 1 (by decide)
  rw [writeAccess_trigger h rfl isTrigger_hwmClr rfl]
  simp only [trigBusy, flashEffect, systemEffect, hbit, Bool.false_and, Bool.false_eq_true, if_true, if_false]

theorem hwmClear_only (s : State) : OnlyChanges [.regs] s (hwmClear s) := wr_frame (OnlyChanges.refl _ s) (by decide)

/-! ## Abort (R116 to R118) -/

/-- A completion appends to what is sent, whether it is posted or held. -/
theorem complete_out (s : State) (q : Sqe) (st : Status) (dw lba cs : Nat) : ∃ l, (complete s q st dw lba cs).out = s.out ++ l := by
  have hpost : ∀ (t : State) (c : Compl), ∃ l, (post t c).out = t.out ++ l := by
    intro t c
    unfold post
    dsimp only
    split
    · exact ⟨[], (List.append_nil _).symm⟩
    split
    · exact ⟨[], by simp⟩
    · obtain ⟨l, -, h, -⟩ := placeCompl_sent t _ _ _ c
      exact ⟨l, h⟩
  obtain ⟨l, h⟩ := hpost (if st.m then addError s q st lba cs else s) { port := q.port, qid := q.qid, cid := q.cid, st, dw0 := dw }
  refine ⟨l, h.trans ?_⟩
  split
  · rw [addError, modPort_out]
  · rfl

/-- An interrupt leaves the Abort under way. -/
theorem getPort_cqInterrupt_abortOut (s : State) (p : Port) (k : Nat) (q : Cq) (r : Port) :
    (getPort (cqInterrupt s p k q) r).abortOut = (getPort s r).abortOut := by
  have hsend : ∀ t v, (getPort (msixSend t p v) r).abortOut = (getPort t r).abortOut := fun t v => by
    have h := congrArg PortSt.abortOut (portCore_msixSend t p v r)
    exact h
  have hcoal : ∀ m : PortSt → NMap Nat,
      (getPort (modPort s p fun x => { x with coal := m x }) r).abortOut = (getPort s r).abortOut := fun m => by
    cases p <;> cases r <;> rfl
  unfold cqInterrupt
  split
  · rfl
  split
  · exact hsend s _
  · dsimp only
    split
    · rw [hsend, hcoal]
    · exact hcoal _

/-- An Abort whose completion is posted is outstanding no more (R116). -/
theorem placeCompl_abortOut {p : Port} {c : Compl} (hc : c.qid = 0) (ha : (getPort s p).abortOut = some c.cid) (k : Nat) (q : Cq) :
    (getPort (placeCompl s p k q c) p).abortOut = none := by
  unfold placeCompl
  dsimp only
  rw [getPort_cqInterrupt_abortOut]
  split <;> simp [hc, ha]

theorem canFetchAdm_qid {q : Sqe} (h : canFetchAdm s q = true) : q.qid = 0 := by
  simp only [canFetchAdm, Bool.and_eq_true, beq_iff_eq] at h
  exact h.1.1.2

/-- Taking an admin command moves the admin queue alone. -/
theorem plainQueue_takeAdmin {q : Sqe} (h : PlainQueue s q) (hq : q.qid ≠ 0) (p : Port) : PlainQueue (takeAdmin s p) q := by
  intro x hx
  refine h x (hx ▸ ?_)
  by_cases hp : q.port = p
  · subst hp
    simp [sqOf, takeAdmin, takeFirm, getPort_takeEntry_sqs, nget_nmod_other _ _ hq]
  · simp [sqOf, takeAdmin, takeFirm, getPort_takeEntry_other s 0 hp]

/-- A count in a field goes up to the field's largest value, and stays there. -/
theorem rdField_satAdd (s : State) (a : Nat) {hi lo : Nat} (h : hi < 64) (n : Nat) :
    rdField (satAdd s a hi lo n) a hi lo = min (rdField s a hi lo + n) (2 ^ (hi + 1 - lo) - 1) := by
  rw [satAdd, rdField_wrField _ _ _ _ _ h]
  have := Nat.two_pow_pos (hi + 1 - lo)
  exact Nat.mod_eq_of_lt (by omega)

/-- An Abort is counted in a field of SRT_ABORT, and noted in the event fabric (source 94). -/
def abortCounted (s : State) (hi lo : Nat) : State := raise (satAdd s (srt 0x60) hi lo 1) 94
/-- Its completion is still to be posted. -/
def abortOutstanding (s : State) (q : Sqe) : State := modPort s q.port fun x => { x with abortOut := some q.cid }

theorem abortCounted_srt (s : State) (hi lo : Nat) : (abortCounted s hi lo).srt = s.srt := by simp [abortCounted]
theorem abortCounted_out (s : State) (hi lo : Nat) : ∃ l, (abortCounted s hi lo).out = s.out ++ l := by
  obtain ⟨l, h⟩ := raise_out (satAdd s (srt 0x60) hi lo 1) 94
  exact ⟨l, h.trans (by rw [satAdd_out])⟩
theorem abortCounted_raised (hc : s.chip.held = false) (hi lo : Nat) : raised (abortCounted s hi lo) 94 = true :=
  raised_raise (by decide) (by decide) (by rwa [satAdd_chip])
theorem rdField_abortCounted (s : State) {hi lo : Nat} (h : hi < 64) :
    rdField (abortCounted s hi lo) (srt 0x60) hi lo = min (rdField s (srt 0x60) hi lo + 1) (2 ^ (hi + 1 - lo) - 1) := by
  rw [abortCounted, rdField_raise _ _ _ _ rfl, rdField_satAdd _ _ h]
theorem cqReady_abortCounted (s : State) (hi lo : Nat) (q : Sqe) : cqReady (abortCounted s hi lo) q = cqReady s q := by
  simp [abortCounted, cqReady]
theorem cqReady_abortOutstanding (s : State) (q : Sqe) : cqReady (abortOutstanding s q) q = cqReady s q := by
  simp [abortOutstanding, cqReady]

section
variable {q : Sqe} (hcan : canFetchAdm s q = true) (hp : abortPending (getPort s q.port) = false)
include hcan hp

/-- An Abort whose target is not there is answered at once, with bit 0 of Dword 0 set. -/
theorem abortCmd_missed {sqid cid : Nat} (hno : ∀ c ∈ s.srt.cmds, ¬ (c.2.q.port = q.port ∧ c.2.q.qid = sqid ∧ c.2.q.cid = cid)) :
    abortCmd s q sqid cid = complete (abortOutstanding (abortCounted (takeAdmin s q.port) 15 0) q) q stOk 1 := by
  have hp' : abortPending (getPort (takeAdmin s q.port) q.port) = false := by simpa [abortPending] using hp
  have hfind : ((takeAdmin s q.port).srt.cmds.find? fun c => sqid != 0 && c.2.q.port == q.port && c.2.q.qid == sqid &&
      c.2.q.cid == cid && !c.2.mute) = none := by
    rw [takeAdmin_srt, List.find?_eq_none]
    intro c hc hm
    simp only [Bool.and_eq_true, beq_iff_eq] at hm
    obtain ⟨⟨⟨⟨-, hport⟩, hqid⟩, hcid⟩, -⟩ := hm
    exact hno c hc ⟨hport, hqid, hcid⟩
  unfold abortCmd
  simp only [hcan, hp', hfind, Bool.not_true, Bool.false_eq_true, if_false]
  rfl

/-- An Abort of the one command there is, which only reads: the command ends with Command Abort Requested, and the Abort follows. -/
theorem abortCmd_caught {id : Nat} {c : Cmd} (hcmds : s.srt.cmds = [(id, c)]) (hport : c.q.port = q.port) (hqid : c.q.qid ≠ 0)
    (hm : c.mute = false) (hr : c.modif = false) (hst : c.status = none) :
    abortCmd s q c.q.qid c.q.cid =
      abortDone (abortCounted (endCmd (takeAdmin s q.port) id stAbortReq) 31 16) q c.q.qid c.q.cid true := by
  have hp' : abortPending (getPort (takeAdmin s q.port) q.port) = false := by simpa [abortPending] using hp
  have hcaught : caught c = true := by simp [caught, hst, hr]
  have hfind : ((takeAdmin s q.port).srt.cmds.find? fun d => c.q.qid != 0 && d.2.q.port == q.port && d.2.q.qid == c.q.qid &&
      d.2.q.cid == c.q.cid && !d.2.mute) = some (id, c) := by
    rw [takeAdmin_srt, hcmds]
    simp [hport, hqid, hm]
  unfold abortCmd
  simp only [hcan, hp', hfind, hcaught, hr, Bool.not_true, Bool.false_eq_true, if_true, if_false]
  rfl
end

/-- Where the target's completion is held the Abort's waits for it; else it is made. The table and what was sent stay. -/
theorem abortDone_appends (s : State) (q : Sqe) (sqid cid : Nat) (hit : Bool) :
    (abortDone s q sqid cid hit).srt = s.srt ∧ ∃ l, (abortDone s q sqid cid hit).out = s.out ++ l := by
  unfold abortDone
  dsimp only
  split
  · exact ⟨by simp, [], by simp⟩
  · refine ⟨by simp, ?_⟩
    obtain ⟨l, h⟩ := complete_out (abortOutstanding s q) q stOk (if hit then 0 else 1) 0 0
    exact ⟨l, h.trans (by rw [abortOutstanding, modPort_out])⟩

/-- A completion with success of an admin command that its queue takes ends an Abort of the same identifier. -/
theorem complete_abortOut {q : Sqe} (h0 : q.qid = 0) (hr : cqReady s q = true) (ha : (getPort s q.port).abortOut = some q.cid) (dw : Nat) :
    (getPort (complete s q stOk dw) q.port).abortOut = none := by
  unfold cqReady at hr
  have hstep : complete s q stOk dw = post s { port := q.port, qid := q.qid, cid := q.cid, st := stOk, dw0 := dw } := rfl
  rw [hstep]
  unfold post
  dsimp only
  split at hr
  · rename_i c hc
    simp only [Bool.and_eq_true, Bool.not_eq_true'] at hr
    rw [hc]
    dsimp only
    rw [if_neg (by simp [hr])]
    exact placeCompl_abortOut h0 ha _ _
  · cases hr

end Sys2Proof.Machine

namespace Sys2Proof.Proofs
open Sys2Proof.Machine

/-! ## Overlap -/

theorem overlapRule : Claims.overlapRule := by
  intro c d
  simp only [overlap, Bool.and_eq_true, Bool.or_eq_true, List.any_eq_true, rangesMeet_iff]
  refine and_congr_right fun _ => ⟨?_, ?_⟩
  · rintro ⟨a, ha, b, hb, hns, l, hal, hbl⟩
    exact ⟨a.1, l, ⟨a, ha, rfl, hal⟩, b, hb, hns.symm, hbl⟩
  · rintro ⟨n, l, ⟨a, ha, hn, hal⟩, b, hb, hbn, hbl⟩
    exact ⟨a, ha, b, hb, hn.trans hbn.symm, l, hal, hbl⟩

/-- Settles O17: ranges meet where a letter of one namespace lies in both. -/
theorem overlapOfCommands : Obligations.OverlapOfCommands := overlapRule

/-! ## The tracker's commands, and the order of fetches -/

theorem srtHwmClr : Claims.srtHwmClr := by
  intro s i v h
  exact completes_eq rfl (writeAccess_hwmClr h v.toNat) ⟨rd_wr_same s _ _, fun a ha => rd_wr_other s _ ha, hwmClear_only s⟩

theorem abort : Claims.abort := by
  intro s q sqid cid hcan hready hp hno hc
  have h0 := canFetchAdm_qid hcan
  have hcount : cqReady (abortOutstanding (abortCounted (takeAdmin s q.port) 15 0) q) q = true := by
    rwa [cqReady_abortOutstanding, cqReady_abortCounted, cqReady_takeAdmin]
  have hout : ∃ l, (abortOutstanding (abortCounted (takeAdmin s q.port) 15 0) q).out = s.out ++ l := by
    obtain ⟨l, hl⟩ := takeAdmin_out s q.port
    obtain ⟨m, hm⟩ := abortCounted_out (takeAdmin s q.port) 15 0
    exact ⟨l ++ m, by rw [abortOutstanding, modPort_out, hm, hl, List.append_assoc]⟩
  have hregs : ∀ a, rd (complete (abortOutstanding (abortCounted (takeAdmin s q.port) 15 0) q) q stOk 1) a =
      rd (abortCounted (takeAdmin s q.port) 15 0) a := fun a => by
    have hsame := (complete_frame_quiet (s := abortOutstanding (abortCounted (takeAdmin s q.port) 15 0) q) (q := q) (st := stOk) rfl
      (by decide) 1 0 0).same .regs (by decide)
    rw [rd_of_regs hsame, abortOutstanding, rd_modPort]
  refine completes_eq rfl (abortCmd_missed hcan hp hno) ⟨answeredWith_complete h0 hcount hout stOk 1 0 0, ?_, ?_, ?_, ?_⟩
  · rw [raised, hregs]
    exact abortCounted_raised (by rwa [takeAdmin_chip]) 15 0
  · rw [complete_srt _ q stOk 1 0 0, abortOutstanding, modPort_srt, abortCounted_srt, takeAdmin_srt]
  · exact complete_abortOut h0 hcount (by rw [abortOutstanding, getPort_modPort]) 1
  · rw [hregs]
    have hfield := rdField_abortCounted (takeAdmin s q.port) (hi := 15) (lo := 0) (by decide)
    rwa [rdField, rdField, rd_takeAdmin _ (by decide), bitsOf, bitsOf, Nat.pow_zero, Nat.div_one, Nat.div_one] at hfield

theorem abortCaught : Claims.abortCaught := by
  intro s q id c hcan _ hp hcmds hport hqid hm hr hst hpins hready hplain
  have htaken : (takeAdmin s q.port).srt.cmds = [(id, c)] := by rw [takeAdmin_srt, hcmds]
  have hready' : cqReady (takeAdmin s q.port) c.q = true := by rwa [← hport, cqReady_takeAdmin]
  obtain ⟨hans, hempty⟩ := failCmd_answers htaken hm hpins (plainQueue_takeAdmin hplain hqid q.port) hready' stAbortReq 0 0
  rw [failCmd_alone htaken] at hans hempty
  obtain ⟨hsrt, l, hl⟩ := abortDone_appends (abortCounted (endCmd (takeAdmin s q.port) id stAbortReq) 31 16) q c.q.qid c.q.cid true
  obtain ⟨m, hm'⟩ := abortCounted_out (endCmd (takeAdmin s q.port) id stAbortReq) 31 16
  refine completes_eq rfl (abortCmd_caught hcan hp hcmds hport hqid hm hr hst) ⟨?_, by rw [hsrt, abortCounted_srt, hempty]⟩
  exact (hans.before s (takeAdmin_out s q.port)).after s ⟨m ++ l, by rw [hl, hm', List.append_assoc]⟩

theorem arbitrationPicks : Claims.arbitrationPicks := by
  intro s p qid a h
  obtain ⟨hopen, hqueue⟩ := mem_eligible.mp (arbPick_mem h)
  refine ⟨hqueue, fun hfull => ?_⟩
  by_contra h0
  simp [h0, hfull] at hopen

theorem weightedClassesFirst : Claims.weightedClassesFirst := by
  intro s p qid a h ha hc
  have hpool := arbPick_newTurn hc h
  refine ⟨fun h0 => ?_, fun hu h0 => ?_⟩
  · rw [arbPool_admin ha h0] at hpool
    exact List.mem_singleton.mp hpool
  · rw [arbPool_urgent ha h0 hu] at hpool
    exact beq_iff_eq.mp (List.mem_filter.mp hpool).2

theorem turnGoesOn : Claims.turnGoesOn := by
  intro s p qid hc hq hl
  exact ⟨_, arbPick_turn hc hq hl, hc, rfl⟩

theorem frontEndsAlternate : Claims.frontEndsAlternate := by
  intro s q h hother
  have hturn : portTurn s q.port = true := by
    rcases h with h | h
    · exact (Bool.and_eq_true _ _ ▸ h).2
    · exact (Bool.and_eq_true _ _ ▸ h).2
  simp only [portTurn, hother, Bool.not_true, Bool.false_or, bne_iff_ne] at hturn
  have hport : (q.port == .b) = !(q.port == .a) := by cases q.port <;> rfl
  rwa [hport, Bool.ne_not] at hturn

/-- Settles O26, clause by clause. -/
theorem trackerCommands : Obligations.TrackerCommands :=
  ⟨srtHwmClr, abort, abortCaught, arbitrationPicks, weightedClassesFirst, turnGoesOn, frontEndsAlternate⟩

end Sys2Proof.Proofs
end

section
/-! PROOFS. Commands under way: their release (R107), the journal's batches (R262), tracker faults (R126), and waits for a release
(R128): O25, but for the acknowledgement of a batch. -/

namespace Sys2Proof.Machine

variable {s : State}

/-! ## The release of a Write (R107, R143) -/

theorem clientAccesses_nil (s : State) : clientAccesses s [] = s := by rw [clientAccesses]

theorem onLost_none (h : s.phc.lost = []) (nsid l : Nat) : onLost s nsid l = false := by simp [onLost, h]

/-- Two states with one sorting office but for a command's slots and parcels to rewrite. -/
theorem settleBundle_getCmd {id : Nat} {d : Cmd} (h : getCmd s id = some d) (p : Nat) :
    ∃ pl rm, getCmd (settleBundle id s p) id = some { d with places := pl, rmws := rm } := by
  have hkept : ∀ t : State, t.srt = s.srt → ∃ pl rm, getCmd t id = some { d with places := pl, rmws := rm } := fun t ht =>
    ⟨d.places, d.rmws, (getCmd_of_srt ht id).trans h⟩
  have htry : ∀ l, (tryBundle s (.cmd id) d.q.nsid p l).1.srt = s.srt := fun l =>
    (tryBundle_frame (F := signals ++ [.map]) (OnlyChanges.refl _ s) (by decide) (by decide) (by decide) (by decide) (by decide)
      (by decide)).same .srt (by decide)
  unfold settleBundle
  simp only [h]
  split
  · exact hkept s rfl
  split
  · exact hkept _ rfl
  split
  · exact hkept s rfl
  split
  · exact hkept _ (htry _)
  split
  · refine hkept _ (Eq.trans ?_ (htry (isDeadEnt (entryOf (projected s) d.q.nsid p))))
    exact (waitBundle_frame (F := signals ++ [.map]) (OnlyChanges.refl _ _) (by decide) (by decide) (by decide) (by decide) (by decide)
      (by decide)).same .srt (by decide)
  · rw [getCmd_modCmd, getCmd_of_srt (htry _), h]
    exact ⟨_, _, rfl⟩

theorem settleBundles_getCmd {id : Nat} {d : Cmd} (h : getCmd s id = some d) (c : Cmd) (n : Ns) :
    ∃ pl rm, getCmd (settleBundles s id c n) id = some { d with places := pl, rmws := rm } := by
  have hfold : ∀ (ps : List Nat) (t : State) (e : Cmd), getCmd t id = some e →
      ∃ pl rm, getCmd (ps.foldl (settleBundle id) t) id = some { e with places := pl, rmws := rm } := by
    intro ps
    induction ps with
    | nil => exact fun t e he => ⟨e.places, e.rmws, he⟩
    | cons p ps ih =>
      intro t e he
      obtain ⟨pl, rm, hp⟩ := settleBundle_getCmd he p
      obtain ⟨pl', rm', hps⟩ := ih _ _ hp
      exact ⟨pl', rm', hps⟩
  exact hfold _ s d h

theorem proceed_noData {id : Nat} {c : Cmd} (h : getCmd s id = some c) (hd : c.dataIn = false) : proceed s id = s := by
  simp [proceed, h, hd]

/-- A Write whose lookups find nothing amiss, and whose capacity there is, is released; its bundles are settled, and it goes on where
its data is there. -/
theorem release_write {id : Nat} {q : Sqe} {f : IoFields} {k : Nat} {c : Cmd} {n : Ns} (hc : getCmd s id = some c)
    (hbody : c.body = .write q f k) (hrel : releasable s id c = true) (hn : nsOf s c.q.nsid = some n) (hl : n.lbaf ≠ 3)
    (hlost : s.phc.lost = []) (hchip : s.map.chip < 3)
    (hok : corruptSeg s c.q.nsid ((List.range (f.nlb + 1)).map fun i => f.slba + i) = none)
    (hcap : capacityOk s c.q.nsid (newLetters s c.q.nsid ((List.range (f.nlb + 1)).map fun i => f.slba + i))
      (newLetters s c.q.nsid ((List.range (f.nlb + 1)).map fun i => f.slba + i)) = true) :
    ∃ lets, release s id [] = proceed (settleBundles (modCmd s id fun d => { d with released := true, newLets := lets, newUser := lets })
      id c n) id := by
  have hunits : cmdUnits c n f = [] := by simp [cmdUnits, hl]
  have hnone : (writeLetters n c f).any (onLost s c.q.nsid) = false := by simp [onLost_none hlost]
  have h4 : s.map.chip ≠ 4 := by omega
  have h3 : s.map.chip ≠ 3 := by omega
  have hzero : newLetters s c.q.nsid [] = 0 := rfl
  have hrun : release s id [] = releaseWrite s id c n f := by
    simp only [release, hc, hrel, if_true, clientAccesses_nil, releaseCmd, hbody, onNs, hn, writable, h4, h3, if_false]
  refine ⟨newLetters s c.q.nsid ((List.range (f.nlb + 1)).map fun i => f.slba + i), ?_⟩
  rw [hrun]
  unfold releaseWrite
  simp only [hnone, hunits, List.map_nil, List.append_nil, hok, hzero, Nat.add_zero, hcap, hbody, isWrite, Bool.not_true, Bool.false_and,
    Bool.false_eq_true, if_true, if_false]

/-! ## A batch of the journal (R262) -/

/-- The judgement of TRIG_FULL leaves the ring and its batches alone (R264). -/
theorem fullJudge_jrc (s : State) : ∃ b l, (fullJudge s).jrc = { s.jrc with full := b, trigs := l } := by
  have htrig : ∀ (t : State) (n : Nat), ∃ l, (epochTrig t n).jrc = { t.jrc with trigs := l } := by
    intro t n
    unfold epochTrig
    split
    · exact ⟨_, rfl⟩
    · exact ⟨t.jrc.trigs, by rw [raise_jrc, orReg_jrc]⟩
  unfold fullJudge
  dsimp only
  split
  · obtain ⟨l, h⟩ := htrig (updJrc s fun j => { j with
      full := decide (rdField s (jrc 0x28) 15 8 * (Config.ringBytes / 256) ≤ s.jrc.live) }) 1
    exact ⟨_, l, h⟩
  · exact ⟨_, s.jrc.trigs, rfl⟩

/-- What does not reach the end of the ring takes its own bytes alone. -/
theorem ringNeeds_fits {j : Jrc} {n : Nat} (h : j.head + n ≤ Config.ringBytes) : ringNeeds j n = (n, n) := by
  rw [ringNeeds, if_neg (by omega)]
theorem ringAppend_tokens {j : Jrc} {ws : List Nat} (h : j.head + 16 * ws.length ≤ Config.ringBytes) :
    (ringAppend j ws).tokens = j.tokens - 16 * ws.length := by
  have hpad : ¬ Config.ringBytes < j.head + 16 * ws.length := by omega
  simp [ringAppend, hpad, ringMend]

/-- The words of the records of a batch of one group. -/
def batchWords (s : State) (rs : List JRec) : List Nat := rs.flatMap fun r => r.words s.jrc.gen
/-- The journal with the batch of one group in the ring, closed by its commit marker. -/
def batched (s : State) (g : Group) (rs : List JRec) : State :=
  updJrc s fun j => { ringAppend j (batchWords s rs ++
      [commitWord s.jrc.gen (batchWords s rs).length (crc32c ((batchWords s rs).flatMap wordBytes)) (s.jrc.gseq + 1)]) with
    gseq := s.jrc.gseq + 1, reqs := [], stalled := false, lastBatch := some s.clk.tb
    batches := j.batches ++ [{ gseq := s.jrc.gseq + 1, groups := [{ g with recs := rs }] }] }

theorem batched_tokens {g : Group} {rs : List JRec} (hhead : s.jrc.head + 16384 ≤ Config.ringBytes)
    (hlen : (batchWords s rs).length ≤ 1000) :
    (batched s g rs).jrc.tokens = s.jrc.tokens - 16 * ((batchWords s rs).length + 1) := by
  have hwords : ∀ w, (batchWords s rs ++ [w]).length = (batchWords s rs).length + 1 := fun w => List.length_append
  have hfit : ∀ w, s.jrc.head + 16 * (batchWords s rs ++ [w]).length ≤ Config.ringBytes := fun w => by rw [hwords]; omega
  refine (ringAppend_tokens (hfit _)).trans ?_
  rw [hwords]

theorem takeGroups_one {g : Group} {rs : List JRec} (t : MapTab) (hw : groupWaits s g = false)
    (hrs : decideAll s g.owner t g.wants = rs) (hlen : (batchWords s rs).length ≤ 1023) :
    takeGroups s t 0 [g] = ([{ g with recs := rs }], []) := by
  have hfit : ¬ 1023 < 0 + (rs.flatMap fun r => r.words s.jrc.gen).length := by
    rw [Nat.zero_add]
    exact Nat.not_lt.mpr hlen
  simp only [takeGroups, hw, hrs, hfit, Bool.false_eq_true, if_false]

/-- One group that need not wait, for whose records there is room and there are tokens, goes to the ring. -/
theorem batchStart_one {g : Group} {rs : List JRec} (hrun : running s .jrc = true) (hhold : s.jrc.hold = false)
    (hpark : s.chip.parked = false) (hmap : running s .map = true) (hreqs : s.jrc.reqs = [g]) (hdue : batchDue s = true)
    (hqueued : queuedBytes s.jrc ≤ 49152) (hw : groupWaits s g = false) (hrs : decideAll s g.owner (projected s) g.wants = rs)
    (h1 : 1 ≤ (batchWords s rs).length) (hlen : (batchWords s rs).length ≤ 1000) (hhead : s.jrc.head + 16384 ≤ Config.ringBytes)
    (hlive : s.jrc.live + 16384 ≤ Config.ringBytes) (htok : 16384 ≤ s.jrc.tokens) :
    batchStart s = fullJudge (batched s g rs) := by
  have hgroups := takeGroups_one (projected s) hw hrs (by omega)
  have hwords : (batchWords s rs).isEmpty = false := List.isEmpty_eq_false_iff.mpr (List.ne_nil_of_length_pos h1)
  have hneeds : ringNeeds s.jrc (16 * ((batchWords s rs).length + 1)) =
      (16 * ((batchWords s rs).length + 1), 16 * ((batchWords s rs).length + 1)) := ringNeeds_fits (by omega)
  have hroom : ¬ Config.ringBytes ≤ s.jrc.live + 16 * ((batchWords s rs).length + 1) := by omega
  have htokens : ¬ s.jrc.tokens < 16 * ((batchWords s rs).length + 1) := by omega
  have hqueue : ¬ 65536 < queuedBytes s.jrc + 16 * ((batchWords s rs).length + 1) := by omega
  have hone : ([{ g with recs := rs }].flatMap fun g : Group => g.recs.flatMap fun r => r.words s.jrc.gen) = batchWords s rs :=
    List.flatMap_singleton ..
  unfold batchStart
  simp only [hrun, hhold, hpark, hmap, hreqs, hdue, hgroups, hone, hwords, hneeds, hroom, htokens, hqueue, List.isEmpty_cons,
    Bool.not_true, Bool.or_self, Bool.false_eq_true, if_false]
  rfl

/-! ## Tracker faults (R126) -/

/-- The sorting office is quiesced, and the fault reported. -/
def quiesced (s : State) : State :=
  raise (orReg (updSrt s fun t => { t with quiesce := true }) (Reg.sts .srt) (2 ^ 17 + 2 ^ 18)) 90

theorem quiesced_srt (s : State) : (quiesced s).srt = { s.srt with quiesce := true } := by rw [quiesced, raise_srt, orReg_srt, updSrt_srt]
theorem quiesced_out (s : State) : ∃ l, (quiesced s).out = s.out ++ l := by
  obtain ⟨l, h⟩ := raise_out (orReg (updSrt s fun t => { t with quiesce := true }) (Reg.sts .srt) (2 ^ 17 + 2 ^ 18)) 90
  exact ⟨l, h.trans (by rw [orReg_out, updSrt_out])⟩
theorem quiesced_raised (h : s.chip.held = false) : raised (quiesced s) 90 = true :=
  raised_raise (by decide) (by decide) (by rwa [orReg_chip, updSrt_chip])
theorem quiesced_sts (s : State) {n : Nat} (h : n = 17 ∨ n = 18) : bitOf (rd (quiesced s) (Reg.sts .srt)) n = true := by
  rw [quiesced, rd_raise _ _ (signalReg_sts .srt 0), bitOf_orReg _ _ _ _ (by omega), Bool.or_eq_true]
  rcases h with rfl | rfl <;> exact .inr (by decide)
theorem cqReady_quiesced (s : State) (q : Sqe) : cqReady (quiesced s) q = cqReady s q := by simp [cqReady, quiesced]

/-- The commands that wait for their release end with Ordering Tracker Fault, in fetch order. -/
theorem trackerFault_found (hq : s.srt.quiesce = false) (ha : active s .srt = true) : trackerFault s =
    (s.srt.cmds.filter fun c => c.2.accepted && 0 < c.2.entries && !c.2.released && c.2.status.isNone).foldl
      (fun s c => endCmd s c.1 stTracker 0 (lowestLetter c.2)) (quiesced s) := by
  have hcmds : (quiesced s).srt.cmds = s.srt.cmds := by rw [quiesced_srt]
  rw [← hcmds]
  simp only [trackerFault, hq, ha, Bool.not_true, Bool.or_self, Bool.false_eq_true, if_false]
  rfl

/-- The end of the one command there is leaves the rest of the sorting office. -/
theorem endCmd_quiesce {id : Nat} {c : Cmd} (hc : getCmd s id = some c) (hm : c.mute = false) (hp : c.pins = [])
    (hq : PlainQueue s c.q) (st : Status) (dw lba cs : Nat) : (endCmd s id st dw lba cs).srt.quiesce = s.srt.quiesce := by
  rw [endCmd_plain hc hm hp hq, complete_srt _ c.q st dw lba cs, leftTable_srt]

theorem trackerReinit_settled (hq : s.srt.quiesce = true)
    (hc : (s.srt.cmds.any fun c => c.2.accepted && 0 < c.2.entries && c.2.released) = false) :
    trackerReinit s = wrField (updSrt s fun t => { t with quiesce := false }) (Reg.sts .srt) 18 18 0 := by
  simp only [trackerReinit, hq, hc, Bool.not_true, Bool.or_self, Bool.false_eq_true, if_false]

/-! ## Waits for a release (R128) -/

theorem waitlim_exceeded {id : Nat} {c : Cmd} (hc : getCmd s id = some c) (hlim : rdField s (Reg.ctl .srt) 11 4 ≠ 0)
    (ha : c.accepted = true) (hr : c.released = false) (he : 0 < c.entries) (hst : c.status = none) :
    waitlim s id = raise (satAdd s (srt 0x1C) 31 0 1) 95 := by
  have h0 : c.entries ≠ 0 := by omega
  simp [waitlim, hc, hlim, ha, hr, h0, hst]

end Sys2Proof.Machine

namespace Sys2Proof.Proofs
open Sys2Proof.Machine

theorem commandRelease : Claims.commandRelease := by
  intro s id q f k c n hc hbody hrel hn hl hd _ hlost hchip hok hcap
  obtain ⟨lets, hstep⟩ := release_write hc hbody hrel hn hl hlost hchip hok hcap
  have hmod : getCmd (modCmd s id fun d => { d with released := true, newLets := lets, newUser := lets }) id =
      some { c with released := true, newLets := lets, newUser := lets } := by
    rw [getCmd_modCmd, hc]
    rfl
  obtain ⟨pl, rm, hcmd⟩ := settleBundles_getCmd hmod c n
  rw [proceed_noData hcmd hd] at hstep
  exact completes_eq rfl hstep ⟨_, hcmd, rfl, rfl, hd⟩

theorem journalBatchStart : Claims.journalBatchStart := by
  intro s g rs hrun hhold hpark hmap hreqs hdue hqueued hw hrs h1 hlen hhead hlive htok
  refine completes_eq rfl (batchStart_one hrun hhold hpark hmap hreqs hdue hqueued hw hrs h1 hlen hhead hlive htok) ?_
  obtain ⟨b, l, hj⟩ := fullJudge_jrc (batched s g rs)
  rw [hj]
  refine ⟨rfl, rfl, rfl, ?_⟩
  have hlen' : (batchWords s rs).length ≤ 1000 := hlen
  have htokens := batched_tokens (g := g) hhead hlen'
  change (batched s g rs).jrc.tokens + 16 * ((batchWords s rs).length + 1) = _
  omega

theorem trackerFault : Claims.trackerFault := by
  intro s hq ha hc hheld
  have hstep : Machine.trackerFault s = quiesced s := by
    rw [trackerFault_found hq ha, hc]
    rfl
  refine completes_eq rfl hstep ?_
  exact ⟨by rw [quiesced_srt], quiesced_raised hheld, quiesced_sts s (.inl rfl), quiesced_sts s (.inr rfl)⟩

theorem trackerFaultEnds : Claims.trackerFaultEnds := by
  intro s id c hq ha hcmds hacc he hr hst hm hp hready hplain
  have hstep : Machine.trackerFault s = endCmd (quiesced s) id stTracker 0 (lowestLetter c) := by
    rw [trackerFault_found hq ha, hcmds]
    simp [hacc, he, hr, hst]
  have hleft : (quiesced s).srt.cmds = [(id, c)] := by rw [quiesced_srt, hcmds]
  have hget : getCmd (quiesced s) id = some c := by simp [getCmd, hleft, nget]
  have hqueue : PlainQueue (quiesced s) c.q := PlainQueue.of_sqs (s := s) hplain (by simp [quiesced])
  obtain ⟨hans, hempty⟩ := failCmd_answers hleft hm hp hqueue (by rwa [cqReady_quiesced]) stTracker (lowestLetter c) 0
  rw [failCmd_alone hleft] at hans hempty
  refine completes_eq rfl hstep ⟨hans.before s (quiesced_out s), hempty, ?_⟩
  rw [endCmd_quiesce hget hm hp hqueue, quiesced_srt]

theorem trackerReinit : Claims.trackerReinit := by
  intro s hq hc
  refine completes_eq rfl (trackerReinit_settled hq hc) ⟨by rw [wrField_srt, updSrt_srt], by rw [wrField_srt, updSrt_srt], ?_, ?_⟩
  · rw [bitOf_wrField _ _ _ _ (by decide)]
    rfl
  · exact wrField_frame (updSrt_frame (OnlyChanges.refl _ s) (by decide)) (by decide)

theorem waitlimExceeded : Claims.waitlimExceeded := by
  intro s id c hc hlim ha hr he hst hheld
  refine completes_eq rfl (waitlim_exceeded hc hlim ha hr he hst) ⟨raised_raise (by decide) (by decide) (by rwa [satAdd_chip]), ?_, ?_⟩
  · have hcount := rdField_satAdd s (srt 0x1C) (hi := 31) (lo := 0) (by decide) 1
    rw [rd_raise _ _ rfl]
    rwa [rdField, rdField, bitsOf, bitsOf, Nat.pow_zero, Nat.div_one, Nat.div_one] at hcount
  · rw [raise_srt, satAdd_srt]

end Sys2Proof.Proofs
end

section
/-! PROOFS. The acknowledgement of a batch (R263): what one parcel's record does to the map tables, and what applying its group, and the
end of start-up that may follow (R79, R277), leave of the map and of the batches. Settles O25. -/

namespace Sys2Proof.Machine

variable {s : State}

/-! ## One parcel's entry in the tables (Table 10-4) -/

/-- The parcels of a namespace, where it is there. -/
def parcelsOf (t : MapTab) (nsid : Nat) : Option (NMap PEnt) := (nget t.ns nsid).map fun n => n.parcels
/-- The states of the superblocks, in the order of the table. -/
def sbStates (t : MapTab) : List Nat := t.sbs.map fun e => e.2.st

theorem entryOf_parcels (t : MapTab) (nsid p : Nat) : entryOf t nsid p = ngetD ((parcelsOf t nsid).getD []) p .unmapped := by
  cases h : nget t.ns nsid with
  | none => simp [entryOf, parcelsOf, h, ngetD, nget]
  | some n => simp [entryOf, parcelsOf, h]

/-- A change of one value that a view of it does not see. -/
theorem map_nmod {α β : Type} {f : α → α} {g : α → β} (h : ∀ v, g (f v) = g v) (m : NMap α) (k : Nat) :
    (nmod m k f).map (fun e => g e.2) = m.map fun e => g e.2 := by
  have hset : ∀ (m : NMap α) (v : α), nget m k = some v → (nset m k (f v)).map (fun e => g e.2) = m.map fun e => g e.2 := by
    intro m v
    induction m with
    | nil => exact nofun
    | cons e r ih =>
      obtain ⟨j, w⟩ := e
      intro hv
      by_cases hk : k = j
      · subst hk
        simp only [nget, if_true, Option.some.injEq] at hv
        subst hv
        simp [nset, h]
      · by_cases hlt : k < j
        · simp [nget, hk, hlt] at hv
        · simp only [nget, hk, hlt, if_false] at hv
          simp only [nset, hk, hlt, if_false, List.map_cons, ih hv]
  cases hv : nget m k with
  | none => simp only [nmod, hv]
  | some v => simp only [nmod, hv, hset m v hv]

/-- Counting a slot in or out of its superblock changes neither. -/
theorem vAdd_parcels (t : MapTab) (p n m : Nat) : parcelsOf (vAdd t p n) m = parcelsOf t m := by
  unfold vAdd
  split <;> rfl
theorem vSub_parcels (t : MapTab) (p n m : Nat) : parcelsOf (vSub t p n) m = parcelsOf t m := by
  unfold vSub
  split <;> rfl
theorem vAdd_sbStates (t : MapTab) (p n : Nat) : sbStates (vAdd t p n) = sbStates t := by
  unfold vAdd
  split
  · exact map_nmod (g := fun b : Sb => b.st) (by simp) _ _
  · rfl
theorem vSub_sbStates (t : MapTab) (p n : Nat) : sbStates (vSub t p n) = sbStates t := by
  unfold vSub
  split
  · exact map_nmod (g := fun b : Sb => b.st) (by simp) _ _
  · rfl

theorem mapped_parcels (t : MapTab) (nsid m : Nat) (f : Nat → Nat) :
    parcelsOf { t with ns := nmod t.ns nsid fun n => { n with mapped := f n.mapped } } m = parcelsOf t m := by
  unfold parcelsOf
  by_cases h : m = nsid
  · subst h
    rw [nget_nmod_same, Option.map_map]
    rfl
  · rw [nget_nmod_other _ _ h]

theorem addLetter_parcels (t : MapTab) (nsid : Nat) (e : LEnt) (m : Nat) : parcelsOf (addLetter t nsid e) m = parcelsOf t m := by
  have h := mapped_parcels t nsid m (· + e.mapped)
  cases e with
  | slot p => exact (vAdd_parcels _ p 1 m).trans h
  | _ => exact h
theorem subLetter_parcels (t : MapTab) (nsid : Nat) (e : LEnt) (m : Nat) : parcelsOf (subLetter t nsid e) m = parcelsOf t m := by
  have h := mapped_parcels t nsid m (· - e.mapped)
  cases e with
  | slot p => exact (vSub_parcels _ p 1 m).trans h
  | _ => exact h
theorem addLetter_sbStates (t : MapTab) (nsid : Nat) (e : LEnt) : sbStates (addLetter t nsid e) = sbStates t := by
  cases e with
  | slot p => exact vAdd_sbStates _ p 1
  | _ => rfl
theorem subLetter_sbStates (t : MapTab) (nsid : Nat) (e : LEnt) : sbStates (subLetter t nsid e) = sbStates t := by
  cases e with
  | slot p => exact vSub_sbStates _ p 1
  | _ => rfl

/-- A fold whose steps a view does not see. -/
theorem foldl_view {α β γ : Type} {g : β → α → β} {v : β → γ} (h : ∀ b a, v (g b a) = v b) (l : List α) (b : β) :
    v (l.foldl g b) = v b := by
  induction l generalizing b with
  | nil => rfl
  | cons a r ih => rw [List.foldl_cons, ih, h]

theorem addEntry_parcels (t : MapTab) (nsid : Nat) (e : PEnt) (m : Nat) : parcelsOf (addEntry t nsid e) m = parcelsOf t m :=
  foldl_view (v := fun u => parcelsOf u m) (fun u _ => addLetter_parcels u nsid _ m) _ t
theorem subEntry_parcels (t : MapTab) (nsid : Nat) (e : PEnt) (m : Nat) : parcelsOf (subEntry t nsid e) m = parcelsOf t m :=
  foldl_view (v := fun u => parcelsOf u m) (fun u _ => subLetter_parcels u nsid _ m) _ t
theorem addEntry_sbStates (t : MapTab) (nsid : Nat) (e : PEnt) : sbStates (addEntry t nsid e) = sbStates t :=
  foldl_view (fun u _ => addLetter_sbStates u nsid _) _ t
theorem subEntry_sbStates (t : MapTab) (nsid : Nat) (e : PEnt) : sbStates (subEntry t nsid e) = sbStates t :=
  foldl_view (fun u _ => subLetter_sbStates u nsid _) _ t

/-- A parcel of a namespace that is there has the entry that was put. -/
theorem entryOf_putEntry {t : MapTab} {nsid : Nat} {n : Ns} (hn : nget t.ns nsid = some n) (p : Nat) {e : PEnt} (he : e ≠ .unmapped) :
    entryOf (putEntry t nsid p e) nsid p = e := by
  have hsub : parcelsOf (subEntry t nsid (entryOf t nsid p)) nsid = some n.parcels := by rw [subEntry_parcels, parcelsOf, hn]; rfl
  obtain ⟨m, hm, hparcels⟩ := Option.map_eq_some_iff.mp hsub
  rw [entryOf_parcels]
  unfold putEntry
  dsimp only
  rw [addEntry_parcels, parcelsOf, nget_nmod_same, hm]
  simp only [Option.map_some, Option.getD_some, he, if_false]
  rw [ngetD, nget_nset_same]
  rfl
theorem putEntry_sbStates (t : MapTab) (nsid p : Nat) (e : PEnt) : sbStates (putEntry t nsid p e) = sbStates t := by
  unfold putEntry
  dsimp only
  rw [addEntry_sbStates]
  exact subEntry_sbStates _ _ _

/-! ## Applying a group of one parcel (R142, R263) -/

theorem settlePressure_map (s : State) : ∃ b, (settlePressure s).map = { s.map with pressed := b } := by
  unfold settlePressure
  dsimp only
  split
  · exact ⟨true, rfl⟩
  split
  · exact ⟨false, rfl⟩
  · exact ⟨s.map.pressed, rfl⟩

/-- The pool's events change the pool pressure alone of the map. -/
theorem poolEvents_map (s : State) (free used : Nat) : ∃ b, (poolEvents s free used).map = { s.map with pressed := b } := by
  have hraise : ∀ (t : State) (c : Bool) (k : Nat), (if c then raise t k else t).map = t.map := fun t c k => by
    split
    · exact raise_map t k
    · rfl
  unfold poolEvents
  dsimp only
  obtain ⟨b, hb⟩ := settlePressure_map (if aboveMark (if reserve s < free && bundlesFree s = reserve s then raise s 47 else s)
    (usedBundles (if reserve s < free && bundlesFree s = reserve s then raise s 47 else s).map.tab) && !aboveMark
      (if reserve s < free && bundlesFree s = reserve s then raise s 47 else s) used
    then raise (if reserve s < free && bundlesFree s = reserve s then raise s 47 else s) 41
    else (if reserve s < free && bundlesFree s = reserve s then raise s 47 else s))
  exact ⟨b, by rw [hb, hraise, hraise]⟩

theorem poolEvents_only (s : State) (free used : Nat) : OnlyChanges (signals ++ [.map]) s (poolEvents s free used) :=
  poolEvents_frame (OnlyChanges.refl _ s) (by decide) (by decide) (by decide) (by decide) (by decide) (by decide)

/-- The state in which the parcel of a group is put; the pool's events are judged next. -/
def parcelPut (s : State) (g : Group) (nsid parcel ppa : Nat) : State :=
  updMap (updJrc (updTab s fun _ => putEntry s.map.tab nsid parcel (.ptr ppa)) fun j => { j with
    dirty := (j.dirty ++ g.recs.flatMap (recSegs s.map.tab)).dedup }) fun m => { m with
      resv := m.resv.filter fun r => !(some r.2.1 == g.owner.holder && g.wants.any fun w => w.touches r.2.2.1 r.2.2.2) }

theorem parcelPut_map (s : State) (g : Group) (nsid parcel ppa : Nat) : ∃ r, (parcelPut s g nsid parcel ppa).map =
    { s.map with tab := putEntry s.map.tab nsid parcel (.ptr ppa), resv := r } :=
  ⟨_, by rw [parcelPut, updMap_map, updJrc_map, updTab_map]⟩
theorem parcelPut_jrc (s : State) (g : Group) (nsid parcel ppa : Nat) : ∃ d, (parcelPut s g nsid parcel ppa).jrc =
    { s.jrc with dirty := d } :=
  ⟨_, by rw [parcelPut, updMap_jrc, updJrc_jrc, updTab_jrc]⟩

theorem applyGroup_parcel {g : Group} {nsid parcel ppa : Nat} (ho : g.owner = .other)
    (hr : g.recs = [.parcel nsid parcel none (.ptr ppa)]) :
    applyGroup s g = poolEvents (parcelPut s g nsid parcel ppa) (bundlesFree s) (usedBundles s.map.tab) := by
  have htab : heatUp s g (applyRecs s s.map.tab g.recs) = putEntry s.map.tab nsid parcel (.ptr ppa) := by
    simp [heatUp, applyRecs, applyRec, hr]
  have hput : updTab s (fun t => heatUp s g (applyRecs s t g.recs)) = updTab s fun _ => putEntry s.map.tab nsid parcel (.ptr ppa) := by
    rw [← htab]
    rfl
  unfold applyGroup
  simp only [hput, ho, ownerApplied]
  simp only [hr, List.filterMap_cons, List.filterMap_nil]
  rw [parcelPut, ho, hr]

/-- What applying a group that maps one parcel comes to: the parcel's entry; the waiters, the superblocks' states and what else may
wait stay as they are. -/
structure ParcelApplied (s t : State) (nsid parcel ppa : Nat) : Prop where
  only    : OnlyChanges (signals ++ [.map, .jrc]) s t
  tab     : t.map.tab = putEntry s.map.tab nsid parcel (.ptr ppa)
  opens   : t.map.opens = s.map.opens
  pgs     : t.map.pgs = s.map.pgs
  relocs  : t.map.relocs = s.map.relocs
  waiters : t.map.waiters = s.map.waiters
  retiring : t.map.retiring = s.map.retiring
  pinHold : t.map.pinHold = s.map.pinHold
  reqs    : t.jrc.reqs = s.jrc.reqs
  cutSt   : t.jrc.cutSt = s.jrc.cutSt
  batches : t.jrc.batches = s.jrc.batches
  acked   : t.jrc.acked = s.jrc.acked

theorem applyGroup_applied {g : Group} {nsid parcel ppa : Nat} (ho : g.owner = .other)
    (hr : g.recs = [.parcel nsid parcel none (.ptr ppa)]) : ParcelApplied s (applyGroup s g) nsid parcel ppa := by
  rw [applyGroup_parcel ho hr]
  have hput : OnlyChanges (signals ++ [.map, .jrc]) s (parcelPut s g nsid parcel ppa) := by
    unfold parcelPut
    exact updMap_frame (updJrc_frame (updTab_frame (OnlyChanges.refl _ s) (by decide)) (by decide)) (by decide)
  have hpool := poolEvents_only (parcelPut s g nsid parcel ppa) (bundlesFree s) (usedBundles s.map.tab)
  obtain ⟨b, hb⟩ := poolEvents_map (parcelPut s g nsid parcel ppa) (bundlesFree s) (usedBundles s.map.tab)
  obtain ⟨r, hresv⟩ := parcelPut_map s g nsid parcel ppa
  obtain ⟨d, hdirty⟩ := parcelPut_jrc s g nsid parcel ppa
  have hj : (poolEvents (parcelPut s g nsid parcel ppa) (bundlesFree s) (usedBundles s.map.tab)).jrc = { s.jrc with dirty := d } :=
    (hpool.same .jrc (by decide)).trans hdirty
  rw [hresv] at hb
  constructor
  case only => exact hput.trans (hpool.mono (by decide))
  case reqs | cutSt | batches | acked => rw [hj]
  all_goals rw [hb]

/-- A group alone, whose segments are not being rebuilt, is applied as the queue is drained. -/
theorem drainApply_one {g : Group} (hq : s.jrc.applyQ = [g]) (hl : s.phc.lost = []) : drainApply s =
    updJrc (applyGroup (updJrc s fun j => { j with applyQ := [] }) g) fun j => { j with applyQ := [] ++ j.applyQ } := by
  have hlost : ((groupSegs (updJrc s fun j => { j with applyQ := [] }) g).any fun x => s.phc.lost.contains x) = false := by simp [hl]
  unfold drainApply
  simp only [hq, List.foldl_cons, List.foldl_nil, hlost, Bool.false_eq_true, if_false]

/-! ## Nothing under way stays so -/

theorem Calm.updJrc (h : Calm s) {f : Jrc → Jrc} (hr : (f s.jrc).reqs = s.jrc.reqs) (hc : (f s.jrc).cutSt = s.jrc.cutSt) :
    Calm (updJrc s f) where
  cmds := h.cmds
  opens := h.opens
  pgs := h.pgs
  relocs := h.relocs
  waiters := h.waiters
  reqs := hr.trans h.reqs
  victims := h.victims
  sweeps := h.sweeps
  pins := h.pins
  cut := hc.trans h.cut
  rounds := h.rounds

/-- The superblocks that wait for their end are told by their states. -/
theorem victims_of_sbStates {t u : MapTab} (h : sbStates u = sbStates t) (ht : ∀ e ∈ t.sbs, e.2.st ≠ 3) : ∀ e ∈ u.sbs, e.2.st ≠ 3 := by
  intro e he h3
  have hmem : 3 ∈ sbStates t := h ▸ List.mem_map.mpr ⟨e, he, h3⟩
  obtain ⟨d, hd, hd3⟩ := List.mem_map.mp hmem
  exact ht d hd hd3

theorem ParcelApplied.calm {t : State} {nsid parcel ppa : Nat} (ha : ParcelApplied s t nsid parcel ppa) (h : Calm s) : Calm t where
  cmds := (congrArg _ (ha.only.same .srt (by decide))).trans h.cmds
  opens := ha.opens.trans h.opens
  pgs := ha.pgs.trans h.pgs
  relocs := ha.relocs.trans h.relocs
  waiters := ha.waiters.trans h.waiters
  reqs := ha.reqs.trans h.reqs
  victims := victims_of_sbStates (by rw [ha.tab, putEntry_sbStates]) h.victims
  sweeps := ha.retiring ▸ h.sweeps
  pins := ha.pinHold.trans h.pins
  cut := ha.cutSt.trans h.cut
  rounds := (congrArg _ (ha.only.same .prog (by decide))).trans h.rounds

/-! ## What follows the application: the space quantities (R156) -/

theorem anaNotice_tab (s : State) : (anaNotice s).map.tab = s.map.tab := by
  have heach : ∀ (t : State) (c : Bool) (p : Port) (a b l : Nat), (if c then asyncEvent t p a b l else t).map = t.map :=
    fun t c p a b l => by
      split
      · exact asyncEvent_map t p a b l
      · rfl
  unfold anaNotice
  dsimp only
  rw [heach, heach]
  rfl

theorem setChip_tab (s : State) (n : Nat) : (setChip s n).map.tab = s.map.tab := by
  have heach : ∀ (t : State) (c : Bool) (p : Port) (a b l : Nat), (if c then asyncEvent t p a b l else t).map = t.map :=
    fun t c p a b l => by
      split
      · exact asyncEvent_map t p a b l
      · rfl
  have hana : ∀ (t : State) (c : Bool), (if c then anaNotice t else t).map.tab = t.map.tab := fun t c => by
    split
    · exact anaNotice_tab t
    · rfl
  unfold setChip
  split
  · rfl
  · dsimp only
    rw [heach, heach, heach, heach, heach, heach, hana, raise_map]
    rfl

theorem spaceUpdate_tab (s : State) : (spaceUpdate s).map.tab = s.map.tab := by
  have hshed : ∀ (t : State) (a b : Nat), (if a < b then raise (asyncBoth t 7 1 0xC4) 44 else t).map = t.map := fun t a b => by
    split
    · rw [raise_map, asyncBoth_map]
    · rfl
  unfold spaceUpdate
  split
  · rfl
  lift_lets
  intro sp next t
  split
  · intro n old u
    rw [hshed]
    exact setChip_tab s next
  · exact setChip_tab s next

/-- The acknowledgement of a batch of one group, with nothing else under way, comes to that group's application and the space update. -/
theorem commitAck_parcel {b : Batch} {rest : List Batch} {g : Group} {nsid parcel ppa : Nat} (h : Calm s) (ho : s.flash.ops = [])
    (hb : s.jrc.batches = b :: rest) (hg : b.groups = [g]) (hown : g.owner = .other)
    (hr : g.recs = [.parcel nsid parcel none (.ptr ppa)]) (hq : s.jrc.applyQ = []) (hl : s.phc.lost = []) :
    (commitAck s []).map.tab = putEntry s.map.tab nsid parcel (.ptr ppa) ∧ (commitAck s []).jrc.batches = rest ∧
      (commitAck s []).jrc.acked = b.gseq ∧ (commitAck s []).prog = s.prog := by
  let taken : State := updJrc s fun j => { j with batches := rest, acked := b.gseq, applyQ := j.applyQ ++ b.groups }
  let drained : State := updJrc taken fun j => { j with applyQ := [] }
  have happ : ParcelApplied drained (applyGroup drained g) nsid parcel ppa := applyGroup_applied hown hr
  have hcalm : Calm drained := Calm.updJrc (Calm.updJrc h rfl rfl) rfl rfl
  have hflash : (applyGroup drained g).flash.ops = [] := by
    rw [show (applyGroup drained g).flash = drained.flash from happ.only.same .flash (by decide)]
    exact ho
  have htaken : taken.jrc.applyQ = [g] := by simp [taken, hq, hg]
  have hstep : commitAck s [] = spaceUpdate (updJrc (applyGroup drained g) fun j => { j with applyQ := [] ++ j.applyQ }) := by
    rw [← afterApply_calm (Calm.updJrc (happ.calm hcalm) rfl rfl) hflash, ← drainApply_one htaken hl]
    simp only [commitAck, hb, clientAccesses_nil]
    rfl
  have hspace := spaceUpdate_frame (F := signals ++ [.map]) (OnlyChanges.refl _ (updJrc (applyGroup drained g) fun j => { j with
    applyQ := [] ++ j.applyQ })) (by decide) (by decide) (by decide) (by decide) (by decide) (by decide)
  rw [hstep]
  refine ⟨?_, ?_, ?_, ?_⟩
  · rw [spaceUpdate_tab]
    exact happ.tab
  · rw [hspace.same .jrc (by decide)]
    exact happ.batches
  · rw [hspace.same .jrc (by decide)]
    exact happ.acked
  · rw [hspace.same .prog (by decide)]
    exact happ.only.same .prog (by decide)

/-! ## The end of start-up that may follow (R79, R277) -/

/-- The map tables, the batches and the last one acknowledged are as they were. -/
structure MapAckKept (s t : State) : Prop where
  tab     : t.map.tab = s.map.tab
  batches : t.jrc.batches = s.jrc.batches
  acked   : t.jrc.acked = s.jrc.acked

theorem MapAckKept.refl (s : State) : MapAckKept s s := ⟨rfl, rfl, rfl⟩
theorem MapAckKept.trans {s t u : State} (h : MapAckKept s t) (k : MapAckKept t u) : MapAckKept s u :=
  ⟨k.tab.trans h.tab, k.batches.trans h.batches, k.acked.trans h.acked⟩
theorem MapAckKept.of_only {F : List Part} {s t : State} (h : OnlyChanges F s t) (hm : Part.map ∉ F) (hj : Part.jrc ∉ F) : MapAckKept s t :=
  ⟨congrArg _ (h.same .map hm), congrArg _ (h.same .jrc hj), congrArg _ (h.same .jrc hj)⟩
theorem MapAckKept.foldl {α : Type} {f : State → α → State} (h : ∀ t a, MapAckKept t (f t a)) (l : List α) (s : State) :
    MapAckKept s (l.foldl f s) := by
  induction l generalizing s with
  | nil => exact .refl s
  | cons a r ih => exact (h s a).trans (ih _)

theorem jobAbort_kept (s : State) : MapAckKept s (jobAbort s) := by
  have hreloc : ∀ (t : State) (id : Nat) (f : Reloc → Reloc), MapAckKept t (modReloc t id f) := fun _ _ _ => ⟨rfl, rfl, rfl⟩
  have hread : ∀ (t : State) (f : Flash → Flash), MapAckKept t (updFlash t f) := fun _ _ => ⟨rfl, rfl, rfl⟩
  unfold jobAbort
  exact (MapAckKept.foldl (fun t id => hreloc t id _) _ s).trans (hread _ _)
theorem progWrite_kept (s : State) (f : Progress → Progress) : MapAckKept s (progWrite s f) := ⟨rfl, rfl, rfl⟩
theorem anaAfter_kept (old : List Nat) (s : State) : MapAckKept s (anaAfter old s) := by
  have hjrc : (anaAfter old s).jrc = s.jrc := (anaAfter_frame (F := signals ++ [.map]) (OnlyChanges.refl _ s) (by decide) (by decide)
    (by decide) (by decide) (by decide) (by decide)).same .jrc (by decide)
  refine ⟨?_, by rw [hjrc], by rw [hjrc]⟩
  unfold anaAfter
  split
  · rfl
  · exact anaNotice_tab s
theorem newSalt_kept (s : State) (nsid entry : Nat) : MapAckKept s (newSalt s nsid entry) := ⟨rfl, rfl, rfl⟩
theorem makeKey_kept (s : State) (nsid entry : Nat) : MapAckKept s (makeKey s nsid entry).1 := by
  have hdraw : OnlyChanges [.clk, .cry] (newSalt s nsid entry) (makeKey s nsid entry).1 := by
    unfold makeKey
    dsimp only
    exact updCry_frame (drawKey_frame (F := [.clk, .cry]) (OnlyChanges.refl _ (newSalt s nsid entry)) (by decide)) (by decide)
  exact (newSalt_kept s nsid entry).trans (.of_only hdraw (by decide) (by decide))
theorem newKeys_kept (s : State) (ids : List Nat) : MapAckKept s (newKeys s ids).1 := by
  have hfold : ∀ (l : List Nat) (a : State × List Carrier), MapAckKept a.1 (l.foldl (fun a n =>
      let e := 1 - ((nsOf a.1 n).map fun x => x.key.salt).getD 0
      let (s, w) := makeKey a.1 n e
      (s, a.2 ++ [{ nsid := n, salt := e, wrapped := w }])) a).1 := by
    intro l
    induction l with
    | nil => exact fun a => .refl a.1
    | cons n r ih => exact fun a => .trans (makeKey_kept a.1 n (1 - ((nsOf a.1 n).map fun x => x.key.salt).getD 0)) (ih (_, _))
  exact (hfold ids (s, [])).trans (anaAfter_kept _ _)

theorem sanitizeKeys_kept (s : State) (action : Nat) (cmd : Option Nat) : MapAckKept s (sanitizeKeys s action cmd) := by
  unfold sanitizeKeys
  dsimp only
  have hask : ∀ (t : State) (o : GOwner) (w : List Want), MapAckKept t (askGroup t o w) := fun _ _ _ => ⟨rfl, rfl, rfl⟩
  have hfield : ∀ (t : State) (a hi lo v : Nat), MapAckKept t (wrField t a hi lo v) := fun t a hi lo v =>
    .of_only (F := [.regs]) (wrField_frame (OnlyChanges.refl _ t) (by decide)) (by decide) (by decide)
  refine .trans ?_ (hask _ _ _)
  refine .trans ?_ (newKeys_kept _ _)
  refine .trans ?_ (hfield _ _ _ _ _)
  exact (progWrite_kept s _).trans (jobAbort_kept _)

theorem segFill_kept (s : State) : MapAckKept s (segFill s) :=
  .of_only (segFill_frame (F := [.regs, .mem]) (OnlyChanges.refl _ s) (by decide) (by decide)) (by decide) (by decide)

/-- Work that goes on after start-up, other than a sanitize that was under way, writes no map table (R79). -/
theorem progResume_kept (h : s.prog.kind ≠ 2) : MapAckKept s (progResume s) := by
  have hfill : ∀ p : Progress, MapAckKept s (segFill { s with prog := p }) := fun p =>
    .trans (t := { s with prog := p }) ⟨rfl, rfl, rfl⟩ (segFill_kept _)
  unfold progResume
  dsimp only
  split
  · exact sanitizeKeys_kept s _ none
  split
  · exact hfill _
  split
  · split
    · exact hfill _
    · exact ⟨rfl, rfl, rfl⟩
  · exact .refl s

/-- The parts that the last stage of start-up writes, before what was under way goes on. -/
def stageParts : List Part := signals ++ [.chip, .pat, .sec]

theorem stage6_kept (h : s.prog.kind ≠ 2) : MapAckKept s (stage6 s) := by
  unfold stage6
  split
  · exact .refl s
  lift_lets
  intro left cleared
  have h1 : OnlyChanges stageParts s cleared := updChip_frame (OnlyChanges.refl _ s) (by decide)
  split
  · exact .of_only h1 (by decide) (by decide)
  intro unmarked recovered ready loaded dated timed patrolled
  have h2 : OnlyChanges stageParts s unmarked := wrField_frame h1 (by decide)
  have h3 : OnlyChanges stageParts s recovered :=
    recovEnd_frame (enableBlk_frame h2 (by decide)) (by decide) (by decide) (by decide) (by decide) (by decide)
  have h4 : OnlyChanges stageParts s ready :=
    updChip_frame (stage_frame h3 (by decide) (by decide) (by decide) (by decide) (by decide)) (by decide)
  have h5 : OnlyChanges stageParts s loaded := updPat_frame h4 (by decide)
  have h6 : OnlyChanges stageParts s dated := by
    dsimp only [dated]
    split
    · exact wrField_frame h5 (by decide)
    · exact h5
  have h7 : OnlyChanges stageParts s timed := offTime_frame (portReady_frame (portReady_frame h6 (by decide) (by decide) (by decide))
    (by decide) (by decide) (by decide)) (by decide)
  have h8 : OnlyChanges stageParts s patrolled := frame_ite h7 (enableBlk_frame h7 (by decide))
  have hprog : patrolled.prog = s.prog := h8.same .prog (by decide)
  have hpump := pump_frame (F := signals ++ [.flash]) (OnlyChanges.refl _ (progResume patrolled)) (by decide) (by decide) (by decide)
    (by decide) (by decide) (by decide)
  exact (MapAckKept.of_only h8 (by decide) (by decide)).trans
    ((progResume_kept (by rwa [hprog])).trans (.of_only hpump (by decide) (by decide)))

end Sys2Proof.Machine

namespace Sys2Proof.Proofs
open Sys2Proof.Machine

theorem commitAck : Claims.commitAck := by
  intro s b rest g nsid parcel ppa n h ho hb hg hown hr hq hl hn hk
  obtain ⟨htab, hbatches, hacked, hprog⟩ := commitAck_parcel h ho hb hg hown hr hq hl
  have hk2 : (s.prog.kind == 2) = false := by simp [hk]
  have hkept : MapAckKept (Machine.commitAck s []) (stage6 (Machine.commitAck s [])) := stage6_kept (by rwa [hprog])
  have hstep : commitEnded s [] = stage6 (Machine.commitAck s []) := by
    simp only [commitEnded, hk2, Bool.false_and, Bool.false_eq_true, if_false]
  refine completes_eq rfl hstep ⟨hkept.batches.trans hbatches, hkept.acked.trans hacked, ?_⟩
  rw [hkept.tab, htab]
  exact entryOf_putEntry hn parcel nofun

/-- Settles O25, command by command. -/
theorem commandsUnderWay : Obligations.CommandsUnderWay :=
  ⟨commandRelease, journalBatchStart, commitAck, trackerFault, trackerFaultEnds, trackerReinit, waitlimExceeded⟩

end Sys2Proof.Proofs
end

section
/-! PROOFS. The registers of the map engine's block, and what leaves them as they are: accesses to DRAM, the cache and the threshold
table that go on beside a command, and the grants of flash operations. For O37. -/

namespace Sys2Proof.Machine

variable {z s t : State}

/-- From s to t no register of the map engine's block changes (Table 2-1). -/
def MapRegsKept (s t : State) : Prop := ∀ a, 0x30000 ≤ a → a < 0x40000 → rd t a = rd s a

namespace MapRegsKept

theorem refl (s : State) : MapRegsKept s s := fun _ _ _ => rfl
theorem of_regs (h : MapRegsKept z s) (hr : t.regs = s.regs) : MapRegsKept z t := fun a h1 h2 => (rd_of_regs hr a).trans (h a h1 h2)
theorem of_only {F : List Part} (h : MapRegsKept z s) (k : OnlyChanges F s t) (hr : Part.regs ∉ F) : MapRegsKept z t :=
  h.of_regs (k.same .regs hr)
theorem ite {c : Prop} [Decidable c] (h : MapRegsKept z s) (k : MapRegsKept z t) : MapRegsKept z (if c then s else t) := by
  split <;> assumption
theorem foldl {α : Type} {g : State → α → State} (hg : ∀ x a, MapRegsKept z x → MapRegsKept z (g x a)) (l : List α)
    (h : MapRegsKept z s) : MapRegsKept z (l.foldl g s) := by
  induction l generalizing s with
  | nil => exact h
  | cons a r ih => exact ih (hg s a h)

theorem wr (h : MapRegsKept z s) (a v : Nat) (ha : a < 0x30000 ∨ 0x40000 ≤ a) : MapRegsKept z (wr s a v) := fun b h1 h2 => by
  rw [rd_wr_other _ _ (by omega)]
  exact h b h1 h2
theorem orReg (h : MapRegsKept z s) (a m : Nat) (ha : a < 0x30000 ∨ 0x40000 ≤ a) : MapRegsKept z (orReg s a m) := h.wr a _ ha
theorem wrField (h : MapRegsKept z s) (a hi lo v : Nat) (ha : a < 0x30000 ∨ 0x40000 ≤ a) : MapRegsKept z (wrField s a hi lo v) :=
  h.wr a _ ha
theorem satAdd (h : MapRegsKept z s) (a hi lo n : Nat) (ha : a < 0x30000 ∨ 0x40000 ≤ a) : MapRegsKept z (satAdd s a hi lo n) :=
  h.wr a _ ha
theorem raiseWith (h : MapRegsKept z s) (n : Nat) (pl : List Byte) (o : Nat) : MapRegsKept z (raiseWith s n pl o) := fun a h1 h2 => by
  rw [rd_raiseWith _ _ _ _ (by rw [← Bool.not_eq_true, signalReg_iff]; omega)]
  exact h a h1 h2
theorem raise (h : MapRegsKept z s) (n : Nat) : MapRegsKept z (raise s n) := h.raiseWith n _ _
theorem setCause (h : MapRegsKept z s) (a bit src : Nat) (ha : a < 0x30000 ∨ 0x40000 ≤ a) : MapRegsKept z (setCause s a bit src) :=
  .ite h (.raise (h.orReg a _ ha) src)

/-! ## Changes beside the registers -/

theorem updPhc (h : MapRegsKept z s) (f : Phc → Phc) : MapRegsKept z (updPhc s f) := h.of_regs rfl
theorem updMem (h : MapRegsKept z s) (f : Mem → Mem) : MapRegsKept z (updMem s f) := h.of_regs rfl
theorem updJrc (h : MapRegsKept z s) (f : Jrc → Jrc) : MapRegsKept z (updJrc s f) := h.of_regs rfl
theorem updFlash (h : MapRegsKept z s) (f : Flash → Flash) : MapRegsKept z (updFlash s f) := h.of_regs rfl
theorem modOp (h : MapRegsKept z s) (id : Nat) (f : FOp → FOp) : MapRegsKept z (modOp s id f) := h.updFlash _
theorem modCourier (h : MapRegsKept z s) (c : Nat) (f : Courier → Courier) : MapRegsKept z (modCourier s c f) := h.updFlash _
theorem startUnit (h : MapRegsKept z s) (id : Nat) (o : FOp) : MapRegsKept z (startUnit s id o) := h.modCourier _ _
theorem freshBelow (h : MapRegsKept z s) (n : Nat) : MapRegsKept z (freshBelow s n).1 := h.of_regs rfl
theorem repairWritten (h : MapRegsKept z s) : MapRegsKept z (repairWritten s) := h.updJrc _
theorem addRepair (h : MapRegsKept z s) (r : Repair) : MapRegsKept z (addRepair s r) := (h.updMem _).repairWritten

/-! ## The cache (R167, R176) -/

/-- Every part but the registers. -/
def besideRegs : List Part := allParts.filter fun p => p != .regs

theorem putDramLine (h : MapRegsKept z s) (line : Nat) (d : BitVec 512) : MapRegsKept z (putDramLine s line d) := h.of_regs rfl
theorem phcPass (h : MapRegsKept z s) (r : LineReq) : MapRegsKept z (phcPass s r) :=
  h.of_only (phcPass_frame (F := besideRegs) (OnlyChanges.refl _ s) (by decide) (by decide)) (by decide)
theorem phcServe (h : MapRegsKept z s) (r : LineReq) (w : Nat) : MapRegsKept z (phcServe s r w) :=
  h.of_only (phcServe_frame (F := besideRegs) (OnlyChanges.refl _ s) (by decide) (by decide) (by decide)) (by decide)
theorem rangePass (h : MapRegsKept z s) (line : Nat) : MapRegsKept z (rangePass s line) :=
  h.of_only (rangePass_frame (F := besideRegs) (OnlyChanges.refl _ s) (by decide) (by decide) (by decide) (by decide)) (by decide)
theorem writeThrough (h : MapRegsKept z s) (r : LineReq) (k : Nat) (x : PhcLine) : MapRegsKept z (writeThrough s r k x) := h.of_regs rfl
theorem phcHit (h : MapRegsKept z s) (r : LineReq) (w : Nat) : MapRegsKept z (phcHit s r w) :=
  (h.satAdd Reg.phcHits 63 0 1 (by decide)).phcServe r w

theorem phcLookup (h : MapRegsKept z s) (r : LineReq) : MapRegsKept z (phcLookup s r) := by
  have hp := h.rangePass r.line
  unfold Machine.phcLookup
  split
  · exact h.phcPass r
  · exact h.updPhc _
  · dsimp only
    split
    · exact hp.phcHit r _
    · exact .ite (hp.updPhc _) (.ite (hp.updPhc _) (.ite (hp.updPhc _) ((hp.satAdd Reg.phcMisses 63 0 1 (by decide)).updPhc _)))
  · split
    · have hw : MapRegsKept z (useWay (Machine.satAdd s Reg.phcHits 63 0 1) (phcSet s r.line) ‹Nat›) :=
        (h.satAdd Reg.phcHits 63 0 1 (by decide)).updPhc _
      dsimp only
      split
      · exact hw
      split
      · exact hw.writeThrough r _ _
      · exact hw
    · exact .ite (h.updPhc _) (h.phcPass r)
theorem phcRequest (h : MapRegsKept z s) (r : LineReq) : MapRegsKept z (phcRequest s r) := (h.updPhc _).phcLookup r

theorem writeBack (h : MapRegsKept z s) (l : List (Nat × PhcLine)) : MapRegsKept z (writeBack s l) :=
  h.of_only (writeBack_frame (F := besideRegs) (OnlyChanges.refl _ s) (by decide) (by decide)) (by decide)
theorem wayDisable (h : MapRegsKept z s) (way set : Nat) : MapRegsKept z (wayDisable s way set) := by
  unfold Machine.wayDisable
  split
  · exact .raise (.wr (h.wrField (Reg.sts .phc) 19 19 1 (by decide)) Reg.phcFault _ (by decide)) 52
  · exact ((h.updPhc _).writeBack _).updPhc _

/-! ## Reports and repairs of DRAM (R307, R311 to R314) -/

theorem drcReport (h : MapRegsKept z s) (cls unit : Nat) : MapRegsKept z (drcReport s cls unit) := by
  have hlog : MapRegsKept z (if rdField s (drc 0x2C) 2 0 = 0 then Machine.wr s (drc 0x30) (2 ^ 63 + cls * 2 ^ 36 + unit % 2 ^ 30 * 64)
    else s) := .ite (h.wr _ _ (by decide)) h
  exact .raise (.orReg (.ite hlog (hlog.satAdd (drc 0x40) 31 0 1 (by decide))) (drc 0x2C) _ (by decide)) _
theorem retirePage (h : MapRegsKept z s) (addr : Nat) : MapRegsKept z (retirePage s addr) :=
  .ite (h.raise 71) ((h.wr (drc 0x44) _ (by decide)).updMem _).repairWritten
theorem retireLine (h : MapRegsKept z s) (addr : Nat) : MapRegsKept z (retireLine s addr) := .ite (h.raise 71) (h.of_regs rfl)
theorem retireRow (h : MapRegsKept z s) (unit addr : Nat) : MapRegsKept z (retireRow s unit addr) := by
  have hlisted := h.addRepair { kind := 1, unit, addr }
  have hfree := (hlisted.freshBelow (phcWays (Machine.addRepair s { kind := 1, unit, addr }))).freshBelow
    (phcSets (Machine.freshBelow (Machine.addRepair s { kind := 1, unit, addr }) (phcWays (Machine.addRepair s { kind := 1, unit, addr }))).1)
  exact .ite hlisted (.ite ((hfree.wayDisable _ _).updPhc _) hfree)
theorem lastGasp (h : MapRegsKept z s) (code origin : Nat) (pl : List Byte) : MapRegsKept z (lastGasp s code origin pl) := h.of_regs rfl
theorem noteCause (h : MapRegsKept z s) (a bit src : Nat) (ha : a < 0x30000 ∨ 0x40000 ≤ a) : MapRegsKept z (noteCause s a bit src) :=
  (h.orReg a _ ha).raise src
theorem recFail (h : MapRegsKept z s) (cond off : Nat) : MapRegsKept z (recFail s cond off) := by
  unfold Machine.recFail
  split
  · exact h
  · refine noteCause (wrField ?_ (Reg.sts .evr) 17 17 1 (by decide)) Reg.evrCause 3 138 (by decide)
    exact h.of_regs rfl

theorem hardFault (h : MapRegsKept z s) (mem unit addr : Nat) : MapRegsKept z (hardFault s mem unit addr) := by
  have hnoted := (h.wr (scb 0x60) (2 ^ 63 + mem * 2 ^ 61 + unit * 2 ^ 57 + addr % 2 ^ 40) (by decide)).raise 70
  unfold Machine.hardFault
  dsimp only
  split
  · exact hnoted.retirePage addr
  split
  · exact .ite (.recFail (hnoted.retireLine addr) 4 _) (hnoted.retireLine addr)
  · exact hnoted.retireRow unit addr
theorem offender (h : MapRegsKept z s) (mem unit addr : Nat) : MapRegsKept z (offender s mem unit addr) := by
  unfold Machine.offender
  split
  · exact .ite (.hardFault (h.updMem _) _ _ _) (h.updMem _)
  · dsimp only
    split
    · exact h.updMem _
    split
    · exact h.satAdd (scb 0x5C) 31 0 1 (by decide)
    · split
      · exact h.updMem _
      · exact h

theorem devFail_outside (i : Nat) : devFail i < 0x30000 ∨ 0x40000 ≤ devFail i := by
  unfold devFail drc
  omega
theorem declareFailed (h : MapRegsKept z s) (i pos : Nat) : MapRegsKept z (declareFailed s i pos) := by
  have ha := devFail_outside i
  unfold Machine.declareFailed
  split
  · exact .addRepair (.raise (.orReg (.wrField (h.wr _ _ ha) _ 20 16 pos ha) (drc 0x2C) 8 (by decide)) 66) _
  split
  · exact h
  · exact .raise (.orReg (.wrField (h.wrField _ 15 15 1 ha) _ 12 8 pos ha) (drc 0x2C) 16 (by decide)) 66
theorem deviceHit (h : MapRegsKept z s) (unit pos : Nat) : MapRegsKept z (deviceHit s unit pos) :=
  .ite (h.updMem _) (.declareFailed (h.updMem _) _ pos)

theorem patrolUnit (h : MapRegsKept z s) (unit : Nat) : MapRegsKept z (patrolUnit s unit) :=
  h.of_only (patrolUnit_frame (F := [.pat]) (OnlyChanges.refl _ s) (by decide)) (by decide)
theorem dramReport (h : MapRegsKept z s) (unit : Nat) (r : UnitRead) : MapRegsKept z (dramReport s unit r) := by
  unfold Machine.dramReport
  dsimp only
  split
  · exact h.updMem _
  · exact .ite (h.updMem _) (.offender (.deviceHit (.satAdd (h.updMem _) (drc 0x38) 63 0 1 (by decide)) _ _) 0 0 _)
  · exact .patrolUnit (.drcReport (h.updMem _) 0 unit) unit
  · exact .patrolUnit (.drcReport (h.updMem _) 1 unit) unit
  · exact .drcReport (h.updMem _) 2 unit
theorem lostLine (h : MapRegsKept z s) (seg : Option Nat) : MapRegsKept z (lostLine s seg) := by
  cases seg with
  | none => exact h
  | some g => exact h.of_regs rfl
theorem dramRead (h : MapRegsKept z s) (unit : Nat) (r : UnitRead) : MapRegsKept z (dramRead s unit r) :=
  .ite (.lostLine (h.dramReport unit r) _) (h.dramReport unit r)

/-! ## The merge buffer, and accesses beside the cache (R163, R303) -/

theorem mergeRmw (h : MapRegsKept z s) (e : MergeEnt) (r : UnitRead) : MapRegsKept z (mergeRmw s e r) := by
  have hread := (h.satAdd (drc 0x5C) 31 0 1 (by decide)).dramRead e.line r
  unfold Machine.mergeRmw
  dsimp only
  split
  · exact (hread.putDramLine _ _).updMem _
  · exact hread.putDramLine _ _
theorem flushEnt (h : MapRegsKept z s) (e : MergeEnt) (r : UnitRead) : MapRegsKept z (flushEnt s e r) :=
  .ite (h.phcRequest _) (.ite (h.putDramLine _ _) (h.mergeRmw e r))
theorem flushOne (h : MapRegsKept z s) (line : Nat) : MapRegsKept z (flushOne s line) := by
  unfold Machine.flushOne
  split
  · exact .flushEnt (h.updMem _) _ _
  · exact h
theorem flushLine (h : MapRegsKept z s) (line : Nat) : MapRegsKept z (flushLine s line) :=
  .ite (.foldl (fun _ l hx => hx.flushOne l) _ h) h
theorem directWrite (h : MapRegsKept z s) (a : Nat) (bytes : List Byte) : MapRegsKept z (directWrite s a bytes) := by
  refine .foldl (fun x u hx => ?_) _ h
  exact .ite (((hx.flushLine u).putDramLine u _).updMem _) ((hx.flushLine u).putDramLine u _)
theorem clientAccess (h : MapRegsKept z s) (r : LineReq) : MapRegsKept z (clientAccess s r) := by
  unfold Machine.clientAccess
  split
  · exact .phcRequest (h.flushLine r.line) r
  split
  · exact .ite ((h.updMem _).flushLine r.line) (h.updMem _)
  · have hroom : MapRegsKept z (if 32 ≤ s.mem.merge.length then
        (match s.mem.merge with | o :: _ => Machine.flushLine s o.line | [] => s) else s) := by
      refine .ite ?_ h
      split
      · exact h.flushLine _
      · exact h
    exact hroom.updMem _

/-! ## The threshold table (R219, R220) -/

theorem ttFetch (h : MapRegsKept z s) (addr : Nat) : MapRegsKept z (ttFetch s addr) := h.clientAccess _
theorem ttStore (h : MapRegsKept z s) (addr : Nat) (e : TtEntry) : MapRegsKept z (ttStore s addr e) := (h.updJrc _).clientAccess _
theorem ttUse (h : MapRegsKept z s) (lun block page : Nat) : MapRegsKept z (ttUse s lun block page).1 := by
  have hf := h.ttFetch (ttAddr s lun block page)
  unfold Machine.ttUse
  dsimp only
  split
  · exact hf
  · exact .ttStore (.ite (hf.ttFetch _) ((hf.ttFetch _).ttFetch _)) _ _
theorem ttTracked (h : MapRegsKept z s) (lun block page : Nat) : MapRegsKept z (ttTracked s lun block page).1 := h.ttUse lun block page

/-! ## Grants of flash operations (R201, R204, R372) -/

theorem chn_outside (c off : Nat) : chn c off < 0x30000 ∨ 0x40000 ≤ chn c off := by
  unfold chn
  omega
theorem dst_outside (d off : Nat) : dst d off < 0x30000 ∨ 0x40000 ≤ dst d off := by
  unfold dst
  omega

theorem snapCapture (h : MapRegsKept z s) (c kinds : Nat) (lun : Option Nat) : MapRegsKept z (snapCapture s c kinds lun) :=
  .ite (h.satAdd _ 31 16 1 (chn_outside c 0xD8)) ((h.modCourier c _).raiseWith _ _ _)
theorem chnCauseSet (h : MapRegsKept z s) (c bit : Nat) (lun : Option Nat) : MapRegsKept z (chnCauseSet s c bit lun) := by
  have hset := h.orReg (chn c 0x44) (2 ^ bit) (chn_outside c 0x44)
  have hsnap : MapRegsKept z (snapTrigger (Machine.orReg s (chn c 0x44) (2 ^ bit)) c bit (3 + bit) lun) := .ite (hset.snapCapture c _ lun) hset
  exact .ite h (.ite (hsnap.raise c) hsnap)
theorem dstCauseSet (h : MapRegsKept z s) (d bit : Nat) : MapRegsKept z (dstCauseSet s d bit) := h.setCause _ bit _ (dst_outside d 0x24)
theorem startOp (h : MapRegsKept z s) (id : Nat) (o : FOp) : MapRegsKept z (startOp s id o) := by
  unfold Machine.startOp
  exact .ite (.ite (h.modOp id _) (.chnCauseSet (.satAdd (h.modOp id _) _ 31 0 1 (chn_outside _ 0x68)) _ 5 _)) (h.modOp id _)
theorem granted (h : MapRegsKept z s) (a : Ask) (o : FOp) : MapRegsKept z (granted s a o) := by
  have hstart : MapRegsKept z (if a.bus then Machine.startUnit s a.id o else Machine.startOp s a.id o) :=
    .ite (h.startUnit a.id o) (h.startOp a.id o)
  exact .ite (.dstCauseSet (.satAdd (hstart.modOp _ _) _ 31 0 1 (dst_outside _ 0x20)) _ 0) (hstart.modOp _ _)
theorem grant (h : MapRegsKept z s) (d : Nat) (l : List Ask) (blocked : Nat) : MapRegsKept z (grant d l blocked s) := by
  induction l generalizing s blocked with
  | nil => exact h
  | cons a r ih =>
    unfold Machine.grant
    split
    · exact ih h _
    split
    · exact h
    split
    · exact ih (h.granted a _) _
    · exact ih (.ite (.dstCauseSet (h.modOp a.id _) d 1) (h.modOp a.id _)) _
theorem grants (h : MapRegsKept z s) (d : Nat) : MapRegsKept z (grants s d) := .ite h ((h.grant d _ 9).grant d _ 9)
theorem pump (h : MapRegsKept z s) : MapRegsKept z (pump s) := by
  have hfill : MapRegsKept z (refill s) := h.of_only (refill_frame (F := [.flash]) (OnlyChanges.refl _ s) (by decide)) (by decide)
  exact .foldl (fun _ d hx => hx.grants d) _ hfill

end MapRegsKept

end Sys2Proof.Machine
end

section
/-! PROOFS. Retired LUNs: what grants, reads and pacing keep of the LUNs that operations name (R255), and the jobs of the map
engine (R245). Settles jobSubmit and jobRefused of O37. -/

namespace Sys2Proof.Machine

variable {s t z : State}

/-! ## The LUNs of the operations under way -/

/-- The LUN of each operation, in their order. -/
def opLuns (s : State) : List Nat := s.flash.ops.map fun o => o.2.lun

theorem opLuns_of_flash (h : t.flash = s.flash) : opLuns t = opLuns s := by rw [opLuns, h, opLuns]
theorem opLuns_ite {c : Prop} [Decidable c] {l : List Nat} (h : opLuns s = l) (k : opLuns t = l) : opLuns (if c then s else t) = l := by
  split <;> assumption
theorem opLuns_modOp (s : State) (id : Nat) {f : FOp → FOp} (hf : ∀ o, (f o).lun = o.lun) : opLuns (modOp s id f) = opLuns s :=
  map_nmod hf s.flash.ops id
theorem opLuns_modCourier (s : State) (c : Nat) (f : Courier → Courier) : opLuns (modCourier s c f) = opLuns s := rfl
theorem opLuns_raise (s : State) (n : Nat) : opLuns (raise s n) = opLuns s := opLuns_of_flash (raise_flash s n)
theorem opLuns_snapCapture (s : State) (c kinds : Nat) (lun : Option Nat) : opLuns (snapCapture s c kinds lun) = opLuns s :=
  opLuns_ite rfl ((opLuns_of_flash (raiseWith_flash _ _ _)).trans (opLuns_modCourier s c _))
theorem opLuns_chnCauseSet (s : State) (c bit : Nat) (lun : Option Nat) : opLuns (chnCauseSet s c bit lun) = opLuns s := by
  have hsnap : opLuns (snapTrigger (orReg s (chn c 0x44) (2 ^ bit)) c bit (3 + bit) lun) = opLuns s :=
    opLuns_ite (opLuns_snapCapture _ _ _ _) rfl
  exact opLuns_ite rfl (opLuns_ite ((opLuns_raise _ _).trans hsnap) hsnap)
theorem opLuns_dstCauseSet (s : State) (d bit : Nat) : opLuns (dstCauseSet s d bit) = opLuns s :=
  opLuns_of_flash (dstCauseSet_flash s d bit)

theorem opLuns_startOp (s : State) (id : Nat) (o : FOp) : opLuns (startOp s id o) = opLuns s := by
  have hrun := opLuns_modOp s id (f := fun x => { x with st := .running, resume := false }) fun _ => rfl
  exact opLuns_ite (opLuns_ite hrun ((opLuns_chnCauseSet _ _ _ _).trans hrun)) (opLuns_modOp s id fun _ => rfl)
theorem opLuns_granted (s : State) (a : Ask) (o : FOp) : opLuns (granted s a o) = opLuns s := by
  have hstart : opLuns (if a.bus then startUnit s a.id o else startOp s a.id o) = opLuns s :=
    opLuns_ite (opLuns_modCourier s _ _) (opLuns_startOp s _ _)
  have hmod := (opLuns_modOp (if a.bus then startUnit s a.id o else startOp s a.id o) a.id (f := fun x => { x with wait := none })
    fun _ => rfl).trans hstart
  exact opLuns_ite ((opLuns_dstCauseSet _ _ _).trans hmod) hmod
theorem opLuns_grant (d : Nat) (l : List Ask) (blocked : Nat) (s : State) : opLuns (grant d l blocked s) = opLuns s := by
  induction l generalizing blocked s with
  | nil => rfl
  | cons a r ih =>
    unfold grant
    split
    · exact ih _ _
    split
    · rfl
    split
    · exact (ih _ _).trans (opLuns_granted _ _ _)
    · have hwait := opLuns_modOp s a.id (f := fun x => { x with wait := some (x.wait.getD s.clk.tb) }) fun _ => rfl
      exact (ih _ _).trans (opLuns_ite ((opLuns_dstCauseSet _ _ _).trans hwait) hwait)
theorem opLuns_grants (s : State) (d : Nat) : opLuns (grants s d) = opLuns s :=
  opLuns_ite rfl ((opLuns_grant _ _ _ _).trans (opLuns_grant _ _ _ _))
theorem opLuns_queueOp (s : State) (x : Nat × FOp) : opLuns (queueOp s x) = opLuns s :=
  opLuns_ite (opLuns_modOp s _ fun _ => rfl) rfl
/-- Grants move operations on; they change no operation's LUN. -/
theorem opLuns_pump (s : State) : opLuns (pump s) = opLuns s :=
  (foldl_view (v := opLuns) opLuns_grants _ _).trans (foldl_view (v := opLuns) opLuns_queueOp _ _)

/-! ## No LUN is retired -/

theorem lunChn_lt (n : Nat) : lunChn n < 32 := Nat.mod_lt _ (by decide)

theorem lunRetired_of_regs (h : MapRegsKept s t) {c : Nat} (hc : c < 32) (p : Nat) : lunRetired t c p = lunRetired s c p := by
  rw [lunRetired, lunRetired, bit32, bit32, bit32, bit32, h (rLunRet c) (by unfold rLunRet; omega) (by unfold rLunRet; omega),
    h rChRet (by decide) (by decide)]

theorem noneRetired_iff : Claims.NoneRetired s ↔ (∀ c, c < 32 → ∀ p, p < 32 → lunRetired s c p = false) ∧
    ∀ l ∈ opLuns s, lunRetired s (lunChn l) (lunPos l) = false := by
  simp only [Claims.NoneRetired, opLuns, List.forall_mem_map]

/-- What keeps the map engine's registers, and adds operations on LUNs there are only, retires none. -/
theorem noneRetired_of (h : Claims.NoneRetired s) (hr : ∀ c, c < 32 → ∀ p, lunRetired t c p = lunRetired s c p)
    (hl : ∀ l ∈ opLuns t, l ∈ opLuns s ∨ l < 1024) : Claims.NoneRetired t := by
  obtain ⟨hall, hops⟩ := noneRetired_iff.mp h
  refine noneRetired_iff.mpr ⟨fun c hc p hp => (hr c hc p).trans (hall c hc p hp), fun l hm => ?_⟩
  rw [hr _ (lunChn_lt l)]
  rcases hl l hm with hm | hlt
  · exact hops l hm
  · exact hall _ (lunChn_lt l) _ (by unfold lunPos; omega)

theorem noneRetired_kept (h : Claims.NoneRetired s) (hr : MapRegsKept s t) (hl : opLuns t = opLuns s) : Claims.NoneRetired t :=
  noneRetired_of h (fun _ hc p => lunRetired_of_regs hr hc p) fun _ hm => .inl (hl ▸ hm)
theorem noneRetired_pump (h : Claims.NoneRetired s) : Claims.NoneRetired (pump s) :=
  noneRetired_kept h (.pump (.refl s)) (opLuns_pump s)
theorem noneRetired_addOp (h : Claims.NoneRetired s) (o : FOp) (ho : o.lun < 1024) : Claims.NoneRetired (addOp s o) := by
  refine noneRetired_of h (fun _ hc p => lunRetired_of_regs (MapRegsKept.updFlash (.refl s) _) hc p) fun l hm => ?_
  obtain ⟨e, he, rfl⟩ := List.mem_map.mp hm
  rcases mem_of_nset he with he | rfl
  · exact .inl (List.mem_map.mpr ⟨e, he, rfl⟩)
  · exact .inr ho
theorem noneRetired_foldl {α : Type} {g : State → α → State} (hg : ∀ x a, Claims.NoneRetired x → Claims.NoneRetired (g x a)) (l : List α)
    (h : Claims.NoneRetired s) : Claims.NoneRetired (l.foldl g s) := by
  induction l generalizing s with
  | nil => exact h
  | cons a r ih => exact ih (hg s a h)

/-- Reads of positions of the map begin: a PPA names a LUN below 1,024 (Table 5-1). -/
theorem noneRetired_addReads (h : Claims.NoneRetired s) (cls : Nat) (ps : List (Nat × Req)) : Claims.NoneRetired (addReads s cls ps) := by
  refine noneRetired_foldl (fun x g hx => ?_) _ (noneRetired_foldl (fun x r hx => ?_) _ h)
  · have hflash : (ttTracked x (ppaLun g) (ppaBlock g) (ppaPage g)).1.flash = x.flash :=
      (ttTracked_frame (F := allParts.filter fun p => p != .flash) (OnlyChanges.refl _ x) (by decide) (by decide) (by decide) (by decide)
        (by decide) (by decide) (by decide) (by decide) (by decide) (by decide) (by decide)).same .flash (by decide)
    exact noneRetired_addOp (noneRetired_kept hx (.ttTracked (.refl x) _ _ _) (opLuns_of_flash hflash)) _ (Nat.mod_lt _ (by decide))
  · exact noneRetired_kept hx (MapRegsKept.updFlash (.refl x) _) rfl

/-- Where no LUN is retired, no read is lost with one. -/
theorem lostReads_none (h : Claims.NoneRetired s) : lostReads s = s := by
  have hnone : (s.flash.ops.filter fun o => o.2.kind == .read && o.2.st != .running && lunRetired s (lunChn o.2.lun) (lunPos o.2.lun)) = [] :=
    List.filter_eq_nil_iff.mpr fun o ho => by simp [h.2 o ho]
  unfold lostReads
  rw [hnone]
  rfl

/-! ## Reads of a relocation (R242, R249) -/

/-- The parts that reads and accesses to memory write: every one but the map engine's own. -/
def besideMap : List Part := allParts.filter fun p => p != .map

theorem addReads_map (s : State) (cls : Nat) (ps : List (Nat × Req)) : (addReads s cls ps).map = s.map :=
  (addReads_frame (F := besideMap) (OnlyChanges.refl _ s) (by decide) (by decide) (by decide) (by decide) (by decide) (by decide)
    (by decide) (by decide) (by decide) (by decide) (by decide) (by decide)).same .map (by decide)
theorem directWrite_only (s : State) (a : Nat) (bytes : List Byte) :
    OnlyChanges (besideMap.filter fun p => p != .flash) s (directWrite s a bytes) :=
  directWrite_frame (OnlyChanges.refl _ s) (by decide) (by decide) (by decide) (by decide) (by decide) (by decide)
    (by decide) (by decide) (by decide) (by decide) (by decide)
theorem directWrite_map (s : State) (a : Nat) (bytes : List Byte) : (directWrite s a bytes).map = s.map :=
  (directWrite_only s a bytes).same .map (by decide)
theorem directWrite_flash (s : State) (a : Nat) (bytes : List Byte) : (directWrite s a bytes).flash = s.flash :=
  (directWrite_only s a bytes).same .flash (by decide)
theorem pump_map (s : State) : (pump s).map = s.map :=
  (pump_frame (F := besideMap) (OnlyChanges.refl _ s) (by decide) (by decide) (by decide) (by decide) (by decide) (by decide)).same
    .map (by decide)

theorem MapRegsKept.updMap (h : MapRegsKept z s) (f : MapEng → MapEng) : MapRegsKept z (updMap s f) := h.of_regs rfl
theorem MapRegsKept.updTab (h : MapRegsKept z s) (f : MapTab → MapTab) : MapRegsKept z (updTab s f) := h.of_regs rfl
theorem MapRegsKept.modReloc (h : MapRegsKept z s) (id : Nat) (f : Reloc → Reloc) : MapRegsKept z (modReloc s id f) := h.updMap _
theorem MapRegsKept.addOp (h : MapRegsKept z s) (o : FOp) : MapRegsKept z (addOp s o) := h.updFlash _
theorem MapRegsKept.addReads (h : MapRegsKept z s) (cls : Nat) (ps : List (Nat × Req)) : MapRegsKept z (addReads s cls ps) :=
  .foldl (fun _ _ hx => (hx.ttTracked _ _ _).addOp _) _ (.foldl (fun _ _ hx => hx.updFlash _) _ h)
theorem MapRegsKept.paceBack (h : MapRegsKept z s) (x : Nat × Reloc) : MapRegsKept z (paceBack s x) :=
  .ite h ((h.updFlash _).modReloc _ _)
theorem MapRegsKept.paceJob (h : MapRegsKept z s) (x : Nat × Reloc) : MapRegsKept z (paceJob s x) :=
  .ite h ((h.modReloc _ _).addReads _ _)
theorem MapRegsKept.reclaimPace (h : MapRegsKept z s) : MapRegsKept z (reclaimPace s) :=
  .ite h (.pump (.foldl (fun _ x hx => hx.paceJob x) _ (.foldl (fun _ x hx => hx.paceBack x) _ h)))

theorem noneRetired_paceBack (h : Claims.NoneRetired s) (x : Nat × Reloc) : Claims.NoneRetired (paceBack s x) := by
  unfold paceBack
  split
  · exact h
  · refine noneRetired_of h (fun _ hc p => lunRetired_of_regs (((MapRegsKept.refl s).updFlash _).modReloc _ _) hc p) fun l hm => .inl ?_
    obtain ⟨e, he, rfl⟩ := List.mem_map.mp hm
    exact List.mem_map.mpr ⟨e, (List.mem_filter.mp he).1, rfl⟩
/-- A victim job reads nothing, or moves page groups from what is left to what is read, and reads them (Table 9-10). -/
theorem paceJob_cases (s : State) (x : Nat × Reloc) : paceJob s x = s ∨ ∃ f ps, paceJob s x = addReads (modReloc s x.1 f) 2 ps := by
  unfold paceJob
  lift_lets
  intro r rate take
  split
  · exact .inl rfl
  · exact .inr ⟨_, _, rfl⟩
theorem noneRetired_paceJob (h : Claims.NoneRetired s) (x : Nat × Reloc) : Claims.NoneRetired (paceJob s x) := by
  rcases paceJob_cases s x with hs | ⟨f, ps, hs⟩
  · rwa [hs]
  · rw [hs]
    exact noneRetired_addReads (noneRetired_kept h ((MapRegsKept.refl s).modReloc _ _) rfl) _ _
theorem noneRetired_reclaimPace (h : Claims.NoneRetired s) : Claims.NoneRetired (reclaimPace s) := by
  unfold reclaimPace
  split
  · exact h
  · exact noneRetired_pump (noneRetired_foldl (fun _ x hx => noneRetired_paceJob hx x) _
      (noneRetired_foldl (fun _ x hx => noneRetired_paceBack hx x) _ h))

/-- What the map engine holds beside its relocations. -/
def besideRelocs (s : State) : MapEng := { s.map with relocs := [] }

theorem besideRelocs_of_map (h : t.map = s.map) : besideRelocs t = besideRelocs s := by rw [besideRelocs, h, besideRelocs]
/-- Pacing moves page groups within the victim jobs, and changes nothing else of the map engine (R249). -/
theorem besideRelocs_reclaimPace (s : State) : besideRelocs (reclaimPace s) = besideRelocs s := by
  have hback : ∀ (x : State) (r : Nat × Reloc), besideRelocs (paceBack x r) = besideRelocs x := fun x r => by
    unfold paceBack
    split <;> rfl
  have hjob : ∀ (x : State) (r : Nat × Reloc), besideRelocs (paceJob x r) = besideRelocs x := fun x r => by
    rcases paceJob_cases x r with hs | ⟨f, ps, hs⟩
    · rw [hs]
    · rw [hs, besideRelocs_of_map (addReads_map _ _ _)]
      rfl
  unfold reclaimPace
  split
  · rfl
  · exact (besideRelocs_of_map (pump_map _)).trans ((foldl_view hjob _ _).trans (foldl_view hback _ _))

/-- Where no superblock is open and no page group waits, reads that are over leave the grants only. -/
theorem readsOver_still (hret : Claims.NoneRetired s) (hopen : s.map.opens = []) (hpgs : s.map.pgs = []) (hpin : s.map.pinHold = []) :
    readsOver s = pump s := by
  have hfold : ∀ k, foldStream s k = s := fun k => by simp [foldStream, placeAll, hopen, hpgs, nget]
  have hturn : turn s = pump s := by rw [turn, foldl_id _ fun k _ => hfold k]
  rw [readsOver, lostReads_none hret, hturn]
  simp [settlePins, pump_map, hpin]

/-! ## A job is submitted (R245) -/

theorem writeAccess_jobHead {i : Initiator} (h : coreAccess s i .map 0 = true) (head : Nat) (js : List JobReq) :
    writeAccess s i 0x300F8 4 head { jobs := some js } = readsOver (jobSubmit (jobPlace s js) (head % 2 ^ 32) js) := by
  rw [writeAccess_word (x := single 0xF8 [rw 7 0]) h rfl rfl rfl rfl, regStore_accepted rfl rfl rfl fun _ => rfl]
  rfl

/-- The state in which the entry of a job at the ring's head is next to be taken. -/
def jobQueued (s : State) (j : JobReq) : State :=
  let old := rdField s 0x300F8 7 0
  updMap (wr (jobPlace s [j]) 0x300F8 ((old + 1) % 256)) fun m => { m with jobs := m.jobs ++ [(old, j)], jobStat := nset m.jobStat old 0 }

theorem jobPlace_one (s : State) (j : JobReq) :
    ∃ a bytes, jobPlace s [j] = directWrite s a bytes := ⟨_, _, rfl⟩

theorem jobSubmit_one {head : Nat} (hh : head = (rdField s 0x300F8 7 0 + 1) % 256) (hjobs : s.map.jobs = []) (j : JobReq) :
    jobSubmit (jobPlace s [j]) (head % 2 ^ 32) [j] = takeJobs 2 (jobQueued s j) := by
  obtain ⟨a, bytes, hplace⟩ := jobPlace_one s j
  have hlt : rdField s 0x300F8 7 0 < 256 := bitsOf_lt _ 7 0
  have hold : rdField (jobPlace s [j]) 0x300F8 7 0 = rdField s 0x300F8 7 0 := by
    rw [hplace, rdField, MapRegsKept.directWrite (.refl s) a bytes 0x300F8 (by decide) (by decide), rdField]
  have hmod : head % 2 ^ 32 % 256 = (rdField s 0x300F8 7 0 + 1) % 256 := by omega
  have hone : ((rdField s 0x300F8 7 0 + 1) % 256 + 256 - rdField s 0x300F8 7 0) % 256 = 1 := by omega
  have hmap : (jobPlace s [j]).map = s.map := by rw [hplace, directWrite_map]
  have hidx : (rdField s 0x300F8 7 0 + 0) % 256 = rdField s 0x300F8 7 0 := Nat.mod_eq_of_lt hlt
  have hentries : ((List.range 1).map fun i => (rdField s 0x300F8 7 0 + i) % 256).zip [j] = [(rdField s 0x300F8 7 0, j)] :=
    congrArg (fun n => [(n, j)]) hidx
  unfold jobSubmit
  dsimp only
  rw [hmod, hold, hone, hentries]
  have hlen : ((jobPlace s [j]).map.jobs ++ [(rdField s 0x300F8 7 0, j)]).length = 1 := by rw [hmap, hjobs]; rfl
  exact congrArg (fun n => takeJobs (n + 1) (jobQueued s j)) hlen

/-- The ring's first entry leaves the queue, and the ring's tail passes it. -/
def jobTaken (s : State) (idx : Nat) (rest : List (Nat × JobReq)) : State :=
  wr (updMap s fun m => { m with jobs := rest }) 0x300FC ((idx + 1) % 256)

theorem takeJobs_empty (h : s.map.jobs = []) (n : Nat) : takeJobs n s = s := by
  cases n <;> simp [takeJobs, h]
/-- A job on an SBID that no superblock has is refused (Table 9-5). -/
theorem takeJobs_unknown {idx n : Nat} {j : JobReq} {rest : List (Nat × JobReq)} (hj : s.map.jobs = (idx, j) :: rest)
    (hrun : jobsRunning s < 4) (hsb : sbxBySbid s j.sbid = none) :
    takeJobs (n + 1) s = takeJobs n (jobWrite (jobTaken s idx rest) idx { sbx := 0 } 3) := by
  have hsb' : sbxBySbid (wr (updMap s fun m => { m with jobs := rest }) 0x300FC ((idx + 1) % 256)) j.sbid = none := hsb
  have hfew : ¬ 4 ≤ jobsRunning s := by omega
  simp only [takeJobs, hj, hfew, if_false, hsb', Option.bind_none]
  rfl

/-- The state in which a job over a whole superblock starts: the superblock is a victim with a job, and STATUS is 1. -/
def jobBegun (s : State) (idx x : Nat) (rest : List (Nat × JobReq)) : State :=
  let taken := modSb (jobTaken s idx rest) x fun b => { b with st := 3, job := true }
  let noted := updMap taken fun m => { m with jobStat := nset m.jobStat idx 1, forced := m.forced.filter (· != x) }
  directWrite noted (jobAddr noted idx + 26) [1]

/-- A job of OP 1 on a sealed superblock is taken (Table 9-3). -/
theorem takeJobs_whole {idx n x : Nat} {j : JobReq} {b : Sb} {rest : List (Nat × JobReq)} (hj : s.map.jobs = (idx, j) :: rest)
    (hrun : jobsRunning s < 4) (hsb : sbxBySbid s j.sbid = some x) (hb : nget s.map.tab.sbs x = some b) (hst : b.st = 2) (hop : j.op = 1)
    (hrsvd : j.rsvd = 0) (hlow : 16 ≤ j.stream) (hhigh : j.stream ≤ 21) :
    ∃ r pgs, r.idx = some idx ∧ r.op = 1 ∧ takeJobs (n + 1) s = takeJobs n (startReloc (jobBegun s idx x rest) r pgs) := by
  have hsb' : sbxBySbid (wr (updMap s fun m => { m with jobs := rest }) 0x300FC ((idx + 1) % 256)) j.sbid = some x := hsb
  have hfew : ¬ 4 ≤ jobsRunning s := by omega
  have hne : ¬ j.op = 4 := by omega
  refine ⟨{ idx := some idx, sbx := x, op := j.op, stream := j.stream, member := j.member, first := j.first, last := j.last },
    jobPages b b.dataMems 0 b.rows, rfl, hop, ?_⟩
  simp only [takeJobs, hj, hfew, ↓reduceIte, hsb', wr_map, updMap_map, Option.bind_some, hb, Option.map_some, hrsvd, bne_self_eq_false,
    hop, decide_true, OfNat.one_ne_ofNat, decide_false, Bool.or_false, Bool.not_true, Bool.or_self, Nat.reduceBNe, hlow, hhigh,
    Bool.and_self, Bool.and_false, Bool.false_eq_true, hst, BEq.rfl, Nat.reduceBEq, BitVec.ofNat_eq_ofNat]
  rfl

theorem jobPlace_map (s : State) (j : JobReq) : (jobPlace s [j]).map = s.map := directWrite_map _ _ _
theorem jobPlace_flash (s : State) (j : JobReq) : (jobPlace s [j]).flash = s.flash := directWrite_flash _ _ _
theorem jobQueued_map (s : State) (j : JobReq) : (jobQueued s j).map = { s.map with
    jobs := s.map.jobs ++ [(rdField s 0x300F8 7 0, j)], jobStat := nset s.map.jobStat (rdField s 0x300F8 7 0) 0 } := by
  rw [jobQueued, updMap_map, wr_map, jobPlace_map]
theorem jobQueued_flash (s : State) (j : JobReq) : (jobQueued s j).flash = s.flash := by
  rw [jobQueued, updMap_flash, wr_flash, jobPlace_flash]
theorem head_jobQueued (s : State) (j : JobReq) : rdField (jobQueued s j) 0x300F8 7 0 = (rdField s 0x300F8 7 0 + 1) % 256 := by
  rw [jobQueued, rdField, rd_updMap, rd_wr_same, bitsOf_mod64 _ _ _ (by decide), bitsOf, Nat.pow_zero, Nat.div_one]
  exact Nat.mod_mod _ _

/-- The registers below MAP_CHRET, the job ring's among them, retire no LUN (Table 9-14). -/
theorem noneRetired_wr (h : Claims.NoneRetired s) {a : Nat} (ha : a < 0x30110) (v : Nat) : Claims.NoneRetired (wr s a v) := by
  have hsame : ∀ c, c < 32 → ∀ p, lunRetired (wr s a v) c p = lunRetired s c p := fun c hc p => by
    have hlun : rLunRet c ≠ a := by unfold rLunRet; omega
    have hchn : rChRet ≠ a := by unfold rChRet; omega
    simp only [lunRetired, bit32, rd_wr_other _ _ hlun, rd_wr_other _ _ hchn]
  exact noneRetired_of h hsame fun _ hm => .inl hm
theorem noneRetired_updMap (h : Claims.NoneRetired s) (f : MapEng → MapEng) : Claims.NoneRetired (updMap s f) := h
theorem noneRetired_jobTaken (h : Claims.NoneRetired s) (idx : Nat) (rest : List (Nat × JobReq)) : Claims.NoneRetired (jobTaken s idx rest) :=
  noneRetired_wr (noneRetired_updMap h _) (by decide) _
theorem noneRetired_modSb (h : Claims.NoneRetired s) (x : Nat) (f : Sb → Sb) : Claims.NoneRetired (modSb s x f) := h
theorem noneRetired_directWrite (h : Claims.NoneRetired s) (a : Nat) (bytes : List Byte) : Claims.NoneRetired (directWrite s a bytes) :=
  noneRetired_kept h (.directWrite (.refl s) a bytes) (opLuns_of_flash (directWrite_flash s a bytes))
theorem noneRetired_jobQueued (h : Claims.NoneRetired s) (j : JobReq) : Claims.NoneRetired (jobQueued s j) := by
  have hplaced : Claims.NoneRetired (jobPlace s [j]) := noneRetired_directWrite h _ _
  rw [jobQueued]
  exact noneRetired_updMap (noneRetired_wr hplaced (by decide) _) _

theorem jobWrite_map (s : State) (idx : Nat) (r : Reloc) (st : Nat) :
    (jobWrite s idx r st).map = { s.map with jobStat := nset s.map.jobStat idx st } := by
  rw [jobWrite, updMap_map, directWrite_map]
theorem jobWrite_flash (s : State) (idx : Nat) (r : Reloc) (st : Nat) : (jobWrite s idx r st).flash = s.flash := by
  rw [jobWrite, updMap_flash, directWrite_flash]
theorem jobTaken_flash (s : State) (idx : Nat) (rest : List (Nat × JobReq)) : (jobTaken s idx rest).flash = s.flash := rfl
theorem jobTaken_map (s : State) (idx : Nat) (rest : List (Nat × JobReq)) : (jobTaken s idx rest).map = { s.map with jobs := rest } := rfl

theorem jobBegun_map (s : State) (idx x : Nat) (rest : List (Nat × JobReq)) : (jobBegun s idx x rest).map = { s.map with
    tab := { s.map.tab with sbs := nmod s.map.tab.sbs x fun b => { b with st := 3, job := true } },
    jobs := rest, jobStat := nset s.map.jobStat idx 1, forced := s.map.forced.filter (· != x) } := by
  rw [jobBegun, directWrite_map]
  rfl
theorem noneRetired_jobWrite (h : Claims.NoneRetired s) (idx : Nat) (r : Reloc) (st : Nat) : Claims.NoneRetired (jobWrite s idx r st) :=
  noneRetired_updMap (noneRetired_directWrite h _ _) _
theorem noneRetired_jobBegun (h : Claims.NoneRetired s) (idx x : Nat) (rest : List (Nat × JobReq)) :
    Claims.NoneRetired (jobBegun s idx x rest) :=
  noneRetired_directWrite (noneRetired_updMap (noneRetired_modSb (noneRetired_jobTaken h idx rest) x _) _) _ _
theorem head_jobBegun (s : State) (idx x : Nat) (rest : List (Nat × JobReq)) : rd (jobBegun s idx x rest) 0x300F8 = rd s 0x300F8 := by
  rw [jobBegun, MapRegsKept.directWrite (.refl _) _ _ 0x300F8 (by decide) (by decide)]
  exact rd_wr_other _ _ (by decide)

/-- A job of OP 1 is paced from its start (R249). -/
theorem startReloc_paced {r : Reloc} {idx : Nat} (hidx : r.idx = some idx) (hop : r.op = 1) (pgs : List Nat) :
    startReloc s r pgs = reclaimPace (updMap s fun m =>
      { m with relNext := s.map.relNext + 1, relocs := nset m.relocs s.map.relNext { r with todo := pgs } }) := by
  simp [startReloc, hidx, hop]

/-- What a job of OP 1 that starts leaves of the map engine beside its relocations, of its registers and of the LUNs retired. -/
theorem startReloc_kept {r : Reloc} {idx : Nat} (hidx : r.idx = some idx) (hop : r.op = 1) (pgs : List Nat) :
    besideRelocs (startReloc s r pgs) = { s.map with relNext := s.map.relNext + 1, relocs := [] } ∧
      MapRegsKept s (startReloc s r pgs) ∧ (Claims.NoneRetired s → Claims.NoneRetired (startReloc s r pgs)) := by
  rw [startReloc_paced hidx hop]
  exact ⟨besideRelocs_reclaimPace _, ((MapRegsKept.refl s).updMap _).reclaimPace, fun h => noneRetired_reclaimPace (noneRetired_updMap h _)⟩

/-- Where a job over a whole superblock is taken from the ring. -/
theorem takeJobs_jobQueued {x : Nat} {j : JobReq} {b : Sb} (hjobs : s.map.jobs = []) (hrun : jobsRunning s < 4)
    (hsb : sbxBySbid s j.sbid = some x) (hb : nget s.map.tab.sbs x = some b) (hst : b.st = 2) (hop : j.op = 1) (hrsvd : j.rsvd = 0)
    (hlow : 16 ≤ j.stream) (hhigh : j.stream ≤ 21) : ∃ r pgs, r.idx = some (rdField s 0x300F8 7 0) ∧ r.op = 1 ∧
      takeJobs 2 (jobQueued s j) = startReloc (jobBegun (jobQueued s j) (rdField s 0x300F8 7 0) x []) r pgs := by
  have hq := jobQueued_map s j
  have hqueued : (jobQueued s j).map.jobs = [(rdField s 0x300F8 7 0, j)] := by rw [hq, hjobs]; rfl
  obtain ⟨r, pgs, hidx, hrop, htake⟩ := takeJobs_whole (n := 1) hqueued (by rw [jobsRunning, hq]; exact hrun)
    (by rw [sbxBySbid, hq]; exact hsb) (by rw [hq]; exact hb) hst hop hrsvd hlow hhigh
  have hleft := congrArg MapEng.jobs ((startReloc_kept (s := jobBegun (jobQueued s j) (rdField s 0x300F8 7 0) x []) hidx hrop pgs).1.trans
    (by rw [jobBegun_map]))
  exact ⟨r, pgs, hidx, hrop, htake.trans (takeJobs_empty hleft 1)⟩

/-- Where a job on an unknown SBID is taken from the ring. -/
theorem takeJobs_jobQueued_unknown {j : JobReq} (hjobs : s.map.jobs = []) (hrun : jobsRunning s < 4) (hsb : sbxBySbid s j.sbid = none) :
    takeJobs 2 (jobQueued s j) =
      jobWrite (jobTaken (jobQueued s j) (rdField s 0x300F8 7 0) []) (rdField s 0x300F8 7 0) { sbx := 0 } 3 := by
  have hq := jobQueued_map s j
  have hqueued : (jobQueued s j).map.jobs = [(rdField s 0x300F8 7 0, j)] := by rw [hq, hjobs]; rfl
  refine (takeJobs_unknown hqueued (by rw [jobsRunning, hq]; exact hrun) (by rw [sbxBySbid, hq]; exact hsb)).trans (takeJobs_empty ?_ 1)
  rw [jobWrite_map, jobTaken_map]

end Sys2Proof.Machine

namespace Sys2Proof.Proofs
open Sys2Proof.Machine

theorem jobRefused : Claims.jobRefused := by
  intro s i head j hacc hjobs hrun hhead hsb ⟨hopen, hpgs, hops⟩ hpin hret
  have htake := takeJobs_jobQueued_unknown hjobs hrun hsb
  have hmap := (jobWrite_map (jobTaken (jobQueued s j) (rdField s 0x300F8 7 0) []) (rdField s 0x300F8 7 0) { sbx := 0 } 3)
  have hflash := jobWrite_flash (jobTaken (jobQueued s j) (rdField s 0x300F8 7 0) []) (rdField s 0x300F8 7 0) { sbx := 0 } 3
  have hsound := noneRetired_jobWrite (noneRetired_jobTaken (noneRetired_jobQueued hret j) (rdField s 0x300F8 7 0) [])
    (rdField s 0x300F8 7 0) { sbx := 0 } 3
  generalize jobWrite (jobTaken (jobQueued s j) (rdField s 0x300F8 7 0) []) (rdField s 0x300F8 7 0) { sbx := 0 } 3 = u at *
  rw [jobTaken_map, jobQueued_map] at hmap
  rw [jobTaken_flash, jobQueued_flash] at hflash
  have hstep : writeAccess s i 0x300F8 4 head { jobs := some [j] } = u := by
    rw [writeAccess_jobHead hacc, jobSubmit_one hhead hjobs, htake, readsOver_still hsound (by rw [hmap]; exact hopen)
      (by rw [hmap]; exact hpgs) (by rw [hmap]; exact hpin), pump_idle (by rw [hflash]; exact hops)]
  refine completes_eq rfl hstep ?_
  rw [hmap]
  exact ⟨nget_nset_same _ _ _, rfl, rfl⟩

theorem jobSubmit : Claims.jobSubmit := by
  intro s i head x j b hacc hjobs hrun hhead hsb hb hst ⟨hopen, hpgs, hops⟩ hpin hret hop hrsvd hlow hhigh
  obtain ⟨r, pgs, hidx, hrop, htake⟩ := takeJobs_jobQueued hjobs hrun hsb hb hst hop hrsvd hlow hhigh
  obtain ⟨hbeside, hregs, hsound⟩ := startReloc_kept (s := jobBegun (jobQueued s j) (rdField s 0x300F8 7 0) x []) hidx hrop pgs
  generalize startReloc (jobBegun (jobQueued s j) (rdField s 0x300F8 7 0) x []) r pgs = u at htake hbeside hregs hsound
  rw [jobBegun_map, jobQueued_map] at hbeside
  have htab := congrArg MapEng.tab hbeside
  have hstat := congrArg MapEng.jobStat hbeside
  have hleft := congrArg MapEng.jobs hbeside
  have hopens := (congrArg MapEng.opens hbeside).trans hopen
  have hgroups := (congrArg MapEng.pgs hbeside).trans hpgs
  have hpins := (congrArg MapEng.pinHold hbeside).trans hpin
  have hstep : writeAccess s i 0x300F8 4 head { jobs := some [j] } = pump u := by
    rw [writeAccess_jobHead hacc, jobSubmit_one hhead hjobs, htake]
    exact readsOver_still (hsound (noneRetired_jobBegun (noneRetired_jobQueued hret j) _ _ _)) hopens hgroups hpins
  refine completes_eq rfl hstep ⟨?_, ?_, ?_, ?_⟩
  · rw [pump_map, show u.map.tab = _ from htab, nget_nmod_same, hb]
    rfl
  · rw [pump_map, show u.map.jobStat = _ from hstat, nget_nset_same]
  · rw [rdField, MapRegsKept.pump hregs 0x300F8 (by decide) (by decide), head_jobBegun]
    exact (head_jobQueued s j).trans hhead.symm
  · rw [pump_map]
    exact hleft

end Sys2Proof.Proofs
end

section
/-! PROOFS. The timers of the map engine and its victim scans (R139, R143, R147, R239, R244). Settles those claims of O37. -/

namespace Sys2Proof.Machine

variable {s : State}

/-- What a change of every value of a table leaves at a key. -/
theorem nget_mapVals {α β : Type} (m : NMap α) (f : α → β) (k : Nat) : nget (m.map fun e => (e.1, f e.2)) k = (nget m k).map f := by
  induction m with
  | nil => rfl
  | cons e r ih =>
    simp only [List.map_cons, nget, ih]
    split
    · rfl
    split <;> rfl

/-! ## A case that waits for a bundle (R143) -/

/-- What a holder that waited takes: the lowest bundle that is free and not reserved, and nothing else of the map changes but the
mark of pressure. -/
theorem takeBundle_map (s : State) (h : Holder) (nsid p : Nat) :
    ∃ b, (takeBundle s h nsid p).map = { s.map with resv := s.map.resv ++ [(freeBundle s, h, nsid, p)], pressed := b } :=
  poolEvents_map _ _ _

theorem tryReloc_gone {id : Nat} (h : nget s.map.relocs id = none) : tryReloc s id = s := by
  unfold tryReloc
  rw [h]

/-! ## Victim scans (R54, R244) -/

/-- A result's word when its trigger is taken: VALID is 0, GEN is one more, and only that register changes (R54). -/
theorem trig54_begins (s : State) (a : Nat) : rdField (trig54 s a) a 31 31 = 0 ∧
    rdField (trig54 s a) a 15 0 = (rdField s a 15 0 + 1) % 65536 ∧ OnlyChanges [.regs] s (trig54 s a) := by
  refine ⟨?_, ?_, trig54_frame (OnlyChanges.refl _ s) (by decide)⟩
  · rw [trig54, rdField_wrField_other _ _ _ _ _ _ _ (by decide) (by decide), rdField_wrField _ _ _ _ _ (by decide), Nat.zero_mod]
  · rw [trig54, rdField_wrField _ _ _ _ _ (by decide), rdField_wrField_other _ _ _ _ _ _ _ (by decide) (by decide)]
    exact Nat.mod_mod _ _

theorem writeAccess_victimScan {i : Initiator} (h : coreAccess s i .map 0 = true) (hfree : s.map.scanning = false) (v : Word) :
    writeAccess s i 0x300A4 4 (setBits v.toNat 0 0 1) {} = victimScan s := by
  have hbit : bitOf (setBits v.toNat 0 0 1 % 2 ^ 32) 0 = true := bitOf_word_setBits _ _ _ (by decide)
  have hidle : trigBusy s .map 0 0xA4 (setBits v.toNat 0 0 1 % 2 ^ 32) = false := by rw [trigBusy, hfree, Bool.and_false]
  rw [writeAccess_trigger h rfl isTrigger_victimScan rfl]
  simp only [hidle, Bool.false_and, Bool.false_eq_true, if_false]
  have heff : flashEffect s i .map 0 0xA4 (setBits v.toNat 0 0 1 % 2 ^ 32) {} = victimScan s := if_pos hbit
  rw [heff]
  rfl

/-- The entries of a scan's result, one register every 8 bytes (Table 9-14). -/
theorem rd_foldl_wr (s : State) (base : Nat) (f : Nat → Nat) {n j : Nat} (h : j < n) :
    rd ((List.range n).foldl (fun s k => wr s (base + 8 * k) (f k)) s) (base + 8 * j) = f j % 2 ^ 64 := by
  induction n with
  | zero => omega
  | succ n ih =>
    rw [List.range_succ, List.foldl_append, List.foldl_cons, List.foldl_nil]
    by_cases hj : j = n
    · rw [hj, rd_wr_same]
    · rw [rd_wr_other _ _ (by omega), ih (by omega)]
theorem foldl_wr_only (s : State) (base : Nat) (f : Nat → Nat) (n : Nat) :
    OnlyChanges [.regs] s ((List.range n).foldl (fun s k => wr s (base + 8 * k) (f k)) s) :=
  frame_foldl (fun _ _ h => wr_frame h (by decide)) (OnlyChanges.refl _ s)

/-- A scan's result with its entries written, and its count and VALID (R54, R244). -/
def scanResult (s : State) (f : Nat → Nat) (n : Nat) : State :=
  wrField (wrField ((List.range 8).foldl (fun s k => wr s (0x300B0 + 8 * k) (f k)) s) 0x300A8 19 16 n) 0x300A8 31 31 1

theorem rd_scanResult (s : State) (f : Nat → Nat) (n : Nat) {j : Nat} (h : j < 8) :
    rd (scanResult s f n) (0x300B0 + 8 * j) = f j % 2 ^ 64 := by
  have hother : 0x300B0 + 8 * j ≠ 0x300A8 := by omega
  rw [scanResult, rd_wrField_other _ hother, rd_wrField_other _ hother, rd_foldl_wr s _ f h]
theorem rdField_scanResult (s : State) (f : Nat → Nat) (n : Nat) :
    rdField (scanResult s f n) 0x300A8 19 16 = n % 16 ∧ rdField (scanResult s f n) 0x300A8 31 31 = 1 := by
  refine ⟨?_, ?_⟩
  · rw [scanResult, rdField_wrField_other _ _ _ _ _ _ _ (by decide) (by decide), rdField_wrField _ _ _ _ _ (by decide)]
    rfl
  · rw [scanResult, rdField_wrField _ _ _ _ _ (by decide)]
    rfl
theorem scanResult_only (s : State) (f : Nat → Nat) (n : Nat) : OnlyChanges [.regs] s (scanResult s f n) :=
  wrField_frame (wrField_frame (foldl_wr_only s _ f 8) (by decide)) (by decide)

/-- The entry of a scan's result at an index: what is listed there, or 0. -/
def bestWord (l : List (Nat × Nat)) (k : Nat) : Nat := match l[k]? with | some x => x.1 * 2 ^ 32 + x.2 | none => 0

/-- A scan that finds one victim ends with that one listed. -/
theorem victimScanDone_one {x : Nat} {b : Sb} (hscan : s.map.scanning = true) (hone : s.map.tab.sbs = [(x, b)]) (hst : b.st = 2)
    (hsys : b.system = false) (hjob : b.job = false) (hfull : b.vcount * 256 ≤ rdField s 0x300A0 7 0 * b.cap)
    (hcount : s.map.recount.contains x = false) :
    victimScanDone s = updMap (scanResult s (bestWord [(victimScore s b, b.sbid)]) 1) fun m => { m with scanning := false } := by
  have hcand : (s.map.tab.sbs.filter fun e => e.2.st == 2 && !e.2.system && !e.2.job && decide (e.2.vcount * 256 ≤ rdField s 0x300A0 7 0 * e.2.cap)
      && !s.map.recount.contains e.1) = [(x, b)] := by
    rw [hone]
    simp only [List.filter_cons, List.filter_nil, hst, hsys, hjob, hfull, hcount, beq_self_eq_true, Bool.not_false, Bool.true_and,
      decide_true, if_true]
  unfold victimScanDone
  rw [hscan]
  dsimp only
  rw [hcand]
  rfl

/-! ## A page group that closes (R139) -/

/-- What filling the first slots of a page group leaves at a slot: what was there, or a filler. -/
theorem nget_fillSlots (m : NMap Payload) (n j : Nat) :
    nget ((List.range n).foldl (fun m i => if (nget m i).isSome then m else nset m i filler) m) j =
      if j < n then some ((nget m j).getD filler) else nget m j := by
  induction n with
  | zero => rfl
  | succ n ih =>
    rw [List.range_succ, List.foldl_append, List.foldl_cons, List.foldl_nil]
    generalize (List.range n).foldl (fun m i => if (nget m i).isSome then m else nset m i filler) m = r at ih ⊢
    have hstep : nget (if (nget r n).isSome then r else nset r n filler) j =
        if j = n then some ((nget r j).getD filler) else nget r j := by
      by_cases hj : j = n
      · subst hj
        rw [if_pos rfl]
        cases hr : nget r j with
        | none => exact nget_nset_same r j filler
        | some p => exact hr
      · rw [if_neg hj, apply_ite (fun m => nget m j), nget_nset_other r filler hj, ite_self]
    rw [hstep, ih]
    grind

/-- Where no superblock is open and none can open, nothing is placed and nothing is folded. -/
theorem foldStream_closed (hopen : s.map.opens = []) (hstr : active s .str = false) (k : Nat) : foldStream s k = s := by
  have hsb : openSb s k = s := by simp [openSb, hstr]
  have hplace : placeAll s k = s := by
    unfold placeAll
    rw [hsb, ite_self]
    exact foldl_id _ fun _ _ => by simp [hopen, nget]
  simp [foldStream, hplace, hopen, nget]

theorem turn_closed (hopen : s.map.opens = []) (hstr : active s .str = false) (hops : s.flash.ops = []) : turn s = s := by
  rw [turn, foldl_id _ fun k _ => foldStream_closed hopen hstr k, pump_idle hops]

theorem packClose_map {k id : Nat} (h : nget s.map.packs k = some id) :
    packClose s k = updMap (pgClose s id) fun m => { m with packs := ndel m.packs k } := by
  simp [packClose, h]
/-- A page group that closes is ready, whole, and keeps the slots it had. -/
theorem pgClose_pgs (s : State) {id : Nat} {g : Pg} (h : nget s.map.pgs id = some g) : nget (pgClose s id).map.pgs id =
    some { g with st := .ready, used := 16,
                  slots := (List.range 16).foldl (fun m i => if (nget m i).isSome then m else nset m i filler) g.slots } := by
  rw [pgClose, modPg, updMap_map, nget_nmod_same, h]
  rfl

end Sys2Proof.Machine

namespace Sys2Proof.Proofs
open Sys2Proof.Machine

theorem heatHalving : Claims.heatHalving := by
  intro s hact
  have hstep : Machine.heatHalving s = updTab s fun t => { t with bundles := t.bundles.map fun b => (b.1, { b.2 with heat := b.2.heat / 2 }) } := by
    simp [Machine.heatHalving, hact]
  refine completes_eq rfl hstep ⟨fun b u hb => ?_, List.length_map _, updTab_frame (OnlyChanges.refl _ s) (by decide)⟩
  exact (nget_mapVals s.map.tab.bundles (fun d => { d with heat := d.heat / 2 }) b).trans (by rw [hb])

theorem lifeClockTick : Claims.lifeClockTick := by
  intro s hheld
  refine ⟨fun hact hlow => completes_eq rfl (?_ : lifeTick s = _) rfl, fun hact => completes_eq rfl (?_ : lifeTick s = _) rfl⟩
  · have hmin : min (s.map.life + 1) 0xFFFFFFFF = s.map.life + 1 := Nat.min_eq_left hlow
    simp [lifeTick, hheld, hact, updMap, hmin]
  · simp [lifeTick, hact]

theorem bundleWaitStays : Claims.bundleWaitStays := by
  intro s w r hw hfree
  refine completes_eq rfl (?_ : Machine.bundleWaitEnd s = s) rfl
  simp [Machine.bundleWaitEnd, hw, hfree]

theorem bundleWaitEnd : Claims.bundleWaitEnd := by
  intro s w r id hw hh hgone hfree
  have hmap := takeBundle_map (updMap s fun m => { m with waiters := r }) w.h w.nsid w.parcel
  obtain ⟨b, hmap⟩ := hmap
  have hstep : Machine.bundleWaitEnd s = takeBundle (updMap s fun m => { m with waiters := r }) w.h w.nsid w.parcel := by
    have htry := tryReloc_gone (s := takeBundle (updMap s fun m => { m with waiters := r }) w.h w.nsid w.parcel) (id := id)
      (by rw [hmap]; exact hgone)
    simp only [Machine.bundleWaitEnd, hw, if_neg (Nat.ne_of_gt hfree)]
    rw [hh] at htry ⊢
    exact htry
  refine completes_eq rfl hstep ?_
  rw [hmap]
  exact ⟨rfl, rfl, rfl⟩

theorem victimScan : Claims.victimScan := by
  intro s i v hacc hidle
  obtain ⟨hvalid, hgen, honly⟩ := trig54_begins s 0x300A8
  refine completes_eq rfl (writeAccess_victimScan hacc hidle v) ⟨?_, ?_, ?_, ?_⟩
  · rw [Machine.victimScan, updMap_map, honly.same .map (by decide)]
  · rw [Machine.victimScan, rdField, rd_updMap]
    exact hvalid
  · rw [Machine.victimScan, rdField, rd_updMap]
    exact hgen
  · exact updMap_frame (honly.mono (by decide)) (by decide)

theorem victimScanDone : Claims.victimScanDone := by
  intro s x b hscan hone hst hsys hjob hfull hcount hscore hsbid
  obtain ⟨hn, hvalid⟩ := rdField_scanResult s (bestWord [(victimScore s b, b.sbid)]) 1
  have hrow : ∀ j, j < 8 → rd (scanResult s (bestWord [(victimScore s b, b.sbid)]) 1) (0x300B0 + 8 * j) =
    bestWord [(victimScore s b, b.sbid)] j % 2 ^ 64 := fun j hj => rd_scanResult s _ 1 hj
  refine completes_eq rfl (victimScanDone_one hscan hone hst hsys hjob hfull hcount) ⟨?_, ?_, ?_, ?_, rfl, ?_⟩
  · rw [rd_updMap]
    exact (hrow 0 (by decide)).trans (Nat.mod_eq_of_lt (show victimScore s b * 2 ^ 32 + b.sbid < 2 ^ 64 by omega))
  · rw [rd_updMap]
    exact hrow 1 (by decide)
  · rw [rdField, rd_updMap]
    exact hn
  · rw [rdField, rd_updMap]
    exact hvalid
  · exact updMap_frame ((scanResult_only s _ 1).mono (by decide)) (by decide)

theorem packingFillwaitExpiry : Claims.packingFillwaitExpiry := by
  intro s k id g hpack hpg hsorted hopen hops hstr
  have hstep : fillwait s k = updMap (pgClose s id) fun m => { m with packs := ndel m.packs k } := by
    rw [fillwait, packClose_map hpack]
    exact turn_closed hopen hstr hops
  refine completes_eq rfl hstep ⟨nget_ndel_same k hsorted, _, pgClose_pgs s hpg, rfl, rfl, fun i p hp => ?_, fun i hi hnone => ?_⟩
  · rw [nget_fillSlots, hp]
    exact ite_self _
  · rw [nget_fillSlots, if_pos hi, hnone]
    rfl

end Sys2Proof.Proofs
end

section
/-! PROOFS. The end of a deallocation's wait (R149): what waits for a bundle, and the read-modify-write of a parcel that begins.
Settles O37. -/

namespace Sys2Proof.Machine

variable {s t z : State}

/-! ## What waits for a bundle goes on waiting, whatever the streams do -/

/-- The listed cases that wait for a bundle (R143). -/
def waiting (s : State) : List Waiter := s.map.waiters

theorem waiting_ite {c : Prop} [Decidable c] {l : List Waiter} (h : waiting s = l) (k : waiting t = l) :
    waiting (if c then s else t) = l := by
  split <;> assumption
theorem waiting_of_map (h : t.map = s.map) : waiting t = waiting s := congrArg MapEng.waiters h
theorem waiting_modOpen (s : State) (k : Nat) (f : OpenSb → OpenSb) : waiting (modOpen s k f) = waiting s := rfl
theorem waiting_modSb (s : State) (x : Nat) (f : Sb → Sb) : waiting (modSb s x f) = waiting s := rfl
theorem waiting_addOp (s : State) (o : FOp) : waiting (addOp s o) = waiting s := rfl

theorem waiting_openSb (s : State) (k : Nat) : waiting (openSb s k) = waiting s := waiting_ite rfl rfl
theorem waiting_placeAll (s : State) (k : Nat) : waiting (placeAll s k) = waiting s := by
  unfold placeAll
  dsimp only
  refine (foldl_view (v := waiting) (fun x g => ?_) _ _).trans (waiting_ite (waiting_openSb s k) rfl)
  split
  · rfl
  split
  · rfl
  split
  · rfl
  split <;> rfl
theorem waiting_askSeal (s : State) (k : Nat) : waiting (askSeal s k) = waiting s := by
  unfold askSeal
  split
  · exact waiting_ite rfl rfl
  · rfl
theorem waiting_foldStream (s : State) (k : Nat) : waiting (foldStream s k) = waiting s := by
  have hplace := waiting_placeAll s k
  unfold foldStream
  dsimp only
  split
  · exact hplace
  split
  · exact hplace
  split
  · exact hplace
  split
  · exact (waiting_askSeal _ _).trans hplace
  split
  · exact (waiting_askSeal _ _).trans ((waiting_modSb _ _ _).trans hplace)
  · refine (waiting_ite ?_ ((foldl_view (v := waiting) (fun x _ => waiting_addOp x _) _ _).trans ((waiting_modOpen _ _ _).trans ?_))).trans hplace
    all_goals
      refine foldl_view (v := waiting) (fun x g => ?_) _ _
      split
      · exact waiting_ite rfl rfl
      · rfl
theorem waiting_noteEnded (s : State) (x m out : Nat) : waiting (noteEnded s x m out) = waiting s := by
  unfold noteEnded
  dsimp only
  split
  · exact waiting_ite rfl rfl
  · rfl
theorem waiting_issueErases (s : State) (x : Nat) : waiting (issueErases s x) = waiting s := by
  unfold issueErases
  split
  · rfl
  split
  · rfl
  · refine foldl_view (v := waiting) (fun y m => ?_) _ _
    exact waiting_ite (waiting_noteEnded _ _ _ _) (waiting_ite (waiting_noteEnded _ _ _ _) (waiting_ite (waiting_noteEnded _ _ _ _) rfl))
theorem waiting_settlePins (s : State) : waiting (settlePins s) = waiting s :=
  waiting_ite rfl (foldl_view (v := waiting) (fun x y => waiting_issueErases (modSb x y fun b => { b with pins := b.pins - 1 }) y) _ _)
theorem waiting_turn (s : State) : waiting (turn s) = waiting s :=
  (waiting_of_map (pump_map _)).trans (foldl_view waiting_foldStream _ _)

/-! ## The wait of a deallocation ends (R149) -/

theorem mem_of_nget {α : Type} {m : NMap α} {k : Nat} {v : α} (h : nget m k = some v) : (k, v) ∈ m := by
  induction m with
  | nil => cases h
  | cons e r ih =>
    obtain ⟨j, w⟩ := e
    unfold nget at h
    split at h
    next hk =>
      cases h
      rw [hk]
      exact List.mem_cons_self
    next =>
      split at h
      · cases h
      · exact List.mem_cons_of_mem _ (ih h)

/-- In a sound map no letter is corrupt: neither one of a listed parcel nor one of an unmapped parcel (R131). -/
theorem corruptAt_sound (h : Claims.MapSound s) (nsid l : Nat) : corruptAt s nsid l = false := by
  by_cases hlist : ∃ n e, nget s.map.tab.ns nsid = some n ∧ nget n.parcels (l / 16) = some e
  · obtain ⟨n, e, hn, he⟩ := hlist
    have hl := h _ (mem_of_nget hn) _ (mem_of_nget he) (l % 16) (Nat.mod_lt _ (by decide))
    rwa [show 16 * (l / 16) + l % 16 = l from Nat.div_add_mod l 16] at hl
  · have hent : entryOf s.map.tab nsid (l / 16) = .unmapped := by
      unfold entryOf
      split
      next n hn =>
        cases he : nget n.parcels (l / 16) with
        | none => simp [ngetD, he]
        | some e => exact absurd ⟨n, e, hn, he⟩ hlist
      · rfl
    simp only [corruptAt, letterOf, hent, letterIn, Bool.or_self]

theorem corruptSeg_sound (h : Claims.MapSound s) (nsid : Nat) (ls : List Nat) : corruptSeg s nsid ls = none := by
  rw [corruptSeg, List.find?_eq_none.mpr fun l _ => by simp [corruptAt_sound h nsid l]]
  rfl

theorem settlePressure_eq (s : State) : ∃ b, settlePressure s = updMap s fun m => { m with pressed := b } := by
  unfold settlePressure
  dsimp only
  split
  · exact ⟨true, rfl⟩
  split
  · exact ⟨false, rfl⟩
  · exact ⟨s.map.pressed, rfl⟩

/-- The command whose deallocation waited, as its parcels' read-modify-write begins. -/
def rewriting (c : Cmd) (m : Rmw) : Cmd := { c with ready := false, phase := 0, rmws := [m] }

/-- The state in which the last of the cases that wait is one that is rewritten instead. -/
def rewriteState (s : State) (id : Nat) (m : Rmw) (b : Bool) : State :=
  modCmd (updMap s fun x => { x with waiters := [], pressed := b }) id fun c => rewriting c m

theorem modCmd_congr {id : Nat} {c : Cmd} {f g : Cmd → Cmd} (h : getCmd s id = some c) (hfg : f c = g c) :
    modCmd s id f = modCmd s id g := by
  have hn : nget s.srt.cmds id = some c := h
  simp only [modCmd, updSrt, nmod, hn, hfg]

theorem deallocTimeout_one {id : Nat} {c : Cmd} {w : Waiter} {ls : List Nat} (hcmd : s.srt.cmds = [(id, c)]) (hwait : s.map.waiters = [w])
    (hh : w.h = .cmd id) (hd : w.dealloc = true) (hwants : c.wants = [[.clear w.nsid w.parcel ls]]) :
    ∃ b, deallocTimeout s id = proceed (rewriteState s id { nsid := w.nsid, parcel := w.parcel, own := some ls } b) id := by
  have hone : s.map.waiters.filter (fun x => x.h == .cmd id && x.dealloc) = [w] := by simp [hwait, hh, hd]
  have hnone : s.map.waiters.filter (fun x => !(x.h == .cmd id && x.dealloc)) = [] := by simp [hwait, hh, hd]
  have hleft : (updMap s fun m => { m with waiters := m.waiters.filter fun x => !(x.h == .cmd id && x.dealloc) }) =
      updMap s fun m => { m with waiters := [] } := by rw [updMap, hnone, updMap]
  obtain ⟨b, hb⟩ := settlePressure_eq (updMap s fun m => { m with waiters := [] })
  refine ⟨b, ?_⟩
  have hget : getCmd (updMap (updMap s fun m => { m with waiters := [] }) fun m => { m with pressed := b }) id = some c := by
    simp [getCmd, hcmd, nget]
  unfold deallocTimeout
  dsimp only
  rw [hone, hleft, hb]
  refine congrArg (fun x => proceed x id) (modCmd_congr (c := c) hget ?_)
  simp [rewriting, hwants]


theorem noneRetired_rmwCount (h : Claims.NoneRetired s) : Claims.NoneRetired (rmwCount s) := by
  have hcount : Claims.NoneRetired (updMap (satAdd s 0x30068 31 0 1) fun m => { m with rmwSeen := false }) :=
    noneRetired_updMap (noneRetired_wr h (by decide) _) _
  unfold rmwCount
  dsimp only
  split
  · exact noneRetired_kept hcount (.raise (.refl _) 42) (opLuns_raise _ 42)
  · exact hcount
theorem noneRetired_modCmd (h : Claims.NoneRetired s) (id : Nat) (f : Cmd → Cmd) : Claims.NoneRetired (modCmd s id f) := h
theorem rmwCount_srt (s : State) : (rmwCount s).srt = s.srt := by
  unfold rmwCount
  dsimp only
  split
  · exact raise_srt _ _
  · rfl
theorem waiting_rmwCount (s : State) : waiting (rmwCount s) = waiting s :=
  waiting_ite ((waiting_of_map (raise_map _ _)).trans rfl) rfl

/-- The command whose parcel's reads have begun. -/
def reading (c : Cmd) (pend : List Nat) : Cmd := { c with units := [], found := [], pend, rmwStart := true, phase := 1 }

/-- A read-modify-write of one parcel begins: nothing else touches the parcel, and its map is sound. -/
theorem proceed_rewrite {id : Nat} {c : Cmd} {m : Rmw} {n : Ns} (hcmd : s.srt.cmds = [(id, c)]) (hrel : c.released = true)
    (hdata : c.dataIn = true) (hphase : c.phase = 0) (hstatus : c.status = none) (hrun : running s .map = true) (hq : s.jrc.applyQ = [])
    (hb : s.jrc.batches = []) (hn : nsOf s c.q.nsid = some n) (hlost : s.phc.lost = []) (hsound : Claims.MapSound s)
    (hdealloc : deallocates c.body = true) (hrmws : c.rmws = [m]) (hreads : rmwReads s c m ≠ []) :
    proceed s id = readsOver (addReads (modCmd (rmwCount s) id fun d => reading d (rmwReads s c m).dedup) 1
      ((rmwReads s c m).dedup.map fun p => (p, Req.rmw id))) := by
  have hget : getCmd s id = some c := by simp [getCmd, hcmd, nget]
  have hfree : rmwFree s id c = true := by simp [rmwFree, hq, hb, hcmd]
  have hunits : ∀ f, cmdUnits c n f = [] := fun f => by simp [cmdUnits, hdealloc]
  have hkept : ∀ ls : List Nat, ls.any (onLost s c.q.nsid) = false := fun ls =>
    List.any_eq_false.mpr fun l _ => by simp [onLost, hlost]
  have hpend : (rmwReads s c m).dedup.isEmpty = false := by
    rw [← Bool.not_eq_true, List.isEmpty_iff, List.dedup_eq_nil]
    exact hreads
  have hready : (!c.released || !c.dataIn || c.phase != 0 || c.status.isSome || !running s .map) = false := by
    simp [hrel, hdata, hphase, hstatus, hrun]
  unfold proceed
  simp only [hget, hready, hfree, hn, hkept, corruptSeg_sound hsound, hunits, hrmws, Bool.false_eq_true, if_false, Bool.not_true,
    List.filter_nil, List.map_nil, slotsOf, List.filterMap_nil, List.nil_append, List.flatMap_cons, List.flatMap_nil, List.append_nil, hpend,
    List.foldl_cons, List.foldl_nil]
  have hcount : getCmd (rmwCount s) id = some c := by rw [getCmd, rmwCount_srt]; exact hget
  refine congrArg (fun x => readsOver (addReads x 1 ((rmwReads s c m).dedup.map fun p => (p, Req.rmw id)))) (modCmd_congr hcount ?_)
  simp [reading, hrmws]

/-- Reads that are over leave the commands and what waits for a bundle, where no LUN is retired. -/
theorem readsOver_kept (h : Claims.NoneRetired s) : (readsOver s).srt = s.srt ∧ waiting (readsOver s) = waiting s := by
  rw [readsOver, lostReads_none h]
  refine ⟨?_, (waiting_settlePins _).trans (waiting_turn s)⟩
  exact ((settlePins_frame (F := [.map, .flash, .jrc]) (OnlyChanges.refl _ _) (by decide) (by decide) (by decide)).same .srt (by decide)).trans
    (turn_srt s)
theorem addReads_srt (s : State) (cls : Nat) (ps : List (Nat × Req)) : (addReads s cls ps).srt = s.srt :=
  (addReads_frame (F := allParts.filter fun p => p != .srt) (OnlyChanges.refl _ s) (by decide) (by decide) (by decide) (by decide) (by decide)
    (by decide) (by decide) (by decide) (by decide) (by decide) (by decide) (by decide)).same .srt (by decide)

end Sys2Proof.Machine

namespace Sys2Proof.Proofs
open Sys2Proof.Machine

theorem deallocBundleTimeout : Claims.deallocBundleTimeout := by
  intro s id c n w ls hcmd hrel hdata hstatus hdealloc hn hq hb hrun ⟨hlost, hsound, hret⟩ hwait hh hd hwants hreads
  obtain ⟨b, htimeout⟩ := deallocTimeout_one hcmd hwait hh hd hwants
  let m : Rmw := { nsid := w.nsid, parcel := w.parcel, own := some ls }
  let x := rewriteState s id m b
  have hcmdx : x.srt.cmds = [(id, rewriting c m)] := by simp [x, rewriteState, modCmd, updSrt, nmod, hcmd, nget, nset]
  have hretx : Claims.NoneRetired x := hret
  have hstep := htimeout.trans (proceed_rewrite hcmdx hrel hdata rfl hstatus hrun hq hb hn hlost hsound hdealloc rfl hreads)
  have hpend : (rmwReads x (rewriting c m) m).dedup ≠ [] := by rwa [Ne, List.dedup_eq_nil]
  generalize (rmwReads x (rewriting c m) m).dedup = pend at hstep hpend
  have hbegun := noneRetired_addReads (noneRetired_modCmd (noneRetired_rmwCount hretx) id fun d => reading d pend) 1
    (pend.map fun p => (p, Req.rmw id))
  obtain ⟨hsrt, hwaiting⟩ := readsOver_kept hbegun
  refine completes_eq rfl hstep ⟨?_, reading (rewriting c m) pend, ?_, rfl, rfl, rfl, hpend⟩
  · exact hwaiting.trans ((waiting_of_map (addReads_map _ _ _)).trans (waiting_rmwCount x))
  · rw [getCmd, hsrt, addReads_srt]
    simp [modCmd, updSrt, rmwCount_srt, nmod, hcmdx, nget, nset]

/-- Settles O37, clause by clause. -/
theorem mapTimersAndJobs : Obligations.MapTimersAndJobs :=
  ⟨packingFillwaitExpiry, bundleWaitEnd, bundleWaitStays, deallocBundleTimeout, heatHalving, lifeClockTick, victimScan, victimScanDone,
    jobSubmit, jobRefused⟩

end Sys2Proof.Proofs
end
section
/-! PROOFS. The pigeonhole map cache's operations, as the proofs of its commands use them: the bytes of a line in DRAM (R169), the ways
of a set (R166, R168), states (R171), and OP applied to a line (R173, R175). -/

namespace Sys2Proof.Machine

variable {s t u : State}

/-! ## A line's bytes in DRAM -/

/-- Bytes written in a row read back. -/
theorem memReads_memWrites {d : Byte} {m : NMap Byte} (a : Nat) (l : List Byte) (h : memWf d m = true) :
    memReads d (memWrites d m a l) a l.length = l := by
  induction l generalizing m a with
  | nil => rfl
  | cons b r ih =>
    have hfirst : memRead d (memWrites d (memWrite d m a b) (a + 1) r) a = b := by
      rw [memRead_memWrites_outside r (.inl (Nat.lt_succ_self a)) (memWf_memWrite a b h), memRead_memWrite_same a b (memWf_iff.mp h).1]
    rw [memWrites, List.length_cons, memReads, hfirst, ih (a + 1) (memWf_memWrite a b h)]

theorem lineStored_putDramLine (h : memWf 0 s.dram = true) (line : Nat) (d : BitVec 512) :
    Claims.LineStored s (putDramLine s line d) line d := by
  have hlen : (le 64 d.toNat).length = 64 := le_length _ _
  have hread := memReads_memWrites (line * 64) (le 64 d.toNat) h
  rw [hlen] at hread
  exact ⟨hread, fun a ha => memRead_memWrites_outside _ (by rwa [hlen]) h⟩

theorem lineStored_of_dram {line : Nat} {d : BitVec 512} (h : Claims.LineStored s t line d) (hd : u.dram = t.dram) :
    Claims.LineStored s u line d := by
  rwa [Claims.LineStored, hd]

@[simp] theorem putDramLine_phc (s : State) (line : Nat) (d : BitVec 512) : (putDramLine s line d).phc = s.phc := rfl

/-- A write-back of one dirty line. -/
theorem writeBack_one {k : Nat} {x : PhcLine} (h : x.dirty = true) : writeBack s [(k, x)] = putDramLine s x.line x.data := by
  simp [writeBack, h]

/-- What passes to DRAM leaves the cache as it is, and a read leaves DRAM too (R171). -/
@[simp] theorem phcPass_phc (s : State) (r : LineReq) : (phcPass s r).phc = s.phc :=
  (phcPass_frame (F := [.dram, .mem]) (OnlyChanges.refl _ s) (by decide) (by decide)).same .phc (by decide)
theorem phcPass_read {r : LineReq} (h : r.write = false) : phcPass s r = s := by simp [phcPass, h]

/-! ## The ways of a set (R166, R168) -/

/-- A way of a line's set holds the line. -/
def wayHolds (s : State) (line w : Nat) : Bool := (nget s.phc.lines (slotKey (phcSet s line) w)).any fun x => x.line == line

theorem findWay_eq (s : State) (line : Nat) : findWay s line = (List.range (phcWays s)).find? (wayHolds s line) := by
  unfold findWay
  congr 1
  funext w
  unfold wayHolds
  cases nget s.phc.lines (slotKey (phcSet s line) w) <;> rfl

theorem findWay_none {line : Nat} : findWay s line = none ↔ ∀ w, w < phcWays s → wayHolds s line w = false := by
  simp [findWay_eq]

/-- The lowest way that holds a line is the one found. -/
theorem findWay_first {line w : Nat} (hw : w < phcWays s) (hhold : wayHolds s line w = true)
    (hfirst : ∀ v, v < w → wayHolds s line v = false) : findWay s line = some w := by
  rw [findWay_eq, List.find?_range_eq_some]
  exact ⟨hhold, List.mem_range.mpr hw, fun v hv => by simp [hfirst v hv]⟩

/-- What a lookup finds depends on the lines and on the geometry. -/
theorem phcWays_congr (h : rd t (Reg.ctl .phc) = rd s (Reg.ctl .phc)) : phcWays t = phcWays s := by simp only [phcWays, rdField, h]
theorem phcSet_congr (h : rd t (Reg.ctl .phc) = rd s (Reg.ctl .phc)) (line : Nat) : phcSet t line = phcSet s line := by
  simp only [phcSet, phcSets, phcWays_congr h]

theorem slotKey_other {set v w : Nat} (h : v ≠ w) : slotKey set v ≠ slotKey set w := by unfold slotKey; omega

/-- A line that no way held, put into a way of its set, is found there. -/
theorem findWay_nset {w : Nat} {x : PhcLine} (hnone : findWay s x.line = none) (hw : w < phcWays s)
    (hlines : t.phc.lines = nset s.phc.lines (slotKey (phcSet s x.line) w) x) (hctl : rd t (Reg.ctl .phc) = rd s (Reg.ctl .phc)) :
    findWay t x.line = some w := by
  have hset := phcSet_congr hctl x.line
  refine findWay_first (by rwa [phcWays_congr hctl]) ?_ fun v hv => ?_
  · rw [wayHolds, hset, hlines, nget_nset_same]
    simp
  · rw [wayHolds, hset, hlines, nget_nset_other _ _ (slotKey_other (Nat.ne_of_lt hv))]
    exact findWay_none.mp hnone v (hv.trans hw)

theorem lineAt_nset {w : Nat} {x : PhcLine} (hnone : findWay s x.line = none) (hw : w < phcWays s)
    (hlines : t.phc.lines = nset s.phc.lines (slotKey (phcSet s x.line) w) x) (hctl : rd t (Reg.ctl .phc) = rd s (Reg.ctl .phc)) :
    lineAt t x.line = some x := by
  rw [lineAt, findWay_nset hnone hw hlines hctl, Option.bind_some, phcSet_congr hctl, hlines, nget_nset_same]

/-- The one line of a cache is found in its way. -/
theorem findWay_only {w : Nat} {x : PhcLine} (hw : w < phcWays s) (hlines : s.phc.lines = [(slotKey (phcSet s x.line) w, x)]) :
    findWay s x.line = some w := by
  refine findWay_first hw (by simp [wayHolds, hlines, nget]) fun v hv => ?_
  have hother := slotKey_other (set := phcSet s x.line) (Nat.ne_of_lt hv)
  simp [wayHolds, hlines, nget, hother]

/-- Where a usable way of a set holds no line, the victim is a way that holds none (R168). -/
theorem victimWay_free {set w : Nat} (hw : w < phcWays s) (hok : wayOk s w = true) (hfree : nget s.phc.lines (slotKey set w) = none) :
    victimWay s set < phcWays s ∧ nget s.phc.lines (slotKey set (victimWay s set)) = none := by
  unfold victimWay
  cases hfind : (List.range (phcWays s)).find? fun v => wayOk s v && (nget s.phc.lines (slotKey set v)).isNone with
  | none =>
    have hnot := List.find?_range_eq_none.mp hfind w hw
    simp [hok, hfree] at hnot
  | some v =>
    obtain ⟨hv, hmem, -⟩ := List.find?_range_eq_some.mp hfind
    rw [Bool.and_eq_true, Option.isNone_iff_eq_none] at hv
    exact ⟨List.mem_range.mp hmem, hv.2⟩

/-- A line put into a set whose victim way holds none evicts nothing (R169). -/
theorem phcInsert_free {line : Nat} (hfree : nget s.phc.lines (slotKey (phcSet s line) (victimWay s (phcSet s line))) = none) (dirty : Bool)
    (data : BitVec 512) : phcInsert s line dirty data =
      useWay (updPhc s fun p => { p with lines := nset p.lines (slotKey (phcSet s line) (victimWay s (phcSet s line))) { line, dirty, data } })
        (phcSet s line) (victimWay s (phcSet s line)) := by
  unfold phcInsert
  dsimp only
  rw [hfree]

theorem useWay_phc (s : State) (set way : Nat) : (useWay s set way).phc =
    { s.phc with trees := nset s.phc.trees set (treeTouch 4 1 (phcWays s) way (ngetD s.phc.trees set 0)) } := rfl
theorem phcInsert_phc {line : Nat} (hfree : nget s.phc.lines (slotKey (phcSet s line) (victimWay s (phcSet s line))) = none) (dirty : Bool)
    (data : BitVec 512) : ∃ trees, (phcInsert s line dirty data).phc = { s.phc with
      trees, lines := nset s.phc.lines (slotKey (phcSet s line) (victimWay s (phcSet s line))) { line, dirty, data } } := by
  rw [phcInsert_free hfree]
  exact ⟨_, rfl⟩
@[simp] theorem rd_phcInsert (s : State) (line : Nat) (dirty : Bool) (data : BitVec 512) (a : Nat) :
    rd (phcInsert s line dirty data) a = rd s a :=
  rd_of_regs ((phcInsert_frame (F := [.phc]) (OnlyChanges.refl _ s) (by decide)).same .regs (by decide)) a

/-! ## States (R171) -/

@[simp] theorem phcTo_phc (s : State) (st : Nat) : (phcTo s st).phc = { s.phc with st } := rfl
theorem rd_phcTo {a : Nat} (h : a ≠ Reg.sts .phc) (st : Nat) : rd (phcTo s st) a = rd s a := by
  rw [phcTo, setActive, rd_wrField_other _ h, rd_wrField_other _ h, rd_updPhc]
theorem active_phcTo (s : State) (st : Nat) : active (phcTo s st) .phc = decide (2 ≤ st) := active_setActive _ _ _ _

/-- Where no request is held, none is served (R167). -/
theorem serveHeld_none (hst : s.phc.st ≠ 1) (hheld : s.phc.held = []) : serveHeld s = s := by
  have hsame : (updPhc s fun p => { p with held := [] }) = s := by
    rw [updPhc, ← hheld]
  rw [serveHeld, if_neg hst, hheld, hsame, List.foldl_nil]

/-! ## OP applied to a dirty line (R173, R175) -/

variable {k : Nat} {x : PhcLine}

theorem lineOp_clean (h : x.dirty = true) :
    lineOp s 1 k x = updPhc (putDramLine s x.line x.data) fun p => { p with lines := nset p.lines k { x with dirty := false } } := by
  simp [lineOp, h]
theorem lineOp_invalidate (s : State) (k : Nat) (x : PhcLine) : lineOp s 2 k x = phcDrop s k := by simp [lineOp]
theorem lineOp_cleanInvalidate (h : x.dirty = true) : lineOp s 3 k x = phcDrop (putDramLine s x.line x.data) k := by
  simp [lineOp, h]

@[simp] theorem lineOp_chip (s : State) (op k : Nat) (x : PhcLine) : (lineOp s op k x).chip = s.chip :=
  (lineOp_frame (F := [.dram, .phc, .mem]) (OnlyChanges.refl _ s) (by decide) (by decide) (by decide)).same .chip (by decide)

end Sys2Proof.Machine
end
section
/-! PROOFS. Fills, write-backs, the disabling of a way, invalidation, drain and the start of a range operation (R167 to R173, R176).
Settles O35. -/

namespace Sys2Proof.Machine

variable {s : State}

/-! ## The end of a fill (R167) -/

/-- A fill that meets no error in the cache, with the one fill outstanding and room in the eviction buffer: DRAM's report, then what it
makes of the fill. -/
theorem phcFilled_one {f : PhcFill} (hfills : s.phc.fills = [f]) (hroom : s.phc.evict.length < 16) (r : UnitRead) (seg : Nat) :
    phcFilled s f.line r [] none seg = fillDone (dramReport s f.line r) f.line (effective s f.line r) (lineSeg s f.line seg) := by
  have hwent : (s.phc.fills.any (fun g => g.line == f.line) && fillFits s f.line) = true := by simp [hfills, fillFits, hroom]
  unfold phcFilled
  dsimp only [lookupError]
  rw [clientAccesses_nil, if_pos hwent]

theorem fillDone_clean {f : PhcFill} (hst : s.phc.st = 2) (hfills : s.phc.fills = [f]) (hroom : s.phc.evict.length < 16)
    (seg : Option Nat) : fillDone s f.line .clean seg =
      serveHeld (fillServe (phcInsert (updPhc s fun p => { p with fills := [] }) f.line false (dramLine s f.line)) f.waiting) := by
  simp [fillDone, fillDone.allocated, hfills, fillFits, hroom, updPhc, hst, dramLine]

/-- The state in which the requesters of a fill that met an uncorrectable unit have its report, and its segment is to be rebuilt. -/
def fillReported (s : State) (f : PhcFill) (seg : Option Nat) : State :=
  lostLine (fillFailed (updPhc s fun p => { p with fills := [] }) f .ue) seg

theorem fillReported_phc (s : State) (f : PhcFill) (seg : Option Nat) : ∃ lost, (fillReported s f seg).phc =
    { s.phc with fills := [], reports := f.waiting.map fun q => (q, .ue), lost } := by
  cases seg with
  | none => exact ⟨s.phc.lost, rfl⟩
  | some g => exact ⟨_, rfl⟩
@[simp] theorem rd_fillReported (s : State) (f : PhcFill) (seg : Option Nat) (a : Nat) : rd (fillReported s f seg) a = rd s a := by
  cases seg <;> rfl

theorem fillDone_ue {f : PhcFill} (hfills : s.phc.fills = [f]) (hroom : s.phc.evict.length < 16) (seg : Option Nat) :
    fillDone s f.line .ue seg = serveHeld (fillReported s f seg) := by
  simp [fillDone, fillReported, hfills, fillFits, hroom, updPhc]

/-- A read that missed takes the line that its fill has brought (R167, R168). -/
theorem fillMiss_read {r : LineReq} {w : Nat} (hfind : findWay s r.line = some w) (hread : r.write = false) :
    fillMiss s r = useWay s (phcSet s r.line) w := by
  simp [fillMiss, hfind, phcServe, hread]

/-! ## DRAM's report of a unit (R302, R307) -/

/-- The state in which a unit's read is counted. -/
def unitCounted (s : State) (unit : Nat) : State :=
  updMem s fun m => { m with reads := nset m.reads (Config.dramRank unit % 4 / 2) (ngetD m.reads (Config.dramRank unit % 4 / 2) 0 + 1) }

theorem dramReport_clean {unit : Nat} {r : UnitRead} (h : effective s unit r = .clean) : dramReport s unit r = unitCounted s unit := by
  have hcounted : effective (unitCounted s unit) unit r = .clean := h
  unfold unitCounted at hcounted ⊢
  unfold dramReport
  dsimp only
  rw [hcounted]
theorem dramReport_ue {unit : Nat} {r : UnitRead} (h : effective s unit r = .ue) :
    dramReport s unit r = patrolUnit (drcReport (unitCounted s unit) 0 unit) unit := by
  have hcounted : effective (unitCounted s unit) unit r = .ue := h
  unfold unitCounted at hcounted ⊢
  unfold dramReport
  dsimp only
  rw [hcounted]

/-- A report sets its class's bit of DRC_CAUSE. -/
theorem drcReport_cause (s : State) {cls : Nat} (h : cls < 64) (unit : Nat) : bitOf (rd (drcReport s cls unit) (drc 0x2C)) cls = true := by
  unfold drcReport
  dsimp only
  rw [rd_raise _ _ (by decide), bitOf_orReg _ _ _ _ h, bitOf_two_pow, Bool.or_true]

theorem dramReport_ue_cause {unit : Nat} {r : UnitRead} (h : effective s unit r = .ue) :
    (dramReport s unit r).phc = s.phc ∧ bitOf (rd (dramReport s unit r) (drc 0x2C)) 0 = true := by
  have hpat (t : State) : OnlyChanges [.pat] t (patrolUnit t unit) := patrolUnit_frame (OnlyChanges.refl _ t) (by decide)
  have hdrc : OnlyChanges signals (unitCounted s unit) (drcReport (unitCounted s unit) 0 unit) :=
    drcReport_frame (OnlyChanges.refl _ _) (by decide) (by decide) (by decide) (by decide) (by decide)
  rw [dramReport_ue h]
  refine ⟨((hpat _).same .phc (by decide)).trans (hdrc.same .phc (by decide)), ?_⟩
  rw [rd_of_regs ((hpat _).same .regs (by decide))]
  exact drcReport_cause _ (by decide) unit

/-- The state in which a fill's unit has been read and the fill is no longer outstanding. -/
def fillTaken (s : State) (line : Nat) : State := updPhc (unitCounted s line) fun p => { p with fills := [] }

/-- The line that a fill which ends well brings. -/
def filledLine (s : State) (line : Nat) : PhcLine := { line, dirty := false, data := dramLine s line }

theorem phcFilled_clean {f : PhcFill} {r : UnitRead} (hst : s.phc.st = 2) (hfills : s.phc.fills = [f]) (hroom : s.phc.evict.length < 16)
    (hclean : effective s f.line r = .clean) (seg : Nat) : phcFilled s f.line r [] none seg =
      serveHeld (fillServe (phcInsert (fillTaken s f.line) f.line false (dramLine s f.line)) f.waiting) := by
  rw [phcFilled_one hfills hroom, hclean, dramReport_clean hclean]
  exact fillDone_clean (s := unitCounted s f.line) hst hfills hroom _

/-! ## The end of a way's disabling (R176) -/

/-- A way is disabled: no line is left in it, its bit is set, and source 51 is pending. -/
theorem wayDisabled_done {way set : Nat} (h : s.phc.disabling = some (way, set)) (hway : way < 16) (hheld : s.chip.held = false) :
    (wayDisabled s way set).phc = { s.phc with disabling := none, rowKnown := false, lines := s.phc.lines.filter fun x => x.1 % 16 != way } ∧
      wayOff (wayDisabled s way set) way = true ∧ raised (wayDisabled s way set) 51 = true := by
  have hend : wayDisabled s way set = raise (wr (orReg (updPhc s fun p =>
      { p with disabling := none, rowKnown := false, lines := p.lines.filter fun x => x.1 % 16 != way }) Reg.phcWayDis (2 ^ way))
        Reg.phcFault (2 ^ 31 + way * 2 ^ 24 + set)) 51 := by simp [wayDisabled, h]
  rw [hend]
  refine ⟨by rw [raise_phc, wr_phc, orReg_phc, updPhc_phc], ?_, raised_raise (by decide) (by decide) hheld⟩
  rw [wayOff, rd_raise _ _ (by decide), rd_wr_other _ _ (by decide), bitOf_orReg _ _ _ _ (by omega), bitOf_two_pow, Bool.or_true]

/-- The repair list's entry for the failing row leaves the cache and the registers. -/
theorem wayDisableDone_kept {way set : Nat} (h : s.phc.disabling = some (way, set)) :
    (wayDisableDone s way set).phc = (wayDisabled s way set).phc ∧ (wayDisableDone s way set).regs = (wayDisabled s way set).regs := by
  unfold wayDisableDone
  rw [if_neg (by simp [h])]
  split
  · exact ⟨rfl, rfl⟩
  dsimp only
  split
  · exact ⟨rfl, rfl⟩
  · exact ⟨rfl, rfl⟩

/-! ## The end of the error window (R176) -/

/-- Registers at different addresses, all written one value. -/
theorem rd_foldl_wr_const (s : State) {f : Nat → Nat} (hf : f.Injective) (v : Nat) {n j : Nat} (h : j < n) :
    rd ((List.range n).foldl (fun s k => wr s (f k) v) s) (f j) = v % 2 ^ 64 := by
  induction n with
  | zero => omega
  | succ n ih =>
    rw [List.range_succ, List.foldl_append, List.foldl_cons, List.foldl_nil]
    by_cases hj : j = n
    · rw [hj, rd_wr_same]
    · rw [rd_wr_other _ _ (hf.ne hj), ih (by omega)]

theorem phcWayErr_injective : Reg.phcWayErr.Injective := fun j k h => by
  unfold Reg.phcWayErr at h
  omega

/-- The counts of all ways written 0, and no other register. -/
theorem wayCounts_cleared (s : State) :
    (∀ k, k < 4 → rd ((List.range 4).foldl (fun s k => wr s (Reg.phcWayErr k) 0) s) (Reg.phcWayErr k) = 0) ∧
    (∀ a, (∀ k, k < 4 → a ≠ Reg.phcWayErr k) → rd ((List.range 4).foldl (fun s k => wr s (Reg.phcWayErr k) 0) s) a = rd s a) ∧
    OnlyChanges [.regs] s ((List.range 4).foldl (fun s k => wr s (Reg.phcWayErr k) 0) s) :=
  ⟨fun _ hk => rd_foldl_wr_const s phcWayErr_injective 0 hk,
    fun a ha => rd_foldl_same s _ fun t k hk => rd_wr_other t _ (ha k (List.mem_range.mp hk)),
    frame_foldl (fun _ _ h => wr_frame h (by decide)) (OnlyChanges.refl _ s)⟩

/-! ## The end of the drain (R172) -/

/-- What follows the end of a drain: exit from PS4 that waited, or EN written 1 meanwhile. -/
def drainFollowed (s : State) : State :=
  if s.phc.drainPs4 then (if s.phc.wake then phcWake s else s) else if enabled s .phc then phcTo s 2 else s

theorem phcWake_kept (s : State) : (phcWake s).dram = s.dram ∧ (phcWake s).phc.lines = s.phc.lines ∧
    (∀ a, a ≠ Reg.sts .phc → rd (phcWake s) a = rd s a) ∧ (enabled s .phc = false → (phcWake s).phc.st = s.phc.st) := by
  unfold phcWake
  split
  · exact ⟨rfl, rfl, fun _ _ => rfl, fun _ => rfl⟩
  dsimp only
  split
  next hon =>
    refine ⟨rfl, rfl, fun a ha => rd_phcTo ha _, fun hoff => ?_⟩
    have hoff : enabled (updPhc s fun p => { p with drainPs4 := false, wake := false }) .phc = false := hoff
    rw [hoff, Bool.and_false] at hon
    cases hon
  · exact ⟨rfl, rfl, fun _ _ => rfl, fun _ => rfl⟩

theorem drainFollowed_kept (s : State) : (drainFollowed s).dram = s.dram ∧ (drainFollowed s).phc.lines = s.phc.lines ∧
    (∀ a, a ≠ Reg.sts .phc → rd (drainFollowed s) a = rd s a) ∧ (enabled s .phc = false → (drainFollowed s).phc.st = s.phc.st) := by
  unfold drainFollowed
  split
  · split
    · exact phcWake_kept s
    · exact ⟨rfl, rfl, fun _ _ => rfl, fun _ => rfl⟩
  split
  next hon => exact ⟨rfl, rfl, fun a ha => rd_phcTo ha _, fun hoff => by rw [hoff] at hon; cases hon⟩
  · exact ⟨rfl, rfl, fun _ _ => rfl, fun _ => rfl⟩

/-- The cache emptied and DISABLED, with source 50 raised. -/
def drainEmptied (s : State) : State := raise (phcTo (phcClear (updPhc s fun p => { p with evict := [] })) 0) 50

theorem drainDone_one {k : Nat} {x : PhcLine} (hst : s.phc.st = 3) (hlines : s.phc.lines = [(k, x)]) (hdirty : x.dirty = true)
    (hevict : s.phc.evict = []) : drainDone s = drainFollowed (drainEmptied (putDramLine s x.line x.data)) := by
  unfold drainDone
  rw [if_neg (by simp [hst]), hlines, writeBack_one hdirty]
  dsimp only
  rw [putDramLine_phc, hevict, List.foldl_nil]
  rfl

/-- Outside an entry to PS4 nothing waits for the drain. -/
theorem phcDrained_awake (h : s.pwr.transit = false) : phcDrained s = drainDone s := by
  have hpwr : (drainDone s).pwr = s.pwr :=
    (drainDone_frame (F := signals ++ [.dram, .phc, .mem]) (OnlyChanges.refl _ s) (by decide) (by decide) (by decide) (by decide) (by decide)
      (by decide) (by decide) (by decide)).same .pwr (by decide)
  simp [phcDrained, hpwr, h]

/-! ## The start of a range operation (R173) -/

/-- A core's write of PHC_RNG_CMD while no range operation runs starts one. -/
theorem writeAccess_rangeCmd {i : Initiator} (h : coreAccess s i .phc 0 = true) (hidle : s.phc.rng = none) (v op : Nat) :
    writeAccess s i 0x40030 4 (setBits v 1 0 op) {} = rangeStart s (op % 4) := by
  have hop : setBits v 1 0 op % 2 ^ 32 % 4 = op % 4 := by
    have hbits := bitsOf_word_setBits v 1 0 op (by decide)
    simpa [bitsOf] using hbits
  have hfree : trigBusy s .phc 0 0x30 (setBits v 1 0 op % 2 ^ 32) = false := by simp [trigBusy, hidle]
  rw [writeAccess_trigger h rfl isTrigger_phcRange rfl]
  simp only [hfree, Bool.false_and, Bool.false_eq_true, if_false]
  exact congrArg (rangeStart s) hop

/-- A range operation with work to do starts (R173 step 1). -/
theorem rangeStart_starts {op : Nat} (hop : op ≠ 0) (hst : s.phc.st = 2) (hlen : rdField s Reg.phcRngLen 36 0 ≠ 0) :
    Claims.RangeStarts s (rangeStart s op) op := by
  unfold rangeStart
  rw [if_neg hop]
  dsimp only
  rw [if_neg (by simp [hst, hlen])]
  refine ⟨rfl, ?_, updPhc_frame (wr_frame (wrField_frame (OnlyChanges.refl _ s) (by decide)) (by decide)) (by decide)⟩
  rw [rd_updPhc, rd_wr_other _ _ (by decide), bitOf_wrField _ _ _ _ (by decide)]
  rfl

end Sys2Proof.Machine

namespace Sys2Proof.Proofs
open Sys2Proof.Machine

theorem phcFillDone : Claims.phcFillDone := by
  intro s line seg w data r q f hst hfills hline hwait hread hq hheld hclean hmiss hroom hw hok hfree
  subst hline
  let n := fillTaken s f.line
  have hbegun := phcFilled_clean hst hfills hroom hclean seg
  obtain ⟨hway, hempty⟩ := victimWay_free (s := n) hw hok hfree
  obtain ⟨trees, hphc⟩ := phcInsert_phc hempty false (dramLine s f.line)
  have hrd := rd_phcInsert n f.line false (dramLine s f.line)
  have honly : OnlyChanges [.phc, .mem] s (phcInsert n f.line false (dramLine s f.line)) :=
    phcInsert_frame (updPhc_frame (updMem_frame (OnlyChanges.refl _ s) (by decide)) (by decide)) (by decide)
  generalize phcInsert n f.line false (dramLine s f.line) = u at hphc hrd honly hbegun
  have hlines := congrArg Phc.lines hphc
  have hfind : findWay u f.line = some (victimWay n (phcSet s f.line)) :=
    findWay_nset (s := n) (x := filledLine s f.line) hmiss hway hlines (hrd _)
  have hstep : phcFilled s f.line r [] none seg = useWay u (phcSet u q.line) (victimWay n (phcSet s f.line)) := by
    have hserve : fillServe u [q] = _ := fillMiss_read (by rw [hq]; exact hfind) hread
    rw [hbegun, hwait, hserve]
    refine serveHeld_none ?_ ?_
    · rw [useWay_phc, hphc, show n.phc.st = 2 from hst]
      exact Nat.succ_ne_self 1
    · rw [useWay_phc, hphc]
      exact hheld
  refine completes_eq rfl hstep ⟨?_, ?_, useWay_frame honly (by decide)⟩
  · exact lineAt_nset (s := n) (x := filledLine s f.line) hmiss hway hlines (hrd _)
  · rw [useWay_phc, hphc]
    rfl

theorem phcFillFails : Claims.phcFillFails := by
  intro s line seg data r f hst hfills hline hheld hue hroom
  subst hline
  obtain ⟨hphc, hcause⟩ := dramReport_ue_cause hue
  have hdone := fillDone_ue (s := dramReport s f.line r) (by rwa [hphc]) (by rwa [hphc]) (lineSeg s f.line seg)
  obtain ⟨lost, hcache⟩ := fillReported_phc (dramReport s f.line r) f (lineSeg s f.line seg)
  rw [hphc] at hcache
  have hstep : phcFilled s f.line r [] none seg = fillReported (dramReport s f.line r) f (lineSeg s f.line seg) := by
    rw [phcFilled_one hfills hroom, hue, hdone]
    exact serveHeld_none (by rw [hcache]; simp [hst]) (by rw [hcache]; exact hheld)
  refine completes_eq rfl hstep ⟨by rw [hcache], by rw [hcache], by rw [hcache], ?_⟩
  rw [rd_fillReported]
  exact hcause

theorem phcWritebackAck : Claims.phcWritebackAck := by
  intro s line e hwf hfind htouched hredirty
  have hstep : writebackAck s line = updPhc (putDramLine s line e.wb) fun p => { p with evict := p.evict.filter fun x => x.line != line } := by
    simp [writebackAck, hfind, htouched, hredirty]
  refine completes_eq rfl hstep ⟨lineStored_of_dram (lineStored_putDramLine hwf line e.wb) rfl, fun x hx => ?_, ?_⟩
  · simpa using (List.mem_filter.mp hx).2
  · exact updPhc_frame (putDramLine_frame (OnlyChanges.refl _ s) (by decide) (by decide)) (by decide)

theorem phcErrWindowEnd : Claims.phcErrWindowEnd := by
  intro s hfull
  have hstep : errWindowEnd s = (List.range 4).foldl (fun s k => wr s (Reg.phcWayErr k) 0) (updPhc s fun p => { p with accesses := 0 }) := by
    rw [errWindowEnd, if_neg (Nat.not_lt.mpr hfull)]
  obtain ⟨hzero, hother, honly⟩ := wayCounts_cleared (updPhc s fun p => { p with accesses := 0 })
  refine completes_eq rfl hstep ⟨honly.same .phc (by decide), hzero, hother, ?_⟩
  exact (updPhc_frame (OnlyChanges.refl [.phc, .regs] s) (by decide)).trans (honly.mono (by decide))

theorem phcWayDisableDone : Claims.phcWayDisableDone := by
  intro s way set hdis hway hheld
  obtain ⟨hphc, hoff, hraised⟩ := wayDisabled_done hdis hway hheld
  obtain ⟨hphc', hregs⟩ := wayDisableDone_kept hdis
  have hcache := hphc'.trans hphc
  refine ⟨_, rfl, fun x hx => ?_, by rw [hcache], ?_, ?_⟩
  · rw [hcache] at hx
    simpa using (List.mem_filter.mp hx).2
  · rwa [wayOff, rd_of_regs hregs]
  · rwa [raised, rd_of_regs hregs]

theorem phcInvalidationDone : Claims.phcInvalidationDone := by
  intro s hst hheld hps4
  have hstep : invalidationDone s = phcTo (phcClear s) (if enabled s .phc then 2 else 0) := by
    have hnow : invalidationDone s = serveHeld (phcTo (phcClear s) (if enabled s .phc then 2 else 0)) := by
      simp [invalidationDone, hst, hps4]
    rw [hnow]
    refine serveHeld_none ?_ hheld
    rw [phcTo_phc]
    split <;> simp
  refine completes_eq rfl hstep ⟨rfl, rfl, ?_, phcTo_frame (updPhc_frame (OnlyChanges.refl _ s) (by decide)) (by decide) (by decide)⟩
  rw [active_phcTo]
  cases enabled s .phc <;> rfl

theorem phcDrainDone : Claims.phcDrainDone := by
  intro s k x hst hlines hdirty hevict hwf htransit hheld
  have hstep : phcDrained s = drainFollowed (drainEmptied (putDramLine s x.line x.data)) :=
    (phcDrained_awake htransit).trans (drainDone_one hst hlines hdirty hevict)
  obtain ⟨hdram, hleft, hrd, hoff⟩ := drainFollowed_kept (drainEmptied (putDramLine s x.line x.data))
  refine completes_eq rfl hstep ⟨lineStored_of_dram (lineStored_putDramLine hwf x.line x.data) ?_, ?_, ?_, fun hen => ?_⟩
  · rw [hdram, drainEmptied, raise_dram]
    rfl
  · rw [hleft, drainEmptied, raise_phc]
    rfl
  · rw [raised_of_rd (hrd _ (by decide))]
    exact raised_raise (by decide) (by decide) hheld
  · rw [hoff, drainEmptied, raise_phc]
    · rfl
    · rw [enabled, drainEmptied, rd_raise _ _ (by decide), rd_phcTo (by decide)]
      exact hen

theorem phcRangeClean : Claims.phcRangeClean := fun _ _ v ⟨hacc, hidle, hst, hlen⟩ =>
  completes_eq rfl (writeAccess_rangeCmd hacc hidle v.toNat 1) (rangeStart_starts (by decide) hst hlen)

/-- Settles O35, event by event. -/
theorem cacheEvents : Obligations.CacheEvents :=
  ⟨phcFillDone, phcFillFails, phcWritebackAck, phcErrWindowEnd, phcWayDisableDone, phcInvalidationDone, phcDrainDone, phcRangeClean⟩

end Sys2Proof.Proofs
end
section
/-! PROOFS. Range operations, operations by set and way (R173, R175), and what one client request does to the fills and, in DRAINING, to
the lines and DRAM (R167, R170, R171). Settles O36. -/

namespace Sys2Proof.Machine

variable {s : State}

/-! ## The end of a range operation (R173) -/

/-- A range operation that has visited a dirty line of the cache. -/
def visited (r : PhcRange) (x : PhcLine) : PhcRange :=
  { r with seen := x.line :: r.seen, wb := r.wb + (if r.op % 2 = 1 then 1 else 0), inv := r.inv + (if 2 ≤ r.op then 1 else 0) }

theorem visitLine_dirty {r : PhcRange} {w : Nat} {x : PhcLine} (hr : s.phc.rng = some r) (hlo : r.lo ≤ x.line) (hhi : x.line < r.hi)
    (hseen : r.seen = []) (hfind : findWay s x.line = some w) (hx : nget s.phc.lines (slotKey (phcSet s x.line) w) = some x)
    (hdirty : x.dirty = true) : visitLine s x.line =
      updPhc (lineOp s r.op (slotKey (phcSet s x.line) w) x) fun p => { p with rng := some (visited r x) } := by
  have hnew : ¬ (decide (x.line < r.lo) || decide (r.hi ≤ x.line) || r.seen.contains x.line) = true := by
    simp [hseen, hlo, hhi]
  unfold visitLine
  rw [hr]
  dsimp only
  rw [if_neg hnew, hfind, Option.bind_some, hx, Option.map_some]
  simp [visited, hdirty]

/-- The registers as a range operation with these counts leaves them, and source 49. -/
def rangeEnd (s : State) (n : PhcRange) : State :=
  raise (wr (wr (wrField (wrField (updPhc s fun p => { p with rng := none }) (Reg.sts .phc) 18 18 0) Reg.phcRngRes 31 31 1)
    Reg.phcRngWb n.wb) Reg.phcRngInv n.inv) 49

theorem rangeEnd_ends (s : State) (n : PhcRange) : (rangeEnd s n).dram = s.dram ∧ (rangeEnd s n).phc.lines = s.phc.lines ∧
    rd (rangeEnd s n) Reg.phcRngWb = n.wb % 2 ^ 64 ∧ rd (rangeEnd s n) Reg.phcRngInv = n.inv % 2 ^ 64 ∧
    (s.chip.held = false → raised (rangeEnd s n) 49 = true) := by
  refine ⟨raise_dram .., ?_, ?_, ?_, fun h => raised_raise (by decide) (by decide) h⟩
  · rw [rangeEnd, raise_phc]
    rfl
  · rw [rangeEnd, rd_raise _ _ (by decide), rd_wr_other _ _ (by decide), rd_wr_same]
  · rw [rangeEnd, rd_raise _ _ (by decide), rd_wr_same]

/-- A range operation that has one dirty line left to visit visits it and ends. -/
theorem rangeDone_one {r : PhcRange} {w : Nat} {x : PhcLine} (hr : s.phc.rng = some r) (hseen : r.seen = []) (hevict : s.phc.evict = [])
    (hw : w < phcWays s) (hlines : s.phc.lines = [(slotKey (phcSet s x.line) w, x)]) (hlo : r.lo ≤ x.line) (hhi : x.line < r.hi)
    (hdirty : x.dirty = true) : rangeDone s =
      rangeEnd (updPhc (lineOp s r.op (slotKey (phcSet s x.line) w) x) fun p => { p with rng := some (visited r x) }) (visited r x) := by
  have hvisit := visitLine_dirty hr hlo hhi hseen (findWay_only hw hlines) (by simp [hlines, nget]) hdirty
  have hls : ((s.phc.lines.map fun x => x.2.line) ++ s.phc.evict.map fun e => e.line).filter (fun l => r.lo ≤ l && l < r.hi) = [x.line] := by
    simp [hlines, hevict, hlo, hhi]
  unfold rangeDone
  rw [hr]
  dsimp only
  rw [hls, List.foldl_cons, List.foldl_nil, hvisit]
  rfl

/-! ## Operations by set and way (R175) -/

theorem isTrigger_phcSwop : IsTrigger .phc 0 0x18 (single 0x18 [wo 31 30 nonzero, wo 20 17, wo 16 0]) :=
  ⟨rfl, rfl, rfl, rfl, rfl, rfl, fun _ => rfl⟩

/-- The fields of a PHC_SWOP word (Table 6-9). -/
theorem swopWord_fields {op way set : Nat} (hop : op < 4) (hway : way < 16) (hset : set < 2 ^ 17) :
    swopWord op way set % 2 ^ 32 = swopWord op way set ∧ bitsOf (swopWord op way set) 31 30 = op ∧
      bitsOf (swopWord op way set) 20 17 = way ∧ bitsOf (swopWord op way set) 16 0 = set := by
  unfold swopWord bitsOf
  omega

theorem phcSets_le (s : State) : phcSets s ≤ 2 ^ 17 := by
  have htwo : 2 ≤ phcWays s := Nat.le_self_pow (Nat.succ_ne_zero _) 2
  exact (Nat.div_le_div_left htwo (by decide)).trans (by decide)

/-- A core's legal write of PHC_SWOP is the operation it names. -/
theorem writeAccess_swopCmd {i : Initiator} {v : Nat} (h : coreAccess s i .phc 0 = true) (hlegal : swopLegal s v = true)
    (hword : v % 2 ^ 32 = v) : writeAccess s i 0x40018 4 v {} = swop s v := by
  have hop : nonzero (bitsOf v 31 30) = true := by
    rw [swopLegal, Bool.and_assoc, Bool.and_eq_true] at hlegal
    exact hlegal.1
  have hfields : (single 0x18 [wo 31 30 nonzero, wo 20 17, wo 16 0]).row.flds.all (accepts (v % 2 ^ 32)) = true := by
    rw [hword]
    simp [single, r32, wo, accepts, hop]
  rw [writeAccess_trigger h rfl isTrigger_phcSwop hfields, hword]
  have hfree : trigBusy s .phc 0 0x18 v = false := rfl
  have heffect : flashEffect s i .phc 0 0x18 v {} = swop s v := if_pos hlegal
  simp only [hfree, Bool.false_and, Bool.false_eq_true, if_false, heffect]
  rfl

/-- A set and way operation on a line of a usable way, no range operation running, applies OP to the line. -/
theorem writeAccess_swop {i : Initiator} {op way set : Nat} {x : PhcLine} (hop : op < 4) (hop0 : op ≠ 0)
    (h : Claims.SwopReady s i way set x) :
    writeAccess s i 0x40018 4 (swopWord op way set) {} = lineOp s op (slotKey set way) x := by
  obtain ⟨hacc, hst, hrng, hway, hset, hon, hx, -⟩ := h
  obtain ⟨hword, hopf, hwayf, hsetf⟩ := swopWord_fields hop (hway.trans_le (phcWays_le s)) (hset.trans_le (phcSets_le s))
  generalize swopWord op way set = v at hword hopf hwayf hsetf
  have hpass : rangePass s x.line = s := by simp [rangePass, hrng]
  rw [writeAccess_swopCmd hacc (by simp [swopLegal, hopf, hwayf, hsetf, hop0, hway, hset]) hword]
  simp [swop, hst, hwayf, hsetf, hopf, hon, hx, hpass]

/-! ## The fills outstanding (R167) -/

theorem lineOp_fills (s : State) (op k : Nat) (x : PhcLine) : (lineOp s op k x).phc.fills = s.phc.fills := by
  have hput (c : Bool) : (if c then putDramLine s x.line x.data else s).phc = s.phc := by cases c <;> rfl
  unfold lineOp
  dsimp only
  split
  · rw [phcDrop, updPhc_phc, hput]
  · rw [updPhc_phc, hput]
theorem evictOp_fills (s : State) (op : Nat) (e : PhcEvict) : (evictOp s op e).phc.fills = s.phc.fills := by
  have hput : (if op % 2 = 1 then putDramLine s e.line e.data else s).phc = s.phc := by split <;> rfl
  unfold evictOp
  dsimp only
  split <;> rw [updPhc_phc, hput]
theorem visitLine_fills (s : State) (line : Nat) : (visitLine s line).phc.fills = s.phc.fills := by
  unfold visitLine
  split
  · rfl
  split
  · rfl
  split
  · exact lineOp_fills _ _ _ _
  split
  · exact evictOp_fills _ _ _
  · rfl
theorem rangePass_fills (s : State) (line : Nat) : (rangePass s line).phc.fills = s.phc.fills := by
  unfold rangePass
  split
  · rfl
  split
  · rfl
  dsimp only
  split
  · exact visitLine_fills _ _
  · rfl
theorem phcServe_fills (s : State) (r : LineReq) (w : Nat) : (phcServe s r w).phc.fills = s.phc.fills := by
  unfold phcServe
  dsimp only
  split
  · rfl
  split
  · split <;> rfl
  · rfl

/-- A lookup adds a fill only where fewer than 64 are outstanding. -/
theorem phcLookup_fills (h : s.phc.fills.length ≤ 64) (r : LineReq) : (phcLookup s r).phc.fills.length ≤ 64 := by
  unfold phcLookup
  split
  · rwa [phcPass_phc]
  · exact h
  · have hpass : (rangePass s r.line).phc.fills.length ≤ 64 := by rwa [rangePass_fills]
    dsimp only
    split
    · rwa [phcHit, phcServe_fills, satAdd_phc]
    split
    · exact hpass
    split
    · rwa [updPhc_phc, List.length_map]
    split
    · exact hpass
    next hroom =>
      rw [updPhc_phc, satAdd_phc, List.length_append]
      simp; omega
  · split
    · dsimp only
      split
      · exact h
      · split <;> exact h
    split
    · exact h
    · rwa [phcPass_phc]

/-- A miss with 64 fills outstanding is held. -/
theorem phcLookup_full {r : LineReq} (hst : s.phc.st = 2) (hrng : s.phc.rng = none) (hfull : s.phc.fills.length = 64)
    (hmiss : findWay s r.line = none) (hevict : ∀ e ∈ s.phc.evict, e.line ≠ r.line) (hfills : ∀ f ∈ s.phc.fills, f.line ≠ r.line) :
    phcLookup s r = updPhc s fun p => { p with held := p.held ++ [r] } := by
  have hpass : rangePass s r.line = s := by simp [rangePass, hrng]
  have hnoEvict : (s.phc.evict.any fun e => e.line == r.line) = false := by simpa using hevict
  have hnoFill : (s.phc.fills.any fun f => f.line == r.line) = false := by simpa using hfills
  simp [phcLookup, hst, hpass, hmiss, hnoEvict, hnoFill, hfull]

/-! ## A request in DRAINING (R170, R171) -/

/-- A request of a line that no way holds is served in the eviction buffer, or passed to DRAM. -/
theorem phcLookup_draining {r : LineReq} (hst : s.phc.st = 3) (hmiss : findWay s r.line = none) : phcLookup s r =
    if s.phc.evict.any fun e => e.line == r.line then updPhc s fun p => { p with evict := p.evict.map fun e => evictServe e r }
    else phcPass s r := by
  simp [phcLookup, hst, hmiss]

/-- An access counted by the error window. -/
def accessCounted (s : State) : State := updPhc s fun p => { p with accesses := p.accesses + 1 }

end Sys2Proof.Machine

namespace Sys2Proof.Proofs
open Sys2Proof.Machine

theorem phcRangeInvalidate : Claims.phcRangeInvalidate := fun _ _ v ⟨hacc, hidle, hst, hlen⟩ =>
  completes_eq rfl (writeAccess_rangeCmd hacc hidle v.toNat 2) (rangeStart_starts (by decide) hst hlen)
theorem phcRangeCleanInvalidate : Claims.phcRangeCleanInvalidate := fun _ _ v ⟨hacc, hidle, hst, hlen⟩ =>
  completes_eq rfl (writeAccess_rangeCmd hacc hidle v.toNat 3) (rangeStart_starts (by decide) hst hlen)

theorem phcRangeDone : Claims.phcRangeDone := by
  intro s r w x hr hseen hwb hinv hevict hw hlines hlo hhi hdirty hwf hheld
  have hstep := rangeDone_one hr hseen hevict hw hlines hlo hhi hdirty
  obtain ⟨hdram, hleft, hwbs, hinvs, hraised⟩ := rangeEnd_ends (updPhc (lineOp s r.op (slotKey (phcSet s x.line) w) x) fun p =>
    { p with rng := some (visited r x) }) (visited r x)
  replace hraised := hraised (by rwa [updPhc_chip, lineOp_chip])
  generalize rangeEnd _ (visited r x) = t at hstep hdram hleft hwbs hinvs hraised
  rw [updPhc_dram] at hdram
  rw [updPhc_phc] at hleft
  have hstored := lineStored_putDramLine hwf x.line x.data
  have hdropped (u : State) (hu : u.phc = s.phc) : (phcDrop u (slotKey (phcSet s x.line) w)).phc.lines = [] := by
    simp [phcDrop, hu, hlines, ndel]
  refine ⟨fun hop => ?_, fun hop => ?_, fun hop => ?_⟩
  · rw [hop, lineOp_clean hdirty] at hdram hleft
    refine completes_eq rfl hstep ⟨lineStored_of_dram hstored hdram, hleft.trans ?_, hwbs.trans ?_, hraised⟩
    · simp [hlines, nset]
    · simp [visited, hop, hwb]
  · rw [hop, lineOp_invalidate] at hdram hleft
    refine completes_eq rfl hstep ⟨hdram, hleft.trans (hdropped s rfl), hinvs.trans ?_, hraised⟩
    simp [visited, hop, hinv]
  · rw [hop, lineOp_cleanInvalidate hdirty] at hdram hleft
    refine completes_eq rfl hstep ⟨lineStored_of_dram hstored hdram, hleft.trans (hdropped _ rfl), hwbs.trans ?_, hinvs.trans ?_⟩
    · simp [visited, hop, hwb]
    · simp [visited, hop, hinv]

theorem phcSwopClean : Claims.phcSwopClean := by
  intro s i way set x hready
  have hstep := writeAccess_swop (op := 1) (by decide) (by decide) hready
  obtain ⟨-, -, -, -, -, -, -, hdirty, hwf, -⟩ := hready
  rw [lineOp_clean hdirty] at hstep
  refine completes_eq rfl hstep ⟨lineStored_of_dram (lineStored_putDramLine hwf x.line x.data) rfl, nget_nset_same _ _ _, ?_⟩
  exact updPhc_frame (putDramLine_frame (OnlyChanges.refl _ s) (by decide) (by decide)) (by decide)

theorem phcSwopInvalidate : Claims.phcSwopInvalidate := by
  intro s i way set x hready
  have hstep := writeAccess_swop (op := 2) (by decide) (by decide) hready
  obtain ⟨-, -, -, -, -, -, -, -, -, hsorted⟩ := hready
  rw [lineOp_invalidate] at hstep
  exact completes_eq rfl hstep ⟨rfl, nget_ndel_same _ hsorted, phcDrop_frame (OnlyChanges.refl _ s) (by decide)⟩

theorem phcSwopCleanInvalidate : Claims.phcSwopCleanInvalidate := by
  intro s i way set x hready
  have hstep := writeAccess_swop (op := 3) (by decide) (by decide) hready
  obtain ⟨-, -, -, -, -, -, -, hdirty, hwf, hsorted⟩ := hready
  rw [lineOp_cleanInvalidate hdirty] at hstep
  refine completes_eq rfl hstep ⟨lineStored_of_dram (lineStored_putDramLine hwf x.line x.data) rfl, nget_ndel_same _ hsorted, ?_⟩
  exact phcDrop_frame (putDramLine_frame (OnlyChanges.refl _ s) (by decide) (by decide)) (by decide)

theorem phcFillsBounded : Claims.phcFillsBounded := by
  intro s r hbound
  refine ⟨phcLookup_fills (s := accessCounted s) hbound r, fun hst hrng hfull hmiss hevict hfills => ?_⟩
  have hstep : phcRequest s r = _ := phcLookup_full (s := accessCounted s) hst hrng hfull hmiss hevict hfills
  rw [hstep]
  exact ⟨rfl, rfl⟩

theorem phcDrainingRequest : Claims.phcDrainingRequest := by
  intro s r hst hmiss
  have hstep : phcRequest s r = if s.phc.evict.any fun e => e.line == r.line then
      updPhc (accessCounted s) fun p => { p with evict := p.evict.map fun e => evictServe e r } else phcPass (accessCounted s) r :=
    phcLookup_draining (s := accessCounted s) hst hmiss
  have hcache := phcPass_phc (accessCounted s) r
  rw [hstep]
  cases s.phc.evict.any fun e => e.line == r.line with
  | true => exact ⟨rfl, rfl, fun _ => rfl, fun h => nomatch h⟩
  | false =>
    simp only [Bool.false_eq_true, if_false]
    refine ⟨?_, ?_, fun h => (nomatch h), fun _ hread => ?_⟩
    · rw [hcache]
      rfl
    · rw [hcache]
      rfl
    · rw [phcPass_read hread]
      rfl

/-- Settles O36, operation by operation. -/
theorem cacheOperations : Obligations.CacheOperations :=
  ⟨phcRangeInvalidate, phcRangeCleanInvalidate, phcRangeDone, phcSwopClean, phcSwopInvalidate, phcSwopCleanInvalidate, phcFillsBounded,
    phcDrainingRequest⟩

end Sys2Proof.Proofs
end
section
/-! PROOFS. A statement that fails at one clause: a read whose first hard decode fails does not ask that its operation names a LUN of
Table 5-1, whose numbers end at 1,023. Refutes O39. -/

namespace Sys2Proof.Proofs
open Sys2Proof.Machine

/-- A read of one codeword runs on LUN 1,024. A slot's address holds ten bits of its LUN (Table 5-1), so those of this read name LUN 0,
which MAP_LUNRET0 retires. -/
def strayLun : State :=
  { State.reset with
    regs := [(rLunRet 0, 1)]
    flash := { State.reset.flash with
      ops := [(2, { kind := .read, lun := 1024, block := 0, cls := 1, st := .running, cws := [(0, [.cmd 3])] })] } }

/-- Its one codeword does not decode. -/
def undecoded : CodewordRead := { slot := 0, decoded := false, corrected := 0, stats := { rawOnes := 0, corrOnes := 0, weight := 0 } }

/-- LUN 1,024 is neither faulted nor retired. -/
theorem strayLun_inService : bit32 strayLun (rLunFlt (lunChn 1024)) (lunPos 1024) = false ∧
    lunRetired strayLun (lunChn 1024) (lunPos 1024) = false := by decide +kernel

/-- The read that step 2 adds is one of LUN 0, and is lost at once with that LUN (R480): no operation is left. -/
theorem strayLun_read_lost : (readComplete strayLun 2 [undecoded]).flash.ops = [] := by decide +kernel

/-- A ladder's first read need not stay, where the operation's LUN is not the one that its slots' addresses name. -/
theorem not_readFails : ¬ Claims.readFails := by
  intro h
  obtain ⟨hflt, hret⟩ := strayLun_inService
  obtain ⟨t, ht, l, k, p, -, -, -, -, -, hops, -⟩ :=
    h strayLun 2 0 3 _ undecoded rfl rfl rfl rfl rfl rfl rfl rfl hflt hret rfl rfl rfl
  have ht : readComplete strayLun 2 [undecoded] = t := Host.Outcome.next.inj ht
  rw [← ht, strayLun_read_lost] at hops
  exact absurd hops (by simp)

/-- Refutes O39: with the operation on LUN 1,024 and LUN 0 retired, the read that `readFails` promises is gone. -/
theorem not_readsAndRebuilds : ¬ Obligations.ReadsAndRebuilds := fun h => by
  obtain ⟨-, hfails, -⟩ := h
  exact not_readFails hfails

end Sys2Proof.Proofs
end

section
/-! PROOFS. What grants keep (R201): every operation but for where it stands in its courier, every courier but for its bus and its
snapshots, and every CHN_CAUSE bit that is set (Table 7-13). For O40. -/

namespace Sys2Proof.Machine

variable {s t z : State}

/-- Of an operation, what grants and bus transfers leave as it is. -/
def opCore (o : FOp) : FOp := { o with st := .held, units := 0, wait := none, resume := false }
/-- Of a courier, what grants, bus transfers and snapshots leave as it is. -/
def courierCore (x : Courier) : Courier := { x with snaps := [], snapCount := 0, snapHead := 0, bus := none, busLast := 0 }
/-- What they leave of the operations, in their order. -/
def opCores (s : State) : NMap FOp := s.flash.ops.map fun e => (e.1, opCore e.2)

theorem courier_modCourier_same (s : State) (c : Nat) (f : Courier → Courier) : courier (modCourier s c f) c = f (courier s c) :=
  ngetD_nset_same _ _ _ _
theorem courier_modCourier_other (s : State) {c d : Nat} (f : Courier → Courier) (h : d ≠ c) : courier (modCourier s c f) d = courier s d :=
  ngetD_nset_other _ _ _ h
theorem courier_of_flash (h : t.flash = s.flash) (c : Nat) : courier t c = courier s c := by rw [courier, h, courier]

theorem opCores_of_flash (h : t.flash = s.flash) : opCores t = opCores s := by rw [opCores, h, opCores]

theorem opCores_modOp (s : State) (id : Nat) {f : FOp → FOp} (hf : ∀ o, opCore (f o) = opCore o) : opCores (modOp s id f) = opCores s := by
  have hset : ∀ (m : NMap FOp) (o : FOp), nget m id = some o →
      (nset m id (f o)).map (fun e => (e.1, opCore e.2)) = m.map fun e => (e.1, opCore e.2) := by
    intro m o
    induction m with
    | nil => exact nofun
    | cons e r ih =>
      obtain ⟨k, w⟩ := e
      intro hget
      by_cases hk : id = k
      · subst hk
        obtain rfl : w = o := by simpa [nget] using hget
        simp [nset, hf]
      by_cases hlt : id < k
      · simp [nget, hk, hlt] at hget
      · have hrest : nget r id = some o := by simpa [nget, hk, hlt] using hget
        simp only [nset, hk, hlt, if_false, List.map_cons, ih hrest]
  unfold opCores modOp nmod
  rw [updFlash_flash]
  cases hget : nget s.flash.ops id with
  | none => rfl
  | some o => exact hset _ o hget

theorem op_of_cores (h : opCores t = opCores s) {id : Nat} {o : FOp} (ho : nget s.flash.ops id = some o) :
    ∃ p, nget t.flash.ops id = some p ∧ opCore p = opCore o := by
  have hmap : (nget t.flash.ops id).map opCore = some (opCore o) := by
    rw [← nget_mapVals, ← Option.map_some, ← ho, ← nget_mapVals]
    exact congrArg (nget · id) h
  exact Option.map_eq_some_iff.mp hmap

theorem noOps_of_cores (h : opCores t = opCores s) (ho : s.flash.ops = []) : t.flash.ops = [] :=
  List.map_eq_nil_iff.mp (h.trans (by rw [opCores, ho, List.map_nil]))

/-- From s to t the operations, the couriers and the CHN_CAUSE bits change as grants change them. -/
structure GrantKept (s t : State) : Prop where
  ops : opCores t = opCores s
  couriers : ∀ c, courierCore (courier t c) = courierCore (courier s c)
  causes : ∀ c j, j < 64 → bitOf (rd s (chn c 0x44)) j = true → bitOf (rd t (chn c 0x44)) j = true

theorem signalReg_chn (c o : Nat) : signalReg (chn c o) = false := by
  rw [← Bool.not_eq_true, signalReg_iff]
  unfold chn
  omega

namespace GrantKept

theorem refl (s : State) : GrantKept s s := ⟨rfl, fun _ => rfl, fun _ _ _ h => h⟩
theorem trans (h : GrantKept z s) (k : GrantKept s t) : GrantKept z t :=
  ⟨k.ops.trans h.ops, fun c => (k.couriers c).trans (h.couriers c), fun c j hj hb => k.causes c j hj (h.causes c j hj hb)⟩
theorem ite {c : Prop} [Decidable c] (h : GrantKept z s) (k : GrantKept z t) : GrantKept z (if c then s else t) := by
  split <;> assumption
theorem foldl {α : Type} {g : State → α → State} (hg : ∀ x a, GrantKept z x → GrantKept z (g x a)) (l : List α) (h : GrantKept z s) :
    GrantKept z (l.foldl g s) := by
  induction l generalizing s with
  | nil => exact h
  | cons a r ih => exact ih (hg s a h)

theorem of_flash (h : GrantKept z s) (hf : t.flash = s.flash) (hb : ∀ c j, j < 64 → bitOf (rd s (chn c 0x44)) j = true →
    bitOf (rd t (chn c 0x44)) j = true) : GrantKept z t :=
  h.trans ⟨by rw [opCores, hf, opCores], fun c => by rw [courier_of_flash hf], hb⟩

theorem raiseWith (h : GrantKept z s) (n : Nat) (pl : List Byte) (o : Nat) : GrantKept z (raiseWith s n pl o) :=
  h.of_flash (raiseWith_flash s n pl o) fun c _ _ hb => by rwa [rd_raiseWith _ _ _ _ (signalReg_chn c 0x44)]
theorem raise (h : GrantKept z s) (n : Nat) : GrantKept z (raise s n) := h.raiseWith n _ _
theorem satAdd (h : GrantKept z s) (a hi lo n : Nat) (ha : ∀ c, chn c 0x44 ≠ a) : GrantKept z (satAdd s a hi lo n) :=
  h.of_flash rfl fun c _ _ hb => by rwa [rd_satAdd_other _ (ha c)]
theorem orReg (h : GrantKept z s) (a m : Nat) : GrantKept z (orReg s a m) :=
  h.of_flash rfl fun c j hj hb => by
    by_cases ha : chn c 0x44 = a
    · rw [← ha, bitOf_orReg _ _ _ _ hj, hb, Bool.true_or]
    · rwa [rd_orReg_other _ ha]
theorem setCause (h : GrantKept z s) (a bit src : Nat) : GrantKept z (setCause s a bit src) := .ite h (.raise (h.orReg a _) src)

theorem modOp (h : GrantKept z s) (id : Nat) (f : FOp → FOp) (hf : ∀ o, opCore (f o) = opCore o := by exact fun _ => rfl) :
    GrantKept z (modOp s id f) :=
  h.trans ⟨opCores_modOp s id hf, fun _ => rfl, fun _ _ _ hb => hb⟩
theorem modCourier (h : GrantKept z s) (c : Nat) (f : Courier → Courier) (hf : ∀ x, courierCore (f x) = courierCore x := by exact fun _ => rfl) :
    GrantKept z (modCourier s c f) :=
  h.trans ⟨rfl, fun d => by
    by_cases hd : d = c
    · rw [hd, courier_modCourier_same, hf]
    · rw [courier_modCourier_other _ _ hd], fun _ _ _ hb => hb⟩

theorem chn_ne_other {o : Nat} (ho : o < 0x4000) (hne : o ≠ 0x44) (c d : Nat) : chn c 0x44 ≠ chn d o := by
  unfold chn
  omega

theorem snapCapture (h : GrantKept z s) (c kinds : Nat) (lun : Option Nat) : GrantKept z (snapCapture s c kinds lun) :=
  .ite (h.satAdd _ 31 16 1 fun d => chn_ne_other (by decide) (by decide) d c) ((h.modCourier c _).raiseWith _ _ _)
theorem snapTrigger (h : GrantKept z s) (c bit kind : Nat) (lun : Option Nat) : GrantKept z (snapTrigger s c bit kind lun) :=
  .ite (h.snapCapture c _ lun) h
theorem chnCauseSet (h : GrantKept z s) (c bit : Nat) (lun : Option Nat) : GrantKept z (chnCauseSet s c bit lun) := by
  have hsnap := (h.orReg (chn c 0x44) (2 ^ bit)).snapTrigger c bit (3 + bit) lun
  exact .ite h (.ite (hsnap.raise c) hsnap)
theorem chnCausesSet (h : GrantKept z s) (c : Nat) (bits : List (Nat × Option Nat)) : GrantKept z (chnCausesSet s c bits) := by
  unfold Machine.chnCausesSet
  dsimp only
  refine .foldl (fun x b hx => .ite (hx.raise c) hx) _ ?_
  have hset := foldl (fun x b hx => hx.orReg (chn c 0x44) (2 ^ b.1)) (bits.filter fun b => !bitOf (rd s (chn c 0x44)) b.1) h
  exact .ite hset (hset.snapCapture c _ _)
theorem dstCauseSet (h : GrantKept z s) (d bit : Nat) : GrantKept z (dstCauseSet s d bit) := h.setCause _ bit _

theorem busEnd (h : GrantKept z s) (c : Nat) : GrantKept z (busEnd s c) := by
  unfold Machine.busEnd
  split
  · exact h
  · exact (h.modCourier c _).modOp _ _
theorem busDone (h : GrantKept z s) (id : Nat) (o : FOp) : GrantKept z (busDone s id o) := (h.busEnd _).modOp id _

theorem startOp (h : GrantKept z s) (id : Nat) (o : FOp) : GrantKept z (startOp s id o) := by
  have hrun : GrantKept z (Machine.modOp s id fun x => { x with st := .running, resume := false }) := h.modOp id _
  exact .ite (.ite hrun (.chnCauseSet (hrun.satAdd _ 31 0 1 fun d => chn_ne_other (by decide) (by decide) d _) _ 5 _))
    (h.modOp id _)
theorem startUnit (h : GrantKept z s) (id : Nat) (o : FOp) : GrantKept z (startUnit s id o) := h.modCourier _ _

theorem opDst_lt (o : FOp) : opDst o < 4 := by
  unfold opDst lunChn
  omega

theorem granted (h : GrantKept z s) (a : Ask) (o : FOp) : GrantKept z (granted s a o) := by
  have hstart : GrantKept z (if a.bus then Machine.startUnit s a.id o else Machine.startOp s a.id o) := .ite (h.startUnit a.id o) (h.startOp a.id o)
  have hrun := hstart.modOp a.id fun x => { x with wait := none }
  have hd := opDst_lt o
  exact .ite (.dstCauseSet (hrun.satAdd _ 31 0 1 fun c => by unfold chn dst; omega) _ 0) hrun
theorem grant (h : GrantKept z s) (d : Nat) (l : List Ask) (blocked : Nat) : GrantKept z (grant d l blocked s) := by
  induction l generalizing s blocked with
  | nil => exact h
  | cons a r ih =>
    unfold Machine.grant
    split
    · exact ih h _
    split
    · exact h
    split
    · exact ih (h.granted a _) _
    · have hwait := h.modOp a.id fun x => { x with wait := some (x.wait.getD s.clk.tb) }
      exact ih (.ite (hwait.dstCauseSet d 1) hwait) _
theorem grants (h : GrantKept z s) (d : Nat) : GrantKept z (grants s d) := .ite h ((h.grant d _ 9).grant d _ 9)
theorem queueOp (h : GrantKept z s) (x : Nat × FOp) : GrantKept z (queueOp s x) := .ite (h.modOp x.1 _) h
theorem pump (h : GrantKept z s) : GrantKept z (pump s) := .foldl (fun _ d hx => hx.grants d) _ (.foldl (fun _ x hx => hx.queueOp x) _ h)

/-- An operation that was there is there still, the same but for where it stands. -/
theorem op (h : GrantKept s t) {id : Nat} {o : FOp} (ho : nget s.flash.ops id = some o) :
    ∃ p, nget t.flash.ops id = some p ∧ opCore p = opCore o := op_of_cores h.ops ho
/-- Where no operation was under way, none is. -/
theorem noOps (h : GrantKept s t) (ho : s.flash.ops = []) : t.flash.ops = [] := noOps_of_cores h.ops ho

end GrantKept

end Sys2Proof.Machine
end

section
/-! PROOFS. What follows flash operations where the map's side is quiet, the CHN_CAUSE bits (R204), and reads that wait (R186, R192).
For O40. -/

namespace Sys2Proof.Machine

variable {s t : State}

/-! ## What follows the end of a flash operation where the map's side is quiet -/

/-- No command, open superblock, page group, relocation, held pin, checkpoint or retry of a program waits for flash operations. -/
structure MapQuiet (s : State) : Prop where
  cmds   : s.srt.cmds = []
  opens  : s.map.opens = []
  pgs    : s.map.pgs = []
  relocs : s.map.relocs = []
  pins   : s.map.pinHold = []
  cut    : s.jrc.cutSt = 0
  rounds : s.prog.pinned = false

theorem Calm.quiet (h : Calm s) : MapQuiet s := ⟨h.cmds, h.opens, h.pgs, h.relocs, h.pins, h.cut, h.rounds⟩

/-- The parts that flash operations and couriers write. -/
def courierParts : List Part := signals ++ [.chip, .flash]

theorem MapQuiet.of_only (h : MapQuiet s) (k : OnlyChanges courierParts s t) : MapQuiet t := by
  have hsrt : t.srt = s.srt := k.same .srt (by decide)
  have hmap : t.map = s.map := k.same .map (by decide)
  have hjrc : t.jrc = s.jrc := k.same .jrc (by decide)
  have hprog : t.prog = s.prog := k.same .prog (by decide)
  exact ⟨hsrt ▸ h.cmds, hmap ▸ h.opens, hmap ▸ h.pgs, hmap ▸ h.relocs, hmap ▸ h.pins, hjrc ▸ h.cut, hprog ▸ h.rounds⟩

theorem Calm.of_only (h : Calm s) (k : OnlyChanges courierParts s t) : Calm t := by
  have hsrt : t.srt = s.srt := k.same .srt (by decide)
  have hmap : t.map = s.map := k.same .map (by decide)
  have hjrc : t.jrc = s.jrc := k.same .jrc (by decide)
  have hprog : t.prog = s.prog := k.same .prog (by decide)
  exact ⟨hsrt ▸ h.cmds, hmap ▸ h.opens, hmap ▸ h.pgs, hmap ▸ h.relocs, hmap ▸ h.waiters, hjrc ▸ h.reqs, hmap ▸ h.victims, hmap ▸ h.sweeps,
    hmap ▸ h.pins, hjrc ▸ h.cut, hprog ▸ h.rounds⟩

theorem pump_only (s : State) : OnlyChanges courierParts s (pump s) :=
  pump_frame (OnlyChanges.refl _ s) (by decide) (by decide) (by decide) (by decide) (by decide) (by decide)

theorem turn_quiet (h : MapQuiet s) : turn s = pump s := by
  have hfold : (List.range 24).foldl foldStream s = s :=
    foldl_id _ fun k _ => by simp [foldStream, placeAll, h.opens, h.pgs, nget]
  rw [turn, hfold]

/-- Where the map's side is quiet, operations start and nothing else follows. -/
theorem afterFlash_quiet (h : MapQuiet s) : afterFlash s = pump s := by
  have hp := h.of_only (pump_only s)
  have hask : askAll (pump s) = pump s := by simp [askAll, hp.cmds]
  have hckpt : ckptStep (pump s) = pump s := by simp [ckptStep, hp.cut]
  rw [afterFlash, turn_quiet h, hask, hckpt, hp.relocs]
  simp [settlePins, hp.pins, retryRound, hp.rounds]

/-! ## CHN_CAUSE (R204) -/

/-- The CHN_CAUSE bit that is set is set then. -/
theorem chnCauseSet_sets (s : State) (c : Nat) {bit : Nat} (hb : bit < 64) (lun : Option Nat) :
    bitOf (rd (chnCauseSet s c bit lun) (chn c 0x44)) bit = true := by
  have hset : bitOf (rd (orReg s (chn c 0x44) (2 ^ bit)) (chn c 0x44)) bit = true := by
    rw [bitOf_orReg _ _ _ _ hb, bitOf_two_pow, Bool.or_true]
  have hsnap := GrantKept.snapTrigger (.refl (orReg s (chn c 0x44) (2 ^ bit))) c bit (3 + bit) lun
  unfold chnCauseSet
  split
  · assumption
  · exact (GrantKept.ite (hsnap.raise c) hsnap).causes c bit hb hset

theorem foldl_orReg_sets (a : Nat) {bit : Nat} (hb : bit < 64) (l : List (Nat × Option Nat)) (s : State)
    (h : bitOf (rd s a) bit = true ∨ ∃ p, (bit, p) ∈ l) : bitOf (rd (l.foldl (fun s b => orReg s a (2 ^ b.1)) s) a) bit = true := by
  induction l generalizing s with
  | nil => exact h.resolve_right (by simp)
  | cons e r ih =>
    refine ih _ ?_
    rw [bitOf_orReg _ _ _ _ hb]
    rcases h with h | ⟨p, hp⟩
    · exact .inl (by rw [h, Bool.true_or])
    · rcases List.mem_cons.mp hp with rfl | hp
      · exact .inl (by rw [bitOf_two_pow, Bool.or_true])
      · exact .inr ⟨p, hp⟩

/-- Of CHN_CAUSE bits that are set in one courier clock each is set then. -/
theorem chnCausesSet_sets (s : State) (c : Nat) {bit : Nat} {lun : Option Nat} {bits : List (Nat × Option Nat)} (hb : bit < 64)
    (hm : (bit, lun) ∈ bits) : bitOf (rd (chnCausesSet s c bits) (chn c 0x44)) bit = true := by
  unfold chnCausesSet
  lift_lets
  intro new t fire u
  have hset : bitOf (rd t (chn c 0x44)) bit = true := foldl_orReg_sets _ hb new s (by
    cases hold : bitOf (rd s (chn c 0x44)) bit
    · exact .inr ⟨lun, List.mem_filter.mpr ⟨hm, by simp [hold]⟩⟩
    · exact .inl rfl)
  have hu : GrantKept t u := .ite (.refl t) (.snapCapture (.refl t) c _ _)
  exact (GrantKept.foldl (fun x b hx => .ite (hx.raise c) hx) new hu).causes c bit hb hset

theorem chn_inj {c o p : Nat} (h : o ≠ p) : chn c o ≠ chn c p := by
  unfold chn
  omega

theorem rd_snapCapture {c o : Nat} (ho : o ≠ 0xD8) (kinds : Nat) (lun : Option Nat) :
    rd (snapCapture s c kinds lun) (chn c o) = rd s (chn c o) := by
  unfold snapCapture
  dsimp only
  split
  · exact rd_satAdd_other _ (chn_inj ho)
  · exact rd_raiseWith _ _ _ _ (signalReg_chn c o)

/-- Setting CHN_CAUSE bits leaves the courier's registers beside CHN_CAUSE and CHN_SNPSTS. -/
theorem rd_chnCausesSet {c o : Nat} (h4 : o ≠ 0x44) (hd : o ≠ 0xD8) (bits : List (Nat × Option Nat)) :
    rd (chnCausesSet s c bits) (chn c o) = rd s (chn c o) := by
  unfold chnCausesSet
  lift_lets
  intro new t fire u
  have ht : rd t (chn c o) = rd s (chn c o) := rd_foldl_same s new fun x b _ => rd_orReg_other _ (chn_inj h4)
  have hu : rd u (chn c o) = rd t (chn c o) := by
    unfold u
    split
    · rfl
    · exact rd_snapCapture hd _ _
  rw [rd_foldl_same u new fun x b _ => ?_, hu, ht]
  split
  · exact rd_raise _ _ (signalReg_chn c o)
  · rfl

end Sys2Proof.Machine

namespace Sys2Proof.Proofs
open Sys2Proof.Machine

/-! ## Reads that wait (R186, R192) -/

theorem suspendStays : Claims.suspendStays := by
  intro s id k o r ho hst hmem hlun hkind hq
  have hreads : (s.flash.ops.any fun x => x.2.lun == o.lun && x.2.kind == .read && x.2.st == .queued) = true :=
    List.any_eq_true.mpr ⟨_, hmem, by simp [hlun, hkind, hq]⟩
  refine ⟨_, rfl, ?_⟩
  simp [Machine.suspendResume, ho, hst, hreads]

theorem rdIAgeExpiry : Claims.rdIAgeExpiry := by
  intro s id o ho _ hkind hcls hst hage
  have hstep : rdIAge s id = pump (modOp s id fun x => { x with aged := true }) := by
    unfold rdIAge
    rw [ho]
    simp [hkind, hcls, hst, hage]
  have haged : nget (modOp s id fun x => { x with aged := true }).flash.ops id = some { o with aged := true } := by
    rw [modOp, updFlash_flash, nget_nmod_same, ho]
    rfl
  obtain ⟨p, hp, hcore⟩ := (GrantKept.pump (.refl _)).op haged
  exact completes_eq rfl hstep ⟨p, hp, (congrArg FOp.aged hcore :), (congrArg FOp.lun hcore :), (congrArg FOp.cws hcore :)⟩

end Sys2Proof.Proofs
end

section
/-! PROOFS. The first timeout of a read (Table 7-6). For O40. -/

namespace Sys2Proof.Machine
variable {s t : State}

/-- A first timeout's note: the LUN and the present, in place of the earlier ones. -/
def timeoutNoted (s : State) (id : Nat) (o : FOp) : State :=
  modCourier (busDone s id o) (lunChn o.lun) fun x => { x with timeouts := [(o.lun, s.clk.tb)] }

/-- The CHN_CAUSE bits of a timeout: bit 4, and bit 10 where every LUN of the channel has timed out. -/
def timeoutCauses (s : State) (lun : Nat) : List (Nat × Option Nat) :=
  (4, some (lunPos lun)) ::
    if (positions s (lunChn lun)).all fun q => 0 < timeoutsOf (courier s (lunChn lun)) (lunOf (lunChn lun) q) then [(10, none)] else []

/-- The state after the first timeout of a read, before operations start again. -/
def readTimedOut (s : State) (id : Nat) (o : FOp) : State :=
  modOp (chnCausesSet (timeoutNoted s id o) (lunChn o.lun) (timeoutCauses (timeoutNoted s id o) o.lun)) id fun x =>
    { x with again := true, st := .held }

theorem lunTimeout_read {id : Nat} {o : FOp} (ho : nget s.flash.ops id = some o) (hkind : o.kind = .read) (hst : o.st = .running)
    (hagain : o.again = false) (htrain : (courier s (lunChn o.lun)).training = none) :
    lunTimeout s id false = afterFlash (readTimedOut s id o) := by
  have hone : ¬ 3 ≤ timeoutsOf (courier (timeoutNoted s id o) (lunChn o.lun)) o.lun := by
    rw [timeoutNoted, courier_modCourier_same]
    simp [timeoutsOf]
  unfold lunTimeout
  rw [ho]
  simp only [busTaken, hst, htrain, hkind, hagain, Option.isSome_none, Bool.or_false, Bool.false_eq_true, if_false,
    List.nil_append]
  exact (congrArg afterFlash (if_neg hone))

end Sys2Proof.Machine

namespace Sys2Proof.Proofs
open Sys2Proof.Machine

theorem lunTimeout : Claims.lunTimeout := by
  intro s id o hops hkind hst hagain hopens hpgs hcmds hrelocs hpins hcut hrounds htrain
  have ho : nget s.flash.ops id = some o := by simp [hops, nget]
  let x := timeoutNoted s id o
  let y := chnCausesSet x (lunChn o.lun) (timeoutCauses x o.lun)
  have hquiet : MapQuiet (readTimedOut s id o) := MapQuiet.of_only ⟨hcmds, hopens, hpgs, hrelocs, hpins, hcut, hrounds⟩
    (modOp_frame (chnCausesSet_frame (modCourier_frame (busDone_frame (OnlyChanges.refl _ s) (by decide)) (by decide)) (by decide)
      (by decide) (by decide) (by decide) (by decide) (by decide)) (by decide))
  have hset : bitOf (rd y (chn (lunChn o.lun) 0x44)) 4 = true :=
    chnCausesSet_sets x _ (lun := some (lunPos o.lun)) (by decide) List.mem_cons_self
  have hnote : GrantKept x y := .chnCausesSet (.refl x) _ _
  have hstart : GrantKept (readTimedOut s id o) (pump (readTimedOut s id o)) := .pump (.refl _)
  obtain ⟨q, hq, hcore⟩ := op_of_cores (hnote.ops.trans (GrantKept.busDone (.refl s) id o).ops) ho
  have hheld : nget (readTimedOut s id o).flash.ops id = some { q with again := true, st := .held } := by
    rw [readTimedOut, modOp, updFlash_flash, nget_nmod_same]
    exact congrArg _ hq
  obtain ⟨r, hr, hcore'⟩ := hstart.op hheld
  have htimes : (courier x (lunChn o.lun)).timeouts = [(o.lun, s.clk.tb)] := by
    show (courier (timeoutNoted s id o) _).timeouts = _
    rw [timeoutNoted, courier_modCourier_same]
  have hcws : r.cws = o.cws := (congrArg FOp.cws hcore' :).trans (congrArg FOp.cws hcore :)
  refine completes_eq rfl ((lunTimeout_read ho hkind hst hagain htrain).trans (afterFlash_quiet hquiet)) ⟨?_, ?_, r, hr, ?_, hcws⟩
  · exact hstart.causes _ 4 (by decide) hset
  · have h1 := congrArg Courier.timeouts (hstart.couriers (lunChn o.lun))
    have h2 := congrArg Courier.timeouts (hnote.couriers (lunChn o.lun))
    exact (h1.trans h2).trans htimes
  · exact (congrArg FOp.again hcore' :)

end Sys2Proof.Proofs
end

section
/-! PROOFS. Snapshots (R372, R373) and the start of a training (R188, R189). For O40. -/

namespace Sys2Proof.Machine
variable {s t : State}

theorem rd_modCourier (s : State) (c : Nat) (f : Courier → Courier) (a : Nat) : rd (modCourier s c f) a = rd s a := rfl

/-! ## Snapshots (R372, R373) -/

theorem isTrigger_snapshot (c : Nat) : IsTrigger .chn c 0xD4 (single 0xD4 [wo 1 1, wo 0 0]) := ⟨rfl, rfl, rfl, rfl, rfl, rfl, fun _ => rfl⟩

theorem writeAccess_snapshot {i : Initiator} {c : Fin 32} (h : coreAccess s i .chn c = true) (v : Nat) :
    writeAccess s i (chn c 0xD4) 4 v {} = snapCmd s c (v % 2 ^ 32) := by
  rw [writeAccess_trigger h (loc_chn c _ (by decide)) (isTrigger_snapshot c) rfl]
  rfl

theorem bitOf_word_setBits_low (v hi x k : Nat) (h : k < hi + 1) (hk : k < 32) : bitOf (setBits v hi 0 x % 2 ^ 32) k = bitOf x k := by
  rw [bitOf_mod _ _ _ hk, bitOf_setBits_low _ _ _ _ h]

/-- FIRE of a courier whose queue has room captures one entry more, and raises the channel's source. -/
theorem snapCapture_room {c : Nat} (h : (courier s c).snaps.length < 8) (kinds : Nat) (lun : Option Nat) :
    ∃ words : List Nat, words.length = 9 ∧ snapCapture s c kinds lun = raiseWith (modCourier s c fun x => { x with
      snapCount := x.snapCount + 1, snaps := x.snaps ++ [{ words }] }) (192 + c) (words.flatMap (le 4)) := by
  have hroom : (courier s c).snaps.length ≠ 8 := by omega
  unfold snapCapture
  dsimp only
  rw [if_neg (by simp [hroom])]
  refine ⟨_, ?_, congrArg₂ (fun (x : State) (w : List Nat) => raiseWith x (192 + c) (w.flatMap (le 4))) ?_ rfl⟩
  · simp
  · unfold modCourier
    simp only [hroom, if_false]

end Sys2Proof.Machine

namespace Sys2Proof.Proofs
open Sys2Proof.Machine

theorem snapshotFire : Claims.snapshotFire := by
  intro s i c v hcore hroom
  have hstep : writeAccess s i (chn c 0xD4) 4 (setBits v.toNat 1 0 1) {} = snapCapture s c 1 none := by
    have h0 : bitOf (setBits v.toNat 1 0 1 % 2 ^ 32) 0 = true := bitOf_word_setBits_low _ _ _ _ (by decide) (by decide)
    have h1 : bitOf (setBits v.toNat 1 0 1 % 2 ^ 32) 1 = false := bitOf_word_setBits_low _ _ _ _ (by decide) (by decide)
    rw [writeAccess_snapshot hcore, snapCmd]
    simp only [h0, h1, Bool.false_eq_true, if_true, if_false]
  obtain ⟨words, hlen, hcap⟩ := snapCapture_room hroom 1 none
  have hc := c.isLt
  have hheld : s.chip.held = false := not_held_of_coreAccess hcore
  generalize hx : modCourier s c (fun x => { x with snapCount := x.snapCount + 1, snaps := x.snaps ++ [{ words }] }) = x at hcap
  have hcour : courier (raiseWith x (192 + c) (words.flatMap (le 4))) c = courier x c := courier_of_flash (raiseWith_flash _ _ _ _) _
  have hheld' : x.chip.held = false := by rw [← hx]; exact hheld
  refine completes_eq rfl (hstep.trans hcap) ⟨?_, ?_, raised_raiseWith (by omega) (by omega) hheld' _ _⟩
  · rw [hcour, ← hx, courier_modCourier_same]
    exact ⟨_, rfl, hlen⟩
  · rw [hcour, ← hx, courier_modCourier_same]

theorem snapshotPop : Claims.snapshotPop := by
  intro s i c v hcore
  have hstep : writeAccess s i (chn c 0xD4) 4 (setBits v.toNat 1 0 2) {} = modCourier s c fun x => { x with
      snaps := x.snaps.drop 1, snapHead := if x.snaps.isEmpty then x.snapHead else (x.snapHead + 1) % 8 } := by
    have h0 : bitOf (setBits v.toNat 1 0 2 % 2 ^ 32) 0 = false := bitOf_word_setBits_low _ _ _ _ (by decide) (by decide)
    have h1 : bitOf (setBits v.toNat 1 0 2 % 2 ^ 32) 1 = true := bitOf_word_setBits_low _ _ _ _ (by decide) (by decide)
    rw [writeAccess_snapshot hcore, snapCmd]
    simp only [h0, h1, Bool.false_eq_true, if_true, if_false]
  refine completes_eq rfl hstep ⟨?_, modCourier_frame (OnlyChanges.refl _ s) (by decide)⟩
  rw [courier_modCourier_same]

end Sys2Proof.Proofs

namespace Sys2Proof.Machine
variable {s t : State}

/-! ## Training (R188 to R190) -/

theorem writeAccess_training {i : Initiator} {c : Fin 32} (h : coreAccess s i .chn c = true) (hfree : (courier s c).training = none)
    (hwant : (courier s c).wantTrain = none) (v : Nat) : writeAccess s i (chn c 0x28) 4 (setBits v 0 0 1) {} = trainStart s c := by
  have hbit : bitOf (setBits v 0 0 1 % 2 ^ 32) 0 = true := bitOf_word_setBits _ _ _ (by decide)
  have hidle : trigBusy s .chn c 0x28 (setBits v 0 0 1 % 2 ^ 32) = false := by
    rw [trigBusy, hfree, hwant]
    simp
  rw [writeAccess_trigger h (loc_chn c _ (by decide)) (isTrigger_training c) rfl]
  simp only [hidle, Bool.false_and, Bool.false_eq_true, if_false]
  exact if_pos hbit

/-- A training in full begins where the courier is free and its district trains fewer than two. -/
theorem trainStart_begins {c : Nat} (hfree : (courier s c).training = none) (hwant : (courier s c).wantTrain = none)
    (hces : fittedCes s c ≠ []) (hfew : trainingIn s (c / 8) < 2) : trainStart s c =
      modCourier (trig54 s (chn c 0x2C)) c fun x => { x with training := some 0, wantTrain := none, trainBand := s.thm.band } := by
  have hvalid : bitOf (rd (trig54 s (chn c 0x2C)) (chn c 0x2C)) 31 = false := by
    rw [trig54, bitOf_wrField_other _ _ _ _ _ _ (by decide) (by decide), bitOf_wrField _ _ _ _ (by decide)]
    rfl
  simp only [trainStart, train, hfree, hwant, hces, hfew, List.isEmpty_iff, Option.isSome_none, Option.isNone_none, Bool.or_self,
    Bool.and_self, decide_true, Bool.false_eq_true, if_false, if_true, trainBegin, hvalid]
  rfl

/-- No courier of a district waits: none begins. -/
theorem trainNext_idle (h : ∀ c, (courier s c).wantTrain = none) (d : Nat) : trainNext s d = s := by
  unfold trainNext
  split
  · rfl
  · have hnone : ((List.range 8).map fun i => 8 * d + i).find? (fun c =>
        active s .chn c && (courier s c).wantTrain.isSome && (courier s c).training.isNone) = none :=
      List.find?_eq_none.mpr fun c _ => by simp [h c]
    rw [hnone]

end Sys2Proof.Machine

namespace Sys2Proof.Proofs
open Sys2Proof.Machine

theorem trainingStart : Claims.trainingStart := by
  intro s i c v hcore hfree hwant hces hfew
  obtain ⟨hvalid, -, honly⟩ := trig54_begins s (chn c 0x2C)
  refine completes_eq rfl ((writeAccess_training hcore hfree hwant _).trans (trainStart_begins hfree hwant hces hfew)) ⟨?_, ?_,
    modCourier_frame (honly.mono (by decide)) (by decide)⟩
  · rw [courier_modCourier_same]
  · rwa [rdField, rd_modCourier]

end Sys2Proof.Proofs
end

section
/-! PROOFS. The end of a training (R189, R190) and the reset of a courier (R198). For O40. -/

namespace Sys2Proof.Machine
variable {s t u : State}

/-- The result of a training that no chip enable failed (R190) has been stored with a word in CHN_TRRES. -/
structure TrainPassed (s u : State) (c word : Nat) : Prop where
  only  : OnlyChanges courierParts s u
  ops   : opCores u = opCores s
  ended : (courier u c).training = none
  wants : ∀ d, (courier u d).wantTrain = (courier s d).wantTrain
  word  : rd u (chn c 0x2C) = word % 2 ^ 64
  cause : bitOf (rd u (chn c 0x44)) 0 = true

theorem trainPassed_of_stored {c word : Nat} {f : Courier → Courier} (ht : OnlyChanges [.regs] s t)
    (hf : ∀ x, (f x).training = none ∧ (f x).wantTrain = x.wantTrain) :
    TrainPassed s (chnCausesSet (modCourier (wr t (chn c 0x2C) word) c f) c [(0, none)]) c word := by
  have hflash : t.flash = s.flash := ht.same .flash (by decide)
  have hcour : ∀ d, courier (wr t (chn c 0x2C) word) d = courier s d := fun d => courier_of_flash hflash d
  have hset : GrantKept (modCourier (wr t (chn c 0x2C) word) c f) _ := .chnCausesSet (.refl _) c [(0, none)]
  refine ⟨?_, hset.ops.trans ?_, (congrArg Courier.training (hset.couriers c) :).trans ?_,
    fun d => (congrArg Courier.wantTrain (hset.couriers d) :).trans ?_, ?_, chnCausesSet_sets _ c (by decide) List.mem_cons_self⟩
  · exact chnCausesSet_frame (modCourier_frame (wr_frame (ht.mono (by decide)) (by decide)) (by decide)) (by decide) (by decide)
      (by decide) (by decide) (by decide) (by decide)
  · exact (opCores_of_flash hflash : opCores t = opCores s)
  · show (courier (modCourier (wr t (chn c 0x2C) word) c f) c).training = none
    rw [courier_modCourier_same, (hf _).1]
  · show (courier (modCourier (wr t (chn c 0x2C) word) c f) d).wantTrain = _
    by_cases hd : d = c
    · rw [hd, courier_modCourier_same, (hf _).2, hcour]
    · rw [courier_modCourier_other _ _ hd, hcour]
  · rw [rd_chnCausesSet (by decide) (by decide), rd_modCourier, rd_wr_same]
/-- The word of a result with VALID, RESULT 0, no failed chip enable and a generation (Table 7-10). -/
theorem trainWord_valid {res band failed gen : Nat} (hr : res = 0) (hf : failed = 0) (h : gen < 2 ^ 16) :
    bitsOf ((2 ^ 31 + res * 2 ^ 28 + band % 16 * 2 ^ 24 + failed + gen) % 2 ^ 64) 31 28 = 8 := by
  unfold bitsOf
  omega

theorem trainEnd_passes (s : State) (c kind : Nat) (eyes : List (Nat × Nat)) : ∃ word, (kind = 0 → bitsOf (word % 2 ^ 64) 31 28 = 8) ∧
    TrainPassed s (trainEnd s c kind eyes []) c word := by
  unfold trainEnd
  lift_lets
  intro ces bad res t gen band u v w
  have hbad : bad = [] := List.filter_eq_nil_iff.mpr fun _ _ => by simp
  have ht : OnlyChanges [.regs] s t :=
    frame_foldl (fun x e hx => by split <;> [exact wr_frame hx (by decide); exact hx]) (OnlyChanges.refl _ s)
  have hgen : gen < 2 ^ 16 := bitsOf_lt _ _ _
  clear_value bad gen t
  subst hbad
  have hres : res = kind := rfl
  clear_value res
  have hw : w = chnCausesSet v c [(0, none)] := rfl
  clear_value w
  subst hw
  exact ⟨_, fun hk => trainWord_valid (hres.trans hk) rfl hgen, trainPassed_of_stored ht fun x => ⟨rfl, rfl⟩⟩

theorem trainingDone_full {c : Nat} {eyes : List (Nat × Nat)} (h : (courier s c).training = some 0) :
    trainingDone s c eyes [] = afterFlash (trainNext (trainEnd s c 0 eyes []) (c / 8)) := by
  unfold trainingDone
  rw [h]
  rfl

end Sys2Proof.Machine

namespace Sys2Proof.Proofs
open Sys2Proof.Machine

theorem trainingDone : Claims.trainingDone := by
  intro s c eyes htrain hwant hcalm hops
  obtain ⟨word, hvalid, hpass⟩ := trainEnd_passes s c 0 eyes
  have hnone : (trainEnd s c 0 eyes []).flash.ops = [] := noOps_of_cores hpass.ops hops
  have hstep : Machine.trainingDone s c eyes [] = trainEnd s c 0 eyes [] := by
    rw [trainingDone_full htrain, trainNext_idle fun d => (hpass.wants d).trans (hwant d), afterFlash_calm (hcalm.of_only hpass.only) hnone]
  refine completes_eq rfl hstep ⟨hpass.ended, ?_, hpass.cause⟩
  rw [rdField, hpass.word, hvalid rfl]

end Sys2Proof.Proofs

namespace Sys2Proof.Machine
variable {s t : State}

/-! ## The reset of couriers (R198) -/

/-- A core's write of PWR_CHRST that names one courier, which is not in reset, resets that one. -/
theorem writeAccess_courierReset {i : Initiator} (h : coreAccess s i .pwr 0 = true) {c : Fin 32} (hrun : (courier s c).reset = false) :
    writeAccess s i 0xA0040 4 (BitVec.ofNat 32 (2 ^ c.val)).toNat {} = Machine.courierReset s c := by
  have hword : (BitVec.ofNat 32 (2 ^ c.val)).toNat % 2 ^ 32 = 2 ^ c.val := by
    rw [BitVec.toNat_ofNat, Nat.mod_mod, Nat.mod_eq_of_lt (Nat.pow_lt_pow_right (by decide) c.isLt)]
  have hnamed : ∀ k, bitOf (2 ^ c.val) k = decide (k = c.val) := fun k => by
    by_cases hk : k = c.val
    · simp [hk, bitOf_two_pow]
    · simp [hk, bitOf_two_pow_other hk]
  have hfree : ∀ k, (bitOf (2 ^ c.val) k && (courier s k).reset) = false ∧ (bitOf (2 ^ c.val) k && !(courier s k).reset) = decide (k = c.val) :=
    fun k => by
      rw [hnamed]
      by_cases hk : k = c.val
      · simp [hk, hrun]
      · simp [hk]
  have hidle : trigBusy s .pwr 0 0x40 (2 ^ c.val) = false := by
    have hany : ((List.range 32).any fun k => bitOf (2 ^ c.val) k && (courier s k).reset) = false :=
      List.any_eq_false.mpr fun k _ => by simp [hfree k]
    rw [trigBusy, hany, Bool.and_false]
  have hone : ∀ c : Fin 32, (List.range 32).filter (fun k => decide (k = c.val)) = [c.val] := by decide
  rw [writeAccess_trigger h rfl isTrigger_courierReset (by rfl) {}, hword]
  simp only [hidle, Bool.false_and, Bool.false_eq_true, if_false, flashEffect, systemEffect,
    List.filter_congr fun k (_ : k ∈ List.range 32) => (hfree k).2, hone]
  rfl

/-- The reset of a courier of whose district none waits to train, with no operation under way. -/
theorem courierReset_quiet {c : Nat} (hops : s.flash.ops = []) (hwant : ∀ d, (courier s d).wantTrain = none) :
    ∃ t, OnlyChanges [.regs] (modCourier (updChip s fun x => { x with
        chnReset := if x.chnReset.contains c then x.chnReset else x.chnReset ++ [c]
        disabling := x.disabling.filter fun y => !(y.1 == .chn && y.2 == c) }) c fun x => { x with
          reset := true, training := none, wantTrain := none, setBand := none, snaps := [], bus := none, busLast := 31 }) t ∧
      rd t (chn c 0x2C) = 0 ∧ courierReset s c = t := by
  unfold courierReset
  lift_lets
  intro x y t mine u
  have ht : OnlyChanges [.regs] y t := frame_foldl (fun x o hx => wr_frame hx (by decide)) (OnlyChanges.refl _ y)
  have hflash : t.flash = y.flash := ht.same .flash (by decide)
  have hmine : mine = [] := by
    show t.flash.ops.filter _ = []
    rw [hflash]
    show s.flash.ops.filter _ = []
    rw [hops]
    rfl
  have hu : u = t := by
    show mine.foldl _ t = t
    rw [hmine]
    rfl
  have hidle : ∀ d, (courier t d).wantTrain = none := fun d => by
    rw [courier_of_flash hflash]
    by_cases hd : d = c
    · rw [hd]
      show (courier (modCourier x c _) c).wantTrain = none
      rw [courier_modCourier_same]
    · show (courier (modCourier x c _) d).wantTrain = none
      rw [courier_modCourier_other _ _ hd]
      exact hwant d
  refine ⟨t, ht, ?_, ?_⟩
  · show rd ([0x2C, 0x30, 0x34, 0x38, 0x3C, 8, 0xC].foldl (fun s o => wr s (chn c o) 0) y) (chn c 0x2C) = 0
    have hother : ∀ o ∈ [0x30, 0x34, 0x38, 0x3C, 8, 0xC], 0x2C ≠ o := by decide
    rw [List.foldl_cons, rd_foldl_same _ _ fun x o ho => rd_wr_other _ _ (chn_inj (hother o ho)), rd_wr_same, Nat.zero_mod]
  · rw [hu, trainNext_idle hidle]

end Sys2Proof.Machine

namespace Sys2Proof.Proofs
open Sys2Proof.Machine

theorem courierReset : Claims.courierReset := by
  intro s i c hcore hrun hops hwant
  obtain ⟨t, honly, hres, hstep⟩ := courierReset_quiet (c := c.val) hops hwant
  have hcour := courier_of_flash (honly.same .flash (by decide)) c.val
  have hchip : t.chip = _ := honly.same .chip (by decide)
  rw [courier_modCourier_same] at hcour
  refine completes_eq rfl ((writeAccess_courierReset hcore hrun).trans hstep) ⟨?_, ?_, ?_, ?_, hres⟩
  · rw [hcour]
  · rw [hcour]
  · rw [hcour]
  · rw [hchip]
    show c.val ∈ if s.chip.chnReset.contains c.val then s.chip.chnReset else s.chip.chnReset ++ [c.val]
    split
    · simp_all
    · simp

end Sys2Proof.Proofs
end

section
/-! PROOFS. Grants where one operation is under way, and its resume after a suspension (R192, R201). For O40. -/

namespace Sys2Proof.Machine
variable {s t : State} {id : Nat} {o q : FOp}

/-! ## Asks where one operation is under way -/

theorem modOp_single (h : s.flash.ops = [(id, o)]) (f : FOp → FOp) : (modOp s id f).flash.ops = [(id, f o)] := by
  rw [modOp, updFlash_flash, h]
  simp [nmod, nget, nset]

theorem busNext_single_none (h : s.flash.ops = [(id, o)]) {c : Nat} (ho : lunChn o.lun ≠ c ∨ o.st ≠ .running ∨ o.units = 0) :
    busNext s c = none := by
  have hl : (lunChn o.lun == c && o.st == .running && decide (0 < o.units)) = false := by
    rcases ho with hc | hr | hu
    · simp [hc]
    · simp [hr]
    · simp [hu]
  simp [busNext, h, hl]

/-- An operation that runs with no data to transfer, or of another district, asks for nothing. -/
theorem asks_single_nil (h : s.flash.ops = [(id, o)]) {d : Nat} (ho : opDst o ≠ d ∨ o.st = .running ∧ o.units = 0) : asks s d = [] := by
  unfold asks
  rw [List.flatMap_eq_nil_iff.mpr]
  · rfl
  intro i hi
  have hi8 : i < 8 := List.mem_range.mp hi
  have hne : opDst o ≠ d → lunChn o.lun ≠ 8 * d + i := fun hd hc => hd (by unfold opDst; omega)
  dsimp only
  rw [busNext_single_none h (ho.imp hne fun hr => .inr hr.2), h]
  rcases ho with hd | ⟨hr, -⟩
  · simp [hne hd]
  · by_cases hc : lunChn o.lun = 8 * d + i
    · simp [hc, lunNext, h, hr]
    · simp [hc]

theorem flatMap_single {α β : Type} {f : α → List β} {a : α} {l : List α} (hl : l.Nodup) (ha : a ∈ l) (h : ∀ b ∈ l, b ≠ a → f b = []) :
    l.flatMap f = f a := by
  induction l with
  | nil => cases ha
  | cons b r ih =>
    obtain ⟨hb, hr⟩ := List.nodup_cons.mp hl
    rw [List.flatMap_cons]
    rcases List.mem_cons.mp ha with rfl | ha
    · rw [List.flatMap_eq_nil_iff.mpr fun x hx => h x (List.mem_cons_of_mem _ hx) fun he => hb (he ▸ hx), List.append_nil]
    · rw [h b List.mem_cons_self fun he => hb (he ▸ ha), List.nil_append]
      exact ih hr ha fun x hx => h x (List.mem_cons_of_mem _ hx)

/-- A suspended operation that is due asks for its resume. -/
theorem asks_single_resume (h : s.flash.ops = [(id, o)]) (hs : o.st = .suspended) (hr : o.resume = true)
    (hrun : courierRuns s (lunChn o.lun) = true) (hret : lunRetired s (lunChn o.lun) (lunPos o.lun) = false) :
    asks s (opDst o) = [{ cls := tokClass o.kind, arr := o.arr, id, bus := false }] := by
  have hchn : 8 * opDst o + lunChn o.lun % 8 = lunChn o.lun := by unfold opDst; omega
  unfold asks
  rw [flatMap_single (a := lunChn o.lun % 8) List.nodup_range (List.mem_range.mpr (Nat.mod_lt _ (by decide)))]
  · dsimp only
    rw [hchn, busNext_single_none h (.inr (.inl (by simp [hs]))), h]
    simp [hrun, hret, lunNext, h, hs, hr, insertAsk]
  · intro i hi hne
    have hi8 : i < 8 := List.mem_range.mp hi
    have hc : lunChn o.lun ≠ 8 * opDst o + i := by omega
    dsimp only
    rw [busNext_single_none h (.inl hc), h]
    simp [hc]

/-! ## Grants where one operation is under way -/

theorem grants_idle {d : Nat} (h : asks s d = []) : grants s d = s := by
  simp [grants, h, grant]

theorem foldl_single {α β : Type} {g : β → α → β} {b : β} {a : α} (hafter : ∀ x, g (g b a) x = g b a) (l : List α) (ha : a ∈ l)
    (h : ∀ x ∈ l, x ≠ a → g b x = b) : l.foldl g b = g b a := by
  induction l with
  | nil => cases ha
  | cons x r ih =>
    rw [List.foldl_cons]
    by_cases hx : x = a
    · rw [hx]
      exact foldl_id r fun y _ => hafter y
    · rw [h x List.mem_cons_self hx]
      exact ih ((List.mem_cons.mp ha).resolve_left (Ne.symm hx)) fun y hy => h y (List.mem_cons_of_mem _ hy)

/-- What a district holds depends on the operations that run and on the kinds of those whose units are on a bus. -/
theorem tokHeld_congr (hops : s.flash.ops = [(id, o)]) (htops : t.flash.ops = [(id, q)]) (ho : o.st ≠ .running) (hq : q.st ≠ .running)
    (hkind : q.kind = o.kind) (hcost : ∀ d, tokCost t d = tokCost s d) (hcour : ∀ c, courier t c = courier s c) (d : Nat) (reads : Bool) :
    tokHeld t d reads = tokHeld s d reads := by
  have hbus : ∀ c, (busOp t c).map (fun x => x.2.kind) = (busOp s c).map fun x => x.2.kind := fun c => by
    unfold busOp
    rw [hcour, hops, htops]
    cases (courier s c).bus with
    | none => rfl
    | some k =>
      by_cases hk : k = id
      · simp [nget, hk, hkind]
      · simp [nget, hk]
  refine congrArg₂ (· + ·) (by simp [hops, htops, ho, hq])
    (congrArg₂ (· * ·) (congrArg List.length (List.filter_congr fun i _ => ?_)) (by rw [busCost, hcost, busCost]))
  have hof : ∀ x : Option (Nat × FOp), (match x with | some x => reads || x.2.kind != FKind.read | none => false)
      = (x.map fun x => x.2.kind).elim false fun k => reads || k != .read := fun x => by cases x <;> rfl
  exact (hof _).trans ((congrArg (fun k : Option FKind => k.elim false fun k => reads || k != .read) (hbus (8 * d + i))).trans (hof _).symm)

/-! ## What the signals leave of the operations -/

theorem snapCapture_ops (s : State) (c kinds : Nat) (lun : Option Nat) : (snapCapture s c kinds lun).flash.ops = s.flash.ops := by
  unfold snapCapture
  dsimp only
  split
  · rfl
  · rw [raiseWith_flash]
    rfl

theorem chnCauseSet_ops (s : State) (c bit : Nat) (lun : Option Nat) : (chnCauseSet s c bit lun).flash.ops = s.flash.ops := by
  have hsnap : (snapTrigger (orReg s (chn c 0x44) (2 ^ bit)) c bit (3 + bit) lun).flash.ops = s.flash.ops := by
    unfold snapTrigger
    split
    · exact snapCapture_ops _ c _ lun
    · rfl
  unfold chnCauseSet
  split
  · rfl
  dsimp only
  split
  · exact (congrArg Flash.ops (raiseWith_flash _ _ _ _)).trans hsnap
  · exact hsnap

theorem ops_ite {c : Prop} [Decidable c] {l : NMap FOp} (h : s.flash.ops = l) (k : t.flash.ops = l) : (if c then s else t).flash.ops = l := by
  split <;> assumption

/-- The grant of a resume: the operation runs. -/
theorem granted_resume (h : s.flash.ops = [(id, o)]) (hs : o.st = .suspended) {a : Ask} (ha : a.id = id) (hb : a.bus = false) :
    (granted s a o).flash.ops = [(id, { o with st := .running, resume := false, wait := none })] := by
  have hrun := modOp_single h fun x => { x with st := .running, resume := false }
  have hstart : (startOp s id o).flash.ops = [(id, { o with st := .running, resume := false })] := by
    unfold startOp
    dsimp only
    rw [hs]
    rw [if_pos (by rfl)]
    exact ops_ite hrun ((chnCauseSet_ops _ _ _ _).trans hrun)
  have hwait := modOp_single hstart fun x => { x with wait := none }
  unfold granted
  rw [ha, hb]
  exact ops_ite ((congrArg Flash.ops (setCause_flash _ _ _ _)).trans hwait) hwait

/-- The pump grants the resume that one operation asks for, and nothing follows it (R201). -/
theorem pump_resume (h : s.flash.ops = [(id, o)]) (hs : o.st = .suspended) (hr : o.resume = true) (hu : o.units = 0)
    (hcov : tokCovers s (opDst o) (opCost s o) o.kind = true) (hact : active s .dst (opDst o) = true)
    (hrun : courierRuns s (lunChn o.lun) = true) (hret : lunRetired s (lunChn o.lun) (lunPos o.lun) = false) :
    (pump s).flash.ops = [(id, { o with st := .running, resume := false, wait := none })] := by
  obtain ⟨a, hasks, hid, hbus, hcls⟩ : ∃ a, asks s (opDst o) = [a] ∧ a.id = id ∧ a.bus = false ∧ a.cls < 9 :=
    ⟨_, asks_single_resume h hs hr hrun hret, rfl, rfl, by cases o.kind <;> exact of_decide_eq_true rfl⟩
  have hgranted := granted_resume h hs hid hbus
  have hgrant : grant (opDst o) [a] 9 s = granted s a o := by
    have hget : nget s.flash.ops a.id = some o := by simp [h, hid, nget]
    simp only [grant, hget, if_neg (Nat.not_le.mpr hcls), askCost, hbus, Bool.false_eq_true, if_false, hcov, if_true]
  have hgrants : grants s (opDst o) = granted s a o := by
    unfold grants
    rw [hact, hasks, hgrant]
    dsimp only
    rw [asks_single_nil hgranted (.inr ⟨rfl, hu⟩)]
    rfl
  have hafter : ∀ d, grants (grants s (opDst o)) d = grants s (opDst o) := fun d => by
    rw [hgrants, grants_idle (asks_single_nil hgranted (.inr ⟨rfl, hu⟩))]
  have hrefill : refill s = s := by simp [refill, queueOp, h, hs]
  rw [pump, hrefill, foldl_single hafter _ (List.mem_range.mpr (GrantKept.opDst_lt o)), hgrants, hgranted]
  exact fun d _ hd => grants_idle (asks_single_nil h (.inl hd.symm))

/-- A suspended operation that is due to resume: only the resume that it asks for, and its arrival, change. -/
theorem askResume_single (h : s.flash.ops = [(id, o)]) (hs : o.st = .suspended) :
    ∃ n, (askResume s id).flash.ops = [(id, { o with resume := true, arr := n })] := by
  have hask := modOp_single h fun x => if x.st == .suspended && !x.resume then { x with resume := true, arr := 2 * s.flash.opNext - 1 } else x
  cases hr : o.resume with
  | true =>
    have hsame : { o with resume := true } = o := by rw [← hr]
    exact ⟨o.arr, hask.trans (by rw [hr, Bool.not_true, Bool.and_false, if_neg Bool.false_ne_true, hsame])⟩
  | false => exact ⟨_, hask.trans (by simp [hs, hr]; rfl)⟩

end Sys2Proof.Machine

namespace Sys2Proof.Proofs
open Sys2Proof.Machine

theorem suspendResume : Claims.suspendResume := by
  intro s id dwell o hops hst hunits hcov hact hrun hret
  have hstep : Machine.suspendResume s id dwell = pump (askResume s id) := by
    simp [Machine.suspendResume, hops, nget, hst]
  obtain ⟨n, hask⟩ := askResume_single hops hst
  have hcov' : tokCovers (askResume s id) (opDst o) (opCost s o) o.kind = true := by
    have hheld := tokHeld_congr hops hask (by simp [hst]) (by simp [hst]) rfl (fun _ => rfl) (fun _ => rfl)
    unfold tokCovers at hcov ⊢
    rw [hheld, hheld]
    exact hcov
  have hpump := pump_resume hask hst rfl hunits hcov' hact hrun hret
  exact completes_eq rfl hstep ⟨pump_map _, _, (congrArg (nget · id) hpump).trans (if_pos rfl), rfl, rfl, rfl, rfl, rfl, rfl⟩

end Sys2Proof.Proofs
end

section
/-! PROOFS. The token allocation (R200, R202). For O40. -/

namespace Sys2Proof.Machine
variable {s : State}

theorem rdField_foldl_allowances (s : State) (v : Nat → Nat) {n j : Nat} (h : j < n) :
    rdField ((List.range n).foldl (fun s d => wrField s (dst d 0x14) 15 0 (v d)) s) (dst j 0x14) 15 0 = v j % 65536 := by
  induction n with
  | zero => omega
  | succ n ih =>
    rw [List.range_succ, List.foldl_append, List.foldl_cons, List.foldl_nil]
    by_cases hj : j = n
    · rw [hj, rdField_wrField _ _ _ _ _ (by decide)]
      rfl
    · have hne : dst j 0x14 ≠ dst n 0x14 := by unfold dst; omega
      rw [rdField, rd_wrField_other _ hne, ← rdField, ih (by omega)]

theorem asks_noOps (h : s.flash.ops = []) (d : Nat) : asks s d = [] := by
  unfold asks
  rw [List.flatMap_eq_nil_iff.mpr]
  · rfl
  intro i _
  dsimp only
  have hbus : busNext s (8 * d + i) = none := by simp [busNext, h]
  simp [hbus, h]

theorem tokHeld_noOps (h : s.flash.ops = []) (d : Nat) (reads : Bool) : tokHeld s d reads = 0 := by
  have hbus : ∀ c, busOp s c = none := fun c => by simp [busOp, h, nget]
  simp [tokHeld, h, hbus]

/-- A district's read reserve is less than a quarter of the budget (R200). -/
theorem tokReserve_le (s : State) (d : Nat) : tokReserve s d ≤ s.flash.budget * 255 / 1024 := by
  have hfield : rdField s (dst d 0x1C) 7 0 < 256 := bitsOf_lt _ _ _
  rw [tokReserve, Nat.mul_comm s.flash.budget]
  exact Nat.div_le_div_right (Nat.mul_le_mul_right _ (by omega))

/-- What a district gets where none holds tokens or asks for any: its read reserve and a quarter of the rest; district 0 gets what the
division leaves. -/
def idleAllowance (s : State) (d : Nat) : Nat :=
  let pool := s.flash.budget - (tokReserve s 0 + tokReserve s 1 + tokReserve s 2 + tokReserve s 3)
  tokReserve s d + pool / 4 + if d = 0 then pool % 4 else 0

theorem tokReserve_sum_le (s : State) : tokReserve s 0 + tokReserve s 1 + tokReserve s 2 + tokReserve s 3 ≤ s.flash.budget := by
  have h0 := tokReserve_le s 0
  have h1 := tokReserve_le s 1
  have h2 := tokReserve_le s 2
  have h3 := tokReserve_le s 3
  omega

theorem idleAllowance_sum (s : State) :
    idleAllowance s 0 + idleAllowance s 1 + idleAllowance s 2 + idleAllowance s 3 = s.flash.budget := by
  have hsum := tokReserve_sum_le s
  unfold idleAllowance
  norm_num
  omega

theorem tokReserve_le_idleAllowance (s : State) (d : Nat) : tokReserve s d ≤ idleAllowance s d := by
  rw [idleAllowance, Nat.add_assoc]
  exact Nat.le_add_right _ _

theorem idleAllowance_le (s : State) {d : Nat} (hd : d < 4) : idleAllowance s d ≤ s.flash.budget := by
  have hsum := idleAllowance_sum s
  obtain rfl | rfl | rfl | rfl : d = 0 ∨ d = 1 ∨ d = 2 ∨ d = 3 := by omega
  all_goals omega

/-- The budget of an allocation, and the decoders that a district has from then on (R200, Table 16-5). -/
def budgeted (s : State) : State := updFlash s fun x => { x with budget := flashBudget s, oneDec := s.pwr.ps == 2 || throttled s }

theorem tokenAllocation_idle (h : s.flash.ops = []) : tokenAllocation s =
    (List.range 4).foldl (fun u d => wrField u (dst d 0x14) 15 0 (idleAllowance (budgeted s) d)) (budgeted s) := by
  unfold tokenAllocation
  lift_lets
  intro budget oneDec t floors demand exc pool tot part rest u
  have hops : t.flash.ops = [] := h
  have hdemand : ∀ d, demand d = 0 := fun d => by
    show tokHeld t d true + ((asks t d).map _).foldl (· + ·) 0 = 0
    rw [tokHeld_noOps hops, asks_noOps hops]
    rfl
  clear_value demand
  have hfour : ∀ d < 4, d = 0 ∨ d = 1 ∨ d = 2 ∨ d = 3 := by omega
  have hfloors : ∀ d < 4, floors.getD d 0 = tokReserve t d := fun d hd => by
    rcases hfour d hd with rfl | rfl | rfl | rfl <;> rfl
  have hexc : exc = [0, 0, 0, 0] := by
    show (List.range 4).map _ = _
    simp [hdemand]
  have htot : tot = 0 := by
    show exc.foldl _ 0 = 0
    rw [hexc]
    rfl
  have hpool : pool = t.flash.budget - (tokReserve t 0 + tokReserve t 1 + tokReserve t 2 + tokReserve t 3) := by
    show t.flash.budget - (0 + tokReserve t 0 + tokReserve t 1 + tokReserve t 2 + tokReserve t 3) = _
    rw [Nat.zero_add]
  have hpart : part = (List.range 4).map fun d => tokReserve t d + pool / 4 := List.map_congr_left fun d hd => by
    have hd4 := List.mem_range.mp hd
    have he : exc.getD d 0 = 0 := by
      rw [hexc]
      rcases hfour d hd4 with rfl | rfl | rfl | rfl <;> rfl
    dsimp only
    rw [htot, hfloors d hd4, he, if_pos (Nat.zero_le _), Nat.add_zero, Nat.sub_zero]
  have hrest : rest = pool % 4 := by
    have hsum := tokReserve_sum_le t
    show t.flash.budget - part.foldl (· + ·) 0 = _
    rw [hpart]
    show t.flash.budget - (0 + (tokReserve t 0 + pool / 4) + (tokReserve t 1 + pool / 4) + (tokReserve t 2 + pool / 4)
      + (tokReserve t 3 + pool / 4)) = _
    omega
  have hgets : ∀ d < 4, part.getD d 0 + (if d = 0 then rest else 0) = idleAllowance t d := fun d hd => by
    rw [hrest, hpart, idleAllowance, ← hpool]
    rcases hfour d hd with rfl | rfl | rfl | rfl <;> rfl
  have hu : u.flash = t.flash :=
    (frame_foldl (fun x d hx => wrField_frame hx (by decide)) (OnlyChanges.refl [.regs] t)).same .flash (by decide)
  have hpump : pump u = u := pump_idle (by rw [hu, hops])
  exact hpump.trans (List.foldl_ext _ _ _ fun x d hd => congrArg _ (hgets d (List.mem_range.mp hd)))

/-- The decoders that are taken leave the budget, its decoders and the registers as they are. -/
theorem softTake_keeps_budget (s : State) (d : Nat) : (softTake s d).flash.budget = s.flash.budget ∧
    (softTake s d).flash.oneDec = s.flash.oneDec ∧ (softTake s d).regs = s.regs := by
  unfold softTake
  dsimp only
  split
  · exact ⟨rfl, rfl, rfl⟩
  · split <;> exact ⟨rfl, rfl, rfl⟩

theorem softTakes_keep_budget (s : State) (l : List Nat) : (l.foldl softTake s).flash.budget = s.flash.budget ∧
    (l.foldl softTake s).flash.oneDec = s.flash.oneDec ∧ (l.foldl softTake s).regs = s.regs := by
  induction l generalizing s with
  | nil => exact ⟨rfl, rfl, rfl⟩
  | cons d r ih =>
    obtain ⟨hb, ho, hr⟩ := ih (softTake s d)
    obtain ⟨hb', ho', hr'⟩ := softTake_keeps_budget s d
    exact ⟨hb.trans hb', ho.trans ho', hr.trans hr'⟩

end Sys2Proof.Machine

namespace Sys2Proof.Proofs
open Sys2Proof.Machine

theorem tokenAllocation : Claims.tokenAllocation := by
  intro s hops hbudget
  have hidle := tokenAllocation_idle hops
  obtain ⟨hb, ho, hr⟩ := softTakes_keep_budget (Machine.tokenAllocation s) (List.range 4)
  have honly : OnlyChanges [.regs] (budgeted s) (Machine.tokenAllocation s) :=
    hidle ▸ frame_foldl (fun x d hx => wrField_frame hx (by decide)) (OnlyChanges.refl _ _)
  have hflash : (Machine.tokenAllocation s).flash = (budgeted s).flash := honly.same .flash (by decide)
  have hallow : ∀ d < 4, tokAllow (allocate s) d = idleAllowance (budgeted s) d := fun d hd => by
    rw [tokAllow, rdField, allocate, rd_of_regs hr, hidle, ← rdField, rdField_foldl_allowances _ _ hd]
    exact Nat.mod_eq_of_lt (Nat.lt_of_le_of_lt (idleAllowance_le _ hd) hbudget)
  have hreserve : ∀ d, tokReserve (allocate s) d = tokReserve (budgeted s) d := fun d => by
    have hrd : rd (Machine.tokenAllocation s) (dst d 0x1C) = rd (budgeted s) (dst d 0x1C) := by
      have hne : ∀ e, dst d 0x1C ≠ dst e 0x14 := fun e => by unfold dst; omega
      rw [hidle]
      exact rd_foldl_same _ _ fun x e _ => rd_wrField_other _ (hne e)
    rw [tokReserve, rdField, allocate, rd_of_regs hr, hrd, hb, hflash, ← rdField, tokReserve]
  refine ⟨_, rfl, ?_, fun d hd => ?_, ?_, ?_, ?_⟩
  · rw [hallow 0 (by decide), hallow 1 (by decide), hallow 2 (by decide), hallow 3 (by decide), idleAllowance_sum]
    rfl
  · rw [hallow d hd, hreserve]
    exact tokReserve_le_idleAllowance _ d
  · exact hb.trans (congrArg Flash.budget hflash)
  · exact ho.trans (congrArg Flash.oneDec hflash)
  · have hbudgeted : OnlyChanges [.regs, .flash] s (budgeted s) := updFlash_frame (OnlyChanges.refl _ s) (by decide)
    exact frame_foldl (fun x d hx => softTake_frame hx (by decide)) (hbudgeted.trans (honly.mono (by decide)))

end Sys2Proof.Proofs
end

section
/-! PROOFS. The end of a courier's reset (R198, R481): what it does to couriers where erases alone are under way. For O40. -/

namespace Sys2Proof.Machine
variable {s t : State}

/-! ## What waits on the map's side -/

/-- What waits for flash operations among the open superblocks, page groups, relocations, pins and checkpoints. -/
def mapWaits (s : State) := (s.map.opens, s.map.pgs, s.map.relocs, s.map.pinHold, s.jrc.cutSt)

theorem MapQuiet.of_waits (h : MapQuiet s) (hw : mapWaits t = mapWaits s) (hsrt : t.srt = s.srt) (hprog : t.prog = s.prog) : MapQuiet t := by
  simp only [mapWaits, Prod.mk.injEq] at hw
  obtain ⟨hopens, hpgs, hrelocs, hpins, hcut⟩ := hw
  exact ⟨hsrt ▸ h.cmds, hopens.trans h.opens, hpgs.trans h.pgs, hrelocs.trans h.relocs, hpins.trans h.pins, hcut.trans h.cut, hprog ▸ h.rounds⟩

theorem mapWaits_congr (hm : t.map = s.map) (hj : t.jrc = s.jrc) : mapWaits t = mapWaits s := by rw [mapWaits, hm, hj, mapWaits]

theorem mapWaits_asyncEvents (t : State) (c : Bool) (p : Port) (a b l : Nat) :
    mapWaits (if c then asyncEvent t p a b l else t) = mapWaits t := by
  split
  · exact mapWaits_congr (asyncEvent_map t p a b l) (asyncEvent_jrc t p a b l)
  · rfl

theorem mapWaits_anaNotice (s : State) : mapWaits (anaNotice s) = mapWaits s := by
  unfold anaNotice
  dsimp only
  rw [mapWaits_asyncEvents, mapWaits_asyncEvents]
  rfl

theorem mapWaits_setChip (s : State) (n : Nat) : mapWaits (setChip s n) = mapWaits s := by
  have hana : ∀ (t : State) (c : Bool), mapWaits (if c then anaNotice t else t) = mapWaits t := fun t c => by
    split
    · exact mapWaits_anaNotice t
    · rfl
  unfold setChip
  split
  · rfl
  · dsimp only
    rw [mapWaits_asyncEvents, mapWaits_asyncEvents, mapWaits_asyncEvents, mapWaits_asyncEvents, mapWaits_asyncEvents, mapWaits_asyncEvents,
      hana, mapWaits_congr (raise_map _ 43) (raise_jrc _ 43)]
    rfl

theorem mapWaits_spaceUpdate (s : State) : mapWaits (spaceUpdate s) = mapWaits s := by
  have hshed : ∀ (t : State) (a b : Nat), mapWaits (if a < b then raise (asyncBoth t 7 1 0xC4) 44 else t) = mapWaits t := fun t a b => by
    split
    · rw [mapWaits_congr (raise_map _ 44) (raise_jrc _ 44), mapWaits_congr (asyncBoth_map t 7 1 0xC4) (asyncBoth_jrc t 7 1 0xC4)]
    · rfl
  unfold spaceUpdate
  split
  · rfl
  lift_lets
  intro sp next t
  split
  · intro n old u
    rw [hshed]
    exact mapWaits_setChip s next
  · exact mapWaits_setChip s next

theorem mapWaits_noteEnded (s : State) (x m out : Nat) : mapWaits (noteEnded s x m out) = mapWaits s := by
  unfold noteEnded
  dsimp only
  split
  · split <;> rfl
  · rfl

theorem mapWaits_eraseLost (s : State) (id : Nat) (o : FOp) : mapWaits (eraseLost s id o) = mapWaits s := by
  unfold eraseLost
  dsimp only
  split
  · exact mapWaits_noteEnded _ _ _ _
  · rfl

theorem eraseLost_flash (s : State) (id : Nat) (o : FOp) : (eraseLost s id o).flash = (dropOp s id).flash := by
  unfold eraseLost
  dsimp only
  split
  · exact (noteEnded_frame (OnlyChanges.refl [.map, .jrc] _) (by decide) (by decide)).same .flash (by decide)
  · rfl

theorem eraseLost_chn (s : State) (x : Nat × FOp) : (eraseLost s x.1 x.2).flash.chn = s.flash.chn := by
  rw [eraseLost_flash]
  rfl

/-! ## States in which erases alone are under way -/

/-- Nothing on the map's side waits for flash operations, and those that are under way are erases. -/
structure ErasesOnly (s : State) : Prop where
  quiet  : MapQuiet s
  erases : ∀ e ∈ s.flash.ops, e.2.kind = .erase

namespace ErasesOnly

theorem foldl {α : Type} {g : State → α → State} (hg : ∀ x a, ErasesOnly x → ErasesOnly (g x a)) (l : List α) (h : ErasesOnly s) :
    ErasesOnly (l.foldl g s) := by
  induction l generalizing s with
  | nil => exact h
  | cons a r ih => exact ih (hg s a h)

theorem of_cores (h : ErasesOnly s) (k : OnlyChanges courierParts s t) (hops : opCores t = opCores s) : ErasesOnly t :=
  ⟨h.quiet.of_only k, fun e he => by
    have hmem : (e.1, opCore e.2) ∈ opCores s := hops ▸ List.mem_map.mpr ⟨e, he, rfl⟩
    obtain ⟨d, hd, hcore⟩ := List.mem_map.mp hmem
    have hkind : d.2.kind = e.2.kind := (congrArg (fun x : Nat × FOp => x.2.kind) hcore :)
    exact hkind ▸ h.erases d hd⟩

theorem eraseLost (h : ErasesOnly s) (id : Nat) (o : FOp) : ErasesOnly (eraseLost s id o) := by
  have honly : OnlyChanges [.map, .flash, .jrc] s (Machine.eraseLost s id o) :=
    eraseLost_frame (OnlyChanges.refl _ s) (by decide) (by decide) (by decide)
  refine ⟨h.quiet.of_waits (mapWaits_eraseLost s id o) (honly.same .srt (by decide)) (honly.same .prog (by decide)), fun e he => ?_⟩
  rw [eraseLost_flash] at he
  exact h.erases e (mem_of_ndel he)

theorem spaceUpdate (h : ErasesOnly s) : ErasesOnly (spaceUpdate s) := by
  have honly : OnlyChanges [.out, .regs, .portA, .portB, .evr, .map] s (Machine.spaceUpdate s) :=
    spaceUpdate_frame (OnlyChanges.refl _ s) (by decide) (by decide) (by decide) (by decide) (by decide) (by decide)
  have hflash : (Machine.spaceUpdate s).flash = s.flash := honly.same .flash (by decide)
  exact ⟨h.quiet.of_waits (mapWaits_spaceUpdate s) (honly.same .srt (by decide)) (honly.same .prog (by decide)), hflash ▸ h.erases⟩

end ErasesOnly

/-- Where erases alone are under way, those of a LUN that is lost are withheld, and nothing else ends (Table 9-4). -/
theorem faultLun_erases (h : ErasesOnly s) (c p : Nat) : faultLun s c p =
    spaceUpdate ((s.flash.ops.filter fun o => o.2.lun == lunOf c p).foldl (fun s o => eraseLost s o.1 o.2) (orReg s (rLunFlt c) (2 ^ p))) := by
  have hend : endLun (orReg s (rLunFlt c) (2 ^ p)) (lunOf c p) = orReg s (rLunFlt c) (2 ^ p) := by
    have hopens : (orReg s (rLunFlt c) (2 ^ p)).map.opens = [] := h.quiet.opens
    rw [endLun, hopens]
    rfl
  have hprog : (s.flash.ops.filter fun o => o.2.lun == lunOf c p && o.2.kind == .program) = [] :=
    List.filter_eq_nil_iff.mpr fun o ho => by simp [h.erases o ho]
  have hfail : failPrograms (orReg s (rLunFlt c) (2 ^ p)) (lunOf c p) = orReg s (rLunFlt c) (2 ^ p) := by
    unfold failPrograms
    rw [show (orReg s (rLunFlt c) (2 ^ p)).flash = s.flash from rfl, hprog]
    rfl
  unfold faultLun
  dsimp only
  rw [hend, hfail]
  refine congrArg spaceUpdate (List.foldl_ext _ _ _ fun x o ho => ?_)
  rw [h.erases o (List.mem_of_mem_filter ho)]

theorem ErasesOnly.faultLun (h : ErasesOnly s) (c p : Nat) : ErasesOnly (faultLun s c p) := by
  rw [faultLun_erases h]
  have hreg : ErasesOnly (orReg s (rLunFlt c) (2 ^ p)) := h.of_cores (orReg_frame (OnlyChanges.refl _ s) (by decide)) rfl
  exact (hreg.foldl (fun x o hx => hx.eraseLost o.1 o.2) _).spaceUpdate

theorem faultLun_chn (h : ErasesOnly s) (c p : Nat) : (faultLun s c p).flash.chn = s.flash.chn := by
  rw [faultLun_erases h]
  have hspace : ∀ t, (spaceUpdate t).flash = t.flash := fun t =>
    (spaceUpdate_frame (OnlyChanges.refl [.out, .regs, .portA, .portB, .evr, .map] t) (by decide) (by decide) (by decide) (by decide)
      (by decide) (by decide)).same .flash (by decide)
  rw [hspace]
  exact foldl_view (v := fun x : State => x.flash.chn) (eraseLost_chn ·) _ _

/-! ## The steps of the end of a reset (R198) -/

namespace ErasesOnly

theorem identify1 (h : ErasesOnly s) (ans : List (Nat × Bool)) (c p : Nat) : ErasesOnly (identify1 ans c s p) := by
  have honly : OnlyChanges courierParts s (Machine.identify1 ans c s p) :=
    identify1_frame (OnlyChanges.refl _ s) (by decide) (by decide) (by decide) (by decide) (by decide) (by decide)
  refine h.of_cores honly ?_
  unfold Machine.identify1
  dsimp only
  split
  · rfl
  · split
    · rfl
    · exact ((GrantKept.refl _).chnCauseSet c 7 _).ops
    · rfl

theorem trainEnd (h : ErasesOnly s) (c kind : Nat) (eyes : List (Nat × Nat)) (failed : List Nat) : ErasesOnly (trainEnd s c kind eyes failed) := by
  unfold Machine.trainEnd
  lift_lets
  intro ces bad res t gen band u v w
  have ht : OnlyChanges [.regs] s t :=
    frame_foldl (fun x e hx => by split <;> [exact wr_frame hx (by decide); exact hx]) (OnlyChanges.refl _ s)
  have hops : opCores v = opCores s := (opCores_of_flash (ht.same .flash (by decide)) : opCores t = opCores s)
  have hv : ErasesOnly v := h.of_cores (modCourier_frame (wr_frame (ht.mono (by decide)) (by decide)) (by decide)) hops
  have hw : ErasesOnly w := hv.of_cores
    (chnCausesSet_frame (OnlyChanges.refl _ v) (by decide) (by decide) (by decide) (by decide) (by decide) (by decide))
    (GrantKept.chnCausesSet (.refl v) c _).ops
  exact hw.foldl (fun x e hx => hx.foldl (fun y p hy => hy.faultLun c p) _) bad

theorem reissueErases (h : ErasesOnly s) (lun : Nat) : ErasesOnly (reissueErases s lun) := by
  unfold Machine.reissueErases
  refine h.foldl (fun x e hx => ?_) _
  dsimp only
  split
  · exact hx
  · refine ⟨hx.quiet.of_only (updFlash_frame (OnlyChanges.refl _ x) (by decide)), fun d hd => ?_⟩
    rcases mem_of_nset hd with hd | rfl
    · exact hx.erases d hd
    · rfl

end ErasesOnly

theorem reissueErases_chn (s : State) (lun : Nat) : (reissueErases s lun).flash.chn = s.flash.chn := by
  unfold reissueErases
  refine foldl_view (v := fun x : State => x.flash.chn) (fun x e => ?_) _ s
  dsimp only
  split <;> rfl

theorem faultLuns_chn (h : ErasesOnly s) (c : Nat) (l : List Nat) : (l.foldl (fun s p => faultLun s c p) s).flash.chn = s.flash.chn := by
  induction l generalizing s with
  | nil => rfl
  | cons p r ih => exact (ih (h.faultLun c p)).trans (faultLun_chn h c p)

/-- The parts that the loss of a LUN may change. -/
def lossParts : List Part := [.out, .clk, .regs, .portA, .portB, .evr, .dram, .phc, .map, .flash, .jrc, .srt, .pat, .mem]

theorem courierResetDone_ends (h : ErasesOnly s) {c : Nat} (hrst : (courier s c).reset = true) (htrain : trainingIn s (c / 8) < 2)
    (ans : List (Nat × Bool)) (eyes : List (Nat × Nat)) (failed : List Nat) (verified : Bool) :
    ∃ t, ErasesOnly t ∧ (courier t c).reset = false ∧ c ∉ t.chip.chnReset ∧
      courierResetDone s c ans eyes failed verified = afterFlash (chnCauseSet t c 8) := by
  unfold courierResetDone
  rw [hrst, if_neg (by simp; omega)]
  lift_lets
  intro before named trig trained cleared back chip on again lost u
  have hnamed : ErasesOnly named :=
    (h.of_cores (wr_frame (OnlyChanges.refl _ s) (by decide)) rfl).foldl (fun x p hx => hx.identify1 ans c p) _
  have htrig : ErasesOnly trig := hnamed.of_cores (modCourier_frame (trig54_frame (OnlyChanges.refl _ _) (by decide)) (by decide)) rfl
  have htrained : ErasesOnly trained := by
    unfold trained
    split
    · exact hnamed
    · split
      · exact htrig.trainEnd c 1 eyes []
      · exact htrig.trainEnd c 0 eyes failed
  have hchip : ErasesOnly chip := htrained.of_cores (updChip_frame (modCourier_frame (OnlyChanges.refl _ _) (by decide)) (by decide)) rfl
  have hon : OnlyChanges [.regs] chip on := by
    unfold on
    split
    · exact setActive_frame (OnlyChanges.refl _ _) (by decide)
    · exact OnlyChanges.refl _ _
  have hagain : ErasesOnly again :=
    (hchip.of_cores (hon.mono (by decide)) (opCores_of_flash (hon.same .flash (by decide)))).foldl
      (fun x p hx => hx.reissueErases (lunOf c p)) cleared
  have hu : ErasesOnly u := hagain.foldl (fun x p hx => hx.faultLun c p) lost
  have hchn : u.flash.chn = back.flash.chn := calc
    u.flash.chn = again.flash.chn := faultLuns_chn hagain c lost
    _ = on.flash.chn := foldl_view (v := fun x : State => x.flash.chn) (fun x p => reissueErases_chn x (lunOf c p)) cleared on
    _ = back.flash.chn := congrArg Flash.chn (hon.same .flash (by decide) :)
  have hparts : OnlyChanges lossParts chip u := frame_foldl (fun x p hx => faultLun_frame hx (by decide) (by decide) (by decide) (by decide)
    (by decide) (by decide) (by decide) (by decide) (by decide) (by decide) (by decide) (by decide) (by decide) (by decide))
    (frame_foldl (fun x p hx => reissueErases_frame hx (by decide)) (hon.mono (by decide)))
  refine ⟨u, hu, ?_, ?_, rfl⟩
  · have hback : (courier back c).reset = false := congrArg Courier.reset (courier_modCourier_same trained c _)
    rw [courier, hchn]
    exact hback
  · have hsame : u.chip = chip.chip := hparts.same .chip (by decide)
    rw [hsame]
    show c ∉ trained.chip.chnReset.filter (· != c)
    simp

end Sys2Proof.Machine

namespace Sys2Proof.Proofs
open Sys2Proof.Machine

theorem courierResetDone : Claims.courierResetDone := by
  intro s c ans train hrst htrain hcalm hops
  have h : ErasesOnly s := ⟨hcalm.quiet, hops ▸ nofun⟩
  obtain ⟨t, ht, hback, hchip, hstep⟩ := courierResetDone_ends h hrst htrain ans train.eyes train.failedCe train.verified
  have hset : GrantKept t (chnCauseSet t c 8) := (GrantKept.refl t).chnCauseSet c 8 none
  have honly : OnlyChanges (signals ++ [.flash]) t (chnCauseSet t c 8) :=
    chnCauseSet_frame (OnlyChanges.refl _ t) (by decide) (by decide) (by decide) (by decide) (by decide) (by decide)
  have hpump : afterFlash (chnCauseSet t c 8) = pump (chnCauseSet t c 8) := afterFlash_quiet (ht.quiet.of_only (honly.mono (by decide)))
  have hkept : GrantKept (chnCauseSet t c 8) (pump (chnCauseSet t c 8)) := .pump (.refl _)
  have hparts : OnlyChanges (signals ++ [.flash]) t (pump (chnCauseSet t c 8)) :=
    pump_frame honly (by decide) (by decide) (by decide) (by decide) (by decide) (by decide)
  refine completes_eq rfl (hstep.trans hpump) ⟨?_, ?_, ?_⟩
  · exact (congrArg Courier.reset ((hset.trans hkept).couriers c) :).trans hback
  · have hsame : (pump (chnCauseSet t c 8)).chip = t.chip := hparts.same .chip (by decide)
    rw [hsame]
    exact hchip
  · exact hkept.causes c 8 (by decide) (chnCauseSet_sets t c (by decide) none)

/-- Settles O40, clause by clause. -/
theorem courierCommands : Obligations.CourierCommands :=
  ⟨suspendResume, suspendStays, rdIAgeExpiry, lunTimeout, trainingStart, trainingDone, courierReset, courierResetDone, tokenAllocation,
    snapshotFire, snapshotPop⟩

end Sys2Proof.Proofs
end

section
/-! PROOFS. The rebuild of a data member in a finished row (R225, R232, R233): what the stripe engine computes for each erasure set of
Table 8-9, and that this is the payload which the row's parity was made from. Settles O20. -/

namespace Sys2Proof.Machine

/-- The erased members of a rebuild that are data members. -/
def lostData (b : Sb) (r : Rebuild) : List Nat := r.erased.filter fun m => !b.isParity m

/-- A value plus the term of every data member but the target and the erased ones. -/
def addPresent (b : Sb) (r : Rebuild) (f : Nat → Payload) (v : Payload) : Payload :=
  (b.dataMems.filter fun m => m != r.target && !(lostData b r).contains m).foldl (fun v m => v ^^^ f m) v

/-- A data member's term in Q: its payload times g to its data index (R225). -/
def qTerm (s : State) (b : Sb) (r : Rebuild) (slot m : Nat) : Payload := gPowTimes (b.dataIdx m) (memPayload s r.sbx b r.row m slot)

/-- P of the medium with the present data members' payloads added: what the lost ones leave of it (p1 of R233). -/
def pRest (s : State) (b : Sb) (r : Rebuild) (slot : Nat) : Payload :=
  addPresent b r (fun m => memPayload s r.sbx b r.row m slot) ((slotPayload s (b.page b.pIdx r.row + slot)).getD 0)
/-- Q of the medium with the present data members' terms added: what the lost ones leave of it (q1 of R233). -/
def qRest (s : State) (b : Sb) (r : Rebuild) (slot : Nat) : Payload :=
  addPresent b r (qTerm s b r slot) ((slotPayload s (b.page b.qIdx r.row + slot)).getD 0)

/-- The payload of data index a that R233 solves from the rests p of P and q of Q, where data index c is lost too. -/
def pairSolved (a c : Nat) (p q : Payload) : Payload :=
  let lower := gmulConst (ginv (gpow (min a c) ^^^ gpow (max a c))) (gPowTimes (max a c) p ^^^ q)
  if a = min a c then lower else p ^^^ lower

theorem ne_parity_of_data {b : Sb} {m : Nat} (h : m ∈ b.dataMems) : m ≠ b.pIdx ∧ m ≠ b.qIdx := by
  simpa [Sb.isParity] using not_parity h

/-! ## What the present members leave of a row's sum -/

/-- With the target alone lost, its own term is left. -/
theorem addPresent_rowSum {b : Sb} {r : Rebuild} (ht : r.target ∈ b.dataMems) (hlost : lostData b r = []) (f : Nat → Payload) :
    addPresent b r f (b.dataMems.foldl (fun v m => v ^^^ f m) 0) = f r.target := by
  rw [addPresent, hlost]
  exact foldl_xor_split (dataMems_nodup b) ht _ fun m _ => by rw [Bool.eq_iff_iff]; simp

/-- With a second data member lost, the sum of the two terms is left. -/
theorem addPresent_rowSum_two {b : Sb} {r : Rebuild} {c : Nat} (ht : r.target ∈ b.dataMems) (hc : c ∈ b.dataMems) (hne : c ≠ r.target)
    (hlost : lostData b r = [c]) (f : Nat → Payload) :
    addPresent b r f (b.dataMems.foldl (fun v m => v ^^^ f m) 0) = f r.target ^^^ f c := by
  rw [addPresent, hlost]
  exact foldl_xor_split2 (dataMems_nodup b) ht hc hne.symm _ fun m _ => by rw [Bool.eq_iff_iff]; simp

/-- R233 gives back either of two lost payloads from the sums P and Q of the two. -/
theorem pairSolved_sums {a c : Nat} (hne : a ≠ c) (ha : a < 255) (hc : c < 255) (x y : Payload) :
    pairSolved a c (x ^^^ y) (gPowTimes a x ^^^ gPowTimes c y) = x := by
  rcases Nat.lt_or_gt_of_ne hne with h | h
  · simp only [pairSolved, Nat.min_eq_left h.le, Nat.max_eq_right h.le, if_true]
    exact solve_two h hc x y
  · have hlower : gmulConst (ginv (gpow c ^^^ gpow a)) (gPowTimes a (x ^^^ y) ^^^ (gPowTimes a x ^^^ gPowTimes c y)) = y := by
      rw [BitVec.xor_comm x y, BitVec.xor_comm (gPowTimes a x)]
      exact solve_two h ha y x
    simp only [pairSolved, Nat.min_eq_right h.le, Nat.max_eq_left h.le, if_neg hne, hlower]
    rw [BitVec.xor_assoc, BitVec.xor_self, BitVec.xor_zero]

/-! ## Table 8-9 for a data member of a finished row -/

section
variable {s : State} {b : Sb} {r : Rebuild} (slot : Nat) (hbuf : inSealBuffer s r.sbx b r.row = none) (ht : r.target ∈ b.dataMems)
include hbuf ht

/-- No other data member is lost and P is there: the rest of P. -/
theorem solve_eq_pRest (hlost : lostData b r = []) (hrow : r.row < b.endRow b.pIdx) (hp : b.pIdx ∉ r.erased) :
    solve s b r slot = .inl (pRest s b r slot) := by
  obtain ⟨htp, htq⟩ := ne_parity_of_data ht
  rw [lostData] at hlost
  simp [solve, hbuf, covered, parityPay, hlost, htp, htq, hrow, hp, pRest, addPresent, lostData]

/-- No other data member is lost but P is: the rest of Q, divided. -/
theorem solve_eq_qRest (hlost : lostData b r = []) (hp : b.pIdx ∈ r.erased) (hrow : r.row < b.endRow b.qIdx) (hq : b.qIdx ∉ r.erased) :
    solve s b r slot = .inl (gDivPow (b.dataIdx r.target) (qRest s b r slot)) := by
  obtain ⟨htp, htq⟩ := ne_parity_of_data ht
  rw [lostData] at hlost
  simp [solve, hbuf, covered, parityPay, hlost, htp, htq, hrow, hp, hq, qRest, qTerm, addPresent, lostData]

/-- A second data member is lost and both parities are there: R233. -/
theorem solve_eq_pairSolved {c : Nat} (hlost : lostData b r = [c]) (hrowP : r.row < b.endRow b.pIdx) (hp : b.pIdx ∉ r.erased)
    (hrowQ : r.row < b.endRow b.qIdx) (hq : b.qIdx ∉ r.erased) :
    solve s b r slot = .inl (pairSolved (b.dataIdx r.target) (b.dataIdx c) (pRest s b r slot) (qRest s b r slot)) := by
  obtain ⟨htp, htq⟩ := ne_parity_of_data ht
  rw [lostData] at hlost
  simp [solve, hbuf, covered, parityPay, hlost, htp, htq, hrowP, hp, hrowQ, hq, pairSolved, pRest, qRest, qTerm, addPresent, lostData]

/-- Two parities do not solve for three payloads. -/
theorem solve_three_lost {c d : Nat} {l : List Nat} (hlost : lostData b r = c :: d :: l)
    (hrow : r.row < b.endRow b.pIdx ∨ r.row < b.endRow b.qIdx) : solve s b r slot = .inr 1 := by
  obtain ⟨htp, htq⟩ := ne_parity_of_data ht
  have hparity : ¬ (b.endRow b.pIdx ≤ r.row ∧ b.endRow b.qIdx ≤ r.row) := by omega
  rw [lostData] at hlost
  simp [solve, hbuf, hlost, htp, htq, hparity]

end

end Sys2Proof.Machine

namespace Sys2Proof.Proofs
open Sys2Proof.Machine

theorem rebuildFromP : Claims.rebuildFromP := by
  intro s b r slot _ hbuf ht hrow hp herased hpar
  have hlost : lostData b r = [] := List.filter_eq_nil_iff.mpr fun m hm => by simp [Sb.isParity, herased m hm]
  have hrest : pRest s b r slot = memPayload s r.sbx b r.row r.target slot := by
    rw [pRest, hpar]
    exact addPresent_rowSum ht hlost _
  rw [solve_eq_pRest slot hbuf ht hlost hrow (by simpa using hp), hrest]

theorem rebuildFromQ : Claims.rebuildFromQ := by
  intro s b r slot hmem hbuf ht hrow hpq herased hpar
  have hlost : lostData b r = [] := by simp [lostData, herased, Sb.isParity]
  have hrest : qRest s b r slot = qTerm s b r slot r.target := by
    rw [qRest, hpar]
    exact addPresent_rowSum ht hlost _
  rw [solve_eq_qRest slot hbuf ht hlost (by simp [herased]) hrow (by simp [herased, hpq.symm]), hrest, qTerm,
    gDivPow_gPowTimes (dataIdx_lt hmem ht)]

theorem rebuildFromPQ : Claims.rebuildFromPQ := by
  intro s b r slot other hmem hbuf ht ho hne herased hrowP hrowQ hP hQ
  obtain ⟨hop, hoq⟩ := ne_parity_of_data ho
  have hlost : lostData b r = [other] := by simp [lostData, herased, not_parity ho]
  have hp : pRest s b r slot = memPayload s r.sbx b r.row r.target slot ^^^ memPayload s r.sbx b r.row other slot := by
    rw [pRest, hP]
    exact addPresent_rowSum_two ht ho hne hlost _
  have hq : qRest s b r slot = qTerm s b r slot r.target ^^^ qTerm s b r slot other := by
    rw [qRest, hQ]
    exact addPresent_rowSum_two ht ho hne hlost _
  have hidx : b.dataIdx r.target ≠ b.dataIdx other := fun h => hne (dataIdx_inj ht ho h).symm
  rw [solve_eq_pairSolved slot hbuf ht hlost hrowP (by simp [herased, hop.symm]) hrowQ (by simp [herased, hoq.symm]), hp, hq, qTerm, qTerm,
    pairSolved_sums hidx (dataIdx_lt hmem ht) (dataIdx_lt hmem ho)]

theorem rebuildLost : Claims.rebuildLost := by
  intro s b r slot c d hbuf ht hc hd herased hrow
  have hlost : lostData b r = [c, d] := by simp [lostData, herased, not_parity hc, not_parity hd]
  exact solve_three_lost slot hbuf ht hlost hrow

/-- Settles O20, clause by clause. -/
theorem parityRebuilds : Obligations.ParityRebuilds := ⟨rebuildFromP, rebuildFromQ, rebuildFromPQ, rebuildLost⟩

end Sys2Proof.Proofs
end

section
/-! PROOFS. A statement that fails at one clause: the retirement of a channel speaks of every position inside the geometry that
CHN_GEOM's bits give, without asking that CES is one of the values 1 to 4 of Table 7-10. A courier has the positions 0 to 31 (R185), and
no others are retired. Refutes O38. -/

namespace Sys2Proof.Proofs
open Sys2Proof.Machine

/-- Block 0 of position 32 on channel 0, which is LUN 1,024. -/
def strayBlock : Nat := blkKey (lunOf 0 32) 0

/-- A running chip at rest, in whose CHN_GEOM of channel 0 LPC is 1 and CES is 5, a reserved value: position 32 is within these bits.
Each LUN has one block, and the map lists those of positions 0 and 32, both FREE. -/
def fiveChipEnables : State :=
  { State.reset with
    chip := { State.reset.chip with held := false, parked := false, wakeWait := false }
    regs := [(0x200010, 0x501)]
    map := { State.reset.map with tab := { State.reset.map.tab with
      blocks := [(blkKey (lunOf 0 0) 0, { st := 1 }), (strayBlock, { st := 1 })] } }
    flash := { State.reset.flash with die := { State.reset.flash.die with blocks := 1 } } }

/-- Channel 0 is not retired, nothing is under way, and a core's write reaches MAP_CHRET. -/
theorem fiveChipEnables_ready : Claims.RetireReady fiveChipEnables .sc0 0x30110 ∧ bitOf (rd fiveChipEnables 0x30110) 0 = false := by
  refine ⟨⟨?_, ?_, ⟨rfl, rfl, rfl⟩, rfl, fun e he => absurd he (by simp [fiveChipEnables, State.reset])⟩, ?_⟩ <;> decide +kernel

/-- Position 32 lies within the geometry's bits, and the second listed block is its LUN's. -/
theorem fiveChipEnables_stray : inGeometry fiveChipEnables 0 32 = true ∧ strayBlock / 16384 = lunOf 0 32 ∧
    strayBlock % 16384 < fiveChipEnables.flash.die.blocks ∧
    nget fiveChipEnables.map.tab.blocks strayBlock = some { st := 1 } := by decide +kernel

/-- The retirement of channel 0 goes through the LUNs of positions 0 to 31: the block of position 0 becomes RETIRED, and that of position
32 stays FREE. -/
theorem fiveChipEnables_retired :
    let t := writeAccess fiveChipEnables .sc0 0x30110 4 (rd fiveChipEnables 0x30110 ||| 2 ^ 0) {}
    nget t.map.tab.blocks (blkKey (lunOf 0 0) 0) = some { st := 4 } ∧ nget t.map.tab.blocks strayBlock = some { st := 1 } := by
  decide +kernel

/-- A block of a channel that retires need not become RETIRED, where the geometry's bits name positions past the courier's 32. -/
theorem not_channelRetire : ¬ Claims.channelRetire := by
  intro h
  obtain ⟨hready, hclear⟩ := fiveChipEnables_ready
  obtain ⟨hin, hlun, hblock, hlisted⟩ := fiveChipEnables_stray
  obtain ⟨t, ht, -, -, hretired⟩ := h fiveChipEnables .sc0 0 hready hclear
  have ht : writeAccess fiveChipEnables .sc0 0x30110 4 (rd fiveChipEnables 0x30110 ||| 2 ^ 0) {} = t := Host.Outcome.next.inj ht
  have hst := hretired strayBlock _ 32 hin hlisted hlun hblock (by decide)
  obtain ⟨-, hfree⟩ := fiveChipEnables_retired
  rw [← ht, hfree] at hst
  exact absurd hst (by decide)

/-- Refutes O38: with CES = 5 in CHN_GEOM, a block at position 32 of the channel stays FREE as the channel retires. -/
theorem not_erasesAndRetirement : ¬ Obligations.ErasesAndRetirement := fun h => by
  obtain ⟨-, -, -, -, -, -, hchannel, -⟩ := h
  exact not_channelRetire hchannel

end Sys2Proof.Proofs
end

section
/-! PROOFS. What the work on the streams and on a checkpoint keeps (R137, R139, R223, R265, R268): of the journal all but its requests, its
triggers and the cut's own tables, every block that is not FREE, the registers of JRC_CUT and JRC_ROOTSEQ, and what is pending. For O41. -/

set_option Elab.async false

namespace Sys2Proof.Machine

variable {s t z : State}

/-! ## What the start of flash operations does to a state (R201)

It changes the flash's state, counts in and sets bits of the registers of couriers and districts, and raises sources. A property that
these four keep is kept. -/

/-- A property that every step in the start of flash operations keeps. -/
structure PumpClosed (P : State → Prop) : Prop where
  flash : ∀ s f, P s → P (updFlash s f)
  count : ∀ s a hi lo n, 0x140000 ≤ a → P s → P (satAdd s a hi lo n)
  cause : ∀ s a m, 0x140000 ≤ a → P s → P (orReg s a m)
  raise : ∀ s n pl o, P s → P (raiseWith s n pl o)

theorem chn_high (c o : Nat) : 0x140000 ≤ chn c o := by
  unfold chn
  omega
theorem dst_high (d o : Nat) : 0x140000 ≤ dst d o := by
  unfold dst
  omega

namespace PumpClosed

variable {P : State → Prop}

theorem ite {c : Prop} [Decidable c] (hs : P s) (ht : P t) : P (if c then s else t) := by split <;> assumption
theorem foldl {α : Type} {g : State → α → State} (hg : ∀ x a, P x → P (g x a)) (l : List α) (hs : P s) : P (l.foldl g s) := by
  induction l generalizing s with
  | nil => exact hs
  | cons a r ih => exact ih (hg s a hs)

variable (h : PumpClosed P)
include h

theorem modOp (hs : P s) (id : Nat) (f : FOp → FOp) : P (modOp s id f) := h.flash _ _ hs
theorem modCourier (hs : P s) (c : Nat) (f : Courier → Courier) : P (modCourier s c f) := h.flash _ _ hs
theorem snapCapture (hs : P s) (c kinds : Nat) (lun : Option Nat) : P (snapCapture s c kinds lun) :=
  ite (h.count _ _ 31 16 1 (chn_high c _) hs) (h.raise _ _ _ _ (h.modCourier hs c _))
theorem snapTrigger (hs : P s) (c bit kind : Nat) (lun : Option Nat) : P (snapTrigger s c bit kind lun) :=
  ite (h.snapCapture hs c _ lun) hs
theorem chnCauseSet (hs : P s) (c bit : Nat) (lun : Option Nat) : P (chnCauseSet s c bit lun) := by
  have hsnap := h.snapTrigger (h.cause _ _ (2 ^ bit) (chn_high c 0x44) hs) c bit (3 + bit) lun
  exact ite hs (ite (h.raise _ c _ _ hsnap) hsnap)
theorem dstCauseSet (hs : P s) (d bit : Nat) : P (dstCauseSet s d bit) :=
  ite hs (h.raise _ _ _ _ (h.cause _ _ _ (dst_high d _) hs))

theorem startOp (hs : P s) (id : Nat) (o : FOp) : P (startOp s id o) := by
  have hrun := h.modOp hs id fun x => { x with st := .running, resume := false }
  exact ite (ite hrun (h.chnCauseSet (h.count _ _ 31 0 1 (chn_high _ _) hrun) _ 5 _)) (h.modOp hs id _)
theorem granted (hs : P s) (a : Ask) (o : FOp) : P (granted s a o) := by
  have hstart : P (if a.bus then startUnit s a.id o else Machine.startOp s a.id o) := ite (h.modCourier hs _ _) (h.startOp hs a.id o)
  have hrun := h.modOp hstart a.id fun x => { x with wait := none }
  exact ite (h.dstCauseSet (h.count _ _ 31 0 1 (dst_high _ _) hrun) _ 0) hrun
theorem grant (hs : P s) (d : Nat) (l : List Ask) (blocked : Nat) : P (grant d l blocked s) := by
  induction l generalizing s blocked with
  | nil => exact hs
  | cons a r ih =>
    unfold Machine.grant
    split
    · exact ih hs _
    split
    · exact hs
    split
    · exact ih (h.granted hs a _) _
    · have hwait := h.modOp hs a.id fun x => { x with wait := some (x.wait.getD s.clk.tb) }
      exact ih (ite (h.dstCauseSet hwait d 1) hwait) _
theorem grants (hs : P s) (d : Nat) : P (grants s d) := ite hs (h.grant (h.grant hs d _ 9) d _ 9)
theorem queueOp (hs : P s) (x : Nat × FOp) : P (queueOp s x) := ite (h.modOp hs x.1 _) hs
theorem refill (hs : P s) : P (refill s) := by
  unfold Machine.refill
  exact foldl (P := P) (fun _ x hx => h.queueOp hx x) _ hs
theorem pump (hs : P s) : P (pump s) := by
  unfold Machine.pump
  exact foldl (P := P) (fun _ d hx => h.grants hx d) _ (h.refill hs)

end PumpClosed

/-! ## Blocks -/

/-- From one map to another every block keeps its information, but that a FREE one may be taken into use. -/
def BlocksKept (t u : MapTab) : Prop :=
  ∀ k b, nget t.blocks k = some b → nget u.blocks k = some b ∨ b.st = 0 ∧ ∃ d, nget u.blocks k = some d ∧ d.st = 2

theorem BlocksKept.of_eq {t u : MapTab} (h : u.blocks = t.blocks) : BlocksKept t u := fun _ _ hk => .inl (h ▸ hk)
theorem BlocksKept.trans {t u v : MapTab} (h : BlocksKept t u) (k : BlocksKept u v) : BlocksKept t v := by
  intro i b hb
  rcases h i b hb with hu | ⟨h0, d, hd, h2⟩
  · exact k i b hu
  · refine .inr ⟨h0, ?_⟩
    rcases k i d hd with hv | ⟨hz, -⟩
    · exact ⟨d, hv, h2⟩
    · omega
/-- Blocks that are FREE in the map before are taken into use. -/
theorem BlocksKept.take {t u : MapTab} (h : BlocksKept t u) {k : Nat} (hk : (blkGet t k).st = 0) {d : BlkInfo} (hd : d.st = 2) :
    BlocksKept t (blkSet u k d) := by
  intro i b hb
  by_cases hi : i = k
  · subst hi
    rw [blkGet, ngetD, hb] at hk
    exact .inr ⟨hk, d, nget_nset_same _ _ _, hd⟩
  · simpa only [blkSet, nget_nset_other _ _ hi] using h i b hb
theorem BlocksKept.takeAll {α : Type} {t : MapTab} (key : α → Nat) (f : BlkInfo → BlkInfo) (hf : ∀ b, (f b).st = 2) (l : List α)
    (hl : ∀ q ∈ l, (blkGet t (key q)).st = 0) {u : MapTab} (h : BlocksKept t u) :
    BlocksKept t (l.foldl (fun u q => blkSet u (key q) (f (blkGet u (key q)))) u) := by
  induction l generalizing u with
  | nil => exact h
  | cons q r ih => exact ih (fun p hp => hl p (List.mem_cons_of_mem _ hp)) (h.take (hl q List.mem_cons_self) (hf _))

/-- What a search finds, each of whose steps keeps what it has or takes the block at hand, is one of the blocks searched. -/
theorem mem_of_foldl_pick {g : Option Nat → Nat × Nat → Option Nat} (hg : ∀ a x b, g a x = some b → a = some b ∨ x.2 = b)
    (l : List (Nat × Nat)) (a : Option Nat) {b : Nat} (h : l.foldl g a = some b) : a = some b ∨ ∃ x ∈ l, x.2 = b := by
  induction l generalizing a with
  | nil => exact .inl h
  | cons x r ih =>
    rcases ih _ h with hx | ⟨y, hy, rfl⟩
    · rcases hg a x b hx with ha | rfl
      · exact .inl ha
      · exact .inr ⟨x, List.mem_cons_self, rfl⟩
    · exact .inr ⟨y, List.mem_cons_of_mem _ hy, rfl⟩

theorem freeBlocks_free {c : Nat} {x : Nat × Nat} (h : x ∈ freeBlocks s c) : (blkGet s.map.tab (blkKey (lunOf c x.1) x.2)).st = 0 := by
  obtain ⟨p, -, hx⟩ := List.mem_flatMap.mp h
  obtain ⟨b, hb, rfl⟩ := List.mem_map.mp hx
  simpa using (List.mem_filter.mp hb).2
/-- A block that is picked is FREE (R250). -/
theorem pickBlock_free {c p b : Nat} {most : Bool} (h : pickBlock s c p most = some b) :
    (blkGet s.map.tab (blkKey (lunOf c p) b)).st = 0 := by
  unfold pickBlock at h
  refine (mem_of_foldl_pick ?_ _ none h).elim nofun fun ⟨x, hx, hb⟩ => ?_
  · intro a x d hd
    cases a with
    | none => exact .inr (Option.some.inj hd)
    | some e =>
      rcases ite_eq_iff.mp hd with ⟨-, h⟩ | ⟨-, h⟩
      · exact .inr (Option.some.inj h)
      · exact .inl h
  · obtain ⟨hfree, hpos⟩ := List.mem_filter.mp hx
    rw [← beq_iff_eq.mp hpos, ← hb]
    exact freeBlocks_free hfree

/-! ## The journal -/

/-- The journal's state but for its requests, its triggers and the cut's own tables. -/
def jrcCore (j : Jrc) : Jrc := { j with reqs := [], trigs := [], full := false, cutSegs := [], cutSt := 0, flashRoot := none }

/-- From s to t the work of a cut goes on. -/
structure CutKept (s t : State) : Prop where
  journal : jrcCore t.jrc = jrcCore s.jrc
  wsnLim : t.map.wsnLim = s.map.wsnLim
  relocs : t.map.relocs = s.map.relocs
  blocks : BlocksKept s.map.tab t.map.tab
  regs : ∀ a, 0x60000 ≤ a → a < 0x60050 → rd t a = rd s a
  pending : ∀ n, n < 256 → raised s n = true → raised t n = true
  pat : t.pat = s.pat
  prog : t.prog = s.prog

namespace CutKept

theorem refl (s : State) : CutKept s s := ⟨rfl, rfl, rfl, .of_eq rfl, fun _ _ _ => rfl, fun _ _ h => h, rfl, rfl⟩
theorem trans (h : CutKept z s) (k : CutKept s t) : CutKept z t :=
  ⟨k.journal.trans h.journal, k.wsnLim.trans h.wsnLim, k.relocs.trans h.relocs, h.blocks.trans k.blocks,
    fun a h1 h2 => (k.regs a h1 h2).trans (h.regs a h1 h2), fun n hn hr => k.pending n hn (h.pending n hn hr),
    k.pat.trans h.pat, k.prog.trans h.prog⟩
theorem ite {c : Prop} [Decidable c] (h : CutKept z s) (k : CutKept z t) : CutKept z (if c then s else t) := by
  split <;> assumption
theorem foldl {α : Type} {g : State → α → State} (hg : ∀ x a, CutKept z x → CutKept z (g x a)) (l : List α) (h : CutKept z s) :
    CutKept z (l.foldl g s) := PumpClosed.foldl hg l h


theorem gen (h : CutKept s t) : t.jrc.gen = s.jrc.gen :=
  show (jrcCore t.jrc).gen = (jrcCore s.jrc).gen from congrArg _ h.journal
theorem hold (h : CutKept s t) : t.jrc.hold = s.jrc.hold :=
  show (jrcCore t.jrc).hold = (jrcCore s.jrc).hold from congrArg _ h.journal
theorem twoGen (h : CutKept s t) : t.jrc.twoGen = s.jrc.twoGen :=
  show (jrcCore t.jrc).twoGen = (jrcCore s.jrc).twoGen from congrArg _ h.journal
theorem committing (h : CutKept s t) : t.jrc.committing = s.jrc.committing :=
  show (jrcCore t.jrc).committing = (jrcCore s.jrc).committing from congrArg _ h.journal
theorem next (h : CutKept s t) : t.jrc.next = s.jrc.next :=
  show (jrcCore t.jrc).next = (jrcCore s.jrc).next from congrArg _ h.journal
theorem roots (h : CutKept s t) : t.jrc.roots = s.jrc.roots :=
  show (jrcCore t.jrc).roots = (jrcCore s.jrc).roots from congrArg _ h.journal

theorem of_only {F : List Part} (h : CutKept z s) (k : OnlyChanges F s t)
    (hF : ∀ r ∈ [Part.jrc, .map, .regs, .pat, .prog], r ∉ F := by decide) : CutKept z t := by
  have hj : t.jrc = s.jrc := k.same .jrc (hF _ (by decide))
  have hm : t.map = s.map := k.same .map (hF _ (by decide))
  have hr : t.regs = s.regs := k.same .regs (hF _ (by decide))
  exact h.trans ⟨by rw [hj], by rw [hm], by rw [hm], by rw [hm]; exact .of_eq rfl, fun a _ _ => rd_of_regs hr a,
    fun n _ hn => by rwa [raised, rd_of_regs hr], k.same .pat (hF _ (by decide)), k.same .prog (hF _ (by decide))⟩

theorem wr (h : CutKept z s) (a v : Nat) (ha : a < 0x60000 ∨ 0x60050 ≤ a) (hs : signalReg a = false) : CutKept z (wr s a v) :=
  h.trans ⟨rfl, rfl, rfl, .of_eq rfl, fun b h1 h2 => rd_wr_other _ _ (by omega), fun n hn hr => by rwa [raised_wr _ hn hs], rfl, rfl⟩
theorem raiseWith (h : CutKept z s) (n : Nat) (pl : List Byte) (o : Nat) : CutKept z (raiseWith s n pl o) := by
  have hk : OnlyChanges signals s (Machine.raiseWith s n pl o) :=
    raiseWith_frame (.refl _ s) (by decide) (by decide) (by decide) (by decide) (by decide)
  have hj : (Machine.raiseWith s n pl o).jrc = s.jrc := hk.same .jrc (by decide)
  have hm : (Machine.raiseWith s n pl o).map = s.map := hk.same .map (by decide)
  have hp : (Machine.raiseWith s n pl o).pat = s.pat := hk.same .pat (by decide)
  have hg : (Machine.raiseWith s n pl o).prog = s.prog := hk.same .prog (by decide)
  refine h.trans ⟨by rw [hj], by rw [hm], by rw [hm], .of_eq (by rw [hm]), fun a h1 h2 => ?_,
    fun m _ hr => raised_raiseWith_mono n pl o hr, hp, hg⟩
  exact rd_raiseWith _ _ _ _ (by rw [← Bool.not_eq_true, signalReg_iff]; omega)
theorem updFlash (h : CutKept z s) (f : Flash → Flash) : CutKept z (updFlash s f) :=
  h.trans ⟨rfl, rfl, rfl, .of_eq rfl, fun _ _ _ => rfl, fun _ _ hr => hr, rfl, rfl⟩
theorem updJrc (h : CutKept z s) (f : Jrc → Jrc) (hf : ∀ j, jrcCore (f j) = jrcCore j := by exact fun _ => rfl) :
    CutKept z (updJrc s f) :=
  h.trans ⟨hf _, rfl, rfl, .of_eq rfl, fun _ _ _ => rfl, fun _ _ hr => hr, rfl, rfl⟩
theorem updMap (h : CutKept z s) (f : MapEng → MapEng) (hl : ∀ m, (f m).wsnLim = m.wsnLim := by exact fun _ => rfl)
    (hr : ∀ m, (f m).relocs = m.relocs := by exact fun _ => rfl) (ht : ∀ m, (f m).tab = m.tab := by exact fun _ => rfl) :
    CutKept z (updMap s f) :=
  h.trans ⟨rfl, hl _, hr _, .of_eq (by rw [updMap_map, ht]), fun _ _ _ => rfl, fun _ _ hr => hr, rfl, rfl⟩
theorem updTab (h : CutKept z s) (f : MapTab → MapTab) (hb : BlocksKept s.map.tab (f s.map.tab)) : CutKept z (updTab s f) :=
  h.trans ⟨rfl, rfl, rfl, hb, fun _ _ _ => rfl, fun _ _ hr => hr, rfl, rfl⟩

theorem signalReg_high {a : Nat} (h : 0x140000 ≤ a) : signalReg a = false := by
  rw [← Bool.not_eq_true, signalReg_iff]
  omega
theorem pumpClosed (z : State) : PumpClosed (CutKept z) where
  flash _ f h := h.updFlash f
  count _ _ _ _ _ ha h := h.wr _ _ (by omega) (signalReg_high ha)
  cause _ _ _ ha h := h.wr _ _ (by omega) (signalReg_high ha)
  raise _ n pl o h := h.raiseWith n pl o
theorem pump (h : CutKept z s) : CutKept z (pump s) := (pumpClosed z).pump h

/-! ### Triggers (R264) -/

theorem epochTrig (h : CutKept z s) (bit : Nat) : CutKept z (epochTrig s bit) :=
  ite (h.updJrc _) ((h.wr _ _ (by decide) rfl).raiseWith _ _ _)
theorem fullJudge (h : CutKept z s) : CutKept z (fullJudge s) :=
  ite ((h.updJrc fun j => { j with full := _ }).epochTrig 1) (h.updJrc _)

/-! ### Streams (R139, R223, R250, Table 8-7) -/

theorem askGroup (h : CutKept z s) (o : GOwner) (w : List Want) : CutKept z (askGroup s o w) := h.updJrc _
theorem modPg (h : CutKept z s) (id : Nat) (f : Pg → Pg) : CutKept z (modPg s id f) := h.updMap _
theorem modOpen (h : CutKept z s) (k : Nat) (f : OpenSb → OpenSb) : CutKept z (modOpen s k f) := h.updMap _
theorem modSb (h : CutKept z s) (x : Nat) (f : Sb → Sb) : CutKept z (modSb s x f) := h.updTab _ (.of_eq rfl)
theorem addOp (h : CutKept z s) (o : FOp) : CutKept z (addOp s o) := h.updFlash _
theorem dropHolder (h : CutKept z s) (x : Holder) : CutKept z (dropHolder s x) := by
  unfold Machine.dropHolder
  exact h.updMap _
theorem askSeal (h : CutKept z s) (k : Nat) : CutKept z (askSeal s k) := by
  unfold Machine.askSeal
  split
  · exact ite h ((h.modOpen k _).askGroup _ _)
  · exact h

/-- A superblock that is opened takes FREE blocks alone. -/
theorem openNow (h : CutKept z s) (k : Nat) : CutKept z (openNow s k) := by
  unfold Machine.openNow
  dsimp only
  refine askGroup (updMap (h.updTab _ ?_) _) _ _
  refine .takeAll (fun q : Nat × Nat × Nat => blkKey (lunOf q.1 q.2.1) q.2.2) (fun e => { e with st := 2, sbx := freeSbx s })
    (fun _ => rfl) _ ?_ (.of_eq rfl)
  · intro q hq
    obtain ⟨c, -, hc⟩ := List.mem_filterMap.mp hq
    obtain ⟨p, -, hp⟩ := Option.bind_eq_some_iff.mp hc
    obtain ⟨n, hn, rfl⟩ := Option.map_eq_some_iff.mp hp
    exact pickBlock_free hn
theorem openSb (h : CutKept z s) (k : Nat) : CutKept z (openSb s k) := ite h (h.openNow k)

theorem placeAll (h : CutKept z s) (k : Nat) : CutKept z (placeAll s k) := by
  unfold Machine.placeAll
  dsimp only
  refine foldl (fun x g hx => ?_) _ (ite (h.openSb k) h)
  split
  · exact hx
  split
  · exact hx
  split
  · exact hx
  split
  · exact hx
  · exact (hx.modOpen k _).modPg _ _

theorem foldStream (h : CutKept z s) (k : Nat) : CutKept z (foldStream s k) := by
  unfold Machine.foldStream
  have hp := h.placeAll k
  dsimp only
  split
  · exact hp
  split
  · exact hp
  rename_i b _
  split
  · exact hp
  split
  · exact hp.askSeal k
  split
  · exact (hp.modSb _ _).askSeal k
  · refine ite (foldl ?_ _ hp) (foldl (fun x m hx => hx.addOp _) _ ((foldl ?_ _ hp).modOpen k _))
    all_goals
      intro x g hx
      split
      · exact ite (((hx.modOpen k _).modPg _ _).addOp _) hx
      · exact hx
theorem turn (h : CutKept z s) : CutKept z (turn s) := (foldl (fun _ k hx => hx.foldStream k) _ h).pump

/-! ### The checkpoint (R265, R266, R268) -/

theorem sysPage (h : CutKept z s) (k : Nat) (us : List (Nat → Payload)) : CutKept z (sysPage s k us).1 :=
  modPg (foldl (fun _ u hx => (hx.updMap fun m => { m with wsn := m.wsn + 1 }).modPg _ _) _ (h.updMap _)) _ _
theorem sysPages (h : CutKept z s) (k n : Nat) (us : List (Nat → Payload)) : CutKept z (sysPages s k n us) := by
  induction n generalizing s us with
  | zero => exact h
  | succ n ih => exact ite h (ih (h.sysPage k us) _)
theorem segWrite (h : CutKept z s) (id : Nat) : CutKept z (segWrite s id) := by
  have hc : CutKept z (segClean s id) := h.of_only
    (segClean_frame (F := [.dram, .phc, .mem]) (OnlyChanges.refl _ s) (by decide) (by decide) (by decide))
  exact ite (hc.updJrc _) ((hc.sysPages 22 64 _).updJrc _)
theorem writeTables (h : CutKept z s) : CutKept z (writeTables s) := turn (((h.sysPages 22 _ _).sysPages 23 _ _).updJrc _)
theorem writeArea (h : CutKept z s) (r : Root) : CutKept z (writeArea s r) := by
  unfold Machine.writeArea
  exact (h.sysPages 23 _ _).updJrc _
theorem ckptStep (h : CutKept z s) : CutKept z (ckptStep s) := ite h (ite h.writeTables (ite ((h.updJrc _).updMap _) h))
theorem ckptStart (h : CutKept z s) (ids : List Nat) : CutKept z (ckptStart s ids) :=
  ckptStep (turn (foldl (fun _ id hx => hx.segWrite id) ids ((h.dropHolder .sys).updJrc _)))

end CutKept

end Sys2Proof.Machine
end

section
/-! PROOFS. Fields of bytes laid one after another, and the bytes of a root (Table 10-8). For O41 and O56. -/

set_option Elab.async false

namespace Sys2Proof.Machine

variable {s t : State}

/-! ## Bytes laid one after another -/

theorem fieldAt_le_head (n v : Nat) (m : List Byte) : fieldAt (le n v ++ m) 0 n = v % 256 ^ n := by
  have h := le_length n v
  rw [fieldAt, slice, List.drop_zero, List.take_append_of_le_length h.ge, List.take_of_length_le h.le, padTo, h, Nat.sub_self,
    List.replicate_zero, List.append_nil, leNat_le]
theorem fieldAt_le_skip (k v : Nat) (m : List Byte) {a n : Nat} (h : k ≤ a) : fieldAt (le k v ++ m) a n = fieldAt m (a - k) n := by
  rw [fieldAt, slice, List.drop_append, List.drop_of_length_le (by rw [le_length]; exact h), le_length, List.nil_append, fieldAt, slice]
theorem fieldAt_append_left {l : List Byte} (m : List Byte) {a n : Nat} (h : a + n ≤ l.length) :
    fieldAt (l ++ m) a n = fieldAt l a n := by
  rw [fieldAt, slice, List.drop_append_of_le_length (by omega), List.take_append_of_le_length (by rw [List.length_drop]; omega), fieldAt,
    slice]
theorem fieldAt_take {l : List Byte} {k a n : Nat} (h : a + n ≤ k) : fieldAt (l.take k) a n = fieldAt l a n := by
  rw [fieldAt, slice, List.drop_take, List.take_take, Nat.min_eq_left (by omega), fieldAt, slice]

/-- The low word and the high word of a number, one after the other, are the number. -/
theorem le_words (v : Nat) : le 4 (v % 2 ^ 32) ++ le 4 (v / 2 ^ 32) = le 8 v := by
  have hlow : ∀ n v, le n (v % 256 ^ n) = le n v := by
    intro n
    induction n with
    | zero => exact fun _ => rfl
    | succ n ih =>
      intro v
      rw [le, le, Nat.pow_succ', Nat.mod_mul_right_div_self, ih]
      congr 1
      apply BitVec.eq_of_toNat_eq
      rw [BitVec.toNat_ofNat, BitVec.toNat_ofNat, Nat.mod_mul_right_mod _ 256]
  have hcut : ∀ n m v, le n v ++ le m (v / 256 ^ n) = le (n + m) v := by
    intro n m
    induction n with
    | zero => intro v; simp [le]
    | succ n ih => intro v; rw [Nat.succ_add, le, le, List.cons_append, Nat.pow_succ', ← Nat.div_div_eq_div_mul, ih]
  exact (congrArg (· ++ _) (hlow 4 v)).trans (hcut 4 4 v)

/-! ## A root's bytes (Table 10-8) -/

theorem withCrc64_idem {l : List Byte} (h : 248 ≤ l.length) : withCrc64 (withCrc64 l) = withCrc64 l := by
  have hk : (withCrc64 l).take 248 = l.take 248 := by
    rw [withCrc64, List.take_append_of_le_length (by rw [List.length_take]; omega), List.take_take, Nat.min_self]
  rw [withCrc64, hk, ← withCrc64]
theorem fieldAt_withCrc64 {l : List Byte} {a n : Nat} (h : 248 ≤ l.length) (hf : a + n ≤ 248) :
    fieldAt (withCrc64 l) a n = fieldAt l a n := by
  rw [withCrc64, fieldAt_append_left _ (by rw [List.length_take]; omega), fieldAt_take hf]

theorem rootImage_fields (epoch seq jstart gseq0 wsnLim sbidNext segCnt tbkt stcrc : Nat) :
    fieldAt (rootImage epoch seq jstart gseq0 wsnLim sbidNext segCnt tbkt stcrc) 4 4 = epoch % 2 ^ 32 ∧
      fieldAt (rootImage epoch seq jstart gseq0 wsnLim sbidNext segCnt tbkt stcrc) 32 8 = wsnLim % 2 ^ 64 := by
  have hlen : ∀ l : List Byte, 248 ≤ (padTo 248 l).length := fun l => by
    rw [padTo, List.length_append, List.length_replicate]
    omega
  rw [rootImage, fieldAt_withCrc64 (hlen _) (by decide), fieldAt_withCrc64 (hlen _) (by decide), padTo]
  simp only [List.append_assoc]
  constructor
  · rw [fieldAt_le_skip _ _ _ (by decide), fieldAt_le_head]
    rfl
  · iterate 6 rw [fieldAt_le_skip _ _ _ (by decide)]
    rw [fieldAt_le_head]
    rfl

end Sys2Proof.Machine
end

section
/-! PROOFS. What a cutover and a root commit leave, and the epoch's triggers. For O41. -/

set_option Elab.async false

namespace Sys2Proof.Machine

open Claims Proofs

variable {s t : State}

/-! ## Triggers (R264) -/

/-- The cause bit that is set as its source is raised. -/
theorem bitOf_raise_orReg {a k : Nat} (n : Nat) (ha : signalReg a = false) (hk : k < 64) :
    bitOf (rd (raise (orReg s a (2 ^ k)) n) a) k = true := by
  rw [rd_raise _ _ ha, bitOf_orReg _ _ _ _ hk, bitOf_two_pow, Bool.or_true]
/-- A trigger that is given: source 57 and its JRC_CAUSE bit. -/
theorem trigger_given {k : Nat} (hk : k < 64) (hc : s.chip.held = false) :
    raised (raise (orReg s 0x60050 (2 ^ k)) 57) 57 = true ∧ bitOf (rd (raise (orReg s 0x60050 (2 ^ k)) 57) 0x60050) k = true :=
  ⟨raised_raise (by decide) (by decide) hc, bitOf_raise_orReg 57 rfl hk⟩

theorem epochTrig_lastCut (s : State) (k : Nat) : (epochTrig s k).jrc.lastCut = s.jrc.lastCut := by
  unfold epochTrig
  split
  · rfl
  · rw [raise_jrc, orReg_jrc]
theorem epochTrig_now {k : Nat} (h : inMinsp s = false) : epochTrig s k = raise (orReg s 0x60050 (2 ^ k)) 57 := by
  simp [epochTrig, h]
/-- Within MINSP a trigger waits. -/
theorem epochTrig_waits {k : Nat} (h : inMinsp s = true) : k ∈ (epochTrig s k).jrc.trigs := by
  simp only [epochTrig, h, if_true, updJrc_jrc]
  split
  · exact List.contains_iff_mem.mp ‹_›
  · exact List.mem_append_right _ List.mem_cons_self

theorem epochPeriod_due (ha : active s .jrc = true) (hd : s.jrc.lastCut + rdField s 0x60028 31 16 * 250000 ≤ s.clk.tb) :
    epochPeriod s = epochTrig (updJrc s fun j => { j with lastCut := s.clk.tb }) 0 := by
  have hper : ¬ s.clk.tb < s.jrc.lastCut + rdField s (jrc 0x28) 31 16 * 250000 := Nat.not_lt.mpr hd
  simp only [epochPeriod, ha, decide_eq_false hper]
  rfl
theorem minspExpiry_one {b : Nat} (hm : inMinsp s = false) (ht : s.jrc.trigs = [b]) :
    minspExpiry s = raise (orReg (updJrc s fun j => { j with trigs := [] }) 0x60050 (2 ^ b)) 57 := by
  rw [minspExpiry, hm, ht]
  rfl
/-- Where no run waits and the staging list has room, staging does nothing (R290). -/
theorem stageRuns_quiet (hq : s.pat.deadQ = []) (hl : s.pat.staging.length < 512) : stageRuns s = s := by
  have he : updPat s (fun p => { p with deadQ := [] }) = s := by rw [updPat, ← hq]
  rw [stageRuns, hq, he]
  exact if_neg (Nat.not_le.mpr hl)

/-! ## The trigger JRC_CUT (R54, R55, R265) -/

/-- What the write of a command to JRC_CUT comes to. -/
theorem writeAccess_jrcCut {i : Initiator} (h : coreAccess s i .jrc 0 = true) (v op : Nat) (hop : op = 1 ∨ op = 2) :
    writeAccess s i 0x6002C 4 (setBits v 1 0 op) {} =
      if s.jrc.hold || s.jrc.committing || (if op = 1 then s.jrc.twoGen || inMinsp s else !s.jrc.twoGen)
      then accessFault s .jrc 0 2 7 (initCode i) 0x2C else if op = 1 then cutover s else jrcCommit s := by
  have hv : setBits v 1 0 op % 2 ^ 32 % 4 = op := by
    have hb := bitsOf_word_setBits v 1 0 op (by decide)
    rw [bitsOf, Nat.pow_zero, Nat.div_one] at hb
    omega
  have hbusy : trigBusy s .jrc 0 0x2C (setBits v 1 0 op % 2 ^ 32) =
      (s.jrc.hold || s.jrc.committing || (if op = 1 then s.jrc.twoGen || inMinsp s else !s.jrc.twoGen)) := by
    simp only [trigBusy, hv, beq_self_eq_true, Bool.true_and]
  rw [writeAccess_trigger h rfl isTrigger_jrcCut (jrcCut_accepts v op hop), hbusy]
  cases s.jrc.hold || s.jrc.committing || (if op = 1 then s.jrc.twoGen || inMinsp s else !s.jrc.twoGen) with
  | true => rfl
  | false => rcases hop with rfl | rfl <;> simp only [flashEffect, hv] <;> rfl

theorem turn_still (h : Still s) : turn s = s := by
  obtain ⟨ho, hg, hf⟩ := h
  have e : (List.range 24).foldl foldStream s = s := foldl_id _ fun k _ => by simp [foldStream, placeAll, ho, hg, nget]
  rw [turn, e, pump_idle hf]
/-- A cutover's header, with HOLD. -/
def cutHeld (s : State) : State :=
  updJrc (wrField (trig54 s 0x60030) 0x60030 29 28 1) fun j => { j with hold := true, holdAt := s.clk.tb }
theorem cutHeld_jrc (s : State) : (cutHeld s).jrc = { s.jrc with hold := true, holdAt := s.clk.tb } := by
  rw [cutHeld, updJrc_jrc, wrField_jrc, trig54_jrc]
/-- With nothing packing and the streams still, a cutover is its header and HOLD. -/
theorem cutover_still (h : Still s) (hp : s.map.packs = []) : cutover s = cutHeld s := by
  have hclose : ∀ k ∈ List.range 24, packClose (cutHeld s) k = cutHeld s := fun k _ => by
    have hk : nget (cutHeld s).map.packs k = none := congrArg (nget · k) hp
    rw [packClose, hk]
  exact (congrArg turn (foldl_id _ hclose)).trans (turn_still h)

/-! ## CUTOVER_DONE (R265) -/

theorem ringAppend_only (j : Jrc) (ws : List Nat) :
    (ringAppend j ws).gen = j.gen ∧ (ringAppend j ws).gseq = j.gseq ∧ (ringAppend j ws).roots = j.roots := by
  by_cases hp : Config.ringBytes < j.head + 16 * ws.length <;> simp [ringAppend, ringMend, hp]

/-- What a cutover marks before source 58 is raised and the checkpoint starts. -/
theorem cutoverDone_marks (hh : s.jrc.hold = true) (hb : s.jrc.batches = []) (ha : s.jrc.applyQ = [])
    (hr : s.jrc.live + (ringNeeds s.jrc 16).1 < Config.ringBytes) :
    ∃ u ids, cutoverDone s = fullJudge (ckptStart (raise u 58) ids) ∧ u.chip = s.chip ∧ u.jrc.gen = s.jrc.gen + 1 ∧
      u.jrc.hold = false ∧ u.jrc.twoGen = true ∧ u.map.wsnLim = s.map.wsn + 2 ^ 36 ∧ rdField u 0x60030 31 31 = 1 ∧
      ∃ r, u.jrc.next = some r ∧ r.epoch = (s.jrc.gen + 1) % 2 ^ 32 ∧ r.tab = s.map.tab ∧
        r.wsnLim = (s.map.wsn + 2 ^ 36) % 2 ^ 64 := by
  unfold cutoverDone
  rw [if_neg (by simp [hh, hb, ha]), if_neg (Nat.not_le.mpr hr)]
  extract_lets g s1 s2 s3 s4 s5
  have hmap : OnlyChanges [.regs, .jrc, .map, .pat] s s2 := updMap_frame (updJrc_frame (.refl _ s) (by decide)) (by decide)
  have hdlo : OnlyChanges [.regs, .jrc, .map, .pat] s s3 := dloEval_frame hmap (by decide)
  have hmark : OnlyChanges [.regs, .jrc, .map, .pat] s s5 :=
    orReg_frame (wrField_frame (wrField_frame hdlo (by decide)) (by decide)) (by decide)
  refine ⟨s5, _, rfl, hmark.same .chip (by decide), ?_, rfl, rfl, rfl, ?_, _, rfl, ?_, rfl, ?_⟩
  · exact (ringAppend_only ..).1
  · rw [rdField, rd_orReg_other _ (by decide), ← rdField]
    exact rdField_wrField _ _ _ _ _ (by decide)
  · exact (rootImage_fields ..).1
  · exact (rootImage_fields ..).2

/-! ## ROOT_COMMIT_DONE (R265 step 7, R267) -/

/-- Bytes 8 to 15 of 32-bit words that hold a number's low word at word 2 and its high word at word 3. -/
theorem fieldAt_words {w : Nat → Nat} {q : Nat} (h2 : w 2 = q % 2 ^ 32) (h3 : w 3 = q / 2 ^ 32) :
    fieldAt ((List.range 64).flatMap fun i => le 4 (w i)) 8 8 = q % 2 ^ 64 := by
  have hskip : fieldAt ((List.range 64).flatMap fun i => le 4 (w i)) 8 8 =
      fieldAt (le 4 (w 2) ++ (le 4 (w 3) ++ (List.range' 4 60).flatMap fun i => le 4 (w i))) 0 8 :=
    (fieldAt_le_skip 4 (w 0) _ (by decide)).trans (fieldAt_le_skip 4 (w 1) _ (by decide))
  rw [hskip, ← List.append_assoc, h2, h3, le_words, fieldAt_le_head]
  rfl
/-- The root that is written: its sequence number is one more than JRC_ROOTSEQ holds, and its CRC-64 is right. -/
theorem commitRoot_fields {r : Root} (h : commitRoot s = some r) :
    r.seq = (rd s 0x60038 + 1) % 2 ^ 64 ∧ r.valid = (fieldAt r.bytes 0 4 == 0x524F4F54) := by
  obtain ⟨n, -, hr⟩ := Option.map_eq_some_iff.mp h
  have hlen : ∀ w : Nat → Nat, 248 ≤ ((List.range 64).flatMap fun i => le 4 (w i)).length := fun w => by
    simp [List.length_flatMap, le_length]
  subst hr
  constructor
  · rw [Root.seq, fieldAt_withCrc64 (hlen _) (by decide)]
    exact fieldAt_words rfl rfl
  · rw [Root.valid, withCrc64_idem (hlen _), beq_self_eq_true, Bool.and_true]

/-- A block that was waiting for the commit of its generation is FREE (R267). -/
def freed (old : Nat) (b : BlkInfo) : BlkInfo := if b.st = 1 && b.epoch ≤ old then { b with st := 0 } else b

/-- From a root commit's marks on: source 59, the judgement of FULL, the system superblocks, and the flash copy of step 8. -/
def rootAfter (u : State) (r : Root) : State :=
  ckptStep (turn (writeArea (freeSystem (dropHolder (fullJudge (updJrc (raise u 59) fun j => { j with full := false })) .sys) r) r))
/-- A root commit marks what step 7 says, raises source 59, then writes the flash copy of step 8. -/
theorem rootCommitDone_marks {r : Root} (hc : s.jrc.committing = true) (hr : commitRoot s = some r) :
    ∃ u, rootCommitDone s = rootAfter u r ∧
      OnlyChanges [.regs, .map, .jrc, .pat] s u ∧
      u.jrc.committing = false ∧ u.jrc.twoGen = false ∧ u.jrc.next = none ∧
      u.jrc.roots = nset (nset s.jrc.roots (2 * otherBank s.jrc) r) (2 * otherBank s.jrc + 1) r ∧
      rd u 0x60038 = r.seq % 2 ^ 64 ∧ u.map.relocs = s.map.relocs ∧ u.map.sysSb = s.map.sysSb ∧
      u.map.tab.blocks = s.map.tab.blocks.map (fun e => (e.1, freed (s.jrc.gen - 1) e.2)) ∧
      u.pat.deadQ = s.pat.deadQ ∧ u.pat.staging.length ≤ s.pat.staging.length := by
  unfold rootCommitDone
  rw [if_neg (by simp [hc]), hr]
  dsimp -zeta only
  extract_lets released old s1 free s2 s3 s4 s5 s6 s7
  have hfree : free = fun e => (e.1, freed (s.jrc.gen - 1) e.2) := by
    funext e
    simp only [free, freed, old]
    split <;> rfl
  have htab : OnlyChanges [.regs, .map, .jrc, .pat] s s3 :=
    updMap_frame (updTab_frame (updJrc_frame (.refl _ s) (by decide)) (by decide)) (by decide)
  have hseq : OnlyChanges [.regs, .map, .jrc, .pat] s s5 := wr_frame (updPat_frame htab (by decide)) (by decide)
  refine ⟨_, rfl, orReg_frame (wrField_frame hseq (by decide)) (by decide), rfl, rfl, rfl, rfl, ?_, rfl, rfl, ?_, rfl, ?_⟩
  · rw [rd_orReg_other _ (by decide)]
    exact (rd_wr_other _ _ (by decide)).trans (rd_wr_same _ _ _)
  · exact congrArg (fun f => List.map f s.map.tab.blocks) hfree
  · exact List.length_filter_le ..

theorem freeSystem_none {r : Root} (h : s.map.sysSb = []) : freeSystem s r = s := by
  simp [freeSystem, sealedSys, h]
theorem reclaimPace_none (h : s.map.relocs = []) : reclaimPace s = s := by
  simp [reclaimPace, victimJobs, h]

/-- Where no superblock of the system streams is listed, a root commit frees none, and what follows its marks is the work of a cut. -/
theorem rootCommitDone_kept {u : State} {r : Root} (h : u.map.sysSb = []) : CutKept (raise u 59) (rootAfter u r) := by
  have hfull : CutKept (raise u 59) (fullJudge (updJrc (raise u 59) fun j => { j with full := false })) :=
    ((CutKept.refl _).updJrc _).fullJudge
  have hmap : (fullJudge (updJrc (raise u 59) fun j => { j with full := false })).map = u.map := by
    rw [(fullJudge_frame (F := signals ++ [.jrc]) (.refl _ _) (by decide) (by decide) (by decide) (by decide) (by decide)
      (by decide)).same .map (by decide), updJrc_map, raise_map]
  rw [rootAfter, freeSystem_none (by rw [dropHolder]; exact (congrArg MapEng.sysSb hmap).trans h)]
  exact ((hfull.dropHolder .sys).writeArea r).turn.ckptStep

/-- With no relocation, no run that waits and room in the staging list, what follows a root commit leaves the map's tables, the journal and
the registers as the commit left them. -/
theorem rootCommitted_eq (hc : s.jrc.committing = true) (hn : s.jrc.next.isSome = true) (hp : (rootCommitDone s).prog.stage ≠ 5)
    (hr : (rootCommitDone s).map.relocs = []) (hq : (rootCommitDone s).pat.deadQ = [])
    (hl : (rootCommitDone s).pat.staging.length < 512) :
    (rootCommitted s).jrc = (rootCommitDone s).jrc ∧ (rootCommitted s).map.tab = (rootCommitDone s).map.tab ∧
      (rootCommitted s).regs = (rootCommitDone s).regs := by
  have hdone : rootDone s = rootCommitDone s := by simp [rootDone, hp]
  unfold rootCommitted
  extract_lets was s1 s2
  have hwas : (!was) = false := by simp [was, hc, hn]
  have hs2 : s2.jrc = (rootCommitDone s).jrc ∧ s2.map = (rootCommitDone s).map ∧ s2.regs = (rootCommitDone s).regs ∧
      s2.pat.deadQ = (rootCommitDone s).pat.deadQ ∧ s2.pat.staging = (rootCommitDone s).pat.staging := by
    rw [← hdone]
    exact ⟨rfl, rfl, rfl, rfl, rfl⟩
  obtain ⟨hj, hm, hg, hd, hs⟩ := hs2
  rw [hwas, if_neg Bool.false_ne_true, reclaimPace_none (by rw [updMap_map, hm]; exact hr),
    stageRuns_quiet (by rw [updMap_pat, hd, hq]) (by rw [updMap_pat, hs]; exact hl)]
  exact ⟨hj, by rw [noteRoot, updSec_map, updMap_map, hm], hg⟩

end Sys2Proof.Machine

namespace Sys2Proof.Proofs
open Sys2Proof.Machine

theorem epochPeriodExpiry : Claims.epochPeriodExpiry := by
  intro s ha hd hc
  refine completes_eq rfl (epochPeriod_due ha hd) ⟨epochTrig_lastCut _ _, fun hm => ?_, fun hm => epochTrig_waits hm⟩
  rw [epochTrig_now (by exact hm)]
  exact trigger_given (by decide) hc

theorem minspExpiry : Claims.minspExpiry := by
  intro s b hm ht hb hc hq hl
  have hgiven := minspExpiry_one hm ht
  refine completes_eq (u := stageRuns (Machine.minspExpiry s)) rfl ((congrArg stageRuns hgiven).trans (stageRuns_quiet ?_ ?_)) ⟨?_, ?_⟩
  · rw [raise_pat, orReg_pat]
    exact hq
  · rw [raise_pat, orReg_pat]
    exact hl
  · rw [raise_jrc, orReg_jrc]
    rfl
  · exact trigger_given (by omega) hc

theorem jrcCutover : Claims.jrcCutover := by
  intro s i v h hh hcom htwo hm hs hp
  have hcut : writeAccess s i 0x6002C 4 (setBits v.toNat 1 0 1) {} = cutover s := by
    rw [writeAccess_jrcCut h _ 1 (.inl rfl), if_neg (by simp [hh, hcom, htwo, hm]), if_pos rfl]
  obtain ⟨hvalid, hgen, -⟩ := trig54_begins s 0x60030
  refine completes_eq rfl (hcut.trans (cutover_still hs hp)) ⟨?_, ?_, ?_, ?_⟩
  · exact cutHeld_jrc s
  · rw [cutHeld, rdField, rd_updJrc, ← rdField]
    exact rdField_wrField _ _ _ _ _ (by decide)
  · rw [cutHeld, rdField, rd_updJrc, ← rdField, rdField_wrField_other _ _ _ _ _ _ _ (by decide) (by decide), hvalid]
  · rw [cutHeld, rdField, rd_updJrc, ← rdField, rdField_wrField_other _ _ _ _ _ _ _ (by decide) (by decide), hgen]

theorem jrcCutoverBusy : Claims.jrcCutoverBusy := by
  intro s i v h hb
  have hcut : writeAccess s i 0x6002C 4 (setBits v.toNat 1 0 1) {} = accessFault s .jrc 0 2 7 (initCode i) 0x2C := by
    rw [writeAccess_jrcCut h _ 1 (.inl rfl)]
    exact if_pos (by rcases hb with hb | hb <;> simp [hb])
  exact completes_eq rfl hcut ⟨accessFault_jrc .., (accessFault_sets _ _ _ _ _ _ (by decide)).1⟩

theorem cutoverDone : Claims.cutoverDone := by
  intro s hh hb ha hc hr
  obtain ⟨u, ids, hdone, hchip, hgen, hhold, htwo, hlim, hvalid, r, hnext, hroot⟩ := cutoverDone_marks hh hb ha hr
  have hk : CutKept (raise u 58) (fullJudge (ckptStart (raise u 58) ids)) := ((CutKept.refl _).ckptStart ids).fullJudge
  refine completes_eq rfl hdone ⟨?_, ?_, ?_, ⟨r, ?_, hroot⟩, ?_, ?_, ?_⟩
  · rw [hk.gen, raise_jrc, hgen]
  · rw [hk.hold, raise_jrc, hhold]
  · rw [hk.twoGen, raise_jrc, htwo]
  · rw [hk.next, raise_jrc, hnext]
  · rw [hk.wsnLim, raise_map, hlim]
  · exact hk.pending 58 (by decide) (raised_raise (by decide) (by decide) (by rw [hchip, hc]))
  · rw [rdField, hk.regs _ (by decide) (by decide), ← rdField, rdField_raise _ _ _ _ rfl, hvalid]

theorem jrcCommit : Claims.jrcCommit := by
  intro s i v h hh hcom htwo
  have hcut : writeAccess s i 0x6002C 4 (setBits v.toNat 1 0 2) {} = Machine.jrcCommit s := by
    rw [writeAccess_jrcCut h _ 2 (.inr rfl), if_neg (by simp [hh, hcom, htwo]), if_neg (by decide)]
  have hjrc : (Machine.jrcCommit s).jrc = { s.jrc with committing := true } := by
    rw [Machine.jrcCommit, updJrc_jrc, wrField_jrc, trig54_jrc]
  have hhead : rdField (Machine.jrcCommit s) 0x60030 29 28 = 2 := by
    rw [Machine.jrcCommit, rdField, rd_updJrc, ← rdField]
    exact rdField_wrField _ _ _ _ _ (by decide)
  exact completes_eq rfl hcut ⟨hjrc, hhead, jrcCommit_frame (.refl _ s) (by decide) (by decide)⟩

theorem rootCommitDone : Claims.rootCommitDone := by
  intro s n r hc hn hr hcalm hops hsb hst hheld hq hl
  obtain ⟨u, hdone, hu, hcom, htwo, hnext, hroots, hseq, hrel, hsys, hblk, hdq, hstg⟩ := rootCommitDone_marks hc hr
  have hk := rootCommitDone_kept (r := r) (hsys.trans hsb)
  rw [← hdone] at hk
  have hpat : (Machine.rootCommitDone s).pat = u.pat := by rw [hk.pat, raise_pat]
  have hprog : (Machine.rootCommitDone s).prog = s.prog := by rw [hk.prog, raise_prog, hu.same .prog (by decide)]
  obtain ⟨htj, htm, htr⟩ := rootCommitted_eq hc (by rw [hn]; rfl) (by rw [hprog]; exact hst)
    (by rw [hk.relocs, raise_map, hrel, hcalm.relocs]) (by rw [hpat, hdq, hq]) (by rw [hpat]; omega)
  obtain ⟨hrseq, hvalid⟩ := commitRoot_fields hr
  have hrts : (rootCommitted s).jrc.roots = nset (nset s.jrc.roots (2 * otherBank s.jrc) r) (2 * otherBank s.jrc + 1) r := by
    rw [htj, hk.roots, raise_jrc, hroots]
  refine ⟨_, rfl, ?_, ?_, ?_, ?_, ?_, ?_, ?_, hvalid, ?_⟩
  · rw [htj, hk.committing, raise_jrc, hcom]
  · rw [htj, hk.twoGen, raise_jrc, htwo]
  · rw [htj, hk.next, raise_jrc, hnext]
  · rw [rd_of_regs htr, hk.regs _ (by decide) (by decide), rd_raise _ _ rfl, hseq, hrseq, Nat.mod_mod]
  · rw [raised, rd_of_regs htr]
    exact hk.pending 59 (by decide) (raised_raise (by decide) (by decide) (by rw [hu.same .chip (by decide), hheld]))
  · rw [hrts, nget_nset_other _ _ (by omega), nget_nset_same]
  · rw [hrts, nget_nset_same]
  · intro k b hb h1
    have hub : nget (raise u 59).map.tab.blocks k = some (freed (s.jrc.gen - 1) b) := by
      rw [raise_map, hblk, nget_mapVals, hb, Option.map_some]
    have ht := hk.blocks k _ hub
    rw [← htm] at ht
    constructor
    · intro hold
      have hf : freed (s.jrc.gen - 1) b = { b with st := 0 } := by simp [freed, h1, hold]
      rw [hf] at ht
      rcases ht with ht | ⟨-, d, hd, h2⟩
      · exact ⟨_, ht, .inl rfl⟩
      · exact ⟨d, hd, .inr h2⟩
    · intro hnew
      have hf : freed (s.jrc.gen - 1) b = b := by simp [freed, Nat.not_le.mpr hnew]
      rw [hf] at ht
      rcases ht with ht | ⟨h0, -⟩
      · exact ht
      · omega

/-- Settles O41, clause by clause: the work of a cut on the streams and the checkpoint leaves the journal's marks as they are and takes FREE
blocks alone. -/
theorem journalAndRoots : Obligations.JournalAndRoots :=
  ⟨epochPeriodExpiry, minspExpiry, jrcCutover, jrcCutoverBusy, cutoverDone, jrcCommit, rootCommitDone⟩

end Sys2Proof.Proofs
end

section
/-! PROOFS. What a reset of the islands outside the always-on one keeps (R446), and that a seal dump is valid and the newest (R271).
For O56. -/

set_option Elab.async false

namespace Sys2Proof.Machine

variable {s t : State}

/-! ## What a reset keeps (R446, Table 18-8) -/

theorem rootCut_only (s : State) : OnlyChanges [.clk, .jrc] s (rootCut s) := rootCut_frame (.refl _ s) (by decide) (by decide)
/-- A reset while a root is written changes the roots alone of what JRAM holds. -/
theorem rootCut_jrc (s : State) : (rootCut s).jrc.ring = s.jrc.ring ∧ (rootCut s).jrc.dump0 = s.jrc.dump0 ∧
    (rootCut s).jrc.dump1 = s.jrc.dump1 ∧ (rootCut s).jrc.hurt = s.jrc.hurt := by
  unfold rootCut
  split
  · exact ⟨rfl, rfl, rfl, rfl⟩
  split <;> exact ⟨rfl, rfl, rfl, rfl⟩
theorem norCut_only (s : State) : OnlyChanges [.boot] s (norCut s) := norCut_frame (.refl _ s) (by decide)
/-- What a reset leaves of the NOR depends on the NOR's side alone. -/
theorem norCut_boot (h : t.boot = s.boot) : (norCut t).boot = (norCut s).boot := by
  have hput : ∀ a l, (norPut t a l).boot = (norPut s a l).boot := fun a l => by rw [norPut, norPut, updBoot_boot, updBoot_boot, h]
  unfold norCut
  rw [h]
  split
  · split
    · exact h
    · exact hput _ _
  · exact h
theorem norCut_none (h : s.boot.op = none) : norCut s = s := by rw [norCut, h]
/-- What a reset cuts short is on the NOR and in JRAM. -/
theorem cut_only (s : State) : OnlyChanges [.clk, .jrc, .boot] s (rootCut (norCut s)) :=
  rootCut_frame (norCut_frame (.refl _ s) (by decide)) (by decide) (by decide)

/-- The chip's state at a reset of the islands. -/
def resetChip (c : Chip) : Chip := { c with
  held := true, closures := [], coreStop := [], chnReset := [], mapReady := false, wakeWait := false
  stopFetch := false, starting := false, disabling := c.disabling.filter fun x => x.1 == .rng }

section
variable (s : State) (w : Bool)

theorem coreReset_chip : (coreReset s w).chip = resetChip s.chip := by
  have h : (rootCut (norCut s)).chip = s.chip := (cut_only s).same .chip (by decide)
  rw [← h]
  rfl
theorem coreReset_pwr : (coreReset s w).pwr = s.pwr := (cut_only s).same .pwr (by decide)
/-- JRAM through a reset: all but the root that was being written. -/
theorem coreReset_jrc : (coreReset s w).jrc.ring = s.jrc.ring ∧ (coreReset s w).jrc.dump0 = s.jrc.dump0 ∧
    (coreReset s w).jrc.dump1 = s.jrc.dump1 ∧ (coreReset s w).jrc.hurt = s.jrc.hurt := by
  have h := rootCut_jrc (norCut s)
  rw [show (norCut s).jrc = s.jrc from (norCut_only s).same .jrc (by decide)] at h
  exact h
theorem coreReset_nor : (coreReset s w).boot.nor = (norCut s).boot.nor := by
  have h : (rootCut (norCut s)).boot = (norCut s).boot := (rootCut_only _).same .boot (by decide)
  exact show (rootCut (norCut s)).boot.nor = _ from congrArg _ h
theorem coreReset_sec : (coreReset s w).sec.slots = s.sec.slots ∧ (coreReset s w).sec.minsvn = s.sec.minsvn := by
  have h : (rootCut (norCut s)).sec = s.sec := (cut_only s).same .sec (by decide)
  exact show (rootCut (norCut s)).sec.slots = _ ∧ (rootCut (norCut s)).sec.minsvn = _ from ⟨congrArg _ h, congrArg _ h⟩
theorem coreReset_circ : (coreReset s w).evr.circ = s.evr.circ := by
  have h : (rootCut (norCut s)).evr = s.evr := (cut_only s).same .evr (by decide)
  exact show (rootCut (norCut s)).evr.circ = _ from congrArg _ h
theorem coreReset_media : (coreReset s w).flash.media = s.flash.media := by
  have h : (rootCut (norCut s)).flash = s.flash := (cut_only s).same .flash (by decide)
  exact show (rootCut (norCut s)).flash.media = _ from congrArg _ h
theorem coreReset_cleared : (coreReset s w).dram = [] ∧ (coreReset s w).srt = {} := ⟨rfl, rfl⟩

end

/-! ## The header of a seal dump (R271) -/

theorem crcByte_lt {poly c : Nat} (b : Byte) (hp : poly < 2 ^ 32) (hc : c < 2 ^ 32) : crcByte poly c b < 2 ^ 32 := by
  have hbit : ∀ x, x < 2 ^ 32 → crcBit poly x < 2 ^ 32 := fun x hx => by
    unfold crcBit
    split
    · exact Nat.xor_lt_two_pow (by omega) hp
    · omega
  have hx : c ^^^ b.toNat < 2 ^ 32 := Nat.xor_lt_two_pow hc (by have := b.isLt; omega)
  unfold crcByte
  iterate 8 refine hbit _ ?_
  exact hx
theorem crc32c_lt (l : List Byte) : crc32c l < 2 ^ 32 := by
  have hfold : ∀ (l : List Byte) (c : Nat), c < 2 ^ 32 → l.foldl (crcByte 0x82F63B78) c < 2 ^ 32 := by
    intro l
    induction l with
    | nil => exact fun _ hc => hc
    | cons b r ih => exact fun c hc => ih _ (crcByte_lt b (by decide) hc)
  exact Nat.xor_lt_two_pow (hfold l _ (by decide)) (by decide)

/-- The header's bytes after its CRC. -/
def dumpTail (dseq dgseq openMap reason bodyCrc : Nat) : List Byte :=
  le 8 dseq ++ (le 8 dgseq ++ (le 4 openMap ++ (le 1 reason ++ (le 3 0 ++ (le 4 bodyCrc ++ List.replicate 28 0)))))

theorem dumpHead_eq (dseq dgseq openMap reason bodyCrc : Nat) : dumpHead dseq dgseq openMap reason bodyCrc =
    le 4 0x44554D50 ++ (le 4 (crc32c (le 4 0x44554D50 ++ (le 4 0 ++ dumpTail dseq dgseq openMap reason bodyCrc))) ++
      dumpTail dseq dgseq openMap reason bodyCrc) := by
  simp only [dumpHead, dumpTail, padTo, List.length_append, le_length, List.append_assoc]
/-- CRC-32C over a header with its own field as 0. -/
theorem crcOver_head (m c : Nat) (tl : List Byte) : crcOver (le 4 m ++ (le 4 c ++ tl)) 4 4 = crc32c (le 4 m ++ (le 4 0 ++ tl)) := by
  have htake : (le 4 m ++ (le 4 c ++ tl)).take 4 = le 4 m := List.take_left' (le_length 4 m)
  have hdrop : (le 4 m ++ (le 4 c ++ tl)).drop 8 = tl := by
    rw [← List.append_assoc]
    exact List.drop_left' (by rw [List.length_append, le_length, le_length])
  rw [crcOver, htake, hdrop, List.append_assoc]
  rfl

/-- A header is valid, and its fields are the values it was made of. -/
theorem dumpHead_fields (dseq dgseq openMap reason bodyCrc : Nat) :
    let h := dumpHead dseq dgseq openMap reason bodyCrc
    fieldAt h 0 4 = 0x44554D50 ∧ crcOver h 4 4 = fieldAt h 4 4 ∧ fieldAt h 8 8 = dseq % 2 ^ 64 ∧ fieldAt h 16 8 = dgseq % 2 ^ 64 ∧
      fieldAt h 28 1 = reason % 2 ^ 8 ∧ fieldAt h 32 4 = bodyCrc % 2 ^ 32 := by
  dsimp only
  rw [dumpHead_eq]
  refine ⟨?_, ?_, ?_, ?_, ?_, ?_⟩
  · rw [fieldAt_le_head]
    rfl
  · rw [crcOver_head, fieldAt_le_skip _ _ _ (by decide), fieldAt_le_head]
    exact (Nat.mod_eq_of_lt (crc32c_lt _)).symm
  · iterate 2 rw [fieldAt_le_skip _ _ _ (by decide)]
    exact fieldAt_le_head _ _ _
  · iterate 2 rw [fieldAt_le_skip _ _ _ (by decide)]
    rw [dumpTail, fieldAt_le_skip _ _ _ (by decide)]
    exact fieldAt_le_head _ _ _
  · iterate 2 rw [fieldAt_le_skip _ _ _ (by decide)]
    rw [dumpTail]
    iterate 3 rw [fieldAt_le_skip _ _ _ (by decide)]
    exact fieldAt_le_head _ _ _
  · iterate 2 rw [fieldAt_le_skip _ _ _ (by decide)]
    rw [dumpTail]
    iterate 5 rw [fieldAt_le_skip _ _ _ (by decide)]
    exact fieldAt_le_head _ _ _

/-! ## The newest dump -/

variable {j : Jrc} {d : Dump}

/-- The slot that a dump is written to, which does not hold the newest. -/
def freeSlot (j : Jrc) : Bool := match newestDump j with | some (x, _) => !x | none => false
/-- JRAM with a dump in a slot. -/
def putDump (j : Jrc) (k : Bool) (d : Dump) : Jrc := { j with
  hurt := j.hurt.filter fun a => !dumpHolds k d a
  dump0 := if k then j.dump0 else some d, dump1 := if k then some d else j.dump1 }

/-- The two slots share no unit of JRAM. -/
theorem dumpHolds_apart {k : Bool} {e : Dump} {a : Nat} (h : dumpHolds (!k) e a = true) : dumpHolds k d a = false := by
  rw [← Bool.not_eq_true]
  intro hd
  simp only [dumpHolds, Bool.and_eq_true, decide_eq_true_eq] at h hd
  cases k <;> simp [dumpOff] at h hd <;> omega
/-- A dump written to one slot leaves a dump of the other as valid as it was. -/
theorem dumpValid_put_other (k : Bool) (e : Dump) : dumpValid (putDump j k d) (!k) e = dumpValid j (!k) e := by
  have hany : (j.hurt.filter fun a => !dumpHolds k d a).any (dumpHolds (!k) e) = j.hurt.any (dumpHolds (!k) e) := by
    rw [List.any_filter]
    refine congrArg (List.any j.hurt) (funext fun a => ?_)
    cases ha : dumpHolds (!k) e a with
    | false => rw [Bool.and_false]
    | true => rw [dumpHolds_apart ha]; rfl
  rw [dumpValid, dumpValid, putDump, hany]
/-- A dump whose header is right is valid where it was written: no unit that holds it is uncorrectable any more. -/
theorem dumpValid_put_same (k : Bool) (hm : fieldAt d.head 0 4 = 0x44554D50) (hc : crcOver d.head 4 4 = fieldAt d.head 4 4)
    (hb : fieldAt d.head 32 4 = crc32c (dumpBody d.sbs)) : dumpValid (putDump j k d) k d = true := by
  have hany : (j.hurt.filter fun a => !dumpHolds k d a).any (dumpHolds k d) = false := by
    rw [List.any_filter, List.any_eq_false]
    intro a _
    cases dumpHolds k d a <;> simp
  rw [dumpValid, putDump, hany, hm, hc, hb]
  simp

/-- The newest dump is the valid one of its slot. -/
theorem newestDump_slot0 {e : Dump} (h : newestDump j = some (false, e)) : j.dump0.filter (dumpValid j false) = some e := by
  unfold newestDump at h
  split at h
  · rename_i a b ha hb
    split at h <;> simp_all
  all_goals simp_all
theorem newestDump_slot1 {e : Dump} (h : newestDump j = some (true, e)) : j.dump1.filter (dumpValid j true) = some e := by
  unfold newestDump at h
  split at h
  · split at h <;> simp_all
  all_goals simp_all
theorem newestDump_none (h : newestDump j = none) : j.dump1.filter (dumpValid j true) = none := by
  unfold newestDump at h
  split at h
  · split at h <;> simp_all
  all_goals simp_all

/-- A valid dump in slot 0 is the newest where slot 1 holds no valid one that is newer. -/
theorem newestDump_put0 (hv : dumpValid (putDump j false d) false d = true)
    (hn : ∀ e, j.dump1.filter (dumpValid j true) = some e → e.dseq < d.dseq) :
    newestDump (putDump j false d) = some (false, d) := by
  have h0 : (putDump j false d).dump0.filter (dumpValid (putDump j false d) false) = some d :=
    Option.filter_some_pos hv
  have h1 : (putDump j false d).dump1.filter (dumpValid (putDump j false d) true) = j.dump1.filter (dumpValid j true) :=
    congrArg (Option.filter · j.dump1) (funext fun e => dumpValid_put_other false e)
  rw [newestDump, h0, h1]
  cases h : j.dump1.filter (dumpValid j true) with
  | none => rfl
  | some e => exact if_neg (Nat.lt_asymm (hn e h))
/-- A valid dump in slot 1 is the newest where slot 0 holds a valid one that is older. -/
theorem newestDump_put1 {e : Dump} (hv : dumpValid (putDump j true d) true d = true)
    (he : j.dump0.filter (dumpValid j false) = some e) (hn : e.dseq < d.dseq) : newestDump (putDump j true d) = some (true, d) := by
  have h0 : (putDump j true d).dump0.filter (dumpValid (putDump j true d) false) = some e :=
    (congrArg (Option.filter · j.dump0) (funext fun e => dumpValid_put_other true e)).trans he
  have h1 : (putDump j true d).dump1.filter (dumpValid (putDump j true d) true) = some d :=
    Option.filter_some_pos hv
  rw [newestDump, h0, h1]
  exact if_pos hn

/-- A valid dump in the free slot that is newer than the newest is the newest. -/
theorem newestDump_put (hv : dumpValid (putDump j (freeSlot j) d) (freeSlot j) d = true)
    (hn : ∀ x, newestDump j = some x → x.2.dseq < d.dseq) : newestDump (putDump j (freeSlot j) d) = some (freeSlot j, d) := by
  rcases hold : newestDump j with _ | ⟨k, e⟩
  · have hk : freeSlot j = false := by rw [freeSlot, hold]
    rw [hk] at hv ⊢
    exact newestDump_put0 hv fun e he => by rw [newestDump_none hold] at he; cases he
  cases k with
  | false =>
    have hk : freeSlot j = true := by rw [freeSlot, hold]; rfl
    rw [hk] at hv ⊢
    exact newestDump_put1 hv (newestDump_slot0 hold) (hn _ hold)
  | true =>
    have hk : freeSlot j = false := by rw [freeSlot, hold]; rfl
    rw [hk] at hv ⊢
    refine newestDump_put0 hv fun f hf => ?_
    rw [newestDump_slot1 hold] at hf
    cases hf
    exact hn _ hold

/-- Which dump is the newest rests on the two slots and the uncorrectable units. -/
theorem newestDump_congr {k : Jrc} (h0 : k.dump0 = j.dump0) (h1 : k.dump1 = j.dump1) (hh : k.hurt = j.hurt) :
    newestDump k = newestDump j := by
  have hv : ∀ x, dumpValid k x = dumpValid j x := fun x => funext fun d => by rw [dumpValid, dumpValid, hh]
  rw [newestDump, newestDump, hv, hv, h0, h1]

/-! ## The seal dump -/

/-- The dump that is written: one more than the newest, with the last group handed over and the superblocks that are open. -/
def sealedDump (s : State) (reason : Nat) : Dump :=
  { head := dumpHead (((newestDump s.jrc).map fun x => x.2.dseq).getD 0 + 1) s.jrc.gseq (rowMap ((dumpSbs s).map fun e => e.1)) reason
      (crc32c (dumpBody (dumpSbs s))), sbs := dumpSbs s }

theorem sealDump_jrc (s : State) (reason : Nat) : (sealDump s reason).jrc = putDump s.jrc (freeSlot s.jrc) (sealedDump s reason) := by
  unfold sealDump
  extract_lets old slot1 sbs d s1 s2 g s3
  rw [raise_jrc, orReg_jrc]
  rfl
theorem sealedDump_fields (s : State) (reason : Nat) : (sealedDump s reason).reason = reason % 2 ^ 8 ∧
    (sealedDump s reason).dgseq = s.jrc.gseq % 2 ^ 64 ∧
    (sealedDump s reason).dseq = (((newestDump s.jrc).map fun x => x.2.dseq).getD 0 + 1) % 2 ^ 64 := by
  obtain ⟨-, -, hseq, hgseq, hreason, -⟩ := dumpHead_fields (((newestDump s.jrc).map fun x => x.2.dseq).getD 0 + 1) s.jrc.gseq
    (rowMap ((dumpSbs s).map fun e => e.1)) reason (crc32c (dumpBody (dumpSbs s)))
  exact ⟨hreason, hgseq, hseq⟩
/-- Where its sequence number does not wrap, the dump that is written is the newest. -/
theorem sealDump_newest (s : State) (reason : Nat) (hn : ∀ x, newestDump s.jrc = some x → x.2.dseq + 1 < 2 ^ 64) :
    newestDump (sealDump s reason).jrc = some (freeSlot s.jrc, sealedDump s reason) := by
  obtain ⟨hm, hc, -, -, -, hb⟩ := dumpHead_fields (((newestDump s.jrc).map fun x => x.2.dseq).getD 0 + 1) s.jrc.gseq
    (rowMap ((dumpSbs s).map fun e => e.1)) reason (crc32c (dumpBody (dumpSbs s)))
  rw [Nat.mod_eq_of_lt (crc32c_lt _)] at hb
  rw [sealDump_jrc]
  refine newestDump_put (dumpValid_put_same _ hm hc hb) fun x hx => ?_
  have hx64 := hn x hx
  rw [(sealedDump_fields s reason).2.2, hx, Option.map_some, Option.getD_some, Nat.mod_eq_of_lt hx64]
  exact Nat.lt_succ_self _

/-! ## The power-fail sequence (R269, R270) -/

/-- The state in which the sequence resets the islands: the dump is written where it is due. -/
def dumpedFirst (s : State) (reason : Nat) : State :=
  updPwr (if active s .jrc && active s .str && s.pwr.ps < 3 then sealDump s reason else s) fun p => { p with failRan := true }
theorem failSequence_eq (s : State) (reason : Nat) :
    failSequence s reason = updChip (coreReset (dumpedFirst s reason) false) fun c => { c with parked := true } := rfl

theorem dumpedFirst_only (s : State) (reason : Nat) : OnlyChanges (signals ++ [.pwr, .jrc]) s (dumpedFirst s reason) := by
  unfold dumpedFirst
  refine updPwr_frame (frame_ite ?_ (.refl _ s)) (by decide)
  exact sealDump_frame (.refl _ s) (by decide) (by decide) (by decide) (by decide) (by decide) (by decide) (by decide)
theorem dumpedFirst_ring (s : State) (reason : Nat) : (dumpedFirst s reason).jrc.ring = s.jrc.ring := by
  rw [dumpedFirst, updPwr_jrc]
  split
  · rw [sealDump_jrc]
    rfl
  · rfl
theorem dumpedFirst_dump {reason : Nat} (hj : active s .jrc = true) (hs : active s .str = true) (hp : s.pwr.ps < 3) :
    (dumpedFirst s reason).jrc = (sealDump s reason).jrc := by
  rw [dumpedFirst, updPwr_jrc, if_pos (by simp [hj, hs, hp])]

/-- A pulse that is long enough, where the sequence has not run. -/
theorem pwrFail_runs {n : Nat} (hn : 500 ≤ n) (hp : s.chip.powered = true) (ht : s.thm.shutdown = false) (hk : s.chip.parked = false) :
    pwrFail s n = updChip (updChip (coreReset (dumpedFirst (updChip s fun c => { c with failLow := true }) 1) false)
      fun c => { c with parked := true }) fun c => { c with kind := if c.kind = 1 then 1 else 3 } := by
  rw [← failSequence_eq]
  simp [pwrFail, Nat.not_lt.mpr hn, hp, ht, hk]

/-! ## The always-on island at a chip-level reset (Table 18-8) -/

theorem aonReset_chip (s : State) (k : Nat) : (aonReset s k).chip = { s.chip with kind := k, parked := false } := by
  unfold aonReset
  extract_lets s1 s2 s3
  have h1 : s1.chip = { s.chip with kind := k, parked := false } := rfl
  have h3 : s3.chip = s1.chip := by
    rw [updPwr_chip]
    exact (frame_ite (wr_frame (F := [.regs]) (.refl _ s1) (by decide)) (.refl _ s1)).same .chip (by decide)
  rw [← h1, ← h3]
  split
  · rfl
  split
  · rfl
  · exact updThm_chip ..
/-- PWR_STATE keeps its value through a cold reset that is no supply power-on (R11). -/
theorem aonReset_cold_pwr (s : State) : (aonReset s 3).pwr = { s.pwr with want := none, defer := false, stopped := false } := rfl
/-- A supply power-on: the timebase and the ring at their reset state, depot mode and the windows closed. -/
theorem aonReset_powerOn (s : State) : (aonReset s 1).clk.tb = 0 ∧ (aonReset s 1).ring = {} ∧
    (aonReset s 1).sec = { s.sec with depot := false, winA := .closed, winB := .closed } ∧ (aonReset s 1).dram = s.dram :=
  ⟨rfl, rfl, rfl, rfl⟩

end Sys2Proof.Machine
end

section
/-! PROOFS. What the commands of the power states and of the supplies do (R260, R269 to R271, R408, R444). Settles O56. -/

set_option Elab.async false

namespace Sys2Proof.Machine

variable {s : State}

/-! ## The islands' loops (R408, Table 16-7) -/

theorem psDeferred_now (hw : s.pwr.want.isNone = false) (hd : s.pwr.defer = false) (hr : dumpRecent s = true) (hi : deviceIdle s = true) :
    psDeferred s = raise (orReg (updPwr s fun p => { p with defer := true }) Reg.pwrCause (2 ^ 2)) 117 := by
  simp [psDeferred, hw, hd, hr, hi]

/-- The state with an island's loop stored, and MINSLACK where the island is the selected one. -/
def avfsStored (s : State) (k : Nat) (b : Avfs) (least : Int) : State := updPwr s fun p => { p with
  avfs := nset p.avfs k b, minSlack := if rd s Reg.pwrAvsel = k then min p.minSlack least else p.minSlack }
/-- What Table 16-7 makes of an island for its least slack. -/
def avfsNext (s : State) (k : Nat) (least : Int) : Avfs :=
  avfsStep (ngetD s.pwr.avfs k {}) least (rdField s Reg.pwrAvcfg 7 0) (rdField s Reg.pwrAvcfg 15 8)

theorem avfsEval_eq {k : Nat} (x0 : Int) (r : List Int) (hk : k < 47) : avfsEval s k (x0 :: r) =
    let u := avfsStored s k (avfsNext s k (r.foldl min x0)) (r.foldl min x0)
    if (ngetD s.pwr.avfs k {}).fdiv = 0 && 0 < (avfsNext s k (r.foldl min x0)).fdiv then raise (orReg u Reg.pwrCause (2 ^ 3)) 116
    else u := by
  rw [avfsEval, if_neg (Nat.not_le.mpr hk)]
  rfl
/-- An evaluation stores the island's loop. -/
theorem avfsEval_stores {k : Nat} (x0 : Int) (r : List Int) (hk : k < 47) :
    nget (avfsEval s k (x0 :: r)).pwr.avfs k = some (avfsNext s k (r.foldl min x0)) := by
  have hput : ∀ b m, nget (avfsStored s k b m).pwr.avfs k = some b := fun b m => nget_nset_same _ _ _
  rw [avfsEval_eq x0 r hk]
  dsimp only
  split
  · rw [raise_pwr, orReg_pwr]
    exact hput _ _
  · exact hput _ _
/-- Where the island's clock begins to be divided, PWR_CAUSE bit 3 is set. -/
theorem avfsEval_divides {k : Nat} (x0 : Int) (r : List Int) (hk : k < 47) (h0 : (ngetD s.pwr.avfs k {}).fdiv = 0)
    (hd : 0 < (avfsNext s k (r.foldl min x0)).fdiv) : bitOf (rd (avfsEval s k (x0 :: r)) Reg.pwrCause) 3 = true := by
  rw [avfsEval_eq x0 r hk]
  dsimp only
  rw [if_pos (by rw [h0, decide_eq_true hd]; rfl)]
  exact bitOf_raise_orReg 116 rfl (by decide)

/-- Table 16-7, row by row. -/
theorem avfsStep_rows (a : Avfs) (m lo hi : Int) :
    let b := avfsStep a m lo hi
    b.vmin = a.vmin ∧ b.vmax = a.vmax ∧
      (m < 0 → b.fdiv = min 8 (a.fdiv + 1) ∧ b.volt = a.volt) ∧
      (0 ≤ m → m < lo → a.volt < a.vmax → b.volt = a.volt + 1 ∧ b.fdiv = a.fdiv) ∧
      (0 ≤ m → m < lo → a.vmax ≤ a.volt → b.volt = a.volt ∧ b.fdiv = min 8 (a.fdiv + 1)) ∧
      (0 ≤ m → lo ≤ m → m ≤ hi → b = a) ∧
      (0 ≤ m → lo ≤ m → hi < m → 0 < a.fdiv → b.fdiv = a.fdiv - 1 ∧ b.volt = a.volt) ∧
      (0 ≤ m → lo ≤ m → hi < m → a.fdiv = 0 → a.vmin < a.volt → b.volt = a.volt - 1 ∧ b.fdiv = 0) ∧
      (0 ≤ m → lo ≤ m → hi < m → a.fdiv = 0 → a.volt ≤ a.vmin → b = a) := by
  intro b
  refine ⟨?_, ?_, ?_, ?_, ?_, ?_, ?_, ?_, ?_⟩
  · simp only [b, avfsStep]
    split_ifs <;> rfl
  · simp only [b, avfsStep]
    split_ifs <;> rfl
  · intro hneg
    simp [b, avfsStep, hneg]
  · intro h0 hlow hroom
    simp [b, avfsStep, Int.not_lt.mpr h0, hlow, hroom]
  · intro h0 hlow hfull
    simp [b, avfsStep, Int.not_lt.mpr h0, hlow, Nat.not_lt.mpr hfull]
  · intro h0 hlo hhi
    simp [b, avfsStep, Int.not_lt.mpr h0, Int.not_lt.mpr hlo, Int.not_lt.mpr hhi]
  · intro h0 hlo hhi hdiv
    simp [b, avfsStep, Int.not_lt.mpr h0, Int.not_lt.mpr hlo, hhi, hdiv]
  · intro h0 hlo hhi hdiv hvolt
    simp [b, avfsStep, Int.not_lt.mpr h0, Int.not_lt.mpr hlo, hhi, hdiv, hvolt]
  · intro h0 hlo hhi hdiv hvolt
    simp [b, avfsStep, Int.not_lt.mpr h0, Int.not_lt.mpr hlo, hhi, hdiv, Nat.not_lt.mpr hvolt]

/-! ## PWR_AVSEL (R408) -/

/-- The register PWR_AVSEL, whose field takes the islands 0 to 46. -/
def avselReg : RegAt := { row := r32 0x38 [rw 5 0 0 (fun v => v ≤ 46)], i1 := 0, i2 := 0, start := 0x38 }

theorem storeReg_only (s : State) (b : Blk) (u o old n : Nat) : OnlyChanges [.regs] s (storeReg s b u o old n) :=
  frame_ite (.refl _ s) (wr_frame (.refl _ s) (by decide))
theorem writeAccess_avsel {i : Initiator} (h : coreAccess s i .pwr 0 = true) {v : Nat} (hv : v % 64 ≤ 46) :
    writeAccess s i 0xA0038 4 v {} = avsel (storeReg s .pwr 0 0x38 (rd s 0xA0038) (setBits (rd s 0xA0038) 5 0 (v % 64))) := by
  have hbits : bitsOf (v % 2 ^ 32) 5 0 = v % 64 := by
    rw [bitsOf_mod _ _ _ _ (by decide), bitsOf, Nat.pow_zero, Nat.div_one]
    rfl
  have hok : decide (v % 64 ≤ 46) = true := decide_eq_true hv
  have htake : avselReg.row.flds.all (accepts (v % 2 ^ 32)) = true := by
    simp only [avselReg, r32, List.all_cons, List.all_nil, accepts, rw, hbits, hok, Bool.not_false, Bool.and_true]
  have hset : (fldsWrite avselReg.row.flds (rd s 0xA0038) (v % 2 ^ 32)).1 = setBits (rd s 0xA0038) 5 0 (v % 64) := by
    simp only [avselReg, r32, fldsWrite, List.foldl_cons, List.foldl_nil, fldWrite, rw, hbits, hok, if_true]
  have hrow : ∀ n, avselReg.row.okRow n = true := fun _ => rfl
  rw [writeAccess_word (x := avselReg) h rfl (by decide) rfl rfl, regStore_accepted rfl rfl htake hrow]
  exact congrArg (fun n => avsel (storeReg s .pwr 0 0x38 (rd s 0xA0038) n)) hset

end Sys2Proof.Machine

namespace Sys2Proof.Proofs
open Sys2Proof.Machine

theorem psChangeDeferred : Claims.psChangeDeferred := by
  intro s k d hw hd hat hlt hi hc
  have hr : dumpRecent s = true := by
    rw [dumpRecent, hat]
    exact decide_eq_true hlt
  refine completes_eq rfl (psDeferred_now (by rw [hw]; rfl) hd hr hi) ⟨?_, ?_, ?_⟩
  · rw [raise_pwr, orReg_pwr, updPwr_pwr]
  · exact bitOf_raise_orReg 117 rfl (by decide)
  · exact raised_raise (by decide) (by decide) hc

theorem avfsEvaluation : Claims.avfsEvaluation := by
  intro s k x0 r m a hk hm ha
  have hb := avfsEval_stores (s := s) x0 r hk
  have hbit := avfsEval_divides (s := s) x0 r hk
  rw [← hm] at hb hbit
  rw [← ha] at hbit
  obtain ⟨hmin, hmax, hneg, hrest⟩ := avfsStep_rows a m (rdField s Reg.pwrAvcfg 7 0) (rdField s Reg.pwrAvcfg 15 8)
  rw [avfsNext, ← ha] at hb hbit
  refine ⟨_, rfl, _, hb, hmin, hmax, fun hm0 => ?_, hrest⟩
  obtain ⟨hdiv, hvolt⟩ := hneg hm0
  exact ⟨hdiv, hvolt, fun h0 => hbit h0 (by omega)⟩

theorem avselWrite : Claims.avselWrite := by
  intro s i v h hv
  refine completes_eq rfl (writeAccess_avsel h hv) ⟨?_, ?_, ?_⟩
  · have hpwr : (storeReg s .pwr 0 0x38 (rd s 0xA0038) (setBits (rd s 0xA0038) 5 0 (v.toNat % 64))).pwr = s.pwr :=
      (storeReg_only ..).same .pwr (by decide)
    rw [avsel, updPwr_pwr, hpwr]
  · have hset : bitsOf (setBits (rd s 0xA0038) 5 0 (v.toNat % 64)) 5 0 = v.toNat % 64 :=
      (bitsOf_setBits ..).trans (Nat.mod_mod _ 64)
    rw [avsel, rdField, rd_updPwr, storeReg]
    split
    · rename_i hsame
      rw [Bool.or_eq_true, decide_eq_true_eq] at hsame
      rcases hsame with hsame | hsame
      · cases hsame
      · exact (congrArg (bitsOf · 5 0) hsame.symm).trans hset
    · exact (congrArg (bitsOf · 5 0) (rd_wr_same _ _ _)).trans ((bitsOf_mod64 _ _ _ (by decide)).trans hset)
  · exact updPwr_frame ((storeReg_only ..).mono (by decide)) (by decide)

theorem pwrFailAssert : Claims.pwrFailAssert := by
  intro s n
  constructor
  · intro hn
    refine completes_eq (u := pwrFail s n) rfl ?_ rfl
    simp [pwrFail, hn]
  intro hn hp ht hk h1
  have hkept := dumpedFirst_only (updChip s fun c => { c with failLow := true }) 1
  have hran : (dumpedFirst (updChip s fun c => { c with failLow := true }) 1).pwr.failRan = true := rfl
  have hring := dumpedFirst_ring (updChip s fun c => { c with failLow := true }) 1
  refine completes_eq rfl (pwrFail_runs hn hp ht hk) ?_
  generalize dumpedFirst (updChip s fun c => { c with failLow := true }) 1 = u at hkept hran hring ⊢
  obtain ⟨hjring, -⟩ := coreReset_jrc u false
  have hchip : (coreReset u false).chip = resetChip { s.chip with failLow := true } := by
    rw [coreReset_chip]
    exact congrArg resetChip (hkept.same .chip (by decide))
  have hkind : (if s.chip.kind = 1 then 1 else 3) = 3 := if_neg h1
  rw [updChip_chip, updChip_chip, hchip]
  refine ⟨rfl, rfl, rfl, hkind, ?_, rfl, hjring.trans hring, ?_⟩
  · rw [updChip_pwr, updChip_pwr, coreReset_pwr, hran]
  · rw [updChip_boot, updChip_boot, coreReset_nor, norCut_boot (s := s) (hkept.same .boot (by decide))]

theorem pwrFailDump : Claims.pwrFailDump := by
  intro s n hn hp ht hk hj hs hps hg hd
  obtain ⟨hreason, hgseq, hseq⟩ := sealedDump_fields s 1
  have hnew := sealDump_newest (updChip s fun c => { c with failLow := true }) 1 hd
  have hdump : (dumpedFirst (updChip s fun c => { c with failLow := true }) 1).jrc = _ := dumpedFirst_dump hj hs hps
  have hseq64 : ((newestDump s.jrc).map fun x => x.2.dseq).getD 0 + 1 < 2 ^ 64 := by
    cases hold : newestDump s.jrc with
    | none => decide
    | some x => exact hd x hold
  rw [← hdump] at hnew
  refine completes_eq rfl (pwrFail_runs hn hp ht hk) ⟨freeSlot s.jrc, sealedDump s 1, ?_, hreason, ?_, ?_, rfl⟩
  · obtain ⟨-, h0, h1, hh⟩ := coreReset_jrc (dumpedFirst (updChip s fun c => { c with failLow := true }) 1) false
    rw [updChip_jrc, updChip_jrc, newestDump_congr h0 h1 hh]
    exact hnew
  · rw [hgseq, Nat.mod_eq_of_lt hg]
  · rw [hseq, Nat.mod_eq_of_lt hseq64]

theorem powerFailRestart : Claims.powerFailRestart := by
  intro s hp hl hk h1 hr
  have hrun : failRestart s = aonReset (updChip s fun c => { c with failLow := false }) 3 := by
    simp [failRestart, hp, hl, hk, h1, hr]
  refine completes_eq rfl hrun ?_
  rw [aonReset_chip, aonReset_cold_pwr]
  exact ⟨rfl, rfl, rfl, rfl, rfl, rfl⟩

theorem supplyPowerOn : Claims.supplyPowerOn := by
  intro s hp
  have hon : powerOn s =
      updChip (aonReset (coreReset s false) 1) fun c => { c with powered := true, rstLow := true, failLow := false } := by
    simp [powerOn, hp]
  obtain ⟨htb, hring, hsec, hdram⟩ := aonReset_powerOn (coreReset s false)
  obtain ⟨hslots, hsvn⟩ := coreReset_sec s false
  refine completes_eq rfl hon ?_
  rw [updChip_chip, aonReset_chip, coreReset_chip]
  refine ⟨rfl, rfl, rfl, htb, hring, ?_, ?_, hdram, ?_, ?_⟩
  · rw [updChip_sec, hsec, hslots]
  · rw [updChip_sec, hsec, hsvn]
  · rw [winOfPort, updChip_sec, hsec]
  · rw [winOfPort, updChip_sec, hsec]

theorem supplyPowerLoss : Claims.supplyPowerLoss := by
  intro s hp ho
  have hoff : powerLoss s = updChip (coreReset s false) fun c => { c with powered := false, parked := true } := by
    simp [powerLoss, hp]
  obtain ⟨hdram, -⟩ := coreReset_cleared s false
  obtain ⟨hring, -⟩ := coreReset_jrc s false
  refine completes_eq rfl hoff ⟨rfl, rfl, ?_, hdram, ?_, coreReset_media s false, hring, coreReset_circ s false⟩
  · rw [updChip_chip, coreReset_chip]
    rfl
  · rw [updChip_boot, coreReset_nor, norCut_none ho]

/-- Settles O56, clause by clause: a reset keeps JRAM's dumps, and the dump written first has the greatest sequence number. -/
theorem supplyAndPowerFail : Obligations.SupplyAndPowerFail :=
  ⟨psChangeDeferred, avfsEvaluation, avselWrite, pwrFailAssert, pwrFailDump, powerFailRestart, supplyPowerOn, supplyPowerLoss⟩

end Sys2Proof.Proofs
end

section
/-! PROOFS. A statement that fails at one clause: the patrol's paced read does not ask that the merge buffer is empty. Issuing the read
looks up its thresholds (R219), a narrow write that waits for the threshold's line is flushed before that (R303), and where the line is
a poisoned unit of the patrol's own table its entries change (Table 12-3). Refutes O42. -/

namespace Sys2Proof.Proofs
open Sys2Proof.Machine

/-- A superblock of one row on block 0 of LUN 0, sealed. -/
def sealedRow : Sb :=
  { sbid := 0, st := 2, stream := 0, rows := 1, members := [{ chn := 0, pos := 0, block := 0, endrow := 1 }] }

/-- The patrol runs outside full rate and visits superblock 0. The base registers of the threshold table and of the patrol's table both
hold their reset value 0, so that DRAM unit 0 is part of both; the unit is poisoned, a narrow write of it waits in the merge buffer, and
the cache is DISABLED. -/
def sharedUnit : State :=
  { State.reset with
    regs := [(Reg.sts .pat, 8)]
    phc := { State.reset.phc with st := 0 }
    map := { State.reset.map with tab := { State.reset.map.tab with sbs := [(0, sealedRow)] } }
    mem := { State.reset.mem with granules := [(0, 1)], poisoned := [0], merge := [{ line := 0, mask := 1, data := 0 }] }
    pat := { State.reset.pat with visit := some 0 } }

/-- The patrol's next read is that of the superblock's one page group. -/
theorem sharedUnit_paced : patOn sharedUnit = true ∧ patFull sharedUnit = false ∧ patPick sharedUnit = some (0, 0, 0) := by decide +kernel

/-- The read-merge-write of the flush meets the poison: superblock 0's entry in the patrol's table is marked due. -/
theorem sharedUnit_marked : sharedUnit.pat.tab = [] ∧ (floorPace sharedUnit).pat.tab = [(0, 0, 0, true, false)] := by decide +kernel

/-- The paced read may change more of the patrol than the read under way. -/
theorem not_patrolFloorPace : ¬ Claims.patrolFloorPace := by
  intro h
  obtain ⟨hon, hrate, hpick⟩ := sharedUnit_paced
  obtain ⟨hpaced, -⟩ := h sharedUnit
  obtain ⟨t, ht, hpat, -⟩ := hpaced 0 0 0 sealedRow hon hrate rfl hpick rfl
  have ht : floorPace sharedUnit = t := Host.Outcome.next.inj ht
  obtain ⟨hbefore, hafter⟩ := sharedUnit_marked
  have htab : (floorPace sharedUnit).pat.tab = sharedUnit.pat.tab := by rw [ht, hpat]
  rw [hafter, hbefore] at htab
  exact absurd htab (by decide)

/-- Refutes O42: with a narrow write to a poisoned unit of both tables in the merge buffer, the paced read marks an entry of the patrol's
table, where `patrolFloorPace` has only the read under way change. -/
theorem not_patrolCommands : ¬ Obligations.PatrolCommands := fun h => by
  obtain ⟨-, -, -, -, -, -, hpace, -⟩ := h
  exact not_patrolFloorPace hpace

end Sys2Proof.Proofs
end

section
/-! PROOFS. The vendor log pages (R292, R344, R427 to R430), and the features of the controllers and of the subsystem (R92, R394, R402,
R431). Settles O28. -/

namespace Sys2Proof.Machine

variable {s u v : State} {q : Sqe}

/-! ## Commands that firmware answers -/

/-- Firmware acts on an admin command that can be fetched. -/
theorem admin_taken (h : Claims.Adm s q) (f : State → State) : admin s q f = f (takeAdmin s q.port) := by
  obtain ⟨hcan, -⟩ := h
  simp [admin, hcan]

/-- From s to u outputs were added at most, and the queue of a command's completion stands as it did. -/
structure Unanswered (s : State) (q : Sqe) (u : State) : Prop where
  out   : ∃ l, u.out = s.out ++ l
  ready : cqReady u q = cqReady s q

namespace Unanswered

theorem takeAdmin (s : State) (q : Sqe) : Unanswered s q (takeAdmin s q.port) := ⟨takeAdmin_out s q.port, cqReady_takeAdmin s q⟩

theorem of_ports (h : Unanswered s q u) (ho : ∃ l, v.out = u.out ++ l) (hs : (getPort v q.port).sqs = (getPort u q.port).sqs)
    (hc : (getPort v q.port).cqs = (getPort u q.port).cqs) : Unanswered s q v := by
  obtain ⟨⟨l, hl⟩, hready⟩ := h
  obtain ⟨m, hm⟩ := ho
  exact ⟨⟨l ++ m, by rw [hm, hl, List.append_assoc]⟩, by rw [← hready, cqReady, cqReady, hs, hc]⟩
theorem of_same (h : Unanswered s q u) (ho : v.out = u.out) (hp : getPort v q.port = getPort u q.port) : Unanswered s q v :=
  h.of_ports ⟨[], by rw [ho, List.append_nil]⟩ (by rw [hp]) (by rw [hp])

theorem raiseWith (h : Unanswered s q u) (n : Nat) (pl : List Byte) (o : Nat) : Unanswered s q (raiseWith u n pl o) :=
  have hport := portCore_raiseWith u n pl o q.port
  h.of_ports (raiseWith_out u n pl o) (congrArg PortSt.sqs hport :) (congrArg PortSt.cqs hport :)
/-- Flash operations that start leave it so. -/
theorem pump (h : Unanswered s q u) : Unanswered s q (pump u) :=
  PumpClosed.pump ⟨fun _ _ hx => hx.of_same rfl (by cases q.port <;> rfl), fun _ _ _ _ _ _ hx => hx.of_same rfl (by cases q.port <;> rfl),
    fun _ _ _ _ hx => hx.of_same rfl (by cases q.port <;> rfl), fun _ n pl o hx => hx.raiseWith n pl o⟩ h

/-- The completion is sent. -/
theorem answered (h : Unanswered s q u) (hq : cqReady s q = true) (st : Status) (dw lba cs : Nat) :
    Answered s (complete u q st dw lba cs) q st :=
  (answered_complete u q st dw lba cs (h.ready.trans hq)).before s h.out
/-- The data is sent before it. -/
theorem replied (h : Unanswered s q u) (b : List Byte) (st : Status) (dw lba cs : Nat) :
    Replied s (complete (replyBytes u q b) q st dw lba cs) q b := by
  obtain ⟨l, hl⟩ := h.out
  obtain ⟨m, hm⟩ := complete_out (replyBytes u q b) q st dw lba cs
  exact ⟨l ++ [.reply q.port q.cid b] ++ m, by rw [hm, replyBytes, emit_out, hl]; simp only [List.append_assoc], by simp⟩

end Unanswered

/-! ## Pages -/

/-- Fields that end at or before an offset, none over another. -/
def headerFits (k : Nat) : List (Nat × Nat × Nat) → Bool
  | [] => true
  | f :: r => decide (f.1 + f.2.1 ≤ k) && (r.all fun g => decide (f.1 + f.2.1 ≤ g.1) || decide (g.1 + g.2.1 ≤ f.1)) && headerFits k r

theorem headerFits_split {k : Nat} {l r : List (Nat × Nat × Nat)} {f : Nat × Nat × Nat} (h : headerFits k (l ++ f :: r) = true) :
    f.1 + f.2.1 ≤ k ∧ ∀ g ∈ r, f.1 + f.2.1 ≤ g.1 ∨ g.1 + g.2.1 ≤ f.1 := by
  induction l with
  | nil =>
    simp only [List.nil_append, headerFits, Bool.and_eq_true, decide_eq_true_eq, List.all_eq_true, Bool.or_eq_true] at h
    obtain ⟨⟨hend, hapart⟩, -⟩ := h
    exact ⟨hend, hapart⟩
  | cons e l ih =>
    simp only [List.cons_append, headerFits, Bool.and_eq_true] at h
    obtain ⟨-, hrest⟩ := h
    exact ih hrest

/-- A page has these fields in a header, behind which all else lies. -/
def InHeader (k : Nat) (fields page : List (Nat × Nat × Nat)) : Prop :=
  ∃ header rest, page = header ++ rest ∧ headerFits k header = true ∧ fields ⊆ header ∧ ∀ g ∈ rest, k ≤ g.1

/-- A page's header holds its fields. -/
theorem InHeader.fieldAt {size k : Nat} {fields page : List (Nat × Nat × Nat)} (h : InHeader k fields page) (hk : k ≤ size)
    {f : Nat × Nat × Nat} (hf : f ∈ fields) : fieldAt (pageOf size page) f.1 f.2.1 = f.2.2 % 256 ^ f.2.1 := by
  obtain ⟨header, rest, rfl, hfits, hin, hrest⟩ := h
  obtain ⟨l, r, rfl⟩ := List.mem_iff_append.mp (hin hf)
  obtain ⟨hend, hapart⟩ := headerFits_split hfits
  rw [List.append_assoc, List.cons_append]
  refine fieldAt_pageOf size l (r ++ rest) f (hend.trans hk) fun g hg => ?_
  rcases List.mem_append.mp hg with hr | hr
  · exact hapart g hr
  · exact .inl (hend.trans (hrest g hr))

/-- A log page that is asked for whole is sent, and the command completes (R93). -/
theorem logAnswer_whole (h : Unanswered s q u) (hq : cqReady s q = true) (lid : Nat) {size k : Nat}
    {fields page : List (Nat × Nat × Nat)} (hpage : InHeader k fields page) (hk : k ≤ size) :
    Answered s (logAnswer u q lid size 0 true page) q stOk ∧ RepliedPage s (logAnswer u q lid size 0 true page) q size fields := by
  have hwhole : logAnswer u q lid size 0 true page = complete (replyBytes u q (pageOf size page)) q stOk := rfl
  have hsent : Unanswered s q (replyBytes u q (pageOf size page)) :=
    h.of_ports ⟨_, emit_out _ _⟩ (by rw [replyBytes, getPort_emit]) (by rw [replyBytes, getPort_emit])
  rw [hwhole]
  exact ⟨hsent.answered hq stOk 0 0 0, _, h.replied _ stOk 0 0 0, pageOf_length _ _, fun _ hf => hpage.fieldAt hk hf⟩

theorem dloLog_header (s : State) : InHeader 64 [(0, 8, s.pat.lastDseq), (8, 8, s.pat.dloChg), (16, 4, s.pat.dlo.length),
    (32, 4, s.pat.dloOvf), (36, 4, 65536)] (dloLog s false) := by
  refine ⟨_, _, rfl, rfl, by simp, fun g hg => ?_⟩
  obtain ⟨i, -, hi⟩ := List.mem_flatMap.mp hg
  split at hi
  · simp only [List.mem_cons, List.not_mem_nil, or_false] at hi
    rcases hi with rfl | rfl | rfl | rfl | rfl | rfl | rfl | rfl | rfl <;> dsimp only <;> omega
  · exact absurd hi List.not_mem_nil

theorem dloPage_whole (u : State) (q : Sqe) : dloPage u q 0 0 true =
    logAnswer (dloEval u) q 0xC0 (64 + 32 * (dloEval u).pat.dlo.length) 0 true (dloLog (dloEval u) false) := rfl

theorem exportLog_header (s : State) (founding : Bool) :
    InHeader 4096 [(0, 8, s.evr.next), (8, 8, (lowestSeq s.evr.circ).getD s.evr.next)] (exportLog s founding) := by
  refine ⟨_, _, rfl, rfl, by simp, fun g hg => ?_⟩
  cases founding <;>
  · obtain ⟨x, -, hx⟩ := List.mem_filterMap.mp hg
    split at hx
    · obtain rfl := Option.some.inj hx
      exact Nat.le_add_right _ _
    · cases hx

theorem ringLog_header (s : State) : InHeader 128 [(0, 1, s.ring.st.code), (1, 1, s.ring.addr.getD 0xFF), (2, 1, s.ring.topo),
    (3, 1, s.ring.role), (4, 1, s.ring.n), (8, 8, s.ring.gid.getD 0)] (ringLog s) :=
  ⟨ringLog s, [], (List.append_nil _).symm, rfl, by simp [ringLog], nofun⟩

theorem mediaLog_header (s : State) : InHeader 512 [(0, 1, s.map.chip), (2, 1, enabledWays s), (88, 2, meanErases s),
    (90, 2, maxErases s), (92, 2, s.flash.die.rated)] (mediaLog s) :=
  ⟨mediaLog s, [], (List.append_nil _).symm, rfl, by simp [mediaLog], nofun⟩

theorem capacityLog_header (s : State) : InHeader 128 [(0, 8, usable s), (8, 8, reserveR s), (16, 8, commitC s), (24, 8, mappedM s),
    (32, 8, s64 (spare s)), (72, 1, s.map.chip)] (capacityLog s) := by
  refine ⟨_, _, rfl, rfl, by simp, fun g hg => ?_⟩
  obtain ⟨e, -, he⟩ := List.mem_flatMap.mp hg
  simp only [List.mem_cons, List.not_mem_nil, or_false] at he
  rcases he with rfl | rfl | rfl | rfl <;> dsimp only <;> omega

/-! ## What the pages show of the state as the command was taken -/

/-- A completion with success has nothing recorded: it raises no source. -/
theorem complete_ok_evr (u : State) (q : Sqe) : (complete u q stOk).evr = u.evr := by
  have hplace : ∀ p k c x, x.st = stOk → (placeCompl u p k c x).evr = u.evr := fun p k c x hx => by
    simp [placeCompl, hx, stOk, stDependency]
  rw [complete, if_neg (by decide), post]
  split
  · rfl
  · split
    · rw [setPort_evr]
    · exact hplace _ _ _ _ rfl
theorem logAnswer_whole_evr (u : State) (q : Sqe) {lid size : Nat} (page : List (Nat × Nat × Nat)) :
    (logAnswer u q lid size 0 true page).evr = u.evr := (complete_ok_evr _ q).trans rfl
theorem logAnswer_whole_pat (u : State) (q : Sqe) {lid size : Nat} (page : List (Nat × Nat × Nat)) :
    (logAnswer u q lid size 0 true page).pat = u.pat := (complete_pat ..).trans rfl

section
variable (s) (p : Port)

theorem enabledWays_takeAdmin : enabledWays (takeAdmin s p) = enabledWays s := by
  have hctl : rd (takeAdmin s p) (Reg.ctl .phc) = rd s (Reg.ctl .phc) := rd_takeAdmin p rfl
  have hdis : rd (takeAdmin s p) Reg.phcWayDis = rd s Reg.phcWayDis := rd_takeAdmin p rfl
  simp only [enabledWays, phcWays_congr hctl, wayOff, hdis]

/-- The LUNs in service are those of the geometry, faults and retirements, whose registers stay. -/
theorem positions_takeAdmin {c : Nat} (hc : c < 32) : positions (takeAdmin s p) c = positions s c := by
  have hgeom : rd (takeAdmin s p) (0x200010 + 0x4000 * c) = rd s (0x200010 + 0x4000 * c) :=
    rd_takeAdmin p (CutKept.signalReg_high (by omega))
  have hflt : rd (takeAdmin s p) (rLunFlt c) = rd s (rLunFlt c) := rd_takeAdmin p (CutKept.signalReg_high (by unfold rLunFlt; omega))
  have hret : rd (takeAdmin s p) (rLunRet c) = rd s (rLunRet c) := rd_takeAdmin p <| by
    rw [← Bool.not_eq_true, signalReg_iff]
    unfold rLunRet
    omega
  have hchn : rd (takeAdmin s p) rChRet = rd s rChRet := rd_takeAdmin p rfl
  simp only [positions, lunInService, lunRetired, inGeometry, bit32, hgeom, hflt, hret, hchn]

theorem meanErases_takeAdmin : meanErases (takeAdmin s p) = meanErases s := by
  have hall : (List.range 32).map (fun c => (positions (takeAdmin s p) c).length) = (List.range 32).map fun c => (positions s c).length :=
    List.map_congr_left fun c hc => by rw [positions_takeAdmin s p (List.mem_range.mp hc)]
  simp only [meanErases, blocksAll, hall, takeAdmin_map, takeAdmin_flash]
theorem maxErases_takeAdmin : maxErases (takeAdmin s p) = maxErases s := by simp only [maxErases, takeAdmin_map]

theorem usable_takeAdmin : usable (takeAdmin s p) = usable s := by
  have hwidth : minWidth (takeAdmin s p) = minWidth s := by rw [minWidth, minWidth, rdField, rdField, rd_takeAdmin p rfl]
  have hgood : (List.range 32).map (goodBlocks (takeAdmin s p)) = (List.range 32).map (goodBlocks s) :=
    List.map_congr_left fun c hc => by
      simp only [goodBlocks, positions_takeAdmin s p (List.mem_range.mp hc), takeAdmin_map, takeAdmin_flash]
  simp only [usable, hwidth, hgood, takeAdmin_map, takeAdmin_flash]
theorem spare_takeAdmin : spare (takeAdmin s p) = spare s := by
  simp only [spare, usable_takeAdmin, commitC, reserveR, takeAdmin_map]

end

/-! ## Power states (R402, R407) -/

theorem psSet_deferred {ps : Nat} (h : 3 ≤ ps) : psSet s ps = updPwr s fun p => { p with want := some ps } := if_pos h

/-- An operational state is entered at once. -/
theorem psSet_operational {ps : Nat} (h : ps < 3) : (psSet s ps).pwr.ps = ps ∧ (psSet s ps).pwr.want = none := by
  rw [psSet, if_neg (by omega)]
  dsimp only
  split
  · exact ⟨‹_›, rfl⟩
  · have hpwr : ∀ t : State, (pump t).pwr = t.pwr := fun t =>
      (pump_frame (F := courierParts) (OnlyChanges.refl _ t) (by decide) (by decide) (by decide) (by decide) (by decide) (by decide)).same
        .pwr (by decide)
    rw [hpwr, psDone, raise_pwr]
    exact ⟨rfl, rfl⟩

/-- The choice of a power state leaves a command's completion to come. -/
theorem Unanswered.psSet (h : Unanswered s q u) (ps : Nat) : Unanswered s q (psSet u ps) := by
  have hupd : ∀ (t : State) (f : Pwr → Pwr), Unanswered s q t → Unanswered s q (updPwr t f) := fun t f ht =>
    ht.of_same rfl (by cases q.port <;> rfl)
  have hor : ∀ (t : State) (a m : Nat), Unanswered s q t → Unanswered s q (orReg t a m) := fun t a m ht =>
    ht.of_same rfl (by cases q.port <;> rfl)
  rw [Machine.psSet]
  dsimp only
  split
  · exact hupd _ _ h
  · split
    · exact hupd _ _ h
    · exact ((hor _ _ _ (hupd _ _ (hupd _ _ h))).raiseWith _ _ _).pump

end Sys2Proof.Machine

namespace Sys2Proof.Proofs
open Sys2Proof.Machine

/-! ## Log pages -/

theorem deadLetterOfficeLog : Claims.deadLetterOfficeLog := by
  intro s q h
  have heval : Unanswered s q (dloEval (takeAdmin s q.port)) := (Unanswered.takeAdmin s q).of_same rfl (by cases q.port <;> rfl)
  refine completes_eq rfl ((admin_taken h _).trans (dloPage_whole _ q)) ?_
  rw [logAnswer_whole_pat]
  exact logAnswer_whole heval h.2 0xC0 (dloLog_header _) (Nat.le_add_right _ _)

theorem recorderExportLog : Claims.recorderExportLog := by
  intro s q lsp h
  have hpage : logPage (takeAdmin s q.port) q 0xC1 lsp 0 true = logAnswer (takeAdmin s q.port) q 0xC1
      (4096 + if lsp % 2 = 1 then 1048576 else 4194304) 0 true (exportLog (takeAdmin s q.port) (lsp % 2 == 1)) := rfl
  refine completes_eq rfl ((admin_taken h _).trans hpage) ?_
  rw [logAnswer_whole_evr]
  exact logAnswer_whole (.takeAdmin s q) h.2 0xC1 (exportLog_header _ _) (Nat.le_add_right _ _)

theorem ringStatusLog : Claims.ringStatusLog := by
  intro s q lsp h
  have hpage := ringLog_header (takeAdmin s q.port)
  rw [takeAdmin_ring] at hpage
  exact completes_eq rfl (admin_taken h _) (logAnswer_whole (.takeAdmin s q) h.2 0xC2 hpage (Nat.le_refl _))

theorem mediaHealthDetailLog : Claims.mediaHealthDetailLog := by
  intro s q lsp h
  have hpage := mediaLog_header (takeAdmin s q.port)
  rw [takeAdmin_map, takeAdmin_flash, enabledWays_takeAdmin, meanErases_takeAdmin, maxErases_takeAdmin] at hpage
  exact completes_eq rfl (admin_taken h _) (logAnswer_whole (.takeAdmin s q) h.2 0xC3 hpage (Nat.le_refl _))

theorem capacityAndSheddingLog : Claims.capacityAndSheddingLog := by
  intro s q lsp h
  have hpage := capacityLog_header (takeAdmin s q.port)
  rw [usable_takeAdmin, spare_takeAdmin, reserveR, commitC, mappedM, takeAdmin_map] at hpage
  exact completes_eq rfl (admin_taken h _) (logAnswer_whole (.takeAdmin s q) h.2 0xC4 hpage (by decide))

/-! ## Features -/

theorem setFeatures : Claims.setFeatures := by
  intro s q v h
  have hput : Unanswered s q (putFeat (takeAdmin s q.port) q.port 1 v.cdw11) :=
    (Unanswered.takeAdmin s q).of_ports ⟨[], by simp [putFeat]⟩ (by simp [putFeat]) (by simp [putFeat])
  have hset : featSet (takeAdmin s q.port) q 1 false v = complete (putFeat (takeAdmin s q.port) q.port 1 v.cdw11) q stOk := rfl
  refine ⟨completes_eq rfl ((admin_taken h _).trans hset) ⟨hput.answered h.2 stOk 0 0 0, ?_, fun k hk => ?_, fun p hp => ?_⟩,
    completes_eq rfl (admin_taken h _) ((Unanswered.takeAdmin s q).answered h.2 stNotSaveable 0 0 0)⟩
  · rw [getPort_complete_feat, putFeat, getPort_modPort, nget_nset_same]
  · rw [getPort_complete_feat, putFeat, getPort_modPort, nget_nset_other _ _ hk, getPort_takeAdmin_feat]
  · rw [getPort_complete_feat, putFeat, getPort_modPort_other _ _ hp, getPort_takeAdmin_feat]

theorem getFeatures : Claims.getFeatures := by
  intro s q w h h0
  have hanswer : ∀ dw, AnsweredWith s (complete (takeAdmin s q.port) q stOk dw) q stOk dw := fun dw =>
    answeredWith_complete h0 ((cqReady_takeAdmin s q).trans h.2) (takeAdmin_out s q.port) stOk dw 0 0
  have hperiod : rdField (takeAdmin s q.port) (pat 0x10) 6 0 = rdField s (pat 0x10) 6 0 := by
    rw [rdField, rdField, rd_takeAdmin _ rfl]
  refine ⟨completes_eq rfl (admin_taken h _) ?_, completes_eq rfl (admin_taken h _) (hanswer 14),
    completes_eq rfl (admin_taken h _) ?_⟩
  · rw [← hperiod]
    exact hanswer _
  · rw [← takeAdmin_pat s q.port]
    exact hanswer _

theorem setPowerManagement : Claims.setPowerManagement := by
  intro s q ps h hps
  have hset : featPower (takeAdmin s q.port) q ps false = complete (psSet (takeAdmin s q.port) ps) q stOk := if_neg (by omega)
  refine completes_eq rfl ((admin_taken h _).trans hset) ⟨((Unanswered.takeAdmin s q).psSet ps).answered h.2 stOk 0 0 0, ?_, ?_⟩
  · intro hlow
    rw [complete_pwr]
    exact psSet_operational (by omega)
  · intro hhigh
    rw [complete_pwr, psSet_deferred hhigh, updPwr_pwr, takeAdmin_pwr]
    exact ⟨rfl, rfl⟩

theorem setPlmWindow : Claims.setPlmWindow := by
  intro s q h
  have hanswer := fun st => (Unanswered.takeAdmin s q).answered h.2 st 0 0 0
  have hring : ∀ st, (complete (takeAdmin s q.port) q st).ring = s.ring := fun st => by rw [complete_ring, takeAdmin_ring]
  have hplm : ∀ w, featPlm (takeAdmin s q.port) q w = complete (takeAdmin s q.port) q
      (if w = (if s.ring.inWin then 2 else 1) then stOk else stInvalidField) := fun w => by
    rw [featPlm, takeAdmin_ring]
    exact (apply_ite (fun st => complete (takeAdmin s q.port) q st) _ _ _).symm
  constructor
  · refine completes_eq rfl ((admin_taken h _).trans ((hplm _).trans ?_)) ⟨hanswer stOk, hring stOk⟩
    rw [if_pos rfl]
  · intro w hw
    refine completes_eq rfl ((admin_taken h _).trans ((hplm w).trans ?_)) ⟨hanswer stInvalidField, hring stInvalidField⟩
    rw [if_neg hw]

/-- Settles O28, command by command. -/
theorem featuresAndEvents : Obligations.FeaturesAndEvents :=
  ⟨deadLetterOfficeLog, recorderExportLog, ringStatusLog, mediaHealthDetailLog, capacityAndSheddingLog, setFeatures, getFeatures,
    setPowerManagement, setPlmWindow⟩

end Sys2Proof.Proofs
end
section
/-! PROOFS. What pacing leaves alone (R249, Table 9-10): reads that begin beside a command, with the accesses to memory and the grants that
they bring, reach the registers of the memory, journal, recorder, fabric and flash blocks only, and never the timebase. For O44 to O49. -/

namespace Sys2Proof.Machine

variable {z s t : State}

/-- The registers that pacing may reach (Table 2-1): those of PHC, DRC and JRC, and those from EVR on. -/
abbrev PacedReg (a : Nat) : Prop := 0x40000 ≤ a ∧ a < 0x70000 ∨ 0xD0000 ≤ a

/-- From s to t no other register changes, and the timebase stays. -/
structure PaceKept (s t : State) : Prop where
  regs : ∀ a, ¬ PacedReg a → rd t a = rd s a
  tb : t.clk.tb = s.clk.tb

namespace PaceKept

theorem refl (s : State) : PaceKept s s := ⟨fun _ _ => rfl, rfl⟩
theorem beside (h : PaceKept z s) (hr : t.regs = s.regs) (hc : t.clk.tb = s.clk.tb) : PaceKept z t :=
  ⟨fun a ha => (rd_of_regs hr a).trans (h.regs a ha), hc.trans h.tb⟩
theorem of_only {F : List Part} (h : PaceKept z s) (k : OnlyChanges F s t) (hr : Part.regs ∉ F) (hc : Part.clk ∉ F) : PaceKept z t :=
  h.beside (k.same .regs hr) (congrArg Clock.tb (k.same .clk hc))
theorem ite {c : Prop} [Decidable c] (h : PaceKept z s) (k : PaceKept z t) : PaceKept z (if c then s else t) := PumpClosed.ite h k
theorem foldl {α : Type} {g : State → α → State} (hg : ∀ x a, PaceKept z x → PaceKept z (g x a)) (l : List α) (h : PaceKept z s) :
    PaceKept z (l.foldl g s) := PumpClosed.foldl hg l h

theorem wr (h : PaceKept z s) (a v : Nat) (ha : PacedReg a) : PaceKept z (wr s a v) :=
  ⟨fun b hb => (rd_wr_other s v fun e : b = a => hb (e.symm ▸ ha)).trans (h.regs b hb), h.tb⟩
theorem orReg (h : PaceKept z s) (a m : Nat) (ha : PacedReg a) : PaceKept z (orReg s a m) := h.wr a _ ha
theorem wrField (h : PaceKept z s) (a hi lo v : Nat) (ha : PacedReg a) : PaceKept z (wrField s a hi lo v) := h.wr a _ ha
theorem satAdd (h : PaceKept z s) (a hi lo n : Nat) (ha : PacedReg a) : PaceKept z (satAdd s a hi lo n) := h.wr a _ ha
theorem raiseWith (h : PaceKept z s) (n : Nat) (pl : List Byte) (o : Nat) : PaceKept z (raiseWith s n pl o) :=
  ⟨fun a ha => (rd_raiseWith s n pl o (by rw [← Bool.not_eq_true, signalReg_iff]; omega)).trans (h.regs a ha),
    (congrArg Clock.tb (raiseWith_clk s n pl o)).trans h.tb⟩
theorem raise (h : PaceKept z s) (n : Nat) : PaceKept z (raise s n) := h.raiseWith n _ _
theorem noteCause (h : PaceKept z s) (a bit src : Nat) (ha : PacedReg a) : PaceKept z (noteCause s a bit src) := (h.orReg a _ ha).raise src

/-- The start of flash operations keeps it. -/
theorem pumpClosed (z : State) : PumpClosed (PaceKept z) where
  flash _ _ h := h.beside rfl rfl
  count _ a hi lo n ha h := h.satAdd a hi lo n (by omega)
  cause _ a m ha h := h.orReg a m (by omega)
  raise _ n pl o h := h.raiseWith n pl o
theorem pump (h : PaceKept z s) : PaceKept z (pump s) := (pumpClosed z).pump h

theorem updPhc (h : PaceKept z s) (f : Phc → Phc) : PaceKept z (updPhc s f) := h.beside rfl rfl
theorem updMem (h : PaceKept z s) (f : Mem → Mem) : PaceKept z (updMem s f) := h.beside rfl rfl
theorem updJrc (h : PaceKept z s) (f : Jrc → Jrc) : PaceKept z (updJrc s f) := h.beside rfl rfl
theorem updFlash (h : PaceKept z s) (f : Flash → Flash) : PaceKept z (updFlash s f) := h.beside rfl rfl
theorem modReloc (h : PaceKept z s) (id : Nat) (f : Reloc → Reloc) : PaceKept z (modReloc s id f) := h.beside rfl rfl
theorem updPat (h : PaceKept z s) (f : Patrol → Patrol) : PaceKept z (updPat s f) := h.beside rfl rfl
theorem pin (h : PaceKept z s) (x : Nat) : PaceKept z (pin s x) := h.beside rfl rfl
theorem addRepair (h : PaceKept z s) (r : Repair) : PaceKept z (addRepair s r) := h.beside rfl rfl
theorem putDramLine (h : PaceKept z s) (line : Nat) (d : BitVec 512) : PaceKept z (putDramLine s line d) := h.beside rfl rfl

/-! ## The cache (R167, R176) -/

/-- The parts that accesses to lines write. -/
def lineParts : List Part := [.dram, .phc, .mem]

theorem phcPass (h : PaceKept z s) (r : LineReq) : PaceKept z (phcPass s r) :=
  h.of_only (F := lineParts) (phcPass_frame (.refl _ s) (by decide) (by decide)) (by decide) (by decide)
theorem phcHit (h : PaceKept z s) (r : LineReq) (w : Nat) : PaceKept z (phcHit s r w) :=
  (h.satAdd Reg.phcHits 63 0 1 (by decide)).of_only (F := lineParts) (phcServe_frame (.refl _ _) (by decide) (by decide) (by decide))
    (by decide) (by decide)
theorem visitLine (h : PaceKept z s) (line : Nat) : PaceKept z (visitLine s line) :=
  h.of_only (F := lineParts) (visitLine_frame (.refl _ s) (by decide) (by decide) (by decide)) (by decide) (by decide)
theorem rangePass (h : PaceKept z s) (line : Nat) : PaceKept z (rangePass s line) := by
  unfold Machine.rangePass
  split
  · exact h
  · have hfree : PaceKept z (freshBelow s 2).1 := h.beside rfl rfl
    exact .ite h (.ite (hfree.visitLine line) hfree)

theorem phcLookup (h : PaceKept z s) (r : LineReq) : PaceKept z (phcLookup s r) := by
  have hp := h.rangePass r.line
  unfold Machine.phcLookup
  split
  · exact h.phcPass r
  · exact h.updPhc _
  · dsimp only
    split
    · exact hp.phcHit r _
    · exact .ite (hp.updPhc _) (.ite (hp.updPhc _) (.ite (hp.updPhc _) ((hp.satAdd Reg.phcMisses 63 0 1 (by decide)).updPhc _)))
  · split
    · have hw : PaceKept z (useWay (Machine.satAdd s Reg.phcHits 63 0 1) (phcSet s r.line) ‹Nat›) :=
        (h.satAdd Reg.phcHits 63 0 1 (by decide)).updPhc _
      refine .ite hw ?_
      split
      · exact hw.beside rfl rfl
      · exact hw
    · exact .ite (h.updPhc _) (h.phcPass r)
theorem phcRequest (h : PaceKept z s) (r : LineReq) : PaceKept z (phcRequest s r) := (h.updPhc _).phcLookup r

theorem wayDisable (h : PaceKept z s) (way set : Nat) : PaceKept z (wayDisable s way set) := by
  refine .ite (.raise (.wr (h.wrField (Reg.sts .phc) 19 19 1 (by decide)) Reg.phcFault _ (by decide)) 52) (updPhc ?_ _)
  exact (h.updPhc _).of_only (F := lineParts) (writeBack_frame (.refl _ _) (by decide) (by decide)) (by decide) (by decide)

/-! ## Reports and repairs of DRAM (R307, R311 to R314) -/

theorem drcReport (h : PaceKept z s) (cls unit : Nat) : PaceKept z (drcReport s cls unit) := by
  have hlog : PaceKept z (if rdField s (drc 0x2C) 2 0 = 0 then Machine.wr s (drc 0x30) (2 ^ 63 + cls * 2 ^ 36 + unit % 2 ^ 30 * 64)
    else s) := .ite (h.wr _ _ (by decide)) h
  exact .noteCause (.ite hlog (hlog.satAdd (drc 0x40) 31 0 1 (by decide))) (drc 0x2C) _ _ (by decide)
theorem retirePage (h : PaceKept z s) (addr : Nat) : PaceKept z (retirePage s addr) :=
  .ite (h.raise 71) ((h.wr (drc 0x44) _ (by decide)).beside rfl rfl)
theorem retireLine (h : PaceKept z s) (addr : Nat) : PaceKept z (retireLine s addr) := .ite (h.raise 71) (h.beside rfl rfl)
theorem retireRow (h : PaceKept z s) (unit addr : Nat) : PaceKept z (retireRow s unit addr) := by
  have hlisted := h.addRepair { kind := 1, unit, addr }
  have hfree : ∀ {t}, PaceKept z t → ∀ n, PaceKept z (freshBelow t n).1 := fun ht _ => ht.beside rfl rfl
  have hpicked := hfree (hfree hlisted (phcWays (Machine.addRepair s { kind := 1, unit, addr })))
    (phcSets (freshBelow (Machine.addRepair s { kind := 1, unit, addr }) (phcWays (Machine.addRepair s { kind := 1, unit, addr }))).1)
  exact .ite hlisted (.ite ((hpicked.wayDisable _ _).updPhc _) hpicked)
theorem recFail (h : PaceKept z s) (cond off : Nat) : PaceKept z (recFail s cond off) := by
  refine .ite h (.noteCause (.wrField ?_ (Reg.sts .evr) 17 17 1 (by decide)) Reg.evrCause 3 138 (by decide))
  exact h.beside rfl rfl
theorem hardFault (h : PaceKept z s) (mem unit addr : Nat) : PaceKept z (hardFault s mem unit addr) := by
  have hnoted := (h.wr (scb 0x60) (2 ^ 63 + mem * 2 ^ 61 + unit * 2 ^ 57 + addr % 2 ^ 40) (by decide)).raise 70
  exact .ite (hnoted.retirePage addr) (.ite (.ite (.recFail (hnoted.retireLine addr) 4 _) (hnoted.retireLine addr))
    (hnoted.retireRow unit addr))
theorem offender (h : PaceKept z s) (mem unit addr : Nat) : PaceKept z (offender s mem unit addr) := by
  unfold Machine.offender
  split
  · exact .ite (.hardFault (h.updMem _) _ _ _) (h.updMem _)
  · refine .ite (h.updMem _) ?_
    split
    · exact h.satAdd (scb 0x5C) 31 0 1 (by decide)
    · split
      · exact h.updMem _
      · exact h

theorem declareFailed (h : PaceKept z s) {i : Nat} (hi : i < 4) (pos : Nat) : PaceKept z (declareFailed s i pos) := by
  have ha : PacedReg (devFail i) := by
    unfold devFail drc
    omega
  have hfirst := ((h.wr _ (setBits (rd s (devFail i)) 31 31 1) ha).wrField _ 20 16 pos ha).orReg (drc 0x2C) 8 (by decide)
  have hsecond := ((h.wrField _ 15 15 1 ha).wrField _ 12 8 pos ha).orReg (drc 0x2C) 16 (by decide)
  exact .ite ((hfirst.raise 66).addRepair _) (.ite h (hsecond.raise 66))
theorem deviceHit (h : PaceKept z s) (unit pos : Nat) : PaceKept z (deviceHit s unit pos) :=
  .ite (h.updMem _) (.declareFailed (h.updMem _) (Nat.mod_lt _ (by decide)) pos)

theorem patrolUnit (h : PaceKept z s) (unit : Nat) : PaceKept z (patrolUnit s unit) :=
  h.of_only (F := [.pat]) (patrolUnit_frame (.refl _ s) (by decide)) (by decide) (by decide)
theorem dramReport (h : PaceKept z s) (unit : Nat) (r : UnitRead) : PaceKept z (dramReport s unit r) := by
  unfold Machine.dramReport
  dsimp only
  split
  · exact h.updMem _
  · exact .ite (h.updMem _) (.offender (.deviceHit (.satAdd (h.updMem _) (drc 0x38) 63 0 1 (by decide)) _ _) 0 0 _)
  · exact .patrolUnit (.drcReport (h.updMem _) 0 unit) unit
  · exact .patrolUnit (.drcReport (h.updMem _) 1 unit) unit
  · exact .drcReport (h.updMem _) 2 unit
theorem dramRead (h : PaceKept z s) (unit : Nat) (r : UnitRead) : PaceKept z (dramRead s unit r) := by
  refine .ite ?_ (h.dramReport unit r)
  cases unitSeg s unit with
  | none => exact h.dramReport unit r
  | some g => exact (h.dramReport unit r).beside rfl rfl

/-! ## The merge buffer, and accesses beside the cache (R163, R303) -/

theorem mergeRmw (h : PaceKept z s) (e : MergeEnt) (r : UnitRead) : PaceKept z (mergeRmw s e r) := by
  have hput := ((h.satAdd (drc 0x5C) 31 0 1 (by decide)).dramRead e.line r).putDramLine e.line
    (mergeLine e.mask (dramLine (Machine.dramRead (Machine.satAdd s (drc 0x5C) 31 0 1) e.line r) e.line) e.data)
  exact .ite (hput.updMem _) hput
theorem flushEnt (h : PaceKept z s) (e : MergeEnt) (r : UnitRead) : PaceKept z (flushEnt s e r) :=
  .ite (h.phcRequest _) (.ite (h.putDramLine _ _) (h.mergeRmw e r))
theorem flushOne (h : PaceKept z s) (line : Nat) : PaceKept z (flushOne s line) := by
  unfold Machine.flushOne
  split
  · exact .flushEnt (h.updMem _) _ _
  · exact h
theorem flushLine (h : PaceKept z s) (line : Nat) : PaceKept z (flushLine s line) := .ite (.foldl (fun _ l hx => hx.flushOne l) _ h) h
theorem clientAccess (h : PaceKept z s) (r : LineReq) : PaceKept z (clientAccess s r) := by
  unfold Machine.clientAccess
  refine .ite (.phcRequest (h.flushLine r.line) r) ?_
  split
  · exact .ite ((h.updMem _).flushLine r.line) (h.updMem _)
  · refine updMem (.ite ?_ h) _
    split
    · exact h.flushLine _
    · exact h

/-! ## Reads (R201, R219, R220, R249) -/

theorem ttFetch (h : PaceKept z s) (addr : Nat) : PaceKept z (ttFetch s addr) := h.clientAccess _
theorem ttStore (h : PaceKept z s) (addr : Nat) (e : TtEntry) : PaceKept z (ttStore s addr e) := (h.updJrc _).clientAccess _
theorem ttTracked (h : PaceKept z s) (lun block page : Nat) : PaceKept z (ttTracked s lun block page).1 := by
  have hf := h.ttFetch (ttAddr s lun block page)
  show PaceKept z (ttUse s lun block page).1
  unfold ttUse
  dsimp only
  split
  · exact hf
  · exact .ttStore (.ite (hf.ttFetch _) ((hf.ttFetch _).ttFetch _)) _ _
theorem addReads (h : PaceKept z s) (cls : Nat) (ps : List (Nat × Req)) : PaceKept z (addReads s cls ps) :=
  .foldl (fun _ _ hx => (hx.ttTracked _ _ _).updFlash _) _ (.foldl (fun _ _ hx => hx.updFlash _) _ h)
theorem paceBack (h : PaceKept z s) (x : Nat × Reloc) : PaceKept z (paceBack s x) := .ite h ((h.updFlash _).modReloc _ _)
theorem paceJob (h : PaceKept z s) (x : Nat × Reloc) : PaceKept z (paceJob s x) :=
  .ite h ((h.modReloc _ _).addReads _ _)
theorem reclaimPace (h : PaceKept z s) : PaceKept z (reclaimPace s) :=
  .ite h (.pump (.foldl (fun _ x hx => hx.paceJob x) _ (.foldl (fun _ x hx => hx.paceBack x) _ h)))

end PaceKept

end Sys2Proof.Machine
end
section
/-! PROOFS. Rules of the ring's operations: what causes, notices, the window and a change of state leave, and the ring's state after them
(R320, R327, R328, R335, R338). For O44 to O49. -/

namespace Sys2Proof.Machine

open Claims

variable {z s t : State}

/-! ## What causes, notices and the window's work leave -/

/-- From s to t causes may be set, notices given and pacing go on: the ring's other registers, the timebase and the chip stay. -/
structure Noticed (s t : State) : Prop where
  regs : ∀ a, 0xB0000 ≤ a → a < 0xC0000 → a ≠ Reg.rngCause → rd t a = rd s a
  causes : ∀ k, k < 64 → bitOf (rd s Reg.rngCause) k = true → bitOf (rd t Reg.rngCause) k = true
  tb : t.clk.tb = s.clk.tb
  chip : t.chip = s.chip

theorem signalReg_rng {a : Nat} (h1 : 0xB0000 ≤ a) (h2 : a < 0xC0000) : signalReg a = false := by
  rw [← Bool.not_eq_true, signalReg_iff]
  omega

/-- Whether a block but the couriers and the stripe engine runs rests on its status register and the chip alone. -/
theorem running_of {b : Blk} (hb : (b == .chn || b == .str) = false) (hr : rd t (Reg.sts b) = rd s (Reg.sts b)) (hc : t.chip = s.chip) :
    running t b = running s b := by
  simp only [running, active, leaving, hr, hc, hb, Bool.and_false]

theorem rd_asyncEvent (s : State) (p : Port) (typ info lid : Nat) {a : Nat} (h : signalReg a = false) :
    rd (asyncEvent s p typ info lid) a = rd s a := by
  unfold asyncEvent aerDeliver
  dsimp only
  split
  · rfl
  · split
    · rw [rd_post _ _ h, rd_setPort, rd_setPort]
    · exact rd_setPort s p _ a

/-- Every part but the ring's own. -/
def besideRing : List Part := allParts.filter fun p => p != .ring

theorem reclaimPace_only (s : State) : OnlyChanges (besideRing.filter fun p => p != .chip) s (reclaimPace s) :=
  reclaimPace_frame (.refl _ s) (by decide) (by decide) (by decide) (by decide) (by decide) (by decide) (by decide) (by decide) (by decide)
    (by decide) (by decide) (by decide) (by decide)

namespace Noticed

theorem refl (s : State) : Noticed s s := ⟨fun _ _ _ _ => rfl, fun _ _ h => h, rfl, rfl⟩
theorem trans (h : Noticed z s) (k : Noticed s t) : Noticed z t :=
  ⟨fun a h1 h2 h3 => (k.regs a h1 h2 h3).trans (h.regs a h1 h2 h3), fun j hj hb => k.causes j hj (h.causes j hj hb),
    k.tb.trans h.tb, k.chip.trans h.chip⟩
theorem ite {c : Prop} [Decidable c] (h : Noticed z s) (k : Noticed z t) : Noticed z (if c then s else t) := by split <;> assumption
/-- A step that leaves every register of the ring's block. -/
theorem quiet (h : Noticed z s) (hr : ∀ a, 0xB0000 ≤ a → a < 0xC0000 → rd t a = rd s a) (hb : t.clk.tb = s.clk.tb) (hc : t.chip = s.chip) :
    Noticed z t :=
  h.trans ⟨fun a h1 h2 _ => hr a h1 h2, fun _ _ hk => by rwa [hr _ (by decide) (by decide)], hb, hc⟩
theorem beside (h : Noticed z s) (hr : t.regs = s.regs) (hb : t.clk.tb = s.clk.tb) (hc : t.chip = s.chip) : Noticed z t :=
  h.quiet (fun a _ _ => rd_of_regs hr a) hb hc

theorem updRing (h : Noticed z s) (f : Ring → Ring) : Noticed z (updRing s f) := h.beside rfl rfl rfl
theorem raise (h : Noticed z s) (n : Nat) : Noticed z (raise s n) :=
  h.quiet (fun _ h1 h2 => rd_raise s n (signalReg_rng h1 h2)) (congrArg Clock.tb (raise_clk s n)) (raise_chip s n)
theorem ringCause (h : Noticed z s) (bit : Nat) : Noticed z (ringCause s bit) := by
  refine .ite h (.raise (h.trans ⟨fun a _ _ h3 => rd_orReg_other s h3, fun k hk hb => ?_, rfl, rfl⟩) _)
  rw [bitOf_orReg _ _ _ _ hk, hb, Bool.true_or]
theorem asyncEvent (h : Noticed z s) (p : Port) (typ info lid : Nat) : Noticed z (asyncEvent s p typ info lid) :=
  h.quiet (fun _ h1 h2 => rd_asyncEvent s p typ info lid (signalReg_rng h1 h2)) (congrArg Clock.tb (asyncEvent_clk s p typ info lid))
    (asyncEvent_chip s p typ info lid)
theorem ringNotice (h : Noticed z s) : Noticed z (ringNotice s) := (h.asyncEvent .a 7 3 0xC2).asyncEvent .b 7 3 0xC2
theorem plmNotice (h : Noticed z s) (p : Port) : Noticed z (plmNotice s p) := by
  have hset : ∀ x, Noticed z (setPort s p x) := fun x => by cases p <;> exact h.beside rfl rfl rfl
  exact .ite h (.ite ((hset _).asyncEvent p 2 4 0x0B) (hset _))
theorem wrField (h : Noticed z s) (a hi lo v : Nat) (ha : a < 0xB0000) : Noticed z (wrField s a hi lo v) :=
  h.quiet (fun b h1 _ => rd_wrField_other s (by omega)) rfl rfl
theorem reclaimPace (h : Noticed z s) : Noticed z (reclaimPace s) := by
  have hp := PaceKept.reclaimPace (.refl s)
  exact h.quiet (fun a h1 h2 => hp.regs a (by omega)) hp.tb ((reclaimPace_only s).same .chip (by decide))
theorem updWindow (h : Noticed z s) : Noticed z (updWindow s) :=
  .ite h (.reclaimPace (.ringCause (.plmNotice (.plmNotice (.wrField (.wrField (h.updRing _) Reg.mapRegime 1 1 _ (by decide)) (Reg.sts .pat)
    17 17 _ (by decide)) .a) .b) 6))
theorem updUnsync (h : Noticed z s) (b : Bool) : Noticed z (updUnsync s b) := .ite h (.ringNotice ((h.updRing _).ringCause 3))
theorem refresh (h : Noticed z s) (old : Ring) : Noticed z (refresh old s) := by
  refine .updWindow (.ite (.ringNotice ?_) ?_) <;>
    exact .ite (.ringCause (.ite (.ringCause (h.updRing _) 2) (h.updRing _)) 4) (.ite (.ringCause (h.updRing _) 2) (h.updRing _))
theorem toState (h : Noticed z s) (x : RingSt) : Noticed z (toState s x) := by
  have hset := ((h.updRing fun r => { r with st := x, tchange := s.clk.tb, changes := r.changes + 1 }).ringCause 0).ringNotice
  exact .ite h (.ite hset (hset.updUnsync true))
theorem sendPort (h : Noticed z s) (p : RingPort) (typ dst src ttl seq : Nat) (pl : List Byte) :
    Noticed z (sendPort s p typ dst src ttl seq pl) := .ite (h.beside rfl rfl rfl) h
theorem sendNear (h : Noticed z s) (p : RingPort) (typ : Nat) (pl : List Byte) : Noticed z (sendNear s p typ pl) :=
  .ite h ((h.updRing _).sendPort ..)

theorem running (h : Noticed s t) : running t .rng = running s .rng :=
  running_of rfl (h.regs (Reg.sts .rng) (by decide) (by decide) (by decide)) h.chip
theorem serhash (h : Noticed s t) : serhash t = serhash s := by rw [Machine.serhash, h.chip, Machine.serhash]
theorem groupTime (h : Noticed s t) (ho : t.ring.offset = s.ring.offset) : groupTime t = groupTime s := by
  rw [Machine.groupTime, h.tb, ho, Machine.groupTime]
/-- The window is that of the ring's state, which nothing else here decides (Table 13-8). -/
theorem insideWin (h : Noticed s t) (hr : t.ring = s.ring) : insideWin t = insideWin s := by
  have hd : rd t Reg.rngDefSched = rd s Reg.rngDefSched := h.regs _ (by decide) (by decide) (by decide)
  have hw : winSource t = winSource s := by
    simp only [winSource, defSlots, rdField, hr, hd, h.tb, h.serhash, h.groupTime (congrArg Ring.offset hr)]
  rw [Machine.insideWin, hw, Machine.insideWin]

end Noticed

theorem ringCause_sets (s : State) {k : Nat} (hk : k < 64) : bitOf (rd (ringCause s k) Reg.rngCause) k = true := by
  unfold ringCause setCause
  split
  · assumption
  · exact bitOf_raise_orReg _ rfl hk
/-- A cause that was set stays set. -/
theorem Noticed.caused {k : Nat} (h : Noticed (Machine.ringCause s k) t) (hk : k < 64) : bitOf (rd t Reg.rngCause) k = true :=
  h.causes k hk (ringCause_sets s hk)

/-! ## The ring's state after them -/

theorem reclaimPace_ring (s : State) : (reclaimPace s).ring = s.ring := (reclaimPace_only s).same .ring (by decide)
theorem ringNotice_ring (s : State) : (ringNotice s).ring = s.ring := asyncBoth_ring s 7 3 0xC2
theorem plmNotice_ring (s : State) (p : Port) : (plmNotice s p).ring = s.ring :=
  (plmNotice_frame (F := signals) (.refl _ s) (by decide) (by decide) (by decide) (by decide) (by decide)).same .ring (by decide)

theorem updWindow_ring (s : State) : (updWindow s).ring = { s.ring with inWin := insideWin s } := by
  unfold updWindow
  dsimp only
  split
  · rename_i h
    rw [h]
  · simp only [reclaimPace_ring, ringCause_ring, plmNotice_ring, wrField_ring, updRing_ring]
theorem updUnsync_ring (s : State) (b : Bool) : (updUnsync s b).ring = { s.ring with unsync := b } := by
  unfold updUnsync
  split
  · rename_i h
    rw [h]
  · rw [ringNotice_ring, ringCause_ring, updRing_ring]

/-- What follows in the ring's state from what is heard (R327, R330, R332, R343). -/
def settled (r : Ring) : Ring :=
  { r with
    topo := topoOf r, role := roleOf r, upstream := upstreamOf r
    holdover := r.holdover || (r.upstream.isSome && upstreamOf r != r.upstream &&
      (match r.upstream with | some p => linkOf r p != .up | none => false))
    rejoined := r.rejoined && !(r.sched.isNone && pmSseq r == some 0) }

/-- From s to t only causes are set and notices given. -/
structure Told (s t : State) : Prop where
  noticed : Noticed s t
  ring : t.ring = s.ring

namespace Told

theorem refl (s : State) : Told s s := ⟨.refl s, rfl⟩
theorem ite {c : Prop} [Decidable c] (h : Told z s) (k : Told z t) : Told z (if c then s else t) := by split <;> assumption
theorem ringCause (h : Told z s) (bit : Nat) : Told z (ringCause s bit) := ⟨h.noticed.ringCause bit, (ringCause_ring s bit).trans h.ring⟩
theorem ringNotice (h : Told z s) : Told z (ringNotice s) := ⟨h.noticed.ringNotice, (ringNotice_ring s).trans h.ring⟩
theorem updWindow_ring (h : Told s t) : (updWindow t).ring = { s.ring with inWin := insideWin s } := by
  rw [Machine.updWindow_ring, h.ring, h.noticed.insideWin h.ring]

end Told

theorem refresh_ring (old : Ring) (s : State) :
    (refresh old s).ring = { settled s.ring with inWin := insideWin (updRing s settled) } := by
  have hset := Told.refl (updRing s settled)
  have hreach := Told.ite (c := (settled s.ring).topo != old.topo || reachSet (settled s.ring) != reachSet old) (hset.ringCause 2) hset
  have hrole := Told.ite (c := (settled s.ring).role != old.role) (hreach.ringCause 4) hreach
  exact (Told.ite (c := (settled s.ring).topo != old.topo || (settled s.ring).role != old.role) hrole.ringNotice hrole).updWindow_ring

theorem toState_ring (s : State) (x : RingSt) (h : s.ring.st ≠ x) :
    (toState s x).ring = { s.ring with
      st := x, tchange := s.clk.tb, changes := s.ring.changes + 1, unsync := if x = .member then s.ring.unsync else true } := by
  unfold toState
  rw [if_neg h]
  by_cases hx : x = .member
  · simp only [if_pos hx, ringNotice_ring, ringCause_ring, updRing_ring]
  · simp only [if_neg hx, updUnsync_ring, ringNotice_ring, ringCause_ring, updRing_ring]

end Sys2Proof.Machine
end
section
/-! PROOFS. Rules of the ring's dispatches: what goes out (R321, R323), and what becomes of one that is received (R322, R323). For O44 to
O49. -/

namespace Sys2Proof.Machine

open Claims

variable {z s t u : State} {p : RingPort} {typ dst src ttl seq : Nat} {pl : List Byte}

theorem running_active {b : Blk} (h : running s b = true) : active s b = true := by
  simp only [running, Bool.and_eq_true] at h
  obtain ⟨⟨hactive, -⟩, -⟩ := h
  exact hactive

/-! ## Sending -/

theorem sendPort_only (s : State) (p : RingPort) (typ dst src ttl seq : Nat) (pl : List Byte) :
    OnlyChanges [.out] s (sendPort s p typ dst src ttl seq pl) := sendPort_frame (.refl _ s) (by decide)
theorem sendPort_ring (s : State) (p : RingPort) (typ dst src ttl seq : Nat) (pl : List Byte) :
    (sendPort s p typ dst src ttl seq pl).ring = s.ring := (sendPort_only s p typ dst src ttl seq pl).same .ring (by decide)
theorem mem_sendPort_of {o : Out} (h : o ∈ s.out) : o ∈ (sendPort s p typ dst src ttl seq pl).out := by
  unfold sendPort
  split
  · exact List.mem_append_left _ h
  · exact h
theorem sendPort_up (h : linkOf s.ring p = .up) :
    sendPort s p typ dst src ttl seq pl = emit s (frameOut p typ dst src ttl seq pl) := if_pos h
theorem mem_sendPort (h : linkOf s.ring p = .up) : frameOut p typ dst src ttl seq pl ∈ (sendPort s p typ dst src ttl seq pl).out := by
  rw [sendPort_up h]
  exact List.mem_append_right _ (List.mem_singleton.2 rfl)
/-- On both ports: on each that is UP the frame goes out. -/
theorem mem_sendPort_both (h : linkOf s.ring p = .up) : frameOut p typ dst src ttl seq pl ∈
    (sendPort (sendPort s .east typ dst src ttl seq pl) .west typ dst src ttl seq pl).out := by
  cases p with
  | east => exact mem_sendPort_of (mem_sendPort h)
  | west => exact mem_sendPort (by rwa [sendPort_ring])

/-- The SEQ after a dispatch of the unit's own. -/
def nextSeq (s : State) : Nat := if running s .rng then (s.ring.seq + 1) % 65536 else s.ring.seq
theorem nextSeq_running (h : running s .rng = true) : nextSeq s = (s.ring.seq + 1) % 65536 := if_pos h

/-- The next dispatch's number is taken. -/
def numbered (s : State) : State := updRing s fun r => { r with seq := (s.ring.seq + 1) % 65536 }

theorem sendAll_running (h : running s .rng = true) : sendAll s typ dst pl =
    sendPort (sendPort (numbered s) .east typ dst (ownSrc s) 64 s.ring.seq pl) .west
      typ dst (ownSrc s) 64 s.ring.seq pl := by
  unfold sendAll
  rw [h]
  rfl
theorem sendAll_stopped (h : ¬ running s .rng = true) : sendAll s typ dst pl = s := if_pos (by simpa using h)
theorem sendNear_running (h : running s .rng = true) : sendNear s p typ pl =
    sendPort (numbered s) p typ 0x40 (ownSrc s) 64 s.ring.seq pl := by
  unfold sendNear
  rw [h]
  rfl
theorem sendNear_stopped (h : ¬ running s .rng = true) : sendNear s p typ pl = s := if_pos (by simpa using h)

theorem sendAll_only (s : State) (typ dst : Nat) (pl : List Byte) : OnlyChanges [.ring, .out] s (sendAll s typ dst pl) :=
  sendAll_frame (.refl _ s) (by decide) (by decide)
theorem sendNear_only (s : State) (p : RingPort) (typ : Nat) (pl : List Byte) : OnlyChanges [.ring, .out] s (sendNear s p typ pl) :=
  sendNear_frame (.refl _ s) (by decide) (by decide)
theorem sendRepeat_only (s : State) (typ dst : Nat) (pl : List Byte) : OnlyChanges [.ring, .out] s (sendRepeat s typ dst pl) :=
  sendRepeat_frame (.refl _ s) (by decide) (by decide)

theorem sendAll_ring (s : State) (typ dst : Nat) (pl : List Byte) : (sendAll s typ dst pl).ring = { s.ring with seq := nextSeq s } := by
  by_cases h : running s .rng = true
  · rw [sendAll_running h, sendPort_ring, sendPort_ring, nextSeq_running h, numbered, updRing_ring]
  · rw [sendAll_stopped h, nextSeq, if_neg h]
theorem sendNear_ring (s : State) (p : RingPort) (typ : Nat) (pl : List Byte) :
    (sendNear s p typ pl).ring = { s.ring with seq := nextSeq s } := by
  by_cases h : running s .rng = true
  · rw [sendNear_running h, sendPort_ring, nextSeq_running h, numbered, updRing_ring]
  · rw [sendNear_stopped h, nextSeq, if_neg h]
theorem sendAll_out_subset (s : State) (typ dst : Nat) (pl : List Byte) : s.out ⊆ (sendAll s typ dst pl).out := by
  by_cases h : running s .rng = true
  · rw [sendAll_running h]
    exact fun o ho => mem_sendPort_of (mem_sendPort_of ho)
  · rw [sendAll_stopped h]
    exact List.Subset.refl _
theorem sendNear_out_subset (s : State) (p : RingPort) (typ : Nat) (pl : List Byte) : s.out ⊆ (sendNear s p typ pl).out := by
  by_cases h : running s .rng = true
  · rw [sendNear_running h]
    exact fun o ho => mem_sendPort_of ho
  · rw [sendNear_stopped h]
    exact List.Subset.refl _

theorem sent_sendAll (h : running s .rng = true) : Sent s (sendAll s typ dst pl) typ dst pl := fun p hp => by
  rw [sendAll_running h]
  exact mem_sendPort_both hp
theorem Sent.later (h : Sent s t typ dst pl) (ho : t.out ⊆ u.out) : Sent s u typ dst pl := fun p hp => ho (h p hp)

/-- A neighbour dispatch on a port that is UP is all that goes out. -/
theorem sendNear_out (h : running s .rng = true) (hp : linkOf s.ring p = .up) :
    (sendNear s p typ pl).out = s.out ++ [frameOut p typ 0x40 (ownSrc s) 64 s.ring.seq pl] := by
  rw [sendNear_running h, sendPort_up (s := numbered s) hp]
  rfl
theorem sentNear_sendNear (h : running s .rng = true) (hp : linkOf s.ring p = .up) :
    SentNear s (sendNear s p typ pl) p typ (ownSrc s) pl := by
  rw [SentNear, sendNear_out h hp]
  exact List.mem_append_right _ (List.mem_singleton.2 rfl)

/-- What is remembered of a dispatch that is to be repeated (R323). -/
def repeatOf (s : State) (typ dst : Nat) (pl : List Byte) : Repeat :=
  { typ, dst, seq := s.ring.seq, payload := pl, left := if dst = 0xFF then 2 else 3, acked := dst != 0xFF }
theorem sendRepeat_running (h : running s .rng = true) : sendRepeat s typ dst pl =
    updRing (sendAll s typ dst pl) fun r => { r with repeats := r.repeats ++ [repeatOf s typ dst pl] } := by
  unfold sendRepeat
  rw [h]
  rfl
theorem sendRepeat_stopped (h : ¬ running s .rng = true) : sendRepeat s typ dst pl = s := if_pos (by simpa using h)
theorem sendRepeat_ring (s : State) (typ dst : Nat) (pl : List Byte) : (sendRepeat s typ dst pl).ring = { s.ring with
    seq := nextSeq s, repeats := if running s .rng then s.ring.repeats ++ [repeatOf s typ dst pl] else s.ring.repeats } := by
  by_cases h : running s .rng = true
  · rw [sendRepeat_running h, updRing_ring, sendAll_ring, if_pos h]
  · rw [sendRepeat_stopped h, nextSeq, if_neg h, if_neg h]
theorem sendRepeat_ring_running (h : running s .rng = true) : (sendRepeat s typ dst pl).ring =
    { s.ring with seq := (s.ring.seq + 1) % 65536, repeats := s.ring.repeats ++ [repeatOf s typ dst pl] } := by
  rw [sendRepeat_ring, nextSeq_running h, if_pos h]
theorem sent_sendRepeat (h : running s .rng = true) : Sent s (sendRepeat s typ dst pl) typ dst pl := by
  rw [sendRepeat_running h]
  exact sent_sendAll h
theorem sendRepeat_out_subset (s : State) (typ dst : Nat) (pl : List Byte) : s.out ⊆ (sendRepeat s typ dst pl).out := by
  by_cases h : running s .rng = true
  · rw [sendRepeat_running h]
    exact sendAll_out_subset s typ dst pl
  · rw [sendRepeat_stopped h]
    exact List.Subset.refl _
theorem running_sendAll (s : State) (typ dst : Nat) (pl : List Byte) : running (sendAll s typ dst pl) .rng = running s .rng :=
  running_of rfl (rd_of_regs ((sendAll_only s typ dst pl).same .regs (by decide)) _) ((sendAll_only s typ dst pl).same .chip (by decide))
theorem running_sendRepeat (s : State) (typ dst : Nat) (pl : List Byte) : running (sendRepeat s typ dst pl) .rng = running s .rng :=
  running_of rfl (rd_of_regs ((sendRepeat_only s typ dst pl).same .regs (by decide)) _)
    ((sendRepeat_only s typ dst pl).same .chip (by decide))

/-! ## Receiving -/

variable {h : DispHdr} {gid : Option Nat} {use : State → State} {c : Instr} {P : State → Prop}

theorem near_up (hn : Near s h) : linkOf s.ring h.port = .up := by
  obtain ⟨hup, -⟩ := hn
  exact hup
theorem near_running (hn : Near s h) : running s .rng = true := by
  obtain ⟨-, -, hrun⟩ := hn
  exact hrun
theorem heard_running (hh : Heard s h gid) : running s .rng = true := by
  obtain ⟨⟨-, hrun, -⟩, -⟩ := hh
  exact hrun
theorem addressed_running (ha : Addressed s h gid) : running s .rng = true := by
  obtain ⟨⟨-, hrun, -⟩, -⟩ := ha
  exact hrun
theorem addressed_src (ha : Addressed s h gid) : h.src < 64 := by
  obtain ⟨⟨-, -, -, hsrc, -⟩, -⟩ := ha
  exact hsrc

/-- A neighbour dispatch is used as it comes (R322). -/
theorem receive_near (hn : Near s h) : receive s h typ gid pl use = use s := by
  obtain ⟨hup, hdst, hrun⟩ := hn
  unfold receive
  rw [hup, if_neg (by decide), if_pos hdst, if_pos (running_active hrun)]

/-- The dispatch is marked as seen. -/
def seenMark (s : State) (h : DispHdr) : State :=
  updRing s fun r => { r with seen := nset r.seen h.src ((seqMark (nget s.ring.seen h.src) h.seq).getD { newest := 0, marks := 0 }) }
/-- The dispatch is marked as seen from its origin, and forwarded where it is not for this unit alone. -/
def taken (s : State) (h : DispHdr) (typ : Nat) (pl : List Byte) : State :=
  let t := seenMark s h
  if t.ring.addr != some h.dst && 1 < h.ttl then sendPort t h.port.other typ h.dst h.src (h.ttl - 1) h.seq pl else t

/-- What is for this unit alone is not forwarded. -/
theorem taken_own {h : DispHdr} (ho : s.ring.addr = some h.dst) : taken s h typ pl = seenMark s h :=
  if_neg (by simp [seenMark, ho])

/-- From s to t a received dispatch was marked as seen, and perhaps forwarded and acknowledged. -/
structure Marked (s t : State) : Prop where
  only : OnlyChanges [.ring, .out] s t
  ring : ∃ seen, t.ring = { s.ring with seen }

theorem marked_taken (s : State) (h : DispHdr) (typ : Nat) (pl : List Byte) : Marked s (taken s h typ pl) := by
  unfold taken
  dsimp only
  split
  · exact ⟨sendPort_frame (updRing_frame (.refl _ s) (by decide)) (by decide), ⟨_, sendPort_ring _ _ _ _ _ _ _ _⟩⟩
  · exact ⟨updRing_frame (.refl _ s) (by decide), ⟨_, rfl⟩⟩

namespace Marked

theorem tb (k : Marked s t) : t.clk.tb = s.clk.tb := congrArg Clock.tb (k.only.same .clk (by decide))
theorem chip (k : Marked s t) : t.chip = s.chip := k.only.same .chip (by decide)
theorem rd (k : Marked s t) (a : Nat) : rd t a = rd s a := rd_of_regs (k.only.same .regs (by decide)) a
theorem running (k : Marked s t) : running t .rng = running s .rng := running_of rfl (k.rd _) k.chip
theorem serhash (k : Marked s t) : serhash t = serhash s := by rw [Machine.serhash, k.chip, Machine.serhash]
theorem ownSrc (k : Marked s t) : ownSrc t = ownSrc s := by
  obtain ⟨seen, hr⟩ := k.ring
  rw [Machine.ownSrc, hr, Machine.ownSrc]
theorem groupTime (k : Marked s t) : groupTime t = groupTime s := by
  obtain ⟨seen, hr⟩ := k.ring
  rw [Machine.groupTime, hr, k.tb, Machine.groupTime]
/-- What then goes out from this unit goes out as from s. -/
theorem sent (k : Marked s t) (h : Sent t u typ dst pl) : Sent s u typ dst pl := fun p hp => by
  obtain ⟨seen, hr⟩ := k.ring
  have hlink : linkOf t.ring p = .up := by
    rw [hr]
    cases p <;> exact hp
  have hout := h p hlink
  rwa [k.ownSrc, hr] at hout

end Marked

/-- What this unit makes of a first copy for it, once it is marked and forwarded: it acknowledges and uses it. -/
theorem receive_first (hf : FirstCopy s h gid) (hm : h.dst = 0xFF ∨ s.ring.addr = some h.dst) (hn : h.dst ≠ 0x40) :
    receive s h typ gid pl use = use (if h.dst != 0xFF && typ != 0x22 then
      sendAll (taken s h typ pl) 0x22 h.src (le 1 typ ++ le 2 h.seq) else taken s h typ pl) := by
  obtain ⟨hup, hrun, hsrc, hlow, hnew, hgid⟩ := hf
  have hmine : (active s .rng && (h.dst = 0xFF || s.ring.addr == some h.dst)) = true := by
    rw [running_active hrun]
    rcases hm with hm | hm <;> simp [hm]
  have hmarked := marked_taken s h typ pl
  unfold receive
  rw [hup, if_neg (by decide), if_neg hn, if_neg (by simpa using hsrc)]
  dsimp only
  rw [if_neg (by simp [hlow, Option.isSome_iff_ne_none.1 hnew]), if_pos hlow]
  have htaken : (taken s h typ pl).ring.gid = s.ring.gid := by
    obtain ⟨seen, hr⟩ := hmarked.ring
    rw [hr]
  have hack : ∀ t : State, t.ring.gid = s.ring.gid →
      (if h.dst != 0xFF && typ != 0x22 then sendAll t 0x22 h.src (le 1 typ ++ le 2 h.seq) else t).ring.gid = s.ring.gid := fun t ht => by
    split
    · rw [sendAll_ring]
      exact ht
    · exact ht
  have hgid' := hack _ htaken
  refine (if_neg (by rw [Bool.not_eq_true', Bool.not_eq_false]; exact hmine)).trans ?_
  split
  · rename_i g own hown
    have hsame : g = own := by
      have hown' : s.ring.gid = some own := hgid'.symm.trans hown
      simpa [hown'] using hgid
    exact if_pos hsame
  · rfl

theorem receive_heard (hh : Heard s h gid) : receive s h typ gid pl use = use (taken s h typ pl) := by
  obtain ⟨hf, hd⟩ := hh
  rw [receive_first hf (.inl hd) (by omega), if_neg (by simp [hd])]
theorem receive_addressed (ha : Addressed s h gid) (ht : typ ≠ 0x22) :
    receive s h typ gid pl use = use (sendAll (taken s h typ pl) 0x22 h.src (le 1 typ ++ le 2 h.seq)) := by
  obtain ⟨hf, hd, hme⟩ := ha
  rw [receive_first hf (.inr hme) (by omega), if_pos (by simp [ht]; omega)]
theorem receive_addressed_ack (ha : Addressed s h gid) : receive s h 0x22 gid pl use = use (taken s h 0x22 pl) := by
  obtain ⟨hf, hd, hme⟩ := ha
  rw [receive_first hf (.inr hme) (by omega), if_neg (by simp)]

/-- A command that receives a neighbour dispatch completes in what its use comes to. -/
theorem completes_near (hc : exec c s = .next u) (hu : u = receive s h typ gid pl use) (hn : Near s h) (hP : P (use s)) : Completes c s P :=
  completes_eq hc (hu.trans (receive_near hn)) hP
/-- A command that receives a broadcast completes in what its use comes to, once the broadcast is marked and forwarded. -/
theorem completes_heard (hc : exec c s = .next u) (hu : u = receive s h typ gid pl use) (hh : Heard s h gid)
    (hP : ∀ t, Marked s t → P (use t)) : Completes c s P :=
  completes_eq hc (hu.trans (receive_heard hh)) (hP _ (marked_taken s h typ pl))

end Sys2Proof.Machine
end
section
/-! PROOFS. O44: links (R320), beacons (R327), the timebase (R332, R334) and the taking of an address (R325). -/

namespace Sys2Proof.Machine

open Claims

variable {s t : State}

/-! ## Links and counts -/

theorem linkOf_setLink_same (s : State) (p : RingPort) (l : RingLink) : linkOf (setLink s p l).ring p = l := by cases p <;> rfl
theorem linkOf_setLink_other (s : State) (p : RingPort) (l : RingLink) : linkOf (setLink s p l).ring p.other = linkOf s.ring p.other := by
  cases p <;> rfl
theorem linkOf_refresh (old : Ring) (s : State) (p : RingPort) : linkOf (refresh old s).ring p = linkOf s.ring p := by
  rw [refresh_ring]
  cases p <;> rfl

/-- A port that trained is UP; the time of the unit's first is kept. -/
def cameUp (s : State) (p : RingPort) : State :=
  updRing (ringCause (setLink s p .up) 1) fun r =>
    { r with everUp := true, upAt := if r.everUp then r.upAt else (ringCause (setLink s p .up) 1).clk.tb }
theorem linkUpRing_up {p : RingPort} (h : linkOf s.ring p = .training) : linkUpRing s p false = refresh s.ring (cameUp s p) :=
  if_neg (by simp [h])
theorem linkUpRing_miswired {p : RingPort} (h : linkOf s.ring p = .training) :
    linkUpRing s p true = refresh s.ring (ringCause (ringCause (setLink s p .miswired) 1) 9) := if_neg (by simp [h])
/-- A departure from UP is counted for its port. -/
def downCounted (s : State) (p : RingPort) : State :=
  if linkOf s.ring p = .up then (match p with
    | .east => satAdd s Reg.rngDown 15 0 1 | .west => satAdd s Reg.rngDown 31 16 1) else s
theorem downCounted_east (h : linkOf s.ring .east = .up) : downCounted s .east = satAdd s Reg.rngDown 15 0 1 := if_pos h
theorem downCounted_west (h : linkOf s.ring .west = .up) : downCounted s .west = satAdd s Reg.rngDown 31 16 1 := if_pos h
theorem linkDownRing_eq {p : RingPort} (h : linkOf s.ring p ≠ .down) :
    linkDownRing s p = refresh s.ring (ringCause (setLink (downCounted s p) p .down) 1) := if_neg h
theorem rdField_downRing {p : RingPort} (s : State) (old : Ring) (hi lo : Nat) :
    rdField (refresh old (ringCause (setLink s p .down) 1)) Reg.rngDown hi lo = rdField s Reg.rngDown hi lo :=
  congrArg (bitsOf · hi lo) (((((Noticed.refl s).updRing _).ringCause 1).refresh old).regs _ (by decide) (by decide) (by decide))

/-- A dispatch that is dropped is counted, with its cause (R323). -/
theorem countForeign_counts (s : State) : (countForeign s).ring = s.ring ∧
    rdField (countForeign s) Reg.rngForeign 31 0 = min (rdField s Reg.rngForeign 31 0 + 1) (2 ^ 32 - 1) ∧
    bitOf (rd (countForeign s) Reg.rngCause) 10 = true := by
  refine ⟨(ringCause_ring _ _).trans (satAdd_ring ..), ?_, ringCause_sets _ (by decide)⟩
  have hkeep : rdField (countForeign s) Reg.rngForeign 31 0 = rdField (satAdd s Reg.rngForeign 31 0 1) Reg.rngForeign 31 0 :=
    congrArg (bitsOf · 31 0) (((Noticed.refl _).ringCause 10).regs _ (by decide) (by decide) (by decide))
  rw [hkeep, rdField_satAdd _ _ (by decide)]

/-! ## A measured offset (R334) -/

theorem toState_of_ne (s : State) (x : RingSt) : (if s.ring.st = x then s else toState s x) = toState s x := by
  unfold toState
  split <;> rfl
/-- A change of state writes the state, its time and count, and UNSYNC. -/
theorem toState_ring_fields (s : State) (x : RingSt) : ∃ tchange changes unsync,
    (toState s x).ring = { s.ring with st := x, tchange, changes, unsync } := by
  by_cases h : s.ring.st = x
  · refine ⟨s.ring.tchange, s.ring.changes, s.ring.unsync, ?_⟩
    rw [← h, toState, if_pos rfl]
  · exact ⟨_, _, _, toState_ring s x h⟩

theorem updWindow_updUnsync_ring (s : State) (b : Bool) : ∃ inWin,
    (updWindow (updUnsync s b)).ring = { s.ring with unsync := b, inWin } :=
  ⟨insideWin (updUnsync s b), by rw [updWindow_ring, updUnsync_ring]⟩
/-- A slew takes the offset as it is, and steps nothing. -/
theorem measure_slew {th : Int} (h : s.ring.locked = true ∨ th < 0) :
    (∃ unsync inWin, (measure s th).ring = { s.ring with offset := th, locked := true, holdover := false, unsync, inWin }) ∧
    Noticed s (measure s th) := by
  unfold measure
  rw [if_pos (by simpa using h)]
  obtain ⟨inWin, hr⟩ := updWindow_updUnsync_ring (updRing s fun r => { r with offset := th, locked := true, holdover := false })
    (!inSync th || s.ring.st != .member)
  exact ⟨⟨_, inWin, hr⟩, (((Noticed.refl s).updRing _).updUnsync _).updWindow⟩
/-- The first lock ahead of the timebase steps it by whole counts. -/
theorem measure_step {th : Int} (hl : s.ring.locked = false) (h : 0 ≤ th) :
    (∃ unsync inWin, (measure s th).ring =
      { s.ring with offset := th - 64 * ((th + 32) / 64), locked := true, holdover := false, unsync, inWin }) ∧
    Noticed (updClk s fun c => { c with tb := c.tb + ((th + 32) / 64).toNat }) (measure s th) := by
  unfold measure
  rw [if_neg (by simp [hl, h])]
  obtain ⟨inWin, hr⟩ := updWindow_updUnsync_ring
    (updRing (updClk s fun c => { c with tb := c.tb + ((th + 32) / 64).toNat })
      fun r => { r with offset := th - 64 * ((th + 32) / 64), locked := true, holdover := false })
    (!inSync (th - 64 * ((th + 32) / 64)) || s.ring.st != .member)
  exact ⟨⟨_, inWin, hr⟩, (((Noticed.refl _).updRing _).updUnsync _).updWindow⟩

/-! ## Beacons (R327) -/

/-- A beacon of a unit with an address, of the own group where this unit has one, is received as it is. -/
theorem beaconRecv_ours (h : DispHdr) {b : Beacon} (ha : b.addr < 64) (hg : s.ring.gid = none ∨ some b.gid = s.ring.gid) :
    beaconRecv s h b = receive s h 0x02 (some b.gid) (beaconBytes b) (beaconUse b) := by
  unfold beaconRecv
  rw [if_neg (by rcases hg with hg | hg <;> simp [← hg]), if_pos ha]
/-- Its address enters the reachable set, and its content is held. -/
theorem beaconUse_addressed (s : State) (b : Beacon) (ha : b.addr < 64) (hg : s.ring.gid = none ∨ some b.gid = s.ring.gid) :
    b.addr ∈ (beaconUse b s).ring.reach ∧ nget (beaconUse b s).ring.heard b.addr = some b := by
  unfold beaconUse
  rw [if_neg (by omega), refresh_ring]
  refine ⟨?_, nget_nset_same _ _ _⟩
  have hours : ¬ (s.ring.gid.isSome = true ∧ ¬ s.ring.gid = some b.gid) := by rcases hg with hg | hg <;> simp [← hg]
  by_cases hc : b.addr ∈ s.ring.reach <;> simp [settled, hours, hc]

/-! ## The taking of an address (R325) -/

/-- The unit has taken an address: it left its group, and holds the origin. -/
def enumTook (s : State) (next origin : Nat) : State :=
  refresh s.ring (toState (updRing s fun r =>
    { r with origin := some origin, addr := some next, gid := none, starting := false, reach := [], heard := [] }) .unenumerated)
theorem enumUse_takes {p : RingPort} {next dir tbmax origin : Nat} (ho : s.ring.origin = none) (hlow : next < 64) :
    enumUse p next dir tbmax origin s = if linkOf (enumTook s next origin).ring p.other = .up then
        sendNear (enumTook s next origin) p.other 0x10 (enumBytes (next + 1) dir (max tbmax s.clk.tb) origin)
      else sendAll (enumTook s next origin) 0x11 0xFF (le 1 (next + 1) ++ le 1 dir ++ le 8 (max tbmax s.clk.tb) ++ le 4 origin) := by
  unfold enumUse
  simp only [ho, toState_of_ne]
  rw [if_neg (by decide), if_neg (by simp), if_neg (by omega)]
  rfl
theorem enumTook_ring (s : State) (next origin : Nat) : ∃ x : Ring, (enumTook s next origin).ring = { x with
    origin := some origin, addr := some next, gid := none, east := s.ring.east, west := s.ring.west, seq := s.ring.seq } := by
  obtain ⟨tchange, changes, unsync, hr⟩ := toState_ring_fields (updRing s fun r =>
    { r with origin := some origin, addr := some next, gid := none, starting := false, reach := [], heard := [] }) .unenumerated
  refine ⟨(enumTook s next origin).ring, ?_⟩
  rw [enumTook, refresh_ring, hr]
  rfl
theorem enumTook_noticed (s : State) (next origin : Nat) : Noticed s (enumTook s next origin) :=
  (((Noticed.refl s).updRing _).toState _).refresh _

end Sys2Proof.Machine

namespace Sys2Proof.Proofs

open Machine Claims

/-! ## Links -/

theorem ringSignalDetect : Claims.ringSignalDetect := by
  intro s p hdown
  refine completes_eq rfl (if_neg (by simp [hdown])) ⟨?_, ringCause_sets _ (by decide), List.mem_append_right _ (List.mem_singleton.2 rfl)⟩
  rw [emit_ring, ringCause_ring, linkOf_setLink_same]

theorem ringLinkUp : Claims.ringLinkUp := by
  intro s p htrain
  constructor
  · have hn := Noticed.refl (ringCause (setLink s p .up) 1)
    have hl : ∀ q, linkOf (cameUp s p).ring q = linkOf (setLink s p .up).ring q := fun q => by
      rw [cameUp, updRing_ring, ringCause_ring]
      cases q <;> rfl
    refine completes_eq rfl (linkUpRing_up htrain) ⟨?_, ?_, ((hn.updRing _).refresh s.ring).caused (by decide)⟩
    · rw [linkOf_refresh, hl, linkOf_setLink_same]
    · rw [linkOf_refresh, hl, linkOf_setLink_other]
  · have hn := Noticed.refl (ringCause (ringCause (setLink s p .miswired) 1) 9)
    refine completes_eq rfl (linkUpRing_miswired htrain) ⟨?_, ?_, (hn.refresh s.ring).caused (by decide)⟩
    · rw [linkOf_refresh, ringCause_ring, ringCause_ring, linkOf_setLink_same]
    · rw [linkOf_refresh, ringCause_ring, ringCause_ring, linkOf_setLink_other]

theorem ringLinkDown : Claims.ringLinkDown := by
  intro s p hp
  refine completes_eq rfl (linkDownRing_eq hp)
    ⟨?_, ((Noticed.refl _).refresh s.ring).caused (by decide), fun hup he => ?_, fun hup hw => ?_⟩
  · rw [linkOf_refresh, ringCause_ring, linkOf_setLink_same]
  · subst he
    rw [rdField_downRing, downCounted_east hup]
    exact rdField_satAdd s Reg.rngDown (by decide) 1
  · subst hw
    rw [rdField_downRing, downCounted_west hup]
    exact rdField_satAdd s Reg.rngDown (by decide) 1

theorem link : Claims.link := by
  intro s h serial gid addr far hup
  constructor
  · intro hown
    have hours : ¬ (addr < 64 && s.ring.gid.isSome && s.ring.gid != some gid) = true := by
      rcases hown with ha | hg | hg
      · simp [show ¬ addr < 64 by omega]
      · simp [hg]
      · simp [hg]
    refine completes_eq rfl ((if_neg hup).trans (if_neg hours)) ⟨updRing_frame (.refl _ s) (by decide), ?_⟩
    cases h.port <;> rfl
  · intro g ha hg hne
    refine completes_eq rfl ((if_neg hup).trans (if_pos ?_)) (countForeign_counts s)
    simp [ha, hg, hne]

/-! ## Beacons -/

theorem beacon : Claims.beacon := by
  intro s h gid addr state ports n pm sseq hash strap hh ha
  have hgid : s.ring.gid = none ∨ some gid = s.ring.gid := by
    obtain ⟨⟨-, -, -, -, -, hg⟩, -⟩ := hh
    simpa using hg
  refine completes_heard rfl (beaconRecv_ours _ ha hgid) hh fun t ht => ?_
  obtain ⟨seen, hr⟩ := ht.ring
  exact beaconUse_addressed t _ ha (by rwa [hr])

/-! ## The timebase -/

theorem syncReq : Claims.syncReq := by
  intro s h t1 hn
  exact completes_near rfl rfl hn ⟨sendNear_out (near_running hn) (near_up hn), (sendNear_only _ _ _ _).mono (by decide)⟩

theorem syncRsp : Claims.syncRsp := by
  intro s h t1 t2 t3 t4 hn hst hup hl
  refine completes_eq rfl ((receive_near hn).trans (if_pos (by simp [hst, hup]))) ?_
  obtain ⟨⟨unsync, inWin, hr⟩, hm⟩ := measure_slew (s := s) (th := (((t2 : Int) - t1) + ((t3 : Int) - t4)) / 2) (.inl hl)
  rw [hr]
  exact ⟨rfl, rfl, hm.tb⟩

theorem syncRspFirst : Claims.syncRspFirst := by
  intro s h t1 t2 t3 t4 hn hst hup hl hth
  refine completes_eq rfl ((receive_near hn).trans (if_pos (by simp [hst, hup]))) ?_
  obtain ⟨⟨unsync, inWin, hr⟩, hm⟩ := measure_step hl hth
  have htb : (measure s ((((t2 : Int) - t1) + ((t3 : Int) - t4)) / 2)).clk.tb =
      s.clk.tb + (((((t2 : Int) - t1) + ((t3 : Int) - t4)) / 2 + 32) / 64).toNat := hm.tb
  rw [hr, htb]
  dsimp only
  refine ⟨rfl, ?_, ?_, ?_, ?_⟩ <;> omega

/-! ## Enumeration -/

theorem enumDropped : Claims.enumDropped := by
  intro s h next dir tbmax origin o hn ho hlt
  refine completes_near rfl rfl hn (if_pos ?_)
  rw [ho]
  exact decide_eq_true hlt

theorem enumTaken : Claims.enumTaken := by
  intro s h next dir tbmax origin hn ho hlow
  obtain ⟨x, hr⟩ := enumTook_ring s next origin
  have hlink : ∀ p, linkOf (enumTook s next origin).ring p = linkOf s.ring p := fun p => by
    rw [hr]
    cases p <;> rfl
  have hrun' : running (enumTook s next origin) .rng = true := (enumTook_noticed s next origin).running.trans (near_running hn)
  have hsrc : ownSrc (enumTook s next origin) = next := by rw [ownSrc, hr]; rfl
  have hseq : (enumTook s next origin).ring.seq = s.ring.seq := by rw [hr]
  refine completes_near rfl rfl hn ?_
  rw [enumUse_takes ho hlow]
  by_cases hother : linkOf s.ring h.port.other = .up
  · rw [if_pos ((hlink _).trans hother), sendNear_ring, hr]
    refine ⟨rfl, rfl, rfl, fun _ => ?_, fun hne => absurd hother hne⟩
    have hsent := sentNear_sendNear (typ := 0x10) (pl := enumBytes (next + 1) dir (max tbmax s.clk.tb) origin) hrun'
      ((hlink _).trans hother)
    rwa [SentNear, hsrc, hseq] at hsent
  · rw [if_neg (by rwa [hlink]), sendAll_ring, hr]
    refine ⟨rfl, rfl, rfl, fun he => absurd he hother, fun _ => ?_⟩
    have hsent := sent_sendAll (typ := 0x11) (dst := 0xFF)
      (pl := le 1 (next + 1) ++ le 1 dir ++ le 8 (max tbmax s.clk.tb) ++ le 4 origin) hrun' h.port ((hlink _).trans (near_up hn))
    rwa [hsrc, hseq] at hsent

/-- Settles O44, command by command: what a received dispatch comes to, and what `refresh` and `measure` write. -/
theorem ringLinksAndTime : Obligations.RingLinksAndTime :=
  ⟨ringSignalDetect, ringLinkUp, ringLinkDown, link, beacon, syncReq, syncRsp, syncRspFirst, enumTaken, enumDropped⟩

end Sys2Proof.Proofs
end
section
/-! PROOFS. O45: enumeration's end (R325), group state (R323), admission (R326), the postmaster (R330) and the first part of a schedule
(R336). -/

namespace Sys2Proof.Machine

open Claims

variable {s t : State}

/-! ## Enumeration's end (R325) -/

/-- Whatever is measured, the unit is locked and holds over no more. -/
theorem measure_ring (s : State) (th : Int) : ∃ offset unsync inWin,
    (measure s th).ring = { s.ring with offset, locked := true, holdover := false, unsync, inWin } := by
  by_cases hl : s.ring.locked = true ∨ th < 0
  · obtain ⟨⟨unsync, inWin, hr⟩, -⟩ := measure_slew hl
    exact ⟨th, unsync, inWin, hr⟩
  · rw [not_or, Bool.not_eq_true] at hl
    obtain ⟨⟨unsync, inWin, hr⟩, -⟩ := measure_step hl.1 (not_lt.1 hl.2)
    exact ⟨_, unsync, inWin, hr⟩

/-- What the end of an enumeration with n units writes in the ring's state. -/
def enumerated (s : State) (n tbmax : Nat) : State := updRing s fun r => { r with
  starting := false, retried := false, n := n, pmaddr := some 0, addr := some 0, gid := some (tbmax + 1048576), gstart := tbmax + 1048576
  tickDone := 0, geper := rdField s Reg.rngGeper 15 0
  sched := none, nextSched := none, rejoined := false, reach := [], heard := [], admitted := [] }

theorem enumDone_ring (s : State) (n tbmax : Nat) : ∃ x : Ring, (enumDone s n tbmax).ring = { x with
    st := .member, n := n, addr := some 0, pmaddr := some 0, role := 1, gid := some (tbmax + 2 ^ 20), gstart := tbmax + 2 ^ 20,
    starting := false, geper := rdField s Reg.rngGeper 15 0 } := by
  obtain ⟨tchange, changes, unsync, hmember⟩ := toState_ring_fields (enumerated s n tbmax) .member
  obtain ⟨offset, unsync, inWin, hmeasured⟩ := measure_ring (toState (enumerated s n tbmax) .member)
    (64 * (((tbmax + 1048576 : Nat) : Int) - (toState (enumerated s n tbmax) .member).clk.tb))
  refine ⟨(enumDone s n tbmax).ring, ?_⟩
  unfold enumDone
  dsimp only
  rw [toState_of_ne, ← enumerated, refresh_ring, sendRepeat_ring, ringCause_ring, hmeasured, hmember]
  rfl

/-! ## Group state (R325 step 5) -/

/-- The group that a GROUPSTATE describes, with the ticks that it places in the past marked. -/
def gsTook (s : State) (gid n pm gstart geper : Nat) : State :=
  let fresh := s.ring.st != .member
  let u := updRing s fun r => { r with
    gid := some gid, n := n, pmaddr := some pm, gstart := gstart, geper := geper
    sched := if fresh then none else r.sched
    nextSched := if fresh then none else r.nextSched
    rejoined := !fresh && r.rejoined
    starting := false }
  if fresh || s.ring.geper != geper || s.ring.gstart != gstart then updRing u fun r => { r with tickDone := tickIndex u } else u
theorem gsTook_ring (s : State) (gid n pm gstart geper : Nat) : ∃ x : Ring, (gsTook s gid n pm gstart geper).ring = { x with
    st := s.ring.st, gid := some gid, n := n, pmaddr := some pm, gstart := gstart, geper := geper } := by
  refine ⟨(gsTook s gid n pm gstart geper).ring, ?_⟩
  unfold gsTook
  dsimp only
  split <;> rfl
/-- A member stays one, and any other unit becomes one. -/
def gsJoined (s : State) (gid n pm gstart geper : Nat) : State :=
  if s.ring.st != .member then ringCause (toState (gsTook s gid n pm gstart geper) .member) 4 else gsTook s gid n pm gstart geper
theorem gsJoined_ring (s : State) (gid n pm gstart geper : Nat) : ∃ x : Ring, (gsJoined s gid n pm gstart geper).ring = { x with
    st := .member, gid := some gid, n := n, pmaddr := some pm, gstart := gstart, geper := geper } := by
  obtain ⟨x, hx⟩ := gsTook_ring s gid n pm gstart geper
  obtain ⟨tchange, changes, unsync, hr⟩ := toState_ring_fields (gsTook s gid n pm gstart geper) .member
  unfold gsJoined
  split
  · refine ⟨(toState (gsTook s gid n pm gstart geper) .member).ring, ?_⟩
    rw [ringCause_ring, hr, hx]
  · rename_i hst
    exact ⟨x, by rw [hx, show s.ring.st = .member by simpa using hst]⟩

theorem groupstate_told (h : DispHdr) (gid n pm gstart geper : Nat) : Machine.groupstate s h false gid n pm gstart geper =
    receive s h 0x12 (some gid) (gsBytes gid n pm gstart geper) fun t =>
      if t.ring.addr.isNone || t.ring.st = .isolated then t else refresh t.ring (gsJoined t gid n pm gstart geper) := rfl
theorem groupstate_asked (h : DispHdr) (gid n pm gstart geper : Nat) : Machine.groupstate s h true gid n pm gstart geper =
    receive s h 0x12 none [] fun t => if t.ring.role = 1 then sendRepeat t 0x12 h.src (ownGs t.ring) else t := rfl
/-- With the west port UP the pass goes on westward (R325 step 3). -/
theorem enumWest_up (count tbmax : Nat) (hw : s.ring.west = .up) : enumWest s count tbmax =
    sendNear (updRing s fun r => { r with eastDone := true, tbmax := max r.tbmax tbmax, count := count }) .west 0x10
      (enumBytes count 1 (max s.ring.tbmax tbmax) (serhash s)) := if_pos hw

/-! ## Admission (R326) -/

/-- The postmaster gives a new serial the address N. -/
def admitNew (s : State) (serial : Nat) : State :=
  updRing s fun r => { r with n := s.ring.n + 1, admitted := nset r.admitted serial s.ring.n }
/-- What the postmaster makes of a JOIN. -/
def joinUse (serial : Nat) (s : State) : State :=
  if s.ring.role != 1 then s else
  match nget s.ring.admitted serial with
  | some a => sendRepeat s 0x14 0xFF (admitBytes serial a (s.ring.gid.getD 0) s.ring.n)
  | none => if 64 ≤ s.ring.n then ringCause s 12 else
    refresh (admitNew s serial).ring
      (sendRepeat (admitNew s serial) 0x14 0xFF (admitBytes serial s.ring.n (s.ring.gid.getD 0) (s.ring.n + 1)))
theorem joinRecv_eq (h : DispHdr) (serial : Nat) : joinRecv s h serial = receive s h 0x13 none (le 24 serial) (joinUse serial) := rfl
theorem joinUse_new {serial : Nat} (hr : s.ring.role = 1) (hn : nget s.ring.admitted serial = none) :
    joinUse serial s = if 64 ≤ s.ring.n then ringCause s 12 else
      refresh (admitNew s serial).ring
        (sendRepeat (admitNew s serial) 0x14 0xFF (admitBytes serial s.ring.n (s.ring.gid.getD 0) (s.ring.n + 1))) := by
  unfold joinUse
  rw [if_neg (by simp [hr]), hn]

/-! ## Parts of a schedule (R336) -/

/-- A part of a schedule is stored. -/
def partHeld (s : State) (part sseq : Nat) (bytes : BitVec 384) : State :=
  updRing s fun r => { r with parts := nset r.parts part (sseq, bytes) }
/-- What a unit makes of a part: with all six the schedule is published or installed. -/
def schedTake (part sseq : Nat) (bytes : BitVec 384) (s : State) : State :=
  if s.ring.st != .member || 6 ≤ part then s else
  match schedJoined (partHeld s part sseq bytes).ring sseq with
  | none => partHeld s part sseq bytes
  | some d => if sseq = 0 then
      (if s.ring.role = 1 then schedPublish (updRing (partHeld s part sseq bytes) fun r => { r with parts := [] }) d
       else partHeld s part sseq bytes)
    else schedInstall (partHeld s part sseq bytes) d
theorem schedRecv_part (h : DispHdr) (part sseq : Nat) (bytes : BitVec 384) : schedRecv s h false part sseq bytes =
    receive s h 0x20 none (le 1 part ++ le 8 sseq ++ le 48 bytes.toNat) (schedTake part sseq bytes) := rfl
theorem schedTake_held {part sseq : Nat} {bytes : BitVec 384} (hst : s.ring.st = .member) (hp : part < 6)
    (hj : schedJoined (partHeld s part sseq bytes).ring sseq = none) : schedTake part sseq bytes s = partHeld s part sseq bytes := by
  unfold schedTake
  rw [if_neg (by simp [hst]; omega), hj]
theorem schedTake_whole {part sseq : Nat} {bytes : BitVec 384} {d : SchedDesc} (hst : s.ring.st = .member) (hp : part < 6) (h0 : sseq ≠ 0)
    (hj : schedJoined (partHeld s part sseq bytes).ring sseq = some d) :
    schedTake part sseq bytes s = schedInstall (partHeld s part sseq bytes) d := by
  unfold schedTake
  rw [if_neg (by simp [hst]; omega), hj]
  exact if_neg h0
/-- One part alone is no schedule. -/
theorem schedJoined_one (r : Ring) {part sseq : Nat} {bytes : BitVec 384} (hp : part < 6) (hr : r.parts = [(part, sseq, bytes)]) :
    schedJoined r sseq = none := by
  have hsix : List.range 6 = [0, 1, 2, 3, 4, 5] := rfl
  unfold schedJoined
  interval_cases part <;> simp [hr, hsix, nget]

end Sys2Proof.Machine

namespace Sys2Proof.Proofs

open Machine Claims

theorem enumend : Claims.enumend := by
  intro s h count tbmax origin hh hstart horigin
  refine completes_heard rfl rfl hh fun t ht => ?_
  obtain ⟨seen, hr⟩ := ht.ring
  obtain ⟨x, hd⟩ := enumDone_ring t count (max t.ring.tbmax tbmax)
  rw [if_neg (by simp [hr, hstart, horigin]), if_neg (by decide), hd]
  simp only [rdField, ht.rd, hr, and_self]

theorem enumendEast : Claims.enumendEast := by
  intro s h count tbmax origin hh hstart horigin heast hwest
  refine completes_heard rfl rfl hh fun t ht => ?_
  obtain ⟨seen, hr⟩ := ht.ring
  have hwest' : t.ring.west = .up := by rwa [hr]
  have hsent := sentNear_sendNear (s := updRing t fun r => { r with eastDone := true, tbmax := max r.tbmax tbmax, count := count })
    (p := .west) (typ := 0x10) (pl := enumBytes count 1 (max t.ring.tbmax tbmax) (serhash t)) (ht.running.trans (heard_running hh)) hwest'
  rw [if_neg (by simp [hr, hstart, horigin]), if_pos rfl, if_neg (by simp [hr, heast]), enumWest_up _ _ hwest']
  refine ⟨by rw [sendNear_ring]; rfl, by rw [sendNear_ring]; simp [hr, hstart], ?_⟩
  rw [SentNear, ownSrc, updRing_ring, hr] at hsent
  rwa [SentNear, ownSrc, hr, ← ht.serhash]

theorem groupstate : Claims.groupstate := by
  intro s h gid n pm gstart geper hh haddr hst
  refine completes_heard rfl (groupstate_told ..) hh fun t ht => ?_
  obtain ⟨seen, hr⟩ := ht.ring
  obtain ⟨x, hx⟩ := gsJoined_ring t gid n pm gstart geper
  have hin : ¬ (t.ring.addr.isNone || decide (t.ring.st = .isolated)) = true := by
    rw [hr]
    simp [hst, Option.isSome_iff_ne_none.1 haddr]
  rw [if_neg hin, refresh_ring, hx]
  exact ⟨rfl, rfl, rfl, rfl, rfl, rfl⟩

theorem groupstateRequested : Claims.groupstateRequested := by
  intro s h ha hrole
  have hrun := addressed_running ha
  have hsrc := addressed_src ha
  refine completes_eq rfl ((groupstate_asked ..).trans (receive_addressed ha (by decide))) ?_
  have ht := marked_taken s h 0x12 []
  obtain ⟨seen, hr⟩ := ht.ring
  have hack := sendAll_ring (taken s h 0x12 []) 0x22 h.src (le 1 0x12 ++ le 2 h.seq)
  have hrun' : running (taken s h 0x12 []) .rng = true := ht.running.trans hrun
  rw [nextSeq_running hrun', hr] at hack
  rw [if_pos (by rw [hack, hrole])]
  refine ⟨Sent.later (ht.sent (sent_sendAll hrun')) (sendRepeat_out_subset _ _ _ _), ?_⟩
  rw [sendRepeat_ring_running ((running_sendAll ..).trans hrun'), repeatOf, hack, if_neg (by omega), bne_iff_ne.2 (by omega)]
  rfl

theorem join : Claims.join := by
  intro s h serial hh hrole hnew hn
  refine completes_heard rfl (joinRecv_eq ..) hh fun t ht => ?_
  obtain ⟨seen, hr⟩ := ht.ring
  have hcount : t.ring.n = s.ring.n := by rw [hr]
  have hgid : t.ring.gid = s.ring.gid := by rw [hr]
  rw [joinUse_new (by rw [hr, hrole]) (by rw [hr, hnew]), if_neg (by omega), refresh_ring,
    sendRepeat_ring_running (s := admitNew t serial) (ht.running.trans (heard_running hh)), ← hcount, ← hgid]
  exact ⟨rfl, nget_nset_same _ _ _, t.ring.seq, List.mem_append_right _ (List.mem_singleton.2 rfl)⟩

theorem joinRefused : Claims.joinRefused := by
  intro s h serial hh hrole hnew hn
  refine completes_heard rfl (joinRecv_eq ..) hh fun t ht => ?_
  obtain ⟨seen, hr⟩ := ht.ring
  rw [joinUse_new (by rw [hr, hrole]) (by rw [hr, hnew]), if_pos (by rw [hr]; exact hn), ringCause_ring, hr]
  exact ⟨ringCause_sets _ (by decide), rfl, rfl⟩

theorem ringAdmit : Claims.ringAdmit := by
  intro s h addr gid n hh haddr
  refine completes_heard rfl rfl hh fun t ht => ?_
  obtain ⟨seen, hr⟩ := ht.ring
  rw [if_pos (by simp [hr, haddr, ht.chip]), refresh_ring]
  exact ⟨rfl, rfl, rfl⟩

theorem role : Claims.role := by
  intro s h pm prev hh hst
  refine completes_heard rfl rfl hh fun t ht => ?_
  obtain ⟨seen, hr⟩ := ht.ring
  rw [if_neg (by simp [hr, hst]), refresh_ring]
  exact ⟨rfl, by rw [← hst, ← congrArg Ring.st hr]; rfl⟩

theorem sched : Claims.sched := by
  intro s h part sseq bytes hh hst hpart hparts
  refine completes_heard rfl (schedRecv_part ..) hh fun t ht => ?_
  obtain ⟨seen, hr⟩ := ht.ring
  have hone : (partHeld t part sseq bytes).ring.parts = [(part, sseq, bytes)] := by
    rw [partHeld, updRing_ring, hr]
    dsimp only
    rw [hparts]
    rfl
  rw [schedTake_held (by rw [hr, hst]) hpart (schedJoined_one _ hpart hone), hone, partHeld, updRing_ring, hr]
  exact ⟨rfl, rfl, rfl⟩

/-- Settles O45, command by command: each dispatch's use, with what the end of an enumeration writes. -/
theorem ringEnumeration : Obligations.RingEnumeration :=
  ⟨enumend, enumendEast, groupstate, groupstateRequested, join, joinRefused, ringAdmit, role, sched⟩

end Sys2Proof.Proofs
end
section
/-! PROOFS. O46: a whole schedule (R336), acknowledgements (R323), activations (R341) and the relay of images (R342). -/

namespace Sys2Proof.Machine

open Claims

variable {s t : State}

/-! ## A whole schedule (R336) -/

/-- A schedule is taken: at once where its EFF has passed, else it is the next one. -/
def schedTook (s : State) (d : SchedDesc) : State := updRing s fun r => { r with
  sched := if d.eff ≤ groupTime s then some d else r.sched
  nextSched := if d.eff ≤ groupTime s then none else some d
  rejoined := if d.eff ≤ groupTime s then false else r.rejoined
  parts := [] }
/-- Where no Collection Schedule command waits, no more follows than its cause and the window. -/
theorem schedInstall_unwaited {d : SchedDesc} (h : s.ring.schedWait = none) :
    schedInstall s d = updWindow (ringCause (schedTook s d) 5) := by
  unfold schedInstall
  simp only [updRing_ring, h]
  rfl

/-! ## The relay (R342) -/

theorem txOf_setTx_same (s : State) (p : RingPort) (x : Relay) : txOf (setTx s p x).ring p = x := by cases p <;> rfl
theorem txOf_setTx_other (s : State) (p : RingPort) (x : Relay) : txOf (setTx s p x).ring p.other = txOf s.ring p.other := by
  cases p <;> rfl

/-- The images of the NOR slots are held too. -/
def noteImg (s : State) (l : List Nat) (k : Nat) : List Nat :=
  if l.contains (digest16 (slotImage s k)) then l else digest16 (slotImage s k) :: l
def imgsNoted (s : State) : State := updRing s fun r => { r with haveImgs := [0, 1].foldl (noteImg s) r.haveImgs }
theorem relOfferHeld_eq (h : DispHdr) (size digest : Nat) : relOfferHeld s h size digest = relOffer (imgsNoted s) h size digest := rfl
theorem mem_noteImg (s : State) (l : List Nat) (k d : Nat) : d ∈ noteImg s l k ↔ d ∈ l ∨ digest16 (slotImage s k) = d := by
  unfold noteImg
  split
  · rename_i hc
    refine ⟨.inl, fun h => h.elim id fun he => he ▸ List.contains_iff_mem.1 hc⟩
  · rw [List.mem_cons, or_comm, eq_comm]
theorem mem_imgsNoted (s : State) (d : Nat) : d ∈ (imgsNoted s).ring.haveImgs ↔
    (d ∈ s.ring.haveImgs ∨ digest16 (slotImage s 0) = d) ∨ digest16 (slotImage s 1) = d := by
  rw [← mem_noteImg, ← mem_noteImg]
  rfl

theorem near_imgsNoted {h : DispHdr} (hn : Near s h) : Near (imgsNoted s) h := by
  obtain ⟨hup, hdst, hrun⟩ := hn
  refine ⟨?_, hdst, hrun⟩
  rw [← hup]
  cases h.port <;> rfl

/-- The reception of an offered image begins. -/
def recvBegun (s : State) (p : RingPort) (size digest : Nat) : State := updRing s fun r => { r with
  rx := { digest, size, next := 0, sent := 0, active := true }, rxFrom := some p, rxImage := [] }
theorem relOffer_held {h : DispHdr} {size digest : Nat} (hn : Near s h) (hr : relays s = true) (hs : size ≤ 2 ^ 24)
    (hd : digest ∈ s.ring.haveImgs) : Machine.relOffer s h size digest = sendNear s h.port 0x43 (le 16 digest) :=
  (receive_near hn).trans ((if_neg (by simpa [hr] using hs)).trans (if_pos (List.contains_iff_mem.2 hd)))
theorem relOffer_begins {h : DispHdr} {size digest : Nat} (hn : Near s h) (hr : relays s = true) (hs : size ≤ 2 ^ 24)
    (hd : digest ∉ s.ring.haveImgs) (hx : s.ring.rx.active = false) :
    Machine.relOffer s h size digest = sendNear (recvBegun s h.port size digest) h.port 0x42 (le 4 0) := by
  refine (receive_near hn).trans ((if_neg (by simpa [hr] using hs)).trans ((if_neg (by simpa using hd)).trans ?_))
  rw [hx]
  rfl

/-- The wanted chunk is stored. -/
def chunkStored (s : State) (bytes : List Byte) : State := updRing s fun r => { r with
  rx := { s.ring.rx with next := s.ring.rx.next + 1 }, rxImage := (r.rxImage ++ bytes).take s.ring.rx.size }
theorem relData_wanted {h : DispHdr} {bytes : List Byte} (hn : Near s h) (hr : relays s = true) (ha : s.ring.rx.active = true)
    (hf : s.ring.rxFrom = some h.port) : Machine.relData s h s.ring.rx.next bytes =
      if (s.ring.rx.next + 1) % 16 = 0 || relChunks s.ring.rx.size ≤ s.ring.rx.next + 1
      then sendNear (chunkStored s bytes) h.port 0x42 (le 4 (s.ring.rx.next + 1)) else chunkStored s bytes := by
  refine (receive_near hn).trans (if_neg ?_)
  simp [hr, ha, hf]
theorem relData_unwanted {h : DispHdr} {index : Nat} {bytes : List Byte} (hn : Near s h) (hi : index ≠ s.ring.rx.next) :
    Machine.relData s h index bytes = s := (receive_near hn).trans (if_pos (by simp [hi]))
theorem relayVerify_unfinished (h : relayWhole s.ring = false) : relayVerify s = s := if_pos (by simp [h])

/-- The last chunk that may be sent, and what has been sent afterwards. -/
theorem txOf_sendChunks (s : State) (p : RingPort) : txOf (sendChunks s p).ring p = { txOf s.ring p with
    sent := max (txOf s.ring p).sent (min (relChunks (txOf s.ring p).size) ((txOf s.ring p).next + 64)) } :=
  txOf_setTx_same _ _ _

end Sys2Proof.Machine

namespace Sys2Proof.Proofs

open Machine Claims

theorem schedWhole : Claims.schedWhole := by
  intro s h part sseq bytes d hh hst hpart h0 hwait hj
  refine completes_heard rfl (schedRecv_part ..) hh fun t ht => ?_
  obtain ⟨seen, hr⟩ := ht.ring
  have hj' : schedJoined (partHeld t part sseq bytes).ring sseq = some d := by
    rw [partHeld, updRing_ring, hr]
    exact hj
  have htime : groupTime (partHeld t part sseq bytes) = groupTime s := ht.groupTime
  have hcause := (Noticed.refl (ringCause (schedTook (partHeld t part sseq bytes) d) 5)).updWindow.caused (by decide)
  rw [schedTake_whole (by rw [hr, hst]) hpart h0 hj', schedInstall_unwaited (by rw [partHeld, updRing_ring, hr, hwait])]
  refine ⟨by rw [updWindow_ring, ringCause_ring]; rfl, hcause, fun he => ?_, fun he => ?_⟩
  · rw [updWindow_ring, ringCause_ring, schedTook, updRing_ring, htime]
    exact ⟨if_pos he, if_pos he⟩
  · rw [updWindow_ring, ringCause_ring, schedTook, updRing_ring, htime]
    exact ⟨(if_neg (not_le.2 he)).trans (by rw [partHeld, updRing_ring, hr]), if_neg (not_le.2 he)⟩

theorem ack : Claims.ack := by
  intro s h typ seq ha
  refine completes_eq rfl (receive_addressed_ack ha) ?_
  obtain ⟨-, -, hme⟩ := ha
  rw [taken_own hme]
  refine ⟨rfl, fun x => List.mem_filter.trans (and_congr_right fun _ => ?_)⟩
  rw [Bool.not_eq_true', ← Bool.not_eq_true]
  simp only [Bool.and_eq_true, beq_iff_eq, and_assoc]

theorem act : Claims.act := by
  intro s h digest tact step hh
  exact completes_heard rfl rfl hh fun t _ => rfl

theorem relOffer : Claims.relOffer := by
  intro s h size digest hn hr hs hnew hslots hrx
  have hnew' : digest ∉ (imgsNoted s).ring.haveImgs := fun hm => by
    rcases (mem_imgsNoted s digest).1 hm with (hm | hm) | hm
    · exact hnew hm
    · exact hslots 0 (by decide) hm
    · exact hslots 1 (by decide) hm
  have hn' := near_imgsNoted hn
  refine completes_eq rfl ((relOfferHeld_eq ..).trans (relOffer_begins hn' hr hs hnew' hrx)) ?_
  have hsent := sentNear_sendNear (s := recvBegun (imgsNoted s) h.port size digest) (typ := 0x42) (pl := le 4 0)
    (near_running hn) (near_up hn')
  rw [sendNear_ring]
  exact ⟨rfl, rfl, rfl, hsent⟩

theorem relOfferHeld : Claims.relOfferHeld := by
  intro s h size digest hn hr hs hheld
  have hn' := near_imgsNoted hn
  refine completes_eq rfl ((relOfferHeld_eq ..).trans (relOffer_held hn' hr hs ((mem_imgsNoted s digest).2 (.inl (.inl hheld))))) ?_
  have hsent := sentNear_sendNear (typ := 0x43) (pl := le 16 digest) (near_running hn') (near_up hn')
  rw [sendNear_ring]
  exact ⟨rfl, hsent⟩

theorem relData : Claims.relData := by
  intro s h bytes hn hr hact hfrom hmore hlen
  have hstored : (chunkStored s bytes).ring.rxImage = s.ring.rxImage ++ bytes :=
    List.take_of_length_le (by rw [List.length_append]; omega)
  have hup : linkOf (chunkStored s bytes).ring h.port = .up := by
    rw [← near_up hn]
    cases h.port <;> rfl
  have hsent := sentNear_sendNear (s := chunkStored s bytes) (typ := 0x42) (pl := le 4 (s.ring.rx.next + 1)) (near_running hn) hup
  have hopen : ∀ t : State, t.ring.rx.size = s.ring.rx.size → t.ring.rxImage = s.ring.rxImage ++ bytes → relayVerify t = t := by
    intro t hsize himg
    refine relayVerify_unfinished ?_
    rw [relayWhole, hsize, himg, List.length_append, decide_eq_false (by omega)]
    simp
  by_cases h16 : (s.ring.rx.next + 1) % 16 = 0
  · have hack : Machine.relData s h s.ring.rx.next bytes = sendNear (chunkStored s bytes) h.port 0x42 (le 4 (s.ring.rx.next + 1)) :=
      (relData_wanted hn hr hact hfrom).trans (if_pos (by simp [h16]))
    refine completes_eq rfl ((congrArg relayVerify hack).trans (hopen _ ?_ ?_)) ⟨?_, ?_, fun _ => hsent⟩ <;> rw [sendNear_ring]
    · rfl
    · exact hstored
    · rfl
    · exact hstored
  · have hquiet : Machine.relData s h s.ring.rx.next bytes = chunkStored s bytes :=
      (relData_wanted hn hr hact hfrom).trans (if_neg (by simp [h16]; omega))
    exact completes_eq rfl ((congrArg relayVerify hquiet).trans (hopen _ rfl hstored)) ⟨rfl, hstored, fun h0 => absurd h0 h16⟩

theorem relDataIgnored : Claims.relDataIgnored := by
  intro s h index bytes hn hi hw
  refine ⟨_, rfl, ?_⟩
  rw [relDataVerify, relData_unwanted hn hi, relayVerify_unfinished hw]

theorem relAck : Claims.relAck := by
  intro s h next hn hact hst
  refine completes_near rfl rfl hn ?_
  rw [if_neg (by simp [hact, hst])]
  by_cases hdone : relChunks (txOf s.ring h.port).size ≤ next
  · rw [if_pos hdone, txOf_setTx_same]
    exact ⟨rfl, fun _ => ⟨rfl, rfl⟩, fun hlt => absurd hdone (not_le.2 hlt)⟩
  · rw [if_neg hdone, txOf_sendChunks, txOf_setTx_same]
    exact ⟨rfl, fun hle => absurd hle hdone, fun _ => rfl⟩

theorem relHave : Claims.relHave := by
  intro s h hn
  refine completes_near rfl rfl hn ?_
  rw [if_pos rfl]
  exact ⟨by rw [txOf_setTx_same], txOf_setTx_other _ _ _⟩

/-- Settles O46, command by command: each dispatch's use, with what a whole schedule and a stored chunk write. -/
theorem ringSchedules : Obligations.RingSchedules :=
  ⟨schedWhole, ack, act, relOffer, relOfferHeld, relData, relDataIgnored, relAck, relHave⟩

end Sys2Proof.Proofs
end
section
/-! PROOFS. O47: firmware dispatches and those that are dropped (R321 to R323), RNG_TXCTL, RX_POP and RNG_CMD (Table 13-13, R326), beacons
and the reachable set (R327). -/

namespace Sys2Proof.Machine

open Claims

variable {s t : State}

/-! ## What is dropped -/

theorem ringCause_out (s : State) (k : Nat) : s.out ⊆ (ringCause s k).out := by
  unfold ringCause setCause
  split
  · exact List.Subset.refl _
  · obtain ⟨l, hl⟩ := raise_out (s := orReg s Reg.rngCause (2 ^ k)) (ringSrc k)
    rw [hl]
    exact List.subset_append_left _ _
theorem countForeign_out (s : State) : s.out ⊆ (countForeign s).out := by
  have hout : (satAdd s Reg.rngForeign 31 0 1).out = s.out := satAdd_out ..
  have := ringCause_out (satAdd s Reg.rngForeign 31 0 1) 10
  rwa [hout] at this

/-- A repeated copy goes no further (R322). -/
theorem receive_repeated {h : DispHdr} {typ : Nat} {gid : Option Nat} {pl : List Byte} {use : State → State}
    (hup : linkOf s.ring h.port = .up) (hdst : h.dst ≠ 0x40) (hsrc : h.src < 64) (hseq : seqMark (nget s.ring.seen h.src) h.seq = none) :
    receive s h typ gid pl use = s := by
  unfold receive
  rw [hup, if_neg (by decide), if_neg hdst]
  split
  · rfl
  · exact if_pos (by simp [hsrc, hseq])

/-- What is forwarded goes out on the other port with TTL one less (R322). -/
theorem mem_taken {h : DispHdr} {typ : Nat} {pl : List Byte} (ht : 1 < h.ttl) (ha : s.ring.addr ≠ some h.dst)
    (hup : linkOf s.ring h.port.other = .up) : frameOut h.port.other typ h.dst h.src (h.ttl - 1) h.seq pl ∈ (taken s h typ pl).out := by
  have hon : ((seenMark s h).ring.addr != some h.dst && decide (1 < h.ttl)) = true := by simp [seenMark, ha, ht]
  have hup' : linkOf (seenMark s h).ring h.port.other = .up := by
    rw [← hup]
    cases h.port.other <;> rfl
  unfold taken
  rw [if_pos hon]
  exact mem_sendPort hup'

/-- A dispatch of a reserved type carries any payload of up to 64 bytes (log entry 5). -/
theorem reservedType_received (s : State) (h : DispHdr) (typ : Nat) : ∃ t pl, OnlyChanges [.clk] s t ∧ pl.length ≤ 64 ∧
    reservedType s h typ = receive t h typ none pl countForeign := by
  have hlen : (freshBelow s 65).2 ≤ 64 := Nat.le_of_lt_succ (Nat.mod_lt _ (by decide))
  exact ⟨(freshBelow (freshBelow s 65).1 (256 ^ (freshBelow s 65).2)).1, _,
    freshBelow_frame (freshBelow_frame (.refl _ s) (by decide)) (by decide), (le_length _ _).trans_le hlen, rfl⟩
theorem heard_of_ring {h : DispHdr} {gid : Option Nat} (hr : t.ring = s.ring) (hrun : running t .rng = running s .rng)
    (hh : Heard s h gid) : Heard t h gid := by
  rw [Heard, FirstCopy, hr, hrun]
  exact hh

/-! ## The registers that act (Table 13-13) -/

theorem isTrigger_txctl : IsTrigger .rng 0 0xC0
    (single 0xC0 [wo 31 24 (within 0x80 0xEF), wo 23 16 (fun v => v ≤ 0x40 || v == 0xFF), wo 6 0 (fun v => v ≤ 64)]) :=
  ⟨rfl, rfl, rfl, rfl, rfl, rfl, fun _ => rfl⟩
theorem isTrigger_rxPop : IsTrigger .rng 0 0x144 (single 0x144 [wo 0 0]) := ⟨rfl, rfl, rfl, rfl, rfl, rfl, fun _ => rfl⟩
theorem isTrigger_rngCmd : IsTrigger .rng 0 0x54 (single 0x54 [wo 0 0]) := ⟨rfl, rfl, rfl, rfl, rfl, rfl, fun _ => rfl⟩

theorem writeAccess_rxPop {i : Initiator} (h : coreAccess s i .rng 0 = true) (v : Nat) :
    writeAccess s i 0xB0144 4 (setBits v 0 0 1) {} = rxPop s := by
  have hbit : bitOf (setBits v 0 0 1 % 2 ^ 32) 0 = true := bitOf_word_setBits v 0 1 (by decide)
  rw [writeAccess_trigger h rfl isTrigger_rxPop rfl]
  exact if_pos hbit
theorem writeAccess_rngCmd {i : Initiator} (h : coreAccess s i .rng 0 = true) (v : Nat) :
    writeAccess s i 0xB0054 4 (setBits v 0 0 1) {} = enumCommand s := by
  have hbit : bitOf (setBits v 0 0 1 % 2 ^ 32) 0 = true := bitOf_word_setBits v 0 1 (by decide)
  rw [writeAccess_trigger h rfl isTrigger_rngCmd rfl]
  exact if_pos hbit
/-- A TXCTL word of a firmware type, a legal destination and a legal length. -/
theorem writeAccess_txctl {i : Initiator} (h : coreAccess s i .rng 0 = true) {v : Nat} (hv : v < 2 ^ 32) (h1 : 0x80 ≤ bitsOf v 31 24)
    (h2 : bitsOf v 31 24 ≤ 0xEF) (hd : bitsOf v 23 16 = 0xFF) (hl : bitsOf v 6 0 ≤ 64) :
    writeAccess s i 0xB00C0 4 v {} = txDispatch s v := by
  have hlow : v % 2 ^ 32 = v := Nat.mod_eq_of_lt hv
  rw [writeAccess_trigger h rfl isTrigger_txctl (by rw [hlow]; simp [single, r32, accepts, wo, within, h1, h2, hd, hl]), hlow]
  rfl

/-! ## Enumeration begins (R325 step 1) -/

/-- The originator has address 0 and leads its own group. -/
def enumBegun (s : State) : State := updRing s fun r => { r with
  starting := true, eastDone := false, origin := some (serhash s), addr := some 0, pmaddr := some 0, gid := none, tbmax := s.clk.tb }
theorem enumBegin_up (he : s.ring.east = .up) :
    enumBegin s = sendNear (enumBegun s) .east 0x10 (enumBytes 1 0 s.clk.tb (serhash s)) := if_pos he
theorem enumBegin_sent (hr : running s .rng = true) (he : s.ring.east = .up) :
    SentNear s (enumBegin s) .east 0x10 0 (enumBytes 1 0 s.clk.tb (serhash s)) := by
  rw [enumBegin_up he]
  exact sentNear_sendNear (s := enumBegun s) (p := .east) hr he
theorem enumBegin_ring (he : s.ring.east = .up) : ∃ seq, (enumBegin s).ring = { (enumBegun s).ring with seq } := by
  rw [enumBegin_up he]
  exact ⟨_, sendNear_ring _ _ _ _⟩

end Sys2Proof.Machine

namespace Sys2Proof.Proofs

open Machine Claims

theorem ringFirmwareDispatch : Claims.ringFirmwareDispatch := by
  intro s h typ pl hh
  refine completes_heard rfl rfl hh fun t ht => ?_
  obtain ⟨seen, hr⟩ := ht.ring
  have hq : t.ring.rxq = s.ring.rxq := by rw [hr]
  by_cases hfull : 16 ≤ t.ring.rxq.length
  · obtain ⟨hring, hcount, hcause⟩ := countForeign_counts t
    rw [if_pos hfull]
    refine ⟨fun hlt => absurd hfull (by rw [hq]; omega), fun _ => ⟨by rw [hring, hq], hcount.trans ?_, hcause⟩⟩
    rw [rdField, ht.rd, rdField]
  · rw [if_neg hfull]
    refine ⟨fun _ => ?_, fun hle => absurd hle (by rw [← hq]; exact hfull)⟩
    dsimp only
    rw [← hq]
    split
    · rw [ringCause_ring]
      rfl
    · rfl

theorem reservedDispatchType : Claims.reservedDispatchType := by
  intro s h typ hh
  obtain ⟨u, pl, hfree, hlen, heq⟩ := reservedType_received s h typ
  have hring : u.ring = s.ring := hfree.same .ring (by decide)
  have hregs : u.regs = s.regs := hfree.same .regs (by decide)
  have hh' : Heard u h none := heard_of_ring hring (running_of rfl (rd_of_regs hregs _) (hfree.same .chip (by decide))) hh
  refine completes_eq rfl (heq.trans (receive_heard hh')) ?_
  obtain ⟨-, hcount, hcause⟩ := countForeign_counts (taken u h typ pl)
  refine ⟨hcount.trans ?_, hcause, fun httl haddr hup => ⟨pl, hlen, ?_⟩⟩
  · rw [rdField, (marked_taken u h typ pl).rd, rd_of_regs hregs, rdField]
  · obtain ⟨-, hd⟩ := hh
    have hout := mem_taken (s := u) (h := h) (typ := typ) (pl := pl) httl (by rwa [hring, hd]) (by rwa [hring])
    rw [hd] at hout
    exact countForeign_out _ hout

theorem repeatedCopy : Claims.repeatedCopy := by
  intro s h typ pl hup hdst hsrc hseq
  exact completes_eq rfl (receive_repeated hup hdst hsrc hseq) rfl

theorem dispatchFrameError : Claims.dispatchFrameError := by
  intro s
  have hother : ∀ hi lo hi2 lo2, hi2 < 64 → (hi2 < lo ∨ hi < lo2) →
      rdField (satAdd s Reg.rngErr hi lo 1) Reg.rngErr hi2 lo2 = rdField s Reg.rngErr hi2 lo2 := fun hi lo hi2 lo2 h2 hd =>
    rdField_wrField_other s _ _ _ _ _ _ h2 hd
  exact ⟨⟨_, rfl, rdField_satAdd s _ (by decide) 1, hother _ _ _ _ (by decide) (by decide), satAdd_frame (.refl _ s) (by decide)⟩,
    _, rfl, rdField_satAdd s _ (by decide) 1, hother _ _ _ _ (by decide) (by decide), satAdd_frame (.refl _ s) (by decide)⟩

theorem ringTxDispatch : Claims.ringTxDispatch := by
  intro s i v hc hrun hv h1 h2 hd hl
  refine completes_eq rfl (writeAccess_txctl hc hv h1 h2 hd hl) ?_
  have hall : txDispatch s v.toNat = sendAll s (bitsOf v.toNat 31 24) 0xFF
      (((List.range 16).map fun w => le 4 (rd s (Reg.rngTxbuf w))).flatten.take (bitsOf v.toNat 6 0)) := by
    unfold txDispatch
    rw [hd]
    rfl
  rw [hall]
  exact ⟨by rw [sendAll_ring, nextSeq_running hrun], sendAll_only _ _ _ _, sent_sendAll hrun⟩

theorem ringRxPop : Claims.ringRxPop := by
  intro s i v hc
  exact completes_eq rfl (writeAccess_rxPop hc _) ⟨rfl, updRing_frame (.refl _ s) (by decide)⟩

theorem rngEnumCommand : Claims.rngEnumCommand := by
  intro s i v hc hrun
  constructor
  · intro hrole heast
    refine completes_eq rfl ((writeAccess_rngCmd hc _).trans (if_pos hrole)) ?_
    obtain ⟨seq, hr⟩ := enumBegin_ring (s := updRing s fun r => { r with retried := false }) heast
    rw [hr]
    exact ⟨rfl, rfl, rfl, enumBegin_sent (s := updRing s fun r => { r with retried := false }) hrun heast⟩
  · intro hrole
    exact completes_eq rfl ((writeAccess_rngCmd hc _).trans (if_neg hrole)) ⟨ringCause_sets _ (by decide), ringCause_ring _ _⟩

theorem beaconSend : Claims.beaconSend := by
  intro s hrun
  exact ⟨_, rfl, sent_sendAll hrun, (congrArg Ring.seq (sendAll_ring ..)).trans (nextSeq_running hrun), sendAll_only _ _ _ _⟩

theorem reachExpiry : Claims.reachExpiry := by
  intro s a ha
  refine completes_eq rfl (if_neg (by simp [ha])) ?_
  rw [refresh_ring]
  exact ⟨rfl, rfl, rfl⟩

/-- Settles O47, command by command: what is received, dropped and forwarded, and the three registers' writes. -/
theorem ringRelay : Obligations.RingRelay :=
  ⟨ringFirmwareDispatch, reservedDispatchType, repeatedCopy, dispatchFrameError, ringTxDispatch, ringRxPop, rngEnumCommand, beaconSend,
    reachExpiry⟩

end Sys2Proof.Proofs
end
section
/-! PROOFS. O48: isolation and rejoining (R328, R329, R343), the timers of enumeration and admission (R324 to R326), the sub-postmaster
(R330) and the repeats of dispatches (R323). -/

namespace Sys2Proof.Machine

open Claims

variable {s t u : State}

/-- A change of state sets its cause. -/
theorem toState_caused {x : RingSt} (h : s.ring.st ≠ x) : ∃ u, Noticed (ringCause u 0) (toState s x) := by
  refine ⟨updRing s fun r => { r with st := x, tchange := s.clk.tb, changes := r.changes + 1 }, ?_⟩
  have hset :=
    (Noticed.refl (ringCause (updRing s fun r => { r with st := x, tchange := s.clk.tb, changes := r.changes + 1 }) 0)).ringNotice
  unfold toState
  rw [if_neg h]
  exact .ite hset (hset.updUnsync true)

/-- What goes out from a state of the same links, address and SEQ. -/
theorem Sent.of_ring {typ dst : Nat} {pl : List Byte} (he : u.ring.east = s.ring.east) (hw : u.ring.west = s.ring.west)
    (ha : u.ring.addr = s.ring.addr) (hq : u.ring.seq = s.ring.seq) (h : Sent u t typ dst pl) : Sent s t typ dst pl := fun p hp => by
  have hlink : linkOf u.ring p = .up := by
    rw [← hp]
    cases p
    · exact he
    · exact hw
  have hout := h p hlink
  rwa [ownSrc, ha, hq] at hout

/-! ## Isolation (R328, R329, R343) -/

/-- A member that rejoined and holds no schedule is outside its window (Table 13-8). -/
theorem insideWin_rejoined (hst : s.ring.st = .member) (hs : s.ring.sched = none) (hj : s.ring.rejoined = true) : insideWin s = false := by
  simp only [insideWin, winSource, hst, hs, hj, if_true]

/-- A unit that rejoins is a member without a schedule. -/
def rejoined (s : State) (pm : Option Nat) : State :=
  refresh s.ring (updRing (toState s .member) fun r => { r with
    sched := none, nextSched := none, rejoined := true, pmaddr := pm.orElse fun _ => r.pmaddr })
/-- The postmaster that the members' beacons name first. -/
def toldPm (r : Ring) : Option Nat :=
  (r.reach.filterMap fun a => (nget r.heard a).bind fun b => if b.state = 2 && b.pmaddr < 64 then some b.pmaddr else none).head?
/-- The address that a rejoined unit asks. -/
def askedPm (s : State) : Nat := (rejoined s (toldPm s.ring)).ring.pmaddr.getD 0xFF
theorem rejoin_eq {a : Nat} {b : Beacon} (hst : s.ring.st = .isolated) (hin : inGroup s.ring = true) (ha : a ∈ s.ring.reach)
    (hb : nget s.ring.heard a = some b) (h2 : b.state = 2) : Machine.rejoin s =
      sendRepeat (sendRepeat (rejoined s (toldPm s.ring)) 0x12 (askedPm s) []) 0x20 (askedPm s) [] := by
  have hany : (s.ring.reach.any fun a => ((nget s.ring.heard a).map fun b => b.state) == some 2) = true :=
    List.any_eq_true.2 ⟨a, ha, by rw [hb, Option.map_some, h2]; rfl⟩
  unfold Machine.rejoin
  rw [if_neg (by simp [hst, hin, hany])]
  rfl
theorem rejoined_ring (s : State) (pm : Option Nat) (hh : ∀ c d, nget s.ring.heard c = some d → d.sseq ≠ 0) :
    ∃ x : Ring, (rejoined s pm).ring = { x with st := .member, sched := none, inWin := false, repeats := s.ring.repeats } := by
  obtain ⟨tchange, changes, unsync, hr⟩ := toState_ring_fields s .member
  have hpm : ∀ r : Ring, r.heard = s.ring.heard → pmSseq r ≠ some 0 := fun r hheard he => by
    obtain ⟨p, -, hp⟩ := Option.bind_eq_some_iff.1 he
    obtain ⟨d, hd, h0⟩ := Option.map_eq_some_iff.1 hp
    exact hh p d (hheard ▸ hd) h0
  have hout : ∀ v : State, v.ring.st = .member → v.ring.sched = none → v.ring.rejoined = true → v.ring.heard = s.ring.heard →
      insideWin (updRing v settled) = false := fun v hst hs hj hheard => by
    refine insideWin_rejoined hst hs ?_
    rw [updRing_ring, settled, hj, beq_false_of_ne (hpm _ hheard), Bool.and_false]
    rfl
  refine ⟨(rejoined s pm).ring, ?_⟩
  rw [rejoined, refresh_ring, hout _ (by rw [updRing_ring, hr]) rfl rfl (by rw [updRing_ring, hr]), updRing_ring, hr]
  rfl

/-! ## The postmaster's place (R330) -/

/-- The sub-postmaster takes over. -/
def tookOver (s : State) (a : Nat) : State :=
  refresh s.ring (updRing s fun r => { r with pmaddr := some a, offset := 0, holdover := false })
theorem takeover_eq {pm a : Nat} (hst : s.ring.st = .member) (hpm : s.ring.pmaddr = some pm) (ha : s.ring.addr = some a)
    (hr : pm ∉ reachSet s.ring) (hsub : subAddr s.ring = some a) : takeover s =
      sendRepeat (if (tookOver s a).ring.locked then updUnsync (tookOver s a) false else tookOver s a) 0x15 0xFF (le 1 a ++ le 1 pm) := by
  unfold takeover
  simp only [hpm, ha]
  exact if_pos (by simp [hst, hr, hsub])

/-- The new postmaster in sync where it was locked. -/
def tookOverSync (s : State) (a : Nat) : State :=
  if (tookOver s a).ring.locked then updUnsync (tookOver s a) false else tookOver s a
theorem tookOverSync_noticed (s : State) (a : Nat) : Noticed s (tookOverSync s a) := by
  have h : Noticed s (tookOver s a) := ((Noticed.refl s).updRing _).refresh _
  exact .ite (h.updUnsync false) h
theorem tookOverSync_ring {a : Nat} (hst : s.ring.st = .member) (ha : s.ring.addr = some a) : ∃ x : Ring, (tookOverSync s a).ring = { x with
    east := s.ring.east, west := s.ring.west, addr := s.ring.addr, seq := s.ring.seq, pmaddr := some a, role := 1 } := by
  have hrole : roleOf { s.ring with pmaddr := some a, offset := 0, holdover := false } = 1 := by simp [roleOf, hst, ha]
  refine ⟨(tookOverSync s a).ring, ?_⟩
  unfold tookOverSync
  split
  · rw [updUnsync_ring, tookOver, refresh_ring, settled, updRing_ring, hrole]
  · rw [tookOver, refresh_ring, settled, updRing_ring, hrole]

/-! ## Repeats (R323) -/

/-- A repeat goes out on both ports. -/
def repeatSent (s : State) (x : Repeat) : State :=
  sendPort (sendPort s .east x.typ x.dst (ownSrc s) 64 x.seq x.payload) .west x.typ x.dst (ownSrc s) 64 x.seq x.payload
theorem dispatchRepeat_only_one {x : Repeat} (hx : s.ring.repeats = [x]) : Machine.dispatchRepeat s x.seq =
    updRing (repeatSent s x) fun r => { r with
      repeats := (r.repeats.map fun y => if y.seq == x.seq then { y with left := y.left - 1 } else y).filter fun y => 0 < y.left } := by
  have hfind : (s.ring.repeats.find? fun y => y.seq == x.seq) = some x := by simp [hx]
  unfold Machine.dispatchRepeat
  rw [hfind]
  rfl
theorem repeatSent_ring (s : State) (x : Repeat) : (repeatSent s x).ring = s.ring := (sendPort_ring ..).trans (sendPort_ring ..)

/-- A unit that knows its postmaster's beacon asks for the group's state, and for nothing else where it holds the schedule. -/
theorem gsRequest_eq {pm : Nat} {b : Beacon} (hpm : s.ring.pmaddr = some pm) (hb : nget s.ring.heard pm = some b)
    (hd : s.ring.gid ≠ some b.gid ∨ s.ring.st ≠ .member) (hq : sseqNow s.ring = b.sseq) : gsRequest s = sendRepeat s 0x12 b.addr [] := by
  have hask : (s.ring.gid != some b.gid || s.ring.st != .member) = true := by simpa using hd
  unfold gsRequest
  simp only [hpm, Option.orElse_some, Option.bind_some, hb]
  rw [if_neg (by simp [hq]), if_pos hask]

end Sys2Proof.Machine

namespace Sys2Proof.Proofs

open Machine Claims

theorem isolatedEntry : Claims.isolatedEntry := by
  intro s hst hout
  have hne : s.ring.st ≠ .isolated := by simp [hst]
  obtain ⟨u, hu⟩ := toState_caused hne
  refine completes_eq rfl (if_neg (by simp [hst, hout])) ?_
  have hcause := (hu.refresh s.ring).caused (by decide)
  rw [refresh_ring, toState_ring s _ hne]
  exact ⟨rfl, rfl, rfl, rfl, hcause⟩

theorem rejoin : Claims.rejoin := by
  intro s a b hst hin ha hb h2 hrun hh
  obtain ⟨x, hx⟩ := rejoined_ring s (toldPm s.ring) hh
  have hnoticed : Noticed s (rejoined s (toldPm s.ring)) := (((Noticed.refl s).toState _).updRing _).refresh _
  have hrun1 := hnoticed.running.trans hrun
  refine completes_eq rfl (rejoin_eq hst hin ha hb h2) ?_
  rw [sendRepeat_ring_running ((running_sendRepeat ..).trans hrun1), sendRepeat_ring_running hrun1, hx]
  exact ⟨rfl, rfl, rfl, by simp⟩

theorem isolatedAddressDrop : Claims.isolatedAddressDrop := by
  intro s hst hforeign hnone
  have hany : s.ring.reach.any (isMember s.ring) = false := by simpa using hnone
  refine completes_eq rfl (if_neg (by simp [hst, hforeign, hany])) ?_
  rw [refresh_ring, toState_ring _ _ (by simp [hst])]
  exact ⟨rfl, rfl, rfl, rfl⟩

theorem enumStart : Claims.enumStart := by
  intro s hmay hrun heast
  refine completes_eq rfl (if_pos hmay) ?_
  obtain ⟨seq, hr⟩ := enumBegin_ring heast
  rw [hr]
  exact ⟨rfl, rfl, rfl, enumBegin_sent hrun heast⟩

theorem enumTimeout : Claims.enumTimeout := by
  intro s hstart
  constructor
  · intro hfirst heast
    have heast' : (updRing (ringCause s 4) fun r => { r with retried := true }).ring.east = .up := by rwa [updRing_ring, ringCause_ring]
    refine completes_eq rfl ((if_neg (by simp [hstart])).trans (if_neg (by rw [ringCause_ring, hfirst]; decide))) ?_
    obtain ⟨seq, hr⟩ := enumBegin_ring heast'
    rw [hr]
    refine ⟨rfl, rfl, ?_⟩
    rw [enumBegin_up heast']
    exact ((((Noticed.refl (ringCause s 4)).updRing _).updRing _).sendNear ..).caused (by decide)
  · intro hsecond
    refine completes_eq rfl ((if_neg (by simp [hstart])).trans (if_pos (by rw [ringCause_ring, hsecond]))) ?_
    have hcause := ((((Noticed.refl (ringCause s 4)).updRing fun r =>
      { r with starting := false, addr := none, pmaddr := none, origin := none, n := 0 }).toState .unenumerated).refresh
      (ringCause s 4).ring).caused (by decide)
    obtain ⟨tchange, changes, unsync, hr⟩ := toState_ring_fields (updRing (ringCause s 4) fun r =>
      { r with starting := false, addr := none, pmaddr := none, origin := none, n := 0 }) .unenumerated
    refine ⟨?_, ?_, hcause⟩ <;> rw [refresh_ring, hr] <;> rfl

theorem joinSend : Claims.joinSend := by
  intro s hst haddr hheard hmay hretried hrun
  refine completes_eq rfl (if_pos (by simp [hst, haddr, hheard, hmay, hretried])) ⟨sent_sendAll hrun, sendAll_only _ _ _ _⟩

theorem postmasterTakeover : Claims.postmasterTakeover := by
  intro s pm a hst hpm ha hr hsub hrun
  obtain ⟨x, hx⟩ := tookOverSync_ring hst ha
  have hsent := sent_sendRepeat (typ := 0x15) (dst := 0xFF) (pl := le 1 a ++ le 1 pm) ((tookOverSync_noticed s a).running.trans hrun)
  refine completes_eq rfl (takeover_eq hst hpm ha hr hsub)
    ⟨?_, ?_, Sent.of_ring (by rw [hx]) (by rw [hx]) (by rw [hx]) (by rw [hx]) hsent⟩ <;>
    rw [← tookOverSync, sendRepeat_ring, hx]

theorem dispatchRepeat : Claims.dispatchRepeat := by
  intro s x hx
  refine completes_eq rfl (dispatchRepeat_only_one hx) ⟨?_, by rw [updRing_ring, repeatSent_ring], fun p hp => mem_sendPort_both hp⟩
  rw [updRing_ring, repeatSent_ring, hx]
  by_cases hlast : x.left ≤ 1 <;> simp [hlast, Nat.not_le.1]

theorem groupstateRequest : Claims.groupstateRequest := by
  intro s pm b hpm hb hdiff hsseq hlow hrun
  refine completes_eq rfl (gsRequest_eq hpm hb hdiff hsseq) ⟨sent_sendRepeat hrun, ?_⟩
  rw [sendRepeat_ring_running hrun, repeatOf, if_neg (by omega), bne_iff_ne.2 (by omega)]

/-- Settles O48, command by command: what `toState`, `refresh` and `sendRepeat` leave in the ring's state. -/
theorem ringTimersA : Obligations.RingTimersA :=
  ⟨isolatedEntry, rejoin, isolatedAddressDrop, enumStart, enumTimeout, joinSend, postmasterTakeover, dispatchRepeat, groupstateRequest⟩

end Sys2Proof.Proofs
end
section
/-! PROOFS. O49: what the timers of a member bring (R332, R334 to R336, R338, R339, R342), and activation at its time (R341, R357, R362). -/

namespace Sys2Proof.Machine

open Claims

variable {s t u : State}

/-! ## The window (R338) -/

/-- What is written to the window's state does not decide it. -/
theorem insideWin_updWindow (s : State) : insideWin (updWindow s) = insideWin s := by
  have h := (Noticed.refl s).updWindow
  have hw : Noticed (updRing s fun r => { r with inWin := insideWin s }) (updWindow s) := ⟨h.regs, h.causes, h.tb, h.chip⟩
  exact hw.insideWin (updWindow_ring s)

/-- From s to t the bits that show the window stay, and the ring's causes. -/
structure WinKept (s t : State) : Prop where
  regime : rd t Reg.mapRegime = rd s Reg.mapRegime
  shown : bitOf (rd t (Reg.sts .pat)) 17 = bitOf (rd s (Reg.sts .pat)) 17
  causes : rd t Reg.rngCause = rd s Reg.rngCause

namespace WinKept

theorem refl (s : State) : WinKept s s := ⟨rfl, rfl, rfl⟩
theorem trans {z : State} (h : WinKept z s) (k : WinKept s t) : WinKept z t :=
  ⟨k.regime.trans h.regime, k.shown.trans h.shown, k.causes.trans h.causes⟩
theorem ite {z : State} {c : Prop} [Decidable c] (h : WinKept z s) (k : WinKept z t) : WinKept z (if c then s else t) := by
  split <;> assumption
/-- A step that leaves the three registers. -/
theorem of_rd {z : State} (h : WinKept z s) (hr : ∀ a, a = Reg.mapRegime ∨ a = Reg.sts .pat ∨ a = Reg.rngCause → rd t a = rd s a) :
    WinKept z t :=
  h.trans ⟨hr _ (.inl rfl), congrArg (bitOf · 17) (hr _ (.inr (.inl rfl))), hr _ (.inr (.inr rfl))⟩
theorem beside {z : State} (h : WinKept z s) (hr : t.regs = s.regs) : WinKept z t := h.of_rd fun a _ => rd_of_regs hr a
theorem of_pace {z : State} (h : WinKept z s) (k : PaceKept s t) : WinKept z t :=
  h.of_rd fun a ha => k.regs a (by rcases ha with rfl | rfl | rfl <;> decide)
theorem setCause {z : State} (h : WinKept z s) (bit src : Nat) : WinKept z (setCause s (pat 0x54) bit src) :=
  h.of_rd fun a ha => by rcases ha with rfl | rfl | rfl <;> exact rd_setCause _ rfl (by decide)
/-- Any other bit of PAT_STS may change. -/
theorem of_sts {z : State} (h : WinKept z s) (hb : bitOf (rd t (Reg.sts .pat)) 17 = bitOf (rd s (Reg.sts .pat)) 17)
    (hr : ∀ a, a ≠ Reg.sts .pat → rd t a = rd s a) : WinKept z t := h.trans ⟨hr _ (by decide), hb, hr _ (by decide)⟩

theorem catchup {z : State} (h : WinKept z s) : WinKept z (catchup s) := by
  have hon : WinKept z (orReg s (Reg.sts .pat) (2 ^ 16)) :=
    h.of_sts (by rw [bitOf_orReg _ _ _ _ (by decide)]; exact Bool.or_false _) fun a ha => rd_orReg_other s ha
  exact .ite (hon.setCause 3 98) (.ite h (h.of_sts
    (bitOf_wrField_other _ _ _ _ _ _ (by decide) (by decide)) fun a ha => rd_wrField_other s ha))
theorem choose {z : State} (h : WinKept z s) : WinKept z (choose s) := by
  unfold Machine.choose
  dsimp only
  refine .ite h.catchup ?_
  split
  · exact h.catchup
  · exact h.catchup.beside rfl
theorem visitOver {z : State} (h : WinKept z s) : WinKept z (visitOver s) := by
  unfold Machine.visitOver
  split
  · exact h
  · exact .ite (choose (h.beside rfl)) h
theorem patIssue {z : State} (h : WinKept z s) : WinKept z (patIssue s) := by
  unfold Machine.patIssue
  refine .ite h ?_
  dsimp only
  split
  · exact h.visitOver
  · split
    · exact h.visitOver
    · exact h.visitOver.of_pace (.pump (.addReads (.updPat (.pin (.refl _) _) _) _ _))
theorem patGo {z : State} (h : WinKept z s) : WinKept z (patGo s) := .ite h.patIssue h

end WinKept

/-! ## UNSYNC and the window as they are taken (R335, R338) -/

theorem rdField_bit (s : State) (a n : Nat) : rdField s a n n = (bitOf (rd s a) n).toNat := by
  rw [bitOf, Nat.toNat_testBit, rdField, bitsOf, Nat.add_sub_cancel_left, Nat.pow_one]

/-- The bits that show a window. -/
def winShown (s : State) : State :=
  let b : Nat := if insideWin s then 1 else 0
  wrField (wrField (updRing s fun r => { r with inWin := insideWin s }) Reg.mapRegime 1 1 b) (Reg.sts .pat) 17 17 b
theorem updWindow_changed (h : insideWin s ≠ s.ring.inWin) :
    updWindow s = reclaimPace (ringCause (plmNotice (plmNotice (winShown s) .a) .b) 6) := if_neg h
theorem winShown_regime (s : State) : rdField (winShown s) Reg.mapRegime 1 1 = if insideWin s then 1 else 0 := by
  rw [winShown, rdField, rd_wrField_other _ (by decide), ← rdField, rdField_wrField _ _ _ _ _ (by decide)]
  split <;> rfl
theorem winShown_sts (s : State) : rdField (winShown s) (Reg.sts .pat) 17 17 = if insideWin s then 1 else 0 := by
  rw [winShown, rdField_wrField _ _ _ _ _ (by decide)]
  split <;> rfl
theorem plmNotice_regs (s : State) (p : Port) {a : Nat} (ha : signalReg a = false) : rd (plmNotice s p) a = rd s a := by
  unfold plmNotice
  dsimp only
  split
  · rfl
  · split
    · rw [rd_asyncEvent _ _ _ _ _ ha, rd_setPort]
    · exact rd_setPort _ _ _ _
theorem updWindow_shows (h : insideWin s ≠ s.ring.inWin) : rd (updWindow s) Reg.mapRegime = rd (winShown s) Reg.mapRegime ∧
    rd (updWindow s) (Reg.sts .pat) = rd (winShown s) (Reg.sts .pat) ∧ bitOf (rd (updWindow s) Reg.rngCause) 6 = true := by
  have hkeep : ∀ a, ¬ PacedReg a → signalReg a = false → a ≠ Reg.rngCause → rd (updWindow s) a = rd (winShown s) a := fun a hp hs hc => by
    rw [updWindow_changed h, (PaceKept.reclaimPace (.refl _)).regs a hp, ringCause, rd_setCause _ hs hc, plmNotice_regs _ _ hs,
      plmNotice_regs _ _ hs]
  refine ⟨hkeep _ (by decide) rfl (by decide), hkeep _ (by decide) rfl (by decide), ?_⟩
  rw [updWindow_changed h]
  exact (Noticed.refl _).reclaimPace.caused (by decide)
theorem patGo_ring (s : State) : (patGo s).ring = s.ring :=
  (patGo_frame (F := besideRing) (.refl _ s) (by decide) (by decide) (by decide) (by decide) (by decide) (by decide) (by decide) (by decide)
    (by decide) (by decide) (by decide) (by decide) (by decide)).same .ring (by decide)

/-! ## The end of a slew (R334) -/

/-- The timebase has gained what it was behind, and the offset is slewed out. -/
def slewed (s : State) : State :=
  updRing (updClk s fun c => { c with tb := c.tb + (s.ring.offset / 64).toNat, wd := wdCount s (s.ring.offset / 64).toNat })
    fun r => { r with offset := 0 }

/-! ## Group-epoch ticks (R339) -/

theorem tickMark_ring (s : State) : (tickMark s).ring = { s.ring with tickDone := tickIndex s } := ringCause_ring _ _
theorem tickIndex_tickMark (s : State) : tickIndex (tickMark s) = tickIndex s := by
  have htb : (tickMark s).clk.tb = s.clk.tb := (((Noticed.refl s).updRing _).ringCause 7).tb
  rw [tickIndex, groupTime, tickMark_ring, htb, tickIndex, groupTime]
theorem tickDue_tickMark (s : State) : tickDue (tickMark s) = false := by
  rw [tickDue, tickIndex_tickMark, tickMark_ring, decide_eq_false (Nat.lt_irrefl _), Bool.and_false]
theorem running_jrc_tickMark (s : State) : running (tickMark s) .jrc = running s .jrc :=
  running_of rfl (rd_setCause _ rfl (by decide)) (ringCause_chip _ _)

/-! ## The relay resumed (R342 step 4) -/

/-- A chunk as it is sent. -/
def chunkBytes (s : State) (k : Nat) : List Byte := le 4 k ++ (s.ring.txImage.drop (60 * k)).take 60
theorem foldl_out_subset {α : Type} {g : State → α → State} (hg : ∀ x k, x.out ⊆ (g x k).out) (l : List α) (s : State) :
    s.out ⊆ (l.foldl g s).out := by
  induction l generalizing s with
  | nil => exact List.Subset.refl _
  | cons k ks ih => exact List.Subset.trans (hg s k) (ih _)
/-- The first chunk past those that were sent goes out first. -/
theorem sendChunks_first {p : RingPort} (hr : running s .rng = true) (hp : linkOf s.ring p = .up)
    (hs : (txOf s.ring p).sent < min (relChunks (txOf s.ring p).size) ((txOf s.ring p).next + 64)) :
    SentNear s (sendChunks s p) p 0x41 (ownSrc s) (chunkBytes s (txOf s.ring p).sent) := by
  obtain ⟨n, hn⟩ := Nat.exists_eq_add_of_lt hs
  have hlist : (List.range (min (relChunks (txOf s.ring p).size) ((txOf s.ring p).next + 64) - (txOf s.ring p).sent)).map
      (fun k => (txOf s.ring p).sent + k) =
      (txOf s.ring p).sent :: (List.range n).map fun k => (txOf s.ring p).sent + (k + 1) := by
    rw [hn, Nat.add_assoc, Nat.add_sub_cancel_left, List.range_succ_eq_map, List.map_cons, List.map_map]
    rfl
  have hsent := sentNear_sendNear (typ := 0x41) (pl := chunkBytes s (txOf s.ring p).sent) hr hp
  unfold sendChunks
  dsimp only
  rw [hlist, List.foldl_cons]
  exact foldl_out_subset (fun x k => sendNear_out_subset x p 0x41 _) _ _ hsent

/-! ## Activation at its time (R341, R357, R362) -/

/-- The scheduled activation is taken. -/
def actTaken (s : State) : State := updRing s fun r => { r with act := none }
theorem activationTime_due {digest tact stp : Nat} (ha : s.ring.act = some (digest, tact, stp)) (hs : s.sec.act = none)
    (ht : tact + s.ring.addr.getD 0 * stp * 250000 ≤ groupTime s) : Machine.activationTime s =
      if s.ring.st != .member then activationSkip (actTaken s) 3 stFwProhibited
      else if digest16 (slotImage s (1 - runningSlot s)) != digest then activationSkip (actTaken s) 2 stFwProhibited
      else activate (actTaken s) (1 - runningSlot s) true := by
  unfold Machine.activationTime
  simp only [ha]
  exact if_neg (by simp [hs, ht])

/-- What ends a waiting Firmware Commit leaves the registers outside the event fabric. -/
theorem rd_commitEnd (s : State) (st : Status) {a : Nat} (ha : signalReg a = false) : rd (commitEnd s st) a = rd s a := by
  unfold commitEnd
  split
  · dsimp only
    split
    · rfl
    · exact rd_complete _ _ _ _ _ _ ha
  · rfl
theorem commitEnd_act (s : State) (st : Status) : (commitEnd s st).sec.act = s.sec.act := by
  unfold commitEnd
  split
  · dsimp only
    split
    · rfl
    · rw [complete_sec]
      rfl
  · rfl
theorem rd_activationSkip (s : State) (outcome : Nat) (st : Status) : rd (activationSkip s outcome st) Reg.secActres =
    rd (doneRes (trigRes s Reg.secActres) Reg.secActres (outcome * 2 ^ 28)) Reg.secActres := by
  rw [activationSkip, rd_commitEnd _ _ rfl, secCauseSet, rd_setCause _ rfl (by decide)]
theorem rd_doneRes (s : State) (a bits : Nat) : rd (doneRes s a bits) a = (2 ^ 31 + bits + rdField s a 15 0) % 2 ^ 64 := rd_wr_same s _ _
theorem activationSkip_cause (s : State) (outcome : Nat) (st : Status) :
    bitOf (rd (activationSkip s outcome st) Reg.secCause) 3 = true := by
  rw [activationSkip, rd_commitEnd _ _ rfl]
  unfold secCauseSet setCause
  split
  · assumption
  · exact bitOf_raise_orReg _ rfl (by decide)
theorem activationSkip_only (s : State) (outcome : Nat) (st : Status) : OnlyChanges (.sec :: signals) s (activationSkip s outcome st) :=
  commitEnd_frame (secCauseSet_frame (doneRes_frame (trigRes_frame (.refl _ s) (by decide)) (by decide)) (by decide) (by decide) (by decide)
    (by decide) (by decide)) (by decide) (by decide) (by decide) (by decide) (by decide) (by decide)

theorem activationSkip_act (s : State) (outcome : Nat) (st : Status) : (activationSkip s outcome st).sec.act = s.sec.act := by
  rw [activationSkip, commitEnd_act, secCauseSet_sec, doneRes_sec]
  rfl

/-- What the activation of an image holds until it ends. -/
def activationOf (s : State) (slot : Nat) : Activation :=
  { slot, digest := Config.sha512 (slotImage s slot), cmd := none, svn := fieldAt (slotImage s slot) 10 1
    keyslot := fieldAt (slotImage s slot) 11 1, svncommit := bitOf (fieldAt (slotImage s slot) 12 4) 0 }
/-- An accepted image's activation begins, and fetching stops. -/
def activateBegun (s : State) (slot : Nat) : State :=
  updChip (updSec (trigRes s Reg.secActres) fun x => { x with act := some (activationOf s slot) }) fun c => { c with stopFetch := true }
/-- A port's host is told of it, where it asked to be. -/
def activationTold (s : State) (p : Port) : State := if aerEnabled (getPort s p) 9 then asyncEvent s p 2 1 3 else s
theorem activationTold_only (s : State) (p : Port) : OnlyChanges signals s (activationTold s p) := by
  unfold activationTold
  split
  · exact asyncEvent_frame (.refl _ s) (by decide) (by decide) (by decide) (by decide) (by decide)
  · exact .refl _ s
theorem activate_accepted {slot : Nat} {group : Bool} (h : accept s (slotImage s slot) = 0) :
    activate s slot group = activationTold (activationTold (activateBegun s slot) .a) .b := by
  unfold activate
  dsimp only
  rw [h]
  rfl
theorem activate_only {slot : Nat} {group : Bool} (h : accept s (slotImage s slot) = 0) :
    OnlyChanges signals (activateBegun s slot) (activate s slot group) := by
  rw [activate_accepted h]
  exact (activationTold_only _ _).trans (activationTold_only _ _)

end Sys2Proof.Machine

namespace Sys2Proof.Proofs

open Machine Claims

theorem syncReqSend : Claims.syncReqSend := by
  intro s p hup hst hlink hrun
  have hsend : syncSend s = sendNear s p 0x03 (le 8 (64 * s.clk.tb)) := by
    unfold syncSend
    simp only [hup]
    exact if_pos hst
  exact completes_eq rfl hsend ⟨sendNear_out hrun hlink, sendNear_only _ _ _ _⟩

theorem slewDone : Claims.slewDone := by
  intro s hst hh hl
  obtain ⟨inWin, hr⟩ := updWindow_updUnsync_ring (slewed s) false
  have htb := (((Noticed.refl (slewed s)).updUnsync false).updWindow).tb
  refine completes_eq rfl (if_neg (by simp [hst, hh, hl])) ⟨congrArg Ring.offset hr, congrArg Ring.unsync hr, ?_⟩
  exact (Nat.le_add_right _ _).trans_eq htb.symm

theorem scheduleEffective : Claims.scheduleEffective := by
  intro s d hd heff
  have hnow : schedEffective s = updWindow (updRing s fun r => { r with sched := some d, nextSched := none, rejoined := false }) := by
    unfold schedEffective
    simp only [hd]
    exact if_pos heff
  refine completes_eq rfl hnow ?_
  rw [insideWin_updWindow, updWindow_ring]
  exact ⟨rfl, rfl, rfl, rfl⟩

theorem windowBoundary : Claims.windowBoundary := by
  intro s hw
  obtain ⟨hregime, hsts, hcause⟩ := updWindow_shows hw
  have hkept := (WinKept.refl (updWindow s)).patGo
  refine completes_eq rfl rfl ⟨?_, ?_, ?_, ?_⟩
  · rw [Machine.windowBoundary, patGo_ring, updWindow_ring]
  · rw [rdField, Machine.windowBoundary, hkept.regime, hregime, ← rdField, winShown_regime]
  · rw [rdField_bit, Machine.windowBoundary, hkept.shown, hsts, ← rdField_bit, winShown_sts]
  · rw [Machine.windowBoundary, hkept.causes, hcause]

theorem groupEpochTick : Claims.groupEpochTick := by
  intro s hdue hjrc
  have hmark : groupTick s = tickMark s := by
    unfold groupTick
    rw [if_neg (by simp [hdue])]
    exact if_neg (by simp [running_jrc_tickMark, hjrc])
  exact completes_eq rfl hmark ⟨tickMark_ring s, ringCause_sets _ (by decide), tickDue_tickMark s⟩

theorem relayResend : Claims.relayResend := by
  intro s p hact hst hlink hrun hmore
  have htx := txOf_setTx_same s p { txOf s.ring p with sent := (txOf s.ring p).next }
  have hlink' : linkOf (setTx s p { txOf s.ring p with sent := (txOf s.ring p).next }).ring p = .up := by
    rw [← hlink]
    cases p <;> rfl
  have hfirst := sendChunks_first (s := setTx s p { txOf s.ring p with sent := (txOf s.ring p).next }) (p := p) hrun hlink'
    (by rw [htx]; dsimp only; omega)
  refine completes_eq rfl (if_neg (by simp [hact, hst])) ⟨?_, ?_⟩
  · rw [txOf_sendChunks, htx]
    dsimp only
    omega
  · rw [htx] at hfirst
    cases p <;> exact hfirst

theorem activationTimeSkip : Claims.activationTimeSkip := by
  intro s digest tact step hact hnone hst htime
  have hsmall : rdField (trigRes (actTaken s) Reg.secActres) Reg.secActres 15 0 < 2 ^ 16 := Nat.mod_lt _ (by decide)
  refine completes_eq rfl ((activationTime_due hact hnone htime).trans (if_pos (by simpa using hst)))
    ⟨?_, ?_, ?_, activationSkip_cause _ _ _, ?_⟩
  · rw [(activationSkip_only _ _ _).same .ring (by decide)]
    rfl
  · rw [rdField, rd_activationSkip, rd_doneRes, bitsOf]
    omega
  · rw [rdField, rd_activationSkip, rd_doneRes, bitsOf]
    omega
  · rw [activationSkip_act]
    exact hnone

theorem activationTime : Claims.activationTime := by
  intro s tact step hact hnone hst htime haccept
  have hdue := (activationTime_due hact hnone htime).trans ((if_neg (by simp [hst])).trans (if_neg (by simp)))
  have honly := activate_only (s := actTaken s) (slot := 1 - runningSlot s) (group := true) haccept
  refine completes_eq rfl hdue ⟨?_, ?_, activationOf s (1 - runningSlot s), ?_, rfl, rfl, rfl, rfl⟩
  · rw [honly.same .ring (by decide)]
    rfl
  · rw [honly.same .chip (by decide)]
    rfl
  · rw [honly.same .sec (by decide)]
    rfl

theorem holdoverExpiry : Claims.holdoverExpiry := by
  intro s hst hh
  refine completes_eq rfl (if_pos (by simp [hst, hh])) ⟨by rw [updUnsync_ring], fun hs => ?_⟩
  rw [updUnsync, if_neg (by simp [hs])]
  exact (Noticed.refl _).ringNotice.caused (by decide)

/-- Settles O49, command by command: what the window's, the timebase's and the activation's steps write and keep. -/
theorem ringTimersB : Obligations.RingTimersB :=
  ⟨syncReqSend, slewDone, scheduleEffective, windowBoundary, groupEpochTick, relayResend, activationTimeSkip, activationTime,
    holdoverExpiry⟩

end Sys2Proof.Proofs
end
